-- ==== Sys2Proof/Word.lean ====
section
/-!
DEFINITION. The plain data of the model: words, sparse tables, and the shapes of what arrives from
outside the device (a return frame, a heartbeat, a failing memory row). No meaning is given here.
-/
namespace Sys2Proof

/-- One 32-bit word of a payload, a parameter or a binary32 value (00_scope.md, Numbers, time and data). -/
abbrev Word := BitVec 32

/-- One byte. -/
abbrev Byte := BitVec 8

/-- A table with a default: the entries that differ from it, by strictly rising key. Which value is
the default, and the reading and writing of a table, are in Machine/Ops.lean. -/
abbrev Tbl (α : Type) := List (Nat × α)

/-- A return frame as the ring head reads it (08_stipple_link.md, Return frame, R247): ORIGIN, HOPS, the copied TLM and SEQ,
the status nibbles by position, the 32 telemetry slots, the management reply, whether its CRC matched, the round-trip time that
the head measured, in 1/16 tick (R256). `far` marks the return of the far side of a broken ring, as the standby hands it to the
active device (R270); its `hops` count from the far end. -/
structure RetFrame where
  origin : Nat
  hops : Nat
  tlmKind : Nat
  tlmGroup : Nat
  seq : Nat
  status : List Nat
  slots : List Word
  rstatus : Nat
  rop : Nat
  rtid : Nat
  responder : Nat
  rdata : BitVec 64
  crcOk : Bool
  rt : Nat
  far : Bool
  deriving DecidableEq, Repr

/-- The content of a HEARTBEAT cell (14_margin_pair.md, Heartbeat payload): its own launch tick,
the launch tick and arrival tick of the last heartbeat the partner received, and the state fields. -/
structure Heartbeat where
  launch : Nat
  echoLaunch : Nat
  echoArrive : Nat
  opState : Nat
  role : Nat
  driveRun : Nat
  eligibility : Nat
  number : Nat
  emptyMap : Nat
  deriving DecidableEq, Repr

/-- A failing row that a Burnish memory unit found (15_burnish.md, Failing entry). -/
structure FailRow where
  address : Nat
  lo : Word
  hi : Word
  row : Nat
  bank : Nat
  check : Nat
  deriving DecidableEq, Repr

/-- What a transaction that leaves the pair through the compare buffer does (11_plate_pair.md, *Transactions at the core
boundary*): a store of one word with its byte enables and its mark; a write of a parameter or unit register; a write of a
lock register; a work order with its opcode and operands; the hand-off of a reply or of an event packet. -/
inductive TxnKind where
  | store (addr : Nat) (data : Word) (enables mark : Nat)
  | param (unit idx : Nat) (value : Word) (mark : Nat)
  | lock (n : Nat) (value : Word)
  | order (op : Nat) (words : List Word)
  | reply (tag status : Nat) (words : List Word)
  | event (code index : Nat) (args : List Word)
  deriving DecidableEq, Repr

/-- A transaction of the compare buffer (R327) under its retired-instruction number. -/
structure Txn where
  num : Nat
  what : TxnKind
  deriving DecidableEq, Repr

/-- What Plate reads through the delay queue (R328): memory or an instruction, a parameter or unit register, a lock
register. -/
inductive ReadFrom where
  | memory (addr : Nat)
  | param (unit idx : Nat)
  | lock (n : Nat)
  deriving DecidableEq, Repr

/-- A read that a core issues: its retired-instruction number and what it reads. -/
structure ReadReq where
  num : Nat
  src : ReadFrom
  deriving DecidableEq, Repr

/-- A delay-queue entry (R328, R329): the read, the data and its mark (0 none, 1 bite, 2 unwritten). -/
structure DelayEntry where
  req : ReadReq
  data : Word
  mark : Nat
  deriving DecidableEq, Repr

/-- What reaches the comparator at a checkpoint (R330, R331): the retired-instruction number, the 41 registers of Plate and of
Counterproof in the order of R330, their mark bits (R383), and the dual-rail results of the self-test on its unequal and on
its equal pair of words. -/
structure CheckpointData where
  retired : Nat
  regsP : List Word
  regsC : List Word
  marksP : BitVec 41
  marksC : BitVec 41
  unequal : Nat
  equal : Nat
  deriving DecidableEq, Repr

/-- An asynchronous input that an instruction samples (R333): a level, global time, or a TD0 timer. -/
inductive AsyncInput where
  | level
  | time
  | timer
  deriving DecidableEq, Repr

end Sys2Proof
end

