-- ==== Sys2Proof/Syntax.lean ====
section
/-!
DEFINITION. The commands of the block: one constructor for each row of spec/opcode_table.json, in the
table's order. The table gives the rows no operands; an operand here is what the row takes from outside
the device (a packet, a sample, a level, a received cell), or names the unit, ring, drive or tag it is about.
A row of the Folio opcodes (IDENTIFY to FW_ABORT) names the tag of the accepted command it carries out.
-/
namespace Sys2Proof

/-- One step of the device: a row of opcode_table.json with its operands. -/
inductive Instr where
  /-- FOLIO_HEADER (R76). hdr: the sixteen header nibbles as one little-endian bit string (R69) -/
  | folioHeader (hdr : BitVec 64)
  /-- RUNT_HEADER (R79). -/
  | runtHeader
  /-- PACKET_END (R86). words: payload words received; crc: the CRC word received; frmLow: FI_FRM low on the cycle after the last nibble -/
  | packetEnd (words : List Word) (crc : Word) (frmLow : Bool)
  /-- FI_FRM_OVERRUN (R87). -/
  | fiFrmOverrun
  /-- FOLIO_CLOCK_LOST (R93). runt: a header was in reception when FI_CLK stopped; unlaunched: the code of the newest header was not fully launched -/
  | folioClockLost (runt unlaunched : Bool)
  /-- FOLIO_CLOCK_RETURN (R93). -/
  | folioClockReturn
  /-- PACKET_SEND (R88). -/
  | packetSend
  /-- PACKET_SENT (R80). -/
  | packetSent
  /-- FO_CLK_RESTART (R90). -/
  | foClkRestart
  /-- FO_FIRST_PACKET_HOLD (R90). -/
  | foFirstPacketHold
  /-- HOST_SILENT (R94). -/
  | hostSilent
  /-- IDENTIFY (R107). -/
  | identify (tag : Nat)
  /-- GET_STATUS (R108). -/
  | getStatus (tag : Nat)
  /-- GET_PARAM (R109). -/
  | getParam (tag : Nat)
  /-- SET_PARAM (R110). -/
  | setParam (tag : Nat)
  /-- SET_PARAM_BLOCK (R111). -/
  | setParamBlock (tag : Nat)
  /-- MODE (R113). -/
  | mode (tag : Nat)
  /-- TORQUE_SET (R114). -/
  | torqueSet (tag : Nat)
  /-- SETPOINT (R115). -/
  | setpoint (tag : Nat)
  /-- SAFE_STATE (R116). -/
  | safeState (tag : Nat)
  /-- CLEAR_FAULT (R370). -/
  | clearFault (tag : Nat)
  /-- CLEAR_TRIP (R118). -/
  | clearTrip (tag : Nat)
  /-- DISCHARGE (R119). -/
  | discharge (tag : Nat)
  /-- CTX_LOAD (R319). -/
  | ctxLoad (tag : Nat)
  /-- CTX_ENABLE (R320). -/
  | ctxEnable (tag : Nat)
  /-- CTX_DISABLE (R321). -/
  | ctxDisable (tag : Nat)
  /-- CTX_READ (R322). -/
  | ctxRead (tag : Nat)
  /-- MAP_LOAD (R323). -/
  | mapLoad (tag : Nat)
  /-- HATCH_FRAME (R219). -/
  | hatchFrame (tag : Nat)
  /-- HATCH_FORCE (R226). -/
  | hatchForce (tag : Nat)
  /-- RING_ENUMERATE (R257). -/
  | ringEnumerate (tag : Nat)
  /-- NODE_READ (R265). -/
  | nodeRead (tag : Nat)
  /-- NODE_WRITE (R265). -/
  | nodeWrite (tag : Nat)
  /-- CELL_EXCLUDE (R289). -/
  | cellExclude (tag : Nat)
  /-- CELL_INCLUDE (R289). -/
  | cellInclude (tag : Nat)
  /-- SEQ_LOAD (R146). -/
  | seqLoad (tag : Nat)
  /-- CONV_URGENT (R148). -/
  | convUrgent (tag : Nat)
  /-- CAL_STATUS (R133). -/
  | calStatus (tag : Nat)
  /-- POS_CONFIG (R208). -/
  | posConfig (tag : Nat)
  /-- POS_COMPARE (R205). -/
  | posCompare (tag : Nat)
  /-- MEM_READ (R398). -/
  | memRead (tag : Nat)
  /-- MEM_WRITE (R399). -/
  | memWrite (tag : Nat)
  /-- CAPTURE_ARM (R397). -/
  | captureArm (tag : Nat)
  /-- SCRUB_STATUS (R400). -/
  | scrubStatus (tag : Nat)
  /-- LOG_READ (R462). -/
  | logRead (tag : Nat)
  /-- LOG_MARK (R463). -/
  | logMark (tag : Nat)
  /-- LOG_CLEAR (R464). -/
  | logClear (tag : Nat)
  /-- MBX_POST (R425). -/
  | mbxPost (tag : Nat)
  /-- MBX_READ (R121). -/
  | mbxRead (tag : Nat)
  /-- DOORBELL (R122). -/
  | doorbell (tag : Nat)
  /-- LOCK_ACQUIRE (R123). -/
  | lockAcquire (tag : Nat)
  /-- LOCK_RELEASE (R124). -/
  | lockRelease (tag : Nat)
  /-- PAIR_ROLE (R410). -/
  | pairRole (tag : Nat)
  /-- HANDOVER (R418). -/
  | handover (tag : Nat)
  /-- SPLIT (R339). -/
  | split (tag : Nat)
  /-- JOIN (R342). -/
  | join (tag : Nat)
  /-- SLEEP (R128). -/
  | sleep (tag : Nat)
  /-- SHUTDOWN (R434). -/
  | shutdown (tag : Nat)
  /-- BURNISH_ABORT (R446). -/
  | burnishAbort (tag : Nat)
  /-- BURNISH_RESULT (R129). -/
  | burnishResult (tag : Nat)
  /-- RESET (R485). -/
  | reset (tag : Nat)
  /-- FW_BEGIN (R130). -/
  | fwBegin (tag : Nat)
  /-- FW_DATA (R130). -/
  | fwData (tag : Nat)
  /-- FW_COMMIT (R347). -/
  | fwCommit (tag : Nat)
  /-- FW_ABORT (R130). -/
  | fwAbort (tag : Nat)
  /-- RELAY_REQUEST (R429). -/
  | relayRequest (mbx : Nat)
  /-- TIME_LO_READ (R47). -/
  | timeLoRead
  /-- RETIRED_LO_READ (R47). -/
  | retiredLoRead
  /-- ANGLE_READ (R109). -/
  | angleRead (src : Nat)
  /-- CAP_STOP_LO_READ (R47). -/
  | capStopLoRead (buf : Nat)
  /-- DIRECTORY_ENTRY_READ (R260). -/
  | directoryEntryRead (d : Nat)
  /-- FAST_RESERVE_WRITE (R82). -/
  | fastReserveWrite (v : Word)
  /-- FO_RATE_WRITE (R90). -/
  | foRateWrite (v : Word)
  /-- CONFIG_LOCK_WRITE (R110). -/
  | configLockWrite (v : Word)
  /-- SEQ_SOFT_TRIGGER (R139). -/
  | seqSoftTrigger (v : Word)
  /-- SEQ_ENABLE_WRITE (R139). -/
  | seqEnableWrite (n : Nat) (v : Word)
  /-- ROT_EN_WRITE (R162). -/
  | rotEnWrite (v : Word)
  /-- WC_CTRL_WRITE (R166). -/
  | wcCtrlWrite (n : Nat) (v : Word)
  /-- TB_ENABLE_WRITE (R211). -/
  | tbEnableWrite (tb : Nat) (v : Word)
  /-- SYNC_WRITE (R212). -/
  | syncWrite (tb : Nat) (v : Word)
  /-- PER_WRITE (R218). -/
  | perWrite (tb : Nat) (v : Word)
  /-- COMPARE_WRITE (R217). -/
  | compareWrite (tb k : Nat) (v : Word)
  /-- TRIP_ROUTE_WRITE (R235). -/
  | tripRouteWrite (src : Nat) (v : Word)
  /-- PAIR_CFG_WRITE (R228). -/
  | pairCfgWrite (p : Nat) (v : Word)
  /-- DRV_POS_WRITE (R201). -/
  | drvPosWrite (d : Nat) (v : Word)
  /-- EMU_CTRL_WRITE (R207). -/
  | emuCtrlWrite (n : Nat) (v : Word)
  /-- SPLIT_TASK_WRITE (R341). -/
  | splitTaskWrite (v : Word)
  /-- MIR_EN_WRITE (R460). -/
  | mirEnWrite (v : Word)
  /-- THRESHOLD_WRITE (R469). -/
  | thresholdWrite (w : Nat) (v : Word)
  /-- LP_RATE_WRITE (R393). -/
  | lpRateWrite (v : Word)
  /-- START_EXPECT_WRITE (R393). -/
  | startExpectWrite (r : Nat) (v : Word)
  /-- MAP_PARAM_WRITE (R323). -/
  | mapParamWrite (m w : Nat) (v : Word)
  /-- WATCHDOG_SERVICE (R336). k: the checkpoint that the service brings (R330) -/
  | watchdogService (k : CheckpointData)
  /-- PARAM_WRITE (R110). -/
  | paramWrite (unit idx : Nat) (v : Word)
  /-- XIN_WINDOW_END (R39). -/
  | xinWindowEnd (count : Nat)
  /-- XIN_EDGE_TIMEOUT (R39). -/
  | xinEdgeTimeout
  /-- PLL_LOSS (R40). -/
  | pllLoss (dom : Nat)
  /-- PLL_LOCK_TIMEOUT (R40). -/
  | pllLockTimeout (dom : Nat)
  /-- PLL_LOCKED (R46). dom: the domain, 1, 2 or 5 (R40); td0, for domain 1: TD0 cycles counted from the last tick before TD1 stopped -/
  | pllLocked (dom td0 : Nat)
  /-- HOLDOVER_END (R41). -/
  | holdoverEnd
  /-- PACE_MEASUREMENT (R53). l0 to l3: the laps that each chain completed in 1,024 ticks -/
  | paceMeasurement (l0 l1 l2 l3 : Nat)
  /-- PHASE_STEER (R48). -/
  | phaseSteer (fwd : Bool)
  /-- ADMISSION_RECHECK (R58). -/
  | admissionRecheck
  /-- SEQ_TRIGGER (R139). -/
  | seqTrigger (n : Nat)
  /-- SEQ_START (R141). -/
  | seqStart (n : Nat)
  /-- URGENT_START (R148). -/
  | urgentStart (ls : Nat)
  /-- CONVERSION_DONE (R134). code, ovr, side: the result of the live slice; tcode, tovr: that of the tracing slice, used only while it shadows -/
  | conversionDone (ls : Nat) (code : BitVec 14) (ovr side : Bool) (tcode : BitVec 14) (tovr : Bool)
  /-- CAL_SELF_DONE (R151). -/
  | calSelfDone (ok : Bool)
  /-- CAL_DECISION (R157). -/
  | calDecision
  /-- CAL_SWAP (R158). -/
  | calSwap
  /-- SHADOW_TIMEOUT (R156). -/
  | shadowTimeout
  /-- TRIP (R231). active: the source becomes active (true) or inactive again (false) -/
  | trip (src : Nat) (active : Bool)
  /-- ENCODER_COUNT (R177). a, b, z: the levels at the pins, before the filter -/
  | encoderCount (src : Nat) (a b z : Bool)
  /-- HALL_STATE_CHANGE (R184). st: the levels at the pins, before the filter -/
  | hallStateChange (src st : Nat)
  /-- SSI_START (R186). -/
  | ssiStart (src : Nat)
  /-- SSI_FRAME_END (R188). high: DAT before the transfer; bits: the levels read, first to last; fall, rise: the ticks from the last bit to the fall of DAT and on to its rise (R187) -/
  | ssiFrameEnd (src : Nat) (high : Bool) (bits : List Bool) (fall rise : Nat)
  /-- SENT_FRAME (R190). pulses: the lengths of its pulses in ticks, from falling edge to falling edge, the synchronisation pulse first -/
  | sentFrame (src : Nat) (pulses : List Nat)
  /-- SENT_TIMEOUT (R191). -/
  | sentTimeout (src : Nat)
  /-- POS_CAPTURE (R174). -/
  | posCapture (src : Nat)
  /-- PERIOD_START (R210). -/
  | periodStart (tb : Nat)
  /-- TRIGGER_COMPARE (R220). -/
  | triggerCompare (tb k : Nat)
  /-- REF_EDGE (R217). -/
  | refEdge (p : Nat)
  /-- DEADTIME_END (R222). -/
  | deadtimeEnd (p : Nat)
  /-- FORCE_EXPIRY (R226). -/
  | forceExpiry (p : Nat)
  /-- DELAYLINE_CALIBRATION (R230). -/
  | delaylineCalibration (tb : Nat) (ok : Bool)
  /-- FRAME_SEND (R266). -/
  | frameSend (r : Nat)
  /-- FRAME_LATE (R20). -/
  | frameLate (r : Nat)
  /-- SAFE_FRAME (R27). -/
  | safeFrame (r : Nat)
  /-- RETURN_FRAME (R262). bytes: the bytes between /R/ and /E/, which arrives now; rt: the measured time from the send to the arrival of /R/, in 1/16 tick -/
  | returnFrame (r : Nat) (bytes : List Nat) (rt : Nat)
  /-- RING_LINK_CHANGE (R239). up: the link; lock: the receive lane of the port is up -/
  | ringLinkChange (r : Nat) (up lock : Bool)
  /-- ENUM_LINK_TIMEOUT (R256). -/
  | enumLinkTimeout (r : Nat)
  /-- ENUM_FAR_PASS (R257). On a standby: the pass it is told to run, with the expected count; on an active device: how the far pass ended (result 0 when OK), the nodes it found and the delays it wrote. -/
  | enumFarPass (r expect result : Nat) (delays : List Nat)
  /-- STRING_CYCLE (R274). -/
  | stringCycle (r : Nat)
  /-- CONTEXT_EVALUATION (R298). -/
  | contextEvaluation (lane : Nat)
  /-- CONTEXT_WRITEBACK (R304). -/
  | contextWriteback (c : Nat)
  /-- DEADLINE_ACTION (R310). -/
  | deadlineAction (c : Nat)
  /-- TRIG_TIMEOUT_EXPIRY (R311). -/
  | trigTimeoutExpiry (c : Nat)
  /-- TRANSACTION_COMPARE (R327). held: the transactions that Plate has put into the compare buffer since the last row; t: Counterproof's copy; rails: the dual-rail result of the comparison, 1 equal, 2 mismatch -/
  | transactionCompare (held : List Txn) (t : Txn) (rails : Nat)
  /-- DELAY_QUEUE_TAKE (R329). reads: the reads that Plate has requested since the last; take: the read that Counterproof presents; parityOk: the parity of the entry it takes is right -/
  | delayQueueTake (reads : List ReadReq) (take : ReadReq) (parityOk : Bool)
  /-- CHECKPOINT (R330). -/
  | checkpoint (k : CheckpointData)
  /-- RESYNC_DONE (R332). -/
  | resyncDone
  /-- ASYNC_INPUT_READ (R333). plate, counter: the samples of the two cores -/
  | asyncInputRead (what : AsyncInput) (plate counter : Nat)
  /-- INTERRUPT_DECISION (R335). -/
  | interruptDecision (vecP vecC : Nat)
  /-- WATCHDOG (R336). -/
  | watchdog
  /-- PAIR_RESTART_DONE (R337). -/
  | pairRestartDone
  /-- FREE_CORE_TASK_END (R341). -/
  | freeCoreTaskEnd (res : Nat)
  /-- FREE_CORE_WATCHDOG (R341). -/
  | freeCoreWatchdog
  /-- TAP_BYPASS (R344). -/
  | tapBypass
  /-- TAP_IDCODE (R344). -/
  | tapIdcode
  /-- TAP_SAMPLE_PRELOAD (R344). -/
  | tapSamplePreload
  /-- TAP_EXTEST (R351). -/
  | tapExtest
  /-- UNLOCK_CHALLENGE (R344). -/
  | unlockChallenge
  /-- UNLOCK_RESPONSE (R344). -/
  | unlockResponse (ws : List Word)
  /-- UNLOCK_VERIFIED (R344). -/
  | unlockVerified (ok : Bool)
  /-- UNLOCK_BLOCK_END (R344). -/
  | unlockBlockEnd
  /-- DEBUG_ACCESS (R345). -/
  | debugAccess
  /-- TAP_LOCK (R344). -/
  | tapLock
  /-- DEBUG_HALT (R345). -/
  | debugHalt
  /-- BREAKPOINT_HIT (R345). -/
  | breakpointHit (slot : Nat)
  /-- DEBUG_RESUME (R345). -/
  | debugResume
  /-- DEBUG_STEP (R345). -/
  | debugStep
  /-- DEBUG_REGISTER_READ (R345). -/
  | debugRegisterRead (r : Nat)
  /-- DEBUG_REGISTER_WRITE (R346). -/
  | debugRegisterWrite (r : Nat) (v : Word)
  /-- DEBUG_BREAKPOINT_SET (R346). slot: 0 to 3 instruction breakpoints, 4 and 5 data watchpoints -/
  | debugBreakpointSet (slot : Nat) (addr : Nat) (on : Bool)
  /-- DEBUG_MEMORY_READ (R345). -/
  | debugMemoryRead (addr : Nat)
  /-- DEBUG_MEMORY_WRITE (R345). -/
  | debugMemoryWrite (addr : Nat) (v : Word)
  /-- ENABLE_CHANGE (R350). -/
  | enableChange (level : Bool)
  /-- SS2_DELAY_EXPIRY (R358). -/
  | ss2DelayExpiry (d : Nat)
  /-- STOP_TIME_EXPIRY (R359). -/
  | stopTimeExpiry (d : Nat)
  /-- DISCHARGE_TIMEOUT (R360). -/
  | dischargeTimeout (d : Nat)
  /-- DSCH_HOLD_EXPIRY (R361). -/
  | dschHoldExpiry (d : Nat)
  /-- REGISTRATION_EVALUATION (R363). -/
  | registrationEvaluation (d : Nat)
  /-- REG_EVAL_GAP (R365). -/
  | regEvalGap (d : Nat)
  /-- SCRUB_STEP (R390). upsets: the words (byte address over 8) whose stored code word an error has struck since the last step of a scrubber, and whether it is beyond correction; raced: another master wrote the word between the read and the write-back -/
  | scrubStep (mem : Nat) (upsets : List (Nat × Bool)) (raced : Bool)
  /-- LPDDR5_TRAINING (R377). -/
  | lpddr5Training (ok : Bool) (density ranks : Nat)
  /-- MR4_POLL (R378). -/
  | mr4Poll (mult : Nat) (hot : Bool)
  /-- LPDDR5_REFRESH (R378). -/
  | lpddr5Refresh (bank : Nat)
  /-- LPDDR5_RELOCK (R392). -/
  | lpddr5Relock
  /-- LPDDR5_RELOCK_TIMEOUT (R392). -/
  | lpddr5RelockTimeout
  /-- BLOCK_FILL_DONE (R388). -/
  | blockFillDone (block : Nat)
  /-- CAPTURE_STOP (R395). -/
  | captureStop (buf : Nat)
  /-- MARGIN_LINK_UP (R405). -/
  | marginLinkUp (sideB : Bool) (presence : Word)
  /-- LINK_CELL_DUE (R405). -/
  | linkCellDue
  /-- MARGIN_LINK_LOSS (R405). -/
  | marginLinkLoss (cause : Nat)
  /-- CELL_SEND (R407). -/
  | cellSend
  /-- CELL_RETRANSMIT (R406). -/
  | cellRetransmit
  /-- ACK_DUE (R406). -/
  | ackDue
  /-- ACK_RECEIVED (R406). -/
  | ackReceived (ack : Nat)
  /-- HEARTBEAT_DUE (R411). -/
  | heartbeatDue
  /-- HEARTBEAT_RECEIVED (R48). -/
  | heartbeatReceived (ack : Nat) (hb : Heartbeat)
  /-- HEARTBEAT_TIMEOUT (R411). -/
  | heartbeatTimeout
  /-- HEARTBEAT_TAKEOVER (R419). -/
  | heartbeatTakeover
  /-- STATUS_DUE (R413). -/
  | statusDue
  /-- STATUS_RECEIVED (R416). -/
  | statusReceived (seq ack : Nat) (presence : Word) (cfgs pers : List Word)
  /-- TB_PHASE_RECEIVED (R413). -/
  | tbPhaseReceived (seq ack : Nat) (ticks : List Nat)
  /-- MIRROR_RECEIVED (R415). -/
  | mirrorReceived (seq ack sub : Nat) (ws : List Word) (marks : Nat)
  /-- RING_FRAME_RECEIVED (R423). -/
  | ringFrameReceived (seq ack r frag : Nat) (ws : List Word)
  /-- MAILBOX_RECEIVED (R425). -/
  | mailboxReceived (seq ack n : Nat) (msg : List Word)
  /-- MBX_FREE_RECEIVED (R425). -/
  | mbxFreeReceived (seq ack n : Nat)
  /-- DOORBELL_RECEIVED (R427). -/
  | doorbellReceived (seq ack : Nat) (bits : Word)
  /-- LOCK_RECEIVED (R431). -/
  | lockReceived (seq ack lock : Nat) (acquire host : Bool) (tag : Nat)
  /-- LOCK_REPLY_RECEIVED (R430). -/
  | lockReplyReceived (seq ack lock owner tag : Nat)
  /-- HANDOVER_OFFER_RECEIVED (R418). -/
  | handoverOfferReceived (seq ack th : Nat)
  /-- HANDOVER_ACCEPT_RECEIVED (R418). -/
  | handoverAcceptReceived (seq ack : Nat)
  /-- HANDOVER_DECLINE_RECEIVED (R418). -/
  | handoverDeclineReceived (seq ack : Nat)
  /-- HANDOVER_ACCEPT_TIMEOUT (R418). -/
  | handoverAcceptTimeout
  /-- HANDOVER_INSTANT (R418). -/
  | handoverInstant
  /-- HANDOVER_TAKE_RECEIVED (R420). -/
  | handoverTakeReceived (seq ack th : Nat)
  /-- HANDOVER_TAKEN_RECEIVED (R420). -/
  | handoverTakenReceived (seq ack : Nat)
  /-- HANDOVER_LEAVE_RECEIVED (R412). -/
  | handoverLeaveReceived (seq ack : Nat)
  /-- OWN_N_CLAIM (R420). -/
  | ownNClaim
  /-- PEER_OWN_CHANGE (R403). -/
  | peerOwnChange (asserted : Bool)
  /-- BURNISH_UNIT_END (R439). -/
  | burnishUnitEnd (count : Nat) (sig : Word) (rows : List FailRow)
  /-- BURNISH_UNIT_TIMEOUT (R440). -/
  | burnishUnitTimeout (count : Nat) (sig : Word) (rows : List FailRow)
  /-- BURNISH_DRAIN_DONE (R444). -/
  | burnishDrainDone
  /-- BURNISH_DRAIN_TIMEOUT (R444). -/
  | burnishDrainTimeout
  /-- BURNISH_RELOAD_DONE (R438). -/
  | burnishReloadDone
  /-- SKETCHBOOK_WRITE (R456). -/
  | sketchbookWrite
  /-- HK_ROUND_END (R465). codes: the 32 codes; tj: channel 0 converted with the diode trims, in 0.5 degrees C (R467) -/
  | hkRoundEnd (codes : List Nat) (tj : Int)
  /-- SUPPLY_MONITOR_FAULT (R475). -/
  | supplyMonitorFault (ch : Nat) (above : Bool)
  /-- POWER_ON_RESET (R474). -/
  | powerOnReset (brownOut : Bool)
  /-- POR_RELEASE (R474). -/
  | porRelease (sideB : Bool)
  /-- RST_N_RESET (R484). -/
  | rstNReset
  /-- BOOT_ADVANCE (R476). us: microseconds from reset release; supplied: every supply lies within its window (R475) -/
  | bootAdvance (us : Nat) (supplied : Bool)
  /-- WARM_RESET_END (R485). us: microseconds from reset release -/
  | warmResetEnd (us : Nat)
  /-- SLEEP_ENTRY (R481). -/
  | sleepEntry
  /-- WAKE_CONDITION (R482). td0: TD0 cycles asleep when the condition holds -/
  | wakeCondition (src td0 : Nat)
  /-- SLEEP_TIMER_EXPIRY (R482). -/
  | sleepTimerExpiry (td0 : Nat)
  /-- WAKE_DONE (R483). td0: TD0 cycles from sleep entry to STANDBY -/
  | wakeDone (td0 : Nat)
  /-- XIN_EDGE_RESUME (R39). -/
  | xinEdgeResume
  /-- WC_OUTPUT_CHANGE (R168). level: the level of the input that comparator n watches, in FS / 2²⁴ -/
  | wcOutputChange (n : Nat) (level : Int)
  /-- FAR_PORT_DOWN_FRAME (R29). bytes: the bytes between /D/ and /E/ -/
  | farPortDownFrame (r : Nat) (bytes : List Nat)
  /-- MARGIN_LANE_DESKEW (R405). -/
  | marginLaneDeskew
  /-- LINK_CELL_RECEIVED (R405). -/
  | linkCellReceived (sideB : Bool) (presence : Word)
  /-- BAD_CELL_RECEIVED (R406). -/
  | badCellReceived (crcFail : Bool)
  /-- LEAVE_ACK_TIMEOUT (R412). -/
  | leaveAckTimeout
  /-- TAP_RESET (R351). -/
  | tapReset
  /-- JTAG_LOADER (R478). -/
  | jtagLoader (version : Word)
  /-- LPDDR5_REQUEST_DONE (R391). -/
  | lpddr5RequestDone (who : Nat)
  /-- FOLIO_RESET_END (R337). -/
  | folioResetEnd
  deriving DecidableEq, Repr

end Sys2Proof
end

