-- ==== Sys2Proof/Machine/State.lean ====
section
/-!
DEFINITION. The state of the device as plain data, by chapter of the spec, and State.reset: the
device while power-on reset holds it. A parameter of the parameter space that is only stored lives in
`par`, by its address (Machine/Params.lean gives its name, access and reset value); what lives in MRAM
lives in `nv`; everything else has a field of its own below.
-/
namespace Sys2Proof.Machine

/-- The three parts of *Units per variant* (00_scope.md). -/
inductive Part where
  | itc8120 | itc8112 | itc8104
  deriving DecidableEq, Repr

/-- *Operating states* (00_scope.md) as OP_STATE codes them; sleep, which has no code (R481), is in `Power.sleep`. -/
inductive OpState where
  | boot | standby | run | safe | shutdown
  deriving DecidableEq, Repr

/-- DRIVE_STATE.ARCH (04_commands.md). -/
inductive Arch where
  | none | direct | string
  deriving DecidableEq, Repr

/-- DRIVE_STATE.DSTATE (04_commands.md). -/
inductive DState where
  | idle | run | ss1 | ss2 | ss3 | stopping
  deriving DecidableEq, Repr

/-- A drive: its DRIVE_STATE and DRIVE_CONFIG (R112), its torque set-point (R114), what Stop-out keeps
about its safe state (R356 to R361), the tick at which it changes hands (R418), and the tick from which a period start may take its
pairs to layer 4 after it was taken over (R420), the tick at which it entered RUN, and the ticks from which its primary source has been
fast, or lost, without a break since its safe state began (R358); `holdTs` is the start of a discharge whose 2 s run, `holdCut`
says that global time has started again since (R361). -/
structure Drive where
  arch : Arch := .none
  dst : DState := .idle
  faultLatched : Bool := false
  discharging : Bool := false
  lastFault : Nat := 0
  cfg : Word := 0
  torque : Word := 0
  cause : Nat := 0
  classD : Bool := false
  exempt : Bool := false
  clearDue : Bool := false
  stopDue : Bool := false
  ts : Nat := 0
  lastV : Option Word := none
  holdTs : Option Nat := none
  holdCut : Bool := false
  bled : Tbl Bool := []
  bleedTs : Option Nat := none
  hd : Option Nat := none
  l4From : Option Nat := none
  runAt : Nat := 0
  highFrom : Option Nat := none
  lostFrom : Option Nat := none
  deriving DecidableEq, Repr

/-- How far an accepted command has come (R83 to R86). -/
inductive TagPhase where
  | receiving | ready | running | replied
  deriving DecidableEq, Repr

/-- A tag entry (R80): the header fields of the accepted command, its payload and its phase. A command
refused within a refusal span is `spanned` (R128). -/
structure TagEntry where
  tag : Nat
  opcode : Nat
  unit : Nat
  len : Nat
  order : Bool
  phase : TagPhase
  spanned : Bool
  payload : List Word
  deriving DecidableEq, Repr

/-- A reply packet (R73): tag, opcode, unit, status and payload. -/
structure Reply where
  tag : Nat
  opcode : Nat
  unit : Nat
  status : Nat
  payload : List Word
  deriving DecidableEq, Repr

/-- An event record without its SEQ (*Event record*, 04_commands.md). -/
structure Event where
  code : Nat
  unit : Nat
  cls : Nat
  index : Nat
  args : List Word
  time : Nat
  valid : Bool
  deriving DecidableEq, Repr

/-- An event record with its SEQ, as the Sketchbook stores it and an event packet carries it. -/
structure LogEntry where
  seq : Nat
  ev : Event
  deriving DecidableEq, Repr

/-- A packet on the reply lane. -/
inductive Packet where
  | reply (r : Reply)
  | event (e : LogEntry)
  deriving DecidableEq, Repr

/-- The receive lane between packets (R77, R87, R93). -/
inductive Lane where
  | idle | packet | ignore | resync | lost
  deriving DecidableEq, Repr

/-- A reply-lane rate change (R90): none; waiting for the reply of `tag` (without a tag, for the end of the packet on the
lane); FO_CLK stopped, to restart at `rate`; or held after the restart. `next` is a change that came after the stop. -/
inductive RateChange where
  | none
  | waiting (tag : Option Nat) (rate : Nat)
  | stopped (rate : Nat) (next : Option (Option Nat × Nat))
  | hold (next : Option (Option Nat × Nat))
  deriving DecidableEq, Repr

/-- Unit 0x01, Folio (03_folio_port.md), but for its stored parameters. `accept` is the ACCEPT code that FI_ACCEPT drives for the newest
header, 0 once it is over; `prevBase`, `prevSilent` and `prevMost` what `hostBase`, `hostSilent` and `tagsMost` were before the newest
acceptance (R93), `evRun` the event packets sent in a row, `laneTick` when the packet on the lane began and `laneEnd` when the last one
ended, `rateTick` when FO_CLK stopped or restarted (R90), `span` the tag that opened the refusal span (R128). -/
structure Folio where
  tags : List TagEntry := []
  tagsMost : Nat := 0
  lane : Lane := .idle
  rx : Option Nat := none
  accept : Nat := 0
  replies : List Reply := []
  events : List LogEntry := []
  eventsMost : Nat := 0
  lost : Nat := 0
  evRun : Nat := 0
  onLane : Option Packet := none
  rate : Nat := 4
  rateCh : RateChange := .none
  laneTick : Nat := 0
  laneEnd : Option Nat := none
  rateTick : Nat := 0
  hostBase : Nat := 0
  hostSilent : Bool := false
  prevBase : Nat := 0
  prevSilent : Bool := false
  prevMost : Nat := 0
  span : Option Nat := none
  inReset : Bool := true
  deriving DecidableEq, Repr

/-- Holdover of the main PLL (R41). -/
inductive Holdover where
  | none | active | ended
  deriving DecidableEq, Repr

/-- Unit 0x02, timing (02_timing_fabric.md). `starting` are the PLLs started at wake and not yet locked (R40), `steered` the tick of the
last phase step (R48), `fwTime` the capture register of the Plate firmware (R47), and `skip` the count before and after the last
step or advance that carried the count forward (R37). -/
structure Timing where
  timeValid : Bool := false
  aligned : Bool := false
  master : Bool := true
  phase16 : Nat := 0
  xinOk : Bool := false
  xinArmed : Bool := false
  freqFault : Bool := false
  stopFault : Bool := false
  td1 : Bool := false
  td2 : Bool := false
  td5 : Bool := false
  td3 : Bool := false
  td4 : Bool := false
  holdover : Holdover := .none
  paceMin : Nat := 0xFFFF
  paceNow : Nat := 0
  paceLow : Bool := false
  alignGood : Nat := 0
  alignBad : Nat := 0
  stepDue : Bool := false
  slew16 : Int := 0
  xinHeld : List Nat := []
  pllHeld : List Nat := []
  starting : List Nat := []
  steered : Option Nat := none
  fwTime : Nat := 0
  skip : Option (Nat × Nat) := none
  deriving DecidableEq, Repr

/-- What a conversion serves (R143, R148, R155). -/
inductive ConvFor where
  | seq (n k : Nat)
  | urgent (tag : Nat)
  | reference
  deriving DecidableEq, Repr

/-- A conversion in progress: what it serves, its input, its slot start (R134) and URG_SHIFT. -/
structure Conv where
  what : ConvFor
  input : Nat
  start : Nat
  shift : Bool
  deriving DecidableEq, Repr

/-- A logical slice: its conversion, the pending urgent request, the requests held behind it (R149), the
entries of the running sequence still to convert, and whether this instance has had its urgent conversion. -/
structure Slice where
  conv : Option Conv := none
  urgent : Option (Nat × Nat) := none
  held : List (Nat × Nat) := []
  todo : List Nat := []
  owner : Option Nat := none
  urgUsed : Bool := false
  shift : Bool := false
  deriving DecidableEq, Repr

/-- A capture record (R174). -/
structure PosRec where
  angle : Nat := 0
  turns : Nat := 0
  speed : Word := 0
  dir : Bool := false
  valid : Bool := false
  tick : Nat := 0
  trig : Nat := 0
  deriving DecidableEq, Repr

/-- What every evaluation of an instance takes as it stood at its root trigger tick (R299): result words by
64 * sequence + entry with the COUNT of the last completion by sequence, position records, published context outputs,
string quantities by ring, reference targets by context and torque inputs by drive. -/
structure Snap where
  results : Tbl Word := []
  counts : Tbl Nat := []
  recs : Tbl PosRec := []
  outs : Tbl (Option (List Word)) := []
  strs : Tbl (Option (List Word)) := []
  tgts : Tbl (List Word) := []
  torque : Tbl Word := []
  deriving DecidableEq, Repr

/-- A sequence instance: trigger tick, start tick, entry list, results so far, and the inputs of its trigger tick. -/
structure SeqRun where
  trig : Nat
  start : Nat
  entries : List Word
  done : Tbl (Option Word)
  snap : Snap
  deriving DecidableEq, Repr

/-- A sequence (R139 to R146): its list and trigger, a list stored by SEQ_LOAD and not yet in effect, the
triggers that have fired and not yet arrived, oldest first, and the pending trigger (tick, list, inputs), the instance. -/
structure Seq where
  entries : List Word := []
  trigger : Nat := 0
  newList : Option (List Word) := none
  due : List (Nat × List Word × Snap) := []
  pend : Option (Nat × List Word × Snap) := none
  run : Option SeqRun := none
  deriving DecidableEq, Repr

/-- CAL_STATE.PHASE (05_converters.md). -/
inductive CalPhase where
  | selfCal | shadow | swapPending | idle | halted
  deriving DecidableEq, Repr

/-- Unit 0x03, converters (05_converters.md). `shadowAt` is the start of the present shadow (R156) and `pairsAt` the end of its
last pair (R157), `trims` the calibration trims of each physical slice (R171). For the window comparators: `ain` the levels at the
input pins in FS / 2²⁴, `wcHi` and `wcLo` the active sides, and `wcOld` the tick of the last WC_CTRL write with the control words
whose thresholds still settle (R163, R166). -/
structure Converters where
  lmap : Tbl Nat := []
  tracing : Nat := 16
  phase : CalPhase := .selfCal
  target : Nat := 0
  pairs : Nat := 0
  sum : Int := 0
  shadowAt : Nat := 0
  pairsAt : Nat := 0
  grossRun : Nat := 0
  lapStart : Nat := 0
  lastResidual : Tbl Nat := []
  deferLaps : Tbl Nat := []
  seqs : Tbl Seq := []
  slices : Tbl Slice := []
  results : Tbl Word := []
  counts : Tbl Nat := []
  ovrTick : Tbl (Option Nat) := []
  wcLevel : Nat := 0
  trims : Tbl Word := []
  ain : Tbl Int := []
  wcHi : Nat := 0
  wcLo : Nat := 0
  wcOld : Tbl (Nat × List Word) := []
  deriving DecidableEq, Repr

/-- What a capture of an SSI or SENT source takes, as it stood ahead of the good frame that completed at tick `done` (R174). -/
structure PosPast where
  done : Nat
  p : BitVec 64
  dir : Bool
  tick : Nat
  capTick : Option Nat
  moved : Int
  started : Bool
  lastChange : Option Nat
  deriving DecidableEq, Repr

/-- A position source (R172 to R202): P as a 64-bit value, the values of its SRC_STATUS, and what the
speed, direction, fault and index rules need to remember. `count` is the count of an encoder or the last valid
state of a Hall set, `ab` the filtered A (bit 1) and B (bit 0) of an encoder, or the filtered state of a Hall set, `zf` the filtered Z,
`raw` the levels at the pins ahead of the filter (A, B, Z as bits 2 to 0, or the Hall state) and `rawAt` the ticks since which they
have lasted, all high under their pull-ups until a transition is seen, `changes` the ticks of the last changes in the present direction, newest first, `fwd` that direction, `errTicks` the
stamps of illegal transitions, `moved` the change of P since the last sample without the steps of R183, `before` the source ahead of its
last good frame (R174), `sync` the last synchronisation pulse and `slow` the status nibbles of the last good frames, newest first, of a
SENT receiver (R189, R190). -/
structure PosSrc where
  p : BitVec 64 := 0
  count : Nat := 0
  ab : Nat := 3
  tick : Nat := 0
  speed : Word := 0
  dir : Bool := false
  dirAcc : Int := 0
  fault : Bool := false
  faultCause : Nat := 0
  started : Bool := false
  homed : Bool := false
  standstill : Bool := true
  method : Bool := false
  stale : Bool := false
  badRun : Nat := 0
  errTicks : List Nat := []
  changes : List Nat := []
  fwd : Bool := true
  lastChange : Option Nat := none
  lastStep : Nat := 0
  capTick : Option Nat := none
  moved : Int := 0
  runCaps : Nat := 0
  homeStep : Int := 0
  sentSlow : Word := 0
  busy : Bool := false
  startTick : Nat := 0
  capDue : Option Nat := none
  startDue : Option Nat := none
  zf : Bool := true
  raw : Nat := 7
  rawAt : List Nat := []
  before : Option PosPast := none
  sync : Option Nat := none
  slow : List Nat := []
  recd : PosRec := {}
  prevRec : PosRec := {}
  held : PosRec := {}
  deriving DecidableEq, Repr

/-- A position compare unit (R203 to R205). -/
structure PosCmp where
  armed : Bool := false
  dir : Nat := 0
  modulo : Bool := false
  missed : Nat := 0
  source : Nat := 0
  fires : Nat := 0
  t : BitVec 64 := 0
  step : Nat := 0
  armTick : Nat := 0
  deriving DecidableEq, Repr

/-- An encoder emulation output (R206, R207). -/
structure Emu where
  acc : Int := 0
  state : Nat := 0
  z : Bool := false
  fresh : Bool := false
  deriving DecidableEq, Repr

/-- Unit 0x04, position (06_position.md). -/
structure Position where
  srcs : Tbl PosSrc := []
  cmps : Tbl PosCmp := []
  emus : Tbl Emu := []
  mism : Tbl Nat := []
  deriving DecidableEq, Repr

/-- A Hatch timebase (R210 to R213): running, the tick of offset 0 of the present period and the tick at which that period started,
the tick at which trigger compare k fired last (R220), DL_FAULT. -/
structure Timebase where
  running : Bool := false
  t0 : Int := 0
  startTick : Nat := 0
  fired : Tbl (Option Nat) := []
  dlFault : Bool := false
  deriving DecidableEq, Repr

/-- An output pair (R214 to R235): the reference signal, its armed edges in 1/16 tick from the period
start, the outputs before polarity, the output waiting for its dead time (true: H) with the tick at which it turns on, the dead-time band,
the force of HATCH_FORCE, the layer in force, and the ticks at which H and L
last became inactive, and the tick at which a force of limited DURATION ends. -/
structure Pair where
  ref : Bool := false
  turnedOn : Bool := false
  turnedOff : Bool := false
  armOn : Option Nat := none
  armOff : Option Nat := none
  h : Bool := false
  l : Bool := false
  pend : Option (Bool × Nat) := none
  band : Nat := 4
  newBand : Option Nat := none
  force : Option Nat := none
  layer : Nat := 5
  hOff : Option Nat := none
  lOff : Option Nat := none
  forceEnd : Option Nat := none
  deriving DecidableEq, Repr

/-- Unit 0x05, Hatch (07_hatch.md), with the trip path it shares with Stop-out (R231). `zc` holds, per
compare 8 * tb + k, whether a zero code in it is the special 0 % (R214), `front` the last voltage request of
phase i of drive d at 16 * d + i (R304), `wrote` the tick and the rank of the last write of compare k of timebase tb at 8 * tb + k,
of PER at 8 * tb + 6 (R216). -/
structure Hatch where
  tbs : Tbl Timebase := []
  pairs : Tbl Pair := []
  zc : Tbl Bool := []
  front : Tbl Word := []
  modStatus : Tbl Nat := []
  latch : Nat := 0
  tripIn : Nat := 0
  wrote : Tbl (Nat × Nat) := []
  deriving DecidableEq, Repr

/-- A management transaction (R263, R264): its tag, TID, write data if it is a write, register, position,
attempts made, and its stage: 0 in the queue, 1 sent in the last frame, 2 its reply due in the return of the last
frame. -/
structure Mgmt where
  tag : Nat
  tid : Nat
  wdata : Option (BitVec 64)
  reg : Nat
  pos : Nat
  attempts : Nat
  stage : Nat
  deriving DecidableEq, Repr

/-- FTYPE of a down frame (R242). -/
inductive FType where
  | normal | repeated | safe | idle | enum
  deriving DecidableEq, Repr

/-- A management request (R246): OP, TID, TARGET, REG and DATA. -/
structure MgmtReq where
  op : Nat
  tid : Nat
  target : Nat
  reg : Nat
  data : BitVec 64
  deriving DecidableEq, Repr

/-- A down frame: type, SEQ, telemetry group, apply time, state nibbles by position, the modulating
position with its state and its fine edges in 1/16 tick, its sense times duty, the request of its management slot, and the words
of ENUM_DATA. -/
structure DownFrame where
  ftype : FType
  seq : Nat
  tlmKind : Nat
  group : Nat
  send : Nat
  apply : Nat
  states : List Nat
  mod : Option (Nat × Nat × Nat × Nat)
  duty : Word
  mgmt : Option MgmtReq
  enumData : List Word
  deriving DecidableEq, Repr

/-- Where an enumeration pass stands (R256). -/
inductive EnumStep where
  | link | measure | assign | delay (g : Nat) | writeD (g : Nat) | readId (g : Nat) | idle | resetCount | resetBad
  deriving DecidableEq, Repr

/-- An enumeration pass: the expected count, the tag of its command, its step, whether the frame of the step has been sent, its start
tick, and what it has measured. -/
structure EnumPass where
  expect : Nat
  tag : Option Nat
  step : EnumStep
  sent : Bool
  start : Nat
  fromFar : Bool
  startup : Bool
  found : Nat
  rt : Nat
  delays : Tbl Nat
  hops : Tbl Nat
  uids : Tbl Word
  ids : Tbl Word
  deriving DecidableEq, Repr

/-- A string-voltage request that waits in Stipple (R25): its value, its trigger tick and the tick at which it arrived (R18). -/
structure StrReq where
  v : Word
  t0 : Nat
  came : Nat
  deriving DecidableEq, Repr

/-- RING_STATUS.STATE (08_stipple_link.md). -/
inductive RingState where
  | down | link | enumerating | ready | failed
  deriving DecidableEq, Repr

/-- A StippleLink ring head with its string (08, 09). `lock` says that the receive lane of its port is up (R239), `last` is the
frame sent last, `older` those before it, newest first, `line` the bytes of the last one between /D/ and /E/ (R242), `lastNormal` the
states of the last NORMAL frame, `next` the frame that waits for its send, `lateFold` says that a return came too late
for a ledger update and `foldDue` holds it with the tick of its /E/ (R22), `brkHops` the nodes reached at the last RING_BREAK, if
there was a return (R269), `badRing` the positions with a bad nibble in the present run of full
returns (R271), `req` the pending request, `iPrev` the current of the previous cycle, `farDue`
that a far pass (active) or far-end service (standby) is due, `farAt` the tick from which the far end serves the ring, `farMiss` the
frames sent since its last return, `qty` the string quantities by apply tick, newest first, `frags` the content received in RING_FRAME
cells (R423), `farCopy` and `farReturn` the last down frame that a far port turned round and the return frame that it made (R29,
R250). -/
structure Ring where
  st : RingState := .down
  result : Nat := 0
  linkUp : Bool := false
  lock : Bool := false
  brk : Bool := false
  brkHops : Option Nat := none
  farOk : Bool := false
  count : Nat := 0
  lastReached : Nat := 0x1FF
  seq : Nat := 0
  group : Nat := 0
  last : Option DownFrame := none
  older : List DownFrame := []
  line : List Nat := []
  lastNormal : List Nat := []
  next : Option DownFrame := none
  lateFold : Bool := false
  returned : Bool := true
  missRun : Nat := 0
  shortRun : Nat := 0
  shortHops : Nat := 0
  fullRun : Nat := 0
  badRing : List Nat := []
  crcTick : Option Nat := none
  derrTick : Option Nat := none
  mgmt : List Mgmt := []
  mgmtMost : Nat := 0
  tid : Nat := 0
  pass : Option EnumPass := none
  farDue : Bool := false
  safeDue : Bool := false
  lateRun : Nat := 0
  req : Option StrReq := none
  iPrev : Option Word := none
  normDue : Bool := false
  limTick : Option Nat := none
  limited : Bool := false
  strStatus : Word := 0x30000000
  farAt : Option Nat := none
  qty : List (Nat × List Word) := []
  foldDue : Option (RetFrame × Nat) := none
  frags : Tbl (List Word) := []
  farMiss : Nat := 0
  farCopy : List Nat := []
  farReturn : List Nat := []
  deriving DecidableEq, Repr

/-- A directory entry (R260): the fields of words 0 to 7 and the run of bad nibbles of R268. -/
structure DirEntry where
  present : Bool := false
  bValid : Bool := false
  state : Nat := 0
  status : Nat := 0xF
  excl : Nat := 7
  hop : Nat := 0
  delayA : Nat := 0
  contract : Nat := 0
  cells : Nat := 0
  delayB : Nat := 0
  ledger : Word := 0
  tlm : Word := 0xFFFFFFFF
  tlmTick : Nat := 0
  limits : Word := 0xAA50BE28
  uid : Word := 0
  badRun : Nat := 0
  deriving DecidableEq, Repr

/-- Unit 0x06, Stipple (08_stipple_link.md, 09_stipple_modulation.md). `heldEntry` is the entry that the
last read of a word 0 captured (R260). -/
structure Stipple where
  rings : Tbl Ring := []
  dir : Tbl DirEntry := []
  heldEntry : Option (Nat × List Word) := none
  deriving DecidableEq, Repr

/-- *Context states* (R295). -/
inductive CtxSt where
  | empty | loaded | enabled | faulted | stopping
  deriving DecidableEq, Repr

/-- Where the instance of a context stands (R308 to R310). -/
inductive InstPhase where
  | waiting | ready | running | written | missed
  deriving DecidableEq, Repr

/-- What an evaluation computed and its write-back will store (R298). -/
structure EvalRes where
  fault : Nat
  faultArg : Nat
  faultCount : Nat
  x : List Word
  r : List Word
  tgt : List Word
  u : List Word
  e : List Word
  exc : List Bool
  slots : List Word
  invalid : Bool
  ovr : Bool
  deriving DecidableEq, Repr

/-- An instance of a context: root trigger tick, phase, its slot values once written, its result. -/
structure Inst where
  t0 : Nat
  phase : InstPhase
  res : Option EvalRes
  slots : List Word
  snap : Snap
  deriving DecidableEq, Repr

/-- A Graver context (10_graver.md): its image, running values and counters. `win` holds, newest first,
which measurements exceeded in the last evaluations (R307), `enTick` the landing of the last enable, `lastRoot` the
last root trigger and `toStart` the start of the running timeout interval of a root (R311), `nextTrig` a root trigger that came
in the last tick of the instance before it (DEADLINE = MIN_INTERVAL, R309). -/
structure Ctx where
  st : CtxSt := .empty
  image : List Word := []
  lane : Nat := 0
  cause : Nat := 0
  missRun : Nat := 0
  ovr : Bool := false
  inval : Bool := false
  root : Nat := 0
  worst : Nat := 0
  misses : Nat := 0
  evals : Nat := 0
  out : List Word := []
  published : Bool := false
  x : List Word := []
  r : List Word := []
  tgt : List Word := []
  u : List Word := []
  e : List Word := []
  t0 : Nat := 0
  win : List (List Bool) := []
  first : Bool := false
  inst : Option Inst := none
  enTick : Nat := 0
  lastRoot : Option Nat := none
  toStart : Option Nat := none
  nextTrig : Option Nat := none
  deriving DecidableEq, Repr

/-- Unit 0x07, Graver (10_graver.md). `maps` holds output h of entry e of map m at 3072 m + 2 e + h;
`waits` are the CTX_DISABLE commands and the contexts they wait for (R321), `lanes` the context that runs on each lane, `band` the band of
the last admission check (R58). -/
structure Graver where
  ctxs : Tbl Ctx := []
  maps : Tbl Word := []
  lanes : Tbl (Option Nat) := []
  admLost : Bool := false
  band : Nat := 4
  laneUtil : Tbl Nat := []
  waits : List (Nat × List Nat) := []
  deriving DecidableEq, Repr

/-- PAIR_STATUS.MODE of unit 0x08 (11_plate_pair.md). -/
inductive PairMode where
  | lockstep | splitPending | split | joining | resync | restarting
  deriving DecidableEq, Repr

/-- The debug session (R344). -/
inductive DebugSt where
  | locked | checking | blocked | unlocked
  deriving DecidableEq, Repr

/-- The TAP instruction selected (R344, R351). -/
inductive TapInstr where
  | bypass | idcode | samplePreload | extest | challenge | response | debugAccess | lock
  deriving DecidableEq, Repr

/-- A replay-log entry (R346): retired-instruction number, register (41 and up: a control action), value. -/
structure ReplayEntry where
  num : Nat
  reg : Nat
  value : Word
  deriving DecidableEq, Repr

/-- Unit 0x08, the Plate pair (11_plate_pair.md). `regsP` and `regsC` hold registers 0 to 31, the
program counter at 32 and control registers 0 to 7 at 33 to 40, `marksP` and `marksC` their mark bits (R383); `cbufNext` and
`dqNext` hold the transactions and reads that Plate has reached and stalls before (R325, R327, R328); `wakeCk` says that the
checkpoint of a wake has not been taken (R349), `taskTick` when the free core's task began, `blockTick` when UNLOCK_RESPONSE
was blocked; `session` is the image length of an open firmware update session,
`bps` the breakpoints 0 to 3 and watchpoints 4 and 5. -/
structure Plate where
  mode : PairMode := .lockstep
  halted : Bool := false
  retP : Nat := 0
  retC : Nat := 0
  retCk : Nat := 0
  regsP : Tbl Word := []
  regsC : Tbl Word := []
  marksP : BitVec 41 := 0
  marksC : BitVec 41 := 0
  cbuf : List Txn := []
  cbufNext : List Txn := []
  dq : List DelayEntry := []
  dqNext : List ReadReq := []
  dqHead : Nat := 0
  latent : List Nat := []
  disagree : List Nat := []
  wdTick : Nat := 0
  wakeCk : Bool := false
  task : Nat := 0
  taskTick : Nat := 0
  taskResult : Nat := 0
  splitTag : Option Nat := none
  joinTag : Option Nat := none
  debug : DebugSt := .locked
  nonce : Option (BitVec 64) := none
  blockTick : Nat := 0
  tap : TapInstr := .idcode
  bps : Tbl (Option Nat) := []
  replay : List ReplayEntry := []
  dbgBusy : Bool := false
  dbgRefused : Bool := false
  dbgRead : Word := 0
  tdo : List Word := []
  session : Option Nat := none
  bootSlot : Nat := 0
  fallback : Bool := false
  version : Word := 0
  deriving DecidableEq, Repr

/-- A fault latch (R367): the event's code and instance, whether only a reset clears it. -/
structure Latch where
  code : Nat
  index : Nat
  resetOnly : Bool
  deriving DecidableEq, Repr

/-- A Registration instance (R363 to R365). `codes` and `trig` are the delivery that waits for its evaluation, `lastEval` the last
evaluation or the end of the last interval without one. -/
structure Registration where
  cmdf : Word := 0
  tau : Word := 0
  report : Word := 0
  seen : Bool := false
  mismatch : Bool := false
  inputBad : Bool := false
  timer : Option Nat := none
  vdc : Word := 0
  codes : List (Option Word) := []
  trig : Nat := 0
  fresh : Bool := false
  lastEval : Nat := 0
  deriving DecidableEq, Repr

/-- Unit 0x09, Stop-out and Registration (12_stopout_registration.md). -/
structure StopOut where
  enable : Bool := false
  classD : Bool := false
  ownN : Bool := false
  dsch : Nat := 0
  latches : List Latch := []
  regs : Tbl Registration := []
  deriving DecidableEq, Repr

/-- The mark of a 64-bit word, and the error its stored code word carries (R379, R383). -/
inductive Mark where
  | none | bite | unwritten
  deriving DecidableEq, Repr

/-- The condition of a stored code word: good, one bit wrong, or uncorrectable (R380, R381). -/
inductive EccErr where
  | none | single | multi
  deriving DecidableEq, Repr

/-- A capture buffer (R394 to R397). -/
structure Capture where
  armed : Bool := false
  stopped : Bool := false
  wrapped : Bool := false
  lp : Bool := false
  mode : Nat := 0
  base : Nat := 0
  size : Nat := 0
  write : Nat := 0
  stopTick : Nat := 0
  overrun : Nat := 0
  post : Nat := 0
  mask : Nat := 0
  armTick : Nat := 0
  triggered : Bool := false
  left : Nat := 0
  gap : Bool := false
  queue : List (BitVec 64) := []
  deriving DecidableEq, Repr

/-- Unit 0x0A, memory (13_memory.md). `cells` is SRAM, MRAM and LPDDR5 by byte address, in canonical
form; `marks` and `errs` are by 64-bit word address; `wmap` the written blocks of LPDDR5. `lpOut` holds the requester of each
outstanding LPDDR5 request: 0 to 3 a capture buffer, 4 the Sketchbook mirror; `lpWait` the MEM_READ (false) and MEM_WRITE
(true) commands held in handshake, with their payloads, `lpStore` the stores of the Plate pair held there: address, word, byte
enables and mark; `fills` the blocks being filled with the words that wait to land
there. `consumed` holds the consumptions of the last millisecond: unit, address, tick. -/
structure Memory where
  cells : List Host.Cell := []
  marks : Tbl Mark := []
  errs : Tbl EccErr := []
  wmap : Tbl Bool := []
  lpOnline : Bool := false
  lpCause : Nat := 0
  mr4 : Nat := 1
  mr4Over : Bool := false
  mr4Tick : Nat := 0
  density : Nat := 0
  ranks : Nat := 0
  lpHeld : Bool := false
  lpHeldAt : Nat := 0
  missedRef : Nat := 0
  refreshes : Nat := 0
  refTick : Nat := 0
  lpOut : List Nat := []
  lpWait : List (Nat × Bool × List Word) := []
  lpStore : List (Nat × Word × Nat × Mark) := []
  lpMost : Nat := 0
  fills : List (Nat × List (Nat × Word)) := []
  scrubAddr : Tbl Nat := []
  lapStart : Tbl Nat := []
  ceTick : Tbl (Option Nat) := []
  consumed : List (Nat × Nat × Nat) := []
  caps : Tbl Capture := []
  deriving DecidableEq, Repr

/-- TYPE of a Margin cell (*Cell types*, 14_margin_pair.md). -/
inductive CellType where
  | heartbeat | status | tbPhase | mirror | ringFrame | mailbox | mbxFree | doorbell | lock | lockReply
  | handover | ack | link
  deriving DecidableEq, Repr

/-- A Margin cell: type, SEQ and ACK once it is sent, SUB and payload words. -/
structure Cell where
  ctype : CellType
  seq : Nat
  ack : Nat
  sub : Nat
  payload : List Word
  marks : Nat := 0
  deriving DecidableEq, Repr

/-- The owner of a lock register (R123, R430), seen from side A. -/
inductive LockOwner where
  | free | plateA | hostA | plateB | hostB
  deriving DecidableEq, Repr

/-- The phase of a hand-over (R417 to R420). -/
inductive HoPhase where
  | none | offered | accepted | taking
  deriving DecidableEq, Repr

/-- Unit 0x0B, Margin and pair (14_margin_pair.md). `queue` holds the cells that wait, `resend` those
to be sent again (R406), `wire` the one sent last, `wireLanes` its bytes on the four lanes (R404) and `wireEnd` when they are free again;
`linkTick`, `statusTick` and `rxTick` are when the last LINK cell and the last STATUS cell left and the last cell came that no ACK cell has
followed, `ackTick` when ACK last advanced, `statusSent` the content of the last STATUS and TB_PHASE cells, `leaveTick` when LEAVE was sent;
`lockWait` the lock commands of side B that wait for side A: their number in the LOCK cell, their tag, and whether they
release; `ownElig` this device's ELIGIBILITY at the last good heartbeat (R419); `mirrorPos` the next cell of the MIRROR pass and
`mirrorTop` on a standby the ring of the last entries received; `lastStatus` the DRIVE_CONFIG and PER words of the last STATUS cell
received; `hbSeen` that a heartbeat has come since link up, `hbArrive` and `hbPrev` when the last two came, and `hbTick` when this
device sent its last one. -/
structure Margin where
  sideB : Bool := false
  role : Nat := 0
  linkUp : Bool := false
  deskewed : Bool := false
  peerSeen : Bool := false
  peerSide : Bool := false
  peerPresence : Word := 0
  partnerEligible : Bool := false
  partnerRole : Nat := 0
  partnerRun : Nat := 0
  partnerOp : Nat := 0
  sideConflict : Bool := false
  presMismatch : Bool := false
  peerOwn : Bool := false
  peerOwnTick : Nat := 0
  mirrorOk : Bool := false
  partnerElig : Nat := 0xFF
  doorbell : Word := 0
  mirrorPos : Nat := 0
  mirrorStart : Nat := 0
  mirrorTop : Nat := 0xFF
  txSeq : Nat := 0
  rxSeq : Nat := 0
  unacked : List Cell := []
  queue : List Cell := []
  resend : List Cell := []
  wire : Option Cell := none
  wireLanes : List (List Nat) := []
  wireEnd : Nat := 0
  linkTick : Option Nat := none
  ackTick : Nat := 0
  rxTick : Option Nat := none
  statusTick : Option Nat := none
  statusSent : List Word := []
  resends : Nat := 0
  crcRun : Nat := 0
  hbNum : Nat := 0
  hbPeer : Nat := 0
  hbArrive : Nat := 0
  hbPrev : Option Nat := none
  hbTick : Nat := 0
  hbLost : Bool := false
  hbSeen : Bool := false
  lastStatus : List Word := []
  outbox : Tbl (List Word) := []
  inbox : Tbl (Option (List Word × Bool)) := []
  credit : Nat := 0
  outSent : Tbl Bool := []
  locks : Tbl LockOwner := []
  lockWait : List (Nat × Nat × Bool) := []
  lockNum : Nat := 0
  ownElig : Nat := 0xFF
  ho : HoPhase := .none
  hoTh : Nat := 0
  hoTag : Option Nat := none
  hoTrig : Nat := 0
  hoDue : Bool := false
  ownDue : Bool := false
  farD : Tbl (Option Nat) := []
  leaving : Bool := false
  leaveAck : Bool := false
  leaveTick : Nat := 0
  peerLeft : Bool := false
  relayWait : Tbl (List Nat) := []
  deriving DecidableEq, Repr

/-- BURNISH_STATE.PHASE (15_burnish.md). -/
inductive BurnPhase where
  | idle | running | draining | closed
  deriving DecidableEq, Repr

/-- A Burnish record (R447, R448) as fields of *Burnish record*: `count` and `sig` by unit, `result` by
unit (0 not run, 1 PASS, 2 FAIL, 3 INCOMPLETE), `covered` by unit. -/
structure BurnRec where
  run : Nat := 0
  kind : Nat := 0
  state : Nat := 0
  result : Nat := 0
  aborted : Bool := false
  overflow : Bool := false
  unrep : Bool := false
  duration : Nat := 0
  tj : Int := 0
  band : Nat := 0
  version : Word := 0
  covered : Tbl Bool := []
  results : Tbl Nat := []
  counts : Tbl Nat := []
  sigs : Tbl Word := []
  fails : List (Nat × FailRow) := []
  spares : Tbl Nat := []
  deriving DecidableEq, Repr

/-- Unit 0x0C, Burnish (15_burnish.md). `slots` are the two record slots of MRAM, `sram` the record that
exists in SRAM only, `cur` the record being written, `set` the units of the run and `todo` those still to run, the one in
progress first, `unitAt` when the unit or the drain began. `rows` is the spare-row map of MRAM by bank, `spares` the spare rows in use by bank. -/
structure Burnish where
  phase : BurnPhase := .idle
  quick : Bool := false
  abortTags : List Nat := []
  abortPend : Bool := false
  mramRec : Bool := false
  slot : Nat := 0
  unit : Nat := 0
  unitAt : Nat := 0
  start : Nat := 0
  cur : Option BurnRec := none
  sram : Option BurnRec := none
  slots : Tbl (Option BurnRec) := []
  rows : Tbl (List Nat) := []
  spares : Tbl Nat := []
  set : List Nat := []
  todo : List Nat := []
  reload : Bool := false
  dead : Bool := false
  lastStart : Word := 0
  deriving DecidableEq, Repr

/-- Unit 0x0D, the Sketchbook (16_sketchbook_thermal.md). `inq` is its input queue; the log is oldest first; `markWait` the commands that
wait for the SEQ of their event, by its code, its tick and their tag (R463, R464). -/
structure Sketchbook where
  inq : List Event := []
  log : List LogEntry := []
  nextSeq : Nat := 0
  frozen : Bool := false
  armed : Bool := false
  left : Nat := 0
  armSeq : Nat := 0
  frozenSeq : Nat := 0
  mirActive : Bool := false
  mirFull : Bool := false
  mirWrapped : Bool := false
  mirIndex : Nat := 0
  mirQueue : List LogEntry := []
  markWait : List (Nat × Nat × Nat) := []
  deriving DecidableEq, Repr

/-- Unit 0x0E, housekeeping and thermal (16_sketchbook_thermal.md). -/
structure Thermal where
  tjValid : Bool := false
  thr : Nat := 0
  band : Nat := 4
  tj : Int := 350
  hi : Int := -32768
  lo : Int := 32767
  published : Bool := false
  codes : Tbl Nat := []
  out : Tbl Bool := []
  held : List Event := []
  deriving DecidableEq, Repr

/-- The kinds of reset (R485), lowest rank first (R487). -/
inductive ResetKind where
  | pair | warm | system | powerOn
  deriving DecidableEq, Repr

/-- Where sleep stands (R481 to R483). -/
inductive SleepSt where
  | awake | leaving | asleep | waking
  deriving DecidableEq, Repr

/-- Unit 0x0F, power states (17_power_states.md). `resetCode` is the code of the reset in progress or just ended, `resetDue` the
tag and KIND of a RESET that is under way, `sleepTag` and `shutTag` the tags of a SLEEP or SHUTDOWN that waits for a join or for LEAVE,
`sleepDue` that SLEEP has completed and sleep is to be entered, `wakeCfg` the WAKE_CFG in force since the last sleep entry,
`supplyBad` the supply faults (channel, above) that wait to be raised. -/
structure Power where
  lastReset : Nat := 0
  lastWake : Nat := 0
  highSeen : Nat := 0
  lowSeen : Nat := 0
  bootTime : Nat := 0
  wakeTime : Nat := 0
  bootStep : Nat := 0
  resetting : Option ResetKind := some .powerOn
  resetCode : Nat := 0
  resetDue : Option (Nat × Nat) := none
  sleepDue : Bool := false
  sleepTag : Option Nat := none
  wakeCfg : Word := 0x90000000
  oldOp : Nat := 0
  sleep : SleepSt := .awake
  asleepTd0 : Nat := 0
  lockTick : Nat := 0
  supplyBad : List (Nat × Bool) := []
  shutTag : Option Nat := none
  deriving DecidableEq, Repr

/-- The state of the device (01_architecture.md, Units and where they run). `now` is global time in
ticks (R44), `free` counts the free values drawn so far, and `pending` is the queue of the commands that
wait, first in first out. -/
structure State where
  part : Part
  now : Nat
  op : OpState
  safeLocked : Bool
  drives : Tbl Drive
  par : Tbl Word
  nv : Tbl Word
  folio : Folio
  tim : Timing
  conv : Converters
  pos : Position
  hatch : Hatch
  stip : Stipple
  grav : Graver
  plate : Plate
  so : StopOut
  mem : Memory
  marg : Margin
  burn : Burnish
  book : Sketchbook
  therm : Thermal
  pwr : Power
  free : Nat
  pending : List Instr
  deriving DecidableEq, Repr

/-- No meaning of this model ends in a fault: every row of the table that finds its condition leaves a
next state. The one constructor is for an exec that would be offered a row it has no meaning for;
nothing raises it. Safe. -/
inductive Fault where
  | none
  deriving DecidableEq, Repr

/-- The reasons a step is refused. `notModelled` is the arm of a row without a meaning yet (safe: the
model stops where the hardware goes on). -/
inductive Refusal where
  | notModelled (mnemonic : String)
  deriving DecidableEq, Repr

/-- The device while power-on reset holds it (R474): an ITC-8120 (DESIGN CHOICE, log 1), global time 0
(R44), BOOT, every unit at the Reset values of its chapter, and no command waiting. MRAM holds a firmware image that
verifies in slot 0 (DESIGN CHOICE, log 36). -/
def State.reset : State :=
  { part := .itc8120, now := 0, op := .boot, safeLocked := false, drives := [], par := [], nv := [(0x80100, 1)],
    folio := {}, tim := {}, conv := {}, pos := {}, hatch := {}, stip := {}, grav := {}, plate := {},
    so := {}, mem := {}, marg := {}, burn := {}, book := {}, therm := {}, pwr := {}, free := 0, pending := [] }

end Sys2Proof.Machine
end

