-- ==== Sys2Proof/Machine/Ops.lean ====
section
/-!
DEFINITION. The operations every meaning shares: tables, the clock, what a part has, and the access to the
pieces of State.
-/
namespace Sys2Proof.Machine

/-! Tables: an entry is listed when it differs from the default, by strictly rising key. -/

/-- The value at key `k`; `d` where the key is not listed. -/
def tblGet {α : Type} (t : Tbl α) (d : α) (k : Nat) : α :=
  match t with
  | [] => d
  | (k', v) :: r => if k' = k then v else tblGet r d k

/-- The table with `v` listed at `k`. -/
def tblPut {α : Type} (t : Tbl α) (k : Nat) (v : α) : Tbl α :=
  match t with
  | [] => [(k, v)]
  | (k', v') :: r => if k < k' then (k, v) :: (k', v') :: r else if k' = k then (k, v) :: r else (k', v') :: tblPut r k v

/-- The table without the entries at `k`. -/
def tblDel {α : Type} (t : Tbl α) (k : Nat) : Tbl α :=
  match t with
  | [] => []
  | (k', v) :: r => if k' = k then tblDel r k else (k', v) :: tblDel r k

/-- The table with the value `v` at `k`: a default value is not listed. -/
def tblSet {α : Type} [DecidableEq α] (t : Tbl α) (d : α) (k : Nat) (v : α) : Tbl α :=
  if v = d then tblDel t k else tblPut t k v

/-- The keys rise strictly, each above `lo` when there is one. -/
def tblSorted {α : Type} (lo : Option Nat) (t : Tbl α) : Bool :=
  match t with
  | [] => true
  | (k, _) :: r => (match lo with | none => true | some l => l < k) && tblSorted (some k) r

/-- The canonical form of a table with default `d`. -/
def tblWf {α : Type} [DecidableEq α] (d : α) (t : Tbl α) : Bool :=
  tblSorted none t && t.all fun e => e.2 ≠ d

/-- Whether TD1 ticks: the main PLL runs or is in holdover (R41, R44). -/
def ticking (s : State) : Bool := s.tim.td1 || s.tim.holdover = .active

/-- One tick of TD1 passes: global time advances (R44, R45). -/
def tick (s : State) : State := if ticking s then { s with now := s.now + 1 } else s


/-! What a part has (*Units per variant*, 00_scope.md). -/

/-- The rings of the part: 16, 4 or none, from ring 0. -/
def ringCount (p : Part) : Nat :=
  match p with
  | .itc8120 => 16 | .itc8112 => 4 | .itc8104 => 0

/-- The Graver lanes of the part. -/
def laneCount (p : Part) : Nat :=
  match p with
  | .itc8120 => 4 | .itc8112 => 4 | .itc8104 => 2

/-- Whether the part has the LPDDR5 controller. -/
def hasLp (p : Part) : Bool :=
  match p with
  | .itc8120 => true | .itc8112 => true | .itc8104 => false

/-- The presence word (R4). -/
def presence (p : Part) : Word :=
  match p with
  | .itc8120 => 0xFFFFF800 | .itc8112 => 0x000FF800 | .itc8104 => 0x00003000

/-! Bits and numbers. -/

/-- Bits `hi` to `lo` of a word, as a number. -/
def field (w : Word) (hi lo : Nat) : Nat := w.toNat / 2 ^ lo % 2 ^ (hi + 1 - lo)

/-- The word with its bits `hi` to `lo` set to `v`. -/
def setField (w : Word) (hi lo v : Nat) : Word :=
  BitVec.ofNat 32 (w.toNat - field w hi lo * 2 ^ lo + v % 2 ^ (hi + 1 - lo) * 2 ^ lo)

/-- Bit `n` of a word. -/
def wbit (w : Word) (n : Nat) : Bool := w.getLsbD n

/-- 1 for true, 0 for false. -/
def b2n (b : Bool) : Nat := if b then 1 else 0

/-- The word of a number, modulo 2³². -/
def wrd (n : Nat) : Word := BitVec.ofNat 32 n

/-- The two's complement word of an integer. -/
def wrdI (n : Int) : Word := BitVec.ofInt 32 n

/-- A microsecond in ticks (*Numbers, time and data*, 00_scope.md). -/
def usTicks : Nat := 400

/-- A millisecond in ticks. -/
def msTicks : Nat := 400000

/-- Whether a stamp `t` lies in the sliding window of duration `d` that ends with the present tick `now`, on the count in force (R45,
R61). -/
def inSlide (now t d : Nat) : Bool := decide (t ≤ now) && decide (now < t + d)


/-! Access to the pieces of State. Each `updX` replaces one element. -/

/-- Drive `d`. -/
def State.drive (s : State) (d : Nat) : Drive := tblGet s.drives {} d
/-- The state with drive `d` changed. -/
def State.updDrive (s : State) (d : Nat) (f : Drive → Drive) : State :=
  { s with drives := tblSet s.drives {} d (f (s.drive d)) }
/-- Timebase `t`. -/
def State.tb (s : State) (t : Nat) : Timebase := tblGet s.hatch.tbs {} t
/-- The state with timebase `t` changed. -/
def State.updTb (s : State) (t : Nat) (f : Timebase → Timebase) : State :=
  { s with hatch := { s.hatch with tbs := tblSet s.hatch.tbs {} t (f (s.tb t)) } }
/-- Output pair `p`. -/
def State.pair (s : State) (p : Nat) : Pair := tblGet s.hatch.pairs {} p
/-- The state with pair `p` changed. -/
def State.updPair (s : State) (p : Nat) (f : Pair → Pair) : State :=
  { s with hatch := { s.hatch with pairs := tblSet s.hatch.pairs {} p (f (s.pair p)) } }
/-- Ring `r`. -/
def State.ring (s : State) (r : Nat) : Ring := tblGet s.stip.rings {} r
/-- The state with ring `r` changed. -/
def State.updRing (s : State) (r : Nat) (f : Ring → Ring) : State :=
  { s with stip := { s.stip with rings := tblSet s.stip.rings {} r (f (s.ring r)) } }
/-- Directory entry `d`. -/
def State.entry (s : State) (d : Nat) : DirEntry := tblGet s.stip.dir {} d
/-- The state with directory entry `d` changed. -/
def State.updEntry (s : State) (d : Nat) (f : DirEntry → DirEntry) : State :=
  { s with stip := { s.stip with dir := tblSet s.stip.dir {} d (f (s.entry d)) } }
/-- Position source `n`. -/
def State.src (s : State) (n : Nat) : PosSrc := tblGet s.pos.srcs {} n
/-- The state with position source `n` changed. -/
def State.updSrc (s : State) (n : Nat) (f : PosSrc → PosSrc) : State :=
  { s with pos := { s.pos with srcs := tblSet s.pos.srcs {} n (f (s.src n)) } }
/-- Position compare `n`. -/
def State.cmp (s : State) (n : Nat) : PosCmp := tblGet s.pos.cmps {} n
/-- The state with position compare `n` changed. -/
def State.updCmp (s : State) (n : Nat) (f : PosCmp → PosCmp) : State :=
  { s with pos := { s.pos with cmps := tblSet s.pos.cmps {} n (f (s.cmp n)) } }
/-- Encoder emulation output `n`. -/
def State.emu (s : State) (n : Nat) : Emu := tblGet s.pos.emus {} n
/-- The state with emulation output `n` changed. -/
def State.updEmu (s : State) (n : Nat) (f : Emu → Emu) : State :=
  { s with pos := { s.pos with emus := tblSet s.pos.emus {} n (f (s.emu n)) } }
/-- Sequence `n`. -/
def State.sequ (s : State) (n : Nat) : Seq := tblGet s.conv.seqs {} n
/-- The state with sequence `n` changed. -/
def State.updSeq (s : State) (n : Nat) (f : Seq → Seq) : State :=
  { s with conv := { s.conv with seqs := tblSet s.conv.seqs {} n (f (s.sequ n)) } }
/-- Logical slice `l`. -/
def State.slice (s : State) (l : Nat) : Slice := tblGet s.conv.slices {} l
/-- The state with logical slice `l` changed. -/
def State.updSlice (s : State) (l : Nat) (f : Slice → Slice) : State :=
  { s with conv := { s.conv with slices := tblSet s.conv.slices {} l (f (s.slice l)) } }
/-- Graver context `c`. -/
def State.ctx (s : State) (c : Nat) : Ctx := tblGet s.grav.ctxs {} c
/-- The state with context `c` changed. -/
def State.updCtx (s : State) (c : Nat) (f : Ctx → Ctx) : State :=
  { s with grav := { s.grav with ctxs := tblSet s.grav.ctxs {} c (f (s.ctx c)) } }
/-- The Registration instance of drive `d`. -/
def State.regn (s : State) (d : Nat) : Registration := tblGet s.so.regs {} d
/-- The state with the Registration instance of drive `d` changed. -/
def State.updRegn (s : State) (d : Nat) (f : Registration → Registration) : State :=
  { s with so := { s.so with regs := tblSet s.so.regs {} d (f (s.regn d)) } }
/-- Capture buffer `b`. -/
def State.cap (s : State) (b : Nat) : Capture := tblGet s.mem.caps {} b
/-- The state with capture buffer `b` changed. -/
def State.updCap (s : State) (b : Nat) (f : Capture → Capture) : State :=
  { s with mem := { s.mem with caps := tblSet s.mem.caps {} b (f (s.cap b)) } }

/-- Apply `f` for each number below `n`, from 0 upward. -/
def forUpTo (n : Nat) (f : Nat → State → State) (s : State) : State :=
  match n with
  | 0 => s
  | k + 1 => f k (forUpTo k f s)

/-- Apply `f` for each element of a list, from the front. -/
def forEach {α : Type} (l : List α) (f : α → State → State) (s : State) : State :=
  match l with
  | [] => s
  | a :: r => forEach r f (f a s)

/-- The numbers below `n` that satisfy `p`, rising. -/
def below (n : Nat) (p : Nat → Bool) : List Nat := (List.range n).filter p

end Sys2Proof.Machine
end

