-- ==== Sys2Proof/Machine/Binary32.lean ====
section
/-!
DEFINITION. The binary32 arithmetic of R297: operations computed exactly and rounded once, to nearest even,
subnormal operands and results read as zero of the same sign; angles, SINTAB and the voltage code of R498.
-/
namespace Sys2Proof.Machine

/-- The sign bit. -/
def fNegative (w : Word) : Bool := w.getLsbD 31
/-- The biased exponent. -/
def fExp (w : Word) : Nat := field w 30 23
/-- The fraction bits. -/
def fFrac (w : Word) : Nat := field w 22 0
/-- Whether a value is a NaN. -/
def fNaN (w : Word) : Bool := fExp w = 255 && fFrac w ≠ 0
/-- Whether a value is an infinity. -/
def fInf (w : Word) : Bool := fExp w = 255 && fFrac w = 0
/-- Whether a value is neither a NaN nor an infinity. -/
def fFinite (w : Word) : Bool := fExp w ≠ 255
/-- The significand of a finite value in units of 2^(exponent − 150): 0 for a zero or a subnormal. -/
def fSig (w : Word) : Nat := if fExp w = 0 then 0 else 0x800000 + fFrac w
/-- Whether a value is read as zero. -/
def fZero (w : Word) : Bool := fExp w = 0
/-- The word of a sign, a biased exponent and a fraction. -/
def fPack (neg : Bool) (e f : Nat) : Word := BitVec.ofNat 32 (b2n neg * 0x80000000 + e * 0x800000 + f)
/-- The NaN the model delivers where the spec fixes no payload. -/
def fQuiet : Word := 0x7FC00000

/-- m × 2^e with a sign, rounded to nearest even to 24 bits as though the exponent range were unbounded, then
flushed to zero below 2^-126 and to infinity above the range (R297). -/
def fRound (neg : Bool) (m : Nat) (e : Int) : Word :=
  if m = 0 then fPack neg 0 0
  else
    let len := Nat.log2 m + 1
    let sh := len - 24
    let q := if len ≤ 24 then m * 2 ^ (24 - len) else m / 2 ^ sh
    let rem := if len ≤ 24 then 0 else m % 2 ^ sh
    let half := 2 ^ sh / 2
    let up := decide (24 < len) && (decide (half < rem) || (decide (rem = half) && decide (q % 2 = 1)))
    let q := if up then q + 1 else q
    let ex : Int := e + ((len : Int) - 24)
    let ex := if q = 0x1000000 then ex + 1 else ex
    let q := if q = 0x1000000 then 0x800000 else q
    let b := ex + 150
    if 255 ≤ b then fPack neg 255 0
    else if b ≤ 0 then fPack neg 0 0
    else fPack neg b.toNat (q - 0x800000)

/-- The value −x: negation is exact. -/
def fNeg (w : Word) : Word := w ^^^ 0x80000000
/-- The magnitude. -/
def fAbs (w : Word) : Word := w &&& 0x7FFFFFFF
/-- A subnormal becomes zero of its sign. -/
def fFlush (w : Word) : Word := if fExp w = 0 then fPack (fNegative w) 0 0 else w

/-- The sum of two signed exact values, rounded once; an exact zero keeps a common sign and is +0 otherwise. -/
def fSum (n1 : Bool) (m1 : Nat) (e1 : Int) (n2 : Bool) (m2 : Nat) (e2 : Int) : Word :=
  let e := min e1 e2
  let a : Int := (m1 * 2 ^ (e1 - e).toNat : Nat)
  let b : Int := (m2 * 2 ^ (e2 - e).toNat : Nat)
  let t := (if n1 then -a else a) + (if n2 then -b else b)
  if t = 0 then fPack (n1 && n2) 0 0 else fRound (decide (t < 0)) t.natAbs e

/-- a × b + c with a single rounding. -/
def fFma (a b c : Word) : Word :=
  let n := fNegative a != fNegative b
  if fNaN a || fNaN b || fNaN c then fQuiet
  else if (fInf a && fZero b) || (fZero a && fInf b) then fQuiet
  else if fInf a || fInf b then (if fInf c && fNegative c != n then fQuiet else fPack n 255 0)
  else if fInf c then c
  else fSum n (fSig a * fSig b) ((fExp a : Int) + fExp b - 300) (fNegative c) (fSig c) ((fExp c : Int) - 150)

/-- x + y. -/
def fAdd (a b : Word) : Word := fFma a 0x3F800000 b
/-- x − y, computed as x + (−y). -/
def fSub (a b : Word) : Word := fAdd a (fNeg b)

/-- x × y. -/
def fMul (a b : Word) : Word :=
  let n := fNegative a != fNegative b
  if fNaN a || fNaN b then fQuiet
  else if (fInf a && fZero b) || (fZero a && fInf b) then fQuiet
  else if fInf a || fInf b then fPack n 255 0
  else fRound n (fSig a * fSig b) ((fExp a : Int) + fExp b - 300)

/-- x / y: a quotient of more than 25 bits with a sticky bit below it rounds as the exact one. -/
def fDiv (a b : Word) : Word :=
  let n := fNegative a != fNegative b
  if fNaN a || fNaN b then fQuiet
  else if fInf a then (if fInf b then fQuiet else fPack n 255 0)
  else if fInf b then fPack n 0 0
  else if fZero b then (if fZero a then fQuiet else fPack n 255 0)
  else
    let num := fSig a * 2 ^ 40
    let q := num / fSig b
    let m := 2 * q + (if num % fSig b = 0 then 0 else 1)
    fRound n m ((fExp a : Int) - fExp b - 41)

/-- The binary32 value nearest to n / d, ties to even, for a positive d (R195). -/
def fQuot (n : Int) (d : Nat) : Word :=
  let num := n.natAbs * 2 ^ 160
  fRound (decide (n < 0)) (2 * (num / d) + (if num % d = 0 then 0 else 1)) (-161)

/-- A finite value or an infinity as an integer that orders as the value does. -/
def fKey (w : Word) : Int :=
  let m : Int := if fExp w = 0 then 0 else ((w.toNat % 0x80000000 : Nat) : Int)
  if fNegative w then -m else m
/-- x ≤ y; false when either is a NaN. -/
def fLe (a b : Word) : Bool := !fNaN a && !fNaN b && decide (fKey a ≤ fKey b)
/-- x < y; false when either is a NaN. -/
def fLt (a b : Word) : Bool := !fNaN a && !fNaN b && decide (fKey a < fKey b)
/-- min(a, b): a when a ≤ b, and b otherwise. -/
def fMin (a b : Word) : Word := fFlush (if fLe a b then a else b)
/-- max(a, b): a when a ≥ b, and b otherwise. -/
def fMax (a b : Word) : Word := fFlush (if fLe b a then a else b)

/-- An integer as binary32. -/
def fOfInt (n : Int) : Word := fRound (decide (n < 0)) n.natAbs 0
/-- A natural number as binary32. -/
def fOfNat (n : Nat) : Word := fRound false n 0

/-- n / d rounded to the nearest integer, ties to even. -/
def roundHalfEven (n d : Nat) : Nat :=
  let q := n / d
  let r := n % d
  if d < 2 * r ∨ (2 * r = d ∧ q % 2 = 1) then q + 1 else q

/-- x × 2^k rounded half to even, for a finite x. -/
def fRoundScaled (w : Word) (k : Nat) : Int :=
  let e : Int := (fExp w : Int) - 150 + k
  let m := fSig w
  let n : Nat := if 0 ≤ e then m * 2 ^ e.toNat else roundHalfEven m (2 ^ (-e).toNat)
  if fNegative w then -(n : Int) else (n : Int)

/-- round_half_even of a finite value. -/
def fRoundEven (w : Word) : Int := fRoundScaled w 0

/-- floor of a finite value. -/
def fFloor (w : Word) : Int :=
  let e : Int := (fExp w : Int) - 150
  let m : Int := if fNegative w then -(fSig w : Int) else (fSig w : Int)
  if 0 ≤ e then m * 2 ^ e.toNat else m / 2 ^ (-e).toNat

/-- float_angle(θ): the binary32 value nearest to θ, times 2^-32. -/
def floatAngle (t : Nat) : Word := fRound false t (-32)
/-- to_angle(x): round_half_even(x × 2^32) modulo 2^32; 0 for a NaN or an infinity, which faults before it is used. -/
def toAngle (w : Word) : Nat := if fFinite w then (fRoundScaled w 32 % 0x100000000).toNat else 0

/-- 2π × 2^160, rounded down, for the sine series. -/
def twoPi160 : Nat := 0x6487ED5110B4611A62633145C06E0E68948127044

/-- The Taylor terms of a sine from `term` on, in units of 2^-160, with `x2` the square of the argument. -/
def sinSeries (fuel n : Nat) (term x2 : Nat) (neg : Bool) (acc : Int) : Int :=
  match fuel with
  | 0 => acc
  | k + 1 =>
    let acc := if neg then acc - term else acc + term
    sinSeries k (n + 2) (term * x2 / 2 ^ 160 / ((n + 1) * (n + 2))) x2 (!neg) acc

/-- sin(2πj / 4,096) × 2^160 for j up to 1,024. -/
def sinQuarter (j : Nat) : Nat :=
  let x := twoPi160 * j / 4096
  (sinSeries 32 1 x (x * x / 2 ^ 160) false 0).toNat

/-- Entry k of SINTAB: the binary32 value nearest to sin(2πk / 4,096) (R297). -/
def sinTab (k : Nat) : Word :=
  let k := k % 4096
  let j := k % 1024
  let j := if (k / 1024) % 2 = 1 then 1024 - j else j
  if j = 0 then 0
  else if j = 1024 then fPack (decide (2048 ≤ k)) 127 0
  else fRound (decide (2048 ≤ k)) (sinQuarter j) (-160)

/-- sn and cs of a 32-bit angle. -/
def sinCos (t : Nat) : Word × Word :=
  let k := (t + 0x80000) / 0x100000 % 4096
  (sinTab k, sinTab (k + 1024))

/-- A voltage in mV as an event argument: v × 1,000 rounded half to even, saturated (R498). An infinity saturates. -/
def milliVolt (v : Word) : Word :=
  if fNaN v then 0x80000000
  else if fInf v then (if fNegative v then 0x80000001 else 0x7FFFFFFF)
  else
    let e : Int := (fExp v : Int) - 150
    let m := fSig v * 1000
    let n : Nat := if 0 ≤ e then m * 2 ^ e.toNat else roundHalfEven m (2 ^ (-e).toNat)
    let n := min n 0x7FFFFFFF
    if fNegative v then wrdI (-(n : Int)) else wrd n

end Sys2Proof.Machine
end

