-- ==== Sys2Proof/Config.lean ====
section
/-!
DEFINITION. The free values: what the spec leaves open and the device still produces. Each is a constant
without a body, applied to the count of free values drawn so far (State.free), so that no proof can
see what it is; each use is named in the assumption log.
-/
namespace Sys2Proof.Config

/-- A 32-bit word the spec does not fix, by the number of the draw. -/
opaque freeWord : Nat → Word

/-- A bit the spec does not fix, by the number of the draw. -/
opaque freeBit : Nat → Bool

/-- The nonce of an unlock challenge (R344), by the number of the draw. -/
opaque nonce : Nat → BitVec 64

/-- The serial number of the device (*Device parameter index*). -/
opaque serial : BitVec 64

/-- The silicon stepping of the device (PART_ID, *Device parameter index*). -/
opaque stepping : BitVec 8

/-- The JEP106 code in the IDCODE (11_plate_pair.md, Debug). -/
opaque jep106 : BitVec 11

/-- The guaranteed pace of band `b` as trimmed at test, UQ4.12 (R56). -/
opaque paceTrim : Nat → BitVec 16

/-- The trim of chain `k` of the pace monitor: its lap count at VDDC 0.72 V and Tj 150 °C, stored at test (02_timing_fabric.md). -/
opaque chainTrim : Nat → BitVec 16

/-- The window of housekeeping channel `k`, 6 or 7, as trimmed per device (*Housekeeping channels*). -/
opaque hkTrim : Nat → Word

/-- The expected pattern count of a Burnish unit, stored at test (15_burnish.md): by 2 * unit, plus 1 for the QUICK set. -/
opaque burnCount : Nat → Nat

/-- The expected signature of a Burnish unit, by the same number. -/
opaque burnSig : Nat → Word

end Sys2Proof.Config
end

