-- ==== Sys2Proof/Machine/ParamTable.lean ====
section
/-!
DEFINITION. The parameter space as tables: for each unit, which indices it defines, which bits the host may
write and how, which bits are reserved, and the reset value (the parameter index and field maps of each
chapter). A parameter is addressed by unit and index (04_commands.md, Parameter address word).
-/
namespace Sys2Proof.Machine

/-- The access of a parameter: bits RW, RWS, W1C and WO, reserved bits, whether any write clears it (a
counter), and the reset value (*Access codes*, 00_scope.md). A parameter with no writable bit is RO. -/
structure ParamInfo where
  rw : Word := 0
  rws : Word := 0
  w1c : Word := 0
  wo : Word := 0
  counter : Bool := false
  rst : Word := 0
  rsv : Word := 0
  deriving DecidableEq, Repr

/-- A parameter that is read only. -/
def pRO (rst : Word := 0) : Option ParamInfo := some { rst := rst }
/-- A parameter whose bits of `m` are RW; the others are reserved. -/
def pRW (m rst : Word) : Option ParamInfo := some { rw := m, rst := rst, rsv := ~~~ m }
/-- A parameter whose bits of `m` are RWS; the others are reserved. -/
def pRWS (m rst : Word) : Option ParamInfo := some { rws := m, rst := rst, rsv := ~~~ m }
/-- A counter: any write clears it. -/
def pCtr : Option ParamInfo := some { counter := true, rw := 0xFFFFFFFF }
/-- A parameter with W1C bits `m` and reserved bits `rsv`; the others are RO. -/
def pW1C (m rsv : Word) : Option ParamInfo := some { w1c := m, rsv := rsv }

/-- *Device parameter index* (04_commands.md). -/
def info00 (i : Nat) : Option ParamInfo :=
  if i ≤ 5 then pRO
  else if i = 6 then pRW 0x3 0
  else if i = 7 then pRW 0x1 0
  else if 0x10 ≤ i ∧ i ≤ 0x17 then pRO
  else none

/-- *Folio parameter index* (03_folio_port.md). -/
def info01 (i : Nat) : Option ParamInfo :=
  if i = 0 then pRW 0x7 4
  else if i = 1 then pRO
  else if i = 2 then pRWS 0x1FF 0x20
  else if i = 3 then pRW 0xFFFF 0x1F4
  else if i = 4 then pRW 0x3F 0x1F
  else if i = 5 then pW1C 0x3D 0xFFFFFFC0
  else if i = 6 then pRO
  else if i ≤ 0xD then pCtr
  else none

/-- *Guaranteed pace per band* as UQ4.12 codes. -/
def paceTable (b : Nat) : Nat :=
  match b with
  | 0 => 0x14CD | 1 => 0x1385 | 2 => 0x123D | 3 => 0x10F6 | _ => 0x1000

/-- PACE_GUAR of band `b`: trimmed per device, never below the table (R56; DESIGN CHOICE, log 63). -/
def paceOf (b : Nat) : Nat := max (paceTable b) (Config.paceTrim b).toNat

/-- *Timing parameter index* (02_timing_fabric.md). -/
def info02 (i : Nat) : Option ParamInfo :=
  if i ≤ 1 then pRO
  else if i = 2 then pW1C 0xC0 0xFFFFFF0E
  else if i ≤ 4 then pRO
  else if i = 5 then pW1C 0xE 0xFFFFF070
  else if i ≤ 9 then pRO
  else if 0x10 ≤ i ∧ i ≤ 0x14 then pRO (BitVec.ofNat 32 (paceOf (i - 0x10)))
  else none

/-- *Converter parameter index* (05_converters.md). -/
def info03 (i : Nat) : Option ParamInfo :=
  if i = 0 then pRW 0x1FFFF 0x103E8
  else if i ≤ 7 then pRO
  else if i ≤ 0xA then pCtr
  else if i = 0x10 then some { wo := 0xFFFFFFFF }
  else if 0x11 ≤ i ∧ i ≤ 0x13 then pCtr
  else if i = 0x14 ∨ i = 0x15 then pW1C 0xFFFFFFFF 0
  else if i = 0x16 then pRO
  else if i = 0x17 then pW1C 0xFFFFFF 0xFF000000
  else if 0x100 ≤ i ∧ i ≤ 0x11F then some { rw := 0x80000000, rsv := 0x7F0080FF }
  else if 0x200 ≤ i ∧ i ≤ 0x21F then pRO
  else if 0x300 ≤ i ∧ i ≤ 0x317 then pRWS 0xC3FFFFFF (BitVec.ofNat 32 ((i - 0x300) * 0x100000 + 0xFFC00))
  else if 0x1000 ≤ i ∧ i ≤ 0x17FF then pRO
  else if 0x2000 ≤ i ∧ i ≤ 0x27FF then pRO
  else none

/-- The reset value of source block word `w` of source `n` (*SRC_CFG*, *SRC_TIME*, *Source kind words*). -/
def srcWordReset (n w : Nat) : Word :=
  if w = 0 then (if n < 4 then 0x40000201 else 0x00000201)
  else if w = 1 then 0x2710
  else if n < 2 then (if w = 2 then 0xFA0 else if w = 3 then 0x2C000000 else if w = 4 then 4 else 0)
  else 0

/-- *Position parameter index* (06_position.md). -/
def info04 (i : Nat) : Option ParamInfo :=
  if 0x10 ≤ i ∧ i ≤ 0x13 then pRWS 0xFFFFFFFF 0x030400FF
  else if 0x14 ≤ i ∧ i ≤ 0x17 then pRWS 0xFFFFFFFF 0
  else if i = 0x20 ∨ i = 0x21 then pRW 0xC1FFFFFF 0x1001
  else if 0x100 ≤ i ∧ i < 0x1C0 then
    (let w := i % 16
     if w ≤ 5 then pRO (srcWordReset ((i - 0x100) / 16) w)
     else if w = 8 then pRO 0x1000
     else if 9 ≤ w ∧ w ≤ 0xB then pRO
     else if w = 0xC then pCtr
     else if w = 0xD ∨ w = 0xE then pRO
     else none)
  else if 0x300 ≤ i ∧ i < 0x320 then pRO
  else none

/-- The reset value of PAIR_CFG of pair `n` (*PAIR_CFG*). -/
def pairCfgReset (n : Nat) : Word := BitVec.ofNat 32 ((n % 3) * 0x4000000 + (n / 3) * 0x1000000 + 0x800010)

/-- *Hatch parameter index* (07_hatch.md). -/
def info05 (i : Nat) : Option ParamInfo :=
  if 0x100 ≤ i ∧ i < 0x140 then
    (let w := i % 16
     if w = 0 then pRWS 0xF9FFFFFF 0
     else if w = 1 then pRW 0xFFFFFF 0x4E20
     else if w ≤ 7 then pRW 0x0FFFFFFF 0
     else if w = 8 then pRW 0xFFFFFFFF 0x00280028
     else if w = 9 then pRW 0xFFF 0
     else if w ≤ 0xB then pRO
     else none)
  else if 0x200 ≤ i ∧ i < 0x2C0 then
    (let w := i % 16
     if w = 0 then pRWS 0xFFFFFFFF (pairCfgReset ((i - 0x200) / 16))
     else if w ≤ 5 then pRWS 0x0FFF0FFF 0x06400640
     else if w ≤ 7 then pRWS 0x3FFF3FFF 0
     else if w = 8 then pW1C 0x400000 0x3FFFFF
     else if w = 9 then pCtr
     else none)
  else if 0x300 ≤ i ∧ i < 0x310 then
    (let w := i % 4
     if w = 0 then pRWS 0xE000FF03 0x80000000
     else if w = 1 then pRWS 0xFFFFFFFF 0
     else if w = 2 then pRWS 0xFFFFFFFF 0x41A00000
     else pRO)
  else none

/-- *Ring parameter index*, *String parameter index* and the directory (08, 09). -/
def info06 (i : Nat) : Option ParamInfo :=
  if 0x100 ≤ i ∧ i < 0x200 then
    (let w := i % 16
     if w = 0 then some { rws := 0x800000FF, rst := 0x81000014, rsv := 0x7E00FF00 }
     else if w = 1 then pRO
     else if w = 2 then pRWS 0x7FFFF 0x9C40
     else if w ≤ 4 then pRO
     else if w ≤ 9 then pCtr
     else if w = 0xA then pRO
     else none)
  else if 0x200 ≤ i ∧ i < 0x400 then
    (let w := i % 32
     if w = 0 then pRWS 0xF0000000 0x10000000
     else if w = 1 then pRWS 0x3F1F3F1F 0
     else if w ≤ 5 then pRWS 0xFFFFFFFF 0
     else if w = 6 then pRW 0xFFFFFFFF 0
     else if w = 7 then pRW 0xFFFFFFFF 0x3F800000
     else if w ≤ 9 then pRW 0xFFFFFFFF 0x3C23D70A
     else if w = 0xA then pRW 0xFFFFFFFF 0x3E000000
     else if w = 0xB then pRW 0xFF00FFFF 0x8C0007D0
     else if w = 0xC then pRWS 0x7FF 0x1F4
     else if w ≤ 0x11 then pRO
     else if w ≤ 0x14 then pCtr
     else none)
  else if 0x8000 ≤ i ∧ i ≤ 0xFFFF then pRO
  else none

/-- *Graver parameter index* (10_graver.md). -/
def info07 (i : Nat) : Option ParamInfo :=
  if i = 0 then pRO
  else if i = 1 then pRWS 0x3FF 0x384
  else if i ≤ 3 then pCtr
  else if 0x10 ≤ i ∧ i ≤ 0x13 then pRO
  else if 0x20 ≤ i ∧ i < 0x40 then
    (let w := i % 8
     if w = 0 then pRWS 0x00FF3F13 (BitVec.ofNat 32 ((i - 0x20) / 8))
     else if w ≤ 4 then pRWS 0xFFFFFFFF 0
     else none)
  else if 0x100 ≤ i ∧ i ≤ 0x1FF then pW1C 0x30000 0x00F000FF
  else if 0x200 ≤ i ∧ i ≤ 0x2FF then pRO
  else if 0x300 ≤ i ∧ i ≤ 0x3FF then pCtr
  else if 0x400 ≤ i ∧ i ≤ 0x8FF then pRO
  else if 0x4000 ≤ i ∧ i < 0x7000 then pRO
  else none

/-- *Plate pair parameter index* (11_plate_pair.md). -/
def info08 (i : Nat) : Option ParamInfo :=
  if i ≤ 3 then pRO
  else if i ≤ 6 then pCtr
  else if i ≤ 0xA then pRO
  else if i = 0xB then pRW 0xFF 0
  else if i = 0xC then pRO
  else none

/-- *Stop-out parameter index* and *Trip parameter index* (12, 07). -/
def info09 (i : Nat) : Option ParamInfo :=
  if i = 0 then pRO
  else if 0x10 ≤ i ∧ i ≤ 0x13 then pRWS 0xF3FFFFFF 0x10140064
  else if 0x14 ≤ i ∧ i ≤ 0x17 then pRWS 0xFFFFFFFF 0
  else if 0x18 ≤ i ∧ i ≤ 0x1B then pRWS 0x801F3F00 0
  else if 0x1C ≤ i ∧ i ≤ 0x23 then pRWS 0xFFFFFFFF 0
  else if 0x24 ≤ i ∧ i ≤ 0x27 then pRWS 0xFFFFFFFF 0x42700000
  else if 0x100 ≤ i ∧ i ≤ 0x11F then pRWS 0xCFFFFFFF 0
  else if i = 0x120 ∨ i = 0x121 then pRO
  else if 0x200 ≤ i ∧ i < 0x280 then
    (let w := i % 32
     if w = 0 then pRWS 0x1F003F 1
     else if w ≤ 5 then pRWS 0xFFFFFFFF 0
     else if w = 6 then pRWS 0xFFFFFFFF 0x41200000
     else if w = 7 then pRWS 0xFFFFFFFF 0x3D4CCCCD
     else if w = 8 then pRWS 0xFFFFFFFF 0x41A00000
     else if w = 9 then pRWS 0xFFFFFFFF 0x3F800000
     else if w = 0xA then pRWS 0x7FF 0x3E8
     else if w ≤ 0xE then pRO
     else if w = 0xF then pCtr
     else if w = 0x10 then pRO
     else none)
  else none

/-- *Memory parameter index* (13_memory.md). -/
def info0A (i : Nat) : Option ParamInfo :=
  if i = 0 then pW1C 0x7 0x03FFFFF8
  else if i = 1 then some { rw := 0xC0000000, rsv := 0x31FFFFFF }
  else if i = 2 then pRW 0xFFFFFFFF 0x3E8
  else if i = 3 then pRW 0xFFFFFFFF 0x7530
  else if i = 4 then pRW 0xFFFFFFFF 0x1D4C0
  else if 0x10 ≤ i ∧ i ≤ 0x1B then (if i % 4 ≤ 1 then pRO else pCtr)
  else if 0x20 ≤ i ∧ i ≤ 0x22 then pCtr
  else if i = 0x23 then pRO
  else if i = 0x24 then pCtr
  else if 0x100 ≤ i ∧ i < 0x120 then (if i % 8 = 7 then pCtr else pRO)
  else none

/-- *Margin parameter index* (14_margin_pair.md). -/
def info0B (i : Nat) : Option ParamInfo :=
  if i ≤ 5 then pRO
  else if i ≤ 0xA then pCtr
  else if 0x100 ≤ i ∧ i ≤ 0x11F then pRO
  else none

/-- *Burnish parameter index* (15_burnish.md). -/
def info0C (i : Nat) : Option ParamInfo := if i ≤ 3 then pRO else none

/-- *Sketchbook parameter index* (16_sketchbook_thermal.md). -/
def info0D (i : Nat) : Option ParamInfo :=
  if i ≤ 2 then pRO
  else if i = 3 then pCtr
  else if i = 4 then pRW 0xC0000000 0
  else if i = 5 then pRWS 0xFFFFFFFF 0
  else if i = 6 then pRWS 0xF 2
  else if i = 7 then pRWS 0x1FF 0x10
  else if i = 8 then pRO
  else if i = 9 then pCtr
  else none

/-- The reset window of housekeeping channel `k` (*Housekeeping channels*). Channels 6 and 7 are trimmed per
device, and their windows are constants of the device (DESIGN CHOICE, log 9). -/
def hkWinReset (k : Nat) : Word :=
  if k = 1 ∨ (9 ≤ k ∧ k ≤ 12) then 0x0C00099A
  else if k = 2 then 0x0C9A0B66
  else if k = 3 then 0x0B8D0A73
  else if k = 4 then 0x0EEF0D77
  else if k = 5 then 0x079A0644
  else if k = 6 ∨ k = 7 then Config.hkTrim k &&& 0x0FFF0FFF
  else if k = 8 then 0x00290000
  else 0x0FFF0000

/-- *Thermal parameter index* (16_sketchbook_thermal.md). -/
def info0E (i : Nat) : Option ParamInfo :=
  if i ≤ 1 then pRO
  else if i = 2 then pRWS 0xFFFFFFFF 0xFFB0FFA6
  else if i = 3 then pRWS 0xFFFFFFFF 0x01360122
  else if i = 4 then pRWS 0xFF 6
  else if i = 5 then pRO
  else if i = 6 then pW1C 0xFFFFFFFF 0
  else if 0x100 ≤ i ∧ i ≤ 0x11F then pRO
  else if 0x200 ≤ i ∧ i ≤ 0x21F then pRW 0x0FFF0FFF (hkWinReset (i - 0x200))
  else none

/-- *Power-state parameter index* (17_power_states.md). -/
def info0F (i : Nat) : Option ParamInfo :=
  if i = 0 then pW1C 0x3FF 0x00FFFC00
  else if i = 1 then pRW 0xF00FFFFF 0x90000000
  else if i = 2 ∨ i = 3 then pRO
  else if 0x100 ≤ i ∧ i ≤ 0x10F then pRW 0x1FF 0
  else none

/-- What the chapter of unit `u` says of index `i`; none where it defines no such index. -/
def paramInfo (u i : Nat) : Option ParamInfo :=
  match u with
  | 0 => info00 i | 1 => info01 i | 2 => info02 i | 3 => info03 i | 4 => info04 i | 5 => info05 i
  | 6 => info06 i | 7 => info07 i | 8 => info08 i | 9 => info09 i | 10 => info0A i | 11 => info0B i
  | 12 => info0C i | 13 => info0D i | 14 => info0E i | 15 => info0F i | _ => none

/-- The reset value of a parameter; 0 where none is defined. -/
def paramReset (u i : Nat) : Word :=
  match paramInfo u i with
  | some p => p.rst
  | none => 0

/-- Whether the parameter belongs to an absent unit or resource of the part (R6, R7, 04_commands.md, Commands
with absent units). -/
def paramAbsent (p : Part) (u i : Nat) : Bool :=
  match u with
  | 6 =>
    if ringCount p = 0 then true
    else if 0x100 ≤ i ∧ i < 0x200 then decide (ringCount p ≤ (i - 0x100) / 16)
    else if 0x200 ≤ i ∧ i < 0x400 then decide (ringCount p ≤ (i - 0x200) / 32)
    else if 0x8000 ≤ i then decide (ringCount p ≤ (i - 0x8000) / 2048)
    else false
  | 7 => decide (0x10 ≤ i ∧ i ≤ 0x13 ∧ laneCount p ≤ i - 0x10)
  | 10 => !hasLp p && decide (i = 1 ∨ i = 4 ∨ i = 0x23 ∨ (0x18 ≤ i ∧ i ≤ 0x1B))
  | 13 => !hasLp p && decide (5 ≤ i ∧ i ≤ 9)
  | 14 => !hasLp p && decide (i = 0x104 ∨ i = 0x105 ∨ i = 0x204 ∨ i = 0x205)
  | 15 => decide (0x100 ≤ i ∧ i ≤ 0x10F ∧ ringCount p ≤ i - 0x100)
  | _ => false

/-- The address of index `i` of unit `u` in the parameter store. -/
def paAddr (u i : Nat) : Nat := u * 0x10000 + i

/-- The stored value of a parameter. -/
def parGet (s : State) (u i : Nat) : Word := tblGet s.par (paramReset u i) (paAddr u i)

/-- The stored value of a parameter as a number. -/
def parNat (s : State) (u i : Nat) : Nat := (parGet s u i).toNat

/-- The state with `v` stored for a parameter. -/
def parSet (s : State) (u i : Nat) (v : Word) : State :=
  { s with par := tblSet s.par (paramReset u i) (paAddr u i) v }

/-- Bits `hi` to `lo` of a stored parameter. -/
def parField (s : State) (u i hi lo : Nat) : Nat := field (parGet s u i) hi lo

/-- A stored parameter with its bits `hi` to `lo` set to `v`. -/
def parSetField (s : State) (u i hi lo v : Nat) : State := parSet s u i (setField (parGet s u i) hi lo v)

/-- A counter of the parameter space rises by `n`, up to 0xFFFF_FFFF (R95). -/
def parCount (s : State) (u i n : Nat) : State :=
  parSet s u i (BitVec.ofNat 32 (min 0xFFFFFFFF (parNat s u i + n)))

/-- A counter modulo 2³² rises by 1. -/
def parWrap (s : State) (u i : Nat) : State := parSet s u i (parGet s u i + 1)

/-- Bits of `m` are set in a stored parameter. -/
def parOr (s : State) (u i : Nat) (m : Word) : State := parSet s u i (parGet s u i ||| m)

/-- Every stored parameter of unit `u` takes its reset value. -/
def parClearUnit (s : State) (u : Nat) : State :=
  { s with par := s.par.filter fun e => e.1 / 0x10000 ≠ u }

end Sys2Proof.Machine
end

