-- ==== Sys2Proof/Machine/Flags.lean ====
section
/-!
DEFINITION. Events and flags: the class of each event code, the capture of an event on its way to the
Sketchbook, attention causes, saturating counters and the levels that registers copy.
-/
namespace Sys2Proof.Machine

/-- The class of an event code: 0 information, 1 warning, 2 fault (*Event codes*, 04_commands.md). -/
def eventClass (code : Nat) : Nat :=
  if code ∈ [0x0103, 0x0201, 0x0202, 0x0203, 0x0204, 0x0404, 0x0405, 0x0502, 0x0606, 0x0702, 0x0703,
      0x0801, 0x0803, 0x0804, 0x0805, 0x0809, 0x080A, 0x0901, 0x0902, 0x0903, 0x0904, 0x0906,
      0x0A03, 0x0A04, 0x0A08, 0x0B01, 0x0B06, 0x0E03, 0x0F03] then 2
  else if code ∈ [0x0101, 0x0102, 0x0206, 0x0301, 0x0302, 0x0304, 0x0402, 0x0601, 0x0602, 0x0603, 0x0604,
      0x0605, 0x0607, 0x0701, 0x0802, 0x0808, 0x0A02, 0x0A05, 0x0A06, 0x0B02, 0x0B03, 0x0E02, 0x0E04] then 1
  else 0

/-- The record of an event captured now (*Event record*): its TIME_VALID is that of the capture tick (R41). -/
def mkEvent (s : State) (code idx : Nat) (args : List Word) : Event :=
  { code := code, unit := code / 256, cls := eventClass code, index := idx, args := args, time := s.now,
    valid := s.tim.timeValid }

/-- Whether record `a` goes before record `b` when both carry one stamp (R65). -/
def evBefore (a b : Event) : Bool := a.unit < b.unit || (a.unit == b.unit && decide (a.index < b.index))

/-- A record joins the input queue behind those captured earlier and in the order of R65 among those of its tick. -/
def evInsert (q : List Event) (e : Event) : List Event :=
  match q with
  | [] => [e]
  | h :: t => if h.time = e.time ∧ evBefore e h then e :: h :: t else h :: evInsert t e

/-- An attention cause is set (bit `n` of ATTN_CAUSE). -/
def setAttn (s : State) (n : Nat) : State := parOr s 1 5 (wrd (2 ^ n))

/-- The drive that a fault-class event names (DRIVE_STATE.LAST_FAULT): POS_MISMATCH, SAFE_ENTRY,
TORQUE_MISMATCH and DISCHARGE_FAIL carry a drive in INDEX. -/
def eventDrive (e : Event) : Option Nat :=
  if e.code = 0x0404 ∨ e.code = 0x0902 ∨ e.code = 0x0903 ∨ e.code = 0x0906 then some e.index else none

/-- An armed capture buffer triggers on the first event of its mode (R395). -/
def capTrigger (e : Event) (b : Nat) (s : State) : State :=
  if (s.cap b).armed ∧ ¬ (s.cap b).triggered ∧
      (((s.cap b).mode = 1 ∧ e.cls = 2) ∨ ((s.cap b).mode = 2 ∧ e.code = 0x0902)) then
    s.updCap b fun c => { c with triggered := true, left := c.post }
  else s

/-- An event is captured: it joins the Sketchbook's input queue, and one of class fault sets FAULT_EVENT
(R132) and the LAST_FAULT of the drive it names. -/
def recordEvent (s : State) (e : Event) : State :=
  let s := { s with book := { s.book with inq := evInsert s.book.inq e } }
  let s := if e.cls = 2 then setAttn s 2 else s
  let s := match eventDrive e with
    | some d => s.updDrive d fun v => { v with lastFault := e.code }
    | none => s
  forUpTo 4 (capTrigger e) s

/-- An event of code `code` and instance `idx` is captured now. -/
def record (s : State) (code idx : Nat) (args : List Word) : State := recordEvent s (mkEvent s code idx args)

/-- A link error counter of unit 0x01 is incremented and sets LINK_ERROR (R95). -/
def linkError (s : State) (i : Nat) : State := setAttn (parCount s 1 i 1) 5

/-- Whether TD1 is stopped by sleep: from sleep entry to its lock at wake, or to its holdover where it does not lock (R40, R46, R481). -/
def isAsleep (s : State) : Bool :=
  s.pwr.sleep = .asleep || (s.pwr.sleep = .waking && !s.tim.td1 && s.tim.holdover = .none)

/-- OP_STATE as coded in DEVICE_STATE. -/
def opCode (o : OpState) : Nat :=
  match o with
  | .boot => 0 | .standby => 1 | .run => 2 | .safe => 3 | .shutdown => 4

/-- Whether the operating state is STANDBY or RUN. -/
def inService (o : OpState) : Bool := o = .standby || o = .run

/-- The operating state changes, with STATE_CHANGE (0x0001) when it does; an entry into STANDBY or RUN from another state
restarts the host's interval (R94). -/
def setOp (s : State) (o : OpState) : State :=
  if s.op = o then s
  else
    let base := if inService o && !inService s.op then s.now else s.folio.hostBase
    { record s 0x0001 0 [wrd (opCode s.op), wrd (opCode o)] with op := o, folio := { s.folio with hostBase := base } }

/-- The code of a safe state: 1 to 3 for SS1 to SS3, 0 outside a safe state (R357). -/
def ssRank (d : DState) : Nat :=
  match d with
  | .ss1 => 1 | .ss2 => 2 | .ss3 => 3 | _ => 0

/-- The safe state of rank 1 to 3. -/
def ssOf (n : Nat) : DState := if n = 1 then .ss1 else if n = 2 then .ss2 else .ss3

/-- Whether a drive is modulating (DEVICE_STATE.DRIVE_RUN). -/
def driveRuns (v : Drive) : Bool := v.dst = .run || v.dst = .stopping

/-- The drives, of 0 to 3, that satisfy `p`. -/
def drivesWith (s : State) (p : Drive → Bool) : List Nat := below 4 fun d => p (s.drive d)

/-- The mask with bit `n` set for each `n` of a list. -/
def maskOf (l : List Nat) : Nat := l.foldl (fun a n => a ||| 2 ^ n) 0

/-- Whether the drive is a direct drive. -/
def isDirect (v : Drive) : Bool := v.arch = .direct
/-- Whether the drive is a string drive. -/
def isString (v : Drive) : Bool := v.arch = .string
/-- Whether the drive has an architecture. -/
def hasArch (v : Drive) : Bool := v.arch ≠ .none

/-- The Hatch timebase of a drive (word 1 of MODE CONFIGURE, R113). -/
def driveTb (v : Drive) : Nat := field v.cfg 3 2
/-- Whether a drive's PAIR_MASK holds pair `p`. -/
def driveHasPair (v : Drive) (p : Nat) : Bool := isDirect v && wbit v.cfg (p + 4)
/-- Whether a drive's RING_MASK holds ring `r`. -/
def driveHasRing (v : Drive) (r : Nat) : Bool := isString v && wbit v.cfg (r + 16)
/-- The drive that uses pair `p`. -/
def pairDrive (s : State) (p : Nat) : Option Nat := (drivesWith s fun v => driveHasPair v p).head?
/-- The drive that uses ring `r`. -/
def ringDrive (s : State) (r : Nat) : Option Nat := (drivesWith s fun v => driveHasRing v r).head?
/-- The rings of a drive. -/
def driveRings (s : State) (d : Nat) : List Nat := below 16 fun r => driveHasRing (s.drive d) r
/-- The pairs of a drive. -/
def drivePairs (s : State) (d : Nat) : List Nat := below 12 fun p => driveHasPair (s.drive d) p

/-! Bite marks (R383, R385). -/

/-- The mark of the 64-bit word that holds byte address `a`. -/
def markAt (s : State) (a : Nat) : Mark := tblGet s.mem.marks .none (a / 8)
/-- The mark of the word that holds `a` is set or cleared. -/
def setMark (s : State) (a : Nat) (m : Mark) : State :=
  { s with mem := { s.mem with marks := tblSet s.mem.marks .none (a / 8) m } }
/-- Every whole word from byte address `lo` up to `hi` is stored afresh: its mark and its stored error are gone (R387). -/
def freshWords (s : State) (lo hi : Nat) : State :=
  { s with mem := { s.mem with
      marks := s.mem.marks.filter fun e => !(decide (lo / 8 ≤ e.1) && decide (e.1 < hi / 8)),
      errs := s.mem.errs.filter fun e => !(decide (lo / 8 ≤ e.1) && decide (e.1 < hi / 8)) } }
/-- The byte address of word `w` of directory entry `d`: the entries fill region 4 in index order (DEDUCED, log 13). -/
def dirAddr (d w : Nat) : Nat := 0x440000 + 32 * d + 4 * w
/-- The byte address of parameter `i` of unit 0x09 in region 6 (DEDUCED, log 13). -/
def par9Addr (i : Nat) : Nat := 0x470000 + 4 * i
/-- Whether parameter `i` of unit 0x09 is one of the blocks that region 6 holds; trip routes, status and counters are registers
(*Memory regions*). -/
def sram9 (i : Nat) : Bool :=
  (decide (0x10 ≤ i) && decide (i ≤ 0x27)) || (decide (0x200 ≤ i) && decide (i < 0x280) && decide (i % 32 ≤ 0xA))
/-- The event of a consumed mark. -/
def markCode (m : Mark) : Nat := if m = .unwritten then 0x0A04 else 0x0A03
/-- Whether unit `u` has raised the event for address `a` in the sliding window of 1 ms that ends now (R385). -/
def consumedLately (s : State) (u a : Nat) : Bool :=
  s.mem.consumed.any fun x => x.1 = u && x.2.1 = a && inSlide s.now x.2.2 msTicks
/-- A bite is counted (CONSUMED_COUNT). -/
def countBite (s : State) : State := parCount s 10 0x22 1
/-- The event for unit `u` and address `a` is raised now. -/
def noteBite (s : State) (u a : Nat) : State :=
  { s with mem := { s.mem with consumed := (u, a, s.now) :: s.mem.consumed.filter fun x => s.now < x.2.2 + msTicks } }

/-- Whether the pair is split: from the checkpoint of SPLIT to the checkpoint of JOIN (R339, R342). -/
def splitMode (m : PairMode) : Bool := m = .split || m = .joining

end Sys2Proof.Machine
end

