-- ==== Sys2Proof/Machine/Operands.lean ====
section
/-!
DEFINITION. Packets and payloads: the status codes, the outcome of a command's body, header fields, the CRCs of
R74, R75 and R347, the checks that every payload shares (R105), and the units that Burnish
tests (R435).
-/
namespace Sys2Proof.Machine

/-! Status codes (04_commands.md). -/
/-- Carried out. -/
def stOk : Nat := 0x00
/-- Carried out; the compare was armed behind the present position. -/
def stCompareBehind : Nat := 0x01
/-- Carried out; returned data carries a bite mark. -/
def stPoison : Nat := 0x02
/-- Carried out; returned data includes unwritten blocks. -/
def stUnwritten : Nat := 0x03
/-- A payload field is invalid or an absent resource is named. -/
def stBadParam : Nat := 0x10
/-- A state does not allow the command. -/
def stState : Nat := 0x11
/-- An earlier shut-down has not finished. -/
def stStopping : Nat := 0x12
/-- The device is in SHUTDOWN. -/
def stBurnish : Nat := 0x13
/-- A named trip latch is set or its input active. -/
def stTripActive : Nat := 0x14
/-- The outbound mailbox is full. -/
def stMbxFull : Nat := 0x15
/-- The schedule cannot be guaranteed. -/
def stNoCapacity : Nat := 0x16
/-- The ring's management transactions are at their bound. -/
def stRingBusy : Nat := 0x17
/-- Payload CRC or packet length failed. -/
def stPayloadCrc : Nat := 0x18
/-- A protection refuses the command. -/
def stDenied : Nat := 0x19

/-- What the body of a command does: it completes with a status, a reply payload and a state, or it waits for
something and completes later. -/
inductive CmdRes where
  | done (status : Nat) (reply : List Word) (s : State)
  | wait (s : State)
  deriving DecidableEq, Repr

/-- A refusal: nothing changes, and the reply has no payload, also where the command block gives the reply a length: the spec states
LENGTH 0 in the case of R445 only (DESIGN CHOICE, log 77). -/
def refuse (status : Nat) (s : State) : CmdRes := .done status [] s

/-- The command goes on unless one of the conditions, taken in their order, refuses it with its code (R102). -/
def checked (s : State) (l : List (Bool × Nat)) (k : CmdRes) : CmdRes :=
  match l.find? fun c => c.1 with
  | some c => refuse c.2 s
  | none => k

/-- Word `i` of a payload. -/
def pw (ws : List Word) (i : Nat) : Word := ws.getD i 0

/-- Whether a word has a bit of `m` set: reserved bits of a payload must be 0 (R105). -/
def hasBits (w m : Word) : Bool := w &&& m ≠ 0

/-- A 64-bit number as two words, low word first. -/
def twoWords (n : Nat) : List Word := [wrd n, wrd (n / 2 ^ 32)]

/-- The number of two words, low word first. -/
def ofTwoWords (lo hi : Word) : Nat := lo.toNat + hi.toNat * 2 ^ 32

/-- The bytes of a word, low byte first. -/
def wordBytes (w : Word) : List Nat := [field w 7 0, field w 15 8, field w 23 16, field w 31 24]

/-- The bytes of a payload in ascending order. -/
def payloadBytes (ws : List Word) : List Nat := ws.flatMap wordBytes

/-- `n` steps of the unreflected CRC-16 shift register. -/
def crc16Bits (n : Nat) (c : Nat) : Nat :=
  match n with
  | 0 => c
  | k + 1 => crc16Bits k (if 0x8000 ≤ c then (c * 2 % 0x10000) ^^^ 0x1021 else c * 2)

/-- CRC-16 with polynomial 0x1021, initial value 0xFFFF, no reflection, no final XOR (R74). -/
def crc16 (bytes : List Nat) : Nat := bytes.foldl (fun c b => crc16Bits 8 (c ^^^ (b * 0x100))) 0xFFFF

/-- `n` steps of the reflected CRC-32 shift register. -/
def crc32Bits (n : Nat) (c : Nat) : Nat :=
  match n with
  | 0 => c
  | k + 1 => crc32Bits k (if c % 2 = 1 then (c / 2) ^^^ 0xEDB88320 else c / 2)

/-- CRC-32 with polynomial 0x04C1_1DB7, reflected, initial value and final XOR 0xFFFF_FFFF (R75). -/
def crc32 (bytes : List Nat) : Nat := (bytes.foldl (fun c b => crc32Bits 8 (c ^^^ b)) 0xFFFFFFFF) ^^^ 0xFFFFFFFF

/-- The payload CRC of a packet (R75). -/
def payloadCrc (ws : List Word) : Word := wrd (crc32 (payloadBytes ws))

/-! The fields of a packet header (*Packet header*, 03_folio_port.md). -/

/-- Bits `hi` to `lo` of a header. -/
def hfield (h : BitVec 64) (hi lo : Nat) : Nat := h.toNat / 2 ^ lo % 2 ^ (hi + 1 - lo)
/-- OPCODE. -/
def hOpcode (h : BitVec 64) : Nat := hfield h 7 0
/-- TAG. -/
def hTag (h : BitVec 64) : Nat := hfield h 17 8
/-- LENGTH. -/
def hLength (h : BitVec 64) : Nat := hfield h 27 18
/-- UNIT. -/
def hUnit (h : BitVec 64) : Nat := hfield h 35 28
/-- KIND. -/
def hKind (h : BitVec 64) : Nat := hfield h 39 36
/-- ORDER. -/
def hOrder (h : BitVec 64) : Bool := h.getLsbD 40
/-- HCRC. -/
def hCrc (h : BitVec 64) : Nat := hfield h 63 48
/-- The CRC-16 over header bytes 0 to 5. -/
def headerCrc (h : BitVec 64) : Nat := crc16 ((List.range 6).map fun k => hfield h (8 * k + 7) (8 * k))

/-- The header of a packet the device sends: opcode, tag, length, unit, kind and bits 47:40, with its HCRC. -/
def mkHeader (op tag len unit kind status : Nat) : BitVec 64 :=
  let low := op + tag * 2 ^ 8 + len * 2 ^ 18 + unit * 2 ^ 28 + kind * 2 ^ 36 + status * 2 ^ 40
  BitVec.ofNat 64 (low + headerCrc (BitVec.ofNat 64 low) * 2 ^ 48)

/-- Whether an opcode runs on the fast path (R98). -/
def opFast (op : Nat) : Bool := op ∈ [0x02, 0x11, 0x12, 0x30, 0x51]

/-- The words of an event record, word 0 first (*Event record*, 04_commands.md). -/
def eventWords (e : LogEntry) : List Word :=
  [wrd e.ev.time, wrd (e.ev.time / 2 ^ 32),
   wrd (b2n e.ev.valid * 2 ^ 5 + e.ev.cls * 2 ^ 6 + e.ev.unit * 2 ^ 8 + e.ev.code * 2 ^ 16),
   wrd (e.seq + e.ev.index * 2 ^ 16),
   e.ev.args.getD 0 0, e.ev.args.getD 1 0, e.ev.args.getD 2 0, e.ev.args.getD 3 0]

/-! Burnish's test units and what they hold (R435). -/

/-- A row of *Test units*: first and last unit, block bit, parameter unit, and the time of FULL and of QUICK in 10 µs. -/
structure TestBlock where
  lo : Nat
  hi : Nat
  bit : Nat
  unit : Nat
  full : Nat
  quick : Nat
  deriving DecidableEq, Repr

/-- The blocks of *Test units*. -/
def testBlocks : List TestBlock :=
  [⟨0, 15, 0, 10, 150, 75⟩] ++ (List.range 8).map (fun b => ⟨16 + 12 * b, 27 + 12 * b, 1 + b, 10, 165, 66⟩) ++
    (List.range 4).map (fun n => ⟨112 + 4 * n, 115 + 4 * n, 9 + n, 7, 150, 75⟩) ++
    [⟨128, 132, 13, 5, 160, 80⟩, ⟨133, 137, 14, 9, 160, 80⟩, ⟨138, 141, 15, 9, 150, 75⟩, ⟨142, 161, 16, 3, 150, 75⟩,
     ⟨162, 177, 17, 6, 100, 50⟩, ⟨178, 178, 18, 1, 100, 100⟩, ⟨179, 179, 19, 8, 180, 180⟩]

/-- The block of unit `u`. -/
def testBlock (u : Nat) : Option TestBlock := testBlocks.find? fun b => decide (b.lo ≤ u) && decide (u ≤ b.hi)

/-- The parameter unit that unit `u` tests. -/
def unitParam (u : Nat) : Nat :=
  match testBlock u with
  | some b => b.unit
  | none => 16

/-- Whether the parameters of unit `p` are under Burnish test: from the first to the last unit of the run that tests it, and
for unit 0x08 to the end of the reload (R435). -/
def underTest (s : State) (p : Nat) : Bool :=
  let us := s.burn.set.filter fun u => unitParam u = p
  let now := s.burn.todo.headD 180
  decide (s.op = .shutdown) &&
    ((decide (s.burn.phase = .running) && decide (s.burn.todo ≠ []) && us.any (fun u => decide (u ≤ now)) && us.any fun u => decide (now ≤ u)) ||
      (decide (p = 8) && s.burn.reload))

/-- An event of unit `code / 256` is recorded, unless Burnish tests the unit: units under test raise no events (R442). -/
def recordUntested (s : State) (code idx : Nat) (args : List Word) : State :=
  if underTest s (code / 256) then s else record s code idx args

end Sys2Proof.Machine
end

