-- ==== Sys2Proof/Machine/Ecc.lean ====
section
/-!
DEFINITION. Memory as every unit reads it (13_memory.md): the address map, byte memory with its marks and stored errors, the
written-map, and what a read does (R374, R379 to R382, R388).
-/
namespace Sys2Proof.Machine

/-! The address map (R374, *Memory regions*). -/

/-- A row of *Memory regions*. -/
structure Region where
  num : Nat
  base : Nat
  size : Nat
  hostRead : Bool
  hostWrite : Bool
  writeBack : Bool
  deriving DecidableEq, Repr

/-- The first address of LPDDR5. -/
def lpBase : Nat := 0x200000000
/-- The usable bytes of LPDDR5: 7/8 of the installed density, none while it is unknown (R376). -/
def lpUsable (s : State) : Nat := if s.mem.density = 0 then 0 else 7 * 2 ^ (27 + s.mem.density)

/-- The regions of SRAM and MRAM. -/
def fixedRegions : List Region :=
  [⟨0, 0x0, 0x180000, false, false, false⟩, ⟨1, 0x180000, 0x200000, false, false, false⟩,
   ⟨2, 0x380000, 0x40000, true, false, false⟩, ⟨3, 0x3C0000, 0x80000, true, false, true⟩,
   ⟨4, 0x440000, 0x20000, true, false, true⟩, ⟨5, 0x460000, 0x10000, true, false, true⟩,
   ⟨6, 0x470000, 0x10000, true, false, true⟩, ⟨7, 0x480000, 0x20000, true, false, false⟩,
   ⟨8, 0x4A0000, 0x400000, true, true, false⟩, ⟨9, 0x8A0000, 0x320000, true, true, false⟩,
   ⟨10, 0xBC0000, 0x40000, true, false, false⟩, ⟨16, 0x10000000, 0x180000, true, false, false⟩,
   ⟨17, 0x10180000, 0x180000, true, false, false⟩, ⟨18, 0x10300000, 0x40000, true, false, false⟩,
   ⟨19, 0x10340000, 0x10000, true, false, false⟩, ⟨20, 0x10350000, 0x10000, true, false, false⟩,
   ⟨21, 0x10360000, 0xA0000, false, false, false⟩]

/-- Region 32. -/
def lpRegion (s : State) : Region := ⟨32, lpBase, lpUsable s, true, true, false⟩

/-- The region that holds address `a`. -/
def regionAt (s : State) (a : Nat) : Option Region :=
  (fixedRegions ++ [lpRegion s]).find? fun r => decide (r.base ≤ a) && decide (a < r.base + r.size)

/-- The number of the region that holds `a`; 255 outside every region. -/
def regionNum (s : State) (a : Nat) : Nat :=
  match regionAt s a with
  | some r => r.num
  | none => 255

/-- The memory of an address: 0 SRAM, 1 MRAM, 2 LPDDR5. -/
def memOf (a : Nat) : Nat := if a < 0x10000000 then 0 else if a < lpBase then 1 else 2

/-- Whether an address lies where LPDDR5 can lie. -/
def namesLp (a : Nat) : Bool := decide (lpBase ≤ a) && decide (a < lpBase + 7 * 2 ^ 30)

/-! Byte memory. An unlisted byte reads 0 (R388; 13_memory.md, Never-written LPDDR5; log 18 for MRAM). -/

/-- The canonical form of memory: addresses strictly rising, and no entry equal to what an unlisted address reads as. -/
def Memory.wf (m : Memory) : Bool := tblWf 0 m.cells

/-- The byte at address `a`. -/
def readByte (s : State) (a : Nat) : Byte := tblGet s.mem.cells 0 a
/-- Byte `b` is stored at address `a`. -/
def writeByte (s : State) (a : Nat) (b : Byte) : State :=
  { s with mem := { s.mem with cells := tblSet s.mem.cells 0 a b } }
/-- The word at address `a`, low byte at the lowest address (*Numbers, time and data*, 00_scope.md). -/
def readWord (s : State) (a : Nat) : Word :=
  wrd ((readByte s a).toNat + (readByte s (a + 1)).toNat * 2 ^ 8 + (readByte s (a + 2)).toNat * 2 ^ 16 +
    (readByte s (a + 3)).toNat * 2 ^ 24)
/-- Word `w` is stored at address `a`. -/
def writeWord (s : State) (a : Nat) (w : Word) : State :=
  writeByte (writeByte (writeByte (writeByte s a (w.extractLsb' 0 8)) (a + 1) (w.extractLsb' 8 8))
    (a + 2) (w.extractLsb' 16 8)) (a + 3) (w.extractLsb' 24 8)

/-! Blocks of LPDDR5 and the written-map (R388, R389). -/

/-- The 4 KB block of an LPDDR5 address. -/
def lpBlock (a : Nat) : Nat := (a - lpBase) / 4096
/-- Whether block `b` is written. -/
def blockWritten (s : State) (b : Nat) : Bool := tblGet s.mem.wmap false b
/-- The byte address of the written-map word of block `b`: blocks in order from bit 0 of the first word (DEDUCED,
log 19). -/
def wmapAddr (b : Nat) : Nat := 0xBC0000 + 8 * (b / 64)
/-- Whether the written-map word of block `b` is uncorrectable: it reads so, or carries the mark of an earlier read. -/
def wmapBad (s : State) (b : Nat) : Bool :=
  markAt s (wmapAddr b) ≠ .none || tblGet s.mem.errs .none (wmapAddr b / 8) = .multi
/-- Whether block `b` is being filled. -/
def blockFilling (s : State) (b : Nat) : Bool := s.mem.fills.any fun f => f.1 = b
/-- The error of the stored code word that holds `a`. -/
def errAt (s : State) (a : Nat) : EccErr := tblGet s.mem.errs .none (a / 8)
/-- The mark with which a stored word is read: its own, or a bite where it is uncorrectable (R381). -/
def storedMark (s : State) (a : Nat) : Mark := if errAt s a = .multi then .bite else markAt s a
/-- The mark that a read of the word at `a` delivers. -/
def wordMark (s : State) (a : Nat) : Mark :=
  if memOf a = 2 then
    (if wmapBad s (lpBlock a) then .bite else if blockWritten s (lpBlock a) then storedMark s a else .unwritten)
  else storedMark s a
/-- The bits of 32 blocks of the written-map, the lowest in bit 0. -/
def wmapWord (s : State) (w : Nat) : Word := wrd (maskOf (below 32 fun k => blockWritten s (32 * w + k)))

/-! Error correction (R380 to R382). -/

/-- MRAM may be written: the last reading of Tj lies within −25.0 °C to +125.0 °C (R393). -/
def mramOpen (s : State) : Bool := decide (-50 ≤ s.therm.tj) && decide (s.therm.tj ≤ 250)

/-- The error of the stored code word that holds `a` is set. -/
def setErr (s : State) (a : Nat) (e : EccErr) : State :=
  { s with mem := { s.mem with errs := tblSet s.mem.errs .none (a / 8) e } }

/-- ECC_CORRECTED for the region of `a`, at most once in any sliding millisecond (R382). -/
def noteCorrected (s : State) (a : Nat) : State :=
  let g := regionNum s a
  let quiet := match tblGet s.mem.ceTick none g with
    | some t => !inSlide s.now t msTicks
    | none => true
  if quiet then
    recordUntested { s with mem := { s.mem with ceTick := tblSet s.mem.ceTick none g (some s.now) } } 0x0A01 g (twoWords (a / 8 * 8))
  else s

/-- The word that holds `a` is read: what its error does. `back` says that a corrected word is written back, `raced`
that another master wrote the word before the write-back (R380, R381). -/
def eccRead (s : State) (a : Nat) (back raced : Bool) : State :=
  let k := memOf a
  let can := k ≠ 1 || mramOpen s
  match errAt s a with
  | .none => s
  | .single =>
    let s := noteCorrected (parCount s 10 (0x12 + 4 * k) 1) a
    if !back || !can then s
    else if raced then parCount s 10 0x21 1
    else parCount (setErr s a .none) 10 0x20 1
  | .multi =>
    let s := recordUntested (parCount s 10 (0x13 + 4 * k) 1) 0x0A02 (regionNum s a) (twoWords (a / 8 * 8))
    if !can then s
    else if raced then parCount s 10 0x21 1
    else parCount (setMark (setErr s a .none) a .bite) 10 0x20 1

/-- Whether a correction in the region of `a` is written back at once. -/
def regionBack (s : State) (a : Nat) : Bool :=
  match regionAt s a with
  | some r => r.writeBack
  | none => false

/-- An access to LPDDR5 reads the written-map word of its block (R388, R389). -/
def mapRead (s : State) (a : Nat) : State :=
  if memOf a = 2 then eccRead s (wmapAddr (lpBlock a)) (regionBack s (wmapAddr (lpBlock a))) false else s

/-- A requester other than a scrubber reads the word at `a`; a block that was never written is not accessed (R388). -/
def demandRead (s : State) (a : Nat) : State :=
  let s := mapRead s a
  if memOf a = 2 && !blockWritten s (lpBlock a) && !wmapBad s (lpBlock a) then s else eccRead s a (regionBack s a) false

/-- A unit reads the words at these addresses (R380, R381). -/
def readCells (l : List Nat) (s : State) : State := if s.mem.errs = [] then s else forEach l (fun a s => demandRead s a) s

/-- The mark with which the word at `a` is delivered to a read. -/
def readMark (s : State) (a : Nat) : Mark := wordMark (readCells [a] s) a

end Sys2Proof.Machine
end

