-- ==== Sys2Proof/Machine/Pins.lean ====
section
/-!
DEFINITION. What the Hatch pins carry: the layers of R225, dead time (R222), the trip action of a pair (R232)
and the levels of Stop-out (R354). The other Hatch rules are in Machine/Hatch.lean.
-/
namespace Sys2Proof.Machine

/-- The stored PAIR_CFG of pair `p`. -/
def pairCfg (s : State) (p : Nat) : Word := parGet s 5 (0x200 + 16 * p)
/-- The timebase of pair `p` (PAIR_CFG.TB). -/
def pairTb (s : State) (p : Nat) : Nat := field (pairCfg s p) 25 24
/-- The stored TRIP_ROUTE of source `n`. -/
def tripRoute (s : State) (n : Nat) : Word := parGet s 9 (0x100 + n)
/-- Whether trip latch `n` is set. -/
def latchSet (s : State) (n : Nat) : Bool := s.hatch.latch.testBit n
/-- The set latches routed to pair `p`. -/
def latchesOnPair (s : State) (p : Nat) : List Nat := below 32 fun n => latchSet s n && wbit (tripRoute s n) p
/-- The set latches routed to ring `r`. -/
def latchesOnRing (s : State) (r : Nat) : List Nat := below 32 fun n => latchSet s n && wbit (tripRoute s n) (r + 12)

/-- Whether trip latch `n` is set and its source acts: one with ACTION = 0 acts on nothing (R231). -/
def latchActs (s : State) (n : Nat) : Bool := latchSet s n && decide (field (tripRoute s n) 31 30 ≠ 0)
/-- The set latches that act on pair `p`. -/
def actsOnPair (s : State) (p : Nat) : List Nat := below 32 fun n => latchActs s n && wbit (tripRoute s n) p
/-- The set latches that act on ring `r`. -/
def actsOnRing (s : State) (r : Nat) : List Nat := below 32 fun n => latchActs s n && wbit (tripRoute s n) (r + 12)

/-- The action that the set latches give a pair: 0 none, 1 OFF, 2 LOW_ON, 3 HIGH_ON (R232). -/
def pairTripAction (s : State) (p : Nat) : Nat :=
  let acts := (actsOnPair s p).map fun n => field (tripRoute s n) 31 30
  if acts = [] then 0
  else if acts.contains 1 || (acts.contains 2 && acts.contains 3) then 1
  else acts.headD 0

/-- Whether a trip latch routed to the drive's pairs or rings is set (DRIVE_STATE.TRIP_LATCHED). -/
def driveTripLatched (s : State) (d : Nat) : Bool :=
  (drivePairs s d).any (fun p => latchesOnPair s p ≠ []) || (driveRings s d).any (fun r => latchesOnRing s r ≠ [])

/-- Whether the device holds every pair at layer 2: in BOOT, SLEEP and SHUTDOWN (R225), on the way into
sleep (R481), while a power-on, system or warm reset lasts (R485), while EXTEST is selected (*TAP instructions*), and from the end of
holdover to a reset (R41). -/
def hatchHeld (s : State) : Bool :=
  s.tim.holdover = .ended || s.op = .boot || s.plate.tap = .extest || s.op = .shutdown || s.pwr.sleep ≠ .awake ||
    (s.pwr.resetting ≠ none && s.pwr.resetting ≠ some .pair)

/-- Whether trips have an effect: not in SLEEP or SHUTDOWN (R231). -/
def tripsWork (s : State) : Bool := !isAsleep s && s.op ≠ .shutdown

/-- The string drives on timebase `t`. -/
def stringDrivesOn (s : State) (t : Nat) : List Nat := below 4 fun d => isString (s.drive d) && driveTb (s.drive d) = t

/-- Whether timebase `t` drives pins: it runs (R211) and carries no string drive (R213). -/
def drivesPins (s : State) (t : Nat) : Bool := (s.tb t).running && (stringDrivesOn s t).isEmpty

/-- The highest layer that applies to pair `p` (*Output layers*, R225). A pair that a hand-over brings waits at
layer 5 for its period start (R420). -/
def targetLayer (s : State) (p : Nat) : Nat :=
  let v := match pairDrive s p with
    | some d => s.drive d
    | none => {}
  if tripsWork s && actsOnPair s p != [] then 1
  else if hatchHeld s || ssRank v.dst ≠ 0 then 2
  else if (s.pair p).force ≠ none then 3
  else if driveRuns v && v.l4From = none then 4
  else 5

/-- The levels of layer 2 for pair `p`: SS2 turns on the side that SS2_SIDE names, every other case none (R354). -/
def layer2Levels (s : State) (p : Nat) : Bool × Bool :=
  match pairDrive s p with
  | some d =>
    if hatchHeld s = false && (s.drive d).dst = .ss2 then
      (let high := wbit (parGet s 9 (0x10 + d)) 30
       (high, !high))
    else (false, false)
  | none => (false, false)

/-- The dead time of a pair before H (true) or L turns on, in ticks rounded up, from the band in use (R222). -/
def deadTicks (s : State) (p : Nat) (toH : Bool) : Nat :=
  let w := parGet s 5 (0x201 + 16 * p + (s.pair p).band)
  ((if toH then field w 27 16 else field w 11 0) + 15) / 16

/-- Whether an output may turn on now: its partner has been inactive for the dead time. -/
def deadOver (s : State) (off : Option Nat) (dt : Nat) : Bool :=
  match off with
  | none => true
  | some t => t + dt ≤ s.now

/-- Pair `p` is driven to levels `th` for H and `tl` for L with dead time kept: an output turns off at once, and
on once its partner has been off for the dead time (R222, R225). -/
def drivePair (s : State) (p : Nat) (th tl : Bool) : State :=
  let q := s.pair p
  let hOff := if q.h && !th then some s.now else q.hOff
  let lOff := if q.l && !tl then some s.now else q.lOff
  let hOn := th && (q.h || deadOver s lOff (deadTicks s p true))
  let lOn := tl && (q.l || deadOver s hOff (deadTicks s p false))
  s.updPair p fun q => { q with
    h := hOn, l := lOn, hOff := hOff, lOff := lOff,
    pend := if th && !hOn then some (true, lOff.getD s.now + deadTicks s p true)
      else if tl && !lOn then some (false, hOff.getD s.now + deadTicks s p false) else none }

/-- At layer 4 the outputs follow an edge of REF to `v`: the side of the old level turns off at once, the other turns on its
dead time after the edge, and a turn-on that waited is cancelled (R222). On a timebase that drives no pins both are inactive (R211,
R213). -/
def refPair (s : State) (p : Nat) (v : Bool) : State :=
  if !drivesPins s (pairTb s p) then drivePair s p false false
  else
    let now := decide (deadTicks s p v = 0)
    s.updPair p fun q => { q with
      h := v && (q.h || now), l := !v && (q.l || now),
      hOff := if q.h && !v then some s.now else q.hOff,
      lOff := if q.l && v then some s.now else q.lOff,
      pend := if now || (if v then q.h else q.l) then none else some (v, s.now + deadTicks s p v) }

/-- Pair `p` comes to layer 4, or stays there with the turn-on that waits: it drives REF and its complement (R222). -/
def layer4Pair (s : State) (p : Nat) (stays : Bool) : State :=
  let q := s.pair p
  if !drivesPins s (pairTb s p) then drivePair s p false false
  else if stays && q.pend.map (fun x => x.1) == some q.ref then s
  else drivePair s p q.ref (!q.ref)

/-- Pair `p` takes the trip action at once, a pending turn-on abandoned (R231 to R233). -/
def tripPair (s : State) (p : Nat) (act : Nat) : State :=
  s.updPair p fun q => { q with
    h := act = 3, l := act = 2, pend := none,
    hOff := if q.h && act ≠ 3 then some s.now else q.hOff,
    lOff := if q.l && act ≠ 2 then some s.now else q.lOff }

/-- Pair `p` takes layer `n` now, with that layer's outputs. -/
def takeLayer (s : State) (p n : Nat) : State :=
  let old := (s.pair p).layer
  let s := s.updPair p fun q => { q with layer := n }
  match n with
  | 1 => tripPair s p (pairTripAction s p)
  | 2 => drivePair s p (layer2Levels s p).1 (layer2Levels s p).2
  | 3 => drivePair s p ((s.pair p).force = some 3) ((s.pair p).force = some 2)
  | 4 => layer4Pair s p (old == 4)
  | _ => drivePair s p false false

/-- Whether what waits for a period start of timebase `t` acts now: the timebase is stopped, or its period starts at this very tick
(R211, R225). -/
def periodNow (s : State) (t : Nat) : Bool := !(s.tb t).running || decide ((s.tb t).startTick = s.now)

/-- Pair `p` is brought to the layer that applies: a higher layer acts at once, a lower one at a period start of its timebase
(R225). -/
def settlePair (s : State) (p : Nat) : State :=
  let n := targetLayer s p
  if n ≤ (s.pair p).layer || periodNow s (pairTb s p) then takeLayer s p n else s

/-- Every pair settles. -/
def settlePairs (s : State) : State := forUpTo 12 (fun p s => settlePair s p) s

/-- At a period start of its timebase a pair takes the layer that applies (R225). -/
def periodPair (s : State) (p : Nat) : State := takeLayer s p (targetLayer s p)

/-- The output at a pin: the active level under POL_H or POL_L (R225). -/
def pinLevel (s : State) (p : Nat) (high : Bool) : Bool :=
  if high then (s.pair p).h != wbit (pairCfg s p) 30 else (s.pair p).l != wbit (pairCfg s p) 29

end Sys2Proof.Machine
end

