-- ==== Sys2Proof/Machine/Escalation.lean ====
section
/-!
DEFINITION. Stop-out's reactions: safe states, their order, the escalation of every event, fault latches and
the stop sequence (12_stopout_registration.md).
-/
namespace Sys2Proof.Machine

/-- The reaction classes N, T, P, S (with the drives the row names) and D (R367). -/
inductive React where
  | n | t | p | s (ds : List Nat) | d
  deriving DecidableEq, Repr

/-- A row of the escalation table: class, latch (some true: cleared only by reset), and the mark H. -/
structure Reaction where
  react : React
  latch : Option Bool
  h : Bool
  deriving DecidableEq, Repr

/-- No reaction and no latch. -/
def noReact : Reaction := { react := .n, latch := none, h := false }

/-- The place of a causing event in the order of R65: its unit, then the lowest index among the records of its code and this
tick; no event at all comes last. -/
def causeKey (s : State) (code : Nat) : Nat :=
  if code = 0 then 2 ^ 32
  else code / 256 * 65536 +
    ((s.book.inq.filter fun e => e.code = code && e.time = s.now).foldl (fun m e => min m e.index) 65535)

/-- A SAFE_ENTRY of drive `d` is raised; one of the same tick that still waits is raised to the higher state, and
at equal state keeps the cause first in the order of R65 (R356). -/
def safeEntry (s : State) (d ss code : Nat) : State :=
  if s.book.inq.any fun e => e.code = 0x0902 && e.index = d && e.time = s.now then
    { s with book := { s.book with inq := s.book.inq.map fun e =>
        if e.code = 0x0902 && e.index = d && e.time = s.now then
          (let oldSs := (e.args.getD 0 0).toNat
           let oldCode := (e.args.getD 1 0).toNat
           { e with args := [wrd (max oldSs ss),
               wrd (if oldSs < ss ∨ (oldSs = ss ∧ causeKey s code < causeKey s oldCode) then code else oldCode)] })
        else e } }
  else record s 0x0902 d [wrd ss, wrd code]

/-- A ring whose drive enters a safe state: its ring head sends a safe frame as soon as its lane is free, and a
pending request and a frame in the making are discarded (R27, 09_stipple_modulation.md). -/
def orderRing (r : Nat) (s : State) : State :=
  s.updRing r fun g => { g with safeDue := true, req := none, next := none }

/-- The Registration timer of a drive stops (R365). -/
def stopRegTimer (s : State) (d : Nat) : State := s.updRegn d fun g => { g with timer := none }

/-- Drive `d` enters RUN: its Registration timer stops, its filtered command is its command and no report has been seen
(R363 to R365), and the captures of the sources it names are counted
from here (R196); the first string cycle takes the previous current as the present one (R276). -/
def enterRun (d : Nat) (s : State) : State :=
  let s := stopRegTimer (s.updDrive d fun v => { v with dst := .run, runAt := s.now }) d
  let s := s.updRegn d fun g => { g with cmdf := (s.drive d).torque, seen := false }
  forEach (below 12 fun n => decide (parField s 4 (0x10 + d) 3 0 = n) || decide (parField s 4 (0x10 + d) 7 4 = n))
    (fun n s => s.updSrc n fun q => { q with runCaps := 0 })
    (forEach (driveRings s d) (fun r s => s.updRing r fun g => { g with iPrev := none }) s)

/-- A number of 64 bits as two words, low word first. -/
def twoWord (n : Nat) : List Word := [wrd n, wrd (n / 2 ^ 32)]

/-- The settings that Stop-out reads for drive `d` when it applies a reaction: DRV_SAFE, SS2_SPEED and DSCH_CFG. -/
def settingIdx (d : Nat) : List Nat := [0x10 + d, 0x14 + d, 0x18 + d]

/-- The first of them that carries a mark. -/
def markedSetting (s : State) (d : Nat) : Option Nat := (settingIdx d).find? fun i => markAt s (par9Addr i) ≠ .none

/-- A fault latch is set, once for each event code and instance (R367). -/
def setLatch (s : State) (code idx : Nat) (resetOnly : Bool) : State :=
  if s.so.latches.any fun l => l.code = code && l.index = idx then s
  else { s with so := { s.so with latches := s.so.latches ++ [{ code := code, index := idx, resetOnly := resetOnly }] } }

/-- Stop-out consumes a marked setting of drive `d` while it applies a reaction: the event and its latch; the drive
then gets SS1 without R358 (R385). -/
def stopoutConsumes (d : Nat) (s : State) : State :=
  match markedSetting s d with
  | none => s
  | some i =>
    let a := par9Addr i
    let m := markAt s a
    let s := s.updDrive d fun v => { v with exempt := true }
    let s := countBite s
    if consumedLately s 9 a then s
    else setLatch (record (noteBite s 9 a) (markCode m) 9 (twoWord a)) (markCode m) 9 false

/-! The speed policy (R358). What it reads of the position sources stands here. -/

/-- Word `w` of the block of source `n`. -/
def srcWord (s : State) (n w : Nat) : Word := parGet s 4 (0x100 + 16 * n + w)
/-- EN of source `n`. -/
def srcEn (s : State) (n : Nat) : Bool := wbit (srcWord s n 0) 31
/-- PRIMARY of drive `d`. -/
def posPrimary (s : State) (d : Nat) : Nat := parField s 4 (0x10 + d) 3 0

/-- Whether the sources run: in STANDBY, RUN and SAFE, awake (R176). -/
def posRuns (s : State) : Bool :=
  (s.op = .standby || s.op = .run || s.op = .safe) && (s.pwr.sleep = .awake || s.pwr.sleep = .leaving) &&
    s.pwr.resetting ≠ some .warm

/-- VALID of a source now (R175). -/
def srcValid (s : State) (n : Nat) : Bool :=
  srcEn s n && posRuns s && !(s.src n).fault &&
    (if n < 2 then !wbit (srcWord s n 3) 29 || (s.src n).homed else (s.src n).started)

/-- Whether |SPEED| of the primary source of drive `d` is at or above SS2_SPEED (R358). -/
def speedHigh (s : State) (d : Nat) : Bool :=
  decide (posPrimary s d < 12) && fLe (parGet s 9 (0x14 + d)) (fAbs (s.src (posPrimary s d)).speed)

/-- Whether the primary source of drive `d` is absent, has VALID = 0 or has FAULT = 1 (R358). -/
def speedLost (s : State) (d : Nat) : Bool := !(decide (posPrimary s d < 12) && srcValid s (posPrimary s d))

/-- Each of the two conditions of R358 keeps the tick from which it has held without a break. -/
def noteSpeeds (s : State) : State :=
  forUpTo 4 (fun d s =>
    let mark (b : Bool) (o : Option Nat) : Option Nat := if b then o.or (some s.now) else none
    s.updDrive d fun v => { v with highFrom := mark (speedHigh s d) v.highFrom, lostFrom := mark (speedLost s d) v.lostFrom }) s

/-- Whether either condition has held for SS2_DELAY since drive `d` was placed in its safe state: a condition that held before counts
from that placement (DEDUCED, log 75). -/
def speedHeld (s : State) (d : Nat) : Bool :=
  let long (o : Option Nat) : Bool := o.any fun t => decide (t + parField s 9 (0x10 + d) 25 16 * usTicks ≤ s.now)
  long (s.drive d).highFrom || long (s.drive d).lostFrom

/-- Drive `d` is placed in safe state `ss`, unless it is in that or a higher one already (R357): the causing
event's code is kept, an event latches the drive, and a stop sequence ends. A release that waits for a
period start after CLEAR_FAULT is withdrawn (DEDUCED, log 10). -/
def placeDrive (d ss code : Nat) (byEvent : Bool) (s : State) : State :=
  let v := s.drive d
  if !hasArch v then s
  else if ss ≤ ssRank v.dst && !v.clearDue then
    (if ss = ssRank v.dst && (s.book.inq.any fun e => e.code = 0x0902 && e.index = d && e.time = s.now) then
      safeEntry (s.updDrive d fun v => { v with cause := if causeKey s code < causeKey s v.cause then code else v.cause }) d ss
        code
     else s)
  else
    let n := max ss (ssRank v.dst)
    let s := noteSpeeds (s.updDrive d fun v => { v with
      dst := ssOf n, cause := code, faultLatched := v.faultLatched || byEvent, clearDue := false, stopDue := false,
      l4From := none, highFrom := none, lostFrom := none })
    let s := safeEntry s d n code
    let s := stopRegTimer s d
    let s := forEach (drivePairs s d) (fun p s => settlePair s p) s
    forEach (driveRings s d) orderRing s

/-- The device enters SAFE: every drive of `ds` at state `ss`, every other drive with an architecture at SS1 (R356). -/
def enterSafe (ds : List Nat) (ss code : Nat) (s : State) : State :=
  let s := forUpTo 4 (fun d s =>
    let s := if hasArch (s.drive d) then readCells ((settingIdx d).map par9Addr) s else s
    if hasArch (s.drive d) ∧ (markedSetting s d).isSome then placeDrive d 1 code true (stopoutConsumes d s)
    else placeDrive d (if ds.contains d then ss else 1) code true s) s
  settlePairs (setOp s .safe)

/-- Whether a hand-over is available to the active device: its partner's last heartbeat showed it eligible (R416,
R417). -/
def handoverAvailable (s : State) : Bool := s.marg.role = 1 && s.marg.linkUp && s.marg.partnerEligible

/-- A cell joins the transmit queue of the Margin link (R407); its SEQ is given when it is sent. -/
def queueCell (s : State) (t : CellType) (sub : Nat) (ws : List Word) : State :=
  { s with marg := { s.marg with queue := s.marg.queue ++ [{ ctype := t, seq := 0, ack := 0, sub := sub, payload := ws }] } }

/-- The payload of a HANDOVER cell: byte 0 the action, bytes 8 to 15 the tick (*Cell types*). -/
def handoverPayload (act th : Nat) : List Word := [wrd act, 0, wrd th, wrd (th / 2 ^ 32), 0, 0, 0, 0]

/-- The device asserts OWN_N, or releases it (R352). -/
def setOwnN (v : Bool) (s : State) : State := { s with so := { s.so with ownN := v } }

/-- The reaction marked H of an active device whose partner is eligible (R367, R417): it enters SAFE, its direct
pairs take SS1 levels, OWN_N is released, its ring heads stop without a safe frame, and TAKE is sent. -/
def handoverReact (code : Nat) (s : State) : State :=
  let s := enterSafe [] 1 code s
  let s := { s with
    so := { s.so with ownN := false },
    marg := { s.marg with ho := .taking, hoTh := s.now } }
  queueCell s .handover 0 (handoverPayload 4 s.now)

/-- The stop sequence of a drive in RUN starts (R359). -/
def startStop (d : Nat) (s : State) : State :=
  if (s.drive d).dst = .run then s.updDrive d fun v => { v with dst := .stopping, ts := s.now, stopDue := false }
  else s

/-- Whether classes P, S and D apply: in STANDBY, RUN and SAFE (R367); a warm reset is in none of them. -/
def reactionsApply (s : State) : Bool := !isAsleep s && s.pwr.resetting ≠ some .warm && (s.op = .standby || s.op = .run || s.op = .safe)

/-- Stop-out applies a reaction at the capture tick (R355 to R358, R367). -/
def applyReaction (r : Reaction) (code idx : Nat) (s : State) : State :=
  if !reactionsApply s then s
  else
    let s := match r.latch with
      | some ro => setLatch s code idx ro
      | none => s
    if r.h && handoverAvailable s then handoverReact code s
    else match r.react with
    | .n => s
    | .t => forUpTo 4 startStop s
    | .p => enterSafe [] 1 code s
    | .s ds => enterSafe ds 2 code s
    | .d =>
      let s := enterSafe [] 1 code s
      let s := forUpTo 4 (fun d s => if hasArch (s.drive d) then s.updDrive d fun v => { v with classD := true } else s) s
      { s with so := { s.so with classD := true, ownN := false } }

/-- An event is raised with the reaction given for it: the record and Stop-out's reaction at one tick. -/
def raiseWith (s : State) (r : Reaction) (code idx : Nat) (args : List Word) : State :=
  applyReaction r code idx (record s code idx args)

/-- Class P, latch cleared by CLEAR_FAULT. -/
def reactPC (h : Bool) : Reaction := { react := .p, latch := some false, h := h }

/-- The drives that a TRIP of source `n` takes to SS2: those whose routed pairs take LOW_ON or HIGH_ON, or whose
rings are routed (*Escalation table*). -/
def tripDrives (s : State) (n : Nat) : List Nat :=
  below 4 fun d => (drivePairs s d).any (fun p => wbit (tripRoute s n) p && decide (2 ≤ pairTripAction s p)) ||
    (driveRings s d).any (fun r => wbit (tripRoute s n) (r + 12))

/-- The reaction of an event whose row the escalation table decides from the event and the state alone. The rows
that need more (contexts, ring frames, consumption, calibration) are given by the units that raise them. -/
def reactionOf (s : State) (code idx : Nat) : Reaction :=
  if code = 0x0901 then
    (match tripDrives s idx with
     | [] => reactPC false
     | ds => { react := .s ds, latch := some false, h := false })
  else if code = 0x0904 then reactPC false
  else if code = 0x0103 then
    (if (below 4 fun d => hasArch (s.drive d) && wbit (parGet s 9 (0x10 + d)) 29) = [] then
      { react := .t, latch := none, h := false }
     else reactPC false)
  else if code = 0x0201 then { react := .d, latch := some true, h := true }
  else if code = 0x0202 then
    (if idx = 1 then { react := .d, latch := some true, h := true }
     else if idx = 2 then { react := .s (drivesWith s isString), latch := some true, h := true }
     else noReact)
  else if code = 0x0F03 then { react := .d, latch := some true, h := true }
  else if code = 0x0203 then reactPC true
  else if code = 0x0E03 then (if idx = 3 then reactPC false else noReact)
  else if code = 0x0801 ∨ code = 0x0804 ∨ code = 0x0805 ∨ code = 0x080A then { react := .p, latch := some true, h := true }
  else if code = 0x0803 then reactPC true
  else if code = 0x0809 then (if drivesWith s (fun v => v.dst = .run) = [] then noReact else reactPC false)
  else if code = 0x0404 then reactPC false
  else if code = 0x0405 then
    (if (below 4 fun d => parField s 4 (0x10 + d) 3 0 = idx || parField s 4 (0x10 + d) 7 4 = idx) = [] then noReact
     else reactPC false)
  else if code = 0x0903 then reactPC true
  else if code = 0x0A03 ∨ code = 0x0A04 then
    (if idx = 5 ∨ idx = 6 ∨ idx = 9 then reactPC true
     else if idx = 8 then { react := .p, latch := some true, h := true }
     else noReact)
  else noReact

/-- An event is raised, with the reaction of its row in the escalation table. -/
def raise (s : State) (code idx : Nat) (args : List Word) : State := raiseWith s (reactionOf s code idx) code idx args

/-- Unit `u` consumes a mark at address `a` (R385). -/
def consume (s : State) (u a : Nat) (m : Mark) : State :=
  let s := countBite s
  if consumedLately s u a then s else raise (noteBite s u a) (markCode m) u (twoWord a)

/-- HANDOVER_DONE is raised and TAKEN sent, once the new active device has come to the point of R420. -/
def handoverDone (s : State) : State :=
  if !s.marg.hoDue then s
  else
    let s := parCount { s with marg := { s.marg with hoDue := false } } 11 6 1
    queueCell (record s 0x0B02 0 [wrd s.marg.hoTrig]) .handover 0 (handoverPayload 5 s.now)

/-- The torque input of a drive at its set-point map and at Registration: +0.0 during a stop sequence (R359). -/
def torqueInput (v : Drive) : Word := if v.dst = .stopping then 0 else v.torque

/-- The device returns to STANDBY when no drive modulates (R113). -/
def leaveRun (s : State) : State :=
  if s.op = .run ∧ drivesWith s driveRuns = [] then setOp s .standby else s

/-- A stop sequence ends: the drive is IDLE, its pairs take layer 5 and its stored set-point is +0.0 (R359); a request that still
waits for one of its strings, and a frame not yet sent, have no cycle and no period any more (R274). -/
def endStop (d : Nat) (s : State) : State :=
  let s := s.updDrive d fun v => { v with dst := .idle, torque := 0, stopDue := false }
  let s := stopRegTimer s d
  let s := record s 0x0002 d []
  let s := forEach (drivePairs s d) (fun p s => periodPair s p) s
  let s := forEach (driveRings s d) (fun r s => s.updRing r fun g => { g with req := none, next := none }) s
  leaveRun s

/-- A drive released by CLEAR_FAULT becomes IDLE (R370). -/
def endSafe (d : Nat) (s : State) : State :=
  let s := s.updDrive d fun v => { v with dst := .idle, clearDue := false, classD := false }
  forEach (drivePairs s d) (fun p s => periodPair s p) s

/-- Whether STOP_TIME of the stop sequence of drive `d` has elapsed (R359). -/
def stopElapsed (s : State) (d : Nat) : Bool := decide ((s.drive d).ts + parField s 9 (0x10 + d) 15 0 * msTicks ≤ s.now)

/-- What waits for a period start of the timebase of drive `d` happens: the end of a stop sequence whose time has
elapsed, and the release after CLEAR_FAULT. -/
def drivePeriod (d : Nat) (s : State) : State :=
  let v := s.drive d
  if v.dst = .stopping ∧ (v.stopDue ∨ stopElapsed s d) then endStop d s
  else if v.clearDue then endSafe d s
  else s

/-- Whether SAFE_N is asserted and why: 0 none, 1 reset or BOOT, 2 class D, 3 SAFE_LOCKED, 4 EXTEST (R351). The
lowest code is shown when several hold (DEDUCED, log 11). -/
def safeNCause (s : State) : Nat :=
  if s.op = .boot ∨ s.pwr.resetting = some .powerOn ∨ s.pwr.resetting = some .system then 1
  else if s.so.classD then 2
  else if s.safeLocked then 3
  else if s.plate.tap = .extest then 4
  else 0

/-- Whether OWN_N is asserted (R352): on a single device in STANDBY, RUN and SAFE, in a pair while the device
holds the direct outputs. -/
def ownAsserted (s : State) : Bool :=
  (s.op = .standby || s.op = .run || s.op = .safe) && s.pwr.sleep = .awake && !s.so.classD &&
    (s.pwr.resetting = none || s.pwr.resetting = some .pair) && (s.marg.role = 0 || s.so.ownN)

end Sys2Proof.Machine
end

