-- ==== Sys2Proof/Machine/Replies.lean ====
section
/-!
DEFINITION. How a command completes: its reply on the reply lane (R83, R88), or, for a command relayed from the
partner's host, in the outbound slot of its reply mailbox (R428, R429).
-/
namespace Sys2Proof.Machine

/-- The number under which a request of inbound mailbox 12 or 13 runs: it holds no tag (R429). -/
def relayTag (mbx : Nat) : Nat := 1024 + mbx

/-- A message of 8 words, zero-filled. -/
def mailWords (l : List Word) : List Word := (l ++ [0, 0, 0, 0, 0, 0, 0, 0]).take 8

/-- The message of a relay reply: ACCEPT code, reply header, payload and its CRC (*Relay reply*). -/
def relayMessage (accept : Nat) (hdr : Option (BitVec 64)) (ws : List Word) : List Word :=
  let h := match hdr with
    | some h => [wrd h.toNat, wrd (h.toNat / 2 ^ 32)]
    | none => [0, 0]
  mailWords (wrd accept :: h ++ ws ++ (if ws = [] then [] else [payloadCrc ws]))

/-- Outbound slot `n` takes a message (R425). -/
def postMessage (s : State) (n : Nat) (ws : List Word) : State :=
  { s with marg := { s.marg with outbox := tblSet s.marg.outbox [] n ws, outSent := tblSet s.marg.outSent false n false } }

/-- The command under `tag` completes with a status and a reply payload. -/
def completeTag (tag status : Nat) (ws : List Word) (s : State) : State :=
  if 1024 ≤ tag then
    match tblGet s.marg.relayWait [] (tag - 1024) with
    | [op, t, unit] =>
      let h := mkHeader op t ws.length unit 2 status
      let s := { s with marg := { s.marg with relayWait := tblSet s.marg.relayWait [] (tag - 1024) [] } }
      postMessage s (tag - 1024 + 2) (relayMessage 9 (some h) ws)
    | _ => s
  else
    match s.folio.tags.find? fun e => e.tag = tag && e.phase ≠ .replied with
    | none => s
    | some e =>
      let r : Reply := { tag := tag, opcode := e.opcode, unit := e.unit, status := status, payload := ws }
      { s with folio := { s.folio with
          tags := s.folio.tags.map fun x => if x.tag = tag then { x with phase := .replied, payload := [] } else x,
          replies := s.folio.replies ++ [r] } }

/-- The command under `tag` completes now, or waits. -/
def settle (tag : Nat) (r : CmdRes) : State :=
  match r with
  | .done st ws s => completeTag tag st ws s
  | .wait s => s

end Sys2Proof.Machine
end

