-- ==== Sys2Proof/Machine/Memory.lean ====
section
/-!
DEFINITION. Memory: stores, LPDDR5, the scrubbers, capture, and the commands of 13_memory.md. What a read does is in Machine/Ecc.lean. What LPDDR5 does for the Sketchbook mirror is in Machine/Sketchbook.lean.
-/
namespace Sys2Proof.Machine

/-! MRAM. -/

/-- An MRAM write is refused (R393). -/
def mramRefuse (s : State) : State := raise (parCount s 10 0x24 1) 0x0A06 0 [wrdI s.therm.tj]

/-! Stores. -/

/-- The written-map word of block `b` is rewritten by a write to the block: its bit is set, and a word that was
uncorrectable leaves its other bits set (R389). -/
def setBlock (s : State) (b : Nat) : State :=
  if wmapBad s b then
    forUpTo 64 (fun k s => { s with mem := { s.mem with wmap := tblSet s.mem.wmap false (b / 64 * 64 + k) true } })
      (setErr (setMark s (wmapAddr b) .none) (wmapAddr b) .none)
  else { s with mem := { s.mem with wmap := tblSet s.mem.wmap false b true } }

/-- Word `w` is stored at `a`. The first write to a block of LPDDR5 starts its fill, and lands when the fill ends (R388). -/
def storeWord (a : Nat) (w : Word) (s : State) : State :=
  let b := lpBlock a
  let s := mapRead s a
  if memOf a ≠ 2 then writeWord s a w
  else if blockFilling s b then
    { s with mem := { s.mem with fills := s.mem.fills.map fun f => if f.1 = b then (f.1, f.2 ++ [(a, w)]) else f } }
  else if wmapBad s b then writeWord (setBlock s b) a w
  else if blockWritten s b then writeWord s a w
  else { s with mem := { s.mem with fills := s.mem.fills ++ [(b, [(a, w)])] } }

/-- The words of a list are stored from `a` upward. -/
def storeWords (a : Nat) (ws : List Word) (s : State) : State :=
  match ws with
  | [] => s
  | w :: r => storeWords (a + 4) r (storeWord a w s)

/-- A range is stored under R387: whole words are fresh, and the word of which only a half is written is read first,
and keeps its mark. -/
def storeRange (a : Nat) (ws : List Word) (s : State) : State :=
  let hi := a + 4 * ws.length
  let s := if a % 8 = 4 then setErr (demandRead s a) a .none else s
  let s := if hi % 8 = 4 ∧ hi - 4 ≠ a - a % 8 + 4 then setErr (demandRead s (hi - 4)) (hi - 4) .none else s
  freshWords (storeWords a ws s) ((a + 7) / 8 * 8) (hi / 8 * 8)

/-- Whether a store to `a` is a write of MRAM that the window of Tj refuses (R393). -/
def mramShut (s : State) (a : Nat) : Bool := decide (memOf a = 1) && !mramOpen s

/-- What MRAM holds for parameter `i` of unit `u`. -/
def nvGet (s : State) (u i : Nat) : Word := tblGet s.nv (paramReset u i) (paAddr u i)
/-- MRAM takes a value for parameter `i` of unit `u`. -/
def nvSet (s : State) (u i : Nat) (v : Word) : State := { s with nv := tblSet s.nv (paramReset u i) (paAddr u i) v }

/-- The base address of firmware slot `n`. -/
def slotBase (n : Nat) : Nat := 0x10000000 + 0x180000 * n
/-- The bytes of a firmware slot. -/
def slotSize : Nat := 1572864

/-- A store to a firmware slot that no command made: whether the slot still verifies is a free value (R347, log 26). -/
def touchSlot (a : Nat) (s : State) : State :=
  if slotBase 0 ≤ a ∧ a < slotBase 2 then
    { nvSet s 8 (0x100 + (a - slotBase 0) / slotSize) (wrd (b2n (Config.freeBit s.free))) with free := s.free + 1 }
  else s

/-- The word at `a` with the bytes of `v` that `enables` names; a word of a block that was never written starts from zeros, and
a word that waits for a fill from what waits (R388). -/
def mergeBytes (s : State) (a : Nat) (v : Word) (enables : Nat) : Word :=
  let waiting := (s.mem.fills.flatMap fun f => f.2).reverse.find? fun x => x.1 = a
  let old := match waiting with
    | some x => x.2
    | none => if memOf a = 2 && !blockWritten s (lpBlock a) then 0 else readWord s a
  let m := wrd ((List.range 4).foldl (fun n k => if enables.testBit k then n + 255 * 2 ^ (8 * k) else n) 0)
  (old &&& ~~~ m) ||| (v &&& m)

/-- A store of the pair lands in memory: the bytes its enables name, with its mark. A store of less than its word reads the
word first (R387); one to MRAM outside the window of Tj is refused (R393), one to LPDDR5 that is offline discarded (R392). -/
def landStore (a : Nat) (v : Word) (enables : Nat) (mark : Mark) (s : State) : State :=
  if mramShut s a then mramRefuse s
  else if namesLp a && !s.mem.lpOnline then s
  else
    let s := if enables % 16 = 15 then s else demandRead s a
    let old := markAt s a
    let s := touchSlot a (storeRange a [mergeBytes s a v enables] s)
    if mark ≠ .none then setMark s a (if old = .bite then .bite else mark) else s

/-! LPDDR5 requests (R391, R392). -/

/-- The outstanding requests of capture. -/
def captureOut (s : State) : Nat := (s.mem.lpOut.filter fun x => x < 4).length
/-- The outstanding requests of requester `x`. -/
def outOf (s : State) (x : Nat) : Nat := (s.mem.lpOut.filter fun y => y = x).length

/-- Requester `x` issues a request. -/
def issueOne (x : Nat) (s : State) : State :=
  let out := s.mem.lpOut ++ [x]
  { s with mem := { s.mem with lpOut := out, lpMost := max s.mem.lpMost out.length } }

/-- The requester served next: a capture buffer with a record to write, then the mirror. -/
def nextRequester (s : State) : Option Nat :=
  if 128 ≤ s.mem.lpOut.length then none
  else match (if 64 ≤ captureOut s then none
      else (below 4 fun b => (s.cap b).lp && decide (outOf s b < (s.cap b).queue.length)).head?) with
  | some b => some b
  | none => if outOf s 4 < s.book.mirQueue.length then some 4 else none

/-- Requests are issued in the order of R391 while entries are free and the interface is not held. -/
def lpIssue (fuel : Nat) (s : State) : State :=
  match fuel with
  | 0 => s
  | k + 1 =>
    if !s.mem.lpOnline || s.mem.lpHeld then s
    else match nextRequester s with
      | some x => lpIssue k (issueOne x s)
      | none => s

/-- The Sketchbook mirror area (R460). -/
def mirrorArea (s : State) : Option (Nat × Nat) :=
  if wbit (parGet s 13 4) 31 then
    some (ofTwoWords (parGet s 13 5) (wrd (parField s 13 6 3 0)), parField s 13 7 8 0 * 2 ^ 20)
  else none

/-- Whether `[a, a + n)` and `[b, b + m)` overlap. -/
def rangesMeet (a n b m : Nat) : Bool := decide (a < b + m) && decide (b < a + n) && decide (0 < n) && decide (0 < m)

/-- Whether a range touches the mirror area. -/
def touchesMirror (s : State) (a n : Nat) : Bool :=
  match mirrorArea s with
  | some (b, m) => rangesMeet a n b m
  | none => false

/-- Whether a range touches an armed capture buffer other than `b`. -/
def touchesArmed (s : State) (b a n : Nat) : Bool :=
  (below 4 fun x => x ≠ b && (s.cap x).armed && rangesMeet a n (s.cap x).base ((s.cap x).size * 4096)) ≠ []

/-! Capture (R394 to R396). -/

/-- Whether a buffer has all its records: full in IMMEDIATE, POST records after the trigger otherwise (R395). -/
def captureFull (c : Capture) : Bool :=
  if c.mode = 0 then decide (c.size * 4096 ≤ c.write + 8 * c.queue.length) else c.triggered && decide (c.left = 0)

/-- A capture record (*Capture record*): the result word with GAP in bit 21, and the sample instant. -/
def captureRecord (res : Word) (sample : Nat) (gap : Bool) : BitVec 64 :=
  BitVec.ofNat 64 ((setField res 21 21 (b2n gap)).toNat + sample % 2 ^ 32 * 2 ^ 32)

/-- A record of buffer `b` lands in memory; a ring wraps to its base. -/
def captureLand (b : Nat) (rcd : BitVec 64) (s : State) : State :=
  let c := s.cap b
  let s := storeRange (c.base + c.write) (twoWords rcd.toNat) s
  s.updCap b fun c =>
    let w := c.write + 8
    if c.mode ≠ 0 ∧ c.size * 4096 ≤ w then { c with write := 0, wrapped := true } else { c with write := w }

/-- Buffer `b` takes the result `res` of input `inp`, sampled at `sample`. A record that finds the queue full is lost, and
the next one shows the gap (R396). -/
def captureTake (inp : Nat) (res : Word) (sample : Nat) (b : Nat) (s : State) : State :=
  let c := s.cap b
  if !c.armed || !c.mask.testBit inp || captureFull c then s
  else if 4096 ≤ c.queue.length then
    s.updCap b fun c => { c with overrun := min 0xFFFFFFFF (c.overrun + 1), gap := true }
  else
    let rcd := captureRecord res sample c.gap
    let s := s.updCap b fun c => { c with gap := false, left := if c.triggered then c.left - 1 else c.left }
    if c.lp then lpIssue 200 (s.updCap b fun c => { c with queue := c.queue ++ [rcd] }) else captureLand b rcd s

/-- Every armed buffer takes a result. -/
def captureAll (inp : Nat) (res : Word) (sample : Nat) (s : State) : State := forUpTo 4 (captureTake inp res sample) s

/-- Buffer `b` stops (R395). -/
def captureEnd (b : Nat) (s : State) : State :=
  if !(s.cap b).armed then s
  else recordUntested (s.updCap b fun c => { c with armed := false, stopped := true, stopTick := s.now }) 0x0A07 b []

/-! Host access (R375, R398, R399). -/

/-- The data word that a host read at `a` delivers. Where the spec does not say what a region holds word by word, it
is a free value (log 20). -/
def hostWord (s : State) (a : Nat) : Word :=
  let g := regionNum s a
  if g = 8 ∨ g = 9 ∨ g = 16 ∨ g = 17 ∨ g = 32 then readWord s a
  else if g = 10 then wmapWord s ((a - 0xBC0000) / 4)
  else Config.freeWord (s.free + a)

/-- `n` words are read from `a`: the state, the words and their marks. -/
def hostRead (n a : Nat) (s : State) : State × List (Word × Mark) :=
  match n with
  | 0 => (s, [])
  | k + 1 =>
    let s := demandRead s a
    let x := (hostWord s a, wordMark s a)
    let r := hostRead k (a + 4) s
    (r.1, x :: r.2)

/-- Bitmaps of 32 flags to a word, bit `w` for word `w`. -/
def bitmapWords (l : List Bool) : List Word :=
  (List.range ((l.length + 31) / 32)).map fun i => wrd (maskOf (below 32 fun k => l.getD (32 * i + k) false))

/-- The status of a reply with these marks (R386). -/
def marksStatus (l : List Mark) : Nat :=
  if l.contains .bite then stPoison else if l.contains .unwritten then stUnwritten else stOk

/-- Whether a request that touches `n` words from `a` is held: LPDDR5 waits for relock, its 128 entries are in use, or a
block is being filled (R388, R391, R392). -/
def lpWaits (s : State) (a n : Nat) (write : Bool) : Bool :=
  namesLp a && (s.mem.lpHeld || decide (128 ≤ s.mem.lpOut.length) ||
    (!write && (s.mem.fills.any fun f => rangesMeet a (4 * n) (lpBase + 4096 * f.1) 4096)))

/-- The most entries in use since reset counts the request of this command. -/
def lpNote (s : State) (a : Nat) : State :=
  if namesLp a then { s with mem := { s.mem with lpMost := max s.mem.lpMost (s.mem.lpOut.length + 1) } } else s

/-- Whether `n` words from `a` stay inside the region of `a`. -/
def insideRegion (s : State) (a n : Nat) : Bool :=
  match regionAt s a with
  | some r => decide (a + 4 * n ≤ r.base + r.size)
  | none => false

/-- Whether the host may read at `a`. -/
def readable (s : State) (a : Nat) : Bool :=
  match regionAt s a with
  | some r => r.hostRead
  | none => true

/-- MEM_READ (R398). -/
def bodyMemRead (tag : Nat) (ws : List Word) (s : State) : CmdRes :=
  let a := ofTwoWords (pw ws 0) (pw ws 1)
  let n := field (pw ws 2) 9 0
  checked s
    [(hasLp s.part && namesLp a && !s.mem.lpOnline, stState),
     (!readable s a, stDenied),
     (hasBits (pw ws 2) 0xFFFFFC00 || decide (n = 0) || decide (960 < n) || decide (a % 4 ≠ 0) ||
        !insideRegion s a n, stBadParam)]
    (if lpWaits s a n false then
      .wait { s with mem := { s.mem with lpWait := s.mem.lpWait ++ [(tag, false, ws)] } }
    else
      let r := hostRead n a (lpNote s a)
      let marks := r.2.map fun x => x.2
      .done (marksStatus marks)
        (r.2.map (fun x => x.1) ++ bitmapWords (marks.map fun m => decide (m = .bite)) ++
          bitmapWords (marks.map fun m => decide (m = .unwritten)))
        { r.1 with free := r.1.free + 2 ^ 36 })

/-- Whether every word of a range lies in a region. -/
def rangeMapped (s : State) (a n : Nat) : Bool := (List.range n).all fun i => (regionAt s (a + 4 * i)).isSome

/-- Whether a word of a range lies in a region that the host may not write. -/
def rangeDenied (s : State) (a n : Nat) : Bool :=
  (List.range n).any fun i => match regionAt s (a + 4 * i) with
    | some r => !r.hostWrite
    | none => false

/-- MEM_WRITE (R399). -/
def bodyMemWrite (tag : Nat) (ws : List Word) (s : State) : CmdRes :=
  let a := ofTwoWords (pw ws 0) (pw ws 1)
  let data := ws.drop 2
  let n := data.length
  checked s
    [(hasLp s.part && !s.mem.lpOnline && ((List.range n).any fun i => namesLp (a + 4 * i)), stState),
     (rangeDenied s a n || touchesArmed s 4 a (4 * n) || touchesMirror s a (4 * n), stDenied),
     (decide (n = 0) || decide (a % 4 ≠ 0) || !rangeMapped s a n, stBadParam)]
    (if lpWaits s a n true then
      .wait { s with mem := { s.mem with lpWait := s.mem.lpWait ++ [(tag, true, ws)] } }
    else .done stOk [] (storeRange a data (lpNote s a)))

/-- A store of the pair is released: it lands, or LPDDR5 holds it in handshake (R32, R391, R392). -/
def releaseStore (x : Nat × Word × Nat × Mark) (s : State) : State :=
  if s.mem.lpOnline && lpWaits s x.1 1 true then { s with mem := { s.mem with lpStore := s.mem.lpStore ++ [x] } }
  else landStore x.1 x.2.1 x.2.2.1 x.2.2.2 (lpNote s x.1)

/-- The stores of the pair and then the commands held in handshake go on, in order, when nothing holds them any more; each that
still must wait joins the end again. -/
def serveWaits (s : State) : State :=
  let stores := s.mem.lpStore
  let s := forEach stores releaseStore { s with mem := { s.mem with lpStore := [] } }
  forEach s.mem.lpWait (fun w s =>
    settle w.1 (if w.2.1 then bodyMemWrite w.1 w.2.2 s else bodyMemRead w.1 w.2.2 s)) { s with mem := { s.mem with lpWait := [] } }

/-- The records that still wait in the queue of a stopped buffer land before it is armed again (DEDUCED, log 22). -/
def captureFlush (b : Nat) (s : State) : State :=
  let s := forEach (s.cap b).queue (captureLand b) s
  { s with mem := { s.mem with lpOut := s.mem.lpOut.filter fun x => x ≠ b } }

/-- CAPTURE_ARM (R395, R397). -/
def bodyCaptureArm (ws : List Word) (s : State) : CmdRes :=
  let w := pw ws 0
  let b := field w 1 0
  let arm := wbit w 31
  let lp := wbit w 24
  let base := ofTwoWords (pw ws 1) (pw ws 2)
  let size := (pw ws 3).toNat
  let post := (pw ws 4).toNat
  let mask := ofTwoWords (pw ws 5) (pw ws 6)
  let lo := if lp then lpBase else 0x4A0000
  let hi := if lp then lpBase + lpUsable s else 0x8A0000
  checked s
    [(arm && ((s.cap b).armed || (lp && hasLp s.part && !s.mem.lpOnline)), stState),
     (hasBits w 0x4EFFFFFC || decide (field w 29 28 = 3), stBadParam),
     (arm && (decide (base % 4096 ≠ 0) || decide (size = 0) || decide (512 * size < post) || decide (mask = 0) ||
        (lp && !hasLp s.part) || decide (base < lo) || decide (hi < base + size * 4096) ||
        touchesArmed s b base (size * 4096) || touchesMirror s base (size * 4096)), stBadParam)]
    (if arm then
      .done stOk (twoWords s.now) ((captureFlush b s).updCap b fun _ =>
        { armed := true, lp := lp, mode := field w 29 28, base := base, size := size, post := post, mask := mask,
          armTick := s.now })
    else .done stOk (twoWords (s.cap b).armTick) (captureEnd b s))

/-- SCRUB_STATUS (R400). -/
def bodyScrubStatus (_ws : List Word) (s : State) : CmdRes :=
  .done stOk ((List.range 12).map fun i => if 8 ≤ i ∧ !hasLp s.part then 0xFFFFFFFF else parGet s 10 (0x10 + i)) s

/-! Parameters of unit 0x0A. -/

/-- The refresh multiplier in force: the larger of the band's and MR4's, 4 while the device is beyond its range (R378). -/
def refreshMult (s : State) : Nat :=
  if s.mem.mr4Over then 4
  else max (if s.therm.band = 4 then 4 else if s.therm.band = 3 then 2 else 1) s.mem.mr4

/-- The check of a write to a parameter of unit 0x0A. -/
def check0A (_s : State) (i : Nat) (v : Word) : Nat :=
  if 2 ≤ i ∧ i ≤ 4 ∧ v = 0 then stBadParam else stOk

/-- The write of a parameter of unit 0x0A lands; LP_CONFIG.RATE is an MRAM write (R393). -/
def write0A (s : State) (i : Nat) (v : Word) : State :=
  if i = 1 then (if mramOpen s then nvSet s 10 1 (v &&& 0xC0000000) else mramRefuse s)
  else if 0x100 ≤ i ∧ i < 0x120 ∧ i % 8 = 7 then s.updCap ((i - 0x100) / 8) fun c => { c with overrun := 0 }
  else parSet s 10 i v

/-- A buffer's CAP_STATUS. -/
def capStatus (c : Capture) : Word :=
  wrd (b2n c.armed * 2 ^ 31 + b2n c.stopped * 2 ^ 30 + b2n c.wrapped * 2 ^ 29 + b2n c.lp * 2 ^ 28 + c.mode * 2 ^ 26)

/-- The value of a parameter of unit 0x0A. CAP_STOP_HI is the half that a read of CAP_STOP_LO captured (R47). -/
def read0A (s : State) (i : Nat) : Word :=
  if i = 0 then
    wrd (b2n s.mem.lpOnline * 2 ^ 31 + s.mem.lpCause * 2 ^ 28 +
      (if refreshMult s = 4 then 2 else if refreshMult s = 2 then 1 else 0) * 2 ^ 26 + parNat s 10 0 % 8)
  else if i = 1 then nvGet s 10 1 ||| wrd (s.mem.density * 2 ^ 26 + s.mem.ranks * 2 ^ 25)
  else if i = 0x23 then wrd (s.mem.lpMost * 2 ^ 16 + s.mem.lpOut.length)
  else if 0x100 ≤ i ∧ i < 0x120 then
    (let c := s.cap ((i - 0x100) / 8)
     match i % 8 with
     | 0 => capStatus c
     | 1 => wrd c.base
     | 2 => wrd (c.base / 2 ^ 32)
     | 3 => wrd c.size
     | 4 => wrd c.write
     | 5 => wrd c.stopTick
     | 6 => parGet s 10 i
     | _ => wrd c.overrun)
  else parGet s 10 i

/-- A read of CAP_STOP_LO of buffer `b` captures both halves (R47). -/
def captureStopHi (b : Nat) (s : State) : State := parSet s 10 (0x106 + 8 * b) (wrd ((s.cap b).stopTick / 2 ^ 32))

/-! The scrubbers (R390). -/

/-- The first word address, by 8 bytes, of memory `k`. -/
def scrubBase (k : Nat) : Nat := (if k = 0 then 0 else if k = 1 then 0x10000000 else lpBase) / 8
/-- The word address behind memory `k`. -/
def scrubTop (s : State) (k : Nat) : Nat :=
  (if k = 0 then 0xC00000 else if k = 1 then 0x10400000 else lpBase + lpUsable s) / 8

/-- The next word that the scrubber of LPDDR5 reads at or after word `w`: it skips blocks never written. -/
def skipBlocks (s : State) (w : Nat) : Option Nat :=
  let b := lpBlock (8 * w)
  if blockWritten s b || wmapBad s b then some w
  else ((s.mem.wmap.filter fun e => e.2 && decide (b < e.1)).head?).map fun e => (lpBase + 4096 * e.1) / 8

/-- A lap of memory `k` ends: its time, the alarm, and the next lap. -/
def lapEnd (k : Nat) (s : State) : State :=
  let lap := (s.now - tblGet s.mem.lapStart 0 k) / msTicks
  let s := parSet s 10 (0x10 + 4 * k) (wrd lap)
  let s := if parNat s 10 (0x11 + 4 * k) < lap then parSet s 10 (0x11 + 4 * k) (wrd lap) else s
  let s := { s with mem := { s.mem with
    lapStart := tblSet s.mem.lapStart 0 k s.now, scrubAddr := tblSet s.mem.scrubAddr 0 k 0 } }
  if parNat s 10 (2 + k) < lap then recordUntested (parOr s 10 0 (wrd (2 ^ k))) 0x0A05 k [wrd lap] else s

/-- Stored code words are struck by an error since they were last seen; a word that is marked stays marked. -/
def strike (upsets : List (Nat × Bool)) (s : State) : State :=
  forEach upsets (fun u s => if markAt s (8 * u.1) = .none ∧ u.1 < 2 ^ 33 then
    setErr s (8 * u.1) (if u.2 || errAt s (8 * u.1) ≠ .none then .multi else .single) else s) s

/-- Whether the scrubber of memory `k` runs: not in sleep, and on LPDDR5 with nothing waiting for it (R390). -/
def scrubRuns (s : State) (k : Nat) : Bool :=
  s.pwr.sleep = .awake && (k < 2 || (k = 2 && s.mem.lpOnline && !s.mem.lpHeld && s.mem.lpOut == [] &&
    s.mem.lpWait == [] && s.mem.lpStore == []))

/-- SCRUB_STEP: the scrubber of a memory reads its next word (R390). -/
def execScrubStep (mem : Nat) (upsets : List (Nat × Bool)) (raced : Bool) (s : State) : Host.Outcome State Fault Refusal :=
  .next (
    let s := strike upsets s
    if !scrubRuns s mem then s
    else
      let w := scrubBase mem + tblGet s.mem.scrubAddr 0 mem
      let at_ := if mem = 2 then (if w < scrubTop s mem then skipBlocks s w else none) else some w
      match at_ with
      | none => lapEnd mem s
      | some w =>
        let s := eccRead s (8 * w) true raced
        let s := { s with mem := { s.mem with scrubAddr := tblSet s.mem.scrubAddr 0 mem (w + 1 - scrubBase mem) } }
        if scrubTop s mem ≤ w + 1 then lapEnd mem s else s)

/-! Events of LPDDR5 and capture. -/

/-- LPDDR5_FAULT with its cause. -/
def lpFault (cause : Nat) (s : State) : State :=
  raise { s with mem := { s.mem with lpCause := cause } } 0x0A08 0 [wrd cause]

/-- LPDDR5_TRAINING: the controller reads density and type and trains, once after each reset of the unit, in a start
from boot step 5 on (R377, R476). -/
def execLpddr5Training (ok : Bool) (density ranks : Nat) (s : State) : Host.Outcome State Fault Refusal :=
  .next (
    if !hasLp s.part || s.mem.lpOnline || decide (s.mem.lpCause ≠ 0) || decide (s.pwr.resetting ≠ none) ||
        (decide (s.op = .boot) && decide (s.pwr.bootStep < 5)) then s
    else
      let good := decide (1 ≤ density) && decide (density ≤ 3) && decide (ranks ≤ 1)
      let s := { s with mem := { s.mem with density := if good then density else 0, ranks := if good then ranks else 0 } }
      if ok && good then { s with mem := { s.mem with lpOnline := true } } else lpFault 1 s)

/-- MR4_POLL, once every 1 ms: the multiplier that the LPDDR5 device requests; beyond its range LPDDR5_FAULT and the 4× rate (R378). -/
def execMr4Poll (mult : Nat) (hot : Bool) (s : State) : Host.Outcome State Fault Refusal :=
  .next (
    if !s.mem.lpOnline || decide (s.now < s.mem.mr4Tick + msTicks) then s
    else
      let was := s.mem.mr4Over
      let s := { s with mem := { s.mem with
        mr4Tick := s.now, mr4 := if mult = 1 ∨ mult = 2 ∨ mult = 4 then mult else s.mem.mr4, mr4Over := hot } }
      if hot && !was then lpFault 3 s else s)

/-- Whether the per-bank refresh interval, 3.906 µs divided by the multiplier in force, has passed since the last refresh was due
(R378). -/
def refreshDue (s : State) : Bool := decide (15624 ≤ 10 * refreshMult s * (s.now - s.mem.refTick))

/-- LPDDR5_REFRESH: a per-bank refresh is issued, or missed while the interface waits for relock (R378, R392). -/
def execLpddr5Refresh (bank : Nat) (s : State) : Host.Outcome State Fault Refusal :=
  .next (
    if !s.mem.lpOnline || decide (32 ≤ bank) || !refreshDue s then s
    else if s.mem.lpHeld then { s with mem := { s.mem with missedRef := s.mem.missedRef + 1, refTick := s.now } }
    else { s with mem := { s.mem with refreshes := s.mem.refreshes + 1, refTick := s.now } })

/-- LPDDR5_RELOCK: the missed refreshes are issued, then the held requests are released (R392). -/
def execLpddr5Relock (s : State) : Host.Outcome State Fault Refusal :=
  .next (
    if !s.mem.lpHeld then s
    else serveWaits (lpIssue 200 { s with
      tim := { s.tim with td5 := true },
      mem := { s.mem with lpHeld := false, refreshes := s.mem.refreshes + s.mem.missedRef, missedRef := 0 } }))

/-- BLOCK_FILL_DONE: the block holds zeros, the writes that waited land, and its bit is set (R388). -/
def execBlockFillDone (block : Nat) (s : State) : Host.Outcome State Fault Refusal :=
  .next (
    match s.mem.fills.find? fun f => f.1 = block with
    | none => s
    | some f =>
      let lo := lpBase + 4096 * block
      let s := { s with mem := { s.mem with
        fills := s.mem.fills.filter fun x => x.1 ≠ block,
        cells := s.mem.cells.filter fun c => !(decide (lo ≤ c.1) && decide (c.1 < lo + 4096)) } }
      let s := setBlock (freshWords s lo (lo + 4096)) block
      serveWaits (forEach f.2 (fun x s => writeWord s x.1 x.2) s))

/-- CAPTURE_STOP: a buffer that has all its records stops (R395). -/
def execCaptureStop (buf : Nat) (s : State) : Host.Outcome State Fault Refusal :=
  .next (if buf < 4 ∧ (s.cap buf).armed ∧ captureFull (s.cap buf) then captureEnd buf s else s)

end Sys2Proof.Machine
end

