-- ==== Sys2Proof/Machine/Plate.lean ====
section
/-!
DEFINITION. The Plate pair: signatures, divergences, asynchronous inputs, the watchdog, pair restart, split and join, debug
and the TAP, and firmware update (11_plate_pair.md, R130); the comparator, the delay queue and checkpoints are in
Machine/Lockstep.lean. The instructions that the cores
execute are no rows of the table; what they hand to the comparator comes in the operands.
-/
namespace Sys2Proof.Machine

/-- The state with unit 0x08 changed. -/
def updPlate (s : State) (f : Plate → Plate) : State := { s with plate := f s.plate }

/-! Reset of unit 0x01 and the commands in flight (R96). -/

/-- A tag that is no longer in flight. -/
def dropTag (t : Nat) : Nat := if t < 1024 then 4096 else t

/-- The commands in flight are lost: what still runs for them completes without a reply (R96). -/
def dropTags (s : State) : State :=
  let slice (c : Slice) : Slice := { c with
    urgent := c.urgent.map fun u => (dropTag u.1, u.2),
    held := c.held.map fun u => (dropTag u.1, u.2),
    conv := c.conv.map fun v => match v.what with
      | .urgent t => { v with what := .urgent (dropTag t) }
      | _ => v }
  let ring (g : Ring) : Ring := { g with
    mgmt := g.mgmt.map fun m => { m with tag := dropTag m.tag },
    pass := g.pass.map fun p => { p with tag := p.tag.map dropTag } }
  { s with
    book := { s.book with markWait := [] },
    conv := { s.conv with slices := s.conv.slices.map fun e => (e.1, slice e.2) },
    stip := { s.stip with rings := s.stip.rings.map fun e => (e.1, ring e.2) },
    grav := { s.grav with waits := s.grav.waits.map fun w => (dropTag w.1, w.2) },
    mem := { s.mem with lpWait := s.mem.lpWait.filter fun w => !decide (w.1 < 1024) },
    marg := { s.marg with lockWait := s.marg.lockWait.map fun w => (w.1, dropTag w.2.1, w.2.2), hoTag := s.marg.hoTag.map dropTag },
    burn := { s.burn with abortTags := s.burn.abortTags.map dropTag },
    pwr := { s.pwr with 
      shutTag := s.pwr.shutTag.map dropTag, sleepTag := s.pwr.sleepTag.map dropTag, resetDue := none } }

/-- Unit 0x01 is reset: every tag entry is freed, the event queue is empty, and no header is answered until the reset
ends (R79, R96). -/
def folioReset (s : State) : State :=
  parClearUnit { dropTags s with folio := { inReset := true, hostBase := s.now } } 1

/-! Faults of the pair and pair restart. -/

/-- The ticks of a list inside the sliding window of `d` ticks that ends now (R61). -/
def inWindow (s : State) (d : Nat) (l : List Nat) : List Nat := l.filter fun t => inSlide s.now t d
/-- The ticks of a list that a window of `d` ticks that ends now or later may hold. -/
def notOver (s : State) (d : Nat) (l : List Nat) : List Nat := l.filter fun t => decide (s.now < t + d)

/-- LATENT_1S. -/
def latentCount (s : State) : Nat := (inWindow s 400000000 s.plate.latent).length
/-- The disagreements in the sliding window of 1 ms. -/
def disagreeCount (s : State) : Nat := (inWindow s msTicks s.plate.disagree).length

/-- Unit 0x08 takes its reset values; a pair restart keeps the counters of R338. What MRAM and the last boot decide stays. -/
def plateReset (kept : Bool) (s : State) : State :=
  let p := s.par.filter fun e => decide (e.1 / 0x10000 = 8) && decide (4 ≤ e.1 % 0x10000) && decide (e.1 % 0x10000 ≤ 7)
  let q := s.plate
  let s := parClearUnit s 8
  let s := if kept then p.foldl (fun s e => parSet s 8 (e.1 % 0x10000) e.2) s else s
  updPlate s fun _ => { wdTick := s.now, bootSlot := q.bootSlot, fallback := q.fallback, version := q.version, tap := q.tap }

/-- The image in slot `n` is copied into the SRAM text region, region 0 (R337, *Boot steps*). -/
def loadImage (n : Nat) (s : State) : State :=
  let lo := slotBase n
  let img := (s.mem.cells.filter fun c => decide (lo ≤ c.1) && decide (c.1 < lo + slotSize)).map fun c => (c.1 - lo, c.2)
  freshWords { s with mem := { s.mem with cells := img ++ s.mem.cells.filter fun c => decide (slotSize ≤ c.1) } } 0 slotSize

/-- A pair restart begins: both cores stop, what they held is discarded, and units 0x01 and 0x08 are reset (R337). -/
def pairRestart (s : State) : State :=
  if s.pwr.resetting ≠ none then s
  else
    let s := parCount (plateReset true (folioReset s)) 8 6 1
    { updPlate s fun p => { p with mode := .restarting } with
      pwr := { s.pwr with resetting := some .pair, resetCode := 5 } }

/-- Whether the cores execute: the firmware has started, no reset holds them, they are not stopped by debug, by a
resynchronisation or by sleep, unit 179 does not test them and no image is being reloaded (R438, R443), and the checkpoint that a
wake takes first is taken (R349). -/
def coresRun (s : State) : Bool :=
  s.op ≠ .boot && s.pwr.resetting = none && s.pwr.sleep = .awake && !s.plate.halted && !s.burn.dead &&
    !(s.burn.phase = .running && s.burn.unit = 179) && !s.burn.reload &&
    s.plate.mode ≠ .restarting && s.plate.mode ≠ .resync && !s.plate.wakeCk

/-- Whether the two cores are compared (R327, R340). -/
def compared (s : State) : Bool := coresRun s && !splitMode s.plate.mode

/-- A fault of the pair that leads to a restart (*Fault classes of the pair*). -/
def pairFault (code : Nat) (args : List Word) (s : State) : State := pairRestart (raise s code 0 args)

/-- LOCKSTEP_DIVERGENCE at retired-instruction number `n`. -/
def divergence (n : Nat) (s : State) : State := pairFault 0x0801 [wrd n] (parSet s 8 7 (wrd n))

/-! Transactions (R327 to R329). -/

/-- The mark of a number: 0 none, 1 bite, 2 unwritten. -/
def markOf (n : Nat) : Mark := match n with
  | 0 => .none | 1 => .bite | _ => .unwritten

/-- Plate consumes a marked word that it stores into a privileged region or writes to a unit: the instruction does not retire,
and the pair restarts (R385). The address it was read from is a free value (log 25). -/
def plateConsumes (mark : Nat) (s : State) : State :=
  let s := countBite s
  let s := raise s (markCode (markOf mark)) 8 [Config.freeWord s.free, Config.freeWord (s.free + 1)]
  pairRestart { s with free := s.free + 2 }

/-! Checkpoints (R330 to R332). -/

/-- `n` steps of the unreflected CRC-64 shift register. -/
def crc64Bits (n : Nat) (c : Nat) : Nat :=
  match n with
  | 0 => c
  | k + 1 => crc64Bits k (if 2 ^ 63 ≤ c then (c * 2 % 2 ^ 64) ^^^ 0x42F0E1EBA9EA3693 else c * 2)

/-- CRC-64 of ECMA-182 (R330). -/
def crc64 (bytes : List Nat) : Nat := bytes.foldl (fun c b => crc64Bits 8 (c ^^^ (b * 2 ^ 56))) 0

/-- The signature of a core: general registers 0 to 31, the program counter and control registers 0 to 7 (R330). -/
def signature (regs : List Word) : Nat := crc64 (payloadBytes ((List.range 41).map fun k => regs.getD k 0))

/-- A list of registers as a table. -/
def regTable (l : List Word) : Tbl Word := (List.range 41).foldl (fun t k => tblSet t 0 k (l.getD k 0)) []

/-- The pair joins at a checkpoint: Plate's registers are copied and comparison restarts (R342). -/
def joinNow (s : State) : State :=
  let tag := s.plate.joinTag
  let s := updPlate s fun p => { p with
    mode := .lockstep, cbuf := [], cbufNext := [], dq := [], dqNext := [], joinTag := none, regsC := p.regsP, marksC := p.marksP, retC := p.retP,
    replay := [] }
  let s := record s 0x0807 0 []
  match tag with
  | some t => completeTag t stOk [] s
  | none => s

/-- Unequal signatures: LATENT_DIVERGENCE, a resynchronisation, at which both cores stand at Plate's last retired instruction, or
at the third in 1 s a divergence (R325, R332). -/
def latentFault (n : Nat) (s : State) : State :=
  let s := updPlate s fun p => { p with latent := s.now :: notOver s 400000000 p.latent }
  let s := parSet (parCount s 8 4 1) 8 7 (wrd n)
  let s := raise s 0x0802 0 [wrd (latentCount s)]
  if 3 ≤ latentCount s then divergence n s
  else updPlate s fun p => { p with mode := .resync, cbuf := [], dq := [], retC := p.retP }

/-- RESYNC_DONE: Plate's register state has been copied and comparison restarts (R332). -/
def execResyncDone (s : State) : Host.Outcome State Fault Refusal :=
  .next (if s.plate.mode = .resync then
      updPlate s fun p => { p with
        mode := if p.splitTag ≠ none then .splitPending else .lockstep, regsC := p.regsP, marksC := p.marksP,
        retC := p.retP, cbuf := [], dq := [] }
    else s)

/-! Asynchronous inputs, interrupts and the watchdog (R333 to R336). -/

/-- A disagreement of the two cores' samples; more than 3 in 1 ms raise LOCKSTEP_INPUT (R334). -/
def disagreement (s : State) : State :=
  let s := updPlate s fun p => { p with disagree := s.now :: notOver s msTicks p.disagree }
  let s := parCount s 8 5 1
  if 3 < disagreeCount s then raise s 0x0803 0 [wrd (disagreeCount s)] else s

/-- Whether two samples of an input agree (R333). -/
def samplesAgree (what : AsyncInput) (p c : Nat) : Bool :=
  if what = .level then decide (p = c) else decide (p ≤ c + 64) && decide (c ≤ p + 64)

/-- ASYNC_INPUT_READ: the cores exchange their samples of an asynchronous input, and both use Plate's (R333). A read of global
time by the firmware fills its own capture register, both halves at once (R47). -/
def execAsyncInputRead (what : AsyncInput) (plate counter : Nat) (s : State) : Host.Outcome State Fault Refusal :=
  .next (
    if !coresRun s then s
    else
      let s := if what = .time then { s with tim := { s.tim with fwTime := plate } } else s
      if splitMode s.plate.mode || samplesAgree what plate counter then s else disagreement s)

/-- INTERRUPT_DECISION: Plate takes an interrupt and the cores compare their pending vectors (R335). -/
def execInterruptDecision (vecP vecC : Nat) (s : State) : Host.Outcome State Fault Refusal :=
  .next (if !compared s || decide (vecP = vecC) then s else disagreement s)

/-- 1 ms of TD0 at its fastest, in ticks. -/
def watchdogTicks : Nat := 388000

/-- WATCHDOG: 1 ms has passed without a service of the pair watchdog (R336). -/
def execWatchdog (s : State) : Host.Outcome State Fault Refusal :=
  .next (if (coresRun s || s.plate.mode = .resync || s.plate.wakeCk) ∧ s.pwr.sleep = .awake ∧ s.plate.wdTick + watchdogTicks ≤ s.now ∧ s.pwr.resetting = none ∧
      s.op ≠ .boot ∧ !s.plate.halted then pairFault 0x080A [] s else s)

/-- FOLIO_RESET_END: the reset of unit 0x01 ends; headers are answered again (R337). -/
def execFolioResetEnd (s : State) : Host.Outcome State Fault Refusal :=
  .next (if s.pwr.resetting = some .pair ∧ s.folio.inReset then { s with folio := { s.folio with inReset := false } } else s)

/-- PAIR_RESTART_DONE: the image is loaded again, the cores start in lock-step, READY is set and RESET_CAUSE written (R337,
R484). -/
def execPairRestartDone (s : State) : Host.Outcome State Fault Refusal :=
  .next (
    if s.pwr.resetting ≠ some .pair ∨ s.plate.mode ≠ .restarting then s
    else
      let s := { s with
        pwr := { s.pwr with resetting := none, lastReset := 5 },
        folio := { s.folio with inReset := false, hostBase := s.now } }
      let s := updPlate s fun p => { p with mode := .lockstep, retP := 0, retC := 0, retCk := 0, wdTick := s.now }
      let s := loadImage s.plate.bootSlot s
      record (setAttn s 0) 0x0F02 5 [])

/-! Split and join (R339 to R343). -/

/-- SPLIT (R127, R339). SPLIT while a split or a join is pending, and JOIN while one is pending, complete with STATE: R127 names
only the split and the joined pair (DESIGN CHOICE, log 59). -/
def bodySplit (tag : Nat) (_ws : List Word) (s : State) : CmdRes :=
  checked s [(decide (s.plate.mode = .split) || decide (s.plate.mode = .splitPending) || decide (s.plate.mode = .joining), stState)]
    (.wait (updPlate s fun p => { p with
      mode := if p.mode = .resync then .resync else .splitPending, splitTag := some tag }))

/-- The free core's task ends when a join begins (R342). -/
def joinStart (s : State) : State :=
  updPlate s fun p => { p with mode := .joining, taskResult := if p.taskResult = 1 then 4 else p.taskResult }

/-- JOIN (R127, R342); log 59 for a pair whose split or join is pending. -/
def bodyJoin (tag : Nat) (_ws : List Word) (s : State) : CmdRes :=
  checked s [(decide (s.plate.mode ≠ .split), stState)]
    (.wait (updPlate (joinStart s) fun p => { p with joinTag := some tag }))

/-- FREE_CORE_TASK_END: the free core's task ends with PASS, FAIL or FENCE (R341). -/
def execFreeCoreTaskEnd (res : Nat) (s : State) : Host.Outcome State Fault Refusal :=
  .next (if s.plate.mode = .split ∧ s.plate.taskResult = 1 ∧ (res = 2 ∨ res = 3 ∨ res = 5) then
      updPlate s fun p => { p with taskResult := res } else s)

/-- FREE_CORE_WATCHDOG: the free core's watchdog expires, 1 ms after the task began at the earliest, and its task ends with
FAIL (R336, R341). -/
def execFreeCoreWatchdog (s : State) : Host.Outcome State Fault Refusal :=
  .next (if s.plate.mode = .split ∧ s.plate.taskResult = 1 ∧ (!ticking s ∨ s.plate.taskTick + watchdogTicks ≤ s.now) then
      updPlate s fun p => { p with taskResult := 3 } else s)

/-! Debug (R344 to R346). -/

/-- Whether a debug session is unlocked. -/
def debugOn (s : State) : Bool := s.plate.debug = .unlocked

/-- A TAP instruction is selected; pairs that EXTEST held settle when it is left. -/
def selectTap (i : TapInstr) (s : State) : State := settlePairs (updPlate s fun p => { p with tap := i })

/-- TAP_BYPASS. -/
def execTapBypass (s : State) : Host.Outcome State Fault Refusal := .next (selectTap .bypass s)

/-- The IDCODE: version, part number, manufacturer and the bit that is always 1 (IEEE 1149.1; 11_plate_pair.md, Debug). -/
def idcode (s : State) : Word :=
  let part := match s.part with
    | .itc8120 => 0x8120 | .itc8112 => 0x8112 | .itc8104 => 0x8104
  wrd (Config.stepping.toNat % 16 * 2 ^ 28 + part * 2 ^ 12 + Config.jep106.toNat * 2 + 1)

/-- TAP_IDCODE: the identity code is shifted out. -/
def execTapIdcode (s : State) : Host.Outcome State Fault Refusal :=
  .next (updPlate (selectTap .idcode s) fun p => { p with tdo := [idcode s] })

/-- TAP_SAMPLE_PRELOAD. -/
def execTapSamplePreload (s : State) : Host.Outcome State Fault Refusal := .next (selectTap .samplePreload s)

/-- TAP_EXTEST: selected only while unlocked, in STANDBY or SAFE; SAFE_N is asserted and every pair is held at layer 2
(R351). -/
def execTapExtest (s : State) : Host.Outcome State Fault Refusal :=
  .next (if debugOn s ∧ (s.op = .standby ∨ s.op = .safe) then selectTap .extest s else s)

/-- TAP_RESET: the TAP returns to its reset state (R351). -/
def execTapReset (s : State) : Host.Outcome State Fault Refusal := .next (selectTap .idcode s)

/-- Whether no word of firmware slot `n` reads with a mark (R381). -/
def slotClean (s : State) (n : Nat) : Bool :=
  let away (w : Nat) : Bool := decide (8 * w < slotBase n) || decide (slotBase n + slotSize ≤ 8 * w)
  (s.mem.marks.all fun e => away e.1) && s.mem.errs.all fun e => away e.1 || decide (e.2 ≠ .multi)

/-- The words of firmware slot `n` are read (R380, R381): only those whose code words carry an error change anything. -/
def readSlot (n : Nat) (s : State) : State :=
  readCells ((s.mem.errs.filter fun e => decide (slotBase n ≤ 8 * e.1) && decide (8 * e.1 < slotBase n + slotSize)).map
    fun e => 8 * e.1) s

/-- Whether firmware slot `n` verifies: MRAM records that its image does, and no word of it has been lost since (R347,
R348). -/
def slotValid (s : State) (n : Nat) : Bool := slotClean s n && nvGet s 8 (0x100 + n) = 1 && decide ((nvGet s 8 0x103).toNat ≤ (nvGet s 8 (0x104 + n)).toNat)

/-- Whether the boot is held because no slot verifies (R478). -/
def bootStuck (s : State) : Bool := s.op = .boot && s.pwr.bootStep = 5 && !slotValid s 0 && !slotValid s 1

/-- UNLOCK_CHALLENGE: a new nonce and the serial number are read out; the previous nonce is invalid (R344). In BOOT it is
there only for the JTAG loader (R478, DEDUCED, log 24). -/
def execUnlockChallenge (s : State) : Host.Outcome State Fault Refusal :=
  .next (
    if s.op = .shutdown ∨ (s.op = .boot ∧ !bootStuck s) then s
    else
      let n := Config.nonce s.free
      let s := selectTap .challenge { s with free := s.free + 1 }
      updPlate s fun p => { p with
        nonce := some n, tdo := twoWords n.toNat ++ twoWords Config.serial.toNat })

/-- UNLOCK_RESPONSE: a 64-byte response after a challenge goes to its check, unless responses are blocked (R344). -/
def execUnlockResponse (ws : List Word) (s : State) : Host.Outcome State Fault Refusal :=
  .next (
    if s.plate.nonce = none ∨ ws.length ≠ 16 ∨ s.plate.debug ≠ .locked then s
    else updPlate (selectTap .response s) fun p => { p with nonce := none, debug := .checking })

/-- UNLOCK_VERIFIED: the signature check of a response ends (R344). -/
def execUnlockVerified (ok : Bool) (s : State) : Host.Outcome State Fault Refusal :=
  .next (
    if s.plate.debug ≠ .checking then s
    else if ok then record (updPlate s fun p => { p with debug := .unlocked }) 0x0808 0 []
    else updPlate s fun p => { p with debug := .blocked, blockTick := s.now })

/-- UNLOCK_BLOCK_END: 1 s after an invalid response, responses are taken again (R344). -/
def execUnlockBlockEnd (s : State) : Host.Outcome State Fault Refusal :=
  .next (if s.plate.debug = .blocked ∧ (!ticking s ∨ s.plate.blockTick + 400000000 ≤ s.now) then updPlate s fun p => { p with debug := .locked } else s)

/-- DEBUG_ACCESS: the debug register chain is selected, while unlocked. -/
def execDebugAccess (s : State) : Host.Outcome State Fault Refusal :=
  .next (if debugOn s then selectTap .debugAccess s else s)

/-- TAP_LOCK: the debug session ends (R344). -/
def execTapLock (s : State) : Host.Outcome State Fault Refusal :=
  .next (updPlate (selectTap .lock s) fun p => { p with debug := if p.debug = .unlocked then .locked else p.debug })

/-- A register written whole has no mark (R383, R387, log 69). -/
def unmark (m : BitVec 41) (r : Nat) : BitVec 41 := m &&& ~~~((1 : BitVec 41) <<< r)

/-- Counterproof applies the replay entries whose number it has reached (R346). -/
def applyReplay (s : State) : State :=
  let now := s.plate.replay.filter fun e => decide (e.num ≤ s.plate.retC)
  let later := s.plate.replay.filter fun e => !decide (e.num ≤ s.plate.retC)
  updPlate s fun p => { p with
    replay := later,
    dbgBusy := p.dbgBusy && now == [],
    regsC := now.foldl (fun t e => if e.reg < 41 then tblSet t 0 e.reg e.value else t) p.regsC,
    marksC := now.foldl (fun m e => unmark m e.reg) p.marksC }

/-- A debugger action enters the replay log, or is not taken when the log is full (R346). -/
def logAction (r : Nat) (v : Word) (act : State → State) (s : State) : State :=
  let s := applyReplay s
  if 64 ≤ s.plate.replay.length then updPlate s fun p => { p with dbgBusy := true }
  else
    applyReplay (updPlate (act s) fun p => { p with replay := p.replay ++ [{ num := p.retP, reg := r, value := v }] })

/-- The pair halts before the first instruction not yet retired (R345). -/
def haltPair (s : State) : State :=
  let s := updPlate s fun p => { p with halted := true, retC := if splitMode p.mode then p.retC else p.retP }
  raise (applyReplay s) 0x0809 0 [wrd (s.plate.retP + 1)]

/-- DEBUG_HALT (R345). -/
def execDebugHalt (s : State) : Host.Outcome State Fault Refusal :=
  .next (if debugOn s ∧ coresRun s then haltPair s else s)

/-- BREAKPOINT_HIT: a hit of an enabled breakpoint or watchpoint is a halt (R345). -/
def execBreakpointHit (slot : Nat) (s : State) : Host.Outcome State Fault Refusal :=
  .next (if debugOn s ∧ coresRun s ∧ slot < 6 ∧ tblGet s.plate.bps none slot ≠ none then haltPair s else s)

/-- DEBUG_RESUME: both cores continue, and the watchdog has a full 1 ms (R336, R345). -/
def execDebugResume (s : State) : Host.Outcome State Fault Refusal :=
  .next (if debugOn s ∧ s.plate.halted then
      updPlate (applyReplay s) fun p => { p with halted := false, wdTick := s.now } else s)

/-- DEBUG_STEP: each core retires one instruction and both halt again (R345). -/
def execDebugStep (s : State) : Host.Outcome State Fault Refusal :=
  .next (if debugOn s ∧ s.plate.halted then
      updPlate (applyReplay s) fun p => { p with retP := p.retP + 1, retC := if splitMode p.mode then p.retC else p.retP + 1 }
    else s)

/-- DEBUG_REGISTER_READ: Plate's value (R345). -/
def execDebugRegisterRead (r : Nat) (s : State) : Host.Outcome State Fault Refusal :=
  .next (if debugOn s ∧ s.plate.halted ∧ r < 41 then
      updPlate s fun p => { p with dbgRead := tblGet p.regsP 0 r } else s)

/-- DEBUG_REGISTER_WRITE: applied to Plate at once and logged for Counterproof (R346). -/
def execDebugRegisterWrite (r : Nat) (v : Word) (s : State) : Host.Outcome State Fault Refusal :=
  .next (if debugOn s ∧ s.plate.halted ∧ r < 41 then
      logAction r v (fun s => updPlate s fun p => { p with regsP := tblSet p.regsP 0 r v, marksP := unmark p.marksP r }) s else s)

/-- DEBUG_BREAKPOINT_SET: 4 breakpoints and 2 watchpoints on Plate's addresses (R345, R346). -/
def execDebugBreakpointSet (slot addr : Nat) (on : Bool) (s : State) : Host.Outcome State Fault Refusal :=
  .next (if debugOn s ∧ slot < 6 then
      logAction (41 + slot) (wrd addr) (fun s => updPlate s fun p => { p with
        bps := tblSet p.bps none slot (if on then some addr else none) }) s else s)

/-- DEBUG_MEMORY_READ: through the debug port, with no replay (R345). A read that LPDDR5 holds waits; offline it gives
zeros (R392). -/
def execDebugMemoryRead (addr : Nat) (s : State) : Host.Outcome State Fault Refusal :=
  .next (
    if !debugOn s || decide (addr % 4 ≠ 0) || (regionAt s addr).isNone then s
    else if namesLp addr && !s.mem.lpOnline then updPlate s fun p => { p with dbgRead := 0 }
    else if lpWaits s addr 1 false then s
    else
      let s := demandRead (lpNote s addr) addr
      let w := hostWord s addr
      { updPlate s fun p => { p with dbgRead := w } with free := s.free + 2 ^ 36 })

/-- DEBUG_MEMORY_WRITE: one write through the debug port while halted with no drive in RUN; refused otherwise (R345), as
is a write of MRAM outside the window of Tj (R393). -/
def execDebugMemoryWrite (addr : Nat) (v : Word) (s : State) : Host.Outcome State Fault Refusal :=
  .next (
    if !debugOn s || decide (addr % 4 ≠ 0) || (regionAt s addr).isNone then s
    else if !s.plate.halted || drivesWith s (fun d => d.dst = .run) ≠ [] then updPlate s fun p => { p with dbgRefused := true }
    else if mramShut s addr then mramRefuse (updPlate s fun p => { p with dbgRefused := true })
    else if namesLp addr && !s.mem.lpOnline then updPlate s fun p => { p with dbgRefused := false }
    else if lpWaits s addr 1 true then s
    else touchSlot addr (storeRange addr [v] (updPlate (lpNote s addr) fun p => { p with dbgRefused := false })))

/-! Firmware image and update (R130, R347, R348). -/

/-- The slot that is not running. -/
def inactiveSlot (s : State) : Nat := 1 - s.plate.bootSlot

/-! SHA-256 (FIPS 180-4), which R347 names. Its constants are the first 32 bits of the fractional parts of the cube roots of the
first 64 primes and, for the initial value, of the square roots of the first 8. -/

/-- The first 64 primes. -/
def shaPrimes : List Nat :=
  [2, 3, 5, 7, 11, 13, 17, 19, 23, 29, 31, 37, 41, 43, 47, 53, 59, 61, 67, 71, 73, 79, 83, 89, 97, 101, 103, 107, 109, 113,
   127, 131] ++
  [137, 139, 149, 151, 157, 163, 167, 173, 179, 181, 191, 193, 197, 199, 211, 223, 227, 229, 233, 239, 241, 251, 257, 263,
   269, 271, 277, 281, 283, 293, 307, 311]

/-- The largest number from `r` that the bits below `k` can reach and whose `e`-th power does not exceed `n`. -/
def rootFrom (e n r : Nat) (k : Nat) : Nat :=
  match k with
  | 0 => r
  | j + 1 => rootFrom e n (if (r + 2 ^ j) ^ e ≤ n then r + 2 ^ j else r) j

/-- The first 32 bits of the fractional part of the `e`-th root of `p`. -/
def rootBits (e p : Nat) : Word := wrd (rootFrom e (p * 2 ^ (32 * e)) 0 37)

/-- A word rotated right by each of three counts, added without carry. -/
def spin (w : Word) (a b c : Nat) : Word := w.rotateRight a ^^^ w.rotateRight b ^^^ w.rotateRight c
/-- A word rotated right by two counts and shifted right by a third, added without carry. -/
def spill (w : Word) (a b c : Nat) : Word := w.rotateRight a ^^^ w.rotateRight b ^^^ w >>> c

/-- The eight working variables, and the sixteen words of the message schedule that the next rounds take. -/
structure ShaState where
  abcd : Word × Word × Word × Word
  efgh : Word × Word × Word × Word
  sched : List Word

/-- One round with its constant: the first word of the schedule is used, and the word sixteen places on joins its end. -/
def shaStep (x : ShaState) (k : Word) : ShaState :=
  let (a, b, c, d) := x.abcd
  let (e, f, g, h) := x.efgh
  let w := x.sched.headD 0
  let pick := g ^^^ (e &&& (f ^^^ g))
  let vote := (a &&& b) ||| (c &&& (a ||| b))
  let load := w + k + h + pick + spin e 6 11 25
  let far := w + spill (x.sched.getD 1 0) 7 18 3 + x.sched.getD 9 0 + spill (x.sched.getD 14 0) 17 19 10
  { abcd := (load + vote + spin a 2 13 22, a, b, c), efgh := (d + load, e, f, g), sched := x.sched.tail ++ [far] }

/-- One block of 16 big-endian words joins the hash value `v`. -/
def shaBlock (v blk : List Word) : List Word :=
  let q (i : Nat) : Word := v.getD i 0
  let y := (shaPrimes.map (rootBits 3)).foldl shaStep { abcd := (q 0, q 1, q 2, q 3), efgh := (q 4, q 5, q 6, q 7), sched := blk }
  let (a, b, c, d) := y.abcd
  let (e, f, g, h) := y.efgh
  [q 0 + a, q 1 + b, q 2 + c, q 3 + d, q 4 + e, q 5 + f, q 6 + g, q 7 + h]

/-- Four bytes as a big-endian word. -/
def beWords (l : List Nat) : List Word :=
  match l with
  | a :: b :: c :: d :: r => wrd (a * 2 ^ 24 + b * 2 ^ 16 + c * 2 ^ 8 + d) :: beWords r
  | _ => []

/-- `n` blocks of a padded message are hashed. -/
def shaBlocks (n : Nat) (h ws : List Word) : List Word :=
  match n with
  | 0 => h
  | k + 1 => shaBlocks k (shaBlock h (ws.take 16)) (ws.drop 16)

/-- SHA-256 of a list of bytes, as 8 big-endian words. -/
def sha256 (bytes : List Nat) : List Word :=
  let n := bytes.length
  let zeros := (119 - n % 64) % 64
  let bits := 8 * n
  let pad := 0x80 :: (List.replicate zeros 0 ++ (List.range 8).map fun i => bits / 2 ^ (56 - 8 * i) % 256)
  let ws := beWords (bytes ++ pad)
  shaBlocks (ws.length / 16) ((shaPrimes.take 8).map (rootBits 2)) ws

/-- Byte `o` of the image in slot `n`. -/
def imgByte (s : State) (n o : Nat) : Nat := (readByte s (slotBase n + o)).toNat
/-- Word `o` of the image in slot `n`. -/
def imgWord (s : State) (n o : Nat) : Word := readWord s (slotBase n + o)
/-- Whether image bytes `lo` to `hi - 1` are 0. -/
def imgZero (s : State) (n lo hi : Nat) : Bool := (List.range (hi - lo)).all fun i => imgByte s n (lo + i) = 0

/-- The bit of this part in PARTS. -/
def partBit (p : Part) : Nat := match p with
  | .itc8120 => 0 | .itc8112 => 1 | .itc8104 => 2

/-- The checks of R347 on slot `n` but for the signature, with the length given to FW_BEGIN. -/
def imageVerifies (s : State) (n len : Nat) : Bool :=
  slotClean s n && imgWord s n 0 = 0x5A554D49 && decide (imgByte s n 4 = 1) && decide (imgByte s n 5 = 0) &&
    imgZero s n 6 8 && imgZero s n 28 64 && imgZero s n 96 192 &&
    decide ((imgWord s n 16).toNat = len) && decide (512 ≤ len) && wbit (imgWord s n 20) (partBit s.part) &&
    !hasBits (imgWord s n 20) 0xFFFFFFF8 &&
    decide ((nvGet s 8 0x103).toNat ≤ (imgWord s n 12).toNat) && decide ((imgWord s n 12).toNat ≤ 63) &&
    decide (beWords ((List.range 32).map fun i => imgByte s n (64 + i)) =
      sha256 ((List.range (len - 256)).map fun i => imgByte s n (256 + i)))

/-- Whether a command that writes MRAM is refused: a debug session is unlocked, or Tj lies outside its window (R130). -/
def mramDenied (s : State) : Bool := debugOn s || !mramOpen s

/-- A command that writes MRAM is refused; outside the window of Tj MRAM_WRITE_REFUSED is raised (R130, R393). -/
def denyMram (s : State) : CmdRes := .done stDenied [] (if mramOpen s then s else mramRefuse s)

/-- FW_BEGIN: a session opens, and the inactive slot is erased (R130). -/
def bodyFwBegin (ws : List Word) (s : State) : CmdRes :=
  let len := (pw ws 0).toNat
  if mramDenied s then denyMram s
  else checked s [(decide (len % 4 ≠ 0) || decide (len < 4) || decide (slotSize < len), stBadParam)]
    (let n := inactiveSlot s
     let lo := slotBase n
     let s := { s with mem := { s.mem with
       cells := s.mem.cells.filter fun c => !(decide (lo ≤ c.1) && decide (c.1 < lo + slotSize)) } }
     let s := nvSet (nvSet (freshWords s lo (lo + slotSize)) 8 (0x100 + n) 0) 8 (9 + n) 0
     .done stOk [] (updPlate s fun p => { p with session := some len }))

/-- FW_DATA: image words are written at a byte offset (R130). -/
def bodyFwData (ws : List Word) (s : State) : CmdRes :=
  match s.plate.session with
  | none => refuse stState s
  | some len =>
    let o := (pw ws 0).toNat
    if mramDenied s then denyMram s
    else checked s [(decide (o % 4 ≠ 0) || decide (len < o + 4 * ws.tail.length), stBadParam)]
      (.done stOk [] (storeRange (slotBase (inactiveSlot s) + o) ws.tail s))

/-- FW_COMMIT: the inactive slot is verified and marked to boot, or the session ends with DENIED (R130, R347). Whether the
signature is good is a free value: the key is not given (log 26). -/
def bodyFwCommit (_ws : List Word) (s : State) : CmdRes :=
  match s.plate.session with
  | none => refuse stState s
  | some len =>
    if mramDenied s then denyMram s
    else
      let n := inactiveSlot s
      let s := readSlot n s
      let good := imageVerifies s n len && Config.freeBit s.free
      let s := updPlate { s with free := s.free + 1 } fun p => { p with session := none }
      if good then
        .done stOk [] (nvSet (nvSet (nvSet (nvSet s 8 (0x100 + n) 1) 8 0x102 (wrd n)) 8 (9 + n) (imgWord s n 8))
          8 (0x104 + n) (imgWord s n 12))
      else .done stDenied [] s

/-- FW_ABORT: the session ends (R130). -/
def bodyFwAbort (_ws : List Word) (s : State) : CmdRes :=
  match s.plate.session with
  | none => refuse stState s
  | some _ => .done stOk [] (updPlate s fun p => { p with session := none })

/-! Parameters of unit 0x08. -/

/-- The check of a write to a parameter of unit 0x08 (R341). -/
def check08 (s : State) (i : Nat) (v : Word) : Nat :=
  if i = 0xB then
    (if s.plate.mode ≠ .split ∨ s.plate.taskResult = 1 then stState else if 2 < v.toNat then stBadParam else stOk)
  else stOk

/-- The write of a parameter of unit 0x08 lands: a task starts on the free core (R341). -/
def write08 (s : State) (i : Nat) (v : Word) : State :=
  let s := parSet s 8 i v
  if i = 0xB then updPlate s fun p => { p with
    task := field v 7 0, taskTick := s.now, taskResult := if field v 7 0 = 0 then 0 else 1 } else s

/-- MODE of PAIR_STATUS. -/
def pairModeCode (m : PairMode) : Nat := match m with
  | .lockstep => 0 | .splitPending => 1 | .split => 2 | .joining => 3 | .resync => 4 | .restarting => 5

/-- The present lag, 0 to 8; 0 while split or halted (R325). -/
def pairLag (s : State) : Nat :=
  if splitMode s.plate.mode || s.plate.halted then 0 else min 8 (s.plate.retP - s.plate.retC)

/-- The value of a parameter of unit 0x08. -/
def read08 (s : State) (i : Nat) : Word :=
  let p := s.plate
  if i = 0 then
    wrd (pairModeCode p.mode * 2 ^ 29 + b2n p.halted * 2 ^ 28 + b2n (debugOn s) * 2 ^ 27 + pairLag s * 2 ^ 20 +
      min 255 (latentCount s) * 2 ^ 8 + min 255 (disagreeCount s))
  else if i = 1 then wrd p.retP
  else if i = 8 then
    wrd (field (nvGet s 8 0x103) 7 0 * 2 ^ 24 + b2n p.session.isSome * 2 ^ 15 + b2n (slotValid s 1) * 2 ^ 12 +
      b2n (slotValid s 0) * 2 ^ 11 + field (nvGet s 8 0x102) 0 0 * 2 ^ 10 + p.bootSlot * 2 ^ 9 + b2n p.fallback * 2 ^ 8)
  else if i = 9 then (if slotValid s 0 then nvGet s 8 9 else 0)
  else if i = 0xA then (if slotValid s 1 then nvGet s 8 0xA else 0)
  else if i = 0xC then wrd (p.taskResult * 2 ^ 28 + p.task)
  else parGet s 8 i

/-- A read of RETIRED_LO captures both halves. -/
def captureRetired (s : State) : State := parSet s 8 2 (wrd (s.plate.retP / 2 ^ 32))

end Sys2Proof.Machine
end

