-- ==== Sys2Proof/Machine/Handover.lean ====
section
/-!
DEFINITION. The hand-over instants of a pair: what changes at th, at th′ and at each hd (R417 to R421). The cells that
lead to them are in Machine/Margin.lean.
-/
namespace Sys2Proof.Machine

/-- The state with unit 0x0B changed. -/
def updMarg (s : State) (f : Margin → Margin) : State := { s with marg := f s.marg }

/-- What a ring head keeps from frames of the other end is dropped: this end becomes the sender, or stops being it. -/
def ringFresh (r : Nat) (s : State) : State :=
  s.updRing r fun g => { g with
    farAt := none, farDue := false, frags := [], next := none, last := none, older := [], lateFold := false, foldDue := none,
    safeDue := false, req := none, iPrev := none, lastNormal := [], returned := true, missRun := 0, shortRun := 0, fullRun := 0, farMiss := 0 }

/-- Every ring starts afresh after a hand-over, but for one whose drive has yet to change hands. -/
def ringsFresh (s : State) : State :=
  forUpTo 16 (fun r s => match ringDrive s r with
    | some d => if (s.drive d).hd = none then ringFresh r s else s
    | none => ringFresh r s) s

/-- This device becomes the active one and time master, without a step (R51, R420). -/
def becomeActive (s : State) : State :=
  { updMarg s fun m => { m with role := 1, ho := .none } with
    tim := { s.tim with master := true, stepDue := false, slew16 := 0, alignBad := 0 } }

/-- This device becomes the standby and follows; alignment holds through the change (R51, R421). -/
def becomeStandby (s : State) : State :=
  { updMarg s fun m => { m with role := 2, ho := .none } with
    tim := { s.tim with master := false, alignGood := 0, alignBad := 0, stepDue := false, slew16 := 0 },
    so := { s.so with ownN := false } }

/-- The drives that this device takes at a hand-over: those that the partner had in RUN and that are IDLE here (R417). -/
def takenDrives (s : State) : List Nat :=
  below 4 fun d => s.marg.partnerRun.testBit d && hasArch (s.drive d) && decide ((s.drive d).dst = .idle)

/-- Take-over at th′ (R417, R419, R420): the drives enter RUN at once, and OWN_N waits for the partner's release. -/
def takeOver (trig : Nat) (s : State) : State :=
  let ds := takenDrives s
  let s := ringsFresh (becomeActive s)
  let s := updMarg s fun m => { m with hoDue := true, hoTrig := trig, ownDue := true, hoTh := s.now }
  let s := forUpTo 4 (fun d s => s.updDrive d fun v => { v with hd := none }) s
  let s := forEach ds (fun d s => enterRun d (s.updDrive d fun v => { v with l4From := some s.now })) s
  if ds = [] then s else setOp s .run

/-- The instant th of a commanded hand-over (R418): roles and OWN_N are exchanged. With no drive that changes hands
HANDOVER_DONE follows at once (R420). -/
def hoInstant (s : State) : State :=
  if s.marg.ho ≠ .accepted ∨ s.now < s.marg.hoTh then s
  else if s.marg.role = 1 then ringsFresh (becomeStandby s)
  else
    let s := setOwnN true (ringsFresh (becomeActive s))
    let s := updMarg s fun m => { m with hoDue := true, hoTrig := 2 }
    if (below 4 fun d => (s.drive d).hd ≠ none) = [] then handoverDone s else s

/-- Drive `d` changes hands at its period start at or after hd (R418), and layer 4 opens to the pairs of a drive taken
over once OWN_N has been asserted for 1.0 µs (R420). -/
def handDrive (d : Nat) (s : State) : State :=
  let s := hoInstant s
  let v := s.drive d
  let s := match v.l4From with
    | some t => if t ≤ s.now ∧ !s.marg.ownDue then s.updDrive d fun v => { v with l4From := none } else s
    | none => s
  match v.hd with
  | some t =>
    if s.now < t then s
    else
      let s := s.updDrive d fun v => { v with hd := none }
      if v.dst = .run ∧ s.marg.role = 2 then
        forEach (driveRings s d) ringFresh (leaveRun (s.updDrive d fun v => { v with dst := .idle }))
      else if v.dst = .idle ∧ s.marg.role = 1 then
        setOp (enterRun d (forEach (driveRings s d) ringFresh s)) .run
      else s
  | none => s

end Sys2Proof.Machine
end

