-- ==== Sys2Proof/Machine/Hatch.lean ====
section
/-!
DEFINITION. Hatch: timebases, compares and edges, dead-time bands, forcing, the modulator front, trips, and
the commands and events of 07_hatch.md.
-/
namespace Sys2Proof.Machine

/-! Timebase registers. -/
/-- TB_CFG. -/
def tbCfg (s : State) (t : Nat) : Word := parGet s 5 (0x100 + 16 * t)
/-- PER. -/
def tbPer (s : State) (t : Nat) : Nat := parNat s 5 (0x101 + 16 * t)
/-- Whether a TB_CFG word counts up-down. -/
def cfgUpDown (w : Word) : Bool := wbit w 30
/-- Whether the timebase counts up-down. -/
def tbUpDown (s : State) (t : Nat) : Bool := cfgUpDown (tbCfg s t)
/-- The compare word CMP `k`. -/
def tbCmp (s : State) (t k : Nat) : Word := parGet s 5 (0x102 + 16 * t + k)
/-- MIN_ON. -/
def tbMinOn (s : State) (t : Nat) : Nat := parField s 5 (0x108 + 16 * t) 15 0
/-- MIN_OFF. -/
def tbMinOff (s : State) (t : Nat) : Nat := parField s 5 (0x108 + 16 * t) 31 16
/-- The period length of a PER in a counting mode (*Counting modes*). -/
def perLen (updown : Bool) (per : Nat) : Nat := if updown then 2 * per else per
/-- The period length L of a timebase. -/
def tbLen (s : State) (t : Nat) : Nat := perLen (tbUpDown s t) (tbPer s t)
/-- Whether the count has reached the start of the present period of timebase `t`: after a negative step it may not have (R37). -/
def tbBegun (s : State) (t : Nat) : Bool := decide ((s.tb t).t0 ≤ (s.now : Int))
/-- The offset in the present period, in ticks. -/
def tbOffset (s : State) (t : Nat) : Nat := ((s.now : Int) - (s.tb t).t0).toNat
/-- The count at an offset (*Counting modes*). -/
def countAt (s : State) (t o : Nat) : Nat := if tbUpDown s t ∧ tbPer s t < o then 2 * tbPer s t - o else o

/-- The effective value of a compare (R214): held inactive, held active, or a value in 1/16 tick. -/
inductive Eff where
  | zero | full
  | val (e16 : Nat)
  deriving DecidableEq, Repr

/-- The effective value of a compare word under the limits of its timebase (R214, *effective*). -/
def effective (w : Word) (per minOn minOff : Nat) (zeroCode noFine : Bool) : Eff :=
  let cmp := field w 27 4
  let fine := if noFine then 0 else field w 3 0
  if zeroCode ∧ field w 27 0 = 0 then .zero
  else if cmp = 0xFFFFFF then .full
  else
    let v := 16 * cmp + fine
    if v < 16 * minOn then .val (16 * minOn)
    else if 16 * (per - minOff) < v then .val (16 * (per - minOff))
    else .val v

/-- Whether a zero code in compare `k` of timebase `t` is the special 0 %; it is after reset (R214). -/
def zeroCode (s : State) (t k : Nat) : Bool := tblGet s.hatch.zc true (8 * t + k)

/-- The compare that a pair uses (PAIR_CFG.CMP_SEL). -/
def pairSel (s : State) (p : Nat) : Nat := field (pairCfg s p) 28 26

/-- The effective value of a pair. -/
def pairEff (s : State) (p : Nat) : Eff :=
  let t := pairTb s p
  effective (tbCmp s t (pairSel s p)) (tbPer s t) (tbMinOn s t) (tbMinOff s t) (zeroCode s t (pairSel s p)) (s.tb t).dlFault

/-- REF of a pair takes a level. The dead-time band chosen last takes effect at the edge (R224), and at layer 4 the
outputs follow REF (R222). -/
def setRef (s : State) (p : Nat) (v : Bool) : State :=
  if (s.pair p).ref = v then s
  else
    let s := s.updPair p fun q => { q with ref := v, band := q.newBand.getD q.band, newBand := none }
    if (s.pair p).layer = 4 then refPair s p v else s

/-- A new value lands for a pair at offset `w` (R217). -/
def landPair (s : State) (p w : Nat) : State :=
  let t := pairTb s p
  let per16 := 16 * tbPer s t
  match pairEff s p with
  | .zero => setRef (s.updPair p fun q => { q with armOn := none, armOff := none }) p false
  | .full => setRef (s.updPair p fun q => { q with armOn := none, armOff := none, turnedOn := true }) p true
  | .val e =>
    let q := s.pair p
    if !q.ref then
      (if q.turnedOn then s
       else s.updPair p fun q => { q with armOn := if 16 * w ≤ per16 - e then some (per16 - e) else none })
    else if tbUpDown s t && !q.turnedOff then
      s.updPair p fun q => { q with armOff := if 16 * w ≤ per16 + e then some (per16 + e) else none }
    else s

/-- A pair at the start of a period: E full holds REF active, any other value starts it inactive with its turn-on
armed, and edges below `phase` are behind (R212, R217). -/
def startPair (s : State) (p phase : Nat) : State :=
  let t := pairTb s p
  let s := s.updPair p fun q => { q with turnedOn := false, turnedOff := false, armOn := none, armOff := none }
  match pairEff s p with
  | .full => setRef (s.updPair p fun q => { q with turnedOn := true }) p true
  | .zero => setRef s p false
  | .val e =>
    let a := 16 * tbPer s t - e
    setRef (s.updPair p fun q => { q with armOn := if 16 * phase ≤ a then some a else none }) p false

/-- Whether timebase `t` follows master `m` (R212). -/
def follows (s : State) (t m : Nat) : Bool := wbit (tbCfg s t) 27 && field (tbCfg s t) 29 28 = m && t ≠ m

/-- The timebase of the drive that uses ring `r`. -/
def ringTimebase (s : State) (r : Nat) : Option Nat := (ringDrive s r).map fun d => driveTb (s.drive d)

/-- Far-end service that is due on a standby begins on the rings of timebase `t` (R270). -/
def farServe (t : Nat) (s : State) : State :=
  forEach (below 16 fun r => (s.ring r).farDue && s.marg.role = 2 && ringTimebase s r = some t)
    (fun r s => s.updRing r fun g => { g with farDue := false, farAt := some s.now }) s

/-- What waits for a period start of timebase `t`, apart from its pairs: the drives on it, and far-end service (R211, R270). -/
def periodDrives (t : Nat) (s : State) : State :=
  farServe t (forUpTo 4 (fun d s => if hasArch (s.drive d) ∧ driveTb (s.drive d) = t then handDrive d (drivePeriod d s) else s) s)

/-- A period of timebase `t` starts at offset `phase`: PERIOD_COUNT, its pairs, what waits for a period start, far-end
service that is due on a standby (R270), and the timebases that follow it (R210, R212, R225). -/
def startPeriod (fuel : Nat) (t phase : Nat) (s : State) : State :=
  match fuel with
  | 0 => s
  | k + 1 =>
    let s := s.updTb t fun b => { b with t0 := (s.now : Int) - (phase : Int), running := true, startTick := s.now }
    let s := parWrap s 5 (0x10B + 16 * t)
    let s := forUpTo 12 (fun p s => if pairTb s p = t then startPair s p phase else s) s
    let s := periodDrives t s
    let s := forUpTo 12 (fun p s => if pairTb s p = t then periodPair s p else s) s
    let s := if drivesWith s isString = [] ∧ (below 12 fun p => (s.pair p).layer = 4) ≠ [] then handoverDone s else s
    forUpTo 4 (fun m s =>
      let ph := field (tbCfg s m) 24 0
      if follows s m t && (s.tb m).running && tbOffset s m ≠ ph then startPeriod k m ph s else s) s

/-- The timebase stops: REF of its pairs is inactive, and what waits for a period start happens at once (R211,
R225). -/
def stopTimebase (t : Nat) (s : State) : State :=
  let s := s.updTb t fun b => { b with running := false }
  let s := forUpTo 12 (fun p s => if pairTb s p = t then
      setRef (s.updPair p fun q => { q with armOn := none, armOff := none }) p false else s) s
  let s := periodDrives t s
  forUpTo 12 (fun p s => if pairTb s p = t then settlePair s p else s) s

/-- A value has landed on timebase `t`: past the new period end the period ends at once, otherwise each pair
recomputes its edges (R217, R218). -/
def landTimebase (t : Nat) (s : State) : State :=
  if !(s.tb t).running then s
  else if tbLen s t ≤ tbOffset s t then startPeriod 5 t 0 s
  else forUpTo 12 (fun p s => if pairTb s p = t then landPair s p (tbOffset s t) else s) s

/-- The clamp count of pair `p` rises when its effective value differs from the written one (R215). -/
def countClamp (p : Nat) (s : State) : State :=
  match effective (tbCmp s (pairTb s p) (pairSel s p)) (tbPer s (pairTb s p)) (tbMinOn s (pairTb s p))
      (tbMinOff s (pairTb s p)) (zeroCode s (pairTb s p) (pairSel s p)) false with
  | .val e =>
    if e = field (tbCmp s (pairTb s p) (pairSel s p)) 27 0 then s
    else parOr (parCount s 5 (0x209 + 16 * p) 1) 5 (0x208 + 16 * p) 0x400000
  | _ => s

/-- Whether a write of rank `r` of register `k` of timebase `t` (0 to 5 a compare, 6 PER) would apply before one that has landed at
this tick, and is therefore not in force: SET_PARAM has rank 0, the modulator front 1, HATCH_FRAME 2 (R216). -/
def overtaken (s : State) (t k r : Nat) : Bool :=
  let x := tblGet s.hatch.wrote (0, 0) (8 * t + k)
  decide (x.1 = s.now) && decide (r < x.2)

/-- A write of rank `r` of register `k` of timebase `t` has landed. -/
def noteWrite (t k r : Nat) (s : State) : State :=
  { s with hatch := { s.hatch with wrote := tblSet s.hatch.wrote (0, 0) (8 * t + k) (s.now, r) } }

/-- Compare `k` of timebase `t` is stored by a write of rank `r`; `special` says whether a zero code is the special 0 % (R214,
R216). -/
def storeCmp (s : State) (t k r : Nat) (v : Word) (special : Bool) : State :=
  if overtaken s t k r then s
  else
    let s := noteWrite t k r (parSet s 5 (0x102 + 16 * t + k) v)
    { s with hatch := { s.hatch with zc := tblSet s.hatch.zc true (8 * t + k) special } }

/-- PER of timebase `t` is stored by a write of rank `r` (R216). -/
def storePer (s : State) (t r : Nat) (v : Word) : State :=
  if overtaken s t 6 r then s else noteWrite t 6 r (parSet s 5 (0x101 + 16 * t) v)

/-- Compares of `ks` have been written on timebase `t`: clamp counts, then the landing. -/
def landCompares (t : Nat) (ks : List Nat) (s : State) : State :=
  let s := forUpTo 12 (fun p s => if pairTb s p = t ∧ ks.contains (pairSel s p) then countClamp p s else s) s
  landTimebase t s

/-! Ring-period limits (R213, R241). -/

/-- NODES of ring `r`. -/
def ringNodes (s : State) (r : Nat) : Nat := parField s 6 (0x100 + 16 * r) 24 16
/-- Whether a ring period of `len` ticks is allowed for a list of rings (R23, R241). -/
def ringPeriodOk (s : State) (rings : List Nat) (len : Nat) : Bool :=
  decide (len ≤ 400000) && decide ((if rings.any fun r => decide (128 < ringNodes s r) then 20000 else 10000) ≤ len)
/-- Whether a period length is allowed on timebase `t` for every string drive it carries (R213). -/
def stringLenOk (s : State) (t len : Nat) : Bool := (stringDrivesOn s t).all fun d => ringPeriodOk s (driveRings s d) len
/-- Whether a string drive on timebase `t` is in RUN or STOPPING (R213). -/
def stringRunsOn (s : State) (t : Nat) : Bool := (stringDrivesOn s t).any fun d => driveRuns (s.drive d)

/-- Whether PER is allowed on timebase `t` (R210, R212, R213). -/
def perOk (s : State) (t per : Nat) : Bool :=
  decide (16 ≤ per) && decide (per ≤ 0xFFFFFE) && decide (tbMinOn s t + tbMinOff s t ≤ per) &&
    decide (field (tbCfg s t) 24 0 < perLen (tbUpDown s t) per) && stringLenOk s t (perLen (tbUpDown s t) per)

/-- Whether a compare word is allowed: full scale carries no FINE (R214). -/
def cmpOk (w : Word) : Bool := !(decide (field w 27 4 = 0xFFFFFF) && decide (field w 3 0 ≠ 0))

/-- Whether a TB_CFG word is allowed (R212, R213). A timebase that does not follow may name any SYNC_TB, as its
reset value does. -/
def tbCfgOk (s : State) (t : Nat) (w : Word) : Bool :=
  let len := perLen (cfgUpDown w) (tbPer s t)
  let m := field w 29 28
  decide (field w 24 0 < len) && stringLenOk s t len &&
    !(wbit w 27 && (m == t || (wbit (tbCfg s m) 27 && field (tbCfg s m) 29 28 == t)))

/-- BOUND1 to BOUND4 of pair `p` (DT_BOUND_A, DT_BOUND_B). -/
def boundsOf (a b : Word) : List Nat := [field a 13 0, field a 29 16, field b 13 0, field b 29 16]
/-- Whether the bounds are strictly ascending, or strictly descending for an NTC sensor (R223). -/
def boundsOk (ntc : Bool) (l : List Nat) : Bool :=
  match l with
  | a :: b :: r => (if ntc then decide (b < a) else decide (a < b)) && boundsOk ntc (b :: r)
  | _ => true

/-- Whether a PAIR_CFG word is allowed for pair `p` (R223, R228, *PAIR_CFG*). -/
def pairCfgOk (s : State) (p : Nat) (w : Word) : Bool :=
  decide (field w 28 26 ≤ 5) && decide (field w 23 21 ≤ 4) &&
    !(wbit w 31 && (below 12 fun o => o ≠ p && wbit (pairCfg s o) 31 && pairTb s o = field w 25 24 &&
        pairSel s o = field w 28 26) ≠ []) &&
    (!wbit w 19 || boundsOk (wbit w 20) (boundsOf (parGet s 5 (0x206 + 16 * p)) (parGet s 5 (0x207 + 16 * p))))

/-- The check of a write to a parameter of unit 0x05, beside reserved bits and access (0: allowed). -/
def check05 (s : State) (i : Nat) (v : Word) : Nat :=
  if 0x100 ≤ i ∧ i < 0x140 then
    (let t := (i - 0x100) / 16
     let w := i % 16
     if w = 0 then
       (if stringRunsOn s t && cfgUpDown v != tbUpDown s t then stState else if tbCfgOk s t v then stOk else stBadParam)
     else if w = 1 then
       (if stringRunsOn s t && decide (v.toNat ≠ tbPer s t) then stState else if perOk s t v.toNat then stOk else stBadParam)
     else if w ≤ 7 then (if cmpOk v then stOk else stBadParam)
     else if w = 8 then (if field v 15 0 + field v 31 16 ≤ tbPer s t then stOk else stBadParam)
     else stOk)
  else if 0x200 ≤ i ∧ i < 0x2C0 then
    (let p := (i - 0x200) / 16
     let w := i % 16
     if w = 0 then (if pairCfgOk s p v then stOk else stBadParam)
     else if w = 6 then
       (if !wbit (pairCfg s p) 19 || boundsOk (wbit (pairCfg s p) 20) (boundsOf v (parGet s 5 (i + 1))) then stOk else stBadParam)
     else if w = 7 then
       (if !wbit (pairCfg s p) 19 || boundsOk (wbit (pairCfg s p) 20) (boundsOf (parGet s 5 (i - 1)) v) then stOk else stBadParam)
     else stOk)
  else if 0x300 ≤ i ∧ i < 0x310 ∧ i % 4 ≠ 0 then (if fFinite v then stOk else stBadParam)
  else stOk

/-- The dead-time band of a pair is chosen; a change raises DEADTIME_BAND and takes effect at the next REF edge
(R224). -/
def setBand (s : State) (p b : Nat) : State :=
  let q := s.pair p
  if q.newBand.getD q.band = b then s
  else recordUntested (s.updPair p fun q => { q with newBand := some b }) 0x0501 p [wrd b]

/-- Pair `p` may have come to another timebase or compare: on a stopped timebase its REF is inactive (R211), on a running one its
edges are computed again, as at a landing (R217). -/
def movePair (p : Nat) (s : State) : State :=
  if (s.tb (pairTb s p)).running then landPair s p (tbOffset s (pairTb s p))
  else setRef (s.updPair p fun q => { q with armOn := none, armOff := none }) p false

/-- The write of a parameter of unit 0x05 lands (R211, R215 to R218, R223, R225). -/
def write05 (s : State) (i : Nat) (v : Word) : State :=
  if 0x100 ≤ i ∧ i < 0x140 then
    (let t := (i - 0x100) / 16
     let w := i % 16
     if w = 0 then
       (let s := parSet s 5 i v
        if wbit v 31 && !(s.tb t).running then startPeriod 5 t 0 s
        else if !wbit v 31 then stopTimebase t s
        else landTimebase t s)
     else if w = 1 then landCompares t [0, 1, 2, 3, 4, 5] (storePer s t 0 v)
     else if w ≤ 7 then landCompares t [w - 2] (storeCmp s t (w - 2) 0 v true)
     else if w = 8 then landTimebase t (parSet s 5 i v)
     else parSet s 5 i v)
  else if 0x200 ≤ i ∧ i < 0x2C0 ∧ i % 16 = 0 then
    (let p := (i - 0x200) / 16
     let s := movePair p (parSet s 5 i v)
     let s := if wbit v 19 then s else setBand s p (field v 23 21)
     settlePair s p)
  else parSet s 5 i v

/-- A timebase's TB_STATUS. -/
def tbStatus (s : State) (t : Nat) : Word :=
  let b := s.tb t
  let o := tbOffset s t
  wrd (b2n b.running * 2 ^ 31 + b2n (b.running && tbUpDown s t && decide (tbPer s t < o)) * 2 ^ 30 +
    b2n b.dlFault * 2 ^ 29 + (if b.running then countAt s t o % 0x1000000 else 0))

/-- A pair's PAIR_STATUS. -/
def pairStatus (s : State) (p : Nat) : Word :=
  let q := s.pair p
  wrd (q.band * 2 ^ 29 + q.layer * 2 ^ 26 + b2n q.ref * 2 ^ 25 + b2n q.h * 2 ^ 24 + b2n q.l * 2 ^ 23 +
    (parNat s 5 (0x208 + 16 * p) / 2 ^ 22 % 2) * 2 ^ 22)

/-- The value of a parameter of unit 0x05. -/
def read05 (s : State) (i : Nat) : Word :=
  if 0x100 ≤ i ∧ i < 0x140 ∧ i % 16 = 0xA then tbStatus s ((i - 0x100) / 16)
  else if 0x200 ≤ i ∧ i < 0x2C0 ∧ i % 16 = 8 then pairStatus s ((i - 0x200) / 16)
  else if 0x300 ≤ i ∧ i < 0x310 ∧ i % 4 = 3 then wrd (tblGet s.hatch.modStatus 0 ((i - 0x300) / 4))
  else parGet s 5 i

/-! Dead-time bands from a sequence's results (R223, R224). -/

/-- The band that a code moves band `b` to, one step at a time. -/
def bandMove (fuel : Nat) (ntc : Bool) (l : List Nat) (hyst code b : Nat) : Nat :=
  match fuel with
  | 0 => b
  | k + 1 =>
    let up := decide (b < 4) && (if ntc then decide (code ≤ l.getD b 0) else decide (l.getD b 0 ≤ code))
    let down := decide (0 < b) && (if ntc then decide (l.getD (b - 1) 0 + hyst < code)
      else decide (code + hyst < l.getD (b - 1) 0))
    if up then bandMove k ntc l hyst code (b + 1)
    else if down then bandMove k ntc l hyst code (b - 1)
    else b

/-- Sequence `n` has completed with result words `res`: each pair that takes its band from it moves (R223). -/
def bandsFrom (s : State) (n : Nat) (res : Nat → Option Word) : State :=
  forUpTo 12 (fun p s =>
    let c := pairCfg s p
    if wbit c 19 ∧ field c 18 14 = n then
      (match res (field c 13 8) with
       | some w =>
         if wbit w 17 then setBand s p (field c 23 21)
         else setBand s p (bandMove 8 (wbit c 20) (boundsOf (parGet s 5 (0x206 + 16 * p)) (parGet s 5 (0x207 + 16 * p)))
           (field c 7 0) (field w 13 0) ((s.pair p).newBand.getD (s.pair p).band))
       | none => s)
    else s) s

/-! The modulator front (R227 to R229). -/

/-- MOD_CFG of drive `d`. -/
def modCfg (s : State) (d : Nat) : Word := parGet s 5 (0x300 + 4 * d)
/-- The phases of a drive: its pairs, or its couples of pairs with THREE_LEVEL = 1. -/
def phaseCount (s : State) (d : Nat) : Nat :=
  if wbit (modCfg s d) 30 then (drivePairs s d).length / 2 else (drivePairs s d).length
/-- The DC-link voltage of the front: VDC_FIXED, or the published output of an enabled context (R227, R305). -/
def frontVdc (s : State) (d : Nat) : Option Word :=
  let c := modCfg s d
  if wbit c 29 then
    (let x := s.ctx (field c 15 8)
     if (x.st = .enabled ∨ x.st = .faulted) ∧ x.published then some (x.out.getD (field c 1 0) 0) else none)
  else some (parGet s 5 (0x301 + 4 * d))

/-- MOD_STATUS is set. -/
def setModStatus (s : State) (d n : Nat) : State :=
  { s with hatch := { s.hatch with modStatus := tblSet s.hatch.modStatus 0 d n } }

/-- The duties of the front, one for each pair of the drive in order (R227). -/
def frontDuties (three inject : Bool) (vdc : Word) (vs : List Word) : List Word :=
  let m := vs.map fun v => fDiv v vdc
  let hi := m.foldl fMax (m.headD 0)
  let lo := m.foldl fMin (m.headD 0)
  let z := fMul (fAdd hi lo) 0x3F000000
  let m := if inject then m.map fun x => fSub x z else m
  if three then
    m.flatMap fun x =>
      let u := fMul 0x40000000 x
      [fMax u 0, fAdd 0x3F800000 (fMin u 0)]
  else m.map fun x => fAdd 0x3F000000 x

/-- The compare word of a duty and whether it is the special 0 % (R227). -/
def dutyCode (d : Word) (per : Nat) : Word × Bool :=
  if fLe d 0 then (0, true)
  else if fLe 0x3F800000 d then (0x0FFFFFF0, false)
  else
    let k := (fRoundEven (fMul d (fOfNat (16 * per)))).toNat
    (wrd k, false)

/-- The front writes the compare of each pair with MOD_EN = 1 whose duty is given, all at one tick. -/
def writeDuties (l : List (Nat × Word)) (s : State) : State :=
  let s := forEach l (fun x s =>
    if wbit (pairCfg s x.1) 31 then
      (let t := pairTb s x.1
       let c := dutyCode x.2 (tbPer s t)
       storeCmp s t (pairSel s x.1) 1 c.1 c.2)
    else s) s
  forUpTo 4 (fun t s =>
    let ks := (l.filter fun x => pairTb s x.1 = t && wbit (pairCfg s x.1) 31).map fun x => pairSel s x.1
    if ks = [] then s else landCompares t ks s) s

/-- Graver delivers voltage requests (phase, volts) to the modulator front of a direct drive (R227). -/
def frontUpdate (d : Nat) (vs : List (Nat × Word)) (s : State) : State :=
  let s := forEach vs (fun x s => { s with hatch := { s.hatch with front := tblSet s.hatch.front 0 (16 * d + x.1) x.2 } }) s
  match frontVdc s d with
  | none => setModStatus s d (tblGet s.hatch.modStatus 0 d % 2 + 2)
  | some vdc =>
    if !fLt (parGet s 5 (0x302 + 4 * d)) vdc then setModStatus s d (tblGet s.hatch.modStatus 0 d % 2 + 2)
    else
      let c := modCfg s d
      let phases := (List.range (phaseCount s d)).map fun i => tblGet s.hatch.front 0 (16 * d + i)
      let ds := frontDuties (wbit c 30) (wbit c 31) vdc phases
      let sat := ds.any fun x => fLe x 0 || fLe 0x3F800000 x
      let s := setModStatus s d (b2n sat)
      writeDuties ((drivePairs s d).zip ds) s

/-- The fine-edge times of a modulating cell's duty on timebase `t`: turn-on and turn-off in 1/16 tick from the
apply time; a duty of 0 or 1 gives no edge (R229). -/
def fineEdges (s : State) (t : Nat) (d : Word) : Option (Nat × Nat) :=
  if fLe d 0 ∨ fLe 0x3F800000 d then none
  else
    match effective (dutyCode d (tbPer s t)).1 (tbPer s t) (tbMinOn s t) (tbMinOff s t) false (s.tb t).dlFault with
    | .val e => some (16 * tbPer s t - e, if tbUpDown s t then 16 * tbPer s t + e else 16 * tbPer s t)
    | _ => none

/-! Trips (R231 to R235). -/

/-- Source `n` sets its latch: the trip action at the pins, TRIP with Stop-out's reaction, and the safe frame of
every ring it names (R231). -/
def setTripLatch (s : State) (n : Nat) : State :=
  let w := tripRoute s n
  let s := { s with hatch := { s.hatch with latch := s.hatch.latch ||| 2 ^ n } }
  let s := settlePairs s
  let s := forEach (below 16 fun r => wbit w (r + 12)) orderRing s
  raise s 0x0901 n [wrd (field w 31 30), wrd (field w 11 0)]

/-- Bit `n` of a mask set or cleared. -/
def putBit (m n : Nat) (v : Bool) : Nat := if v then m ||| 2 ^ n else if m.testBit n then m - 2 ^ n else m

/-- The output of window comparator `n` as WC_LEVEL and WC_SEEN show it (R168). -/
def wcOutput (s : State) (n : Nat) (active : Bool) : State :=
  if 24 ≤ n then s
  else
    let s := { s with conv := { s.conv with wcLevel := putBit s.conv.wcLevel n active } }
    if active then parOr s 3 0x17 (wrd (2 ^ n)) else s

/-- A trip source becomes active or inactive (R231). -/
def tripInput (s : State) (n : Nat) (active : Bool) : State :=
  let s := wcOutput s n active
  let s := { s with hatch := { s.hatch with
    tripIn := putBit s.hatch.tripIn n active } }
  if active && tripsWork s && decide (field (tripRoute s n) 31 30 ≠ 0) && !latchSet s n then setTripLatch s n else s

/-! The window comparators (R163 to R168). -/

/-- WC_CTRL of comparator `n`. -/
def wcCtrl (s : State) (n : Nat) : Word := parGet s 3 (0x300 + n)
/-- The input that comparator `n` watches. -/
def wcSel (s : State) (n : Nat) : Nat := field (wcCtrl s n) 25 20
/-- Whether the converters run: in STANDBY, RUN and SAFE, and while sleep entry lets what runs complete (R136). -/
def convRun (s : State) : Bool :=
  (s.op = .standby || s.op = .run || s.op = .safe) && (s.pwr.sleep = .awake || s.pwr.sleep = .leaving) &&
    s.pwr.resetting ≠ some .warm
/-- Whether the comparators are on: where the converters run, and from TD1 lock at wake (R136, R231). -/
def wcRuns (s : State) : Bool :=
  (s.op = .standby || s.op = .run || s.op = .safe) && !isAsleep s && s.pwr.resetting ≠ some .warm

/-- A side of a comparator on input `x`, both in FS / 2²⁴, with threshold code `k`, from its present state: FS / 512 of hysteresis
(R163). -/
def sideNext (high : Bool) (x : Int) (k : Nat) (was : Bool) : Bool :=
  let th : Int := (k : Int) * 2 ^ 14
  if high then decide (th < x) || (was && !decide (x < th - 2 ^ 15))
  else decide (x < th) || (was && !decide (th + 2 ^ 15 < x))

/-- The control words whose thresholds count for comparator `n`: its own, and for 2 µs after a write those before it (R166; the bound
of *Converter characteristics* taken as the time, DESIGN CHOICE, log 73). -/
def wcWords (s : State) (n : Nat) : List Word :=
  let e := tblGet s.conv.wcOld (0, []) n
  wcCtrl s n :: (if s.now < e.1 + 2 * usTicks then e.2 else [])

/-- A side of comparator `n`: while thresholds settle between which its input lies, whether it becomes active is not defined, a free
value (R166). -/
def wcSide (s : State) (n : Nat) (high : Bool) : Bool :=
  let x := tblGet s.conv.ain 0 (wcSel s n)
  let was := (if high then s.conv.wcHi else s.conv.wcLo).testBit n
  let all := (wcWords s n).map fun w => sideNext high x (if high then field w 19 10 else field w 9 0) was
  if !wbit (wcCtrl s n) (if high then 31 else 30) then false
  else if all.all (fun b => b = all.headD false) then all.headD false
  else (Config.freeWord (s.free + b2n high)).getLsbD 0

/-- The output of comparator `n` follows its input: the OR of its enabled sides (R163). -/
def wcEval (n : Nat) (s : State) : State :=
  let hi := wcSide s n true
  let lo := wcSide s n false
  let was := s.conv.wcLevel.testBit n
  let s := { s with
    conv := { s.conv with wcHi := putBit s.conv.wcHi n hi, wcLo := putBit s.conv.wcLo n lo }, free := s.free + 2 }
  if (hi || lo) = was then s else tripInput s n (hi || lo)

/-- Every comparator takes its output from its input. -/
def wcEvalAll (s : State) : State := forUpTo 24 wcEval s

/-- The comparators are off: their outputs are inactive (R136). -/
def wcOff (s : State) : State :=
  { s with
    conv := { s.conv with wcLevel := 0, wcHi := 0, wcLo := 0 },
    hatch := { s.hatch with tripIn := s.hatch.tripIn / 2 ^ 24 * 2 ^ 24 } }

/-- WC_CTRL of comparator `n` is written: the thresholds begin to settle, and an input beyond the old and the new one makes the
output active at once (R166). -/
def wcWrite (s : State) (n : Nat) (v : Word) : State :=
  let old := wcWords s n
  let s := { parSet s 3 (0x300 + n) v with conv := { s.conv with wcOld := tblSet s.conv.wcOld (0, []) n (s.now, old) } }
  if wcRuns s then wcEval n s else s

/-- Sources that are active set their latches, as if they had become active now: at wake and on the entry to
STANDBY from SHUTDOWN (R231). -/
def tripResample (s : State) : State :=
  forUpTo 32 (fun n s =>
    if s.hatch.tripIn.testBit n && decide (field (tripRoute s n) 31 30 ≠ 0) && !latchSet s n then setTripLatch s n else s) s

/-- TRIP_ROUTE of source `n` is written: an active source that gains an action latches, and a changed route acts on
a latch already set (R235). -/
def writeTripRoute (s : State) (n : Nat) (v : Word) : State :=
  let old := tripRoute s n
  let s := parSet s 9 (0x100 + n) v
  if field old 31 30 = 0 ∧ field v 31 30 ≠ 0 ∧ s.hatch.tripIn.testBit n ∧ !latchSet s n then setTripLatch s n
  else if latchSet s n then
    let acts (w : Word) (r : Nat) : Bool := decide (field w 31 30 ≠ 0) && wbit w (r + 12)
    forEach (below 16 fun r => acts v r && !acts old r) orderRing (settlePairs s)
  else s

/-! Commands and events of Hatch. -/

/-- HATCH_FRAME: PER and all six compares of a timebase in one step (R216, R219). -/
def bodyHatchFrame (ws : List Word) (s : State) : CmdRes :=
  let t := field (pw ws 0) 1 0
  let per := (pw ws 1).toNat
  let cmps := (List.range 6).map fun k => pw ws (k + 2)
  checked s
    [(stringRunsOn s t && decide (per ≠ tbPer s t), stState),
     (hasBits (pw ws 0) 0xFFFFFFFC || hasBits (pw ws 1) 0xFF000000 || cmps.any (fun w => hasBits w 0xF0000000), stBadParam),
     (!perOk s t per || cmps.any (fun w => !cmpOk w), stBadParam)]
    (let w := s.now
     let s := storePer s t 2 (pw ws 1)
     let s := forUpTo 6 (fun k s => storeCmp s t k 2 (pw ws (k + 2)) true) s
     .done stOk (twoWords w) (landCompares t [0, 1, 2, 3, 4, 5] s))

/-- HATCH_FORCE: force or release the named pairs (R226). -/
def bodyHatchForce (ws : List Word) (s : State) : CmdRes :=
  let level := field (pw ws 0) 31 30
  let dur := field (pw ws 1) 15 0
  let ps := below 12 fun p => wbit (pw ws 0) p
  checked s
    [((ps.any fun p => match pairDrive s p with
        | some d => decide ((s.drive d).dst ≠ .idle)
        | none => false) || (decide (level ≠ 0) && !s.so.enable), stState),
     (ps == [] || hasBits (pw ws 0) 0x3FFFF000 || hasBits (pw ws 1) 0xFFFF0000, stBadParam),
     (ps.any fun p => latchesOnPair s p ≠ [], stTripActive)]
    (.done stOk [] (forEach ps (fun p s => settlePair (s.updPair p fun q => { q with
        force := if level = 0 then none else some level,
        forceEnd := if level = 0 ∨ dur = 0 then none else some (s.now + dur * usTicks) }) p) s))

/-- PERIOD_START: the offset reaches the period length (R210). -/
def execPeriodStart (tb : Nat) (s : State) : Host.Outcome State Fault Refusal :=
  .next (if tb < 4 ∧ (s.tb tb).running ∧ tbLen s tb ≤ tbOffset s tb then startPeriod 5 tb 0 s else s)

/-- Whether trigger compare `k` of timebase `t` can fire: EDGE_k selects an edge and the count reaches CMP (R220). -/
def triggerReached (s : State) (t k : Nat) : Bool :=
  let edge := field (parGet s 5 (0x109 + 16 * t)) (2 * k + 1) (2 * k)
  let cmp := field (tbCmp s t k) 27 4
  (s.tb t).running && decide (edge ≠ 0) && (if tbUpDown s t then decide (cmp ≤ tbPer s t) else decide (cmp < tbPer s t))

/-- Whether an edge armed at offset `a`, in 1/16 tick, has come on timebase `t`. -/
def edgeDue (s : State) (t : Nat) (a : Option Nat) : Bool := match a with
  | some a => tbBegun s t && decide (a / 16 ≤ tbOffset s t)
  | none => false

/-- REF_EDGE: the armed edge of the pair's reference signal is taken (R217, *REF edges within a period*). -/
def execRefEdge (p : Nat) (s : State) : Host.Outcome State Fault Refusal :=
  .next (
    let t := pairTb s p
    if 12 ≤ p ∨ !(s.tb t).running ∨ !edgeDue s t ((s.pair p).armOn.or (s.pair p).armOff) then s
    else match (s.pair p).armOn, (s.pair p).armOff with
    | some _, _ =>
      let off := match pairEff s p with
        | .val e => if tbUpDown s t then some (16 * tbPer s t + e) else none
        | _ => none
      setRef (s.updPair p fun q => { q with armOn := none, turnedOn := true, armOff := off }) p true
    | none, some _ => setRef (s.updPair p fun q => { q with armOff := none, turnedOff := true }) p false
    | none, none => s)

/-- DEADTIME_END: the pending turn-on of the pair happens, its dead time after the edge (R222). -/
def execDeadtimeEnd (p : Nat) (s : State) : Host.Outcome State Fault Refusal :=
  .next (match (s.pair p).pend with
    | some (high, t) =>
      if s.now < t then s
      else if high then s.updPair p fun q => { q with h := true, pend := none }
      else s.updPair p fun q => { q with l := true, pend := none }
    | none => s)

/-- FORCE_EXPIRY: the DURATION of a force of the pair expires (R226). -/
def execForceExpiry (p : Nat) (s : State) : Host.Outcome State Fault Refusal :=
  .next (match (s.pair p).forceEnd with
    | some t => if s.now < t then s else settlePair (s.updPair p fun q => { q with force := none, forceEnd := none }) p
    | none => s)

/-- DELAYLINE_CALIBRATION: a calibration that cannot place the fine steps leaves whole-tick edges until reset (R230), but
not while Burnish tests unit 0x05 (R442). -/
def execDelaylineCalibration (tb : Nat) (ok : Bool) (s : State) : Host.Outcome State Fault Refusal :=
  .next (if ok ∨ 4 ≤ tb ∨ underTest s 5 then s else raise (s.updTb tb fun b => { b with dlFault := true }) 0x0502 tb [])

/-- TRIP: a trip source becomes active, or inactive again (R231). Sources 0 to 23 are the outputs that the window comparators take
from their input, their enables and their thresholds (R163), whatever is asked for. -/
def execTrip (src : Nat) (active : Bool) (s : State) : Host.Outcome State Fault Refusal :=
  .next (
    if 32 ≤ src then s
    else if 24 ≤ src then tripInput s src active
    else if wcRuns s then wcEval src s
    else s)

end Sys2Proof.Machine
end

