-- ==== Sys2Proof/Machine/Converters.lean ====
section
/-!
DEFINITION. Converters: sequences, urgent requests, the calibration rotation and the window comparators of
05_converters.md. The completion of a sequence, which reaches other units, is in Machine/Completion.lean.
-/
namespace Sys2Proof.Machine

/-! Sequence entry words (*Sequence entry word*). -/
/-- LSLICE of an entry. -/
def entSlice (w : Word) : Nat := field w 11 8
/-- INPUT of an entry. -/
def entInput (w : Word) : Nat := field w 5 0
/-- Whether an entry also goes to Registration. -/
def entReg (w : Word) : Bool := wbit w 15
/-- REG_DRIVE of an entry. -/
def entDrive (w : Word) : Nat := field w 19 18
/-- REG_QTY of an entry. -/
def entQty (w : Word) : Nat := field w 17 16

/-- The list that SEQ_LOAD stored last, whether or not it has taken effect. -/
def seqStored (q : Seq) : List Word := q.newList.getD q.entries
/-- Whether a sequence is enabled (SEQ_CTRL.ENABLE). -/
def seqEnabled (s : State) (n : Nat) : Bool := wbit (parGet s 3 (0x100 + n)) 31
/-- The logical slices that a list uses. -/
def listSlices (l : List Word) : List Nat := (below 16 fun i => l.any fun w => entSlice w = i)
/-- The indices of the entries of a list on slice `i`, in entry order. -/
def entriesOn (l : List Word) (i : Nat) : List Nat := below l.length fun k => entSlice (l.getD k 0) = i
/-- Whether slice `i` is used by an enabled sequence (R155, R156): by the list that its next trigger takes. The spec does not say
whether a list that SEQ_LOAD has stored, or the one still in effect, counts (DESIGN CHOICE, log 72). -/
def sliceUsed (s : State) (i : Nat) : Bool :=
  (below 32 fun n => seqEnabled s n && (seqStored (s.sequ n)).any fun w => entSlice w = i) ≠ []
/-- The physical slice of logical slice `i` (LMAP). -/
def lmapOf (s : State) (i : Nat) : Nat := tblGet s.conv.lmap i i

/-- The state with the converters changed. -/
def updConv (s : State) (f : Converters → Converters) : State := { s with conv := f s.conv }

/-! What an instance takes as it stands at its trigger tick (R299). -/

/-- The slot values that a context shows to others: those published, while it is ENABLED or FAULTED (R300, R305). -/
def shownOuts (c : Ctx) : Option (List Word) :=
  if (c.st = .enabled ∨ c.st = .faulted) ∧ c.published then some c.out else none

/-- The string quantities in force at tick `t`: those of the cycle whose frame was applied last at or before it. -/
def strAt (g : Ring) (t : Nat) : Option (List Word) := ((g.qty.find? fun q => q.1 ≤ t).map fun q => q.2)

/-- The inputs as they stand now (R299). -/
def takeSnap (s : State) : Snap :=
  { results := s.conv.results,
    counts := s.conv.counts,
    recs := (below 12 fun n => (s.src n).recd ≠ {}).map fun n => (n, (s.src n).recd),
    outs := (below 256 fun c => shownOuts (s.ctx c) ≠ none).map fun c => (c, shownOuts (s.ctx c)),
    strs := (below 16 fun r => strAt (s.ring r) s.now ≠ none).map fun r => (r, strAt (s.ring r) s.now),
    tgts := (below 256 fun c => (s.ctx c).st ≠ .empty).map fun c => (c, (s.ctx c).tgt),
    torque := (List.range 4).map fun d => (d, torqueInput (s.drive d)) }

/-! Sequences. -/

/-- A trigger of sequence `n` with trigger tick `t` is on its way, with the list then stored and the inputs as they stand (R139,
R146, R299). -/
def seqFired (n t : Nat) (s : State) : State :=
  s.updSeq n fun q => { q with due := q.due ++ [(t, seqStored q, takeSnap s)] }

/-- A trigger source fires at tick `t`: a trigger of every enabled sequence that names it is on its way (R139). -/
def fireSequences (code t : Nat) (s : State) : State :=
  forUpTo 32 (fun n s =>
    if seqEnabled s n ∧ (s.sequ n).trigger = code ∧ code ≠ 0 then seqFired n t s else s) s

/-- The shadow starts, or starts again, at this tick (R154, R156). -/
def shadowStart (s : State) : State := updConv s fun c => { c with pairs := 0, sum := 0, shadowAt := s.now }

/-- Trigger `x` of sequence `n` arrives: it becomes pending with its list, which is then in effect, or is counted as an overrun
(R139, R142, R146, R154). -/
def seqTrigger (n : Nat) (x : Nat × List Word × Snap) (s : State) : State :=
  let q := s.sequ n
  if !seqEnabled s n then s
  else if q.run ≠ none ∨ q.pend ≠ none then record (parCount s 3 0x11 1) 0x0301 n [0xFFFFFFFF]
  else
    let list := x.2.1
    let reload := q.newList = some list ∧ ((q.entries ++ list).any fun w => entSlice w = s.conv.target)
    let s := s.updSeq n fun q => { q with
      entries := list, newList := if q.newList = some list then none else q.newList, pend := some x }
    if reload ∧ s.conv.phase = .shadow then shadowStart s else s

/-- The trigger of sequence `m` that waits to start, or to arrive: its tick and its list. -/
def seqWaits (s : State) (m : Nat) : Option (Nat × List Word) :=
  match (s.sequ m).pend with
  | some (t, list, _) => some (t, list)
  | none => if (s.sequ m).run = none ∧ seqEnabled s m then (s.sequ m).due.head?.map fun x => (x.1, x.2.1) else none

/-- Whether a pending sequence may start: its trigger tick has come, none of its slices has a conversion of another sequence in
progress, and no earlier-triggered sequence waits for any of them (R37, R141). -/
def seqCanStart (s : State) (n : Nat) : Bool :=
  match (s.sequ n).pend with
  | none => false
  | some (t, list, _) =>
    decide (t ≤ s.now) && (listSlices list).all (fun i => (s.slice i).owner = none) &&
      (below 32 fun m => match seqWaits s m with
        | some (t', list') => m ≠ n && (decide (t' < t) || (decide (t' = t) && decide (m < n))) &&
            (listSlices list').any fun i => (listSlices list).contains i
        | none => false) = []

/-- The next entry of the sequence on slice `i` starts, if the slice is free and no urgent request may go ahead of it
(R140, R145, R148, R149). -/
def startEntry (i : Nat) (s : State) : State :=
  let c := s.slice i
  match c.owner, c.todo with
  | some n, k :: rest =>
    if c.conv ≠ none ∨ (c.urgent ≠ none ∧ !c.urgUsed) then s
    else
      match (s.sequ n).run with
      | none => s
      | some r =>
        let j := (entriesOn r.entries i).length - c.todo.length
        let conv : Conv :=
          { what := .seq n k, input := entInput (r.entries.getD k 0),
            start := r.start + 40 * j + (if c.shift then 40 else 0), shift := c.shift }
        s.updSlice i fun c => { c with conv := some conv, todo := rest }
  | _, _ => s

/-- SEQ_START on slice `i`: the sequence owns it from now; an urgent conversion in progress, or a request that waits,
goes ahead of its first entry and shifts it (R141, R149). -/
def occupySlice (n : Nat) (list : List Word) (i : Nat) (s : State) : State :=
  let urg := match (s.slice i).conv with
    | some c => match c.what with
      | .urgent _ => true
      | _ => false
    | none => false
  startEntry i (s.updSlice i fun c => { c with owner := some n, todo := entriesOn list i, urgUsed := urg, shift := urg })

/-- The pending sequence `n` starts on all its slices (R140, R141). -/
def seqStart (n : Nat) (s : State) : State :=
  match (s.sequ n).pend with
  | none => s
  | some (t, list, snap) =>
    let s := s.updSeq n fun q => { q with
      pend := none, run := some { trig := t, start := s.now, entries := list, done := [], snap := snap } }
    let s := if t < s.now then record (parCount s 3 0x12 1) 0x0301 n [wrd (s.now - t)] else s
    forEach (listSlices list) (fun i s => occupySlice n list i s) s

/-! Urgent requests. -/

/-- An urgent request (tag, input) reaches slice `i`: it waits there, or behind the one that waits (R148, R149). -/
def urgentRequest (i tag input : Nat) (s : State) : State :=
  s.updSlice i fun c => if c.urgent = none then { c with urgent := some (tag, input) } else { c with held := c.held ++ [(tag, input)] }

/-- Whether the waiting urgent request of slice `i` may start: the slice is at a conversion boundary, and the
sequence instance on it has had none yet (R148, R149). -/
def urgentCanStart (s : State) (i : Nat) : Bool :=
  let c := s.slice i
  c.urgent ≠ none && c.conv = none && (c.owner = none || !c.urgUsed)

/-- The waiting urgent conversion of slice `i` starts; it shifts the remaining entries of a sequence there. -/
def urgentStart (i : Nat) (s : State) : State :=
  match (s.slice i).urgent with
  | none => s
  | some (tag, input) =>
    s.updSlice i fun c => { c with
      conv := some { what := .urgent tag, input := input, start := s.now, shift := false },
      urgent := c.held.head?, held := c.held.tail,
      urgUsed := c.owner ≠ none, shift := c.owner ≠ none }

/-! The calibration rotation. -/

/-- Reference pairs: with the target used by no enabled sequence, both slices convert the internal reference (R155). -/
def startReference (s : State) : State :=
  let i := s.conv.target
  if s.conv.phase = .shadow ∧ !sliceUsed s i ∧ s.conv.pairs < 256 ∧ (s.slice i).conv = none ∧
      (s.slice i).urgent = none then
    s.updSlice i fun c => { c with conv := some { what := .reference, input := 0, start := s.now, shift := false } }
  else s

/-- The step of the present target begins with the self-calibration of the tracing slice; the step of L0 begins a lap (R161). -/
def beginStep (s : State) : State :=
  updConv s fun c => { c with
    pairs := 0, sum := 0, phase := .selfCal, lapStart := if c.target = 0 then s.now else c.lapStart }

/-- The step of the present target ends: a lap after L15, the next target, and its step or the stop that ROT_EN = 0 asked for
(R161, R162). -/
def nextStep (s : State) : State :=
  let lap := (s.now - s.conv.lapStart) / usTicks
  let s := if s.conv.target = 15 then
      (let s := parSet s 3 6 (wrd lap)
       if parNat s 3 7 < lap then parSet s 3 7 (wrd lap) else s)
    else s
  let s := updConv s fun c => { c with target := (c.target + 1) % 16, pairs := 0, sum := 0, phase := .idle }
  if wbit (parGet s 3 0) 16 then beginStep s else s

/-- Whether an enabled sequence of a drive uses slice `i`: one that feeds the Registration of a drive with an
architecture, or roots an enabled context (DEDUCED, log 12). -/
def driveSeqUses (s : State) (i : Nat) : Bool :=
  (below 32 fun n => seqEnabled s n && (seqStored (s.sequ n)).any (fun w => entSlice w = i) &&
    ((seqStored (s.sequ n)).any (fun w => entReg w && hasArch (s.drive (entDrive w))) ||
      (below 256 fun c => (s.ctx c).st = .enabled && field ((s.ctx c).image.getD 2 0) 7 0 = 0 &&
        field ((s.ctx c).image.getD 2 0) 15 8 = n) ≠ [])) ≠ []

/-- A deferral, after a gross pair or not: CAL_DRIFT with the residual, the counts, and after gross deferrals of two targets in a
row the halt (R159, R160). -/
def deferStep (residual : Nat) (gross : Bool) (s : State) : State :=
  let t := s.conv.target
  let laps := min 255 (tblGet s.conv.deferLaps 0 t + 1)
  let s := parCount s 3 9 1
  let s := updConv s fun c => { c with
    deferLaps := tblSet c.deferLaps 0 t laps, lastResidual := tblSet c.lastResidual 0xFFFF t residual,
    grossRun := if gross then c.grossRun + 1 else 0 }
  let r := if laps = 4 ∧ driveSeqUses s t then reactPC false else noReact
  let s := raiseWith s r 0x0302 t [wrd residual, wrd (lmapOf s t)]
  if 2 ≤ s.conv.grossRun then updConv s fun c => { c with phase := .halted } else nextStep s

/-- Whether the conversion `c` of slice `i` is shadowed by the tracing slice: it started during the shadow of its slice (R152). -/
def shadowed (s : State) (i : Nat) (c : Conv) : Bool :=
  s.conv.phase = .shadow && s.conv.target = i && decide (s.conv.shadowAt ≤ c.start)

/-- A shadow pair of codes that completes at tick `t` is counted, skipped, or ends the shadow at once as gross (R153). -/
def shadowPair (t code tcode : Nat) (ovr tovr : Bool) (s : State) : State :=
  if s.conv.phase ≠ .shadow ∨ s.conv.pairs ≥ 256 ∨ ovr ∨ tovr then s
  else
    let d : Int := (tcode : Int) - (code : Int)
    if 64 < d.natAbs then deferStep 0xFFFF true s
    else updConv s fun c => { c with sum := c.sum + d, pairs := c.pairs + 1, pairsAt := t }

/-! Parameters of unit 0x03. -/

/-- The check of a write to a parameter of unit 0x03 (*CAL_CONFIG*, *SEQ_CTRL*, R167). -/
def check03 (s : State) (i : Nat) (v : Word) : Nat :=
  if i = 0 then (if field v 15 0 = 0 then stBadParam else stOk)
  else if 0x100 ≤ i ∧ i ≤ 0x11F then
    (if wbit v 31 && (seqStored (s.sequ (i - 0x100))).isEmpty then stBadParam else stOk)
  else if 0x300 ≤ i ∧ i ≤ 0x317 then
    (if wbit v 31 && wbit v 30 && decide (field v 19 10 ≤ field v 9 0) then stBadParam else stOk)
  else stOk

/-- The write of a parameter of unit 0x03 lands (R139, R162, R166). -/
def write03 (s : State) (i : Nat) (v : Word) : State :=
  if i = 0 then
    (let s := parSet s 3 0 v
     if wbit v 16 && s.conv.phase == .idle then beginStep s else s)
  else if i = 0x10 then
    (if s.pwr.sleep ≠ .awake then s
     else forUpTo 32 (fun n s => if wbit v n && seqEnabled s n then seqFired n s.now s else s) s)
  else if 0x100 ≤ i ∧ i ≤ 0x11F then
    (let s := parSet s 3 i (v &&& 0x80000000)
     if wbit v 31 then s
     else startReference (s.updSeq (i - 0x100) fun q => { q with due := [], pend := none }))
  else if i = 0x17 then parSet s 3 i (v ||| wrd s.conv.wcLevel)
  else if 0x300 ≤ i ∧ i ≤ 0x317 then wcWrite s (i - 0x300) v
  else parSet s 3 i v

/-- CAL_STATE. -/
def calState (s : State) : Word :=
  let ph := match s.conv.phase with
    | .selfCal => 0 | .shadow => 1 | .swapPending => 2 | .idle => 3 | .halted => 4
  wrd (s.conv.target * 2 ^ 28 + s.conv.pairs * 2 ^ 16 + s.conv.tracing * 2 ^ 8 + ph)

/-- The value of a parameter of unit 0x03. -/
def read03 (s : State) (i : Nat) : Word :=
  if i = 1 then calState s
  else if 2 ≤ i ∧ i ≤ 5 then
    (let b := 4 * (i - 2)
     wrd (lmapOf s (b + 3) * 2 ^ 24 + lmapOf s (b + 2) * 2 ^ 16 + lmapOf s (b + 1) * 2 ^ 8 + lmapOf s b))
  else if i = 0x16 then wrd s.conv.wcLevel
  else if i = 0x17 then parGet s 3 0x17 ||| wrd s.conv.wcLevel
  else if 0x100 ≤ i ∧ i ≤ 0x11F then
    (let q := s.sequ (i - 0x100)
     parGet s 3 i ||| wrd (q.trigger * 2 ^ 16 + (seqStored q).length * 2 ^ 8))
  else if 0x1000 ≤ i ∧ i ≤ 0x17FF then (seqStored (s.sequ ((i - 0x1000) / 64))).getD (i % 64) 0
  else if 0x2000 ≤ i ∧ i ≤ 0x27FF then tblGet s.conv.results 0 (i - 0x2000)
  else parGet s 3 i

/-! Commands and events of the converters. -/

/-- The reserved bits of a sequence entry word; with REG = 0 fields 19:16 must be 0. -/
def entryBad (w : Word) : Bool :=
  hasBits w 0xFFF070C0 || (!entReg w && decide (field w 19 16 ≠ 0))

/-- Whether a trigger source code is valid (*Trigger source codes*). -/
def triggerOk (c : Nat) : Bool := c = 0 || (decide (0x10 ≤ c) && decide (c ≤ 0x27)) || (decide (0x30 ≤ c) && decide (c ≤ 0x37))

/-- Whether two entries with REG = 1 name the same drive and quantity, or one names the input of a REG = 0 entry
(R147). -/
def listClash (l : List Word) : Bool :=
  (below l.length fun a => (below l.length fun b =>
    let x := l.getD a 0
    let y := l.getD b 0
    entReg x && ((entReg y && decide (a < b) && decide (entDrive x = entDrive y) && decide (entQty x = entQty y)) ||
      (!entReg y && decide (entInput x = entInput y)))) ≠ []) ≠ []

/-- The entries of sequence `n` that an enabled context reads: kind 0 measurements, the sine and cosine of kind 5 and
the three phases of kind 6 (*Measurement source kinds*). -/
def ctxEntries (c : Ctx) (n : Nat) : List Nat :=
  (List.range (field (c.image.getD 1 0) 7 0)).flatMap fun i =>
    let m := c.image.getD (298 + i) 0
    if field m 15 8 ≠ n then []
    else match field m 7 0 with
      | 0 => [field m 23 16]
      | 5 => [field m 23 16, field m 31 24]
      | 6 => [field m 23 16, field m 23 16 + 1, field m 23 16 + 2]
      | _ => []

/-- Whether an enabled context uses an entry index of sequence `n` not below `count` (R147). -/
def ctxBeyond (s : State) (n count : Nat) : Bool :=
  (below 256 fun c => ((s.ctx c).st = .enabled || (s.ctx c).st = .faulted) &&
    (ctxEntries (s.ctx c) n).any fun k => decide (count ≤ k)) ≠ []

/-- SEQ_LOAD: a new entry list and trigger, the list in effect at the next trigger (R146, R147). The spec does not date the new
TRIGGER code: it is the sequence's from now on (DESIGN CHOICE, log 72). -/
def bodySeqLoad (ws : List Word) (s : State) : CmdRes :=
  let w := pw ws 0
  let count := field w 14 8
  let n := field w 4 0
  let list := ws.tail
  checked s
    [(hasBits w 0xFF0080E0 || list.any entryBad || decide (count = 0) || decide (64 < count) ||
        decide (count ≠ list.length) || !triggerOk (field w 23 16) || listClash list || ctxBeyond s n count, stBadParam)]
    (.done stOk [] (startReference (s.updSeq n fun q => { q with
      trigger := field w 23 16, newList := some list })))

/-- CONV_URGENT: one conversion of one input on one logical slice; the reply follows its end (R148, R150). -/
def bodyConvUrgent (tag : Nat) (ws : List Word) (s : State) : CmdRes :=
  checked s [(hasBits (pw ws 0) 0xFFFFC0F0, stBadParam)]
    (.wait (urgentRequest (field (pw ws 0) 3 0) tag (field (pw ws 0) 13 8) s))

/-- CAL_STATUS: the calibration state, captured at one instant. -/
def bodyCalStatus (_ws : List Word) (s : State) : CmdRes :=
  .done stOk ([calState s, parGet s 3 6, parGet s 3 7, parGet s 3 8] ++ (List.range 16).map fun i =>
    wrd (tblGet s.conv.lastResidual 0xFFFF i * 2 ^ 16 + tblGet s.conv.deferLaps 0 i * 2 ^ 8 + lmapOf s i)) s

/-- SEQ_START: a pending sequence starts on all its slices at its start tick (R141). -/
def execSeqStart (n : Nat) (s : State) : Host.Outcome State Fault Refusal :=
  .next (if convRun s ∧ seqCanStart s n then seqStart n s else s)

/-- URGENT_START: a waiting urgent conversion starts (R148). -/
def execUrgentStart (ls : Nat) (s : State) : Host.Outcome State Fault Refusal :=
  .next (if convRun s ∧ urgentCanStart s ls then urgentStart ls s else s)

/-- Physical slice `p` takes new trims (R151). What they are depends on the slice: a free value. -/
def calTrim (p : Nat) (s : State) : State :=
  { updConv s fun c => { c with trims := tblSet c.trims 0 p (Config.freeWord s.free) } with free := s.free + 1 }

/-- BOOT calibrates all seventeen slices before STANDBY, and the rotation begins with the step of L0 (R136, R161). -/
def bootCalibrate (s : State) : State := beginStep (forUpTo 17 calTrim s)

/-- CAL_SELF_DONE: the self-calibration of the tracing slice ends; within its limits the shadow begins, outside them
the rotation halts (R151, R155). -/
def execCalSelfDone (ok : Bool) (s : State) : Host.Outcome State Fault Refusal :=
  .next (
    if s.conv.phase ≠ .selfCal ∨ !convRun s then s
    else if ok then startReference (shadowStart (calTrim s.conv.tracing (updConv s fun c => { c with phase := .shadow })))
    else record (updConv s fun c => { c with phase := .halted }) 0x0302 0xFFFF [0xFFFFFFFF, wrd s.conv.tracing])

/-- CAL_DECISION: 16 ticks after the last of 256 pairs, their residual decides between a swap and a deferral (R157). -/
def execCalDecision (s : State) : Host.Outcome State Fault Refusal :=
  .next (
    if s.conv.phase ≠ .shadow ∨ !convRun s ∨ s.conv.pairs < 256 ∨ s.now < s.conv.pairsAt + 16 then s
    else
      let residual := s.conv.sum.natAbs / 16
      if residual ≤ 16 then updConv s fun c => { c with
        phase := .swapPending, lastResidual := tblSet c.lastResidual 0xFFFF c.target residual }
      else deferStep residual false s)

/-- Whether a conversion of slice `i` is in progress: one that waits for its slot is not (R134, R149). -/
def converting (s : State) (i : Nat) : Bool := match (s.slice i).conv with
  | some c => decide (c.start ≤ s.now)
  | none => false

/-- CAL_SWAP: with no conversion in progress on the target, the tracing slice takes it over (R158). -/
def execCalSwap (s : State) : Host.Outcome State Fault Refusal :=
  .next (
    let t := s.conv.target
    if s.conv.phase ≠ .swapPending ∨ !convRun s ∨ converting s t then s
    else
      let old := lmapOf s t
      let new := s.conv.tracing
      let s := updConv s fun c => { c with
        lmap := tblSet c.lmap t t new, tracing := old, deferLaps := tblSet c.deferLaps 0 t 0, grossRun := 0 }
      nextStep (record (parCount s 3 8 1) 0x0303 t [wrd old, wrd new]))

/-- SHADOW_TIMEOUT: the pairs of a target in use were not counted within SHADOW_TIMEOUT of the start of the shadow; the step ends
without a swap (R156). A restart of the shadow is a start of it (DEDUCED from R154, log 72). LAST_RESIDUAL stays that of the last
step with a residual (the spec gives a skipped step none; DESIGN CHOICE, log 72). -/
def execShadowTimeout (s : State) : Host.Outcome State Fault Refusal :=
  .next (
    if s.conv.phase = .shadow ∧ convRun s ∧ s.conv.pairs < 256 ∧ sliceUsed s s.conv.target ∧
        s.conv.shadowAt + parField s 3 0 15 0 * msTicks ≤ s.now then
      nextStep (updConv (parCount s 3 0xA 1) fun c => { c with grossRun := 0 })
    else s)

/-- WC_OUTPUT_CHANGE: the input that comparator `n` watches comes to level `x`, in FS / 2²⁴, and moves the outputs of the comparators
on that pin (R163, R164, R167, R168). -/
def execWcOutputChange (n : Nat) (x : Int) (s : State) : Host.Outcome State Fault Refusal :=
  .next (
    if 24 ≤ n then s
    else
      let pin := wcSel s n
      let s := updConv s fun c => { c with ain := tblSet c.ain 0 pin x }
      if wcRuns s then forUpTo 24 (fun m s => if wcSel s m = pin then wcEval m s else s) s else s)

end Sys2Proof.Machine
end

