-- ==== Sys2Proof/Machine/Position.lean ====
section
/-!
DEFINITION. The position unit (06_position.md): encoders, Hall sets, SSI and SENT sources, the resolver's part,
captures and speed, direction, cross-checks, position compares, encoder emulation, and the unit's commands.
-/
namespace Sys2Proof.Machine

/-- The kinds of position source (*Position sources*). -/
inductive SrcKind where
  | encoder | hall | ssi | sent | resolver
  deriving DecidableEq, Repr

/-- The kind of source `n`. -/
def srcKind (n : Nat) : SrcKind :=
  if n < 2 then .encoder else if n < 4 then .hall else if n < 6 then .ssi else if n < 10 then .sent else .resolver

/-- RATIO of source `n`. -/
def srcRatio (s : State) (n : Nat) : Nat := field (srcWord s n 0) 7 0
/-- CPR of encoder `n`. -/
def srcCpr (s : State) (n : Nat) : Nat := field (srcWord s n 2) 23 0
/-- SECONDARY of drive `d`. -/
def posSecondary (s : State) (d : Nat) : Nat := parField s 4 (0x10 + d) 7 4

/-- A signed 32-bit value. -/
def sgn32 (n : Nat) : Int := (BitVec.ofNat 32 n).toInt

/-- A source raises POS_SOURCE_FAULT, once until a restart (R202). -/
def faultSource (n cause : Nat) (s : State) : State :=
  if (s.src n).fault then s
  else raise (noteSpeeds (s.updSrc n fun q => { q with fault := true, faultCause := cause })) 0x0405 n [wrd cause]

/-- ERR_COUNT of a source rises. -/
def errCount (n : Nat) (s : State) : State := parCount s 4 (0x10C + 16 * n) 1

/-! Captures (R174, R195 to R197, R200). -/

/-- Whether a capture of the source computes its speed edge-timed (R196). A source counts as named by a drive that names it as primary
or as secondary; where two drives name it, difference needs any of them in RUN, and the 16 captures count from the last entry into RUN
(the spec does not say; DESIGN CHOICE, log 53). -/
def edgeTimed (s : State) (n : Nat) : Bool :=
  let m := field (srcWord s n 0) 30 29
  m = 1 || (m = 2 && ((below 4 fun d => (posPrimary s d = n || posSecondary s d = n) && (s.drive d).dst = .run) = [] ||
    decide ((s.src n).runCaps < 16)))

/-- Whether no change has occurred in the standstill window of a capture of source `n`, as `q`, at tick `tc` (R197). -/
def standsStill (s : State) (n : Nat) (q : PosSrc) (tc : Nat) : Bool :=
  srcKind n ≠ .resolver && (match q.lastChange with
    | none => true
    | some t => !inSlide tc t (field (srcWord s n 1) 15 0 * usTicks))

/-- The edge-timed speed at a capture at tick `tc` (R195). -/
def edgeSpeed (s : State) (n : Nat) (q : PosSrc) (tc : Nat) : Word :=
  match q.changes with
  | te1 :: te0 :: _ =>
    let dt := max (te1 - te0) (tc - te1)
    let sg : Int := if q.dir then -1 else 1
    if dt = 0 then q.speed
    else if n < 2 then fQuot (sg * 400000000) (srcCpr s n * dt)
    else fQuot (sg * 400000000 * (q.lastStep : Int)) (2 ^ 32 * dt)
  | _ => 0

/-- The difference speed of a motion over `dt` ticks (R195). -/
def diffSpeed (moved : Int) (dt : Nat) : Word := fQuot (moved * 400000000) (2 ^ 32 * dt)

/-- SPEED at a capture of source `n`, as `q`, at tick `tc` (R195 to R197): a resolver's is output 1 of its context. -/
def captureSpeed (s : State) (n : Nat) (q : PosSrc) (tc : Nat) : Word :=
  if srcKind n = .resolver then q.speed
  else if standsStill s n q tc then 0
  else if edgeTimed s n then edgeSpeed s n q tc
  else if n < 4 then
    (match q.capTick with
     | some t => if t < tc then diffSpeed q.moved (tc - t) else q.speed
     | none => q.speed)
  else match q.capTick with
    | some t => if t < q.tick then diffSpeed q.moved (q.tick - t) else q.speed
    | none => q.speed

/-- The electrical angle of a record of source `n` (R173). -/
def elecAngle (s : State) (n : Nat) (r : PosRec) : Nat := r.angle * srcRatio s n % 2 ^ 32

/-- The cross-check of drive `d` on its two records of one capture (R200). -/
def crossCheck (d : Nat) (s : State) : State :=
  let p := posPrimary s d
  let q := posSecondary s d
  let a := (s.src p).recd
  let b := (s.src q).recd
  let set (s : State) (n : Nat) : State := { s with pos := { s.pos with mism := tblSet s.pos.mism 0 d n } }
  if !a.valid ∨ !b.valid ∨ a.trig ≠ b.trig then set s 0
  else
    let e := sgn32 (elecAngle s p a + 2 ^ 33 - elecAngle s q b - parNat s 4 (0x14 + d))
    if parField s 4 (0x10 + d) 23 8 * 2 ^ 16 < e.natAbs then
      (let k := tblGet s.pos.mism 0 d + 1
       if parField s 4 (0x10 + d) 31 24 ≤ k then raise (set s 0) 0x0404 d [wrdI e] else set s k)
    else set s 0

/-- The inputs of the instances triggered at or after tick `t` take a record captured for that tick (R299). -/
def patchRecs (n t : Nat) (r : PosRec) (s : State) : State :=
  forUpTo 32 (fun m s =>
    let put (p : Snap) : Snap := if (tblGet p.recs {} n).trig ≤ t then { p with recs := tblSet p.recs {} n r } else p
    let q := s.sequ m
    if (q.pend.any fun x => decide (t ≤ x.1)) || (q.run.any fun x => decide (t ≤ x.trig)) || (q.due.any fun x => decide (t ≤ x.1)) then
      s.updSeq m fun q => { q with
        due := q.due.map fun x => if t ≤ x.1 then (x.1, x.2.1, put x.2.2) else x,
        pend := q.pend.map fun x => if t ≤ x.1 then (x.1, x.2.1, put x.2.2) else x,
        run := q.run.map fun x => if t ≤ x.trig then { x with snap := put x.snap } else x }
    else s) s

/-- Source `n` as a capture at tick `tc` takes it: an SSI or SENT source as of its last good frame completed before `tc` (R174). -/
def sourceAt (s : State) (n tc : Nat) : PosSrc :=
  let q := s.src n
  match q.before with
  | some b => if b.done = tc then { q with
      p := b.p, dir := b.dir, tick := b.tick, capTick := b.capTick, moved := b.moved, started := b.started,
      lastChange := b.lastChange } else q
  | none => q

/-- A capture of source `n` for the trigger tick `tc` (R174, R175). -/
def capture (n tc : Nat) (s : State) : State :=
  let q := sourceAt s n tc
  let still := standsStill s n q tc
  let sp := captureSpeed s n q tc
  let r : PosRec :=
    { angle := q.p.toNat % 2 ^ 32, turns := q.p.toNat / 2 ^ 32, speed := sp, dir := q.dir,
      valid := srcValid s n && (decide (n < 2) || q.started), tick := if n < 4 then tc else q.tick, trig := tc }
  let edge := edgeTimed s n
  let s := s.updSrc n fun q =>
    { q with capDue := none, prevRec := q.recd, recd := r, speed := sp, method := edge, runCaps := q.runCaps + 1 }
  let s := s.updSrc n fun q =>
    { q with standstill := q.standstill || (still && decide (n < 10)), changes := if still then [] else q.changes }
  let s := noteSpeeds s
  let s := if n < 4 then s.updSrc n fun q => { q with capTick := some tc, moved := 0 } else s
  let s := patchRecs n tc r s
  forUpTo 4 (fun d s =>
    let p := posPrimary s d
    let o := posSecondary s d
    if o = 15 ∨ p = 15 ∨ (n ≠ p ∧ n ≠ o) then s
    else if n = p then (if (s.src o).capDue = some tc then s else crossCheck d s)
    else if (s.src p).capDue = some tc ∨ (s.src p).recd.trig ≠ tc then s else crossCheck d s) s

/-- A capture of source `n` that has fired ahead of tick `t` is carried out, before what happens to the source at `t` (R174). -/
def captureBefore (n t : Nat) (s : State) : State :=
  match (s.src n).capDue with
  | some tc => if tc < t then capture n tc s else s
  | none => s

/-- A trigger source fires at tick `t`: sequences, captures and SSI transfers that name it (R139, R174, R186). -/
def fireTrigger (code t : Nat) (s : State) : State :=
  let s := fireSequences code t s
  forUpTo 12 (fun n s =>
    let s := if code ≠ 0 ∧ posRuns s ∧ srcEn s n ∧ field (srcWord s n 0) 23 16 = code then
        (captureBefore n t s).updSrc n fun q => { q with capDue := some t } else s
    if code ≠ 0 ∧ posRuns s ∧ srcEn s n ∧ srcKind n = .ssi ∧ field (srcWord s n 1) 23 16 = code then
      s.updSrc n fun q => { q with startDue := some t } else s) s

/-! Position compares (R203 to R205). -/

/-- A crossing of target `t` by a change from `p` to `p'`: 0 forward, 1 reverse (R203). -/
def crossing (modulo : Bool) (t p p' : BitVec 64) : Option Nat :=
  if modulo then
    (let a := p.toNat % 2 ^ 32
     let a' := p'.toNat % 2 ^ 32
     let tt := t.toNat % 2 ^ 32
     let d := sgn32 (a' + 2 ^ 32 - a)
     let f : Nat := (tt + 2 ^ 32 - a) % 2 ^ 32
     let r : Nat := (a + 2 ^ 32 - tt) % 2 ^ 32
     if 0 < d ∧ 1 ≤ f ∧ (f : Int) ≤ d then some 0
     else if d < 0 ∧ 1 ≤ r ∧ (r : Int) ≤ -d then some 1
     else none)
  else if p.toInt < t.toInt ∧ t.toInt ≤ p'.toInt then some 0
  else if t.toInt < p.toInt ∧ p'.toInt ≤ t.toInt then some 1
  else none

/-- How far the position lies past the target in direction `way`, after a crossing. -/
def pastTarget (modulo : Bool) (t p' : BitVec 64) (way : Nat) : Nat :=
  if modulo then
    (let a := p'.toNat % 2 ^ 32
     let tt := t.toNat % 2 ^ 32
     if way = 0 then (a + 2 ^ 32 - tt) % 2 ^ 32 else (tt + 2 ^ 32 - a) % 2 ^ 32)
  else if way = 0 then (p'.toInt - t.toInt).toNat else (t.toInt - p'.toInt).toNat

/-- The target `n` steps further on. -/
def movedTarget (modulo : Bool) (t : BitVec 64) (dist : Int) : BitVec 64 :=
  if modulo then BitVec.ofNat 64 ((t.toInt + dist) % 2 ^ 32).toNat else BitVec.ofInt 64 (t.toInt + dist)

/-- A compare unit fires at tick `t` in direction `way` with the position at `p'` (R204). -/
def fireCompare (t n way : Nat) (p' : BitVec 64) (s : State) : State :=
  let c := s.cmp n
  let k := if c.step = 0 then 0 else pastTarget c.modulo c.t p' way / c.step + 1
  let dist : Int := if way = 0 then k * c.step else -(k * c.step : Nat)
  let s := s.updCmp n fun c => { c with
    armed := c.step ≠ 0, fires := (c.fires + 1) % 0x10000, missed := min 255 (c.missed + (k - 1)),
    t := movedTarget c.modulo c.t dist }
  fireTrigger (0x30 + n) t (record s 0x0403 n [wrd way])

/-- A position change of source `n` at tick `t` from `p` to `p'` is tested by the armed compares on it (R203, R204). -/
def testCompares (n t : Nat) (p p' : BitVec 64) (s : State) : State :=
  forUpTo 8 (fun i s =>
    let c := s.cmp i
    if c.armed ∧ c.source = n ∧ c.armTick < t then
      (match crossing c.modulo c.t p p' with
       | some way => if s.pwr.sleep = .awake ∧ (c.dir = way ∨ c.dir = 2) then fireCompare t i way p' s else s
       | none => s)
    else s) s

/-- Whether the target is behind a position at ta, for direction `way` (R205). -/
def targetBehind (modulo : Bool) (t p : BitVec 64) (way : Nat) : Bool :=
  if modulo then decide (pastTarget true t p way < 2 ^ 31)
  else if way = 0 then decide (t.toInt ≤ p.toInt) else decide (p.toInt ≤ t.toInt)

/-! Motion. -/

/-- The direction flag after a motion of `step` direction units, `hyst` of which turn it (R198). -/
def moveDir (n : Nat) (step : Int) (hyst : Nat) (s : State) : State :=
  let q := s.src n
  let acc := q.dirAcc + step
  if (if q.dir then acc < 0 else 0 < acc) then s.updSrc n fun q => { q with dirAcc := 0 }
  else if hyst ≤ acc.natAbs ∧ acc ≠ 0 then
    record (s.updSrc n fun q => { q with dirAcc := 0, dir := !q.dir }) 0x0401 n [wrd (b2n (!q.dir))]
  else s.updSrc n fun q => { q with dirAcc := acc }

/-- The source moves at tick `t` to `p'`, `delta` in 2⁻³² revolution and `step` in direction units: motion for the speed, the
standstill, the direction flag and the compares (R195, R197, R198, R203). -/
def movePos (n t : Nat) (p' : BitVec 64) (delta step : Int) (hyst : Nat) (s : State) : State :=
  let p := (s.src n).p
  let s := s.updSrc n fun q => { q with
    p := p', moved := q.moved + delta, lastChange := some t, standstill := false }
  testCompares n t p p' (moveDir n step hyst s)

/-- A count or state change at tick `t`, its sample tick, joins the run of changes in its direction (R172, R195). -/
def noteChange (n t : Nat) (fwd : Bool) (s : State) : State :=
  s.updSrc n fun q =>
    { q with changes := if q.fwd = fwd then (t :: q.changes).take 2 else [t], fwd := fwd, tick := t }

/-! Encoders. -/

/-- P of a whole number of counts (R178). -/
def countPos (cpr : Nat) (m : Int) : BitVec 64 :=
  let c : Int := cpr
  BitVec.ofInt 64 (m / c * 2 ^ 32 + (m % c * 2 ^ 32) / c)

/-- The position of an encoder in counts: TURNS × CPR + count. -/
def encCounts (s : State) (n : Nat) : Int :=
  ((s.src n).p.toInt / 2 ^ 32) * (srcCpr s n : Int) + ((s.src n).count : Int)

/-- The quadrature index of A (bit 1) and B (bit 0): forward when A leads B (R177). -/
def quad (ab : Nat) : Nat := match ab with
  | 0 => 0 | 2 => 1 | 3 => 2 | _ => 3

/-- The difference d of R182, reduced by integer division. The homing step of R181 is −d: where both steps are smallest, at a
difference of CPR/2, it is +CPR/2 (the spec does not say; DESIGN CHOICE, log 53). -/
def indexDiff (cpr count pos : Nat) : Int :=
  let h : Int := (cpr / 2 : Nat)
  ((count : Int) - (pos : Int) + h) % (cpr : Int) - h

/-- P is moved by `by_` counts, which is no motion (R183). -/
def stepCounts (n : Nat) (by_ : Int) (s : State) : State :=
  let m := encCounts s n + by_
  s.updSrc n fun q => { q with p := countPos (srcCpr s n) m, count := (m % (srcCpr s n : Int)).toNat }

/-- EMU_CTRL of output `n`. -/
def emuCtrl (s : State) (n : Nat) : Word := parGet s 4 (0x20 + n)

/-- An input count `st` (1 or −1) of encoder `n` reaches the emulation outputs (R206, R207). -/
def emuCount (n : Nat) (st : Int) (s : State) : State :=
  forUpTo 2 (fun k s =>
    let w := emuCtrl s k
    let e := s.emu k
    let acc0 : Int := if e.fresh then 0 else e.acc
    if field w 24 24 ≠ n then s
    else if !wbit w 31 then s.updEmu k fun e => { e with fresh := false, acc := acc0 }
    else
      let lim : Int := field w 11 0
      let acc := acc0 + st * (field w 23 12 : Int)
      let z := e.z && wbit w 30
      if lim ≤ acc then s.updEmu k fun e => { e with fresh := false, acc := acc - lim, state := (e.state + 1) % 4, z := false }
      else if acc ≤ -lim then s.updEmu k fun e => { e with fresh := false, acc := acc + lim, state := (e.state + 3) % 4, z := false }
      else s.updEmu k fun e => { e with fresh := false, acc := acc, z := z }) s

/-- An input index event of encoder `n`: EMU_Z is high for the output state now in force (R206). -/
def emuIndex (n : Nat) (s : State) : State :=
  forUpTo 2 (fun k s =>
    if field (emuCtrl s k) 24 24 = n ∧ wbit (emuCtrl s k) 31 ∧ wbit (emuCtrl s k) 30 then s.updEmu k fun e => { e with z := true }
    else s) s

/-- An index event (R181, R182). -/
def indexEvent (n : Nat) (s : State) : State :=
  let q := s.src n
  let w := srcWord s n 3
  let d := indexDiff (srcCpr s n) q.count (field w 23 0)
  let s := emuIndex n s
  if wbit w 29 ∧ !q.homed then
    stepCounts n (-d) (noteSpeeds (s.updSrc n fun q => { q with homed := true, homeStep := -d }))
  else
    let corr := wbit w 30 && decide (d ≠ 0)
    let s := if corr then stepCounts n (-d) s else s
    if field (srcWord s n 4) 31 16 < d.natAbs then record s 0x0402 n [wrdI d, wrd (b2n corr)] else s

/-- A count of an encoder at tick `t`, forward or reverse (R177, R178, R180). -/
def encoderStep (n t : Nat) (fwd z : Bool) (s : State) : State :=
  let st : Int := if fwd then 1 else -1
  let m := encCounts s n + st
  let p' := countPos (srcCpr s n) m
  let delta := p'.toInt - (s.src n).p.toInt
  let s := noteChange n t fwd s
  let s := s.updSrc n fun q => { q with count := (m % (srcCpr s n : Int)).toNat }
  let s := movePos n t p' delta st (field (srcWord s n 0) 15 8) s
  let s := emuCount n st s
  let w := srcWord s n 3
  if wbit w 31 ∧ (s.src n).ab = field w 27 26 ∧ z = !wbit w 28 then indexEvent n s else s

/-- A double change of A and B at tick `t` (R179). -/
def illegalTransition (n t : Nat) (s : State) : State :=
  let ticks := ((s.src n).errTicks.filter fun x => t < x + msTicks) ++ [t]
  let s := errCount n (s.updSrc n fun q => { q with errTicks := ticks })
  if field (srcWord s n 4) 7 0 < (ticks.filter fun x => inSlide t x msTicks).length then faultSource n 1 s else s

/-- The ticks for which a level of source `n` must last to pass its filter (R177, R184). -/
def srcFilt (s : State) (n : Nat) : Nat :=
  if n < 2 then field (srcWord s n 2) 30 28 else 40 * field (srcWord s n 2) 7 0

/-- The filtered levels of encoder `n` become `lv` (A, B, Z) at tick `t` (R177 to R182). -/
def encoderLevels (n t lv : Nat) (s : State) : State :=
  let new := lv / 2
  let z := decide (lv % 2 = 1)
  let diff := (quad new + 4 - quad (s.src n).ab) % 4
  let s := (captureBefore n t s).updSrc n fun q => { q with ab := new, zf := z }
  if diff = 0 ∨ !posRuns s ∨ !srcEn s n then s
  else if diff = 2 then illegalTransition n t s
  else encoderStep n t ((diff = 1) != wbit (srcWord s n 0) 28) z s

/-- The filtered levels of an encoder. -/
def filtLevels (q : PosSrc) : Nat := 2 * q.ab + b2n q.zf

/-- The ticks, up to now, at which levels of encoder `n` that still lie ahead of the filter have passed it. -/
def filtTicks (s : State) (n : Nat) : List Nat :=
  let q := s.src n
  ((below 3 fun b => q.raw.testBit b != (filtLevels q).testBit b).map fun b => q.rawAt.getD b 0 + srcFilt s n).filter
    fun t => decide (t ≤ s.now)

/-- The levels of encoder `n` that pass its filter first do so. -/
def encoderPass (n : Nat) (s : State) : State :=
  match (filtTicks s n).min? with
  | none => s
  | some t =>
    let q := s.src n
    let bit (b : Nat) : Bool := if q.rawAt.getD b 0 + srcFilt s n = t then q.raw.testBit b else (filtLevels q).testBit b
    encoderLevels n t (maskOf (below 3 bit)) s

/-- Every level of encoder `n` that has lasted long enough by now passes its filter, in order. -/
def encoderSettle (n : Nat) (s : State) : State := forUpTo 3 (fun _ s => encoderPass n s) s

/-- ENCODER_COUNT: the pins of encoder `n` show A, B and Z at this tick; what has lasted for FILT ticks passes the filter and counts
(R177 to R182). A row with the levels unchanged only lets what waits pass. -/
def execEncoderCount (n : Nat) (a b z : Bool) (s : State) : Host.Outcome State Fault Refusal :=
  .next (
    if 2 ≤ n then s
    else
      let new := 4 * b2n a + 2 * b2n b + b2n z
      let s := encoderSettle n s
      let s := s.updSrc n fun q => { q with
        raw := new, rawAt := (List.range 3).map fun k => if q.raw.testBit k = new.testBit k then q.rawAt.getD k 0 else s.now }
      encoderSettle n s)

/-! Hall sets. -/

/-- HALL_ANGLE of state 1 to 6 of Hall set `n`, as an ANGLE (R184). -/
def hallAngle (s : State) (n st : Nat) : Nat :=
  let w := srcWord s n (3 + (st - 1) / 2)
  (if st % 2 = 1 then field w 15 0 else field w 31 16) * 2 ^ 16

/-- P with its ANGLE changed to `a`, the short way round, with TURNS moved by a wrap (R172). -/
def angleTo (p : BitVec 64) (a : Nat) : BitVec 64 :=
  BitVec.ofInt 64 (p.toInt + sgn32 (a + 2 ^ 32 - p.toNat % 2 ^ 32))

/-- State `st` of Hall set `n` has passed its filter at tick `t` (R184, R185). The first valid one after a start sets P and is no
change. -/
def hallState (n t st : Nat) (s : State) : State :=
  let s := (captureBefore n t s).updSrc n fun q => { q with ab := st }
  if !posRuns s ∨ !srcEn s n then s
  else if st = 0 ∨ st = 7 then faultSource n 2 s
  else
    let q := s.src n
    let a := hallAngle s n st
    if !q.started then s.updSrc n fun q => { q with started := true, count := st, p := BitVec.ofNat 64 a, tick := t }
    else if st = q.count then s
    else
      let d := sgn32 (a + 2 ^ 32 - hallAngle s n q.count)
      let s := s.updSrc n fun q => { q with count := st }
      if 2 ^ 30 < d.natAbs then faultSource n 3 s
      else
        let p' := angleTo q.p a
        let s := noteChange n t (decide (0 ≤ d)) s
        let s := s.updSrc n fun q => { q with lastStep := d.natAbs }
        movePos n t p' (p'.toInt - q.p.toInt) (if 0 ≤ d then 1 else -1) (field (srcWord s n 0) 15 8) s

/-- The state at the pins of Hall set `n` passes its filter once it has lasted long enough. -/
def hallSettle (n : Nat) (s : State) : State :=
  let q := s.src n
  let t := q.rawAt.headD 0 + srcFilt s n
  if (q.raw = q.ab ∧ q.started) ∨ s.now < t then s else hallState n t q.raw s

/-- HALL_STATE_CHANGE: the pins of Hall set `n` show state `st` at this tick; a state that has lasted for FILT × 40 ticks passes the
filter (R184, R185). -/
def execHallStateChange (n st : Nat) (s : State) : Host.Outcome State Fault Refusal :=
  .next (
    if n < 2 ∨ 4 ≤ n ∨ 8 ≤ st then s
    else
      let s := if (s.src n).rawAt = [] then s else hallSettle n s
      let s := s.updSrc n fun q => if q.raw = st ∧ q.rawAt ≠ [] then q else { q with raw := st, rawAt := [s.now] }
      hallSettle n s)

/-! SSI and SENT. -/

/-- A bad frame: STALE, ERR_COUNT, and a fault at the third in a row, with the cause of that third one where the three differ (R188,
R191; the spec does not say which; DESIGN CHOICE, log 53). -/
def badFrame (n cause : Nat) (s : State) : State :=
  let s := errCount n (s.updSrc n fun q => { q with stale := true, badRun := q.badRun + 1, slow := [] })
  if 3 ≤ (s.src n).badRun then faultSource n cause s else s

/-- A good frame with position `p'` true at `tick`, its LSB 2^lsb in 2⁻³² revolution (R188, R195, R197 to R199). The
first one after a start sets P and is no change. -/
def goodFrame (n : Nat) (p' : BitVec 64) (lsb tick : Nat) (s : State) : State :=
  let s := captureBefore n s.now s
  let q := s.src n
  let s := s.updSrc n fun q => { q with
    stale := false, badRun := 0,
    before := some { done := s.now, p := q.p, dir := q.dir, tick := q.tick, capTick := q.capTick, moved := q.moved,
                     started := q.started, lastChange := q.lastChange } }
  if !q.started then noteSpeeds (s.updSrc n fun q => { q with started := true, p := p', tick := tick, moved := 0 })
  else
    let delta := sgn32 (p'.toNat % 2 ^ 32 + 2 ^ 32 - q.p.toNat % 2 ^ 32)
    let s := s.updSrc n fun q => { q with moved := 0, capTick := some q.tick, tick := tick }
    if p' = q.p then s
    else movePos n s.now p' delta (delta / 2 ^ lsb) (field (srcWord s n 0) 15 8) s

/-- The period of SSIn_CLK in ticks: 200 MHz / (CLK_DIV + 1) (R186). -/
def ssiPeriod (s : State) (n : Nat) : Nat := 2 * (field (srcWord s n 2) 15 0 + 1)

/-- SSIn_CLK: high at rest; its first falling edge is at the firing of START, the sample tick, and FRAME_BITS rising edges follow
(R186). -/
def ssiClock (s : State) (n : Nat) : Bool :=
  let q := s.src n
  let o := s.now - q.startTick
  !q.busy || decide (ssiPeriod s n * field (srcWord s n 3) 29 24 ≤ o) || decide (ssiPeriod s n / 2 ≤ o % ssiPeriod s n)

/-- SSI_START: the START trigger of an SSI source begins a transfer (R186). -/
def execSsiStart (n : Nat) (s : State) : Host.Outcome State Fault Refusal :=
  .next (
    if n < 4 ∨ 6 ≤ n then s
    else match (s.src n).startDue with
    | none => s
    | some t =>
      let s := s.updSrc n fun q => { q with startDue := none }
      if !posRuns s ∨ !srcEn s n then s
      else if (s.src n).busy then errCount n s
      else s.updSrc n fun q => { q with busy := true, startTick := t })

/-- The value of a Gray-coded number of `k` bits. -/
def grayValue (k g : Nat) : Nat :=
  match k with
  | 0 => g
  | j + 1 => g ^^^ (grayValue j (g / 2))

/-- The FRAME_BITS bits of a transfer, MSB first, as a number (R186). -/
def ssiWord (s : State) (n : Nat) (bits : List Bool) : Nat :=
  (List.range (field (srcWord s n 3) 29 24)).foldl (fun a k => 2 * a + b2n (bits.getD k false)) 0

/-- The position of an SSI frame and the weight of its LSB (R187). The MT_BITS bits are taken into TURNS without a sign (the spec does
not say; DESIGN CHOICE, log 53). -/
def ssiPos (s : State) (n : Nat) (w : Nat) : BitVec 64 × Nat :=
  let c := srcWord s n 3
  let fb := field c 29 24
  let pb := field c 21 16
  let mt := field c 13 8
  let raw := w % 2 ^ fb / 2 ^ (fb - pb)
  let v := if wbit (srcWord s n 2) 31 then grayValue pb raw else raw
  let sb := pb - mt
  (BitVec.ofNat 64 (v / 2 ^ sb * 2 ^ 32 + v % 2 ^ sb * 2 ^ (32 - sb)), 32 - sb)

/-- Whether the parity of a frame is right: an odd or an even number of ones among its FRAME_BITS bits (R187; which bits it covers is
DEDUCED, log 53). -/
def ssiParity (s : State) (n : Nat) (bits : List Bool) : Bool :=
  let ones := (below (field (srcWord s n 3) 29 24) fun k => bits.getD k false).length
  decide (ones % 2 = b2n (wbit (srcWord s n 2) 29))

/-- Whether the line behaves: DAT high before the transfer, low within one clock period after the last bit, and high again within
MONOFLOP; times in ticks (R187). -/
def ssiLine (s : State) (n : Nat) (high : Bool) (fall rise : Nat) : Bool :=
  high && decide (fall ≤ ssiPeriod s n) && decide (rise ≤ field (srcWord s n 4) 15 0 * usTicks)

/-- SSI_FRAME_END: a transfer and its monoflop time end (R186 to R188): DAT before the transfer, the levels that the rising edges
read, first to last, and the ticks from the last to the fall of DAT and on to its rise. The status bits are the low bits of the frame
below the position field. -/
def execSsiFrameEnd (n : Nat) (high : Bool) (bits : List Bool) (fall rise : Nat) (s : State) : Host.Outcome State Fault Refusal :=
  .next (
    if n < 4 ∨ 6 ≤ n ∨ !(s.src n).busy ∨ s.now < (s.src n).startTick + ssiPeriod s n * field (srcWord s n 3) 29 24 then s
    else
      let c := srcWord s n 3
      let s := s.updSrc n fun q => { q with busy := false }
      let w := ssiWord s n bits
      let low := w % 2 ^ (field c 29 24 - field c 21 16)
      if !posRuns s ∨ !srcEn s n then s
      else if !ssiLine s n high fall rise then badFrame n 4 s
      else if (wbit (srcWord s n 2) 30 ∧ !ssiParity s n bits) ∨ low &&& field c 7 0 ≠ 0 then badFrame n 5 s
      else goodFrame n (ssiPos s n w).1 (ssiPos s n w).2 (s.src n).startTick s)

/-! SENT (R189 to R191). What R189 takes from SAE J2716 without stating it (the CRCs, the serial messages) is PRESUMED, log 74. -/

/-- `n` bits of a register of `w` bits with polynomial `poly` shifted, the top one out and zeros in. -/
def crcShift (w poly : Nat) (n : Nat) (c : Nat) : Nat :=
  match n with
  | 0 => c
  | k + 1 => crcShift w poly k (if 2 ^ (w - 1) ≤ c then (2 * c) ^^^ poly else 2 * c)

/-- The CRC of data nibbles: x⁴ + x³ + x² + 1 from 0101, with an augmentation of one zero nibble but for the legacy CRC. -/
def sentCrc (legacy : Bool) (l : List Nat) : Nat :=
  let c := l.foldl (fun c d => crcShift 4 0x1D 4 c ^^^ d) 5
  if legacy then c else crcShift 4 0x1D 4 c

/-- The CRC of an enhanced serial message of 24 bits: x⁶ + x⁴ + x³ + 1 from 010101, with six zeros. -/
def sentCrc6 (l : List Bool) : Nat :=
  crcShift 6 0x59 6 (l.foldl (fun c b => crcShift 6 0x59 1 c ^^^ b2n b) 0x15)

/-- A nominal clock tick in TD1 ticks (TICK in 25 ns). -/
def sentTick (s : State) (n : Nat) : Nat := 10 * field (srcWord s n 2) 11 0

/-- Whether a synchronisation pulse is right: within 20 % of 56 nominal ticks, and within 1/64 of the one before (R190). -/
def syncOk (s : State) (n p : Nat) : Bool :=
  let nom := 56 * sentTick s n
  decide (4 * nom ≤ 5 * p) && decide (5 * p ≤ 6 * nom) && (match (s.src n).sync with
    | none => true
    | some q => decide (64 * (p - q + (q - p)) ≤ q))

/-- The value of a nibble pulse in clock ticks of its frame, rounded to the nearest; none outside 12 to 27 (R190). -/
def sentNibble (sync p : Nat) : Option Nat :=
  let x := (112 * p + sync) / (2 * sync)
  if sync = 0 ∨ x < 12 ∨ 27 < x then none else some (x - 12)

/-- The status nibble and the data nibbles of a frame of pulses that is right but for its status bits: synchronisation, status,
NIBBLES of data, CRC, and a pause where PAUSE = 1 (R189, R190). -/
def sentFrame (s : State) (n : Nat) (pulses : List Nat) : Option (List Nat) :=
  let w := srcWord s n 2
  let k := field w 18 16
  let sync := pulses.headD 0
  let nib := (List.range (k + 2)).map fun i => sentNibble sync (pulses.getD (i + 1) 0)
  if pulses.length ≠ k + 3 + b2n (wbit w 20) ∨ !syncOk s n sync ∨ nib.any (fun x => x.isNone) then none
  else
    let v := nib.map fun x => x.getD 0
    if sentCrc (wbit w 21) ((v.drop 1).take k) = v.getD (k + 1) 0 then some (v.take (k + 1)) else none

/-- Bit `b` of the status nibbles of frames `i` to `j`, first to last, as a number; `l` holds the first frame first. -/
def slowBits (l : List Nat) (b i j : Nat) : Nat :=
  ((l.drop (i - 1)).take (j + 1 - i)).foldl (fun a x => 2 * a + b2n (x.testBit b)) 0

/-- The message that the last frames complete (newest first): an enhanced serial message of 18, or a short one of 16, as message ID
and data. -/
def slowMessage (legacy : Bool) (slow : List Nat) : Option Word :=
  let e := (slow.take 18).reverse
  let h := (slow.take 16).reverse
  if e.length = 18 ∧ slowBits e 3 1 7 = 0x7E ∧ slowBits e 3 13 13 = 0 ∧ slowBits e 3 18 18 = 0 ∧
      sentCrc6 ((e.drop 6).flatMap fun x => [x.testBit 2, x.testBit 3]) = slowBits e 2 1 6 then
    (let hi := slowBits e 3 9 12
     let lo := slowBits e 3 14 17
     let data := slowBits e 2 7 18
     some (if slowBits e 3 8 8 = 0 then wrd ((16 * hi + lo) * 2 ^ 24 + data) else wrd (hi * 2 ^ 24 + lo * 2 ^ 12 + data)))
  else if h.length = 16 ∧ slowBits h 3 1 16 = 0x8000 ∧
      sentCrc legacy [slowBits h 2 1 4, slowBits h 2 5 8, slowBits h 2 9 12] = slowBits h 2 13 16 then
    some (wrd (slowBits h 2 1 4 * 2 ^ 24 + slowBits h 2 5 12))
  else none

/-- The status nibble of a good frame joins the slow channel where SLOW_EN = 1; a message it completes goes to SENT_SLOW (R189). -/
def slowChannel (n st : Nat) (s : State) : State :=
  if !wbit (srcWord s n 2) 22 then s
  else
    let l := (st :: (s.src n).slow).take 18
    match slowMessage (wbit (srcWord s n 2) 21) l with
    | some w => s.updSrc n fun q => { q with slow := [], sentSlow := w }
    | none => s.updSrc n fun q => { q with slow := l }

/-- The position of a SENT frame, left-justified, and the weight of its LSB (R190). -/
def sentPos (s : State) (n : Nat) (nibbles : List Nat) : BitVec 64 × Nat :=
  let w := srcWord s n 3
  let k := field w 6 4
  let v := ((nibbles.drop (field w 2 0)).take k).foldl (fun a x => a * 16 + x % 16) 0
  (BitVec.ofNat 64 (v * 2 ^ (32 - 4 * k)), 32 - 4 * k)

/-- SENT_FRAME: a fast-channel frame ends, its pulses in ticks from falling edge to falling edge (R189 to R191). The sample tick is
the falling edge that begins its synchronisation pulse. -/
def execSentFrame (n : Nat) (pulses : List Nat) (s : State) : Host.Outcome State Fault Refusal :=
  .next (
    if n < 6 ∨ 10 ≤ n ∨ !posRuns s ∨ !srcEn s n then s
    else
      let f := sentFrame s n pulses
      let s := s.updSrc n fun q => { q with sync := some (pulses.headD 0) }
      match f with
      | none => badFrame n 6 s
      | some v =>
        let st := v.headD 0
        if st &&& field (srcWord s n 4) 3 0 ≠ 0 then badFrame n 6 s
        else
          let pos := sentPos s n v.tail
          goodFrame n pos.1 pos.2 (s.now - pulses.sum) (slowChannel n st s))

/-- SENT_TIMEOUT: no frame within two nominal frame lengths counts as a bad frame (R191). -/
def execSentTimeout (n : Nat) (s : State) : Host.Outcome State Fault Refusal :=
  .next (if n < 6 ∨ 10 ≤ n ∨ !posRuns s ∨ !srcEn s n then s else badFrame n 6 s)

/-! Resolvers. -/

/-- An evaluation of context `c`, triggered at `t0`, has written back: each resolver it tracks takes ANGLE and SPEED
from its outputs 0 and 1 (R193). -/
def resolverUpdate (c : Nat) (out0 out1 : Word) (t0 : Nat) (s : State) : State :=
  forUpTo 2 (fun i s =>
    let n := 10 + i
    if !posRuns s ∨ !srcEn s n ∨ field (srcWord s n 4) 7 0 ≠ c then s
    else
      let s := captureBefore n s.now s
      let q := s.src n
      let a := toAngle out0
      let s := noteSpeeds (s.updSrc n fun q => { q with speed := out1, tick := t0, started := true })
      if !q.started then s.updSrc n fun q => { q with started := true, p := BitVec.ofNat 64 a }
      else
        let p' := angleTo q.p a
        if p' = q.p then s
        else movePos n s.now p' (p'.toInt - q.p.toInt) (p'.toInt - q.p.toInt) (field (srcWord s n 0) 15 8 * 2 ^ 16) s) s

/-- A fault of context `c` faults the resolvers that it tracks (R193). -/
def resolverFault (c : Nat) (s : State) : State :=
  forUpTo 2 (fun i s =>
    if posRuns s ∧ srcEn s (10 + i) ∧ field (srcWord s (10 + i) 4) 7 0 = c then faultSource (10 + i) 7 s else s) s

/-- The excitation output of resolver `n`: a square wave re-phased at each period start of its timebase (R192). -/
def excLevel (s : State) (n : Nat) : Bool :=
  let t := field (srcWord s n 2) 17 16
  let per := 4 * field (srcWord s n 2) 15 0
  srcEn s n && wbit (srcWord s n 2) 31 && posRuns s &&
    decide ((tbOffset s t + per - 4 * field (srcWord s n 3) 15 0) % per < per / 2)

/-! The capture row. -/

/-- POS_CAPTURE: the CAPTURE trigger of source `n` has fired (R174). -/
def execPosCapture (n : Nat) (s : State) : Host.Outcome State Fault Refusal :=
  .next (match (s.src n).capDue with
    | some tc => if n < 12 ∧ posRuns s ∧ srcEn s n then capture n tc s else s.updSrc n fun q => { q with capDue := none }
    | none => s)

/-! Restart, parameters and commands. -/

/-- Source `n` restarts (R202, R208): of what a program can read, what R208 does not name is kept, but STANDSTILL is 1 and METHOD 0 as
after reset, for P has not moved and no SPEED has been computed (the spec does not say; DESIGN CHOICE, log 53). -/
def restartSource (n : Nat) (s : State) : State :=
  let s := s.updSrc n fun q =>
    { ab := q.ab, zf := q.zf, raw := q.raw, rawAt := q.rawAt, recd := q.recd, prevRec := q.prevRec, held := q.held, faultCause := q.faultCause,
      homeStep := q.homeStep, sentSlow := q.sentSlow, runCaps := q.runCaps }
  let s := parSet s 4 (0x10C + 16 * n) 0
  let s := if n < 2 then s.updSrc n fun q => { q with tick := s.now } else s
  noteSpeeds (forUpTo 8 (fun i s => if (s.cmp i).source = n then s.updCmp i fun c => { c with armed := false } else s) s)

/-- CAPTURE of source `n`, and whether two sources have one code. -/
def sameCapture (s : State) (a b : Nat) : Bool := field (srcWord s a 0) 23 16 = field (srcWord s b 0) 23 16

/-- The check of a write to a parameter of unit 0x04 (R194, R201, *EMU_CTRL*). -/
def check04 (s : State) (i : Nat) (v : Word) : Nat :=
  if 0x10 ≤ i ∧ i ≤ 0x13 then
    (let p := field v 3 0
     let q := field v 7 4
     if field v 31 24 = 0 ∨ (12 ≤ p ∧ p < 15) ∨ (12 ≤ q ∧ q < 15) ∨ q = 10 ∨ q = 11 ∨ (q ≠ 15 ∧ q = p) ∨
        (q ≠ 15 ∧ p ≠ 15 ∧ !sameCapture s p q) then stBadParam else stOk)
  else if i = 0x20 ∨ i = 0x21 then
    (if field v 23 12 = 0 ∨ field v 11 0 = 0 ∨ field v 11 0 < field v 23 12 then stBadParam else stOk)
  else stOk

/-- The write of a parameter of unit 0x04 lands (R207). -/
def write04 (s : State) (i : Nat) (v : Word) : State :=
  let s := parSet s 4 i v
  if 0x10 ≤ i ∧ i ≤ 0x13 then { s with pos := { s.pos with mism := tblSet s.pos.mism 0 (i - 0x10) 0 } }
  else if i = 0x20 ∨ i = 0x21 then s.updEmu (i - 0x20) fun e => { e with fresh := true }
  else s

/-- SRC_STATUS. -/
def srcStatus (s : State) (n : Nat) : Word :=
  let q := s.src n
  wrd (q.faultCause * 2 ^ 24 + b2n q.fault * 2 ^ 15 + b2n (srcValid s n) * 2 ^ 14 + b2n q.homed * 2 ^ 13 +
    b2n q.standstill * 2 ^ 12 + b2n q.dir * 2 ^ 11 + b2n q.method * 2 ^ 10 + b2n q.stale * 2 ^ 9)

/-- CMP_CTRL. -/
def cmpCtrl (s : State) (n : Nat) : Word :=
  let c := s.cmp n
  wrd (b2n c.armed * 2 ^ 31 + c.dir * 2 ^ 29 + b2n c.modulo * 2 ^ 28 + c.missed * 2 ^ 20 + c.source * 2 ^ 16 + c.fires)

/-- The value of a parameter of unit 0x04. -/
def read04 (s : State) (i : Nat) : Word :=
  if 0x100 ≤ i ∧ i < 0x1C0 then
    (let n := (i - 0x100) / 16
     match i % 16 with
     | 8 => srcStatus s n
     | 9 => wrd ((s.src n).p.toNat)
     | 0xA => wrd (s.src n).held.turns
     | 0xB => (s.src n).held.speed
     | 0xD => (s.src n).sentSlow
     | 0xE => wrdI (s.src n).homeStep
     | _ => parGet s 4 i)
  else if 0x300 ≤ i ∧ i < 0x320 then
    (let n := (i - 0x300) / 4
     match i % 4 with
     | 0 => cmpCtrl s n
     | 1 => wrd (s.cmp n).t.toNat
     | 2 => wrd ((s.cmp n).t.toNat / 2 ^ 32)
     | _ => wrd (s.cmp n).step)
  else parGet s 4 i

/-- A read of ANGLE captures TURNS, SPEED and the sample tick of the same update. -/
def captureAngle (n : Nat) (s : State) : State :=
  s.updSrc n fun q =>
    { q with held := { angle := q.p.toNat % 2 ^ 32, turns := q.p.toNat / 2 ^ 32, speed := q.speed, dir := q.dir,
                       valid := q.fault = false, tick := q.tick, trig := 0 } }

/-- Whether the kind words 2 to 5 of a source are in range (*Source kind words*). -/
def kindWordsOk (k : SrcKind) (w2 w3 w4 w5 : Word) : Bool :=
  match k with
  | .encoder =>
    !hasBits w2 0x8F000000 && decide (4 ≤ field w2 23 0) && !hasBits w3 0x03000000 &&
      decide (field w3 23 0 < field w2 23 0) && !hasBits w4 0x8000FF00 && w5 == 0
  | .hall => !hasBits w2 0xFFFFFF00
  | .ssi =>
    !hasBits w2 0x1FFF0000 && decide (19 ≤ field w2 15 0) && decide (field w2 15 0 ≤ 1999) && !hasBits w3 0xC0C0C000 &&
      decide (8 ≤ field w3 29 24) && decide (field w3 29 24 ≤ 32) && decide (1 ≤ field w3 21 16) &&
      decide (field w3 21 16 ≤ field w3 29 24) && decide (field w3 13 8 < field w3 21 16) && !hasBits w4 0xFFFF0000 &&
      decide (1 ≤ field w4 15 0) && decide (field w4 15 0 ≤ 1000) && w5 == 0
  | .sent =>
    !hasBits w2 0xFF88F000 && decide (1 ≤ field w2 18 16) && decide (field w2 18 16 ≤ 6) && decide (120 ≤ field w2 11 0) &&
      decide (field w2 11 0 ≤ 3600) && !hasBits w3 0xFFFFFF88 && decide (1 ≤ field w3 6 4) &&
      decide (field w3 6 4 ≤ field w2 18 16) && decide (field w3 2 0 + field w3 6 4 ≤ field w2 18 16) &&
      !hasBits w4 0xFFFFFFF0 && w5 == 0
  | .resolver =>
    !hasBits w2 0x7FFC0000 && decide (5000 ≤ field w2 15 0) && decide (field w2 15 0 ≤ 50000) && !hasBits w3 0xFFFF0000 &&
      decide (field w3 15 0 < field w2 15 0) && !hasBits w4 0xFFFFFF00 && w5 == 0

/-- Whether a POS_CONFIG block is in range for source `n` (R196, R201, R208, *SRC_CFG*, *SRC_TIME*). -/
def posBlockOk (s : State) (n : Nat) (w0 w1 w2 w3 w4 w5 : Word) : Bool :=
  !hasBits w0 0x0F000000 && decide (field w0 30 29 ≠ 3) && (decide (n < 4) || decide (field w0 30 29 = 0)) &&
    triggerOk (field w0 23 16) && decide (field w0 15 8 ≠ 0) && decide (field w0 7 0 ≠ 0) && !hasBits w1 0xFF000000 &&
    decide (field w1 15 0 ≠ 0) && (if srcKind n = .ssi then triggerOk (field w1 23 16) else decide (field w1 23 16 = 0)) &&
    kindWordsOk (srcKind n) w2 w3 w4 w5 &&
    (below 4 fun d =>
      let p := posPrimary s d
      let q := posSecondary s d
      p ≠ 15 && q ≠ 15 && ((p = n && field (srcWord s q 0) 23 16 ≠ field w0 23 16) ||
        (q = n && field (srcWord s p 0) 23 16 ≠ field w0 23 16))) = []

/-- POS_CONFIG (R208). -/
def bodyPosConfig (ws : List Word) (s : State) : CmdRes :=
  let n := field (pw ws 0) 3 0
  checked s
    [(hasBits (pw ws 0) 0xFFFFFFF0 || decide (12 ≤ n) ||
        !posBlockOk s n (pw ws 1) (pw ws 2) (pw ws 3) (pw ws 4) (pw ws 5) (pw ws 6), stBadParam)]
    (.done stOk [] (restartSource n (forUpTo 6 (fun w s => parSet s 4 (0x100 + 16 * n + w) (pw ws (w + 1))) s)))

/-- POS_COMPARE (R203 to R205). -/
def bodyPosCompare (ws : List Word) (s : State) : CmdRes :=
  let w := pw ws 0
  let u := field w 2 0
  let n := field w 19 16
  let modulo := wbit w 28
  let dir := field w 30 29
  let t := BitVec.ofNat 64 (ofTwoWords (pw ws 1) (pw ws 2))
  let p := (s.src n).p
  checked s
    [(hasBits w 0x0FF0FFF8 || decide (dir = 3) || decide (12 ≤ n) || !srcEn s n ||
        (wbit w 31 && ((modulo && pw ws 2 != 0) || (decide (dir = 2) && pw ws 3 != 0))), stBadParam)]
    (if !wbit w 31 then .done stOk (twoWords s.now) (s.updCmp u fun c => { c with armed := false })
     else
       .done
         (if targetBehind modulo t p (if dir = 2 then b2n (s.src n).dir else dir) then stCompareBehind else stOk)
         (twoWords s.now)
         (s.updCmp u fun _ => { armed := true, dir := dir, modulo := modulo, missed := 0, source := n, fires := 0, t := t,
                                step := (pw ws 3).toNat, armTick := s.now }))

end Sys2Proof.Machine
end

