-- ==== Sys2Proof/Machine/Rings.lean ====
section
/-!
DEFINITION. StippleLink (08_stipple_link.md): ring heads and their frames, return frames and the directory,
enumeration, management transactions and ring breaks, and the commands of the chapter.
-/
namespace Sys2Proof.Machine

/-! Ring parameters. -/
/-- Whether the part has ring `r`. -/
def ringPresent (s : State) (r : Nat) : Bool := r < ringCount s.part
/-- RING_CFG of ring `r`. -/
def ringCfg (s : State) (r : Nat) : Word := parGet s 6 (0x100 + 16 * r)
/-- A string parameter of ring `r`. -/
def strPar (s : State) (r w : Nat) : Word := parGet s 6 (0x200 + 32 * r + w)
/-- The telemetry groups of a ring, G. -/
def ringGroups (s : State) (r : Nat) : Nat := (ringNodes s r + 31) / 32
/-- S of a down frame for `n` nodes. -/
def stateBytes (n : Nat) : Nat := 4 * ((n + 7) / 8)
/-- The ticks from a send to its earliest apply time: (N + S + 64) × 16 + 200 (R27, R266). -/
def frameLead (n : Nat) : Nat := (n + stateBytes n + 64) * 16 + 200
/-- The ring period T of the drive that uses the ring (R241). -/
def ringPeriod (s : State) (r : Nat) : Nat := match ringTimebase s r with
  | some t => tbLen s t
  | none => 0
/-- The directory index of a position. -/
def dirIndex (r p : Nat) : Nat := 256 * r + p
/-- The period number that a ring's events carry: PERIOD_COUNT of its timebase. -/
def ringPeriodNumber (s : State) (r : Nat) : Word := match ringTimebase s r with
  | some t => parGet s 5 (0x10B + 16 * t)
  | none => 0

/-- Whether the drive of the ring runs or stops (R266). -/
def ringDriveRuns (s : State) (r : Nat) : Bool := match ringDrive s r with
  | some d => driveRuns (s.drive d)
  | none => false

/-- The nibble of SS2 and of a trip on ring `r` (R292). -/
def ss2Nibble (s : State) (r : Nat) : Nat := if wbit (strPar s r 0) 29 then 2 else 1

/-- The nibble that Stop-out or a trip orders on ring `r`: the safe state of its drive first (R266, R292). -/
def safeNibble (s : State) (r : Nat) : Option Nat :=
  let rank := match ringDrive s r with
    | some d => ssRank (s.drive d).dst
    | none => 0
  if rank = 1 then some 0
  else if rank = 2 then some (ss2Nibble s r)
  else if rank = 3 then some 5
  else if actsOnRing s r ≠ [] then some (ss2Nibble s r)
  else none

/-- Whether the device is the one that sends down frames: single, or active and not handing over (R29, R417). -/
def headSends (s : State) : Bool := s.marg.role ≠ 2 && s.marg.ho ≠ .taking

/-- Whether the device is the sender of ring `r`: during a commanded hand-over the old active device sends until hd of the
ring's drive, and the new one from then on (R418). -/
def headOf (s : State) (r : Nat) : Bool :=
  match ringDrive s r with
  | some d => if (s.drive d).hd = none then headSends s else (s.drive d).dst = .run && s.marg.ho ≠ .taking
  | none => headSends s

/-- Whether the device is awake for the rings: in STANDBY, RUN and SAFE (R266). -/
def ringsAwake (s : State) : Bool :=
  (s.op = .standby || s.op = .run || s.op = .safe) && s.pwr.sleep = .awake

/-- Whether the ring head sends frames of ring `r` now: its own, or as the far end of a broken ring (R266, R270). Down frames stop
while TD2 is not locked (R42). -/
def ringSends (s : State) (r : Nat) : Bool :=
  ringPresent s r && ringsAwake s && s.tim.td2 && wbit (ringCfg s r) 31 && (s.ring r).st = .ready &&
    (headOf s r || (s.marg.role = 2 && (s.ring r).farAt ≠ none))

/-- The nearest tick at or after now at which TD1 and TD2 edges coincide (R251). -/
def sendTick (s : State) : Nat := (s.now + 7) / 8 * 8

/-- /I/, K28.5 (*StippleLink symbols*). -/
def symIdle : Nat := 0xBC
/-- /F/, K28.1 (*StippleLink symbols*). -/
def symFault : Nat := 0x3C

/-- What the port of ring `r` transmits while it sends no frame (R239, R266): /F/ while its receive lane is not up and while the ring
head is not active, /I/ otherwise; nothing without TD2 or on an absent ring. -/
def portSymbol (s : State) (r : Nat) : Option Nat :=
  if !ringPresent s r || !s.tim.td2 then none
  else if wbit (ringCfg s r) 31 && (s.ring r).lock then some symIdle
  else some symFault

/-! Frames on the line (R242 to R247). -/

/-- A number as `n` bytes, low byte first. -/
def leBytes (n v : Nat) : List Nat :=
  match n with
  | 0 => []
  | k + 1 => v % 256 :: leBytes k (v / 256)

/-- The number of a list of bytes, low byte first. -/
def leNat (l : List Nat) : Nat := match l with
  | [] => 0
  | b :: r => b + 256 * leNat r

/-- Two nibbles a byte, even positions low. -/
def nibbleBytes (l : List Nat) : List Nat := match l with
  | a :: b :: r => (a + 16 * b) :: nibbleBytes r
  | [a] => [a]
  | [] => []

/-- The nibbles of bytes, low nibble first. -/
def byteNibbles (l : List Nat) : List Nat := l.flatMap fun b => [b % 16, b / 16 % 16]

/-- FTYPE as a byte. -/
def ftypeCode (t : FType) : Nat := match t with
  | .normal => 1 | .repeated => 2 | .safe => 3 | .idle => 4 | .enum => 5

/-- Fine-edge entry 0 (R245): position, MSTATE, OFF and ON. -/
def fineEntry (m : Option (Nat × Nat × Nat × Nat)) : Nat := match m with
  | some (p, st, on, off) => p * 2 ^ 56 + st * 2 ^ 52 + (off % 2 ^ 24) * 2 ^ 24 + on % 2 ^ 24
  | none => 0

/-- S of a frame: 128 in an ENUM frame. -/
def frameStates (n : Nat) (f : DownFrame) : Nat := if f.ftype = .enum then 128 else stateBytes n

/-- A list cut or filled with zeros to `n` bytes. -/
def padBytes (n : Nat) (l : List Nat) : List Nat := (l ++ List.replicate n 0).take n

/-- The 16 bytes of the management slot (*Management request*). -/
def mgmtBytes (m : Option MgmtReq) : List Nat := match m with
  | some q => [q.op, q.tid] ++ leBytes 2 q.target ++ leBytes 2 q.reg ++ [0, 0] ++ leBytes 8 q.data.toNat
  | none => List.replicate 16 0

/-- Bytes 1 to 42 + S of a down frame (*Down frame*): its content without the management slot and the CRC. -/
def frameContent (n : Nat) (f : DownFrame) : List Nat :=
  [f.tlmKind * 64 + f.group] ++ leBytes 2 f.seq ++ [ftypeCode f.ftype, b2n f.mod.isSome, 0] ++ leBytes 4 f.send ++
    leBytes 8 f.apply ++ padBytes (frameStates n f) (if f.ftype = .enum then payloadBytes f.enumData else nibbleBytes f.states) ++
    leBytes 8 (fineEntry f.mod) ++ leBytes 16 0

/-- The bytes of a frame followed by their CRC-32 (R243). -/
def sealBytes (l : List Nat) : List Nat := l ++ leBytes 4 (crc32 l)

/-- The bytes of a down frame between /D/ and /E/: content, management slot and CRC. -/
def frameBytes (n : Nat) (f : DownFrame) : List Nat := sealBytes (frameContent n f ++ mgmtBytes f.mgmt)

/-- Bytes as words, zero-filled. -/
def bytesWords (l : List Nat) : List Word :=
  (List.range ((l.length + 3) / 4)).map fun i => wrd (leNat ((l.drop (4 * i)).take 4))

/-- A return frame turned round from a down frame of `S` state bytes, read from its bytes between /R/ and /E/ (*Return frame*,
*Management reply*): a frame of another length, or whose CRC differs, is bad (R243). -/
def readReturn (S rt : Nat) (far : Bool) (b : List Nat) : RetFrame :=
  let num (o k : Nat) : Nat := leNat ((b.drop o).take k)
  let q := 134 + S
  { origin := b.getD 0 0, hops := num 1 2 % 512, tlmKind := b.getD 3 0 / 64, tlmGroup := b.getD 3 0 % 8, seq := num 4 2,
    status := byteNibbles ((b.drop 6).take S), slots := (bytesWords ((b.drop (6 + S)).take 128)),
    rstatus := b.getD q 0 / 16, rop := b.getD q 0 % 16, rtid := b.getD (q + 1) 0, responder := num (q + 2) 2,
    rdata := BitVec.ofNat 64 (num (q + 4) 8),
    crcOk := decide (b.length = 150 + S) && decide (crc32 (b.take (146 + S)) = num (146 + S) 4), rt := rt, far := far }

/-- The return frame that a ring port turns round from the bytes of a down frame (R250): ORIGIN 0x02, HOPS 0, the copied TLM and SEQ,
no nibble and no slot of its own, and a reply with RSTATUS 0xF and RESPONDER 0xFFFF (DEDUCED, log 47). -/
def turnRound (b : List Nat) : List Nat :=
  sealBytes ([2, 0, 0, b.getD 0 0, b.getD 1 0, b.getD 2 0] ++ List.replicate (b.length - 62 + 128) 0xFF ++
    [0xF0, 0, 0xFF, 0xFF] ++ List.replicate 8 0)

/-! Exclusion. -/

/-- EXCL of a directory entry is set; reasons 2, 3 and 5 raise CELL_EXCLUDED (R261). -/
def setExcl (d v : Nat) (s : State) : State :=
  let s := s.updEntry d fun e => { e with excl := v }
  if v = 2 ∨ v = 3 ∨ v = 5 then record s 0x0609 d [wrd v] else s

/-- Positions of ring `r` that satisfy `p` get EXCL = 4 (R269). -/
def excludeBeyond (r : Nat) (p : Nat → Bool) (s : State) : State :=
  forEach (below (ringNodes s r) fun i => p i && (s.entry (dirIndex r i)).present)
    (fun i s => s.updEntry (dirIndex r i) fun e => { e with excl := 4 }) s

/-- Whether position `p` of ring `r` is reached by a return with `hops` from this end: side B counts from the far
end (R31, R247). -/
def reached (s : State) (r hops p : Nat) (far : Bool) : Bool :=
  if s.marg.sideB != far then decide (ringNodes s r ≤ p + hops) && decide (p < ringNodes s r) else decide (p < hops)

/-- The last position that a return with `hops` nodes reached from this end; 0x1FF when none. -/
def lastReachedOf (s : State) (r hops : Nat) : Nat :=
  if hops = 0 then 0x1FF else if s.marg.sideB then ringNodes s r - hops else hops - 1

/-- RING_BREAK (R269): the ring is broken beyond the `hops` nodes reached, or no return comes. It is raised when BREAK is set and
again when the break moves (DEDUCED, log 54). In a pair with FAR_OK the standby serves the far side (R270); otherwise the positions
beyond the last one reached are excluded. -/
def ringBreak (r : Nat) (hops : Option Nat) (s : State) : State :=
  if (s.ring r).brk ∧ (s.ring r).brkHops = hops then s
  else
    let arg : Word := match hops with
      | some h => wrd (lastReachedOf s r h)
      | none => 0xFFFFFFFF
    let s := s.updRing r fun g => { g with
      brk := true, brkHops := hops, fullRun := 0, badRing := [], lastReached := lastReachedOf s r (hops.getD 0) }
    let s := record s 0x0606 r [arg]
    if s.marg.role = 1 ∧ (s.ring r).farOk ∧ s.marg.linkUp ∧ s.tim.aligned then
      (if (s.ring r).farAt = none then s.updRing r fun g => { g with farAt := some s.now, farMiss := 0 } else s)
    else excludeBeyond r (fun p => !reached s r (hops.getD 0) p false) s

/-- Positions that neither end reaches, `farHops` nodes from the far end (R270). -/
def excludeUnreached (r farHops : Nat) (s : State) : State :=
  let near := (s.ring r).lastReached
  if (s.ring r).brk then
    excludeBeyond r (fun p => !reached s r farHops p true &&
      (if near = 0x1FF then true else if s.marg.sideB then decide (p < near) else decide (near < p))) s
  else s

/-- A frame leaves this end while the far end serves the ring too: two frames of the far end without a return show that it reaches
nothing (R269, R270; DEDUCED, log 47). -/
def farMissed (r : Nat) (s : State) : State :=
  if s.marg.role = 1 ∧ (s.ring r).farAt ≠ none then
    (let s := s.updRing r fun g => { g with farMiss := g.farMiss + 1 }
     if (s.ring r).farMiss = 3 then excludeUnreached r 0 s else s)
  else s

/-- Far-end service of ring `r` stops; with the ring still broken, what only the far end reached is excluded (R424). -/
def farServiceEnd (r : Nat) (s : State) : State :=
  if (s.ring r).farAt = none then
    (if s.marg.role = 2 ∧ (s.ring r).pass = none then s.updRing r fun g => { g with farDue := false, frags := [] } else s)
  else
    let s := s.updRing r fun g => { g with farAt := none, farDue := false, frags := [] }
    if s.marg.role = 1 ∧ (s.ring r).brk then
      (let last := (s.ring r).lastReached
       excludeBeyond r (fun p => if last = 0x1FF then true else if s.marg.sideB then decide (p < last) else decide (last < p)) s)
    else s

/-! Management transactions (R263, R264). -/

/-- The transaction at the front of the queue of ring `r` completes. -/
def mgmtComplete (r rstatus : Nat) (data : BitVec 64) (s : State) : State :=
  match (s.ring r).mgmt with
  | [] => s
  | m :: rest =>
    let s := s.updRing r fun g => { g with mgmt := rest }
    let d := if rstatus = 0 then data.toNat else 0
    completeTag m.tag stOk (wrd (rstatus * 2 ^ 28 + (m.attempts - 1)) :: twoWords d) s

/-- An attempt of the front transaction has failed: another one, or its end after 3. -/
def mgmtFail (r rstatus : Nat) (s : State) : State :=
  match (s.ring r).mgmt with
  | [] => s
  | m :: rest =>
    if 3 ≤ m.attempts then mgmtComplete r rstatus 0 s
    else s.updRing r fun g => { g with mgmt := { m with stage := 0 } :: rest }

/-- Before a send: a reply that was due in a return that never came. -/
def mgmtMissing (r : Nat) (s : State) : State :=
  match (s.ring r).mgmt with
  | m :: _ => if m.stage = 2 ∧ !(s.ring r).returned then mgmtFail r 0xF s else s
  | [] => s

/-- The request that the next frame of ring `r` carries: READ or WRITE of the transaction at the front (R246, R263). -/
def mgmtRequest (s : State) (r : Nat) : Option MgmtReq :=
  match (s.ring r).mgmt with
  | m :: _ =>
    if m.stage = 0 then
      some { op := if m.wdata = none then 1 else 2, tid := m.tid, target := m.pos, reg := m.reg, data := m.wdata.getD 0 }
    else none
  | [] => none

/-- After a send: the front transaction was put on the line, or its reply is due now. -/
def mgmtSent (r : Nat) (carries : Bool) (s : State) : State :=
  match (s.ring r).mgmt with
  | m :: rest =>
    if m.stage = 0 ∧ carries then s.updRing r fun g => { g with mgmt := { m with stage := 1, attempts := m.attempts + 1 } :: rest }
    else if m.stage = 1 then s.updRing r fun g => { g with mgmt := { m with stage := 2 } :: rest }
    else s
  | [] => s

/-- The reply field of a good return frame, when it is due. -/
def mgmtReply (r : Nat) (f : RetFrame) (s : State) : State :=
  match (s.ring r).mgmt with
  | m :: _ =>
    if m.stage ≠ 2 then s
    else if f.rstatus ≠ 0xF ∧ f.rstatus ≠ 3 ∧ f.rtid = m.tid ∧ f.responder = m.pos then mgmtComplete r f.rstatus f.rdata s
    else mgmtFail r (if f.rtid = m.tid ∧ f.responder = m.pos then f.rstatus else 0xF) s
  | [] => s

/-! Sending. -/

/-- No /R/ came between the last send and this one (R267, R269). An enumeration judges its own returns. -/
def missingReturn (r : Nat) (s : State) : State :=
  let g := s.ring r
  if g.returned || g.last = none then s
  else
    let s := parCount s 6 (0x108 + 16 * r) 1
    let s := s.updRing r fun g => { g with missRun := g.missRun + 1, fullRun := 0, badRing := [] }
    if (s.ring r).missRun = 2 ∧ (s.ring r).pass = none ∧ (s.ring r).st = .ready then ringBreak r none s else s

/-- The directory STATE of the positions follows the frame just sent; a nibble at or above NODES is 0 (R242, R260). -/
def noteStates (r : Nat) (states : List Nat) (s : State) : State :=
  forEach (below 256 fun p => (s.entry (dirIndex r p)).state ≠ states.getD p 0)
    (fun p s => s.updEntry (dirIndex r p) fun e => { e with state := states.getD p 0 }) s

/-- A down frame leaves on ring `r` (R242, R251, R262, R266). Its SEQ, TLM_GROUP and send time are set here; the far end of a broken
ring keeps the group of the content that it was given (R270). -/
def sendFrame (r : Nat) (f : DownFrame) (s : State) : State :=
  let s := missingReturn r (mgmtMissing r s)
  let g := s.ring r
  let sq := (g.seq + 1) % 0x10000
  let grp := if f.ftype = .enum ∨ !headOf s r then f.group else g.group % ringGroups s r
  let f := { f with seq := sq, group := grp, send := sendTick s }
  let s := s.updRing r fun g => { g with
    seq := sq, older := (g.last.toList ++ g.older).take 3, last := some f, line := frameBytes (ringNodes s r) f,
    returned := false, lateFold := false, lateRun := if f.ftype = .repeated then g.lateRun else 0,
    group := if f.ftype = .enum then g.group else (grp + 1) % ringGroups s r }
  let s := parWrap s 6 (0x104 + 16 * r)
  let s := noteStates r f.states s
  let s := farMissed r (mgmtSent r (f.ftype ≠ .enum && f.mgmt.isSome) s)
  if f.ftype = .enum then s else handoverDone s

/-- A frame that carries one nibble to every position. -/
def flatFrame (s : State) (r : Nat) (t : FType) (nib apply : Nat) : DownFrame :=
  { ftype := t, seq := 0, tlmKind := 0, group := 0, send := 0, apply := apply,
    states := List.replicate (ringNodes s r) nib, mod := none, duty := 0, mgmt := none, enumData := [] }

/-- CODE of entry `k` of sequence `n` at its last completion. -/
def resultCode (s : State) (n k : Nat) : Word := fOfNat (field (tblGet s.conv.results 0 (64 * n + k)) 13 0)

/-- The string voltage of ring `r` (R276). -/
def stringVolts (s : State) (r : Nat) : Word :=
  let w := strPar s r 1
  fFma (resultCode s (field w 4 0) (field w 13 8)) (strPar s r 4) (strPar s r 5)

/-- The discharge of a string drive is over when every position has bled and BLEED_TIME has passed (R293). -/
def stringDischarge (d : Nat) (s : State) : State :=
  let v := s.drive d
  match v.bleedTs with
  | none => s
  | some ts =>
    let rs := driveRings s d
    let wait := (rs.map fun r => field (strPar s r 0xC) 10 0).foldl max 0
    if v.discharging ∧ ts + wait * msTicks ≤ s.now ∧
        (rs.all fun r => (List.range (ringNodes s r)).all fun p => tblGet v.bled false (dirIndex r p)) then
      record (s.updDrive d fun v => { v with discharging := false }) 0x0905 d
        [milliVolt (stringVolts s (rs.headD 0)), wrd ((s.now - ts) / usTicks)]
    else s

/-- The ticks of a discharge of a string drive count from the apply time of its first BLEED frame (R293). -/
def noteBleed (r apply nib : Nat) (s : State) : State :=
  match ringDrive s r with
  | some d =>
    if nib = 5 ∧ (s.drive d).discharging ∧ (s.drive d).bleedTs = none then
      s.updDrive d fun v => { v with bleedTs := some apply }
    else s
  | none => s

/-- A SAFE frame leaves (R27, R266); at each one the two conditions of a discharge are tested (R293). -/
def sendSafe (r nib : Nat) (s : State) : State :=
  let apply := sendTick s + frameLead (ringNodes s r)
  let s := noteBleed r apply nib (sendFrame r (flatFrame s r .safe nib apply) s)
  match ringDrive s r with
  | some d => stringDischarge d s
  | none => s

/-- The bypass nibble of STR_CFG.BYP in a frame of SEQ `sq` (R286). -/
def bypassNibble (s : State) (r sq : Nat) : Nat :=
  let b := field (strPar s r 0) 31 30
  if b = 1 then 2 else if b = 2 ∧ sq % 2 = 1 then 2 else 1

/-- The number of positions whose nibble differs. -/
def switchCount (a b : List Nat) : Nat := ((a.zip b).filter fun x => x.1 ≠ x.2).length

/-- A NORMAL frame leaves: positions that a cycle bypasses take the bypass nibble, SWITCH_COUNT counts the changes
from the last NORMAL frame, and a request of the management queue travels with it. -/
def sendNormal (r : Nat) (f : DownFrame) (s : State) : State :=
  let sq := ((s.ring r).seq + 1) % 0x10000
  let states := f.states.map fun n => if n = 16 then bypassNibble s r sq else n
  let old := (s.ring r).lastNormal
  let s := mgmtMissing r s
  let s := sendFrame r { f with states := states, mgmt := mgmtRequest s r } s
  let s := if old = [] then s else parCount s 6 (0x200 + 32 * r + 0x14) (switchCount old states)
  s.updRing r fun g => { g with next := none, lastNormal := states }

/-- The apply time of the frame that ring `r` owes next while its drive runs (R16, R20): one ring period after that of the last
frame of the present run, otherwise one after the start of the present period, once a period has started in RUN. -/
def dueApply (s : State) (r : Nat) : Option Nat :=
  match ringDrive s r with
  | none => none
  | some d =>
    let p := (s.tb (driveTb (s.drive d))).t0.toNat
    let fresh := if (s.drive d).runAt ≤ p then some (p + ringPeriod s r) else none
    match (s.ring r).last with
    | some l => if (l.ftype = .normal ∨ l.ftype = .repeated) ∧ p ≤ l.apply then some (l.apply + ringPeriod s r) else fresh
    | none => fresh

/-- The nodes that this end reaches: all of them, or on the far end of a broken ring those of its own returns (R423). -/
def reachCount (s : State) (r : Nat) : Nat :=
  if headOf s r ∨ (s.ring r).lastReached = 0x1FF then ringNodes s r
  else if s.marg.sideB then ringNodes s r - (s.ring r).lastReached else (s.ring r).lastReached + 1

/-- The ticks from the latest send time to the apply time (R19). -/
def sendLead (s : State) (r : Nat) : Nat := (reachCount s r + stateBytes (ringNodes s r) + 64) * 16 + 200

/-- A frame with this apply time can still leave (R19). -/
def inTime (s : State) (r apply : Nat) : Bool := decide (sendTick s + sendLead s r ≤ apply)

/-- Whether a frame that is due by its interval may leave (R19, R256, R266): 1.0 µs after the apply time of the previous frame, an ENUM
frame 20,000 ticks after the ENUM frame before it, an IDLE or SAFE frame IDLE_PERIOD after the one before it. -/
def frameDue (s : State) (r : Nat) (t : FType) : Bool :=
  match (s.ring r).last with
  | none => true
  | some l =>
    decide (l.apply + usTicks ≤ sendTick s) &&
      (match t with
       | .enum => l.ftype ≠ .enum || decide (l.send + 20000 ≤ sendTick s)
       | .idle | .safe => (l.ftype ≠ .idle && l.ftype ≠ .safe) || decide (l.send + field (parGet s 6 (0x102 + 16 * r)) 18 0 ≤ sendTick s)
       | _ => true)

/-- The down lane of ring `r` is free: the last frame, of 40 ns a byte, has left it (R17, R27). -/
def downLaneFree (s : State) (r : Nat) : Bool :=
  match (s.ring r).last with
  | none => true
  | some l => decide (l.send + (64 + frameStates (ringNodes s r) l) * 16 ≤ sendTick s)

/-- A REPEAT frame leaves in place of the one due for `apply` (R20): the previous states, no fine edge, the new apply time. -/
def sendRepeat (r apply : Nat) (s : State) : State :=
  let f := match (s.ring r).last with
    | some f => { f with ftype := .repeated, tlmKind := 0, apply := apply, mod := none, duty := 0, mgmt := none, enumData := [] }
    | none => flatFrame s r .repeated 0 apply
  let s := sendFrame r f (s.updRing r fun g => { g with next := none })
  let s := parCount (s.updRing r fun g => { g with lateRun := g.lateRun + 1 }) 6 (0x105 + 16 * r) 1
  raiseWith s (if 3 ≤ (s.ring r).lateRun then reactPC true else noReact) 0x0601 r [ringPeriodNumber s r]

/-! Content of frames between the two ends (R270, R423). -/

/-- The RING_FRAME cells of ring `r`: bytes in fragments of 32 (R423). -/
def queueFragments (r : Nat) (b : List Nat) (s : State) : State :=
  let ws := bytesWords b
  forEach (List.range ((ws.length + 7) / 8)) (fun i s =>
    queueCell s .ringFrame (r * 4096 + i) (((ws.drop (8 * i)).take 8 ++ List.replicate 8 0).take 8)) s

/-- The content of a down frame goes to the other end. -/
def queueRingFrame (r : Nat) (f : DownFrame) (s : State) : State := queueFragments r (frameContent (ringNodes s r) f) s

/-- On an active device whose ring the far end serves, the content of a frame goes to the standby. -/
def farContent (r : Nat) (s : State) : State :=
  match (s.ring r).last with
  | some f => if s.marg.role = 1 ∧ (s.ring r).farAt ≠ none ∧ f.ftype ≠ .normal then queueRingFrame r f s else s
  | none => s

/-! Enumeration (R256 to R259). -/

/-- A pass starts on ring `r` with an expected count. -/
def startPass (r expect : Nat) (tag : Option Nat) (far startup : Bool) (s : State) : State :=
  let s := parSetField s 6 (0x100 + 16 * r) 24 16 expect
  s.updRing r fun g => { g with
    st := .enumerating, next := none, req := none, group := g.group % ringGroups s r,
    pass := some { expect := expect, tag := tag, step := if g.linkUp && wbit (ringCfg s r) 31 then .measure else .link, sent := false,
                   start := s.now, fromFar := far, startup := startup, found := 0, rt := 0, delays := [], hops := [], uids := [],
                   ids := [] } }

/-- The directory entry of position `p` after a pass with RESULT = OK (R258). An entry that a pass has never filled
has no recorded UID (DEDUCED, log 14). -/
def enumEntry (p : EnumPass) (i : Nat) (e : DirEntry) : DirEntry :=
  let uid := tblGet p.uids 0 i
  let id := tblGet p.ids 0 i
  let e := if p.fromFar then { e with bValid := true, delayB := tblGet p.delays 0 i } else { e with delayA := tblGet p.delays 0 i }
  { e with
    present := true, hop := tblGet p.hops 0 i, contract := field id 7 4, cells := field id 3 0, uid := uid, badRun := 0,
    excl := if e.contract ≠ 0 ∧ e.uid ≠ uid then 5
      else if e.excl = 3 ∨ e.excl = 4 ∨ e.excl = 6 ∨ e.excl = 7 then 0 else e.excl }

/-- The marks that enumeration clears: the words it writes (R387). -/
def clearEntryMarks (d : Nat) (s : State) : State := setMark (setMark (setMark s (dirAddr d 0) .none) (dirAddr d 2) .none) (dirAddr d 6) .none

/-- The directory after a pass of ring `r` (R258). -/
def enumDirectory (r result : Nat) (p : EnumPass) (s : State) : State :=
  if result = 0 then
    forUpTo 256 (fun i s =>
      let d := dirIndex r i
      if i < p.expect then
        (let e := enumEntry p i (s.entry d)
         let changed := (s.entry d).contract ≠ 0 ∧ (s.entry d).uid ≠ e.uid
         let s := clearEntryMarks d (s.updEntry d fun _ => e)
         if changed then record s 0x0609 d [5] else s)
      else s.updEntry d fun e => { e with present := false, excl := 6 }) s
  else forUpTo 256 (fun i s => s.updEntry (dirIndex r i) fun e => { e with
      present := false, excl := 7, bValid := e.bValid && !p.fromFar, delayB := if p.fromFar then 0 else e.delayB }) s

/-- Whether this device has a partner that runs a far pass: in a pair, or at start-up with the link up and the partner
in STANDBY (R257, R479). -/
def farPassDue (s : State) (p : EnumPass) : Bool :=
  !p.fromFar && s.marg.linkUp && !s.marg.sideB &&
    (if p.startup then s.marg.partnerOp = 1 else s.marg.role = 1)

/-- ENUM_DONE and the reply of RING_ENUMERATE, once the passes have ended (R257). -/
def enumDone (r : Nat) (p : EnumPass) (result : Nat) (s : State) : State :=
  let s := s.updRing r fun g => { g with pass := none, farDue := false, result := result }
  let s := record s 0x0608 r [wrd p.found]
  match p.tag with
  | some t => completeTag t stOk [wrd (result * 2 ^ 28 + p.found * 2 ^ 16), wrd (p.rt % 2 ^ 24)] s
  | none => s

/-- The pass of this end finishes with a result. -/
def finishPass (r result : Nat) (p : EnumPass) (s : State) : State :=
  let s := enumDirectory r result p s
  let s := parSet s 6 (0x103 + 16 * r) (wrd (p.rt % 2 ^ 24))
  let s := s.updRing r fun g => { g with
    st := if result = 0 then .ready else .failed, count := p.found, brk := false, brkHops := none, missRun := 0, shortRun := 0, fullRun := 0,
    badRing := [], lateRun := 0, lastNormal := [], farOk := p.fromFar && result = 0,
    lastReached := if result = 0 then lastReachedOf s r p.expect else 0x1FF }
  if result = 0 ∧ farPassDue s p then s.updRing r fun g => { g with pass := some p, result := 0, farDue := true }
  else enumDone r p result s

/-- The step that follows, group by group. -/
def nextEnumStep (groups : Nat) (st : EnumStep) : EnumStep :=
  match st with
  | .link => .measure
  | .measure => .assign
  | .assign => .delay 0
  | .delay g => if g + 1 < groups then .delay (g + 1) else .writeD 0
  | .writeD g => if g + 1 < groups then .writeD (g + 1) else .readId 0
  | .readId g => if g + 1 < groups then .readId (g + 1) else .idle
  | st => st

/-- (RT − Δ − HOP) / 2 in 1/16 tick, ties to even; HOP is in line bits of 25.6 codes (R256). -/
def enumDelay (rt delta hop : Nat) : Nat :=
  let n : Int := 10 * (rt : Int) - 10 * (delta : Int) - 256 * (hop : Int)
  let q := n / 20
  let m := n % 20
  ((if m < 10 then q else if 10 < m then q + 1 else if q % 2 = 0 then q else q + 1) % 2 ^ 24).toNat

/-- TLM_KIND and TLM_GROUP of the frame of a step. -/
def enumTlm (st : EnumStep) : Nat × Nat :=
  match st with
  | .delay g => (1, g) | .writeD g => (2, g) | .readId g => (3, g) | _ => (0, 0)

/-- The positions of group `g` below the expected count. -/
def groupPositions (p : EnumPass) (g : Nat) : List Nat := (List.range 32).filterMap fun j => if 32 * g + j < p.expect then some (32 * g + j) else none

/-- A management request to every node (R246). -/
def enumOp (op data : Nat) : Option MgmtReq := some { op := op, tid := 0, target := 0xFFFF, reg := 0, data := BitVec.ofNat 64 data }

/-- The request of the frame of a step: MEASURE, ASSIGN with the count, the end and the hold timeout, or RESET (R256). -/
def enumMgmt (s : State) (r : Nat) (p : EnumPass) : Option MgmtReq :=
  match p.step with
  | .measure => enumOp 0x81 0
  | .assign => enumOp 0x82 (p.found + b2n p.fromFar * 2 ^ 15 + field (ringCfg s r) 7 0 * 2 ^ 16)
  | .resetCount | .resetBad => enumOp 0x83 0
  | _ => none

/-- ENUM_DATA of the frame of a step: in a delay-write frame word j is the delay of position 32 g + j, with VALID (R256). -/
def enumWords (p : EnumPass) : List Word :=
  match p.step with
  | .writeD g => (groupPositions p g).map fun i => wrd (2 ^ 31 + tblGet p.delays 0 i % 2 ^ 24)
  | _ => []

/-- The frame of the present step leaves, 8,000 ticks before its apply time. A reset frame ends the pass. -/
def sendEnum (r : Nat) (p : EnumPass) (s : State) : State :=
  let k := enumTlm p.step
  let s := s.updRing r fun g => { g with pass := some { p with sent := true } }
  let f := { flatFrame s r .enum 0 (sendTick s + 8000) with
    tlmKind := k.1, group := k.2, mgmt := enumMgmt s r p, enumData := enumWords p }
  match p.step with
  | .link => s
  | .idle => sendFrame r (flatFrame s r .idle 0 (sendTick s + frameLead (ringNodes s r))) s
  | .resetCount => finishPass r 2 p (sendFrame r f s)
  | .resetBad => finishPass r 3 p (sendFrame r f s)
  | _ => sendFrame r f s

/-- What a pass takes from the slots of a return frame. -/
def enumTake (p : EnumPass) (f : RetFrame) : EnumPass :=
  match p.step with
  | .measure => { p with found := f.hops, rt := f.rt }
  | .delay g => (groupPositions p g).foldl (fun p i =>
      let w := f.slots.getD (i % 32) 0
      { p with hops := tblSet p.hops 0 i (field w 31 28), delays := tblSet p.delays 0 i (enumDelay p.rt (field w 23 0) (field w 31 28)) }) p
  | .writeD g => (groupPositions p g).foldl (fun p i => { p with uids := tblSet p.uids 0 i (f.slots.getD (i % 32) 0) }) p
  | .readId g => (groupPositions p g).foldl (fun p i => { p with ids := tblSet p.ids 0 i (f.slots.getD (i % 32) 0) }) p
  | _ => p

/-- Whether every node of the pass may be used: HOP 4 to 8, contract 1, no position conflict. -/
def nodesGood (p : EnumPass) : Bool :=
  (List.range p.expect).all fun i =>
    decide (4 ≤ tblGet p.hops 0 i) && decide (tblGet p.hops 0 i ≤ 8) && decide (field (tblGet p.ids 0 i) 7 4 = 1) &&
      !wbit (tblGet p.ids 0 i) 31

/-- A return frame advances the pass of its ring. -/
def enumReturn (r : Nat) (p : EnumPass) (f : RetFrame) (s : State) : State :=
  let p := enumTake p f
  let go (st : EnumStep) : State := s.updRing r fun g => { g with pass := some { p with step := st, sent := false } }
  match p.step with
  | .measure => if p.found = p.expect then go .assign else go .resetCount
  | .readId g =>
    if g + 1 < ringGroups s r then go (.readId (g + 1)) else if nodesGood p then go .idle else go .resetBad
  | .idle =>
    finishPass r (if f.hops = p.expect ∧ ((List.range p.expect).all fun i => f.status.getD i 0xF ≠ 0xF) then 0 else 2) p s
  | st => go (nextEnumStep (ringGroups s r) st)

/-- A frame of the pass is due. One whose return did not come ends the pass with a count mismatch (DEDUCED, log 15). -/
def enumFrame (r : Nat) (p : EnumPass) (s : State) : State :=
  if p.step = .link ∨ (s.ring r).farDue then s
  else if p.sent then sendEnum r { p with step := .resetCount } s
  else sendEnum r p s

/-! Returns (R262, R267 to R271). -/

/-- The state in which 1 ms has passed since the last RING_CRC of a kind raises it again (R267). -/
def crcEvent (r : Nat) (return_ : Bool) (s : State) : State :=
  let old := if return_ then (s.ring r).crcTick else (s.ring r).derrTick
  let due := match old with
    | some t => !inSlide s.now t msTicks
    | none => true
  if !due then s
  else
    let s := s.updRing r fun g => if return_ then { g with crcTick := some s.now } else { g with derrTick := some s.now }
    recordUntested s 0x0607 r [wrd (b2n return_)]

/-- Whether a status nibble reports a fault. -/
def nibFault (n : Nat) : Bool := n ≠ 0xF && n.testBit 3
/-- Whether a status nibble reports a rejected down frame. -/
def nibDerr (n : Nat) : Bool := n ≠ 0xF && n.testBit 2

/-- The status nibble of position `p` is folded (R262, R267, R268). -/
def foldNibble (r p nib : Nat) (covered : Bool) (s : State) : State :=
  let d := dirIndex r p
  let e := s.entry d
  let bad := covered && (nib = 0xF || nibDerr nib)
  let s := s.updEntry d fun e => { e with status := nib, badRun := if bad then e.badRun + 1 else 0 }
  let s := if nibDerr nib then crcEvent r false (parCount s 6 (0x109 + 16 * r) 1) else s
  let s := if nibFault nib ∧ !nibFault e.status then
      setExcl d 2 (raiseWith s (if nib % 4 = 0 then reactPC false else noReact) 0x0604 d [wrd nib]) else s
  if (s.entry d).badRun = 4 then setExcl d 3 (record s 0x0605 d []) else s

/-- u / CELLS − VBAR and its correction of the ledger (R276, R278). -/
def nodeVolts (e : DirEntry) : Word := fMul (fOfNat (field e.tlm 31 16 * e.cells)) 0x38D1B717

/-- The telemetry slot of position `p` is folded; the /E/ of its return arrived at tick `at_` (R260, R262, R278). -/
def foldSlot (r p : Nat) (slot : Word) (at_ : Nat) (s : State) : State :=
  let d := dirIndex r p
  if wbit slot 7 then s
  else
    let s := setMark (s.updEntry d fun e => { e with tlm := slot, tlmTick := at_ % 2 ^ 32 }) (dirAddr d 4) .none
    let s := match ringDrive s r with
      | some v => match (s.drive v).bleedTs with
        | some ts => if wbit slot 5 ∧ ts < s.now then s.updDrive v fun x => { x with bled := tblSet x.bled false d true } else s
        | none => s
      | none => s
    if field slot 31 16 = 0xFFFF ∨ wbit slot 4 then s
    else s.updEntry d fun e => { e with
      ledger := fFma (strPar s r 0xA) (fSub (fDiv (nodeVolts e) (fOfNat e.cells)) (strPar s r 0x11)) e.ledger }

/-- HOPS of a folded return: breaks and restores (R269, R271). -/
def foldHops (r : Nat) (f : RetFrame) (s : State) : State :=
  let n := ringNodes s r
  if f.hops < n then
    let run := if (s.ring r).shortRun ≠ 0 ∧ (s.ring r).shortHops = f.hops then (s.ring r).shortRun + 1 else 1
    let s := s.updRing r fun g => { g with
      shortRun := run, shortHops := f.hops, fullRun := 0, badRing := [], lastReached := lastReachedOf s r f.hops }
    if 2 ≤ run then ringBreak r (some f.hops) s else s
  else
    let bad := below n fun p => f.status.getD p 0xF = 0xF || nibDerr (f.status.getD p 0xF) || nibFault (f.status.getD p 0xF)
    let s := s.updRing r fun g => { g with
      shortRun := 0, fullRun := g.fullRun + 1, badRing := (g.badRing ++ bad.filter fun p => !g.badRing.contains p),
      lastReached := lastReachedOf s r n }
    if (s.ring r).brk ∧ 4 ≤ (s.ring r).fullRun then
      let skip := (s.ring r).badRing
      let s := s.updRing r fun g => { g with brk := false, brkHops := none, farAt := none, farDue := false, frags := [] }
      forEach (below n fun p => (s.entry (dirIndex r p)).excl = 4 && !skip.contains p)
        (fun p s => s.updEntry (dirIndex r p) fun e => { e with excl := 0 }) s
    else s

/-- A good return frame is folded into the directory (R262): its nibbles, and with TLM_KIND = 0 its slots. The two returns of a
ring that both ends serve are folded as one: each folds the positions it covered, and the fold of the last group counts once (R270,
R279). -/
def foldReturn (r : Nat) (f : RetFrame) (at_ : Nat) (s : State) : State :=
  let n := ringNodes s r
  let s := forUpTo n (fun p s =>
    let cov := reached s r f.hops p f.far
    if (f.far ∨ (s.ring r).farAt ≠ none) ∧ !cov then s else foldNibble r p (f.status.getD p 0xF) cov s) s
  let s := forUpTo 32 (fun j s =>
    let p := 32 * f.tlmGroup + j
    if f.tlmKind = 0 ∧ p < n ∧ (!f.far ∨ reached s r f.hops p f.far) then foldSlot r p (f.slots.getD j 0xFFFFFFFF) at_ s else s) s
  let s := if f.tlmKind = 0 ∧ f.tlmGroup + 1 = ringGroups s r ∧ (!f.far ∨ (s.ring r).lastReached = 0x1FF) then
      s.updRing r fun g => { g with normDue := true }
    else s
  match ringDrive s r with
  | some d => stringDischarge d s
  | none => s

/-- The status and telemetry of the far side arrive at the active device (R270). -/
def takeFarReturn (r : Nat) (f : RetFrame) (s : State) : State :=
  excludeUnreached r f.hops (foldReturn r f s.now (s.updRing r fun g => { g with farMiss := 0 }))

/-- A good return frame arrives at a standby that serves the far side: its status and telemetry go to the active device, bytes 1 to
134 + S of the return in RING_FRAME cells (DEDUCED, log 47). Four full returns in a row end the service (R270, R271). -/
def farReturnHome (r : Nat) (f : RetFrame) (b : List Nat) (s : State) : State :=
  let full := decide (ringNodes s r ≤ f.hops)
  let s := s.updRing r fun g => { g with
    lastReached := lastReachedOf s r (min f.hops (ringNodes s r)), fullRun := if full then g.fullRun + 1 else 0 }
  let s := queueFragments r (b.take (b.length - 16)) s
  if 4 ≤ (s.ring r).fullRun then
    s.updRing r fun g => { g with fullRun := 0, farAt := none, farDue := false, frags := [], next := none }
  else s

/-- A return that fails its CRC or carries another SEQ is not folded (R262): an attempt whose reply was due in it has failed (R264), and
a run of full returns ends (R271). -/
def badReturn (r : Nat) (s : State) : State :=
  let s := s.updRing r fun g => { g with fullRun := 0, badRing := [] }
  match (s.ring r).mgmt with
  | m :: _ => if m.stage = 2 then mgmtFail r 0xF s else s
  | [] => s

/-- RETURN_FRAME: a return frame arrives at the ring head (R262 to R271, R256). -/
def execReturnFrame (r : Nat) (bytes : List Nat) (rt : Nat) (s : State) : Host.Outcome State Fault Refusal :=
  .next (
    match (s.ring r).last with
    | none => s
    | some l =>
      if !ringPresent s r then s
      else
        let f := readReturn (frameStates (ringNodes s r) l) rt false bytes
        let s := s.updRing r fun g => { g with returned := true, missRun := 0 }
        if !f.crcOk then badReturn r (crcEvent r true (parCount s 6 (0x107 + 16 * r) 1))
        else if f.seq ≠ l.seq then badReturn r s
        else match (s.ring r).pass with
        | some p => if (s.ring r).farDue then s else enumReturn r p f (foldReturn r f s.now s)
        | none =>
          if !headOf s r then (if s.marg.role = 2 ∧ (s.ring r).farAt ≠ none then farReturnHome r f bytes s else s)
          else
            let s := if l.ftype = .enum then s else mgmtReply r f (foldHops r f s)
            if (s.ring r).lateFold then s.updRing r fun g => { g with foldDue := some (f, s.now) } else foldReturn r f s.now s)

/-- FRAME_SEND: a down frame of ring `r` is due (R19, R266, R256). -/
def execFrameSend (r : Nat) (s : State) : Host.Outcome State Fault Refusal :=
  .next (
    match (s.ring r).pass with
    | some p =>
      if ringPresent s r ∧ s.pwr.sleep = .awake ∧ s.tim.td2 ∧ wbit (ringCfg s r) 31 ∧ frameDue s r .enum then enumFrame r p s else s
    | none =>
      if !ringSends s r then s
      else if !headOf s r then
        (match (s.ring r).next with
         | some f =>
           if frameDue s r .normal ∧ (inTime s r f.apply ∨ f.ftype = .idle ∨ f.ftype = .safe) then
             (sendFrame r f s).updRing r fun g => { g with next := none }
           else s
         | none => s)
      else if (s.ring r).safeDue then s
      else
        match safeNibble s r with
        | some nib => if frameDue s r .safe then farContent r (sendSafe r nib s) else s
        | none =>
          if ringDriveRuns s r then
            (match (s.ring r).next with
             | some f => if frameDue s r .normal ∧ inTime s r f.apply then sendNormal r f s else s
             | none => s)
          else if !frameDue s r .idle then s
          else
            let s := mgmtMissing r s
            farContent r (sendFrame r { flatFrame s r .idle 0 (sendTick s + frameLead (ringNodes s r)) with mgmt := mgmtRequest s r } s))

/-- Whether the string of ring `r` runs: on the far end of a broken ring the partner's drive does (R270). -/
def stringRuns (s : State) (r : Nat) : Bool :=
  if headOf s r then ringDriveRuns s r
  else match ringDrive s r with
    | some d => s.marg.partnerRun.testBit d
    | none => false

/-- The apply time of the frame that has missed its latest send time: of one that was handed on and not sent in time (R32), or of the
one due (R20). -/
def missedApply (s : State) (r : Nat) : Option Nat :=
  match (s.ring r).next with
  | some f => if inTime s r f.apply then none else some f.apply
  | none =>
    match dueApply s r with
    | some a => if (a - sendLead s r) / 8 * 8 ≤ s.now then some a else none
    | none => none

/-- FRAME_LATE: no frame has been sent by the latest send time (R19, R20, R32); at a far end that serves the ring, the content has not
come (R423). A device that has just taken over has no frame to repeat. -/
def execFrameLate (r : Nat) (s : State) : Host.Outcome State Fault Refusal :=
  .next (
    if !ringSends s r ∨ (s.ring r).pass ≠ none ∨ !stringRuns s r then s
    else match missedApply s r with
    | none => s
    | some a =>
      if !headOf s r then sendRepeat r a s
      else if (s.ring r).safeDue ∨ safeNibble s r ≠ none ∨ (s.marg.hoDue ∧ (s.ring r).last = none) then s
      else farContent r (sendRepeat r a s))

/-- SAFE_FRAME: the first safe frame after an order leaves as soon as the lane is free (R27). -/
def execSafeFrame (r : Nat) (s : State) : Host.Outcome State Fault Refusal :=
  .next (
    if !ringSends s r ∨ !headOf s r ∨ !(s.ring r).safeDue ∨ (s.ring r).pass ≠ none ∨ !downLaneFree s r then s
    else
      let s := s.updRing r fun g => { g with safeDue := false }
      match safeNibble s r with
      | some nib => farContent r (sendSafe r nib s)
      | none => s)

/-- RING_LINK_CHANGE: the link of a ring port comes up or goes down, or its receive lane does (R239). A ring that has been enumerated
keeps its state (R273). -/
def execRingLinkChange (r : Nat) (up lock : Bool) (s : State) : Host.Outcome State Fault Refusal :=
  .next (
    if !ringPresent s r then s
    else
      let up := up && lock
      s.updRing r fun g => { g with
        linkUp := up, lock := lock,
        st := if up ∧ g.st = .down then .link else if !up ∧ g.st = .link then .down else g.st,
        pass := g.pass.map fun p => if up ∧ wbit (ringCfg s r) 31 ∧ p.step = .link then { p with step := .measure } else p })

/-- ENUM_LINK_TIMEOUT: the link did not come up within 100 µs of the start of a pass (R256). -/
def execEnumLinkTimeout (r : Nat) (s : State) : Host.Outcome State Fault Refusal :=
  .next (
    match (s.ring r).pass with
    | some p => if p.step = .link ∧ p.start + 100 * usTicks ≤ s.now then finishPass r 1 p s else s
    | none => s)

/-- ENUM_FAR_PASS: on a standby or a partner at start-up, the pass from the far end begins; on the device that waits for
it, the far pass has ended: with RESULT 0 its delays go to DELAY_B, otherwise DELAY_B is cleared and the result is
FAR_MISMATCH (R257). -/
def execEnumFarPass (r expect result : Nat) (delays : List Nat) (s : State) : Host.Outcome State Fault Refusal :=
  .next (
    if !ringPresent s r then s
    else match (s.ring r).pass with
    | some p =>
      if !(s.ring r).farDue then s
      else
        let ok := result = 0
        let s := forUpTo 256 (fun i s => s.updEntry (dirIndex r i) fun e => { e with
          bValid := ok && decide (i < p.expect), delayB := if ok ∧ i < p.expect then delays.getD i 0 % 2 ^ 24 else 0 }) s
        let s := s.updRing r fun g => { g with farOk := ok }
        enumDone r p (if ok then 0 else 4) s
    | none =>
      if s.marg.sideB ∧ s.marg.linkUp ∧ s.marg.role ≠ 1 ∧ s.op = .standby ∧ 1 ≤ expect ∧ expect ≤ 256 then
        startPass r expect none true false s
      else s)

/-- FAR_PORT_DOWN_FRAME: a frame of the active device arrives at the far port of a standby, which keeps a copy, turns it round onto
the return lane and keeps the tick (R29, R250, R419). -/
def execFarPortDownFrame (r : Nat) (bytes : List Nat) (s : State) : Host.Outcome State Fault Refusal :=
  .next (
    if ringPresent s r ∧ s.marg.role = 2 ∧ 62 ≤ bytes.length then
      (let s := s.updRing r fun g => { g with farCopy := bytes, farReturn := turnRound bytes }
       { s with marg := { s.marg with farD := tblSet s.marg.farD none r (some s.now) } })
    else s)

/-! Commands. -/

/-- RING_ENUMERATE (R257, R414). A second pass of a ring that is enumerating counts as its transactions in flight. -/
def bodyRingEnumerate (tag : Nat) (ws : List Word) (s : State) : CmdRes :=
  let w := pw ws 0
  let r := field w 3 0
  let n := field w 24 16
  let d := ringDrive s r
  let idle := match d with
    | some d => decide ((s.drive d).dst = .idle)
    | none => true
  let perOk := match d with
    | some d =>
      (let len := tbLen s (driveTb (s.drive d))
       decide (len ≤ 400000) && decide ((if 128 < n ∨ ((driveRings s d).any fun o => o ≠ r && decide (128 < ringNodes s o))
         then 20000 else 10000) ≤ len))
    | none => true
  checked s
    [(s.marg.role = 2 || !idle || (s.marg.role = 1 && s.marg.sideB), stState),
     (hasBits w 0xFE00FFF0 || decide (n = 0) || decide (256 < n) || !ringPresent s r || !perOk, stBadParam),
     ((s.ring r).mgmt ≠ [] || (s.ring r).pass ≠ none, stRingBusy)]
    (.wait (startPass r n (some tag) false false s))

/-- A management transaction joins the queue of its ring (R263). -/
def queueMgmt (r pos reg tag : Nat) (wdata : Option (BitVec 64)) (s : State) : State :=
  s.updRing r fun g => { g with
    tid := (g.tid + 1) % 64,
    mgmt := g.mgmt ++ [{ tag := tag, tid := g.tid, wdata := wdata, reg := reg, pos := pos, attempts := 0, stage := 0 }],
    mgmtMost := max g.mgmtMost (g.mgmt.length + 1) }

/-- The registers of *Node registers* that are RWS. -/
def nodeRegRws (reg : Nat) : Bool := reg = 0x11 || reg = 0x12 || reg = 0x22

/-- Checks that NODE_READ and NODE_WRITE share (R265). -/
def nodeAbsent (s : State) (w : Word) : Bool :=
  let r := field w 11 8
  hasBits w 0xF000 || !ringPresent s r || decide (ringNodes s r ≤ field w 7 0) || (s.ring r).st ≠ .ready

/-- NODE_READ (R263 to R265). -/
def bodyNodeRead (tag : Nat) (ws : List Word) (s : State) : CmdRes :=
  let w := pw ws 0
  checked s [(s.marg.role = 2, stState), (nodeAbsent s w, stBadParam), (decide (64 ≤ (s.ring (field w 11 8)).mgmt.length), stRingBusy)]
    (.wait (queueMgmt (field w 11 8) (field w 7 0) (field w 31 16) tag none s))

/-- NODE_WRITE (R263 to R265). -/
def bodyNodeWrite (tag : Nat) (ws : List Word) (s : State) : CmdRes :=
  let w := pw ws 0
  checked s
    [(s.marg.role = 2 || (nodeRegRws (field w 31 16) && ringDriveRuns s (field w 11 8)), stState), (nodeAbsent s w, stBadParam),
     (decide (64 ≤ (s.ring (field w 11 8)).mgmt.length), stRingBusy)]
    (.wait (queueMgmt (field w 11 8) (field w 7 0) (field w 31 16) tag
      (some (BitVec.ofNat 64 (ofTwoWords (pw ws 1) (pw ws 2)))) s))

/-- Whether a directory range is out of bounds or touches an absent ring (R290). -/
def rangeBad (s : State) (first count : Nat) : Bool :=
  decide (count = 0) || decide (4096 < first + count) || decide (256 * ringCount s.part < first + count)

/-- The directory indices of a range. -/
def rangeOf (first count : Nat) : List Nat := (List.range count).map fun i => first + i

/-- CELL_EXCLUDE (R289, R290). -/
def bodyCellExclude (ws : List Word) (s : State) : CmdRes :=
  let w := pw ws 0
  let l := (rangeOf (field w 11 0) (field w 28 16)).filter fun d => (s.entry d).excl = 0
  checked s [(s.marg.role = 2, stState), (hasBits w 0xE000F000 || rangeBad s (field w 11 0) (field w 28 16), stBadParam)]
    (.done stOk [wrd l.length] (forEach l (fun d s => s.updEntry d fun e => { e with excl := 1 }) s))

/-- Whether CELL_INCLUDE may clear the exclusion of an entry (R289). -/
def includable (e : DirEntry) : Bool :=
  e.excl = 1 || e.excl = 5 ||
    ((e.excl = 2 || e.excl = 3) && e.status ≠ 0xF && !nibFault e.status && !nibDerr e.status)

/-- CELL_INCLUDE (R289, R290). -/
def bodyCellInclude (ws : List Word) (s : State) : CmdRes :=
  let w := pw ws 0
  let lim := pw ws 1
  let all := rangeOf (field w 11 0) (field w 28 16)
  let inc := if wbit w 31 then all.filter fun d => includable (s.entry d) else []
  let left := if wbit w 31 then (all.filter fun d => (s.entry d).excl ≠ 0 && !includable (s.entry d)).length else 0
  checked s
    [(s.marg.role = 2, stState),
     (hasBits w 0xF000 || rangeBad s (field w 11 0) (field w 28 16) || decide (field w 31 29 = 0) ||
       (wbit w 30 && (decide (field lim 31 24 < field lim 23 16) || decide (field lim 15 8 < field lim 7 0))) ||
       (wbit w 29 && !fFinite (pw ws 2)), stBadParam)]
    (let s := if wbit w 30 then forEach all (fun d s => setMark (s.updEntry d fun e => { e with limits := lim }) (dirAddr d 6) .none) s else s
     let s := if wbit w 29 then forEach all (fun d s => setMark (s.updEntry d fun e => { e with ledger := pw ws 2 }) (dirAddr d 2) .none) s else s
     let s := forEach inc (fun d s => setMark (s.updEntry d fun e => { e with excl := 0 }) (dirAddr d 0) .none) s
     .done stOk [wrd (inc.length * 2 ^ 16 + left)] s)

/-! Parameters of unit 0x06. -/

/-- The check of a write to a parameter of unit 0x06. -/
def check06 (i : Nat) (v : Word) : Nat :=
  if 0x100 ≤ i ∧ i < 0x200 then
    (if i % 16 = 0 then (if field v 7 0 < 5 then stBadParam else stOk)
     else if i % 16 = 2 then (if v.toNat < 10000 ∨ 400000 < v.toNat then stBadParam else stOk)
     else stOk)
  else if 0x200 ≤ i ∧ i < 0x400 then
    (let w := i % 32
     if w = 0 then (if field v 31 30 = 3 then stBadParam else stOk)
     else if 2 ≤ w ∧ w ≤ 0xA then
       (if !fFinite v ∨ (6 ≤ w ∧ w ≤ 9 ∧ fLt v 0) then stBadParam else stOk)
     else if w = 0xB then (if field v 15 0 = 0 then stBadParam else stOk)
     else if w = 0xC then (if v.toNat < 10 ∨ 1900 < v.toNat then stBadParam else stOk)
     else stOk)
  else stOk

/-- Which ends send frames of ring `r` (RING_STATUS.HEAD). -/
def ringHead (s : State) (r : Nat) : Nat :=
  let g := s.ring r
  if g.st ≠ .ready ∨ !ringsAwake s then 0
  else if headOf s r then (if g.farAt = none then 1 else 3)
  else if s.marg.role = 2 then (if g.farAt = none then 2 else 3)
  else 0

/-- RING_STATUS. -/
def ringStatus (s : State) (r : Nat) : Word :=
  let g := s.ring r
  let st := match g.st with
    | .down => 0 | .link => 1 | .enumerating => 2 | .ready => 3 | .failed => 4
  wrd (st * 2 ^ 29 + g.result * 2 ^ 26 + b2n g.linkUp * 2 ^ 25 + b2n g.brk * 2 ^ 24 + b2n g.farOk * 2 ^ 23 +
    ringHead s r * 2 ^ 21 + g.count * 2 ^ 9 + g.lastReached)

/-- The eight words of directory entry `d` (*Directory word 0*, *Directory words 1 to 7*). -/
def entryWords (s : State) (d : Nat) : List Word :=
  let e := s.entry d
  [wrd (b2n e.present * 2 ^ 31 + b2n e.bValid * 2 ^ 30 + d / 256 * 2 ^ 24 + d % 256 * 2 ^ 16 + e.state * 2 ^ 12 + e.status * 2 ^ 8 + e.excl),
   wrd (e.hop * 2 ^ 28 + e.delayA), wrd (e.contract * 2 ^ 28 + e.cells * 2 ^ 24 + e.delayB),
   e.ledger, e.tlm, wrd e.tlmTick, e.limits, e.uid]

/-- The value of a parameter of unit 0x06. -/
def read06 (s : State) (i : Nat) : Word :=
  if 0x100 ≤ i ∧ i < 0x200 then
    (let r := (i - 0x100) / 16
     if i % 16 = 1 then ringStatus s r
     else if i % 16 = 0xA then wrd ((s.ring r).mgmtMost * 2 ^ 16 + (s.ring r).mgmt.length)
     else parGet s 6 i)
  else if 0x200 ≤ i ∧ i < 0x400 then
    (if i % 32 = 0xD then (s.ring ((i - 0x200) / 32)).strStatus else parGet s 6 i)
  else if 0x8000 ≤ i ∧ i ≤ 0xFFFF then
    (let d := (i - 0x8000) / 8
     let w := i % 8
     match s.stip.heldEntry with
     | some (h, ws) => if h = d ∧ w ≠ 0 then ws.getD w 0 else (entryWords s d).getD w 0
     | none => (entryWords s d).getD w 0)
  else parGet s 6 i

/-- A read of word 0 captures the eight words of its entry (R260). -/
def captureEntry (d : Nat) (s : State) : State :=
  { s with stip := { s.stip with heldEntry := some (d, entryWords s d) } }

end Sys2Proof.Machine
end

