-- ==== Sys2Proof/Machine/Graver.lean ====
section
/-!
DEFINITION. Graver (10_graver.md): context images, one evaluation, destinations, instances and deadlines, faults and
fallback, admission, and the commands of the chapter.
-/
namespace Sys2Proof.Machine

/-! The context image (*Context image*), by word. -/
/-- Word `i` of the image of a context. -/
def imgW (c : Ctx) (i : Nat) : Word := c.image.getD i 0
/-- NSTATE. -/
def ctxN (c : Ctx) : Nat := field (imgW c 0) 23 16
/-- NIN. -/
def ctxM (c : Ctx) : Nat := field (imgW c 0) 31 24
/-- NMEAS. -/
def ctxP (c : Ctx) : Nat := field (imgW c 1) 7 0
/-- Whether the context is a root (TRIG_KIND 0). -/
def ctxIsRoot (c : Ctx) : Bool := field (imgW c 2) 7 0 = 0
/-- TRIG_INDEX. -/
def ctxTrig (c : Ctx) : Nat := field (imgW c 2) 15 8
/-- MIN_INTERVAL. -/
def ctxMinInt (c : Ctx) : Nat := (imgW c 3).toNat
/-- DEADLINE. -/
def ctxDeadline (c : Ctx) : Nat := (imgW c 4).toNat
/-- TRIG_TIMEOUT. -/
def ctxTimeout (c : Ctx) : Nat := (imgW c 5).toNat
/-- Slot o: OUT word. -/
def ctxOut (c : Ctx) (o : Nat) : Word := imgW c (6 + o)
/-- The two bytes of REF k. -/
def ctxRef (c : Ctx) (k : Nat) : Nat := field (imgW c (10 + k / 2)) (16 * (k % 2) + 15) (16 * (k % 2))
/-- RSEL of REF k. -/
def refSel (c : Ctx) (k : Nat) : Nat := ctxRef c k % 256
/-- TSRC of REF k. -/
def refSrc (c : Ctx) (k : Nat) : Nat := ctxRef c k / 2 ^ 14
/-- MAP of REF k. -/
def refMap (c : Ctx) (k : Nat) : Nat := ctxRef c k / 2 ^ 9 % 4
/-- MAPOUT of REF k. -/
def refMapOut (c : Ctx) (k : Nat) : Nat := ctxRef c k / 2 ^ 8 % 2
/-- Whether XFORM = 1. -/
def ctxXform (c : Ctx) : Bool := field (imgW c 12) 7 0 = 1
/-- XF_POS. -/
def ctxXfPos (c : Ctx) : Nat := field (imgW c 12) 15 8
/-- MSRC of measurement i. -/
def ctxMsrc (c : Ctx) (i : Nat) : Word := imgW c (298 + i)
/-- FB of slot o. -/
def ctxFb (c : Ctx) (o : Nat) : Word := imgW c (268 + o)
/-- The four fallback values. -/
def fbSlots (c : Ctx) : List Word := (List.range 4).map (ctxFb c)
/-- Whether a context is ENABLED or FAULTED. -/
def ctxLive (c : Ctx) : Bool := c.st = .enabled || c.st = .faulted
/-- Whether a context is in the set that admission examines (R313). -/
def ctxAdmitted (c : Ctx) : Bool := c.st = .enabled || c.st = .faulted || c.st = .stopping
/-- Entry `i` of a list of words; +0.0 beyond its end. -/
def at0 (l : List Word) (i : Nat) : Word := l.getD i 0
/-- A list of `n` words with the value `v` at `k`. -/
def putAt (l : List Word) (n k : Nat) (v : Word) : List Word := (List.range n).map fun i => if i = k then v else at0 l i

/-! One evaluation (R298 to R307). -/

/-- acc = fma(coefficient j, v j, acc) for each j below `n`, in order. -/
def rowAcc (acc : Word) (coef : Nat → Word) (v : Nat → Word) (n : Nat) : Word :=
  (List.range n).foldl (fun a j => fFma (coef j) (v j) a) acc

/-- acc + (−round_half_even(acc)); a value that is not finite stays, and faults the context. -/
def wrapRev (w : Word) : Word := if fFinite w then fSub w (fOfInt (fRoundEven w)) else w

/-- A gathered measurement: its value, whether it is valid, whether a result it used had OVR = 1. -/
structure Meas where
  y : Word
  valid : Bool
  ovr : Bool
  deriving DecidableEq, Repr

/-- A measurement without a value (R300). -/
def noMeas : Meas := { y := 0, valid := false, ovr := false }

/-- The result word of entry `k` of sequence `n` as an instance takes it (R299). -/
def snapResult (p : Snap) (n k : Nat) : Option Word :=
  if k < tblGet p.counts 0 n then some (tblGet p.results 0 (64 * n + k)) else none

/-- CODE of a result word as binary32. -/
def codeOf (w : Word) : Word := fOfNat (field w 13 0)

/-- The slot values of context `c` that an instance takes. -/
def snapOut (p : Snap) (c : Nat) : Option (List Word) := tblGet p.outs none c

/-- Clarke and Park on three phase values with sn and cs of the angle: the d and the q value (kind 6, R363). -/
def parkPair (ia ib ic sn cs : Word) : Word × Word :=
  let t := fAdd ib ic
  let al := fMul (fFma ia 0x40000000 (fNeg t)) 0x3EAAAAAB
  let be := fMul (fSub ib ic) 0x3F13CD3A
  (fFma al cs (fMul be sn), fFma be cs (fNeg (fMul al sn)))

/-- Measurement `i` of a context (*Measurement source kinds*, R299, R300). -/
def gather (s : State) (c : Ctx) (p : Snap) (i : Nat) : Meas :=
  let m := ctxMsrc c i
  let b1 := field m 15 8
  let b2 := field m 23 16
  let b3 := field m 31 24
  let gain := imgW c (278 + i)
  let off := imgW c (284 + i)
  let raw (v : Word) (ovr : Bool) : Meas := { y := fFma v gain off, valid := true, ovr := ovr }
  match field m 7 0 with
  | 0 => (match snapResult p b1 b2 with
    | some w => raw (codeOf w) (wbit w 17)
    | none => noMeas)
  | 1 => let r := tblGet p.recs {} b1
    if r.valid then raw (floatAngle r.angle) false else noMeas
  | 2 => let r := tblGet p.recs {} b1
    if r.valid then raw r.speed false else noMeas
  | 3 => (match snapOut p b1 with
    | some l => raw (at0 l b2) false
    | none => noMeas)
  | 4 => (match tblGet p.strs none b1 with
    | some l => raw (at0 l b2) false
    | none => noMeas)
  | 5 => (match snapResult p b1 b2, snapResult p b1 b3 with
    | some ws, some wc =>
      let x := sinCos (toAngle (at0 c.x 0))
      let sv := fFma (codeOf ws) gain off
      let cv := fFma (codeOf wc) gain off
      { y := fFma sv x.2 (fNeg (fMul cv x.1)), valid := true, ovr := wbit ws 17 || wbit wc 17 }
    | _, _ => noMeas)
  | 6 => (match snapResult p b1 b2, snapResult p b1 (b2 + 1), snapResult p b1 (b2 + 2) with
    | some wa, some wb, some wc =>
      let r := tblGet p.recs {} (b3 % 16)
      if !r.valid then noMeas
      else
        let a := sinCos (elecAngle s (b3 % 16) r)
        let dq := parkPair (fFma (codeOf wa) gain off) (fFma (codeOf wb) gain off) (fFma (codeOf wc) gain off) a.1 a.2
        { y := if b3 < 128 then dq.1 else dq.2, valid := true, ovr := wbit wa 17 || wbit wb 17 || wbit wc 17 }
    | _, _, _ => noMeas)
  | _ => noMeas

/-- A parameter of set-point map `m`: 0 MAP_CFG, 1 T0, 2 TINV, 3 W0, 4 WINV. -/
def mapPar (s : State) (m w : Nat) : Word := parGet s 7 (0x20 + 8 * m + w)

/-- The speed input of map `m`; none when it is invalid under R300. -/
def mapSpeed (s : State) (p : Snap) (m : Nat) : Option Word :=
  let w := mapPar s m 0
  if wbit w 4 then (snapOut p (field w 23 16)).map fun l => at0 l (field w 13 12)
  else
    let r := tblGet p.recs {} (field w 11 8)
    if r.valid then some r.speed else none

/-- The cell of map `m` at torque `tau` and speed `w`: i, j, a and b of R303. -/
def mapCell (s : State) (m : Nat) (tau w : Word) : Nat × Nat × Word × Word :=
  let fx := fMin (fMax (fMul (fSub tau (mapPar s m 1)) (mapPar s m 2)) 0) (fOfNat 47)
  let fy := fMin (fMax (fMul (fSub w (mapPar s m 3)) (mapPar s m 4)) 0) (fOfNat 31)
  let i := min (fFloor fx).toNat 46
  let j := min (fFloor fy).toNat 30
  (i, j, fSub fx (fOfNat i), fSub fy (fOfNat j))

/-- Output `h` of entry `e` of map `m`. -/
def mapEntry (s : State) (m e h : Nat) : Word := tblGet s.grav.maps 0 (3072 * m + 2 * e + h)

/-- Output `h` of set-point map `m` (R303). -/
def mapTarget (s : State) (m h : Nat) (tau w : Word) : Word :=
  let c := mapCell s m tau w
  let e := 32 * c.1 + c.2.1
  let v00 := mapEntry s m e h
  let v10 := mapEntry s m (e + 32) h
  let v01 := mapEntry s m (e + 1) h
  let v11 := mapEntry s m (e + 33) h
  let s0 := fFma c.2.2.1 (fSub v10 v00) v00
  let s1 := fFma c.2.2.1 (fSub v11 v01) v01
  fFma c.2.2.2 (fSub s1 s0) s0

/-- The target of reference component `k` of context `n` (R301, R303). -/
def targetOf (s : State) (n : Nat) (c : Ctx) (p : Snap) (k : Nat) : Word :=
  if refSrc c k = 1 then
    match mapSpeed s p (refMap c k) with
    | some w => mapTarget s (refMap c k) (refMapOut c k) (tblGet p.torque 0 (field (mapPar s (refMap c k) 0) 1 0)) w
    | none => at0 c.tgt k
  else at0 (tblGet p.tgts [] n) k

/-- The ramp of one reference component (R302). -/
def rampStep (t r step : Word) : Word :=
  let d := fSub t r
  if fLt step d then fAdd r step else if fLt d (fNeg step) then fSub r step else t

/-- The phase values of the output transform, or none when its record is invalid or the advance is not finite (R306). -/
def phaseValues (s : State) (c : Ctx) (p : Snap) (u : List Word) : Option (List Word) :=
  let r := tblGet p.recs {} (ctxXfPos c)
  let adv := fMul (imgW c 13) (fMul r.speed (fOfNat (srcRatio s (ctxXfPos c))))
  if !r.valid ∨ !fFinite adv then none
  else
    let a := sinCos ((elecAngle s (ctxXfPos c) r + toAngle adv) % 2 ^ 32)
    let va := fFma (at0 u 0) a.2 (fNeg (fMul (at0 u 1) a.1))
    let vb := fFma (at0 u 0) a.1 (fMul (at0 u 1) a.2)
    let h := fMul vb 0x3F5DB3D7
    some [va, fFma va 0xBF000000 h, fFma va 0xBF000000 (fNeg h)]

/-- The exceedances of component `i` in a window. -/
def winCount (w : List (List Bool)) (i : Nat) : Nat := (w.filter fun e => e.getD i false).length

/-- One evaluation of context `n` on inputs `p` (R298). -/
def evalCtx (s : State) (n : Nat) (p : Snap) : EvalRes :=
  let c := s.ctx n
  let nn := ctxN c
  let mm := ctxM c
  let pp := ctxP c
  let ms := (List.range pp).map (gather s c p)
  let tgt := (List.range mm).map (targetOf s n c p)
  let r0 := if c.first then
      (List.range mm).map fun k => rowAcc 0 (fun j => imgW c (112 + 8 * refSel c k + j)) (at0 c.x) nn
    else c.r
  let r := (List.range mm).map fun k => rampStep (at0 tgt k) (at0 r0 k) (imgW c (264 + k))
  let e := (List.range pp).map fun i =>
    let m := ms.getD i noMeas
    let acc := rowAcc m.y (fun j => fNeg (imgW c (112 + 8 * i + j))) (at0 c.x) nn
    let acc := if wbit (imgW c 1) (24 + i) then wrapRev acc else acc
    if m.valid then acc else 0
  let exc := (List.range pp).map fun i =>
    !(ms.getD i noMeas).valid || fLt (imgW c (272 + i)) (fAbs (at0 e i))
  let win := (exc :: c.win).take (field (imgW c 2) 23 16)
  let bad := (List.range pp).find? fun i => field (imgW c 2) 31 24 < winCount win i
  let u := (List.range mm).map fun k =>
    let acc := rowAcc 0 (fun j => fNeg (imgW c (208 + 8 * k + j))) (at0 c.x) nn
    let acc := rowAcc acc (fun l => imgW c (240 + 4 * k + l)) (at0 r) mm
    fMin (fMax acc (imgW c (256 + k))) (imgW c (260 + k))
  let xn := (List.range nn).map fun i =>
    let acc := rowAcc 0 (fun j => imgW c (16 + 8 * i + j)) (at0 c.x) nn
    let acc := rowAcc acc (fun k => imgW c (80 + 4 * i + k)) (at0 u) mm
    let acc := rowAcc acc (fun l => imgW c (160 + 6 * i + l)) (at0 e) pp
    if wbit (imgW c 1) (16 + i) then wrapRev acc else acc
  let ph := if ctxXform c then phaseValues s c p u else some []
  let all := ms.map (fun m => m.y) ++ tgt ++ r ++ e ++ u ++ xn ++ ph.getD []
  let nan := ph = none ∨ all.any (fun w => !fFinite w)
  let slots := (List.range 4).map fun o =>
    let idx := field (ctxOut c o) 3 0
    match field (ctxOut c o) 7 4 with
    | 1 => at0 u idx
    | 2 => at0 xn idx
    | 3 => at0 (ph.getD []) idx
    | _ => 0
  { fault := if nan then 2 else if bad.isSome then 4 else 0, faultArg := bad.getD 0,
    faultCount := winCount win (bad.getD 0), x := xn, r := r, tgt := tgt, u := u, e := e, exc := exc,
    slots := if bad.isSome then fbSlots c else slots, invalid := ms.any (fun m => !m.valid), ovr := ms.any (fun m => m.ovr) }

/-! Trees. -/

/-- The chain of a context to its root: itself first; none where the chain has no root (R308). -/
def chainOf (fuel : Nat) (s : State) (n : Nat) : Option (List Nat) :=
  match fuel with
  | 0 => none
  | k + 1 =>
    if (s.ctx n).st = .empty then none
    else if ctxIsRoot (s.ctx n) then some [n]
    else (chainOf k s (ctxTrig (s.ctx n))).map fun l => n :: l

/-- The chain of a context. -/
def ctxChain (s : State) (n : Nat) : List Nat := (chainOf 256 s n).getD [n]
/-- Whether `a` is an ancestor of `n`. -/
def isAncestor (s : State) (a n : Nat) : Bool := a ≠ n && (ctxChain s n).contains a
/-- Contexts that are admitted and descend from `n`. -/
def descendants (s : State) (n : Nat) : List Nat := below 256 fun x => ctxAdmitted (s.ctx x) && isAncestor s n x

/-! Destinations (R304). -/

/-- DKIND of a slot that selects a value; 0 where the slot writes nothing. -/
def destKind (w : Word) : Nat := if field w 7 4 = 0 then 0 else field w 15 8

/-- The pairs of phase `i` of a drive under the pair rule of the front. -/
def phasePairs (s : State) (d i : Nat) : List Nat :=
  if wbit (modCfg s d) 30 then ((drivePairs s d).drop (2 * i)).take 2 else ((drivePairs s d).drop i).take 1

/-- Whether a destination meets its condition (*Destination kinds*). -/
def destOk (s : State) (w : Word) : Bool :=
  let a := field w 23 16
  let b := field w 31 24
  match destKind w with
  | 0 => true
  | 1 => decide (a < 4) && isDirect (s.drive a) && decide (b < phaseCount s a) && (phasePairs s a b).all fun p => wbit (pairCfg s p) 31
  | 2 => ringPresent s a && (ringDrive s a).isSome
  | 3 => decide ((s.ctx a).st ≠ .empty) && decide (b < ctxM (s.ctx a)) && decide (refSrc (s.ctx a) b = 2)
  | 4 => decide (a < 4) && hasArch (s.drive a)
  | _ => false

/-- DEST_DROP rises. -/
def destDrop (s : State) : State := parCount s 7 3 1

/-- Component `k` of the target of context `b` takes a value. Where an ancestor of `b` writes it in the instance of root trigger
`t0`, that instance uses it; otherwise no instance that has begun does (R299, R304). -/
def setTarget (b k : Nat) (v : Word) (t0 : Option Nat) (s : State) : State :=
  s.updCtx b fun c => { c with
    tgt := putAt c.tgt 4 k v,
    inst := c.inst.map fun i => if some i.t0 = t0 then
        { i with snap := { i.snap with tgts := tblSet i.snap.tgts [] b (putAt (tblGet i.snap.tgts [] b) 4 k v) } } else i }

/-- Whether a kind-3 slot of context `n` writes a descendant in its own tree (R304). -/
def inTree (s : State) (n : Nat) (w : Word) : Bool := isAncestor s n (field w 23 16) && ctxAdmitted (s.ctx (field w 23 16))

/-- A slot of kind 2, 3 or 4 of context `n` writes its destination. -/
def writeSlot (n : Nat) (w v : Word) (t0 : Nat) (s : State) : State :=
  let a := field w 23 16
  if !destOk s w then destDrop s
  else match destKind w with
  | 2 => if ringDriveRuns s a then s.updRing a fun g => { g with req := some { v := v, t0 := t0, came := s.now } } else s
  | 3 => setTarget a (field w 31 24) v (if inTree s n w then some t0 else none) s
  | 4 => s.updRegn a fun g => { g with report := v, seen := true }
  | _ => s

/-- Slots of kind 1 for drive `d`: one front update (R216, R304). -/
def writeFront (l : List (Word × Word)) (d : Nat) (s : State) : State :=
  let mine := l.filter fun x => destKind x.1 = 1 && field x.1 23 16 = d
  let good := mine.filter fun x => destOk s x.1
  let s := forEach (mine.filter fun x => !destOk s x.1) (fun _ s => destDrop s) s
  if good = [] then s else frontUpdate d (good.map fun x => (field x.1 31 24, x.2)) s

/-- The slots of context `n` with their values. -/
def slotPairs (s : State) (n : Nat) (slots : List Word) : List (Word × Word) :=
  (List.range 4).map fun o => (ctxOut (s.ctx n) o, at0 slots o)

/-- The write-back of slot values: kinds 1, 2 and 4, and kind 3 inside the tree; with `all`, every kind 3 (R304, R316). -/
def writeDests (n : Nat) (slots : List Word) (t0 : Nat) (all : Bool) (s : State) : State :=
  let l := slotPairs s n slots
  let s := forEach (l.filter fun x => decide (destKind x.1 = 2) || decide (4 ≤ destKind x.1) ||
      (decide (destKind x.1 = 3) && (all || inTree s n x.1))) (fun x s => writeSlot n x.1 x.2 t0 s) s
  let s := forUpTo 4 (fun d s => writeFront l d s) s
  forEach ((l.filter fun x => destKind x.1 = 1 && decide (4 ≤ field x.1 23 16))) (fun _ s => destDrop s) s

/-- At publication, the kind-3 slots that name a context outside the tree land (R304). -/
def landOutside (n : Nat) (slots : List Word) (t0 : Nat) (s : State) : State :=
  forEach ((slotPairs s n slots).filter fun x => destKind x.1 = 3 && !inTree s n x.1) (fun x s => writeSlot n x.1 x.2 t0 s) s

/-! Faults, misses and the end of an instance. -/

/-- The drives that a context or a descendant writes (*Escalation table*). -/
def drivesWritten (s : State) (n : Nat) : List Nat :=
  below 4 fun d => (n :: descendants s n).any fun x => (List.range 4).any fun o =>
    let w := ctxOut (s.ctx x) o
    match destKind w with
    | 1 => field w 23 16 = d
    | 2 => ringDrive s (field w 23 16) = some d
    | 4 => field w 23 16 = d
    | _ => false

/-- The reaction to a fault of context `n`: class P when CTXF_REACT = 1 for a drive that it or a descendant writes. -/
def ctxReaction (s : State) (n : Nat) : Reaction :=
  if (drivesWritten s n).any fun d => wbit (parGet s 9 (0x10 + d)) 28 then reactPC true else noReact

/-- Context `n` becomes FAULTED: its event, the drive reaction, and a resolver that it tracks (R193, R316). -/
def markFaulted (n cause code : Nat) (args : List Word) (s : State) : State :=
  let s := s.updCtx n fun c => { c with st := if c.st = .enabled then .faulted else c.st, cause := cause }
  resolverFault n (raiseWith s (ctxReaction s n) code n args)

/-- A fault of cause 1 to 3: CONTEXT_FAULT, and the fallback values at the destinations at once (R316). -/
def faultCtx (n cause t0 : Nat) (s : State) : State :=
  let s := markFaulted n cause 0x0702 [wrd cause] s
  writeDests n (fbSlots (s.ctx n)) t0 true s

/-- Slot values are published (R305). -/
def publish (n : Nat) (slots : List Word) (s : State) : State := s.updCtx n fun c => { c with out := slots, published := true }

/-- Context `n` misses the instance of trigger tick `t0` (R310): the third in a row faults it, its fallback values are written with
that `t0`, and they are published. A miss that comes from no instance publishes them in its own tick (DESIGN CHOICE, log 70). -/
def missCtx (n t0 : Nat) (s : State) : State :=
  let run := min 3 ((s.ctx n).missRun + 1)
  let s := s.updCtx n fun c => { c with missRun := run, misses := min 0xFFFFFFFF (c.misses + 1) }
  let s := record (parCount s 7 2 1) 0x0701 n [wrd run]
  if 3 ≤ run ∧ (s.ctx n).st = .enabled then publish n (fbSlots (s.ctx n)) (faultCtx n 1 t0 s) else s

/-- Whether an instance of context `n` is in flight: not yet written, triggered and waiting for the one before it, or its evaluation
still on a lane (R321). -/
def inFlight (s : State) (n : Nat) : Bool :=
  (match (s.ctx n).inst with
   | some i => decide (i.phase ≠ .written)
   | none => false) || (s.ctx n).nextTrig.isSome || (below 4 fun l => tblGet s.grav.lanes none l = some n) ≠ []

/-! Admission (R312 to R315). Times are counted in 1/(2g) ns, where g is PACE_GUAR of the present band as a UQ4.12
code: a fabric time of X ns at pace 1.000 is 8,192 X, and a tick is 5 g. -/

/-- PACE_GUAR of the present band. -/
def paceGuar (s : State) : Nat := parNat s 2 (0x10 + s.therm.band)

/-- OPS of a context (R312). -/
def ctxOps (c : Ctx) : Nat :=
  let n := ctxN c
  let m := ctxM c
  let p := ctxP c
  let kind (i : Nat) : Nat := match field (ctxMsrc c i) 7 0 with
    | 5 => 4
    | 6 => 12
    | _ => 1
  p + p * n + m * (n + m + 3) + n * (n + m + p) + ((List.range p).map fun i => kind i - 1).sum +
    11 * ((List.range m).filter fun k => refSrc c k = 1).length + (if ctxXform c then 14 else 0)

/-- The evaluation time of a context (R312). -/
def evalTime (c : Ctx) : Nat := 8192 * (54 + 2 * ((ctxOps c + 7) / 8))

/-- The entries of the list of sequence `n` on slice `i`. -/
def seqOnSlice (s : State) (n i : Nat) : Nat := ((seqStored (s.sequ n)).filter fun w => entSlice w = i).length

/-- The fixed time of a sequence in conversions: 1 + its most entries on a slice + the most that another enabled
sequence has on a slice it shares (R313). -/
def seqRounds (s : State) (n : Nat) : Nat :=
  let own := ((List.range 16).map (seqOnSlice s n)).foldl max 0
  let other := ((List.range 16).filter fun i => seqOnSlice s n i ≠ 0).flatMap fun i =>
    ((List.range 32).filter fun m => m ≠ n && seqEnabled s m).map fun m => seqOnSlice s m i
  1 + own + other.foldl max 0

/-- A context in an admission check: number, lane, evaluation time, deadline, its chain, and the root's interval. -/
structure AdmCtx where
  num : Nat
  lane : Nat
  e : Nat
  deadline : Nat
  chain : List Nat
  root : Nat
  interval : Nat
  deriving DecidableEq, Repr

/-- Context `n` on lane `l` for an admission check. -/
def admCtx (s : State) (n l : Nat) : AdmCtx :=
  let ch := ctxChain s n
  let root := ch.getLastD n
  { num := n, lane := l, e := evalTime (s.ctx n), deadline := ctxDeadline (s.ctx n), chain := ch, root := root,
    interval := ctxMinInt (s.ctx root) }

/-- Whether `x` has priority over `c` (R295). -/
def admAbove (x c : AdmCtx) : Bool := decide (x.deadline < c.deadline) || (decide (x.deadline = c.deadline) && decide (x.num < c.num))
/-- Whether one of two contexts is an ancestor of the other. -/
def admRelated (x c : AdmCtx) : Bool := x.chain.contains c.num || c.chain.contains x.num
/-- The utilisation of a lane as a fraction of two natural numbers. -/
def laneSum (g : Nat) (l : List AdmCtx) : Nat × Nat :=
  l.foldl (fun a c => (a.1 * (5 * g * c.interval) + c.e * a.2, a.2 * (5 * g * c.interval))) (0, 1)
/-- The lane utilisation in 1/1,000, rounded up. -/
def laneMilli (g : Nat) (l : List AdmCtx) : Nat :=
  let x := laneSum g l
  (1000 * x.1 + x.2 - 1) / x.2

/-- The iteration of R313 for one context. -/
def admWorst (fuel : Nat) (base limit : Nat) (others : List (Nat × Nat)) (w : Nat) : Nat :=
  match fuel with
  | 0 => w
  | k + 1 =>
    let w' := base + (others.map fun x => (w + x.2 - 1) / x.2 * x.1).sum
    if w' = w ∨ limit < w' then w' else admWorst k base limit others w'

/-- w of context `c` among `all`, given the w of its ancestors. -/
def admOne (s : State) (g : Nat) (all : List AdmCtx) (ws : Tbl Nat) (c : AdmCtx) : Nat :=
  let ready := match c.chain.tail with
    | [] => seqRounds s (ctxTrig (s.ctx c.num)) * 200 * g + 819200
    | q :: _ => tblGet ws 0 q + 327680
  let mates := all.filter fun x => x.num ≠ c.num && decide (x.lane = c.lane) && !admRelated x c
  let blk := ((mates.filter fun x => !admAbove x c).map fun x => x.e).foldl max 0
  let hi := mates.filter fun x => admAbove x c
  let same := ((hi.filter fun x => x.root = c.root).map fun x => x.e).sum
  let other := (hi.filter fun x => x.root ≠ c.root).map fun x => (x.e, 5 * g * x.interval)
  admWorst 32768 (ready + blk + c.e + same) (5 * g * c.deadline) other (ready + blk + c.e)

/-- The contexts of a list taken ancestors before descendants. -/
def byDepth (l : List AdmCtx) : List AdmCtx := (List.range 257).flatMap fun k => l.filter fun c => c.chain.length = k

/-- The procedure of R313: the context that it refuses, or the w of every context. The lane test names the lowest
context of the lane. -/
def admSchedule (s : State) (all : List AdmCtx) : Nat ⊕ Tbl Nat :=
  let g := paceGuar s
  let full := (List.range 4).find? fun l =>
    let x := laneSum g (all.filter fun c => c.lane = l)
    parField s 7 1 9 0 * x.2 < 1000 * x.1
  match full with
  | some l => .inl (((all.filter fun c => c.lane = l).map fun c => c.num).foldl min 255)
  | none => (byDepth all).foldl (fun (a : Nat ⊕ Tbl Nat) c => match a with
      | .inl n => .inl n
      | .inr ws =>
        let w := admOne s g all ws c
        if 5 * g * c.deadline < w then .inl c.num else .inr (tblPut ws c.num w)) (.inr [])

/-- The admitted contexts on their lanes. -/
def admLive (s : State) : List AdmCtx := (below 256 fun n => ctxAdmitted (s.ctx n)).map fun n => admCtx s n (s.ctx n).lane

/-- Whether the deadline of a context closes with its string requests (R21). -/
def stringClose (s : State) (n : Nat) : Bool :=
  (List.range 4).all fun o =>
    let w := ctxOut (s.ctx n) o
    if destKind w ≠ 2 then true
    else match ringDrive s (field w 23 16) with
    | none => true
    | some d =>
      let g := paceGuar s
      let T := tbLen s (driveTb (s.drive d))
      ((driveRings s d).foldl (fun (a : Nat × Bool) r =>
        let big := decide (128 < ringNodes s r)
        let lat := if big then 1200 else 700
        let ok := decide (5 * g * ctxDeadline (s.ctx n) + 8192 * (a.1 + lat + 200) + 5 * g * frameLead (ringNodes s r) ≤ 5 * g * T)
        (a.1 + (if big then 600 else 300), a.2 && ok)) (0, true)).2

/-- The lowest of some contexts whose string requests do not close at the present band (R21). -/
def stringOpen (s : State) (l : List Nat) : Option Nat := l.find? fun n => !stringClose s n

/-- LANE_UTIL of every lane with the contexts `all` on it, at the present band. -/
def laneStore (all : List AdmCtx) (s : State) : State :=
  let g := paceGuar s
  { s with grav := { s.grav with
      laneUtil := (below 4 fun l => laneMilli g (all.filter fun c => c.lane = l) ≠ 0).map fun l =>
        (l, laneMilli g (all.filter fun c => c.lane = l)) } }

/-- CTX_WORST of every admitted context and LANE_UTIL of every lane. -/
def admStore (all : List AdmCtx) (ws : Tbl Nat) (s : State) : State :=
  let g := paceGuar s
  laneStore all
    (forEach all (fun c s => s.updCtx c.num fun x => { x with worst := (tblGet ws 0 c.num + 5 * g - 1) / (5 * g) }) s)

/-- The whole admitted schedule at the present band, R21 among it (R58, R313): the context that fails first, or every w. -/
def admWhole (s : State) : Nat ⊕ Tbl Nat :=
  match admSchedule s (admLive s) with
  | .inl n => .inl n
  | .inr ws => match stringOpen s ((admLive s).map fun c => c.num) with
    | some n => .inl n
    | none => .inr ws

/-- The figures of the admitted set are brought up to date after a context has left it. -/
def admAccount (s : State) : State :=
  match admSchedule s (admLive s) with
  | .inr ws => admStore (admLive s) ws s
  | .inl _ => s

/-- The check of the admitted schedule at the present band (R58, R315): ADM_LOST is set, with ADMISSION_LOST, or cleared. -/
def admRecheck (s : State) : State :=
  let s := { s with grav := { s.grav with band := s.therm.band } }
  match admWhole s with
  | .inr ws => { admStore (admLive s) ws s with grav := { (admStore (admLive s) ws s).grav with admLost := false } }
  | .inl n =>
    let s := laneStore (admLive s) (record s 0x0206 n [wrd s.therm.band])
    { s with grav := { s.grav with admLost := true } }

/-! Contexts that stop (R317, R321). -/

/-- A CTX_DISABLE whose contexts are all LOADED is answered. -/
def answerWaits (s : State) : State :=
  let gone := s.grav.waits.filter fun w => w.2.all fun n => (s.ctx n).st = .loaded
  let s := { s with grav := { s.grav with waits := s.grav.waits.filter fun w => !(w.2.all fun n => (s.ctx n).st = .loaded) } }
  forEach gone (fun w s => completeTag w.1 stOk [] s) s

/-- A STOPPING context with no instance in flight becomes LOADED, with FB at its destinations and CTX_STOPPED. No trigger causes
the string requests that this writes: the present tick is their trigger tick (R16 names none, DESIGN CHOICE, log 70). -/
def stopCtx (n : Nat) (s : State) : State :=
  if (s.ctx n).st ≠ .stopping ∨ inFlight s n then s
  else
    let s := writeDests n (fbSlots (s.ctx n)) s.now true s
    let s := s.updCtx n fun c => { c with st := .loaded, worst := 0 }
    answerWaits (admAccount (record s 0x0704 n []))

/-! Instances (R308 to R311). -/

/-- Whether a context takes no part in arithmetic in the instance of root trigger `t0`: it is FAULTED, or it was when
that instance began (R317, R320). -/
def passes (c : Ctx) (t0 : Nat) : Bool := c.st = .faulted || c.cause ≠ 0 || decide (t0 ≤ c.enTick)

/-- The instance of context `n` that root trigger `t` begins. -/
def freshInst (t : Nat) : Inst := { t0 := t, phase := .waiting, res := none, slots := [], snap := {} }

/-- The instance of context `n` has ended; one whose trigger came meanwhile begins. -/
def endInst (n : Nat) (s : State) : State :=
  s.updCtx n fun c => { c with inst := c.nextTrig.map freshInst, nextTrig := none }

/-- Slot values of context `n` stand written in its instance, and every successor in the tree becomes ready with
them; a FAULTED successor passes its fallback values on at once (R308, R317). -/
def written (fuel n : Nat) (slots : List Word) (s : State) : State :=
  match fuel with
  | 0 => s
  | k + 1 =>
    match (s.ctx n).inst with
    | none => s
    | some i =>
      let snap := { i.snap with outs := tblSet i.snap.outs none n (some slots) }
      let s := s.updCtx n fun c => { c with inst := some { i with phase := .written, slots := slots } }
      forEach (below 256 fun x => !ctxIsRoot (s.ctx x) && decide (ctxTrig (s.ctx x) = n) && ctxAdmitted (s.ctx x))
        (fun x s =>
          match (s.ctx x).inst with
          | none => s
          | some j =>
            if j.t0 ≠ i.t0 ∨ j.phase ≠ .waiting then s
            else
              let s := s.updCtx x fun c => { c with inst := some { j with snap := { snap with tgts := j.snap.tgts } } }
              if passes (s.ctx x) j.t0 then
                let s := writeDests x (fbSlots (s.ctx x)) j.t0 false s
                stopCtx x (written k x (fbSlots (s.ctx x)) s)
              else s.updCtx x fun c => { c with inst := c.inst.map fun j => { j with phase := .ready } }) s

/-- Context `n` takes no part in arithmetic in its instance of trigger tick `t0`: its fallback values pass through (R317). -/
def passOn (n t0 : Nat) (s : State) : State :=
  let s := writeDests n (fbSlots (s.ctx n)) t0 false s
  stopCtx n (written 256 n (fbSlots (s.ctx n)) s)

/-- The deadline action of context `n` (R305, R309, R310): the slot values written in time are published, those of a context that
has faulted since as its fallback values (R317), and an instance without an in-time write-back is missed. -/
def deadlineAct (n : Nat) (s : State) : State :=
  match (s.ctx n).inst with
  | none => s
  | some i =>
    let pass := passes (s.ctx n) i.t0
    match i.phase with
    | .missed => s
    | .written =>
      let slots := if pass then fbSlots (s.ctx n) else i.slots
      let s := publish n slots (endInst n s)
      stopCtx n (if ctxLive (s.ctx n) then landOutside n slots i.t0 s else s)
    | .running =>
      let s := if (s.ctx n).nextTrig.isSome then endInst n s
        else s.updCtx n fun c => { c with inst := some { i with phase := .missed } }
      if pass then s else missCtx n i.t0 s
    | _ =>
      let s := endInst n s
      stopCtx n (if pass then s else missCtx n i.t0 s)

/-- The deadline action of context `n` where its tick, one after the last in-time tick, has come by tick `t` (R309). -/
def dueAct (n t : Nat) (s : State) : State :=
  match (s.ctx n).inst with
  | some i => if i.t0 + ctxDeadline (s.ctx n) + 1 ≤ t then deadlineAct n s else s
  | none => s

/-- The root context `n` is triggered by the completion of its sequence: every context of its tree takes the inputs of
that completion, and the root becomes ready (R299, R308). -/
def rootReady (n t0 : Nat) (snap : Snap) (s : State) : State :=
  let tree := below 256 fun x => decide ((s.ctx x).root = n) && ctxAdmitted (s.ctx x)
  let s := forEach tree (fun x s => dueAct x s.now s) s
  match (s.ctx n).inst with
  | none => s
  | some i =>
    if i.t0 ≠ t0 ∨ i.phase ≠ .waiting then s
    else
      let s := forEach tree (fun x s =>
        s.updCtx x fun c => { c with inst := c.inst.map fun j => if j.t0 = t0 ∧ j.phase = .waiting then { j with snap := snap } else j }) s
      if passes (s.ctx n) t0 then passOn n t0 s
      else s.updCtx n fun c => { c with inst := c.inst.map fun j => { j with phase := .ready } }

/-- Context `n` begins the instance of root trigger `t`; where the one before is still in its last tick, when that one ends. -/
def beginInst (n t : Nat) (s : State) : State :=
  let s := dueAct n t s
  let busy : Bool := match (s.ctx n).inst with
    | some i => i.phase ≠ .missed
    | none => false
  if busy then s.updCtx n fun c => { c with nextTrig := some t }
  else s.updCtx n fun c => { c with inst := some (freshInst t) }

/-- A root trigger of sequence `q` at tick `t` (R308, R309, R311): every enabled context of each of its trees that has
joined begins an instance, or misses it when the trigger comes too early. -/
def rootTriggers (q t : Nat) (s : State) : State :=
  forEach (below 256 fun n => ctxLive (s.ctx n) && ctxIsRoot (s.ctx n) && decide (ctxTrig (s.ctx n) = q) &&
      decide ((s.ctx n).enTick < t)) (fun n s =>
    let c := s.ctx n
    let early := match c.lastRoot with
      | some t' => decide (t < t' + ctxMinInt c)
      | none => false
    let s := s.updCtx n fun c => { c with lastRoot := some t, toStart := some t }
    forEach (below 256 fun x => ctxLive (s.ctx x) && decide ((s.ctx x).root = n) && decide ((s.ctx x).enTick < t)) (fun x s =>
      if !early then beginInst x t s
      else if (s.ctx x).st = .enabled then missCtx x t s else s) s) s

/-! Evaluation on a lane. -/

/-- Whether contexts are evaluated: in STANDBY, RUN and SAFE, and while sleep entry drains them (R296, R481). -/
def gravRuns (s : State) : Bool := convRun s

/-- The byte address of word `i` of the image of context `n`, and, from 320 on, of its running block (DEDUCED, log 16). -/
def ctxAddr (n i : Nat) : Nat := 0x3C0000 + 2048 * n + 4 * i
/-- The byte address of output `h` of entry `e` of map `m` (DEDUCED, log 16). -/
def mapAddr (m e h : Nat) : Nat := 0x460000 + 0x3000 * m + 8 * e + 4 * h

/-- The image and running words that an evaluation of a context uses (R316). -/
def usedWords (c : Ctx) : List Nat :=
  let n := ctxN c
  let m := ctxM c
  let p := ctxP c
  let grid (base cols r w : Nat) : List Nat := (List.range r).flatMap fun i => (List.range w).map fun j => base + cols * i + j
  List.range 14 ++ grid 16 8 n n ++ grid 80 4 n m ++ grid 112 8 p n ++ grid 160 6 n p ++ grid 208 8 m n ++ grid 240 4 m m ++
    grid 256 4 1 m ++ grid 260 4 1 m ++ grid 264 4 1 m ++ grid 272 6 1 p ++ grid 278 6 1 p ++ grid 284 6 1 p ++
    grid 298 6 1 p ++ grid 323 8 1 n ++ grid 331 4 1 m ++ grid 335 4 1 m

/-- The addresses of map entries that an evaluation of context `c` reads. -/
def usedMaps (s : State) (c : Ctx) (p : Snap) : List Nat :=
  ((List.range (ctxM c)).filter fun k => refSrc c k = 1).flatMap fun k =>
    let m := refMap c k
    match mapSpeed s p m with
    | some w =>
      let x := mapCell s m (tblGet p.torque 0 (field (mapPar s m 0) 1 0)) w
      [0, 1, 32, 33].map fun i => mapAddr m (32 * x.1 + x.2.1 + i) (refMapOut c k)
    | none => []

/-- The addresses of the words that an evaluation of context `n` consumes. Its measurements are results, records and values that
are kept outside ECC memory and so carry no mark (DEDUCED, log 71). -/
def usedCells (s : State) (n : Nat) (p : Snap) : List Nat :=
  ((usedWords (s.ctx n)).map (ctxAddr n)) ++ usedMaps s (s.ctx n) p

/-- The first of some words of SRAM that carries a mark. -/
def markedCell (s : State) (l : List Nat) : Option Nat :=
  if s.mem.marks = [] then none else l.find? fun a => markAt s a ≠ .none

/-- The ready context of highest priority on a lane (R295). -/
def nextReady (s : State) (lane : Nat) : Option Nat :=
  (below 256 fun n => ctxAdmitted (s.ctx n) && decide ((s.ctx n).lane = lane) &&
    (match (s.ctx n).inst with
     | some i => decide (i.phase = .ready)
     | none => false)).foldl (fun a n => match a with
       | none => some n
       | some b => if ctxDeadline (s.ctx n) < ctxDeadline (s.ctx b) then some n else some b) none

/-- CONTEXT_EVALUATION: a free lane starts the ready context of highest priority (R295, R298). A mark among what it
consumes faults it with cause 3; one that has faulted since its trigger passes its fallback values on (R317). -/
def execContextEvaluation (lane : Nat) (s : State) : Host.Outcome State Fault Refusal :=
  .next (
    if !gravRuns s ∨ laneCount s.part ≤ lane ∨ tblGet s.grav.lanes none lane ≠ none then s
    else
      match nextReady s lane with
      | none => s
      | some n =>
        match (s.ctx n).inst with
        | none => s
        | some i =>
          if passes (s.ctx n) i.t0 then passOn n i.t0 s
          else
            let cells := usedCells s n i.snap
            let s := readCells cells s
            match markedCell s cells with
            | some a =>
              let s := faultCtx n 3 i.t0 (consume s 7 a (markAt s a))
              stopCtx n (written 256 n (fbSlots (s.ctx n)) s)
            | none =>
              let r := evalCtx s n i.snap
              let s := s.updCtx n fun c => { c with
                ovr := c.ovr || r.ovr, inval := c.inval || r.invalid, inst := some { i with phase := .running, res := some r } }
              { s with grav := { s.grav with lanes := tblSet s.grav.lanes none lane (some n) } })

/-- The running values of an in-time write-back (R298, R302, R307, R310). A component that SETPOINT or another context
writes keeps its present target. -/
def storeRun (n t0 : Nat) (r : EvalRes) (s : State) : State :=
  s.updCtx n fun c => { c with
    x := r.x, r := r.r, u := r.u, e := r.e, t0 := t0, first := false,
    tgt := (List.range 4).map fun k => if k < ctxM c ∧ refSrc c k = 1 then at0 r.tgt k else at0 c.tgt k,
    win := (r.exc :: c.win).take (field (imgW c 2) 23 16), missRun := 0, evals := (c.evals + 1) % 2 ^ 32 }

/-- An in-time write-back of context `n` (R304, R307, R316); the results of one that has faulted meanwhile are discarded (R317). -/
def writeBack (n : Nat) (i : Inst) (r : EvalRes) (s : State) : State :=
  if passes (s.ctx n) i.t0 then passOn n i.t0 s
  else if r.fault = 2 then
    let s := faultCtx n 2 i.t0 s
    stopCtx n (written 256 n (fbSlots (s.ctx n)) s)
  else
    let s := storeRun n i.t0 r s
    let s := if r.fault = 4 then markFaulted n 4 0x0703 [wrd r.faultArg, wrd r.faultCount] s else s
    let s := writeDests n r.slots i.t0 false s
    let s := if r.fault = 0 then resolverUpdate n (at0 r.slots 0) (at0 r.slots 1) i.t0 s else s
    stopCtx n (written 256 n r.slots s)

/-- CONTEXT_WRITEBACK: the evaluation of context `n` ends. In time, it writes its destinations and readies its
successors; late, its results are discarded (R304, R309, R310). -/
def execContextWriteback (n : Nat) (s : State) : Host.Outcome State Fault Refusal :=
  .next (match (below 4 fun l => tblGet s.grav.lanes none l = some n).head? with
    | none => s
    | some l =>
      let s := { s with grav := { s.grav with lanes := tblSet s.grav.lanes none l none } }
      match (s.ctx n).inst with
      | none => stopCtx n s
      | some i =>
        match i.phase, i.res with
        | .running, some r =>
          if s.now < i.t0 + ctxDeadline (s.ctx n) + 1 then writeBack n i r s
          else s.updCtx n fun c => { c with inst := some { i with phase := .waiting } }
        | .missed, _ => stopCtx n (endInst n s)
        | _, _ => s)

/-- DEADLINE_ACTION: at t₀ + DEADLINE + 1 outputs are published and misses judged (R305, R310). -/
def execDeadlineAction (n : Nat) (s : State) : Host.Outcome State Fault Refusal :=
  .next (dueAct n s.now s)

/-- TRIG_TIMEOUT_EXPIRY: an interval without a further root trigger is a miss for every context that has joined the tree, and the
next interval follows at once (R311, R320). No trigger causes such a miss: a string request that the third one writes has the
present tick as its trigger tick (R16 names none, DESIGN CHOICE, log 70). -/
def execTrigTimeoutExpiry (n : Nat) (s : State) : Host.Outcome State Fault Refusal :=
  .next (match (s.ctx n).toStart with
    | some t =>
      let c := s.ctx n
      if !gravRuns s ∨ !ctxLive c ∨ ctxTimeout c = 0 ∨ s.now < t + ctxTimeout c then s
      else
        let s := s.updCtx n fun c => { c with toStart := some (t + ctxTimeout c) }
        let joined (x : Nat) : Bool := match c.lastRoot with
          | some l => decide ((s.ctx x).enTick < l)
          | none => false
        forEach (below 256 fun x => decide ((s.ctx x).st = .enabled) && decide ((s.ctx x).root = n) && joined x)
          (fun x s => missCtx x s.now s) s
    | none => s)

/-- ADMISSION_RECHECK: the firmware checks the admitted schedule again (R58, R315). -/
def execAdmissionRecheck (s : State) : Host.Outcome State Fault Refusal :=
  .next (if s.op = .boot ∨ s.op = .shutdown ∨ s.pwr.sleep ≠ .awake then s else admRecheck s)

/-! CTX_LOAD (R318, R319). -/

/-- Whether every entry of a matrix at `base` with `cols` columns and `rows` rows is finite inside r × w and zero beyond. -/
def matrixOk (c : Ctx) (base cols rows r w : Nat) : Bool :=
  (List.range rows).all fun i => (List.range cols).all fun j =>
    let v := imgW c (base + cols * i + j)
    if i < r ∧ j < w then fFinite v else v == 0

/-- Whether a source descriptor is defined and in range (*Measurement source kinds*). -/
def msrcOk (m : Word) : Bool :=
  let b1 := field m 15 8
  let b2 := field m 23 16
  let b3 := field m 31 24
  match field m 7 0 with
  | 0 => decide (b1 ≤ 31) && decide (b2 ≤ 63) && b3 == 0
  | 1 => decide (b1 ≤ 11) && b2 == 0 && b3 == 0
  | 2 => decide (b1 ≤ 11) && b2 == 0 && b3 == 0
  | 3 => decide (b2 ≤ 3) && b3 == 0
  | 4 => decide (b1 ≤ 15) && decide (b2 ≤ 3) && b3 == 0
  | 5 => decide (b1 ≤ 31) && decide (b2 ≤ 63) && decide (b3 ≤ 63)
  | 6 => decide (b1 ≤ 31) && decide (b2 ≤ 61) && decide (b3 % 128 ≤ 11)
  | _ => false

/-- Whether SEL of a slot descriptor is defined and in range (R318). -/
def outOk (c : Ctx) (w : Word) : Bool :=
  let idx := field w 3 0
  (match field w 7 4 with
   | 0 => true
   | 1 => decide (idx < ctxM c)
   | 2 => decide (idx < ctxN c)
   | 3 => ctxXform c && decide (idx < 3)
   | _ => false)

/-- Whether the destination of a slot descriptor is of a defined kind, with the bytes that the kind does not use at 0
(*Destination kinds*); CTX_ENABLE checks it (R318). -/
def destForm (w : Word) : Bool :=
  match field w 15 8 with
  | 0 => field w 31 16 == 0
  | 1 => true
  | 2 => field w 31 24 == 0
  | 3 => true
  | 4 => field w 31 24 == 0
  | _ => false

/-- The checks of CTX_LOAD on a whole image for context `n` (R318). -/
def imageOk (n : Nat) (c : Ctx) : Bool :=
  let nn := ctxN c
  let m := ctxM c
  let p := ctxP c
  field (imgW c 0) 15 0 == 1 && decide (1 ≤ nn) && decide (nn ≤ 8) && decide (1 ≤ m) && decide (m ≤ 4) && decide (1 ≤ p) &&
    decide (p ≤ 6) && (decide (field (imgW c 1) 15 8 ≤ 3) || field (imgW c 1) 15 8 == 0xFF) && field (imgW c 1) 31 30 == 0 &&
    (if ctxIsRoot c then
       decide (ctxTrig c ≤ 31) && decide (400 ≤ ctxMinInt c) && decide (ctxMinInt c ≤ 400000) &&
         decide (ctxDeadline c ≤ ctxMinInt c) &&
         (ctxTimeout c == 0 || (decide (ctxMinInt c < ctxTimeout c) && decide (ctxTimeout c ≤ 4000000)))
     else
       field (imgW c 2) 7 0 == 1 && ctxTrig c != n && ctxMinInt c == 0 && decide (ctxDeadline c ≤ 400000) && ctxTimeout c == 0) &&
    decide (1 ≤ ctxDeadline c) && decide (1 ≤ field (imgW c 2) 23 16) && decide (field (imgW c 2) 23 16 ≤ 64) &&
    decide (field (imgW c 2) 31 24 < field (imgW c 2) 23 16) && ((List.range 4).all fun o => outOk c (ctxOut c o)) &&
    ((List.range 4).all fun k => if k < m then
       decide (refSel c k < p) && decide (ctxRef c k / 2 ^ 11 % 8 = 0) && decide (refSrc c k ≤ 2) else ctxRef c k == 0) &&
    decide (field (imgW c 12) 7 0 ≤ 1) && (!ctxXform c || decide (2 ≤ m)) && decide (ctxXfPos c ≤ 11) &&
    field (imgW c 12) 31 16 == 0 && fFinite (imgW c 13) && imgW c 14 == 0 && imgW c 15 == 0 &&
    matrixOk c 16 8 8 nn nn && matrixOk c 80 4 8 nn m && matrixOk c 112 8 6 p nn && matrixOk c 160 6 8 nn p &&
    matrixOk c 208 8 4 m nn && matrixOk c 240 4 4 m m && matrixOk c 256 4 1 1 m && matrixOk c 260 4 1 1 m &&
    matrixOk c 264 4 1 1 m && matrixOk c 268 4 1 1 4 && matrixOk c 272 6 1 1 p && matrixOk c 278 6 1 1 p &&
    matrixOk c 284 6 1 1 p && matrixOk c 290 8 1 1 nn &&
    ((List.range m).all fun k => !fLt (imgW c (260 + k)) (imgW c (256 + k)) && fLt 0 (imgW c (264 + k))) &&
    ((List.range p).all fun i => fLt 0 (imgW c (272 + i))) &&
    ((List.range 6).all fun i => if i < p then msrcOk (ctxMsrc c i) else ctxMsrc c i == 0) &&
    ((List.range 16).all fun i => imgW c (304 + i) == 0)

/-- X0 of a context. -/
def ctxX0 (c : Ctx) : List Word := (List.range (ctxN c)).map fun j => imgW c (290 + j)

/-- CTX_LOAD (R318, R319). -/
def bodyCtxLoad (ws : List Word) (s : State) : CmdRes :=
  let n := field (pw ws 0) 7 0
  let c := s.ctx n
  let new := { c with image := ws.tail }
  checked s
    [(decide (c.st ≠ .empty) && decide (c.st ≠ .loaded), stState),
     (hasBits (pw ws 0) 0xFFFFFF00 || !imageOk n new, stBadParam)]
    (.done stOk [] (freshWords (s.updCtx n fun _ => { new with
        st := .loaded, x := ctxX0 new, r := [], tgt := [0, 0, 0, 0], win := [], missRun := 0, misses := 0, evals := 0,
        worst := 0, inst := none, nextTrig := none }) (ctxAddr n 0) (ctxAddr n 352)))

/-! CTX_ENABLE (R320) and CTX_DISABLE (R321). -/

/-- The destinations of a context: DKIND and bytes 2 and 3. -/
def destKeys (c : Ctx) : List Word := ((List.range 4).filter fun o => destKind (ctxOut c o) ≠ 0).map fun o => ctxOut c o &&& 0xFFFFFF00
/-- Whether a list names nothing twice. -/
def distinctWords (l : List Word) : Bool := match l with
  | [] => true
  | x :: r => !r.contains x && distinctWords r

/-- Whether two contexts write one destination (R304). -/
def shareDest (a b : Ctx) : Bool := (destKeys a).any fun w => (destKeys b).contains w

/-- Whether some two of these contexts write one destination. -/
def destClash (s : State) (l : List Nat) : Bool := match l with
  | [] => false
  | n :: r => (r.any fun x => shareDest (s.ctx n) (s.ctx x)) || destClash s r

/-- Whether a context measures a quantity of a ring that the part does not have (R6, R318). -/
def absentRing (s : State) (c : Ctx) : Bool :=
  (List.range (ctxP c)).any fun i => decide (field (ctxMsrc c i) 7 0 = 4) && !ringPresent s (field (ctxMsrc c i) 15 8)

/-- A context of CTX_ENABLE that BAD_PARAM refuses, given the numbers listed (R6, R304, R314, R318, R320). -/
def enableBad (s : State) (l : List Nat) (n : Nat) : Bool :=
  let c := s.ctx n
  c.st = .empty || (field (imgW c 1) 15 8 != 0xFF && decide (laneCount s.part ≤ field (imgW c 1) 15 8)) ||
    (match chainOf 256 s n with
     | none => true
     | some ch => (ch.any fun x => !l.contains x && !ctxLive (s.ctx x)) ||
         decide (ctxMinInt (s.ctx (ch.getLastD n)) < ctxDeadline c)) ||
    ((List.range 4).any fun o => !destForm (ctxOut c o) || !destOk s (ctxOut c o)) || absentRing s c

/-- The lane of each candidate, taken in ascending order (R314): the one it names, or the lowest present one that admits it with
those placed before it. -/
def placeLanes (s : State) (placed : List AdmCtx) (cand : List Nat) : Nat ⊕ List AdmCtx :=
  match cand with
  | [] => .inr placed
  | n :: rest =>
    let lane := field (imgW (s.ctx n) 1) 15 8
    if lane ≠ 0xFF then placeLanes s (admCtx s n lane :: placed) rest
    else match (List.range (laneCount s.part)).find? fun l => match admSchedule s (admCtx s n l :: placed) with
        | .inl _ => false
        | .inr _ => true with
    | none => .inl n
    | some l => placeLanes s (admCtx s n l :: placed) rest

/-- Context `n` is enabled (R302, R307, R317, R320). -/
def enableOne (n : Nat) (init : Bool) (lane : Nat) (s : State) : State :=
  let root := (ctxChain s n).getLastD n
  s.updCtx n fun c => { c with
    st := .enabled, cause := 0, missRun := 0, win := [], first := true, root := root, enTick := s.now, lane := lane,
    x := if init then ctxX0 c else c.x,
    published := if c.st = .faulted then c.published else false,
    lastRoot := if c.st = .faulted then c.lastRoot else none,
    toStart := if c.st = .faulted then c.toStart else none }

/-- The reply word of a refusal of R313. -/
def admRefuse (n : Nat) (s : State) : CmdRes := .done stNoCapacity [wrd (0x80000000 + n)] s

/-- CTX_ENABLE after its checks: admission of the contexts that are not FAULTED, and all enabled at once. -/
def admitAndEnable (ws : List Word) (s : State) : CmdRes :=
  let l := ws.map fun w => field w 7 0
  let cand := below 256 fun n => l.contains n && (s.ctx n).st = .loaded
  let go (all : List AdmCtx) (s : State) : State :=
    forEach ws (fun w s =>
      let n := field w 7 0
      let lane := match all.find? fun c => c.num = n with
        | some c => c.lane
        | none => (s.ctx n).lane
      enableOne n (wbit w 8) lane s) s
  if cand = [] then .done stOk [0] (go [] s)
  else
    match (if s.grav.admLost then admWhole s else .inr []) with
    | .inl n => admRefuse n s
    | .inr _ =>
      match placeLanes s (admLive s) cand with
      | .inl n => admRefuse n s
      | .inr all =>
        match admSchedule s all with
        | .inl n => admRefuse n s
        | .inr wst =>
          match stringOpen s cand with
          | some n => admRefuse n s
          | none =>
            let s := admStore all wst (go all s)
            .done stOk [0] { s with grav := { s.grav with admLost := false } }

/-- CTX_ENABLE (R320). A FAULTED context, which still writes its destinations, counts as enabled where two may not share one
(R304; DEDUCED, log 70). -/
def bodyCtxEnable (ws : List Word) (s : State) : CmdRes :=
  let l := ws.map fun w => field w 7 0
  let others := below 256 fun n => ctxLive (s.ctx n) && !l.contains n
  checked s
    [(l.any fun n => (s.ctx n).st = .enabled, stState),
     (ws.any (fun w => hasBits w 0xFFFFFE00) || !distinctWords (l.map wrd) || l.any (enableBad s l) ||
        destClash s (l ++ others), stBadParam),
     (l.any fun n => (s.ctx n).st = .stopping, stStopping)]
    (admitAndEnable ws s)

/-- CTX_DISABLE (R321): the reply follows when every listed context is LOADED. -/
def bodyCtxDisable (tag : Nat) (ws : List Word) (s : State) : CmdRes :=
  let l := ws.map fun w => field w 7 0
  checked s
    [(l.any fun n => !ctxLive (s.ctx n), stState),
     (ws.any (fun w => hasBits w 0xFFFFFF00) || (below 256 fun x => ctxLive (s.ctx x) && !ctxIsRoot (s.ctx x) &&
        l.contains (ctxTrig (s.ctx x)) && !l.contains x) ≠ [], stBadParam)]
    (let s := forEach l (fun n s => s.updCtx n fun c => { c with st := .stopping }) s
     let s := forEach (below 256 fun n => l.contains n) stopCtx s
     if l.all fun n => (s.ctx n).st = .loaded then .done stOk [] s
     else .wait { s with grav := { s.grav with waits := s.grav.waits ++ [(tag, l)] } })

/-! CTX_READ, MAP_LOAD and SETPOINT. -/

/-- STATE of a context. -/
def ctxStCode (c : CtxSt) : Nat := match c with
  | .empty => 0 | .loaded => 1 | .enabled => 2 | .faulted => 3 | .stopping => 4

/-- CTX_STATE. -/
def ctxState (s : State) (n : Nat) : Word :=
  let c := s.ctx n
  let on := ctxAdmitted c
  wrd (ctxStCode c.st * 2 ^ 29 + (if on then c.lane else 0) * 2 ^ 27 + c.cause * 2 ^ 24 + c.missRun * 2 ^ 18 + b2n c.ovr * 2 ^ 17 +
    b2n c.inval * 2 ^ 16 + (if on then c.root else 0) * 2 ^ 8)

/-- `n` entries of a list, then zeros up to `len`. -/
def padTo (l : List Word) (n len : Nat) : List Word := (List.range len).map fun i => if i < n then at0 l i else 0

/-- The running block of a context, without its mark bitmap (*CTX_READ*). -/
def runningBlock (s : State) (n : Nat) : List Word :=
  let c := s.ctx n
  let cnt (i : Nat) : Nat := if i < ctxP c then winCount c.win i else 0
  [ctxState s n] ++ twoWords c.t0 ++ padTo c.x (ctxN c) 8 ++ padTo c.r (ctxM c) 4 ++ padTo c.tgt (ctxM c) 4 ++
    padTo c.u (ctxM c) 4 ++ padTo c.e (ctxP c) 6 ++
    [wrd (cnt 0 + cnt 1 * 2 ^ 8 + cnt 2 * 2 ^ 16 + cnt 3 * 2 ^ 24), wrd (cnt 4 + cnt 5 * 2 ^ 8)]

/-- The bite-mark bitmap of `len` words from byte address `a`, as words of 32 bits. -/
def markBitmap (s : State) (a len : Nat) : List Word :=
  (List.range ((len + 31) / 32)).map fun i =>
    wrd (maskOf (below 32 fun b => 32 * i + b < len && markAt s (a + 4 * (32 * i + b)) = .bite))

/-- CTX_READ (R322). -/
def bodyCtxRead (ws : List Word) (s : State) : CmdRes :=
  let n := field (pw ws 0) 7 0
  checked s [(hasBits (pw ws 0) 0xFFFFFE00 || decide ((s.ctx n).st = .empty), stBadParam)]
    (let image := wbit (pw ws 0) 8
     let a := ctxAddr n (if image then 0 else 320)
     let len := if image then 320 else 31
     let s := readCells ((List.range len).map fun i => a + 4 * i) s
     let bits := markBitmap s a len
     let words := if image then padTo (s.ctx n).image 320 320 else runningBlock s n
     .done (if bits.any fun w => w ≠ 0 then stPoison else stOk) (words ++ bits) s)

/-- Whether an ENABLED or FAULTED context takes a target from map `m` (R323). -/
def mapInUse (s : State) (m : Nat) : Bool :=
  (below 256 fun n => ctxLive (s.ctx n) && (List.range (ctxM (s.ctx n))).any fun k =>
    refSrc (s.ctx n) k = 1 && refMap (s.ctx n) k = m) ≠ []

/-- MAP_LOAD (R323). -/
def bodyMapLoad (ws : List Word) (s : State) : CmdRes :=
  let m := field (pw ws 0) 1 0
  let first := field (pw ws 0) 26 16
  let vals := ws.tail
  checked s
    [(mapInUse s m, stState),
     (hasBits (pw ws 0) 0xF800FFFC || decide (ws.length % 2 = 0) || decide (1535 < first) ||
        decide (1536 < first + vals.length / 2) || vals.any fun v => !fFinite v, stBadParam)]
    (let s := forUpTo vals.length (fun i s => { s with grav := { s.grav with
        maps := tblSet s.grav.maps 0 (3072 * m + 2 * first + i) (at0 vals i) } }) s
     .done stOk [] (freshWords s (mapAddr m first 0) (mapAddr m (first + vals.length / 2) 0)))

/-- SETPOINT (R115, R301). -/
def bodySetpoint (ws : List Word) (s : State) : CmdRes :=
  let n := field (pw ws 0) 7 0
  let k := field (pw ws 0) 9 8
  let c := s.ctx n
  checked s
    [(hasBits (pw ws 0) 0xFFFFFC00 || !fFinite (pw ws 1) || decide (c.st = .empty) || decide (ctxM c ≤ k) ||
        decide (refSrc c k ≠ 0), stBadParam)]
    (.done stOk [] (setTarget n k (pw ws 1) none s))

/-! Parameters of unit 0x07. -/

/-- The check of a write to a parameter of unit 0x07. -/
def check07 (s : State) (i : Nat) (v : Word) : Nat :=
  if i = 1 then (if field v 9 0 < 100 ∨ 1000 < field v 9 0 then stBadParam else stOk)
  else if 0x20 ≤ i ∧ i < 0x40 then
    (if mapInUse s ((i - 0x20) / 8) then stState
     else if i % 8 = 0 then (if 11 < field v 11 8 then stBadParam else stOk)
     else if fFinite v then stOk else stBadParam)
  else stOk

/-- The write of a parameter of unit 0x07 lands. -/
def write07 (s : State) (i : Nat) (v : Word) : State :=
  if 0x100 ≤ i ∧ i ≤ 0x1FF then
    s.updCtx (i - 0x100) fun c => { c with ovr := c.ovr && wbit v 17, inval := c.inval && wbit v 16 }
  else if 0x300 ≤ i ∧ i ≤ 0x3FF then s.updCtx (i - 0x300) fun c => { c with misses := 0 }
  else if i = 2 ∨ i = 3 then parSet s 7 i 0
  else parSet s 7 i v

/-- GRAVER_STATUS. -/
def graverStatus (s : State) : Word :=
  wrd (field (presence s.part) 15 12 * 2 ^ 24 + b2n s.grav.admLost * 2 ^ 23 +
    (below 256 fun n => (s.ctx n).st = .faulted).length * 2 ^ 9 + (below 256 fun n => ctxLive (s.ctx n)).length)

/-- The value of a parameter of unit 0x07. -/
def read07 (s : State) (i : Nat) : Word :=
  if i = 0 then graverStatus s
  else if 0x10 ≤ i ∧ i ≤ 0x13 then wrd (tblGet s.grav.laneUtil 0 (i - 0x10))
  else if 0x100 ≤ i ∧ i ≤ 0x1FF then ctxState s (i - 0x100)
  else if 0x200 ≤ i ∧ i ≤ 0x2FF then wrd (s.ctx (i - 0x200)).worst
  else if 0x300 ≤ i ∧ i ≤ 0x3FF then wrd (s.ctx (i - 0x300)).misses
  else if 0x400 ≤ i ∧ i ≤ 0x7FF then at0 (s.ctx ((i - 0x400) / 4)).out (i % 4)
  else if 0x800 ≤ i ∧ i ≤ 0x8FF then wrd (s.ctx (i - 0x800)).evals
  else if 0x4000 ≤ i ∧ i < 0x7000 then tblGet s.grav.maps 0 (i - 0x4000)
  else parGet s 7 i

end Sys2Proof.Machine
end

