-- ==== Sys2Proof/Machine/StopOut.lean ====
section
/-!
DEFINITION. Stop-out and Registration (12_stopout_registration.md): the commands and events of safe states, discharge
and recovery, the drive commands of 04_commands.md, Registration's evaluation, and the parameters of unit 0x09.
-/
namespace Sys2Proof.Machine

/-! Drive commands (R113, R114). -/

/-- The drive that a payload names. -/
def pwDrive (ws : List Word) : Nat := field (pw ws 0) 1 0

/-- Whether the masks of a MODE CONFIGURE word suit its architecture, are free and present, and the ring period of a
string drive is allowed (R2, R8, R113, R241). With ARCH = 0, which releases what the drive holds, the masks count for nothing: the spec
does not say whether a mask that is not 0 is refused (DESIGN CHOICE, log 78). -/
def configOk (s : State) (d : Nat) (w : Word) : Bool :=
  let pairs := field w 15 4
  let rings := field w 31 16
  let others := (below 4 fun o => o ≠ d && hasArch (s.drive o)).map fun o => (s.drive o).cfg
  let free := others.all fun c => field c 15 4 &&& pairs == 0 && field c 31 16 &&& rings == 0
  match field w 1 0 with
  | 0 => true
  | 1 => decide (pairs ≠ 0) && decide (rings = 0) && free
  | 2 => decide (rings ≠ 0) && decide (pairs = 0) && free && decide (rings < 2 ^ ringCount s.part) &&
      ringPeriodOk s (below 16 fun r => rings.testBit r) (tbLen s (field w 3 2))
  | _ => false

/-- The architecture that a MODE CONFIGURE word names. -/
def archOf (w : Word) : Arch := match field w 1 0 with
  | 1 => .direct
  | 2 => .string
  | _ => .none

/-- CONFIGURE takes effect: a released drive keeps nothing, and the pairs of a direct drive take its timebase (R112,
R113, R211). -/
def configureDrive (d : Nat) (w : Word) (s : State) : State :=
  let a := archOf w
  let old := drivePairs s d
  let s := if a = .none then s.updDrive d fun v => { arch := .none, lastFault := v.lastFault, holdTs := v.holdTs, holdCut := v.holdCut }
    else s.updDrive d fun v => { v with arch := a, cfg := w }
  let s := forEach (drivePairs s d) (fun p s => parSetField s 5 (0x200 + 16 * p) 25 24 (field w 3 2)) s
  forEach (old ++ drivePairs s d) (fun p s => settlePair s p) s

/-- Whether the Plate pair is split. -/
def plateSplit (s : State) : Bool := splitMode s.plate.mode

/-- Whether drive `d` has what Registration needs for RUN (R366). -/
def registrationReady (s : State) (d : Nat) : Bool :=
  let n := parField s 9 (0x200 + 32 * d) 20 16
  posSecondary s d ≠ 15 && seqEnabled s n &&
    [0, 1, 2].all fun q => (seqStored (s.sequ n)).any fun w => entReg w && decide (entDrive w = d) && decide (entQty w = q)

/-- Whether a state that R113, R366 and R480 name forbids MODE RUN of drive `d`. -/
def runForbidden (s : State) (d : Nat) : Bool :=
  let v := s.drive d
  v.arch = .none || v.dst = .run || ssRank v.dst ≠ 0 || !s.so.enable || plateSplit s || s.therm.thr.testBit 0 ||
    s.marg.role = 2 || !registrationReady s d ||
    (driveRings s d).any fun r => match (s.ring r).pass with
      | some p => p.startup
      | none => false

/-- RUN takes effect: the timebase is enabled, forces of its pairs end, and the drive modulates (R113, R211, R226). -/
def startDrive (d : Nat) (s : State) : State :=
  let t := driveTb (s.drive d)
  let s := if (s.tb t).running then s else startPeriod 5 t 0 (parOr s 5 (0x100 + 16 * t) 0x80000000)
  let s := forEach (drivePairs s d) (fun p s => s.updPair p fun q => { q with force := none, forceEnd := none }) s
  let s := setOp (enterRun d s) .run
  forEach (drivePairs s d) (fun p s => settlePair s p) s

/-- MODE (R113). -/
def bodyMode (ws : List Word) (s : State) : CmdRes :=
  let d := pwDrive ws
  let act := field (pw ws 0) 3 2
  let v := s.drive d
  checked s
    [((decide (act = 0) && decide (v.dst = .run)) || (decide (act = 1) && runForbidden s d) ||
        (decide (act = 2) && decide (v.dst ≠ .run)), stState),
     (hasBits (pw ws 0) 0xFFFFFFF0 || decide (act = 3) || (decide (act = 0) && (decide (ws.length ≠ 2) || !configOk s d (pw ws 1))) ||
        (decide (act ≠ 0) && decide (ws.length ≠ 1)), stBadParam),
     (decide (v.dst = .stopping), stStopping),
     (decide (act = 1) && driveTripLatched s d, stTripActive)]
    (.done stOk []
      (if act = 0 then configureDrive d (pw ws 1) s
       else if act = 1 then startDrive d s
       else startStop d s))

/-- TORQUE_SET (R114). -/
def bodyTorqueSet (ws : List Word) (s : State) : CmdRes :=
  let d := pwDrive ws
  checked s [(hasBits (pw ws 0) 0xFFFFFFFC || !fFinite (pw ws 1) || !hasArch (s.drive d), stBadParam)]
    (.done stOk [] (s.updDrive d fun v => { v with torque := pw ws 1 }))

/-! Safe states by command (R116, R119, R357, R360). -/

/-- The order of a command puts drive `d` into safe state `ss`, also a lower one: it is exempt from R358, and no event
causes it (R356, R357). -/
def orderDrive (d ss : Nat) (s : State) : State :=
  let v := s.drive d
  let s := if ssRank v.dst ≠ ss ∨ v.clearDue then safeEntry s d ss 0 else s
  let s := s.updDrive d fun v => { v with
    dst := ssOf ss, cause := 0, exempt := true, clearDue := false, stopDue := false, l4From := none }
  let s := stopRegTimer s d
  let s := forEach (drivePairs s d) (fun p s => settlePair s p) s
  forEach (driveRings s d) orderRing s

/-- The device enters SAFE by a command for drive `d` (R356): every other drive with an architecture enters SS1. -/
def commandSafe (d ss : Nat) (s : State) : State :=
  let s := orderDrive d ss s
  let s := forUpTo 4 (fun o s => if o = d then s else placeDrive o 1 0 false s) s
  settlePairs (setOp s .safe)

/-- Bit `d` of the DSCH pins. -/
def setDsch (s : State) (d : Nat) (v : Bool) : State := { s with so := { s.so with dsch := putBit s.so.dsch d v } }

/-- An active discharge of drive `d` begins at this tick (R293, R360). -/
def startDischarge (d : Nat) (s : State) : State :=
  let s := s.updDrive d fun v => { v with
    discharging := true, ts := s.now, lastV := none, bled := [], bleedTs := none,
    holdTs := if v.arch = .direct then some s.now else v.holdTs, holdCut := v.holdCut && v.arch ≠ .direct }
  let s := if isDirect (s.drive d) then setDsch s d true else s
  commandSafe d 3 s

/-- Whether a drive cannot discharge: a direct drive with DSCH_EN = 0 (R360). -/
def noDischarge (s : State) (d : Nat) : Bool := isDirect (s.drive d) && !wbit (parGet s 9 (0x18 + d)) 31

/-- SAFE_STATE (R116). -/
def bodySafeState (ws : List Word) (s : State) : CmdRes :=
  let d := pwDrive ws
  let ss := field (pw ws 0) 5 4
  let v := s.drive d
  checked s
    [(hasBits (pw ws 0) 0xFFFFFFCC || decide (ss = 0) || !hasArch v || (decide (ss = 3) && noDischarge s d), stBadParam),
     (v.discharging && decide (ss ≠ 3), stStopping)]
    (.done stOk [] (if ss ≠ 3 then commandSafe d ss s else if v.discharging then s else startDischarge d s))

/-- DISCHARGE (R119). -/
def bodyDischarge (ws : List Word) (s : State) : CmdRes :=
  let d := pwDrive ws
  let v := s.drive d
  checked s
    [(decide (v.dst = .run), stState),
     (hasBits (pw ws 0) 0xFFFFFFFC || !hasArch v || noDischarge s d, stBadParam),
     (v.discharging || decide (v.dst = .stopping), stStopping)]
    (.done stOk [] (startDischarge d s))

/-- Two seconds in ticks. -/
def twoSeconds : Nat := 800000000

/-- Sequence `n` has completed an instance triggered at `trig` with result words `res`: a discharge that takes its
voltage from it (R360). -/
def dischargeCheck (n trig : Nat) (res : Nat → Option Word) (s : State) : State :=
  forUpTo 4 (fun d s =>
    let v := s.drive d
    let c := parGet s 9 (0x18 + d)
    if v.discharging ∧ isDirect v ∧ field c 20 16 = n ∧ v.ts ≤ trig ∧ s.now ≤ v.ts + twoSeconds then
      match res (field c 13 8) with
      | none => s
      | some w =>
        let x := fFma (codeOf w) (parGet s 9 (0x1C + d)) (parGet s 9 (0x20 + d))
        if fLt x (parGet s 9 (0x24 + d)) then
          record (s.updDrive d fun v => { v with discharging := false, lastV := some x }) 0x0905 d
            [milliVolt x, wrd ((s.now - v.ts) / usTicks)]
        else s.updDrive d fun v => { v with lastV := some x }
    else s) s

/-- The tick from which the 2 s of a discharge count: its start, or for a string drive the apply time of its first
BLEED frame (R293, R360). -/
def dischargeTs (v : Drive) : Option Nat := if v.arch = .string then v.bleedTs else some v.ts

/-- DISCHARGE_TIMEOUT: the time of a discharge is judged. A string drive whose BLEED_TIME has elapsed with every position bled is
discharged; 2 s without the end of the discharge fail it (R293, R360). -/
def execDischargeTimeout (d : Nat) (s : State) : Host.Outcome State Fault Refusal :=
  .next (
    let v := s.drive d
    match dischargeTs v with
    | none => s
    | some ts =>
      if 4 ≤ d ∨ !v.discharging then s
      else
        let s := if v.arch = .string then stringDischarge d s else s
        if !(s.drive d).discharging ∨ s.now < ts + twoSeconds then s
        else
        let mv : Word := if v.arch = .string then milliVolt (stringVolts s ((driveRings s d).headD 0))
          else match v.lastV with
            | some x => milliVolt x
            | none => 0x80000000
        raise (s.updDrive d fun v => { v with discharging := false }) 0x0906 d [mv])

/-- Whether the TD0 timer of the discharge of drive `d` can have reached 2 s: global time tells while it counts on from the
discharge (R361). -/
def holdOver (s : State) (d : Nat) : Bool :=
  match (s.drive d).holdTs with
  | none => false
  | some t => (s.drive d).holdCut || !ticking s || decide (t + twoSeconds ≤ s.now)

/-- DSCH_HOLD_EXPIRY: the TD0 timer of a discharge reaches 2 s. A discharge that a reset has cut releases DSCH now
(R361). -/
def execDschHoldExpiry (d : Nat) (s : State) : Host.Outcome State Fault Refusal :=
  .next (if 4 ≤ d ∨ !holdOver s d then s
    else
      let s := s.updDrive d fun v => { v with holdTs := none, holdCut := false }
      if (s.drive d).dst = .ss3 then s else setDsch s d false)

/-! Recovery (R117, R118, R370). -/

/-- Whether the condition in the Clear column of a latch holds; TRIP is governed by TRIP_ACTIVE (R117, R370). -/
def clearHolds (s : State) (l : Latch) : Bool :=
  if l.code = 0x0904 then s.so.enable
  else if l.code = 0x0203 then decide (paceGuar s ≤ s.tim.paceNow)
  else if l.code = 0x0E03 then !s.therm.thr.testBit 3
  else if l.code = 0x0809 then !s.plate.halted
  else if l.code = 0x0604 then decide ((s.entry l.index).status ≠ 0xF) && !nibFault (s.entry l.index).status
  else true

/-- A drive in a safe state is released: at the next period start of its timebase, or at once when that is stopped. -/
def releaseDrive (d : Nat) (s : State) : State :=
  if ssRank (s.drive d).dst = 0 then s
  else if !periodNow s (driveTb (s.drive d)) then s.updDrive d fun v => { v with clearDue := true }
  else endSafe d s

/-- CLEAR_FAULT (R117, R370). -/
def bodyClearFault (_ws : List Word) (s : State) : CmdRes :=
  checked s
    [(s.so.latches.any (fun l => !l.resetOnly && !clearHolds s l), stState),
     (s.so.latches.any (fun l => l.resetOnly), stDenied),
     (decide (s.hatch.latch ≠ 0), stTripActive),
     (decide (drivesWith s (fun v => v.discharging || v.dst = .stopping) ≠ []), stStopping)]
    (let s := { s with so := { s.so with latches := [], dsch := 0 } }
     let s := forUpTo 4 (fun d s => stopRegTimer (s.updDrive d fun v => { v with faultLatched := false, exempt := false }) d) s
     let s := forEach (below 12 fun n => (s.src n).fault) restartSource s
     let s := forUpTo 4 releaseDrive s
     .done stOk [] (record (setOp s .standby) 0x0907 0 []))

/-- CLEAR_TRIP (R118, R234). -/
def bodyClearTrip (ws : List Word) (s : State) : CmdRes :=
  let m := (pw ws 0).toNat
  checked s [(decide (m = 0), stBadParam)]
    (if m &&& s.hatch.tripIn ≠ 0 then .done stTripActive [wrd (m &&& s.hatch.tripIn)] s
     else .done stOk [0] (settlePairs { s with hatch := { s.hatch with
       latch := maskOf (below 32 fun n => latchSet s n && !m.testBit n) } }))

/-! Events of Stop-out. -/

/-- ENABLE_CHANGE: the qualified level of ENABLE changes; its loss raises ENABLE_LOST (R350), but in SHUTDOWN it has no effect
(R442). -/
def execEnableChange (level : Bool) (s : State) : Host.Outcome State Fault Refusal :=
  .next (
    let was := s.so.enable
    let s := { s with so := { s.so with enable := level } }
    if was ∧ !level ∧ !isAsleep s ∧ s.op ≠ .shutdown then raise s 0x0904 0 [] else s)

/-- SS2_DELAY_EXPIRY: the speed condition has held for SS2_DELAY, and the drive moves from SS1 to SS2 (R358). -/
def execSs2DelayExpiry (d : Nat) (s : State) : Host.Outcome State Fault Refusal :=
  .next (
    let v := s.drive d
    if 4 ≤ d ∨ v.dst ≠ .ss1 ∨ v.clearDue ∨ v.classD ∨ v.exempt ∨ !wbit (parGet s 9 (0x10 + d)) 31 ∨
        !speedHeld (noteSpeeds s) d ∨ !reactionsApply s then s
    else settlePairs (placeDrive d 2 v.cause v.faultLatched s))

/-- STOP_TIME_EXPIRY: STOP_TIME of a stop sequence has elapsed; it ends at the next period start, or at once when the
timebase is stopped (R359). -/
def execStopTimeExpiry (d : Nat) (s : State) : Host.Outcome State Fault Refusal :=
  .next (
    let v := s.drive d
    if 4 ≤ d ∨ v.dst ≠ .stopping ∨ !stopElapsed s d then s
    else if !periodNow s (driveTb v) then s.updDrive d fun v => { v with stopDue := true }
    else endStop d s)

/-! Registration (R363 to R365). -/

/-- Word `w` of the parameter block of Registration instance `d`. -/
def regPar (s : State) (d w : Nat) : Word := parGet s 9 (0x200 + 32 * d + w)

/-- The last record of source `n` captured at or before trigger tick `t` (R174, R363). -/
def recordAt (s : State) (n t : Nat) : PosRec :=
  if (s.src n).recd.trig ≤ t then (s.src n).recd
  else if (s.src n).prevRec.trig ≤ t then (s.src n).prevRec
  else {}

/-- The torque estimate of R363 from three codes and the electrical angle. -/
def torqueEstimate (s : State) (d : Nat) (a b c : Word) (theta : Nat) : Word :=
  let i (w : Word) : Word := fFma (codeOf w) (regPar s d 4) (regPar s d 5)
  let sc := sinCos theta
  let dq := parkPair (i a) (i b) (i c) sc.1 sc.2
  let psid := fFma (regPar s d 2) dq.1 (regPar s d 1)
  let psiq := fMul (regPar s d 3) dq.2
  fMul (fMul 0x3FC00000 (fOfNat (field (regPar s d 0) 5 0))) (fFma psid dq.2 (fNeg (fMul psiq dq.1)))

/-- Whether two values differ by more than `abs` + `rel` × |y|; a NaN counts as a difference (DESIGN CHOICE, log 17). -/
def apart (x y abs rel : Word) : Bool := !fLe (fAbs (fSub x y)) (fAdd abs (fMul rel (fAbs y)))

/-- A mismatching evaluation of drive `d` at tick `t` (R364, R365): the count, the timer, which runs only in RUN and STOPPING,
and TORQUE_MISMATCH once it is confirmed. -/
def regMismatch (d t : Nat) (s : State) : State :=
  let s := parCount (s.updRegn d fun g => { g with mismatch := true }) 9 (0x20F + 32 * d) 1
  if !driveRuns (s.drive d) ∨ t < (s.drive d).runAt then s
  else match (s.regn d).timer with
  | none => s.updRegn d fun g => { g with timer := some t }
  | some ts =>
    if t < ts + field (regPar s d 0xA) 10 0 * usTicks then s
    else raise s 0x0903 d [(s.regn d).tau, torqueInput (s.drive d)]

/-- The addresses of the parameters that the instance of drive `d` reads at an evaluation. -/
def regCells (d : Nat) : List Nat := (List.range 11).map fun w => par9Addr (0x200 + 32 * d + w)

/-- An evaluation of the instance of drive `d` on three result words (R363, R364). -/
def regEvaluate (d : Nat) (a b c : Word) (s : State) : State :=
  let g := s.regn d
  let n := posSecondary s d
  let r := recordAt s n g.trig
  let tau := torqueEstimate s d a b c (elecAngle s n r)
  let cmd := torqueInput (s.drive d)
  let cmdf := fFma (regPar s d 9) (fSub cmd g.cmdf) g.cmdf
  let bad := wbit a 17 || wbit b 17 || wbit c 17 || decide (12 ≤ n) || !r.valid
  let s := readCells (regCells d) s
  let mark := markedCell s (regCells d)
  let mis := bad || mark.isSome || (g.seen && apart tau g.report (regPar s d 6) (regPar s d 7)) ||
    apart tau cmdf (regPar s d 8) (regPar s d 7)
  let s := s.updRegn d fun g => { g with
    tau := tau, cmdf := cmdf, inputBad := bad, fresh := false, lastEval := s.now }
  let s := match mark with
    | some a => consume s 9 a (markAt s a)
    | none => s
  if mis then regMismatch d s.now s else stopRegTimer (s.updRegn d fun g => { g with mismatch := false }) d

/-- REGISTRATION_EVALUATION (R363): the instance of drive `d` evaluates the completion that was delivered to it. -/
def execRegistrationEvaluation (d : Nat) (s : State) : Host.Outcome State Fault Refusal :=
  .next (
    let g := s.regn d
    if 4 ≤ d ∨ !g.fresh ∨ !convRun s then s
    else match g.codes with
    | [some a, some b, some c] => regEvaluate d a b c s
    | _ => s)

/-- Where Registration evaluates again after a start, a wake or SHUTDOWN, the intervals of R365 are counted from here (R373). -/
def gapsFrom (s : State) : State := forUpTo 4 (fun d s => s.updRegn d fun g => { g with lastEval := s.now }) s

/-- REG_EVAL_GAP: an interval of 250 µs without an evaluation counts as a mismatching one at its end; the next interval is counted
from there (R365). -/
def execRegEvalGap (d : Nat) (s : State) : Host.Outcome State Fault Refusal :=
  .next (
    let g := s.regn d
    let e := g.lastEval + 100000
    if 4 ≤ d ∨ !convRun s ∨ s.now < e then s
    else regMismatch d e (s.updRegn d fun g => { g with lastEval := e }))

/-- A completion of sequence `n` triggered at `trig` delivers the REG entries of its list (R144, R363): a voltage is
held, and three phase currents of a drive's REG_SEQ wait for its evaluation. -/
def deliverReg (n trig : Nat) (entries : List Word) (res : Nat → Option Word) (s : State) : State :=
  forUpTo 4 (fun d s =>
    let find (q : Nat) : Option Word :=
      match (List.range entries.length).find? fun k =>
          entReg (entries.getD k 0) && decide (entDrive (entries.getD k 0) = d) && decide (entQty (entries.getD k 0) = q) with
      | some k => res k
      | none => none
    let s := match find 3 with
      | some w => s.updRegn d fun g => { g with vdc := w }
      | none => s
    if field (regPar s d 0) 20 16 = n ∧ find 0 ≠ none ∧ find 1 ≠ none ∧ find 2 ≠ none then
      s.updRegn d fun g => { g with codes := [find 0, find 1, find 2], trig := trig, fresh := true }
    else s) s

/-! Parameters of unit 0x09. -/

/-- Whether a value lies between two binary32 bounds. -/
def fBetween (v lo hi : Word) : Bool := fFinite v && fLe lo v && fLe v hi

/-- The check of a write to a parameter of unit 0x09 (R235, *Stop-out parameter index*). -/
def check09 (s : State) (i : Nat) (v : Word) : Nat :=
  let ok : Bool :=
    if 0x10 ≤ i ∧ i ≤ 0x13 then decide (field v 25 16 ≤ 1000) && decide (field v 15 0 ≤ 10000)
    else if 0x14 ≤ i ∧ i ≤ 0x17 then fFinite v && fLe 0 v
    else if 0x1C ≤ i ∧ i ≤ 0x23 then fFinite v
    else if 0x24 ≤ i ∧ i ≤ 0x27 then fBetween v 0 0x42700000
    else if 0x100 ≤ i ∧ i ≤ 0x11F then decide (field v 27 12 < 2 ^ ringCount s.part)
    else if 0x200 ≤ i ∧ i < 0x280 then
      (match i % 32 with
       | 0 => decide (field v 5 0 ≠ 0)
       | 6 => fFinite v && fLe 0 v
       | 7 => fBetween v 0 0x3F800000
       | 8 => fFinite v && fLe 0 v
       | 9 => fBetween v 0 0x3F800000 && fLt 0 v
       | 0xA => decide (100 ≤ v.toNat) && decide (v.toNat ≤ 1500)
       | 0xF => true
       | _ => fFinite v)
    else true
  if ok then stOk else stBadParam

/-- The write of a parameter of unit 0x09 lands; it clears the mark of its word (R235, R387). -/
def write09 (s : State) (i : Nat) (v : Word) : State :=
  let s := if sram9 i then setMark s (par9Addr i) .none else s
  if 0x100 ≤ i ∧ i ≤ 0x11F then writeTripRoute s (i - 0x100) v
  else if 0x200 ≤ i ∧ i < 0x280 ∧ i % 32 = 0xF then parSet s 9 i 0
  else parSet s 9 i v

/-- SO_STATUS. -/
def soStatus (s : State) : Word :=
  wrd (b2n s.so.enable * 2 ^ 31 + b2n (decide (safeNCause s ≠ 0)) * 2 ^ 30 + b2n (ownAsserted s) * 2 ^ 29 +
    b2n (s.so.latches.any fun l => l.resetOnly) * 2 ^ 28 + s.so.dsch % 16 * 2 ^ 24 + safeNCause s * 2 ^ 16)

/-- REG_STATUS. -/
def regStatus (s : State) (d : Nat) : Word :=
  let g := s.regn d
  wrd (b2n g.mismatch * 2 ^ 31 + b2n g.timer.isSome * 2 ^ 30 + b2n g.seen * 2 ^ 29 + b2n g.inputBad * 2 ^ 28)

/-- The value of a parameter of unit 0x09. -/
def read09 (s : State) (i : Nat) : Word :=
  if i = 0 then soStatus s
  else if i = 0x120 then wrd s.hatch.latch
  else if i = 0x121 then wrd s.hatch.tripIn
  else if 0x200 ≤ i ∧ i < 0x280 then
    (let d := (i - 0x200) / 32
     match i % 32 with
     | 0xB => regStatus s d
     | 0xC => (s.regn d).tau
     | 0xD => (s.regn d).cmdf
     | 0xE => (s.regn d).report
     | 0x10 => (s.regn d).vdc
     | _ => parGet s 9 i)
  else parGet s 9 i

end Sys2Proof.Machine
end

