-- ==== Sys2Proof/Machine/Timing.lean ====
section
/-!
DEFINITION. Timing: clock supervision, holdover, the pace monitor, lock and steering, and the parameters of unit 0x02
(02_timing_fabric.md). The alignment of a pair is in Machine/Margin.lean.
-/
namespace Sys2Proof.Machine

/-- The state with unit 0x02 changed. -/
def updTim (s : State) (f : Timing → Timing) : State := { s with tim := f s.tim }

/-- XIN_OK: the last window count is within 760 to 840 and no STOP fault stands (*CLOCK_STATUS*). -/
def xinGood (count : Nat) : Bool := decide (760 ≤ count) && decide (count ≤ 840)

/-- The main PLL enters holdover and TIME_VALID is cleared (R41). -/
def enterHoldover (s : State) : State :=
  updTim s fun t => { t with
    timeValid := false, holdover := if t.holdover = .none ∧ t.td1 then .active else t.holdover }

/-- XIN_FAULT with its cause; in sleep it waits for TD1 (R41, DEDUCED, log 23). -/
def xinFault (cause : Nat) (s : State) : State :=
  if isAsleep s then updTim s fun t => { t with xinHeld := t.xinHeld ++ [cause] }
  else raise (enterHoldover s) 0x0201 0 [wrd cause, parGet s 2 6]

/-- XIN_WINDOW_END: a window of 1,024 TD0 cycles ends with its count of XIN cycles (R39). -/
def execXinWindowEnd (count : Nat) (s : State) : Host.Outcome State Fault Refusal :=
  .next (
    let s := parSet s 2 6 (wrd (count % 1024))
    let good := xinGood (count % 1024)
    let was := s.tim.freqFault
    let s := updTim s fun t => { t with xinOk := good && !t.stopFault }
    if good then updTim s fun t => { t with freqFault := false, xinArmed := t.xinArmed || t.xinOk }
    else if !s.tim.xinArmed then s
    else
      let s := parOr (updTim s fun t => { t with freqFault := true }) 2 5 0x4
      if was then s else xinFault 0 s)

/-- XIN_EDGE_TIMEOUT: no XIN edge in 32 TD0 cycles (R39). -/
def execXinEdgeTimeout (s : State) : Host.Outcome State Fault Refusal :=
  .next (
    let was := s.tim.stopFault
    let s := updTim s fun t => { t with xinOk := false, stopFault := true }
    if !s.tim.xinArmed then s
    else
      let s := parOr s 2 5 0x2
      if was then s else xinFault 1 s)

/-- XIN_EDGE_RESUME: the next XIN edge ends a STOP fault (R39). -/
def execXinEdgeResume (s : State) : Host.Outcome State Fault Refusal :=
  .next (
    let ok := !s.tim.freqFault && xinGood (parNat s 2 6)
    updTim s fun t => { t with stopFault := false, xinOk := ok, xinArmed := t.xinArmed || ok })

/-- Whether PLL `d` (1, 2 or 5) is locked. -/
def pllLockedNow (s : State) (d : Nat) : Bool := match d with
  | 1 => s.tim.td1 | 2 => s.tim.td2 | 5 => s.tim.td5 | _ => false

/-- Whether the part starts PLL `d` (02_timing_fabric.md, Timing domains). -/
def pllPresent (s : State) (d : Nat) : Bool :=
  d = 1 || (d = 2 && decide (0 < ringCount s.part)) || (d = 5 && hasLp s.part)

/-- PLL_UNLOCK of domain `d`: what stops with it, and the event (R40 to R42, R392). -/
def pllUnlock (d : Nat) (s : State) : State :=
  let s := parOr s 2 5 0x8
  let s := if d = 1 then updTim (enterHoldover s) fun t => { t with td1 := false }
    else if d = 2 then updTim s fun t => { t with td2 := false }
    else
      (let s := updTim s fun t => { t with td5 := false }
       if s.mem.lpOnline then { s with mem := { s.mem with lpHeld := true, lpHeldAt := s.now } } else s)
  raise s 0x0202 d []

/-- PLL_LOSS: a lock detector sees its PLL lose lock (R40). -/
def execPllLoss (dom : Nat) (s : State) : Host.Outcome State Fault Refusal :=
  .next (if pllLockedNow s dom then pllUnlock dom s else s)

/-- A supply fault: SUPPLY_FAULT of channel `ch`, 1 below or 2 above its window (R475). -/
def supplyFault (ch : Nat) (above : Bool) (s : State) : State := raise s 0x0F03 ch [wrd (if above then 2 else 1)]

/-- What waited in sleep for a capture tick is raised at the first one (DEDUCED, log 23). -/
def raiseHeld (s : State) : State :=
  let xs := s.tim.xinHeld
  let ps := s.tim.pllHeld
  let bad := s.pwr.supplyBad
  let s := { updTim s fun t => { t with xinHeld := [], pllHeld := [] } with pwr := { s.pwr with supplyBad := [] } }
  forEach bad (fun x s => supplyFault x.1 x.2 s) (forEach ps pllUnlock (forEach xs xinFault s))

/-- PLL_LOCK_TIMEOUT: a PLL started at wake has not locked within 1 ms: it counts as unlocked, TD1 in holdover from then on, which
gives the first tick. TD2 or TD5 waits for the first tick where TD1 has not locked either (R40, R41, log 23). -/
def execPllLockTimeout (dom : Nat) (s : State) : Host.Outcome State Fault Refusal :=
  .next (
    if !s.tim.starting.contains dom then s
    else
      let s := updTim s fun t => { t with starting := t.starting.filter fun d => d ≠ dom }
      if dom = 1 then
        (let s := { updTim s fun t => { t with holdover := .active, timeValid := false } with pwr := { s.pwr with lockTick := s.now } }
         raiseHeld (tripResample (wcEvalAll (pllUnlock 1 s))))
      else if isAsleep s then updTim s fun t => { t with pllHeld := t.pllHeld ++ [dom] }
      else pllUnlock dom s)

/-- Each timebase with EN = 1 starts a period at the first tick after lock, one that follows another which starts too at its
SYNC_PHASE (R212, R236). -/
def startTimebases (s : State) : State :=
  forUpTo 4 (fun t s =>
    let c := tbCfg s t
    let slave : Bool := wbit c 27 && wbit (tbCfg s (field c 29 28)) 31
    if wbit c 31 then startPeriod 5 t (if slave then field c 24 0 else 0) s else s) s

/-- PLL_LOCKED: a PLL started at wake locks. At the lock of TD1 global time advances by the TD0 count, and what waits for the first
tick happens: timebases, trips, faults held (R40, R46, R231, R236, R483). -/
def execPllLocked (dom td0 : Nat) (s : State) : Host.Outcome State Fault Refusal :=
  .next (
    if !s.tim.starting.contains dom then s
    else
      let s := updTim s fun t => { t with starting := t.starting.filter fun d => d ≠ dom }
      if dom = 2 then updTim s fun t => { t with td2 := true }
      else if dom = 5 then updTim s fun t => { t with td5 := true }
      else
        let now := s.now + td0 * 25 / 2
        let s := { s with
          now := now, pwr := { s.pwr with lockTick := now },
          tim := { s.tim with td1 := true, timeValid := s.tim.xinOk, skip := some (s.now, now) } }
        let s := parOr s 2 2 0x80
        raiseHeld (tripResample (wcEvalAll (startTimebases s))))

/-- HOLDOVER_END: holdover can no longer hold the frequency; the outputs stay safe until a reset (R41). -/
def execHoldoverEnd (s : State) : Host.Outcome State Fault Refusal :=
  .next (if s.tim.holdover = .active then settlePairs (updTim s fun t => { t with holdover := .ended }) else s)

/-- The chain with the lowest pace, the first of several, with its pace (R52). -/
def lowestPace (l : List Nat) : Nat × Nat :=
  (List.range l.length).foldl (fun a k => if l.getD k 0 < a.2 then (k, l.getD k 0) else a) (0, l.headD 0)

/-- The address in region TRIMS at which the trim of chain `k` stands: the spec gives no place in the region, and each chain has a word
of its own behind those of Burnish (DESIGN CHOICE, log 76). -/
def chainCell (k : Nat) : Nat := 0x10300B40 + 8 * k

/-- The pace of chain `k` that completed `laps` laps, UQ4.12: its laps over its trim, 0 for a trim of 0 or one with a bite mark (R55);
rounded down and held at the top of the format (DESIGN CHOICE, log 76). -/
def chainPace (s : State) (k laps : Nat) : Nat :=
  let trim := (Config.chainTrim k).toNat
  if trim = 0 ∨ readMark s (chainCell k) = .bite then 0 else min 0xFFFF (laps * 4096 / trim)

/-- PACE_MEASUREMENT: the four chains report their laps; a pace below the guaranteed one of the band raises PACE_LOW once per lapse. The
monitor runs wherever TD1 gives ticks, in holdover too (R52 to R55). -/
def execPaceMeasurement (p0 p1 p2 p3 : Nat) (s : State) : Host.Outcome State Fault Refusal :=
  .next (
    if (!s.tim.td1 && s.tim.holdover = .none) || isAsleep s then s
    else
      let s := readCells ((List.range 4).map chainCell) s
      let x := lowestPace [chainPace s 0 p0, chainPace s 1 p1, chainPace s 2 p2, chainPace s 3 p3]
      let low := decide (x.2 < paceGuar s)
      let was := s.tim.paceLow
      let s := updTim s fun t => { t with paceNow := x.2, paceMin := min t.paceMin x.2, paceLow := low }
      let s := if low then parCount s 2 9 1 else s
      if low && !was then raise s 0x0203 x.1 [wrd x.2, wrd (paceGuar s)] else s)

/-- PHASE_STEER: a follower moves the edges of its ticks by 1/16 tick, at most once per microsecond. Its count goes on by one at each
edge, so that only its rate against the master's changes (R45, R48, R50). -/
def execPhaseSteer (fwd : Bool) (s : State) : Host.Outcome State Fault Refusal :=
  .next (
    let early := s.tim.steered.any fun t => inSlide s.now t usTicks
    if s.tim.master || !s.tim.td1 || isAsleep s || early then s
    else
      let d : Int := if fwd then 1 else -1
      updTim s fun t => { t with
        phase16 := (((t.phase16 : Int) + d) % 16).toNat, slew16 := if t.slew16 = 0 then 0 else t.slew16 - d, steered := some s.now })

/-- TIME_STATUS. -/
def timeStatus (s : State) : Word :=
  (parGet s 2 2 &&& 0xC0) ||| wrd (b2n (s.tim.aligned && !s.tim.master) * 2 ^ 5 + b2n s.tim.master * 2 ^ 4 + b2n s.tim.timeValid)

/-- CLOCK_STATUS. -/
def clockStatus (s : State) : Word :=
  (parGet s 2 5 &&& 0xE) ||| wrd (b2n s.tim.td4 * 2 ^ 11 + b2n s.tim.td3 * 2 ^ 10 + b2n s.tim.td5 * 2 ^ 9 +
    b2n s.tim.td2 * 2 ^ 8 + b2n s.tim.td1 * 2 ^ 7 + b2n s.tim.xinOk)

/-- The value of a parameter of unit 0x02. -/
def read02 (s : State) (i : Nat) : Word :=
  if i = 0 then wrd s.now
  else if i = 2 then timeStatus s
  else if i = 3 then wrd (s.tim.paceMin * 2 ^ 16 + s.tim.paceNow)
  else if i = 4 then wrd (s.therm.band * 2 ^ 16 + paceGuar s)
  else if i = 5 then clockStatus s
  else if i = 7 ∧ s.tim.master then 0
  else if i = 8 ∧ s.tim.master then 0
  else parGet s 2 i

/-- A read of TIME_LO captures both halves (R47). -/
def captureTime (s : State) : State := parSet s 2 1 (wrd (s.now / 2 ^ 32))

end Sys2Proof.Machine
end

