-- ==== Sys2Proof/Machine/Pair.lean ====
section
/-!
DEFINITION. The Margin link and the pair as state: eligibility, what a link down and a reset of unit 0x0B do, locks, LEAVE, and
the commands and parameters of unit 0x0B (14_margin_pair.md). The rows of the link are in Machine/Margin.lean.
-/
namespace Sys2Proof.Machine

/-! Eligibility (R416). -/

/-- PER of timebase `t` as a word of a STATUS cell. -/
def perWord (s : State) (t : Nat) : Word := wrd (tbPer s t)

/-- Whether the last STATUS cell of the active device differs from this device, or none has come (R416). -/
def configBad (s : State) : Bool :=
  decide (s.marg.lastStatus = []) ||
    (List.range 4).any fun k => decide (s.marg.lastStatus.getD k 0 ≠ (s.drive k).cfg) ||
      ((drivesWith s fun v => hasArch v && decide (driveTb v = k)) ≠ [] && decide (s.marg.lastStatus.getD (4 + k) 0 ≠ perWord s k))

/-- ELIGIBILITY (*Standby eligibility*); a single device has its reset value (DEDUCED, log 27). -/
def eligibility (s : State) : Nat :=
  if s.marg.role = 0 then 0xFF
  else
    b2n (!s.marg.linkUp || decide (s.marg.role ≠ 2)) * 128 + b2n (!(s.tim.aligned && !s.tim.master)) * 64 +
      b2n (decide (s.so.latches ≠ [])) * 32 + b2n (plateSplit s) * 16 + b2n (s.marg.sideConflict || s.marg.presMismatch) * 8 +
      b2n ((drivesWith s isString).any fun d => (driveRings s d).any fun r => !(s.ring r).farOk) * 4 +
      b2n (!s.marg.mirrorOk) * 2 + b2n (configBad s)

/-- PARTNER_SEEN: a good heartbeat arrived in the last 30 µs. -/
def partnerSeen (s : State) : Bool := s.marg.hbSeen && inSlide s.now s.marg.hbArrive 12000

/-! Locks (R430 to R432). -/

/-- The owner code of R123 as side A (false) or side B (true) sees it. -/
def ownerCode (o : LockOwner) (fromB : Bool) : Nat :=
  match o, fromB with
  | .free, _ => 0
  | .plateA, false => 1 | .hostA, false => 2 | .plateB, false => 3 | .hostB, false => 4
  | .plateB, true => 1 | .hostB, true => 2 | .plateA, true => 3 | .hostA, true => 4

/-- The owner of lock `l`. -/
def lockOwner (s : State) (l : Nat) : LockOwner := tblGet s.marg.locks .free l

/-- The owner of lock `l` is set. -/
def setLock (l : Nat) (o : LockOwner) (s : State) : State := updMarg s fun m => { m with locks := tblSet m.locks .free l o }

/-- A request of master `who` on lock `l` reaches the arbiter of side A: a free lock is granted, an owned one is kept, and
its owner's release frees it (R431). The answer is the owner code that the requester sees. -/
def lockServe (l : Nat) (who : LockOwner) (acquire fromB : Bool) (s : State) : Nat × State :=
  let o := lockOwner s l
  if acquire then (if o = .free then (0, setLock l who s) else (ownerCode o fromB, s))
  else if o = who then (0, setLock l .free s)
  else (ownerCode o fromB, s)

/-- Whether the locks are out of reach: on side B while the link is down (R430). -/
def locksAway (s : State) : Bool := s.marg.sideB && !s.marg.linkUp

/-- A lock access of side B, of its host or of its Plate pair, travels to side A in a LOCK cell (R430). -/
def lockRemote (host : Bool) (tag l : Nat) (release : Bool) (s : State) : State :=
  let n := s.marg.lockNum
  let s := queueCell s .lock l [wrd ((if release then 2 else 1) + (if host then 2 else 1) * 2 ^ 8 + n * 2 ^ 16), 0, 0, 0, 0, 0, 0, 0]
  updMarg s fun m => { m with lockNum := (n + 1) % 256, lockWait := m.lockWait ++ [(n, tag, release)] }

/-- LOCK_ACQUIRE (R123). -/
def bodyLockAcquire (tag : Nat) (ws : List Word) (s : State) : CmdRes :=
  let l := field (pw ws 0) 4 0
  checked s [(locksAway s, stState), (hasBits (pw ws 0) 0xFFFFFFE0, stBadParam)]
    (if s.marg.sideB then .wait (lockRemote true tag l false s)
     else
       let r := lockServe l .hostA true false s
       .done stOk [wrd r.1] r.2)

/-- LOCK_RELEASE (R124): DENIED comes before BAD_PARAM, and a lock that does not exist has no owner. -/
def bodyLockRelease (tag : Nat) (ws : List Word) (s : State) : CmdRes :=
  let l := field (pw ws 0) 4 0
  let bad := hasBits (pw ws 0) 0xFFFFFFE0
  checked s [(locksAway s, stState), (bad, stBadParam)]
    (if s.marg.sideB then .wait (lockRemote true tag l true s)
     else
       let r := lockServe l .hostA false false s
       if r.1 = 0 then .done stOk [] r.2 else refuse stDenied s)

/-! The link goes down; reset of unit 0x0B (R408, R432, R433). -/

/-- The lock commands that wait for side A complete with STATE (R430). -/
def lockAbort (s : State) : State :=
  let l := s.marg.lockWait
  forEach l (fun w s => completeTag w.2.1 stState [] s) (updMarg s fun m => { m with lockWait := [] })

/-- Side A frees every lock owned by a master of side B (R432). -/
def freeFarLocks (s : State) : State :=
  if s.marg.sideB then s
  else updMarg s fun m => { m with locks := m.locks.filter fun e => e.2 ≠ .plateB ∧ e.2 ≠ .hostB }

/-- Whether a cell outlives a link down: R408 discards the others, and the slot keeps a MAILBOX message. -/
def cellKept (c : Cell) : Bool := c.ctype = .handover || c.ctype = .mbxFree || c.ctype = .lockReply

/-- The link is no longer up (R405, R408, R415, R424, R432). -/
def linkDrop (s : State) : State :=
  let s := updMarg s fun m => { m with
    linkUp := false, deskewed := false, peerSeen := false, mirrorOk := false, mirrorTop := 0xFF, lastStatus := [],
    queue := (m.unacked ++ m.queue).filter cellKept, unacked := [], resend := [], wire := none, wireLanes := [], wireEnd := 0,
    linkTick := none, rxTick := none, statusTick := none, outSent := [], credit := 0,
    txSeq := 0, rxSeq := 0, resends := 0, crcRun := 0 }
  lockAbort (freeFarLocks (forUpTo 16 farServiceEnd s))

/-- MARGIN_LINK_DOWN (R405). -/
def linkDown (s : State) : State :=
  if s.marg.linkUp then linkDrop (record (parCount s 11 0xA 1) 0x0B03 0 []) else s

/-- A reset that clears unit 0x0B: the device is single, mailboxes, slots, doorbells and locks are empty, and the link
retrains (R433). The strap and the level of MG_PEER_OWN_N stay. -/
def marginReset (s : State) : State :=
  let m := s.marg
  let s := parClearUnit (forUpTo 16 farServiceEnd s) 11
  { s with
    marg := { sideB := m.sideB, peerOwn := m.peerOwn, peerOwnTick := m.peerOwnTick },
    so := { s.so with ownN := false } }

/-! LEAVE (R412). -/

/-- LEAVE is sent before SLEEP, SHUTDOWN and RESET; without a pair there is nothing to wait for. -/
def leaveStart (s : State) : State :=
  if s.marg.role ≠ 0 ∧ s.marg.linkUp then
    queueCell (updMarg s fun m => { m with leaving := true, leaveAck := false, leaveTick := s.now }) .handover 0 (handoverPayload 6 0)
  else updMarg s fun m => { m with leaving := true, leaveAck := true }

/-- LEAVE has been acknowledged or has waited 2 µs. -/
def leaveOver (s : State) : Bool := s.marg.leaving && s.marg.leaveAck

/-! Roles (R410, R125). -/

/-- The device takes a role: MASTER follows it, and an active device holds the direct outputs (R352, R410). -/
def takeRole (n : Nat) (s : State) : State :=
  { updMarg s fun m => { m with role := n, ho := .none } with
    tim := { s.tim with
      master := n ≠ 2, aligned := false, alignGood := 0, alignBad := 0, slew16 := 0,
      stepDue := decide (n = 2) && s.marg.linkUp },
    so := { s.so with ownN := n = 1 } }

/-- PAIR_ROLE (R125, R410). -/
def bodyPairRole (ws : List Word) (s : State) : CmdRes :=
  let n := field (pw ws 0) 1 0
  checked s
    [(hasBits (pw ws 0) 0xFFFFFFFC || decide (n = 3) ||
        (decide (n ≠ 0) && (!s.marg.linkUp || s.marg.sideConflict || s.marg.presMismatch || decide (n = s.marg.partnerRole))), stBadParam)]
    (let s := if n = s.marg.role then s else takeRole n s
     .done stOk [wrd (b2n (partnerSeen s) * 2 ^ 6 + b2n (s.tim.aligned && !s.tim.master) * 2 ^ 5 + b2n s.marg.linkUp * 2 ^ 4 + n)] s)

/-- th of a commanded hand-over (R418). -/
def offerTick (s : State) : Nat :=
  match drivesWith s fun v => v.dst = .run with
  | d :: _ =>
    let t := driveTb (s.drive d)
    let L := tbLen s t
    let due : Int := (s.now : Int) + 8000 - (s.tb t).t0
    if L = 0 ∨ !(s.tb t).running then s.now + 8000
    else ((s.tb t).t0 + (due + (L : Int) - 1) / (L : Int) * (L : Int)).toNat
  | [] => s.now + 8000

/-- HANDOVER (R126, R418). One that is under way counts as an action that has begun (DEDUCED, log 28). -/
def bodyHandover (tag : Nat) (_ws : List Word) (s : State) : CmdRes :=
  checked s
    [(decide (s.marg.role ≠ 1) || !s.marg.linkUp || s.marg.partnerElig.testBit 6 || decide (s.marg.ho ≠ .none) ||
        decide (drivesWith s (fun v => decide (ssRank v.dst ≠ 0) || decide (v.dst = .stopping) || v.discharging) ≠ []), stState)]
    (let th := offerTick s
     .wait (queueCell (updMarg s fun m => { m with ho := .offered, hoTh := th, hoTag := some tag }) .handover 0 (handoverPayload 1 th)))

/-- HANDOVER completes. -/
def hoComplete (st : Nat) (s : State) : State :=
  match s.marg.hoTag with
  | some t => completeTag t st [] (updMarg s fun m => { m with hoTag := none })
  | none => s

/-! Messages (R120 to R122, R425 to R428). -/

/-- Whether outbound slot `n` is full. -/
def slotFull (s : State) (n : Nat) : Bool := tblGet s.marg.outbox [] n ≠ []

/-- MBX_POST (R120, R425, R428). -/
def bodyMbxPost (ws : List Word) (s : State) : CmdRes :=
  let n := field (pw ws 0) 3 0
  checked s [(hasBits (pw ws 0) 0xFFFFFFF0 || decide (14 ≤ n), stBadParam), (slotFull s n, stMbxFull)]
    (.done stOk [] (postMessage s n (mailWords (ws.drop 1))))

/-- The message of inbound mailbox `n`, with its mark. -/
def inMessage (s : State) (n : Nat) : Option (List Word × Bool) := tblGet s.marg.inbox none n

/-- Inbound mailbox `n` is emptied, and the partner gets a credit (R425). -/
def emptyInbox (n : Nat) (s : State) : State :=
  let s := updMarg s fun m => { m with inbox := tblSet m.inbox none n none }
  if s.marg.linkUp then queueCell s .mbxFree n [0, 0, 0, 0, 0, 0, 0, 0] else s

/-- MBX_READ (R121, R428). -/
def bodyMbxRead (ws : List Word) (s : State) : CmdRes :=
  let n := field (pw ws 0) 3 0
  checked s [(hasBits (pw ws 0) 0xFFFFFFF0 || decide (n = 12) || decide (n = 13), stBadParam)]
    (match inMessage s n with
     | none => .done stOk [0] s
     | some m => .done (if m.2 then stPoison else stOk) (1 :: m.1) (emptyInbox n s))

/-- DOORBELL (R122, R427): own bits are cleared, then the bits to set travel, or are discarded while the link is down. -/
def bodyDoorbell (ws : List Word) (s : State) : CmdRes :=
  let s := updMarg s fun m => { m with doorbell := m.doorbell &&& ~~~ pw ws 1 }
  let s := if s.marg.linkUp then queueCell s .doorbell 0 [pw ws 0, 0, 0, 0, 0, 0, 0, 0] else s
  .done stOk [s.marg.doorbell] s

/-! Parameters of unit 0x0B. -/

/-- The inbound mailboxes that are empty, as a bitmap. -/
def emptyMap (s : State) : Nat := maskOf (below 16 fun n => (inMessage s n).isNone)

/-- MARGIN_STATUS. -/
def marginStatus (s : State) : Word :=
  let m := s.marg
  wrd (m.role * 2 ^ 30 + b2n m.sideB * 2 ^ 29 + b2n m.linkUp * 2 ^ 28 + b2n (partnerSeen s) * 2 ^ 27 +
    b2n (s.tim.aligned && !s.tim.master) * 2 ^ 26 + b2n (decide (eligibility s = 0)) * 2 ^ 25 + b2n m.partnerEligible * 2 ^ 24 +
    b2n m.sideConflict * 2 ^ 23 + b2n m.presMismatch * 2 ^ 22 + b2n m.peerOwn * 2 ^ 21 + b2n m.mirrorOk * 2 ^ 20 +
    b2n (decide ((below 16 fun r => (s.ring r).farAt ≠ none) ≠ [])) * 2 ^ 19)

/-- LOCK_STATE of lock `l`: 7 on side B while the link is down; there, with the link up, side A holds the value, and what the
read returns is free (DESIGN CHOICE, log 29). -/
def lockState (s : State) (l : Nat) : Nat :=
  if !s.marg.sideB then ownerCode (lockOwner s l) false
  else if s.marg.linkUp then (Config.freeWord s.free).toNat % 5
  else 7

/-- The value of a parameter of unit 0x0B. -/
def read0B (s : State) (i : Nat) : Word :=
  if i = 0 then marginStatus s
  else if i = 1 then wrd (eligibility s)
  else if i = 2 then wrd (emptyMap s * 2 ^ 16 + maskOf (below 16 fun n => slotFull s n))
  else if i = 3 then s.marg.doorbell
  else if 0x100 ≤ i ∧ i ≤ 0x11F then wrd (lockState s (i - 0x100))
  else parGet s 11 i

end Sys2Proof.Machine
end

