-- ==== Sys2Proof/Machine/Sketchbook.lean ====
section
/-!
DEFINITION. The Sketchbook: entries and their order, the freeze, the mirror, its commands and parameters (R455 to R464,
R89, R131), and the completion of LPDDR5 requests that the mirror and capture make (R391, R392).
-/
namespace Sys2Proof.Machine

/-- The state with the Sketchbook changed. -/
def updBook (s : State) (f : Sketchbook → Sketchbook) : State := { s with book := f s.book }

/-- The byte address of the entry with SEQ `q`: the ring by SEQ (DEDUCED, log 21). -/
def bookAddr (q : Nat) : Nat := 0x480000 + 32 * (q % 4096)

/-! Event packets (R89, R131). -/

/-- How many EVENT_LOST records wait to be written. -/
def lostWaiting (s : State) : Nat := (s.book.inq.filter fun e => e.code = 0x0101).length

/-- An entry that qualifies joins the event queue; EVENT_LOST goes before all others, and an event that finds the queue
full is counted (R89). -/
def queueEvent (e : LogEntry) (s : State) : State :=
  let put (l : List LogEntry) : State := { s with folio := { s.folio with
    events := l, eventsMost := max s.folio.eventsMost l.length } }
  if e.ev.code = 0x0101 then put (e :: s.folio.events)
  else if e.ev.cls < parField s 0 6 1 0 then s
  else if 256 ≤ s.folio.events.length + lostWaiting s then
    setAttn { s with folio := { s.folio with lost := s.folio.lost + 1 } } 3
  else put (s.folio.events ++ [e])

/-- An entry of the event queue frees: if events were lost, EVENT_LOST is the next event sent (R89). -/
def eventFreed (s : State) : State :=
  if s.folio.lost = 0 then s
  else
    let n := s.folio.lost
    record (parCount { s with folio := { s.folio with lost := 0 } } 1 7 n) 0x0101 0 [wrd n]

/-! The mirror (R460, R461). -/

/-- The entries that the mirror area holds. -/
def mirrorSize (s : State) : Nat := parField s 13 7 8 0 * 32768

/-- An entry taken goes to the mirror queue, or is not mirrored when that is full. -/
def mirrorTake (e : LogEntry) (s : State) : State :=
  if !s.book.mirActive then s
  else if 256 ≤ s.book.mirQueue.length then parCount s 13 9 1
  else lpIssue 200 (updBook s fun b => { b with mirQueue := b.mirQueue ++ [e] })

/-- The oldest entry of the mirror queue lands at its index; a ring wraps, a mirror that stops when full is full. -/
def mirrorLand (s : State) : State :=
  match s.book.mirQueue with
  | [] => s
  | e :: r =>
    match mirrorArea s with
    | none => updBook s fun b => { b with mirQueue := r }
    | some (base, _) =>
      let i := s.book.mirIndex
      let s := storeRange (base + 32 * i) (eventWords e) s
      if i + 1 < mirrorSize s then updBook s fun b => { b with mirQueue := r, mirIndex := i + 1 }
      else if wbit (parGet s 13 4) 30 then
        updBook s fun b => { b with mirQueue := [], mirIndex := i + 1, mirActive := false, mirFull := true }
      else updBook s fun b => { b with mirQueue := r, mirIndex := 0, mirWrapped := true }

/-! Entries (R455 to R459). -/

/-- An entry is stored in the ring; the oldest makes room. -/
def storeEntry (e : LogEntry) (s : State) : State :=
  let s := updBook s fun b => { b with log := (if 4096 ≤ b.log.length then b.log.tail else b.log) ++ [e] }
  freshWords s (bookAddr e.seq) (bookAddr e.seq + 32)

/-- An event takes the next SEQ, and is stored unless the log is frozen, mirrored and queued as a packet (R455, R456,
R459). -/
def assignEntry (ev : Event) (s : State) : State :=
  let e : LogEntry := { seq := s.book.nextSeq, ev := ev }
  let s := updBook s fun b => { b with nextSeq := (b.nextSeq + 1) % 65536 }
  let s := if s.book.frozen then parCount s 13 3 1 else storeEntry e s
  queueEvent e (mirrorTake e s)

/-- The command that waits for the SEQ of this event completes with it (R463, R464). -/
def answerMark (ev : Event) (q : Nat) (s : State) : State :=
  match s.book.markWait.find? fun w => w.1 = ev.code && w.2.1 = ev.time with
  | some w => completeTag w.2.2 stOk [wrd q] (updBook s fun b => { b with markWait := b.markWait.erase w })
  | none => s

/-- The Sketchbook writes one event: the entry, and the freeze that a SAFE_ENTRY arms and LOG_FROZEN ends (R458). -/
def writeEntry (ev : Event) (s : State) : State :=
  let q := s.book.nextSeq
  let s1 := answerMark ev q (assignEntry ev s)
  if s.book.frozen then s1
  else if s.book.armed then
    (let s1 := updBook s1 fun b => { b with left := b.left - 1 }
     if s1.book.left = 1 then
       (let f := s1.book.nextSeq
        updBook (assignEntry (mkEvent s1 0x0D01 0 []) s1) fun b =>
          { b with left := 0, armed := false, frozen := true, frozenSeq := f })
     else s1)
  else if ev.code = 0x0902 then updBook s1 fun b => { b with armed := true, left := 256, armSeq := q }
  else s1

/-- Whether records captured now can still come ahead of `e`: its tick is not over (R65). -/
def tickOpen (s : State) (e : Event) : Bool := decide (e.time = s.now) && ticking s

/-- SKETCHBOOK_WRITE: the next record of the input queue is written, once its tick is over, so that the order of R65 holds among the
records of the tick (R65, R455, R456). -/
def execSketchbookWrite (s : State) : Host.Outcome State Fault Refusal :=
  .next (
    match s.book.inq with
    | [] => s
    | e :: r => if tickOpen s e then s else writeEntry e (updBook s fun b => { b with inq := r }))

/-! Commands (R462 to R464). -/

/-- Whether SEQ `a` is at or after SEQ `b`, by serial arithmetic. -/
def seqFrom (a b : Nat) : Bool := decide ((a + 65536 - b) % 65536 < 32768)

/-- The words of entry `e` in region SKETCHBOOK. -/
def entryCells (e : LogEntry) : List Nat := (List.range 4).map fun k => bookAddr e.seq + 8 * k

/-- Whether entry `e` has a marked word. -/
def entryMarked (s : State) (e : LogEntry) : Bool := (entryCells e).any fun a => markAt s a ≠ .none

/-- LOG_SEQ: the newest and the oldest SEQ; with no entry, the last assigned and the one above it. -/
def logSeq (s : State) : Word :=
  let last := (s.book.nextSeq + 65535) % 65536
  match s.book.log with
  | [] => wrd (last * 2 ^ 16 + s.book.nextSeq)
  | e :: r => wrd (((e :: r).getLastD e).seq * 2 ^ 16 + e.seq)

/-- LOG_READ (R462). -/
def bodyLogRead (ws : List Word) (s : State) : CmdRes :=
  let w := pw ws 0
  let count := field w 21 16
  checked s [(hasBits w 0x7FC00000 || decide (count = 0) || decide (32 < count), stBadParam)]
    (let l := s.book.log
     let es := if wbit w 31 then l.drop (l.length - count)
       else (l.dropWhile fun e => !seqFrom e.seq (field w 15 0)).take count
     let s := readCells (es.flatMap entryCells) s
     let bad := es.map (entryMarked s)
     .done (if bad.contains true then stPoison else stOk)
       ([logSeq s, wrd (b2n s.book.frozen * 2 ^ 31 + b2n s.book.armed * 2 ^ 30 + es.length)] ++ es.flatMap eventWords ++
         [wrd (maskOf (below 32 fun k => bad.getD k false))]) s)

/-- Event `code` is captured for a command, which completes with the SEQ of the entry when that is written. -/
def recordAnswered (code tag : Nat) (args : List Word) (s : State) : State :=
  record (updBook s fun b => { b with markWait := b.markWait ++ [(code, s.now, tag)] }) code 0 args

/-- LOG_MARK (R463). -/
def bodyLogMark (tag : Nat) (ws : List Word) (s : State) : CmdRes := .wait (recordAnswered 0x0D02 tag ws s)

/-- LOG_CLEAR (R464): what was captured before the present tick is written and then, with ERASE, removed; the freeze
ends, and LOG_CLEARED is written. -/
def bodyLogClear (tag : Nat) (ws : List Word) (s : State) : CmdRes :=
  let w := pw ws 0
  checked s [(hasBits w 0xFFFFFFFC || decide (field w 1 0 = 0), stBadParam)]
    (let old := s.book.inq.filter fun e => decide (e.time < s.now)
     let new := s.book.inq.filter fun e => !decide (e.time < s.now)
     let s := forEach old writeEntry (updBook s fun b => { b with inq := [] })
     let s := updBook s fun b => { b with
       log := if wbit w 0 then b.log.filter fun e => !decide (e.ev.time < s.now) else b.log,
       armed := false, frozen := false, left := 0, inq := new }
     .wait (recordAnswered 0x0D03 tag [] s))

/-! Parameters of unit 0x0D. -/

/-- Whether MIR_EN = 1. -/
def mirOn (s : State) : Bool := wbit (parGet s 13 4) 31

/-- The check of a write to a parameter of unit 0x0D (R460, *LOG_CFG*). -/
def check0D (s : State) (i : Nat) (v : Word) : Nat :=
  if i = 4 then
    (if mirOn s && wbit v 30 != wbit (parGet s 13 4) 30 then stState
     else if !wbit v 31 || mirOn s then stOk
     else if !hasLp s.part then stBadParam
     else if !s.mem.lpOnline then stState
     else
       let base := ofTwoWords (parGet s 13 5) (wrd (parField s 13 6 3 0))
       let size := parField s 13 7 8 0 * 2 ^ 20
       if base % 2 ^ 20 ≠ 0 ∨ base < lpBase ∨ lpBase + lpUsable s < base + size ∨ touchesArmed s 4 base size then stBadParam
       else stOk)
  else if 5 ≤ i ∧ i ≤ 7 then
    (if mirOn s then stState
     else if i = 7 ∧ (field v 8 0 = 0 ∨ 256 < field v 8 0) then stBadParam
     else stOk)
  else stOk

/-- The write of a parameter of unit 0x0D lands (R461). -/
def write0D (s : State) (i : Nat) (v : Word) : State :=
  let was := mirOn s
  let s := parSet s 13 i v
  if i ≠ 4 ∨ was = wbit v 31 then s
  else if wbit v 31 then
    updBook s fun b => { b with mirActive := true, mirFull := false, mirWrapped := false, mirIndex := 0, mirQueue := [] }
  else
    serveWaits (lpIssue 200 { updBook s fun b => { b with mirActive := false, mirQueue := [] } with
      mem := { s.mem with lpOut := s.mem.lpOut.filter fun x => x ≠ 4 } })

/-- The value of a parameter of unit 0x0D. -/
def read0D (s : State) (i : Nat) : Word :=
  if i = 0 then
    wrd (b2n s.book.frozen * 2 ^ 31 + b2n s.book.armed * 2 ^ 30 + b2n s.book.mirActive * 2 ^ 29 +
      b2n s.book.mirFull * 2 ^ 28 + s.book.left * 2 ^ 16 + s.book.log.length)
  else if i = 1 then logSeq s
  else if i = 2 then wrd (s.book.frozenSeq * 2 ^ 16 + s.book.armSeq)
  else if i = 8 then wrd (b2n s.book.mirWrapped * 2 ^ 31 + s.book.mirIndex % 2 ^ 23)
  else parGet s 13 i

/-! LPDDR5 requests complete, or are lost with it (R391, R392). -/

/-- LPDDR5_REQUEST_DONE: the oldest request of requester `who` completes; its record lands, and who waits goes on (R391). -/
def execLpddr5RequestDone (who : Nat) (s : State) : Host.Outcome State Fault Refusal :=
  .next (
    if !s.mem.lpOnline || s.mem.lpHeld || !s.mem.lpOut.contains who then s
    else
      let s := { s with mem := { s.mem with lpOut := s.mem.lpOut.erase who } }
      let s := if who < 4 then
          (match (s.cap who).queue with
           | [] => s
           | rcd :: r => captureLand who rcd (s.updCap who fun c => { c with queue := r }))
        else mirrorLand s
      serveWaits (lpIssue 200 s))

/-- LPDDR5 goes offline: what waits for it is discarded, its capture buffers and the mirror stop (R392, R461). -/
def lpOffline (s : State) : State :=
  let s := { s with mem := { s.mem with
    lpOnline := false, lpHeld := false, lpOut := [], fills := [], missedRef := 0 } }
  let s := forUpTo 4 (fun b s => if (s.cap b).lp then captureEnd b (s.updCap b fun c => { c with queue := [] }) else s) s
  let s := parSet s 13 4 (parGet s 13 4 &&& 0x7FFFFFFF)
  serveWaits (updBook s fun b => { b with mirActive := false, mirQueue := [] })

/-- LPDDR5_RELOCK_TIMEOUT: TD5 has not locked again within 200 µs (R392). -/
def execLpddr5RelockTimeout (s : State) : Host.Outcome State Fault Refusal :=
  .next (if s.mem.lpHeld ∧ s.mem.lpHeldAt + 200 * usTicks ≤ s.now then lpOffline (lpFault 2 s) else s)

end Sys2Proof.Machine
end

