-- ==== Sys2Proof/Machine/Thermal.lean ====
section
/-!
DEFINITION. Housekeeping and temperature: the round, its windows, Tj, the thresholds and the bands (R465 to R472).
-/
namespace Sys2Proof.Machine

/-- The state with unit 0x0E changed. -/
def updTherm (s : State) (f : Thermal → Thermal) : State := { s with therm := f s.therm }

/-- A half of a threshold word as a signed value in 0.5 °C. -/
def sgn16 (n : Nat) : Int := if n < 0x8000 then (n : Int) else (n : Int) - 0x10000

/-- LOW_LIMIT, LOW_WARN, HIGH_WARN and HIGH_LIMIT of a THR_LOW and a THR_HIGH word. -/
def thrValues (lo hi : Word) : List Int := [sgn16 (field lo 15 0), sgn16 (field lo 31 16), sgn16 (field hi 15 0), sgn16 (field hi 31 16)]

/-- Whether thresholds are in order and in range (R469). -/
def thrOk (lo hi : Word) : Bool :=
  match thrValues lo hi with
  | [a, b, c, d] => decide (a < b) && decide (b < c) && decide (c < d) && decide (-110 ≤ a) && decide (d ≤ 340)
  | _ => false

/-- The check of a write to a parameter of unit 0x0E. -/
def check0E (s : State) (i : Nat) (v : Word) : Nat :=
  let ok : Bool :=
    if i = 2 then thrOk v (parGet s 14 3)
    else if i = 3 then thrOk (parGet s 14 2) v
    else if i = 4 then decide (2 ≤ field v 7 0) && decide (field v 7 0 ≤ 40)
    else if 0x200 ≤ i ∧ i ≤ 0x21F then decide (field v 11 0 ≤ field v 27 16)
    else true
  if ok then stOk else stBadParam

/-- TJ_STATUS. -/
def tjStatus (s : State) : Word :=
  wrd (b2n s.therm.tjValid * 2 ^ 31 + s.therm.thr % 16 * 2 ^ 24 + s.therm.band * 2 ^ 16 + (wrdI s.therm.tj).toNat % 2 ^ 16)

/-- The value of a parameter of unit 0x0E. -/
def read0E (s : State) (i : Nat) : Word :=
  if i = 0 then tjStatus s
  else if i = 1 then wrd ((wrdI s.therm.hi).toNat % 2 ^ 16 * 2 ^ 16 + (wrdI s.therm.lo).toNat % 2 ^ 16)
  else if 0x100 ≤ i ∧ i ≤ 0x11F then
    wrd (b2n (tblGet s.therm.out false (i - 0x100)) * 2 ^ 31 + tblGet s.therm.codes 0 (i - 0x100))
  else parGet s 14 i

/-- An event of the round. In sleep it is held until wake, one for each kind and index with the last value (R471). -/
def thermEvent (s : State) (code idx : Nat) (args : List Word) : State :=
  if s.pwr.sleep = .asleep ∨ s.pwr.sleep = .waking then
    updTherm s fun t => { t with
      held := (t.held.filter fun e => !(decide (e.code = code) && decide (e.index = idx))) ++ [mkEvent s code idx args] }
  else raise s code idx args

/-- Whether the part has housekeeping channel `k`. -/
def hkPresent (s : State) (k : Nat) : Bool := hasLp s.part || (k ≠ 4 && k ≠ 5)

/-- Channel `k` publishes its code: the window, HK_RANGE_SEEN, and HK_RANGE at the transition (R466). -/
def hkChannel (codes : List Nat) (bad : Bool) (k : Nat) (s : State) : State :=
  if !hkPresent s k then s
  else
    let code := if 13 ≤ k ∧ k ≤ 15 then 0 else codes.getD k 0 % 4096
    let w := parGet s 14 (0x200 + k)
    let out := decide (code < field w 11 0) || decide (field w 27 16 < code)
    let was := tblGet s.therm.out false k
    let wasBad := tblGet s.therm.out false 32
    let fire := (out && !was) || (decide (k = 0) && bad && !wasBad)
    let s := updTherm s fun t => { t with codes := tblSet t.codes 0 k code, out := tblSet t.out false k out }
    let s := if k = 0 then updTherm s fun t => { t with out := tblSet t.out false 32 bad } else s
    let s := if out || (decide (k = 0) && bad) then parOr s 14 6 (wrd (2 ^ k)) else s
    if fire then thermEvent s 0x0E04 k [wrd code] else s

/-- Whether threshold bit `b` holds at `tj`, given whether it held (*Temperature thresholds*). -/
def thrHolds (s : State) (tj : Int) (b : Nat) (was : Bool) : Bool :=
  let h : Int := (parField s 14 4 7 0 : Nat)
  match thrValues (parGet s 14 2) (parGet s 14 3) with
  | [ll, lw, hw, hl] =>
    (match b with
     | 0 => if was then !decide (lw ≤ tj) else decide (tj < ll)
     | 1 => if was then !decide (lw + h ≤ tj) else decide (tj < lw)
     | 2 => if was then !decide (tj < hw - h) else decide (hw ≤ tj)
     | _ => if was then !decide (tj < hw) else decide (hl ≤ tj))
  | _ => was

/-- Threshold bit `b` follows Tj; setting it raises its event (R468). -/
def thrStep (tj : Int) (b : Nat) (s : State) : State :=
  let was := s.therm.thr.testBit b
  let on := thrHolds s tj b was
  if on = was then s
  else
    let s := updTherm s fun t => { t with thr := if on then t.thr ||| 2 ^ b else t.thr - 2 ^ b }
    if on then thermEvent s (if b = 0 ∨ b = 3 then 0x0E03 else 0x0E02) b [wrdI tj] else s

/-- The lower boundary U(b) of band `b` in 0.5 °C, for b 1 to 4. -/
def bandLow (b : Nat) : Int := match b with
  | 1 => -20 | 2 => 80 | 3 => 180 | _ => 250

/-- The band that a reading moves band `b` to; the first reading only falls (R470). -/
def bandOf (fuel : Nat) (first : Bool) (tj : Int) (b : Nat) : Nat :=
  match fuel with
  | 0 => b
  | k + 1 =>
    if !first && decide (b < 4) && decide (bandLow (b + 1) + 6 ≤ tj) then bandOf k first tj (b + 1)
    else if decide (0 < b) && decide (tj < bandLow b) then bandOf k first tj (b - 1)
    else b

/-- HK_ROUND_END: the round publishes its results; windows, Tj, thresholds and the band follow (R465 to R470). -/
def execHkRoundEnd (codes : List Nat) (tj : Int) (s : State) : Host.Outcome State Fault Refusal :=
  .next (
    if s.pwr.resetting = some .powerOn then s
    else
      let bad := decide (tj < -110) || decide (350 < tj)
      let t : Int := if bad then 350 else tj
      let s := parWrap s 14 5
      let s := forUpTo 32 (hkChannel codes bad) s
      let s := updTherm s fun x => { x with tjValid := !bad, tj := t, hi := max x.hi t, lo := min x.lo t }
      let s := forUpTo 4 (thrStep t) s
      let b := bandOf 8 (!s.therm.published) t s.therm.band
      let old := s.therm.band
      let s := updTherm s fun x => { x with published := true, band := b }
      if b = old then s else thermEvent s 0x0E01 0 [wrd b])

end Sys2Proof.Machine
end

