-- ==== Sys2Proof/Machine/Resets.lean ====
section
/-!
DEFINITION. What a reset does to each unit (R486, *Effect of resets and sleep*), with the exceptions that the chapters of
the units state. Each function resets one unit; Machine/Power.lean says which reset clears which.
-/
namespace Sys2Proof.Machine

/-- The DSCH pins whose 2 s still run: a reset other than power-on does not release them (R361). -/
def heldDsch (s : State) : Nat := maskOf (below 4 fun d => (s.drive d).holdTs ≠ none && s.so.dsch.testBit d)

/-- Unit 0x00: no drive has an architecture; what a cut discharge still holds stays (R361). -/
def reset00 (s : State) : State :=
  let s := parClearUnit s 0
  forUpTo 4 (fun d s => s.updDrive d fun v => { holdTs := v.holdTs, holdCut := v.holdCut }) s

/-- Unit 0x02. The levels of the supervised clocks of the host and the partner stay what they are. -/
def reset02 (s : State) : State :=
  let s := parClearUnit s 2
  { s with tim := { td3 := s.tim.td3, td4 := s.tim.td4 } }

/-- Unit 0x03: identity LMAP, P16 traces, no sequence is stored, no comparator is enabled (R171). The levels at the input pins are what they
are. -/
def reset03 (s : State) : State := wcOff { parClearUnit s 3 with conv := { ain := s.conv.ain } }

/-- Unit 0x04: every compare is disarmed (R209). -/
def reset04 (s : State) : State := { parClearUnit s 4 with pos := {} }

/-- Unit 0x05 (R236). The trip inputs and latches are those of unit 0x09. -/
def reset05 (s : State) : State :=
  { parClearUnit s 5 with hatch := { latch := s.hatch.latch, tripIn := s.hatch.tripIn } }

/-- Unit 0x06: every directory entry has its reset value, and what region 4 stored is fresh (R273, R294, R387). -/
def reset06 (s : State) : State :=
  freshWords { parClearUnit s 6 with stip := {} } 0x440000 0x460000

/-- Unit 0x07: every context is EMPTY and every map entry +0.0 (R296). -/
def reset07 (s : State) : State :=
  freshWords { parClearUnit s 7 with grav := {} } 0x3C0000 0x440000

/-- Unit 0x08; the slot and image that run are chosen at the start that follows (R349). -/
def reset08 (s : State) : State := updPlate (plateReset false s) fun p => { p with fallback := false }

/-- Unit 0x09 with the trip parameters: no trip latch and no fault latch is set (R373). The qualified level of ENABLE stays,
and DSCH under R361. -/
def reset09 (s : State) : State :=
  let s := freshWords (parClearUnit s 9) 0x470000 0x480000
  { s with
    so := { enable := s.so.enable, dsch := heldDsch s },
    hatch := { s.hatch with latch := 0 } }

/-- Unit 0x0A: buffers are disarmed, the written-map is clear, and LPDDR5 is to be trained again; SRAM, stored marks and
MRAM stay (R401). -/
def reset0A (s : State) : State :=
  let s := parClearUnit s 10
  { s with mem := {
      cells := s.mem.cells.filter fun c => decide (c.1 < lpBase),
      marks := s.mem.marks.filter fun e => decide (8 * e.1 < lpBase),
      errs := s.mem.errs.filter fun e => decide (8 * e.1 < lpBase) } }

/-- Unit 0x0C returns to its Reset values; the record slots and the spare-row map survive (R454). -/
def reset0C (s : State) : State :=
  { s with burn := { slots := s.burn.slots, rows := s.burn.rows, spares := s.burn.spares, lastStart := s.burn.lastStart,
                     sram := s.burn.sram } }

/-- Unit 0x0D: the log is empty and the first entry carries SEQ 0 (R457). -/
def reset0D (s : State) : State := { parClearUnit s 13 with book := {} }

/-- Unit 0x0E: the band is B4 until the first publication (R472). -/
def reset0E (s : State) : State := { parClearUnit s 14 with therm := {} }

/-- Unit 0x0F but for what R499 keeps. -/
def reset0F (s : State) : State :=
  { parClearUnit s 15 with pwr := { s.pwr with
      lastWake := 0, wakeTime := 0, wakeCfg := 0x90000000, sleep := .awake, sleepDue := false, sleepTag := none, shutTag := none,
      resetDue := none, asleepTd0 := 0, lockTick := 0 } }

/-- SRAM is zero-filled with valid check bits, but for region SKETCHBOOK where `book` keeps it (R485). -/
def zeroFill (book : Bool) (s : State) : State :=
  let keep (a : Nat) : Bool := decide (0x10000000 ≤ a) || (book && decide (0x480000 ≤ a) && decide (a < 0x4A0000))
  { s with mem := { s.mem with
      cells := s.mem.cells.filter fun c => keep c.1,
      marks := s.mem.marks.filter fun e => keep (8 * e.1),
      errs := s.mem.errs.filter fun e => keep (8 * e.1) } }

/-- The main PLL stops, and global time is 0 (R44); the 2 s of a discharge go on in TD0 (R361). -/
def stopPll (s : State) : State :=
  { forUpTo 4 (fun d s => s.updDrive d fun v => { v with holdCut := v.holdTs.isSome }) s with now := 0 }

end Sys2Proof.Machine
end

