-- ==== Sys2Proof/Machine/Burnish.lean ====
section
/-!
DEFINITION. Burnish: the test units and what they restore, results, the record and its two slots, repair, the choice of the
next start, the abort, and the parameters of unit 0x0C (15_burnish.md).
-/
namespace Sys2Proof.Machine

/-- The state with Burnish changed. -/
def updBurn (s : State) (f : Burnish → Burnish) : State := { s with burn := f s.burn }

/-! Test units (R435, R436). -/

/-- Whether the resource of unit `u` is absent (R436). -/
def unitAbsent (s : State) (u : Nat) : Bool :=
  (decide (162 ≤ u) && decide (u ≤ 177) && decide (ringCount s.part ≤ u - 162)) ||
    (decide (112 ≤ u) && decide (u ≤ 127) && decide (laneCount s.part ≤ (u - 112) / 4))

/-- The units that are present. -/
def presentUnits (s : State) : List Nat := below 180 fun u => !unitAbsent s u

/-- The time limit of the unit in progress, twice its duration, in ticks (R440). -/
def unitLimit (s : State) : Nat :=
  match testBlock s.burn.unit with
  | some b => 2 * 10 * usTicks * (if s.burn.quick then b.quick else b.full)
  | none => 0

/-! Records (R447 to R451). -/

/-- The byte address of word `w` of record slot `n` (*Memory regions*, R447). -/
def recAddr (n w : Nat) : Nat := 0x10350000 + 0x1000 * n + 4 * w

/-- The header words of slot `n`, words 0 to 7 (R447; DEDUCED, log 30). -/
def headCells (n : Nat) : List Nat := (List.range 4).map fun w => recAddr n (2 * w)

/-- A record in a slot, when its header words carry no mark once read (R447). -/
def slotRec (s : State) (n : Nat) : Option BurnRec :=
  if (headCells n).any fun a => readMark s a ≠ .none then none else tblGet s.burn.slots none n

/-- The header words of both slots are read, to find the newest record. -/
def readHeads (s : State) : State := readCells (headCells 0 ++ headCells 1) s

/-- Whether RUN `a` is newer than RUN `b` under serial arithmetic. -/
def runNewer (a b : Nat) : Bool := decide ((a + 65536 - b) % 65536 < 32768)

/-- The newest record that satisfies `p`, with its slot. -/
def newestWith (s : State) (p : BurnRec → Bool) : Option (Nat × BurnRec) :=
  match (slotRec s 0).filter p, (slotRec s 1).filter p with
  | some a, some b => if runNewer a.run b.run then some (0, a) else some (1, b)
  | some a, none => some (0, a)
  | none, some b => some (1, b)
  | none, none => none

/-- The newest record (R447). -/
def newestRec (s : State) : Option (Nat × BurnRec) := newestWith s fun _ => true

/-- RESULT of unit `u` in a record. -/
def recResult (r : BurnRec) (u : Nat) : Nat := tblGet r.results 0 u
/-- Whether unit `u` is covered in a record. -/
def recCovered (r : BurnRec) (u : Nat) : Bool := tblGet r.covered false u
/-- Whether some unit of a record is FAIL. -/
def recFails (r : BurnRec) : Bool := (List.range 180).any fun u => recResult r u = 2

/-- The bitmap of blocks all of whose units satisfy `p` (`every`), or one of whose units does. -/
def blockMap (every : Bool) (p : Nat → Bool) : Nat :=
  maskOf ((testBlocks.filter fun b =>
    let us := (List.range (b.hi + 1 - b.lo)).map fun i => b.lo + i
    if every then us.all p else us.any p).map fun b => b.bit)

/-- BLOCK_COVERAGE. -/
def blockCoverage (r : BurnRec) : Nat := blockMap true (recCovered r)

/-- The rows of bank `b` that a record lists as failing, in their order. -/
def failedRows (r : BurnRec) (b : Nat) : List Nat :=
  (r.fails.filter fun e => decide (16 ≤ e.1) && decide (e.1 ≤ 111) && decide (e.2.bank = b)).map fun e => e.2.row

/-- The rows of bank `b` that a record adds to the spare-row map. -/
def newRows (s : State) (r : BurnRec) (b : Nat) : List Nat :=
  (failedRows r b).filter fun x => !(tblGet s.burn.rows [] b).contains x

/-- Whether a record cannot be repaired (R451). -/
def unrepairable (s : State) (r : BurnRec) : Bool :=
  r.overflow || ((List.range 8).any fun b => decide (16 < (tblGet s.burn.rows [] b).length + (newRows s r b).length)) ||
    (List.range 180).any fun u => decide (recResult r u = 2) && !(decide (16 ≤ u) && decide (u ≤ 111))

/-- The words of a failing entry (*Failing entry*). -/
def failWords (e : Nat × FailRow) : List Word :=
  [wrd (e.1 * 2 ^ 24 + e.2.address % 2 ^ 24), e.2.lo, e.2.hi, wrd (e.2.row % 2048 * 2 ^ 16 + e.2.bank % 16 * 2 ^ 8 + e.2.check % 256)]

/-- REC_INFO with a STATE. -/
def recInfo (r : BurnRec) (st : Nat) : Word :=
  wrd (r.run * 2 ^ 16 + 1 * 2 ^ 12 + r.kind * 2 ^ 10 + r.result * 2 ^ 8 + st * 2 ^ 6 + b2n r.aborted * 2 ^ 5 + b2n r.overflow * 2 ^ 4 +
    b2n r.unrep * 2 ^ 3)

/-- Words 0 to 452 of a record with a STATE in REC_INFO (*Burnish record*). -/
def recBody (r : BurnRec) (st : Nat) : List Word :=
  let count (n : Nat) : Nat := ((List.range 180).filter fun u => recResult r u = n).length
  let bits (w : Nat) : Word := wrd (maskOf (below 32 fun k => recCovered r (32 * w + k)))
  let res (w : Nat) : Word := wrd ((List.range 16).foldl (fun a k => a + recResult r (16 * w + k) * 2 ^ (2 * k)) 0)
  let sp (w : Nat) : Word := wrd ((List.range 4).foldl (fun a k => a + tblGet r.spares 0 (4 * w + k) * 2 ^ (8 * k)) 0)
  [0x4255524E, recInfo r st, wrd r.duration, wrd ((wrdI r.tj).toNat % 2 ^ 16 * 2 ^ 16 + r.band * 2 ^ 8), r.version,
   wrd (blockCoverage r), wrd (blockMap false fun u => recResult r u = 2),
   wrd (count 3 * 2 ^ 16 + count 2 * 2 ^ 8 + r.fails.length)] ++
    (List.range 6).map bits ++ (List.range 12).map res ++ ((r.fails.flatMap failWords) ++ List.replicate 64 0).take 64 ++
    (List.range 180).flatMap (fun u => [wrd (tblGet r.counts 0 u), tblGet r.sigs 0 u]) ++ [sp 0, sp 1, 0]

/-- Words 0 to 453 of a record; its CRC takes STATE as 0. -/
def recWords (r : BurnRec) : List Word := recBody r r.state ++ [payloadCrc (recBody r 0)]

/-- The record being written goes to its slot, unless it exists in SRAM only (R448). -/
def persist (s : State) : State :=
  if s.burn.mramRec then
    freshWords (updBurn s fun b => { b with slots := tblSet b.slots none b.slot b.cur })
      (recAddr s.burn.slot 0) (recAddr s.burn.slot 454)
  else s

/-- A run begins: the record is opened in the slot that does not hold the newest one, or in SRAM when MRAM refuses it
(R393, R448). -/
def startRun (kind : Nat) (quick : Bool) (set : List Nat) (s : State) : State :=
  let s := readHeads s
  let n := newestRec s
  let r : BurnRec :=
    { run := (match n with
        | some x => (x.2.run + 1) % 65536
        | none => 0),
      kind := kind, state := 1, tj := s.therm.tj, band := s.therm.band, version := s.plate.version,
      covered := (below 180 fun u => unitAbsent s u).map fun u => (u, true), spares := s.burn.spares }
  let slot := match n with
    | some x => 1 - x.1
    | none => 0
  let s := updBurn s fun b => { b with
    phase := .running, quick := quick, set := set, todo := set, unit := set.headD 0, unitAt := s.now, start := s.now, cur := some r, slot := slot,
    mramRec := mramOpen s, abortPend := false, reload := false, dead := false }
  persist (if s.burn.mramRec then s else mramRefuse s)

/-- A failing row joins the entries: one entry for each distinct row, at most 16 (R449). -/
def addFail (u : Nat) (f : FailRow) (r : BurnRec) : BurnRec :=
  let mem (x : Nat) : Bool := decide (x < 16)
  let same (e : Nat × FailRow) : Bool := mem e.1 == mem u && decide (e.2.row = f.row) && decide (e.2.bank = f.bank) &&
    (!mem u || decide (e.2.address / 1024 = f.address / 1024))
  if r.fails.any same then
    { r with fails := r.fails.map fun e => if same e then
        (e.1, { e.2 with lo := e.2.lo ||| f.lo, hi := e.2.hi ||| f.hi, check := e.2.check ||| f.check }) else e }
  else if 16 ≤ r.fails.length then { r with overflow := true }
  else { r with fails := r.fails ++ [(u, f)] }

/-- The TRIMS address of the expected values of unit `u` (DESIGN CHOICE, log 31). -/
def trimAddr (u : Nat) (quick : Bool) : Nat := 0x10300000 + 8 * (2 * u + b2n quick)

/-- RESULT of a unit that ends with a count, a signature and failing rows: 1 PASS, 2 FAIL, 3 INCOMPLETE (R439). -/
def unitResult (s : State) (u count : Nat) (sig : Word) (rows : List FailRow) : Nat :=
  let k := 2 * u + b2n s.burn.quick
  if readMark s (trimAddr u s.burn.quick) = .bite then 3
  else if u ≤ 111 ∧ rows ≠ [] then 2
  else if count < Config.burnCount k then 3
  else if sig = Config.burnSig k then 1
  else 2

/-- The result of a unit enters the record with its failing rows. -/
def noteUnit (u count : Nat) (sig : Word) (rows : List FailRow) (s : State) : State :=
  let res := unitResult s u count sig rows
  let cov := decide (count = Config.burnCount (2 * u + b2n s.burn.quick)) && decide (res ≠ 3)
  let put (r : BurnRec) : BurnRec :=
    { r with
      results := tblSet r.results 0 u res, covered := tblSet r.covered false u cov,
      counts := tblSet r.counts 0 u (count % 2 ^ 32), sigs := tblSet r.sigs 0 u sig }
  let rs := if u ≤ 111 then rows else []
  updBurn (readCells [trimAddr u s.burn.quick] s) fun b => { b with cur := b.cur.map fun r => rs.foldl (fun r f => addFail u f r) (put r) }

/-! Restoring tested blocks (R438). -/

/-- Unit 0x07 without its maps. -/
def restoreGraver (s : State) : State :=
  freshWords { s with
    par := s.par.filter fun e => !(decide (e.1 / 0x10000 = 7) && !(decide (0x20 ≤ e.1 % 0x10000) && decide (e.1 % 0x10000 < 0x40))),
    grav := { maps := s.grav.maps } } 0x3C0000 0x440000

/-- Stop-out with the trip path, or the Registration instances, of unit 0x09. -/
def restoreStopout (reg : Bool) (s : State) : State :=
  let s := { s with par := s.par.filter fun e =>
    !(decide (e.1 / 0x10000 = 9) && (if reg then decide (0x200 ≤ e.1 % 0x10000) else decide (e.1 % 0x10000 < 0x200))) }
  if reg then freshWords { s with so := { s.so with regs := [] } } (par9Addr 0x200) (par9Addr 0x280)
  else freshWords { s with
    so := { s.so with latches := [], classD := false, ownN := s.so.ownN },
    hatch := { s.hatch with latch := 0 } } (par9Addr 0) (par9Addr 0x200)

/-- The converters keep their stored sequences and what their calibration has found; the rotation restarts as after wake (R171). -/
def restoreConverters (s : State) : State :=
  let q := s.conv.seqs.map fun e => (e.1, { entries := seqStored e.2, trigger := e.2.trigger : Seq })
  beginStep { parClearUnit s 3 with conv := { seqs := q, ain := s.conv.ain, trims := s.conv.trims } }

/-- The ring ports keep the directory, RING_CFG and the enumeration results. -/
def restoreRings (s : State) : State :=
  let cfg (a : Nat) : Bool := decide (a / 0x10000 = 6) && decide (0x100 ≤ a % 0x10000) && decide (a % 0x10000 < 0x200) &&
    (decide (a % 16 = 0) || decide (a % 16 = 3))
  { s with
    par := s.par.filter fun e => decide (e.1 / 0x10000 ≠ 6) || cfg e.1,
    stip := { dir := s.stip.dir,
              rings := s.stip.rings.map fun e => (e.1, { st := e.2.st, result := e.2.result, count := e.2.count,
                                                          lastReached := e.2.lastReached, farOk := e.2.farOk : Ring }) } }

/-- The command dispatcher and tag table, which hold no command. -/
def restoreFolio (s : State) : State :=
  { parClearUnit s 1 with folio := { replies := s.folio.replies, onLane := s.folio.onLane, events := s.folio.events,
                                      lane := s.folio.lane, tags := s.folio.tags, inReset := false, hostBase := s.folio.hostBase } }

/-- The block of unit `u` is restored (*Restoring tested blocks*). -/
def restoreBlock (u : Nat) (s : State) : State :=
  let b := match testBlock u with
    | some b => b.bit
    | none => 0
  if b < 9 then s
  else if b ≤ 12 then restoreGraver s
  else if b = 13 then reset05 s
  else if b = 14 then restoreStopout false s
  else if b = 15 then restoreStopout true s
  else if b = 16 then restoreConverters s
  else if b = 17 then restoreRings s
  else if b = 18 then restoreFolio s
  else plateReset false s

/-- Whether unit `u` is the last of its block that runs: none of its block is left to run, or an abort ends the run here. A block
cut short by an abort is restored too (DESIGN CHOICE, log 33). -/
def endsBlock (s : State) (u : Nat) (rest : List Nat) : Bool :=
  s.burn.abortPend || (rest.all fun v => (testBlock v).map TestBlock.bit ≠ (testBlock u).map TestBlock.bit)

/-! Repair (R450, R453). -/

/-- The spare-row map is extended by the failing rows of a record while spare rows remain: the rows are in use at once, and the
map is written when MRAM permits (R450). -/
def applyRepairs (r : BurnRec) (s : State) : State :=
  let add := (List.range 8).map fun b => (b, (newRows s r b).take (16 - (tblGet s.burn.rows [] b).length))
  if add.all fun x => x.2 = [] then s
  else
    let s := forEach add (fun x s =>
      if x.2 = [] then s
      else updBurn (record s 0x0C03 x.1 [wrd x.2.length]) fun b => { b with
        spares := tblSet b.spares 0 x.1 ((tblGet b.rows [] x.1).length + x.2.length) }) s
    if mramOpen s then
      forEach add (fun x s => updBurn s fun b => { b with rows := tblSet b.rows [] x.1 (tblGet b.rows [] x.1 ++ x.2) }) s
    else mramRefuse s

/-! The end of a run. -/

/-- The run result (R441) over the units of the run (DEDUCED, log 32). -/
def runResult (s : State) (r : BurnRec) : Nat :=
  if recFails r then 1 else if s.burn.set.all (recCovered r) then 0 else 2

/-- The record is closed: its remaining fields, its state, and BURNISH_DONE or BURNISH_ABORTED at shutdown (R441, R446, R448,
R451, R453). -/
def closeRun (aborted : Bool) (s : State) : State :=
  match s.burn.cur with
  | none => s
  | some r =>
    let r := { r with
      result := runResult s r, state := if r.kind = 1 then 3 else 2, aborted := aborted, unrep := unrepairable s r,
      duration := (s.now - s.burn.start) / usTicks % 2 ^ 32 }
    let s := persist (updBurn s fun b => { b with cur := some r, phase := .closed, todo := [], abortPend := false })
    let s := if s.burn.mramRec then s else updBurn s fun b => { b with sram := some r }
    if s.op ≠ .shutdown then s
    else if aborted then record s 0x0C02 0 [wrd (blockCoverage r)]
    else record s 0x0C01 0 [wrd (match r.result with | 0 => 0 | 1 => 1 | _ => 2)]

/-- Every ring has lost its link and relinks. -/
def relinkRings (s : State) : State :=
  { s with stip := { s.stip with rings := s.stip.rings.map fun e => (e.1, { e.2 with linkUp := false }) } }

/-- The device leaves SHUTDOWN for STANDBY: BURNISH_STATE has its Reset values, trips act again, sources restart and rings
relink (R176, R231, R446, R454; restart of sources DEDUCED, log 33). -/
def leaveShutdown (s : State) : State :=
  let tags := s.burn.abortTags
  let s := updBurn s fun b => { slots := b.slots, rows := b.rows, spares := b.spares, lastStart := b.lastStart, sram := b.sram }
  let s := setOp s .standby
  let s := relinkRings s
  let s := gapsFrom (tripResample (wcEvalAll (settlePairs (forUpTo 12 restartSource s))))
  forEach tags (fun t s => completeTag t stOk [] s) s

/-- After unit 179 has failed: the cores stay stopped, and every firmware command that waits completes with BURNISH (R445). -/
def burnishDead (s : State) : State :=
  let l := s.folio.tags.filter fun e => e.phase ≠ .replied && e.phase ≠ .receiving && !opFast e.opcode
  let s := closeRun false (updBurn s fun b => { b with dead := true, abortTags := [] })
  forEach l (fun e s => completeTag e.tag stBurnish [] s) s

/-- The unit that follows, the drain before unit 178, or the end of the run (R435, R444 to R446). -/
def nextUnit (rest : List Nat) (s : State) : State :=
  let s := updBurn s fun b => { b with todo := rest }
  if s.burn.abortPend then leaveShutdown (closeRun true s)
  else match rest with
  | u :: _ => updBurn s fun b =>
      if u = 178 ∧ s.op = .shutdown then { b with phase := .draining, unitAt := s.now } else { b with unit := u, unitAt := s.now }
  | [] =>
    if s.op ≠ .shutdown then closeRun false s
    else match s.burn.cur with
    | some r => if recResult r 179 = 2 then burnishDead s else updBurn s fun b => { b with reload := true }
    | none => s

/-- A unit that is FAIL in a startup Burnish is handled at once: SRAM rows are repaired and the unit runs again; any other
failure locks the device (R453). -/
def bootFail (u : Nat) (rest : List Nat) (s : State) : State :=
  match s.burn.cur with
  | none => s
  | some r =>
    if 16 ≤ u ∧ u ≤ 111 ∧ !unrepairable s r ∧ ((List.range 8).any fun b => newRows s r b ≠ []) then
      applyRepairs r (updBurn s fun b => { b with unitAt := s.now })
    else nextUnit rest { s with safeLocked := true }

/-- A unit ends (R439, R448, R449). -/
def unitEnd (count : Nat) (sig : Word) (rows : List FailRow) (s : State) : State :=
  match s.burn.todo with
  | [] => s
  | u :: rest =>
    if s.burn.phase ≠ .running then s
    else
      let s := persist (noteUnit u count sig rows s)
      let s := if endsBlock s u rest then restoreBlock u s else s
      match s.burn.cur with
      | some r => if r.kind = 1 ∧ recResult r u = 2 then bootFail u rest s else nextUnit rest s
      | none => s

/-- BURNISH_UNIT_END: the unit in progress ends (R439). -/
def execBurnishUnitEnd (count : Nat) (sig : Word) (rows : List FailRow) (s : State) : Host.Outcome State Fault Refusal :=
  .next (unitEnd count sig rows s)

/-- BURNISH_UNIT_TIMEOUT: the unit reaches twice its duration and is recorded with what it had reached (R440). -/
def execBurnishUnitTimeout (count : Nat) (sig : Word) (rows : List FailRow) (s : State) : Host.Outcome State Fault Refusal :=
  .next (if s.now < s.burn.unitAt + unitLimit s then s else unitEnd count sig rows s)

/-- BURNISH_DRAIN_DONE: no command is in flight and unit 178 starts (R444). -/
def execBurnishDrainDone (s : State) : Host.Outcome State Fault Refusal :=
  .next (if s.burn.phase = .draining ∧ s.folio.tags = [] then updBurn s fun b => { b with phase := .running, unit := 178, unitAt := s.now }
    else s)

/-- BURNISH_DRAIN_TIMEOUT: the tag table has not emptied in 10 ms; unit 178 is not run (R444). -/
def execBurnishDrainTimeout (s : State) : Host.Outcome State Fault Refusal :=
  .next (if s.burn.phase = .draining ∧ s.folio.tags ≠ [] ∧ s.burn.unitAt + 10 * msTicks ≤ s.now then
      nextUnit s.burn.todo.tail (updBurn s fun b => { b with phase := .running })
    else s)

/-- BURNISH_RELOAD_DONE: the image is loaded again from its slot after unit 179, the cores start, the record is closed and the run
is over (R438, R446). -/
def execBurnishReloadDone (s : State) : Host.Outcome State Fault Refusal :=
  .next (
    if !s.burn.reload then s
    else
      let s := loadImage s.plate.bootSlot (readSlot s.plate.bootSlot s)
      closeRun false (updBurn (updPlate s fun p => { p with wdTick := s.now }) fun b => { b with reload := false }))

/-! The next start (R452, R453). -/

/-- The units of a list that a record does not cover; of a RUNNING record only a PASS with the expected values counts. -/
def uncovered (s : State) (r : BurnRec) : List Nat :=
  (presentUnits s).filter fun u =>
    !(if r.state = 1 then
        decide (recResult r u = 1) && decide (tblGet r.counts 0 u = Config.burnCount (2 * u)) &&
          decide (tblGet r.sigs 0 u = Config.burnSig (2 * u))
      else recCovered r u)

/-- LAST_START of a start. -/
def noteStart (kind : Nat) (run : Nat) (s : State) : State := updBurn s fun b => { b with lastStart := wrd (run * 2 ^ 16 + kind) }

/-- A startup Burnish of a set of units, or none when the set is empty. -/
def startupRun (set : List Nat) (s : State) : State := if set = [] then s else startRun 1 true set s

/-- A lost record: startup Burnish of every present unit. -/
def lostStart (s : State) : State := startupRun (presentUnits s) (noteStart 4 0 s)

/-- SAFE_LOCKED: the FULL set of `set` runs, recorded as LOCK_RETEST. -/
def lockedStart (run : Nat) (set : List Nat) (s : State) : State :=
  startRun 2 false set (noteStart 3 run { s with safeLocked := true })

/-- The record in slot `n` is marked CONSUMED. -/
def consumeRec (n : Nat) (r : BurnRec) (s : State) : State :=
  updBurn s fun b => { b with slots := tblSet b.slots none n (some { r with state := 3 }) }

/-- The start that a newest record `r` in slot `n` gives (R452); `fails` and `unrep` say what it held before R450. SAFE_LOCKED is
lifted only by a LOCK_RETEST with RESULT PASS (R453). -/
def startFrom (n : Nat) (r : BurnRec) (fails unrep : Bool) (s : State) : State :=
  if r.kind = 2 then
    (if r.state = 2 ∧ r.result = 0 ∧ !r.aborted then
      startupRun (presentUnits s) (noteStart 1 r.run { s with safeLocked := false })
     else lockedStart r.run ((presentUnits s).filter fun u => recResult r u = 2 || !recCovered r u) s)
  else if r.kind ≠ 0 ∨ r.state = 3 then lostStart s
  else if fails && unrep then lockedStart r.run ((presentUnits s).filter fun u => recResult r u = 2) s
  else if !mramOpen s then lostStart (mramRefuse s)
  else
    let s := consumeRec n r s
    if fails then
      (let us := uncovered s r
       startupRun ((presentUnits s).filter fun u => recResult r u = 2 || us.contains u) (noteStart 2 r.run s))
    else if r.state = 2 ∧ r.result = 0 then noteStart 0 r.run s
    else startupRun (uncovered s r) (noteStart 1 r.run s)

/-- The boot ROM applies the SRAM entries of the newest record (R450) and chooses the start from it (R452): the test it starts,
if any. -/
def chooseStart (s : State) : State :=
  let s := readHeads s
  match newestRec s with
  | none => lostStart s
  | some (n, r) => startFrom n r (recFails r) (unrepairable s r) (applyRepairs r s)

/-! Commands and parameters. -/

/-- BURNISH_ABORT (R129, R446). After the last unit, and between units, it takes the device to STANDBY at once. -/
def bodyBurnishAbort (tag : Nat) (_ws : List Word) (s : State) : CmdRes :=
  let s := updBurn s fun b => { b with abortTags := b.abortTags ++ [tag] }
  if s.burn.phase = .closed then .wait (leaveShutdown s)
  else if s.burn.phase = .draining then .wait (leaveShutdown (closeRun true s))
  else .wait (updBurn s fun b => { b with abortPend := true })

/-- The words of a record as BURNISH_RESULT returns them, with POISON when one of them is marked. -/
def resultReply (s : State) (n : Option Nat) (r : BurnRec) : CmdRes :=
  let cells : List Nat := match n with
    | some n => (List.range 227).map fun w => recAddr n (2 * w)
    | none => []
  let s := readCells cells s
  let bad := cells.any fun a => wordMark s a = .bite
  .done (if bad then stPoison else stOk) (recWords r) s

/-- BURNISH_RESULT (R129, R447, R448). -/
def bodyBurnishResult (ws : List Word) (s : State) : CmdRes :=
  let sel := wbit (pw ws 0) 0
  checked s
    [(hasBits (pw ws 0) 0xFFFFFFFE || (sel && decide (s.op ≠ .shutdown) && s.burn.sram.isNone), stBadParam)]
    (if sel then
      (match (if s.op = .shutdown then s.burn.cur else s.burn.sram) with
       | some r => resultReply s none r
       | none => refuse stBadParam s)
     else
      (let s := readHeads s
       match newestWith s fun r => decide (2 ≤ r.state) with
       | some (n, r) => resultReply s (some n) r
       | none => .done stOk (0x4255524E :: List.replicate 453 0) s))

/-- BURNISH_STATE. -/
def burnishState (s : State) : Word :=
  let ph := match s.burn.phase with
    | .idle => 0 | .running => 1 | .draining => 2 | .closed => 3
  wrd (ph * 2 ^ 30 + b2n s.burn.quick * 2 ^ 28 + b2n s.burn.abortPend * 2 ^ 27 + b2n s.burn.mramRec * 2 ^ 26 + s.burn.unit)

/-- The value of a parameter of unit 0x0C. -/
def read0C (s : State) (i : Nat) : Word :=
  let sp (w : Nat) : Word := wrd ((List.range 4).foldl (fun a k => a + tblGet s.burn.spares 0 (4 * w + k) * 2 ^ (8 * k)) 0)
  if i = 0 then burnishState s else if i = 1 then sp 0 else if i = 2 then sp 1 else s.burn.lastStart

end Sys2Proof.Machine
end

