-- ==== Sys2Proof/Machine/Completion.lean ====
section
/-!
DEFINITION. The end of a conversion and what hangs on it: the result word, capture, the reply of an urgent request, and
the completion of a sequence with its deliveries to Hatch, Stop-out, Registration and Graver (R134 to R155, R223, R308,
R360, R363, R394); the triggers that start one (R139, R220).
-/
namespace Sys2Proof.Machine

/-- The result word of a conversion on logical slice `i` (*Result word*, R137). -/
def resultWord (i : Nat) (c : Conv) (code : BitVec 14) (ovr side : Bool) : Word :=
  wrd (c.input % 64 * 2 ^ 26 + i % 16 * 2 ^ 22 + b2n c.shift * 2 ^ 18 + b2n ovr * 2 ^ 17 + b2n (ovr && side) * 2 ^ 16 +
    (if ovr then (if side then 0x3FFF else 0) else code.toNat))

/-- A result with OVR = 1: OVR_SEEN, and OVER_RANGE at most once in any sliding millisecond (R138). -/
def overRange (inp : Nat) (side : Bool) (s : State) : State :=
  let s := parOr s 3 (0x14 + inp / 32) (wrd (2 ^ (inp % 32)))
  let due := match tblGet s.conv.ovrTick none inp with
    | some t => !inSlide s.now t msTicks
    | none => true
  if due then
    record (updConv s fun c => { c with ovrTick := tblSet c.ovrTick none inp (some s.now) }) 0x0304 inp [wrd (b2n side)]
  else s

/-- The results and the COUNT of a completion of sequence `n` replace those of the one before (R144). -/
def putResults (results : Tbl Word) (n : Nat) (words : List Word) : Tbl Word :=
  (List.range 64).foldl (fun t k => tblSet t 0 (64 * n + k) (words.getD k 0)) results

/-- Instances triggered at or after tick `t` take the results of sequence `n` that ended by then (R299). -/
def patchResults (n t : Nat) (words : List Word) (s : State) : State :=
  let put (p : Snap) : Snap :=
    { p with results := putResults p.results n words, counts := tblSet p.counts 0 n words.length }
  forUpTo 32 (fun m s =>
    let q := s.sequ m
    if (q.pend.any fun x => decide (t ≤ x.1)) || (q.run.any fun x => decide (t ≤ x.trig)) ||
        (q.due.any fun x => decide (t ≤ x.1)) then
      s.updSeq m fun q => { q with
        due := q.due.map fun x => if t ≤ x.1 then (x.1, x.2.1, put x.2.2) else x,
        pend := q.pend.map fun x => if t ≤ x.1 then (x.1, x.2.1, put x.2.2) else x,
        run := q.run.map fun x => if t ≤ x.trig then { x with snap := put x.snap } else x }
    else s) s

/-- Sequence `n` completes at `t`: its results are held and delivered to the dead-time bands, Stop-out, Registration and
the roots that it triggers (R144, R223, R308, R360, R363). -/
def seqComplete (n t : Nat) (run : SeqRun) (s : State) : State :=
  let words := (List.range run.entries.length).map fun k => (tblGet run.done none k).getD 0
  let res (k : Nat) : Option Word := if k < words.length then some (words.getD k 0) else none
  let s := s.updSeq n fun q => { q with run := none }
  let s := updConv s fun c => { c with
    results := putResults c.results n words, counts := tblSet c.counts 0 n words.length }
  let s := parWrap s 3 (0x200 + n)
  let s := patchResults n t words s
  let s := bandsFrom s n res
  let s := dischargeCheck n run.trig res s
  let s := deliverReg n run.trig run.entries res s
  let snap : Snap := { run.snap with
    results := putResults run.snap.results n words, counts := tblSet run.snap.counts 0 n words.length }
  forEach (below 256 fun c => ctxIsRoot (s.ctx c) && decide (ctxTrig (s.ctx c) = n) && ctxAdmitted (s.ctx c))
    (fun c s => rootReady c run.trig snap s) s

/-- Entry `k` of sequence `n` has converted on slice `i` with result `w`; the slice is free of the instance after its last
entry, and the last of all completes the sequence (R143, R144, R149). -/
def entryDone (i n k t : Nat) (w : Word) (s : State) : State :=
  let s := if (s.slice i).todo = [] then
      s.updSlice i fun c => { c with owner := none, urgUsed := false, shift := false }
    else s
  match (s.sequ n).run with
  | none => s
  | some r =>
    let r := { r with done := tblSet r.done none k (some w) }
    let s := s.updSeq n fun q => { q with run := some r }
    if (List.range r.entries.length).all fun k => tblGet r.done none k ≠ none then seqComplete n t r s else s

/-- The conversion of slice `i` ends: what its result is for (R134, R144, R150, R153, R155, R394). -/
def conversionEnd (i : Nat) (c : Conv) (code : BitVec 14) (ovr side : Bool) (tcode : BitVec 14) (tovr : Bool) (s : State) : State :=
  let w := resultWord i c code ovr side
  let s := s.updSlice i fun x => { x with conv := none }
  let s := if shadowed s i c then shadowPair (c.start + 40) (field w 13 0) tcode.toNat ovr tovr s else s
  let s := match c.what with
    | .reference => s
    | .urgent tag =>
      let s := if ovr then overRange c.input side s else s
      completeTag tag stOk (w :: twoWords (c.start + 12)) (parCount s 3 0x13 1)
    | .seq n k =>
      let s := if ovr then overRange c.input side s else s
      entryDone i n k (c.start + 40) w (captureAll c.input w (c.start + 12) s)
  startReference (startEntry i s)

/-- CONVERSION_DONE: the conversion in progress on a logical slice completes, 40 ticks after its slot began (R134). -/
def execConversionDone (ls : Nat) (code : BitVec 14) (ovr side : Bool) (tcode : BitVec 14) (tovr : Bool) (s : State) :
    Host.Outcome State Fault Refusal :=
  .next (
    match (s.slice ls).conv with
    | none => s
    | some c => if ls < 16 ∧ convRun s ∧ c.start + 40 ≤ s.now then conversionEnd ls c code ovr side tcode tovr s else s)

/-- The offsets of a period of timebase `t` at which trigger compare `k` fires (R220): each once, and count 0 at offset 0 only. -/
def firingOffsets (s : State) (t k : Nat) : List Nat :=
  let edge := field (parGet s 5 (0x109 + 16 * t)) (2 * k + 1) (2 * k)
  let cmp := field (tbCmp s t k) 27 4
  let per := tbPer s t
  if !tbUpDown s t || decide (cmp = 0) || decide (cmp = per) then [cmp]
  else (if edge.testBit 0 then [cmp] else []) ++ (if edge.testBit 1 then [2 * per - cmp] else [])

/-- Whether trigger compare `k` of timebase `t` fires at the present offset (R220). -/
def triggerNow (s : State) (t k : Nat) : Bool :=
  triggerReached s t k && tbBegun s t && (firingOffsets s t k).contains (tbOffset s t)

/-- The tick, behind the present one, at which trigger compare `k` of timebase `t` would have fired had the last positive step not
carried the count past it (R37). -/
def triggerPassed (s : State) (t k : Nat) : Option Nat :=
  match s.tim.skip with
  | none => none
  | some (lo, hi) =>
    if !triggerReached s t k then none
    else ((firingOffsets s t k).map fun (o : Nat) => ((s.tb t).t0 + (o : Int)).toNat).find? fun a =>
      decide (lo < a) && decide (a < hi) && decide (hi ≤ s.now)

/-- Trigger compare `k` of timebase `t` fires with trigger tick `a`, once (R220). -/
def triggerFires (t k a : Nat) (s : State) : State :=
  if tblGet (s.tb t).fired none k = some a then s
  else fireTrigger (0x10 + 6 * t + k) a (s.updTb t fun b => { b with fired := tblSet b.fired none k (some a) })

/-- TRIGGER_COMPARE: a Hatch trigger compare fires: its sequences, captures and SSI transfers (R139, R220). One that a positive step
has carried the count past fires late, with the tick it should have had (R37). -/
def execTriggerCompare (tb k : Nat) (s : State) : Host.Outcome State Fault Refusal :=
  .next (
    if 4 ≤ tb ∨ 6 ≤ k then s
    else
      let s := match triggerPassed s tb k with
        | some a => triggerFires tb k a s
        | none => s
      if triggerNow s tb k then triggerFires tb k s.now s else s)

/-- SEQ_TRIGGER: the oldest trigger that has fired arrives at its sequence; an accepted one is a trigger of the roots that name
the sequence (R139, R142, R308). -/
def execSeqTrigger (n : Nat) (s : State) : Host.Outcome State Fault Refusal :=
  .next (
    if !convRun s ∨ 32 ≤ n then s
    else match (s.sequ n).due with
    | [] => s
    | x :: rest =>
      let free := (s.sequ n).run = none ∧ (s.sequ n).pend = none ∧ seqEnabled s n
      let s := seqTrigger n x (s.updSeq n fun q => { q with due := rest })
      if free then rootTriggers n x.1 s else s)

end Sys2Proof.Machine
end

