-- ==== Sys2Proof/Machine/Power.lean ====
section
/-!
DEFINITION. Start-up, sleep, wake and reset, SHUTDOWN entry, and the supply monitors (17_power_states.md, R434, R412).
-/
namespace Sys2Proof.Machine

/-- The state with unit 0x0F changed. -/
def updPwr (s : State) (f : Power → Power) : State := { s with pwr := f s.pwr }

/-- The refusal span ends (R128). -/
def endSpan (s : State) : State := { s with folio := { s.folio with span := none } }

/-! Resets (R474, R484 to R487, R499). -/

/-- A power-on reset begins: everything but MRAM, the lock of R453, the strap's levels and what is wired outside is lost
(R474, R485, R486). -/
def powerOn (code : Nat) (s : State) : State :=
  let mram (a : Nat) : Bool := decide (0x10000000 ≤ a) && decide (a < lpBase)
  { State.reset with
    part := s.part, safeLocked := s.safeLocked, nv := s.nv, free := s.free, pending := s.pending,
    tim := { td3 := s.tim.td3, td4 := s.tim.td4 },
    hatch := { tripIn := s.hatch.tripIn / 2 ^ 24 * 2 ^ 24 }, conv := { ain := s.conv.ain },
    mem := { cells := s.mem.cells.filter fun c => mram c.1, marks := s.mem.marks.filter fun e => mram (8 * e.1),
             errs := s.mem.errs.filter fun e => mram (8 * e.1) },
    marg := { sideB := s.marg.sideB, peerOwn := s.marg.peerOwn },
    burn := { slots := s.burn.slots, rows := s.burn.rows },
    pwr := { resetCode := code } }

/-- A system reset begins: units are cleared as after power-on but for the Sketchbook and what R499 keeps, and the boot ROM
starts (R485). -/
def systemReset (code : Nat) (s : State) : State :=
  let s := reset08 (folioReset (reset0F (reset0E (reset0C (marginReset (reset0A s))))))
  let s := reset09 (reset07 (reset06 (reset05 (reset04 (reset03 (reset02 s))))))
  let s := stopPll (reset00 s)
  let s := updBurn s fun b => { b with sram := none }
  let s := updPwr s fun p => { p with resetting := none, resetCode := code, bootStep := 1, supplyBad := [] }
  settlePairs { s with op := .boot, folio := { s.folio with inReset := false } }

/-- A warm reset begins: the PLLs, global time, memory, the Sketchbook and the thermal unit go on (R485). Armed capture
buffers miss what the converters would have recorded. -/
def warmReset (s : State) : State :=
  let old := opCode s.op
  let s := reset08 (folioReset (reset0F (reset0C (marginReset s))))
  let s := reset09 (reset07 (reset06 (reset05 (reset04 (reset03 s)))))
  let s := reset00 s
  let s := forUpTo 4 (fun b s => if (s.cap b).armed then s.updCap b fun c => { c with gap := true } else s) s
  settlePairs (updPwr s fun p => { p with resetting := some .warm, resetCode := 4, oldOp := old, bootStep := 5 })

/-- Whether a reset of kind rank `n` takes over what is in progress (R487). -/
def resetRank (k : ResetKind) : Nat := match k with
  | .pair => 0 | .warm => 1 | .system => 2 | .powerOn => 3

/-- Whether a reset of kind `k` is taken now: a reset in progress gives way to a higher kind only. -/
def resetTaken (s : State) (k : ResetKind) : Bool :=
  match s.pwr.resetting with
  | some o => decide (resetRank o < resetRank k)
  | none => true

/-- POWER_ON_RESET: a supply ramp, or a brown-out (R474). -/
def execPowerOnReset (brownOut : Bool) (s : State) : Host.Outcome State Fault Refusal :=
  .next (if resetTaken s .powerOn then powerOn (b2n brownOut) s else s)

/-- RST_N_RESET: RST_N has been low for 32 TD0 cycles (R484). -/
def execRstNReset (s : State) : Host.Outcome State Fault Refusal :=
  .next (if resetTaken s .system then systemReset 2 s else s)

/-- POR_RELEASE: 1 ms after the supplies have risen, MG_SIDE is sampled and the boot ROM starts (R402, R474). -/
def execPorRelease (sideB : Bool) (s : State) : Host.Outcome State Fault Refusal :=
  .next (
    if s.pwr.resetting ≠ some .powerOn then s
    else
      let s := updPwr s fun p => { p with resetting := none, bootStep := 1 }
      { s with folio := { s.folio with inReset := false }, marg := { s.marg with sideB := sideB } })

/-- A RESET whose reply has been launched begins (R128). -/
def resetAfterReply (tag : Nat) (s : State) : State :=
  match s.pwr.resetDue with
  | some (t, k) =>
    if t ≠ tag then s
    else
      let s := endSpan (updPwr s fun p => { p with resetDue := none })
      if k = 0 then warmReset s else systemReset 3 s
  | none => s

/-! Boot (R476 to R479). -/

/-- The slot that the boot ROM takes: the marked one, or the other one as fallback (11_plate_pair.md, Firmware image and
update). -/
def bootChoice (s : State) : Option (Nat × Bool) :=
  let m := (nvGet s 8 0x102).toNat % 2
  if slotValid s m then some (m, false) else if slotValid s (1 - m) then some (1 - m, true) else none

/-- The chosen image is loaded; SEC_COUNTER rises to its SEC_VERSION (R348, R393). Without a slot that verifies the image
of the JTAG loader runs. -/
def bootImage (s : State) : State :=
  match bootChoice s with
  | none => s
  | some (n, fb) =>
    let s := updPlate (loadImage n s) fun p => { p with bootSlot := n, fallback := fb, version := nvGet s 8 (9 + n) }
    if (nvGet s 8 0x103).toNat < (nvGet s 8 (0x104 + n)).toNat then
      (if mramOpen s then nvSet s 8 0x103 (nvGet s 8 (0x104 + n)) else mramRefuse s)
    else s

/-- The start-up pass of every ring that expects nodes, on a single device or side A (R479). -/
def startEnumeration (s : State) : State :=
  if s.marg.sideB then s
  else forUpTo (ringCount s.part) (fun r s =>
    let n := (nvGet s 15 (0x100 + r)).toNat
    if n = 0 ∨ 256 < n then s else startPass r n none false true s) s

/-- The firmware starts: RESET_CAUSE is written, and the supply faults that BOOT held are raised (R475, R484). -/
def firmwareStart (s : State) : State :=
  let code := s.pwr.resetCode
  let bad := s.pwr.supplyBad
  let s := updPlate s fun p => { p with mode := .lockstep, wdTick := s.now }
  let s := updPwr s fun p => { p with bootStep := 6, lastReset := code, supplyBad := [] }
  forEach bad (fun x s => supplyFault x.1 x.2 s) (record s 0x0F02 code [])

/-- The last boot step ends: STANDBY, or SAFE with SAFE_LOCKED; READY and STATE_CHANGE (R476, R485). -/
def reachStandby (old us : Nat) (s : State) : State :=
  let op : OpState := if s.safeLocked then .safe else .standby
  let s := updPwr s fun p => { p with resetting := none, bootStep := 0, bootTime := us % 2 ^ 32 }
  let s := updBurn s fun b =>
    { slots := b.slots, rows := b.rows, spares := b.spares, lastStart := b.lastStart, sram := b.sram }
  let s := { s with op := op, folio := { s.folio with inReset := false, hostBase := s.now } }
  let s := record (setAttn (bootCalibrate s) 0) 0x0001 0 [wrd old, wrd (opCode op)]
  settlePairs (gapsFrom (if op = .standby then startEnumeration s else s))

/-- The boot ROM reads the marked slot, and the other one when the first does not verify. -/
def readSlots (s : State) : State :=
  let m := (nvGet s 8 0x102).toNat % 2
  let s := readSlot m s
  if slotValid s m then s else readSlot (1 - m) s

/-- Whether a slot verifies. -/
def slotFound (s : State) : Bool := slotValid s 0 || slotValid s 1

/-- The step that a warm or cold start stands at is done and the next one begins (*Boot steps*, R478, R485). -/
def bootNext (us : Nat) (s : State) : State :=
  let go (n : Nat) (s : State) : State := updPwr s fun p => { p with bootStep := n }
  match s.pwr.bootStep with
  | 1 => if s.tim.xinOk then go 2 s else s
  | 2 => if s.tim.xinOk then
      go 3 (updTim s fun t => { t with td1 := true, td2 := pllPresent s 2, td5 := pllPresent s 5, timeValid := true })
    else s
  | 3 =>
    let s := updBurn s fun b => { b with spares := b.rows.map fun e => (e.1, e.2.length) }
    go 4 (chooseStart (zeroFill (decide (2 ≤ s.pwr.resetCode)) s))
  | 4 => if s.burn.todo = [] then go 5 s else s
  | 5 =>
    let s := readSlots s
    if slotFound s then firmwareStart (bootImage s) else s
  | 6 => if s.op = .boot then reachStandby 0 us s else s
  | _ => s

/-- BOOT_ADVANCE: the present boot step is done and the next one begins (*Boot steps*, R478). A supply fault of this boot holds it
at its present step until every supply lies within its window (`supplied`, R475). A warm reset runs steps 5 and 6; WARM_RESET_END
ends its last. -/
def execBootAdvance (us : Nat) (supplied : Bool) (s : State) : Host.Outcome State Fault Refusal :=
  .next (
    if s.op = .boot ∧ s.pwr.supplyBad ≠ [] ∧ !supplied then s
    else if (s.op = .boot ∧ s.pwr.resetting = none) ∨ s.pwr.resetting = some .warm then bootNext us s else s)

/-- JTAG_LOADER: with no slot that verifies, the loader starts an image after unlock (R478). -/
def execJtagLoader (version : Word) (s : State) : Host.Outcome State Fault Refusal :=
  .next (
    if bootStuck s ∧ debugOn s then firmwareStart (updPlate s fun p => { p with version := version })
    else s)

/-- WARM_RESET_END: the last boot step is done (R485). -/
def execWarmResetEnd (us : Nat) (s : State) : Host.Outcome State Fault Refusal :=
  .next (
    if s.pwr.resetting ≠ some .warm ∨ s.pwr.bootStep ≠ 6 then s
    else reachStandby s.pwr.oldOp us s)

/-! SHUTDOWN, RESET and SLEEP as commands (R128, R412, R434). -/

/-- Whether a stop sequence or a discharge runs. -/
def stopsRun (s : State) : Bool := drivesWith s (fun v => v.dst = .stopping || v.discharging) ≠ []

/-- Every context stops without CTX_STOPPED, its fallback values at its destinations (R296, R317). A CTX_DISABLE that waits
completes, since its contexts have stopped (DESIGN CHOICE, log 70). -/
def stopContexts (s : State) : State :=
  let s := forEach (below 256 fun n => ctxAdmitted (s.ctx n)) (fun n s => writeDests n (fbSlots (s.ctx n)) s.now true s) s
  let waits := s.grav.waits
  let s := { s with grav := { s.grav with ctxs := [], lanes := [], laneUtil := [], waits := [] } }
  forEach waits (fun w s => completeTag w.1 stOk [] s) s

/-- Entry to SHUTDOWN, from step 3 of R434: contexts stop, the pins are held, the reply is sent, and the controller opens its
record and starts unit 0. -/
def enterShutdown (tag : Nat) (s : State) : State :=
  let s := stopContexts s
  let s := forUpTo 12 (fun p s => periodPair s p) (setOp s .shutdown)
  let s := endSpan (completeTag tag stOk [] s)
  startRun 0 false (presentUnits s) s

/-- What waits for LEAVE goes on once it is acknowledged or has waited long enough (R412). -/
def leaveDone (s : State) : State :=
  if !leaveOver s then s
  else match s.pwr.shutTag with
  | some t =>
    enterShutdown t (updPwr (updMarg s fun m => { m with leaving := false }) fun p => { p with shutTag := none })
  | none => match s.pwr.resetDue with
    | some (t, _) => completeTag t stOk [] (updMarg s fun m => { m with leaving := false })
    | none => s

/-- SHUTDOWN (R128, R434): a split pair joins first. -/
def bodyShutdown (tag : Nat) (_ws : List Word) (s : State) : CmdRes :=
  checked s [(stopsRun s, stStopping)]
    (let s := updPwr s fun p => { p with shutTag := some tag }
     if splitMode s.plate.mode then .wait (joinStart s) else .wait (leaveDone (leaveStart s)))

/-- RESET (R128, R485). -/
def bodyReset (tag : Nat) (ws : List Word) (s : State) : CmdRes :=
  checked s [(hasBits (pw ws 0) 0xFFFFFFFC || decide (2 ≤ field (pw ws 0) 1 0), stBadParam)]
    (.wait (leaveDone (leaveStart (updPwr s fun p => { p with resetDue := some (tag, field (pw ws 0) 1 0) }))))

/-- SLEEP (R128): a split pair joins first, and sleep is entered once every reply and every queued event has been sent. -/
def bodySleep (tag : Nat) (_ws : List Word) (s : State) : CmdRes :=
  checked s [(stopsRun s, stStopping)]
    (if splitMode s.plate.mode then .wait (updPwr (joinStart s) fun p => { p with sleepTag := some tag })
     else .done stOk [] (updPwr s fun p => { p with sleepDue := true }))

/-- A SLEEP or SHUTDOWN that waited for the join goes on (R343). -/
def afterJoin (s : State) : State :=
  let s := match s.pwr.sleepTag with
    | some t => completeTag t stOk [] (updPwr s fun p => { p with sleepTag := none, sleepDue := true })
    | none => s
  if s.pwr.shutTag ≠ none ∧ !s.marg.leaving then leaveDone (leaveStart s) else s

/-! Sleep (R481). -/

/-- Whether every reply and every queued event has been sent (R128). -/
def laneEmpty (s : State) : Bool :=
  decide (s.folio.tags = []) && decide (s.folio.replies = []) && decide (s.folio.events = []) && s.folio.onLane.isNone &&
    decide (s.book.inq = []) && decide (s.folio.lost = 0)

/-- Whether no sequence runs or waits for its trigger to arrive, and no context is ready or running (R481). -/
def sequencesQuiet (s : State) : Bool :=
  (List.range 32).all (fun n => (s.sequ n).due.isEmpty && (s.sequ n).pend.isNone && (s.sequ n).run.isNone) &&
    (List.range 16).all (fun l => (s.slice l).conv.isNone && (s.slice l).urgent.isNone) &&
    decide (s.grav.lanes = []) && (List.range 256).all fun c => match (s.ctx c).inst with
      | some i => i.phase ≠ .ready && i.phase ≠ .running
      | none => true

/-- Sleep entry, steps 2 and 3: pairs at layer 2, timebases stopped; WAKE_CFG is taken and the refusal span ends. -/
def sleepBegin (s : State) : State :=
  let s := updMarg (endSpan s) fun m => { m with leaving := false }
  let s := updPwr s fun p => { p with sleep := .leaving, sleepDue := false, wakeCfg := parGet s 15 1 }
  settlePairs (forUpTo 4 stopTimebase s)

/-- What stops with TD1, TD2 and TD5: rings and the clock domains. The deadline actions of contexts whose values stand written
wait for the count to go on (R37, R296). -/
def stopDomains (s : State) : State :=
  { s with
    stip := { s.stip with rings := s.stip.rings.map fun e => (e.1, { e.2 with
      linkUp := false, iPrev := none, req := none, next := none, pass := none,
      st := if e.2.st = .enumerating then .failed else if e.2.st = .link then .down else e.2.st }) },
    tim := { s.tim with td1 := false, td2 := false, td5 := false, starting := [], holdover := if s.tim.holdover = .ended then .ended else .none } }

/-- Sleep entry, steps 4 to 7: what stops with TD1, TD2 and TD5; both cores stop at one instruction (R325). -/
def sleepStop (s : State) : State :=
  let s := if s.marg.linkUp then linkDrop s else updMarg s fun m => { m with deskewed := false, peerSeen := false }
  let s := settlePairs (wcOff (stopDomains s))
  let s := forUpTo 4 (fun b s => if (s.cap b).armed then s.updCap b fun c => { c with gap := true } else s) s
  let s := updPlate s fun p => { p with retC := p.retP }
  updPwr s fun p => { p with sleep := .asleep }

/-- SLEEP_ENTRY: after SLEEP has completed and the lane is empty, LEAVE, then the steps of R481. A split that took effect since
is joined first (R343). -/
def execSleepEntry (s : State) : Host.Outcome State Fault Refusal :=
  .next (
    let s := if s.pwr.sleepDue ∧ s.plate.mode = .split then joinStart s else s
    let s := if s.pwr.sleepDue ∧ !splitMode s.plate.mode ∧ !s.marg.leaving ∧ laneEmpty s then leaveStart s else s
    let s := if s.pwr.sleepDue ∧ leaveOver s then sleepBegin s else s
    if s.pwr.sleep = .leaving ∧ sequencesQuiet s then sleepStop s else s)

/-! Wake (R482, R483). -/

/-- Whether wake source `n` is enabled and, where State shows it, its condition holds (*Wake sources*). -/
def wakeHolds (s : State) (n : Nat) : Bool :=
  let c := s.pwr.wakeCfg
  match n with
  | 1 => wbit c 31
  | 2 => wbit c 29 && s.so.enable
  | 3 => field c 19 0 ≠ 0
  | 4 => wbit c 28 && s.therm.thr ≠ 0
  | 5 => s.pwr.supplyBad ≠ []
  | _ => false

/-- The device wakes for source `n` after `td0` TD0 cycles; the lowest code of those that hold is kept. -/
def wake (n td0 : Nat) (s : State) : State :=
  if s.pwr.sleep ≠ .asleep ∨ !wakeHolds s n then s
  else
    let src := if n = 1 then 1 else if wakeHolds s 2 then 2 else if n = 3 then 3 else if wakeHolds s 4 then 4 else n
    let s := updTim s fun t => { t with starting := [1, 2, 5].filter (pllPresent s) }
    updPwr s fun p => { p with sleep := .waking, lastWake := src, asleepTd0 := td0 % 2 ^ 32 }

/-- WAKE_CONDITION: the condition of a wake source holds (R482). -/
def execWakeCondition (src td0 : Nat) (s : State) : Host.Outcome State Fault Refusal :=
  .next (if src = 3 then s else wake src td0 s)

/-- SLEEP_TIMER_EXPIRY: SLEEP_TIMER ms of TD0 have passed since entry (R482). -/
def execSleepTimerExpiry (td0 : Nat) (s : State) : Host.Outcome State Fault Refusal :=
  .next (if 32000 * field s.pwr.wakeCfg 19 0 ≤ td0 then wake 3 td0 s else s)

/-- The events of the housekeeping round that sleep held, stamped at the first tick after lock (R471). -/
def writeHeld (s : State) : State :=
  let l := s.therm.held
  let ins (a : List Event) (e : Event) : List Event := evInsert a { e with time := s.pwr.lockTick, valid := s.tim.timeValid }
  let r (e : Event) (s : State) : State := applyReaction (reactionOf s e.code e.index) e.code e.index (recordEvent s e)
  forEach (l.foldl ins []) r (updTherm s fun t => { t with held := [] })

/-- What the converters and Graver restart at wake: the calibration step, and the timeout intervals (R171, R311). -/
def wakeUnits (s : State) : State :=
  let s := if s.conv.phase = .halted then s
    else if wbit (parGet s 3 0) 16 then beginStep s
    else updConv s fun c => { c with pairs := 0, sum := 0, phase := .idle }
  { s with
    grav := { s.grav with ctxs := s.grav.ctxs.map fun e =>
      (e.1, { e.2 with toStart := e.2.toStart.map fun _ => s.now }) } }

/-- WAKE_DONE: the device is in STANDBY, `td0` TD0 cycles after sleep entry; READY, WAKE and the held events; what restarts at wake
does (R171, R176, R296, R311, R483). WAKE_TIME counts TD0 cycles of 1/32 µs from the wake condition (DEDUCED, log 80). -/
def execWakeDone (td0 : Nat) (s : State) : Host.Outcome State Fault Refusal :=
  .next (
    if s.pwr.sleep ≠ .waking ∨ isAsleep s then s
    else
      let s := updPwr s fun p => { p with sleep := .awake, wakeTime := (td0 - p.asleepTd0) / 32 % 2 ^ 32 }
      let s := { s with folio := { s.folio with
        hostBase := s.now, lane := .resync, rate := parField s 1 0 2 0, rateCh := .none } }
      let s := updPlate s fun p => { p with wdTick := s.now, wakeCk := true }
      let s := forUpTo 12 restartSource s
      let s := gapsFrom (wakeUnits s)
      let s := record (setAttn s 0) 0x0F01 s.pwr.lastWake [wrd s.pwr.asleepTd0]
      writeHeld (settlePairs s))

/-! Supplies and parameters. -/

/-- SUPPLY_MONITOR_FAULT: a supply has been outside its window for 1 µs. In BOOT the event waits for the firmware,
and in sleep for a capture tick (R475, log 23). -/
def execSupplyMonitorFault (ch : Nat) (above : Bool) (s : State) : Host.Outcome State Fault Refusal :=
  .next (
    if ch = 0 ∨ 5 < ch ∨ (3 < ch ∧ !hasLp s.part) ∨ s.pwr.resetting = some .powerOn then s
    else
      let b := 2 ^ (ch - 1)
      let s := updPwr s fun p => if above then { p with highSeen := p.highSeen ||| b } else { p with lowSeen := p.lowSeen ||| b }
      if (s.op = .boot ∧ s.pwr.bootStep ≠ 6) ∨ isAsleep s then
        updPwr s fun p => { p with supplyBad := p.supplyBad ++ [(ch, above)] }
      else supplyFault ch above s)

/-- The check of a write to a parameter of unit 0x0F. -/
def check0F (i : Nat) (v : Word) : Nat := if 0x100 ≤ i ∧ i ≤ 0x10F ∧ 256 < v.toNat then stBadParam else stOk

/-- The write of a parameter of unit 0x0F lands; `v` of PWR_STATUS is the value whose W1C bits have been cleared. -/
def write0F (s : State) (i : Nat) (v : Word) : State :=
  if i = 0 then updPwr s fun p => { p with highSeen := field v 9 5, lowSeen := field v 4 0 }
  else if 0x100 ≤ i ∧ i ≤ 0x10F then nvSet s 15 i v
  else parSet s 15 i v

/-- The value of a parameter of unit 0x0F. -/
def read0F (s : State) (i : Nat) : Word :=
  if i = 0 then wrd (s.pwr.lastReset * 2 ^ 28 + s.pwr.lastWake * 2 ^ 24 + s.pwr.highSeen * 2 ^ 5 + s.pwr.lowSeen)
  else if i = 2 then wrd s.pwr.bootTime
  else if i = 3 then wrd s.pwr.wakeTime
  else if 0x100 ≤ i ∧ i ≤ 0x10F then nvGet s 15 i
  else parGet s 15 i

end Sys2Proof.Machine
end

