-- ==== Sys2Proof/Machine/Margin.lean ====
section
/-!
DEFINITION. The rows of the Margin link: bringing it up, cells sent and received, heartbeats and alignment, mirroring,
mailboxes, locks and the hand-over (14_margin_pair.md, R48 to R51).
-/
namespace Sys2Proof.Machine

/-! The link (R405, R409). -/

/-- Whether the Margin unit works: TD1 runs and no reset or sleep holds it. -/
def marginRuns (s : State) : Bool :=
  s.tim.td1 && s.pwr.sleep ≠ .asleep && s.pwr.resetting ≠ some .powerOn && s.pwr.resetting ≠ some .warm

/-- MARGIN_LANE_DESKEW: the four receive lanes hold symbol lock and have been deskewed (R405). -/
def execMarginLaneDeskew (s : State) : Host.Outcome State Fault Refusal :=
  .next (if marginRuns s ∧ !s.marg.linkUp then updMarg s fun m => { m with deskewed := true, linkTick := none } else s)

/-- The payload of a LINK cell (*LINK payload*). -/
def linkPayload (s : State) : List Word :=
  [wrd (b2n s.marg.peerSeen * 2 + b2n s.marg.sideB), presence s.part, 1, 0, 0, 0, 0, 0]

/-- TYPE of a cell (*Cell types*). -/
def cellTypeCode (t : CellType) : Nat := match t with
  | .heartbeat => 1 | .status => 2 | .tbPhase => 3 | .mirror => 4 | .ringFrame => 5 | .mailbox => 6 | .mbxFree => 7
  | .doorbell => 8 | .lock => 9 | .lockReply => 0xA | .handover => 0xB | .ack => 0xC | .link => 0xD

/-- The 44 bytes of a cell: /S/, its fields and its payload, and the CRC over bytes 1 to 39 (*Margin cell*). -/
def cellBytes (c : Cell) : List Nat :=
  let body := cellTypeCode c.ctype :: leBytes 2 c.seq ++ leBytes 2 c.ack ++ leBytes 2 c.sub ++ payloadBytes c.payload
  0xFB :: body ++ leBytes 4 (crc32 body)

/-- Byte `k` of a cell travels on lane `k` modulo 4 (R404). -/
def cellLanes (b : List Nat) : List (List Nat) :=
  (List.range 4).map fun k => (List.range ((b.length + 3) / 4)).map fun j => b.getD (4 * j + k) 0

/-- A cell is put on the lanes, which it holds for 220 ns (R404). -/
def putCell (c : Cell) (s : State) : State :=
  updMarg s fun m => { m with wire := some c, wireLanes := cellLanes (cellBytes c), wireEnd := s.now + 88 }

/-- LINK_CELL_DUE: every 2 µs a side whose lanes are deskewed sends a LINK cell while the link is not up (R405). -/
def execLinkCellDue (s : State) : Host.Outcome State Fault Refusal :=
  .next (if marginRuns s ∧ s.marg.deskewed ∧ !s.marg.linkUp ∧ (s.marg.linkTick.all fun t => decide (t + 2 * usTicks ≤ s.now)) then
      putCell { ctype := .link, seq := 0, ack := 0, sub := 0, payload := linkPayload s }
        (updMarg s fun m => { m with linkTick := some s.now })
    else s)

/-- LINK_CELL_RECEIVED: a good LINK cell of the partner (R405). -/
def execLinkCellReceived (sideB : Bool) (pres : Word) (s : State) : Host.Outcome State Fault Refusal :=
  .next (if marginRuns s ∧ s.marg.deskewed ∧ !s.marg.linkUp then
      updMarg s fun m => { m with peerSeen := true, peerSide := sideB, peerPresence := pres }
    else s)

/-- MARGIN_LINK_UP: a good LINK cell with PEER_SEEN = 1 has come. Equal sides keep the link down; unlike presence words
raise PRESENCE_MISMATCH (R405, R409). A standby may step at the next exchange (R50). -/
def execMarginLinkUp (sideB : Bool) (pres : Word) (s : State) : Host.Outcome State Fault Refusal :=
  .next (
    if !marginRuns s ∨ !s.marg.deskewed ∨ s.marg.linkUp then s
    else
      let s := updMarg s fun m => { m with peerSeen := true, peerSide := sideB, peerPresence := pres, sideConflict := sideB = m.sideB }
      if s.marg.sideConflict then s
      else
        let bad := decide (pres ≠ presence s.part)
        let s := parSet s 11 4 pres
        let s := updMarg s fun m => { m with
          linkUp := true, txSeq := 0, rxSeq := 0, unacked := [], resend := [], rxTick := some s.now, statusTick := none, hbSeen := false, outSent := [], credit := 0, mirrorPos := 0,
          mirrorStart := s.now, mirrorTop := 0xFF, mirrorOk := false, partnerRole := 0, partnerElig := 0xFF, presMismatch := bad,
          resends := 0, crcRun := 0 }
        let s := if s.marg.role = 2 then updTim s fun t => { t with stepDue := true } else s
        if bad then raise s 0x0B06 0 [pres] else s)

/-- MARGIN_LINK_LOSS: cause 0 loss of lock on a lane, 1 eight cells in a row that fail their CRC, 2 loss of TD4, 3 a cell
resent 16 times (R405). -/
def execMarginLinkLoss (cause : Nat) (s : State) : Host.Outcome State Fault Refusal :=
  .next (
    if 3 < cause ∨ (cause = 1 ∧ s.marg.crcRun < 8) ∨ (cause = 3 ∧ s.marg.resends < 16) then s
    else
      let s := if cause = 2 then updTim s fun t => { t with td4 := false } else s
      linkDown (updMarg s fun m => { m with deskewed := false, peerSeen := false }))

/-! Sending (R406, R407). -/

/-- The place of a cell type in the order of R407. -/
def cellRank (t : CellType) : Nat := match t with
  | .heartbeat => 0 | .handover => 1 | .ringFrame => 2 | .lock => 3 | .lockReply => 3 | .status => 4 | .tbPhase => 4
  | .mailbox => 5 | .mbxFree => 6 | .doorbell => 6 | .mirror => 7 | .ack => 8 | .link => 9

/-- Whether cells of a type are sequenced (*Cell types*). -/
def cellSequenced (t : CellType) : Bool := t ≠ .heartbeat && t ≠ .ack && t ≠ .link

/-- The lowest outbound slot that is full, not yet sent, and has a credit (R425). -/
def slotReady (s : State) : Option Nat :=
  (List.range 16).find? fun n => slotFull s n && s.marg.credit.testBit n && !tblGet s.marg.outSent false n

/-- The rings whose directory the active device mirrors: present with RESULT = OK (R415). -/
def mirrorRings (s : State) : List Nat := below (ringCount s.part) fun r => (s.ring r).result = 0

/-- The MIRROR cell at a position of the pass: 128 cells of two entries for each ring, then a VBAR cell for each (R415). Each word of
the directory is read, and its bite mark goes with it (R381, R383). -/
def mirrorCell (s : State) (pos : Nat) : Cell × State :=
  let rs := mirrorRings s
  if pos < 128 * rs.length then
    (let d := 256 * rs.getD (pos / 128) 0 + 2 * (pos % 128)
     let places := [(d, 0), (d, 3), (d, 4), (d, 5), (d + 1, 0), (d + 1, 3), (d + 1, 4), (d + 1, 5)]
     let s := readCells (places.map fun x => dirAddr x.1 x.2) s
     let marked (k : Nat) : Bool := markAt s (dirAddr (places.getD k (0, 0)).1 (places.getD k (0, 0)).2) = .bite
     ({ ctype := .mirror, seq := 0, ack := 0, sub := d, payload := places.map (fun x => (entryWords s x.1).getD x.2 0),
        marks := maskOf (below 8 marked) }, s))
  else
    (let r := rs.getD (pos - 128 * rs.length) 0
     ({ ctype := .mirror, seq := 0, ack := 0, sub := 0x8000 + r, payload := [strPar s r 0x11, 0, 0, 0, 0, 0, 0, 0] }, s))

/-- The pass moves on; at its end MIRROR_LAP takes its duration in µs (R415). -/
def mirrorStep (s : State) : State :=
  if s.marg.mirrorPos + 1 < 129 * (mirrorRings s).length then updMarg s fun m => { m with mirrorPos := m.mirrorPos + 1 }
  else
    let s := parSet s 11 5 (wrd ((s.now - s.marg.mirrorStart) / usTicks))
    updMarg s fun m => { m with mirrorPos := 0, mirrorStart := s.now }

/-- The heartbeat payload as it is launched now (*Heartbeat payload*). -/
def heartbeatPayload (s : State) : List Word :=
  let m := s.marg
  twoWords s.now ++ twoWords m.hbPeer ++ twoWords m.hbArrive ++
    [wrd ((opCode s.op * 32 + m.role * 8) + maskOf (drivesWith s driveRuns) * 16 * 2 ^ 8 + eligibility s * 2 ^ 16 + m.hbNum % 256 * 2 ^ 24),
     wrd (emptyMap s)]

/-- The first cell of the least rank in a queue. -/
def bestCell (l : List Cell) : Option Cell :=
  l.foldl (fun a c => match a with
    | none => some c
    | some b => if cellRank c.ctype < cellRank b.ctype then some c else some b) none

/-- The queue without the first cell equal to `c`. -/
def dropCell (c : Cell) (l : List Cell) : List Cell := match l with
  | [] => []
  | h :: t => if h = c then t else h :: dropCell c t

/-- A cell leaves: a sequenced one takes the next SEQ and waits for its acknowledgement, and every cell carries the SEQ of the
last one received in order (*Margin cell*, R406). -/
def launchCell (c : Cell) (s : State) : State :=
  let c := { c with ack := (s.marg.rxSeq + 0xFFFF) % 0x10000 }
  if cellSequenced c.ctype then
    (let c := { c with seq := s.marg.txSeq }
     updMarg (putCell c s) fun m => { m with
       ackTick := if m.unacked = [] then s.now else m.ackTick, txSeq := (m.txSeq + 1) % 0x10000, unacked := m.unacked ++ [c] })
  else if c.ctype = .heartbeat then
    updMarg (putCell { c with payload := heartbeatPayload s } s) fun m => { m with hbNum := (m.hbNum + 1) % 256 }
  else putCell c s

/-- The oldest cell to be sent again leaves with its own SEQ (R406). -/
def resendCell (s : State) : State :=
  match s.marg.resend with
  | [] => s
  | c :: r =>
    let c := { c with ack := (s.marg.rxSeq + 0xFFFF) % 0x10000 }
    parCount (putCell c (updMarg s fun m => { m with resend := r })) 11 9 1

/-- CELL_SEND: the lanes are free and the first cell in the order of R407 leaves. At most 64 sequenced cells wait for their
acknowledgement, and none leaves while earlier ones are sent again (R406). -/
def execCellSend (s : State) : Host.Outcome State Fault Refusal :=
  .next (
    if !s.marg.linkUp ∨ !marginRuns s ∨ s.now < s.marg.wireEnd then s
    else
      let room := decide (s.marg.unacked.length < 64) && s.marg.resend == []
      let q := bestCell (s.marg.queue.filter fun c => room || !cellSequenced c.ctype)
      let fromQueue : State := match q with
        | some c => launchCell c (updMarg s fun m => { m with queue := dropCell c m.queue })
        | none => s
      let rank := match q with
        | some c => cellRank c.ctype
        | none => 10
      if s.marg.resend ≠ [] ∧ rank ≠ 0 then resendCell s
      else match (if room ∧ 5 < rank then slotReady s else none) with
      | some n =>
        launchCell { ctype := .mailbox, seq := 0, ack := 0, sub := n, payload := mailWords (tblGet s.marg.outbox [] n) }
          (updMarg s fun m => { m with outSent := tblSet m.outSent false n true, credit := putBit m.credit n false })
      | none =>
        if room ∧ 7 < rank ∧ s.marg.role = 1 ∧ mirrorRings s ≠ [] then
          (let c := mirrorCell s s.marg.mirrorPos
           mirrorStep (launchCell c.1 c.2))
        else fromQueue)

/-- CELL_RETRANSMIT: ACK has not advanced for 2 µs; the unacknowledged cells are to be sent again from the oldest (R406). -/
def execCellRetransmit (s : State) : Host.Outcome State Fault Refusal :=
  .next (
    if !s.marg.linkUp ∨ !marginRuns s ∨ s.marg.unacked = [] ∨ s.marg.resend ≠ [] ∨ s.now < s.marg.ackTick + 2 * usTicks then s
    else updMarg s fun m => { m with resends := m.resends + 1, resend := m.unacked, ackTick := s.now })

/-- ACK_DUE: 1 µs after the last cell received an ACK cell is due when there is nothing else to send (R406). -/
def execAckDue (s : State) : Host.Outcome State Fault Refusal :=
  .next (if s.marg.linkUp ∧ s.marg.queue = [] ∧ (s.marg.rxTick.any fun t => decide (t + usTicks ≤ s.now)) then
      queueCell (updMarg s fun m => { m with rxTick := none }) .ack 0 [0, 0, 0, 0, 0, 0, 0, 0]
    else s)

/-! Receiving (R406). -/

/-- Whether SEQ `q` is acknowledged by `a`. -/
def acked (a q : Nat) : Bool := decide ((a + 0x10000 - q) % 0x10000 < 0x8000)

/-- What the acknowledgement of a cell ends: a MAILBOX cell empties its slot, LEAVE has been seen (R412, R425). -/
def cellAcked (c : Cell) (s : State) : State :=
  if c.ctype = .mailbox then
    updMarg s fun m => { m with outbox := tblSet m.outbox [] c.sub [], outSent := tblSet m.outSent false c.sub false }
  else if c.ctype = .handover ∧ field (c.payload.getD 0 0) 7 0 = 6 then updMarg s fun m => { m with leaveAck := true }
  else s

/-- The ACK of a good cell. -/
def takeAck (a : Nat) (s : State) : State :=
  let l := s.marg.unacked.filter fun c => acked a c.seq
  if l = [] then s
  else
    let s := updMarg s fun m => { m with
      unacked := m.unacked.filter (fun c => !acked a c.seq), resend := m.resend.filter (fun c => !acked a c.seq), resends := 0,
      ackTick := s.now }
    leaveDone (forEach l cellAcked s)

/-- A good cell has come: it ends a run of CRC failures, and an ACK cell may follow it (R405, R406). -/
def noteCell (s : State) : State := updMarg s fun m => { m with crcRun := 0, rxTick := some s.now }

/-- A good sequenced cell: one whose SEQ is not the next expected is discarded (R406). -/
def takeCell (seq ack : Nat) (k : State → State) (s : State) : State :=
  if !s.marg.linkUp ∨ !marginRuns s then s
  else
    let s := noteCell s
    if seq ≠ s.marg.rxSeq then s
    else k (takeAck ack (updMarg s fun m => { m with rxSeq := (m.rxSeq + 1) % 0x10000 }))

/-- ACK_RECEIVED: a cell that carries nothing but its ACK. -/
def execAckReceived (ack : Nat) (s : State) : Host.Outcome State Fault Refusal :=
  .next (if !s.marg.linkUp ∨ !marginRuns s then s else takeAck ack (noteCell s))

/-- BAD_CELL_RECEIVED: a cell that fails its CRC, or one that is out of order (R406). -/
def execBadCellReceived (crcFail : Bool) (s : State) : Host.Outcome State Fault Refusal :=
  .next (if !s.marg.linkUp ∨ !marginRuns s then s
    else if crcFail then parCount (updMarg s fun m => { m with crcRun := m.crcRun + 1 }) 11 8 1
    else noteCell s)

/-! Alignment (R48 to R51). -/

/-- TIME_ALIGN_LOST (R49); far-end service ends (R424). -/
def alignLost (s : State) : State :=
  if !s.tim.aligned ∨ s.tim.master then s
  else forUpTo 16 farServiceEnd (raise (updTim s fun t => { t with aligned := false, alignBad := 0 }) 0x0204 0 [parGet s 2 7])

/-- An exchange is beyond ±2 ns or missing (R49). -/
def alignMiss (s : State) : State :=
  let s := updTim s fun t => { t with alignGood := 0, alignBad := t.alignBad + 1 }
  if 3 ≤ s.tim.alignBad then alignLost s else s

/-- Whether a step may be made: the follower drives no Hatch output through the selector and sends no ring frame (R50). -/
def mayStep (s : State) : Bool :=
  !s.so.ownN && decide ((below 16 fun r => (s.ring r).farAt ≠ none) = [])

/-- The first exchange after link up with an error of more than 8 ticks: the follower steps, or begins to slew (R50). The
step in ticks is the error with its sign changed, its fraction left to the steering. -/
def alignStep (err16 : Int) (s : State) : State :=
  let d := -(err16 / 16)
  let s := updTim s fun t => { t with stepDue := false }
  let args := twoWords (d % 2 ^ 64).toNat
  if mayStep s then
    let now := ((s.now : Int) + d).toNat
    let skip := if s.now < now then some (s.now, now) else s.tim.skip
    record (parOr { s with now := now, tim := { s.tim with skip := skip } } 2 2 0x40) 0x0205 0 args
  else record (updTim s fun t => { t with slew16 := -err16 }) 0x0205 0 args

/-- The follower's error in 1/16 tick, from the launch and the arrival of this heartbeat and of the last one the partner received: half
the difference of the two delays that they show (R48; the delays taken as equal, DEDUCED, log 34). -/
def exchangeError (s : State) (h : Heartbeat) : Int :=
  8 * (((s.now : Int) - h.launch) - ((h.echoArrive : Int) - h.echoLaunch))

/-- An exchange of a follower whose error is `err16` in 1/16 tick: ±2 ns are 12.8 of them (R48 to R50). The frequency correction
within ±250 ppm is a free value (DESIGN CHOICE, log 34). -/
def alignExchange (err16 : Int) (s : State) : State :=
  let s := parSet s 2 7 (wrdI err16)
  let s := parSet s 2 8 (wrdI (((Config.freeWord s.free).toNat % 50001 : Nat) - 25000))
  let s := { s with free := s.free + 1 }
  let s := if s.tim.stepDue then (if 128 < err16.natAbs then alignStep err16 s else updTim s fun t => { t with stepDue := false }) else s
  if err16.natAbs ≤ 12 then
    updTim s fun t => { t with alignBad := 0, alignGood := t.alignGood + 1, aligned := t.aligned || decide (15 ≤ t.alignGood) }
  else alignMiss s

/-! Heartbeats (R410, R411, R419). -/

/-- Whether the interval of 10 µs that ends at this tick holds no good heartbeat: one stamped at its start counts, one stamped at its
end belongs to the next (R60, R411). -/
def hbMissed (s : State) : Bool :=
  let inside (t : Nat) : Bool := decide (s.marg.hbTick ≤ t) && decide (t < s.now)
  !(s.marg.hbSeen && (inside s.marg.hbArrive || s.marg.hbPrev.any inside))

/-- HEARTBEAT_DUE: every 4,000 ticks; an interval without a good heartbeat is counted (R411). -/
def execHeartbeatDue (s : State) : Host.Outcome State Fault Refusal :=
  .next (
    if !marginRuns s ∨ s.now < s.marg.hbTick + 4000 then s
    else
      let missed := hbMissed s
      let s := updMarg s fun m => { m with hbTick := s.now }
      let s := if missed && (s.marg.linkUp || decide (s.marg.role ≠ 0)) then
          (let s := parCount s 11 7 1
           if s.tim.master then s else alignMiss s)
        else s
      if s.marg.linkUp then queueCell s .heartbeat 0 [] else s)

/-- The device becomes single because its partner has (R410). -/
def becomeSingle (s : State) : State :=
  let s := takeRole 0 s
  if drivesWith s driveRuns = [] then s else record s 0x0B03 0 []

/-- A good heartbeat (R410, R411, R416, R425). -/
def takeHeartbeat (h : Heartbeat) (s : State) : State :=
  let first := !s.marg.hbSeen
  let oldRole := s.marg.partnerRole
  let s := updMarg s fun m => { m with
    hbSeen := true, hbLost := false, hbPeer := h.launch,
    hbPrev := if m.hbSeen then some m.hbArrive else none, hbArrive := s.now, ownElig := eligibility s,
    partnerRole := h.role % 4, partnerRun := h.driveRun % 16, partnerOp := h.opState % 8, partnerElig := h.eligibility % 256,
    partnerEligible := h.eligibility % 256 = 0, peerLeft := false, credit := if first then h.emptyMap % 2 ^ 16 else m.credit }
  let s := if s.marg.role ≠ 0 ∧ h.role % 4 = 0 ∧ oldRole ≠ 0 then becomeSingle s else s
  if s.marg.role = 2 then (if first then s else alignExchange (exchangeError s h) s)
  else if s.marg.role = 1 then
    (let ok := !(h.eligibility % 256).testBit 6
     let s := updTim s fun t => { t with aligned := ok }
     if ok then s else forUpTo 16 farServiceEnd s)
  else s

/-- HEARTBEAT_RECEIVED: a good heartbeat arrives (R48, R411). -/
def execHeartbeatReceived (ack : Nat) (h : Heartbeat) (s : State) : Host.Outcome State Fault Refusal :=
  .next (if s.marg.linkUp ∧ marginRuns s then takeHeartbeat h (takeAck ack (noteCell s)) else s)

/-- HEARTBEAT_TIMEOUT: no good heartbeat in 30 µs; HEARTBEAT_LOST once per lapse, but not after LEAVE (R411, R412). -/
def execHeartbeatTimeout (s : State) : Host.Outcome State Fault Refusal :=
  .next (
    if !marginRuns s ∨ s.marg.role = 0 ∨ !s.marg.hbSeen ∨ s.marg.hbLost ∨ s.now < s.marg.hbArrive + 12000 ∨ s.marg.peerLeft then s
    else alignLost (raise (updMarg s fun m => { m with hbLost := true }) 0x0B01 0 []))

/-- The witness of R419: no /D/ at a far port in the last ring period of any string drive's ring, and MG_PEER_OWN_N released for
0.4 µs. -/
def takeoverWitness (s : State) : Bool :=
  !s.marg.peerOwn && decide (s.marg.peerOwnTick + 160 ≤ s.now) &&
    (drivesWith s isString).all fun d => (driveRings s d).all fun r => match tblGet s.marg.farD none r with
      | some t => decide (t + ringPeriod s r ≤ s.now)
      | none => true

/-- HEARTBEAT_TAKEOVER: after HEARTBEAT_LOST, the first tick at which the witness holds (R419). Eligibility is this device's own at
the last good heartbeat, LINK and ALIGN left aside (DEDUCED, log 35). -/
def execHeartbeatTakeover (s : State) : Host.Outcome State Fault Refusal :=
  .next (if marginRuns s ∧ s.marg.role = 2 ∧ s.marg.hbLost ∧ s.marg.partnerRun ≠ 0 ∧ s.marg.ownElig % 64 = 0 ∧ takeoverWitness s then
      takeOver 1 s
    else s)

/-! STATUS, TB_PHASE and MIRROR (R413, R415, R416). -/

/-- Words with PER of the four timebases packed in 3 bytes each. -/
def perBytes (s : State) : List Word := bytesWords ((List.range 4).flatMap fun t => leBytes 3 (tbPer s t))

/-- The tick of the next period start of timebase `t`; 0 when it is stopped. -/
def nextStart (s : State) (t : Nat) : Nat :=
  if (s.tb t).running then ((s.tb t).t0 + (tbLen s t : Int)).toNat else 0

/-- The payload of a STATUS cell. -/
def statusPayload (s : State) : List Word := presence s.part :: ((List.range 4).map fun d => (s.drive d).cfg) ++ perBytes s
/-- The payload of a TB_PHASE cell. -/
def phasePayload (s : State) : List Word := (List.range 4).flatMap fun t => twoWords (nextStart s t)

/-- STATUS_DUE: every 100 µs, and after a change of their content, a STATUS and a TB_PHASE cell (R413). -/
def execStatusDue (s : State) : Host.Outcome State Fault Refusal :=
  .next (
    let now := statusPayload s ++ phasePayload s
    if !s.marg.linkUp ∨ s.marg.role = 0 ∨ !marginRuns s ∨
        ((s.marg.statusTick.any fun t => decide (s.now < t + 100 * usTicks)) ∧ now = s.marg.statusSent) then s
    else
      let s := updMarg s fun m => { m with statusTick := some s.now, statusSent := now }
      queueCell (queueCell s .status 0 (statusPayload s)) .tbPhase 0 (phasePayload s))

/-- STATUS_RECEIVED: the configuration of the active device (R416). -/
def execStatusReceived (seq ack : Nat) (pres : Word) (cfgs pers : List Word) (s : State) : Host.Outcome State Fault Refusal :=
  .next (takeCell seq ack (fun s =>
    if s.marg.role = 2 ∧ pres = s.marg.peerPresence then
      updMarg s fun m => { m with lastStatus := (List.range 4).map (fun k => cfgs.getD k 0) ++ (List.range 4).map fun k => pers.getD k 0 }
    else s) s)

/-- TB_PHASE_RECEIVED: the standby ends its present period at the active's next period start (R413). -/
def execTbPhaseReceived (seq ack : Nat) (ticks : List Nat) (s : State) : Host.Outcome State Fault Refusal :=
  .next (takeCell seq ack (fun s =>
    if s.marg.role ≠ 2 then s
    else forUpTo 4 (fun t s =>
      let n := ticks.getD t 0
      let L := tbLen s t
      if n = 0 ∨ L = 0 ∨ !(s.tb t).running ∨ ((n : Int) - (s.tb t).t0) % (L : Int) = 0 then s
      else s.updTb t fun b => { b with t0 := (n : Int) - (L : Int) }) s) s)

/-- The words 0, 3, 4 and 5 of an entry are written into the standby's directory, marks with them (R383, R415). -/
def mirrorEntry (d marks : Nat) (ws : List Word) (s : State) : State :=
  let w (k : Nat) : Word := ws.getD k 0
  let s := s.updEntry d fun e => { e with
    excl := field (w 0) 3 0, status := field (w 0) 11 8, ledger := w 1, tlm := w 2, tlmTick := (w 3).toNat }
  forEach (below 4 fun k => marks.testBit k) (fun k s => setMark s (dirAddr d ([0, 3, 4, 5].getD k 0)) .bite) s

/-- MIRROR_RECEIVED: two entries, or VBAR of a ring. MIRROR_OK is set with the last VBAR cell of the first complete pass (R415). -/
def execMirrorReceived (seq ack sub : Nat) (ws : List Word) (marks : Nat) (s : State) : Host.Outcome State Fault Refusal :=
  .next (takeCell seq ack (fun s =>
    if s.marg.role ≠ 2 then s
    else if sub < 0x8000 then
      (if 4096 ≤ sub + 1 then s
       else updMarg (mirrorEntry (sub + 1) (marks / 16) (ws.drop 4) (mirrorEntry sub (marks % 16) ws s)) fun m => { m with mirrorTop := sub / 256 })
    else
      let r := sub - 0x8000
      if 16 ≤ r then s
      else
        let s := parSet s 6 (0x200 + 32 * r + 0x11) (ws.getD 0 0)
        if r ≠ s.marg.mirrorTop then s
        else
          let s := parSet s 11 5 (wrd ((s.now - s.marg.mirrorStart) / usTicks))
          updMarg s fun m => { m with mirrorOk := true, mirrorStart := s.now }) s)

/-! Far-end content (R423). -/

/-- A down frame from bytes 1 to 42 + S of its content (*Down frame*, R423). -/
def contentFrame (n : Nat) (b : List Nat) : DownFrame :=
  let g (k : Nat) : Nat := b.getD k 0
  let num (o k : Nat) : Nat := leNat ((b.drop o).take k)
  let e := num (18 + stateBytes n) 8
  let ft : FType := match g 3 with
    | 1 => .normal | 2 => .repeated | 3 => .safe | 4 => .idle | _ => .enum
  { ftype := ft, seq := 0, tlmKind := g 0 / 64, group := g 0 % 64, send := 0, apply := num 10 8,
    states := (byteNibbles ((b.drop 18).take (stateBytes n))).take n,
    mod := if g 4 = 0 then none else some (e / 2 ^ 56, e / 2 ^ 52 % 16, e % 2 ^ 24, e / 2 ^ 24 % 2 ^ 24),
    duty := 0, mgmt := none, enumData := [] }

/-- RING_FRAME_RECEIVED: a fragment of a frame's content. On a standby the first one starts far-end service at the next period, and
with the last one the frame is ready to be sent from this end (R270, R423); on an active device the last one brings the status and
telemetry of the far side. -/
def execRingFrameReceived (seq ack r frag : Nat) (ws : List Word) (s : State) : Host.Outcome State Fault Refusal :=
  .next (takeCell seq ack (fun s =>
    if !ringPresent s r ∨ 16 ≤ frag then s
    else if s.marg.role = 1 ∧ (s.ring r).farAt ≠ none then
      (let S := stateBytes (ringNodes s r)
       let need := (134 + S + 31) / 32
       let s := s.updRing r fun g => { g with frags := tblSet g.frags [] frag (mailWords ws) }
       if ((List.range need).all fun k => tblGet (s.ring r).frags [] k ≠ []) then
         (let b := payloadBytes ((List.range need).flatMap fun k => tblGet (s.ring r).frags [] k)
          takeFarReturn r (readReturn S 0 true b) (s.updRing r fun g => { g with frags := [] }))
       else s)
    else if s.marg.role ≠ 2 then s
    else
      let n := ringNodes s r
      let need := (42 + stateBytes n + 31) / 32
      let s := s.updRing r fun g => { g with
        farDue := g.farDue || g.farAt.isNone, frags := tblSet g.frags [] frag (mailWords ws) }
      let s := match ringTimebase s r with
        | some t => if periodNow s t then farServe t s else s
        | none => s
      if ((List.range need).all fun k => tblGet (s.ring r).frags [] k ≠ []) then
        (let b := payloadBytes ((List.range need).flatMap fun k => tblGet (s.ring r).frags [] k)
         s.updRing r fun g => { g with frags := [], next := some (contentFrame n b) })
      else s) s)

/-! Messages and locks (R425, R427, R431). -/

/-- MAILBOX_RECEIVED: the message is delivered; MBX_ARRIVED but for the request mailboxes 12 and 13 (R425, R426). -/
def execMailboxReceived (seq ack n : Nat) (msg : List Word) (s : State) : Host.Outcome State Fault Refusal :=
  .next (takeCell seq ack (fun s =>
    if 16 ≤ n ∨ (inMessage s n).isSome then s
    else
      let s := updMarg s fun m => { m with inbox := tblSet m.inbox none n (some (mailWords msg, false)) }
      if n = 12 ∨ n = 13 then s else record s 0x0B04 n []) s)

/-- MBX_FREE_RECEIVED: a credit for mailbox `n` (R425). -/
def execMbxFreeReceived (seq ack n : Nat) (s : State) : Host.Outcome State Fault Refusal :=
  .next (takeCell seq ack (fun s => if 16 ≤ n then s else updMarg s fun m => { m with credit := putBit m.credit n true }) s)

/-- DOORBELL_RECEIVED: the bits are ORed into the inbound doorbells, and DOORBELL_RUNG is raised (R427). -/
def execDoorbellReceived (seq ack : Nat) (bits : Word) (s : State) : Host.Outcome State Fault Refusal :=
  .next (takeCell seq ack (fun s => record (updMarg s fun m => { m with doorbell := m.doorbell ||| bits }) 0x0B05 0 [bits]) s)

/-- LOCK_RECEIVED: a request of side B reaches side A and is answered (R430, R431). -/
def execLockReceived (seq ack lock : Nat) (acquire host : Bool) (tag : Nat) (s : State) : Host.Outcome State Fault Refusal :=
  .next (takeCell seq ack (fun s =>
    if s.marg.sideB ∨ 32 ≤ lock then s
    else
      let x := lockServe lock (if host then .hostB else .plateB) acquire true s
      queueCell x.2 .lockReply lock [wrd (x.1 + tag % 256 * 2 ^ 16), 0, 0, 0, 0, 0, 0, 0]) s)

/-- LOCK_REPLY_RECEIVED: the answer to a lock command of this device (R123, R124, R430). -/
def execLockReplyReceived (seq ack lock owner tag : Nat) (s : State) : Host.Outcome State Fault Refusal :=
  .next (takeCell seq ack (fun s =>
    if 32 ≤ lock ∨ 5 ≤ owner then s
    else match s.marg.lockWait.find? fun w => w.1 = tag with
    | none => s
    | some w =>
      let s := updMarg s fun m => { m with lockWait := m.lockWait.filter fun x => x.1 ≠ tag }
      if w.2.2 then completeTag w.2.1 (if owner = 0 then stOk else stDenied) [] s
      else completeTag w.2.1 stOk [wrd owner] s) s)

/-! Hand-over (R417 to R420). -/

/-- hd of a drive: the first period start at or after th, for a direct drive 1.0 µs later (R418). -/
def setHd (th : Nat) (ds : List Nat) (s : State) : State :=
  forEach ds (fun d s => s.updDrive d fun v => { v with hd := some (if v.arch = .direct then th + 400 else th) }) s

/-- HANDOVER_OFFER_RECEIVED: an eligible standby accepts, any other device declines (R418). -/
def execHandoverOfferReceived (seq ack th : Nat) (s : State) : Host.Outcome State Fault Refusal :=
  .next (takeCell seq ack (fun s =>
    if eligibility s = 0 then
      queueCell (setHd th (takenDrives s) (updMarg s fun m => { m with ho := .accepted, hoTh := th })) .handover 0 (handoverPayload 2 th)
    else queueCell s .handover 0 (handoverPayload 3 th)) s)

/-- HANDOVER_ACCEPT_RECEIVED: in time, the hand-over goes on (R418). -/
def execHandoverAcceptReceived (seq ack : Nat) (s : State) : Host.Outcome State Fault Refusal :=
  .next (takeCell seq ack (fun s =>
    if s.marg.ho ≠ .offered ∨ s.marg.hoTh < s.now + 2000 then s
    else setHd s.marg.hoTh (drivesWith s fun v => v.dst = .run) (updMarg s fun m => { m with ho := .accepted })) s)

/-- HANDOVER_DECLINE_RECEIVED: nothing changes and HANDOVER completes with STATE (R418). -/
def execHandoverDeclineReceived (seq ack : Nat) (s : State) : Host.Outcome State Fault Refusal :=
  .next (takeCell seq ack (fun s =>
    if s.marg.ho = .offered then hoComplete stState (updMarg s fun m => { m with ho := .none }) else s) s)

/-- HANDOVER_ACCEPT_TIMEOUT: ACCEPT has not arrived by th − 5 µs (R418). -/
def execHandoverAcceptTimeout (s : State) : Host.Outcome State Fault Refusal :=
  .next (if s.marg.ho = .offered ∧ s.marg.hoTh ≤ s.now + 2000 then
      hoComplete stState (updMarg s fun m => { m with ho := .none })
    else s)

/-- HANDOVER_INSTANT: th has come, and hd for a drive whose timebase is stopped or starts a period at this tick (R211, R418). -/
def execHandoverInstant (s : State) : Host.Outcome State Fault Refusal :=
  .next (
    let s := hoInstant s
    if (below 4 fun d => (s.drive d).hd ≠ none && periodNow s (driveTb (s.drive d))) = [] then s
    else settlePairs (forUpTo 4 (fun d s =>
      if (s.drive d).hd ≠ none ∧ periodNow s (driveTb (s.drive d)) then handDrive d s else s) s))

/-- HANDOVER_TAKE_RECEIVED: the standby takes over at this tick (R417, R420). -/
def execHandoverTakeReceived (seq ack _th : Nat) (s : State) : Host.Outcome State Fault Refusal :=
  .next (takeCell seq ack (fun s => if s.marg.role = 2 then takeOver 0 s else s) s)

/-- HANDOVER_TAKEN_RECEIVED: the partner has taken over; HANDOVER completes with OK, and after R417 the old active becomes the
standby (R420, R421). -/
def execHandoverTakenReceived (seq ack : Nat) (s : State) : Host.Outcome State Fault Refusal :=
  .next (takeCell seq ack (fun s =>
    let s := if s.marg.ho = .taking then ringsFresh (becomeStandby s) else s
    hoComplete stOk s) s)

/-- HANDOVER_LEAVE_RECEIVED: the partner leaves on purpose (R412). -/
def execHandoverLeaveReceived (seq ack : Nat) (s : State) : Host.Outcome State Fault Refusal :=
  .next (takeCell seq ack (fun s => updMarg s fun m => { m with peerLeft := true }) s)

/-- LEAVE_ACK_TIMEOUT: LEAVE has waited 2 µs (R412). -/
def execLeaveAckTimeout (s : State) : Host.Outcome State Fault Refusal :=
  .next (if s.marg.leaving ∧ s.marg.leaveTick + 2 * usTicks ≤ s.now then leaveDone (updMarg s fun m => { m with leaveAck := true }) else s)

/-- OWN_N_CLAIM: MG_PEER_OWN_N has read released for 0.4 µs and the new active device asserts OWN_N; layer 4 opens to its direct
pairs 1.0 µs later (R420). -/
def execOwnNClaim (s : State) : Host.Outcome State Fault Refusal :=
  .next (
    if !s.marg.ownDue ∨ s.marg.role ≠ 1 ∨ s.marg.peerOwn ∨ s.now < s.marg.peerOwnTick + 160 then s
    else
      let s := { updMarg s fun m => { m with ownDue := false } with so := { s.so with ownN := true } }
      forUpTo 4 (fun d s => s.updDrive d fun v => { v with l4From := v.l4From.map fun _ => s.now + 400 }) s)

/-- PEER_OWN_CHANGE: MG_PEER_OWN_N changes its level (R403). -/
def execPeerOwnChange (asserted : Bool) (s : State) : Host.Outcome State Fault Refusal :=
  .next (updMarg s fun m => { m with peerOwn := asserted, peerOwnTick := if asserted = m.peerOwn then m.peerOwnTick else s.now })

end Sys2Proof.Machine
end

