-- ==== Sys2Proof/Machine/Folio.lean ====
section
/-!
DEFINITION. The Folio port: acceptance, packets, the reply lane, its rate, and host supervision (03_folio_port.md, R128);
the opcode table (*Opcodes*, 04_commands.md, and the command blocks of each chapter).
-/
namespace Sys2Proof.Machine

/-- The state with unit 0x01 changed. -/
def updFolio (s : State) (f : Folio → Folio) : State := { s with folio := f s.folio }

/-! The opcode table. -/

/-- The operating states that a command block lists. -/
inductive Served where
  | all | active | drive | standby | standbySafe | safe | shutdown
  deriving DecidableEq, Repr

/-- Whether a command block lists the operating state. -/
def servedIn (v : Served) (o : OpState) : Bool :=
  match v with
  | .all => o ≠ .boot
  | .active => o = .standby || o = .run || o = .safe
  | .drive => o = .standby || o = .run
  | .standby => o = .standby
  | .standbySafe => o = .standby || o = .safe
  | .safe => o = .safe
  | .shutdown => o = .shutdown

/-- What the tables say of an opcode: its unit, its range of LENGTH and the states that serve it. -/
structure OpInfo where
  unit : Nat
  lo : Nat
  hi : Nat
  served : Served
  deriving DecidableEq, Repr

/-- *Opcodes* with the Payload and States rows of the command blocks; none for an opcode that no table lists. -/
def opInfo (op : Nat) : Option OpInfo :=
  match op with
  | 0x01 => some ⟨0, 0, 0, .all⟩
  | 0x02 => some ⟨0, 0, 0, .all⟩
  | 0x03 => some ⟨0, 1, 511, .all⟩
  | 0x04 => some ⟨0, 2, 1022, .active⟩
  | 0x05 => some ⟨0, 2, 1023, .active⟩
  | 0x10 => some ⟨0, 1, 2, .drive⟩
  | 0x11 => some ⟨7, 2, 2, .drive⟩
  | 0x12 => some ⟨7, 2, 2, .drive⟩
  | 0x13 => some ⟨9, 1, 1, .active⟩
  | 0x14 => some ⟨9, 0, 0, .safe⟩
  | 0x15 => some ⟨9, 1, 1, .active⟩
  | 0x16 => some ⟨9, 1, 1, .active⟩
  | 0x20 => some ⟨7, 321, 321, .active⟩
  | 0x21 => some ⟨7, 1, 256, .active⟩
  | 0x22 => some ⟨7, 1, 256, .active⟩
  | 0x23 => some ⟨7, 1, 1, .active⟩
  | 0x24 => some ⟨7, 3, 1023, .active⟩
  | 0x30 => some ⟨5, 8, 8, .active⟩
  | 0x31 => some ⟨5, 2, 2, .standby⟩
  | 0x40 => some ⟨6, 1, 1, .standby⟩
  | 0x41 => some ⟨6, 1, 1, .active⟩
  | 0x42 => some ⟨6, 3, 3, .active⟩
  | 0x43 => some ⟨6, 1, 1, .active⟩
  | 0x44 => some ⟨6, 3, 3, .active⟩
  | 0x50 => some ⟨3, 2, 65, .active⟩
  | 0x51 => some ⟨3, 1, 1, .active⟩
  | 0x52 => some ⟨3, 0, 0, .active⟩
  | 0x60 => some ⟨4, 7, 7, .standbySafe⟩
  | 0x61 => some ⟨4, 4, 4, .active⟩
  | 0x70 => some ⟨10, 3, 3, .active⟩
  | 0x71 => some ⟨10, 3, 1023, .active⟩
  | 0x72 => some ⟨10, 7, 7, .active⟩
  | 0x73 => some ⟨10, 0, 0, .active⟩
  | 0x80 => some ⟨13, 1, 1, .all⟩
  | 0x81 => some ⟨13, 4, 4, .active⟩
  | 0x82 => some ⟨13, 1, 1, .active⟩
  | 0x90 => some ⟨11, 9, 9, .active⟩
  | 0x91 => some ⟨11, 1, 1, .active⟩
  | 0x92 => some ⟨11, 2, 2, .active⟩
  | 0x93 => some ⟨11, 1, 1, .active⟩
  | 0x94 => some ⟨11, 1, 1, .active⟩
  | 0xA0 => some ⟨11, 1, 1, .standby⟩
  | 0xA1 => some ⟨11, 0, 0, .active⟩
  | 0xA2 => some ⟨8, 0, 0, .standby⟩
  | 0xA3 => some ⟨8, 0, 0, .standby⟩
  | 0xB0 => some ⟨15, 0, 0, .standby⟩
  | 0xB1 => some ⟨15, 0, 0, .standbySafe⟩
  | 0xB2 => some ⟨12, 0, 0, .shutdown⟩
  | 0xB3 => some ⟨12, 1, 1, .all⟩
  | 0xB4 => some ⟨15, 1, 1, .standbySafe⟩
  | 0xC0 => some ⟨8, 1, 1, .standby⟩
  | 0xC1 => some ⟨8, 2, 1023, .standby⟩
  | 0xC2 => some ⟨8, 0, 0, .standby⟩
  | 0xC3 => some ⟨8, 0, 0, .standby⟩
  | _ => none

/-- Whether the command acts as if ORDER = 1 and opens a refusal span (R128). -/
def opSpans (op : Nat) : Bool := op ∈ [0xB0, 0xB1, 0xB4]

/-! ACCEPT codes. -/

/-- The command is taken. -/
def acAccepted : Nat := 9
/-- The packet is discarded; the device or its tag table is busy. -/
def acBusy : Nat := 10
/-- HCRC does not match. -/
def acHeaderCrc : Nat := 11
/-- TAG is 0x3FF or in flight. -/
def acTagInUse : Nat := 12
/-- Check 3 of *Acceptance checks*. -/
def acOpcodeUnknown : Nat := 13
/-- The unit is above 0x0F or absent. -/
def acUnitAbsent : Nat := 14
/-- LENGTH lies outside the opcode's range. -/
def acLengthBad : Nat := 15

/-- Whether unit `u` is present: every unit up to 0x0F, but Stipple on a part without rings (R4, R5). -/
def unitPresent (p : Part) (u : Nat) : Bool := decide (u ≤ 15) && !(decide (u = 6) && decide (ringCount p = 0))

/-- The checks of a header that its opcode, kind, unit and length decide (checks 3 to 5 of *Acceptance checks*): an ACCEPT
code, or none where they pass. -/
def headerShape (p : Part) (h : BitVec 64) : Option Nat :=
  match opInfo (hOpcode h) with
  | none => some acOpcodeUnknown
  | some i =>
    if hKind h ≠ 1 ∨ hfield h 47 41 ≠ 0 ∨ (unitPresent p (hUnit h) ∧ hUnit h ≠ i.unit) then some acOpcodeUnknown
    else if !unitPresent p (hUnit h) then some acUnitAbsent
    else if hLength h < i.lo ∨ i.hi < hLength h then some acLengthBad
    else none

/-- Whether SHUTDOWN refuses every header with BUSY (*Commands in SHUTDOWN*, R444, R445). -/
def burnBusy (s : State) : Bool :=
  s.op = .shutdown && (s.burn.dead || s.burn.phase = .draining || (s.burn.phase = .running && s.burn.unit = 178))

/-- The entries that headers of the opcode's path may fill (R80). -/
def tagLimit (s : State) (op : Nat) : Nat := if opFast op then 512 else 512 - parField s 1 2 8 0

/-- The ACCEPT code of a header (R76). -/
def acceptCode (s : State) (h : BitVec 64) : Nat :=
  if headerCrc h ≠ hCrc h then acHeaderCrc
  else if s.op = .boot ∨ burnBusy s then acBusy
  else match headerShape s.part h with
  | some c => c
  | none =>
    if hTag h = 0x3FF ∨ (s.folio.tags.any fun e => e.tag = hTag h) then acTagInUse
    else if tagLimit s (hOpcode h) ≤ s.folio.tags.length then acBusy
    else acAccepted

/-- The counters of a header that is not accepted (R77, R95). -/
def refuseHeader (c : Nat) (s : State) : State :=
  if c = acHeaderCrc then linkError s 8
  else if c = acBusy then (if s.op = .boot then s else parCount s 1 0xC 1)
  else parCount s 1 0xD 1

/-- A header is accepted: its entry, the host's interval, and the span that SLEEP, SHUTDOWN or RESET opens (R80, R94, R128). -/
def acceptHeader (h : BitVec 64) (s : State) : State :=
  let op := hOpcode h
  let spanned := s.folio.span.isSome
  let e : TagEntry :=
    { tag := hTag h, opcode := op, unit := hUnit h, len := hLength h, order := hOrder h || opSpans op, phase := .receiving,
      spanned := spanned, payload := [] }
  updFolio s fun f => { f with
    tags := f.tags ++ [e], tagsMost := max f.tagsMost (f.tags.length + 1), lane := .packet, rx := some (hTag h),
    prevBase := f.hostBase, prevSilent := f.hostSilent, prevMost := f.tagsMost, hostBase := s.now, hostSilent := false,
    span := if opSpans op && !spanned then some (hTag h) else f.span }

/-- Whether the receiver takes a header now: not in sleep and not in a reset of unit 0x01 (R79), with the lane low before it
(R87). -/
def laneOpen (s : State) : Bool :=
  s.pwr.sleep = .awake && !s.folio.inReset && (s.folio.lane = .idle || s.folio.lane = .ignore || s.folio.lane = .resync)

/-- FOLIO_HEADER: a header is checked at its sixteenth nibble and its ACCEPT code driven (R76 to R80). -/
def execFolioHeader (hdr : BitVec 64) (s : State) : Host.Outcome State Fault Refusal :=
  .next (
    if laneOpen s then
      let c := acceptCode s hdr
      let s := updTim s fun t => { t with td3 := true }
      if c = acAccepted then acceptHeader hdr (updFolio s fun f => { f with accept := c })
      else refuseHeader c (updFolio s fun f => { f with accept := c, lane := .ignore })
    else s)

/-- FI_ACCEPT after edge `k` of FI_CLK, counted from the edge that samples nibble 0 of the newest header: its code in edges 16 to 19,
bit 3 first, and low before and after (R78). -/
def acceptLine (s : State) (k : Nat) : Bool := decide (16 ≤ k) && decide (k < 20) && s.folio.accept.testBit (19 - k)

/-- RUNT_HEADER: FI_FRM falls before the sixteenth header nibble; no code is driven (R79). -/
def execRuntHeader (s : State) : Host.Outcome State Fault Refusal :=
  .next (if laneOpen s then linkError (updFolio s fun f => { f with lane := .idle, accept := 0 }) 10 else s)

/-- A tag entry moves on. -/
def setPhase (tag : Nat) (p : TagPhase) (ws : List Word) (s : State) : State :=
  updFolio s fun f => { f with tags := f.tags.map fun e => if e.tag = tag then { e with phase := p, payload := ws } else e }

/-- A packet is cut or fails its CRC or its length: the command completes with PAYLOAD_CRC and changes nothing (R86, R93). -/
def failPacket (tag : Nat) (s : State) : State := completeTag tag stPayloadCrc [] (linkError s 9)

/-- PACKET_END: the packet of the accepted command has arrived (R86, R128). After a FAIL of unit 179 a firmware command completes
with BURNISH (R445). -/
def execPacketEnd (words : List Word) (crc : Word) (frmLow : Bool) (s : State) : Host.Outcome State Fault Refusal :=
  .next (
    match s.folio.rx with
    | none => s
    | some tag =>
      match s.folio.tags.find? fun e => e.tag = tag && e.phase = .receiving with
      | none => s
      | some e =>
        let s := updFolio s fun f => { f with
          lane := if frmLow then .idle else .ignore, rx := none, accept := if e.len = 0 then f.accept else 0 }
        if words.length ≠ e.len ∨ (e.len ≠ 0 ∧ crc ≠ payloadCrc words) ∨ !frmLow then failPacket tag s
        else if e.spanned then completeTag tag stState [] s
        else if s.burn.dead ∧ !opFast e.opcode then completeTag tag stBurnish [] s
        else setPhase tag .ready words s)

/-- FI_FRM_OVERRUN: FI_FRM has stayed high beyond the longest packet (R87). -/
def execFiFrmOverrun (s : State) : Host.Outcome State Fault Refusal :=
  .next (if laneOpen s then linkError (updFolio s fun f => { f with lane := .ignore }) 11 else s)

/-- The newest header, if its code is ACCEPTED, is discarded as not answered: it holds no tag and has no effect (R93). -/
def discardNewest (s : State) : State :=
  match s.folio.tags.getLast? with
  | some e =>
    if s.folio.accept = acAccepted ∧ (e.phase = .receiving ∨ e.phase = .ready) then
      updFolio s fun f => { f with
        tags := f.tags.dropLast, tagsMost := f.prevMost, hostBase := f.prevBase, hostSilent := f.prevSilent,
        span := if f.span = some e.tag ∧ opSpans e.opcode ∧ !e.spanned then none else f.span }
    else s
  | none => s

/-- FOLIO_CLOCK_LOST: FI_CLK has been absent for 32 TD0 cycles (R93). In sleep the receiver is off and nothing is raised. -/
def execFolioClockLost (runt unlaunched : Bool) (s : State) : Host.Outcome State Fault Refusal :=
  .next (
    if s.folio.lane = .lost then s
    else
      let s := updTim s fun t => { t with td3 := false }
      if s.pwr.sleep ≠ .awake ∨ s.folio.inReset then updFolio s fun f => { f with lane := .lost }
      else
        let rx := s.folio.rx
        let cut := unlaunched && decide (s.folio.accept ≠ 0)
        let s := raise (updFolio s fun f => { f with lane := .lost, rx := none }) 0x0102 0 []
        let s := if cut then linkError (discardNewest s) 10 else if runt then linkError s 10 else s
        let s := updFolio s fun f => { f with accept := 0 }
        match rx with
        | some tag => if cut then s else failPacket tag s
        | none => s)

/-- FOLIO_CLOCK_RETURN: the receiver resynchronises (R93). -/
def execFolioClockReturn (s : State) : Host.Outcome State Fault Refusal :=
  .next (updFolio (updTim s fun t => { t with td3 := true }) fun f => { f with lane := if f.lane = .lost then .resync else f.lane })

/-! The reply lane (R88 to R90). -/

/-- The header of a packet of the reply lane, its HCRC included (R73, R74; event packets: 04_commands.md). -/
def packetHeader (p : Packet) : BitVec 64 :=
  match p with
  | .reply r => mkHeader r.opcode r.tag r.payload.length r.unit 2 r.status
  | .event e => mkHeader 0 0x3FF 8 e.ev.unit 3 0

/-- The payload of a packet. -/
def packetPayload (p : Packet) : List Word :=
  match p with
  | .reply r => r.payload
  | .event e => eventWords e

/-- The words of a packet, header first, with the payload CRC behind a payload (R75, *Packet header*). -/
def packetWords (p : Packet) : List Word :=
  twoWords (packetHeader p).toNat ++ packetPayload p ++ (if packetPayload p = [] then [] else [payloadCrc (packetPayload p)])

/-- The nibbles of words as a lane carries them: bytes in ascending order, low nibble first (R69). -/
def laneNibbles (l : List Word) : List Nat := l.flatMap fun w => (List.range 8).map fun k => field w (4 * k + 3) (4 * k)

/-- What divides the VCO of 1,200 MHz for FO_CLK at a rate code: a cycle is a third of as many ticks (*FO_CONFIG*). -/
def foDiv (rate : Nat) : Nat := match rate with
  | 0 => 8 | 1 => 12 | 2 => 16 | 3 => 24 | _ => 48

/-- Whether `n` cycles of FO_CLK have passed since tick `t`. -/
def foCycles (s : State) (n t : Nat) : Bool := decide (n * foDiv s.folio.rate ≤ 3 * (s.now - t))

/-- The data and frame lines of the reply lane in cycle `k` of the packet on it: the nibble, with the frame high; none with the frame low
(R69, R70). -/
def replyLane (s : State) (k : Nat) : Option Nat := match s.folio.onLane with
  | some p => (laneNibbles (packetWords p))[k]?
  | none => none

/-- Whether FO_CLK runs and a packet may be launched, two cycles after the one before (R70, R72, R90). -/
def laneFree (s : State) : Bool :=
  (s.pwr.sleep = .awake || s.pwr.sleep = .leaving) && !s.folio.inReset && s.folio.onLane.isNone &&
    s.folio.laneEnd.all (foCycles s 2) &&
    (match s.folio.rateCh with
     | .stopped _ _ => false
     | .hold _ => false
     | _ => true)

/-- FO_CLK stops for a rate change that has waited. -/
def rateStop (rate : Nat) (s : State) : State := updFolio s fun f => { f with rateCh := .stopped rate none, rateTick := s.now }

/-- The next packet is launched: an event first, or one reply after 8 events (R88); while an EVENT_LOST waits to be written no
other event goes (R89). -/
def sendNext (s : State) : State :=
  let ev := if lostWaiting s = 0 then s.folio.events.head? else none
  let send (p : Packet) (run : Nat) : State := updFolio s fun f => { f with onLane := some p, laneTick := s.now, evRun := run }
  match ev, s.folio.replies with
  | some e, [] => send (.event e) (s.folio.evRun + 1)
  | some e, r :: _ => if s.folio.evRun < 8 then send (.event e) (s.folio.evRun + 1) else send (.reply r) 0
  | none, r :: _ => send (.reply r) 0
  | none, [] => s

/-- PACKET_SEND: the reply lane takes the next ready packet (R88). A rate change without a reply to wait for stops FO_CLK
between two packets. -/
def execPacketSend (s : State) : Host.Outcome State Fault Refusal :=
  .next (
    if !laneFree s then s
    else match s.folio.rateCh with
    | .waiting none r => rateStop r s
    | _ => sendNext s)

/-- The reply of `tag` has been launched whole: its entry is free, a span that its refusal ends is over, a rate change that
waited for it stops FO_CLK, and a RESET begins (R80, R90, R128). -/
def replySent (r : Reply) (s : State) : State :=
  let s := updFolio s fun f => { f with
    tags := f.tags.filter fun e => e.tag ≠ r.tag, replies := f.replies.tail, onLane := none, laneEnd := some s.now,
    span := if f.span = some r.tag then (if 16 ≤ r.status then none else some 4096) else f.span }
  let s := match s.folio.rateCh with
    | .waiting (some t) n => if t = r.tag then rateStop n s else s
    | _ => s
  resetAfterReply r.tag s

/-- PACKET_SENT: the last nibble of the packet on the lane is launched (R80, R81, R89). -/
def execPacketSent (s : State) : Host.Outcome State Fault Refusal :=
  .next (
    match s.folio.onLane with
    | none => s
    | some p =>
      if !foCycles s (laneNibbles (packetWords p)).length s.folio.laneTick then s
      else match p with
      | .reply r => replySent r s
      | .event _ => eventFreed (updFolio s fun f => { f with events := f.events.tail, onLane := none, laneEnd := some s.now }))

/-- A pending change once FO_CLK may change again. -/
def nextChange (n : Option (Option Nat × Nat)) : RateChange :=
  match n with
  | some (t, r) => .waiting t r
  | none => .none

/-- A write of FO_RATE, carried by the command under `tag` (R90): a change from the rate at which FO_CLK is to run waits for
its reply; one that restores the rate in force is none. -/
def changeRate (tag : Option Nat) (v : Nat) (s : State) : State :=
  let next (cur : Nat) (n : Option (Option Nat × Nat)) : Option (Option Nat × Nat) :=
    match n with
    | some (t, r) => if v = r then some (t, r) else if v = cur then none else some (tag, v)
    | none => if v = cur then none else some (tag, v)
  updFolio s fun f => { f with rateCh :=
    match f.rateCh with
    | .none => if v = f.rate then .none else .waiting tag v
    | .waiting t r => if v = r then .waiting t r else if v = f.rate then .none else .waiting tag v
    | .stopped r n => .stopped r (next r n)
    | .hold n => .hold (next f.rate n) }

/-- FO_CLK_RESTART: after 2 µs stopped, FO_CLK restarts at the new rate (R90). -/
def execFoClkRestart (s : State) : Host.Outcome State Fault Refusal :=
  .next (
    match s.folio.rateCh with
    | .stopped r n =>
      if s.now < s.folio.rateTick + 2 * usTicks then s
      else updFolio s fun f => { f with rate := r, rateCh := .hold n, rateTick := s.now }
    | _ => s)

/-- FO_FIRST_PACKET_HOLD: 1 µs after the restart packets may be sent again (R90). -/
def execFoFirstPacketHold (s : State) : Host.Outcome State Fault Refusal :=
  .next (
    match s.folio.rateCh with
    | .hold n => if s.now < s.folio.rateTick + usTicks then s else updFolio s fun f => { f with rateCh := nextChange n }
    | _ => s)

/-- HOST_SILENT: no header has been accepted for HOST_TIMEOUT in STANDBY or RUN, once per lapse (R94). The interval is timed
in TD0, which may run faster than TD1 (log 55). -/
def execHostSilent (s : State) : Host.Outcome State Fault Refusal :=
  .next (
    let t := parField s 1 3 15 0
    if inService s.op ∧ s.pwr.sleep = .awake ∧ s.pwr.resetting = none ∧ !s.folio.hostSilent ∧ t ≠ 0 ∧
        s.folio.hostBase + 3880 * t ≤ s.now then
      raise (setAttn (updFolio s fun f => { f with hostSilent := true }) 4) 0x0103 0 [parGet s 1 3]
    else s)

/-- ATTN_CAUSE with SAFE, the level that follows the operating state (R92). -/
def attnCause (s : State) : Word := (parGet s 1 5 &&& 0x3D) ||| (if s.op = .safe then 2 else 0)

/-- Whether FO_ATTN_N is low (R91). -/
def attnLow (s : State) : Bool :=
  s.op ≠ .boot && !s.folio.inReset && (s.pwr.resetting = none || s.pwr.resetting = some .pair) && attnCause s &&& parGet s 1 4 ≠ 0

/-- TAGS. -/
def folioTags (s : State) : Word := wrd (s.folio.tagsMost * 2 ^ 16 + s.folio.tags.length)
/-- EVENT_QUEUE. -/
def eventQueue (s : State) : Word := wrd (s.folio.eventsMost * 2 ^ 16 + s.folio.events.length)

end Sys2Proof.Machine
end

