-- ==== Sys2Proof/Machine/Params.lean ====
section
/-!
DEFINITION. The parameter space as the host sees it: reads with their side effects and flags, the checks of a write, and how
a written value lands (R105, R109 to R112); the rows of the table that are writes and reads of single parameters.
-/
namespace Sys2Proof.Machine

/-! Units 0x00, 0x01 and 0x0B. -/

/-- PART_ID. -/
def partId (s : State) : Word :=
  wrd (Config.stepping.toNat * 2 ^ 16 + (match s.part with
    | .itc8120 => 0x8120 | .itc8112 => 0x8112 | .itc8104 => 0x8104))

/-- DEVICE_STATE. -/
def deviceState (s : State) : Word :=
  wrd (b2n s.tim.timeValid * 2 ^ 19 + s.therm.band * 2 ^ 16 + maskOf (drivesWith s hasArch) * 2 ^ 12 +
    maskOf (drivesWith s driveRuns) * 2 ^ 8 + b2n (debugOn s) * 2 ^ 7 + s.marg.role * 2 ^ 5 +
    b2n (splitMode s.plate.mode) * 2 ^ 4 + b2n s.safeLocked * 2 ^ 3 + opCode s.op)

/-- The code of an architecture. -/
def archCode (a : Arch) : Nat := match a with
  | .none => 0 | .direct => 1 | .string => 2

/-- The code of a DSTATE. -/
def dstCode (d : DState) : Nat := match d with
  | .idle => 0 | .run => 1 | .ss1 => 2 | .ss2 => 3 | .ss3 => 4 | .stopping => 5

/-- DRIVE_STATE of drive `d`. -/
def driveState (s : State) (d : Nat) : Word :=
  let v := s.drive d
  wrd (v.lastFault * 2 ^ 16 + b2n v.discharging * 2 ^ 7 + b2n v.faultLatched * 2 ^ 6 + b2n (driveTripLatched s d) * 2 ^ 5 +
    dstCode v.dst * 2 ^ 2 + archCode v.arch)

/-- The value of a parameter of unit 0x00. -/
def read00 (s : State) (i : Nat) : Word :=
  if i = 0 then partId s
  else if i = 1 then presence s.part
  else if i = 2 then s.plate.version
  else if i = 3 then wrd Config.serial.toNat
  else if i = 4 then wrd (Config.serial.toNat / 2 ^ 32)
  else if i = 5 then deviceState s
  else if 0x10 ≤ i ∧ i ≤ 0x13 then driveState s (i - 0x10)
  else if 0x14 ≤ i ∧ i ≤ 0x17 then (if hasArch (s.drive (i - 0x14)) then (s.drive (i - 0x14)).cfg else 0)
  else parGet s 0 i

/-- The check of a write to a parameter of unit 0x00 (CONFIG_LOCK). -/
def check00 (s : State) (i : Nat) (v : Word) : Nat :=
  if i = 7 ∧ !wbit v 0 ∧ wbit (parGet s 0 7) 0 ∧ s.op ≠ .standby then stState else stOk

/-- The value of a parameter of unit 0x01. -/
def read01 (s : State) (i : Nat) : Word :=
  if i = 1 then folioTags s
  else if i = 5 then attnCause s
  else if i = 6 then eventQueue s
  else parGet s 1 i

/-- The check of a write to a parameter of unit 0x01. -/
def check01 (i : Nat) (v : Word) : Nat :=
  if i = 0 then (if 4 < field v 2 0 then stBadParam else stOk)
  else if i = 2 then (if 256 < field v 8 0 then stBadParam else stOk)
  else stOk

/-- The write of a parameter of unit 0x01 lands; FO_RATE changes the rate of FO_CLK (R90). -/
def write01 (tag : Option Nat) (s : State) (i : Nat) (v : Word) : State :=
  let s := parSet s 1 i v
  if i = 0 then changeRate tag (field v 2 0) s else s

/-! Every unit. -/

/-- The value of a parameter as a read returns it. -/
def readParam (s : State) (u i : Nat) : Word :=
  match u with
  | 0 => read00 s i | 1 => read01 s i | 2 => read02 s i | 3 => read03 s i | 4 => read04 s i | 5 => read05 s i
  | 6 => read06 s i | 7 => read07 s i | 8 => read08 s i | 9 => read09 s i | 10 => read0A s i | 11 => read0B s i
  | 12 => read0C s i | 13 => read0D s i | 14 => read0E s i | _ => read0F s i

/-- The range and state checks that a unit's chapter makes of a write. -/
def checkParam (s : State) (u i : Nat) (v : Word) : Nat :=
  match u with
  | 0 => check00 s i v | 1 => check01 i v | 3 => check03 s i v | 4 => check04 s i v | 5 => check05 s i v
  | 6 => check06 i v | 7 => check07 s i v | 8 => check08 s i v | 9 => check09 s i v | 10 => check0A s i v
  | 13 => check0D s i v | 14 => check0E s i v | 15 => check0F i v | _ => stOk

/-- The value a parameter takes lands, with what its unit does then. -/
def landParam (tag : Option Nat) (s : State) (u i : Nat) (v : Word) : State :=
  match u with
  | 1 => write01 tag s i v | 3 => write03 s i v | 4 => write04 s i v | 5 => write05 s i v | 7 => write07 s i v
  | 8 => write08 s i v | 9 => write09 s i v | 10 => write0A s i v | 13 => write0D s i v | 15 => write0F s i v
  | _ => parSet s u i v

/-- Where the value of a parameter is kept in SRAM with its mark, if it is (R383). -/
def paramCell (u i : Nat) : Option Nat :=
  if u = 6 ∧ 0x8000 ≤ i then some (dirAddr ((i - 0x8000) / 8) ((i - 0x8000) % 8))
  else if u = 7 ∧ 0x4000 ≤ i then some (mapAddr ((i - 0x4000) / 3072) ((i - 0x4000) % 3072 / 2) (i % 2))
  else if u = 9 ∧ sram9 i then some (par9Addr i)
  else none

/-- Whether the value of a parameter carries a bite mark. -/
def paramMarked (s : State) (u i : Nat) : Bool :=
  match paramCell u i with
  | some a => markAt s a = .bite
  | none => false

/-- The side effect of the capture of a parameter by a read (R47, R109, R260, R380, and the ANGLE row of *Position parameter
index*). A read of a lock register on side B takes a free value (log 29). -/
def captureParam (u i : Nat) (s : State) : State :=
  let s := match paramCell u i with
    | some a => demandRead s a
    | none => s
  if u = 2 ∧ i = 0 then captureTime s
  else if u = 4 ∧ 0x100 ≤ i ∧ i < 0x1C0 ∧ i % 16 = 9 then captureAngle ((i - 0x100) / 16) s
  else if u = 6 ∧ 0x8000 ≤ i ∧ i % 8 = 0 then captureEntry ((i - 0x8000) / 8) s
  else if u = 8 ∧ i = 1 then captureRetired s
  else if u = 10 ∧ 0x100 ≤ i ∧ i < 0x120 ∧ i % 8 = 5 then captureStopHi ((i - 0x100) / 8) s
  else if u = 11 ∧ 0x100 ≤ i ∧ s.marg.sideB ∧ s.marg.linkUp then { s with free := s.free + 1 }
  else s

/-- A parameter is read: its value, and the state after the capture. -/
def captureRead (s : State) (u i : Nat) : Word × State := (readParam s u i, captureParam u i s)

/-! GET_PARAM (R109). -/

/-- UNIT of a parameter address word. -/
def adUnit (w : Word) : Nat := field w 23 16
/-- INDEX of a parameter address word. -/
def adIndex (w : Word) : Nat := field w 15 0

/-- Whether a parameter is absent on this part: the whole unit, or a defined index of an absent resource (R6, R7). -/
def isAbsent (s : State) (u i : Nat) : Bool :=
  !unitPresent s.part u || ((paramInfo u i).isSome && paramAbsent s.part u i)

/-- Whether an entry of GET_PARAM is invalid: reserved bits, a unit above 0x0F, or an index that a present unit does not
define. -/
def getBad (s : State) (w : Word) : Bool :=
  hasBits w 0xFF000000 || decide (15 < adUnit w) ||
    (unitPresent s.part (adUnit w) && (paramInfo (adUnit w) (adIndex w)).isNone)

/-- The entries of GET_PARAM in payload order: the words of the reply, whether a value is marked, and the state. -/
def getEntries (l : List Word) (s : State) : List Word × Bool × State :=
  match l with
  | [] => ([], false, s)
  | w :: r =>
    let u := adUnit w
    let i := adIndex w
    if isAbsent s u i then
      (let x := getEntries r s
       ((w ||| 0x80000000) :: 0xFFFFFFFF :: x.1, x.2.1, x.2.2))
    else
      let c := captureRead s u i
      let m := paramMarked c.2 u i
      let x := getEntries r c.2
      ((if m then w ||| 0x40000000 else w) :: c.1 :: x.1, m || x.2.1, x.2.2)

/-- GET_PARAM (R109). -/
def bodyGetParam (ws : List Word) (s : State) : CmdRes :=
  checked s
    [(decide (s.op = .shutdown) && (ws.any fun w => underTest s (adUnit w)), stBurnish), (ws.any (getBad s), stBadParam)]
    (let r := getEntries ws s
     .done (if r.2.1 then stPoison else stOk) r.1 r.2.2)

/-! SET_PARAM and SET_PARAM_BLOCK (R110, R111). -/

/-- Whether a write of the parameter is a write of MRAM (R393): LP_CONFIG.RATE and START_EXPECT. -/
def writesMram (u i : Nat) : Bool := (u = 10 && i = 1) || (u = 15 && decide (0x100 ≤ i) && decide (i ≤ 0x10F))

/-- Whether any bit of the parameter can be written. -/
def writable (p : ParamInfo) : Bool := p.counter || (p.rw ||| p.rws ||| p.w1c ||| p.wo) ≠ 0

/-- The codes that refuse one write (R110), each with whether it applies. -/
def writeCodes (s : State) (a v : Word) : List (Bool × Nat) :=
  let u := adUnit a
  let i := adIndex a
  if hasBits a 0xFF000000 || decide (15 < u) || isAbsent s u i then [(true, stBadParam)]
  else match paramInfo u i with
  | none => [(true, stBadParam)]
  | some p =>
    let c := checkParam s u i v
    [(decide (p.rws ≠ 0) && decide (s.op ≠ .standby), stState),
     (decide (u = 9) && wbit (parGet s 0 7) 0, stDenied),
     (writesMram u i && mramDenied s, stDenied),
     (!writable p || hasBits v p.rsv, stBadParam),
     (decide (c ≠ stOk), c)]

/-- Whether a code refuses one of the writes. -/
def anyCode (s : State) (l : List (Word × Word)) (c : Nat) : Bool :=
  l.any fun e => (writeCodes s e.1 e.2).any fun x => x.1 && x.2 = c

/-- The value that a write leaves: a counter is cleared, a W1C bit written 1 is cleared, and a bit that cannot be written
stays (*Access codes*). -/
def landValue (s : State) (u i : Nat) (p : ParamInfo) (v : Word) : Word :=
  let m := p.rw ||| p.rws ||| p.wo
  if p.counter then 0
  else if p.w1c ≠ 0 then readParam s u i &&& p.w1c &&& ~~~ v
  else (parGet s u i &&& ~~~ m) ||| (v &&& m)

/-- A write that has passed its checks lands. -/
def hostWrite (tag : Option Nat) (u i : Nat) (v : Word) (s : State) : State :=
  match paramInfo u i with
  | some p => landParam tag s u i (landValue s u i p v)
  | none => s

/-- The writes of one command: every check, in the order of R102, before any write. A refusal for the temperature of the MRAM
raises its event (R393). -/
def writeAllParams (tag : Option Nat) (l : List (Word × Word)) (s : State) : CmdRes :=
  if anyCode s l stState then refuse stState s
  else if anyCode s l stDenied then
    .done stDenied []
      (if (l.any fun e => writesMram (adUnit e.1) (adIndex e.1)) && !mramOpen s then mramRefuse s else s)
  else if anyCode s l stBadParam then refuse stBadParam s
  else .done stOk [] (forEach l (fun e s => hostWrite tag (adUnit e.1) (adIndex e.1) e.2 s) s)

/-- The pairs of address and value of a payload. -/
def pairsOf (l : List Word) : List (Word × Word) :=
  match l with
  | a :: v :: r => (a, v) :: pairsOf r
  | _ => []

/-- The tag whose reply a rate change waits for: a relayed command has none on the lane. -/
def laneTag (tag : Nat) : Option Nat := if 1024 ≤ tag then none else some tag

/-- SET_PARAM (R110). -/
def bodySetParam (tag : Nat) (ws : List Word) (s : State) : CmdRes :=
  if ws.length % 2 = 1 then
    (if anyCode s (pairsOf ws) stState then refuse stState s
     else if anyCode s (pairsOf ws) stDenied then refuse stDenied s
     else refuse stBadParam s)
  else writeAllParams (laneTag tag) (pairsOf ws) s

/-- SET_PARAM_BLOCK (R111): consecutive indices of one unit. -/
def bodySetParamBlock (tag : Nat) (ws : List Word) (s : State) : CmdRes :=
  let a := pw ws 0
  let vals := ws.tail
  let l := (List.range vals.length).map fun k => (a + wrd k, vals.getD k 0)
  let inside := l.take (0x10000 - adIndex a)
  if inside.length < l.length then
    (if anyCode s inside stState then refuse stState s
     else if anyCode s inside stDenied then refuse stDenied s
     else refuse stBadParam s)
  else writeAllParams (laneTag tag) l s

/-! Rows that read or write one parameter, by the checks of the commands that carry them. -/

/-- Whether the device serves a write of a parameter now: the firmware runs, the operating state lists SET_PARAM (R103), and the
device is not locked in SAFE (R104). -/
def paramServed (s : State) : Bool := coresRun s && servedIn .active s.op && !(s.op = .safe && s.safeLocked)

/-- A read of one parameter by the host, by the rules of GET_PARAM. -/
def readRow (u i : Nat) (s : State) : State :=
  if coresRun s ∧ !isAbsent s u i ∧ (paramInfo u i).isSome ∧ !(s.op = .shutdown && underTest s u) then (captureRead s u i).2
  else s

/-- A write of one parameter by the host, by the rules of SET_PARAM, carried by no tag. -/
def writeRow (u i : Nat) (v : Word) (s : State) : State :=
  if paramServed s ∧ u < 16 ∧ i < 0x10000 then
    match writeAllParams none [(wrd (u * 2 ^ 16 + i), v)] s with
    | .done _ _ s => s
    | .wait s => s
  else s

/-- TIME_LO_READ (R47). -/
def execTimeLoRead (s : State) : Host.Outcome State Fault Refusal := .next (readRow 2 0 s)
/-- RETIRED_LO_READ (R47). -/
def execRetiredLoRead (s : State) : Host.Outcome State Fault Refusal := .next (readRow 8 1 s)
/-- ANGLE_READ (R109). -/
def execAngleRead (src : Nat) (s : State) : Host.Outcome State Fault Refusal :=
  .next (if src < 12 then readRow 4 (0x109 + 16 * src) s else s)
/-- CAP_STOP_LO_READ (R47). -/
def execCapStopLoRead (buf : Nat) (s : State) : Host.Outcome State Fault Refusal :=
  .next (if buf < 4 then readRow 10 (0x105 + 8 * buf) s else s)
/-- DIRECTORY_ENTRY_READ (R260). -/
def execDirectoryEntryRead (d : Nat) (s : State) : Host.Outcome State Fault Refusal :=
  .next (if d < 4096 then readRow 6 (0x8000 + 8 * d) s else s)
/-- FAST_RESERVE_WRITE (R82). -/
def execFastReserveWrite (v : Word) (s : State) : Host.Outcome State Fault Refusal := .next (writeRow 1 2 v s)
/-- FO_RATE_WRITE (R90): carried by no tag, it waits for the end of the packet on the lane. -/
def execFoRateWrite (v : Word) (s : State) : Host.Outcome State Fault Refusal := .next (writeRow 1 0 v s)
/-- CONFIG_LOCK_WRITE (R110). -/
def execConfigLockWrite (v : Word) (s : State) : Host.Outcome State Fault Refusal := .next (writeRow 0 7 v s)
/-- SEQ_SOFT_TRIGGER (R139). -/
def execSeqSoftTrigger (v : Word) (s : State) : Host.Outcome State Fault Refusal := .next (writeRow 3 0x10 v s)
/-- SEQ_ENABLE_WRITE (R139). -/
def execSeqEnableWrite (n : Nat) (v : Word) (s : State) : Host.Outcome State Fault Refusal :=
  .next (if n < 32 then writeRow 3 (0x100 + n) v s else s)
/-- ROT_EN_WRITE (R162). -/
def execRotEnWrite (v : Word) (s : State) : Host.Outcome State Fault Refusal := .next (writeRow 3 0 v s)
/-- WC_CTRL_WRITE (R166). -/
def execWcCtrlWrite (n : Nat) (v : Word) (s : State) : Host.Outcome State Fault Refusal :=
  .next (if n < 24 then writeRow 3 (0x300 + n) v s else s)
/-- TB_ENABLE_WRITE (R211). -/
def execTbEnableWrite (tb : Nat) (v : Word) (s : State) : Host.Outcome State Fault Refusal :=
  .next (if tb < 4 then writeRow 5 (0x100 + 16 * tb) v s else s)
/-- SYNC_WRITE (R212): the same word, TB_CFG, with its SYNC fields. -/
def execSyncWrite (tb : Nat) (v : Word) (s : State) : Host.Outcome State Fault Refusal :=
  .next (if tb < 4 then writeRow 5 (0x100 + 16 * tb) v s else s)
/-- PER_WRITE (R218). -/
def execPerWrite (tb : Nat) (v : Word) (s : State) : Host.Outcome State Fault Refusal :=
  .next (if tb < 4 then writeRow 5 (0x101 + 16 * tb) v s else s)
/-- COMPARE_WRITE (R217). -/
def execCompareWrite (tb k : Nat) (v : Word) (s : State) : Host.Outcome State Fault Refusal :=
  .next (if tb < 4 ∧ k < 6 then writeRow 5 (0x102 + 16 * tb + k) v s else s)
/-- TRIP_ROUTE_WRITE (R235). -/
def execTripRouteWrite (src : Nat) (v : Word) (s : State) : Host.Outcome State Fault Refusal :=
  .next (if src < 32 then writeRow 9 (0x100 + src) v s else s)
/-- PAIR_CFG_WRITE (R228). -/
def execPairCfgWrite (p : Nat) (v : Word) (s : State) : Host.Outcome State Fault Refusal :=
  .next (if p < 12 then writeRow 5 (0x200 + 16 * p) v s else s)
/-- DRV_POS_WRITE (R201). -/
def execDrvPosWrite (d : Nat) (v : Word) (s : State) : Host.Outcome State Fault Refusal :=
  .next (if d < 4 then writeRow 4 (0x10 + d) v s else s)
/-- EMU_CTRL_WRITE (R207). -/
def execEmuCtrlWrite (n : Nat) (v : Word) (s : State) : Host.Outcome State Fault Refusal :=
  .next (if n < 2 then writeRow 4 (0x20 + n) v s else s)
/-- SPLIT_TASK_WRITE (R341). -/
def execSplitTaskWrite (v : Word) (s : State) : Host.Outcome State Fault Refusal := .next (writeRow 8 0xB v s)
/-- MIR_EN_WRITE (R460). -/
def execMirEnWrite (v : Word) (s : State) : Host.Outcome State Fault Refusal := .next (writeRow 13 4 v s)
/-- THRESHOLD_WRITE (R469): THR_LOW at `w` 0 and THR_HIGH at `w` 1. -/
def execThresholdWrite (w : Nat) (v : Word) (s : State) : Host.Outcome State Fault Refusal :=
  .next (if w < 2 then writeRow 14 (2 + w) v s else s)
/-- LP_RATE_WRITE (R393). -/
def execLpRateWrite (v : Word) (s : State) : Host.Outcome State Fault Refusal := .next (writeRow 10 1 v s)
/-- START_EXPECT_WRITE (R393). -/
def execStartExpectWrite (r : Nat) (v : Word) (s : State) : Host.Outcome State Fault Refusal :=
  .next (if r < 16 then writeRow 15 (0x100 + r) v s else s)
/-- MAP_PARAM_WRITE (R323): parameter `w` of map `m`. -/
def execMapParamWrite (m w : Nat) (v : Word) (s : State) : Host.Outcome State Fault Refusal :=
  .next (if m < 4 ∧ w < 5 then writeRow 7 (0x20 + 8 * m + w) v s else s)
/-- PARAM_WRITE (R110). -/
def execParamWrite (unit idx : Nat) (v : Word) (s : State) : Host.Outcome State Fault Refusal := .next (writeRow unit idx v s)

end Sys2Proof.Machine
end

