-- ==== Sys2Proof/Machine/Strings.lean ====
section
/-!
DEFINITION. The string cycle of Stipple (09_stipple_modulation.md): ledger, eligibility, key, rank, insertion and the
string quantities.
-/
namespace Sys2Proof.Machine

/-- The nibble of an inserted cell of a sense: 3 positive, 4 negative. -/
def insertNibble (neg : Bool) : Nat := if neg then 4 else 3

/-- A binary32 value with the sign of `neg` applied. -/
def signed (neg : Bool) (x : Word) : Word := if neg then fNeg x else x

/-- The frame of ring `r` that was in force in the period that began at tick `t`: of those sent last, the newest one applied
at or before it. -/
def frameAt (g : Ring) (t : Nat) : Option DownFrame := (g.last.toList ++ g.older).find? fun f => decide (f.apply ≤ t)

/-- The part c that a position played in a period (R277): +1 or −1 inserted, the duty with its sense when modulating. -/
def ledgerPart (f : Option DownFrame) (p status : Nat) : Word :=
  match f with
  | none => 0
  | some f =>
    if status = 0xF ∨ nibFault status ∨ nibDerr status then 0
    else
      let n := f.states.getD p 0
      let c : Word := if n = 3 then 0x3F800000 else if n = 4 then 0xBF800000 else 0
      match f.mod with
      | some (q, _, _, _) => if q = p then fAdd c f.duty else c
      | none => c

/-- The ledgers are charged with the period [t₀ − T, t₀) (R277). -/
def chargeLedgers (r t0 T : Nat) (iPrev iNow : Word) (s : State) : State :=
  let ibar := fMul (fAdd iPrev iNow) 0x3F000000
  let dt := fMul (fOfNat T) 0x312BCC77
  let f := frameAt (s.ring r) (t0 - T)
  forUpTo (ringNodes s r) (fun p s => s.updEntry (dirIndex r p) fun e => { e with
    ledger := fFma (fNeg (fMul (ledgerPart f p e.status) ibar)) dt e.ledger }) s

/-- The mean of a list of values: summed in order, divided by the count; none when the list is empty. -/
def meanOf (l : List Word) : Option Word :=
  if l = [] then none else some (fDiv (l.foldl fAdd 0) (fOfNat l.length))

/-- Normalisation of the string (R279). -/
def normalise (r : Nat) (s : State) : State :=
  let ps := List.range (ringNodes s r)
  let free := ps.filter fun p => (s.entry (dirIndex r p)).excl = 0
  let vs := (free.filter fun p => field (s.entry (dirIndex r p)).tlm 31 16 ≠ 0xFFFF).map fun p =>
    fDiv (nodeVolts (s.entry (dirIndex r p))) (fOfNat (s.entry (dirIndex r p)).cells)
  let s := match meanOf (free.map fun p => (s.entry (dirIndex r p)).ledger) with
    | some m => forEach (ps.filter fun p => (s.entry (dirIndex r p)).present)
        (fun p s => s.updEntry (dirIndex r p) fun e => { e with ledger := fSub e.ledger m }) s
    | none => s
  let s := match meanOf vs with
    | some v => parSet s 6 (0x200 + 32 * r + 0x11) v
    | none => s
  s.updRing r fun g => { g with normDue := false }

/-- The direction of a cycle (R280): 0 discharge, 1 charge, 2 unsure, 3 for a request of 0. -/
def cycleDir (s : State) (r : Nat) (v iNow : Word) : Nat :=
  let x := signed (fNegative v) iNow
  if fZero v then 3
  else if fLe (strPar s r 7) x then 0
  else if fLe x (fNeg (strPar s r 7)) then 1
  else 2

/-- Whether a cell may take part (R281). -/
def cellEligible (s : State) (r p dir : Nat) : Bool :=
  let e := s.entry (dirIndex r p)
  let temp := field e.tlm 15 8
  let dis := decide (field e.limits 7 0 ≤ temp) && decide (temp ≤ field e.limits 15 8) && !wbit e.tlm 1
  let chg := decide (field e.limits 23 16 ≤ temp) && decide (temp ≤ field e.limits 31 24) && !wbit e.tlm 0
  e.present && decide (e.excl = 0) && decide (field e.tlm 31 16 ≠ 0xFFFF) && decide (temp ≠ 0xFF) && !wbit e.tlm 4 &&
    !wbit e.tlm 3 && !wbit e.tlm 2 &&
    decide ((s.now % 2 ^ 32 + 2 ^ 32 - e.tlmTick) % 2 ^ 32 ≤ field (strPar s r 0xB) 15 0 * usTicks) &&
    decide (e.status ≠ 0xF) && !nibFault e.status && !nibDerr e.status &&
    ([0, 2, 4, 6].all fun w => markAt s (dirAddr (dirIndex r p) w) = .none) &&
    (if dir = 0 then dis else if dir = 1 then chg else if dir = 2 then dis && chg else true)

/-- The balancing key of a position (R282). -/
def cellKey (s : State) (r p dir : Nat) (neg : Bool) (iNow : Word) : Word :=
  let e := s.entry (dirIndex r p)
  let hot : Word := fMul (fOfInt ((field e.tlm 15 8 : Int) - (field (strPar s r 0xB) 31 24 : Int))) 0x3F000000
  let pen := fMul (strPar s r 9) (fMax 0 hot)
  let k := if dir = 1 ∨ (dir = 2 ∧ fLt (signed neg iNow) 0) then fSub (fNeg e.ledger) pen else fSub e.ledger pen
  let last := match (s.ring r).last with
    | some f => f.states.getD p 0
    | none => 0
  if last = insertNibble neg then fAdd k (strPar s r 8) else k

/-- A position joins a ranking: before the first one with a lower key. -/
def rankInsert (x : Nat × Word) (l : List (Nat × Word)) : List (Nat × Word) :=
  match l with
  | [] => [x]
  | y :: t => if fLt y.2 x.2 then x :: y :: t else y :: rankInsert x t

/-- The positions by key, highest first, equal keys by ascending position (R283). -/
def rankCells (l : List (Nat × Word)) : List (Nat × Word) := l.foldl (fun a x => rankInsert x a) []

/-- Insertion (R284): the inserted positions, their sum, and the cell that did not fit, if the sum is short of the
request. -/
def insertCells (u : Nat → Word) (lim sum : Word) (ranked : List Nat) : List Nat × Word × Option Nat :=
  match ranked with
  | [] => ([], sum, none)
  | p :: rest =>
    let n := fAdd sum (u p)
    if fLe n lim then
      (let x := insertCells u lim n rest
       (p :: x.1, x.2))
    else if fLe lim sum then ([], sum, none)
    else ([], sum, some p)

/-- The duty of the modulating cell after the clamp of R214 on timebase `t`. -/
def appliedDuty (s : State) (t : Nat) (d : Word) : Word :=
  match effective (dutyCode d (tbPer s t)).1 (tbPer s t) (tbMinOn s t) (tbMinOff s t) false (s.tb t).dlFault with
  | .val e =>
    if field (dutyCode d (tbPer s t)).1 27 0 = e then d else fDiv (fOfNat e) (fOfNat (16 * tbPer s t))
  | _ => d

/-- The result of a cycle: the frame it hands to the ring head, and the string quantities. -/
structure CycleOut where
  frame : DownFrame
  dir : Nat
  eligible : Nat
  inserted : Nat
  avail : Word
  applied : Word
  limited : Bool
  vmaxHit : Bool
  deriving DecidableEq, Repr

/-- Direction, rank and insertion of a cycle for request `v` triggered at `t0` (R280 to R287). -/
def cycleOut (s : State) (r t t0 T : Nat) (v iNow : Word) : CycleOut :=
  let neg := fNegative v && !fZero v
  let dir := cycleDir s r v iNow
  let ps := (List.range (ringNodes s r)).filter fun p => cellEligible s r p dir
  let ranked := (rankCells (ps.map fun p => (p, cellKey s r p dir neg iNow))).map fun x => x.1
  let u (p : Nat) : Word := nodeVolts (s.entry (dirIndex r p))
  let avail := ranked.foldl (fun a p => fAdd a (u p)) 0
  let vmax := strPar s r 6
  let hit := fLt vmax (fAbs v)
  let lim := fMin (fAbs v) vmax
  let ins := if fZero lim then ([], (0 : Word), none) else insertCells u lim 0 ranked
  let md := match ins.2.2 with
    | some m =>
      let d := fDiv (fSub lim ins.2.1) (u m)
      (fineEdges s t d).map fun e => (m, d, e)
    | none => none
  let dApp : Word := match md with
    | some x => appliedDuty s t x.2.1
    | none => 0
  let uApp : Word := match md with
    | some x => u x.1
    | none => 0
  let frame : DownFrame :=
    { ftype := .normal, seq := 0, tlmKind := 0, group := 0, send := 0, apply := t0 + T,
      states := (List.range (ringNodes s r)).map fun p => if ins.1.contains p then insertNibble neg else 16,
      mod := md.map fun x => (x.1, insertNibble neg, x.2.2.1, x.2.2.2), duty := signed neg dApp, mgmt := none, enumData := [] }
  { frame := frame, dir := dir, eligible := ps.length, inserted := ins.1.length, avail := avail,
    applied := signed neg (fAdd ins.2.1 (fMul dApp uApp)), limited := fLt avail lim, vmaxHit := hit }

/-- Limits and counts of a cycle (R287). -/
def cycleLimits (r : Nat) (neg : Bool) (o : CycleOut) (s : State) : State :=
  let s := if o.vmaxHit then parCount s 6 (0x200 + 32 * r + 0x13) 1 else s
  if !o.limited then s.updRing r fun g => { g with limited := false }
  else
    let g := s.ring r
    let s := parCount s 6 (0x200 + 32 * r + 0x12) 1
    let due := !g.limited || (match g.limTick with
      | some t => !inSlide s.now t msTicks
      | none => true)
    let s := s.updRing r fun g => { g with limited := true }
    if due then record (s.updRing r fun g => { g with limTick := some s.now }) 0x0603 r [signed neg o.avail] else s

/-- STR_STATUS of a cycle. -/
def cycleStatus (o : CycleOut) : Word :=
  let mp := match o.frame.mod with
    | some x => x.1
    | none => 0
  wrd (b2n o.limited * 2 ^ 31 + b2n o.vmaxHit * 2 ^ 30 + o.dir * 2 ^ 28 + b2n o.frame.mod.isSome * 2 ^ 27 + o.eligible * 2 ^ 18 +
    o.inserted * 2 ^ 9 + mp)

/-- The string quantities are published (R288). -/
def publishString (r : Nat) (iNow : Word) (o : CycleOut) (s : State) : State :=
  let base := 0x200 + 32 * r
  let s := parSet (parSet (parSet s 6 (base + 0xE) iNow) 6 (base + 0xF) o.avail) 6 (base + 0x10) o.applied
  let q : List Word := [iNow, o.avail, o.applied, if o.limited then 0x3F800000 else 0, if o.vmaxHit then 0x3F800000 else 0]
  s.updRing r fun g => { g with
    strStatus := cycleStatus o, iPrev := some iNow, req := none, qty := ((o.frame.apply, q) :: g.qty).take 4 }

/-- The frame of a cycle is handed to the ring head, unless a REPEAT has taken its place (R20). -/
def handFrame (r : Nat) (f : DownFrame) (s : State) : State :=
  let late : Bool := match (s.ring r).last with
    | some l => l.ftype = .repeated && decide (f.apply ≤ l.apply)
    | none => false
  if late then s
  else
    let s := s.updRing r fun g => { g with next := some f }
    let sq := ((s.ring r).seq + 1) % 0x10000
    let sent := { f with states := f.states.map fun n => if n = 16 then bypassNibble s r sq else n }
    if s.marg.role = 1 ∧ (s.ring r).farAt ≠ none then queueRingFrame r sent s else s

/-- Stipple consumes the marks of the directory words that a cycle reads (R281, R385). -/
def consumeDirectory (r : Nat) (s : State) : State :=
  let s := readCells ((List.range (ringNodes s r)).flatMap fun p => [0, 2, 4, 6].map (dirAddr (dirIndex r p))) s
  forUpTo (ringNodes s r) (fun p s =>
    match [0, 2, 4, 6].find? fun w => markAt s (dirAddr (dirIndex r p) w) ≠ .none with
    | some w => consume s 6 (dirAddr (dirIndex r p) w) (markAt s (dirAddr (dirIndex r p) w))
    | none => s) s

/-- A string cycle of ring `r` for request `v` of trigger tick `t0` (R274 to R288). A mark that it consumes may take the
drive to a safe state, and the cycle then hands no frame on (R27). -/
def runCycle (r : Nat) (v : Word) (t0 : Nat) (s : State) : State :=
  let t := (ringTimebase s r).getD 0
  let T := tbLen s t
  let w := strPar s r 1
  let iNow := fFma (resultCode s (field w 20 16) (field w 29 24)) (strPar s r 2) (strPar s r 3)
  let iPrev := (s.ring r).iPrev.getD iNow
  let s := match (s.ring r).foldDue with
    | some x => foldReturn r x.1 x.2 (s.updRing r fun g => { g with foldDue := none })
    | none => s
  let late : Bool := !(s.ring r).returned && decide ((s.ring r).last ≠ none) && !(s.ring r).lateFold
  let s := if late then
      record (parCount (s.updRing r fun g => { g with lateFold := true }) 6 (0x106 + 16 * r) 1) 0x0602 r [ringPeriodNumber s r]
    else s
  let s := if !(s.ring r).normDue then s
    else if wbit (strPar s r 0) 28 then normalise r s
    else s.updRing r fun g => { g with normDue := false }
  let s := chargeLedgers r t0 T iPrev iNow s
  let s := consumeDirectory r s
  if !ringDriveRuns s r then s.updRing r fun g => { g with req := none }
  else
    let o := cycleOut s r t t0 T v iNow
    let s := cycleLimits r (fNegative v && !fZero v) o s
    handFrame r o.frame (publishString r iNow o s)

/-- The apply time of the frame that ring `r` has been handed last and that no REPEAT replaced: the one that waits, or the NORMAL frame
sent last. -/
def handedApply (g : Ring) : Option Nat :=
  match g.next with
  | some f => some f.apply
  | none => match g.last with
    | some l => if l.ftype = .normal then some l.apply else none
    | none => none

/-- The trigger tick that counts for the request of ring `r` in a cycle now (R16, R26): its own, or where the frame of its period has
been handed over already the start of the next period, from which on the request is used; none while that period has not begun. -/
def requestTick (s : State) (r : Nat) : Option Nat :=
  match (s.ring r).req with
  | none => none
  | some q =>
    if !ringPresent s r || !ringDriveRuns s r then none
    else match handedApply (s.ring r) with
    | none => some q.t0
    | some a => if a < q.t0 + ringPeriod s r then some q.t0 else if a ≤ s.now then some a else none

/-- The ring whose request Stipple takes next: the one that arrived first, and of those of one instant the lowest ring (R18). -/
def nextString (s : State) : Option Nat :=
  (below 16 fun r => (requestTick s r).isSome).foldl (fun best r =>
    match best with
    | none => some r
    | some b =>
      let key (k : Nat) : Nat := match (s.ring k).req with
        | some q => q.came
        | none => 0
      if key r < key b then some r else best) none

/-- STRING_CYCLE: Stipple takes the pending request of ring `r` when it is the next one (R18, R274). -/
def execStringCycle (r : Nat) (s : State) : Host.Outcome State Fault Refusal :=
  .next (
    if nextString s ≠ some r then s
    else match (s.ring r).req, requestTick s r with
    | some q, some t0 => runCycle r q.v t0 s
    | _, _ => s)

end Sys2Proof.Machine
end

