-- ==== Sys2Proof/Machine/Commands.lean ====
section
/-!
DEFINITION. How an accepted command starts and is served (R83 to R86, R98, R102 to R104, R443), the command rows of the table,
each over the body that its chapter gives, and the requests that the partner's host relays (R428, R429).
-/
namespace Sys2Proof.Machine

/-! Starting. -/

/-- The entries accepted before that of `tag`. -/
def earlier (s : State) (tag : Nat) : List TagEntry := s.folio.tags.takeWhile fun e => e.tag ≠ tag

/-- Whether a command has started, or is one that never does (R128). -/
def hasStarted (e : TagEntry) : Bool := e.spanned || e.phase = .running || e.phase = .replied

/-- Whether the engine of an opcode takes a command now: the fast path needs no firmware; the firmware path waits through unit
179 and the reload (R98, R443). -/
def engineReady (s : State) (op : Nat) : Bool :=
  if opFast op then s.pwr.sleep = .awake && !s.folio.inReset && s.pwr.resetting ≠ some .warm && s.op ≠ .boot
  else coresRun s

/-- Whether the command of entry `e` may start: its packet is whole, the commands of its path accepted before it have started,
and, with ORDER, every command accepted before it has generated its reply (R84, R86). -/
def mayStart (s : State) (e : TagEntry) : Bool :=
  let before := earlier s e.tag
  e.phase = .ready && !e.spanned && engineReady s e.opcode &&
    (before.all fun x => opFast x.opcode != opFast e.opcode || hasStarted x) &&
    (!e.order || before.all fun x => x.phase = .replied)

/-- The opcodes that SHUTDOWN serves (R103). -/
def servedInShutdown (op : Nat) : Bool := op ∈ [0x01, 0x02, 0x03, 0x80, 0xB2, 0xB3]
/-- The opcodes that SAFE with SAFE_LOCKED serves (R104). -/
def servedLocked (op : Nat) : Bool := op ∈ [0x01, 0x02, 0x03, 0x80, 0xB3]
/-- Whether an operating state serves an opcode by its command block. -/
def opServed (op : Nat) (o : OpState) : Bool :=
  match opInfo op with
  | some i => servedIn i.served o
  | none => false

/-- A command that starts is served, or completes with BURNISH or STATE (R103, R104). -/
def serve (op : Nat) (body : State → CmdRes) (s : State) : CmdRes :=
  if s.op = .shutdown ∧ !servedInShutdown op then refuse stBurnish s
  else if s.op = .safe ∧ s.safeLocked ∧ !servedLocked op then refuse stState s
  else if !opServed op s.op then refuse stState s
  else body s

/-- The accepted command under `tag` starts and does its work; a row whose command may not start leaves the device as it
is. -/
def runCommand (op tag : Nat) (body : List Word → State → CmdRes) (s : State) : State :=
  match s.folio.tags.find? fun e => e.tag = tag with
  | none => s
  | some e =>
    if e.opcode = op ∧ mayStart s e then settle tag (serve op (body e.payload) (setPhase tag .running [] s)) else s

/-! Device commands of this chapter. -/

/-- IDENTIFY (R107). -/
def bodyIdentify (_ws : List Word) (s : State) : CmdRes :=
  .done stOk [partId s, presence s.part, s.plate.version, read00 s 3, read00 s 4, 1] s

/-- GET_STATUS (R108). -/
def bodyGetStatus (_ws : List Word) (s : State) : CmdRes :=
  .done stOk ([deviceState s] ++ (List.range 4).map (driveState s) ++ [attnCause s] ++ twoWords s.now) s

/-! The rows. -/

/-- IDENTIFY (R107). -/
def execIdentify (tag : Nat) (s : State) : Host.Outcome State Fault Refusal := .next (runCommand 0x01 tag bodyIdentify s)
/-- GET_STATUS (R108). -/
def execGetStatus (tag : Nat) (s : State) : Host.Outcome State Fault Refusal := .next (runCommand 0x02 tag bodyGetStatus s)
/-- GET_PARAM (R109). -/
def execGetParam (tag : Nat) (s : State) : Host.Outcome State Fault Refusal := .next (runCommand 0x03 tag bodyGetParam s)
/-- SET_PARAM (R110). -/
def execSetParam (tag : Nat) (s : State) : Host.Outcome State Fault Refusal := .next (runCommand 0x04 tag (bodySetParam tag) s)
/-- SET_PARAM_BLOCK (R111). -/
def execSetParamBlock (tag : Nat) (s : State) : Host.Outcome State Fault Refusal := .next (runCommand 0x05 tag (bodySetParamBlock tag) s)
/-- MODE (R113). -/
def execMode (tag : Nat) (s : State) : Host.Outcome State Fault Refusal := .next (runCommand 0x10 tag bodyMode s)
/-- TORQUE_SET (R114). -/
def execTorqueSet (tag : Nat) (s : State) : Host.Outcome State Fault Refusal := .next (runCommand 0x11 tag bodyTorqueSet s)
/-- SETPOINT (R115). -/
def execSetpoint (tag : Nat) (s : State) : Host.Outcome State Fault Refusal := .next (runCommand 0x12 tag bodySetpoint s)
/-- SAFE_STATE (R116). -/
def execSafeState (tag : Nat) (s : State) : Host.Outcome State Fault Refusal := .next (runCommand 0x13 tag bodySafeState s)
/-- CLEAR_FAULT (R117, R370). -/
def execClearFault (tag : Nat) (s : State) : Host.Outcome State Fault Refusal := .next (runCommand 0x14 tag bodyClearFault s)
/-- CLEAR_TRIP (R118). -/
def execClearTrip (tag : Nat) (s : State) : Host.Outcome State Fault Refusal := .next (runCommand 0x15 tag bodyClearTrip s)
/-- DISCHARGE (R119). -/
def execDischarge (tag : Nat) (s : State) : Host.Outcome State Fault Refusal := .next (runCommand 0x16 tag bodyDischarge s)
/-- CTX_LOAD (R319). -/
def execCtxLoad (tag : Nat) (s : State) : Host.Outcome State Fault Refusal := .next (runCommand 0x20 tag bodyCtxLoad s)
/-- CTX_ENABLE (R320). -/
def execCtxEnable (tag : Nat) (s : State) : Host.Outcome State Fault Refusal := .next (runCommand 0x21 tag bodyCtxEnable s)
/-- CTX_DISABLE (R321). -/
def execCtxDisable (tag : Nat) (s : State) : Host.Outcome State Fault Refusal := .next (runCommand 0x22 tag (bodyCtxDisable tag) s)
/-- CTX_READ (R322). -/
def execCtxRead (tag : Nat) (s : State) : Host.Outcome State Fault Refusal := .next (runCommand 0x23 tag bodyCtxRead s)
/-- MAP_LOAD (R323). -/
def execMapLoad (tag : Nat) (s : State) : Host.Outcome State Fault Refusal := .next (runCommand 0x24 tag bodyMapLoad s)
/-- HATCH_FRAME (R219). -/
def execHatchFrame (tag : Nat) (s : State) : Host.Outcome State Fault Refusal := .next (runCommand 0x30 tag bodyHatchFrame s)
/-- HATCH_FORCE (R226). -/
def execHatchForce (tag : Nat) (s : State) : Host.Outcome State Fault Refusal := .next (runCommand 0x31 tag bodyHatchForce s)
/-- RING_ENUMERATE (R257). -/
def execRingEnumerate (tag : Nat) (s : State) : Host.Outcome State Fault Refusal := .next (runCommand 0x40 tag (bodyRingEnumerate tag) s)
/-- NODE_READ (R265). -/
def execNodeRead (tag : Nat) (s : State) : Host.Outcome State Fault Refusal := .next (runCommand 0x41 tag (bodyNodeRead tag) s)
/-- NODE_WRITE (R265). -/
def execNodeWrite (tag : Nat) (s : State) : Host.Outcome State Fault Refusal := .next (runCommand 0x42 tag (bodyNodeWrite tag) s)
/-- CELL_EXCLUDE (R289). -/
def execCellExclude (tag : Nat) (s : State) : Host.Outcome State Fault Refusal := .next (runCommand 0x43 tag bodyCellExclude s)
/-- CELL_INCLUDE (R289). -/
def execCellInclude (tag : Nat) (s : State) : Host.Outcome State Fault Refusal := .next (runCommand 0x44 tag bodyCellInclude s)
/-- SEQ_LOAD (R146). -/
def execSeqLoad (tag : Nat) (s : State) : Host.Outcome State Fault Refusal := .next (runCommand 0x50 tag bodySeqLoad s)
/-- CONV_URGENT (R148). -/
def execConvUrgent (tag : Nat) (s : State) : Host.Outcome State Fault Refusal := .next (runCommand 0x51 tag (bodyConvUrgent tag) s)
/-- CAL_STATUS (R133). -/
def execCalStatus (tag : Nat) (s : State) : Host.Outcome State Fault Refusal := .next (runCommand 0x52 tag bodyCalStatus s)
/-- POS_CONFIG (R208). -/
def execPosConfig (tag : Nat) (s : State) : Host.Outcome State Fault Refusal := .next (runCommand 0x60 tag bodyPosConfig s)
/-- POS_COMPARE (R205). -/
def execPosCompare (tag : Nat) (s : State) : Host.Outcome State Fault Refusal := .next (runCommand 0x61 tag bodyPosCompare s)
/-- MEM_READ (R398). -/
def execMemRead (tag : Nat) (s : State) : Host.Outcome State Fault Refusal := .next (runCommand 0x70 tag (bodyMemRead tag) s)
/-- MEM_WRITE (R399). -/
def execMemWrite (tag : Nat) (s : State) : Host.Outcome State Fault Refusal := .next (runCommand 0x71 tag (bodyMemWrite tag) s)
/-- CAPTURE_ARM (R397). -/
def execCaptureArm (tag : Nat) (s : State) : Host.Outcome State Fault Refusal := .next (runCommand 0x72 tag bodyCaptureArm s)
/-- SCRUB_STATUS (R400). -/
def execScrubStatus (tag : Nat) (s : State) : Host.Outcome State Fault Refusal := .next (runCommand 0x73 tag bodyScrubStatus s)
/-- LOG_READ (R462). -/
def execLogRead (tag : Nat) (s : State) : Host.Outcome State Fault Refusal := .next (runCommand 0x80 tag bodyLogRead s)
/-- LOG_MARK (R463). -/
def execLogMark (tag : Nat) (s : State) : Host.Outcome State Fault Refusal := .next (runCommand 0x81 tag (bodyLogMark tag) s)
/-- LOG_CLEAR (R464). -/
def execLogClear (tag : Nat) (s : State) : Host.Outcome State Fault Refusal := .next (runCommand 0x82 tag (bodyLogClear tag) s)
/-- MBX_POST (R120, R425). -/
def execMbxPost (tag : Nat) (s : State) : Host.Outcome State Fault Refusal := .next (runCommand 0x90 tag bodyMbxPost s)
/-- MBX_READ (R121). -/
def execMbxRead (tag : Nat) (s : State) : Host.Outcome State Fault Refusal := .next (runCommand 0x91 tag bodyMbxRead s)
/-- DOORBELL (R122, R427). -/
def execDoorbell (tag : Nat) (s : State) : Host.Outcome State Fault Refusal := .next (runCommand 0x92 tag bodyDoorbell s)
/-- LOCK_ACQUIRE (R123, R431). -/
def execLockAcquire (tag : Nat) (s : State) : Host.Outcome State Fault Refusal := .next (runCommand 0x93 tag (bodyLockAcquire tag) s)
/-- LOCK_RELEASE (R124). -/
def execLockRelease (tag : Nat) (s : State) : Host.Outcome State Fault Refusal := .next (runCommand 0x94 tag (bodyLockRelease tag) s)
/-- PAIR_ROLE (R125, R410). -/
def execPairRole (tag : Nat) (s : State) : Host.Outcome State Fault Refusal := .next (runCommand 0xA0 tag bodyPairRole s)
/-- HANDOVER (R126, R418). -/
def execHandover (tag : Nat) (s : State) : Host.Outcome State Fault Refusal := .next (runCommand 0xA1 tag (bodyHandover tag) s)
/-- SPLIT (R127, R339). -/
def execSplit (tag : Nat) (s : State) : Host.Outcome State Fault Refusal := .next (runCommand 0xA2 tag (bodySplit tag) s)
/-- JOIN (R127, R342). -/
def execJoin (tag : Nat) (s : State) : Host.Outcome State Fault Refusal := .next (runCommand 0xA3 tag (bodyJoin tag) s)
/-- SLEEP (R128). -/
def execSleep (tag : Nat) (s : State) : Host.Outcome State Fault Refusal := .next (runCommand 0xB0 tag (bodySleep tag) s)
/-- SHUTDOWN (R128, R434). -/
def execShutdown (tag : Nat) (s : State) : Host.Outcome State Fault Refusal := .next (runCommand 0xB1 tag (bodyShutdown tag) s)
/-- BURNISH_ABORT (R129, R446). -/
def execBurnishAbort (tag : Nat) (s : State) : Host.Outcome State Fault Refusal := .next (runCommand 0xB2 tag (bodyBurnishAbort tag) s)
/-- BURNISH_RESULT (R129). -/
def execBurnishResult (tag : Nat) (s : State) : Host.Outcome State Fault Refusal := .next (runCommand 0xB3 tag bodyBurnishResult s)
/-- RESET (R128, R485). -/
def execReset (tag : Nat) (s : State) : Host.Outcome State Fault Refusal := .next (runCommand 0xB4 tag (bodyReset tag) s)
/-- FW_BEGIN (R130). -/
def execFwBegin (tag : Nat) (s : State) : Host.Outcome State Fault Refusal := .next (runCommand 0xC0 tag bodyFwBegin s)
/-- FW_DATA (R130). -/
def execFwData (tag : Nat) (s : State) : Host.Outcome State Fault Refusal := .next (runCommand 0xC1 tag bodyFwData s)
/-- FW_COMMIT (R130, R347). -/
def execFwCommit (tag : Nat) (s : State) : Host.Outcome State Fault Refusal := .next (runCommand 0xC2 tag bodyFwCommit s)
/-- FW_ABORT (R130). -/
def execFwAbort (tag : Nat) (s : State) : Host.Outcome State Fault Refusal := .next (runCommand 0xC3 tag bodyFwAbort s)

/-! Relay (R428, R429). -/

/-- The body of an opcode that a relayed request may carry; none for any other (R429). -/
def relayBody (op tag : Nat) : Option (List Word → State → CmdRes) :=
  match op with
  | 0x03 => some bodyGetParam
  | 0x04 => some (bodySetParam tag)
  | 0x10 => some bodyMode
  | 0x11 => some bodyTorqueSet
  | 0x12 => some bodySetpoint
  | 0x13 => some bodySafeState
  | 0x14 => some bodyClearFault
  | 0x15 => some bodyClearTrip
  | 0x16 => some bodyDischarge
  | 0x94 => some (bodyLockRelease tag)
  | 0xA0 => some bodyPairRole
  | 0xA1 => some (bodyHandover tag)
  | _ => none

/-- The ACCEPT code of a relayed request: checks 1, 3, 4 and 5, with the differences of R429. It holds no tag entry, so that
checks 6 and 7 find nothing to refuse (log 56). -/
def relayCode (s : State) (h : BitVec 64) : Nat :=
  if headerCrc h ≠ hCrc h then acHeaderCrc
  else if (relayBody (hOpcode h) 0).isNone then acOpcodeUnknown
  else match headerShape s.part h with
  | some c => c
  | none => if 5 < hLength h ∨ (hOpcode h = 0x03 ∧ 2 < hLength h) then acLengthBad else acAccepted

/-- A relayed request of inbound mailbox `mbx` that passed its checks is served as its command block says (R101 to R103, R86). -/
def relayRun (mbx : Nat) (h : BitVec 64) (ws : List Word) (crc : Word) (s : State) : State :=
  let t := relayTag mbx
  let s := updMarg s fun m => { m with relayWait := tblSet m.relayWait [] mbx [hOpcode h, hTag h, hUnit h] }
  if ws ≠ [] ∧ crc ≠ payloadCrc ws then failPacket t s
  else match relayBody (hOpcode h) t with
  | some body => settle t (serve (hOpcode h) (body ws) s)
  | none => s

/-- RELAY_REQUEST: the firmware takes the request in inbound mailbox 12 or 13 once its reply slot is empty (R428, R429). -/
def execRelayRequest (mbx : Nat) (s : State) : Host.Outcome State Fault Refusal :=
  .next (
    if !(mbx = 12 || mbx = 13) || !engineReady s 0x03 || slotFull s (mbx + 2) || tblGet s.marg.relayWait [] mbx ≠ [] then s
    else match inMessage s mbx with
    | none => s
    | some m =>
      let h := BitVec.ofNat 64 (ofTwoWords (m.1.getD 0 0) (m.1.getD 1 0))
      let s := emptyInbox mbx s
      let c := relayCode s h
      if c = acAccepted then relayRun mbx h ((m.1.drop 2).take (hLength h)) (m.1.getD (2 + hLength h) 0) s
      else postMessage s (mbx + 2) (relayMessage c none []))

end Sys2Proof.Machine
end

