-- ==== Sys2Proof/Machine/Lockstep.lean ====
section
/-!
DEFINITION. What leaves the Plate pair through the compare buffer and what enters it through the delay queue, and the
checkpoints (11_plate_pair.md, R325, R327 to R331, R339).
-/
namespace Sys2Proof.Machine

/-! Transactions (R327, R331). -/

/-- The fast-path work of an opcode, done for the firmware: it has no tag and no reply. -/
def orderBody (op : Nat) : Option (List Word → State → CmdRes) :=
  match op with
  | 0x02 => some bodyGetStatus
  | 0x11 => some bodyTorqueSet
  | 0x12 => some bodySetpoint
  | 0x30 => some bodyHatchFrame
  | 0x51 => some (bodyConvUrgent 4096)
  | _ => none

/-- A write of a lock register by the pair: 0 frees a lock that it owns, and any other write has no effect (R431). -/
def lockWrite (n : Nat) (v : Word) (s : State) : State :=
  if 32 ≤ n ∨ v ≠ 0 ∨ locksAway s then s
  else if s.marg.sideB then lockRemote false 4096 n true s
  else (lockServe n .plateA false false s).2

/-- A transaction is released as one access (R327). A store outside memory and a work order of no engine have no effect; a
parameter takes a value that its unit's checks allow (log 79). -/
def releaseTxn (t : Txn) (s : State) : State :=
  match t.what with
  | .store a v en mark =>
    if (regionAt s a).isNone || decide (a % 4 ≠ 0) then s else releaseStore (a, v, en, markOf mark) s
  | .param u i v _ => if isAbsent s u i || decide (checkParam s u i v ≠ stOk) then s else hostWrite none u i v s
  | .lock n v => lockWrite n v s
  | .order op ws =>
    match orderBody op with
    | some body => settle 4096 (serve op (body ws) s)
    | none => s
  | .reply tag st ws => if tag < 1024 then completeTag tag st ws s else s
  | .event code index args => record s code index args

/-- The mark that a transaction consumes when it is released: that of a store to the privileged regions, or of a write to a
unit (R385). -/
def consumedMark (s : State) (t : Txn) : Nat :=
  match t.what with
  | .store a _ _ mark => if 3 ≤ regionNum s a ∧ regionNum s a ≤ 6 then mark else 0
  | .param _ _ _ mark => mark
  | _ => 0

/-- How many of the instructions of a list Plate gets past: `room` places are free, and it stalls before the lag to instruction
`n` of Counterproof would exceed 8 (R325, R327, R328). -/
def plateReaches (room n : Nat) (nums : List Nat) : Nat := ((nums.take room).takeWhile fun k => decide (k ≤ n + 8)).length

/-- TRANSACTION_COMPARE: Counterproof's copy arrives and is compared with the transaction held under its number (R327,
R331). `held` are the transactions that Plate has reached since the last row; the buffer holds 8, and what does not fit stalls
Plate. In a split pair Plate's transactions leave unchecked (R340). -/
def execTransactionCompare (held : List Txn) (t : Txn) (rails : Nat) (s : State) : Host.Outcome State Fault Refusal :=
  .next (
    if !coresRun s then s
    else if splitMode s.plate.mode then forEach held releaseTxn s
    else
      let next := s.plate.cbufNext ++ held
      let k := plateReaches (8 - s.plate.cbuf.length - s.mem.lpStore.length) t.num (next.map fun x => x.num)
      let buf := s.plate.cbuf ++ next.take k
      let s := updPlate s fun p => { p with
        cbuf := buf, cbufNext := next.drop k, retC := max p.retC t.num,
        retP := max ((next.take k).foldl (fun a x => max a x.num) p.retP) (t.num + 2) }
      match buf.find? fun p => p.num = t.num with
      | none => s
      | some p =>
        if rails ≠ 1 ∧ rails ≠ 2 then pairFault 0x0804 [] s
        else if p ≠ t then divergence t.num s
        else
          let s := updPlate s fun q => { q with cbuf := q.cbuf.filter fun x => x.num ≠ t.num }
          if consumedMark s t ≠ 0 then plateConsumes (consumedMark s t) s else releaseTxn t s)

/-! Reads (R328, R329). -/

/-- A mark as the delay queue carries it. -/
def markNum (m : Mark) : Nat := match m with
  | .none => 0 | .bite => 1 | .unwritten => 2

/-- Whether a read of the pair is held in handshake by LPDDR5 (R391, R392). -/
def readHeld (s : State) (r : ReadFrom) : Bool :=
  match r with
  | .memory a => s.mem.lpOnline && lpWaits s a 1 false
  | _ => false

/-- The word of memory that a read of the pair delivers: what its own regions hold is what was stored there. -/
def plateWord (s : State) (a : Nat) : Word := if regionNum s a ≤ 1 then readWord s a else hostWord s a

/-- A read is performed, once, on Plate's request: its data, its mark and what it does (R328). Global time goes through the
firmware's own capture register (R47); a lock register is acquired by reading (R431), and what side A answers to side B is a
free value; offline LPDDR5 gives zeros and a bite mark (R392). -/
def plateRead (r : ReadFrom) (s : State) : Word × Nat × State :=
  match r with
  | .memory a =>
    if (regionAt s a).isNone then (Config.freeWord s.free, 0, { s with free := s.free + 1 })
    else if namesLp a && !s.mem.lpOnline then (0, 1, s)
    else
      let s := demandRead (lpNote s a) a
      (plateWord s a, markNum (wordMark s a), { s with free := s.free + 2 ^ 36 })
  | .param u i =>
    if u = 2 ∧ i = 0 then (wrd s.now, 0, { s with tim := { s.tim with fwTime := s.now } })
    else if u = 2 ∧ i = 1 then (wrd (s.tim.fwTime / 2 ^ 32), 0, s)
    else if u = 8 ∧ i = 1 then (read08 s 1, 0, s)
    else
      let s := captureParam u i s
      (readParam s u i, if paramMarked s u i then 1 else 0, s)
  | .lock n =>
    if locksAway s then (7, 0, s)
    else if s.marg.sideB then (Config.freeWord s.free, 0, { lockRemote false 4096 n false s with free := s.free + 1 })
    else
      let x := lockServe n .plateA true false s
      (wrd x.1, 0, x.2)

/-- Plate's reads are performed in order and enter the delay queue. -/
def plateReads (l : List ReadReq) (s : State) : State :=
  forEach l (fun r s =>
    let x := plateRead r.src s
    updPlate x.2.2 fun p => { p with dq := p.dq ++ [{ req := r, data := x.1, mark := x.2.1 }] }) s

/-- How many reads of a list Plate makes before it stalls. -/
def readsMade (s : State) (n : Nat) (l : List ReadReq) : Nat :=
  min (plateReaches (8 - s.plate.dq.length) n (l.map fun r => r.num)) (l.takeWhile fun r => !readHeld s r.src).length

/-- DELAY_QUEUE_TAKE: Counterproof takes the oldest entry of the delay queue for its read (R328, R329). `reads` are the
reads that Plate has requested since the last row. In a split pair Plate's reads pass no queue (R339). -/
def execDelayQueueTake (reads : List ReadReq) (take : ReadReq) (parityOk : Bool) (s : State) : Host.Outcome State Fault Refusal :=
  .next (
    if !coresRun s then s
    else if splitMode s.plate.mode then forEach reads (fun r s => (plateRead r.src s).2.2) s
    else
      let next := s.plate.dqNext ++ reads
      let k := readsMade s take.num next
      let s := plateReads (next.take k) s
      let s := updPlate s fun p => { p with
        dqNext := next.drop k, retC := max p.retC take.num,
        retP := max ((next.take k).foldl (fun a x => max a x.num) p.retP) (take.num + 2) }
      match s.plate.dq with
      | [] => s
      | e :: r =>
        let head := s.plate.dqHead
        let s := updPlate s fun p => { p with dq := r, dqHead := (head + 1) % 8 }
        if !parityOk then pairFault 0x0805 [wrd head] s
        else if e.req ≠ take then divergence take.num s
        else s)

/-! Checkpoints (R330 to R332, R339, R342, R349). -/

/-- The pair splits at a checkpoint: what the buffer holds is released without comparison (R339). -/
def splitNow (s : State) : State :=
  let tag := s.plate.splitTag
  let l := s.plate.cbuf ++ s.plate.cbufNext
  let reads := s.plate.dqNext
  let s := updPlate s fun p => { p with mode := .split, cbuf := [], cbufNext := [], dq := [], dqNext := [], splitTag := none }
  let s := forEach reads (fun r s => (plateRead r.src s).2.2) (forEach l releaseTxn s)
  let s := record s 0x0806 0 []
  match tag with
  | some t => completeTag t stOk [] s
  | none => s

/-- Whether both self-test results are right: mismatch for the unequal pair, equal for the equal one (R331). -/
def selfTestOk (k : CheckpointData) : Bool := k.unequal = 2 && k.equal = 1

/-- A checkpoint at retired-instruction number `k.retired` (R330 to R332, R339, R342). Counterproof has reached it, so it has
applied the replay entries up to it (R346); Plate is two instructions ahead of it (R325). -/
def checkpoint (k : CheckpointData) (s : State) : State :=
  let n := k.retired
  let ahead := if s.plate.mode = .lockstep ∨ s.plate.mode = .splitPending then n + 2 else n
  let s := parWrap (updPlate s fun p => { p with
    retCk := n, retP := max p.retP n, retC := max p.retC n, wakeCk := false,
    regsP := regTable k.regsP, regsC := regTable k.regsC, marksP := k.marksP, marksC := k.marksC,
    replay := p.replay.filter fun e => decide (n < e.num),
    dbgBusy := p.dbgBusy && p.replay.all fun e => decide (n < e.num) }) 8 3
  match s.plate.mode with
  | .split => s
  | .joining => let s := joinNow s
    afterJoin s
  | _ =>
    if !selfTestOk k then pairFault 0x0804 [] s
    else if signature k.regsP ≠ signature k.regsC then latentFault n s
    else
      let s := updPlate s fun p => { p with retP := max p.retP ahead }
      if s.plate.mode = .splitPending then splitNow s else s

/-- The instruction of the next checkpoint: 4,096 after the last, or where Counterproof stands when debug steps went past it. -/
def nextCheckpoint (s : State) : Nat := max (s.plate.retCk + 4096) s.plate.retC

/-- Whether Counterproof can reach instruction `n` before the next checkpoint is over. -/
def checkpointAt (s : State) (n : Nat) : Bool :=
  decide (s.plate.retCk ≤ n) && decide (s.plate.retC ≤ n) && decide (n ≤ nextCheckpoint s)

/-- CHECKPOINT: 4,096 instructions have retired since the last checkpoint (R330), or the device has woken: then both cores stand
at the instruction that entered sleep (R349). -/
def execCheckpoint (k : CheckpointData) (s : State) : Host.Outcome State Fault Refusal :=
  .next (
    if s.plate.wakeCk then
      (if k.retired = s.plate.retP ∧ coresRun (updPlate s fun p => { p with wakeCk := false }) then checkpoint k s else s)
    else if coresRun s ∧ k.retired = nextCheckpoint s then checkpoint k s
    else s)

/-- WATCHDOG_SERVICE: the firmware writes the service register, and a checkpoint is taken (R330, R336). -/
def execWatchdogService (k : CheckpointData) (s : State) : Host.Outcome State Fault Refusal :=
  .next (
    if coresRun s ∧ checkpointAt s k.retired then checkpoint k (updPlate s fun p => { p with wdTick := s.now })
    else s)

end Sys2Proof.Machine
end

