-- ==== Sys2Proof/Machine/Dispatch.lean ====
section
/-!
DEFINITION. The meaning of each command, one arm per constructor of Instr, in the table's order.
-/
namespace Sys2Proof.Machine

/-- The effect of the command `i` on everything but the queue. -/
def exec (i : Instr) (s : State) : Host.Outcome State Fault Refusal :=
  match i with
  | .folioHeader hdr => Sys2Proof.Machine.execFolioHeader hdr s
  | .runtHeader => Sys2Proof.Machine.execRuntHeader s
  | .packetEnd words crc frmLow => Sys2Proof.Machine.execPacketEnd words crc frmLow s
  | .fiFrmOverrun => Sys2Proof.Machine.execFiFrmOverrun s
  | .folioClockLost runt unlaunched => Sys2Proof.Machine.execFolioClockLost runt unlaunched s
  | .folioClockReturn => Sys2Proof.Machine.execFolioClockReturn s
  | .packetSend => Sys2Proof.Machine.execPacketSend s
  | .packetSent => Sys2Proof.Machine.execPacketSent s
  | .foClkRestart => Sys2Proof.Machine.execFoClkRestart s
  | .foFirstPacketHold => Sys2Proof.Machine.execFoFirstPacketHold s
  | .hostSilent => Sys2Proof.Machine.execHostSilent s
  | .identify tag => Sys2Proof.Machine.execIdentify tag s
  | .getStatus tag => Sys2Proof.Machine.execGetStatus tag s
  | .getParam tag => Sys2Proof.Machine.execGetParam tag s
  | .setParam tag => Sys2Proof.Machine.execSetParam tag s
  | .setParamBlock tag => Sys2Proof.Machine.execSetParamBlock tag s
  | .mode tag => Sys2Proof.Machine.execMode tag s
  | .torqueSet tag => Sys2Proof.Machine.execTorqueSet tag s
  | .setpoint tag => Sys2Proof.Machine.execSetpoint tag s
  | .safeState tag => Sys2Proof.Machine.execSafeState tag s
  | .clearFault tag => Sys2Proof.Machine.execClearFault tag s
  | .clearTrip tag => Sys2Proof.Machine.execClearTrip tag s
  | .discharge tag => Sys2Proof.Machine.execDischarge tag s
  | .ctxLoad tag => Sys2Proof.Machine.execCtxLoad tag s
  | .ctxEnable tag => Sys2Proof.Machine.execCtxEnable tag s
  | .ctxDisable tag => Sys2Proof.Machine.execCtxDisable tag s
  | .ctxRead tag => Sys2Proof.Machine.execCtxRead tag s
  | .mapLoad tag => Sys2Proof.Machine.execMapLoad tag s
  | .hatchFrame tag => Sys2Proof.Machine.execHatchFrame tag s
  | .hatchForce tag => Sys2Proof.Machine.execHatchForce tag s
  | .ringEnumerate tag => Sys2Proof.Machine.execRingEnumerate tag s
  | .nodeRead tag => Sys2Proof.Machine.execNodeRead tag s
  | .nodeWrite tag => Sys2Proof.Machine.execNodeWrite tag s
  | .cellExclude tag => Sys2Proof.Machine.execCellExclude tag s
  | .cellInclude tag => Sys2Proof.Machine.execCellInclude tag s
  | .seqLoad tag => Sys2Proof.Machine.execSeqLoad tag s
  | .convUrgent tag => Sys2Proof.Machine.execConvUrgent tag s
  | .calStatus tag => Sys2Proof.Machine.execCalStatus tag s
  | .posConfig tag => Sys2Proof.Machine.execPosConfig tag s
  | .posCompare tag => Sys2Proof.Machine.execPosCompare tag s
  | .memRead tag => Sys2Proof.Machine.execMemRead tag s
  | .memWrite tag => Sys2Proof.Machine.execMemWrite tag s
  | .captureArm tag => Sys2Proof.Machine.execCaptureArm tag s
  | .scrubStatus tag => Sys2Proof.Machine.execScrubStatus tag s
  | .logRead tag => Sys2Proof.Machine.execLogRead tag s
  | .logMark tag => Sys2Proof.Machine.execLogMark tag s
  | .logClear tag => Sys2Proof.Machine.execLogClear tag s
  | .mbxPost tag => Sys2Proof.Machine.execMbxPost tag s
  | .mbxRead tag => Sys2Proof.Machine.execMbxRead tag s
  | .doorbell tag => Sys2Proof.Machine.execDoorbell tag s
  | .lockAcquire tag => Sys2Proof.Machine.execLockAcquire tag s
  | .lockRelease tag => Sys2Proof.Machine.execLockRelease tag s
  | .pairRole tag => Sys2Proof.Machine.execPairRole tag s
  | .handover tag => Sys2Proof.Machine.execHandover tag s
  | .split tag => Sys2Proof.Machine.execSplit tag s
  | .join tag => Sys2Proof.Machine.execJoin tag s
  | .sleep tag => Sys2Proof.Machine.execSleep tag s
  | .shutdown tag => Sys2Proof.Machine.execShutdown tag s
  | .burnishAbort tag => Sys2Proof.Machine.execBurnishAbort tag s
  | .burnishResult tag => Sys2Proof.Machine.execBurnishResult tag s
  | .reset tag => Sys2Proof.Machine.execReset tag s
  | .fwBegin tag => Sys2Proof.Machine.execFwBegin tag s
  | .fwData tag => Sys2Proof.Machine.execFwData tag s
  | .fwCommit tag => Sys2Proof.Machine.execFwCommit tag s
  | .fwAbort tag => Sys2Proof.Machine.execFwAbort tag s
  | .relayRequest mbx => Sys2Proof.Machine.execRelayRequest mbx s
  | .timeLoRead => Sys2Proof.Machine.execTimeLoRead s
  | .retiredLoRead => Sys2Proof.Machine.execRetiredLoRead s
  | .angleRead src => Sys2Proof.Machine.execAngleRead src s
  | .capStopLoRead buf => Sys2Proof.Machine.execCapStopLoRead buf s
  | .directoryEntryRead d => Sys2Proof.Machine.execDirectoryEntryRead d s
  | .fastReserveWrite v => Sys2Proof.Machine.execFastReserveWrite v s
  | .foRateWrite v => Sys2Proof.Machine.execFoRateWrite v s
  | .configLockWrite v => Sys2Proof.Machine.execConfigLockWrite v s
  | .seqSoftTrigger v => Sys2Proof.Machine.execSeqSoftTrigger v s
  | .seqEnableWrite n v => Sys2Proof.Machine.execSeqEnableWrite n v s
  | .rotEnWrite v => Sys2Proof.Machine.execRotEnWrite v s
  | .wcCtrlWrite n v => Sys2Proof.Machine.execWcCtrlWrite n v s
  | .tbEnableWrite tb v => Sys2Proof.Machine.execTbEnableWrite tb v s
  | .syncWrite tb v => Sys2Proof.Machine.execSyncWrite tb v s
  | .perWrite tb v => Sys2Proof.Machine.execPerWrite tb v s
  | .compareWrite tb k v => Sys2Proof.Machine.execCompareWrite tb k v s
  | .tripRouteWrite src v => Sys2Proof.Machine.execTripRouteWrite src v s
  | .pairCfgWrite p v => Sys2Proof.Machine.execPairCfgWrite p v s
  | .drvPosWrite d v => Sys2Proof.Machine.execDrvPosWrite d v s
  | .emuCtrlWrite n v => Sys2Proof.Machine.execEmuCtrlWrite n v s
  | .splitTaskWrite v => Sys2Proof.Machine.execSplitTaskWrite v s
  | .mirEnWrite v => Sys2Proof.Machine.execMirEnWrite v s
  | .thresholdWrite w v => Sys2Proof.Machine.execThresholdWrite w v s
  | .lpRateWrite v => Sys2Proof.Machine.execLpRateWrite v s
  | .startExpectWrite r v => Sys2Proof.Machine.execStartExpectWrite r v s
  | .mapParamWrite m w v => Sys2Proof.Machine.execMapParamWrite m w v s
  | .watchdogService k => Sys2Proof.Machine.execWatchdogService k s
  | .paramWrite unit idx v => Sys2Proof.Machine.execParamWrite unit idx v s
  | .xinWindowEnd count => Sys2Proof.Machine.execXinWindowEnd count s
  | .xinEdgeTimeout => Sys2Proof.Machine.execXinEdgeTimeout s
  | .pllLoss dom => Sys2Proof.Machine.execPllLoss dom s
  | .pllLockTimeout dom => Sys2Proof.Machine.execPllLockTimeout dom s
  | .pllLocked dom td0 => Sys2Proof.Machine.execPllLocked dom td0 s
  | .holdoverEnd => Sys2Proof.Machine.execHoldoverEnd s
  | .paceMeasurement p0 p1 p2 p3 => Sys2Proof.Machine.execPaceMeasurement p0 p1 p2 p3 s
  | .phaseSteer fwd => Sys2Proof.Machine.execPhaseSteer fwd s
  | .admissionRecheck => Sys2Proof.Machine.execAdmissionRecheck s
  | .seqTrigger n => Sys2Proof.Machine.execSeqTrigger n s
  | .seqStart n => Sys2Proof.Machine.execSeqStart n s
  | .urgentStart ls => Sys2Proof.Machine.execUrgentStart ls s
  | .conversionDone ls code ovr side tcode tovr => Sys2Proof.Machine.execConversionDone ls code ovr side tcode tovr s
  | .calSelfDone ok => Sys2Proof.Machine.execCalSelfDone ok s
  | .calDecision => Sys2Proof.Machine.execCalDecision s
  | .calSwap => Sys2Proof.Machine.execCalSwap s
  | .shadowTimeout => Sys2Proof.Machine.execShadowTimeout s
  | .trip src active => Sys2Proof.Machine.execTrip src active s
  | .encoderCount src a b z => Sys2Proof.Machine.execEncoderCount src a b z s
  | .hallStateChange src st => Sys2Proof.Machine.execHallStateChange src st s
  | .ssiStart src => Sys2Proof.Machine.execSsiStart src s
  | .ssiFrameEnd src high bits fall rise => Sys2Proof.Machine.execSsiFrameEnd src high bits fall rise s
  | .sentFrame src pulses => Sys2Proof.Machine.execSentFrame src pulses s
  | .sentTimeout src => Sys2Proof.Machine.execSentTimeout src s
  | .posCapture src => Sys2Proof.Machine.execPosCapture src s
  | .periodStart tb => Sys2Proof.Machine.execPeriodStart tb s
  | .triggerCompare tb k => Sys2Proof.Machine.execTriggerCompare tb k s
  | .refEdge p => Sys2Proof.Machine.execRefEdge p s
  | .deadtimeEnd p => Sys2Proof.Machine.execDeadtimeEnd p s
  | .forceExpiry p => Sys2Proof.Machine.execForceExpiry p s
  | .delaylineCalibration tb ok => Sys2Proof.Machine.execDelaylineCalibration tb ok s
  | .frameSend r => Sys2Proof.Machine.execFrameSend r s
  | .frameLate r => Sys2Proof.Machine.execFrameLate r s
  | .safeFrame r => Sys2Proof.Machine.execSafeFrame r s
  | .returnFrame r bytes rt => Sys2Proof.Machine.execReturnFrame r bytes rt s
  | .ringLinkChange r up lock => Sys2Proof.Machine.execRingLinkChange r up lock s
  | .enumLinkTimeout r => Sys2Proof.Machine.execEnumLinkTimeout r s
  | .enumFarPass r expect result delays => Sys2Proof.Machine.execEnumFarPass r expect result delays s
  | .stringCycle r => Sys2Proof.Machine.execStringCycle r s
  | .contextEvaluation lane => Sys2Proof.Machine.execContextEvaluation lane s
  | .contextWriteback c => Sys2Proof.Machine.execContextWriteback c s
  | .deadlineAction c => Sys2Proof.Machine.execDeadlineAction c s
  | .trigTimeoutExpiry c => Sys2Proof.Machine.execTrigTimeoutExpiry c s
  | .transactionCompare held t rails => Sys2Proof.Machine.execTransactionCompare held t rails s
  | .delayQueueTake reads take parityOk => Sys2Proof.Machine.execDelayQueueTake reads take parityOk s
  | .checkpoint k => Sys2Proof.Machine.execCheckpoint k s
  | .resyncDone => Sys2Proof.Machine.execResyncDone s
  | .asyncInputRead what plate counter => Sys2Proof.Machine.execAsyncInputRead what plate counter s
  | .interruptDecision vecP vecC => Sys2Proof.Machine.execInterruptDecision vecP vecC s
  | .watchdog => Sys2Proof.Machine.execWatchdog s
  | .pairRestartDone => Sys2Proof.Machine.execPairRestartDone s
  | .freeCoreTaskEnd res => Sys2Proof.Machine.execFreeCoreTaskEnd res s
  | .freeCoreWatchdog => Sys2Proof.Machine.execFreeCoreWatchdog s
  | .tapBypass => Sys2Proof.Machine.execTapBypass s
  | .tapIdcode => Sys2Proof.Machine.execTapIdcode s
  | .tapSamplePreload => Sys2Proof.Machine.execTapSamplePreload s
  | .tapExtest => Sys2Proof.Machine.execTapExtest s
  | .unlockChallenge => Sys2Proof.Machine.execUnlockChallenge s
  | .unlockResponse ws => Sys2Proof.Machine.execUnlockResponse ws s
  | .unlockVerified ok => Sys2Proof.Machine.execUnlockVerified ok s
  | .unlockBlockEnd => Sys2Proof.Machine.execUnlockBlockEnd s
  | .debugAccess => Sys2Proof.Machine.execDebugAccess s
  | .tapLock => Sys2Proof.Machine.execTapLock s
  | .debugHalt => Sys2Proof.Machine.execDebugHalt s
  | .breakpointHit slot => Sys2Proof.Machine.execBreakpointHit slot s
  | .debugResume => Sys2Proof.Machine.execDebugResume s
  | .debugStep => Sys2Proof.Machine.execDebugStep s
  | .debugRegisterRead r => Sys2Proof.Machine.execDebugRegisterRead r s
  | .debugRegisterWrite r v => Sys2Proof.Machine.execDebugRegisterWrite r v s
  | .debugBreakpointSet slot addr on => Sys2Proof.Machine.execDebugBreakpointSet slot addr on s
  | .debugMemoryRead addr => Sys2Proof.Machine.execDebugMemoryRead addr s
  | .debugMemoryWrite addr v => Sys2Proof.Machine.execDebugMemoryWrite addr v s
  | .enableChange level => Sys2Proof.Machine.execEnableChange level s
  | .ss2DelayExpiry d => Sys2Proof.Machine.execSs2DelayExpiry d s
  | .stopTimeExpiry d => Sys2Proof.Machine.execStopTimeExpiry d s
  | .dischargeTimeout d => Sys2Proof.Machine.execDischargeTimeout d s
  | .dschHoldExpiry d => Sys2Proof.Machine.execDschHoldExpiry d s
  | .registrationEvaluation d => Sys2Proof.Machine.execRegistrationEvaluation d s
  | .regEvalGap d => Sys2Proof.Machine.execRegEvalGap d s
  | .scrubStep mem upsets raced => Sys2Proof.Machine.execScrubStep mem upsets raced s
  | .lpddr5Training ok density ranks => Sys2Proof.Machine.execLpddr5Training ok density ranks s
  | .mr4Poll mult hot => Sys2Proof.Machine.execMr4Poll mult hot s
  | .lpddr5Refresh bank => Sys2Proof.Machine.execLpddr5Refresh bank s
  | .lpddr5Relock => Sys2Proof.Machine.execLpddr5Relock s
  | .lpddr5RelockTimeout => Sys2Proof.Machine.execLpddr5RelockTimeout s
  | .blockFillDone block => Sys2Proof.Machine.execBlockFillDone block s
  | .captureStop buf => Sys2Proof.Machine.execCaptureStop buf s
  | .marginLinkUp sideB presence => Sys2Proof.Machine.execMarginLinkUp sideB presence s
  | .linkCellDue => Sys2Proof.Machine.execLinkCellDue s
  | .marginLinkLoss cause => Sys2Proof.Machine.execMarginLinkLoss cause s
  | .cellSend => Sys2Proof.Machine.execCellSend s
  | .cellRetransmit => Sys2Proof.Machine.execCellRetransmit s
  | .ackDue => Sys2Proof.Machine.execAckDue s
  | .ackReceived ack => Sys2Proof.Machine.execAckReceived ack s
  | .heartbeatDue => Sys2Proof.Machine.execHeartbeatDue s
  | .heartbeatReceived ack hb => Sys2Proof.Machine.execHeartbeatReceived ack hb s
  | .heartbeatTimeout => Sys2Proof.Machine.execHeartbeatTimeout s
  | .heartbeatTakeover => Sys2Proof.Machine.execHeartbeatTakeover s
  | .statusDue => Sys2Proof.Machine.execStatusDue s
  | .statusReceived seq ack presence cfgs pers => Sys2Proof.Machine.execStatusReceived seq ack presence cfgs pers s
  | .tbPhaseReceived seq ack ticks => Sys2Proof.Machine.execTbPhaseReceived seq ack ticks s
  | .mirrorReceived seq ack sub ws marks => Sys2Proof.Machine.execMirrorReceived seq ack sub ws marks s
  | .ringFrameReceived seq ack r frag ws => Sys2Proof.Machine.execRingFrameReceived seq ack r frag ws s
  | .mailboxReceived seq ack n msg => Sys2Proof.Machine.execMailboxReceived seq ack n msg s
  | .mbxFreeReceived seq ack n => Sys2Proof.Machine.execMbxFreeReceived seq ack n s
  | .doorbellReceived seq ack bits => Sys2Proof.Machine.execDoorbellReceived seq ack bits s
  | .lockReceived seq ack lock acquire host tag => Sys2Proof.Machine.execLockReceived seq ack lock acquire host tag s
  | .lockReplyReceived seq ack lock owner tag => Sys2Proof.Machine.execLockReplyReceived seq ack lock owner tag s
  | .handoverOfferReceived seq ack th => Sys2Proof.Machine.execHandoverOfferReceived seq ack th s
  | .handoverAcceptReceived seq ack => Sys2Proof.Machine.execHandoverAcceptReceived seq ack s
  | .handoverDeclineReceived seq ack => Sys2Proof.Machine.execHandoverDeclineReceived seq ack s
  | .handoverAcceptTimeout => Sys2Proof.Machine.execHandoverAcceptTimeout s
  | .handoverInstant => Sys2Proof.Machine.execHandoverInstant s
  | .handoverTakeReceived seq ack th => Sys2Proof.Machine.execHandoverTakeReceived seq ack th s
  | .handoverTakenReceived seq ack => Sys2Proof.Machine.execHandoverTakenReceived seq ack s
  | .handoverLeaveReceived seq ack => Sys2Proof.Machine.execHandoverLeaveReceived seq ack s
  | .ownNClaim => Sys2Proof.Machine.execOwnNClaim s
  | .peerOwnChange asserted => Sys2Proof.Machine.execPeerOwnChange asserted s
  | .burnishUnitEnd count sig rows => Sys2Proof.Machine.execBurnishUnitEnd count sig rows s
  | .burnishUnitTimeout count sig rows => Sys2Proof.Machine.execBurnishUnitTimeout count sig rows s
  | .burnishDrainDone => Sys2Proof.Machine.execBurnishDrainDone s
  | .burnishDrainTimeout => Sys2Proof.Machine.execBurnishDrainTimeout s
  | .burnishReloadDone => Sys2Proof.Machine.execBurnishReloadDone s
  | .sketchbookWrite => Sys2Proof.Machine.execSketchbookWrite s
  | .hkRoundEnd codes tj => Sys2Proof.Machine.execHkRoundEnd codes tj s
  | .supplyMonitorFault ch above => Sys2Proof.Machine.execSupplyMonitorFault ch above s
  | .powerOnReset brownOut => Sys2Proof.Machine.execPowerOnReset brownOut s
  | .porRelease sideB => Sys2Proof.Machine.execPorRelease sideB s
  | .rstNReset => Sys2Proof.Machine.execRstNReset s
  | .bootAdvance us supplied => Sys2Proof.Machine.execBootAdvance us supplied s
  | .warmResetEnd us => Sys2Proof.Machine.execWarmResetEnd us s
  | .sleepEntry => Sys2Proof.Machine.execSleepEntry s
  | .wakeCondition src td0 => Sys2Proof.Machine.execWakeCondition src td0 s
  | .sleepTimerExpiry td0 => Sys2Proof.Machine.execSleepTimerExpiry td0 s
  | .wakeDone td0 => Sys2Proof.Machine.execWakeDone td0 s
  | .xinEdgeResume => Sys2Proof.Machine.execXinEdgeResume s
  | .wcOutputChange n level => Sys2Proof.Machine.execWcOutputChange n level s
  | .farPortDownFrame r bytes => Sys2Proof.Machine.execFarPortDownFrame r bytes s
  | .marginLaneDeskew => Sys2Proof.Machine.execMarginLaneDeskew s
  | .linkCellReceived sideB presence => Sys2Proof.Machine.execLinkCellReceived sideB presence s
  | .badCellReceived crcFail => Sys2Proof.Machine.execBadCellReceived crcFail s
  | .leaveAckTimeout => Sys2Proof.Machine.execLeaveAckTimeout s
  | .tapReset => Sys2Proof.Machine.execTapReset s
  | .jtagLoader version => Sys2Proof.Machine.execJtagLoader version s
  | .lpddr5RequestDone who => Sys2Proof.Machine.execLpddr5RequestDone who s
  | .folioResetEnd => Sys2Proof.Machine.execFolioResetEnd s

end Sys2Proof.Machine
end

