-- ==== Sys2Proof/Safety.lean ====
section
/-!
DEFINITION. What counts as a safe run, in the terms that claims use: the invariant that every step keeps, when an accepted
command starts, and what its reply says.
-/
namespace Sys2Proof.Safety
open Sys2Proof.Machine

/-- The keys of a table rise strictly, so that each is listed once. -/
def Rising {α : Type} (t : Tbl α) : Prop := tblSorted none t = true

/-- The tables that hold the drives, the parameters and the numbered parts of the units list each key once. -/
structure Tables (s : State) : Prop where
  drives : Rising s.drives
  par : Rising s.par
  nv : Rising s.nv
  tbs : Rising s.hatch.tbs
  pairs : Rising s.hatch.pairs
  rings : Rising s.stip.rings
  dir : Rising s.stip.dir
  srcs : Rising s.pos.srcs
  cmps : Rising s.pos.cmps
  emus : Rising s.pos.emus
  seqs : Rising s.conv.seqs
  slices : Rising s.conv.slices
  ctxs : Rising s.grav.ctxs
  regs : Rising s.so.regs
  caps : Rising s.mem.caps

/-- The invariant of the model: its tables list each key once, and byte memory is in canonical form. -/
structure Inv (s : State) : Prop where
  tables : Tables s
  memory : s.mem.wf = true

/-- The entry of a tag in the tag table. -/
def tagEntry (s : State) (tag : Nat) : Option TagEntry := s.folio.tags.find? fun e => e.tag = tag

/-- The command accepted under `tag` is whole, may start, and its opcode is served in the present state (R84 to R86, R102 to
R104). -/
structure Starts (s : State) (tag op : Nat) (ws : List Word) : Prop where
  small : tag < 1024
  entry : ∃ e, tagEntry s tag = some e ∧ e.opcode = op ∧ e.payload = ws ∧ mayStart s e = true
  served : opServed op s.op = true
  shutdown : s.op = .shutdown → servedInShutdown op = true
  locked : s.op = .safe → s.safeLocked = true → servedLocked op = true

/-- From `s` to `t` the command under `tag` has completed with one reply, of this status and these words, behind the replies
that waited; every other tag is as before (R83, R88). -/
def Replied (s t : State) (tag status : Nat) (ws : List Word) : Prop :=
  (∃ e, tagEntry s tag = some e ∧
    t.folio.replies = s.folio.replies ++ [{ tag := tag, opcode := e.opcode, unit := e.unit, status := status, payload := ws }]) ∧
  (tagEntry t tag).map (fun e => e.phase) = some TagPhase.replied ∧ ∀ n, n ≠ tag → tagEntry t n = tagEntry s n

/-- From `s` to `t` the command under `tag` has started and waits: it has no reply yet, and every other tag is as before. -/
def Waiting (s t : State) (tag : Nat) : Prop :=
  t.folio.replies = s.folio.replies ∧ (tagEntry t tag).map (fun e => e.phase) = some TagPhase.running ∧
  ∀ n, n ≠ tag → tagEntry t n = tagEntry s n

/-- The event that `s` captures under this code, index and arguments waits in the input queue of `t` (*Event record*). -/
def Raised (s t : State) (code idx : Nat) (args : List Word) : Prop := mkEvent s code idx args ∈ t.book.inq

/-- The value of a counter of the parameter space after `n` more, which stays at 0xFFFF_FFFF (R95). -/
def counted (w : Word) (n : Nat) : Word := BitVec.ofNat 32 (min 0xFFFFFFFF (w.toNat + n))

/-- Every stored parameter but index `i` of unit `u` is the same in `t` as in `s`. -/
def OthersKept (s t : State) (u i : Nat) : Prop :=
  ∀ u' i', u' < 16 → i' < 65536 → ¬ (u' = u ∧ i' = i) → parGet t u' i' = parGet s u' i'

/-- The parameter of address word `a` holds in `t` what a write of `v` leaves: the written value in the bits that can be
written, the old one in the others; every other stored parameter stays (R110). -/
def Stored (s t : State) (p : ParamInfo) (a v : Word) : Prop :=
  parGet t (adUnit a) (adIndex a) =
    (parGet s (adUnit a) (adIndex a) &&& ~~~ (p.rw ||| p.rws ||| p.wo)) ||| (v &&& (p.rw ||| p.rws ||| p.wo)) ∧
  OthersKept s t (adUnit a) (adIndex a)

/-- From `s` to `t` a header was turned away with this ACCEPT code: no tag is taken, the rest of its packet is ignored, and
beside the receiver only its counters, ATTN_CAUSE and the presence of its clock may differ. -/
def Turned (s t : State) (code : Nat) : Prop :=
  t.folio = { s.folio with accept := code, lane := .ignore } ∧
  t = { s with folio := t.folio, par := t.par, tim := { s.tim with td3 := true } }

/-- A write of `v` to index `i` of unit `u` by a row of the table that nothing refuses (R102 to R105, R110). -/
structure WritePasses (s : State) (u i : Nat) (v : Word) : Prop where
  served : paramServed s = true
  unit : u < 16
  index : i < 65536
  codes : ∀ x ∈ writeCodes s (wrd (u * 2 ^ 16 + i)) v, x.1 = false

/-- A read of index `i` of unit `u` by a row of the table that nothing refuses (R103, R109). -/
structure ReadPasses (s : State) (u i : Nat) : Prop where
  runs : coresRun s = true
  present : isAbsent s u i = false
  tested : s.op = .shutdown → underTest s u = false

/-- From `s` to `t` context `n` was enabled at this tick (R302, R317, R320). -/
def Enabled (s t : State) (n : Nat) (init : Bool) : Prop :=
  (t.ctx n).st = .enabled ∧ (t.ctx n).cause = 0 ∧ (t.ctx n).missRun = 0 ∧ (t.ctx n).enTick = s.now ∧
  (t.ctx n).image = (s.ctx n).image ∧ (t.ctx n).x = if init then ctxX0 (s.ctx n) else (s.ctx n).x

/-- Context `n` waits ready on lane `l` (R295). -/
def ReadyOn (s : State) (l n : Nat) : Prop :=
  n < 256 ∧ ctxAdmitted (s.ctx n) = true ∧ (s.ctx n).lane = l ∧ ∃ i, (s.ctx n).inst = some i ∧ i.phase = .ready

/-- Action `a` is among those of the latches that name pair `p`: those set in `s`, and that of source `src` (R232). -/
def Names (s : State) (src p a : Nat) : Prop :=
  ∃ n, n < 32 ∧ (latchSet s n = true ∨ n = src) ∧ field (tripRoute s n) 31 30 = a ∧ wbit (tripRoute s n) p = true

/-- Trip source `n` can become active now: one of 24 to 31 is reported so; a window comparator has an input that makes its output,
inactive until now, active (R163, R231). -/
def Activates (s : State) (n : Nat) : Prop :=
  24 ≤ n ∨ (wcRuns s = true ∧ (wcSide s n true || wcSide s n false) = true ∧ s.conv.wcLevel.testBit n = false)

/-- No capture waits at a source. -/
def NoCapture (s : State) : Prop := ∀ m, m < 12 → (s.src m).capDue = none

/-- The levels of encoder `n` that differ from the pins A, B and Z of a row pass its filter together, at tick `t`: FILT is 0 and
nothing waits, or they have stood at the pins since one tick (R177). -/
def LevelsPass (s : State) (n : Nat) (a b z : Bool) (t : Nat) : Prop :=
  (srcFilt s n = 0 ∧ (s.src n).raw = filtLevels (s.src n) ∧ t = s.now) ∨
  ((s.src n).raw = 4 * b2n a + 2 * b2n b + b2n z ∧ t ≤ s.now ∧ ∀ k, k < 3 →
    (s.src n).raw.testBit k ≠ (filtLevels (s.src n)).testBit k → (s.src n).rawAt.getD k 0 + srcFilt s n = t)

/-- State `st` at the pins of Hall set `n`, new to its filter, passes it at tick `t`: FILT is 0 and nothing waits, or the state has
stood at the pins since it last changed (R184). -/
def HallPasses (s : State) (n st t : Nat) : Prop :=
  ¬ ((s.src n).ab = st ∧ (s.src n).started = true) ∧ t ≤ s.now ∧
  ((srcFilt s n = 0 ∧ t = s.now ∧ ((s.src n).raw ≠ st ∨ (s.src n).rawAt = []) ∧
      ((s.src n).rawAt = [] ∨ ((s.src n).raw = (s.src n).ab ∧ (s.src n).started = true))) ∨
    ((s.src n).raw = st ∧ (s.src n).rawAt ≠ [] ∧ t = (s.src n).rawAt.headD 0 + srcFilt s n))

/-- From `s` to `t` a drive differs at most in the ticks from which the speed conditions have held (R358). -/
def SpeedsNoted (s t : State) : Prop :=
  ∀ d, t.drive d = { s.drive d with highFrom := (t.drive d).highFrom, lostFrom := (t.drive d).lostFrom }

/-- From `s` to `t` nothing changed but what the record of an event and the reaction to it may change: the operating state,
drives, pairs, rings, Stop-out's latches and pins, capture buffers, the marks and errors of words that Stop-out reads, the cells that
wait for the partner, the input queue of the Sketchbook, and parameters of units 0x01 and 0x0A (R132, R355 to R370, R381, R385,
R395). -/
def Reacted (s t : State) : Prop :=
  (∀ u i, u < 16 → i < 65536 → u ≠ 1 → u ≠ 10 → parGet t u i = parGet s u i) ∧
  t = { s with
    op := t.op, drives := t.drives, par := t.par, folio := { s.folio with hostBase := t.folio.hostBase },
    hatch := { s.hatch with pairs := t.hatch.pairs }, stip := { s.stip with rings := t.stip.rings },
    so := { s.so with regs := t.so.regs, latches := t.so.latches, classD := t.so.classD, ownN := t.so.ownN },
    mem := { s.mem with caps := t.mem.caps, consumed := t.mem.consumed, marks := t.mem.marks, errs := t.mem.errs, ceTick := t.mem.ceTick },
    marg := { s.marg with queue := t.marg.queue, ho := t.marg.ho, hoTh := t.marg.hoTh },
    book := { s.book with inq := t.book.inq } }

/-- A good sequenced Margin cell is the next in order, and no LEAVE of this device waits for its acknowledgement (R406, R412). -/
structure Arrives (s : State) (seq : Nat) : Prop where
  up : s.marg.linkUp = true
  runs : marginRuns s = true
  next : seq = s.marg.rxSeq
  stays : s.marg.leaving = false

/-- From `s` to `t` a cell with this acknowledgement was taken in order: the next SEQ is expected, and the cells that it
acknowledges wait no more (R406). -/
def Taken (s t : State) (ack : Nat) : Prop :=
  t.marg.rxSeq = (s.marg.rxSeq + 1) % 65536 ∧ t.marg.crcRun = 0 ∧
  t.marg.unacked = s.marg.unacked.filter fun c => !acked ack c.seq

end Sys2Proof.Safety
end

