-- ==== Sys2Proof/Certificates/Slice0/Obligations.lean ====
section
/-!
DEFINITION. The statements of this model for the provers, one `def Obligations.<Name> : Prop` each, by family of the command
table.
-/
open Sys2Proof Sys2Proof.Machine Sys2Proof.Safety

/-- For every state whose queue is c followed by rest, step of the state is exec of c on the state with queue rest.
The queue of waiting commands is the model's (log 2). -/
def Obligations.StepRunsFront : Prop :=
  ∀ (s : State) (c : Instr) (rest : List Instr), s.pending = c :: rest → step s = exec c { s with pending := rest }

/-- For every state with an empty queue, step answers the next state that differs in global time alone. It is one more
while TD1 runs or the main PLL is in holdover, and unchanged otherwise. That an idle step is one tick is the model's
choice (log 2). -/
def Obligations.IdleStepTicks : Prop :=
  ∀ s : State, s.pending = [] →
    step s = .next { s with now := if s.tim.td1 = true ∨ s.tim.holdover = .active then s.now + 1 else s.now }

/-- From every state that meets the invariant (every table of drives, parameters, timebases, pairs, rings, directory
entries, sources, compares, emulations, sequences, slices, contexts, Registration instances and capture buffers lists
each key once and rising, and byte memory is in canonical form), a step answers a next state that meets it too. The
part is the same, and the queue is the same without its front. -/
def Obligations.StepKeepsInvariant : Prop :=
  ∀ s : State, Inv s → ∃ t, step s = .next t ∧ Inv t ∧ t.part = s.part ∧ t.pending = s.pending.tail

/-- State.reset meets the invariant: its tables list each key once and its memory is in canonical form. -/
def Obligations.ResetMeetsInvariant : Prop :=
  Inv State.reset

/-- State.reset is in BOOT with global time 0, every drive without an architecture and IDLE, no fault latch and no
trip latch, no tag in use, no reply, no event and no log entry. Every parameter of every unit holds the Reset value of
its chapter. OWN_N is released and no DSCH pin is asserted. The part is the model's choice (log 1). -/
def Obligations.ResetValues : Prop :=
  State.reset.op = .boot ∧ State.reset.now = 0 ∧ (∀ d, State.reset.drive d = {}) ∧ State.reset.so.latches = [] ∧
  State.reset.hatch.latch = 0 ∧ State.reset.folio.tags = [] ∧ State.reset.folio.replies = [] ∧
  State.reset.folio.events = [] ∧ State.reset.book.log = [] ∧ State.reset.book.inq = [] ∧
  (∀ u i, parGet State.reset u i = paramReset u i) ∧ State.reset.so.ownN = false ∧ State.reset.so.dsch = 0 ∧
  State.reset.pending = []

/-- For every state in which the command may start: IDENTIFY completes with OK and six words, of which the second is
the presence word of the part, the third the firmware version and the sixth 1; GET_STATUS completes with OK and eight
words, the low three bits of the first the code of the operating state, bit 3 SAFE_LOCKED, and the last two global
time; GET_PARAM of any list of valid entries of units 0, 1, 3, 5, 12, 13, 14 and 15 completes with OK and, for each
entry in order, its address word and the value of the parameter. Nothing but the Folio unit changes. -/
def Obligations.DeviceReads : Prop :=
  (∀ (s : State) (tag : Nat), Starts s tag 0x01 [] →
    ∃ t a b c, exec (.identify tag) s = .next t ∧
      Replied s t tag 0 [a, presence s.part, s.plate.version, b, c, 1] ∧ t = { s with folio := t.folio }) ∧
  (∀ (s : State) (tag : Nat), Starts s tag 0x02 [] →
    ∃ t w ws, exec (.getStatus tag) s = .next t ∧ Replied s t tag 0 (w :: ws ++ [wrd s.now, wrd (s.now / 2 ^ 32)]) ∧
      ws.length = 5 ∧ field w 2 0 = opCode s.op ∧ wbit w 3 = s.safeLocked ∧ t = { s with folio := t.folio }) ∧
  (∀ (s : State) (tag : Nat) (l : List Word), Starts s tag 0x03 l → s.op ≠ .shutdown →
    (∀ a ∈ l, getBad s a = false ∧ isAbsent s (adUnit a) (adIndex a) = false ∧
      adUnit a ∈ [0, 1, 3, 5, 12, 13, 14, 15]) →
    ∃ t, exec (.getParam tag) s = .next t ∧
      Replied s t tag 0 (l.flatMap fun a => [a, readParam s (adUnit a) (adIndex a)]) ∧
      t = { s with folio := t.folio })

/-- For every state in which the receiver is open and every header whose HCRC matches, outside BOOT and the BUSY
phases of SHUTDOWN, with a listed opcode, KIND 1, reserved bits 0, the opcode's present unit, a LENGTH in its range, a
TAG that is neither 0x3FF nor in use and a free entry: FOLIO_HEADER drives ACCEPT code 9, adds the tag's entry behind
the others, waits for its packet and restarts the host's interval. Nothing but the Folio unit and the presence of the
Folio clock changes. -/
def Obligations.HeaderAccepted : Prop :=
  ∀ (s : State) (hdr : BitVec 64) (i : OpInfo), laneOpen s = true → headerCrc hdr = hCrc hdr → s.op ≠ .boot →
    burnBusy s = false → opInfo (hOpcode hdr) = some i → hKind hdr = 1 → hfield hdr 47 41 = 0 → hUnit hdr = i.unit →
    unitPresent s.part i.unit = true → i.lo ≤ hLength hdr → hLength hdr ≤ i.hi → hTag hdr ≠ 0x3FF →
    (∀ e ∈ s.folio.tags, e.tag ≠ hTag hdr) → s.folio.tags.length < tagLimit s (hOpcode hdr) →
    ∃ t e, exec (.folioHeader hdr) s = .next t ∧ t.folio.accept = 9 ∧ t.folio.tags = s.folio.tags ++ [e] ∧
      e.tag = hTag hdr ∧ e.opcode = hOpcode hdr ∧ e.unit = hUnit hdr ∧ e.len = hLength hdr ∧ e.phase = .receiving ∧
      t.folio.rx = some (hTag hdr) ∧ t.folio.lane = .packet ∧ t.folio.hostBase = s.now ∧ t.folio.hostSilent = false ∧
      t.folio.replies = s.folio.replies ∧ t.folio.events = s.folio.events ∧
      t = { s with folio := t.folio, tim := { s.tim with td3 := true } }

/-- For every state in which the receiver is open. A header whose HCRC does not match gives code 11 and counts
ERR_HCRC. One with a good HCRC gives code 10 in BOOT; and outside BOOT and the BUSY phases of SHUTDOWN code 13 for an
opcode that no table lists, 14 for a listed one with KIND 1 and reserved bits 0 that names an absent unit, 15 for a
length outside its opcode's range, 12 for TAG 0x3FF or one in use, and 10 when its entries are full. No tag entry is
made, the rest of the packet is ignored, and nothing but the Folio unit, its counters and ATTN_CAUSE, and the presence
of the Folio clock changes. -/
def Obligations.HeaderRefused : Prop :=
  ∀ (s : State) (hdr : BitVec 64), laneOpen s = true →
    (headerCrc hdr ≠ hCrc hdr → ∃ t, exec (.folioHeader hdr) s = .next t ∧ Turned s t 11 ∧
      parGet t 1 8 = counted (parGet s 1 8) 1) ∧
    (headerCrc hdr = hCrc hdr →
      (s.op = .boot → ∃ t, exec (.folioHeader hdr) s = .next t ∧ Turned s t 10) ∧
      (s.op ≠ .boot → burnBusy s = false →
        (opInfo (hOpcode hdr) = none → ∃ t, exec (.folioHeader hdr) s = .next t ∧ Turned s t 13 ∧
          parGet t 1 0xD = counted (parGet s 1 0xD) 1) ∧
        (∀ i, opInfo (hOpcode hdr) = some i → hKind hdr = 1 → hfield hdr 47 41 = 0 →
          (unitPresent s.part (hUnit hdr) = false → ∃ t, exec (.folioHeader hdr) s = .next t ∧ Turned s t 14) ∧
          (hUnit hdr = i.unit → unitPresent s.part i.unit = true →
            (hLength hdr < i.lo ∨ i.hi < hLength hdr → ∃ t, exec (.folioHeader hdr) s = .next t ∧ Turned s t 15) ∧
            (i.lo ≤ hLength hdr → hLength hdr ≤ i.hi →
              ((hTag hdr = 0x3FF ∨ ∃ e ∈ s.folio.tags, e.tag = hTag hdr) →
                ∃ t, exec (.folioHeader hdr) s = .next t ∧ Turned s t 12) ∧
              (hTag hdr ≠ 0x3FF → (∀ e ∈ s.folio.tags, e.tag ≠ hTag hdr) →
                tagLimit s (hOpcode hdr) ≤ s.folio.tags.length →
                ∃ t, exec (.folioHeader hdr) s = .next t ∧ Turned s t 10 ∧
                  parGet t 1 0xC = counted (parGet s 1 0xC) 1))))))

/-- For every state. PACKET_END of the command in reception, of the length its header gave, with a good CRC where it
has a payload, makes the command ready with its words, or completes a firmware command with BURNISH after unit 179 has
failed; with a wrong length or CRC it queues one PAYLOAD_CRC reply and counts ERR_PAYLOAD. RUNT_HEADER and
FI_FRM_OVERRUN on an open receiver count ERR_RUNT and ERR_FRAME, set LINK_ERROR in ATTN_CAUSE, and make no tag entry.
Nothing but the Folio unit and those two parameters changes. -/
def Obligations.PacketReception : Prop :=
  ∀ s : State, 
    (∀ (tag : Nat) (e : TagEntry) (ws : List Word) (crc : Word), s.folio.rx = some tag → tag < 1024 →
      tagEntry s tag = some e → e.phase = .receiving → e.spanned = false →
      (ws.length = e.len → (ws ≠ [] → crc = payloadCrc ws) → s.burn.dead = true → opFast e.opcode = false →
        ∃ t, exec (.packetEnd ws crc true) s = .next t ∧ Replied s t tag 0x13 [] ∧ t.folio.rx = none ∧
        t = { s with folio := t.folio }) ∧
      (ws.length = e.len → (ws ≠ [] → crc = payloadCrc ws) → s.burn.dead = false ∨ opFast e.opcode = true →
        ∃ t, exec (.packetEnd ws crc true) s = .next t ∧
        tagEntry t tag = some { e with phase := .ready, payload := ws } ∧ (∀ n, n ≠ tag → tagEntry t n = tagEntry s n) ∧
        t.folio.rx = none ∧ t.folio.lane = .idle ∧ t.folio.replies = s.folio.replies ∧ t = { s with folio := t.folio }) ∧
      (ws.length ≠ e.len ∨ (ws ≠ [] ∧ crc ≠ payloadCrc ws) → ∃ t, exec (.packetEnd ws crc true) s = .next t ∧
        Replied s t tag 0x18 [] ∧ parGet t 1 9 = counted (parGet s 1 9) 1 ∧ wbit (parGet t 1 5) 5 = true ∧
        t.folio.rx = none ∧ t = { s with folio := t.folio, par := t.par })) ∧
    (laneOpen s = true →
      (∃ t, exec .runtHeader s = .next t ∧ t.folio = { s.folio with lane := .idle, accept := 0 } ∧
        parGet t 1 10 = counted (parGet s 1 10) 1 ∧ wbit (parGet t 1 5) 5 = true ∧
        t = { s with folio := t.folio, par := t.par }) ∧
      (∃ t, exec .fiFrmOverrun s = .next t ∧ t.folio = { s.folio with lane := .ignore } ∧
        parGet t 1 11 = counted (parGet s 1 11) 1 ∧ wbit (parGet t 1 5) 5 = true ∧
        t = { s with folio := t.folio, par := t.par }))

/-- For every state. FOLIO_CLOCK_LOST while awake, outside a reset and with no header in reception, raises CLK_LOST
with index 0 and leaves the receiver lost. FOLIO_CLOCK_RETURN marks the clock present and makes the receiver
resynchronise, and nothing else. HOST_SILENT in STANDBY or RUN, when HOST_TIMEOUT is set and its milliseconds have
passed since the last accepted header, raises HOST_SILENT once, with HOST_TIMEOUT as its argument, and sets
HOST_SILENT in ATTN_CAUSE. That the TD0 milliseconds may be 3 percent short in TD1 ticks is the model's choice (log
55). -/
def Obligations.HostSupervision : Prop :=
  ∀ s : State, 
    (s.folio.lane ≠ .lost → s.pwr.sleep = .awake → s.folio.inReset = false → s.folio.rx = none →
      ∃ t, exec (.folioClockLost false false) s = .next t ∧ Raised s t 0x0102 0 [] ∧ t.folio.lane = .lost ∧
        t.tim.td3 = false ∧ t.folio.tags = s.folio.tags ∧ t.folio.replies = s.folio.replies ∧ t.nv = s.nv ∧
        t.mem.cells = s.mem.cells) ∧
    (s.folio.lane = .lost → exec .folioClockReturn s =
      .next { s with folio := { s.folio with lane := .resync }, tim := { s.tim with td3 := true } }) ∧
    (inService s.op = true → s.pwr.sleep = .awake → s.pwr.resetting = none → s.folio.hostSilent = false →
      parField s 1 3 15 0 ≠ 0 → s.folio.hostBase + 3880 * parField s 1 3 15 0 ≤ s.now →
      ∃ t, exec .hostSilent s = .next t ∧ Raised s t 0x0103 0 [parGet s 1 3] ∧ t.folio.hostSilent = true ∧
        wbit (parGet t 1 5) 4 = true ∧ t.folio.tags = s.folio.tags ∧ t.nv = s.nv ∧ t.mem.cells = s.mem.cells)

/-- For every state. On a free lane with no rate change waiting, PACKET_SEND takes the oldest event packet when one
waits, no EVENT_LOST is pending and fewer than 8 events have gone in a row, or no reply waits; and otherwise the
oldest reply. PACKET_SENT has no effect before the cycles of FO_CLK that carry the packet's nibbles have passed. Then,
of a reply, it frees its tag and leaves the other entries; of an event it frees the front event entry. FO_CLK_RESTART,
2 µs after the stop, takes the new rate and holds the lane, and FO_FIRST_PACKET_HOLD lets it go 1 µs later. Each
changes the Folio unit alone, but that a freed event entry may let the next record in. -/
def Obligations.ReplyLane : Prop :=
  ∀ s : State,
    (laneFree s = true → s.folio.rateCh = .none →
      (∀ e es, s.folio.events = e :: es → lostWaiting s = 0 → (s.folio.evRun < 8 ∨ s.folio.replies = []) →
        exec .packetSend s =
          .next { s with folio := { s.folio with onLane := some (.event e), laneTick := s.now, evRun := s.folio.evRun + 1 } }) ∧
      (∀ r rs, s.folio.replies = r :: rs → (s.folio.events = [] ∨ lostWaiting s ≠ 0 ∨ 8 ≤ s.folio.evRun) →
        exec .packetSend s = .next { s with folio := { s.folio with onLane := some (.reply r), laneTick := s.now, evRun := 0 } })) ∧
    (∀ p, s.folio.onLane = some p → foCycles s (laneNibbles (packetWords p)).length s.folio.laneTick = false →
      exec .packetSent s = .next s) ∧
    (∀ r, s.folio.onLane = some (.reply r) → foCycles s (laneNibbles (packetWords (.reply r))).length s.folio.laneTick = true →
      s.pwr.resetDue = none → s.pwr.sleepDue = false → s.folio.rateCh = .none →
      s.folio.span = none →
      ∃ t, exec .packetSent s = .next t ∧ t.folio.onLane = none ∧ t.folio.laneEnd = some s.now ∧
        t.folio.replies = s.folio.replies.tail ∧
        tagEntry t r.tag = none ∧ (∀ n, n ≠ r.tag → tagEntry t n = tagEntry s n) ∧ t = { s with folio := t.folio }) ∧
    (∀ e, s.folio.onLane = some (.event e) → foCycles s (laneNibbles (packetWords (.event e))).length s.folio.laneTick = true →
      s.folio.lost = 0 → lostWaiting s = 0 → s.folio.events ≠ [] →
      ∃ t, exec .packetSent s = .next t ∧ t.folio.onLane = none ∧ t.folio.laneEnd = some s.now ∧ t.folio.events = s.folio.events.tail ∧
        t.folio.tags = s.folio.tags) ∧
    (∀ r n, s.folio.rateCh = .stopped r n → exec .foClkRestart s = if s.now < s.folio.rateTick + 800 then .next s else
      .next { s with folio := { s.folio with rate := r, rateCh := .hold n, rateTick := s.now } }) ∧
    (s.folio.rateCh = .hold none → exec .foFirstPacketHold s = if s.now < s.folio.rateTick + 400 then .next s else .next { s with folio := { s.folio with rateCh := .none } })

/-- For every state in which the command may start. SET_PARAM of one entry that no code refuses, of the Device,
Timing, Stipple, Margin, Burnish or Thermal unit, completes with OK and leaves in the parameter its old value in the
bits that cannot be written and the written one in those that can; SET_PARAM_BLOCK of the same address and one value
does the same. SET_PARAM with an odd number of words, or an entry that names no parameter, completes with BAD_PARAM
and changes nothing but the Folio unit. -/
def Obligations.SetParameters : Prop :=
  ∀ (s : State) (tag : Nat) (a v : Word) (p : ParamInfo), 
    (∀ x ∈ writeCodes s a v, x.1 = false) → adUnit a ∈ [0, 2, 6, 11, 12, 14] → paramInfo (adUnit a) (adIndex a) = some p →
    p.counter = false → p.w1c = 0 →
    (Starts s tag 0x04 [a, v] → ∃ t, exec (.setParam tag) s = .next t ∧ Replied s t tag 0 [] ∧ Stored s t p a v ∧
      t = { s with folio := t.folio, par := t.par }) ∧
    (Starts s tag 0x05 [a, v] → ∃ t, exec (.setParamBlock tag) s = .next t ∧ Replied s t tag 0 [] ∧ Stored s t p a v ∧
      t = { s with folio := t.folio, par := t.par }) ∧
    (∀ a', paramInfo (adUnit a') (adIndex a') = none → Starts s tag 0x04 [a', v] → ∃ t, exec (.setParam tag) s = .next t ∧
      Replied s t tag 0x10 [] ∧ t = { s with folio := t.folio }) ∧
    (Starts s tag 0x04 [a, v, 0] → ∃ t, exec (.setParam tag) s = .next t ∧
      Replied s t tag 0x10 [] ∧ t = { s with folio := t.folio })

/-- For every state in which nothing refuses the read. Reading TIME_LO stores bits 63 to 32 of global time for
TIME_HI; RETIRED_LO those of the retired count of Plate for RETIRED_HI; CAP_STOP_LO of a buffer those of its stop tick
for CAP_STOP_HI; in each case nothing else changes. Reading ANGLE of a source captures its turns, speed, direction,
validity and sample tick with its angle. Reading word 0 of a directory entry whose stored words carry no error
captures its eight words. -/
def Obligations.CapturingReads : Prop :=
  ∀ s : State, 
    (ReadPasses s 2 0 → ∃ t, exec .timeLoRead s = .next t ∧ parGet t 2 1 = wrd (s.now / 2 ^ 32) ∧
      OthersKept s t 2 1 ∧ t = { s with par := t.par }) ∧
    (ReadPasses s 8 1 → ∃ t, exec .retiredLoRead s = .next t ∧ parGet t 8 2 = wrd (s.plate.retP / 2 ^ 32) ∧
      OthersKept s t 8 2 ∧ t = { s with par := t.par }) ∧
    (∀ b, b < 4 → ReadPasses s 10 (0x105 + 8 * b) → ∃ t, exec (.capStopLoRead b) s = .next t ∧
      parGet t 10 (0x106 + 8 * b) = wrd ((s.cap b).stopTick / 2 ^ 32) ∧ OthersKept s t 10 (0x106 + 8 * b) ∧
      t = { s with par := t.par }) ∧
    (∀ n, n < 12 → ReadPasses s 4 (0x109 + 16 * n) → ∃ t, exec (.angleRead n) s = .next t ∧
      (t.src n).held.angle = (s.src n).p.toNat % 2 ^ 32 ∧ (t.src n).held.turns = (s.src n).p.toNat / 2 ^ 32 ∧
      (t.src n).held.speed = (s.src n).speed ∧ (t.src n).held.tick = (s.src n).tick ∧
      ((t.src n).held.valid = true ↔ (s.src n).fault = false) ∧ t.src n = { s.src n with held := (t.src n).held } ∧
      (∀ m, m ≠ n → t.src m = s.src m) ∧ t = { s with pos := { s.pos with srcs := t.pos.srcs } }) ∧
    (∀ d, d < 4096 → ReadPasses s 6 (0x8000 + 8 * d) → errAt s (dirAddr d 0) = .none →
      exec (.directoryEntryRead d) s =
        .next { s with stip := { s.stip with heldEntry := some (d, entryWords s d) } })

/-- For every state and every write that nothing refuses: FAST_RESERVE, CONFIG_LOCK, a temperature threshold and a map
parameter take the written value in their writable bits, every other parameter stays, and nothing else changes;
DRV_POS also restarts the drive's mismatch count, EMU_CTRL marks its output fresh, and SPLIT_TASK gives the task
number and its tick, and sets the result to 1, or to 0 for task 0. A PARAM_WRITE of a plain parameter of the Device,
Timing, Stipple, Margin, Burnish or Thermal unit stores it. That a write of DRV_POS restarts the count is the model's
reading (log 57). -/
def Obligations.PlainWrites : Prop :=
  ∀ (s : State) (v : Word), 
    (WritePasses s 1 2 v → ∃ t, exec (.fastReserveWrite v) s = .next t ∧ parGet t 1 2 &&& 0x1FF = v &&& 0x1FF ∧
      OthersKept s t 1 2 ∧ t = { s with par := t.par }) ∧
    (WritePasses s 0 7 v → ∃ t, exec (.configLockWrite v) s = .next t ∧ wbit (parGet t 0 7) 0 = wbit v 0 ∧
      OthersKept s t 0 7 ∧ t = { s with par := t.par }) ∧
    (∀ w, w < 2 → WritePasses s 14 (2 + w) v → ∃ t, exec (.thresholdWrite w v) s = .next t ∧ parGet t 14 (2 + w) = v ∧
      OthersKept s t 14 (2 + w) ∧ t = { s with par := t.par }) ∧
    (∀ m w, m < 4 → w < 5 → WritePasses s 7 (0x20 + 8 * m + w) v → ∃ t, exec (.mapParamWrite m w v) s = .next t ∧
      parGet t 7 (0x20 + 8 * m + w) &&& (if w = 0 then 0x00FF3F13 else 0xFFFFFFFF) = v ∧ OthersKept s t 7 (0x20 + 8 * m + w) ∧ t = { s with par := t.par }) ∧
    (∀ d, d < 4 → WritePasses s 4 (0x10 + d) v → ∃ t, exec (.drvPosWrite d v) s = .next t ∧ parGet t 4 (0x10 + d) = v ∧
      OthersKept s t 4 (0x10 + d) ∧ t = { s with par := t.par, pos := { s.pos with mism := t.pos.mism } }) ∧
    (∀ n, n < 2 → WritePasses s 4 (0x20 + n) v → ∃ t, exec (.emuCtrlWrite n v) s = .next t ∧
      parGet t 4 (0x20 + n) &&& 0xC1FFFFFF = v &&& 0xC1FFFFFF ∧ (t.emu n).fresh = true ∧ OthersKept s t 4 (0x20 + n) ∧
      t = { s with par := t.par, pos := { s.pos with emus := t.pos.emus } }) ∧
    (WritePasses s 8 0xB v → ∃ t, exec (.splitTaskWrite v) s = .next t ∧
      t.plate = { s.plate with task := field v 7 0, taskTick := s.now, taskResult := if field v 7 0 = 0 then 0 else 1 } ∧
      OthersKept s t 8 0xB ∧ t = { s with par := t.par, plate := t.plate }) ∧
    (∀ u i p, u ∈ [0, 2, 6, 11, 12, 14] → WritePasses s u i v → paramInfo u i = some p → p.counter = false → p.w1c = 0 →
      ∃ t, exec (.paramWrite u i v) s = .next t ∧ Stored s t p (wrd (u * 2 ^ 16 + i)) v ∧ t = { s with par := t.par })

/-- For every state and every write that nothing refuses. SEQ_SOFT_TRIGGER while awake sends a trigger of this tick,
with the stored list and the inputs as they stand, to exactly the enabled sequences named, and changes nothing else.
SEQ_ENABLE stores bit 31, and a write of 0 withdraws every trigger that is due or pending. ROT_EN stored with bit 16
starts an idle calibration. WC_CTRL stores its word; with both sides disabled and its output inactive nothing else
changes but the thresholds that still settle, the state of its sides and the free value. A changed FO_RATE, with no
change under way, waits with its rate for the lane. -/
def Obligations.ConverterWrites : Prop :=
  ∀ (s : State) (v : Word), 
    (WritePasses s 3 0x10 v → s.pwr.sleep = .awake → ∃ t, exec (.seqSoftTrigger v) s = .next t ∧
      (∀ n, n < 32 → t.sequ n = (if wbit v n && seqEnabled s n then { s.sequ n with
        due := (s.sequ n).due ++ [(s.now, seqStored (s.sequ n), takeSnap s)] } else s.sequ n)) ∧
      t = { s with conv := { s.conv with seqs := t.conv.seqs } }) ∧
    (∀ n, n < 32 → WritePasses s 3 (0x100 + n) v → ∃ t, exec (.seqEnableWrite n v) s = .next t ∧
      seqEnabled t n = wbit v 31 ∧ OthersKept s t 3 (0x100 + n) ∧
      t.sequ n = (if wbit v 31 then s.sequ n else { s.sequ n with due := [], pend := none }) ∧
      (∀ m, m ≠ n → t.sequ m = s.sequ m) ∧
      t = { s with par := t.par, conv := { s.conv with seqs := t.conv.seqs, slices := t.conv.slices } }) ∧
    (WritePasses s 3 0 v → ∃ t, exec (.rotEnWrite v) s = .next t ∧ parGet t 3 0 &&& 0x1FFFF = v &&& 0x1FFFF ∧
      OthersKept s t 3 0 ∧ (wbit v 16 = true → s.conv.phase = .idle → t.conv = { s.conv with
        phase := .selfCal, pairs := 0, sum := 0, lapStart := if s.conv.target = 0 then s.now else s.conv.lapStart }) ∧
      (wbit v 16 = false ∨ s.conv.phase ≠ .idle → t.conv = s.conv) ∧ t = { s with par := t.par, conv := t.conv }) ∧
    (∀ n, n < 24 → WritePasses s 3 (0x300 + n) v →
      ∃ t, exec (.wcCtrlWrite n v) s = .next t ∧ parGet t 3 (0x300 + n) &&& 0xC3FFFFFF = v &&& 0xC3FFFFFF ∧
        (wbit v 31 = false → wbit v 30 = false → s.conv.wcLevel.testBit n = false → OthersKept s t 3 (0x300 + n) ∧
          t = { s with par := t.par, free := t.free, conv := { s.conv with
            wcOld := t.conv.wcOld, wcHi := t.conv.wcHi, wcLo := t.conv.wcLo } })) ∧
    (WritePasses s 1 0 v → s.folio.rateCh = .none → ∃ t, exec (.foRateWrite v) s = .next t ∧
      parGet t 1 0 &&& 7 = v &&& 7 ∧ OthersKept s t 1 0 ∧
      t.folio = { s.folio with rateCh := if field v 2 0 = s.folio.rate then .none else .waiting none (field v 2 0) } ∧
      t = { s with par := t.par, folio := t.folio })

/-- For every state and every write that nothing refuses. TB_CFG with ENABLE on a stopped timebase that carries no
drive and that none follows starts its period now and counts it in PERIOD_COUNT; without ENABLE, on a timebase that
carries no drive, it stops it. A write of the SYNC fields, of PER or of a compare on a timebase that is stopped or
whose offset lies within the new period stores the word, leaves the period as it started, and changes nothing but the
pairs of Hatch, their clamp flags and counters, and the note of the write; a PER or compare that the modulator front
or HATCH_FRAME has written at this very tick is overtaken and is not meant here. -/
def Obligations.TimebaseWrites : Prop :=
  ∀ (s : State) (tb : Nat) (v : Word), tb < 4 →
    (WritePasses s 5 (0x100 + 16 * tb) v → (∀ d, d < 4 → hasArch (s.drive d) = true → driveTb (s.drive d) ≠ tb) →
      (wbit v 31 = true → (s.tb tb).running = false → (∀ m, m < 4 → follows s m tb = false) → s.marg.hoDue = false →
        (∀ r, r < 16 → (s.ring r).farDue = false) →
        ∃ t, exec (.tbEnableWrite tb v) s = .next t ∧ (t.tb tb).running = true ∧ tbOffset t tb = 0 ∧
          parGet t 5 (0x10B + 16 * tb) = parGet s 5 (0x10B + 16 * tb) + 1 ∧
          parGet t 5 (0x100 + 16 * tb) &&& 0xF9FFFFFF = v &&& 0xF9FFFFFF ∧ (∀ m, m ≠ tb → t.tb m = s.tb m) ∧
          t = { s with par := t.par, hatch := { s.hatch with tbs := t.hatch.tbs, pairs := t.hatch.pairs } }) ∧
      (wbit v 31 = false → ∃ t, exec (.tbEnableWrite tb v) s = .next t ∧ (t.tb tb).running = false ∧
          parGet t 5 (0x100 + 16 * tb) &&& 0xF9FFFFFF = v &&& 0xF9FFFFFF ∧ (∀ m, m ≠ tb → t.tb m = s.tb m) ∧
          t = { s with par := t.par, hatch := { s.hatch with tbs := t.hatch.tbs, pairs := t.hatch.pairs } })) ∧
    (WritePasses s 5 (0x100 + 16 * tb) v → wbit v 31 = true → (s.tb tb).running = true →
      tbOffset s tb < perLen (cfgUpDown v) (tbPer s tb) →
      ∃ t, exec (.syncWrite tb v) s = .next t ∧ parGet t 5 (0x100 + 16 * tb) &&& 0xF9FFFFFF = v &&& 0xF9FFFFFF ∧
        OthersKept s t 5 (0x100 + 16 * tb) ∧
        t = { s with par := t.par, hatch := { s.hatch with pairs := t.hatch.pairs } }) ∧
    (WritePasses s 5 (0x101 + 16 * tb) v → overtaken s tb 6 0 = false →
      ((s.tb tb).running = false ∨ tbOffset s tb < perLen (tbUpDown s tb) v.toNat) →
      ∃ t, exec (.perWrite tb v) s = .next t ∧ parGet t 5 (0x101 + 16 * tb) &&& 0xFFFFFF = v &&& 0xFFFFFF ∧
        t.hatch.tbs = s.hatch.tbs ∧
        t = { s with par := t.par, hatch := { s.hatch with pairs := t.hatch.pairs, wrote := t.hatch.wrote } }) ∧
    (∀ k, k < 6 → WritePasses s 5 (0x102 + 16 * tb + k) v → overtaken s tb k 0 = false → ((s.tb tb).running = false ∨ tbOffset s tb < tbLen s tb) →
      ∃ t, exec (.compareWrite tb k v) s = .next t ∧ tbCmp t tb k &&& 0x0FFFFFFF = v &&& 0x0FFFFFFF ∧
        zeroCode t tb k = true ∧
        t = { s with par := t.par, hatch := { s.hatch with
          pairs := t.hatch.pairs, zc := t.hatch.zc, wrote := t.hatch.wrote } })

/-- For every state and every write that nothing refuses. TRIP_ROUTE of a source that is neither active nor latched
stores its word and changes nothing else; on an active source that is not latched, a route that gains an action sets
its latch. PAIR_CFG is stored; without AUTO the chosen dead-time band is in use or waits for the pair's next edge; and
only that pair, its word and the record of a changed band change. MIR_EN set starts an empty mirror and changes
nothing else; cleared, with no host command or Plate store held by LPDDR5, it ends the mirror. LP_RATE and
START_EXPECT change MRAM alone, and hold what was written. -/
def Obligations.PinAndStoreWrites : Prop :=
  ∀ (s : State) (v : Word), 
    (∀ n, n < 32 → WritePasses s 9 (0x100 + n) v → latchSet s n = false →
      (s.hatch.tripIn.testBit n = false → ∃ t, exec (.tripRouteWrite n v) s = .next t ∧
        tripRoute t n &&& 0xCFFFFFFF = v &&& 0xCFFFFFFF ∧ OthersKept s t 9 (0x100 + n) ∧ t = { s with par := t.par }) ∧
      (s.hatch.tripIn.testBit n = true → field (tripRoute s n) 31 30 = 0 → field v 31 30 ≠ 0 →
        ∃ t, exec (.tripRouteWrite n v) s = .next t ∧ tripRoute t n &&& 0xCFFFFFFF = v &&& 0xCFFFFFFF ∧ latchSet t n = true)) ∧
    (∀ p, p < 12 → WritePasses s 5 (0x200 + 16 * p) v → ∃ t, exec (.pairCfgWrite p v) s = .next t ∧ pairCfg t p = v ∧
        (wbit v 19 = false → (t.pair p).newBand.getD (t.pair p).band = field v 23 21) ∧
        OthersKept s t 5 (0x200 + 16 * p) ∧ (∀ q, q ≠ p → t.pair q = s.pair q) ∧
        t = { s with par := t.par, hatch := { s.hatch with pairs := t.hatch.pairs },
                     book := { s.book with inq := t.book.inq } }) ∧
    (WritePasses s 13 4 v →
      (wbit v 31 = true → mirOn s = false → ∃ t, exec (.mirEnWrite v) s = .next t ∧ mirOn t = true ∧ OthersKept s t 13 4 ∧
        t = { s with par := t.par, book := { s.book with mirActive := true, mirFull := false, mirWrapped := false, mirIndex := 0, mirQueue := [] } }) ∧
      (wbit v 31 = mirOn s → ∃ t, exec (.mirEnWrite v) s = .next t ∧ mirOn t = wbit v 31 ∧ OthersKept s t 13 4 ∧
        t = { s with par := t.par }) ∧
      (wbit v 31 = false → mirOn s = true → s.mem.lpWait = [] → s.mem.lpStore = [] → ∃ t, exec (.mirEnWrite v) s = .next t ∧
        mirOn t = false ∧ OthersKept s t 13 4 ∧ t.mem.cells = s.mem.cells ∧
        t = { s with par := t.par, book := { s.book with mirActive := false, mirQueue := [] }, mem := t.mem })) ∧
    (WritePasses s 10 1 v → ∃ t, exec (.lpRateWrite v) s = .next t ∧ nvGet t 10 1 = v &&& 0xC0000000 ∧
        t = { s with nv := t.nv }) ∧
    (∀ r, r < 16 → WritePasses s 15 (0x100 + r) v → ∃ t, exec (.startExpectWrite r v) s = .next t ∧
        nvGet t 15 (0x100 + r) &&& 0x1FF = v &&& 0x1FF ∧ t = { s with nv := t.nv })

/-- For every state in which the command may start, and every drive d below 4. CONFIGURE of a drive that is neither
running nor stopping, with masks that R2, R8 and R113 allow, completes with OK: the drive takes the architecture and
the configuration word, or has none, every other drive stays, and each pair of the drive takes its timebase. RUN of a
drive that nothing forbids completes with OK: the drive is in RUN, so is the device, and the drive's timebase runs.
STOP of a running drive completes with OK: it is STOPPING from now on, and nothing else changes. RUN while ENABLE is
low completes with STATE and changes nothing but the Folio unit. -/
def Obligations.ModeEffects : Prop :=
  ∀ (s : State) (tag d : Nat), d < 4 →
    (∀ c, Starts s tag 0x10 [wrd d, c] → (s.drive d).dst ≠ .run → (s.drive d).dst ≠ .stopping → configOk s d c = true →
      ∃ t, exec (.mode tag) s = .next t ∧ Replied s t tag 0 [] ∧ (t.drive d).arch = archOf c ∧
        (archOf c ≠ .none → t.drive d = { s.drive d with arch := archOf c, cfg := c }) ∧
        (∀ o, o ≠ d → t.drive o = s.drive o) ∧
        (∀ p, p < 12 → driveHasPair (t.drive d) p = true → pairTb t p = field c 3 2) ∧
        t = { s with folio := t.folio, drives := t.drives, par := t.par, hatch := { s.hatch with pairs := t.hatch.pairs } }) ∧
    (Starts s tag 0x10 [wrd (d + 4)] → runForbidden s d = false → (s.drive d).dst ≠ .stopping →
      driveTripLatched s d = false →
      ∃ t, exec (.mode tag) s = .next t ∧ Replied s t tag 0 [] ∧ (t.drive d).dst = .run ∧ t.op = .run ∧
        (t.tb (driveTb (s.drive d))).running = true ∧
        ((s.tb (driveTb (s.drive d))).running = true → ∀ o, o ≠ d → t.drive o = s.drive o) ∧
        t.conv = s.conv ∧ t.plate = s.plate ∧ t.nv = s.nv ∧ t.mem.cells = s.mem.cells) ∧
    (Starts s tag 0x10 [wrd (d + 8)] → (s.drive d).dst = .run →
      ∃ t, exec (.mode tag) s = .next t ∧ Replied s t tag 0 [] ∧
        t.drive d = { s.drive d with dst := .stopping, ts := s.now, stopDue := false } ∧
        (∀ o, o ≠ d → t.drive o = s.drive o) ∧ t = { s with folio := t.folio, drives := t.drives }) ∧
    (Starts s tag 0x10 [wrd (d + 4)] → s.so.enable = false →
      ∃ t, exec (.mode tag) s = .next t ∧ Replied s t tag 0x11 [] ∧ t = { s with folio := t.folio })

/-- For every state in which the command may start, and every drive d below 4 with an architecture. SAFE_STATE with
SS1 or SS2, when d is not discharging, completes with OK: d is in that safe state with the cause of a command, every
other drive with an architecture is in a safe state, and the device is in SAFE. DISCHARGE of a drive that can
discharge and is neither running, stopping nor discharging completes with OK, with d in SS3, discharging from now on,
DSCH of a direct drive asserted, and the device in SAFE. CLEAR_FAULT completes with OK when no latch refuses it, no
trip latch is set and no drive is discharging or stopping: no fault latch and no FAULT_LATCHED is left, DSCH is
released, FAULT_CLEARED is raised, the device is in STANDBY, and a drive in a safe state is IDLE, or waits for the
next period start of its timebase. -/
def Obligations.SafeStateCommands : Prop :=
  ∀ (s : State) (tag d : Nat), d < 4 →
    (∀ ss, 1 ≤ ss → ss < 3 → Starts s tag 0x13 [wrd (d + 16 * ss)] → hasArch (s.drive d) = true →
      (s.drive d).discharging = false →
      ∃ t, exec (.safeState tag) s = .next t ∧ Replied s t tag 0 [] ∧ t.op = .safe ∧ (t.drive d).dst = ssOf ss ∧
        (t.drive d).cause = 0 ∧ (∀ o, o < 4 → hasArch (s.drive o) = true → ssRank (t.drive o).dst ≠ 0) ∧
        t.conv = s.conv ∧ t.plate = s.plate ∧ t.nv = s.nv ∧ t.mem.cells = s.mem.cells) ∧
    (Starts s tag 0x16 [wrd d] → hasArch (s.drive d) = true → (s.drive d).dst ≠ .run → (s.drive d).dst ≠ .stopping →
      (s.drive d).discharging = false → noDischarge s d = false →
      ∃ t, exec (.discharge tag) s = .next t ∧ Replied s t tag 0 [] ∧ t.op = .safe ∧ (t.drive d).dst = .ss3 ∧
        (t.drive d).discharging = true ∧ (t.drive d).ts = s.now ∧
        (isDirect (s.drive d) = true → t.so.dsch.testBit d = true) ∧
        (∀ o, o < 4 → hasArch (s.drive o) = true → ssRank (t.drive o).dst ≠ 0) ∧
        t.conv = s.conv ∧ t.plate = s.plate ∧ t.nv = s.nv ∧ t.mem.cells = s.mem.cells) ∧
    (Starts s tag 0x14 [] → (∀ l ∈ s.so.latches, l.resetOnly = false ∧ clearHolds s l = true) → s.hatch.latch = 0 →
      (∀ o, o < 4 → (s.drive o).discharging = false ∧ (s.drive o).dst ≠ .stopping) →
      ∃ t, exec (.clearFault tag) s = .next t ∧ Replied s t tag 0 [] ∧ t.op = .standby ∧ t.so.latches = [] ∧
        t.so.dsch = 0 ∧ Raised s t 0x0907 0 [] ∧
        (∀ o, o < 4 → (t.drive o).faultLatched = false ∧ (ssRank (s.drive o).dst ≠ 0 →
          (if periodNow s (driveTb (s.drive o)) = true then (t.drive o).dst = .idle else (t.drive o).clearDue = true))) ∧
        t.conv = s.conv ∧ t.plate = s.plate ∧ t.nv = s.nv ∧ t.mem.cells = s.mem.cells)

/-- For every state in which the command may start. TORQUE_SET of a finite value for a drive with an architecture
completes with OK and stores it, and nothing else changes; for a drive without one it completes with BAD_PARAM and
changes nothing but the Folio unit. CLEAR_TRIP of a non-zero mask whose inputs are all inactive completes with OK and
the word 0, and each of the 32 trip latches is set after it exactly when it was set and is not named; with an input of
the mask active it completes with TRIP_ACTIVE and the active inputs of the mask, and changes nothing but the Folio
unit. -/
def Obligations.TorqueAndTrips : Prop :=
  ∀ (s : State) (tag : Nat), 
    (∀ d x, d < 4 → Starts s tag 0x11 [wrd d, x] → fFinite x = true →
      (hasArch (s.drive d) = true → ∃ t, exec (.torqueSet tag) s = .next t ∧ Replied s t tag 0 [] ∧
        t.drive d = { s.drive d with torque := x } ∧ (∀ o, o ≠ d → t.drive o = s.drive o) ∧
        t = { s with folio := t.folio, drives := t.drives }) ∧
      (hasArch (s.drive d) = false → ∃ t, exec (.torqueSet tag) s = .next t ∧ Replied s t tag 0x10 [] ∧
        t = { s with folio := t.folio })) ∧
    (∀ m : Word, Starts s tag 0x15 [m] → m ≠ 0 →
      (m.toNat &&& s.hatch.tripIn = 0 → ∃ t, exec (.clearTrip tag) s = .next t ∧ Replied s t tag 0 [0] ∧
        (∀ n, n < 32 → latchSet t n = (latchSet s n && !wbit m n)) ∧
        t = { s with folio := t.folio, hatch := { s.hatch with latch := t.hatch.latch, pairs := t.hatch.pairs } }) ∧
      (m.toNat &&& s.hatch.tripIn ≠ 0 → ∃ t, exec (.clearTrip tag) s = .next t ∧
        Replied s t tag 0x14 [wrd (m.toNat &&& s.hatch.tripIn)] ∧ t = { s with folio := t.folio }))

/-- For every state in which the command may start. CTX_LOAD of an image that passes its checks into an EMPTY or
LOADED context completes with OK: the context is LOADED with that image, x at X0, its counters 0 and no instance, and
every other context stays. CTX_READ of the image of a context that is not EMPTY whose words carry no mark and no error
completes with OK and its 320 words, and changes nothing but the Folio unit. MAP_LOAD of finite values into a map that
no context uses completes with OK and each value stands at its place, every other place as before. SETPOINT of a
finite value for a component whose target comes from SETPOINT completes with OK and stores it as that component of the
target. -/
def Obligations.GraverStores : Prop :=
  ∀ (s : State) (tag n : Nat), n < 256 →
    (∀ img : List Word, Starts s tag 0x20 (wrd n :: img) → ((s.ctx n).st = .empty ∨ (s.ctx n).st = .loaded) →
      imageOk n { s.ctx n with image := img } = true →
      ∃ t, exec (.ctxLoad tag) s = .next t ∧ Replied s t tag 0 [] ∧ (t.ctx n).st = .loaded ∧ (t.ctx n).image = img ∧
        (t.ctx n).x = ctxX0 (t.ctx n) ∧ (t.ctx n).missRun = 0 ∧ (t.ctx n).misses = 0 ∧ (t.ctx n).evals = 0 ∧
        (t.ctx n).inst = none ∧ (∀ m, m ≠ n → t.ctx m = s.ctx m) ∧
        t = { s with folio := t.folio, grav := { s.grav with ctxs := t.grav.ctxs },
                     mem := { s.mem with marks := t.mem.marks, errs := t.mem.errs } }) ∧
    (Starts s tag 0x23 [wrd (n + 256)] → (s.ctx n).st ≠ .empty → (∀ i, i < 320 → markAt s (ctxAddr n i) = .none ∧ errAt s (ctxAddr n i) = .none) →
      ∃ t, exec (.ctxRead tag) s = .next t ∧
        Replied s t tag 0 (padTo (s.ctx n).image 320 320 ++ List.replicate 10 0) ∧ t = { s with folio := t.folio }) ∧
    (∀ m first (vs : List Word), m < 4 → first < 1536 → Starts s tag 0x24 (wrd (first * 65536 + m) :: vs) →
      mapInUse s m = false → vs.length % 2 = 0 → first + vs.length / 2 ≤ 1536 → (∀ v ∈ vs, fFinite v = true) →
      ∃ t, exec (.mapLoad tag) s = .next t ∧ Replied s t tag 0 [] ∧
        (∀ i, i < vs.length → tblGet t.grav.maps 0 (3072 * m + 2 * first + i) = vs.getD i 0) ∧
        (∀ k, (k < 3072 * m + 2 * first ∨ 3072 * m + 2 * first + vs.length ≤ k) →
          tblGet t.grav.maps 0 k = tblGet s.grav.maps 0 k) ∧
        t = { s with folio := t.folio, grav := { s.grav with maps := t.grav.maps },
                     mem := { s.mem with marks := t.mem.marks, errs := t.mem.errs } }) ∧
    (∀ k (v : Word), k < ctxM (s.ctx n) → k < 4 → Starts s tag 0x12 [wrd (n + 256 * k), v] → fFinite v = true →
      (s.ctx n).st ≠ .empty → refSrc (s.ctx n) k = 0 →
      ∃ t, exec (.setpoint tag) s = .next t ∧ Replied s t tag 0 [] ∧ at0 (t.ctx n).tgt k = v ∧
        (∀ j, j < 4 → j ≠ k → at0 (t.ctx n).tgt j = at0 (s.ctx n).tgt j) ∧ (∀ m, m ≠ n → t.ctx m = s.ctx m) ∧
        t = { s with folio := t.folio, grav := { s.grav with ctxs := t.grav.ctxs } })

/-- For every state in which the command may start. CTX_ENABLE of one FAULTED context whose chain and destinations are
in order completes with OK and the word 0: it is ENABLED with no cause and no misses in a row, its enable tick is now,
x is X0 where INIT says so, and no other context changes. CTX_ENABLE of one LOADED context with a named lane that the
schedule admits and whose strings close completes the same way. CTX_DISABLE of one ENABLED or FAULTED context without
an instance in flight and without a live successor completes with OK: it is LOADED, and CTX_STOPPED is raised; while
an instance is in flight the context is STOPPING and the command waits. -/
def Obligations.ContextEnableDisable : Prop :=
  ∀ (s : State) (tag n : Nat) (init : Bool), n < 256 →
    (Starts s tag 0x21 [wrd (n + 256 * b2n init)] → enableBad s [n] n = false →
      destClash s ([n] ++ below 256 fun m => ctxLive (s.ctx m) && !([n].contains m)) = false →
      ((s.ctx n).st = .faulted → ∃ t, exec (.ctxEnable tag) s = .next t ∧ Replied s t tag 0 [0] ∧ Enabled s t n init ∧
        (∀ m, m ≠ n → t.ctx m = s.ctx m) ∧ t = { s with folio := t.folio, grav := { s.grav with ctxs := t.grav.ctxs } }) ∧
      (∀ ws, (s.ctx n).st = .loaded → field (imgW (s.ctx n) 1) 15 8 ≠ 0xFF → s.grav.admLost = false →
        admSchedule s (admCtx s n (field (imgW (s.ctx n) 1) 15 8) :: admLive s) = .inr ws → stringClose s n = true →
        ∃ t, exec (.ctxEnable tag) s = .next t ∧ Replied s t tag 0 [0] ∧ Enabled s t n init ∧
          (∀ m, m ≠ n → (t.ctx m).st = (s.ctx m).st) ∧ t = { s with folio := t.folio, grav := t.grav })) ∧
    (Starts s tag 0x22 [wrd n] → ctxLive (s.ctx n) = true →
      (∀ x, x < 256 → x ≠ n → ctxLive (s.ctx x) = true → ctxIsRoot (s.ctx x) = true ∨ ctxTrig (s.ctx x) ≠ n) →
      (inFlight s n = false → s.grav.waits = [] → ∃ t, exec (.ctxDisable tag) s = .next t ∧ Replied s t tag 0 [] ∧
        (t.ctx n).st = .loaded ∧ Raised s t 0x0704 n [] ∧ (∀ m, m ≠ n → (t.ctx m).st = (s.ctx m).st) ∧
        t.plate = s.plate ∧ t.nv = s.nv ∧ t.mem.cells = s.mem.cells) ∧
      (inFlight s n = true → ∃ t, exec (.ctxDisable tag) s = .next t ∧ Waiting s t tag ∧ (t.ctx n).st = .stopping ∧
        t.grav.waits = s.grav.waits ++ [(tag, [n])] ∧ (∀ m, m ≠ n → t.ctx m = s.ctx m) ∧
        t = { s with folio := t.folio, grav := t.grav }))

/-- For every state. CONTEXT_EVALUATION on a present, free lane, while Graver runs and no mark or error stands in
memory, takes the ready context of the lane with the shortest deadline, at equal deadlines the lowest number, where
that one takes part in arithmetic: its instance is running with the result of the evaluation on the inputs of its root
trigger, the lane is taken, and no other context changes. CONTEXT_WRITEBACK in time of an evaluation without fault
stores x, r, u and e, counts the evaluation, ends the run of misses, frees the lane and leaves the instance written
with its slot values; a late one frees the lane and leaves the running values as they were. -/
def Obligations.EvaluationAndWriteBack : Prop :=
  ∀ (s : State) (n l : Nat) (i : Inst), n < 256 → l < 4 → (s.ctx n).inst = some i →
    (gravRuns s = true → l < laneCount s.part → tblGet s.grav.lanes none l = none → s.mem.marks = [] → s.mem.errs = [] →
      passes (s.ctx n) i.t0 = false → ReadyOn s l n → (∀ m, ReadyOn s l m → m ≠ n → ctxDeadline (s.ctx n) < ctxDeadline (s.ctx m) ∨
        (ctxDeadline (s.ctx n) = ctxDeadline (s.ctx m) ∧ n < m)) →
      ∃ t, exec (.contextEvaluation l) s = .next t ∧ (t.ctx n).st = (s.ctx n).st ∧
        (t.ctx n).inst = some { i with phase := .running, res := some (evalCtx s n i.snap) } ∧
        t.grav.lanes = tblSet s.grav.lanes none l (some n) ∧ (∀ m, m ≠ n → t.ctx m = s.ctx m) ∧
        t = { s with grav := { s.grav with ctxs := t.grav.ctxs, lanes := t.grav.lanes } }) ∧
    (∀ r, tblGet s.grav.lanes none l = some n → (∀ k, k < l → tblGet s.grav.lanes none k ≠ some n) → i.phase = .running →
      i.res = some r →
      (s.now ≤ i.t0 + ctxDeadline (s.ctx n) → r.fault = 0 → (s.ctx n).st = .enabled → passes (s.ctx n) i.t0 = false →
        ∃ t, exec (.contextWriteback n) s = .next t ∧ (t.ctx n).x = r.x ∧ (t.ctx n).r = r.r ∧ (t.ctx n).u = r.u ∧
          (t.ctx n).e = r.e ∧ (t.ctx n).missRun = 0 ∧ (t.ctx n).evals = ((s.ctx n).evals + 1) % 2 ^ 32 ∧
          t.grav.lanes = tblSet s.grav.lanes none l none ∧
          (∃ j, (t.ctx n).inst = some j ∧ j.phase = .written ∧ j.slots = r.slots ∧ j.t0 = i.t0) ∧
          t.plate = s.plate ∧ t.nv = s.nv ∧ t.mem.cells = s.mem.cells) ∧
      (i.t0 + ctxDeadline (s.ctx n) < s.now → ∃ t, exec (.contextWriteback n) s = .next t ∧
          t.ctx n = { s.ctx n with inst := some { i with phase := .waiting } } ∧
          t.grav.lanes = tblSet s.grav.lanes none l none ∧ (∀ m, m ≠ n → t.ctx m = s.ctx m) ∧
          t = { s with grav := { s.grav with ctxs := t.grav.ctxs, lanes := t.grav.lanes } }))

/-- For every state. DEADLINE_ACTION after the deadline of an enabled context that takes part in the instance
publishes the slot values of a written instance; an instance whose evaluation has not begun is dropped, counts a miss,
and raises CTX_MISS with the run of misses as its argument. TRIG_TIMEOUT_EXPIRY, once the timeout of a live root has
passed while Graver runs, starts the next interval and counts a miss for every enabled context that has joined its
tree. ADMISSION_RECHECK outside BOOT, SHUTDOWN and sleep takes the present band, and leaves ADM_LOST set exactly when
the admitted schedule, its string requests among it, does not close there; each check that fails raises
ADMISSION_LOST. -/
def Obligations.DeadlinesAndMisses : Prop :=
  ∀ (s : State) (n : Nat), n < 256 →
    (∀ i, (s.ctx n).inst = some i → (s.ctx n).st = .enabled → passes (s.ctx n) i.t0 = false →
      i.t0 + ctxDeadline (s.ctx n) < s.now →
      (i.phase = .written → ∃ t, exec (.deadlineAction n) s = .next t ∧ (t.ctx n).published = true ∧
        (t.ctx n).out = i.slots ∧ (t.ctx n).inst = (s.ctx n).nextTrig.map freshInst ∧ (t.ctx n).misses = (s.ctx n).misses ∧
        t.plate = s.plate ∧ t.nv = s.nv ∧ t.mem.cells = s.mem.cells) ∧
      ((i.phase = .waiting ∨ i.phase = .ready) →
        ∃ t, exec (.deadlineAction n) s = .next t ∧ (t.ctx n).inst = (s.ctx n).nextTrig.map freshInst ∧
          (t.ctx n).missRun = min 3 ((s.ctx n).missRun + 1) ∧ (t.ctx n).misses = min 0xFFFFFFFF ((s.ctx n).misses + 1) ∧
          Raised s t 0x0701 n [wrd (min 3 ((s.ctx n).missRun + 1))] ∧ t.nv = s.nv ∧ t.mem.cells = s.mem.cells)) ∧
    (∀ t0, (s.ctx n).toStart = some t0 → gravRuns s = true → ctxLive (s.ctx n) = true → ctxTimeout (s.ctx n) ≠ 0 →
      t0 + ctxTimeout (s.ctx n) ≤ s.now → ∃ t, exec (.trigTimeoutExpiry n) s = .next t ∧
        (t.ctx n).toStart = some (t0 + ctxTimeout (s.ctx n)) ∧
        (∀ x l, x < 256 → (s.ctx x).st = .enabled → (s.ctx x).root = n → (s.ctx n).lastRoot = some l → (s.ctx x).enTick < l →
          (t.ctx x).missRun = min 3 ((s.ctx x).missRun + 1) ∧ (t.ctx x).misses = min 0xFFFFFFFF ((s.ctx x).misses + 1)) ∧
        t.nv = s.nv ∧ t.mem.cells = s.mem.cells) ∧
    (s.op ≠ .boot → s.op ≠ .shutdown → s.pwr.sleep = .awake → ∃ t, exec .admissionRecheck s = .next t ∧
      t.grav.band = s.therm.band ∧ (t.grav.admLost = true ↔ ∃ x, admWhole s = .inl x) ∧
      (∀ x, admWhole s = .inl x → Raised s t 0x0206 x [wrd s.therm.band]) ∧
      t.op = s.op ∧ t.drives = s.drives ∧ t.nv = s.nv ∧ t.mem.cells = s.mem.cells)

/-- For every state in which the command may start. HATCH_FRAME with values that its checks allow, on a timebase that
is stopped or whose offset lies within the new period, completes with OK and the tick of the write: PER and the six
compares hold the written words, and nothing else changes but the pairs of Hatch, their clamp flags and counters, and
the note of the write. HATCH_FORCE of a non-empty set of pairs, none of an active drive and none with a routed latch,
with ENABLE active or LEVEL 0, completes with OK: each named pair has the forced level, or none for LEVEL 0, until the
end of its DURATION; every other pair is as before. -/
def Obligations.HatchCommands : Prop :=
  ∀ (s : State) (tag : Nat),
    (∀ (tb : Nat) (per : Word) (cs : List Word), tb < 4 → cs.length = 6 → Starts s tag 0x30 (wrd tb :: per :: cs) →
      perOk s tb per.toNat = true → (∀ c ∈ cs, cmpOk c = true ∧ hasBits c 0xF0000000 = false) →
      (stringRunsOn s tb = false ∨ per.toNat = tbPer s tb) →
      ((s.tb tb).running = false ∨ tbOffset s tb < perLen (tbUpDown s tb) per.toNat) →
      (∀ k, k < 7 → overtaken s tb k 2 = false) →
      ∃ t, exec (.hatchFrame tag) s = .next t ∧ Replied s t tag 0 [wrd s.now, wrd (s.now / 2 ^ 32)] ∧
        tbPer t tb = per.toNat ∧ (∀ k, k < 6 → tbCmp t tb k = cs.getD k 0 ∧ zeroCode t tb k = true) ∧
        t = { s with folio := t.folio, par := t.par,
                     hatch := { s.hatch with pairs := t.hatch.pairs, zc := t.hatch.zc, wrote := t.hatch.wrote } }) ∧
    (∀ (m level dur : Nat), m < 4096 → m ≠ 0 → level < 4 → dur < 65536 →
      Starts s tag 0x31 [wrd (level * 2 ^ 30 + m), wrd dur] → (level = 0 ∨ s.so.enable = true) →
      (∀ p, p < 12 → m.testBit p = true → latchesOnPair s p = [] ∧
        ∀ d, pairDrive s p = some d → (s.drive d).dst = .idle) →
      ∃ t, exec (.hatchForce tag) s = .next t ∧ Replied s t tag 0 [] ∧
        (∀ p, p < 12 → m.testBit p = true → (t.pair p).force = (if level = 0 then none else some level) ∧
          (t.pair p).forceEnd = (if level = 0 ∨ dur = 0 then none else some (s.now + dur * 400))) ∧
        (∀ p, 12 ≤ p ∨ m.testBit p = false → t.pair p = s.pair p) ∧
        t = { s with folio := t.folio, hatch := { s.hatch with pairs := t.hatch.pairs } })

/-- For every state. PERIOD_START of a running timebase whose offset has reached its period length, that none follows,
with no hand-over under way, starts the period now and counts it in PERIOD_COUNT, and a STOPPING drive of the timebase
whose stop time has passed becomes IDLE with a set-point of 0. REF_EDGE of a pair on a running timebase makes REF
active where the offset has reached an armed turn-on, inactive where it has reached an armed turn-off, and at layer 4
the side of the old level is off after it; no other pair changes. DEADTIME_END turns on exactly the side that waited,
once its tick has come, and before it does nothing. FORCE_EXPIRY at or after the end of a force removes it. -/
def Obligations.PeriodsAndEdges : Prop :=
  ∀ s : State,
    (∀ tb, tb < 4 → (s.tb tb).running = true → tbLen s tb ≤ tbOffset s tb → (∀ m, m < 4 → follows s m tb = false) →
      s.marg.hoDue = false → s.marg.ho ≠ .accepted → (∀ d, d < 4 → (s.drive d).hd = none) →
      ∃ t, exec (.periodStart tb) s = .next t ∧ (t.tb tb).running = true ∧ tbOffset t tb = 0 ∧
        parGet t 5 (0x10B + 16 * tb) = parGet s 5 (0x10B + 16 * tb) + 1 ∧
        (∀ d, d < 4 → hasArch (s.drive d) = true → driveTb (s.drive d) = tb → (s.drive d).dst = .stopping →
          (s.drive d).stopDue = true → (t.drive d).dst = .idle ∧ (t.drive d).torque = 0) ∧
        (∀ m, m ≠ tb → t.tb m = s.tb m) ∧ t.conv = s.conv ∧ t.plate = s.plate ∧ t.nv = s.nv ∧
        t.mem.cells = s.mem.cells) ∧
    (∀ p, p < 12 → (s.tb (pairTb s p)).running = true → tbBegun s (pairTb s p) = true →
      (∀ a, (s.pair p).armOn = some a → a / 16 ≤ tbOffset s (pairTb s p) → ∃ t, exec (.refEdge p) s = .next t ∧ (t.pair p).ref = true ∧ (t.pair p).armOn = none ∧
        ((s.pair p).ref = false → (s.pair p).layer = 4 → (t.pair p).l = false) ∧ (∀ q, q ≠ p → t.pair q = s.pair q) ∧
        t = { s with hatch := { s.hatch with pairs := t.hatch.pairs } }) ∧
      (∀ a, (s.pair p).armOn = none → (s.pair p).armOff = some a → a / 16 ≤ tbOffset s (pairTb s p) → ∃ t, exec (.refEdge p) s = .next t ∧ (t.pair p).ref = false ∧
        (t.pair p).armOff = none ∧ ((s.pair p).ref = true → (s.pair p).layer = 4 → (t.pair p).h = false) ∧
        (∀ q, q ≠ p → t.pair q = s.pair q) ∧ t = { s with hatch := { s.hatch with pairs := t.hatch.pairs } })) ∧
    (∀ p b e, (s.pair p).pend = some (b, e) → (s.now < e → exec (.deadtimeEnd p) s = .next s) ∧ (e ≤ s.now → ∃ t, exec (.deadtimeEnd p) s = .next t ∧
      t.pair p = { s.pair p with h := (s.pair p).h || b, l := (s.pair p).l || !b, pend := none } ∧
      (∀ q, q ≠ p → t.pair q = s.pair q) ∧ t = { s with hatch := { s.hatch with pairs := t.hatch.pairs } })) ∧
    (∀ p e, (s.pair p).forceEnd = some e → e ≤ s.now → ∃ t, exec (.forceExpiry p) s = .next t ∧ (t.pair p).force = none ∧
      (t.pair p).forceEnd = none ∧ (∀ q, q ≠ p → t.pair q = s.pair q) ∧
      t = { s with hatch := { s.hatch with pairs := t.hatch.pairs } })

/-- For every state in which trips have an effect, every source below 32 with a non-zero ACTION whose latch is clear,
and every pair its route names: when the source becomes active (for a window comparator, when its input lies so that
its output, inactive until now, is active) the step answers a next state in which both outputs of the pair are off
when an OFF action, or both LOW_ON and HIGH_ON, are among the set latches that name it; only L is on when LOW_ON is
the one action; only H is on when HIGH_ON is. -/
def Obligations.CombinedTripAction : Prop :=
  ∀ (s : State) (src p : Nat), tripsWork s = true → src < 32 → p < 12 → latchSet s src = false →
    field (tripRoute s src) 31 30 ≠ 0 → wbit (tripRoute s src) p = true → Activates s src →
    ∃ t, exec (.trip src true) s = .next t ∧ latchSet t src = true ∧
      (Names s src p 1 ∨ (Names s src p 2 ∧ Names s src p 3) → (t.pair p).h = false ∧ (t.pair p).l = false) ∧
      (Names s src p 2 → ¬ Names s src p 1 → ¬ Names s src p 3 → (t.pair p).h = false ∧ (t.pair p).l = true) ∧
      (Names s src p 3 → ¬ Names s src p 1 → ¬ Names s src p 2 → (t.pair p).h = true ∧ (t.pair p).l = false)

/-- For every state in which trips have an effect. TRIP of a source that becomes active with a clear latch and a non-
zero ACTION sets exactly that latch and raises TRIP with ACTION and PAIR_MASK. A source of 24 to 31 that turns
inactive, one with ACTION 0, or one whose latch is set already changes the trip inputs and nothing else; a comparator
whose output stays keeps it. WC_OUTPUT_CHANGE, while the comparators run and with thresholds that have settled, makes
the output of a comparator active where its input lies above THR_HI or below THR_LO of an enabled side, and inactive
where it lies inside both by more than the hysteresis; its trip input follows. DELAYLINE_CALIBRATION that fails marks
the timebase and raises DL_FAULT; one that succeeds changes nothing. The settling time and the scale of the input are
the model's choice (log 73). -/
def Obligations.TripInputs : Prop :=
  ∀ s : State, tripsWork s = true →
    (∀ n, n < 32 → latchSet s n = false → field (tripRoute s n) 31 30 ≠ 0 → Activates s n →
      ∃ t, exec (.trip n true) s = .next t ∧ (∀ m, latchSet t m = (latchSet s m || decide (m = n))) ∧
        Raised s t 0x0901 n [wrd (field (tripRoute s n) 31 30), wrd (field (tripRoute s n) 11 0)] ∧
        t.hatch.tripIn.testBit n = true ∧ t.plate = s.plate ∧ t.nv = s.nv ∧ t.mem.cells = s.mem.cells) ∧
    (∀ n a, 24 ≤ n → n < 32 → a = false ∨ field (tripRoute s n) 31 30 = 0 ∨ latchSet s n = true →
      ∃ t, exec (.trip n a) s = .next t ∧ (∀ m, t.hatch.tripIn.testBit m = if m = n then a else s.hatch.tripIn.testBit m) ∧
        t = { s with hatch := { s.hatch with tripIn := t.hatch.tripIn } }) ∧
    (∀ n a, n < 24 → wcRuns s = true → (wcSide s n true || wcSide s n false) = s.conv.wcLevel.testBit n →
      ∃ t, exec (.trip n a) s = .next t ∧ t = { s with free := t.free, conv := { s.conv with
        wcHi := t.conv.wcHi, wcLo := t.conv.wcLo } }) ∧
    (∀ n (x : Int), n < 24 → wcRuns s = true → (tblGet s.conv.wcOld (0, []) n).1 + 800 ≤ s.now →
      ∃ t, exec (.wcOutputChange n x) s = .next t ∧
        (wbit (wcCtrl s n) 31 = true → (field (wcCtrl s n) 19 10 : Int) * 2 ^ 14 < x → t.conv.wcLevel.testBit n = true) ∧
        (wbit (wcCtrl s n) 30 = true → x < (field (wcCtrl s n) 9 0 : Int) * 2 ^ 14 → t.conv.wcLevel.testBit n = true) ∧
        ((wbit (wcCtrl s n) 31 = false ∨ x < (field (wcCtrl s n) 19 10 : Int) * 2 ^ 14 - 2 ^ 15) →
          (wbit (wcCtrl s n) 30 = false ∨ (field (wcCtrl s n) 9 0 : Int) * 2 ^ 14 + 2 ^ 15 < x) →
          t.conv.wcLevel.testBit n = false) ∧
        (s.hatch.tripIn.testBit n = s.conv.wcLevel.testBit n → t.hatch.tripIn.testBit n = t.conv.wcLevel.testBit n) ∧
        t.plate = s.plate ∧ t.nv = s.nv ∧ t.mem.cells = s.mem.cells) ∧
    (∀ tb, tb < 4 → exec (.delaylineCalibration tb true) s = .next s ∧
      ∃ t, exec (.delaylineCalibration tb false) s = .next t ∧ (t.tb tb).dlFault = true ∧ Raised s t 0x0502 tb [] ∧
        t.nv = s.nv ∧ t.mem.cells = s.mem.cells)

/-- For every state in which the command may start. SEQ_LOAD of a list that passes its checks completes with OK and
stores the list and the trigger: the sequence keeps its present list until its next trigger, and what is pending or
runs goes on; no other sequence changes, and no slice but the target of the calibration. CONV_URGENT leaves its
command waiting, with its tag and input at the slice it names, behind a request that waits there; nothing else
changes. CAL_STATUS completes with OK and 20 words, of which the first is CAL_STATE and the fifth on hold for each
slice its last residual, its deferrals and its physical slice; nothing else changes. -/
def Obligations.ConverterCommands : Prop :=
  ∀ (s : State) (tag : Nat),
    (∀ (w : Word) (l : List Word), Starts s tag 0x50 (w :: l) → hasBits w 0xFF0080E0 = false → l.any entryBad = false →
      field w 14 8 = l.length → 0 < l.length → l.length ≤ 64 → triggerOk (field w 23 16) = true → listClash l = false →
      ctxBeyond s (field w 4 0) l.length = false →
      ∃ t, exec (.seqLoad tag) s = .next t ∧ Replied s t tag 0 [] ∧ seqStored (t.sequ (field w 4 0)) = l ∧
        (t.sequ (field w 4 0)).trigger = field w 23 16 ∧
        (t.sequ (field w 4 0)).entries = (s.sequ (field w 4 0)).entries ∧
        (t.sequ (field w 4 0)).pend = (s.sequ (field w 4 0)).pend ∧ (t.sequ (field w 4 0)).run = (s.sequ (field w 4 0)).run ∧
        (∀ m, m ≠ field w 4 0 → t.sequ m = s.sequ m) ∧ (∀ i, i ≠ s.conv.target → t.slice i = s.slice i) ∧
        t = { s with folio := t.folio, conv := { s.conv with seqs := t.conv.seqs, slices := t.conv.slices } }) ∧
    (∀ w : Word, Starts s tag 0x51 [w] → hasBits w 0xFFFFC0F0 = false → ∃ t, exec (.convUrgent tag) s = .next t ∧
      Waiting s t tag ∧ (t.slice (field w 3 0)).urgent =
        some (((s.slice (field w 3 0)).urgent).getD (tag, field w 13 8)) ∧
      (t.slice (field w 3 0)).held = (s.slice (field w 3 0)).held ++
        (if (s.slice (field w 3 0)).urgent = none then [] else [(tag, field w 13 8)]) ∧
      (∀ i, i ≠ field w 3 0 → t.slice i = s.slice i) ∧
      t = { s with folio := t.folio, conv := { s.conv with slices := t.conv.slices } }) ∧
    (Starts s tag 0x52 [] → ∃ t ws, exec (.calStatus tag) s = .next t ∧
      Replied s t tag 0 (calState s :: parGet s 3 6 :: parGet s 3 7 :: parGet s 3 8 :: ws) ∧ ws.length = 16 ∧
      (∀ i, i < 16 → ws.getD i 0 = wrd (tblGet s.conv.lastResidual 0xFFFF i * 2 ^ 16 + tblGet s.conv.deferLaps 0 i * 2 ^ 8 +
        lmapOf s i)) ∧ t = { s with folio := t.folio })

/-- For every state while the converters run, and every enabled sequence to which a trigger is on its way. When it is
neither running nor pending, SEQ_TRIGGER makes the oldest such trigger pending, with its tick and the list that was
stored when it fired, which is then in effect. When the sequence is running or already pending, it stays as it is but
for that trigger, TRIG_OVERRUN rises by 1, and SEQ_LATE is raised with the sequence as INDEX and ARG0 = 0xFFFF_FFFF.
-/
def Obligations.SequenceOverrun : Prop :=
  ∀ (s : State) (n : Nat) x r, convRun s = true → n < 32 → (s.sequ n).due = x :: r → seqEnabled s n = true →
    ((s.sequ n).run = none → (s.sequ n).pend = none → ∃ t, exec (.seqTrigger n) s = .next t ∧
      (t.sequ n).pend = some x ∧ (t.sequ n).run = none ∧ (t.sequ n).due = r ∧ (t.sequ n).entries = x.2.1 ∧ (∀ m, m ≠ n → t.sequ m = s.sequ m)) ∧
    ((s.sequ n).run ≠ none ∨ (s.sequ n).pend ≠ none → ∃ t, exec (.seqTrigger n) s = .next t ∧
      t.sequ n = { s.sequ n with due := r } ∧ parGet t 3 0x11 = counted (parGet s 3 0x11) 1 ∧
      Raised s t 0x0301 n [0xFFFFFFFF] ∧ (∀ m, m ≠ n → t.sequ m = s.sequ m) ∧
      t = { s with par := t.par, conv := { s.conv with seqs := t.conv.seqs }, book := { s.book with inq := t.book.inq } })

/-- For every state while the converters run. SEQ_START of a pending sequence whose slices are free and for which no
earlier one waits makes it run from now with its trigger tick and list. URGENT_START of a waiting request on a slice
at a boundary starts its conversion now, and the next held request waits. CONVERSION_DONE of an urgent conversion, 40
ticks after its start, frees the slice, answers its command with OK, the result word and the sample tick, and counts
it. TRIGGER_COMPARE that fires, and has not fired at this tick before, sends a trigger of this tick with the stored
list to every enabled sequence that names it, and to no other. -/
def Obligations.ConversionFlow : Prop :=
  ∀ s : State, convRun s = true →
    (∀ n tr l sn, (s.sequ n).pend = some (tr, l, sn) → seqCanStart s n = true → ∃ t r, exec (.seqStart n) s = .next t ∧
      (t.sequ n).pend = none ∧ (t.sequ n).run = some r ∧ r.trig = tr ∧ r.start = s.now ∧ r.entries = l ∧ r.snap = sn ∧
      (tr < s.now → Raised s t 0x0301 n [wrd (s.now - tr)] ∧ parGet t 3 0x12 = counted (parGet s 3 0x12) 1) ∧
      (∀ m, m ≠ n → t.sequ m = s.sequ m) ∧
      t = { s with par := t.par, conv := { s.conv with seqs := t.conv.seqs, slices := t.conv.slices },
                   book := { s.book with inq := t.book.inq } }) ∧
    (∀ i tag inp, (s.slice i).urgent = some (tag, inp) → urgentCanStart s i = true → ∃ t c, exec (.urgentStart i) s = .next t ∧
      (t.slice i).conv = some c ∧ c.what = .urgent tag ∧ c.input = inp ∧ c.start = s.now ∧
      (t.slice i).urgent = (s.slice i).held.head? ∧ (t.slice i).held = (s.slice i).held.tail ∧
      (∀ j, j ≠ i → t.slice j = s.slice j) ∧ t = { s with conv := { s.conv with slices := t.conv.slices } }) ∧
    (∀ i c tag e code side tcode tovr, i < 16 → (s.slice i).conv = some c → c.what = .urgent tag → c.start + 40 ≤ s.now →
      (s.slice i).owner = none → s.conv.phase ≠ .shadow → tag < 1024 → tagEntry s tag = some e →
      e.phase = .running → ∃ t, exec (.conversionDone i code false side tcode tovr) s = .next t ∧
      Replied s t tag 0 [resultWord i c code false side, wrd (c.start + 12), wrd ((c.start + 12) / 2 ^ 32)] ∧
      (t.slice i).conv = none ∧ parGet t 3 0x13 = counted (parGet s 3 0x13) 1 ∧ (∀ j, j ≠ i → t.slice j = s.slice j) ∧
      t = { s with par := t.par, folio := t.folio, conv := { s.conv with slices := t.conv.slices } }) ∧
    (∀ tb k, tb < 4 → k < 6 → triggerNow s tb k = true → triggerPassed s tb k = none →
      tblGet (s.tb tb).fired none k ≠ some s.now → ∃ t, exec (.triggerCompare tb k) s = .next t ∧
      (∀ n, n < 32 → (t.sequ n).due.map (fun x => (x.1, x.2.1)) = (s.sequ n).due.map (fun x => (x.1, x.2.1)) ++
        (if seqEnabled s n = true ∧ (s.sequ n).trigger = 0x10 + 6 * tb + k then [(s.now, seqStored (s.sequ n))] else [])) ∧
      ((∀ m, m < 12 → (s.src m).capDue = none) → t.drives = s.drives) ∧ t.nv = s.nv ∧ t.mem.cells = s.mem.cells)

/-- For every state. CAL_SELF_DONE within limits, while the converters run in self-calibration, gives the tracing
slice its trims and starts a shadow with no pairs counted; outside them it halts the rotation and raises CAL_DRIFT
with index 0xFFFF. CAL_DECISION, 16 ticks after the last of 256 pairs, keeps the residual and waits for the swap when
it is at most 16, and otherwise counts a deferral and raises CAL_DRIFT with the residual. CAL_SWAP on a target without
a conversion in progress puts the tracing slice in its place, counts it, and raises CAL_SWAP with the old and the new
slice. SHADOW_TIMEOUT of a shadow whose time has passed with too few pairs on a slice in use counts it. The last two
go on to the next target. -/
def Obligations.CalibrationSteps : Prop :=
  ∀ s : State,
    (s.conv.phase = .selfCal → convRun s = true →
      (∃ t, exec (.calSelfDone true) s = .next t ∧ t.conv.phase = .shadow ∧ t.conv.pairs = 0 ∧ t.conv.sum = 0 ∧
        t.conv.shadowAt = s.now ∧ t.conv.target = s.conv.target ∧ t = { s with conv := t.conv, free := t.free }) ∧
      (∃ t, exec (.calSelfDone false) s = .next t ∧ t.conv = { s.conv with phase := .halted } ∧
        Raised s t 0x0302 0xFFFF [0xFFFFFFFF, wrd s.conv.tracing] ∧
        t = { s with conv := t.conv, book := { s.book with inq := t.book.inq } })) ∧
    (s.conv.phase = .shadow → convRun s = true → 256 ≤ s.conv.pairs → s.conv.pairsAt + 16 ≤ s.now →
      (s.conv.sum.natAbs / 16 ≤ 16 → ∃ t, exec .calDecision s = .next t ∧ t.conv.phase = .swapPending ∧
        tblGet t.conv.lastResidual 0xFFFF s.conv.target = s.conv.sum.natAbs / 16 ∧ t.conv.target = s.conv.target ∧
        t = { s with conv := t.conv }) ∧
      (16 < s.conv.sum.natAbs / 16 → ∃ t, exec .calDecision s = .next t ∧
        tblGet t.conv.deferLaps 0 s.conv.target = min 255 (tblGet s.conv.deferLaps 0 s.conv.target + 1) ∧
        parGet t 3 9 = counted (parGet s 3 9) 1 ∧
        Raised s t 0x0302 s.conv.target [wrd (s.conv.sum.natAbs / 16), wrd (lmapOf s s.conv.target)] ∧
        t.conv.lmap = s.conv.lmap ∧ t.nv = s.nv ∧ t.mem.cells = s.mem.cells)) ∧
    (s.conv.phase = .swapPending → convRun s = true → converting s s.conv.target = false → ∃ t, exec .calSwap s = .next t ∧
      lmapOf t s.conv.target = s.conv.tracing ∧ t.conv.tracing = lmapOf s s.conv.target ∧
      (∀ i, i ≠ s.conv.target → lmapOf t i = lmapOf s i) ∧ parGet t 3 8 = counted (parGet s 3 8) 1 ∧
      Raised s t 0x0303 s.conv.target [wrd (lmapOf s s.conv.target), wrd s.conv.tracing] ∧
      t.conv.target = (s.conv.target + 1) % 16 ∧
      t = { s with conv := t.conv, par := t.par, book := { s.book with inq := t.book.inq } }) ∧
    (s.conv.phase = .shadow → convRun s = true → s.conv.pairs < 256 → sliceUsed s s.conv.target = true →
      s.conv.shadowAt + parField s 3 0 15 0 * 400000 ≤ s.now →
      ∃ t, exec .shadowTimeout s = .next t ∧ parGet t 3 0xA = counted (parGet s 3 0xA) 1 ∧
        t.conv.target = (s.conv.target + 1) % 16 ∧ t.conv.lmap = s.conv.lmap ∧ t.conv.seqs = s.conv.seqs ∧
        t = { s with conv := t.conv, par := t.par })

/-- For every awake state. A window count of 760 to 840 ends a FREQ fault and arms the supervisor; a count outside it,
once the supervisor is armed, sets XIN_FREQ_SEEN and, when no FREQ fault stood, clears TIME_VALID, puts a locked main
PLL into holdover and raises XIN_FAULT with cause 0 and the count. A missing edge does the same with cause 1 and
XIN_STOP_SEEN. Before the supervisor is armed a fault raises nothing. The next edge ends a STOP fault. A PLL that
loses lock raises PLL_UNLOCK of its domain, and the loss of TD1 clears TIME_VALID. Nothing else changes but what the
event and its reaction change. -/
def Obligations.ClockSupervision : Prop :=
  ∀ s : State, isAsleep s = false →
    (∀ c, c < 1024 → xinGood c = true → ∃ t, exec (.xinWindowEnd c) s = .next t ∧ t.tim.freqFault = false ∧
      t.tim.xinOk = !s.tim.stopFault ∧ t.tim.xinArmed = (s.tim.xinArmed || !s.tim.stopFault) ∧ parGet t 2 6 = wrd c ∧
      OthersKept s t 2 6 ∧ t = { s with tim := t.tim, par := t.par }) ∧
    (∀ c, c < 1024 → xinGood c = false → s.tim.xinArmed = true → ∃ t, exec (.xinWindowEnd c) s = .next t ∧
      t.tim.freqFault = true ∧ t.tim.xinOk = false ∧ wbit (parGet t 2 5) 2 = true ∧ parGet t 2 6 = wrd c ∧
      (s.tim.freqFault = false → t.tim.timeValid = false ∧ Raised t t 0x0201 0 [0, wrd c] ∧
        (s.tim.td1 = true → s.tim.holdover = .none → t.tim.holdover = .active)) ∧
      Reacted { s with tim := t.tim, par := (parOr (parSet s 2 6 (wrd c)) 2 5 4).par } t) ∧
    (s.tim.xinArmed = true → ∃ t, exec .xinEdgeTimeout s = .next t ∧ t.tim.stopFault = true ∧ t.tim.xinOk = false ∧
      wbit (parGet t 2 5) 1 = true ∧
      (s.tim.stopFault = false → t.tim.timeValid = false ∧ Raised t t 0x0201 0 [1, parGet s 2 6] ∧
        (s.tim.td1 = true → s.tim.holdover = .none → t.tim.holdover = .active)) ∧
      Reacted { s with tim := t.tim, par := (parOr s 2 5 2).par } t) ∧
    (s.tim.xinArmed = false → ∃ t, exec .xinEdgeTimeout s = .next t ∧ t.tim.stopFault = true ∧ t = { s with tim := t.tim }) ∧
    (∃ t, exec .xinEdgeResume s = .next t ∧ t.tim.stopFault = false ∧
      t.tim.xinOk = (!s.tim.freqFault && xinGood (parGet s 2 6).toNat) ∧ t = { s with tim := t.tim }) ∧
    (∀ d, d ∈ [1, 2, 5] → pllLockedNow s d = true → ∃ t, exec (.pllLoss d) s = .next t ∧ pllLockedNow t d = false ∧
      wbit (parGet t 2 5) 3 = true ∧ Raised t t 0x0202 d [] ∧ (d = 1 → t.tim.timeValid = false) ∧
      (d ≠ 1 → t.tim.timeValid = s.tim.timeValid) ∧
      Reacted { s with tim := t.tim, par := (parOr s 2 5 8).par, mem := { s.mem with
        lpHeld := t.mem.lpHeld, lpHeldAt := t.mem.lpHeldAt } } t)

/-- For every state in which a PLL has been started. PLL_LOCKED of TD1 in a waking device advances global time by the
TD0 count times 12.5, rounded down, sets COASTED, and takes TIME_VALID from XIN_OK when no fault waits; that of TD2 or
TD5 marks it locked and changes nothing else. PLL_LOCK_TIMEOUT of TD1 in a waking device takes it into holdover with
TIME_VALID clear and raises PLL_UNLOCK; of another PLL it raises PLL_UNLOCK once the device is awake, and waits for
that until then. Of a PLL that was not started both do nothing. HOLDOVER_END ends an active holdover and moves no more
than the pairs. PHASE_STEER of an awake follower moves its phase by one sixteenth of a tick, at most once in a
microsecond, and leaves global time alone. -/
def Obligations.LockAndSteering : Prop :=
  ∀ s : State,
    (∀ n, s.tim.starting.contains 1 = true → s.pwr.sleep = .waking → ∃ t, exec (.pllLocked 1 n) s = .next t ∧
      t.now = s.now + n * 25 / 2 ∧ t.pwr.lockTick = t.now ∧ (1 ∉ s.tim.pllHeld → t.tim.td1 = true) ∧
      wbit (parGet t 2 2) 7 = true ∧
      t.tim.starting = s.tim.starting.filter (fun d => decide (d ≠ 1)) ∧ t.tim.xinHeld = [] ∧ t.tim.pllHeld = [] ∧
      (s.tim.xinHeld = [] → s.tim.pllHeld = [] → t.tim.timeValid = s.tim.xinOk) ∧ t.nv = s.nv ∧ t.plate = s.plate ∧
      t.mem.cells = s.mem.cells) ∧
    (∀ n, s.tim.starting.contains 2 = true → exec (.pllLocked 2 n) s = .next { s with tim := { s.tim with
      td2 := true, starting := s.tim.starting.filter fun d => decide (d ≠ 2) } }) ∧
    (∀ n, s.tim.starting.contains 5 = true → exec (.pllLocked 5 n) s = .next { s with tim := { s.tim with
      td5 := true, starting := s.tim.starting.filter fun d => decide (d ≠ 5) } }) ∧
    (s.tim.starting.contains 1 = true → s.pwr.sleep = .waking → ∃ t, exec (.pllLockTimeout 1) s = .next t ∧
      t.tim.holdover = .active ∧ t.tim.timeValid = false ∧ t.tim.td1 = false ∧ t.now = s.now ∧ t.pwr.lockTick = s.now ∧
      wbit (parGet t 2 5) 3 = true ∧ Raised t t 0x0202 1 [] ∧ t.nv = s.nv ∧ t.plate = s.plate ∧
      t.mem.cells = s.mem.cells) ∧
    (∀ d, d ∈ [2, 5] → s.tim.starting.contains d = true →
      (isAsleep s = true → exec (.pllLockTimeout d) s = .next { s with tim := { s.tim with
        starting := s.tim.starting.filter (fun x => decide (x ≠ d)), pllHeld := s.tim.pllHeld ++ [d] } }) ∧
      (isAsleep s = false → ∃ t, exec (.pllLockTimeout d) s = .next t ∧ pllLockedNow t d = false ∧
        wbit (parGet t 2 5) 3 = true ∧ Raised t t 0x0202 d [] ∧
        Reacted { s with tim := t.tim, par := (parOr s 2 5 8).par, mem := { s.mem with
          lpHeld := t.mem.lpHeld, lpHeldAt := t.mem.lpHeldAt } } t)) ∧
    (∀ d n, s.tim.starting.contains d = false → exec (.pllLocked d n) s = .next s ∧ exec (.pllLockTimeout d) s = .next s) ∧
    (s.tim.holdover = .active → ∃ t, exec .holdoverEnd s = .next t ∧ t = { s with
      tim := { s.tim with holdover := .ended }, hatch := { s.hatch with pairs := t.hatch.pairs } }) ∧
    (∀ fwd, s.tim.master = false → s.tim.td1 = true → isAsleep s = false →
      (s.tim.steered.any (fun t => inSlide s.now t 400) = true → exec (.phaseSteer fwd) s = .next s) ∧
      (s.tim.steered.any (fun t => inSlide s.now t 400) = false → ∃ t, exec (.phaseSteer fwd) s = .next t ∧
        (t.tim.phase16 : Int) = ((s.tim.phase16 : Int) + (if fwd then 1 else -1)) % 16 ∧ t.tim.steered = some s.now ∧
        t = { s with tim := { s.tim with phase16 := t.tim.phase16, slew16 := t.tim.slew16, steered := t.tim.steered } }))

/-- For every awake state whose TD1 gives ticks and every lap count of the four chains. After the monitor has read the
trims, the reported pace is the lowest of the four paces. When it is below the guaranteed pace of the band,
PACE_LOW_COUNT rises by 1 and a lapse stands after it; PACE_LOW is raised, with the chain and both paces, exactly when
no lapse stood before. When it is not below, the lapse ends, nothing is counted and nothing is raised. Beside that
only the pace values and what the reads and the event change differ. -/
def Obligations.PaceMonitor : Prop :=
  ∀ (s u : State) (a b c d : Nat), (s.tim.td1 = true ∨ s.tim.holdover ≠ .none) → isAsleep s = false →
    u = readCells ((List.range 4).map chainCell) s →
    ∃ t, exec (.paceMeasurement a b c d) s = .next t ∧
      t.tim.paceNow = min (min (chainPace u 0 a) (chainPace u 1 b)) (min (chainPace u 2 c) (chainPace u 3 d)) ∧
      t.tim.paceMin = min s.tim.paceMin t.tim.paceNow ∧ t.tim.paceLow = decide (t.tim.paceNow < paceGuar s) ∧
      (t.tim.paceNow < paceGuar s → parGet t 2 9 = counted (parGet s 2 9) 1 ∧
        (s.tim.paceLow = false → ∃ k, k < 4 ∧
          [chainPace u 0 a, chainPace u 1 b, chainPace u 2 c, chainPace u 3 d].getD k 0 = t.tim.paceNow ∧
          Raised s t 0x0203 k [wrd t.tim.paceNow, wrd (paceGuar s)] ∧
          Reacted { u with tim := t.tim, par := (parCount u 2 9 1).par } t) ∧
        (s.tim.paceLow = true → t = { u with tim := t.tim, par := (parCount u 2 9 1).par })) ∧
      (paceGuar s ≤ t.tim.paceNow → t = { u with tim := t.tim }) ∧ Reacted s u

/-- For every state in which encoder n runs with at least four counts per revolution and a count below CPR, no capture
waits, and every change of A and B by one quadrature step that passes the filter at a tick t and is no index position:
the count moves by one in the direction of the step, or in the other with INVERT, and wraps between CPR − 1 and 0
while TURNS moves with it; ANGLE is the count times 2³² divided by CPR, rounded down. Only the position unit, the
triggers of sequences and the records of events may change. -/
def Obligations.EncoderCounts : Prop :=
  ∀ (s : State) (n tp : Nat) (a b z fwd : Bool), n < 2 → posRuns s = true → srcEn s n = true → 4 ≤ srcCpr s n →
    NoCapture s → LevelsPass s n a b z tp →
    (s.src n).count < srcCpr s n → wbit (srcWord s n 3) 31 = false →
    (quad (2 * b2n a + b2n b) + 4 - quad (s.src n).ab) % 4 = (if fwd != wbit (srcWord s n 0) 28 then 1 else 3) →
    ∃ t, exec (.encoderCount n a b z) s = .next t ∧
      (t.src n).count = (if fwd then (if (s.src n).count + 1 = srcCpr s n then 0 else (s.src n).count + 1)
        else if (s.src n).count = 0 then srcCpr s n - 1 else (s.src n).count - 1) ∧
      (t.src n).p.toNat % 2 ^ 32 = (t.src n).count * 2 ^ 32 / srcCpr s n ∧
      (t.src n).p.toNat / 2 ^ 32 = ((s.src n).p.toNat / 2 ^ 32 +
        (if fwd = true ∧ (s.src n).count + 1 = srcCpr s n then 1
         else if fwd = false ∧ (s.src n).count = 0 then 2 ^ 32 - 1 else 0)) % 2 ^ 32 ∧
      (t.src n).lastChange = some tp ∧ (t.src n).tick = tp ∧ (t.src n).homed = (s.src n).homed ∧
      t = { s with pos := t.pos, conv := { s.conv with seqs := t.conv.seqs }, book := { s.book with inq := t.book.inq } }

/-- For every state in which encoder n runs and no capture of it waits, and every change of A and B together that
passes the filter at a tick t: the count and the position stay, ERR_COUNT rises by 1, and when more than ILLEGAL_LIMIT
illegal transitions lie in the millisecond that ends at t, this one among them, a source without a fault raises
POS_SOURCE_FAULT with cause 1 and keeps it. Otherwise nothing is raised. -/
def Obligations.IllegalTransitions : Prop :=
  ∀ (s : State) (n tp : Nat) (a b z : Bool), n < 2 → posRuns s = true → srcEn s n = true →
    (s.src n).capDue = none → LevelsPass s n a b z tp →
    (quad (2 * b2n a + b2n b) + 4 - quad (s.src n).ab) % 4 = 2 →
    ∃ t, exec (.encoderCount n a b z) s = .next t ∧ (t.src n).count = (s.src n).count ∧ (t.src n).p = (s.src n).p ∧
      parGet t 4 (0x10C + 16 * n) = counted (parGet s 4 (0x10C + 16 * n)) 1 ∧ (∀ m, m ≠ n → t.src m = s.src m) ∧
      (field (srcWord s n 4) 7 0 < ((s.src n).errTicks.filter fun x => inSlide tp x 400000).length + 1 →
        (t.src n).fault = true ∧ ((s.src n).fault = false → (t.src n).faultCause = 1 ∧ Raised s t 0x0405 n [1])) ∧
      (((s.src n).errTicks.filter fun x => inSlide tp x 400000).length + 1 ≤ field (srcWord s n 4) 7 0 →
        (t.src n).fault = (s.src n).fault ∧ t = { s with pos := t.pos, par := t.par }) ∧
      Reacted { s with pos := t.pos, par := (parCount s 4 (0x10C + 16 * n) 1).par } t

/-- For every state in which the source runs and no capture waits. HALL_STATE_CHANGE with a state that passes the
filter: 0 or 7 fault the set with cause 2, a jump of its angle by more than a quarter turn with cause 3, both without
moving P; any other new state sets ANGLE to the configured angle of the state, with the tick at which it passed.
SSI_START of a due transfer makes the source busy from the tick of its trigger, or counts an error when it is busy.
SSI_FRAME_END of a good frame, and SENT_FRAME of one, set P to the position the frame spells and clear STALE; a SENT
timeout sets STALE and counts an error, and faults the source with cause 6 at the third in a row. Only the position
unit, the triggers of sequences, the records of events, the ticks of the speed conditions, and what a fault event
changes may differ. -/
def Obligations.HallAndFrames : Prop :=
  ∀ (s : State) (n : Nat), posRuns s = true → srcEn s n = true → NoCapture s →
    (srcKind n = .hall →
      (∀ st tp, HallPasses s n st tp → st = 0 ∨ st = 7 → ∃ t, exec (.hallStateChange n st) s = .next t ∧ (t.src n).fault = true ∧
        (t.src n).p = (s.src n).p ∧ ((s.src n).fault = false → (t.src n).faultCause = 2 ∧ Raised s t 0x0405 n [2]) ∧
        Reacted { s with pos := t.pos } t) ∧
      (∀ st tp, HallPasses s n st tp → 1 ≤ st → st ≤ 6 → (s.src n).started = true → st ≠ (s.src n).count →
        2 ^ 30 < (sgn32 (hallAngle s n st + 2 ^ 32 - hallAngle s n (s.src n).count)).natAbs → ∃ t,
        exec (.hallStateChange n st) s = .next t ∧ (t.src n).fault = true ∧ (t.src n).p = (s.src n).p ∧
        ((s.src n).fault = false → (t.src n).faultCause = 3 ∧ Raised s t 0x0405 n [3]) ∧ Reacted { s with pos := t.pos } t) ∧
      (∀ st tp, HallPasses s n st tp → 1 ≤ st → st ≤ 6 → (s.src n).started = false ∨ (st ≠ (s.src n).count ∧
        (sgn32 (hallAngle s n st + 2 ^ 32 - hallAngle s n (s.src n).count)).natAbs ≤ 2 ^ 30) → ∃ t,
        exec (.hallStateChange n st) s = .next t ∧ (t.src n).started = true ∧ (t.src n).count = st ∧
        (t.src n).p.toNat % 2 ^ 32 = hallAngle s n st ∧ (t.src n).tick = tp ∧ (t.src n).fault = (s.src n).fault ∧
        t = { s with pos := t.pos, conv := { s.conv with seqs := t.conv.seqs },
                     book := { s.book with inq := t.book.inq } })) ∧
    (srcKind n = .ssi →
      (∀ t0, (s.src n).startDue = some t0 → (s.src n).busy = false → ∃ t, exec (.ssiStart n) s = .next t ∧
        t.src n = { s.src n with startDue := none, busy := true, startTick := t0 } ∧
        (∀ m, m ≠ n → t.src m = s.src m) ∧ t = { s with pos := { s.pos with srcs := t.pos.srcs } }) ∧
      ((s.src n).startDue ≠ none → (s.src n).busy = true → ∃ t, exec (.ssiStart n) s = .next t ∧
        t.src n = { s.src n with startDue := none } ∧
        parGet t 4 (0x10C + 16 * n) = counted (parGet s 4 (0x10C + 16 * n)) 1 ∧ OthersKept s t 4 (0x10C + 16 * n) ∧
        t = { s with pos := { s.pos with srcs := t.pos.srcs }, par := t.par }) ∧
      (∀ high bits fall rise, (s.src n).busy = true →
        (s.src n).startTick + ssiPeriod s n * field (srcWord s n 3) 29 24 ≤ s.now → ssiLine s n high fall rise = true →
        (wbit (srcWord s n 2) 30 = false ∨ ssiParity s n bits = true) →
        ssiWord s n bits % 2 ^ (field (srcWord s n 3) 29 24 - field (srcWord s n 3) 21 16) &&& field (srcWord s n 3) 7 0 = 0 →
        ∃ t, exec (.ssiFrameEnd n high bits fall rise) s = .next t ∧ (t.src n).p = (ssiPos s n (ssiWord s n bits)).1 ∧
        (t.src n).stale = false ∧ (t.src n).badRun = 0 ∧ (t.src n).busy = false ∧ (t.src n).started = true ∧
        (t.src n).tick = (s.src n).startTick ∧ SpeedsNoted s t ∧
        t = { s with pos := t.pos, drives := t.drives, conv := { s.conv with seqs := t.conv.seqs },
                     book := { s.book with inq := t.book.inq } })) ∧
    (srcKind n = .sent →
      (∀ pulses v, sentFrame s n pulses = some v → v.headD 0 &&& field (srcWord s n 4) 3 0 = 0 → ∃ t,
        exec (.sentFrame n pulses) s = .next t ∧ (t.src n).p = (sentPos s n v.tail).1 ∧
        (t.src n).stale = false ∧ (t.src n).badRun = 0 ∧ (t.src n).started = true ∧ (t.src n).tick = s.now - pulses.sum ∧
        (∀ w, wbit (srcWord s n 2) 22 = true →
          slowMessage (wbit (srcWord s n 2) 21) ((v.headD 0 :: (s.src n).slow).take 18) = some w → (t.src n).sentSlow = w) ∧
        SpeedsNoted s t ∧ t = { s with
          pos := t.pos, drives := t.drives, conv := { s.conv with seqs := t.conv.seqs },
          book := { s.book with inq := t.book.inq } }) ∧
      (∃ t, exec (.sentTimeout n) s = .next t ∧ (t.src n).stale = true ∧ (t.src n).p = (s.src n).p ∧
        parGet t 4 (0x10C + 16 * n) = counted (parGet s 4 (0x10C + 16 * n)) 1 ∧
        ((s.src n).badRun < 2 → (t.src n).fault = (s.src n).fault) ∧
        (2 ≤ (s.src n).badRun → (t.src n).fault = true ∧
          ((s.src n).fault = false → (t.src n).faultCause = 6 ∧ Raised s t 0x0405 n [6])) ∧
        Reacted { s with pos := t.pos, par := (parCount s 4 (0x10C + 16 * n) 1).par } t))

/-- For every state in which an SSI source runs with a transfer under way whose clock has ended. A frame with a
framing or line fault, or with wrong parity or a status bit set, leaves P, sets STALE and raises ERR_COUNT by 1; when
two bad frames came just before it, the source is faulted and, unless it was already, raises POS_SOURCE_FAULT with
cause 4 for a framing or line fault and 5 for parity or status bits. A good frame clears STALE and ends the run of bad
frames. -/
def Obligations.BadSsiFrames : Prop :=
  ∀ (s : State) (n : Nat) (high : Bool) (bits : List Bool) (fall rise : Nat) (line bad : Bool), posRuns s = true →
    srcEn s n = true → srcKind n = .ssi → (s.src n).busy = true →
    (s.src n).startTick + ssiPeriod s n * field (srcWord s n 3) 29 24 ≤ s.now → line = ssiLine s n high fall rise →
    bad = ((wbit (srcWord s n 2) 30 && !ssiParity s n bits) ||
      decide (ssiWord s n bits % 2 ^ (field (srcWord s n 3) 29 24 - field (srcWord s n 3) 21 16) &&&
        field (srcWord s n 3) 7 0 ≠ 0)) →
    ∃ t, exec (.ssiFrameEnd n high bits fall rise) s = .next t ∧ (∀ m, m ≠ n → (t.src m).p = (s.src m).p) ∧
      (line = false ∨ bad = true → (t.src n).p = (s.src n).p ∧ (t.src n).stale = true ∧
        (t.src n).badRun = (s.src n).badRun + 1 ∧
        parGet t 4 (0x10C + 16 * n) = counted (parGet s 4 (0x10C + 16 * n)) 1 ∧
        ((s.src n).badRun < 2 → (t.src n).fault = (s.src n).fault) ∧
        (2 ≤ (s.src n).badRun → (t.src n).fault = true ∧ ((s.src n).fault = false →
          (t.src n).faultCause = (if line then 5 else 4) ∧ Raised s t 0x0405 n [if line then 5 else 4])) ∧
        Reacted { s with pos := t.pos, par := (parCount s 4 (0x10C + 16 * n) 1).par } t) ∧
      (line = true → bad = false → (t.src n).stale = false ∧ (t.src n).badRun = 0 ∧ (t.src n).fault = (s.src n).fault ∧
        parGet t 4 (0x10C + 16 * n) = parGet s 4 (0x10C + 16 * n))

/-- For every state in which the command may start. A POS_CONFIG whose block is in range completes with OK: the six
words are stored, P, SPEED and DIR are 0, ERR_COUNT, FAULT, STALE and HOMED are cleared, and every compare on the
source is disarmed; every other source, compare and parameter stays, and the drives but for the ticks of their speed
conditions. One with a reserved bit of word 0 set, a source above 11 or a block out of range completes with BAD_PARAM,
and nothing but its reply differs. -/
def Obligations.SourceRestart : Prop :=
  ∀ (s : State) (tag n : Nat) (w0 w1 w2 w3 w4 w5 : Word), n < 16 →
    (n < 12 → posBlockOk s n w0 w1 w2 w3 w4 w5 = true → Starts s tag 0x60 [wrd n, w0, w1, w2, w3, w4, w5] → ∃ t,
      exec (.posConfig tag) s = .next t ∧ Replied s t tag 0 [] ∧
      (∀ k, k < 6 → srcWord t n k = [w0, w1, w2, w3, w4, w5].getD k 0) ∧ (t.src n).p = 0 ∧ (t.src n).speed = 0 ∧
      (t.src n).dir = false ∧ parGet t 4 (0x10C + 16 * n) = 0 ∧ (t.src n).fault = false ∧ (t.src n).stale = false ∧
      (t.src n).homed = false ∧ (∀ m, m ≠ n → t.src m = s.src m) ∧
      (∀ c, c < 8 → t.cmp c = if (s.cmp c).source = n then { s.cmp c with armed := false } else s.cmp c) ∧
      (∀ u i, u < 16 → i < 65536 → ¬ (u = 4 ∧ 0x100 + 16 * n ≤ i ∧ i < 0x106 + 16 * n) → ¬ (u = 4 ∧ i = 0x10C + 16 * n) →
        parGet t u i = parGet s u i) ∧
      SpeedsNoted s t ∧ t = { s with
        folio := t.folio, par := t.par, drives := t.drives,
        pos := { s.pos with srcs := t.pos.srcs, cmps := t.pos.cmps } }) ∧
    (∀ w, Starts s tag 0x60 [w, w0, w1, w2, w3, w4, w5] → hasBits w 0xFFFFFFF0 = true ∨ 12 ≤ field w 3 0 ∨
      posBlockOk s (field w 3 0) w0 w1 w2 w3 w4 w5 = false → ∃ t, exec (.posConfig tag) s = .next t ∧
      Replied s t tag stBadParam [] ∧ t = { s with folio := t.folio })

/-- For every state. POS_COMPARE that may start with ARM = 1, a good direction and a running source, completes with OK
or COMPARE_BEHIND and the tick of arming, and its unit alone is armed with the target and no firing; with ARM = 0 it
disarms its unit. A count of an encoder that passes the filter at a tick t and crosses the target of a compare armed
before t, in its direction or with DIR = 2, fires it: FIRE_COUNT rises by 1, COMPARE_FIRED is raised with the way, and
with STEP 0 the unit disarms. POS_CAPTURE of a source whose trigger fired records its angle, turns, direction and
validity for the trigger tick, of an SSI or SENT source those of its last good frame completed before that tick, and
moves no source. -/
def Obligations.ComparesAndCaptures : Prop :=
  ∀ s : State,
    (∀ tag u n dir modulo lo hi step, u < 8 → n < 12 → dir < 3 → srcEn s n = true → (modulo = true → hi = 0) →
      (dir = 2 → step = 0) →
      Starts s tag 0x61 [wrd (2 ^ 31 + dir * 2 ^ 29 + b2n modulo * 2 ^ 28 + n * 2 ^ 16 + u), lo, hi, step] → ∃ t,
      exec (.posCompare tag) s = .next t ∧
      Replied s t tag (if targetBehind modulo (BitVec.ofNat 64 (ofTwoWords lo hi)) (s.src n).p
        (if dir = 2 then b2n (s.src n).dir else dir) then stCompareBehind else 0) (twoWords s.now) ∧
      t.cmp u = { armed := true, dir := dir, modulo := modulo, missed := 0, source := n, fires := 0,
                  t := BitVec.ofNat 64 (ofTwoWords lo hi), step := step.toNat, armTick := s.now } ∧
      (∀ c, c ≠ u → t.cmp c = s.cmp c) ∧
      t = { s with folio := t.folio, pos := { s.pos with cmps := t.pos.cmps } }) ∧
    (∀ tag u n dir modulo ws, u < 8 → n < 12 → dir < 3 → srcEn s n = true → ws.length = 3 →
      Starts s tag 0x61 (wrd (dir * 2 ^ 29 + b2n modulo * 2 ^ 28 + n * 2 ^ 16 + u) :: ws) → ∃ t, exec (.posCompare tag) s = .next t ∧
      Replied s t tag 0 (twoWords s.now) ∧ t.cmp u = { s.cmp u with armed := false } ∧
      (∀ c, c ≠ u → t.cmp c = s.cmp c) ∧ t = { s with folio := t.folio, pos := { s.pos with cmps := t.pos.cmps } }) ∧
    (∀ n tp a b z c way, n < 2 → (s.src n).capDue = none → LevelsPass s n a b z tp → posRuns s = true → srcEn s n = true → wbit (srcWord s n 3) 31 = false → c < 8 →
      s.pwr.sleep = .awake → (s.cmp c).armed = true → (s.cmp c).source = n → (s.cmp c).armTick < tp →
      (s.cmp c).step = 0 → (s.cmp c).dir = way ∨ (s.cmp c).dir = 2 →
      (quad (2 * b2n a + b2n b) + 4 - quad (s.src n).ab) % 4 ∈ [1, 3] → ∃ t, exec (.encoderCount n a b z) s = .next t ∧
      (crossing (s.cmp c).modulo (s.cmp c).t (s.src n).p (t.src n).p = some way →
        t.cmp c = { s.cmp c with armed := false, fires := ((s.cmp c).fires + 1) % 0x10000, missed := min 255 (s.cmp c).missed,
                                 t := (t.cmp c).t } ∧ Raised s t 0x0403 c [wrd way])) ∧
    (∀ n tc, n < 12 → posRuns s = true → srcEn s n = true → (s.src n).capDue = some tc → ∃ t,
      exec (.posCapture n) s = .next t ∧ (t.src n).capDue = none ∧ (t.src n).p = (s.src n).p ∧
      (t.src n).recd.angle = (sourceAt s n tc).p.toNat % 2 ^ 32 ∧ (t.src n).recd.turns = (sourceAt s n tc).p.toNat / 2 ^ 32 ∧
      (t.src n).recd.dir = (sourceAt s n tc).dir ∧ ((sourceAt s n tc).started = true ∨ n < 2 →
        (t.src n).recd.valid = srcValid s n) ∧ (t.src n).recd.trig = tc ∧
      (t.src n).prevRec = (s.src n).recd ∧ (∀ m, m ≠ n → t.src m = s.src m) ∧ t.pos.cmps = s.pos.cmps ∧
      t.pos.emus = s.pos.emus ∧ t.nv = s.nv ∧ t.mem.cells = s.mem.cells ∧ t.plate = s.plate)

/-- For every state in which the command may start, on a device that is not standby. RING_ENUMERATE of a present ring
of an idle drive, with a count of 1 to 256 that the ring period allows and no transaction in flight, waits and puts
the ring into enumeration with that count. NODE_READ and NODE_WRITE of a node of a ready ring with fewer than 64
transactions wait behind those. CELL_EXCLUDE sets EXCL = 1 on exactly the entries of its range whose EXCL is 0 and
counts them. CELL_INCLUDE sets EXCL = 0 on exactly the entries of its range that it may include, and the limits and
ledgers of the range that it carries. No other ring or entry changes. -/
def Obligations.RingCommands : Prop :=
  ∀ (s : State) (tag : Nat), s.marg.role ≠ 2 →
    (∀ r n, r < ringCount s.part → 1 ≤ n → n ≤ 256 → Starts s tag 0x40 [wrd (n * 2 ^ 16 + r)] →
      ¬ (s.marg.role = 1 ∧ s.marg.sideB = true) →
      (∀ d, ringDrive s r = some d → (s.drive d).dst = .idle ∧ tbLen s (driveTb (s.drive d)) ≤ 400000 ∧
        (if 128 < n ∨ (driveRings s d).any (fun o => decide (o ≠ r) && decide (128 < ringNodes s o)) = true then 20000
          else 10000) ≤ tbLen s (driveTb (s.drive d))) →
      (s.ring r).mgmt = [] → (s.ring r).pass = none → ∃ t p, exec (.ringEnumerate tag) s = .next t ∧ Waiting s t tag ∧
      (t.ring r).st = .enumerating ∧ ringNodes t r = n ∧ (t.ring r).pass = some p ∧ p.expect = n ∧ p.tag = some tag ∧
      p.step = (if (s.ring r).linkUp && wbit (ringCfg s r) 31 then .measure else .link) ∧ (∀ q, q ≠ r → t.ring q = s.ring q) ∧
      OthersKept s t 6 (0x100 + 16 * r) ∧
      t = { s with folio := t.folio, par := t.par, stip := { s.stip with rings := t.stip.rings } }) ∧
    (∀ r pos reg, r < ringCount s.part → pos < 256 → pos < ringNodes s r → reg < 65536 → (s.ring r).st = .ready →
      (s.ring r).mgmt.length < 64 →
      (Starts s tag 0x41 [wrd (reg * 2 ^ 16 + r * 2 ^ 8 + pos)] → ∃ t, exec (.nodeRead tag) s = .next t ∧ Waiting s t tag ∧
        (t.ring r).mgmt = (s.ring r).mgmt ++ [⟨tag, (s.ring r).tid, none, reg, pos, 0, 0⟩] ∧ (t.ring r).tid = ((s.ring r).tid + 1) % 64 ∧
        (∀ q, q ≠ r → t.ring q = s.ring q) ∧ t = { s with folio := t.folio, stip := { s.stip with rings := t.stip.rings } }) ∧
      (∀ lo hi, (nodeRegRws reg = false ∨ ringDriveRuns s r = false) →
        Starts s tag 0x42 [wrd (reg * 2 ^ 16 + r * 2 ^ 8 + pos), lo, hi] → ∃ t, exec (.nodeWrite tag) s = .next t ∧
        Waiting s t tag ∧ (t.ring r).mgmt = (s.ring r).mgmt ++
          [⟨tag, (s.ring r).tid, some (BitVec.ofNat 64 (ofTwoWords lo hi)), reg, pos, 0, 0⟩] ∧
        (∀ q, q ≠ r → t.ring q = s.ring q) ∧
        t = { s with folio := t.folio, stip := { s.stip with rings := t.stip.rings } })) ∧
    (∀ first count, 1 ≤ count → first + count ≤ 256 * ringCount s.part →
      (Starts s tag 0x43 [wrd (count * 2 ^ 16 + first)] → ∃ t, exec (.cellExclude tag) s = .next t ∧
        Replied s t tag 0 [wrd ((rangeOf first count).filter fun d => decide ((s.entry d).excl = 0)).length] ∧
        (∀ d, t.entry d = if first ≤ d ∧ d < first + count ∧ (s.entry d).excl = 0 then { s.entry d with excl := 1 }
          else s.entry d) ∧ t = { s with folio := t.folio, stip := { s.stip with dir := t.stip.dir } }) ∧
      (∀ inc lims led lim x, inc = true ∨ lims = true ∨ led = true →
        (lims = true → field lim 23 16 ≤ field lim 31 24 ∧ field lim 7 0 ≤ field lim 15 8) → (led = true → fFinite x = true) →
        Starts s tag 0x44 [wrd (b2n inc * 2 ^ 31 + b2n lims * 2 ^ 30 + b2n led * 2 ^ 29 + count * 2 ^ 16 + first), lim, x] →
        ∃ t w, exec (.cellInclude tag) s = .next t ∧ Replied s t tag 0 [w] ∧
        (∀ d, t.entry d = if first ≤ d ∧ d < first + count then
            { s.entry d with excl := if inc && includable (s.entry d) then 0 else (s.entry d).excl,
                             limits := if lims then lim else (s.entry d).limits,
                             ledger := if led then x else (s.entry d).ledger }
          else s.entry d) ∧
        t = { s with folio := t.folio, stip := { s.stip with dir := t.stip.dir },
                     mem := { s.mem with marks := t.mem.marks } }))

/-- For every state in which this device heads the ring, no pass runs and no safe frame waits. FRAME_SEND of a frame
whose interval has passed sends, with the next SEQ and at the next coincident tick, a SAFE frame with one nibble for
every node under an order, the frame that waits in time while the drive runs, and an IDLE frame otherwise; FRAME_LATE
past the latest send time repeats the node states of the last frame with no fine edge and the missed apply time,
counts it and raises FRAME_LATE. SAFE_FRAME on a free lane sends the first safe frame of an order. RETURN_FRAME with a
bad CRC is counted; a good one that answers the last frame completes the transaction it answers and stores every
node's status and the telemetry slots in the directory. STRING_CYCLE takes the request of the ring that comes next. -/
def Obligations.RingFrames : Prop :=
  ∀ (s : State) (r : Nat), ringSends s r = true → headOf s r = true → (s.ring r).pass = none →
    ((s.ring r).safeDue = false →
      (∀ nib, safeNibble s r = some nib → frameDue s r .safe = true → ∃ t f, exec (.frameSend r) s = .next t ∧ (t.ring r).last = some f ∧
        f.ftype = .safe ∧ f.seq = ((s.ring r).seq + 1) % 65536 ∧ f.send = sendTick s ∧
        f.states = List.replicate (ringNodes s r) nib ∧
        parGet t 6 (0x104 + 16 * r) = parGet s 6 (0x104 + 16 * r) + 1 ∧ (∀ q, q ≠ r → t.ring q = s.ring q) ∧
        t.plate = s.plate ∧ t.nv = s.nv ∧ t.mem.cells = s.mem.cells) ∧
      (∀ g, safeNibble s r = none → ringDriveRuns s r = true → (s.ring r).next = some g → frameDue s r .normal = true →
        inTime s r g.apply = true → ∃ t f,
        exec (.frameSend r) s = .next t ∧ (t.ring r).last = some f ∧ f.seq = ((s.ring r).seq + 1) % 65536 ∧
        f.send = sendTick s ∧ f.apply = g.apply ∧ f.mod = g.mod ∧ f.states.length = g.states.length ∧
        (∀ p, g.states.getD p 0 ≠ 16 → f.states.getD p 0 = g.states.getD p 0) ∧ (t.ring r).next = none ∧
        parGet t 6 (0x104 + 16 * r) = parGet s 6 (0x104 + 16 * r) + 1 ∧ (∀ q, q ≠ r → t.ring q = s.ring q) ∧
        t.plate = s.plate ∧ t.nv = s.nv ∧ t.mem.cells = s.mem.cells) ∧
      (safeNibble s r = none → ringDriveRuns s r = false → frameDue s r .idle = true → ∃ t f, exec (.frameSend r) s = .next t ∧
        (t.ring r).last = some f ∧ f.ftype = .idle ∧ f.seq = ((s.ring r).seq + 1) % 65536 ∧ f.send = sendTick s ∧
        f.states = List.replicate (ringNodes s r) 0 ∧ (∀ q, q ≠ r → t.ring q = s.ring q) ∧ t.nv = s.nv ∧ t.mem.cells = s.mem.cells) ∧
      (∀ g a, safeNibble s r = none → ringDriveRuns s r = true → missedApply s r = some a → s.marg.hoDue = false →
        (s.ring r).last = some g → ∃ t f, exec (.frameLate r) s = .next t ∧ (t.ring r).last = some f ∧
        f.ftype = .repeated ∧ f.states = g.states ∧ f.mod = none ∧ f.apply = a ∧
        parGet t 6 (0x105 + 16 * r) = counted (parGet s 6 (0x105 + 16 * r)) 1 ∧
        Raised s t 0x0601 r [ringPeriodNumber s r] ∧ t.nv = s.nv ∧ t.mem.cells = s.mem.cells)) ∧
    (∀ nib, (s.ring r).safeDue = true → safeNibble s r = some nib → downLaneFree s r = true → ∃ t f, exec (.safeFrame r) s = .next t ∧
      (t.ring r).last = some f ∧ f.ftype = .safe ∧ f.states = List.replicate (ringNodes s r) nib ∧
      (t.ring r).safeDue = false ∧ (∀ q, q ≠ r → t.ring q = s.ring q) ∧ t.nv = s.nv ∧ t.mem.cells = s.mem.cells) ∧
    (∀ bytes rt f l, (s.ring r).last = some l → f = readReturn (frameStates (ringNodes s r) l) rt false bytes →
      (f.crcOk = false → ∃ t, exec (.returnFrame r bytes rt) s = .next t ∧ (t.ring r).returned = true ∧ (t.ring r).missRun = 0 ∧
        parGet t 6 (0x107 + 16 * r) = counted (parGet s 6 (0x107 + 16 * r)) 1 ∧ t.stip.dir = s.stip.dir ∧
        ((s.ring r).crcTick = none → Raised s t 0x0607 r [1])) ∧
      (f.crcOk = true → f.seq = l.seq → l.ftype ≠ .enum → (s.ring r).lateFold = false → (s.ring r).farAt = none →
        ringNodes s r ≤ f.hops → ∃ t, exec (.returnFrame r bytes rt) s = .next t ∧
        (∀ p, p < ringNodes s r → (t.entry (dirIndex r p)).status = f.status.getD p 0xF) ∧
        (∀ j, f.tlmKind = 0 → j < 32 → 32 * f.tlmGroup + j < ringNodes s r → wbit (f.slots.getD j 0xFFFFFFFF) 7 = false →
          (t.entry (dirIndex r (32 * f.tlmGroup + j))).tlm = f.slots.getD j 0xFFFFFFFF ∧
          (t.entry (dirIndex r (32 * f.tlmGroup + j))).tlmTick = s.now % 2 ^ 32) ∧
        (∀ m rest e, (s.ring r).mgmt = m :: rest → m.stage = 2 → m.tag < 1024 → tagEntry s m.tag = some e →
          e.phase = .running → f.rstatus ≠ 15 → f.rstatus ≠ 3 → f.rtid = m.tid → f.responder = m.pos →
          (t.ring r).mgmt = rest ∧ Replied s t m.tag 0 (wrd (f.rstatus * 2 ^ 28 + (m.attempts - 1)) ::
            twoWords (if f.rstatus = 0 then f.rdata.toNat else 0))) ∧
        t.nv = s.nv ∧ t.mem.cells = s.mem.cells)) ∧
    (nextString s = some r → ∃ t, exec (.stringCycle r) s = .next t ∧
      (t.ring r).req = none ∧ t.nv = s.nv ∧ t.mem.cells = s.mem.cells ∧
      ((s.ring r).last ≠ none → (s.ring r).returned = false → (s.ring r).lateFold = false → (s.ring r).foldDue = none →
        parGet t 6 (0x106 + 16 * r) = counted (parGet s 6 (0x106 + 16 * r)) 1 ∧
        Raised s t 0x0602 r [ringPeriodNumber s r]))

/-- For every state and present ring. RING_LINK_CHANGE makes the link of exactly that ring up, when its receive lane
is up, or down. ENUM_LINK_TIMEOUT of a pass that has waited 100 µs for its link ends it as failed with RESULT 1: every
directory entry of the ring is absent with EXCL 7 and ENUM_DONE is raised. ENUM_FAR_PASS on the device that waits for
it stores the far delays and FAR_OK for RESULT 0, or clears them and gives RESULT 4, and raises ENUM_DONE; on side B
in STANDBY without a pass it starts one from the far end. FAR_PORT_DOWN_FRAME on a standby keeps a copy of the frame,
turns it round and keeps its tick, and changes nothing else. -/
def Obligations.RingLinksAndPasses : Prop :=
  ∀ (s : State) (r : Nat), r < ringCount s.part →
    (∀ up lock, ∃ t, exec (.ringLinkChange r up lock) s = .next t ∧ (t.ring r).linkUp = (up && lock) ∧ (t.ring r).lock = lock ∧ (t.ring r).last = (s.ring r).last ∧
      ((s.ring r).st ≠ .down → (s.ring r).st ≠ .link → (t.ring r).st = (s.ring r).st) ∧
      (∀ q, q ≠ r → t.ring q = s.ring q) ∧ t = { s with stip := { s.stip with rings := t.stip.rings } }) ∧
    (∀ p, (s.ring r).pass = some p → p.step = .link → p.start + 40000 ≤ s.now → ∃ t, exec (.enumLinkTimeout r) s = .next t ∧ (t.ring r).st = .failed ∧
      (t.ring r).result = 1 ∧ (t.ring r).pass = none ∧ (∀ i, i < 256 → (t.entry (dirIndex r i)).present = false ∧
        (t.entry (dirIndex r i)).excl = 7) ∧ Raised s t 0x0608 r [wrd p.found] ∧ (∀ q, q ≠ r → t.ring q = s.ring q) ∧
      (∀ n e, p.tag = some n → n < 1024 → tagEntry s n = some e → e.phase = .running →
        Replied s t n 0 [wrd (2 ^ 28 + p.found * 2 ^ 16), wrd (p.rt % 2 ^ 24)])) ∧
    (∀ p e res ds, (s.ring r).pass = some p → (s.ring r).farDue = true → ∃ t, exec (.enumFarPass r e res ds) s = .next t ∧
      (t.ring r).farOk = decide (res = 0) ∧ (t.ring r).result = (if res = 0 then 0 else 4) ∧ (t.ring r).pass = none ∧
      (∀ i, i < 256 → (t.entry (dirIndex r i)).bValid = decide (res = 0 ∧ i < p.expect) ∧
        (t.entry (dirIndex r i)).delayB = if res = 0 ∧ i < p.expect then ds.getD i 0 % 2 ^ 24 else 0) ∧
      Raised s t 0x0608 r [wrd p.found] ∧ (∀ q, q ≠ r → t.ring q = s.ring q)) ∧
    (∀ e res ds, (s.ring r).pass = none → s.marg.sideB = true → s.marg.linkUp = true → s.marg.role ≠ 1 → s.op = .standby →
      1 ≤ e → e ≤ 256 → ∃ t p, exec (.enumFarPass r e res ds) s = .next t ∧ (t.ring r).st = .enumerating ∧
      (t.ring r).pass = some p ∧ p.expect = e ∧ p.fromFar = true ∧ ringNodes t r = e ∧ (∀ q, q ≠ r → t.ring q = s.ring q) ∧
      t = { s with par := t.par, stip := { s.stip with rings := t.stip.rings } }) ∧
    (∀ b, s.marg.role = 2 → 62 ≤ b.length → ∃ t, exec (.farPortDownFrame r b) s = .next t ∧
      t.ring r = { s.ring r with farCopy := b, farReturn := turnRound b } ∧ (∀ q, q ≠ r → t.ring q = s.ring q) ∧
      tblGet t.marg.farD none r = some s.now ∧
      t = { s with marg := { s.marg with farD := t.marg.farD }, stip := { s.stip with rings := t.stip.rings } })

/-- For every state in which the command may start. MEM_READ of 1 to 960 aligned words inside one readable region
completes with its words and two bitmaps of marks, with OK when none is marked, and stores nothing; the words of a
region of plain data are those of memory. MEM_WRITE of aligned words that the host may write completes with OK: each
word that can land at once reads back, and every byte outside the range is as before. An access to LPDDR5 that must be
held waits. CAPTURE_ARM arms exactly its buffer with the written fields and replies with the tick, or stops it,
raising CAPTURE_STOPPED if it was armed, and replies with the tick at which it was armed. SCRUB_STATUS replies with
twelve words and changes nothing. -/
def Obligations.MemoryCommands : Prop :=
  ∀ (s : State) (tag : Nat),
    (∀ lo hi n, Starts s tag 0x70 [lo, hi, wrd n] → 1 ≤ n → n ≤ 960 → ofTwoWords lo hi % 4 = 0 →
      insideRegion s (ofTwoWords lo hi) n = true → readable s (ofTwoWords lo hi) = true →
      (hasLp s.part = true → namesLp (ofTwoWords lo hi) = true → s.mem.lpOnline = true) →
      (lpWaits s (ofTwoWords lo hi) n false = true → ∃ t, exec (.memRead tag) s = .next t ∧ Waiting s t tag ∧
        t = { s with folio := t.folio, mem := { s.mem with lpWait := s.mem.lpWait ++ [(tag, false, [lo, hi, wrd n])] } }) ∧
      (lpWaits s (ofTwoWords lo hi) n false = false → ∃ t st ws, exec (.memRead tag) s = .next t ∧ Replied s t tag st ws ∧
        st ∈ [0, stPoison, stUnwritten] ∧ ws.length = n + 2 * ((n + 31) / 32) ∧ t.mem.cells = s.mem.cells ∧ t.nv = s.nv ∧
        ((∀ i, i < n → errAt s (ofTwoWords lo hi + 4 * i) = .none ∧ wordMark s (ofTwoWords lo hi + 4 * i) = .none) → st = 0) ∧
        (regionNum s (ofTwoWords lo hi) ∈ [8, 9, 16, 17, 32] → ∀ i, i < n →
          ws.getD i 0 = readWord s (ofTwoWords lo hi + 4 * i)))) ∧
    (∀ lo hi ws, Starts s tag 0x71 (lo :: hi :: ws) → ws ≠ [] → ofTwoWords lo hi % 4 = 0 →
      rangeMapped s (ofTwoWords lo hi) ws.length = true → rangeDenied s (ofTwoWords lo hi) ws.length = false →
      touchesArmed s 4 (ofTwoWords lo hi) (4 * ws.length) = false → touchesMirror s (ofTwoWords lo hi) (4 * ws.length) = false →
      (hasLp s.part = true → s.mem.lpOnline = false → ∀ i, i < ws.length → namesLp (ofTwoWords lo hi + 4 * i) = false) →
      (lpWaits s (ofTwoWords lo hi) ws.length true = true → ∃ t, exec (.memWrite tag) s = .next t ∧ Waiting s t tag ∧
        t = { s with folio := t.folio, mem := { s.mem with lpWait := s.mem.lpWait ++ [(tag, true, lo :: hi :: ws)] } }) ∧
      (lpWaits s (ofTwoWords lo hi) ws.length true = false → ∃ t, exec (.memWrite tag) s = .next t ∧ Replied s t tag 0 [] ∧
        (∀ b, b < ofTwoWords lo hi ∨ ofTwoWords lo hi + 4 * ws.length ≤ b → readByte t b = readByte s b) ∧ t.nv = s.nv ∧
        ((∀ i, i < ws.length → memOf (ofTwoWords lo hi + 4 * i) ≠ 2 ∨
            (blockWritten s (lpBlock (ofTwoWords lo hi + 4 * i)) = true ∧
              blockFilling s (lpBlock (ofTwoWords lo hi + 4 * i)) = false)) →
          ∀ i, i < ws.length → readWord t (ofTwoWords lo hi + 4 * i) = ws.getD i 0))) ∧
    (∀ b lp mode lo hi size post m0 m1, b < 4 → mode < 3 →
      Starts s tag 0x72 [wrd (2 ^ 31 + mode * 2 ^ 28 + b2n lp * 2 ^ 24 + b), lo, hi, size, post, m0, m1] →
      (s.cap b).armed = false → (lp = true → hasLp s.part = true ∧ s.mem.lpOnline = true) → ofTwoWords lo hi % 4096 = 0 →
      size ≠ 0 → post.toNat ≤ 512 * size.toNat → ofTwoWords m0 m1 ≠ 0 →
      (if lp then lpBase else 0x4A0000) ≤ ofTwoWords lo hi →
      ofTwoWords lo hi + size.toNat * 4096 ≤ (if lp then lpBase + lpUsable s else 0x8A0000) →
      touchesArmed s b (ofTwoWords lo hi) (size.toNat * 4096) = false →
      touchesMirror s (ofTwoWords lo hi) (size.toNat * 4096) = false → ∃ t, exec (.captureArm tag) s = .next t ∧
      Replied s t tag 0 (twoWords s.now) ∧
      t.cap b = { armed := true, lp := lp, mode := mode, base := ofTwoWords lo hi, size := size.toNat, post := post.toNat,
                  mask := ofTwoWords m0 m1, armTick := s.now } ∧ (∀ c, c ≠ b → c < 4 → t.cap c = s.cap c) ∧ t.nv = s.nv ∧
      ((s.cap b).queue = [] → t.mem.cells = s.mem.cells)) ∧
    (∀ b ws, b < 4 → ws.length = 6 → Starts s tag 0x72 (wrd b :: ws) → ∃ t, exec (.captureArm tag) s = .next t ∧
      Replied s t tag 0 (twoWords (s.cap b).armTick) ∧ (t.cap b).armed = false ∧
      ((s.cap b).armed = true → (t.cap b).stopTick = s.now ∧ Raised s t 0x0A07 b []) ∧ (∀ c, c ≠ b → t.cap c = s.cap c) ∧
      t = { s with folio := t.folio, mem := { s.mem with caps := t.mem.caps }, book := { s.book with inq := t.book.inq } }) ∧
    (Starts s tag 0x73 [] → ∃ t ws, exec (.scrubStatus tag) s = .next t ∧ Replied s t tag 0 ws ∧ ws.length = 12 ∧
      (∀ i, i < 12 → ws.getD i 0 = if 8 ≤ i ∧ s.part = .itc8104 then 0xFFFFFFFF else parGet s 10 (0x10 + i)) ∧
      t = { s with folio := t.folio })

/-- For every state. SCRUB_STEP of an awake SRAM or MRAM without new upsets goes past a clean word, or ends the lap at
the top, and corrects and counts a single error, changing no byte. LPDDR5_TRAINING, in a start from boot step 5 on,
with good values brings LPDDR5 online, otherwise it raises LPDDR5_FAULT 1. MR4_POLL, each 1 ms, takes the multiplier,
and at first beyond the range raises cause 3. LPDDR5_REFRESH counts a refresh or a missed one each interval, and does
nothing before; LPDDR5_RELOCK issues the missed ones and ends the hold; LPDDR5_RELOCK_TIMEOUT does nothing for 200 us,
then takes LPDDR5 offline with cause 2 and stops its captures and the mirror. BLOCK_FILL_DONE makes the block written,
zero where no write waited. CAPTURE_STOP stops a full buffer. LPDDR5_REQUEST_DONE lands the oldest record of its
requester. -/
def Obligations.MemoryUpkeep : Prop :=
  ∀ s : State,
    (∀ k up raced, ∃ t, exec (.scrubStep k up raced) s = .next t ∧ t.mem.cells = s.mem.cells ∧ t.nv = s.nv) ∧
    (∀ k raced, k < 2 → s.pwr.sleep = .awake → scrubBase k + tblGet s.mem.scrubAddr 0 k < scrubTop s k →
      (errAt s (8 * (scrubBase k + tblGet s.mem.scrubAddr 0 k)) = .none → ∃ t, exec (.scrubStep k [] raced) s = .next t ∧
        (scrubBase k + tblGet s.mem.scrubAddr 0 k + 1 < scrubTop s k →
          tblGet t.mem.scrubAddr 0 k = tblGet s.mem.scrubAddr 0 k + 1 ∧
          t = { s with mem := { s.mem with scrubAddr := t.mem.scrubAddr } }) ∧
        (scrubTop s k ≤ scrubBase k + tblGet s.mem.scrubAddr 0 k + 1 → tblGet t.mem.scrubAddr 0 k = 0 ∧
          tblGet t.mem.lapStart 0 k = s.now ∧
          parGet t 10 (0x10 + 4 * k) = wrd ((s.now - tblGet s.mem.lapStart 0 k) / 400000))) ∧
      (errAt s (8 * (scrubBase k + tblGet s.mem.scrubAddr 0 k)) = .single → (k = 1 → mramOpen s = true) → ∃ t,
        exec (.scrubStep k [] false) s = .next t ∧ errAt t (8 * (scrubBase k + tblGet s.mem.scrubAddr 0 k)) = .none ∧
        parGet t 10 0x20 = counted (parGet s 10 0x20) 1)) ∧
    (hasLp s.part = true → s.mem.lpOnline = false → s.mem.lpCause = 0 → s.pwr.resetting = none →
      (s.op = .boot → 5 ≤ s.pwr.bootStep) →
      (∀ d r, 1 ≤ d → d ≤ 3 → r ≤ 1 → exec (.lpddr5Training true d r) s =
        .next { s with mem := { s.mem with lpOnline := true, density := d, ranks := r } }) ∧
      (∀ ok d r, ok = false ∨ d = 0 ∨ 3 < d ∨ 1 < r → ∃ t, exec (.lpddr5Training ok d r) s = .next t ∧
        t.mem.lpOnline = false ∧ t.mem.lpCause = 1 ∧ Raised s t 0x0A08 0 [1])) ∧
    (s.mem.lpOnline = true →
      (∀ m, m ∈ [1, 2, 4] → s.mem.mr4Tick + msTicks ≤ s.now → exec (.mr4Poll m false) s =
        .next { s with mem := { s.mem with mr4Tick := s.now, mr4 := m, mr4Over := false } }) ∧
      (∀ m, s.mem.mr4Over = false → s.mem.mr4Tick + msTicks ≤ s.now → ∃ t, exec (.mr4Poll m true) s = .next t ∧ t.mem.mr4Over = true ∧
        refreshMult t = 4 ∧ Raised s t 0x0A08 0 [3]) ∧
      (∀ b, b < 32 → refreshDue s = false → exec (.lpddr5Refresh b) s = .next s) ∧
      (∀ b, b < 32 → refreshDue s = true → exec (.lpddr5Refresh b) s = .next { s with mem := { s.mem with
        refTick := s.now, refreshes := s.mem.refreshes + (if s.mem.lpHeld then 0 else 1),
        missedRef := s.mem.missedRef + (if s.mem.lpHeld then 1 else 0) } })) ∧
    (s.mem.lpHeld = true →
      (∃ t, exec .lpddr5Relock s = .next t ∧ t.mem.lpHeld = false ∧ t.mem.missedRef = 0 ∧
        t.mem.refreshes = s.mem.refreshes + s.mem.missedRef) ∧
      (s.now < s.mem.lpHeldAt + 200 * usTicks → exec .lpddr5RelockTimeout s = .next s) ∧
      (s.mem.lpHeldAt + 200 * usTicks ≤ s.now → ∃ t, exec .lpddr5RelockTimeout s = .next t ∧ t.mem.lpOnline = false ∧ t.mem.lpHeld = false ∧ t.mem.lpCause = 2 ∧
        Raised s t 0x0A08 0 [2] ∧ wbit (parGet t 13 4) 31 = false ∧ t.book.mirActive = false ∧
        (∀ b, b < 4 → (s.cap b).lp = true → (t.cap b).armed = false))) ∧
    (∀ b f, s.mem.fills.find? (fun f => decide (f.1 = b)) = some f → s.mem.lpWait = [] → s.mem.lpStore = [] → ∃ t,
      exec (.blockFillDone b) s = .next t ∧ blockWritten t b = true ∧
      t.mem.fills = s.mem.fills.filter (fun x => decide (x.1 ≠ b)) ∧
      (∀ a, (∀ x ∈ f.2, a < x.1 ∨ x.1 + 4 ≤ a) → readByte t a =
        if lpBase + 4096 * b ≤ a ∧ a < lpBase + 4096 * b + 4096 then 0 else readByte s a)) ∧
    (∀ b f, s.mem.fills.find? (fun f => decide (f.1 = b)) = some f → ∃ t, exec (.blockFillDone b) s = .next t ∧
      blockWritten t b = true) ∧
    (∀ b, b < 4 → (s.cap b).armed = true → captureFull (s.cap b) = true → underTest s 10 = false → ∃ t,
      exec (.captureStop b) s = .next t ∧
      t.cap b = { s.cap b with armed := false, stopped := true, stopTick := s.now } ∧ Raised s t 0x0A07 b [] ∧
      t = { s with mem := { s.mem with caps := t.mem.caps }, book := { s.book with inq := t.book.inq } }) ∧
    (s.mem.lpOnline = true → s.mem.lpHeld = false →
      (∀ b x r, b < 4 → b ∈ s.mem.lpOut → (s.cap b).queue = x :: r → ∃ t, exec (.lpddr5RequestDone b) s = .next t ∧
        (t.cap b).queue = r ∧ (s.mem.lpWait = [] → s.mem.lpStore = [] → ((s.cap b).base + (s.cap b).write) % 8 = 0 →
          blockWritten s (lpBlock ((s.cap b).base + (s.cap b).write)) = true →
          blockFilling s (lpBlock ((s.cap b).base + (s.cap b).write)) = false →
          readWord t ((s.cap b).base + (s.cap b).write) = wrd x.toNat ∧
          readWord t ((s.cap b).base + (s.cap b).write + 4) = wrd (x.toNat / 2 ^ 32))) ∧
      (∀ e r base n, 4 ∈ s.mem.lpOut → s.book.mirQueue = e :: r → mirrorArea s = some (base, n) →
        s.book.mirIndex + 1 < mirrorSize s → ∃ t, exec (.lpddr5RequestDone 4) s = .next t ∧ t.book.mirQueue = r ∧
        t.book.mirIndex = s.book.mirIndex + 1))

/-- For every state. SKETCHBOOK_WRITE writes the first waiting event once its tick is over: it takes the next SEQ, is
stored last when the log is not frozen, the oldest of 4096 making room, and is counted as dropped when it is;
SAFE_ENTRY arms the freeze with 256 entries to go; the command that waits for this event completes with its SEQ. For a
command that may start: LOG_READ replies with the newest entries, or those from a SEQ on, with POISON when one is
marked, and where no word has an error changes nothing; LOG_MARK captures LOG_MARK with its words and waits for its
SEQ; LOG_CLEAR ends the freeze, with ERASE removes every earlier entry, captures LOG_CLEARED and waits for its SEQ. -/
def Obligations.SketchbookEntries : Prop :=
  ∀ s : State,
    (∀ e r, s.book.inq = e :: r → tickOpen s e = true → exec .sketchbookWrite s = .next s) ∧
    (∀ e r tag x, s.book.inq = e :: r → tickOpen s e = false → tag < 1024 →
      s.book.markWait.find? (fun w => w.1 = e.code && w.2.1 = e.time) = some (e.code, e.time, tag) →
      tagEntry s tag = some x → x.phase ≠ .replied → ∃ t, exec .sketchbookWrite s = .next t ∧
      Replied s t tag 0 [wrd s.book.nextSeq]) ∧
    (∀ e r, s.book.inq = e :: r → tickOpen s e = false → ∃ t, exec .sketchbookWrite s = .next t ∧ t.book.inq = r ∧ t.nv = s.nv ∧
      t.mem.cells = s.mem.cells ∧
      (s.book.frozen = true → t.book.log = s.book.log ∧ t.book.frozen = true ∧
        t.book.nextSeq = (s.book.nextSeq + 1) % 65536 ∧ parGet t 13 3 = counted (parGet s 13 3) 1) ∧
      (s.book.frozen = false → s.book.armed = false →
        t.book.log = (if 4096 ≤ s.book.log.length then s.book.log.tail else s.book.log) ++ [⟨s.book.nextSeq, e⟩] ∧
        t.book.nextSeq = (s.book.nextSeq + 1) % 65536 ∧ t.book.frozen = false ∧ t.book.armed = decide (e.code = 0x0902) ∧
        (e.code = 0x0902 → t.book.left = 256 ∧ t.book.armSeq = s.book.nextSeq)) ∧
      (s.book.frozen = false → s.book.armed = true → s.book.left = 2 → t.book.frozen = true ∧ t.book.armed = false ∧
        t.book.nextSeq = (s.book.nextSeq + 2) % 65536 ∧ t.book.frozenSeq = (s.book.nextSeq + 1) % 65536) ∧
      (s.book.frozen = false → s.book.armed = true → 2 < s.book.left → t.book.frozen = false ∧ t.book.armed = true ∧
        t.book.left = s.book.left - 1)) ∧
    (∀ tag newest count q, 1 ≤ count → count ≤ 32 → q < 65536 →
      Starts s tag 0x80 [wrd (b2n newest * 2 ^ 31 + count * 2 ^ 16 + q)] → ∃ t es m, exec (.logRead tag) s = .next t ∧
      es = (if newest then s.book.log.drop (s.book.log.length - count)
        else (s.book.log.dropWhile fun e => !seqFrom e.seq q).take count) ∧
      Replied s t tag (if es.any (entryMarked t) then stPoison else 0)
        ([logSeq s, wrd (b2n s.book.frozen * 2 ^ 31 + b2n s.book.armed * 2 ^ 30 + es.length)] ++ es.flatMap eventWords ++ [m]) ∧
      t.book.log = s.book.log ∧ t.mem.cells = s.mem.cells ∧ t.nv = s.nv ∧ (s.mem.errs = [] → t = { s with folio := t.folio })) ∧
    (∀ tag ws, Starts s tag 0x81 ws → ∃ t, exec (.logMark tag) s = .next t ∧ Waiting s t tag ∧ Raised s t 0x0D02 0 ws ∧
      t.book.markWait = s.book.markWait ++ [(0x0D02, s.now, tag)] ∧ t.book.log = s.book.log ∧ t.nv = s.nv ∧
      t.mem.cells = s.mem.cells) ∧
    (∀ tag w, Starts s tag 0x82 [w] → w ∈ [1, 2, 3] → ∃ t, exec (.logClear tag) s = .next t ∧ Raised s t 0x0D03 0 [] ∧
      t.book.frozen = false ∧ t.book.armed = false ∧ t.nv = s.nv ∧
      (wbit w 0 = true → ∀ e ∈ t.book.log, s.now ≤ e.ev.time) ∧
      ((∀ e ∈ s.book.inq, s.now ≤ e.time) → Waiting s t tag ∧ t.mem.cells = s.mem.cells ∧
        t.book.markWait = s.book.markWait ++ [(0x0D03, s.now, tag)] ∧ (wbit w 0 = false → t.book.log = s.book.log)))

/-- For every state. For a command that may start: MBX_POST to an empty slot below 14 stores the message there alone;
MBX_READ of a full mailbox takes its message and empties it, of an empty one replies 0 and changes nothing; DOORBELL
clears its own bits, sends the others to the partner while the link is up, and replies with what is left. A MAILBOX
cell in order fills its empty mailbox and raises MBX_ARRIVED but for 12 and 13; MBX_FREE returns a credit; a DOORBELL
cell adds its bits and raises DOORBELL_RUNG. RELAY_REQUEST takes the request of a free pair of mailboxes: one that
fails its checks gets the code alone, and a GET_PARAM gets the values. -/
def Obligations.PairMessages : Prop :=
  ∀ s : State,
    (∀ tag n ws, n < 14 → ws.length = 8 → slotFull s n = false → Starts s tag 0x90 (wrd n :: ws) → ∃ t,
      exec (.mbxPost tag) s = .next t ∧ Replied s t tag 0 [] ∧ tblGet t.marg.outbox [] n = ws ∧
      (∀ m, m ≠ n → tblGet t.marg.outbox [] m = tblGet s.marg.outbox [] m) ∧
      t = { s with folio := t.folio, marg := { s.marg with outbox := t.marg.outbox, outSent := t.marg.outSent } }) ∧
    (∀ tag n, n < 16 → n ≠ 12 → n ≠ 13 → Starts s tag 0x91 [wrd n] →
      (inMessage s n = none → ∃ t, exec (.mbxRead tag) s = .next t ∧ Replied s t tag 0 [0] ∧ t = { s with folio := t.folio }) ∧
      (∀ ws mark, inMessage s n = some (ws, mark) → ∃ t, exec (.mbxRead tag) s = .next t ∧
        Replied s t tag (if mark then stPoison else 0) (1 :: ws) ∧ inMessage t n = none ∧
        (∀ m, m ≠ n → inMessage t m = inMessage s m) ∧
        t = { s with folio := t.folio, marg := { s.marg with inbox := t.marg.inbox, queue := t.marg.queue } })) ∧
    (∀ tag a b, Starts s tag 0x92 [a, b] → ∃ t, exec (.doorbell tag) s = .next t ∧
      Replied s t tag 0 [s.marg.doorbell &&& ~~~ b] ∧ t.marg.doorbell = s.marg.doorbell &&& ~~~ b ∧
      t.marg.queue = s.marg.queue ++ (if s.marg.linkUp then [⟨.doorbell, 0, 0, 0, [a, 0, 0, 0, 0, 0, 0, 0], 0⟩] else []) ∧
      t = { s with folio := t.folio, marg := { s.marg with doorbell := t.marg.doorbell, queue := t.marg.queue } }) ∧
    (∀ seq ack, Arrives s seq →
      (∀ n ws, n < 16 → ws.length = 8 → inMessage s n = none → ∃ t, exec (.mailboxReceived seq ack n ws) s = .next t ∧
        Taken s t ack ∧ inMessage t n = some (ws, false) ∧ (∀ m, m ≠ n → inMessage t m = inMessage s m) ∧
        (n ≠ 12 → n ≠ 13 → Raised s t 0x0B04 n []) ∧
        t = { s with marg := t.marg, book := { s.book with inq := t.book.inq } }) ∧
      (∀ n, n < 16 → ∃ t, exec (.mbxFreeReceived seq ack n) s = .next t ∧ Taken s t ack ∧ t.marg.credit.testBit n = true ∧
        (∀ m, m ≠ n → t.marg.credit.testBit m = s.marg.credit.testBit m) ∧ t = { s with marg := t.marg }) ∧
      (∀ w, ∃ t, exec (.doorbellReceived seq ack w) s = .next t ∧ Taken s t ack ∧
        t.marg.doorbell = s.marg.doorbell ||| w ∧ Raised s t 0x0B05 0 [w] ∧
        t = { s with marg := t.marg, book := { s.book with inq := t.book.inq } })) ∧
    (∀ n ws mark, n = 12 ∨ n = 13 → engineReady s 0x03 = true → slotFull s (n + 2) = false →
      tblGet s.marg.relayWait [] n = [] → inMessage s n = some (ws, mark) →
      (∀ c, relayCode s (BitVec.ofNat 64 (ofTwoWords (ws.getD 0 0) (ws.getD 1 0))) = c → c ≠ acAccepted → ∃ t,
        exec (.relayRequest n) s = .next t ∧ inMessage t n = none ∧ tblGet t.marg.outbox [] (n + 2) = relayMessage c none [] ∧
        t = { s with marg := t.marg }) ∧
      (∀ h l, h = BitVec.ofNat 64 (ofTwoWords (ws.getD 0 0) (ws.getD 1 0)) → relayCode s h = acAccepted → hOpcode h = 0x03 →
        l = (ws.drop 2).take (hLength h) → ws.getD (2 + hLength h) 0 = payloadCrc l → opServed 0x03 s.op = true →
        s.op ≠ .shutdown → (∀ a ∈ l, getBad s a = false ∧ isAbsent s (adUnit a) (adIndex a) = false ∧
          adUnit a ∈ [0, 1, 3, 5, 12, 13, 14, 15]) →
        ∃ t r, exec (.relayRequest n) s = .next t ∧ inMessage t n = none ∧ r = (l.flatMap fun a =>
          [a, readParam s (adUnit a) (adIndex a)]) ∧
        tblGet t.marg.outbox [] (n + 2) = relayMessage 9 (some (mkHeader 0x03 (hTag h) r.length (hUnit h) 2 0)) r ∧
        t = { s with marg := t.marg }))

/-- For every state in which the lock command may start with a lock below 32. On side A, which holds the locks:
LOCK_RELEASE of the host's own or of a free lock completes with OK and the lock is free, and of another owner's
completes with DENIED and changes nothing; LOCK_ACQUIRE of a free lock makes the host its owner with reply 0, and of
an owned one replies with its code. On side B with the link up both wait and send a LOCK cell, and the answer
completes them: owner 0 with OK, any other with DENIED for a release, and with the owner for an acquire. Side A
answers a LOCK cell by the same rule. No other lock changes. -/
def Obligations.LockRegisters : Prop :=
  ∀ s : State,
    (∀ tag l, l < 32 → s.marg.sideB = false →
      (Starts s tag 0x94 [wrd l] → ∃ t, exec (.lockRelease tag) s = .next t ∧
        (lockOwner s l = .hostA ∨ lockOwner s l = .free → Replied s t tag 0 [] ∧ lockOwner t l = .free) ∧
        (lockOwner s l ≠ .hostA → lockOwner s l ≠ .free → Replied s t tag stDenied [] ∧ lockOwner t l = lockOwner s l) ∧
        (∀ m, m ≠ l → lockOwner t m = lockOwner s m) ∧
        t = { s with folio := t.folio, marg := { s.marg with locks := t.marg.locks } }) ∧
      (Starts s tag 0x93 [wrd l] → ∃ t, exec (.lockAcquire tag) s = .next t ∧
        (lockOwner s l = .free → Replied s t tag 0 [0] ∧ lockOwner t l = .hostA) ∧
        (lockOwner s l ≠ .free → Replied s t tag 0 [wrd (ownerCode (lockOwner s l) false)] ∧ lockOwner t l = lockOwner s l) ∧
        (∀ m, m ≠ l → lockOwner t m = lockOwner s m) ∧
        t = { s with folio := t.folio, marg := { s.marg with locks := t.marg.locks } })) ∧
    (∀ tag l, l < 32 → s.marg.sideB = true → s.marg.linkUp = true →
      (Starts s tag 0x94 [wrd l] → ∃ t c, exec (.lockRelease tag) s = .next t ∧ Waiting s t tag ∧
        t.marg.queue = s.marg.queue ++ [c] ∧ c.ctype = .lock ∧ c.sub = l ∧
        t.marg.lockWait = s.marg.lockWait ++ [(s.marg.lockNum, tag, true)] ∧ t.marg.locks = s.marg.locks) ∧
      (Starts s tag 0x93 [wrd l] → ∃ t c, exec (.lockAcquire tag) s = .next t ∧ Waiting s t tag ∧
        t.marg.queue = s.marg.queue ++ [c] ∧ c.ctype = .lock ∧ c.sub = l ∧
        t.marg.lockWait = s.marg.lockWait ++ [(s.marg.lockNum, tag, false)] ∧ t.marg.locks = s.marg.locks)) ∧
    (∀ seq ack l o n tag rel e, Arrives s seq → l < 32 → o < 5 →
      s.marg.lockWait.find? (fun w => decide (w.1 = n)) = some (n, tag, rel) → tag < 1024 → tagEntry s tag = some e →
      e.phase = .running → ∃ t, exec (.lockReplyReceived seq ack l o n) s = .next t ∧ Taken s t ack ∧
      Replied s t tag (if rel = true ∧ o ≠ 0 then stDenied else 0) (if rel then [] else [wrd o]) ∧
      t.marg.locks = s.marg.locks ∧ t = { s with folio := t.folio, marg := t.marg }) ∧
    (∀ seq ack l acq host n, Arrives s seq → l < 32 → s.marg.sideB = false → ∃ t c who,
      exec (.lockReceived seq ack l acq host n) s = .next t ∧ Taken s t ack ∧
      who = (if host then LockOwner.hostB else LockOwner.plateB) ∧ t.marg.queue = s.marg.queue ++ [c] ∧ c.ctype = .lockReply ∧
      (acq = true → lockOwner s l = .free → lockOwner t l = who) ∧ (acq = true → lockOwner s l ≠ .free →
        lockOwner t l = lockOwner s l) ∧ (acq = false → lockOwner t l = if lockOwner s l = who then .free else lockOwner s l) ∧
      (∀ m, m ≠ l → lockOwner t m = lockOwner s m) ∧ t = { s with marg := t.marg })

/-- For every state. Deskewed lanes without a link send and take LINK cells, and one of the other side with PEER_SEEN
brings the link up with fresh SEQ counters, raising PRESENCE_MISMATCH for unlike parts; one of the same side keeps it
down. A loss that holds takes the link down. CELL_SEND sends the first cell in the order of R407, a sequenced one with
the next SEQ, which then waits for its acknowledgement. An ACK ends the wait of exactly the cells it acknowledges and
empties the slots of their messages; after 2 us without one CELL_RETRANSMIT makes every unacknowledged cell due again,
which CELL_SEND then sends oldest first and counts; a cell that fails its CRC is counted. ACK_DUE queues an ACK 1 us
after the last cell. -/
def Obligations.LinkCells : Prop :=
  ∀ s : State,
    (marginRuns s = true → s.marg.linkUp = false →
      (∃ t, exec .marginLaneDeskew s = .next t ∧ t = { s with marg := { s.marg with deskewed := true, linkTick := none } }) ∧
      (s.marg.deskewed = true →
        (∀ x, s.marg.linkTick = some x → s.now < x + 2 * usTicks → exec .linkCellDue s = .next s) ∧
        ((∀ x, s.marg.linkTick = some x → x + 2 * usTicks ≤ s.now) → ∃ t c, exec .linkCellDue s = .next t ∧
          t.marg.wire = some c ∧ c.ctype = .link ∧ c.payload = linkPayload s ∧ t.marg.linkTick = some s.now ∧
          t.marg.wireEnd = s.now + 88 ∧ t = { s with marg := t.marg }) ∧
        (∀ b p, exec (.linkCellReceived b p) s =
          .next { s with marg := { s.marg with peerSeen := true, peerSide := b, peerPresence := p } }) ∧
        (∀ p, ∃ t, exec (.marginLinkUp s.marg.sideB p) s = .next t ∧ t.marg.linkUp = false ∧ t.marg.sideConflict = true ∧
          t = { s with marg := t.marg }) ∧
        (∀ p, ∃ t, exec (.marginLinkUp (!s.marg.sideB) p) s = .next t ∧ t.marg.linkUp = true ∧ t.marg.sideConflict = false ∧
          t.marg.txSeq = 0 ∧ t.marg.rxSeq = 0 ∧ t.marg.unacked = [] ∧ parGet t 11 4 = p ∧
          t.marg.presMismatch = decide (p ≠ presence s.part) ∧
          (p ≠ presence s.part → Raised s t 0x0B06 0 [p]) ∧
          Reacted { s with par := (parSet s 11 4 p).par, marg := t.marg,
                           tim := { s.tim with stepDue := t.tim.stepDue } } t))) ∧
    (∀ c, c ≤ 3 → (c = 1 → 8 ≤ s.marg.crcRun) → (c = 3 → 16 ≤ s.marg.resends) → s.marg.linkUp = true → ∃ t,
      exec (.marginLinkLoss c) s = .next t ∧ t.marg.linkUp = false ∧ t.marg.deskewed = false ∧ t.marg.unacked = [] ∧
      t.marg.mirrorOk = false ∧ parGet t 11 0xA = counted (parGet s 11 0xA) 1 ∧ Raised s t 0x0B03 0 [] ∧
      (c = 2 → t.tim.td4 = false) ∧ t.marg.role = s.marg.role) ∧
    (s.marg.linkUp = true → marginRuns s = true →
      (s.now < s.marg.wireEnd → exec .cellSend s = .next s) ∧
      (∀ c, s.marg.wireEnd ≤ s.now → s.marg.resend = [] → s.marg.unacked.length < 64 → bestCell s.marg.queue = some c → cellRank c.ctype ≤ 5 → ∃ t w,
        exec .cellSend s = .next t ∧ t.marg.queue = dropCell c s.marg.queue ∧ t.marg.wire = some w ∧ w.ctype = c.ctype ∧
        w.sub = c.sub ∧ w.ack = (s.marg.rxSeq + 65535) % 65536 ∧
        (cellSequenced c.ctype = true → w.seq = s.marg.txSeq ∧ w.payload = c.payload ∧
          t.marg.unacked = s.marg.unacked ++ [w] ∧ t.marg.txSeq = (s.marg.txSeq + 1) % 65536) ∧
        (cellSequenced c.ctype = false → t.marg.unacked = s.marg.unacked ∧ t.marg.txSeq = s.marg.txSeq) ∧
        t = { s with marg := t.marg }) ∧
      (∀ n, s.marg.wireEnd ≤ s.now → s.marg.resend = [] → s.marg.unacked.length < 64 → s.marg.queue = [] → slotReady s = some n → ∃ t w, exec .cellSend s = .next t ∧
        t.marg.wire = some w ∧ w.ctype = .mailbox ∧ w.sub = n ∧ w.seq = s.marg.txSeq ∧ t.marg.credit.testBit n = false ∧
        t.marg.unacked = s.marg.unacked ++ [w] ∧ t = { s with marg := t.marg }) ∧
      (s.marg.unacked ≠ [] → s.marg.resend = [] → s.marg.ackTick + 2 * usTicks ≤ s.now → exec .cellRetransmit s =
        .next { s with marg := { s.marg with resends := s.marg.resends + 1, resend := s.marg.unacked, ackTick := s.now } }) ∧
      (∀ c l, s.marg.wireEnd ≤ s.now → s.marg.resend = c :: l → (∀ x ∈ s.marg.queue, x.ctype ≠ .heartbeat) → ∃ t,
        exec .cellSend s = .next t ∧ t.marg.wire = some { c with ack := (s.marg.rxSeq + 65535) % 65536 } ∧ t.marg.resend = l ∧
        t.marg.unacked = s.marg.unacked ∧ parGet t 11 9 = counted (parGet s 11 9) 1 ∧ OthersKept s t 11 9 ∧
        t = { s with marg := t.marg, par := t.par }) ∧
      (∀ a, s.marg.leaving = false → ∃ t, exec (.ackReceived a) s = .next t ∧ t.marg.crcRun = 0 ∧
        t.marg.unacked = s.marg.unacked.filter (fun c => !acked a c.seq) ∧
        (∀ c, c ∈ s.marg.unacked → acked a c.seq = true → c.ctype = .mailbox → slotFull t c.sub = false) ∧
        t = { s with marg := t.marg }) ∧
      (∃ t, exec (.badCellReceived true) s = .next t ∧ t.marg.crcRun = s.marg.crcRun + 1 ∧
        parGet t 11 8 = counted (parGet s 11 8) 1 ∧ OthersKept s t 11 8 ∧ t = { s with marg := t.marg, par := t.par }) ∧
      exec (.badCellReceived false) s = .next { s with marg := { s.marg with crcRun := 0, rxTick := some s.now } }) ∧
    (∀ x, s.marg.linkUp = true → s.marg.queue = [] → s.marg.rxTick = some x → x + usTicks ≤ s.now →
      exec .ackDue s = .next { s with marg := { s.marg with rxTick := none, queue := [⟨.ack, 0, 0, 0, [0, 0, 0, 0, 0, 0, 0, 0], 0⟩] } })

/-- For every state in which Margin runs. HEARTBEAT_DUE, every 10 us, queues a heartbeat while the link is up and
counts an interval without one. A good heartbeat sets the partner's state and its arrival; an exchange within 2 ns
counts towards alignment. HEARTBEAT_TIMEOUT of a paired device whose partner has not left raises HEARTBEAT_LOST.
HEARTBEAT_TAKEOVER of an eligible standby whose witness holds makes it active and time master with the drives it takes
in RUN. STATUS_DUE, after 100 us or when their content has changed, queues a STATUS and a TB_PHASE cell. In order, a
standby takes the active device's configuration, moves the phase of a running timebase to its period start, stores
mirrored entries and VBAR, and keeps the fragment of a frame. -/
def Obligations.HeartbeatsAndMirrors : Prop :=
  ∀ s : State, marginRuns s = true →
    (s.now < s.marg.hbTick + 4000 → exec .heartbeatDue s = .next s) ∧
    (s.marg.linkUp = true → s.marg.hbTick + 4000 ≤ s.now → ∃ t, exec .heartbeatDue s = .next t ∧
      t.marg.queue.getLast? = some { ctype := .heartbeat, seq := 0, ack := 0, sub := 0, payload := [] } ∧ t.marg.hbTick = s.now ∧
      (hbMissed s = true → parGet t 11 7 = counted (parGet s 11 7) 1) ∧
      (hbMissed s = false → t = { s with marg := { s.marg with queue := t.marg.queue, hbTick := s.now } })) ∧
    (∀ ack h, s.marg.linkUp = true → s.marg.leaving = false → ∃ t, exec (.heartbeatReceived ack h) s = .next t ∧
      t.marg.hbSeen = true ∧ t.marg.unacked = s.marg.unacked.filter (fun c => !acked ack c.seq) ∧
      t.marg.hbLost = false ∧ t.marg.hbArrive = s.now ∧ t.marg.hbPeer = h.launch ∧ t.marg.partnerRole = h.role % 4 ∧
      t.marg.partnerEligible = decide (h.eligibility % 256 = 0) ∧
      t.marg.role = (if s.marg.role ≠ 0 ∧ h.role % 4 = 0 ∧ s.marg.partnerRole ≠ 0 then 0 else s.marg.role) ∧
      (s.marg.role = 2 → h.role % 4 ≠ 0 → s.marg.hbSeen = true → s.tim.stepDue = false → (exchangeError s h).natAbs ≤ 12 →
        t.tim.alignBad = 0 ∧ t.tim.alignGood = s.tim.alignGood + 1 ∧
        t.tim.aligned = (s.tim.aligned || decide (15 ≤ s.tim.alignGood)) ∧ parGet t 2 7 = wrdI (exchangeError s h)) ∧
      t.nv = s.nv ∧ t.mem.cells = s.mem.cells) ∧
    (s.marg.role ≠ 0 → s.marg.hbSeen = true → s.marg.hbLost = false → s.marg.hbArrive + 12000 ≤ s.now →
      s.marg.peerLeft = false → ∃ t, exec .heartbeatTimeout s = .next t ∧ t.marg.hbLost = true ∧ Raised s t 0x0B01 0 []) ∧
    (s.marg.role = 2 → s.marg.hbLost = true → s.marg.partnerRun ≠ 0 → s.marg.ownElig % 64 = 0 → takeoverWitness s = true →
      ∃ t, exec .heartbeatTakeover s = .next t ∧ t.marg.role = 1 ∧ t.tim.master = true ∧ t.marg.hoDue = true ∧
      t.marg.hoTrig = 1 ∧ (∀ d, d ∈ takenDrives s → (t.drive d).dst = .run) ∧ t.now = s.now ∧ t.nv = s.nv ∧
      t.mem.cells = s.mem.cells) ∧
    (s.marg.linkUp = true → s.marg.role ≠ 0 →
      (∀ x, s.marg.statusTick = some x → x + 100 * usTicks ≤ s.now ∨ statusPayload s ++ phasePayload s ≠ s.marg.statusSent) →
      ∃ t a b, exec .statusDue s = .next t ∧
      t.marg.queue = s.marg.queue ++ [a, b] ∧ a.ctype = .status ∧ a.payload = statusPayload s ∧
      b.ctype = .tbPhase ∧ b.payload = phasePayload s ∧ t.marg.statusTick = some s.now ∧
      t = { s with marg := { s.marg with queue := t.marg.queue, statusTick := t.marg.statusTick, statusSent := t.marg.statusSent } }) ∧
    (∀ seq ack, Arrives s seq → s.marg.role = 2 →
      (∀ cs ps, ∃ t, exec (.statusReceived seq ack s.marg.peerPresence cs ps) s = .next t ∧ Taken s t ack ∧
        (∀ k, k < 4 → t.marg.lastStatus.getD k 0 = cs.getD k 0 ∧ t.marg.lastStatus.getD (4 + k) 0 = ps.getD k 0) ∧
        t = { s with marg := t.marg }) ∧
      (∀ ts, ∃ t, exec (.tbPhaseReceived seq ack ts) s = .next t ∧ Taken s t ack ∧
        (∀ k, k < 4 → (s.tb k).running = true → 0 < tbLen s k → ts.getD k 0 ≠ 0 →
          ((ts.getD k 0 : Int) - (t.tb k).t0) % (tbLen s k : Int) = 0) ∧
        (∀ k, (s.tb k).running = false → t.tb k = s.tb k) ∧
        t = { s with marg := t.marg, hatch := { s.hatch with tbs := t.hatch.tbs } }) ∧
      (∀ d ws m, d + 1 < 4096 → ∃ t, exec (.mirrorReceived seq ack d ws m) s = .next t ∧ Taken s t ack ∧
        (t.entry d).excl = field (ws.getD 0 0) 3 0 ∧ (t.entry d).ledger = ws.getD 1 0 ∧ (t.entry d).tlm = ws.getD 2 0 ∧
        (t.entry (d + 1)).excl = field (ws.getD 4 0) 3 0 ∧ (t.entry (d + 1)).ledger = ws.getD 5 0 ∧
        (∀ e, e ≠ d → e ≠ d + 1 → t.entry e = s.entry e) ∧ (m = 0 → t.mem = s.mem) ∧
        t = { s with marg := t.marg, stip := { s.stip with dir := t.stip.dir }, mem := { s.mem with marks := t.mem.marks } }) ∧
      (∀ r ws m, r < 16 → ∃ t, exec (.mirrorReceived seq ack (0x8000 + r) ws m) s = .next t ∧ Taken s t ack ∧
        strPar t r 0x11 = ws.getD 0 0 ∧ (r = s.marg.mirrorTop → t.marg.mirrorOk = true) ∧
        t = { s with marg := t.marg, par := t.par }) ∧
      (∀ r f ws, ringPresent s r = true → f < 16 → ∃ t, exec (.ringFrameReceived seq ack r f ws) s = .next t ∧ Taken s t ack ∧
        ((t.ring r).farDue = true ∨ (t.ring r).farAt ≠ none) ∧
        (tblGet (t.ring r).frags [] f = mailWords ws ∨ ((t.ring r).frags = [] ∧ (t.ring r).next ≠ none)) ∧
        ((∀ b, ringTimebase s r = some b → periodNow s b = false) → ∀ q, q ≠ r → t.ring q = s.ring q) ∧
        t = { s with marg := t.marg, stip := { s.stip with rings := t.stip.rings } }))

/-- For every state. PAIR_ROLE that may start with a role the link allows completes with OK and the role, and a new
role makes the device time master unless it is standby. HANDOVER of a sound active device waits, with an instant at
least 20 µs away and an OFFER queued. In order: an eligible standby accepts an OFFER, any other declines it; an ACCEPT
in time is taken with an instant for every running drive; a DECLINE, or no ACCEPT 5 µs before the instant, completes
HANDOVER with STATE. At its instant the active device becomes standby without OWN_N and the standby active with it.
TAKE makes a standby active; TAKEN completes HANDOVER with OK; LEAVE is noted; OWN_N is asserted once the partner has
released it. -/
def Obligations.HandOver : Prop :=
  ∀ s : State,
    (∀ tag n, n < 3 → Starts s tag 0xA0 [wrd n] → n = 0 ∨ (s.marg.linkUp = true ∧ s.marg.sideConflict = false ∧
        s.marg.presMismatch = false ∧ n ≠ s.marg.partnerRole) → ∃ t w, exec (.pairRole tag) s = .next t ∧
      Replied s t tag 0 [w] ∧ field w 1 0 = n ∧ t.marg.role = n ∧
      (n ≠ s.marg.role → t.tim.master = decide (n ≠ 2) ∧ t.tim.aligned = false ∧ t.so.ownN = decide (n = 1) ∧
        t.marg.ho = .none) ∧
      (n = s.marg.role → t = { s with folio := t.folio }) ∧
      t = { s with folio := t.folio, marg := { s.marg with role := n, ho := t.marg.ho }, tim := t.tim,
                   so := { s.so with ownN := t.so.ownN } }) ∧
    (∀ tag ws, Starts s tag 0xA1 ws → s.marg.role = 1 → s.marg.linkUp = true → s.marg.partnerElig.testBit 6 = false →
      s.marg.ho = .none → (∀ d, d < 4 → ssRank (s.drive d).dst = 0 ∧ (s.drive d).dst ≠ .stopping ∧
        (s.drive d).discharging = false) → ∃ t, exec (.handover tag) s = .next t ∧ Waiting s t tag ∧ t.marg.ho = .offered ∧
      s.now + 8000 ≤ t.marg.hoTh ∧ t.marg.hoTag = some tag ∧
      t.marg.queue = s.marg.queue ++ [⟨.handover, 0, 0, 0, handoverPayload 1 t.marg.hoTh, 0⟩] ∧
      t = { s with folio := t.folio,
                   marg := { s.marg with ho := .offered, hoTh := t.marg.hoTh, hoTag := some tag, queue := t.marg.queue } }) ∧
    (∀ seq ack, Arrives s seq →
      (∀ th, eligibility s = 0 → ∃ t, exec (.handoverOfferReceived seq ack th) s = .next t ∧ Taken s t ack ∧
        t.marg.ho = .accepted ∧ t.marg.hoTh = th ∧ (∀ d, d ∈ takenDrives s → (t.drive d).hd ≠ none) ∧
        t.marg.queue = s.marg.queue ++ [⟨.handover, 0, 0, 0, handoverPayload 2 th, 0⟩] ∧
        t = { s with marg := t.marg, drives := t.drives }) ∧
      (∀ th, eligibility s ≠ 0 → ∃ t, exec (.handoverOfferReceived seq ack th) s = .next t ∧ Taken s t ack ∧
        t.marg.ho = s.marg.ho ∧ t.marg.queue = s.marg.queue ++ [⟨.handover, 0, 0, 0, handoverPayload 3 th, 0⟩] ∧
        t = { s with marg := t.marg }) ∧
      (s.marg.ho = .offered → s.now + 2000 ≤ s.marg.hoTh → ∃ t, exec (.handoverAcceptReceived seq ack) s = .next t ∧
        Taken s t ack ∧ t.marg.ho = .accepted ∧ t.marg.hoTh = s.marg.hoTh ∧
        (∀ d, d < 4 → (s.drive d).dst = .run → (t.drive d).hd ≠ none) ∧ t = { s with marg := t.marg, drives := t.drives }) ∧
      (∀ tag e, s.marg.ho = .offered → s.marg.hoTag = some tag → tag < 1024 → tagEntry s tag = some e → e.phase = .running →
        ∃ t, exec (.handoverDeclineReceived seq ack) s = .next t ∧ Taken s t ack ∧ Replied s t tag stState [] ∧
        t.marg.ho = .none ∧ t.marg.hoTag = none ∧ t = { s with marg := t.marg, folio := t.folio }) ∧
      (∀ th, s.marg.role = 2 → ∃ t, exec (.handoverTakeReceived seq ack th) s = .next t ∧ Taken s t ack ∧ t.marg.role = 1 ∧
        t.tim.master = true ∧ t.marg.hoDue = true ∧ t.marg.ownDue = true ∧ t.marg.hoTrig = 0 ∧
        (∀ d, d ∈ takenDrives s → (t.drive d).dst = .run) ∧ t.now = s.now ∧ t.nv = s.nv ∧ t.mem.cells = s.mem.cells) ∧
      (∃ t, exec (.handoverTakenReceived seq ack) s = .next t ∧ Taken s t ack ∧ t.marg.hoTag = none ∧
        (s.marg.ho = .taking → t.marg.role = 2 ∧ t.tim.master = false ∧ t.so.ownN = false) ∧
        (∀ tag e, s.marg.hoTag = some tag → tag < 1024 → tagEntry s tag = some e → e.phase = .running →
          Replied s t tag 0 [])) ∧
      (∃ t, exec (.handoverLeaveReceived seq ack) s = .next t ∧ Taken s t ack ∧ t.marg.peerLeft = true ∧
        t = { s with marg := t.marg })) ∧
    (∀ tag e, s.marg.ho = .offered → s.marg.hoTh ≤ s.now + 2000 → s.marg.hoTag = some tag → tag < 1024 →
      tagEntry s tag = some e → e.phase = .running → ∃ t, exec .handoverAcceptTimeout s = .next t ∧
      Replied s t tag stState [] ∧
      t = { s with folio := t.folio, marg := { s.marg with ho := .none, hoTag := none } }) ∧
    (s.marg.ho = .accepted → s.marg.hoTh ≤ s.now →
      (s.marg.role = 1 → ∃ t, exec .handoverInstant s = .next t ∧ t.marg.role = 2 ∧ t.so.ownN = false ∧
        t.tim.master = false ∧ t.marg.ho = .none) ∧
      (s.marg.role = 2 → ∃ t, exec .handoverInstant s = .next t ∧ t.marg.role = 1 ∧ t.so.ownN = true ∧
        t.tim.master = true ∧ t.marg.ho = .none ∧
        ((∀ d, d < 4 → (s.drive d).hd = none) → t.marg.hoDue = false ∧ Raised t t 0x0B02 0 [2]))) ∧
    (s.marg.ownDue = true → s.marg.role = 1 → s.marg.peerOwn = false → s.marg.peerOwnTick + 160 ≤ s.now → ∃ t,
      exec .ownNClaim s = .next t ∧ t.so.ownN = true ∧ t.marg.ownDue = false ∧
      (∀ d x, d < 4 → (s.drive d).l4From = some x → (t.drive d).l4From = some (s.now + 400)) ∧
      t = { s with drives := t.drives, marg := { s.marg with ownDue := false }, so := { s.so with ownN := true } }) ∧
    (∀ a, ∃ t, exec (.peerOwnChange a) s = .next t ∧ t.marg.peerOwn = a ∧
      (a ≠ s.marg.peerOwn → t.marg.peerOwnTick = s.now) ∧
      t = { s with marg := { s.marg with peerOwn := a, peerOwnTick := t.marg.peerOwnTick } })

/-- For every state. A loss of ENABLE awake raises ENABLE_LOST. SS2_DELAY_EXPIRY moves a drive in SS1 under AUTO_SS2
whose speed condition has held to SS2. STOP_TIME_EXPIRY of an elapsed stop ends it at once on a stopped timebase, else
marks it for the next period start. DISCHARGE_TIMEOUT ends the discharge of a string drive whose positions have bled
with DISCHARGED, and any other with DISCHARGE_FAIL once 2 s have passed; DSCH_HOLD_EXPIRY after its 2 s releases the
pin of a drive that is no longer in SS3. REGISTRATION_EVALUATION of a completion evaluates it once: an input out of
range counts a mismatch and starts the timer of a running drive, a good evaluation stops it. REG_EVAL_GAP counts an
interval without an evaluation as a mismatch at its end and, past CONFIRM, raises TORQUE_MISMATCH. The rows for one
drive change no other drive, but for the ticks from which speed conditions hold and what a TORQUE_MISMATCH does. -/
def Obligations.StopOutTimers : Prop :=
  ∀ s : State,
    (∃ t, exec (.enableChange true) s = .next t ∧ t = { s with so := { s.so with enable := true } }) ∧
    (s.so.enable = true → isAsleep s = false → s.op ≠ .shutdown → ∃ t, exec (.enableChange false) s = .next t ∧ t.so.enable = false ∧
      Raised s t 0x0904 0 [] ∧ Reacted { s with so := { s.so with enable := false } } t) ∧
    (isAsleep s = true ∨ s.op = .shutdown → exec (.enableChange false) s = .next { s with so := { s.so with enable := false } }) ∧
    (∀ d, d < 4 →
      ((s.drive d).dst = .ss1 → hasArch (s.drive d) = true → (s.drive d).clearDue = false → (s.drive d).classD = false →
        (s.drive d).exempt = false → wbit (parGet s 9 (0x10 + d)) 31 = true → reactionsApply s = true →
        speedHeld (noteSpeeds s) d = true → ∃ t, exec (.ss2DelayExpiry d) s = .next t ∧
        (t.drive d).dst = .ss2 ∧ (t.drive d).cause = (s.drive d).cause ∧ (∀ e, e ≠ d →
          t.drive e = { s.drive e with highFrom := (t.drive e).highFrom, lostFrom := (t.drive e).lostFrom }) ∧
        t.op = s.op ∧ Reacted s t) ∧
      ((s.drive d).dst = .stopping → (s.drive d).ts + parField s 9 (0x10 + d) 15 0 * 400000 ≤ s.now →
        (periodNow s (driveTb (s.drive d)) = false → ∃ t, exec (.stopTimeExpiry d) s = .next t ∧
          t.drive d = { s.drive d with stopDue := true } ∧ (∀ e, e ≠ d → t.drive e = s.drive e) ∧
          t = { s with drives := t.drives }) ∧
        (periodNow s (driveTb (s.drive d)) = true → ∃ t, exec (.stopTimeExpiry d) s = .next t ∧
          (t.drive d).dst = .idle ∧ (t.drive d).torque = 0 ∧ Raised s t 0x0002 d [] ∧
          (∀ e, e ≠ d → t.drive e = s.drive e) ∧ Reacted s t)) ∧
      (∀ ts, dischargeTs (s.drive d) = some ts → (s.drive d).discharging = true → isString (s.drive d) = true →
        ((stringDischarge d s).drive d).discharging = false → ∃ t w, exec (.dischargeTimeout d) s = .next t ∧
        (t.drive d).discharging = false ∧ (t.drive d).dst = (s.drive d).dst ∧
        Raised s t 0x0905 d [w, wrd ((s.now - ts) / usTicks)] ∧ (∀ e, e ≠ d → t.drive e = s.drive e) ∧ Reacted s t) ∧
      (∀ ts, dischargeTs (s.drive d) = some ts → (s.drive d).discharging = true → ts + 800000000 ≤ s.now →
        (isString (s.drive d) = true → ((stringDischarge d s).drive d).discharging = true) → ∃ t w,
        exec (.dischargeTimeout d) s = .next t ∧ (t.drive d).discharging = false ∧ (t.drive d).dst = (s.drive d).dst ∧
        Raised s t 0x0906 d [w] ∧ (isString (s.drive d) = false → (s.drive d).lastV = none → w = 0x80000000) ∧
        (∀ e, e ≠ d → t.drive e = s.drive e) ∧ Reacted s t) ∧
      (holdOver s d = true → ∃ t, exec (.dschHoldExpiry d) s = .next t ∧ (t.drive d).holdTs = none ∧
        t.so.dsch.testBit d = (s.so.dsch.testBit d && decide ((s.drive d).dst = .ss3)) ∧
        (∀ e, e ≠ d → t.so.dsch.testBit e = s.so.dsch.testBit e ∧ t.drive e = s.drive e) ∧
        t = { s with drives := t.drives, so := { s.so with dsch := t.so.dsch } }) ∧
      (∀ a b c, (s.regn d).codes = [some a, some b, some c] → (s.regn d).fresh = true → convRun s = true →
        s.mem.errs = [] → markedCell s (regCells d) = none → ∃ t, exec (.registrationEvaluation d) s = .next t ∧ (t.regn d).fresh = false ∧
        (t.regn d).lastEval = s.now ∧ ((s.regn d).timer = none → t.drives = s.drives) ∧
        (wbit a 17 = true ∨ wbit b 17 = true ∨ wbit c 17 = true → (t.regn d).inputBad = true ∧ (t.regn d).mismatch = true ∧
          parGet t 9 (0x20F + 32 * d) = counted (parGet s 9 (0x20F + 32 * d)) 1 ∧
          (driveRuns (s.drive d) = true → (s.drive d).runAt ≤ s.now → (s.regn d).timer = none → (t.regn d).timer = some s.now)) ∧
        ((t.regn d).mismatch = false → (t.regn d).timer = none ∧
          t = { s with so := { s.so with regs := t.so.regs } })) ∧
      (∀ e, e = (s.regn d).lastEval + 100000 → convRun s = true → e ≤ s.now → ∃ t, exec (.regEvalGap d) s = .next t ∧
        (t.regn d).mismatch = true ∧ (t.regn d).lastEval = e ∧
        parGet t 9 (0x20F + 32 * d) = counted (parGet s 9 (0x20F + 32 * d)) 1 ∧
        (driveRuns (s.drive d) = true → (s.drive d).runAt ≤ e →
          ((s.regn d).timer = none → (t.regn d).timer = some e) ∧
          (∀ ts, (s.regn d).timer = some ts → ts + field (regPar s d 0xA) 10 0 * 400 ≤ e →
            Raised s t 0x0903 d [(s.regn d).tau, torqueInput (s.drive d)])) ∧
        (driveRuns (s.drive d) = false → t = { s with so := { s.so with regs := t.so.regs }, par := t.par }) ∧
        t.nv = s.nv ∧ t.mem.cells = s.mem.cells))

/-- For every state in which the cores run and are compared. TRANSACTION_COMPARE of equal copies releases the store;
of unequal ones it stores nothing and raises LOCKSTEP_DIVERGENCE. A delay-queue read of another number or address does
the same. CHECKPOINT 4096 instructions after the last, or WATCHDOG_SERVICE before it, which also serves the watchdog,
with equal signatures goes on, and with a split pending splits the pair; unequal ones raise LATENT_DIVERGENCE and
resynchronise, and a failed self-test restarts the pair. SPLIT and JOIN wait for a checkpoint; RESYNC_DONE returns to
comparison. The fourth disagreement in 1 ms raises LOCKSTEP_INPUT. WATCHDOG 1 ms after the last service raises
WATCHDOG and restarts. PAIR_RESTART_DONE starts the pair in lock-step. A split task ends with its result. -/
def Obligations.PairModes : Prop :=
  ∀ s : State,
    (compared s = true →
      (∀ x a v, x.what = .store a v 15 0 → s.plate.cbuf = [] → s.plate.cbufNext = [] → s.mem.lpStore = [] → memOf a ≠ 2 →
        mramShut s a = false → (a < slotBase 0 ∨ slotBase 2 ≤ a) → (regionAt s a).isSome = true → a % 4 = 0 →
        ∃ t, exec (.transactionCompare [x] x 1) s = .next t ∧ readWord t a = v ∧
        (∀ b, b < a ∨ a + 4 ≤ b → readByte t b = readByte s b) ∧ t.plate.cbuf = [] ∧ t.nv = s.nv ∧
        t.plate.mode = s.plate.mode) ∧
      (∀ x y, x ≠ y → x.num = y.num → s.plate.cbuf = [] → s.plate.cbufNext = [] → s.mem.lpStore = [] → ∃ t, exec (.transactionCompare [x] y 1) s = .next t ∧
        Raised s t 0x0801 0 [wrd y.num] ∧ t.plate.mode = .restarting ∧ t.pwr.resetting = some .pair ∧ t.folio.tags = [] ∧
        t.mem.cells = s.mem.cells ∧ t.nv = s.nv) ∧
      (∀ e l, s.plate.dq = e :: l → s.plate.dqNext = [] →
        (∃ t, exec (.delayQueueTake [] e.req true) s = .next t ∧ t.plate.dq = l ∧ t.plate.mode = s.plate.mode ∧
          t = { s with plate := t.plate }) ∧
        (∀ r, e.req ≠ r → ∃ t, exec (.delayQueueTake [] r true) s = .next t ∧
          Raised s t 0x0801 0 [wrd r.num] ∧ t.plate.mode = .restarting ∧ t.pwr.resetting = some .pair) ∧
        (∀ r, ∃ t, exec (.delayQueueTake [] r false) s = .next t ∧ Raised s t 0x0805 0 [wrd s.plate.dqHead] ∧
          t.plate.mode = .restarting)) ∧
      (∀ what p c, (∃ t, exec (.asyncInputRead what p p) s = .next t ∧
          t = { s with tim := { s.tim with fwTime := if what = .time then p else s.tim.fwTime } }) ∧
        (samplesAgree what p c = false → ∃ t, exec (.asyncInputRead what p c) s = .next t ∧
          parGet t 8 5 = counted (parGet s 8 5) 1 ∧ t.plate.disagree = s.now :: notOver s 400000 s.plate.disagree ∧
          (3 ≤ (inWindow s 400000 s.plate.disagree).length →
            Raised s t 0x0803 0 [wrd ((inWindow s 400000 s.plate.disagree).length + 1)]) ∧
          t.plate.mode = s.plate.mode)) ∧
      (∀ p c, exec (.interruptDecision p c) s = exec (.asyncInputRead .level p c) s ∧
        ∃ t, exec (.interruptDecision p c) s = .next t ∧ t.nv = s.nv)) ∧
    (coresRun s = true →
      (s.plate.wdTick + 388000 ≤ s.now → ∃ t, exec .watchdog s = .next t ∧ Raised s t 0x080A 0 [] ∧
        t.plate.mode = .restarting ∧ t.pwr.resetting = some .pair ∧ t.folio.inReset = true) ∧
      (∀ k c, (c = .checkpoint k ∧ k.retired = nextCheckpoint s) ∨ (c = .watchdogService k ∧ checkpointAt s k.retired = true) →
        (signature k.regsP = signature k.regsC → selfTestOk k = true → s.plate.mode = .lockstep → ∃ t, exec c s = .next t ∧
          t.plate.mode = .lockstep ∧ t.plate.retCk = k.retired ∧ t.plate.regsP = regTable k.regsP ∧ t.plate.marksP = k.marksP ∧
          t.plate.wdTick = (if c = .checkpoint k then s.plate.wdTick else s.now) ∧
          parGet t 8 3 = parGet s 8 3 + 1 ∧
          t = { s with plate := t.plate, par := t.par }) ∧
        (signature k.regsP = signature k.regsC → selfTestOk k = true → s.plate.mode = .splitPending → s.plate.cbuf = [] →
          s.plate.cbufNext = [] → s.plate.dqNext = [] → ∃ t, exec c s = .next t ∧
          t.plate.mode = .split ∧ Raised s t 0x0806 0 [] ∧ t.plate.splitTag = none ∧
          (∀ tag e, s.plate.splitTag = some tag → tag < 1024 → tagEntry s tag = some e → e.phase = .running →
            Replied s t tag 0 [])) ∧
        (s.plate.mode = .joining → s.pwr.sleepTag = none → s.pwr.shutTag = none → ∃ t,
          exec c s = .next t ∧ t.plate.mode = .lockstep ∧ Raised s t 0x0807 0 [] ∧
          t.plate.regsC = t.plate.regsP ∧ t.plate.marksC = t.plate.marksP ∧ (∀ tag e, s.plate.joinTag = some tag → tag < 1024 →
            tagEntry s tag = some e → e.phase = .running → Replied s t tag 0 [])) ∧
        (signature k.regsP ≠ signature k.regsC → selfTestOk k = true → s.plate.mode = .lockstep → ∃ t m, exec c s = .next t ∧
          Raised s t 0x0802 0 [m] ∧
          ((inWindow s 400000000 s.plate.latent).length < 2 → t.plate.mode = .resync ∧ parGet t 8 7 = wrd k.retired) ∧
          (2 ≤ (inWindow s 400000000 s.plate.latent).length → Raised s t 0x0801 0 [wrd k.retired] ∧
            t.plate.mode = .restarting)) ∧
        (s.plate.mode = .lockstep → selfTestOk k = false → ∃ t, exec c s = .next t ∧ Raised s t 0x0804 0 [] ∧
          t.plate.mode = .restarting))) ∧
    (∀ tag ws, s.plate.mode = .lockstep → Starts s tag 0xA2 ws → ∃ t, exec (.split tag) s = .next t ∧ Waiting s t tag ∧
      t.plate.mode = .splitPending ∧ t.plate.splitTag = some tag ∧ t = { s with folio := t.folio, plate := t.plate }) ∧
    (∀ tag ws, s.plate.mode = .split → Starts s tag 0xA3 ws → ∃ t, exec (.join tag) s = .next t ∧ Waiting s t tag ∧
      t.plate.mode = .joining ∧ t.plate.joinTag = some tag ∧ (s.plate.taskResult = 1 → t.plate.taskResult = 4) ∧
      t = { s with folio := t.folio, plate := t.plate }) ∧
    (s.plate.mode = .resync → ∃ t, exec .resyncDone s = .next t ∧
      t.plate.mode = (if s.plate.splitTag = none then .lockstep else .splitPending) ∧ t.plate.regsC = s.plate.regsP ∧ t.plate.marksC = s.plate.marksP ∧
      t = { s with plate := t.plate }) ∧
    (s.pwr.resetting = some .pair →
      (s.folio.inReset = true → exec .folioResetEnd s = .next { s with folio := { s.folio with inReset := false } }) ∧
      (s.plate.mode = .restarting → ∃ t, exec .pairRestartDone s = .next t ∧ t.plate.mode = .lockstep ∧
        t.pwr.resetting = none ∧ t.pwr.lastReset = 5 ∧ t.folio.inReset = false ∧ Raised s t 0x0F02 5 [] ∧
        wbit (parGet t 1 5) 0 = true ∧ t.nv = s.nv)) ∧
    (s.plate.mode = .split → s.plate.taskResult = 1 →
      (∀ r, r ∈ [2, 3, 5] → exec (.freeCoreTaskEnd r) s = .next { s with plate := { s.plate with taskResult := r } }) ∧
      (ticking s = false ∨ s.plate.taskTick + watchdogTicks ≤ s.now →
        exec .freeCoreWatchdog s = .next { s with plate := { s.plate with taskResult := 3 } }))

/-- For every state in which the command may start and MRAM may be written. FW_BEGIN of a good length completes with
OK: the session is open, the inactive slot reads 0 and is not valid, and every other byte stays. FW_DATA inside the
image of an open session completes with OK, its words read back and every byte outside them stays. FW_COMMIT ends the
session; an image that does not verify completes with DENIED and leaves MRAM as it was, and one that completes with OK
is valid and marked to boot (whether the signature is good is a free value, log 26). FW_ABORT ends the session and
changes nothing else. -/
def Obligations.FirmwareUpdate : Prop :=
  ∀ (s : State) (tag : Nat),
    (mramDenied s = false →
      (∀ w, Starts s tag 0xC0 [w] → w.toNat % 4 = 0 → 4 ≤ w.toNat → w.toNat ≤ slotSize → ∃ t, exec (.fwBegin tag) s = .next t ∧
        Replied s t tag 0 [] ∧ t.plate.session = some w.toNat ∧ slotValid t (inactiveSlot s) = false ∧
        (∀ a, readByte t a = if slotBase (inactiveSlot s) ≤ a ∧ a < slotBase (inactiveSlot s) + slotSize then 0
          else readByte s a) ∧
        t = { s with folio := t.folio, nv := t.nv, mem := t.mem, plate := { s.plate with session := t.plate.session } }) ∧
      (∀ o ws len, Starts s tag 0xC1 (o :: ws) → s.plate.session = some len → o.toNat % 4 = 0 → len ≤ slotSize →
        o.toNat + 4 * ws.length ≤ len → ∃ t, exec (.fwData tag) s = .next t ∧ Replied s t tag 0 [] ∧
        (∀ i, i < ws.length → readWord t (slotBase (inactiveSlot s) + o.toNat + 4 * i) = ws.getD i 0) ∧
        (∀ a, a < slotBase (inactiveSlot s) + o.toNat ∨ slotBase (inactiveSlot s) + o.toNat + 4 * ws.length ≤ a →
          readByte t a = readByte s a) ∧ t.nv = s.nv ∧ t.plate.session = some len) ∧
      (∀ len, Starts s tag 0xC2 [] → s.plate.session = some len → ∃ t st, exec (.fwCommit tag) s = .next t ∧
        Replied s t tag st [] ∧ t.plate.session = none ∧ st ∈ [0, stDenied] ∧ t.mem.cells = s.mem.cells ∧
        (s.mem.errs = [] → t.mem = s.mem) ∧
        (imageVerifies (readSlot (inactiveSlot s) s) (inactiveSlot s) len = false → st = stDenied) ∧ (st = stDenied → t.nv = s.nv) ∧
        (st = 0 → nvGet t 8 0x102 = wrd (inactiveSlot s) ∧ nvGet t 8 (0x100 + inactiveSlot s) = 1 ∧
          nvGet t 8 (9 + inactiveSlot s) = imgWord s (inactiveSlot s) 8 ∧
          nvGet t 8 (0x104 + inactiveSlot s) = imgWord s (inactiveSlot s) 12))) ∧
    (∀ len, Starts s tag 0xC3 [] → s.plate.session = some len → ∃ t, exec (.fwAbort tag) s = .next t ∧
      Replied s t tag 0 [] ∧ t = { s with folio := t.folio, plate := { s.plate with session := none } })

/-- For every state. BYPASS, IDCODE, SAMPLE/PRELOAD and TAP reset select their instruction, IDCODE with a word whose
low bit is 1; EXTEST only while unlocked in STANDBY or SAFE, and the debug access only while unlocked.
UNLOCK_CHALLENGE outside SHUTDOWN and BOOT draws a new nonce, which replaces the last. A response of 16 words to a
drawn nonce uses it up and goes to its check, whose success alone unlocks debug and raises DEBUG_UNLOCK; its failure
blocks responses until the block ends. LOCK ends a session. Beside the TAP and debug state, only output pairs may
change. -/
def Obligations.DebugUnlock : Prop :=
  ∀ s : State,
    (∃ t, exec .tapBypass s = .next t ∧ t.plate = { s.plate with tap := .bypass } ∧
      t = { s with plate := t.plate, hatch := { s.hatch with pairs := t.hatch.pairs } }) ∧
    (∃ t w, exec .tapIdcode s = .next t ∧ t.plate = { s.plate with tap := .idcode, tdo := [w] } ∧ wbit w 0 = true ∧
      t = { s with plate := t.plate, hatch := { s.hatch with pairs := t.hatch.pairs } }) ∧
    (∃ t, exec .tapSamplePreload s = .next t ∧ t.plate = { s.plate with tap := .samplePreload } ∧
      t = { s with plate := t.plate, hatch := { s.hatch with pairs := t.hatch.pairs } }) ∧
    (∃ t, exec .tapReset s = .next t ∧ t.plate = { s.plate with tap := .idcode } ∧
      t = { s with plate := t.plate, hatch := { s.hatch with pairs := t.hatch.pairs } }) ∧
    (s.plate.debug = .unlocked → s.op = .standby ∨ s.op = .safe → ∃ t, exec .tapExtest s = .next t ∧
      t.plate = { s.plate with tap := .extest } ∧ safeNCause t ≠ 0 ∧
      t = { s with plate := t.plate, hatch := { s.hatch with pairs := t.hatch.pairs } }) ∧
    (s.plate.debug ≠ .unlocked → exec .tapExtest s = .next s ∧ exec .debugAccess s = .next s) ∧
    (s.plate.debug = .unlocked → ∃ t, exec .debugAccess s = .next t ∧ t.plate = { s.plate with tap := .debugAccess } ∧
      t = { s with plate := t.plate, hatch := { s.hatch with pairs := t.hatch.pairs } }) ∧
    (s.op ≠ .shutdown → s.op ≠ .boot → ∃ t n, exec .unlockChallenge s = .next t ∧
      t.plate = { s.plate with tap := .challenge, nonce := some n, tdo := twoWords n.toNat ++ twoWords Config.serial.toNat } ∧
      t = { s with plate := t.plate, hatch := { s.hatch with pairs := t.hatch.pairs }, free := t.free }) ∧
    (∀ ws, ws.length = 16 → s.plate.nonce ≠ none → s.plate.debug = .locked → ∃ t, exec (.unlockResponse ws) s = .next t ∧
      t.plate = { s.plate with tap := .response, nonce := none, debug := .checking } ∧
      t = { s with plate := t.plate, hatch := { s.hatch with pairs := t.hatch.pairs } }) ∧
    (∀ ws, ws.length ≠ 16 ∨ s.plate.nonce = none ∨ s.plate.debug ≠ .locked → exec (.unlockResponse ws) s = .next s) ∧
    (s.plate.debug = .checking →
      (∃ t, exec (.unlockVerified true) s = .next t ∧ t.plate = { s.plate with debug := .unlocked } ∧
        Raised s t 0x0808 0 [] ∧ Reacted { s with plate := t.plate } t) ∧
      exec (.unlockVerified false) s = .next { s with plate := { s.plate with debug := .blocked, blockTick := s.now } }) ∧
    (∀ ok, s.plate.debug ≠ .checking → exec (.unlockVerified ok) s = .next s) ∧
    (s.plate.debug = .blocked → ticking s = false ∨ s.plate.blockTick + 400000000 ≤ s.now → exec .unlockBlockEnd s = .next { s with plate := { s.plate with debug := .locked } }) ∧
    (s.plate.debug = .unlocked → ∃ t, exec .tapLock s = .next t ∧ t.plate = { s.plate with tap := .lock, debug := .locked } ∧
      t = { s with plate := t.plate, hatch := { s.hatch with pairs := t.hatch.pairs } })

/-- For every state with debug unlocked. DEBUG_HALT and a hit of an enabled breakpoint halt running cores and raise
DEBUG_HALT with the number of the first instruction not retired. While halted: DEBUG_RESUME ends the halt with a full
watchdog time, DEBUG_STEP retires one instruction, a register read gives Plate's value, a register write with room in
the replay log changes that register alone, a breakpoint is set. DEBUG_MEMORY_READ of a readable word of plain memory
gives it and stores nothing; DEBUG_MEMORY_WRITE while halted with no drive in RUN stores exactly its word, and
otherwise is refused. JTAG_LOADER of a boot without a valid slot starts the firmware with its version. -/
def Obligations.DebugPort : Prop :=
  ∀ s : State, s.plate.debug = .unlocked →
    (coresRun s = true →
      (∃ t, exec .debugHalt s = .next t ∧ t.plate.halted = true ∧ Raised s t 0x0809 0 [wrd (t.plate.retP + 1)] ∧
        t.plate.retP = s.plate.retP ∧ Reacted { s with plate := t.plate } t) ∧
      (∀ k, k < 6 → tblGet s.plate.bps none k ≠ none → exec (.breakpointHit k) s = exec .debugHalt s ∧
        ∃ t, exec (.breakpointHit k) s = .next t ∧ t.plate.halted = true ∧ Raised s t 0x0809 0 [wrd (t.plate.retP + 1)])) ∧
    (s.plate.halted = true →
      (∃ t, exec .debugResume s = .next t ∧ t.plate.halted = false ∧ t.plate.wdTick = s.now ∧ t.plate.regsP = s.plate.regsP ∧
        t = { s with plate := t.plate }) ∧
      (∃ t, exec .debugStep s = .next t ∧ t.plate.halted = true ∧ t.plate.retP = s.plate.retP + 1 ∧
        (splitMode s.plate.mode = false → t.plate.retC = t.plate.retP) ∧ t = { s with plate := t.plate }) ∧
      (∀ r, r < 41 → exec (.debugRegisterRead r) s =
        .next { s with plate := { s.plate with dbgRead := tblGet s.plate.regsP 0 r } }) ∧
      (∀ r v, r < 41 → s.plate.replay = [] → ∃ t, exec (.debugRegisterWrite r v) s = .next t ∧ tblGet t.plate.regsP 0 r = v ∧
        t.plate.marksP = unmark s.plate.marksP r ∧
        (∀ q, q ≠ r → tblGet t.plate.regsP 0 q = tblGet s.plate.regsP 0 q) ∧
        (s.plate.retP ≤ s.plate.retC → tblGet t.plate.regsC 0 r = v ∧ t.plate.replay = []) ∧
        (s.plate.retC < s.plate.retP → t.plate.replay = [⟨s.plate.retP, r, v⟩] ∧ t.plate.regsC = s.plate.regsC) ∧
        t = { s with plate := t.plate })) ∧
    (∀ k a on, k < 6 → s.plate.replay = [] → ∃ t, exec (.debugBreakpointSet k a on) s = .next t ∧
      tblGet t.plate.bps none k = (if on then some a else none) ∧
      (∀ j, j ≠ k → tblGet t.plate.bps none j = tblGet s.plate.bps none j) ∧ t = { s with plate := t.plate }) ∧
    (∀ a, a % 4 = 0 → regionNum s a ∈ [8, 9, 16, 17] → ∃ t, exec (.debugMemoryRead a) s = .next t ∧
      t.plate.dbgRead = readWord s a ∧ t.mem.cells = s.mem.cells ∧ t.nv = s.nv) ∧
    (∀ a v, a % 4 = 0 → (regionAt s a).isSome = true → s.plate.halted = true → (∀ d, d < 4 → (s.drive d).dst ≠ .run) →
      namesLp a = false → memOf a ≠ 2 → mramShut s a = false → (a < slotBase 0 ∨ slotBase 2 ≤ a) → ∃ t, exec (.debugMemoryWrite a v) s = .next t ∧ readWord t a = v ∧
      (∀ b, b < a ∨ a + 4 ≤ b → readByte t b = readByte s b) ∧ t.plate.dbgRefused = false ∧ t.nv = s.nv) ∧
    (∀ a v, a % 4 = 0 → (regionAt s a).isSome = true →
      s.plate.halted = false ∨ (∃ d, d < 4 ∧ (s.drive d).dst = .run) →
      exec (.debugMemoryWrite a v) s = .next { s with plate := { s.plate with dbgRefused := true } }) ∧
    (∀ v, bootStuck s = true → ∃ t, exec (.jtagLoader v) s = .next t ∧ t.plate.version = v ∧ t.plate.mode = .lockstep ∧
      t.pwr.bootStep = 6 ∧ t.pwr.lastReset = s.pwr.resetCode ∧ t.pwr.supplyBad = [] ∧ Raised s t 0x0F02 s.pwr.resetCode [] ∧
      t.nv = s.nv ∧ t.mem.cells = s.mem.cells)

/-- For every state. BURNISH_UNIT_END, and BURNISH_UNIT_TIMEOUT the same way once the time limit is reached, enter
result, coverage, count and signature of the unit in progress in the record, leave those of every other unit, and
start the next; a failing unit outside SRAM of a startup Burnish locks the device. BURNISH_DRAIN_DONE starts unit 178,
BURNISH_DRAIN_TIMEOUT skips it. BURNISH_RELOAD_DONE loads the image of the running slot again and closes the record:
FAIL when a unit is FAIL, INCOMPLETE when none is and a unit of the run is not covered (log 32), else PASS, with
BURNISH_DONE. BURNISH_ABORT waits for the unit in progress, or leaves SHUTDOWN at once between units. BURNISH_RESULT
completes with the words of the newest closed record, or of an empty one. -/
def Obligations.BurnishRun : Prop :=
  ∀ s : State,
    (∀ c g rows, exec (.burnishUnitTimeout c g rows) s =
      if s.now < s.burn.unitAt + unitLimit s then .next s else exec (.burnishUnitEnd c g rows) s) ∧
    (∀ c g rows u v rest r, s.burn.phase = .running → s.burn.todo = u :: v :: rest → s.burn.cur = some r →
      r.kind ≠ 1 → s.burn.abortPend = false →
      ∃ t r' n, exec (.burnishUnitEnd c g rows) s = .next t ∧ t.burn.cur = some r' ∧ t.burn.todo = v :: rest ∧
        recResult r' u = n ∧
        n = (if readMark s (trimAddr u s.burn.quick) = .bite then 3 else if u ≤ 111 ∧ rows ≠ [] then 2
          else if c < Config.burnCount (2 * u + b2n s.burn.quick) then 3
          else if g = Config.burnSig (2 * u + b2n s.burn.quick) then 1 else 2) ∧
        recCovered r' u = (decide (c = Config.burnCount (2 * u + b2n s.burn.quick)) && decide (n ≠ 3)) ∧
        tblGet r'.counts 0 u = c % 2 ^ 32 ∧ tblGet r'.sigs 0 u = g ∧
        (∀ w, w ≠ u → recResult r' w = recResult r w ∧ recCovered r' w = recCovered r w) ∧
        (s.burn.mramRec = true → tblGet t.burn.slots none s.burn.slot = some r') ∧
        t.burn.phase = (if v = 178 ∧ s.op = .shutdown then .draining else .running) ∧
        (¬ (v = 178 ∧ s.op = .shutdown) → t.burn.unit = v) ∧
        t.mem.cells = s.mem.cells ∧
        (endsBlock s u (v :: rest) = false → s.mem.errs = [] → t = { s with burn := t.burn, mem := t.mem })) ∧
    (∀ c g rows u rest r, s.burn.phase = .running → s.burn.todo = u :: rest → s.burn.cur = some r → r.kind = 1 →
      unitResult s u c g rows = 2 → u < 16 ∨ 111 < u → ∃ t, exec (.burnishUnitEnd c g rows) s = .next t ∧ t.safeLocked = true) ∧
    (s.burn.phase = .draining →
      (s.folio.tags = [] →
        exec .burnishDrainDone s = .next { s with burn := { s.burn with phase := .running, unit := 178, unitAt := s.now } }) ∧
      (∀ u v rest, s.folio.tags ≠ [] → s.burn.todo = u :: v :: rest → v ≠ 178 → s.burn.abortPend = false →
        exec .burnishDrainTimeout s = if s.burn.unitAt + 10 * msTicks ≤ s.now then
          .next { s with burn := { s.burn with phase := .running, todo := v :: rest, unit := v, unitAt := s.now } } else .next s)) ∧
    (∀ r, s.burn.reload = true → s.burn.cur = some r → s.burn.abortPend = false → ∃ t r',
      exec .burnishReloadDone s = .next t ∧ t.burn.cur = some r' ∧ t.burn.phase = .closed ∧ t.burn.reload = false ∧
      r'.aborted = false ∧ ((∃ u, u < 180 ∧ recResult r u = 2) → r'.result = 1) ∧
      ((∀ u, u < 180 → recResult r u ≠ 2) → r'.result = if s.burn.set.all (fun u => recCovered r u) then 0 else 2) ∧
      (s.op = .shutdown → Raised s t 0x0C01 0 [wrd r'.result]) ∧ t.op = s.op ∧ t.nv = s.nv ∧
      (∀ a, readByte t a = if a < slotSize then readByte s (slotBase s.plate.bootSlot + a) else readByte s a)) ∧
    (∀ tag ws, s.op = .shutdown → Starts s tag 0xB2 ws →
      (s.burn.phase ≠ .closed → s.burn.phase ≠ .draining → ∃ t, exec (.burnishAbort tag) s = .next t ∧ Waiting s t tag ∧
        t = { s with folio := t.folio, burn := { s.burn with abortTags := s.burn.abortTags ++ [tag], abortPend := true } }) ∧
      (s.burn.phase = .closed ∨ s.burn.phase = .draining → s.burn.abortTags = [] → ∃ t, exec (.burnishAbort tag) s = .next t ∧ Replied s t tag 0 [] ∧
        t.op ∈ [OpState.standby, OpState.safe] ∧ t.burn.phase = .idle ∧ Raised s t 0x0001 0 [4, 1] ∧
        t.burn.rows = s.burn.rows ∧ (s.burn.phase = .closed → t.burn.slots = s.burn.slots) ∧
        (s.burn.phase = .draining → s.burn.cur ≠ none → ∃ w, Raised s t 0x0C02 0 [w]))) ∧
    (∀ tag, Starts s tag 0xB3 [0] → ∃ t st ws, exec (.burnishResult tag) s = .next t ∧ Replied s t tag st ws ∧
      st ∈ [0, stPoison] ∧ ws.length = 454 ∧ t.mem.cells = s.mem.cells ∧ t.nv = s.nv) ∧
    (∀ tag, Starts s tag 0xB3 [0] → s.mem.errs = [] →
      (newestWith s (fun r => decide (2 ≤ r.state)) = none → ∃ t, exec (.burnishResult tag) s = .next t ∧
        Replied s t tag 0 (0x4255524E :: List.replicate 453 0) ∧ t = { s with folio := t.folio }) ∧
      (∀ n r, newestWith s (fun r => decide (2 ≤ r.state)) = some (n, r) → ∃ t, exec (.burnishResult tag) s = .next t ∧
        ((∀ w, w < 454 → markAt s (recAddr n w) ≠ .bite) → Replied s t tag 0 (recWords r)) ∧
        ((∃ w, w < 454 ∧ markAt s (recAddr n w) = .bite) → Replied s t tag stPoison (recWords r)) ∧
        t = { s with folio := t.folio })) ∧
    (∀ tag r, Starts s tag 0xB3 [1] → s.op = .shutdown → s.burn.cur = some r → ∃ t, exec (.burnishResult tag) s = .next t ∧
      Replied s t tag 0 (recWords r) ∧ t = { s with folio := t.folio })

/-- For every state. POWER_ON_RESET keeps MRAM and no other byte, RST_N_RESET starts the boot with global time 0, no
latch and no drive, and keeps MRAM and the log. POR_RELEASE samples the strap. BOOT_ADVANCE takes the boot from step
to step, step 3 zero-fills SRAM, step 5 waits for a slot that verifies, step 6 ends in STANDBY, or SAFE when locked,
with READY; WARM_RESET_END likewise. SLEEP completes and is due; SHUTDOWN and RESET of a single device complete at
once, in a pair they wait for LEAVE or LEAVE_ACK_TIMEOUT. SLEEP_ENTRY stops the timebases and then the clocks. A wake
source that is enabled and holds wakes the device with its code; WAKE_DONE returns it to service with WAKE. -/
def Obligations.PowerSteps : Prop :=
  ∀ s : State,
    (s.pwr.resetting ≠ some .powerOn → ∀ b, ∃ t, exec (.powerOnReset b) s = .next t ∧ t.part = s.part ∧ t.nv = s.nv ∧
      t.op = .boot ∧ t.now = 0 ∧ t.drives = [] ∧ t.par = [] ∧ t.book = {} ∧ t.so = State.reset.so ∧
      t.pwr = { resetCode := b2n b } ∧
      ∀ a, readByte t a = if 0x10000000 ≤ a ∧ a < lpBase then readByte s a else 0) ∧
    (s.pwr.resetting = some .powerOn → ∀ b, exec (.porRelease b) s = .next { s with
      pwr := { s.pwr with resetting := none, bootStep := 1 }, folio := { s.folio with inReset := false },
      marg := { s.marg with sideB := b } }) ∧
    (s.pwr.resetting ≠ some .powerOn → s.pwr.resetting ≠ some .system → ∃ t, exec .rstNReset s = .next t ∧ t.op = .boot ∧
      t.now = 0 ∧ t.pwr.bootStep = 1 ∧ t.pwr.resetCode = 2 ∧ t.so.latches = [] ∧ t.hatch.latch = 0 ∧ t.nv = s.nv ∧
      t.book.log = s.book.log ∧ (∀ d, d < 4 → t.drive d = { holdTs := (s.drive d).holdTs, holdCut := (s.drive d).holdTs.isSome }) ∧
      ∀ a, a < lpBase → readByte t a = readByte s a) ∧
    (s.op = .boot → s.pwr.supplyBad ≠ [] → ∀ us, exec (.bootAdvance us false) s = .next s) ∧
    (s.op = .boot → s.pwr.resetting = none → ∀ us x, (s.pwr.supplyBad = [] ∨ x = true) →
      (s.pwr.bootStep = 1 → s.tim.xinOk = true →
        exec (.bootAdvance us x) s = .next { s with pwr := { s.pwr with bootStep := 2 } }) ∧
      (s.pwr.bootStep = 2 → s.tim.xinOk = true → ∃ t, exec (.bootAdvance us x) s = .next t ∧ t.pwr.bootStep = 3 ∧
        t.tim = { s.tim with td1 := true, td2 := t.tim.td2, td5 := t.tim.td5, timeValid := true }) ∧
      (s.pwr.bootStep = 3 → ∃ t, exec (.bootAdvance us x) s = .next t ∧ t.pwr.bootStep = 4 ∧
        ∀ a, a < 0x10000000 → s.pwr.resetCode < 2 ∨ a < 0x480000 ∨ 0x4A0000 ≤ a → readByte t a = 0) ∧
      (s.pwr.bootStep = 4 → s.burn.todo = [] →
        exec (.bootAdvance us x) s = .next { s with pwr := { s.pwr with bootStep := 5 } }) ∧
      (s.pwr.bootStep = 5 → slotFound (readSlots s) = false → ∃ t, exec (.bootAdvance us x) s = .next t ∧ t.pwr.bootStep = 5 ∧
        t.nv = s.nv ∧ t.mem.cells = s.mem.cells ∧ (s.mem.errs = [] → t = s)) ∧
      (s.pwr.bootStep = 5 → slotFound (readSlots s) = true → ∃ t, exec (.bootAdvance us x) s = .next t ∧
        t.pwr.bootStep = 6 ∧ t.pwr.lastReset = s.pwr.resetCode ∧ t.plate.mode = .lockstep ∧
        Raised s t 0x0F02 s.pwr.resetCode []) ∧
      (s.pwr.bootStep = 6 → ∃ t, exec (.bootAdvance us x) s = .next t ∧ t.op = (if s.safeLocked then .safe else .standby) ∧
        t.pwr.bootStep = 0 ∧ t.pwr.bootTime = us % 2 ^ 32 ∧ wbit (parGet t 1 5) 0 = true ∧
        Raised s t 0x0001 0 [0, wrd (opCode t.op)])) ∧
    (s.pwr.resetting = some .warm → s.pwr.bootStep = 6 → ∀ us, ∃ t, exec (.warmResetEnd us) s = .next t ∧
      t.pwr.resetting = none ∧ t.op = (if s.safeLocked then .safe else .standby) ∧ wbit (parGet t 1 5) 0 = true ∧
      Raised s t 0x0001 0 [wrd s.pwr.oldOp, wrd (opCode t.op)]) ∧
    (∀ tag ws, stopsRun s = false → splitMode s.plate.mode = true →
      (Starts s tag 0xB0 ws → ∃ t, exec (.sleep tag) s = .next t ∧ Waiting s t tag ∧ t.plate.mode = .joining ∧
        t = { s with folio := t.folio, plate := t.plate, pwr := { s.pwr with sleepTag := some tag } }) ∧
      (Starts s tag 0xB1 ws → s.op ≠ .shutdown → ∃ t, exec (.shutdown tag) s = .next t ∧ Waiting s t tag ∧
        t.plate.mode = .joining ∧ t = { s with folio := t.folio, plate := t.plate, pwr := { s.pwr with shutTag := some tag } })) ∧
    (∀ tag ws, stopsRun s = false → splitMode s.plate.mode = false →
      (Starts s tag 0xB0 ws → ∃ t, exec (.sleep tag) s = .next t ∧ Replied s t tag 0 [] ∧
        t = { s with folio := t.folio, pwr := { s.pwr with sleepDue := true } }) ∧
      (Starts s tag 0xB1 ws → s.op ≠ .shutdown →
        (s.marg.role = 0 ∨ s.marg.linkUp = false → s.grav.waits = [] → ∃ t, exec (.shutdown tag) s = .next t ∧ Replied s t tag 0 [] ∧
          t.op = .shutdown ∧ t.grav.ctxs = [] ∧ t.burn.phase = .running ∧ t.burn.todo = presentUnits s ∧
          Raised s t 0x0001 0 [wrd (opCode s.op), 4] ∧ ∃ r, t.burn.cur = some r ∧ r.kind = 0 ∧ r.state = 1) ∧
        (s.marg.role ≠ 0 → s.marg.linkUp = true → ∃ t, exec (.shutdown tag) s = .next t ∧ Waiting s t tag ∧ t.op = s.op ∧
          t.pwr = { s.pwr with shutTag := some tag } ∧ t.marg.leaving = true ∧ t.marg.leaveAck = false))) ∧
    (∀ tag (k : Word), k.toNat < 2 → Starts s tag 0xB4 [k] → s.pwr.shutTag = none →
      (s.marg.role = 0 ∨ s.marg.linkUp = false → ∃ t, exec (.reset tag) s = .next t ∧ Replied s t tag 0 [] ∧
        t.pwr = { s.pwr with resetDue := some (tag, k.toNat) } ∧ t.op = s.op) ∧
      (s.marg.role ≠ 0 → s.marg.linkUp = true → ∃ t, exec (.reset tag) s = .next t ∧ Waiting s t tag ∧
        t.pwr = { s.pwr with resetDue := some (tag, k.toNat) } ∧ t.marg.leaving = true ∧ t.marg.leaveAck = false)) ∧
    (s.now < s.marg.leaveTick + 2 * usTicks → exec .leaveAckTimeout s = .next s) ∧
    (∀ tag e, s.marg.leaving = true → s.marg.leaveTick + 2 * usTicks ≤ s.now → tag < 1024 → tagEntry s tag = some e →
      e.phase = .running →
      (s.pwr.shutTag = some tag → s.grav.waits = [] → ∃ t, exec .leaveAckTimeout s = .next t ∧ Replied s t tag 0 [] ∧ t.op = .shutdown ∧
        t.burn.phase = .running ∧ t.pwr.shutTag = none) ∧
      (∀ k, s.pwr.shutTag = none → s.pwr.resetDue = some (tag, k) → ∃ t, exec .leaveAckTimeout s = .next t ∧
        Replied s t tag 0 [] ∧ t.op = s.op ∧ t.pwr = s.pwr)) ∧
    (s.pwr.sleepDue = true → splitMode s.plate.mode = false →
      (s.marg.leaving = true ∧ s.marg.leaveAck = true) ∨
        (s.marg.leaving = false ∧ laneEmpty s = true ∧ (s.marg.role = 0 ∨ s.marg.linkUp = false)) →
      ∃ t, exec .sleepEntry s = .next t ∧ t.pwr.sleepDue = false ∧ t.pwr.wakeCfg = parGet s 15 1 ∧
        t.pwr.sleep ∈ [SleepSt.leaving, SleepSt.asleep] ∧ t.folio.span = none ∧ ∀ b, b < 4 → (t.tb b).running = false) ∧
    (s.pwr.sleepDue = false → s.pwr.sleep = .leaving → sequencesQuiet s = true → ∃ t, exec .sleepEntry s = .next t ∧
      t.pwr = { s.pwr with sleep := .asleep } ∧ t.tim.td1 = false ∧ t.tim.td2 = false ∧ t.tim.td5 = false ∧ t.marg.linkUp = false) ∧
    (s.pwr.sleep = .asleep → ∀ td0,
      (wbit s.pwr.wakeCfg 31 = true → exec (.wakeCondition 1 td0) s = .next { s with
        tim := { s.tim with starting := [1, 2, 5].filter (pllPresent s) },
        pwr := { s.pwr with sleep := .waking, lastWake := 1, asleepTd0 := td0 % 2 ^ 32 } }) ∧
      (wbit s.pwr.wakeCfg 31 = false → exec (.wakeCondition 1 td0) s = .next s) ∧
      (wbit s.pwr.wakeCfg 29 = true → s.so.enable = true → exec (.wakeCondition 2 td0) s = .next { s with
        tim := { s.tim with starting := [1, 2, 5].filter (pllPresent s) },
        pwr := { s.pwr with sleep := .waking, lastWake := 2, asleepTd0 := td0 % 2 ^ 32 } }) ∧
      (field s.pwr.wakeCfg 19 0 ≠ 0 → 32000 * field s.pwr.wakeCfg 19 0 ≤ td0 → ∃ t,
        exec (.sleepTimerExpiry td0) s = .next t ∧ t = { s with
          tim := { s.tim with starting := [1, 2, 5].filter (pllPresent s) },
          pwr := { s.pwr with sleep := .waking, asleepTd0 := td0 % 2 ^ 32, lastWake := t.pwr.lastWake } } ∧
        (s.so.enable = false → t.pwr.lastWake = 3))) ∧
    (s.pwr.sleep = .waking → isAsleep s = false → ∀ td0, ∃ t, exec (.wakeDone td0) s = .next t ∧ t.pwr.sleep = .awake ∧
      t.pwr.wakeTime = (td0 - s.pwr.asleepTd0) / 32 % 2 ^ 32 ∧ t.plate.wakeCk = true ∧ wbit (parGet t 1 5) 0 = true ∧
      Raised s t 0x0F01 s.pwr.lastWake [wrd s.pwr.asleepTd0] ∧ (s.therm.held = [] → t.op = s.op) ∧ t.nv = s.nv)

/-- For every state outside a power-on reset. HK_ROUND_END counts the round, gives each channel that is present its
code and window result, 0 for channels 13 to 15, and Tj with its extremes; a reading outside −55.0 °C to +175.0 °C
counts as +175.0 °C and is not valid. Each threshold bit follows Tj; awake, a HIGH_LIMIT newly reached raises TJ_LIMIT
and a change of band raises its event. Parameters of other units but 0x01 and 0x0A stay. SUPPLY_MONITOR_FAULT of a
channel the part has sets its bit; in BOOT before the firmware, and in sleep, the fault is held, otherwise
SUPPLY_FAULT is raised. -/
def Obligations.Housekeeping : Prop :=
  ∀ s : State, s.pwr.resetting ≠ some .powerOn →
    (∀ codes (r : Int), ∃ t x, exec (.hkRoundEnd codes r) s = .next t ∧ x = (if r < -110 ∨ 350 < r then 350 else r) ∧
      t.therm.tj = x ∧ t.therm.tjValid = decide (-110 ≤ r ∧ r ≤ 350) ∧ t.therm.hi = max s.therm.hi x ∧
      t.therm.lo = min s.therm.lo x ∧ t.therm.published = true ∧ parGet t 14 5 = parGet s 14 5 + 1 ∧
      (∀ k, k < 32 → (k ≠ 4 ∧ k ≠ 5) ∨ hasLp s.part = true →
        tblGet t.therm.codes 0 k = (if 13 ≤ k ∧ k ≤ 15 then 0 else codes.getD k 0 % 4096) ∧
        tblGet t.therm.out false k = (decide (tblGet t.therm.codes 0 k < parField s 14 (0x200 + k) 11 0) ||
          decide (parField s 14 (0x200 + k) 27 16 < tblGet t.therm.codes 0 k)) ∧
        (s.pwr.sleep = .awake → k ≠ 0 → tblGet t.therm.out false k = true → tblGet s.therm.out false k = false →
          Raised s t 0x0E04 k [wrd (tblGet t.therm.codes 0 k)])) ∧
      (∀ b, b < 4 → t.therm.thr.testBit b = thrHolds s x b (s.therm.thr.testBit b)) ∧
      (s.pwr.sleep = .awake → t.therm.thr.testBit 3 = true → s.therm.thr.testBit 3 = false →
        Raised s t 0x0E03 3 [wrdI x]) ∧
      (s.pwr.sleep = .awake → t.therm.band ≠ s.therm.band → Raised s t 0x0E01 0 [wrd t.therm.band]) ∧
      (s.therm.published = true → -20 ≤ x → x < 80 → s.therm.band = 1 → t.therm.band = 1) ∧
      (∀ u i, u < 16 → i < 65536 → u ≠ 1 → u ≠ 10 → u ≠ 14 → parGet t u i = parGet s u i) ∧ t.mem.cells = s.mem.cells) ∧
    (∀ ch above, 1 ≤ ch → ch ≤ 5 → (3 < ch → hasLp s.part = true) → ∃ t, exec (.supplyMonitorFault ch above) s = .next t ∧
      t.pwr.highSeen = (if above then s.pwr.highSeen ||| 2 ^ (ch - 1) else s.pwr.highSeen) ∧
      t.pwr.lowSeen = (if above then s.pwr.lowSeen else s.pwr.lowSeen ||| 2 ^ (ch - 1)) ∧
      ((s.op = .boot ∧ s.pwr.bootStep ≠ 6) ∨ isAsleep s = true →
        t = { s with pwr := { s.pwr with
          highSeen := t.pwr.highSeen, lowSeen := t.pwr.lowSeen, supplyBad := s.pwr.supplyBad ++ [(ch, above)] } }) ∧
      (s.op ≠ .boot ∨ s.pwr.bootStep = 6 → isAsleep s = false → Raised s t 0x0F03 ch [if above then 2 else 1] ∧
        Reacted { s with pwr := t.pwr } t))
end

