-- ==== Sys2Proof/Laws/Tables.lean ====
section
/-!
SUPPORT. The tables of State: reading after writing, and that every operation keeps the canonical form.
-/
namespace Sys2Proof.Laws
open Sys2Proof.Machine Sys2Proof.Safety

variable {α : Type}

@[simp] theorem tblGet_nil (d : α) (k : Nat) : tblGet [] d k = d := rfl

theorem tblGet_put (t : Tbl α) (d v : α) (k j : Nat) :
    tblGet (tblPut t k v) d j = if j = k then v else tblGet t d j := by
  induction t with
  | nil => simp only [tblPut, tblGet]; by_cases h : k = j <;> simp [h, eq_comm]
  | cons e r ih =>
    obtain ⟨k', v'⟩ := e
    simp only [tblPut]
    split
    · simp only [tblGet]
      by_cases h : k = j <;> simp [h, eq_comm]
    · split
      · subst_vars
        simp only [tblGet]
        by_cases h : k' = j
        · simp [h]
        · simp [h, Ne.symm h]
      · simp only [tblGet, ih]
        by_cases h : k' = j
        · have : j ≠ k := by omega
          simp [h, this]
        · simp [h]

/-- The bound below which no key of a table lies. -/
theorem tblSorted_weaken {t : Tbl α} {lo : Nat} (h : tblSorted (some lo) t = true) : tblSorted none t = true := by
  cases t with
  | nil => rfl
  | cons e r => simp_all [tblSorted]

theorem tblSorted_mono {t : Tbl α} {lo m : Nat} (hm : m ≤ lo) (h : tblSorted (some lo) t = true) :
    tblSorted (some m) t = true := by
  cases t with
  | nil => rfl
  | cons e r =>
    simp only [tblSorted, Bool.and_eq_true, decide_eq_true_eq] at h ⊢
    exact ⟨by omega, h.2⟩

/-- A key at or below the bound of a table is not listed. -/
theorem tblGet_below {t : Tbl α} {lo k : Nat} {d : α} (h : tblSorted (some lo) t = true) (hk : k ≤ lo) :
    tblGet t d k = d := by
  induction t generalizing lo with
  | nil => rfl
  | cons e r ih =>
    simp only [tblSorted, Bool.and_eq_true, decide_eq_true_eq] at h
    simp only [tblGet]
    rw [if_neg (by omega)]
    exact ih h.2 (by omega)

theorem tblSorted_tail {t : Tbl α} {k : Nat} {v : α} {lo : Option Nat} (h : tblSorted lo ((k, v) :: t) = true) :
    tblSorted (some k) t = true := by
  simp only [tblSorted, Bool.and_eq_true] at h
  exact h.2

theorem tblGet_del (t : Tbl α) (d : α) (k j : Nat) :
    tblGet (tblDel t k) d j = if j = k then d else tblGet t d j := by
  induction t with
  | nil => simp [tblDel]
  | cons e r ih =>
    obtain ⟨k', v'⟩ := e
    simp only [tblDel]
    split
    · subst_vars
      rw [ih]
      by_cases hj : j = k'
      · simp [hj]
      · simp [tblGet, hj, Ne.symm hj]
    · simp only [tblGet, ih]
      by_cases hj : k' = j
      · have : j ≠ k := by omega
        simp [hj, this]
      · simp [hj]

/-- Reading the key just written, whatever the table. -/
theorem tblGet_put_self (t : Tbl α) (d v : α) (k : Nat) : tblGet (tblPut t k v) d k = v := by
  simp [tblGet_put]

theorem tblSorted_put {t : Tbl α} {lo : Option Nat} (h : tblSorted lo t = true) (k : Nat) (v : α)
    (hk : ∀ l, lo = some l → l < k) : tblSorted lo (tblPut t k v) = true := by
  induction t generalizing lo with
  | nil => cases lo <;> simp_all [tblPut, tblSorted]
  | cons e r ih =>
    obtain ⟨k', v'⟩ := e
    have ht := tblSorted_tail h
    simp only [tblPut]
    split
    · cases lo <;> simp_all [tblSorted]
    · split
      · subst_vars
        cases lo <;> simp_all [tblSorted]
      · have := ih ht (fun l hl => by simp only [Option.some.injEq] at hl; omega)
        cases lo <;> simp_all [tblSorted]

theorem tblSorted_skip {t : Tbl α} {lo : Option Nat} {k : Nat} {v : α} (h : tblSorted lo ((k, v) :: t) = true) :
    tblSorted lo t = true := by
  cases lo with
  | none => exact tblSorted_weaken (tblSorted_tail h)
  | some l =>
    have hk : l < k := by
      simp only [tblSorted, Bool.and_eq_true, decide_eq_true_eq] at h
      exact h.1
    exact tblSorted_mono (by omega) (tblSorted_tail h)

theorem tblSorted_del {t : Tbl α} {lo : Option Nat} (h : tblSorted lo t = true) (k : Nat) :
    tblSorted lo (tblDel t k) = true := by
  induction t generalizing lo with
  | nil => exact h
  | cons e r ih =>
    obtain ⟨k', v'⟩ := e
    simp only [tblDel]
    split
    · exact ih (tblSorted_skip h)
    · have := ih (tblSorted_tail h)
      cases lo <;> simp_all [tblSorted]

theorem tblSorted_filter {t : Tbl α} {lo : Option Nat} (h : tblSorted lo t = true) (p : Nat × α → Bool) :
    tblSorted lo (t.filter p) = true := by
  induction t generalizing lo with
  | nil => exact h
  | cons e r ih =>
    obtain ⟨k', v'⟩ := e
    by_cases hp : p (k', v') = true
    · have := ih (tblSorted_tail h)
      simp only [List.filter_cons, hp, if_true]
      cases lo <;> simp_all [tblSorted]
    · simp only [List.filter_cons, hp]
      exact ih (tblSorted_skip h)

theorem mem_put {t : Tbl α} {k : Nat} {v : α} {e : Nat × α} (h : e ∈ tblPut t k v) : e = (k, v) ∨ e ∈ t := by
  induction t with
  | nil => simpa [tblPut] using h
  | cons x r ih =>
    obtain ⟨k', v'⟩ := x
    simp only [tblPut] at h
    split at h
    · simpa using h
    · split at h
      · rcases List.mem_cons.1 h with h | h
        · exact .inl h
        · exact .inr (List.mem_cons_of_mem _ h)
      · rcases List.mem_cons.1 h with h | h
        · exact .inr (h ▸ List.mem_cons_self ..)
        · rcases ih h with h | h
          · exact .inl h
          · exact .inr (List.mem_cons_of_mem _ h)

theorem mem_del {t : Tbl α} {k : Nat} {e : Nat × α} (h : e ∈ tblDel t k) : e ∈ t := by
  induction t with
  | nil => exact h
  | cons x r ih =>
    obtain ⟨k', v'⟩ := x
    simp only [tblDel] at h
    split at h
    · exact List.mem_cons_of_mem _ (ih h)
    · rcases List.mem_cons.1 h with h | h
      · exact h ▸ List.mem_cons_self ..
      · exact List.mem_cons_of_mem _ (ih h)

/-- A write keeps the canonical form. -/
theorem tblWf_set [DecidableEq α] {t : Tbl α} {d : α} (h : tblWf d t = true) (k : Nat) (v : α) :
    tblWf d (tblSet t d k v) = true := by
  simp only [tblWf, Bool.and_eq_true, List.all_eq_true] at h ⊢
  by_cases hv : v = d
  · simp only [tblSet, hv, if_true]
    exact ⟨tblSorted_del h.1 k, fun e he => h.2 e (mem_del he)⟩
  · simp only [tblSet, hv, if_false]
    refine ⟨tblSorted_put h.1 k v (fun l hl => by cases hl), fun e he => ?_⟩
    rcases mem_put he with rfl | he
    · simpa using hv
    · exact h.2 e he

/-- A part of a table in canonical form is in canonical form. -/
theorem tblWf_filter [DecidableEq α] {t : Tbl α} {d : α} (h : tblWf d t = true) (p : Nat × α → Bool) :
    tblWf d (t.filter p) = true := by
  simp only [tblWf, Bool.and_eq_true, List.all_eq_true] at h ⊢
  exact ⟨tblSorted_filter h.1 p, fun e he => h.2 e (List.mem_of_mem_filter he)⟩

/-- A table without the entries of a range, read outside the range. -/
theorem tblGet_filter {t : Tbl α} {d : α} {lo : Option Nat} (h : tblSorted lo t = true) (p : Nat → Bool) (k : Nat) :
    tblGet (t.filter fun e => p e.1) d k = if p k then tblGet t d k else d := by
  induction t generalizing lo with
  | nil => simp
  | cons e r ih =>
    obtain ⟨k', v'⟩ := e
    have hr := ih (tblSorted_tail h)
    by_cases hp : p k' = true
    · simp only [List.filter_cons, hp, if_true, tblGet, hr]
      by_cases hk : k' = k
      · subst hk; simp [hp]
      · simp [hk]
    · simp only [List.filter_cons, hp]
      by_cases hk : k' = k
      · subst hk
        simp only [hp, tblGet, if_true]
        simpa [hp] using hr
      · simp only [tblGet, hk, if_false]
        simpa using hr

theorem rising_nil : Rising ([] : Tbl α) := rfl

theorem rising_set [DecidableEq α] {t : Tbl α} (h : Rising t) (d : α) (k : Nat) (v : α) : Rising (tblSet t d k v) := by
  unfold tblSet
  split
  · exact tblSorted_del h k
  · exact tblSorted_put h k v (fun l hl => by cases hl)

theorem rising_filter {t : Tbl α} (h : Rising t) (p : Nat × α → Bool) : Rising (t.filter p) := tblSorted_filter h p

theorem tblSorted_map {β : Type} {t : Tbl α} {lo : Option Nat} (h : tblSorted lo t = true) {f : Nat × α → Nat × β}
    (hf : ∀ e, (f e).1 = e.1) : tblSorted lo (t.map f) = true := by
  induction t generalizing lo with
  | nil => rfl
  | cons e r ih =>
    obtain ⟨k, v⟩ := e
    have hk := hf (k, v)
    have := ih (tblSorted_tail h)
    rw [List.map_cons]
    generalize f (k, v) = x at hk ⊢
    obtain ⟨k', v'⟩ := x
    simp only at hk
    subst hk
    cases lo <;> simp_all [tblSorted]

theorem rising_map {β : Type} {t : Tbl α} (h : Rising t) {f : Nat × α → Nat × β} (hf : ∀ e, (f e).1 = e.1) :
    Rising (t.map f) := tblSorted_map h hf

/-- Reading any table after a write. -/
theorem tblGet_write [DecidableEq α] (t : Tbl α) (d : α) (k j : Nat) (v : α) :
    tblGet (tblSet t d k v) d j = if j = k then v else tblGet t d j := by
  by_cases hv : v = d
  · simp only [tblSet, hv, if_true]
    exact tblGet_del t d k j
  · simp only [tblSet, hv, if_false]
    exact tblGet_put t d v k j

theorem tblGet_del_ne (t : Tbl α) (d : α) {k j : Nat} (hj : j ≠ k) : tblGet (tblDel t k) d j = tblGet t d j := by
  rw [tblGet_del, if_neg hj]

/-- A write leaves every other key of any table as it was. -/
theorem tblGet_write_ne [DecidableEq α] (t : Tbl α) (d d' v : α) {k j : Nat} (hj : j ≠ k) :
    tblGet (tblSet t d k v) d' j = tblGet t d' j := by
  unfold tblSet
  split
  · exact tblGet_del_ne t d' hj
  · rw [tblGet_put, if_neg hj]

/-- A value written reads back. -/
theorem tblGet_write_self [DecidableEq α] (t : Tbl α) (d v : α) (k : Nat) : tblGet (tblSet t d k v) d k = v := by
  rw [tblGet_write, if_pos rfl]

theorem tblSorted_append {t u : Tbl α} {lo : Option Nat} {m : Nat} (ht : tblSorted lo t = true)
    (hlt : ∀ e ∈ t, e.1 < m) (hu : tblSorted none u = true) (hge : ∀ e ∈ u, m ≤ e.1) (hlo : ∀ l, lo = some l → l < m) :
    tblSorted lo (t ++ u) = true := by
  induction t generalizing lo with
  | nil =>
    cases u with
    | nil => rfl
    | cons e r =>
      obtain ⟨k, v⟩ := e
      have hk := hge (k, v) (List.mem_cons_self ..)
      cases lo with
      | none => simpa using hu
      | some l =>
        have := hlo l rfl
        simp only [List.nil_append, tblSorted, Bool.and_eq_true, decide_eq_true_eq] at hu ⊢
        exact ⟨by omega, hu.2⟩
  | cons e r ih =>
    obtain ⟨k, v⟩ := e
    have hk : k < m := hlt (k, v) (List.mem_cons_self ..)
    have := ih (tblSorted_tail ht) (fun e he => hlt e (List.mem_cons_of_mem _ he))
      (fun l hl => by simp only [Option.some.injEq] at hl; omega)
    cases lo <;> simp_all [tblSorted]

theorem tblSorted_shift {t : Tbl α} {lo : Option Nat} {b : Nat} (h : tblSorted lo t = true) (hb : ∀ e ∈ t, b ≤ e.1)
    (hl : ∀ l, lo = some l → b ≤ l) : tblSorted (lo.map fun l => l - b) (t.map fun e => (e.1 - b, e.2)) = true := by
  induction t generalizing lo with
  | nil => rfl
  | cons e r ih =>
    obtain ⟨k, v⟩ := e
    have hk : b ≤ k := hb (k, v) (List.mem_cons_self ..)
    have := ih (tblSorted_tail h) (fun e he => hb e (List.mem_cons_of_mem _ he))
      (fun l hl => by simp only [Option.some.injEq] at hl; omega)
    cases lo with
    | none => simpa [tblSorted] using this
    | some l =>
      have := hl l rfl
      simp only [tblSorted, Bool.and_eq_true, decide_eq_true_eq] at h
      simp only [Option.map_some, List.map_cons, tblSorted, Bool.and_eq_true, decide_eq_true_eq]
      exact ⟨by omega, by assumption⟩

/-- A range of a table copied to the addresses from 0 is in canonical form, with what lies above it. -/
theorem tblWf_copy [DecidableEq α] {t : Tbl α} {d : α} (h : tblWf d t = true) (b n : Nat) :
    tblWf d (((t.filter fun c => decide (b ≤ c.1) && decide (c.1 < b + n)).map fun c => (c.1 - b, c.2)) ++
      t.filter fun c => decide (n ≤ c.1)) = true := by
  have h1 := tblWf_filter h fun c => decide (b ≤ c.1) && decide (c.1 < b + n)
  have h2 := tblWf_filter h fun c => decide (n ≤ c.1)
  simp only [tblWf, Bool.and_eq_true, List.all_eq_true] at h h1 h2 ⊢
  refine ⟨tblSorted_append (m := n) ?_ ?_ h2.1 ?_ (fun l hl => by cases hl), ?_⟩
  · refine tblSorted_shift (lo := none) h1.1 (fun e he => ?_) (fun l hl => by cases hl)
    have := List.of_mem_filter he
    simp only [Bool.and_eq_true, decide_eq_true_eq] at this
    exact this.1
  · intro e he
    obtain ⟨c, hc, rfl⟩ := List.mem_map.1 he
    have := List.of_mem_filter hc
    simp only [Bool.and_eq_true, decide_eq_true_eq] at this
    show c.1 - b < n
    omega
  · intro e he
    have := List.of_mem_filter he
    simpa using this
  · intro e he
    rcases List.mem_append.1 he with he | he
    · obtain ⟨c, hc, rfl⟩ := List.mem_map.1 he
      exact h1.2 c hc
    · exact h2.2 e he

end Sys2Proof.Laws
end

