-- ==== Sys2Proof/Laws/State.lean ====
section
/-!
SUPPORT. What each update of State leaves alone, field by field, and what a read gives after it.
-/
namespace Sys2Proof.Laws
open Sys2Proof.Machine Sys2Proof.Safety

variable (s : State)

/-! updDrive. -/

@[simp] theorem updDrive_part (d : Nat) (f : Drive → Drive) : (s.updDrive d f).part = s.part := rfl
@[simp] theorem updDrive_now (d : Nat) (f : Drive → Drive) : (s.updDrive d f).now = s.now := rfl
@[simp] theorem updDrive_op (d : Nat) (f : Drive → Drive) : (s.updDrive d f).op = s.op := rfl
@[simp] theorem updDrive_safeLocked (d : Nat) (f : Drive → Drive) : (s.updDrive d f).safeLocked = s.safeLocked := rfl
@[simp] theorem updDrive_par (d : Nat) (f : Drive → Drive) : (s.updDrive d f).par = s.par := rfl
@[simp] theorem updDrive_nv (d : Nat) (f : Drive → Drive) : (s.updDrive d f).nv = s.nv := rfl
@[simp] theorem updDrive_folio (d : Nat) (f : Drive → Drive) : (s.updDrive d f).folio = s.folio := rfl
@[simp] theorem updDrive_tim (d : Nat) (f : Drive → Drive) : (s.updDrive d f).tim = s.tim := rfl
@[simp] theorem updDrive_conv (d : Nat) (f : Drive → Drive) : (s.updDrive d f).conv = s.conv := rfl
@[simp] theorem updDrive_pos (d : Nat) (f : Drive → Drive) : (s.updDrive d f).pos = s.pos := rfl
@[simp] theorem updDrive_hatch (d : Nat) (f : Drive → Drive) : (s.updDrive d f).hatch = s.hatch := rfl
@[simp] theorem updDrive_stip (d : Nat) (f : Drive → Drive) : (s.updDrive d f).stip = s.stip := rfl
@[simp] theorem updDrive_grav (d : Nat) (f : Drive → Drive) : (s.updDrive d f).grav = s.grav := rfl
@[simp] theorem updDrive_plate (d : Nat) (f : Drive → Drive) : (s.updDrive d f).plate = s.plate := rfl
@[simp] theorem updDrive_so (d : Nat) (f : Drive → Drive) : (s.updDrive d f).so = s.so := rfl
@[simp] theorem updDrive_mem (d : Nat) (f : Drive → Drive) : (s.updDrive d f).mem = s.mem := rfl
@[simp] theorem updDrive_marg (d : Nat) (f : Drive → Drive) : (s.updDrive d f).marg = s.marg := rfl
@[simp] theorem updDrive_burn (d : Nat) (f : Drive → Drive) : (s.updDrive d f).burn = s.burn := rfl
@[simp] theorem updDrive_book (d : Nat) (f : Drive → Drive) : (s.updDrive d f).book = s.book := rfl
@[simp] theorem updDrive_therm (d : Nat) (f : Drive → Drive) : (s.updDrive d f).therm = s.therm := rfl
@[simp] theorem updDrive_pwr (d : Nat) (f : Drive → Drive) : (s.updDrive d f).pwr = s.pwr := rfl
@[simp] theorem updDrive_free (d : Nat) (f : Drive → Drive) : (s.updDrive d f).free = s.free := rfl
@[simp] theorem updDrive_pending (d : Nat) (f : Drive → Drive) : (s.updDrive d f).pending = s.pending := rfl

/-! updTb. -/

@[simp] theorem updTb_part (n : Nat) (f : Timebase → Timebase) : (s.updTb n f).part = s.part := rfl
@[simp] theorem updTb_now (n : Nat) (f : Timebase → Timebase) : (s.updTb n f).now = s.now := rfl
@[simp] theorem updTb_op (n : Nat) (f : Timebase → Timebase) : (s.updTb n f).op = s.op := rfl
@[simp] theorem updTb_safeLocked (n : Nat) (f : Timebase → Timebase) : (s.updTb n f).safeLocked = s.safeLocked := rfl
@[simp] theorem updTb_drives (n : Nat) (f : Timebase → Timebase) : (s.updTb n f).drives = s.drives := rfl
@[simp] theorem updTb_par (n : Nat) (f : Timebase → Timebase) : (s.updTb n f).par = s.par := rfl
@[simp] theorem updTb_nv (n : Nat) (f : Timebase → Timebase) : (s.updTb n f).nv = s.nv := rfl
@[simp] theorem updTb_folio (n : Nat) (f : Timebase → Timebase) : (s.updTb n f).folio = s.folio := rfl
@[simp] theorem updTb_tim (n : Nat) (f : Timebase → Timebase) : (s.updTb n f).tim = s.tim := rfl
@[simp] theorem updTb_conv (n : Nat) (f : Timebase → Timebase) : (s.updTb n f).conv = s.conv := rfl
@[simp] theorem updTb_pos (n : Nat) (f : Timebase → Timebase) : (s.updTb n f).pos = s.pos := rfl
@[simp] theorem updTb_stip (n : Nat) (f : Timebase → Timebase) : (s.updTb n f).stip = s.stip := rfl
@[simp] theorem updTb_grav (n : Nat) (f : Timebase → Timebase) : (s.updTb n f).grav = s.grav := rfl
@[simp] theorem updTb_plate (n : Nat) (f : Timebase → Timebase) : (s.updTb n f).plate = s.plate := rfl
@[simp] theorem updTb_so (n : Nat) (f : Timebase → Timebase) : (s.updTb n f).so = s.so := rfl
@[simp] theorem updTb_mem (n : Nat) (f : Timebase → Timebase) : (s.updTb n f).mem = s.mem := rfl
@[simp] theorem updTb_marg (n : Nat) (f : Timebase → Timebase) : (s.updTb n f).marg = s.marg := rfl
@[simp] theorem updTb_burn (n : Nat) (f : Timebase → Timebase) : (s.updTb n f).burn = s.burn := rfl
@[simp] theorem updTb_book (n : Nat) (f : Timebase → Timebase) : (s.updTb n f).book = s.book := rfl
@[simp] theorem updTb_therm (n : Nat) (f : Timebase → Timebase) : (s.updTb n f).therm = s.therm := rfl
@[simp] theorem updTb_pwr (n : Nat) (f : Timebase → Timebase) : (s.updTb n f).pwr = s.pwr := rfl
@[simp] theorem updTb_free (n : Nat) (f : Timebase → Timebase) : (s.updTb n f).free = s.free := rfl
@[simp] theorem updTb_pending (n : Nat) (f : Timebase → Timebase) : (s.updTb n f).pending = s.pending := rfl

/-! updPair. -/

@[simp] theorem updPair_part (n : Nat) (f : Pair → Pair) : (s.updPair n f).part = s.part := rfl
@[simp] theorem updPair_now (n : Nat) (f : Pair → Pair) : (s.updPair n f).now = s.now := rfl
@[simp] theorem updPair_op (n : Nat) (f : Pair → Pair) : (s.updPair n f).op = s.op := rfl
@[simp] theorem updPair_safeLocked (n : Nat) (f : Pair → Pair) : (s.updPair n f).safeLocked = s.safeLocked := rfl
@[simp] theorem updPair_drives (n : Nat) (f : Pair → Pair) : (s.updPair n f).drives = s.drives := rfl
@[simp] theorem updPair_par (n : Nat) (f : Pair → Pair) : (s.updPair n f).par = s.par := rfl
@[simp] theorem updPair_nv (n : Nat) (f : Pair → Pair) : (s.updPair n f).nv = s.nv := rfl
@[simp] theorem updPair_folio (n : Nat) (f : Pair → Pair) : (s.updPair n f).folio = s.folio := rfl
@[simp] theorem updPair_tim (n : Nat) (f : Pair → Pair) : (s.updPair n f).tim = s.tim := rfl
@[simp] theorem updPair_conv (n : Nat) (f : Pair → Pair) : (s.updPair n f).conv = s.conv := rfl
@[simp] theorem updPair_pos (n : Nat) (f : Pair → Pair) : (s.updPair n f).pos = s.pos := rfl
@[simp] theorem updPair_stip (n : Nat) (f : Pair → Pair) : (s.updPair n f).stip = s.stip := rfl
@[simp] theorem updPair_grav (n : Nat) (f : Pair → Pair) : (s.updPair n f).grav = s.grav := rfl
@[simp] theorem updPair_plate (n : Nat) (f : Pair → Pair) : (s.updPair n f).plate = s.plate := rfl
@[simp] theorem updPair_so (n : Nat) (f : Pair → Pair) : (s.updPair n f).so = s.so := rfl
@[simp] theorem updPair_mem (n : Nat) (f : Pair → Pair) : (s.updPair n f).mem = s.mem := rfl
@[simp] theorem updPair_marg (n : Nat) (f : Pair → Pair) : (s.updPair n f).marg = s.marg := rfl
@[simp] theorem updPair_burn (n : Nat) (f : Pair → Pair) : (s.updPair n f).burn = s.burn := rfl
@[simp] theorem updPair_book (n : Nat) (f : Pair → Pair) : (s.updPair n f).book = s.book := rfl
@[simp] theorem updPair_therm (n : Nat) (f : Pair → Pair) : (s.updPair n f).therm = s.therm := rfl
@[simp] theorem updPair_pwr (n : Nat) (f : Pair → Pair) : (s.updPair n f).pwr = s.pwr := rfl
@[simp] theorem updPair_free (n : Nat) (f : Pair → Pair) : (s.updPair n f).free = s.free := rfl
@[simp] theorem updPair_pending (n : Nat) (f : Pair → Pair) : (s.updPair n f).pending = s.pending := rfl

/-! updRing. -/

@[simp] theorem updRing_part (n : Nat) (f : Machine.Ring → Machine.Ring) : (s.updRing n f).part = s.part := rfl
@[simp] theorem updRing_now (n : Nat) (f : Machine.Ring → Machine.Ring) : (s.updRing n f).now = s.now := rfl
@[simp] theorem updRing_op (n : Nat) (f : Machine.Ring → Machine.Ring) : (s.updRing n f).op = s.op := rfl
@[simp] theorem updRing_safeLocked (n : Nat) (f : Machine.Ring → Machine.Ring) : (s.updRing n f).safeLocked = s.safeLocked := rfl
@[simp] theorem updRing_drives (n : Nat) (f : Machine.Ring → Machine.Ring) : (s.updRing n f).drives = s.drives := rfl
@[simp] theorem updRing_par (n : Nat) (f : Machine.Ring → Machine.Ring) : (s.updRing n f).par = s.par := rfl
@[simp] theorem updRing_nv (n : Nat) (f : Machine.Ring → Machine.Ring) : (s.updRing n f).nv = s.nv := rfl
@[simp] theorem updRing_folio (n : Nat) (f : Machine.Ring → Machine.Ring) : (s.updRing n f).folio = s.folio := rfl
@[simp] theorem updRing_tim (n : Nat) (f : Machine.Ring → Machine.Ring) : (s.updRing n f).tim = s.tim := rfl
@[simp] theorem updRing_conv (n : Nat) (f : Machine.Ring → Machine.Ring) : (s.updRing n f).conv = s.conv := rfl
@[simp] theorem updRing_pos (n : Nat) (f : Machine.Ring → Machine.Ring) : (s.updRing n f).pos = s.pos := rfl
@[simp] theorem updRing_hatch (n : Nat) (f : Machine.Ring → Machine.Ring) : (s.updRing n f).hatch = s.hatch := rfl
@[simp] theorem updRing_grav (n : Nat) (f : Machine.Ring → Machine.Ring) : (s.updRing n f).grav = s.grav := rfl
@[simp] theorem updRing_plate (n : Nat) (f : Machine.Ring → Machine.Ring) : (s.updRing n f).plate = s.plate := rfl
@[simp] theorem updRing_so (n : Nat) (f : Machine.Ring → Machine.Ring) : (s.updRing n f).so = s.so := rfl
@[simp] theorem updRing_mem (n : Nat) (f : Machine.Ring → Machine.Ring) : (s.updRing n f).mem = s.mem := rfl
@[simp] theorem updRing_marg (n : Nat) (f : Machine.Ring → Machine.Ring) : (s.updRing n f).marg = s.marg := rfl
@[simp] theorem updRing_burn (n : Nat) (f : Machine.Ring → Machine.Ring) : (s.updRing n f).burn = s.burn := rfl
@[simp] theorem updRing_book (n : Nat) (f : Machine.Ring → Machine.Ring) : (s.updRing n f).book = s.book := rfl
@[simp] theorem updRing_therm (n : Nat) (f : Machine.Ring → Machine.Ring) : (s.updRing n f).therm = s.therm := rfl
@[simp] theorem updRing_pwr (n : Nat) (f : Machine.Ring → Machine.Ring) : (s.updRing n f).pwr = s.pwr := rfl
@[simp] theorem updRing_free (n : Nat) (f : Machine.Ring → Machine.Ring) : (s.updRing n f).free = s.free := rfl
@[simp] theorem updRing_pending (n : Nat) (f : Machine.Ring → Machine.Ring) : (s.updRing n f).pending = s.pending := rfl

/-! updEntry. -/

@[simp] theorem updEntry_part (n : Nat) (f : DirEntry → DirEntry) : (s.updEntry n f).part = s.part := rfl
@[simp] theorem updEntry_now (n : Nat) (f : DirEntry → DirEntry) : (s.updEntry n f).now = s.now := rfl
@[simp] theorem updEntry_op (n : Nat) (f : DirEntry → DirEntry) : (s.updEntry n f).op = s.op := rfl
@[simp] theorem updEntry_safeLocked (n : Nat) (f : DirEntry → DirEntry) : (s.updEntry n f).safeLocked = s.safeLocked := rfl
@[simp] theorem updEntry_drives (n : Nat) (f : DirEntry → DirEntry) : (s.updEntry n f).drives = s.drives := rfl
@[simp] theorem updEntry_par (n : Nat) (f : DirEntry → DirEntry) : (s.updEntry n f).par = s.par := rfl
@[simp] theorem updEntry_nv (n : Nat) (f : DirEntry → DirEntry) : (s.updEntry n f).nv = s.nv := rfl
@[simp] theorem updEntry_folio (n : Nat) (f : DirEntry → DirEntry) : (s.updEntry n f).folio = s.folio := rfl
@[simp] theorem updEntry_tim (n : Nat) (f : DirEntry → DirEntry) : (s.updEntry n f).tim = s.tim := rfl
@[simp] theorem updEntry_conv (n : Nat) (f : DirEntry → DirEntry) : (s.updEntry n f).conv = s.conv := rfl
@[simp] theorem updEntry_pos (n : Nat) (f : DirEntry → DirEntry) : (s.updEntry n f).pos = s.pos := rfl
@[simp] theorem updEntry_hatch (n : Nat) (f : DirEntry → DirEntry) : (s.updEntry n f).hatch = s.hatch := rfl
@[simp] theorem updEntry_grav (n : Nat) (f : DirEntry → DirEntry) : (s.updEntry n f).grav = s.grav := rfl
@[simp] theorem updEntry_plate (n : Nat) (f : DirEntry → DirEntry) : (s.updEntry n f).plate = s.plate := rfl
@[simp] theorem updEntry_so (n : Nat) (f : DirEntry → DirEntry) : (s.updEntry n f).so = s.so := rfl
@[simp] theorem updEntry_mem (n : Nat) (f : DirEntry → DirEntry) : (s.updEntry n f).mem = s.mem := rfl
@[simp] theorem updEntry_marg (n : Nat) (f : DirEntry → DirEntry) : (s.updEntry n f).marg = s.marg := rfl
@[simp] theorem updEntry_burn (n : Nat) (f : DirEntry → DirEntry) : (s.updEntry n f).burn = s.burn := rfl
@[simp] theorem updEntry_book (n : Nat) (f : DirEntry → DirEntry) : (s.updEntry n f).book = s.book := rfl
@[simp] theorem updEntry_therm (n : Nat) (f : DirEntry → DirEntry) : (s.updEntry n f).therm = s.therm := rfl
@[simp] theorem updEntry_pwr (n : Nat) (f : DirEntry → DirEntry) : (s.updEntry n f).pwr = s.pwr := rfl
@[simp] theorem updEntry_free (n : Nat) (f : DirEntry → DirEntry) : (s.updEntry n f).free = s.free := rfl
@[simp] theorem updEntry_pending (n : Nat) (f : DirEntry → DirEntry) : (s.updEntry n f).pending = s.pending := rfl

/-! updSrc. -/

@[simp] theorem updSrc_part (n : Nat) (f : PosSrc → PosSrc) : (s.updSrc n f).part = s.part := rfl
@[simp] theorem updSrc_now (n : Nat) (f : PosSrc → PosSrc) : (s.updSrc n f).now = s.now := rfl
@[simp] theorem updSrc_op (n : Nat) (f : PosSrc → PosSrc) : (s.updSrc n f).op = s.op := rfl
@[simp] theorem updSrc_safeLocked (n : Nat) (f : PosSrc → PosSrc) : (s.updSrc n f).safeLocked = s.safeLocked := rfl
@[simp] theorem updSrc_drives (n : Nat) (f : PosSrc → PosSrc) : (s.updSrc n f).drives = s.drives := rfl
@[simp] theorem updSrc_par (n : Nat) (f : PosSrc → PosSrc) : (s.updSrc n f).par = s.par := rfl
@[simp] theorem updSrc_nv (n : Nat) (f : PosSrc → PosSrc) : (s.updSrc n f).nv = s.nv := rfl
@[simp] theorem updSrc_folio (n : Nat) (f : PosSrc → PosSrc) : (s.updSrc n f).folio = s.folio := rfl
@[simp] theorem updSrc_tim (n : Nat) (f : PosSrc → PosSrc) : (s.updSrc n f).tim = s.tim := rfl
@[simp] theorem updSrc_conv (n : Nat) (f : PosSrc → PosSrc) : (s.updSrc n f).conv = s.conv := rfl
@[simp] theorem updSrc_hatch (n : Nat) (f : PosSrc → PosSrc) : (s.updSrc n f).hatch = s.hatch := rfl
@[simp] theorem updSrc_stip (n : Nat) (f : PosSrc → PosSrc) : (s.updSrc n f).stip = s.stip := rfl
@[simp] theorem updSrc_grav (n : Nat) (f : PosSrc → PosSrc) : (s.updSrc n f).grav = s.grav := rfl
@[simp] theorem updSrc_plate (n : Nat) (f : PosSrc → PosSrc) : (s.updSrc n f).plate = s.plate := rfl
@[simp] theorem updSrc_so (n : Nat) (f : PosSrc → PosSrc) : (s.updSrc n f).so = s.so := rfl
@[simp] theorem updSrc_mem (n : Nat) (f : PosSrc → PosSrc) : (s.updSrc n f).mem = s.mem := rfl
@[simp] theorem updSrc_marg (n : Nat) (f : PosSrc → PosSrc) : (s.updSrc n f).marg = s.marg := rfl
@[simp] theorem updSrc_burn (n : Nat) (f : PosSrc → PosSrc) : (s.updSrc n f).burn = s.burn := rfl
@[simp] theorem updSrc_book (n : Nat) (f : PosSrc → PosSrc) : (s.updSrc n f).book = s.book := rfl
@[simp] theorem updSrc_therm (n : Nat) (f : PosSrc → PosSrc) : (s.updSrc n f).therm = s.therm := rfl
@[simp] theorem updSrc_pwr (n : Nat) (f : PosSrc → PosSrc) : (s.updSrc n f).pwr = s.pwr := rfl
@[simp] theorem updSrc_free (n : Nat) (f : PosSrc → PosSrc) : (s.updSrc n f).free = s.free := rfl
@[simp] theorem updSrc_pending (n : Nat) (f : PosSrc → PosSrc) : (s.updSrc n f).pending = s.pending := rfl

/-! updCmp. -/

@[simp] theorem updCmp_part (n : Nat) (f : PosCmp → PosCmp) : (s.updCmp n f).part = s.part := rfl
@[simp] theorem updCmp_now (n : Nat) (f : PosCmp → PosCmp) : (s.updCmp n f).now = s.now := rfl
@[simp] theorem updCmp_op (n : Nat) (f : PosCmp → PosCmp) : (s.updCmp n f).op = s.op := rfl
@[simp] theorem updCmp_safeLocked (n : Nat) (f : PosCmp → PosCmp) : (s.updCmp n f).safeLocked = s.safeLocked := rfl
@[simp] theorem updCmp_drives (n : Nat) (f : PosCmp → PosCmp) : (s.updCmp n f).drives = s.drives := rfl
@[simp] theorem updCmp_par (n : Nat) (f : PosCmp → PosCmp) : (s.updCmp n f).par = s.par := rfl
@[simp] theorem updCmp_nv (n : Nat) (f : PosCmp → PosCmp) : (s.updCmp n f).nv = s.nv := rfl
@[simp] theorem updCmp_folio (n : Nat) (f : PosCmp → PosCmp) : (s.updCmp n f).folio = s.folio := rfl
@[simp] theorem updCmp_tim (n : Nat) (f : PosCmp → PosCmp) : (s.updCmp n f).tim = s.tim := rfl
@[simp] theorem updCmp_conv (n : Nat) (f : PosCmp → PosCmp) : (s.updCmp n f).conv = s.conv := rfl
@[simp] theorem updCmp_hatch (n : Nat) (f : PosCmp → PosCmp) : (s.updCmp n f).hatch = s.hatch := rfl
@[simp] theorem updCmp_stip (n : Nat) (f : PosCmp → PosCmp) : (s.updCmp n f).stip = s.stip := rfl
@[simp] theorem updCmp_grav (n : Nat) (f : PosCmp → PosCmp) : (s.updCmp n f).grav = s.grav := rfl
@[simp] theorem updCmp_plate (n : Nat) (f : PosCmp → PosCmp) : (s.updCmp n f).plate = s.plate := rfl
@[simp] theorem updCmp_so (n : Nat) (f : PosCmp → PosCmp) : (s.updCmp n f).so = s.so := rfl
@[simp] theorem updCmp_mem (n : Nat) (f : PosCmp → PosCmp) : (s.updCmp n f).mem = s.mem := rfl
@[simp] theorem updCmp_marg (n : Nat) (f : PosCmp → PosCmp) : (s.updCmp n f).marg = s.marg := rfl
@[simp] theorem updCmp_burn (n : Nat) (f : PosCmp → PosCmp) : (s.updCmp n f).burn = s.burn := rfl
@[simp] theorem updCmp_book (n : Nat) (f : PosCmp → PosCmp) : (s.updCmp n f).book = s.book := rfl
@[simp] theorem updCmp_therm (n : Nat) (f : PosCmp → PosCmp) : (s.updCmp n f).therm = s.therm := rfl
@[simp] theorem updCmp_pwr (n : Nat) (f : PosCmp → PosCmp) : (s.updCmp n f).pwr = s.pwr := rfl
@[simp] theorem updCmp_free (n : Nat) (f : PosCmp → PosCmp) : (s.updCmp n f).free = s.free := rfl
@[simp] theorem updCmp_pending (n : Nat) (f : PosCmp → PosCmp) : (s.updCmp n f).pending = s.pending := rfl

/-! updEmu. -/

@[simp] theorem updEmu_part (n : Nat) (f : Emu → Emu) : (s.updEmu n f).part = s.part := rfl
@[simp] theorem updEmu_now (n : Nat) (f : Emu → Emu) : (s.updEmu n f).now = s.now := rfl
@[simp] theorem updEmu_op (n : Nat) (f : Emu → Emu) : (s.updEmu n f).op = s.op := rfl
@[simp] theorem updEmu_safeLocked (n : Nat) (f : Emu → Emu) : (s.updEmu n f).safeLocked = s.safeLocked := rfl
@[simp] theorem updEmu_drives (n : Nat) (f : Emu → Emu) : (s.updEmu n f).drives = s.drives := rfl
@[simp] theorem updEmu_par (n : Nat) (f : Emu → Emu) : (s.updEmu n f).par = s.par := rfl
@[simp] theorem updEmu_nv (n : Nat) (f : Emu → Emu) : (s.updEmu n f).nv = s.nv := rfl
@[simp] theorem updEmu_folio (n : Nat) (f : Emu → Emu) : (s.updEmu n f).folio = s.folio := rfl
@[simp] theorem updEmu_tim (n : Nat) (f : Emu → Emu) : (s.updEmu n f).tim = s.tim := rfl
@[simp] theorem updEmu_conv (n : Nat) (f : Emu → Emu) : (s.updEmu n f).conv = s.conv := rfl
@[simp] theorem updEmu_hatch (n : Nat) (f : Emu → Emu) : (s.updEmu n f).hatch = s.hatch := rfl
@[simp] theorem updEmu_stip (n : Nat) (f : Emu → Emu) : (s.updEmu n f).stip = s.stip := rfl
@[simp] theorem updEmu_grav (n : Nat) (f : Emu → Emu) : (s.updEmu n f).grav = s.grav := rfl
@[simp] theorem updEmu_plate (n : Nat) (f : Emu → Emu) : (s.updEmu n f).plate = s.plate := rfl
@[simp] theorem updEmu_so (n : Nat) (f : Emu → Emu) : (s.updEmu n f).so = s.so := rfl
@[simp] theorem updEmu_mem (n : Nat) (f : Emu → Emu) : (s.updEmu n f).mem = s.mem := rfl
@[simp] theorem updEmu_marg (n : Nat) (f : Emu → Emu) : (s.updEmu n f).marg = s.marg := rfl
@[simp] theorem updEmu_burn (n : Nat) (f : Emu → Emu) : (s.updEmu n f).burn = s.burn := rfl
@[simp] theorem updEmu_book (n : Nat) (f : Emu → Emu) : (s.updEmu n f).book = s.book := rfl
@[simp] theorem updEmu_therm (n : Nat) (f : Emu → Emu) : (s.updEmu n f).therm = s.therm := rfl
@[simp] theorem updEmu_pwr (n : Nat) (f : Emu → Emu) : (s.updEmu n f).pwr = s.pwr := rfl
@[simp] theorem updEmu_free (n : Nat) (f : Emu → Emu) : (s.updEmu n f).free = s.free := rfl
@[simp] theorem updEmu_pending (n : Nat) (f : Emu → Emu) : (s.updEmu n f).pending = s.pending := rfl

/-! updSeq. -/

@[simp] theorem updSeq_part (n : Nat) (f : Machine.Seq → Machine.Seq) : (s.updSeq n f).part = s.part := rfl
@[simp] theorem updSeq_now (n : Nat) (f : Machine.Seq → Machine.Seq) : (s.updSeq n f).now = s.now := rfl
@[simp] theorem updSeq_op (n : Nat) (f : Machine.Seq → Machine.Seq) : (s.updSeq n f).op = s.op := rfl
@[simp] theorem updSeq_safeLocked (n : Nat) (f : Machine.Seq → Machine.Seq) : (s.updSeq n f).safeLocked = s.safeLocked := rfl
@[simp] theorem updSeq_drives (n : Nat) (f : Machine.Seq → Machine.Seq) : (s.updSeq n f).drives = s.drives := rfl
@[simp] theorem updSeq_par (n : Nat) (f : Machine.Seq → Machine.Seq) : (s.updSeq n f).par = s.par := rfl
@[simp] theorem updSeq_nv (n : Nat) (f : Machine.Seq → Machine.Seq) : (s.updSeq n f).nv = s.nv := rfl
@[simp] theorem updSeq_folio (n : Nat) (f : Machine.Seq → Machine.Seq) : (s.updSeq n f).folio = s.folio := rfl
@[simp] theorem updSeq_tim (n : Nat) (f : Machine.Seq → Machine.Seq) : (s.updSeq n f).tim = s.tim := rfl
@[simp] theorem updSeq_pos (n : Nat) (f : Machine.Seq → Machine.Seq) : (s.updSeq n f).pos = s.pos := rfl
@[simp] theorem updSeq_hatch (n : Nat) (f : Machine.Seq → Machine.Seq) : (s.updSeq n f).hatch = s.hatch := rfl
@[simp] theorem updSeq_stip (n : Nat) (f : Machine.Seq → Machine.Seq) : (s.updSeq n f).stip = s.stip := rfl
@[simp] theorem updSeq_grav (n : Nat) (f : Machine.Seq → Machine.Seq) : (s.updSeq n f).grav = s.grav := rfl
@[simp] theorem updSeq_plate (n : Nat) (f : Machine.Seq → Machine.Seq) : (s.updSeq n f).plate = s.plate := rfl
@[simp] theorem updSeq_so (n : Nat) (f : Machine.Seq → Machine.Seq) : (s.updSeq n f).so = s.so := rfl
@[simp] theorem updSeq_mem (n : Nat) (f : Machine.Seq → Machine.Seq) : (s.updSeq n f).mem = s.mem := rfl
@[simp] theorem updSeq_marg (n : Nat) (f : Machine.Seq → Machine.Seq) : (s.updSeq n f).marg = s.marg := rfl
@[simp] theorem updSeq_burn (n : Nat) (f : Machine.Seq → Machine.Seq) : (s.updSeq n f).burn = s.burn := rfl
@[simp] theorem updSeq_book (n : Nat) (f : Machine.Seq → Machine.Seq) : (s.updSeq n f).book = s.book := rfl
@[simp] theorem updSeq_therm (n : Nat) (f : Machine.Seq → Machine.Seq) : (s.updSeq n f).therm = s.therm := rfl
@[simp] theorem updSeq_pwr (n : Nat) (f : Machine.Seq → Machine.Seq) : (s.updSeq n f).pwr = s.pwr := rfl
@[simp] theorem updSeq_free (n : Nat) (f : Machine.Seq → Machine.Seq) : (s.updSeq n f).free = s.free := rfl
@[simp] theorem updSeq_pending (n : Nat) (f : Machine.Seq → Machine.Seq) : (s.updSeq n f).pending = s.pending := rfl

/-! updSlice. -/

@[simp] theorem updSlice_part (n : Nat) (f : Slice → Slice) : (s.updSlice n f).part = s.part := rfl
@[simp] theorem updSlice_now (n : Nat) (f : Slice → Slice) : (s.updSlice n f).now = s.now := rfl
@[simp] theorem updSlice_op (n : Nat) (f : Slice → Slice) : (s.updSlice n f).op = s.op := rfl
@[simp] theorem updSlice_safeLocked (n : Nat) (f : Slice → Slice) : (s.updSlice n f).safeLocked = s.safeLocked := rfl
@[simp] theorem updSlice_drives (n : Nat) (f : Slice → Slice) : (s.updSlice n f).drives = s.drives := rfl
@[simp] theorem updSlice_par (n : Nat) (f : Slice → Slice) : (s.updSlice n f).par = s.par := rfl
@[simp] theorem updSlice_nv (n : Nat) (f : Slice → Slice) : (s.updSlice n f).nv = s.nv := rfl
@[simp] theorem updSlice_folio (n : Nat) (f : Slice → Slice) : (s.updSlice n f).folio = s.folio := rfl
@[simp] theorem updSlice_tim (n : Nat) (f : Slice → Slice) : (s.updSlice n f).tim = s.tim := rfl
@[simp] theorem updSlice_pos (n : Nat) (f : Slice → Slice) : (s.updSlice n f).pos = s.pos := rfl
@[simp] theorem updSlice_hatch (n : Nat) (f : Slice → Slice) : (s.updSlice n f).hatch = s.hatch := rfl
@[simp] theorem updSlice_stip (n : Nat) (f : Slice → Slice) : (s.updSlice n f).stip = s.stip := rfl
@[simp] theorem updSlice_grav (n : Nat) (f : Slice → Slice) : (s.updSlice n f).grav = s.grav := rfl
@[simp] theorem updSlice_plate (n : Nat) (f : Slice → Slice) : (s.updSlice n f).plate = s.plate := rfl
@[simp] theorem updSlice_so (n : Nat) (f : Slice → Slice) : (s.updSlice n f).so = s.so := rfl
@[simp] theorem updSlice_mem (n : Nat) (f : Slice → Slice) : (s.updSlice n f).mem = s.mem := rfl
@[simp] theorem updSlice_marg (n : Nat) (f : Slice → Slice) : (s.updSlice n f).marg = s.marg := rfl
@[simp] theorem updSlice_burn (n : Nat) (f : Slice → Slice) : (s.updSlice n f).burn = s.burn := rfl
@[simp] theorem updSlice_book (n : Nat) (f : Slice → Slice) : (s.updSlice n f).book = s.book := rfl
@[simp] theorem updSlice_therm (n : Nat) (f : Slice → Slice) : (s.updSlice n f).therm = s.therm := rfl
@[simp] theorem updSlice_pwr (n : Nat) (f : Slice → Slice) : (s.updSlice n f).pwr = s.pwr := rfl
@[simp] theorem updSlice_free (n : Nat) (f : Slice → Slice) : (s.updSlice n f).free = s.free := rfl
@[simp] theorem updSlice_pending (n : Nat) (f : Slice → Slice) : (s.updSlice n f).pending = s.pending := rfl

/-! updCtx. -/

@[simp] theorem updCtx_part (n : Nat) (f : Ctx → Ctx) : (s.updCtx n f).part = s.part := rfl
@[simp] theorem updCtx_now (n : Nat) (f : Ctx → Ctx) : (s.updCtx n f).now = s.now := rfl
@[simp] theorem updCtx_op (n : Nat) (f : Ctx → Ctx) : (s.updCtx n f).op = s.op := rfl
@[simp] theorem updCtx_safeLocked (n : Nat) (f : Ctx → Ctx) : (s.updCtx n f).safeLocked = s.safeLocked := rfl
@[simp] theorem updCtx_drives (n : Nat) (f : Ctx → Ctx) : (s.updCtx n f).drives = s.drives := rfl
@[simp] theorem updCtx_par (n : Nat) (f : Ctx → Ctx) : (s.updCtx n f).par = s.par := rfl
@[simp] theorem updCtx_nv (n : Nat) (f : Ctx → Ctx) : (s.updCtx n f).nv = s.nv := rfl
@[simp] theorem updCtx_folio (n : Nat) (f : Ctx → Ctx) : (s.updCtx n f).folio = s.folio := rfl
@[simp] theorem updCtx_tim (n : Nat) (f : Ctx → Ctx) : (s.updCtx n f).tim = s.tim := rfl
@[simp] theorem updCtx_conv (n : Nat) (f : Ctx → Ctx) : (s.updCtx n f).conv = s.conv := rfl
@[simp] theorem updCtx_pos (n : Nat) (f : Ctx → Ctx) : (s.updCtx n f).pos = s.pos := rfl
@[simp] theorem updCtx_hatch (n : Nat) (f : Ctx → Ctx) : (s.updCtx n f).hatch = s.hatch := rfl
@[simp] theorem updCtx_stip (n : Nat) (f : Ctx → Ctx) : (s.updCtx n f).stip = s.stip := rfl
@[simp] theorem updCtx_plate (n : Nat) (f : Ctx → Ctx) : (s.updCtx n f).plate = s.plate := rfl
@[simp] theorem updCtx_so (n : Nat) (f : Ctx → Ctx) : (s.updCtx n f).so = s.so := rfl
@[simp] theorem updCtx_mem (n : Nat) (f : Ctx → Ctx) : (s.updCtx n f).mem = s.mem := rfl
@[simp] theorem updCtx_marg (n : Nat) (f : Ctx → Ctx) : (s.updCtx n f).marg = s.marg := rfl
@[simp] theorem updCtx_burn (n : Nat) (f : Ctx → Ctx) : (s.updCtx n f).burn = s.burn := rfl
@[simp] theorem updCtx_book (n : Nat) (f : Ctx → Ctx) : (s.updCtx n f).book = s.book := rfl
@[simp] theorem updCtx_therm (n : Nat) (f : Ctx → Ctx) : (s.updCtx n f).therm = s.therm := rfl
@[simp] theorem updCtx_pwr (n : Nat) (f : Ctx → Ctx) : (s.updCtx n f).pwr = s.pwr := rfl
@[simp] theorem updCtx_free (n : Nat) (f : Ctx → Ctx) : (s.updCtx n f).free = s.free := rfl
@[simp] theorem updCtx_pending (n : Nat) (f : Ctx → Ctx) : (s.updCtx n f).pending = s.pending := rfl

/-! updRegn. -/

@[simp] theorem updRegn_part (n : Nat) (f : Registration → Registration) : (s.updRegn n f).part = s.part := rfl
@[simp] theorem updRegn_now (n : Nat) (f : Registration → Registration) : (s.updRegn n f).now = s.now := rfl
@[simp] theorem updRegn_op (n : Nat) (f : Registration → Registration) : (s.updRegn n f).op = s.op := rfl
@[simp] theorem updRegn_safeLocked (n : Nat) (f : Registration → Registration) : (s.updRegn n f).safeLocked = s.safeLocked := rfl
@[simp] theorem updRegn_drives (n : Nat) (f : Registration → Registration) : (s.updRegn n f).drives = s.drives := rfl
@[simp] theorem updRegn_par (n : Nat) (f : Registration → Registration) : (s.updRegn n f).par = s.par := rfl
@[simp] theorem updRegn_nv (n : Nat) (f : Registration → Registration) : (s.updRegn n f).nv = s.nv := rfl
@[simp] theorem updRegn_folio (n : Nat) (f : Registration → Registration) : (s.updRegn n f).folio = s.folio := rfl
@[simp] theorem updRegn_tim (n : Nat) (f : Registration → Registration) : (s.updRegn n f).tim = s.tim := rfl
@[simp] theorem updRegn_conv (n : Nat) (f : Registration → Registration) : (s.updRegn n f).conv = s.conv := rfl
@[simp] theorem updRegn_pos (n : Nat) (f : Registration → Registration) : (s.updRegn n f).pos = s.pos := rfl
@[simp] theorem updRegn_hatch (n : Nat) (f : Registration → Registration) : (s.updRegn n f).hatch = s.hatch := rfl
@[simp] theorem updRegn_stip (n : Nat) (f : Registration → Registration) : (s.updRegn n f).stip = s.stip := rfl
@[simp] theorem updRegn_grav (n : Nat) (f : Registration → Registration) : (s.updRegn n f).grav = s.grav := rfl
@[simp] theorem updRegn_plate (n : Nat) (f : Registration → Registration) : (s.updRegn n f).plate = s.plate := rfl
@[simp] theorem updRegn_mem (n : Nat) (f : Registration → Registration) : (s.updRegn n f).mem = s.mem := rfl
@[simp] theorem updRegn_marg (n : Nat) (f : Registration → Registration) : (s.updRegn n f).marg = s.marg := rfl
@[simp] theorem updRegn_burn (n : Nat) (f : Registration → Registration) : (s.updRegn n f).burn = s.burn := rfl
@[simp] theorem updRegn_book (n : Nat) (f : Registration → Registration) : (s.updRegn n f).book = s.book := rfl
@[simp] theorem updRegn_therm (n : Nat) (f : Registration → Registration) : (s.updRegn n f).therm = s.therm := rfl
@[simp] theorem updRegn_pwr (n : Nat) (f : Registration → Registration) : (s.updRegn n f).pwr = s.pwr := rfl
@[simp] theorem updRegn_free (n : Nat) (f : Registration → Registration) : (s.updRegn n f).free = s.free := rfl
@[simp] theorem updRegn_pending (n : Nat) (f : Registration → Registration) : (s.updRegn n f).pending = s.pending := rfl

/-! updCap. -/

@[simp] theorem updCap_part (n : Nat) (f : Capture → Capture) : (s.updCap n f).part = s.part := rfl
@[simp] theorem updCap_now (n : Nat) (f : Capture → Capture) : (s.updCap n f).now = s.now := rfl
@[simp] theorem updCap_op (n : Nat) (f : Capture → Capture) : (s.updCap n f).op = s.op := rfl
@[simp] theorem updCap_safeLocked (n : Nat) (f : Capture → Capture) : (s.updCap n f).safeLocked = s.safeLocked := rfl
@[simp] theorem updCap_drives (n : Nat) (f : Capture → Capture) : (s.updCap n f).drives = s.drives := rfl
@[simp] theorem updCap_par (n : Nat) (f : Capture → Capture) : (s.updCap n f).par = s.par := rfl
@[simp] theorem updCap_nv (n : Nat) (f : Capture → Capture) : (s.updCap n f).nv = s.nv := rfl
@[simp] theorem updCap_folio (n : Nat) (f : Capture → Capture) : (s.updCap n f).folio = s.folio := rfl
@[simp] theorem updCap_tim (n : Nat) (f : Capture → Capture) : (s.updCap n f).tim = s.tim := rfl
@[simp] theorem updCap_conv (n : Nat) (f : Capture → Capture) : (s.updCap n f).conv = s.conv := rfl
@[simp] theorem updCap_pos (n : Nat) (f : Capture → Capture) : (s.updCap n f).pos = s.pos := rfl
@[simp] theorem updCap_hatch (n : Nat) (f : Capture → Capture) : (s.updCap n f).hatch = s.hatch := rfl
@[simp] theorem updCap_stip (n : Nat) (f : Capture → Capture) : (s.updCap n f).stip = s.stip := rfl
@[simp] theorem updCap_grav (n : Nat) (f : Capture → Capture) : (s.updCap n f).grav = s.grav := rfl
@[simp] theorem updCap_plate (n : Nat) (f : Capture → Capture) : (s.updCap n f).plate = s.plate := rfl
@[simp] theorem updCap_so (n : Nat) (f : Capture → Capture) : (s.updCap n f).so = s.so := rfl
@[simp] theorem updCap_marg (n : Nat) (f : Capture → Capture) : (s.updCap n f).marg = s.marg := rfl
@[simp] theorem updCap_burn (n : Nat) (f : Capture → Capture) : (s.updCap n f).burn = s.burn := rfl
@[simp] theorem updCap_book (n : Nat) (f : Capture → Capture) : (s.updCap n f).book = s.book := rfl
@[simp] theorem updCap_therm (n : Nat) (f : Capture → Capture) : (s.updCap n f).therm = s.therm := rfl
@[simp] theorem updCap_pwr (n : Nat) (f : Capture → Capture) : (s.updCap n f).pwr = s.pwr := rfl
@[simp] theorem updCap_free (n : Nat) (f : Capture → Capture) : (s.updCap n f).free = s.free := rfl
@[simp] theorem updCap_pending (n : Nat) (f : Capture → Capture) : (s.updCap n f).pending = s.pending := rfl

/-! updConv. -/

@[simp] theorem updConv_part (f : Converters → Converters) : (updConv s f).part = s.part := rfl
@[simp] theorem updConv_now (f : Converters → Converters) : (updConv s f).now = s.now := rfl
@[simp] theorem updConv_op (f : Converters → Converters) : (updConv s f).op = s.op := rfl
@[simp] theorem updConv_safeLocked (f : Converters → Converters) : (updConv s f).safeLocked = s.safeLocked := rfl
@[simp] theorem updConv_drives (f : Converters → Converters) : (updConv s f).drives = s.drives := rfl
@[simp] theorem updConv_par (f : Converters → Converters) : (updConv s f).par = s.par := rfl
@[simp] theorem updConv_nv (f : Converters → Converters) : (updConv s f).nv = s.nv := rfl
@[simp] theorem updConv_folio (f : Converters → Converters) : (updConv s f).folio = s.folio := rfl
@[simp] theorem updConv_tim (f : Converters → Converters) : (updConv s f).tim = s.tim := rfl
@[simp] theorem updConv_conv (f : Converters → Converters) : (updConv s f).conv = f s.conv := rfl
@[simp] theorem updConv_pos (f : Converters → Converters) : (updConv s f).pos = s.pos := rfl
@[simp] theorem updConv_hatch (f : Converters → Converters) : (updConv s f).hatch = s.hatch := rfl
@[simp] theorem updConv_stip (f : Converters → Converters) : (updConv s f).stip = s.stip := rfl
@[simp] theorem updConv_grav (f : Converters → Converters) : (updConv s f).grav = s.grav := rfl
@[simp] theorem updConv_plate (f : Converters → Converters) : (updConv s f).plate = s.plate := rfl
@[simp] theorem updConv_so (f : Converters → Converters) : (updConv s f).so = s.so := rfl
@[simp] theorem updConv_mem (f : Converters → Converters) : (updConv s f).mem = s.mem := rfl
@[simp] theorem updConv_marg (f : Converters → Converters) : (updConv s f).marg = s.marg := rfl
@[simp] theorem updConv_burn (f : Converters → Converters) : (updConv s f).burn = s.burn := rfl
@[simp] theorem updConv_book (f : Converters → Converters) : (updConv s f).book = s.book := rfl
@[simp] theorem updConv_therm (f : Converters → Converters) : (updConv s f).therm = s.therm := rfl
@[simp] theorem updConv_pwr (f : Converters → Converters) : (updConv s f).pwr = s.pwr := rfl
@[simp] theorem updConv_free (f : Converters → Converters) : (updConv s f).free = s.free := rfl
@[simp] theorem updConv_pending (f : Converters → Converters) : (updConv s f).pending = s.pending := rfl

/-! updFolio. -/

@[simp] theorem updFolio_part (f : Folio → Folio) : (updFolio s f).part = s.part := rfl
@[simp] theorem updFolio_now (f : Folio → Folio) : (updFolio s f).now = s.now := rfl
@[simp] theorem updFolio_op (f : Folio → Folio) : (updFolio s f).op = s.op := rfl
@[simp] theorem updFolio_safeLocked (f : Folio → Folio) : (updFolio s f).safeLocked = s.safeLocked := rfl
@[simp] theorem updFolio_drives (f : Folio → Folio) : (updFolio s f).drives = s.drives := rfl
@[simp] theorem updFolio_par (f : Folio → Folio) : (updFolio s f).par = s.par := rfl
@[simp] theorem updFolio_nv (f : Folio → Folio) : (updFolio s f).nv = s.nv := rfl
@[simp] theorem updFolio_folio (f : Folio → Folio) : (updFolio s f).folio = f s.folio := rfl
@[simp] theorem updFolio_tim (f : Folio → Folio) : (updFolio s f).tim = s.tim := rfl
@[simp] theorem updFolio_conv (f : Folio → Folio) : (updFolio s f).conv = s.conv := rfl
@[simp] theorem updFolio_pos (f : Folio → Folio) : (updFolio s f).pos = s.pos := rfl
@[simp] theorem updFolio_hatch (f : Folio → Folio) : (updFolio s f).hatch = s.hatch := rfl
@[simp] theorem updFolio_stip (f : Folio → Folio) : (updFolio s f).stip = s.stip := rfl
@[simp] theorem updFolio_grav (f : Folio → Folio) : (updFolio s f).grav = s.grav := rfl
@[simp] theorem updFolio_plate (f : Folio → Folio) : (updFolio s f).plate = s.plate := rfl
@[simp] theorem updFolio_so (f : Folio → Folio) : (updFolio s f).so = s.so := rfl
@[simp] theorem updFolio_mem (f : Folio → Folio) : (updFolio s f).mem = s.mem := rfl
@[simp] theorem updFolio_marg (f : Folio → Folio) : (updFolio s f).marg = s.marg := rfl
@[simp] theorem updFolio_burn (f : Folio → Folio) : (updFolio s f).burn = s.burn := rfl
@[simp] theorem updFolio_book (f : Folio → Folio) : (updFolio s f).book = s.book := rfl
@[simp] theorem updFolio_therm (f : Folio → Folio) : (updFolio s f).therm = s.therm := rfl
@[simp] theorem updFolio_pwr (f : Folio → Folio) : (updFolio s f).pwr = s.pwr := rfl
@[simp] theorem updFolio_free (f : Folio → Folio) : (updFolio s f).free = s.free := rfl
@[simp] theorem updFolio_pending (f : Folio → Folio) : (updFolio s f).pending = s.pending := rfl

/-! updTim. -/

@[simp] theorem updTim_part (f : Timing → Timing) : (updTim s f).part = s.part := rfl
@[simp] theorem updTim_now (f : Timing → Timing) : (updTim s f).now = s.now := rfl
@[simp] theorem updTim_op (f : Timing → Timing) : (updTim s f).op = s.op := rfl
@[simp] theorem updTim_safeLocked (f : Timing → Timing) : (updTim s f).safeLocked = s.safeLocked := rfl
@[simp] theorem updTim_drives (f : Timing → Timing) : (updTim s f).drives = s.drives := rfl
@[simp] theorem updTim_par (f : Timing → Timing) : (updTim s f).par = s.par := rfl
@[simp] theorem updTim_nv (f : Timing → Timing) : (updTim s f).nv = s.nv := rfl
@[simp] theorem updTim_folio (f : Timing → Timing) : (updTim s f).folio = s.folio := rfl
@[simp] theorem updTim_tim (f : Timing → Timing) : (updTim s f).tim = f s.tim := rfl
@[simp] theorem updTim_conv (f : Timing → Timing) : (updTim s f).conv = s.conv := rfl
@[simp] theorem updTim_pos (f : Timing → Timing) : (updTim s f).pos = s.pos := rfl
@[simp] theorem updTim_hatch (f : Timing → Timing) : (updTim s f).hatch = s.hatch := rfl
@[simp] theorem updTim_stip (f : Timing → Timing) : (updTim s f).stip = s.stip := rfl
@[simp] theorem updTim_grav (f : Timing → Timing) : (updTim s f).grav = s.grav := rfl
@[simp] theorem updTim_plate (f : Timing → Timing) : (updTim s f).plate = s.plate := rfl
@[simp] theorem updTim_so (f : Timing → Timing) : (updTim s f).so = s.so := rfl
@[simp] theorem updTim_mem (f : Timing → Timing) : (updTim s f).mem = s.mem := rfl
@[simp] theorem updTim_marg (f : Timing → Timing) : (updTim s f).marg = s.marg := rfl
@[simp] theorem updTim_burn (f : Timing → Timing) : (updTim s f).burn = s.burn := rfl
@[simp] theorem updTim_book (f : Timing → Timing) : (updTim s f).book = s.book := rfl
@[simp] theorem updTim_therm (f : Timing → Timing) : (updTim s f).therm = s.therm := rfl
@[simp] theorem updTim_pwr (f : Timing → Timing) : (updTim s f).pwr = s.pwr := rfl
@[simp] theorem updTim_free (f : Timing → Timing) : (updTim s f).free = s.free := rfl
@[simp] theorem updTim_pending (f : Timing → Timing) : (updTim s f).pending = s.pending := rfl

/-! updPlate. -/

@[simp] theorem updPlate_part (f : Plate → Plate) : (updPlate s f).part = s.part := rfl
@[simp] theorem updPlate_now (f : Plate → Plate) : (updPlate s f).now = s.now := rfl
@[simp] theorem updPlate_op (f : Plate → Plate) : (updPlate s f).op = s.op := rfl
@[simp] theorem updPlate_safeLocked (f : Plate → Plate) : (updPlate s f).safeLocked = s.safeLocked := rfl
@[simp] theorem updPlate_drives (f : Plate → Plate) : (updPlate s f).drives = s.drives := rfl
@[simp] theorem updPlate_par (f : Plate → Plate) : (updPlate s f).par = s.par := rfl
@[simp] theorem updPlate_nv (f : Plate → Plate) : (updPlate s f).nv = s.nv := rfl
@[simp] theorem updPlate_folio (f : Plate → Plate) : (updPlate s f).folio = s.folio := rfl
@[simp] theorem updPlate_tim (f : Plate → Plate) : (updPlate s f).tim = s.tim := rfl
@[simp] theorem updPlate_conv (f : Plate → Plate) : (updPlate s f).conv = s.conv := rfl
@[simp] theorem updPlate_pos (f : Plate → Plate) : (updPlate s f).pos = s.pos := rfl
@[simp] theorem updPlate_hatch (f : Plate → Plate) : (updPlate s f).hatch = s.hatch := rfl
@[simp] theorem updPlate_stip (f : Plate → Plate) : (updPlate s f).stip = s.stip := rfl
@[simp] theorem updPlate_grav (f : Plate → Plate) : (updPlate s f).grav = s.grav := rfl
@[simp] theorem updPlate_plate (f : Plate → Plate) : (updPlate s f).plate = f s.plate := rfl
@[simp] theorem updPlate_so (f : Plate → Plate) : (updPlate s f).so = s.so := rfl
@[simp] theorem updPlate_mem (f : Plate → Plate) : (updPlate s f).mem = s.mem := rfl
@[simp] theorem updPlate_marg (f : Plate → Plate) : (updPlate s f).marg = s.marg := rfl
@[simp] theorem updPlate_burn (f : Plate → Plate) : (updPlate s f).burn = s.burn := rfl
@[simp] theorem updPlate_book (f : Plate → Plate) : (updPlate s f).book = s.book := rfl
@[simp] theorem updPlate_therm (f : Plate → Plate) : (updPlate s f).therm = s.therm := rfl
@[simp] theorem updPlate_pwr (f : Plate → Plate) : (updPlate s f).pwr = s.pwr := rfl
@[simp] theorem updPlate_free (f : Plate → Plate) : (updPlate s f).free = s.free := rfl
@[simp] theorem updPlate_pending (f : Plate → Plate) : (updPlate s f).pending = s.pending := rfl

/-! updMarg. -/

@[simp] theorem updMarg_part (f : Margin → Margin) : (updMarg s f).part = s.part := rfl
@[simp] theorem updMarg_now (f : Margin → Margin) : (updMarg s f).now = s.now := rfl
@[simp] theorem updMarg_op (f : Margin → Margin) : (updMarg s f).op = s.op := rfl
@[simp] theorem updMarg_safeLocked (f : Margin → Margin) : (updMarg s f).safeLocked = s.safeLocked := rfl
@[simp] theorem updMarg_drives (f : Margin → Margin) : (updMarg s f).drives = s.drives := rfl
@[simp] theorem updMarg_par (f : Margin → Margin) : (updMarg s f).par = s.par := rfl
@[simp] theorem updMarg_nv (f : Margin → Margin) : (updMarg s f).nv = s.nv := rfl
@[simp] theorem updMarg_folio (f : Margin → Margin) : (updMarg s f).folio = s.folio := rfl
@[simp] theorem updMarg_tim (f : Margin → Margin) : (updMarg s f).tim = s.tim := rfl
@[simp] theorem updMarg_conv (f : Margin → Margin) : (updMarg s f).conv = s.conv := rfl
@[simp] theorem updMarg_pos (f : Margin → Margin) : (updMarg s f).pos = s.pos := rfl
@[simp] theorem updMarg_hatch (f : Margin → Margin) : (updMarg s f).hatch = s.hatch := rfl
@[simp] theorem updMarg_stip (f : Margin → Margin) : (updMarg s f).stip = s.stip := rfl
@[simp] theorem updMarg_grav (f : Margin → Margin) : (updMarg s f).grav = s.grav := rfl
@[simp] theorem updMarg_plate (f : Margin → Margin) : (updMarg s f).plate = s.plate := rfl
@[simp] theorem updMarg_so (f : Margin → Margin) : (updMarg s f).so = s.so := rfl
@[simp] theorem updMarg_mem (f : Margin → Margin) : (updMarg s f).mem = s.mem := rfl
@[simp] theorem updMarg_marg (f : Margin → Margin) : (updMarg s f).marg = f s.marg := rfl
@[simp] theorem updMarg_burn (f : Margin → Margin) : (updMarg s f).burn = s.burn := rfl
@[simp] theorem updMarg_book (f : Margin → Margin) : (updMarg s f).book = s.book := rfl
@[simp] theorem updMarg_therm (f : Margin → Margin) : (updMarg s f).therm = s.therm := rfl
@[simp] theorem updMarg_pwr (f : Margin → Margin) : (updMarg s f).pwr = s.pwr := rfl
@[simp] theorem updMarg_free (f : Margin → Margin) : (updMarg s f).free = s.free := rfl
@[simp] theorem updMarg_pending (f : Margin → Margin) : (updMarg s f).pending = s.pending := rfl

/-! updBurn. -/

@[simp] theorem updBurn_part (f : Burnish → Burnish) : (updBurn s f).part = s.part := rfl
@[simp] theorem updBurn_now (f : Burnish → Burnish) : (updBurn s f).now = s.now := rfl
@[simp] theorem updBurn_op (f : Burnish → Burnish) : (updBurn s f).op = s.op := rfl
@[simp] theorem updBurn_safeLocked (f : Burnish → Burnish) : (updBurn s f).safeLocked = s.safeLocked := rfl
@[simp] theorem updBurn_drives (f : Burnish → Burnish) : (updBurn s f).drives = s.drives := rfl
@[simp] theorem updBurn_par (f : Burnish → Burnish) : (updBurn s f).par = s.par := rfl
@[simp] theorem updBurn_nv (f : Burnish → Burnish) : (updBurn s f).nv = s.nv := rfl
@[simp] theorem updBurn_folio (f : Burnish → Burnish) : (updBurn s f).folio = s.folio := rfl
@[simp] theorem updBurn_tim (f : Burnish → Burnish) : (updBurn s f).tim = s.tim := rfl
@[simp] theorem updBurn_conv (f : Burnish → Burnish) : (updBurn s f).conv = s.conv := rfl
@[simp] theorem updBurn_pos (f : Burnish → Burnish) : (updBurn s f).pos = s.pos := rfl
@[simp] theorem updBurn_hatch (f : Burnish → Burnish) : (updBurn s f).hatch = s.hatch := rfl
@[simp] theorem updBurn_stip (f : Burnish → Burnish) : (updBurn s f).stip = s.stip := rfl
@[simp] theorem updBurn_grav (f : Burnish → Burnish) : (updBurn s f).grav = s.grav := rfl
@[simp] theorem updBurn_plate (f : Burnish → Burnish) : (updBurn s f).plate = s.plate := rfl
@[simp] theorem updBurn_so (f : Burnish → Burnish) : (updBurn s f).so = s.so := rfl
@[simp] theorem updBurn_mem (f : Burnish → Burnish) : (updBurn s f).mem = s.mem := rfl
@[simp] theorem updBurn_marg (f : Burnish → Burnish) : (updBurn s f).marg = s.marg := rfl
@[simp] theorem updBurn_burn (f : Burnish → Burnish) : (updBurn s f).burn = f s.burn := rfl
@[simp] theorem updBurn_book (f : Burnish → Burnish) : (updBurn s f).book = s.book := rfl
@[simp] theorem updBurn_therm (f : Burnish → Burnish) : (updBurn s f).therm = s.therm := rfl
@[simp] theorem updBurn_pwr (f : Burnish → Burnish) : (updBurn s f).pwr = s.pwr := rfl
@[simp] theorem updBurn_free (f : Burnish → Burnish) : (updBurn s f).free = s.free := rfl
@[simp] theorem updBurn_pending (f : Burnish → Burnish) : (updBurn s f).pending = s.pending := rfl

/-! updBook. -/

@[simp] theorem updBook_part (f : Sketchbook → Sketchbook) : (updBook s f).part = s.part := rfl
@[simp] theorem updBook_now (f : Sketchbook → Sketchbook) : (updBook s f).now = s.now := rfl
@[simp] theorem updBook_op (f : Sketchbook → Sketchbook) : (updBook s f).op = s.op := rfl
@[simp] theorem updBook_safeLocked (f : Sketchbook → Sketchbook) : (updBook s f).safeLocked = s.safeLocked := rfl
@[simp] theorem updBook_drives (f : Sketchbook → Sketchbook) : (updBook s f).drives = s.drives := rfl
@[simp] theorem updBook_par (f : Sketchbook → Sketchbook) : (updBook s f).par = s.par := rfl
@[simp] theorem updBook_nv (f : Sketchbook → Sketchbook) : (updBook s f).nv = s.nv := rfl
@[simp] theorem updBook_folio (f : Sketchbook → Sketchbook) : (updBook s f).folio = s.folio := rfl
@[simp] theorem updBook_tim (f : Sketchbook → Sketchbook) : (updBook s f).tim = s.tim := rfl
@[simp] theorem updBook_conv (f : Sketchbook → Sketchbook) : (updBook s f).conv = s.conv := rfl
@[simp] theorem updBook_pos (f : Sketchbook → Sketchbook) : (updBook s f).pos = s.pos := rfl
@[simp] theorem updBook_hatch (f : Sketchbook → Sketchbook) : (updBook s f).hatch = s.hatch := rfl
@[simp] theorem updBook_stip (f : Sketchbook → Sketchbook) : (updBook s f).stip = s.stip := rfl
@[simp] theorem updBook_grav (f : Sketchbook → Sketchbook) : (updBook s f).grav = s.grav := rfl
@[simp] theorem updBook_plate (f : Sketchbook → Sketchbook) : (updBook s f).plate = s.plate := rfl
@[simp] theorem updBook_so (f : Sketchbook → Sketchbook) : (updBook s f).so = s.so := rfl
@[simp] theorem updBook_mem (f : Sketchbook → Sketchbook) : (updBook s f).mem = s.mem := rfl
@[simp] theorem updBook_marg (f : Sketchbook → Sketchbook) : (updBook s f).marg = s.marg := rfl
@[simp] theorem updBook_burn (f : Sketchbook → Sketchbook) : (updBook s f).burn = s.burn := rfl
@[simp] theorem updBook_book (f : Sketchbook → Sketchbook) : (updBook s f).book = f s.book := rfl
@[simp] theorem updBook_therm (f : Sketchbook → Sketchbook) : (updBook s f).therm = s.therm := rfl
@[simp] theorem updBook_pwr (f : Sketchbook → Sketchbook) : (updBook s f).pwr = s.pwr := rfl
@[simp] theorem updBook_free (f : Sketchbook → Sketchbook) : (updBook s f).free = s.free := rfl
@[simp] theorem updBook_pending (f : Sketchbook → Sketchbook) : (updBook s f).pending = s.pending := rfl

/-! updTherm. -/

@[simp] theorem updTherm_part (f : Thermal → Thermal) : (updTherm s f).part = s.part := rfl
@[simp] theorem updTherm_now (f : Thermal → Thermal) : (updTherm s f).now = s.now := rfl
@[simp] theorem updTherm_op (f : Thermal → Thermal) : (updTherm s f).op = s.op := rfl
@[simp] theorem updTherm_safeLocked (f : Thermal → Thermal) : (updTherm s f).safeLocked = s.safeLocked := rfl
@[simp] theorem updTherm_drives (f : Thermal → Thermal) : (updTherm s f).drives = s.drives := rfl
@[simp] theorem updTherm_par (f : Thermal → Thermal) : (updTherm s f).par = s.par := rfl
@[simp] theorem updTherm_nv (f : Thermal → Thermal) : (updTherm s f).nv = s.nv := rfl
@[simp] theorem updTherm_folio (f : Thermal → Thermal) : (updTherm s f).folio = s.folio := rfl
@[simp] theorem updTherm_tim (f : Thermal → Thermal) : (updTherm s f).tim = s.tim := rfl
@[simp] theorem updTherm_conv (f : Thermal → Thermal) : (updTherm s f).conv = s.conv := rfl
@[simp] theorem updTherm_pos (f : Thermal → Thermal) : (updTherm s f).pos = s.pos := rfl
@[simp] theorem updTherm_hatch (f : Thermal → Thermal) : (updTherm s f).hatch = s.hatch := rfl
@[simp] theorem updTherm_stip (f : Thermal → Thermal) : (updTherm s f).stip = s.stip := rfl
@[simp] theorem updTherm_grav (f : Thermal → Thermal) : (updTherm s f).grav = s.grav := rfl
@[simp] theorem updTherm_plate (f : Thermal → Thermal) : (updTherm s f).plate = s.plate := rfl
@[simp] theorem updTherm_so (f : Thermal → Thermal) : (updTherm s f).so = s.so := rfl
@[simp] theorem updTherm_mem (f : Thermal → Thermal) : (updTherm s f).mem = s.mem := rfl
@[simp] theorem updTherm_marg (f : Thermal → Thermal) : (updTherm s f).marg = s.marg := rfl
@[simp] theorem updTherm_burn (f : Thermal → Thermal) : (updTherm s f).burn = s.burn := rfl
@[simp] theorem updTherm_book (f : Thermal → Thermal) : (updTherm s f).book = s.book := rfl
@[simp] theorem updTherm_therm (f : Thermal → Thermal) : (updTherm s f).therm = f s.therm := rfl
@[simp] theorem updTherm_pwr (f : Thermal → Thermal) : (updTherm s f).pwr = s.pwr := rfl
@[simp] theorem updTherm_free (f : Thermal → Thermal) : (updTherm s f).free = s.free := rfl
@[simp] theorem updTherm_pending (f : Thermal → Thermal) : (updTherm s f).pending = s.pending := rfl

/-! updPwr. -/

@[simp] theorem updPwr_part (f : Power → Power) : (updPwr s f).part = s.part := rfl
@[simp] theorem updPwr_now (f : Power → Power) : (updPwr s f).now = s.now := rfl
@[simp] theorem updPwr_op (f : Power → Power) : (updPwr s f).op = s.op := rfl
@[simp] theorem updPwr_safeLocked (f : Power → Power) : (updPwr s f).safeLocked = s.safeLocked := rfl
@[simp] theorem updPwr_drives (f : Power → Power) : (updPwr s f).drives = s.drives := rfl
@[simp] theorem updPwr_par (f : Power → Power) : (updPwr s f).par = s.par := rfl
@[simp] theorem updPwr_nv (f : Power → Power) : (updPwr s f).nv = s.nv := rfl
@[simp] theorem updPwr_folio (f : Power → Power) : (updPwr s f).folio = s.folio := rfl
@[simp] theorem updPwr_tim (f : Power → Power) : (updPwr s f).tim = s.tim := rfl
@[simp] theorem updPwr_conv (f : Power → Power) : (updPwr s f).conv = s.conv := rfl
@[simp] theorem updPwr_pos (f : Power → Power) : (updPwr s f).pos = s.pos := rfl
@[simp] theorem updPwr_hatch (f : Power → Power) : (updPwr s f).hatch = s.hatch := rfl
@[simp] theorem updPwr_stip (f : Power → Power) : (updPwr s f).stip = s.stip := rfl
@[simp] theorem updPwr_grav (f : Power → Power) : (updPwr s f).grav = s.grav := rfl
@[simp] theorem updPwr_plate (f : Power → Power) : (updPwr s f).plate = s.plate := rfl
@[simp] theorem updPwr_so (f : Power → Power) : (updPwr s f).so = s.so := rfl
@[simp] theorem updPwr_mem (f : Power → Power) : (updPwr s f).mem = s.mem := rfl
@[simp] theorem updPwr_marg (f : Power → Power) : (updPwr s f).marg = s.marg := rfl
@[simp] theorem updPwr_burn (f : Power → Power) : (updPwr s f).burn = s.burn := rfl
@[simp] theorem updPwr_book (f : Power → Power) : (updPwr s f).book = s.book := rfl
@[simp] theorem updPwr_therm (f : Power → Power) : (updPwr s f).therm = s.therm := rfl
@[simp] theorem updPwr_pwr (f : Power → Power) : (updPwr s f).pwr = f s.pwr := rfl
@[simp] theorem updPwr_free (f : Power → Power) : (updPwr s f).free = s.free := rfl
@[simp] theorem updPwr_pending (f : Power → Power) : (updPwr s f).pending = s.pending := rfl

/-! parSet. -/

@[simp] theorem parSet_part (u i : Nat) (v : Word) : (parSet s u i v).part = s.part := rfl
@[simp] theorem parSet_now (u i : Nat) (v : Word) : (parSet s u i v).now = s.now := rfl
@[simp] theorem parSet_op (u i : Nat) (v : Word) : (parSet s u i v).op = s.op := rfl
@[simp] theorem parSet_safeLocked (u i : Nat) (v : Word) : (parSet s u i v).safeLocked = s.safeLocked := rfl
@[simp] theorem parSet_drives (u i : Nat) (v : Word) : (parSet s u i v).drives = s.drives := rfl
@[simp] theorem parSet_nv (u i : Nat) (v : Word) : (parSet s u i v).nv = s.nv := rfl
@[simp] theorem parSet_folio (u i : Nat) (v : Word) : (parSet s u i v).folio = s.folio := rfl
@[simp] theorem parSet_tim (u i : Nat) (v : Word) : (parSet s u i v).tim = s.tim := rfl
@[simp] theorem parSet_conv (u i : Nat) (v : Word) : (parSet s u i v).conv = s.conv := rfl
@[simp] theorem parSet_pos (u i : Nat) (v : Word) : (parSet s u i v).pos = s.pos := rfl
@[simp] theorem parSet_hatch (u i : Nat) (v : Word) : (parSet s u i v).hatch = s.hatch := rfl
@[simp] theorem parSet_stip (u i : Nat) (v : Word) : (parSet s u i v).stip = s.stip := rfl
@[simp] theorem parSet_grav (u i : Nat) (v : Word) : (parSet s u i v).grav = s.grav := rfl
@[simp] theorem parSet_plate (u i : Nat) (v : Word) : (parSet s u i v).plate = s.plate := rfl
@[simp] theorem parSet_so (u i : Nat) (v : Word) : (parSet s u i v).so = s.so := rfl
@[simp] theorem parSet_mem (u i : Nat) (v : Word) : (parSet s u i v).mem = s.mem := rfl
@[simp] theorem parSet_marg (u i : Nat) (v : Word) : (parSet s u i v).marg = s.marg := rfl
@[simp] theorem parSet_burn (u i : Nat) (v : Word) : (parSet s u i v).burn = s.burn := rfl
@[simp] theorem parSet_book (u i : Nat) (v : Word) : (parSet s u i v).book = s.book := rfl
@[simp] theorem parSet_therm (u i : Nat) (v : Word) : (parSet s u i v).therm = s.therm := rfl
@[simp] theorem parSet_pwr (u i : Nat) (v : Word) : (parSet s u i v).pwr = s.pwr := rfl
@[simp] theorem parSet_free (u i : Nat) (v : Word) : (parSet s u i v).free = s.free := rfl
@[simp] theorem parSet_pending (u i : Nat) (v : Word) : (parSet s u i v).pending = s.pending := rfl

/-! Reads after an update. -/

@[simp] theorem drive_updDrive (n m : Nat) (f : Drive → Drive) :
    (s.updDrive n f).drive m = if m = n then f (s.drive n) else s.drive m := tblGet_write _ _ _ _ _

@[simp] theorem tb_updTb (n m : Nat) (f : Timebase → Timebase) :
    (s.updTb n f).tb m = if m = n then f (s.tb n) else s.tb m := tblGet_write _ _ _ _ _

@[simp] theorem pair_updPair (n m : Nat) (f : Pair → Pair) :
    (s.updPair n f).pair m = if m = n then f (s.pair n) else s.pair m := tblGet_write _ _ _ _ _

@[simp] theorem ring_updRing (n m : Nat) (f : Machine.Ring → Machine.Ring) :
    (s.updRing n f).ring m = if m = n then f (s.ring n) else s.ring m := tblGet_write _ _ _ _ _

@[simp] theorem entry_updEntry (n m : Nat) (f : DirEntry → DirEntry) :
    (s.updEntry n f).entry m = if m = n then f (s.entry n) else s.entry m := tblGet_write _ _ _ _ _

@[simp] theorem src_updSrc (n m : Nat) (f : PosSrc → PosSrc) :
    (s.updSrc n f).src m = if m = n then f (s.src n) else s.src m := tblGet_write _ _ _ _ _

@[simp] theorem cmp_updCmp (n m : Nat) (f : PosCmp → PosCmp) :
    (s.updCmp n f).cmp m = if m = n then f (s.cmp n) else s.cmp m := tblGet_write _ _ _ _ _

@[simp] theorem emu_updEmu (n m : Nat) (f : Emu → Emu) :
    (s.updEmu n f).emu m = if m = n then f (s.emu n) else s.emu m := tblGet_write _ _ _ _ _

@[simp] theorem sequ_updSeq (n m : Nat) (f : Machine.Seq → Machine.Seq) :
    (s.updSeq n f).sequ m = if m = n then f (s.sequ n) else s.sequ m := tblGet_write _ _ _ _ _

@[simp] theorem slice_updSlice (n m : Nat) (f : Slice → Slice) :
    (s.updSlice n f).slice m = if m = n then f (s.slice n) else s.slice m := tblGet_write _ _ _ _ _

@[simp] theorem ctx_updCtx (n m : Nat) (f : Ctx → Ctx) :
    (s.updCtx n f).ctx m = if m = n then f (s.ctx n) else s.ctx m := tblGet_write _ _ _ _ _

@[simp] theorem regn_updRegn (n m : Nat) (f : Registration → Registration) :
    (s.updRegn n f).regn m = if m = n then f (s.regn n) else s.regn m := tblGet_write _ _ _ _ _

@[simp] theorem cap_updCap (n m : Nat) (f : Capture → Capture) :
    (s.updCap n f).cap m = if m = n then f (s.cap n) else s.cap m := tblGet_write _ _ _ _ _

/-- The address of a parameter names its unit and its index. -/
theorem paAddr_inj {u i v j : Nat} (hi : i < 0x10000) (hj : j < 0x10000) : paAddr u i = paAddr v j ↔ u = v ∧ i = j := by
  unfold paAddr
  omega

@[simp] theorem parGet_parSet_self (u i : Nat) (v : Word) : parGet (parSet s u i v) u i = v := by
  simp [parGet, parSet, tblGet_write _]

theorem parGet_parSet {u i u' i' : Nat} (hi : i < 0x10000) (hi' : i' < 0x10000) (v : Word) :
    parGet (parSet s u i v) u' i' = if u' = u ∧ i' = i then v else parGet s u' i' := by
  by_cases hk : u' = u ∧ i' = i
  · obtain ⟨rfl, rfl⟩ := hk
    simp [parGet_parSet_self s]
  · rw [if_neg hk]
    exact tblGet_write_ne _ _ _ _ fun he => hk ((paAddr_inj hi' hi).1 he)

end Sys2Proof.Laws
end

