-- ==== Sys2Proof/Laws/Events.lean ====
section
/-!
SUPPORT. What the raising of an event can do (`EvStep`): the parts of State it may change, that every record already captured
stays in the input queue, and that no parameter outside units 0x01 and 0x0A changes. One lemma for each operation between the
capture of an event and the end of its reaction.
-/
namespace Sys2Proof.Laws
open Sys2Proof.Machine Sys2Proof.Safety

/-- From `s` to `t` nothing changed but what events and reactions change. -/
structure EvStep (s t : State) : Prop where
  eq : ∃ (o : OpState) (D : Tbl Drive) (P : Tbl Word) (b : Nat) (X : Tbl Pair) (R : Tbl Machine.Ring) (rg : Tbl Registration)
    (la : List Latch) (cd ow : Bool) (cp : Tbl Capture) (cs : List (Nat × Nat × Nat)) (M : Tbl Mark) (E : Tbl EccErr) (C : Tbl (Option Nat))
    (q : List Cell) (h : HoPhase) (th : Nat) (Q : List Event),
    t = { s with
      op := o, drives := D, par := P, folio := { s.folio with hostBase := b }, hatch := { s.hatch with pairs := X },
      stip := { s.stip with rings := R }, so := { s.so with regs := rg, latches := la, classD := cd, ownN := ow },
      mem := { s.mem with caps := cp, consumed := cs, marks := M, errs := E, ceTick := C }, marg := { s.marg with queue := q, ho := h, hoTh := th },
      book := { s.book with inq := Q } }
  grow : ∀ e ∈ s.book.inq, e.code ≠ 0x0902 → e ∈ t.book.inq
  par : ∀ k d, k / 65536 ≠ 1 → k / 65536 ≠ 10 → tblGet t.par d k = tblGet s.par d k

theorem EvStep.refl (s : State) : EvStep s s :=
  ⟨⟨_, _, _, _, _, _, _, _, _, _, _, _, _, _, _, _, _, _, _, rfl⟩, fun _ h _ => h, fun _ _ _ _ => rfl⟩

theorem EvStep.of {s u : State} {o : OpState} {D : Tbl Drive} {P : Tbl Word} {b : Nat} {X : Tbl Pair} {R : Tbl Machine.Ring}
    {rg : Tbl Registration} {la : List Latch} {cd ow : Bool} {cp : Tbl Capture} {cs : List (Nat × Nat × Nat)} {M : Tbl Mark}
    {E : Tbl EccErr} {C : Tbl (Option Nat)} {q : List Cell} {h : HoPhase} {th : Nat} {Q : List Event} (hs : EvStep s u) (hg : ∀ e ∈ u.book.inq, e.code ≠ 0x0902 → e ∈ Q)
    (hp : ∀ k d, k / 65536 ≠ 1 → k / 65536 ≠ 10 → tblGet P d k = tblGet u.par d k) :
    EvStep s (State.mk u.part u.now o u.safeLocked D P u.nv { u.folio with hostBase := b } u.tim u.conv u.pos
      { u.hatch with pairs := X } { u.stip with rings := R } u.grav u.plate
      { u.so with regs := rg, latches := la, classD := cd, ownN := ow } { u.mem with caps := cp, consumed := cs, marks := M, errs := E, ceTick := C }
      { u.marg with queue := q, ho := h, hoTh := th } u.burn { u.book with inq := Q } u.therm u.pwr u.free u.pending) := by
  obtain ⟨⟨_, _, _, _, _, _, _, _, _, _, _, _, _, _, _, _, _, _, _, rfl⟩, g, p⟩ := hs
  exact ⟨⟨_, _, _, _, _, _, _, _, _, _, _, _, _, _, _, _, _, _, _, rfl⟩, fun e h c => hg e (g e h c) c,
    fun k d h1 h2 => (hp k d h1 h2).trans (p k d h1 h2)⟩

theorem EvStep.trans {s u t : State} (h : EvStep s u) (k : EvStep u t) : EvStep s t := by
  obtain ⟨⟨_, _, _, _, _, _, _, _, _, _, _, _, _, _, _, _, _, _, _, rfl⟩, g, p⟩ := k
  exact EvStep.of h g p

theorem EvStep.ite {s a b : State} {c : Prop} [Decidable c] (h : EvStep s a) (k : EvStep s b) : EvStep s (if c then a else b) := by
  by_cases hc : c <;> simp [hc, h, k]

theorem EvStep.forUpTo {s u : State} {n : Nat} {f : Nat → State → State} (h : EvStep s u)
    (k : ∀ i v, EvStep s v → EvStep s (f i v)) : EvStep s (forUpTo n f u) := by
  induction n with
  | zero => exact h
  | succ m ih => exact k m _ ih

theorem EvStep.forEach {α : Type} {s u : State} {l : List α} {f : α → State → State} (h : EvStep s u)
    (k : ∀ i v, EvStep s v → EvStep s (f i v)) : EvStep s (forEach l f u) := by
  induction l generalizing u with
  | nil => exact h
  | cons a r ih => exact ih (k a u h)

theorem ev_updDrive {s0 : State} {s : State} {d : Nat} {f : Drive → Drive} (hs : EvStep s0 s) :
    EvStep s0 (State.updDrive s d f) := by
  unfold State.updDrive
  try dsimp only
  repeat' first
    | with_reducible assumption
    | with_reducible refine EvStep.ite ?_ ?_
    | with_reducible fail_if_no_progress refine EvStep.of ?_ (fun _ h _ => h) (fun _ _ _ _ => rfl)

theorem ev_updCap {s0 : State} {s : State} {b : Nat} {f : Capture → Capture} (hs : EvStep s0 s) :
    EvStep s0 (State.updCap s b f) := by
  unfold State.updCap
  try dsimp only
  repeat' first
    | with_reducible assumption
    | with_reducible refine EvStep.ite ?_ ?_
    | with_reducible fail_if_no_progress refine EvStep.of ?_ (fun _ h _ => h) (fun _ _ _ _ => rfl)

theorem ev_updPair {s0 : State} {s : State} {p : Nat} {f : Pair → Pair} (hs : EvStep s0 s) :
    EvStep s0 (State.updPair s p f) := by
  unfold State.updPair
  try dsimp only
  repeat' first
    | with_reducible assumption
    | with_reducible refine EvStep.ite ?_ ?_
    | with_reducible fail_if_no_progress refine EvStep.of ?_ (fun _ h _ => h) (fun _ _ _ _ => rfl)

theorem ev_updRing {s0 : State} {s : State} {r : Nat} {f : Ring → Ring} (hs : EvStep s0 s) :
    EvStep s0 (State.updRing s r f) := by
  unfold State.updRing
  try dsimp only
  repeat' first
    | with_reducible assumption
    | with_reducible refine EvStep.ite ?_ ?_
    | with_reducible fail_if_no_progress refine EvStep.of ?_ (fun _ h _ => h) (fun _ _ _ _ => rfl)

theorem ev_updRegn {s0 : State} {s : State} {d : Nat} {f : Registration → Registration} (hs : EvStep s0 s) :
    EvStep s0 (State.updRegn s d f) := by
  unfold State.updRegn
  try dsimp only
  repeat' first
    | with_reducible assumption
    | with_reducible refine EvStep.ite ?_ ?_
    | with_reducible fail_if_no_progress refine EvStep.of ?_ (fun _ h _ => h) (fun _ _ _ _ => rfl)

theorem ev_parSet {s0 s : State} {u i : Nat} {v : Word} (hs : EvStep s0 s) (ha : paAddr u i / 65536 = 1 ∨ paAddr u i / 65536 = 10) :
    EvStep s0 (parSet s u i v) :=
  EvStep.of hs (fun _ h _ => h) fun k d h1 h10 => tblGet_write_ne _ _ _ _ (by rintro rfl; omega)

theorem ev_parOr {s0 s : State} {u i : Nat} {m : Word} (hs : EvStep s0 s)
    (ha : paAddr u i / 65536 = 1 ∨ paAddr u i / 65536 = 10) : EvStep s0 (parOr s u i m) := ev_parSet hs ha

theorem ev_parCount {s0 s : State} {u i : Nat} {n : Nat} (hs : EvStep s0 s)
    (ha : paAddr u i / 65536 = 1 ∨ paAddr u i / 65536 = 10) : EvStep s0 (parCount s u i n) := ev_parSet hs ha

theorem ev_setAttn {s0 : State} {s : State} {n : Nat} (hs : EvStep s0 s) :
    EvStep s0 (setAttn s n) := by
  unfold setAttn
  try dsimp only
  repeat' first
    | with_reducible assumption
    | with_reducible refine EvStep.ite ?_ ?_
    | with_reducible refine ev_parOr ?_ (by simp [paAddr])

theorem ev_countBite {s0 : State} {s : State} (hs : EvStep s0 s) :
    EvStep s0 (countBite s) := by
  unfold countBite
  try dsimp only
  repeat' first
    | with_reducible assumption
    | with_reducible refine EvStep.ite ?_ ?_
    | with_reducible refine ev_parCount ?_ (by simp [paAddr])

theorem ev_capTrigger {s0 : State} {e : Event} {b : Nat} {s : State} (hs : EvStep s0 s) :
    EvStep s0 (capTrigger e b s) := by
  unfold capTrigger
  try dsimp only
  repeat' first
    | with_reducible assumption
    | with_reducible refine EvStep.ite ?_ ?_
    | with_reducible refine ev_updCap ?_

theorem mem_evInsert {q : List Event} {e x : Event} : x ∈ evInsert q e ↔ x = e ∨ x ∈ q := by
  induction q with
  | nil => simp [evInsert]
  | cons a r ih =>
    simp only [evInsert]
    split
    · simp
    · simp only [List.mem_cons, ih]
      tauto

theorem ev_insert {s0 s : State} {e : Event} (hs : EvStep s0 s) :
    EvStep s0 { s with book := { s.book with inq := evInsert s.book.inq e } } :=
  EvStep.of hs (fun _ h _ => mem_evInsert.2 (.inr h)) fun _ _ _ _ => rfl

theorem ev_recordEvent {s0 s : State} {e : Event} (hs : EvStep s0 s) : EvStep s0 (recordEvent s e) := by
  unfold recordEvent
  dsimp only
  refine EvStep.forUpTo ?_ fun _ _ h => ev_capTrigger h
  split
  · exact ev_updDrive (EvStep.ite (ev_setAttn (ev_insert hs)) (ev_insert hs))
  · exact EvStep.ite (ev_setAttn (ev_insert hs)) (ev_insert hs)

theorem ev_record {s0 : State} {s : State} {code : Nat} {idx : Nat} {args : List Word} (hs : EvStep s0 s) :
    EvStep s0 (record s code idx args) := by
  unfold record
  try dsimp only
  repeat' first
    | with_reducible assumption
    | with_reducible refine EvStep.ite ?_ ?_
    | with_reducible refine ev_recordEvent ?_

theorem ev_setLatch {s0 : State} {s : State} {code : Nat} {idx : Nat} {resetOnly : Bool} (hs : EvStep s0 s) :
    EvStep s0 (setLatch s code idx resetOnly) := by
  unfold setLatch
  try dsimp only
  repeat' first
    | with_reducible assumption
    | with_reducible refine EvStep.ite ?_ ?_
    | with_reducible fail_if_no_progress refine EvStep.of ?_ (fun _ h _ => h) (fun _ _ _ _ => rfl)

theorem ev_setOp {s0 s : State} {o : OpState} (hs : EvStep s0 s) : EvStep s0 (setOp s o) := by
  unfold setOp
  refine EvStep.ite hs (hs.trans ?_)
  obtain ⟨⟨_, D, P, b, X, R, rg, la, cd, ow, cp, cs, M, E, C, q, h, th, Q, he⟩, hg, hp⟩ :=
    ev_record (code := 1) (idx := 0) (args := [wrd (opCode s.op), wrd (opCode o)]) (EvStep.refl s)
  generalize record s 1 0 [wrd (opCode s.op), wrd (opCode o)] = u at he hg hp ⊢
  subst he
  exact ⟨⟨_, _, _, _, _, _, _, _, _, _, _, _, _, _, _, _, _, _, _, rfl⟩, hg, hp⟩

theorem ev_drivePair {s0 : State} {s : State} {p : Nat} {th : Bool} {tl : Bool} (hs : EvStep s0 s) :
    EvStep s0 (drivePair s p th tl) := by
  unfold drivePair
  try dsimp only
  repeat' first
    | with_reducible assumption
    | with_reducible refine EvStep.ite ?_ ?_
    | with_reducible refine ev_updPair ?_

theorem ev_layer4Pair {s0 : State} {s : State} {p : Nat} {stays : Bool} (hs : EvStep s0 s) :
    EvStep s0 (layer4Pair s p stays) := by
  unfold layer4Pair
  try dsimp only
  repeat' first
    | with_reducible assumption
    | with_reducible refine EvStep.ite ?_ ?_
    | with_reducible refine ev_drivePair ?_

theorem ev_tripPair {s0 : State} {s : State} {p : Nat} {act : Nat} (hs : EvStep s0 s) :
    EvStep s0 (tripPair s p act) := by
  unfold tripPair
  try dsimp only
  repeat' first
    | with_reducible assumption
    | with_reducible refine EvStep.ite ?_ ?_
    | with_reducible refine ev_updPair ?_

theorem ev_takeLayer {s0 : State} {s : State} {p : Nat} {n : Nat} (hs : EvStep s0 s) :
    EvStep s0 (takeLayer s p n) := by
  unfold takeLayer
  try dsimp only
  repeat' first
    | with_reducible assumption
    | with_reducible refine EvStep.ite ?_ ?_
    | with_reducible refine ev_updPair ?_
    | with_reducible refine ev_drivePair ?_
    | with_reducible refine ev_layer4Pair ?_
    | with_reducible refine ev_tripPair ?_
    | with_reducible fail_if_no_progress refine EvStep.of ?_ (fun _ h _ => h) (fun _ _ _ _ => rfl)
    | split

theorem ev_settlePair {s0 : State} {s : State} {p : Nat} (hs : EvStep s0 s) :
    EvStep s0 (settlePair s p) := by
  unfold settlePair
  try dsimp only
  repeat' first
    | with_reducible assumption
    | with_reducible refine EvStep.ite ?_ ?_
    | with_reducible refine ev_takeLayer ?_

theorem ev_settlePairs {s0 : State} {s : State} (hs : EvStep s0 s) :
    EvStep s0 (settlePairs s) := by
  unfold settlePairs
  try dsimp only
  repeat' first
    | with_reducible assumption
    | with_reducible refine EvStep.ite ?_ ?_
    | with_reducible refine ev_settlePair ?_
    | with_reducible refine EvStep.forUpTo ?_ (fun _ _ _ => ?_)

theorem ev_noteBite {s0 : State} {s : State} {u : Nat} {a : Nat} (hs : EvStep s0 s) :
    EvStep s0 (noteBite s u a) := by
  unfold noteBite
  try dsimp only
  repeat' first
    | with_reducible assumption
    | with_reducible refine EvStep.ite ?_ ?_
    | with_reducible fail_if_no_progress refine EvStep.of ?_ (fun _ h _ => h) (fun _ _ _ _ => rfl)

theorem ev_recordUntested {s0 : State} {s : State} {code idx : Nat} {args : List Word} (hs : EvStep s0 s) :
    EvStep s0 (recordUntested s code idx args) := by
  unfold recordUntested
  try dsimp only
  repeat' first
    | with_reducible assumption
    | with_reducible refine EvStep.ite ?_ ?_
    | with_reducible refine ev_record ?_
    | with_reducible fail_if_no_progress refine EvStep.of ?_ (fun _ h _ => h) (fun _ _ _ _ => rfl)
    | split

theorem ev_setErr {s0 : State} {s : State} {a : Nat} {e : EccErr} (hs : EvStep s0 s) :
    EvStep s0 (setErr s a e) := by
  unfold setErr
  try dsimp only
  repeat' first
    | with_reducible assumption
    | with_reducible refine EvStep.ite ?_ ?_
    | with_reducible fail_if_no_progress refine EvStep.of ?_ (fun _ h _ => h) (fun _ _ _ _ => rfl)
    | split

theorem ev_setMark {s0 : State} {s : State} {a : Nat} {m : Mark} (hs : EvStep s0 s) :
    EvStep s0 (setMark s a m) := by
  unfold setMark
  try dsimp only
  repeat' first
    | with_reducible assumption
    | with_reducible refine EvStep.ite ?_ ?_
    | with_reducible fail_if_no_progress refine EvStep.of ?_ (fun _ h _ => h) (fun _ _ _ _ => rfl)
    | split

theorem ev_noteCorrected {s0 : State} {s : State} {a : Nat} (hs : EvStep s0 s) :
    EvStep s0 (noteCorrected s a) := by
  unfold noteCorrected
  try dsimp only
  repeat' first
    | with_reducible assumption
    | with_reducible refine EvStep.ite ?_ ?_
    | with_reducible refine ev_recordUntested ?_
    | with_reducible fail_if_no_progress refine EvStep.of ?_ (fun _ h _ => h) (fun _ _ _ _ => rfl)
    | split

/-- The three memories. -/
theorem memOf_lt (a : Nat) : memOf a < 3 := by unfold memOf; split <;> [omega; split <;> omega]

theorem ev_eccRead {s0 : State} {s : State} {a : Nat} {back raced : Bool} (hs : EvStep s0 s) :
    EvStep s0 (eccRead s a back raced) := by
  unfold eccRead
  try dsimp only
  repeat' first
    | with_reducible assumption
    | with_reducible refine EvStep.ite ?_ ?_
    | with_reducible refine ev_recordUntested ?_
    | with_reducible refine ev_setErr ?_
    | with_reducible refine ev_setMark ?_
    | with_reducible refine ev_noteCorrected ?_
    | with_reducible refine ev_parCount ?_ (by have := memOf_lt a; simp only [paAddr]; omega)
    | with_reducible refine ev_parCount ?_ (by simp [paAddr])
    | with_reducible fail_if_no_progress refine EvStep.of ?_ (fun _ h _ => h) (fun _ _ _ _ => rfl)
    | split

theorem ev_mapRead {s0 : State} {s : State} {a : Nat} (hs : EvStep s0 s) :
    EvStep s0 (mapRead s a) := by
  unfold mapRead
  try dsimp only
  repeat' first
    | with_reducible assumption
    | with_reducible refine EvStep.ite ?_ ?_
    | with_reducible refine ev_eccRead ?_
    | with_reducible fail_if_no_progress refine EvStep.of ?_ (fun _ h _ => h) (fun _ _ _ _ => rfl)
    | split

theorem ev_demandRead {s0 : State} {s : State} {a : Nat} (hs : EvStep s0 s) :
    EvStep s0 (demandRead s a) := by
  unfold demandRead
  try dsimp only
  repeat' first
    | with_reducible assumption
    | with_reducible refine EvStep.ite ?_ ?_
    | with_reducible refine ev_eccRead ?_
    | with_reducible refine ev_mapRead ?_
    | with_reducible fail_if_no_progress refine EvStep.of ?_ (fun _ h _ => h) (fun _ _ _ _ => rfl)
    | split

theorem ev_readCells {s0 : State} {l : List Nat} {s : State} (hs : EvStep s0 s) :
    EvStep s0 (readCells l s) := by
  unfold readCells
  try dsimp only
  repeat' first
    | with_reducible assumption
    | with_reducible refine EvStep.ite ?_ ?_
    | with_reducible refine ev_demandRead ?_
    | with_reducible refine EvStep.forEach ?_ (fun _ _ _ => ?_)
    | with_reducible fail_if_no_progress refine EvStep.of ?_ (fun _ h _ => h) (fun _ _ _ _ => rfl)
    | split

theorem ev_noteSpeeds {s0 : State} {s : State} (hs : EvStep s0 s) :
    EvStep s0 (noteSpeeds s) := by
  unfold noteSpeeds
  try dsimp only
  repeat' first
    | with_reducible assumption
    | with_reducible refine EvStep.ite ?_ ?_
    | with_reducible refine ev_updDrive ?_
    | with_reducible refine EvStep.forUpTo ?_ (fun _ _ _ => ?_)
    | with_reducible fail_if_no_progress refine EvStep.of ?_ (fun _ h _ => h) (fun _ _ _ _ => rfl)
    | split

theorem ev_stopoutConsumes {s0 : State} {d : Nat} {s : State} (hs : EvStep s0 s) :
    EvStep s0 (stopoutConsumes d s) := by
  unfold stopoutConsumes
  try dsimp only
  repeat' first
    | with_reducible assumption
    | with_reducible refine EvStep.ite ?_ ?_
    | with_reducible refine ev_updDrive ?_
    | with_reducible refine ev_record ?_
    | with_reducible refine ev_countBite ?_
    | with_reducible refine ev_noteBite ?_
    | with_reducible refine ev_setLatch ?_
    | with_reducible fail_if_no_progress refine EvStep.of ?_ (fun _ h _ => h) (fun _ _ _ _ => rfl)
    | split

theorem ev_safeEntry {s0 s : State} {d ss code : Nat} (hs : EvStep s0 s) : EvStep s0 (safeEntry s d ss code) := by
  unfold safeEntry
  refine EvStep.ite ?_ (ev_record hs)
  refine EvStep.of hs (fun e h hc => List.mem_map.2 ⟨e, h, ?_⟩) fun _ _ _ _ => rfl
  rw [if_neg]
  simp [hc]

theorem ev_orderRing {s0 : State} {r : Nat} {s : State} (hs : EvStep s0 s) :
    EvStep s0 (orderRing r s) := by
  unfold orderRing
  try dsimp only
  repeat' first
    | with_reducible assumption
    | with_reducible refine EvStep.ite ?_ ?_
    | with_reducible refine ev_updRing ?_

theorem ev_stopRegTimer {s0 : State} {s : State} {d : Nat} (hs : EvStep s0 s) :
    EvStep s0 (stopRegTimer s d) := by
  unfold stopRegTimer
  try dsimp only
  repeat' first
    | with_reducible assumption
    | with_reducible refine EvStep.ite ?_ ?_
    | with_reducible refine ev_updRegn ?_

theorem ev_placeDrive {s0 : State} {d : Nat} {ss : Nat} {code : Nat} {byEvent : Bool} {s : State} (hs : EvStep s0 s) :
    EvStep s0 (placeDrive d ss code byEvent s) := by
  unfold placeDrive
  try dsimp only
  repeat' first
    | with_reducible assumption
    | with_reducible refine EvStep.ite ?_ ?_
    | with_reducible refine ev_updDrive ?_
    | with_reducible refine ev_settlePair ?_
    | with_reducible refine ev_safeEntry ?_
    | with_reducible refine ev_orderRing ?_
    | with_reducible refine ev_stopRegTimer ?_
    | with_reducible refine ev_noteSpeeds ?_
    | with_reducible refine EvStep.forEach ?_ (fun _ _ _ => ?_)

theorem ev_enterSafe {s0 : State} {ds : List Nat} {ss : Nat} {code : Nat} {s : State} (hs : EvStep s0 s) :
    EvStep s0 (enterSafe ds ss code s) := by
  unfold enterSafe
  try dsimp only
  repeat' first
    | with_reducible assumption
    | with_reducible refine EvStep.ite ?_ ?_
    | with_reducible refine ev_setOp ?_
    | with_reducible refine ev_settlePairs ?_
    | with_reducible refine ev_stopoutConsumes ?_
    | with_reducible refine ev_placeDrive ?_
    | with_reducible refine ev_readCells ?_
    | with_reducible refine EvStep.forUpTo ?_ (fun _ _ _ => ?_)

theorem ev_queueCell {s0 : State} {s : State} {t : CellType} {sub : Nat} {ws : List Word} (hs : EvStep s0 s) :
    EvStep s0 (queueCell s t sub ws) := by
  unfold queueCell
  try dsimp only
  repeat' first
    | with_reducible assumption
    | with_reducible refine EvStep.ite ?_ ?_
    | with_reducible fail_if_no_progress refine EvStep.of ?_ (fun _ h _ => h) (fun _ _ _ _ => rfl)

theorem ev_setOwnN {s0 s : State} {v : Bool} (hs : EvStep s0 s) : EvStep s0 (setOwnN v s) :=
  EvStep.of hs (fun _ h _ => h) fun _ _ _ _ => rfl

theorem ev_handoverReact {s0 s : State} {code : Nat} (hs : EvStep s0 s) : EvStep s0 (handoverReact code s) := by
  unfold handoverReact
  refine ev_queueCell ?_
  generalize hu : enterSafe [] 1 code s = u
  have h : EvStep s0 u := hu ▸ ev_enterSafe hs
  exact EvStep.of h (fun _ h _ => h) fun _ _ _ _ => rfl

theorem ev_startStop {s0 : State} {d : Nat} {s : State} (hs : EvStep s0 s) :
    EvStep s0 (startStop d s) := by
  unfold startStop
  try dsimp only
  repeat' first
    | with_reducible assumption
    | with_reducible refine EvStep.ite ?_ ?_
    | with_reducible refine ev_updDrive ?_

theorem ev_classD {s0 s : State} (hs : EvStep s0 s) :
    EvStep s0 { s with so := { s.so with classD := true, ownN := false } } :=
  EvStep.of hs (fun _ h _ => h) fun _ _ _ _ => rfl

theorem ev_applyReaction {s0 s : State} {r : Reaction} {code idx : Nat} (hs : EvStep s0 s) :
    EvStep s0 (applyReaction r code idx s) := by
  unfold applyReaction
  dsimp only
  have h1 : EvStep s0 (match r.latch with | some ro => setLatch s code idx ro | none => s) := by
    split
    · exact ev_setLatch hs
    · exact hs
  refine EvStep.ite hs (EvStep.ite (ev_handoverReact h1) ?_)
  split
  · exact h1
  · exact EvStep.forUpTo h1 fun _ _ h => ev_startStop h
  · exact ev_enterSafe h1
  · exact ev_enterSafe h1
  · refine ev_classD (EvStep.forUpTo (ev_enterSafe h1) fun _ _ h => EvStep.ite (ev_updDrive h) h)

theorem ev_raiseWith {s0 : State} {s : State} {r : Reaction} {code : Nat} {idx : Nat} {args : List Word} (hs : EvStep s0 s) :
    EvStep s0 (raiseWith s r code idx args) := by
  unfold raiseWith
  try dsimp only
  repeat' first
    | with_reducible assumption
    | with_reducible refine EvStep.ite ?_ ?_
    | with_reducible refine ev_record ?_
    | with_reducible refine ev_applyReaction ?_

theorem ev_raise {s0 : State} {s : State} {code : Nat} {idx : Nat} {args : List Word} (hs : EvStep s0 s) :
    EvStep s0 (raise s code idx args) := by
  unfold raise
  try dsimp only
  repeat' first
    | with_reducible assumption
    | with_reducible refine EvStep.ite ?_ ?_
    | with_reducible refine ev_raiseWith ?_

theorem ev_consume {s0 : State} {s : State} {u : Nat} {a : Nat} {m : Mark} (hs : EvStep s0 s) :
    EvStep s0 (consume s u a m) := by
  unfold consume
  try dsimp only
  repeat' first
    | with_reducible assumption
    | with_reducible refine EvStep.ite ?_ ?_
    | with_reducible refine ev_countBite ?_
    | with_reducible refine ev_noteBite ?_
    | with_reducible refine ev_raise ?_

theorem ev_leaveRun {s0 : State} {s : State} (hs : EvStep s0 s) :
    EvStep s0 (leaveRun s) := by
  unfold leaveRun
  try dsimp only
  repeat' first
    | with_reducible assumption
    | with_reducible refine EvStep.ite ?_ ?_
    | with_reducible refine ev_setOp ?_

theorem EvStep.part {s t : State} (h : EvStep s t) : t.part = s.part := by
  obtain ⟨⟨_, _, _, _, _, _, _, _, _, _, _, _, _, _, _, _, _, _, _, rfl⟩, _, _⟩ := h
  rfl

theorem EvStep.now {s t : State} (h : EvStep s t) : t.now = s.now := by
  obtain ⟨⟨_, _, _, _, _, _, _, _, _, _, _, _, _, _, _, _, _, _, _, rfl⟩, _, _⟩ := h
  rfl

theorem EvStep.safeLocked {s t : State} (h : EvStep s t) : t.safeLocked = s.safeLocked := by
  obtain ⟨⟨_, _, _, _, _, _, _, _, _, _, _, _, _, _, _, _, _, _, _, rfl⟩, _, _⟩ := h
  rfl

theorem EvStep.nv {s t : State} (h : EvStep s t) : t.nv = s.nv := by
  obtain ⟨⟨_, _, _, _, _, _, _, _, _, _, _, _, _, _, _, _, _, _, _, rfl⟩, _, _⟩ := h
  rfl

theorem EvStep.tim {s t : State} (h : EvStep s t) : t.tim = s.tim := by
  obtain ⟨⟨_, _, _, _, _, _, _, _, _, _, _, _, _, _, _, _, _, _, _, rfl⟩, _, _⟩ := h
  rfl

theorem EvStep.conv {s t : State} (h : EvStep s t) : t.conv = s.conv := by
  obtain ⟨⟨_, _, _, _, _, _, _, _, _, _, _, _, _, _, _, _, _, _, _, rfl⟩, _, _⟩ := h
  rfl

theorem EvStep.pos {s t : State} (h : EvStep s t) : t.pos = s.pos := by
  obtain ⟨⟨_, _, _, _, _, _, _, _, _, _, _, _, _, _, _, _, _, _, _, rfl⟩, _, _⟩ := h
  rfl

theorem EvStep.grav {s t : State} (h : EvStep s t) : t.grav = s.grav := by
  obtain ⟨⟨_, _, _, _, _, _, _, _, _, _, _, _, _, _, _, _, _, _, _, rfl⟩, _, _⟩ := h
  rfl

theorem EvStep.plate {s t : State} (h : EvStep s t) : t.plate = s.plate := by
  obtain ⟨⟨_, _, _, _, _, _, _, _, _, _, _, _, _, _, _, _, _, _, _, rfl⟩, _, _⟩ := h
  rfl

theorem EvStep.burn {s t : State} (h : EvStep s t) : t.burn = s.burn := by
  obtain ⟨⟨_, _, _, _, _, _, _, _, _, _, _, _, _, _, _, _, _, _, _, rfl⟩, _, _⟩ := h
  rfl

theorem EvStep.therm {s t : State} (h : EvStep s t) : t.therm = s.therm := by
  obtain ⟨⟨_, _, _, _, _, _, _, _, _, _, _, _, _, _, _, _, _, _, _, rfl⟩, _, _⟩ := h
  rfl

theorem EvStep.pwr {s t : State} (h : EvStep s t) : t.pwr = s.pwr := by
  obtain ⟨⟨_, _, _, _, _, _, _, _, _, _, _, _, _, _, _, _, _, _, _, rfl⟩, _, _⟩ := h
  rfl

theorem EvStep.free {s t : State} (h : EvStep s t) : t.free = s.free := by
  obtain ⟨⟨_, _, _, _, _, _, _, _, _, _, _, _, _, _, _, _, _, _, _, rfl⟩, _, _⟩ := h
  rfl

theorem EvStep.pending {s t : State} (h : EvStep s t) : t.pending = s.pending := by
  obtain ⟨⟨_, _, _, _, _, _, _, _, _, _, _, _, _, _, _, _, _, _, _, rfl⟩, _, _⟩ := h
  rfl

theorem EvStep.folio_tags {s t : State} (h : EvStep s t) : t.folio.tags = s.folio.tags := by
  obtain ⟨⟨_, _, _, _, _, _, _, _, _, _, _, _, _, _, _, _, _, _, _, rfl⟩, _, _⟩ := h
  rfl

theorem EvStep.folio_replies {s t : State} (h : EvStep s t) : t.folio.replies = s.folio.replies := by
  obtain ⟨⟨_, _, _, _, _, _, _, _, _, _, _, _, _, _, _, _, _, _, _, rfl⟩, _, _⟩ := h
  rfl

theorem EvStep.folio_lane {s t : State} (h : EvStep s t) : t.folio.lane = s.folio.lane := by
  obtain ⟨⟨_, _, _, _, _, _, _, _, _, _, _, _, _, _, _, _, _, _, _, rfl⟩, _, _⟩ := h
  rfl

theorem EvStep.folio_rateCh {s t : State} (h : EvStep s t) : t.folio.rateCh = s.folio.rateCh := by
  obtain ⟨⟨_, _, _, _, _, _, _, _, _, _, _, _, _, _, _, _, _, _, _, rfl⟩, _, _⟩ := h
  rfl

theorem EvStep.hatch_tbs {s t : State} (h : EvStep s t) : t.hatch.tbs = s.hatch.tbs := by
  obtain ⟨⟨_, _, _, _, _, _, _, _, _, _, _, _, _, _, _, _, _, _, _, rfl⟩, _, _⟩ := h
  rfl

theorem EvStep.hatch_latch {s t : State} (h : EvStep s t) : t.hatch.latch = s.hatch.latch := by
  obtain ⟨⟨_, _, _, _, _, _, _, _, _, _, _, _, _, _, _, _, _, _, _, rfl⟩, _, _⟩ := h
  rfl

theorem EvStep.hatch_tripIn {s t : State} (h : EvStep s t) : t.hatch.tripIn = s.hatch.tripIn := by
  obtain ⟨⟨_, _, _, _, _, _, _, _, _, _, _, _, _, _, _, _, _, _, _, rfl⟩, _, _⟩ := h
  rfl

theorem EvStep.stip_dir {s t : State} (h : EvStep s t) : t.stip.dir = s.stip.dir := by
  obtain ⟨⟨_, _, _, _, _, _, _, _, _, _, _, _, _, _, _, _, _, _, _, rfl⟩, _, _⟩ := h
  rfl

theorem EvStep.so_enable {s t : State} (h : EvStep s t) : t.so.enable = s.so.enable := by
  obtain ⟨⟨_, _, _, _, _, _, _, _, _, _, _, _, _, _, _, _, _, _, _, rfl⟩, _, _⟩ := h
  rfl

theorem EvStep.so_dsch {s t : State} (h : EvStep s t) : t.so.dsch = s.so.dsch := by
  obtain ⟨⟨_, _, _, _, _, _, _, _, _, _, _, _, _, _, _, _, _, _, _, rfl⟩, _, _⟩ := h
  rfl

theorem EvStep.mem_cells {s t : State} (h : EvStep s t) : t.mem.cells = s.mem.cells := by
  obtain ⟨⟨_, _, _, _, _, _, _, _, _, _, _, _, _, _, _, _, _, _, _, rfl⟩, _, _⟩ := h
  rfl

theorem EvStep.marg_linkUp {s t : State} (h : EvStep s t) : t.marg.linkUp = s.marg.linkUp := by
  obtain ⟨⟨_, _, _, _, _, _, _, _, _, _, _, _, _, _, _, _, _, _, _, rfl⟩, _, _⟩ := h
  rfl

theorem EvStep.marg_role {s t : State} (h : EvStep s t) : t.marg.role = s.marg.role := by
  obtain ⟨⟨_, _, _, _, _, _, _, _, _, _, _, _, _, _, _, _, _, _, _, rfl⟩, _, _⟩ := h
  rfl

theorem EvStep.book_log {s t : State} (h : EvStep s t) : t.book.log = s.book.log := by
  obtain ⟨⟨_, _, _, _, _, _, _, _, _, _, _, _, _, _, _, _, _, _, _, rfl⟩, _, _⟩ := h
  rfl

/-- An event captured stays in the input queue through whatever events and reactions follow. -/
theorem raised_after {s u t : State} {code idx : Nat} {args : List Word} (h : Raised s u code idx args) (hc : code ≠ 0x0902)
    (k : EvStep u t) : Raised s t code idx args := k.grow _ h hc

theorem record_raises (s : State) (code idx : Nat) (args : List Word) : Raised s (record s code idx args) code idx args := by
  have h : ∀ (e : Event) (u : State), e ∈ u.book.inq → e.code ≠ 0x0902 ∨ True → ∀ n, e ∈ (forUpTo n (capTrigger (mkEvent s code idx args)) u).book.inq := by
    intro e u he _ n
    induction n with
    | zero => exact he
    | succ m ih =>
      show e ∈ (capTrigger _ m _).book.inq
      unfold capTrigger
      split
      · exact ih
      · exact ih
  unfold Raised record recordEvent
  dsimp only
  refine h _ _ ?_ (.inr trivial) 4
  have hm : mkEvent s code idx args ∈ evInsert s.book.inq (mkEvent s code idx args) := mem_evInsert.2 (.inl rfl)
  split <;> split <;> exact hm

theorem raiseWith_raises (s : State) (r : Reaction) {code : Nat} (hc : code ≠ 0x0902) (idx : Nat) (args : List Word) :
    Raised s (raiseWith s r code idx args) code idx args :=
  raised_after (record_raises s code idx args) hc (ev_applyReaction (EvStep.refl _))

theorem raise_raises (s : State) {code : Nat} (hc : code ≠ 0x0902) (idx : Nat) (args : List Word) :
    Raised s (raise s code idx args) code idx args := raiseWith_raises s _ hc idx args

/-- The event of a state that differs in neither the clock nor TIME_VALID is the same event. -/
theorem raised_of {s u t : State} {code idx : Nat} {args : List Word} (h : Raised u t code idx args) (hn : u.now = s.now)
    (hv : u.tim.timeValid = s.tim.timeValid) : Raised s t code idx args := by
  unfold Raised mkEvent at *
  rw [← hn, ← hv]
  exact h

end Sys2Proof.Laws
end

