-- ==== Sys2Proof/Laws/Frame.lean ====
section
/-!
SUPPORT. What an operation on State keeps: `Same`, the part, the queue, every byte of memory and the form
of the tables; `Keeps`, the part, the queue and the form of memory and tables. One lemma for each way an operation is built from others; the lemma of
each operation stands in the files beside this one.
-/
namespace Sys2Proof.Laws
open Sys2Proof.Machine Sys2Proof.Safety

/-- `t` has the part, the queue and the memory bytes of `s`, and its tables are in form if those of `s` are. -/
structure Same (s t : State) : Prop where
  part : t.part = s.part
  pending : t.pending = s.pending
  cells : t.mem.cells = s.mem.cells
  tables : Tables s → Tables t

/-- `t` has the part and the queue of `s`, and its memory and tables are in form if those of `s` are. -/
structure Keeps (s t : State) : Prop where
  part : t.part = s.part
  pending : t.pending = s.pending
  wf : s.mem.wf = true → t.mem.wf = true
  tables : Tables s → Tables t

theorem Same.refl (s : State) : Same s s := ⟨rfl, rfl, rfl, id⟩
theorem Keeps.refl (s : State) : Keeps s s := ⟨rfl, rfl, id, id⟩

theorem Same.keeps {s t : State} (h : Same s t) : Keeps s t :=
  ⟨h.part, h.pending, fun w => by simpa [Memory.wf, h.cells] using w, h.tables⟩

/-- A state built from `u` by changing neither the part, nor the queue, nor the bytes of memory. -/
theorem Same.ofTables {s u : State} {now : Nat} {op : OpState} {safeLocked : Bool} {drives : Tbl Drive} {par : Tbl Word} {nv : Tbl Word} {folio :
    Folio} {tim : Timing} {conv : Converters} {pos : Position} {hatch : Hatch} {stip : Stipple} {grav : Graver}
    {plate : Plate} {so : StopOut} {mem : Memory} {marg : Margin} {burn : Burnish} {book : Sketchbook} {therm :
    Thermal} {pwr : Power} {free : Nat} {pending : List Instr}
    (h : Same s u) (hq : pending = u.pending) (hc : mem.cells = u.mem.cells)
    (ht : Tables u → Tables (State.mk u.part now op safeLocked drives par nv folio tim conv pos hatch stip grav plate so mem marg burn book
      therm pwr free pending)) :
    Same s (State.mk u.part now op safeLocked drives par nv folio tim conv pos hatch stip grav plate so mem marg burn book
      therm pwr free pending) :=
  ⟨h.part, hq.trans h.pending, hc.trans h.cells, fun w => ht (h.tables w)⟩

theorem Keeps.ofTables {s u : State} {now : Nat} {op : OpState} {safeLocked : Bool} {drives : Tbl Drive} {par : Tbl Word} {nv : Tbl Word} {folio :
    Folio} {tim : Timing} {conv : Converters} {pos : Position} {hatch : Hatch} {stip : Stipple} {grav : Graver}
    {plate : Plate} {so : StopOut} {mem : Memory} {marg : Margin} {burn : Burnish} {book : Sketchbook} {therm :
    Thermal} {pwr : Power} {free : Nat} {pending : List Instr}
    (h : Keeps s u) (hq : pending = u.pending) (hc : mem.cells = u.mem.cells)
    (ht : Tables u → Tables (State.mk u.part now op safeLocked drives par nv folio tim conv pos hatch stip grav plate so mem marg burn book
      therm pwr free pending)) :
    Keeps s (State.mk u.part now op safeLocked drives par nv folio tim conv pos hatch stip grav plate so mem marg burn book
      therm pwr free pending) :=
  ⟨h.part, hq.trans h.pending, fun w => by
    have := h.wf w
    simpa [Memory.wf, hc] using this, fun w => ht (h.tables w)⟩

/-! The same, where no table of `Tables` changes. -/

theorem Same.of {s u : State} {now : Nat} {op : OpState} {safeLocked : Bool} {drives : Tbl Drive} {par : Tbl Word} {nv : Tbl Word} {folio :
    Folio} {tim : Timing} {conv : Converters} {pos : Position} {hatch : Hatch} {stip : Stipple} {grav : Graver}
    {plate : Plate} {so : StopOut} {mem : Memory} {marg : Margin} {burn : Burnish} {book : Sketchbook} {therm :
    Thermal} {pwr : Power} {free : Nat} {pending : List Instr}
    (h : Same s u) (hq : pending = u.pending) (hc : mem.cells = u.mem.cells)
    (hdrives : drives = u.drives) (hpar : par = u.par) (hnv : nv = u.nv) (htbs : hatch.tbs = u.hatch.tbs) (hpairs
    : hatch.pairs = u.hatch.pairs) (hrings : stip.rings = u.stip.rings) (hdir : stip.dir = u.stip.dir) (hsrcs :
    pos.srcs = u.pos.srcs) (hcmps : pos.cmps = u.pos.cmps) (hemus : pos.emus = u.pos.emus) (hseqs : conv.seqs =
    u.conv.seqs) (hslices : conv.slices = u.conv.slices) (hctxs : grav.ctxs = u.grav.ctxs) (hregs : so.regs =
    u.so.regs) (hcaps : mem.caps = u.mem.caps) :
    Same s (State.mk u.part now op safeLocked drives par nv folio tim conv pos hatch stip grav plate so mem marg burn book
      therm pwr free pending) :=
  Same.ofTables h hq hc fun w =>
    ⟨hdrives ▸ w.drives, hpar ▸ w.par, hnv ▸ w.nv, htbs ▸ w.tbs, hpairs ▸ w.pairs, hrings ▸ w.rings, hdir ▸ w.dir, hsrcs ▸ w.srcs, hcmps ▸ w.cmps, hemus ▸ w.emus, hseqs ▸ w.seqs, hslices ▸ w.slices, hctxs ▸ w.ctxs, hregs ▸ w.regs, hcaps ▸ w.caps⟩

theorem Keeps.of {s u : State} {now : Nat} {op : OpState} {safeLocked : Bool} {drives : Tbl Drive} {par : Tbl Word} {nv : Tbl Word} {folio :
    Folio} {tim : Timing} {conv : Converters} {pos : Position} {hatch : Hatch} {stip : Stipple} {grav : Graver}
    {plate : Plate} {so : StopOut} {mem : Memory} {marg : Margin} {burn : Burnish} {book : Sketchbook} {therm :
    Thermal} {pwr : Power} {free : Nat} {pending : List Instr}
    (h : Keeps s u) (hq : pending = u.pending) (hc : mem.cells = u.mem.cells)
    (hdrives : drives = u.drives) (hpar : par = u.par) (hnv : nv = u.nv) (htbs : hatch.tbs = u.hatch.tbs) (hpairs
    : hatch.pairs = u.hatch.pairs) (hrings : stip.rings = u.stip.rings) (hdir : stip.dir = u.stip.dir) (hsrcs :
    pos.srcs = u.pos.srcs) (hcmps : pos.cmps = u.pos.cmps) (hemus : pos.emus = u.pos.emus) (hseqs : conv.seqs =
    u.conv.seqs) (hslices : conv.slices = u.conv.slices) (hctxs : grav.ctxs = u.grav.ctxs) (hregs : so.regs =
    u.so.regs) (hcaps : mem.caps = u.mem.caps) :
    Keeps s (State.mk u.part now op safeLocked drives par nv folio tim conv pos hatch stip grav plate so mem marg burn book
      therm pwr free pending) :=
  Keeps.ofTables h hq hc fun w =>
    ⟨hdrives ▸ w.drives, hpar ▸ w.par, hnv ▸ w.nv, htbs ▸ w.tbs, hpairs ▸ w.pairs, hrings ▸ w.rings, hdir ▸ w.dir, hsrcs ▸ w.srcs, hcmps ▸ w.cmps, hemus ▸ w.emus, hseqs ▸ w.seqs, hslices ▸ w.slices, hctxs ▸ w.ctxs, hregs ▸ w.regs, hcaps ▸ w.caps⟩

/-- The same, where bytes of memory are dropped. -/
theorem Keeps.filter {s u : State} {now : Nat} {op : OpState} {safeLocked : Bool} {drives : Tbl Drive} {par : Tbl Word} {nv : Tbl Word} {folio :
    Folio} {tim : Timing} {conv : Converters} {pos : Position} {hatch : Hatch} {stip : Stipple} {grav : Graver}
    {plate : Plate} {so : StopOut} {mem : Memory} {marg : Margin} {burn : Burnish} {book : Sketchbook} {therm :
    Thermal} {pwr : Power} {free : Nat} {pending : List Instr}
    (h : Keeps s u) (hq : pending = u.pending) {p : Nat × Byte → Bool}
    (hc : mem.cells = u.mem.cells.filter p)
    (ht : Tables u → Tables (State.mk u.part now op safeLocked drives par nv folio tim conv pos hatch stip grav plate so mem marg burn book
      therm pwr free pending)) :
    Keeps s (State.mk u.part now op safeLocked drives par nv folio tim conv pos hatch stip grav plate so mem marg burn book
      therm pwr free pending) :=
  ⟨h.part, hq.trans h.pending, fun w => by
    have := tblWf_filter (h.wf w) p
    simpa [Memory.wf, hc] using this, fun w => ht (h.tables w)⟩

theorem Same.trans {s u t : State} (h : Same s u) (k : Same u t) : Same s t :=
  ⟨k.part.trans h.part, k.pending.trans h.pending, k.cells.trans h.cells, fun w => k.tables (h.tables w)⟩

theorem Keeps.trans {s u t : State} (h : Keeps s u) (k : Keeps u t) : Keeps s t :=
  ⟨k.part.trans h.part, k.pending.trans h.pending, fun w => k.wf (h.wf w), fun w => k.tables (h.tables w)⟩

theorem Same.ite {s a b : State} {c : Prop} [Decidable c] (h : Same s a) (k : Same s b) : Same s (if c then a else b) := by
  by_cases hc : c <;> simp [hc, h, k]

theorem Keeps.ite {s a b : State} {c : Prop} [Decidable c] (h : Keeps s a) (k : Keeps s b) :
    Keeps s (if c then a else b) := by
  by_cases hc : c <;> simp [hc, h, k]

theorem Same.forUpTo {s u : State} {n : Nat} {f : Nat → State → State} (h : Same s u)
    (k : ∀ i v, Same s v → Same s (f i v)) : Same s (forUpTo n f u) := by
  induction n with
  | zero => exact h
  | succ m ih => exact k m _ ih

theorem Keeps.forUpTo {s u : State} {n : Nat} {f : Nat → State → State} (h : Keeps s u)
    (k : ∀ i v, Keeps s v → Keeps s (f i v)) : Keeps s (forUpTo n f u) := by
  induction n with
  | zero => exact h
  | succ m ih => exact k m _ ih

theorem Same.forEach {α : Type} {s u : State} {l : List α} {f : α → State → State} (h : Same s u)
    (k : ∀ i v, Same s v → Same s (f i v)) : Same s (forEach l f u) := by
  induction l generalizing u with
  | nil => exact h
  | cons a r ih => exact ih (k a u h)

theorem Keeps.forEach {α : Type} {s u : State} {l : List α} {f : α → State → State} (h : Keeps s u)
    (k : ∀ i v, Keeps s v → Keeps s (f i v)) : Keeps s (forEach l f u) := by
  induction l generalizing u with
  | nil => exact h
  | cons a r ih => exact ih (k a u h)

theorem Same.foldl {α : Type} {s u : State} {l : List α} {f : State → α → State} (h : Same s u)
    (k : ∀ i v, Same s v → Same s (f v i)) : Same s (l.foldl f u) := by
  induction l generalizing u with
  | nil => exact h
  | cons a r ih => exact ih (k a u h)

/-- What a command's body answers has the part, the queue and the memory bytes of `s`. -/
def SameR (s : State) (r : CmdRes) : Prop :=
  match r with
  | .done _ _ t => Same s t
  | .wait t => Same s t

/-- What a command's body answers keeps the part, the queue and the canonical form of memory. -/
def KeepsR (s : State) (r : CmdRes) : Prop :=
  match r with
  | .done _ _ t => Keeps s t
  | .wait t => Keeps s t

theorem SameR.done {s t : State} {st : Nat} {ws : List Word} (h : Same s t) : SameR s (.done st ws t) := h
theorem SameR.wait {s t : State} (h : Same s t) : SameR s (.wait t) := h
theorem KeepsR.done {s t : State} {st : Nat} {ws : List Word} (h : Keeps s t) : KeepsR s (.done st ws t) := h
theorem KeepsR.wait {s t : State} (h : Keeps s t) : KeepsR s (.wait t) := h

theorem SameR.keeps {s : State} {r : CmdRes} (h : SameR s r) : KeepsR s r := by
  cases r with
  | done => exact Same.keeps h
  | wait => exact Same.keeps h

theorem KeepsR.after {s u : State} {r : CmdRes} (h : Keeps s u) (k : SameR u r) : KeepsR s r := by
  cases r with
  | done => exact h.trans (Same.keeps k)
  | wait => exact h.trans (Same.keeps k)

theorem Keeps.after {s u t : State} (h : Keeps s u) (k : Same u t) : Keeps s t := h.trans k.keeps

theorem SameR.ite {s : State} {a b : CmdRes} {c : Prop} [Decidable c] (h : SameR s a) (k : SameR s b) :
    SameR s (if c then a else b) := by
  by_cases hc : c <;> simp [hc, h, k]

theorem KeepsR.ite {s : State} {a b : CmdRes} {c : Prop} [Decidable c] (h : KeepsR s a) (k : KeepsR s b) :
    KeepsR s (if c then a else b) := by
  by_cases hc : c <;> simp [hc, h, k]

end Sys2Proof.Laws
end

