-- ==== Sys2Proof/Laws/KeepShared.lean ====
section
/-!
SUPPORT. What the operations that every meaning shares keep (Laws/Frame.lean): one lemma for each operation and each meaning.
-/
namespace Sys2Proof.Laws
open Sys2Proof.Machine Sys2Proof.Safety

/-! Ops. -/

theorem same_updDrive {s0 : State} {s : State} {d : Nat} {f : Drive → Drive} (hs : Same s0 s) :
    Same s0 (State.updDrive s d f) := by
  unfold State.updDrive
  try dsimp only
  repeat' first
    | with_reducible assumption
    | (constructor <;> first | exact h.drives | exact h.par | exact h.nv | exact h.tbs | exact h.pairs | exact h.rings | exact h.dir | exact h.srcs | exact h.cmps | exact h.emus | exact h.seqs | exact h.slices | exact h.ctxs | exact h.regs | exact h.caps | exact rising_set h.drives _ _ _ | exact rising_set h.par _ _ _ | exact rising_set h.nv _ _ _ | exact rising_set h.tbs _ _ _ | exact rising_set h.pairs _ _ _ | exact rising_set h.rings _ _ _ | exact rising_set h.dir _ _ _ | exact rising_set h.srcs _ _ _ | exact rising_set h.cmps _ _ _ | exact rising_set h.emus _ _ _ | exact rising_set h.seqs _ _ _ | exact rising_set h.slices _ _ _ | exact rising_set h.ctxs _ _ _ | exact rising_set h.regs _ _ _ | exact rising_set h.caps _ _ _ | exact rising_filter h.par _ | exact rising_filter h.nv _ | exact rising_map h.rings (fun _ => rfl) | exact rising_map h.slices (fun _ => rfl) | exact rising_map h.ctxs (fun _ => rfl) | exact rising_map h.seqs (fun _ => rfl) | exact rising_nil)
    | with_reducible refine Same.ite ?_ ?_
    | with_reducible fail_if_no_progress refine Same.of ?_ rfl rfl rfl rfl rfl rfl rfl rfl rfl rfl rfl rfl rfl rfl rfl rfl rfl
    | split
    | with_reducible refine Same.ofTables ?_ rfl rfl (fun h => ?_)

theorem same_updTb {s0 : State} {s : State} {t : Nat} {f : Timebase → Timebase} (hs : Same s0 s) :
    Same s0 (State.updTb s t f) := by
  unfold State.updTb
  try dsimp only
  repeat' first
    | with_reducible assumption
    | (constructor <;> first | exact h.drives | exact h.par | exact h.nv | exact h.tbs | exact h.pairs | exact h.rings | exact h.dir | exact h.srcs | exact h.cmps | exact h.emus | exact h.seqs | exact h.slices | exact h.ctxs | exact h.regs | exact h.caps | exact rising_set h.drives _ _ _ | exact rising_set h.par _ _ _ | exact rising_set h.nv _ _ _ | exact rising_set h.tbs _ _ _ | exact rising_set h.pairs _ _ _ | exact rising_set h.rings _ _ _ | exact rising_set h.dir _ _ _ | exact rising_set h.srcs _ _ _ | exact rising_set h.cmps _ _ _ | exact rising_set h.emus _ _ _ | exact rising_set h.seqs _ _ _ | exact rising_set h.slices _ _ _ | exact rising_set h.ctxs _ _ _ | exact rising_set h.regs _ _ _ | exact rising_set h.caps _ _ _ | exact rising_filter h.par _ | exact rising_filter h.nv _ | exact rising_map h.rings (fun _ => rfl) | exact rising_map h.slices (fun _ => rfl) | exact rising_map h.ctxs (fun _ => rfl) | exact rising_map h.seqs (fun _ => rfl) | exact rising_nil)
    | with_reducible refine Same.ite ?_ ?_
    | with_reducible fail_if_no_progress refine Same.of ?_ rfl rfl rfl rfl rfl rfl rfl rfl rfl rfl rfl rfl rfl rfl rfl rfl rfl
    | split
    | with_reducible refine Same.ofTables ?_ rfl rfl (fun h => ?_)

theorem same_updPair {s0 : State} {s : State} {p : Nat} {f : Pair → Pair} (hs : Same s0 s) :
    Same s0 (State.updPair s p f) := by
  unfold State.updPair
  try dsimp only
  repeat' first
    | with_reducible assumption
    | (constructor <;> first | exact h.drives | exact h.par | exact h.nv | exact h.tbs | exact h.pairs | exact h.rings | exact h.dir | exact h.srcs | exact h.cmps | exact h.emus | exact h.seqs | exact h.slices | exact h.ctxs | exact h.regs | exact h.caps | exact rising_set h.drives _ _ _ | exact rising_set h.par _ _ _ | exact rising_set h.nv _ _ _ | exact rising_set h.tbs _ _ _ | exact rising_set h.pairs _ _ _ | exact rising_set h.rings _ _ _ | exact rising_set h.dir _ _ _ | exact rising_set h.srcs _ _ _ | exact rising_set h.cmps _ _ _ | exact rising_set h.emus _ _ _ | exact rising_set h.seqs _ _ _ | exact rising_set h.slices _ _ _ | exact rising_set h.ctxs _ _ _ | exact rising_set h.regs _ _ _ | exact rising_set h.caps _ _ _ | exact rising_filter h.par _ | exact rising_filter h.nv _ | exact rising_map h.rings (fun _ => rfl) | exact rising_map h.slices (fun _ => rfl) | exact rising_map h.ctxs (fun _ => rfl) | exact rising_map h.seqs (fun _ => rfl) | exact rising_nil)
    | with_reducible refine Same.ite ?_ ?_
    | with_reducible fail_if_no_progress refine Same.of ?_ rfl rfl rfl rfl rfl rfl rfl rfl rfl rfl rfl rfl rfl rfl rfl rfl rfl
    | split
    | with_reducible refine Same.ofTables ?_ rfl rfl (fun h => ?_)

theorem same_updRing {s0 : State} {s : State} {r : Nat} {f : Ring → Ring} (hs : Same s0 s) :
    Same s0 (State.updRing s r f) := by
  unfold State.updRing
  try dsimp only
  repeat' first
    | with_reducible assumption
    | (constructor <;> first | exact h.drives | exact h.par | exact h.nv | exact h.tbs | exact h.pairs | exact h.rings | exact h.dir | exact h.srcs | exact h.cmps | exact h.emus | exact h.seqs | exact h.slices | exact h.ctxs | exact h.regs | exact h.caps | exact rising_set h.drives _ _ _ | exact rising_set h.par _ _ _ | exact rising_set h.nv _ _ _ | exact rising_set h.tbs _ _ _ | exact rising_set h.pairs _ _ _ | exact rising_set h.rings _ _ _ | exact rising_set h.dir _ _ _ | exact rising_set h.srcs _ _ _ | exact rising_set h.cmps _ _ _ | exact rising_set h.emus _ _ _ | exact rising_set h.seqs _ _ _ | exact rising_set h.slices _ _ _ | exact rising_set h.ctxs _ _ _ | exact rising_set h.regs _ _ _ | exact rising_set h.caps _ _ _ | exact rising_filter h.par _ | exact rising_filter h.nv _ | exact rising_map h.rings (fun _ => rfl) | exact rising_map h.slices (fun _ => rfl) | exact rising_map h.ctxs (fun _ => rfl) | exact rising_map h.seqs (fun _ => rfl) | exact rising_nil)
    | with_reducible refine Same.ite ?_ ?_
    | with_reducible fail_if_no_progress refine Same.of ?_ rfl rfl rfl rfl rfl rfl rfl rfl rfl rfl rfl rfl rfl rfl rfl rfl rfl
    | split
    | with_reducible refine Same.ofTables ?_ rfl rfl (fun h => ?_)

theorem same_updEntry {s0 : State} {s : State} {d : Nat} {f : DirEntry → DirEntry} (hs : Same s0 s) :
    Same s0 (State.updEntry s d f) := by
  unfold State.updEntry
  try dsimp only
  repeat' first
    | with_reducible assumption
    | (constructor <;> first | exact h.drives | exact h.par | exact h.nv | exact h.tbs | exact h.pairs | exact h.rings | exact h.dir | exact h.srcs | exact h.cmps | exact h.emus | exact h.seqs | exact h.slices | exact h.ctxs | exact h.regs | exact h.caps | exact rising_set h.drives _ _ _ | exact rising_set h.par _ _ _ | exact rising_set h.nv _ _ _ | exact rising_set h.tbs _ _ _ | exact rising_set h.pairs _ _ _ | exact rising_set h.rings _ _ _ | exact rising_set h.dir _ _ _ | exact rising_set h.srcs _ _ _ | exact rising_set h.cmps _ _ _ | exact rising_set h.emus _ _ _ | exact rising_set h.seqs _ _ _ | exact rising_set h.slices _ _ _ | exact rising_set h.ctxs _ _ _ | exact rising_set h.regs _ _ _ | exact rising_set h.caps _ _ _ | exact rising_filter h.par _ | exact rising_filter h.nv _ | exact rising_map h.rings (fun _ => rfl) | exact rising_map h.slices (fun _ => rfl) | exact rising_map h.ctxs (fun _ => rfl) | exact rising_map h.seqs (fun _ => rfl) | exact rising_nil)
    | with_reducible refine Same.ite ?_ ?_
    | with_reducible fail_if_no_progress refine Same.of ?_ rfl rfl rfl rfl rfl rfl rfl rfl rfl rfl rfl rfl rfl rfl rfl rfl rfl
    | split
    | with_reducible refine Same.ofTables ?_ rfl rfl (fun h => ?_)

theorem same_updSrc {s0 : State} {s : State} {n : Nat} {f : PosSrc → PosSrc} (hs : Same s0 s) :
    Same s0 (State.updSrc s n f) := by
  unfold State.updSrc
  try dsimp only
  repeat' first
    | with_reducible assumption
    | (constructor <;> first | exact h.drives | exact h.par | exact h.nv | exact h.tbs | exact h.pairs | exact h.rings | exact h.dir | exact h.srcs | exact h.cmps | exact h.emus | exact h.seqs | exact h.slices | exact h.ctxs | exact h.regs | exact h.caps | exact rising_set h.drives _ _ _ | exact rising_set h.par _ _ _ | exact rising_set h.nv _ _ _ | exact rising_set h.tbs _ _ _ | exact rising_set h.pairs _ _ _ | exact rising_set h.rings _ _ _ | exact rising_set h.dir _ _ _ | exact rising_set h.srcs _ _ _ | exact rising_set h.cmps _ _ _ | exact rising_set h.emus _ _ _ | exact rising_set h.seqs _ _ _ | exact rising_set h.slices _ _ _ | exact rising_set h.ctxs _ _ _ | exact rising_set h.regs _ _ _ | exact rising_set h.caps _ _ _ | exact rising_filter h.par _ | exact rising_filter h.nv _ | exact rising_map h.rings (fun _ => rfl) | exact rising_map h.slices (fun _ => rfl) | exact rising_map h.ctxs (fun _ => rfl) | exact rising_map h.seqs (fun _ => rfl) | exact rising_nil)
    | with_reducible refine Same.ite ?_ ?_
    | with_reducible fail_if_no_progress refine Same.of ?_ rfl rfl rfl rfl rfl rfl rfl rfl rfl rfl rfl rfl rfl rfl rfl rfl rfl
    | split
    | with_reducible refine Same.ofTables ?_ rfl rfl (fun h => ?_)

theorem same_updCmp {s0 : State} {s : State} {n : Nat} {f : PosCmp → PosCmp} (hs : Same s0 s) :
    Same s0 (State.updCmp s n f) := by
  unfold State.updCmp
  try dsimp only
  repeat' first
    | with_reducible assumption
    | (constructor <;> first | exact h.drives | exact h.par | exact h.nv | exact h.tbs | exact h.pairs | exact h.rings | exact h.dir | exact h.srcs | exact h.cmps | exact h.emus | exact h.seqs | exact h.slices | exact h.ctxs | exact h.regs | exact h.caps | exact rising_set h.drives _ _ _ | exact rising_set h.par _ _ _ | exact rising_set h.nv _ _ _ | exact rising_set h.tbs _ _ _ | exact rising_set h.pairs _ _ _ | exact rising_set h.rings _ _ _ | exact rising_set h.dir _ _ _ | exact rising_set h.srcs _ _ _ | exact rising_set h.cmps _ _ _ | exact rising_set h.emus _ _ _ | exact rising_set h.seqs _ _ _ | exact rising_set h.slices _ _ _ | exact rising_set h.ctxs _ _ _ | exact rising_set h.regs _ _ _ | exact rising_set h.caps _ _ _ | exact rising_filter h.par _ | exact rising_filter h.nv _ | exact rising_map h.rings (fun _ => rfl) | exact rising_map h.slices (fun _ => rfl) | exact rising_map h.ctxs (fun _ => rfl) | exact rising_map h.seqs (fun _ => rfl) | exact rising_nil)
    | with_reducible refine Same.ite ?_ ?_
    | with_reducible fail_if_no_progress refine Same.of ?_ rfl rfl rfl rfl rfl rfl rfl rfl rfl rfl rfl rfl rfl rfl rfl rfl rfl
    | split
    | with_reducible refine Same.ofTables ?_ rfl rfl (fun h => ?_)

theorem same_updEmu {s0 : State} {s : State} {n : Nat} {f : Emu → Emu} (hs : Same s0 s) :
    Same s0 (State.updEmu s n f) := by
  unfold State.updEmu
  try dsimp only
  repeat' first
    | with_reducible assumption
    | (constructor <;> first | exact h.drives | exact h.par | exact h.nv | exact h.tbs | exact h.pairs | exact h.rings | exact h.dir | exact h.srcs | exact h.cmps | exact h.emus | exact h.seqs | exact h.slices | exact h.ctxs | exact h.regs | exact h.caps | exact rising_set h.drives _ _ _ | exact rising_set h.par _ _ _ | exact rising_set h.nv _ _ _ | exact rising_set h.tbs _ _ _ | exact rising_set h.pairs _ _ _ | exact rising_set h.rings _ _ _ | exact rising_set h.dir _ _ _ | exact rising_set h.srcs _ _ _ | exact rising_set h.cmps _ _ _ | exact rising_set h.emus _ _ _ | exact rising_set h.seqs _ _ _ | exact rising_set h.slices _ _ _ | exact rising_set h.ctxs _ _ _ | exact rising_set h.regs _ _ _ | exact rising_set h.caps _ _ _ | exact rising_filter h.par _ | exact rising_filter h.nv _ | exact rising_map h.rings (fun _ => rfl) | exact rising_map h.slices (fun _ => rfl) | exact rising_map h.ctxs (fun _ => rfl) | exact rising_map h.seqs (fun _ => rfl) | exact rising_nil)
    | with_reducible refine Same.ite ?_ ?_
    | with_reducible fail_if_no_progress refine Same.of ?_ rfl rfl rfl rfl rfl rfl rfl rfl rfl rfl rfl rfl rfl rfl rfl rfl rfl
    | split
    | with_reducible refine Same.ofTables ?_ rfl rfl (fun h => ?_)

theorem same_updSeq {s0 : State} {s : State} {n : Nat} {f : Seq → Seq} (hs : Same s0 s) :
    Same s0 (State.updSeq s n f) := by
  unfold State.updSeq
  try dsimp only
  repeat' first
    | with_reducible assumption
    | (constructor <;> first | exact h.drives | exact h.par | exact h.nv | exact h.tbs | exact h.pairs | exact h.rings | exact h.dir | exact h.srcs | exact h.cmps | exact h.emus | exact h.seqs | exact h.slices | exact h.ctxs | exact h.regs | exact h.caps | exact rising_set h.drives _ _ _ | exact rising_set h.par _ _ _ | exact rising_set h.nv _ _ _ | exact rising_set h.tbs _ _ _ | exact rising_set h.pairs _ _ _ | exact rising_set h.rings _ _ _ | exact rising_set h.dir _ _ _ | exact rising_set h.srcs _ _ _ | exact rising_set h.cmps _ _ _ | exact rising_set h.emus _ _ _ | exact rising_set h.seqs _ _ _ | exact rising_set h.slices _ _ _ | exact rising_set h.ctxs _ _ _ | exact rising_set h.regs _ _ _ | exact rising_set h.caps _ _ _ | exact rising_filter h.par _ | exact rising_filter h.nv _ | exact rising_map h.rings (fun _ => rfl) | exact rising_map h.slices (fun _ => rfl) | exact rising_map h.ctxs (fun _ => rfl) | exact rising_map h.seqs (fun _ => rfl) | exact rising_nil)
    | with_reducible refine Same.ite ?_ ?_
    | with_reducible fail_if_no_progress refine Same.of ?_ rfl rfl rfl rfl rfl rfl rfl rfl rfl rfl rfl rfl rfl rfl rfl rfl rfl
    | split
    | with_reducible refine Same.ofTables ?_ rfl rfl (fun h => ?_)

theorem same_updSlice {s0 : State} {s : State} {l : Nat} {f : Slice → Slice} (hs : Same s0 s) :
    Same s0 (State.updSlice s l f) := by
  unfold State.updSlice
  try dsimp only
  repeat' first
    | with_reducible assumption
    | (constructor <;> first | exact h.drives | exact h.par | exact h.nv | exact h.tbs | exact h.pairs | exact h.rings | exact h.dir | exact h.srcs | exact h.cmps | exact h.emus | exact h.seqs | exact h.slices | exact h.ctxs | exact h.regs | exact h.caps | exact rising_set h.drives _ _ _ | exact rising_set h.par _ _ _ | exact rising_set h.nv _ _ _ | exact rising_set h.tbs _ _ _ | exact rising_set h.pairs _ _ _ | exact rising_set h.rings _ _ _ | exact rising_set h.dir _ _ _ | exact rising_set h.srcs _ _ _ | exact rising_set h.cmps _ _ _ | exact rising_set h.emus _ _ _ | exact rising_set h.seqs _ _ _ | exact rising_set h.slices _ _ _ | exact rising_set h.ctxs _ _ _ | exact rising_set h.regs _ _ _ | exact rising_set h.caps _ _ _ | exact rising_filter h.par _ | exact rising_filter h.nv _ | exact rising_map h.rings (fun _ => rfl) | exact rising_map h.slices (fun _ => rfl) | exact rising_map h.ctxs (fun _ => rfl) | exact rising_map h.seqs (fun _ => rfl) | exact rising_nil)
    | with_reducible refine Same.ite ?_ ?_
    | with_reducible fail_if_no_progress refine Same.of ?_ rfl rfl rfl rfl rfl rfl rfl rfl rfl rfl rfl rfl rfl rfl rfl rfl rfl
    | split
    | with_reducible refine Same.ofTables ?_ rfl rfl (fun h => ?_)

theorem keeps_updSlice {s0 : State} {s : State} {l : Nat} {f : Slice → Slice} (hs : Keeps s0 s) :
    Keeps s0 (State.updSlice s l f) := hs.after (same_updSlice (Same.refl _))

theorem same_updCtx {s0 : State} {s : State} {c : Nat} {f : Ctx → Ctx} (hs : Same s0 s) :
    Same s0 (State.updCtx s c f) := by
  unfold State.updCtx
  try dsimp only
  repeat' first
    | with_reducible assumption
    | (constructor <;> first | exact h.drives | exact h.par | exact h.nv | exact h.tbs | exact h.pairs | exact h.rings | exact h.dir | exact h.srcs | exact h.cmps | exact h.emus | exact h.seqs | exact h.slices | exact h.ctxs | exact h.regs | exact h.caps | exact rising_set h.drives _ _ _ | exact rising_set h.par _ _ _ | exact rising_set h.nv _ _ _ | exact rising_set h.tbs _ _ _ | exact rising_set h.pairs _ _ _ | exact rising_set h.rings _ _ _ | exact rising_set h.dir _ _ _ | exact rising_set h.srcs _ _ _ | exact rising_set h.cmps _ _ _ | exact rising_set h.emus _ _ _ | exact rising_set h.seqs _ _ _ | exact rising_set h.slices _ _ _ | exact rising_set h.ctxs _ _ _ | exact rising_set h.regs _ _ _ | exact rising_set h.caps _ _ _ | exact rising_filter h.par _ | exact rising_filter h.nv _ | exact rising_map h.rings (fun _ => rfl) | exact rising_map h.slices (fun _ => rfl) | exact rising_map h.ctxs (fun _ => rfl) | exact rising_map h.seqs (fun _ => rfl) | exact rising_nil)
    | with_reducible refine Same.ite ?_ ?_
    | with_reducible fail_if_no_progress refine Same.of ?_ rfl rfl rfl rfl rfl rfl rfl rfl rfl rfl rfl rfl rfl rfl rfl rfl rfl
    | split
    | with_reducible refine Same.ofTables ?_ rfl rfl (fun h => ?_)

theorem keeps_updCtx {s0 : State} {s : State} {c : Nat} {f : Ctx → Ctx} (hs : Keeps s0 s) :
    Keeps s0 (State.updCtx s c f) := hs.after (same_updCtx (Same.refl _))

theorem same_updRegn {s0 : State} {s : State} {d : Nat} {f : Registration → Registration} (hs : Same s0 s) :
    Same s0 (State.updRegn s d f) := by
  unfold State.updRegn
  try dsimp only
  repeat' first
    | with_reducible assumption
    | (constructor <;> first | exact h.drives | exact h.par | exact h.nv | exact h.tbs | exact h.pairs | exact h.rings | exact h.dir | exact h.srcs | exact h.cmps | exact h.emus | exact h.seqs | exact h.slices | exact h.ctxs | exact h.regs | exact h.caps | exact rising_set h.drives _ _ _ | exact rising_set h.par _ _ _ | exact rising_set h.nv _ _ _ | exact rising_set h.tbs _ _ _ | exact rising_set h.pairs _ _ _ | exact rising_set h.rings _ _ _ | exact rising_set h.dir _ _ _ | exact rising_set h.srcs _ _ _ | exact rising_set h.cmps _ _ _ | exact rising_set h.emus _ _ _ | exact rising_set h.seqs _ _ _ | exact rising_set h.slices _ _ _ | exact rising_set h.ctxs _ _ _ | exact rising_set h.regs _ _ _ | exact rising_set h.caps _ _ _ | exact rising_filter h.par _ | exact rising_filter h.nv _ | exact rising_map h.rings (fun _ => rfl) | exact rising_map h.slices (fun _ => rfl) | exact rising_map h.ctxs (fun _ => rfl) | exact rising_map h.seqs (fun _ => rfl) | exact rising_nil)
    | with_reducible refine Same.ite ?_ ?_
    | with_reducible fail_if_no_progress refine Same.of ?_ rfl rfl rfl rfl rfl rfl rfl rfl rfl rfl rfl rfl rfl rfl rfl rfl rfl
    | split
    | with_reducible refine Same.ofTables ?_ rfl rfl (fun h => ?_)

theorem same_updCap {s0 : State} {s : State} {b : Nat} {f : Capture → Capture} (hs : Same s0 s) :
    Same s0 (State.updCap s b f) := by
  unfold State.updCap
  try dsimp only
  repeat' first
    | with_reducible assumption
    | (constructor <;> first | exact h.drives | exact h.par | exact h.nv | exact h.tbs | exact h.pairs | exact h.rings | exact h.dir | exact h.srcs | exact h.cmps | exact h.emus | exact h.seqs | exact h.slices | exact h.ctxs | exact h.regs | exact h.caps | exact rising_set h.drives _ _ _ | exact rising_set h.par _ _ _ | exact rising_set h.nv _ _ _ | exact rising_set h.tbs _ _ _ | exact rising_set h.pairs _ _ _ | exact rising_set h.rings _ _ _ | exact rising_set h.dir _ _ _ | exact rising_set h.srcs _ _ _ | exact rising_set h.cmps _ _ _ | exact rising_set h.emus _ _ _ | exact rising_set h.seqs _ _ _ | exact rising_set h.slices _ _ _ | exact rising_set h.ctxs _ _ _ | exact rising_set h.regs _ _ _ | exact rising_set h.caps _ _ _ | exact rising_filter h.par _ | exact rising_filter h.nv _ | exact rising_map h.rings (fun _ => rfl) | exact rising_map h.slices (fun _ => rfl) | exact rising_map h.ctxs (fun _ => rfl) | exact rising_map h.seqs (fun _ => rfl) | exact rising_nil)
    | with_reducible refine Same.ite ?_ ?_
    | with_reducible fail_if_no_progress refine Same.of ?_ rfl rfl rfl rfl rfl rfl rfl rfl rfl rfl rfl rfl rfl rfl rfl rfl rfl
    | split
    | with_reducible refine Same.ofTables ?_ rfl rfl (fun h => ?_)

theorem keeps_updCap {s0 : State} {s : State} {b : Nat} {f : Capture → Capture} (hs : Keeps s0 s) :
    Keeps s0 (State.updCap s b f) := hs.after (same_updCap (Same.refl _))

/-! ParamTable. -/

theorem same_parSet {s0 : State} {s : State} {u : Nat} {i : Nat} {v : Word} (hs : Same s0 s) :
    Same s0 (parSet s u i v) := by
  unfold parSet
  try dsimp only
  repeat' first
    | with_reducible assumption
    | (constructor <;> first | exact h.drives | exact h.par | exact h.nv | exact h.tbs | exact h.pairs | exact h.rings | exact h.dir | exact h.srcs | exact h.cmps | exact h.emus | exact h.seqs | exact h.slices | exact h.ctxs | exact h.regs | exact h.caps | exact rising_set h.drives _ _ _ | exact rising_set h.par _ _ _ | exact rising_set h.nv _ _ _ | exact rising_set h.tbs _ _ _ | exact rising_set h.pairs _ _ _ | exact rising_set h.rings _ _ _ | exact rising_set h.dir _ _ _ | exact rising_set h.srcs _ _ _ | exact rising_set h.cmps _ _ _ | exact rising_set h.emus _ _ _ | exact rising_set h.seqs _ _ _ | exact rising_set h.slices _ _ _ | exact rising_set h.ctxs _ _ _ | exact rising_set h.regs _ _ _ | exact rising_set h.caps _ _ _ | exact rising_filter h.par _ | exact rising_filter h.nv _ | exact rising_map h.rings (fun _ => rfl) | exact rising_map h.slices (fun _ => rfl) | exact rising_map h.ctxs (fun _ => rfl) | exact rising_map h.seqs (fun _ => rfl) | exact rising_nil)
    | with_reducible refine Same.ite ?_ ?_
    | with_reducible fail_if_no_progress refine Same.of ?_ rfl rfl rfl rfl rfl rfl rfl rfl rfl rfl rfl rfl rfl rfl rfl rfl rfl
    | split
    | with_reducible refine Same.ofTables ?_ rfl rfl (fun h => ?_)

theorem keeps_parSet {s0 : State} {s : State} {u : Nat} {i : Nat} {v : Word} (hs : Keeps s0 s) :
    Keeps s0 (parSet s u i v) := hs.after (same_parSet (Same.refl _))

theorem same_parSetField {s0 : State} {s : State} {u : Nat} {i : Nat} {hi : Nat} {lo : Nat} {v : Nat} (hs : Same s0 s) :
    Same s0 (parSetField s u i hi lo v) := by
  unfold parSetField
  try dsimp only
  repeat' first
    | with_reducible assumption
    | with_reducible refine Same.ite ?_ ?_
    | with_reducible refine same_parSet ?_

theorem same_parCount {s0 : State} {s : State} {u : Nat} {i : Nat} {n : Nat} (hs : Same s0 s) :
    Same s0 (parCount s u i n) := by
  unfold parCount
  try dsimp only
  repeat' first
    | with_reducible assumption
    | with_reducible refine Same.ite ?_ ?_
    | with_reducible refine same_parSet ?_

theorem keeps_parCount {s0 : State} {s : State} {u : Nat} {i : Nat} {n : Nat} (hs : Keeps s0 s) :
    Keeps s0 (parCount s u i n) := hs.after (same_parCount (Same.refl _))

theorem same_parWrap {s0 : State} {s : State} {u : Nat} {i : Nat} (hs : Same s0 s) :
    Same s0 (parWrap s u i) := by
  unfold parWrap
  try dsimp only
  repeat' first
    | with_reducible assumption
    | with_reducible refine Same.ite ?_ ?_
    | with_reducible refine same_parSet ?_

theorem keeps_parWrap {s0 : State} {s : State} {u : Nat} {i : Nat} (hs : Keeps s0 s) :
    Keeps s0 (parWrap s u i) := hs.after (same_parWrap (Same.refl _))

theorem same_parOr {s0 : State} {s : State} {u : Nat} {i : Nat} {m : Word} (hs : Same s0 s) :
    Same s0 (parOr s u i m) := by
  unfold parOr
  try dsimp only
  repeat' first
    | with_reducible assumption
    | with_reducible refine Same.ite ?_ ?_
    | with_reducible refine same_parSet ?_

theorem same_parClearUnit {s0 : State} {s : State} {u : Nat} (hs : Same s0 s) :
    Same s0 (parClearUnit s u) := by
  unfold parClearUnit
  try dsimp only
  repeat' first
    | with_reducible assumption
    | (constructor <;> first | exact h.drives | exact h.par | exact h.nv | exact h.tbs | exact h.pairs | exact h.rings | exact h.dir | exact h.srcs | exact h.cmps | exact h.emus | exact h.seqs | exact h.slices | exact h.ctxs | exact h.regs | exact h.caps | exact rising_set h.drives _ _ _ | exact rising_set h.par _ _ _ | exact rising_set h.nv _ _ _ | exact rising_set h.tbs _ _ _ | exact rising_set h.pairs _ _ _ | exact rising_set h.rings _ _ _ | exact rising_set h.dir _ _ _ | exact rising_set h.srcs _ _ _ | exact rising_set h.cmps _ _ _ | exact rising_set h.emus _ _ _ | exact rising_set h.seqs _ _ _ | exact rising_set h.slices _ _ _ | exact rising_set h.ctxs _ _ _ | exact rising_set h.regs _ _ _ | exact rising_set h.caps _ _ _ | exact rising_filter h.par _ | exact rising_filter h.nv _ | exact rising_map h.rings (fun _ => rfl) | exact rising_map h.slices (fun _ => rfl) | exact rising_map h.ctxs (fun _ => rfl) | exact rising_map h.seqs (fun _ => rfl) | exact rising_nil)
    | with_reducible refine Same.ite ?_ ?_
    | with_reducible fail_if_no_progress refine Same.of ?_ rfl rfl rfl rfl rfl rfl rfl rfl rfl rfl rfl rfl rfl rfl rfl rfl rfl
    | split
    | with_reducible refine Same.ofTables ?_ rfl rfl (fun h => ?_)

theorem keeps_parClearUnit {s0 : State} {s : State} {u : Nat} (hs : Keeps s0 s) :
    Keeps s0 (parClearUnit s u) := hs.after (same_parClearUnit (Same.refl _))

/-! Flags. -/

theorem same_setAttn {s0 : State} {s : State} {n : Nat} (hs : Same s0 s) :
    Same s0 (setAttn s n) := by
  unfold setAttn
  try dsimp only
  repeat' first
    | with_reducible assumption
    | with_reducible refine Same.ite ?_ ?_
    | with_reducible refine same_parOr ?_

theorem keeps_setAttn {s0 : State} {s : State} {n : Nat} (hs : Keeps s0 s) :
    Keeps s0 (setAttn s n) := hs.after (same_setAttn (Same.refl _))

theorem same_capTrigger {s0 : State} {e : Event} {b : Nat} {s : State} (hs : Same s0 s) :
    Same s0 (capTrigger e b s) := by
  unfold capTrigger
  try dsimp only
  repeat' first
    | with_reducible assumption
    | with_reducible refine Same.ite ?_ ?_
    | with_reducible refine same_updCap ?_

theorem same_recordEvent {s0 : State} {s : State} {e : Event} (hs : Same s0 s) :
    Same s0 (recordEvent s e) := by
  unfold recordEvent
  try dsimp only
  repeat' first
    | with_reducible assumption
    | with_reducible refine Same.ite ?_ ?_
    | with_reducible refine same_updDrive ?_
    | with_reducible refine same_setAttn ?_
    | with_reducible refine same_capTrigger ?_
    | with_reducible refine Same.forUpTo ?_ (fun _ _ _ => ?_)
    | with_reducible fail_if_no_progress refine Same.of ?_ rfl rfl rfl rfl rfl rfl rfl rfl rfl rfl rfl rfl rfl rfl rfl rfl rfl
    | split

theorem same_record {s0 : State} {s : State} {code : Nat} {idx : Nat} {args : List Word} (hs : Same s0 s) :
    Same s0 (record s code idx args) := by
  unfold record
  try dsimp only
  repeat' first
    | with_reducible assumption
    | with_reducible refine Same.ite ?_ ?_
    | with_reducible refine same_recordEvent ?_

theorem keeps_record {s0 : State} {s : State} {code : Nat} {idx : Nat} {args : List Word} (hs : Keeps s0 s) :
    Keeps s0 (record s code idx args) := hs.after (same_record (Same.refl _))

theorem same_linkError {s0 : State} {s : State} {i : Nat} (hs : Same s0 s) :
    Same s0 (linkError s i) := by
  unfold linkError
  try dsimp only
  repeat' first
    | with_reducible assumption
    | with_reducible refine Same.ite ?_ ?_
    | with_reducible refine same_parCount ?_
    | with_reducible refine same_setAttn ?_

theorem same_setOp {s0 : State} {s : State} {o : OpState} (hs : Same s0 s) :
    Same s0 (setOp s o) := by
  unfold setOp
  try dsimp only
  repeat' first
    | with_reducible assumption
    | with_reducible refine Same.ite ?_ ?_
    | with_reducible refine same_record ?_
    | with_reducible fail_if_no_progress refine Same.of ?_ rfl rfl rfl rfl rfl rfl rfl rfl rfl rfl rfl rfl rfl rfl rfl rfl rfl

theorem same_setMark {s0 : State} {s : State} {a : Nat} {m : Mark} (hs : Same s0 s) :
    Same s0 (setMark s a m) := by
  unfold setMark
  try dsimp only
  repeat' first
    | with_reducible assumption
    | with_reducible refine Same.ite ?_ ?_
    | with_reducible fail_if_no_progress refine Same.of ?_ rfl rfl rfl rfl rfl rfl rfl rfl rfl rfl rfl rfl rfl rfl rfl rfl rfl

theorem keeps_setMark {s0 : State} {s : State} {a : Nat} {m : Mark} (hs : Keeps s0 s) :
    Keeps s0 (setMark s a m) := hs.after (same_setMark (Same.refl _))

theorem same_freshWords {s0 : State} {s : State} {lo : Nat} {hi : Nat} (hs : Same s0 s) :
    Same s0 (freshWords s lo hi) := by
  unfold freshWords
  try dsimp only
  repeat' first
    | with_reducible assumption
    | with_reducible refine Same.ite ?_ ?_
    | with_reducible fail_if_no_progress refine Same.of ?_ rfl rfl rfl rfl rfl rfl rfl rfl rfl rfl rfl rfl rfl rfl rfl rfl rfl

theorem keeps_freshWords {s0 : State} {s : State} {lo : Nat} {hi : Nat} (hs : Keeps s0 s) :
    Keeps s0 (freshWords s lo hi) := hs.after (same_freshWords (Same.refl _))

theorem same_countBite {s0 : State} {s : State} (hs : Same s0 s) :
    Same s0 (countBite s) := by
  unfold countBite
  try dsimp only
  repeat' first
    | with_reducible assumption
    | with_reducible refine Same.ite ?_ ?_
    | with_reducible refine same_parCount ?_

theorem same_noteBite {s0 : State} {s : State} {u : Nat} {a : Nat} (hs : Same s0 s) :
    Same s0 (noteBite s u a) := by
  unfold noteBite
  try dsimp only
  repeat' first
    | with_reducible assumption
    | with_reducible refine Same.ite ?_ ?_
    | with_reducible fail_if_no_progress refine Same.of ?_ rfl rfl rfl rfl rfl rfl rfl rfl rfl rfl rfl rfl rfl rfl rfl rfl rfl

/-! Operands. -/

theorem same_refuse {s0 : State} {status : Nat} {s : State} (hs : Same s0 s) :
    SameR s0 (refuse status s) := by
  unfold refuse
  try dsimp only
  repeat' first
    | with_reducible assumption
    | with_reducible refine Same.ite ?_ ?_
    | with_reducible refine SameR.ite ?_ ?_
    | with_reducible refine SameR.done ?_

theorem keeps_refuse {s0 : State} {status : Nat} {s : State} (hs : Keeps s0 s) :
    KeepsR s0 (refuse status s) := KeepsR.after hs (same_refuse (Same.refl _))

theorem same_checked {s0 : State} {s : State} {l : List (Bool × Nat)} {k : CmdRes} (hs : Same s0 s) (hk : SameR s0 k) :
    SameR s0 (checked s l k) := by
  unfold checked
  try dsimp only
  repeat' first
    | with_reducible assumption
    | with_reducible refine Same.ite ?_ ?_
    | with_reducible refine SameR.ite ?_ ?_
    | with_reducible refine SameR.done ?_
    | with_reducible refine SameR.wait ?_
    | with_reducible refine same_refuse ?_
    | with_reducible fail_if_no_progress refine Same.of ?_ rfl rfl rfl rfl rfl rfl rfl rfl rfl rfl rfl rfl rfl rfl rfl rfl rfl
    | refine hk 
    | split

theorem keeps_checked {s0 : State} {s : State} {l : List (Bool × Nat)} {k : CmdRes} (hs : Keeps s0 s) (hk : KeepsR s0 k) :
    KeepsR s0 (checked s l k) := by
  unfold checked
  try dsimp only
  repeat' first
    | with_reducible assumption
    | with_reducible refine Keeps.ite ?_ ?_
    | with_reducible refine KeepsR.ite ?_ ?_
    | with_reducible refine KeepsR.done ?_
    | with_reducible refine KeepsR.wait ?_
    | with_reducible refine keeps_refuse ?_
    | with_reducible fail_if_no_progress refine Keeps.of ?_ rfl rfl rfl rfl rfl rfl rfl rfl rfl rfl rfl rfl rfl rfl rfl rfl rfl
    | refine hk 
    | split

theorem same_recordUntested {s0 : State} {s : State} {code : Nat} {idx : Nat} {args : List Word} (hs : Same s0 s) :
    Same s0 (recordUntested s code idx args) := by
  unfold recordUntested
  try dsimp only
  repeat' first
    | with_reducible assumption
    | with_reducible refine Same.ite ?_ ?_
    | with_reducible refine same_record ?_

/-! Ecc. -/

theorem keeps_writeByte {s0 : State} {s : State} {a : Nat} {b : Byte} (hs : Keeps s0 s) :
    Keeps s0 (writeByte s a b) :=
  ⟨hs.part, hs.pending, fun w => tblWf_set (hs.wf w) a b, fun w =>
    have h := hs.tables w
    ⟨h.drives, h.par, h.nv, h.tbs, h.pairs, h.rings, h.dir, h.srcs, h.cmps, h.emus, h.seqs, h.slices, h.ctxs, h.regs, h.caps⟩⟩

theorem keeps_writeWord {s0 : State} {s : State} {a : Nat} {w : Word} (hs : Keeps s0 s) :
    Keeps s0 (writeWord s a w) := by
  unfold writeWord
  try dsimp only
  repeat' first
    | with_reducible assumption
    | with_reducible refine Keeps.ite ?_ ?_
    | with_reducible refine keeps_writeByte ?_

theorem same_setErr {s0 : State} {s : State} {a : Nat} {e : EccErr} (hs : Same s0 s) :
    Same s0 (setErr s a e) := by
  unfold setErr
  try dsimp only
  repeat' first
    | with_reducible assumption
    | with_reducible refine Same.ite ?_ ?_
    | with_reducible fail_if_no_progress refine Same.of ?_ rfl rfl rfl rfl rfl rfl rfl rfl rfl rfl rfl rfl rfl rfl rfl rfl rfl

theorem keeps_setErr {s0 : State} {s : State} {a : Nat} {e : EccErr} (hs : Keeps s0 s) :
    Keeps s0 (setErr s a e) := hs.after (same_setErr (Same.refl _))

theorem same_noteCorrected {s0 : State} {s : State} {a : Nat} (hs : Same s0 s) :
    Same s0 (noteCorrected s a) := by
  unfold noteCorrected
  try dsimp only
  repeat' first
    | with_reducible assumption
    | with_reducible refine Same.ite ?_ ?_
    | with_reducible refine same_recordUntested ?_
    | with_reducible fail_if_no_progress refine Same.of ?_ rfl rfl rfl rfl rfl rfl rfl rfl rfl rfl rfl rfl rfl rfl rfl rfl rfl

theorem same_eccRead {s0 : State} {s : State} {a : Nat} {back : Bool} {raced : Bool} (hs : Same s0 s) :
    Same s0 (eccRead s a back raced) := by
  unfold eccRead
  try dsimp only
  repeat' first
    | with_reducible assumption
    | with_reducible refine Same.ite ?_ ?_
    | with_reducible refine same_parCount ?_
    | with_reducible refine same_setMark ?_
    | with_reducible refine same_recordUntested ?_
    | with_reducible refine same_setErr ?_
    | with_reducible refine same_noteCorrected ?_
    | with_reducible fail_if_no_progress refine Same.of ?_ rfl rfl rfl rfl rfl rfl rfl rfl rfl rfl rfl rfl rfl rfl rfl rfl rfl
    | split

theorem same_mapRead {s0 : State} {s : State} {a : Nat} (hs : Same s0 s) :
    Same s0 (mapRead s a) := by
  unfold mapRead
  try dsimp only
  repeat' first
    | with_reducible assumption
    | with_reducible refine Same.ite ?_ ?_
    | with_reducible refine same_eccRead ?_

theorem keeps_mapRead {s0 : State} {s : State} {a : Nat} (hs : Keeps s0 s) :
    Keeps s0 (mapRead s a) := hs.after (same_mapRead (Same.refl _))

theorem same_demandRead {s0 : State} {s : State} {a : Nat} (hs : Same s0 s) :
    Same s0 (demandRead s a) := by
  unfold demandRead
  try dsimp only
  repeat' first
    | with_reducible assumption
    | with_reducible refine Same.ite ?_ ?_
    | with_reducible refine same_eccRead ?_
    | with_reducible refine same_mapRead ?_

theorem keeps_demandRead {s0 : State} {s : State} {a : Nat} (hs : Keeps s0 s) :
    Keeps s0 (demandRead s a) := hs.after (same_demandRead (Same.refl _))

theorem same_readCells {s0 : State} {l : List Nat} {s : State} (hs : Same s0 s) :
    Same s0 (readCells l s) := by
  unfold readCells
  try dsimp only
  repeat' first
    | with_reducible assumption
    | with_reducible refine Same.ite ?_ ?_
    | with_reducible refine same_demandRead ?_
    | with_reducible refine Same.forEach ?_ (fun _ _ _ => ?_)

theorem keeps_readCells {s0 : State} {l : List Nat} {s : State} (hs : Keeps s0 s) :
    Keeps s0 (readCells l s) := hs.after (same_readCells (Same.refl _))

/-! Pins. -/

theorem same_drivePair {s0 : State} {s : State} {p : Nat} {th : Bool} {tl : Bool} (hs : Same s0 s) :
    Same s0 (drivePair s p th tl) := by
  unfold drivePair
  try dsimp only
  repeat' first
    | with_reducible assumption
    | with_reducible refine Same.ite ?_ ?_
    | with_reducible refine same_updPair ?_

theorem same_refPair {s0 : State} {s : State} {p : Nat} {v : Bool} (hs : Same s0 s) :
    Same s0 (refPair s p v) := by
  unfold refPair
  try dsimp only
  repeat' first
    | with_reducible assumption
    | with_reducible refine Same.ite ?_ ?_
    | with_reducible refine same_updPair ?_
    | with_reducible refine same_drivePair ?_

theorem same_layer4Pair {s0 : State} {s : State} {p : Nat} {stays : Bool} (hs : Same s0 s) :
    Same s0 (layer4Pair s p stays) := by
  unfold layer4Pair
  try dsimp only
  repeat' first
    | with_reducible assumption
    | with_reducible refine Same.ite ?_ ?_
    | with_reducible refine same_drivePair ?_

theorem same_tripPair {s0 : State} {s : State} {p : Nat} {act : Nat} (hs : Same s0 s) :
    Same s0 (tripPair s p act) := by
  unfold tripPair
  try dsimp only
  repeat' first
    | with_reducible assumption
    | with_reducible refine Same.ite ?_ ?_
    | with_reducible refine same_updPair ?_

theorem same_takeLayer {s0 : State} {s : State} {p : Nat} {n : Nat} (hs : Same s0 s) :
    Same s0 (takeLayer s p n) := by
  unfold takeLayer
  try dsimp only
  repeat' first
    | with_reducible assumption
    | with_reducible refine Same.ite ?_ ?_
    | with_reducible refine same_updPair ?_
    | with_reducible refine same_drivePair ?_
    | with_reducible refine same_layer4Pair ?_
    | with_reducible refine same_tripPair ?_
    | with_reducible fail_if_no_progress refine Same.of ?_ rfl rfl rfl rfl rfl rfl rfl rfl rfl rfl rfl rfl rfl rfl rfl rfl rfl
    | split

theorem same_settlePair {s0 : State} {s : State} {p : Nat} (hs : Same s0 s) :
    Same s0 (settlePair s p) := by
  unfold settlePair
  try dsimp only
  repeat' first
    | with_reducible assumption
    | with_reducible refine Same.ite ?_ ?_
    | with_reducible refine same_takeLayer ?_

theorem same_settlePairs {s0 : State} {s : State} (hs : Same s0 s) :
    Same s0 (settlePairs s) := by
  unfold settlePairs
  try dsimp only
  repeat' first
    | with_reducible assumption
    | with_reducible refine Same.ite ?_ ?_
    | with_reducible refine same_settlePair ?_
    | with_reducible refine Same.forUpTo ?_ (fun _ _ _ => ?_)

theorem keeps_settlePairs {s0 : State} {s : State} (hs : Keeps s0 s) :
    Keeps s0 (settlePairs s) := hs.after (same_settlePairs (Same.refl _))

theorem same_periodPair {s0 : State} {s : State} {p : Nat} (hs : Same s0 s) :
    Same s0 (periodPair s p) := by
  unfold periodPair
  try dsimp only
  repeat' first
    | with_reducible assumption
    | with_reducible refine Same.ite ?_ ?_
    | with_reducible refine same_takeLayer ?_

/-! Escalation. -/

theorem same_safeEntry {s0 : State} {s : State} {d : Nat} {ss : Nat} {code : Nat} (hs : Same s0 s) :
    Same s0 (safeEntry s d ss code) := by
  unfold safeEntry
  try dsimp only
  repeat' first
    | with_reducible assumption
    | with_reducible refine Same.ite ?_ ?_
    | with_reducible refine same_record ?_
    | with_reducible fail_if_no_progress refine Same.of ?_ rfl rfl rfl rfl rfl rfl rfl rfl rfl rfl rfl rfl rfl rfl rfl rfl rfl

theorem same_orderRing {s0 : State} {r : Nat} {s : State} (hs : Same s0 s) :
    Same s0 (orderRing r s) := by
  unfold orderRing
  try dsimp only
  repeat' first
    | with_reducible assumption
    | with_reducible refine Same.ite ?_ ?_
    | with_reducible refine same_updRing ?_

theorem same_stopRegTimer {s0 : State} {s : State} {d : Nat} (hs : Same s0 s) :
    Same s0 (stopRegTimer s d) := by
  unfold stopRegTimer
  try dsimp only
  repeat' first
    | with_reducible assumption
    | with_reducible refine Same.ite ?_ ?_
    | with_reducible refine same_updRegn ?_

theorem same_enterRun {s0 : State} {d : Nat} {s : State} (hs : Same s0 s) :
    Same s0 (enterRun d s) := by
  unfold enterRun
  try dsimp only
  repeat' first
    | with_reducible assumption
    | with_reducible refine Same.ite ?_ ?_
    | with_reducible refine same_updDrive ?_
    | with_reducible refine same_updRing ?_
    | with_reducible refine same_updSrc ?_
    | with_reducible refine same_updRegn ?_
    | with_reducible refine same_stopRegTimer ?_
    | with_reducible refine Same.forEach ?_ (fun _ _ _ => ?_)

theorem same_setLatch {s0 : State} {s : State} {code : Nat} {idx : Nat} {resetOnly : Bool} (hs : Same s0 s) :
    Same s0 (setLatch s code idx resetOnly) := by
  unfold setLatch
  try dsimp only
  repeat' first
    | with_reducible assumption
    | with_reducible refine Same.ite ?_ ?_
    | with_reducible fail_if_no_progress refine Same.of ?_ rfl rfl rfl rfl rfl rfl rfl rfl rfl rfl rfl rfl rfl rfl rfl rfl rfl

theorem same_stopoutConsumes {s0 : State} {d : Nat} {s : State} (hs : Same s0 s) :
    Same s0 (stopoutConsumes d s) := by
  unfold stopoutConsumes
  try dsimp only
  repeat' first
    | with_reducible assumption
    | with_reducible refine Same.ite ?_ ?_
    | with_reducible refine same_updDrive ?_
    | with_reducible refine same_record ?_
    | with_reducible refine same_countBite ?_
    | with_reducible refine same_noteBite ?_
    | with_reducible refine same_setLatch ?_
    | with_reducible fail_if_no_progress refine Same.of ?_ rfl rfl rfl rfl rfl rfl rfl rfl rfl rfl rfl rfl rfl rfl rfl rfl rfl
    | split

theorem same_noteSpeeds {s0 : State} {s : State} (hs : Same s0 s) :
    Same s0 (noteSpeeds s) := by
  unfold noteSpeeds
  try dsimp only
  repeat' first
    | with_reducible assumption
    | with_reducible refine Same.ite ?_ ?_
    | with_reducible refine same_updDrive ?_
    | with_reducible refine Same.forUpTo ?_ (fun _ _ _ => ?_)

theorem same_placeDrive {s0 : State} {d : Nat} {ss : Nat} {code : Nat} {byEvent : Bool} {s : State} (hs : Same s0 s) :
    Same s0 (placeDrive d ss code byEvent s) := by
  unfold placeDrive
  try dsimp only
  repeat' first
    | with_reducible assumption
    | with_reducible refine Same.ite ?_ ?_
    | with_reducible refine same_updDrive ?_
    | with_reducible refine same_settlePair ?_
    | with_reducible refine same_safeEntry ?_
    | with_reducible refine same_orderRing ?_
    | with_reducible refine same_stopRegTimer ?_
    | with_reducible refine same_noteSpeeds ?_
    | with_reducible refine Same.forEach ?_ (fun _ _ _ => ?_)

theorem same_enterSafe {s0 : State} {ds : List Nat} {ss : Nat} {code : Nat} {s : State} (hs : Same s0 s) :
    Same s0 (enterSafe ds ss code s) := by
  unfold enterSafe
  try dsimp only
  repeat' first
    | with_reducible assumption
    | with_reducible refine Same.ite ?_ ?_
    | with_reducible refine same_setOp ?_
    | with_reducible refine same_readCells ?_
    | with_reducible refine same_settlePairs ?_
    | with_reducible refine same_stopoutConsumes ?_
    | with_reducible refine same_placeDrive ?_
    | with_reducible refine Same.forUpTo ?_ (fun _ _ _ => ?_)

theorem same_queueCell {s0 : State} {s : State} {t : CellType} {sub : Nat} {ws : List Word} (hs : Same s0 s) :
    Same s0 (queueCell s t sub ws) := by
  unfold queueCell
  try dsimp only
  repeat' first
    | with_reducible assumption
    | with_reducible refine Same.ite ?_ ?_
    | with_reducible fail_if_no_progress refine Same.of ?_ rfl rfl rfl rfl rfl rfl rfl rfl rfl rfl rfl rfl rfl rfl rfl rfl rfl

theorem same_setOwnN {s0 : State} {v : Bool} {s : State} (hs : Same s0 s) :
    Same s0 (setOwnN v s) := by
  unfold setOwnN
  try dsimp only
  repeat' first
    | with_reducible assumption
    | with_reducible refine Same.ite ?_ ?_
    | with_reducible fail_if_no_progress refine Same.of ?_ rfl rfl rfl rfl rfl rfl rfl rfl rfl rfl rfl rfl rfl rfl rfl rfl rfl

theorem same_handoverReact {s0 : State} {code : Nat} {s : State} (hs : Same s0 s) :
    Same s0 (handoverReact code s) := by
  unfold handoverReact
  try dsimp only
  repeat' first
    | with_reducible assumption
    | with_reducible refine Same.ite ?_ ?_
    | with_reducible refine same_enterSafe ?_
    | with_reducible refine same_queueCell ?_
    | with_reducible fail_if_no_progress refine Same.of ?_ rfl rfl rfl rfl rfl rfl rfl rfl rfl rfl rfl rfl rfl rfl rfl rfl rfl

theorem same_startStop {s0 : State} {d : Nat} {s : State} (hs : Same s0 s) :
    Same s0 (startStop d s) := by
  unfold startStop
  try dsimp only
  repeat' first
    | with_reducible assumption
    | with_reducible refine Same.ite ?_ ?_
    | with_reducible refine same_updDrive ?_

theorem same_applyReaction {s0 : State} {r : Reaction} {code : Nat} {idx : Nat} {s : State} (hs : Same s0 s) :
    Same s0 (applyReaction r code idx s) := by
  unfold applyReaction
  try dsimp only
  repeat' first
    | with_reducible assumption
    | with_reducible refine Same.ite ?_ ?_
    | with_reducible refine same_updDrive ?_
    | with_reducible refine same_setLatch ?_
    | with_reducible refine same_enterSafe ?_
    | with_reducible refine same_handoverReact ?_
    | with_reducible refine same_startStop ?_
    | with_reducible refine Same.forUpTo ?_ (fun _ _ _ => ?_)
    | with_reducible fail_if_no_progress refine Same.of ?_ rfl rfl rfl rfl rfl rfl rfl rfl rfl rfl rfl rfl rfl rfl rfl rfl rfl
    | split

theorem same_raiseWith {s0 : State} {s : State} {r : Reaction} {code : Nat} {idx : Nat} {args : List Word} (hs : Same s0 s) :
    Same s0 (raiseWith s r code idx args) := by
  unfold raiseWith
  try dsimp only
  repeat' first
    | with_reducible assumption
    | with_reducible refine Same.ite ?_ ?_
    | with_reducible refine same_record ?_
    | with_reducible refine same_applyReaction ?_

theorem same_raise {s0 : State} {s : State} {code : Nat} {idx : Nat} {args : List Word} (hs : Same s0 s) :
    Same s0 (raise s code idx args) := by
  unfold raise
  try dsimp only
  repeat' first
    | with_reducible assumption
    | with_reducible refine Same.ite ?_ ?_
    | with_reducible refine same_raiseWith ?_

theorem same_consume {s0 : State} {s : State} {u : Nat} {a : Nat} {m : Mark} (hs : Same s0 s) :
    Same s0 (consume s u a m) := by
  unfold consume
  try dsimp only
  repeat' first
    | with_reducible assumption
    | with_reducible refine Same.ite ?_ ?_
    | with_reducible refine same_countBite ?_
    | with_reducible refine same_noteBite ?_
    | with_reducible refine same_raise ?_

theorem keeps_consume {s0 : State} {s : State} {u : Nat} {a : Nat} {m : Mark} (hs : Keeps s0 s) :
    Keeps s0 (consume s u a m) := hs.after (same_consume (Same.refl _))

theorem same_handoverDone {s0 : State} {s : State} (hs : Same s0 s) :
    Same s0 (handoverDone s) := by
  unfold handoverDone
  try dsimp only
  repeat' first
    | with_reducible assumption
    | with_reducible refine Same.ite ?_ ?_
    | with_reducible refine same_parCount ?_
    | with_reducible refine same_record ?_
    | with_reducible refine same_queueCell ?_
    | with_reducible fail_if_no_progress refine Same.of ?_ rfl rfl rfl rfl rfl rfl rfl rfl rfl rfl rfl rfl rfl rfl rfl rfl rfl

theorem same_leaveRun {s0 : State} {s : State} (hs : Same s0 s) :
    Same s0 (leaveRun s) := by
  unfold leaveRun
  try dsimp only
  repeat' first
    | with_reducible assumption
    | with_reducible refine Same.ite ?_ ?_
    | with_reducible refine same_setOp ?_

theorem same_endStop {s0 : State} {d : Nat} {s : State} (hs : Same s0 s) :
    Same s0 (endStop d s) := by
  unfold endStop
  try dsimp only
  repeat' first
    | with_reducible assumption
    | with_reducible refine Same.ite ?_ ?_
    | with_reducible refine same_updDrive ?_
    | with_reducible refine same_updRing ?_
    | with_reducible refine same_record ?_
    | with_reducible refine same_periodPair ?_
    | with_reducible refine same_stopRegTimer ?_
    | with_reducible refine same_leaveRun ?_
    | with_reducible refine Same.forEach ?_ (fun _ _ _ => ?_)

theorem same_endSafe {s0 : State} {d : Nat} {s : State} (hs : Same s0 s) :
    Same s0 (endSafe d s) := by
  unfold endSafe
  try dsimp only
  repeat' first
    | with_reducible assumption
    | with_reducible refine Same.ite ?_ ?_
    | with_reducible refine same_updDrive ?_
    | with_reducible refine same_periodPair ?_
    | with_reducible refine Same.forEach ?_ (fun _ _ _ => ?_)

theorem same_drivePeriod {s0 : State} {d : Nat} {s : State} (hs : Same s0 s) :
    Same s0 (drivePeriod d s) := by
  unfold drivePeriod
  try dsimp only
  repeat' first
    | with_reducible assumption
    | with_reducible refine Same.ite ?_ ?_
    | with_reducible refine same_endStop ?_
    | with_reducible refine same_endSafe ?_

/-! Replies. -/

theorem same_postMessage {s0 : State} {s : State} {n : Nat} {ws : List Word} (hs : Same s0 s) :
    Same s0 (postMessage s n ws) := by
  unfold postMessage
  try dsimp only
  repeat' first
    | with_reducible assumption
    | with_reducible refine Same.ite ?_ ?_
    | with_reducible fail_if_no_progress refine Same.of ?_ rfl rfl rfl rfl rfl rfl rfl rfl rfl rfl rfl rfl rfl rfl rfl rfl rfl

theorem keeps_postMessage {s0 : State} {s : State} {n : Nat} {ws : List Word} (hs : Keeps s0 s) :
    Keeps s0 (postMessage s n ws) := hs.after (same_postMessage (Same.refl _))

theorem same_completeTag {s0 : State} {tag : Nat} {status : Nat} {ws : List Word} {s : State} (hs : Same s0 s) :
    Same s0 (completeTag tag status ws s) := by
  unfold completeTag
  try dsimp only
  repeat' first
    | with_reducible assumption
    | with_reducible refine Same.ite ?_ ?_
    | with_reducible refine same_postMessage ?_
    | with_reducible fail_if_no_progress refine Same.of ?_ rfl rfl rfl rfl rfl rfl rfl rfl rfl rfl rfl rfl rfl rfl rfl rfl rfl
    | split

theorem keeps_completeTag {s0 : State} {tag : Nat} {status : Nat} {ws : List Word} {s : State} (hs : Keeps s0 s) :
    Keeps s0 (completeTag tag status ws s) := hs.after (same_completeTag (Same.refl _))

theorem same_settle {s0 : State} {tag : Nat} {r : CmdRes} (hr : SameR s0 r) :
    Same s0 (settle tag r) := by
  unfold settle
  try dsimp only
  repeat' first
    | with_reducible assumption
    | with_reducible refine Same.ite ?_ ?_
    | with_reducible refine SameR.ite ?_ ?_
    | with_reducible refine SameR.done ?_
    | with_reducible refine SameR.wait ?_
    | with_reducible refine same_completeTag ?_
    | with_reducible fail_if_no_progress refine Same.of ?_ rfl rfl rfl rfl rfl rfl rfl rfl rfl rfl rfl rfl rfl rfl rfl rfl rfl
    | refine hr 
    | split

theorem keeps_settle {s0 : State} {tag : Nat} {r : CmdRes} (hr : KeepsR s0 r) :
    Keeps s0 (settle tag r) := by
  unfold settle
  try dsimp only
  repeat' first
    | with_reducible assumption
    | with_reducible refine Keeps.ite ?_ ?_
    | with_reducible refine KeepsR.ite ?_ ?_
    | with_reducible refine KeepsR.done ?_
    | with_reducible refine KeepsR.wait ?_
    | with_reducible refine keeps_completeTag ?_
    | with_reducible fail_if_no_progress refine Keeps.of ?_ rfl rfl rfl rfl rfl rfl rfl rfl rfl rfl rfl rfl rfl rfl rfl rfl rfl
    | refine hr 
    | split

end Sys2Proof.Laws
end

