-- ==== Sys2Proof/Laws/KeepMemory.lean ====
section
/-!
SUPPORT. What memory, the Plate pair and the hand-over keep (Laws/Frame.lean): one lemma for each operation and each meaning.
-/
namespace Sys2Proof.Laws
open Sys2Proof.Machine Sys2Proof.Safety

/-! Memory. -/

theorem same_mramRefuse {s0 : State} {s : State} (hs : Same s0 s) :
    Same s0 (mramRefuse s) := by
  unfold mramRefuse
  try dsimp only
  repeat' first
    | with_reducible assumption
    | with_reducible refine Same.ite ?_ ?_
    | with_reducible refine same_parCount ?_
    | with_reducible refine same_raise ?_

theorem keeps_mramRefuse {s0 : State} {s : State} (hs : Keeps s0 s) :
    Keeps s0 (mramRefuse s) := hs.after (same_mramRefuse (Same.refl _))

theorem same_setBlock {s0 : State} {s : State} {b : Nat} (hs : Same s0 s) :
    Same s0 (setBlock s b) := by
  unfold setBlock
  try dsimp only
  repeat' first
    | with_reducible assumption
    | with_reducible refine Same.ite ?_ ?_
    | with_reducible refine same_setMark ?_
    | with_reducible refine same_setErr ?_
    | with_reducible refine Same.forUpTo ?_ (fun _ _ _ => ?_)
    | with_reducible fail_if_no_progress refine Same.of ?_ rfl rfl rfl rfl rfl rfl rfl rfl rfl rfl rfl rfl rfl rfl rfl rfl rfl

theorem keeps_setBlock {s0 : State} {s : State} {b : Nat} (hs : Keeps s0 s) :
    Keeps s0 (setBlock s b) := hs.after (same_setBlock (Same.refl _))

theorem keeps_storeWord {s0 : State} {a : Nat} {w : Word} {s : State} (hs : Keeps s0 s) :
    Keeps s0 (storeWord a w s) := by
  unfold storeWord
  try dsimp only
  repeat' first
    | with_reducible assumption
    | with_reducible refine Keeps.ite ?_ ?_
    | with_reducible refine keeps_writeWord ?_
    | with_reducible refine keeps_mapRead ?_
    | with_reducible refine keeps_setBlock ?_
    | with_reducible fail_if_no_progress refine Keeps.of ?_ rfl rfl rfl rfl rfl rfl rfl rfl rfl rfl rfl rfl rfl rfl rfl rfl rfl

theorem keeps_storeWords {s0 : State} {ws : List Word} : ∀ {a : Nat} {s : State}, Keeps s0 s → Keeps s0 (storeWords a ws s) := by
  induction ws with
  | nil =>
    intro _ s hs
    unfold storeWords
    try dsimp only
    repeat' first
      | with_reducible assumption
  | cons _ _ ih =>
    intro _ s hs
    unfold storeWords
    try dsimp only
    repeat' first
      | with_reducible assumption
      | with_reducible refine Keeps.ite ?_ ?_
      | with_reducible refine ih ?_
      | with_reducible refine keeps_storeWord ?_

theorem keeps_storeRange {s0 : State} {a : Nat} {ws : List Word} {s : State} (hs : Keeps s0 s) :
    Keeps s0 (storeRange a ws s) := by
  unfold storeRange
  try dsimp only
  repeat' first
    | with_reducible assumption
    | with_reducible refine Keeps.ite ?_ ?_
    | with_reducible refine keeps_freshWords ?_
    | with_reducible refine keeps_setErr ?_
    | with_reducible refine keeps_demandRead ?_
    | with_reducible refine keeps_storeWords ?_

theorem same_nvSet {s0 : State} {s : State} {u : Nat} {i : Nat} {v : Word} (hs : Same s0 s) :
    Same s0 (nvSet s u i v) := by
  unfold nvSet
  try dsimp only
  repeat' first
    | with_reducible assumption
    | (constructor <;> first | exact h.drives | exact h.par | exact h.nv | exact h.tbs | exact h.pairs | exact h.rings | exact h.dir | exact h.srcs | exact h.cmps | exact h.emus | exact h.seqs | exact h.slices | exact h.ctxs | exact h.regs | exact h.caps | exact rising_set h.drives _ _ _ | exact rising_set h.par _ _ _ | exact rising_set h.nv _ _ _ | exact rising_set h.tbs _ _ _ | exact rising_set h.pairs _ _ _ | exact rising_set h.rings _ _ _ | exact rising_set h.dir _ _ _ | exact rising_set h.srcs _ _ _ | exact rising_set h.cmps _ _ _ | exact rising_set h.emus _ _ _ | exact rising_set h.seqs _ _ _ | exact rising_set h.slices _ _ _ | exact rising_set h.ctxs _ _ _ | exact rising_set h.regs _ _ _ | exact rising_set h.caps _ _ _ | exact rising_filter h.par _ | exact rising_filter h.nv _ | exact rising_map h.rings (fun _ => rfl) | exact rising_map h.slices (fun _ => rfl) | exact rising_map h.ctxs (fun _ => rfl) | exact rising_map h.seqs (fun _ => rfl) | exact rising_nil)
    | with_reducible refine Same.ite ?_ ?_
    | with_reducible fail_if_no_progress refine Same.of ?_ rfl rfl rfl rfl rfl rfl rfl rfl rfl rfl rfl rfl rfl rfl rfl rfl rfl
    | split
    | with_reducible refine Same.ofTables ?_ rfl rfl (fun h => ?_)

theorem keeps_nvSet {s0 : State} {s : State} {u : Nat} {i : Nat} {v : Word} (hs : Keeps s0 s) :
    Keeps s0 (nvSet s u i v) := hs.after (same_nvSet (Same.refl _))

theorem same_touchSlot {s0 : State} {a : Nat} {s : State} (hs : Same s0 s) :
    Same s0 (touchSlot a s) := by
  unfold touchSlot
  try dsimp only
  repeat' first
    | with_reducible assumption
    | with_reducible refine Same.ite ?_ ?_
    | with_reducible refine same_nvSet ?_
    | with_reducible fail_if_no_progress refine Same.of ?_ rfl rfl rfl rfl rfl rfl rfl rfl rfl rfl rfl rfl rfl rfl rfl rfl rfl

theorem keeps_touchSlot {s0 : State} {a : Nat} {s : State} (hs : Keeps s0 s) :
    Keeps s0 (touchSlot a s) := hs.after (same_touchSlot (Same.refl _))

theorem keeps_landStore {s0 : State} {a : Nat} {v : Word} {enables : Nat} {mark : Mark} {s : State} (hs : Keeps s0 s) :
    Keeps s0 (landStore a v enables mark s) := by
  unfold landStore
  try dsimp only
  repeat' first
    | with_reducible assumption
    | with_reducible refine Keeps.ite ?_ ?_
    | with_reducible refine keeps_setMark ?_
    | with_reducible refine keeps_demandRead ?_
    | with_reducible refine keeps_mramRefuse ?_
    | with_reducible refine keeps_storeRange ?_
    | with_reducible refine keeps_touchSlot ?_

theorem same_issueOne {s0 : State} {x : Nat} {s : State} (hs : Same s0 s) :
    Same s0 (issueOne x s) := by
  unfold issueOne
  try dsimp only
  repeat' first
    | with_reducible assumption
    | with_reducible refine Same.ite ?_ ?_
    | with_reducible fail_if_no_progress refine Same.of ?_ rfl rfl rfl rfl rfl rfl rfl rfl rfl rfl rfl rfl rfl rfl rfl rfl rfl

theorem same_lpIssue {s0 : State} {fuel : Nat} : ∀ {s : State}, Same s0 s → Same s0 (lpIssue fuel s) := by
  induction fuel with
  | zero =>
    intro s hs
    unfold lpIssue
    try dsimp only
    repeat' first
      | with_reducible assumption
  | succ _ ih =>
    intro s hs
    unfold lpIssue
    try dsimp only
    repeat' first
      | with_reducible assumption
      | with_reducible refine Same.ite ?_ ?_
      | with_reducible refine ih ?_
      | with_reducible refine same_issueOne ?_
      | with_reducible fail_if_no_progress refine Same.of ?_ rfl rfl rfl rfl rfl rfl rfl rfl rfl rfl rfl rfl rfl rfl rfl rfl rfl
      | split

theorem keeps_lpIssue {s0 : State} {fuel : Nat} {s : State} (hs : Keeps s0 s) :
    Keeps s0 (lpIssue fuel s) := hs.after (same_lpIssue (Same.refl _))

theorem keeps_captureLand {s0 : State} {b : Nat} {rcd : BitVec 64} {s : State} (hs : Keeps s0 s) :
    Keeps s0 (captureLand b rcd s) := by
  unfold captureLand
  try dsimp only
  repeat' first
    | with_reducible assumption
    | with_reducible refine Keeps.ite ?_ ?_
    | with_reducible refine keeps_updCap ?_
    | with_reducible refine keeps_storeRange ?_

theorem keeps_captureTake {s0 : State} {inp : Nat} {res : Word} {sample : Nat} {b : Nat} {s : State} (hs : Keeps s0 s) :
    Keeps s0 (captureTake inp res sample b s) := by
  unfold captureTake
  try dsimp only
  repeat' first
    | with_reducible assumption
    | with_reducible refine Keeps.ite ?_ ?_
    | with_reducible refine keeps_updCap ?_
    | with_reducible refine keeps_lpIssue ?_
    | with_reducible refine keeps_captureLand ?_

theorem keeps_captureAll {s0 : State} {inp : Nat} {res : Word} {sample : Nat} {s : State} (hs : Keeps s0 s) :
    Keeps s0 (captureAll inp res sample s) := by
  unfold captureAll
  try dsimp only
  repeat' first
    | with_reducible assumption
    | with_reducible refine Keeps.ite ?_ ?_
    | with_reducible refine keeps_captureTake ?_
    | with_reducible refine Keeps.forUpTo ?_ (fun _ _ _ => ?_)

theorem same_captureEnd {s0 : State} {b : Nat} {s : State} (hs : Same s0 s) :
    Same s0 (captureEnd b s) := by
  unfold captureEnd
  try dsimp only
  repeat' first
    | with_reducible assumption
    | with_reducible refine Same.ite ?_ ?_
    | with_reducible refine same_updCap ?_
    | with_reducible refine same_recordUntested ?_

theorem keeps_captureEnd {s0 : State} {b : Nat} {s : State} (hs : Keeps s0 s) :
    Keeps s0 (captureEnd b s) := hs.after (same_captureEnd (Same.refl _))

theorem same_hostRead {s0 : State} {n : Nat} : ∀ {a : Nat} {s : State}, Same s0 s → Same s0 (hostRead n a s).1 := by
  induction n with
  | zero =>
    intro _ s hs
    unfold hostRead
    try dsimp only
    repeat' first
      | with_reducible assumption
  | succ _ ih =>
    intro _ s hs
    unfold hostRead
    try dsimp only
    repeat' first
      | with_reducible assumption
      | with_reducible refine Same.ite ?_ ?_
      | with_reducible refine ih ?_
      | with_reducible refine same_demandRead ?_

theorem same_lpNote {s0 : State} {s : State} {a : Nat} (hs : Same s0 s) :
    Same s0 (lpNote s a) := by
  unfold lpNote
  try dsimp only
  repeat' first
    | with_reducible assumption
    | with_reducible refine Same.ite ?_ ?_
    | with_reducible fail_if_no_progress refine Same.of ?_ rfl rfl rfl rfl rfl rfl rfl rfl rfl rfl rfl rfl rfl rfl rfl rfl rfl

theorem keeps_lpNote {s0 : State} {s : State} {a : Nat} (hs : Keeps s0 s) :
    Keeps s0 (lpNote s a) := hs.after (same_lpNote (Same.refl _))

theorem same_bodyMemRead {s0 : State} {tag : Nat} {ws : List Word} {s : State} (hs : Same s0 s) :
    SameR s0 (bodyMemRead tag ws s) := by
  unfold bodyMemRead
  try dsimp only
  repeat' first
    | with_reducible assumption
    | with_reducible refine Same.ite ?_ ?_
    | with_reducible refine SameR.ite ?_ ?_
    | with_reducible refine SameR.done ?_
    | with_reducible refine SameR.wait ?_
    | with_reducible refine same_checked ?_ ?_
    | with_reducible refine same_hostRead ?_
    | with_reducible refine same_lpNote ?_
    | with_reducible fail_if_no_progress refine Same.of ?_ rfl rfl rfl rfl rfl rfl rfl rfl rfl rfl rfl rfl rfl rfl rfl rfl rfl

theorem keeps_bodyMemRead {s0 : State} {tag : Nat} {ws : List Word} {s : State} (hs : Keeps s0 s) :
    KeepsR s0 (bodyMemRead tag ws s) := KeepsR.after hs (same_bodyMemRead (Same.refl _))

theorem keeps_bodyMemWrite {s0 : State} {tag : Nat} {ws : List Word} {s : State} (hs : Keeps s0 s) :
    KeepsR s0 (bodyMemWrite tag ws s) := by
  unfold bodyMemWrite
  try dsimp only
  repeat' first
    | with_reducible assumption
    | with_reducible refine Keeps.ite ?_ ?_
    | with_reducible refine KeepsR.ite ?_ ?_
    | with_reducible refine KeepsR.done ?_
    | with_reducible refine KeepsR.wait ?_
    | with_reducible refine keeps_checked ?_ ?_
    | with_reducible refine keeps_storeRange ?_
    | with_reducible refine keeps_lpNote ?_
    | with_reducible fail_if_no_progress refine Keeps.of ?_ rfl rfl rfl rfl rfl rfl rfl rfl rfl rfl rfl rfl rfl rfl rfl rfl rfl

theorem keeps_releaseStore {s0 : State} {x : Nat × Word × Nat × Mark} {s : State} (hs : Keeps s0 s) :
    Keeps s0 (releaseStore x s) := by
  unfold releaseStore
  try dsimp only
  repeat' first
    | with_reducible assumption
    | with_reducible refine Keeps.ite ?_ ?_
    | with_reducible refine keeps_landStore ?_
    | with_reducible refine keeps_lpNote ?_
    | with_reducible fail_if_no_progress refine Keeps.of ?_ rfl rfl rfl rfl rfl rfl rfl rfl rfl rfl rfl rfl rfl rfl rfl rfl rfl

theorem keeps_serveWaits {s0 : State} {s : State} (hs : Keeps s0 s) :
    Keeps s0 (serveWaits s) := by
  unfold serveWaits
  try dsimp only
  repeat' first
    | with_reducible assumption
    | with_reducible refine Keeps.ite ?_ ?_
    | with_reducible refine KeepsR.ite ?_ ?_
    | with_reducible refine KeepsR.done ?_
    | with_reducible refine KeepsR.wait ?_
    | with_reducible refine keeps_settle ?_
    | with_reducible refine keeps_bodyMemRead ?_
    | with_reducible refine keeps_bodyMemWrite ?_
    | with_reducible refine keeps_releaseStore ?_
    | with_reducible refine Keeps.forEach ?_ (fun _ _ _ => ?_)
    | with_reducible fail_if_no_progress refine Keeps.of ?_ rfl rfl rfl rfl rfl rfl rfl rfl rfl rfl rfl rfl rfl rfl rfl rfl rfl

theorem keeps_captureFlush {s0 : State} {b : Nat} {s : State} (hs : Keeps s0 s) :
    Keeps s0 (captureFlush b s) := by
  unfold captureFlush
  try dsimp only
  repeat' first
    | with_reducible assumption
    | with_reducible refine Keeps.ite ?_ ?_
    | with_reducible refine keeps_captureLand ?_
    | with_reducible refine Keeps.forEach ?_ (fun _ _ _ => ?_)
    | with_reducible fail_if_no_progress refine Keeps.of ?_ rfl rfl rfl rfl rfl rfl rfl rfl rfl rfl rfl rfl rfl rfl rfl rfl rfl

theorem keeps_bodyCaptureArm {s0 : State} {ws : List Word} {s : State} (hs : Keeps s0 s) :
    KeepsR s0 (bodyCaptureArm ws s) := by
  unfold bodyCaptureArm
  try dsimp only
  repeat' first
    | with_reducible assumption
    | with_reducible refine Keeps.ite ?_ ?_
    | with_reducible refine KeepsR.ite ?_ ?_
    | with_reducible refine KeepsR.done ?_
    | with_reducible refine KeepsR.wait ?_
    | with_reducible refine keeps_updCap ?_
    | with_reducible refine keeps_checked ?_ ?_
    | with_reducible refine keeps_captureEnd ?_
    | with_reducible refine keeps_captureFlush ?_

theorem same_bodyScrubStatus {s0 : State} {_ws : List Word} {s : State} (hs : Same s0 s) :
    SameR s0 (bodyScrubStatus _ws s) := by
  unfold bodyScrubStatus
  try dsimp only
  repeat' first
    | with_reducible assumption
    | with_reducible refine Same.ite ?_ ?_
    | with_reducible refine SameR.ite ?_ ?_
    | with_reducible refine SameR.done ?_

theorem same_write0A {s0 : State} {s : State} {i : Nat} {v : Word} (hs : Same s0 s) :
    Same s0 (write0A s i v) := by
  unfold write0A
  try dsimp only
  repeat' first
    | with_reducible assumption
    | with_reducible refine Same.ite ?_ ?_
    | with_reducible refine same_updCap ?_
    | with_reducible refine same_parSet ?_
    | with_reducible refine same_mramRefuse ?_
    | with_reducible refine same_nvSet ?_

theorem keeps_write0A {s0 : State} {s : State} {i : Nat} {v : Word} (hs : Keeps s0 s) :
    Keeps s0 (write0A s i v) := hs.after (same_write0A (Same.refl _))

theorem same_captureStopHi {s0 : State} {b : Nat} {s : State} (hs : Same s0 s) :
    Same s0 (captureStopHi b s) := by
  unfold captureStopHi
  try dsimp only
  repeat' first
    | with_reducible assumption
    | with_reducible refine Same.ite ?_ ?_
    | with_reducible refine same_parSet ?_

theorem same_lapEnd {s0 : State} {k : Nat} {s : State} (hs : Same s0 s) :
    Same s0 (lapEnd k s) := by
  unfold lapEnd
  try dsimp only
  repeat' first
    | with_reducible assumption
    | with_reducible refine Same.ite ?_ ?_
    | with_reducible refine same_parSet ?_
    | with_reducible refine same_parOr ?_
    | with_reducible refine same_recordUntested ?_
    | with_reducible fail_if_no_progress refine Same.of ?_ rfl rfl rfl rfl rfl rfl rfl rfl rfl rfl rfl rfl rfl rfl rfl rfl rfl

theorem same_strike {s0 : State} {upsets : List (Nat × Bool)} {s : State} (hs : Same s0 s) :
    Same s0 (strike upsets s) := by
  unfold strike
  try dsimp only
  repeat' first
    | with_reducible assumption
    | with_reducible refine Same.ite ?_ ?_
    | with_reducible refine same_setErr ?_
    | with_reducible refine Same.forEach ?_ (fun _ _ _ => ?_)

theorem same_execScrubStep {s0 : State} {mem : Nat} {upsets : List (Nat × Bool)} {raced : Bool} {s : State} (hs : Same s0 s) :
    ∃ v0, execScrubStep mem upsets raced s = .next v0 ∧ Same s0 v0 := by
  refine ⟨_, rfl, ?_⟩
  try dsimp only
  repeat' first
    | with_reducible assumption
    | with_reducible refine Same.ite ?_ ?_
    | with_reducible refine same_eccRead ?_
    | with_reducible refine same_lapEnd ?_
    | with_reducible refine same_strike ?_
    | with_reducible fail_if_no_progress refine Same.of ?_ rfl rfl rfl rfl rfl rfl rfl rfl rfl rfl rfl rfl rfl rfl rfl rfl rfl
    | split

theorem same_lpFault {s0 : State} {cause : Nat} {s : State} (hs : Same s0 s) :
    Same s0 (lpFault cause s) := by
  unfold lpFault
  try dsimp only
  repeat' first
    | with_reducible assumption
    | with_reducible refine Same.ite ?_ ?_
    | with_reducible refine same_raise ?_
    | with_reducible fail_if_no_progress refine Same.of ?_ rfl rfl rfl rfl rfl rfl rfl rfl rfl rfl rfl rfl rfl rfl rfl rfl rfl

theorem keeps_lpFault {s0 : State} {cause : Nat} {s : State} (hs : Keeps s0 s) :
    Keeps s0 (lpFault cause s) := hs.after (same_lpFault (Same.refl _))

theorem same_execLpddr5Training {s0 : State} {ok : Bool} {density : Nat} {ranks : Nat} {s : State} (hs : Same s0 s) :
    ∃ v0, execLpddr5Training ok density ranks s = .next v0 ∧ Same s0 v0 := by
  refine ⟨_, rfl, ?_⟩
  try dsimp only
  repeat' first
    | with_reducible assumption
    | with_reducible refine Same.ite ?_ ?_
    | with_reducible refine same_lpFault ?_
    | with_reducible fail_if_no_progress refine Same.of ?_ rfl rfl rfl rfl rfl rfl rfl rfl rfl rfl rfl rfl rfl rfl rfl rfl rfl

theorem same_execMr4Poll {s0 : State} {mult : Nat} {hot : Bool} {s : State} (hs : Same s0 s) :
    ∃ v0, execMr4Poll mult hot s = .next v0 ∧ Same s0 v0 := by
  refine ⟨_, rfl, ?_⟩
  try dsimp only
  repeat' first
    | with_reducible assumption
    | with_reducible refine Same.ite ?_ ?_
    | with_reducible refine same_lpFault ?_
    | with_reducible fail_if_no_progress refine Same.of ?_ rfl rfl rfl rfl rfl rfl rfl rfl rfl rfl rfl rfl rfl rfl rfl rfl rfl

theorem same_execLpddr5Refresh {s0 : State} {bank : Nat} {s : State} (hs : Same s0 s) :
    ∃ v0, execLpddr5Refresh bank s = .next v0 ∧ Same s0 v0 := by
  refine ⟨_, rfl, ?_⟩
  try dsimp only
  repeat' first
    | with_reducible assumption
    | with_reducible refine Same.ite ?_ ?_
    | with_reducible fail_if_no_progress refine Same.of ?_ rfl rfl rfl rfl rfl rfl rfl rfl rfl rfl rfl rfl rfl rfl rfl rfl rfl

theorem keeps_execLpddr5Relock {s0 : State} {s : State} (hs : Keeps s0 s) :
    ∃ v0, execLpddr5Relock s = .next v0 ∧ Keeps s0 v0 := by
  refine ⟨_, rfl, ?_⟩
  try dsimp only
  repeat' first
    | with_reducible assumption
    | with_reducible refine Keeps.ite ?_ ?_
    | with_reducible refine keeps_lpIssue ?_
    | with_reducible refine keeps_serveWaits ?_
    | with_reducible fail_if_no_progress refine Keeps.of ?_ rfl rfl rfl rfl rfl rfl rfl rfl rfl rfl rfl rfl rfl rfl rfl rfl rfl

theorem keeps_execBlockFillDone {s0 : State} {block : Nat} {s : State} (hs : Keeps s0 s) :
    ∃ v0, execBlockFillDone block s = .next v0 ∧ Keeps s0 v0 := by
  refine ⟨_, rfl, ?_⟩
  try dsimp only
  repeat' first
    | with_reducible assumption
    | (constructor <;> first | exact h.drives | exact h.par | exact h.nv | exact h.tbs | exact h.pairs | exact h.rings | exact h.dir | exact h.srcs | exact h.cmps | exact h.emus | exact h.seqs | exact h.slices | exact h.ctxs | exact h.regs | exact h.caps | exact rising_set h.drives _ _ _ | exact rising_set h.par _ _ _ | exact rising_set h.nv _ _ _ | exact rising_set h.tbs _ _ _ | exact rising_set h.pairs _ _ _ | exact rising_set h.rings _ _ _ | exact rising_set h.dir _ _ _ | exact rising_set h.srcs _ _ _ | exact rising_set h.cmps _ _ _ | exact rising_set h.emus _ _ _ | exact rising_set h.seqs _ _ _ | exact rising_set h.slices _ _ _ | exact rising_set h.ctxs _ _ _ | exact rising_set h.regs _ _ _ | exact rising_set h.caps _ _ _ | exact rising_filter h.par _ | exact rising_filter h.nv _ | exact rising_map h.rings (fun _ => rfl) | exact rising_map h.slices (fun _ => rfl) | exact rising_map h.ctxs (fun _ => rfl) | exact rising_map h.seqs (fun _ => rfl) | exact rising_nil)
    | with_reducible refine Keeps.ite ?_ ?_
    | with_reducible refine keeps_freshWords ?_
    | with_reducible refine keeps_writeWord ?_
    | with_reducible refine keeps_setBlock ?_
    | with_reducible refine keeps_serveWaits ?_
    | with_reducible refine Keeps.forEach ?_ (fun _ _ _ => ?_)
    | with_reducible fail_if_no_progress refine Keeps.of ?_ rfl rfl rfl rfl rfl rfl rfl rfl rfl rfl rfl rfl rfl rfl rfl rfl rfl
    | with_reducible refine Keeps.filter ?_ rfl rfl (fun h => ?_)
    | split

theorem same_execCaptureStop {s0 : State} {buf : Nat} {s : State} (hs : Same s0 s) :
    ∃ v0, execCaptureStop buf s = .next v0 ∧ Same s0 v0 := by
  refine ⟨_, rfl, ?_⟩
  try dsimp only
  repeat' first
    | with_reducible assumption
    | with_reducible refine Same.ite ?_ ?_
    | with_reducible refine same_captureEnd ?_

/-! Plate. -/

theorem same_updPlate {s0 : State} {s : State} {f : Plate → Plate} (hs : Same s0 s) :
    Same s0 (updPlate s f) := by
  unfold updPlate
  try dsimp only
  repeat' first
    | with_reducible assumption
    | with_reducible refine Same.ite ?_ ?_
    | with_reducible fail_if_no_progress refine Same.of ?_ rfl rfl rfl rfl rfl rfl rfl rfl rfl rfl rfl rfl rfl rfl rfl rfl rfl

theorem keeps_updPlate {s0 : State} {s : State} {f : Plate → Plate} (hs : Keeps s0 s) :
    Keeps s0 (updPlate s f) := hs.after (same_updPlate (Same.refl _))

theorem same_dropTags {s0 : State} {s : State} (hs : Same s0 s) :
    Same s0 (dropTags s) := by
  unfold dropTags
  try dsimp only
  repeat' first
    | with_reducible assumption
    | (constructor <;> first | exact h.drives | exact h.par | exact h.nv | exact h.tbs | exact h.pairs | exact h.rings | exact h.dir | exact h.srcs | exact h.cmps | exact h.emus | exact h.seqs | exact h.slices | exact h.ctxs | exact h.regs | exact h.caps | exact rising_set h.drives _ _ _ | exact rising_set h.par _ _ _ | exact rising_set h.nv _ _ _ | exact rising_set h.tbs _ _ _ | exact rising_set h.pairs _ _ _ | exact rising_set h.rings _ _ _ | exact rising_set h.dir _ _ _ | exact rising_set h.srcs _ _ _ | exact rising_set h.cmps _ _ _ | exact rising_set h.emus _ _ _ | exact rising_set h.seqs _ _ _ | exact rising_set h.slices _ _ _ | exact rising_set h.ctxs _ _ _ | exact rising_set h.regs _ _ _ | exact rising_set h.caps _ _ _ | exact rising_filter h.par _ | exact rising_filter h.nv _ | exact rising_map h.rings (fun _ => rfl) | exact rising_map h.slices (fun _ => rfl) | exact rising_map h.ctxs (fun _ => rfl) | exact rising_map h.seqs (fun _ => rfl) | exact rising_nil)
    | with_reducible refine Same.ite ?_ ?_
    | with_reducible fail_if_no_progress refine Same.of ?_ rfl rfl rfl rfl rfl rfl rfl rfl rfl rfl rfl rfl rfl rfl rfl rfl rfl
    | split
    | with_reducible refine Same.ofTables ?_ rfl rfl (fun h => ?_)

theorem same_folioReset {s0 : State} {s : State} (hs : Same s0 s) :
    Same s0 (folioReset s) := by
  unfold folioReset
  try dsimp only
  repeat' first
    | with_reducible assumption
    | with_reducible refine Same.ite ?_ ?_
    | with_reducible refine same_parClearUnit ?_
    | with_reducible refine same_dropTags ?_
    | with_reducible fail_if_no_progress refine Same.of ?_ rfl rfl rfl rfl rfl rfl rfl rfl rfl rfl rfl rfl rfl rfl rfl rfl rfl

theorem keeps_folioReset {s0 : State} {s : State} (hs : Keeps s0 s) :
    Keeps s0 (folioReset s) := hs.after (same_folioReset (Same.refl _))

theorem same_plateReset {s0 : State} {kept : Bool} {s : State} (hs : Same s0 s) :
    Same s0 (plateReset kept s) := by
  unfold plateReset
  try dsimp only
  repeat' first
    | with_reducible assumption
    | with_reducible refine Same.ite ?_ ?_
    | with_reducible refine same_parSet ?_
    | with_reducible refine same_parClearUnit ?_
    | with_reducible refine same_updPlate ?_
    | with_reducible refine Same.foldl ?_ (fun _ _ _ => ?_)

theorem keeps_loadImage {s0 : State} {n : Nat} {s : State} (hs : Keeps s0 s) : Keeps s0 (loadImage n s) := by
  refine ⟨hs.part, hs.pending, fun w => ?_, fun w => have h := hs.tables w
    ⟨h.drives, h.par, h.nv, h.tbs, h.pairs, h.rings, h.dir, h.srcs, h.cmps, h.emus, h.seqs, h.slices, h.ctxs, h.regs, h.caps⟩⟩
  have hw := hs.wf w
  simp only [Memory.wf] at hw
  simp only [loadImage, freshWords, Memory.wf]
  exact tblWf_copy hw (slotBase n) slotSize

theorem same_pairRestart {s0 : State} {s : State} (hs : Same s0 s) :
    Same s0 (pairRestart s) := by
  unfold pairRestart
  try dsimp only
  repeat' first
    | with_reducible assumption
    | with_reducible refine Same.ite ?_ ?_
    | with_reducible refine same_parCount ?_
    | with_reducible refine same_updPlate ?_
    | with_reducible refine same_folioReset ?_
    | with_reducible refine same_plateReset ?_
    | with_reducible fail_if_no_progress refine Same.of ?_ rfl rfl rfl rfl rfl rfl rfl rfl rfl rfl rfl rfl rfl rfl rfl rfl rfl

theorem same_pairFault {s0 : State} {code : Nat} {args : List Word} {s : State} (hs : Same s0 s) :
    Same s0 (pairFault code args s) := by
  unfold pairFault
  try dsimp only
  repeat' first
    | with_reducible assumption
    | with_reducible refine Same.ite ?_ ?_
    | with_reducible refine same_raise ?_
    | with_reducible refine same_pairRestart ?_

theorem keeps_pairFault {s0 : State} {code : Nat} {args : List Word} {s : State} (hs : Keeps s0 s) :
    Keeps s0 (pairFault code args s) := hs.after (same_pairFault (Same.refl _))

theorem same_divergence {s0 : State} {n : Nat} {s : State} (hs : Same s0 s) :
    Same s0 (divergence n s) := by
  unfold divergence
  try dsimp only
  repeat' first
    | with_reducible assumption
    | with_reducible refine Same.ite ?_ ?_
    | with_reducible refine same_parSet ?_
    | with_reducible refine same_pairFault ?_

theorem keeps_divergence {s0 : State} {n : Nat} {s : State} (hs : Keeps s0 s) :
    Keeps s0 (divergence n s) := hs.after (same_divergence (Same.refl _))

theorem same_plateConsumes {s0 : State} {mark : Nat} {s : State} (hs : Same s0 s) :
    Same s0 (plateConsumes mark s) := by
  unfold plateConsumes
  try dsimp only
  repeat' first
    | with_reducible assumption
    | with_reducible refine Same.ite ?_ ?_
    | with_reducible refine same_countBite ?_
    | with_reducible refine same_raise ?_
    | with_reducible refine same_pairRestart ?_
    | with_reducible fail_if_no_progress refine Same.of ?_ rfl rfl rfl rfl rfl rfl rfl rfl rfl rfl rfl rfl rfl rfl rfl rfl rfl

theorem keeps_plateConsumes {s0 : State} {mark : Nat} {s : State} (hs : Keeps s0 s) :
    Keeps s0 (plateConsumes mark s) := hs.after (same_plateConsumes (Same.refl _))

theorem same_joinNow {s0 : State} {s : State} (hs : Same s0 s) :
    Same s0 (joinNow s) := by
  unfold joinNow
  try dsimp only
  repeat' first
    | with_reducible assumption
    | with_reducible refine Same.ite ?_ ?_
    | with_reducible refine same_record ?_
    | with_reducible refine same_completeTag ?_
    | with_reducible refine same_updPlate ?_
    | with_reducible fail_if_no_progress refine Same.of ?_ rfl rfl rfl rfl rfl rfl rfl rfl rfl rfl rfl rfl rfl rfl rfl rfl rfl
    | split

theorem keeps_joinNow {s0 : State} {s : State} (hs : Keeps s0 s) :
    Keeps s0 (joinNow s) := hs.after (same_joinNow (Same.refl _))

theorem same_latentFault {s0 : State} {n : Nat} {s : State} (hs : Same s0 s) :
    Same s0 (latentFault n s) := by
  unfold latentFault
  try dsimp only
  repeat' first
    | with_reducible assumption
    | with_reducible refine Same.ite ?_ ?_
    | with_reducible refine same_parSet ?_
    | with_reducible refine same_parCount ?_
    | with_reducible refine same_raise ?_
    | with_reducible refine same_updPlate ?_
    | with_reducible refine same_divergence ?_

theorem keeps_latentFault {s0 : State} {n : Nat} {s : State} (hs : Keeps s0 s) :
    Keeps s0 (latentFault n s) := hs.after (same_latentFault (Same.refl _))

theorem same_execResyncDone {s0 : State} {s : State} (hs : Same s0 s) :
    ∃ v0, execResyncDone s = .next v0 ∧ Same s0 v0 := by
  refine ⟨_, rfl, ?_⟩
  try dsimp only
  repeat' first
    | with_reducible assumption
    | with_reducible refine Same.ite ?_ ?_
    | with_reducible refine same_updPlate ?_

theorem same_disagreement {s0 : State} {s : State} (hs : Same s0 s) :
    Same s0 (disagreement s) := by
  unfold disagreement
  try dsimp only
  repeat' first
    | with_reducible assumption
    | with_reducible refine Same.ite ?_ ?_
    | with_reducible refine same_parCount ?_
    | with_reducible refine same_raise ?_
    | with_reducible refine same_updPlate ?_

theorem same_execAsyncInputRead {s0 : State} {what : AsyncInput} {plate : Nat} {counter : Nat} {s : State} (hs : Same s0 s) :
    ∃ v0, execAsyncInputRead what plate counter s = .next v0 ∧ Same s0 v0 := by
  refine ⟨_, rfl, ?_⟩
  try dsimp only
  repeat' first
    | with_reducible assumption
    | with_reducible refine Same.ite ?_ ?_
    | with_reducible refine same_disagreement ?_
    | with_reducible fail_if_no_progress refine Same.of ?_ rfl rfl rfl rfl rfl rfl rfl rfl rfl rfl rfl rfl rfl rfl rfl rfl rfl

theorem same_execInterruptDecision {s0 : State} {vecP : Nat} {vecC : Nat} {s : State} (hs : Same s0 s) :
    ∃ v0, execInterruptDecision vecP vecC s = .next v0 ∧ Same s0 v0 := by
  refine ⟨_, rfl, ?_⟩
  try dsimp only
  repeat' first
    | with_reducible assumption
    | with_reducible refine Same.ite ?_ ?_
    | with_reducible refine same_disagreement ?_

theorem same_execWatchdog {s0 : State} {s : State} (hs : Same s0 s) :
    ∃ v0, execWatchdog s = .next v0 ∧ Same s0 v0 := by
  refine ⟨_, rfl, ?_⟩
  try dsimp only
  repeat' first
    | with_reducible assumption
    | with_reducible refine Same.ite ?_ ?_
    | with_reducible refine same_pairFault ?_

theorem same_execFolioResetEnd {s0 : State} {s : State} (hs : Same s0 s) :
    ∃ v0, execFolioResetEnd s = .next v0 ∧ Same s0 v0 := by
  refine ⟨_, rfl, ?_⟩
  try dsimp only
  repeat' first
    | with_reducible assumption
    | with_reducible refine Same.ite ?_ ?_
    | with_reducible fail_if_no_progress refine Same.of ?_ rfl rfl rfl rfl rfl rfl rfl rfl rfl rfl rfl rfl rfl rfl rfl rfl rfl

theorem keeps_execPairRestartDone {s0 : State} {s : State} (hs : Keeps s0 s) :
    ∃ v0, execPairRestartDone s = .next v0 ∧ Keeps s0 v0 := by
  refine ⟨_, rfl, ?_⟩
  try dsimp only
  repeat' first
    | with_reducible assumption
    | with_reducible refine Keeps.ite ?_ ?_
    | with_reducible refine keeps_setAttn ?_
    | with_reducible refine keeps_record ?_
    | with_reducible refine keeps_updPlate ?_
    | with_reducible refine keeps_loadImage ?_
    | with_reducible fail_if_no_progress refine Keeps.of ?_ rfl rfl rfl rfl rfl rfl rfl rfl rfl rfl rfl rfl rfl rfl rfl rfl rfl

theorem same_bodySplit {s0 : State} {tag : Nat} {_ws : List Word} {s : State} (hs : Same s0 s) :
    SameR s0 (bodySplit tag _ws s) := by
  unfold bodySplit
  try dsimp only
  repeat' first
    | with_reducible assumption
    | with_reducible refine Same.ite ?_ ?_
    | with_reducible refine SameR.ite ?_ ?_
    | with_reducible refine SameR.done ?_
    | with_reducible refine SameR.wait ?_
    | with_reducible refine same_checked ?_ ?_
    | with_reducible refine same_updPlate ?_

theorem same_joinStart {s0 : State} {s : State} (hs : Same s0 s) :
    Same s0 (joinStart s) := by
  unfold joinStart
  try dsimp only
  repeat' first
    | with_reducible assumption
    | with_reducible refine Same.ite ?_ ?_
    | with_reducible refine same_updPlate ?_

theorem same_bodyJoin {s0 : State} {tag : Nat} {_ws : List Word} {s : State} (hs : Same s0 s) :
    SameR s0 (bodyJoin tag _ws s) := by
  unfold bodyJoin
  try dsimp only
  repeat' first
    | with_reducible assumption
    | with_reducible refine Same.ite ?_ ?_
    | with_reducible refine SameR.ite ?_ ?_
    | with_reducible refine SameR.done ?_
    | with_reducible refine SameR.wait ?_
    | with_reducible refine same_checked ?_ ?_
    | with_reducible refine same_updPlate ?_
    | with_reducible refine same_joinStart ?_

theorem same_execFreeCoreTaskEnd {s0 : State} {res : Nat} {s : State} (hs : Same s0 s) :
    ∃ v0, execFreeCoreTaskEnd res s = .next v0 ∧ Same s0 v0 := by
  refine ⟨_, rfl, ?_⟩
  try dsimp only
  repeat' first
    | with_reducible assumption
    | with_reducible refine Same.ite ?_ ?_
    | with_reducible refine same_updPlate ?_

theorem same_execFreeCoreWatchdog {s0 : State} {s : State} (hs : Same s0 s) :
    ∃ v0, execFreeCoreWatchdog s = .next v0 ∧ Same s0 v0 := by
  refine ⟨_, rfl, ?_⟩
  try dsimp only
  repeat' first
    | with_reducible assumption
    | with_reducible refine Same.ite ?_ ?_
    | with_reducible refine same_updPlate ?_

theorem same_selectTap {s0 : State} {i : TapInstr} {s : State} (hs : Same s0 s) :
    Same s0 (selectTap i s) := by
  unfold selectTap
  try dsimp only
  repeat' first
    | with_reducible assumption
    | with_reducible refine Same.ite ?_ ?_
    | with_reducible refine same_settlePairs ?_
    | with_reducible refine same_updPlate ?_

theorem same_execTapBypass {s0 : State} {s : State} (hs : Same s0 s) :
    ∃ v0, execTapBypass s = .next v0 ∧ Same s0 v0 := by
  refine ⟨_, rfl, ?_⟩
  try dsimp only
  repeat' first
    | with_reducible assumption
    | with_reducible refine Same.ite ?_ ?_
    | with_reducible refine same_selectTap ?_

theorem same_execTapIdcode {s0 : State} {s : State} (hs : Same s0 s) :
    ∃ v0, execTapIdcode s = .next v0 ∧ Same s0 v0 := by
  refine ⟨_, rfl, ?_⟩
  try dsimp only
  repeat' first
    | with_reducible assumption
    | with_reducible refine Same.ite ?_ ?_
    | with_reducible refine same_updPlate ?_
    | with_reducible refine same_selectTap ?_

theorem same_execTapSamplePreload {s0 : State} {s : State} (hs : Same s0 s) :
    ∃ v0, execTapSamplePreload s = .next v0 ∧ Same s0 v0 := by
  refine ⟨_, rfl, ?_⟩
  try dsimp only
  repeat' first
    | with_reducible assumption
    | with_reducible refine Same.ite ?_ ?_
    | with_reducible refine same_selectTap ?_

theorem same_execTapExtest {s0 : State} {s : State} (hs : Same s0 s) :
    ∃ v0, execTapExtest s = .next v0 ∧ Same s0 v0 := by
  refine ⟨_, rfl, ?_⟩
  try dsimp only
  repeat' first
    | with_reducible assumption
    | with_reducible refine Same.ite ?_ ?_
    | with_reducible refine same_selectTap ?_

theorem same_execTapReset {s0 : State} {s : State} (hs : Same s0 s) :
    ∃ v0, execTapReset s = .next v0 ∧ Same s0 v0 := by
  refine ⟨_, rfl, ?_⟩
  try dsimp only
  repeat' first
    | with_reducible assumption
    | with_reducible refine Same.ite ?_ ?_
    | with_reducible refine same_selectTap ?_

theorem same_readSlot {s0 : State} {n : Nat} {s : State} (hs : Same s0 s) :
    Same s0 (readSlot n s) := by
  unfold readSlot
  try dsimp only
  repeat' first
    | with_reducible assumption
    | with_reducible refine Same.ite ?_ ?_
    | with_reducible refine same_readCells ?_

theorem keeps_readSlot {s0 : State} {n : Nat} {s : State} (hs : Keeps s0 s) :
    Keeps s0 (readSlot n s) := hs.after (same_readSlot (Same.refl _))

theorem same_execUnlockChallenge {s0 : State} {s : State} (hs : Same s0 s) :
    ∃ v0, execUnlockChallenge s = .next v0 ∧ Same s0 v0 := by
  refine ⟨_, rfl, ?_⟩
  try dsimp only
  repeat' first
    | with_reducible assumption
    | with_reducible refine Same.ite ?_ ?_
    | with_reducible refine same_updPlate ?_
    | with_reducible refine same_selectTap ?_
    | with_reducible fail_if_no_progress refine Same.of ?_ rfl rfl rfl rfl rfl rfl rfl rfl rfl rfl rfl rfl rfl rfl rfl rfl rfl

theorem same_execUnlockResponse {s0 : State} {ws : List Word} {s : State} (hs : Same s0 s) :
    ∃ v0, execUnlockResponse ws s = .next v0 ∧ Same s0 v0 := by
  refine ⟨_, rfl, ?_⟩
  try dsimp only
  repeat' first
    | with_reducible assumption
    | with_reducible refine Same.ite ?_ ?_
    | with_reducible refine same_updPlate ?_
    | with_reducible refine same_selectTap ?_

theorem same_execUnlockVerified {s0 : State} {ok : Bool} {s : State} (hs : Same s0 s) :
    ∃ v0, execUnlockVerified ok s = .next v0 ∧ Same s0 v0 := by
  refine ⟨_, rfl, ?_⟩
  try dsimp only
  repeat' first
    | with_reducible assumption
    | with_reducible refine Same.ite ?_ ?_
    | with_reducible refine same_record ?_
    | with_reducible refine same_updPlate ?_

theorem same_execUnlockBlockEnd {s0 : State} {s : State} (hs : Same s0 s) :
    ∃ v0, execUnlockBlockEnd s = .next v0 ∧ Same s0 v0 := by
  refine ⟨_, rfl, ?_⟩
  try dsimp only
  repeat' first
    | with_reducible assumption
    | with_reducible refine Same.ite ?_ ?_
    | with_reducible refine same_updPlate ?_

theorem same_execDebugAccess {s0 : State} {s : State} (hs : Same s0 s) :
    ∃ v0, execDebugAccess s = .next v0 ∧ Same s0 v0 := by
  refine ⟨_, rfl, ?_⟩
  try dsimp only
  repeat' first
    | with_reducible assumption
    | with_reducible refine Same.ite ?_ ?_
    | with_reducible refine same_selectTap ?_

theorem same_execTapLock {s0 : State} {s : State} (hs : Same s0 s) :
    ∃ v0, execTapLock s = .next v0 ∧ Same s0 v0 := by
  refine ⟨_, rfl, ?_⟩
  try dsimp only
  repeat' first
    | with_reducible assumption
    | with_reducible refine Same.ite ?_ ?_
    | with_reducible refine same_updPlate ?_
    | with_reducible refine same_selectTap ?_

theorem same_applyReplay {s0 : State} {s : State} (hs : Same s0 s) :
    Same s0 (applyReplay s) := by
  unfold applyReplay
  try dsimp only
  repeat' first
    | with_reducible assumption
    | with_reducible refine Same.ite ?_ ?_
    | with_reducible refine same_updPlate ?_

theorem keeps_applyReplay {s0 : State} {s : State} (hs : Keeps s0 s) :
    Keeps s0 (applyReplay s) := hs.after (same_applyReplay (Same.refl _))

theorem same_logAction {s0 : State} {r : Nat} {v : Word} {act : State → State} {s : State} (hs : Same s0 s) (hact : ∀ v, Same s0 v → Same s0 (act v)) :
    Same s0 (logAction r v act s) := by
  unfold logAction
  try dsimp only
  repeat' first
    | with_reducible assumption
    | with_reducible refine Same.ite ?_ ?_
    | with_reducible refine SameR.ite ?_ ?_
    | with_reducible refine SameR.done ?_
    | with_reducible refine SameR.wait ?_
    | with_reducible refine same_updPlate ?_
    | with_reducible refine same_applyReplay ?_
    | with_reducible fail_if_no_progress refine Same.of ?_ rfl rfl rfl rfl rfl rfl rfl rfl rfl rfl rfl rfl rfl rfl rfl rfl rfl
    | refine hact _ ?_

theorem keeps_logAction {s0 : State} {r : Nat} {v : Word} {act : State → State} {s : State} (hs : Keeps s0 s) (hact : ∀ v, Keeps s0 v → Keeps s0 (act v)) :
    Keeps s0 (logAction r v act s) := by
  unfold logAction
  try dsimp only
  repeat' first
    | with_reducible assumption
    | with_reducible refine Keeps.ite ?_ ?_
    | with_reducible refine KeepsR.ite ?_ ?_
    | with_reducible refine KeepsR.done ?_
    | with_reducible refine KeepsR.wait ?_
    | with_reducible refine keeps_updPlate ?_
    | with_reducible refine keeps_applyReplay ?_
    | with_reducible fail_if_no_progress refine Keeps.of ?_ rfl rfl rfl rfl rfl rfl rfl rfl rfl rfl rfl rfl rfl rfl rfl rfl rfl
    | refine hact _ ?_

theorem same_haltPair {s0 : State} {s : State} (hs : Same s0 s) :
    Same s0 (haltPair s) := by
  unfold haltPair
  try dsimp only
  repeat' first
    | with_reducible assumption
    | with_reducible refine Same.ite ?_ ?_
    | with_reducible refine same_raise ?_
    | with_reducible refine same_updPlate ?_
    | with_reducible refine same_applyReplay ?_

theorem same_execDebugHalt {s0 : State} {s : State} (hs : Same s0 s) :
    ∃ v0, execDebugHalt s = .next v0 ∧ Same s0 v0 := by
  refine ⟨_, rfl, ?_⟩
  try dsimp only
  repeat' first
    | with_reducible assumption
    | with_reducible refine Same.ite ?_ ?_
    | with_reducible refine same_haltPair ?_

theorem same_execBreakpointHit {s0 : State} {slot : Nat} {s : State} (hs : Same s0 s) :
    ∃ v0, execBreakpointHit slot s = .next v0 ∧ Same s0 v0 := by
  refine ⟨_, rfl, ?_⟩
  try dsimp only
  repeat' first
    | with_reducible assumption
    | with_reducible refine Same.ite ?_ ?_
    | with_reducible refine same_haltPair ?_

theorem same_execDebugResume {s0 : State} {s : State} (hs : Same s0 s) :
    ∃ v0, execDebugResume s = .next v0 ∧ Same s0 v0 := by
  refine ⟨_, rfl, ?_⟩
  try dsimp only
  repeat' first
    | with_reducible assumption
    | with_reducible refine Same.ite ?_ ?_
    | with_reducible refine same_updPlate ?_
    | with_reducible refine same_applyReplay ?_

theorem same_execDebugStep {s0 : State} {s : State} (hs : Same s0 s) :
    ∃ v0, execDebugStep s = .next v0 ∧ Same s0 v0 := by
  refine ⟨_, rfl, ?_⟩
  try dsimp only
  repeat' first
    | with_reducible assumption
    | with_reducible refine Same.ite ?_ ?_
    | with_reducible refine same_updPlate ?_
    | with_reducible refine same_applyReplay ?_

theorem same_execDebugRegisterRead {s0 : State} {r : Nat} {s : State} (hs : Same s0 s) :
    ∃ v0, execDebugRegisterRead r s = .next v0 ∧ Same s0 v0 := by
  refine ⟨_, rfl, ?_⟩
  try dsimp only
  repeat' first
    | with_reducible assumption
    | with_reducible refine Same.ite ?_ ?_
    | with_reducible refine same_updPlate ?_

theorem same_execDebugRegisterWrite {s0 : State} {r : Nat} {v : Word} {s : State} (hs : Same s0 s) :
    ∃ v0, execDebugRegisterWrite r v s = .next v0 ∧ Same s0 v0 := by
  refine ⟨_, rfl, ?_⟩
  try dsimp only
  repeat' first
    | with_reducible assumption
    | with_reducible refine Same.ite ?_ ?_
    | with_reducible refine SameR.ite ?_ ?_
    | with_reducible refine SameR.done ?_
    | with_reducible refine SameR.wait ?_
    | with_reducible refine same_updPlate ?_
    | with_reducible refine same_logAction ?_ (fun _ _ => ?_)

theorem same_execDebugBreakpointSet {s0 : State} {slot : Nat} {addr : Nat} {on : Bool} {s : State} (hs : Same s0 s) :
    ∃ v0, execDebugBreakpointSet slot addr on s = .next v0 ∧ Same s0 v0 := by
  refine ⟨_, rfl, ?_⟩
  try dsimp only
  repeat' first
    | with_reducible assumption
    | with_reducible refine Same.ite ?_ ?_
    | with_reducible refine SameR.ite ?_ ?_
    | with_reducible refine SameR.done ?_
    | with_reducible refine SameR.wait ?_
    | with_reducible refine same_updPlate ?_
    | with_reducible refine same_logAction ?_ (fun _ _ => ?_)

theorem same_execDebugMemoryRead {s0 : State} {addr : Nat} {s : State} (hs : Same s0 s) :
    ∃ v0, execDebugMemoryRead addr s = .next v0 ∧ Same s0 v0 := by
  refine ⟨_, rfl, ?_⟩
  try dsimp only
  repeat' first
    | with_reducible assumption
    | with_reducible refine Same.ite ?_ ?_
    | with_reducible refine same_demandRead ?_
    | with_reducible refine same_lpNote ?_
    | with_reducible refine same_updPlate ?_
    | with_reducible fail_if_no_progress refine Same.of ?_ rfl rfl rfl rfl rfl rfl rfl rfl rfl rfl rfl rfl rfl rfl rfl rfl rfl

theorem keeps_execDebugMemoryWrite {s0 : State} {addr : Nat} {v : Word} {s : State} (hs : Keeps s0 s) :
    ∃ v0, execDebugMemoryWrite addr v s = .next v0 ∧ Keeps s0 v0 := by
  refine ⟨_, rfl, ?_⟩
  try dsimp only
  repeat' first
    | with_reducible assumption
    | with_reducible refine Keeps.ite ?_ ?_
    | with_reducible refine keeps_mramRefuse ?_
    | with_reducible refine keeps_storeRange ?_
    | with_reducible refine keeps_touchSlot ?_
    | with_reducible refine keeps_lpNote ?_
    | with_reducible refine keeps_updPlate ?_

theorem same_denyMram {s0 : State} {s : State} (hs : Same s0 s) :
    SameR s0 (denyMram s) := by
  unfold denyMram
  try dsimp only
  repeat' first
    | with_reducible assumption
    | with_reducible refine Same.ite ?_ ?_
    | with_reducible refine SameR.ite ?_ ?_
    | with_reducible refine SameR.done ?_
    | with_reducible refine SameR.wait ?_
    | with_reducible refine same_mramRefuse ?_

theorem keeps_denyMram {s0 : State} {s : State} (hs : Keeps s0 s) :
    KeepsR s0 (denyMram s) := KeepsR.after hs (same_denyMram (Same.refl _))

theorem keeps_bodyFwBegin {s0 : State} {ws : List Word} {s : State} (hs : Keeps s0 s) :
    KeepsR s0 (bodyFwBegin ws s) := by
  unfold bodyFwBegin
  try dsimp only
  repeat' first
    | with_reducible assumption
    | (constructor <;> first | exact h.drives | exact h.par | exact h.nv | exact h.tbs | exact h.pairs | exact h.rings | exact h.dir | exact h.srcs | exact h.cmps | exact h.emus | exact h.seqs | exact h.slices | exact h.ctxs | exact h.regs | exact h.caps | exact rising_set h.drives _ _ _ | exact rising_set h.par _ _ _ | exact rising_set h.nv _ _ _ | exact rising_set h.tbs _ _ _ | exact rising_set h.pairs _ _ _ | exact rising_set h.rings _ _ _ | exact rising_set h.dir _ _ _ | exact rising_set h.srcs _ _ _ | exact rising_set h.cmps _ _ _ | exact rising_set h.emus _ _ _ | exact rising_set h.seqs _ _ _ | exact rising_set h.slices _ _ _ | exact rising_set h.ctxs _ _ _ | exact rising_set h.regs _ _ _ | exact rising_set h.caps _ _ _ | exact rising_filter h.par _ | exact rising_filter h.nv _ | exact rising_map h.rings (fun _ => rfl) | exact rising_map h.slices (fun _ => rfl) | exact rising_map h.ctxs (fun _ => rfl) | exact rising_map h.seqs (fun _ => rfl) | exact rising_nil)
    | with_reducible refine Keeps.ite ?_ ?_
    | with_reducible refine KeepsR.ite ?_ ?_
    | with_reducible refine KeepsR.done ?_
    | with_reducible refine KeepsR.wait ?_
    | with_reducible refine keeps_freshWords ?_
    | with_reducible refine keeps_checked ?_ ?_
    | with_reducible refine keeps_nvSet ?_
    | with_reducible refine keeps_updPlate ?_
    | with_reducible refine keeps_denyMram ?_
    | with_reducible fail_if_no_progress refine Keeps.of ?_ rfl rfl rfl rfl rfl rfl rfl rfl rfl rfl rfl rfl rfl rfl rfl rfl rfl
    | with_reducible refine Keeps.filter ?_ rfl rfl (fun h => ?_)

theorem keeps_bodyFwData {s0 : State} {ws : List Word} {s : State} (hs : Keeps s0 s) :
    KeepsR s0 (bodyFwData ws s) := by
  unfold bodyFwData
  try dsimp only
  repeat' first
    | with_reducible assumption
    | with_reducible refine Keeps.ite ?_ ?_
    | with_reducible refine KeepsR.ite ?_ ?_
    | with_reducible refine KeepsR.done ?_
    | with_reducible refine KeepsR.wait ?_
    | with_reducible refine keeps_refuse ?_
    | with_reducible refine keeps_checked ?_ ?_
    | with_reducible refine keeps_storeRange ?_
    | with_reducible refine keeps_denyMram ?_
    | with_reducible fail_if_no_progress refine Keeps.of ?_ rfl rfl rfl rfl rfl rfl rfl rfl rfl rfl rfl rfl rfl rfl rfl rfl rfl
    | split

theorem same_bodyFwCommit {s0 : State} {_ws : List Word} {s : State} (hs : Same s0 s) :
    SameR s0 (bodyFwCommit _ws s) := by
  unfold bodyFwCommit
  try dsimp only
  repeat' first
    | with_reducible assumption
    | with_reducible refine Same.ite ?_ ?_
    | with_reducible refine SameR.ite ?_ ?_
    | with_reducible refine SameR.done ?_
    | with_reducible refine SameR.wait ?_
    | with_reducible refine same_refuse ?_
    | with_reducible refine same_nvSet ?_
    | with_reducible refine same_updPlate ?_
    | with_reducible refine same_readSlot ?_
    | with_reducible refine same_denyMram ?_
    | with_reducible fail_if_no_progress refine Same.of ?_ rfl rfl rfl rfl rfl rfl rfl rfl rfl rfl rfl rfl rfl rfl rfl rfl rfl
    | split

theorem same_bodyFwAbort {s0 : State} {_ws : List Word} {s : State} (hs : Same s0 s) :
    SameR s0 (bodyFwAbort _ws s) := by
  unfold bodyFwAbort
  try dsimp only
  repeat' first
    | with_reducible assumption
    | with_reducible refine Same.ite ?_ ?_
    | with_reducible refine SameR.ite ?_ ?_
    | with_reducible refine SameR.done ?_
    | with_reducible refine SameR.wait ?_
    | with_reducible refine same_refuse ?_
    | with_reducible refine same_updPlate ?_
    | with_reducible fail_if_no_progress refine Same.of ?_ rfl rfl rfl rfl rfl rfl rfl rfl rfl rfl rfl rfl rfl rfl rfl rfl rfl
    | split

theorem same_write08 {s0 : State} {s : State} {i : Nat} {v : Word} (hs : Same s0 s) :
    Same s0 (write08 s i v) := by
  unfold write08
  try dsimp only
  repeat' first
    | with_reducible assumption
    | with_reducible refine Same.ite ?_ ?_
    | with_reducible refine same_parSet ?_
    | with_reducible refine same_updPlate ?_

theorem keeps_write08 {s0 : State} {s : State} {i : Nat} {v : Word} (hs : Keeps s0 s) :
    Keeps s0 (write08 s i v) := hs.after (same_write08 (Same.refl _))

theorem same_captureRetired {s0 : State} {s : State} (hs : Same s0 s) :
    Same s0 (captureRetired s) := by
  unfold captureRetired
  try dsimp only
  repeat' first
    | with_reducible assumption
    | with_reducible refine Same.ite ?_ ?_
    | with_reducible refine same_parSet ?_

/-! Handover. -/

theorem same_updMarg {s0 : State} {s : State} {f : Margin → Margin} (hs : Same s0 s) :
    Same s0 (updMarg s f) := by
  unfold updMarg
  try dsimp only
  repeat' first
    | with_reducible assumption
    | with_reducible refine Same.ite ?_ ?_
    | with_reducible fail_if_no_progress refine Same.of ?_ rfl rfl rfl rfl rfl rfl rfl rfl rfl rfl rfl rfl rfl rfl rfl rfl rfl

theorem keeps_updMarg {s0 : State} {s : State} {f : Margin → Margin} (hs : Keeps s0 s) :
    Keeps s0 (updMarg s f) := hs.after (same_updMarg (Same.refl _))

theorem same_ringFresh {s0 : State} {r : Nat} {s : State} (hs : Same s0 s) :
    Same s0 (ringFresh r s) := by
  unfold ringFresh
  try dsimp only
  repeat' first
    | with_reducible assumption
    | with_reducible refine Same.ite ?_ ?_
    | with_reducible refine same_updRing ?_

theorem same_ringsFresh {s0 : State} {s : State} (hs : Same s0 s) :
    Same s0 (ringsFresh s) := by
  unfold ringsFresh
  try dsimp only
  repeat' first
    | with_reducible assumption
    | with_reducible refine Same.ite ?_ ?_
    | with_reducible refine same_ringFresh ?_
    | with_reducible refine Same.forUpTo ?_ (fun _ _ _ => ?_)
    | with_reducible fail_if_no_progress refine Same.of ?_ rfl rfl rfl rfl rfl rfl rfl rfl rfl rfl rfl rfl rfl rfl rfl rfl rfl
    | split

theorem same_becomeActive {s0 : State} {s : State} (hs : Same s0 s) :
    Same s0 (becomeActive s) := by
  unfold becomeActive
  try dsimp only
  repeat' first
    | with_reducible assumption
    | with_reducible refine Same.ite ?_ ?_
    | with_reducible refine same_updMarg ?_
    | with_reducible fail_if_no_progress refine Same.of ?_ rfl rfl rfl rfl rfl rfl rfl rfl rfl rfl rfl rfl rfl rfl rfl rfl rfl

theorem same_becomeStandby {s0 : State} {s : State} (hs : Same s0 s) :
    Same s0 (becomeStandby s) := by
  unfold becomeStandby
  try dsimp only
  repeat' first
    | with_reducible assumption
    | with_reducible refine Same.ite ?_ ?_
    | with_reducible refine same_updMarg ?_
    | with_reducible fail_if_no_progress refine Same.of ?_ rfl rfl rfl rfl rfl rfl rfl rfl rfl rfl rfl rfl rfl rfl rfl rfl rfl

theorem same_takeOver {s0 : State} {trig : Nat} {s : State} (hs : Same s0 s) :
    Same s0 (takeOver trig s) := by
  unfold takeOver
  try dsimp only
  repeat' first
    | with_reducible assumption
    | with_reducible refine Same.ite ?_ ?_
    | with_reducible refine same_updDrive ?_
    | with_reducible refine same_setOp ?_
    | with_reducible refine same_enterRun ?_
    | with_reducible refine same_updMarg ?_
    | with_reducible refine same_ringsFresh ?_
    | with_reducible refine same_becomeActive ?_
    | with_reducible refine Same.forUpTo ?_ (fun _ _ _ => ?_)
    | with_reducible refine Same.forEach ?_ (fun _ _ _ => ?_)

theorem same_hoInstant {s0 : State} {s : State} (hs : Same s0 s) :
    Same s0 (hoInstant s) := by
  unfold hoInstant
  try dsimp only
  repeat' first
    | with_reducible assumption
    | with_reducible refine Same.ite ?_ ?_
    | with_reducible refine same_setOwnN ?_
    | with_reducible refine same_handoverDone ?_
    | with_reducible refine same_updMarg ?_
    | with_reducible refine same_ringsFresh ?_
    | with_reducible refine same_becomeActive ?_
    | with_reducible refine same_becomeStandby ?_

theorem same_handDrive {s0 : State} {d : Nat} {s : State} (hs : Same s0 s) :
    Same s0 (handDrive d s) := by
  unfold handDrive
  try dsimp only
  repeat' first
    | with_reducible assumption
    | with_reducible refine Same.ite ?_ ?_
    | with_reducible refine same_updDrive ?_
    | with_reducible refine same_setOp ?_
    | with_reducible refine same_enterRun ?_
    | with_reducible refine same_leaveRun ?_
    | with_reducible refine same_ringFresh ?_
    | with_reducible refine same_hoInstant ?_
    | with_reducible refine Same.forEach ?_ (fun _ _ _ => ?_)
    | with_reducible fail_if_no_progress refine Same.of ?_ rfl rfl rfl rfl rfl rfl rfl rfl rfl rfl rfl rfl rfl rfl rfl rfl rfl
    | split

end Sys2Proof.Laws
end

