-- ==== Sys2Proof/Laws/KeepOutputs.lean ====
section
/-!
SUPPORT. What Hatch, the converters and position keep (Laws/Frame.lean): one lemma for each operation and each meaning.
-/
namespace Sys2Proof.Laws
open Sys2Proof.Machine Sys2Proof.Safety

/-! Hatch. -/

theorem same_setRef {s0 : State} {s : State} {p : Nat} {v : Bool} (hs : Same s0 s) :
    Same s0 (setRef s p v) := by
  unfold setRef
  try dsimp only
  repeat' first
    | with_reducible assumption
    | with_reducible refine Same.ite ?_ ?_
    | with_reducible refine same_updPair ?_
    | with_reducible refine same_refPair ?_

theorem same_landPair {s0 : State} {s : State} {p : Nat} {w : Nat} (hs : Same s0 s) :
    Same s0 (landPair s p w) := by
  unfold landPair
  try dsimp only
  repeat' first
    | with_reducible assumption
    | with_reducible refine Same.ite ?_ ?_
    | with_reducible refine same_updPair ?_
    | with_reducible refine same_setRef ?_
    | with_reducible fail_if_no_progress refine Same.of ?_ rfl rfl rfl rfl rfl rfl rfl rfl rfl rfl rfl rfl rfl rfl rfl rfl rfl
    | split

theorem same_startPair {s0 : State} {s : State} {p : Nat} {phase : Nat} (hs : Same s0 s) :
    Same s0 (startPair s p phase) := by
  unfold startPair
  try dsimp only
  repeat' first
    | with_reducible assumption
    | with_reducible refine Same.ite ?_ ?_
    | with_reducible refine same_updPair ?_
    | with_reducible refine same_setRef ?_
    | with_reducible fail_if_no_progress refine Same.of ?_ rfl rfl rfl rfl rfl rfl rfl rfl rfl rfl rfl rfl rfl rfl rfl rfl rfl
    | split

theorem same_farServe {s0 : State} {t : Nat} {s : State} (hs : Same s0 s) :
    Same s0 (farServe t s) := by
  unfold farServe
  try dsimp only
  repeat' first
    | with_reducible assumption
    | with_reducible refine Same.ite ?_ ?_
    | with_reducible refine same_updRing ?_
    | with_reducible refine Same.forEach ?_ (fun _ _ _ => ?_)

theorem same_periodDrives {s0 : State} {t : Nat} {s : State} (hs : Same s0 s) :
    Same s0 (periodDrives t s) := by
  unfold periodDrives
  try dsimp only
  repeat' first
    | with_reducible assumption
    | with_reducible refine Same.ite ?_ ?_
    | with_reducible refine same_drivePeriod ?_
    | with_reducible refine same_handDrive ?_
    | with_reducible refine same_farServe ?_
    | with_reducible refine Same.forUpTo ?_ (fun _ _ _ => ?_)

theorem same_startPeriod {s0 : State} {fuel : Nat} : ∀ {t : Nat} {phase : Nat} {s : State}, Same s0 s → Same s0 (startPeriod fuel t phase s) := by
  induction fuel with
  | zero =>
    intro _ _ s hs
    unfold startPeriod
    try dsimp only
    repeat' first
      | with_reducible assumption
  | succ _ ih =>
    intro _ _ s hs
    unfold startPeriod
    try dsimp only
    repeat' first
      | with_reducible assumption
      | with_reducible refine Same.ite ?_ ?_
      | with_reducible refine ih ?_
      | with_reducible refine same_updTb ?_
      | with_reducible refine same_parWrap ?_
      | with_reducible refine same_periodPair ?_
      | with_reducible refine same_handoverDone ?_
      | with_reducible refine same_startPair ?_
      | with_reducible refine same_periodDrives ?_
      | with_reducible refine Same.forUpTo ?_ (fun _ _ _ => ?_)

theorem same_stopTimebase {s0 : State} {t : Nat} {s : State} (hs : Same s0 s) :
    Same s0 (stopTimebase t s) := by
  unfold stopTimebase
  try dsimp only
  repeat' first
    | with_reducible assumption
    | with_reducible refine Same.ite ?_ ?_
    | with_reducible refine same_updTb ?_
    | with_reducible refine same_updPair ?_
    | with_reducible refine same_settlePair ?_
    | with_reducible refine same_setRef ?_
    | with_reducible refine same_periodDrives ?_
    | with_reducible refine Same.forUpTo ?_ (fun _ _ _ => ?_)

theorem same_landTimebase {s0 : State} {t : Nat} {s : State} (hs : Same s0 s) :
    Same s0 (landTimebase t s) := by
  unfold landTimebase
  try dsimp only
  repeat' first
    | with_reducible assumption
    | with_reducible refine Same.ite ?_ ?_
    | with_reducible refine same_landPair ?_
    | with_reducible refine same_startPeriod ?_
    | with_reducible refine Same.forUpTo ?_ (fun _ _ _ => ?_)

theorem same_countClamp {s0 : State} {p : Nat} {s : State} (hs : Same s0 s) :
    Same s0 (countClamp p s) := by
  unfold countClamp
  try dsimp only
  repeat' first
    | with_reducible assumption
    | with_reducible refine Same.ite ?_ ?_
    | with_reducible refine same_parCount ?_
    | with_reducible refine same_parOr ?_
    | with_reducible fail_if_no_progress refine Same.of ?_ rfl rfl rfl rfl rfl rfl rfl rfl rfl rfl rfl rfl rfl rfl rfl rfl rfl
    | split

theorem same_noteWrite {s0 : State} {t : Nat} {k : Nat} {r : Nat} {s : State} (hs : Same s0 s) :
    Same s0 (noteWrite t k r s) := by
  unfold noteWrite
  try dsimp only
  repeat' first
    | with_reducible assumption
    | with_reducible refine Same.ite ?_ ?_
    | with_reducible fail_if_no_progress refine Same.of ?_ rfl rfl rfl rfl rfl rfl rfl rfl rfl rfl rfl rfl rfl rfl rfl rfl rfl

theorem same_storeCmp {s0 : State} {s : State} {t : Nat} {k : Nat} {r : Nat} {v : Word} {special : Bool} (hs : Same s0 s) :
    Same s0 (storeCmp s t k r v special) := by
  unfold storeCmp
  try dsimp only
  repeat' first
    | with_reducible assumption
    | with_reducible refine Same.ite ?_ ?_
    | with_reducible refine same_parSet ?_
    | with_reducible refine same_noteWrite ?_
    | with_reducible fail_if_no_progress refine Same.of ?_ rfl rfl rfl rfl rfl rfl rfl rfl rfl rfl rfl rfl rfl rfl rfl rfl rfl

theorem same_storePer {s0 : State} {s : State} {t : Nat} {r : Nat} {v : Word} (hs : Same s0 s) :
    Same s0 (storePer s t r v) := by
  unfold storePer
  try dsimp only
  repeat' first
    | with_reducible assumption
    | with_reducible refine Same.ite ?_ ?_
    | with_reducible refine same_parSet ?_
    | with_reducible refine same_noteWrite ?_

theorem same_landCompares {s0 : State} {t : Nat} {ks : List Nat} {s : State} (hs : Same s0 s) :
    Same s0 (landCompares t ks s) := by
  unfold landCompares
  try dsimp only
  repeat' first
    | with_reducible assumption
    | with_reducible refine Same.ite ?_ ?_
    | with_reducible refine same_landTimebase ?_
    | with_reducible refine same_countClamp ?_
    | with_reducible refine Same.forUpTo ?_ (fun _ _ _ => ?_)

theorem same_setBand {s0 : State} {s : State} {p : Nat} {b : Nat} (hs : Same s0 s) :
    Same s0 (setBand s p b) := by
  unfold setBand
  try dsimp only
  repeat' first
    | with_reducible assumption
    | with_reducible refine Same.ite ?_ ?_
    | with_reducible refine same_updPair ?_
    | with_reducible refine same_recordUntested ?_

theorem same_movePair {s0 : State} {p : Nat} {s : State} (hs : Same s0 s) :
    Same s0 (movePair p s) := by
  unfold movePair
  try dsimp only
  repeat' first
    | with_reducible assumption
    | with_reducible refine Same.ite ?_ ?_
    | with_reducible refine same_updPair ?_
    | with_reducible refine same_setRef ?_
    | with_reducible refine same_landPair ?_

theorem same_write05 {s0 : State} {s : State} {i : Nat} {v : Word} (hs : Same s0 s) :
    Same s0 (write05 s i v) := by
  unfold write05
  try dsimp only
  repeat' first
    | with_reducible assumption
    | with_reducible refine Same.ite ?_ ?_
    | with_reducible refine same_parSet ?_
    | with_reducible refine same_settlePair ?_
    | with_reducible refine same_startPeriod ?_
    | with_reducible refine same_stopTimebase ?_
    | with_reducible refine same_landTimebase ?_
    | with_reducible refine same_storeCmp ?_
    | with_reducible refine same_storePer ?_
    | with_reducible refine same_landCompares ?_
    | with_reducible refine same_setBand ?_
    | with_reducible refine same_movePair ?_

theorem keeps_write05 {s0 : State} {s : State} {i : Nat} {v : Word} (hs : Keeps s0 s) :
    Keeps s0 (write05 s i v) := hs.after (same_write05 (Same.refl _))

theorem same_bandsFrom {s0 : State} {s : State} {n : Nat} {res : Nat → Option Word} (hs : Same s0 s) :
    Same s0 (bandsFrom s n res) := by
  unfold bandsFrom
  try dsimp only
  repeat' first
    | with_reducible assumption
    | with_reducible refine Same.ite ?_ ?_
    | with_reducible refine same_setBand ?_
    | with_reducible refine Same.forUpTo ?_ (fun _ _ _ => ?_)
    | with_reducible fail_if_no_progress refine Same.of ?_ rfl rfl rfl rfl rfl rfl rfl rfl rfl rfl rfl rfl rfl rfl rfl rfl rfl
    | split

theorem same_setModStatus {s0 : State} {s : State} {d : Nat} {n : Nat} (hs : Same s0 s) :
    Same s0 (setModStatus s d n) := by
  unfold setModStatus
  try dsimp only
  repeat' first
    | with_reducible assumption
    | with_reducible refine Same.ite ?_ ?_
    | with_reducible fail_if_no_progress refine Same.of ?_ rfl rfl rfl rfl rfl rfl rfl rfl rfl rfl rfl rfl rfl rfl rfl rfl rfl

theorem same_writeDuties {s0 : State} {l : List (Nat × Word)} {s : State} (hs : Same s0 s) :
    Same s0 (writeDuties l s) := by
  unfold writeDuties
  try dsimp only
  repeat' first
    | with_reducible assumption
    | with_reducible refine Same.ite ?_ ?_
    | with_reducible refine same_storeCmp ?_
    | with_reducible refine same_landCompares ?_
    | with_reducible refine Same.forUpTo ?_ (fun _ _ _ => ?_)
    | with_reducible refine Same.forEach ?_ (fun _ _ _ => ?_)

theorem same_frontUpdate {s0 : State} {d : Nat} {vs : List (Nat × Word)} {s : State} (hs : Same s0 s) :
    Same s0 (frontUpdate d vs s) := by
  unfold frontUpdate
  try dsimp only
  repeat' first
    | with_reducible assumption
    | with_reducible refine Same.ite ?_ ?_
    | with_reducible refine same_setModStatus ?_
    | with_reducible refine same_writeDuties ?_
    | with_reducible refine Same.forEach ?_ (fun _ _ _ => ?_)
    | with_reducible fail_if_no_progress refine Same.of ?_ rfl rfl rfl rfl rfl rfl rfl rfl rfl rfl rfl rfl rfl rfl rfl rfl rfl
    | split

theorem same_setTripLatch {s0 : State} {s : State} {n : Nat} (hs : Same s0 s) :
    Same s0 (setTripLatch s n) := by
  unfold setTripLatch
  try dsimp only
  repeat' first
    | with_reducible assumption
    | with_reducible refine Same.ite ?_ ?_
    | with_reducible refine same_settlePairs ?_
    | with_reducible refine same_orderRing ?_
    | with_reducible refine same_raise ?_
    | with_reducible refine Same.forEach ?_ (fun _ _ _ => ?_)
    | with_reducible fail_if_no_progress refine Same.of ?_ rfl rfl rfl rfl rfl rfl rfl rfl rfl rfl rfl rfl rfl rfl rfl rfl rfl

theorem same_wcOutput {s0 : State} {s : State} {n : Nat} {active : Bool} (hs : Same s0 s) :
    Same s0 (wcOutput s n active) := by
  unfold wcOutput
  try dsimp only
  repeat' first
    | with_reducible assumption
    | with_reducible refine Same.ite ?_ ?_
    | with_reducible refine same_parOr ?_
    | with_reducible fail_if_no_progress refine Same.of ?_ rfl rfl rfl rfl rfl rfl rfl rfl rfl rfl rfl rfl rfl rfl rfl rfl rfl

theorem same_tripInput {s0 : State} {s : State} {n : Nat} {active : Bool} (hs : Same s0 s) :
    Same s0 (tripInput s n active) := by
  unfold tripInput
  try dsimp only
  repeat' first
    | with_reducible assumption
    | with_reducible refine Same.ite ?_ ?_
    | with_reducible refine same_setTripLatch ?_
    | with_reducible refine same_wcOutput ?_
    | with_reducible fail_if_no_progress refine Same.of ?_ rfl rfl rfl rfl rfl rfl rfl rfl rfl rfl rfl rfl rfl rfl rfl rfl rfl

theorem same_wcEval {s0 : State} {n : Nat} {s : State} (hs : Same s0 s) :
    Same s0 (wcEval n s) := by
  unfold wcEval
  try dsimp only
  repeat' first
    | with_reducible assumption
    | with_reducible refine Same.ite ?_ ?_
    | with_reducible refine same_tripInput ?_
    | with_reducible fail_if_no_progress refine Same.of ?_ rfl rfl rfl rfl rfl rfl rfl rfl rfl rfl rfl rfl rfl rfl rfl rfl rfl

theorem same_wcEvalAll {s0 : State} {s : State} (hs : Same s0 s) :
    Same s0 (wcEvalAll s) := by
  unfold wcEvalAll
  try dsimp only
  repeat' first
    | with_reducible assumption
    | with_reducible refine Same.ite ?_ ?_
    | with_reducible refine same_wcEval ?_
    | with_reducible refine Same.forUpTo ?_ (fun _ _ _ => ?_)

theorem same_wcOff {s0 : State} {s : State} (hs : Same s0 s) :
    Same s0 (wcOff s) := by
  unfold wcOff
  try dsimp only
  repeat' first
    | with_reducible assumption
    | with_reducible refine Same.ite ?_ ?_
    | with_reducible fail_if_no_progress refine Same.of ?_ rfl rfl rfl rfl rfl rfl rfl rfl rfl rfl rfl rfl rfl rfl rfl rfl rfl

theorem same_wcWrite {s0 : State} {s : State} {n : Nat} {v : Word} (hs : Same s0 s) :
    Same s0 (wcWrite s n v) := by
  unfold wcWrite
  try dsimp only
  repeat' first
    | with_reducible assumption
    | with_reducible refine Same.ite ?_ ?_
    | with_reducible refine same_parSet ?_
    | with_reducible refine same_wcEval ?_
    | with_reducible fail_if_no_progress refine Same.of ?_ rfl rfl rfl rfl rfl rfl rfl rfl rfl rfl rfl rfl rfl rfl rfl rfl rfl

theorem same_tripResample {s0 : State} {s : State} (hs : Same s0 s) :
    Same s0 (tripResample s) := by
  unfold tripResample
  try dsimp only
  repeat' first
    | with_reducible assumption
    | with_reducible refine Same.ite ?_ ?_
    | with_reducible refine same_setTripLatch ?_
    | with_reducible refine Same.forUpTo ?_ (fun _ _ _ => ?_)

theorem same_writeTripRoute {s0 : State} {s : State} {n : Nat} {v : Word} (hs : Same s0 s) :
    Same s0 (writeTripRoute s n v) := by
  unfold writeTripRoute
  try dsimp only
  repeat' first
    | with_reducible assumption
    | with_reducible refine Same.ite ?_ ?_
    | with_reducible refine same_parSet ?_
    | with_reducible refine same_settlePairs ?_
    | with_reducible refine same_orderRing ?_
    | with_reducible refine same_setTripLatch ?_
    | with_reducible refine Same.forEach ?_ (fun _ _ _ => ?_)

theorem same_bodyHatchFrame {s0 : State} {ws : List Word} {s : State} (hs : Same s0 s) :
    SameR s0 (bodyHatchFrame ws s) := by
  unfold bodyHatchFrame
  try dsimp only
  repeat' first
    | with_reducible assumption
    | with_reducible refine Same.ite ?_ ?_
    | with_reducible refine SameR.ite ?_ ?_
    | with_reducible refine SameR.done ?_
    | with_reducible refine SameR.wait ?_
    | with_reducible refine same_checked ?_ ?_
    | with_reducible refine same_storeCmp ?_
    | with_reducible refine same_storePer ?_
    | with_reducible refine same_landCompares ?_
    | with_reducible refine Same.forUpTo ?_ (fun _ _ _ => ?_)

theorem same_bodyHatchForce {s0 : State} {ws : List Word} {s : State} (hs : Same s0 s) :
    SameR s0 (bodyHatchForce ws s) := by
  unfold bodyHatchForce
  try dsimp only
  repeat' first
    | with_reducible assumption
    | with_reducible refine Same.ite ?_ ?_
    | with_reducible refine SameR.ite ?_ ?_
    | with_reducible refine SameR.done ?_
    | with_reducible refine SameR.wait ?_
    | with_reducible refine same_updPair ?_
    | with_reducible refine same_checked ?_ ?_
    | with_reducible refine same_settlePair ?_
    | with_reducible refine Same.forEach ?_ (fun _ _ _ => ?_)

theorem same_execPeriodStart {s0 : State} {tb : Nat} {s : State} (hs : Same s0 s) :
    ∃ v0, execPeriodStart tb s = .next v0 ∧ Same s0 v0 := by
  refine ⟨_, rfl, ?_⟩
  try dsimp only
  repeat' first
    | with_reducible assumption
    | with_reducible refine Same.ite ?_ ?_
    | with_reducible refine same_startPeriod ?_

theorem same_execRefEdge {s0 : State} {p : Nat} {s : State} (hs : Same s0 s) :
    ∃ v0, execRefEdge p s = .next v0 ∧ Same s0 v0 := by
  refine ⟨_, rfl, ?_⟩
  try dsimp only
  repeat' first
    | with_reducible assumption
    | with_reducible refine Same.ite ?_ ?_
    | with_reducible refine same_updPair ?_
    | with_reducible refine same_setRef ?_
    | with_reducible fail_if_no_progress refine Same.of ?_ rfl rfl rfl rfl rfl rfl rfl rfl rfl rfl rfl rfl rfl rfl rfl rfl rfl
    | split

theorem same_execDeadtimeEnd {s0 : State} {p : Nat} {s : State} (hs : Same s0 s) :
    ∃ v0, execDeadtimeEnd p s = .next v0 ∧ Same s0 v0 := by
  refine ⟨_, rfl, ?_⟩
  try dsimp only
  repeat' first
    | with_reducible assumption
    | with_reducible refine Same.ite ?_ ?_
    | with_reducible refine same_updPair ?_
    | with_reducible fail_if_no_progress refine Same.of ?_ rfl rfl rfl rfl rfl rfl rfl rfl rfl rfl rfl rfl rfl rfl rfl rfl rfl
    | split

theorem same_execForceExpiry {s0 : State} {p : Nat} {s : State} (hs : Same s0 s) :
    ∃ v0, execForceExpiry p s = .next v0 ∧ Same s0 v0 := by
  refine ⟨_, rfl, ?_⟩
  try dsimp only
  repeat' first
    | with_reducible assumption
    | with_reducible refine Same.ite ?_ ?_
    | with_reducible refine same_updPair ?_
    | with_reducible refine same_settlePair ?_
    | with_reducible fail_if_no_progress refine Same.of ?_ rfl rfl rfl rfl rfl rfl rfl rfl rfl rfl rfl rfl rfl rfl rfl rfl rfl
    | split

theorem same_execDelaylineCalibration {s0 : State} {tb : Nat} {ok : Bool} {s : State} (hs : Same s0 s) :
    ∃ v0, execDelaylineCalibration tb ok s = .next v0 ∧ Same s0 v0 := by
  refine ⟨_, rfl, ?_⟩
  try dsimp only
  repeat' first
    | with_reducible assumption
    | with_reducible refine Same.ite ?_ ?_
    | with_reducible refine same_updTb ?_
    | with_reducible refine same_raise ?_

theorem same_execTrip {s0 : State} {src : Nat} {active : Bool} {s : State} (hs : Same s0 s) :
    ∃ v0, execTrip src active s = .next v0 ∧ Same s0 v0 := by
  refine ⟨_, rfl, ?_⟩
  try dsimp only
  repeat' first
    | with_reducible assumption
    | with_reducible refine Same.ite ?_ ?_
    | with_reducible refine same_tripInput ?_
    | with_reducible refine same_wcEval ?_

/-! Converters. -/

theorem same_updConv {s0 : State} {s : State} {f : Converters → Converters} (hs : Same s0 s)
    (hf : ∀ c, Rising c.seqs → Rising c.slices → Rising (f c).seqs ∧ Rising (f c).slices) : Same s0 (updConv s f) :=
  Same.ofTables hs rfl rfl fun h =>
    have hq := hf _ h.seqs h.slices
    ⟨h.drives, h.par, h.nv, h.tbs, h.pairs, h.rings, h.dir, h.srcs, h.cmps, h.emus, hq.1, hq.2, h.ctxs, h.regs, h.caps⟩

theorem keeps_updConv {s0 : State} {s : State} {f : Converters → Converters} (hs : Keeps s0 s)
    (hf : ∀ c, Rising c.seqs → Rising c.slices → Rising (f c).seqs ∧ Rising (f c).slices) : Keeps s0 (updConv s f) :=
  Keeps.ofTables hs rfl rfl fun h =>
    have hq := hf _ h.seqs h.slices
    ⟨h.drives, h.par, h.nv, h.tbs, h.pairs, h.rings, h.dir, h.srcs, h.cmps, h.emus, hq.1, hq.2, h.ctxs, h.regs, h.caps⟩

theorem same_seqFired {s0 : State} {n : Nat} {t : Nat} {s : State} (hs : Same s0 s) :
    Same s0 (seqFired n t s) := by
  unfold seqFired
  try dsimp only
  repeat' first
    | with_reducible assumption
    | with_reducible refine Same.ite ?_ ?_
    | with_reducible refine same_updSeq ?_

theorem same_fireSequences {s0 : State} {code : Nat} {t : Nat} {s : State} (hs : Same s0 s) :
    Same s0 (fireSequences code t s) := by
  unfold fireSequences
  try dsimp only
  repeat' first
    | with_reducible assumption
    | with_reducible refine Same.ite ?_ ?_
    | with_reducible refine same_seqFired ?_
    | with_reducible refine Same.forUpTo ?_ (fun _ _ _ => ?_)

theorem same_shadowStart {s0 : State} {s : State} (hs : Same s0 s) :
    Same s0 (shadowStart s) := by
  unfold shadowStart
  try dsimp only
  repeat' first
    | with_reducible assumption
    | with_reducible refine Same.ite ?_ ?_
    | with_reducible refine same_updConv ?_ (fun _ h k => ⟨h, k⟩)

theorem same_seqTrigger {s0 : State} {n : Nat} {x : Nat × List Word × Snap} {s : State} (hs : Same s0 s) :
    Same s0 (seqTrigger n x s) := by
  unfold seqTrigger
  try dsimp only
  repeat' first
    | with_reducible assumption
    | with_reducible refine Same.ite ?_ ?_
    | with_reducible refine same_updSeq ?_
    | with_reducible refine same_parCount ?_
    | with_reducible refine same_record ?_
    | with_reducible refine same_shadowStart ?_

theorem same_startEntry {s0 : State} {i : Nat} {s : State} (hs : Same s0 s) :
    Same s0 (startEntry i s) := by
  unfold startEntry
  try dsimp only
  repeat' first
    | with_reducible assumption
    | with_reducible refine Same.ite ?_ ?_
    | with_reducible refine same_updSlice ?_
    | with_reducible fail_if_no_progress refine Same.of ?_ rfl rfl rfl rfl rfl rfl rfl rfl rfl rfl rfl rfl rfl rfl rfl rfl rfl
    | split

theorem keeps_startEntry {s0 : State} {i : Nat} {s : State} (hs : Keeps s0 s) :
    Keeps s0 (startEntry i s) := hs.after (same_startEntry (Same.refl _))

theorem same_occupySlice {s0 : State} {n : Nat} {list : List Word} {i : Nat} {s : State} (hs : Same s0 s) :
    Same s0 (occupySlice n list i s) := by
  unfold occupySlice
  try dsimp only
  repeat' first
    | with_reducible assumption
    | with_reducible refine Same.ite ?_ ?_
    | with_reducible refine same_updSlice ?_
    | with_reducible refine same_startEntry ?_

theorem same_seqStart {s0 : State} {n : Nat} {s : State} (hs : Same s0 s) :
    Same s0 (seqStart n s) := by
  unfold seqStart
  try dsimp only
  repeat' first
    | with_reducible assumption
    | with_reducible refine Same.ite ?_ ?_
    | with_reducible refine same_updSeq ?_
    | with_reducible refine same_parCount ?_
    | with_reducible refine same_record ?_
    | with_reducible refine same_occupySlice ?_
    | with_reducible refine Same.forEach ?_ (fun _ _ _ => ?_)
    | with_reducible fail_if_no_progress refine Same.of ?_ rfl rfl rfl rfl rfl rfl rfl rfl rfl rfl rfl rfl rfl rfl rfl rfl rfl
    | split

theorem same_urgentRequest {s0 : State} {i : Nat} {tag : Nat} {input : Nat} {s : State} (hs : Same s0 s) :
    Same s0 (urgentRequest i tag input s) := by
  unfold urgentRequest
  try dsimp only
  repeat' first
    | with_reducible assumption
    | with_reducible refine Same.ite ?_ ?_
    | with_reducible refine same_updSlice ?_

theorem same_urgentStart {s0 : State} {i : Nat} {s : State} (hs : Same s0 s) :
    Same s0 (urgentStart i s) := by
  unfold urgentStart
  try dsimp only
  repeat' first
    | with_reducible assumption
    | with_reducible refine Same.ite ?_ ?_
    | with_reducible refine same_updSlice ?_
    | with_reducible fail_if_no_progress refine Same.of ?_ rfl rfl rfl rfl rfl rfl rfl rfl rfl rfl rfl rfl rfl rfl rfl rfl rfl
    | split

theorem same_startReference {s0 : State} {s : State} (hs : Same s0 s) :
    Same s0 (startReference s) := by
  unfold startReference
  try dsimp only
  repeat' first
    | with_reducible assumption
    | with_reducible refine Same.ite ?_ ?_
    | with_reducible refine same_updSlice ?_

theorem keeps_startReference {s0 : State} {s : State} (hs : Keeps s0 s) :
    Keeps s0 (startReference s) := hs.after (same_startReference (Same.refl _))

theorem same_beginStep {s0 : State} {s : State} (hs : Same s0 s) :
    Same s0 (beginStep s) := by
  unfold beginStep
  try dsimp only
  repeat' first
    | with_reducible assumption
    | with_reducible refine Same.ite ?_ ?_
    | with_reducible refine same_updConv ?_ (fun _ h k => ⟨h, k⟩)

theorem same_nextStep {s0 : State} {s : State} (hs : Same s0 s) :
    Same s0 (nextStep s) := by
  unfold nextStep
  try dsimp only
  repeat' first
    | with_reducible assumption
    | with_reducible refine Same.ite ?_ ?_
    | with_reducible refine same_parSet ?_
    | with_reducible refine same_updConv ?_ (fun _ h k => ⟨h, k⟩)
    | with_reducible refine same_beginStep ?_

theorem same_deferStep {s0 : State} {residual : Nat} {gross : Bool} {s : State} (hs : Same s0 s) :
    Same s0 (deferStep residual gross s) := by
  unfold deferStep
  try dsimp only
  repeat' first
    | with_reducible assumption
    | with_reducible refine Same.ite ?_ ?_
    | with_reducible refine same_parCount ?_
    | with_reducible refine same_raiseWith ?_
    | with_reducible refine same_updConv ?_ (fun _ h k => ⟨h, k⟩)
    | with_reducible refine same_nextStep ?_

theorem same_shadowPair {s0 : State} {t : Nat} {code : Nat} {tcode : Nat} {ovr : Bool} {tovr : Bool} {s : State} (hs : Same s0 s) :
    Same s0 (shadowPair t code tcode ovr tovr s) := by
  unfold shadowPair
  try dsimp only
  repeat' first
    | with_reducible assumption
    | with_reducible refine Same.ite ?_ ?_
    | with_reducible refine same_updConv ?_ (fun _ h k => ⟨h, k⟩)
    | with_reducible refine same_deferStep ?_

theorem keeps_shadowPair {s0 : State} {t : Nat} {code : Nat} {tcode : Nat} {ovr : Bool} {tovr : Bool} {s : State} (hs : Keeps s0 s) :
    Keeps s0 (shadowPair t code tcode ovr tovr s) := hs.after (same_shadowPair (Same.refl _))

theorem same_write03 {s0 : State} {s : State} {i : Nat} {v : Word} (hs : Same s0 s) :
    Same s0 (write03 s i v) := by
  unfold write03
  try dsimp only
  repeat' first
    | with_reducible assumption
    | with_reducible refine Same.ite ?_ ?_
    | with_reducible refine same_updSeq ?_
    | with_reducible refine same_parSet ?_
    | with_reducible refine same_wcWrite ?_
    | with_reducible refine same_seqFired ?_
    | with_reducible refine same_startReference ?_
    | with_reducible refine same_beginStep ?_
    | with_reducible refine Same.forUpTo ?_ (fun _ _ _ => ?_)

theorem keeps_write03 {s0 : State} {s : State} {i : Nat} {v : Word} (hs : Keeps s0 s) :
    Keeps s0 (write03 s i v) := hs.after (same_write03 (Same.refl _))

theorem same_bodySeqLoad {s0 : State} {ws : List Word} {s : State} (hs : Same s0 s) :
    SameR s0 (bodySeqLoad ws s) := by
  unfold bodySeqLoad
  try dsimp only
  repeat' first
    | with_reducible assumption
    | with_reducible refine Same.ite ?_ ?_
    | with_reducible refine SameR.ite ?_ ?_
    | with_reducible refine SameR.done ?_
    | with_reducible refine SameR.wait ?_
    | with_reducible refine same_updSeq ?_
    | with_reducible refine same_checked ?_ ?_
    | with_reducible refine same_startReference ?_

theorem same_bodyConvUrgent {s0 : State} {tag : Nat} {ws : List Word} {s : State} (hs : Same s0 s) :
    SameR s0 (bodyConvUrgent tag ws s) := by
  unfold bodyConvUrgent
  try dsimp only
  repeat' first
    | with_reducible assumption
    | with_reducible refine Same.ite ?_ ?_
    | with_reducible refine SameR.ite ?_ ?_
    | with_reducible refine SameR.done ?_
    | with_reducible refine SameR.wait ?_
    | with_reducible refine same_checked ?_ ?_
    | with_reducible refine same_urgentRequest ?_

theorem same_bodyCalStatus {s0 : State} {_ws : List Word} {s : State} (hs : Same s0 s) :
    SameR s0 (bodyCalStatus _ws s) := by
  unfold bodyCalStatus
  try dsimp only
  repeat' first
    | with_reducible assumption
    | with_reducible refine Same.ite ?_ ?_
    | with_reducible refine SameR.ite ?_ ?_
    | with_reducible refine SameR.done ?_

theorem same_execSeqStart {s0 : State} {n : Nat} {s : State} (hs : Same s0 s) :
    ∃ v0, execSeqStart n s = .next v0 ∧ Same s0 v0 := by
  refine ⟨_, rfl, ?_⟩
  try dsimp only
  repeat' first
    | with_reducible assumption
    | with_reducible refine Same.ite ?_ ?_
    | with_reducible refine same_seqStart ?_

theorem same_execUrgentStart {s0 : State} {ls : Nat} {s : State} (hs : Same s0 s) :
    ∃ v0, execUrgentStart ls s = .next v0 ∧ Same s0 v0 := by
  refine ⟨_, rfl, ?_⟩
  try dsimp only
  repeat' first
    | with_reducible assumption
    | with_reducible refine Same.ite ?_ ?_
    | with_reducible refine same_urgentStart ?_

theorem same_calTrim {s0 : State} {p : Nat} {s : State} (hs : Same s0 s) :
    Same s0 (calTrim p s) := by
  unfold calTrim
  try dsimp only
  repeat' first
    | with_reducible assumption
    | with_reducible refine Same.ite ?_ ?_
    | with_reducible refine same_updConv ?_ (fun _ h k => ⟨h, k⟩)
    | with_reducible fail_if_no_progress refine Same.of ?_ rfl rfl rfl rfl rfl rfl rfl rfl rfl rfl rfl rfl rfl rfl rfl rfl rfl

theorem same_bootCalibrate {s0 : State} {s : State} (hs : Same s0 s) :
    Same s0 (bootCalibrate s) := by
  unfold bootCalibrate
  try dsimp only
  repeat' first
    | with_reducible assumption
    | with_reducible refine Same.ite ?_ ?_
    | with_reducible refine same_beginStep ?_
    | with_reducible refine same_calTrim ?_
    | with_reducible refine Same.forUpTo ?_ (fun _ _ _ => ?_)

theorem same_execCalSelfDone {s0 : State} {ok : Bool} {s : State} (hs : Same s0 s) :
    ∃ v0, execCalSelfDone ok s = .next v0 ∧ Same s0 v0 := by
  refine ⟨_, rfl, ?_⟩
  try dsimp only
  repeat' first
    | with_reducible assumption
    | with_reducible refine Same.ite ?_ ?_
    | with_reducible refine same_record ?_
    | with_reducible refine same_updConv ?_ (fun _ h k => ⟨h, k⟩)
    | with_reducible refine same_shadowStart ?_
    | with_reducible refine same_startReference ?_
    | with_reducible refine same_calTrim ?_

theorem same_execCalDecision {s0 : State} {s : State} (hs : Same s0 s) :
    ∃ v0, execCalDecision s = .next v0 ∧ Same s0 v0 := by
  refine ⟨_, rfl, ?_⟩
  try dsimp only
  repeat' first
    | with_reducible assumption
    | with_reducible refine Same.ite ?_ ?_
    | with_reducible refine same_updConv ?_ (fun _ h k => ⟨h, k⟩)
    | with_reducible refine same_deferStep ?_

theorem same_execCalSwap {s0 : State} {s : State} (hs : Same s0 s) :
    ∃ v0, execCalSwap s = .next v0 ∧ Same s0 v0 := by
  refine ⟨_, rfl, ?_⟩
  try dsimp only
  repeat' first
    | with_reducible assumption
    | with_reducible refine Same.ite ?_ ?_
    | with_reducible refine same_parCount ?_
    | with_reducible refine same_record ?_
    | with_reducible refine same_updConv ?_ (fun _ h k => ⟨h, k⟩)
    | with_reducible refine same_nextStep ?_

theorem same_execShadowTimeout {s0 : State} {s : State} (hs : Same s0 s) :
    ∃ v0, execShadowTimeout s = .next v0 ∧ Same s0 v0 := by
  refine ⟨_, rfl, ?_⟩
  try dsimp only
  repeat' first
    | with_reducible assumption
    | with_reducible refine Same.ite ?_ ?_
    | with_reducible refine same_parCount ?_
    | with_reducible refine same_updConv ?_ (fun _ h k => ⟨h, k⟩)
    | with_reducible refine same_nextStep ?_

theorem same_execWcOutputChange {s0 : State} {n : Nat} {x : Int} {s : State} (hs : Same s0 s) :
    ∃ v0, execWcOutputChange n x s = .next v0 ∧ Same s0 v0 := by
  refine ⟨_, rfl, ?_⟩
  try dsimp only
  repeat' first
    | with_reducible assumption
    | with_reducible refine Same.ite ?_ ?_
    | with_reducible refine same_wcEval ?_
    | with_reducible refine same_updConv ?_ (fun _ h k => ⟨h, k⟩)
    | with_reducible refine Same.forUpTo ?_ (fun _ _ _ => ?_)

/-! Position. -/

theorem same_faultSource {s0 : State} {n : Nat} {cause : Nat} {s : State} (hs : Same s0 s) :
    Same s0 (faultSource n cause s) := by
  unfold faultSource
  try dsimp only
  repeat' first
    | with_reducible assumption
    | with_reducible refine Same.ite ?_ ?_
    | with_reducible refine same_updSrc ?_
    | with_reducible refine same_noteSpeeds ?_
    | with_reducible refine same_raise ?_

theorem same_errCount {s0 : State} {n : Nat} {s : State} (hs : Same s0 s) :
    Same s0 (errCount n s) := by
  unfold errCount
  try dsimp only
  repeat' first
    | with_reducible assumption
    | with_reducible refine Same.ite ?_ ?_
    | with_reducible refine same_parCount ?_

theorem same_crossCheck {s0 : State} {d : Nat} {s : State} (hs : Same s0 s) :
    Same s0 (crossCheck d s) := by
  unfold crossCheck
  try dsimp only
  repeat' first
    | with_reducible assumption
    | with_reducible refine Same.ite ?_ ?_
    | with_reducible refine same_raise ?_
    | with_reducible fail_if_no_progress refine Same.of ?_ rfl rfl rfl rfl rfl rfl rfl rfl rfl rfl rfl rfl rfl rfl rfl rfl rfl

theorem same_patchRecs {s0 : State} {n : Nat} {t : Nat} {r : PosRec} {s : State} (hs : Same s0 s) :
    Same s0 (patchRecs n t r s) := by
  unfold patchRecs
  try dsimp only
  repeat' first
    | with_reducible assumption
    | with_reducible refine Same.ite ?_ ?_
    | with_reducible refine same_updSeq ?_
    | with_reducible refine Same.forUpTo ?_ (fun _ _ _ => ?_)

theorem same_capture {s0 : State} {n : Nat} {tc : Nat} {s : State} (hs : Same s0 s) :
    Same s0 (capture n tc s) := by
  unfold capture
  try dsimp only
  repeat' first
    | with_reducible assumption
    | with_reducible refine Same.ite ?_ ?_
    | with_reducible refine same_updSrc ?_
    | with_reducible refine same_noteSpeeds ?_
    | with_reducible refine same_crossCheck ?_
    | with_reducible refine same_patchRecs ?_
    | with_reducible refine Same.forUpTo ?_ (fun _ _ _ => ?_)

theorem same_captureBefore {s0 : State} {n : Nat} {t : Nat} {s : State} (hs : Same s0 s) :
    Same s0 (captureBefore n t s) := by
  unfold captureBefore
  try dsimp only
  repeat' first
    | with_reducible assumption
    | with_reducible refine Same.ite ?_ ?_
    | with_reducible refine same_capture ?_
    | with_reducible fail_if_no_progress refine Same.of ?_ rfl rfl rfl rfl rfl rfl rfl rfl rfl rfl rfl rfl rfl rfl rfl rfl rfl
    | split

theorem same_fireTrigger {s0 : State} {code : Nat} {t : Nat} {s : State} (hs : Same s0 s) :
    Same s0 (fireTrigger code t s) := by
  unfold fireTrigger
  try dsimp only
  repeat' first
    | with_reducible assumption
    | with_reducible refine Same.ite ?_ ?_
    | with_reducible refine same_updSrc ?_
    | with_reducible refine same_fireSequences ?_
    | with_reducible refine same_captureBefore ?_
    | with_reducible refine Same.forUpTo ?_ (fun _ _ _ => ?_)

theorem same_fireCompare {s0 : State} {t : Nat} {n : Nat} {way : Nat} {p' : BitVec 64} {s : State} (hs : Same s0 s) :
    Same s0 (fireCompare t n way p' s) := by
  unfold fireCompare
  try dsimp only
  repeat' first
    | with_reducible assumption
    | with_reducible refine Same.ite ?_ ?_
    | with_reducible refine same_updCmp ?_
    | with_reducible refine same_record ?_
    | with_reducible refine same_fireTrigger ?_

theorem same_testCompares {s0 : State} {n : Nat} {t : Nat} {p : BitVec 64} {p' : BitVec 64} {s : State} (hs : Same s0 s) :
    Same s0 (testCompares n t p p' s) := by
  unfold testCompares
  try dsimp only
  repeat' first
    | with_reducible assumption
    | with_reducible refine Same.ite ?_ ?_
    | with_reducible refine same_fireCompare ?_
    | with_reducible refine Same.forUpTo ?_ (fun _ _ _ => ?_)
    | with_reducible fail_if_no_progress refine Same.of ?_ rfl rfl rfl rfl rfl rfl rfl rfl rfl rfl rfl rfl rfl rfl rfl rfl rfl
    | split

theorem same_moveDir {s0 : State} {n : Nat} {step : Int} {hyst : Nat} {s : State} (hs : Same s0 s) :
    Same s0 (moveDir n step hyst s) := by
  unfold moveDir
  try dsimp only
  repeat' first
    | with_reducible assumption
    | with_reducible refine Same.ite ?_ ?_
    | with_reducible refine same_updSrc ?_
    | with_reducible refine same_record ?_

theorem same_movePos {s0 : State} {n : Nat} {t : Nat} {p' : BitVec 64} {delta : Int} {step : Int} {hyst : Nat} {s : State} (hs : Same s0 s) :
    Same s0 (movePos n t p' delta step hyst s) := by
  unfold movePos
  try dsimp only
  repeat' first
    | with_reducible assumption
    | with_reducible refine Same.ite ?_ ?_
    | with_reducible refine same_updSrc ?_
    | with_reducible refine same_testCompares ?_
    | with_reducible refine same_moveDir ?_

theorem same_noteChange {s0 : State} {n : Nat} {t : Nat} {fwd : Bool} {s : State} (hs : Same s0 s) :
    Same s0 (noteChange n t fwd s) := by
  unfold noteChange
  try dsimp only
  repeat' first
    | with_reducible assumption
    | with_reducible refine Same.ite ?_ ?_
    | with_reducible refine same_updSrc ?_

theorem same_stepCounts {s0 : State} {n : Nat} {by_ : Int} {s : State} (hs : Same s0 s) :
    Same s0 (stepCounts n by_ s) := by
  unfold stepCounts
  try dsimp only
  repeat' first
    | with_reducible assumption
    | with_reducible refine Same.ite ?_ ?_
    | with_reducible refine same_updSrc ?_

theorem same_emuCount {s0 : State} {n : Nat} {st : Int} {s : State} (hs : Same s0 s) :
    Same s0 (emuCount n st s) := by
  unfold emuCount
  try dsimp only
  repeat' first
    | with_reducible assumption
    | with_reducible refine Same.ite ?_ ?_
    | with_reducible refine same_updEmu ?_
    | with_reducible refine Same.forUpTo ?_ (fun _ _ _ => ?_)

theorem same_emuIndex {s0 : State} {n : Nat} {s : State} (hs : Same s0 s) :
    Same s0 (emuIndex n s) := by
  unfold emuIndex
  try dsimp only
  repeat' first
    | with_reducible assumption
    | with_reducible refine Same.ite ?_ ?_
    | with_reducible refine same_updEmu ?_
    | with_reducible refine Same.forUpTo ?_ (fun _ _ _ => ?_)

theorem same_indexEvent {s0 : State} {n : Nat} {s : State} (hs : Same s0 s) :
    Same s0 (indexEvent n s) := by
  unfold indexEvent
  try dsimp only
  repeat' first
    | with_reducible assumption
    | with_reducible refine Same.ite ?_ ?_
    | with_reducible refine same_updSrc ?_
    | with_reducible refine same_record ?_
    | with_reducible refine same_noteSpeeds ?_
    | with_reducible refine same_stepCounts ?_
    | with_reducible refine same_emuIndex ?_

theorem same_encoderStep {s0 : State} {n : Nat} {t : Nat} {fwd : Bool} {z : Bool} {s : State} (hs : Same s0 s) :
    Same s0 (encoderStep n t fwd z s) := by
  unfold encoderStep
  try dsimp only
  repeat' first
    | with_reducible assumption
    | with_reducible refine Same.ite ?_ ?_
    | with_reducible refine same_updSrc ?_
    | with_reducible refine same_movePos ?_
    | with_reducible refine same_noteChange ?_
    | with_reducible refine same_emuCount ?_
    | with_reducible refine same_indexEvent ?_

theorem same_illegalTransition {s0 : State} {n : Nat} {t : Nat} {s : State} (hs : Same s0 s) :
    Same s0 (illegalTransition n t s) := by
  unfold illegalTransition
  try dsimp only
  repeat' first
    | with_reducible assumption
    | with_reducible refine Same.ite ?_ ?_
    | with_reducible refine same_updSrc ?_
    | with_reducible refine same_faultSource ?_
    | with_reducible refine same_errCount ?_

theorem same_encoderLevels {s0 : State} {n : Nat} {t : Nat} {lv : Nat} {s : State} (hs : Same s0 s) :
    Same s0 (encoderLevels n t lv s) := by
  unfold encoderLevels
  try dsimp only
  repeat' first
    | with_reducible assumption
    | with_reducible refine Same.ite ?_ ?_
    | with_reducible refine same_updSrc ?_
    | with_reducible refine same_captureBefore ?_
    | with_reducible refine same_encoderStep ?_
    | with_reducible refine same_illegalTransition ?_

theorem same_encoderPass {s0 : State} {n : Nat} {s : State} (hs : Same s0 s) :
    Same s0 (encoderPass n s) := by
  unfold encoderPass
  try dsimp only
  repeat' first
    | with_reducible assumption
    | with_reducible refine Same.ite ?_ ?_
    | with_reducible refine same_encoderLevels ?_
    | with_reducible fail_if_no_progress refine Same.of ?_ rfl rfl rfl rfl rfl rfl rfl rfl rfl rfl rfl rfl rfl rfl rfl rfl rfl
    | split

theorem same_encoderSettle {s0 : State} {n : Nat} {s : State} (hs : Same s0 s) :
    Same s0 (encoderSettle n s) := by
  unfold encoderSettle
  try dsimp only
  repeat' first
    | with_reducible assumption
    | with_reducible refine Same.ite ?_ ?_
    | with_reducible refine same_encoderPass ?_
    | with_reducible refine Same.forUpTo ?_ (fun _ _ _ => ?_)

theorem same_execEncoderCount {s0 : State} {n : Nat} {a : Bool} {b : Bool} {z : Bool} {s : State} (hs : Same s0 s) :
    ∃ v0, execEncoderCount n a b z s = .next v0 ∧ Same s0 v0 := by
  refine ⟨_, rfl, ?_⟩
  try dsimp only
  repeat' first
    | with_reducible assumption
    | with_reducible refine Same.ite ?_ ?_
    | with_reducible refine same_updSrc ?_
    | with_reducible refine same_encoderSettle ?_

theorem same_hallState {s0 : State} {n : Nat} {t : Nat} {st : Nat} {s : State} (hs : Same s0 s) :
    Same s0 (hallState n t st s) := by
  unfold hallState
  try dsimp only
  repeat' first
    | with_reducible assumption
    | with_reducible refine Same.ite ?_ ?_
    | with_reducible refine same_updSrc ?_
    | with_reducible refine same_faultSource ?_
    | with_reducible refine same_captureBefore ?_
    | with_reducible refine same_movePos ?_
    | with_reducible refine same_noteChange ?_

theorem same_hallSettle {s0 : State} {n : Nat} {s : State} (hs : Same s0 s) :
    Same s0 (hallSettle n s) := by
  unfold hallSettle
  try dsimp only
  repeat' first
    | with_reducible assumption
    | with_reducible refine Same.ite ?_ ?_
    | with_reducible refine same_hallState ?_

theorem same_execHallStateChange {s0 : State} {n : Nat} {st : Nat} {s : State} (hs : Same s0 s) :
    ∃ v0, execHallStateChange n st s = .next v0 ∧ Same s0 v0 := by
  refine ⟨_, rfl, ?_⟩
  try dsimp only
  repeat' first
    | with_reducible assumption
    | with_reducible refine Same.ite ?_ ?_
    | with_reducible refine same_updSrc ?_
    | with_reducible refine same_hallSettle ?_

theorem same_badFrame {s0 : State} {n : Nat} {cause : Nat} {s : State} (hs : Same s0 s) :
    Same s0 (badFrame n cause s) := by
  unfold badFrame
  try dsimp only
  repeat' first
    | with_reducible assumption
    | with_reducible refine Same.ite ?_ ?_
    | with_reducible refine same_updSrc ?_
    | with_reducible refine same_faultSource ?_
    | with_reducible refine same_errCount ?_

theorem same_goodFrame {s0 : State} {n : Nat} {p' : BitVec 64} {lsb : Nat} {tick : Nat} {s : State} (hs : Same s0 s) :
    Same s0 (goodFrame n p' lsb tick s) := by
  unfold goodFrame
  try dsimp only
  repeat' first
    | with_reducible assumption
    | with_reducible refine Same.ite ?_ ?_
    | with_reducible refine same_updSrc ?_
    | with_reducible refine same_noteSpeeds ?_
    | with_reducible refine same_captureBefore ?_
    | with_reducible refine same_movePos ?_

theorem same_execSsiStart {s0 : State} {n : Nat} {s : State} (hs : Same s0 s) :
    ∃ v0, execSsiStart n s = .next v0 ∧ Same s0 v0 := by
  refine ⟨_, rfl, ?_⟩
  try dsimp only
  repeat' first
    | with_reducible assumption
    | with_reducible refine Same.ite ?_ ?_
    | with_reducible refine same_updSrc ?_
    | with_reducible refine same_errCount ?_
    | with_reducible fail_if_no_progress refine Same.of ?_ rfl rfl rfl rfl rfl rfl rfl rfl rfl rfl rfl rfl rfl rfl rfl rfl rfl
    | split

theorem same_execSsiFrameEnd {s0 : State} {n : Nat} {high : Bool} {bits : List Bool} {fall : Nat} {rise : Nat} {s : State} (hs : Same s0 s) :
    ∃ v0, execSsiFrameEnd n high bits fall rise s = .next v0 ∧ Same s0 v0 := by
  refine ⟨_, rfl, ?_⟩
  try dsimp only
  repeat' first
    | with_reducible assumption
    | with_reducible refine Same.ite ?_ ?_
    | with_reducible refine same_updSrc ?_
    | with_reducible refine same_badFrame ?_
    | with_reducible refine same_goodFrame ?_

theorem same_slowChannel {s0 : State} {n : Nat} {st : Nat} {s : State} (hs : Same s0 s) :
    Same s0 (slowChannel n st s) := by
  unfold slowChannel
  try dsimp only
  repeat' first
    | with_reducible assumption
    | with_reducible refine Same.ite ?_ ?_
    | with_reducible refine same_updSrc ?_
    | with_reducible fail_if_no_progress refine Same.of ?_ rfl rfl rfl rfl rfl rfl rfl rfl rfl rfl rfl rfl rfl rfl rfl rfl rfl
    | split

theorem same_execSentFrame {s0 : State} {n : Nat} {pulses : List Nat} {s : State} (hs : Same s0 s) :
    ∃ v0, execSentFrame n pulses s = .next v0 ∧ Same s0 v0 := by
  refine ⟨_, rfl, ?_⟩
  try dsimp only
  repeat' first
    | with_reducible assumption
    | with_reducible refine Same.ite ?_ ?_
    | with_reducible refine same_updSrc ?_
    | with_reducible refine same_badFrame ?_
    | with_reducible refine same_goodFrame ?_
    | with_reducible refine same_slowChannel ?_
    | with_reducible fail_if_no_progress refine Same.of ?_ rfl rfl rfl rfl rfl rfl rfl rfl rfl rfl rfl rfl rfl rfl rfl rfl rfl
    | split

theorem same_execSentTimeout {s0 : State} {n : Nat} {s : State} (hs : Same s0 s) :
    ∃ v0, execSentTimeout n s = .next v0 ∧ Same s0 v0 := by
  refine ⟨_, rfl, ?_⟩
  try dsimp only
  repeat' first
    | with_reducible assumption
    | with_reducible refine Same.ite ?_ ?_
    | with_reducible refine same_badFrame ?_

theorem same_resolverUpdate {s0 : State} {c : Nat} {out0 : Word} {out1 : Word} {t0 : Nat} {s : State} (hs : Same s0 s) :
    Same s0 (resolverUpdate c out0 out1 t0 s) := by
  unfold resolverUpdate
  try dsimp only
  repeat' first
    | with_reducible assumption
    | with_reducible refine Same.ite ?_ ?_
    | with_reducible refine same_updSrc ?_
    | with_reducible refine same_noteSpeeds ?_
    | with_reducible refine same_captureBefore ?_
    | with_reducible refine same_movePos ?_
    | with_reducible refine Same.forUpTo ?_ (fun _ _ _ => ?_)

theorem same_resolverFault {s0 : State} {c : Nat} {s : State} (hs : Same s0 s) :
    Same s0 (resolverFault c s) := by
  unfold resolverFault
  try dsimp only
  repeat' first
    | with_reducible assumption
    | with_reducible refine Same.ite ?_ ?_
    | with_reducible refine same_faultSource ?_
    | with_reducible refine Same.forUpTo ?_ (fun _ _ _ => ?_)

theorem same_execPosCapture {s0 : State} {n : Nat} {s : State} (hs : Same s0 s) :
    ∃ v0, execPosCapture n s = .next v0 ∧ Same s0 v0 := by
  refine ⟨_, rfl, ?_⟩
  try dsimp only
  repeat' first
    | with_reducible assumption
    | with_reducible refine Same.ite ?_ ?_
    | with_reducible refine same_updSrc ?_
    | with_reducible refine same_capture ?_
    | with_reducible fail_if_no_progress refine Same.of ?_ rfl rfl rfl rfl rfl rfl rfl rfl rfl rfl rfl rfl rfl rfl rfl rfl rfl
    | split

theorem same_restartSource {s0 : State} {n : Nat} {s : State} (hs : Same s0 s) :
    Same s0 (restartSource n s) := by
  unfold restartSource
  try dsimp only
  repeat' first
    | with_reducible assumption
    | with_reducible refine Same.ite ?_ ?_
    | with_reducible refine same_updSrc ?_
    | with_reducible refine same_updCmp ?_
    | with_reducible refine same_parSet ?_
    | with_reducible refine same_noteSpeeds ?_
    | with_reducible refine Same.forUpTo ?_ (fun _ _ _ => ?_)

theorem same_write04 {s0 : State} {s : State} {i : Nat} {v : Word} (hs : Same s0 s) :
    Same s0 (write04 s i v) := by
  unfold write04
  try dsimp only
  repeat' first
    | with_reducible assumption
    | with_reducible refine Same.ite ?_ ?_
    | with_reducible refine same_updEmu ?_
    | with_reducible refine same_parSet ?_
    | with_reducible fail_if_no_progress refine Same.of ?_ rfl rfl rfl rfl rfl rfl rfl rfl rfl rfl rfl rfl rfl rfl rfl rfl rfl

theorem keeps_write04 {s0 : State} {s : State} {i : Nat} {v : Word} (hs : Keeps s0 s) :
    Keeps s0 (write04 s i v) := hs.after (same_write04 (Same.refl _))

theorem same_captureAngle {s0 : State} {n : Nat} {s : State} (hs : Same s0 s) :
    Same s0 (captureAngle n s) := by
  unfold captureAngle
  try dsimp only
  repeat' first
    | with_reducible assumption
    | with_reducible refine Same.ite ?_ ?_
    | with_reducible refine same_updSrc ?_

theorem same_bodyPosConfig {s0 : State} {ws : List Word} {s : State} (hs : Same s0 s) :
    SameR s0 (bodyPosConfig ws s) := by
  unfold bodyPosConfig
  try dsimp only
  repeat' first
    | with_reducible assumption
    | with_reducible refine Same.ite ?_ ?_
    | with_reducible refine SameR.ite ?_ ?_
    | with_reducible refine SameR.done ?_
    | with_reducible refine SameR.wait ?_
    | with_reducible refine same_parSet ?_
    | with_reducible refine same_checked ?_ ?_
    | with_reducible refine same_restartSource ?_
    | with_reducible refine Same.forUpTo ?_ (fun _ _ _ => ?_)

theorem same_bodyPosCompare {s0 : State} {ws : List Word} {s : State} (hs : Same s0 s) :
    SameR s0 (bodyPosCompare ws s) := by
  unfold bodyPosCompare
  try dsimp only
  repeat' first
    | with_reducible assumption
    | with_reducible refine Same.ite ?_ ?_
    | with_reducible refine SameR.ite ?_ ?_
    | with_reducible refine SameR.done ?_
    | with_reducible refine SameR.wait ?_
    | with_reducible refine same_updCmp ?_
    | with_reducible refine same_checked ?_ ?_

end Sys2Proof.Laws
end

