-- ==== Sys2Proof/Laws/KeepRings.lean ====
section
/-!
SUPPORT. What StippleLink rings keep (Laws/Frame.lean): one lemma for each operation and each meaning.
-/
namespace Sys2Proof.Laws
open Sys2Proof.Machine Sys2Proof.Safety

/-! Rings. -/

theorem same_setExcl {s0 : State} {d : Nat} {v : Nat} {s : State} (hs : Same s0 s) :
    Same s0 (setExcl d v s) := by
  unfold setExcl
  try dsimp only
  repeat' first
    | with_reducible assumption
    | with_reducible refine Same.ite ?_ ?_
    | with_reducible refine same_updEntry ?_
    | with_reducible refine same_record ?_

theorem same_excludeBeyond {s0 : State} {r : Nat} {p : Nat → Bool} {s : State} (hs : Same s0 s) :
    Same s0 (excludeBeyond r p s) := by
  unfold excludeBeyond
  try dsimp only
  repeat' first
    | with_reducible assumption
    | with_reducible refine Same.ite ?_ ?_
    | with_reducible refine same_updEntry ?_
    | with_reducible refine Same.forEach ?_ (fun _ _ _ => ?_)

theorem same_ringBreak {s0 : State} {r : Nat} {hops : Option Nat} {s : State} (hs : Same s0 s) :
    Same s0 (ringBreak r hops s) := by
  unfold ringBreak
  try dsimp only
  repeat' first
    | with_reducible assumption
    | with_reducible refine Same.ite ?_ ?_
    | with_reducible refine same_updRing ?_
    | with_reducible refine same_record ?_
    | with_reducible refine same_excludeBeyond ?_

theorem same_excludeUnreached {s0 : State} {r : Nat} {farHops : Nat} {s : State} (hs : Same s0 s) :
    Same s0 (excludeUnreached r farHops s) := by
  unfold excludeUnreached
  try dsimp only
  repeat' first
    | with_reducible assumption
    | with_reducible refine Same.ite ?_ ?_
    | with_reducible refine same_excludeBeyond ?_

theorem same_farMissed {s0 : State} {r : Nat} {s : State} (hs : Same s0 s) :
    Same s0 (farMissed r s) := by
  unfold farMissed
  try dsimp only
  repeat' first
    | with_reducible assumption
    | with_reducible refine Same.ite ?_ ?_
    | with_reducible refine same_updRing ?_
    | with_reducible refine same_excludeUnreached ?_

theorem same_farServiceEnd {s0 : State} {r : Nat} {s : State} (hs : Same s0 s) :
    Same s0 (farServiceEnd r s) := by
  unfold farServiceEnd
  try dsimp only
  repeat' first
    | with_reducible assumption
    | with_reducible refine Same.ite ?_ ?_
    | with_reducible refine same_updRing ?_
    | with_reducible refine same_excludeBeyond ?_

theorem same_mgmtComplete {s0 : State} {r : Nat} {rstatus : Nat} {data : BitVec 64} {s : State} (hs : Same s0 s) :
    Same s0 (mgmtComplete r rstatus data s) := by
  unfold mgmtComplete
  try dsimp only
  repeat' first
    | with_reducible assumption
    | with_reducible refine Same.ite ?_ ?_
    | with_reducible refine same_updRing ?_
    | with_reducible refine same_completeTag ?_
    | with_reducible fail_if_no_progress refine Same.of ?_ rfl rfl rfl rfl rfl rfl rfl rfl rfl rfl rfl rfl rfl rfl rfl rfl rfl
    | split

theorem same_mgmtFail {s0 : State} {r : Nat} {rstatus : Nat} {s : State} (hs : Same s0 s) :
    Same s0 (mgmtFail r rstatus s) := by
  unfold mgmtFail
  try dsimp only
  repeat' first
    | with_reducible assumption
    | with_reducible refine Same.ite ?_ ?_
    | with_reducible refine same_updRing ?_
    | with_reducible refine same_mgmtComplete ?_
    | with_reducible fail_if_no_progress refine Same.of ?_ rfl rfl rfl rfl rfl rfl rfl rfl rfl rfl rfl rfl rfl rfl rfl rfl rfl
    | split

theorem same_mgmtMissing {s0 : State} {r : Nat} {s : State} (hs : Same s0 s) :
    Same s0 (mgmtMissing r s) := by
  unfold mgmtMissing
  try dsimp only
  repeat' first
    | with_reducible assumption
    | with_reducible refine Same.ite ?_ ?_
    | with_reducible refine same_mgmtFail ?_
    | with_reducible fail_if_no_progress refine Same.of ?_ rfl rfl rfl rfl rfl rfl rfl rfl rfl rfl rfl rfl rfl rfl rfl rfl rfl
    | split

theorem same_mgmtSent {s0 : State} {r : Nat} {carries : Bool} {s : State} (hs : Same s0 s) :
    Same s0 (mgmtSent r carries s) := by
  unfold mgmtSent
  try dsimp only
  repeat' first
    | with_reducible assumption
    | with_reducible refine Same.ite ?_ ?_
    | with_reducible refine same_updRing ?_
    | with_reducible fail_if_no_progress refine Same.of ?_ rfl rfl rfl rfl rfl rfl rfl rfl rfl rfl rfl rfl rfl rfl rfl rfl rfl
    | split

theorem same_mgmtReply {s0 : State} {r : Nat} {f : RetFrame} {s : State} (hs : Same s0 s) :
    Same s0 (mgmtReply r f s) := by
  unfold mgmtReply
  try dsimp only
  repeat' first
    | with_reducible assumption
    | with_reducible refine Same.ite ?_ ?_
    | with_reducible refine same_mgmtComplete ?_
    | with_reducible refine same_mgmtFail ?_
    | with_reducible fail_if_no_progress refine Same.of ?_ rfl rfl rfl rfl rfl rfl rfl rfl rfl rfl rfl rfl rfl rfl rfl rfl rfl
    | split

theorem same_missingReturn {s0 : State} {r : Nat} {s : State} (hs : Same s0 s) :
    Same s0 (missingReturn r s) := by
  unfold missingReturn
  try dsimp only
  repeat' first
    | with_reducible assumption
    | with_reducible refine Same.ite ?_ ?_
    | with_reducible refine same_updRing ?_
    | with_reducible refine same_parCount ?_
    | with_reducible refine same_ringBreak ?_

theorem same_noteStates {s0 : State} {r : Nat} {states : List Nat} {s : State} (hs : Same s0 s) :
    Same s0 (noteStates r states s) := by
  unfold noteStates
  try dsimp only
  repeat' first
    | with_reducible assumption
    | with_reducible refine Same.ite ?_ ?_
    | with_reducible refine same_updEntry ?_
    | with_reducible refine Same.forEach ?_ (fun _ _ _ => ?_)

theorem same_sendFrame {s0 : State} {r : Nat} {f : DownFrame} {s : State} (hs : Same s0 s) :
    Same s0 (sendFrame r f s) := by
  unfold sendFrame
  try dsimp only
  repeat' first
    | with_reducible assumption
    | with_reducible refine Same.ite ?_ ?_
    | with_reducible refine same_updRing ?_
    | with_reducible refine same_parWrap ?_
    | with_reducible refine same_handoverDone ?_
    | with_reducible refine same_farMissed ?_
    | with_reducible refine same_mgmtMissing ?_
    | with_reducible refine same_mgmtSent ?_
    | with_reducible refine same_missingReturn ?_
    | with_reducible refine same_noteStates ?_

theorem same_stringDischarge {s0 : State} {d : Nat} {s : State} (hs : Same s0 s) :
    Same s0 (stringDischarge d s) := by
  unfold stringDischarge
  try dsimp only
  repeat' first
    | with_reducible assumption
    | with_reducible refine Same.ite ?_ ?_
    | with_reducible refine same_updDrive ?_
    | with_reducible refine same_record ?_
    | with_reducible refine Same.foldl ?_ (fun _ _ _ => ?_)
    | with_reducible fail_if_no_progress refine Same.of ?_ rfl rfl rfl rfl rfl rfl rfl rfl rfl rfl rfl rfl rfl rfl rfl rfl rfl
    | split

theorem same_noteBleed {s0 : State} {r : Nat} {apply : Nat} {nib : Nat} {s : State} (hs : Same s0 s) :
    Same s0 (noteBleed r apply nib s) := by
  unfold noteBleed
  try dsimp only
  repeat' first
    | with_reducible assumption
    | with_reducible refine Same.ite ?_ ?_
    | with_reducible refine same_updDrive ?_
    | with_reducible fail_if_no_progress refine Same.of ?_ rfl rfl rfl rfl rfl rfl rfl rfl rfl rfl rfl rfl rfl rfl rfl rfl rfl
    | split

theorem same_sendSafe {s0 : State} {r : Nat} {nib : Nat} {s : State} (hs : Same s0 s) :
    Same s0 (sendSafe r nib s) := by
  unfold sendSafe
  try dsimp only
  repeat' first
    | with_reducible assumption
    | with_reducible refine Same.ite ?_ ?_
    | with_reducible refine same_sendFrame ?_
    | with_reducible refine same_stringDischarge ?_
    | with_reducible refine same_noteBleed ?_
    | with_reducible fail_if_no_progress refine Same.of ?_ rfl rfl rfl rfl rfl rfl rfl rfl rfl rfl rfl rfl rfl rfl rfl rfl rfl
    | split

theorem same_sendNormal {s0 : State} {r : Nat} {f : DownFrame} {s : State} (hs : Same s0 s) :
    Same s0 (sendNormal r f s) := by
  unfold sendNormal
  try dsimp only
  repeat' first
    | with_reducible assumption
    | with_reducible refine Same.ite ?_ ?_
    | with_reducible refine same_updRing ?_
    | with_reducible refine same_parCount ?_
    | with_reducible refine same_mgmtMissing ?_
    | with_reducible refine same_sendFrame ?_

theorem same_sendRepeat {s0 : State} {r : Nat} {apply : Nat} {s : State} (hs : Same s0 s) :
    Same s0 (sendRepeat r apply s) := by
  unfold sendRepeat
  try dsimp only
  repeat' first
    | with_reducible assumption
    | with_reducible refine Same.ite ?_ ?_
    | with_reducible refine same_updRing ?_
    | with_reducible refine same_parCount ?_
    | with_reducible refine same_raiseWith ?_
    | with_reducible refine same_sendFrame ?_

theorem same_queueFragments {s0 : State} {r : Nat} {b : List Nat} {s : State} (hs : Same s0 s) :
    Same s0 (queueFragments r b s) := by
  unfold queueFragments
  try dsimp only
  repeat' first
    | with_reducible assumption
    | with_reducible refine Same.ite ?_ ?_
    | with_reducible refine same_queueCell ?_
    | with_reducible refine Same.forEach ?_ (fun _ _ _ => ?_)

theorem same_queueRingFrame {s0 : State} {r : Nat} {f : DownFrame} {s : State} (hs : Same s0 s) :
    Same s0 (queueRingFrame r f s) := by
  unfold queueRingFrame
  try dsimp only
  repeat' first
    | with_reducible assumption
    | with_reducible refine Same.ite ?_ ?_
    | with_reducible refine same_queueFragments ?_

theorem same_farContent {s0 : State} {r : Nat} {s : State} (hs : Same s0 s) :
    Same s0 (farContent r s) := by
  unfold farContent
  try dsimp only
  repeat' first
    | with_reducible assumption
    | with_reducible refine Same.ite ?_ ?_
    | with_reducible refine same_queueRingFrame ?_
    | with_reducible fail_if_no_progress refine Same.of ?_ rfl rfl rfl rfl rfl rfl rfl rfl rfl rfl rfl rfl rfl rfl rfl rfl rfl
    | split

theorem same_startPass {s0 : State} {r : Nat} {expect : Nat} {tag : Option Nat} {far : Bool} {startup : Bool} {s : State} (hs : Same s0 s) :
    Same s0 (startPass r expect tag far startup s) := by
  unfold startPass
  try dsimp only
  repeat' first
    | with_reducible assumption
    | with_reducible refine Same.ite ?_ ?_
    | with_reducible refine same_updRing ?_
    | with_reducible refine same_parSetField ?_

theorem same_clearEntryMarks {s0 : State} {d : Nat} {s : State} (hs : Same s0 s) :
    Same s0 (clearEntryMarks d s) := by
  unfold clearEntryMarks
  try dsimp only
  repeat' first
    | with_reducible assumption
    | with_reducible refine Same.ite ?_ ?_
    | with_reducible refine same_setMark ?_

theorem same_enumDirectory {s0 : State} {r : Nat} {result : Nat} {p : EnumPass} {s : State} (hs : Same s0 s) :
    Same s0 (enumDirectory r result p s) := by
  unfold enumDirectory
  try dsimp only
  repeat' first
    | with_reducible assumption
    | with_reducible refine Same.ite ?_ ?_
    | with_reducible refine same_updEntry ?_
    | with_reducible refine same_record ?_
    | with_reducible refine same_clearEntryMarks ?_
    | with_reducible refine Same.forUpTo ?_ (fun _ _ _ => ?_)

theorem same_enumDone {s0 : State} {r : Nat} {p : EnumPass} {result : Nat} {s : State} (hs : Same s0 s) :
    Same s0 (enumDone r p result s) := by
  unfold enumDone
  try dsimp only
  repeat' first
    | with_reducible assumption
    | with_reducible refine Same.ite ?_ ?_
    | with_reducible refine same_updRing ?_
    | with_reducible refine same_record ?_
    | with_reducible refine same_completeTag ?_
    | with_reducible fail_if_no_progress refine Same.of ?_ rfl rfl rfl rfl rfl rfl rfl rfl rfl rfl rfl rfl rfl rfl rfl rfl rfl
    | split

theorem same_finishPass {s0 : State} {r : Nat} {result : Nat} {p : EnumPass} {s : State} (hs : Same s0 s) :
    Same s0 (finishPass r result p s) := by
  unfold finishPass
  try dsimp only
  repeat' first
    | with_reducible assumption
    | with_reducible refine Same.ite ?_ ?_
    | with_reducible refine same_updRing ?_
    | with_reducible refine same_parSet ?_
    | with_reducible refine same_enumDirectory ?_
    | with_reducible refine same_enumDone ?_

theorem same_sendEnum {s0 : State} {r : Nat} {p : EnumPass} {s : State} (hs : Same s0 s) :
    Same s0 (sendEnum r p s) := by
  unfold sendEnum
  try dsimp only
  repeat' first
    | with_reducible assumption
    | with_reducible refine Same.ite ?_ ?_
    | with_reducible refine same_updRing ?_
    | with_reducible refine same_sendFrame ?_
    | with_reducible refine same_finishPass ?_
    | with_reducible fail_if_no_progress refine Same.of ?_ rfl rfl rfl rfl rfl rfl rfl rfl rfl rfl rfl rfl rfl rfl rfl rfl rfl
    | split

theorem same_enumReturn {s0 : State} {r : Nat} {p : EnumPass} {f : RetFrame} {s : State} (hs : Same s0 s) :
    Same s0 (enumReturn r p f s) := by
  unfold enumReturn
  try dsimp only
  repeat' first
    | with_reducible assumption
    | with_reducible refine Same.ite ?_ ?_
    | with_reducible refine same_updRing ?_
    | with_reducible refine same_finishPass ?_
    | with_reducible fail_if_no_progress refine Same.of ?_ rfl rfl rfl rfl rfl rfl rfl rfl rfl rfl rfl rfl rfl rfl rfl rfl rfl
    | split

theorem same_enumFrame {s0 : State} {r : Nat} {p : EnumPass} {s : State} (hs : Same s0 s) :
    Same s0 (enumFrame r p s) := by
  unfold enumFrame
  try dsimp only
  repeat' first
    | with_reducible assumption
    | with_reducible refine Same.ite ?_ ?_
    | with_reducible refine same_sendEnum ?_

theorem same_crcEvent {s0 : State} {r : Nat} {return_ : Bool} {s : State} (hs : Same s0 s) :
    Same s0 (crcEvent r return_ s) := by
  unfold crcEvent
  try dsimp only
  repeat' first
    | with_reducible assumption
    | with_reducible refine Same.ite ?_ ?_
    | with_reducible refine same_updRing ?_
    | with_reducible refine same_recordUntested ?_

theorem same_foldNibble {s0 : State} {r : Nat} {p : Nat} {nib : Nat} {covered : Bool} {s : State} (hs : Same s0 s) :
    Same s0 (foldNibble r p nib covered s) := by
  unfold foldNibble
  try dsimp only
  repeat' first
    | with_reducible assumption
    | with_reducible refine Same.ite ?_ ?_
    | with_reducible refine same_updEntry ?_
    | with_reducible refine same_parCount ?_
    | with_reducible refine same_record ?_
    | with_reducible refine same_raiseWith ?_
    | with_reducible refine same_setExcl ?_
    | with_reducible refine same_crcEvent ?_

theorem same_foldSlot {s0 : State} {r : Nat} {p : Nat} {slot : Word} {at_ : Nat} {s : State} (hs : Same s0 s) :
    Same s0 (foldSlot r p slot at_ s) := by
  unfold foldSlot
  try dsimp only
  repeat' first
    | with_reducible assumption
    | with_reducible refine Same.ite ?_ ?_
    | with_reducible refine same_updDrive ?_
    | with_reducible refine same_updEntry ?_
    | with_reducible refine same_setMark ?_
    | with_reducible fail_if_no_progress refine Same.of ?_ rfl rfl rfl rfl rfl rfl rfl rfl rfl rfl rfl rfl rfl rfl rfl rfl rfl
    | split

theorem same_foldHops {s0 : State} {r : Nat} {f : RetFrame} {s : State} (hs : Same s0 s) :
    Same s0 (foldHops r f s) := by
  unfold foldHops
  try dsimp only
  repeat' first
    | with_reducible assumption
    | with_reducible refine Same.ite ?_ ?_
    | with_reducible refine same_updRing ?_
    | with_reducible refine same_updEntry ?_
    | with_reducible refine same_ringBreak ?_
    | with_reducible refine Same.forEach ?_ (fun _ _ _ => ?_)

theorem same_foldReturn {s0 : State} {r : Nat} {f : RetFrame} {at_ : Nat} {s : State} (hs : Same s0 s) :
    Same s0 (foldReturn r f at_ s) := by
  unfold foldReturn
  try dsimp only
  repeat' first
    | with_reducible assumption
    | with_reducible refine Same.ite ?_ ?_
    | with_reducible refine same_updRing ?_
    | with_reducible refine same_stringDischarge ?_
    | with_reducible refine same_foldNibble ?_
    | with_reducible refine same_foldSlot ?_
    | with_reducible refine Same.forUpTo ?_ (fun _ _ _ => ?_)
    | with_reducible fail_if_no_progress refine Same.of ?_ rfl rfl rfl rfl rfl rfl rfl rfl rfl rfl rfl rfl rfl rfl rfl rfl rfl
    | split

theorem same_takeFarReturn {s0 : State} {r : Nat} {f : RetFrame} {s : State} (hs : Same s0 s) :
    Same s0 (takeFarReturn r f s) := by
  unfold takeFarReturn
  try dsimp only
  repeat' first
    | with_reducible assumption
    | with_reducible refine Same.ite ?_ ?_
    | with_reducible refine same_updRing ?_
    | with_reducible refine same_excludeUnreached ?_
    | with_reducible refine same_foldReturn ?_

theorem same_farReturnHome {s0 : State} {r : Nat} {f : RetFrame} {b : List Nat} {s : State} (hs : Same s0 s) :
    Same s0 (farReturnHome r f b s) := by
  unfold farReturnHome
  try dsimp only
  repeat' first
    | with_reducible assumption
    | with_reducible refine Same.ite ?_ ?_
    | with_reducible refine same_updRing ?_
    | with_reducible refine same_queueFragments ?_

theorem same_badReturn {s0 : State} {r : Nat} {s : State} (hs : Same s0 s) :
    Same s0 (badReturn r s) := by
  unfold badReturn
  try dsimp only
  repeat' first
    | with_reducible assumption
    | with_reducible refine Same.ite ?_ ?_
    | with_reducible refine same_updRing ?_
    | with_reducible refine same_mgmtFail ?_
    | with_reducible fail_if_no_progress refine Same.of ?_ rfl rfl rfl rfl rfl rfl rfl rfl rfl rfl rfl rfl rfl rfl rfl rfl rfl
    | split

theorem same_execReturnFrame {s0 : State} {r : Nat} {bytes : List Nat} {rt : Nat} {s : State} (hs : Same s0 s) :
    ∃ v0, execReturnFrame r bytes rt s = .next v0 ∧ Same s0 v0 := by
  refine ⟨_, rfl, ?_⟩
  try dsimp only
  repeat' first
    | with_reducible assumption
    | with_reducible refine Same.ite ?_ ?_
    | with_reducible refine same_updRing ?_
    | with_reducible refine same_parCount ?_
    | with_reducible refine same_mgmtReply ?_
    | with_reducible refine same_enumReturn ?_
    | with_reducible refine same_crcEvent ?_
    | with_reducible refine same_foldHops ?_
    | with_reducible refine same_foldReturn ?_
    | with_reducible refine same_farReturnHome ?_
    | with_reducible refine same_badReturn ?_
    | with_reducible fail_if_no_progress refine Same.of ?_ rfl rfl rfl rfl rfl rfl rfl rfl rfl rfl rfl rfl rfl rfl rfl rfl rfl
    | split

theorem same_execFrameSend {s0 : State} {r : Nat} {s : State} (hs : Same s0 s) :
    ∃ v0, execFrameSend r s = .next v0 ∧ Same s0 v0 := by
  refine ⟨_, rfl, ?_⟩
  try dsimp only
  repeat' first
    | with_reducible assumption
    | with_reducible refine Same.ite ?_ ?_
    | with_reducible refine same_updRing ?_
    | with_reducible refine same_mgmtMissing ?_
    | with_reducible refine same_sendFrame ?_
    | with_reducible refine same_sendSafe ?_
    | with_reducible refine same_sendNormal ?_
    | with_reducible refine same_farContent ?_
    | with_reducible refine same_enumFrame ?_
    | with_reducible fail_if_no_progress refine Same.of ?_ rfl rfl rfl rfl rfl rfl rfl rfl rfl rfl rfl rfl rfl rfl rfl rfl rfl
    | split

theorem same_execFrameLate {s0 : State} {r : Nat} {s : State} (hs : Same s0 s) :
    ∃ v0, execFrameLate r s = .next v0 ∧ Same s0 v0 := by
  refine ⟨_, rfl, ?_⟩
  try dsimp only
  repeat' first
    | with_reducible assumption
    | with_reducible refine Same.ite ?_ ?_
    | with_reducible refine same_sendRepeat ?_
    | with_reducible refine same_farContent ?_
    | with_reducible fail_if_no_progress refine Same.of ?_ rfl rfl rfl rfl rfl rfl rfl rfl rfl rfl rfl rfl rfl rfl rfl rfl rfl
    | split

theorem same_execSafeFrame {s0 : State} {r : Nat} {s : State} (hs : Same s0 s) :
    ∃ v0, execSafeFrame r s = .next v0 ∧ Same s0 v0 := by
  refine ⟨_, rfl, ?_⟩
  try dsimp only
  repeat' first
    | with_reducible assumption
    | with_reducible refine Same.ite ?_ ?_
    | with_reducible refine same_updRing ?_
    | with_reducible refine same_sendSafe ?_
    | with_reducible refine same_farContent ?_
    | with_reducible fail_if_no_progress refine Same.of ?_ rfl rfl rfl rfl rfl rfl rfl rfl rfl rfl rfl rfl rfl rfl rfl rfl rfl
    | split

theorem same_execRingLinkChange {s0 : State} {r : Nat} {up : Bool} {lock : Bool} {s : State} (hs : Same s0 s) :
    ∃ v0, execRingLinkChange r up lock s = .next v0 ∧ Same s0 v0 := by
  refine ⟨_, rfl, ?_⟩
  try dsimp only
  repeat' first
    | with_reducible assumption
    | with_reducible refine Same.ite ?_ ?_
    | with_reducible refine same_updRing ?_

theorem same_execEnumLinkTimeout {s0 : State} {r : Nat} {s : State} (hs : Same s0 s) :
    ∃ v0, execEnumLinkTimeout r s = .next v0 ∧ Same s0 v0 := by
  refine ⟨_, rfl, ?_⟩
  try dsimp only
  repeat' first
    | with_reducible assumption
    | with_reducible refine Same.ite ?_ ?_
    | with_reducible refine same_finishPass ?_
    | with_reducible fail_if_no_progress refine Same.of ?_ rfl rfl rfl rfl rfl rfl rfl rfl rfl rfl rfl rfl rfl rfl rfl rfl rfl
    | split

theorem same_execEnumFarPass {s0 : State} {r : Nat} {expect : Nat} {result : Nat} {delays : List Nat} {s : State} (hs : Same s0 s) :
    ∃ v0, execEnumFarPass r expect result delays s = .next v0 ∧ Same s0 v0 := by
  refine ⟨_, rfl, ?_⟩
  try dsimp only
  repeat' first
    | with_reducible assumption
    | with_reducible refine Same.ite ?_ ?_
    | with_reducible refine same_updRing ?_
    | with_reducible refine same_updEntry ?_
    | with_reducible refine same_startPass ?_
    | with_reducible refine same_enumDone ?_
    | with_reducible refine Same.forUpTo ?_ (fun _ _ _ => ?_)
    | with_reducible fail_if_no_progress refine Same.of ?_ rfl rfl rfl rfl rfl rfl rfl rfl rfl rfl rfl rfl rfl rfl rfl rfl rfl
    | split

theorem same_execFarPortDownFrame {s0 : State} {r : Nat} {bytes : List Nat} {s : State} (hs : Same s0 s) :
    ∃ v0, execFarPortDownFrame r bytes s = .next v0 ∧ Same s0 v0 := by
  refine ⟨_, rfl, ?_⟩
  try dsimp only
  repeat' first
    | with_reducible assumption
    | with_reducible refine Same.ite ?_ ?_
    | with_reducible refine same_updRing ?_
    | with_reducible fail_if_no_progress refine Same.of ?_ rfl rfl rfl rfl rfl rfl rfl rfl rfl rfl rfl rfl rfl rfl rfl rfl rfl

theorem same_bodyRingEnumerate {s0 : State} {tag : Nat} {ws : List Word} {s : State} (hs : Same s0 s) :
    SameR s0 (bodyRingEnumerate tag ws s) := by
  unfold bodyRingEnumerate
  try dsimp only
  repeat' first
    | with_reducible assumption
    | with_reducible refine Same.ite ?_ ?_
    | with_reducible refine SameR.ite ?_ ?_
    | with_reducible refine SameR.done ?_
    | with_reducible refine SameR.wait ?_
    | with_reducible refine same_checked ?_ ?_
    | with_reducible refine same_startPass ?_

theorem same_queueMgmt {s0 : State} {r : Nat} {pos : Nat} {reg : Nat} {tag : Nat} {wdata : Option (BitVec 64)} {s : State} (hs : Same s0 s) :
    Same s0 (queueMgmt r pos reg tag wdata s) := by
  unfold queueMgmt
  try dsimp only
  repeat' first
    | with_reducible assumption
    | with_reducible refine Same.ite ?_ ?_
    | with_reducible refine same_updRing ?_

theorem same_bodyNodeRead {s0 : State} {tag : Nat} {ws : List Word} {s : State} (hs : Same s0 s) :
    SameR s0 (bodyNodeRead tag ws s) := by
  unfold bodyNodeRead
  try dsimp only
  repeat' first
    | with_reducible assumption
    | with_reducible refine Same.ite ?_ ?_
    | with_reducible refine SameR.ite ?_ ?_
    | with_reducible refine SameR.done ?_
    | with_reducible refine SameR.wait ?_
    | with_reducible refine same_checked ?_ ?_
    | with_reducible refine same_queueMgmt ?_

theorem same_bodyNodeWrite {s0 : State} {tag : Nat} {ws : List Word} {s : State} (hs : Same s0 s) :
    SameR s0 (bodyNodeWrite tag ws s) := by
  unfold bodyNodeWrite
  try dsimp only
  repeat' first
    | with_reducible assumption
    | with_reducible refine Same.ite ?_ ?_
    | with_reducible refine SameR.ite ?_ ?_
    | with_reducible refine SameR.done ?_
    | with_reducible refine SameR.wait ?_
    | with_reducible refine same_checked ?_ ?_
    | with_reducible refine same_queueMgmt ?_

theorem same_bodyCellExclude {s0 : State} {ws : List Word} {s : State} (hs : Same s0 s) :
    SameR s0 (bodyCellExclude ws s) := by
  unfold bodyCellExclude
  try dsimp only
  repeat' first
    | with_reducible assumption
    | with_reducible refine Same.ite ?_ ?_
    | with_reducible refine SameR.ite ?_ ?_
    | with_reducible refine SameR.done ?_
    | with_reducible refine SameR.wait ?_
    | with_reducible refine same_updEntry ?_
    | with_reducible refine same_checked ?_ ?_
    | with_reducible refine Same.forEach ?_ (fun _ _ _ => ?_)

theorem same_bodyCellInclude {s0 : State} {ws : List Word} {s : State} (hs : Same s0 s) :
    SameR s0 (bodyCellInclude ws s) := by
  unfold bodyCellInclude
  try dsimp only
  repeat' first
    | with_reducible assumption
    | with_reducible refine Same.ite ?_ ?_
    | with_reducible refine SameR.ite ?_ ?_
    | with_reducible refine SameR.done ?_
    | with_reducible refine SameR.wait ?_
    | with_reducible refine same_updEntry ?_
    | with_reducible refine same_setMark ?_
    | with_reducible refine same_checked ?_ ?_
    | with_reducible refine Same.forEach ?_ (fun _ _ _ => ?_)

theorem same_captureEntry {s0 : State} {d : Nat} {s : State} (hs : Same s0 s) :
    Same s0 (captureEntry d s) := by
  unfold captureEntry
  try dsimp only
  repeat' first
    | with_reducible assumption
    | with_reducible refine Same.ite ?_ ?_
    | with_reducible fail_if_no_progress refine Same.of ?_ rfl rfl rfl rfl rfl rfl rfl rfl rfl rfl rfl rfl rfl rfl rfl rfl rfl

end Sys2Proof.Laws
end

