-- ==== Sys2Proof/Laws/KeepGraver.lean ====
section
/-!
SUPPORT. What Graver, timing, Stop-out and the pair keep (Laws/Frame.lean): one lemma for each operation and each meaning.
-/
namespace Sys2Proof.Laws
open Sys2Proof.Machine Sys2Proof.Safety

/-! Graver. -/

theorem same_destDrop {s0 : State} {s : State} (hs : Same s0 s) :
    Same s0 (destDrop s) := by
  unfold destDrop
  try dsimp only
  repeat' first
    | with_reducible assumption
    | with_reducible refine Same.ite ?_ ?_
    | with_reducible refine same_parCount ?_

theorem same_setTarget {s0 : State} {b : Nat} {k : Nat} {v : Word} {t0 : Option Nat} {s : State} (hs : Same s0 s) :
    Same s0 (setTarget b k v t0 s) := by
  unfold setTarget
  try dsimp only
  repeat' first
    | with_reducible assumption
    | with_reducible refine Same.ite ?_ ?_
    | with_reducible refine same_updCtx ?_

theorem same_writeSlot {s0 : State} {n : Nat} {w : Word} {v : Word} {t0 : Nat} {s : State} (hs : Same s0 s) :
    Same s0 (writeSlot n w v t0 s) := by
  unfold writeSlot
  try dsimp only
  repeat' first
    | with_reducible assumption
    | with_reducible refine Same.ite ?_ ?_
    | with_reducible refine same_updRing ?_
    | with_reducible refine same_updRegn ?_
    | with_reducible refine same_destDrop ?_
    | with_reducible refine same_setTarget ?_
    | with_reducible fail_if_no_progress refine Same.of ?_ rfl rfl rfl rfl rfl rfl rfl rfl rfl rfl rfl rfl rfl rfl rfl rfl rfl
    | split

theorem same_writeFront {s0 : State} {l : List (Word × Word)} {d : Nat} {s : State} (hs : Same s0 s) :
    Same s0 (writeFront l d s) := by
  unfold writeFront
  try dsimp only
  repeat' first
    | with_reducible assumption
    | with_reducible refine Same.ite ?_ ?_
    | with_reducible refine same_frontUpdate ?_
    | with_reducible refine same_destDrop ?_
    | with_reducible refine Same.forEach ?_ (fun _ _ _ => ?_)

theorem same_writeDests {s0 : State} {n : Nat} {slots : List Word} {t0 : Nat} {all : Bool} {s : State} (hs : Same s0 s) :
    Same s0 (writeDests n slots t0 all s) := by
  unfold writeDests
  try dsimp only
  repeat' first
    | with_reducible assumption
    | with_reducible refine Same.ite ?_ ?_
    | with_reducible refine same_destDrop ?_
    | with_reducible refine same_writeSlot ?_
    | with_reducible refine same_writeFront ?_
    | with_reducible refine Same.forUpTo ?_ (fun _ _ _ => ?_)
    | with_reducible refine Same.forEach ?_ (fun _ _ _ => ?_)

theorem same_landOutside {s0 : State} {n : Nat} {slots : List Word} {t0 : Nat} {s : State} (hs : Same s0 s) :
    Same s0 (landOutside n slots t0 s) := by
  unfold landOutside
  try dsimp only
  repeat' first
    | with_reducible assumption
    | with_reducible refine Same.ite ?_ ?_
    | with_reducible refine same_writeSlot ?_
    | with_reducible refine Same.forEach ?_ (fun _ _ _ => ?_)

theorem same_markFaulted {s0 : State} {n : Nat} {cause : Nat} {code : Nat} {args : List Word} {s : State} (hs : Same s0 s) :
    Same s0 (markFaulted n cause code args s) := by
  unfold markFaulted
  try dsimp only
  repeat' first
    | with_reducible assumption
    | with_reducible refine Same.ite ?_ ?_
    | with_reducible refine same_updCtx ?_
    | with_reducible refine same_raiseWith ?_
    | with_reducible refine same_resolverFault ?_

theorem same_faultCtx {s0 : State} {n : Nat} {cause : Nat} {t0 : Nat} {s : State} (hs : Same s0 s) :
    Same s0 (faultCtx n cause t0 s) := by
  unfold faultCtx
  try dsimp only
  repeat' first
    | with_reducible assumption
    | with_reducible refine Same.ite ?_ ?_
    | with_reducible refine same_writeDests ?_
    | with_reducible refine same_markFaulted ?_

theorem keeps_faultCtx {s0 : State} {n : Nat} {cause : Nat} {t0 : Nat} {s : State} (hs : Keeps s0 s) :
    Keeps s0 (faultCtx n cause t0 s) := hs.after (same_faultCtx (Same.refl _))

theorem same_publish {s0 : State} {n : Nat} {slots : List Word} {s : State} (hs : Same s0 s) :
    Same s0 (publish n slots s) := by
  unfold publish
  try dsimp only
  repeat' first
    | with_reducible assumption
    | with_reducible refine Same.ite ?_ ?_
    | with_reducible refine same_updCtx ?_

theorem same_missCtx {s0 : State} {n : Nat} {t0 : Nat} {s : State} (hs : Same s0 s) :
    Same s0 (missCtx n t0 s) := by
  unfold missCtx
  try dsimp only
  repeat' first
    | with_reducible assumption
    | with_reducible refine Same.ite ?_ ?_
    | with_reducible refine same_updCtx ?_
    | with_reducible refine same_parCount ?_
    | with_reducible refine same_record ?_
    | with_reducible refine same_faultCtx ?_
    | with_reducible refine same_publish ?_

theorem same_laneStore {s0 : State} {all : List AdmCtx} {s : State} (hs : Same s0 s) :
    Same s0 (laneStore all s) := by
  unfold laneStore
  try dsimp only
  repeat' first
    | with_reducible assumption
    | with_reducible refine Same.ite ?_ ?_
    | with_reducible fail_if_no_progress refine Same.of ?_ rfl rfl rfl rfl rfl rfl rfl rfl rfl rfl rfl rfl rfl rfl rfl rfl rfl

theorem same_admStore {s0 : State} {all : List AdmCtx} {ws : Tbl Nat} {s : State} (hs : Same s0 s) :
    Same s0 (admStore all ws s) := by
  unfold admStore
  try dsimp only
  repeat' first
    | with_reducible assumption
    | with_reducible refine Same.ite ?_ ?_
    | with_reducible refine same_updCtx ?_
    | with_reducible refine same_laneStore ?_
    | with_reducible refine Same.forEach ?_ (fun _ _ _ => ?_)

theorem same_admAccount {s0 : State} {s : State} (hs : Same s0 s) :
    Same s0 (admAccount s) := by
  unfold admAccount
  try dsimp only
  repeat' first
    | with_reducible assumption
    | with_reducible refine Same.ite ?_ ?_
    | with_reducible refine same_admStore ?_
    | with_reducible fail_if_no_progress refine Same.of ?_ rfl rfl rfl rfl rfl rfl rfl rfl rfl rfl rfl rfl rfl rfl rfl rfl rfl
    | split

theorem same_admRecheck {s0 : State} {s : State} (hs : Same s0 s) :
    Same s0 (admRecheck s) := by
  unfold admRecheck
  try dsimp only
  repeat' first
    | with_reducible assumption
    | with_reducible refine Same.ite ?_ ?_
    | with_reducible refine same_record ?_
    | with_reducible refine same_laneStore ?_
    | with_reducible refine same_admStore ?_
    | with_reducible fail_if_no_progress refine Same.of ?_ rfl rfl rfl rfl rfl rfl rfl rfl rfl rfl rfl rfl rfl rfl rfl rfl rfl
    | split

theorem same_answerWaits {s0 : State} {s : State} (hs : Same s0 s) :
    Same s0 (answerWaits s) := by
  unfold answerWaits
  try dsimp only
  repeat' first
    | with_reducible assumption
    | with_reducible refine Same.ite ?_ ?_
    | with_reducible refine same_completeTag ?_
    | with_reducible refine Same.forEach ?_ (fun _ _ _ => ?_)
    | with_reducible fail_if_no_progress refine Same.of ?_ rfl rfl rfl rfl rfl rfl rfl rfl rfl rfl rfl rfl rfl rfl rfl rfl rfl

theorem same_stopCtx {s0 : State} {n : Nat} {s : State} (hs : Same s0 s) :
    Same s0 (stopCtx n s) := by
  unfold stopCtx
  try dsimp only
  repeat' first
    | with_reducible assumption
    | with_reducible refine Same.ite ?_ ?_
    | with_reducible refine same_updCtx ?_
    | with_reducible refine same_record ?_
    | with_reducible refine same_writeDests ?_
    | with_reducible refine same_admAccount ?_
    | with_reducible refine same_answerWaits ?_

theorem keeps_stopCtx {s0 : State} {n : Nat} {s : State} (hs : Keeps s0 s) :
    Keeps s0 (stopCtx n s) := hs.after (same_stopCtx (Same.refl _))

theorem same_endInst {s0 : State} {n : Nat} {s : State} (hs : Same s0 s) :
    Same s0 (endInst n s) := by
  unfold endInst
  try dsimp only
  repeat' first
    | with_reducible assumption
    | with_reducible refine Same.ite ?_ ?_
    | with_reducible refine same_updCtx ?_

theorem same_written {s0 : State} {fuel : Nat} : ∀ {n : Nat} {slots : List Word} {s : State}, Same s0 s → Same s0 (written fuel n slots s) := by
  induction fuel with
  | zero =>
    intro _ _ s hs
    unfold written
    try dsimp only
    repeat' first
      | with_reducible assumption
  | succ _ ih =>
    intro _ _ s hs
    unfold written
    try dsimp only
    repeat' first
      | with_reducible assumption
      | with_reducible refine Same.ite ?_ ?_
      | with_reducible refine ih ?_
      | with_reducible refine same_updCtx ?_
      | with_reducible refine same_writeDests ?_
      | with_reducible refine same_stopCtx ?_
      | with_reducible refine Same.forEach ?_ (fun _ _ _ => ?_)
      | with_reducible fail_if_no_progress refine Same.of ?_ rfl rfl rfl rfl rfl rfl rfl rfl rfl rfl rfl rfl rfl rfl rfl rfl rfl
      | split

theorem keeps_written {s0 : State} {fuel : Nat} {n : Nat} {slots : List Word} {s : State} (hs : Keeps s0 s) :
    Keeps s0 (written fuel n slots s) := hs.after (same_written (Same.refl _))

theorem same_passOn {s0 : State} {n : Nat} {t0 : Nat} {s : State} (hs : Same s0 s) :
    Same s0 (passOn n t0 s) := by
  unfold passOn
  try dsimp only
  repeat' first
    | with_reducible assumption
    | with_reducible refine Same.ite ?_ ?_
    | with_reducible refine same_writeDests ?_
    | with_reducible refine same_stopCtx ?_
    | with_reducible refine same_written ?_

theorem keeps_passOn {s0 : State} {n : Nat} {t0 : Nat} {s : State} (hs : Keeps s0 s) :
    Keeps s0 (passOn n t0 s) := hs.after (same_passOn (Same.refl _))

theorem same_deadlineAct {s0 : State} {n : Nat} {s : State} (hs : Same s0 s) :
    Same s0 (deadlineAct n s) := by
  unfold deadlineAct
  try dsimp only
  repeat' first
    | with_reducible assumption
    | with_reducible refine Same.ite ?_ ?_
    | with_reducible refine same_updCtx ?_
    | with_reducible refine same_landOutside ?_
    | with_reducible refine same_publish ?_
    | with_reducible refine same_missCtx ?_
    | with_reducible refine same_stopCtx ?_
    | with_reducible refine same_endInst ?_
    | with_reducible refine same_written ?_
    | with_reducible fail_if_no_progress refine Same.of ?_ rfl rfl rfl rfl rfl rfl rfl rfl rfl rfl rfl rfl rfl rfl rfl rfl rfl
    | split

theorem same_dueAct {s0 : State} {n : Nat} {t : Nat} {s : State} (hs : Same s0 s) :
    Same s0 (dueAct n t s) := by
  unfold dueAct
  try dsimp only
  repeat' first
    | with_reducible assumption
    | with_reducible refine Same.ite ?_ ?_
    | with_reducible refine same_deadlineAct ?_
    | with_reducible fail_if_no_progress refine Same.of ?_ rfl rfl rfl rfl rfl rfl rfl rfl rfl rfl rfl rfl rfl rfl rfl rfl rfl
    | split

theorem same_rootReady {s0 : State} {n : Nat} {t0 : Nat} {snap : Snap} {s : State} (hs : Same s0 s) :
    Same s0 (rootReady n t0 snap s) := by
  unfold rootReady
  try dsimp only
  repeat' first
    | with_reducible assumption
    | with_reducible refine Same.ite ?_ ?_
    | with_reducible refine same_updCtx ?_
    | with_reducible refine same_passOn ?_
    | with_reducible refine same_dueAct ?_
    | with_reducible refine Same.forEach ?_ (fun _ _ _ => ?_)
    | with_reducible fail_if_no_progress refine Same.of ?_ rfl rfl rfl rfl rfl rfl rfl rfl rfl rfl rfl rfl rfl rfl rfl rfl rfl
    | split

theorem same_beginInst {s0 : State} {n : Nat} {t : Nat} {s : State} (hs : Same s0 s) :
    Same s0 (beginInst n t s) := by
  unfold beginInst
  try dsimp only
  repeat' first
    | with_reducible assumption
    | with_reducible refine Same.ite ?_ ?_
    | with_reducible refine same_updCtx ?_
    | with_reducible refine same_dueAct ?_

theorem same_rootTriggers {s0 : State} {q : Nat} {t : Nat} {s : State} (hs : Same s0 s) :
    Same s0 (rootTriggers q t s) := by
  unfold rootTriggers
  try dsimp only
  repeat' first
    | with_reducible assumption
    | with_reducible refine Same.ite ?_ ?_
    | with_reducible refine same_updCtx ?_
    | with_reducible refine same_missCtx ?_
    | with_reducible refine same_beginInst ?_
    | with_reducible refine Same.forEach ?_ (fun _ _ _ => ?_)

theorem keeps_execContextEvaluation {s0 : State} {lane : Nat} {s : State} (hs : Keeps s0 s) :
    ∃ v0, execContextEvaluation lane s = .next v0 ∧ Keeps s0 v0 := by
  refine ⟨_, rfl, ?_⟩
  try dsimp only
  repeat' first
    | with_reducible assumption
    | with_reducible refine Keeps.ite ?_ ?_
    | with_reducible refine keeps_updCtx ?_
    | with_reducible refine keeps_readCells ?_
    | with_reducible refine keeps_consume ?_
    | with_reducible refine keeps_faultCtx ?_
    | with_reducible refine keeps_stopCtx ?_
    | with_reducible refine keeps_written ?_
    | with_reducible refine keeps_passOn ?_
    | with_reducible fail_if_no_progress refine Keeps.of ?_ rfl rfl rfl rfl rfl rfl rfl rfl rfl rfl rfl rfl rfl rfl rfl rfl rfl
    | with_reducible refine Keeps.filter ?_ rfl rfl (fun h => ?_)
    | split

theorem same_storeRun {s0 : State} {n : Nat} {t0 : Nat} {r : EvalRes} {s : State} (hs : Same s0 s) :
    Same s0 (storeRun n t0 r s) := by
  unfold storeRun
  try dsimp only
  repeat' first
    | with_reducible assumption
    | with_reducible refine Same.ite ?_ ?_
    | with_reducible refine same_updCtx ?_

theorem same_writeBack {s0 : State} {n : Nat} {i : Inst} {r : EvalRes} {s : State} (hs : Same s0 s) :
    Same s0 (writeBack n i r s) := by
  unfold writeBack
  try dsimp only
  repeat' first
    | with_reducible assumption
    | with_reducible refine Same.ite ?_ ?_
    | with_reducible refine same_resolverUpdate ?_
    | with_reducible refine same_writeDests ?_
    | with_reducible refine same_markFaulted ?_
    | with_reducible refine same_faultCtx ?_
    | with_reducible refine same_stopCtx ?_
    | with_reducible refine same_written ?_
    | with_reducible refine same_passOn ?_
    | with_reducible refine same_storeRun ?_

theorem same_execContextWriteback {s0 : State} {n : Nat} {s : State} (hs : Same s0 s) :
    ∃ v0, execContextWriteback n s = .next v0 ∧ Same s0 v0 := by
  refine ⟨_, rfl, ?_⟩
  try dsimp only
  repeat' first
    | with_reducible assumption
    | with_reducible refine Same.ite ?_ ?_
    | with_reducible refine same_updCtx ?_
    | with_reducible refine same_stopCtx ?_
    | with_reducible refine same_endInst ?_
    | with_reducible refine same_writeBack ?_
    | with_reducible fail_if_no_progress refine Same.of ?_ rfl rfl rfl rfl rfl rfl rfl rfl rfl rfl rfl rfl rfl rfl rfl rfl rfl
    | split

theorem same_execDeadlineAction {s0 : State} {n : Nat} {s : State} (hs : Same s0 s) :
    ∃ v0, execDeadlineAction n s = .next v0 ∧ Same s0 v0 := by
  refine ⟨_, rfl, ?_⟩
  try dsimp only
  repeat' first
    | with_reducible assumption
    | with_reducible refine Same.ite ?_ ?_
    | with_reducible refine same_dueAct ?_

theorem same_execTrigTimeoutExpiry {s0 : State} {n : Nat} {s : State} (hs : Same s0 s) :
    ∃ v0, execTrigTimeoutExpiry n s = .next v0 ∧ Same s0 v0 := by
  refine ⟨_, rfl, ?_⟩
  try dsimp only
  repeat' first
    | with_reducible assumption
    | with_reducible refine Same.ite ?_ ?_
    | with_reducible refine same_updCtx ?_
    | with_reducible refine same_missCtx ?_
    | with_reducible refine Same.forEach ?_ (fun _ _ _ => ?_)
    | with_reducible fail_if_no_progress refine Same.of ?_ rfl rfl rfl rfl rfl rfl rfl rfl rfl rfl rfl rfl rfl rfl rfl rfl rfl
    | split

theorem same_execAdmissionRecheck {s0 : State} {s : State} (hs : Same s0 s) :
    ∃ v0, execAdmissionRecheck s = .next v0 ∧ Same s0 v0 := by
  refine ⟨_, rfl, ?_⟩
  try dsimp only
  repeat' first
    | with_reducible assumption
    | with_reducible refine Same.ite ?_ ?_
    | with_reducible refine same_admRecheck ?_

theorem same_bodyCtxLoad {s0 : State} {ws : List Word} {s : State} (hs : Same s0 s) :
    SameR s0 (bodyCtxLoad ws s) := by
  unfold bodyCtxLoad
  try dsimp only
  repeat' first
    | with_reducible assumption
    | with_reducible refine Same.ite ?_ ?_
    | with_reducible refine SameR.ite ?_ ?_
    | with_reducible refine SameR.done ?_
    | with_reducible refine SameR.wait ?_
    | with_reducible refine same_updCtx ?_
    | with_reducible refine same_freshWords ?_
    | with_reducible refine same_checked ?_ ?_

theorem same_enableOne {s0 : State} {n : Nat} {init : Bool} {lane : Nat} {s : State} (hs : Same s0 s) :
    Same s0 (enableOne n init lane s) := by
  unfold enableOne
  try dsimp only
  repeat' first
    | with_reducible assumption
    | with_reducible refine Same.ite ?_ ?_
    | with_reducible refine same_updCtx ?_

theorem same_admRefuse {s0 : State} {n : Nat} {s : State} (hs : Same s0 s) :
    SameR s0 (admRefuse n s) := by
  unfold admRefuse
  try dsimp only
  repeat' first
    | with_reducible assumption
    | with_reducible refine Same.ite ?_ ?_
    | with_reducible refine SameR.ite ?_ ?_
    | with_reducible refine SameR.done ?_

theorem same_admitAndEnable {s0 : State} {ws : List Word} {s : State} (hs : Same s0 s) :
    SameR s0 (admitAndEnable ws s) := by
  unfold admitAndEnable
  try dsimp only
  repeat' first
    | with_reducible assumption
    | with_reducible refine Same.ite ?_ ?_
    | with_reducible refine SameR.ite ?_ ?_
    | with_reducible refine SameR.done ?_
    | with_reducible refine SameR.wait ?_
    | with_reducible refine same_admStore ?_
    | with_reducible refine same_enableOne ?_
    | with_reducible refine same_admRefuse ?_
    | with_reducible refine Same.forEach ?_ (fun _ _ _ => ?_)
    | with_reducible fail_if_no_progress refine Same.of ?_ rfl rfl rfl rfl rfl rfl rfl rfl rfl rfl rfl rfl rfl rfl rfl rfl rfl
    | split

theorem same_bodyCtxEnable {s0 : State} {ws : List Word} {s : State} (hs : Same s0 s) :
    SameR s0 (bodyCtxEnable ws s) := by
  unfold bodyCtxEnable
  try dsimp only
  repeat' first
    | with_reducible assumption
    | with_reducible refine Same.ite ?_ ?_
    | with_reducible refine SameR.ite ?_ ?_
    | with_reducible refine SameR.done ?_
    | with_reducible refine SameR.wait ?_
    | with_reducible refine same_checked ?_ ?_
    | with_reducible refine same_admitAndEnable ?_

theorem same_bodyCtxDisable {s0 : State} {tag : Nat} {ws : List Word} {s : State} (hs : Same s0 s) :
    SameR s0 (bodyCtxDisable tag ws s) := by
  unfold bodyCtxDisable
  try dsimp only
  repeat' first
    | with_reducible assumption
    | with_reducible refine Same.ite ?_ ?_
    | with_reducible refine SameR.ite ?_ ?_
    | with_reducible refine SameR.done ?_
    | with_reducible refine SameR.wait ?_
    | with_reducible refine same_updCtx ?_
    | with_reducible refine same_checked ?_ ?_
    | with_reducible refine same_stopCtx ?_
    | with_reducible refine Same.forEach ?_ (fun _ _ _ => ?_)
    | with_reducible fail_if_no_progress refine Same.of ?_ rfl rfl rfl rfl rfl rfl rfl rfl rfl rfl rfl rfl rfl rfl rfl rfl rfl

theorem same_bodyCtxRead {s0 : State} {ws : List Word} {s : State} (hs : Same s0 s) :
    SameR s0 (bodyCtxRead ws s) := by
  unfold bodyCtxRead
  try dsimp only
  repeat' first
    | with_reducible assumption
    | with_reducible refine Same.ite ?_ ?_
    | with_reducible refine SameR.ite ?_ ?_
    | with_reducible refine SameR.done ?_
    | with_reducible refine SameR.wait ?_
    | with_reducible refine same_checked ?_ ?_
    | with_reducible refine same_readCells ?_

theorem same_bodyMapLoad {s0 : State} {ws : List Word} {s : State} (hs : Same s0 s) :
    SameR s0 (bodyMapLoad ws s) := by
  unfold bodyMapLoad
  try dsimp only
  repeat' first
    | with_reducible assumption
    | with_reducible refine Same.ite ?_ ?_
    | with_reducible refine SameR.ite ?_ ?_
    | with_reducible refine SameR.done ?_
    | with_reducible refine SameR.wait ?_
    | with_reducible refine same_freshWords ?_
    | with_reducible refine same_checked ?_ ?_
    | with_reducible refine Same.forUpTo ?_ (fun _ _ _ => ?_)
    | with_reducible fail_if_no_progress refine Same.of ?_ rfl rfl rfl rfl rfl rfl rfl rfl rfl rfl rfl rfl rfl rfl rfl rfl rfl

theorem same_bodySetpoint {s0 : State} {ws : List Word} {s : State} (hs : Same s0 s) :
    SameR s0 (bodySetpoint ws s) := by
  unfold bodySetpoint
  try dsimp only
  repeat' first
    | with_reducible assumption
    | with_reducible refine Same.ite ?_ ?_
    | with_reducible refine SameR.ite ?_ ?_
    | with_reducible refine SameR.done ?_
    | with_reducible refine SameR.wait ?_
    | with_reducible refine same_checked ?_ ?_
    | with_reducible refine same_setTarget ?_

theorem same_write07 {s0 : State} {s : State} {i : Nat} {v : Word} (hs : Same s0 s) :
    Same s0 (write07 s i v) := by
  unfold write07
  try dsimp only
  repeat' first
    | with_reducible assumption
    | with_reducible refine Same.ite ?_ ?_
    | with_reducible refine same_updCtx ?_
    | with_reducible refine same_parSet ?_

theorem keeps_write07 {s0 : State} {s : State} {i : Nat} {v : Word} (hs : Keeps s0 s) :
    Keeps s0 (write07 s i v) := hs.after (same_write07 (Same.refl _))

/-! Timing. -/

theorem same_updTim {s0 : State} {s : State} {f : Timing → Timing} (hs : Same s0 s) :
    Same s0 (updTim s f) := by
  unfold updTim
  try dsimp only
  repeat' first
    | with_reducible assumption
    | with_reducible refine Same.ite ?_ ?_
    | with_reducible fail_if_no_progress refine Same.of ?_ rfl rfl rfl rfl rfl rfl rfl rfl rfl rfl rfl rfl rfl rfl rfl rfl rfl

theorem keeps_updTim {s0 : State} {s : State} {f : Timing → Timing} (hs : Keeps s0 s) :
    Keeps s0 (updTim s f) := hs.after (same_updTim (Same.refl _))

theorem same_enterHoldover {s0 : State} {s : State} (hs : Same s0 s) :
    Same s0 (enterHoldover s) := by
  unfold enterHoldover
  try dsimp only
  repeat' first
    | with_reducible assumption
    | with_reducible refine Same.ite ?_ ?_
    | with_reducible refine same_updTim ?_

theorem same_xinFault {s0 : State} {cause : Nat} {s : State} (hs : Same s0 s) :
    Same s0 (xinFault cause s) := by
  unfold xinFault
  try dsimp only
  repeat' first
    | with_reducible assumption
    | with_reducible refine Same.ite ?_ ?_
    | with_reducible refine same_raise ?_
    | with_reducible refine same_updTim ?_
    | with_reducible refine same_enterHoldover ?_

theorem same_execXinWindowEnd {s0 : State} {count : Nat} {s : State} (hs : Same s0 s) :
    ∃ v0, execXinWindowEnd count s = .next v0 ∧ Same s0 v0 := by
  refine ⟨_, rfl, ?_⟩
  try dsimp only
  repeat' first
    | with_reducible assumption
    | with_reducible refine Same.ite ?_ ?_
    | with_reducible refine same_parSet ?_
    | with_reducible refine same_parOr ?_
    | with_reducible refine same_updTim ?_
    | with_reducible refine same_xinFault ?_

theorem same_execXinEdgeTimeout {s0 : State} {s : State} (hs : Same s0 s) :
    ∃ v0, execXinEdgeTimeout s = .next v0 ∧ Same s0 v0 := by
  refine ⟨_, rfl, ?_⟩
  try dsimp only
  repeat' first
    | with_reducible assumption
    | with_reducible refine Same.ite ?_ ?_
    | with_reducible refine same_parOr ?_
    | with_reducible refine same_updTim ?_
    | with_reducible refine same_xinFault ?_

theorem same_execXinEdgeResume {s0 : State} {s : State} (hs : Same s0 s) :
    ∃ v0, execXinEdgeResume s = .next v0 ∧ Same s0 v0 := by
  refine ⟨_, rfl, ?_⟩
  try dsimp only
  repeat' first
    | with_reducible assumption
    | with_reducible refine Same.ite ?_ ?_
    | with_reducible refine same_updTim ?_

theorem same_pllUnlock {s0 : State} {d : Nat} {s : State} (hs : Same s0 s) :
    Same s0 (pllUnlock d s) := by
  unfold pllUnlock
  try dsimp only
  repeat' first
    | with_reducible assumption
    | with_reducible refine Same.ite ?_ ?_
    | with_reducible refine same_parOr ?_
    | with_reducible refine same_raise ?_
    | with_reducible refine same_updTim ?_
    | with_reducible refine same_enterHoldover ?_
    | with_reducible fail_if_no_progress refine Same.of ?_ rfl rfl rfl rfl rfl rfl rfl rfl rfl rfl rfl rfl rfl rfl rfl rfl rfl

theorem same_execPllLoss {s0 : State} {dom : Nat} {s : State} (hs : Same s0 s) :
    ∃ v0, execPllLoss dom s = .next v0 ∧ Same s0 v0 := by
  refine ⟨_, rfl, ?_⟩
  try dsimp only
  repeat' first
    | with_reducible assumption
    | with_reducible refine Same.ite ?_ ?_
    | with_reducible refine same_pllUnlock ?_

theorem same_supplyFault {s0 : State} {ch : Nat} {above : Bool} {s : State} (hs : Same s0 s) :
    Same s0 (supplyFault ch above s) := by
  unfold supplyFault
  try dsimp only
  repeat' first
    | with_reducible assumption
    | with_reducible refine Same.ite ?_ ?_
    | with_reducible refine same_raise ?_

theorem keeps_supplyFault {s0 : State} {ch : Nat} {above : Bool} {s : State} (hs : Keeps s0 s) :
    Keeps s0 (supplyFault ch above s) := hs.after (same_supplyFault (Same.refl _))

theorem same_raiseHeld {s0 : State} {s : State} (hs : Same s0 s) :
    Same s0 (raiseHeld s) := by
  unfold raiseHeld
  try dsimp only
  repeat' first
    | with_reducible assumption
    | with_reducible refine Same.ite ?_ ?_
    | with_reducible refine same_updTim ?_
    | with_reducible refine same_xinFault ?_
    | with_reducible refine same_pllUnlock ?_
    | with_reducible refine same_supplyFault ?_
    | with_reducible refine Same.forEach ?_ (fun _ _ _ => ?_)
    | with_reducible fail_if_no_progress refine Same.of ?_ rfl rfl rfl rfl rfl rfl rfl rfl rfl rfl rfl rfl rfl rfl rfl rfl rfl

theorem same_execPllLockTimeout {s0 : State} {dom : Nat} {s : State} (hs : Same s0 s) :
    ∃ v0, execPllLockTimeout dom s = .next v0 ∧ Same s0 v0 := by
  refine ⟨_, rfl, ?_⟩
  try dsimp only
  repeat' first
    | with_reducible assumption
    | with_reducible refine Same.ite ?_ ?_
    | with_reducible refine same_wcEvalAll ?_
    | with_reducible refine same_tripResample ?_
    | with_reducible refine same_updTim ?_
    | with_reducible refine same_pllUnlock ?_
    | with_reducible refine same_raiseHeld ?_
    | with_reducible fail_if_no_progress refine Same.of ?_ rfl rfl rfl rfl rfl rfl rfl rfl rfl rfl rfl rfl rfl rfl rfl rfl rfl

theorem same_startTimebases {s0 : State} {s : State} (hs : Same s0 s) :
    Same s0 (startTimebases s) := by
  unfold startTimebases
  try dsimp only
  repeat' first
    | with_reducible assumption
    | with_reducible refine Same.ite ?_ ?_
    | with_reducible refine same_startPeriod ?_
    | with_reducible refine Same.forUpTo ?_ (fun _ _ _ => ?_)

theorem same_execPllLocked {s0 : State} {dom : Nat} {td0 : Nat} {s : State} (hs : Same s0 s) :
    ∃ v0, execPllLocked dom td0 s = .next v0 ∧ Same s0 v0 := by
  refine ⟨_, rfl, ?_⟩
  try dsimp only
  repeat' first
    | with_reducible assumption
    | with_reducible refine Same.ite ?_ ?_
    | with_reducible refine same_parOr ?_
    | with_reducible refine same_wcEvalAll ?_
    | with_reducible refine same_tripResample ?_
    | with_reducible refine same_updTim ?_
    | with_reducible refine same_raiseHeld ?_
    | with_reducible refine same_startTimebases ?_
    | with_reducible fail_if_no_progress refine Same.of ?_ rfl rfl rfl rfl rfl rfl rfl rfl rfl rfl rfl rfl rfl rfl rfl rfl rfl

theorem same_execHoldoverEnd {s0 : State} {s : State} (hs : Same s0 s) :
    ∃ v0, execHoldoverEnd s = .next v0 ∧ Same s0 v0 := by
  refine ⟨_, rfl, ?_⟩
  try dsimp only
  repeat' first
    | with_reducible assumption
    | with_reducible refine Same.ite ?_ ?_
    | with_reducible refine same_settlePairs ?_
    | with_reducible refine same_updTim ?_

theorem same_execPaceMeasurement {s0 : State} {p0 : Nat} {p1 : Nat} {p2 : Nat} {p3 : Nat} {s : State} (hs : Same s0 s) :
    ∃ v0, execPaceMeasurement p0 p1 p2 p3 s = .next v0 ∧ Same s0 v0 := by
  refine ⟨_, rfl, ?_⟩
  try dsimp only
  repeat' first
    | with_reducible assumption
    | with_reducible refine Same.ite ?_ ?_
    | with_reducible refine same_parCount ?_
    | with_reducible refine same_readCells ?_
    | with_reducible refine same_raise ?_
    | with_reducible refine same_updTim ?_

theorem same_execPhaseSteer {s0 : State} {fwd : Bool} {s : State} (hs : Same s0 s) :
    ∃ v0, execPhaseSteer fwd s = .next v0 ∧ Same s0 v0 := by
  refine ⟨_, rfl, ?_⟩
  try dsimp only
  repeat' first
    | with_reducible assumption
    | with_reducible refine Same.ite ?_ ?_
    | with_reducible refine same_updTim ?_

theorem same_captureTime {s0 : State} {s : State} (hs : Same s0 s) :
    Same s0 (captureTime s) := by
  unfold captureTime
  try dsimp only
  repeat' first
    | with_reducible assumption
    | with_reducible refine Same.ite ?_ ?_
    | with_reducible refine same_parSet ?_

/-! StopOut. -/

theorem same_configureDrive {s0 : State} {d : Nat} {w : Word} {s : State} (hs : Same s0 s) :
    Same s0 (configureDrive d w s) := by
  unfold configureDrive
  try dsimp only
  repeat' first
    | with_reducible assumption
    | with_reducible refine Same.ite ?_ ?_
    | with_reducible refine same_updDrive ?_
    | with_reducible refine same_parSetField ?_
    | with_reducible refine same_settlePair ?_
    | with_reducible refine Same.forEach ?_ (fun _ _ _ => ?_)

theorem same_startDrive {s0 : State} {d : Nat} {s : State} (hs : Same s0 s) :
    Same s0 (startDrive d s) := by
  unfold startDrive
  try dsimp only
  repeat' first
    | with_reducible assumption
    | with_reducible refine Same.ite ?_ ?_
    | with_reducible refine same_updPair ?_
    | with_reducible refine same_parOr ?_
    | with_reducible refine same_setOp ?_
    | with_reducible refine same_settlePair ?_
    | with_reducible refine same_enterRun ?_
    | with_reducible refine same_startPeriod ?_
    | with_reducible refine Same.forEach ?_ (fun _ _ _ => ?_)

theorem same_bodyMode {s0 : State} {ws : List Word} {s : State} (hs : Same s0 s) :
    SameR s0 (bodyMode ws s) := by
  unfold bodyMode
  try dsimp only
  repeat' first
    | with_reducible assumption
    | with_reducible refine Same.ite ?_ ?_
    | with_reducible refine SameR.ite ?_ ?_
    | with_reducible refine SameR.done ?_
    | with_reducible refine SameR.wait ?_
    | with_reducible refine same_checked ?_ ?_
    | with_reducible refine same_startStop ?_
    | with_reducible refine same_configureDrive ?_
    | with_reducible refine same_startDrive ?_

theorem same_bodyTorqueSet {s0 : State} {ws : List Word} {s : State} (hs : Same s0 s) :
    SameR s0 (bodyTorqueSet ws s) := by
  unfold bodyTorqueSet
  try dsimp only
  repeat' first
    | with_reducible assumption
    | with_reducible refine Same.ite ?_ ?_
    | with_reducible refine SameR.ite ?_ ?_
    | with_reducible refine SameR.done ?_
    | with_reducible refine SameR.wait ?_
    | with_reducible refine same_updDrive ?_
    | with_reducible refine same_checked ?_ ?_

theorem same_orderDrive {s0 : State} {d : Nat} {ss : Nat} {s : State} (hs : Same s0 s) :
    Same s0 (orderDrive d ss s) := by
  unfold orderDrive
  try dsimp only
  repeat' first
    | with_reducible assumption
    | with_reducible refine Same.ite ?_ ?_
    | with_reducible refine same_updDrive ?_
    | with_reducible refine same_settlePair ?_
    | with_reducible refine same_safeEntry ?_
    | with_reducible refine same_orderRing ?_
    | with_reducible refine same_stopRegTimer ?_
    | with_reducible refine Same.forEach ?_ (fun _ _ _ => ?_)

theorem same_commandSafe {s0 : State} {d : Nat} {ss : Nat} {s : State} (hs : Same s0 s) :
    Same s0 (commandSafe d ss s) := by
  unfold commandSafe
  try dsimp only
  repeat' first
    | with_reducible assumption
    | with_reducible refine Same.ite ?_ ?_
    | with_reducible refine same_setOp ?_
    | with_reducible refine same_settlePairs ?_
    | with_reducible refine same_placeDrive ?_
    | with_reducible refine same_orderDrive ?_
    | with_reducible refine Same.forUpTo ?_ (fun _ _ _ => ?_)

theorem same_setDsch {s0 : State} {s : State} {d : Nat} {v : Bool} (hs : Same s0 s) :
    Same s0 (setDsch s d v) := by
  unfold setDsch
  try dsimp only
  repeat' first
    | with_reducible assumption
    | with_reducible refine Same.ite ?_ ?_
    | with_reducible fail_if_no_progress refine Same.of ?_ rfl rfl rfl rfl rfl rfl rfl rfl rfl rfl rfl rfl rfl rfl rfl rfl rfl

theorem same_startDischarge {s0 : State} {d : Nat} {s : State} (hs : Same s0 s) :
    Same s0 (startDischarge d s) := by
  unfold startDischarge
  try dsimp only
  repeat' first
    | with_reducible assumption
    | with_reducible refine Same.ite ?_ ?_
    | with_reducible refine same_updDrive ?_
    | with_reducible refine same_commandSafe ?_
    | with_reducible refine same_setDsch ?_

theorem same_bodySafeState {s0 : State} {ws : List Word} {s : State} (hs : Same s0 s) :
    SameR s0 (bodySafeState ws s) := by
  unfold bodySafeState
  try dsimp only
  repeat' first
    | with_reducible assumption
    | with_reducible refine Same.ite ?_ ?_
    | with_reducible refine SameR.ite ?_ ?_
    | with_reducible refine SameR.done ?_
    | with_reducible refine SameR.wait ?_
    | with_reducible refine same_checked ?_ ?_
    | with_reducible refine same_commandSafe ?_
    | with_reducible refine same_startDischarge ?_

theorem same_bodyDischarge {s0 : State} {ws : List Word} {s : State} (hs : Same s0 s) :
    SameR s0 (bodyDischarge ws s) := by
  unfold bodyDischarge
  try dsimp only
  repeat' first
    | with_reducible assumption
    | with_reducible refine Same.ite ?_ ?_
    | with_reducible refine SameR.ite ?_ ?_
    | with_reducible refine SameR.done ?_
    | with_reducible refine SameR.wait ?_
    | with_reducible refine same_checked ?_ ?_
    | with_reducible refine same_startDischarge ?_

theorem same_dischargeCheck {s0 : State} {n : Nat} {trig : Nat} {res : Nat → Option Word} {s : State} (hs : Same s0 s) :
    Same s0 (dischargeCheck n trig res s) := by
  unfold dischargeCheck
  try dsimp only
  repeat' first
    | with_reducible assumption
    | with_reducible refine Same.ite ?_ ?_
    | with_reducible refine same_updDrive ?_
    | with_reducible refine same_record ?_
    | with_reducible refine Same.forUpTo ?_ (fun _ _ _ => ?_)
    | with_reducible fail_if_no_progress refine Same.of ?_ rfl rfl rfl rfl rfl rfl rfl rfl rfl rfl rfl rfl rfl rfl rfl rfl rfl
    | split

theorem same_execDischargeTimeout {s0 : State} {d : Nat} {s : State} (hs : Same s0 s) :
    ∃ v0, execDischargeTimeout d s = .next v0 ∧ Same s0 v0 := by
  refine ⟨_, rfl, ?_⟩
  try dsimp only
  repeat' first
    | with_reducible assumption
    | with_reducible refine Same.ite ?_ ?_
    | with_reducible refine same_updDrive ?_
    | with_reducible refine same_raise ?_
    | with_reducible refine same_stringDischarge ?_
    | with_reducible fail_if_no_progress refine Same.of ?_ rfl rfl rfl rfl rfl rfl rfl rfl rfl rfl rfl rfl rfl rfl rfl rfl rfl
    | split

theorem same_execDschHoldExpiry {s0 : State} {d : Nat} {s : State} (hs : Same s0 s) :
    ∃ v0, execDschHoldExpiry d s = .next v0 ∧ Same s0 v0 := by
  refine ⟨_, rfl, ?_⟩
  try dsimp only
  repeat' first
    | with_reducible assumption
    | with_reducible refine Same.ite ?_ ?_
    | with_reducible refine same_updDrive ?_
    | with_reducible refine same_setDsch ?_

theorem same_releaseDrive {s0 : State} {d : Nat} {s : State} (hs : Same s0 s) :
    Same s0 (releaseDrive d s) := by
  unfold releaseDrive
  try dsimp only
  repeat' first
    | with_reducible assumption
    | with_reducible refine Same.ite ?_ ?_
    | with_reducible refine same_updDrive ?_
    | with_reducible refine same_endSafe ?_

theorem same_bodyClearFault {s0 : State} {_ws : List Word} {s : State} (hs : Same s0 s) :
    SameR s0 (bodyClearFault _ws s) := by
  unfold bodyClearFault
  try dsimp only
  repeat' first
    | with_reducible assumption
    | with_reducible refine Same.ite ?_ ?_
    | with_reducible refine SameR.ite ?_ ?_
    | with_reducible refine SameR.done ?_
    | with_reducible refine SameR.wait ?_
    | with_reducible refine same_updDrive ?_
    | with_reducible refine same_record ?_
    | with_reducible refine same_setOp ?_
    | with_reducible refine same_checked ?_ ?_
    | with_reducible refine same_stopRegTimer ?_
    | with_reducible refine same_restartSource ?_
    | with_reducible refine same_releaseDrive ?_
    | with_reducible refine Same.forUpTo ?_ (fun _ _ _ => ?_)
    | with_reducible refine Same.forEach ?_ (fun _ _ _ => ?_)
    | with_reducible fail_if_no_progress refine Same.of ?_ rfl rfl rfl rfl rfl rfl rfl rfl rfl rfl rfl rfl rfl rfl rfl rfl rfl

theorem same_bodyClearTrip {s0 : State} {ws : List Word} {s : State} (hs : Same s0 s) :
    SameR s0 (bodyClearTrip ws s) := by
  unfold bodyClearTrip
  try dsimp only
  repeat' first
    | with_reducible assumption
    | with_reducible refine Same.ite ?_ ?_
    | with_reducible refine SameR.ite ?_ ?_
    | with_reducible refine SameR.done ?_
    | with_reducible refine SameR.wait ?_
    | with_reducible refine same_checked ?_ ?_
    | with_reducible refine same_settlePairs ?_
    | with_reducible fail_if_no_progress refine Same.of ?_ rfl rfl rfl rfl rfl rfl rfl rfl rfl rfl rfl rfl rfl rfl rfl rfl rfl

theorem same_execEnableChange {s0 : State} {level : Bool} {s : State} (hs : Same s0 s) :
    ∃ v0, execEnableChange level s = .next v0 ∧ Same s0 v0 := by
  refine ⟨_, rfl, ?_⟩
  try dsimp only
  repeat' first
    | with_reducible assumption
    | with_reducible refine Same.ite ?_ ?_
    | with_reducible refine same_raise ?_
    | with_reducible fail_if_no_progress refine Same.of ?_ rfl rfl rfl rfl rfl rfl rfl rfl rfl rfl rfl rfl rfl rfl rfl rfl rfl

theorem same_execSs2DelayExpiry {s0 : State} {d : Nat} {s : State} (hs : Same s0 s) :
    ∃ v0, execSs2DelayExpiry d s = .next v0 ∧ Same s0 v0 := by
  refine ⟨_, rfl, ?_⟩
  try dsimp only
  repeat' first
    | with_reducible assumption
    | with_reducible refine Same.ite ?_ ?_
    | with_reducible refine same_settlePairs ?_
    | with_reducible refine same_noteSpeeds ?_
    | with_reducible refine same_placeDrive ?_

theorem same_execStopTimeExpiry {s0 : State} {d : Nat} {s : State} (hs : Same s0 s) :
    ∃ v0, execStopTimeExpiry d s = .next v0 ∧ Same s0 v0 := by
  refine ⟨_, rfl, ?_⟩
  try dsimp only
  repeat' first
    | with_reducible assumption
    | with_reducible refine Same.ite ?_ ?_
    | with_reducible refine same_updDrive ?_
    | with_reducible refine same_endStop ?_

theorem same_regMismatch {s0 : State} {d : Nat} {t : Nat} {s : State} (hs : Same s0 s) :
    Same s0 (regMismatch d t s) := by
  unfold regMismatch
  try dsimp only
  repeat' first
    | with_reducible assumption
    | with_reducible refine Same.ite ?_ ?_
    | with_reducible refine same_updRegn ?_
    | with_reducible refine same_parCount ?_
    | with_reducible refine same_raise ?_
    | with_reducible fail_if_no_progress refine Same.of ?_ rfl rfl rfl rfl rfl rfl rfl rfl rfl rfl rfl rfl rfl rfl rfl rfl rfl
    | split

theorem same_regEvaluate {s0 : State} {d : Nat} {a : Word} {b : Word} {c : Word} {s : State} (hs : Same s0 s) :
    Same s0 (regEvaluate d a b c s) := by
  unfold regEvaluate
  try dsimp only
  repeat' first
    | with_reducible assumption
    | with_reducible refine Same.ite ?_ ?_
    | with_reducible refine same_updRegn ?_
    | with_reducible refine same_readCells ?_
    | with_reducible refine same_stopRegTimer ?_
    | with_reducible refine same_consume ?_
    | with_reducible refine same_regMismatch ?_
    | with_reducible fail_if_no_progress refine Same.of ?_ rfl rfl rfl rfl rfl rfl rfl rfl rfl rfl rfl rfl rfl rfl rfl rfl rfl
    | split

theorem same_execRegistrationEvaluation {s0 : State} {d : Nat} {s : State} (hs : Same s0 s) :
    ∃ v0, execRegistrationEvaluation d s = .next v0 ∧ Same s0 v0 := by
  refine ⟨_, rfl, ?_⟩
  try dsimp only
  repeat' first
    | with_reducible assumption
    | with_reducible refine Same.ite ?_ ?_
    | with_reducible refine same_regEvaluate ?_
    | with_reducible fail_if_no_progress refine Same.of ?_ rfl rfl rfl rfl rfl rfl rfl rfl rfl rfl rfl rfl rfl rfl rfl rfl rfl
    | split

theorem same_gapsFrom {s0 : State} {s : State} (hs : Same s0 s) :
    Same s0 (gapsFrom s) := by
  unfold gapsFrom
  try dsimp only
  repeat' first
    | with_reducible assumption
    | with_reducible refine Same.ite ?_ ?_
    | with_reducible refine same_updRegn ?_
    | with_reducible refine Same.forUpTo ?_ (fun _ _ _ => ?_)

theorem same_execRegEvalGap {s0 : State} {d : Nat} {s : State} (hs : Same s0 s) :
    ∃ v0, execRegEvalGap d s = .next v0 ∧ Same s0 v0 := by
  refine ⟨_, rfl, ?_⟩
  try dsimp only
  repeat' first
    | with_reducible assumption
    | with_reducible refine Same.ite ?_ ?_
    | with_reducible refine same_updRegn ?_
    | with_reducible refine same_regMismatch ?_

theorem same_deliverReg {s0 : State} {n : Nat} {trig : Nat} {entries : List Word} {res : Nat → Option Word} {s : State} (hs : Same s0 s) :
    Same s0 (deliverReg n trig entries res s) := by
  unfold deliverReg
  try dsimp only
  repeat' first
    | with_reducible assumption
    | with_reducible refine Same.ite ?_ ?_
    | with_reducible refine same_updRegn ?_
    | with_reducible refine Same.forUpTo ?_ (fun _ _ _ => ?_)
    | with_reducible fail_if_no_progress refine Same.of ?_ rfl rfl rfl rfl rfl rfl rfl rfl rfl rfl rfl rfl rfl rfl rfl rfl rfl
    | split

theorem same_write09 {s0 : State} {s : State} {i : Nat} {v : Word} (hs : Same s0 s) :
    Same s0 (write09 s i v) := by
  unfold write09
  try dsimp only
  repeat' first
    | with_reducible assumption
    | with_reducible refine Same.ite ?_ ?_
    | with_reducible refine same_parSet ?_
    | with_reducible refine same_setMark ?_
    | with_reducible refine same_writeTripRoute ?_

theorem keeps_write09 {s0 : State} {s : State} {i : Nat} {v : Word} (hs : Keeps s0 s) :
    Keeps s0 (write09 s i v) := hs.after (same_write09 (Same.refl _))

/-! Pair. -/

theorem same_setLock {s0 : State} {l : Nat} {o : LockOwner} {s : State} (hs : Same s0 s) :
    Same s0 (setLock l o s) := by
  unfold setLock
  try dsimp only
  repeat' first
    | with_reducible assumption
    | with_reducible refine Same.ite ?_ ?_
    | with_reducible refine same_updMarg ?_

theorem same_lockServe {s0 : State} {l : Nat} {who : LockOwner} {acquire : Bool} {fromB : Bool} {s : State} (hs : Same s0 s) :
    Same s0 (lockServe l who acquire fromB s).2 := by
  unfold lockServe
  try dsimp only
  repeat' first
    | with_reducible assumption
    | with_reducible refine Same.ite ?_ ?_
    | with_reducible refine same_setLock ?_
    | with_reducible fail_if_no_progress refine Same.of ?_ rfl rfl rfl rfl rfl rfl rfl rfl rfl rfl rfl rfl rfl rfl rfl rfl rfl
    | split

theorem same_lockRemote {s0 : State} {host : Bool} {tag : Nat} {l : Nat} {release : Bool} {s : State} (hs : Same s0 s) :
    Same s0 (lockRemote host tag l release s) := by
  unfold lockRemote
  try dsimp only
  repeat' first
    | with_reducible assumption
    | with_reducible refine Same.ite ?_ ?_
    | with_reducible refine same_queueCell ?_
    | with_reducible refine same_updMarg ?_

theorem same_bodyLockAcquire {s0 : State} {tag : Nat} {ws : List Word} {s : State} (hs : Same s0 s) :
    SameR s0 (bodyLockAcquire tag ws s) := by
  unfold bodyLockAcquire
  try dsimp only
  repeat' first
    | with_reducible assumption
    | with_reducible refine Same.ite ?_ ?_
    | with_reducible refine SameR.ite ?_ ?_
    | with_reducible refine SameR.done ?_
    | with_reducible refine SameR.wait ?_
    | with_reducible refine same_checked ?_ ?_
    | with_reducible refine same_lockServe ?_
    | with_reducible refine same_lockRemote ?_

theorem same_bodyLockRelease {s0 : State} {tag : Nat} {ws : List Word} {s : State} (hs : Same s0 s) :
    SameR s0 (bodyLockRelease tag ws s) := by
  unfold bodyLockRelease
  try dsimp only
  repeat' first
    | with_reducible assumption
    | with_reducible refine Same.ite ?_ ?_
    | with_reducible refine SameR.ite ?_ ?_
    | with_reducible refine SameR.done ?_
    | with_reducible refine SameR.wait ?_
    | with_reducible refine same_refuse ?_
    | with_reducible refine same_checked ?_ ?_
    | with_reducible refine same_lockServe ?_
    | with_reducible refine same_lockRemote ?_

theorem same_lockAbort {s0 : State} {s : State} (hs : Same s0 s) :
    Same s0 (lockAbort s) := by
  unfold lockAbort
  try dsimp only
  repeat' first
    | with_reducible assumption
    | with_reducible refine Same.ite ?_ ?_
    | with_reducible refine same_completeTag ?_
    | with_reducible refine same_updMarg ?_
    | with_reducible refine Same.forEach ?_ (fun _ _ _ => ?_)

theorem same_freeFarLocks {s0 : State} {s : State} (hs : Same s0 s) :
    Same s0 (freeFarLocks s) := by
  unfold freeFarLocks
  try dsimp only
  repeat' first
    | with_reducible assumption
    | with_reducible refine Same.ite ?_ ?_
    | with_reducible refine same_updMarg ?_

theorem same_linkDrop {s0 : State} {s : State} (hs : Same s0 s) :
    Same s0 (linkDrop s) := by
  unfold linkDrop
  try dsimp only
  repeat' first
    | with_reducible assumption
    | with_reducible refine Same.ite ?_ ?_
    | with_reducible refine same_updMarg ?_
    | with_reducible refine same_farServiceEnd ?_
    | with_reducible refine same_lockAbort ?_
    | with_reducible refine same_freeFarLocks ?_
    | with_reducible refine Same.forUpTo ?_ (fun _ _ _ => ?_)

theorem same_linkDown {s0 : State} {s : State} (hs : Same s0 s) :
    Same s0 (linkDown s) := by
  unfold linkDown
  try dsimp only
  repeat' first
    | with_reducible assumption
    | with_reducible refine Same.ite ?_ ?_
    | with_reducible refine same_parCount ?_
    | with_reducible refine same_record ?_
    | with_reducible refine same_linkDrop ?_

theorem same_marginReset {s0 : State} {s : State} (hs : Same s0 s) :
    Same s0 (marginReset s) := by
  unfold marginReset
  try dsimp only
  repeat' first
    | with_reducible assumption
    | with_reducible refine Same.ite ?_ ?_
    | with_reducible refine same_parClearUnit ?_
    | with_reducible refine same_farServiceEnd ?_
    | with_reducible refine Same.forUpTo ?_ (fun _ _ _ => ?_)
    | with_reducible fail_if_no_progress refine Same.of ?_ rfl rfl rfl rfl rfl rfl rfl rfl rfl rfl rfl rfl rfl rfl rfl rfl rfl

theorem keeps_marginReset {s0 : State} {s : State} (hs : Keeps s0 s) :
    Keeps s0 (marginReset s) := hs.after (same_marginReset (Same.refl _))

theorem same_leaveStart {s0 : State} {s : State} (hs : Same s0 s) :
    Same s0 (leaveStart s) := by
  unfold leaveStart
  try dsimp only
  repeat' first
    | with_reducible assumption
    | with_reducible refine Same.ite ?_ ?_
    | with_reducible refine same_queueCell ?_
    | with_reducible refine same_updMarg ?_

theorem same_takeRole {s0 : State} {n : Nat} {s : State} (hs : Same s0 s) :
    Same s0 (takeRole n s) := by
  unfold takeRole
  try dsimp only
  repeat' first
    | with_reducible assumption
    | with_reducible refine Same.ite ?_ ?_
    | with_reducible refine same_updMarg ?_
    | with_reducible fail_if_no_progress refine Same.of ?_ rfl rfl rfl rfl rfl rfl rfl rfl rfl rfl rfl rfl rfl rfl rfl rfl rfl

theorem same_bodyPairRole {s0 : State} {ws : List Word} {s : State} (hs : Same s0 s) :
    SameR s0 (bodyPairRole ws s) := by
  unfold bodyPairRole
  try dsimp only
  repeat' first
    | with_reducible assumption
    | with_reducible refine Same.ite ?_ ?_
    | with_reducible refine SameR.ite ?_ ?_
    | with_reducible refine SameR.done ?_
    | with_reducible refine SameR.wait ?_
    | with_reducible refine same_checked ?_ ?_
    | with_reducible refine same_takeRole ?_

theorem same_bodyHandover {s0 : State} {tag : Nat} {_ws : List Word} {s : State} (hs : Same s0 s) :
    SameR s0 (bodyHandover tag _ws s) := by
  unfold bodyHandover
  try dsimp only
  repeat' first
    | with_reducible assumption
    | with_reducible refine Same.ite ?_ ?_
    | with_reducible refine SameR.ite ?_ ?_
    | with_reducible refine SameR.done ?_
    | with_reducible refine SameR.wait ?_
    | with_reducible refine same_checked ?_ ?_
    | with_reducible refine same_queueCell ?_
    | with_reducible refine same_updMarg ?_

theorem same_hoComplete {s0 : State} {st : Nat} {s : State} (hs : Same s0 s) :
    Same s0 (hoComplete st s) := by
  unfold hoComplete
  try dsimp only
  repeat' first
    | with_reducible assumption
    | with_reducible refine Same.ite ?_ ?_
    | with_reducible refine same_completeTag ?_
    | with_reducible refine same_updMarg ?_
    | with_reducible fail_if_no_progress refine Same.of ?_ rfl rfl rfl rfl rfl rfl rfl rfl rfl rfl rfl rfl rfl rfl rfl rfl rfl
    | split

theorem same_bodyMbxPost {s0 : State} {ws : List Word} {s : State} (hs : Same s0 s) :
    SameR s0 (bodyMbxPost ws s) := by
  unfold bodyMbxPost
  try dsimp only
  repeat' first
    | with_reducible assumption
    | with_reducible refine Same.ite ?_ ?_
    | with_reducible refine SameR.ite ?_ ?_
    | with_reducible refine SameR.done ?_
    | with_reducible refine SameR.wait ?_
    | with_reducible refine same_checked ?_ ?_
    | with_reducible refine same_postMessage ?_

theorem same_emptyInbox {s0 : State} {n : Nat} {s : State} (hs : Same s0 s) :
    Same s0 (emptyInbox n s) := by
  unfold emptyInbox
  try dsimp only
  repeat' first
    | with_reducible assumption
    | with_reducible refine Same.ite ?_ ?_
    | with_reducible refine same_queueCell ?_
    | with_reducible refine same_updMarg ?_

theorem keeps_emptyInbox {s0 : State} {n : Nat} {s : State} (hs : Keeps s0 s) :
    Keeps s0 (emptyInbox n s) := hs.after (same_emptyInbox (Same.refl _))

theorem same_bodyMbxRead {s0 : State} {ws : List Word} {s : State} (hs : Same s0 s) :
    SameR s0 (bodyMbxRead ws s) := by
  unfold bodyMbxRead
  try dsimp only
  repeat' first
    | with_reducible assumption
    | with_reducible refine Same.ite ?_ ?_
    | with_reducible refine SameR.ite ?_ ?_
    | with_reducible refine SameR.done ?_
    | with_reducible refine SameR.wait ?_
    | with_reducible refine same_checked ?_ ?_
    | with_reducible refine same_emptyInbox ?_
    | with_reducible fail_if_no_progress refine Same.of ?_ rfl rfl rfl rfl rfl rfl rfl rfl rfl rfl rfl rfl rfl rfl rfl rfl rfl
    | split

theorem same_bodyDoorbell {s0 : State} {ws : List Word} {s : State} (hs : Same s0 s) :
    SameR s0 (bodyDoorbell ws s) := by
  unfold bodyDoorbell
  try dsimp only
  repeat' first
    | with_reducible assumption
    | with_reducible refine Same.ite ?_ ?_
    | with_reducible refine SameR.ite ?_ ?_
    | with_reducible refine SameR.done ?_
    | with_reducible refine SameR.wait ?_
    | with_reducible refine same_queueCell ?_
    | with_reducible refine same_updMarg ?_

end Sys2Proof.Laws
end

