-- ==== Sys2Proof/Laws/KeepStore.lean ====
section
/-!
SUPPORT. What the Sketchbook, housekeeping, resets, Burnish and power keep (Laws/Frame.lean): one lemma for each operation and each meaning.
-/
namespace Sys2Proof.Laws
open Sys2Proof.Machine Sys2Proof.Safety

/-! Sketchbook. -/

theorem same_updBook {s0 : State} {s : State} {f : Sketchbook → Sketchbook} (hs : Same s0 s) :
    Same s0 (updBook s f) := by
  unfold updBook
  try dsimp only
  repeat' first
    | with_reducible assumption
    | with_reducible refine Same.ite ?_ ?_
    | with_reducible fail_if_no_progress refine Same.of ?_ rfl rfl rfl rfl rfl rfl rfl rfl rfl rfl rfl rfl rfl rfl rfl rfl rfl

theorem keeps_updBook {s0 : State} {s : State} {f : Sketchbook → Sketchbook} (hs : Keeps s0 s) :
    Keeps s0 (updBook s f) := hs.after (same_updBook (Same.refl _))

theorem same_queueEvent {s0 : State} {e : LogEntry} {s : State} (hs : Same s0 s) :
    Same s0 (queueEvent e s) := by
  unfold queueEvent
  try dsimp only
  repeat' first
    | with_reducible assumption
    | with_reducible refine Same.ite ?_ ?_
    | with_reducible refine same_setAttn ?_
    | with_reducible fail_if_no_progress refine Same.of ?_ rfl rfl rfl rfl rfl rfl rfl rfl rfl rfl rfl rfl rfl rfl rfl rfl rfl

theorem same_eventFreed {s0 : State} {s : State} (hs : Same s0 s) :
    Same s0 (eventFreed s) := by
  unfold eventFreed
  try dsimp only
  repeat' first
    | with_reducible assumption
    | with_reducible refine Same.ite ?_ ?_
    | with_reducible refine same_parCount ?_
    | with_reducible refine same_record ?_
    | with_reducible fail_if_no_progress refine Same.of ?_ rfl rfl rfl rfl rfl rfl rfl rfl rfl rfl rfl rfl rfl rfl rfl rfl rfl

theorem keeps_eventFreed {s0 : State} {s : State} (hs : Keeps s0 s) :
    Keeps s0 (eventFreed s) := hs.after (same_eventFreed (Same.refl _))

theorem same_mirrorTake {s0 : State} {e : LogEntry} {s : State} (hs : Same s0 s) :
    Same s0 (mirrorTake e s) := by
  unfold mirrorTake
  try dsimp only
  repeat' first
    | with_reducible assumption
    | with_reducible refine Same.ite ?_ ?_
    | with_reducible refine same_parCount ?_
    | with_reducible refine same_lpIssue ?_
    | with_reducible refine same_updBook ?_

theorem keeps_mirrorLand {s0 : State} {s : State} (hs : Keeps s0 s) :
    Keeps s0 (mirrorLand s) := by
  unfold mirrorLand
  try dsimp only
  repeat' first
    | with_reducible assumption
    | with_reducible refine Keeps.ite ?_ ?_
    | with_reducible refine keeps_storeRange ?_
    | with_reducible refine keeps_updBook ?_
    | with_reducible fail_if_no_progress refine Keeps.of ?_ rfl rfl rfl rfl rfl rfl rfl rfl rfl rfl rfl rfl rfl rfl rfl rfl rfl
    | split

theorem same_storeEntry {s0 : State} {e : LogEntry} {s : State} (hs : Same s0 s) :
    Same s0 (storeEntry e s) := by
  unfold storeEntry
  try dsimp only
  repeat' first
    | with_reducible assumption
    | with_reducible refine Same.ite ?_ ?_
    | with_reducible refine same_freshWords ?_
    | with_reducible refine same_updBook ?_

theorem same_assignEntry {s0 : State} {ev : Event} {s : State} (hs : Same s0 s) :
    Same s0 (assignEntry ev s) := by
  unfold assignEntry
  try dsimp only
  repeat' first
    | with_reducible assumption
    | with_reducible refine Same.ite ?_ ?_
    | with_reducible refine same_parCount ?_
    | with_reducible refine same_updBook ?_
    | with_reducible refine same_queueEvent ?_
    | with_reducible refine same_mirrorTake ?_
    | with_reducible refine same_storeEntry ?_

theorem same_answerMark {s0 : State} {ev : Event} {q : Nat} {s : State} (hs : Same s0 s) :
    Same s0 (answerMark ev q s) := by
  unfold answerMark
  try dsimp only
  repeat' first
    | with_reducible assumption
    | with_reducible refine Same.ite ?_ ?_
    | with_reducible refine same_completeTag ?_
    | with_reducible refine same_updBook ?_
    | with_reducible fail_if_no_progress refine Same.of ?_ rfl rfl rfl rfl rfl rfl rfl rfl rfl rfl rfl rfl rfl rfl rfl rfl rfl
    | split

theorem same_writeEntry {s0 : State} {ev : Event} {s : State} (hs : Same s0 s) :
    Same s0 (writeEntry ev s) := by
  unfold writeEntry
  try dsimp only
  repeat' first
    | with_reducible assumption
    | with_reducible refine Same.ite ?_ ?_
    | with_reducible refine same_updBook ?_
    | with_reducible refine same_assignEntry ?_
    | with_reducible refine same_answerMark ?_

theorem same_execSketchbookWrite {s0 : State} {s : State} (hs : Same s0 s) :
    ∃ v0, execSketchbookWrite s = .next v0 ∧ Same s0 v0 := by
  refine ⟨_, rfl, ?_⟩
  try dsimp only
  repeat' first
    | with_reducible assumption
    | with_reducible refine Same.ite ?_ ?_
    | with_reducible refine same_updBook ?_
    | with_reducible refine same_writeEntry ?_
    | with_reducible fail_if_no_progress refine Same.of ?_ rfl rfl rfl rfl rfl rfl rfl rfl rfl rfl rfl rfl rfl rfl rfl rfl rfl
    | split

theorem same_bodyLogRead {s0 : State} {ws : List Word} {s : State} (hs : Same s0 s) :
    SameR s0 (bodyLogRead ws s) := by
  unfold bodyLogRead
  try dsimp only
  repeat' first
    | with_reducible assumption
    | with_reducible refine Same.ite ?_ ?_
    | with_reducible refine SameR.ite ?_ ?_
    | with_reducible refine SameR.done ?_
    | with_reducible refine SameR.wait ?_
    | with_reducible refine same_checked ?_ ?_
    | with_reducible refine same_readCells ?_

theorem same_recordAnswered {s0 : State} {code : Nat} {tag : Nat} {args : List Word} {s : State} (hs : Same s0 s) :
    Same s0 (recordAnswered code tag args s) := by
  unfold recordAnswered
  try dsimp only
  repeat' first
    | with_reducible assumption
    | with_reducible refine Same.ite ?_ ?_
    | with_reducible refine same_record ?_
    | with_reducible refine same_updBook ?_

theorem same_bodyLogMark {s0 : State} {tag : Nat} {ws : List Word} {s : State} (hs : Same s0 s) :
    SameR s0 (bodyLogMark tag ws s) := by
  unfold bodyLogMark
  try dsimp only
  repeat' first
    | with_reducible assumption
    | with_reducible refine Same.ite ?_ ?_
    | with_reducible refine SameR.ite ?_ ?_
    | with_reducible refine SameR.done ?_
    | with_reducible refine SameR.wait ?_
    | with_reducible refine same_recordAnswered ?_

theorem same_bodyLogClear {s0 : State} {tag : Nat} {ws : List Word} {s : State} (hs : Same s0 s) :
    SameR s0 (bodyLogClear tag ws s) := by
  unfold bodyLogClear
  try dsimp only
  repeat' first
    | with_reducible assumption
    | with_reducible refine Same.ite ?_ ?_
    | with_reducible refine SameR.ite ?_ ?_
    | with_reducible refine SameR.done ?_
    | with_reducible refine SameR.wait ?_
    | with_reducible refine same_checked ?_ ?_
    | with_reducible refine same_updBook ?_
    | with_reducible refine same_writeEntry ?_
    | with_reducible refine same_recordAnswered ?_
    | with_reducible refine Same.forEach ?_ (fun _ _ _ => ?_)

theorem keeps_write0D {s0 : State} {s : State} {i : Nat} {v : Word} (hs : Keeps s0 s) :
    Keeps s0 (write0D s i v) := by
  unfold write0D
  try dsimp only
  repeat' first
    | with_reducible assumption
    | with_reducible refine Keeps.ite ?_ ?_
    | with_reducible refine keeps_parSet ?_
    | with_reducible refine keeps_lpIssue ?_
    | with_reducible refine keeps_serveWaits ?_
    | with_reducible refine keeps_updBook ?_
    | with_reducible fail_if_no_progress refine Keeps.of ?_ rfl rfl rfl rfl rfl rfl rfl rfl rfl rfl rfl rfl rfl rfl rfl rfl rfl

theorem keeps_execLpddr5RequestDone {s0 : State} {who : Nat} {s : State} (hs : Keeps s0 s) :
    ∃ v0, execLpddr5RequestDone who s = .next v0 ∧ Keeps s0 v0 := by
  refine ⟨_, rfl, ?_⟩
  try dsimp only
  repeat' first
    | with_reducible assumption
    | with_reducible refine Keeps.ite ?_ ?_
    | with_reducible refine keeps_updCap ?_
    | with_reducible refine keeps_lpIssue ?_
    | with_reducible refine keeps_captureLand ?_
    | with_reducible refine keeps_serveWaits ?_
    | with_reducible refine keeps_mirrorLand ?_
    | with_reducible fail_if_no_progress refine Keeps.of ?_ rfl rfl rfl rfl rfl rfl rfl rfl rfl rfl rfl rfl rfl rfl rfl rfl rfl
    | split

theorem keeps_lpOffline {s0 : State} {s : State} (hs : Keeps s0 s) :
    Keeps s0 (lpOffline s) := by
  unfold lpOffline
  try dsimp only
  repeat' first
    | with_reducible assumption
    | with_reducible refine Keeps.ite ?_ ?_
    | with_reducible refine keeps_updCap ?_
    | with_reducible refine keeps_parSet ?_
    | with_reducible refine keeps_captureEnd ?_
    | with_reducible refine keeps_serveWaits ?_
    | with_reducible refine keeps_updBook ?_
    | with_reducible refine Keeps.forUpTo ?_ (fun _ _ _ => ?_)
    | with_reducible fail_if_no_progress refine Keeps.of ?_ rfl rfl rfl rfl rfl rfl rfl rfl rfl rfl rfl rfl rfl rfl rfl rfl rfl

theorem keeps_execLpddr5RelockTimeout {s0 : State} {s : State} (hs : Keeps s0 s) :
    ∃ v0, execLpddr5RelockTimeout s = .next v0 ∧ Keeps s0 v0 := by
  refine ⟨_, rfl, ?_⟩
  try dsimp only
  repeat' first
    | with_reducible assumption
    | with_reducible refine Keeps.ite ?_ ?_
    | with_reducible refine keeps_lpFault ?_
    | with_reducible refine keeps_lpOffline ?_

/-! Thermal. -/

theorem same_updTherm {s0 : State} {s : State} {f : Thermal → Thermal} (hs : Same s0 s) :
    Same s0 (updTherm s f) := by
  unfold updTherm
  try dsimp only
  repeat' first
    | with_reducible assumption
    | with_reducible refine Same.ite ?_ ?_
    | with_reducible fail_if_no_progress refine Same.of ?_ rfl rfl rfl rfl rfl rfl rfl rfl rfl rfl rfl rfl rfl rfl rfl rfl rfl

theorem keeps_updTherm {s0 : State} {s : State} {f : Thermal → Thermal} (hs : Keeps s0 s) :
    Keeps s0 (updTherm s f) := hs.after (same_updTherm (Same.refl _))

theorem same_thermEvent {s0 : State} {s : State} {code : Nat} {idx : Nat} {args : List Word} (hs : Same s0 s) :
    Same s0 (thermEvent s code idx args) := by
  unfold thermEvent
  try dsimp only
  repeat' first
    | with_reducible assumption
    | with_reducible refine Same.ite ?_ ?_
    | with_reducible refine same_raise ?_
    | with_reducible refine same_updTherm ?_

theorem keeps_thermEvent {s0 : State} {s : State} {code : Nat} {idx : Nat} {args : List Word} (hs : Keeps s0 s) :
    Keeps s0 (thermEvent s code idx args) := hs.after (same_thermEvent (Same.refl _))

theorem same_hkChannel {s0 : State} {codes : List Nat} {bad : Bool} {k : Nat} {s : State} (hs : Same s0 s) :
    Same s0 (hkChannel codes bad k s) := by
  unfold hkChannel
  try dsimp only
  repeat' first
    | with_reducible assumption
    | with_reducible refine Same.ite ?_ ?_
    | with_reducible refine same_parOr ?_
    | with_reducible refine same_updTherm ?_
    | with_reducible refine same_thermEvent ?_

theorem keeps_hkChannel {s0 : State} {codes : List Nat} {bad : Bool} {k : Nat} {s : State} (hs : Keeps s0 s) :
    Keeps s0 (hkChannel codes bad k s) := hs.after (same_hkChannel (Same.refl _))

theorem same_thrStep {s0 : State} {tj : Int} {b : Nat} {s : State} (hs : Same s0 s) :
    Same s0 (thrStep tj b s) := by
  unfold thrStep
  try dsimp only
  repeat' first
    | with_reducible assumption
    | with_reducible refine Same.ite ?_ ?_
    | with_reducible refine same_updTherm ?_
    | with_reducible refine same_thermEvent ?_

theorem keeps_thrStep {s0 : State} {tj : Int} {b : Nat} {s : State} (hs : Keeps s0 s) :
    Keeps s0 (thrStep tj b s) := hs.after (same_thrStep (Same.refl _))

theorem keeps_execHkRoundEnd {s0 : State} {codes : List Nat} {tj : Int} {s : State} (hs : Keeps s0 s) :
    ∃ v0, execHkRoundEnd codes tj s = .next v0 ∧ Keeps s0 v0 := by
  refine ⟨_, rfl, ?_⟩
  try dsimp only
  repeat' first
    | with_reducible assumption
    | with_reducible refine Keeps.ite ?_ ?_
    | with_reducible refine keeps_parWrap ?_
    | with_reducible refine keeps_updTherm ?_
    | with_reducible refine keeps_thermEvent ?_
    | with_reducible refine keeps_hkChannel ?_
    | with_reducible refine keeps_thrStep ?_
    | with_reducible refine keeps_powerOn ?_
    | with_reducible refine Keeps.forUpTo ?_ (fun _ _ _ => ?_)

/-! Resets. -/

theorem same_reset00 {s0 : State} {s : State} (hs : Same s0 s) :
    Same s0 (reset00 s) := by
  unfold reset00
  try dsimp only
  repeat' first
    | with_reducible assumption
    | with_reducible refine Same.ite ?_ ?_
    | with_reducible refine same_updDrive ?_
    | with_reducible refine same_parClearUnit ?_
    | with_reducible refine Same.forUpTo ?_ (fun _ _ _ => ?_)

theorem keeps_reset00 {s0 : State} {s : State} (hs : Keeps s0 s) :
    Keeps s0 (reset00 s) := hs.after (same_reset00 (Same.refl _))

theorem same_reset02 {s0 : State} {s : State} (hs : Same s0 s) :
    Same s0 (reset02 s) := by
  unfold reset02
  try dsimp only
  repeat' first
    | with_reducible assumption
    | with_reducible refine Same.ite ?_ ?_
    | with_reducible refine same_parClearUnit ?_
    | with_reducible fail_if_no_progress refine Same.of ?_ rfl rfl rfl rfl rfl rfl rfl rfl rfl rfl rfl rfl rfl rfl rfl rfl rfl

theorem keeps_reset02 {s0 : State} {s : State} (hs : Keeps s0 s) :
    Keeps s0 (reset02 s) := hs.after (same_reset02 (Same.refl _))

theorem same_reset03 {s0 : State} {s : State} (hs : Same s0 s) :
    Same s0 (reset03 s) := by
  unfold reset03
  try dsimp only
  repeat' first
    | with_reducible assumption
    | (constructor <;> first | exact h.drives | exact h.par | exact h.nv | exact h.tbs | exact h.pairs | exact h.rings | exact h.dir | exact h.srcs | exact h.cmps | exact h.emus | exact h.seqs | exact h.slices | exact h.ctxs | exact h.regs | exact h.caps | exact rising_set h.drives _ _ _ | exact rising_set h.par _ _ _ | exact rising_set h.nv _ _ _ | exact rising_set h.tbs _ _ _ | exact rising_set h.pairs _ _ _ | exact rising_set h.rings _ _ _ | exact rising_set h.dir _ _ _ | exact rising_set h.srcs _ _ _ | exact rising_set h.cmps _ _ _ | exact rising_set h.emus _ _ _ | exact rising_set h.seqs _ _ _ | exact rising_set h.slices _ _ _ | exact rising_set h.ctxs _ _ _ | exact rising_set h.regs _ _ _ | exact rising_set h.caps _ _ _ | exact rising_filter h.par _ | exact rising_filter h.nv _ | exact rising_map h.rings (fun _ => rfl) | exact rising_map h.slices (fun _ => rfl) | exact rising_map h.ctxs (fun _ => rfl) | exact rising_map h.seqs (fun _ => rfl) | exact rising_nil)
    | with_reducible refine Same.ite ?_ ?_
    | with_reducible refine same_parClearUnit ?_
    | with_reducible refine same_wcOff ?_
    | with_reducible fail_if_no_progress refine Same.of ?_ rfl rfl rfl rfl rfl rfl rfl rfl rfl rfl rfl rfl rfl rfl rfl rfl rfl
    | split
    | with_reducible refine Same.ofTables ?_ rfl rfl (fun h => ?_)

theorem keeps_reset03 {s0 : State} {s : State} (hs : Keeps s0 s) :
    Keeps s0 (reset03 s) := hs.after (same_reset03 (Same.refl _))

theorem same_reset04 {s0 : State} {s : State} (hs : Same s0 s) :
    Same s0 (reset04 s) := by
  unfold reset04
  try dsimp only
  repeat' first
    | with_reducible assumption
    | (constructor <;> first | exact h.drives | exact h.par | exact h.nv | exact h.tbs | exact h.pairs | exact h.rings | exact h.dir | exact h.srcs | exact h.cmps | exact h.emus | exact h.seqs | exact h.slices | exact h.ctxs | exact h.regs | exact h.caps | exact rising_set h.drives _ _ _ | exact rising_set h.par _ _ _ | exact rising_set h.nv _ _ _ | exact rising_set h.tbs _ _ _ | exact rising_set h.pairs _ _ _ | exact rising_set h.rings _ _ _ | exact rising_set h.dir _ _ _ | exact rising_set h.srcs _ _ _ | exact rising_set h.cmps _ _ _ | exact rising_set h.emus _ _ _ | exact rising_set h.seqs _ _ _ | exact rising_set h.slices _ _ _ | exact rising_set h.ctxs _ _ _ | exact rising_set h.regs _ _ _ | exact rising_set h.caps _ _ _ | exact rising_filter h.par _ | exact rising_filter h.nv _ | exact rising_map h.rings (fun _ => rfl) | exact rising_map h.slices (fun _ => rfl) | exact rising_map h.ctxs (fun _ => rfl) | exact rising_map h.seqs (fun _ => rfl) | exact rising_nil)
    | with_reducible refine Same.ite ?_ ?_
    | with_reducible refine same_parClearUnit ?_
    | with_reducible fail_if_no_progress refine Same.of ?_ rfl rfl rfl rfl rfl rfl rfl rfl rfl rfl rfl rfl rfl rfl rfl rfl rfl
    | split
    | with_reducible refine Same.ofTables ?_ rfl rfl (fun h => ?_)

theorem keeps_reset04 {s0 : State} {s : State} (hs : Keeps s0 s) :
    Keeps s0 (reset04 s) := hs.after (same_reset04 (Same.refl _))

theorem same_reset05 {s0 : State} {s : State} (hs : Same s0 s) :
    Same s0 (reset05 s) := by
  unfold reset05
  try dsimp only
  repeat' first
    | with_reducible assumption
    | (constructor <;> first | exact h.drives | exact h.par | exact h.nv | exact h.tbs | exact h.pairs | exact h.rings | exact h.dir | exact h.srcs | exact h.cmps | exact h.emus | exact h.seqs | exact h.slices | exact h.ctxs | exact h.regs | exact h.caps | exact rising_set h.drives _ _ _ | exact rising_set h.par _ _ _ | exact rising_set h.nv _ _ _ | exact rising_set h.tbs _ _ _ | exact rising_set h.pairs _ _ _ | exact rising_set h.rings _ _ _ | exact rising_set h.dir _ _ _ | exact rising_set h.srcs _ _ _ | exact rising_set h.cmps _ _ _ | exact rising_set h.emus _ _ _ | exact rising_set h.seqs _ _ _ | exact rising_set h.slices _ _ _ | exact rising_set h.ctxs _ _ _ | exact rising_set h.regs _ _ _ | exact rising_set h.caps _ _ _ | exact rising_filter h.par _ | exact rising_filter h.nv _ | exact rising_map h.rings (fun _ => rfl) | exact rising_map h.slices (fun _ => rfl) | exact rising_map h.ctxs (fun _ => rfl) | exact rising_map h.seqs (fun _ => rfl) | exact rising_nil)
    | with_reducible refine Same.ite ?_ ?_
    | with_reducible refine same_parClearUnit ?_
    | with_reducible fail_if_no_progress refine Same.of ?_ rfl rfl rfl rfl rfl rfl rfl rfl rfl rfl rfl rfl rfl rfl rfl rfl rfl
    | split
    | with_reducible refine Same.ofTables ?_ rfl rfl (fun h => ?_)

theorem keeps_reset05 {s0 : State} {s : State} (hs : Keeps s0 s) :
    Keeps s0 (reset05 s) := hs.after (same_reset05 (Same.refl _))

theorem same_reset06 {s0 : State} {s : State} (hs : Same s0 s) :
    Same s0 (reset06 s) := by
  unfold reset06
  try dsimp only
  repeat' first
    | with_reducible assumption
    | (constructor <;> first | exact h.drives | exact h.par | exact h.nv | exact h.tbs | exact h.pairs | exact h.rings | exact h.dir | exact h.srcs | exact h.cmps | exact h.emus | exact h.seqs | exact h.slices | exact h.ctxs | exact h.regs | exact h.caps | exact rising_set h.drives _ _ _ | exact rising_set h.par _ _ _ | exact rising_set h.nv _ _ _ | exact rising_set h.tbs _ _ _ | exact rising_set h.pairs _ _ _ | exact rising_set h.rings _ _ _ | exact rising_set h.dir _ _ _ | exact rising_set h.srcs _ _ _ | exact rising_set h.cmps _ _ _ | exact rising_set h.emus _ _ _ | exact rising_set h.seqs _ _ _ | exact rising_set h.slices _ _ _ | exact rising_set h.ctxs _ _ _ | exact rising_set h.regs _ _ _ | exact rising_set h.caps _ _ _ | exact rising_filter h.par _ | exact rising_filter h.nv _ | exact rising_map h.rings (fun _ => rfl) | exact rising_map h.slices (fun _ => rfl) | exact rising_map h.ctxs (fun _ => rfl) | exact rising_map h.seqs (fun _ => rfl) | exact rising_nil)
    | with_reducible refine Same.ite ?_ ?_
    | with_reducible refine same_parClearUnit ?_
    | with_reducible refine same_freshWords ?_
    | with_reducible fail_if_no_progress refine Same.of ?_ rfl rfl rfl rfl rfl rfl rfl rfl rfl rfl rfl rfl rfl rfl rfl rfl rfl
    | split
    | with_reducible refine Same.ofTables ?_ rfl rfl (fun h => ?_)

theorem keeps_reset06 {s0 : State} {s : State} (hs : Keeps s0 s) :
    Keeps s0 (reset06 s) := hs.after (same_reset06 (Same.refl _))

theorem same_reset07 {s0 : State} {s : State} (hs : Same s0 s) :
    Same s0 (reset07 s) := by
  unfold reset07
  try dsimp only
  repeat' first
    | with_reducible assumption
    | (constructor <;> first | exact h.drives | exact h.par | exact h.nv | exact h.tbs | exact h.pairs | exact h.rings | exact h.dir | exact h.srcs | exact h.cmps | exact h.emus | exact h.seqs | exact h.slices | exact h.ctxs | exact h.regs | exact h.caps | exact rising_set h.drives _ _ _ | exact rising_set h.par _ _ _ | exact rising_set h.nv _ _ _ | exact rising_set h.tbs _ _ _ | exact rising_set h.pairs _ _ _ | exact rising_set h.rings _ _ _ | exact rising_set h.dir _ _ _ | exact rising_set h.srcs _ _ _ | exact rising_set h.cmps _ _ _ | exact rising_set h.emus _ _ _ | exact rising_set h.seqs _ _ _ | exact rising_set h.slices _ _ _ | exact rising_set h.ctxs _ _ _ | exact rising_set h.regs _ _ _ | exact rising_set h.caps _ _ _ | exact rising_filter h.par _ | exact rising_filter h.nv _ | exact rising_map h.rings (fun _ => rfl) | exact rising_map h.slices (fun _ => rfl) | exact rising_map h.ctxs (fun _ => rfl) | exact rising_map h.seqs (fun _ => rfl) | exact rising_nil)
    | with_reducible refine Same.ite ?_ ?_
    | with_reducible refine same_parClearUnit ?_
    | with_reducible refine same_freshWords ?_
    | with_reducible fail_if_no_progress refine Same.of ?_ rfl rfl rfl rfl rfl rfl rfl rfl rfl rfl rfl rfl rfl rfl rfl rfl rfl
    | split
    | with_reducible refine Same.ofTables ?_ rfl rfl (fun h => ?_)

theorem keeps_reset07 {s0 : State} {s : State} (hs : Keeps s0 s) :
    Keeps s0 (reset07 s) := hs.after (same_reset07 (Same.refl _))

theorem same_reset08 {s0 : State} {s : State} (hs : Same s0 s) :
    Same s0 (reset08 s) := by
  unfold reset08
  try dsimp only
  repeat' first
    | with_reducible assumption
    | with_reducible refine Same.ite ?_ ?_
    | with_reducible refine same_updPlate ?_
    | with_reducible refine same_plateReset ?_

theorem keeps_reset08 {s0 : State} {s : State} (hs : Keeps s0 s) :
    Keeps s0 (reset08 s) := hs.after (same_reset08 (Same.refl _))

theorem same_reset09 {s0 : State} {s : State} (hs : Same s0 s) :
    Same s0 (reset09 s) := by
  unfold reset09
  try dsimp only
  repeat' first
    | with_reducible assumption
    | (constructor <;> first | exact h.drives | exact h.par | exact h.nv | exact h.tbs | exact h.pairs | exact h.rings | exact h.dir | exact h.srcs | exact h.cmps | exact h.emus | exact h.seqs | exact h.slices | exact h.ctxs | exact h.regs | exact h.caps | exact rising_set h.drives _ _ _ | exact rising_set h.par _ _ _ | exact rising_set h.nv _ _ _ | exact rising_set h.tbs _ _ _ | exact rising_set h.pairs _ _ _ | exact rising_set h.rings _ _ _ | exact rising_set h.dir _ _ _ | exact rising_set h.srcs _ _ _ | exact rising_set h.cmps _ _ _ | exact rising_set h.emus _ _ _ | exact rising_set h.seqs _ _ _ | exact rising_set h.slices _ _ _ | exact rising_set h.ctxs _ _ _ | exact rising_set h.regs _ _ _ | exact rising_set h.caps _ _ _ | exact rising_filter h.par _ | exact rising_filter h.nv _ | exact rising_map h.rings (fun _ => rfl) | exact rising_map h.slices (fun _ => rfl) | exact rising_map h.ctxs (fun _ => rfl) | exact rising_map h.seqs (fun _ => rfl) | exact rising_nil)
    | with_reducible refine Same.ite ?_ ?_
    | with_reducible refine same_parClearUnit ?_
    | with_reducible refine same_freshWords ?_
    | with_reducible fail_if_no_progress refine Same.of ?_ rfl rfl rfl rfl rfl rfl rfl rfl rfl rfl rfl rfl rfl rfl rfl rfl rfl
    | split
    | with_reducible refine Same.ofTables ?_ rfl rfl (fun h => ?_)

theorem keeps_reset09 {s0 : State} {s : State} (hs : Keeps s0 s) :
    Keeps s0 (reset09 s) := hs.after (same_reset09 (Same.refl _))

theorem keeps_reset0A {s0 : State} {s : State} (hs : Keeps s0 s) :
    Keeps s0 (reset0A s) := by
  unfold reset0A
  try dsimp only
  repeat' first
    | with_reducible assumption
    | (constructor <;> first | exact h.drives | exact h.par | exact h.nv | exact h.tbs | exact h.pairs | exact h.rings | exact h.dir | exact h.srcs | exact h.cmps | exact h.emus | exact h.seqs | exact h.slices | exact h.ctxs | exact h.regs | exact h.caps | exact rising_set h.drives _ _ _ | exact rising_set h.par _ _ _ | exact rising_set h.nv _ _ _ | exact rising_set h.tbs _ _ _ | exact rising_set h.pairs _ _ _ | exact rising_set h.rings _ _ _ | exact rising_set h.dir _ _ _ | exact rising_set h.srcs _ _ _ | exact rising_set h.cmps _ _ _ | exact rising_set h.emus _ _ _ | exact rising_set h.seqs _ _ _ | exact rising_set h.slices _ _ _ | exact rising_set h.ctxs _ _ _ | exact rising_set h.regs _ _ _ | exact rising_set h.caps _ _ _ | exact rising_filter h.par _ | exact rising_filter h.nv _ | exact rising_map h.rings (fun _ => rfl) | exact rising_map h.slices (fun _ => rfl) | exact rising_map h.ctxs (fun _ => rfl) | exact rising_map h.seqs (fun _ => rfl) | exact rising_nil)
    | with_reducible refine Keeps.ite ?_ ?_
    | with_reducible refine keeps_parClearUnit ?_
    | with_reducible fail_if_no_progress refine Keeps.of ?_ rfl rfl rfl rfl rfl rfl rfl rfl rfl rfl rfl rfl rfl rfl rfl rfl rfl
    | with_reducible refine Keeps.filter ?_ rfl rfl (fun h => ?_)

theorem same_reset0C {s0 : State} {s : State} (hs : Same s0 s) :
    Same s0 (reset0C s) := by
  unfold reset0C
  try dsimp only
  repeat' first
    | with_reducible assumption
    | with_reducible refine Same.ite ?_ ?_
    | with_reducible fail_if_no_progress refine Same.of ?_ rfl rfl rfl rfl rfl rfl rfl rfl rfl rfl rfl rfl rfl rfl rfl rfl rfl

theorem keeps_reset0C {s0 : State} {s : State} (hs : Keeps s0 s) :
    Keeps s0 (reset0C s) := hs.after (same_reset0C (Same.refl _))

theorem same_reset0D {s0 : State} {s : State} (hs : Same s0 s) :
    Same s0 (reset0D s) := by
  unfold reset0D
  try dsimp only
  repeat' first
    | with_reducible assumption
    | with_reducible refine Same.ite ?_ ?_
    | with_reducible refine same_parClearUnit ?_
    | with_reducible fail_if_no_progress refine Same.of ?_ rfl rfl rfl rfl rfl rfl rfl rfl rfl rfl rfl rfl rfl rfl rfl rfl rfl

theorem same_reset0E {s0 : State} {s : State} (hs : Same s0 s) :
    Same s0 (reset0E s) := by
  unfold reset0E
  try dsimp only
  repeat' first
    | with_reducible assumption
    | with_reducible refine Same.ite ?_ ?_
    | with_reducible refine same_parClearUnit ?_
    | with_reducible fail_if_no_progress refine Same.of ?_ rfl rfl rfl rfl rfl rfl rfl rfl rfl rfl rfl rfl rfl rfl rfl rfl rfl

theorem keeps_reset0E {s0 : State} {s : State} (hs : Keeps s0 s) :
    Keeps s0 (reset0E s) := hs.after (same_reset0E (Same.refl _))

theorem same_reset0F {s0 : State} {s : State} (hs : Same s0 s) :
    Same s0 (reset0F s) := by
  unfold reset0F
  try dsimp only
  repeat' first
    | with_reducible assumption
    | with_reducible refine Same.ite ?_ ?_
    | with_reducible refine same_parClearUnit ?_
    | with_reducible fail_if_no_progress refine Same.of ?_ rfl rfl rfl rfl rfl rfl rfl rfl rfl rfl rfl rfl rfl rfl rfl rfl rfl

theorem keeps_reset0F {s0 : State} {s : State} (hs : Keeps s0 s) :
    Keeps s0 (reset0F s) := hs.after (same_reset0F (Same.refl _))

theorem keeps_zeroFill {s0 : State} {book : Bool} {s : State} (hs : Keeps s0 s) :
    Keeps s0 (zeroFill book s) := by
  unfold zeroFill
  try dsimp only
  repeat' first
    | with_reducible assumption
    | (constructor <;> first | exact h.drives | exact h.par | exact h.nv | exact h.tbs | exact h.pairs | exact h.rings | exact h.dir | exact h.srcs | exact h.cmps | exact h.emus | exact h.seqs | exact h.slices | exact h.ctxs | exact h.regs | exact h.caps | exact rising_set h.drives _ _ _ | exact rising_set h.par _ _ _ | exact rising_set h.nv _ _ _ | exact rising_set h.tbs _ _ _ | exact rising_set h.pairs _ _ _ | exact rising_set h.rings _ _ _ | exact rising_set h.dir _ _ _ | exact rising_set h.srcs _ _ _ | exact rising_set h.cmps _ _ _ | exact rising_set h.emus _ _ _ | exact rising_set h.seqs _ _ _ | exact rising_set h.slices _ _ _ | exact rising_set h.ctxs _ _ _ | exact rising_set h.regs _ _ _ | exact rising_set h.caps _ _ _ | exact rising_filter h.par _ | exact rising_filter h.nv _ | exact rising_map h.rings (fun _ => rfl) | exact rising_map h.slices (fun _ => rfl) | exact rising_map h.ctxs (fun _ => rfl) | exact rising_map h.seqs (fun _ => rfl) | exact rising_nil)
    | with_reducible refine Keeps.ite ?_ ?_
    | with_reducible fail_if_no_progress refine Keeps.of ?_ rfl rfl rfl rfl rfl rfl rfl rfl rfl rfl rfl rfl rfl rfl rfl rfl rfl
    | with_reducible refine Keeps.filter ?_ rfl rfl (fun h => ?_)

theorem same_stopPll {s0 : State} {s : State} (hs : Same s0 s) :
    Same s0 (stopPll s) := by
  unfold stopPll
  try dsimp only
  repeat' first
    | with_reducible assumption
    | with_reducible refine Same.ite ?_ ?_
    | with_reducible refine same_updDrive ?_
    | with_reducible refine Same.forUpTo ?_ (fun _ _ _ => ?_)
    | with_reducible fail_if_no_progress refine Same.of ?_ rfl rfl rfl rfl rfl rfl rfl rfl rfl rfl rfl rfl rfl rfl rfl rfl rfl

theorem keeps_stopPll {s0 : State} {s : State} (hs : Keeps s0 s) :
    Keeps s0 (stopPll s) := hs.after (same_stopPll (Same.refl _))

/-! Burnish. -/

theorem same_updBurn {s0 : State} {s : State} {f : Burnish → Burnish} (hs : Same s0 s) :
    Same s0 (updBurn s f) := by
  unfold updBurn
  try dsimp only
  repeat' first
    | with_reducible assumption
    | with_reducible refine Same.ite ?_ ?_
    | with_reducible fail_if_no_progress refine Same.of ?_ rfl rfl rfl rfl rfl rfl rfl rfl rfl rfl rfl rfl rfl rfl rfl rfl rfl

theorem keeps_updBurn {s0 : State} {s : State} {f : Burnish → Burnish} (hs : Keeps s0 s) :
    Keeps s0 (updBurn s f) := hs.after (same_updBurn (Same.refl _))

theorem same_readHeads {s0 : State} {s : State} (hs : Same s0 s) :
    Same s0 (readHeads s) := by
  unfold readHeads
  try dsimp only
  repeat' first
    | with_reducible assumption
    | with_reducible refine Same.ite ?_ ?_
    | with_reducible refine same_readCells ?_

theorem same_persist {s0 : State} {s : State} (hs : Same s0 s) :
    Same s0 (persist s) := by
  unfold persist
  try dsimp only
  repeat' first
    | with_reducible assumption
    | with_reducible refine Same.ite ?_ ?_
    | with_reducible refine same_freshWords ?_
    | with_reducible refine same_updBurn ?_

theorem same_startRun {s0 : State} {kind : Nat} {quick : Bool} {set : List Nat} {s : State} (hs : Same s0 s) :
    Same s0 (startRun kind quick set s) := by
  unfold startRun
  try dsimp only
  repeat' first
    | with_reducible assumption
    | with_reducible refine Same.ite ?_ ?_
    | with_reducible refine same_mramRefuse ?_
    | with_reducible refine same_updBurn ?_
    | with_reducible refine same_readHeads ?_
    | with_reducible refine same_persist ?_

theorem same_noteUnit {s0 : State} {u : Nat} {count : Nat} {sig : Word} {rows : List FailRow} {s : State} (hs : Same s0 s) :
    Same s0 (noteUnit u count sig rows s) := by
  unfold noteUnit
  try dsimp only
  repeat' first
    | with_reducible assumption
    | with_reducible refine Same.ite ?_ ?_
    | with_reducible refine same_readCells ?_
    | with_reducible refine same_updBurn ?_

theorem same_restoreGraver {s0 : State} {s : State} (hs : Same s0 s) :
    Same s0 (restoreGraver s) := by
  unfold restoreGraver
  try dsimp only
  repeat' first
    | with_reducible assumption
    | (constructor <;> first | exact h.drives | exact h.par | exact h.nv | exact h.tbs | exact h.pairs | exact h.rings | exact h.dir | exact h.srcs | exact h.cmps | exact h.emus | exact h.seqs | exact h.slices | exact h.ctxs | exact h.regs | exact h.caps | exact rising_set h.drives _ _ _ | exact rising_set h.par _ _ _ | exact rising_set h.nv _ _ _ | exact rising_set h.tbs _ _ _ | exact rising_set h.pairs _ _ _ | exact rising_set h.rings _ _ _ | exact rising_set h.dir _ _ _ | exact rising_set h.srcs _ _ _ | exact rising_set h.cmps _ _ _ | exact rising_set h.emus _ _ _ | exact rising_set h.seqs _ _ _ | exact rising_set h.slices _ _ _ | exact rising_set h.ctxs _ _ _ | exact rising_set h.regs _ _ _ | exact rising_set h.caps _ _ _ | exact rising_filter h.par _ | exact rising_filter h.nv _ | exact rising_map h.rings (fun _ => rfl) | exact rising_map h.slices (fun _ => rfl) | exact rising_map h.ctxs (fun _ => rfl) | exact rising_map h.seqs (fun _ => rfl) | exact rising_nil)
    | with_reducible refine Same.ite ?_ ?_
    | with_reducible refine same_freshWords ?_
    | with_reducible fail_if_no_progress refine Same.of ?_ rfl rfl rfl rfl rfl rfl rfl rfl rfl rfl rfl rfl rfl rfl rfl rfl rfl
    | split
    | with_reducible refine Same.ofTables ?_ rfl rfl (fun h => ?_)

theorem same_restoreStopout {s0 : State} {reg : Bool} {s : State} (hs : Same s0 s) :
    Same s0 (restoreStopout reg s) := by
  unfold restoreStopout
  try dsimp only
  repeat' first
    | with_reducible assumption
    | (constructor <;> first | exact h.drives | exact h.par | exact h.nv | exact h.tbs | exact h.pairs | exact h.rings | exact h.dir | exact h.srcs | exact h.cmps | exact h.emus | exact h.seqs | exact h.slices | exact h.ctxs | exact h.regs | exact h.caps | exact rising_set h.drives _ _ _ | exact rising_set h.par _ _ _ | exact rising_set h.nv _ _ _ | exact rising_set h.tbs _ _ _ | exact rising_set h.pairs _ _ _ | exact rising_set h.rings _ _ _ | exact rising_set h.dir _ _ _ | exact rising_set h.srcs _ _ _ | exact rising_set h.cmps _ _ _ | exact rising_set h.emus _ _ _ | exact rising_set h.seqs _ _ _ | exact rising_set h.slices _ _ _ | exact rising_set h.ctxs _ _ _ | exact rising_set h.regs _ _ _ | exact rising_set h.caps _ _ _ | exact rising_filter h.par _ | exact rising_filter h.nv _ | exact rising_map h.rings (fun _ => rfl) | exact rising_map h.slices (fun _ => rfl) | exact rising_map h.ctxs (fun _ => rfl) | exact rising_map h.seqs (fun _ => rfl) | exact rising_nil)
    | with_reducible refine Same.ite ?_ ?_
    | with_reducible refine same_freshWords ?_
    | with_reducible fail_if_no_progress refine Same.of ?_ rfl rfl rfl rfl rfl rfl rfl rfl rfl rfl rfl rfl rfl rfl rfl rfl rfl
    | split
    | with_reducible refine Same.ofTables ?_ rfl rfl (fun h => ?_)

theorem same_restoreConverters {s0 : State} {s : State} (hs : Same s0 s) :
    Same s0 (restoreConverters s) := by
  unfold restoreConverters
  try dsimp only
  repeat' first
    | with_reducible assumption
    | (constructor <;> first | exact h.drives | exact h.par | exact h.nv | exact h.tbs | exact h.pairs | exact h.rings | exact h.dir | exact h.srcs | exact h.cmps | exact h.emus | exact h.seqs | exact h.slices | exact h.ctxs | exact h.regs | exact h.caps | exact rising_set h.drives _ _ _ | exact rising_set h.par _ _ _ | exact rising_set h.nv _ _ _ | exact rising_set h.tbs _ _ _ | exact rising_set h.pairs _ _ _ | exact rising_set h.rings _ _ _ | exact rising_set h.dir _ _ _ | exact rising_set h.srcs _ _ _ | exact rising_set h.cmps _ _ _ | exact rising_set h.emus _ _ _ | exact rising_set h.seqs _ _ _ | exact rising_set h.slices _ _ _ | exact rising_set h.ctxs _ _ _ | exact rising_set h.regs _ _ _ | exact rising_set h.caps _ _ _ | exact rising_filter h.par _ | exact rising_filter h.nv _ | exact rising_map h.rings (fun _ => rfl) | exact rising_map h.slices (fun _ => rfl) | exact rising_map h.ctxs (fun _ => rfl) | exact rising_map h.seqs (fun _ => rfl) | exact rising_nil)
    | with_reducible refine Same.ite ?_ ?_
    | with_reducible refine same_parClearUnit ?_
    | with_reducible refine same_beginStep ?_
    | with_reducible fail_if_no_progress refine Same.of ?_ rfl rfl rfl rfl rfl rfl rfl rfl rfl rfl rfl rfl rfl rfl rfl rfl rfl
    | split
    | with_reducible refine Same.ofTables ?_ rfl rfl (fun h => ?_)

theorem same_restoreRings {s0 : State} {s : State} (hs : Same s0 s) :
    Same s0 (restoreRings s) := by
  unfold restoreRings
  try dsimp only
  repeat' first
    | with_reducible assumption
    | (constructor <;> first | exact h.drives | exact h.par | exact h.nv | exact h.tbs | exact h.pairs | exact h.rings | exact h.dir | exact h.srcs | exact h.cmps | exact h.emus | exact h.seqs | exact h.slices | exact h.ctxs | exact h.regs | exact h.caps | exact rising_set h.drives _ _ _ | exact rising_set h.par _ _ _ | exact rising_set h.nv _ _ _ | exact rising_set h.tbs _ _ _ | exact rising_set h.pairs _ _ _ | exact rising_set h.rings _ _ _ | exact rising_set h.dir _ _ _ | exact rising_set h.srcs _ _ _ | exact rising_set h.cmps _ _ _ | exact rising_set h.emus _ _ _ | exact rising_set h.seqs _ _ _ | exact rising_set h.slices _ _ _ | exact rising_set h.ctxs _ _ _ | exact rising_set h.regs _ _ _ | exact rising_set h.caps _ _ _ | exact rising_filter h.par _ | exact rising_filter h.nv _ | exact rising_map h.rings (fun _ => rfl) | exact rising_map h.slices (fun _ => rfl) | exact rising_map h.ctxs (fun _ => rfl) | exact rising_map h.seqs (fun _ => rfl) | exact rising_nil)
    | with_reducible refine Same.ite ?_ ?_
    | with_reducible fail_if_no_progress refine Same.of ?_ rfl rfl rfl rfl rfl rfl rfl rfl rfl rfl rfl rfl rfl rfl rfl rfl rfl
    | split
    | with_reducible refine Same.ofTables ?_ rfl rfl (fun h => ?_)

theorem same_restoreFolio {s0 : State} {s : State} (hs : Same s0 s) :
    Same s0 (restoreFolio s) := by
  unfold restoreFolio
  try dsimp only
  repeat' first
    | with_reducible assumption
    | with_reducible refine Same.ite ?_ ?_
    | with_reducible refine same_parClearUnit ?_
    | with_reducible fail_if_no_progress refine Same.of ?_ rfl rfl rfl rfl rfl rfl rfl rfl rfl rfl rfl rfl rfl rfl rfl rfl rfl

theorem same_restoreBlock {s0 : State} {u : Nat} {s : State} (hs : Same s0 s) :
    Same s0 (restoreBlock u s) := by
  unfold restoreBlock
  try dsimp only
  repeat' first
    | with_reducible assumption
    | with_reducible refine Same.ite ?_ ?_
    | with_reducible refine same_plateReset ?_
    | with_reducible refine same_reset05 ?_
    | with_reducible refine same_restoreGraver ?_
    | with_reducible refine same_restoreStopout ?_
    | with_reducible refine same_restoreConverters ?_
    | with_reducible refine same_restoreRings ?_
    | with_reducible refine same_restoreFolio ?_

theorem same_applyRepairs {s0 : State} {r : BurnRec} {s : State} (hs : Same s0 s) :
    Same s0 (applyRepairs r s) := by
  unfold applyRepairs
  try dsimp only
  repeat' first
    | with_reducible assumption
    | with_reducible refine Same.ite ?_ ?_
    | with_reducible refine same_record ?_
    | with_reducible refine same_mramRefuse ?_
    | with_reducible refine same_updBurn ?_
    | with_reducible refine Same.forEach ?_ (fun _ _ _ => ?_)

theorem same_closeRun {s0 : State} {aborted : Bool} {s : State} (hs : Same s0 s) :
    Same s0 (closeRun aborted s) := by
  unfold closeRun
  try dsimp only
  repeat' first
    | with_reducible assumption
    | with_reducible refine Same.ite ?_ ?_
    | with_reducible refine same_record ?_
    | with_reducible refine same_updBurn ?_
    | with_reducible refine same_persist ?_
    | with_reducible fail_if_no_progress refine Same.of ?_ rfl rfl rfl rfl rfl rfl rfl rfl rfl rfl rfl rfl rfl rfl rfl rfl rfl
    | split

theorem keeps_closeRun {s0 : State} {aborted : Bool} {s : State} (hs : Keeps s0 s) :
    Keeps s0 (closeRun aborted s) := hs.after (same_closeRun (Same.refl _))

theorem same_relinkRings {s0 : State} {s : State} (hs : Same s0 s) :
    Same s0 (relinkRings s) := by
  unfold relinkRings
  try dsimp only
  repeat' first
    | with_reducible assumption
    | (constructor <;> first | exact h.drives | exact h.par | exact h.nv | exact h.tbs | exact h.pairs | exact h.rings | exact h.dir | exact h.srcs | exact h.cmps | exact h.emus | exact h.seqs | exact h.slices | exact h.ctxs | exact h.regs | exact h.caps | exact rising_set h.drives _ _ _ | exact rising_set h.par _ _ _ | exact rising_set h.nv _ _ _ | exact rising_set h.tbs _ _ _ | exact rising_set h.pairs _ _ _ | exact rising_set h.rings _ _ _ | exact rising_set h.dir _ _ _ | exact rising_set h.srcs _ _ _ | exact rising_set h.cmps _ _ _ | exact rising_set h.emus _ _ _ | exact rising_set h.seqs _ _ _ | exact rising_set h.slices _ _ _ | exact rising_set h.ctxs _ _ _ | exact rising_set h.regs _ _ _ | exact rising_set h.caps _ _ _ | exact rising_filter h.par _ | exact rising_filter h.nv _ | exact rising_map h.rings (fun _ => rfl) | exact rising_map h.slices (fun _ => rfl) | exact rising_map h.ctxs (fun _ => rfl) | exact rising_map h.seqs (fun _ => rfl) | exact rising_nil)
    | with_reducible refine Same.ite ?_ ?_
    | with_reducible fail_if_no_progress refine Same.of ?_ rfl rfl rfl rfl rfl rfl rfl rfl rfl rfl rfl rfl rfl rfl rfl rfl rfl
    | split
    | with_reducible refine Same.ofTables ?_ rfl rfl (fun h => ?_)

theorem same_leaveShutdown {s0 : State} {s : State} (hs : Same s0 s) :
    Same s0 (leaveShutdown s) := by
  unfold leaveShutdown
  try dsimp only
  repeat' first
    | with_reducible assumption
    | with_reducible refine Same.ite ?_ ?_
    | with_reducible refine same_setOp ?_
    | with_reducible refine same_settlePairs ?_
    | with_reducible refine same_completeTag ?_
    | with_reducible refine same_wcEvalAll ?_
    | with_reducible refine same_tripResample ?_
    | with_reducible refine same_restartSource ?_
    | with_reducible refine same_gapsFrom ?_
    | with_reducible refine same_updBurn ?_
    | with_reducible refine same_relinkRings ?_
    | with_reducible refine Same.forUpTo ?_ (fun _ _ _ => ?_)
    | with_reducible refine Same.forEach ?_ (fun _ _ _ => ?_)

theorem same_burnishDead {s0 : State} {s : State} (hs : Same s0 s) :
    Same s0 (burnishDead s) := by
  unfold burnishDead
  try dsimp only
  repeat' first
    | with_reducible assumption
    | with_reducible refine Same.ite ?_ ?_
    | with_reducible refine same_completeTag ?_
    | with_reducible refine same_updBurn ?_
    | with_reducible refine same_closeRun ?_
    | with_reducible refine Same.forEach ?_ (fun _ _ _ => ?_)

theorem same_nextUnit {s0 : State} {rest : List Nat} {s : State} (hs : Same s0 s) :
    Same s0 (nextUnit rest s) := by
  unfold nextUnit
  try dsimp only
  repeat' first
    | with_reducible assumption
    | with_reducible refine Same.ite ?_ ?_
    | with_reducible refine same_updBurn ?_
    | with_reducible refine same_closeRun ?_
    | with_reducible refine same_leaveShutdown ?_
    | with_reducible refine same_burnishDead ?_
    | with_reducible fail_if_no_progress refine Same.of ?_ rfl rfl rfl rfl rfl rfl rfl rfl rfl rfl rfl rfl rfl rfl rfl rfl rfl
    | split

theorem same_bootFail {s0 : State} {u : Nat} {rest : List Nat} {s : State} (hs : Same s0 s) :
    Same s0 (bootFail u rest s) := by
  unfold bootFail
  try dsimp only
  repeat' first
    | with_reducible assumption
    | with_reducible refine Same.ite ?_ ?_
    | with_reducible refine same_updBurn ?_
    | with_reducible refine same_applyRepairs ?_
    | with_reducible refine same_nextUnit ?_
    | with_reducible fail_if_no_progress refine Same.of ?_ rfl rfl rfl rfl rfl rfl rfl rfl rfl rfl rfl rfl rfl rfl rfl rfl rfl
    | split

theorem same_unitEnd {s0 : State} {count : Nat} {sig : Word} {rows : List FailRow} {s : State} (hs : Same s0 s) :
    Same s0 (unitEnd count sig rows s) := by
  unfold unitEnd
  try dsimp only
  repeat' first
    | with_reducible assumption
    | with_reducible refine Same.ite ?_ ?_
    | with_reducible refine same_persist ?_
    | with_reducible refine same_noteUnit ?_
    | with_reducible refine same_restoreBlock ?_
    | with_reducible refine same_nextUnit ?_
    | with_reducible refine same_bootFail ?_
    | with_reducible fail_if_no_progress refine Same.of ?_ rfl rfl rfl rfl rfl rfl rfl rfl rfl rfl rfl rfl rfl rfl rfl rfl rfl
    | split

theorem same_execBurnishUnitEnd {s0 : State} {count : Nat} {sig : Word} {rows : List FailRow} {s : State} (hs : Same s0 s) :
    ∃ v0, execBurnishUnitEnd count sig rows s = .next v0 ∧ Same s0 v0 := by
  refine ⟨_, rfl, ?_⟩
  try dsimp only
  repeat' first
    | with_reducible assumption
    | with_reducible refine Same.ite ?_ ?_
    | with_reducible refine same_unitEnd ?_

theorem same_execBurnishUnitTimeout {s0 : State} {count : Nat} {sig : Word} {rows : List FailRow} {s : State} (hs : Same s0 s) :
    ∃ v0, execBurnishUnitTimeout count sig rows s = .next v0 ∧ Same s0 v0 := by
  refine ⟨_, rfl, ?_⟩
  try dsimp only
  repeat' first
    | with_reducible assumption
    | with_reducible refine Same.ite ?_ ?_
    | with_reducible refine same_unitEnd ?_

theorem same_execBurnishDrainDone {s0 : State} {s : State} (hs : Same s0 s) :
    ∃ v0, execBurnishDrainDone s = .next v0 ∧ Same s0 v0 := by
  refine ⟨_, rfl, ?_⟩
  try dsimp only
  repeat' first
    | with_reducible assumption
    | with_reducible refine Same.ite ?_ ?_
    | with_reducible refine same_updBurn ?_

theorem same_execBurnishDrainTimeout {s0 : State} {s : State} (hs : Same s0 s) :
    ∃ v0, execBurnishDrainTimeout s = .next v0 ∧ Same s0 v0 := by
  refine ⟨_, rfl, ?_⟩
  try dsimp only
  repeat' first
    | with_reducible assumption
    | with_reducible refine Same.ite ?_ ?_
    | with_reducible refine same_updBurn ?_
    | with_reducible refine same_nextUnit ?_

theorem keeps_execBurnishReloadDone {s0 : State} {s : State} (hs : Keeps s0 s) :
    ∃ v0, execBurnishReloadDone s = .next v0 ∧ Keeps s0 v0 := by
  refine ⟨_, rfl, ?_⟩
  try dsimp only
  repeat' first
    | with_reducible assumption
    | with_reducible refine Keeps.ite ?_ ?_
    | with_reducible refine keeps_updPlate ?_
    | with_reducible refine keeps_loadImage ?_
    | with_reducible refine keeps_readSlot ?_
    | with_reducible refine keeps_updBurn ?_
    | with_reducible refine keeps_closeRun ?_

theorem same_noteStart {s0 : State} {kind : Nat} {run : Nat} {s : State} (hs : Same s0 s) :
    Same s0 (noteStart kind run s) := by
  unfold noteStart
  try dsimp only
  repeat' first
    | with_reducible assumption
    | with_reducible refine Same.ite ?_ ?_
    | with_reducible refine same_updBurn ?_

theorem same_startupRun {s0 : State} {set : List Nat} {s : State} (hs : Same s0 s) :
    Same s0 (startupRun set s) := by
  unfold startupRun
  try dsimp only
  repeat' first
    | with_reducible assumption
    | with_reducible refine Same.ite ?_ ?_
    | with_reducible refine same_startRun ?_

theorem same_lostStart {s0 : State} {s : State} (hs : Same s0 s) :
    Same s0 (lostStart s) := by
  unfold lostStart
  try dsimp only
  repeat' first
    | with_reducible assumption
    | with_reducible refine Same.ite ?_ ?_
    | with_reducible refine same_noteStart ?_
    | with_reducible refine same_startupRun ?_

theorem same_lockedStart {s0 : State} {run : Nat} {set : List Nat} {s : State} (hs : Same s0 s) :
    Same s0 (lockedStart run set s) := by
  unfold lockedStart
  try dsimp only
  repeat' first
    | with_reducible assumption
    | with_reducible refine Same.ite ?_ ?_
    | with_reducible refine same_startRun ?_
    | with_reducible refine same_noteStart ?_
    | with_reducible fail_if_no_progress refine Same.of ?_ rfl rfl rfl rfl rfl rfl rfl rfl rfl rfl rfl rfl rfl rfl rfl rfl rfl

theorem same_consumeRec {s0 : State} {n : Nat} {r : BurnRec} {s : State} (hs : Same s0 s) :
    Same s0 (consumeRec n r s) := by
  unfold consumeRec
  try dsimp only
  repeat' first
    | with_reducible assumption
    | with_reducible refine Same.ite ?_ ?_
    | with_reducible refine same_updBurn ?_

theorem same_startFrom {s0 : State} {n : Nat} {r : BurnRec} {fails : Bool} {unrep : Bool} {s : State} (hs : Same s0 s) :
    Same s0 (startFrom n r fails unrep s) := by
  unfold startFrom
  try dsimp only
  repeat' first
    | with_reducible assumption
    | with_reducible refine Same.ite ?_ ?_
    | with_reducible refine same_mramRefuse ?_
    | with_reducible refine same_noteStart ?_
    | with_reducible refine same_startupRun ?_
    | with_reducible refine same_lostStart ?_
    | with_reducible refine same_lockedStart ?_
    | with_reducible refine same_consumeRec ?_
    | with_reducible fail_if_no_progress refine Same.of ?_ rfl rfl rfl rfl rfl rfl rfl rfl rfl rfl rfl rfl rfl rfl rfl rfl rfl

theorem same_chooseStart {s0 : State} {s : State} (hs : Same s0 s) :
    Same s0 (chooseStart s) := by
  unfold chooseStart
  try dsimp only
  repeat' first
    | with_reducible assumption
    | with_reducible refine Same.ite ?_ ?_
    | with_reducible refine same_readHeads ?_
    | with_reducible refine same_applyRepairs ?_
    | with_reducible refine same_lostStart ?_
    | with_reducible refine same_startFrom ?_
    | with_reducible fail_if_no_progress refine Same.of ?_ rfl rfl rfl rfl rfl rfl rfl rfl rfl rfl rfl rfl rfl rfl rfl rfl rfl
    | split

theorem keeps_chooseStart {s0 : State} {s : State} (hs : Keeps s0 s) :
    Keeps s0 (chooseStart s) := hs.after (same_chooseStart (Same.refl _))

theorem same_bodyBurnishAbort {s0 : State} {tag : Nat} {_ws : List Word} {s : State} (hs : Same s0 s) :
    SameR s0 (bodyBurnishAbort tag _ws s) := by
  unfold bodyBurnishAbort
  try dsimp only
  repeat' first
    | with_reducible assumption
    | with_reducible refine Same.ite ?_ ?_
    | with_reducible refine SameR.ite ?_ ?_
    | with_reducible refine SameR.done ?_
    | with_reducible refine SameR.wait ?_
    | with_reducible refine same_updBurn ?_
    | with_reducible refine same_closeRun ?_
    | with_reducible refine same_leaveShutdown ?_

theorem same_resultReply {s0 : State} {s : State} {n : Option Nat} {r : BurnRec} (hs : Same s0 s) :
    SameR s0 (resultReply s n r) := by
  unfold resultReply
  try dsimp only
  repeat' first
    | with_reducible assumption
    | with_reducible refine Same.ite ?_ ?_
    | with_reducible refine SameR.ite ?_ ?_
    | with_reducible refine SameR.done ?_
    | with_reducible refine SameR.wait ?_
    | with_reducible refine same_readCells ?_

theorem same_bodyBurnishResult {s0 : State} {ws : List Word} {s : State} (hs : Same s0 s) :
    SameR s0 (bodyBurnishResult ws s) := by
  unfold bodyBurnishResult
  try dsimp only
  repeat' first
    | with_reducible assumption
    | with_reducible refine Same.ite ?_ ?_
    | with_reducible refine SameR.ite ?_ ?_
    | with_reducible refine SameR.done ?_
    | with_reducible refine SameR.wait ?_
    | with_reducible refine same_refuse ?_
    | with_reducible refine same_checked ?_ ?_
    | with_reducible refine same_readHeads ?_
    | with_reducible refine same_resultReply ?_
    | with_reducible fail_if_no_progress refine Same.of ?_ rfl rfl rfl rfl rfl rfl rfl rfl rfl rfl rfl rfl rfl rfl rfl rfl rfl
    | split

/-! Power. -/

theorem same_updPwr {s0 : State} {s : State} {f : Power → Power} (hs : Same s0 s) :
    Same s0 (updPwr s f) := by
  unfold updPwr
  try dsimp only
  repeat' first
    | with_reducible assumption
    | with_reducible refine Same.ite ?_ ?_
    | with_reducible fail_if_no_progress refine Same.of ?_ rfl rfl rfl rfl rfl rfl rfl rfl rfl rfl rfl rfl rfl rfl rfl rfl rfl

theorem keeps_updPwr {s0 : State} {s : State} {f : Power → Power} (hs : Keeps s0 s) :
    Keeps s0 (updPwr s f) := hs.after (same_updPwr (Same.refl _))

theorem same_endSpan {s0 : State} {s : State} (hs : Same s0 s) :
    Same s0 (endSpan s) := by
  unfold endSpan
  try dsimp only
  repeat' first
    | with_reducible assumption
    | with_reducible refine Same.ite ?_ ?_
    | with_reducible fail_if_no_progress refine Same.of ?_ rfl rfl rfl rfl rfl rfl rfl rfl rfl rfl rfl rfl rfl rfl rfl rfl rfl

theorem keeps_endSpan {s0 : State} {s : State} (hs : Keeps s0 s) :
    Keeps s0 (endSpan s) := hs.after (same_endSpan (Same.refl _))

theorem keeps_powerOn {s0 : State} {code : Nat} {s : State} (hs : Keeps s0 s) :
    Keeps s0 (powerOn code s) := by
  unfold powerOn
  try dsimp only
  repeat' first
    | with_reducible assumption
    | (constructor <;> first | exact h.drives | exact h.par | exact h.nv | exact h.tbs | exact h.pairs | exact h.rings | exact h.dir | exact h.srcs | exact h.cmps | exact h.emus | exact h.seqs | exact h.slices | exact h.ctxs | exact h.regs | exact h.caps | exact rising_set h.drives _ _ _ | exact rising_set h.par _ _ _ | exact rising_set h.nv _ _ _ | exact rising_set h.tbs _ _ _ | exact rising_set h.pairs _ _ _ | exact rising_set h.rings _ _ _ | exact rising_set h.dir _ _ _ | exact rising_set h.srcs _ _ _ | exact rising_set h.cmps _ _ _ | exact rising_set h.emus _ _ _ | exact rising_set h.seqs _ _ _ | exact rising_set h.slices _ _ _ | exact rising_set h.ctxs _ _ _ | exact rising_set h.regs _ _ _ | exact rising_set h.caps _ _ _ | exact rising_filter h.par _ | exact rising_filter h.nv _ | exact rising_map h.rings (fun _ => rfl) | exact rising_map h.slices (fun _ => rfl) | exact rising_map h.ctxs (fun _ => rfl) | exact rising_map h.seqs (fun _ => rfl) | exact rising_nil)
    | with_reducible refine Keeps.ite ?_ ?_
    | with_reducible fail_if_no_progress refine Keeps.of ?_ rfl rfl rfl rfl rfl rfl rfl rfl rfl rfl rfl rfl rfl rfl rfl rfl rfl
    | with_reducible refine Keeps.filter ?_ rfl rfl (fun h => ?_)

theorem keeps_systemReset {s0 : State} {code : Nat} {s : State} (hs : Keeps s0 s) :
    Keeps s0 (systemReset code s) := by
  unfold systemReset
  try dsimp only
  repeat' first
    | with_reducible assumption
    | with_reducible refine Keeps.ite ?_ ?_
    | with_reducible refine keeps_settlePairs ?_
    | with_reducible refine keeps_folioReset ?_
    | with_reducible refine keeps_marginReset ?_
    | with_reducible refine keeps_reset00 ?_
    | with_reducible refine keeps_reset02 ?_
    | with_reducible refine keeps_reset03 ?_
    | with_reducible refine keeps_reset04 ?_
    | with_reducible refine keeps_reset05 ?_
    | with_reducible refine keeps_reset06 ?_
    | with_reducible refine keeps_reset07 ?_
    | with_reducible refine keeps_reset08 ?_
    | with_reducible refine keeps_reset09 ?_
    | with_reducible refine keeps_reset0A ?_
    | with_reducible refine keeps_reset0C ?_
    | with_reducible refine keeps_reset0E ?_
    | with_reducible refine keeps_reset0F ?_
    | with_reducible refine keeps_stopPll ?_
    | with_reducible refine keeps_updBurn ?_
    | with_reducible refine keeps_updPwr ?_
    | with_reducible fail_if_no_progress refine Keeps.of ?_ rfl rfl rfl rfl rfl rfl rfl rfl rfl rfl rfl rfl rfl rfl rfl rfl rfl

theorem same_warmReset {s0 : State} {s : State} (hs : Same s0 s) :
    Same s0 (warmReset s) := by
  unfold warmReset
  try dsimp only
  repeat' first
    | with_reducible assumption
    | with_reducible refine Same.ite ?_ ?_
    | with_reducible refine same_updCap ?_
    | with_reducible refine same_settlePairs ?_
    | with_reducible refine same_folioReset ?_
    | with_reducible refine same_marginReset ?_
    | with_reducible refine same_reset00 ?_
    | with_reducible refine same_reset03 ?_
    | with_reducible refine same_reset04 ?_
    | with_reducible refine same_reset05 ?_
    | with_reducible refine same_reset06 ?_
    | with_reducible refine same_reset07 ?_
    | with_reducible refine same_reset08 ?_
    | with_reducible refine same_reset09 ?_
    | with_reducible refine same_reset0C ?_
    | with_reducible refine same_reset0F ?_
    | with_reducible refine same_updPwr ?_
    | with_reducible refine Same.forUpTo ?_ (fun _ _ _ => ?_)

theorem keeps_warmReset {s0 : State} {s : State} (hs : Keeps s0 s) :
    Keeps s0 (warmReset s) := hs.after (same_warmReset (Same.refl _))

theorem keeps_execPowerOnReset {s0 : State} {brownOut : Bool} {s : State} (hs : Keeps s0 s) :
    ∃ v0, execPowerOnReset brownOut s = .next v0 ∧ Keeps s0 v0 := by
  refine ⟨_, rfl, ?_⟩
  try dsimp only
  repeat' first
    | with_reducible assumption
    | with_reducible refine Keeps.ite ?_ ?_
    | with_reducible refine keeps_powerOn ?_

theorem keeps_execRstNReset {s0 : State} {s : State} (hs : Keeps s0 s) :
    ∃ v0, execRstNReset s = .next v0 ∧ Keeps s0 v0 := by
  refine ⟨_, rfl, ?_⟩
  try dsimp only
  repeat' first
    | with_reducible assumption
    | with_reducible refine Keeps.ite ?_ ?_
    | with_reducible refine keeps_systemReset ?_

theorem keeps_execPorRelease {s0 : State} {sideB : Bool} {s : State} (hs : Keeps s0 s) :
    ∃ v0, execPorRelease sideB s = .next v0 ∧ Keeps s0 v0 := by
  refine ⟨_, rfl, ?_⟩
  try dsimp only
  repeat' first
    | with_reducible assumption
    | with_reducible refine Keeps.ite ?_ ?_
    | with_reducible refine keeps_updPwr ?_
    | with_reducible refine keeps_powerOn ?_
    | with_reducible fail_if_no_progress refine Keeps.of ?_ rfl rfl rfl rfl rfl rfl rfl rfl rfl rfl rfl rfl rfl rfl rfl rfl rfl

theorem keeps_resetAfterReply {s0 : State} {tag : Nat} {s : State} (hs : Keeps s0 s) :
    Keeps s0 (resetAfterReply tag s) := by
  unfold resetAfterReply
  try dsimp only
  repeat' first
    | with_reducible assumption
    | with_reducible refine Keeps.ite ?_ ?_
    | with_reducible refine keeps_updPwr ?_
    | with_reducible refine keeps_endSpan ?_
    | with_reducible refine keeps_systemReset ?_
    | with_reducible refine keeps_warmReset ?_
    | with_reducible fail_if_no_progress refine Keeps.of ?_ rfl rfl rfl rfl rfl rfl rfl rfl rfl rfl rfl rfl rfl rfl rfl rfl rfl
    | split

theorem keeps_bootImage {s0 : State} {s : State} (hs : Keeps s0 s) :
    Keeps s0 (bootImage s) := by
  unfold bootImage
  try dsimp only
  repeat' first
    | with_reducible assumption
    | with_reducible refine Keeps.ite ?_ ?_
    | with_reducible refine keeps_mramRefuse ?_
    | with_reducible refine keeps_nvSet ?_
    | with_reducible refine keeps_updPlate ?_
    | with_reducible refine keeps_loadImage ?_
    | with_reducible fail_if_no_progress refine Keeps.of ?_ rfl rfl rfl rfl rfl rfl rfl rfl rfl rfl rfl rfl rfl rfl rfl rfl rfl
    | split

theorem same_startEnumeration {s0 : State} {s : State} (hs : Same s0 s) :
    Same s0 (startEnumeration s) := by
  unfold startEnumeration
  try dsimp only
  repeat' first
    | with_reducible assumption
    | with_reducible refine Same.ite ?_ ?_
    | with_reducible refine same_startPass ?_
    | with_reducible refine Same.forUpTo ?_ (fun _ _ _ => ?_)

theorem same_firmwareStart {s0 : State} {s : State} (hs : Same s0 s) :
    Same s0 (firmwareStart s) := by
  unfold firmwareStart
  try dsimp only
  repeat' first
    | with_reducible assumption
    | with_reducible refine Same.ite ?_ ?_
    | with_reducible refine same_record ?_
    | with_reducible refine same_updPlate ?_
    | with_reducible refine same_supplyFault ?_
    | with_reducible refine same_updPwr ?_
    | with_reducible refine Same.forEach ?_ (fun _ _ _ => ?_)

theorem keeps_firmwareStart {s0 : State} {s : State} (hs : Keeps s0 s) :
    Keeps s0 (firmwareStart s) := hs.after (same_firmwareStart (Same.refl _))

theorem same_reachStandby {s0 : State} {old : Nat} {us : Nat} {s : State} (hs : Same s0 s) :
    Same s0 (reachStandby old us s) := by
  unfold reachStandby
  try dsimp only
  repeat' first
    | with_reducible assumption
    | with_reducible refine Same.ite ?_ ?_
    | with_reducible refine same_setAttn ?_
    | with_reducible refine same_record ?_
    | with_reducible refine same_settlePairs ?_
    | with_reducible refine same_bootCalibrate ?_
    | with_reducible refine same_gapsFrom ?_
    | with_reducible refine same_updBurn ?_
    | with_reducible refine same_updPwr ?_
    | with_reducible refine same_startEnumeration ?_
    | with_reducible fail_if_no_progress refine Same.of ?_ rfl rfl rfl rfl rfl rfl rfl rfl rfl rfl rfl rfl rfl rfl rfl rfl rfl

theorem keeps_reachStandby {s0 : State} {old : Nat} {us : Nat} {s : State} (hs : Keeps s0 s) :
    Keeps s0 (reachStandby old us s) := hs.after (same_reachStandby (Same.refl _))

theorem same_readSlots {s0 : State} {s : State} (hs : Same s0 s) :
    Same s0 (readSlots s) := by
  unfold readSlots
  try dsimp only
  repeat' first
    | with_reducible assumption
    | with_reducible refine Same.ite ?_ ?_
    | with_reducible refine same_readSlot ?_

theorem keeps_readSlots {s0 : State} {s : State} (hs : Keeps s0 s) :
    Keeps s0 (readSlots s) := hs.after (same_readSlots (Same.refl _))

theorem keeps_bootNext {s0 : State} {us : Nat} {s : State} (hs : Keeps s0 s) :
    Keeps s0 (bootNext us s) := by
  unfold bootNext
  try dsimp only
  repeat' first
    | with_reducible assumption
    | with_reducible refine Keeps.ite ?_ ?_
    | with_reducible refine keeps_updTim ?_
    | with_reducible refine keeps_zeroFill ?_
    | with_reducible refine keeps_updBurn ?_
    | with_reducible refine keeps_chooseStart ?_
    | with_reducible refine keeps_updPwr ?_
    | with_reducible refine keeps_bootImage ?_
    | with_reducible refine keeps_firmwareStart ?_
    | with_reducible refine keeps_reachStandby ?_
    | with_reducible refine keeps_readSlots ?_
    | with_reducible fail_if_no_progress refine Keeps.of ?_ rfl rfl rfl rfl rfl rfl rfl rfl rfl rfl rfl rfl rfl rfl rfl rfl rfl
    | split

theorem keeps_execBootAdvance {s0 : State} {us : Nat} {supplied : Bool} {s : State} (hs : Keeps s0 s) :
    ∃ v0, execBootAdvance us supplied s = .next v0 ∧ Keeps s0 v0 := by
  refine ⟨_, rfl, ?_⟩
  try dsimp only
  repeat' first
    | with_reducible assumption
    | with_reducible refine Keeps.ite ?_ ?_
    | with_reducible refine keeps_bootNext ?_

theorem same_execJtagLoader {s0 : State} {version : Word} {s : State} (hs : Same s0 s) :
    ∃ v0, execJtagLoader version s = .next v0 ∧ Same s0 v0 := by
  refine ⟨_, rfl, ?_⟩
  try dsimp only
  repeat' first
    | with_reducible assumption
    | with_reducible refine Same.ite ?_ ?_
    | with_reducible refine same_updPlate ?_
    | with_reducible refine same_firmwareStart ?_

theorem same_execWarmResetEnd {s0 : State} {us : Nat} {s : State} (hs : Same s0 s) :
    ∃ v0, execWarmResetEnd us s = .next v0 ∧ Same s0 v0 := by
  refine ⟨_, rfl, ?_⟩
  try dsimp only
  repeat' first
    | with_reducible assumption
    | with_reducible refine Same.ite ?_ ?_
    | with_reducible refine same_reachStandby ?_

theorem same_stopContexts {s0 : State} {s : State} (hs : Same s0 s) :
    Same s0 (stopContexts s) := by
  unfold stopContexts
  try dsimp only
  repeat' first
    | with_reducible assumption
    | (constructor <;> first | exact h.drives | exact h.par | exact h.nv | exact h.tbs | exact h.pairs | exact h.rings | exact h.dir | exact h.srcs | exact h.cmps | exact h.emus | exact h.seqs | exact h.slices | exact h.ctxs | exact h.regs | exact h.caps | exact rising_set h.drives _ _ _ | exact rising_set h.par _ _ _ | exact rising_set h.nv _ _ _ | exact rising_set h.tbs _ _ _ | exact rising_set h.pairs _ _ _ | exact rising_set h.rings _ _ _ | exact rising_set h.dir _ _ _ | exact rising_set h.srcs _ _ _ | exact rising_set h.cmps _ _ _ | exact rising_set h.emus _ _ _ | exact rising_set h.seqs _ _ _ | exact rising_set h.slices _ _ _ | exact rising_set h.ctxs _ _ _ | exact rising_set h.regs _ _ _ | exact rising_set h.caps _ _ _ | exact rising_filter h.par _ | exact rising_filter h.nv _ | exact rising_map h.rings (fun _ => rfl) | exact rising_map h.slices (fun _ => rfl) | exact rising_map h.ctxs (fun _ => rfl) | exact rising_map h.seqs (fun _ => rfl) | exact rising_nil)
    | with_reducible refine Same.ite ?_ ?_
    | with_reducible refine same_completeTag ?_
    | with_reducible refine same_writeDests ?_
    | with_reducible refine Same.forEach ?_ (fun _ _ _ => ?_)
    | with_reducible fail_if_no_progress refine Same.of ?_ rfl rfl rfl rfl rfl rfl rfl rfl rfl rfl rfl rfl rfl rfl rfl rfl rfl
    | split
    | with_reducible refine Same.ofTables ?_ rfl rfl (fun h => ?_)

theorem same_enterShutdown {s0 : State} {tag : Nat} {s : State} (hs : Same s0 s) :
    Same s0 (enterShutdown tag s) := by
  unfold enterShutdown
  try dsimp only
  repeat' first
    | with_reducible assumption
    | with_reducible refine Same.ite ?_ ?_
    | with_reducible refine same_setOp ?_
    | with_reducible refine same_periodPair ?_
    | with_reducible refine same_completeTag ?_
    | with_reducible refine same_startRun ?_
    | with_reducible refine same_endSpan ?_
    | with_reducible refine same_stopContexts ?_
    | with_reducible refine Same.forUpTo ?_ (fun _ _ _ => ?_)

theorem same_leaveDone {s0 : State} {s : State} (hs : Same s0 s) :
    Same s0 (leaveDone s) := by
  unfold leaveDone
  try dsimp only
  repeat' first
    | with_reducible assumption
    | with_reducible refine Same.ite ?_ ?_
    | with_reducible refine same_completeTag ?_
    | with_reducible refine same_updMarg ?_
    | with_reducible refine same_updPwr ?_
    | with_reducible refine same_enterShutdown ?_
    | with_reducible fail_if_no_progress refine Same.of ?_ rfl rfl rfl rfl rfl rfl rfl rfl rfl rfl rfl rfl rfl rfl rfl rfl rfl
    | split

theorem same_bodyShutdown {s0 : State} {tag : Nat} {_ws : List Word} {s : State} (hs : Same s0 s) :
    SameR s0 (bodyShutdown tag _ws s) := by
  unfold bodyShutdown
  try dsimp only
  repeat' first
    | with_reducible assumption
    | with_reducible refine Same.ite ?_ ?_
    | with_reducible refine SameR.ite ?_ ?_
    | with_reducible refine SameR.done ?_
    | with_reducible refine SameR.wait ?_
    | with_reducible refine same_checked ?_ ?_
    | with_reducible refine same_joinStart ?_
    | with_reducible refine same_leaveStart ?_
    | with_reducible refine same_updPwr ?_
    | with_reducible refine same_leaveDone ?_

theorem same_bodyReset {s0 : State} {tag : Nat} {ws : List Word} {s : State} (hs : Same s0 s) :
    SameR s0 (bodyReset tag ws s) := by
  unfold bodyReset
  try dsimp only
  repeat' first
    | with_reducible assumption
    | with_reducible refine Same.ite ?_ ?_
    | with_reducible refine SameR.ite ?_ ?_
    | with_reducible refine SameR.done ?_
    | with_reducible refine SameR.wait ?_
    | with_reducible refine same_checked ?_ ?_
    | with_reducible refine same_leaveStart ?_
    | with_reducible refine same_updPwr ?_
    | with_reducible refine same_leaveDone ?_

theorem same_bodySleep {s0 : State} {tag : Nat} {_ws : List Word} {s : State} (hs : Same s0 s) :
    SameR s0 (bodySleep tag _ws s) := by
  unfold bodySleep
  try dsimp only
  repeat' first
    | with_reducible assumption
    | with_reducible refine Same.ite ?_ ?_
    | with_reducible refine SameR.ite ?_ ?_
    | with_reducible refine SameR.done ?_
    | with_reducible refine SameR.wait ?_
    | with_reducible refine same_checked ?_ ?_
    | with_reducible refine same_joinStart ?_
    | with_reducible refine same_updPwr ?_

theorem same_afterJoin {s0 : State} {s : State} (hs : Same s0 s) :
    Same s0 (afterJoin s) := by
  unfold afterJoin
  try dsimp only
  repeat' first
    | with_reducible assumption
    | with_reducible refine Same.ite ?_ ?_
    | with_reducible refine same_completeTag ?_
    | with_reducible refine same_leaveStart ?_
    | with_reducible refine same_updPwr ?_
    | with_reducible refine same_leaveDone ?_
    | with_reducible fail_if_no_progress refine Same.of ?_ rfl rfl rfl rfl rfl rfl rfl rfl rfl rfl rfl rfl rfl rfl rfl rfl rfl
    | split

theorem keeps_afterJoin {s0 : State} {s : State} (hs : Keeps s0 s) :
    Keeps s0 (afterJoin s) := hs.after (same_afterJoin (Same.refl _))

theorem same_sleepBegin {s0 : State} {s : State} (hs : Same s0 s) :
    Same s0 (sleepBegin s) := by
  unfold sleepBegin
  try dsimp only
  repeat' first
    | with_reducible assumption
    | with_reducible refine Same.ite ?_ ?_
    | with_reducible refine same_settlePairs ?_
    | with_reducible refine same_updMarg ?_
    | with_reducible refine same_stopTimebase ?_
    | with_reducible refine same_updPwr ?_
    | with_reducible refine same_endSpan ?_
    | with_reducible refine Same.forUpTo ?_ (fun _ _ _ => ?_)

theorem same_stopDomains {s0 : State} {s : State} (hs : Same s0 s) :
    Same s0 (stopDomains s) := by
  unfold stopDomains
  try dsimp only
  repeat' first
    | with_reducible assumption
    | (constructor <;> first | exact h.drives | exact h.par | exact h.nv | exact h.tbs | exact h.pairs | exact h.rings | exact h.dir | exact h.srcs | exact h.cmps | exact h.emus | exact h.seqs | exact h.slices | exact h.ctxs | exact h.regs | exact h.caps | exact rising_set h.drives _ _ _ | exact rising_set h.par _ _ _ | exact rising_set h.nv _ _ _ | exact rising_set h.tbs _ _ _ | exact rising_set h.pairs _ _ _ | exact rising_set h.rings _ _ _ | exact rising_set h.dir _ _ _ | exact rising_set h.srcs _ _ _ | exact rising_set h.cmps _ _ _ | exact rising_set h.emus _ _ _ | exact rising_set h.seqs _ _ _ | exact rising_set h.slices _ _ _ | exact rising_set h.ctxs _ _ _ | exact rising_set h.regs _ _ _ | exact rising_set h.caps _ _ _ | exact rising_filter h.par _ | exact rising_filter h.nv _ | exact rising_map h.rings (fun _ => rfl) | exact rising_map h.slices (fun _ => rfl) | exact rising_map h.ctxs (fun _ => rfl) | exact rising_map h.seqs (fun _ => rfl) | exact rising_nil)
    | with_reducible refine Same.ite ?_ ?_
    | with_reducible fail_if_no_progress refine Same.of ?_ rfl rfl rfl rfl rfl rfl rfl rfl rfl rfl rfl rfl rfl rfl rfl rfl rfl
    | split
    | with_reducible refine Same.ofTables ?_ rfl rfl (fun h => ?_)

theorem same_sleepStop {s0 : State} {s : State} (hs : Same s0 s) :
    Same s0 (sleepStop s) := by
  unfold sleepStop
  try dsimp only
  repeat' first
    | with_reducible assumption
    | with_reducible refine Same.ite ?_ ?_
    | with_reducible refine same_updCap ?_
    | with_reducible refine same_settlePairs ?_
    | with_reducible refine same_updPlate ?_
    | with_reducible refine same_updMarg ?_
    | with_reducible refine same_wcOff ?_
    | with_reducible refine same_linkDrop ?_
    | with_reducible refine same_updPwr ?_
    | with_reducible refine same_stopDomains ?_
    | with_reducible refine Same.forUpTo ?_ (fun _ _ _ => ?_)

theorem same_execSleepEntry {s0 : State} {s : State} (hs : Same s0 s) :
    ∃ v0, execSleepEntry s = .next v0 ∧ Same s0 v0 := by
  refine ⟨_, rfl, ?_⟩
  try dsimp only
  repeat' first
    | with_reducible assumption
    | with_reducible refine Same.ite ?_ ?_
    | with_reducible refine same_joinStart ?_
    | with_reducible refine same_leaveStart ?_
    | with_reducible refine same_sleepBegin ?_
    | with_reducible refine same_sleepStop ?_

theorem same_wake {s0 : State} {n : Nat} {td0 : Nat} {s : State} (hs : Same s0 s) :
    Same s0 (wake n td0 s) := by
  unfold wake
  try dsimp only
  repeat' first
    | with_reducible assumption
    | with_reducible refine Same.ite ?_ ?_
    | with_reducible refine same_updTim ?_
    | with_reducible refine same_updPwr ?_

theorem same_execWakeCondition {s0 : State} {src : Nat} {td0 : Nat} {s : State} (hs : Same s0 s) :
    ∃ v0, execWakeCondition src td0 s = .next v0 ∧ Same s0 v0 := by
  refine ⟨_, rfl, ?_⟩
  try dsimp only
  repeat' first
    | with_reducible assumption
    | with_reducible refine Same.ite ?_ ?_
    | with_reducible refine same_wake ?_

theorem same_execSleepTimerExpiry {s0 : State} {td0 : Nat} {s : State} (hs : Same s0 s) :
    ∃ v0, execSleepTimerExpiry td0 s = .next v0 ∧ Same s0 v0 := by
  refine ⟨_, rfl, ?_⟩
  try dsimp only
  repeat' first
    | with_reducible assumption
    | with_reducible refine Same.ite ?_ ?_
    | with_reducible refine same_wake ?_

theorem same_writeHeld {s0 : State} {s : State} (hs : Same s0 s) :
    Same s0 (writeHeld s) := by
  unfold writeHeld
  try dsimp only
  repeat' first
    | with_reducible assumption
    | with_reducible refine Same.ite ?_ ?_
    | with_reducible refine same_recordEvent ?_
    | with_reducible refine same_applyReaction ?_
    | with_reducible refine same_updTherm ?_
    | with_reducible refine Same.forEach ?_ (fun _ _ _ => ?_)

theorem same_wakeUnits {s0 : State} {s : State} (hs : Same s0 s) :
    Same s0 (wakeUnits s) := by
  unfold wakeUnits
  try dsimp only
  repeat' first
    | with_reducible assumption
    | (constructor <;> first | exact h.drives | exact h.par | exact h.nv | exact h.tbs | exact h.pairs | exact h.rings | exact h.dir | exact h.srcs | exact h.cmps | exact h.emus | exact h.seqs | exact h.slices | exact h.ctxs | exact h.regs | exact h.caps | exact rising_set h.drives _ _ _ | exact rising_set h.par _ _ _ | exact rising_set h.nv _ _ _ | exact rising_set h.tbs _ _ _ | exact rising_set h.pairs _ _ _ | exact rising_set h.rings _ _ _ | exact rising_set h.dir _ _ _ | exact rising_set h.srcs _ _ _ | exact rising_set h.cmps _ _ _ | exact rising_set h.emus _ _ _ | exact rising_set h.seqs _ _ _ | exact rising_set h.slices _ _ _ | exact rising_set h.ctxs _ _ _ | exact rising_set h.regs _ _ _ | exact rising_set h.caps _ _ _ | exact rising_filter h.par _ | exact rising_filter h.nv _ | exact rising_map h.rings (fun _ => rfl) | exact rising_map h.slices (fun _ => rfl) | exact rising_map h.ctxs (fun _ => rfl) | exact rising_map h.seqs (fun _ => rfl) | exact rising_nil)
    | with_reducible refine Same.ite ?_ ?_
    | with_reducible refine same_updConv ?_ (fun _ h k => ⟨h, k⟩)
    | with_reducible refine same_beginStep ?_
    | with_reducible fail_if_no_progress refine Same.of ?_ rfl rfl rfl rfl rfl rfl rfl rfl rfl rfl rfl rfl rfl rfl rfl rfl rfl
    | split
    | with_reducible refine Same.ofTables ?_ rfl rfl (fun h => ?_)

theorem same_execWakeDone {s0 : State} {td0 : Nat} {s : State} (hs : Same s0 s) :
    ∃ v0, execWakeDone td0 s = .next v0 ∧ Same s0 v0 := by
  refine ⟨_, rfl, ?_⟩
  try dsimp only
  repeat' first
    | with_reducible assumption
    | with_reducible refine Same.ite ?_ ?_
    | with_reducible refine same_setAttn ?_
    | with_reducible refine same_record ?_
    | with_reducible refine same_settlePairs ?_
    | with_reducible refine same_updPlate ?_
    | with_reducible refine same_restartSource ?_
    | with_reducible refine same_gapsFrom ?_
    | with_reducible refine same_updPwr ?_
    | with_reducible refine same_writeHeld ?_
    | with_reducible refine same_wakeUnits ?_
    | with_reducible refine Same.forUpTo ?_ (fun _ _ _ => ?_)
    | with_reducible fail_if_no_progress refine Same.of ?_ rfl rfl rfl rfl rfl rfl rfl rfl rfl rfl rfl rfl rfl rfl rfl rfl rfl

theorem keeps_execSupplyMonitorFault {s0 : State} {ch : Nat} {above : Bool} {s : State} (hs : Keeps s0 s) :
    ∃ v0, execSupplyMonitorFault ch above s = .next v0 ∧ Keeps s0 v0 := by
  refine ⟨_, rfl, ?_⟩
  try dsimp only
  repeat' first
    | with_reducible assumption
    | with_reducible refine Keeps.ite ?_ ?_
    | with_reducible refine keeps_supplyFault ?_
    | with_reducible refine keeps_updPwr ?_

theorem same_write0F {s0 : State} {s : State} {i : Nat} {v : Word} (hs : Same s0 s) :
    Same s0 (write0F s i v) := by
  unfold write0F
  try dsimp only
  repeat' first
    | with_reducible assumption
    | with_reducible refine Same.ite ?_ ?_
    | with_reducible refine same_parSet ?_
    | with_reducible refine same_nvSet ?_
    | with_reducible refine same_updPwr ?_

theorem keeps_write0F {s0 : State} {s : State} {i : Nat} {v : Word} (hs : Keeps s0 s) :
    Keeps s0 (write0F s i v) := hs.after (same_write0F (Same.refl _))

end Sys2Proof.Laws
end

