-- ==== Sys2Proof/Laws/KeepLink.lean ====
section
/-!
SUPPORT. What Margin, the Folio port and the parameter rows keep (Laws/Frame.lean): one lemma for each operation and each meaning.
-/
namespace Sys2Proof.Laws
open Sys2Proof.Machine Sys2Proof.Safety

/-! Margin. -/

theorem same_execMarginLaneDeskew {s0 : State} {s : State} (hs : Same s0 s) :
    ∃ v0, execMarginLaneDeskew s = .next v0 ∧ Same s0 v0 := by
  refine ⟨_, rfl, ?_⟩
  try dsimp only
  repeat' first
    | with_reducible assumption
    | with_reducible refine Same.ite ?_ ?_
    | with_reducible refine same_updMarg ?_

theorem same_putCell {s0 : State} {c : Cell} {s : State} (hs : Same s0 s) :
    Same s0 (putCell c s) := by
  unfold putCell
  try dsimp only
  repeat' first
    | with_reducible assumption
    | with_reducible refine Same.ite ?_ ?_
    | with_reducible refine same_updMarg ?_

theorem same_execLinkCellDue {s0 : State} {s : State} (hs : Same s0 s) :
    ∃ v0, execLinkCellDue s = .next v0 ∧ Same s0 v0 := by
  refine ⟨_, rfl, ?_⟩
  try dsimp only
  repeat' first
    | with_reducible assumption
    | with_reducible refine Same.ite ?_ ?_
    | with_reducible refine same_updMarg ?_
    | with_reducible refine same_putCell ?_

theorem same_execLinkCellReceived {s0 : State} {sideB : Bool} {pres : Word} {s : State} (hs : Same s0 s) :
    ∃ v0, execLinkCellReceived sideB pres s = .next v0 ∧ Same s0 v0 := by
  refine ⟨_, rfl, ?_⟩
  try dsimp only
  repeat' first
    | with_reducible assumption
    | with_reducible refine Same.ite ?_ ?_
    | with_reducible refine same_updMarg ?_

theorem same_execMarginLinkUp {s0 : State} {sideB : Bool} {pres : Word} {s : State} (hs : Same s0 s) :
    ∃ v0, execMarginLinkUp sideB pres s = .next v0 ∧ Same s0 v0 := by
  refine ⟨_, rfl, ?_⟩
  try dsimp only
  repeat' first
    | with_reducible assumption
    | with_reducible refine Same.ite ?_ ?_
    | with_reducible refine same_parSet ?_
    | with_reducible refine same_raise ?_
    | with_reducible refine same_updMarg ?_
    | with_reducible refine same_updTim ?_

theorem same_execMarginLinkLoss {s0 : State} {cause : Nat} {s : State} (hs : Same s0 s) :
    ∃ v0, execMarginLinkLoss cause s = .next v0 ∧ Same s0 v0 := by
  refine ⟨_, rfl, ?_⟩
  try dsimp only
  repeat' first
    | with_reducible assumption
    | with_reducible refine Same.ite ?_ ?_
    | with_reducible refine same_updMarg ?_
    | with_reducible refine same_updTim ?_
    | with_reducible refine same_linkDown ?_

theorem same_mirrorCell {s0 : State} {s : State} {pos : Nat} (hs : Same s0 s) :
    Same s0 (mirrorCell s pos).2 := by
  unfold mirrorCell
  try dsimp only
  repeat' first
    | with_reducible assumption
    | with_reducible refine Same.ite ?_ ?_
    | with_reducible refine same_readCells ?_
    | with_reducible fail_if_no_progress refine Same.of ?_ rfl rfl rfl rfl rfl rfl rfl rfl rfl rfl rfl rfl rfl rfl rfl rfl rfl
    | split

theorem same_mirrorStep {s0 : State} {s : State} (hs : Same s0 s) :
    Same s0 (mirrorStep s) := by
  unfold mirrorStep
  try dsimp only
  repeat' first
    | with_reducible assumption
    | with_reducible refine Same.ite ?_ ?_
    | with_reducible refine same_parSet ?_
    | with_reducible refine same_updMarg ?_

theorem same_launchCell {s0 : State} {c : Cell} {s : State} (hs : Same s0 s) :
    Same s0 (launchCell c s) := by
  unfold launchCell
  try dsimp only
  repeat' first
    | with_reducible assumption
    | with_reducible refine Same.ite ?_ ?_
    | with_reducible refine same_updMarg ?_
    | with_reducible refine same_putCell ?_

theorem same_resendCell {s0 : State} {s : State} (hs : Same s0 s) :
    Same s0 (resendCell s) := by
  unfold resendCell
  try dsimp only
  repeat' first
    | with_reducible assumption
    | with_reducible refine Same.ite ?_ ?_
    | with_reducible refine same_parCount ?_
    | with_reducible refine same_updMarg ?_
    | with_reducible refine same_putCell ?_
    | with_reducible fail_if_no_progress refine Same.of ?_ rfl rfl rfl rfl rfl rfl rfl rfl rfl rfl rfl rfl rfl rfl rfl rfl rfl
    | split

theorem same_execCellSend {s0 : State} {s : State} (hs : Same s0 s) :
    ∃ v0, execCellSend s = .next v0 ∧ Same s0 v0 := by
  refine ⟨_, rfl, ?_⟩
  try dsimp only
  repeat' first
    | with_reducible assumption
    | with_reducible refine Same.ite ?_ ?_
    | with_reducible refine same_updMarg ?_
    | with_reducible refine same_mirrorCell ?_
    | with_reducible refine same_mirrorStep ?_
    | with_reducible refine same_launchCell ?_
    | with_reducible refine same_resendCell ?_
    | with_reducible fail_if_no_progress refine Same.of ?_ rfl rfl rfl rfl rfl rfl rfl rfl rfl rfl rfl rfl rfl rfl rfl rfl rfl
    | split

theorem same_execCellRetransmit {s0 : State} {s : State} (hs : Same s0 s) :
    ∃ v0, execCellRetransmit s = .next v0 ∧ Same s0 v0 := by
  refine ⟨_, rfl, ?_⟩
  try dsimp only
  repeat' first
    | with_reducible assumption
    | with_reducible refine Same.ite ?_ ?_
    | with_reducible refine same_updMarg ?_

theorem same_execAckDue {s0 : State} {s : State} (hs : Same s0 s) :
    ∃ v0, execAckDue s = .next v0 ∧ Same s0 v0 := by
  refine ⟨_, rfl, ?_⟩
  try dsimp only
  repeat' first
    | with_reducible assumption
    | with_reducible refine Same.ite ?_ ?_
    | with_reducible refine same_queueCell ?_
    | with_reducible refine same_updMarg ?_

theorem same_cellAcked {s0 : State} {c : Cell} {s : State} (hs : Same s0 s) :
    Same s0 (cellAcked c s) := by
  unfold cellAcked
  try dsimp only
  repeat' first
    | with_reducible assumption
    | with_reducible refine Same.ite ?_ ?_
    | with_reducible refine same_updMarg ?_

theorem same_takeAck {s0 : State} {a : Nat} {s : State} (hs : Same s0 s) :
    Same s0 (takeAck a s) := by
  unfold takeAck
  try dsimp only
  repeat' first
    | with_reducible assumption
    | with_reducible refine Same.ite ?_ ?_
    | with_reducible refine same_updMarg ?_
    | with_reducible refine same_leaveDone ?_
    | with_reducible refine same_cellAcked ?_
    | with_reducible refine Same.forEach ?_ (fun _ _ _ => ?_)

theorem keeps_takeAck {s0 : State} {a : Nat} {s : State} (hs : Keeps s0 s) :
    Keeps s0 (takeAck a s) := hs.after (same_takeAck (Same.refl _))

theorem same_noteCell {s0 : State} {s : State} (hs : Same s0 s) :
    Same s0 (noteCell s) := by
  unfold noteCell
  try dsimp only
  repeat' first
    | with_reducible assumption
    | with_reducible refine Same.ite ?_ ?_
    | with_reducible refine same_updMarg ?_

theorem keeps_noteCell {s0 : State} {s : State} (hs : Keeps s0 s) :
    Keeps s0 (noteCell s) := hs.after (same_noteCell (Same.refl _))

theorem same_takeCell {s0 : State} {seq : Nat} {ack : Nat} {k : State → State} {s : State} (hs : Same s0 s) (hk : ∀ v, Same s0 v → Same s0 (k v)) :
    Same s0 (takeCell seq ack k s) := by
  unfold takeCell
  try dsimp only
  repeat' first
    | with_reducible assumption
    | with_reducible refine Same.ite ?_ ?_
    | with_reducible refine SameR.ite ?_ ?_
    | with_reducible refine SameR.done ?_
    | with_reducible refine SameR.wait ?_
    | with_reducible refine same_updMarg ?_
    | with_reducible refine same_takeAck ?_
    | with_reducible refine same_noteCell ?_
    | with_reducible fail_if_no_progress refine Same.of ?_ rfl rfl rfl rfl rfl rfl rfl rfl rfl rfl rfl rfl rfl rfl rfl rfl rfl
    | refine hk _ ?_

theorem keeps_takeCell {s0 : State} {seq : Nat} {ack : Nat} {k : State → State} {s : State} (hs : Keeps s0 s) (hk : ∀ v, Keeps s0 v → Keeps s0 (k v)) :
    Keeps s0 (takeCell seq ack k s) := by
  unfold takeCell
  try dsimp only
  repeat' first
    | with_reducible assumption
    | with_reducible refine Keeps.ite ?_ ?_
    | with_reducible refine KeepsR.ite ?_ ?_
    | with_reducible refine KeepsR.done ?_
    | with_reducible refine KeepsR.wait ?_
    | with_reducible refine keeps_updMarg ?_
    | with_reducible refine keeps_takeAck ?_
    | with_reducible refine keeps_noteCell ?_
    | with_reducible fail_if_no_progress refine Keeps.of ?_ rfl rfl rfl rfl rfl rfl rfl rfl rfl rfl rfl rfl rfl rfl rfl rfl rfl
    | refine hk _ ?_

theorem same_execAckReceived {s0 : State} {ack : Nat} {s : State} (hs : Same s0 s) :
    ∃ v0, execAckReceived ack s = .next v0 ∧ Same s0 v0 := by
  refine ⟨_, rfl, ?_⟩
  try dsimp only
  repeat' first
    | with_reducible assumption
    | with_reducible refine Same.ite ?_ ?_
    | with_reducible refine same_takeAck ?_
    | with_reducible refine same_noteCell ?_

theorem same_execBadCellReceived {s0 : State} {crcFail : Bool} {s : State} (hs : Same s0 s) :
    ∃ v0, execBadCellReceived crcFail s = .next v0 ∧ Same s0 v0 := by
  refine ⟨_, rfl, ?_⟩
  try dsimp only
  repeat' first
    | with_reducible assumption
    | with_reducible refine Same.ite ?_ ?_
    | with_reducible refine same_parCount ?_
    | with_reducible refine same_updMarg ?_
    | with_reducible refine same_noteCell ?_

theorem same_alignLost {s0 : State} {s : State} (hs : Same s0 s) :
    Same s0 (alignLost s) := by
  unfold alignLost
  try dsimp only
  repeat' first
    | with_reducible assumption
    | with_reducible refine Same.ite ?_ ?_
    | with_reducible refine same_raise ?_
    | with_reducible refine same_farServiceEnd ?_
    | with_reducible refine same_updTim ?_
    | with_reducible refine Same.forUpTo ?_ (fun _ _ _ => ?_)

theorem same_alignMiss {s0 : State} {s : State} (hs : Same s0 s) :
    Same s0 (alignMiss s) := by
  unfold alignMiss
  try dsimp only
  repeat' first
    | with_reducible assumption
    | with_reducible refine Same.ite ?_ ?_
    | with_reducible refine same_updTim ?_
    | with_reducible refine same_alignLost ?_

theorem same_alignStep {s0 : State} {err16 : Int} {s : State} (hs : Same s0 s) :
    Same s0 (alignStep err16 s) := by
  unfold alignStep
  try dsimp only
  repeat' first
    | with_reducible assumption
    | with_reducible refine Same.ite ?_ ?_
    | with_reducible refine same_parOr ?_
    | with_reducible refine same_record ?_
    | with_reducible refine same_updTim ?_
    | with_reducible fail_if_no_progress refine Same.of ?_ rfl rfl rfl rfl rfl rfl rfl rfl rfl rfl rfl rfl rfl rfl rfl rfl rfl

theorem same_alignExchange {s0 : State} {err16 : Int} {s : State} (hs : Same s0 s) :
    Same s0 (alignExchange err16 s) := by
  unfold alignExchange
  try dsimp only
  repeat' first
    | with_reducible assumption
    | with_reducible refine Same.ite ?_ ?_
    | with_reducible refine same_parSet ?_
    | with_reducible refine same_updTim ?_
    | with_reducible refine same_alignMiss ?_
    | with_reducible refine same_alignStep ?_
    | with_reducible fail_if_no_progress refine Same.of ?_ rfl rfl rfl rfl rfl rfl rfl rfl rfl rfl rfl rfl rfl rfl rfl rfl rfl

theorem same_execHeartbeatDue {s0 : State} {s : State} (hs : Same s0 s) :
    ∃ v0, execHeartbeatDue s = .next v0 ∧ Same s0 v0 := by
  refine ⟨_, rfl, ?_⟩
  try dsimp only
  repeat' first
    | with_reducible assumption
    | with_reducible refine Same.ite ?_ ?_
    | with_reducible refine same_parCount ?_
    | with_reducible refine same_queueCell ?_
    | with_reducible refine same_updMarg ?_
    | with_reducible refine same_alignMiss ?_

theorem same_becomeSingle {s0 : State} {s : State} (hs : Same s0 s) :
    Same s0 (becomeSingle s) := by
  unfold becomeSingle
  try dsimp only
  repeat' first
    | with_reducible assumption
    | with_reducible refine Same.ite ?_ ?_
    | with_reducible refine same_record ?_
    | with_reducible refine same_takeRole ?_

theorem same_takeHeartbeat {s0 : State} {h : Heartbeat} {s : State} (hs : Same s0 s) :
    Same s0 (takeHeartbeat h s) := by
  unfold takeHeartbeat
  try dsimp only
  repeat' first
    | with_reducible assumption
    | with_reducible refine Same.ite ?_ ?_
    | with_reducible refine same_updMarg ?_
    | with_reducible refine same_farServiceEnd ?_
    | with_reducible refine same_updTim ?_
    | with_reducible refine same_alignExchange ?_
    | with_reducible refine same_becomeSingle ?_
    | with_reducible refine Same.forUpTo ?_ (fun _ _ _ => ?_)

theorem same_execHeartbeatReceived {s0 : State} {ack : Nat} {h : Heartbeat} {s : State} (hs : Same s0 s) :
    ∃ v0, execHeartbeatReceived ack h s = .next v0 ∧ Same s0 v0 := by
  refine ⟨_, rfl, ?_⟩
  try dsimp only
  repeat' first
    | with_reducible assumption
    | with_reducible refine Same.ite ?_ ?_
    | with_reducible refine same_takeAck ?_
    | with_reducible refine same_noteCell ?_
    | with_reducible refine same_takeHeartbeat ?_

theorem same_execHeartbeatTimeout {s0 : State} {s : State} (hs : Same s0 s) :
    ∃ v0, execHeartbeatTimeout s = .next v0 ∧ Same s0 v0 := by
  refine ⟨_, rfl, ?_⟩
  try dsimp only
  repeat' first
    | with_reducible assumption
    | with_reducible refine Same.ite ?_ ?_
    | with_reducible refine same_raise ?_
    | with_reducible refine same_updMarg ?_
    | with_reducible refine same_alignLost ?_

theorem same_execHeartbeatTakeover {s0 : State} {s : State} (hs : Same s0 s) :
    ∃ v0, execHeartbeatTakeover s = .next v0 ∧ Same s0 v0 := by
  refine ⟨_, rfl, ?_⟩
  try dsimp only
  repeat' first
    | with_reducible assumption
    | with_reducible refine Same.ite ?_ ?_
    | with_reducible refine same_takeOver ?_

theorem same_execStatusDue {s0 : State} {s : State} (hs : Same s0 s) :
    ∃ v0, execStatusDue s = .next v0 ∧ Same s0 v0 := by
  refine ⟨_, rfl, ?_⟩
  try dsimp only
  repeat' first
    | with_reducible assumption
    | with_reducible refine Same.ite ?_ ?_
    | with_reducible refine same_queueCell ?_
    | with_reducible refine same_updMarg ?_

theorem same_execStatusReceived {s0 : State} {seq : Nat} {ack : Nat} {pres : Word} {cfgs : List Word} {pers : List Word} {s : State} (hs : Same s0 s) :
    ∃ v0, execStatusReceived seq ack pres cfgs pers s = .next v0 ∧ Same s0 v0 := by
  refine ⟨_, rfl, ?_⟩
  try dsimp only
  repeat' first
    | with_reducible assumption
    | with_reducible refine Same.ite ?_ ?_
    | with_reducible refine SameR.ite ?_ ?_
    | with_reducible refine SameR.done ?_
    | with_reducible refine SameR.wait ?_
    | with_reducible refine same_updMarg ?_
    | with_reducible refine same_takeCell ?_ (fun _ _ => ?_)

theorem same_execTbPhaseReceived {s0 : State} {seq : Nat} {ack : Nat} {ticks : List Nat} {s : State} (hs : Same s0 s) :
    ∃ v0, execTbPhaseReceived seq ack ticks s = .next v0 ∧ Same s0 v0 := by
  refine ⟨_, rfl, ?_⟩
  try dsimp only
  repeat' first
    | with_reducible assumption
    | with_reducible refine Same.ite ?_ ?_
    | with_reducible refine SameR.ite ?_ ?_
    | with_reducible refine SameR.done ?_
    | with_reducible refine SameR.wait ?_
    | with_reducible refine same_updTb ?_
    | with_reducible refine same_takeCell ?_ (fun _ _ => ?_)
    | with_reducible refine Same.forUpTo ?_ (fun _ _ _ => ?_)

theorem same_mirrorEntry {s0 : State} {d : Nat} {marks : Nat} {ws : List Word} {s : State} (hs : Same s0 s) :
    Same s0 (mirrorEntry d marks ws s) := by
  unfold mirrorEntry
  try dsimp only
  repeat' first
    | with_reducible assumption
    | with_reducible refine Same.ite ?_ ?_
    | with_reducible refine same_updEntry ?_
    | with_reducible refine same_setMark ?_
    | with_reducible refine Same.forEach ?_ (fun _ _ _ => ?_)

theorem same_execMirrorReceived {s0 : State} {seq : Nat} {ack : Nat} {sub : Nat} {ws : List Word} {marks : Nat} {s : State} (hs : Same s0 s) :
    ∃ v0, execMirrorReceived seq ack sub ws marks s = .next v0 ∧ Same s0 v0 := by
  refine ⟨_, rfl, ?_⟩
  try dsimp only
  repeat' first
    | with_reducible assumption
    | with_reducible refine Same.ite ?_ ?_
    | with_reducible refine SameR.ite ?_ ?_
    | with_reducible refine SameR.done ?_
    | with_reducible refine SameR.wait ?_
    | with_reducible refine same_parSet ?_
    | with_reducible refine same_updMarg ?_
    | with_reducible refine same_takeCell ?_ (fun _ _ => ?_)
    | with_reducible refine same_mirrorEntry ?_

theorem same_execRingFrameReceived {s0 : State} {seq : Nat} {ack : Nat} {r : Nat} {frag : Nat} {ws : List Word} {s : State} (hs : Same s0 s) :
    ∃ v0, execRingFrameReceived seq ack r frag ws s = .next v0 ∧ Same s0 v0 := by
  refine ⟨_, rfl, ?_⟩
  try dsimp only
  repeat' first
    | with_reducible assumption
    | with_reducible refine Same.ite ?_ ?_
    | with_reducible refine SameR.ite ?_ ?_
    | with_reducible refine SameR.done ?_
    | with_reducible refine SameR.wait ?_
    | with_reducible refine same_updRing ?_
    | with_reducible refine same_farServe ?_
    | with_reducible refine same_takeFarReturn ?_
    | with_reducible refine same_takeCell ?_ (fun _ _ => ?_)
    | with_reducible fail_if_no_progress refine Same.of ?_ rfl rfl rfl rfl rfl rfl rfl rfl rfl rfl rfl rfl rfl rfl rfl rfl rfl
    | split

theorem same_execMailboxReceived {s0 : State} {seq : Nat} {ack : Nat} {n : Nat} {msg : List Word} {s : State} (hs : Same s0 s) :
    ∃ v0, execMailboxReceived seq ack n msg s = .next v0 ∧ Same s0 v0 := by
  refine ⟨_, rfl, ?_⟩
  try dsimp only
  repeat' first
    | with_reducible assumption
    | with_reducible refine Same.ite ?_ ?_
    | with_reducible refine SameR.ite ?_ ?_
    | with_reducible refine SameR.done ?_
    | with_reducible refine SameR.wait ?_
    | with_reducible refine same_record ?_
    | with_reducible refine same_updMarg ?_
    | with_reducible refine same_takeCell ?_ (fun _ _ => ?_)

theorem same_execMbxFreeReceived {s0 : State} {seq : Nat} {ack : Nat} {n : Nat} {s : State} (hs : Same s0 s) :
    ∃ v0, execMbxFreeReceived seq ack n s = .next v0 ∧ Same s0 v0 := by
  refine ⟨_, rfl, ?_⟩
  try dsimp only
  repeat' first
    | with_reducible assumption
    | with_reducible refine Same.ite ?_ ?_
    | with_reducible refine SameR.ite ?_ ?_
    | with_reducible refine SameR.done ?_
    | with_reducible refine SameR.wait ?_
    | with_reducible refine same_updMarg ?_
    | with_reducible refine same_takeCell ?_ (fun _ _ => ?_)

theorem same_execDoorbellReceived {s0 : State} {seq : Nat} {ack : Nat} {bits : Word} {s : State} (hs : Same s0 s) :
    ∃ v0, execDoorbellReceived seq ack bits s = .next v0 ∧ Same s0 v0 := by
  refine ⟨_, rfl, ?_⟩
  try dsimp only
  repeat' first
    | with_reducible assumption
    | with_reducible refine Same.ite ?_ ?_
    | with_reducible refine SameR.ite ?_ ?_
    | with_reducible refine SameR.done ?_
    | with_reducible refine SameR.wait ?_
    | with_reducible refine same_record ?_
    | with_reducible refine same_updMarg ?_
    | with_reducible refine same_takeCell ?_ (fun _ _ => ?_)

theorem same_execLockReceived {s0 : State} {seq : Nat} {ack : Nat} {lock : Nat} {acquire : Bool} {host : Bool} {tag : Nat} {s : State} (hs : Same s0 s) :
    ∃ v0, execLockReceived seq ack lock acquire host tag s = .next v0 ∧ Same s0 v0 := by
  refine ⟨_, rfl, ?_⟩
  try dsimp only
  repeat' first
    | with_reducible assumption
    | with_reducible refine Same.ite ?_ ?_
    | with_reducible refine SameR.ite ?_ ?_
    | with_reducible refine SameR.done ?_
    | with_reducible refine SameR.wait ?_
    | with_reducible refine same_queueCell ?_
    | with_reducible refine same_lockServe ?_
    | with_reducible refine same_takeCell ?_ (fun _ _ => ?_)

theorem same_execLockReplyReceived {s0 : State} {seq : Nat} {ack : Nat} {lock : Nat} {owner : Nat} {tag : Nat} {s : State} (hs : Same s0 s) :
    ∃ v0, execLockReplyReceived seq ack lock owner tag s = .next v0 ∧ Same s0 v0 := by
  refine ⟨_, rfl, ?_⟩
  try dsimp only
  repeat' first
    | with_reducible assumption
    | with_reducible refine Same.ite ?_ ?_
    | with_reducible refine SameR.ite ?_ ?_
    | with_reducible refine SameR.done ?_
    | with_reducible refine SameR.wait ?_
    | with_reducible refine same_completeTag ?_
    | with_reducible refine same_updMarg ?_
    | with_reducible refine same_takeCell ?_ (fun _ _ => ?_)
    | with_reducible fail_if_no_progress refine Same.of ?_ rfl rfl rfl rfl rfl rfl rfl rfl rfl rfl rfl rfl rfl rfl rfl rfl rfl
    | split

theorem same_setHd {s0 : State} {th : Nat} {ds : List Nat} {s : State} (hs : Same s0 s) :
    Same s0 (setHd th ds s) := by
  unfold setHd
  try dsimp only
  repeat' first
    | with_reducible assumption
    | with_reducible refine Same.ite ?_ ?_
    | with_reducible refine same_updDrive ?_
    | with_reducible refine Same.forEach ?_ (fun _ _ _ => ?_)

theorem same_execHandoverOfferReceived {s0 : State} {seq : Nat} {ack : Nat} {th : Nat} {s : State} (hs : Same s0 s) :
    ∃ v0, execHandoverOfferReceived seq ack th s = .next v0 ∧ Same s0 v0 := by
  refine ⟨_, rfl, ?_⟩
  try dsimp only
  repeat' first
    | with_reducible assumption
    | with_reducible refine Same.ite ?_ ?_
    | with_reducible refine SameR.ite ?_ ?_
    | with_reducible refine SameR.done ?_
    | with_reducible refine SameR.wait ?_
    | with_reducible refine same_queueCell ?_
    | with_reducible refine same_updMarg ?_
    | with_reducible refine same_takeCell ?_ (fun _ _ => ?_)
    | with_reducible refine same_setHd ?_

theorem same_execHandoverAcceptReceived {s0 : State} {seq : Nat} {ack : Nat} {s : State} (hs : Same s0 s) :
    ∃ v0, execHandoverAcceptReceived seq ack s = .next v0 ∧ Same s0 v0 := by
  refine ⟨_, rfl, ?_⟩
  try dsimp only
  repeat' first
    | with_reducible assumption
    | with_reducible refine Same.ite ?_ ?_
    | with_reducible refine SameR.ite ?_ ?_
    | with_reducible refine SameR.done ?_
    | with_reducible refine SameR.wait ?_
    | with_reducible refine same_updMarg ?_
    | with_reducible refine same_takeCell ?_ (fun _ _ => ?_)
    | with_reducible refine same_setHd ?_

theorem same_execHandoverDeclineReceived {s0 : State} {seq : Nat} {ack : Nat} {s : State} (hs : Same s0 s) :
    ∃ v0, execHandoverDeclineReceived seq ack s = .next v0 ∧ Same s0 v0 := by
  refine ⟨_, rfl, ?_⟩
  try dsimp only
  repeat' first
    | with_reducible assumption
    | with_reducible refine Same.ite ?_ ?_
    | with_reducible refine SameR.ite ?_ ?_
    | with_reducible refine SameR.done ?_
    | with_reducible refine SameR.wait ?_
    | with_reducible refine same_updMarg ?_
    | with_reducible refine same_hoComplete ?_
    | with_reducible refine same_takeCell ?_ (fun _ _ => ?_)

theorem same_execHandoverAcceptTimeout {s0 : State} {s : State} (hs : Same s0 s) :
    ∃ v0, execHandoverAcceptTimeout s = .next v0 ∧ Same s0 v0 := by
  refine ⟨_, rfl, ?_⟩
  try dsimp only
  repeat' first
    | with_reducible assumption
    | with_reducible refine Same.ite ?_ ?_
    | with_reducible refine same_updMarg ?_
    | with_reducible refine same_hoComplete ?_

theorem same_execHandoverInstant {s0 : State} {s : State} (hs : Same s0 s) :
    ∃ v0, execHandoverInstant s = .next v0 ∧ Same s0 v0 := by
  refine ⟨_, rfl, ?_⟩
  try dsimp only
  repeat' first
    | with_reducible assumption
    | with_reducible refine Same.ite ?_ ?_
    | with_reducible refine same_settlePairs ?_
    | with_reducible refine same_hoInstant ?_
    | with_reducible refine same_handDrive ?_
    | with_reducible refine Same.forUpTo ?_ (fun _ _ _ => ?_)

theorem same_execHandoverTakeReceived {s0 : State} {seq : Nat} {ack : Nat} {_th : Nat} {s : State} (hs : Same s0 s) :
    ∃ v0, execHandoverTakeReceived seq ack _th s = .next v0 ∧ Same s0 v0 := by
  refine ⟨_, rfl, ?_⟩
  try dsimp only
  repeat' first
    | with_reducible assumption
    | with_reducible refine Same.ite ?_ ?_
    | with_reducible refine SameR.ite ?_ ?_
    | with_reducible refine SameR.done ?_
    | with_reducible refine SameR.wait ?_
    | with_reducible refine same_takeOver ?_
    | with_reducible refine same_takeCell ?_ (fun _ _ => ?_)

theorem same_execHandoverTakenReceived {s0 : State} {seq : Nat} {ack : Nat} {s : State} (hs : Same s0 s) :
    ∃ v0, execHandoverTakenReceived seq ack s = .next v0 ∧ Same s0 v0 := by
  refine ⟨_, rfl, ?_⟩
  try dsimp only
  repeat' first
    | with_reducible assumption
    | with_reducible refine Same.ite ?_ ?_
    | with_reducible refine SameR.ite ?_ ?_
    | with_reducible refine SameR.done ?_
    | with_reducible refine SameR.wait ?_
    | with_reducible refine same_ringsFresh ?_
    | with_reducible refine same_becomeStandby ?_
    | with_reducible refine same_hoComplete ?_
    | with_reducible refine same_takeCell ?_ (fun _ _ => ?_)

theorem same_execHandoverLeaveReceived {s0 : State} {seq : Nat} {ack : Nat} {s : State} (hs : Same s0 s) :
    ∃ v0, execHandoverLeaveReceived seq ack s = .next v0 ∧ Same s0 v0 := by
  refine ⟨_, rfl, ?_⟩
  try dsimp only
  repeat' first
    | with_reducible assumption
    | with_reducible refine Same.ite ?_ ?_
    | with_reducible refine SameR.ite ?_ ?_
    | with_reducible refine SameR.done ?_
    | with_reducible refine SameR.wait ?_
    | with_reducible refine same_updMarg ?_
    | with_reducible refine same_takeCell ?_ (fun _ _ => ?_)

theorem same_execLeaveAckTimeout {s0 : State} {s : State} (hs : Same s0 s) :
    ∃ v0, execLeaveAckTimeout s = .next v0 ∧ Same s0 v0 := by
  refine ⟨_, rfl, ?_⟩
  try dsimp only
  repeat' first
    | with_reducible assumption
    | with_reducible refine Same.ite ?_ ?_
    | with_reducible refine same_updMarg ?_
    | with_reducible refine same_leaveDone ?_

theorem same_execOwnNClaim {s0 : State} {s : State} (hs : Same s0 s) :
    ∃ v0, execOwnNClaim s = .next v0 ∧ Same s0 v0 := by
  refine ⟨_, rfl, ?_⟩
  try dsimp only
  repeat' first
    | with_reducible assumption
    | with_reducible refine Same.ite ?_ ?_
    | with_reducible refine same_updDrive ?_
    | with_reducible refine same_updMarg ?_
    | with_reducible refine Same.forUpTo ?_ (fun _ _ _ => ?_)
    | with_reducible fail_if_no_progress refine Same.of ?_ rfl rfl rfl rfl rfl rfl rfl rfl rfl rfl rfl rfl rfl rfl rfl rfl rfl

theorem same_execPeerOwnChange {s0 : State} {asserted : Bool} {s : State} (hs : Same s0 s) :
    ∃ v0, execPeerOwnChange asserted s = .next v0 ∧ Same s0 v0 := by
  refine ⟨_, rfl, ?_⟩
  try dsimp only
  repeat' first
    | with_reducible assumption
    | with_reducible refine Same.ite ?_ ?_
    | with_reducible refine same_updMarg ?_

/-! Folio. -/

theorem same_updFolio {s0 : State} {s : State} {f : Folio → Folio} (hs : Same s0 s) :
    Same s0 (updFolio s f) := by
  unfold updFolio
  try dsimp only
  repeat' first
    | with_reducible assumption
    | with_reducible refine Same.ite ?_ ?_
    | with_reducible fail_if_no_progress refine Same.of ?_ rfl rfl rfl rfl rfl rfl rfl rfl rfl rfl rfl rfl rfl rfl rfl rfl rfl

theorem keeps_updFolio {s0 : State} {s : State} {f : Folio → Folio} (hs : Keeps s0 s) :
    Keeps s0 (updFolio s f) := hs.after (same_updFolio (Same.refl _))

theorem same_refuseHeader {s0 : State} {c : Nat} {s : State} (hs : Same s0 s) :
    Same s0 (refuseHeader c s) := by
  unfold refuseHeader
  try dsimp only
  repeat' first
    | with_reducible assumption
    | with_reducible refine Same.ite ?_ ?_
    | with_reducible refine same_parCount ?_
    | with_reducible refine same_linkError ?_

theorem same_acceptHeader {s0 : State} {h : BitVec 64} {s : State} (hs : Same s0 s) :
    Same s0 (acceptHeader h s) := by
  unfold acceptHeader
  try dsimp only
  repeat' first
    | with_reducible assumption
    | with_reducible refine Same.ite ?_ ?_
    | with_reducible refine same_updFolio ?_

theorem same_execFolioHeader {s0 : State} {hdr : BitVec 64} {s : State} (hs : Same s0 s) :
    ∃ v0, execFolioHeader hdr s = .next v0 ∧ Same s0 v0 := by
  refine ⟨_, rfl, ?_⟩
  try dsimp only
  repeat' first
    | with_reducible assumption
    | with_reducible refine Same.ite ?_ ?_
    | with_reducible refine same_updTim ?_
    | with_reducible refine same_updFolio ?_
    | with_reducible refine same_refuseHeader ?_
    | with_reducible refine same_acceptHeader ?_

theorem same_execRuntHeader {s0 : State} {s : State} (hs : Same s0 s) :
    ∃ v0, execRuntHeader s = .next v0 ∧ Same s0 v0 := by
  refine ⟨_, rfl, ?_⟩
  try dsimp only
  repeat' first
    | with_reducible assumption
    | with_reducible refine Same.ite ?_ ?_
    | with_reducible refine same_linkError ?_
    | with_reducible refine same_updFolio ?_

theorem same_setPhase {s0 : State} {tag : Nat} {p : TagPhase} {ws : List Word} {s : State} (hs : Same s0 s) :
    Same s0 (setPhase tag p ws s) := by
  unfold setPhase
  try dsimp only
  repeat' first
    | with_reducible assumption
    | with_reducible refine Same.ite ?_ ?_
    | with_reducible refine same_updFolio ?_

theorem keeps_setPhase {s0 : State} {tag : Nat} {p : TagPhase} {ws : List Word} {s : State} (hs : Keeps s0 s) :
    Keeps s0 (setPhase tag p ws s) := hs.after (same_setPhase (Same.refl _))

theorem same_failPacket {s0 : State} {tag : Nat} {s : State} (hs : Same s0 s) :
    Same s0 (failPacket tag s) := by
  unfold failPacket
  try dsimp only
  repeat' first
    | with_reducible assumption
    | with_reducible refine Same.ite ?_ ?_
    | with_reducible refine same_linkError ?_
    | with_reducible refine same_completeTag ?_

theorem keeps_failPacket {s0 : State} {tag : Nat} {s : State} (hs : Keeps s0 s) :
    Keeps s0 (failPacket tag s) := hs.after (same_failPacket (Same.refl _))

theorem same_execPacketEnd {s0 : State} {words : List Word} {crc : Word} {frmLow : Bool} {s : State} (hs : Same s0 s) :
    ∃ v0, execPacketEnd words crc frmLow s = .next v0 ∧ Same s0 v0 := by
  refine ⟨_, rfl, ?_⟩
  try dsimp only
  repeat' first
    | with_reducible assumption
    | with_reducible refine Same.ite ?_ ?_
    | with_reducible refine same_completeTag ?_
    | with_reducible refine same_updFolio ?_
    | with_reducible refine same_setPhase ?_
    | with_reducible refine same_failPacket ?_
    | with_reducible fail_if_no_progress refine Same.of ?_ rfl rfl rfl rfl rfl rfl rfl rfl rfl rfl rfl rfl rfl rfl rfl rfl rfl
    | split

theorem same_execFiFrmOverrun {s0 : State} {s : State} (hs : Same s0 s) :
    ∃ v0, execFiFrmOverrun s = .next v0 ∧ Same s0 v0 := by
  refine ⟨_, rfl, ?_⟩
  try dsimp only
  repeat' first
    | with_reducible assumption
    | with_reducible refine Same.ite ?_ ?_
    | with_reducible refine same_linkError ?_
    | with_reducible refine same_updFolio ?_

theorem same_discardNewest {s0 : State} {s : State} (hs : Same s0 s) :
    Same s0 (discardNewest s) := by
  unfold discardNewest
  try dsimp only
  repeat' first
    | with_reducible assumption
    | with_reducible refine Same.ite ?_ ?_
    | with_reducible refine same_updFolio ?_
    | with_reducible fail_if_no_progress refine Same.of ?_ rfl rfl rfl rfl rfl rfl rfl rfl rfl rfl rfl rfl rfl rfl rfl rfl rfl
    | split

theorem same_execFolioClockLost {s0 : State} {runt : Bool} {unlaunched : Bool} {s : State} (hs : Same s0 s) :
    ∃ v0, execFolioClockLost runt unlaunched s = .next v0 ∧ Same s0 v0 := by
  refine ⟨_, rfl, ?_⟩
  try dsimp only
  repeat' first
    | with_reducible assumption
    | with_reducible refine Same.ite ?_ ?_
    | with_reducible refine same_linkError ?_
    | with_reducible refine same_raise ?_
    | with_reducible refine same_updTim ?_
    | with_reducible refine same_updFolio ?_
    | with_reducible refine same_failPacket ?_
    | with_reducible refine same_discardNewest ?_
    | with_reducible fail_if_no_progress refine Same.of ?_ rfl rfl rfl rfl rfl rfl rfl rfl rfl rfl rfl rfl rfl rfl rfl rfl rfl
    | split

theorem same_execFolioClockReturn {s0 : State} {s : State} (hs : Same s0 s) :
    ∃ v0, execFolioClockReturn s = .next v0 ∧ Same s0 v0 := by
  refine ⟨_, rfl, ?_⟩
  try dsimp only
  repeat' first
    | with_reducible assumption
    | with_reducible refine Same.ite ?_ ?_
    | with_reducible refine same_updTim ?_
    | with_reducible refine same_updFolio ?_

theorem same_rateStop {s0 : State} {rate : Nat} {s : State} (hs : Same s0 s) :
    Same s0 (rateStop rate s) := by
  unfold rateStop
  try dsimp only
  repeat' first
    | with_reducible assumption
    | with_reducible refine Same.ite ?_ ?_
    | with_reducible refine same_updFolio ?_

theorem keeps_rateStop {s0 : State} {rate : Nat} {s : State} (hs : Keeps s0 s) :
    Keeps s0 (rateStop rate s) := hs.after (same_rateStop (Same.refl _))

theorem same_sendNext {s0 : State} {s : State} (hs : Same s0 s) :
    Same s0 (sendNext s) := by
  unfold sendNext
  try dsimp only
  repeat' first
    | with_reducible assumption
    | with_reducible refine Same.ite ?_ ?_
    | with_reducible refine same_updFolio ?_
    | with_reducible fail_if_no_progress refine Same.of ?_ rfl rfl rfl rfl rfl rfl rfl rfl rfl rfl rfl rfl rfl rfl rfl rfl rfl
    | split

theorem same_execPacketSend {s0 : State} {s : State} (hs : Same s0 s) :
    ∃ v0, execPacketSend s = .next v0 ∧ Same s0 v0 := by
  refine ⟨_, rfl, ?_⟩
  try dsimp only
  repeat' first
    | with_reducible assumption
    | with_reducible refine Same.ite ?_ ?_
    | with_reducible refine same_rateStop ?_
    | with_reducible refine same_sendNext ?_
    | with_reducible fail_if_no_progress refine Same.of ?_ rfl rfl rfl rfl rfl rfl rfl rfl rfl rfl rfl rfl rfl rfl rfl rfl rfl
    | split

theorem keeps_replySent {s0 : State} {r : Reply} {s : State} (hs : Keeps s0 s) :
    Keeps s0 (replySent r s) := by
  unfold replySent
  try dsimp only
  repeat' first
    | with_reducible assumption
    | with_reducible refine Keeps.ite ?_ ?_
    | with_reducible refine keeps_resetAfterReply ?_
    | with_reducible refine keeps_updFolio ?_
    | with_reducible refine keeps_rateStop ?_
    | with_reducible fail_if_no_progress refine Keeps.of ?_ rfl rfl rfl rfl rfl rfl rfl rfl rfl rfl rfl rfl rfl rfl rfl rfl rfl
    | split

theorem keeps_execPacketSent {s0 : State} {s : State} (hs : Keeps s0 s) :
    ∃ v0, execPacketSent s = .next v0 ∧ Keeps s0 v0 := by
  refine ⟨_, rfl, ?_⟩
  try dsimp only
  repeat' first
    | with_reducible assumption
    | with_reducible refine Keeps.ite ?_ ?_
    | with_reducible refine keeps_eventFreed ?_
    | with_reducible refine keeps_updFolio ?_
    | with_reducible refine keeps_replySent ?_
    | with_reducible fail_if_no_progress refine Keeps.of ?_ rfl rfl rfl rfl rfl rfl rfl rfl rfl rfl rfl rfl rfl rfl rfl rfl rfl
    | split

theorem same_changeRate {s0 : State} {tag : Option Nat} {v : Nat} {s : State} (hs : Same s0 s) :
    Same s0 (changeRate tag v s) := by
  unfold changeRate
  try dsimp only
  repeat' first
    | with_reducible assumption
    | with_reducible refine Same.ite ?_ ?_
    | with_reducible refine same_updFolio ?_

theorem same_execFoClkRestart {s0 : State} {s : State} (hs : Same s0 s) :
    ∃ v0, execFoClkRestart s = .next v0 ∧ Same s0 v0 := by
  refine ⟨_, rfl, ?_⟩
  try dsimp only
  repeat' first
    | with_reducible assumption
    | with_reducible refine Same.ite ?_ ?_
    | with_reducible refine same_updFolio ?_
    | with_reducible fail_if_no_progress refine Same.of ?_ rfl rfl rfl rfl rfl rfl rfl rfl rfl rfl rfl rfl rfl rfl rfl rfl rfl
    | split

theorem same_execFoFirstPacketHold {s0 : State} {s : State} (hs : Same s0 s) :
    ∃ v0, execFoFirstPacketHold s = .next v0 ∧ Same s0 v0 := by
  refine ⟨_, rfl, ?_⟩
  try dsimp only
  repeat' first
    | with_reducible assumption
    | with_reducible refine Same.ite ?_ ?_
    | with_reducible refine same_updFolio ?_
    | with_reducible fail_if_no_progress refine Same.of ?_ rfl rfl rfl rfl rfl rfl rfl rfl rfl rfl rfl rfl rfl rfl rfl rfl rfl
    | split

theorem same_execHostSilent {s0 : State} {s : State} (hs : Same s0 s) :
    ∃ v0, execHostSilent s = .next v0 ∧ Same s0 v0 := by
  refine ⟨_, rfl, ?_⟩
  try dsimp only
  repeat' first
    | with_reducible assumption
    | with_reducible refine Same.ite ?_ ?_
    | with_reducible refine same_setAttn ?_
    | with_reducible refine same_raise ?_
    | with_reducible refine same_updFolio ?_

/-! Params. -/

theorem same_write01 {s0 : State} {tag : Option Nat} {s : State} {i : Nat} {v : Word} (hs : Same s0 s) :
    Same s0 (write01 tag s i v) := by
  unfold write01
  try dsimp only
  repeat' first
    | with_reducible assumption
    | with_reducible refine Same.ite ?_ ?_
    | with_reducible refine same_parSet ?_
    | with_reducible refine same_changeRate ?_

theorem keeps_write01 {s0 : State} {tag : Option Nat} {s : State} {i : Nat} {v : Word} (hs : Keeps s0 s) :
    Keeps s0 (write01 tag s i v) := hs.after (same_write01 (Same.refl _))

theorem keeps_landParam {s0 : State} {tag : Option Nat} {s : State} {u : Nat} {i : Nat} {v : Word} (hs : Keeps s0 s) :
    Keeps s0 (landParam tag s u i v) := by
  unfold landParam
  try dsimp only
  repeat' first
    | with_reducible assumption
    | with_reducible refine Keeps.ite ?_ ?_
    | with_reducible refine keeps_parSet ?_
    | with_reducible refine keeps_write0A ?_
    | with_reducible refine keeps_write08 ?_
    | with_reducible refine keeps_write05 ?_
    | with_reducible refine keeps_write03 ?_
    | with_reducible refine keeps_write04 ?_
    | with_reducible refine keeps_write07 ?_
    | with_reducible refine keeps_write09 ?_
    | with_reducible refine keeps_write0D ?_
    | with_reducible refine keeps_write0F ?_
    | with_reducible refine keeps_write01 ?_
    | with_reducible fail_if_no_progress refine Keeps.of ?_ rfl rfl rfl rfl rfl rfl rfl rfl rfl rfl rfl rfl rfl rfl rfl rfl rfl
    | split

theorem same_captureParam {s0 : State} {u : Nat} {i : Nat} {s : State} (hs : Same s0 s) :
    Same s0 (captureParam u i s) := by
  unfold captureParam
  try dsimp only
  repeat' first
    | with_reducible assumption
    | with_reducible refine Same.ite ?_ ?_
    | with_reducible refine same_demandRead ?_
    | with_reducible refine same_captureStopHi ?_
    | with_reducible refine same_captureRetired ?_
    | with_reducible refine same_captureAngle ?_
    | with_reducible refine same_captureEntry ?_
    | with_reducible refine same_captureTime ?_
    | with_reducible fail_if_no_progress refine Same.of ?_ rfl rfl rfl rfl rfl rfl rfl rfl rfl rfl rfl rfl rfl rfl rfl rfl rfl
    | split

theorem same_captureRead {s0 : State} {s : State} {u : Nat} {i : Nat} (hs : Same s0 s) :
    Same s0 (captureRead s u i).2 := by
  unfold captureRead
  try dsimp only
  repeat' first
    | with_reducible assumption
    | with_reducible refine Same.ite ?_ ?_
    | with_reducible refine same_captureParam ?_

theorem same_getEntries {s0 : State} {l : List Word} : ∀ {s : State}, Same s0 s → Same s0 (getEntries l s).2.2 := by
  induction l with
  | nil =>
    intro s hs
    unfold getEntries
    try dsimp only
    repeat' first
      | with_reducible assumption
  | cons _ _ ih =>
    intro s hs
    unfold getEntries
    try dsimp only
    repeat' first
      | with_reducible assumption
      | with_reducible refine Same.ite ?_ ?_
      | with_reducible refine ih ?_
      | with_reducible refine same_captureRead ?_
      | with_reducible fail_if_no_progress refine Same.of ?_ rfl rfl rfl rfl rfl rfl rfl rfl rfl rfl rfl rfl rfl rfl rfl rfl rfl
      | split

theorem same_bodyGetParam {s0 : State} {ws : List Word} {s : State} (hs : Same s0 s) :
    SameR s0 (bodyGetParam ws s) := by
  unfold bodyGetParam
  try dsimp only
  repeat' first
    | with_reducible assumption
    | with_reducible refine Same.ite ?_ ?_
    | with_reducible refine SameR.ite ?_ ?_
    | with_reducible refine SameR.done ?_
    | with_reducible refine SameR.wait ?_
    | with_reducible refine same_checked ?_ ?_
    | with_reducible refine same_getEntries ?_

theorem keeps_hostWrite {s0 : State} {tag : Option Nat} {u : Nat} {i : Nat} {v : Word} {s : State} (hs : Keeps s0 s) :
    Keeps s0 (hostWrite tag u i v s) := by
  unfold hostWrite
  try dsimp only
  repeat' first
    | with_reducible assumption
    | with_reducible refine Keeps.ite ?_ ?_
    | with_reducible refine keeps_landParam ?_
    | with_reducible fail_if_no_progress refine Keeps.of ?_ rfl rfl rfl rfl rfl rfl rfl rfl rfl rfl rfl rfl rfl rfl rfl rfl rfl
    | split

theorem keeps_writeAllParams {s0 : State} {tag : Option Nat} {l : List (Word × Word)} {s : State} (hs : Keeps s0 s) :
    KeepsR s0 (writeAllParams tag l s) := by
  unfold writeAllParams
  try dsimp only
  repeat' first
    | with_reducible assumption
    | with_reducible refine Keeps.ite ?_ ?_
    | with_reducible refine KeepsR.ite ?_ ?_
    | with_reducible refine KeepsR.done ?_
    | with_reducible refine KeepsR.wait ?_
    | with_reducible refine keeps_refuse ?_
    | with_reducible refine keeps_mramRefuse ?_
    | with_reducible refine keeps_hostWrite ?_
    | with_reducible refine Keeps.forEach ?_ (fun _ _ _ => ?_)

theorem keeps_bodySetParam {s0 : State} {tag : Nat} {ws : List Word} {s : State} (hs : Keeps s0 s) :
    KeepsR s0 (bodySetParam tag ws s) := by
  unfold bodySetParam
  try dsimp only
  repeat' first
    | with_reducible assumption
    | with_reducible refine Keeps.ite ?_ ?_
    | with_reducible refine KeepsR.ite ?_ ?_
    | with_reducible refine KeepsR.done ?_
    | with_reducible refine KeepsR.wait ?_
    | with_reducible refine keeps_refuse ?_
    | with_reducible refine keeps_writeAllParams ?_

theorem keeps_bodySetParamBlock {s0 : State} {tag : Nat} {ws : List Word} {s : State} (hs : Keeps s0 s) :
    KeepsR s0 (bodySetParamBlock tag ws s) := by
  unfold bodySetParamBlock
  try dsimp only
  repeat' first
    | with_reducible assumption
    | with_reducible refine Keeps.ite ?_ ?_
    | with_reducible refine KeepsR.ite ?_ ?_
    | with_reducible refine KeepsR.done ?_
    | with_reducible refine KeepsR.wait ?_
    | with_reducible refine keeps_refuse ?_
    | with_reducible refine keeps_writeAllParams ?_

theorem same_readRow {s0 : State} {u : Nat} {i : Nat} {s : State} (hs : Same s0 s) :
    Same s0 (readRow u i s) := by
  unfold readRow
  try dsimp only
  repeat' first
    | with_reducible assumption
    | with_reducible refine Same.ite ?_ ?_
    | with_reducible refine same_captureRead ?_

theorem keeps_writeRow {s0 : State} {u : Nat} {i : Nat} {v : Word} {s : State} (hs : Keeps s0 s) :
    Keeps s0 (writeRow u i v s) := by
  unfold writeRow
  refine Keeps.ite ?_ hs
  have hr := keeps_writeAllParams (tag := none) (l := [(wrd (u * 2 ^ 16 + i), v)]) hs
  split
  next heq => rw [heq] at hr; exact hr
  next heq => rw [heq] at hr; exact hr

theorem same_execTimeLoRead {s0 : State} {s : State} (hs : Same s0 s) :
    ∃ v0, execTimeLoRead s = .next v0 ∧ Same s0 v0 := by
  refine ⟨_, rfl, ?_⟩
  try dsimp only
  repeat' first
    | with_reducible assumption
    | with_reducible refine Same.ite ?_ ?_
    | with_reducible refine same_readRow ?_

theorem same_execRetiredLoRead {s0 : State} {s : State} (hs : Same s0 s) :
    ∃ v0, execRetiredLoRead s = .next v0 ∧ Same s0 v0 := by
  refine ⟨_, rfl, ?_⟩
  try dsimp only
  repeat' first
    | with_reducible assumption
    | with_reducible refine Same.ite ?_ ?_
    | with_reducible refine same_readRow ?_

theorem same_execAngleRead {s0 : State} {src : Nat} {s : State} (hs : Same s0 s) :
    ∃ v0, execAngleRead src s = .next v0 ∧ Same s0 v0 := by
  refine ⟨_, rfl, ?_⟩
  try dsimp only
  repeat' first
    | with_reducible assumption
    | with_reducible refine Same.ite ?_ ?_
    | with_reducible refine same_readRow ?_

theorem same_execCapStopLoRead {s0 : State} {buf : Nat} {s : State} (hs : Same s0 s) :
    ∃ v0, execCapStopLoRead buf s = .next v0 ∧ Same s0 v0 := by
  refine ⟨_, rfl, ?_⟩
  try dsimp only
  repeat' first
    | with_reducible assumption
    | with_reducible refine Same.ite ?_ ?_
    | with_reducible refine same_readRow ?_

theorem same_execDirectoryEntryRead {s0 : State} {d : Nat} {s : State} (hs : Same s0 s) :
    ∃ v0, execDirectoryEntryRead d s = .next v0 ∧ Same s0 v0 := by
  refine ⟨_, rfl, ?_⟩
  try dsimp only
  repeat' first
    | with_reducible assumption
    | with_reducible refine Same.ite ?_ ?_
    | with_reducible refine same_readRow ?_

theorem keeps_execFastReserveWrite {s0 : State} {v : Word} {s : State} (hs : Keeps s0 s) :
    ∃ v0, execFastReserveWrite v s = .next v0 ∧ Keeps s0 v0 := by
  refine ⟨_, rfl, ?_⟩
  try dsimp only
  repeat' first
    | with_reducible assumption
    | with_reducible refine Keeps.ite ?_ ?_
    | with_reducible refine keeps_writeRow ?_

theorem keeps_execFoRateWrite {s0 : State} {v : Word} {s : State} (hs : Keeps s0 s) :
    ∃ v0, execFoRateWrite v s = .next v0 ∧ Keeps s0 v0 := by
  refine ⟨_, rfl, ?_⟩
  try dsimp only
  repeat' first
    | with_reducible assumption
    | with_reducible refine Keeps.ite ?_ ?_
    | with_reducible refine keeps_writeRow ?_

theorem keeps_execConfigLockWrite {s0 : State} {v : Word} {s : State} (hs : Keeps s0 s) :
    ∃ v0, execConfigLockWrite v s = .next v0 ∧ Keeps s0 v0 := by
  refine ⟨_, rfl, ?_⟩
  try dsimp only
  repeat' first
    | with_reducible assumption
    | with_reducible refine Keeps.ite ?_ ?_
    | with_reducible refine keeps_writeRow ?_

theorem keeps_execSeqSoftTrigger {s0 : State} {v : Word} {s : State} (hs : Keeps s0 s) :
    ∃ v0, execSeqSoftTrigger v s = .next v0 ∧ Keeps s0 v0 := by
  refine ⟨_, rfl, ?_⟩
  try dsimp only
  repeat' first
    | with_reducible assumption
    | with_reducible refine Keeps.ite ?_ ?_
    | with_reducible refine keeps_writeRow ?_

theorem keeps_execSeqEnableWrite {s0 : State} {n : Nat} {v : Word} {s : State} (hs : Keeps s0 s) :
    ∃ v0, execSeqEnableWrite n v s = .next v0 ∧ Keeps s0 v0 := by
  refine ⟨_, rfl, ?_⟩
  try dsimp only
  repeat' first
    | with_reducible assumption
    | with_reducible refine Keeps.ite ?_ ?_
    | with_reducible refine keeps_writeRow ?_

theorem keeps_execRotEnWrite {s0 : State} {v : Word} {s : State} (hs : Keeps s0 s) :
    ∃ v0, execRotEnWrite v s = .next v0 ∧ Keeps s0 v0 := by
  refine ⟨_, rfl, ?_⟩
  try dsimp only
  repeat' first
    | with_reducible assumption
    | with_reducible refine Keeps.ite ?_ ?_
    | with_reducible refine keeps_writeRow ?_

theorem keeps_execWcCtrlWrite {s0 : State} {n : Nat} {v : Word} {s : State} (hs : Keeps s0 s) :
    ∃ v0, execWcCtrlWrite n v s = .next v0 ∧ Keeps s0 v0 := by
  refine ⟨_, rfl, ?_⟩
  try dsimp only
  repeat' first
    | with_reducible assumption
    | with_reducible refine Keeps.ite ?_ ?_
    | with_reducible refine keeps_writeRow ?_

theorem keeps_execTbEnableWrite {s0 : State} {tb : Nat} {v : Word} {s : State} (hs : Keeps s0 s) :
    ∃ v0, execTbEnableWrite tb v s = .next v0 ∧ Keeps s0 v0 := by
  refine ⟨_, rfl, ?_⟩
  try dsimp only
  repeat' first
    | with_reducible assumption
    | with_reducible refine Keeps.ite ?_ ?_
    | with_reducible refine keeps_writeRow ?_

theorem keeps_execSyncWrite {s0 : State} {tb : Nat} {v : Word} {s : State} (hs : Keeps s0 s) :
    ∃ v0, execSyncWrite tb v s = .next v0 ∧ Keeps s0 v0 := by
  refine ⟨_, rfl, ?_⟩
  try dsimp only
  repeat' first
    | with_reducible assumption
    | with_reducible refine Keeps.ite ?_ ?_
    | with_reducible refine keeps_writeRow ?_

theorem keeps_execPerWrite {s0 : State} {tb : Nat} {v : Word} {s : State} (hs : Keeps s0 s) :
    ∃ v0, execPerWrite tb v s = .next v0 ∧ Keeps s0 v0 := by
  refine ⟨_, rfl, ?_⟩
  try dsimp only
  repeat' first
    | with_reducible assumption
    | with_reducible refine Keeps.ite ?_ ?_
    | with_reducible refine keeps_writeRow ?_

theorem keeps_execCompareWrite {s0 : State} {tb : Nat} {k : Nat} {v : Word} {s : State} (hs : Keeps s0 s) :
    ∃ v0, execCompareWrite tb k v s = .next v0 ∧ Keeps s0 v0 := by
  refine ⟨_, rfl, ?_⟩
  try dsimp only
  repeat' first
    | with_reducible assumption
    | with_reducible refine Keeps.ite ?_ ?_
    | with_reducible refine keeps_writeRow ?_

theorem keeps_execTripRouteWrite {s0 : State} {src : Nat} {v : Word} {s : State} (hs : Keeps s0 s) :
    ∃ v0, execTripRouteWrite src v s = .next v0 ∧ Keeps s0 v0 := by
  refine ⟨_, rfl, ?_⟩
  try dsimp only
  repeat' first
    | with_reducible assumption
    | with_reducible refine Keeps.ite ?_ ?_
    | with_reducible refine keeps_writeRow ?_

theorem keeps_execPairCfgWrite {s0 : State} {p : Nat} {v : Word} {s : State} (hs : Keeps s0 s) :
    ∃ v0, execPairCfgWrite p v s = .next v0 ∧ Keeps s0 v0 := by
  refine ⟨_, rfl, ?_⟩
  try dsimp only
  repeat' first
    | with_reducible assumption
    | with_reducible refine Keeps.ite ?_ ?_
    | with_reducible refine keeps_writeRow ?_

theorem keeps_execDrvPosWrite {s0 : State} {d : Nat} {v : Word} {s : State} (hs : Keeps s0 s) :
    ∃ v0, execDrvPosWrite d v s = .next v0 ∧ Keeps s0 v0 := by
  refine ⟨_, rfl, ?_⟩
  try dsimp only
  repeat' first
    | with_reducible assumption
    | with_reducible refine Keeps.ite ?_ ?_
    | with_reducible refine keeps_writeRow ?_

theorem keeps_execEmuCtrlWrite {s0 : State} {n : Nat} {v : Word} {s : State} (hs : Keeps s0 s) :
    ∃ v0, execEmuCtrlWrite n v s = .next v0 ∧ Keeps s0 v0 := by
  refine ⟨_, rfl, ?_⟩
  try dsimp only
  repeat' first
    | with_reducible assumption
    | with_reducible refine Keeps.ite ?_ ?_
    | with_reducible refine keeps_writeRow ?_

theorem keeps_execSplitTaskWrite {s0 : State} {v : Word} {s : State} (hs : Keeps s0 s) :
    ∃ v0, execSplitTaskWrite v s = .next v0 ∧ Keeps s0 v0 := by
  refine ⟨_, rfl, ?_⟩
  try dsimp only
  repeat' first
    | with_reducible assumption
    | with_reducible refine Keeps.ite ?_ ?_
    | with_reducible refine keeps_writeRow ?_

theorem keeps_execMirEnWrite {s0 : State} {v : Word} {s : State} (hs : Keeps s0 s) :
    ∃ v0, execMirEnWrite v s = .next v0 ∧ Keeps s0 v0 := by
  refine ⟨_, rfl, ?_⟩
  try dsimp only
  repeat' first
    | with_reducible assumption
    | with_reducible refine Keeps.ite ?_ ?_
    | with_reducible refine keeps_writeRow ?_

theorem keeps_execThresholdWrite {s0 : State} {w : Nat} {v : Word} {s : State} (hs : Keeps s0 s) :
    ∃ v0, execThresholdWrite w v s = .next v0 ∧ Keeps s0 v0 := by
  refine ⟨_, rfl, ?_⟩
  try dsimp only
  repeat' first
    | with_reducible assumption
    | with_reducible refine Keeps.ite ?_ ?_
    | with_reducible refine keeps_writeRow ?_

theorem keeps_execLpRateWrite {s0 : State} {v : Word} {s : State} (hs : Keeps s0 s) :
    ∃ v0, execLpRateWrite v s = .next v0 ∧ Keeps s0 v0 := by
  refine ⟨_, rfl, ?_⟩
  try dsimp only
  repeat' first
    | with_reducible assumption
    | with_reducible refine Keeps.ite ?_ ?_
    | with_reducible refine keeps_writeRow ?_

theorem keeps_execStartExpectWrite {s0 : State} {r : Nat} {v : Word} {s : State} (hs : Keeps s0 s) :
    ∃ v0, execStartExpectWrite r v s = .next v0 ∧ Keeps s0 v0 := by
  refine ⟨_, rfl, ?_⟩
  try dsimp only
  repeat' first
    | with_reducible assumption
    | with_reducible refine Keeps.ite ?_ ?_
    | with_reducible refine keeps_writeRow ?_

theorem keeps_execMapParamWrite {s0 : State} {m : Nat} {w : Nat} {v : Word} {s : State} (hs : Keeps s0 s) :
    ∃ v0, execMapParamWrite m w v s = .next v0 ∧ Keeps s0 v0 := by
  refine ⟨_, rfl, ?_⟩
  try dsimp only
  repeat' first
    | with_reducible assumption
    | with_reducible refine Keeps.ite ?_ ?_
    | with_reducible refine keeps_writeRow ?_

theorem keeps_execParamWrite {s0 : State} {unit : Nat} {idx : Nat} {v : Word} {s : State} (hs : Keeps s0 s) :
    ∃ v0, execParamWrite unit idx v s = .next v0 ∧ Keeps s0 v0 := by
  refine ⟨_, rfl, ?_⟩
  try dsimp only
  repeat' first
    | with_reducible assumption
    | with_reducible refine Keeps.ite ?_ ?_
    | with_reducible refine keeps_writeRow ?_

end Sys2Proof.Laws
end

