-- ==== Sys2Proof/Laws/KeepCommands.lean ====
section
/-!
SUPPORT. What completions, strings and the command rows keep (Laws/Frame.lean): one lemma for each operation and each meaning.
-/
namespace Sys2Proof.Laws
open Sys2Proof.Machine Sys2Proof.Safety

/-! Completion. -/

theorem same_overRange {s0 : State} {inp : Nat} {side : Bool} {s : State} (hs : Same s0 s) :
    Same s0 (overRange inp side s) := by
  unfold overRange
  try dsimp only
  repeat' first
    | with_reducible assumption
    | with_reducible refine Same.ite ?_ ?_
    | with_reducible refine same_parOr ?_
    | with_reducible refine same_record ?_
    | with_reducible refine same_updConv ?_ (fun _ h k => ⟨h, k⟩)

theorem keeps_overRange {s0 : State} {inp : Nat} {side : Bool} {s : State} (hs : Keeps s0 s) :
    Keeps s0 (overRange inp side s) := hs.after (same_overRange (Same.refl _))

theorem same_patchResults {s0 : State} {n : Nat} {t : Nat} {words : List Word} {s : State} (hs : Same s0 s) :
    Same s0 (patchResults n t words s) := by
  unfold patchResults
  try dsimp only
  repeat' first
    | with_reducible assumption
    | with_reducible refine Same.ite ?_ ?_
    | with_reducible refine same_updSeq ?_
    | with_reducible refine Same.forUpTo ?_ (fun _ _ _ => ?_)

theorem same_seqComplete {s0 : State} {n : Nat} {t : Nat} {run : SeqRun} {s : State} (hs : Same s0 s) :
    Same s0 (seqComplete n t run s) := by
  unfold seqComplete
  try dsimp only
  repeat' first
    | with_reducible assumption
    | with_reducible refine Same.ite ?_ ?_
    | with_reducible refine same_updSeq ?_
    | with_reducible refine same_parWrap ?_
    | with_reducible refine same_bandsFrom ?_
    | with_reducible refine same_updConv ?_ (fun _ h k => ⟨h, k⟩)
    | with_reducible refine same_rootReady ?_
    | with_reducible refine same_dischargeCheck ?_
    | with_reducible refine same_deliverReg ?_
    | with_reducible refine same_patchResults ?_
    | with_reducible refine Same.forEach ?_ (fun _ _ _ => ?_)

theorem same_entryDone {s0 : State} {i : Nat} {n : Nat} {k : Nat} {t : Nat} {w : Word} {s : State} (hs : Same s0 s) :
    Same s0 (entryDone i n k t w s) := by
  unfold entryDone
  try dsimp only
  repeat' first
    | with_reducible assumption
    | with_reducible refine Same.ite ?_ ?_
    | with_reducible refine same_updSeq ?_
    | with_reducible refine same_updSlice ?_
    | with_reducible refine same_seqComplete ?_
    | with_reducible fail_if_no_progress refine Same.of ?_ rfl rfl rfl rfl rfl rfl rfl rfl rfl rfl rfl rfl rfl rfl rfl rfl rfl
    | split

theorem keeps_entryDone {s0 : State} {i : Nat} {n : Nat} {k : Nat} {t : Nat} {w : Word} {s : State} (hs : Keeps s0 s) :
    Keeps s0 (entryDone i n k t w s) := hs.after (same_entryDone (Same.refl _))

theorem keeps_conversionEnd {s0 : State} {i : Nat} {c : Conv} {code : BitVec 14} {ovr : Bool} {side : Bool} {tcode : BitVec 14} {tovr : Bool} {s : State} (hs : Keeps s0 s) :
    Keeps s0 (conversionEnd i c code ovr side tcode tovr s) := by
  unfold conversionEnd
  try dsimp only
  repeat' first
    | with_reducible assumption
    | with_reducible refine Keeps.ite ?_ ?_
    | with_reducible refine keeps_updSlice ?_
    | with_reducible refine keeps_parCount ?_
    | with_reducible refine keeps_completeTag ?_
    | with_reducible refine keeps_captureAll ?_
    | with_reducible refine keeps_startEntry ?_
    | with_reducible refine keeps_startReference ?_
    | with_reducible refine keeps_shadowPair ?_
    | with_reducible refine keeps_overRange ?_
    | with_reducible refine keeps_entryDone ?_
    | with_reducible fail_if_no_progress refine Keeps.of ?_ rfl rfl rfl rfl rfl rfl rfl rfl rfl rfl rfl rfl rfl rfl rfl rfl rfl
    | split

theorem keeps_execConversionDone {s0 : State} {ls : Nat} {code : BitVec 14} {ovr : Bool} {side : Bool} {tcode : BitVec 14} {tovr : Bool} {s : State} (hs : Keeps s0 s) :
    ∃ v0, execConversionDone ls code ovr side tcode tovr s = .next v0 ∧ Keeps s0 v0 := by
  refine ⟨_, rfl, ?_⟩
  try dsimp only
  repeat' first
    | with_reducible assumption
    | with_reducible refine Keeps.ite ?_ ?_
    | with_reducible refine keeps_conversionEnd ?_
    | with_reducible fail_if_no_progress refine Keeps.of ?_ rfl rfl rfl rfl rfl rfl rfl rfl rfl rfl rfl rfl rfl rfl rfl rfl rfl
    | split

theorem same_triggerFires {s0 : State} {t : Nat} {k : Nat} {a : Nat} {s : State} (hs : Same s0 s) :
    Same s0 (triggerFires t k a s) := by
  unfold triggerFires
  try dsimp only
  repeat' first
    | with_reducible assumption
    | with_reducible refine Same.ite ?_ ?_
    | with_reducible refine same_updTb ?_
    | with_reducible refine same_fireTrigger ?_

theorem same_execTriggerCompare {s0 : State} {tb : Nat} {k : Nat} {s : State} (hs : Same s0 s) :
    ∃ v0, execTriggerCompare tb k s = .next v0 ∧ Same s0 v0 := by
  refine ⟨_, rfl, ?_⟩
  try dsimp only
  repeat' first
    | with_reducible assumption
    | with_reducible refine Same.ite ?_ ?_
    | with_reducible refine same_triggerFires ?_
    | with_reducible fail_if_no_progress refine Same.of ?_ rfl rfl rfl rfl rfl rfl rfl rfl rfl rfl rfl rfl rfl rfl rfl rfl rfl
    | split

theorem same_execSeqTrigger {s0 : State} {n : Nat} {s : State} (hs : Same s0 s) :
    ∃ v0, execSeqTrigger n s = .next v0 ∧ Same s0 v0 := by
  refine ⟨_, rfl, ?_⟩
  try dsimp only
  repeat' first
    | with_reducible assumption
    | with_reducible refine Same.ite ?_ ?_
    | with_reducible refine same_updSeq ?_
    | with_reducible refine same_seqTrigger ?_
    | with_reducible refine same_rootTriggers ?_
    | with_reducible fail_if_no_progress refine Same.of ?_ rfl rfl rfl rfl rfl rfl rfl rfl rfl rfl rfl rfl rfl rfl rfl rfl rfl
    | split

/-! Strings. -/

theorem same_chargeLedgers {s0 : State} {r : Nat} {t0 : Nat} {T : Nat} {iPrev : Word} {iNow : Word} {s : State} (hs : Same s0 s) :
    Same s0 (chargeLedgers r t0 T iPrev iNow s) := by
  unfold chargeLedgers
  try dsimp only
  repeat' first
    | with_reducible assumption
    | with_reducible refine Same.ite ?_ ?_
    | with_reducible refine same_updEntry ?_
    | with_reducible refine Same.forUpTo ?_ (fun _ _ _ => ?_)

theorem same_normalise {s0 : State} {r : Nat} {s : State} (hs : Same s0 s) :
    Same s0 (normalise r s) := by
  unfold normalise
  try dsimp only
  repeat' first
    | with_reducible assumption
    | with_reducible refine Same.ite ?_ ?_
    | with_reducible refine same_updRing ?_
    | with_reducible refine same_updEntry ?_
    | with_reducible refine same_parSet ?_
    | with_reducible refine Same.forEach ?_ (fun _ _ _ => ?_)
    | with_reducible fail_if_no_progress refine Same.of ?_ rfl rfl rfl rfl rfl rfl rfl rfl rfl rfl rfl rfl rfl rfl rfl rfl rfl
    | split

theorem same_cycleLimits {s0 : State} {r : Nat} {neg : Bool} {o : CycleOut} {s : State} (hs : Same s0 s) :
    Same s0 (cycleLimits r neg o s) := by
  unfold cycleLimits
  try dsimp only
  repeat' first
    | with_reducible assumption
    | with_reducible refine Same.ite ?_ ?_
    | with_reducible refine same_updRing ?_
    | with_reducible refine same_parCount ?_
    | with_reducible refine same_record ?_

theorem same_publishString {s0 : State} {r : Nat} {iNow : Word} {o : CycleOut} {s : State} (hs : Same s0 s) :
    Same s0 (publishString r iNow o s) := by
  unfold publishString
  try dsimp only
  repeat' first
    | with_reducible assumption
    | with_reducible refine Same.ite ?_ ?_
    | with_reducible refine same_updRing ?_
    | with_reducible refine same_parSet ?_

theorem same_handFrame {s0 : State} {r : Nat} {f : DownFrame} {s : State} (hs : Same s0 s) :
    Same s0 (handFrame r f s) := by
  unfold handFrame
  try dsimp only
  repeat' first
    | with_reducible assumption
    | with_reducible refine Same.ite ?_ ?_
    | with_reducible refine same_updRing ?_
    | with_reducible refine same_queueRingFrame ?_

theorem same_consumeDirectory {s0 : State} {r : Nat} {s : State} (hs : Same s0 s) :
    Same s0 (consumeDirectory r s) := by
  unfold consumeDirectory
  try dsimp only
  repeat' first
    | with_reducible assumption
    | with_reducible refine Same.ite ?_ ?_
    | with_reducible refine same_readCells ?_
    | with_reducible refine same_consume ?_
    | with_reducible refine Same.forUpTo ?_ (fun _ _ _ => ?_)
    | with_reducible fail_if_no_progress refine Same.of ?_ rfl rfl rfl rfl rfl rfl rfl rfl rfl rfl rfl rfl rfl rfl rfl rfl rfl
    | split

theorem same_runCycle {s0 : State} {r : Nat} {v : Word} {t0 : Nat} {s : State} (hs : Same s0 s) :
    Same s0 (runCycle r v t0 s) := by
  unfold runCycle
  try dsimp only
  repeat' first
    | with_reducible assumption
    | with_reducible refine Same.ite ?_ ?_
    | with_reducible refine same_updRing ?_
    | with_reducible refine same_parCount ?_
    | with_reducible refine same_record ?_
    | with_reducible refine same_foldReturn ?_
    | with_reducible refine same_chargeLedgers ?_
    | with_reducible refine same_normalise ?_
    | with_reducible refine same_cycleLimits ?_
    | with_reducible refine same_publishString ?_
    | with_reducible refine same_handFrame ?_
    | with_reducible refine same_consumeDirectory ?_
    | with_reducible fail_if_no_progress refine Same.of ?_ rfl rfl rfl rfl rfl rfl rfl rfl rfl rfl rfl rfl rfl rfl rfl rfl rfl
    | split

theorem same_execStringCycle {s0 : State} {r : Nat} {s : State} (hs : Same s0 s) :
    ∃ v0, execStringCycle r s = .next v0 ∧ Same s0 v0 := by
  refine ⟨_, rfl, ?_⟩
  try dsimp only
  repeat' first
    | with_reducible assumption
    | with_reducible refine Same.ite ?_ ?_
    | with_reducible refine same_runCycle ?_
    | with_reducible fail_if_no_progress refine Same.of ?_ rfl rfl rfl rfl rfl rfl rfl rfl rfl rfl rfl rfl rfl rfl rfl rfl rfl
    | split

/-! Commands. -/

theorem same_serve {s0 : State} {op : Nat} {body : State → CmdRes} {s : State} (hs : Same s0 s) (hbody : ∀ v, Same s0 v → SameR s0 (body v)) :
    SameR s0 (serve op body s) := by
  unfold serve
  try dsimp only
  repeat' first
    | with_reducible assumption
    | with_reducible refine Same.ite ?_ ?_
    | with_reducible refine SameR.ite ?_ ?_
    | with_reducible refine SameR.done ?_
    | with_reducible refine SameR.wait ?_
    | with_reducible refine same_refuse ?_
    | with_reducible fail_if_no_progress refine Same.of ?_ rfl rfl rfl rfl rfl rfl rfl rfl rfl rfl rfl rfl rfl rfl rfl rfl rfl
    | refine hbody _ ?_

theorem keeps_serve {s0 : State} {op : Nat} {body : State → CmdRes} {s : State} (hs : Keeps s0 s) (hbody : ∀ v, Keeps s0 v → KeepsR s0 (body v)) :
    KeepsR s0 (serve op body s) := by
  unfold serve
  try dsimp only
  repeat' first
    | with_reducible assumption
    | with_reducible refine Keeps.ite ?_ ?_
    | with_reducible refine KeepsR.ite ?_ ?_
    | with_reducible refine KeepsR.done ?_
    | with_reducible refine KeepsR.wait ?_
    | with_reducible refine keeps_refuse ?_
    | with_reducible fail_if_no_progress refine Keeps.of ?_ rfl rfl rfl rfl rfl rfl rfl rfl rfl rfl rfl rfl rfl rfl rfl rfl rfl
    | refine hbody _ ?_

theorem same_runCommand {s0 : State} {op : Nat} {tag : Nat} {body : List Word → State → CmdRes} {s : State} (hs : Same s0 s) (hbody : ∀ w v, Same s0 v → SameR s0 (body w v)) :
    Same s0 (runCommand op tag body s) := by
  unfold runCommand
  try dsimp only
  repeat' first
    | with_reducible assumption
    | with_reducible refine Same.ite ?_ ?_
    | with_reducible refine SameR.ite ?_ ?_
    | with_reducible refine SameR.done ?_
    | with_reducible refine SameR.wait ?_
    | with_reducible refine same_settle ?_
    | with_reducible refine same_setPhase ?_
    | with_reducible refine same_serve ?_ (fun _ _ => ?_)
    | with_reducible fail_if_no_progress refine Same.of ?_ rfl rfl rfl rfl rfl rfl rfl rfl rfl rfl rfl rfl rfl rfl rfl rfl rfl
    | refine hbody _ _ ?_
    | split

theorem keeps_runCommand {s0 : State} {op : Nat} {tag : Nat} {body : List Word → State → CmdRes} {s : State} (hs : Keeps s0 s) (hbody : ∀ w v, Keeps s0 v → KeepsR s0 (body w v)) :
    Keeps s0 (runCommand op tag body s) := by
  unfold runCommand
  try dsimp only
  repeat' first
    | with_reducible assumption
    | with_reducible refine Keeps.ite ?_ ?_
    | with_reducible refine KeepsR.ite ?_ ?_
    | with_reducible refine KeepsR.done ?_
    | with_reducible refine KeepsR.wait ?_
    | with_reducible refine keeps_settle ?_
    | with_reducible refine keeps_setPhase ?_
    | with_reducible refine keeps_serve ?_ (fun _ _ => ?_)
    | with_reducible fail_if_no_progress refine Keeps.of ?_ rfl rfl rfl rfl rfl rfl rfl rfl rfl rfl rfl rfl rfl rfl rfl rfl rfl
    | refine hbody _ _ ?_
    | split

theorem same_bodyIdentify {s0 : State} {_ws : List Word} {s : State} (hs : Same s0 s) :
    SameR s0 (bodyIdentify _ws s) := by
  unfold bodyIdentify
  try dsimp only
  repeat' first
    | with_reducible assumption
    | with_reducible refine Same.ite ?_ ?_
    | with_reducible refine SameR.ite ?_ ?_
    | with_reducible refine SameR.done ?_

theorem same_bodyGetStatus {s0 : State} {_ws : List Word} {s : State} (hs : Same s0 s) :
    SameR s0 (bodyGetStatus _ws s) := by
  unfold bodyGetStatus
  try dsimp only
  repeat' first
    | with_reducible assumption
    | with_reducible refine Same.ite ?_ ?_
    | with_reducible refine SameR.ite ?_ ?_
    | with_reducible refine SameR.done ?_

theorem same_execIdentify {s0 : State} {tag : Nat} {s : State} (hs : Same s0 s) :
    ∃ v0, execIdentify tag s = .next v0 ∧ Same s0 v0 := by
  refine ⟨_, rfl, ?_⟩
  try dsimp only
  repeat' first
    | with_reducible assumption
    | with_reducible refine Same.ite ?_ ?_
    | with_reducible refine SameR.ite ?_ ?_
    | with_reducible refine SameR.done ?_
    | with_reducible refine SameR.wait ?_
    | with_reducible refine same_runCommand ?_ (fun _ _ _ => ?_)
    | with_reducible refine same_bodyIdentify ?_

theorem same_execGetStatus {s0 : State} {tag : Nat} {s : State} (hs : Same s0 s) :
    ∃ v0, execGetStatus tag s = .next v0 ∧ Same s0 v0 := by
  refine ⟨_, rfl, ?_⟩
  try dsimp only
  repeat' first
    | with_reducible assumption
    | with_reducible refine Same.ite ?_ ?_
    | with_reducible refine SameR.ite ?_ ?_
    | with_reducible refine SameR.done ?_
    | with_reducible refine SameR.wait ?_
    | with_reducible refine same_runCommand ?_ (fun _ _ _ => ?_)
    | with_reducible refine same_bodyGetStatus ?_

theorem same_execGetParam {s0 : State} {tag : Nat} {s : State} (hs : Same s0 s) :
    ∃ v0, execGetParam tag s = .next v0 ∧ Same s0 v0 := by
  refine ⟨_, rfl, ?_⟩
  try dsimp only
  repeat' first
    | with_reducible assumption
    | with_reducible refine Same.ite ?_ ?_
    | with_reducible refine SameR.ite ?_ ?_
    | with_reducible refine SameR.done ?_
    | with_reducible refine SameR.wait ?_
    | with_reducible refine same_bodyGetParam ?_
    | with_reducible refine same_runCommand ?_ (fun _ _ _ => ?_)

theorem keeps_execSetParam {s0 : State} {tag : Nat} {s : State} (hs : Keeps s0 s) :
    ∃ v0, execSetParam tag s = .next v0 ∧ Keeps s0 v0 := by
  refine ⟨_, rfl, ?_⟩
  try dsimp only
  repeat' first
    | with_reducible assumption
    | with_reducible refine Keeps.ite ?_ ?_
    | with_reducible refine KeepsR.ite ?_ ?_
    | with_reducible refine KeepsR.done ?_
    | with_reducible refine KeepsR.wait ?_
    | with_reducible refine keeps_bodySetParam ?_
    | with_reducible refine keeps_runCommand ?_ (fun _ _ _ => ?_)

theorem keeps_execSetParamBlock {s0 : State} {tag : Nat} {s : State} (hs : Keeps s0 s) :
    ∃ v0, execSetParamBlock tag s = .next v0 ∧ Keeps s0 v0 := by
  refine ⟨_, rfl, ?_⟩
  try dsimp only
  repeat' first
    | with_reducible assumption
    | with_reducible refine Keeps.ite ?_ ?_
    | with_reducible refine KeepsR.ite ?_ ?_
    | with_reducible refine KeepsR.done ?_
    | with_reducible refine KeepsR.wait ?_
    | with_reducible refine keeps_bodySetParamBlock ?_
    | with_reducible refine keeps_runCommand ?_ (fun _ _ _ => ?_)

theorem same_execMode {s0 : State} {tag : Nat} {s : State} (hs : Same s0 s) :
    ∃ v0, execMode tag s = .next v0 ∧ Same s0 v0 := by
  refine ⟨_, rfl, ?_⟩
  try dsimp only
  repeat' first
    | with_reducible assumption
    | with_reducible refine Same.ite ?_ ?_
    | with_reducible refine SameR.ite ?_ ?_
    | with_reducible refine SameR.done ?_
    | with_reducible refine SameR.wait ?_
    | with_reducible refine same_bodyMode ?_
    | with_reducible refine same_runCommand ?_ (fun _ _ _ => ?_)

theorem same_execTorqueSet {s0 : State} {tag : Nat} {s : State} (hs : Same s0 s) :
    ∃ v0, execTorqueSet tag s = .next v0 ∧ Same s0 v0 := by
  refine ⟨_, rfl, ?_⟩
  try dsimp only
  repeat' first
    | with_reducible assumption
    | with_reducible refine Same.ite ?_ ?_
    | with_reducible refine SameR.ite ?_ ?_
    | with_reducible refine SameR.done ?_
    | with_reducible refine SameR.wait ?_
    | with_reducible refine same_bodyTorqueSet ?_
    | with_reducible refine same_runCommand ?_ (fun _ _ _ => ?_)

theorem same_execSetpoint {s0 : State} {tag : Nat} {s : State} (hs : Same s0 s) :
    ∃ v0, execSetpoint tag s = .next v0 ∧ Same s0 v0 := by
  refine ⟨_, rfl, ?_⟩
  try dsimp only
  repeat' first
    | with_reducible assumption
    | with_reducible refine Same.ite ?_ ?_
    | with_reducible refine SameR.ite ?_ ?_
    | with_reducible refine SameR.done ?_
    | with_reducible refine SameR.wait ?_
    | with_reducible refine same_bodySetpoint ?_
    | with_reducible refine same_runCommand ?_ (fun _ _ _ => ?_)

theorem same_execSafeState {s0 : State} {tag : Nat} {s : State} (hs : Same s0 s) :
    ∃ v0, execSafeState tag s = .next v0 ∧ Same s0 v0 := by
  refine ⟨_, rfl, ?_⟩
  try dsimp only
  repeat' first
    | with_reducible assumption
    | with_reducible refine Same.ite ?_ ?_
    | with_reducible refine SameR.ite ?_ ?_
    | with_reducible refine SameR.done ?_
    | with_reducible refine SameR.wait ?_
    | with_reducible refine same_bodySafeState ?_
    | with_reducible refine same_runCommand ?_ (fun _ _ _ => ?_)

theorem same_execClearFault {s0 : State} {tag : Nat} {s : State} (hs : Same s0 s) :
    ∃ v0, execClearFault tag s = .next v0 ∧ Same s0 v0 := by
  refine ⟨_, rfl, ?_⟩
  try dsimp only
  repeat' first
    | with_reducible assumption
    | with_reducible refine Same.ite ?_ ?_
    | with_reducible refine SameR.ite ?_ ?_
    | with_reducible refine SameR.done ?_
    | with_reducible refine SameR.wait ?_
    | with_reducible refine same_bodyClearFault ?_
    | with_reducible refine same_runCommand ?_ (fun _ _ _ => ?_)

theorem same_execClearTrip {s0 : State} {tag : Nat} {s : State} (hs : Same s0 s) :
    ∃ v0, execClearTrip tag s = .next v0 ∧ Same s0 v0 := by
  refine ⟨_, rfl, ?_⟩
  try dsimp only
  repeat' first
    | with_reducible assumption
    | with_reducible refine Same.ite ?_ ?_
    | with_reducible refine SameR.ite ?_ ?_
    | with_reducible refine SameR.done ?_
    | with_reducible refine SameR.wait ?_
    | with_reducible refine same_bodyClearTrip ?_
    | with_reducible refine same_runCommand ?_ (fun _ _ _ => ?_)

theorem same_execDischarge {s0 : State} {tag : Nat} {s : State} (hs : Same s0 s) :
    ∃ v0, execDischarge tag s = .next v0 ∧ Same s0 v0 := by
  refine ⟨_, rfl, ?_⟩
  try dsimp only
  repeat' first
    | with_reducible assumption
    | with_reducible refine Same.ite ?_ ?_
    | with_reducible refine SameR.ite ?_ ?_
    | with_reducible refine SameR.done ?_
    | with_reducible refine SameR.wait ?_
    | with_reducible refine same_bodyDischarge ?_
    | with_reducible refine same_runCommand ?_ (fun _ _ _ => ?_)

theorem same_execCtxLoad {s0 : State} {tag : Nat} {s : State} (hs : Same s0 s) :
    ∃ v0, execCtxLoad tag s = .next v0 ∧ Same s0 v0 := by
  refine ⟨_, rfl, ?_⟩
  try dsimp only
  repeat' first
    | with_reducible assumption
    | with_reducible refine Same.ite ?_ ?_
    | with_reducible refine SameR.ite ?_ ?_
    | with_reducible refine SameR.done ?_
    | with_reducible refine SameR.wait ?_
    | with_reducible refine same_bodyCtxLoad ?_
    | with_reducible refine same_runCommand ?_ (fun _ _ _ => ?_)

theorem same_execCtxEnable {s0 : State} {tag : Nat} {s : State} (hs : Same s0 s) :
    ∃ v0, execCtxEnable tag s = .next v0 ∧ Same s0 v0 := by
  refine ⟨_, rfl, ?_⟩
  try dsimp only
  repeat' first
    | with_reducible assumption
    | with_reducible refine Same.ite ?_ ?_
    | with_reducible refine SameR.ite ?_ ?_
    | with_reducible refine SameR.done ?_
    | with_reducible refine SameR.wait ?_
    | with_reducible refine same_bodyCtxEnable ?_
    | with_reducible refine same_runCommand ?_ (fun _ _ _ => ?_)

theorem same_execCtxDisable {s0 : State} {tag : Nat} {s : State} (hs : Same s0 s) :
    ∃ v0, execCtxDisable tag s = .next v0 ∧ Same s0 v0 := by
  refine ⟨_, rfl, ?_⟩
  try dsimp only
  repeat' first
    | with_reducible assumption
    | with_reducible refine Same.ite ?_ ?_
    | with_reducible refine SameR.ite ?_ ?_
    | with_reducible refine SameR.done ?_
    | with_reducible refine SameR.wait ?_
    | with_reducible refine same_bodyCtxDisable ?_
    | with_reducible refine same_runCommand ?_ (fun _ _ _ => ?_)

theorem same_execCtxRead {s0 : State} {tag : Nat} {s : State} (hs : Same s0 s) :
    ∃ v0, execCtxRead tag s = .next v0 ∧ Same s0 v0 := by
  refine ⟨_, rfl, ?_⟩
  try dsimp only
  repeat' first
    | with_reducible assumption
    | with_reducible refine Same.ite ?_ ?_
    | with_reducible refine SameR.ite ?_ ?_
    | with_reducible refine SameR.done ?_
    | with_reducible refine SameR.wait ?_
    | with_reducible refine same_bodyCtxRead ?_
    | with_reducible refine same_runCommand ?_ (fun _ _ _ => ?_)

theorem same_execMapLoad {s0 : State} {tag : Nat} {s : State} (hs : Same s0 s) :
    ∃ v0, execMapLoad tag s = .next v0 ∧ Same s0 v0 := by
  refine ⟨_, rfl, ?_⟩
  try dsimp only
  repeat' first
    | with_reducible assumption
    | with_reducible refine Same.ite ?_ ?_
    | with_reducible refine SameR.ite ?_ ?_
    | with_reducible refine SameR.done ?_
    | with_reducible refine SameR.wait ?_
    | with_reducible refine same_bodyMapLoad ?_
    | with_reducible refine same_runCommand ?_ (fun _ _ _ => ?_)

theorem same_execHatchFrame {s0 : State} {tag : Nat} {s : State} (hs : Same s0 s) :
    ∃ v0, execHatchFrame tag s = .next v0 ∧ Same s0 v0 := by
  refine ⟨_, rfl, ?_⟩
  try dsimp only
  repeat' first
    | with_reducible assumption
    | with_reducible refine Same.ite ?_ ?_
    | with_reducible refine SameR.ite ?_ ?_
    | with_reducible refine SameR.done ?_
    | with_reducible refine SameR.wait ?_
    | with_reducible refine same_bodyHatchFrame ?_
    | with_reducible refine same_runCommand ?_ (fun _ _ _ => ?_)

theorem same_execHatchForce {s0 : State} {tag : Nat} {s : State} (hs : Same s0 s) :
    ∃ v0, execHatchForce tag s = .next v0 ∧ Same s0 v0 := by
  refine ⟨_, rfl, ?_⟩
  try dsimp only
  repeat' first
    | with_reducible assumption
    | with_reducible refine Same.ite ?_ ?_
    | with_reducible refine SameR.ite ?_ ?_
    | with_reducible refine SameR.done ?_
    | with_reducible refine SameR.wait ?_
    | with_reducible refine same_bodyHatchForce ?_
    | with_reducible refine same_runCommand ?_ (fun _ _ _ => ?_)

theorem same_execRingEnumerate {s0 : State} {tag : Nat} {s : State} (hs : Same s0 s) :
    ∃ v0, execRingEnumerate tag s = .next v0 ∧ Same s0 v0 := by
  refine ⟨_, rfl, ?_⟩
  try dsimp only
  repeat' first
    | with_reducible assumption
    | with_reducible refine Same.ite ?_ ?_
    | with_reducible refine SameR.ite ?_ ?_
    | with_reducible refine SameR.done ?_
    | with_reducible refine SameR.wait ?_
    | with_reducible refine same_bodyRingEnumerate ?_
    | with_reducible refine same_runCommand ?_ (fun _ _ _ => ?_)

theorem same_execNodeRead {s0 : State} {tag : Nat} {s : State} (hs : Same s0 s) :
    ∃ v0, execNodeRead tag s = .next v0 ∧ Same s0 v0 := by
  refine ⟨_, rfl, ?_⟩
  try dsimp only
  repeat' first
    | with_reducible assumption
    | with_reducible refine Same.ite ?_ ?_
    | with_reducible refine SameR.ite ?_ ?_
    | with_reducible refine SameR.done ?_
    | with_reducible refine SameR.wait ?_
    | with_reducible refine same_bodyNodeRead ?_
    | with_reducible refine same_runCommand ?_ (fun _ _ _ => ?_)

theorem same_execNodeWrite {s0 : State} {tag : Nat} {s : State} (hs : Same s0 s) :
    ∃ v0, execNodeWrite tag s = .next v0 ∧ Same s0 v0 := by
  refine ⟨_, rfl, ?_⟩
  try dsimp only
  repeat' first
    | with_reducible assumption
    | with_reducible refine Same.ite ?_ ?_
    | with_reducible refine SameR.ite ?_ ?_
    | with_reducible refine SameR.done ?_
    | with_reducible refine SameR.wait ?_
    | with_reducible refine same_bodyNodeWrite ?_
    | with_reducible refine same_runCommand ?_ (fun _ _ _ => ?_)

theorem same_execCellExclude {s0 : State} {tag : Nat} {s : State} (hs : Same s0 s) :
    ∃ v0, execCellExclude tag s = .next v0 ∧ Same s0 v0 := by
  refine ⟨_, rfl, ?_⟩
  try dsimp only
  repeat' first
    | with_reducible assumption
    | with_reducible refine Same.ite ?_ ?_
    | with_reducible refine SameR.ite ?_ ?_
    | with_reducible refine SameR.done ?_
    | with_reducible refine SameR.wait ?_
    | with_reducible refine same_bodyCellExclude ?_
    | with_reducible refine same_runCommand ?_ (fun _ _ _ => ?_)

theorem same_execCellInclude {s0 : State} {tag : Nat} {s : State} (hs : Same s0 s) :
    ∃ v0, execCellInclude tag s = .next v0 ∧ Same s0 v0 := by
  refine ⟨_, rfl, ?_⟩
  try dsimp only
  repeat' first
    | with_reducible assumption
    | with_reducible refine Same.ite ?_ ?_
    | with_reducible refine SameR.ite ?_ ?_
    | with_reducible refine SameR.done ?_
    | with_reducible refine SameR.wait ?_
    | with_reducible refine same_bodyCellInclude ?_
    | with_reducible refine same_runCommand ?_ (fun _ _ _ => ?_)

theorem same_execSeqLoad {s0 : State} {tag : Nat} {s : State} (hs : Same s0 s) :
    ∃ v0, execSeqLoad tag s = .next v0 ∧ Same s0 v0 := by
  refine ⟨_, rfl, ?_⟩
  try dsimp only
  repeat' first
    | with_reducible assumption
    | with_reducible refine Same.ite ?_ ?_
    | with_reducible refine SameR.ite ?_ ?_
    | with_reducible refine SameR.done ?_
    | with_reducible refine SameR.wait ?_
    | with_reducible refine same_bodySeqLoad ?_
    | with_reducible refine same_runCommand ?_ (fun _ _ _ => ?_)

theorem same_execConvUrgent {s0 : State} {tag : Nat} {s : State} (hs : Same s0 s) :
    ∃ v0, execConvUrgent tag s = .next v0 ∧ Same s0 v0 := by
  refine ⟨_, rfl, ?_⟩
  try dsimp only
  repeat' first
    | with_reducible assumption
    | with_reducible refine Same.ite ?_ ?_
    | with_reducible refine SameR.ite ?_ ?_
    | with_reducible refine SameR.done ?_
    | with_reducible refine SameR.wait ?_
    | with_reducible refine same_bodyConvUrgent ?_
    | with_reducible refine same_runCommand ?_ (fun _ _ _ => ?_)

theorem same_execCalStatus {s0 : State} {tag : Nat} {s : State} (hs : Same s0 s) :
    ∃ v0, execCalStatus tag s = .next v0 ∧ Same s0 v0 := by
  refine ⟨_, rfl, ?_⟩
  try dsimp only
  repeat' first
    | with_reducible assumption
    | with_reducible refine Same.ite ?_ ?_
    | with_reducible refine SameR.ite ?_ ?_
    | with_reducible refine SameR.done ?_
    | with_reducible refine SameR.wait ?_
    | with_reducible refine same_bodyCalStatus ?_
    | with_reducible refine same_runCommand ?_ (fun _ _ _ => ?_)

theorem same_execPosConfig {s0 : State} {tag : Nat} {s : State} (hs : Same s0 s) :
    ∃ v0, execPosConfig tag s = .next v0 ∧ Same s0 v0 := by
  refine ⟨_, rfl, ?_⟩
  try dsimp only
  repeat' first
    | with_reducible assumption
    | with_reducible refine Same.ite ?_ ?_
    | with_reducible refine SameR.ite ?_ ?_
    | with_reducible refine SameR.done ?_
    | with_reducible refine SameR.wait ?_
    | with_reducible refine same_bodyPosConfig ?_
    | with_reducible refine same_runCommand ?_ (fun _ _ _ => ?_)

theorem same_execPosCompare {s0 : State} {tag : Nat} {s : State} (hs : Same s0 s) :
    ∃ v0, execPosCompare tag s = .next v0 ∧ Same s0 v0 := by
  refine ⟨_, rfl, ?_⟩
  try dsimp only
  repeat' first
    | with_reducible assumption
    | with_reducible refine Same.ite ?_ ?_
    | with_reducible refine SameR.ite ?_ ?_
    | with_reducible refine SameR.done ?_
    | with_reducible refine SameR.wait ?_
    | with_reducible refine same_bodyPosCompare ?_
    | with_reducible refine same_runCommand ?_ (fun _ _ _ => ?_)

theorem same_execMemRead {s0 : State} {tag : Nat} {s : State} (hs : Same s0 s) :
    ∃ v0, execMemRead tag s = .next v0 ∧ Same s0 v0 := by
  refine ⟨_, rfl, ?_⟩
  try dsimp only
  repeat' first
    | with_reducible assumption
    | with_reducible refine Same.ite ?_ ?_
    | with_reducible refine SameR.ite ?_ ?_
    | with_reducible refine SameR.done ?_
    | with_reducible refine SameR.wait ?_
    | with_reducible refine same_bodyMemRead ?_
    | with_reducible refine same_runCommand ?_ (fun _ _ _ => ?_)

theorem keeps_execMemWrite {s0 : State} {tag : Nat} {s : State} (hs : Keeps s0 s) :
    ∃ v0, execMemWrite tag s = .next v0 ∧ Keeps s0 v0 := by
  refine ⟨_, rfl, ?_⟩
  try dsimp only
  repeat' first
    | with_reducible assumption
    | with_reducible refine Keeps.ite ?_ ?_
    | with_reducible refine KeepsR.ite ?_ ?_
    | with_reducible refine KeepsR.done ?_
    | with_reducible refine KeepsR.wait ?_
    | with_reducible refine keeps_bodyMemWrite ?_
    | with_reducible refine keeps_runCommand ?_ (fun _ _ _ => ?_)

theorem keeps_execCaptureArm {s0 : State} {tag : Nat} {s : State} (hs : Keeps s0 s) :
    ∃ v0, execCaptureArm tag s = .next v0 ∧ Keeps s0 v0 := by
  refine ⟨_, rfl, ?_⟩
  try dsimp only
  repeat' first
    | with_reducible assumption
    | with_reducible refine Keeps.ite ?_ ?_
    | with_reducible refine KeepsR.ite ?_ ?_
    | with_reducible refine KeepsR.done ?_
    | with_reducible refine KeepsR.wait ?_
    | with_reducible refine keeps_bodyCaptureArm ?_
    | with_reducible refine keeps_runCommand ?_ (fun _ _ _ => ?_)

theorem same_execScrubStatus {s0 : State} {tag : Nat} {s : State} (hs : Same s0 s) :
    ∃ v0, execScrubStatus tag s = .next v0 ∧ Same s0 v0 := by
  refine ⟨_, rfl, ?_⟩
  try dsimp only
  repeat' first
    | with_reducible assumption
    | with_reducible refine Same.ite ?_ ?_
    | with_reducible refine SameR.ite ?_ ?_
    | with_reducible refine SameR.done ?_
    | with_reducible refine SameR.wait ?_
    | with_reducible refine same_bodyScrubStatus ?_
    | with_reducible refine same_runCommand ?_ (fun _ _ _ => ?_)

theorem same_execLogRead {s0 : State} {tag : Nat} {s : State} (hs : Same s0 s) :
    ∃ v0, execLogRead tag s = .next v0 ∧ Same s0 v0 := by
  refine ⟨_, rfl, ?_⟩
  try dsimp only
  repeat' first
    | with_reducible assumption
    | with_reducible refine Same.ite ?_ ?_
    | with_reducible refine SameR.ite ?_ ?_
    | with_reducible refine SameR.done ?_
    | with_reducible refine SameR.wait ?_
    | with_reducible refine same_bodyLogRead ?_
    | with_reducible refine same_runCommand ?_ (fun _ _ _ => ?_)

theorem same_execLogMark {s0 : State} {tag : Nat} {s : State} (hs : Same s0 s) :
    ∃ v0, execLogMark tag s = .next v0 ∧ Same s0 v0 := by
  refine ⟨_, rfl, ?_⟩
  try dsimp only
  repeat' first
    | with_reducible assumption
    | with_reducible refine Same.ite ?_ ?_
    | with_reducible refine SameR.ite ?_ ?_
    | with_reducible refine SameR.done ?_
    | with_reducible refine SameR.wait ?_
    | with_reducible refine same_bodyLogMark ?_
    | with_reducible refine same_runCommand ?_ (fun _ _ _ => ?_)

theorem same_execLogClear {s0 : State} {tag : Nat} {s : State} (hs : Same s0 s) :
    ∃ v0, execLogClear tag s = .next v0 ∧ Same s0 v0 := by
  refine ⟨_, rfl, ?_⟩
  try dsimp only
  repeat' first
    | with_reducible assumption
    | with_reducible refine Same.ite ?_ ?_
    | with_reducible refine SameR.ite ?_ ?_
    | with_reducible refine SameR.done ?_
    | with_reducible refine SameR.wait ?_
    | with_reducible refine same_bodyLogClear ?_
    | with_reducible refine same_runCommand ?_ (fun _ _ _ => ?_)

theorem same_execMbxPost {s0 : State} {tag : Nat} {s : State} (hs : Same s0 s) :
    ∃ v0, execMbxPost tag s = .next v0 ∧ Same s0 v0 := by
  refine ⟨_, rfl, ?_⟩
  try dsimp only
  repeat' first
    | with_reducible assumption
    | with_reducible refine Same.ite ?_ ?_
    | with_reducible refine SameR.ite ?_ ?_
    | with_reducible refine SameR.done ?_
    | with_reducible refine SameR.wait ?_
    | with_reducible refine same_bodyMbxPost ?_
    | with_reducible refine same_runCommand ?_ (fun _ _ _ => ?_)

theorem same_execMbxRead {s0 : State} {tag : Nat} {s : State} (hs : Same s0 s) :
    ∃ v0, execMbxRead tag s = .next v0 ∧ Same s0 v0 := by
  refine ⟨_, rfl, ?_⟩
  try dsimp only
  repeat' first
    | with_reducible assumption
    | with_reducible refine Same.ite ?_ ?_
    | with_reducible refine SameR.ite ?_ ?_
    | with_reducible refine SameR.done ?_
    | with_reducible refine SameR.wait ?_
    | with_reducible refine same_bodyMbxRead ?_
    | with_reducible refine same_runCommand ?_ (fun _ _ _ => ?_)

theorem same_execDoorbell {s0 : State} {tag : Nat} {s : State} (hs : Same s0 s) :
    ∃ v0, execDoorbell tag s = .next v0 ∧ Same s0 v0 := by
  refine ⟨_, rfl, ?_⟩
  try dsimp only
  repeat' first
    | with_reducible assumption
    | with_reducible refine Same.ite ?_ ?_
    | with_reducible refine SameR.ite ?_ ?_
    | with_reducible refine SameR.done ?_
    | with_reducible refine SameR.wait ?_
    | with_reducible refine same_bodyDoorbell ?_
    | with_reducible refine same_runCommand ?_ (fun _ _ _ => ?_)

theorem same_execLockAcquire {s0 : State} {tag : Nat} {s : State} (hs : Same s0 s) :
    ∃ v0, execLockAcquire tag s = .next v0 ∧ Same s0 v0 := by
  refine ⟨_, rfl, ?_⟩
  try dsimp only
  repeat' first
    | with_reducible assumption
    | with_reducible refine Same.ite ?_ ?_
    | with_reducible refine SameR.ite ?_ ?_
    | with_reducible refine SameR.done ?_
    | with_reducible refine SameR.wait ?_
    | with_reducible refine same_bodyLockAcquire ?_
    | with_reducible refine same_runCommand ?_ (fun _ _ _ => ?_)

theorem same_execLockRelease {s0 : State} {tag : Nat} {s : State} (hs : Same s0 s) :
    ∃ v0, execLockRelease tag s = .next v0 ∧ Same s0 v0 := by
  refine ⟨_, rfl, ?_⟩
  try dsimp only
  repeat' first
    | with_reducible assumption
    | with_reducible refine Same.ite ?_ ?_
    | with_reducible refine SameR.ite ?_ ?_
    | with_reducible refine SameR.done ?_
    | with_reducible refine SameR.wait ?_
    | with_reducible refine same_bodyLockRelease ?_
    | with_reducible refine same_runCommand ?_ (fun _ _ _ => ?_)

theorem same_execPairRole {s0 : State} {tag : Nat} {s : State} (hs : Same s0 s) :
    ∃ v0, execPairRole tag s = .next v0 ∧ Same s0 v0 := by
  refine ⟨_, rfl, ?_⟩
  try dsimp only
  repeat' first
    | with_reducible assumption
    | with_reducible refine Same.ite ?_ ?_
    | with_reducible refine SameR.ite ?_ ?_
    | with_reducible refine SameR.done ?_
    | with_reducible refine SameR.wait ?_
    | with_reducible refine same_bodyPairRole ?_
    | with_reducible refine same_runCommand ?_ (fun _ _ _ => ?_)

theorem same_execHandover {s0 : State} {tag : Nat} {s : State} (hs : Same s0 s) :
    ∃ v0, execHandover tag s = .next v0 ∧ Same s0 v0 := by
  refine ⟨_, rfl, ?_⟩
  try dsimp only
  repeat' first
    | with_reducible assumption
    | with_reducible refine Same.ite ?_ ?_
    | with_reducible refine SameR.ite ?_ ?_
    | with_reducible refine SameR.done ?_
    | with_reducible refine SameR.wait ?_
    | with_reducible refine same_bodyHandover ?_
    | with_reducible refine same_runCommand ?_ (fun _ _ _ => ?_)

theorem same_execSplit {s0 : State} {tag : Nat} {s : State} (hs : Same s0 s) :
    ∃ v0, execSplit tag s = .next v0 ∧ Same s0 v0 := by
  refine ⟨_, rfl, ?_⟩
  try dsimp only
  repeat' first
    | with_reducible assumption
    | with_reducible refine Same.ite ?_ ?_
    | with_reducible refine SameR.ite ?_ ?_
    | with_reducible refine SameR.done ?_
    | with_reducible refine SameR.wait ?_
    | with_reducible refine same_bodySplit ?_
    | with_reducible refine same_runCommand ?_ (fun _ _ _ => ?_)

theorem same_execJoin {s0 : State} {tag : Nat} {s : State} (hs : Same s0 s) :
    ∃ v0, execJoin tag s = .next v0 ∧ Same s0 v0 := by
  refine ⟨_, rfl, ?_⟩
  try dsimp only
  repeat' first
    | with_reducible assumption
    | with_reducible refine Same.ite ?_ ?_
    | with_reducible refine SameR.ite ?_ ?_
    | with_reducible refine SameR.done ?_
    | with_reducible refine SameR.wait ?_
    | with_reducible refine same_bodyJoin ?_
    | with_reducible refine same_runCommand ?_ (fun _ _ _ => ?_)

theorem same_execSleep {s0 : State} {tag : Nat} {s : State} (hs : Same s0 s) :
    ∃ v0, execSleep tag s = .next v0 ∧ Same s0 v0 := by
  refine ⟨_, rfl, ?_⟩
  try dsimp only
  repeat' first
    | with_reducible assumption
    | with_reducible refine Same.ite ?_ ?_
    | with_reducible refine SameR.ite ?_ ?_
    | with_reducible refine SameR.done ?_
    | with_reducible refine SameR.wait ?_
    | with_reducible refine same_bodySleep ?_
    | with_reducible refine same_runCommand ?_ (fun _ _ _ => ?_)

theorem same_execShutdown {s0 : State} {tag : Nat} {s : State} (hs : Same s0 s) :
    ∃ v0, execShutdown tag s = .next v0 ∧ Same s0 v0 := by
  refine ⟨_, rfl, ?_⟩
  try dsimp only
  repeat' first
    | with_reducible assumption
    | with_reducible refine Same.ite ?_ ?_
    | with_reducible refine SameR.ite ?_ ?_
    | with_reducible refine SameR.done ?_
    | with_reducible refine SameR.wait ?_
    | with_reducible refine same_bodyShutdown ?_
    | with_reducible refine same_runCommand ?_ (fun _ _ _ => ?_)

theorem same_execBurnishAbort {s0 : State} {tag : Nat} {s : State} (hs : Same s0 s) :
    ∃ v0, execBurnishAbort tag s = .next v0 ∧ Same s0 v0 := by
  refine ⟨_, rfl, ?_⟩
  try dsimp only
  repeat' first
    | with_reducible assumption
    | with_reducible refine Same.ite ?_ ?_
    | with_reducible refine SameR.ite ?_ ?_
    | with_reducible refine SameR.done ?_
    | with_reducible refine SameR.wait ?_
    | with_reducible refine same_bodyBurnishAbort ?_
    | with_reducible refine same_runCommand ?_ (fun _ _ _ => ?_)

theorem same_execBurnishResult {s0 : State} {tag : Nat} {s : State} (hs : Same s0 s) :
    ∃ v0, execBurnishResult tag s = .next v0 ∧ Same s0 v0 := by
  refine ⟨_, rfl, ?_⟩
  try dsimp only
  repeat' first
    | with_reducible assumption
    | with_reducible refine Same.ite ?_ ?_
    | with_reducible refine SameR.ite ?_ ?_
    | with_reducible refine SameR.done ?_
    | with_reducible refine SameR.wait ?_
    | with_reducible refine same_bodyBurnishResult ?_
    | with_reducible refine same_runCommand ?_ (fun _ _ _ => ?_)

theorem same_execReset {s0 : State} {tag : Nat} {s : State} (hs : Same s0 s) :
    ∃ v0, execReset tag s = .next v0 ∧ Same s0 v0 := by
  refine ⟨_, rfl, ?_⟩
  try dsimp only
  repeat' first
    | with_reducible assumption
    | with_reducible refine Same.ite ?_ ?_
    | with_reducible refine SameR.ite ?_ ?_
    | with_reducible refine SameR.done ?_
    | with_reducible refine SameR.wait ?_
    | with_reducible refine same_bodyReset ?_
    | with_reducible refine same_runCommand ?_ (fun _ _ _ => ?_)

theorem keeps_execFwBegin {s0 : State} {tag : Nat} {s : State} (hs : Keeps s0 s) :
    ∃ v0, execFwBegin tag s = .next v0 ∧ Keeps s0 v0 := by
  refine ⟨_, rfl, ?_⟩
  try dsimp only
  repeat' first
    | with_reducible assumption
    | with_reducible refine Keeps.ite ?_ ?_
    | with_reducible refine KeepsR.ite ?_ ?_
    | with_reducible refine KeepsR.done ?_
    | with_reducible refine KeepsR.wait ?_
    | with_reducible refine keeps_bodyFwBegin ?_
    | with_reducible refine keeps_runCommand ?_ (fun _ _ _ => ?_)

theorem keeps_execFwData {s0 : State} {tag : Nat} {s : State} (hs : Keeps s0 s) :
    ∃ v0, execFwData tag s = .next v0 ∧ Keeps s0 v0 := by
  refine ⟨_, rfl, ?_⟩
  try dsimp only
  repeat' first
    | with_reducible assumption
    | with_reducible refine Keeps.ite ?_ ?_
    | with_reducible refine KeepsR.ite ?_ ?_
    | with_reducible refine KeepsR.done ?_
    | with_reducible refine KeepsR.wait ?_
    | with_reducible refine keeps_bodyFwData ?_
    | with_reducible refine keeps_runCommand ?_ (fun _ _ _ => ?_)

theorem same_execFwCommit {s0 : State} {tag : Nat} {s : State} (hs : Same s0 s) :
    ∃ v0, execFwCommit tag s = .next v0 ∧ Same s0 v0 := by
  refine ⟨_, rfl, ?_⟩
  try dsimp only
  repeat' first
    | with_reducible assumption
    | with_reducible refine Same.ite ?_ ?_
    | with_reducible refine SameR.ite ?_ ?_
    | with_reducible refine SameR.done ?_
    | with_reducible refine SameR.wait ?_
    | with_reducible refine same_bodyFwCommit ?_
    | with_reducible refine same_runCommand ?_ (fun _ _ _ => ?_)

theorem same_execFwAbort {s0 : State} {tag : Nat} {s : State} (hs : Same s0 s) :
    ∃ v0, execFwAbort tag s = .next v0 ∧ Same s0 v0 := by
  refine ⟨_, rfl, ?_⟩
  try dsimp only
  repeat' first
    | with_reducible assumption
    | with_reducible refine Same.ite ?_ ?_
    | with_reducible refine SameR.ite ?_ ?_
    | with_reducible refine SameR.done ?_
    | with_reducible refine SameR.wait ?_
    | with_reducible refine same_bodyFwAbort ?_
    | with_reducible refine same_runCommand ?_ (fun _ _ _ => ?_)

theorem keeps_relayBody {s0 : State} {op tag : Nat} {body : List Word → State → CmdRes} (hb : relayBody op tag = some body)
    {ws : List Word} {s : State} (hs : Keeps s0 s) : KeepsR s0 (body ws s) := by
  unfold relayBody at hb
  split at hb
  all_goals first
    | cases hb
  exacts [KeepsR.after hs (same_bodyGetParam (Same.refl _)), keeps_bodySetParam hs, KeepsR.after hs (same_bodyMode (Same.refl _)), KeepsR.after hs (same_bodyTorqueSet (Same.refl _)), KeepsR.after hs (same_bodySetpoint (Same.refl _)), KeepsR.after hs (same_bodySafeState (Same.refl _)), KeepsR.after hs (same_bodyClearFault (Same.refl _)), KeepsR.after hs (same_bodyClearTrip (Same.refl _)), KeepsR.after hs (same_bodyDischarge (Same.refl _)), KeepsR.after hs (same_bodyLockRelease (Same.refl _)), KeepsR.after hs (same_bodyPairRole (Same.refl _)), KeepsR.after hs (same_bodyHandover (Same.refl _))]

theorem keeps_relayRun {s0 : State} {mbx : Nat} {h : BitVec 64} {ws : List Word} {crc : Word} {s : State} (hs : Keeps s0 s) :
    Keeps s0 (relayRun mbx h ws crc s) := by
  unfold relayRun
  refine Keeps.ite (keeps_failPacket (keeps_updMarg hs)) ?_
  split
  next body hb => exact keeps_settle (keeps_serve (keeps_updMarg hs) (fun _ h => keeps_relayBody hb h))
  next => exact keeps_updMarg hs

theorem keeps_execRelayRequest {s0 : State} {mbx : Nat} {s : State} (hs : Keeps s0 s) :
    ∃ v0, execRelayRequest mbx s = .next v0 ∧ Keeps s0 v0 := by
  refine ⟨_, rfl, ?_⟩
  try dsimp only
  repeat' first
    | with_reducible assumption
    | with_reducible refine Keeps.ite ?_ ?_
    | with_reducible refine keeps_postMessage ?_
    | with_reducible refine keeps_emptyInbox ?_
    | with_reducible refine keeps_relayRun ?_
    | with_reducible fail_if_no_progress refine Keeps.of ?_ rfl rfl rfl rfl rfl rfl rfl rfl rfl rfl rfl rfl rfl rfl rfl rfl rfl
    | split

/-! Lockstep. -/

theorem same_lockWrite {s0 : State} {n : Nat} {v : Word} {s : State} (hs : Same s0 s) :
    Same s0 (lockWrite n v s) := by
  unfold lockWrite
  try dsimp only
  repeat' first
    | with_reducible assumption
    | with_reducible refine Same.ite ?_ ?_
    | with_reducible refine same_lockServe ?_
    | with_reducible refine same_lockRemote ?_

theorem keeps_lockWrite {s0 : State} {n : Nat} {v : Word} {s : State} (hs : Keeps s0 s) :
    Keeps s0 (lockWrite n v s) := hs.after (same_lockWrite (Same.refl _))

theorem keeps_orderBody {s0 : State} {op : Nat} {body : List Word → State → CmdRes} (hb : orderBody op = some body)
    {ws : List Word} {s : State} (hs : Keeps s0 s) : KeepsR s0 (body ws s) := by
  unfold orderBody at hb
  split at hb
  all_goals first
    | cases hb
  exacts [KeepsR.after hs (same_bodyGetStatus (Same.refl _)), KeepsR.after hs (same_bodyTorqueSet (Same.refl _)), KeepsR.after hs (same_bodySetpoint (Same.refl _)), KeepsR.after hs (same_bodyHatchFrame (Same.refl _)), KeepsR.after hs (same_bodyConvUrgent (Same.refl _))]

theorem keeps_releaseTxn {s0 : State} {t : Txn} {s : State} (hs : Keeps s0 s) :
    Keeps s0 (releaseTxn t s) := by
  unfold releaseTxn
  try dsimp only
  repeat' first
    | with_reducible assumption
    | with_reducible refine Keeps.ite ?_ ?_
    | with_reducible refine KeepsR.ite ?_ ?_
    | with_reducible refine KeepsR.done ?_
    | with_reducible refine KeepsR.wait ?_
    | with_reducible refine keeps_record ?_
    | with_reducible refine keeps_completeTag ?_
    | with_reducible refine keeps_settle ?_
    | with_reducible refine keeps_releaseStore ?_
    | with_reducible refine keeps_hostWrite ?_
    | with_reducible refine keeps_serve ?_ (fun _ _ => ?_)
    | with_reducible refine keeps_lockWrite ?_
    | with_reducible refine keeps_orderBody (by assumption) ?_
    | with_reducible fail_if_no_progress refine Keeps.of ?_ rfl rfl rfl rfl rfl rfl rfl rfl rfl rfl rfl rfl rfl rfl rfl rfl rfl
    | split

theorem keeps_execTransactionCompare {s0 : State} {held : List Txn} {t : Txn} {rails : Nat} {s : State} (hs : Keeps s0 s) :
    ∃ v0, execTransactionCompare held t rails s = .next v0 ∧ Keeps s0 v0 := by
  refine ⟨_, rfl, ?_⟩
  try dsimp only
  repeat' first
    | with_reducible assumption
    | with_reducible refine Keeps.ite ?_ ?_
    | with_reducible refine keeps_updPlate ?_
    | with_reducible refine keeps_pairFault ?_
    | with_reducible refine keeps_divergence ?_
    | with_reducible refine keeps_plateConsumes ?_
    | with_reducible refine keeps_releaseTxn ?_
    | with_reducible refine Keeps.forEach ?_ (fun _ _ _ => ?_)
    | with_reducible refine Keeps.foldl ?_ (fun _ _ _ => ?_)
    | with_reducible fail_if_no_progress refine Keeps.of ?_ rfl rfl rfl rfl rfl rfl rfl rfl rfl rfl rfl rfl rfl rfl rfl rfl rfl
    | split

theorem same_plateRead {s0 : State} {r : ReadFrom} {s : State} (hs : Same s0 s) :
    Same s0 (plateRead r s).2.2 := by
  unfold plateRead
  try dsimp only
  repeat' first
    | with_reducible assumption
    | with_reducible refine Same.ite ?_ ?_
    | with_reducible refine same_demandRead ?_
    | with_reducible refine same_lpNote ?_
    | with_reducible refine same_lockServe ?_
    | with_reducible refine same_lockRemote ?_
    | with_reducible refine same_captureParam ?_
    | with_reducible fail_if_no_progress refine Same.of ?_ rfl rfl rfl rfl rfl rfl rfl rfl rfl rfl rfl rfl rfl rfl rfl rfl rfl
    | split

theorem keeps_plateRead {s0 : State} {r : ReadFrom} {s : State} (hs : Keeps s0 s) :
    Keeps s0 (plateRead r s).2.2 := hs.after (same_plateRead (Same.refl _))

theorem same_plateReads {s0 : State} {l : List ReadReq} {s : State} (hs : Same s0 s) :
    Same s0 (plateReads l s) := by
  unfold plateReads
  try dsimp only
  repeat' first
    | with_reducible assumption
    | with_reducible refine Same.ite ?_ ?_
    | with_reducible refine same_updPlate ?_
    | with_reducible refine same_plateRead ?_
    | with_reducible refine Same.forEach ?_ (fun _ _ _ => ?_)

theorem same_execDelayQueueTake {s0 : State} {reads : List ReadReq} {take : ReadReq} {parityOk : Bool} {s : State} (hs : Same s0 s) :
    ∃ v0, execDelayQueueTake reads take parityOk s = .next v0 ∧ Same s0 v0 := by
  refine ⟨_, rfl, ?_⟩
  try dsimp only
  repeat' first
    | with_reducible assumption
    | with_reducible refine Same.ite ?_ ?_
    | with_reducible refine same_updPlate ?_
    | with_reducible refine same_pairFault ?_
    | with_reducible refine same_divergence ?_
    | with_reducible refine same_plateRead ?_
    | with_reducible refine same_plateReads ?_
    | with_reducible refine Same.forEach ?_ (fun _ _ _ => ?_)
    | with_reducible refine Same.foldl ?_ (fun _ _ _ => ?_)
    | with_reducible fail_if_no_progress refine Same.of ?_ rfl rfl rfl rfl rfl rfl rfl rfl rfl rfl rfl rfl rfl rfl rfl rfl rfl
    | split

theorem keeps_splitNow {s0 : State} {s : State} (hs : Keeps s0 s) :
    Keeps s0 (splitNow s) := by
  unfold splitNow
  try dsimp only
  repeat' first
    | with_reducible assumption
    | with_reducible refine Keeps.ite ?_ ?_
    | with_reducible refine keeps_record ?_
    | with_reducible refine keeps_completeTag ?_
    | with_reducible refine keeps_updPlate ?_
    | with_reducible refine keeps_releaseTxn ?_
    | with_reducible refine keeps_plateRead ?_
    | with_reducible refine Keeps.forEach ?_ (fun _ _ _ => ?_)
    | with_reducible fail_if_no_progress refine Keeps.of ?_ rfl rfl rfl rfl rfl rfl rfl rfl rfl rfl rfl rfl rfl rfl rfl rfl rfl
    | split

theorem keeps_checkpoint {s0 : State} {k : CheckpointData} {s : State} (hs : Keeps s0 s) :
    Keeps s0 (checkpoint k s) := by
  unfold checkpoint
  try dsimp only
  repeat' first
    | with_reducible assumption
    | with_reducible refine Keeps.ite ?_ ?_
    | with_reducible refine keeps_parWrap ?_
    | with_reducible refine keeps_updPlate ?_
    | with_reducible refine keeps_pairFault ?_
    | with_reducible refine keeps_joinNow ?_
    | with_reducible refine keeps_latentFault ?_
    | with_reducible refine keeps_afterJoin ?_
    | with_reducible refine keeps_splitNow ?_
    | with_reducible fail_if_no_progress refine Keeps.of ?_ rfl rfl rfl rfl rfl rfl rfl rfl rfl rfl rfl rfl rfl rfl rfl rfl rfl
    | split

theorem keeps_execCheckpoint {s0 : State} {k : CheckpointData} {s : State} (hs : Keeps s0 s) :
    ∃ v0, execCheckpoint k s = .next v0 ∧ Keeps s0 v0 := by
  refine ⟨_, rfl, ?_⟩
  try dsimp only
  repeat' first
    | with_reducible assumption
    | with_reducible refine Keeps.ite ?_ ?_
    | with_reducible refine keeps_updPlate ?_
    | with_reducible refine keeps_checkpoint ?_

theorem keeps_execWatchdogService {s0 : State} {k : CheckpointData} {s : State} (hs : Keeps s0 s) :
    ∃ v0, execWatchdogService k s = .next v0 ∧ Keeps s0 v0 := by
  refine ⟨_, rfl, ?_⟩
  try dsimp only
  repeat' first
    | with_reducible assumption
    | with_reducible refine Keeps.ite ?_ ?_
    | with_reducible refine keeps_updPlate ?_
    | with_reducible refine keeps_checkpoint ?_

end Sys2Proof.Laws
end

