-- ==== Sys2Proof/Laws/Serve.lean ====
section
/-!
SUPPORT. How a command that starts ends: its body runs on the state in which its entry is running, and the end of the body
gives the reply. What a row that writes one parameter leaves.
-/
namespace Sys2Proof.Laws
open Sys2Proof.Machine Sys2Proof.Safety

/-- The state in which the body of the command under `tag` runs. -/
abbrev begun (s : State) (tag : Nat) : State := setPhase tag .running [] s

/-- The state `u` with the reply of the command under `tag`, whose entry is `e`. -/
abbrev answered (u : State) (e : TagEntry) (tag status : Nat) (ws : List Word) : State :=
  updFolio u fun f => { f with
    tags := f.tags.map fun x => if x.tag = tag then { x with phase := .replied, payload := [] } else x,
    replies := f.replies ++ [{ tag := tag, opcode := e.opcode, unit := e.unit, status := status, payload := ws }] }

theorem find_map_tag {l : List TagEntry} {tag n : Nat} {f : TagEntry → TagEntry} (hf : ∀ e, (f e).tag = e.tag) :
    (l.map fun e => if e.tag = tag then f e else e).find? (fun e => e.tag = n) =
      (l.find? fun e => e.tag = n).map fun e => if e.tag = tag then f e else e := by
  induction l with
  | nil => rfl
  | cons a r ih =>
    simp only [List.map_cons, List.find?_cons]
    by_cases h : a.tag = tag
    · simp only [h, if_true, hf]
      by_cases hn : tag = n
      · subst hn; simp [h]
      · simp only [hn, decide_false]; exact ih
    · simp only [h, if_false]
      by_cases hn : a.tag = n
      · simp [hn]; intro h2; exact absurd (hn.trans h2) h
      · simp only [hn, decide_false]; exact ih

theorem tagEntry_begun (s : State) (tag n : Nat) :
    tagEntry (begun s tag) n =
      (tagEntry s n).map fun e => if e.tag = tag then { e with phase := .running, payload := [] } else e :=
  find_map_tag (l := s.folio.tags) (f := fun e => { e with phase := .running, payload := [] }) fun _ => rfl

theorem tagEntry_tag {s : State} {n : Nat} {e : TagEntry} (h : tagEntry s n = some e) : e.tag = n := by
  have := List.find?_some h
  simpa using this

/-- A command that starts runs its body on the state in which its entry is running. -/
theorem runCommand_starts {s : State} {tag op : Nat} {ws : List Word} (h : Starts s tag op ws)
    (body : List Word → State → CmdRes) : runCommand op tag body s = settle tag (body ws (begun s tag)) := by
  obtain ⟨e, he, ho, hp, hm⟩ := h.entry
  unfold tagEntry at he
  unfold runCommand
  rw [he]
  simp only [ho, hm, and_self, if_true]
  unfold serve
  rw [hp]
  have h1 : ¬ (s.op = .shutdown ∧ (!servedInShutdown op) = true) := by
    rintro ⟨a, b⟩
    rw [h.shutdown a] at b
    simp at b
  have h2 : ¬ (s.op = .safe ∧ s.safeLocked = true ∧ (!servedLocked op) = true) := by
    rintro ⟨a, b, c⟩
    rw [h.locked a b] at c
    simp at c
  have e1 : (setPhase tag .running [] s).op = s.op := rfl
  have e2 : (setPhase tag .running [] s).safeLocked = s.safeLocked := rfl
  rw [if_neg (by rw [e1]; exact h1), if_neg (by rw [e1, e2]; exact h2)]
  rw [if_neg (by rw [e1, h.served]; simp)]

/-- The end of a body that left the tag table alone: the reply goes behind those that wait. -/
theorem settle_done {s u : State} {tag op status : Nat} {ws rep : List Word} (h : Starts s tag op ws)
    (hu : u.folio.tags = (begun s tag).folio.tags) :
    ∃ e, tagEntry s tag = some e ∧ settle tag (.done status rep u) = answered u e tag status rep := by
  obtain ⟨e, he, ho, hp, hm⟩ := h.entry
  refine ⟨e, he, ?_⟩
  have ht := tagEntry_tag he
  have hf : (u.folio.tags.find? fun x => x.tag = tag && x.phase ≠ .replied) =
      some { e with tag := tag, phase := .running, payload := [] } := by
    have hb := tagEntry_begun s tag tag
    rw [he] at hb
    simp only [Option.map_some, ht, if_true] at hb
    unfold tagEntry at hb
    rw [hu]
    have key : ∀ l : List TagEntry, ((l.map fun e => if e.tag = tag then { e with phase := TagPhase.running, payload := [] } else e).find?
        fun x => x.tag = tag && x.phase ≠ .replied) =
        (l.map fun e => if e.tag = tag then { e with phase := TagPhase.running, payload := [] } else e).find? fun x => x.tag = tag := by
      intro l
      induction l with
      | nil => rfl
      | cons a r ih =>
        simp only [List.map_cons, List.find?_cons]
        by_cases h : a.tag = tag
        · simp [h]
        · simp only [h, if_false]
          simpa [h] using ih
    exact (key s.folio.tags).trans hb
  show completeTag tag status rep u = _
  unfold completeTag
  rw [if_neg (by have := h.small; omega), hf]
  rfl

theorem answered_replied {s u : State} {e : TagEntry} {tag status : Nat} {rep : List Word} (he : tagEntry s tag = some e)
    (hu : u.folio.tags = (begun s tag).folio.tags) (hr : u.folio.replies = s.folio.replies) :
    Replied s (answered u e tag status rep) tag status rep := by
  have ht : ∀ n, tagEntry (answered u e tag status rep) n =
      ((tagEntry s n).map fun e => if e.tag = tag then { e with phase := .running, payload := [] } else e).map fun e =>
        if e.tag = tag then { e with phase := .replied, payload := [] } else e := by
    intro n
    rw [← tagEntry_begun]
    have hx := find_map_tag (l := u.folio.tags) (tag := tag) (n := n)
      (f := fun e => { e with phase := TagPhase.replied, payload := [] }) fun _ => rfl
    rw [hu] at hx
    show ((u.folio.tags.map fun x => if x.tag = tag then { x with phase := TagPhase.replied, payload := [] } else x).find?
      fun e => e.tag = n) = _
    rw [hu]
    exact hx
  refine ⟨⟨e, he, ?_⟩, ?_, fun n hn => ?_⟩
  · show u.folio.replies ++ _ = _
    rw [hr]
  · rw [ht, he]
    simp [tagEntry_tag he]
  · rw [ht]
    cases hh : tagEntry s n with
    | none => rfl
    | some x =>
      have := tagEntry_tag hh
      simp [this, hn]

/-- A command whose body ends without touching the tag table or the reply lane completes with its reply, and the rest of the
state is what the body made it. -/
theorem completes {s u : State} {tag op status : Nat} {ws rep : List Word} {body : List Word → State → CmdRes}
    (h : Starts s tag op ws) (hb : body ws (begun s tag) = .done status rep u)
    (hu : u.folio.tags = (begun s tag).folio.tags) (hr : u.folio.replies = s.folio.replies) :
    ∃ t, runCommand op tag body s = t ∧ Replied s t tag status rep ∧ ∃ f, t = { u with folio := f } := by
  obtain ⟨e, he, hs⟩ := settle_done (status := status) (rep := rep) h hu
  refine ⟨_, rfl, ?_, ?_⟩
  · rw [runCommand_starts h, hb, hs]
    exact answered_replied he hu hr
  · rw [runCommand_starts h, hb, hs]
    exact ⟨_, rfl⟩

/-- A command whose body waits leaves its entry running. -/
theorem waits {s u : State} {tag op : Nat} {ws : List Word} {body : List Word → State → CmdRes}
    (h : Starts s tag op ws) (hb : body ws (begun s tag) = .wait u)
    (hu : u.folio.tags = (begun s tag).folio.tags) (hr : u.folio.replies = s.folio.replies) :
    runCommand op tag body s = u ∧ Waiting s u tag := by
  obtain ⟨e, he, _⟩ := h.entry
  have ht : ∀ n, tagEntry u n = tagEntry (begun s tag) n := fun n => by unfold tagEntry; rw [hu]
  refine ⟨by rw [runCommand_starts h, hb]; rfl, hr, ?_, fun n hn => ?_⟩
  · rw [ht, tagEntry_begun, he]
    simp [tagEntry_tag he]
  · rw [ht, tagEntry_begun]
    cases hh : tagEntry s n with
    | none => rfl
    | some x =>
      have := tagEntry_tag hh
      simp [this, hn]

/-- UNIT and INDEX of the address word that a row builds. -/
theorem ad_word {u i : Nat} (hu : u < 16) (hi : i < 65536) :
    adUnit (wrd (u * 2 ^ 16 + i)) = u ∧ adIndex (wrd (u * 2 ^ 16 + i)) = i := by
  simp only [adUnit, adIndex, field, wrd, BitVec.toNat_ofNat]
  omega

/-- A row that writes one parameter, where nothing refuses the write: the value lands that the access codes leave (R110). -/
theorem writeRow_lands {s : State} {u i : Nat} {v : Word} (h : WritePasses s u i v) :
    ∃ p, paramInfo u i = some p ∧ hasBits v p.rsv = false ∧ checkParam s u i v = stOk ∧
      writeRow u i v s = landParam none s u i (landValue s u i p v) := by
  obtain ⟨au, ai⟩ := ad_word h.unit h.index
  have hc := h.codes
  have none_of : ∀ c, anyCode s [(wrd (u * 2 ^ 16 + i), v)] c = false := fun c => by
    simp only [anyCode, List.any_cons, List.any_nil, Bool.or_false, List.any_eq_false]
    intro x hx
    simp [hc x hx]
  have row : writeRow u i v s = hostWrite none u i v s := by
    unfold writeRow writeAllParams
    rw [if_pos ⟨h.served, h.unit, h.index⟩]
    simp only [none_of, Bool.false_eq_true, if_false, au, ai, forEach]
  unfold writeCodes at hc
  simp only [au, ai] at hc
  split at hc
  · simp at hc
  cases hp : paramInfo u i with
  | none => simp [hp] at hc
  | some p =>
    simp only [hp, List.mem_cons, List.mem_nil_iff, or_false, forall_eq_or_imp, forall_eq, Bool.or_eq_false_iff,
      decide_eq_false_iff_not, ne_eq, not_not] at hc
    exact ⟨p, rfl, hc.2.2.2.1.2, hc.2.2.2.2, by rw [row]; unfold hostWrite; rw [hp]⟩

end Sys2Proof.Laws
end

