-- ==== Sys2Proof/Laws/Memory.lean ====
section
/-!
SUPPORT. What memory does: a read changes marks, stored errors and counts and no byte (`ReadStep`), a read of clean words changes
no mark (`Cleaner`), a store of a range changes its own bytes only, and what stands at once reads back (`StoreStep`, `Stores1`).
-/
namespace Sys2Proof.Laws

open Sys2Proof.Machine Sys2Proof.Safety

theorem recordEvent_quiet (s : State) (e : Event) (h : e.cls ≠ 2) (h2 : eventDrive e = none) (h3 : e.code ≠ 0x0902) :
    recordEvent s e = { s with book := { s.book with inq := evInsert s.book.inq e } } := by
  have hc : ∀ b (s : State), capTrigger e b s = s := fun b s => by unfold capTrigger; rw [if_neg (by simp [h, h3])]
  unfold recordEvent
  simp only [h, if_false, h2]
  simp [forUpTo, hc]

/-- From `s` to `t` only what a read of memory may change differs: parameters, marks, stored errors and event records (R380 to R382). -/
def ReadStep (s t : State) : Prop := ∃ P mk er ce q, t = { s with
  par := P, mem := { s.mem with marks := mk, errs := er, ceTick := ce }, book := { s.book with inq := q } }

theorem ReadStep.refl (s : State) : ReadStep s s := ⟨_, _, _, _, _, rfl⟩
theorem ReadStep.trans {s t u : State} (h : ReadStep s t) (k : ReadStep t u) : ReadStep s u := by
  obtain ⟨P, mk, er, ce, q, rfl⟩ := h
  obtain ⟨P', mk', er', ce', q', rfl⟩ := k
  exact ⟨P', mk', er', ce', q', rfl⟩
theorem read_parCount (s : State) (u i n : Nat) : ReadStep s (parCount s u i n) := ⟨_, _, _, _, _, rfl⟩
theorem read_setErr (s : State) (a : Nat) (e : EccErr) : ReadStep s (setErr s a e) := ⟨_, _, _, _, _, rfl⟩
theorem read_setMark (s : State) (a : Nat) (m : Mark) : ReadStep s (setMark s a m) := ⟨_, _, _, _, _, rfl⟩
theorem read_record {s : State} {code idx : Nat} {args : List Word} (h : eventClass code ≠ 2)
    (hc : ¬ (code = 0x0404 ∨ code = 0x0902 ∨ code = 0x0903 ∨ code = 0x0906)) : ReadStep s (recordUntested s code idx args) := by
  unfold recordUntested
  split
  · exact .refl _
  · unfold record
    rw [recordEvent_quiet _ _ h (by unfold eventDrive; exact if_neg hc) (fun e => hc (.inr (.inl e)))]
    exact ⟨_, _, _, _, _, rfl⟩
theorem read_noteCorrected (s : State) (a : Nat) : ReadStep s (noteCorrected s a) := by
  unfold noteCorrected
  extract_lets g quiet
  by_cases h : quiet = true
  · rw [if_pos h]
    exact ReadStep.trans (t := { s with mem := { s.mem with ceTick := tblSet s.mem.ceTick none g (some s.now) } })
      ⟨_, _, _, _, _, rfl⟩ (read_record (by decide) (by decide))
  · rw [if_neg h]; exact .refl _
theorem read_ite {s a b : State} {c : Prop} [Decidable c] (h : ReadStep s a) (k : ReadStep s b) : ReadStep s (if c then a else b) := by
  split
  · exact h
  · exact k
theorem read_eccRead (s : State) (a : Nat) (back raced : Bool) : ReadStep s (eccRead s a back raced) := by
  unfold eccRead
  extract_lets k can u w
  split
  · exact .refl _
  · have h1 : ReadStep s u := (read_parCount ..).trans (read_noteCorrected ..)
    clear_value u
    exact read_ite h1 (read_ite (h1.trans (read_parCount ..)) ((h1.trans (read_setErr ..)).trans (read_parCount ..)))
  · have h2 : ReadStep s w := (read_parCount ..).trans (read_record (by decide) (by decide))
    clear_value w
    exact read_ite h2 (read_ite (h2.trans (read_parCount ..)) (((h2.trans (read_setErr ..)).trans (read_setMark ..)).trans (read_parCount ..)))
theorem read_mapRead (s : State) (a : Nat) : ReadStep s (mapRead s a) := by
  unfold mapRead; split
  · exact read_eccRead ..
  · exact .refl _
theorem read_demandRead (s : State) (a : Nat) : ReadStep s (demandRead s a) := by
  unfold demandRead; dsimp only; split
  · exact read_mapRead ..
  · exact (read_mapRead ..).trans (read_eccRead ..)
theorem read_hostRead (n : Nat) : ∀ (a : Nat) (s : State), ReadStep s (hostRead n a s).1 := by
  induction n with
  | zero => intro a s; exact .refl _
  | succ n ih => intro a s; exact (read_demandRead s a).trans (ih _ _)

/-- A read that meets no uncorrectable word: no mark changes, and no stored error but to be corrected. -/
def Cleaner (s t : State) : Prop :=
  ReadStep s t ∧ t.mem.marks = s.mem.marks ∧
    ∀ k, tblGet t.mem.errs .none k = tblGet s.mem.errs .none k ∨ tblGet t.mem.errs .none k = EccErr.none

theorem Cleaner.refl (s : State) : Cleaner s s := ⟨.refl s, rfl, fun _ => .inl rfl⟩
theorem Cleaner.trans {s t u : State} (h : Cleaner s t) (k : Cleaner t u) : Cleaner s u := by
  refine ⟨h.1.trans k.1, k.2.1.trans h.2.1, fun x => ?_⟩
  rcases k.2.2 x with e | e
  · rw [e]; exact h.2.2 x
  · exact .inr e
theorem cleaner_same {s t : State} (h : ReadStep s t) (hm : t.mem.marks = s.mem.marks) (he : t.mem.errs = s.mem.errs) : Cleaner s t :=
  ⟨h, hm, fun _ => .inl (by rw [he])⟩
theorem cleaner_parCount (s : State) (u i n : Nat) : Cleaner s (parCount s u i n) := cleaner_same (read_parCount ..) rfl rfl
theorem cleaner_record {s : State} {code idx : Nat} {args : List Word} (h : eventClass code ≠ 2)
    (hc : ¬ (code = 0x0404 ∨ code = 0x0902 ∨ code = 0x0903 ∨ code = 0x0906)) : Cleaner s (recordUntested s code idx args) := by
  refine cleaner_same (read_record h hc) ?_ ?_
  all_goals
    unfold recordUntested
    split
    · rfl
    · unfold record
      rw [recordEvent_quiet _ _ h (by unfold eventDrive; exact if_neg hc) (fun e => hc (.inr (.inl e)))]
theorem cleaner_noteCorrected (s : State) (a : Nat) : Cleaner s (noteCorrected s a) := by
  unfold noteCorrected
  extract_lets g quiet
  by_cases h : quiet = true
  · rw [if_pos h]
    exact Cleaner.trans (t := { s with mem := { s.mem with ceTick := tblSet s.mem.ceTick none g (some s.now) } })
      (cleaner_same ⟨_, _, _, _, _, rfl⟩ rfl rfl) (cleaner_record (by decide) (by decide))
  · rw [if_neg h]; exact .refl _
theorem cleaner_setErr (s : State) (a : Nat) : Cleaner s (setErr s a .none) :=
  ⟨read_setErr .., rfl, fun k => by
    by_cases h : k = a / 8
    · right; subst h; exact tblGet_write_self s.mem.errs EccErr.none EccErr.none (a / 8)
    · left; exact tblGet_write_ne s.mem.errs EccErr.none EccErr.none EccErr.none h⟩
theorem cleaner_ite {s a b : State} {c : Prop} [Decidable c] (h : Cleaner s a) (k : Cleaner s b) : Cleaner s (if c then a else b) := by
  split
  · exact h
  · exact k
theorem cleaner_eccRead (s : State) (a : Nat) (back raced : Bool) (h : errAt s a ≠ .multi) : Cleaner s (eccRead s a back raced) := by
  unfold eccRead
  extract_lets k can u w
  split
  · exact .refl _
  · have h1 : Cleaner s u := (cleaner_parCount ..).trans (cleaner_noteCorrected ..)
    clear_value u
    exact cleaner_ite h1 (cleaner_ite (h1.trans (cleaner_parCount ..)) ((h1.trans (cleaner_setErr ..)).trans (cleaner_parCount ..)))
  · exact absurd ‹_› h

theorem ReadStep.wmap {s t : State} (h : ReadStep s t) : t.mem.wmap = s.mem.wmap := by obtain ⟨_, _, _, _, _, rfl⟩ := h; rfl
theorem ReadStep.fills {s t : State} (h : ReadStep s t) : t.mem.fills = s.mem.fills := by obtain ⟨_, _, _, _, _, rfl⟩ := h; rfl
theorem ReadStep.cells {s t : State} (h : ReadStep s t) : t.mem.cells = s.mem.cells := by obtain ⟨_, _, _, _, _, rfl⟩ := h; rfl
theorem ReadStep.density {s t : State} (h : ReadStep s t) : t.mem.density = s.mem.density := by obtain ⟨_, _, _, _, _, rfl⟩ := h; rfl
theorem ReadStep.free {s t : State} (h : ReadStep s t) : t.free = s.free := by obtain ⟨_, _, _, _, _, rfl⟩ := h; rfl
theorem readWord_cells {s t : State} (h : t.mem.cells = s.mem.cells) (a : Nat) : readWord t a = readWord s a := by
  unfold readWord readByte; rw [h]
theorem Cleaner.bad {s t : State} (h : Cleaner s t) {b : Nat} (hb : wmapBad s b = false) : wmapBad t b = false := by
  unfold wmapBad markAt at *
  rw [h.2.1]
  simp only [Bool.or_eq_false_iff, decide_eq_false_iff_not] at *
  refine ⟨hb.1, ?_⟩
  rcases h.2.2 (wmapAddr b / 8) with e | e
  · rw [e]; exact hb.2
  · rw [e]; decide

/-- A word that no error and no mark touches. -/
def Clean (s : State) (a : Nat) : Prop := errAt s a = .none ∧ wordMark s a = .none

theorem Clean.bad {s : State} {a : Nat} (h : Clean s a) (h2 : memOf a = 2) : wmapBad s (lpBlock a) = false := by
  have := h.2
  unfold wordMark at this
  rw [if_pos h2] at this
  by_cases hb : wmapBad s (lpBlock a) = true
  · rw [if_pos hb] at this; cases this
  · simpa using hb
theorem Clean.after {s t : State} {a : Nat} (h : Cleaner s t) (hc : Clean s a) : Clean t a := by
  have he : errAt t a = .none := by
    unfold errAt; rcases h.2.2 (a / 8) with e | e
    · rw [e]; exact hc.1
    · exact e
  refine ⟨he, ?_⟩
  have hw := hc.2
  have hs : storedMark t a = storedMark s a := by
    unfold storedMark markAt; rw [he, hc.1, h.2.1]
  by_cases h2 : memOf a = 2
  · have hb := hc.bad h2
    have hb' := h.bad hb
    unfold wordMark blockWritten at *
    rw [if_pos h2, hb] at hw
    rw [if_pos h2, hb', h.1.wmap, hs]
    exact hw
  · unfold wordMark at *
    rw [if_neg h2] at *
    rw [hs]; exact hw
theorem clean_demandRead {s : State} {a : Nat} (h : Clean s a) : Cleaner s (demandRead s a) := by
  have hm : Cleaner s (mapRead s a) := by
    unfold mapRead
    split
    · refine cleaner_eccRead _ _ _ _ ?_
      have := h.bad ‹_›
      unfold wmapBad at this
      simp only [Bool.or_eq_false_iff, decide_eq_false_iff_not] at this
      exact this.2
    · exact .refl _
  unfold demandRead
  dsimp only
  refine cleaner_ite hm (hm.trans (cleaner_eccRead _ _ _ _ ?_))
  rw [(Clean.after hm h).1]; decide

theorem regionAt_read {s t : State} (h : ReadStep s t) (a : Nat) : regionAt t a = regionAt s a := by
  unfold regionAt lpRegion lpUsable; rw [h.density]
theorem hostWord_read {s t : State} (h : ReadStep s t) (a : Nat) : hostWord t a = hostWord s a := by
  unfold hostWord regionNum wmapWord blockWritten
  rw [regionAt_read h, readWord_cells h.cells, h.wmap, h.free]

/-- The words that a host read of `n` words delivers, and that words without error or mark carry no mark (R398). -/
theorem hostRead_words (n : Nat) : ∀ (a : Nat) (s : State), (hostRead n a s).2.map (fun x => x.1) =
    (List.range n).map fun i => hostWord s (a + 4 * i) := by
  induction n with
  | zero => intro a s; rfl
  | succ n ih =>
    intro a s
    show hostWord (demandRead s a) a :: (hostRead n (a + 4) (demandRead s a)).2.map _ = _
    rw [ih, List.range_succ_eq_map, List.map_cons, List.map_map, hostWord_read (read_demandRead s a)]
    refine congrArg₂ _ rfl (List.map_congr_left fun i _ => ?_)
    rw [hostWord_read (read_demandRead s a)]
    simp only [Function.comp_apply, Nat.succ_eq_add_one]
    congr 1; omega
theorem hostRead_clean (n : Nat) : ∀ (a : Nat) (s : State), (∀ i, i < n → Clean s (a + 4 * i)) →
    (hostRead n a s).2.map (fun x => x.2) = List.replicate n Mark.none := by
  induction n with
  | zero => intro a s _; rfl
  | succ n ih =>
    intro a s h
    have h0 : Clean s a := h 0 (by omega)
    have hd := clean_demandRead h0
    show wordMark (demandRead s a) a :: (hostRead n (a + 4) (demandRead s a)).2.map _ = _
    rw [ih (a + 4) (demandRead s a) fun i hi => Clean.after hd (by have := h (i + 1) (by omega); rwa [show a + 4 * (i + 1) = a + 4 + 4 * i by omega] at this),
      (Clean.after hd h0).2]
    rfl

/-- From `s` to `t` only what a store of memory may change differs; the capture buffers stay. -/
def StoreStep (s t : State) : Prop := ∃ P M q, t = { s with par := P, mem := M, book := { s.book with inq := q } } ∧ M.caps = s.mem.caps

theorem StoreStep.refl (s : State) : StoreStep s s := ⟨_, _, _, rfl, rfl⟩
theorem StoreStep.trans {s t u : State} (h : StoreStep s t) (k : StoreStep t u) : StoreStep s u := by
  obtain ⟨P, M, q, rfl, hc⟩ := h
  obtain ⟨P', M', q', rfl, hc'⟩ := k
  exact ⟨P', M', q', rfl, hc'.trans hc⟩
theorem ReadStep.store {s t : State} (h : ReadStep s t) : StoreStep s t := by
  obtain ⟨P, mk, er, ce, q, rfl⟩ := h
  exact ⟨_, _, _, rfl, rfl⟩
theorem store_mem {s : State} {M : Memory} (h : M.caps = s.mem.caps) : StoreStep s { s with mem := M } := ⟨_, _, _, rfl, h⟩

theorem readByte_writeByte (s : State) (a b : Nat) (v : Byte) :
    readByte (writeByte s a v) b = if b = a then v else readByte s b := tblGet_write ..
theorem writeWord_out (s : State) (a : Nat) (w : Word) {b : Nat} (h : b < a ∨ a + 4 ≤ b) : readByte (writeWord s a w) b = readByte s b := by
  unfold writeWord
  simp only [readByte_writeByte]
  rw [if_neg (by omega), if_neg (by omega), if_neg (by omega), if_neg (by omega)]
theorem readWord_congr {s t : State} {a : Nat} (h : ∀ k, k < 4 → readByte t (a + k) = readByte s (a + k)) : readWord t a = readWord s a := by
  have h0 : readByte t a = readByte s a := h 0 (by omega)
  unfold readWord
  rw [h0, h 1 (by omega), h 2 (by omega), h 3 (by omega)]
theorem writeWord_in (s : State) (a : Nat) (w : Word) : readWord (writeWord s a w) a = w := by
  have e0 : readByte (writeWord s a w) a = w.extractLsb' 0 8 := by unfold writeWord; simp [readByte_writeByte]
  have e1 : readByte (writeWord s a w) (a + 1) = w.extractLsb' 8 8 := by unfold writeWord; simp [readByte_writeByte]
  have e2 : readByte (writeWord s a w) (a + 2) = w.extractLsb' 16 8 := by unfold writeWord; simp [readByte_writeByte]
  have e3 : readByte (writeWord s a w) (a + 3) = w.extractLsb' 24 8 := by unfold writeWord; simp [readByte_writeByte]
  unfold readWord
  rw [e0, e1, e2, e3]
  apply BitVec.eq_of_toNat_eq
  simp only [wrd, BitVec.toNat_ofNat, BitVec.extractLsb'_toNat, Nat.shiftRight_eq_div_pow]
  have := w.isLt
  omega

/-- Nothing but the marks and errors of the written-map, and the map, changes when the map word of a block is rewritten. -/
theorem setBlock_step (s : State) (b : Nat) : StoreStep s (setBlock s b) ∧ (setBlock s b).mem.cells = s.mem.cells ∧
    (setBlock s b).mem.fills = s.mem.fills ∧ ∀ k, blockWritten s k = true → blockWritten (setBlock s b) k = true := by
  have one : ∀ (u : State) (k : Nat), StoreStep u { u with mem := { u.mem with wmap := tblSet u.mem.wmap false k true } } ∧
      ∀ j, blockWritten u j = true → blockWritten { u with mem := { u.mem with wmap := tblSet u.mem.wmap false k true } } j = true :=
    fun u k => ⟨store_mem rfl, fun j hj => by
      unfold blockWritten at *
      show tblGet (tblSet u.mem.wmap false k true) false j = true
      rw [tblGet_write]; split
      · rfl
      · exact hj⟩
  unfold setBlock
  split
  · have go : ∀ (n : Nat) (u : State), StoreStep u (forUpTo n (fun k s => { s with mem := { s.mem with
          wmap := tblSet s.mem.wmap false (b / 64 * 64 + k) true } }) u) ∧
        (forUpTo n (fun k s => { s with mem := { s.mem with wmap := tblSet s.mem.wmap false (b / 64 * 64 + k) true } }) u).mem.cells = u.mem.cells ∧
        (forUpTo n (fun k s => { s with mem := { s.mem with wmap := tblSet s.mem.wmap false (b / 64 * 64 + k) true } }) u).mem.fills = u.mem.fills ∧
        ∀ j, blockWritten u j = true → blockWritten (forUpTo n (fun k s => { s with mem := { s.mem with
          wmap := tblSet s.mem.wmap false (b / 64 * 64 + k) true } }) u) j = true := by
      intro n
      induction n with
      | zero => intro u; exact ⟨.refl _, rfl, rfl, fun _ h => h⟩
      | succ n ih =>
        intro u
        obtain ⟨h1, h2, h3, h4⟩ := ih u
        unfold forUpTo
        exact ⟨h1.trans (one _ _).1, h2, h3, fun j hj => (one _ _).2 j (h4 j hj)⟩
    obtain ⟨h1, h2, h3, h4⟩ := go 64 (setErr (setMark s (wmapAddr b) .none) (wmapAddr b) .none)
    exact ⟨((read_setMark ..).trans (read_setErr ..)).store.trans h1, h2, h3, fun j hj => h4 j hj⟩
  · exact ⟨(one _ _).1, rfl, rfl, (one _ _).2⟩

/-- A word whose block takes stores at once. -/
def Lands (s : State) (a : Nat) : Prop := memOf a ≠ 2 ∨ (blockWritten s (lpBlock a) = true ∧ blockFilling s (lpBlock a) = false)

/-- The store `t` of word `w` at `a` after `s`. -/
structure Stores1 (s : State) (a : Nat) (w : Word) (t : State) : Prop where
  step : StoreStep s t
  out : ∀ b, b < a ∨ a + 4 ≤ b → readByte t b = readByte s b
  lands : ∀ b, Lands s b → Lands s a → Lands t b
  back : Lands s a → readWord t a = w
theorem Stores1.after {s u t : State} {a : Nat} {w : Word} (h : ReadStep s u) (k : Stores1 u a w t) : Stores1 s a w t := by
  have hb : ∀ b, readByte u b = readByte s b := fun b => by unfold readByte; rw [h.cells]
  have hl : ∀ b, Lands u b ↔ Lands s b := fun b => by unfold Lands blockWritten blockFilling; rw [h.wmap, h.fills]
  exact ⟨h.store.trans k.step, fun b hb' => (k.out b hb').trans (hb b), fun b x y => k.lands b ((hl b).2 x) ((hl a).2 y), fun x => k.back ((hl a).2 x)⟩
/-- The state with these bytes of memory. -/
def withCells (s : State) (C : List Host.Cell) : State := { s with mem := { s.mem with cells := C } }
theorem writeByte_cells (s : State) (C : List Host.Cell) (a : Nat) (b : Byte) :
    writeByte (withCells s C) a b = withCells s (tblSet C 0 a b) := rfl
theorem writeWord_cells (s : State) (a : Nat) (w : Word) : ∃ C, writeWord s a w = withCells s C := by
  unfold writeWord
  rw [show writeByte s a (w.extractLsb' 0 8) = withCells s (tblSet s.mem.cells 0 a (w.extractLsb' 0 8)) from rfl]
  simp only [writeByte_cells]
  exact ⟨_, rfl⟩
theorem stores_write (s : State) (a : Nat) (w : Word) : Stores1 s a w (writeWord s a w) := by
  have h1 : ∀ b, b < a ∨ a + 4 ≤ b → readByte (writeWord s a w) b = readByte s b := fun _ => writeWord_out s a w
  have h2 := writeWord_in s a w
  obtain ⟨C, e⟩ := writeWord_cells s a w
  rw [e] at h2 ⊢
  simp only [e] at h1
  exact ⟨⟨s.par, { s.mem with cells := C }, s.book.inq, rfl, rfl⟩, h1, fun _ x _ => x, fun _ => h2⟩
theorem stores_fill {s : State} {a : Nat} {w : Word} {F : List (Nat × List (Nat × Word))} (h : ¬ Lands s a) :
    Stores1 s a w { s with mem := { s.mem with fills := F } } :=
  ⟨store_mem rfl, fun _ _ => rfl, fun _ _ x => absurd x h, fun x => absurd x h⟩
theorem stores_block (s : State) (a b : Nat) (w : Word) : Stores1 s a w (writeWord (setBlock s b) a w) := by
  obtain ⟨b1, b2, b3, b4⟩ := setBlock_step s b
  have hl : ∀ k, Lands s k → Lands (setBlock s b) k := fun k h => h.elim .inl fun h => .inr ⟨b4 _ h.1, by
    unfold blockFilling at *; rw [b3]; exact h.2⟩
  have k := stores_write (setBlock s b) a w
  have hb : ∀ k, readByte (setBlock s b) k = readByte s k := fun k => by unfold readByte; rw [b2]
  generalize setBlock s b = u at *
  refine ⟨b1.trans k.step, fun x hx => (k.out x hx).trans (hb x), fun x h1 h2 => k.lands x (hl x h1) (hl a h2), fun h => k.back (hl a h)⟩
theorem storeWord_step (s : State) (a : Nat) (w : Word) : Stores1 s a w (storeWord a w s) := by
  refine Stores1.after (read_mapRead s a) ?_
  unfold storeWord
  dsimp only
  generalize mapRead s a = u
  by_cases h2 : memOf a = 2
  · rw [if_neg (by simp [h2])]
    by_cases hf : blockFilling u (lpBlock a) = true
    · rw [if_pos hf]
      exact stores_fill fun h => h.elim (fun h => h h2) fun h => by rw [hf] at h; cases h.2
    · rw [if_neg hf]
      by_cases hb : wmapBad u (lpBlock a) = true
      · rw [if_pos hb]; exact stores_block ..
      · rw [if_neg hb]
        by_cases hw : blockWritten u (lpBlock a) = true
        · rw [if_pos hw]; exact stores_write ..
        · rw [if_neg hw]
          exact stores_fill fun h => h.elim (fun h => h h2) fun h => hw h.1
  · rw [if_pos h2]; exact stores_write ..

theorem storeWords_step (ws : List Word) : ∀ (a : Nat) (s : State), StoreStep s (storeWords a ws s) ∧
    (∀ b, b < a ∨ a + 4 * ws.length ≤ b → readByte (storeWords a ws s) b = readByte s b) ∧
    ((∀ i, i < ws.length → Lands s (a + 4 * i)) → ∀ i, i < ws.length → readWord (storeWords a ws s) (a + 4 * i) = ws.getD i 0) := by
  induction ws with
  | nil => intro a s; exact ⟨.refl _, fun _ _ => rfl, fun _ i hi => absurd hi (Nat.not_lt_zero i)⟩
  | cons w r ih =>
    intro a s
    have h := storeWord_step s a w
    obtain ⟨k1, k2, k3⟩ := ih (a + 4) (storeWord a w s)
    have len : (w :: r).length = r.length + 1 := rfl
    refine ⟨h.step.trans k1, fun b hb => ?_, fun hl i hi => ?_⟩
    · rw [len] at hb
      exact (k2 b (by omega)).trans (h.out b (by omega))
    · rw [len] at hl hi
      have ha : Lands s a := hl 0 (by omega)
      cases i with
      | zero =>
        have : ∀ k, k < 4 → readByte (storeWords (a + 4) r (storeWord a w s)) (a + k) = readByte (storeWord a w s) (a + k) :=
          fun k hk => k2 _ (by omega)
        show readWord (storeWords (a + 4) r (storeWord a w s)) a = w
        exact (readWord_congr this).trans (h.back ha)
      | succ i =>
        have := k3 (fun j hj => h.lands _ (by have := hl (j + 1) (by omega); rwa [show a + 4 * (j + 1) = a + 4 + 4 * j by omega] at this) ha) i (by omega)
        rw [show a + 4 * (i + 1) = a + 4 + 4 * i by omega]
        exact this

/-- What a store of a range of words does: no byte outside it changes, and where every word lands at once each reads back (R387, R399). -/
theorem storeRange_step (ws : List Word) (a : Nat) (s : State) : StoreStep s (storeRange a ws s) ∧
    (∀ b, b < a ∨ a + 4 * ws.length ≤ b → readByte (storeRange a ws s) b = readByte s b) ∧
    ((∀ i, i < ws.length → Lands s (a + 4 * i)) → ∀ i, i < ws.length → readWord (storeRange a ws s) (a + 4 * i) = ws.getD i 0) := by
  unfold storeRange
  extract_lets hi u v
  have hu : ReadStep s u := read_ite ((read_demandRead ..).trans (read_setErr ..)) (.refl _)
  have hv : ReadStep s v := hu.trans (read_ite ((read_demandRead ..).trans (read_setErr ..)) (.refl _))
  clear_value v
  obtain ⟨h1, h2, h3⟩ := storeWords_step ws a v
  have hl : ∀ b, Lands v b ↔ Lands s b := fun b => by unfold Lands blockWritten blockFilling; rw [hv.wmap, hv.fills]
  have hc : ∀ (w : State) (x y : Nat), (freshWords w x y).mem.cells = w.mem.cells := fun _ _ _ => rfl
  refine ⟨(hv.store.trans h1).trans (store_mem rfl), fun b hb => ?_, fun l i hi => ?_⟩
  · refine Eq.trans (h2 b hb) ?_
    unfold readByte; rw [hv.cells]
  · exact h3 (fun j hj => (hl _).2 (l j hj)) i hi
theorem checked3 {s : State} {a b c : Bool} {x y z : Nat} {k : CmdRes} (ha : a = false) (hb : b = false) (hc : c = false) :
    checked s [(a, x), (b, y), (c, z)] k = k := by subst ha hb hc; rfl
/-- Two regions share no byte. -/
def farApart (x y : Region) : Bool := decide (x.base + x.size ≤ y.base) || decide (y.base + y.size ≤ x.base)
theorem regions_apart (s : State) : (fixedRegions ++ [lpRegion s]).Pairwise fun x y => farApart x y = true := by
  rw [List.pairwise_append]
  refine ⟨by decide, List.pairwise_singleton .., fun x hx y hy => ?_⟩
  rw [List.mem_singleton] at hy
  subst hy
  have : ∀ x ∈ fixedRegions, x.base + x.size ≤ lpBase := by decide
  unfold farApart
  simp [show (lpRegion s).base = lpBase from rfl, this x hx]
theorem region_of {s : State} {a : Nat} {r : Region} (h : regionAt s a = some r) {b : Nat} (hb : r.base ≤ b ∧ b < r.base + r.size) :
    regionAt s b = some r := by
  have hp := regions_apart s
  unfold regionAt at *
  obtain ⟨ha, as, bs, e, hn⟩ := List.find?_eq_some_iff_append.1 h
  rw [List.find?_eq_some_iff_append]
  refine ⟨by simp [hb.1, hb.2], as, bs, e, fun x hx => ?_⟩
  rw [e, List.pairwise_append] at hp
  have := hp.2.2 x hx r (List.mem_cons_self ..)
  unfold farApart at this
  simp only [Bool.or_eq_true, decide_eq_true_eq] at this
  simp only [Bool.not_eq_true', Bool.and_eq_false_iff, decide_eq_false_iff_not]
  omega
theorem region_base {s : State} {a : Nat} {r : Region} (h : regionAt s a = some r) : r.base ≤ a := by
  unfold regionAt at h
  have := List.find?_some h
  simp at this; exact this.1
theorem bitmapWords_length (l : List Bool) : (bitmapWords l).length = (l.length + 31) / 32 := by simp [bitmapWords]
theorem marksStatus_mem (l : List Mark) : marksStatus l ∈ [0, stPoison, stUnwritten] := by
  unfold marksStatus; split
  · simp
  · split <;> simp [stOk]
theorem marksStatus_clean (n : Nat) : marksStatus (List.replicate n Mark.none) = 0 := by
  have : ∀ m, m ≠ Mark.none → (List.replicate n Mark.none).contains m = false := fun m hm => by
    rw [List.contains_eq_mem]; simp [List.mem_replicate, hm]
  unfold marksStatus
  rw [this _ (by decide), this _ (by decide)]; rfl
theorem plain_word {s : State} {a n : Nat} (hin : insideRegion s a n = true) (hg : regionNum s a ∈ [8, 9, 16, 17, 32]) {i : Nat} (hi : i < n) :
    hostWord s (a + 4 * i) = readWord s (a + 4 * i) := by
  unfold insideRegion at hin
  cases hr : regionAt s a with
  | none => rw [hr] at hin; cases hin
  | some r =>
    rw [hr] at hin
    simp only [decide_eq_true_eq] at hin
    have hb := region_base hr
    have hc := region_of hr (b := a + 4 * i) (by omega)
    have : regionNum s (a + 4 * i) = regionNum s a := by unfold regionNum; rw [hr, hc]
    unfold hostWord
    extract_lets g
    rw [if_pos (by
      have : g = regionNum s a := this
      rw [this]
      simpa using hg)]
theorem lpNote_same (s : State) (a : Nat) : ∃ m, lpNote s a = { s with mem := { s.mem with lpMost := m } } := by
  unfold lpNote; split
  · exact ⟨_, rfl⟩
  · exact ⟨s.mem.lpMost, rfl⟩

theorem hasBits_small {n k : Nat} {m : Word} (hk : k < 32) (hm : m.toNat % 2 ^ k = 0) (hn : n < 2 ^ k) : hasBits (wrd n) m = false := by
  unfold hasBits
  simp only [ne_eq, decide_eq_false_iff_not, not_not]
  apply BitVec.eq_of_toNat_eq
  have h2 : 2 ^ k < 2 ^ 32 := Nat.pow_lt_pow_right (by decide) hk
  have hw : (wrd n).toNat = n := by show n % 2 ^ 32 = n; exact Nat.mod_eq_of_lt (by omega)
  rw [BitVec.toNat_and, hw]
  show n &&& m.toNat = 0
  apply Nat.eq_of_testBit_eq
  intro j
  rw [Nat.testBit_and, Nat.zero_testBit]
  by_cases hj : j < k
  · have := congrArg (fun x => Nat.testBit x j) hm
    simp only [Nat.testBit_mod_two_pow, hj, decide_true, Bool.true_and, Nat.zero_testBit] at this
    rw [this, Bool.and_false]
  · rw [Nat.testBit_lt_two_pow (Nat.lt_of_lt_of_le hn (Nat.pow_le_pow_right (by decide) (by omega))), Bool.false_and]
theorem regionAt_congr {s t : State} (h : t.mem.density = s.mem.density) (a : Nat) : regionAt t a = regionAt s a := by
  unfold regionAt lpRegion lpUsable; rw [h]
theorem lpWaits_congr {s t : State} (h : t.mem = s.mem) (a n : Nat) (w : Bool) : lpWaits t a n w = lpWaits s a n w := by
  unfold lpWaits; rw [h]
theorem clean_congr {s t : State} (h1 : t.mem.errs = s.mem.errs) (h2 : t.mem.marks = s.mem.marks) (h3 : t.mem.wmap = s.mem.wmap) {a : Nat}
    (h : errAt s a = .none ∧ wordMark s a = .none) : Clean t a := by
  unfold Clean
  have e : ∀ x, errAt t x = errAt s x := fun x => by unfold errAt; rw [h1]
  have m : ∀ x, markAt t x = markAt s x := fun x => by unfold markAt; rw [h2]
  have sm : storedMark t a = storedMark s a := by unfold storedMark; rw [e, m]
  have wb : ∀ b, wmapBad t b = wmapBad s b := fun b => by unfold wmapBad; rw [m, h1]
  have bw : ∀ b, blockWritten t b = blockWritten s b := fun b => by unfold blockWritten; rw [h3]
  refine ⟨(e a).trans h.1, Eq.trans ?_ h.2⟩
  unfold wordMark; rw [sm, wb, bw]
theorem readable_congr {s t : State} (h : t.mem.density = s.mem.density) (a : Nat) : readable t a = readable s a := by
  unfold readable; rw [regionAt_congr h]
theorem insideRegion_congr {s t : State} (h : t.mem.density = s.mem.density) (a n : Nat) : insideRegion t a n = insideRegion s a n := by
  unfold insideRegion; rw [regionAt_congr h]
theorem regionNum_congr {s t : State} (h : t.mem.density = s.mem.density) (a : Nat) : regionNum t a = regionNum s a := by
  unfold regionNum; rw [regionAt_congr h]
theorem first_getD (l : List (Word × Mark)) (x y : List Word) {i n : Nat} (f : Nat → Word) (hl : l.map (fun x => x.1) = (List.range n).map f)
    (hi : i < n) : (l.map (fun x => x.1) ++ x ++ y).getD i 0 = f i := by
  have hlen : l.length = n := by simpa using congrArg List.length hl
  rw [List.append_assoc, List.getD_append _ _ _ _ (by simpa [hlen] using hi), hl]
  simp only [List.getD_eq_getElem?_getD, List.getElem?_map, List.getElem?_range hi, Option.map_some, Option.getD_some]

end Sys2Proof.Laws
end

