-- ==== Sys2Proof/Laws/Writes.lean ====
section
/-!
SUPPORT. What writes of parameters do: which bits of a write land, what a write of PAIR_CFG can change (`OnlyPair`, the band a pair has
`chosen`), when MRAM takes a write, and what issuing requests of LPDDR5 leaves alone.
-/
namespace Sys2Proof.Laws
open Sys2Proof.Machine Sys2Proof.Safety

/-- From `s` to `t` only pair `p` of Hatch and the records of events may differ. -/
def OnlyPair (p : Nat) (s t : State) : Prop :=
  (∃ P q, t = { s with hatch := { s.hatch with pairs := P }, book := { s.book with inq := q } }) ∧ ∀ o, o ≠ p → t.pair o = s.pair o
theorem OnlyPair.refl (p : Nat) (s : State) : OnlyPair p s s := ⟨⟨s.hatch.pairs, s.book.inq, rfl⟩, fun _ _ => rfl⟩
theorem OnlyPair.trans {p : Nat} {s t u : State} (h : OnlyPair p s t) (k : OnlyPair p t u) : OnlyPair p s u := by
  obtain ⟨⟨P, q, rfl⟩, h⟩ := h
  obtain ⟨⟨P', q', rfl⟩, k⟩ := k
  exact ⟨⟨P', q', rfl⟩, fun o ho => (k o ho).trans (h o ho)⟩
theorem OnlyPair.upd (p : Nat) (s : State) (f : Pair → Pair) : OnlyPair p s (s.updPair p f) :=
  ⟨⟨_, s.book.inq, rfl⟩, fun o ho => by simp [ho]⟩
theorem only_drivePair (s : State) (p : Nat) (a b : Bool) : OnlyPair p s (drivePair s p a b) := by
  unfold drivePair; exact .upd ..
theorem only_refPair (s : State) (p : Nat) (v : Bool) : OnlyPair p s (refPair s p v) := by
  unfold refPair; split
  · exact only_drivePair ..
  · exact .upd ..
theorem only_setRef (s : State) (p : Nat) (v : Bool) : OnlyPair p s (setRef s p v) := by
  unfold setRef; dsimp only; split
  · exact .refl ..
  · split
    · exact (OnlyPair.upd ..).trans (only_refPair ..)
    · exact .upd ..
theorem only_landPair (s : State) (p w : Nat) : OnlyPair p s (landPair s p w) := by
  unfold landPair; dsimp only
  repeat' split
  all_goals first | exact .refl .. | exact .upd .. | exact (OnlyPair.upd ..).trans (only_setRef ..)
theorem only_movePair (s : State) (p : Nat) : OnlyPair p s (movePair p s) := by
  unfold movePair; split
  · exact only_landPair ..
  · exact (OnlyPair.upd ..).trans (only_setRef ..)
theorem only_takeLayer (s : State) (p n : Nat) : OnlyPair p s (takeLayer s p n) := by
  have h0 : OnlyPair p s (s.updPair p fun q => { q with layer := n }) := .upd ..
  unfold takeLayer; dsimp only
  split
  · refine h0.trans ?_; unfold tripPair; exact .upd ..
  · exact h0.trans (only_drivePair ..)
  · exact h0.trans (only_drivePair ..)
  · refine h0.trans ?_
    unfold layer4Pair; dsimp only; split
    · exact only_drivePair ..
    · split
      · exact .refl ..
      · exact only_drivePair ..
  · exact h0.trans (only_drivePair ..)
theorem only_settlePair (s : State) (p : Nat) : OnlyPair p s (settlePair s p) := by
  unfold settlePair; dsimp only; split
  · exact only_takeLayer ..
  · exact .refl ..
theorem only_recordUntested_501 (s : State) (p : Nat) (b : Word) : OnlyPair p s (recordUntested s 0x0501 p [b]) := by
  unfold recordUntested; split
  · exact .refl ..
  · unfold record
    rw [recordEvent_quiet _ _ (show eventClass 0x0501 ≠ 2 by decide) (by unfold eventDrive mkEvent; simp) (by decide : (0x0501:Nat) ≠ 0x0902)]
    exact ⟨⟨_, _, rfl⟩, fun _ _ => rfl⟩
theorem only_setBand (s : State) (p b : Nat) : OnlyPair p s (setBand s p b) := by
  unfold setBand; dsimp only; split
  · exact .refl ..
  · exact (OnlyPair.upd p s _).trans (only_recordUntested_501 ..)

/-- The band that pair `p` uses or has chosen. -/
def chosen (s : State) (p : Nat) : Nat := (s.pair p).newBand.getD (s.pair p).band
theorem chosen_upd (s : State) (p : Nat) (f : Pair → Pair) (h : ∀ q, (f q).newBand = q.newBand ∧ (f q).band = q.band) :
    chosen (s.updPair p f) p = chosen s p := by simp [chosen, h]
theorem chosen_drivePair (s : State) (p : Nat) (a b : Bool) : chosen (drivePair s p a b) p = chosen s p := by
  unfold drivePair; exact chosen_upd _ _ _ fun _ => ⟨rfl, rfl⟩
theorem chosen_takeLayer (s : State) (p n : Nat) : chosen (takeLayer s p n) p = chosen s p := by
  have h0 : chosen (s.updPair p fun q => { q with layer := n }) p = chosen s p := chosen_upd _ _ _ fun _ => ⟨rfl, rfl⟩
  unfold takeLayer; dsimp only
  split
  · refine Eq.trans ?_ h0; unfold tripPair; exact chosen_upd _ _ _ fun _ => ⟨rfl, rfl⟩
  · exact (chosen_drivePair ..).trans h0
  · exact (chosen_drivePair ..).trans h0
  · unfold layer4Pair; dsimp only; split
    · exact (chosen_drivePair ..).trans h0
    · split
      · exact h0
      · exact (chosen_drivePair ..).trans h0
  · exact (chosen_drivePair ..).trans h0
theorem chosen_settlePair (s : State) (p : Nat) : chosen (settlePair s p) p = chosen s p := by
  unfold settlePair; dsimp only; split
  · exact chosen_takeLayer ..
  · rfl
theorem chosen_setBand (s : State) (p b : Nat) : chosen (setBand s p b) p = b := by
  unfold setBand; dsimp only; split
  · assumption
  · have : ∀ u : State, chosen (recordUntested u 0x0501 p [wrd b]) p = chosen u p := fun u => by
      unfold recordUntested; split
      · rfl
      · unfold record
        rw [recordEvent_quiet _ _ (show eventClass 0x0501 ≠ 2 by decide) (by unfold eventDrive mkEvent; simp) (by decide : (0x0501:Nat) ≠ 0x0902)]
        rfl
    rw [this]; simp [chosen]

theorem lpIssue_mem (k : Nat) : ∀ s : State, ∃ M, lpIssue k s = { s with mem := M } ∧ M.cells = s.mem.cells ∧ M.lpWait = s.mem.lpWait ∧
    M.lpStore = s.mem.lpStore := by
  induction k with
  | zero => intro s; exact ⟨s.mem, rfl, rfl, rfl, rfl⟩
  | succ k ih =>
    intro s
    unfold lpIssue
    split
    · exact ⟨s.mem, rfl, rfl, rfl, rfl⟩
    · split
      · obtain ⟨M, h, h1, h2, h3⟩ := ih (issueOne _ s)
        exact ⟨M, h, h1, h2, h3⟩
      · exact ⟨s.mem, rfl, rfl, rfl, rfl⟩

theorem landed {a v m : Word} : ((a &&& ~~~ m) ||| (v &&& m)) &&& m = v &&& m := by
  ext i; simp; cases m[i] <;> simp

theorem land_rws {s : State} {u i : Nat} {m r v : Word} :
    landValue s u i { rws := m, rst := r, rsv := ~~~ m } v = (parGet s u i &&& ~~~ m) ||| (v &&& m) := by
  unfold landValue; simp
theorem land_rw {s : State} {u i : Nat} {m r v : Word} :
    landValue s u i { rw := m, rst := r, rsv := ~~~ m } v = (parGet s u i &&& ~~~ m) ||| (v &&& m) := by
  unfold landValue; simp

theorem field_landed {a v m : Word} {hi lo : Nat} (hh : hi < 32) (hm : ∀ k, k < 32 → lo ≤ k → k ≤ hi → m.getLsbD k = true) :
    field ((a &&& ~~~ m) ||| (v &&& m)) hi lo = field v hi lo := by
  unfold field
  apply Nat.eq_of_testBit_eq
  intro k
  simp only [Nat.testBit_mod_two_pow, Nat.testBit_div_two_pow]
  by_cases hk : k < hi + 1 - lo
  · simp only [hk, decide_true, Bool.true_and]
    have := hm (k + lo) (by omega) (by omega) (by omega)
    simp only [BitVec.getLsbD] at this
    simp only [BitVec.toNat_or, BitVec.toNat_and, BitVec.toNat_not, Nat.testBit_or, Nat.testBit_and]
    rw [this]
    have h2 : (2 ^ 32 - 1 - m.toNat).testBit (k + lo) = false := by
      rw [Nat.sub_sub, Nat.add_comm, Nat.testBit_two_pow_sub_succ m.isLt]; simp [this]
    rw [h2]; simp
  · simp [hk]

theorem ev_parGet {s t : State} (h : EvStep s t) {u i : Nat} (hi : i < 65536) (hu : u ≠ 1) (hu' : u ≠ 10) : parGet t u i = parGet s u i :=
  h.par _ _ (by unfold paAddr; omega) (by unfold paAddr; omega)
theorem latch_step {s t : State} (h : EvStep s t) (n : Nat) : latchSet t n = latchSet s n := by
  unfold latchSet; rw [h.hatch_latch]
theorem others_parSet {s : State} {u i : Nat} {v : Word} (hi : i < 0x10000) : OthersKept s (parSet s u i v) u i := by
  intro u' i' hu' hi' hne
  rw [parGet_parSet (hi := hi) (hi' := hi'), if_neg hne]
theorem mram_open {s : State} {u i : Nat} {v : Word} (h : WritePasses s u i v) (hm : writesMram u i = true) : mramDenied s = false := by
  have hc := h.codes
  obtain ⟨au, ai⟩ := ad_word h.unit h.index
  unfold writeCodes at hc
  simp only [au, ai] at hc
  split at hc
  · simp at hc
  cases hp : paramInfo u i with
  | none => simp [hp] at hc
  | some p =>
    simp only [hp, List.mem_cons, List.mem_nil_iff, or_false, forall_eq_or_imp, forall_eq] at hc
    have := hc.2.2.1
    simpa [hm] using this

theorem nvGet_nvSet_self (s : State) (u i : Nat) (v : Word) : nvGet (nvSet s u i v) u i = v := tblGet_write_self ..
theorem linkError_cnt (s : State) (i : Nat) (hi : i < 16) (h5 : i ≠ 5) : parGet (linkError s i) 1 i = counted (parGet s 1 i) 1 ∧ wbit (parGet (linkError s i) 1 5) 5 = true ∧ linkError s i = { s with par := (linkError s i).par } := by
  refine ⟨?_, ?_, rfl⟩
  · unfold linkError setAttn parOr parCount
    rw [parGet_parSet (hi := by omega) (hi' := by omega), if_neg (by omega), parGet_parSet_self]; rfl
  · unfold linkError setAttn parOr parCount
    rw [parGet_parSet_self]
    simp only [wbit, BitVec.getLsbD_or]
    rw [show (wrd (2^5)).getLsbD 5 = true by decide]; simp

end Sys2Proof.Laws
end

