-- ==== Sys2Proof/WellFormed.lean ====
section
/-!
DEFINITION. Which commands are well formed: each operand within the range of what it names (*Units per variant*, 00_scope.md,
and the index ranges of each chapter). The meanings are total: a command that is not well formed leaves the device as it is, or
takes its operand modulo the width of the field that carries it.
-/
namespace Sys2Proof

/-- Whether every operand of the command lies in the range of what it names. -/
def wellFormed (i : Instr) : Bool :=
  match i with
  | .packetEnd words _ _ => decide (words.length ≤ 1023)
  | .identify tag => decide (tag < 1024)
  | .getStatus tag => decide (tag < 1024)
  | .getParam tag => decide (tag < 1024)
  | .setParam tag => decide (tag < 1024)
  | .setParamBlock tag => decide (tag < 1024)
  | .mode tag => decide (tag < 1024)
  | .torqueSet tag => decide (tag < 1024)
  | .setpoint tag => decide (tag < 1024)
  | .safeState tag => decide (tag < 1024)
  | .clearFault tag => decide (tag < 1024)
  | .clearTrip tag => decide (tag < 1024)
  | .discharge tag => decide (tag < 1024)
  | .ctxLoad tag => decide (tag < 1024)
  | .ctxEnable tag => decide (tag < 1024)
  | .ctxDisable tag => decide (tag < 1024)
  | .ctxRead tag => decide (tag < 1024)
  | .mapLoad tag => decide (tag < 1024)
  | .hatchFrame tag => decide (tag < 1024)
  | .hatchForce tag => decide (tag < 1024)
  | .ringEnumerate tag => decide (tag < 1024)
  | .nodeRead tag => decide (tag < 1024)
  | .nodeWrite tag => decide (tag < 1024)
  | .cellExclude tag => decide (tag < 1024)
  | .cellInclude tag => decide (tag < 1024)
  | .seqLoad tag => decide (tag < 1024)
  | .convUrgent tag => decide (tag < 1024)
  | .calStatus tag => decide (tag < 1024)
  | .posConfig tag => decide (tag < 1024)
  | .posCompare tag => decide (tag < 1024)
  | .memRead tag => decide (tag < 1024)
  | .memWrite tag => decide (tag < 1024)
  | .captureArm tag => decide (tag < 1024)
  | .scrubStatus tag => decide (tag < 1024)
  | .logRead tag => decide (tag < 1024)
  | .logMark tag => decide (tag < 1024)
  | .logClear tag => decide (tag < 1024)
  | .mbxPost tag => decide (tag < 1024)
  | .mbxRead tag => decide (tag < 1024)
  | .doorbell tag => decide (tag < 1024)
  | .lockAcquire tag => decide (tag < 1024)
  | .lockRelease tag => decide (tag < 1024)
  | .pairRole tag => decide (tag < 1024)
  | .handover tag => decide (tag < 1024)
  | .split tag => decide (tag < 1024)
  | .join tag => decide (tag < 1024)
  | .sleep tag => decide (tag < 1024)
  | .shutdown tag => decide (tag < 1024)
  | .burnishAbort tag => decide (tag < 1024)
  | .burnishResult tag => decide (tag < 1024)
  | .reset tag => decide (tag < 1024)
  | .fwBegin tag => decide (tag < 1024)
  | .fwData tag => decide (tag < 1024)
  | .fwCommit tag => decide (tag < 1024)
  | .fwAbort tag => decide (tag < 1024)
  | .relayRequest mbx => decide (mbx = 12) || decide (mbx = 13)
  | .angleRead src => decide (src < 12)
  | .capStopLoRead buf => decide (buf < 4)
  | .directoryEntryRead d => decide (d < 4096)
  | .seqEnableWrite n _ => decide (n < 32)
  | .wcCtrlWrite n _ => decide (n < 24)
  | .tbEnableWrite tb _ => decide (tb < 4)
  | .syncWrite tb _ => decide (tb < 4)
  | .perWrite tb _ => decide (tb < 4)
  | .compareWrite tb k _ => decide (tb < 4) && decide (k < 6)
  | .tripRouteWrite src _ => decide (src < 32)
  | .pairCfgWrite p _ => decide (p < 12)
  | .drvPosWrite d _ => decide (d < 4)
  | .emuCtrlWrite n _ => decide (n < 2)
  | .thresholdWrite w _ => decide (w < 2)
  | .startExpectWrite r _ => decide (r < 16)
  | .mapParamWrite m w _ => decide (m < 4) && decide (w < 5)
  | .paramWrite unit idx _ => decide (unit < 16) && decide (idx < 65536)
  | .pllLoss dom => decide (dom = 1) || decide (dom = 2) || decide (dom = 5)
  | .pllLockTimeout dom => decide (dom = 1) || decide (dom = 2) || decide (dom = 5)
  | .pllLocked dom _ => decide (dom = 1) || decide (dom = 2) || decide (dom = 5)
  | .seqTrigger n => decide (n < 32)
  | .seqStart n => decide (n < 32)
  | .urgentStart ls => decide (ls < 16)
  | .conversionDone ls _ _ _ _ _ => decide (ls < 16)
  | .trip src _ => decide (src < 32)
  | .encoderCount src _ _ _ => decide (src < 2)
  | .hallStateChange src st => (decide (src = 2) || decide (src = 3)) && decide (st < 8)
  | .ssiStart src => decide (src = 4) || decide (src = 5)
  | .ssiFrameEnd src _ _ _ _ => decide (src = 4) || decide (src = 5)
  | .sentFrame src _ => decide (6 ≤ src) && decide (src < 10)
  | .sentTimeout src => decide (6 ≤ src) && decide (src < 10)
  | .posCapture src => decide (src < 12)
  | .periodStart tb => decide (tb < 4)
  | .triggerCompare tb k => decide (tb < 4) && decide (k < 6)
  | .refEdge p => decide (p < 12)
  | .deadtimeEnd p => decide (p < 12)
  | .forceExpiry p => decide (p < 12)
  | .delaylineCalibration tb _ => decide (tb < 4)
  | .frameSend r => decide (r < 16)
  | .frameLate r => decide (r < 16)
  | .safeFrame r => decide (r < 16)
  | .returnFrame r bytes _ => decide (r < 16) && decide (154 ≤ bytes.length) && decide (bytes.length ≤ 278) && bytes.all fun b => decide (b < 256)
  | .ringLinkChange r up lock => decide (r < 16) && (!up || lock)
  | .enumLinkTimeout r => decide (r < 16)
  | .enumFarPass r expect _ _ => decide (r < 16) && decide (expect ≤ 256)
  | .stringCycle r => decide (r < 16)
  | .contextEvaluation lane => decide (lane < 4)
  | .contextWriteback c => decide (c < 256)
  | .deadlineAction c => decide (c < 256)
  | .trigTimeoutExpiry c => decide (c < 256)
  | .transactionCompare held _ rails => decide (held.length ≤ 8) && decide (rails < 4)
  | .delayQueueTake reads _ _ => decide (reads.length ≤ 8)
  | .checkpoint k | .watchdogService k =>
    decide (k.regsP.length = 41) && decide (k.regsC.length = 41) && decide (k.unequal < 4) && decide (k.equal < 4)
  | .freeCoreTaskEnd res => decide (res = 2) || decide (res = 3) || decide (res = 5)
  | .unlockResponse ws => decide (ws.length = 16)
  | .breakpointHit slot => decide (slot < 6)
  | .debugRegisterRead r => decide (r < 41)
  | .debugRegisterWrite r _ => decide (r < 41)
  | .debugBreakpointSet slot _ _ => decide (slot < 6)
  | .ss2DelayExpiry d => decide (d < 4)
  | .stopTimeExpiry d => decide (d < 4)
  | .dischargeTimeout d => decide (d < 4)
  | .dschHoldExpiry d => decide (d < 4)
  | .registrationEvaluation d => decide (d < 4)
  | .regEvalGap d => decide (d < 4)
  | .scrubStep mem _ _ => decide (mem < 3)
  | .lpddr5Training _ density ranks => decide (density ≤ 3) && decide (ranks ≤ 1)
  | .mr4Poll mult _ => decide (mult = 1) || decide (mult = 2) || decide (mult = 4)
  | .captureStop buf => decide (buf < 4)
  | .marginLinkLoss cause => decide (cause ≤ 3)
  | .ackReceived ack | .heartbeatReceived ack _ => decide (ack < 65536)
  | .statusReceived seq ack _ cfgs pers => decide (seq < 65536) && decide (ack < 65536) && decide (cfgs.length = 4) && decide (pers.length = 4)
  | .tbPhaseReceived seq ack ticks => decide (seq < 65536) && decide (ack < 65536) && decide (ticks.length = 4)
  | .mirrorReceived seq ack _ ws _ => decide (seq < 65536) && decide (ack < 65536) && decide (ws.length ≤ 8)
  | .ringFrameReceived seq ack r _ _ => decide (seq < 65536) && decide (ack < 65536) && decide (r < 16)
  | .mailboxReceived seq ack n msg => decide (seq < 65536) && decide (ack < 65536) && decide (n < 16) && decide (msg.length = 8)
  | .mbxFreeReceived seq ack n => decide (seq < 65536) && decide (ack < 65536) && decide (n < 16)
  | .doorbellReceived seq ack _ => decide (seq < 65536) && decide (ack < 65536)
  | .lockReceived seq ack lock _ _ _ => decide (seq < 65536) && decide (ack < 65536) && decide (lock < 32)
  | .lockReplyReceived seq ack lock _ _ => decide (seq < 65536) && decide (ack < 65536) && decide (lock < 32)
  | .handoverOfferReceived seq ack _ => decide (seq < 65536) && decide (ack < 65536)
  | .handoverAcceptReceived seq ack => decide (seq < 65536) && decide (ack < 65536)
  | .handoverDeclineReceived seq ack => decide (seq < 65536) && decide (ack < 65536)
  | .handoverTakeReceived seq ack _ => decide (seq < 65536) && decide (ack < 65536)
  | .handoverTakenReceived seq ack => decide (seq < 65536) && decide (ack < 65536)
  | .handoverLeaveReceived seq ack => decide (seq < 65536) && decide (ack < 65536)
  | .hkRoundEnd codes _ => decide (codes.length = 32)
  | .supplyMonitorFault ch _ => decide (1 ≤ ch) && decide (ch ≤ 5)
  | .wakeCondition src _ => decide (1 ≤ src) && decide (src ≤ 5)
  | .wcOutputChange n _ => decide (n < 24)
  | .farPortDownFrame r bytes => decide (r < 16) && decide (66 ≤ bytes.length) && decide (bytes.length ≤ 190) && bytes.all fun b => decide (b < 256)
  | .lpddr5Refresh bank => decide (bank < 32)
  | .lpddr5RequestDone who => decide (who ≤ 4)
  | .folioHeader _ | .runtHeader | .fiFrmOverrun | .folioClockLost _ _ | .folioClockReturn | .packetSend
  | .packetSent | .foClkRestart | .foFirstPacketHold | .hostSilent | .timeLoRead | .retiredLoRead
  | .fastReserveWrite _ | .foRateWrite _ | .configLockWrite _ | .seqSoftTrigger _ | .rotEnWrite _ | .splitTaskWrite _
  | .mirEnWrite _ | .lpRateWrite _ | .xinWindowEnd _ | .xinEdgeTimeout | .paceMeasurement _ _ _ _
  | .holdoverEnd | .phaseSteer _ | .admissionRecheck | .calSelfDone _ | .calDecision | .calSwap | .shadowTimeout
  | .resyncDone | .asyncInputRead _ _ _ | .interruptDecision _ _ | .watchdog | .pairRestartDone | .freeCoreWatchdog
  | .tapBypass | .tapIdcode | .tapSamplePreload | .tapExtest | .unlockChallenge | .unlockVerified _ | .unlockBlockEnd
  | .debugAccess | .tapLock | .debugHalt | .debugResume | .debugStep | .debugMemoryRead _ | .debugMemoryWrite _ _
  | .enableChange _ | .lpddr5Relock | .lpddr5RelockTimeout | .blockFillDone _ | .marginLinkUp _ _
  | .linkCellDue | .cellSend | .cellRetransmit | .ackDue | .heartbeatDue | .heartbeatTimeout
  | .heartbeatTakeover | .statusDue | .handoverAcceptTimeout | .handoverInstant | .ownNClaim | .peerOwnChange _
  | .burnishUnitEnd _ _ _ | .burnishUnitTimeout _ _ _ | .burnishDrainDone | .burnishDrainTimeout | .burnishReloadDone
  | .sketchbookWrite | .powerOnReset _ | .porRelease _ | .rstNReset | .bootAdvance _ _ | .warmResetEnd _ | .sleepEntry
  | .sleepTimerExpiry _ | .wakeDone _ | .xinEdgeResume | .marginLaneDeskew | .linkCellReceived _ _
  | .badCellReceived _ | .leaveAckTimeout | .tapReset | .jtagLoader _ | .folioResetEnd => true

end Sys2Proof
end

