-- ==== Sys2Proof/Tests/Slice0.lean ====
section
/-!
SUPPORT. The model's own tests: an ill-formed term for each check of WellFormed; for each statement a state and operands that
meet its hypotheses, clause by clause; and small examples whose expected results come from the spec.
-/
namespace Sys2Proof.Tests
set_option Elab.async false
open Sys2Proof.Machine Sys2Proof.Safety

/-! States for the tests. -/

/-- A device in STANDBY with its clocks locked. -/
def ready : State := { State.reset with
  now := 1000000, op := .standby, folio := { inReset := false }, pwr := { resetting := none }, so := { enable := true },
  therm := { band := 1, tj := 50, tjValid := true, published := true },
  tim := { xinOk := true, td1 := true, td2 := true, td5 := true, td3 := true, timeValid := true } }

/-- A device whose guaranteed pace at B1 is 1.22. -/
def paced : State := { ready with par := [(0x20011, 0x1385)] }

/-- An entry under the highest tag that a command can have, whole and not yet started. -/
def entryOf (op : Nat) (ws : List Word) : TagEntry :=
  { tag := 1022, opcode := op, unit := 0, len := ws.length, order := true, phase := .ready, spanned := false, payload := ws }

/-- The state with that command as the one command in flight. -/
def cmd (s : State) (op : Nat) (ws : List Word) : State := { s with folio := { s.folio with tags := [entryOf op ws] } }

/-- What `Starts` asks of the command of `cmd`. -/
def started (s : State) (op : Nat) (ws : List Word) : Bool :=
  mayStart (cmd s op ws) (entryOf op ws) && opServed op s.op && (decide (s.op ≠ .shutdown) || servedInShutdown op) &&
    (!(decide (s.op = .safe) && s.safeLocked) || servedLocked op)

theorem starts_cmd {s : State} {op : Nat} {ws : List Word} (h : started s op ws = true) : Starts (cmd s op ws) 1022 op ws := by
  simp only [started, Bool.and_eq_true] at h
  obtain ⟨⟨⟨h1, h2⟩, h3⟩, h4⟩ := h
  refine ⟨by decide, ⟨entryOf op ws, by simp [tagEntry, cmd, entryOf], rfl, rfl, h1⟩, h2, ?_, ?_⟩
  · intro hs
    change s.op = .shutdown at hs
    simpa [hs] using h3
  · intro hs hl
    change s.op = .safe at hs
    change s.safeLocked = true at hl
    simpa [hs, hl] using h4

/-- A drive of the given architecture word, in RUN. -/
def withDrive (s : State) (d : Nat) (v : Drive) : State := s.updDrive d fun _ => v

/-- A direct drive on pairs 0 to 2 and timebase 0. -/
def direct0 : Drive := { arch := .direct, cfg := 0x71 }

/-- A command that is under way. -/
def running (s : State) (op : Nat) : State :=
  { s with folio := { s.folio with tags := [{ entryOf op [] with phase := .running }] } }


/-! Ill-formed commands: for each check of WellFormed, one term that it refuses. -/

/-- The commands of the fast path and of the firmware path, each under a tag. -/
def tagged (t : Nat) : List Instr :=
  [.identify t, .getStatus t, .getParam t, .setParam t, .setParamBlock t, .mode t, .torqueSet t, .setpoint t, .safeState t, .clearFault t,
   .clearTrip t, .discharge t, .ctxLoad t, .ctxEnable t, .ctxDisable t, .ctxRead t, .mapLoad t, .hatchFrame t, .hatchForce t,
   .ringEnumerate t, .nodeRead t, .nodeWrite t, .cellExclude t, .cellInclude t, .seqLoad t, .convUrgent t, .calStatus t, .posConfig t,
   .posCompare t, .memRead t, .memWrite t, .captureArm t, .scrubStatus t, .logRead t, .logMark t, .logClear t, .mbxPost t, .mbxRead t,
   .doorbell t, .lockAcquire t, .lockRelease t, .pairRole t, .handover t, .split t, .join t, .sleep t, .shutdown t, .burnishAbort t,
   .burnishResult t, .reset t, .fwBegin t, .fwData t, .fwCommit t, .fwAbort t]

theorem test_tag_range : (tagged 1023).all wellFormed = true ∧ (tagged 1024).any wellFormed = false := by decide

/-- Ill-formed reads, writes and events of the units that the host configures. -/
def illUnits : List Instr :=
  [.relayRequest 11, .angleRead 12, .capStopLoRead 4, .directoryEntryRead 4096, .seqEnableWrite 32 0, .wcCtrlWrite 24 0, .tbEnableWrite 4 0,
   .syncWrite 4 0, .perWrite 4 0, .compareWrite 4 0 0, .compareWrite 0 6 0, .tripRouteWrite 32 0, .pairCfgWrite 12 0, .drvPosWrite 4 0,
   .emuCtrlWrite 2 0, .thresholdWrite 2 0, .startExpectWrite 16 0, .mapParamWrite 4 0 0, .mapParamWrite 0 5 0, .paramWrite 16 0 0,
   .paramWrite 0 65536 0, .pllLoss 3, .pllLockTimeout 3, .pllLocked 3 0, .seqTrigger 32, .seqStart 32, .urgentStart 16,
   .conversionDone 16 0 false false 0 false, .trip 32 true, .encoderCount 2 true true false, .hallStateChange 1 0, .hallStateChange 2 8,
   .ssiStart 6, .ssiFrameEnd 6 true [] 0 0, .sentFrame 5 [], .sentFrame 10 [], .sentTimeout 5, .sentTimeout 10, .posCapture 12, .periodStart 4, .triggerCompare 4 0,
   .triggerCompare 0 6, .refEdge 12, .deadtimeEnd 12, .forceExpiry 12, .delaylineCalibration 4 true, .wcOutputChange 24 0]

theorem test_ill_formed_units : illUnits.any wellFormed = false := by decide

/-- A transaction, a read and a checkpoint with `n` and `m` registers and these self-test results. -/
def txn0 : Txn := ⟨0, .lock 0 0⟩
def read0 : ReadReq := ⟨0, .lock 0⟩
def check (n m a b : Nat) : CheckpointData := ⟨0, List.replicate n 0, List.replicate m 0, 0, 0, a, b⟩

/-- Ill-formed events of the rings, Graver, Plate, Stop-out, memory, Margin, housekeeping and power states. -/
def illEvents : List Instr :=
  [.packetEnd (List.replicate 1024 0) 0 false, .frameSend 16, .frameLate 16, .safeFrame 16, .ringLinkChange 16 true true, .ringLinkChange 0 true false, .enumLinkTimeout 16,
   .enumFarPass 16 0 0 [], .enumFarPass 0 257 0 [], .stringCycle 16, .farPortDownFrame 16 (List.replicate 66 0), .farPortDownFrame 0 (List.replicate 65 0),
   .farPortDownFrame 0 (List.replicate 191 0), .farPortDownFrame 0 (List.replicate 66 256), .contextEvaluation 4, .contextWriteback 256,
   .deadlineAction 256, .trigTimeoutExpiry 256, .transactionCompare (List.replicate 9 txn0) txn0 1,
   .transactionCompare [] txn0 4, .delayQueueTake (List.replicate 9 read0) read0 true, .checkpoint (check 40 41 2 1),
   .checkpoint (check 41 40 2 1), .checkpoint (check 41 41 4 1), .watchdogService (check 41 41 2 4),
   .freeCoreTaskEnd 4, .unlockResponse (List.replicate 15 0), .breakpointHit 6, .debugRegisterRead 41, .debugRegisterWrite 41 0,
   .debugBreakpointSet 6 0 true, .ss2DelayExpiry 4, .stopTimeExpiry 4, .dischargeTimeout 4, .dschHoldExpiry 4, .registrationEvaluation 4,
   .regEvalGap 4, .scrubStep 3 [] false, .lpddr5Training true 4 0, .lpddr5Training true 1 2, .mr4Poll 3 false, .lpddr5Refresh 32, .captureStop 4,
   .lpddr5RequestDone 5, .marginLinkLoss 4, .ackReceived 65536, .heartbeatReceived 65536 ⟨0, 0, 0, 0, 0, 0, 0, 0, 0⟩, .hkRoundEnd (List.replicate 31 0) 0, .supplyMonitorFault 0 true,
   .supplyMonitorFault 6 true, .wakeCondition 0 0, .wakeCondition 6 0]

theorem test_ill_formed_events : illEvents.any wellFormed = false := by decide +kernel

/-- The sequenced cells, with a SEQ, an ACK and every other operand good. -/
def cells (q a : Nat) : List Instr :=
  [.statusReceived q a 0 [0, 0, 0, 0] [0, 0, 0, 0], .tbPhaseReceived q a [0, 0, 0, 0], .mirrorReceived q a 0 [] 0,
   .ringFrameReceived q a 0 0 [], .mailboxReceived q a 0 (List.replicate 8 0), .mbxFreeReceived q a 0, .doorbellReceived q a 0,
   .lockReceived q a 0 true true 0, .lockReplyReceived q a 0 0 0, .handoverOfferReceived q a 0, .handoverAcceptReceived q a,
   .handoverDeclineReceived q a, .handoverTakeReceived q a 0, .handoverTakenReceived q a, .handoverLeaveReceived q a]

theorem test_ill_formed_cells : (cells 65535 65535).all wellFormed = true ∧ (cells 65536 0).any wellFormed = false ∧
    (cells 0 65536).any wellFormed = false ∧
    [Instr.statusReceived 0 0 0 [0] [0, 0, 0, 0], .statusReceived 0 0 0 [0, 0, 0, 0] [0], .tbPhaseReceived 0 0 [0],
     .mirrorReceived 0 0 0 (List.replicate 9 0) 0, .ringFrameReceived 0 0 16 0 [], .mailboxReceived 0 0 16 (List.replicate 8 0),
     .mailboxReceived 0 0 0 [0], .mbxFreeReceived 0 0 16, .lockReceived 0 0 32 true true 0, .lockReplyReceived 0 0 32 0 0].any
      wellFormed = false := by decide

theorem test_ill_formed_returns : wellFormed (.returnFrame 15 (List.replicate 278 255) 0) = true ∧
    [Instr.returnFrame 16 (List.replicate 154 0) 0, .returnFrame 0 (List.replicate 153 0) 0, .returnFrame 0 (List.replicate 279 0) 0,
     .returnFrame 0 (List.replicate 154 256) 0].any wellFormed = false := by decide +kernel

/-! Examples whose expected results are those of the spec's text. -/

/-- The IDENTIFY example of *Units per variant* (00_scope.md). -/
theorem test_presence : presence .itc8112 = 0x000FF800 := by decide

/-- The check values of R74 and R75 over "123456789". -/
theorem test_crc : crc16 [0x31, 0x32, 0x33, 0x34, 0x35, 0x36, 0x37, 0x38, 0x39] = 0x29B1 ∧
    crc32 [0x31, 0x32, 0x33, 0x34, 0x35, 0x36, 0x37, 0x38, 0x39] = 0xCBF43926 := by decide +kernel

/-- The GET_PARAM example on an ITC-8104 in band B1 (04_commands.md). -/
theorem test_get_param :
    (match exec (.getParam 1022) { cmd paced 0x03 [0x00060000, 0x00020004, 0x00000001] with part := .itc8104 } with
     | .next t => decide (t.folio.replies =
        [⟨1022, 3, 0, 0, [0x80060000, 0xFFFFFFFF, 0x00020004, 0x00011385, 0x00000001, 0x00003000]⟩])
     | _ => false) = true := by decide +kernel

/-- The example of R182: an index event at count 3,998 in turn 5. -/
theorem test_index_slip :
    (let s : State := { ready with
      par := [(0x40100, 0x80000001), (0x40102, 4000), (0x40103, 0x40000000), (0x40104, 0)],
      pos := { srcs := [(0, { homed := true, count := 3998, p := countPos 4000 (5 * 4000 + 3998) })] } }
     let t := indexEvent 0 s
     (t.src 0).p = countPos 4000 (6 * 4000) ∧ (t.src 0).count = 0 ∧ Raised s t 0x0402 0 [0xFFFFFFFE, 1]) := by
  unfold Raised
  decide +kernel

/-- The example of R197: counts at ticks 10,000, 12,000 and 14,000 with CPR 4,000. -/
def speedAt (n : Nat) : Word :=
  let q : PosSrc := { changes := [14000, 12000], lastChange := some 14000 }
  captureSpeed { ready with par := [(0x40100, 0xC0000001), (0x40102, 4000)], pos := { srcs := [(0, q)] } } 0 q n

theorem test_edge_speed : speedAt 14600 = 0x42480000 ∧ speedAt 17000 = 0x42055555 ∧ speedAt 4014000 = 0 := by decide +kernel

/-- The compare example of *Compares* (06_position.md): count 1,100 of 4,000 is the angle 0x4666_6666. -/
theorem test_angle : (countPos 4000 1100).toNat = 0x46666666 := by decide +kernel

/-- The example *Period and duty written in different periods* (07_hatch.md). -/
theorem test_clamped_compare : effective (wrd (16 * 10000)) 10000 40 80 false false = .val (16 * 9920) := by decide

/-- The delays of the four-node ring (08_stipple_link.md). -/
theorem test_delays : enumDelay 1574 1267 7 = 64 ∧ enumDelay 1574 845 7 = 275 ∧ enumDelay 1574 422 7 = 486 ∧ enumDelay 1574 0 7 = 697 := by
  decide +kernel

/-- A directory entry of the string example: ledger and telemetry. -/
def cell8 (q tlm : Word) : DirEntry :=
  { present := true, state := 1, status := 0, excl := 0, cells := 1, ledger := q, tlm := tlm, tlmTick := 1000000 }

/-- Ring 2 in the string example (09_stipple_modulation.md), with the current of the present cycle as I_OFFSET. -/
def string8 : State := { ready with
  drives := [(0, { arch := .string, dst := .run, cfg := 0x40002 })], op := .run,
  par := [(0x50100, 0x40000000), (0x50101, 10000), (0x60120, 0x80080014), (0x60240, 0), (0x60243, 0x42F40000), (0x60246, 0x43C80000), (0x60249, 0x3CA3D70A)],
  stip := {
    dir := [(512, cell8 0x3FA00000 0x8EA89000), (513, cell8 0x3F9D70A4 0x8EF88E00), (514, cell8 0x3F9AC083 0x8E808C00), (515, cell8 0x3FB5C28F 0x8F669800),
            (516, cell8 0xBEB33333 0x9088C400), (517, cell8 0x3F666666 0x8DCC9200), (518, cell8 0x3FA5E354 0x8EC68C00), (519, cell8 0x3FA70A3D 0x8F0C9400)],
    rings := [(2, { st := .ready, linkUp := true, iPrev := some 0x42EC0000, req := some ⟨0x41AA6666, 1000000, 1000000⟩,
                    last := some ⟨.normal, 0, 0, 0, 979000, 980000, [3, 1, 3, 3, 1, 3, 3, 1], some (7, 3, 0, 16), 0x3ECCCCCD, none, []⟩ })] } }

theorem test_string_cycle :
    (match execStringCycle 2 string8 with
     | .next t => decide ((t.ring 2).next.map (fun f => f.states) = some [3, 16, 3, 3, 16, 16, 3, 3]) &&
        decide ((t.ring 2).next.bind (fun f => f.mod) = some (1, 3, 28328, 291672)) &&
        decide ((t.ring 2).next.map (fun f => f.apply) = some 1020000) &&
        decide ((t.ring 2).limited = false) && fLe 0x41CC9F8A (strPar t 2 0xF) && fLe (strPar t 2 0xF) 0x41CC9FF3 &&
        fLe 0x41AA6632 (strPar t 2 0x10) && fLe (strPar t 2 0x10) 0x41AA669B
     | _ => false) = true := by decide +kernel

/-- The image of the example of *Graver parameters*' chapter (10_graver.md). -/
def fieldImage : List Word := (List.range 320).map fun i =>
  tblGet [(0, 0x1020001), (1, 0xFF01), (2, 0x4100400), (3, 0x4E20), (4, 0xC8), (5, 0x9C40), (6, 0x30110), (16, 0x3F780000), (17, 0x3F000000), (25, 0x3F800000), (80, 0x3F000000), (112, 0x3F800000), (160, 0x3FBC0000), (166, 0x3F900000),
          (208, 0x3F700000), (209, 0x3F800000), (240, 0x3F800000), (256, 0xC3480000), (260, 0x43480000), (264, 0x40800000), (272, 0x41A00000), (278, 0x3D000000), (284, 0xC3800000), (298, 0x400)] 0 i

/-- Context 7 with that image at B4, where the guaranteed pace is 1.00, and sequence 4 with one entry. -/
def fieldCtx : State := { ready with
  par := [(0x20014, 0x1000)], therm := { band := 4 }, conv := { seqs := [(4, { entries := [0] })] },
  grav := { ctxs := [(7, { st := .enabled, image := fieldImage, x := [0x42C80000, 0x40000000], r := [0x42DC0000] })] } }

/-- Its one evaluation, on code 0x2CB0 and the target 120.0. -/
theorem test_graver_evaluation :
    (let r := evalCtx fieldCtx 7 { results := [(256, 0x2CB0)], counts := [(4, 1)], tgts := [(7, [0x42F00000])] }
     r.fault = 0 ∧ r.e = [0x3FC00000] ∧ r.r = [0x42E40000] ∧ r.u = [0x41920000] ∧ r.x = [0x42DA6800, 0x406C0000]) := by decide +kernel

/-- Its duty in the modulator front: CMP 5,456 and FINE 4. -/
theorem test_front : (frontDuties false false 0x43C80000 [0x41920000]).map (fun d => dutyCode d 10000) = [(wrd (5456 * 16 + 4), false)] := by
  decide +kernel

/-- Its admission: OPS is 17 and CTX_WORST 144 ticks. -/
theorem test_admission : ctxOps (fieldCtx.ctx 7) = 17 ∧
    (match admSchedule fieldCtx [admCtx fieldCtx 7 0] with
     | .inr ws => (tblGet ws 0 7 + 5 * paceGuar fieldCtx - 1) / (5 * paceGuar fieldCtx)
     | .inl _ => 0) = 144 := by decide +kernel

/-- The healthy evaluation of *Registration*'s example (12_stopout_registration.md): τ is about 132.010 N·m. -/
theorem test_registration :
    (let s : State := { ready with par := [(0x90220, 4), (0x90221, 0x3DA3D70A), (0x90222, 0x3951B717), (0x90223, 0x3A03126F), (0x90224, 0x3D000000), (0x90225, 0xC3800000)] }
     let x := torqueEstimate s 1 4992 15335 4249 0
     fLe 0x4304024E x && fLe x 0x430402D1) = true := by decide +kernel
/-! The hypotheses of the statements are met: for each statement, clause by clause, a state and operands. -/

theorem witness_StepRunsFront : ({ ready with pending := [.runtHeader] } : State).pending = Instr.runtHeader :: [] := rfl
theorem witness_IdleStepTicks : State.reset.pending = [] := rfl
theorem witness_StepKeepsInvariant : Inv ready :=
  ⟨⟨rfl, rfl, rfl, rfl, rfl, rfl, rfl, rfl, rfl, rfl, rfl, rfl, rfl, rfl, rfl⟩, rfl⟩

theorem witness_DeviceReads : Starts (cmd ready 0x01 []) 1022 0x01 [] ∧ Starts (cmd ready 0x02 []) 1022 0x02 [] ∧
    Starts (cmd ready 0x03 [0x000F010F]) 1022 0x03 [0x000F010F] ∧ (cmd ready 0x03 [0x000F010F]).op ≠ .shutdown ∧
    ∀ a ∈ [(0x000F010F : Word)], getBad (cmd ready 0x03 [0x000F010F]) a = false ∧
      isAbsent (cmd ready 0x03 [0x000F010F]) (adUnit a) (adIndex a) = false ∧ adUnit a ∈ [0, 1, 3, 5, 12, 13, 14, 15] := by
  refine ⟨starts_cmd (by decide), starts_cmd (by decide), starts_cmd (by decide), by decide, ?_⟩
  intro a ha
  rw [List.mem_singleton.mp ha]
  decide +kernel

/-- A header of IDENTIFY under the highest tag. -/
def hdr1 : BitVec 64 := mkHeader 0x01 1022 0 0 1 0

theorem witness_HeaderAccepted : laneOpen ready = true ∧ headerCrc hdr1 = hCrc hdr1 ∧ ready.op ≠ .boot ∧
    burnBusy ready = false ∧ opInfo (hOpcode hdr1) = some ⟨0, 0, 0, .all⟩ ∧ hKind hdr1 = 1 ∧ hfield hdr1 47 41 = 0 ∧
    hUnit hdr1 = 0 ∧ unitPresent ready.part 0 = true ∧ hLength hdr1 = 0 ∧ hTag hdr1 = 1022 ∧ ready.folio.tags = [] ∧
    0 < tagLimit ready (hOpcode hdr1) := by decide +kernel

theorem witness_HeaderRefused :
    (headerCrc (hdr1 ^^^ 1) ≠ hCrc (hdr1 ^^^ 1)) ∧ (opInfo (hOpcode (mkHeader 0x00 0 0 0 1 0)) = none ∧
      headerCrc (mkHeader 0x00 0 0 0 1 0) = hCrc (mkHeader 0x00 0 0 0 1 0)) ∧
    laneOpen { ready with op := .boot } = true ∧
    (unitPresent .itc8104 (hUnit (mkHeader 0x40 1 1 6 1 0)) = false ∧ opInfo 0x40 ≠ none) ∧
    (hLength (mkHeader 0x01 1 1 0 1 0) = 1 ∧ hLength (mkHeader 0x05 1 1 0 1 0) < 2) ∧
    hTag (mkHeader 0x01 0x3FF 0 0 1 0) = 0x3FF ∧
    (∃ e ∈ (cmd ready 0x01 []).folio.tags, e.tag = hTag hdr1) ∧
    tagLimit { ready with par := [(0x10002, 0x1FF)] } 0x03 = 1 ∧ hTag (mkHeader 0x03 2 1 0 1 0) ≠ 1022 := by decide +kernel

/-- IDENTIFY in reception. -/
def receiving (len : Nat) : State := { ready with folio := { ready.folio with
  tags := [{ entryOf 0x03 [] with phase := .receiving, len := len }], rx := some 1022, lane := .packet } }

theorem witness_PacketReception : (receiving 511).folio.rx = some 1022 ∧
    tagEntry (receiving 511) 1022 = some { entryOf 0x03 [] with phase := .receiving, len := 511 } ∧
    ([1] : List Word).length ≠ 511 ∧ laneOpen ready = true ∧
    tagEntry (receiving 1) 1022 = some { entryOf 0x03 [] with phase := .receiving, len := 1 } ∧ opFast 0x03 = false ∧
    ({ receiving 1 with burn := { dead := true } } : State).burn.dead = true ∧ (receiving 1).burn.dead = false := by decide +kernel

theorem witness_HostSupervision : (ready.folio.lane ≠ .lost ∧ ready.pwr.sleep = .awake ∧ ready.folio.inReset = false ∧
      ready.folio.rx = none) ∧ ({ ready with folio := { lane := .lost } } : State).folio.lane = .lost ∧
    (inService ready.op = true ∧ ready.pwr.sleep = .awake ∧ ready.pwr.resetting = none ∧ ready.folio.hostSilent = false ∧
      parField { ready with now := 1940000 } 1 3 15 0 ≠ 0 ∧
      ready.folio.hostBase + 3880 * parField { ready with now := 1940000 } 1 3 15 0 ≤ 1940000) := by decide +kernel

/-- A reply and an event record. -/
def reply1 : Reply := { tag := 1022, opcode := 1, unit := 0, status := 0, payload := [] }
/-- An event with its SEQ. -/
def logged : LogEntry := { seq := 65535, ev := mkEvent ready 0x0102 0 [] }

theorem witness_ReplyLane :
    (let s : State := { ready with folio := { inReset := false, events := [logged], replies := [reply1], evRun := 7 } }
     laneFree s = true ∧ s.folio.rateCh = .none ∧ s.folio.evRun < 8 ∧ lostWaiting s = 0) ∧
    (let s : State := { ready with folio := { inReset := false, events := [logged], replies := [reply1], evRun := 8 } }
     laneFree s = true ∧ s.folio.rateCh = .none ∧ 8 ≤ s.folio.evRun) ∧
    (let s : State := { ready with folio := { inReset := false, onLane := some (.reply reply1), laneTick := 1000000 } }
     foCycles s (laneNibbles (packetWords (.reply reply1))).length s.folio.laneTick = false) ∧
    (let s : State := { ready with folio := { inReset := false, onLane := some (.reply reply1) } }
     foCycles s (laneNibbles (packetWords (.reply reply1))).length s.folio.laneTick = true ∧ s.pwr.resetDue = none ∧
       s.pwr.sleepDue = false ∧ s.folio.rateCh = .none ∧ s.folio.span = none) ∧
    (let s : State := { ready with folio := { inReset := false, onLane := some (.event logged), events := [logged] } }
     foCycles s (laneNibbles (packetWords (.event logged))).length s.folio.laneTick = true ∧ s.folio.lost = 0 ∧
       lostWaiting s = 0 ∧ s.folio.events ≠ []) ∧
    (RateChange.stopped 7 none = .stopped 7 none) := by decide +kernel

theorem witness_SetParameters :
    (∀ x ∈ writeCodes (cmd ready 0x04 [0x000C0000, 0]) 0x00000006 2, x.1 = false) ∧ adUnit 0x00000006 ∈ [0, 2, 6, 11, 12, 14] ∧
    (∃ p, paramInfo (adUnit 0x00000006) (adIndex 0x00000006) = some p ∧ p.counter = false ∧ p.w1c = 0) ∧
    Starts (cmd ready 0x04 [0x00000006, 2]) 1022 0x04 [0x00000006, 2] ∧
    Starts (cmd ready 0x05 [0x00000006, 2]) 1022 0x05 [0x00000006, 2] ∧
    (paramInfo (adUnit 0x0000FFFF) (adIndex 0x0000FFFF) = none ∧
      Starts (cmd ready 0x04 [0x0000FFFF, 2]) 1022 0x04 [0x0000FFFF, 2]) ∧
    Starts (cmd ready 0x04 [0x00000006, 2, 0]) 1022 0x04 [0x00000006, 2, 0] := by
  refine ⟨by decide +kernel, by decide +kernel, ⟨(paramInfo 0 6).getD {}, by decide +kernel, by decide +kernel, by decide +kernel⟩,
    starts_cmd (by decide), starts_cmd (by decide), ⟨by decide +kernel, starts_cmd (by decide)⟩, starts_cmd (by decide)⟩

theorem witness_CapturingReads : ReadPasses ready 2 0 ∧ ReadPasses ready 8 1 ∧ ReadPasses ready 10 (0x105 + 8 * 3) ∧
    ReadPasses ready 4 (0x109 + 16 * 11) ∧ ReadPasses ready 6 (0x8000 + 8 * 4095) ∧
    errAt ready (dirAddr 4095 0) = .none :=
  ⟨⟨rfl, by decide +kernel, nofun⟩, ⟨rfl, by decide +kernel, nofun⟩, ⟨rfl, by decide +kernel, nofun⟩,
    ⟨rfl, by decide +kernel, nofun⟩, ⟨rfl, by decide +kernel, nofun⟩, rfl⟩

theorem passes_of {s : State} {u i : Nat} {v : Word} (h : paramServed s = true) (hu : u < 16) (hi : i < 65536)
    (hc : (writeCodes s (wrd (u * 2 ^ 16 + i)) v).all (fun x => !x.1) = true) : WritePasses s u i v :=
  ⟨h, hu, hi, fun x hx => by simpa using List.all_eq_true.mp hc x hx⟩

/-- A split pair. -/
def splitPair : State := { ready with plate := { mode := .split } }

theorem witness_PlainWrites : WritePasses ready 1 2 0x100 ∧ WritePasses ready 0 7 1 ∧ WritePasses ready 14 3 0x015400D2 ∧
    WritePasses ready 7 0x20 0x00100011 ∧ WritePasses ready 7 (0x20 + 8 * 3 + 4) 0 ∧ WritePasses ready 4 0x13 0x010000FF ∧
    WritePasses ready 4 0x21 0x00FFFFFF ∧ WritePasses splitPair 8 0xB 2 ∧ WritePasses ready 0 6 2 :=
  ⟨passes_of rfl (by decide) (by decide) (by decide +kernel), passes_of rfl (by decide) (by decide) (by decide +kernel),
    passes_of rfl (by decide) (by decide) (by decide +kernel), passes_of rfl (by decide) (by decide) (by decide +kernel),
    passes_of rfl (by decide) (by decide) (by decide +kernel), passes_of rfl (by decide) (by decide) (by decide +kernel),
    passes_of rfl (by decide) (by decide) (by decide +kernel), passes_of rfl (by decide) (by decide) (by decide +kernel),
    passes_of rfl (by decide) (by decide) (by decide +kernel)⟩
/-- Sequence 31 with one stored entry, enabled and due. -/
def withSeq : State := { ready with
  par := [(0x3011F, 0x80000000)], conv := { seqs := [(31, { entries := [0xF3F], trigger := 0x27, due := [(999999, [0xF3F], {})] })] } }

theorem witness_ConverterWrites : WritePasses ready 3 0x10 0x80000000 ∧ ready.pwr.sleep = .awake ∧
    WritePasses withSeq 3 (0x100 + 31) 0x80000000 ∧ WritePasses withSeq 3 (0x100 + 31) 0 ∧
    WritePasses { ready with conv := { phase := .idle } } 3 0 0x000103E8 ∧ WritePasses ready 3 (0x300 + 23) 0xC00FFC00 ∧
    (WritePasses ready 1 0 0 ∧ ready.folio.rateCh = .none) :=
  ⟨passes_of rfl (by decide) (by decide) (by decide +kernel), rfl, passes_of rfl (by decide) (by decide) (by decide +kernel),
    passes_of rfl (by decide) (by decide) (by decide +kernel), passes_of rfl (by decide) (by decide) (by decide +kernel),
    passes_of rfl (by decide) (by decide) (by decide +kernel), passes_of rfl (by decide) (by decide) (by decide +kernel), rfl⟩

/-- Timebase 3 running from this tick. -/
def tbRuns : State := { ready with hatch := { tbs := [(3, { running := true, t0 := 1000000 })] } }

theorem witness_TimebaseWrites :
    (WritePasses ready 5 (0x100 + 16 * 3) 0xA0000000 ∧ (∀ d, d < 4 → hasArch (ready.drive d) = true → driveTb (ready.drive d) ≠ 3) ∧
      (ready.tb 3).running = false ∧ (∀ m, m < 4 → follows ready m 3 = false) ∧ ready.marg.hoDue = false ∧
      ∀ r, r < 16 → (ready.ring r).farDue = false) ∧
    WritePasses tbRuns 5 (0x100 + 16 * 3) 0x20000000 ∧
    (WritePasses tbRuns 5 (0x100 + 16 * 3) 0xA0000000 ∧ (tbRuns.tb 3).running = true ∧
      tbOffset tbRuns 3 < perLen (cfgUpDown 0xA0000000) (tbPer tbRuns 3)) ∧
    (WritePasses tbRuns 5 (0x101 + 16 * 3) 0xFFFFFE ∧ overtaken tbRuns 3 6 0 = false ∧ tbOffset tbRuns 3 < perLen (tbUpDown tbRuns 3) 0xFFFFFE) ∧
    (WritePasses tbRuns 5 (0x102 + 16 * 3 + 5) 0x0FFFFFF0 ∧ overtaken tbRuns 3 5 0 = false ∧ tbOffset tbRuns 3 < tbLen tbRuns 3) := by
  refine ⟨⟨passes_of rfl (by decide) (by decide) (by decide +kernel), by decide +kernel, by decide +kernel, by decide +kernel,
      by decide +kernel, by decide +kernel⟩, passes_of rfl (by decide) (by decide) (by decide +kernel),
    ⟨passes_of rfl (by decide) (by decide) (by decide +kernel), by decide +kernel, by decide +kernel⟩,
    ⟨passes_of rfl (by decide) (by decide) (by decide +kernel), by decide +kernel, by decide +kernel⟩,
    passes_of rfl (by decide) (by decide) (by decide +kernel), by decide +kernel, by decide +kernel⟩

/-- LPDDR5 in service. -/
def lpReady : State := { ready with mem := { lpOnline := true, density := 3, ranks := 1 } }

theorem witness_PinAndStoreWrites :
    (WritePasses ready 9 (0x100 + 31) 0x4FFFF800 ∧ ready.hatch.tripIn.testBit 31 = false ∧ latchSet ready 31 = false) ∧
    (let s : State := { ready with hatch := { tripIn := 2 ^ 31 } }
     WritePasses s 9 (0x100 + 31) 0x4FFFF800 ∧ s.hatch.tripIn.testBit 31 = true ∧ latchSet s 31 = false ∧
       field (tripRoute s 31) 31 30 = 0 ∧ field 0x4FFFF800 31 30 ≠ 0) ∧
    WritePasses ready 5 (0x200 + 16 * 11) 0x80000000 ∧ (WritePasses lpReady 13 4 0x80000000 ∧ mirOn lpReady = false) ∧ WritePasses ready 13 4 0 ∧
    (let s : State := { lpReady with par := [(0xD0004, 0x80000000)] }
     WritePasses s 13 4 0 ∧ mirOn s = true ∧ s.mem.lpWait = [] ∧ s.mem.lpStore = []) ∧
    WritePasses ready 10 1 0x40000000 ∧ WritePasses ready 15 (0x100 + 15) 256 := by
  refine ⟨⟨passes_of rfl (by decide) (by decide) (by decide +kernel), by decide +kernel, by decide +kernel⟩,
    ⟨passes_of rfl (by decide) (by decide) (by decide +kernel), by decide +kernel⟩, passes_of rfl (by decide) (by decide) (by decide +kernel),
    ⟨passes_of rfl (by decide) (by decide) (by decide +kernel), by decide⟩, passes_of rfl (by decide) (by decide) (by decide +kernel),
    ⟨passes_of rfl (by decide) (by decide) (by decide +kernel), by decide +kernel⟩, passes_of rfl (by decide) (by decide) (by decide +kernel),
    passes_of rfl (by decide) (by decide) (by decide +kernel)⟩

/-- Drive 3 direct on pairs 0 to 2 and timebase 0, with the entries, sources and band that R366 asks for. -/
def runnable : State := { ready with
  drives := [(3, direct0)],
  par := [(0x3011F, 0x80000000), (0x40013, 0x01000060), (0x90260, 0x001F0001)],
  conv := { seqs := [(31, { entries := [0xC8000, 0xD8001, 0xE8002] })] } }

/-- Drive 3 in the given state. -/
def drive3 (d : DState) : State := { runnable with drives := [(3, { direct0 with dst := d })], op := .run }

theorem witness_ModeEffects :
    (Starts (cmd ready 0x10 [wrd 3, 0x71]) 1022 0x10 [wrd 3, 0x71] ∧ (ready.drive 3).dst = .idle ∧ configOk ready 3 0x71 = true) ∧
    (Starts (cmd runnable 0x10 [wrd (3 + 4)]) 1022 0x10 [wrd (3 + 4)] ∧ registrationReady runnable 3 = true ∧
      runForbidden runnable 3 = false ∧ (runnable.drive 3).dst ≠ .stopping ∧ driveTripLatched runnable 3 = false) ∧
    (Starts (cmd (drive3 .run) 0x10 [wrd (3 + 8)]) 1022 0x10 [wrd (3 + 8)] ∧ ((drive3 .run).drive 3).dst = .run) ∧
    (Starts (cmd { runnable with so := {} } 0x10 [wrd (3 + 4)]) 1022 0x10 [wrd (3 + 4)]) := by
  refine ⟨⟨starts_cmd (by decide), by decide +kernel, by decide +kernel⟩, ⟨starts_cmd (by decide), by decide +kernel,
    by decide +kernel, by decide +kernel, by decide +kernel⟩, ⟨starts_cmd (by decide), by decide +kernel⟩, starts_cmd (by decide)⟩

theorem witness_SafeStateCommands :
    (Starts (cmd runnable 0x13 [wrd (3 + 16 * 2)]) 1022 0x13 [wrd (3 + 16 * 2)] ∧ hasArch (runnable.drive 3) = true ∧
      (runnable.drive 3).discharging = false) ∧
    (let s : State := { runnable with par := [(0x9001B, 0x80000000)] }
     Starts (cmd s 0x16 [wrd 3]) 1022 0x16 [wrd 3] ∧ hasArch (s.drive 3) = true ∧ (s.drive 3).dst = .idle ∧
       (s.drive 3).discharging = false ∧ noDischarge s 3 = false) ∧
    (let s : State := { drive3 .ss1 with op := .safe, so := { enable := true, latches := [⟨0x0904, 0, false⟩] } }
     Starts (cmd s 0x14 []) 1022 0x14 [] ∧ (∀ l ∈ s.so.latches, l.resetOnly = false ∧ clearHolds s l = true) ∧
       s.hatch.latch = 0 ∧ ∀ o, o < 4 → (s.drive o).discharging = false ∧ (s.drive o).dst ≠ .stopping) := by
  refine ⟨⟨starts_cmd (by decide), by decide +kernel, by decide +kernel⟩, ⟨starts_cmd (by decide), by decide +kernel,
    by decide +kernel, by decide +kernel, by decide +kernel⟩, starts_cmd (by decide), by decide +kernel, by decide +kernel, by decide +kernel⟩

theorem witness_TorqueAndTrips :
    (Starts (cmd runnable 0x11 [wrd 3, 0x7F7FFFFF]) 1022 0x11 [wrd 3, 0x7F7FFFFF] ∧ fFinite 0x7F7FFFFF = true ∧
      hasArch (runnable.drive 3) = true ∧ hasArch (runnable.drive 0) = false ∧
      Starts (cmd runnable 0x11 [wrd 0, 0]) 1022 0x11 [wrd 0, 0]) ∧
    (let s : State := { ready with hatch := { tripIn := 2 ^ 31 } }
     Starts (cmd s 0x15 [0x80000000]) 1022 0x15 [0x80000000] ∧ Starts (cmd s 0x15 [1]) 1022 0x15 [1] ∧
       (0x80000000 : Word).toNat &&& s.hatch.tripIn ≠ 0 ∧ (1 : Word).toNat &&& s.hatch.tripIn = 0) := by
  refine ⟨⟨starts_cmd (by decide), by decide +kernel, by decide +kernel, by decide +kernel, starts_cmd (by decide)⟩,
    starts_cmd (by decide), starts_cmd (by decide), by decide +kernel, by decide +kernel⟩
/-- An image of one state, one input and one measurement on the soft trigger of sequence 31 and lane 3, at the shortest
MIN_INTERVAL. -/
def img1 : List Word := (List.range 320).map fun i =>
  if i = 0 then 0x01010001 else if i = 1 then 0x00000301 else if i = 2 then 0x00011F00 else if i = 3 ∨ i = 4 then 400
  else if i = 264 ∨ i = 272 then 0x3F800000 else 0

/-- Context 255 with that image. -/
def withCtx (c : Ctx) : State := { paced with grav := { ctxs := [(255, { c with image := img1, lane := 3 })] } }

theorem witness_GraverStores :
    (Starts (cmd ready 0x20 (wrd 255 :: img1)) 1022 0x20 (wrd 255 :: img1) ∧ (ready.ctx 255).st = .empty ∧
      imageOk 255 { ready.ctx 255 with image := img1 } = true) ∧
    (Starts (cmd (withCtx { st := .loaded }) 0x23 [wrd (255 + 256)]) 1022 0x23 [wrd (255 + 256)] ∧
      ((withCtx { st := .loaded }).ctx 255).st ≠ .empty ∧ ∀ i, i < 320 → markAt (withCtx { st := .loaded }) (ctxAddr 255 i) = .none ∧ errAt (withCtx { st := .loaded }) (ctxAddr 255 i) = .none) ∧
    (Starts (cmd ready 0x24 [wrd (1535 * 65536 + 3), 0, 0]) 1022 0x24 [wrd (1535 * 65536 + 3), 0, 0] ∧
      mapInUse ready 3 = false ∧ fFinite 0 = true) ∧
    (Starts (cmd (withCtx { st := .loaded }) 0x12 [wrd 255, 0x3F800000]) 1022 0x12 [wrd 255, 0x3F800000] ∧
      0 < ctxM ((withCtx { st := .loaded }).ctx 255) ∧ refSrc ((withCtx { st := .loaded }).ctx 255) 0 = 0 ∧
      fFinite 0x3F800000 = true) := by
  refine ⟨⟨starts_cmd (by decide +kernel), by decide +kernel, by decide +kernel⟩,
    ⟨starts_cmd (by decide), by decide +kernel, by decide +kernel⟩, ⟨starts_cmd (by decide), by decide +kernel, by decide +kernel⟩,
    starts_cmd (by decide), by decide +kernel, by decide +kernel, by decide +kernel⟩

theorem witness_ContextEnableDisable :
    (∀ c ∈ [withCtx { st := .loaded }, withCtx { st := .faulted }],
      enableBad c [255] 255 = false ∧ destClash c ([255] ++ below 256 fun m => ctxLive (c.ctx m) && !([255].contains m)) = false) ∧
    (Starts (cmd (withCtx { st := .faulted }) 0x21 [wrd (255 + 256 * b2n true)]) 1022 0x21 [wrd (255 + 256 * b2n true)]) ∧
    (Starts (cmd (withCtx { st := .loaded }) 0x21 [wrd (255 + 256 * b2n false)]) 1022 0x21 [wrd (255 + 256 * b2n false)] ∧
      field (imgW ((withCtx { st := .loaded }).ctx 255) 1) 15 8 = 3 ∧ (withCtx { st := .loaded }).grav.admLost = false ∧
      (admSchedule (withCtx { st := .loaded }) (admCtx (withCtx { st := .loaded }) 255 3 :: admLive (withCtx { st := .loaded }))).isRight
        = true ∧ stringClose (withCtx { st := .loaded }) 255 = true) ∧
    (Starts (cmd (withCtx { st := .enabled }) 0x22 [wrd 255]) 1022 0x22 [wrd 255] ∧ ctxLive ((withCtx { st := .enabled }).ctx 255) = true ∧
      (∀ x, x < 256 → x ≠ 255 → ctxLive ((withCtx { st := .enabled }).ctx x) = false) ∧ inFlight (withCtx { st := .enabled }) 255 = false ∧
      (withCtx { st := .enabled }).grav.waits = []) ∧
    inFlight (withCtx { st := .enabled, inst := some ⟨0, .running, none, [], {}⟩ }) 255 = true := by
  refine ⟨?_, starts_cmd (by decide), ⟨starts_cmd (by decide), by decide +kernel, by decide +kernel, by decide +kernel⟩,
    ⟨starts_cmd (by decide), by decide +kernel, by decide +kernel, by decide +kernel⟩, by decide +kernel⟩
  intro c hc
  rcases List.mem_cons.mp hc with rfl | h
  · exact ⟨by decide +kernel, by decide +kernel⟩
  · rw [List.mem_singleton.mp h]
    exact ⟨by decide +kernel, by decide +kernel⟩

/-- Context 255 with an instance triggered at tick 999600. -/
def withInst (ph : InstPhase) (r : Option EvalRes) : State :=
  let s := withCtx { st := .enabled, inst := some ⟨999600, ph, r, [1, 2, 3, 4], {}⟩ }
  if ph = .running then { s with grav := { s.grav with lanes := [(3, some 255)] } } else s

/-- The result of an evaluation. -/
def res1 : EvalRes := ⟨0, 0, 0, [0], [0], [0, 0, 0, 0], [0], [0], [false], [0, 0, 0, 0], false, false⟩

theorem witness_EvaluationAndWriteBack :
    (let s := withInst .ready none
     gravRuns s = true ∧ 3 < laneCount s.part ∧ tblGet s.grav.lanes none 3 = none ∧ (s.mem.marks = [] ∧ s.mem.errs = [] ∧ passes (s.ctx 255) 999600 = false) ∧ ReadyOn s 3 255 ∧
       ∀ m, ReadyOn s 3 m → m = 255) ∧
    (let s := withInst .running (some res1)
     tblGet s.grav.lanes none 3 = some 255 ∧ (∀ k, k < 3 → tblGet s.grav.lanes none k ≠ some 255) ∧
       s.now ≤ 999600 + ctxDeadline (s.ctx 255) ∧ res1.fault = 0 ∧ (s.ctx 255).st = .enabled ∧ passes (s.ctx 255) 999600 = false ∧
       999600 + ctxDeadline (s.ctx 255) < ({ s with now := 1000001 } : State).now) := by
  refine ⟨⟨by decide +kernel, by decide +kernel, by decide +kernel, by decide +kernel, ⟨by decide, by decide +kernel, rfl, _, rfl, rfl⟩,
    ?_⟩, by decide +kernel⟩
  rintro m ⟨hm, ha, _⟩
  have h : ∀ m, m < 256 → ctxAdmitted ((withInst .ready none).ctx m) = true → m = 255 := by decide +kernel
  exact h m hm ha

theorem witness_DeadlinesAndMisses :
    (let s : State := { withInst .written none with now := 1000001 }
     (s.ctx 255).st = .enabled ∧ 999600 + ctxDeadline (s.ctx 255) < s.now ∧ passes (s.ctx 255) 999600 = false) ∧
    (let s : State := { withInst .waiting none with now := 1000001 }
     (s.ctx 255).st = .enabled ∧ 999600 + ctxDeadline (s.ctx 255) < s.now ∧ passes (s.ctx 255) 999600 = false) ∧
    (let c : Ctx := { st := .enabled, image := img1.set 5 4000000, toStart := some 0, root := 255, lastRoot := some 1 }
     let s : State := { ready with now := 4000000, grav := { ctxs := [(255, c)] } }
     (s.ctx 255).toStart = some 0 ∧ gravRuns s = true ∧ ctxLive (s.ctx 255) = true ∧ ctxTimeout (s.ctx 255) = 4000000 ∧
       0 + ctxTimeout (s.ctx 255) ≤ s.now ∧ (s.ctx 255).root = 255 ∧ (s.ctx 255).lastRoot = some 1 ∧ (s.ctx 255).enTick < 1) ∧
    (ready.op ≠ .boot ∧ ready.op ≠ .shutdown ∧ ready.pwr.sleep = .awake) ∧
    (let s := withCtx { st := .enabled }
     let big : State := { s with therm := { s.therm with band := 4 }, par := [(0x20014, 0x1000), (0x70001, 1)] }
     (admWhole big).isLeft = true ∧ (admWhole s).isLeft = false) := by decide +kernel

theorem witness_HatchCommands :
    (let ws : List Word := [wrd 3, 0xFFFFFE, 0x0FFFFFF0, 0, 0, 0, 0, 0x0FFFFFEF]
     Starts (cmd tbRuns 0x30 ws) 1022 0x30 ws ∧ perOk tbRuns 3 0xFFFFFE = true ∧
       (∀ k, k < 6 → cmpOk (ws.getD (2 + k) 0) = true ∧ hasBits (ws.getD (2 + k) 0) 0xF0000000 = false) ∧
       (stringRunsOn tbRuns 3 = false ∧ ∀ k, k < 7 → overtaken tbRuns 3 k 2 = false) ∧ tbOffset tbRuns 3 < perLen (tbUpDown tbRuns 3) 0xFFFFFE) ∧
    (Starts (cmd ready 0x31 [wrd (3 * 2 ^ 30 + 0x800), wrd 65535]) 1022 0x31 [wrd (3 * 2 ^ 30 + 0x800), wrd 65535] ∧
      ready.so.enable = true ∧ latchesOnPair ready 11 = [] ∧ pairDrive ready 11 = none) := by
  refine ⟨⟨starts_cmd (by decide), by decide +kernel, by decide +kernel, by decide +kernel, by decide +kernel⟩,
    starts_cmd (by decide), by decide +kernel, by decide +kernel, by decide +kernel⟩

theorem witness_PeriodsAndEdges :
    (let s : State := { tbRuns with now := 100000000, drives := [(3, { direct0 with cfg := 0x7D, dst := .stopping, stopDue := true })] }
     (s.tb 3).running = true ∧ tbLen s 3 ≤ tbOffset s 3 ∧ (∀ m, m < 4 → follows s m 3 = false) ∧ s.marg.hoDue = false ∧ s.marg.ho ≠ .accepted ∧
       (∀ d, d < 4 → (s.drive d).hd = none) ∧ hasArch (s.drive 3) = true ∧ driveTb (s.drive 3) = 3 ∧
       (s.drive 3).dst = .stopping ∧ (s.drive 3).stopDue = true) ∧
    (let s : State := { ready with hatch := { tbs := [(3, { running := true })], pairs := [(11, { armOn := some 0, layer := 4 })] } }
     (s.tb (pairTb s 11)).running = true ∧ tbBegun s (pairTb s 11) = true ∧ (s.pair 11).armOn = some 0 ∧ 0 / 16 ≤ tbOffset s (pairTb s 11) ∧ (s.pair 11).ref = false ∧ (s.pair 11).layer = 4) ∧
    (let s : State := { ready with hatch := { tbs := [(3, { running := true })], pairs := [(11, { armOff := some 0, ref := true, layer := 4 })] } }
     (s.tb (pairTb s 11)).running = true ∧ tbBegun s (pairTb s 11) = true ∧ (s.pair 11).armOn = none ∧ (s.pair 11).armOff = some 0 ∧ 0 / 16 ≤ tbOffset s (pairTb s 11) ∧ (s.pair 11).ref = true) ∧
    (let s : State := { ready with hatch := { pairs := [(11, { pend := some (true, 1000000), forceEnd := some 1000000, force := some 1 })] } }
     (s.pair 11).pend = some (true, 1000000) ∧ 1000000 ≤ s.now ∧ ({ s with now := 999999 } : State).now < 1000000 ∧ (s.pair 11).forceEnd = some 1000000 ∧ 1000000 ≤ s.now) := by decide +kernel

/-- Sources 30 and 31 name pair 11 with two different actions. -/
def twoRoutes (a b : Word) : State := { ready with
  par := [(0x9011E, a * 0x40000000 + 0x800), (0x9011F, b * 0x40000000 + 0x800)], hatch := { latch := 2 ^ 30 } }

theorem names_of {s : State} {src p a n : Nat} (hn : n < 32)
    (h : (latchSet s n || decide (n = src)) && decide (field (tripRoute s n) 31 30 = a) && wbit (tripRoute s n) p = true) :
    Names s src p a := by
  simp only [Bool.and_eq_true, Bool.or_eq_true, decide_eq_true_eq] at h
  exact ⟨n, hn, h.1.1, h.1.2, h.2⟩

theorem not_names_of {s : State} {src p a : Nat}
    (h : ∀ n, n < 32 → ((latchSet s n || decide (n = src)) && decide (field (tripRoute s n) 31 30 = a) && wbit (tripRoute s n) p) = false) :
    ¬ Names s src p a := by
  rintro ⟨n, hn, h1, h2, h3⟩
  have h4 := h n hn
  rcases h1 with h1 | h1
  · simp [h1, h2, h3] at h4
  · subst h1
    simp [h2, h3] at h4

theorem witness_CombinedTripAction :
    (tripsWork (twoRoutes 2 3) = true ∧ latchSet (twoRoutes 2 3) 31 = false ∧ field (tripRoute (twoRoutes 2 3) 31) 31 30 ≠ 0 ∧
      wbit (tripRoute (twoRoutes 2 3) 31) 11 = true ∧ Activates (twoRoutes 2 3) 31) ∧
    (Names (twoRoutes 2 3) 31 11 2 ∧ Names (twoRoutes 2 3) 31 11 3) ∧ Names (twoRoutes 2 1) 31 11 1 ∧
    (Names (twoRoutes 2 2) 31 11 2 ∧ ¬ Names (twoRoutes 2 2) 31 11 1 ∧ ¬ Names (twoRoutes 2 2) 31 11 3) ∧
    (Names (twoRoutes 3 3) 31 11 3 ∧ ¬ Names (twoRoutes 3 3) 31 11 1 ∧ ¬ Names (twoRoutes 3 3) 31 11 2) :=
  ⟨⟨by decide +kernel, by decide +kernel, by decide +kernel, by decide +kernel, Or.inl (by decide)⟩, ⟨names_of (n := 30) (by decide) (by decide +kernel), names_of (n := 31) (by decide) (by decide +kernel)⟩,
    names_of (n := 31) (by decide) (by decide +kernel),
    ⟨names_of (n := 31) (by decide) (by decide +kernel), not_names_of (by decide +kernel), not_names_of (by decide +kernel)⟩,
    names_of (n := 31) (by decide) (by decide +kernel), not_names_of (by decide +kernel), not_names_of (by decide +kernel)⟩

/-- Comparator 23 with both sides enabled at THR_HI 1,023 and THR_LO 0, and the given level at its input. -/
def comparing (x : Int) (lv : Nat) : State := { twoRoutes 2 3 with
  par := [(0x30317, 0xC00FFC00), (0x90117, 0x40000800)], conv := { ain := [(23, x)], wcLevel := lv } }

theorem witness_TripInputs : tripsWork (twoRoutes 2 3) = true ∧
    (latchSet (twoRoutes 2 3) 31 = false ∧ field (tripRoute (twoRoutes 2 3) 31) 31 30 ≠ 0 ∧ 24 ≤ 31) ∧
    (latchSet (comparing 16777215 0) 23 = false ∧ field (tripRoute (comparing 16777215 0) 23) 31 30 ≠ 0 ∧
      wcRuns (comparing 16777215 0) = true ∧ tripsWork (comparing 16777215 0) = true) ∧
    (field (tripRoute (twoRoutes 2 3) 24) 31 30 = 0 ∧ latchSet (twoRoutes 2 3) 30 = true) ∧
    (let s : State := comparing 100000 0
     wcRuns s = true ∧ (wcSide s 23 true || wcSide s 23 false) = s.conv.wcLevel.testBit 23 ∧ (tblGet s.conv.wcOld (0, []) 23).1 + 800 ≤ s.now ∧
       wbit (wcCtrl s 23) 31 = true ∧ wbit (wcCtrl s 23) 30 = true ∧ s.hatch.tripIn.testBit 23 = s.conv.wcLevel.testBit 23 ∧
       (field (wcCtrl s 23) 19 10 : Int) * 2 ^ 14 < 16760833 ∧ (-1 : Int) < (field (wcCtrl s 23) 9 0 : Int) * 2 ^ 14 ∧
       (100000 : Int) < (field (wcCtrl s 23) 19 10 : Int) * 2 ^ 14 - 2 ^ 15 ∧ (field (wcCtrl s 23) 9 0 : Int) * 2 ^ 14 + 2 ^ 15 < 100000) := by
  decide +kernel

theorem witness_ConverterCommands :
    (let w : Word := 0x00270100 + 31
     let ws : List Word := [w, 0xC803F]
     Starts (cmd withSeq 0x50 ws) 1022 0x50 ws ∧ hasBits w 0xFF0080E0 = false ∧ ([0xC803F] : List Word).any entryBad = false ∧
       field w 14 8 = 1 ∧ triggerOk (field w 23 16) = true ∧ listClash [0xC803F] = false ∧ ctxBeyond withSeq (field w 4 0) 1 = false) ∧
    (Starts (cmd ready 0x51 [0x3F0F]) 1022 0x51 [0x3F0F] ∧ hasBits 0x3F0F 0xFFFFC0F0 = false) ∧
    Starts (cmd ready 0x52 []) 1022 0x52 [] := by
  refine ⟨⟨starts_cmd (by decide), by decide +kernel, by decide +kernel, by decide +kernel, by decide +kernel, by decide +kernel,
    by decide +kernel⟩, ⟨starts_cmd (by decide), by decide +kernel⟩, starts_cmd (by decide)⟩

/-- Sequence 31 due and running. -/
def seqRuns : State := { withSeq with conv := { withSeq.conv with
  seqs := [(31, { entries := [0x3F], due := [(999999, [0x3F], {})], run := some ⟨0, 0, [0x3F], [], {}⟩ })] } }

theorem witness_SequenceOverrun : convRun withSeq = true ∧ (withSeq.sequ 31).due = (999999, [0xF3F], {}) :: [] ∧ seqEnabled withSeq 31 = true ∧
    (withSeq.sequ 31).run = none ∧ (withSeq.sequ 31).pend = none ∧
    (convRun seqRuns = true ∧ (seqRuns.sequ 31).due = (999999, [0x3F], {}) :: [] ∧ seqEnabled seqRuns 31 = true ∧
      (seqRuns.sequ 31).run.isSome = true) := by
  decide +kernel

theorem witness_ConversionFlow :
    (let s : State := { ready with conv := { seqs := [(31, { pend := some (999999, [0x3F], {}) })] } }
     convRun s = true ∧ (s.sequ 31).pend = some (999999, [0x3F], {}) ∧ seqCanStart s 31 = true ∧ 999999 < s.now) ∧
    (let s : State := { ready with conv := { slices := [(15, { urgent := some (1022, 63) })] } }
     (s.slice 15).urgent = some (1022, 63) ∧ urgentCanStart s 15 = true) ∧
    (let s : State := { running ready 0x51 with conv := { slices := [(15, { conv := some ⟨.urgent 1022, 63, 999960, false⟩ })] } }
     (s.slice 15).conv = some ⟨.urgent 1022, 63, 999960, false⟩ ∧ 999960 + 40 ≤ s.now ∧ (s.slice 15).owner = none ∧
       s.conv.phase ≠ .shadow ∧ tagEntry s 1022 = some { entryOf 0x51 [] with phase := .running }) ∧
    (let s : State := { tbRuns with par := [(0x50137, 0x100), (0x50139, 0x400)], hatch := { tbs := [(3, { running := true, t0 := 999984 })] } }
     triggerNow s 3 5 = true ∧ triggerPassed s 3 5 = none ∧ tblGet (s.tb 3).fired none 5 ≠ some s.now) := by decide +kernel

theorem witness_CalibrationSteps :
    (ready.conv.phase = .selfCal ∧ convRun ready = true) ∧
    (let s : State := { ready with conv := { phase := .shadow, pairs := 256, sum := 271, target := 15 } }
     s.conv.phase = .shadow ∧ convRun s = true ∧ 256 ≤ s.conv.pairs ∧ s.conv.pairsAt + 16 ≤ s.now ∧ s.conv.sum.natAbs / 16 ≤ 16) ∧
    (let s : State := { ready with conv := { phase := .shadow, pairs := 256, sum := -272, target := 15 } }
     16 < s.conv.sum.natAbs / 16) ∧
    (let s : State := { ready with conv := { phase := .swapPending, target := 15 } }
     s.conv.phase = .swapPending ∧ convRun s = true ∧ converting s s.conv.target = false) ∧
    (let s : State := { withSeq with now := 401000000, conv := { withSeq.conv with phase := .shadow, pairs := 255, target := 15 } }
     s.conv.phase = .shadow ∧ convRun s = true ∧ s.conv.pairs < 256 ∧ sliceUsed s s.conv.target = true ∧
       s.conv.shadowAt + parField s 3 0 15 0 * 400000 ≤ s.now) := by decide +kernel
/-- A device on its way out of sleep, with TD1 stopped and three PLLs started. -/
def waking : State := { ready with pwr := { resetting := none, sleep := .waking }, tim := { xinOk := true, starting := [1, 2, 5] } }

theorem witness_ClockSupervision : isAsleep ready = false ∧ xinGood 760 = true ∧ xinGood 840 = true ∧ xinGood 759 = false ∧
    xinGood 841 = false ∧ (let s : State := { ready with tim := { ready.tim with xinArmed := true } }
      s.tim.xinArmed = true ∧ s.tim.freqFault = false ∧ s.tim.stopFault = false ∧ s.tim.td1 = true ∧ s.tim.holdover = .none) ∧
    ready.tim.xinArmed = false ∧ ∀ d ∈ [1, 2, 5], pllLockedNow ready d = true := by decide +kernel

theorem witness_LockAndSteering : (waking.pwr.sleep = .waking ∧ waking.tim.starting.contains 1 = true ∧
      waking.tim.starting.contains 2 = true ∧ waking.tim.starting.contains 5 = true ∧ waking.tim.xinHeld = [] ∧
      waking.tim.pllHeld = [] ∧ isAsleep waking = true) ∧
    (let s : State := { ready with tim := { ready.tim with starting := [5, 2] } }
     ∀ d ∈ [2, 5], s.tim.starting.contains d = true ∧ isAsleep s = false) ∧
    (ready.tim.starting.contains 5 = false ∧ waking.tim.starting.contains 0 = false) ∧
    ({ waking with tim := { holdover := .active } } : State).tim.holdover = .active ∧
    (let s : State := { ready with tim := { ready.tim with master := false, phase16 := 15, steered := some 999600 } }
     s.tim.master = false ∧ s.tim.td1 = true ∧ isAsleep s = false ∧ s.tim.steered.any (fun t => inSlide s.now t 400) = false ∧
       (some 999601).any (fun t => inSlide s.now t 400) = true) := by decide +kernel

/-- A device whose trim of chain 3 is marked: its pace is below every guaranteed pace. -/
def markedTrim : State := { paced with mem := { paced.mem with marks := [(chainCell 3 / 8, .bite)] } }

theorem witness_PaceMonitor : paced.tim.td1 = true ∧ isAsleep paced = false ∧ 0 < paceGuar paced ∧ markedTrim.mem.errs = [] ∧
    readMark markedTrim (chainCell 3) = .bite ∧ (paceGuar markedTrim ≤ 0xFFFF ∧ paceGuar { ready with par := [(0x20011, 0)] } = 0) ∧ paced.tim.paceLow = false ∧
    ({ markedTrim with tim := { paced.tim with paceLow := true } } : State).tim.paceLow = true := by decide +kernel

/-- The pace of a chain with a marked trim is 0, and with it the lowest of the four. -/
theorem test_marked_trim_pace (a b c d : Nat) : min (min (chainPace markedTrim 0 a) (chainPace markedTrim 1 b))
    (min (chainPace markedTrim 2 c) (chainPace markedTrim 3 d)) = 0 := by
  have h : readMark markedTrim (chainCell 3) = .bite := by decide +kernel
  simp [chainPace, h]

/-- Source `n` with the words of its block, and its running state. -/
def withSrc (n : Nat) (ws : List Word) (q : PosSrc) : State :=
  { ready with pos := { srcs := [(n, q)] },
               par := (List.range ws.length).map fun i => (0x40000 + 0x100 + 16 * n + i, ws.getD i 0) }

/-- Encoder 1 with 4 counts per revolution. -/
def enc1 (q : PosSrc) : State := withSrc 1 [0x80000001, 1, 4, 0, 1] q

theorem witness_EncoderCounts : NoCapture (enc1 { count := 3 }) ∧ LevelsPass (enc1 { count := 3 }) 1 false true true 1000000 ∧
    LevelsPass (enc1 { count := 0, raw := 5, rawAt := [0, 1000000, 0] }) 1 true false true 1000000 ∧ posRuns (enc1 { count := 3 }) = true ∧ srcEn (enc1 { count := 3 }) 1 = true ∧
    4 ≤ srcCpr (enc1 { count := 3 }) 1 ∧ ((enc1 { count := 3 }).src 1).count < srcCpr (enc1 { count := 3 }) 1 ∧
    wbit (srcWord (enc1 { count := 3 }) 1 3) 31 = false ∧
    (quad (2 * b2n false + b2n true) + 4 - quad ((enc1 { count := 3 }).src 1).ab) % 4 =
      (if true != wbit (srcWord (enc1 { count := 3 }) 1 0) 28 then 1 else 3) ∧
    (quad (2 * b2n true + b2n false) + 4 - quad ((enc1 { count := 0 }).src 1).ab) % 4 =
      (if false != wbit (srcWord (enc1 { count := 0 }) 1 0) 28 then 1 else 3) := by
  refine ⟨by unfold NoCapture; decide +kernel, .inl (by decide +kernel), .inr (by decide +kernel), by decide +kernel⟩

theorem witness_IllegalTransitions : ((enc1 {}).src 1).capDue = none ∧ LevelsPass (enc1 {}) 1 false false true 1000000 ∧
    (quad (2 * b2n false + b2n false) + 4 - quad ((enc1 {}).src 1).ab) % 4 = 2 ∧ posRuns (enc1 {}) = true ∧ srcEn (enc1 {}) 1 = true ∧
    ((enc1 {}).src 1).fault = false ∧
    (([] : List Nat).filter fun x => inSlide (enc1 {}).now x 400000).length + 1 ≤ field (srcWord (enc1 {}) 1 4) 7 0 ∧
    field (srcWord (enc1 {}) 1 4) 7 0 <
      (((enc1 { errTicks := [600001] }).src 1).errTicks.filter fun x => inSlide (enc1 {}).now x 400000).length + 1 := by
  refine ⟨by decide +kernel, .inl (by decide +kernel), by decide +kernel⟩

/-- Hall set 3 with states 60 degrees apart, and state 6 half a turn from state 1. -/
def hall3 (q : PosSrc) : State := withSrc 3 [0x80000101, 1, 0, 0x2AAA0000, 0x80005555, 0x8000AAAA] q
/-- SSI source 5: 13 bits with 1 status bit. -/
def ssi5 (q : PosSrc) : State := withSrc 5 [0x80000101, 1, 0x40000000, 0x0D0C0001] q
/-- SENT source 9 with three nibbles. -/
def sent9 (q : PosSrc) : State := withSrc 9 [0x80000101, 1, 0x00430078, 0, 0x3] q
/-- A SENT frame of 3.0 µs ticks with status 4 and data 1, 2, 3, whose CRC by SAE J2716 is 0. -/
def pulses9 : List Nat := [67200, 19200, 15600, 16800, 18000, 14400]
/-- The status nibbles of 15 good frames of a short serial message of zeros, whose CRC is 9, the newest first. -/
def slow9 : List Nat := [0, 0, 4, 0, 0, 0, 0, 0, 0, 0, 0, 0, 0, 0, 8]

theorem witness_HallAndFrames :
    (NoCapture (hall3 {}) ∧ NoCapture (ssi5 {}) ∧ NoCapture (sent9 {}) ∧ HallPasses (hall3 {}) 3 7 1000000 ∧
      HallPasses (hall3 { started := true, count := 1, ab := 1, raw := 6, rawAt := [999960] }) 3 6 999960) ∧
    (posRuns (hall3 {}) = true ∧ srcEn (hall3 {}) 3 = true ∧ srcKind 3 = .hall ∧
      (let s := hall3 { started := true, count := 1 }
       (s.src 3).started = true ∧ (6 : Nat) ≠ (s.src 3).count ∧
         2 ^ 30 < (sgn32 (hallAngle s 3 6 + 2 ^ 32 - hallAngle s 3 (s.src 3).count)).natAbs ∧ (2 : Nat) ≠ (s.src 3).count ∧
         (sgn32 (hallAngle s 3 2 + 2 ^ 32 - hallAngle s 3 (s.src 3).count)).natAbs ≤ 2 ^ 30)) ∧
    (posRuns (ssi5 {}) = true ∧ srcEn (ssi5 {}) 5 = true ∧ srcKind 5 = .ssi ∧ ((ssi5 { startDue := some 999999 }).src 5).startDue = some 999999 ∧
      (let s := ssi5 { busy := true, startTick := 999000 }
       (s.src 5).busy = true ∧ (s.src 5).startTick + ssiPeriod s 5 * field (srcWord s 5 3) 29 24 ≤ s.now ∧
         ssiLine s 5 true 2 0 = true ∧ ssiParity s 5 (List.replicate 11 true ++ [true, false]) = true ∧
         ssiWord s 5 (List.replicate 12 true ++ [false]) % 2 ^ (field (srcWord s 5 3) 29 24 - field (srcWord s 5 3) 21 16) &&&
           field (srcWord s 5 3) 7 0 = 0)) ∧
    (posRuns (sent9 {}) = true ∧ srcEn (sent9 {}) 9 = true ∧ srcKind 9 = .sent ∧
      sentFrame (sent9 {}) 9 pulses9 = some [4, 1, 2, 3] ∧ 4 &&& field (srcWord (sent9 { slow := slow9 }) 9 4) 3 0 = 0 ∧
      slowMessage (wbit (srcWord (sent9 {}) 9 2) 21) ((4 :: ((sent9 { slow := slow9 }).src 9).slow).take 18) = some 0 ∧
      ((sent9 { badRun := 2 }).src 9).badRun = 2 ∧ wbit (srcWord (sent9 {}) 9 2) 22 = true) := by
  refine ⟨⟨by unfold NoCapture; decide +kernel, by unfold NoCapture; decide +kernel, by unfold NoCapture; decide +kernel,
    by unfold HallPasses; decide +kernel, by unfold HallPasses; decide +kernel⟩, by decide +kernel⟩

theorem witness_BadSsiFrames :
    (let s := ssi5 { busy := true, badRun := 2, startTick := 999000 }
     posRuns s = true ∧ srcEn s 5 = true ∧ srcKind 5 = .ssi ∧ (s.src 5).busy = true ∧ 2 ≤ (s.src 5).badRun ∧
       (s.src 5).fault = false ∧
       (s.src 5).startTick + ssiPeriod s 5 * field (srcWord s 5 3) 29 24 ≤ s.now ∧ true = ssiLine s 5 true 2 0 ∧
       false = ssiLine s 5 false 2 0 ∧ false = ssiLine s 5 true 3 0 ∧
       true = ((wbit (srcWord s 5 2) 30 && !ssiParity s 5 (List.replicate 12 false ++ [true])) ||
         decide (ssiWord s 5 (List.replicate 12 false ++ [true]) % 2 ^ (field (srcWord s 5 3) 29 24 -
           field (srcWord s 5 3) 21 16) &&& field (srcWord s 5 3) 7 0 ≠ 0)) ∧
       false = ((wbit (srcWord s 5 2) 30 && !ssiParity s 5 []) || decide (ssiWord s 5 [] % 2 ^ (field (srcWord s 5 3) 29 24 -
         field (srcWord s 5 3) 21 16) &&& field (srcWord s 5 3) 7 0 ≠ 0))) := by decide +kernel

theorem witness_SourceRestart :
    (let ws : List Word := [wrd 1, 0x80000101, 1, 4, 0, 1, 0]
     Starts (cmd ready 0x60 ws) 1022 0x60 ws ∧ posBlockOk ready 1 0x80000101 1 4 0 1 0 = true) ∧
    (let ws : List Word := [0x10, 0x80000101, 1, 4, 0, 1, 0]
     Starts (cmd ready 0x60 ws) 1022 0x60 ws ∧ hasBits 0x10 0xFFFFFFF0 = true) ∧
    (let ws : List Word := [12, 0x80000101, 1, 4, 0, 1, 0]
     Starts (cmd ready 0x60 ws) 1022 0x60 ws ∧ 12 ≤ field 12 3 0) ∧
    posBlockOk ready 1 0x80000001 1 4 0 1 0 = false :=
  ⟨⟨starts_cmd (by decide), by decide +kernel⟩, ⟨starts_cmd (by decide), by decide +kernel⟩,
    ⟨starts_cmd (by decide), by decide +kernel⟩, by decide +kernel⟩

/-- Encoder 1 at count 3, with compare 7 armed on it for a target one count ahead. -/
def armed7 : State := { enc1 { count := 3, p := 0xC0000000 } with
  pos := { srcs := [(1, { count := 3, p := 0xC0000000, capDue := some 999999 })],
           cmps := [(7, { armed := true, source := 1, t := 0x100000000, armTick := 999999 })] } }

theorem witness_ComparesAndCaptures :
    (let w : Word := wrd (2 ^ 31 + 2 * 2 ^ 29 + b2n true * 2 ^ 28 + 1 * 2 ^ 16 + 7)
     Starts (cmd (enc1 {}) 0x61 [w, 0xFFFFFFFF, 0, 0]) 1022 0x61 [w, 0xFFFFFFFF, 0, 0] ∧ srcEn (enc1 {}) 1 = true) ∧
    (let w : Word := wrd (2 * 2 ^ 29 + b2n true * 2 ^ 28 + 1 * 2 ^ 16 + 7)
     Starts (cmd armed7 0x61 [w, 0, 0, 0]) 1022 0x61 [w, 0, 0, 0] ∧ srcEn armed7 1 = true) ∧
    (let s : State := { armed7 with pos := { armed7.pos with srcs := [(1, { count := 3, p := 0xC0000000 })] } }
     (s.src 1).capDue = none ∧ srcFilt s 1 = 0 ∧ (s.src 1).raw = filtLevels (s.src 1)) ∧
    (posRuns armed7 = true ∧ srcEn armed7 1 = true ∧ wbit (srcWord armed7 1 3) 31 = false ∧ armed7.pwr.sleep = .awake ∧
      (armed7.cmp 7).armed = true ∧ (armed7.cmp 7).source = 1 ∧ (armed7.cmp 7).armTick < armed7.now ∧ (armed7.cmp 7).step = 0 ∧
      (armed7.cmp 7).dir = 0 ∧ (quad (2 * b2n false + b2n true) + 4 - quad (armed7.src 1).ab) % 4 ∈ [1, 3] ∧
      crossing (armed7.cmp 7).modulo (armed7.cmp 7).t (armed7.src 1).p 0x100000000 = some 0) ∧
    (armed7.src 1).capDue = some 999999 ∧ ((sourceAt armed7 1 999999).started = true ∨ (1 : Nat) < 2) :=
  ⟨⟨starts_cmd (by decide), by decide +kernel⟩, ⟨starts_cmd (by decide), by decide +kernel⟩, by decide +kernel, by decide +kernel,
    by decide +kernel, by decide +kernel⟩

/-- Ring 15 of drive 3 with 256 nodes, ready. -/
def ring15 (g : Machine.Ring) (v : Drive) : State := { ready with
  drives := [(3, { v with arch := .string, cfg := 0x80000002 })], par := [(0x50101, 20000), (0x601F0, 0x81000000)],
  stip := { rings := [(15, { g with st := .ready, linkUp := true })] } }

/-- A return frame of ring 15 that answers `frame1`: SEQ 0, HOPS 256, every status 1, telemetry of node 255 alone, OK to transaction 63 of node 255. -/
def return1 : List Nat := [2, 0, 1, 7, 0, 0] ++ List.replicate 128 0x11 ++ List.replicate 124 0xFF ++
  [1, 2, 3, 0, 1, 63, 255, 0] ++ List.replicate 8 0 ++ [229, 242, 26, 36]

/-- The CRC-32 of bytes runs on over the blocks that make them up. -/
theorem crc_blocks {a b : List Nat} {c d e : Nat} (h : a.foldl (fun c b => crc32Bits 8 (c ^^^ b)) c = d)
    (h' : b.foldl (fun c b => crc32Bits 8 (c ^^^ b)) d = e) : (a ++ b).foldl (fun c b => crc32Bits 8 (c ^^^ b)) c = e := by
  rw [List.foldl_append, h, h']

/-- Block `k` of 32 bytes of `return1`. -/
def block1 (k : Nat) : List Nat := ((return1.take 274).drop (32 * k)).take 32

theorem test_return_crc : crc32 (return1.take 274) = 605745893 := by
  have h : return1.take 274 = block1 0 ++ (block1 1 ++ (block1 2 ++ (block1 3 ++ (block1 4 ++ (block1 5 ++ (block1 6 ++ (block1 7 ++
    block1 8))))))) := by decide +kernel
  have e : ((return1.take 274).foldl (fun c b => crc32Bits 8 (c ^^^ b)) 0xFFFFFFFF) = 3689221402 := by
    rw [h]
    exact crc_blocks (d := 977150455) (by decide +kernel) (crc_blocks (d := 3020102164) (by decide +kernel)
      (crc_blocks (d := 3818631333) (by decide +kernel) (crc_blocks (d := 3609984845) (by decide +kernel)
      (crc_blocks (d := 289499942) (by decide +kernel) (crc_blocks (d := 947269235) (by decide +kernel)
      (crc_blocks (d := 3579279898) (by decide +kernel) (crc_blocks (d := 1485406573) (by decide +kernel)
      (by decide +kernel))))))))
  rw [crc32, e]
  decide

/-- A down frame. -/
def frame1 : DownFrame := ⟨.normal, 0, 0, 0, 970000, 985000, List.replicate 256 3, some (255, 3, 0, 16), 0, none, []⟩

theorem witness_RingCommands : ready.marg.role ≠ 2 ∧
    (let s := ring15 {} {}
     Starts (cmd s 0x40 [wrd (256 * 2 ^ 16 + 15)]) 1022 0x40 [wrd (256 * 2 ^ 16 + 15)] ∧ 15 < ringCount s.part ∧
       ringDrive s 15 = some 3 ∧ (s.drive 3).dst = .idle ∧ 20000 ≤ tbLen s (driveTb (s.drive 3)) ∧
       tbLen s (driveTb (s.drive 3)) ≤ 400000 ∧ (s.ring 15).mgmt = [] ∧ (s.ring 15).pass = none ∧
       255 < ringNodes s 15 ∧ (s.ring 15).st = .ready ∧ ringDriveRuns s 15 = false) ∧
    (let s := ring15 { mgmt := List.replicate 63 ⟨0, 0, none, 0, 0, 0, 0⟩ } {}
     Starts (cmd s 0x41 [wrd (65535 * 2 ^ 16 + 15 * 2 ^ 8 + 255)]) 1022 0x41 [wrd (65535 * 2 ^ 16 + 15 * 2 ^ 8 + 255)] ∧
       (s.ring 15).mgmt.length < 64) ∧
    (let ws : List Word := [wrd (0x11 * 2 ^ 16 + 15 * 2 ^ 8 + 255), 0, 0]
     Starts (cmd (ring15 {} {}) 0x42 ws) 1022 0x42 ws) ∧
    Starts (cmd ready 0x43 [wrd (1 * 2 ^ 16 + 4095)]) 1022 0x43 [wrd (1 * 2 ^ 16 + 4095)] ∧ 4095 + 1 ≤ 256 * ringCount ready.part ∧
    (let ws : List Word := [wrd (b2n true * 2 ^ 31 + b2n true * 2 ^ 30 + b2n true * 2 ^ 29 + 1 * 2 ^ 16 + 4095), 0xAA50BE28, 0]
     Starts (cmd ready 0x44 ws) 1022 0x44 ws ∧ field 0xAA50BE28 23 16 ≤ field 0xAA50BE28 31 24 ∧
       field 0xAA50BE28 7 0 ≤ field 0xAA50BE28 15 8 ∧ fFinite 0 = true) := by
  refine ⟨by decide, ⟨starts_cmd (by decide), by decide +kernel⟩, ⟨starts_cmd (by decide), by decide +kernel⟩, starts_cmd (by decide),
    starts_cmd (by decide), by decide, starts_cmd (by decide), by decide +kernel⟩

theorem witness_returns : (let f := readReturn 128 9000 false return1
    f.crcOk = true) ∧ (let f := readReturn 128 9000 false return1
    f.seq = frame1.seq ∧ 256 ≤ f.hops ∧ f.tlmKind = 0 ∧ f.tlmGroup = 7 ∧ wbit (f.slots.getD 31 0xFFFFFFFF) 7 = false ∧ f.rstatus = 0 ∧
      f.rtid = 63 ∧ f.responder = 255) ∧ (readReturn 128 9000 false []).crcOk = false := by
  refine ⟨?_, by decide +kernel⟩
  simp only [readReturn, Nat.reduceAdd, test_return_crc]
  decide +kernel

theorem witness_RingFrames :
    (let s := ring15 {} { dst := .ss1 }
     ringSends s 15 = true ∧ headOf s 15 = true ∧ (s.ring 15).pass = none ∧ (s.ring 15).safeDue = false ∧ safeNibble s 15 = some 0 ∧
       frameDue s 15 .safe = true) ∧
    (let s := ring15 { next := some { frame1 with apply := 1007368 }, last := some frame1 } { dst := .run }
     ringSends s 15 = true ∧ headOf s 15 = true ∧ safeNibble s 15 = none ∧ ringDriveRuns s 15 = true ∧ (s.ring 15).next = some { frame1 with apply := 1007368 } ∧
       frameDue s 15 .normal = true ∧ inTime s 15 1007368 = true ∧ missedApply s 15 = none) ∧
    (let s := ring15 { last := some frame1, returned := false } { dst := .run }
     ringSends s 15 = true ∧ headOf s 15 = true ∧ safeNibble s 15 = none ∧ ringDriveRuns s 15 = true ∧ missedApply s 15 = some 1005000 ∧
       s.marg.hoDue = false ∧ (s.ring 15).last = some frame1) ∧
    (safeNibble (ring15 {} {}) 15 = none ∧ ringDriveRuns (ring15 {} {}) 15 = false ∧ ringSends (ring15 {} {}) 15 = true ∧
      headOf (ring15 {} {}) 15 = true ∧ frameDue (ring15 {} {}) 15 .idle = true) ∧
    (let s := ring15 { safeDue := true } { dst := .ss3 }
     ringSends s 15 = true ∧ headOf s 15 = true ∧ (s.ring 15).safeDue = true ∧ safeNibble s 15 = some 5 ∧
       downLaneFree s 15 = true) ∧
    (let s : State := { ring15 { last := some frame1, mgmt := [⟨1022, 63, none, 0, 255, 1, 2⟩] } {} with
        folio := (running ready 0x41).folio }
     ringSends s 15 = true ∧ (s.ring 15).last = some frame1 ∧ frame1.ftype ≠ .enum ∧ (s.ring 15).lateFold = false ∧
       (s.ring 15).farAt = none ∧ ringNodes s 15 = 256 ∧ (s.ring 15).mgmt = ⟨1022, 63, none, 0, 255, 1, 2⟩ :: [] ∧
       (tagEntry s 1022).isSome = true ∧ (s.ring 15).crcTick = none ∧
       frameStates (ringNodes s 15) frame1 = 128) ∧
    (let s := ring15 { req := some ⟨0x3F800000, 999999, 7⟩, last := some { frame1 with ftype := .idle }, returned := false } { dst := .run }
     nextString s = some 15 ∧ (s.ring 15).lateFold = false ∧
       (s.ring 15).foldDue = none) := by decide +kernel

/-- An enumeration pass. -/
def pass1 : EnumPass := ⟨256, some 1022, .link, false, 960000, false, false, 0, 0, [], [], [], []⟩

theorem witness_RingLinksAndPasses : 15 < ringCount ready.part ∧
    (let s : State := { running ready 0x40 with stip := { rings := [(15, { pass := some pass1, farDue := true })] } }
     (s.ring 15).pass = some pass1 ∧ pass1.step = .link ∧ pass1.start + 40000 ≤ s.now ∧ (s.ring 15).farDue = true ∧ pass1.tag = some 1022 ∧
       (tagEntry s 1022).map (fun e => e.phase) = some .running) ∧
    (let s : State := { ready with marg := { sideB := true, linkUp := true, role := 2 } }
     (s.ring 15).pass = none ∧ s.marg.sideB = true ∧ s.marg.linkUp = true ∧ s.marg.role ≠ 1 ∧ s.op = .standby ∧
       s.marg.role = 2) := by decide +kernel

/-- LPDDR5 in service with block 0 written, nothing waiting. -/
def lpBlock0 : State := { ready with mem := { lpOnline := true, density := 3, ranks := 1, wmap := [(0, true)] } }

theorem witness_MemoryCommands :
    (Starts (cmd lpBlock0 0x70 [0, 2, wrd 960]) 1022 0x70 [0, 2, wrd 960] ∧
      insideRegion lpBlock0 (ofTwoWords 0 2) 960 = true ∧ readable lpBlock0 (ofTwoWords 0 2) = true ∧
      lpWaits lpBlock0 (ofTwoWords 0 2) 960 false = false ∧
      lpWaits { lpBlock0 with mem := { lpBlock0.mem with lpHeld := true } } (ofTwoWords 0 2) 960 false = true) ∧
    (let ws : List Word := [0, 2, 0xFFFFFFFF]
     Starts (cmd lpBlock0 0x71 ws) 1022 0x71 ws ∧ rangeMapped lpBlock0 (ofTwoWords 0 2) 1 = true ∧
      rangeDenied lpBlock0 (ofTwoWords 0 2) 1 = false ∧
      touchesArmed lpBlock0 4 (ofTwoWords 0 2) 4 = false ∧ touchesMirror lpBlock0 (ofTwoWords 0 2) 4 = false ∧
      lpWaits lpBlock0 (ofTwoWords 0 2) 1 true = false ∧ blockWritten lpBlock0 (lpBlock (ofTwoWords 0 2)) = true ∧
      blockFilling lpBlock0 (lpBlock (ofTwoWords 0 2)) = false) ∧
    (let ws : List Word := [wrd (2 ^ 31 + 2 * 2 ^ 28 + b2n false * 2 ^ 24 + 3), 0x889000, 0, 1, 512, 1, 0]
     Starts (cmd ready 0x72 ws) 1022 0x72 ws ∧ (ready.cap 3).armed = false ∧ ofTwoWords 0x889000 0 % 4096 = 0 ∧
       0x4A0000 ≤ ofTwoWords 0x889000 0 ∧ ofTwoWords 0x889000 0 + 4096 ≤ 0x8A0000 ∧
       touchesArmed ready 3 (ofTwoWords 0x889000 0) 4096 = false) ∧
    (let ws : List Word := [wrd 3, 0, 0, 0, 0, 0, 0]
     let s : State := { ready with mem := { caps := [(3, { armed := true })] } }
     Starts (cmd s 0x72 ws) 1022 0x72 ws ∧ (s.cap 3).armed = true) ∧
    Starts (cmd ready 0x73 []) 1022 0x73 [] :=
  ⟨⟨starts_cmd (by decide), by decide +kernel⟩, ⟨starts_cmd (by decide), by decide +kernel⟩,
    ⟨starts_cmd (by decide), by decide +kernel⟩, ⟨starts_cmd (by decide), by decide +kernel⟩, starts_cmd (by decide)⟩

theorem witness_MemoryUpkeep :
    ((1 : Nat) < 2 ∧ ready.pwr.sleep = .awake ∧ scrubBase 1 + tblGet ready.mem.scrubAddr 0 1 + 1 < scrubTop ready 1 ∧
      errAt ready (8 * (scrubBase 1 + tblGet ready.mem.scrubAddr 0 1)) = .none ∧ mramOpen ready = true) ∧
    (let s : State := { ready with mem := { scrubAddr := [(1, 0x7FFFF)], errs := [(0x207FFFF, .single)] } }
     scrubTop s 1 ≤ scrubBase 1 + tblGet s.mem.scrubAddr 0 1 + 1 ∧
       errAt s (8 * (scrubBase 1 + tblGet s.mem.scrubAddr 0 1)) = .single) ∧
    (let s : State := { ready with op := .boot, pwr := { resetting := none, bootStep := 5 } }
     hasLp s.part = true ∧ s.mem.lpOnline = false ∧ s.mem.lpCause = 0 ∧ s.pwr.resetting = none ∧ 5 ≤ s.pwr.bootStep) ∧
    (lpReady.mem.lpOnline = true ∧ lpReady.mem.mr4Over = false ∧ lpReady.mem.mr4Tick + msTicks ≤ lpReady.now) ∧
    (refreshDue { lpReady with mem := { lpReady.mem with refTick := 998438, mr4 := 1 } } = false ∧
      refreshDue { lpReady with mem := { lpReady.mem with refTick := 998437, mr4 := 1 } } = true) ∧
    (let s : State := { lpReady with mem := { lpReady.mem with lpHeld := true, lpHeldAt := 920000, fills := [(7, [])] } }
     s.mem.lpHeld = true ∧ s.mem.lpHeldAt + 200 * usTicks ≤ s.now ∧
       s.mem.fills.find? (fun f => decide (f.1 = 7)) = some (7, []) ∧ s.mem.lpWait = [] ∧ s.mem.lpStore = []) ∧
    (let s : State := { lpReady with mem := { lpReady.mem with lpHeld := true, lpHeldAt := 920001 } }
     s.mem.lpHeld = true ∧ s.now < s.mem.lpHeldAt + 200 * usTicks) ∧
    (let s : State := { ready with mem := { caps := [(3, { armed := true, size := 1, write := 4096 })] } }
     (s.cap 3).armed = true ∧ captureFull (s.cap 3) = true ∧ underTest s 10 = false) ∧
    (let s : State := { lpBlock0 with mem := { lpBlock0.mem with
        lpOut := [3], caps := [(3, { armed := true, lp := true, base := 0x200000000, size := 1, queue := [5] })] } }
     s.mem.lpOnline = true ∧ s.mem.lpHeld = false ∧ 3 ∈ s.mem.lpOut ∧ (s.cap 3).queue = 5 :: [] ∧ s.mem.lpWait = [] ∧ s.mem.lpStore = [] ∧
       ((s.cap 3).base + (s.cap 3).write) % 8 = 0 ∧ blockWritten s (lpBlock ((s.cap 3).base + (s.cap 3).write)) = true ∧
       blockFilling s (lpBlock ((s.cap 3).base + (s.cap 3).write)) = false) ∧
    (let s : State := { lpReady with
        mem := { lpReady.mem with lpOut := [4] }, book := { mirQueue := [logged] },
        par := [(0xD0004, 0x80000000), (0xD0006, 2), (0xD0007, 1)] }
     4 ∈ s.mem.lpOut ∧ s.book.mirQueue = logged :: [] ∧ mirrorArea s = some (0x200000000, 2 ^ 20) ∧
       s.book.mirIndex + 1 < mirrorSize s) := by decide +kernel

theorem witness_SketchbookEntries :
    (let e := mkEvent ready 0x0902 0 []
     ∀ b ∈ [({ frozen := true } : Sketchbook), {}, { armed := true, left := 2 }, { armed := true, left := 3 }],
       ({ ready with book := { b with inq := [e] } } : State).book.inq = e :: []) ∧
    (tickOpen ready (mkEvent ready 0x0902 0 []) = true ∧ tickOpen ready { mkEvent ready 0x0902 0 [] with time := 999999 } = false) ∧
    (let e : Event := { mkEvent ready 0x0D02 0 [] with time := 999999 }
     let s : State := { running ready 0x81 with book := { inq := [e], markWait := [(0x0D02, 999999, 1022)] } }
     s.book.markWait.find? (fun w => w.1 = e.code && w.2.1 = e.time) = some (e.code, e.time, 1022) ∧
       (tagEntry s 1022).map (fun x => decide (x.phase ≠ .replied)) = some true) ∧ ready.mem.errs = [] ∧
    Starts (cmd ready 0x80 [wrd (b2n true * 2 ^ 31 + 32 * 2 ^ 16 + 65535)]) 1022 0x80 [wrd (b2n true * 2 ^ 31 + 32 * 2 ^ 16 + 65535)] ∧
    Starts (cmd ready 0x81 [1, 2, 3, 4]) 1022 0x81 [1, 2, 3, 4] ∧ Starts (cmd ready 0x82 [3]) 1022 0x82 [3] ∧
    (ready.book.inq = [] ∧ ready.book.frozen = false ∧ ready.book.armed = false ∧ ready.book.log.length < 4096) := by
  refine ⟨?_, by decide, by decide, rfl, starts_cmd (by decide), starts_cmd (by decide), starts_cmd (by decide), by decide⟩
  intro e b _
  rfl

/-- A paired device with its link up. -/
def paired (r : Nat) (b : Bool) : State := { ready with marg := { linkUp := true, role := r, sideB := b }, tim := { ready.tim with td4 := true } }

theorem arrives_of {s : State} {q : Nat} (h : (s.marg.linkUp && marginRuns s && decide (q = s.marg.rxSeq) && decide (s.marg.leaving = false)) = true) :
    Arrives s q := by
  simp only [Bool.and_eq_true, decide_eq_true_eq] at h
  exact ⟨h.1.1.1, h.1.1.2, h.1.2, h.2⟩

/-- The header of a relayed GET_PARAM with one address, and one whose CRC is wrong. -/
def relayed (ok : Bool) : List Word :=
  let h := mkHeader 0x03 5 1 0 1 0 ^^^ (if ok then 0 else 1)
  twoWords h.toNat ++ [0x00000000, payloadCrc [0x00000000], 0, 0, 0, 0]

theorem witness_PairMessages :
    (let ws : List Word := wrd 13 :: [1, 2, 3, 4, 5, 6, 7, 8]
     Starts (cmd ready 0x90 ws) 1022 0x90 ws ∧ slotFull ready 13 = false) ∧
    (let s : State := { ready with marg := { inbox := [(15, some ([1, 2, 3, 4, 5, 6, 7, 8], true))] } }
     Starts (cmd s 0x91 [wrd 15]) 1022 0x91 [wrd 15] ∧ inMessage s 15 = some ([1, 2, 3, 4, 5, 6, 7, 8], true) ∧
       inMessage ready 15 = none) ∧
    Starts (cmd ready 0x92 [1, 2]) 1022 0x92 [1, 2] ∧ Arrives (paired 0 false) 0 ∧ inMessage (paired 0 false) 15 = none ∧
    (let s : State := { ready with marg := { inbox := [(12, some (relayed false, false)), (13, some (relayed true, false))] } }
     let h := BitVec.ofNat 64 (ofTwoWords ((relayed true).getD 0 0) ((relayed true).getD 1 0))
     engineReady s 0x03 = true ∧ slotFull s 14 = false ∧ slotFull s 15 = false ∧ tblGet s.marg.relayWait [] 13 = [] ∧
       inMessage s 12 = some (relayed false, false) ∧ inMessage s 13 = some (relayed true, false) ∧
       relayCode s (BitVec.ofNat 64 (ofTwoWords ((relayed false).getD 0 0) ((relayed false).getD 1 0))) = acHeaderCrc ∧
       acHeaderCrc ≠ acAccepted ∧ relayCode s h = acAccepted ∧ hOpcode h = 0x03 ∧ hLength h = 1 ∧
       (relayed true).getD (2 + hLength h) 0 = payloadCrc (((relayed true).drop 2).take (hLength h)) ∧
       getBad s 0 = false ∧ isAbsent s (adUnit 0) (adIndex 0) = false ∧ adUnit 0 = 0) :=
  ⟨⟨starts_cmd (by decide), by decide +kernel⟩, ⟨starts_cmd (by decide), by decide +kernel, by decide +kernel⟩,
    starts_cmd (by decide), arrives_of (by decide), by decide +kernel, by decide +kernel⟩

theorem witness_LockRegisters :
    (∀ o ∈ [LockOwner.free, .hostA, .plateB], lockOwner ({ ready with marg := { locks := [(31, o)] } } : State) 31 = o) ∧
    ready.marg.sideB = false ∧ Starts (cmd ready 0x93 [wrd 31]) 1022 0x93 [wrd 31] ∧ Starts (cmd ready 0x94 [wrd 31]) 1022 0x94 [wrd 31] ∧
    (let s := paired 2 true
     s.marg.sideB = true ∧ Starts (cmd s 0x93 [wrd 31]) 1022 0x93 [wrd 31] ∧ Starts (cmd s 0x94 [wrd 31]) 1022 0x94 [wrd 31]) ∧
    (let s : State := { paired 2 true with folio := (running ready 0x94).folio, marg := { (paired 2 true).marg with lockWait := [(9, 1022, true)] } }
     Arrives s 0 ∧ s.marg.lockWait.find? (fun w => decide (w.1 = 9)) = some (9, 1022, true) ∧
       (tagEntry s 1022).map (fun e => e.phase) = some .running) ∧
    Arrives (paired 1 false) 0 := by
  refine ⟨by decide +kernel, rfl, starts_cmd (by decide), starts_cmd (by decide), ⟨rfl, starts_cmd (by decide), starts_cmd (by decide)⟩,
    ⟨arrives_of (by decide), by decide +kernel, by decide +kernel⟩, arrives_of (by decide)⟩

theorem witness_LinkCells :
    (marginRuns ready = true ∧ ready.marg.linkUp = false ∧
      ({ ready with marg := { deskewed := true, linkTick := some 999200 } } : State).marg.deskewed = true) ∧
    (∀ x, (some 999200 : Option Nat) = some x → x + 2 * usTicks ≤ ready.now) ∧
    (∀ x, (some 999201 : Option Nat) = some x → ready.now < x + 2 * usTicks) ∧
    (let s : State := { paired 1 false with marg := { (paired 1 false).marg with wireEnd := 1000001 } }
     s.now < s.marg.wireEnd) ∧
    (let s : State := { paired 1 false with marg := { (paired 1 false).marg with
        resend := [⟨.mailbox, 65535, 0, 3, [], 0⟩], queue := [⟨.mirror, 0, 0, 0, [], 0⟩] } }
     s.marg.wireEnd ≤ s.now ∧ s.marg.resend = ⟨.mailbox, 65535, 0, 3, [], 0⟩ :: [] ∧ ∀ x ∈ s.marg.queue, x.ctype ≠ .heartbeat) ∧
    (let s : State := { paired 1 false with marg := { (paired 1 false).marg with rxTick := some 999600 } }
     s.marg.linkUp = true ∧ s.marg.queue = [] ∧ s.marg.rxTick = some 999600 ∧ 999600 + usTicks ≤ s.now) ∧
    (let s : State := { paired 1 false with marg := { (paired 1 false).marg with
        crcRun := 8, resends := 16, queue := [⟨.mirror, 0, 0, 0, [], 0⟩, ⟨.heartbeat, 0, 0, 0, [], 0⟩], unacked := [⟨.mailbox, 65535, 0, 3, [], 0⟩],
        wireEnd := 1000000, ackTick := 999200, rxTick := some 999600 } }
     s.marg.linkUp = true ∧ marginRuns s = true ∧ 8 ≤ s.marg.crcRun ∧ 16 ≤ s.marg.resends ∧ s.marg.unacked.length < 64 ∧
       bestCell s.marg.queue = some ⟨.heartbeat, 0, 0, 0, [], 0⟩ ∧ cellRank .heartbeat ≤ 5 ∧
       s.marg.wireEnd ≤ s.now ∧ s.marg.resend = [] ∧ s.marg.ackTick + 2 * usTicks ≤ s.now ∧
       s.marg.unacked = ⟨.mailbox, 65535, 0, 3, [], 0⟩ :: [] ∧ s.marg.leaving = false ∧ acked 65535 65535 = true) ∧
    (let s : State := { paired 1 false with marg := { (paired 1 false).marg with outbox := [(15, [1, 2, 3, 4, 5, 6, 7, 8])], credit := 0x8000 } }
     s.marg.linkUp = true ∧ s.marg.queue = [] ∧ s.marg.unacked.length < 64 ∧ slotReady s = some 15) := by
  simp only [Option.some.injEq, forall_eq']
  decide +kernel

/-- A good heartbeat of an exchange that is 8/16 tick off. -/
def hb0 : Heartbeat := ⟨999970, 100, 131, 1, 1, 0, 0, 1, 0⟩

/-- A standby whose partner has gone silent with drive 3 in RUN. -/
def silent : State := { paired 2 true with drives := [(3, direct0)], marg := { (paired 2 true).marg with
    hbSeen := true, hbLost := true, hbArrive := 900000, partnerRun := 8, ownElig := 0, peerOwnTick := 999840 } }

theorem witness_HeartbeatsAndMirrors :
    (let s : State := { paired 2 true with marg := { (paired 2 true).marg with hbSeen := true, hbArrive := 988000 } }
     marginRuns s = true ∧ s.marg.linkUp = true ∧ s.marg.role = 2 ∧ s.marg.hbSeen = true ∧ s.marg.hbArrive + 12000 ≤ s.now ∧
       s.marg.hbLost = false ∧ s.marg.peerLeft = false ∧ s.tim.stepDue = false ∧ (exchangeError s hb0).natAbs ≤ 12 ∧ hb0.role % 4 ≠ 0 ∧ s.marg.leaving = false ∧
       s.marg.hbTick + 4000 ≤ s.now ∧ hbMissed s = false) ∧
    (let s : State := { paired 2 true with marg := { (paired 2 true).marg with hbSeen := true, hbArrive := 995999, hbTick := 996000 } }
     s.marg.linkUp = true ∧ s.marg.hbTick + 4000 ≤ s.now ∧ hbMissed s = true) ∧
    (let s : State := { paired 2 true with marg := { (paired 2 true).marg with hbTick := 996001 } }
     s.now < s.marg.hbTick + 4000) ∧
    (let s : State := { paired 2 true with marg := { (paired 2 true).marg with statusTick := some 960000 } }
     s.marg.linkUp = true ∧ s.marg.role ≠ 0 ∧ s.marg.statusTick = some 960000 ∧ 960000 + 100 * usTicks ≤ s.now) ∧
    (marginRuns silent = true ∧ silent.marg.role = 2 ∧ silent.marg.hbLost = true ∧ silent.marg.partnerRun ≠ 0 ∧
      silent.marg.ownElig % 64 = 0 ∧ takeoverWitness silent = true ∧ 3 ∈ takenDrives silent) ∧
    (let s : State := { paired 2 true with hatch := { tbs := [(3, { running := true, t0 := 1000000 })] }, par := [(0x50301, 20000)] }
     Arrives s 0 ∧ s.marg.role = 2 ∧ (s.tb 3).running = true ∧ 0 < tbLen s 3 ∧ (s.tb 0).running = false ∧
       ringPresent s 15 = true) :=
  ⟨by decide +kernel, by decide +kernel, by decide +kernel, by decide +kernel, by decide +kernel, arrives_of (by decide), by decide +kernel⟩

theorem witness_HandOver :
    (Starts (cmd (paired 0 false) 0xA0 [wrd 1]) 1022 0xA0 [wrd 1] ∧ (paired 0 false).marg.sideConflict = false ∧
      (paired 0 false).marg.presMismatch = false ∧ 1 ≠ (paired 0 false).marg.partnerRole) ∧
    (let s : State := { paired 1 false with marg := { (paired 1 false).marg with partnerElig := 0 } }
     Starts (cmd s 0xA1 []) 1022 0xA1 [] ∧ s.marg.role = 1 ∧ s.marg.partnerElig.testBit 6 = false ∧ s.marg.ho = .none ∧
       ∀ d, d < 4 → ssRank (s.drive d).dst = 0 ∧ (s.drive d).dst ≠ .stopping ∧ (s.drive d).discharging = false) ∧
    (let s : State := { paired 2 true with
        tim := { ready.tim with aligned := true, master := false, td4 := true },
        marg := { (paired 2 true).marg with mirrorOk := true, lastStatus := [0, 0, 0, 0, 0, 0, 0, 0] } }
     Arrives s 0 ∧ eligibility s = 0 ∧ s.marg.role = 2 ∧ eligibility (paired 2 true) ≠ 0) ∧
    (let s : State := { paired 1 false with
        folio := (running ready 0xA1).folio,
        marg := { (paired 1 false).marg with ho := .offered, hoTh := 1002000, hoTag := some 1022 } }
     Arrives s 0 ∧ s.marg.ho = .offered ∧ s.now + 2000 ≤ s.marg.hoTh ∧ s.marg.hoTh ≤ s.now + 2000 ∧ s.marg.hoTag = some 1022 ∧
       (tagEntry s 1022).map (fun e => e.phase) = some .running) ∧
    (∀ r ∈ [1, 2], ∀ b ∈ [true, false],
      let s : State := { paired r b with marg := { (paired r b).marg with ho := .accepted, hoTh := 1000000 } }
      s.marg.ho = .accepted ∧ s.marg.hoTh ≤ s.now ∧ s.marg.role = r ∧ ∀ d, d < 4 → (s.drive d).hd = none) ∧
    (let s : State := { paired 1 false with marg := { (paired 1 false).marg with ownDue := true, peerOwnTick := 999840 } }
     s.marg.ownDue = true ∧ s.marg.role = 1 ∧ s.marg.peerOwn = false ∧ s.marg.peerOwnTick + 160 ≤ s.now) :=
  ⟨⟨starts_cmd (by decide), by decide +kernel⟩, ⟨starts_cmd (by decide), by decide +kernel⟩,
    ⟨arrives_of (by decide), by decide +kernel, by decide +kernel, by decide +kernel⟩, ⟨arrives_of (by decide), by decide +kernel⟩,
    by decide +kernel, by decide +kernel⟩

/-- Drive 3 of a running device with the given state and parameters. -/
def timed (v : Drive) (par : Tbl Word) : State := { drive3 .run with drives := [(3, v)], par := par }

/-- Registration 3 with a delivery in which phase a is out of range, and no marks. -/
def reg3 (r : Registration) : State := { drive3 .run with
  so := { enable := true, regs := [(3, { r with codes := [some 0x20000, some 0, some 0], trig := 999000, fresh := true })] } }

theorem witness_StopOutTimers :
    (ready.so.enable = true ∧ isAsleep ready = false) ∧
    (let s := timed { direct0 with dst := .ss1 } [(0x90013, 0x80000000)]
     (s.drive 3).dst = .ss1 ∧ hasArch (s.drive 3) = true ∧ (s.drive 3).clearDue = false ∧ (s.drive 3).classD = false ∧
       (s.drive 3).exempt = false ∧ wbit (parGet s 9 (0x10 + 3)) 31 = true ∧ reactionsApply s = true ∧
       speedHeld (noteSpeeds s) 3 = true) ∧
    (∀ b ∈ [true, false],
      let s : State := { timed { direct0 with dst := .stopping, ts := 0 } [(0x90013, 2)] with hatch := { tbs := [(0, { running := b, startTick := 1 })] } }
      (s.drive 3).dst = .stopping ∧ (s.drive 3).ts + parField s 9 (0x10 + 3) 15 0 * 400000 ≤ s.now ∧
        periodNow s (driveTb (s.drive 3)) = !b) ∧
    (let s : State := { timed { direct0 with dst := .ss3, ts := 0, discharging := true, holdTs := some 0 } [] with now := 800000000 }
     dischargeTs (s.drive 3) = some 0 ∧ (s.drive 3).discharging = true ∧ 0 + 800000000 ≤ s.now ∧ holdOver s 3 = true ∧
       isString (s.drive 3) = false ∧ (s.drive 3).lastV = none) ∧
    (let bled (f : Nat → Bool) : State := { timed { direct0 with
        arch := .string, dst := .ss3, cfg := 0x80000002, ts := 0, discharging := true, bleedTs := some 0,
        bled := (List.range 256).map fun p => (3840 + p, f p) } [(0x601F0, 0x81000000)] with now := 800000000 }
     dischargeTs ((bled fun _ => true).drive 3) = some 0 ∧ isString ((bled fun _ => true).drive 3) = true ∧
       ((bled fun _ => true).drive 3).discharging = true ∧
       ((stringDischarge 3 (bled fun _ => true)).drive 3).discharging = false ∧
       ((stringDischarge 3 (bled fun p => decide (p ≠ 255))).drive 3).discharging = true) ∧
    (let s := reg3 {}
     (s.regn 3).codes = [some 0x20000, some 0, some 0] ∧ (s.regn 3).fresh = true ∧ convRun s = true ∧ markedCell s (regCells 3) = none ∧ s.mem.errs = [] ∧
       wbit 0x20000 17 = true ∧ driveRuns (s.drive 3) = true ∧ (s.regn 3).timer = none ∧ (s.regn 3).lastEval + 100000 ≤ s.now) ∧
    (let s := reg3 { timer := some 0 }
     (s.regn 3).timer = some 0 ∧ 0 + field (regPar s 3 0xA) 10 0 * 400 ≤ s.now) := by decide +kernel

/-- A store to the first word of region 8. -/
def txn1 (v : Word) : Txn := ⟨1, .store 0x4A0000 v 15 0⟩

/-- A checkpoint of equal signatures and a self-test that passes, or not. -/
def ck1 (n q : Nat) : CheckpointData := ⟨n, [1], [1], 0, 0, 2, q⟩

/-- The pair in the given mode. -/
def pairIn (p : Plate) : State := { ready with plate := p }

theorem witness_PairModes :
    (compared ready = true ∧ (txn1 7).what = .store 0x4A0000 7 15 0 ∧ ready.plate.cbuf = [] ∧ ready.plate.cbufNext = [] ∧
      ready.mem.lpStore = [] ∧ memOf 0x4A0000 ≠ 2 ∧ mramShut ready 0x4A0000 = false ∧ 0x4A0000 < slotBase 0 ∧
      (regionAt ready 0x4A0000).isSome = true ∧ 0x4A0000 % 4 = 0 ∧ txn1 0 ≠ txn1 1 ∧ (txn1 0).num = (txn1 1).num) ∧
    (let e : DelayEntry := ⟨⟨1, .memory 8⟩, 3, 0⟩
     let s := pairIn { dq := [e] }
     compared s = true ∧ s.plate.dq = e :: [] ∧ s.plate.dqNext = [] ∧ e.req ≠ ⟨1, .memory 12⟩) ∧
    (samplesAgree .level 0 1 = false ∧ samplesAgree .time 0 65 = false ∧ samplesAgree .timer 65 0 = false) ∧
    (let s := pairIn { disagree := [999999, 999998, 999997] }
     compared s = true ∧ 3 ≤ (inWindow s 400000 s.plate.disagree).length) ∧
    (coresRun ready = true ∧ ready.plate.wdTick + 388000 ≤ ready.now ∧ nextCheckpoint ready = 4096 ∧
      checkpointAt ready 0 = true ∧ checkpointAt ready 4096 = true ∧ checkpointAt ready 4097 = false ∧
      selfTestOk (ck1 4096 1) = true ∧ selfTestOk (ck1 4096 2) = false ∧ signature [1] ≠ signature [2] ∧ (inWindow ready 400000000 ready.plate.latent).length < 2) ∧
    (let s := pairIn { latent := [999999, 999998] }
     2 ≤ (inWindow s 400000000 s.plate.latent).length ∧ s.plate.mode = .lockstep) ∧
    (∀ m ∈ [PairMode.splitPending, .joining],
      let s : State := { pairIn { mode := m, splitTag := some 1022, joinTag := some 1022 } with folio := (running ready 0xA2).folio }
      coresRun s = true ∧ s.plate.mode = m ∧ s.pwr.sleepTag = none ∧ s.pwr.shutTag = none ∧
        (tagEntry s 1022).map (fun e => e.phase) = some .running) ∧
    Starts (cmd ready 0xA2 [0]) 1022 0xA2 [0] ∧
    (let s := pairIn { mode := .split, taskResult := 1 }
     s.plate.mode = .split ∧ s.plate.taskResult = 1 ∧ s.plate.taskTick + watchdogTicks ≤ s.now ∧
       Starts (cmd s 0xA3 []) 1022 0xA3 []) ∧
    (pairIn { mode := .resync }).plate.mode = .resync ∧
    (∀ b ∈ [true, false],
      let s : State := { pairIn { mode := .restarting } with pwr := { resetting := some .pair }, folio := { inReset := b } }
      s.pwr.resetting = some .pair ∧ s.folio.inReset = b ∧ s.plate.mode = .restarting) :=
  ⟨by decide +kernel, by decide +kernel, by decide, by decide +kernel, by decide +kernel, by decide +kernel, by decide +kernel,
    starts_cmd (by decide), ⟨by decide, by decide, by decide, starts_cmd (by decide)⟩, by decide, by decide +kernel⟩

/-- A device with a firmware update session open. -/
def updating : State := pairIn { session := some 1572864 }

theorem witness_FirmwareUpdate : mramDenied ready = false ∧ mramDenied updating = false ∧
    (Starts (cmd ready 0xC0 [1572864]) 1022 0xC0 [1572864] ∧ (1572864 : Word).toNat % 4 = 0 ∧ (1572864 : Word).toNat ≤ slotSize) ∧
    (Starts (cmd updating 0xC1 [1572860, 7]) 1022 0xC1 [1572860, 7] ∧ updating.plate.session = some 1572864 ∧
      (1572860 : Word).toNat + 4 ≤ 1572864) ∧
    Starts (cmd updating 0xC2 []) 1022 0xC2 [] ∧ Starts (cmd updating 0xC3 []) 1022 0xC3 [] :=
  ⟨by decide +kernel, by decide +kernel, ⟨starts_cmd (by decide), by decide +kernel⟩, ⟨starts_cmd (by decide), by decide +kernel⟩,
    starts_cmd (by decide), starts_cmd (by decide)⟩

theorem witness_DebugUnlock :
    ((pairIn { debug := .unlocked }).plate.debug = .unlocked ∧ ready.plate.debug ≠ .unlocked ∧ ready.op = .standby) ∧
    (let s := pairIn { nonce := some 5 }
     s.plate.nonce ≠ none ∧ s.plate.debug = .locked ∧ (List.replicate 16 (0 : Word)).length = 16) ∧
    (List.replicate 15 (0 : Word)).length ≠ 16 ∧ (pairIn { debug := .checking }).plate.debug = .checking ∧
    ((pairIn { debug := .blocked }).plate.debug = .blocked ∧ ticking State.reset = false) ∧
    (let s : State := { pairIn { debug := .blocked, blockTick := 1 } with now := 400000001 }
     s.plate.blockTick + 400000000 ≤ s.now) := by decide

theorem witness_DebugPort :
    (let s := pairIn { debug := .unlocked, bps := [(5, some 0x4A0000)] }
     s.plate.debug = .unlocked ∧ coresRun s = true ∧ tblGet s.plate.bps none 5 ≠ none ∧ regionNum s 0x4A0000 ∈ [8, 9, 16, 17] ∧
       s.plate.halted = false ∧ (regionAt s 0x4A0000).isSome = true ∧ s.plate.replay = []) ∧
    (∀ n ∈ [0, 1],
      let s := pairIn { debug := .unlocked, halted := true, retP := n }
      s.plate.debug = .unlocked ∧ s.plate.halted = true ∧ s.plate.replay = [] ∧ (s.plate.retC < s.plate.retP ↔ n = 1) ∧
        (∀ d, d < 4 → (s.drive d).dst ≠ .run) ∧ namesLp 0x4A0000 = false ∧ memOf 0x4A0000 ≠ 2 ∧ mramShut s 0x4A0000 = false ∧ 0x4A0000 < slotBase 0) ∧
    (let s : State := { pairIn { debug := .unlocked, halted := true } with drives := [(3, { direct0 with dst := .run })] }
     (s.drive 3).dst = .run ∧ s.plate.halted = true) ∧
    (let s : State := { pairIn { debug := .unlocked } with op := .boot, pwr := { resetting := none, bootStep := 5 }, nv := [] }
     s.plate.debug = .unlocked ∧ bootStuck s = true) := by decide +kernel

/-- A Burnish run with unit 0 in progress, of record `r`. -/
def burning (b : Burnish) : State := { ready with op := .shutdown, burn := b }

theorem witness_BurnishRun :
    (let s := burning { phase := .running, todo := [0, 1, 2], cur := some {} }
     s.burn.phase = .running ∧ s.burn.todo = 0 :: 1 :: [2] ∧ s.burn.cur = some {} ∧ ({} : BurnRec).kind ≠ 1 ∧
       s.burn.abortPend = false ∧ endsBlock s 0 [1, 2] = false ∧ s.mem.errs = [] ∧ (1 : Nat) ≠ 178) ∧
    (burning { phase := .running, todo := [177, 178, 179], cur := some {} }).burn.todo = 177 :: 178 :: [179] ∧
    (let s : State := { burning { phase := .running, todo := [0, 1], cur := some {} } with
        mem := { marks := [(trimAddr 0 false / 8, .bite)] } }
     readMark s (trimAddr 0 s.burn.quick) = .bite) ∧
    (let s := burning { phase := .running, unit := 0, unitAt := 0 }
     0 < unitLimit s ∧ ({ s with now := unitLimit s } : State).burn.unitAt + unitLimit s ≤ ({ s with now := unitLimit s } : State).now) ∧
    (let s : State := { ready with burn := { phase := .running, quick := true, todo := [15], cur := some { kind := 1 } } }
     s.burn.phase = .running ∧ s.burn.todo = 15 :: [] ∧ s.burn.cur = some { kind := 1 } ∧
       unitResult s 15 0 0 [⟨0, 0, 0, 0, 0, 0⟩] = 2) ∧
    (let s := burning { phase := .draining, todo := [177, 179] }
     s.burn.phase = .draining ∧ s.folio.tags = [] ∧ (running s 0x01).folio.tags ≠ [] ∧ s.burn.todo = 177 :: 179 :: [] ∧
       s.burn.unitAt + 10 * msTicks ≤ ({ s with now := 4000000 } : State).now ∧ s.burn.abortTags = [] ∧
       s.burn.abortPend = false) ∧
    (let s := burning { phase := .running, reload := true, cur := some { results := [(5, 2)] } }
     s.burn.reload = true ∧ s.burn.cur = some { results := [(5, 2)] } ∧ s.burn.abortPend = false ∧
       recResult { results := [(5, 2)] } 5 = 2 ∧ ∀ u, u < 180 → recResult {} u ≠ 2) ∧
    (∀ p ∈ [BurnPhase.running, .closed, .draining], (burning { phase := p, cur := some {} }).burn.phase = p ∧ (burning { phase := p, cur := some {} }).burn.abortTags = []) ∧
    (Starts (cmd (burning { phase := .running }) 0xB2 []) 1022 0xB2 [] ∧ Starts (cmd (burning { phase := .closed }) 0xB2 []) 1022 0xB2 [] ∧
      Starts (cmd (burning { phase := .draining }) 0xB2 []) 1022 0xB2 []) ∧
    (Starts (cmd ready 0xB3 [0]) 1022 0xB3 [0] ∧ newestWith ready (fun r => decide (2 ≤ r.state)) = none) ∧
    (let s : State := { ready with burn := { slots := [(1, some { run := 1, state := 2 })] } }
     Starts (cmd s 0xB3 [0]) 1022 0xB3 [0] ∧
       newestWith s (fun r => decide (2 ≤ r.state)) = some (1, { run := 1, state := 2 }) ∧ markAt s (recAddr 1 453) ≠ .bite ∧
       markAt { s with mem := { marks := [(recAddr 1 453 / 8, .bite)] } } (recAddr 1 453) = .bite) ∧
    Starts (cmd (burning { phase := .running, cur := some {} }) 0xB3 [1]) 1022 0xB3 [1] :=
  ⟨by decide +kernel, by decide, by decide +kernel, by decide +kernel, by decide +kernel, by decide +kernel, by decide +kernel,
    by decide +kernel, ⟨starts_cmd (by decide), starts_cmd (by decide), starts_cmd (by decide)⟩, ⟨starts_cmd (by decide), by decide +kernel⟩,
    ⟨starts_cmd (by decide), by decide +kernel⟩, starts_cmd (by decide)⟩

/-- A device at the given step of its boot. -/
def booting (n : Nat) (nv : Tbl Word) : State := { State.reset with
  tim := { xinOk := true }, nv := nv, pwr := { resetting := none, bootStep := n } }

theorem witness_PowerSteps :
    (ready.pwr.resetting ≠ some .powerOn ∧ ready.pwr.resetting ≠ some .system ∧ State.reset.pwr.resetting = some .powerOn) ∧
    (∀ n, n < 7 → let s := booting n [(0x80100, 1)]
      s.op = .boot ∧ s.pwr.resetting = none ∧ s.pwr.bootStep = n ∧ s.tim.xinOk = true ∧ s.burn.todo = [] ∧ s.pwr.supplyBad = [] ∧
        slotFound (readSlots s) = true) ∧
    (let s : State := { booting 1 [] with pwr := { resetting := none, bootStep := 1, supplyBad := [(1, true)] } }
     s.op = .boot ∧ s.pwr.supplyBad ≠ []) ∧
    (let s := booting 5 []
     slotFound (readSlots s) = false ∧ s.mem.errs = [] ∧ s.pwr.resetCode < 2) ∧
    (let s : State := { ready with pwr := { resetting := some .warm, bootStep := 6 } }
     s.pwr.resetting = some .warm ∧ s.pwr.bootStep = 6) ∧
    (∀ m ∈ [PairMode.split, .joining],
      stopsRun (pairIn { mode := m }) = false ∧ splitMode (pairIn { mode := m }).plate.mode = true) ∧
    (Starts (cmd (pairIn { mode := .split }) 0xB0 []) 1022 0xB0 [] ∧ Starts (cmd (pairIn { mode := .split }) 0xB1 []) 1022 0xB1 []) ∧
    (stopsRun ready = false ∧ splitMode ready.plate.mode = false ∧ ready.grav.waits = [] ∧ Starts (cmd ready 0xB0 []) 1022 0xB0 [] ∧
      Starts (cmd ready 0xB1 []) 1022 0xB1 [] ∧ ready.op ≠ .shutdown ∧ ready.marg.role = 0) ∧
    (let s := paired 1 false
     s.marg.role ≠ 0 ∧ s.marg.linkUp = true ∧ Starts (cmd s 0xB1 []) 1022 0xB1 [] ∧ Starts (cmd s 0xB4 [1]) 1022 0xB4 [1] ∧
       s.pwr.shutTag = none) ∧
    Starts (cmd ready 0xB4 [0]) 1022 0xB4 [0] ∧
    (let s : State := { running (paired 1 false) 0xB1 with
        marg := { (paired 1 false).marg with leaving := true }, pwr := { resetting := none, shutTag := some 1022 } }
     s.marg.leaving = true ∧ s.marg.leaveTick + 2 * usTicks ≤ s.now ∧ s.pwr.shutTag = some 1022 ∧ (tagEntry s 1022).map (fun e => e.phase) = some .running) ∧
    (let s : State := { running (paired 1 false) 0xB4 with
        marg := { (paired 1 false).marg with leaving := true }, pwr := { resetting := none, resetDue := some (1022, 1) } }
     s.marg.leaving = true ∧ s.pwr.shutTag = none ∧ s.pwr.resetDue = some (1022, 1)) ∧
    (let s : State := { ready with pwr := { resetting := none, sleepDue := true } }
     s.pwr.sleepDue = true ∧ splitMode s.plate.mode = false ∧ s.marg.leaving = false ∧ laneEmpty s = true ∧ s.marg.role = 0) ∧
    (let s : State := { ready with pwr := { resetting := none, sleep := .leaving } }
     s.pwr.sleepDue = false ∧ s.pwr.sleep = .leaving ∧ sequencesQuiet s = true) ∧
    (let s : State := { ready with pwr := { resetting := none, sleep := .asleep, wakeCfg := 0xA0000001 } }
     s.pwr.sleep = .asleep ∧ wbit s.pwr.wakeCfg 31 = true ∧ wbit s.pwr.wakeCfg 29 = true ∧ s.so.enable = true ∧
       field s.pwr.wakeCfg 19 0 ≠ 0 ∧ 32000 * field s.pwr.wakeCfg 19 0 ≤ 32000) ∧
    (let s : State := { ready with pwr := { resetting := none, sleep := .waking } }
     s.pwr.sleep = .waking ∧ isAsleep s = false ∧ s.therm.held = []) ∧
    (ready.now < ({ ready with marg := { leaveTick := 999201 } } : State).marg.leaveTick + 2 * usTicks) := by
  refine ⟨by decide, by decide +kernel, by decide, by decide +kernel, by decide, by decide, ⟨starts_cmd (by decide), starts_cmd (by decide)⟩,
    ⟨by decide, by decide, by decide, starts_cmd (by decide), starts_cmd (by decide),
    by decide, by decide⟩, ⟨by decide, by decide, starts_cmd (by decide), starts_cmd (by decide), by decide⟩, starts_cmd (by decide),
    by decide +kernel, by decide +kernel, by decide +kernel, by decide +kernel, by decide +kernel, by decide +kernel, by decide⟩

theorem witness_Housekeeping : ready.pwr.resetting ≠ some .powerOn ∧ ready.therm.published = true ∧ ready.therm.band = 1 ∧
    (ready.pwr.sleep = .awake ∧ ready.therm.thr.testBit 3 = false ∧ tblGet ready.therm.out false 31 = false) ∧
    hasLp ready.part = true ∧ (ready.op ≠ .boot ∨ ready.pwr.bootStep = 6) ∧ ready.op ≠ .boot ∧ isAsleep ready = false ∧
    (let s := booting 2 []
     s.op = .boot ∧ s.pwr.bootStep ≠ 6) := by decide
end Sys2Proof.Tests
end

section
/-!
PROOFS. The pace monitor (R52 to R55): what one PACE_MEASUREMENT of an awake device does, with the threshold as it stands after the
trims were read. The threshold before and after the reads agree for every band the device can be in, and differ in a state whose
band number reaches into the parameters of unit 0x0A; the obligation, which allows such a state, fails there.
-/
namespace Sys2Proof.Proofs
open Sys2Proof.Machine Sys2Proof.Safety Sys2Proof.Laws

/-! Events and the parameter store. -/

/-- An event and its reaction leave every parameter outside units 0x01 and 0x0A. -/
theorem parGet_of_evStep {s t : State} (h : EvStep s t) {u i : Nat} (hi : i < 65536) (h1 : u ≠ 1) (h10 : u ≠ 10) :
    parGet t u i = parGet s u i := by
  have hk : paAddr u i / 65536 = u := by unfold paAddr; omega
  exact h.par _ _ (by rw [hk]; exact h1) (by rw [hk]; exact h10)

theorem reacted_of_evStep {s t : State} (h : EvStep s t) : Reacted s t := by
  refine ⟨fun u i _ hi h1 h10 => parGet_of_evStep h hi h1 h10, ?_⟩
  obtain ⟨⟨_, _, _, _, _, _, _, _, _, _, _, _, _, _, _, _, _, _, _, rfl⟩, _, _⟩ := h
  rfl

theorem parGet_parCount_self (s : State) (u i n : Nat) : parGet (parCount s u i n) u i = counted (parGet s u i) n :=
  parGet_parSet_self s u i _

/-! The threshold and the lowest of the paces. -/

/-- PACE_LOW_COUNT is the threshold of no band. -/
theorem paceGuar_parCount (s : State) (n : Nat) : paceGuar (parCount s 2 9 n) = paceGuar s := by
  have hk : paAddr 2 (0x10 + s.therm.band) ≠ paAddr 2 9 := by unfold paAddr; omega
  exact congrArg BitVec.toNat (tblGet_write_ne _ _ _ _ hk)

/-- Events leave the guaranteed pace of a band whose number stays within unit 0x02. -/
theorem paceGuar_of_evStep {s t : State} (h : EvStep s t) (hb : s.therm.band < 0xFFF0) : paceGuar t = paceGuar s := by
  unfold paceGuar parNat
  rw [h.therm, parGet_of_evStep h (by omega) (by decide) (by decide)]

theorem chainPace_no_laps (s : State) (k : Nat) : chainPace s k 0 = 0 := by
  simp [chainPace]

/-- `lowestPace` of the four chains is one of the chains, with its pace, the least of the four. -/
theorem lowestPace_four (p q r w : Nat) :
    (lowestPace [p, q, r, w]).1 < 4 ∧ [p, q, r, w].getD (lowestPace [p, q, r, w]).1 0 = (lowestPace [p, q, r, w]).2 ∧
    (lowestPace [p, q, r, w]).2 = min (min p q) (min r w) := by
  have hl : lowestPace [p, q, r, w] =
      if w < min (min p q) r then (3, w) else if r < min p q then (2, r) else if q < p then (1, q) else (0, p) := by
    simp only [lowestPace, List.length_cons, List.length_nil, List.range_succ, List.range_zero, List.nil_append, List.cons_append,
      List.foldl_cons, List.foldl_nil, List.getD_cons_zero, List.getD_cons_succ, List.headD_cons]
    grind
  rw [hl]
  split_ifs <;> simp <;> omega

/-! One measurement. -/

/-- The trims of the four chains are read. -/
def trimsRead (s : State) : State := readCells ((List.range 4).map chainCell) s

theorem evStep_trimsRead (s : State) : EvStep s (trimsRead s) := ev_readCells (EvStep.refl s)

/-- The pace values that a measurement of `p` leaves in `u`. -/
def paceTaken (u : State) (p : Nat) : State :=
  updTim u fun t => { t with paceNow := p, paceMin := min t.paceMin p, paceLow := decide (p < paceGuar u) }

/-- The same with the count of a pace below the threshold. -/
def paceCounted (u : State) (p : Nat) : State :=
  if decide (p < paceGuar u) = true then parCount (paceTaken u p) 2 9 1 else paceTaken u p

theorem paceGuar_paceCounted (u : State) (p : Nat) : paceGuar (paceCounted u p) = paceGuar u := by
  unfold paceCounted
  split
  · exact paceGuar_parCount (paceTaken u p) 1
  · rfl

/-- PACE_MEASUREMENT with its three ends: no lapse, a lapse that lasts, a lapse that begins. -/
theorem exec_paceMeasurement_awake {s u : State} (a b c d : Nat) (hrun : s.tim.td1 = true ∨ s.tim.holdover ≠ .none)
    (hawake : isAsleep s = false) (hu : u = trimsRead s) {x : Nat × Nat}
    (hx : x = lowestPace [chainPace u 0 a, chainPace u 1 b, chainPace u 2 c, chainPace u 3 d]) :
    exec (.paceMeasurement a b c d) s = .next (
      if x.2 < paceGuar u then
        if s.tim.paceLow = true then parCount (paceTaken u x.2) 2 9 1
        else raise (parCount (paceTaken u x.2) 2 9 1) 0x0203 x.1 [wrd x.2, wrd (paceGuar u)]
      else paceTaken u x.2) := by
  have hgo : ¬ ((!s.tim.td1 && decide (s.tim.holdover = .none)) || isAsleep s) = true := by
    rcases hrun with h | h <;> simp [h, hawake]
  have htim : u.tim = s.tim := hu ▸ (evStep_trimsRead s).tim
  have hex : exec (.paceMeasurement a b c d) s = .next (
      if (decide (x.2 < paceGuar u) && !u.tim.paceLow) = true then
        raise (paceCounted u x.2) 0x0203 x.1 [wrd x.2, wrd (paceGuar (paceCounted u x.2))]
      else paceCounted u x.2) := by
    subst hx hu
    exact congrArg Host.Outcome.next (if_neg hgo)
  rw [hex, paceGuar_paceCounted, htim]
  by_cases hlow : x.2 < paceGuar u
  · by_cases hlapse : s.tim.paceLow = true <;> simp [paceCounted, hlow, hlapse]
  · simp [paceCounted, hlow]

/-- What the obligation says of one measurement from `s` to `t` with the trims read in `u`, for the threshold `g`. -/
def Measured (s u t : State) (g a b c d : Nat) : Prop :=
  t.tim.paceNow = min (min (chainPace u 0 a) (chainPace u 1 b)) (min (chainPace u 2 c) (chainPace u 3 d)) ∧
  t.tim.paceMin = min s.tim.paceMin t.tim.paceNow ∧ t.tim.paceLow = decide (t.tim.paceNow < g) ∧
  (t.tim.paceNow < g → parGet t 2 9 = counted (parGet s 2 9) 1 ∧
    (s.tim.paceLow = false → ∃ k, k < 4 ∧
      [chainPace u 0 a, chainPace u 1 b, chainPace u 2 c, chainPace u 3 d].getD k 0 = t.tim.paceNow ∧
      Raised s t 0x0203 k [wrd t.tim.paceNow, wrd g] ∧
      Reacted { u with tim := t.tim, par := (parCount u 2 9 1).par } t) ∧
    (s.tim.paceLow = true → t = { u with tim := t.tim, par := (parCount u 2 9 1).par })) ∧
  (g ≤ t.tim.paceNow → t = { u with tim := t.tim }) ∧ Reacted s u

/-- A measurement does what R52 and R53 say of it, with the threshold that stands after the trims were read. -/
theorem paceMeasurement_measured {s u : State} (a b c d : Nat) (hrun : s.tim.td1 = true ∨ s.tim.holdover ≠ .none)
    (hawake : isAsleep s = false) (hu : u = trimsRead s) :
    ∃ t, exec (.paceMeasurement a b c d) s = .next t ∧ Measured s u t (paceGuar u) a b c d := by
  have hread : EvStep s u := hu ▸ evStep_trimsRead s
  obtain ⟨hk, hget, hmin⟩ := lowestPace_four (chainPace u 0 a) (chainPace u 1 b) (chainPace u 2 c) (chainPace u 3 d)
  refine ⟨_, exec_paceMeasurement_awake a b c d hrun hawake hu rfl, ?_⟩
  generalize lowestPace [chainPace u 0 a, chainPace u 1 b, chainPace u 2 c, chainPace u 3 d] = x at hk hget hmin
  have hvalid : u.tim.timeValid = s.tim.timeValid := congrArg Timing.timeValid hread.tim
  have hpaceMin : min u.tim.paceMin x.2 = min s.tim.paceMin x.2 := by rw [hread.tim]
  have hcount : parGet (parCount (paceTaken u x.2) 2 9 1) 2 9 = counted (parGet s 2 9) 1 := by
    rw [parGet_parCount_self]
    exact congrArg (counted · 1) (parGet_of_evStep hread (by decide) (by decide) (by decide))
  by_cases hlow : x.2 < paceGuar u
  · rw [if_pos hlow]
    by_cases hlapse : s.tim.paceLow = true
    · rw [if_pos hlapse]
      exact ⟨hmin, hpaceMin, rfl, fun _ => ⟨hcount, fun h => absurd (hlapse.symm.trans h) (by decide), fun _ => rfl⟩,
        fun h => absurd hlow (Nat.not_lt.2 h), reacted_of_evStep hread⟩
    · rw [if_neg hlapse]
      have hev : EvStep (parCount (paceTaken u x.2) 2 9 1)
          (raise (parCount (paceTaken u x.2) 2 9 1) 0x0203 x.1 [wrd x.2, wrd (paceGuar u)]) := ev_raise (EvStep.refl _)
      have hraised := raise_raises (parCount (paceTaken u x.2) 2 9 1) (code := 0x0203) (by decide) x.1 [wrd x.2, wrd (paceGuar u)]
      generalize raise (parCount (paceTaken u x.2) 2 9 1) 0x0203 x.1 [wrd x.2, wrd (paceGuar u)] = t at hev hraised
      have htim : t.tim = (paceTaken u x.2).tim := hev.tim
      have hcount' : parGet t 2 9 = counted (parGet s 2 9) 1 :=
        (parGet_of_evStep hev (by decide) (by decide) (by decide)).trans hcount
      unfold Measured
      rw [htim]
      exact ⟨hmin, hpaceMin, rfl,
        fun _ => ⟨hcount', fun _ => ⟨x.1, hk, hget, raised_of hraised hread.now hvalid,
          reacted_of_evStep hev⟩, fun h => absurd h hlapse⟩,
        fun h => absurd hlow (Nat.not_lt.2 h), reacted_of_evStep hread⟩
  · rw [if_neg hlow]
    exact ⟨hmin, hpaceMin, rfl, fun h => absurd h hlow, fun _ => rfl, reacted_of_evStep hread⟩

/-- The obligation's claim for every band whose number stays within unit 0x02, so for B0 to B4 (R53). -/
theorem paceMeasurement_of_band {s u : State} (a b c d : Nat) (hb : s.therm.band < 0xFFF0)
    (hrun : s.tim.td1 = true ∨ s.tim.holdover ≠ .none) (hawake : isAsleep s = false) (hu : u = trimsRead s) :
    ∃ t, exec (.paceMeasurement a b c d) s = .next t ∧ Measured s u t (paceGuar s) a b c d := by
  rw [← paceGuar_of_evStep (hu ▸ evStep_trimsRead s : EvStep s u) hb]
  exact paceMeasurement_measured a b c d hrun hawake hu

/-! A state in which reading the trims moves the threshold. -/

/-- An awake device in the band of number 0x80006, whose threshold is read at index 0x16 of unit 0x0A, the counter of corrected
MRAM words; the trim of chain 0 holds an error that its next read corrects. No band of a device has this number (R470). -/
def strayBand : State :=
  { State.reset with
    therm := { band := 0x80006 }, tim := { td1 := true }, mem := { errs := [(chainCell 0 / 8, .single)] } }

theorem paceGuar_strayBand : paceGuar strayBand = 0 := by decide +kernel

/-- The read of the trim is counted at the very word that gives the threshold. -/
theorem paceGuar_trimsRead_strayBand : paceGuar (trimsRead strayBand) = 1 := by decide +kernel

/-- Refutes O35: in `strayBand` the threshold is 0 before the trims are read and 1 when the four paces of 0 are compared with it,
so that a lapse begins although no pace lies below the threshold of the state before. Within the bands of a device the claim holds
(`paceMeasurement_of_band`). -/
theorem not_paceMonitor : ¬ Obligations.PaceMonitor := by
  unfold Obligations.PaceMonitor
  intro h
  obtain ⟨t, hexec, hnow, _, hlow, _⟩ := h strayBand (trimsRead strayBand) 0 0 0 0 (.inl rfl) rfl rfl
  obtain ⟨t', hexec', _, _, hlow', _⟩ := paceMeasurement_measured (s := strayBand) 0 0 0 0 (.inl rfl) rfl rfl
  obtain rfl : t = t' := Host.Outcome.next.inj (hexec.symm.trans hexec')
  have hzero : t.tim.paceNow = 0 := by simpa only [chainPace_no_laps, Nat.min_self] using hnow
  rw [hzero, paceGuar_strayBand] at hlow
  rw [hzero, paceGuar_trimsRead_strayBand] at hlow'
  exact absurd (hlow.symm.trans hlow') (by decide)

end Sys2Proof.Proofs
end

section
/-!
PROOFS. Lock registers (R123, R124, R430, R431): what the arbiter of side A does with a request, what a cell of the partner that
arrives in order leaves, and how a lock command completes on the side that holds the locks and on the other one.
-/
namespace Sys2Proof.Proofs
open Sys2Proof.Machine Sys2Proof.Safety Sys2Proof.Laws

/-! The arbiter of side A (R431). -/

/-- The owner of a lock of owner `o` after a request of master `who`. -/
def nextOwner (o who : LockOwner) (acquire : Bool) : LockOwner :=
  if acquire then (if o = .free then who else o) else if o = who then .free else o

/-- The release of the requester's own lock, or of a free one, leaves it free. -/
theorem nextOwner_release_ours {o who : LockOwner} (h : o = who ∨ o = .free) : nextOwner o who false = .free := by
  obtain rfl | rfl := h
  · exact if_pos rfl
  · exact ite_self _

theorem lockOwner_setLock (s : State) (l m : Nat) (o : LockOwner) :
    lockOwner (setLock l o s) m = if m = l then o else lockOwner s m := tblGet_write ..

/-- A request is granted, and the lock gets its next owner, or nothing changes. -/
theorem lockServe_cases (l : Nat) (who : LockOwner) (acquire fromB : Bool) (s : State) :
    (lockServe l who acquire fromB s = (0, setLock l (nextOwner (lockOwner s l) who acquire) s) ∧
      lockOwner s l = if acquire then .free else who) ∨
    (lockServe l who acquire fromB s = (ownerCode (lockOwner s l) fromB, s) ∧
      nextOwner (lockOwner s l) who acquire = lockOwner s l ∧ lockOwner s l ≠ if acquire then .free else who) := by
  unfold lockServe nextOwner
  cases acquire
  · by_cases h : lockOwner s l = who
    · exact .inl (by simp [h])
    · exact .inr (by simp [h])
  · by_cases h : lockOwner s l = .free
    · exact .inl (by simp [h])
    · exact .inr (by simp [h])

/-- The requested lock gets its next owner, and no other lock changes. -/
theorem lockOwner_lockServe (l m : Nat) (who : LockOwner) (acquire fromB : Bool) (s : State) :
    lockOwner (lockServe l who acquire fromB s).2 m =
      if m = l then nextOwner (lockOwner s l) who acquire else lockOwner s m := by
  obtain ⟨h, _⟩ | ⟨h, hsame, _⟩ := lockServe_cases l who acquire fromB s <;> rw [h]
  · exact lockOwner_setLock ..
  · split
    next hm => rw [hsame, hm]
    next => rfl

theorem lockServe_frame (l : Nat) (who : LockOwner) (acquire fromB : Bool) (s : State) :
    ∃ L, (lockServe l who acquire fromB s).2 = { s with marg := { s.marg with locks := L } } := by
  obtain ⟨h, _⟩ | ⟨h, _⟩ := lockServe_cases l who acquire fromB s <;> rw [h]
  · exact ⟨_, rfl⟩
  · exact ⟨s.marg.locks, rfl⟩

/-- A requester reads the owner code of before its request (R431). -/
theorem lockServe_acquire_code (l : Nat) (who : LockOwner) (fromB : Bool) (s : State) :
    (lockServe l who true fromB s).1 = ownerCode (lockOwner s l) fromB := by
  obtain ⟨h, hfree⟩ | ⟨h, _⟩ := lockServe_cases l who true fromB s <;> rw [h]
  rw [hfree]
  rfl

theorem ownerCode_eq_zero_iff (o : LockOwner) (fromB : Bool) : ownerCode o fromB = 0 ↔ o = .free := by
  cases o <;> cases fromB <;> decide

/-- A release is answered 0 exactly for the requester's own lock and for a free one. -/
theorem lockServe_release_zero_iff (l : Nat) (who : LockOwner) (fromB : Bool) (s : State) :
    (lockServe l who false fromB s).1 = 0 ↔ lockOwner s l = who ∨ lockOwner s l = .free := by
  obtain ⟨h, hown⟩ | ⟨h, _, hother⟩ := lockServe_cases l who false fromB s <;> rw [h]
  · exact iff_of_true rfl (.inl hown)
  · rw [ownerCode_eq_zero_iff]
    exact (or_iff_right hother).symm

/-! Lock commands on side A. -/

/-- From `s` to `t` lock `l` came to owner `o`, and beside it and the Folio port nothing changed. -/
def LockSet (s t : State) (l : Nat) (o : LockOwner) : Prop :=
  lockOwner t l = o ∧ (∀ m, m ≠ l → lockOwner t m = lockOwner s m) ∧
    t = { s with folio := t.folio, marg := { s.marg with locks := t.marg.locks } }

/-- The lock number of a payload passes the check of its reserved bits and reads back. -/
theorem lockWord {l : Nat} (hl : l < 32) : hasBits (pw [wrd l] 0) 0xFFFFFFE0 = false ∧ field (pw [wrd l] 0) 4 0 = l := by
  refine ⟨hasBits_small (k := 5) (by decide) (by decide) hl, ?_⟩
  show (wrd l).toNat / 1 % 32 = l
  rw [wrd, BitVec.toNat_ofNat]
  omega

/-- A lock command whose lock is in reach and exists passes its checks. -/
theorem lockChecks {s : State} {l : Nat} (hl : l < 32) (hreach : locksAway s = false) (k : CmdRes) :
    checked s [(locksAway s, stState), (hasBits (pw [wrd l] 0) 0xFFFFFFE0, stBadParam)] k = k := by
  rw [hreach, (lockWord hl).1]
  rfl

theorem bodyLockAcquire_sideA {s : State} {l : Nat} (tag : Nat) (hl : l < 32) (hA : s.marg.sideB = false) :
    bodyLockAcquire tag [wrd l] s =
      .done stOk [wrd (ownerCode (lockOwner s l) false)] (lockServe l .hostA true false s).2 := by
  unfold bodyLockAcquire
  rw [lockChecks hl (by simp [locksAway, hA]), (lockWord hl).2, hA, if_neg Bool.false_ne_true, ← lockServe_acquire_code]

theorem bodyLockRelease_sideA {s : State} {l : Nat} (tag : Nat) (hl : l < 32) (hA : s.marg.sideB = false) :
    bodyLockRelease tag [wrd l] s =
      .done (if lockOwner s l = .hostA ∨ lockOwner s l = .free then stOk else stDenied) []
        (lockServe l .hostA false false s).2 := by
  unfold bodyLockRelease
  rw [lockChecks hl (by simp [locksAway, hA]), (lockWord hl).2, hA, if_neg Bool.false_ne_true]
  simp only [lockServe_release_zero_iff]
  split
  next => rfl
  next hother =>
    obtain ⟨_, hown⟩ | ⟨h, _⟩ := lockServe_cases l .hostA false false s
    · exact absurd (.inl hown) hother
    · rw [h]
      rfl

/-- A command whose body ends with the arbiter's answer to the host completes, and the lock gets its next owner. -/
theorem completes_lockServe {s : State} {tag op l status : Nat} {ws rep : List Word} {acquire : Bool}
    {body : List Word → State → CmdRes} (h : Starts s tag op ws)
    (hb : body ws (begun s tag) = .done status rep (lockServe l .hostA acquire false (begun s tag)).2) :
    ∃ t, runCommand op tag body s = t ∧ Replied s t tag status rep ∧
      LockSet s t l (nextOwner (lockOwner s l) .hostA acquire) := by
  have howner := fun m => lockOwner_lockServe l m .hostA acquire false (begun s tag)
  obtain ⟨L, hL⟩ := lockServe_frame l .hostA acquire false (begun s tag)
  rw [hL] at hb howner
  obtain ⟨t, ht, hreplied, f, rfl⟩ := completes h hb rfl rfl
  exact ⟨_, ht, hreplied, (howner l).trans (if_pos rfl), fun m hm => (howner m).trans (if_neg hm), rfl⟩

theorem lockAcquire_sideA {s : State} {tag l : Nat} (hl : l < 32) (hA : s.marg.sideB = false) (h : Starts s tag 0x93 [wrd l]) :
    ∃ t, exec (.lockAcquire tag) s = .next t ∧ Replied s t tag 0 [wrd (ownerCode (lockOwner s l) false)] ∧
      LockSet s t l (nextOwner (lockOwner s l) .hostA true) := by
  obtain ⟨t, rfl, hrest⟩ := completes_lockServe h (bodyLockAcquire_sideA (s := begun s tag) tag hl hA)
  exact ⟨_, rfl, hrest⟩

theorem lockRelease_sideA {s : State} {tag l : Nat} (hl : l < 32) (hA : s.marg.sideB = false) (h : Starts s tag 0x94 [wrd l]) :
    ∃ t, exec (.lockRelease tag) s = .next t ∧
      Replied s t tag (if lockOwner s l = .hostA ∨ lockOwner s l = .free then stOk else stDenied) [] ∧
      LockSet s t l (nextOwner (lockOwner s l) .hostA false) := by
  obtain ⟨t, rfl, hrest⟩ := completes_lockServe h (bodyLockRelease_sideA (s := begun s tag) tag hl hA)
  exact ⟨_, rfl, hrest⟩

/-! Lock commands on side B with the link up. -/

/-- From `s` to `t` the command under `tag` has started and waits, with a LOCK cell for lock `l` behind the queued cells. -/
def LockAsked (s t : State) (tag l : Nat) (release : Bool) : Prop :=
  Waiting s t tag ∧ (∃ c, t.marg.queue = s.marg.queue ++ [c] ∧ c.ctype = .lock ∧ c.sub = l) ∧
    t.marg.lockWait = s.marg.lockWait ++ [(s.marg.lockNum, tag, release)] ∧ t.marg.locks = s.marg.locks

theorem bodyLockAcquire_sideB {s : State} {l : Nat} (tag : Nat) (hl : l < 32) (hB : s.marg.sideB = true)
    (hup : s.marg.linkUp = true) : bodyLockAcquire tag [wrd l] s = .wait (lockRemote true tag l false s) := by
  unfold bodyLockAcquire
  rw [lockChecks hl (by simp [locksAway, hup]), (lockWord hl).2, hB, if_pos rfl]

theorem bodyLockRelease_sideB {s : State} {l : Nat} (tag : Nat) (hl : l < 32) (hB : s.marg.sideB = true)
    (hup : s.marg.linkUp = true) : bodyLockRelease tag [wrd l] s = .wait (lockRemote true tag l true s) := by
  unfold bodyLockRelease
  rw [lockChecks hl (by simp [locksAway, hup]), (lockWord hl).2, hB, if_pos rfl]

theorem waits_lockRemote {s : State} {tag op l : Nat} {ws : List Word} {release : Bool} {body : List Word → State → CmdRes}
    (h : Starts s tag op ws) (hb : body ws (begun s tag) = .wait (lockRemote true tag l release (begun s tag))) :
    LockAsked s (runCommand op tag body s) tag l release := by
  obtain ⟨hrun, hwait⟩ := waits h hb rfl rfl
  rw [hrun]
  exact ⟨hwait, ⟨_, rfl, rfl, rfl⟩, rfl, rfl⟩

/-! A cell that arrives in order (R406). -/

/-- From `s` to `t` nothing changed but what the acknowledgement of cells ends: the slots of their messages, and the wait for the
one that LEAVE sent. -/
def AckEnds (s t : State) : Prop := ∃ ob os la, t = updMarg s fun m => { m with outbox := ob, outSent := os, leaveAck := la }

theorem ackEnds_cellAcked (c : Cell) (s : State) : AckEnds s (cellAcked c s) := by
  unfold cellAcked
  split_ifs <;> exact ⟨_, _, _, rfl⟩

theorem ackEnds_forEach (cs : List Cell) (s : State) : AckEnds s (forEach cs cellAcked s) := by
  induction cs generalizing s with
  | nil => exact ⟨_, _, _, rfl⟩
  | cons c cs ih =>
    obtain ⟨_, _, _, hfirst⟩ := ackEnds_cellAcked c s
    obtain ⟨_, _, _, hrest⟩ := ih (cellAcked c s)
    exact ⟨_, _, _, hrest.trans (by rw [hfirst]; rfl)⟩

/-- Nothing goes on while no LEAVE of this device waits. -/
theorem leaveDone_stays {s : State} (h : s.marg.leaving = false) : leaveDone s = s := by
  unfold leaveDone leaveOver
  simp [h]

/-- The ACK of a cell takes the cells that it acknowledges from those that wait, and beside what they end nothing changes. -/
theorem takeAck_frame (ack : Nat) {s : State} (h : s.marg.leaving = false) :
    ∃ rs n x, AckEnds (updMarg s fun m => { m with
      unacked := m.unacked.filter (fun c => !acked ack c.seq), resend := rs, resends := n, ackTick := x }) (takeAck ack s) := by
  by_cases hnone : (s.marg.unacked.filter fun c => acked ack c.seq) = []
  · have hall : s.marg.unacked.filter (fun c => !acked ack c.seq) = s.marg.unacked :=
      List.filter_eq_self.2 fun c hc => by simpa using List.filter_eq_nil_iff.1 hnone c hc
    refine ⟨s.marg.resend, s.marg.resends, s.marg.ackTick, s.marg.outbox, s.marg.outSent, s.marg.leaveAck, ?_⟩
    rw [takeAck, if_pos hnone]
    simp only [updMarg, hall]
  · obtain ⟨ob, os, la, hends⟩ := ackEnds_forEach (s.marg.unacked.filter fun c => acked ack c.seq) (updMarg s fun m => { m with
      unacked := m.unacked.filter (fun c => !acked ack c.seq), resend := m.resend.filter (fun c => !acked ack c.seq), resends := 0,
      ackTick := s.now })
    refine ⟨s.marg.resend.filter (fun c => !acked ack c.seq), 0, s.now, ob, os, la, ?_⟩
    rw [takeAck, if_neg hnone]
    exact (congrArg leaveDone hends).trans (leaveDone_stays h)

/-- From `s` to `t` a cell with this acknowledgement was taken in order, and neither its side of the pair nor its queue, locks and
lock requests changed, nor anything outside the Margin link. -/
structure Delivered (s t : State) (ack : Nat) : Prop where
  taken : Taken s t ack
  sideB : t.marg.sideB = s.marg.sideB
  queue : t.marg.queue = s.marg.queue
  locks : t.marg.locks = s.marg.locks
  lockWait : t.marg.lockWait = s.marg.lockWait
  frame : t = { s with marg := t.marg }

/-- A cell that arrives in order is served in a state in which it has been delivered. -/
theorem takeCell_arrives {s : State} {seq : Nat} (h : Arrives s seq) (ack : Nat) :
    ∃ u, Delivered s u ack ∧ ∀ k, takeCell seq ack k s = k u := by
  obtain ⟨rs, n, x, ob, os, la, hack⟩ :=
    takeAck_frame ack (s := updMarg (noteCell s) fun m => { m with rxSeq := (m.rxSeq + 1) % 0x10000 }) h.stays
  refine ⟨takeAck ack (updMarg (noteCell s) fun m => { m with rxSeq := (m.rxSeq + 1) % 0x10000 }), ?_, fun k => ?_⟩
  · rw [hack]
    simp only [updMarg, noteCell]
    exact ⟨⟨rfl, rfl, rfl⟩, rfl, rfl, rfl, rfl, rfl⟩
  · rw [takeCell, if_neg (by simp [h.up, h.runs])]
    exact if_neg (not_not.2 h.next)

/-! The answer of side A, and side A's answers. -/

/-- The first entry of a tag is the one that a completion finds, when its command runs. -/
theorem completeTag_running {s : State} {tag : Nat} {e : TagEntry} (htag : tag < 1024) (he : tagEntry s tag = some e)
    (hrun : e.phase = .running) (status : Nat) (ws : List Word) :
    completeTag tag status ws s = answered s e tag status ws := by
  obtain ⟨hp, as, bs, hl, hbefore⟩ := List.find?_eq_some_iff_append.1 he
  have hfind : s.folio.tags.find? (fun x => x.tag = tag && x.phase ≠ .replied) = some e :=
    List.find?_eq_some_iff_append.2 ⟨by simpa [hrun] using hp, as, bs, hl, fun a ha => by
      simp [show a.tag ≠ tag by simpa using hbefore a ha]⟩
  unfold completeTag
  rw [if_neg (by omega), hfind]
  rfl

/-- A command that was running completes. -/
theorem answered_running {s u : State} {e : TagEntry} {tag : Nat} (status : Nat) (ws : List Word) (he : tagEntry s tag = some e)
    (hu : u.folio = s.folio) : Replied s (answered u e tag status ws) tag status ws := by
  have hentry (n : Nat) : tagEntry (answered u e tag status ws) n =
      (tagEntry s n).map fun x => if x.tag = tag then { x with phase := .replied, payload := [] } else x := by
    unfold tagEntry
    rw [← hu]
    exact find_map_tag (f := fun x => { x with phase := TagPhase.replied, payload := [] }) fun _ => rfl
  refine ⟨⟨e, he, congrArg (·.replies ++ _) hu⟩, by rw [hentry, he]; simp [tagEntry_tag he], fun n hn => ?_⟩
  rw [hentry]
  cases hx : tagEntry s n with
  | none => rfl
  | some x => simp [tagEntry_tag hx, hn]

/-- The lock request of number `n` waits no more. -/
def lockWaitEnd (n : Nat) (s : State) : State := updMarg s fun m => { m with lockWait := m.lockWait.filter fun x => x.1 ≠ n }

/-- The answer of side A completes the lock command whose request it names (R430). -/
theorem lockReplyReceived_completes {s : State} {seq l o n tag : Nat} {rel : Bool} {e : TagEntry} (ack : Nat) (h : Arrives s seq)
    (hl : l < 32) (ho : o < 5) (hwait : s.marg.lockWait.find? (fun w => decide (w.1 = n)) = some (n, tag, rel))
    (htag : tag < 1024) (he : tagEntry s tag = some e) (hrun : e.phase = .running) :
    ∃ t, exec (.lockReplyReceived seq ack l o n) s = .next t ∧ Taken s t ack ∧
      Replied s t tag (if rel = true ∧ o ≠ 0 then stDenied else 0) (if rel then [] else [wrd o]) ∧
      t.marg.locks = s.marg.locks ∧ t = { s with folio := t.folio, marg := t.marg } := by
  obtain ⟨u, hu, hcell⟩ := takeCell_arrives h ack
  have hfolio : u.folio = s.folio := by rw [hu.frame]
  have hentry : tagEntry u tag = some e := by rw [tagEntry, hfolio]; exact he
  have hexec : exec (.lockReplyReceived seq ack l o n) s =
      .next (completeTag tag (if rel = true ∧ o ≠ 0 then stDenied else 0) (if rel then [] else [wrd o]) (lockWaitEnd n u)) := by
    show Host.Outcome.next (takeCell seq ack _ s) = _
    rw [hcell, if_neg (by omega), hu.lockWait, hwait]
    cases rel
    · rfl
    · by_cases h0 : o = 0
      · rw [h0]; rfl
      · simp [h0, lockWaitEnd]
  rw [completeTag_running htag (s := lockWaitEnd n u) hentry hrun] at hexec
  refine ⟨_, hexec, hu.taken, answered_running _ _ he hfolio, hu.locks, ?_⟩
  obtain ⟨m, rfl⟩ : ∃ m, u = { s with marg := m } := ⟨_, hu.frame⟩
  rfl

/-- Side A serves the LOCK cell of a master of side B as the arbiter does, and queues its answer (R430, R431). -/
theorem lockReceived_serves {s : State} {seq l : Nat} (ack : Nat) (acq host : Bool) (n : Nat) (h : Arrives s seq) (hl : l < 32)
    (hA : s.marg.sideB = false) :
    ∃ t c, exec (.lockReceived seq ack l acq host n) s = .next t ∧ Taken s t ack ∧ t.marg.queue = s.marg.queue ++ [c] ∧
      c.ctype = .lockReply ∧
      (∀ m, lockOwner t m =
        if m = l then nextOwner (lockOwner s l) (if host then .hostB else .plateB) acq else lockOwner s m) ∧
      t = { s with marg := t.marg } := by
  obtain ⟨u, hu, hcell⟩ := takeCell_arrives h ack
  have hkept : ∀ m, lockOwner u m = lockOwner s m := fun m => by rw [lockOwner, hu.locks]; rfl
  have howner := fun m => lockOwner_lockServe l m (if host then .hostB else .plateB) acq true u
  have hexec : exec (.lockReceived seq ack l acq host n) s =
      .next (queueCell (lockServe l (if host then .hostB else .plateB) acq true u).2 .lockReply l
        [wrd ((lockServe l (if host then .hostB else .plateB) acq true u).1 + n % 256 * 2 ^ 16), 0, 0, 0, 0, 0, 0, 0]) := by
    show Host.Outcome.next (takeCell seq ack _ s) = _
    rw [hcell, if_neg (by rw [hu.sideB, hA]; simp [hl])]
  obtain ⟨L, hL⟩ := lockServe_frame l (if host then .hostB else .plateB) acq true u
  rw [hL] at howner hexec
  refine ⟨_, _, hexec, hu.taken, congrArg (· ++ _) hu.queue, rfl, fun m => ?_, ?_⟩
  · rw [← hkept, ← hkept]
    exact howner m
  · obtain ⟨m, rfl⟩ : ∃ m, u = { s with marg := m } := ⟨_, hu.frame⟩
    rfl

/-- Settles O49: on side A each command is one request to the arbiter, on side B a LOCK cell and its answer. -/
theorem lockRegisters : Obligations.LockRegisters := by
  unfold Obligations.LockRegisters
  intro s
  refine ⟨fun tag l hl hA => ⟨fun h => ?releaseA, fun h => ?acquireA⟩, fun tag l hl hB hup => ⟨fun h => ?releaseB, fun h => ?acquireB⟩,
    fun seq ack l o n tag rel e h hl ho hwait htag he hrun => lockReplyReceived_completes ack h hl ho hwait htag he hrun,
    fun seq ack l acq host n h hl hA => ?requestOfB⟩
  case releaseA =>
    obtain ⟨t, hexec, hreplied, howner, hothers, hframe⟩ := lockRelease_sideA hl hA h
    refine ⟨t, hexec, fun hours => ?_, fun hown hfree => ?_, hothers, hframe⟩
    · rw [if_pos hours] at hreplied
      exact ⟨hreplied, howner.trans (nextOwner_release_ours hours)⟩
    · rw [if_neg (not_or.2 ⟨hown, hfree⟩)] at hreplied
      exact ⟨hreplied, howner.trans (if_neg hown)⟩
  case acquireA =>
    obtain ⟨t, hexec, hreplied, howner, hothers, hframe⟩ := lockAcquire_sideA hl hA h
    refine ⟨t, hexec, fun hfree => ?_, fun howned => ⟨hreplied, howner.trans (if_neg howned)⟩, hothers, hframe⟩
    rw [hfree] at hreplied howner
    exact ⟨hreplied, howner⟩
  case releaseB =>
    obtain ⟨hwait, ⟨c, hqueue, htype, hsub⟩, hasked, hlocks⟩ :=
      waits_lockRemote h (bodyLockRelease_sideB (s := begun s tag) tag hl hB hup)
    exact ⟨_, c, rfl, hwait, hqueue, htype, hsub, hasked, hlocks⟩
  case acquireB =>
    obtain ⟨hwait, ⟨c, hqueue, htype, hsub⟩, hasked, hlocks⟩ :=
      waits_lockRemote h (bodyLockAcquire_sideB (s := begun s tag) tag hl hB hup)
    exact ⟨_, c, rfl, hwait, hqueue, htype, hsub, hasked, hlocks⟩
  case requestOfB =>
    obtain ⟨t, c, hexec, htaken, hqueue, hreply, howner, hframe⟩ := lockReceived_serves ack acq host n h hl hA
    have hnext := (howner l).trans (if_pos rfl)
    refine ⟨t, c, _, hexec, htaken, rfl, hqueue, hreply, ?_, ?_, ?_, fun m hm => (howner m).trans (if_neg hm), hframe⟩
    · rintro rfl hfree
      exact hnext.trans (if_pos hfree)
    · rintro rfl howned
      exact hnext.trans (if_neg howned)
    · rintro rfl
      exact hnext

end Sys2Proof.Proofs
end

section
/-!
PROOFS. Sequence triggers (R139, R142, R146). A trigger that a free sequence takes is a root trigger of the contexts that name the
sequence (R308); what these do with it reaches drives, rings, timebases, position sources and the Margin link, and never the
converters, so that the sequence stays as the trigger left it. A trigger that finds its sequence busy is counted and recorded only.
-/
namespace Sys2Proof.Proofs
open Sys2Proof.Machine Sys2Proof.Safety Sys2Proof.Laws

/-! Repetitions and choices of operations that leave the converters as they are, and what events do (`EvStep.conv`). Where an
operation that is repeated leaves them by definition, simp takes `forEach_conv` only under `-implicitDefEqProofs`. -/

@[simp] theorem conv_ite {c : Prop} [Decidable c] (a b : State) : (if c then a else b).conv = if c then a.conv else b.conv :=
  apply_ite State.conv c a b

@[simp] theorem forUpTo_conv (n : Nat) {f : Nat → State → State} (hf : ∀ k s, (f k s).conv = s.conv) (s : State) :
    (forUpTo n f s).conv = s.conv := by
  induction n with
  | zero => rfl
  | succ k ih => exact (hf k _).trans ih

@[simp] theorem forEach_conv {α : Type} (l : List α) {f : α → State → State} (hf : ∀ a s, (f a s).conv = s.conv) (s : State) :
    (forEach l f s).conv = s.conv := by
  induction l generalizing s with
  | nil => rfl
  | cons a l ih => exact (ih (f a s)).trans (hf a s)

@[simp] theorem parCount_conv (s : State) (u i n : Nat) : (parCount s u i n).conv = s.conv := rfl

@[simp] theorem parWrap_conv (s : State) (u i : Nat) : (parWrap s u i).conv = s.conv := rfl

@[simp] theorem record_conv (s : State) (code idx : Nat) (args : List Word) : (record s code idx args).conv = s.conv :=
  (ev_record (.refl s)).conv

@[simp] theorem raiseWith_conv (s : State) (r : Reaction) (code idx : Nat) (args : List Word) :
    (raiseWith s r code idx args).conv = s.conv := (ev_raiseWith (.refl s)).conv

@[simp] theorem setOp_conv (s : State) (o : OpState) : (setOp s o).conv = s.conv := (ev_setOp (.refl s)).conv

@[simp] theorem leaveRun_conv (s : State) : (leaveRun s).conv = s.conv := (ev_leaveRun (.refl s)).conv

@[simp] theorem stopRegTimer_conv (s : State) (d : Nat) : (stopRegTimer s d).conv = s.conv := (ev_stopRegTimer (.refl s)).conv

@[simp] theorem drivePair_conv (s : State) (p : Nat) (th tl : Bool) : (drivePair s p th tl).conv = s.conv :=
  (ev_drivePair (.refl s)).conv

@[simp] theorem periodPair_conv (s : State) (p : Nat) : (periodPair s p).conv = s.conv := (ev_takeLayer (.refl s)).conv

/-! Pairs and drives at a period start (R211, R217, R222, R225), with the hand-over that waits for it (R418, R420). -/

@[simp] theorem setRef_conv (s : State) (p : Nat) (v : Bool) : (setRef s p v).conv = s.conv := by
  simp [setRef, refPair]

@[simp] theorem landPair_conv (s : State) (p w : Nat) : (landPair s p w).conv = s.conv := by
  unfold landPair
  cases pairEff s p <;> simp

@[simp] theorem startPair_conv (s : State) (p phase : Nat) : (startPair s p phase).conv = s.conv := by
  unfold startPair
  dsimp only
  split <;> simp

@[simp] theorem drivePeriod_conv (d : Nat) (s : State) : (drivePeriod d s).conv = s.conv := by
  simp -implicitDefEqProofs [drivePeriod, endStop, endSafe]

@[simp] theorem enterRun_conv (d : Nat) (s : State) : (enterRun d s).conv = s.conv := by
  simp -implicitDefEqProofs [enterRun]

@[simp] theorem handoverDone_conv (s : State) : (handoverDone s).conv = s.conv := by
  simp [handoverDone, queueCell]

@[simp] theorem ringFresh_conv (r : Nat) (s : State) : (ringFresh r s).conv = s.conv := rfl

@[simp] theorem ringsFresh_conv (s : State) : (ringsFresh s).conv = s.conv :=
  forUpTo_conv 16 (fun r s => by cases ringDrive s r <;> simp) s

@[simp] theorem hoInstant_conv (s : State) : (hoInstant s).conv = s.conv := by
  simp [hoInstant, becomeStandby, becomeActive, setOwnN]

@[simp] theorem handDrive_conv (d : Nat) (s : State) : (handDrive d s).conv = s.conv := by
  unfold handDrive
  dsimp only
  cases ((hoInstant s).drive d).l4From <;> cases ((hoInstant s).drive d).hd <;> simp -implicitDefEqProofs

@[simp] theorem periodDrives_conv (t : Nat) (s : State) : (periodDrives t s).conv = s.conv := by
  simp -implicitDefEqProofs [periodDrives, farServe]

@[simp] theorem startPeriod_conv (fuel t phase : Nat) (s : State) : (startPeriod fuel t phase s).conv = s.conv := by
  induction fuel generalizing t phase s with
  | zero => rfl
  | succ k ih => simp [startPeriod, ih]

/-! Slot values at their destinations (R216, R217, R227, R304). -/

@[simp] theorem countClamp_conv (p : Nat) (s : State) : (countClamp p s).conv = s.conv := by
  unfold countClamp
  split <;> simp [parOr]

@[simp] theorem writeDuties_conv (l : List (Nat × Word)) (s : State) : (writeDuties l s).conv = s.conv := by
  simp [writeDuties, storeCmp, noteWrite, landCompares, landTimebase]

@[simp] theorem frontUpdate_conv (d : Nat) (vs : List (Nat × Word)) (s : State) : (frontUpdate d vs s).conv = s.conv := by
  unfold frontUpdate
  dsimp only
  split <;> simp [setModStatus]

@[simp] theorem writeSlot_conv (n : Nat) (w v : Word) (t0 : Nat) (s : State) : (writeSlot n w v t0 s).conv = s.conv := by
  unfold writeSlot
  dsimp only
  repeat' split
  all_goals rfl

@[simp] theorem writeDests_conv (n : Nat) (slots : List Word) (t0 : Nat) (all : Bool) (s : State) :
    (writeDests n slots t0 all s).conv = s.conv := by
  simp -implicitDefEqProofs [writeDests, writeFront, destDrop]

/-! Contexts that fault, miss or stop, and the root trigger (R193, R308 to R311, R316, R321). -/

@[simp] theorem faultSource_conv (n cause : Nat) (s : State) : (faultSource n cause s).conv = s.conv := by
  unfold faultSource
  split
  · rfl
  · exact ((ev_noteSpeeds (.refl _)).trans (ev_raise (.refl _))).conv

@[simp] theorem faultCtx_conv (n cause t0 : Nat) (s : State) : (faultCtx n cause t0 s).conv = s.conv := by
  simp [faultCtx, markFaulted, resolverFault]

@[simp] theorem missCtx_conv (n t0 : Nat) (s : State) : (missCtx n t0 s).conv = s.conv := by
  simp [missCtx, publish]

@[simp] theorem admAccount_conv (s : State) : (admAccount s).conv = s.conv := by
  unfold admAccount
  split <;> simp -implicitDefEqProofs [admStore, laneStore]

@[simp] theorem completeTag_conv (tag status : Nat) (ws : List Word) (s : State) : (completeTag tag status ws s).conv = s.conv := by
  unfold completeTag
  split <;> split <;> rfl

@[simp] theorem stopCtx_conv (n : Nat) (s : State) : (stopCtx n s).conv = s.conv := by
  simp [stopCtx, answerWaits]

@[simp] theorem deadlineAct_conv (n : Nat) (s : State) : (deadlineAct n s).conv = s.conv := by
  unfold deadlineAct
  split
  · rfl
  next i _ => cases i.phase <;> simp [endInst, publish, landOutside]

@[simp] theorem beginInst_conv (n t : Nat) (s : State) : (beginInst n t s).conv = s.conv := by
  have hdue : (dueAct n t s).conv = s.conv := by
    unfold dueAct
    split <;> simp
  simp [beginInst, hdue]

/-- A root trigger leaves every sequence as it is. -/
theorem sequ_rootTriggers (q t : Nat) (s : State) (m : Nat) : (rootTriggers q t s).sequ m = s.sequ m := by
  have hconv : (rootTriggers q t s).conv = s.conv := by simp [rootTriggers]
  exact congrArg (fun c => tblGet c.seqs {} m) hconv

/-! The trigger at its sequence. -/

/-- The oldest trigger of sequence `n` is no longer on its way; those of `r` still are. -/
def triggerTaken (n : Nat) (r : List (Nat × List Word × Snap)) (s : State) : State := s.updSeq n fun q => { q with due := r }

theorem sequ_triggerTaken (n m : Nat) (r : List (Nat × List Word × Snap)) (s : State) :
    (triggerTaken n r s).sequ m = if m = n then { s.sequ n with due := r } else s.sequ m := sequ_updSeq ..

/-- A sequence for which trigger `x` has become pending, with its list in effect (R146). -/
def withPending (x : Nat × List Word × Snap) (q : Seq) : Seq :=
  { q with entries := x.2.1, newList := if q.newList = some x.2.1 then none else q.newList, pend := some x }

/-- A free sequence takes the trigger (R142); beside it only the shadow may start again (R154). -/
theorem seqTrigger_free {s : State} {n : Nat} (x : Nat × List Word × Snap) (hen : seqEnabled s n = true)
    (hfree : (s.sequ n).run = none) (hpend : (s.sequ n).pend = none) :
    seqTrigger n x s = shadowStart (s.updSeq n (withPending x)) ∨ seqTrigger n x s = s.updSeq n (withPending x) := by
  unfold seqTrigger
  rw [if_neg (by simp [hen]), if_neg (by simp [hfree, hpend])]
  exact ite_eq_or_eq ..

theorem sequ_seqTrigger_free {s : State} {n : Nat} (x : Nat × List Word × Snap) (hen : seqEnabled s n = true)
    (hfree : (s.sequ n).run = none) (hpend : (s.sequ n).pend = none) (m : Nat) :
    (seqTrigger n x s).sequ m = if m = n then withPending x (s.sequ n) else s.sequ m := by
  rw [← sequ_updSeq]
  obtain h | h := seqTrigger_free x hen hfree hpend <;> rw [h]
  rfl

/-- A trigger that finds its sequence running or pending is counted and recorded (R142). -/
theorem seqTrigger_busy {s : State} {n : Nat} (x : Nat × List Word × Snap) (hen : seqEnabled s n = true)
    (hbusy : (s.sequ n).run ≠ none ∨ (s.sequ n).pend ≠ none) :
    seqTrigger n x s = record (parCount s 3 0x11 1) 0x0301 n [0xFFFFFFFF] := by
  simp [seqTrigger, hen, hbusy]

/-- SEQ_LATE is a record in the Sketchbook's input queue and nothing more. -/
theorem record_seqLate (s : State) (n : Nat) (args : List Word) : record s 0x0301 n args =
    { s with book := { s.book with inq := evInsert s.book.inq (mkEvent s 0x0301 n args) } } :=
  recordEvent_quiet s (mkEvent s 0x0301 n args) (show eventClass 0x0301 ≠ 2 by decide) rfl (show 0x0301 ≠ 0x0902 by decide)

section SeqTrigger
variable {s : State} {n : Nat} {x : Nat × List Word × Snap} {r : List (Nat × List Word × Snap)}
    (hrun : convRun s = true) (hn : n < 32) (hdue : (s.sequ n).due = x :: r) (hen : seqEnabled s n = true)
include hrun hn hdue hen

/-- SEQ_TRIGGER hands the oldest trigger to its sequence; one that finds it free is a root trigger too (R308). -/
theorem exec_seqTrigger : exec (.seqTrigger n) s = .next (
      if (s.sequ n).run = none ∧ (s.sequ n).pend = none then rootTriggers n x.1 (seqTrigger n x (triggerTaken n r s))
      else seqTrigger n x (triggerTaken n r s)) := by
  show execSeqTrigger n s = _
  simp [execSeqTrigger, hrun, hn, hdue, hen, triggerTaken]

/-- What a free sequence does with the trigger, to the end of the step. -/
theorem exec_seqTrigger_free (hfree : (s.sequ n).run = none) (hpend : (s.sequ n).pend = none) :
    ∃ t, exec (.seqTrigger n) s = .next t ∧ t.sequ n = withPending x { s.sequ n with due := r } ∧
      ∀ m, m ≠ n → t.sequ m = s.sequ m := by
  have htaken : (triggerTaken n r s).sequ n = { s.sequ n with due := r } := (sequ_triggerTaken n n r s).trans (if_pos rfl)
  have hsequ := sequ_seqTrigger_free (s := triggerTaken n r s) x hen (by rw [htaken]; exact hfree) (by rw [htaken]; exact hpend)
  refine ⟨_, exec_seqTrigger hrun hn hdue hen, ?_, fun m hm => ?_⟩
  · rw [if_pos ⟨hfree, hpend⟩, sequ_rootTriggers, hsequ, if_pos rfl, htaken]
  · rw [if_pos ⟨hfree, hpend⟩, sequ_rootTriggers, hsequ, if_neg hm, sequ_triggerTaken, if_neg hm]

/-- What a running or pending sequence does with it. -/
theorem exec_seqTrigger_busy (hbusy : (s.sequ n).run ≠ none ∨ (s.sequ n).pend ≠ none) :
    exec (.seqTrigger n) s = .next (record (parCount (triggerTaken n r s) 3 0x11 1) 0x0301 n [0xFFFFFFFF]) := by
  have hnotFree : ¬ ((s.sequ n).run = none ∧ (s.sequ n).pend = none) := fun h => hbusy.elim (· h.1) (· h.2)
  rw [exec_seqTrigger hrun hn hdue hen, if_neg hnotFree,
    seqTrigger_busy (s := triggerTaken n r s) x hen (by rw [sequ_triggerTaken, if_pos rfl]; exact hbusy)]

end SeqTrigger

/-- Settles O30: a free sequence takes the trigger and keeps it through what the contexts do; a busy one leaves a count and a record. -/
theorem sequenceOverrun : Obligations.SequenceOverrun := by
  unfold Obligations.SequenceOverrun
  intro s n x r hrun hn hdue hen
  refine ⟨fun hfree hpend => ?free, fun hbusy => ?busy⟩
  case free =>
    obtain ⟨t, hexec, hsequ, hothers⟩ := exec_seqTrigger_free hrun hn hdue hen hfree hpend
    refine ⟨t, hexec, ?_⟩
    rw [hsequ]
    exact ⟨rfl, hfree, rfl, rfl, hothers⟩
  case busy =>
    refine ⟨_, exec_seqTrigger_busy hrun hn hdue hen hbusy, ?_⟩
    have hraised := record_raises (parCount (triggerTaken n r s) 3 0x11 1) 0x0301 n [0xFFFFFFFF]
    rw [record_seqLate] at hraised ⊢
    refine ⟨?_, parGet_parCount_self (triggerTaken n r s) 3 0x11 1, hraised, fun m hm => ?_, rfl⟩
    · exact (sequ_triggerTaken n n r s).trans (if_pos rfl)
    · exact (sequ_triggerTaken n m r s).trans (if_neg hm)

end Sys2Proof.Proofs
end

section
/-!
PROOFS. Position sources: what a restart leaves (R202, R208).
-/
namespace Sys2Proof.Proofs
open Sys2Proof.Machine Sys2Proof.Safety Sys2Proof.Laws

/-! Repetition. -/

/-- What each pass of a repetition does, the whole repetition does. -/
theorem forUpTo_rel {R : State → State → Prop} (hrefl : ∀ s, R s s) (htrans : ∀ {s u t}, R s u → R u t → R s t)
    {n : Nat} {f : Nat → State → State} (hf : ∀ k, k < n → ∀ u, R u (f k u)) (s : State) : R s (forUpTo n f s) := by
  induction n with
  | zero => exact hrefl s
  | succ n ih => exact htrans (ih fun k hk => hf k (Nat.lt_succ_of_lt hk)) (hf n (Nat.lt_succ_self n) _)

/-! The ticks of the speed conditions (R358). -/

theorem speedsNoted_trans {s u t : State} (h : SpeedsNoted s u) (k : SpeedsNoted u t) : SpeedsNoted s t := fun d => by
  rw [k d, h d]

theorem speedsNoted_updDrive (s : State) (d : Nat) (f : Drive → Drive)
    (hf : ∀ v, f v = { v with highFrom := (f v).highFrom, lostFrom := (f v).lostFrom }) : SpeedsNoted s (s.updDrive d f) := by
  intro e
  rw [drive_updDrive]
  split
  next he => rw [he]; exact hf _
  next => rfl

/-- Noting the speed conditions changes the drives alone, and of these the two ticks alone. -/
theorem noteSpeeds_noted (s : State) : SpeedsNoted s (noteSpeeds s) ∧ ∃ D, noteSpeeds s = { s with drives := D } := by
  unfold noteSpeeds
  refine forUpTo_rel (R := fun s t => SpeedsNoted s t ∧ ∃ D, t = { s with drives := D }) (fun s => ⟨fun _ => rfl, s.drives, rfl⟩)
    ?_ (fun d _ u => ⟨speedsNoted_updDrive u d _ fun _ => rfl, _, rfl⟩) s
  rintro s u t ⟨h, D, rfl⟩ ⟨k, D', rfl⟩
  exact ⟨speedsNoted_trans h k, D', rfl⟩

/-! The words of a source block. -/

/-- Words `g 0` to `g (k - 1)` are stored from index `b` of unit 0x04. -/
def blockStored (b k : Nat) (g : Nat → Word) (s : State) : State := forUpTo k (fun w s => parSet s 4 (b + w) (g w)) s

theorem blockStored_frame (b k : Nat) (g : Nat → Word) (s : State) : ∃ P, blockStored b k g s = { s with par := P } := by
  refine forUpTo_rel (R := fun s t => ∃ P, t = { s with par := P }) (fun s => ⟨s.par, rfl⟩) ?_ (fun w _ u => ⟨_, rfl⟩) s
  rintro s u t ⟨P, rfl⟩ ⟨P', rfl⟩
  exact ⟨P', rfl⟩

theorem parGet_blockStored {b k : Nat} (g : Nat → Word) (s : State) (hb : b + k ≤ 0x10000) {u i : Nat} (hi : i < 0x10000) :
    parGet (blockStored b k g s) u i = if u = 4 ∧ b ≤ i ∧ i < b + k then g (i - b) else parGet s u i := by
  induction k with
  | zero => rw [if_neg (by omega)]; rfl
  | succ k ih =>
    show parGet (parSet (blockStored b k g s) 4 (b + k) (g k)) u i = _
    rw [parGet_parSet _ (by omega) hi, ih (by omega)]
    by_cases hk : u = 4 ∧ i = b + k
    · rw [if_pos hk, if_pos (by omega), hk.2, Nat.add_sub_cancel_left]
    · rw [if_neg hk]
      exact if_congr (by omega) rfl rfl

/-! Compares on a source. -/

/-- The first `k` compares that name source `n` are disarmed. -/
def comparesOff (k n : Nat) (s : State) : State :=
  forUpTo k (fun i s => if (s.cmp i).source = n then s.updCmp i fun c => { c with armed := false } else s) s

theorem comparesOff_frame (k n : Nat) (s : State) : ∃ C, comparesOff k n s = { s with pos := { s.pos with cmps := C } } := by
  refine forUpTo_rel (R := fun s t => ∃ C, t = { s with pos := { s.pos with cmps := C } }) (fun s => ⟨s.pos.cmps, rfl⟩) ?_
    (fun i _ u => ?_) s
  · rintro s u t ⟨C, rfl⟩ ⟨C', rfl⟩
    exact ⟨C', rfl⟩
  · split
    · exact ⟨_, rfl⟩
    · exact ⟨u.pos.cmps, rfl⟩

theorem cmp_comparesOff (k n : Nat) (s : State) (c : Nat) :
    (comparesOff k n s).cmp c = if c < k ∧ (s.cmp c).source = n then { s.cmp c with armed := false } else s.cmp c := by
  induction k generalizing c with
  | zero => rw [if_neg (by omega)]; rfl
  | succ k ih =>
    have hlast : (comparesOff k n s).cmp k = s.cmp k := (ih k).trans (if_neg (by omega))
    have hsucc : comparesOff (k + 1) n s = if (s.cmp k).source = n then
        (comparesOff k n s).updCmp k fun c => { c with armed := false } else comparesOff k n s := by
      rw [← hlast]; rfl
    rw [hsucc]
    by_cases hc : c = k
    · subst hc
      by_cases hn : (s.cmp c).source = n <;> simp [hn, hlast]
    · have hlt : c < k + 1 ↔ c < k := by omega
      by_cases hn : (s.cmp k).source = n <;> simp [hn, hc, hlt, ih c]

/-! The restart. -/

/-- Source `q` after a restart at tick `now`: P has not moved, nothing is faulted, stale or homed. -/
def restarted (n now : Nat) (q : PosSrc) : PosSrc :=
  { ab := q.ab, zf := q.zf, raw := q.raw, rawAt := q.rawAt, recd := q.recd, prevRec := q.prevRec, held := q.held,
    faultCause := q.faultCause, homeStep := q.homeStep, sentSlow := q.sentSlow, runCaps := q.runCaps,
    tick := if n < 2 then now else 0 }

@[simp] theorem parSet_src (s : State) (u i : Nat) (v : Word) (m : Nat) : (parSet s u i v).src m = s.src m := rfl

/-- The source and its ERR_COUNT are cleared, then its compares are disarmed and the speed conditions noted. -/
theorem restartSource_eq (n : Nat) (s : State) : ∃ u, restartSource n s = noteSpeeds (comparesOff 8 n u) ∧
    (∀ m, u.src m = if m = n then restarted n s.now (s.src n) else s.src m) ∧
    ∃ S, u = { parSet s 4 (0x10C + 16 * n) 0 with pos := { s.pos with srcs := S } } := by
  refine ⟨_, rfl, ?_⟩
  by_cases hn : n < 2
  · rw [if_pos hn]
    refine ⟨fun m => ?_, _, rfl⟩
    by_cases hm : m = n <;> simp [hm, hn, restarted]
  · rw [if_neg hn]
    refine ⟨fun m => ?_, _, rfl⟩
    by_cases hm : m = n <;> simp [hm, hn, restarted]

/-! The command. -/

theorem checked_badParam {s : State} (b : Bool) (k : CmdRes) : checked s [(b, stBadParam)] k = if b then refuse stBadParam s else k := by
  cases b <;> rfl

/-- From `s` to `t` words `g 0` to `g 5` were stored in the block of source `n` and the source restarted. -/
structure Configured (n : Nat) (g : Nat → Word) (s t : State) : Prop where
  src : ∀ m, t.src m = if m = n then restarted n s.now (s.src n) else s.src m
  cmp : ∀ c, t.cmp c = if c < 8 ∧ (s.cmp c).source = n then { s.cmp c with armed := false } else s.cmp c
  par : ∀ u i, i < 0x10000 → parGet t u i = if u = 4 ∧ i = 0x10C + 16 * n then 0 else
    if u = 4 ∧ 0x100 + 16 * n ≤ i ∧ i < 0x100 + 16 * n + 6 then g (i - (0x100 + 16 * n)) else parGet s u i
  noted : SpeedsNoted s t
  frame : ∃ D P S C, t = { s with drives := D, par := P, pos := { s.pos with srcs := S, cmps := C } }

theorem configured_restartSource {n : Nat} (hn : n < 12) (g : Nat → Word) (s : State) :
    Configured n g s (restartSource n (blockStored (0x100 + 16 * n) 6 g s)) := by
  have hwords := fun u i (hi : i < 0x10000) => parGet_blockStored (b := 0x100 + 16 * n) (k := 6) g s (by omega) (u := u) hi
  obtain ⟨P, hstored⟩ := blockStored_frame (0x100 + 16 * n) 6 g s
  rw [hstored] at hwords ⊢
  obtain ⟨u, hu, hsrc, S, hcleared⟩ := restartSource_eq n { s with par := P }
  obtain ⟨C, hoff⟩ := comparesOff_frame 8 n u
  obtain ⟨hnoted, D, hnote⟩ := noteSpeeds_noted (comparesOff 8 n u)
  have hcmp := cmp_comparesOff 8 n u
  rw [hu, hnote]
  rw [hnote] at hnoted
  rw [hoff] at hnoted hcmp ⊢
  rw [hcleared] at hsrc hnoted hcmp ⊢
  refine ⟨hsrc, hcmp, fun v i hi => ?_, hnoted, _, _, _, _, rfl⟩
  exact (parGet_parSet { s with par := P } (by omega) hi 0).trans (by rw [hwords v i hi])

/-- The words of a POS_CONFIG that passes its check are stored, and its source restarts. -/
theorem bodyPosConfig_ok {s : State} {n : Nat} {w0 w1 w2 w3 w4 w5 : Word} (hn : n < 12)
    (hblock : posBlockOk s n w0 w1 w2 w3 w4 w5 = true) :
    ∃ u, bodyPosConfig [wrd n, w0, w1, w2, w3, w4, w5] s = .done stOk [] u ∧
      Configured n (fun k => [w0, w1, w2, w3, w4, w5].getD k 0) s u := by
  have hfield : field (pw [wrd n, w0, w1, w2, w3, w4, w5] 0) 3 0 = n := by
    show (wrd n).toNat / 1 % 16 = n
    rw [wrd, BitVec.toNat_ofNat]
    omega
  have hbits : hasBits (pw [wrd n, w0, w1, w2, w3, w4, w5] 0) 0xFFFFFFF0 = false :=
    hasBits_small (k := 4) (by decide) (by decide) (by omega)
  refine ⟨_, ?_, configured_restartSource hn _ s⟩
  unfold bodyPosConfig
  rw [checked_badParam, hbits, hfield, if_neg]
  · rfl
  · simp [Nat.not_le.2 hn, show posBlockOk s n _ _ _ _ _ _ = true from hblock, pw]

/-- A POS_CONFIG with a reserved bit, a source above 11 or a block out of range is refused. -/
theorem bodyPosConfig_bad {s : State} {w w0 w1 w2 w3 w4 w5 : Word}
    (hbad : hasBits w 0xFFFFFFF0 = true ∨ 12 ≤ field w 3 0 ∨ posBlockOk s (field w 3 0) w0 w1 w2 w3 w4 w5 = false) :
    bodyPosConfig [w, w0, w1, w2, w3, w4, w5] s = .done stBadParam [] s := by
  unfold bodyPosConfig
  rw [checked_badParam, if_pos]
  · rfl
  · simpa [pw, or_assoc] using hbad

/-- Settles O40: the block is stored, then the source restarts; a block out of range changes nothing. -/
theorem sourceRestart : Obligations.SourceRestart := by
  unfold Obligations.SourceRestart
  intro s tag n w0 w1 w2 w3 w4 w5 _
  refine ⟨fun hn hblock h => ?ok, fun w h hbad => ?bad⟩
  case bad =>
    obtain ⟨t, rfl, hreplied, f, hframe⟩ := completes h (bodyPosConfig_bad (s := begun s tag) hbad) rfl rfl
    refine ⟨_, rfl, hreplied, ?_⟩
    rw [hframe]
    rfl
  case ok =>
    obtain ⟨u, hbody, hsrc, hcmp, hpar, hnoted, D, P, S, C, hu⟩ := bodyPosConfig_ok (s := begun s tag) hn hblock
    obtain ⟨t, rfl, hreplied, f, ht⟩ := completes h hbody (by rw [hu]) (by rw [hu]; rfl)
    have hself : u.src n = restarted n s.now (s.src n) := (hsrc n).trans (if_pos rfl)
    refine ⟨_, rfl, hreplied, ?_⟩
    rw [ht]
    refine ⟨fun k hk => ?_, congrArg PosSrc.p hself, congrArg PosSrc.speed hself, congrArg PosSrc.dir hself, ?_,
      congrArg PosSrc.fault hself, congrArg PosSrc.stale hself, congrArg PosSrc.homed hself, fun m hm => (hsrc m).trans (if_neg hm),
      fun c hc => ?_, fun v i _ hi hblk herr => ?_, hnoted, ?_⟩
    · refine (hpar 4 _ (by omega)).trans ?_
      rw [if_neg (by omega), if_pos (by omega), Nat.add_sub_cancel_left]
    · exact (hpar 4 _ (by omega)).trans (if_pos ⟨rfl, rfl⟩)
    · exact (hcmp c).trans (if_congr (and_iff_right hc) rfl rfl)
    · exact (hpar v i hi).trans ((if_neg herr).trans (if_neg (by omega)))
    · rw [hu]
      rfl

end Sys2Proof.Proofs
end

section
/-!
PROOFS. Errors of position sources (R179, R188, R202): ERR_COUNT, and the fault that errors raise.
-/
namespace Sys2Proof.Proofs
open Sys2Proof.Machine Sys2Proof.Safety Sys2Proof.Laws

/-! Faults (R202). -/

/-- Source `q` with a fault, of this cause unless it had one. -/
def faultedBy (cause : Nat) (q : PosSrc) : PosSrc :=
  { q with fault := true, faultCause := if q.fault then q.faultCause else cause }

theorem faultedBy_of_fault (cause : Nat) {q : PosSrc} (h : q.fault = true) : faultedBy cause q = q := by
  unfold faultedBy
  rw [if_pos h, ← h]

/-- A source is faulted once; what may change beside the position unit is what an event and the ticks of the speed conditions may. -/
theorem faultSource_faults (n cause : Nat) (s : State) : EvStep { s with pos := (faultSource n cause s).pos } (faultSource n cause s) ∧
    (∀ m, (faultSource n cause s).src m = if m = n then faultedBy cause (s.src n) else s.src m) ∧
    ((s.src n).fault = false → Raised s (faultSource n cause s) 0x0405 n [wrd cause]) := by
  unfold faultSource
  by_cases hf : (s.src n).fault = true
  · rw [if_pos hf]
    refine ⟨.refl s, fun m => ?_, fun h => absurd (hf.symm.trans h) (by decide)⟩
    split
    next hm => rw [hm, faultedBy_of_fault cause hf]
    next => rfl
  · rw [if_neg hf]
    have hnote := ev_noteSpeeds (.refl (s.updSrc n fun q => { q with fault := true, faultCause := cause }))
    generalize noteSpeeds (s.updSrc n fun q => { q with fault := true, faultCause := cause }) = u at hnote ⊢
    have hev : EvStep _ (raise u 0x0405 n [wrd cause]) := hnote.trans (ev_raise (.refl u))
    have hraised := raise_raises u (code := 0x0405) (by decide) n [wrd cause]
    refine ⟨?_, fun m => ?_, fun _ => raised_of hraised hnote.now (congrArg Timing.timeValid hnote.tim)⟩
    · rw [hev.pos]; exact hev
    · show tblGet (raise u 0x0405 n [wrd cause]).pos.srcs {} m = _
      rw [hev.pos]
      refine (src_updSrc s n m _).trans ?_
      simp [faultedBy, hf]

/-! ERR_COUNT and the fault that comes of it. -/

@[simp] theorem errCount_src (n : Nat) (s : State) (m : Nat) : (errCount n s).src m = s.src m := rfl

/-- Source `n` becomes `f` of itself and its ERR_COUNT rises; then it is faulted if `b`. -/
def erred (n cause : Nat) (f : PosSrc → PosSrc) (b : Bool) (s : State) : State :=
  if b then faultSource n cause (errCount n (s.updSrc n f)) else errCount n (s.updSrc n f)

/-- What an error of source `n` leaves. -/
structure Erred (n cause : Nat) (f : PosSrc → PosSrc) (b : Bool) (s t : State) : Prop where
  self : t.src n = if b then faultedBy cause (f (s.src n)) else f (s.src n)
  others : ∀ m, m ≠ n → t.src m = s.src m
  errs : parGet t 4 (0x10C + 16 * n) = counted (parGet s 4 (0x10C + 16 * n)) 1
  raised : b = true → (f (s.src n)).fault = false → Raised s t 0x0405 n [wrd cause]
  quiet : b = false → t = { s with pos := t.pos, par := t.par }
  event : EvStep { s with pos := t.pos, par := (parCount s 4 (0x10C + 16 * n) 1).par } t

theorem erred_errs {n : Nat} (hn : n < 16) (cause : Nat) (f : PosSrc → PosSrc) (b : Bool) (s : State) :
    Erred n cause f b s (erred n cause f b s) := by
  have hsrc : ∀ m, (errCount n (s.updSrc n f)).src m = if m = n then f (s.src n) else s.src m := fun m => src_updSrc s n m f
  have herrs : parGet (errCount n (s.updSrc n f)) 4 (0x10C + 16 * n) = counted (parGet s 4 (0x10C + 16 * n)) 1 :=
    parGet_parCount_self (s.updSrc n f) 4 (0x10C + 16 * n) 1
  cases b
  case false =>
    exact ⟨(hsrc n).trans (if_pos rfl), fun m hm => (hsrc m).trans (if_neg hm), herrs, fun h => absurd h (by decide), fun _ => rfl,
      .refl _⟩
  case true =>
    obtain ⟨hev, hfault, hraised⟩ := faultSource_faults n cause (errCount n (s.updSrc n f))
    refine ⟨(hfault n).trans ?_, fun m hm => ?_, ?_, fun _ h => ?_, fun h => absurd h (by decide), hev⟩
    · rw [if_pos rfl, hsrc, if_pos rfl]; rfl
    · rw [← if_neg (c := m = n) (t := f (s.src n)) (e := s.src m) hm, ← hsrc]
      exact (hfault m).trans (if_neg hm)
    · exact (parGet_of_evStep hev (by omega) (by decide) (by decide)).trans herrs
    · exact hraised (by rw [hsrc, if_pos rfl]; exact h)

/-- The errors that count for a fault at tick `t`: those that lie in the millisecond that ends at `t`, and the one of `t` itself. -/
theorem length_errTicks (t : Nat) (l : List Nat) :
    (((l.filter fun x => t < x + msTicks) ++ [t]).filter fun x => inSlide t x msTicks).length =
      (l.filter fun x => inSlide t x msTicks).length + 1 := by
  have hself : inSlide t t msTicks = true := by simp [inSlide, msTicks]
  have hlate : ∀ x, (inSlide t x msTicks && decide (t < x + msTicks)) = inSlide t x msTicks := by simp [inSlide]
  simp [List.filter_append, List.filter_filter, hself, hlate]

theorem srcWord_errCount {n w : Nat} (hn : n < 16) (hw : w < 12) (s : State) : srcWord (errCount n s) n w = srcWord s n w :=
  (parGet_parSet s (by omega) (by omega) _).trans (if_neg (by omega))

/-- Whether more than ILLEGAL_LIMIT illegal transitions lie in the millisecond that ends at tick `t`, one of `t` itself among them. -/
def illegalMany (s : State) (n t : Nat) : Bool :=
  decide (field (srcWord s n 4) 7 0 < ((s.src n).errTicks.filter fun x => inSlide t x msTicks).length + 1)

/-- An illegal transition is an error that faults the source when too many lie in the millisecond that ends with it. -/
theorem illegalTransition_eq {n : Nat} (hn : n < 16) (t : Nat) (s : State) : illegalTransition n t s =
    erred n 1 (fun q => { q with errTicks := ((s.src n).errTicks.filter fun x => t < x + msTicks) ++ [t] })
      (illegalMany s n t) s := by
  unfold illegalTransition erred illegalMany
  dsimp only
  rw [length_errTicks, srcWord_errCount hn (by decide)]
  simp only [decide_eq_true_eq]
  rfl

/-- A bad frame is an error that faults the source when it is the third in a row. -/
theorem badFrame_eq (n cause : Nat) (s : State) : badFrame n cause s =
    erred n cause (fun q => { q with stale := true, badRun := q.badRun + 1, slow := [] }) (decide (2 ≤ (s.src n).badRun)) s := by
  have hrun : ((errCount n (s.updSrc n fun q => { q with stale := true, badRun := q.badRun + 1, slow := [] })).src n).badRun =
      (s.src n).badRun + 1 := by simp
  unfold badFrame erred
  dsimp only
  rw [hrun]
  simp only [decide_eq_true_eq, Nat.reduceLeDiff]

end Sys2Proof.Proofs
end

section
/-!
PROOFS. Captures, triggers and compares of position sources (R174, R186, R198, R203, R204): the steps that a moved position sets off, and
what they leave of every source.
-/
namespace Sys2Proof.Proofs
open Sys2Proof.Machine Sys2Proof.Safety Sys2Proof.Laws

/-! What a compare that fires does, step by step. -/

/-- `R` holds of each step by which triggers of tick `t` fire, and of their sequences. -/
structure TriggerRel (t : Nat) (R : State → State → Prop) : Prop where
  refl : ∀ s, R s s
  trans : ∀ {s u v}, R s u → R u v → R s v
  cmp : ∀ s i f, R s (s.updCmp i f)
  seq : ∀ s n, R s (seqFired n t s)
  event : ∀ s code i args, code = 0x0401 ∨ code = 0x0403 → R s (record s code i args)
  due : ∀ s m, R s (s.updSrc m fun q => { q with capDue := some t })
  start : ∀ s m, R s (s.updSrc m fun q => { q with startDue := some t })
  turn : ∀ s m f, (∀ q, f q = { q with dir := (f q).dir, dirAcc := (f q).dirAcc }) → R s (s.updSrc m f)
  capture : ∀ s m, m < 12 → R s (captureBefore m t s)

section TriggerRel
variable {t : Nat} {R : State → State → Prop} (hR : TriggerRel t R)
include hR

omit hR in
theorem rel_ite {s u v : State} {c : Prop} [Decidable c] (hu : R s u) (hv : R s v) : R s (if c then u else v) := by
  split
  · exact hu
  · exact hv

theorem fireSequences_rel (code : Nat) (s : State) : R s (fireSequences code t s) :=
  forUpTo_rel hR.refl hR.trans (fun n _ u => rel_ite (hR.seq u n) (hR.refl u)) s

theorem fireTrigger_rel (code : Nat) (s : State) : R s (fireTrigger code t s) := by
  refine hR.trans (fireSequences_rel hR code s) (forUpTo_rel hR.refl hR.trans (fun n hn u => ?_) _)
  extract_lets v
  have hv : R u v := rel_ite (hR.trans (hR.capture u n hn) (hR.due _ n)) (hR.refl u)
  exact hR.trans hv (rel_ite (hR.start v n) (hR.refl v))

theorem fireCompare_rel (i way : Nat) (p' : BitVec 64) (s : State) : R s (fireCompare t i way p' s) :=
  hR.trans (hR.cmp s i _) (hR.trans (hR.event _ _ i _ (.inr rfl)) (fireTrigger_rel hR _ _))

theorem testCompares_rel (n : Nat) (p p' : BitVec 64) (s : State) : R s (testCompares n t p p' s) := by
  refine forUpTo_rel hR.refl hR.trans (fun i _ u => rel_ite ?_ (hR.refl u)) s
  split
  · exact rel_ite (fireCompare_rel hR i _ p' u) (hR.refl u)
  · exact hR.refl u

theorem moveDir_rel (n : Nat) (step : Int) (hyst : Nat) (s : State) : R s (moveDir n step hyst s) := by
  unfold moveDir
  refine rel_ite (hR.turn s n _ fun _ => rfl) (rel_ite ?_ (hR.turn s n _ fun _ => rfl))
  exact hR.trans (hR.turn s n (fun q => { q with dirAcc := 0, dir := !q.dir }) fun _ => rfl) (hR.event _ _ n _ (.inl rfl))

/-- After P and its motion are stored, the direction flag and the compares follow. -/
theorem movePos_rel (n : Nat) (p' : BitVec 64) (delta step : Int) (hyst : Nat) (s : State) :
    R (s.updSrc n fun q => { q with p := p', moved := q.moved + delta, lastChange := some t, standstill := false })
      (movePos n t p' delta step hyst s) :=
  hR.trans (moveDir_rel hR n step hyst _) (testCompares_rel hR n _ p' _)

end TriggerRel

/-! Of a source captures and triggers change its records, its speed and its direction alone. -/

/-- Source `q` without what captures, triggers and the direction flag change. -/
def bareSrc (q : PosSrc) : PosSrc :=
  { q with capDue := none, startDue := none, prevRec := {}, recd := {}, speed := 0, method := false, runCaps := 0, standstill := false,
           changes := [], capTick := none, moved := 0, dir := false, dirAcc := 0 }

/-- From `s` to `t` the sources stay but for their records, speed and direction, and the parameters of unit 0x04 stay. -/
structure SrcsKept (s t : State) : Prop where
  src : ∀ m, bareSrc (t.src m) = bareSrc (s.src m)
  par : ∀ i, i < 65536 → parGet t 4 i = parGet s 4 i

theorem SrcsKept.refl (s : State) : SrcsKept s s := ⟨fun _ => rfl, fun _ _ => rfl⟩

theorem SrcsKept.trans {s u t : State} (h : SrcsKept s u) (k : SrcsKept u t) : SrcsKept s t :=
  ⟨fun m => (k.src m).trans (h.src m), fun i hi => (k.par i hi).trans (h.par i hi)⟩

section SrcsKept
variable {s t : State} (h : SrcsKept s t) (m : Nat)
include h

theorem SrcsKept.p : (t.src m).p = (s.src m).p := (congrArg PosSrc.p (h.src m) :)
theorem SrcsKept.fault : (t.src m).fault = (s.src m).fault := (congrArg PosSrc.fault (h.src m) :)
theorem SrcsKept.stale : (t.src m).stale = (s.src m).stale := (congrArg PosSrc.stale (h.src m) :)
theorem SrcsKept.badRun : (t.src m).badRun = (s.src m).badRun := (congrArg PosSrc.badRun (h.src m) :)

end SrcsKept

theorem srcsKept_updSrc (s : State) (n : Nat) {f : PosSrc → PosSrc} (hf : ∀ q, bareSrc (f q) = bareSrc q) :
    SrcsKept s (s.updSrc n f) := by
  refine ⟨fun m => ?_, fun _ _ => rfl⟩
  rw [src_updSrc]
  split
  next hm => rw [hf, hm]
  next => rfl

theorem srcsKept_evStep {s t : State} (h : EvStep s t) : SrcsKept s t := by
  refine ⟨fun m => ?_, fun i hi => parGet_of_evStep h hi (by decide) (by decide)⟩
  unfold State.src
  rw [h.pos]

theorem srcsKept_crossCheck (d : Nat) (s : State) : SrcsKept s (crossCheck d s) := by
  have hset (v : Nat) : SrcsKept s { s with pos := { s.pos with mism := tblSet s.pos.mism 0 d v } } := ⟨fun _ => rfl, fun _ _ => rfl⟩
  unfold crossCheck
  dsimp only
  exact rel_ite (hset 0) (rel_ite (rel_ite ((hset 0).trans (srcsKept_evStep (ev_raise (.refl _)))) (hset _)) (hset 0))

theorem srcsKept_patchRecs (n t : Nat) (r : PosRec) (s : State) : SrcsKept s (patchRecs n t r s) := by
  refine forUpTo_rel SrcsKept.refl SrcsKept.trans (fun m _ u => rel_ite ?_ (.refl u)) s
  exact ⟨fun _ => rfl, fun _ _ => rfl⟩

theorem srcsKept_capture (n tc : Nat) (s : State) : SrcsKept s (capture n tc s) := by
  unfold capture
  extract_lets q still sp r edge s1 s2 s3 s4 s5
  have h1 : SrcsKept s s1 := srcsKept_updSrc s n fun _ => rfl
  have h2 : SrcsKept s1 s2 := srcsKept_updSrc s1 n fun _ => rfl
  have h3 : SrcsKept s2 s3 := srcsKept_evStep (ev_noteSpeeds (.refl s2))
  have h4 : SrcsKept s3 s4 := by
    refine rel_ite ?_ (.refl s3)
    exact srcsKept_updSrc s3 n fun _ => rfl
  have h5 : SrcsKept s4 s5 := srcsKept_patchRecs n tc r s4
  refine h1.trans (h2.trans (h3.trans (h4.trans (h5.trans (forUpTo_rel SrcsKept.refl SrcsKept.trans (fun d _ u => ?_) s5)))))
  have hcheck := srcsKept_crossCheck d u
  exact rel_ite (.refl u) (rel_ite (rel_ite (.refl u) hcheck) (rel_ite (.refl u) hcheck))

theorem srcsKept_captureBefore (n t : Nat) (s : State) : SrcsKept s (captureBefore n t s) := by
  unfold captureBefore
  split
  · exact rel_ite (srcsKept_capture n _ s) (.refl s)
  · exact .refl s

theorem srcsKept_triggerRel (t : Nat) : TriggerRel t SrcsKept where
  refl := .refl
  trans := .trans
  cmp _ _ _ := ⟨fun _ => rfl, fun _ _ => rfl⟩
  seq _ _ := ⟨fun _ => rfl, fun _ _ => rfl⟩
  event s _ _ _ _ := srcsKept_evStep (ev_record (.refl s))
  due s m := srcsKept_updSrc s m fun _ => rfl
  start s m := srcsKept_updSrc s m fun _ => rfl
  turn s m _ hf := srcsKept_updSrc s m fun q => by rw [hf]; rfl
  capture s m _ := srcsKept_captureBefore m t s

end Sys2Proof.Proofs
end

section
/-!
PROOFS. SSI frames (R186 to R188): what a bad and a good frame leave.
-/
namespace Sys2Proof.Proofs
open Sys2Proof.Machine Sys2Proof.Safety Sys2Proof.Laws

/-! A good frame (R188). -/

/-- From `s` to `t` a good frame of source `n` was taken: the run of bad frames has ended, and neither the fault nor the position of
another source nor a parameter of unit 0x04 changed. -/
structure GoodFrame (n : Nat) (s t : State) : Prop where
  stale : (t.src n).stale = false
  badRun : (t.src n).badRun = 0
  fault : (t.src n).fault = (s.src n).fault
  others : ∀ m, m ≠ n → (t.src m).p = (s.src m).p
  par : ∀ i, i < 65536 → parGet t 4 i = parGet s 4 i

theorem GoodFrame.kept {n : Nat} {s u t : State} (h : GoodFrame n s u) (k : SrcsKept u t) : GoodFrame n s t where
  stale := (k.stale n).trans h.stale
  badRun := (k.badRun n).trans h.badRun
  fault := (k.fault n).trans h.fault
  others m hm := (k.p m).trans (h.others m hm)
  par i hi := (k.par i hi).trans (h.par i hi)

theorem GoodFrame.upd {n : Nat} {s u : State} (h : GoodFrame n s u) {f : PosSrc → PosSrc}
    (hf : ∀ q, (f q).stale = q.stale ∧ (f q).badRun = q.badRun ∧ (f q).fault = q.fault) : GoodFrame n s (u.updSrc n f) := by
  have hself : (u.updSrc n f).src n = f (u.src n) := (src_updSrc u n n f).trans (if_pos rfl)
  obtain ⟨hstale, hrun, hfault⟩ := hf (u.src n)
  refine ⟨?_, ?_, ?_, fun m hm => ?_, h.par⟩
  · rw [hself, hstale]; exact h.stale
  · rw [hself, hrun]; exact h.badRun
  · rw [hself, hfault]; exact h.fault
  · rw [src_updSrc, if_neg hm]; exact h.others m hm

theorem goodFrame_good (n : Nat) (p' : BitVec 64) (lsb tick : Nat) (s : State) : GoodFrame n s (goodFrame n p' lsb tick s) := by
  unfold goodFrame
  extract_lets s1 q s2 delta s3
  have h1 : SrcsKept s s1 := srcsKept_captureBefore n s.now s
  have h2 : GoodFrame n s s2 := by
    have hself : s2.src n = _ := (src_updSrc s1 n n _).trans (if_pos rfl)
    refine ⟨congrArg PosSrc.stale hself, congrArg PosSrc.badRun hself, ?_, fun m hm => ?_, h1.par⟩
    · exact (congrArg PosSrc.fault hself).trans (h1.fault n)
    · exact (congrArg PosSrc.p ((src_updSrc s1 n m _).trans (if_neg hm))).trans (h1.p m)
  have h3 : GoodFrame n s s3 := h2.upd fun _ => ⟨rfl, rfl, rfl⟩
  split
  · refine GoodFrame.kept ?_ (srcsKept_evStep (ev_noteSpeeds (.refl _)))
    exact h2.upd fun _ => ⟨rfl, rfl, rfl⟩
  · split
    · exact h3
    · refine GoodFrame.kept ?_ (movePos_rel (srcsKept_triggerRel _) n p' delta _ _ s3)
      exact h3.upd fun _ => ⟨rfl, rfl, rfl⟩

/-! A bad frame (R188). -/

/-- From `s` to `t` source `n` took a bad frame, the third in a row when two came just before it. -/
structure BadFrame (n cause : Nat) (s t : State) : Prop where
  p : (t.src n).p = (s.src n).p
  stale : (t.src n).stale = true
  badRun : (t.src n).badRun = (s.src n).badRun + 1
  others : ∀ m, m ≠ n → t.src m = s.src m
  errs : parGet t 4 (0x10C + 16 * n) = counted (parGet s 4 (0x10C + 16 * n)) 1
  few : (s.src n).badRun < 2 → (t.src n).fault = (s.src n).fault
  many : 2 ≤ (s.src n).badRun → (t.src n).fault = true ∧
    ((s.src n).fault = false → (t.src n).faultCause = cause ∧ Raised s t 0x0405 n [wrd cause])
  event : EvStep { s with pos := t.pos, par := (parCount s 4 (0x10C + 16 * n) 1).par } t

theorem badFrame_bad {n : Nat} (hn : n < 16) (cause : Nat) (s : State) : BadFrame n cause s (badFrame n cause s) := by
  rw [badFrame_eq]
  obtain ⟨hself, hothers, herrs, hraised, _, hev⟩ := erred_errs hn cause
    (fun q => { q with stale := true, badRun := q.badRun + 1, slow := [] }) (decide (2 ≤ (s.src n).badRun)) s
  refine ⟨?_, ?_, ?_, hothers, herrs, fun hfew => ?_, fun hmany => ⟨?_, fun hfault => ⟨?_, ?_⟩⟩, hev⟩
  · rw [hself]; split <;> rfl
  · rw [hself]; split <;> rfl
  · rw [hself]; split <;> rfl
  · rw [hself, if_neg (by simpa using hfew)]
  · rw [hself, if_pos (decide_eq_true hmany)]; rfl
  · rw [hself, if_pos (decide_eq_true hmany)]; simp [faultedBy, hfault]
  · exact hraised (decide_eq_true hmany) hfault

/-! The end of a transfer. -/

/-- What a bad frame is judged by beside its line: its parity, where one is expected, and its status bits (R187). -/
def ssiBad (s : State) (n : Nat) (bits : List Bool) : Bool :=
  (wbit (srcWord s n 2) 30 && !ssiParity s n bits) ||
    decide (ssiWord s n bits % 2 ^ (field (srcWord s n 3) 29 24 - field (srcWord s n 3) 21 16) &&& field (srcWord s n 3) 7 0 ≠ 0)

theorem ssiBad_iff (s : State) (n : Nat) (bits : List Bool) : ssiBad s n bits = true ↔
    (wbit (srcWord s n 2) 30 ∧ !ssiParity s n bits) ∨
      ssiWord s n bits % 2 ^ (field (srcWord s n 3) 29 24 - field (srcWord s n 3) 21 16) &&& field (srcWord s n 3) 7 0 ≠ 0 := by
  simp [ssiBad]

/-- Source `n` with its transfer over. -/
def transferEnded (n : Nat) (s : State) : State := s.updSrc n fun q => { q with busy := false }

theorem srcKind_eq_ssi_iff (n : Nat) : srcKind n = .ssi ↔ 4 ≤ n ∧ n < 6 := by
  unfold srcKind
  split_ifs <;> simp <;> omega

theorem exec_ssiFrameEnd {s : State} {n : Nat} (high : Bool) (bits : List Bool) (fall rise : Nat) (hruns : posRuns s = true)
    (hen : srcEn s n = true) (hkind : srcKind n = .ssi) (hbusy : (s.src n).busy = true)
    (hclock : (s.src n).startTick + ssiPeriod s n * field (srcWord s n 3) 29 24 ≤ s.now) :
    exec (.ssiFrameEnd n high bits fall rise) s = .next (
      if ssiLine s n high fall rise = true ∧ ssiBad s n bits = false then
        goodFrame n (ssiPos s n (ssiWord s n bits)).1 (ssiPos s n (ssiWord s n bits)).2 (s.src n).startTick (transferEnded n s)
      else badFrame n (if ssiLine s n high fall rise then 5 else 4) (transferEnded n s)) := by
  obtain ⟨h4, h6⟩ := (srcKind_eq_ssi_iff n).1 hkind
  have hended : ¬ (n < 4 ∨ 6 ≤ n ∨ (!(s.src n).busy) = true ∨
      s.now < (s.src n).startTick + ssiPeriod s n * field (srcWord s n 3) 29 24) := by
    simp only [hbusy, Bool.not_true, Bool.false_eq_true, false_or]
    omega
  have hstart : ((transferEnded n s).src n).startTick = (s.src n).startTick := by simp [transferEnded]
  have hrest : exec (.ssiFrameEnd n high bits fall rise) s = .next (
      if !posRuns s ∨ !srcEn s n then transferEnded n s
      else if !ssiLine s n high fall rise then badFrame n 4 (transferEnded n s)
      else if (wbit (srcWord s n 2) 30 ∧ !ssiParity s n bits) ∨
          ssiWord s n bits % 2 ^ (field (srcWord s n 3) 29 24 - field (srcWord s n 3) 21 16) &&& field (srcWord s n 3) 7 0 ≠ 0 then
        badFrame n 5 (transferEnded n s)
      else goodFrame n (ssiPos s n (ssiWord s n bits)).1 (ssiPos s n (ssiWord s n bits)).2
        ((transferEnded n s).src n).startTick (transferEnded n s)) := congrArg Host.Outcome.next (if_neg hended)
  rw [hrest, hstart, if_neg (by simp [hruns, hen])]
  simp only [← ssiBad_iff]
  cases ssiLine s n high fall rise
  case false => simp
  case true => cases ssiBad s n bits <;> simp

/-- Settles O39: a bad frame is an error of its source, a good one ends the run of bad frames. -/
theorem badSsiFrames : Obligations.BadSsiFrames := by
  unfold Obligations.BadSsiFrames
  intro s n high bits fall rise line bad hruns hen hkind hbusy hclock hline hbad
  have hexec := exec_ssiFrameEnd high bits fall rise hruns hen hkind hbusy hclock
  obtain ⟨_, hn⟩ := (srcKind_eq_ssi_iff n).1 hkind
  obtain rfl : bad = ssiBad s n bits := hbad
  subst hline
  have hself : (transferEnded n s).src n = { s.src n with busy := false } := by simp [transferEnded]
  have hothers : ∀ m, m ≠ n → (transferEnded n s).src m = s.src m := fun m hm => by simp [transferEnded, hm]
  by_cases hgood : ssiLine s n high fall rise = true ∧ ssiBad s n bits = false
  case pos =>
    rw [if_pos hgood] at hexec
    have h := goodFrame_good n (ssiPos s n (ssiWord s n bits)).1 (ssiPos s n (ssiWord s n bits)).2 (s.src n).startTick (transferEnded n s)
    refine ⟨_, hexec, fun m hm => ?_, fun hor => by simp [hgood] at hor, fun _ _ => ⟨h.stale, h.badRun, ?_, h.par _ (by omega)⟩⟩
    · rw [h.others m hm, hothers m hm]
    · rw [h.fault, hself]
  case neg =>
    rw [if_neg hgood] at hexec
    have hcause : [wrd (if ssiLine s n high fall rise then 5 else 4)] = [if ssiLine s n high fall rise then (5 : Word) else 4] := by
      cases ssiLine s n high fall rise <;> rfl
    obtain ⟨hp, hstale, hrun, hkept, herrs, hfew, hmany, hev⟩ :=
      badFrame_bad (n := n) (by omega) (if ssiLine s n high fall rise then 5 else 4) (transferEnded n s)
    rw [hself] at hp hrun hfew hmany
    rw [hcause] at hmany
    exact ⟨_, hexec, fun m hm => by rw [hkept m hm, hothers m hm],
      fun _ => ⟨hp, hstale, hrun, herrs, hfew, hmany, reacted_of_evStep hev⟩, fun hline hbad => absurd ⟨hline, hbad⟩ hgood⟩

end Sys2Proof.Proofs
end

section
/-!
PROOFS. The filter of an encoder's lines (R177): levels that have lasted for FILT ticks pass it together, and what an ENCODER_COUNT row
makes of them is one change of the filtered levels.
-/
namespace Sys2Proof.Proofs
open Sys2Proof.Machine Sys2Proof.Safety Sys2Proof.Laws

/-! Levels as numbers. -/

/-- A number below 8 is the mask of its three low bits. -/
theorem maskOf_testBit {r : Nat} (hr : r < 8) : maskOf (below 3 r.testBit) = r := by
  revert r
  decide

theorem levels_lt (a b z : Bool) : 4 * b2n a + 2 * b2n b + b2n z < 8 := by cases a <;> cases b <;> cases z <;> decide

theorem b2n_le (b : Bool) : b2n b ≤ 1 := by cases b <;> decide

/-- Numbers below 8 that agree in their three low bits are one number. -/
theorem eq_of_testBit_lt {r r' : Nat} (hr : r < 8) (hr' : r' < 8) (h : ∀ k, k < 3 → r.testBit k = r'.testBit k) : r = r' := by
  rw [← maskOf_testBit hr, ← maskOf_testBit hr']
  exact congrArg maskOf (List.filter_congr fun k hk => h k (List.mem_range.1 hk))

/-! One passage of the filter. -/

/-- Bit `k` of the pins of encoder `n` differs from what has passed the filter. -/
def Waits (s : State) (n k : Nat) : Prop := (s.src n).raw.testBit k ≠ (filtLevels (s.src n)).testBit k

theorem mem_filtTicks {s : State} {n t : Nat} :
    t ∈ filtTicks s n ↔ ∃ k, k < 3 ∧ Waits s n k ∧ (s.src n).rawAt.getD k 0 + srcFilt s n = t ∧ t ≤ s.now := by
  simp only [filtTicks, below, List.mem_filter, List.mem_map, List.mem_range, bne_iff_ne, decide_eq_true_eq, Waits]
  tauto

/-- With the filtered levels at the pins nothing passes. -/
theorem encoderPass_settled {s : State} {n : Nat} (h : (s.src n).raw = filtLevels (s.src n)) : encoderPass n s = s := by
  have hnil : filtTicks s n = [] := List.eq_nil_iff_forall_not_mem.2 fun t ht => by
    obtain ⟨k, _, hwait, _⟩ := mem_filtTicks.1 ht
    exact hwait (by rw [h])
  unfold encoderPass
  rw [hnil]
  rfl

/-- Levels that have all stood at the pins since one tick pass together. -/
theorem encoderPass_together {s : State} {n t : Nat} (hraw : (s.src n).raw < 8) (hdiff : ∃ k, k < 3 ∧ Waits s n k)
    (hnow : t ≤ s.now) (hat : ∀ k, k < 3 → Waits s n k → (s.src n).rawAt.getD k 0 + srcFilt s n = t) :
    encoderPass n s = encoderLevels n t (s.src n).raw s := by
  have hmin : (filtTicks s n).min? = some t := by
    refine List.min?_eq_some_iff.2 ⟨?_, fun x hx => ?_⟩
    · obtain ⟨k, hk, hwait⟩ := hdiff
      exact mem_filtTicks.2 ⟨k, hk, hwait, hat k hk hwait, hnow⟩
    · obtain ⟨k, hk, hwait, rfl, _⟩ := mem_filtTicks.1 hx
      exact (hat k hk hwait).ge
  have hbits : below 3 (fun k => if (s.src n).rawAt.getD k 0 + srcFilt s n = t then (s.src n).raw.testBit k
      else (filtLevels (s.src n)).testBit k) = below 3 (s.src n).raw.testBit := by
    refine List.filter_congr fun k hk => ?_
    split
    next => rfl
    next hlate => exact (not_not.1 fun hwait => hlate (hat k (List.mem_range.1 hk) hwait)).symm
  unfold encoderPass
  rw [hmin]
  exact congrArg (encoderLevels n t · s) ((congrArg maskOf hbits).trans (maskOf_testBit hraw))

theorem encoderSettle_settled {s : State} {n : Nat} (h : (s.src n).raw = filtLevels (s.src n)) : encoderSettle n s = s := by
  show encoderPass n (encoderPass n (encoderPass n s)) = s
  simp only [encoderPass_settled h]

theorem encoderSettle_once {s u : State} {n : Nat} (hpass : encoderPass n s = u) (hu : (u.src n).raw = filtLevels (u.src n)) :
    encoderSettle n s = u := by
  show encoderPass n (encoderPass n (encoderPass n s)) = u
  rw [hpass, encoderPass_settled hu, encoderPass_settled hu]

/-! A row. -/

/-- From `s` to `t` nothing differs but the levels of source `n`, at its pins and behind its filter. -/
structure LinesOnly (n : Nat) (s t : State) : Prop where
  self : ∃ r l ab zf, t.src n = { s.src n with raw := r, rawAt := l, ab := ab, zf := zf }
  others : ∀ m, m ≠ n → t.src m = s.src m
  frame : ∃ S, t = { s with pos := { s.pos with srcs := S } }

theorem linesOnly_updSrc (n : Nat) (s : State) {f : PosSrc → PosSrc}
    (hf : ∀ q, f q = { q with raw := (f q).raw, rawAt := (f q).rawAt, ab := (f q).ab, zf := (f q).zf }) :
    LinesOnly n s (s.updSrc n f) := by
  refine ⟨⟨_, _, _, _, (src_updSrc s n n f).trans ((if_pos rfl).trans (hf _))⟩, fun m hm => ?_, _, rfl⟩
  rw [src_updSrc, if_neg hm]

theorem LinesOnly.refl (n : Nat) (s : State) : LinesOnly n s s := ⟨⟨_, _, _, _, rfl⟩, fun _ _ => rfl, _, rfl⟩

theorem LinesOnly.trans {n : Nat} {s u t : State} (h : LinesOnly n s u) (k : LinesOnly n u t) : LinesOnly n s t := by
  obtain ⟨⟨r, l, ab, zf, hself⟩, hothers, S, rfl⟩ := h
  obtain ⟨⟨r', l', ab', zf', hself'⟩, hothers', S', rfl⟩ := k
  exact ⟨⟨r', l', ab', zf', by rw [hself', hself]⟩, fun m hm => (hothers' m hm).trans (hothers m hm), S', rfl⟩

/-- The pins of encoder `n` show levels `r` at this tick. -/
def pinsShow (n r : Nat) (s : State) : State := s.updSrc n fun q => { q with
  raw := r, rawAt := (List.range 3).map fun k => if q.raw.testBit k = r.testBit k then q.rawAt.getD k 0 else s.now }

theorem src_pinsShow (n r : Nat) (s : State) : (pinsShow n r s).src n = { s.src n with
    raw := r, rawAt := (List.range 3).map fun k => if (s.src n).raw.testBit k = r.testBit k then (s.src n).rawAt.getD k 0 else s.now } :=
  (src_updSrc s n n _).trans (if_pos rfl)

/-- The filtered levels of encoder `n` have become `lv`. -/
def levelsPassed (n lv : Nat) (s : State) : State := s.updSrc n fun q => { q with ab := lv / 2, zf := decide (lv % 2 = 1) }

/-- A change of the filtered levels by `d` quadrature steps, modulo 4: two are illegal, one is a count (R177, R179). -/
def levelsMove (n t d : Nat) (z : Bool) (s : State) : State :=
  if d = 2 then illegalTransition n t s else encoderStep n t (decide (d = 1) != wbit (srcWord s n 0) 28) z s

theorem exec_encoderCount {n : Nat} (hn : n < 2) (a b z : Bool) (s : State) : exec (.encoderCount n a b z) s =
    .next (encoderSettle n (pinsShow n (4 * b2n a + 2 * b2n b + b2n z) (encoderSettle n s))) :=
  congrArg Host.Outcome.next (if_neg (Nat.not_le.2 hn))

theorem filtLevels_levelsPassed (n lv : Nat) (s : State) : filtLevels ((levelsPassed n lv s).src n) = lv := by
  have hlv : 2 * (lv / 2) + b2n (decide (lv % 2 = 1)) = lv := by
    by_cases h : lv % 2 = 1 <;> simp [b2n, h] <;> omega
  simpa [levelsPassed, filtLevels] using hlv

theorem filtLevels_div_two (q : PosSrc) : filtLevels q / 2 = q.ab := by
  have := b2n_le q.zf
  unfold filtLevels
  omega

section Encoder
variable {s : State} {n t lv d : Nat} (hruns : posRuns s = true) (hen : srcEn s n = true) (hcap : (s.src n).capDue = none)
    (hd : (quad (lv / 2) + 4 - quad (s.src n).ab) % 4 = d) (hd0 : d ≠ 0)
include hruns hen hcap hd hd0

theorem encoderLevels_moves :
    encoderLevels n t lv s = levelsMove n t d (decide (lv % 2 = 1)) (levelsPassed n lv s) := by
  have hbefore : captureBefore n t s = s := by
    unfold captureBefore
    rw [hcap]
  have hgo : ¬ (d = 0 ∨ (!posRuns (levelsPassed n lv s)) = true ∨ (!srcEn (levelsPassed n lv s) n) = true) := by
    have hruns' : posRuns (levelsPassed n lv s) = true := hruns
    have hen' : srcEn (levelsPassed n lv s) n = true := hen
    simp [hd0, hruns', hen']
  subst hd
  unfold encoderLevels
  rw [hbefore]
  exact if_neg hgo

/-- Pins that show levels `lv`, of which all that are new pass at tick `t`, make one move of the filtered levels. -/
theorem encoderSettle_moves (hlv : lv < 8) (hab : (s.src n).ab < 4) (hraw : (s.src n).raw = lv) (hnow : t ≤ s.now)
    (hat : ∀ k, k < 3 → lv.testBit k ≠ (filtLevels (s.src n)).testBit k → (s.src n).rawAt.getD k 0 + srcFilt s n = t)
    (hstay : filtLevels ((levelsMove n t d (decide (lv % 2 = 1)) (levelsPassed n lv s)).src n) = lv ∧
      ((levelsMove n t d (decide (lv % 2 = 1)) (levelsPassed n lv s)).src n).raw = lv) :
    encoderSettle n s = levelsMove n t d (decide (lv % 2 = 1)) (levelsPassed n lv s) := by
  have hne : lv ≠ filtLevels (s.src n) := fun h => by
    rw [h, filtLevels_div_two] at hd
    omega
  have hfilt : filtLevels (s.src n) < 8 := by
    have := b2n_le (s.src n).zf
    unfold filtLevels
    omega
  have hdiff : ∃ k, k < 3 ∧ lv.testBit k ≠ (filtLevels (s.src n)).testBit k := Classical.by_contradiction fun hall =>
    hne (eq_of_testBit_lt hlv hfilt fun k hk => Classical.not_not.1 fun h => hall ⟨k, hk, h⟩)
  subst hraw
  refine encoderSettle_once ((encoderPass_together hlv hdiff hnow hat).trans (encoderLevels_moves hruns hen hcap hd hd0)) ?_
  rw [hstay.1, hstay.2]

end Encoder

/-- A row whose levels pass the filter together makes one move of them, and beside that nothing but levels changes. -/
theorem encoderCount_moves {s : State} {n tp d : Nat} {a b z : Bool} (hn : n < 2) (hruns : posRuns s = true) (hen : srcEn s n = true)
    (hcap : (s.src n).capDue = none) (hpass : LevelsPass s n a b z tp) (hab : (s.src n).ab < 4)
    (hd : (quad (2 * b2n a + b2n b) + 4 - quad (s.src n).ab) % 4 = d) (hd0 : d ≠ 0)
    (hstay : ∀ w, LinesOnly n s w → filtLevels ((levelsMove n tp d z w).src n) = filtLevels (w.src n) ∧
      ((levelsMove n tp d z w).src n).raw = (w.src n).raw) :
    ∃ w t, LinesOnly n s w ∧ exec (.encoderCount n a b z) s = .next t ∧ LinesOnly n (levelsMove n tp d z w) t := by
  have hlv := levels_lt a b z
  have hz : z = decide ((4 * b2n a + 2 * b2n b + b2n z) % 2 = 1) := by cases a <;> cases b <;> cases z <;> decide
  have hhalf : 2 * b2n a + b2n b = (4 * b2n a + 2 * b2n b + b2n z) / 2 := by
    have := b2n_le z
    omega
  rw [hhalf] at hd
  rw [exec_encoderCount hn]
  unfold LevelsPass at hpass
  generalize 4 * b2n a + 2 * b2n b + b2n z = lv at hlv hz hd hpass ⊢
  subst hz
  have hpassed : ∀ u, LinesOnly n s u → LinesOnly n s (levelsPassed n lv u) :=
    fun u hu => hu.trans (linesOnly_updSrc n u fun _ => rfl)
  have hstay' : ∀ u, LinesOnly n s u → (u.src n).raw = lv →
      filtLevels ((levelsMove n tp d (decide (lv % 2 = 1)) (levelsPassed n lv u)).src n) = lv ∧
      ((levelsMove n tp d (decide (lv % 2 = 1)) (levelsPassed n lv u)).src n).raw = lv := fun u hu hraw => by
    obtain ⟨hfilt, hkeep⟩ := hstay _ (hpassed u hu)
    rw [hfilt, hkeep, filtLevels_levelsPassed]
    simp [levelsPassed, hraw]
  obtain ⟨hfilt, hraw, rfl⟩ | ⟨hraw, hnow, hat⟩ := hpass
  case inl =>
    have hshow : LinesOnly n s (pinsShow n lv s) := linesOnly_updSrc n s fun _ => rfl
    refine ⟨_, _, hpassed _ hshow, ?_, .refl n _⟩
    rw [encoderSettle_settled hraw]
    refine congrArg Host.Outcome.next (encoderSettle_moves (t := s.now) (d := d) hruns hen ?_ ?_ hd0 hlv ?_ ?_ (le_refl _)
      (fun k hk hwait => ?_) (hstay' _ hshow ?_))
    all_goals rw [src_pinsShow]
    · exact hcap
    · exact hd
    · exact hab
    · rw [src_pinsShow] at hwait
      have hnew : (s.src n).raw.testBit k ≠ lv.testBit k := fun h => hwait (by rw [← h, hraw]; rfl)
      have hzero : srcFilt (pinsShow n lv s) n = 0 := hfilt
      simp [hzero, hnew, hk]
  case inr =>
    refine ⟨levelsPassed n lv s, pinsShow n lv (levelsMove n tp d (decide (lv % 2 = 1)) (levelsPassed n lv s)),
      hpassed s (.refl n s), ?_, linesOnly_updSrc n _ fun _ => rfl⟩
    rw [encoderSettle_moves hruns hen hcap hd hd0 hlv hab hraw hnow (by rw [← hraw]; exact hat) (hstay' s (.refl n s) hraw),
      encoderSettle_settled]
    rw [src_pinsShow]
    exact (hstay' s (.refl n s) hraw).1.symm

end Sys2Proof.Proofs
end

section
/-!
PROOFS. Illegal transitions of an encoder (R179). The claim holds for levels of two lines, and these are what the device holds; it fails
where the model's number for the filtered A and B, which bounds nothing, is 4 or above: `quad` reads such a number as it reads 1, while
the filter compares bit by bit.
-/
namespace Sys2Proof.Proofs
open Sys2Proof.Machine Sys2Proof.Safety Sys2Proof.Laws

/-- An event may be followed by any change of the position unit. -/
theorem evStep_withPos {s t : State} (h : EvStep s t) (P : Position) : EvStep { s with pos := P } { t with pos := P } := by
  obtain ⟨⟨_, _, _, _, _, _, _, _, _, _, _, _, _, _, _, _, _, _, _, rfl⟩, hgrow, hpar⟩ := h
  exact ⟨⟨_, _, _, _, _, _, _, _, _, _, _, _, _, _, _, _, _, _, _, rfl⟩, hgrow, hpar⟩

/-- What R179 says of an illegal transition of source `n` at tick `tp` that leads from `s` to `t`. -/
structure IllegalTaken (n tp : Nat) (s t : State) : Prop where
  count : (t.src n).count = (s.src n).count
  p : (t.src n).p = (s.src n).p
  errs : parGet t 4 (0x10C + 16 * n) = counted (parGet s 4 (0x10C + 16 * n)) 1
  others : ∀ m, m ≠ n → t.src m = s.src m
  faults : illegalMany s n tp = true → (t.src n).fault = true ∧
    ((s.src n).fault = false → (t.src n).faultCause = 1 ∧ Raised s t 0x0405 n [1])
  stays : illegalMany s n tp = false → (t.src n).fault = (s.src n).fault ∧ ∃ P Q, t = { s with pos := P, par := Q }
  event : EvStep { s with pos := t.pos, par := (parCount s 4 (0x10C + 16 * n) 1).par } t

theorem illegalTransition_taken {n : Nat} (hn : n < 16) (tp : Nat) (s : State) : IllegalTaken n tp s (illegalTransition n tp s) := by
  rw [illegalTransition_eq hn]
  obtain ⟨hself, hothers, herrs, hraised, hquiet, hev⟩ := erred_errs hn 1
    (fun q => { q with errTicks := ((s.src n).errTicks.filter fun x => tp < x + msTicks) ++ [tp] }) (illegalMany s n tp) s
  refine ⟨?_, ?_, herrs, hothers, fun hmany => ⟨?_, fun hfault => ⟨?_, hraised hmany hfault⟩⟩,
    fun hfew => ⟨?_, _, _, hquiet hfew⟩, hev⟩
  · rw [hself]; split <;> rfl
  · rw [hself]; split <;> rfl
  · rw [hself, if_pos hmany]; rfl
  · rw [hself, if_pos hmany]; simp [faultedBy, hfault]
  · rw [hself, hfew]; rfl

/-- Changes of levels alone, before and after, leave what R179 says. -/
theorem IllegalTaken.lines {n tp : Nat} {s u v t : State} (hs : LinesOnly n s u) (h : IllegalTaken n tp u v) (ht : LinesOnly n v t) :
    IllegalTaken n tp s t := by
  obtain ⟨⟨r, l, ab, zf, hselfS⟩, hothersS, S, rfl⟩ := hs
  obtain ⟨⟨r', l', ab', zf', hselfT⟩, hothersT, S', rfl⟩ := ht
  have hmany : illegalMany { s with pos := { s.pos with srcs := S } } n tp = illegalMany s n tp := by
    unfold illegalMany
    rw [hselfS]
    rfl
  obtain ⟨hcount, hp, herrs, hothers, hfaults, hstays, hev⟩ := h
  rw [hmany] at hfaults hstays
  rw [hselfS] at hcount hp hfaults hstays
  refine ⟨by rw [hselfT]; exact hcount, by rw [hselfT]; exact hp, herrs, fun m hm => ?_, by rw [hselfT]; exact hfaults, fun hfew => ?_,
    evStep_withPos hev _⟩
  · exact (hothersT m hm).trans ((hothers m hm).trans (hothersS m hm))
  · obtain ⟨hfault, P, Q, hv⟩ := hstays hfew
    rw [hselfT]
    exact ⟨hfault, _, Q, by rw [hv]⟩

/-- An illegal transition does what R179 says of it in every state whose filtered levels are those of two lines. -/
theorem encoderCount_illegal {s : State} {n tp : Nat} {a b z : Bool} (hn : n < 2) (hruns : posRuns s = true) (hen : srcEn s n = true)
    (hcap : (s.src n).capDue = none) (hpass : LevelsPass s n a b z tp) (hab : (s.src n).ab < 4)
    (hd : (quad (2 * b2n a + b2n b) + 4 - quad (s.src n).ab) % 4 = 2) :
    ∃ t, exec (.encoderCount n a b z) s = .next t ∧ IllegalTaken n tp s t := by
  have hself : ∀ w, ((illegalTransition n tp w).src n).raw = (w.src n).raw ∧
      filtLevels ((illegalTransition n tp w).src n) = filtLevels (w.src n) := fun w => by
    rw [illegalTransition_eq (by omega), (erred_errs (by omega) ..).self]
    split <;> exact ⟨rfl, rfl⟩
  obtain ⟨w, t, hw, hexec, ht⟩ :=
    encoderCount_moves hn hruns hen hcap hpass hab hd (by decide) fun w _ => ⟨(hself w).2, (hself w).1⟩
  exact ⟨t, hexec, (illegalTransition_taken (by omega) tp w).lines hw ht⟩

/-! A state of more than two lines. -/

/-- STANDBY with encoder 0 running: four counts per revolution, FILT 0, no error counted. Its filtered A and B carry the number `ab`,
which its pins show. -/
def strayLevels (ab : Nat) : State :=
  { State.reset with
    op := .standby, pwr := { resetting := none }, par := [(paAddr 4 0x100, 0x80000001), (paAddr 4 0x102, 4)],
    pos := { srcs := [(0, { ab := ab, zf := false, raw := 2 * ab })] } }

theorem levelsPass_strayLevels (ab : Nat) (a b z : Bool) : LevelsPass (strayLevels ab) 0 a b z (strayLevels ab).now := by
  have hfilt : srcFilt (strayLevels 0) 0 = 0 := by decide +kernel
  exact .inl ⟨hfilt, rfl, rfl⟩

/-- ERR_COUNT of encoder 0 and its count, after a row. -/
def errAndCount (r : Host.Outcome State Fault Refusal) : Option (Word × Nat) :=
  match r with
  | .next t => some (parGet t 4 0x10C, (t.src 0).count)
  | _ => none

/-- The pins of 2 differ from a filtered 6 in no line, and nothing passes. -/
theorem exec_strayLevels_six : errAndCount (exec (.encoderCount 0 true false false) (strayLevels 6)) = some (0, 0) := by decide +kernel

/-- Refutes O37: from filtered levels of number 6 to pins that show A alone, `quad` sees two steps and the filter sees no change, so that
no error is counted. Within the levels of two lines the claim holds (`encoderCount_illegal`). -/
theorem not_illegalTransitions : ¬ Obligations.IllegalTransitions := by
  unfold Obligations.IllegalTransitions
  intro h
  obtain ⟨t, hexec, _, _, herrs, _⟩ := h (strayLevels 6) 0 (strayLevels 6).now true false false (by decide) (by decide +kernel)
    (by decide +kernel) rfl (levelsPass_strayLevels 6 _ _ _) rfl
  have hrow := exec_strayLevels_six
  rw [hexec] at hrow
  have hzero : parGet t 4 0x10C = 0 := congrArg Prod.fst (Option.some.inj hrow)
  rw [hzero] at herrs
  exact absurd herrs (by decide +kernel)

end Sys2Proof.Proofs
end

section
/-!
PROOFS. Counts of an encoder (R172, R178). With the index off and no capture waiting a count moves the position as R178 says, in every
state whose filtered levels are those of two lines; the obligation, which allows any number for them, fails where the number is 4 or
above.
-/
namespace Sys2Proof.Proofs
open Sys2Proof.Machine Sys2Proof.Safety Sys2Proof.Laws

/-! The arithmetic of counts. -/

/-- P of a whole number of counts: its turns, and below them a fraction of a turn. -/
theorem countPos_parts {c : Nat} (hc : 0 < c) (m : Int) :
    ((countPos c m).toNat : Int) = (m / c * 2 ^ 32 + ((m % c).toNat * 2 ^ 32 / c : Nat)) % 2 ^ 64 ∧
      (m % c).toNat * 2 ^ 32 / c < 2 ^ 32 := by
  have hnonneg : 0 ≤ m % c := Int.emod_nonneg m (by omega)
  have hlt : m % c < c := Int.emod_lt_of_pos m (by omega)
  have hfloor : m % c * 2 ^ 32 / c = ((m % c).toNat * 2 ^ 32 / c : Nat) := by
    rw [Int.natCast_ediv, Int.natCast_mul, Int.toNat_of_nonneg hnonneg]
    rfl
  refine ⟨?_, Nat.div_lt_of_lt_mul (Nat.mul_lt_mul_of_pos_right (by omega) (by decide))⟩
  unfold countPos
  rw [BitVec.toNat_ofInt, hfloor]
  omega

/-- ANGLE of a whole number of counts is the exact floor (R178). -/
theorem countPos_angle {c : Nat} (hc : 0 < c) (m : Int) : (countPos c m).toNat % 2 ^ 32 = (m % c).toNat * 2 ^ 32 / c := by
  obtain ⟨hparts, hlt⟩ := countPos_parts hc m
  generalize (m % c).toNat * 2 ^ 32 / c = r at hparts hlt ⊢
  omega

/-- TURNS of a whole number of counts, modulo 2³². -/
theorem countPos_turns {c : Nat} (hc : 0 < c) (m : Int) : ((countPos c m).toNat / 2 ^ 32 : Nat) = (m / c) % 2 ^ 32 := by
  obtain ⟨hparts, hlt⟩ := countPos_parts hc m
  generalize (m % c).toNat * 2 ^ 32 / c = r at hparts hlt
  omega

/-- The count after one step. -/
def nextCount (c k : Nat) (fwd : Bool) : Nat :=
  if fwd then (if k + 1 = c then 0 else k + 1) else if k = 0 then c - 1 else k - 1

/-- The turns that the step adds. -/
def turnCarry (c k : Nat) (fwd : Bool) : Int :=
  if fwd = true ∧ k + 1 = c then 1 else if fwd = false ∧ k = 0 then -1 else 0

theorem nextCount_lt {c k : Nat} (hk : k < c) (fwd : Bool) : nextCount c k fwd < c := by
  unfold nextCount
  split_ifs <;> omega

theorem step_eq {c k : Nat} (hk : k < c) (fwd : Bool) :
    (k : Int) + (if fwd then 1 else -1) = turnCarry c k fwd * c + nextCount c k fwd := by
  cases fwd
  case true =>
    by_cases hwrap : k + 1 = c
    · simp [turnCarry, nextCount, hwrap]; omega
    · simp [turnCarry, nextCount, hwrap]
  case false => by_cases hwrap : k = 0 <;> (simp [turnCarry, nextCount, hwrap]; omega)

/-- A step from `k` of `c` counts in turn `T`, as a turn and a count. -/
theorem step_divMod {c k : Nat} (hk : k < c) (T : Int) (fwd : Bool) :
    (T * c + k + (if fwd then 1 else -1)) / (c : Int) = T + turnCarry c k fwd ∧
      (T * c + k + (if fwd then 1 else -1)) % (c : Int) = nextCount c k fwd := by
  have hlt := nextCount_lt hk fwd
  have hm : T * c + k + (if fwd then 1 else -1) = nextCount c k fwd + c * (T + turnCarry c k fwd) := by
    rw [add_assoc, step_eq hk]
    ring
  rw [hm]
  refine ⟨?_, ?_⟩
  · rw [Int.add_mul_ediv_left _ _ (by omega), Int.ediv_eq_zero_of_lt (by omega) (by omega), zero_add]
  · rw [Int.add_mul_emod_self_left, Int.emod_eq_of_lt (by omega) (by omega)]

/-! What a count leaves alone. -/

/-- No capture waits for a tick before `t`. -/
def Idle (t : Nat) (s : State) : Prop := ∀ m, m < 12 → (s.src m).capDue = none ∨ (s.src m).capDue = some t

/-- Nothing but the position unit, the triggers of sequences and the records of events may differ. -/
def CountFrame (s t : State) : Prop :=
  ∃ P Sq Q, t = { s with pos := P, conv := { s.conv with seqs := Sq }, book := { s.book with inq := Q } }

theorem CountFrame.refl (s : State) : CountFrame s s := ⟨s.pos, s.conv.seqs, s.book.inq, rfl⟩

theorem CountFrame.trans {s u t : State} (h : CountFrame s u) (k : CountFrame u t) : CountFrame s t := by
  obtain ⟨P, Sq, Q, rfl⟩ := h
  obtain ⟨P', Sq', Q', rfl⟩ := k
  exact ⟨P', Sq', Q', rfl⟩

/-- Where no capture waits, triggers of tick `t` cause none, and reach position, sequences and records alone. -/
def Quiet (t : Nat) (s u : State) : Prop := Idle t s → Idle t u ∧ CountFrame s u

theorem captureBefore_idle {t m : Nat} {s : State} (h : Idle t s) (hm : m < 12) : captureBefore m t s = s := by
  unfold captureBefore
  obtain h | h := h m hm <;> rw [h]
  exact if_neg (lt_irrefl t)

theorem idle_updSrc {t : Nat} {s : State} (h : Idle t s) (n : Nat) {f : PosSrc → PosSrc}
    (hf : ∀ q, (f q).capDue = q.capDue ∨ (f q).capDue = some t) : Idle t (s.updSrc n f) := fun m hm => by
  rw [src_updSrc]
  split
  next hn =>
    obtain hkeep | hdue := hf (s.src n)
    · rw [hkeep, ← hn]; exact h m hm
    · exact .inr hdue
  next => exact h m hm

theorem quiet_updSrc {t : Nat} (s : State) (n : Nat) {f : PosSrc → PosSrc}
    (hf : ∀ q, (f q).capDue = q.capDue ∨ (f q).capDue = some t) : Quiet t s (s.updSrc n f) :=
  fun h => ⟨idle_updSrc h n hf, _, _, _, rfl⟩

/-- POS_DIR and COMPARE_FIRED are records in the Sketchbook's input queue and nothing more. -/
theorem record_position (s : State) {code : Nat} (i : Nat) (args : List Word) (h : code = 0x0401 ∨ code = 0x0403) :
    record s code i args = { s with book := { s.book with inq := evInsert s.book.inq (mkEvent s code i args) } } := by
  obtain rfl | rfl := h
  · exact recordEvent_quiet s _ (show eventClass 0x0401 ≠ 2 by decide) rfl (show 0x0401 ≠ 0x0902 by decide)
  · exact recordEvent_quiet s _ (show eventClass 0x0403 ≠ 2 by decide) rfl (show 0x0403 ≠ 0x0902 by decide)

theorem quiet_triggerRel (t : Nat) : TriggerRel t (Quiet t) where
  refl s h := ⟨h, .refl s⟩
  trans h k hs := ⟨(k (h hs).1).1, (h hs).2.trans (k (h hs).1).2⟩
  cmp s _ _ h := ⟨h, _, _, _, rfl⟩
  seq s _ h := ⟨h, _, _, _, rfl⟩
  event s code i args hcode h := by
    rw [record_position s i args hcode]
    exact ⟨h, _, _, _, rfl⟩
  due s m := quiet_updSrc s m fun _ => .inr rfl
  start s m := quiet_updSrc s m fun _ => .inl rfl
  turn s m f hf := quiet_updSrc s m fun q => .inl (by rw [hf])
  capture s m hm h := by
    rw [captureBefore_idle h hm]
    exact ⟨h, .refl s⟩

/-! One count. -/

theorem emuCount_frame (n : Nat) (st : Int) (s : State) : ∃ E, emuCount n st s = { s with pos := { s.pos with emus := E } } := by
  refine forUpTo_rel (R := fun s t => ∃ E, t = { s with pos := { s.pos with emus := E } }) (fun s => ⟨s.pos.emus, rfl⟩) ?_
    (fun k _ u => ?_) s
  · rintro s u t ⟨E, rfl⟩ ⟨E', rfl⟩
    exact ⟨E', rfl⟩
  · dsimp only
    split_ifs
    · exact ⟨u.pos.emus, rfl⟩
    all_goals exact ⟨_, rfl⟩

theorem src_emuCount (n : Nat) (st : Int) (s : State) (m : Nat) : (emuCount n st s).src m = s.src m := by
  obtain ⟨E, hemu⟩ := emuCount_frame n st s
  rw [hemu]
  rfl

theorem quiet_emuCount (t n : Nat) (st : Int) (s : State) : Quiet t s (emuCount n st s) := fun h => by
  obtain ⟨E, hemu⟩ := emuCount_frame n st s
  rw [hemu]
  exact ⟨h, _, _, _, rfl⟩

theorem quiet_movePos (n t : Nat) (p' : BitVec 64) (delta step : Int) (hyst : Nat) (s : State) :
    Quiet t s (movePos n t p' delta step hyst s) := by
  refine (quiet_triggerRel t).trans ?_ (movePos_rel (quiet_triggerRel t) n p' delta step hyst s)
  exact quiet_updSrc s n fun _ => .inl rfl

theorem bareSrc_movePos (n t : Nat) (p' : BitVec 64) (delta step : Int) (hyst : Nat) (s : State) :
    bareSrc ((movePos n t p' delta step hyst s).src n) = bareSrc { s.src n with p := p', lastChange := some t } := by
  rw [(movePos_rel (srcsKept_triggerRel t) n p' delta step hyst s).src n, src_updSrc, if_pos rfl]
  rfl

/-- Source `q` of `c` counts per revolution after a count at tick `t`, but for speed, standstill and direction. -/
def countedBy (c t : Nat) (fwd : Bool) (q : PosSrc) : PosSrc :=
  { q with
    p := countPos c (q.p.toInt / 2 ^ 32 * c + q.count + if fwd then 1 else -1),
    count := ((q.p.toInt / 2 ^ 32 * c + q.count + if fwd then 1 else -1) % (c : Int)).toNat,
    lastChange := some t, tick := t, fwd := fwd }

theorem encoderStep_counts {n t : Nat} (fwd z : Bool) {s : State} (hidle : Idle t s) (hindex : wbit (srcWord s n 3) 31 = false) :
    CountFrame s (encoderStep n t fwd z s) ∧
      bareSrc ((encoderStep n t fwd z s).src n) = bareSrc (countedBy (srcCpr s n) t fwd (s.src n)) := by
  have hR := quiet_triggerRel t
  unfold encoderStep
  extract_lets st m p' delta s1 s2 s3 s4 w
  have h1 : Quiet t s s1 := quiet_updSrc s n fun _ => .inl rfl
  have h2 : Quiet t s1 s2 := quiet_updSrc s1 n fun _ => .inl rfl
  have h3 : Quiet t s2 s3 := quiet_movePos n t p' delta st _ s2
  have hall : Quiet t s s4 := hR.trans h1 (hR.trans h2 (hR.trans h3 (quiet_emuCount t n st s3)))
  have hframe : CountFrame s s4 := (hall hidle).2
  have hword : w = srcWord s n 3 := by
    obtain ⟨P, Sq, Q, h⟩ := hframe
    unfold w
    rw [h]
    rfl
  have hsrc : bareSrc (s3.src n) = bareSrc { s2.src n with p := p', lastChange := some t } := bareSrc_movePos n t p' delta st _ s2
  have hs2 : s2.src n = { s.src n with
      changes := (s2.src n).changes, fwd := fwd, tick := t, count := (m % (srcCpr s n : Int)).toNat } := by
    simp [s2, s1, noteChange, srcCpr, srcWord, parGet]
  rw [if_neg (by simp [hword, hindex])]
  refine ⟨hframe, ?_⟩
  rw [src_emuCount, hsrc, hs2]
  rfl

/-- The fields of a source that neither captures, triggers and direction nor its levels are. -/
def bareCount (q : PosSrc) : PosSrc := bareSrc { q with raw := 0, rawAt := [], ab := 0, zf := false }

theorem bareCount_of_bareSrc {q q' : PosSrc} (h : bareSrc q = bareSrc q') : bareCount q = bareCount q' :=
  congrArg (fun x : PosSrc => { x with raw := 0, rawAt := [], ab := 0, zf := false }) h

/-- What R178 says of a count of source `n` at tick `tp`, forward or reverse, that leads from `s` to `t`. -/
structure Counted (n tp : Nat) (fwd : Bool) (s t : State) : Prop where
  count : (t.src n).count = nextCount (srcCpr s n) (s.src n).count fwd
  angle : (t.src n).p.toNat % 2 ^ 32 = (t.src n).count * 2 ^ 32 / srcCpr s n
  turns : (((t.src n).p.toNat / 2 ^ 32 : Nat) : Int) =
    (((s.src n).p.toNat / 2 ^ 32 : Nat) + turnCarry (srcCpr s n) (s.src n).count fwd) % 2 ^ 32
  lastChange : (t.src n).lastChange = some tp
  tick : (t.src n).tick = tp
  homed : (t.src n).homed = (s.src n).homed
  frame : CountFrame s t

/-- The source that a count leaves is the one that R178 describes. -/
theorem counted_of_bare {n tp : Nat} {fwd : Bool} {s t : State} (hcount : (s.src n).count < srcCpr s n)
    (hsrc : bareCount (t.src n) = bareCount (countedBy (srcCpr s n) tp fwd (s.src n))) (hframe : CountFrame s t) :
    Counted n tp fwd s t := by
  obtain ⟨hdiv, hmod⟩ := step_divMod hcount ((s.src n).p.toInt / 2 ^ 32) fwd
  have hc : 0 < srcCpr s n := by omega
  have hnext : (t.src n).count = nextCount (srcCpr s n) (s.src n).count fwd := by
    refine (congrArg PosSrc.count hsrc :).trans ?_
    exact (congrArg Int.toNat hmod).trans (Int.toNat_natCast _)
  have hp : (t.src n).p = countPos (srcCpr s n) ((s.src n).p.toInt / 2 ^ 32 * srcCpr s n + (s.src n).count + if fwd then 1 else -1) :=
    (congrArg PosSrc.p hsrc :)
  refine ⟨hnext, ?_, ?_, (congrArg PosSrc.lastChange hsrc :), (congrArg PosSrc.tick hsrc :), (congrArg PosSrc.homed hsrc :), hframe⟩
  · rw [hp, countPos_angle hc, hmod, hnext, Int.toNat_natCast]
  · rw [hp, countPos_turns hc, hdiv]
    have hturns : (s.src n).p.toInt / 2 ^ 32 % 2 ^ 32 = ((s.src n).p.toNat / 2 ^ 32 : Nat) := by
      rw [BitVec.toInt_eq_toNat_cond]
      split <;> omega
    rw [Int.add_emod, hturns, Int.add_emod_emod]

theorem idle_of_lines {n t : Nat} {s w : State} (hcap : NoCapture s) (h : LinesOnly n s w) : Idle t w := fun m hm => by
  obtain ⟨⟨r, l, ab, zf, hself⟩, hothers, _⟩ := h
  by_cases hmn : m = n
  · subst hmn
    rw [hself]
    exact .inl (hcap m hm)
  · rw [hothers m hmn]
    exact .inl (hcap m hm)

/-- A count does what R178 says of it in every state whose filtered levels are those of two lines. -/
theorem encoderCount_counts {s : State} {n tp : Nat} {a b z fwd : Bool} (hn : n < 2) (hruns : posRuns s = true) (hen : srcEn s n = true)
    (hcap : NoCapture s) (hpass : LevelsPass s n a b z tp) (hcount : (s.src n).count < srcCpr s n)
    (hindex : wbit (srcWord s n 3) 31 = false) (hab : (s.src n).ab < 4)
    (hd : (quad (2 * b2n a + b2n b) + 4 - quad (s.src n).ab) % 4 = if fwd != wbit (srcWord s n 0) 28 then 1 else 3) :
    ∃ t, exec (.encoderCount n a b z) s = .next t ∧ Counted n tp fwd s t := by
  have hmove : ∀ w, LinesOnly n s w →
      levelsMove n tp (if fwd != wbit (srcWord s n 0) 28 then 1 else 3) z w = encoderStep n tp fwd z w := by
    rintro w ⟨_, _, S, rfl⟩
    have hinv : srcWord { s with pos := { s.pos with srcs := S } } n 0 = srcWord s n 0 := rfl
    unfold levelsMove
    rw [hinv]
    cases fwd <;> cases wbit (srcWord s n 0) 28 <;> rfl
  have hstep : ∀ w, LinesOnly n s w → CountFrame w (encoderStep n tp fwd z w) ∧
      bareSrc ((encoderStep n tp fwd z w).src n) = bareSrc (countedBy (srcCpr s n) tp fwd (w.src n)) := fun w hw => by
    have hidle : Idle tp w := idle_of_lines hcap hw
    obtain ⟨_, _, S, rfl⟩ := hw
    exact encoderStep_counts fwd z hidle hindex
  have hstay : ∀ w, LinesOnly n s w → filtLevels ((encoderStep n tp fwd z w).src n) = filtLevels (w.src n) ∧
      ((encoderStep n tp fwd z w).src n).raw = (w.src n).raw :=
    fun w hw => ⟨(congrArg filtLevels (hstep w hw).2 :), (congrArg PosSrc.raw (hstep w hw).2 :)⟩
  obtain ⟨w, t, hw, hexec, ht⟩ := encoderCount_moves hn hruns hen (hcap n (by omega)) hpass hab hd (by split <;> decide)
    fun w hw => by rw [hmove w hw]; exact hstay w hw
  rw [hmove w hw] at ht
  obtain ⟨hframe, hsrc⟩ := hstep w hw
  have hbare := bareCount_of_bareSrc hsrc
  obtain ⟨⟨r, l, ab, zf, hselfW⟩, _, S, hw⟩ := hw
  obtain ⟨⟨r', l', ab', zf', hselfT⟩, _, S', ht⟩ := ht
  refine ⟨t, hexec, counted_of_bare hcount ?_ ?_⟩
  · rw [hselfT]
    refine hbare.trans ?_
    rw [hselfW]
    rfl
  · rw [ht]
    refine CountFrame.trans ⟨_, _, _, hw⟩ (hframe.trans ⟨_, _, _, rfl⟩)

/-! A state of more than two lines. -/

/-- The pins of 0 differ from a filtered 4 in no line, and nothing passes. -/
theorem exec_strayLevels_four : errAndCount (exec (.encoderCount 0 false false false) (strayLevels 4)) = some (0, 0) := by decide +kernel

/-- Refutes O36: from filtered levels of number 4 to pins that show neither line, `quad` sees one step forward and the filter sees no
change, so that the count stays at 0. Within the levels of two lines the claim holds (`encoderCount_counts`). -/
theorem not_encoderCounts : ¬ Obligations.EncoderCounts := by
  unfold Obligations.EncoderCounts
  intro h
  obtain ⟨t, hexec, hcount, _⟩ := h (strayLevels 4) 0 (strayLevels 4).now false false false true (by decide) (by decide +kernel)
    (by decide +kernel) (by decide +kernel) (by unfold NoCapture; decide +kernel) (levelsPass_strayLevels 4 _ _ _) (by decide +kernel)
    (by decide +kernel) (by decide +kernel)
  have hrow := exec_strayLevels_four
  rw [hexec] at hrow
  have hzero : (t.src 0).count = 0 := congrArg Prod.snd (Option.some.inj hrow)
  rw [hzero] at hcount
  exact absurd hcount (by decide +kernel)

end Sys2Proof.Proofs
end

section
/-!
PROOFS. The trip action of a pair (R231, R232). A source that becomes active sets its latch, the pair takes the action of all set latches
that name it, and the reaction to TRIP keeps it there, in every state whose pair is in a layer of R225; the obligation, which allows any
number for the layer, fails where it is 0.
-/
namespace Sys2Proof.Proofs
open Sys2Proof.Machine Sys2Proof.Safety Sys2Proof.Laws

/-! What an event and its reaction leave of Hatch. -/

/-- An event leaves Hatch and the operating state. -/
structure HatchStands (s t : State) : Prop where
  ev : EvStep s t
  hatch : t.hatch = s.hatch
  op : t.op = s.op

theorem HatchStands.refl (s : State) : HatchStands s s := ⟨.refl s, rfl, rfl⟩

theorem HatchStands.trans {s t u : State} (h : HatchStands s t) (k : HatchStands t u) : HatchStands s u :=
  ⟨h.ev.trans k.ev, k.hatch.trans h.hatch, k.op.trans h.op⟩

/-- What each element of a list does, the whole list does. -/
theorem forEach_rel {R : State → State → Prop} (hrefl : ∀ s, R s s) (htrans : ∀ {s u t}, R s u → R u t → R s t)
    {α : Type} {f : α → State → State} (hf : ∀ a u, R u (f a u)) (l : List α) (s : State) : R s (forEach l f s) := by
  induction l generalizing s with
  | nil => exact hrefl s
  | cons a r ih => exact htrans (hf a s) (ih _)

theorem hatchStands_updDrive (s : State) (d : Nat) (f : Drive → Drive) : HatchStands s (s.updDrive d f) :=
  ⟨ev_updDrive (.refl s), rfl, rfl⟩

theorem hatchStands_capTrigger (e : Event) (b : Nat) (s : State) : HatchStands s (capTrigger e b s) :=
  rel_ite ⟨ev_updCap (.refl s), rfl, rfl⟩ (.refl s)

theorem hatchStands_recordEvent (s : State) (e : Event) : HatchStands s (recordEvent s e) := by
  unfold recordEvent
  extract_lets _ queued marked named
  have hqueued : HatchStands s queued := ⟨ev_insert (.refl s), rfl, rfl⟩
  have hmarked : HatchStands queued marked := rel_ite ⟨ev_setAttn (.refl queued), rfl, rfl⟩ (.refl queued)
  have hnamed : HatchStands marked named := by
    unfold named
    cases eventDrive e with
    | none => exact .refl marked
    | some d => exact hatchStands_updDrive marked d _
  exact hqueued.trans (hmarked.trans (hnamed.trans
    (forUpTo_rel HatchStands.refl HatchStands.trans (fun b _ u => hatchStands_capTrigger e b u) named)))

theorem hatchStands_record (s : State) (code i : Nat) (args : List Word) : HatchStands s (record s code i args) :=
  hatchStands_recordEvent s _

theorem hatchStands_setLatch (s : State) (code i : Nat) (resetOnly : Bool) : HatchStands s (setLatch s code i resetOnly) :=
  rel_ite (.refl s) ⟨.of (.refl s) (fun _ h _ => h) fun _ _ _ _ => rfl, rfl, rfl⟩

theorem hatchStands_demandRead (a : Nat) (s : State) : HatchStands s (demandRead s a) := by
  have hev : EvStep s (demandRead s a) := ev_demandRead (.refl s)
  obtain ⟨_, _, _, _, _, hread⟩ := read_demandRead s a
  exact ⟨hev, by rw [hread], by rw [hread]⟩

theorem hatchStands_readCells (l : List Nat) (s : State) : HatchStands s (readCells l s) :=
  rel_ite (.refl s) (forEach_rel HatchStands.refl HatchStands.trans hatchStands_demandRead l s)

theorem hatchStands_stopoutConsumes (d : Nat) (s : State) : HatchStands s (stopoutConsumes d s) := by
  unfold stopoutConsumes
  split
  · exact .refl s
  next i _ =>
    extract_lets a m exempt bitten
    have hbitten : HatchStands s bitten := ⟨ev_countBite (ev_updDrive (.refl s)), rfl, rfl⟩
    have hnoted : HatchStands bitten (noteBite bitten 9 a) := ⟨ev_noteBite (.refl bitten), rfl, rfl⟩
    exact hbitten.trans (rel_ite (.refl bitten)
      (hnoted.trans ((hatchStands_record _ _ 9 _).trans (hatchStands_setLatch _ _ 9 false))))

theorem hatchStands_noteSpeeds (s : State) : HatchStands s (noteSpeeds s) := by
  have hev : EvStep s (noteSpeeds s) := ev_noteSpeeds (.refl s)
  obtain ⟨_, _, hnoted⟩ := noteSpeeds_noted s
  exact ⟨hev, by rw [hnoted], by rw [hnoted]⟩

theorem hatchStands_stopRegTimer (s : State) (d : Nat) : HatchStands s (stopRegTimer s d) :=
  ⟨ev_stopRegTimer (.refl s), rfl, rfl⟩

theorem hatchStands_orderRing (r : Nat) (s : State) : HatchStands s (orderRing r s) := ⟨ev_orderRing (.refl s), rfl, rfl⟩

theorem hatchStands_safeEntry (s : State) (d ss code : Nat) : HatchStands s (safeEntry s d ss code) := by
  have hev : EvStep s (safeEntry s d ss code) := ev_safeEntry (.refl s)
  refine ⟨hev, ?_, ?_⟩ <;> unfold safeEntry <;> split
  · rfl
  · exact (hatchStands_record s ..).hatch
  · rfl
  · exact (hatchStands_record s ..).op

/-! The trip action of a pair. -/

/-- A pair on which latches act, in a layer of R225, in a state in which trips have an effect; `a` is its trip action. -/
structure TripActs (p a : Nat) (s : State) : Prop where
  works : tripsWork s = true
  acts : actsOnPair s p ≠ []
  action : pairTripAction s p = a
  layer : (s.pair p).layer ≠ 0

/-- The pair has taken the action. -/
structure TripTaken (p a : Nat) (s : State) : Prop extends TripActs p a s where
  h : (s.pair p).h = decide (a = 3)
  l : (s.pair p).l = decide (a = 2)

theorem actsOnPair_congr {s t : State} (hlatch : ∀ n, n < 32 → latchSet t n = latchSet s n)
    (hroute : ∀ n, n < 32 → tripRoute t n = tripRoute s n) (p : Nat) : actsOnPair t p = actsOnPair s p := by
  unfold actsOnPair below
  refine List.filter_congr fun n hn => ?_
  have hn : n < 32 := List.mem_range.1 hn
  simp only [latchActs, hlatch n hn, hroute n hn]

theorem pairTripAction_congr {s t : State} (hlatch : ∀ n, n < 32 → latchSet t n = latchSet s n)
    (hroute : ∀ n, n < 32 → tripRoute t n = tripRoute s n) (p : Nat) : pairTripAction t p = pairTripAction s p := by
  have hacts : (actsOnPair s p).map (fun n => field (tripRoute t n) 31 30) =
      (actsOnPair s p).map (fun n => field (tripRoute s n) 31 30) :=
    List.map_congr_left fun n hn => by rw [hroute n (List.mem_range.1 (List.mem_filter.1 hn).1)]
  unfold pairTripAction
  rw [actsOnPair_congr hlatch hroute, hacts]

/-- An event keeps the action of a pair whose layer it keeps, unless it leads to SHUTDOWN. -/
theorem TripActs.event {p a : Nat} {s t : State} (h : TripActs p a s) (hev : EvStep s t) (hop : t.op = s.op ∨ t.op = .safe)
    (hlayer : (t.pair p).layer ≠ 0) : TripActs p a t := by
  have hlatch : ∀ n, n < 32 → latchSet t n = latchSet s n := fun n _ => latch_step hev n
  have hroute : ∀ n, n < 32 → tripRoute t n = tripRoute s n := fun n hn =>
    parGet_of_evStep hev (by omega) (by decide) (by decide)
  have hasleep : isAsleep t = isAsleep s := by
    unfold isAsleep
    rw [hev.pwr, hev.tim]
  obtain ⟨hworks, hacts, haction, _⟩ := h
  refine ⟨?_, ?_, ?_, hlayer⟩
  · unfold tripsWork at hworks ⊢
    rw [hasleep]
    rcases hop with hop | hop
    · rw [hop]; exact hworks
    · rw [hop, (Bool.and_eq_true .. ▸ hworks :).1]; rfl
  · rw [actsOnPair_congr hlatch hroute]; exact hacts
  · rw [pairTripAction_congr hlatch hroute]; exact haction

theorem TripTaken.event {p a : Nat} {s t : State} (h : TripTaken p a s) (hev : EvStep s t) (hop : t.op = s.op ∨ t.op = .safe)
    (hpair : t.pair p = s.pair p) : TripTaken p a t :=
  ⟨h.toTripActs.event hev hop (hpair ▸ h.layer), by rw [hpair]; exact h.h, by rw [hpair]; exact h.l⟩

theorem TripTaken.stands {p a : Nat} {s t : State} (h : TripTaken p a s) (k : HatchStands s t) : TripTaken p a t :=
  h.event k.ev (.inl k.op) (by unfold State.pair; rw [k.hatch])

theorem TripActs.targetLayer {p a : Nat} {s : State} (h : TripActs p a s) : targetLayer s p = 1 := by
  unfold Machine.targetLayer
  simp [h.works, h.acts]

/-- Settling, a pair takes its trip action, whichever of the layers of R225 it was in. -/
theorem TripActs.settlePair {p a : Nat} {s : State} (h : TripActs p a s) : TripTaken p a (settlePair s p) := by
  have hlayered : TripActs p a (s.updPair p fun q => { q with layer := 1 }) :=
    h.event (ev_updPair (.refl s)) (.inl rfl) (by simp)
  have hsettled : Machine.settlePair s p = tripPair (s.updPair p fun q => { q with layer := 1 }) p a := by
    have hone : 1 ≤ (s.pair p).layer := Nat.one_le_iff_ne_zero.2 h.layer
    unfold Machine.settlePair
    simp only [h.targetLayer, hone, decide_true, Bool.true_or, if_true, takeLayer, hlayered.action]
  have hev : EvStep s (Machine.settlePair s p) := ev_settlePair (.refl s)
  rw [hsettled] at hev ⊢
  exact ⟨h.event hev (.inl rfl) (by simp [tripPair]), by simp [tripPair], by simp [tripPair]⟩

theorem op_settlePair (s : State) (p : Nat) : (settlePair s p).op = s.op := by
  obtain ⟨⟨_, _, h⟩, _⟩ := only_settlePair s p
  rw [h]

/-- The action of a pair outlasts the settling of any other. -/
theorem TripActs.settleOther {p q a : Nat} {s : State} (h : TripActs p a s) (hq : p ≠ q) : TripActs p a (Machine.settlePair s q) :=
  h.event (ev_settlePair (.refl s)) (.inl (op_settlePair s q)) ((only_settlePair s q).2 p hq ▸ h.layer)

theorem TripTaken.settlePair {p a : Nat} {s : State} (h : TripTaken p a s) (q : Nat) : TripTaken p a (Machine.settlePair s q) := by
  by_cases hq : p = q
  · subst hq; exact h.toTripActs.settlePair
  · exact h.event (ev_settlePair (.refl s)) (.inl (op_settlePair s q)) ((only_settlePair s q).2 p hq)

/-- Where the first `n` pairs settle, pair `p` among them takes its action. -/
theorem TripActs.settle_upTo {p a n : Nat} {s : State} (h : TripActs p a s) :
    (p < n → TripTaken p a (forUpTo n (fun p s => Machine.settlePair s p) s)) ∧
      (n ≤ p → TripActs p a (forUpTo n (fun p s => Machine.settlePair s p) s)) := by
  induction n with
  | zero => exact ⟨fun hp => absurd hp (Nat.not_lt_zero p), fun _ => h⟩
  | succ n ih =>
    obtain ⟨htaken, hacts⟩ := ih
    refine ⟨fun hp => ?_, fun hp => (hacts (by omega)).settleOther (by omega)⟩
    rcases Nat.lt_succ_iff_lt_or_eq.1 hp with hp | rfl
    · exact (htaken hp).settlePair n
    · exact (hacts le_rfl).settlePair

theorem TripActs.settlePairs {p a : Nat} {s : State} (h : TripActs p a s) (hp : p < 12) : TripTaken p a (settlePairs s) :=
  h.settle_upTo.1 hp

/-! The pair keeps the action through the reaction to TRIP. -/

/-- From `s` to `t` a pair that has taken a trip action keeps it. -/
def KeepsTrip (p a : Nat) (s t : State) : Prop := TripTaken p a s → TripTaken p a t

theorem KeepsTrip.refl {p a : Nat} (s : State) : KeepsTrip p a s s := id

theorem KeepsTrip.trans {p a : Nat} {s t u : State} (h : KeepsTrip p a s t) (k : KeepsTrip p a t u) : KeepsTrip p a s u := k ∘ h

theorem HatchStands.keepsTrip {p a : Nat} {s t : State} (h : HatchStands s t) : KeepsTrip p a s t := fun k => k.stands h

theorem keepsTrip_orderRings {p a : Nat} (l : List Nat) (s : State) : KeepsTrip p a s (forEach l orderRing s) :=
  (forEach_rel HatchStands.refl HatchStands.trans hatchStands_orderRing l s).keepsTrip

theorem keepsTrip_placeDrive {p a : Nat} (d ss code : Nat) (byEvent : Bool) (s : State) :
    KeepsTrip p a s (placeDrive d ss code byEvent s) := by
  unfold placeDrive
  extract_lets v n placed entered stopped settled
  have hstopped : HatchStands s stopped := ((hatchStands_updDrive s d _).trans (hatchStands_noteSpeeds _)).trans
    ((hatchStands_safeEntry placed d n code).trans (hatchStands_stopRegTimer entered d))
  have hsettled : KeepsTrip p a stopped settled :=
    forEach_rel KeepsTrip.refl KeepsTrip.trans (fun q u h => h.settlePair q) _ stopped
  refine rel_ite (.refl s) (rel_ite (rel_ite ?_ (.refl s)) ?_)
  · exact ((hatchStands_updDrive s d _).trans (hatchStands_safeEntry _ d ss code)).keepsTrip
  · exact hstopped.keepsTrip.trans (hsettled.trans (keepsTrip_orderRings _ settled))

theorem keepsTrip_setOp_safe {p a : Nat} (s : State) : KeepsTrip p a s (setOp s .safe) := fun h => by
  have hev : EvStep s (setOp s .safe) := ev_setOp (.refl s)
  have hop : (setOp s .safe).op = .safe := by
    unfold setOp
    split
    next hs => exact hs
    next => rfl
  have hhatch : (setOp s .safe).hatch = s.hatch := by
    unfold setOp
    split
    · rfl
    · exact (hatchStands_record s 1 0 _).hatch
  exact h.event hev (.inr hop) (by unfold State.pair; rw [hhatch])

theorem keepsTrip_settlePairs {p a : Nat} (s : State) : KeepsTrip p a s (settlePairs s) :=
  forUpTo_rel KeepsTrip.refl KeepsTrip.trans (fun q _ _ h => h.settlePair q) s

theorem keepsTrip_enterSafe {p a : Nat} (ds : List Nat) (ss code : Nat) (s : State) : KeepsTrip p a s (enterSafe ds ss code s) := by
  unfold enterSafe
  extract_lets placed
  have hplaced : KeepsTrip p a s placed := forUpTo_rel KeepsTrip.refl KeepsTrip.trans (fun d _ u => by
    dsimp only
    have hread : HatchStands u (if hasArch (u.drive d) then readCells ((settingIdx d).map par9Addr) u else u) :=
      rel_ite (hatchStands_readCells _ u) (.refl u)
    refine hread.keepsTrip.trans (rel_ite ?_ (keepsTrip_placeDrive d _ code true _))
    exact (hatchStands_stopoutConsumes d _).keepsTrip.trans (keepsTrip_placeDrive d 1 code true _)) s
  exact hplaced.trans ((keepsTrip_setOp_safe placed).trans (keepsTrip_settlePairs _))

/-- TRIP is of class P or S, with a latch and without the mark H. -/
theorem reactionOf_trip (s : State) (n : Nat) :
    reactionOf s 0x0901 n = { react := .p, latch := some false, h := false } ∨
      ∃ ds, reactionOf s 0x0901 n = { react := .s ds, latch := some false, h := false } := by
  have hrow : reactionOf s 0x0901 n = (match tripDrives s n with
     | [] => reactPC false
     | ds => { react := .s ds, latch := some false, h := false }) := rfl
  rw [hrow]
  split
  · exact .inl rfl
  · exact .inr ⟨_, rfl⟩

theorem applyReaction_p (code n : Nat) (s : State) : applyReaction { react := .p, latch := some false, h := false } code n s =
    if !reactionsApply s then s else enterSafe [] 1 code (setLatch s code n false) := by
  unfold applyReaction
  simp only [Bool.false_and, Bool.false_eq_true, if_false]

theorem applyReaction_s (ds : List Nat) (code n : Nat) (s : State) :
    applyReaction { react := .s ds, latch := some false, h := false } code n s =
      if !reactionsApply s then s else enterSafe ds 2 code (setLatch s code n false) := by
  unfold applyReaction
  simp only [Bool.false_and, Bool.false_eq_true, if_false]

theorem keepsTrip_raise_trip {p a : Nat} (s : State) (n : Nat) (args : List Word) : KeepsTrip p a s (raise s 0x0901 n args) := by
  have hreact (ds : List Nat) (ss : Nat) (u : State) :
      KeepsTrip p a u (if !reactionsApply u then u else enterSafe ds ss 0x0901 (setLatch u 0x0901 n false)) :=
    rel_ite (.refl u) ((hatchStands_setLatch u 0x0901 n false).keepsTrip.trans (keepsTrip_enterSafe ds ss 0x0901 _))
  refine (hatchStands_record s 0x0901 n args).keepsTrip.trans ?_
  unfold raise raiseWith
  rcases reactionOf_trip s n with h | ⟨ds, h⟩
  · rw [h, applyReaction_p]; exact hreact [] 1 _
  · rw [h, applyReaction_s]; exact hreact ds 2 _

/-! A source sets its latch. -/

/-- The latch of source `n` is set. -/
def latched (n : Nat) (s : State) : State := { s with hatch := { s.hatch with latch := s.hatch.latch ||| 2 ^ n } }

theorem latchSet_latched (s : State) (n m : Nat) : latchSet (latched n s) m = (latchSet s m || decide (m = n)) := by
  unfold latchSet latched
  rw [Nat.testBit_or, Nat.testBit_two_pow, decide_eq_decide.2 eq_comm]

theorem setTripLatch_takes {s : State} {n p a : Nat} (hp : p < 12) (h : TripActs p a (latched n s)) :
    latchSet (setTripLatch s n) n = true ∧ TripTaken p a (setTripLatch s n) := by
  have hev : EvStep (latched n s) (setTripLatch s n) :=
    ev_raise (EvStep.forEach (ev_settlePairs (.refl _)) fun _ _ h => ev_orderRing h)
  refine ⟨?_, ?_⟩
  · rw [latch_step hev, latchSet_latched]; simp
  · exact keepsTrip_raise_trip _ n _ (keepsTrip_orderRings _ _ (h.settlePairs hp))

/-- From `s` to `u` the comparators and the trip inputs changed, and no latch, route or pair. -/
structure InputTaken (s u : State) : Prop where
  frame : ∃ P I C F, u = { s with par := P, hatch := { s.hatch with tripIn := I }, conv := C, free := F }
  route : ∀ n, n < 32 → tripRoute u n = tripRoute s n

theorem InputTaken.works {s u : State} (h : InputTaken s u) : tripsWork u = tripsWork s := by
  obtain ⟨⟨_, _, _, _, rfl⟩, _⟩ := h
  rfl

theorem InputTaken.latch {s u : State} (h : InputTaken s u) (n : Nat) : latchSet u n = latchSet s n := by
  obtain ⟨⟨_, _, _, _, rfl⟩, _⟩ := h
  rfl

theorem InputTaken.pair {s u : State} (h : InputTaken s u) (p : Nat) : u.pair p = s.pair p := by
  obtain ⟨⟨_, _, _, _, rfl⟩, _⟩ := h
  rfl

theorem InputTaken.trans {s t u : State} (h : InputTaken s t) (k : InputTaken t u) : InputTaken s u := by
  obtain ⟨⟨_, _, _, _, rfl⟩, hroute⟩ := h
  obtain ⟨⟨P, I, C, F, rfl⟩, kroute⟩ := k
  exact ⟨⟨P, I, C, F, rfl⟩, fun n hn => (kroute n hn).trans (hroute n hn)⟩

theorem inputTaken_wcOutput (s : State) (n : Nat) (active : Bool) : InputTaken s (wcOutput s n active) := by
  have hroute (t : State) (v : Word) (m : Nat) (hm : m < 32) : tripRoute (parSet t 3 0x17 v) m = tripRoute t m :=
    (parGet_parSet t (by omega) (by omega) v).trans (if_neg (by omega))
  exact rel_ite ⟨⟨s.par, s.hatch.tripIn, s.conv, s.free, rfl⟩, fun _ _ => rfl⟩
    (rel_ite ⟨⟨_, s.hatch.tripIn, _, s.free, rfl⟩, hroute _ _⟩ ⟨⟨s.par, s.hatch.tripIn, _, s.free, rfl⟩, fun _ _ => rfl⟩)

/-- The state in which source `n` has become active and no latch has followed yet. -/
def inputActive (n : Nat) (s : State) : State :=
  let w := wcOutput s n true
  { w with hatch := { w.hatch with tripIn := putBit w.hatch.tripIn n true } }

theorem inputTaken_inputActive (s : State) (n : Nat) : InputTaken s (inputActive n s) :=
  (inputTaken_wcOutput s n true).trans ⟨⟨_, _, _, _, rfl⟩, fun _ _ => rfl⟩

/-- A source with an ACTION whose latch is clear sets it when it becomes active (R231). -/
theorem tripInput_latches {s : State} {n : Nat} (hn : n < 32) (hworks : tripsWork s = true)
    (haction : field (tripRoute s n) 31 30 ≠ 0) (hclear : latchSet s n = false) :
    tripInput s n true = setTripLatch (inputActive n s) n := by
  have htaken := inputTaken_inputActive s n
  have heq : tripInput s n true =
      if true && tripsWork (inputActive n s) && decide (field (tripRoute (inputActive n s) n) 31 30 ≠ 0) &&
          !latchSet (inputActive n s) n then
        setTripLatch (inputActive n s) n
      else inputActive n s := rfl
  rw [heq, htaken.works, htaken.route n hn, htaken.latch, hworks, hclear]
  simp [haction]

/-- TRIP of a source that becomes active sets its latch (R163, R231). -/
theorem exec_trip_latches {s : State} {n : Nat} (hn : n < 32) (hworks : tripsWork s = true)
    (haction : field (tripRoute s n) 31 30 ≠ 0) (hclear : latchSet s n = false) (hactive : Activates s n) :
    ∃ u, InputTaken s u ∧ exec (.trip n true) s = .next (setTripLatch u n) := by
  by_cases h24 : 24 ≤ n
  · have hexec : execTrip n true s = .next (tripInput s n true) := by
      unfold execTrip
      rw [if_neg (by omega), if_pos h24]
    exact ⟨_, inputTaken_inputActive s n, hexec.trans (congrArg _ (tripInput_latches hn hworks haction hclear))⟩
  · obtain ⟨hruns, hside, hquiet⟩ := hactive.resolve_left h24
    obtain ⟨C, F, hsides⟩ : ∃ C F, wcEval n s = tripInput { s with conv := C, free := F } n true := by
      unfold wcEval
      simp only [hside, hquiet, Bool.true_eq_false, if_false]
      exact ⟨_, _, rfl⟩
    have hexec : execTrip n true s = .next (wcEval n s) := by
      unfold execTrip
      rw [if_neg (by omega), if_neg h24, if_pos hruns]
    have hinput : InputTaken s { s with conv := C, free := F } := ⟨⟨s.par, s.hatch.tripIn, C, F, rfl⟩, fun _ _ => rfl⟩
    refine ⟨_, hinput.trans (inputTaken_inputActive _ n), hexec.trans (congrArg _ (hsides.trans ?_))⟩
    exact tripInput_latches hn hworks haction hclear

/-! The combined action (R232). -/

/-- The actions of the latches that act on pair `p`. -/
def tripActions (s : State) (p : Nat) : List Nat := (actsOnPair s p).map fun n => field (tripRoute s n) 31 30

theorem pairTripAction_eq (s : State) (p : Nat) : pairTripAction s p =
    if tripActions s p = [] then 0
    else if (tripActions s p).contains 1 || ((tripActions s p).contains 2 && (tripActions s p).contains 3) then 1
    else (tripActions s p).headD 0 := rfl

/-- The latches that act on a pair, once source `src` has set its own, carry the actions that `Names` lists. -/
theorem mem_tripActions_latched {s : State} {src p a : Nat} :
    a ∈ tripActions (latched src s) p ↔ a ≠ 0 ∧ Names s src p a := by
  have hroute (n : Nat) : tripRoute (latched src s) n = tripRoute s n := rfl
  simp only [tripActions, Names, actsOnPair, below, latchActs, latchSet_latched, hroute, List.mem_map, List.mem_filter, List.mem_range,
    Bool.and_eq_true, Bool.or_eq_true, decide_eq_true_eq]
  constructor
  · rintro ⟨n, ⟨hn, ⟨hset, hne⟩, hbit⟩, rfl⟩
    exact ⟨hne, n, hn, hset, rfl, hbit⟩
  · rintro ⟨hne, n, hn, hset, rfl, hbit⟩
    exact ⟨n, ⟨hn, ⟨hset, hne⟩, hbit⟩, rfl⟩

/-- A pair takes OFF where OFF is present, or LOW_ON and HIGH_ON are. -/
theorem pairTripAction_off {s : State} {p : Nat} (h : 1 ∈ tripActions s p ∨ (2 ∈ tripActions s p ∧ 3 ∈ tripActions s p)) :
    pairTripAction s p = 1 := by
  have hsome : tripActions s p ≠ [] := h.elim List.ne_nil_of_mem fun h => List.ne_nil_of_mem h.1
  rw [pairTripAction_eq, if_neg hsome, if_pos]
  simpa only [Bool.or_eq_true, Bool.and_eq_true, List.contains_iff_mem] using h

/-- A pair takes the one action present. -/
theorem pairTripAction_sole {s : State} {p a : Nat} (h : a ∈ tripActions s p) (hsole : ∀ b ∈ tripActions s p, b = a) :
    pairTripAction s p = a := by
  have hhead : (tripActions s p).headD 0 = a := by
    cases hacts : tripActions s p with
    | nil => exact absurd (hacts ▸ h) List.not_mem_nil
    | cons b r => exact hsole b (hacts ▸ List.mem_cons_self)
  rw [pairTripAction_eq, if_neg (List.ne_nil_of_mem h), hhead]
  split
  next hoff =>
    simp only [Bool.or_eq_true, Bool.and_eq_true, List.contains_iff_mem] at hoff
    rcases hoff with h1 | ⟨h2, h3⟩
    · exact hsole 1 h1
    · exact absurd ((hsole 2 h2).trans (hsole 3 h3).symm) (by decide)
  next => rfl

/-- An action is a code of two bits. -/
theorem lt_four_of_names {s : State} {src p a : Nat} (h : Names s src p a) : a < 4 := by
  obtain ⟨n, _, _, rfl, _⟩ := h
  exact Nat.mod_lt _ (by decide)

/-- In a state whose pair is in a layer of R225, a source that becomes active sets its latch, and each pair that it names takes the action
of all set latches that name it. -/
theorem trip_takes_action {s : State} {src p : Nat} (hworks : tripsWork s = true) (hsrc : src < 32) (hp : p < 12)
    (hclear : latchSet s src = false) (haction : field (tripRoute s src) 31 30 ≠ 0) (hnamed : wbit (tripRoute s src) p = true)
    (hactive : Activates s src) (hlayer : (s.pair p).layer ≠ 0) :
    ∃ t, exec (.trip src true) s = .next t ∧ latchSet t src = true ∧ TripTaken p (pairTripAction (latched src s) p) t := by
  obtain ⟨u, htaken, hexec⟩ := exec_trip_latches hsrc hworks haction hclear hactive
  have hlatch : ∀ n, n < 32 → latchSet (latched src u) n = latchSet (latched src s) n := fun n _ => by
    rw [latchSet_latched, latchSet_latched, htaken.latch]
  have hacts : TripActs p (pairTripAction (latched src s) p) (latched src u) := by
    refine ⟨htaken.works.trans hworks, ?_, pairTripAction_congr hlatch htaken.route p, htaken.pair p ▸ hlayer⟩
    rw [actsOnPair_congr hlatch htaken.route]
    have hmem : field (tripRoute s src) 31 30 ∈ tripActions (latched src s) p :=
      mem_tripActions_latched.2 ⟨haction, src, hsrc, .inr rfl, rfl, hnamed⟩
    rintro hnil
    rw [tripActions, hnil] at hmem
    exact List.not_mem_nil hmem
  exact ⟨_, hexec, setTripLatch_takes hp hacts⟩

/-- The claim of R232 for a pair in a layer of R225. -/
theorem combinedTripAction_of_layer {s : State} {src p : Nat} (hworks : tripsWork s = true) (hsrc : src < 32) (hp : p < 12)
    (hclear : latchSet s src = false) (haction : field (tripRoute s src) 31 30 ≠ 0) (hnamed : wbit (tripRoute s src) p = true)
    (hactive : Activates s src) (hlayer : (s.pair p).layer ≠ 0) :
    ∃ t, exec (.trip src true) s = .next t ∧ latchSet t src = true ∧
      (Names s src p 1 ∨ (Names s src p 2 ∧ Names s src p 3) → (t.pair p).h = false ∧ (t.pair p).l = false) ∧
      (Names s src p 2 → ¬ Names s src p 1 → ¬ Names s src p 3 → (t.pair p).h = false ∧ (t.pair p).l = true) ∧
      (Names s src p 3 → ¬ Names s src p 1 → ¬ Names s src p 2 → (t.pair p).h = true ∧ (t.pair p).l = false) := by
  obtain ⟨t, hexec, hset, htaken⟩ := trip_takes_action hworks hsrc hp hclear haction hnamed hactive hlayer
  have hmem {a : Nat} (ha : a ≠ 0) (h : Names s src p a) : a ∈ tripActions (latched src s) p := mem_tripActions_latched.2 ⟨ha, h⟩
  have hrange {b : Nat} (hb : b ∈ tripActions (latched src s) p) : Names s src p b ∧ (b = 1 ∨ b = 2 ∨ b = 3) := by
    obtain ⟨hne, hb⟩ := mem_tripActions_latched.1 hb
    have hlt := lt_four_of_names hb
    exact ⟨hb, by omega⟩
  refine ⟨t, hexec, hset, fun h => ?_, fun h2 h1 h3 => ?_, fun h3 h1 h2 => ?_⟩
  · have hoff := pairTripAction_off (h.imp (hmem (by decide)) (And.imp (hmem (by decide)) (hmem (by decide))))
    rw [htaken.h, htaken.l, hoff]
    decide
  · have hlow := pairTripAction_sole (hmem (by decide) h2) fun b hb => by
      obtain ⟨hb, rfl | rfl | rfl⟩ := hrange hb
      exacts [absurd hb h1, rfl, absurd hb h3]
    rw [htaken.h, htaken.l, hlow]
    decide
  · have hhigh := pairTripAction_sole (hmem (by decide) h3) fun b hb => by
      obtain ⟨hb, rfl | rfl | rfl⟩ := hrange hb
      exacts [absurd hb h1, absurd hb h2, rfl]
    rw [htaken.h, htaken.l, hhigh]
    decide

/-! A pair in no layer. -/

/-- STANDBY with timebase 3 running past its period start, pair 11 on it with H on, and source 31 routed to that pair with OFF. -/
def strayLayer (n : Nat) : State :=
  { State.reset with
    now := 1, op := .standby, pwr := { resetting := none }, par := [(paAddr 9 0x11F, 0x40000800)],
    hatch := { tbs := [(3, { running := true })], pairs := [(11, { h := true, layer := n })] } }

/-- Whether H of pair 11 is on after a row. -/
def highAfter (r : Host.Outcome State Fault Refusal) : Option Bool :=
  match r with
  | .next t => some (t.pair 11).h
  | _ => none

/-- Layer 1 does not lie above a layer 0, and H stays on. -/
theorem exec_strayLayer_zero : highAfter (exec (.trip 31 true) (strayLayer 0)) = some true := by decide +kernel

theorem names_strayLayer_zero : Names (strayLayer 0) 31 11 1 :=
  ⟨31, by decide, .inr rfl, by decide +kernel, by decide +kernel⟩

/-- Pair 11 in layer 5 takes OFF: the hypotheses of the claim hold there. -/
theorem exec_strayLayer_five : ∃ t, exec (.trip 31 true) (strayLayer 5) = .next t ∧ (t.pair 11).h = false ∧ (t.pair 11).l = false := by
  have hoff : Names (strayLayer 5) 31 11 1 := ⟨31, by decide, .inr rfl, by decide +kernel, by decide +kernel⟩
  obtain ⟨t, hexec, _, htaken, _⟩ := combinedTripAction_of_layer (s := strayLayer 5) (src := 31) (p := 11) (by decide +kernel)
    (by decide) (by decide) (by decide +kernel) (by decide +kernel) (by decide +kernel) (.inl (by decide)) (by decide +kernel)
  exact ⟨t, hexec, htaken (.inl hoff)⟩

/-- Refutes O27: a pair whose layer is 0 takes no layer before a period start, and an OFF action leaves its H on. In a layer of R225 the
claim holds (`combinedTripAction_of_layer`). -/
theorem not_combinedTripAction : ¬ Obligations.CombinedTripAction := by
  unfold Obligations.CombinedTripAction
  intro h
  obtain ⟨t, hexec, _, hoff, _⟩ := h (strayLayer 0) 31 11 (by decide +kernel) (by decide) (by decide) (by decide +kernel)
    (by decide +kernel) (by decide +kernel) (.inl (by decide))
  have hrow := exec_strayLayer_zero
  rw [hexec] at hrow
  have hhigh : (t.pair 11).h = true := Option.some.inj hrow
  rw [(hoff (.inl names_strayLayer_zero)).1] at hhigh
  exact absurd hhigh (by decide)

end Sys2Proof.Proofs
end

section
/-!
PROOFS. The step function: which arm runs, what an idle step does, and that every step keeps the invariant. Each meaning answers
a next state that keeps the part, the queue and the form of memory and tables (Laws/Keep*.lean); the step takes the front of the
queue away first.
-/
namespace Sys2Proof.Proofs
open Sys2Proof.Machine Sys2Proof.Safety Sys2Proof.Laws

/-- Settles O1: the queue that is matched is the one given. -/
theorem stepRunsFront : Obligations.StepRunsFront := by
  unfold Obligations.StepRunsFront
  intro s c rest h
  simp only [step, h]

theorem ticking_iff (s : State) : ticking s = true ↔ s.tim.td1 = true ∨ s.tim.holdover = .active := by
  simp [ticking]

/-- Settles O2: an idle step is one `tick`, which advances the clock while TD1 ticks. -/
theorem idleStepTicks : Obligations.IdleStepTicks := by
  unfold Obligations.IdleStepTicks
  intro s h
  have hs : step s = .next (tick s) := by simp only [step, h]
  rw [hs, tick]
  simp only [ticking_iff]
  split <;> rfl

theorem next_keeps_of_same {s : State} {o : Host.Outcome State Fault Refusal} (h : ∃ t, o = .next t ∧ Same s t) :
    ∃ t, o = .next t ∧ Keeps s t := by
  obtain ⟨t, ho, ht⟩ := h
  exact ⟨t, ho, ht.keeps⟩

/-- Every command answers a next state that keeps the part, the queue and the form of memory and tables. -/
theorem exec_keeps (c : Instr) (s : State) : ∃ t, exec c s = .next t ∧ Keeps s t := by
  cases c with
  | folioHeader _ => exact next_keeps_of_same (same_execFolioHeader (Same.refl s))
  | runtHeader => exact next_keeps_of_same (same_execRuntHeader (Same.refl s))
  | packetEnd _ _ _ => exact next_keeps_of_same (same_execPacketEnd (Same.refl s))
  | fiFrmOverrun => exact next_keeps_of_same (same_execFiFrmOverrun (Same.refl s))
  | folioClockLost _ _ => exact next_keeps_of_same (same_execFolioClockLost (Same.refl s))
  | folioClockReturn => exact next_keeps_of_same (same_execFolioClockReturn (Same.refl s))
  | packetSend => exact next_keeps_of_same (same_execPacketSend (Same.refl s))
  | packetSent => exact keeps_execPacketSent (Keeps.refl s)
  | foClkRestart => exact next_keeps_of_same (same_execFoClkRestart (Same.refl s))
  | foFirstPacketHold => exact next_keeps_of_same (same_execFoFirstPacketHold (Same.refl s))
  | hostSilent => exact next_keeps_of_same (same_execHostSilent (Same.refl s))
  | identify _ => exact next_keeps_of_same (same_execIdentify (Same.refl s))
  | getStatus _ => exact next_keeps_of_same (same_execGetStatus (Same.refl s))
  | getParam _ => exact next_keeps_of_same (same_execGetParam (Same.refl s))
  | setParam _ => exact keeps_execSetParam (Keeps.refl s)
  | setParamBlock _ => exact keeps_execSetParamBlock (Keeps.refl s)
  | mode _ => exact next_keeps_of_same (same_execMode (Same.refl s))
  | torqueSet _ => exact next_keeps_of_same (same_execTorqueSet (Same.refl s))
  | setpoint _ => exact next_keeps_of_same (same_execSetpoint (Same.refl s))
  | safeState _ => exact next_keeps_of_same (same_execSafeState (Same.refl s))
  | clearFault _ => exact next_keeps_of_same (same_execClearFault (Same.refl s))
  | clearTrip _ => exact next_keeps_of_same (same_execClearTrip (Same.refl s))
  | discharge _ => exact next_keeps_of_same (same_execDischarge (Same.refl s))
  | ctxLoad _ => exact next_keeps_of_same (same_execCtxLoad (Same.refl s))
  | ctxEnable _ => exact next_keeps_of_same (same_execCtxEnable (Same.refl s))
  | ctxDisable _ => exact next_keeps_of_same (same_execCtxDisable (Same.refl s))
  | ctxRead _ => exact next_keeps_of_same (same_execCtxRead (Same.refl s))
  | mapLoad _ => exact next_keeps_of_same (same_execMapLoad (Same.refl s))
  | hatchFrame _ => exact next_keeps_of_same (same_execHatchFrame (Same.refl s))
  | hatchForce _ => exact next_keeps_of_same (same_execHatchForce (Same.refl s))
  | ringEnumerate _ => exact next_keeps_of_same (same_execRingEnumerate (Same.refl s))
  | nodeRead _ => exact next_keeps_of_same (same_execNodeRead (Same.refl s))
  | nodeWrite _ => exact next_keeps_of_same (same_execNodeWrite (Same.refl s))
  | cellExclude _ => exact next_keeps_of_same (same_execCellExclude (Same.refl s))
  | cellInclude _ => exact next_keeps_of_same (same_execCellInclude (Same.refl s))
  | seqLoad _ => exact next_keeps_of_same (same_execSeqLoad (Same.refl s))
  | convUrgent _ => exact next_keeps_of_same (same_execConvUrgent (Same.refl s))
  | calStatus _ => exact next_keeps_of_same (same_execCalStatus (Same.refl s))
  | posConfig _ => exact next_keeps_of_same (same_execPosConfig (Same.refl s))
  | posCompare _ => exact next_keeps_of_same (same_execPosCompare (Same.refl s))
  | memRead _ => exact next_keeps_of_same (same_execMemRead (Same.refl s))
  | memWrite _ => exact keeps_execMemWrite (Keeps.refl s)
  | captureArm _ => exact keeps_execCaptureArm (Keeps.refl s)
  | scrubStatus _ => exact next_keeps_of_same (same_execScrubStatus (Same.refl s))
  | logRead _ => exact next_keeps_of_same (same_execLogRead (Same.refl s))
  | logMark _ => exact next_keeps_of_same (same_execLogMark (Same.refl s))
  | logClear _ => exact next_keeps_of_same (same_execLogClear (Same.refl s))
  | mbxPost _ => exact next_keeps_of_same (same_execMbxPost (Same.refl s))
  | mbxRead _ => exact next_keeps_of_same (same_execMbxRead (Same.refl s))
  | doorbell _ => exact next_keeps_of_same (same_execDoorbell (Same.refl s))
  | lockAcquire _ => exact next_keeps_of_same (same_execLockAcquire (Same.refl s))
  | lockRelease _ => exact next_keeps_of_same (same_execLockRelease (Same.refl s))
  | pairRole _ => exact next_keeps_of_same (same_execPairRole (Same.refl s))
  | handover _ => exact next_keeps_of_same (same_execHandover (Same.refl s))
  | split _ => exact next_keeps_of_same (same_execSplit (Same.refl s))
  | join _ => exact next_keeps_of_same (same_execJoin (Same.refl s))
  | sleep _ => exact next_keeps_of_same (same_execSleep (Same.refl s))
  | shutdown _ => exact next_keeps_of_same (same_execShutdown (Same.refl s))
  | burnishAbort _ => exact next_keeps_of_same (same_execBurnishAbort (Same.refl s))
  | burnishResult _ => exact next_keeps_of_same (same_execBurnishResult (Same.refl s))
  | reset _ => exact next_keeps_of_same (same_execReset (Same.refl s))
  | fwBegin _ => exact keeps_execFwBegin (Keeps.refl s)
  | fwData _ => exact keeps_execFwData (Keeps.refl s)
  | fwCommit _ => exact next_keeps_of_same (same_execFwCommit (Same.refl s))
  | fwAbort _ => exact next_keeps_of_same (same_execFwAbort (Same.refl s))
  | relayRequest _ => exact keeps_execRelayRequest (Keeps.refl s)
  | timeLoRead => exact next_keeps_of_same (same_execTimeLoRead (Same.refl s))
  | retiredLoRead => exact next_keeps_of_same (same_execRetiredLoRead (Same.refl s))
  | angleRead _ => exact next_keeps_of_same (same_execAngleRead (Same.refl s))
  | capStopLoRead _ => exact next_keeps_of_same (same_execCapStopLoRead (Same.refl s))
  | directoryEntryRead _ => exact next_keeps_of_same (same_execDirectoryEntryRead (Same.refl s))
  | fastReserveWrite _ => exact keeps_execFastReserveWrite (Keeps.refl s)
  | foRateWrite _ => exact keeps_execFoRateWrite (Keeps.refl s)
  | configLockWrite _ => exact keeps_execConfigLockWrite (Keeps.refl s)
  | seqSoftTrigger _ => exact keeps_execSeqSoftTrigger (Keeps.refl s)
  | seqEnableWrite _ _ => exact keeps_execSeqEnableWrite (Keeps.refl s)
  | rotEnWrite _ => exact keeps_execRotEnWrite (Keeps.refl s)
  | wcCtrlWrite _ _ => exact keeps_execWcCtrlWrite (Keeps.refl s)
  | tbEnableWrite _ _ => exact keeps_execTbEnableWrite (Keeps.refl s)
  | syncWrite _ _ => exact keeps_execSyncWrite (Keeps.refl s)
  | perWrite _ _ => exact keeps_execPerWrite (Keeps.refl s)
  | compareWrite _ _ _ => exact keeps_execCompareWrite (Keeps.refl s)
  | tripRouteWrite _ _ => exact keeps_execTripRouteWrite (Keeps.refl s)
  | pairCfgWrite _ _ => exact keeps_execPairCfgWrite (Keeps.refl s)
  | drvPosWrite _ _ => exact keeps_execDrvPosWrite (Keeps.refl s)
  | emuCtrlWrite _ _ => exact keeps_execEmuCtrlWrite (Keeps.refl s)
  | splitTaskWrite _ => exact keeps_execSplitTaskWrite (Keeps.refl s)
  | mirEnWrite _ => exact keeps_execMirEnWrite (Keeps.refl s)
  | thresholdWrite _ _ => exact keeps_execThresholdWrite (Keeps.refl s)
  | lpRateWrite _ => exact keeps_execLpRateWrite (Keeps.refl s)
  | startExpectWrite _ _ => exact keeps_execStartExpectWrite (Keeps.refl s)
  | mapParamWrite _ _ _ => exact keeps_execMapParamWrite (Keeps.refl s)
  | watchdogService _ => exact keeps_execWatchdogService (Keeps.refl s)
  | paramWrite _ _ _ => exact keeps_execParamWrite (Keeps.refl s)
  | xinWindowEnd _ => exact next_keeps_of_same (same_execXinWindowEnd (Same.refl s))
  | xinEdgeTimeout => exact next_keeps_of_same (same_execXinEdgeTimeout (Same.refl s))
  | pllLoss _ => exact next_keeps_of_same (same_execPllLoss (Same.refl s))
  | pllLockTimeout _ => exact next_keeps_of_same (same_execPllLockTimeout (Same.refl s))
  | pllLocked _ _ => exact next_keeps_of_same (same_execPllLocked (Same.refl s))
  | holdoverEnd => exact next_keeps_of_same (same_execHoldoverEnd (Same.refl s))
  | paceMeasurement _ _ _ _ => exact next_keeps_of_same (same_execPaceMeasurement (Same.refl s))
  | phaseSteer _ => exact next_keeps_of_same (same_execPhaseSteer (Same.refl s))
  | admissionRecheck => exact next_keeps_of_same (same_execAdmissionRecheck (Same.refl s))
  | seqTrigger _ => exact next_keeps_of_same (same_execSeqTrigger (Same.refl s))
  | seqStart _ => exact next_keeps_of_same (same_execSeqStart (Same.refl s))
  | urgentStart _ => exact next_keeps_of_same (same_execUrgentStart (Same.refl s))
  | conversionDone _ _ _ _ _ _ => exact keeps_execConversionDone (Keeps.refl s)
  | calSelfDone _ => exact next_keeps_of_same (same_execCalSelfDone (Same.refl s))
  | calDecision => exact next_keeps_of_same (same_execCalDecision (Same.refl s))
  | calSwap => exact next_keeps_of_same (same_execCalSwap (Same.refl s))
  | shadowTimeout => exact next_keeps_of_same (same_execShadowTimeout (Same.refl s))
  | trip _ _ => exact next_keeps_of_same (same_execTrip (Same.refl s))
  | encoderCount _ _ _ _ => exact next_keeps_of_same (same_execEncoderCount (Same.refl s))
  | hallStateChange _ _ => exact next_keeps_of_same (same_execHallStateChange (Same.refl s))
  | ssiStart _ => exact next_keeps_of_same (same_execSsiStart (Same.refl s))
  | ssiFrameEnd _ _ _ _ _ => exact next_keeps_of_same (same_execSsiFrameEnd (Same.refl s))
  | sentFrame _ _ => exact next_keeps_of_same (same_execSentFrame (Same.refl s))
  | sentTimeout _ => exact next_keeps_of_same (same_execSentTimeout (Same.refl s))
  | posCapture _ => exact next_keeps_of_same (same_execPosCapture (Same.refl s))
  | periodStart _ => exact next_keeps_of_same (same_execPeriodStart (Same.refl s))
  | triggerCompare _ _ => exact next_keeps_of_same (same_execTriggerCompare (Same.refl s))
  | refEdge _ => exact next_keeps_of_same (same_execRefEdge (Same.refl s))
  | deadtimeEnd _ => exact next_keeps_of_same (same_execDeadtimeEnd (Same.refl s))
  | forceExpiry _ => exact next_keeps_of_same (same_execForceExpiry (Same.refl s))
  | delaylineCalibration _ _ => exact next_keeps_of_same (same_execDelaylineCalibration (Same.refl s))
  | frameSend _ => exact next_keeps_of_same (same_execFrameSend (Same.refl s))
  | frameLate _ => exact next_keeps_of_same (same_execFrameLate (Same.refl s))
  | safeFrame _ => exact next_keeps_of_same (same_execSafeFrame (Same.refl s))
  | returnFrame _ _ _ => exact next_keeps_of_same (same_execReturnFrame (Same.refl s))
  | ringLinkChange _ _ _ => exact next_keeps_of_same (same_execRingLinkChange (Same.refl s))
  | enumLinkTimeout _ => exact next_keeps_of_same (same_execEnumLinkTimeout (Same.refl s))
  | enumFarPass _ _ _ _ => exact next_keeps_of_same (same_execEnumFarPass (Same.refl s))
  | stringCycle _ => exact next_keeps_of_same (same_execStringCycle (Same.refl s))
  | contextEvaluation _ => exact keeps_execContextEvaluation (Keeps.refl s)
  | contextWriteback _ => exact next_keeps_of_same (same_execContextWriteback (Same.refl s))
  | deadlineAction _ => exact next_keeps_of_same (same_execDeadlineAction (Same.refl s))
  | trigTimeoutExpiry _ => exact next_keeps_of_same (same_execTrigTimeoutExpiry (Same.refl s))
  | transactionCompare _ _ _ => exact keeps_execTransactionCompare (Keeps.refl s)
  | delayQueueTake _ _ _ => exact next_keeps_of_same (same_execDelayQueueTake (Same.refl s))
  | checkpoint _ => exact keeps_execCheckpoint (Keeps.refl s)
  | resyncDone => exact next_keeps_of_same (same_execResyncDone (Same.refl s))
  | asyncInputRead _ _ _ => exact next_keeps_of_same (same_execAsyncInputRead (Same.refl s))
  | interruptDecision _ _ => exact next_keeps_of_same (same_execInterruptDecision (Same.refl s))
  | watchdog => exact next_keeps_of_same (same_execWatchdog (Same.refl s))
  | pairRestartDone => exact keeps_execPairRestartDone (Keeps.refl s)
  | freeCoreTaskEnd _ => exact next_keeps_of_same (same_execFreeCoreTaskEnd (Same.refl s))
  | freeCoreWatchdog => exact next_keeps_of_same (same_execFreeCoreWatchdog (Same.refl s))
  | tapBypass => exact next_keeps_of_same (same_execTapBypass (Same.refl s))
  | tapIdcode => exact next_keeps_of_same (same_execTapIdcode (Same.refl s))
  | tapSamplePreload => exact next_keeps_of_same (same_execTapSamplePreload (Same.refl s))
  | tapExtest => exact next_keeps_of_same (same_execTapExtest (Same.refl s))
  | unlockChallenge => exact next_keeps_of_same (same_execUnlockChallenge (Same.refl s))
  | unlockResponse _ => exact next_keeps_of_same (same_execUnlockResponse (Same.refl s))
  | unlockVerified _ => exact next_keeps_of_same (same_execUnlockVerified (Same.refl s))
  | unlockBlockEnd => exact next_keeps_of_same (same_execUnlockBlockEnd (Same.refl s))
  | debugAccess => exact next_keeps_of_same (same_execDebugAccess (Same.refl s))
  | tapLock => exact next_keeps_of_same (same_execTapLock (Same.refl s))
  | debugHalt => exact next_keeps_of_same (same_execDebugHalt (Same.refl s))
  | breakpointHit _ => exact next_keeps_of_same (same_execBreakpointHit (Same.refl s))
  | debugResume => exact next_keeps_of_same (same_execDebugResume (Same.refl s))
  | debugStep => exact next_keeps_of_same (same_execDebugStep (Same.refl s))
  | debugRegisterRead _ => exact next_keeps_of_same (same_execDebugRegisterRead (Same.refl s))
  | debugRegisterWrite _ _ => exact next_keeps_of_same (same_execDebugRegisterWrite (Same.refl s))
  | debugBreakpointSet _ _ _ => exact next_keeps_of_same (same_execDebugBreakpointSet (Same.refl s))
  | debugMemoryRead _ => exact next_keeps_of_same (same_execDebugMemoryRead (Same.refl s))
  | debugMemoryWrite _ _ => exact keeps_execDebugMemoryWrite (Keeps.refl s)
  | enableChange _ => exact next_keeps_of_same (same_execEnableChange (Same.refl s))
  | ss2DelayExpiry _ => exact next_keeps_of_same (same_execSs2DelayExpiry (Same.refl s))
  | stopTimeExpiry _ => exact next_keeps_of_same (same_execStopTimeExpiry (Same.refl s))
  | dischargeTimeout _ => exact next_keeps_of_same (same_execDischargeTimeout (Same.refl s))
  | dschHoldExpiry _ => exact next_keeps_of_same (same_execDschHoldExpiry (Same.refl s))
  | registrationEvaluation _ => exact next_keeps_of_same (same_execRegistrationEvaluation (Same.refl s))
  | regEvalGap _ => exact next_keeps_of_same (same_execRegEvalGap (Same.refl s))
  | scrubStep _ _ _ => exact next_keeps_of_same (same_execScrubStep (Same.refl s))
  | lpddr5Training _ _ _ => exact next_keeps_of_same (same_execLpddr5Training (Same.refl s))
  | mr4Poll _ _ => exact next_keeps_of_same (same_execMr4Poll (Same.refl s))
  | lpddr5Refresh _ => exact next_keeps_of_same (same_execLpddr5Refresh (Same.refl s))
  | lpddr5Relock => exact keeps_execLpddr5Relock (Keeps.refl s)
  | lpddr5RelockTimeout => exact keeps_execLpddr5RelockTimeout (Keeps.refl s)
  | blockFillDone _ => exact keeps_execBlockFillDone (Keeps.refl s)
  | captureStop _ => exact next_keeps_of_same (same_execCaptureStop (Same.refl s))
  | marginLinkUp _ _ => exact next_keeps_of_same (same_execMarginLinkUp (Same.refl s))
  | linkCellDue => exact next_keeps_of_same (same_execLinkCellDue (Same.refl s))
  | marginLinkLoss _ => exact next_keeps_of_same (same_execMarginLinkLoss (Same.refl s))
  | cellSend => exact next_keeps_of_same (same_execCellSend (Same.refl s))
  | cellRetransmit => exact next_keeps_of_same (same_execCellRetransmit (Same.refl s))
  | ackDue => exact next_keeps_of_same (same_execAckDue (Same.refl s))
  | ackReceived _ => exact next_keeps_of_same (same_execAckReceived (Same.refl s))
  | heartbeatDue => exact next_keeps_of_same (same_execHeartbeatDue (Same.refl s))
  | heartbeatReceived _ _ => exact next_keeps_of_same (same_execHeartbeatReceived (Same.refl s))
  | heartbeatTimeout => exact next_keeps_of_same (same_execHeartbeatTimeout (Same.refl s))
  | heartbeatTakeover => exact next_keeps_of_same (same_execHeartbeatTakeover (Same.refl s))
  | statusDue => exact next_keeps_of_same (same_execStatusDue (Same.refl s))
  | statusReceived _ _ _ _ _ => exact next_keeps_of_same (same_execStatusReceived (Same.refl s))
  | tbPhaseReceived _ _ _ => exact next_keeps_of_same (same_execTbPhaseReceived (Same.refl s))
  | mirrorReceived _ _ _ _ _ => exact next_keeps_of_same (same_execMirrorReceived (Same.refl s))
  | ringFrameReceived _ _ _ _ _ => exact next_keeps_of_same (same_execRingFrameReceived (Same.refl s))
  | mailboxReceived _ _ _ _ => exact next_keeps_of_same (same_execMailboxReceived (Same.refl s))
  | mbxFreeReceived _ _ _ => exact next_keeps_of_same (same_execMbxFreeReceived (Same.refl s))
  | doorbellReceived _ _ _ => exact next_keeps_of_same (same_execDoorbellReceived (Same.refl s))
  | lockReceived _ _ _ _ _ _ => exact next_keeps_of_same (same_execLockReceived (Same.refl s))
  | lockReplyReceived _ _ _ _ _ => exact next_keeps_of_same (same_execLockReplyReceived (Same.refl s))
  | handoverOfferReceived _ _ _ => exact next_keeps_of_same (same_execHandoverOfferReceived (Same.refl s))
  | handoverAcceptReceived _ _ => exact next_keeps_of_same (same_execHandoverAcceptReceived (Same.refl s))
  | handoverDeclineReceived _ _ => exact next_keeps_of_same (same_execHandoverDeclineReceived (Same.refl s))
  | handoverAcceptTimeout => exact next_keeps_of_same (same_execHandoverAcceptTimeout (Same.refl s))
  | handoverInstant => exact next_keeps_of_same (same_execHandoverInstant (Same.refl s))
  | handoverTakeReceived _ _ _ => exact next_keeps_of_same (same_execHandoverTakeReceived (_th := 0) (Same.refl s))
  | handoverTakenReceived _ _ => exact next_keeps_of_same (same_execHandoverTakenReceived (Same.refl s))
  | handoverLeaveReceived _ _ => exact next_keeps_of_same (same_execHandoverLeaveReceived (Same.refl s))
  | ownNClaim => exact next_keeps_of_same (same_execOwnNClaim (Same.refl s))
  | peerOwnChange _ => exact next_keeps_of_same (same_execPeerOwnChange (Same.refl s))
  | burnishUnitEnd _ _ _ => exact next_keeps_of_same (same_execBurnishUnitEnd (Same.refl s))
  | burnishUnitTimeout _ _ _ => exact next_keeps_of_same (same_execBurnishUnitTimeout (Same.refl s))
  | burnishDrainDone => exact next_keeps_of_same (same_execBurnishDrainDone (Same.refl s))
  | burnishDrainTimeout => exact next_keeps_of_same (same_execBurnishDrainTimeout (Same.refl s))
  | burnishReloadDone => exact keeps_execBurnishReloadDone (Keeps.refl s)
  | sketchbookWrite => exact next_keeps_of_same (same_execSketchbookWrite (Same.refl s))
  | hkRoundEnd _ _ => exact keeps_execHkRoundEnd (Keeps.refl s)
  | supplyMonitorFault _ _ => exact keeps_execSupplyMonitorFault (Keeps.refl s)
  | powerOnReset _ => exact keeps_execPowerOnReset (Keeps.refl s)
  | porRelease _ => exact keeps_execPorRelease (Keeps.refl s)
  | rstNReset => exact keeps_execRstNReset (Keeps.refl s)
  | bootAdvance _ _ => exact keeps_execBootAdvance (Keeps.refl s)
  | warmResetEnd _ => exact next_keeps_of_same (same_execWarmResetEnd (Same.refl s))
  | sleepEntry => exact next_keeps_of_same (same_execSleepEntry (Same.refl s))
  | wakeCondition _ _ => exact next_keeps_of_same (same_execWakeCondition (Same.refl s))
  | sleepTimerExpiry _ => exact next_keeps_of_same (same_execSleepTimerExpiry (Same.refl s))
  | wakeDone _ => exact next_keeps_of_same (same_execWakeDone (Same.refl s))
  | xinEdgeResume => exact next_keeps_of_same (same_execXinEdgeResume (Same.refl s))
  | wcOutputChange _ _ => exact next_keeps_of_same (same_execWcOutputChange (Same.refl s))
  | farPortDownFrame _ _ => exact next_keeps_of_same (same_execFarPortDownFrame (Same.refl s))
  | marginLaneDeskew => exact next_keeps_of_same (same_execMarginLaneDeskew (Same.refl s))
  | linkCellReceived _ _ => exact next_keeps_of_same (same_execLinkCellReceived (Same.refl s))
  | badCellReceived _ => exact next_keeps_of_same (same_execBadCellReceived (Same.refl s))
  | leaveAckTimeout => exact next_keeps_of_same (same_execLeaveAckTimeout (Same.refl s))
  | tapReset => exact next_keeps_of_same (same_execTapReset (Same.refl s))
  | jtagLoader _ => exact next_keeps_of_same (same_execJtagLoader (Same.refl s))
  | lpddr5RequestDone _ => exact keeps_execLpddr5RequestDone (Keeps.refl s)
  | folioResetEnd => exact next_keeps_of_same (same_execFolioResetEnd (Same.refl s))

theorem inv_of_keeps {s t : State} (h : Keeps s t) (hs : Inv s) : Inv t := ⟨h.tables hs.tables, h.wf hs.memory⟩

theorem keeps_tick (s : State) : Keeps s (tick s) := by
  unfold tick
  split
  · exact ⟨rfl, rfl, id, fun w => ⟨w.drives, w.par, w.nv, w.tbs, w.pairs, w.rings, w.dir, w.srcs, w.cmps, w.emus, w.seqs, w.slices,
      w.ctxs, w.regs, w.caps⟩⟩
  · exact Keeps.refl s

/-- The invariant does not speak of the queue. -/
theorem inv_of_pending {s : State} (h : Inv s) (q : List Instr) : Inv { s with pending := q } :=
  ⟨⟨h.tables.drives, h.tables.par, h.tables.nv, h.tables.tbs, h.tables.pairs, h.tables.rings, h.tables.dir, h.tables.srcs,
    h.tables.cmps, h.tables.emus, h.tables.seqs, h.tables.slices, h.tables.ctxs, h.tables.regs, h.tables.caps⟩, h.memory⟩

/-- Settles O3: the front of the queue, if there is one, runs on the state with the rest, and keeps what `Keeps` says. -/
theorem stepKeepsInvariant : Obligations.StepKeepsInvariant := by
  unfold Obligations.StepKeepsInvariant
  intro s hs
  cases hp : s.pending with
  | nil =>
    have hk := keeps_tick s
    exact ⟨tick s, by simp only [step, hp], inv_of_keeps hk hs, hk.part, hk.pending.trans hp⟩
  | cons c rest =>
    obtain ⟨t, ht, hk⟩ := exec_keeps c { s with pending := rest }
    exact ⟨t, by simp only [step, hp]; exact ht, inv_of_keeps hk (inv_of_pending hs rest), hk.part, hk.pending⟩

/-- Settles O4: every table is empty but the image words of MRAM, and so is memory. -/
theorem resetMeetsInvariant : Obligations.ResetMeetsInvariant := by
  unfold Obligations.ResetMeetsInvariant
  exact ⟨⟨rfl, rfl, rfl, rfl, rfl, rfl, rfl, rfl, rfl, rfl, rfl, rfl, rfl, rfl, rfl⟩, rfl⟩

/-- Settles O5: the reset state lists nothing, so that every read gives its default. -/
theorem resetValues : Obligations.ResetValues := by
  unfold Obligations.ResetValues
  exact ⟨rfl, rfl, fun _ => rfl, rfl, rfl, rfl, rfl, rfl, rfl, rfl, fun _ _ => rfl, rfl, rfl, rfl⟩

end Sys2Proof.Proofs
end

section
/-!
PROOFS. The commands of the Device unit that only read. A body runs on a state that differs from the one before in the tag table
alone, which no value that these commands read depends on, but for the number of its entries.
-/
namespace Sys2Proof.Proofs
open Sys2Proof.Machine Sys2Proof.Safety Sys2Proof.Laws

/-- A command whose body reads and replies changes the Folio unit alone. -/
theorem completes_reading {s : State} {tag op status : Nat} {ws rep : List Word} {body : List Word → State → CmdRes}
    (h : Starts s tag op ws) (hb : body ws (begun s tag) = .done status rep (begun s tag)) :
    ∃ t, Host.Outcome.next (runCommand op tag body s) = (.next t : Host.Outcome State Fault Refusal) ∧
      Replied s t tag status rep ∧ t = { s with folio := t.folio } := by
  obtain ⟨t, ht, hr, f, hf⟩ := completes h hb rfl rfl
  exact ⟨t, by rw [ht], hr, by rw [hf]; rfl⟩

/-! DEVICE_STATE. -/

theorem opCode_lt (o : OpState) : opCode o < 8 := by cases o <;> decide

/-- The low bits of DEVICE_STATE: the operating state below SAFE_LOCKED, under fields that start at bit 4. -/
theorem deviceState_low (s : State) : ∃ k, (deviceState s).toNat = 16 * k + 8 * b2n s.safeLocked + opCode s.op := by
  refine ⟨(b2n s.tim.timeValid * 2 ^ 15 + s.therm.band * 2 ^ 12 + maskOf (drivesWith s hasArch) * 2 ^ 8 +
    maskOf (drivesWith s driveRuns) * 2 ^ 4 + b2n (debugOn s) * 2 ^ 3 + s.marg.role * 2 + b2n (splitMode s.plate.mode)) % 2 ^ 28, ?_⟩
  have h1 := opCode_lt s.op
  have h2 : b2n s.safeLocked < 2 := by cases s.safeLocked <;> decide
  simp only [deviceState, wrd, BitVec.toNat_ofNat]
  omega

theorem wbit_eq_testBit (w : Word) (n : Nat) : wbit w n = w.toNat.testBit n := rfl

theorem deviceState_op (s : State) : field (deviceState s) 2 0 = opCode s.op := by
  obtain ⟨k, hk⟩ := deviceState_low s
  have h1 := opCode_lt s.op
  simp only [field, hk]
  omega

theorem deviceState_locked (s : State) : wbit (deviceState s) 3 = s.safeLocked := by
  obtain ⟨k, hk⟩ := deviceState_low s
  have h1 := opCode_lt s.op
  rw [wbit_eq_testBit, hk, Nat.testBit_eq_decide_div_mod_eq]
  cases s.safeLocked <;> simp only [b2n] <;> simp <;> omega

/-! GET_PARAM. -/

/-- The units whose parameters a read takes without any effect. -/
def quietUnit (u : Nat) : Prop := u ∈ [0, 1, 3, 5, 12, 13, 14, 15]

theorem captureParam_quiet {u : Nat} (h : quietUnit u) (i : Nat) (s : State) : captureParam u i s = s := by
  simp only [quietUnit, List.mem_cons, List.mem_nil_iff, or_false] at h
  rcases h with rfl | rfl | rfl | rfl | rfl | rfl | rfl | rfl <;> rfl

theorem paramMarked_quiet {u : Nat} (h : quietUnit u) (i : Nat) (s : State) : paramMarked s u i = false := by
  simp only [quietUnit, List.mem_cons, List.mem_nil_iff, or_false] at h
  rcases h with rfl | rfl | rfl | rfl | rfl | rfl | rfl | rfl <;> rfl

/-- The values of these units depend on the tag table through its length alone. -/
theorem readParam_begun {u : Nat} (h : quietUnit u) (i : Nat) (s : State) (tag : Nat) :
    readParam (begun s tag) u i = readParam s u i := by
  simp only [quietUnit, List.mem_cons, List.mem_nil_iff, or_false] at h
  rcases h with rfl | rfl | rfl | rfl | rfl | rfl | rfl | rfl <;> try rfl
  have hl : folioTags (begun s tag) = folioTags s := by simp [folioTags, setPhase, updFolio]
  show read01 (begun s tag) i = read01 s i
  unfold read01
  rw [hl]
  rfl

/-- Entries of quiet units that are present: each address with its value, nothing marked, nothing changed. -/
theorem getEntries_quiet {s : State} {l : List Word}
    (h : ∀ a ∈ l, isAbsent s (adUnit a) (adIndex a) = false ∧ quietUnit (adUnit a)) :
    getEntries l s = (l.flatMap fun a => [a, readParam s (adUnit a) (adIndex a)], false, s) := by
  induction l with
  | nil => rfl
  | cons a r ih =>
    obtain ⟨ha, hq⟩ := h a (List.mem_cons_self ..)
    have hr := ih fun b hb => h b (List.mem_cons_of_mem _ hb)
    simp [getEntries, ha, captureRead, captureParam_quiet hq, paramMarked_quiet hq, hr]

theorem checked_nil (s : State) {l : List (Bool × Nat)} (h : ∀ c ∈ l, c.1 = false) (k : CmdRes) : checked s l k = k := by
  have hn : l.find? (fun c => c.1) = none := List.find?_eq_none.2 fun c hc => by simp [h c hc]
  simp only [checked, hn]

theorem bodyGetParam_quiet {s : State} {l : List Word} (hop : s.op ≠ .shutdown)
    (h : ∀ a ∈ l, getBad s a = false ∧ isAbsent s (adUnit a) (adIndex a) = false ∧ quietUnit (adUnit a)) :
    bodyGetParam l s = .done stOk (l.flatMap fun a => [a, readParam s (adUnit a) (adIndex a)]) s := by
  have hbad : l.any (getBad s) = false := List.any_eq_false.2 fun a ha => by simp [(h a ha).1]
  unfold bodyGetParam
  rw [checked_nil s (by simp [hop, hbad]), getEntries_quiet fun a ha => (h a ha).2]
  rfl

/-- Settles O6: the three bodies reply with what stands in the state and leave it. -/
theorem deviceReads : Obligations.DeviceReads := by
  unfold Obligations.DeviceReads
  refine ⟨fun s tag h => ?_, fun s tag h => ?_, fun s tag l h hop hl => ?_⟩
  · obtain ⟨t, ht, hr, hf⟩ := completes_reading h (body := bodyIdentify) rfl
    exact ⟨t, _, _, _, ht, hr, hf⟩
  · obtain ⟨t, ht, hr, hf⟩ := completes_reading h (body := bodyGetStatus) rfl
    exact ⟨t, deviceState s, (List.range 4).map (driveState s) ++ [attnCause s], ht, hr, rfl, deviceState_op s,
      deviceState_locked s, hf⟩
  · have hb := bodyGetParam_quiet (s := begun s tag) hop (l := l) hl
    have hv : (l.flatMap fun a => [a, readParam (begun s tag) (adUnit a) (adIndex a)]) =
        l.flatMap fun a => [a, readParam s (adUnit a) (adIndex a)] :=
      List.flatMap_congr fun a ha => by rw [readParam_begun (hl a ha).2.2]
    rw [hv] at hb
    exact completes_reading h hb

end Sys2Proof.Proofs
end

section
/-!
PROOFS. The receive lane of the Folio port (R76 to R80, R86, R87): the code of a header by the first check it fails, what a header that
is taken and one that is turned away leave, and the end of a packet.
-/
namespace Sys2Proof.Proofs
open Sys2Proof.Machine Sys2Proof.Safety Sys2Proof.Laws

/-! The ACCEPT code. -/

theorem acceptCode_badCrc {s : State} {h : BitVec 64} (hc : headerCrc h ≠ hCrc h) : acceptCode s h = 11 := if_pos hc

theorem acceptCode_boot {s : State} {h : BitVec 64} (hc : headerCrc h = hCrc h) (hb : s.op = .boot) : acceptCode s h = 10 := by
  simp [acceptCode, hc, hb, acBusy]

/-- Outside BOOT and the BUSY phases of SHUTDOWN the opcode, kind, unit and length decide next. -/
theorem acceptCode_shape {s : State} {h : BitVec 64} {c : Nat} (hc : headerCrc h = hCrc h) (hb : s.op ≠ .boot)
    (hy : burnBusy s = false) (hs : headerShape s.part h = some c) : acceptCode s h = c := by
  simp [acceptCode, hc, hb, hy, hs]

/-- The tag and the room in the table decide last. -/
theorem acceptCode_tag {s : State} {h : BitVec 64} (hc : headerCrc h = hCrc h) (hb : s.op ≠ .boot)
    (hy : burnBusy s = false) (hs : headerShape s.part h = none) :
    acceptCode s h = if hTag h = 0x3FF ∨ (s.folio.tags.any fun e => e.tag = hTag h) then 12
      else if tagLimit s (hOpcode h) ≤ s.folio.tags.length then 10 else 9 := by
  simp [acceptCode, hc, hb, hy, hs, acTagInUse, acBusy, acAccepted]

theorem headerShape_unlisted {p : Part} {h : BitVec 64} (hi : opInfo (hOpcode h) = none) : headerShape p h = some 13 := by
  simp [headerShape, hi, acOpcodeUnknown]

theorem headerShape_absent {p : Part} {h : BitVec 64} {i : OpInfo} (hi : opInfo (hOpcode h) = some i) (hk : hKind h = 1)
    (hr : hfield h 47 41 = 0) (hu : unitPresent p (hUnit h) = false) : headerShape p h = some 14 := by
  simp [headerShape, hi, hk, hr, hu, acUnitAbsent]

/-- With the opcode's present unit only the length is left. -/
theorem headerShape_present {p : Part} {h : BitVec 64} {i : OpInfo} (hi : opInfo (hOpcode h) = some i) (hk : hKind h = 1)
    (hr : hfield h 47 41 = 0) (hu : hUnit h = i.unit) (hp : unitPresent p i.unit = true) :
    headerShape p h = if hLength h < i.lo ∨ i.hi < hLength h then some 15 else none := by
  simp [headerShape, hi, hk, hr, hu, hp, acLengthBad]

/-! A header taken, and a header turned away. -/

/-- Settles O7: no check is left to fail, and `acceptHeader` adds the entry. -/
theorem headerAccepted : Obligations.HeaderAccepted := by
  unfold Obligations.HeaderAccepted
  intro s hdr i ho hc hb hy hi hk hr hu hp hlo hhi ht hn hl
  have hany : (s.folio.tags.any fun e => e.tag = hTag hdr) = false := List.any_eq_false.2 fun e he => by simp [hn e he]
  have hcode : acceptCode s hdr = 9 := by
    have hs := headerShape_present (p := s.part) hi hk hr hu hp
    rw [if_neg (by omega)] at hs
    rw [acceptCode_tag hc hb hy hs, if_neg (by simp [ht, hany]), if_neg (by omega)]
  have he : exec (.folioHeader hdr) s = .next (acceptHeader hdr
      (updFolio (updTim s fun t => { t with td3 := true }) fun f => { f with accept := 9 })) := by
    show Host.Outcome.next _ = _
    rw [if_pos ho, hcode]
    rfl
  exact ⟨_, _, he, rfl, rfl, rfl, rfl, rfl, rfl, rfl, rfl, rfl, rfl, rfl, rfl, rfl, rfl⟩

/-- The receiver after a header with code `c` that is not accepted. -/
def turnedAway (s : State) (c : Nat) : State :=
  updFolio (updTim s fun t => { t with td3 := true }) fun f => { f with accept := c, lane := .ignore }

theorem exec_folioHeader_refused {s : State} {hdr : BitVec 64} {c : Nat} (ho : laneOpen s = true) (hc : acceptCode s hdr = c)
    (hne : c ≠ 9) : exec (.folioHeader hdr) s = .next (refuseHeader c (turnedAway s c)) := by
  show Host.Outcome.next _ = _
  rw [if_pos ho, hc]
  exact congrArg _ (if_neg hne)

/-- Beside the receiver a refused header changes its counters alone, whatever its code. -/
theorem turned_refuseHeader (s : State) (c : Nat) : Turned s (refuseHeader c (turnedAway s c)) c := by
  unfold refuseHeader
  split_ifs <;> exact ⟨rfl, rfl⟩

/-- A header with a code other than 9 is turned away with it. -/
theorem header_turned {s : State} {hdr : BitVec 64} {c : Nat} (ho : laneOpen s = true) (hc : acceptCode s hdr = c) (hne : c ≠ 9) :
    ∃ t, exec (.folioHeader hdr) s = .next t ∧ Turned s t c :=
  ⟨_, exec_folioHeader_refused ho hc hne, turned_refuseHeader s c⟩

/-- A counter of unit 0x01 after a link error: it is counted, and LINK_ERROR is set. -/
theorem linkError_counts (s : State) {i : Nat} (hi : i < 65536) (h5 : i ≠ 5) :
    parGet (linkError s i) 1 i = counted (parGet s 1 i) 1 ∧ wbit (parGet (linkError s i) 1 5) 5 = true := by
  constructor
  · show parGet (parSet _ 1 5 _) 1 i = _
    rw [parGet_parSet _ (by omega) hi, if_neg (by omega)]
    exact parGet_parCount_self s 1 i 1
  · show wbit (parGet (parSet _ 1 5 _) 1 5) 5 = true
    rw [parGet_parSet_self]
    simp [wbit, wrd]

/-- Settles O8: each failing check gives its code, and the counters follow the code. -/
theorem headerRefused : Obligations.HeaderRefused := by
  unfold Obligations.HeaderRefused
  intro s hdr ho
  refine ⟨fun hc => ?_, fun hc => ⟨fun hb => header_turned ho (acceptCode_boot hc hb) (by decide), fun hb hy => ⟨fun hi => ?_,
    fun i hi hk hr => ⟨fun hu => header_turned ho (acceptCode_shape hc hb hy (headerShape_absent hi hk hr hu)) (by decide),
    fun hu hp => ⟨fun hl => ?_, fun hlo hhi => ⟨fun ht => ?_, fun ht hn hl => ?_⟩⟩⟩⟩⟩⟩
  · exact ⟨_, exec_folioHeader_refused ho (acceptCode_badCrc hc) (by decide), turned_refuseHeader s 11,
      (linkError_counts (turnedAway s 11) (by decide) (by decide)).1⟩
  · exact ⟨_, exec_folioHeader_refused ho (acceptCode_shape hc hb hy (headerShape_unlisted hi)) (by decide), turned_refuseHeader s 13,
      parGet_parCount_self (turnedAway s 13) 1 0xD 1⟩
  · have hs := headerShape_present (p := s.part) hi hk hr hu hp
    rw [if_pos hl] at hs
    exact header_turned ho (acceptCode_shape hc hb hy hs) (by decide)
  all_goals
    have hs := headerShape_present (p := s.part) hi hk hr hu hp
    rw [if_neg (by omega)] at hs
    have hcode := acceptCode_tag hc hb hy hs
  · rw [if_pos (by simpa using ht)] at hcode
    exact header_turned ho hcode (by decide)
  · have hany : (s.folio.tags.any fun e => e.tag = hTag hdr) = false := List.any_eq_false.2 fun e he => by simp [hn e he]
    rw [if_neg (by simp [ht, hany]), if_pos hl] at hcode
    refine ⟨_, exec_folioHeader_refused ho hcode (by decide), turned_refuseHeader s 10, ?_⟩
    have hr : refuseHeader 10 (turnedAway s 10) = parCount (turnedAway s 10) 1 0xC 1 := by
      show (if s.op = .boot then _ else _) = _
      rw [if_neg hb]
    rw [hr]
    exact parGet_parCount_self (turnedAway s 10) 1 0xC 1

/-! The end of a packet. -/

/-- The receiver after the packet of the command in reception has ended with FI_FRM low. -/
def packetOver (s : State) (e : TagEntry) : State :=
  updFolio s fun f => { f with lane := .idle, rx := none, accept := if e.len = 0 then f.accept else 0 }

/-- The first entry of a tag, which is in the phase sought, is the first entry of that tag in that phase. -/
theorem find_tag_and {l : List TagEntry} {tag : Nat} {e : TagEntry} {p : TagEntry → Bool}
    (h : l.find? (fun x => x.tag = tag) = some e) (hp : p e = true) :
    l.find? (fun x => x.tag = tag && p x) = some e := by
  induction l with
  | nil => cases h
  | cons a r ih =>
    by_cases ha : a.tag = tag
    · simp only [List.find?_cons, ha, decide_true] at h
      obtain rfl : a = e := by simpa using h
      simp [ha, hp]
    · simp only [List.find?_cons, ha, decide_false] at h
      simp only [List.find?_cons, ha, decide_false, Bool.false_and]
      exact ih h

/-- What the end of a packet does with the command in reception. -/
theorem exec_packetEnd_receiving {s : State} {tag : Nat} {e : TagEntry} (ws : List Word) (crc : Word) (hrx : s.folio.rx = some tag)
    (he : tagEntry s tag = some e) (hp : e.phase = .receiving) (hs : e.spanned = false) :
    exec (.packetEnd ws crc true) s = .next (
      if ws.length ≠ e.len ∨ (e.len ≠ 0 ∧ crc ≠ payloadCrc ws) then failPacket tag (packetOver s e)
      else if s.burn.dead = true ∧ opFast e.opcode = false then completeTag tag stBurnish [] (packetOver s e)
      else setPhase tag .ready ws (packetOver s e)) := by
  have hf : (s.folio.tags.find? fun x => x.tag = tag && decide (x.phase = .receiving)) = some e :=
    find_tag_and he (by simp [hp])
  show Host.Outcome.next _ = _
  rw [hrx]
  simp only [hf, hs, Bool.not_true, Bool.false_eq_true, or_false, if_false, if_true, Bool.not_eq_true']
  rfl

/-- A command not yet replied to completes with its reply, and every other tag is as before. -/
theorem completeTag_replied {s u : State} {tag status : Nat} {ws : List Word} {e : TagEntry} (ht : tag < 1024)
    (he : tagEntry s tag = some e) (hp : e.phase ≠ .replied) (hu : u.folio.tags = s.folio.tags) (hr : u.folio.replies = s.folio.replies) :
    completeTag tag status ws u = answered u e tag status ws ∧ Replied s (completeTag tag status ws u) tag status ws := by
  have hc : completeTag tag status ws u = answered u e tag status ws := by
    have hf : (u.folio.tags.find? fun x => x.tag = tag && decide (x.phase ≠ .replied)) = some e := by
      rw [hu]
      exact find_tag_and he (by simp [hp])
    unfold completeTag
    rw [if_neg (by omega), hf]
    rfl
  refine ⟨hc, ?_⟩
  rw [hc]
  have htag : ∀ n, tagEntry (answered u e tag status ws) n =
      (tagEntry s n).map fun x => if x.tag = tag then { x with phase := .replied, payload := [] } else x := fun n => by
    have h := find_map_tag (l := u.folio.tags) (tag := tag) (n := n)
      (f := fun x => { x with phase := TagPhase.replied, payload := [] }) fun _ => rfl
    rw [hu] at h
    show ((u.folio.tags.map _).find? _) = _
    rw [hu]
    exact h
  refine ⟨⟨e, he, ?_⟩, ?_, fun n hn => ?_⟩
  · show u.folio.replies ++ _ = _
    rw [hr]
  · rw [htag, he]
    simp [tagEntry_tag he]
  · rw [htag]
    cases hx : tagEntry s n with
    | none => rfl
    | some x => simp [tagEntry_tag hx, hn]

/-- A completion changes the Folio unit alone, where the tag is a host's. -/
theorem answered_folio (u : State) (e : TagEntry) (tag status : Nat) (ws : List Word) :
    answered u e tag status ws = { u with folio := (answered u e tag status ws).folio } := rfl

/-- Settles O9: the end of a packet by its three ends, and the two link errors. -/
theorem packetReception : Obligations.PacketReception := by
  unfold Obligations.PacketReception
  intro s
  refine ⟨fun tag e ws crc hrx ht he hp hs => ?_, fun ho => ⟨?_, ?_⟩⟩
  · have hx := exec_packetEnd_receiving ws crc hrx he hp hs
    have hnr : e.phase ≠ .replied := by rw [hp]; decide
    have hgood : ws.length = e.len → (ws ≠ [] → crc = payloadCrc ws) →
        ¬ (ws.length ≠ e.len ∨ (e.len ≠ 0 ∧ crc ≠ payloadCrc ws)) := by
      rintro hl hc (h | ⟨h0, h1⟩)
      · exact h hl
      · exact h1 (hc fun hw => h0 (by rw [← hl, hw]; rfl))
    refine ⟨fun hl hc hd hf => ?_, fun hl hc hd => ?_, fun hbad => ?_⟩
    · rw [if_neg (hgood hl hc), if_pos ⟨hd, hf⟩] at hx
      obtain ⟨ha, hr⟩ := completeTag_replied (u := packetOver s e) (status := stBurnish) (ws := []) ht he hnr rfl rfl
      exact ⟨_, hx, hr, by rw [ha]; rfl, by rw [ha]; rfl⟩
    · rw [if_neg (hgood hl hc), if_neg (by rcases hd with h | h <;> simp [h])] at hx
      have htag : ∀ n, tagEntry (setPhase tag .ready ws (packetOver s e)) n =
          (tagEntry s n).map fun x => if x.tag = tag then { x with phase := .ready, payload := ws } else x := fun n =>
        find_map_tag (l := s.folio.tags) (f := fun x => { x with phase := .ready, payload := ws }) fun _ => rfl
      refine ⟨_, hx, ?_, fun n hn => ?_, rfl, rfl, rfl, rfl⟩
      · rw [htag, he]
        simp [tagEntry_tag he]
      · rw [htag]
        cases hn' : tagEntry s n with
        | none => rfl
        | some x => simp [tagEntry_tag hn', hn]
    · have hb : ws.length ≠ e.len ∨ (e.len ≠ 0 ∧ crc ≠ payloadCrc ws) := by
        rcases hbad with h | ⟨hw, h⟩
        · exact .inl h
        · by_cases hl : ws.length = e.len
          · exact .inr ⟨fun h0 => hw (List.length_eq_zero_iff.1 (hl.trans h0)), h⟩
          · exact .inl hl
      rw [if_pos hb] at hx
      obtain ⟨ha, hr⟩ := completeTag_replied (u := linkError (packetOver s e) 9) (status := stPayloadCrc) (ws := []) ht he hnr rfl rfl
      obtain ⟨h9, h5⟩ := linkError_counts (packetOver s e) (i := 9) (by decide) (by decide)
      refine ⟨_, hx, hr, ?_, ?_, ?_, ?_⟩ <;> unfold failPacket <;> rw [ha]
      · exact h9
      · exact h5
      · rfl
      · rfl
  · obtain ⟨h10, h5⟩ := linkError_counts (updFolio s fun f => { f with lane := .idle, accept := 0 }) (i := 10) (by decide) (by decide)
    exact ⟨_, congrArg Host.Outcome.next (if_pos ho), rfl, h10, h5, rfl⟩
  · obtain ⟨h11, h5⟩ := linkError_counts (updFolio s fun f => { f with lane := .ignore }) (i := 11) (by decide) (by decide)
    exact ⟨_, congrArg Host.Outcome.next (if_pos ho), rfl, h11, h5, rfl⟩

end Sys2Proof.Proofs
end

section
/-!
PROOFS. Attention causes through events (R92, R132): no event and no reaction clears a bit of ATTN_CAUSE. `EvStep` leaves the parameters
of unit 0x01 open, so this is shown for each operation between the capture of an event and the end of its reaction.
-/
namespace Sys2Proof.Proofs
open Sys2Proof.Machine Sys2Proof.Safety Sys2Proof.Laws

/-- Every bit of ATTN_CAUSE that is set in `s` is set in `t`. -/
def AttnKept (s t : State) : Prop := ∀ n, wbit (parGet s 1 5) n = true → wbit (parGet t 1 5) n = true

theorem AttnKept.refl (s : State) : AttnKept s s := fun _ h => h

theorem AttnKept.trans {s t u : State} (h : AttnKept s t) (k : AttnKept t u) : AttnKept s u := fun n hn => k n (h n hn)

theorem attnKept_of_par {s t : State} (h : t.par = s.par) : AttnKept s t := fun n hn => by
  unfold parGet at *
  rw [h]
  exact hn

theorem attnKept_parSet (s : State) {u i : Nat} (v : Word) (hi : i < 65536) (h : ¬ (1 = u ∧ 5 = i)) :
    AttnKept s (parSet s u i v) := fun n hn => by
  rw [parGet_parSet s hi (by decide), if_neg h]
  exact hn

theorem attnKept_parOr (s : State) (m : Word) : AttnKept s (parOr s 1 5 m) := fun n hn => by
  rw [parOr, parGet_parSet_self]
  simp_all [wbit]

theorem wbit_parOr (s : State) (u i : Nat) {m : Word} {n : Nat} (h : wbit m n = true) : wbit (parGet (parOr s u i m) u i) n = true := by
  rw [parOr, parGet_parSet_self]
  simp_all [wbit]

theorem attnKept_updDrive (s : State) (d : Nat) (f : Drive → Drive) : AttnKept s (s.updDrive d f) := attnKept_of_par rfl

theorem attnKept_capTrigger (e : Event) (b : Nat) (s : State) : AttnKept s (capTrigger e b s) :=
  rel_ite (attnKept_of_par rfl) (.refl s)

theorem attnKept_recordEvent (s : State) (e : Event) : AttnKept s (recordEvent s e) := by
  unfold recordEvent
  extract_lets _ queued marked named
  have hmarked : AttnKept queued marked := rel_ite (attnKept_parOr queued _) (.refl queued)
  have hnamed : AttnKept marked named := by
    unfold named
    cases eventDrive e with
    | none => exact .refl marked
    | some d => exact attnKept_updDrive marked d _
  exact (attnKept_of_par (s := s) (t := queued) rfl).trans (hmarked.trans (hnamed.trans (forUpTo_rel AttnKept.refl AttnKept.trans
    (fun b _ u => attnKept_capTrigger e b u) named)))

theorem attnKept_record (s : State) (code i : Nat) (args : List Word) : AttnKept s (record s code i args) :=
  attnKept_recordEvent s _

theorem attnKept_recordUntested (s : State) (code i : Nat) (args : List Word) : AttnKept s (recordUntested s code i args) :=
  rel_ite (.refl s) (attnKept_record s code i args)

theorem attnKept_parCount (s : State) {i : Nat} (n : Nat) (hi : i < 65536) : AttnKept s (parCount s 10 i n) :=
  attnKept_parSet s _ hi (by omega)

theorem attnKept_noteCorrected (s : State) (a : Nat) : AttnKept s (noteCorrected s a) := by
  unfold noteCorrected
  extract_lets g quiet
  refine rel_ite ?_ (.refl s)
  exact (attnKept_of_par (t := { s with mem := { s.mem with ceTick := tblSet s.mem.ceTick none g (some s.now) } }) rfl).trans
    (attnKept_recordUntested _ _ _ _)

theorem attnKept_eccRead (s : State) (a : Nat) (back raced : Bool) : AttnKept s (eccRead s a back raced) := by
  have hk := memOf_lt a
  unfold eccRead
  extract_lets k can single multi
  split
  · exact .refl s
  · have h1 : AttnKept s single := (attnKept_parCount s 1 (by omega)).trans (attnKept_noteCorrected _ a)
    refine h1.trans (rel_ite (.refl _) (rel_ite (attnKept_parCount _ 1 (by decide)) ?_))
    exact (attnKept_of_par (t := setErr single a .none) rfl).trans (attnKept_parCount _ 1 (by decide))
  · have h1 : AttnKept s multi := (attnKept_parCount s 1 (by omega)).trans (attnKept_recordUntested _ _ _ _)
    refine h1.trans (rel_ite (.refl _) (rel_ite (attnKept_parCount _ 1 (by decide)) ?_))
    exact (attnKept_of_par (t := setMark (setErr multi a .none) a .bite) rfl).trans (attnKept_parCount _ 1 (by decide))

theorem attnKept_demandRead (a : Nat) (s : State) : AttnKept s (demandRead s a) := by
  have hmap : AttnKept s (mapRead s a) := rel_ite (attnKept_eccRead s _ _ _) (.refl s)
  exact hmap.trans (rel_ite (.refl _) (attnKept_eccRead _ a _ _))

theorem attnKept_readCells (l : List Nat) (s : State) : AttnKept s (readCells l s) :=
  rel_ite (.refl s) (forEach_rel AttnKept.refl AttnKept.trans attnKept_demandRead l s)

theorem attnKept_setLatch (s : State) (code i : Nat) (resetOnly : Bool) : AttnKept s (setLatch s code i resetOnly) :=
  rel_ite (.refl s) (attnKept_of_par rfl)

theorem attnKept_stopoutConsumes (d : Nat) (s : State) : AttnKept s (stopoutConsumes d s) := by
  unfold stopoutConsumes
  split
  · exact .refl s
  next i _ =>
    extract_lets a m exempt bitten
    have hbitten : AttnKept s bitten :=
      (attnKept_of_par (t := exempt) rfl).trans (attnKept_parCount exempt 1 (by decide))
    exact hbitten.trans (rel_ite (.refl _) ((attnKept_of_par (t := noteBite bitten 9 a) rfl).trans
      ((attnKept_record _ _ 9 _).trans (attnKept_setLatch _ _ 9 false))))

theorem attnKept_safeEntry (s : State) (d ss code : Nat) : AttnKept s (safeEntry s d ss code) :=
  rel_ite (attnKept_of_par rfl) (attnKept_record s _ d _)

theorem par_noteSpeeds (s : State) : (noteSpeeds s).par = s.par := by
  obtain ⟨_, hD⟩ := (noteSpeeds_noted s).2
  rw [hD]

theorem par_settlePair (s : State) (p : Nat) : (settlePair s p).par = s.par := by
  obtain ⟨⟨_, _, h⟩, _⟩ := only_settlePair s p
  rw [h]

theorem attnKept_orderRing (r : Nat) (s : State) : AttnKept s (orderRing r s) := attnKept_of_par rfl

theorem attnKept_placeDrive (d ss code : Nat) (byEvent : Bool) (s : State) : AttnKept s (placeDrive d ss code byEvent s) := by
  unfold placeDrive
  extract_lets v n placed entered stopped settled
  have hplaced : AttnKept s placed := attnKept_of_par (par_noteSpeeds _)
  have hentered : AttnKept placed entered := attnKept_safeEntry placed d n code
  have hsettled : AttnKept stopped settled :=
    forEach_rel AttnKept.refl AttnKept.trans (fun p u => attnKept_of_par (par_settlePair u p)) _ stopped
  refine rel_ite (.refl s) (rel_ite (rel_ite ?_ (.refl s)) ?_)
  · exact (attnKept_updDrive s d _).trans (attnKept_safeEntry _ d ss code)
  · exact hplaced.trans (hentered.trans ((attnKept_of_par (t := stopped) rfl).trans (hsettled.trans
      (forEach_rel AttnKept.refl AttnKept.trans attnKept_orderRing _ settled))))

theorem attnKept_setOp (s : State) (o : OpState) : AttnKept s (setOp s o) := by
  refine rel_ite (.refl s) ?_
  exact (attnKept_record s 1 0 [wrd (opCode s.op), wrd (opCode o)]).trans (attnKept_of_par rfl)

theorem attnKept_enterSafe (ds : List Nat) (ss code : Nat) (s : State) : AttnKept s (enterSafe ds ss code s) := by
  unfold enterSafe
  extract_lets placed
  have hplaced : AttnKept s placed := forUpTo_rel AttnKept.refl AttnKept.trans (fun d _ u => by
    dsimp only
    have hread : AttnKept u (if hasArch (u.drive d) then readCells ((settingIdx d).map par9Addr) u else u) :=
      rel_ite (attnKept_readCells _ u) (.refl u)
    exact hread.trans (rel_ite ((attnKept_stopoutConsumes d _).trans (attnKept_placeDrive d 1 code true _))
      (attnKept_placeDrive d _ code true _))) s
  exact hplaced.trans ((attnKept_setOp placed .safe).trans
    (forUpTo_rel AttnKept.refl AttnKept.trans (fun p _ u => attnKept_of_par (par_settlePair u p)) _))

theorem attnKept_startStop (d : Nat) (s : State) : AttnKept s (startStop d s) :=
  rel_ite (attnKept_updDrive s d _) (.refl s)

theorem attnKept_handoverReact (code : Nat) (s : State) : AttnKept s (handoverReact code s) := by
  unfold handoverReact
  have h := attnKept_enterSafe [] 1 code s
  generalize enterSafe [] 1 code s = u at h ⊢
  exact h.trans (attnKept_of_par rfl)

theorem attnKept_classD {s u : State} (h : AttnKept s u) :
    AttnKept s { u with so := { u.so with classD := true, ownN := false } } := h

theorem attnKept_applyReaction (r : Reaction) (code i : Nat) (s : State) : AttnKept s (applyReaction r code i s) := by
  unfold applyReaction
  extract_lets latched safe marked so
  have hlatched : AttnKept s latched := by
    unfold latched
    cases r.latch with
    | none => exact .refl s
    | some ro => exact attnKept_setLatch s code i ro
  refine rel_ite (.refl s) (hlatched.trans (rel_ite (attnKept_handoverReact code latched) ?_))
  cases r.react with
  | n => exact .refl latched
  | t => exact forUpTo_rel AttnKept.refl AttnKept.trans (fun d _ u => attnKept_startStop d u) latched
  | p => exact attnKept_enterSafe [] 1 code latched
  | s ds => exact attnKept_enterSafe ds 2 code latched
  | d =>
    have hsafe : AttnKept latched safe := attnKept_enterSafe [] 1 code latched
    exact attnKept_classD (hsafe.trans
      (forUpTo_rel AttnKept.refl AttnKept.trans (fun d _ v => rel_ite (attnKept_updDrive v d _) (.refl v)) safe))

theorem attnKept_raise (s : State) (code i : Nat) (args : List Word) : AttnKept s (raise s code i args) :=
  (attnKept_record s code i args).trans (attnKept_applyReaction _ code i _)

end Sys2Proof.Proofs
end

section
/-!
PROOFS. Supervision of the Folio port (R93, R94) and its reply lane (R88 to R90).
-/
namespace Sys2Proof.Proofs
open Sys2Proof.Machine Sys2Proof.Safety Sys2Proof.Laws

/-- An event that waits in one input queue waits in an equal one. -/
theorem raised_of_book {s t u : State} {code i : Nat} {args : List Word} (h : Raised s t code i args) (hb : u.book = t.book) :
    Raised s u code i args := by
  unfold Raised at *
  rw [hb]
  exact h

/-! Loss and return of FI_CLK, and HOST_SILENT. -/

/-- The receiver once its clock is lost, with nothing in reception. -/
def clockGone (s : State) : State :=
  updFolio (updTim s fun t => { t with td3 := false }) fun f => { f with lane := .lost, rx := none }

theorem exec_folioClockLost_idle {s : State} (hl : s.folio.lane ≠ .lost) (ha : s.pwr.sleep = .awake) (hr : s.folio.inReset = false)
    (hx : s.folio.rx = none) : exec (.folioClockLost false false) s =
      .next (updFolio (raise (clockGone s) 0x0102 0 []) fun f => { f with accept := 0 }) := by
  show Host.Outcome.next _ = _
  rw [if_neg hl]
  simp only [updTim_pwr, updTim_folio, ha, hr, hx, ne_eq, not_true_eq_false, Bool.false_eq_true, or_self, if_false, Bool.false_and]
  rfl

/-- The interval of HOST_SILENT is marked over, with its attention cause. -/
def silenceNoted (s : State) : State := setAttn (updFolio s fun f => { f with hostSilent := true }) 4

theorem hostSilent_of_evStep {s t : State} (h : EvStep s t) : t.folio.hostSilent = s.folio.hostSilent := by
  obtain ⟨⟨_, _, _, _, _, _, _, _, _, _, _, _, _, _, _, _, _, _, _, rfl⟩, _, _⟩ := h
  rfl

theorem exec_hostSilent_due {s : State} (ho : inService s.op = true) (ha : s.pwr.sleep = .awake) (hr : s.pwr.resetting = none)
    (hs : s.folio.hostSilent = false) (ht : parField s 1 3 15 0 ≠ 0) (hd : s.folio.hostBase + 3880 * parField s 1 3 15 0 ≤ s.now) :
    exec .hostSilent s = .next (raise (silenceNoted s) 0x0103 0 [parGet s 1 3]) :=
  congrArg Host.Outcome.next (if_pos ⟨ho, ha, hr, by simp [hs], ht, hd⟩)

/-- Settles O10: an event and its reaction leave what the statement names, and clear no attention cause. -/
theorem hostSupervision : Obligations.HostSupervision := by
  unfold Obligations.HostSupervision
  intro s
  refine ⟨fun hl ha hr hx => ?_, fun hl => ?_, fun ho ha hr hs ht hd => ?_⟩
  · have hev : EvStep (clockGone s) (raise (clockGone s) 0x0102 0 []) := ev_raise (.refl _)
    have hr' : Raised (clockGone s) (raise (clockGone s) 0x0102 0 []) 0x0102 0 [] := raise_raises (clockGone s) (by decide) 0 []
    have hx' := exec_folioClockLost_idle hl ha hr hx
    generalize raise (clockGone s) 0x0102 0 [] = u at hev hr' hx'
    exact ⟨_, hx', raised_of (raised_of_book hr' rfl) rfl rfl, hev.folio_lane,
      congrArg Timing.td3 hev.tim, hev.folio_tags, hev.folio_replies, hev.nv, hev.mem_cells⟩
  · show Host.Outcome.next (updFolio (updTim s fun t => { t with td3 := true }) fun f =>
      { f with lane := if f.lane = .lost then .resync else f.lane }) = _
    simp [updFolio, updTim, hl]
  · have hev : EvStep (silenceNoted s) (raise (silenceNoted s) 0x0103 0 [parGet s 1 3]) := ev_raise (.refl _)
    have hr' := raise_raises (silenceNoted s) (code := 0x0103) (by decide) 0 [parGet s 1 3]
    have ha' : wbit (parGet (silenceNoted s) 1 5) 4 = true := wbit_parOr _ 1 5 (by decide)
    exact ⟨_, exec_hostSilent_due ho ha hr hs ht hd, raised_of hr' rfl rfl,
      hostSilent_of_evStep hev, attnKept_raise _ _ _ _ 4 ha', hev.folio_tags, hev.nv, hev.mem_cells⟩

/-! The reply lane. -/

theorem exec_packetSend_free {s : State} (hf : laneFree s = true) (hr : s.folio.rateCh = .none) :
    exec .packetSend s = .next (sendNext s) := by
  show Host.Outcome.next _ = _
  rw [hf, hr]
  rfl

theorem sendNext_event {s : State} {e : LogEntry} {es : List LogEntry} (he : s.folio.events = e :: es) (hl : lostWaiting s = 0)
    (hr : s.folio.evRun < 8 ∨ s.folio.replies = []) :
    sendNext s = { s with folio := { s.folio with onLane := some (.event e), laneTick := s.now, evRun := s.folio.evRun + 1 } } := by
  unfold sendNext
  cases hrep : s.folio.replies with
  | nil => simp only [hl, he, if_true, List.head?_cons, updFolio]
  | cons r rs =>
    have h8 : s.folio.evRun < 8 := hr.resolve_right (by simp [hrep])
    simp only [hl, he, if_true, List.head?_cons, updFolio, h8]

theorem sendNext_reply {s : State} {r : Reply} {rs : List Reply} (hr : s.folio.replies = r :: rs)
    (he : s.folio.events = [] ∨ lostWaiting s ≠ 0 ∨ 8 ≤ s.folio.evRun) :
    sendNext s = { s with folio := { s.folio with onLane := some (.reply r), laneTick := s.now, evRun := 0 } } := by
  unfold sendNext
  by_cases hl : lostWaiting s = 0
  · cases hev : s.folio.events with
    | nil => simp only [hl, hr, hev, if_true, List.head?_nil, updFolio]
    | cons e es =>
      have h8 : ¬ s.folio.evRun < 8 := by
        rcases he with h | h | h
        · simp [hev] at h
        · exact absurd hl h
        · omega
      simp only [hl, hr, hev, if_true, List.head?_cons, updFolio, h8, if_false]
  · simp only [hl, hr, if_false, updFolio]

/-- What the launch of the last nibble of a packet does. -/
def packetGone (p : Packet) (s : State) : State :=
  match p with
  | .reply r => replySent r s
  | .event _ => eventFreed (updFolio s fun f => { f with events := f.events.tail, onLane := none, laneEnd := some s.now })

theorem exec_packetSent_whole {s : State} {p : Packet} (hp : s.folio.onLane = some p)
    (hc : foCycles s (laneNibbles (packetWords p)).length s.folio.laneTick = true) :
    exec .packetSent s = .next (packetGone p s) := by
  show Host.Outcome.next _ = _
  rw [hp]
  simp only [hc, Bool.not_true, Bool.false_eq_true, if_false]
  cases p <;> rfl

/-- A reply without a rate change, a reset or a refusal span behind it frees its entry alone. -/
theorem replySent_plain {s : State} (r : Reply) (hd : s.pwr.resetDue = none) (hc : s.folio.rateCh = .none) (hs : s.folio.span = none) :
    replySent r s = updFolio s fun f => { f with
      tags := f.tags.filter fun e => e.tag ≠ r.tag, replies := f.replies.tail, onLane := none, laneEnd := some s.now } := by
  unfold replySent
  simp only [updFolio_folio, hs, hc, reduceCtorEq, if_false, resetAfterReply, updFolio_pwr, hd]
  simp [updFolio, hs]

/-- The entries but those of one tag. -/
theorem find_filter_tag (l : List TagEntry) (tag n : Nat) :
    (l.filter fun e => e.tag ≠ tag).find? (fun e => e.tag = n) = if n = tag then none else l.find? fun e => e.tag = n := by
  rw [List.find?_filter]
  split
  next h => exact List.find?_eq_none.2 fun e _ => by simp [h]
  next h =>
    refine congrArg (fun p => l.find? p) (funext fun e => ?_)
    by_cases he : e.tag = n
    · simp [he, h]
    · simp [he]

/-- Settles O11: what is sent next, and what the end of a packet frees. -/
theorem replyLane : Obligations.ReplyLane := by
  unfold Obligations.ReplyLane
  intro s
  refine ⟨fun hf hr => ⟨fun e es he hl hrun => ?_, fun r rs hrep he => ?_⟩, fun p hp hc => ?_,
    fun r hp hc hd _ hch hs => ?_, fun e hp hc hlost _ _ => ?_, fun r n hch => ?_, fun hch => ?_⟩
  · rw [exec_packetSend_free hf hr, sendNext_event he hl hrun]
  · rw [exec_packetSend_free hf hr, sendNext_reply hrep he]
  · show Host.Outcome.next _ = _
    rw [hp]
    simp only [hc, Bool.not_false, if_true]
  · refine ⟨_, (exec_packetSent_whole hp hc).trans (congrArg Host.Outcome.next (replySent_plain r hd hch hs)), rfl, rfl, rfl, ?_, fun n hn => ?_, rfl⟩
    · exact (find_filter_tag s.folio.tags r.tag r.tag).trans (if_pos rfl)
    · exact (find_filter_tag s.folio.tags r.tag n).trans (if_neg hn)
  · exact ⟨_, (exec_packetSent_whole hp hc).trans (congrArg Host.Outcome.next (if_pos hlost)), rfl, rfl, rfl, rfl⟩
  · show Host.Outcome.next _ = _
    rw [hch]
    exact apply_ite Host.Outcome.next (s.now < s.folio.rateTick + 800) s _
  · show Host.Outcome.next _ = _
    rw [hch]
    exact apply_ite Host.Outcome.next (s.now < s.folio.rateTick + 400) s _

end Sys2Proof.Proofs
end

section
/-!
PROOFS. Writes of parameters (R105, R110, R111): SET_PARAM and SET_PARAM_BLOCK of one plain parameter, and the rows of the table that
write one parameter. A write that nothing refuses lands by `landParam`; which bits it takes is `merged`.
-/
namespace Sys2Proof.Proofs
open Sys2Proof.Machine Sys2Proof.Safety Sys2Proof.Laws

/-- The word that takes the bits of `m` from `v` and keeps the others of `old`. -/
def merged (old m v : Word) : Word := (old &&& ~~~ m) ||| (v &&& m)

theorem merged_and (old m v : Word) : merged old m v &&& m = v &&& m := landed

theorem merged_all (old v : Word) : merged old 0xFFFFFFFF v = v := by
  simpa [merged] using BitVec.and_allOnes (x := v)

theorem wbit_merged {old m v : Word} {n : Nat} (h : wbit m n = true) : wbit (merged old m v) n = wbit v n := by
  simp only [wbit, merged, BitVec.getLsbD_or, BitVec.getLsbD_and, BitVec.getLsbD_not] at *
  simp [h]

theorem field_merged {old m v : Word} {hi lo : Nat} (hh : hi < 32)
    (hm : ∀ k, k < 32 → lo ≤ k → k ≤ hi → m.getLsbD k = true) : field (merged old m v) hi lo = field v hi lo :=
  field_landed hh hm

/-- A word without a reserved bit is what the other bits of it are. -/
theorem and_of_unreserved {v m : Word} (h : hasBits v (~~~ m) = false) : v &&& m = v := by
  have h0 : v &&& ~~~ m = 0 := by simpa [hasBits] using h
  ext k hk
  have hb := congrArg (fun w => w[k]) h0
  simp at hb
  cases hv : v[k] <;> simp_all

/-! SET_PARAM and SET_PARAM_BLOCK. -/

/-- The units whose parameters are only stored. -/
def storedUnit (u : Nat) : Prop := u ∈ [0, 2, 6, 11, 12, 14]

theorem storedUnit_cases {u : Nat} (h : storedUnit u) : u = 0 ∨ u = 2 ∨ u = 6 ∨ u = 11 ∨ u = 12 ∨ u = 14 := by
  simpa [storedUnit] using h

theorem landParam_stored {u : Nat} (h : storedUnit u) (tag : Option Nat) (s : State) (i : Nat) (v : Word) :
    landParam tag s u i v = parSet s u i v := by
  rcases storedUnit_cases h with rfl | rfl | rfl | rfl | rfl | rfl <;> rfl

/-- No check of these units looks at the tag table. -/
theorem writeCodes_begun (s : State) (tag : Nat) (a v : Word) (h : storedUnit (adUnit a)) :
    writeCodes (begun s tag) a v = writeCodes s a v := by
  have hc : checkParam (begun s tag) (adUnit a) (adIndex a) v = checkParam s (adUnit a) (adIndex a) v := by
    rcases storedUnit_cases h with h | h | h | h | h | h <;> rw [h] <;> rfl
  unfold writeCodes
  dsimp only
  rw [hc]
  rfl

theorem landValue_plain (s : State) {u i : Nat} {p : ParamInfo} (v : Word) (hc : p.counter = false) (hw : p.w1c = 0) :
    landValue s u i p v = merged (parGet s u i) (p.rw ||| p.rws ||| p.wo) v := by
  simp [landValue, hc, hw, merged]

theorem adIndex_lt (a : Word) : adIndex a < 65536 := Nat.mod_lt _ (by decide)

/-- A stored value leaves what `Stored` says. -/
theorem stored_parSet (s : State) (p : ParamInfo) (a v : Word) :
    Stored s (parSet s (adUnit a) (adIndex a) (merged (parGet s (adUnit a) (adIndex a)) (p.rw ||| p.rws ||| p.wo) v)) p a v :=
  ⟨parGet_parSet_self .., others_parSet (adIndex_lt a)⟩

theorem anyCode_of_none {s : State} {a v : Word} (h : ∀ x ∈ writeCodes s a v, x.1 = false) (c : Nat) :
    anyCode s [(a, v)] c = false := by
  simp only [anyCode, List.any_cons, List.any_nil, Bool.or_false, List.any_eq_false]
  intro x hx
  simp [h x hx]

/-- One write that no code refuses lands. -/
theorem writeAllParams_one {s : State} {a v : Word} {p : ParamInfo} (tag : Option Nat) (h : ∀ x ∈ writeCodes s a v, x.1 = false)
    (hp : paramInfo (adUnit a) (adIndex a) = some p) (hu : storedUnit (adUnit a)) (hc : p.counter = false) (hw : p.w1c = 0) :
    writeAllParams tag [(a, v)] s = .done stOk []
      (parSet s (adUnit a) (adIndex a) (merged (parGet s (adUnit a) (adIndex a)) (p.rw ||| p.rws ||| p.wo) v)) := by
  unfold writeAllParams
  simp only [anyCode_of_none h, Bool.false_eq_true, if_false, forEach, hostWrite, hp, landParam_stored hu, landValue_plain s v hc hw]

/-- A command whose body stores a parameter changes the Folio unit and the parameter store alone. -/
theorem completes_storing {s : State} {tag op u i : Nat} {ws : List Word} {v : Word} {body : List Word → State → CmdRes}
    (h : Starts s tag op ws) (hb : body ws (begun s tag) = .done stOk [] (parSet (begun s tag) u i v)) :
    ∃ t, Host.Outcome.next (runCommand op tag body s) = (.next t : Host.Outcome State Fault Refusal) ∧ Replied s t tag 0 [] ∧
      t.par = (parSet s u i v).par ∧ t = { s with folio := t.folio, par := t.par } := by
  obtain ⟨t, ht, hr, f, rfl⟩ := completes h hb rfl rfl
  exact ⟨_, by rw [ht], hr, rfl, rfl⟩

theorem stored_congr {s t u : State} {p : ParamInfo} {a v : Word} (h : Stored s t p a v) (hp : u.par = t.par) : Stored s u p a v := by
  unfold Stored OthersKept parGet at *
  rw [hp]
  exact h

/-- An entry that names no parameter is refused with BAD_PARAM alone. -/
theorem writeCodes_unnamed (s : State) {a v : Word} (h : paramInfo (adUnit a) (adIndex a) = none) :
    writeCodes s a v = [(true, stBadParam)] := by
  unfold writeCodes
  simp only [h]
  split <;> rfl

/-- A payload of one pair is one write. -/
theorem bodySetParam_pair (tag : Nat) (s : State) (a v : Word) :
    bodySetParam tag [a, v] s = writeAllParams (laneTag tag) [(a, v)] s := if_neg (by simp)

theorem bodySetParam_unnamed (tag : Nat) {s : State} {a v : Word} (h : paramInfo (adUnit a) (adIndex a) = none) :
    bodySetParam tag [a, v] s = refuse stBadParam s := by
  have hany : ∀ c, anyCode s [(a, v)] c = decide (stBadParam = c) := fun c => by simp [anyCode, writeCodes_unnamed s h]
  rw [bodySetParam_pair]
  unfold writeAllParams
  simp only [hany]
  rfl

theorem bodySetParam_odd (tag : Nat) {s : State} {a v : Word} (h : ∀ x ∈ writeCodes s a v, x.1 = false) :
    bodySetParam tag [a, v, 0] s = refuse stBadParam s := by
  unfold bodySetParam
  rw [if_pos (by simp)]
  show (if anyCode s [(a, v)] stState then _ else if anyCode s [(a, v)] stDenied then _ else _) = _
  simp only [anyCode_of_none h, Bool.false_eq_true, if_false]

/-- A block of one value is the entry at its address. -/
theorem bodySetParamBlock_one (tag : Nat) (s : State) (a v : Word) :
    bodySetParamBlock tag [a, v] s = writeAllParams (laneTag tag) [(a, v)] s := by
  have hl : ((List.range [v].length).map fun k => (a + wrd k, [v].getD k 0)) = [(a, v)] := by simp [wrd]
  have ht : [(a, v)].take (0x10000 - adIndex a) = [(a, v)] := List.take_of_length_le (by have := adIndex_lt a; simp; omega)
  unfold bodySetParamBlock
  simp only [pw, List.getD_cons_zero, List.tail_cons, hl, ht, Nat.lt_irrefl, if_false]

/-- Settles O12: the entry is stored by both commands, and refused where it names nothing or has no value. -/
theorem setParameters : Obligations.SetParameters := by
  unfold Obligations.SetParameters
  intro s tag a v p hcodes hu hp hc hw
  have hcodes' : ∀ x ∈ writeCodes (begun s tag) a v, x.1 = false := by rwa [writeCodes_begun s tag a v hu]
  have hone := writeAllParams_one (laneTag tag) hcodes' hp hu hc hw
  refine ⟨fun h => ?_, fun h => ?_, fun a' ha' h => ?_, fun h => ?_⟩
  · obtain ⟨t, ht, hr, hpar, hf⟩ := completes_storing h (body := bodySetParam tag) ((bodySetParam_pair tag _ a v).trans hone)
    exact ⟨t, ht, hr, stored_congr (stored_parSet s p a v) hpar, hf⟩
  · obtain ⟨t, ht, hr, hpar, hf⟩ :=
      completes_storing h (body := bodySetParamBlock tag) ((bodySetParamBlock_one tag _ a v).trans hone)
    exact ⟨t, ht, hr, stored_congr (stored_parSet s p a v) hpar, hf⟩
  · exact completes_reading h (body := bodySetParam tag) (bodySetParam_unnamed tag ha')
  · exact completes_reading h (body := bodySetParam tag) (bodySetParam_odd tag hcodes')

/-! Rows that write one parameter. -/

/-- A row that writes one parameter, with what the table says of that parameter. -/
theorem writeRow_known {s : State} {u i : Nat} {v : Word} {p : ParamInfo} (h : WritePasses s u i v) (hp : paramInfo u i = some p) :
    hasBits v p.rsv = false ∧ writeRow u i v s = landParam none s u i (landValue s u i p v) := by
  obtain ⟨q, hq, hr, _, hw⟩ := writeRow_lands h
  obtain rfl : q = p := Option.some.inj (hq.symm.trans hp)
  exact ⟨hr, hw⟩

/-- The same for a parameter whose writable bits are RW. -/
theorem writeRow_rw {s : State} {u i : Nat} {v m r : Word} (h : WritePasses s u i v) (hp : paramInfo u i = pRW m r) :
    v &&& m = v ∧ writeRow u i v s = landParam none s u i (merged (parGet s u i) m v) := by
  obtain ⟨hr, hw⟩ := writeRow_known h hp
  exact ⟨and_of_unreserved hr, by rw [hw, land_rw]; rfl⟩

/-- The same for a parameter whose writable bits are RWS. -/
theorem writeRow_rws {s : State} {u i : Nat} {v m r : Word} (h : WritePasses s u i v) (hp : paramInfo u i = pRWS m r) :
    v &&& m = v ∧ writeRow u i v s = landParam none s u i (merged (parGet s u i) m v) := by
  obtain ⟨hr, hw⟩ := writeRow_known h hp
  exact ⟨and_of_unreserved hr, by rw [hw, land_rws]; rfl⟩

/-- A word stored at an index, with every other parameter as it was. -/
theorem parSet_frame (s : State) (u : Nat) {i : Nat} (v : Word) (hi : i < 65536) :
    parGet (parSet s u i v) u i = v ∧ OthersKept s (parSet s u i v) u i ∧ parSet s u i v = { s with par := (parSet s u i v).par } :=
  ⟨parGet_parSet_self .., others_parSet hi, rfl⟩

/-- The parameters of a map: MAP_CFG and four words of its range. -/
theorem paramInfo_map {m w : Nat} (hm : m < 4) (hw : w < 5) :
    paramInfo 7 (0x20 + 8 * m + w) = pRWS (if w = 0 then 0x00FF3F13 else 0xFFFFFFFF) (if w = 0 then BitVec.ofNat 32 m else 0) := by
  interval_cases m <;> interval_cases w <;> rfl

theorem paramInfo_drvPos {d : Nat} (hd : d < 4) : paramInfo 4 (0x10 + d) = pRWS 0xFFFFFFFF 0x030400FF := by
  interval_cases d <;> rfl

theorem paramInfo_emuCtrl {n : Nat} (hn : n < 2) : paramInfo 4 (0x20 + n) = pRW 0xC1FFFFFF 0x1001 := by
  interval_cases n <;> rfl

theorem paramInfo_threshold {w : Nat} (hw : w < 2) :
    paramInfo 14 (2 + w) = pRWS 0xFFFFFFFF (if w = 0 then 0xFFB0FFA6 else 0x01360122) := by
  interval_cases w <;> rfl

theorem write07_map {m w : Nat} (hm : m < 4) (hw : w < 5) (s : State) (v : Word) :
    write07 s (0x20 + 8 * m + w) v = parSet s 7 (0x20 + 8 * m + w) v := by
  unfold write07
  rw [if_neg (by omega), if_neg (by omega), if_neg (by omega)]

theorem write04_drvPos {d : Nat} (hd : d < 4) (s : State) (v : Word) : write04 s (0x10 + d) v =
    { parSet s 4 (0x10 + d) v with pos := { s.pos with mism := tblSet s.pos.mism 0 d 0 } } := by
  unfold write04
  simp only [if_pos (show 0x10 ≤ 0x10 + d ∧ 0x10 + d ≤ 0x13 by omega), Nat.add_sub_cancel_left]
  rfl

theorem write04_emuCtrl {n : Nat} (hn : n < 2) (s : State) (v : Word) : write04 s (0x20 + n) v =
    (parSet s 4 (0x20 + n) v).updEmu n fun e => { e with fresh := true } := by
  unfold write04
  simp only [if_neg (show ¬ (0x10 ≤ 0x20 + n ∧ 0x20 + n ≤ 0x13) by omega),
    if_pos (show 0x20 + n = 0x20 ∨ 0x20 + n = 0x21 by omega), Nat.add_sub_cancel_left]

/-- Settles O14: each row stores its word by `merged`, and three of them do one thing more. -/
theorem plainWrites : Obligations.PlainWrites := by
  unfold Obligations.PlainWrites
  intro s v
  refine ⟨fun h => ?_, fun h => ?_, fun w hw h => ?_, fun m w hm hw h => ?_, fun d hd h => ?_, fun n hn h => ?_, fun h => ?_,
    fun u i p hu h hp hc hw => ?_⟩
  · obtain ⟨hg, ho, hf⟩ := parSet_frame s 1 (i := 2) (merged (parGet s 1 2) 0x1FF v) (by decide)
    exact ⟨_, congrArg Host.Outcome.next (writeRow_rws h rfl).2, (congrArg (· &&& 0x1FF) hg).trans (merged_and ..), ho, hf⟩
  · obtain ⟨hg, ho, hf⟩ := parSet_frame s 0 (i := 7) (merged (parGet s 0 7) 0x1 v) (by decide)
    exact ⟨_, congrArg Host.Outcome.next (writeRow_rw h rfl).2, (congrArg (wbit · 0) hg).trans (wbit_merged (by decide)), ho, hf⟩
  · have hx := (writeRow_rws h (paramInfo_threshold hw)).2
    rw [merged_all] at hx
    obtain ⟨hg, ho, hf⟩ := parSet_frame s 14 (i := 2 + w) v (by omega)
    exact ⟨_, congrArg Host.Outcome.next ((if_pos hw).trans hx), hg, ho, hf⟩
  · obtain ⟨hv, hx⟩ := writeRow_rws h (paramInfo_map hm hw)
    have hx := hx.trans (write07_map hm hw s _)
    obtain ⟨hg, ho, hf⟩ := parSet_frame s 7 (i := 0x20 + 8 * m + w)
      (merged (parGet s 7 (0x20 + 8 * m + w)) (if w = 0 then 0x00FF3F13 else 0xFFFFFFFF) v) (by omega)
    exact ⟨_, congrArg Host.Outcome.next ((if_pos ⟨hm, hw⟩).trans hx), by rw [hg, merged_and, hv], ho, hf⟩
  · have hx := (writeRow_rws h (paramInfo_drvPos hd)).2
    rw [merged_all] at hx
    obtain ⟨hg, ho, _⟩ := parSet_frame s 4 (i := 0x10 + d) v (by omega)
    exact ⟨_, congrArg Host.Outcome.next ((if_pos hd).trans (hx.trans (write04_drvPos hd s v))), hg, ho, rfl⟩
  · have hx := (writeRow_rw h (paramInfo_emuCtrl hn)).2.trans (write04_emuCtrl hn s _)
    obtain ⟨hg, ho, _⟩ := parSet_frame s 4 (i := 0x20 + n) (merged (parGet s 4 (0x20 + n)) 0xC1FFFFFF v) (by omega)
    refine ⟨_, congrArg Host.Outcome.next ((if_pos hn).trans hx), ?_, by simp, ho, rfl⟩
    exact (congrArg (· &&& 0xC1FFFFFF) hg).trans (merged_and ..)
  · have hx := (writeRow_rw h (m := 0xFF) (r := 0) rfl).2
    have hv : field (merged (parGet s 8 0xB) 0xFF v) 7 0 = field v 7 0 := field_merged (by decide) (by decide)
    obtain ⟨_, ho, _⟩ := parSet_frame s 8 (i := 0xB) (merged (parGet s 8 0xB) 0xFF v) (by decide)
    refine ⟨_, congrArg Host.Outcome.next hx, ?_, ho, rfl⟩
    rw [← hv]
    rfl
  · obtain ⟨_, hx⟩ := writeRow_known h hp
    rw [landParam_stored hu, landValue_plain s v hc hw] at hx
    obtain ⟨au, ai⟩ := ad_word h.unit h.index
    refine ⟨_, congrArg Host.Outcome.next hx, ?_, rfl⟩
    have hs := stored_parSet s p (wrd (u * 2 ^ 16 + i)) v
    rwa [au, ai] at hs

end Sys2Proof.Proofs
end

section
/-!
PROOFS. Writes of the converters: software triggers, SEQ_ENABLE, ROT_EN, WC_CTRL (R139, R162, R166), and of FO_RATE.
-/
namespace Sys2Proof.Proofs
open Sys2Proof.Machine Sys2Proof.Safety Sys2Proof.Laws

/-- From `s` to `u` only the sequences changed. -/
def OnlySeqs (s u : State) : Prop := ∃ q, u = { s with conv := { s.conv with seqs := q } }

theorem onlySeqs_frame {s u : State} (h : OnlySeqs s u) : u = { s with conv := { s.conv with seqs := u.conv.seqs } } := by
  obtain ⟨q, rfl⟩ := h
  rfl

theorem takeSnap_onlySeqs {s u : State} (h : OnlySeqs s u) : takeSnap u = takeSnap s := by
  obtain ⟨q, rfl⟩ := h
  rfl

/-- What a trigger of this tick leaves of sequence `m` where `fires` holds of it. -/
def triggered (s : State) (fires : Nat → Bool) (m : Nat) : Seq :=
  if fires m then { s.sequ m with due := (s.sequ m).due ++ [(s.now, seqStored (s.sequ m), takeSnap s)] } else s.sequ m

/-- A trigger goes to each sequence below `k` that `fires` names, with the list and the inputs of the start. -/
theorem trigger_all (s : State) (fires : State → Nat → Bool) (hf : ∀ u n, OnlySeqs s u → fires u n = fires s n) (k : Nat) :
    OnlySeqs s (forUpTo k (fun n u => if fires u n then seqFired n u.now u else u) s) ∧
      ∀ m, (forUpTo k (fun n u => if fires u n then seqFired n u.now u else u) s).sequ m =
        if m < k then triggered s (fires s) m else s.sequ m := by
  induction k with
  | zero => exact ⟨⟨_, rfl⟩, fun m => rfl⟩
  | succ k ih =>
    obtain ⟨hu, hseq⟩ := ih
    have hstep : forUpTo (k + 1) (fun n u => if fires u n then seqFired n u.now u else u) s =
        (fun u => if fires u k then seqFired k u.now u else u)
          (forUpTo k (fun n u => if fires u n then seqFired n u.now u else u) s) := rfl
    rw [hstep]
    generalize forUpTo k (fun n u => if fires u n then seqFired n u.now u else u) s = u at hu hseq ⊢
    have hk : u.sequ k = s.sequ k := by rw [hseq, if_neg (Nat.lt_irrefl k)]
    have hnow : u.now = s.now := by obtain ⟨q, rfl⟩ := hu; rfl
    simp only [hf u k hu, hnow]
    cases hfire : fires s k with
    | false =>
      refine ⟨hu, fun m => ?_⟩
      by_cases hm : m = k
      · subst hm; simp [hk, triggered, hfire]
      · simp [hseq, Nat.le_iff_lt_or_eq, hm]
    | true =>
      refine ⟨?_, fun m => ?_⟩
      · obtain ⟨q, rfl⟩ := hu; exact ⟨_, rfl⟩
      · by_cases hm : m = k
        · subst hm; simp [seqFired, triggered, hfire, hk, takeSnap_onlySeqs hu]
        · simp [seqFired, hseq, Nat.le_iff_lt_or_eq, hm]

/-- SEQ_SOFT_TRIGGER takes every bit and stores nothing. -/
theorem writeRow_softTrigger {s : State} {v : Word} (h : WritePasses s 3 0x10 v) (hawake : s.pwr.sleep = .awake) :
    writeRow 3 0x10 v s = forUpTo 32 (fun n u => if wbit v n && seqEnabled u n then seqFired n u.now u else u) s := by
  have hx := (writeRow_known (p := { wo := 0xFFFFFFFF }) h rfl).2
  rw [landValue_plain s v rfl rfl] at hx
  have hm : merged (parGet s 3 0x10) ((0 : Word) ||| 0 ||| 0xFFFFFFFF) v = v := merged_all _ v
  rw [hx]
  show write03 s 0x10 (merged (parGet s 3 0x10) ((0 : Word) ||| 0 ||| 0xFFFFFFFF) v) = _
  rw [hm]
  unfold write03
  rw [if_neg (by decide), if_pos rfl, if_neg (by simpa using hawake)]

theorem paramInfo_seqEnable {n : Nat} (hn : n < 32) : paramInfo 3 (0x100 + n) = some { rw := 0x80000000, rsv := 0x7F0080FF } := by
  interval_cases n <;> rfl

theorem paramInfo_wcCtrl {n : Nat} (hn : n < 24) :
    paramInfo 3 (0x300 + n) = pRWS 0xC3FFFFFF (BitVec.ofNat 32 (n * 0x100000 + 0xFFC00)) := by
  interval_cases n <;> rfl

theorem startReference_frame (s : State) :
    startReference s = { s with conv := { s.conv with slices := (startReference s).conv.slices } } := by
  unfold startReference
  dsimp only
  split <;> rfl

/-- What a write of SEQ_ENABLE does (R139). -/
theorem writeRow_seqEnable {s : State} {n : Nat} {v : Word} (hn : n < 32) (h : WritePasses s 3 (0x100 + n) v) :
    ∃ w, wbit w 31 = wbit v 31 ∧ writeRow 3 (0x100 + n) v s =
      if wbit v 31 then parSet s 3 (0x100 + n) w
      else startReference ((parSet s 3 (0x100 + n) w).updSeq n fun q => { q with due := [], pend := none }) := by
  have hx := (writeRow_known h (paramInfo_seqEnable hn)).2
  rw [landValue_plain s v rfl rfl] at hx
  have hbit : wbit (merged (parGet s 3 (0x100 + n)) ((0x80000000 : Word) ||| 0 ||| 0) v) 31 = wbit v 31 :=
    wbit_merged (by decide)
  generalize merged (parGet s 3 (0x100 + n)) ((0x80000000 : Word) ||| 0 ||| 0) v = w at hx hbit
  refine ⟨w &&& 0x80000000, by simpa [wbit] using hbit, hx.trans ?_⟩
  show write03 s (0x100 + n) w = _
  unfold write03
  simp only [if_neg (show ¬ 0x100 + n = 0 by omega), if_neg (show ¬ 0x100 + n = 0x10 by omega),
    if_pos (show 0x100 ≤ 0x100 + n ∧ 0x100 + n ≤ 0x11F by omega), Nat.add_sub_cancel_left, hbit]

/-- What a write of ROT_EN does (R166). -/
theorem writeRow_rotEn {s : State} {v : Word} (h : WritePasses s 3 0 v) :
    ∃ w, w &&& 0x1FFFF = v &&& 0x1FFFF ∧ writeRow 3 0 v s =
      if wbit v 16 && s.conv.phase == .idle then beginStep (parSet s 3 0 w) else parSet s 3 0 w := by
  have hx := (writeRow_rw (m := 0x1FFFF) h rfl).2
  have hbit : wbit (merged (parGet s 3 0) 0x1FFFF v) 16 = wbit v 16 := wbit_merged (by decide)
  have hand := merged_and (parGet s 3 0) 0x1FFFF v
  generalize merged (parGet s 3 0) 0x1FFFF v = w at hx hbit hand
  refine ⟨w, hand, hx.trans ?_⟩
  show write03 s 0 w = _
  unfold write03
  rw [if_pos rfl]
  simp only [hbit]
  rfl

/-- A write of WC_CTRL stores its word, keeps the old threshold while the new one settles, and evaluates a comparator that runs. -/
def wcStored (s : State) (n : Nat) (w : Word) : State :=
  { parSet s 3 (0x300 + n) w with conv := { s.conv with wcOld := tblSet s.conv.wcOld (0, []) n (s.now, wcWords s n) } }

theorem writeRow_wcCtrl {s : State} {n : Nat} {v : Word} (hn : n < 24) (h : WritePasses s 3 (0x300 + n) v) :
    writeRow 3 (0x300 + n) v s =
      (let u := wcStored s n (merged (parGet s 3 (0x300 + n)) 0xC3FFFFFF v)
       if wcRuns u then wcEval n u else u) := by
  rw [(writeRow_rws h (paramInfo_wcCtrl hn)).2]
  show write03 s (0x300 + n) _ = _
  unfold write03
  simp only [if_neg (show ¬ 0x300 + n = 0 by omega), if_neg (show ¬ 0x300 + n = 0x10 by omega),
    if_neg (show ¬ (0x100 ≤ 0x300 + n ∧ 0x300 + n ≤ 0x11F) by omega), if_neg (show ¬ 0x300 + n = 0x17 by omega),
    if_pos (show 0x300 ≤ 0x300 + n ∧ 0x300 + n ≤ 0x317 by omega), Nat.add_sub_cancel_left]
  rfl

/-- A trip input that changes leaves every parameter but WC_STAT and those of the events. -/
theorem parGet_tripInput (s : State) (n : Nat) (active : Bool) {i : Nat} (hi : i < 65536) (hne : i ≠ 0x17) :
    parGet (tripInput s n active) 3 i = parGet s 3 i := by
  have hout : parGet (wcOutput s n active) 3 i = parGet s 3 i := by
    unfold wcOutput
    simp only [apply_ite (fun u => parGet u 3 i)]
    have hor (u : State) (w : Word) : parGet (parOr u 3 0x17 w) 3 i = parGet u 3 i :=
      (parGet_parSet u (by decide) hi _).trans (if_neg (by omega))
    rw [hor]
    split <;> (try split) <;> rfl
  have hlatch (u : State) : parGet (setTripLatch u n) 3 i = parGet u 3 i := by
    have hev : EvStep (latched n u) (setTripLatch u n) :=
      ev_raise (EvStep.forEach (ev_settlePairs (.refl _)) fun _ _ h => ev_orderRing h)
    exact parGet_of_evStep hev hi (by decide) (by decide)
  unfold tripInput
  dsimp only
  rw [apply_ite (fun u => parGet u 3 i), hlatch, ite_self]
  exact hout

theorem parGet_wcEval (s : State) (n : Nat) {i : Nat} (hi : i < 65536) (hne : i ≠ 0x17) :
    parGet (wcEval n s) 3 i = parGet s 3 i := by
  unfold wcEval
  dsimp only
  rw [apply_ite (fun u => parGet u 3 i), parGet_tripInput _ _ _ hi hne]
  split <;> rfl

/-- A side that is disabled is inactive. -/
theorem wcSide_disabled {s : State} {n : Nat} {high : Bool} (h : wbit (wcCtrl s n) (if high then 31 else 30) = false) :
    wcSide s n high = false := by
  unfold wcSide
  simp [h]

/-- A comparator with both sides disabled and its output inactive changes the state of its sides alone. -/
theorem wcEval_disabled {s : State} {n : Nat} (hhi : wbit (wcCtrl s n) 31 = false) (hlo : wbit (wcCtrl s n) 30 = false)
    (hout : s.conv.wcLevel.testBit n = false) :
    wcEval n s = { s with
      conv := { s.conv with wcHi := putBit s.conv.wcHi n false, wcLo := putBit s.conv.wcLo n false }, free := s.free + 2 } := by
  unfold wcEval
  simp only [wcSide_disabled (high := true) hhi, wcSide_disabled (high := false) hlo, hout, Bool.or_self, if_pos]

/-- What a write of FO_RATE does (R90). -/
theorem writeRow_foRate {s : State} {v : Word} (h : WritePasses s 1 0 v) (hidle : s.folio.rateCh = .none) :
    ∃ w, w &&& 7 = v &&& 7 ∧ writeRow 1 0 v s = { parSet s 1 0 w with folio := { s.folio with
      rateCh := if field v 2 0 = s.folio.rate then .none else .waiting none (field v 2 0) } } := by
  have hx := (writeRow_rw (m := 7) h rfl).2
  have hand := merged_and (parGet s 1 0) 7 v
  have hf : field (merged (parGet s 1 0) 7 v) 2 0 = field v 2 0 := field_merged (by decide) (by decide)
  generalize merged (parGet s 1 0) 7 v = w at hx hf hand
  refine ⟨w, hand, hx.trans ?_⟩
  show changeRate none (field w 2 0) (parSet s 1 0 w) = _
  unfold changeRate updFolio
  have hc : (parSet s 1 0 w).folio = s.folio := rfl
  simp only [hc, hidle, hf]

/-- Settles O15: what each row stores is said above; the rest is what it leaves. -/
theorem converterWrites : Obligations.ConverterWrites := by
  unfold Obligations.ConverterWrites
  intro s v
  refine ⟨fun h hawake => ?_, fun n hn h => ?_, fun h => ?_, fun n hn h => ?_, fun h hidle => ?_⟩
  · obtain ⟨honly, hseq⟩ := trigger_all s (fun u n => wbit v n && seqEnabled u n) (fun _ _ ⟨_, hu⟩ => by rw [hu]; rfl) 32
    refine ⟨_, congrArg Host.Outcome.next (writeRow_softTrigger h hawake), fun n hn => ?_, onlySeqs_frame honly⟩
    rw [hseq, if_pos hn]
    rfl
  · obtain ⟨w, hw, hx⟩ := writeRow_seqEnable hn h
    obtain ⟨hg, ho, _⟩ := parSet_frame s 3 (i := 0x100 + n) w (by omega)
    have hexec : exec (.seqEnableWrite n v) s = .next _ := congrArg Host.Outcome.next ((if_pos hn).trans hx)
    have hen : wbit (parGet (parSet s 3 (0x100 + n) w) 3 (0x100 + n)) 31 = wbit v 31 := (congrArg (wbit · 31) hg).trans hw
    cases hv : wbit v 31 with
    | true =>
      rw [hv, if_pos rfl] at hexec
      exact ⟨_, hexec, hen.trans hv, ho, (if_pos rfl).symm, fun _ _ => rfl, rfl⟩
    | false =>
      rw [hv, if_neg (by decide)] at hexec
      have hframe := startReference_frame ((parSet s 3 (0x100 + n) w).updSeq n fun q => { q with due := [], pend := none })
      generalize startReference _ = t at hexec hframe
      rw [hframe] at hexec
      have hs (m : Nat) : ((parSet s 3 (0x100 + n) w).updSeq n fun q => { q with due := [], pend := none }).sequ m =
          if m = n then { s.sequ n with due := [], pend := none } else s.sequ m := tblGet_write ..
      exact ⟨_, hexec, hen.trans hv, ho, (hs n).trans (if_pos rfl), fun m hm => (hs m).trans (if_neg hm), rfl⟩
  · obtain ⟨w, hw, hx⟩ := writeRow_rotEn h
    obtain ⟨hg, ho, _⟩ := parSet_frame s 3 (i := 0) w (by decide)
    have hand := (congrArg (· &&& 0x1FFFF) hg).trans hw
    have hexec : exec (.rotEnWrite v) s = .next _ := congrArg Host.Outcome.next hx
    by_cases hstart : (wbit v 16 && s.conv.phase == .idle) = true
    · rw [if_pos hstart] at hexec
      simp only [Bool.and_eq_true, beq_iff_eq] at hstart
      exact ⟨_, hexec, hand, ho, fun _ _ => rfl, fun hno => absurd hstart (by simpa using fun h1 h2 => hno.elim (by simp [h1]) (· h2)),
        rfl⟩
    · rw [if_neg hstart] at hexec
      simp only [Bool.and_eq_true, beq_iff_eq] at hstart
      exact ⟨_, hexec, hand, ho, fun h1 h2 => absurd ⟨h1, h2⟩ hstart, fun _ => rfl, rfl⟩
  · have hx := writeRow_wcCtrl hn h
    have hand := merged_and (parGet s 3 (0x300 + n)) 0xC3FFFFFF v
    have hhi : wbit (merged (parGet s 3 (0x300 + n)) 0xC3FFFFFF v) 31 = wbit v 31 := wbit_merged (by decide)
    have hlo : wbit (merged (parGet s 3 (0x300 + n)) 0xC3FFFFFF v) 30 = wbit v 30 := wbit_merged (by decide)
    generalize merged (parGet s 3 (0x300 + n)) 0xC3FFFFFF v = w at hx hand hhi hlo
    obtain ⟨hg, ho, _⟩ := parSet_frame s 3 (i := 0x300 + n) w (by omega)
    have hctrl : wcCtrl (wcStored s n w) n = w := hg
    have hexec : exec (.wcCtrlWrite n v) s = .next _ := congrArg Host.Outcome.next ((if_pos hn).trans hx)
    dsimp only at hexec
    refine ⟨_, hexec, ?_, fun h31 h30 hquiet => ?_⟩
    · rw [apply_ite (fun u => parGet u 3 (0x300 + n)), parGet_wcEval _ _ (by omega) (by omega), ite_self]
      exact (congrArg (· &&& 0xC3FFFFFF) hg).trans hand
    · rw [wcEval_disabled (s := wcStored s n w) (by rw [hctrl, hhi, h31]) (by rw [hctrl, hlo, h30]) hquiet]
      by_cases hruns : wcRuns (wcStored s n w) = true
      · rw [if_pos hruns]; exact ⟨ho, rfl⟩
      · rw [if_neg hruns]; exact ⟨ho, rfl⟩
  · obtain ⟨w, hw, hx⟩ := writeRow_foRate h hidle
    obtain ⟨hg, ho, _⟩ := parSet_frame s 1 (i := 0) w (by decide)
    exact ⟨_, congrArg Host.Outcome.next hx, (congrArg (· &&& 7) hg).trans hw, ho, rfl, rfl⟩

end Sys2Proof.Proofs
end

section
/-!
PROOFS. What the operations of the output pairs and of a landing change (R216, R217, R222, R225): `PairAlone` for one pair,
`PairsAlone` for any number of them, and `Clamped` where the clamp counters of the pairs may count as well.
-/
namespace Sys2Proof.Proofs
open Sys2Proof.Machine Sys2Proof.Safety Sys2Proof.Laws

/-- From `s` to `t` only pair `p` changed. -/
def PairAlone (p : Nat) (s t : State) : Prop := OnlyPair p s t ∧ t.book = s.book

/-- From `s` to `t` only pairs changed. -/
def PairsAlone (s t : State) : Prop := ∃ P, t = { s with hatch := { s.hatch with pairs := P } }

theorem PairsAlone.refl (s : State) : PairsAlone s s := ⟨_, rfl⟩

theorem PairsAlone.trans {s t u : State} (h : PairsAlone s t) (k : PairsAlone t u) : PairsAlone s u := by
  obtain ⟨P, rfl⟩ := h
  obtain ⟨Q, rfl⟩ := k
  exact ⟨Q, rfl⟩

theorem PairAlone.trans {p : Nat} {s t u : State} (h : PairAlone p s t) (k : PairAlone p t u) : PairAlone p s u :=
  ⟨h.1.trans k.1, k.2.trans h.2⟩

theorem PairAlone.upd (p : Nat) (s : State) (f : Pair → Pair) : PairAlone p s (s.updPair p f) := ⟨.upd .., rfl⟩

theorem PairAlone.pairs {p : Nat} {s t : State} (h : PairAlone p s t) : PairsAlone s t := by
  obtain ⟨⟨⟨P, q, rfl⟩, _⟩, hbook⟩ := h
  have hq : ({ s.book with inq := q } : Sketchbook) = s.book := hbook
  exact ⟨P, by rw [hq]⟩

theorem PairsAlone.frame {s t : State} (h : PairsAlone s t) : t = { s with hatch := { s.hatch with pairs := t.hatch.pairs } } := by
  obtain ⟨P, rfl⟩ := h
  rfl

/-! Each operation on one pair. -/

theorem drivePair_alone (s : State) (p : Nat) (th tl : Bool) : PairAlone p s (drivePair s p th tl) := ⟨only_drivePair .., rfl⟩

theorem refPair_alone (s : State) (p : Nat) (v : Bool) : PairAlone p s (refPair s p v) := by
  refine ⟨only_refPair .., ?_⟩
  unfold refPair
  split <;> rfl

theorem setRef_alone (s : State) (p : Nat) (v : Bool) : PairAlone p s (setRef s p v) := by
  refine ⟨only_setRef .., ?_⟩
  unfold setRef
  dsimp only
  split
  · rfl
  · split
    · exact (refPair_alone _ p v).2
    · rfl

theorem landPair_alone (s : State) (p w : Nat) : PairAlone p s (landPair s p w) := by
  refine ⟨only_landPair .., ?_⟩
  unfold landPair
  cases pairEff s p with
  | zero => exact (setRef_alone ..).2
  | full => exact (setRef_alone ..).2
  | val e => dsimp only; repeat' split <;> try rfl

theorem startPair_alone (s : State) (p phase : Nat) : PairAlone p s (startPair s p phase) := by
  unfold startPair
  extract_lets t u
  have hu : PairAlone p s u := .upd ..
  cases pairEff u p with
  | full => exact hu.trans ((PairAlone.upd ..).trans (setRef_alone ..))
  | zero => exact hu.trans (setRef_alone ..)
  | val e => exact hu.trans ((PairAlone.upd ..).trans (setRef_alone ..))

theorem layer4Pair_alone (s : State) (p : Nat) (stays : Bool) : PairAlone p s (layer4Pair s p stays) := by
  unfold layer4Pair
  dsimp only
  split
  · exact drivePair_alone ..
  · split
    · exact ⟨.refl .., rfl⟩
    · exact drivePair_alone ..

theorem takeLayer_alone (s : State) (p n : Nat) : PairAlone p s (takeLayer s p n) := by
  refine ⟨only_takeLayer .., ?_⟩
  unfold takeLayer
  dsimp only
  split
  · rfl
  · rfl
  · rfl
  · exact (layer4Pair_alone ..).2
  · rfl

theorem settlePair_alone (s : State) (p : Nat) : PairAlone p s (settlePair s p) := by
  unfold settlePair
  dsimp only
  split
  · exact takeLayer_alone ..
  · exact ⟨.refl .., rfl⟩

/-! Landings. -/

/-- A landing inside the present period moves only pairs. -/
theorem landTimebase_pairs {s : State} {t : Nat} (h : (s.tb t).running = false ∨ tbOffset s t < tbLen s t) :
    PairsAlone s (landTimebase t s) := by
  unfold landTimebase
  by_cases hr : (s.tb t).running = true
  · have hlt : tbOffset s t < tbLen s t := h.resolve_left (by simp [hr])
    rw [if_neg (by simp [hr]), if_neg (by omega)]
    exact forUpTo_rel PairsAlone.refl PairsAlone.trans (fun p _ u => rel_ite (landPair_alone u p _).pairs (.refl u)) s
  · rw [if_pos (by simpa using hr)]
    exact .refl s

/-- From `s` to `t` only pairs, their clamp flags and their clamp counters changed. -/
structure Clamped (s t : State) : Prop where
  frame : ∃ P X, t = { s with par := P, hatch := { s.hatch with pairs := X } }
  par : ∀ u i, i < 65536 → ¬ (u = 5 ∧ 0x208 ≤ i) → parGet t u i = parGet s u i

theorem Clamped.refl (s : State) : Clamped s s := ⟨⟨s.par, s.hatch.pairs, rfl⟩, fun _ _ _ _ => rfl⟩

theorem Clamped.trans {s t u : State} (h : Clamped s t) (k : Clamped t u) : Clamped s u := by
  obtain ⟨⟨P, X, rfl⟩, hp⟩ := h
  obtain ⟨⟨Q, Y, rfl⟩, kp⟩ := k
  exact ⟨⟨Q, Y, rfl⟩, fun u i hi hn => (kp u i hi hn).trans (hp u i hi hn)⟩

theorem PairsAlone.clamped {s t : State} (h : PairsAlone s t) : Clamped s t := by
  obtain ⟨P, rfl⟩ := h
  exact ⟨⟨s.par, P, rfl⟩, fun _ _ _ _ => rfl⟩

theorem parSet_clamped (s : State) {i : Nat} (v : Word) (hi : 0x208 ≤ i) (hi' : i < 65536) : Clamped s (parSet s 5 i v) :=
  ⟨⟨_, _, rfl⟩, fun u j hj hn => (parGet_parSet s hi' hj v).trans (if_neg (by omega))⟩

theorem countClamp_clamped (s : State) {p : Nat} (hp : p < 12) : Clamped s (countClamp p s) := by
  unfold countClamp
  split
  · split
    · exact .refl s
    · exact (parSet_clamped s _ (by omega) (by omega)).trans (parSet_clamped _ _ (by omega) (by omega))
  · exact .refl s

theorem clamped_tb {s t : State} (h : Clamped s t) (n : Nat) : t.tb n = s.tb n := by
  obtain ⟨⟨_, _, rfl⟩, _⟩ := h
  rfl

theorem clamped_offset {s t : State} (h : Clamped s t) (n : Nat) : tbOffset t n = tbOffset s n := by
  obtain ⟨⟨_, _, rfl⟩, _⟩ := h
  rfl

theorem clamped_len {s t : State} (h : Clamped s t) {n : Nat} (hn : n < 4) : tbLen t n = tbLen s n := by
  unfold tbLen tbUpDown tbCfg tbPer parNat
  rw [h.par 5 (0x100 + 16 * n) (by omega) (by omega), h.par 5 (0x101 + 16 * n) (by omega) (by omega)]

/-- Compares written inside the present period change pairs and clamp counts alone. -/
theorem landCompares_clamped {s : State} {t : Nat} (ht : t < 4) (ks : List Nat)
    (h : (s.tb t).running = false ∨ tbOffset s t < tbLen s t) : Clamped s (landCompares t ks s) := by
  unfold landCompares
  dsimp only
  have hcount := forUpTo_rel (n := 12) (f := fun p s => if pairTb s p = t ∧ ks.contains (pairSel s p) then countClamp p s else s)
    Clamped.refl Clamped.trans (fun p hp u => rel_ite (countClamp_clamped u hp) (.refl u)) s
  generalize forUpTo 12 (fun p s => if pairTb s p = t ∧ ks.contains (pairSel s p) then countClamp p s else s) s = u at hcount ⊢
  refine hcount.trans (landTimebase_pairs ?_).clamped
  rwa [clamped_tb hcount, clamped_offset hcount, clamped_len hcount ht]

end Sys2Proof.Proofs
end

section
/-!
PROOFS. Writes of a timebase's registers: TB_CFG, the SYNC fields, PER and the compares (R210 to R217).
-/
namespace Sys2Proof.Proofs
open Sys2Proof.Machine Sys2Proof.Safety Sys2Proof.Laws

/-! A period start, and a stop, of a timebase that carries no drive. -/

/-- The state in which a period of timebase `t` has started at offset `phase` and its pairs have their new edges. -/
def periodBegun (t phase : Nat) (s : State) : State :=
  forUpTo 12 (fun p s => if pairTb s p = t then startPair s p phase else s)
    (parWrap (s.updTb t fun b => { b with t0 := (s.now : Int) - (phase : Int), running := true, startTick := s.now }) 5 (0x10B + 16 * t))

theorem periodBegun_pairs (t phase : Nat) (s : State) : PairsAlone
    (parWrap (s.updTb t fun b => { b with t0 := (s.now : Int) - (phase : Int), running := true, startTick := s.now }) 5 (0x10B + 16 * t))
    (periodBegun t phase s) :=
  forUpTo_rel PairsAlone.refl PairsAlone.trans (fun p _ u => rel_ite (startPair_alone u p phase).pairs (.refl u)) _

/-- The pairs of timebase `t` come to the layers that apply. -/
def periodLayers (t : Nat) (s : State) : State := forUpTo 12 (fun p s => if pairTb s p = t then periodPair s p else s) s

theorem periodLayers_pairs (t : Nat) (s : State) : PairsAlone s (periodLayers t s) :=
  forUpTo_rel PairsAlone.refl PairsAlone.trans (fun p _ u => rel_ite (takeLayer_alone u p _).pairs (.refl u)) s

/-- Nothing that is counted down by `forUpTo` acts. -/
theorem forUpTo_quiet {f : Nat → State → State} {n : Nat} {s : State} (h : ∀ k, k < n → f k s = s) : forUpTo n f s = s := by
  induction n with
  | zero => rfl
  | succ k ih => exact (congrArg (f k) (ih fun j hj => h j (by omega))).trans (h k (by omega))

/-- A period start of a timebase that none follows, with no hand-over under way. -/
theorem startPeriod_lone {k t phase : Nat} {s u : State} (hu : periodDrives t (periodBegun t phase s) = u) (hdue : u.marg.hoDue = false)
    (hfollows : ∀ m, m < 4 → follows u m t = false) : startPeriod (k + 1) t phase s = periodLayers t u := by
  obtain ⟨P, hlay⟩ := periodLayers_pairs t u
  have heq : startPeriod (k + 1) t phase s =
      (let v := periodLayers t (periodDrives t (periodBegun t phase s))
       let v := if drivesWith v isString = [] ∧ (below 12 fun p => (v.pair p).layer = 4) ≠ [] then handoverDone v else v
       forUpTo 4 (fun m v =>
         let ph := field (tbCfg v m) 24 0
         if follows v m t && (v.tb m).running && tbOffset v m ≠ ph then startPeriod k m ph v else v) v) := rfl
  rw [heq, hu]
  have hho : handoverDone (periodLayers t u) = periodLayers t u := if_pos (by simp [hlay, hdue])
  simp only [hho, ite_self]
  refine forUpTo_quiet fun m hm => ?_
  have hf : follows (periodLayers t u) m t = false := by rw [hlay]; exact hfollows m hm
  simp [hf]

/-- Timebase `t` carries no drive. -/
def Unladen (t : Nat) (s : State) : Prop := ∀ d, d < 4 → hasArch (s.drive d) = true → driveTb (s.drive d) ≠ t

/-- A drive that uses a ring has an architecture. -/
theorem ringDrive_hasArch {s : State} {r d : Nat} (h : ringDrive s r = some d) : d < 4 ∧ hasArch (s.drive d) = true := by
  have hd : d ∈ drivesWith s fun v => driveHasRing v r := List.mem_of_mem_head? h
  simp only [drivesWith, below, List.mem_filter, List.mem_range] at hd
  obtain ⟨hlt, hring⟩ := hd
  simp only [driveHasRing, isString, Bool.and_eq_true, decide_eq_true_eq] at hring
  exact ⟨hlt, by simp [hasArch, hring.1]⟩

theorem periodDrives_unladen {t : Nat} {s : State} (h : Unladen t s) : periodDrives t s = s := by
  have hdrives : forUpTo 4 (fun d s => if hasArch (s.drive d) ∧ driveTb (s.drive d) = t then handDrive d (drivePeriod d s) else s) s =
      s := forUpTo_quiet fun d hd => if_neg fun hx => h d hd hx.1 hx.2
  have hrings : (below 16 fun r => (s.ring r).farDue && s.marg.role = 2 && ringTimebase s r = some t) = [] := by
    unfold below
    rw [List.filter_eq_nil_iff]
    intro r _ hr
    simp only [Bool.and_eq_true, decide_eq_true_eq, ringTimebase, Option.map_eq_some_iff] at hr
    obtain ⟨_, d, hd, htb⟩ := hr
    exact h d (ringDrive_hasArch hd).1 (ringDrive_hasArch hd).2 htb
  unfold periodDrives farServe
  rw [hdrives, hrings]
  rfl

theorem unladen_pairs {t : Nat} {s u : State} (h : PairsAlone s u) (hs : Unladen t s) : Unladen t u := by
  obtain ⟨P, rfl⟩ := h
  exact hs

/-- The stop of a timebase that carries no drive moves its pairs. -/
theorem stopTimebase_pairs {t : Nat} {s : State} (h : Unladen t s) :
    PairsAlone (s.updTb t fun b => { b with running := false }) (stopTimebase t s) := by
  have hrefs : PairsAlone (s.updTb t fun b => { b with running := false })
      (forUpTo 12 (fun p s => if pairTb s p = t then
        setRef (s.updPair p fun q => { q with armOn := none, armOff := none }) p false else s) (s.updTb t fun b => { b with running := false })) :=
    forUpTo_rel PairsAlone.refl PairsAlone.trans
      (fun p _ u => rel_ite ((PairAlone.upd p u _).trans (setRef_alone _ p false)).pairs (.refl u)) _
  unfold stopTimebase
  dsimp only
  rw [periodDrives_unladen (unladen_pairs hrefs h)]
  exact hrefs.trans (forUpTo_rel PairsAlone.refl PairsAlone.trans (fun p _ u => rel_ite (settlePair_alone u p).pairs (.refl u)) _)

/-! The rows. -/

/-- The registers of timebase `t` in unit 0x05. -/
theorem paramInfo_tb {t w : Nat} (ht : t < 4) (hw : w < 8) : paramInfo 5 (0x100 + 16 * t + w) =
    if w = 0 then pRWS 0xF9FFFFFF 0 else if w = 1 then pRW 0xFFFFFF 0x4E20 else pRW 0x0FFFFFFF 0 := by
  show info05 (0x100 + 16 * t + w) = _
  unfold info05
  have hmod : (0x100 + 16 * t + w) % 16 = w := by omega
  rw [if_pos (by omega)]
  simp only [hmod]
  split
  · rfl
  · split
    · rfl
    · rw [if_pos (by omega)]

theorem write05_tb {t w : Nat} (ht : t < 4) (hw : w < 16) (s : State) (v : Word) : write05 s (0x100 + 16 * t + w) v =
    if w = 0 then
      if wbit v 31 && !(s.tb t).running then startPeriod 5 t 0 (parSet s 5 (0x100 + 16 * t) v)
      else if !wbit v 31 then stopTimebase t (parSet s 5 (0x100 + 16 * t) v)
      else landTimebase t (parSet s 5 (0x100 + 16 * t) v)
    else if w = 1 then landCompares t [0, 1, 2, 3, 4, 5] (storePer s t 0 v)
    else if w ≤ 7 then landCompares t [w - 2] (storeCmp s t (w - 2) 0 v true)
    else if w = 8 then landTimebase t (parSet s 5 (0x100 + 16 * t + w) v)
    else parSet s 5 (0x100 + 16 * t + w) v := by
  unfold write05
  have hdiv : (0x100 + 16 * t + w - 0x100) / 16 = t := by omega
  have hmod : (0x100 + 16 * t + w) % 16 = w := by omega
  rw [if_pos (by omega)]
  simp only [hdiv, hmod]
  by_cases h0 : w = 0
  · subst h0; rfl
  · simp only [h0, if_false]

/-- What a write of TB_CFG, of PER and of a compare stores. -/
theorem writeRow_tbCfg {s : State} {tb : Nat} {v : Word} (htb : tb < 4) (h : WritePasses s 5 (0x100 + 16 * tb) v) :
    ∃ w, w &&& 0xF9FFFFFF = v &&& 0xF9FFFFFF ∧ wbit w 31 = wbit v 31 ∧ cfgUpDown w = cfgUpDown v ∧
      writeRow 5 (0x100 + 16 * tb) v s =
        if wbit v 31 && !(s.tb tb).running then startPeriod 5 tb 0 (parSet s 5 (0x100 + 16 * tb) w)
        else if !wbit v 31 then stopTimebase tb (parSet s 5 (0x100 + 16 * tb) w)
        else landTimebase tb (parSet s 5 (0x100 + 16 * tb) w) := by
  have hx := (writeRow_rws h (paramInfo_tb (w := 0) htb (by decide))).2.trans (write05_tb (w := 0) htb (by decide) s _)
  have h31 : wbit (merged (parGet s 5 (0x100 + 16 * tb)) 0xF9FFFFFF v) 31 = wbit v 31 := wbit_merged (by decide)
  have h30 : wbit (merged (parGet s 5 (0x100 + 16 * tb)) 0xF9FFFFFF v) 30 = wbit v 30 := wbit_merged (by decide)
  rw [if_pos rfl, h31] at hx
  exact ⟨_, merged_and .., h31, h30, hx⟩

theorem writeRow_per {s : State} {tb : Nat} {v : Word} (htb : tb < 4) (h : WritePasses s 5 (0x101 + 16 * tb) v)
    (hover : overtaken s tb 6 0 = false) : ∃ w, w &&& 0xFFFFFF = v &&& 0xFFFFFF ∧ v.toNat ≤ w.toNat ∧
      writeRow 5 (0x101 + 16 * tb) v s =
        landCompares tb [0, 1, 2, 3, 4, 5] (noteWrite tb 6 0 (parSet s 5 (0x101 + 16 * tb) w)) := by
  have hi : 0x101 + 16 * tb = 0x100 + 16 * tb + 1 := by omega
  obtain ⟨hv, hx⟩ := writeRow_rw (m := 0xFFFFFF) h (by rw [hi, paramInfo_tb htb (by decide)]; rfl)
  refine ⟨merged (parGet s 5 (0x101 + 16 * tb)) 0xFFFFFF v, merged_and .., ?_, ?_⟩
  · unfold merged
    rw [hv, BitVec.toNat_or]
    exact Nat.right_le_or
  · refine hx.trans ?_
    show write05 s (0x101 + 16 * tb) _ = _
    rw [hi, write05_tb htb (by decide), if_neg (by decide), if_pos rfl, storePer, hover, ← hi]
    rfl

theorem writeRow_compare {s : State} {tb k : Nat} {v : Word} (htb : tb < 4) (hk : k < 6)
    (h : WritePasses s 5 (0x102 + 16 * tb + k) v) :
    ∃ w, w &&& 0x0FFFFFFF = v &&& 0x0FFFFFFF ∧ writeRow 5 (0x102 + 16 * tb + k) v s =
      landCompares tb [k] (storeCmp s tb k 0 w true) := by
  have hi : 0x102 + 16 * tb + k = 0x100 + 16 * tb + (k + 2) := by omega
  have hx := (writeRow_rw (m := 0x0FFFFFFF) h (by rw [hi, paramInfo_tb htb (by omega), if_neg (by omega), if_neg (by omega)])).2
  refine ⟨merged (parGet s 5 (0x102 + 16 * tb + k)) 0x0FFFFFFF v, merged_and .., hx.trans ?_⟩
  show write05 s (0x102 + 16 * tb + k) _ = _
  rw [hi, write05_tb htb (by omega), if_neg (by omega), if_neg (by omega), if_pos (by omega), Nat.add_sub_cancel]

/-- A compare written at its tick by none of higher rank is stored. -/
theorem storeCmp_lands {s : State} {t k r : Nat} {v : Word} {special : Bool} (h : overtaken s t k r = false) :
    storeCmp s t k r v special = { noteWrite t k r (parSet s 5 (0x102 + 16 * t + k) v) with hatch :=
      { (noteWrite t k r (parSet s 5 (0x102 + 16 * t + k) v)).hatch with zc := tblSet s.hatch.zc true (8 * t + k) special } } := by
  unfold storeCmp
  rw [h]
  rfl

theorem PairsAlone.parGet {s t : State} (h : PairsAlone s t) (u i : Nat) : parGet t u i = parGet s u i := by
  obtain ⟨P, rfl⟩ := h
  rfl

theorem PairsAlone.tb {s t : State} (h : PairsAlone s t) (n : Nat) : t.tb n = s.tb n := by
  obtain ⟨P, rfl⟩ := h
  rfl

/-- What a period start leaves of a timebase that carries no drive and that none follows. -/
theorem startPeriod_unladen {t k : Nat} {s : State} (hload : Unladen t s) (hdue : s.marg.hoDue = false)
    (hfollows : ∀ m, m < 4 → follows s m t = false) (ht : t < 4) : PairsAlone
      (parWrap (s.updTb t fun b => { b with t0 := (s.now : Int), running := true, startTick := s.now }) 5 (0x10B + 16 * t))
      (startPeriod (k + 1) t 0 s) := by
  have hbegun := periodBegun_pairs t 0 s
  simp only [Nat.cast_zero, sub_zero] at hbegun
  have hdrives : periodDrives t (periodBegun t 0 s) = periodBegun t 0 s := periodDrives_unladen (unladen_pairs hbegun hload)
  have hf (m : Nat) (hm : m < 4) : follows (periodBegun t 0 s) m t = false := by
    have hcfg : tbCfg (periodBegun t 0 s) m = tbCfg s m :=
      (hbegun.parGet 5 _).trans ((parGet_parSet _ (by omega) (by omega) _).trans (if_neg (by omega)))
    unfold follows
    rw [hcfg]
    exact hfollows m hm
  have hmarg : (periodBegun t 0 s).marg.hoDue = false := by obtain ⟨P, hP⟩ := hbegun; rw [hP]; exact hdue
  rw [startPeriod_lone hdrives hmarg hf]
  exact hbegun.trans (periodLayers_pairs t _)

/-- A period of timebase `t` has started now: what became of the timebase, of PERIOD_COUNT and of the rest. -/
structure PeriodStarted (t : Nat) (s u : State) : Prop where
  running : (u.tb t).running = true
  offset : tbOffset u t = 0
  count : parGet u 5 (0x10B + 16 * t) = parGet s 5 (0x10B + 16 * t) + 1
  par : ∀ i, i < 65536 → i ≠ 0x10B + 16 * t → parGet u 5 i = parGet s 5 i
  others : ∀ m, m ≠ t → u.tb m = s.tb m

theorem startPeriod_starts {t k : Nat} {s : State} (hload : Unladen t s) (hdue : s.marg.hoDue = false)
    (hfollows : ∀ m, m < 4 → follows s m t = false) (ht : t < 4) : PeriodStarted t s (startPeriod (k + 1) t 0 s) ∧
      ∃ T P X, startPeriod (k + 1) t 0 s = { s with par := P, hatch := { s.hatch with tbs := T, pairs := X } } := by
  have hstart := startPeriod_unladen (k := k) hload hdue hfollows ht
  generalize startPeriod (k + 1) t 0 s = u at hstart
  have htb (m : Nat) : u.tb m = if m = t then { s.tb t with t0 := (s.now : Int), running := true, startTick := s.now } else s.tb m :=
    (hstart.tb m).trans (tb_updTb s t m fun b => { b with t0 := (s.now : Int), running := true, startTick := s.now })
  have hpar (i : Nat) (hi : i < 65536) :
      parGet u 5 i = if i = 0x10B + 16 * t then parGet s 5 (0x10B + 16 * t) + 1 else parGet s 5 i :=
    (hstart.parGet 5 i).trans ((parGet_parSet _ (by omega) hi _).trans (by simp only [true_and]; rfl))
  have hnow : u.now = s.now := by obtain ⟨P, rfl⟩ := hstart; rfl
  refine ⟨⟨by rw [htb, if_pos rfl], ?_, (hpar _ (by omega)).trans (if_pos rfl), fun i hi hne => (hpar i hi).trans (if_neg hne),
    fun m hm => (htb m).trans (if_neg hm)⟩, ?_⟩
  · unfold tbOffset
    rw [htb, if_pos rfl, hnow]
    exact congrArg Int.toNat (sub_self _)
  · obtain ⟨P, rfl⟩ := hstart
    exact ⟨_, _, _, rfl⟩

/-- Settles O16: a start and a stop move the timebase and its pairs, and a register that lands moves pairs alone. -/
theorem timebaseWrites : Obligations.TimebaseWrites := by
  unfold Obligations.TimebaseWrites
  intro s tb v htb
  refine ⟨fun h hload => ⟨fun h31 hstop hfollows hdue _ => ?_, fun h31 => ?_⟩, fun h h31 hruns hoff => ?_, fun h hover hoff => ?_,
    fun k hk h hover hoff => ?_⟩
  · obtain ⟨w, hand, _, _, hx⟩ := writeRow_tbCfg htb h
    rw [h31, hstop, Bool.not_false, Bool.and_self, if_pos rfl] at hx
    obtain ⟨hg, ho, _⟩ := parSet_frame s 5 (i := 0x100 + 16 * tb) w (by omega)
    have hf (m : Nat) (hm : m < 4) : follows (parSet s 5 (0x100 + 16 * tb) w) m tb = false := by
      by_cases hmt : m = tb
      · simp [follows, hmt]
      · have hcfg : tbCfg (parSet s 5 (0x100 + 16 * tb) w) m = tbCfg s m := ho 5 _ (by decide) (by omega) (by omega)
        unfold follows
        rw [hcfg]
        exact hfollows m hm
    obtain ⟨⟨hrun, hoff, hcount, hpar, hothers⟩, T, P, X, heq⟩ :=
      startPeriod_starts (k := 4) (s := parSet s 5 (0x100 + 16 * tb) w) hload hdue hf htb
    generalize startPeriod 5 tb 0 (parSet s 5 (0x100 + 16 * tb) w) = t at hx hrun hoff hcount hpar hothers heq
    refine ⟨t, congrArg Host.Outcome.next ((if_pos htb).trans hx), hrun, hoff, ?_, ?_, hothers, by rw [heq]; rfl⟩
    · rw [hcount, ho 5 _ (by decide) (by omega) (by omega)]
    · rw [hpar _ (by omega) (by omega), hg, hand]
  · obtain ⟨w, hand, _, _, hx⟩ := writeRow_tbCfg htb h
    rw [h31, Bool.false_and, if_neg (by decide), if_pos (by decide)] at hx
    obtain ⟨hg, _, _⟩ := parSet_frame s 5 (i := 0x100 + 16 * tb) w (by omega)
    have hstop := stopTimebase_pairs (s := parSet s 5 (0x100 + 16 * tb) w) hload
    generalize stopTimebase tb (parSet s 5 (0x100 + 16 * tb) w) = t at hx hstop
    have htbs (m : Nat) : t.tb m = if m = tb then { s.tb tb with running := false } else s.tb m := (hstop.tb m).trans (tb_updTb _ tb m _)
    have hcfg : parGet t 5 (0x100 + 16 * tb) = w := (hstop.parGet 5 _).trans hg
    refine ⟨t, congrArg Host.Outcome.next ((if_pos htb).trans hx), by rw [htbs, if_pos rfl], by rw [hcfg, hand],
      fun m hm => (htbs m).trans (if_neg hm), ?_⟩
    obtain ⟨P, rfl⟩ := hstop
    rfl
  · obtain ⟨w, hand, _, hud, hx⟩ := writeRow_tbCfg htb h
    rw [h31, hruns, if_neg (by decide), if_neg (by decide)] at hx
    obtain ⟨hg, ho, _⟩ := parSet_frame s 5 (i := 0x100 + 16 * tb) w (by omega)
    have hlen : tbLen (parSet s 5 (0x100 + 16 * tb) w) tb = perLen (cfgUpDown v) (tbPer s tb) := by
      unfold tbLen tbUpDown tbCfg tbPer parNat
      rw [hg, hud, ho 5 _ (by decide) (by omega) (by omega)]
    have hland := landTimebase_pairs (s := parSet s 5 (0x100 + 16 * tb) w) (t := tb) (.inr (by rw [hlen]; exact hoff))
    generalize landTimebase tb (parSet s 5 (0x100 + 16 * tb) w) = t at hx hland
    refine ⟨t, congrArg Host.Outcome.next ((if_pos htb).trans hx), by rw [hland.parGet, hg, hand],
      fun u i hu hi hne => (hland.parGet u i).trans (ho u i hu hi hne), ?_⟩
    obtain ⟨P, rfl⟩ := hland
    rfl
  · obtain ⟨w, hand, hle, hx⟩ := writeRow_per htb h hover
    obtain ⟨hg, ho, _⟩ := parSet_frame s 5 (i := 0x101 + 16 * tb) w (by omega)
    have hlen : tbLen (noteWrite tb 6 0 (parSet s 5 (0x101 + 16 * tb) w)) tb = perLen (tbUpDown s tb) w.toNat := by
      show perLen (cfgUpDown (parGet (parSet s 5 (0x101 + 16 * tb) w) 5 (0x100 + 16 * tb)))
        (parGet (parSet s 5 (0x101 + 16 * tb) w) 5 (0x101 + 16 * tb)).toNat = _
      rw [hg, ho 5 _ (by decide) (by omega) (by omega)]
      rfl
    have hgrow : perLen (tbUpDown s tb) v.toNat ≤ perLen (tbUpDown s tb) w.toNat := by unfold perLen; split <;> omega
    have hland := landCompares_clamped (s := noteWrite tb 6 0 (parSet s 5 (0x101 + 16 * tb) w)) htb [0, 1, 2, 3, 4, 5]
      (hoff.imp id fun hoff => by rw [hlen]; exact lt_of_lt_of_le hoff hgrow)
    generalize landCompares tb [0, 1, 2, 3, 4, 5] (noteWrite tb 6 0 (parSet s 5 (0x101 + 16 * tb) w)) = t at hx hland
    have hper : parGet t 5 (0x101 + 16 * tb) = w := (hland.par 5 _ (by omega) (by omega)).trans hg
    obtain ⟨P, X, hframe⟩ := hland.frame
    exact ⟨t, congrArg Host.Outcome.next ((if_pos htb).trans hx), by rw [hper, hand], by rw [hframe]; rfl, by rw [hframe]; rfl⟩
  · obtain ⟨w, hand, hx⟩ := writeRow_compare htb hk h
    rw [storeCmp_lands hover] at hx
    obtain ⟨hg, ho, _⟩ := parSet_frame s 5 (i := 0x102 + 16 * tb + k) w (by omega)
    generalize hu : ({ noteWrite tb k 0 (parSet s 5 (0x102 + 16 * tb + k) w) with hatch := _ } : State) = u at hx
    have hlen : tbLen u tb = tbLen s tb := by
      subst hu
      show perLen (cfgUpDown (parGet (parSet s 5 (0x102 + 16 * tb + k) w) 5 (0x100 + 16 * tb)))
        (parGet (parSet s 5 (0x102 + 16 * tb + k) w) 5 (0x101 + 16 * tb)).toNat = _
      rw [ho 5 _ (by decide) (by omega) (by omega), ho 5 _ (by decide) (by omega) (by omega)]
      rfl
    have hland := landCompares_clamped (s := u) htb [k] (by rw [hlen, ← hu]; exact hoff)
    generalize landCompares tb [k] u = t at hx hland
    have hcmp : tbCmp t tb k = w := (hland.par 5 _ (by omega) (by omega)).trans (by rw [← hu]; exact hg)
    obtain ⟨P, X, hframe⟩ := hland.frame
    refine ⟨t, congrArg Host.Outcome.next ((if_pos ⟨htb, hk⟩).trans hx), by rw [hcmp, hand], ?_, by rw [hframe, ← hu]; rfl⟩
    have hzc : zeroCode u tb k = true := by rw [← hu]; exact tblGet_write_self s.hatch.zc true true (8 * tb + k)
    rw [hframe]
    exact hzc

end Sys2Proof.Proofs
end

section
/-!
PROOFS. HATCH_FRAME and HATCH_FORCE (R216, R226), period starts, edges, dead times and the end of a force (R211, R222, R225).
-/
namespace Sys2Proof.Proofs
open Sys2Proof.Machine Sys2Proof.Safety Sys2Proof.Laws

/-! The payload of HATCH_FORCE: a level above the bits of the pairs. -/

theorem hasBits_eq_false {w m : Word} (h : ∀ k, k < 32 → wbit m k = true → wbit w k = false) : hasBits w m = false := by
  have hz : w &&& m = 0 := by
    ext k hk
    have hb := h k hk
    simp only [wbit, BitVec.getLsbD_eq_getElem hk] at hb
    cases hm : m[k] <;> simp_all
  simp [hasBits, hz]

theorem wbit_wrd {n k : Nat} (hk : k < 32) : wbit (wrd n) k = n.testBit k := by
  simp only [wbit, wrd, BitVec.getLsbD_ofNat, hk, decide_true, Bool.true_and]

/-- The first word of HATCH_FORCE, bit by bit. -/
theorem testBit_forceWord {level m : Nat} (hm : m < 4096) (k : Nat) :
    (level * 2 ^ 30 + m).testBit k = if k < 30 then m.testBit k else level.testBit (k - 30) := by
  rw [Nat.mul_comm]
  exact Nat.testBit_two_pow_mul_add level (by omega) k

theorem field_forceWord {level m : Nat} (hl : level < 4) (hm : m < 4096) : field (wrd (level * 2 ^ 30 + m)) 31 30 = level := by
  have hn : (wrd (level * 2 ^ 30 + m)).toNat = level * 2 ^ 30 + m := BitVec.toNat_ofNat .. |>.trans (Nat.mod_eq_of_lt (by omega))
  unfold field
  omega

theorem hasBits_forceWord {level m : Nat} (hm : m < 4096) : hasBits (wrd (level * 2 ^ 30 + m)) 0x3FFFF000 = false := by
  have hrange : ∀ k, k < 32 → wbit (0x3FFFF000 : Word) k = true → 12 ≤ k ∧ k < 30 := by decide
  refine hasBits_eq_false fun k hk hb => ?_
  obtain ⟨h12, h30⟩ := hrange k hk hb
  rw [wbit_wrd hk, testBit_forceWord hm, if_pos h30]
  exact Nat.testBit_lt_two_pow (lt_of_lt_of_le hm (Nat.pow_le_pow_right (n := 2) (by decide) h12))

/-! HATCH_FORCE. -/

theorem takeLayer_force (s : State) (p n : Nat) : ((takeLayer s p n).pair p).force = (s.pair p).force ∧
    ((takeLayer s p n).pair p).forceEnd = (s.pair p).forceEnd := by
  have hdrive (u : State) (th tl : Bool) : ((drivePair u p th tl).pair p).force = (u.pair p).force ∧
      ((drivePair u p th tl).pair p).forceEnd = (u.pair p).forceEnd := by simp [drivePair]
  have hlayer : ((s.updPair p fun q => { q with layer := n }).pair p).force = (s.pair p).force ∧
      ((s.updPair p fun q => { q with layer := n }).pair p).forceEnd = (s.pair p).forceEnd := by simp
  unfold takeLayer layer4Pair
  extract_lets old u
  have hu : (u.pair p).force = (s.pair p).force ∧ (u.pair p).forceEnd = (s.pair p).forceEnd := hlayer
  clear_value u
  split
  · simpa [tripPair] using hu
  · exact ⟨(hdrive ..).1.trans hu.1, (hdrive ..).2.trans hu.2⟩
  · exact ⟨(hdrive ..).1.trans hu.1, (hdrive ..).2.trans hu.2⟩
  · split
    · exact ⟨(hdrive ..).1.trans hu.1, (hdrive ..).2.trans hu.2⟩
    · split
      · exact hu
      · exact ⟨(hdrive ..).1.trans hu.1, (hdrive ..).2.trans hu.2⟩
  · exact ⟨(hdrive ..).1.trans hu.1, (hdrive ..).2.trans hu.2⟩

theorem settlePair_force (s : State) (p : Nat) : ((settlePair s p).pair p).force = (s.pair p).force ∧
    ((settlePair s p).pair p).forceEnd = (s.pair p).forceEnd := by
  unfold settlePair
  dsimp only
  split
  · exact takeLayer_force ..
  · exact ⟨rfl, rfl⟩

/-- Pair `p` takes a force with its end, and settles. -/
def forcePair (f : Option Nat) (e : State → Option Nat) (p : Nat) (s : State) : State :=
  settlePair (s.updPair p fun q => { q with force := f, forceEnd := e s }) p

theorem forcePair_alone (f : Option Nat) (e : State → Option Nat) (p : Nat) (s : State) : PairAlone p s (forcePair f e p s) :=
  (PairAlone.upd p s _).trans (settlePair_alone ..)

theorem forcePair_force (f : Option Nat) (e : State → Option Nat) (p : Nat) (s : State) :
    ((forcePair f e p s).pair p).force = f ∧ ((forcePair f e p s).pair p).forceEnd = e s := by
  obtain ⟨hf, he⟩ := settlePair_force (s.updPair p fun q => { q with force := f, forceEnd := e s }) p
  exact ⟨hf.trans (by simp), he.trans (by simp)⟩

/-- The force reaches each pair of the list, and no other. -/
theorem forcePairs_force {f : Option Nat} {e : State → Option Nat} (he : ∀ s u, PairsAlone s u → e u = e s) (l : List Nat) (s : State) :
    PairsAlone s (forEach l (forcePair f e) s) ∧
      (∀ p ∈ l, ((forEach l (forcePair f e) s).pair p).force = f ∧ ((forEach l (forcePair f e) s).pair p).forceEnd = e s) ∧
      ∀ p, p ∉ l → (forEach l (forcePair f e) s).pair p = s.pair p := by
  induction l generalizing s with
  | nil => exact ⟨.refl s, by simp, fun _ _ => rfl⟩
  | cons a l ih =>
    obtain ⟨hpairs, hforce, hothers⟩ := ih (forcePair f e a s)
    have halone := forcePair_alone f e a s
    have hend : e (forcePair f e a s) = e s := he _ _ halone.pairs
    refine ⟨halone.pairs.trans hpairs, fun p hp => ?_, fun p hp => ?_⟩
    · by_cases hpl : p ∈ l
      · exact hend ▸ hforce p hpl
      · obtain rfl : p = a := by simpa [hpl] using hp
        have hpair : (forEach (p :: l) (forcePair f e) s).pair p = (forcePair f e p s).pair p := hothers p hpl
        rw [hpair]
        exact forcePair_force ..
    · simp only [List.mem_cons, not_or] at hp
      exact (hothers p hp.2).trans (halone.1.2 p hp.1)

/-- The pairs that a mask names. -/
theorem mem_forced {level m p : Nat} (hm : m < 4096) :
    p ∈ below 12 (fun p => wbit (wrd (level * 2 ^ 30 + m)) p) ↔ p < 12 ∧ m.testBit p = true := by
  simp only [below, List.mem_filter, List.mem_range]
  refine and_congr_right fun hp => ?_
  rw [wbit_wrd (by omega), testBit_forceWord hm, if_pos (by omega)]

/-- A mask that is not empty names a pair. -/
theorem forced_ne_nil {level m : Nat} (hm : m < 4096) (hne : m ≠ 0) :
    below 12 (fun p => wbit (wrd (level * 2 ^ 30 + m)) p) ≠ [] := by
  obtain ⟨p, hp⟩ := Nat.exists_testBit_of_ne_zero hne
  have hp12 : p < 12 := by
    by_contra hge
    rw [Nat.testBit_lt_two_pow (lt_of_lt_of_le hm (Nat.pow_le_pow_right (n := 2) (i := 12) (by decide) (by omega)))] at hp
    exact absurd hp (by decide)
  exact List.ne_nil_of_mem ((mem_forced hm).2 ⟨hp12, hp⟩)

theorem bodyHatchForce_forces {s : State} {m level dur : Nat} (hm : m < 4096) (hne : m ≠ 0) (hl : level < 4) (hd : dur < 65536)
    (hen : level = 0 ∨ s.so.enable = true)
    (hfree : ∀ p, p < 12 → m.testBit p = true → latchesOnPair s p = [] ∧ ∀ d, pairDrive s p = some d → (s.drive d).dst = .idle) :
    bodyHatchForce [wrd (level * 2 ^ 30 + m), wrd dur] s =
      .done stOk [] (forEach (below 12 fun p => wbit (wrd (level * 2 ^ 30 + m)) p)
        (forcePair (if level = 0 then none else some level)
          fun u => if level = 0 ∨ dur = 0 then none else some (u.now + dur * 400)) s) := by
  have hdur : field (wrd dur) 15 0 = dur := by
    unfold field
    rw [show (wrd dur).toNat = dur from (BitVec.toNat_ofNat ..).trans (Nat.mod_eq_of_lt (by omega))]
    omega
  have hidle : ((below 12 fun p => wbit (wrd (level * 2 ^ 30 + m)) p).any fun p => match pairDrive s p with
      | some d => decide ((s.drive d).dst ≠ .idle)
      | none => false) = false := by
    rw [List.any_eq_false]
    intro p hp
    obtain ⟨hp12, hpm⟩ := (mem_forced hm).1 hp
    cases hpd : pairDrive s p with
    | none => simp
    | some d => simp [(hfree p hp12 hpm).2 d hpd]
  have hlatch : ((below 12 fun p => wbit (wrd (level * 2 ^ 30 + m)) p).any fun p => latchesOnPair s p ≠ []) = false := by
    rw [List.any_eq_false]
    intro p hp
    obtain ⟨hp12, hpm⟩ := (mem_forced hm).1 hp
    simp [(hfree p hp12 hpm).1]
  have hsome : ((below 12 fun p => wbit (wrd (level * 2 ^ 30 + m)) p) == []) = false := by simpa using forced_ne_nil hm hne
  unfold bodyHatchForce
  simp only [pw, List.getD_cons_zero, List.getD_cons_succ, field_forceWord hl hm, hdur]
  refine (checked_nil s ?_ _).trans rfl
  simp only [List.forall_mem_cons, List.not_mem_nil, false_implies, implies_true, and_true]
  refine ⟨?_, ?_, hlatch⟩
  · exact Bool.or_eq_false_iff.2 ⟨hidle, by rcases hen with h | h <;> simp [h]⟩
  · rw [hsome, hasBits_forceWord hm, hasBits_small (k := 16) (by decide) (by decide) hd]
    rfl

theorem hatchForce_forces {s : State} {tag m level dur : Nat} (hm : m < 4096) (hne : m ≠ 0) (hl : level < 4) (hd : dur < 65536)
    (h : Starts s tag 0x31 [wrd (level * 2 ^ 30 + m), wrd dur]) (hen : level = 0 ∨ s.so.enable = true)
    (hfree : ∀ p, p < 12 → m.testBit p = true → latchesOnPair s p = [] ∧ ∀ d, pairDrive s p = some d → (s.drive d).dst = .idle) :
    ∃ t, exec (.hatchForce tag) s = .next t ∧ Replied s t tag 0 [] ∧
      (∀ p, p < 12 → m.testBit p = true → (t.pair p).force = (if level = 0 then none else some level) ∧
        (t.pair p).forceEnd = (if level = 0 ∨ dur = 0 then none else some (s.now + dur * 400))) ∧
      (∀ p, 12 ≤ p ∨ m.testBit p = false → t.pair p = s.pair p) ∧
      t = { s with folio := t.folio, hatch := { s.hatch with pairs := t.hatch.pairs } } := by
  obtain ⟨hpairs, hforce, hothers⟩ := forcePairs_force (f := if level = 0 then none else some level)
    (e := fun u => if level = 0 ∨ dur = 0 then none else some (u.now + dur * 400))
    (fun s u ⟨P, hu⟩ => by rw [hu]) (below 12 fun p => wbit (wrd (level * 2 ^ 30 + m)) p) (begun s tag)
  have hb := bodyHatchForce_forces (s := begun s tag) hm hne hl hd hen hfree
  generalize forEach _ _ (begun s tag) = u at hpairs hforce hothers hb
  obtain ⟨P, rfl⟩ := hpairs
  obtain ⟨t, ht, hr, f, rfl⟩ := completes h hb rfl rfl
  refine ⟨_, congrArg Host.Outcome.next ht, hr, fun p hp hpm => hforce p ((mem_forced hm).2 ⟨hp, hpm⟩), fun p hp => ?_, rfl⟩
  exact hothers p fun hmem => by
    obtain ⟨hp12, hpm⟩ := (mem_forced hm).1 hmem
    rcases hp with hp | hp
    · omega
    · simp [hp] at hpm

/-! HATCH_FRAME. -/

theorem overtaken_congr {s u : State} {t k : Nat} (hnow : u.now = s.now)
    (hw : tblGet u.hatch.wrote (0, 0) (8 * t + k) = tblGet s.hatch.wrote (0, 0) (8 * t + k)) (r : Nat) :
    overtaken u t k r = overtaken s t k r := by
  simp only [overtaken, hw, hnow]

/-- The first `n` compares of timebase `t` have been stored in one step with the words `w`; PER may have been stored before. -/
structure CmpsStored (t n : Nat) (w : Nat → Word) (s u : State) : Prop where
  frame : ∃ P Z W, u = { s with par := P, hatch := { s.hatch with zc := Z, wrote := W } }
  cmp : ∀ k, k < n → tbCmp u t k = w k ∧ zeroCode u t k = true
  par : ∀ i, i < 65536 → (∀ k, k < n → i ≠ 0x102 + 16 * t + k) → parGet u 5 i = parGet s 5 i
  rank : ∀ k, n ≤ k → k < 7 → ∀ r, overtaken u t k r = overtaken s t k r

/-- The six compares of a frame that none of higher rank has overtaken are stored. -/
theorem storeCmps_stored {t n : Nat} (ht : t < 4) (hn : n ≤ 6) (w : Nat → Word) {s : State}
    (hover : ∀ k, k < n → overtaken s t k 2 = false) :
    CmpsStored t n w s (forUpTo n (fun k s => storeCmp s t k 2 (w k) true) s) := by
  induction n with
  | zero => exact ⟨⟨_, _, _, rfl⟩, fun k hk => absurd hk (by omega), fun _ _ _ => rfl, fun _ _ _ _ => rfl⟩
  | succ n ih =>
    have hu := ih (by omega) fun k hk => hover k (by omega)
    have hstep : forUpTo (n + 1) (fun k s => storeCmp s t k 2 (w k) true) s =
        storeCmp (forUpTo n (fun k s => storeCmp s t k 2 (w k) true) s) t n 2 (w n) true := rfl
    rw [hstep]
    generalize forUpTo n (fun k s => storeCmp s t k 2 (w k) true) s = u at hu
    obtain ⟨hframe, hcmp, hpar, hov⟩ := hu
    rw [storeCmp_lands (by rw [hov n (by omega) (by omega)]; exact hover n (by omega))]
    have hp (i : Nat) (hi : i < 65536) : parGet (parSet u 5 (0x102 + 16 * t + n) (w n)) 5 i =
        if i = 0x102 + 16 * t + n then w n else parGet u 5 i := (parGet_parSet u (by omega) hi _).trans (by simp only [true_and])
    have hz (k : Nat) : tblGet (tblSet u.hatch.zc true (8 * t + n) true) true (8 * t + k) =
        if k = n then true else zeroCode u t k := (tblGet_write ..).trans (by simp only [Nat.add_left_cancel_iff]; rfl)
    have hw (k : Nat) : tblGet (tblSet u.hatch.wrote (0, 0) (8 * t + n) (u.now, 2)) (0, 0) (8 * t + k) =
        if k = n then (u.now, 2) else tblGet u.hatch.wrote (0, 0) (8 * t + k) :=
      (tblGet_write ..).trans (by simp only [Nat.add_left_cancel_iff])
    refine ⟨?_, fun k hk => ⟨?_, ?_⟩, fun i hi hne => ?_, fun k hk hk7 r => ?_⟩
    · obtain ⟨P, Z, W, rfl⟩ := hframe
      exact ⟨_, _, _, rfl⟩
    · refine (hp (0x102 + 16 * t + k) (by omega)).trans ?_
      by_cases hkn : k = n
      · rw [if_pos (by omega), hkn]
      · rw [if_neg (by omega)]
        exact (hcmp k (by omega)).1
    · refine (hz k).trans ?_
      by_cases hkn : k = n
      · rw [if_pos hkn]
      · rw [if_neg hkn]
        exact (hcmp k (by omega)).2
    · refine (hp i hi).trans ((if_neg (hne n (by omega))).trans (hpar i hi fun k hk => hne k (by omega)))
    · rw [← hov k (by omega) hk7 r]
      refine overtaken_congr ?_ ?_ r
      · rfl
      · exact (hw k).trans (if_neg (by omega))

theorem getD_frame (tb per : Word) {cs : List Word} {k : Nat} : (tb :: per :: cs).getD (k + 2) 0 = cs.getD k 0 := rfl

/-- What a frame leaves once its seven words are stored. -/
def frameStored (s : State) (tb : Nat) (per : Word) (cs : List Word) : State :=
  forUpTo 6 (fun k s => storeCmp s tb k 2 (cs.getD k 0) true) (storePer s tb 2 per)

theorem frameStored_stored {s : State} {tb : Nat} (htb : tb < 4) (per : Word) (cs : List Word)
    (hover : ∀ k, k < 7 → overtaken s tb k 2 = false) :
    CmpsStored tb 6 (fun k => cs.getD k 0) (noteWrite tb 6 2 (parSet s 5 (0x101 + 16 * tb) per)) (frameStored s tb per cs) := by
  have hper : storePer s tb 2 per = noteWrite tb 6 2 (parSet s 5 (0x101 + 16 * tb) per) := by
    unfold storePer
    rw [hover 6 (by decide)]
    rfl
  unfold frameStored
  rw [hper]
  refine storeCmps_stored htb (le_refl 6) _ fun k hk => ?_
  have hw : tblGet (tblSet s.hatch.wrote (0, 0) (8 * tb + 6) (s.now, 2)) (0, 0) (8 * tb + k) =
      tblGet s.hatch.wrote (0, 0) (8 * tb + k) := (tblGet_write ..).trans (if_neg (by omega))
  rw [← hover k (by omega)]
  refine overtaken_congr ?_ ?_ 2
  · rfl
  · exact hw

theorem range6_getD {cs : List Word} (h : cs.length = 6) : (List.range 6).map (fun k => cs.getD k 0) = cs := by
  match cs, h with
  | [a, b, c, d, e, f], _ => rfl

theorem bodyHatchFrame_lands {s : State} {tb : Nat} {per : Word} {cs : List Word} (htb : tb < 4) (hlen : cs.length = 6)
    (hper : perOk s tb per.toNat = true) (hcs : ∀ c ∈ cs, cmpOk c = true ∧ hasBits c 0xF0000000 = false)
    (hrun : stringRunsOn s tb = false ∨ per.toNat = tbPer s tb) :
    bodyHatchFrame (wrd tb :: per :: cs) s =
      .done stOk (twoWords s.now) (landCompares tb [0, 1, 2, 3, 4, 5] (frameStored s tb per cs)) := by
  have hn : (wrd tb).toNat = tb := (BitVec.toNat_ofNat ..).trans (Nat.mod_eq_of_lt (by omega))
  have htbf : field (wrd tb) 1 0 = tb := by unfold field; omega
  have hmap : (List.range 6).map (fun k => pw (wrd tb :: per :: cs) (k + 2)) = cs := range6_getD hlen
  have hsmall : hasBits per 0xFF000000 = false := by
    simp only [perOk, Bool.and_eq_true, decide_eq_true_eq] at hper
    rw [show per = wrd per.toNat from by simp [wrd]]
    exact hasBits_small (k := 24) (by decide) (by decide) (by omega)
  unfold bodyHatchFrame
  simp only [hmap]
  have h0 : pw (wrd tb :: per :: cs) 0 = wrd tb := rfl
  have h1 : pw (wrd tb :: per :: cs) 1 = per := rfl
  simp only [h0, h1, htbf]
  refine (checked_nil s ?_ _).trans rfl
  simp only [List.forall_mem_cons, List.not_mem_nil, false_implies, implies_true, and_true]
  refine ⟨?_, ?_, ?_⟩
  · rcases hrun with h | h <;> simp [h]
  · have hany : cs.any (fun w => hasBits w 0xF0000000) = false := List.any_eq_false.2 fun c hc => ne_true_of_eq_false (hcs c hc).2
    rw [hany, hsmall, hasBits_small (k := 2) (by decide) (by decide) (by omega)]
    rfl
  · have hany : cs.any (fun w => !cmpOk w) = false := List.any_eq_false.2 fun c hc => by simp [(hcs c hc).1]
    rw [hany, hper]
    rfl

theorem hatchFrame_lands {s : State} {tag tb : Nat} {per : Word} {cs : List Word} (htb : tb < 4) (hlen : cs.length = 6)
    (h : Starts s tag 0x30 (wrd tb :: per :: cs)) (hper : perOk s tb per.toNat = true)
    (hcs : ∀ c ∈ cs, cmpOk c = true ∧ hasBits c 0xF0000000 = false)
    (hrun : stringRunsOn s tb = false ∨ per.toNat = tbPer s tb)
    (hoff : (s.tb tb).running = false ∨ tbOffset s tb < perLen (tbUpDown s tb) per.toNat)
    (hover : ∀ k, k < 7 → overtaken s tb k 2 = false) :
    ∃ t, exec (.hatchFrame tag) s = .next t ∧ Replied s t tag 0 [wrd s.now, wrd (s.now / 2 ^ 32)] ∧
      tbPer t tb = per.toNat ∧ (∀ k, k < 6 → tbCmp t tb k = cs.getD k 0 ∧ zeroCode t tb k = true) ∧
      t = { s with folio := t.folio, par := t.par,
                   hatch := { s.hatch with pairs := t.hatch.pairs, zc := t.hatch.zc, wrote := t.hatch.wrote } } := by
  have hb := bodyHatchFrame_lands (s := begun s tag) htb hlen hper hcs hrun
  obtain ⟨hframe, hcmp, hpar, _⟩ := frameStored_stored (s := begun s tag) htb per cs hover
  generalize frameStored (begun s tag) tb per cs = u at hb hframe hcmp hpar
  obtain ⟨hg, ho, _⟩ := parSet_frame (begun s tag) 5 (i := 0x101 + 16 * tb) per (by omega)
  have huper : parGet u 5 (0x101 + 16 * tb) = per := (hpar _ (by omega) (by omega)).trans hg
  have hucfg : parGet u 5 (0x100 + 16 * tb) = tbCfg s tb :=
    (hpar _ (by omega) (by omega)).trans (ho 5 _ (by decide) (by omega) (by omega))
  have hul : tbLen u tb = perLen (tbUpDown s tb) per.toNat := by
    unfold tbLen tbUpDown tbPer parNat
    rw [show tbCfg u tb = tbCfg s tb from hucfg, huper]
  have hland := landCompares_clamped (s := u) htb [0, 1, 2, 3, 4, 5] (by
    rw [hul]
    obtain ⟨P, Z, W, rfl⟩ := hframe
    exact hoff)
  generalize landCompares tb [0, 1, 2, 3, 4, 5] u = w at hb hland
  obtain ⟨P, X, rfl⟩ := hland.frame
  have hlcmp (k : Nat) (hk : k < 6) : tbCmp { u with par := P, hatch := { u.hatch with pairs := X } } tb k = cs.getD k 0 :=
    (hland.par 5 _ (by omega) (by omega)).trans (hcmp k hk).1
  have hlper : parGet { u with par := P, hatch := { u.hatch with pairs := X } } 5 (0x101 + 16 * tb) = per :=
    (hland.par 5 _ (by omega) (by omega)).trans huper
  have hzc (k : Nat) (hk : k < 6) : zeroCode u tb k = true := (hcmp k hk).2
  obtain ⟨P', Z, W, rfl⟩ := hframe
  obtain ⟨t, ht, hr, f, rfl⟩ := completes h hb rfl rfl
  exact ⟨_, congrArg Host.Outcome.next ht, hr, congrArg BitVec.toNat hlper, fun k hk => ⟨hlcmp k hk, hzc k hk⟩, rfl⟩

/-- Settles O25: a frame is stored and lands, and a force reaches the pairs of its mask. -/
theorem hatchCommands : Obligations.HatchCommands := by
  unfold Obligations.HatchCommands
  intro s tag
  exact ⟨fun tb per cs htb hlen h hper hcs hrun hoff hover => hatchFrame_lands htb hlen h hper hcs hrun hoff hover,
    fun m level dur hm hne hl hd h hen hfree => hatchForce_forces hm hne hl hd h hen hfree⟩

end Sys2Proof.Proofs
end

section
/-!
PROOFS. The events of a period: its start with the drives that wait for it, the edges of REF, the end of a dead time and of a force
(R211, R222, R225, R348).
-/
namespace Sys2Proof.Proofs
open Sys2Proof.Machine Sys2Proof.Safety Sys2Proof.Laws

/-! What the end of a stop leaves as it is. -/

/-- From `s` to `u` an event may have been recorded, and no drive and no hand-over changed. -/
structure DrivesStand (s u : State) : Prop where
  ev : EvStep s u
  drives : u.drives = s.drives
  ho : u.marg.ho = s.marg.ho

theorem DrivesStand.refl (s : State) : DrivesStand s s := ⟨.refl s, rfl, rfl⟩

theorem DrivesStand.trans {s t u : State} (h : DrivesStand s t) (k : DrivesStand t u) : DrivesStand s u :=
  ⟨h.ev.trans k.ev, k.drives.trans h.drives, k.ho.trans h.ho⟩

theorem DrivesStand.drive {s u : State} (h : DrivesStand s u) (d : Nat) : u.drive d = s.drive d := by
  unfold State.drive
  rw [h.drives]

theorem PairsAlone.stand {s u : State} (h : PairsAlone s u) : DrivesStand s u := by
  obtain ⟨P, rfl⟩ := h
  exact ⟨.of (.refl s) (fun _ h _ => h) fun _ _ _ _ => rfl, rfl, rfl⟩

theorem updRing_stand (s : State) (r : Nat) (f : Ring → Ring) : DrivesStand s (s.updRing r f) := ⟨ev_updRing (.refl s), rfl, rfl⟩

/-- A record of no fault class that names no drive joins the queue, and nothing else changes. -/
theorem record_quiet {s : State} {code idx : Nat} {args : List Word} (hc : eventClass code ≠ 2)
    (hd : eventDrive (mkEvent s code idx args) = none) (h : code ≠ 0x0902) : record s code idx args =
      { s with book := { s.book with inq := evInsert s.book.inq (mkEvent s code idx args) } } :=
  recordEvent_quiet s (mkEvent s code idx args) hc hd h

theorem record_stand {s : State} {code idx : Nat} {args : List Word} (hc : eventClass code ≠ 2)
    (hd : eventDrive (mkEvent s code idx args) = none) (h : code ≠ 0x0902) : DrivesStand s (record s code idx args) :=
  ⟨ev_record (.refl s), by rw [record_quiet hc hd h], by rw [record_quiet hc hd h]⟩

theorem setOp_stand (s : State) (o : OpState) : DrivesStand s (setOp s o) := by
  have hrec := record_stand (s := s) (code := 0x0001) (idx := 0) (args := [wrd (opCode s.op), wrd (opCode o)]) (by decide) rfl (by decide)
  refine ⟨ev_setOp (.refl s), ?_, ?_⟩ <;> unfold setOp <;> split
  · rfl
  · exact hrec.drives
  · rfl
  · exact hrec.ho

theorem leaveRun_stand (s : State) : DrivesStand s (leaveRun s) := rel_ite (setOp_stand s .standby) (.refl s)

theorem periodPairs_stand (l : List Nat) (s : State) : DrivesStand s (forEach l (fun p s => periodPair s p) s) :=
  (forEach_rel PairsAlone.refl PairsAlone.trans (fun p u => (takeLayer_alone u p _).pairs) l s).stand

theorem endStop_stand (d : Nat) (s : State) :
    DrivesStand (s.updDrive d fun v => { v with dst := .idle, torque := 0, stopDue := false }) (endStop d s) := by
  unfold endStop
  extract_lets a b c e f
  have hb : DrivesStand a b := ⟨ev_stopRegTimer (.refl a), rfl, rfl⟩
  have hc : DrivesStand b c := record_stand (by decide) rfl (by decide)
  have he : DrivesStand c e := periodPairs_stand _ _
  have hf : DrivesStand e f := forEach_rel DrivesStand.refl DrivesStand.trans (fun r u => updRing_stand u r _) _ _
  exact hb.trans (hc.trans (he.trans (hf.trans (leaveRun_stand f))))

theorem endSafe_stand (d : Nat) (s : State) :
    DrivesStand (s.updDrive d fun v => { v with dst := .idle, clearDue := false, classD := false }) (endSafe d s) :=
  periodPairs_stand _ _

/-! One drive at a period start of its timebase. -/

/-- From `s` to `u` events may have been recorded, no hand-over changed, no other drive than `d`, and of `d` not the hand-over tick. -/
structure OneDrive (d : Nat) (s u : State) : Prop where
  ev : EvStep s u
  ho : u.marg.ho = s.marg.ho
  others : ∀ e, e ≠ d → u.drive e = s.drive e
  hd : (u.drive d).hd = (s.drive d).hd

theorem OneDrive.refl (d : Nat) (s : State) : OneDrive d s s := ⟨.refl s, rfl, fun _ _ => rfl, rfl⟩

theorem OneDrive.trans {d : Nat} {s t u : State} (h : OneDrive d s t) (k : OneDrive d t u) : OneDrive d s u :=
  ⟨h.ev.trans k.ev, k.ho.trans h.ho, fun e he => (k.others e he).trans (h.others e he), k.hd.trans h.hd⟩

theorem DrivesStand.one {s u : State} (h : DrivesStand s u) (d : Nat) : OneDrive d s u :=
  ⟨h.ev, h.ho, fun e _ => h.drive e, congrArg Drive.hd (h.drive d)⟩

theorem updDrive_one (s : State) (d : Nat) {f : Drive → Drive} (hf : ∀ v, (f v).hd = v.hd) : OneDrive d s (s.updDrive d f) :=
  ⟨ev_updDrive (.refl s), rfl, fun e he => by simp [he], by simp [hf]⟩

theorem drivePeriod_one (d : Nat) (s : State) : OneDrive d s (drivePeriod d s) := by
  unfold drivePeriod
  dsimp only
  split
  · refine OneDrive.trans ?_ ((endStop_stand d s).one d)
    exact updDrive_one s d fun _ => rfl
  · refine rel_ite (OneDrive.trans ?_ ((endSafe_stand d s).one d)) (.refl d s)
    exact updDrive_one s d fun _ => rfl

/-- A stop whose end is due leaves the drive idle without a set-point (R348). -/
theorem drivePeriod_stops {d : Nat} {s : State} (h : (s.drive d).dst = .stopping) (hdue : (s.drive d).stopDue = true) :
    ((drivePeriod d s).drive d).dst = .idle ∧ ((drivePeriod d s).drive d).torque = 0 := by
  have heq : drivePeriod d s = endStop d s := if_pos ⟨h, .inl hdue⟩
  rw [heq, (endStop_stand d s).drive d]
  simp

/-- With no hand-over accepted and none of its own, a drive at a period start at most leaves its wait for layer 4. -/
theorem handDrive_lone {d : Nat} {s : State} (hho : s.marg.ho ≠ .accepted) (hhd : (s.drive d).hd = none) :
    handDrive d s = s ∨ handDrive d s = s.updDrive d fun v => { v with l4From := none } := by
  have hinst : hoInstant s = s := if_pos (.inl hho)
  unfold handDrive
  rw [hinst]
  dsimp only
  cases hl : (s.drive d).l4From with
  | none => exact .inl (by simp only [hhd])
  | some t =>
    by_cases hc : t ≤ s.now ∧ (!s.marg.ownDue) = true
    · exact .inr (by simp [hc, hhd])
    · exact .inl (by simp only [if_neg hc, hhd])

theorem handDrive_one {d : Nat} {s : State} (hho : s.marg.ho ≠ .accepted) (hhd : (s.drive d).hd = none) :
    OneDrive d s (handDrive d s) ∧ ((handDrive d s).drive d).dst = (s.drive d).dst ∧
      ((handDrive d s).drive d).torque = (s.drive d).torque := by
  rcases handDrive_lone hho hhd with h | h <;> rw [h]
  · exact ⟨.refl d s, rfl, rfl⟩
  · exact ⟨updDrive_one s d fun _ => rfl, by simp, by simp⟩

/-- A stopping drive of timebase `t` whose stop is due. -/
def stopDueOn (s : State) (t d : Nat) : Prop :=
  hasArch (s.drive d) = true ∧ driveTb (s.drive d) = t ∧ (s.drive d).dst = .stopping ∧ (s.drive d).stopDue = true

/-- The drives below `n` have taken a period start of timebase `t`. -/
structure DrivesTook (t n : Nat) (s u : State) : Prop where
  ev : EvStep s u
  ho : u.marg.ho = s.marg.ho
  later : ∀ d, n ≤ d → u.drive d = s.drive d
  stopped : ∀ d, d < n → stopDueOn s t d → (u.drive d).dst = .idle ∧ (u.drive d).torque = 0

theorem drives_took {t n : Nat} {s : State} (hn : n ≤ 4) (hho : s.marg.ho ≠ .accepted) (hhd : ∀ d, d < 4 → (s.drive d).hd = none) :
    DrivesTook t n s (forUpTo n (fun d s => if hasArch (s.drive d) ∧ driveTb (s.drive d) = t then
      handDrive d (drivePeriod d s) else s) s) := by
  induction n with
  | zero => exact ⟨.refl s, rfl, fun _ _ => rfl, fun d hd => absurd hd (by omega)⟩
  | succ n ih =>
    have hu := ih (by omega)
    have hstep : forUpTo (n + 1) (fun d s => if hasArch (s.drive d) ∧ driveTb (s.drive d) = t then
        handDrive d (drivePeriod d s) else s) s =
        (fun u => if hasArch (u.drive n) ∧ driveTb (u.drive n) = t then handDrive n (drivePeriod n u) else u)
          (forUpTo n (fun d s => if hasArch (s.drive d) ∧ driveTb (s.drive d) = t then handDrive d (drivePeriod d s) else s) s) := rfl
    rw [hstep]
    generalize forUpTo n _ s = u at hu
    obtain ⟨hev, huho, hlater, hstopped⟩ := hu
    have hn' : u.drive n = s.drive n := hlater n (le_refl n)
    have hperiod := drivePeriod_one n u
    obtain ⟨hone, hdst, htorque⟩ := handDrive_one (d := n) (s := drivePeriod n u) (by rw [hperiod.ho, huho]; exact hho)
      (by rw [hperiod.hd, hn']; exact hhd n (by omega))
    dsimp only
    rw [hn']
    by_cases hc : hasArch (s.drive n) = true ∧ driveTb (s.drive n) = t
    · rw [if_pos hc]
      have hboth := hperiod.trans hone
      refine ⟨hev.trans hboth.ev, hboth.ho.trans huho,
        fun d hd => (hboth.others d (by omega)).trans (hlater d (by omega)), fun d hd hdue => ?_⟩
      by_cases hdn : d = n
      · subst hdn
        obtain ⟨hidle, hzero⟩ := drivePeriod_stops (s := u) (d := d) (by rw [hn']; exact hdue.2.2.1) (by rw [hn']; exact hdue.2.2.2)
        exact ⟨hdst.trans hidle, htorque.trans hzero⟩
      · rw [hboth.others d hdn]
        exact hstopped d (by omega) hdue
    · rw [if_neg hc]
      refine ⟨hev, huho, fun d hd => hlater d (by omega), fun d hd hdue => ?_⟩
      by_cases hdn : d = n
      · exact absurd ⟨hdue.1, hdue.2.1⟩ (hdn ▸ hc)
      · exact hstopped d (by omega) hdue

theorem farServe_stand (t : Nat) (s : State) : DrivesStand s (farServe t s) :=
  forEach_rel DrivesStand.refl DrivesStand.trans (fun r u => updRing_stand u r _) _ _

/-- The drives of timebase `t` at a period start of it. -/
theorem periodDrives_took {t : Nat} {s : State} (hho : s.marg.ho ≠ .accepted) (hhd : ∀ d, d < 4 → (s.drive d).hd = none) :
    DrivesTook t 4 s (periodDrives t s) := by
  have htook := drives_took (t := t) (le_refl 4) hho hhd
  unfold periodDrives
  generalize forUpTo 4 _ s = u at htook ⊢
  obtain ⟨hev, huho, hlater, hstopped⟩ := htook
  have hfar := farServe_stand t u
  refine ⟨hev.trans hfar.ev, hfar.ho.trans huho, fun d hd => (hfar.drive d).trans (hlater d hd), fun d hd hdue => ?_⟩
  rw [hfar.drive d]
  exact hstopped d hd hdue

/-- The period start of a running timebase that none follows, with no hand-over under way. -/
theorem periodStart_frees {s : State} {tb : Nat} (htb : tb < 4) (hruns : (s.tb tb).running = true) (hover : tbLen s tb ≤ tbOffset s tb)
    (hfollows : ∀ m, m < 4 → follows s m tb = false) (hdue : s.marg.hoDue = false) (hho : s.marg.ho ≠ .accepted)
    (hhd : ∀ d, d < 4 → (s.drive d).hd = none) :
    ∃ t, exec (.periodStart tb) s = .next t ∧ (t.tb tb).running = true ∧ tbOffset t tb = 0 ∧
      parGet t 5 (0x10B + 16 * tb) = parGet s 5 (0x10B + 16 * tb) + 1 ∧
      (∀ d, d < 4 → hasArch (s.drive d) = true → driveTb (s.drive d) = tb → (s.drive d).dst = .stopping →
        (s.drive d).stopDue = true → (t.drive d).dst = .idle ∧ (t.drive d).torque = 0) ∧
      (∀ m, m ≠ tb → t.tb m = s.tb m) ∧ t.conv = s.conv ∧ t.plate = s.plate ∧ t.nv = s.nv ∧ t.mem.cells = s.mem.cells := by
  have hbegun := periodBegun_pairs tb 0 s
  simp only [Nat.cast_zero, sub_zero] at hbegun
  generalize hbase : parWrap (s.updTb tb fun b => { b with t0 := (s.now : Int), running := true, startTick := s.now }) 5
    (0x10B + 16 * tb) = base at hbegun
  have hb := hbegun.stand
  have htook := periodDrives_took (t := tb) (s := periodBegun tb 0 s) (by rw [hb.ho, ← hbase]; exact hho)
    (fun d hd => by rw [hb.drive d, ← hbase]; exact hhd d hd)
  generalize hu : periodDrives tb (periodBegun tb 0 s) = u at htook
  have hev : EvStep base u := hb.ev.trans htook.ev
  have hpar (i : Nat) (hi : i < 65536) : parGet base 5 i = if i = 0x10B + 16 * tb then parGet s 5 (0x10B + 16 * tb) + 1 else parGet s 5 i := by
    rw [← hbase]
    exact (parGet_parSet _ (by omega) hi _).trans (by simp only [true_and]; rfl)
  have hbtb (m : Nat) : base.tb m = if m = tb then { s.tb tb with t0 := (s.now : Int), running := true, startTick := s.now } else s.tb m := by
    rw [← hbase]
    exact tb_updTb s tb m fun b => { b with t0 := (s.now : Int), running := true, startTick := s.now }
  have hf (m : Nat) (hm : m < 4) : follows u m tb = false := by
    have hcfg : tbCfg u m = tbCfg s m :=
      (parGet_of_evStep hev (by omega) (by decide) (by decide)).trans ((hpar _ (by omega)).trans (if_neg (by omega)))
    unfold follows
    rw [hcfg]
    exact hfollows m hm
  have hstart : startPeriod 5 tb 0 s = periodLayers tb u := startPeriod_lone hu (by
    obtain ⟨⟨_, _, _, _, _, _, _, _, _, _, _, _, _, _, _, _, _, _, _, rfl⟩, _, _⟩ := hev
    rw [← hbase]
    exact hdue) hf
  have hlay := (periodLayers_pairs tb u).stand
  generalize periodLayers tb u = t at hstart hlay
  have het : EvStep base t := hev.trans hlay.ev
  have htb' (m : Nat) : t.tb m = base.tb m := congrArg (fun T => tblGet T ({} : Timebase) m) het.hatch_tbs
  refine ⟨t, (congrArg Host.Outcome.next (if_pos ⟨htb, hruns, hover⟩)).trans (congrArg Host.Outcome.next hstart), ?_, ?_, ?_, ?_, ?_, ?_⟩
  · rw [htb', hbtb, if_pos rfl]
  · unfold tbOffset
    rw [htb', hbtb, if_pos rfl, het.now, ← hbase]
    exact congrArg Int.toNat (sub_self _)
  · rw [parGet_of_evStep het (by omega) (by decide) (by decide), hpar _ (by omega), if_pos rfl]
  · intro d hd harch hdtb hdst hstop
    have hdr : (periodBegun tb 0 s).drive d = s.drive d := (hb.drive d).trans (by rw [← hbase]; rfl)
    rw [hlay.drive d]
    exact htook.stopped d hd (by unfold stopDueOn; rw [hdr]; exact ⟨harch, hdtb, hdst, hstop⟩)
  · intro m hm
    rw [htb', hbtb, if_neg hm]
  · rw [het.conv, het.plate, het.nv, het.mem_cells, ← hbase]
    exact ⟨rfl, rfl, rfl, rfl⟩

/-! Edges of REF. -/

/-- REF takes level `v`: the armed edges stay, and at layer 4 the side of the old level is off. -/
theorem setRef_takes (s : State) (p : Nat) (v : Bool) : ((setRef s p v).pair p).ref = v ∧
    ((setRef s p v).pair p).armOn = (s.pair p).armOn ∧ ((setRef s p v).pair p).armOff = (s.pair p).armOff ∧
    ((s.pair p).ref ≠ v → (s.pair p).layer = 4 → (if v then ((setRef s p v).pair p).l else ((setRef s p v).pair p).h) = false) := by
  have href (u : State) : ((refPair u p v).pair p).ref = (u.pair p).ref ∧ ((refPair u p v).pair p).armOn = (u.pair p).armOn ∧
      ((refPair u p v).pair p).armOff = (u.pair p).armOff ∧
      (if v then ((refPair u p v).pair p).l else ((refPair u p v).pair p).h) = false := by
    unfold refPair
    cases v <;> split <;> simp [drivePair]
  unfold setRef
  by_cases hv : (s.pair p).ref = v
  · rw [if_pos hv]
    exact ⟨hv, rfl, rfl, fun h => absurd hv h⟩
  · rw [if_neg hv]
    dsimp only
    by_cases hl : (s.pair p).layer = 4
    · rw [if_pos (by simpa using hl)]
      obtain ⟨h1, h2, h3, h4⟩ := href (s.updPair p fun q => { q with ref := v, band := q.newBand.getD q.band, newBand := none })
      exact ⟨h1.trans (by simp), h2.trans (by simp), h3.trans (by simp), fun _ _ => h4⟩
    · rw [if_neg (by simpa using hl)]
      exact ⟨by simp, by simp, by simp, fun _ h => absurd h hl⟩

/-- The turn-off that a turn-on arms on an up-down timebase. -/
def turnOff (s : State) (p : Nat) : Option Nat :=
  match pairEff s p with
  | .val e => if tbUpDown s (pairTb s p) then some (16 * tbPer s (pairTb s p) + e) else none
  | _ => none

theorem refEdge_on {s : State} {p a : Nat} (hp : p < 12) (hruns : (s.tb (pairTb s p)).running = true)
    (hbegun : tbBegun s (pairTb s p) = true) (ha : (s.pair p).armOn = some a) (hoff : a / 16 ≤ tbOffset s (pairTb s p)) :
    ∃ t, exec (.refEdge p) s = .next t ∧ (t.pair p).ref = true ∧ (t.pair p).armOn = none ∧
      ((s.pair p).ref = false → (s.pair p).layer = 4 → (t.pair p).l = false) ∧ (∀ q, q ≠ p → t.pair q = s.pair q) ∧
      t = { s with hatch := { s.hatch with pairs := t.hatch.pairs } } := by
  have hdue : edgeDue s (pairTb s p) ((s.pair p).armOn.or (s.pair p).armOff) = true := by simp [ha, edgeDue, hbegun, hoff]
  have hexec : exec (.refEdge p) s =
      .next (setRef (s.updPair p fun q => { q with armOn := none, turnedOn := true, armOff := turnOff s p }) p true) := by
    refine congrArg Host.Outcome.next ((if_neg (by simp [hruns, hdue]; omega)).trans ?_)
    rw [ha]
    rfl
  obtain ⟨h1, h2, _, h4⟩ := setRef_takes (s.updPair p fun q => { q with armOn := none, turnedOn := true, armOff := turnOff s p }) p true
  have halone := (PairAlone.upd p s fun q => { q with armOn := none, turnedOn := true, armOff := turnOff s p }).trans (setRef_alone _ p true)
  generalize setRef _ p true = t at hexec h1 h2 h4 halone
  exact ⟨t, hexec, h1, h2.trans (by simp), fun hr hl => h4 (by simp [hr]) (by simpa using hl), halone.1.2, halone.pairs.frame⟩

theorem refEdge_off {s : State} {p a : Nat} (hp : p < 12) (hruns : (s.tb (pairTb s p)).running = true)
    (hbegun : tbBegun s (pairTb s p) = true) (hon : (s.pair p).armOn = none) (ha : (s.pair p).armOff = some a)
    (hoff : a / 16 ≤ tbOffset s (pairTb s p)) :
    ∃ t, exec (.refEdge p) s = .next t ∧ (t.pair p).ref = false ∧ (t.pair p).armOff = none ∧
      ((s.pair p).ref = true → (s.pair p).layer = 4 → (t.pair p).h = false) ∧ (∀ q, q ≠ p → t.pair q = s.pair q) ∧
      t = { s with hatch := { s.hatch with pairs := t.hatch.pairs } } := by
  have hdue : edgeDue s (pairTb s p) ((s.pair p).armOn.or (s.pair p).armOff) = true := by simp [hon, ha, edgeDue, hbegun, hoff]
  have hexec : exec (.refEdge p) s =
      .next (setRef (s.updPair p fun q => { q with armOff := none, turnedOff := true }) p false) := by
    refine congrArg Host.Outcome.next ((if_neg (by simp [hruns, hdue]; omega)).trans ?_)
    rw [hon, ha]
  obtain ⟨h1, _, h3, h4⟩ := setRef_takes (s.updPair p fun q => { q with armOff := none, turnedOff := true }) p false
  have halone := (PairAlone.upd p s fun q => { q with armOff := none, turnedOff := true }).trans (setRef_alone _ p false)
  generalize setRef _ p false = t at hexec h1 h3 h4 halone
  exact ⟨t, hexec, h1, h3.trans (by simp), fun hr hl => h4 (by simp [hr]) (by simpa using hl), halone.1.2, halone.pairs.frame⟩

/-- Settles O26: the four events, each by what it does to the period or to its pair. -/
theorem periodsAndEdges : Obligations.PeriodsAndEdges := by
  unfold Obligations.PeriodsAndEdges
  intro s
  refine ⟨fun tb htb hruns hover hfollows hdue hho hhd => periodStart_frees htb hruns hover hfollows hdue hho hhd,
    fun p hp hruns hbegun => ⟨fun a ha hoff => refEdge_on hp hruns hbegun ha hoff,
      fun a hon ha hoff => refEdge_off hp hruns hbegun hon ha hoff⟩, fun p b e hpend => ⟨fun hlt => ?_, fun hle => ?_⟩,
    fun p e hend hle => ?_⟩
  · show Host.Outcome.next _ = _
    rw [hpend]
    exact congrArg Host.Outcome.next (if_pos hlt)
  · have hexec : exec (.deadtimeEnd p) s = .next (if b then s.updPair p fun q => { q with h := true, pend := none }
        else s.updPair p fun q => { q with l := true, pend := none }) := by
      show Host.Outcome.next _ = _
      rw [hpend]
      exact congrArg Host.Outcome.next (if_neg (by omega))
    cases b with
    | true => exact ⟨_, hexec, by simp, fun q hq => by simp [hq], rfl⟩
    | false => exact ⟨_, hexec, by simp, fun q hq => by simp [hq], rfl⟩
  · have hexec : exec (.forceExpiry p) s = .next (forcePair none (fun _ => none) p s) := by
      show Host.Outcome.next _ = _
      rw [hend]
      exact congrArg Host.Outcome.next (if_neg (by omega))
    have halone := forcePair_alone none (fun _ => none) p s
    obtain ⟨hf, he⟩ := forcePair_force none (fun _ => none) p s
    exact ⟨_, hexec, hf, he, halone.1.2, halone.pairs.frame⟩

end Sys2Proof.Proofs
end

section
/-!
PROOFS. Writes of TRIP_ROUTE, PAIR_CFG, MIR_EN, LP_RATE and START_EXPECT (R223, R224, R231, R384, R466).
-/
namespace Sys2Proof.Proofs
open Sys2Proof.Machine Sys2Proof.Safety Sys2Proof.Laws

theorem paramInfo_tripRoute {n : Nat} (hn : n < 32) : paramInfo 9 (0x100 + n) = pRWS 0xCFFFFFFF 0 := by
  interval_cases n <;> rfl

theorem paramInfo_pairCfg {p : Nat} (hp : p < 12) : paramInfo 5 (0x200 + 16 * p) = pRWS 0xFFFFFFFF (pairCfgReset p) := by
  interval_cases p <;> rfl

theorem paramInfo_startExpect {r : Nat} (hr : r < 16) : paramInfo 15 (0x100 + r) = pRW 0x1FF 0 := by
  interval_cases r <;> rfl

/-! TRIP_ROUTE. -/

/-- TRIP_ROUTE is not in protected memory, so that its write is `writeTripRoute`. -/
theorem writeRow_tripRoute {s : State} {n : Nat} {v : Word} (hn : n < 32) (h : WritePasses s 9 (0x100 + n) v) :
    ∃ w, w &&& 0xCFFFFFFF = v &&& 0xCFFFFFFF ∧ field w 31 30 = field v 31 30 ∧
      writeRow 9 (0x100 + n) v s = writeTripRoute s n w := by
  have hx := (writeRow_rws h (paramInfo_tripRoute hn)).2
  refine ⟨merged (parGet s 9 (0x100 + n)) 0xCFFFFFFF v, merged_and .., field_merged (by decide) (by decide), hx.trans ?_⟩
  show write09 s (0x100 + n) _ = _
  unfold write09
  have hram : sram9 (0x100 + n) = false := by
    simp only [sram9, Bool.or_eq_false_iff, Bool.and_eq_false_iff, decide_eq_false_iff_not]
    omega
  simp only [hram, Bool.false_eq_true, if_false, if_pos (show 0x100 ≤ 0x100 + n ∧ 0x100 + n ≤ 0x11F by omega), Nat.add_sub_cancel_left]

theorem latchSet_parSet (s : State) (u i : Nat) (v : Word) (n : Nat) : latchSet (parSet s u i v) n = latchSet s n := rfl

/-- A route of a source that is neither active nor latched is stored only. -/
theorem writeTripRoute_stores {s : State} {n : Nat} {w : Word} (hlatch : latchSet s n = false) (hin : s.hatch.tripIn.testBit n = false) :
    writeTripRoute s n w = parSet s 9 (0x100 + n) w := by
  have hin' : (parSet s 9 (0x100 + n) w).hatch.tripIn.testBit n = false := hin
  unfold writeTripRoute
  simp only [latchSet_parSet, hlatch, hin', Bool.false_eq_true, false_and, and_false, if_false]

/-- A route of an active source that gains an action sets the latch. -/
theorem writeTripRoute_latches {s : State} {n : Nat} {w : Word} (hlatch : latchSet s n = false) (hin : s.hatch.tripIn.testBit n = true)
    (hold : field (tripRoute s n) 31 30 = 0) (hnew : field w 31 30 ≠ 0) :
    writeTripRoute s n w = setTripLatch (parSet s 9 (0x100 + n) w) n := by
  unfold writeTripRoute
  exact if_pos ⟨hold, hnew, hin, by rw [latchSet_parSet, hlatch]; rfl⟩

/-- What the setting of a latch leaves: the latch set, and the routes as they were. -/
theorem setTripLatch_sets (s : State) (n : Nat) {m : Nat} (hm : m < 32) :
    latchSet (setTripLatch s n) n = true ∧ tripRoute (setTripLatch s n) m = tripRoute s m := by
  have hev : EvStep (latched n s) (setTripLatch s n) :=
    ev_raise (EvStep.forEach (ev_settlePairs (.refl _)) fun _ _ h => ev_orderRing h)
  refine ⟨?_, parGet_of_evStep hev (by omega) (by decide) (by decide)⟩
  rw [latch_step hev, latchSet_latched]
  simp

/-! PAIR_CFG. -/

theorem writeRow_pairCfg {s : State} {p : Nat} {v : Word} (hp : p < 12) (h : WritePasses s 5 (0x200 + 16 * p) v) :
    writeRow 5 (0x200 + 16 * p) v s =
      (let u := movePair p (parSet s 5 (0x200 + 16 * p) v)
       settlePair (if wbit v 19 then u else setBand u p (field v 23 21)) p) := by
  have hx := (writeRow_rws h (paramInfo_pairCfg hp)).2
  rw [merged_all] at hx
  refine hx.trans ?_
  show write05 s (0x200 + 16 * p) v = _
  unfold write05
  have hdiv : (0x200 + 16 * p - 0x200) / 16 = p := by omega
  rw [if_neg (by omega), if_pos (by omega)]
  simp only [hdiv]

theorem pairCfg_only {p : Nat} {s t : State} (h : OnlyPair p s t) (u i : Nat) : parGet t u i = parGet s u i := by
  obtain ⟨⟨_, _, rfl⟩, _⟩ := h
  rfl

theorem pairCfgWrite_moves {s : State} {p : Nat} {v : Word} (hp : p < 12) (h : WritePasses s 5 (0x200 + 16 * p) v) :
    ∃ t, exec (.pairCfgWrite p v) s = .next t ∧ pairCfg t p = v ∧
      (wbit v 19 = false → (t.pair p).newBand.getD (t.pair p).band = field v 23 21) ∧
      OthersKept s t 5 (0x200 + 16 * p) ∧ (∀ q, q ≠ p → t.pair q = s.pair q) ∧
      t = { s with par := t.par, hatch := { s.hatch with pairs := t.hatch.pairs }, book := { s.book with inq := t.book.inq } } := by
  have hx := writeRow_pairCfg hp h
  obtain ⟨hg, ho, _⟩ := parSet_frame s 5 (i := 0x200 + 16 * p) v (by omega)
  have hmove := only_movePair (parSet s 5 (0x200 + 16 * p) v) p
  dsimp only at hx
  generalize movePair p (parSet s 5 (0x200 + 16 * p) v) = u at hx hmove
  have hband : OnlyPair p u (if wbit v 19 then u else setBand u p (field v 23 21)) :=
    rel_ite (.refl p u) (only_setBand u p _)
  have hchosen : wbit v 19 = false → chosen (if wbit v 19 then u else setBand u p (field v 23 21)) p = field v 23 21 := fun h19 => by
    rw [h19]
    exact chosen_setBand ..
  generalize (if wbit v 19 then u else setBand u p (field v 23 21)) = w at hx hband hchosen
  have honly := hmove.trans (hband.trans (only_settlePair w p))
  have hch := chosen_settlePair w p
  generalize settlePair w p = t at hx honly hch
  refine ⟨t, congrArg Host.Outcome.next ((if_pos hp).trans hx), (pairCfg_only honly 5 _).trans hg, fun h19 => hch.trans (hchosen h19),
    fun u i hu hi hne => (pairCfg_only honly u i).trans (ho u i hu hi hne), honly.2, ?_⟩
  obtain ⟨⟨_, _, rfl⟩, _⟩ := honly
  rfl

/-! MIR_EN. -/

theorem writeRow_mirEn {s : State} {v : Word} (h : WritePasses s 13 4 v) : ∃ w, wbit w 31 = wbit v 31 ∧
    writeRow 13 4 v s =
      (if mirOn s = wbit v 31 then parSet s 13 4 w
       else if wbit v 31 then
         updBook (parSet s 13 4 w) fun b => { b with mirActive := true, mirFull := false, mirWrapped := false, mirIndex := 0, mirQueue := [] }
       else
         serveWaits (lpIssue 200 { updBook (parSet s 13 4 w) fun b => { b with mirActive := false, mirQueue := [] } with
           mem := { s.mem with lpOut := s.mem.lpOut.filter fun x => x ≠ 4 } })) := by
  have hx := (writeRow_rw (m := 0xC0000000) h rfl).2
  have h31 : wbit (merged (parGet s 13 4) 0xC0000000 v) 31 = wbit v 31 := wbit_merged (by decide)
  generalize merged (parGet s 13 4) 0xC0000000 v = w at hx h31
  refine ⟨w, h31, hx.trans ?_⟩
  show write0D s 4 w = _
  unfold write0D
  simp only [h31, ne_eq, not_true, false_or]
  rfl

/-- With nothing held by LPDDR5 nothing is served. -/
theorem serveWaits_idle {s : State} (hwait : s.mem.lpWait = []) (hstore : s.mem.lpStore = []) :
    ∃ M, serveWaits s = { s with mem := M } ∧ M.cells = s.mem.cells := by
  unfold serveWaits
  rw [hstore]
  simp only [forEach, hwait]
  exact ⟨_, rfl, rfl⟩

theorem mirEnWrite_ends {s : State} {v : Word} (h : WritePasses s 13 4 v) (h31 : wbit v 31 = false) (hon : mirOn s = true)
    (hwait : s.mem.lpWait = []) (hstore : s.mem.lpStore = []) :
    ∃ t, exec (.mirEnWrite v) s = .next t ∧ mirOn t = false ∧ OthersKept s t 13 4 ∧ t.mem.cells = s.mem.cells ∧
      t = { s with par := t.par, book := { s.book with mirActive := false, mirQueue := [] }, mem := t.mem } := by
  obtain ⟨w, hw, hx⟩ := writeRow_mirEn h
  rw [hon, h31, if_neg (by decide), if_neg (by decide)] at hx
  obtain ⟨hg, ho, _⟩ := parSet_frame s 13 (i := 4) w (by decide)
  obtain ⟨M, hissue, hcells, hw', hs'⟩ := lpIssue_mem 200 { updBook (parSet s 13 4 w) fun b => { b with mirActive := false, mirQueue := [] } with
    mem := { s.mem with lpOut := s.mem.lpOut.filter fun x => x ≠ 4 } }
  rw [hissue] at hx
  obtain ⟨M', hserve, hcells'⟩ := serveWaits_idle (s := { updBook (parSet s 13 4 w) fun b => { b with mirActive := false, mirQueue := [] } with
    mem := M }) (hw'.trans hwait) (hs'.trans hstore)
  exact ⟨_, congrArg Host.Outcome.next (hx.trans hserve), (congrArg (wbit · 31) hg).trans (hw.trans h31), ho, hcells'.trans hcells, rfl⟩

/-! The rows that are kept in MRAM. -/

theorem writeRow_lpRate {s : State} {v : Word} (h : WritePasses s 10 1 v) :
    writeRow 10 1 v s = nvSet s 10 1 (v &&& 0xC0000000) := by
  have hopen : mramOpen s = true := by simpa [mramDenied] using (Bool.or_eq_false_iff.1 (mram_open h rfl)).2
  have hx := (writeRow_known (p := { rw := 0xC0000000, rsv := 0x31FFFFFF }) h rfl).2
  rw [landValue_plain s v rfl rfl] at hx
  have hand : merged (parGet s 10 1) ((0xC0000000 : Word) ||| 0 ||| 0) v &&& 0xC0000000 = v &&& 0xC0000000 := merged_and ..
  refine hx.trans ?_
  show write0A s 1 (merged (parGet s 10 1) ((0xC0000000 : Word) ||| 0 ||| 0) v) = _
  unfold write0A
  rw [if_pos rfl, if_pos hopen, hand]

theorem writeRow_startExpect {s : State} {r : Nat} {v : Word} (hr : r < 16) (h : WritePasses s 15 (0x100 + r) v) :
    writeRow 15 (0x100 + r) v s = nvSet s 15 (0x100 + r) (merged (parGet s 15 (0x100 + r)) 0x1FF v) := by
  refine (writeRow_rw (m := 0x1FF) h (paramInfo_startExpect hr)).2.trans ?_
  show write0F s (0x100 + r) _ = _
  unfold write0F
  rw [if_neg (by omega), if_pos (by omega)]

/-- Settles O17: each row by what it stores, and what follows from it. -/
theorem pinAndStoreWrites : Obligations.PinAndStoreWrites := by
  unfold Obligations.PinAndStoreWrites
  intro s v
  refine ⟨fun n hn h hlatch => ⟨fun hin => ?_, fun hin hold hnew => ?_⟩, fun p hp h => pairCfgWrite_moves hp h,
    fun h => ⟨fun h31 hoff => ?_, fun hsame => ?_, fun h31 hon hwait hstore => mirEnWrite_ends h h31 hon hwait hstore⟩,
    fun h => ?_, fun r hr h => ?_⟩
  · obtain ⟨w, hand, _, hx⟩ := writeRow_tripRoute hn h
    rw [writeTripRoute_stores hlatch hin] at hx
    obtain ⟨hg, ho, hf⟩ := parSet_frame s 9 (i := 0x100 + n) w (by omega)
    exact ⟨_, congrArg Host.Outcome.next ((if_pos hn).trans hx), (congrArg (· &&& 0xCFFFFFFF) hg).trans hand, ho, hf⟩
  · obtain ⟨w, hand, hfield, hx⟩ := writeRow_tripRoute hn h
    rw [writeTripRoute_latches hlatch hin hold (by rw [hfield]; exact hnew)] at hx
    obtain ⟨hset, hroute⟩ := setTripLatch_sets (parSet s 9 (0x100 + n) w) n hn
    generalize setTripLatch (parSet s 9 (0x100 + n) w) n = t at hx hset hroute
    refine ⟨t, congrArg Host.Outcome.next ((if_pos hn).trans hx), ?_, hset⟩
    rw [hroute, tripRoute, parGet_parSet_self, hand]
  · obtain ⟨w, hw, hx⟩ := writeRow_mirEn h
    rw [hoff, h31, if_neg (by decide), if_pos rfl] at hx
    obtain ⟨hg, ho, _⟩ := parSet_frame s 13 (i := 4) w (by decide)
    exact ⟨_, congrArg Host.Outcome.next hx, (congrArg (wbit · 31) hg).trans (hw.trans h31), ho, rfl⟩
  · obtain ⟨w, hw, hx⟩ := writeRow_mirEn h
    rw [if_pos hsame.symm] at hx
    obtain ⟨hg, ho, hf⟩ := parSet_frame s 13 (i := 4) w (by decide)
    exact ⟨_, congrArg Host.Outcome.next hx, (congrArg (wbit · 31) hg).trans hw, ho, hf⟩
  · exact ⟨_, congrArg Host.Outcome.next (writeRow_lpRate h), nvGet_nvSet_self .., rfl⟩
  · exact ⟨_, congrArg Host.Outcome.next ((if_pos hr).trans (writeRow_startExpect hr h)),
      (congrArg (· &&& 0x1FF) (nvGet_nvSet_self ..)).trans (merged_and ..), rfl⟩

end Sys2Proof.Proofs
end

section
/-!
PROOFS. MODE (R112, R113): what a period start and the operations of a drive leave aside, and CONFIGURE, RUN and STOP.
-/
namespace Sys2Proof.Proofs
open Sys2Proof.Machine Sys2Proof.Safety Sys2Proof.Laws

/-! Relations that hold of whatever a period start does. -/

/-- From `T` to `U` only what goes with the role of a paired device changed. -/
def Reroled (T U : Timing) : Prop :=
  ∃ m g b d w, U = { T with master := m, alignGood := g, alignBad := b, stepDue := d, slew16 := w }

theorem Reroled.refl (T : Timing) : Reroled T T := ⟨_, _, _, _, _, rfl⟩

/-- A relation that the parts of a period start keep: events, parameters, a timebase that starts, and the state of Timing, of the
position sources, of Stop-out and of the Margin link. -/
structure Kept (R : State → State → Prop) : Prop where
  refl : ∀ s, R s s
  trans : ∀ {s t u}, R s t → R t u → R s u
  ev : ∀ {s u}, EvStep s u → R s u
  par : ∀ (s : State) (u i : Nat) (v : Word), 5 ≤ u → R s (parSet s u i v)
  tb : ∀ (s : State) t (f : Timebase → Timebase), (∀ b, (f b).running = true) → R s (s.updTb t f)
  misc : ∀ (s : State) X T O M, Reroled s.tim T → R s { s with pos := X, tim := T, so := O, marg := M }

section
variable {R : State → State → Prop} (h : Kept R)
include h

theorem Kept.upd (s : State) (d : Nat) (f : Drive → Drive) : R s (s.updDrive d f) := h.ev (ev_updDrive (.refl s))

theorem Kept.ring (s : State) (r : Nat) (f : Ring → Ring) : R s (s.updRing r f) := h.ev (ev_updRing (.refl s))

theorem Kept.marg (s : State) (f : Margin → Margin) : R s (updMarg s f) := h.misc s s.pos s.tim s.so _ (.refl _)

theorem Kept.forEach {α : Type} {f : α → State → State} (hf : ∀ a u, R u (f a u)) (l : List α) (s : State) : R s (Machine.forEach l f s) :=
  forEach_rel h.refl h.trans hf l s

theorem Kept.forUpTo {n : Nat} {f : Nat → State → State} (hf : ∀ k u, R u (f k u)) (s : State) : R s (Machine.forUpTo n f s) :=
  forUpTo_rel h.refl h.trans (fun k _ => hf k) s

theorem kept_queueCell (s : State) (t : CellType) (sub : Nat) (ws : List Word) : R s (queueCell s t sub ws) :=
  h.misc s s.pos s.tim s.so _ (.refl _)

theorem kept_handoverDone (s : State) : R s (handoverDone s) := by
  unfold handoverDone
  refine rel_ite (h.refl s) ?_
  extract_lets m u
  have hu : R s u := h.trans (h.marg s fun m => { m with hoDue := false }) (h.par (updMarg s fun m => { m with hoDue := false }) 11 6 _ (by decide))
  exact h.trans hu (h.trans (h.ev (ev_record (.refl u))) (kept_queueCell h _ _ _ _))

theorem kept_ringsFresh (s : State) : R s (ringsFresh s) := by
  refine h.forUpTo (fun r u => ?_) s
  cases ringDrive u r with
  | none => exact h.ring u r _
  | some d => exact rel_ite (h.ring u r _) (h.refl u)

theorem kept_becomeActive (s : State) : R s (becomeActive s) :=
  h.misc s s.pos { s.tim with master := true, stepDue := false, slew16 := 0, alignBad := 0 } s.so _ ⟨_, _, _, _, _, rfl⟩

theorem kept_becomeStandby (s : State) : R s (becomeStandby s) :=
  h.misc s s.pos { s.tim with master := false, alignGood := 0, alignBad := 0, stepDue := false, slew16 := 0 }
    { s.so with ownN := false } _ ⟨_, _, _, _, _, rfl⟩

theorem kept_hoInstant (s : State) : R s (hoInstant s) := by
  unfold hoInstant
  refine rel_ite (h.refl s) (rel_ite (h.trans (kept_becomeStandby h s) (kept_ringsFresh h _)) ?_)
  extract_lets a b
  have ha : R s a := h.trans (h.trans (kept_becomeActive h s) (kept_ringsFresh h _)) (h.ev (ev_setOwnN (.refl _)))
  have hb : R a b := h.marg a _
  exact h.trans (h.trans ha hb) (rel_ite (kept_handoverDone h b) (h.refl b))

theorem kept_enterRun (d : Nat) (s : State) : R s (enterRun d s) := by
  unfold enterRun
  extract_lets a b
  have ha : R s a := h.trans (h.upd s d _) (h.ev (ev_stopRegTimer (.refl _)))
  have hb : R a b := h.ev (ev_updRegn (.refl a))
  refine h.trans (h.trans ha hb) (h.trans ?_ (h.forEach (fun n u => h.misc u _ u.tim u.so u.marg (.refl _)) _ _))
  exact h.forEach (fun r u => h.ring u r _) _ b

theorem kept_setOp (s : State) (o : OpState) : R s (setOp s o) := h.ev (ev_setOp (.refl s))

theorem kept_handDrive (d : Nat) (s : State) : R s (handDrive d s) := by
  unfold handDrive
  extract_lets a v b
  have ha : R s a := kept_hoInstant h s
  have hb : R a b := by
    show R a (match v.l4From with
      | some t => if t ≤ a.now ∧ !a.marg.ownDue then a.updDrive d fun v => { v with l4From := none } else a
      | none => a)
    cases v.l4From with
    | none => exact h.refl a
    | some t => exact rel_ite (h.upd a d _) (h.refl a)
  refine h.trans ha (h.trans hb ?_)
  cases v.hd with
  | none => exact h.refl b
  | some t =>
    refine rel_ite (h.refl b) (h.trans (h.upd b d fun v => { v with hd := none }) (rel_ite ?_ (rel_ite ?_ (h.refl _))))
    · exact h.trans (h.trans (h.upd _ d _) (h.ev (leaveRun_stand _).ev)) (h.forEach (fun r u => h.ring u r _) _ _)
    · exact h.trans (h.trans (h.forEach (fun r u => h.ring u r _) _ _) (kept_enterRun h d _)) (kept_setOp h _ _)

theorem kept_periodDrives (t : Nat) (s : State) : R s (periodDrives t s) := by
  refine h.trans (h.forUpTo (fun d u => rel_ite ?_ (h.refl u)) s) (h.ev (farServe_stand t _).ev)
  exact h.trans (h.ev (drivePeriod_one d u).ev) (kept_handDrive h d _)

/-- What follows the start of the timebase itself, where the timebases that follow it keep the relation. -/
theorem kept_periodFollows {k : Nat} (ih : ∀ t phase s, R s (startPeriod k t phase s)) (t phase : Nat) (s : State) :
    R (s.updTb t fun b => { b with t0 := (s.now : Int) - (phase : Int), running := true, startTick := s.now })
      (startPeriod (k + 1) t phase s) := by
  have heq : startPeriod (k + 1) t phase s =
      (let v := periodLayers t (periodDrives t (periodBegun t phase s))
       let v := if drivesWith v isString = [] ∧ (below 12 fun p => (v.pair p).layer = 4) ≠ [] then handoverDone v else v
       forUpTo 4 (fun m v =>
         let ph := field (tbCfg v m) 24 0
         if follows v m t && (v.tb m).running && tbOffset v m ≠ ph then startPeriod k m ph v else v) v) := rfl
  rw [heq]
  extract_lets v w
  have hbegun := h.trans (h.par _ 5 _ _ (by decide)) (h.ev (periodBegun_pairs t phase s).stand.ev)
  have hv := h.trans hbegun (h.trans (kept_periodDrives h t _) (h.ev (periodLayers_pairs t _).stand.ev))
  have hw : R v w := rel_ite (kept_handoverDone h v) (h.refl v)
  exact h.trans hv (h.trans hw (h.forUpTo (fun m u => rel_ite (ih ..) (h.refl u)) w))

/-- A period start. -/
theorem kept_startPeriod (fuel t phase : Nat) (s : State) : R s (startPeriod fuel t phase s) := by
  induction fuel generalizing t phase s with
  | zero => exact h.refl s
  | succ k ih => exact h.trans (h.tb s t _ fun _ => rfl) (kept_periodFollows h ih t phase s)

end

/-- From `s` to `u` the converters, the cores, MRAM, memory, the tags and the replies are as they were. -/
structure Aside (s u : State) : Prop where
  conv : u.conv = s.conv
  plate : u.plate = s.plate
  nv : u.nv = s.nv
  cells : u.mem.cells = s.mem.cells
  tags : u.folio.tags = s.folio.tags
  replies : u.folio.replies = s.folio.replies

theorem aside_kept : Kept Aside where
  refl _ := ⟨rfl, rfl, rfl, rfl, rfl, rfl⟩
  trans h k := ⟨k.conv.trans h.conv, k.plate.trans h.plate, k.nv.trans h.nv, k.cells.trans h.cells, k.tags.trans h.tags,
    k.replies.trans h.replies⟩
  ev h := ⟨h.conv, h.plate, h.nv, h.mem_cells, h.folio_tags, h.folio_replies⟩
  par _ _ _ _ _ := ⟨rfl, rfl, rfl, rfl, rfl, rfl⟩
  tb _ _ _ _ := ⟨rfl, rfl, rfl, rfl, rfl, rfl⟩
  misc _ _ _ _ _ _ := ⟨rfl, rfl, rfl, rfl, rfl, rfl⟩

/-- No timebase stops. -/
def StillRuns (s u : State) : Prop := ∀ t, (s.tb t).running = true → (u.tb t).running = true

theorem stillRuns_kept : Kept StillRuns where
  refl _ _ h := h
  trans h k t ht := k t (h t ht)
  ev h t ht := by
    unfold State.tb at *
    rwa [h.hatch_tbs]
  par _ _ _ _ _ _ h := h
  tb s n f hf t ht := by
    rw [tb_updTb]
    split
    · exact hf _
    · exact ht
  misc _ _ _ _ _ _ _ h := h

/-! CONFIGURE. -/

theorem field_wrd {n : Nat} (h : n < 2 ^ 32) (hi lo : Nat) : field (wrd n) hi lo = n / 2 ^ lo % 2 ^ (hi + 1 - lo) := by
  unfold field wrd
  rw [BitVec.toNat_ofNat, Nat.mod_eq_of_lt h]

/-- PAIR_CFG.TB reads back what is put into it. -/
theorem field_setField_tb (w : Word) (v : Nat) : field (setField w 25 24 v) 25 24 = v % 4 := by
  have hnat (x : Nat) (hx : x < 4294967296) :
      (x - x / 16777216 % 4 * 16777216 + v % 4 * 16777216) % 4294967296 / 16777216 % 4 = v % 4 := by omega
  unfold setField field
  rw [BitVec.toNat_ofNat]
  exact hnat w.toNat w.isLt

/-- Pair `p` takes timebase `x`. -/
def tbPair (x p : Nat) (s : State) : State := parSetField s 5 (0x200 + 16 * p) 25 24 x

theorem pairTb_tbPair {s : State} {x p q : Nat} (hx : x < 4) (hp : p < 12) (hq : q < 12) :
    pairTb (tbPair x p s) q = if q = p then x else pairTb s q := by
  have hg : pairCfg (tbPair x p s) q = if 5 = 5 ∧ 0x200 + 16 * q = 0x200 + 16 * p then setField (pairCfg s p) 25 24 x else pairCfg s q :=
    parGet_parSet s (by omega) (by omega) _
  unfold pairTb
  rw [hg]
  by_cases hqp : q = p
  · rw [if_pos (by omega), if_pos hqp, field_setField_tb]
    omega
  · rw [if_neg (by omega), if_neg hqp]

/-- From `s` to `u` only parameters changed. -/
def ParOnly (s u : State) : Prop := ∃ P, u = { s with par := P }

theorem ParOnly.refl (s : State) : ParOnly s s := ⟨s.par, rfl⟩

theorem ParOnly.trans {s t u : State} (h : ParOnly s t) (k : ParOnly t u) : ParOnly s u := by
  obtain ⟨P, rfl⟩ := h
  obtain ⟨Q, rfl⟩ := k
  exact ⟨Q, rfl⟩

theorem tbPairs_parOnly (x : Nat) (l : List Nat) (s : State) : ParOnly s (forEach l (tbPair x) s) :=
  forEach_rel ParOnly.refl ParOnly.trans (fun _ _ => ⟨_, rfl⟩) l s

/-- Every pair of the list takes timebase `x`. -/
theorem tbPairs_take {x q : Nat} (hx : x < 4) (hq : q < 12) (l : List Nat) (hl : ∀ p ∈ l, p < 12) (s : State)
    (h : q ∈ l ∨ pairTb s q = x) : pairTb (forEach l (tbPair x) s) q = x := by
  induction l generalizing s with
  | nil => exact h.resolve_left (by simp)
  | cons a l ih =>
    have ha := pairTb_tbPair (s := s) hx (hl a (by simp)) hq
    have hrest := ih (fun p hp => hl p (by simp [hp])) (tbPair x a s)
    unfold forEach
    generalize tbPair x a s = u at ha hrest ⊢
    refine hrest ?_
    by_cases hqa : q = a
    · exact .inr (by rw [ha, if_pos hqa])
    · refine h.imp (fun hmem => by simpa [hqa] using hmem) fun htb => ?_
      rw [ha, if_neg hqa, htb]

theorem drivePairs_lt {s : State} {d p : Nat} (h : p ∈ drivePairs s d) : p < 12 := by
  simp only [drivePairs, below, List.mem_filter, List.mem_range] at h
  exact h.1

/-- The drive after CONFIGURE. -/
def configured (d : Nat) (w : Word) (s : State) : State :=
  if archOf w = .none then s.updDrive d fun v => { arch := .none, lastFault := v.lastFault, holdTs := v.holdTs, holdCut := v.holdCut }
  else s.updDrive d fun v => { v with arch := archOf w, cfg := w }

theorem configured_drive (d : Nat) (w : Word) (s : State) : ((configured d w s).drive d).arch = archOf w ∧
    (archOf w ≠ .none → (configured d w s).drive d = { s.drive d with arch := archOf w, cfg := w }) ∧
    ∀ o, o ≠ d → (configured d w s).drive o = s.drive o := by
  unfold configured
  by_cases h : archOf w = .none
  · rw [if_pos h]
    exact ⟨by simp [h], fun hne => absurd h hne, fun o ho => by simp [ho]⟩
  · rw [if_neg h]
    exact ⟨by simp, fun _ => by simp, fun o ho => by simp [ho]⟩

/-- What CONFIGURE leaves (R112, R113). -/
theorem configureDrive_takes (d : Nat) (w : Word) (s : State) :
    (configureDrive d w s).drives = (configured d w s).drives ∧
      (∀ p, p < 12 → driveHasPair ((configureDrive d w s).drive d) p = true → pairTb (configureDrive d w s) p = field w 3 2) ∧
      ∃ P X, configureDrive d w s = { configured d w s with par := P, hatch := { (configured d w s).hatch with pairs := X } } := by
  have heq : configureDrive d w s =
      (let u := configured d w s
       let u := forEach (drivePairs u d) (tbPair (field w 3 2)) u
       forEach (drivePairs s d ++ drivePairs u d) (fun p s => settlePair s p) u) := rfl
  have hlt : field w 3 2 < 4 := Nat.mod_lt _ (by decide)
  rw [heq]
  extract_lets u v
  have hv : ParOnly u v := tbPairs_parOnly _ _ u
  have htake (p : Nat) (hp : p < 12) (hmem : p ∈ drivePairs u d) : pairTb v p = field w 3 2 :=
    tbPairs_take hlt hp (drivePairs u d) (fun p hp => drivePairs_lt hp) u (.inl hmem)
  clear_value v
  have hsettle : PairsAlone v (forEach (drivePairs s d ++ drivePairs v d) (fun p s => settlePair s p) v) :=
    forEach_rel PairsAlone.refl PairsAlone.trans (fun p t => (settlePair_alone t p).pairs) _ _
  generalize forEach (drivePairs s d ++ drivePairs v d) (fun p s => settlePair s p) v = t at hsettle
  obtain ⟨P, rfl⟩ := hv
  obtain ⟨X, rfl⟩ := hsettle
  refine ⟨rfl, fun p hp hpair => htake p hp ?_, P, X, rfl⟩
  simp only [drivePairs, below, List.mem_filter, List.mem_range]
  exact ⟨hp, hpair⟩

theorem mode_configures {s : State} {tag d : Nat} {c : Word} (hd : d < 4) (h : Starts s tag 0x10 [wrd d, c])
    (hrun : (s.drive d).dst ≠ .run) (hstop : (s.drive d).dst ≠ .stopping) (hok : configOk s d c = true) :
    ∃ t, exec (.mode tag) s = .next t ∧ Replied s t tag 0 [] ∧ (t.drive d).arch = archOf c ∧
      (archOf c ≠ .none → t.drive d = { s.drive d with arch := archOf c, cfg := c }) ∧ (∀ o, o ≠ d → t.drive o = s.drive o) ∧
      (∀ p, p < 12 → driveHasPair (t.drive d) p = true → pairTb t p = field c 3 2) ∧
      t = { s with folio := t.folio, drives := t.drives, par := t.par, hatch := { s.hatch with pairs := t.hatch.pairs } } := by
  have hb : bodyMode [wrd d, c] (begun s tag) = .done stOk [] (configureDrive d c (begun s tag)) := by
    have hdr : pwDrive [wrd d, c] = d := (field_wrd (by omega) 1 0).trans (by omega)
    have hact : field (pw [wrd d, c] 0) 3 2 = 0 := (field_wrd (by omega) 3 2).trans (by omega)
    have hbits : hasBits (pw [wrd d, c] 0) 0xFFFFFFF0#32 = false := hasBits_small (k := 4) (by decide) (by decide) (by omega)
    have hrun' : ((begun s tag).drive d).dst ≠ .run := hrun
    have hstop' : ((begun s tag).drive d).dst ≠ .stopping := hstop
    have hok' : configOk (begun s tag) d (pw [wrd d, c] 1) = true := hok
    unfold bodyMode
    simp only [hdr, hact]
    refine (checked_nil _ ?_ _).trans rfl
    simp [hrun', hstop', hok', hbits]
  obtain ⟨hdrives, htb, P, X, heq⟩ := configureDrive_takes d c (begun s tag)
  obtain ⟨harch, hset, hothers⟩ := configured_drive d c (begun s tag)
  have hconf : configured d c (begun s tag) = { begun s tag with drives := (configured d c (begun s tag)).drives } := by
    unfold configured; split <;> rfl
  have hdrive (o : Nat) : (configureDrive d c (begun s tag)).drive o = (configured d c (begun s tag)).drive o := by
    unfold State.drive
    rw [hdrives]
  rw [hconf] at heq
  generalize configureDrive d c (begun s tag) = u at hb htb heq hdrive
  obtain ⟨t, ht, hr, f, rfl⟩ := completes h hb (by rw [heq]) (by rw [heq]; rfl)
  refine ⟨_, congrArg Host.Outcome.next ht, hr, (congrArg Drive.arch (hdrive d)).trans harch, fun hne => (hdrive d).trans (hset hne),
    fun o ho => (hdrive o).trans (hothers o ho), htb, ?_⟩
  rw [heq]
  rfl

/-! RUN. -/

theorem startPeriod_runs (k t phase : Nat) (s : State) : ((startPeriod (k + 1) t phase s).tb t).running = true :=
  kept_periodFollows stillRuns_kept (kept_startPeriod stillRuns_kept k) t phase s t (by simp)

theorem enterRun_drives (d : Nat) (s : State) : (enterRun d s).drives = (s.updDrive d fun v => { v with dst := .run, runAt := s.now }).drives := by
  unfold enterRun
  extract_lets a b
  have hb : b.drives = (s.updDrive d fun v => { v with dst := .run, runAt := s.now }).drives := rfl
  have hloop {α : Type} {f : α → State → State} (hf : ∀ x u, (f x u).drives = u.drives) (l : List α) (u : State) :
      (forEach l f u).drives = u.drives :=
    forEach_rel (R := fun s u => u.drives = s.drives) (fun _ => rfl) (fun h k => k.trans h) hf l u
  exact (hloop (by intros; rfl) _ _).trans ((hloop (by intros; rfl) _ _).trans hb)

/-- The timebase of a drive that starts runs. -/
def tbStarted (d : Nat) (s : State) : State :=
  if (s.tb (driveTb (s.drive d))).running then s
  else startPeriod 5 (driveTb (s.drive d)) 0 (parOr s 5 (0x100 + 16 * driveTb (s.drive d)) 0x80000000)

theorem tbStarted_runs (d : Nat) (s : State) : ((tbStarted d s).tb (driveTb (s.drive d))).running = true ∧ Aside s (tbStarted d s) := by
  unfold tbStarted
  by_cases h : (s.tb (driveTb (s.drive d))).running = true
  · rw [if_pos h]
    exact ⟨h, aside_kept.refl s⟩
  · rw [if_neg h]
    exact ⟨startPeriod_runs 4 _ 0 _, aside_kept.trans (aside_kept.par s 5 _ _ (by decide)) (kept_startPeriod aside_kept 5 _ 0 _)⟩

/-- What a start of drive `d` does once its timebase runs. -/
theorem startDrive_runs (d : Nat) (s : State) : ((startDrive d s).drive d).dst = .run ∧ (startDrive d s).op = .run ∧
    (∀ o, o ≠ d → (startDrive d s).drive o = (tbStarted d s).drive o) ∧ StillRuns (tbStarted d s) (startDrive d s) ∧
    Aside (tbStarted d s) (startDrive d s) := by
  have heq : startDrive d s =
      (let a := tbStarted d s
       let b := forEach (drivePairs a d) (fun p s => s.updPair p fun q => { q with force := none, forceEnd := none }) a
       let c := setOp (enterRun d b) .run
       forEach (drivePairs c d) (fun p s => settlePair s p) c) := rfl
  rw [heq]
  extract_lets a b c
  have hb : PairsAlone a b := forEach_rel PairsAlone.refl PairsAlone.trans (fun p u => (PairAlone.upd p u _).pairs) _ a
  have hset : PairsAlone c (forEach (drivePairs c d) (fun p s => settlePair s p) c) :=
    forEach_rel PairsAlone.refl PairsAlone.trans (fun p u => (settlePair_alone u p).pairs) _ c
  have hop : c.op = .run := by
    show (setOp (enterRun d b) .run).op = .run
    unfold setOp
    split
    · assumption
    · rfl
  have hdrive (o : Nat) : c.drive o = if o = d then { b.drive d with dst := .run, runAt := b.now } else b.drive o := by
    have hc : c.drives = (b.updDrive d fun v => { v with dst := .run, runAt := b.now }).drives :=
      (setOp_stand _ .run).drives.trans (enterRun_drives d b)
    have hu : (b.updDrive d fun v => { v with dst := .run, runAt := b.now }).drive o =
        if o = d then { b.drive d with dst := .run, runAt := b.now } else b.drive o := by simp
    exact (congrArg (fun D => tblGet D ({} : Drive) o) hc).trans hu
  have hrel {R : State → State → Prop} (h : Kept R) : R a (forEach (drivePairs c d) (fun p s => settlePair s p) c) :=
    h.trans (h.ev hb.stand.ev) (h.trans (h.trans (kept_enterRun h d b) (kept_setOp h _ _)) (h.ev hset.stand.ev))
  have hfinal (o : Nat) := hset.stand.drive o
  have hfop : (forEach (drivePairs c d) (fun p s => settlePair s p) c).op = c.op := by obtain ⟨P, hP⟩ := hset; rw [hP]
  refine ⟨?_, hfop.trans hop, fun o ho => ?_, hrel stillRuns_kept, hrel aside_kept⟩
  · rw [hfinal, hdrive, if_pos rfl]
  · rw [hfinal, hdrive, if_neg ho, hb.stand.drive o]

theorem bodyMode_runs {s : State} {d : Nat} (hd : d < 4) (hok : runForbidden s d = false) (hstop : (s.drive d).dst ≠ .stopping)
    (htrip : driveTripLatched s d = false) : bodyMode [wrd (d + 4)] s = .done stOk [] (startDrive d s) := by
  have hdr : pwDrive [wrd (d + 4)] = d := (field_wrd (by omega) 1 0).trans (by omega)
  have hact : field (pw [wrd (d + 4)] 0) 3 2 = 1 := (field_wrd (by omega) 3 2).trans (by omega)
  have hbits : hasBits (pw [wrd (d + 4)] 0) 0xFFFFFFF0#32 = false := hasBits_small (k := 4) (by decide) (by decide) (by omega)
  unfold bodyMode
  simp only [hdr, hact]
  refine (checked_nil _ ?_ _).trans rfl
  simp [hok, hstop, htrip, hbits]

theorem mode_runs {s : State} {tag d : Nat} (hd : d < 4) (h : Starts s tag 0x10 [wrd (d + 4)]) (hok : runForbidden s d = false)
    (hstop : (s.drive d).dst ≠ .stopping) (htrip : driveTripLatched s d = false) :
    ∃ t, exec (.mode tag) s = .next t ∧ Replied s t tag 0 [] ∧ (t.drive d).dst = .run ∧ t.op = .run ∧
      (t.tb (driveTb (s.drive d))).running = true ∧
      ((s.tb (driveTb (s.drive d))).running = true → ∀ o, o ≠ d → t.drive o = s.drive o) ∧
      t.conv = s.conv ∧ t.plate = s.plate ∧ t.nv = s.nv ∧ t.mem.cells = s.mem.cells := by
  have hb := bodyMode_runs (s := begun s tag) hd hok hstop htrip
  obtain ⟨hruns, haside⟩ := tbStarted_runs d (begun s tag)
  obtain ⟨hdst, hop, hothers, hstill, haside'⟩ := startDrive_runs d (begun s tag)
  have hall := aside_kept.trans haside haside'
  have htb := hstill _ hruns
  have hsame (hr : (s.tb (driveTb (s.drive d))).running = true) : tbStarted d (begun s tag) = begun s tag := if_pos hr
  generalize startDrive d (begun s tag) = u at hb hdst hop hothers hall htb
  obtain ⟨t, ht, hr, f, rfl⟩ := completes h hb hall.tags hall.replies
  refine ⟨_, congrArg Host.Outcome.next ht, hr, hdst, hop, htb, fun hrun o ho => (hothers o ho).trans ?_, hall.conv, hall.plate, hall.nv,
    hall.cells⟩
  rw [hsame hrun]
  rfl

/-! STOP, and RUN while ENABLE is low. -/

theorem mode_stops {s : State} {tag d : Nat} (hd : d < 4) (h : Starts s tag 0x10 [wrd (d + 8)]) (hrun : (s.drive d).dst = .run) :
    ∃ t, exec (.mode tag) s = .next t ∧ Replied s t tag 0 [] ∧
      t.drive d = { s.drive d with dst := .stopping, ts := s.now, stopDue := false } ∧
      (∀ o, o ≠ d → t.drive o = s.drive o) ∧ t = { s with folio := t.folio, drives := t.drives } := by
  have hrun' : ((begun s tag).drive d).dst = .run := hrun
  have hb : bodyMode [wrd (d + 8)] (begun s tag) = .done stOk []
      ((begun s tag).updDrive d fun v => { v with dst := .stopping, ts := (begun s tag).now, stopDue := false }) := by
    have hdr : pwDrive [wrd (d + 8)] = d := (field_wrd (by omega) 1 0).trans (by omega)
    have hact : field (pw [wrd (d + 8)] 0) 3 2 = 2 := (field_wrd (by omega) 3 2).trans (by omega)
    have hbits : hasBits (pw [wrd (d + 8)] 0) 0xFFFFFFF0#32 = false := hasBits_small (k := 4) (by decide) (by decide) (by omega)
    unfold bodyMode
    simp only [hdr, hact]
    refine (checked_nil _ ?_ _).trans (congrArg (CmdRes.done stOk []) (if_pos hrun'))
    simp [hrun', hbits]
  obtain ⟨t, ht, hr, f, rfl⟩ := completes h hb rfl rfl
  have hdrive (o : Nat) := drive_updDrive (begun s tag) d o fun v => { v with dst := .stopping, ts := s.now, stopDue := false }
  exact ⟨_, congrArg Host.Outcome.next ht, hr, (hdrive d).trans (if_pos rfl), fun o ho => (hdrive o).trans (if_neg ho), rfl⟩

theorem mode_needsEnable {s : State} {tag d : Nat} (hd : d < 4) (h : Starts s tag 0x10 [wrd (d + 4)]) (hen : s.so.enable = false) :
    ∃ t, exec (.mode tag) s = .next t ∧ Replied s t tag 0x11 [] ∧ t = { s with folio := t.folio } := by
  have hb : bodyMode [wrd (d + 4)] (begun s tag) = .done 0x11 [] (begun s tag) := by
    have hdr : pwDrive [wrd (d + 4)] = d := (field_wrd (by omega) 1 0).trans (by omega)
    have hact : field (pw [wrd (d + 4)] 0) 3 2 = 1 := (field_wrd (by omega) 3 2).trans (by omega)
    have hforbid : runForbidden (begun s tag) d = true := by
      have hen' : (begun s tag).so.enable = false := hen
      simp [runForbidden, hen']
    unfold bodyMode
    simp only [hdr, hact, hforbid]
    rfl
  exact completes_reading h hb

/-- Settles O18: the three actions, and the state that forbids RUN. -/
theorem modeEffects : Obligations.ModeEffects := by
  unfold Obligations.ModeEffects
  intro s tag d hd
  exact ⟨fun c h hrun hstop hok => mode_configures hd h hrun hstop hok, fun h hok hstop htrip => mode_runs hd h hok hstop htrip,
    fun h hrun => mode_stops hd h hrun, fun h hen => mode_needsEnable hd h hen⟩

end Sys2Proof.Proofs
end

section
/-!
PROOFS. SAFE_STATE, DISCHARGE and CLEAR_FAULT (R116, R117, R119, R356 to R360, R370).
-/
namespace Sys2Proof.Proofs
open Sys2Proof.Machine Sys2Proof.Safety Sys2Proof.Laws

/-! What a drive is, apart from the fault noted last and the speeds seen. -/

/-- A drive without the fault noted last and the ticks of its speed conditions. -/
def bare (v : Drive) : Drive := { v with lastFault := 0, highFrom := none, lostFrom := none }

/-- Every drive is the same but for the fault noted last and the ticks of its speed conditions. -/
structure DrivesBare (s u : State) : Prop where
  same : ∀ d, bare (u.drive d) = bare (s.drive d)

theorem DrivesBare.refl (s : State) : DrivesBare s s := ⟨fun _ => rfl⟩

theorem DrivesBare.trans {s t u : State} (h : DrivesBare s t) (k : DrivesBare t u) : DrivesBare s u :=
  ⟨fun d => (k.same d).trans (h.same d)⟩

theorem DrivesStand.bare {s u : State} (h : DrivesStand s u) : DrivesBare s u := ⟨fun d => congrArg Proofs.bare (h.drive d)⟩

theorem drivesBare_updDrive (s : State) (d : Nat) {f : Drive → Drive} (hf : ∀ v, bare (f v) = bare v) : DrivesBare s (s.updDrive d f) := by
  refine ⟨fun e => ?_⟩
  rw [drive_updDrive]
  split
  next h => rw [hf, h]
  · rfl

theorem capTrigger_drives (e : Event) (b : Nat) (s : State) : (capTrigger e b s).drives = s.drives := by
  unfold capTrigger
  split <;> rfl

theorem drivesBare_of_drives {s u : State} (h : u.drives = s.drives) : DrivesBare s u := ⟨fun d => by
  unfold State.drive
  rw [h]⟩

theorem drivesBare_record (s : State) (code idx : Nat) (args : List Word) : DrivesBare s (record s code idx args) := by
  unfold record recordEvent
  generalize mkEvent s code idx args = e
  refine DrivesBare.trans ?_ (forUpTo_rel DrivesBare.refl DrivesBare.trans
    (fun k _ u => drivesBare_of_drives (capTrigger_drives e k u)) _)
  have hfiled (u : State) (hu : u.drives = s.drives) : DrivesBare s (if e.cls = 2 then setAttn u 2 else u) :=
    drivesBare_of_drives (by split <;> exact hu)
  cases eventDrive e with
  | none => exact hfiled _ rfl
  | some d =>
    refine (hfiled { s with book := { s.book with inq := evInsert s.book.inq e } } rfl).trans ?_
    exact drivesBare_updDrive _ d fun _ => rfl

theorem drivesBare_safeEntry (s : State) (d ss code : Nat) : DrivesBare s (safeEntry s d ss code) :=
  rel_ite (drivesBare_of_drives rfl) (drivesBare_record s _ _ _)

theorem drivesBare_noteSpeeds (s : State) : DrivesBare s (noteSpeeds s) := by
  refine ⟨fun d => ?_⟩
  have h := (noteSpeeds_noted s).1 d
  generalize (noteSpeeds s).drive d = v at h
  rw [h]
  rfl

theorem settleAll_stand (l : List Nat) (s : State) : DrivesStand s (forEach l (fun p s => settlePair s p) s) :=
  (forEach_rel PairsAlone.refl PairsAlone.trans (fun p u => (settlePair_alone u p).pairs) l s).stand

theorem orderRings_stand (l : List Nat) (s : State) : DrivesStand s (forEach l orderRing s) :=
  forEach_rel DrivesStand.refl DrivesStand.trans (fun r u => updRing_stand u r _) l s

theorem stopRegTimer_stand (s : State) (d : Nat) : DrivesStand s (stopRegTimer s d) := ⟨ev_stopRegTimer (.refl s), rfl, rfl⟩

/-- The pairs and the rings of a drive follow the safe state in which it has been placed. -/
def followDrive (d : Nat) (s : State) : State :=
  let s := stopRegTimer s d
  let s := forEach (drivePairs s d) (fun p s => settlePair s p) s
  forEach (driveRings s d) orderRing s

theorem followDrive_stand (d : Nat) (s : State) : DrivesStand s (followDrive d s) :=
  (stopRegTimer_stand s d).trans ((settleAll_stand _ _).trans (orderRings_stand _ _))

theorem ssRank_ssOf (n : Nat) : ssRank (ssOf n) ≠ 0 := by
  unfold ssOf
  split
  · decide
  · split <;> decide

theorem dst_of_bare {v w : Drive} (h : bare v = bare w) : v.dst = w.dst := by
  have hd := congrArg Drive.dst h
  exact hd

theorem hasArch_of_bare {v w : Drive} (h : bare v = bare w) : hasArch v = hasArch w := by
  have ha : v.arch = w.arch := by
    have ha := congrArg Drive.arch h
    exact ha
  unfold hasArch
  rw [ha]

/-- A drive that is placed in a safe state is in one, and no other drive changes. -/
theorem placeDrive_places {o ss : Nat} (hss : 1 ≤ ss) (code : Nat) (byEvent : Bool) (s : State) :
    (∀ e, e ≠ o → bare ((placeDrive o ss code byEvent s).drive e) = bare (s.drive e)) ∧
      (hasArch (s.drive o) = true → ssRank ((placeDrive o ss code byEvent s).drive o).dst ≠ 0) := by
  have heq : placeDrive o ss code byEvent s =
      (if !hasArch (s.drive o) then s
       else if ss ≤ ssRank (s.drive o).dst && !(s.drive o).clearDue then
         (if ss = ssRank (s.drive o).dst && (s.book.inq.any fun e => e.code = 0x0902 && e.index = o && e.time = s.now) then
           safeEntry (s.updDrive o fun v => { v with cause := if causeKey s code < causeKey s (s.drive o).cause then code else (s.drive o).cause })
             o ss code
          else s)
       else followDrive o (safeEntry (noteSpeeds (s.updDrive o fun v => { v with
         dst := ssOf (max ss (ssRank (s.drive o).dst)), cause := code, faultLatched := (s.drive o).faultLatched || byEvent, clearDue := false,
         stopDue := false, l4From := none, highFrom := none, lostFrom := none })) o (max ss (ssRank (s.drive o).dst)) code)) := rfl
  rw [heq]
  by_cases harch : hasArch (s.drive o) = true
  · rw [if_neg (by simp [harch])]
    by_cases hin : (decide (ss ≤ ssRank (s.drive o).dst) && !(s.drive o).clearDue) = true
    · rw [if_pos hin]
      have hrank : ssRank (s.drive o).dst ≠ 0 := by
        simp only [Bool.and_eq_true, decide_eq_true_eq] at hin
        omega
      split
      · have hentry := drivesBare_safeEntry (s.updDrive o fun v => { v with
          cause := if causeKey s code < causeKey s (s.drive o).cause then code else (s.drive o).cause }) o ss code
        refine ⟨fun e he => (hentry.same e).trans (by simp [he]), fun _ => ?_⟩
        rw [dst_of_bare (hentry.same o)]
        simpa using hrank
      · exact ⟨fun _ _ => rfl, fun _ => hrank⟩
    · rw [if_neg hin]
      generalize hu : (s.updDrive o fun v => { v with
         dst := ssOf (max ss (ssRank (s.drive o).dst)), cause := code, faultLatched := (s.drive o).faultLatched || byEvent, clearDue := false,
         stopDue := false, l4From := none, highFrom := none, lostFrom := none }) = u
      have hall := ((drivesBare_noteSpeeds u).trans (drivesBare_safeEntry _ o (max ss (ssRank (s.drive o).dst)) code)).trans
        (followDrive_stand o _).bare
      refine ⟨fun e he => (hall.same e).trans (by simp [← hu, he]), fun _ => ?_⟩
      rw [dst_of_bare (hall.same o), ← hu]
      simpa using ssRank_ssOf _
  · rw [if_pos (by simpa using harch)]
    exact ⟨fun _ _ => rfl, fun h => absurd h harch⟩

/-! A safe state by command. -/

theorem orderDrive_takes (d ss : Nat) (s : State) : EvStep s (orderDrive d ss s) ∧
    bare ((orderDrive d ss s).drive d) = bare { s.drive d with
      dst := ssOf ss, cause := 0, exempt := true, clearDue := false, stopDue := false, l4From := none } ∧
    ∀ e, e ≠ d → bare ((orderDrive d ss s).drive e) = bare (s.drive e) := by
  have heq : orderDrive d ss s = followDrive d ((if ssRank (s.drive d).dst ≠ ss ∨ (s.drive d).clearDue then safeEntry s d ss 0 else s).updDrive d
      fun v => { v with dst := ssOf ss, cause := 0, exempt := true, clearDue := false, stopDue := false, l4From := none }) := rfl
  rw [heq]
  have hentry : DrivesBare s (if ssRank (s.drive d).dst ≠ ss ∨ (s.drive d).clearDue then safeEntry s d ss 0 else s) :=
    rel_ite (drivesBare_safeEntry s d ss 0) (.refl s)
  have hev : EvStep s (if ssRank (s.drive d).dst ≠ ss ∨ (s.drive d).clearDue then safeEntry s d ss 0 else s) :=
    rel_ite (ev_safeEntry (.refl s)) (.refl s)
  generalize (if ssRank (s.drive d).dst ≠ ss ∨ (s.drive d).clearDue then safeEntry s d ss 0 else s) = u at hentry hev
  have hfollow := followDrive_stand d (u.updDrive d
    fun v => { v with dst := ssOf ss, cause := 0, exempt := true, clearDue := false, stopDue := false, l4From := none })
  refine ⟨(ev_updDrive hev).trans hfollow.ev, ?_, fun e he => ?_⟩
  · rw [hfollow.drive d]
    have hd := congrArg (fun v : Drive => { v with
      dst := ssOf ss, cause := 0, exempt := true, clearDue := false, stopDue := false, l4From := none }) (hentry.same d)
    simpa [bare] using hd
  · rw [hfollow.drive e]
    simpa [he] using hentry.same e

/-- The drives below `n`, but for drive `d`, have entered SS1 at least. -/
structure OthersPlaced (d n : Nat) (s u : State) : Prop where
  ev : EvStep s u
  own : bare (u.drive d) = bare (s.drive d)
  placed : ∀ o, o < n → o ≠ d → hasArch (s.drive o) = true → ssRank (u.drive o).dst ≠ 0
  later : ∀ o, n ≤ o → bare (u.drive o) = bare (s.drive o)

theorem others_placed (d n : Nat) (s : State) :
    OthersPlaced d n s (forUpTo n (fun o s => if o = d then s else placeDrive o 1 0 false s) s) := by
  induction n with
  | zero => exact ⟨.refl s, rfl, fun o ho => absurd ho (by omega), fun _ _ => rfl⟩
  | succ n ih =>
    have hstep : forUpTo (n + 1) (fun o s => if o = d then s else placeDrive o 1 0 false s) s =
        (fun u => if n = d then u else placeDrive n 1 0 false u)
          (forUpTo n (fun o s => if o = d then s else placeDrive o 1 0 false s) s) := rfl
    rw [hstep]
    generalize forUpTo n (fun o s => if o = d then s else placeDrive o 1 0 false s) s = u at ih
    obtain ⟨hev, hown, hplaced, hlater⟩ := ih
    dsimp only
    by_cases hn : n = d
    · rw [if_pos hn]
      exact ⟨hev, hown, fun o ho hod => hplaced o (by omega) hod, fun o ho => hlater o (by omega)⟩
    · rw [if_neg hn]
      obtain ⟨hothers, hrank⟩ := placeDrive_places (o := n) (le_refl 1) 0 false u
      refine ⟨ev_placeDrive hev, (hothers d (Ne.symm hn)).trans hown, fun o ho hod harch => ?_,
        fun o ho => (hothers o (by omega)).trans (hlater o (by omega))⟩
      by_cases hon : o = n
      · subst hon
        exact hrank ((hasArch_of_bare (hlater o (le_refl o))).trans harch)
      · rw [dst_of_bare (hothers o hon)]
        exact hplaced o (by omega) hod harch

theorem setOp_op (s : State) (o : OpState) : (setOp s o).op = o := by
  unfold setOp
  split
  · assumption
  · rfl

theorem settlePairs_stand (s : State) : DrivesStand s (settlePairs s) :=
  (forUpTo_rel PairsAlone.refl PairsAlone.trans (fun p _ u => (settlePair_alone u p).pairs) s).stand

theorem settlePairs_op (s : State) : (settlePairs s).op = s.op := by
  obtain ⟨P, hP⟩ : PairsAlone s (settlePairs s) :=
    forUpTo_rel PairsAlone.refl PairsAlone.trans (fun p _ u => (settlePair_alone u p).pairs) s
  rw [hP]

/-- What a safe state by command leaves. -/
theorem commandSafe_takes (d ss : Nat) (s : State) : EvStep s (commandSafe d ss s) ∧ (commandSafe d ss s).op = .safe ∧
    bare ((commandSafe d ss s).drive d) = bare { s.drive d with
      dst := ssOf ss, cause := 0, exempt := true, clearDue := false, stopDue := false, l4From := none } ∧
    ∀ o, o < 4 → hasArch (s.drive o) = true → ssRank ((commandSafe d ss s).drive o).dst ≠ 0 := by
  have heq : commandSafe d ss s =
      settlePairs (setOp (forUpTo 4 (fun o s => if o = d then s else placeDrive o 1 0 false s) (orderDrive d ss s)) .safe) := rfl
  rw [heq]
  obtain ⟨hev, hown, hothers⟩ := orderDrive_takes d ss s
  obtain ⟨hev', hown', hplaced, _⟩ := others_placed d 4 (orderDrive d ss s)
  generalize orderDrive d ss s = u at *
  generalize forUpTo 4 (fun o s => if o = d then s else placeDrive o 1 0 false s) u = w at *
  have hend := (setOp_stand w .safe).trans (settlePairs_stand _)
  refine ⟨hev.trans (hev'.trans hend.ev), (settlePairs_op _).trans (setOp_op w .safe), ?_, fun o ho harch => ?_⟩
  · rw [hend.drive d, hown', hown]
  · rw [hend.drive o]
    by_cases hod : o = d
    · subst hod
      rw [dst_of_bare (hown'.trans hown)]
      exact ssRank_ssOf ss
    · exact hplaced o ho hod ((hasArch_of_bare (hothers o hod)).trans harch)

theorem hasBits_safeStateWord : ∀ d, d < 4 → ∀ ss, ss < 4 → hasBits (wrd (d + 16 * ss)) 0xFFFFFFCC = false := by decide

theorem safeState_takes {s : State} {tag d ss : Nat} (hd : d < 4) (h1 : 1 ≤ ss) (h3 : ss < 3) (h : Starts s tag 0x13 [wrd (d + 16 * ss)])
    (harch : hasArch (s.drive d) = true) (hdis : (s.drive d).discharging = false) :
    ∃ t, exec (.safeState tag) s = .next t ∧ Replied s t tag 0 [] ∧ t.op = .safe ∧ (t.drive d).dst = ssOf ss ∧
      (t.drive d).cause = 0 ∧ (∀ o, o < 4 → hasArch (s.drive o) = true → ssRank (t.drive o).dst ≠ 0) ∧
      t.conv = s.conv ∧ t.plate = s.plate ∧ t.nv = s.nv ∧ t.mem.cells = s.mem.cells := by
  have harch' : hasArch ((begun s tag).drive d) = true := harch
  have hdis' : ((begun s tag).drive d).discharging = false := hdis
  have hb : bodySafeState [wrd (d + 16 * ss)] (begun s tag) = .done stOk [] (commandSafe d ss (begun s tag)) := by
    have hdr : pwDrive [wrd (d + 16 * ss)] = d := (field_wrd (by omega) 1 0).trans (by omega)
    have hss : field (pw [wrd (d + 16 * ss)] 0) 5 4 = ss := (field_wrd (by omega) 5 4).trans (by omega)
    have hbits : hasBits (pw [wrd (d + 16 * ss)] 0) 0xFFFFFFCC#32 = false := hasBits_safeStateWord d hd ss (by omega)
    unfold bodySafeState
    simp only [hdr, hss]
    refine (checked_nil _ ?_ _).trans (congrArg (CmdRes.done stOk []) (if_pos (by omega)))
    simp [harch', hdis', hbits]
    omega
  obtain ⟨hev, hop, hown, hrank⟩ := commandSafe_takes d ss (begun s tag)
  generalize commandSafe d ss (begun s tag) = u at hb hev hop hown hrank
  obtain ⟨t, ht, hr, f, rfl⟩ := completes h hb hev.folio_tags hev.folio_replies
  have hcause : (u.drive d).cause = 0 := by
    have hc := congrArg Drive.cause hown
    exact hc
  exact ⟨_, congrArg Host.Outcome.next ht, hr, hop, dst_of_bare hown, hcause, hrank, hev.conv, hev.plate, hev.nv, hev.mem_cells⟩

/-! DISCHARGE. -/

/-- The drive and the pin at the start of a discharge. -/
def dischargeBegun (d : Nat) (s : State) : State :=
  let s := s.updDrive d fun v => { v with
    discharging := true, ts := s.now, lastV := none, bled := [], bleedTs := none,
    holdTs := if v.arch = .direct then some s.now else v.holdTs, holdCut := v.holdCut && v.arch ≠ .direct }
  if isDirect (s.drive d) then setDsch s d true else s

theorem testBit_putBit_true (n d : Nat) : (putBit n d true).testBit d = true := by
  simp [putBit]

theorem dischargeBegun_takes (d : Nat) (s : State) : Aside s (dischargeBegun d s) ∧
    ((dischargeBegun d s).drive d).discharging = true ∧ ((dischargeBegun d s).drive d).ts = s.now ∧
    (isDirect (s.drive d) = true → (dischargeBegun d s).so.dsch.testBit d = true) ∧
    ∀ o, hasArch ((dischargeBegun d s).drive o) = hasArch (s.drive o) := by
  unfold dischargeBegun
  extract_lets u
  have hu (o : Nat) := drive_updDrive s d o fun v => { v with
    discharging := true, ts := s.now, lastV := none, bled := [], bleedTs := none,
    holdTs := if v.arch = .direct then some s.now else v.holdTs, holdCut := v.holdCut && v.arch ≠ .direct }
  have hd : isDirect (u.drive d) = isDirect (s.drive d) := by
    rw [show u.drive d = _ from hu d, if_pos rfl]
    rfl
  have hown : (u.drive d).discharging = true ∧ (u.drive d).ts = s.now := by
    rw [show u.drive d = _ from hu d, if_pos rfl]
    exact ⟨rfl, rfl⟩
  have harch (o : Nat) : hasArch (u.drive o) = hasArch (s.drive o) := by
    rw [show u.drive o = _ from hu o]
    split
    next h => rw [h]; rfl
    · rfl
  have haside : Aside s u := aside_kept.upd s d _
  rw [hd]
  cases hdir : isDirect (s.drive d) with
  | true => exact ⟨aside_kept.trans haside (aside_kept.misc u u.pos u.tim { u.so with dsch := putBit u.so.dsch d true } u.marg (.refl _)), hown.1, hown.2,
      fun _ => testBit_putBit_true .., harch⟩
  | false => exact ⟨haside, hown.1, hown.2, fun h => absurd h (by decide), harch⟩

theorem discharge_takes {s : State} {tag d : Nat} (hd : d < 4) (h : Starts s tag 0x16 [wrd d]) (harch : hasArch (s.drive d) = true)
    (hrun : (s.drive d).dst ≠ .run) (hstop : (s.drive d).dst ≠ .stopping) (hdis : (s.drive d).discharging = false)
    (hno : noDischarge s d = false) :
    ∃ t, exec (.discharge tag) s = .next t ∧ Replied s t tag 0 [] ∧ t.op = .safe ∧ (t.drive d).dst = .ss3 ∧
      (t.drive d).discharging = true ∧ (t.drive d).ts = s.now ∧ (isDirect (s.drive d) = true → t.so.dsch.testBit d = true) ∧
      (∀ o, o < 4 → hasArch (s.drive o) = true → ssRank (t.drive o).dst ≠ 0) ∧
      t.conv = s.conv ∧ t.plate = s.plate ∧ t.nv = s.nv ∧ t.mem.cells = s.mem.cells := by
  have hb : bodyDischarge [wrd d] (begun s tag) = .done stOk [] (commandSafe d 3 (dischargeBegun d (begun s tag))) := by
    have harch' : hasArch ((begun s tag).drive d) = true := harch
    have hrun' : ((begun s tag).drive d).dst ≠ .run := hrun
    have hstop' : ((begun s tag).drive d).dst ≠ .stopping := hstop
    have hdis' : ((begun s tag).drive d).discharging = false := hdis
    have hno' : noDischarge (begun s tag) d = false := hno
    have hdr : pwDrive [wrd d] = d := (field_wrd (by omega) 1 0).trans (by omega)
    have hbits : hasBits (pw [wrd d] 0) 0xFFFFFFFC#32 = false := hasBits_small (k := 2) (by decide) (by decide) (by omega)
    unfold bodyDischarge
    simp only [hdr]
    refine (checked_nil _ ?_ _).trans rfl
    simp [harch', hrun', hstop', hdis', hno', hbits]
  obtain ⟨haside, hdischarging, hts, hpin, harchs⟩ := dischargeBegun_takes d (begun s tag)
  generalize dischargeBegun d (begun s tag) = u at hb haside hdischarging hts hpin harchs
  obtain ⟨hev, hop, hown, hrank⟩ := commandSafe_takes d 3 u
  generalize commandSafe d 3 u = w at hb hev hop hown hrank
  have hall := aside_kept.trans haside (aside_kept.ev hev)
  obtain ⟨t, ht, hr, f, rfl⟩ := completes h hb hall.tags hall.replies
  have hdis : (w.drive d).discharging = (u.drive d).discharging := by
    have hc := congrArg Drive.discharging hown
    exact hc
  have hwts : (w.drive d).ts = (u.drive d).ts := by
    have hc := congrArg Drive.ts hown
    exact hc
  refine ⟨_, congrArg Host.Outcome.next ht, hr, hop, dst_of_bare hown, hdis.trans hdischarging, hwts.trans hts, fun hdir => ?_,
    fun o ho harch => hrank o ho ((harchs o).trans harch), hall.conv, hall.plate, hall.nv, hall.cells⟩
  show w.so.dsch.testBit d = true
  rw [hev.so_dsch]
  exact hpin hdir

/-! CLEAR_FAULT. -/

/-- From `s` to `u` only what CLEAR_FAULT reaches beside the latches and the DSCH pins changed. -/
def ClearFrame (s u : State) : Prop := ∃ o D P b T X R Q, u = { s with
  op := o, drives := D, par := P, folio := { s.folio with hostBase := b }, pos := T, hatch := { s.hatch with pairs := X },
  so := { s.so with regs := R }, book := { s.book with inq := Q } }

theorem ClearFrame.refl (s : State) : ClearFrame s s := ⟨_, _, _, _, _, _, _, _, rfl⟩

theorem ClearFrame.trans {s t u : State} (h : ClearFrame s t) (k : ClearFrame t u) : ClearFrame s u := by
  obtain ⟨_, _, _, _, _, _, _, _, rfl⟩ := h
  obtain ⟨o, D, P, b, T, X, R, Q, rfl⟩ := k
  exact ⟨o, D, P, b, T, X, R, Q, rfl⟩

theorem PairsAlone.clear {s u : State} (h : PairsAlone s u) : ClearFrame s u := by
  obtain ⟨X, rfl⟩ := h
  exact ⟨_, _, _, _, _, X, _, _, rfl⟩

theorem clearFrame_updDrive (s : State) (d : Nat) (f : Drive → Drive) : ClearFrame s (s.updDrive d f) := ⟨_, _, _, _, _, _, _, _, rfl⟩

theorem clearFrame_pos (s : State) (T : Position) : ClearFrame s { s with pos := T } := ⟨_, _, _, _, _, _, _, _, rfl⟩

theorem clearFrame_quiet {s : State} {code idx : Nat} {args : List Word} (hc : eventClass code ≠ 2)
    (hd : eventDrive (mkEvent s code idx args) = none) (h : code ≠ 0x0902) : ClearFrame s (record s code idx args) :=
  ⟨_, _, _, _, _, _, _, _, record_quiet hc hd h⟩

theorem clearFrame_setOp (s : State) (o : OpState) : ClearFrame s (setOp s o) := by
  unfold setOp
  refine rel_ite (.refl s) ?_
  rw [record_quiet (by decide) rfl (by decide)]
  exact ⟨_, _, _, _, _, _, _, _, rfl⟩

/-- The fault latch and the exemption of drive `d` are cleared. -/
def clearDrive (d : Nat) (s : State) : State := stopRegTimer (s.updDrive d fun v => { v with faultLatched := false, exempt := false }) d

theorem clearDrive_frame (d : Nat) (s : State) : ClearFrame s (clearDrive d s) := ⟨_, _, _, _, _, _, _, _, rfl⟩

theorem clearDrive_drive (d : Nat) (s : State) (e : Nat) : (clearDrive d s).drive e =
    if e = d then { s.drive d with faultLatched := false, exempt := false } else s.drive e :=
  drive_updDrive s d e fun v => { v with faultLatched := false, exempt := false }

/-- From `s` to `u` only position sources changed. -/
def PosOnly (s u : State) : Prop := ∃ T, u = { s with pos := T }

theorem PosOnly.refl (s : State) : PosOnly s s := ⟨s.pos, rfl⟩

theorem PosOnly.trans {s t u : State} (h : PosOnly s t) (k : PosOnly t u) : PosOnly s u := by
  obtain ⟨T, rfl⟩ := h
  obtain ⟨U, rfl⟩ := k
  exact ⟨U, rfl⟩

theorem comparesOff_pos (k n : Nat) (s : State) : PosOnly s (comparesOff k n s) :=
  forUpTo_rel PosOnly.refl PosOnly.trans (fun _ _ u => rel_ite ⟨_, rfl⟩ (.refl u)) s

theorem noteSpeeds_clear (s : State) : ClearFrame s (noteSpeeds s) := by
  obtain ⟨D, hD⟩ := (noteSpeeds_noted s).2
  rw [hD]
  exact ⟨_, D, _, _, _, _, _, _, rfl⟩

theorem restartSource_clear (n : Nat) (s : State) : ClearFrame s (restartSource n s) ∧ DrivesBare s (restartSource n s) := by
  obtain ⟨u, heq, _, S, hu⟩ := restartSource_eq n s
  rw [heq]
  have hoff := comparesOff_pos 8 n u
  generalize comparesOff 8 n u = v at hoff
  have hv : ClearFrame s v ∧ v.drives = s.drives := by
    obtain ⟨T, rfl⟩ := hoff
    rw [hu]
    exact ⟨⟨_, _, _, _, T, _, _, _, rfl⟩, rfl⟩
  exact ⟨hv.1.trans (noteSpeeds_clear v), (drivesBare_of_drives hv.2).trans (drivesBare_noteSpeeds v)⟩

theorem endSafe_clear (d : Nat) (s : State) : ClearFrame s (endSafe d s) :=
  (clearFrame_updDrive s d _).trans
    (forEach_rel PairsAlone.refl PairsAlone.trans (fun p u => (takeLayer_alone u p _).pairs) _ _).clear

theorem releaseDrive_clear (d : Nat) (s : State) : ClearFrame s (releaseDrive d s) :=
  rel_ite (.refl s) (rel_ite (clearFrame_updDrive s d _) (endSafe_clear d s))

/-- A drive in a safe state is idle after its release, or waits for its period start; no other drive changes. -/
theorem releaseDrive_releases (d : Nat) (s : State) : (∀ e, e ≠ d → (releaseDrive d s).drive e = s.drive e) ∧
    ((releaseDrive d s).drive d).faultLatched = (s.drive d).faultLatched ∧
    (ssRank (s.drive d).dst ≠ 0 →
      if periodNow s (driveTb (s.drive d)) = true then ((releaseDrive d s).drive d).dst = .idle
      else ((releaseDrive d s).drive d).clearDue = true) := by
  unfold releaseDrive
  by_cases hrank : ssRank (s.drive d).dst = 0
  · rw [if_pos hrank]
    exact ⟨fun _ _ => rfl, rfl, fun h => absurd hrank h⟩
  · rw [if_neg hrank]
    by_cases hnow : periodNow s (driveTb (s.drive d)) = true
    · rw [if_neg (by simp [hnow]), if_pos hnow]
      have hend := endSafe_stand d s
      exact ⟨fun e he => by rw [hend.drive e]; simp [he], by rw [hend.drive d]; simp, fun _ => by rw [hend.drive d]; simp⟩
    · rw [if_pos (by simpa using hnow), if_neg hnow]
      exact ⟨fun e he => by simp [he], by simp, fun _ => by simp⟩

/-- Where each step of a count changes its own drive alone, drive `k` is what step `k` made of it. -/
theorem forUpTo_own {R : State → State → Prop} (hrefl : ∀ s, R s s) (htrans : ∀ {s t u}, R s t → R t u → R s u) {f : Nat → State → State}
    (hR : ∀ k u, R u (f k u)) (hothers : ∀ k u e, e ≠ k → (f k u).drive e = u.drive e) (n : Nat) (s : State) :
    (∀ k, n ≤ k → (forUpTo n f s).drive k = s.drive k) ∧
      ∀ k, k < n → ∃ u, R s u ∧ u.drive k = s.drive k ∧ (forUpTo n f s).drive k = (f k u).drive k := by
  induction n with
  | zero => exact ⟨fun _ _ => rfl, fun k hk => absurd hk (by omega)⟩
  | succ n ih =>
    obtain ⟨hlater, hdone⟩ := ih
    have hrel : R s (forUpTo n f s) := forUpTo_rel hrefl htrans (fun k _ u => hR k u) s
    have hstep : forUpTo (n + 1) f s = f n (forUpTo n f s) := rfl
    rw [hstep]
    refine ⟨fun k hk => (hothers n _ k (by omega)).trans (hlater k (by omega)), fun k hk => ?_⟩
    by_cases hkn : k = n
    · subst hkn
      exact ⟨_, hrel, hlater k (le_refl k), rfl⟩
    · obtain ⟨u, hu, hsame, heq⟩ := hdone k (by omega)
      exact ⟨u, hu, hsame, (hothers n _ k hkn).trans heq⟩

/-- What CLEAR_FAULT does once its checks have passed. -/
def faultCleared (s : State) : State :=
  let s := { s with so := { s.so with latches := [], dsch := 0 } }
  let s := forUpTo 4 clearDrive s
  let s := forEach (below 12 fun n => (s.src n).fault) restartSource s
  let s := forUpTo 4 releaseDrive s
  record (setOp s .standby) 0x0907 0 []

theorem faultCleared_clears (s : State) :
    ClearFrame { s with so := { s.so with latches := [], dsch := 0 } } (faultCleared s) ∧ (faultCleared s).op = .standby ∧
      Raised s (faultCleared s) 0x0907 0 [] ∧
      ∀ o, o < 4 → ((faultCleared s).drive o).faultLatched = false ∧ (ssRank (s.drive o).dst ≠ 0 →
        if periodNow s (driveTb (s.drive o)) = true then ((faultCleared s).drive o).dst = .idle
        else ((faultCleared s).drive o).clearDue = true) := by
  unfold faultCleared
  extract_lets _ a b c e
  have ha : a.drives = s.drives ∧ (∀ t, periodNow a t = periodNow s t) ∧ a.now = s.now ∧ a.tim = s.tim := ⟨rfl, fun _ => rfl, rfl, rfl⟩
  have hab : ClearFrame a b := forUpTo_rel ClearFrame.refl ClearFrame.trans (fun k _ u => clearDrive_frame k u) a
  have hcleared : ∀ k, k < 4 → ∃ u, ClearFrame a u ∧ u.drive k = a.drive k ∧ b.drive k = (clearDrive k u).drive k :=
    (forUpTo_own ClearFrame.refl ClearFrame.trans clearDrive_frame (fun k u e he => (clearDrive_drive k u e).trans (if_neg he)) 4 a).2
  have hbc : ClearFrame b c ∧ DrivesBare b c :=
    forEach_rel (R := fun s u => ClearFrame s u ∧ DrivesBare s u) (fun s => ⟨.refl s, .refl s⟩)
      (fun h k => ⟨h.1.trans k.1, h.2.trans k.2⟩) restartSource_clear _ b
  have hce : ClearFrame c e := forUpTo_rel ClearFrame.refl ClearFrame.trans (fun k _ u => releaseDrive_clear k u) c
  have hreleased : ∀ k, k < 4 → ∃ u, ClearFrame c u ∧ u.drive k = c.drive k ∧ e.drive k = (releaseDrive k u).drive k :=
    (forUpTo_own ClearFrame.refl ClearFrame.trans releaseDrive_clear (fun k u e he => (releaseDrive_releases k u).1 e he) 4 c).2
  clear_value e c b
  have hac := hab.trans hbc.1
  have hop : ClearFrame e (setOp e .standby) := clearFrame_setOp e .standby
  have hop' := setOp_op e .standby
  have hstand := setOp_stand e .standby
  generalize setOp e .standby = f at hop hop' hstand
  have hrec : ClearFrame f (record f 0x0907 0 []) := clearFrame_quiet (by decide) rfl (by decide)
  have hstand' := hstand.trans (record_stand (s := f) (code := 0x0907) (idx := 0) (args := []) (by decide) rfl (by decide))
  have haf := hac.trans (hce.trans hop)
  refine ⟨haf.trans hrec, ?_, ?_, fun o ho => ?_⟩
  · rw [record_quiet (by decide) rfl (by decide)]
    exact hop'
  · have hraise := record_raises f 0x0907 0 []
    have hsame : f.now = a.now ∧ f.tim = a.tim := by
      obtain ⟨_, _, _, _, _, _, _, _, rfl⟩ := haf
      exact ⟨rfl, rfl⟩
    exact raised_of hraise (hsame.1.trans ha.2.2.1) (by rw [hsame.2, ha.2.2.2])
  · obtain ⟨v, _, hv, hbv⟩ := hcleared o ho
    obtain ⟨u, hu, huo, heo⟩ := hreleased o ho
    obtain ⟨_, hfault, hrel⟩ := releaseDrive_releases o u
    have has : a.drive o = s.drive o := congrArg (fun D => tblGet D ({} : Drive) o) ha.1
    have hbo : b.drive o = { s.drive o with faultLatched := false, exempt := false } := by
      rw [hbv, clearDrive_drive, if_pos rfl, hv, has]
    have hco : bare (u.drive o) = bare { s.drive o with faultLatched := false, exempt := false } := by
      rw [huo, ← hbo]
      exact hbc.2.same o
    have hper (t : Nat) : periodNow u t = periodNow s t := by
      obtain ⟨_, _, _, _, _, _, _, _, hframe⟩ := hac.trans hu
      rw [hframe]
      exact ha.2.1 t
    have htb : driveTb (u.drive o) = driveTb (s.drive o) := by
      have hc := congrArg Drive.cfg hco
      exact congrArg (fun w => field w 3 2) hc
    have hfl : (u.drive o).faultLatched = false := by
      have hf := congrArg Drive.faultLatched hco
      exact hf
    rw [hstand'.drive o, heo]
    rw [dst_of_bare hco, hper, htb] at hrel
    exact ⟨hfault.trans hfl, hrel⟩

theorem clearFault_clears {s : State} {tag : Nat} (h : Starts s tag 0x14 [])
    (hlatches : ∀ l ∈ s.so.latches, l.resetOnly = false ∧ clearHolds s l = true) (htrips : s.hatch.latch = 0)
    (hdrives : ∀ o, o < 4 → (s.drive o).discharging = false ∧ (s.drive o).dst ≠ .stopping) :
    ∃ t, exec (.clearFault tag) s = .next t ∧ Replied s t tag 0 [] ∧ t.op = .standby ∧ t.so.latches = [] ∧
      t.so.dsch = 0 ∧ Raised s t 0x0907 0 [] ∧
      (∀ o, o < 4 → (t.drive o).faultLatched = false ∧ (ssRank (s.drive o).dst ≠ 0 →
        (if periodNow s (driveTb (s.drive o)) = true then (t.drive o).dst = .idle else (t.drive o).clearDue = true))) ∧
      t.conv = s.conv ∧ t.plate = s.plate ∧ t.nv = s.nv ∧ t.mem.cells = s.mem.cells := by
  have hb : bodyClearFault [] (begun s tag) = .done stOk [] (faultCleared (begun s tag)) := by
    have hhold : (begun s tag).so.latches.any (fun l => !l.resetOnly && !clearHolds (begun s tag) l) = false :=
      List.any_eq_false.2 fun l hl => by
        have hc : clearHolds (begun s tag) l = true := (hlatches l hl).2
        simp [hc]
    have hreset : (begun s tag).so.latches.any (fun l => l.resetOnly) = false :=
      List.any_eq_false.2 fun l hl => by simp [(hlatches l hl).1]
    have htrip : decide ((begun s tag).hatch.latch ≠ 0) = false := decide_eq_false (not_not.2 htrips)
    have hnone : drivesWith (begun s tag) (fun v => v.discharging || v.dst = .stopping) = [] := by
      unfold drivesWith below
      rw [List.filter_eq_nil_iff]
      intro o ho
      obtain ⟨hdis, hstop⟩ := hdrives o (List.mem_range.1 ho)
      have hdis' : ((begun s tag).drive o).discharging = false := hdis
      have hstop' : ((begun s tag).drive o).dst ≠ .stopping := hstop
      simp [hdis', hstop']
    refine (checked_nil _ ?_ _).trans rfl
    simp only [List.forall_mem_cons, List.not_mem_nil, false_implies, implies_true, and_true]
    exact ⟨hhold, hreset, htrip, by rw [hnone]; rfl⟩
  obtain ⟨hframe, hop, hraised, hdr⟩ := faultCleared_clears (begun s tag)
  generalize faultCleared (begun s tag) = u at hb hframe hop hraised hdr
  obtain ⟨_, _, _, _, _, _, _, _, rfl⟩ := hframe
  obtain ⟨t, ht, hr, f, rfl⟩ := completes h hb rfl rfl
  exact ⟨_, congrArg Host.Outcome.next ht, hr, hop, rfl, rfl, hraised, hdr, rfl, rfl, rfl, rfl⟩

/-- Settles O19: two safe states by command, and the recovery from them. -/
theorem safeStateCommands : Obligations.SafeStateCommands := by
  unfold Obligations.SafeStateCommands
  intro s tag d hd
  exact ⟨fun ss h1 h3 h harch hdis => safeState_takes hd h1 h3 h harch hdis,
    fun h harch hrun hstop hdis hno => discharge_takes hd h harch hrun hstop hdis hno,
    fun h hlatches htrips hdrives => clearFault_clears h hlatches htrips hdrives⟩

end Sys2Proof.Proofs
end

section
/-!
PROOFS. TORQUE_SET and CLEAR_TRIP (R114, R118, R234).
-/
namespace Sys2Proof.Proofs
open Sys2Proof.Machine Sys2Proof.Safety Sys2Proof.Laws

theorem torqueSet_stores {s : State} {tag d : Nat} {x : Word} (hd : d < 4) (h : Starts s tag 0x11 [wrd d, x]) (hx : fFinite x = true)
    (harch : hasArch (s.drive d) = true) :
    ∃ t, exec (.torqueSet tag) s = .next t ∧ Replied s t tag 0 [] ∧ t.drive d = { s.drive d with torque := x } ∧
      (∀ o, o ≠ d → t.drive o = s.drive o) ∧ t = { s with folio := t.folio, drives := t.drives } := by
  have hb : bodyTorqueSet [wrd d, x] (begun s tag) = .done stOk [] ((begun s tag).updDrive d fun v => { v with torque := x }) := by
    have hdr : pwDrive [wrd d, x] = d := (field_wrd (by omega) 1 0).trans (by omega)
    have hbits : hasBits (pw [wrd d, x] 0) 0xFFFFFFFC#32 = false := hasBits_small (k := 2) (by decide) (by decide) (by omega)
    have hfin : fFinite (pw [wrd d, x] 1) = true := hx
    have harch' : hasArch ((begun s tag).drive d) = true := harch
    unfold bodyTorqueSet
    simp only [hdr]
    exact (checked_badParam _ _).trans (if_neg (by simp [hbits, hfin, harch']))
  obtain ⟨t, ht, hr, f, rfl⟩ := completes h hb rfl rfl
  have hdrive (o : Nat) := drive_updDrive (begun s tag) d o fun v => { v with torque := x }
  exact ⟨_, congrArg Host.Outcome.next ht, hr, (hdrive d).trans (if_pos rfl), fun o ho => (hdrive o).trans (if_neg ho), rfl⟩

theorem torqueSet_needsArch {s : State} {tag d : Nat} {x : Word} (hd : d < 4) (h : Starts s tag 0x11 [wrd d, x])
    (harch : hasArch (s.drive d) = false) :
    ∃ t, exec (.torqueSet tag) s = .next t ∧ Replied s t tag 0x10 [] ∧ t = { s with folio := t.folio } := by
  have hb : bodyTorqueSet [wrd d, x] (begun s tag) = .done 0x10 [] (begun s tag) := by
    have hdr : pwDrive [wrd d, x] = d := (field_wrd (by omega) 1 0).trans (by omega)
    have harch' : hasArch ((begun s tag).drive d) = false := harch
    unfold bodyTorqueSet
    simp only [hdr]
    exact (checked_badParam _ _).trans (if_pos (by simp [harch']))
  exact completes_reading h hb

theorem testBit_maskOf (l : List Nat) (k : Nat) : (maskOf l).testBit k = decide (k ∈ l) := by
  have hfold (a : Nat) : (l.foldl (fun a n => a ||| 2 ^ n) a).testBit k = (a.testBit k || decide (k ∈ l)) := by
    induction l generalizing a with
    | nil => simp
    | cons x l ih =>
      rw [List.foldl_cons, ih, Nat.testBit_or, Nat.testBit_two_pow, Bool.or_assoc]
      simp [eq_comm]
  simpa [maskOf] using hfold 0

/-- The latches that CLEAR_TRIP of `m` leaves. -/
def latchesLeft (m : Nat) (s : State) : State :=
  { s with hatch := { s.hatch with latch := maskOf (below 32 fun n => latchSet s n && !m.testBit n) } }

theorem clearTrip_clears {s : State} {tag : Nat} {m : Word} (h : Starts s tag 0x15 [m]) (hm : m ≠ 0) (hin : m.toNat &&& s.hatch.tripIn = 0) :
    ∃ t, exec (.clearTrip tag) s = .next t ∧ Replied s t tag 0 [0] ∧ (∀ n, n < 32 → latchSet t n = (latchSet s n && !wbit m n)) ∧
      t = { s with folio := t.folio, hatch := { s.hatch with latch := t.hatch.latch, pairs := t.hatch.pairs } } := by
  have hne : m.toNat ≠ 0 := fun h0 => hm (BitVec.eq_of_toNat_eq h0)
  have hb : bodyClearTrip [m] (begun s tag) = .done stOk [0] (settlePairs (latchesLeft m.toNat (begun s tag))) := by
    refine (checked_badParam _ _).trans ((if_neg (by simpa [pw] using hne)).trans (if_neg ?_))
    exact not_not.2 hin
  obtain ⟨P, hP⟩ : PairsAlone (latchesLeft m.toNat (begun s tag)) (settlePairs (latchesLeft m.toNat (begun s tag))) :=
    forUpTo_rel PairsAlone.refl PairsAlone.trans (fun p _ u => (settlePair_alone u p).pairs) _
  rw [hP] at hb
  obtain ⟨t, ht, hr, f, rfl⟩ := completes h hb rfl rfl
  refine ⟨_, congrArg Host.Outcome.next ht, hr, fun n hn => ?_, rfl⟩
  have hbit : (maskOf (below 32 fun n => latchSet s n && !m.toNat.testBit n)).testBit n = (latchSet s n && !m.toNat.testBit n) := by
    rw [testBit_maskOf]
    simp [below, hn]
  exact hbit

theorem clearTrip_active {s : State} {tag : Nat} {m : Word} (h : Starts s tag 0x15 [m]) (hm : m ≠ 0) (hin : m.toNat &&& s.hatch.tripIn ≠ 0) :
    ∃ t, exec (.clearTrip tag) s = .next t ∧ Replied s t tag 0x14 [wrd (m.toNat &&& s.hatch.tripIn)] ∧ t = { s with folio := t.folio } := by
  have hne : m.toNat ≠ 0 := fun h0 => hm (BitVec.eq_of_toNat_eq h0)
  have hb : bodyClearTrip [m] (begun s tag) = .done 0x14 [wrd (m.toNat &&& s.hatch.tripIn)] (begun s tag) :=
    (checked_badParam _ _).trans ((if_neg (by simpa [pw] using hne)).trans (if_pos hin))
  exact completes_reading h hb

/-- Settles O20: each command where it stores and where it is refused. -/
theorem torqueAndTrips : Obligations.TorqueAndTrips := by
  unfold Obligations.TorqueAndTrips
  intro s tag
  exact ⟨fun d x hd h hx => ⟨fun harch => torqueSet_stores hd h hx harch, fun harch => torqueSet_needsArch hd h harch⟩,
    fun m h hm => ⟨fun hin => clearTrip_clears h hm hin, fun hin => clearTrip_active h hm hin⟩⟩

end Sys2Proof.Proofs
end

section
/-!
PROOFS. CTX_LOAD, CTX_READ, MAP_LOAD and SETPOINT (*Commands* of 10_graver.md, R115).
-/
namespace Sys2Proof.Proofs
open Sys2Proof.Machine Sys2Proof.Safety Sys2Proof.Laws

theorem checked2 {s : State} {a b : Bool} {x y : Nat} {k : CmdRes} (ha : a = false) (hb : b = false) :
    checked s [(a, x), (b, y)] k = k := checked_nil s (by simp [ha, hb]) k

theorem ctxLoad_loads {s : State} {tag n : Nat} {img : List Word} (hn : n < 256) (h : Starts s tag 0x20 (wrd n :: img))
    (hst : (s.ctx n).st = .empty ∨ (s.ctx n).st = .loaded) (hok : imageOk n { s.ctx n with image := img } = true) :
    ∃ t, exec (.ctxLoad tag) s = .next t ∧ Replied s t tag 0 [] ∧ (t.ctx n).st = .loaded ∧ (t.ctx n).image = img ∧
      (t.ctx n).x = ctxX0 (t.ctx n) ∧ (t.ctx n).missRun = 0 ∧ (t.ctx n).misses = 0 ∧ (t.ctx n).evals = 0 ∧
      (t.ctx n).inst = none ∧ (∀ m, m ≠ n → t.ctx m = s.ctx m) ∧
      t = { s with folio := t.folio, grav := { s.grav with ctxs := t.grav.ctxs },
                   mem := { s.mem with marks := t.mem.marks, errs := t.mem.errs } } := by
  have hn' : field (pw (wrd n :: img) 0) 7 0 = n := (field_wrd (by omega) 7 0).trans (by omega)
  have hbits : hasBits (pw (wrd n :: img) 0) 0xFFFFFF00#32 = false := hasBits_small (k := 8) (by decide) (by decide) (by omega)
  have hst' : (decide (((begun s tag).ctx n).st ≠ .empty) && decide (((begun s tag).ctx n).st ≠ .loaded)) = false := by
    have hst' : ((begun s tag).ctx n).st = .empty ∨ ((begun s tag).ctx n).st = .loaded := hst
    rcases hst' with h | h <;> simp [h]
  have hok' : imageOk n { (begun s tag).ctx n with image := (wrd n :: img).tail } = true := hok
  have hb : bodyCtxLoad (wrd n :: img) (begun s tag) = .done stOk [] (freshWords ((begun s tag).updCtx n fun c => { c with
      image := img, st := .loaded, x := ctxX0 { s.ctx n with image := img }, r := [], tgt := [0, 0, 0, 0], win := [], missRun := 0,
      misses := 0, evals := 0, worst := 0, inst := none, nextTrig := none }) (ctxAddr n 0) (ctxAddr n 352)) := by
    unfold bodyCtxLoad
    simp only [hn']
    exact checked2 hst' (Bool.or_eq_false_iff.2 ⟨hbits, congrArg not hok'⟩)
  obtain ⟨t, ht, hr, f, rfl⟩ := completes h hb rfl rfl
  have hctx (m : Nat) := ctx_updCtx (begun s tag) n m fun c => { c with
    image := img, st := .loaded, x := ctxX0 { s.ctx n with image := img }, r := [], tgt := [0, 0, 0, 0], win := [], missRun := 0,
    misses := 0, evals := 0, worst := 0, inst := none, nextTrig := none }
  have hown := (hctx n).trans (if_pos rfl)
  have hothers (m : Nat) (hm : m ≠ n) := (hctx m).trans (if_neg hm)
  refine ⟨_, congrArg Host.Outcome.next ht, hr, congrArg Ctx.st hown, congrArg Ctx.image hown,
    (congrArg Ctx.x hown).trans (congrArg ctxX0 hown).symm, congrArg Ctx.missRun hown, congrArg Ctx.misses hown, congrArg Ctx.evals hown,
    congrArg Ctx.inst hown, hothers, rfl⟩

/-! CTX_READ. -/

theorem eccRead_clear {s : State} {a : Nat} (he : errAt s a = .none) (back raced : Bool) : eccRead s a back raced = s := by
  unfold eccRead
  rw [he]

/-- A word of SRAM without an error is read without a trace. -/
theorem demandRead_clear {s : State} {a : Nat} (ha : memOf a = 0) (he : errAt s a = .none) : demandRead s a = s := by
  have hmap : mapRead s a = s := if_neg (by rw [ha]; decide)
  unfold demandRead
  rw [hmap]
  exact (if_neg (by simp [ha])).trans (eccRead_clear he _ _)

theorem readCells_clear {s : State} (l : List Nat) (h : ∀ a ∈ l, memOf a = 0 ∧ errAt s a = .none) : readCells l s = s := by
  have hall : forEach l (fun a s => demandRead s a) s = s := by
    induction l with
    | nil => rfl
    | cons a l ih =>
      have ha : demandRead s a = s := demandRead_clear (h a (by simp)).1 (h a (by simp)).2
      show forEach l _ (demandRead s a) = s
      rw [ha]
      exact ih fun b hb => h b (by simp [hb])
  unfold readCells
  rw [hall, ite_self]

theorem ctxAddr_sram {n i : Nat} (hn : n < 256) (hi : i < 320) : memOf (ctxAddr n i) = 0 := by
  unfold memOf ctxAddr
  rw [if_pos (by omega)]

/-- Where no word carries a mark the bitmap is 0. -/
theorem markBitmap_clear {s : State} {a len : Nat} (h : ∀ i, i < len → markAt s (a + 4 * i) = .none) :
    markBitmap s a len = List.replicate ((len + 31) / 32) 0 := by
  have hword (i : Nat) : (below 32 fun b => 32 * i + b < len && markAt s (a + 4 * (32 * i + b)) = .bite) = [] := by
    unfold below
    rw [List.filter_eq_nil_iff]
    intro b _ hb
    simp only [Bool.and_eq_true, decide_eq_true_eq] at hb
    rw [h _ hb.1] at hb
    exact absurd hb.2 (by decide)
  unfold markBitmap
  simp only [hword]
  exact (List.map_const' ..).trans (by rw [List.length_range]; rfl)

theorem ctxRead_reads {s : State} {tag n : Nat} (hn : n < 256) (h : Starts s tag 0x23 [wrd (n + 256)]) (hst : (s.ctx n).st ≠ .empty)
    (hclear : ∀ i, i < 320 → markAt s (ctxAddr n i) = .none ∧ errAt s (ctxAddr n i) = .none) :
    ∃ t, exec (.ctxRead tag) s = .next t ∧
      Replied s t tag 0 (padTo (s.ctx n).image 320 320 ++ List.replicate 10 0) ∧ t = { s with folio := t.folio } := by
  have hw : wbit (pw [wrd (n + 256)] 0) 8 = true := by
    have hbit : (n + 256).testBit 8 = true := by
      have h8 := Nat.testBit_two_pow_mul_add 1 (i := 8) (b := n) hn 8
      simpa [Nat.add_comm] using h8
    exact (wbit_wrd (by decide)).trans hbit
  have hn' : field (pw [wrd (n + 256)] 0) 7 0 = n := (field_wrd (by omega) 7 0).trans (by omega)
  have hbits : hasBits (pw [wrd (n + 256)] 0) 0xFFFFFE00#32 = false := hasBits_small (k := 9) (by decide) (by decide) (by omega)
  have hst' : decide (((begun s tag).ctx n).st = .empty) = false := decide_eq_false hst
  have haddr (i : Nat) : ctxAddr n 0 + 4 * i = ctxAddr n i := by unfold ctxAddr; omega
  have hcells : readCells ((List.range 320).map fun i => ctxAddr n 0 + 4 * i) (begun s tag) = begun s tag := by
    refine readCells_clear _ fun a ha => ?_
    obtain ⟨i, hi, rfl⟩ := List.mem_map.1 ha
    rw [haddr]
    exact ⟨ctxAddr_sram hn (List.mem_range.1 hi), (hclear i (List.mem_range.1 hi)).2⟩
  have hmap : markBitmap (begun s tag) (ctxAddr n 0) 320 = List.replicate 10 0 := markBitmap_clear fun i hi => by
    rw [haddr]
    exact (hclear i hi).1
  have hb : bodyCtxRead [wrd (n + 256)] (begun s tag) =
      .done stOk (padTo (s.ctx n).image 320 320 ++ List.replicate 10 0) (begun s tag) := by
    unfold bodyCtxRead
    simp only [hn', hw, if_true, hcells, hmap]
    refine (checked_badParam _ _).trans ((if_neg ?_).trans rfl)
    exact ne_true_of_eq_false (Bool.or_eq_false_iff.2 ⟨hbits, hst'⟩)
  exact completes_reading h hb

/-! MAP_LOAD. -/

/-- The words of a list are stored from place `lo` on. -/
theorem mapWords_stored (lo : Nat) (vs : List Word) (n : Nat) (s : State) :
    (∀ k, tblGet (forUpTo n (fun i s => { s with grav := { s.grav with maps := tblSet s.grav.maps 0 (lo + i) (at0 vs i) } }) s).grav.maps 0 k =
      if lo ≤ k ∧ k < lo + n then at0 vs (k - lo) else tblGet s.grav.maps 0 k) ∧
    ∃ M, forUpTo n (fun i s => { s with grav := { s.grav with maps := tblSet s.grav.maps 0 (lo + i) (at0 vs i) } }) s =
      { s with grav := { s.grav with maps := M } } := by
  induction n with
  | zero => exact ⟨fun k => (if_neg (by omega)).symm, s.grav.maps, rfl⟩
  | succ n ih =>
    obtain ⟨hget, M, hM⟩ := ih
    have hstep : forUpTo (n + 1) (fun i s => { s with grav := { s.grav with maps := tblSet s.grav.maps 0 (lo + i) (at0 vs i) } }) s =
        (fun u : State => { u with grav := { u.grav with maps := tblSet u.grav.maps 0 (lo + n) (at0 vs n) } })
          (forUpTo n (fun i s => { s with grav := { s.grav with maps := tblSet s.grav.maps 0 (lo + i) (at0 vs i) } }) s) := rfl
    rw [hstep]
    generalize forUpTo n _ s = u at hget hM
    refine ⟨fun k => (tblGet_write ..).trans ?_, tblSet u.grav.maps 0 (lo + n) (at0 vs n), by rw [hM]⟩
    rw [hget]
    by_cases hk : k = lo + n
    · rw [if_pos hk, if_pos (by omega), hk, Nat.add_sub_cancel_left]
    · rw [if_neg hk]
      by_cases hin : lo ≤ k ∧ k < lo + n
      · rw [if_pos hin, if_pos (by omega)]
      · rw [if_neg hin, if_neg (by omega)]

theorem mapLoad_loads {s : State} {tag m first : Nat} {vs : List Word} (hm : m < 4) (hf : first < 1536)
    (h : Starts s tag 0x24 (wrd (first * 65536 + m) :: vs)) (huse : mapInUse s m = false) (heven : vs.length % 2 = 0)
    (hend : first + vs.length / 2 ≤ 1536) (hfin : ∀ v ∈ vs, fFinite v = true) :
    ∃ t, exec (.mapLoad tag) s = .next t ∧ Replied s t tag 0 [] ∧
      (∀ i, i < vs.length → tblGet t.grav.maps 0 (3072 * m + 2 * first + i) = vs.getD i 0) ∧
      (∀ k, (k < 3072 * m + 2 * first ∨ 3072 * m + 2 * first + vs.length ≤ k) →
        tblGet t.grav.maps 0 k = tblGet s.grav.maps 0 k) ∧
      t = { s with folio := t.folio, grav := { s.grav with maps := t.grav.maps },
                   mem := { s.mem with marks := t.mem.marks, errs := t.mem.errs } } := by
  have hm' : field (pw (wrd (first * 65536 + m) :: vs) 0) 1 0 = m := (field_wrd (by omega) 1 0).trans (by omega)
  have hf' : field (pw (wrd (first * 65536 + m) :: vs) 0) 26 16 = first := (field_wrd (by omega) 26 16).trans (by omega)
  have hbits : hasBits (pw (wrd (first * 65536 + m) :: vs) 0) 0xF800FFFC#32 = false := by
    have hrange : ∀ k, k < 32 → wbit (0xF800FFFC : Word) k = true → (2 ≤ k ∧ k < 16) ∨ 27 ≤ k := by decide
    refine hasBits_eq_false fun k hk hb => (wbit_wrd hk).trans ?_
    rw [Nat.mul_comm, Nat.testBit_two_pow_mul_add first (i := 16) (by omega) k]
    rcases hrange k hk hb with hlow | hhigh
    · rw [if_pos hlow.2]
      exact Nat.testBit_lt_two_pow (lt_of_lt_of_le hm (Nat.pow_le_pow_right (n := 2) (i := 2) (by decide) hlow.1))
    · rw [if_neg (by omega)]
      exact Nat.testBit_lt_two_pow (lt_of_lt_of_le (by omega : first < 2 ^ 11) (Nat.pow_le_pow_right (n := 2) (by decide) (by omega)))
  obtain ⟨hget, M, hM⟩ := mapWords_stored (3072 * m + 2 * first) vs vs.length (begun s tag)
  have hb : bodyMapLoad (wrd (first * 65536 + m) :: vs) (begun s tag) = .done stOk [] (freshWords
      (forUpTo vs.length (fun i s => { s with grav := { s.grav with maps := tblSet s.grav.maps 0 (3072 * m + 2 * first + i) (at0 vs i) } })
        (begun s tag)) (mapAddr m first 0) (mapAddr m (first + vs.length / 2) 0)) := by
    have hany : (vs.any fun v => !fFinite v) = false := List.any_eq_false.2 fun v hv => by simp [hfin v hv]
    have huse' : mapInUse (begun s tag) m = false := huse
    have hodd : (vs.length + 1) % 2 ≠ 0 := by omega
    unfold bodyMapLoad
    simp only [hm', hf', List.tail_cons]
    refine checked2 huse' (Bool.or_eq_false_iff.2 ⟨Bool.or_eq_false_iff.2 ⟨Bool.or_eq_false_iff.2 ⟨Bool.or_eq_false_iff.2
      ⟨hbits, decide_eq_false hodd⟩, decide_eq_false (by omega)⟩, decide_eq_false (by omega)⟩, hany⟩)
  rw [hM] at hb hget
  obtain ⟨t, ht, hr, f, rfl⟩ := completes h hb rfl rfl
  refine ⟨_, congrArg Host.Outcome.next ht, hr, fun i hi => ?_, fun k hk => ?_, rfl⟩
  · exact (hget _).trans ((if_pos (by omega)).trans (by rw [Nat.add_sub_cancel_left]; rfl))
  · exact (hget k).trans (if_neg (by omega))

/-! SETPOINT. -/

theorem at0_putAt (l : List Word) (k : Nat) (v : Word) {j : Nat} (hj : j < 4) :
    at0 (putAt l 4 k v) j = if j = k then v else at0 l j := by
  simp [at0, putAt, hj]

theorem setpoint_stores {s : State} {tag n k : Nat} {v : Word} (hn : n < 256) (hk : k < ctxM (s.ctx n)) (hk4 : k < 4)
    (h : Starts s tag 0x12 [wrd (n + 256 * k), v]) (hfin : fFinite v = true) (hst : (s.ctx n).st ≠ .empty) (hsrc : refSrc (s.ctx n) k = 0) :
    ∃ t, exec (.setpoint tag) s = .next t ∧ Replied s t tag 0 [] ∧ at0 (t.ctx n).tgt k = v ∧
      (∀ j, j < 4 → j ≠ k → at0 (t.ctx n).tgt j = at0 (s.ctx n).tgt j) ∧ (∀ m, m ≠ n → t.ctx m = s.ctx m) ∧
      t = { s with folio := t.folio, grav := { s.grav with ctxs := t.grav.ctxs } } := by
  have hn' : field (pw [wrd (n + 256 * k), v] 0) 7 0 = n := (field_wrd (by omega) 7 0).trans (by omega)
  have hk' : field (pw [wrd (n + 256 * k), v] 0) 9 8 = k := (field_wrd (by omega) 9 8).trans (by omega)
  have hb : bodySetpoint [wrd (n + 256 * k), v] (begun s tag) = .done stOk [] (setTarget n k v none (begun s tag)) := by
    have hbits : hasBits (pw [wrd (n + 256 * k), v] 0) 0xFFFFFC00#32 = false := hasBits_small (k := 10) (by decide) (by decide) (by omega)
    have hv : fFinite (pw [wrd (n + 256 * k), v] 1) = true := hfin
    have hst' : ((begun s tag).ctx n).st ≠ .empty := hst
    have hm' : k < ctxM ((begun s tag).ctx n) := hk
    have hsrc' : refSrc ((begun s tag).ctx n) k = 0 := hsrc
    unfold bodySetpoint
    simp only [hn', hk']
    refine (checked_badParam _ _).trans (if_neg ?_)
    simp [hbits, hv, hst', hm', hsrc']
  obtain ⟨t, ht, hr, f, rfl⟩ := completes h hb rfl rfl
  have hctx (m : Nat) : (setTarget n k v none (begun s tag)).ctx m = if m = n then _ else s.ctx m := ctx_updCtx (begun s tag) n m _
  have hown : ((setTarget n k v none (begun s tag)).ctx n).tgt = putAt (s.ctx n).tgt 4 k v := by
    rw [hctx, if_pos rfl]
    rfl
  refine ⟨_, congrArg Host.Outcome.next ht, hr, ?_, fun j hj hjk => ?_, fun m hm => (hctx m).trans (if_neg hm), rfl⟩
  · exact (congrArg (at0 · k) hown).trans ((at0_putAt _ k v hk4).trans (if_pos rfl))
  · exact (congrArg (at0 · j) hown).trans ((at0_putAt _ k v hj).trans (if_neg hjk))

/-- Settles O21: each of the four commands passes its checks and stores or reads what it names. -/
theorem graverStores : Obligations.GraverStores := by
  unfold Obligations.GraverStores
  intro s tag n hn
  exact ⟨fun img h hst hok => ctxLoad_loads hn h hst hok, fun h hst hclear => ctxRead_reads hn h hst hclear,
    fun m first vs hm hf h huse heven hend hfin => mapLoad_loads hm hf h huse heven hend hfin,
    fun k v hk hk4 h hfin hst hsrc => setpoint_stores hn hk hk4 h hfin hst hsrc⟩

end Sys2Proof.Proofs
end

section
/-!
PROOFS. Graver: what the outputs of a context change outside Graver, and what they leave of every context.
-/
namespace Sys2Proof.Proofs
open Sys2Proof.Machine Sys2Proof.Safety Sys2Proof.Laws

/-- From `s` to `u` Graver, the cores, MRAM, memory, time, the tags and the replies are as they were, and no event is lost. -/
structure OffGraver (s u : State) : Prop where
  grav : u.grav = s.grav
  plate : u.plate = s.plate
  nv : u.nv = s.nv
  cells : u.mem.cells = s.mem.cells
  now : u.now = s.now
  valid : u.tim.timeValid = s.tim.timeValid
  tags : u.folio.tags = s.folio.tags
  replies : u.folio.replies = s.folio.replies
  grow : ∀ e ∈ s.book.inq, e.code ≠ 0x0902 → e ∈ u.book.inq

theorem OffGraver.refl (s : State) : OffGraver s s := ⟨rfl, rfl, rfl, rfl, rfl, rfl, rfl, rfl, fun _ h _ => h⟩

theorem OffGraver.trans {s t u : State} (h : OffGraver s t) (k : OffGraver t u) : OffGraver s u :=
  ⟨k.grav.trans h.grav, k.plate.trans h.plate, k.nv.trans h.nv, k.cells.trans h.cells, k.now.trans h.now, k.valid.trans h.valid,
    k.tags.trans h.tags, k.replies.trans h.replies, fun e he hc => k.grow e (h.grow e he hc) hc⟩

theorem OffGraver.ev {s u : State} (h : EvStep s u) : OffGraver s u :=
  ⟨h.grav, h.plate, h.nv, h.mem_cells, h.now, congrArg (·.timeValid) h.tim, h.folio_tags, h.folio_replies, h.grow⟩

/-- Parameters, the converters, the position sources, Hatch and the link. -/
theorem OffGraver.parts (s : State) (P : Tbl Word) (C : Converters) (X : Position) (H : Hatch) (M : Margin) :
    OffGraver s { s with par := P, conv := C, pos := X, hatch := H, marg := M } :=
  ⟨rfl, rfl, rfl, rfl, rfl, rfl, rfl, rfl, fun _ h _ => h⟩

theorem offGraver_kept : Kept OffGraver where
  refl := .refl
  trans := .trans
  ev := .ev
  par s _ _ _ _ := .parts s _ s.conv s.pos s.hatch s.marg
  tb s _ _ _ := .parts s s.par s.conv s.pos _ s.marg
  misc _ _ _ _ _ hT := by
    obtain ⟨m, g, b, d, w, rfl⟩ := hT
    exact ⟨rfl, rfl, rfl, rfl, rfl, rfl, rfl, rfl, fun _ h _ => h⟩

theorem offGraver_landTimebase (t : Nat) (s : State) : OffGraver s (landTimebase t s) := by
  unfold landTimebase
  refine rel_ite (.refl s) (rel_ite (kept_startPeriod offGraver_kept 5 t 0 s) ?_)
  exact offGraver_kept.forUpTo (fun p u => rel_ite (.ev (landPair_alone u p _).pairs.stand.ev) (.refl u)) s

theorem offGraver_countClamp (p : Nat) (s : State) : OffGraver s (countClamp p s) := by
  unfold countClamp
  split
  · exact rel_ite (.refl s) (.parts s _ s.conv s.pos s.hatch s.marg)
  · exact .refl s

theorem offGraver_landCompares (t : Nat) (ks : List Nat) (s : State) : OffGraver s (landCompares t ks s) := by
  unfold landCompares
  extract_lets a
  have ha : OffGraver s a := offGraver_kept.forUpTo (fun p v => rel_ite (offGraver_countClamp p v) (.refl v)) s
  exact ha.trans (offGraver_landTimebase t a)

theorem offGraver_writeDuties (l : List (Nat × Word)) (s : State) : OffGraver s (writeDuties l s) := by
  have hstore (u : State) (t k r : Nat) (v : Word) (b : Bool) : OffGraver u (storeCmp u t k r v b) :=
    rel_ite (.refl u) (.parts u _ u.conv u.pos _ u.marg)
  unfold writeDuties
  extract_lets a
  have ha : OffGraver s a := offGraver_kept.forEach (fun x u => rel_ite (hstore u _ _ _ _ _) (.refl u)) l s
  exact ha.trans (offGraver_kept.forUpTo (fun t u => rel_ite (.refl u) (offGraver_landCompares t _ u)) a)

theorem offGraver_frontUpdate (d : Nat) (vs : List (Nat × Word)) (s : State) : OffGraver s (frontUpdate d vs s) := by
  have hstatus (u : State) (n : Nat) : OffGraver u (setModStatus u d n) := .parts u u.par u.conv u.pos _ u.marg
  unfold frontUpdate
  extract_lets u
  have hu : OffGraver s u := offGraver_kept.forEach (fun x v => .parts v v.par v.conv v.pos _ v.marg) vs s
  refine hu.trans ?_
  cases frontVdc u d with
  | none => exact hstatus u _
  | some vdc => exact rel_ite (hstatus u _) ((hstatus u _).trans (offGraver_writeDuties _ _))

theorem offGraver_destDrop (s : State) : OffGraver s (destDrop s) := .parts s _ s.conv s.pos s.hatch s.marg

theorem offGraver_writeFront (l : List (Word × Word)) (d : Nat) (s : State) : OffGraver s (writeFront l d s) := by
  unfold writeFront
  extract_lets mine good u
  have hu : OffGraver s u := offGraver_kept.forEach (fun _ v => offGraver_destDrop v) _ s
  exact hu.trans (rel_ite (.refl u) (offGraver_frontUpdate d _ u))

/-! Captures and moves of the position sources. -/

theorem offGraver_updSrc (s : State) (n : Nat) (f : PosSrc → PosSrc) : OffGraver s (s.updSrc n f) :=
  .parts s s.par s.conv _ s.hatch s.marg

/-- A relation that the parts of a capture keep: events, the position unit, and the records that waiting sequences hold. -/
structure CaptureRel (R : State → State → Prop) : Prop where
  refl : ∀ s, R s s
  trans : ∀ {s t u}, R s t → R t u → R s u
  ev : ∀ {s u}, EvStep s u → R s u
  pos : ∀ (s : State) X, R s { s with pos := X }
  patch : ∀ n t r s, R s (patchRecs n t r s)

section
variable {R : State → State → Prop} (h : CaptureRel R)
include h

theorem crossCheck_rel (d : Nat) (s : State) : R s (crossCheck d s) := by
  have hset (v : Nat) : R s { s with pos := { s.pos with mism := tblSet s.pos.mism 0 d v } } := h.pos s _
  unfold crossCheck
  dsimp only
  exact rel_ite (hset 0) (rel_ite (rel_ite (h.trans (hset 0) (h.ev (ev_raise (.refl _)))) (hset _)) (hset 0))

theorem capture_rel (n tc : Nat) (s : State) : R s (capture n tc s) := by
  unfold capture
  extract_lets q still sp r edge s1 s2 s3 s4 s5
  have h3 : R s s3 := h.trans (h.trans (h.pos s _) (h.pos s1 _)) (h.ev (ev_noteSpeeds (.refl s2)))
  have h4 : R s3 s4 := rel_ite (h.pos s3 _) (h.refl s3)
  have h5 : R s4 s5 := h.patch n tc r s4
  refine h.trans (h.trans h3 (h.trans h4 h5)) (forUpTo_rel h.refl h.trans (fun d _ u => ?_) s5)
  have hcheck := crossCheck_rel h d u
  exact rel_ite (h.refl u) (rel_ite (rel_ite (h.refl u) hcheck) (rel_ite (h.refl u) hcheck))

theorem captureBefore_rel (n t : Nat) (s : State) : R s (captureBefore n t s) := by
  unfold captureBefore
  split
  · exact rel_ite (capture_rel h n _ s) (h.refl s)
  · exact h.refl s

end

theorem offGraver_captureRel : CaptureRel OffGraver where
  refl := .refl
  trans := .trans
  ev := .ev
  pos s _ := .parts s s.par s.conv _ s.hatch s.marg
  patch _ _ _ s := offGraver_kept.forUpTo (fun _ u => rel_ite (.parts u u.par _ u.pos u.hatch u.marg) (.refl u)) s

theorem offGraver_captureBefore (n t : Nat) (s : State) : OffGraver s (captureBefore n t s) := captureBefore_rel offGraver_captureRel n t s

theorem offGraver_triggerRel (t : Nat) : TriggerRel t OffGraver where
  refl := .refl
  trans := .trans
  cmp s _ _ := .parts s s.par s.conv _ s.hatch s.marg
  seq s _ := .parts s s.par _ s.pos s.hatch s.marg
  event s _ _ _ _ := .ev (ev_record (.refl s))
  due s m := offGraver_updSrc s m _
  start s m := offGraver_updSrc s m _
  turn s m f _ := offGraver_updSrc s m f
  capture s m _ := offGraver_captureBefore m t s

theorem offGraver_movePos (n t : Nat) (p' : BitVec 64) (delta step : Int) (hyst : Nat) (s : State) :
    OffGraver s (movePos n t p' delta step hyst s) :=
  (offGraver_updSrc s n _).trans (movePos_rel (offGraver_triggerRel t) n p' delta step hyst s)

theorem offGraver_resolverUpdate (c : Nat) (out0 out1 : Word) (t0 : Nat) (s : State) : OffGraver s (resolverUpdate c out0 out1 t0 s) := by
  refine offGraver_kept.forUpTo (fun i u => rel_ite (.refl u) ?_) s
  extract_lets v q a w p'
  have hw : OffGraver u w := ((offGraver_captureBefore (10 + i) u.now u).trans (offGraver_updSrc v (10 + i) _)).trans (.ev (ev_noteSpeeds (.refl _)))
  exact hw.trans (rel_ite (offGraver_updSrc w (10 + i) _) (rel_ite (.refl w) (offGraver_movePos (10 + i) _ p' _ _ _ w)))

theorem offGraver_resolverFault (c : Nat) (s : State) : OffGraver s (resolverFault c s) := by
  refine offGraver_kept.forUpTo (fun i u => rel_ite ?_ (.refl u)) s
  have hpos : OffGraver u { u with pos := (faultSource (10 + i) 7 u).pos } := .parts u u.par u.conv _ u.hatch u.marg
  exact hpos.trans (.ev (faultSource_faults (10 + i) 7 u).1)

/-! What writing outputs leaves of the contexts. -/

/-- An instance but for the inputs it holds. -/
def bareInst (i : Inst) : Inst := { i with snap := {} }

/-- The context `d` is `c` but for its targets and the inputs of its instance. -/
structure Retargeted (c d : Ctx) : Prop where
  eq : ∃ g J, d = { c with tgt := g, inst := J }
  inst : d.inst.map bareInst = c.inst.map bareInst

theorem Retargeted.refl (c : Ctx) : Retargeted c c := ⟨⟨c.tgt, c.inst, rfl⟩, rfl⟩

theorem Retargeted.trans {c d e : Ctx} (h : Retargeted c d) (k : Retargeted d e) : Retargeted c e := by
  obtain ⟨⟨g, J, rfl⟩, hi⟩ := h
  obtain ⟨⟨g', J', rfl⟩, hi'⟩ := k
  exact ⟨⟨g', J', rfl⟩, hi'.trans hi⟩

/-- From `s` to `u` what is outside Graver is as `OffGraver` says. -/
def Beside (s u : State) : Prop := OffGraver { s with grav := u.grav } u

theorem Beside.trans {s t u : State} (h : Beside s t) (k : Beside t u) : Beside s u :=
  ⟨rfl, k.plate.trans h.plate, k.nv.trans h.nv, k.cells.trans h.cells, k.now.trans h.now, k.valid.trans h.valid, k.tags.trans h.tags,
    k.replies.trans h.replies, fun e he hcode => k.grow e (h.grow e he hcode) hcode⟩

theorem Beside.of_off {s u : State} (h : OffGraver s u) : Beside s u :=
  ⟨rfl, h.plate, h.nv, h.cells, h.now, h.valid, h.tags, h.replies, h.grow⟩

theorem Beside.grav (s : State) (G : Graver) : Beside s { s with grav := G } := .refl _

/-- What the outputs of context `n` change: targets of contexts with the inputs of their instances, and what is outside Graver. -/
structure Aimed (n : Nat) (s u : State) : Prop where
  grav : ∃ X, u.grav = { s.grav with ctxs := X }
  ctx : ∀ m, Retargeted (s.ctx m) (u.ctx m)
  self : ∃ g, u.ctx n = { s.ctx n with tgt := g }
  off : Beside s u

theorem Aimed.of_off {n : Nat} {s u : State} (h : OffGraver s u) : Aimed n s u := by
  have hctx (m : Nat) : u.ctx m = s.ctx m := by
    unfold State.ctx
    rw [h.grav]
  refine ⟨⟨s.grav.ctxs, h.grav⟩, fun m => ?_, ⟨(s.ctx n).tgt, hctx n⟩, .of_off h⟩
  rw [hctx]
  exact .refl _

theorem Aimed.refl (n : Nat) (s : State) : Aimed n s s := .of_off (.refl s)

theorem Aimed.trans {n : Nat} {s t u : State} (h : Aimed n s t) (k : Aimed n t u) : Aimed n s u := by
  obtain ⟨⟨X, hX⟩, hc, ⟨g, hg⟩, ho⟩ := h
  obtain ⟨⟨Y, hY⟩, hc', ⟨g', hg'⟩, ho'⟩ := k
  exact ⟨⟨Y, by rw [hY, hX]⟩, fun m => (hc m).trans (hc' m), ⟨g', by rw [hg', hg]⟩, ho.trans ho'⟩

/-- A target of `b` is written; where `b` is the writer itself, not into its instance. -/
theorem aimed_setTarget {n b : Nat} (k : Nat) (v : Word) {t0 : Option Nat} (ht : b = n → t0 = none) (s : State) :
    Aimed n s (setTarget b k v t0 s) := by
  have hctx (m : Nat) : (setTarget b k v t0 s).ctx m = if m = b then _ else s.ctx m := ctx_updCtx s b m _
  refine ⟨⟨_, rfl⟩, fun m => ?_, ?_, .grav s _⟩
  · rw [hctx]
    by_cases hm : m = b
    · rw [if_pos hm, hm]
      refine ⟨⟨_, _, rfl⟩, ?_⟩
      cases (s.ctx b).inst with
      | none => rfl
      | some i =>
        simp only [Option.map_some, Option.some.injEq]
        split <;> rfl
    · rw [if_neg hm]
      exact .refl _
  · rw [hctx]
    by_cases hn : n = b
    · rw [if_pos hn, hn, ht hn.symm]
      exact ⟨putAt (s.ctx b).tgt 4 k v, by simp⟩
    · rw [if_neg hn]
      exact ⟨(s.ctx n).tgt, rfl⟩

theorem aimed_writeSlot (n : Nat) (w v : Word) (t0 : Nat) (s : State) : Aimed n s (writeSlot n w v t0 s) := by
  unfold writeSlot
  refine rel_ite (.of_off (offGraver_destDrop s)) ?_
  split
  · exact .of_off (rel_ite (.ev (ev_updRing (.refl s))) (.refl s))
  · refine aimed_setTarget _ v (fun hb => if_neg ?_) s
    simp [inTree, isAncestor, hb]
  · exact .of_off (.ev (ev_updRegn (.refl s)))
  · exact .refl n s

theorem aimed_writeDests (n : Nat) (slots : List Word) (t0 : Nat) (all : Bool) (s : State) : Aimed n s (writeDests n slots t0 all s) := by
  unfold writeDests
  extract_lets l a b
  have ha : Aimed n s a := forEach_rel (Aimed.refl n) Aimed.trans (fun (x : Word × Word) u => aimed_writeSlot n x.1 x.2 t0 u) _ s
  have hb : Aimed n a b := .of_off (offGraver_kept.forUpTo (fun d u => offGraver_writeFront l d u) a)
  exact (ha.trans hb).trans (.of_off (offGraver_kept.forEach (fun _ u => offGraver_destDrop u) _ b))

theorem aimed_landOutside (n : Nat) (slots : List Word) (t0 : Nat) (s : State) : Aimed n s (landOutside n slots t0 s) :=
  forEach_rel (Aimed.refl n) Aimed.trans (fun (x : Word × Word) u => aimed_writeSlot n x.1 x.2 t0 u) _ s

end Sys2Proof.Proofs
end

section
/-!
PROOFS. Graver: what the end, the fault and the write-back of one context leave of another.
-/
namespace Sys2Proof.Proofs
open Sys2Proof.Machine Sys2Proof.Safety Sys2Proof.Laws

/-- From `s` to `u` context `n` is as it was but for its targets, the inputs of its instance and its worst time; so are the
cores, MRAM and memory. -/
structure Spared (n : Nat) (s u : State) : Prop where
  ctx : ∃ g J w, u.ctx n = { s.ctx n with tgt := g, inst := J, worst := w }
  inst : (u.ctx n).inst.map bareInst = (s.ctx n).inst.map bareInst
  lanes : u.grav.lanes = s.grav.lanes
  plate : u.plate = s.plate
  nv : u.nv = s.nv
  cells : u.mem.cells = s.mem.cells

theorem Spared.refl (n : Nat) (s : State) : Spared n s s :=
  ⟨⟨(s.ctx n).tgt, (s.ctx n).inst, (s.ctx n).worst, rfl⟩, rfl, rfl, rfl, rfl, rfl⟩

theorem Spared.trans {n : Nat} {s t u : State} (h : Spared n s t) (k : Spared n t u) : Spared n s u := by
  obtain ⟨⟨g, J, w, hc⟩, hi, hl, hp, hn, hm⟩ := h
  obtain ⟨⟨g', J', w', hc'⟩, hi', hl', hp', hn', hm'⟩ := k
  exact ⟨⟨g', J', w', by rw [hc', hc]⟩, hi'.trans hi, hl'.trans hl, hp'.trans hp, hn'.trans hn, hm'.trans hm⟩

/-- What leaves Graver spares every context. -/
theorem Spared.same {n : Nat} {s u : State} (hg : u.grav.ctxs = s.grav.ctxs) (hl : u.grav.lanes = s.grav.lanes) (hp : u.plate = s.plate) (hn : u.nv = s.nv)
    (hm : u.mem.cells = s.mem.cells) : Spared n s u := by
  have hctx : u.ctx n = s.ctx n := by
    unfold State.ctx
    rw [hg]
  exact ⟨⟨(s.ctx n).tgt, (s.ctx n).inst, (s.ctx n).worst, hctx⟩, by rw [hctx], hl, hp, hn, hm⟩

theorem Spared.off {n : Nat} {s u : State} (h : OffGraver s u) : Spared n s u := .same (congrArg (·.ctxs) h.grav) (congrArg (·.lanes) h.grav) h.plate h.nv h.cells

theorem Spared.aimed {n x : Nat} {s u : State} (h : Aimed x s u) : Spared n s u := by
  obtain ⟨⟨g, J, hc⟩, hi⟩ := h.ctx n
  obtain ⟨X, hX⟩ := h.grav
  exact ⟨⟨g, J, (s.ctx n).worst, hc⟩, hi, congrArg (·.lanes) hX, h.off.plate, h.off.nv, h.off.cells⟩

/-- A change of another context. -/
theorem Spared.other {n x : Nat} (hx : x ≠ n) (s : State) (f : Ctx → Ctx) : Spared n s (s.updCtx x f) := by
  have hctx : (s.updCtx x f).ctx n = s.ctx n := (ctx_updCtx s x n f).trans (if_neg hx.symm)
  exact ⟨⟨(s.ctx n).tgt, (s.ctx n).inst, (s.ctx n).worst, hctx⟩, by rw [hctx], rfl, rfl, rfl, rfl⟩

/-- From `s` to `u` the worst times of contexts and the use of the lanes changed. -/
structure Reworsted (s u : State) : Prop where
  only : ∃ X U, u = { s with grav := { s.grav with ctxs := X, laneUtil := U } }
  ctx : ∀ m, ∃ w, u.ctx m = { s.ctx m with worst := w }

theorem Reworsted.refl (s : State) : Reworsted s s := ⟨⟨_, _, rfl⟩, fun _ => ⟨_, rfl⟩⟩

theorem Reworsted.trans {s t u : State} (h : Reworsted s t) (k : Reworsted t u) : Reworsted s u := by
  obtain ⟨⟨X, U, rfl⟩, hc⟩ := h
  obtain ⟨⟨Y, V, rfl⟩, hc'⟩ := k
  refine ⟨⟨Y, V, rfl⟩, fun m => ?_⟩
  obtain ⟨w, hw⟩ := hc m
  obtain ⟨v, hv⟩ := hc' m
  exact ⟨v, by rw [hv, hw]⟩

theorem reworsted_upd (s : State) (n w : Nat) : Reworsted s (s.updCtx n fun c => { c with worst := w }) := by
  refine ⟨⟨_, _, rfl⟩, fun m => ?_⟩
  rw [ctx_updCtx]
  split
  next h => exact ⟨w, by rw [h]⟩
  next => exact ⟨_, rfl⟩

theorem admStore_reworsts (all : List AdmCtx) (ws : Tbl Nat) (s : State) : Reworsted s (admStore all ws s) := by
  unfold admStore
  extract_lets g
  have hloop : Reworsted s (forEach all
      (fun c s => s.updCtx c.num fun x => { x with worst := (tblGet ws 0 c.num + 5 * g - 1) / (5 * g) }) s) :=
    forEach_rel Reworsted.refl Reworsted.trans (fun c v => reworsted_upd v c.num _) all s
  exact hloop.trans ⟨⟨_, _, rfl⟩, fun _ => ⟨_, rfl⟩⟩

theorem admAccount_reworsts (s : State) : Reworsted s (admAccount s) := by
  unfold admAccount
  cases admSchedule s (admLive s) with
  | inl x => exact .refl s
  | inr ws => exact admStore_reworsts _ ws s

theorem Spared.reworsted {n : Nat} {s u : State} (h : Reworsted s u) : Spared n s u := by
  obtain ⟨⟨X, U, rfl⟩, hc⟩ := h
  obtain ⟨w, hw⟩ := hc n
  exact ⟨⟨_, _, w, hw⟩, by rw [hw], rfl, rfl, rfl, rfl⟩

theorem completeTag_grav (tag status : Nat) (ws : List Word) (s : State) : (completeTag tag status ws s).grav = s.grav ∧
    (completeTag tag status ws s).plate = s.plate ∧ (completeTag tag status ws s).nv = s.nv ∧
    (completeTag tag status ws s).mem = s.mem := by
  unfold completeTag
  split
  · split <;> exact ⟨rfl, rfl, rfl, rfl⟩
  · split <;> exact ⟨rfl, rfl, rfl, rfl⟩

theorem spared_answerWaits (n : Nat) (s : State) : Spared n s (answerWaits s) := by
  unfold answerWaits
  extract_lets gone g u
  have hu : Spared n s u := .same rfl rfl rfl rfl rfl
  refine hu.trans (forEach_rel (Spared.refl n) Spared.trans (fun w v => ?_) gone u)
  obtain ⟨hg, hp, hn, hm⟩ := completeTag_grav w.1 stOk [] v
  exact .same (congrArg (·.ctxs) hg) (congrArg (·.lanes) hg) hp hn (congrArg (·.cells) hm)

theorem spared_stopCtx {n x : Nat} (hx : x ≠ n) (s : State) : Spared n s (stopCtx x s) := by
  unfold stopCtx
  refine rel_ite (.refl n s) ?_
  extract_lets a b
  have ha : Spared n s a := .aimed (aimed_writeDests x _ _ true s)
  have hb : Spared n a b := .other hx a _
  have hrec : Spared n b (record b 0x0704 x []) := .off (.ev (ev_record (.refl b)))
  exact (ha.trans hb).trans (hrec.trans (Spared.trans (.reworsted (admAccount_reworsts _)) (spared_answerWaits n _)))

theorem stopCtx_of_live {n : Nat} {s : State} (h : (s.ctx n).st ≠ .stopping) : stopCtx n s = s := if_pos (.inl h)

/-! Instances that become written. -/

/-- From `s` to `u` context `n` is spared where its instance, if any, no longer waits. -/
def SparedPast (n : Nat) (s u : State) : Prop := (∀ j, (s.ctx n).inst = some j → j.phase ≠ .waiting) → Spared n s u

theorem Spared.past {n : Nat} {s u : State} (h : Spared n s u) (hs : ∀ j, (s.ctx n).inst = some j → j.phase ≠ .waiting) :
    ∀ j, (u.ctx n).inst = some j → j.phase ≠ .waiting := by
  intro j hj
  have hbare := h.inst
  rw [hj] at hbare
  cases hi : (s.ctx n).inst with
  | none =>
    rw [hi] at hbare
    cases hbare
  | some i =>
    rw [hi] at hbare
    have hphase : (bareInst j).phase = (bareInst i).phase := congrArg Inst.phase (Option.some.inj hbare)
    exact fun hw => hs i hi (hphase.symm.trans hw)

theorem SparedPast.refl (n : Nat) (s : State) : SparedPast n s s := fun _ => .refl n s

theorem SparedPast.trans {n : Nat} {s t u : State} (h : SparedPast n s t) (k : SparedPast n t u) : SparedPast n s u :=
  fun hs => (h hs).trans (k ((h hs).past hs))

/-- The instance `j` of `x` takes its inputs, and is ready or passed over. -/
def readied (k x : Nat) (j : Inst) (snap : Snap) (s : State) : State :=
  let s := s.updCtx x fun c => { c with inst := some { j with snap := { snap with tgts := j.snap.tgts } } }
  if passes (s.ctx x) j.t0 then
    let s := writeDests x (fbSlots (s.ctx x)) j.t0 false s
    stopCtx x (written k x (fbSlots (s.ctx x)) s)
  else s.updCtx x fun c => { c with inst := c.inst.map fun j => { j with phase := .ready } }

/-- What a written instance `i` gives to the successor `x` of its context. -/
def passedTo (k : Nat) (i : Inst) (snap : Snap) (x : Nat) (s : State) : State :=
  match (s.ctx x).inst with
  | none => s
  | some j => if j.t0 ≠ i.t0 ∨ j.phase ≠ .waiting then s else readied k x j snap s

theorem written_eq {k n : Nat} {slots : List Word} {s : State} {i : Inst} (hi : (s.ctx n).inst = some i) :
    written (k + 1) n slots s =
      (let snap := { i.snap with outs := tblSet i.snap.outs none n (some slots) }
       let u := s.updCtx n fun c => { c with inst := some { i with phase := .written, slots := slots } }
       forEach (below 256 fun x => !ctxIsRoot (u.ctx x) && decide (ctxTrig (u.ctx x) = n) && ctxAdmitted (u.ctx x)) (passedTo k i snap) u) := by
  rw [show written (k + 1) n slots s = _ from by unfold written; rfl]
  rw [hi]
  rfl

theorem readied_spares {n k x : Nat} {j : Inst} {snap : Snap} (hx : x ≠ n) (ih : ∀ slots s, SparedPast n s (written k x slots s))
    (s : State) : SparedPast n s (readied k x j snap s) := by
  unfold readied
  extract_lets a b
  have ha : SparedPast n s a := fun _ => .other hx s _
  have hb : SparedPast n a b := fun _ => .aimed (aimed_writeDests x _ _ false a)
  exact ha.trans (rel_ite (hb.trans ((ih _ b).trans fun _ => spared_stopCtx hx _)) fun _ => .other hx a _)

theorem passedTo_spares {n k x : Nat} {i : Inst} {snap : Snap} (ih : ∀ x slots s, x ≠ n → SparedPast n s (written k x slots s)) (s : State) :
    SparedPast n s (passedTo k i snap x s) := by
  unfold passedTo
  split
  · exact .refl n s
  next j hj =>
    split
    · exact .refl n s
    next hw =>
      intro hs
      have hx : x ≠ n := by
        rintro rfl
        exact hw (.inr (hs j hj))
      exact readied_spares hx (fun slots s => ih x slots s hx) s hs

/-- What a context's written instance sets off spares a context whose own instance no longer waits. -/
theorem written_spares {n : Nat} (k : Nat) : ∀ x slots s, x ≠ n → SparedPast n s (written k x slots s) := by
  induction k with
  | zero => exact fun _ _ s _ => .refl n s
  | succ k ih =>
    intro x slots s hx
    cases hi : (s.ctx x).inst with
    | none =>
      rw [show written (k + 1) x slots s = s by unfold written; rw [hi]]
      exact .refl n s
    | some i =>
      rw [written_eq hi]
      extract_lets _ snap u
      have hu : SparedPast n s u := fun _ => .other hx s _
      exact hu.trans (forEach_rel (SparedPast.refl n) SparedPast.trans (fun y v => passedTo_spares ih v) _ u)

end Sys2Proof.Proofs
end

section
/-!
PROOFS. CTX_ENABLE and CTX_DISABLE (R297, R298).
-/
namespace Sys2Proof.Proofs
open Sys2Proof.Machine Sys2Proof.Safety Sys2Proof.Laws

/-! What the checks read does not depend on the Folio unit. -/

theorem chainOf_folio (k : Nat) (s : State) (F : Folio) (n : Nat) : chainOf k { s with folio := F } n = chainOf k s n := by
  induction k generalizing n with
  | zero => rfl
  | succ k ih =>
    unfold chainOf
    rw [ih]
    rfl

theorem ctxChain_folio (s : State) (F : Folio) (n : Nat) : ctxChain { s with folio := F } n = ctxChain s n :=
  congrArg (fun l => Option.getD l [n]) (chainOf_folio 256 s F n)

theorem enableBad_folio (s : State) (F : Folio) (l : List Nat) (n : Nat) : enableBad { s with folio := F } l n = enableBad s l n := by
  unfold enableBad
  rw [chainOf_folio]
  rfl

theorem admCtx_folio (s : State) (F : Folio) (n l : Nat) : admCtx { s with folio := F } n l = admCtx s n l := by
  unfold admCtx
  rw [ctxChain_folio]
  rfl

theorem destClash_folio (s : State) (F : Folio) (l : List Nat) : destClash { s with folio := F } l = destClash s l := by
  induction l with
  | nil => rfl
  | cons n r ih =>
    unfold destClash
    rw [ih]
    rfl

theorem admLive_folio (s : State) (F : Folio) : admLive { s with folio := F } = admLive s :=
  List.map_congr_left fun n _ => admCtx_folio s F n _

/-! CTX_ENABLE. -/

theorem below_eq_singleton {k n : Nat} {p : Nat → Bool} (hn : n < k) (hp : ∀ m, p m = true ↔ m = n) : below k p = [n] := by
  refine List.perm_singleton.1 ((List.perm_ext_iff_of_nodup (List.nodup_range.filter _) (List.nodup_singleton n)).2 fun m => ?_)
  rw [List.mem_filter, hp, List.mem_range, List.mem_singleton]
  exact ⟨fun h => h.2, fun h => ⟨h ▸ hn, h⟩⟩

theorem below_eq_nil {k : Nat} {p : Nat → Bool} (hp : ∀ m, m < k → p m = false) : below k p = [] :=
  List.filter_eq_nil_iff.2 fun m hm => by simp [hp m (List.mem_range.1 hm)]

section
variable {s : State} {n : Nat} {init : Bool}

theorem enable_fields (hn : n < 256) : field (wrd (n + 256 * b2n init)) 7 0 = n ∧ wbit (wrd (n + 256 * b2n init)) 8 = init ∧
    hasBits (wrd (n + 256 * b2n init)) 0xFFFFFE00#32 = false := by
  have hb : b2n init ≤ 1 := by cases init <;> decide
  refine ⟨(field_wrd (by omega) 7 0).trans (by omega), ?_, hasBits_small (k := 9) (by decide) (by decide) (by omega)⟩
  rw [wbit_wrd (by decide), Nat.testBit_eq_decide_div_mod_eq]
  cases init
  · exact decide_eq_false (by show ¬ (n + 256 * 0) / 2 ^ 8 % 2 = 1; omega)
  · exact decide_eq_true (by show (n + 256 * 1) / 2 ^ 8 % 2 = 1; omega)

/-- What CTX_ENABLE leaves of its context. -/
theorem enableOne_enables (lane : Nat) : Enabled s (enableOne n init lane s) n init ∧
    ((enableOne n init lane s).ctx n).worst = (s.ctx n).worst ∧
    (∀ m, m ≠ n → (enableOne n init lane s).ctx m = s.ctx m) ∧
    enableOne n init lane s = { s with grav := { s.grav with ctxs := (enableOne n init lane s).grav.ctxs } } := by
  have hctx (m : Nat) : (enableOne n init lane s).ctx m = if m = n then _ else s.ctx m := ctx_updCtx s n m _
  have hown := (hctx n).trans (if_pos rfl)
  refine ⟨?_, by rw [hown], fun m hm => (hctx m).trans (if_neg hm), rfl⟩
  unfold Enabled
  rw [hown]
  exact ⟨rfl, rfl, rfl, rfl, rfl, rfl⟩

/-- The checks of CTX_ENABLE of one context pass. -/
theorem bodyCtxEnable_admits (hn : n < 256) (hst : (s.ctx n).st = .faulted ∨ (s.ctx n).st = .loaded) (hbad : enableBad s [n] n = false)
    (hclash : destClash s ([n] ++ below 256 fun m => ctxLive (s.ctx m) && !([n].contains m)) = false) :
    bodyCtxEnable [wrd (n + 256 * b2n init)] s = admitAndEnable [wrd (n + 256 * b2n init)] s := by
  obtain ⟨hf, _, hbits⟩ := enable_fields (init := init) hn
  unfold bodyCtxEnable
  simp only [List.map_cons, List.map_nil, hf, List.any_cons, List.any_nil, Bool.or_false]
  refine checked_nil s ?_ _
  have hdist : (!distinctWords [wrd n]) = false := rfl
  have h1 : (s.ctx n).st ≠ .enabled := by rcases hst with h | h <;> simp [h]
  have h2 : (s.ctx n).st ≠ .stopping := by rcases hst with h | h <;> simp [h]
  simp only [List.mem_cons, List.not_mem_nil, or_false, forall_eq_or_imp, forall_eq]
  exact ⟨decide_eq_false h1, by
    simpa only [Bool.or_eq_false_iff] using ⟨⟨⟨hbits, hdist⟩, hbad⟩, hclash⟩, decide_eq_false h2⟩

/-- What the list of one word enables. -/
theorem enable_one (hn : n < 256) (lane : Nat → Nat) :
    forEach [wrd (n + 256 * b2n init)] (fun w s => enableOne (field w 7 0) (wbit w 8) (lane (field w 7 0)) s) s = enableOne n init (lane n) s := by
  obtain ⟨hf, hi, _⟩ := enable_fields (init := init) hn
  unfold forEach forEach
  rw [hf, hi]

/-- The LOADED contexts of a list of one word. -/
theorem enable_cand (hn : n < 256) (w : Word) (hw : field w 7 0 = n) :
    (below 256 fun m => ([w].map fun w => field w 7 0).contains m && (s.ctx m).st = .loaded) =
      if (s.ctx n).st = .loaded then [n] else [] := by
  rw [List.map_cons, hw]
  split
  next h => exact below_eq_singleton hn fun m => by by_cases hm : m = n <;> simp [hm, h]
  next h => exact below_eq_nil fun m _ => by by_cases hm : m = n <;> simp [hm, h]

/-- CTX_ENABLE of a FAULTED context. -/
theorem admitAndEnable_faulted (hn : n < 256) (hst : (s.ctx n).st = .faulted) :
    ∃ lane, admitAndEnable [wrd (n + 256 * b2n init)] s = .done stOk [0] (enableOne n init lane s) := by
  unfold admitAndEnable
  extract_lets l cand go
  have hcand : cand = [] := (enable_cand hn _ (enable_fields hn).1).trans (if_neg (by simp [hst]))
  have hgo : go [] s = enableOne n init (s.ctx n).lane s := enable_one hn fun n => (s.ctx n).lane
  rw [if_pos hcand, hgo]
  exact ⟨_, rfl⟩

/-- CTX_ENABLE of a LOADED context that its named lane admits. -/
theorem admitAndEnable_loaded {ws : Tbl Nat} (hn : n < 256) (hst : (s.ctx n).st = .loaded) (hlane : field (imgW (s.ctx n) 1) 15 8 ≠ 0xFF)
    (hlost : s.grav.admLost = false)
    (hadm : admSchedule s (admCtx s n (field (imgW (s.ctx n) 1) 15 8) :: admLive s) = .inr ws) (hclose : stringClose s n = true) :
    ∃ lane all, admitAndEnable [wrd (n + 256 * b2n init)] s = .done stOk [0]
      { admStore all ws (enableOne n init lane s) with grav := { (admStore all ws (enableOne n init lane s)).grav with admLost := false } } := by
  have hplace : placeLanes s (admLive s) [n] = .inr (admCtx s n (field (imgW (s.ctx n) 1) 15 8) :: admLive s) := if_pos hlane
  have hopen : stringOpen s [n] = none := by
    unfold stringOpen
    rw [List.find?_cons_of_neg (by simp [hclose])]
    rfl
  unfold admitAndEnable
  extract_lets l cand go
  have hcand : cand = [n] := (enable_cand hn _ (enable_fields hn).1).trans (if_pos hst)
  have hgo (all : List AdmCtx) : ∃ lane, go all s = enableOne n init lane s :=
    ⟨_, enable_one hn fun n => match all.find? fun c => c.num = n with
      | some c => c.lane
      | none => (s.ctx n).lane⟩
  clear_value go cand
  obtain ⟨lane, hgo⟩ := hgo (admCtx s n (field (imgW (s.ctx n) 1) 15 8) :: admLive s)
  subst hcand
  refine ⟨lane, admCtx s n (field (imgW (s.ctx n) 1) 15 8) :: admLive s, (if_neg (List.cons_ne_nil n [])).trans ?_⟩
  simp only [hlost, hplace, hadm, hopen, hgo]
  rfl

end

section
variable {s : State} {tag n : Nat} {init : Bool}

theorem ctxEnable_faulted (hn : n < 256) (h : Starts s tag 0x21 [wrd (n + 256 * b2n init)]) (hbad : enableBad s [n] n = false)
    (hclash : destClash s ([n] ++ below 256 fun m => ctxLive (s.ctx m) && !([n].contains m)) = false) (hst : (s.ctx n).st = .faulted) :
    ∃ t, exec (.ctxEnable tag) s = .next t ∧ Replied s t tag 0 [0] ∧ Enabled s t n init ∧
      (∀ m, m ≠ n → t.ctx m = s.ctx m) ∧ t = { s with folio := t.folio, grav := { s.grav with ctxs := t.grav.ctxs } } := by
  have hadmit := bodyCtxEnable_admits (s := begun s tag) (init := init) hn (.inl hst) ((enableBad_folio s _ _ n).trans hbad)
    ((destClash_folio s _ _).trans hclash)
  obtain ⟨lane, hb⟩ := admitAndEnable_faulted (s := begun s tag) (init := init) hn hst
  obtain ⟨hen, _, hothers, _⟩ := enableOne_enables (s := begun s tag) (n := n) (init := init) lane
  obtain ⟨t, ht, hr, f, rfl⟩ := completes h (hadmit.trans hb) rfl rfl
  exact ⟨_, congrArg Host.Outcome.next ht, hr, hen, hothers, rfl⟩

theorem ctxEnable_loaded {ws : Tbl Nat} (hn : n < 256) (h : Starts s tag 0x21 [wrd (n + 256 * b2n init)]) (hbad : enableBad s [n] n = false)
    (hclash : destClash s ([n] ++ below 256 fun m => ctxLive (s.ctx m) && !([n].contains m)) = false) (hst : (s.ctx n).st = .loaded)
    (hlane : field (imgW (s.ctx n) 1) 15 8 ≠ 0xFF) (hlost : s.grav.admLost = false)
    (hadm : admSchedule s (admCtx s n (field (imgW (s.ctx n) 1) 15 8) :: admLive s) = .inr ws) (hclose : stringClose s n = true) :
    ∃ t, exec (.ctxEnable tag) s = .next t ∧ Replied s t tag 0 [0] ∧ Enabled s t n init ∧
      (∀ m, m ≠ n → (t.ctx m).st = (s.ctx m).st) ∧ t = { s with folio := t.folio, grav := t.grav } := by
  have hadmit := bodyCtxEnable_admits (s := begun s tag) (init := init) hn (.inr hst) ((enableBad_folio s _ _ n).trans hbad)
    ((destClash_folio s _ _).trans hclash)
  have hadm' : admSchedule (begun s tag) (admCtx (begun s tag) n (field (imgW ((begun s tag).ctx n) 1) 15 8) :: admLive (begun s tag)) =
      .inr ws := by
    refine Eq.trans ?_ hadm
    exact congrArg₂ (fun c l => admSchedule s (c :: l)) (admCtx_folio s _ n _) (admLive_folio s _)
  obtain ⟨lane, all, hb⟩ := admitAndEnable_loaded (s := begun s tag) (init := init) hn hst hlane hlost hadm' hclose
  obtain ⟨hen, _, hothers, honly⟩ := enableOne_enables (s := begun s tag) (n := n) (init := init) lane
  obtain ⟨⟨X, U, hstore⟩, hworst⟩ := admStore_reworsts all ws (enableOne n init lane (begun s tag))
  generalize enableOne n init lane (begun s tag) = a at *
  generalize admStore all ws a = b at *
  obtain ⟨t, ht, hr, f, rfl⟩ := completes h (hadmit.trans hb) (by rw [hstore, honly]) (by rw [hstore, honly]; rfl)
  refine ⟨_, congrArg Host.Outcome.next ht, hr, ?_, fun m hm => ?_, ?_⟩
  · obtain ⟨w, hw⟩ := hworst n
    have hown : (b.ctx n) = { a.ctx n with worst := w } := hw
    show Enabled s b n init
    unfold Enabled at hen ⊢
    rw [hown]
    exact hen
  · obtain ⟨w, hw⟩ := hworst m
    show (b.ctx m).st = _
    rw [hw, hothers m hm]
    rfl
  · rw [hstore, honly]
    rfl

end

/-! CTX_DISABLE. -/

theorem answerWaits_none {s : State} (h : s.grav.waits = []) : answerWaits s = s := by
  rcases s with ⟨part, now, op, locked, drives, par, nv, folio, tim, conv, pos, hatch, stip, ⟨ctxs, maps, lanes, admLost, band, util, waits⟩⟩
  subst h
  rfl

/-- A STOPPING context without an instance in flight is LOADED (R298). -/
theorem stopCtx_stops {s : State} {n : Nat} (hst : (s.ctx n).st = .stopping) (hidle : inFlight s n = false) (hwaits : s.grav.waits = []) :
    ((stopCtx n s).ctx n).st = .loaded ∧ Raised s (stopCtx n s) 0x0704 n [] ∧ (∀ m, m ≠ n → ((stopCtx n s).ctx m).st = (s.ctx m).st) ∧
      Beside s (stopCtx n s) := by
  have hguard : ¬((s.ctx n).st ≠ .stopping ∨ inFlight s n) := by simp [hst, hidle]
  unfold stopCtx
  rw [if_neg hguard]
  extract_lets a b
  obtain ⟨⟨X, hX⟩, hctx, _, hoff⟩ := aimed_writeDests n (fbSlots (s.ctx n)) s.now true s
  have hrec := ev_record (code := 0x0704) (idx := n) (args := []) (.refl b)
  have hraised := record_raises b 0x0704 n []
  obtain ⟨⟨Y, U, hacc⟩, hworst⟩ := admAccount_reworsts (record b 0x0704 n [])
  have hb (m : Nat) : b.ctx m = if m = n then { a.ctx n with st := .loaded, worst := 0 } else a.ctx m := ctx_updCtx a n m _
  have hrctx (m : Nat) : (record b 0x0704 n []).ctx m = b.ctx m := by
    unfold State.ctx
    rw [hrec.grav]
  have hnone : (admAccount (record b 0x0704 n [])).grav.waits = [] := by
    rw [hacc, show (record b 0x0704 n []).grav = b.grav from hrec.grav]
    exact (congrArg (·.waits) hX).trans hwaits
  rw [answerWaits_none hnone]
  generalize record b 0x0704 n [] = r at *
  generalize admAccount r = t at *
  refine ⟨?_, ?_, fun m hm => ?_, ?_⟩
  · obtain ⟨w, hw⟩ := hworst n
    rw [hw, hrctx, hb, if_pos rfl]
  · rw [hacc]
    exact raised_of hraised hoff.now hoff.valid
  · obtain ⟨w, hw⟩ := hworst m
    obtain ⟨g, J, hgj⟩ := (hctx m).eq
    rw [hw, hrctx, hb, if_neg hm, show a.ctx m = _ from hgj]
  · rw [hacc]
    exact (hoff.trans (.grav a _)).trans ((Beside.of_off (.ev hrec)).trans (.grav r _))

/-- Context `n` is STOPPING. -/
def stoppingOne (n : Nat) (s : State) : State := s.updCtx n fun c => { c with st := .stopping }

/-- What CTX_DISABLE of one context does after its checks. -/
theorem bodyCtxDisable_one {s : State} {n : Nat} (tag : Nat) (hn : n < 256) (hlive : ctxLive (s.ctx n) = true)
    (hleaf : ∀ x, x < 256 → x ≠ n → ctxLive (s.ctx x) = true → ctxIsRoot (s.ctx x) = true ∨ ctxTrig (s.ctx x) ≠ n) :
    bodyCtxDisable tag [wrd n] s =
      (let u := stopCtx n (stoppingOne n s)
       if (u.ctx n).st = .loaded then .done stOk [] u
       else .wait { u with grav := { u.grav with waits := u.grav.waits ++ [(tag, [n])] } }) := by
  have hf : field (wrd n) 7 0 = n := (field_wrd (by omega) 7 0).trans (by omega)
  have hbits : hasBits (wrd n) 0xFFFFFF00#32 = false := hasBits_small (k := 8) (by decide) (by decide) (by omega)
  have hnone : (below 256 fun x => ctxLive (s.ctx x) && !ctxIsRoot (s.ctx x) && [n].contains (ctxTrig (s.ctx x)) && !([n].contains x)) = [] := by
    refine below_eq_nil fun x hx => ?_
    by_cases hxn : x = n
    · simp [hxn]
    · cases hl : ctxLive (s.ctx x) with
      | false => rfl
      | true => rcases hleaf x hx hxn hl with h | h <;> simp [h]
  have hone : (below 256 fun m => [n].contains m) = [n] := below_eq_singleton hn fun m => by simp
  unfold bodyCtxDisable
  simp only [List.map_cons, List.map_nil, hf, List.any_cons, List.any_nil, Bool.or_false, hone, List.all_cons, List.all_nil,
    Bool.and_true, decide_eq_true_eq]
  refine (checked2 ?_ ?_).trans rfl
  · rw [hlive]; rfl
  · exact Bool.or_eq_false_iff.2 ⟨hbits, decide_eq_false (not_not.2 hnone)⟩

theorem ctxDisable_stops {s : State} {tag n : Nat} (hn : n < 256) (h : Starts s tag 0x22 [wrd n]) (hlive : ctxLive (s.ctx n) = true)
    (hleaf : ∀ x, x < 256 → x ≠ n → ctxLive (s.ctx x) = true → ctxIsRoot (s.ctx x) = true ∨ ctxTrig (s.ctx x) ≠ n)
    (hidle : inFlight s n = false) (hwaits : s.grav.waits = []) : ∃ t, exec (.ctxDisable tag) s = .next t ∧ Replied s t tag 0 [] ∧
      (t.ctx n).st = .loaded ∧ Raised s t 0x0704 n [] ∧ (∀ m, m ≠ n → (t.ctx m).st = (s.ctx m).st) ∧
      t.plate = s.plate ∧ t.nv = s.nv ∧ t.mem.cells = s.mem.cells := by
  have hb := bodyCtxDisable_one tag (s := begun s tag) hn hlive hleaf
  have hctx (m : Nat) : (stoppingOne n (begun s tag)).ctx m = if m = n then { s.ctx n with st := .stopping } else s.ctx m :=
    ctx_updCtx (begun s tag) n m _
  have hstop : ((stoppingOne n (begun s tag)).ctx n).st = .stopping := by rw [hctx, if_pos rfl]
  have hidle' : inFlight (stoppingOne n (begun s tag)) n = false := by
    unfold inFlight at hidle ⊢
    rw [hctx, if_pos rfl]
    exact hidle
  obtain ⟨hst, hraised, hothers, hbeside⟩ := stopCtx_stops hstop hidle' (show (stoppingOne n (begun s tag)).grav.waits = [] from hwaits)
  generalize stopCtx n (stoppingOne n (begun s tag)) = u at *
  obtain ⟨t, ht, hr, f, rfl⟩ := completes h (hb.trans (if_pos hst)) hbeside.tags hbeside.replies
  refine ⟨_, congrArg Host.Outcome.next ht, hr, hst, hraised, fun m hm => ?_, hbeside.plate, hbeside.nv, hbeside.cells⟩
  refine (hothers m hm).trans ?_
  rw [hctx, if_neg hm]

theorem ctxDisable_waits {s : State} {tag n : Nat} (hn : n < 256) (h : Starts s tag 0x22 [wrd n]) (hlive : ctxLive (s.ctx n) = true)
    (hleaf : ∀ x, x < 256 → x ≠ n → ctxLive (s.ctx x) = true → ctxIsRoot (s.ctx x) = true ∨ ctxTrig (s.ctx x) ≠ n)
    (hbusy : inFlight s n = true) : ∃ t, exec (.ctxDisable tag) s = .next t ∧ Waiting s t tag ∧ (t.ctx n).st = .stopping ∧
      t.grav.waits = s.grav.waits ++ [(tag, [n])] ∧ (∀ m, m ≠ n → t.ctx m = s.ctx m) ∧
      t = { s with folio := t.folio, grav := t.grav } := by
  have hb := bodyCtxDisable_one tag (s := begun s tag) hn hlive hleaf
  have hctx (m : Nat) : (stoppingOne n (begun s tag)).ctx m = if m = n then { s.ctx n with st := .stopping } else s.ctx m :=
    ctx_updCtx (begun s tag) n m _
  have hstop : ((stoppingOne n (begun s tag)).ctx n).st = .stopping := by rw [hctx, if_pos rfl]
  have hbusy' : inFlight (stoppingOne n (begun s tag)) n = true := by
    unfold inFlight at hbusy ⊢
    rw [hctx, if_pos rfl]
    exact hbusy
  rw [show stopCtx n (stoppingOne n (begun s tag)) = stoppingOne n (begun s tag) from if_pos (.inr hbusy')] at hb
  have hwait := hb.trans (if_neg (by rw [hstop]; decide))
  obtain ⟨ht, hw⟩ := waits h hwait rfl rfl
  exact ⟨_, congrArg Host.Outcome.next ht, hw, hstop, rfl, fun m hm => (hctx m).trans (if_neg hm), rfl⟩

/-- Settles O22: one context passes the checks of CTX_ENABLE and CTX_DISABLE; a stop waits for the instance in flight. -/
theorem contextEnableDisable : Obligations.ContextEnableDisable := by
  unfold Obligations.ContextEnableDisable
  intro s tag n init hn
  exact ⟨fun h hbad hclash => ⟨fun hst => ctxEnable_faulted hn h hbad hclash hst,
      fun ws hst hlane hlost hadm hclose => ctxEnable_loaded hn h hbad hclash hst hlane hlost hadm hclose⟩,
    fun h hlive hleaf => ⟨fun hidle hwaits => ctxDisable_stops hn h hlive hleaf hidle hwaits,
      fun hbusy => ctxDisable_waits hn h hlive hleaf hbusy⟩⟩

end Sys2Proof.Proofs
end

section
/-!
PROOFS. CONTEXT_EVALUATION and CONTEXT_WRITEBACK (R300, R305, R308).
-/
namespace Sys2Proof.Proofs
open Sys2Proof.Machine Sys2Proof.Safety Sys2Proof.Laws

/-! The context a lane takes. -/

/-- The better of what has been seen and `n`: the first with the least key. -/
def keepLeast (key : Nat → Nat) (a : Option Nat) (n : Nat) : Option Nat :=
  match a with
  | none => some n
  | some b => if key n < key b then some n else some b

theorem foldl_keepLeast {key : Nat → Nat} {n : Nat} {l : List Nat} (hl : l.Pairwise (· < ·))
    (hbest : ∀ m ∈ l, m ≠ n → key n < key m ∨ (key n = key m ∧ n < m)) (a : Option Nat)
    (ha : a = some n ∨ (n ∈ l ∧ ∀ b, a = some b → key n < key b)) : l.foldl (keepLeast key) a = some n := by
  induction l generalizing a with
  | nil =>
    rcases ha with h | h
    · exact h
    · cases h.1
  | cons m l ih =>
    obtain ⟨hm, hl⟩ := List.pairwise_cons.1 hl
    refine ih hl (fun x hx => hbest x (by simp [hx])) _ ?_
    rcases ha with rfl | ⟨hmem, hkey⟩
    · left
      refine if_neg fun hlt => ?_
      by_cases hmn : m = n
      · subst hmn
        exact Nat.lt_irrefl _ hlt
      · rcases hbest m (by simp) hmn with h | h <;> omega
    · by_cases hmn : m = n
      · subst hmn
        left
        cases a with
        | none => rfl
        | some b => exact if_pos (hkey b rfl)
      · right
        have hin : n ∈ l := by simpa [Ne.symm hmn] using hmem
        have hlt : key n < key m := by
          have := hm n hin
          rcases hbest m (by simp) hmn with h | h <;> omega
        refine ⟨hin, fun b hb => ?_⟩
        cases a with
        | none => rwa [← show m = b from Option.some.inj hb]
        | some c =>
          by_cases hc : key m < key c
          · rwa [← show m = b from Option.some.inj ((if_pos hc).symm.trans hb)]
          · exact hkey b ((if_neg hc).symm.trans hb)

/-- The lane takes the ready context of the shortest deadline, at equal ones of the lowest number. -/
theorem nextReady_best {s : State} {l n : Nat} (h : ReadyOn s l n) (hbest : ∀ m, ReadyOn s l m → m ≠ n →
    ctxDeadline (s.ctx n) < ctxDeadline (s.ctx m) ∨ (ctxDeadline (s.ctx n) = ctxDeadline (s.ctx m) ∧ n < m)) : nextReady s l = some n := by
  have hiff (m : Nat) : m ∈ (below 256 fun n => ctxAdmitted (s.ctx n) && decide ((s.ctx n).lane = l) &&
      (match (s.ctx n).inst with
       | some i => decide (i.phase = .ready)
       | none => false)) ↔ ReadyOn s l m := by
    unfold ReadyOn below
    rw [List.mem_filter, List.mem_range]
    cases (s.ctx m).inst <;> simp [and_assoc]
  have hsorted : (List.range 256).Pairwise (· < ·) := List.pairwise_lt_range
  exact foldl_keepLeast (key := fun m => ctxDeadline (s.ctx m)) (hsorted.filter _) (fun m hm => hbest m ((hiff m).1 hm)) none
    (.inr ⟨(hiff n).2 h, fun b hb => by cases hb⟩)

/-! CONTEXT_EVALUATION. -/

/-- A context whose instance runs with the result `r`. -/
def takesResult (i : Inst) (r : EvalRes) (c : Ctx) : Ctx :=
  { c with ovr := c.ovr || r.ovr, inval := c.inval || r.invalid, inst := some { i with phase := .running, res := some r } }

/-- Context `n` runs on lane `l` with the result `r`. -/
def evaluating (n l : Nat) (i : Inst) (r : EvalRes) (s : State) : State :=
  let u := s.updCtx n (takesResult i r)
  { u with grav := { u.grav with lanes := tblSet u.grav.lanes none l (some n) } }

section
variable {s : State} {n l : Nat} {i : Inst}

theorem contextEvaluation_takes (hi : (s.ctx n).inst = some i) (hruns : gravRuns s = true) (hl : l < laneCount s.part)
    (hfree : tblGet s.grav.lanes none l = none) (hmarks : s.mem.marks = []) (herrs : s.mem.errs = [])
    (hpass : passes (s.ctx n) i.t0 = false) (hready : ReadyOn s l n) (hbest : ∀ m, ReadyOn s l m → m ≠ n →
      ctxDeadline (s.ctx n) < ctxDeadline (s.ctx m) ∨ (ctxDeadline (s.ctx n) = ctxDeadline (s.ctx m) ∧ n < m)) :
    exec (.contextEvaluation l) s = .next (evaluating n l i (evalCtx s n i.snap) s) := by
  have hguard : ¬(!gravRuns s ∨ laneCount s.part ≤ l ∨ tblGet s.grav.lanes none l ≠ none) := by
    simp [hruns, hfree, hl]
  have hread : readCells (usedCells s n i.snap) s = s := if_pos herrs
  have hmark : markedCell s (usedCells s n i.snap) = none := if_pos hmarks
  show execContextEvaluation l s = _
  unfold execContextEvaluation
  rw [if_neg hguard, nextReady_best hready hbest]
  simp only [hi, hpass, hread, hmark]
  rfl

theorem evaluating_runs (r : EvalRes) : ((evaluating n l i r s).ctx n).st = (s.ctx n).st ∧
    ((evaluating n l i r s).ctx n).inst = some { i with phase := .running, res := some r } ∧
    (∀ m, m ≠ n → (evaluating n l i r s).ctx m = s.ctx m) := by
  have hctx (m : Nat) : (evaluating n l i r s).ctx m = if m = n then takesResult i r (s.ctx n) else s.ctx m := ctx_updCtx s n m _
  have hown := (hctx n).trans (if_pos rfl)
  exact ⟨by rw [hown]; rfl, by rw [hown]; rfl, fun m hm => (hctx m).trans (if_neg hm)⟩

/-! CONTEXT_WRITEBACK. -/

/-- Lane `l` is free. -/
def laneFreed (l : Nat) (s : State) : State := { s with grav := { s.grav with lanes := tblSet s.grav.lanes none l none } }

theorem lane_found (hl : l < 4) (hlane : tblGet s.grav.lanes none l = some n) (hfirst : ∀ k, k < l → tblGet s.grav.lanes none k ≠ some n) :
    (below 4 fun l => tblGet s.grav.lanes none l = some n).head? = some l := by
  unfold below
  rw [List.head?_filter, List.find?_range_eq_some]
  exact ⟨decide_eq_true hlane, List.mem_range.2 hl, fun k hk => by simp [hfirst k hk]⟩

theorem contextWriteback_runs {r : EvalRes} (hl : l < 4) (hi : (s.ctx n).inst = some i) (hlane : tblGet s.grav.lanes none l = some n)
    (hfirst : ∀ k, k < l → tblGet s.grav.lanes none k ≠ some n) (hphase : i.phase = .running) (hres : i.res = some r) :
    exec (.contextWriteback n) s = .next (if s.now < i.t0 + ctxDeadline (s.ctx n) + 1 then writeBack n i r (laneFreed l s)
      else (laneFreed l s).updCtx n fun c => { c with inst := some { i with phase := .waiting } }) := by
  have hi' : ((laneFreed l s).ctx n).inst = some i := hi
  show execContextWriteback n s = _
  unfold execContextWriteback
  rw [lane_found hl hlane hfirst]
  show Host.Outcome.next (match ((laneFreed l s).ctx n).inst with
    | none => _
    | some i => _) = _
  rw [hi']
  simp only [hphase, hres]
  rfl

theorem writeback_late {r : EvalRes} (hl : l < 4) (hi : (s.ctx n).inst = some i) (hlane : tblGet s.grav.lanes none l = some n)
    (hfirst : ∀ k, k < l → tblGet s.grav.lanes none k ≠ some n) (hphase : i.phase = .running) (hres : i.res = some r)
    (hlate : i.t0 + ctxDeadline (s.ctx n) < s.now) : ∃ t, exec (.contextWriteback n) s = .next t ∧
      t.ctx n = { s.ctx n with inst := some { i with phase := .waiting } } ∧
      t.grav.lanes = tblSet s.grav.lanes none l none ∧ (∀ m, m ≠ n → t.ctx m = s.ctx m) ∧
      t = { s with grav := { s.grav with ctxs := t.grav.ctxs, lanes := t.grav.lanes } } := by
  have hctx (m : Nat) := ctx_updCtx (laneFreed l s) n m fun c => { c with inst := some { i with phase := .waiting } }
  refine ⟨_, (contextWriteback_runs hl hi hlane hfirst hphase hres).trans (congrArg Host.Outcome.next (if_neg (by omega))), ?_, rfl,
    fun m hm => (hctx m).trans (if_neg hm), rfl⟩
  exact (hctx n).trans (if_pos rfl)

end

/-- A context's written instance leaves that context as it was, with its slot values, where it is the last of its chain to be written. -/
theorem written_self {s : State} {n : Nat} {i : Inst} (slots : List Word) (k : Nat) (hi : (s.ctx n).inst = some i) :
    Spared n (s.updCtx n fun c => { c with inst := some { i with phase := .written, slots := slots } }) (written (k + 1) n slots s) := by
  rw [written_eq hi]
  extract_lets _ snap u
  have hu : (u.ctx n).inst = some { i with phase := .written, slots := slots } :=
    congrArg Ctx.inst ((ctx_updCtx s n n _).trans (if_pos rfl))
  refine forEach_rel (SparedPast.refl n) SparedPast.trans (fun y v => passedTo_spares (written_spares k) v) _ u fun j hj => ?_
  rw [hu] at hj
  rw [← Option.some.inj hj]
  exact InstPhase.noConfusion

/-- What a good evaluation leaves. -/
structure RunStored (n : Nat) (i : Inst) (res : EvalRes) (s t : State) : Prop where
  x : (t.ctx n).x = res.x
  r : (t.ctx n).r = res.r
  u : (t.ctx n).u = res.u
  e : (t.ctx n).e = res.e
  missRun : (t.ctx n).missRun = 0
  evals : (t.ctx n).evals = ((s.ctx n).evals + 1) % 2 ^ 32
  inst : ∃ j, (t.ctx n).inst = some j ∧ j.phase = .written ∧ j.slots = res.slots ∧ j.t0 = i.t0
  lanes : t.grav.lanes = s.grav.lanes
  plate : t.plate = s.plate
  nv : t.nv = s.nv
  cells : t.mem.cells = s.mem.cells

section
variable {s : State} {n : Nat} {i : Inst} {res : EvalRes}

/-- The state once the run is stored and its outputs are out. -/
def runOut (n : Nat) (i : Inst) (res : EvalRes) (s : State) : State :=
  resolverUpdate n (at0 res.slots 0) (at0 res.slots 1) i.t0 (writeDests n res.slots i.t0 false (storeRun n i.t0 res s))

theorem writeBack_eq (hfault : res.fault = 0) (hpass : passes (s.ctx n) i.t0 = false) :
    writeBack n i res s = stopCtx n (written 256 n res.slots (runOut n i res s)) := by
  unfold writeBack
  rw [hpass, if_neg (by decide), if_neg (by omega)]
  extract_lets a b c d
  have hb : b = a := if_neg (by omega)
  have hc : c = writeDests n res.slots i.t0 false a := congrArg (writeDests n res.slots i.t0 false) hb
  have hd : d = resolverUpdate n (at0 res.slots 0) (at0 res.slots 1) i.t0 c := if_pos hfault
  exact congrArg (fun v => stopCtx n (written 256 n res.slots v)) (hd.trans (congrArg _ hc))

theorem runOut_ctx : ∃ g, (runOut n i res s).ctx n = { (storeRun n i.t0 res s).ctx n with tgt := g } := by
  have haim := aimed_writeDests n res.slots i.t0 false (storeRun n i.t0 res s)
  have hoff := offGraver_resolverUpdate n (at0 res.slots 0) (at0 res.slots 1) i.t0 (writeDests n res.slots i.t0 false (storeRun n i.t0 res s))
  obtain ⟨g, hg⟩ := haim.self
  refine ⟨g, Eq.trans ?_ hg⟩
  unfold State.ctx runOut
  rw [hoff.grav]

theorem runOut_frame : (runOut n i res s).grav.lanes = s.grav.lanes ∧ Beside s (runOut n i res s) := by
  have haim := aimed_writeDests n res.slots i.t0 false (storeRun n i.t0 res s)
  have hoff := offGraver_resolverUpdate n (at0 res.slots 0) (at0 res.slots 1) i.t0 (writeDests n res.slots i.t0 false (storeRun n i.t0 res s))
  obtain ⟨X, hX⟩ := haim.grav
  refine ⟨?_, ((Beside.grav s _).trans haim.off).trans (.of_off hoff)⟩
  exact (congrArg (·.lanes) hoff.grav).trans (congrArg (·.lanes) hX)

theorem of_bareInst {o : Option Inst} {j : Inst} (h : o.map bareInst = some (bareInst j)) :
    ∃ k, o = some k ∧ k.phase = j.phase ∧ k.slots = j.slots ∧ k.t0 = j.t0 := by
  obtain ⟨k, hk, hb⟩ := Option.map_eq_some_iff.1 h
  exact ⟨k, hk, congrArg (·.phase) hb, congrArg (·.slots) hb, congrArg (·.t0) hb⟩

theorem writeBack_stores (hi : (s.ctx n).inst = some i) (hfault : res.fault = 0) (hst : (s.ctx n).st = .enabled)
    (hpass : passes (s.ctx n) i.t0 = false) : RunStored n i res s (writeBack n i res s) := by
  have hstore : (storeRun n i.t0 res s).ctx n = _ := (ctx_updCtx s n n _).trans (if_pos rfl)
  obtain ⟨g, hg⟩ := runOut_ctx (s := s) (n := n) (i := i) (res := res)
  obtain ⟨hlanes, hbeside⟩ := runOut_frame (s := s) (n := n) (i := i) (res := res)
  rw [writeBack_eq hfault hpass]
  generalize runOut n i res s = u at *
  rw [hstore] at hg
  have hiu : (u.ctx n).inst = some i := by rw [hg]; exact hi
  have hw := written_self res.slots 255 hiu
  have hown := (ctx_updCtx u n n fun c => { c with inst := some { i with phase := .written, slots := res.slots } }).trans (if_pos rfl)
  rw [hg] at hown
  obtain ⟨⟨g', J, w, hctx⟩, hbare, hl, hp, hn, hm⟩ := hw
  have hlive : ((written 256 n res.slots u).ctx n).st ≠ .stopping := by
    rw [hctx, hown]
    show (s.ctx n).st ≠ _
    rw [hst]
    decide
  rw [stopCtx_of_live hlive]
  rw [hown] at hctx hbare
  generalize written 256 n res.slots u = t at *
  exact
    { x := by rw [hctx]
      r := by rw [hctx]
      u := by rw [hctx]
      e := by rw [hctx]
      missRun := by rw [hctx]
      evals := by rw [hctx]
      inst := of_bareInst hbare
      lanes := hl.trans hlanes
      plate := hp.trans hbeside.plate
      nv := hn.trans hbeside.nv
      cells := hm.trans hbeside.cells }

end

/-- Settles O23: the lane takes the best ready context; a write-back in time stores the run, a late one drops it. -/
theorem evaluationAndWriteBack : Obligations.EvaluationAndWriteBack := by
  unfold Obligations.EvaluationAndWriteBack
  intro s n l i hn hl hi
  refine ⟨fun hruns hlane hfree hmarks herrs hpass hready hbest => ?_, fun r hlane hfirst hphase hres => ⟨fun hnow hfault hst hpass => ?_,
    fun hlate => writeback_late hl hi hlane hfirst hphase hres hlate⟩⟩
  · have hexec := contextEvaluation_takes hi hruns hlane hfree hmarks herrs hpass hready hbest
    obtain ⟨hst, hinst, hothers⟩ := evaluating_runs (s := s) (n := n) (l := l) (i := i) (evalCtx s n i.snap)
    exact ⟨_, hexec, hst, hinst, rfl, hothers, rfl⟩
  · have hexec := (contextWriteback_runs hl hi hlane hfirst hphase hres).trans (congrArg Host.Outcome.next (if_pos (by omega)))
    have h := writeBack_stores (s := laneFreed l s) hi hfault hst hpass
    exact ⟨_, hexec, h.x, h.r, h.u, h.e, h.missRun, h.evals, h.lanes, h.inst, h.plate, h.nv, h.cells⟩

end Sys2Proof.Proofs
end

section
/-!
PROOFS. DEADLINE_ACTION, TRIG_TIMEOUT_EXPIRY and ADMISSION_RECHECK (R301, R306, R312 to R315).
-/
namespace Sys2Proof.Proofs
open Sys2Proof.Machine Sys2Proof.Safety Sys2Proof.Laws

/-! A miss. -/

/-- What the fault of context `n` leaves: of `n` its state, its cause and its targets may change; no other context but its targets. -/
structure Faulted (n : Nat) (s t : State) : Prop where
  own : ∃ st cause g, t.ctx n = { s.ctx n with st := st, cause := cause, tgt := g } ∧ ((s.ctx n).st = .enabled → st ≠ .stopping)
  others : ∀ m, m ≠ n → Spared m s t
  beside : Beside s t

theorem markFaulted_faults (n cause code : Nat) (args : List Word) (s : State) : Faulted n s (markFaulted n cause code args s) := by
  unfold markFaulted
  extract_lets u
  have hu : u.ctx n = _ := (ctx_updCtx s n n _).trans (if_pos rfl)
  have hoff : OffGraver u (resolverFault n (raiseWith u (ctxReaction u n) code n args)) :=
    (OffGraver.ev (ev_raiseWith (.refl u))).trans (offGraver_resolverFault n _)
  have hgrav := hoff.grav
  have hspared (m : Nat) : Spared m u _ := .off hoff
  have hbeside : Beside s _ := (Beside.grav s _).trans (.of_off hoff)
  generalize resolverFault n (raiseWith u (ctxReaction u n) code n args) = t at *
  have ht : t.ctx n = u.ctx n := by
    unfold State.ctx
    rw [hgrav]
  refine ⟨⟨_, _, (s.ctx n).tgt, ht.trans hu, fun h => ?_⟩, fun m hm => (Spared.other hm.symm s _).trans (hspared m), hbeside⟩
  simp [h]

theorem Faulted.aimed {n : Nat} {s t u : State} (h : Faulted n s t) (k : Aimed n t u) : Faulted n s u := by
  obtain ⟨⟨st, cause, g, hown, hst⟩, hothers, hbeside⟩ := h
  obtain ⟨g', hg'⟩ := k.self
  exact ⟨⟨st, cause, g', by rw [hg', hown], hst⟩, fun m hm => (hothers m hm).trans (.aimed k), hbeside.trans k.off⟩

theorem faultCtx_faults (n cause t0 : Nat) (s : State) : Faulted n s (faultCtx n cause t0 s) :=
  (markFaulted_faults n cause 0x0702 [wrd cause] s).aimed (aimed_writeDests n _ t0 true _)

/-- What a miss of context `n` leaves (R308). -/
structure MissTaken (n : Nat) (s t : State) : Prop where
  missRun : (t.ctx n).missRun = min 3 ((s.ctx n).missRun + 1)
  misses : (t.ctx n).misses = min 0xFFFFFFFF ((s.ctx n).misses + 1)
  inst : (t.ctx n).inst = (s.ctx n).inst
  toStart : (t.ctx n).toStart = (s.ctx n).toStart
  live : (s.ctx n).st = .enabled → (t.ctx n).st ≠ .stopping
  others : ∀ m, m ≠ n → Spared m s t
  beside : Beside s t
  raised : Raised s t 0x0701 n [wrd (min 3 ((s.ctx n).missRun + 1))]

/-- The miss counted, and its event. -/
def missCounted (n : Nat) (s : State) : State :=
  record (parCount (s.updCtx n fun c => { c with missRun := min 3 ((s.ctx n).missRun + 1), misses := min 0xFFFFFFFF (c.misses + 1) }) 7 2 1)
    0x0701 n [wrd (min 3 ((s.ctx n).missRun + 1))]

theorem missCounted_takes (n : Nat) (s : State) : MissTaken n s (missCounted n s) ∧ ((missCounted n s).ctx n).st = (s.ctx n).st := by
  unfold missCounted
  have hu := (ctx_updCtx s n n fun c => { c with missRun := min 3 ((s.ctx n).missRun + 1), misses := min 0xFFFFFFFF (c.misses + 1) }).trans (if_pos rfl)
  have hother (m : Nat) (hm : m ≠ n) := Spared.other hm.symm s fun c =>
    { c with missRun := min 3 ((s.ctx n).missRun + 1), misses := min 0xFFFFFFFF (c.misses + 1) }
  have hbeside : Beside s (s.updCtx n fun c =>
    { c with missRun := min 3 ((s.ctx n).missRun + 1), misses := min 0xFFFFFFFF (c.misses + 1) }) := .grav s _
  generalize s.updCtx n _ = u at *
  have hoff : OffGraver u (record (parCount u 7 2 1) 0x0701 n [wrd (min 3 ((s.ctx n).missRun + 1))]) :=
    (OffGraver.parts u _ u.conv u.pos u.hatch u.marg).trans (.ev (ev_record (.refl _)))
  have hraised := record_raises (parCount u 7 2 1) 0x0701 n [wrd (min 3 ((s.ctx n).missRun + 1))]
  generalize record (parCount u 7 2 1) 0x0701 n [wrd (min 3 ((s.ctx n).missRun + 1))] = t at *
  have ht : t.ctx n = u.ctx n := by
    unfold State.ctx
    rw [hoff.grav]
  rw [hu] at ht
  exact ⟨{ missRun := by rw [ht]
           misses := by rw [ht]
           inst := by rw [ht]
           toStart := by rw [ht]
           live := fun h => by rw [ht]; simp [h]
           others := fun m hm => (hother m hm).trans (.off hoff)
           beside := hbeside.trans (.of_off hoff)
           raised := raised_of hraised hbeside.now hbeside.valid }, by rw [ht]⟩

theorem missCtx_takes (n t0 : Nat) (s : State) : MissTaken n s (missCtx n t0 s) := by
  have heq : missCtx n t0 s = if 3 ≤ min 3 ((s.ctx n).missRun + 1) ∧ ((missCounted n s).ctx n).st = .enabled then
      publish n (fbSlots ((missCounted n s).ctx n)) (faultCtx n 1 t0 (missCounted n s)) else missCounted n s := rfl
  obtain ⟨hmiss, _⟩ := missCounted_takes n s
  rw [heq]
  generalize missCounted n s = u at *
  split
  next hthree =>
    obtain ⟨⟨st, cause, g, hown, hlive⟩, hothers, hbeside⟩ := faultCtx_faults n 1 t0 u
    generalize faultCtx n 1 t0 u = v at *
    have hpub : (publish n (fbSlots (u.ctx n)) v).ctx n = _ := (ctx_updCtx v n n _).trans (if_pos rfl)
    rw [hown] at hpub
    exact
      { missRun := by rw [hpub]; exact hmiss.missRun
        misses := by rw [hpub]; exact hmiss.misses
        inst := by rw [hpub]; exact hmiss.inst
        toStart := by rw [hpub]; exact hmiss.toStart
        live := fun _ => by rw [hpub]; exact hlive hthree.2
        others := fun m hm => ((hmiss.others m hm).trans (hothers m hm)).trans (.other hm.symm v _)
        beside := (hmiss.beside.trans hbeside).trans (.grav v _)
        raised := hbeside.grow _ hmiss.raised (show (0x0701 : Nat) ≠ 0x0902 by decide) }
  next => exact hmiss

/-! DEADLINE_ACTION. -/

section
variable {s : State} {n : Nat} {i : Inst}

theorem deadlineAction_due (hi : (s.ctx n).inst = some i) (hlate : i.t0 + ctxDeadline (s.ctx n) < s.now) :
    exec (.deadlineAction n) s = .next (deadlineAct n s) := by
  show Host.Outcome.next (dueAct n s.now s) = _
  unfold dueAct
  rw [hi]
  exact congrArg Host.Outcome.next (if_pos (by omega))

theorem endInst_ends (n : Nat) (s : State) : (endInst n s).ctx n = { s.ctx n with inst := (s.ctx n).nextTrig.map freshInst, nextTrig := none } :=
  (ctx_updCtx s n n _).trans (if_pos rfl)

theorem deadline_publishes (hi : (s.ctx n).inst = some i) (hst : (s.ctx n).st = .enabled) (hpass : passes (s.ctx n) i.t0 = false)
    (hlate : i.t0 + ctxDeadline (s.ctx n) < s.now) (hphase : i.phase = .written) :
    ∃ t, exec (.deadlineAction n) s = .next t ∧ (t.ctx n).published = true ∧ (t.ctx n).out = i.slots ∧
      (t.ctx n).inst = (s.ctx n).nextTrig.map freshInst ∧ (t.ctx n).misses = (s.ctx n).misses ∧
      t.plate = s.plate ∧ t.nv = s.nv ∧ t.mem.cells = s.mem.cells := by
  have hown : (publish n i.slots (endInst n s)).ctx n = _ := (ctx_updCtx (endInst n s) n n _).trans (if_pos rfl)
  rw [endInst_ends] at hown
  have hlive : ctxLive ((publish n i.slots (endInst n s)).ctx n) = true := by
    rw [hown]
    simp [ctxLive, hst]
  have hact : deadlineAct n s = stopCtx n (landOutside n i.slots i.t0 (publish n i.slots (endInst n s))) := by
    unfold deadlineAct
    rw [hi]
    simp only [hphase, hpass]
    exact congrArg (stopCtx n) (if_pos hlive)
  have hbeside : Beside s (publish n i.slots (endInst n s)) := .grav s _
  generalize publish n i.slots (endInst n s) = u at *
  have hland := aimed_landOutside n i.slots i.t0 u
  obtain ⟨g, hg⟩ := hland.self
  generalize landOutside n i.slots i.t0 u = v at *
  rw [hown] at hg
  have hstop : (v.ctx n).st ≠ .stopping := by
    rw [hg]
    simp [hst]
  rw [stopCtx_of_live hstop] at hact
  have hb := hbeside.trans hland.off
  exact ⟨v, (deadlineAction_due hi hlate).trans (congrArg _ hact), by rw [hg], by rw [hg], by rw [hg], by rw [hg], hb.plate, hb.nv, hb.cells⟩

theorem deadline_misses (hi : (s.ctx n).inst = some i) (hst : (s.ctx n).st = .enabled) (hpass : passes (s.ctx n) i.t0 = false)
    (hlate : i.t0 + ctxDeadline (s.ctx n) < s.now) (hphase : i.phase = .waiting ∨ i.phase = .ready) :
    ∃ t, exec (.deadlineAction n) s = .next t ∧ (t.ctx n).inst = (s.ctx n).nextTrig.map freshInst ∧
      (t.ctx n).missRun = min 3 ((s.ctx n).missRun + 1) ∧ (t.ctx n).misses = min 0xFFFFFFFF ((s.ctx n).misses + 1) ∧
      Raised s t 0x0701 n [wrd (min 3 ((s.ctx n).missRun + 1))] ∧ t.nv = s.nv ∧ t.mem.cells = s.mem.cells := by
  have hact : deadlineAct n s = stopCtx n (missCtx n i.t0 (endInst n s)) := by
    unfold deadlineAct
    rw [hi]
    rcases hphase with h | h
    · simp only [h, hpass]
      rfl
    · simp only [h, hpass]
      rfl
  have hown := endInst_ends n s
  have hbeside : Beside s (endInst n s) := .grav s _
  generalize endInst n s = u at *
  have hmiss := missCtx_takes n i.t0 u
  have hust : (u.ctx n).st = .enabled := by rw [hown]; exact hst
  rw [stopCtx_of_live (hmiss.live hust)] at hact
  have hrun : (u.ctx n).missRun = (s.ctx n).missRun := by rw [hown]
  have hmisses : (u.ctx n).misses = (s.ctx n).misses := by rw [hown]
  have hb := hbeside.trans hmiss.beside
  refine ⟨_, (deadlineAction_due hi hlate).trans (congrArg _ hact), ?_, ?_, ?_, ?_, hb.nv, hb.cells⟩
  · rw [hmiss.inst, hown]
  · rw [hmiss.missRun, hrun]
  · rw [hmiss.misses, hmisses]
  · rw [← hrun]
    exact raised_of hmiss.raised hbeside.now hbeside.valid

end

/-! TRIG_TIMEOUT_EXPIRY. -/

theorem missCtx_spares (n x t0 : Nat) (hx : x ≠ n) (s : State) : Spared n s (missCtx x t0 s) := (missCtx_takes x t0 s).others n hx.symm

/-- What the misses of a list leave: those listed have missed once, the others are spared. -/
structure ListMissed (l : List Nat) (s t : State) : Prop where
  missed : ∀ x ∈ l, (t.ctx x).missRun = min 3 ((s.ctx x).missRun + 1) ∧ (t.ctx x).misses = min 0xFFFFFFFF ((s.ctx x).misses + 1)
  others : ∀ x, x ∉ l → (t.ctx x).missRun = (s.ctx x).missRun ∧ (t.ctx x).misses = (s.ctx x).misses
  toStart : ∀ x, (t.ctx x).toStart = (s.ctx x).toStart
  beside : Beside s t

theorem listMissed {l : List Nat} (hl : l.Nodup) (s : State) : ListMissed l s (forEach l (fun x s => missCtx x s.now s) s) := by
  induction l generalizing s with
  | nil => exact ⟨fun x hx => absurd hx (by simp), fun _ _ => ⟨rfl, rfl⟩, fun _ => rfl, .grav s _⟩
  | cons a l ih =>
    obtain ⟨ha, hl⟩ := List.nodup_cons.1 hl
    have hmiss := missCtx_takes a s.now s
    have hrest := ih hl (missCtx a s.now s)
    have hloop : forEach (a :: l) (fun x s => missCtx x s.now s) s = forEach l (fun x s => missCtx x s.now s) (missCtx a s.now s) := rfl
    rw [hloop]
    generalize missCtx a s.now s = u at *
    generalize forEach l (fun x s => missCtx x s.now s) u = t at *
    have hspare (x : Nat) (hx : x ≠ a) : (u.ctx x).missRun = (s.ctx x).missRun ∧ (u.ctx x).misses = (s.ctx x).misses ∧
        (u.ctx x).toStart = (s.ctx x).toStart := by
      obtain ⟨g, J, w, hc⟩ := (hmiss.others x hx).ctx
      rw [hc]
      exact ⟨rfl, rfl, rfl⟩
    refine ⟨fun x hx => ?_, fun x hx => ?_, fun x => (hrest.toStart x).trans ?_, hmiss.beside.trans hrest.beside⟩
    · by_cases hxa : x = a
      · subst hxa
        obtain ⟨h1, h2⟩ := hrest.others x ha
        exact ⟨h1.trans hmiss.missRun, h2.trans hmiss.misses⟩
      · obtain ⟨h1, h2⟩ := hrest.missed x (by simpa [hxa] using hx)
        obtain ⟨k1, k2, _⟩ := hspare x hxa
        exact ⟨by rw [h1, k1], by rw [h2, k2]⟩
    · have hxa : x ≠ a := fun h => hx (by simp [h])
      obtain ⟨h1, h2⟩ := hrest.others x fun h => hx (by simp [h])
      obtain ⟨k1, k2, _⟩ := hspare x hxa
      exact ⟨h1.trans k1, h2.trans k2⟩
    · by_cases hxa : x = a
      · rw [hxa]
        exact hmiss.toStart
      · exact (hspare x hxa).2.2

/-- The contexts of the tree of `n` that had joined it at its last root trigger. -/
def joinedTree (n : Nat) (last : Option Nat) (s : State) : List Nat :=
  below 256 fun x => decide ((s.ctx x).st = .enabled) && decide ((s.ctx x).root = n) && (match last with
    | some l => decide ((s.ctx x).enTick < l)
    | none => false)

/-- The next interval of the root `n` starts. -/
def intervalStarted (n t0 : Nat) (s : State) : State := s.updCtx n fun c => { c with toStart := some (t0 + ctxTimeout c) }

section
variable {s : State} {n t0 : Nat}

theorem trigTimeout_runs (ht0 : (s.ctx n).toStart = some t0) (hruns : gravRuns s = true) (hlive : ctxLive (s.ctx n) = true)
    (hset : ctxTimeout (s.ctx n) ≠ 0) (hdue : t0 + ctxTimeout (s.ctx n) ≤ s.now) : exec (.trigTimeoutExpiry n) s =
      .next (forEach (joinedTree n (s.ctx n).lastRoot (intervalStarted n t0 s)) (fun x s => missCtx x s.now s) (intervalStarted n t0 s)) := by
  have hguard : ¬(!gravRuns s ∨ !ctxLive (s.ctx n) ∨ ctxTimeout (s.ctx n) = 0 ∨ s.now < t0 + ctxTimeout (s.ctx n)) := by
    simp [hruns, hlive, hset, hdue]
  show execTrigTimeoutExpiry n s = _
  unfold execTrigTimeoutExpiry
  rw [ht0]
  exact congrArg Host.Outcome.next (if_neg hguard)

theorem intervalStarted_ctx (x : Nat) : (intervalStarted n t0 s).ctx x =
    if x = n then { s.ctx n with toStart := some (t0 + ctxTimeout (s.ctx n)) } else s.ctx x := ctx_updCtx s n x _

theorem timeout_misses (ht0 : (s.ctx n).toStart = some t0) (hruns : gravRuns s = true)
    (hlive : ctxLive (s.ctx n) = true) (hset : ctxTimeout (s.ctx n) ≠ 0) (hdue : t0 + ctxTimeout (s.ctx n) ≤ s.now) :
    ∃ t, exec (.trigTimeoutExpiry n) s = .next t ∧ (t.ctx n).toStart = some (t0 + ctxTimeout (s.ctx n)) ∧
      (∀ x l, x < 256 → (s.ctx x).st = .enabled → (s.ctx x).root = n → (s.ctx n).lastRoot = some l → (s.ctx x).enTick < l →
        (t.ctx x).missRun = min 3 ((s.ctx x).missRun + 1) ∧ (t.ctx x).misses = min 0xFFFFFFFF ((s.ctx x).misses + 1)) ∧
      t.nv = s.nv ∧ t.mem.cells = s.mem.cells := by
  have hmissed := listMissed (List.nodup_range.filter _ : (joinedTree n (s.ctx n).lastRoot (intervalStarted n t0 s)).Nodup) (intervalStarted n t0 s)
  have hsame (x : Nat) : ((intervalStarted n t0 s).ctx x).st = (s.ctx x).st ∧ ((intervalStarted n t0 s).ctx x).root = (s.ctx x).root ∧
      ((intervalStarted n t0 s).ctx x).enTick = (s.ctx x).enTick ∧ ((intervalStarted n t0 s).ctx x).missRun = (s.ctx x).missRun ∧
      ((intervalStarted n t0 s).ctx x).misses = (s.ctx x).misses := by
    rw [intervalStarted_ctx]
    split
    next h => rw [h]; exact ⟨rfl, rfl, rfl, rfl, rfl⟩
    next => exact ⟨rfl, rfl, rfl, rfl, rfl⟩
  refine ⟨_, trigTimeout_runs ht0 hruns hlive hset hdue, (hmissed.toStart n).trans ?_, fun x l hx hst hroot hlast htick => ?_,
    hmissed.beside.nv, hmissed.beside.cells⟩
  · rw [intervalStarted_ctx, if_pos rfl]
  · obtain ⟨h1, h2, h3, h4, h5⟩ := hsame x
    rw [← h4, ← h5]
    refine hmissed.missed x (List.mem_filter.2 ⟨List.mem_range.2 hx, ?_⟩)
    simp [h1, h2, h3, hst, hroot, hlast, htick]

end

/-! ADMISSION_RECHECK. -/

section
variable (s : State) (b : Nat)

/-- The present band is taken. -/
def bandTaken (s : State) (b : Nat) : State := { s with grav := { s.grav with band := b } }

theorem chainOf_band (k n : Nat) : chainOf k (bandTaken s b) n = chainOf k s n := by
  induction k generalizing n with
  | zero => rfl
  | succ k ih =>
    unfold chainOf
    rw [ih]
    rfl

theorem admLive_band : admLive (bandTaken s b) = admLive s := by
  refine List.map_congr_left fun n _ => ?_
  unfold admCtx
  rw [show ctxChain (bandTaken s b) n = ctxChain s n from congrArg (fun l => Option.getD l [n]) (chainOf_band s b 256 n)]
  rfl

theorem admWhole_band : admWhole (bandTaken s b) = admWhole s := by
  unfold admWhole
  rw [admLive_band]
  rfl

/-- What a check of the whole schedule leaves. -/
structure Rechecked (s t : State) : Prop where
  band : t.grav.band = s.therm.band
  lost : t.grav.admLost = true ↔ ∃ x, admWhole s = .inl x
  raised : ∀ x, admWhole s = .inl x → Raised s t 0x0206 x [wrd s.therm.band]
  op : t.op = s.op
  drives : t.drives = s.drives
  nv : t.nv = s.nv
  cells : t.mem.cells = s.mem.cells

theorem admRecheck_checks : Rechecked s (admRecheck s) := by
  have heq : admRecheck s = (match admWhole (bandTaken s s.therm.band) with
    | .inr ws => { admStore (admLive (bandTaken s s.therm.band)) ws (bandTaken s s.therm.band) with
        grav := { (admStore (admLive (bandTaken s s.therm.band)) ws (bandTaken s s.therm.band)).grav with admLost := false } }
    | .inl n => { laneStore (admLive (bandTaken s s.therm.band)) (record (bandTaken s s.therm.band) 0x0206 n [wrd s.therm.band]) with
        grav := { (laneStore (admLive (bandTaken s s.therm.band)) (record (bandTaken s s.therm.band) 0x0206 n [wrd s.therm.band])).grav with
          admLost := true } }) := rfl
  rw [heq, admWhole_band]
  cases h : admWhole s with
  | inr ws =>
    obtain ⟨⟨X, U, hstore⟩, _⟩ := admStore_reworsts (admLive (bandTaken s s.therm.band)) ws (bandTaken s s.therm.band)
    dsimp only
    rw [hstore]
    exact ⟨rfl, by simp [h], fun x hx => (by rw [h] at hx; cases hx), rfl, rfl, rfl, rfl⟩
  | inl n =>
    have hquiet := record_quiet (s := bandTaken s s.therm.band) (code := 0x0206) (idx := n) (args := [wrd s.therm.band])
      (by decide) rfl (by decide)
    have hraised := record_raises (bandTaken s s.therm.band) 0x0206 n [wrd s.therm.band]
    dsimp only
    generalize record (bandTaken s s.therm.band) 0x0206 n [wrd s.therm.band] = t at *
    subst hquiet
    refine ⟨rfl, by simp [h], fun x hx => ?_, rfl, rfl, rfl, rfl⟩
    rw [h] at hx
    cases hx
    exact hraised

end

/-- Settles O24: an instance at its deadline is published or missed; a silent root misses; the schedule is checked in the new band. -/
theorem deadlinesAndMisses : Obligations.DeadlinesAndMisses := by
  unfold Obligations.DeadlinesAndMisses
  intro s n _
  refine ⟨fun i hi hst hpass hlate => ⟨fun hphase => deadline_publishes hi hst hpass hlate hphase,
      fun hphase => deadline_misses hi hst hpass hlate hphase⟩,
    fun t0 ht0 hruns hlive hset hdue => timeout_misses ht0 hruns hlive hset hdue, fun hboot hshut hawake => ?_⟩
  have h := admRecheck_checks s
  have hexec : exec .admissionRecheck s = .next (admRecheck s) :=
    congrArg Host.Outcome.next (if_neg (by simp [hboot, hshut, hawake]))
  exact ⟨_, hexec, h.band, h.lost, h.raised, h.op, h.drives, h.nv, h.cells⟩

end Sys2Proof.Proofs
end

section
/-!
PROOFS. The supervision of XIN and of the PLLs (R39 to R41).
-/
namespace Sys2Proof.Proofs
open Sys2Proof.Machine Sys2Proof.Safety Sys2Proof.Laws

/-- From `u` to `t` an event is raised, and nothing changes but what it and its reaction change. -/
structure Alarmed (code idx : Nat) (args : List Word) (u t : State) : Prop where
  raised : Raised t t code idx args
  tim : t.tim = u.tim
  par : ∀ i, i < 65536 → parGet t 2 i = parGet u 2 i
  reacted : Reacted u t

theorem raise_alarms (u : State) {code : Nat} (idx : Nat) (args : List Word) (hc : code ≠ 0x0902) :
    Alarmed code idx args u (raise u code idx args) := by
  have hev := ev_raise (code := code) (idx := idx) (args := args) (.refl u)
  refine ⟨?_, hev.tim, fun i hi => parGet_of_evStep hev hi (by decide) (by decide), reacted_of_evStep hev⟩
  exact raised_of (raise_raises u hc idx args) hev.now.symm (congrArg (·.timeValid) hev.tim.symm)

/-! XIN. -/

section
variable {s : State} {c : Nat}

/-- The count of a window is kept. -/
def windowRead (c : Nat) (s : State) : State := parSet s 2 6 (wrd c)

theorem window_good (hc : c < 1024) (hgood : xinGood c = true) : ∃ t, exec (.xinWindowEnd c) s = .next t ∧ t.tim.freqFault = false ∧
    t.tim.xinOk = !s.tim.stopFault ∧ t.tim.xinArmed = (s.tim.xinArmed || !s.tim.stopFault) ∧ parGet t 2 6 = wrd c ∧
    OthersKept s t 2 6 ∧ t = { s with tim := t.tim, par := t.par } := by
  have hexec : exec (.xinWindowEnd c) s = .next (updTim (updTim (windowRead c s) fun t => { t with xinOk := xinGood c && !t.stopFault })
      fun t => { t with freqFault := false, xinArmed := t.xinArmed || t.xinOk }) := by
    show execXinWindowEnd c s = _
    unfold execXinWindowEnd
    rw [Nat.mod_eq_of_lt hc]
    exact congrArg Host.Outcome.next (if_pos hgood)
  refine ⟨_, hexec, rfl, ?_, ?_, parGet_parSet_self .., others_parSet (by decide), rfl⟩
  · show (xinGood c && !s.tim.stopFault) = _
    rw [hgood, Bool.true_and]
  · show (s.tim.xinArmed || (xinGood c && !s.tim.stopFault)) = _
    rw [hgood, Bool.true_and]

/-- What a lapse of XIN does outside sleep (R40). -/
theorem xinFault_alarms {u : State} (cause : Nat) (h : isAsleep u = false) :
    Alarmed 0x0201 0 [wrd cause, parGet u 2 6] (enterHoldover u) (xinFault cause u) := by
  unfold xinFault
  rw [if_neg (by simp [h])]
  exact raise_alarms _ _ _ (by decide)

theorem enterHoldover_holds (u : State) : (enterHoldover u).tim.timeValid = false ∧
    (u.tim.td1 = true → u.tim.holdover = .none → (enterHoldover u).tim.holdover = .active) := by
  refine ⟨rfl, fun htd hho => ?_⟩
  unfold enterHoldover updTim
  simp [htd, hho]

/-- A lapse that XIN's supervisor takes: its first fault is raised. -/
theorem lapse_raises {u : State} (cause : Nat) (was : Bool) (hawake : isAsleep u = false) {t : State}
    (ht : t = if was then u else xinFault cause u) :
    (was = false → t.tim.timeValid = false ∧ Raised t t 0x0201 0 [wrd cause, parGet u 2 6] ∧
      (u.tim.td1 = true → u.tim.holdover = .none → t.tim.holdover = .active)) ∧
    t.tim.freqFault = u.tim.freqFault ∧ t.tim.stopFault = u.tim.stopFault ∧ t.tim.xinOk = u.tim.xinOk ∧
    (∀ i, i < 65536 → parGet t 2 i = parGet u 2 i) ∧ Reacted { u with tim := t.tim } t := by
  cases was with
  | true =>
    subst ht
    exact ⟨fun h => (by cases h), rfl, rfl, rfl, fun _ _ => rfl, reacted_of_evStep (.refl _)⟩
  | false =>
    have ha := xinFault_alarms cause hawake
    obtain ⟨hvalid, hho⟩ := enterHoldover_holds u
    rw [← show t = xinFault cause u from ht] at ha
    obtain ⟨hraised, htim, hpar, hreact⟩ := ha
    rw [htim]
    exact ⟨fun _ => ⟨hvalid, hraised, hho⟩, rfl, rfl, rfl, hpar, hreact⟩

/-- A bad window of an armed supervisor, before a fault of it is raised. -/
def windowBad (c : Nat) (s : State) : State :=
  parOr (updTim (updTim (windowRead c s) fun t => { t with xinOk := xinGood c && !t.stopFault }) fun t => { t with freqFault := true }) 2 5 0x4

theorem parOr_updTim (s : State) (f : Timing → Timing) (u i : Nat) (m : Word) : parOr (updTim s f) u i m = updTim (parOr s u i m) f := rfl

theorem windowBad_frame : ∃ T, windowBad c s = { s with tim := T, par := (parOr (parSet s 2 6 (wrd c)) 2 5 4).par } := by
  unfold windowBad
  rw [parOr_updTim, parOr_updTim]
  exact ⟨_, rfl⟩

theorem window_bad (hawake : isAsleep s = false) (hc : c < 1024) (hbad : xinGood c = false) (harmed : s.tim.xinArmed = true) :
    ∃ t, exec (.xinWindowEnd c) s = .next t ∧ t.tim.freqFault = true ∧ t.tim.xinOk = false ∧ wbit (parGet t 2 5) 2 = true ∧
      parGet t 2 6 = wrd c ∧
      (s.tim.freqFault = false → t.tim.timeValid = false ∧ Raised t t 0x0201 0 [0, wrd c] ∧
        (s.tim.td1 = true → s.tim.holdover = .none → t.tim.holdover = .active)) ∧
      Reacted { s with tim := t.tim, par := (parOr (parSet s 2 6 (wrd c)) 2 5 4).par } t := by
  have hexec : exec (.xinWindowEnd c) s = .next (if s.tim.freqFault then windowBad c s else xinFault 0 (windowBad c s)) := by
    show execXinWindowEnd c s = _
    unfold execXinWindowEnd
    rw [Nat.mod_eq_of_lt hc]
    refine congrArg Host.Outcome.next ((if_neg (by simp [hbad])).trans (if_neg ?_))
    show ¬(!s.tim.xinArmed) = true
    simp [harmed]
  have hseen : wbit (parGet (windowBad c s) 2 5) 2 = true := wbit_parOr _ 2 5 (by decide)
  have hcount : parGet (windowBad c s) 2 6 = wrd c := by
    rw [windowBad, parOr, parGet_parSet _ (by decide) (by decide), if_neg (by decide)]
    exact parGet_parSet_self ..
  have hok : (windowBad c s).tim.xinOk = false := by
    show (xinGood c && !s.tim.stopFault) = false
    rw [hbad, Bool.false_and]
  obtain ⟨hfault, hfreq, _, hxin, hpar, hreact⟩ := lapse_raises (u := windowBad c s) 0 s.tim.freqFault hawake rfl
  rw [hcount] at hfault
  obtain ⟨T, hT⟩ := windowBad_frame (s := s) (c := c)
  generalize (if s.tim.freqFault = true then windowBad c s else xinFault 0 (windowBad c s)) = t at *
  rw [hT] at hreact
  refine ⟨t, hexec, hfreq, hxin.trans hok, ?_, ?_, hfault, hreact⟩
  · rw [hpar 5 (by decide)]
    exact hseen
  · rw [hpar 6 (by decide)]
    exact hcount

theorem edge_missing (hawake : isAsleep s = false) (harmed : s.tim.xinArmed = true) :
    ∃ t, exec .xinEdgeTimeout s = .next t ∧ t.tim.stopFault = true ∧ t.tim.xinOk = false ∧ wbit (parGet t 2 5) 1 = true ∧
      (s.tim.stopFault = false → t.tim.timeValid = false ∧ Raised t t 0x0201 0 [1, parGet s 2 6] ∧
        (s.tim.td1 = true → s.tim.holdover = .none → t.tim.holdover = .active)) ∧
      Reacted { s with tim := t.tim, par := (parOr s 2 5 2).par } t := by
  have hexec : exec .xinEdgeTimeout s = .next (if s.tim.stopFault then
      parOr (updTim s fun t => { t with xinOk := false, stopFault := true }) 2 5 0x2
      else xinFault 1 (parOr (updTim s fun t => { t with xinOk := false, stopFault := true }) 2 5 0x2)) := by
    refine congrArg Host.Outcome.next (if_neg ?_)
    show ¬(!s.tim.xinArmed) = true
    simp [harmed]
  have hseen := wbit_parOr (updTim s fun t => { t with xinOk := false, stopFault := true }) 2 5 (m := 0x2) (n := 1) (by decide)
  have hcount : parGet (parOr (updTim s fun t => { t with xinOk := false, stopFault := true }) 2 5 0x2) 2 6 = parGet s 2 6 :=
    (parGet_parSet _ (by decide) (by decide) _).trans (if_neg (by decide))
  obtain ⟨hfault, _, hstop, hxin, hpar, hreact⟩ :=
    lapse_raises (u := parOr (updTim s fun t => { t with xinOk := false, stopFault := true }) 2 5 0x2) 1 s.tim.stopFault hawake rfl
  rw [hcount] at hfault
  generalize (if s.tim.stopFault = true then _ else _) = t at *
  refine ⟨t, hexec, hstop, hxin, ?_, hfault, hreact⟩
  rw [hpar 5 (by decide)]
  exact hseen

end

/-! The PLLs. -/

/-- What the loss of a PLL leaves, before its event (R41). -/
def lockLost (d : Nat) (s : State) : State :=
  if d = 1 then updTim (enterHoldover s) fun t => { t with td1 := false }
  else if d = 2 then updTim s fun t => { t with td2 := false }
  else
    (let s := updTim s fun t => { t with td5 := false }
     if s.mem.lpOnline then { s with mem := { s.mem with lpHeld := true, lpHeldAt := s.now } } else s)

theorem lockLost_loses {d : Nat} (hd : d ∈ [1, 2, 5]) (s : State) : pllLockedNow (lockLost d s) d = false ∧
    (d = 1 → (lockLost d s).tim.timeValid = false) ∧ (d ≠ 1 → (lockLost d s).tim.timeValid = s.tim.timeValid) ∧
    lockLost d s = { s with tim := (lockLost d s).tim, mem := { s.mem with
      lpHeld := (lockLost d s).mem.lpHeld, lpHeldAt := (lockLost d s).mem.lpHeldAt } } := by
  have hcases : d = 1 ∨ d = 2 ∨ d = 5 := by simpa using hd
  rcases hcases with rfl | rfl | rfl
  · exact ⟨rfl, fun _ => rfl, fun h => absurd rfl h, rfl⟩
  · exact ⟨rfl, fun h => absurd h (by decide), fun _ => rfl, rfl⟩
  · by_cases h : s.mem.lpOnline = true
    · have heq : lockLost 5 s = { updTim s fun t => { t with td5 := false } with mem := { s.mem with lpHeld := true, lpHeldAt := s.now } } :=
        if_pos h
      rw [heq]
      exact ⟨rfl, fun h => absurd h (by decide), fun _ => rfl, rfl⟩
    · have heq : lockLost 5 s = updTim s fun t => { t with td5 := false } := if_neg h
      rw [heq]
      exact ⟨rfl, fun h => absurd h (by decide), fun _ => rfl, rfl⟩

theorem pllUnlock_alarms {d : Nat} (hd : d ∈ [1, 2, 5]) (s : State) : pllLockedNow (pllUnlock d s) d = false ∧
    wbit (parGet (pllUnlock d s) 2 5) 3 = true ∧ Raised (pllUnlock d s) (pllUnlock d s) 0x0202 d [] ∧
    (d = 1 → (pllUnlock d s).tim.timeValid = false) ∧ (d ≠ 1 → (pllUnlock d s).tim.timeValid = s.tim.timeValid) ∧
    Reacted { s with tim := (pllUnlock d s).tim, par := (parOr s 2 5 8).par, mem := { s.mem with
      lpHeld := (pllUnlock d s).mem.lpHeld, lpHeldAt := (pllUnlock d s).mem.lpHeldAt } } (pllUnlock d s) := by
  have heq : pllUnlock d s = raise (lockLost d (parOr s 2 5 0x8)) 0x0202 d [] := rfl
  obtain ⟨hlost, hone, hother, hframe⟩ := lockLost_loses hd (parOr s 2 5 0x8)
  have hseen := wbit_parOr s 2 5 (m := 0x8) (n := 3) (by decide)
  have ha := raise_alarms (lockLost d (parOr s 2 5 0x8)) d [] (code := 0x0202) (by decide)
  have hmem : (pllUnlock d s).mem.lpHeld = (lockLost d (parOr s 2 5 0x8)).mem.lpHeld ∧
      (pllUnlock d s).mem.lpHeldAt = (lockLost d (parOr s 2 5 0x8)).mem.lpHeldAt := by
    have hr := ha.reacted.2
    rw [heq, hr]
    exact ⟨rfl, rfl⟩
  rw [← heq] at ha
  generalize pllUnlock d s = t at *
  obtain ⟨hraised, htim, hpar, hreact⟩ := ha
  have hlocked : pllLockedNow t d = pllLockedNow (lockLost d (parOr s 2 5 0x8)) d := by
    unfold pllLockedNow
    rw [htim]
  refine ⟨hlocked.trans hlost, ?_, hraised, fun h => by rw [htim, hone h], fun h => by rw [htim, hother h]; rfl, ?_⟩
  · rw [hpar 5 (by decide), hframe]
    exact hseen
  · rw [htim, hmem.1, hmem.2]
    rw [hframe] at hreact
    exact hreact

/-- Settles O33: each clause follows XIN's or a PLL's state before its event; the event and its reaction change no more. -/
theorem clockSupervision : Obligations.ClockSupervision := by
  unfold Obligations.ClockSupervision
  intro s hawake
  refine ⟨fun c hc hgood => window_good hc hgood, fun c hc hbad harmed => window_bad hawake hc hbad harmed,
    fun harmed => edge_missing hawake harmed, fun harmed => ?_, ⟨_, rfl, rfl, rfl, rfl⟩, fun d hd hlocked => ?_⟩
  · have hexec : exec .xinEdgeTimeout s = .next (updTim s fun t => { t with xinOk := false, stopFault := true }) := by
      refine congrArg Host.Outcome.next (if_pos ?_)
      show (!s.tim.xinArmed) = true
      simp [harmed]
    exact ⟨_, hexec, rfl, rfl⟩
  · obtain ⟨hlost, hseen, hraised, hone, hother, hreact⟩ := pllUnlock_alarms hd s
    exact ⟨_, congrArg Host.Outcome.next (if_pos hlocked), hlost, hseen, hraised, hone, hother, hreact⟩

end Sys2Proof.Proofs
end

section
/-!
PROOFS. The lock of the PLLs at wake, holdover and the steering of a follower (R37 to R41, R46).
-/
namespace Sys2Proof.Proofs
open Sys2Proof.Machine Sys2Proof.Safety Sys2Proof.Laws

/-- From `s` to `u` time and power are as they were, the cores, MRAM and memory too, Timing but for the role, and no flag of unit 2
is cleared. -/
structure Calm (s u : State) : Prop where
  now : u.now = s.now
  pwr : u.pwr = s.pwr
  nv : u.nv = s.nv
  plate : u.plate = s.plate
  cells : u.mem.cells = s.mem.cells
  tim : Reroled s.tim u.tim
  flags : ∀ i k, i < 65536 → wbit (parGet s 2 i) k = true → wbit (parGet u 2 i) k = true
  grow : ∀ e ∈ s.book.inq, e.code ≠ 0x0902 → e ∈ u.book.inq

theorem Reroled.trans {T U V : Timing} (h : Reroled T U) (k : Reroled U V) : Reroled T V := by
  obtain ⟨_, _, _, _, _, rfl⟩ := h
  obtain ⟨_, _, _, _, _, rfl⟩ := k
  exact ⟨_, _, _, _, _, rfl⟩

theorem Calm.refl (s : State) : Calm s s := ⟨rfl, rfl, rfl, rfl, rfl, .refl _, fun _ _ _ h => h, fun _ h _ => h⟩

theorem Calm.trans {s t u : State} (h : Calm s t) (k : Calm t u) : Calm s u :=
  ⟨k.now.trans h.now, k.pwr.trans h.pwr, k.nv.trans h.nv, k.plate.trans h.plate, k.cells.trans h.cells, h.tim.trans k.tim,
    fun i b hi hb => k.flags i b hi (h.flags i b hi hb), fun e he hc => k.grow e (h.grow e he hc) hc⟩

theorem Calm.ev {s u : State} (h : EvStep s u) : Calm s u :=
  ⟨h.now, h.pwr, h.nv, h.plate, h.mem_cells, by rw [h.tim]; exact .refl _, fun i k hi hb => by
    rwa [parGet_of_evStep h hi (by decide) (by decide)], h.grow⟩

/-- The converters, the position sources, Hatch and the free values. -/
theorem Calm.parts (s : State) (C : Converters) (H : Hatch) (f : Nat) : Calm s { s with conv := C, hatch := H, free := f } :=
  ⟨rfl, rfl, rfl, rfl, rfl, .refl _, fun _ _ _ h => h, fun _ h _ => h⟩

/-- A parameter of another unit. -/
theorem Calm.par {s : State} {u i : Nat} {v : Word} (h : paAddr u i / 65536 ≠ 2) : Calm s (parSet s u i v) := by
  refine ⟨rfl, rfl, rfl, rfl, rfl, .refl _, fun j k hj hb => ?_, fun _ h _ => h⟩
  have hne : paAddr 2 j ≠ paAddr u i := fun heq => h (by rw [← heq]; unfold paAddr; omega)
  rwa [show parGet (parSet s u i v) 2 j = parGet s 2 j from tblGet_write_ne _ _ _ _ hne]

theorem calm_kept : Kept Calm where
  refl := .refl
  trans := .trans
  ev := .ev
  par s u i v hu := .par (by unfold paAddr; omega)
  tb s _ _ _ := .parts s s.conv _ s.free
  misc _ _ _ _ _ hT := ⟨rfl, rfl, rfl, rfl, rfl, hT, fun _ _ _ h => h, fun _ h _ => h⟩

theorem calm_startTimebases (s : State) : Calm s (startTimebases s) :=
  calm_kept.forUpTo (fun t u => rel_ite (kept_startPeriod calm_kept 5 t _ u) (.refl u)) s

theorem calm_setTripLatch (s : State) (n : Nat) : Calm s (setTripLatch s n) := by
  unfold setTripLatch
  extract_lets w _ a b c
  have ha : Calm s a := .parts s s.conv _ s.free
  have hb : Calm a b := .ev (ev_settlePairs (.refl a))
  have hc : Calm b c := calm_kept.forEach (fun r u => .ev (ev_orderRing (.refl u))) _ b
  exact ((ha.trans hb).trans hc).trans (.ev (ev_raise (.refl c)))

theorem calm_wcOutput (s : State) (n : Nat) (active : Bool) : Calm s (wcOutput s n active) := by
  have hlevel : Calm s { s with conv := { s.conv with wcLevel := putBit s.conv.wcLevel n active } } := .parts s _ s.hatch s.free
  refine rel_ite (.refl s) (hlevel.trans (rel_ite (.par ?_) (.refl _)))
  decide

theorem calm_tripInput (s : State) (n : Nat) (active : Bool) : Calm s (tripInput s n active) := by
  have hin : Calm s _ := (calm_wcOutput s n active).trans (.parts _ (wcOutput s n active).conv
    { (wcOutput s n active).hatch with tripIn := putBit (wcOutput s n active).hatch.tripIn n active } (wcOutput s n active).free)
  exact hin.trans (rel_ite (calm_setTripLatch _ n) (.refl _))

theorem calm_wcEval (n : Nat) (s : State) : Calm s (wcEval n s) := by
  have hlevels : Calm s { s with
      conv := { s.conv with wcHi := putBit s.conv.wcHi n (wcSide s n true), wcLo := putBit s.conv.wcLo n (wcSide s n false) },
      free := s.free + 2 } := .parts s _ s.hatch _
  exact hlevels.trans (rel_ite (.refl _) (calm_tripInput _ n _))

theorem calm_wcEvalAll (s : State) : Calm s (wcEvalAll s) := calm_kept.forUpTo calm_wcEval s

theorem calm_tripResample (s : State) : Calm s (tripResample s) :=
  calm_kept.forUpTo (fun n u => rel_ite (calm_setTripLatch u n) (.refl u)) s

/-! The faults held in sleep are raised. -/

/-- From `s` to `u`, both awake, what the faults of a wake leave of time, power and Timing. -/
structure Waking (s u : State) : Prop where
  now : u.now = s.now
  pwr : u.pwr = s.pwr
  nv : u.nv = s.nv
  plate : u.plate = s.plate
  cells : u.mem.cells = s.mem.cells
  flags : ∀ i k, i < 65536 → wbit (parGet s 2 i) k = true → wbit (parGet u 2 i) k = true
  grow : ∀ e ∈ s.book.inq, e.code ≠ 0x0902 → e ∈ u.book.inq
  awake : isAsleep u = false
  starting : u.tim.starting = s.tim.starting
  xinHeld : u.tim.xinHeld = s.tim.xinHeld
  pllHeld : u.tim.pllHeld = s.tim.pllHeld
  active : s.tim.holdover = .active → u.tim.holdover = .active
  invalid : s.tim.timeValid = false → u.tim.timeValid = false
  unlocked : s.tim.td1 = false → u.tim.td1 = false

theorem Waking.refl {s : State} (h : isAsleep s = false) : Waking s s :=
  ⟨rfl, rfl, rfl, rfl, rfl, fun _ _ _ h => h, fun _ h _ => h, h, rfl, rfl, rfl, id, id, id⟩

theorem Waking.trans {s t u : State} (h : Waking s t) (k : Waking t u) : Waking s u where
  now := k.now.trans h.now
  pwr := k.pwr.trans h.pwr
  nv := k.nv.trans h.nv
  plate := k.plate.trans h.plate
  cells := k.cells.trans h.cells
  flags i b hi hb := k.flags i b hi (h.flags i b hi hb)
  grow e he hc := k.grow e (h.grow e he hc) hc
  awake := k.awake
  starting := k.starting.trans h.starting
  xinHeld := k.xinHeld.trans h.xinHeld
  pllHeld := k.pllHeld.trans h.pllHeld
  active hs := k.active (h.active hs)
  invalid hs := k.invalid (h.invalid hs)
  unlocked hs := k.unlocked (h.unlocked hs)

theorem Waking.ev {s u : State} (hs : isAsleep s = false) (h : EvStep s u) : Waking s u := by
  have hcalm : Calm s u := .ev h
  have htim := h.tim
  refine ⟨hcalm.now, hcalm.pwr, hcalm.nv, hcalm.plate, hcalm.cells, hcalm.flags, h.grow, ?_, by rw [htim], by rw [htim], by rw [htim],
    by rw [htim]; exact id, by rw [htim]; exact id, by rw [htim]; exact id⟩
  unfold isAsleep at *
  rwa [h.pwr, htim]

theorem isAsleep_eq_false (s : State) : isAsleep s = false ↔
    s.pwr.sleep ≠ .asleep ∧ (s.pwr.sleep = .waking → s.tim.td1 = true ∨ s.tim.holdover ≠ .none) := by
  unfold isAsleep
  cases s.tim.td1 <;> simp

theorem waking_enterHoldover {s : State} (hs : isAsleep s = false) : Waking s (enterHoldover s) ∧
    ((enterHoldover s).pwr.sleep = .waking → (enterHoldover s).tim.holdover ≠ .none) := by
  obtain ⟨hsleep, hwake⟩ := (isAsleep_eq_false s).1 hs
  have hho : (enterHoldover s).tim.holdover = if s.tim.holdover = .none ∧ s.tim.td1 then .active else s.tim.holdover := rfl
  have hheld : (enterHoldover s).pwr.sleep = .waking → (enterHoldover s).tim.holdover ≠ .none := fun hw => by
    rw [hho]
    split
    · decide
    next hn => exact fun hnone => (hwake hw).elim (fun htd => hn ⟨hnone, htd⟩) fun hne => hne hnone
  refine ⟨⟨rfl, rfl, rfl, rfl, rfl, fun _ _ _ h => h, fun _ h _ => h, ?_, rfl, rfl, rfl, fun ha => ?_, fun _ => rfl, id⟩, hheld⟩
  · exact (isAsleep_eq_false _).2 ⟨hsleep, fun hw => .inr (hheld hw)⟩
  · rw [hho, ha, if_neg (by simp)]

theorem waking_xinFault (cause : Nat) {s : State} (hs : isAsleep s = false) : Waking s (xinFault cause s) := by
  obtain ⟨hhold, _⟩ := waking_enterHoldover hs
  unfold xinFault
  rw [if_neg (by simp [hs])]
  exact hhold.trans (.ev hhold.awake (ev_raise (.refl _)))

theorem waking_lockLost (d : Nat) {s : State} (hs : isAsleep s = false) : Waking s (lockLost d s) := by
  obtain ⟨hhold, hheld⟩ := waking_enterHoldover hs
  have hone : Waking (enterHoldover s) (updTim (enterHoldover s) fun t => { t with td1 := false }) :=
    ⟨rfl, rfl, rfl, rfl, rfl, fun _ _ _ h => h, fun _ h _ => h,
      (isAsleep_eq_false _).2 ⟨((isAsleep_eq_false s).1 hs).1, fun hw => .inr (hheld hw)⟩, rfl, rfl, rfl, id, id, fun _ => rfl⟩
  have htwo : Waking s (updTim s fun t => { t with td2 := false }) :=
    ⟨rfl, rfl, rfl, rfl, rfl, fun _ _ _ h => h, fun _ h _ => h, hs, rfl, rfl, rfl, id, id, id⟩
  have hfive : Waking s (updTim s fun t => { t with td5 := false }) :=
    ⟨rfl, rfl, rfl, rfl, rfl, fun _ _ _ h => h, fun _ h _ => h, hs, rfl, rfl, rfl, id, id, id⟩
  have hheldLp : Waking s { updTim s fun t => { t with td5 := false } with mem := { s.mem with lpHeld := true, lpHeldAt := s.now } } :=
    ⟨rfl, rfl, rfl, rfl, rfl, fun _ _ _ h => h, fun _ h _ => h, hs, rfl, rfl, rfl, id, id, id⟩
  exact rel_ite (hhold.trans hone) (rel_ite htwo (rel_ite hheldLp hfive))

theorem flags_parOr (s : State) {j : Nat} (hj : j < 65536) (m : Word) (i k : Nat) (hi : i < 65536) (hb : wbit (parGet s 2 i) k = true) :
    wbit (parGet (parOr s 2 j m) 2 i) k = true := by
  unfold parOr
  rw [parGet_parSet _ hj hi]
  split
  next h =>
    rw [← h.2, wbit_eq_testBit, BitVec.toNat_or, Nat.testBit_or]
    rw [wbit_eq_testBit] at hb
    simp [hb]
  next => exact hb

theorem waking_pllUnlock (d : Nat) {s : State} (hs : isAsleep s = false) : Waking s (pllUnlock d s) := by
  have hflag : Waking s (parOr s 2 5 0x8) :=
    ⟨rfl, rfl, rfl, rfl, rfl, flags_parOr s (by decide) _, fun _ h _ => h, hs, rfl, rfl, rfl, id, id, id⟩
  have hlost := waking_lockLost d hflag.awake
  exact (hflag.trans hlost).trans (.ev hlost.awake (ev_raise (.refl _)))

theorem waking_forEach {α : Type} {f : α → State → State} (hf : ∀ a {u : State}, isAsleep u = false → Waking u (f a u)) (l : List α) {s : State}
    (hs : isAsleep s = false) : Waking s (forEach l f s) := by
  induction l generalizing s with
  | nil => exact .refl hs
  | cons a l ih => exact (hf a hs).trans (ih (hf a hs).awake)

/-- The faults that sleep held are taken out. -/
def heldTaken (s : State) : State := { updTim s fun t => { t with xinHeld := [], pllHeld := [] } with pwr := { s.pwr with supplyBad := [] } }

theorem raiseHeld_eq (s : State) : raiseHeld s = forEach s.pwr.supplyBad (fun x s => supplyFault x.1 x.2 s)
    (forEach s.tim.pllHeld pllUnlock (forEach s.tim.xinHeld xinFault (heldTaken s))) := rfl

theorem waking_raiseHeld {s : State} (hs : isAsleep s = false) : Waking (heldTaken s) (raiseHeld s) := by
  have hx := waking_forEach (fun a _ hu => waking_xinFault a hu) s.tim.xinHeld (s := heldTaken s) hs
  have hp := waking_forEach (fun a _ hu => waking_pllUnlock a hu) s.tim.pllHeld hx.awake
  have hb := waking_forEach (f := fun (x : Nat × Bool) s => supplyFault x.1 x.2 s) (fun x _ hu => .ev hu (ev_raise (.refl _))) s.pwr.supplyBad hp.awake
  exact (hx.trans hp).trans hb

theorem forEach_td1 {α : Type} {f : α → State → State} {l : List α} (hf : ∀ a ∈ l, ∀ u, (f a u).tim.td1 = u.tim.td1) (s : State) :
    (forEach l f s).tim.td1 = s.tim.td1 := by
  induction l generalizing s with
  | nil => rfl
  | cons a l ih => exact (ih (fun b hb => hf b (by simp [hb])) (f a s)).trans (hf a (by simp) s)

theorem raise_tim (s : State) (code idx : Nat) (args : List Word) : (raise s code idx args).tim = s.tim := (ev_raise (.refl s)).tim

theorem xinFault_td1 (cause : Nat) (s : State) : (xinFault cause s).tim.td1 = s.tim.td1 := by
  unfold xinFault
  split
  · rfl
  · rw [raise_tim]
    rfl

theorem pllUnlock_td1 {d : Nat} (hd : d ≠ 1) (s : State) : (pllUnlock d s).tim.td1 = s.tim.td1 := by
  have heq : pllUnlock d s = raise (lockLost d (parOr s 2 5 0x8)) 0x0202 d [] := rfl
  rw [heq, raise_tim, lockLost, if_neg hd]
  split
  · rfl
  · dsimp only
    split <;> rfl

/-- TD1 stays locked where no loss of it was held; time stays valid where nothing was held. -/
theorem raiseHeld_keeps (s : State) : (1 ∉ s.tim.pllHeld → (raiseHeld s).tim.td1 = s.tim.td1) ∧
    (s.tim.xinHeld = [] → s.tim.pllHeld = [] → (raiseHeld s).tim.timeValid = s.tim.timeValid) := by
  have hsupply (l : List (Nat × Bool)) (u : State) : (forEach l (fun x s => supplyFault x.1 x.2 s) u).tim = u.tim :=
    forEach_rel (R := fun s u => u.tim = s.tim) (fun _ => rfl) (fun h k => k.trans h) (fun _ _ => raise_tim _ _ _ _) l u
  rw [raiseHeld_eq, hsupply]
  refine ⟨fun h => ?_, fun hx hp => ?_⟩
  · exact (forEach_td1 (fun d hd u => pllUnlock_td1 (fun hone => h (hone ▸ hd)) u) _).trans (forEach_td1 (fun c _ u => xinFault_td1 c u) _)
  · rw [hx, hp]
    rfl

/-! PLL_LOCKED and PLL_LOCK_TIMEOUT. -/

section
variable {s : State}

/-- TD1 locks in a waking device: time goes on by what TD0 counted (R46). -/
def lockTaken (n : Nat) (s : State) : State :=
  parOr { s with
    now := s.now + n * 25 / 2, pwr := { s.pwr with lockTick := s.now + n * 25 / 2 },
    tim := { s.tim with
      starting := s.tim.starting.filter (fun d => decide (d ≠ 1)), td1 := true, timeValid := s.tim.xinOk,
      skip := some (s.now, s.now + n * 25 / 2) } } 2 2 0x80

theorem pllLocked_td1 (n : Nat) (h : s.tim.starting.contains 1 = true) :
    exec (.pllLocked 1 n) s = .next (raiseHeld (tripResample (wcEvalAll (startTimebases (lockTaken n s))))) :=
  congrArg Host.Outcome.next ((if_neg (by rw [h]; decide)).trans rfl)

theorem pllLocked_wakes (n : Nat) (h : s.tim.starting.contains 1 = true) (hw : s.pwr.sleep = .waking) :
    ∃ t, exec (.pllLocked 1 n) s = .next t ∧
      t.now = s.now + n * 25 / 2 ∧ t.pwr.lockTick = t.now ∧ (1 ∉ s.tim.pllHeld → t.tim.td1 = true) ∧
      wbit (parGet t 2 2) 7 = true ∧
      t.tim.starting = s.tim.starting.filter (fun d => decide (d ≠ 1)) ∧ t.tim.xinHeld = [] ∧ t.tim.pllHeld = [] ∧
      (s.tim.xinHeld = [] → s.tim.pllHeld = [] → t.tim.timeValid = s.tim.xinOk) ∧ t.nv = s.nv ∧ t.plate = s.plate ∧
      t.mem.cells = s.mem.cells := by
  have hcalm := ((calm_startTimebases (lockTaken n s)).trans (calm_wcEvalAll _)).trans (calm_tripResample _)
  have hcoast : wbit (parGet (lockTaken n s) 2 2) 7 = true := wbit_parOr _ 2 2 (by decide)
  have hexec := pllLocked_td1 n h
  generalize tripResample (wcEvalAll (startTimebases (lockTaken n s))) = u at *
  obtain ⟨m, g, b, d, w, htim⟩ := hcalm.tim
  have hawake : isAsleep u = false := by
    refine (isAsleep_eq_false u).2 ⟨?_, fun _ => .inl (by rw [htim]; rfl)⟩
    rw [hcalm.pwr]
    show s.pwr.sleep ≠ _
    rw [hw]
    decide
  have hwake := waking_raiseHeld hawake
  obtain ⟨htd, hvalid⟩ := raiseHeld_keeps u
  generalize raiseHeld u = t at *
  have hnow : t.now = s.now + n * 25 / 2 := hwake.now.trans hcalm.now
  refine ⟨t, hexec, hnow, ?_, fun hp => ?_, ?_, ?_, hwake.xinHeld, hwake.pllHeld, fun hx hp => ?_, hwake.nv.trans hcalm.nv,
    hwake.plate.trans hcalm.plate, hwake.cells.trans hcalm.cells⟩
  · rw [hnow, hwake.pwr]
    exact congrArg (·.lockTick) hcalm.pwr
  · rw [htim] at htd
    exact htd hp
  · exact hwake.flags 2 7 (by decide) (hcalm.flags 2 7 (by decide) hcoast)
  · refine hwake.starting.trans ?_
    show u.tim.starting = _
    rw [htim]
    rfl
  · rw [htim] at hvalid
    exact hvalid hx hp

/-- TD1 has not locked in time in a waking device: it goes on in holdover (R40). -/
def lockMissed (s : State) : State :=
  { s with
    pwr := { s.pwr with lockTick := s.now },
    tim := { s.tim with starting := s.tim.starting.filter (fun d => decide (d ≠ 1)), holdover := .active, timeValid := false } }

theorem pllTimeout_holds (h : s.tim.starting.contains 1 = true) (hw : s.pwr.sleep = .waking) : ∃ t, exec (.pllLockTimeout 1) s = .next t ∧
    t.tim.holdover = .active ∧ t.tim.timeValid = false ∧ t.tim.td1 = false ∧ t.now = s.now ∧ t.pwr.lockTick = s.now ∧
    wbit (parGet t 2 5) 3 = true ∧ Raised t t 0x0202 1 [] ∧ t.nv = s.nv ∧ t.plate = s.plate ∧ t.mem.cells = s.mem.cells := by
  have hexec : exec (.pllLockTimeout 1) s = .next (raiseHeld (tripResample (wcEvalAll (pllUnlock 1 (lockMissed s))))) :=
    congrArg Host.Outcome.next ((if_neg (by rw [h]; decide)).trans rfl)
  have hawake : isAsleep (lockMissed s) = false := by
    refine (isAsleep_eq_false _).2 ⟨?_, fun _ => .inr (by show Holdover.active ≠ .none; decide)⟩
    show s.pwr.sleep ≠ _
    rw [hw]
    decide
  have hunlock := waking_pllUnlock 1 hawake
  obtain ⟨hlost, hseen, hraised, hone, _, _⟩ := pllUnlock_alarms (d := 1) (by decide) (lockMissed s)
  have hcalm := (calm_wcEvalAll (pllUnlock 1 (lockMissed s))).trans (calm_tripResample _)
  generalize pllUnlock 1 (lockMissed s) = v at *
  generalize tripResample (wcEvalAll v) = u at *
  obtain ⟨m, g, b, d, w, htim⟩ := hcalm.tim
  have hawakeU : isAsleep u = false := by
    unfold isAsleep
    rw [hcalm.pwr, htim]
    exact hunlock.awake
  have hwake := waking_raiseHeld hawakeU
  generalize raiseHeld u = t at *
  have hvalid : t.tim.timeValid = false := hwake.invalid (by show u.tim.timeValid = _; rw [htim]; exact hone rfl)
  have hnow : t.now = v.now := hwake.now.trans hcalm.now
  refine ⟨t, hexec, hwake.active ?_, hvalid, hwake.unlocked ?_, hnow.trans hunlock.now, ?_, ?_, ?_,
    (hwake.nv.trans hcalm.nv).trans hunlock.nv, (hwake.plate.trans hcalm.plate).trans hunlock.plate,
    (hwake.cells.trans hcalm.cells).trans hunlock.cells⟩
  · show u.tim.holdover = _
    rw [htim]
    exact hunlock.active rfl
  · show u.tim.td1 = _
    rw [htim]
    exact hlost
  · rw [hwake.pwr]
    exact (congrArg (·.lockTick) hcalm.pwr).trans (congrArg (·.lockTick) hunlock.pwr)
  · exact hwake.flags 5 3 (by decide) (hcalm.flags 5 3 (by decide) hseen)
  · have hkept : Raised v t 0x0202 1 [] := hwake.grow _ (hcalm.grow _ hraised (show (0x0202 : Nat) ≠ 0x0902 by decide)) (show (0x0202 : Nat) ≠ 0x0902 by decide)
    exact raised_of hkept hnow.symm ((hone rfl).trans hvalid.symm)

/-- What a PLL other than TD1 that has not locked in time does (R40, R41). -/
theorem pllTimeout_other {d : Nat} (hd : d ∈ [2, 5]) (h : s.tim.starting.contains d = true) :
    (isAsleep s = true → exec (.pllLockTimeout d) s = .next { s with tim := { s.tim with
      starting := s.tim.starting.filter (fun x => decide (x ≠ d)), pllHeld := s.tim.pllHeld ++ [d] } }) ∧
    (isAsleep s = false → ∃ t, exec (.pllLockTimeout d) s = .next t ∧ pllLockedNow t d = false ∧
      wbit (parGet t 2 5) 3 = true ∧ Raised t t 0x0202 d [] ∧
      Reacted { s with tim := t.tim, par := (parOr s 2 5 8).par, mem := { s.mem with
        lpHeld := t.mem.lpHeld, lpHeldAt := t.mem.lpHeldAt } } t) := by
  have hd1 : d ≠ 1 := by
    rintro rfl
    simp at hd
  have hmem : d ∈ [1, 2, 5] := List.mem_cons_of_mem 1 hd
  have hstart : ¬(!s.tim.starting.contains d) = true := by rw [h]; decide
  refine ⟨fun hasleep => congrArg Host.Outcome.next ((if_neg hstart).trans ((if_neg hd1).trans (if_pos hasleep))), fun hawake => ?_⟩
  have hexec : exec (.pllLockTimeout d) s =
      .next (pllUnlock d (updTim s fun t => { t with starting := t.starting.filter fun x => x ≠ d })) := by
    have hawake' : ¬isAsleep (updTim s fun t => { t with starting := t.starting.filter fun x => x ≠ d }) = true := by
      rw [show isAsleep (updTim s fun t => { t with starting := t.starting.filter fun x => x ≠ d }) = isAsleep s from rfl, hawake]
      decide
    exact congrArg Host.Outcome.next ((if_neg hstart).trans ((if_neg hd1).trans (if_neg hawake')))
  obtain ⟨hlost, hseen, hraised, _, _, hreact⟩ := pllUnlock_alarms hmem (updTim s fun t => { t with starting := t.starting.filter fun x => x ≠ d })
  rw [parOr_updTim] at hreact
  generalize pllUnlock d (updTim s fun t => { t with starting := t.starting.filter fun x => x ≠ d }) = t at *
  exact ⟨t, hexec, hlost, hseen, hraised, hreact⟩

end

/-! Holdover's end, and steering. -/

theorem holdoverEnd_ends {s : State} (h : s.tim.holdover = .active) : ∃ t, exec .holdoverEnd s = .next t ∧ t = { s with
    tim := { s.tim with holdover := .ended }, hatch := { s.hatch with pairs := t.hatch.pairs } } := by
  have hpairs : PairsAlone (updTim s fun t => { t with holdover := .ended }) (settlePairs (updTim s fun t => { t with holdover := .ended })) :=
    forUpTo_rel PairsAlone.refl PairsAlone.trans (fun p _ u => (settlePair_alone u p).pairs) _
  have hexec : exec .holdoverEnd s = .next (settlePairs (updTim s fun t => { t with holdover := .ended })) :=
    congrArg Host.Outcome.next (if_pos h)
  generalize settlePairs (updTim s fun t => { t with holdover := .ended }) = t at *
  obtain ⟨X, rfl⟩ := hpairs
  exact ⟨_, hexec, rfl⟩

theorem phaseSteer_steers {s : State} (fwd : Bool) (hm : s.tim.master = false) (htd : s.tim.td1 = true) (hawake : isAsleep s = false) :
    (s.tim.steered.any (fun t => inSlide s.now t 400) = true → exec (.phaseSteer fwd) s = .next s) ∧
    (s.tim.steered.any (fun t => inSlide s.now t 400) = false → ∃ t, exec (.phaseSteer fwd) s = .next t ∧
      (t.tim.phase16 : Int) = ((s.tim.phase16 : Int) + (if fwd then 1 else -1)) % 16 ∧ t.tim.steered = some s.now ∧
      t = { s with tim := { s.tim with phase16 := t.tim.phase16, slew16 := t.tim.slew16, steered := t.tim.steered } }) := by
  refine ⟨fun h => ?_, fun h => ?_⟩
  · refine congrArg Host.Outcome.next (if_pos ?_)
    simp only [Bool.or_eq_true]
    exact .inr h
  · have hexec : exec (.phaseSteer fwd) s = .next (updTim s fun t => { t with
        phase16 := (((t.phase16 : Int) + (if fwd then 1 else -1)) % 16).toNat,
        slew16 := if t.slew16 = 0 then 0 else t.slew16 - (if fwd then 1 else -1), steered := some s.now }) := by
      refine congrArg Host.Outcome.next (if_neg ?_)
      have h' : (s.tim.steered.any fun t => inSlide s.now t usTicks) = false := h
      simp [hm, htd, hawake, h']
    refine ⟨_, hexec, ?_, rfl, rfl⟩
    exact Int.toNat_of_nonneg (Int.emod_nonneg _ (by decide))

/-- Settles O34: what a wake raises comes after the lock; the other clauses are one branch each. -/
theorem lockAndSteering : Obligations.LockAndSteering := by
  unfold Obligations.LockAndSteering
  intro s
  refine ⟨fun n h hw => pllLocked_wakes n h hw, fun n h => ?_, fun n h => ?_, fun h hw => pllTimeout_holds h hw,
    fun d hd h => pllTimeout_other hd h, fun d n h => ?_, fun h => holdoverEnd_ends h, fun fwd hm htd hawake => phaseSteer_steers fwd hm htd hawake⟩
  · exact congrArg Host.Outcome.next ((if_neg (by rw [h]; decide)).trans rfl)
  · exact congrArg Host.Outcome.next ((if_neg (by rw [h]; decide)).trans rfl)
  · exact ⟨congrArg Host.Outcome.next (if_pos (by rw [h]; rfl)), congrArg Host.Outcome.next (if_pos (by rw [h]; rfl))⟩

end Sys2Proof.Proofs
end

section
/-!
PROOFS. Trip inputs, comparators and the delay lines (R163, R164, R168, R219 to R221).
-/
namespace Sys2Proof.Proofs
open Sys2Proof.Machine Sys2Proof.Safety Sys2Proof.Laws

/-! One bit of a mask. -/

theorem testBit_sub_two_pow {m n : Nat} (h : m.testBit n = true) (k : Nat) :
    (m - 2 ^ n).testBit k = if k = n then false else m.testBit k := by
  have hle : 2 ^ n ≤ m := Nat.ge_two_pow_of_testBit h
  have hm : 2 ^ n + (m - 2 ^ n) = m := Nat.add_sub_cancel' hle
  have hodd : m / 2 ^ n % 2 = 1 := by simpa [Nat.testBit_eq_decide_div_mod_eq] using h
  have hdiv : m / 2 ^ n = (m - 2 ^ n) / 2 ^ n + 1 := Nat.div_eq_sub_div (Nat.two_pow_pos n) hle
  rcases Nat.lt_trichotomy k n with hk | hk | hk
  · rw [if_neg (by omega)]
    exact (Nat.testBit_two_pow_add_gt hk _).symm.trans (by rw [hm])
  · rw [if_pos hk, hk, Nat.testBit_eq_decide_div_mod_eq, decide_eq_false]
    omega
  · rw [if_neg (by omega), Nat.testBit_eq_decide_div_mod_eq, Nat.testBit_eq_decide_div_mod_eq]
    have hpow : 2 ^ k = 2 ^ n * (2 * 2 ^ (k - n - 1)) := by
      rw [← Nat.pow_succ', ← Nat.pow_add]
      congr 1
      omega
    have hhalf : (m - 2 ^ n) / 2 ^ n / 2 = m / 2 ^ n / 2 := by omega
    rw [hpow, ← Nat.div_div_eq_div_mul, ← Nat.div_div_eq_div_mul, ← Nat.div_div_eq_div_mul, ← Nat.div_div_eq_div_mul, hhalf]

theorem testBit_putBit (m n k : Nat) (v : Bool) : (putBit m n v).testBit k = if k = n then v else m.testBit k := by
  unfold putBit
  cases v with
  | true =>
    rw [if_pos rfl, Nat.testBit_or, Nat.testBit_two_pow]
    by_cases h : k = n <;> simp [h, Ne.symm]
  | false =>
    rw [if_neg (by decide)]
    by_cases h : m.testBit n = true
    · rw [if_pos h, testBit_sub_two_pow h]
    · rw [if_neg h]
      split
      next hk => rw [hk]; simpa using h
      next => rfl

/-! TRIP. -/

theorem setTripLatch_ev (s : State) (n : Nat) : EvStep (latched n s) (setTripLatch s n) :=
  ev_raise (EvStep.forEach (ev_settlePairs (.refl _)) fun _ _ h => ev_orderRing h)

theorem setTripLatch_raises (s : State) (n : Nat) :
    Raised s (setTripLatch s n) 0x0901 n [wrd (field (tripRoute s n) 31 30), wrd (field (tripRoute s n) 11 0)] := by
  have hbefore : EvStep (latched n s) (forEach (below 16 fun r => wbit (tripRoute s n) (r + 12)) orderRing (settlePairs (latched n s))) :=
    EvStep.forEach (ev_settlePairs (.refl _)) fun _ _ h => ev_orderRing h
  have hraised := raise_raises (forEach (below 16 fun r => wbit (tripRoute s n) (r + 12)) orderRing (settlePairs (latched n s)))
    (code := 0x0901) (by decide) n [wrd (field (tripRoute s n) 31 30), wrd (field (tripRoute s n) 11 0)]
  exact raised_of hraised hbefore.now (congrArg (·.timeValid) hbefore.tim)

/-- What an input that sets its latch leaves. -/
structure TripSet (n : Nat) (s t : State) : Prop where
  latches : ∀ m, latchSet t m = (latchSet s m || decide (m = n))
  raised : Raised s t 0x0901 n [wrd (field (tripRoute s n) 31 30), wrd (field (tripRoute s n) 11 0)]
  input : t.hatch.tripIn.testBit n = true
  calm : Calm s t

section
variable {s : State} {n : Nat}

theorem tripInput_sets (hn : n < 32) (hworks : tripsWork s = true) (haction : field (tripRoute s n) 31 30 ≠ 0)
    (hclear : latchSet s n = false) : TripSet n s (tripInput s n true) := by
  have hcalm := calm_tripInput s n true
  have htaken := inputTaken_inputActive s n
  have hin : (inputActive n s).hatch.tripIn.testBit n = true := testBit_putBit_true _ n
  rw [tripInput_latches hn hworks haction hclear] at hcalm ⊢
  have hev := setTripLatch_ev (inputActive n s) n
  have hraised := setTripLatch_raises (inputActive n s) n
  rw [htaken.route n hn] at hraised
  obtain ⟨P, I, C, F, hframe⟩ := htaken.frame
  refine ⟨fun m => ?_, ?_, ?_, hcalm⟩
  · rw [latch_step hev, latchSet_latched, htaken.latch]
  · exact raised_of hraised (by rw [hframe]) (by rw [hframe])
  · rw [hev.hatch_tripIn]
    exact hin

/-- The levels of comparator `n` are taken. -/
def sidesTaken (n : Nat) (s : State) : State :=
  { s with
    conv := { s.conv with wcHi := putBit s.conv.wcHi n (wcSide s n true), wcLo := putBit s.conv.wcLo n (wcSide s n false) },
    free := s.free + 2 }

theorem wcEval_eq (n : Nat) (s : State) : wcEval n s =
    if (wcSide s n true || wcSide s n false) = s.conv.wcLevel.testBit n then sidesTaken n s
    else tripInput (sidesTaken n s) n (wcSide s n true || wcSide s n false) := rfl

theorem trip_sets (hn : n < 32) (hworks : tripsWork s = true) (haction : field (tripRoute s n) 31 30 ≠ 0)
    (hclear : latchSet s n = false) (hactive : Activates s n) : ∃ t, exec (.trip n true) s = .next t ∧ TripSet n s t := by
  by_cases h24 : 24 ≤ n
  · have hexec : exec (.trip n true) s = .next (tripInput s n true) :=
      congrArg Host.Outcome.next ((if_neg (by omega)).trans (if_pos h24))
    exact ⟨_, hexec, tripInput_sets hn hworks haction hclear⟩
  · obtain ⟨hruns, hside, hlevel⟩ := hactive.resolve_left h24
    have heval : wcEval n s = tripInput (sidesTaken n s) n true := by
      rw [wcEval_eq, if_neg (by rw [hside, hlevel]; decide), hside]
    have hexec : exec (.trip n true) s = .next (tripInput (sidesTaken n s) n true) :=
      congrArg Host.Outcome.next ((if_neg (by omega)).trans ((if_neg h24).trans ((if_pos hruns).trans heval)))
    have h := tripInput_sets (s := sidesTaken n s) hn hworks haction hclear
    exact ⟨_, hexec, h.latches, h.raised, h.input, (Calm.parts s _ s.hatch _).trans h.calm⟩

theorem trip_notes (a : Bool) (h24 : 24 ≤ n) (hn : n < 32) (hidle : a = false ∨ field (tripRoute s n) 31 30 = 0 ∨ latchSet s n = true) :
    ∃ t, exec (.trip n a) s = .next t ∧ (∀ m, t.hatch.tripIn.testBit m = if m = n then a else s.hatch.tripIn.testBit m) ∧
      t = { s with hatch := { s.hatch with tripIn := t.hatch.tripIn } } := by
  have hout : wcOutput s n a = s := if_pos h24
  have hin : tripInput s n a = { s with hatch := { s.hatch with tripIn := putBit s.hatch.tripIn n a } } := by
    have heq : tripInput s n a =
        if a && tripsWork s && decide (field (tripRoute s n) 31 30 ≠ 0) && !latchSet s n then
          setTripLatch { wcOutput s n a with hatch := { (wcOutput s n a).hatch with tripIn := putBit (wcOutput s n a).hatch.tripIn n a } } n
        else { wcOutput s n a with hatch := { (wcOutput s n a).hatch with tripIn := putBit (wcOutput s n a).hatch.tripIn n a } } := by
      unfold tripInput
      rw [hout]
      rfl
    rw [heq, hout]
    refine if_neg ?_
    rcases hidle with h | h | h <;> simp [h]
  have hexec : exec (.trip n a) s = .next { s with hatch := { s.hatch with tripIn := putBit s.hatch.tripIn n a } } :=
    congrArg Host.Outcome.next ((if_neg (by omega)).trans ((if_pos h24).trans hin))
  exact ⟨_, hexec, fun m => testBit_putBit _ _ _ _, rfl⟩

theorem trip_stays (a : Bool) (hn : n < 24) (hruns : wcRuns s = true) (hsame : (wcSide s n true || wcSide s n false) = s.conv.wcLevel.testBit n) :
    ∃ t, exec (.trip n a) s = .next t ∧ t = { s with free := t.free, conv := { s.conv with wcHi := t.conv.wcHi, wcLo := t.conv.wcLo } } := by
  have heval : wcEval n s = sidesTaken n s := by rw [wcEval_eq, if_pos hsame]
  have hexec : exec (.trip n a) s = .next (sidesTaken n s) :=
    congrArg Host.Outcome.next ((if_neg (by omega)).trans ((if_neg (by omega)).trans ((if_pos hruns).trans heval)))
  exact ⟨_, hexec, rfl⟩

end

/-! WC_OUTPUT_CHANGE. -/

/-- From `s` to `u` the converters' inputs and comparators' words are as they were, and so is all of comparator `n`. -/
structure Aloof (n : Nat) (s u : State) : Prop where
  ain : u.conv.ain = s.conv.ain
  old : u.conv.wcOld = s.conv.wcOld
  now : u.now = s.now
  ctrl : ∀ k, k < 24 → wcCtrl u k = wcCtrl s k
  hi : u.conv.wcHi.testBit n = s.conv.wcHi.testBit n
  lo : u.conv.wcLo.testBit n = s.conv.wcLo.testBit n
  level : u.conv.wcLevel.testBit n = s.conv.wcLevel.testBit n
  trip : u.hatch.tripIn.testBit n = s.hatch.tripIn.testBit n

theorem Aloof.refl (n : Nat) (s : State) : Aloof n s s := ⟨rfl, rfl, rfl, fun _ _ => rfl, rfl, rfl, rfl, rfl⟩

theorem Aloof.trans {n : Nat} {s t u : State} (h : Aloof n s t) (k : Aloof n t u) : Aloof n s u :=
  ⟨k.ain.trans h.ain, k.old.trans h.old, k.now.trans h.now, fun m hm => (k.ctrl m hm).trans (h.ctrl m hm), k.hi.trans h.hi,
    k.lo.trans h.lo, k.level.trans h.level, k.trip.trans h.trip⟩

theorem Aloof.ev {n : Nat} {s u : State} (h : EvStep s u) : Aloof n s u :=
  ⟨by rw [h.conv], by rw [h.conv], h.now, fun k hk => parGet_of_evStep h (by omega) (by decide) (by decide), by rw [h.conv],
    by rw [h.conv], by rw [h.conv], by rw [h.hatch_tripIn]⟩

theorem aloof_setTripLatch (n m : Nat) (s : State) : Aloof n s (setTripLatch s m) := by
  have hlatched : Aloof n s (latched m s) := ⟨rfl, rfl, rfl, fun _ _ => rfl, rfl, rfl, rfl, rfl⟩
  exact hlatched.trans (.ev (setTripLatch_ev s m))

/-- The comparator's output, and the flag it sets. -/
theorem wcOutput_takes {m : Nat} (hm : m < 24) (active : Bool) (s : State) : (wcOutput s m active).conv = { s.conv with
      wcLevel := putBit s.conv.wcLevel m active } ∧ (wcOutput s m active).hatch = s.hatch ∧ (wcOutput s m active).now = s.now ∧
    ∀ k, k < 24 → wcCtrl (wcOutput s m active) k = wcCtrl s k := by
  have hne (k : Nat) (hk : k < 24) : ¬(3 = 3 ∧ 0x300 + k = 0x17) := by omega
  unfold wcOutput
  rw [if_neg (by omega)]
  cases active with
  | true =>
    refine ⟨rfl, rfl, rfl, fun k hk => ?_⟩
    exact (parGet_parSet _ (by omega) (by omega) _).trans (if_neg (hne k hk))
  | false => exact ⟨rfl, rfl, rfl, fun _ _ => rfl⟩

/-- What an input of comparator `m` leaves: its output and its trip input show it, and the other comparators stay. -/
theorem tripInput_shows {m : Nat} (hm : m < 24) (active : Bool) (s : State) :
    (tripInput s m active).conv.wcLevel.testBit m = active ∧ (tripInput s m active).hatch.tripIn.testBit m = active ∧
    ∀ n, n ≠ m → Aloof n s (tripInput s m active) := by
  obtain ⟨hconv, hhatch, hnow, hctrl⟩ := wcOutput_takes hm active s
  have hlatch (u : State) (c : Prop) [Decidable c] (n : Nat) : Aloof n u (if c then setTripLatch u m else u) :=
    rel_ite (aloof_setTripLatch n m u) (.refl n u)
  unfold tripInput
  extract_lets v _ u
  have hu (n : Nat) (hn : n ≠ m) : Aloof n s u := by
    refine ⟨congrArg (·.ain) hconv, congrArg (·.wcOld) hconv, hnow, hctrl, congrArg (·.wcHi.testBit n) hconv,
      congrArg (·.wcLo.testBit n) hconv, ?_, ?_⟩
    · exact (congrArg (·.wcLevel.testBit n) hconv).trans ((testBit_putBit _ _ _ _).trans (if_neg hn))
    · refine (testBit_putBit _ _ _ _).trans ((if_neg hn).trans ?_)
      exact congrArg (·.tripIn.testBit n) hhatch
  have hlevel : u.conv.wcLevel.testBit m = active :=
    (congrArg (·.wcLevel.testBit m) hconv).trans ((testBit_putBit _ _ _ _).trans (if_pos rfl))
  have htrip : u.hatch.tripIn.testBit m = active := (testBit_putBit _ _ _ _).trans (if_pos rfl)
  exact ⟨(hlatch u _ m).level.trans hlevel, (hlatch u _ m).trip.trans htrip, fun n hn => (hu n hn).trans (hlatch u _ n)⟩

/-- What the evaluation of comparator `m` leaves. -/
theorem wcEval_shows {m : Nat} (hm : m < 24) (s : State) :
    (wcEval m s).conv.wcLevel.testBit m = (wcSide s m true || wcSide s m false) ∧
    (s.hatch.tripIn.testBit m = s.conv.wcLevel.testBit m →
      (wcEval m s).hatch.tripIn.testBit m = (wcEval m s).conv.wcLevel.testBit m) ∧
    ∀ n, n ≠ m → Aloof n s (wcEval m s) := by
  have hsides (n : Nat) (hn : n ≠ m) : Aloof n s (sidesTaken m s) :=
    ⟨rfl, rfl, rfl, fun _ _ => rfl, (testBit_putBit _ _ _ _).trans (if_neg hn), (testBit_putBit _ _ _ _).trans (if_neg hn), rfl, rfl⟩
  rw [wcEval_eq]
  split
  next h => exact ⟨h.symm, id, hsides⟩
  next h =>
    obtain ⟨hlevel, htrip, hothers⟩ := tripInput_shows hm (wcSide s m true || wcSide s m false) (sidesTaken m s)
    exact ⟨hlevel, fun _ => htrip.trans hlevel.symm, fun n hn => (hsides n hn).trans (hothers n hn)⟩

/-- One side of a comparator whose thresholds have settled. -/
theorem wcSide_settled {s : State} {n : Nat} (hold : (tblGet s.conv.wcOld (0, []) n).1 + 800 ≤ s.now) (high : Bool) :
    wcSide s n high = (wbit (wcCtrl s n) (if high then 31 else 30) && sideNext high (tblGet s.conv.ain 0 (wcSel s n))
      (if high then field (wcCtrl s n) 19 10 else field (wcCtrl s n) 9 0) ((if high then s.conv.wcHi else s.conv.wcLo).testBit n)) := by
  have hwords : wcWords s n = [wcCtrl s n] := by
    unfold wcWords
    dsimp only
    rw [if_neg (by unfold usTicks; omega)]
  unfold wcSide
  rw [hwords]
  cases wbit (wcCtrl s n) (if high then 31 else 30) <;> simp

/-- The comparators of input `pin` are evaluated, up to `k`. -/
def evalPin (pin k : Nat) (s : State) : State := forUpTo k (fun m s => if wcSel s m = pin then wcEval m s else s) s

theorem evalPin_shows {pin n : Nat} (hn : n < 24) {s : State} (hpin : wcSel s n = pin) (k : Nat) (hk : k ≤ 24) :
    (k ≤ n → Aloof n s (evalPin pin k s)) ∧
    (n < k → ∃ u, Aloof n s u ∧ (evalPin pin k s).conv.wcLevel.testBit n = (wcEval n u).conv.wcLevel.testBit n ∧
      (evalPin pin k s).hatch.tripIn.testBit n = (wcEval n u).hatch.tripIn.testBit n) := by
  induction k with
  | zero => exact ⟨fun _ => .refl n s, fun h => absurd h (by omega)⟩
  | succ k ih =>
    obtain ⟨hbefore, hafter⟩ := ih (by omega)
    have hstep : evalPin pin (k + 1) s = if wcSel (evalPin pin k s) k = pin then wcEval k (evalPin pin k s) else evalPin pin k s := rfl
    have hother (hkn : n ≠ k) : Aloof n (evalPin pin k s) (evalPin pin (k + 1) s) := by
      rw [hstep]
      exact rel_ite ((wcEval_shows (by omega) _).2.2 n hkn) (.refl _ _)
    refine ⟨fun h => (hbefore (by omega)).trans (hother (by omega)), fun h => ?_⟩
    by_cases hkn : k = n
    · subst hkn
      have hal := hbefore (le_refl k)
      have hsel : wcSel (evalPin pin k s) k = pin := by
        unfold wcSel
        rw [hal.ctrl k hn]
        exact hpin
      refine ⟨_, hal, ?_, ?_⟩ <;> rw [hstep, if_pos hsel]
    · obtain ⟨u, hu, hlevel, htrip⟩ := hafter (by omega)
      have ho := hother (Ne.symm hkn)
      exact ⟨u, hu, ho.level.trans hlevel, ho.trip.trans htrip⟩

/-- A comparator whose thresholds have settled: outside a threshold it is active, inside both by more than the hysteresis inactive. -/
theorem settled_level {s : State} {n : Nat} {x : Int} (hold : (tblGet s.conv.wcOld (0, []) n).1 + 800 ≤ s.now)
    (hx : tblGet s.conv.ain 0 (wcSel s n) = x) :
    (wbit (wcCtrl s n) 31 = true → (field (wcCtrl s n) 19 10 : Int) * 2 ^ 14 < x → (wcSide s n true || wcSide s n false) = true) ∧
    (wbit (wcCtrl s n) 30 = true → x < (field (wcCtrl s n) 9 0 : Int) * 2 ^ 14 → (wcSide s n true || wcSide s n false) = true) ∧
    ((wbit (wcCtrl s n) 31 = false ∨ x < (field (wcCtrl s n) 19 10 : Int) * 2 ^ 14 - 2 ^ 15) →
      (wbit (wcCtrl s n) 30 = false ∨ (field (wcCtrl s n) 9 0 : Int) * 2 ^ 14 + 2 ^ 15 < x) →
      (wcSide s n true || wcSide s n false) = false) := by
  have hhi := wcSide_settled hold true
  have hlo := wcSide_settled hold false
  rw [hx] at hhi hlo
  simp only [if_true, Bool.false_eq_true, if_false, sideNext] at hhi hlo
  rw [hhi, hlo]
  refine ⟨fun he hlt => ?_, fun he hlt => ?_, fun hh hl => Bool.or_eq_false_iff.2 ⟨?_, ?_⟩⟩
  · simp only [he, hlt, decide_true, Bool.true_or, Bool.and_self]
  · simp only [he, hlt, decide_true, Bool.true_or, Bool.and_self, Bool.or_true]
  · rcases hh with h | h
    · simp [h]
    · have hn : ¬((field (wcCtrl s n) 19 10 : Int) * 2 ^ 14 < x) := by omega
      simp only [hn, h, decide_true, decide_false, Bool.not_true, Bool.and_false, Bool.or_false]
  · rcases hl with h | h
    · simp [h]
    · have hn : ¬(x < (field (wcCtrl s n) 9 0 : Int) * 2 ^ 14) := by omega
      simp only [hn, h, decide_true, decide_false, Bool.not_true, Bool.and_false, Bool.or_false]

/-- The level of input `pin` is `x`. -/
def pinSet (pin : Nat) (x : Int) (s : State) : State := updConv s fun c => { c with ain := tblSet c.ain 0 pin x }

theorem wcChange_shows {s : State} {n : Nat} (x : Int) (hn : n < 24) (hruns : wcRuns s = true)
    (hold : (tblGet s.conv.wcOld (0, []) n).1 + 800 ≤ s.now) : ∃ t, exec (.wcOutputChange n x) s = .next t ∧
      (wbit (wcCtrl s n) 31 = true → (field (wcCtrl s n) 19 10 : Int) * 2 ^ 14 < x → t.conv.wcLevel.testBit n = true) ∧
      (wbit (wcCtrl s n) 30 = true → x < (field (wcCtrl s n) 9 0 : Int) * 2 ^ 14 → t.conv.wcLevel.testBit n = true) ∧
      ((wbit (wcCtrl s n) 31 = false ∨ x < (field (wcCtrl s n) 19 10 : Int) * 2 ^ 14 - 2 ^ 15) →
        (wbit (wcCtrl s n) 30 = false ∨ (field (wcCtrl s n) 9 0 : Int) * 2 ^ 14 + 2 ^ 15 < x) →
        t.conv.wcLevel.testBit n = false) ∧
      (s.hatch.tripIn.testBit n = s.conv.wcLevel.testBit n → t.hatch.tripIn.testBit n = t.conv.wcLevel.testBit n) ∧
      t.plate = s.plate ∧ t.nv = s.nv ∧ t.mem.cells = s.mem.cells := by
  have hexec : exec (.wcOutputChange n x) s = .next (evalPin (wcSel s n) 24 (pinSet (wcSel s n) x s)) :=
    congrArg Host.Outcome.next ((if_neg (by omega)).trans (if_pos hruns))
  have hcalm : Calm s (evalPin (wcSel s n) 24 (pinSet (wcSel s n) x s)) :=
    Calm.trans (.parts s _ s.hatch s.free) (calm_kept.forUpTo (fun m u => rel_ite (calm_wcEval m u) (.refl u)) _)
  obtain ⟨u, hu, hlevel, htrip⟩ := (evalPin_shows (s := pinSet (wcSel s n) x s) (pin := wcSel s n) hn rfl 24 (le_refl 24)).2 hn
  obtain ⟨hshow, hfollow, _⟩ := wcEval_shows hn u
  have hctrl : wcCtrl u n = wcCtrl s n := hu.ctrl n hn
  have holdU : (tblGet u.conv.wcOld (0, []) n).1 + 800 ≤ u.now := by rw [hu.old, hu.now]; exact hold
  have hain : tblGet u.conv.ain 0 (wcSel u n) = x := by
    unfold wcSel
    rw [hctrl, hu.ain]
    exact tblGet_write_self _ _ _ _
  obtain ⟨h1, h2, h3⟩ := settled_level holdU hain
  rw [hctrl, ← hshow, ← hlevel] at h1 h2 h3
  refine ⟨_, hexec, h1, h2, h3, fun hsame => ?_, hcalm.plate, hcalm.nv, hcalm.cells⟩
  exact htrip.trans ((hfollow (hu.trip.trans (hsame.trans hu.level.symm))).trans hlevel.symm)

/-! DELAYLINE_CALIBRATION. -/

theorem delayline_fails {s : State} {tb : Nat} (hworks : tripsWork s = true) (htb : tb < 4) :
    ∃ t, exec (.delaylineCalibration tb false) s = .next t ∧ (t.tb tb).dlFault = true ∧ Raised s t 0x0502 tb [] ∧
      t.nv = s.nv ∧ t.mem.cells = s.mem.cells := by
  have hop : s.op ≠ .shutdown := by
    unfold tripsWork at hworks
    simp only [Bool.and_eq_true, decide_eq_true_eq] at hworks
    exact hworks.2
  have htest : underTest s 5 = false := by
    unfold underTest
    simp [hop]
  have hexec : exec (.delaylineCalibration tb false) s = .next (raise (s.updTb tb fun b => { b with dlFault := true }) 0x0502 tb []) :=
    congrArg Host.Outcome.next (if_neg (by rw [htest]; simp; omega))
  have hev := ev_raise (code := 0x0502) (idx := tb) (args := []) (.refl (s.updTb tb fun b => { b with dlFault := true }))
  have hraised := raise_raises (s.updTb tb fun b => { b with dlFault := true }) (code := 0x0502) (by decide) tb []
  generalize raise (s.updTb tb fun b => { b with dlFault := true }) 0x0502 tb [] = t at *
  refine ⟨t, hexec, ?_, hraised, hev.nv, hev.mem_cells⟩
  have htbs : t.tb tb = (s.updTb tb fun b => { b with dlFault := true }).tb tb := by
    unfold State.tb
    rw [hev.hatch_tbs]
  rw [htbs, tb_updTb, if_pos rfl]

/-- Settles O28: a source acts once, through its latch; a settled comparator follows its input; a failed calibration raises. -/
theorem tripInputs : Obligations.TripInputs := by
  unfold Obligations.TripInputs
  intro s hworks
  refine ⟨fun n hn hclear haction hactive => ?_, fun n a h24 hn hidle => trip_notes a h24 hn hidle,
    fun n a hn hruns hsame => trip_stays a hn hruns hsame, fun n x hn hruns hold => wcChange_shows x hn hruns hold,
    fun tb htb => ⟨congrArg Host.Outcome.next (if_pos (.inl rfl)), delayline_fails hworks htb⟩⟩
  obtain ⟨t, hexec, h⟩ := trip_sets hn hworks haction hclear hactive
  exact ⟨t, hexec, h.latches, h.raised, h.input, h.calm.plate, h.calm.nv, h.calm.cells⟩

end Sys2Proof.Proofs
end

section
/-!
PROOFS. SEQ_LOAD, CONV_URGENT and CAL_STATUS (R146 to R149, R153, R160).
-/
namespace Sys2Proof.Proofs
open Sys2Proof.Machine Sys2Proof.Safety Sys2Proof.Laws

/-- A reference conversion touches the slice of the calibration's target alone. -/
theorem startReference_target (s : State) : (∀ i, i ≠ s.conv.target → (startReference s).slice i = s.slice i) ∧
    ∃ X, startReference s = { s with conv := { s.conv with slices := X } } := by
  have heq : startReference s = if s.conv.phase = .shadow ∧ !sliceUsed s s.conv.target ∧ s.conv.pairs < 256 ∧
      (s.slice s.conv.target).conv = none ∧ (s.slice s.conv.target).urgent = none then
      s.updSlice s.conv.target fun c => { c with conv := some { what := .reference, input := 0, start := s.now, shift := false } }
    else s := rfl
  rw [heq]
  split
  · exact ⟨fun i hi => (slice_updSlice s _ i _).trans (if_neg hi), _, rfl⟩
  · exact ⟨fun _ _ => rfl, _, rfl⟩

section
variable {s : State} {tag : Nat}

/-- A sequence whose list and trigger wait for its next trigger. -/
def loadedSeq (c : Nat) (l : List Word) (q : Seq) : Seq := { q with trigger := c, newList := some l }

theorem seqLoad_loads {w : Word} {l : List Word} (h : Starts s tag 0x50 (w :: l)) (hbits : hasBits w 0xFF0080E0 = false)
    (hentries : l.any entryBad = false) (hcount : field w 14 8 = l.length) (hpos : 0 < l.length) (hmax : l.length ≤ 64)
    (htrig : triggerOk (field w 23 16) = true) (hclash : listClash l = false) (hctx : ctxBeyond s (field w 4 0) l.length = false) :
    ∃ t, exec (.seqLoad tag) s = .next t ∧ Replied s t tag 0 [] ∧ seqStored (t.sequ (field w 4 0)) = l ∧
      (t.sequ (field w 4 0)).trigger = field w 23 16 ∧ (t.sequ (field w 4 0)).entries = (s.sequ (field w 4 0)).entries ∧
      (t.sequ (field w 4 0)).pend = (s.sequ (field w 4 0)).pend ∧ (t.sequ (field w 4 0)).run = (s.sequ (field w 4 0)).run ∧
      (∀ m, m ≠ field w 4 0 → t.sequ m = s.sequ m) ∧ (∀ i, i ≠ s.conv.target → t.slice i = s.slice i) ∧
      t = { s with folio := t.folio, conv := { s.conv with seqs := t.conv.seqs, slices := t.conv.slices } } := by
  have hb : bodySeqLoad (w :: l) (begun s tag) =
      .done stOk [] (startReference ((begun s tag).updSeq (field w 4 0) (loadedSeq (field w 23 16) l))) := by
    refine checked_nil _ ?_ _
    have hctx' : ctxBeyond (begun s tag) (field w 4 0) (field w 14 8) = false := by rw [hcount]; exact hctx
    simp only [List.mem_singleton, forall_eq, pw, List.getD_cons_zero, List.tail_cons, Bool.or_eq_false_iff]
    exact ⟨⟨⟨⟨⟨⟨⟨hbits, hentries⟩, decide_eq_false (by omega)⟩, decide_eq_false (by omega)⟩, decide_eq_false (by omega)⟩, by rw [htrig]; rfl⟩,
      hclash⟩, hctx'⟩
  obtain ⟨hslices, X, hframe⟩ := startReference_target ((begun s tag).updSeq (field w 4 0) (loadedSeq (field w 23 16) l))
  have hsequ (m : Nat) : (startReference ((begun s tag).updSeq (field w 4 0) (loadedSeq (field w 23 16) l))).sequ m =
      if m = field w 4 0 then loadedSeq (field w 23 16) l (s.sequ (field w 4 0)) else s.sequ m := by
    refine Eq.trans ?_ (sequ_updSeq (begun s tag) (field w 4 0) m (loadedSeq (field w 23 16) l))
    rw [hframe]
    rfl
  generalize startReference ((begun s tag).updSeq (field w 4 0) (loadedSeq (field w 23 16) l)) = u at *
  have hown := (hsequ (field w 4 0)).trans (if_pos rfl)
  obtain ⟨t, ht, hr, f, rfl⟩ := completes h hb (by rw [hframe]; rfl) (by rw [hframe]; rfl)
  refine ⟨_, congrArg Host.Outcome.next ht, hr, congrArg seqStored hown, congrArg Seq.trigger hown, (congrArg Seq.entries hown).trans rfl,
    (congrArg Seq.pend hown).trans rfl, (congrArg Seq.run hown).trans rfl, fun m hm => (hsequ m).trans (if_neg hm), hslices, ?_⟩
  rw [hframe]
  rfl

/-- A slice that a request has come to. -/
def requestedAt (x : Nat × Nat) (c : Slice) : Slice :=
  if c.urgent = none then { c with urgent := some x } else { c with held := c.held ++ [x] }

theorem requestedAt_waits (x : Nat × Nat) (c : Slice) : (requestedAt x c).urgent = some (c.urgent.getD x) ∧
    (requestedAt x c).held = c.held ++ (if c.urgent = none then [] else [x]) := by
  unfold requestedAt
  cases c.urgent <;> simp

theorem convUrgent_waits {w : Word} (h : Starts s tag 0x51 [w]) (hbits : hasBits w 0xFFFFC0F0 = false) :
    ∃ t, exec (.convUrgent tag) s = .next t ∧ Waiting s t tag ∧
      (t.slice (field w 3 0)).urgent = some (((s.slice (field w 3 0)).urgent).getD (tag, field w 13 8)) ∧
      (t.slice (field w 3 0)).held = (s.slice (field w 3 0)).held ++
        (if (s.slice (field w 3 0)).urgent = none then [] else [(tag, field w 13 8)]) ∧
      (∀ i, i ≠ field w 3 0 → t.slice i = s.slice i) ∧ t = { s with folio := t.folio, conv := { s.conv with slices := t.conv.slices } } := by
  have hb : bodyConvUrgent tag [w] (begun s tag) = .wait (urgentRequest (field w 3 0) tag (field w 13 8) (begun s tag)) :=
    checked_nil _ (by simpa [pw] using hbits) _
  obtain ⟨ht, hw⟩ := waits h hb rfl rfl
  have hslice (i : Nat) : (urgentRequest (field w 3 0) tag (field w 13 8) (begun s tag)).slice i =
      if i = field w 3 0 then requestedAt (tag, field w 13 8) (s.slice (field w 3 0)) else s.slice i :=
    slice_updSlice (begun s tag) _ i (requestedAt (tag, field w 13 8))
  have hown := (hslice (field w 3 0)).trans (if_pos rfl)
  obtain ⟨hurgent, hheld⟩ := requestedAt_waits (tag, field w 13 8) (s.slice (field w 3 0))
  exact ⟨_, congrArg Host.Outcome.next ht, hw, (congrArg Slice.urgent hown).trans hurgent, (congrArg Slice.held hown).trans hheld,
    fun i hi => (hslice i).trans (if_neg hi), rfl⟩

theorem calStatus_reads (h : Starts s tag 0x52 []) : ∃ t ws, exec (.calStatus tag) s = .next t ∧
    Replied s t tag 0 (calState s :: parGet s 3 6 :: parGet s 3 7 :: parGet s 3 8 :: ws) ∧ ws.length = 16 ∧
    (∀ i, i < 16 → ws.getD i 0 = wrd (tblGet s.conv.lastResidual 0xFFFF i * 2 ^ 16 + tblGet s.conv.deferLaps 0 i * 2 ^ 8 + lmapOf s i)) ∧
    t = { s with folio := t.folio } := by
  obtain ⟨t, ht, hr, f, rfl⟩ := completes (body := bodyCalStatus) h rfl rfl rfl
  refine ⟨_, (List.range 16).map fun i =>
    wrd (tblGet s.conv.lastResidual 0xFFFF i * 2 ^ 16 + tblGet s.conv.deferLaps 0 i * 2 ^ 8 + lmapOf s i),
    congrArg Host.Outcome.next ht, hr, by simp, fun i hi => ?_, rfl⟩
  simp [List.getD, hi]

end

/-- Settles O29: a loaded list waits for its trigger, an urgent request at its slice; the status is read. -/
theorem converterCommands : Obligations.ConverterCommands := by
  unfold Obligations.ConverterCommands
  intro s tag
  exact ⟨fun w l h hbits hentries hcount hpos hmax htrig hclash hctx =>
      seqLoad_loads h hbits hentries hcount hpos hmax htrig hclash hctx,
    fun w h hbits => convUrgent_waits h hbits, fun h => calStatus_reads h⟩

end Sys2Proof.Proofs
end

section
/-!
PROOFS. SEQ_START, URGENT_START, CONVERSION_DONE and TRIGGER_COMPARE (R139 to R142, R148, R149, R217).
-/
namespace Sys2Proof.Proofs
open Sys2Proof.Machine Sys2Proof.Safety Sys2Proof.Laws

/-! SEQ_START. -/

/-- From `s` to `u` only the slices changed. -/
def SlicesOnly (s u : State) : Prop := ∃ X, u = { s with conv := { s.conv with slices := X } }

theorem SlicesOnly.refl (s : State) : SlicesOnly s s := ⟨s.conv.slices, rfl⟩

theorem SlicesOnly.trans {s t u : State} (h : SlicesOnly s t) (k : SlicesOnly t u) : SlicesOnly s u := by
  obtain ⟨X, rfl⟩ := h
  obtain ⟨Y, rfl⟩ := k
  exact ⟨Y, rfl⟩

theorem startEntry_slices (i : Nat) (s : State) : SlicesOnly s (startEntry i s) := by
  unfold startEntry
  dsimp only
  split
  · refine rel_ite (.refl s) ?_
    split
    · exact .refl s
    · exact ⟨_, rfl⟩
  · exact .refl s

theorem occupySlice_slices (n : Nat) (list : List Word) (i : Nat) (s : State) : SlicesOnly s (occupySlice n list i s) := by
  unfold occupySlice
  extract_lets urg
  exact SlicesOnly.trans ⟨_, rfl⟩ (startEntry_slices i _)

/-- The run of a sequence that starts now. -/
def runOf (tr : Nat) (l : List Word) (sn : Snap) (now : Nat) : SeqRun := { trig := tr, start := now, entries := l, done := [], snap := sn }

section
variable {s : State} {n tr : Nat} {l : List Word} {sn : Snap}

/-- A sequence that starts later than its trigger says so. -/
def startNoted (n tr : Nat) (s : State) : State :=
  if tr < s.now then record (parCount s 3 0x12 1) 0x0301 n [wrd (s.now - tr)] else s

theorem startNoted_notes (n tr : Nat) (s : State) :
    (tr < s.now → Raised s (startNoted n tr s) 0x0301 n [wrd (s.now - tr)] ∧ parGet (startNoted n tr s) 3 0x12 = counted (parGet s 3 0x12) 1) ∧
    ∃ P Q, startNoted n tr s = { s with par := P, book := { s.book with inq := Q } } := by
  unfold startNoted
  by_cases h : tr < s.now
  · rw [if_pos h]
    have hraised := record_raises (parCount s 3 0x12 1) 0x0301 n [wrd (s.now - tr)]
    have hquiet := record_quiet (s := parCount s 3 0x12 1) (code := 0x0301) (idx := n) (args := [wrd (s.now - tr)]) (by decide) rfl (by decide)
    have hcount := parGet_parCount_self s 3 0x12 1
    generalize record (parCount s 3 0x12 1) 0x0301 n [wrd (s.now - tr)] = u at *
    subst hquiet
    exact ⟨fun _ => ⟨hraised, hcount⟩, _, _, rfl⟩
  · rw [if_neg h]
    exact ⟨fun h' => absurd h' h, s.par, s.book.inq, rfl⟩

theorem seqStart_starts (hpend : (s.sequ n).pend = some (tr, l, sn)) (hruns : convRun s = true) (hcan : seqCanStart s n = true) :
    ∃ t r, exec (.seqStart n) s = .next t ∧
      (t.sequ n).pend = none ∧ (t.sequ n).run = some r ∧ r.trig = tr ∧ r.start = s.now ∧ r.entries = l ∧ r.snap = sn ∧
      (tr < s.now → Raised s t 0x0301 n [wrd (s.now - tr)] ∧ parGet t 3 0x12 = counted (parGet s 3 0x12) 1) ∧
      (∀ m, m ≠ n → t.sequ m = s.sequ m) ∧
      t = { s with par := t.par, conv := { s.conv with seqs := t.conv.seqs, slices := t.conv.slices }, book := { s.book with inq := t.book.inq } } := by
  have heq : seqStart n s = forEach (listSlices l) (fun i s => occupySlice n l i s) (startNoted n tr
      (s.updSeq n fun q => { q with pend := none, run := some (runOf tr l sn s.now) })) := by
    unfold seqStart
    rw [hpend]
    rfl
  have hexec : exec (.seqStart n) s = .next (seqStart n s) := congrArg Host.Outcome.next (if_pos ⟨hruns, hcan⟩)
  have hsequ (m : Nat) := sequ_updSeq s n m fun q => { q with pend := none, run := some (runOf tr l sn s.now) }
  obtain ⟨hnote, P, Q, hframe⟩ := startNoted_notes n tr (s.updSeq n fun q => { q with pend := none, run := some (runOf tr l sn s.now) })
  have hslices : SlicesOnly (startNoted n tr (s.updSeq n fun q => { q with pend := none, run := some (runOf tr l sn s.now) })) (seqStart n s) := by
    rw [heq]
    exact forEach_rel SlicesOnly.refl SlicesOnly.trans (fun i u => occupySlice_slices n l i u) _ _
  generalize startNoted n tr (s.updSeq n fun q => { q with pend := none, run := some (runOf tr l sn s.now) }) = u at *
  generalize seqStart n s = t at *
  obtain ⟨X, rfl⟩ := hslices
  subst hframe
  have hown := (hsequ n).trans (if_pos rfl)
  refine ⟨_, runOf tr l sn s.now, hexec, (congrArg Seq.pend hown).trans rfl, (congrArg Seq.run hown).trans rfl, rfl, rfl, rfl, rfl, hnote,
    fun m hm => (hsequ m).trans (if_neg hm), rfl⟩

/-! URGENT_START. -/

theorem urgentStart_starts {i tag inp : Nat} (hurgent : (s.slice i).urgent = some (tag, inp)) (hruns : convRun s = true)
    (hcan : urgentCanStart s i = true) : ∃ t c, exec (.urgentStart i) s = .next t ∧
      (t.slice i).conv = some c ∧ c.what = .urgent tag ∧ c.input = inp ∧ c.start = s.now ∧
      (t.slice i).urgent = (s.slice i).held.head? ∧ (t.slice i).held = (s.slice i).held.tail ∧
      (∀ j, j ≠ i → t.slice j = s.slice j) ∧ t = { s with conv := { s.conv with slices := t.conv.slices } } := by
  have heq : urgentStart i s = s.updSlice i fun c => { c with
      conv := some { what := .urgent tag, input := inp, start := s.now, shift := false },
      urgent := c.held.head?, held := c.held.tail, urgUsed := c.owner ≠ none, shift := c.owner ≠ none } := by
    unfold urgentStart
    rw [hurgent]
  have hexec : exec (.urgentStart i) s = .next (urgentStart i s) := congrArg Host.Outcome.next (if_pos ⟨hruns, hcan⟩)
  rw [heq] at hexec
  have hslice (j : Nat) := slice_updSlice s i j fun c => { c with
      conv := some { what := .urgent tag, input := inp, start := s.now, shift := false },
      urgent := c.held.head?, held := c.held.tail, urgUsed := c.owner ≠ none, shift := c.owner ≠ none }
  have hown := (hslice i).trans (if_pos rfl)
  exact ⟨_, { what := .urgent tag, input := inp, start := s.now, shift := false }, hexec, congrArg Slice.conv hown, rfl, rfl, rfl,
    congrArg Slice.urgent hown, congrArg Slice.held hown, fun j hj => (hslice j).trans (if_neg hj), rfl⟩

/-! CONVERSION_DONE of an urgent conversion. -/

/-- Slice `i` is free. -/
def sliceFreed (i : Nat) (s : State) : State := s.updSlice i fun x => { x with conv := none }

theorem startEntry_free {i : Nat} (h : (s.slice i).owner = none) : startEntry i s = s := by
  unfold startEntry
  dsimp only
  rw [h]

theorem conversionEnd_urgent {i tag : Nat} {c : Conv} (code : BitVec 14) (side : Bool) (tcode : BitVec 14) (tovr : Bool)
    (hwhat : c.what = .urgent tag) (howner : (s.slice i).owner = none) (hphase : s.conv.phase ≠ .shadow) :
    conversionEnd i c code false side tcode tovr s =
      completeTag tag stOk (resultWord i c code false side :: twoWords (c.start + 12)) (parCount (sliceFreed i s) 3 0x13 1) := by
  have hshadow : shadowed (sliceFreed i s) i c = false := by
    have hp : (sliceFreed i s).conv.phase ≠ .shadow := hphase
    simp [shadowed, hp]
  unfold conversionEnd
  extract_lets w a b o d
  have hb : b = a := if_neg (by rw [show shadowed a i c = false from hshadow]; decide)
  have ho : o = a := (if_neg (by decide)).trans hb
  have hd : d = completeTag tag stOk (w :: twoWords (c.start + 12)) (parCount a 3 0x13 1) := by
    rw [← ho]
    simp only [d, hwhat]
  have hconv : d.conv = a.conv := by rw [hd, completeTag_conv]; rfl
  have hslice : (d.slice i).owner = none := by
    have hda : d.slice i = a.slice i := by
      unfold State.slice
      rw [hconv]
    rw [hda, show a.slice i = _ from (slice_updSlice s i i _).trans (if_pos rfl)]
    exact howner
  have hph : d.conv.phase ≠ .shadow := by rw [hconv]; exact hphase
  rw [startEntry_free hslice]
  exact (if_neg fun h => hph h.1).trans hd

theorem urgentDone_answers {i tag : Nat} {c : Conv} {e : TagEntry} (code : BitVec 14) (side : Bool) (tcode : BitVec 14) (tovr : Bool)
    (hi : i < 16) (hconv : (s.slice i).conv = some c) (hwhat : c.what = .urgent tag) (hdone : c.start + 40 ≤ s.now)
    (howner : (s.slice i).owner = none) (hphase : s.conv.phase ≠ .shadow) (htag : tag < 1024) (he : tagEntry s tag = some e)
    (hrun : e.phase = .running) (hruns : convRun s = true) : ∃ t, exec (.conversionDone i code false side tcode tovr) s = .next t ∧
      Replied s t tag 0 [resultWord i c code false side, wrd (c.start + 12), wrd ((c.start + 12) / 2 ^ 32)] ∧
      (t.slice i).conv = none ∧ parGet t 3 0x13 = counted (parGet s 3 0x13) 1 ∧ (∀ j, j ≠ i → t.slice j = s.slice j) ∧
      t = { s with par := t.par, folio := t.folio, conv := { s.conv with slices := t.conv.slices } } := by
  have hslice (j : Nat) : (sliceFreed i s).slice j = if j = i then { s.slice i with conv := none } else s.slice j := slice_updSlice s i j _
  have hcount : parGet (parCount (sliceFreed i s) 3 0x13 1) 3 0x13 = counted (parGet s 3 0x13) 1 := parGet_parCount_self (sliceFreed i s) 3 0x13 1
  obtain ⟨hanswer, hreplied⟩ := completeTag_replied (s := s) (u := parCount (sliceFreed i s) 3 0x13 1) (status := stOk)
    (ws := resultWord i c code false side :: twoWords (c.start + 12)) htag he (by rw [hrun]; decide) rfl rfl
  have hexec : exec (.conversionDone i code false side tcode tovr) s =
      .next (completeTag tag stOk (resultWord i c code false side :: twoWords (c.start + 12)) (parCount (sliceFreed i s) 3 0x13 1)) := by
    show execConversionDone i code false side tcode tovr s = _
    unfold execConversionDone
    rw [hconv]
    exact congrArg Host.Outcome.next ((if_pos ⟨hi, hruns, hdone⟩).trans (conversionEnd_urgent code side tcode tovr hwhat howner hphase))
  refine ⟨_, hexec, hreplied, ?_, ?_, fun j hj => ?_, ?_⟩
  · rw [hanswer]
    exact congrArg Slice.conv ((hslice i).trans (if_pos rfl))
  · rw [hanswer]
    exact hcount
  · rw [hanswer]
    exact (hslice j).trans (if_neg hj)
  · rw [hanswer]
    rfl

end

/-! TRIGGER_COMPARE. -/

/-- What waits for a sequence, but for the snapshots. -/
def dueKeys (q : Seq) : List (Nat × List Word) := q.due.map fun x => (x.1, x.2.1)

/-- From `s` to `u` the triggers that wait for each sequence are as they were but for their snapshots. -/
def DueKept (s u : State) : Prop := ∀ n, dueKeys (u.sequ n) = dueKeys (s.sequ n)

theorem dueKept_of_conv {s u : State} (h : u.conv = s.conv) : DueKept s u := fun n => by
  unfold State.sequ
  rw [h]

theorem dueKept_patchRecs (n t : Nat) (r : PosRec) (s : State) : DueKept s (patchRecs n t r s) := by
  refine forUpTo_rel (R := DueKept) (fun _ _ => rfl) (fun h k m => (k m).trans (h m)) (fun m _ u => rel_ite (fun k => ?_) fun _ => rfl) s
  rw [sequ_updSeq]
  split
  next hk =>
    subst hk
    unfold dueKeys
    simp only [List.map_map]
    refine List.map_congr_left fun x _ => ?_
    simp only [Function.comp]
    split <;> rfl
  next => rfl

theorem dueKept_captureRel : CaptureRel DueKept where
  refl _ _ := rfl
  trans h k n := (k n).trans (h n)
  ev h := dueKept_of_conv h.conv
  pos _ _ _ := rfl
  patch := dueKept_patchRecs

/-- Trigger code `code` of tick `t` is sent to sequence `n` where it is enabled and names it. -/
def sentTo (code t : Nat) (s : State) (n : Nat) : List (Nat × List Word) :=
  if seqEnabled s n = true ∧ (s.sequ n).trigger = code then [(t, seqStored (s.sequ n))] else []

/-- Trigger code `code` of tick `t` is sent to sequence `n`. -/
def sendTo (code t n : Nat) (s : State) : State := if seqEnabled s n ∧ (s.sequ n).trigger = code ∧ code ≠ 0 then seqFired n t s else s

theorem fireSequences_eq (code t : Nat) (s : State) : fireSequences code t s = forUpTo 32 (sendTo code t) s := rfl

theorem sendTo_sends {code : Nat} (hcode : code ≠ 0) (t n : Nat) (s : State) :
    (∀ m, m ≠ n → (sendTo code t n s).sequ m = s.sequ m) ∧ dueKeys ((sendTo code t n s).sequ n) = dueKeys (s.sequ n) ++ sentTo code t s n ∧
    (sendTo code t n s).par = s.par := by
  unfold sendTo sentTo
  by_cases h : seqEnabled s n = true ∧ (s.sequ n).trigger = code
  · rw [if_pos ⟨h.1, h.2, hcode⟩, if_pos h]
    have hsequ (m : Nat) := sequ_updSeq s n m fun q => { q with due := q.due ++ [(t, seqStored q, takeSnap s)] }
    refine ⟨fun m hm => (hsequ m).trans (if_neg hm), ?_, rfl⟩
    rw [show (seqFired n t s).sequ n = _ from (hsequ n).trans (if_pos rfl)]
    simp [dueKeys]
  · rw [if_neg fun hc => h ⟨hc.1, hc.2.1⟩, if_neg h, List.append_nil]
    exact ⟨fun _ _ => rfl, rfl, rfl⟩

theorem fireSequences_sends {code : Nat} (hcode : code ≠ 0) (t k : Nat) (s : State) :
    (∀ n, k ≤ n → (forUpTo k (sendTo code t) s).sequ n = s.sequ n) ∧
    (∀ n, n < k → dueKeys ((forUpTo k (sendTo code t) s).sequ n) = dueKeys (s.sequ n) ++ sentTo code t s n) ∧
    (forUpTo k (sendTo code t) s).par = s.par := by
  induction k with
  | zero => exact ⟨fun _ _ => rfl, fun n hn => absurd hn (by omega), rfl⟩
  | succ k ih =>
    obtain ⟨hlater, hdone, hpar⟩ := ih
    obtain ⟨hothers, hown, hpar'⟩ := sendTo_sends hcode t k (forUpTo k (sendTo code t) s)
    have hstep : forUpTo (k + 1) (sendTo code t) s = sendTo code t k (forUpTo k (sendTo code t) s) := rfl
    have hsent : sentTo code t (forUpTo k (sendTo code t) s) k = sentTo code t s k := by
      unfold sentTo seqEnabled parGet
      rw [hpar, hlater k (le_refl k)]
    rw [hstep]
    refine ⟨fun n hn => (hothers n (by omega)).trans (hlater n (by omega)), fun n hn => ?_, hpar'.trans hpar⟩
    by_cases hnk : n = k
    · rw [hnk, hown, hsent, hlater k (le_refl k)]
    · rw [hothers n hnk, hdone n (by omega)]

theorem fireTrigger_sends {code : Nat} (hcode : code ≠ 0) (t : Nat) {n : Nat} (hn : n < 32) (s : State) :
    dueKeys ((fireTrigger code t s).sequ n) = dueKeys (s.sequ n) ++ sentTo code t s n := by
  have hsent := (fireSequences_sends hcode t 32 s).2.1 n hn
  rw [← fireSequences_eq] at hsent
  have hkept : DueKept (fireSequences code t s) (fireTrigger code t s) := by
    refine forUpTo_rel dueKept_captureRel.refl dueKept_captureRel.trans (fun m _ u => ?_) _
    extract_lets v
    have hv : DueKept u v := rel_ite (dueKept_captureRel.trans (captureBefore_rel dueKept_captureRel m t u) (dueKept_of_conv rfl)) fun _ => rfl
    exact dueKept_captureRel.trans hv (rel_ite (dueKept_of_conv rfl) fun _ => rfl)
  exact (hkept n).trans hsent

theorem triggerCompare_sends {s : State} {tb k : Nat} (htb : tb < 4) (hk : k < 6) (hnow : triggerNow s tb k = true)
    (hpassed : triggerPassed s tb k = none) (hfired : tblGet (s.tb tb).fired none k ≠ some s.now) :
    ∃ t, exec (.triggerCompare tb k) s = .next t ∧
      (∀ n, n < 32 → (t.sequ n).due.map (fun x => (x.1, x.2.1)) = (s.sequ n).due.map (fun x => (x.1, x.2.1)) ++
        (if seqEnabled s n = true ∧ (s.sequ n).trigger = 0x10 + 6 * tb + k then [(s.now, seqStored (s.sequ n))] else [])) ∧
      ((∀ m, m < 12 → (s.src m).capDue = none) → t.drives = s.drives) ∧ t.nv = s.nv ∧ t.mem.cells = s.mem.cells := by
  have hexec : exec (.triggerCompare tb k) s = .next (fireTrigger (0x10 + 6 * tb + k) s.now
      (s.updTb tb fun b => { b with fired := tblSet b.fired none k (some s.now) })) := by
    show execTriggerCompare tb k s = _
    unfold execTriggerCompare
    rw [if_neg (by omega), hpassed]
    exact congrArg Host.Outcome.next ((if_pos hnow).trans (if_neg hfired))
  have hoff := fireTrigger_rel (offGraver_triggerRel s.now) (0x10 + 6 * tb + k)
    (s.updTb tb fun b => { b with fired := tblSet b.fired none k (some s.now) })
  refine ⟨_, hexec, fun n hn => fireTrigger_sends (by omega) s.now hn _, fun hidle => ?_, hoff.nv, hoff.cells⟩
  obtain ⟨P, X, Q, hframe⟩ := (fireTrigger_rel (quiet_triggerRel s.now) (0x10 + 6 * tb + k)
    (s.updTb tb fun b => { b with fired := tblSet b.fired none k (some s.now) }) fun m hm => .inl (hidle m hm)).2
  rw [hframe]
  rfl

/-- Settles O31: each of the four takes the branch that its conditions name. -/
theorem conversionFlow : Obligations.ConversionFlow := by
  unfold Obligations.ConversionFlow
  intro s hruns
  exact ⟨fun n tr l sn hpend hcan => seqStart_starts hpend hruns hcan, fun i tag inp hurgent hcan => urgentStart_starts hurgent hruns hcan,
    fun i c tag e code side tcode tovr hi hconv hwhat hdone howner hphase htag he hrun =>
      urgentDone_answers code side tcode tovr hi hconv hwhat hdone howner hphase htag he hrun hruns,
    fun tb k htb hk hnow hpassed hfired => triggerCompare_sends htb hk hnow hpassed hfired⟩

end Sys2Proof.Proofs
end

section
/-!
PROOFS. The rotation of the slices (R156 to R159).
-/
namespace Sys2Proof.Proofs
open Sys2Proof.Machine Sys2Proof.Safety Sys2Proof.Laws

/-- What the step to the next target leaves: the lap times, and of the converters the place in the rotation. -/
structure NextTarget (s t : State) : Prop where
  frame : ∃ P C, t = { s with par := P, conv := C }
  target : t.conv.target = (s.conv.target + 1) % 16
  lmap : t.conv.lmap = s.conv.lmap
  tracing : t.conv.tracing = s.conv.tracing
  seqs : t.conv.seqs = s.conv.seqs
  deferLaps : t.conv.deferLaps = s.conv.deferLaps
  lastResidual : t.conv.lastResidual = s.conv.lastResidual
  par : ∀ i, i < 65536 → i ≠ 6 → i ≠ 7 → parGet t 3 i = parGet s 3 i

/-- At the end of a lap its time is kept, and the longest. -/
def lapNoted (s : State) : State :=
  if s.conv.target = 15 then
    (let u := parSet s 3 6 (wrd ((s.now - s.conv.lapStart) / usTicks))
     if parNat u 3 7 < (s.now - s.conv.lapStart) / usTicks then parSet u 3 7 (wrd ((s.now - s.conv.lapStart) / usTicks)) else u)
  else s

theorem lapNoted_notes (s : State) : (∃ P, lapNoted s = { s with par := P }) ∧
    ∀ i, i < 65536 → i ≠ 6 → i ≠ 7 → parGet (lapNoted s) 3 i = parGet s 3 i := by
  have hset (u : State) (j i : Nat) (v : Word) (hj : j < 65536) (hi : i < 65536) (hne : i ≠ j) : parGet (parSet u 3 j v) 3 i = parGet u 3 i :=
    (parGet_parSet u hj hi v).trans (if_neg fun h => hne h.2)
  unfold lapNoted
  split
  · dsimp only
    split
    · exact ⟨⟨_, rfl⟩, fun i hi h6 h7 => (hset _ 7 i _ (by decide) hi h7).trans (hset s 6 i _ (by decide) hi h6)⟩
    · exact ⟨⟨_, rfl⟩, fun i hi h6 _ => hset s 6 i _ (by decide) hi h6⟩
  · exact ⟨⟨s.par, rfl⟩, fun _ _ _ _ => rfl⟩

theorem nextStep_steps (s : State) : NextTarget s (nextStep s) := by
  have heq : nextStep s =
      (let u := updConv (lapNoted s) fun c => { c with target := (c.target + 1) % 16, pairs := 0, sum := 0, phase := .idle }
       if wbit (parGet u 3 0) 16 then beginStep u else u) := rfl
  obtain ⟨⟨P, hP⟩, hpar⟩ := lapNoted_notes s
  rw [heq]
  generalize lapNoted s = u at *
  subst hP
  dsimp only
  split
  · exact ⟨⟨_, _, rfl⟩, rfl, rfl, rfl, rfl, rfl, rfl, hpar⟩
  · exact ⟨⟨_, _, rfl⟩, rfl, rfl, rfl, rfl, rfl, rfl, hpar⟩

section
variable {s : State}

/-! CAL_SELF_DONE. -/

/-- The tracing slice has its trims, and its shadow starts. -/
def shadowBegun (s : State) : State := shadowStart (calTrim s.conv.tracing (updConv s fun c => { c with phase := .shadow }))

theorem calSelfDone_starts (hphase : s.conv.phase = .selfCal) (hruns : convRun s = true) : ∃ t, exec (.calSelfDone true) s = .next t ∧
    t.conv.phase = .shadow ∧ t.conv.pairs = 0 ∧ t.conv.sum = 0 ∧ t.conv.shadowAt = s.now ∧ t.conv.target = s.conv.target ∧
    t = { s with conv := t.conv, free := t.free } := by
  have hexec : exec (.calSelfDone true) s = .next (startReference (shadowBegun s)) :=
    congrArg Host.Outcome.next ((if_neg (by simp [hphase, hruns])).trans rfl)
  obtain ⟨_, X, hX⟩ := startReference_target (shadowBegun s)
  have hframe : ∃ C f, shadowBegun s = { s with conv := C, free := f } ∧ C.phase = .shadow ∧ C.pairs = 0 ∧ C.sum = 0 ∧
      C.shadowAt = s.now ∧ C.target = s.conv.target := ⟨_, _, rfl, rfl, rfl, rfl, rfl, rfl⟩
  rw [hX] at hexec
  generalize shadowBegun s = u at *
  obtain ⟨C, f, rfl, hph, hpairs, hsum, hat, htarget⟩ := hframe
  exact ⟨_, hexec, hph, hpairs, hsum, hat, htarget, rfl⟩

theorem calSelfDone_halts (hphase : s.conv.phase = .selfCal) (hruns : convRun s = true) : ∃ t, exec (.calSelfDone false) s = .next t ∧
    t.conv = { s.conv with phase := .halted } ∧ Raised s t 0x0302 0xFFFF [0xFFFFFFFF, wrd s.conv.tracing] ∧
    t = { s with conv := t.conv, book := { s.book with inq := t.book.inq } } := by
  have hexec : exec (.calSelfDone false) s =
      .next (record (updConv s fun c => { c with phase := .halted }) 0x0302 0xFFFF [0xFFFFFFFF, wrd s.conv.tracing]) :=
    congrArg Host.Outcome.next ((if_neg (by simp [hphase, hruns])).trans rfl)
  have hraised := record_raises (updConv s fun c => { c with phase := .halted }) 0x0302 0xFFFF [0xFFFFFFFF, wrd s.conv.tracing]
  rw [record_quiet (by decide) rfl (by decide)] at hexec hraised
  exact ⟨_, hexec, rfl, hraised, rfl⟩

/-! CAL_DECISION. -/

/-- A large residual is kept, and counts a deferral. -/
def deferred (s : State) : State :=
  updConv (parCount s 3 9 1) fun c => { c with
    deferLaps := tblSet c.deferLaps 0 c.target (min 255 (tblGet c.deferLaps 0 c.target + 1)),
    lastResidual := tblSet c.lastResidual 0xFFFF c.target (s.conv.sum.natAbs / 16), grossRun := 0 }

theorem deferStep_defers : ∃ r, deferStep (s.conv.sum.natAbs / 16) false s =
    nextStep (raiseWith (deferred s) r 0x0302 s.conv.target [wrd (s.conv.sum.natAbs / 16), wrd (lmapOf s s.conv.target)]) := by
  unfold deferStep
  extract_lets t laps a b r c
  have hc : c = raiseWith (deferred s) r 0x0302 s.conv.target [wrd (s.conv.sum.natAbs / 16), wrd (lmapOf s s.conv.target)] := rfl
  have hconv : c.conv.grossRun = 0 := by
    rw [hc, (ev_raiseWith (.refl (deferred s))).conv]
    rfl
  refine ⟨r, (if_neg ?_).trans (congrArg nextStep hc)⟩
  omega

theorem calDecision_defers (hphase : s.conv.phase = .shadow) (hruns : convRun s = true) (hpairs : 256 ≤ s.conv.pairs)
    (hat : s.conv.pairsAt + 16 ≤ s.now) (hlarge : 16 < s.conv.sum.natAbs / 16) : ∃ t, exec .calDecision s = .next t ∧
      tblGet t.conv.deferLaps 0 s.conv.target = min 255 (tblGet s.conv.deferLaps 0 s.conv.target + 1) ∧
      parGet t 3 9 = counted (parGet s 3 9) 1 ∧
      Raised s t 0x0302 s.conv.target [wrd (s.conv.sum.natAbs / 16), wrd (lmapOf s s.conv.target)] ∧
      t.conv.lmap = s.conv.lmap ∧ t.nv = s.nv ∧ t.mem.cells = s.mem.cells := by
  obtain ⟨r, hdefer⟩ := deferStep_defers (s := s)
  have hexec : exec .calDecision s =
      .next (nextStep (raiseWith (deferred s) r 0x0302 s.conv.target [wrd (s.conv.sum.natAbs / 16), wrd (lmapOf s s.conv.target)])) := by
    refine congrArg Host.Outcome.next ((if_neg ?_).trans ((if_neg (by omega)).trans hdefer))
    simp [hphase, hruns]
    omega
  have hev := ev_raiseWith (r := r) (code := 0x0302) (idx := s.conv.target) (args := [wrd (s.conv.sum.natAbs / 16), wrd (lmapOf s s.conv.target)])
    (.refl (deferred s))
  have hraised := raiseWith_raises (deferred s) r (code := 0x0302) (by decide) s.conv.target
    [wrd (s.conv.sum.natAbs / 16), wrd (lmapOf s s.conv.target)]
  generalize raiseWith (deferred s) r 0x0302 s.conv.target [wrd (s.conv.sum.natAbs / 16), wrd (lmapOf s s.conv.target)] = u at *
  have hnext := nextStep_steps u
  generalize nextStep u = t at *
  obtain ⟨P, C, hframe⟩ := hnext.frame
  refine ⟨t, hexec, ?_, ?_, ?_, ?_, ?_, ?_⟩
  · rw [hnext.deferLaps, hev.conv]
    exact tblGet_write_self _ _ _ _
  · rw [hnext.par 9 (by decide) (by decide) (by decide), parGet_of_evStep hev (by decide) (by decide) (by decide)]
    exact parGet_parCount_self s 3 9 1
  · rw [hframe]
    exact hraised
  · rw [hnext.lmap, hev.conv]
    rfl
  · rw [hframe]
    exact hev.nv
  · rw [hframe]
    exact hev.mem_cells

theorem calDecision_decides (hphase : s.conv.phase = .shadow) (hruns : convRun s = true) (hpairs : 256 ≤ s.conv.pairs)
    (hat : s.conv.pairsAt + 16 ≤ s.now) (hsmall : s.conv.sum.natAbs / 16 ≤ 16) : ∃ t, exec .calDecision s = .next t ∧
      t.conv.phase = .swapPending ∧ tblGet t.conv.lastResidual 0xFFFF s.conv.target = s.conv.sum.natAbs / 16 ∧
      t.conv.target = s.conv.target ∧ t = { s with conv := t.conv } := by
  have hexec : exec .calDecision s = .next (updConv s fun c => { c with
      phase := .swapPending, lastResidual := tblSet c.lastResidual 0xFFFF c.target (s.conv.sum.natAbs / 16) }) := by
    refine congrArg Host.Outcome.next ((if_neg ?_).trans (if_pos hsmall))
    simp [hphase, hruns]
    omega
  exact ⟨_, hexec, rfl, tblGet_write_self _ _ _ _, rfl, rfl⟩

/-! CAL_SWAP. -/

/-- The tracing slice and the target's have changed places. -/
def placesChanged (s : State) : State :=
  updConv s fun c => { c with
    lmap := tblSet c.lmap c.target c.target c.tracing, tracing := lmapOf s c.target,
    deferLaps := tblSet c.deferLaps 0 c.target 0, grossRun := 0 }

/-- The change is counted, and noted. -/
def swapped (s : State) : State :=
  record (parCount (placesChanged s) 3 8 1) 0x0303 s.conv.target [wrd (lmapOf s s.conv.target), wrd s.conv.tracing]

theorem placesChanged_map (s : State) (i : Nat) : lmapOf (placesChanged s) i = if i = s.conv.target then s.conv.tracing else lmapOf s i := by
  split
  next h => rw [h]; exact tblGet_write_self _ _ _ _
  next h => exact tblGet_write_ne _ _ _ _ h

theorem swapped_swaps (s : State) : (swapped s).conv = (placesChanged s).conv ∧ parGet (swapped s) 3 8 = counted (parGet s 3 8) 1 ∧
    Raised s (swapped s) 0x0303 s.conv.target [wrd (lmapOf s s.conv.target), wrd s.conv.tracing] ∧
    ∃ C P Q, swapped s = { s with conv := C, par := P, book := { s.book with inq := Q } } := by
  have hraised := record_raises (parCount (placesChanged s) 3 8 1) 0x0303 s.conv.target [wrd (lmapOf s s.conv.target), wrd s.conv.tracing]
  have hcount := parGet_parCount_self (placesChanged s) 3 8 1
  have hframe : ∃ P, parCount (placesChanged s) 3 8 1 = { s with conv := (placesChanged s).conv, par := P } := ⟨_, rfl⟩
  unfold swapped
  generalize parCount (placesChanged s) 3 8 1 = u at *
  obtain ⟨P, rfl⟩ := hframe
  rw [record_quiet (by decide) rfl (by decide)] at hraised ⊢
  exact ⟨rfl, hcount, hraised, _, _, _, rfl⟩

theorem calSwap_swaps (hphase : s.conv.phase = .swapPending) (hruns : convRun s = true) (hidle : converting s s.conv.target = false) :
    ∃ t, exec .calSwap s = .next t ∧
      lmapOf t s.conv.target = s.conv.tracing ∧ t.conv.tracing = lmapOf s s.conv.target ∧
      (∀ i, i ≠ s.conv.target → lmapOf t i = lmapOf s i) ∧ parGet t 3 8 = counted (parGet s 3 8) 1 ∧
      Raised s t 0x0303 s.conv.target [wrd (lmapOf s s.conv.target), wrd s.conv.tracing] ∧
      t.conv.target = (s.conv.target + 1) % 16 ∧ t = { s with conv := t.conv, par := t.par, book := { s.book with inq := t.book.inq } } := by
  have hexec : exec .calSwap s = .next (nextStep (swapped s)) :=
    congrArg Host.Outcome.next ((if_neg (by simp [hphase, hruns, hidle])).trans rfl)
  obtain ⟨hconv, hcount, hraised, C, P, Q, hswapped⟩ := swapped_swaps s
  generalize swapped s = u at *
  have hnext := nextStep_steps u
  generalize nextStep u = t at *
  have hlmap (i : Nat) : lmapOf t i = if i = s.conv.target then s.conv.tracing else lmapOf s i := by
    rw [← placesChanged_map]
    unfold lmapOf
    rw [hnext.lmap, hconv]
  obtain ⟨P', C', hframe⟩ := hnext.frame
  refine ⟨t, hexec, ?_, hnext.tracing.trans (congrArg (·.tracing) hconv), fun i hi => ?_, ?_, ?_, ?_, ?_⟩
  · rw [hlmap, if_pos rfl]
  · rw [hlmap, if_neg hi]
  · rw [hnext.par 8 (by decide) (by decide) (by decide), hcount]
  · rw [hframe]
    exact hraised
  · rw [hnext.target, hconv]
    rfl
  · rw [hframe, hswapped]

/-! SHADOW_TIMEOUT. -/

theorem shadowTimeout_counts (hphase : s.conv.phase = .shadow) (hruns : convRun s = true) (hpairs : s.conv.pairs < 256)
    (hused : sliceUsed s s.conv.target = true) (hdue : s.conv.shadowAt + parField s 3 0 15 0 * 400000 ≤ s.now) :
    ∃ t, exec .shadowTimeout s = .next t ∧ parGet t 3 0xA = counted (parGet s 3 0xA) 1 ∧
      t.conv.target = (s.conv.target + 1) % 16 ∧ t.conv.lmap = s.conv.lmap ∧ t.conv.seqs = s.conv.seqs ∧
      t = { s with conv := t.conv, par := t.par } := by
  have hexec : exec .shadowTimeout s = .next (nextStep (updConv (parCount s 3 0xA 1) fun c => { c with grossRun := 0 })) :=
    congrArg Host.Outcome.next (if_pos ⟨hphase, hruns, hpairs, hused, hdue⟩)
  have hcount : parGet (updConv (parCount s 3 0xA 1) fun c => { c with grossRun := 0 }) 3 0xA = counted (parGet s 3 0xA) 1 :=
    parGet_parCount_self s 3 0xA 1
  have hnext := nextStep_steps (updConv (parCount s 3 0xA 1) fun c => { c with grossRun := 0 })
  generalize nextStep (updConv (parCount s 3 0xA 1) fun c => { c with grossRun := 0 }) = t at *
  obtain ⟨P, C, hframe⟩ := hnext.frame
  refine ⟨t, hexec, ?_, hnext.target, hnext.lmap, hnext.seqs, ?_⟩
  · rw [hnext.par 0xA (by decide) (by decide) (by decide), hcount]
  · rw [hframe]
    rfl

end

/-- Settles O32: every end of a step of the rotation goes to the next target, but a good self-calibration and a small residual. -/
theorem calibrationSteps : Obligations.CalibrationSteps := by
  unfold Obligations.CalibrationSteps
  intro s
  exact ⟨fun hphase hruns => ⟨calSelfDone_starts hphase hruns, calSelfDone_halts hphase hruns⟩,
    fun hphase hruns hpairs hat => ⟨fun hsmall => calDecision_decides hphase hruns hpairs hat hsmall,
      fun hlarge => calDecision_defers hphase hruns hpairs hat hlarge⟩,
    fun hphase hruns hidle => calSwap_swaps hphase hruns hidle,
    fun hphase hruns hpairs hused hdue => shadowTimeout_counts hphase hruns hpairs hused hdue⟩

end Sys2Proof.Proofs
end

section
/-!
PROOFS. Hall sets, SSI transfers and SENT frames that move a source (R184 to R193).
-/
namespace Sys2Proof.Proofs
open Sys2Proof.Machine Sys2Proof.Safety Sys2Proof.Laws

theorem idle_of_noCapture {s : State} (h : NoCapture s) (t : Nat) : Idle t s := fun m hm => .inl (h m hm)

theorem Idle.pos {t : Nat} {s u : State} (h : Idle t s) (hsrc : ∀ m, (u.src m).capDue = (s.src m).capDue) : Idle t u :=
  fun m hm => by rw [hsrc m]; exact h m hm

/-! A good frame of a source no capture waits for. -/

/-- Source `q` after a good frame at `now` that puts it at `p'`, sampled at `tick`, but for speed, standstill and direction. -/
def framedBy (now tick : Nat) (p' : BitVec 64) (q : PosSrc) : PosSrc :=
  { q with
    stale := false, badRun := 0, started := true, p := p', tick := tick,
    lastChange := if q.started ∧ p' ≠ q.p then some now else q.lastChange,
    before := some { done := now, p := q.p, dir := q.dir, tick := q.tick, capTick := q.capTick, moved := q.moved,
                     started := q.started, lastChange := q.lastChange } }

/-- The clauses that the frame of an SSI and of a SENT source share: position, sequences, records and the ticks of the speed conditions. -/
structure Framed (n tick : Nat) (p' : BitVec 64) (s t : State) : Prop where
  src : bareSrc (t.src n) = bareSrc (framedBy s.now tick p' (s.src n))
  speeds : SpeedsNoted s t
  frame : t = { s with pos := t.pos, drives := t.drives, conv := { s.conv with seqs := t.conv.seqs },
                       book := { s.book with inq := t.book.inq } }

theorem CountFrame.speedsNoted {s t : State} (h : CountFrame s t) : SpeedsNoted s t := by
  obtain ⟨P, Sq, Q, rfl⟩ := h
  exact fun _ => rfl

theorem CountFrame.framed {s t : State} (h : CountFrame s t) :
    t = { s with pos := t.pos, drives := t.drives, conv := { s.conv with seqs := t.conv.seqs }, book := { s.book with inq := t.book.inq } } := by
  obtain ⟨P, Sq, Q, rfl⟩ := h
  rfl

theorem CountFrame.noted {s u t : State} {D : Tbl Drive} (h : CountFrame s u) (hnoted : SpeedsNoted u t) (ht : t = { u with drives := D }) :
    SpeedsNoted s t ∧
    t = { s with pos := t.pos, drives := t.drives, conv := { s.conv with seqs := t.conv.seqs }, book := { s.book with inq := t.book.inq } } := by
  obtain ⟨P, Sq, Q, rfl⟩ := h
  subst ht
  exact ⟨hnoted, rfl⟩

theorem countFrame_updSrc (s : State) (n : Nat) (f : PosSrc → PosSrc) : CountFrame s (s.updSrc n f) :=
  ⟨(s.updSrc n f).pos, s.conv.seqs, s.book.inq, rfl⟩

theorem goodFrame_framed {n : Nat} {s : State} (hn : n < 12) (hidle : Idle s.now s) (p' : BitVec 64) (lsb tick : Nat) :
    Framed n tick p' s (goodFrame n p' lsb tick s) := by
  unfold goodFrame
  extract_lets s1 q s2 delta s3
  have h1 : s1 = s := captureBefore_idle hidle hn
  clear_value s1
  subst h1
  have h2 : s2.src n = _ := (src_updSrc s1 n n _).trans (if_pos rfl)
  by_cases hstart : (s1.src n).started = true
  case neg =>
    rw [if_pos (show (!(s1.src n).started) = true by simpa using hstart)]
    generalize hbegun : s2.updSrc n (fun q => { q with started := true, p := p', tick := tick, moved := 0 }) = u
    have hself : u.src n = { s2.src n with started := true, p := p', tick := tick, moved := 0 } := by
      rw [← hbegun]
      exact (src_updSrc s2 n n _).trans (if_pos rfl)
    have hframe : CountFrame s1 u := ⟨u.pos, s1.conv.seqs, s1.book.inq, by rw [← hbegun]; rfl⟩
    obtain ⟨hnoted, D, hD⟩ := noteSpeeds_noted u
    obtain ⟨hspeeds, hall⟩ := hframe.noted hnoted hD
    have hsrc : (noteSpeeds u).src n = u.src n := by rw [hD]; rfl
    refine ⟨?_, hspeeds, hall⟩
    rw [hsrc, hself, h2]
    simp [framedBy, bareSrc, hstart]
  case pos =>
    rw [if_neg (show ¬ (!(s1.src n).started) = true by simpa using hstart)]
    have h3 : s3.src n = { s2.src n with moved := 0, capTick := some (s2.src n).tick, tick := tick } :=
      (src_updSrc s2 n n _).trans (if_pos rfl)
    rw [h2] at h3
    have hframe : CountFrame s1 s3 := ⟨_, _, _, rfl⟩
    split
    next hsame =>
      refine ⟨?_, hframe.speedsNoted, hframe.framed⟩
      have hp : p' = (s1.src n).p := hsame
      rw [h3]
      simp [framedBy, bareSrc, hstart, hp]
    next hmoves =>
      have hidle3 : Idle s1.now s3 := hidle.pos fun m => by by_cases hm : m = n <;> simp [s3, s2, hm]
      have hquiet := quiet_movePos n s3.now p' delta (delta / 2 ^ lsb) (field (srcWord s3 n 0) 15 8) s3 hidle3
      have hsrc := bareSrc_movePos n s3.now p' delta (delta / 2 ^ lsb) (field (srcWord s3 n 0) 15 8) s3
      generalize movePos n s3.now p' delta (delta / 2 ^ lsb) (field (srcWord s3 n 0) 15 8) s3 = t at hquiet hsrc ⊢
      have hall := hframe.trans hquiet.2
      refine ⟨hsrc.trans ?_, hall.speedsNoted, hall.framed⟩
      have hp : ¬ p' = (s1.src n).p := hmoves
      rw [h3]
      simp [framedBy, bareSrc, hstart, hp, s3, s2]

section Framed
variable {n tick : Nat} {p' : BitVec 64} {s t : State} (h : Framed n tick p' s t)
include h

theorem Framed.p : (t.src n).p = p' := (congrArg PosSrc.p h.src :)
theorem Framed.stale : (t.src n).stale = false := (congrArg PosSrc.stale h.src :)
theorem Framed.badRun : (t.src n).badRun = 0 := (congrArg PosSrc.badRun h.src :)
theorem Framed.started : (t.src n).started = true := (congrArg PosSrc.started h.src :)
theorem Framed.tick_eq : (t.src n).tick = tick := (congrArg PosSrc.tick h.src :)
theorem Framed.busy : (t.src n).busy = (s.src n).busy := (congrArg PosSrc.busy h.src :)
theorem Framed.sentSlow : (t.src n).sentSlow = (s.src n).sentSlow := (congrArg PosSrc.sentSlow h.src :)

end Framed

/-- What came before the frame changed the sources alone. -/
theorem Framed.after {n tick : Nat} {p' : BitVec 64} {s t : State} {P : Position} (h : Framed n tick p' { s with pos := P } t) :
    SpeedsNoted s t ∧ t = { s with pos := t.pos, drives := t.drives, conv := { s.conv with seqs := t.conv.seqs },
                                   book := { s.book with inq := t.book.inq } } := ⟨h.speeds, h.frame⟩

/-! SSI. -/

theorem exec_ssiStart_due {s : State} {n t0 : Nat} (hruns : posRuns s = true) (hen : srcEn s n = true) (hkind : srcKind n = .ssi)
    (hdue : (s.src n).startDue = some t0) : exec (.ssiStart n) s = .next (
      if (s.src n).busy then errCount n (s.updSrc n fun q => { q with startDue := none })
      else (s.updSrc n fun q => { q with startDue := none }).updSrc n fun q => { q with busy := true, startTick := t0 }) := by
  obtain ⟨h4, h6⟩ := (srcKind_eq_ssi_iff n).1 hkind
  have hbusy : ((s.updSrc n fun q => { q with startDue := none }).src n).busy = (s.src n).busy := by simp
  have hrun : ¬ ((!posRuns (s.updSrc n fun q => { q with startDue := none })) = true ∨
      (!srcEn (s.updSrc n fun q => { q with startDue := none }) n) = true) := by
    have hruns' : posRuns (s.updSrc n fun q => { q with startDue := none }) = true := hruns
    have hen' : srcEn (s.updSrc n fun q => { q with startDue := none }) n = true := hen
    simp [hruns', hen']
  have hexec : execSsiStart n s = .next _ := congrArg Host.Outcome.next (if_neg (show ¬ (n < 4 ∨ 6 ≤ n) by omega))
  refine hexec.trans ?_
  rw [hdue]
  exact (congrArg Host.Outcome.next (if_neg hrun)).trans (by rw [hbusy])

theorem ssiStart_begins {s : State} {n t0 : Nat} (hruns : posRuns s = true) (hen : srcEn s n = true) (hkind : srcKind n = .ssi)
    (hdue : (s.src n).startDue = some t0) (hbusy : (s.src n).busy = false) : ∃ t, exec (.ssiStart n) s = .next t ∧
      t.src n = { s.src n with startDue := none, busy := true, startTick := t0 } ∧
      (∀ m, m ≠ n → t.src m = s.src m) ∧ t = { s with pos := { s.pos with srcs := t.pos.srcs } } := by
  have hexec := exec_ssiStart_due hruns hen hkind hdue
  rw [hbusy] at hexec
  exact ⟨_, hexec, by simp, fun m hm => by simp [hm], rfl⟩

theorem ssiStart_late {s : State} {n : Nat} (hruns : posRuns s = true) (hen : srcEn s n = true) (hkind : srcKind n = .ssi)
    (hdue : (s.src n).startDue ≠ none) (hbusy : (s.src n).busy = true) : ∃ t, exec (.ssiStart n) s = .next t ∧
      t.src n = { s.src n with startDue := none } ∧
      parGet t 4 (0x10C + 16 * n) = counted (parGet s 4 (0x10C + 16 * n)) 1 ∧ OthersKept s t 4 (0x10C + 16 * n) ∧
      t = { s with pos := { s.pos with srcs := t.pos.srcs }, par := t.par } := by
  obtain ⟨t0, ht0⟩ := Option.ne_none_iff_exists'.1 hdue
  obtain ⟨h4, h6⟩ := (srcKind_eq_ssi_iff n).1 hkind
  have hexec := exec_ssiStart_due hruns hen hkind ht0
  rw [hbusy] at hexec
  refine ⟨_, hexec, by simp, parGet_parCount_self (s.updSrc n fun q => { q with startDue := none }) 4 (0x10C + 16 * n) 1,
    others_parSet (s := s) (by omega), rfl⟩

theorem ssiFrame_good {s : State} {n : Nat} {bits : List Bool} (high : Bool) (fall rise : Nat) (hruns : posRuns s = true)
    (hen : srcEn s n = true) (hidle : NoCapture s) (hkind : srcKind n = .ssi) (hbusy : (s.src n).busy = true)
    (hclock : (s.src n).startTick + ssiPeriod s n * field (srcWord s n 3) 29 24 ≤ s.now) (hline : ssiLine s n high fall rise = true)
    (hgood : ssiBad s n bits = false) : ∃ t, exec (.ssiFrameEnd n high bits fall rise) s = .next t ∧
      Framed n (s.src n).startTick (ssiPos s n (ssiWord s n bits)).1 (transferEnded n s) t := by
  obtain ⟨_, h6⟩ := (srcKind_eq_ssi_iff n).1 hkind
  have hexec := exec_ssiFrameEnd high bits fall rise hruns hen hkind hbusy hclock
  rw [if_pos ⟨hline, hgood⟩] at hexec
  have hidle' : Idle s.now (transferEnded n s) := idle_updSrc (idle_of_noCapture hidle _) n fun _ => .inl rfl
  exact ⟨_, hexec, goodFrame_framed (by omega) hidle' _ _ _⟩

/-! SENT. -/

theorem srcKind_eq_sent_iff (n : Nat) : srcKind n = .sent ↔ 6 ≤ n ∧ n < 10 := by
  unfold srcKind
  split_ifs <;> simp <;> omega

/-- The sync pulse of SENT source `n` is `p`. -/
def syncSeen (n p : Nat) (s : State) : State := s.updSrc n fun q => { q with sync := some p }

/-- The slow channel changes its own fields of its source alone, and holds the message that its newest bits end. -/
theorem slowChannel_takes (n st : Nat) (s : State) : (∃ S, slowChannel n st s = { s with pos := { s.pos with srcs := S } }) ∧
    (∀ m, ((slowChannel n st s).src m).capDue = (s.src m).capDue) ∧
    ∀ w, wbit (srcWord s n 2) 22 = true → slowMessage (wbit (srcWord s n 2) 21) ((st :: (s.src n).slow).take 18) = some w →
      ((slowChannel n st s).src n).sentSlow = w := by
  unfold slowChannel
  cases hslow : wbit (srcWord s n 2) 22
  case false => exact ⟨⟨s.pos.srcs, rfl⟩, fun _ => rfl, fun _ h => absurd h (by decide)⟩
  case true =>
    cases hmsg : slowMessage (wbit (srcWord s n 2) 21) ((st :: (s.src n).slow).take 18) with
    | none =>
      simp only [hmsg, Bool.not_true, Bool.false_eq_true, if_false]
      exact ⟨⟨_, rfl⟩, fun m => by rw [src_updSrc]; split <;> simp [*], fun w _ h => by simp at h⟩
    | some v =>
      simp only [hmsg, Bool.not_true, Bool.false_eq_true, if_false]
      refine ⟨⟨_, rfl⟩, fun m => by rw [src_updSrc]; split <;> simp [*], fun w _ h => ?_⟩
      obtain rfl := Option.some.inj h
      simp

theorem sentFrame_good {s : State} {n : Nat} {pulses v : List Nat} (hruns : posRuns s = true) (hen : srcEn s n = true)
    (hidle : NoCapture s) (hkind : srcKind n = .sent) (hframe : sentFrame s n pulses = some v)
    (hstatus : v.headD 0 &&& field (srcWord s n 4) 3 0 = 0) : ∃ t, exec (.sentFrame n pulses) s = .next t ∧
      Framed n (s.now - pulses.sum) (sentPos s n v.tail).1 (slowChannel n (v.headD 0) (syncSeen n (pulses.headD 0) s)) t := by
  obtain ⟨h6, h10⟩ := (srcKind_eq_sent_iff n).1 hkind
  have hrun : ¬ (n < 6 ∨ 10 ≤ n ∨ (!posRuns s) = true ∨ (!srcEn s n) = true) := by simp [hruns, hen]; omega
  have hexec : execSentFrame n pulses s = .next _ := congrArg Host.Outcome.next (if_neg hrun)
  rw [hframe] at hexec
  have hexec' : exec (.sentFrame n pulses) s = .next (goodFrame n (sentPos s n v.tail).1 (sentPos s n v.tail).2 (s.now - pulses.sum)
      (slowChannel n (v.headD 0) (syncSeen n (pulses.headD 0) s))) :=
    hexec.trans (congrArg Host.Outcome.next (if_neg (not_not.2 hstatus)))
  have hsync : Idle s.now (syncSeen n (pulses.headD 0) s) := idle_updSrc (idle_of_noCapture hidle s.now) n fun _ => .inl rfl
  have hidle' : Idle s.now (slowChannel n (v.headD 0) (syncSeen n (pulses.headD 0) s)) :=
    hsync.pos (slowChannel_takes n _ _).2.1
  obtain ⟨S, hS⟩ := (slowChannel_takes n (v.headD 0) (syncSeen n (pulses.headD 0) s)).1
  refine ⟨_, hexec', goodFrame_framed (by omega) ?_ _ _ _⟩
  rw [hS] at hidle' ⊢
  exact hidle'

theorem exec_sentTimeout {s : State} {n : Nat} (hruns : posRuns s = true) (hen : srcEn s n = true) (hkind : srcKind n = .sent) :
    exec (.sentTimeout n) s = .next (badFrame n 6 s) := by
  obtain ⟨h6, h10⟩ := (srcKind_eq_sent_iff n).1 hkind
  exact congrArg Host.Outcome.next (if_neg (by simp [hruns, hen]; omega))

/-! Hall sets. -/

theorem srcKind_eq_hall_iff (n : Nat) : srcKind n = .hall ↔ 2 ≤ n ∧ n < 4 := by
  unfold srcKind
  split_ifs <;> simp <;> omega

theorem hallAngle_lt (s : State) (n st : Nat) : hallAngle s n st < 2 ^ 32 := by
  have hfield (w : Word) (hi lo : Nat) (h : hi - lo = 15) : field w hi lo < 2 ^ 16 := by
    unfold field
    have := Nat.mod_lt (w.toNat / 2 ^ lo) (show 0 < 2 ^ (hi + 1 - lo) by positivity)
    have hpow : 2 ^ (hi + 1 - lo) ≤ 2 ^ 16 := Nat.pow_le_pow_right (by decide) (by omega)
    omega
  unfold hallAngle
  have h1 := hfield (srcWord s n (3 + (st - 1) / 2)) 15 0 rfl
  have h2 := hfield (srcWord s n (3 + (st - 1) / 2)) 31 16 rfl
  dsimp only
  split <;> omega

/-- The nearest position of an angle has that angle. -/
theorem angleTo_mod (p : BitVec 64) {a : Nat} (ha : a < 2 ^ 32) : (angleTo p a).toNat % 2 ^ 32 = a := by
  unfold angleTo sgn32
  have hp := p.isLt
  rw [BitVec.toInt_eq_toNat_bmod, BitVec.toInt_eq_toNat_bmod, BitVec.toNat_ofInt, BitVec.toNat_ofNat]
  simp only [Int.bmod_def]
  omega

/-- Hall set `n` moves to state `st` at tick `t`. -/
def hallMove (n t st : Nat) (s : State) : State :=
  if st = 0 ∨ st = 7 then faultSource n 2 s
  else if !(s.src n).started then
    s.updSrc n fun q => { q with started := true, count := st, p := BitVec.ofNat 64 (hallAngle s n st), tick := t }
  else if st = (s.src n).count then s
  else if 2 ^ 30 < (sgn32 (hallAngle s n st + 2 ^ 32 - hallAngle s n (s.src n).count)).natAbs then
    faultSource n 3 (s.updSrc n fun q => { q with count := st })
  else
    let d := sgn32 (hallAngle s n st + 2 ^ 32 - hallAngle s n (s.src n).count)
    let p' := angleTo (s.src n).p (hallAngle s n st)
    let s1 := (noteChange n t (decide (0 ≤ d)) (s.updSrc n fun q => { q with count := st })).updSrc n fun q =>
      { q with lastStep := d.natAbs }
    movePos n t p' (p'.toInt - (s.src n).p.toInt) (if 0 ≤ d then 1 else -1) (field (srcWord s1 n 0) 15 8) s1

/-- Hall set `n` with the filtered state `st`. -/
def hallTaken (n st : Nat) (s : State) : State := s.updSrc n fun q => { q with ab := st }

theorem src_hallTaken (n st : Nat) (s : State) : (hallTaken n st s).src n = { s.src n with ab := st } :=
  (src_updSrc s n n _).trans (if_pos rfl)

theorem hallState_moves {n t : Nat} {s : State} (hn : n < 12) (st : Nat) (hruns : posRuns s = true) (hen : srcEn s n = true)
    (hidle : Idle t s) : hallState n t st s = hallMove n t st (hallTaken n st s) := by
  have hrun : ¬ ((!posRuns (hallTaken n st s)) = true ∨ (!srcEn (hallTaken n st s) n) = true) := by
    have hruns' : posRuns (hallTaken n st s) = true := hruns
    have hen' : srcEn (hallTaken n st s) n = true := hen
    simp [hruns', hen']
  unfold hallState
  rw [captureBefore_idle hidle hn]
  exact if_neg hrun

section HallMove
variable {n t st : Nat} {s : State}

theorem hallMove_illegal (h : st = 0 ∨ st = 7) : hallMove n t st s = faultSource n 2 s := if_pos h

theorem hallMove_starts (h : ¬ (st = 0 ∨ st = 7)) (hstart : (s.src n).started = false) : hallMove n t st s =
    s.updSrc n fun q => { q with started := true, count := st, p := BitVec.ofNat 64 (hallAngle s n st), tick := t } := by
  unfold hallMove
  rw [if_neg h, hstart]
  rfl

theorem hallMove_jumps (h : ¬ (st = 0 ∨ st = 7)) (hstart : (s.src n).started = true) (hnew : st ≠ (s.src n).count)
    (hfar : 2 ^ 30 < (sgn32 (hallAngle s n st + 2 ^ 32 - hallAngle s n (s.src n).count)).natAbs) :
    hallMove n t st s = faultSource n 3 (s.updSrc n fun q => { q with count := st }) := by
  unfold hallMove
  rw [if_neg h, hstart, if_neg (by decide), if_neg hnew, if_pos hfar]

/-- Source `n` after a Hall state that moved it, but for speed, standstill and direction. -/
def hallMovedBy (t st d : Nat) (fwd : Bool) (p' : BitVec 64) (q : PosSrc) : PosSrc :=
  { q with count := st, fwd := fwd, tick := t, lastStep := d, p := p', lastChange := some t }

/-- A new state without a jump moves the source. -/
theorem hallMove_moves (hidle : Idle t s) (h : ¬ (st = 0 ∨ st = 7)) (hstart : (s.src n).started = true) (hnew : st ≠ (s.src n).count)
    (hnear : (sgn32 (hallAngle s n st + 2 ^ 32 - hallAngle s n (s.src n).count)).natAbs ≤ 2 ^ 30) :
    CountFrame s (hallMove n t st s) ∧ ∃ d fwd, bareSrc ((hallMove n t st s).src n) =
      bareSrc (hallMovedBy t st d fwd (angleTo (s.src n).p (hallAngle s n st)) (s.src n)) := by
  unfold hallMove
  rw [if_neg h, hstart, if_neg (by decide), if_neg hnew, if_neg (Nat.not_lt.2 hnear)]
  extract_lets d p' s1
  have hidle1 : Idle t s1 := hidle.pos fun m => by by_cases hm : m = n <;> simp [s1, noteChange, hm]
  have hframe : CountFrame s s1 := (countFrame_updSrc s n _).trans ((countFrame_updSrc _ n _).trans (countFrame_updSrc _ n _))
  have hmoved := quiet_movePos n t p' (p'.toInt - (s.src n).p.toInt) (if 0 ≤ d then 1 else -1) (field (srcWord s1 n 0) 15 8) s1 hidle1
  refine ⟨hframe.trans hmoved.2, d.natAbs, decide (0 ≤ d), (bareSrc_movePos n t p' _ _ _ s1).trans ?_⟩
  simp [s1, p', noteChange, bareSrc, hallMovedBy]

end HallMove

/-- The lines of Hall set `n` at its pins and behind its filter, and whether it has started. -/
theorem hallMove_lines {n t : Nat} {s : State} (st : Nat) (hidle : Idle t s) :
    ((hallMove n t st s).src n).ab = (s.src n).ab ∧ ((hallMove n t st s).src n).raw = (s.src n).raw ∧
    ((hallMove n t st s).src n).rawAt = (s.src n).rawAt ∧
    (((hallMove n t st s).src n).started = true ∨ ((st = 0 ∨ st = 7) ∧ ((hallMove n t st s).src n).fault = true ∧
      ((hallMove n t st s).src n).capDue = (s.src n).capDue)) := by
  have hfault (cause : Nat) (u : State) : (faultSource n cause u).src n = faultedBy cause (u.src n) :=
    ((faultSource_faults n cause u).2.1 n).trans (if_pos rfl)
  by_cases h : st = 0 ∨ st = 7
  case pos =>
    rw [hallMove_illegal h, hfault]
    exact ⟨rfl, rfl, rfl, .inr ⟨h, rfl, rfl⟩⟩
  cases hstart : (s.src n).started
  case false =>
    rw [hallMove_starts h hstart, src_updSrc, if_pos rfl]
    exact ⟨rfl, rfl, rfl, .inl rfl⟩
  by_cases hnew : st = (s.src n).count
  case pos =>
    have hsame : hallMove n t st s = s := by
      unfold hallMove
      rw [if_neg h, hstart, if_neg (by decide), if_pos hnew]
    rw [hsame]
    exact ⟨rfl, rfl, rfl, .inl hstart⟩
  by_cases hfar : 2 ^ 30 < (sgn32 (hallAngle s n st + 2 ^ 32 - hallAngle s n (s.src n).count)).natAbs
  case pos =>
    rw [hallMove_jumps h hstart hnew hfar, hfault, src_updSrc, if_pos rfl]
    exact ⟨rfl, rfl, rfl, .inl hstart⟩
  obtain ⟨_, d, fwd, hsrc⟩ := hallMove_moves hidle h hstart hnew (Nat.not_lt.1 hfar)
  generalize hallMove n t st s = v at hsrc ⊢
  refine ⟨(congrArg PosSrc.ab hsrc :), (congrArg PosSrc.raw hsrc :), (congrArg PosSrc.rawAt hsrc :), .inl ?_⟩
  exact (congrArg PosSrc.started hsrc :).trans hstart

/-- Hall set `n` shows state `st` at its pins at this tick. -/
def hallShows (n st : Nat) (s : State) : State :=
  s.updSrc n fun q => if q.raw = st ∧ q.rawAt ≠ [] then q else { q with raw := st, rawAt := [s.now] }

theorem exec_hallStateChange {n st : Nat} (h2 : 2 ≤ n) (h4 : n < 4) (hst : st < 8) (s : State) :
    exec (.hallStateChange n st) s = .next (hallSettle n (hallShows n st (if (s.src n).rawAt = [] then s else hallSettle n s))) :=
  congrArg Host.Outcome.next (if_neg (show ¬ (n < 2 ∨ 4 ≤ n ∨ 8 ≤ st) by omega))

theorem hallSettle_settled {n : Nat} {s : State} (h : (s.src n).raw = (s.src n).ab) (hstart : (s.src n).started = true) :
    hallSettle n s = s := if_pos (.inl ⟨h, hstart⟩)

theorem hallSettle_passes {n t : Nat} {s : State} (h : ¬ ((s.src n).raw = (s.src n).ab ∧ (s.src n).started = true))
    (ht : t = (s.src n).rawAt.headD 0 + srcFilt s n) (hnow : t ≤ s.now) : hallSettle n s = hallState n t (s.src n).raw s := by
  subst ht
  exact if_neg (by rintro (hset | hlt); exacts [h hset, absurd hlt (by omega)])

theorem linesOnly_hallShows (n st : Nat) (s : State) : LinesOnly n s (hallShows n st s) :=
  linesOnly_updSrc n s fun q => by split <;> rfl

/-- An illegal state of a set that has a fault leaves it as it is. -/
theorem hallSettle_faulted {n : Nat} {u : State} (hill : (u.src n).raw = 0 ∨ (u.src n).raw = 7) (hfault : (u.src n).fault = true)
    (hcap : (u.src n).capDue = none) : LinesOnly n u (hallSettle n u) := by
  have hstate (t : Nat) : LinesOnly n u (hallState n t (u.src n).raw u) := by
    have hbefore : captureBefore n t u = u := by
      unfold captureBefore
      rw [hcap]
    have hmarked : ((hallTaken n (u.src n).raw u).src n).fault = true := by rw [src_hallTaken]; exact hfault
    have hsame : faultSource n 2 (hallTaken n (u.src n).raw u) = hallTaken n (u.src n).raw u := if_pos hmarked
    have hlines : LinesOnly n u (hallTaken n (u.src n).raw u) := linesOnly_updSrc n u fun _ => rfl
    unfold hallState
    rw [hbefore]
    refine rel_ite hlines ?_
    rw [if_pos hill]
    exact hsame.symm ▸ hlines
  exact rel_ite (.refl n u) (hstate _)

/-- A Hall state that passes the filter makes one move of the set, and beside that nothing but its lines changes. -/
theorem hallPasses_moves {s : State} {n st tp : Nat} (hkind : srcKind n = .hall) (hst : st < 8) (hruns : posRuns s = true)
    (hen : srcEn s n = true) (hidle : NoCapture s) (hpass : HallPasses s n st tp) :
    ∃ w t, LinesOnly n s w ∧ Idle tp w ∧ exec (.hallStateChange n st) s = .next t ∧ LinesOnly n (hallMove n tp st w) t := by
  obtain ⟨h2, h4⟩ := (srcKind_eq_hall_iff n).1 hkind
  obtain ⟨hfresh, hnow, hpass⟩ := hpass
  have htaken (u : State) : LinesOnly n u (hallTaken n st u) := linesOnly_updSrc n u fun _ => rfl
  have hidle' {t : Nat} {u : State} (hu : Idle t u) : Idle t (hallTaken n st u) := idle_updSrc hu n fun _ => .inl rfl
  rw [exec_hallStateChange h2 h4 hst]
  obtain ⟨hfilt, rfl, hnew, hold⟩ | ⟨hraw, hat, rfl⟩ := hpass
  case inl =>
    have hfirst : (if (s.src n).rawAt = [] then s else hallSettle n s) = s := by
      split
      next => rfl
      next hsome =>
        obtain hnil | ⟨hset, hstart⟩ := hold
        · exact absurd hnil hsome
        · exact hallSettle_settled hset hstart
    have hshow : (hallShows n st s).src n = { s.src n with raw := st, rawAt := [s.now] } := by
      refine (src_updSrc s n n _).trans ((if_pos rfl).trans (if_neg ?_))
      rintro ⟨hr, ha⟩
      exact hnew.elim (fun h => h hr) ha
    have hidleShow : Idle s.now (hallShows n st s) := idle_updSrc (idle_of_noCapture hidle _) n fun q => .inl (by split <;> rfl)
    have hfilt' : srcFilt (hallShows n st s) n = 0 := hfilt
    refine ⟨hallTaken n st (hallShows n st s), _, (linesOnly_hallShows n st s).trans (htaken _), hidle' hidleShow, ?_, .refl n _⟩
    have hpass : hallSettle n (hallShows n st s) = hallState n s.now ((hallShows n st s).src n).raw (hallShows n st s) :=
      hallSettle_passes (by rw [hshow]; exact fun h => hfresh ⟨h.1.symm, h.2⟩) (by rw [hshow, hfilt']; rfl) (le_refl _)
    rw [hfirst, hpass, hshow]
    exact congrArg Host.Outcome.next (hallState_moves (by omega) st hruns hen hidleShow)
  case inr =>
    subst hraw
    generalize htp : (s.src n).rawAt.headD 0 + srcFilt s n = tp at hnow
    have hfirst : hallSettle n s = hallMove n tp (s.src n).raw (hallTaken n (s.src n).raw s) := by
      rw [hallSettle_passes (fun h => hfresh ⟨h.1.symm, h.2⟩) htp.symm hnow]
      exact hallState_moves (by omega) _ hruns hen (idle_of_noCapture hidle tp)
    obtain ⟨hab, hraw, hrawAt, hstart⟩ := hallMove_lines (n := n) (s.src n).raw (hidle' (idle_of_noCapture hidle tp))
    rw [src_hallTaken] at hab hraw hrawAt hstart
    rw [show ({ s.src n with ab := (s.src n).raw } : PosSrc).capDue = none from hidle n (by omega)] at hstart
    rw [if_neg hat, hfirst]
    refine ⟨hallTaken n (s.src n).raw s, _, htaken s, hidle' (idle_of_noCapture hidle tp), rfl, ?_⟩
    generalize hallMove n tp (s.src n).raw (hallTaken n (s.src n).raw s) = v at hab hraw hrawAt hstart ⊢
    have hshow : (hallShows n (s.src n).raw v).src n = v.src n :=
      (src_updSrc v n n _).trans ((if_pos rfl).trans (if_pos ⟨hraw, by rw [hrawAt]; exact hat⟩))
    have hlines := linesOnly_hallShows n (s.src n).raw v
    refine hlines.trans ?_
    obtain hrun | ⟨hill, hfault, hcap⟩ := hstart
    case inl =>
      rw [hallSettle_settled (by rw [hshow, hraw, hab]) (by rw [hshow]; exact hrun)]
      exact .refl n _
    case inr => exact hallSettle_faulted (by rw [hshow, hraw]; exact hill) (by rw [hshow]; exact hfault) (by rw [hshow, hcap])


/-- What a fault of source `n` leaves where before it and after it the position unit alone changed, and of source `n` neither P nor the
fault. -/
theorem faulted_lines {n cause : Nat} {s v t : State} (hv : v = { s with pos := v.pos }) (hp : (v.src n).p = (s.src n).p)
    (hfault : (v.src n).fault = (s.src n).fault) (ht : LinesOnly n (faultSource n cause v) t) :
    (t.src n).fault = true ∧ (t.src n).p = (s.src n).p ∧
    ((s.src n).fault = false → (t.src n).faultCause = cause ∧ Raised s t 0x0405 n [wrd cause]) ∧ Reacted { s with pos := t.pos } t := by
  obtain ⟨hev, hsrc, hraised⟩ := faultSource_faults n cause v
  have hself := (hsrc n).trans (if_pos rfl)
  rw [← hp, ← hfault]
  generalize faultSource n cause v = u at hev hself hraised ht
  generalize v.pos = P at hv
  subst hv
  obtain ⟨⟨r, l, ab, zf, ht⟩, -, S, rfl⟩ := ht
  rw [ht, hself]
  exact ⟨rfl, rfl, fun hnone => ⟨by simp [faultedBy, hnone], hraised hnone⟩, reacted_of_evStep (evStep_withPos hev _)⟩

section Hall
variable {s : State} {n st tp : Nat} (hkind : srcKind n = .hall) (hruns : posRuns s = true) (hen : srcEn s n = true) (hidle : NoCapture s)
  (hpass : HallPasses s n st tp)
include hkind hruns hen hidle hpass

theorem hallState_illegal (h : st = 0 ∨ st = 7) : ∃ t, exec (.hallStateChange n st) s = .next t ∧ (t.src n).fault = true ∧
    (t.src n).p = (s.src n).p ∧ ((s.src n).fault = false → (t.src n).faultCause = 2 ∧ Raised s t 0x0405 n [2]) ∧
    Reacted { s with pos := t.pos } t := by
  obtain ⟨w, t, ⟨⟨r, l, ab, zf, hself⟩, -, S, hw⟩, _, hexec, ht⟩ := hallPasses_moves hkind (by omega) hruns hen hidle hpass
  rw [hallMove_illegal h] at ht
  exact ⟨t, hexec, faulted_lines (by rw [hw]) (by rw [hself]) (by rw [hself]) ht⟩

theorem hallState_jumps (h1 : 1 ≤ st) (h6 : st ≤ 6) (hstart : (s.src n).started = true) (hnew : st ≠ (s.src n).count)
    (hfar : 2 ^ 30 < (sgn32 (hallAngle s n st + 2 ^ 32 - hallAngle s n (s.src n).count)).natAbs) :
    ∃ t, exec (.hallStateChange n st) s = .next t ∧ (t.src n).fault = true ∧ (t.src n).p = (s.src n).p ∧
      ((s.src n).fault = false → (t.src n).faultCause = 3 ∧ Raised s t 0x0405 n [3]) ∧ Reacted { s with pos := t.pos } t := by
  obtain ⟨w, t, ⟨⟨r, l, ab, zf, hself⟩, -, S, hw⟩, _, hexec, ht⟩ := hallPasses_moves hkind (by omega) hruns hen hidle hpass
  have hangle (k : Nat) : hallAngle w n k = hallAngle s n k := by rw [hw]; rfl
  rw [hallMove_jumps (by omega) (by rw [hself]; exact hstart) (by rw [hself]; exact hnew)
    (by rw [hangle, hangle, hself]; exact hfar)] at ht
  refine ⟨t, hexec, faulted_lines (v := w.updSrc n fun q => { q with count := st }) (by rw [hw]; rfl) ?_ ?_ ht⟩
  · rw [src_updSrc, if_pos rfl, hself]
  · rw [src_updSrc, if_pos rfl, hself]

theorem hallState_moves_position (h1 : 1 ≤ st) (h6 : st ≤ 6) (hmove : (s.src n).started = false ∨ (st ≠ (s.src n).count ∧
      (sgn32 (hallAngle s n st + 2 ^ 32 - hallAngle s n (s.src n).count)).natAbs ≤ 2 ^ 30)) :
    ∃ t, exec (.hallStateChange n st) s = .next t ∧ (t.src n).started = true ∧ (t.src n).count = st ∧
      (t.src n).p.toNat % 2 ^ 32 = hallAngle s n st ∧ (t.src n).tick = tp ∧ (t.src n).fault = (s.src n).fault ∧
      t = { s with pos := t.pos, conv := { s.conv with seqs := t.conv.seqs }, book := { s.book with inq := t.book.inq } } := by
  obtain ⟨w, t, ⟨⟨r, l, ab, zf, hself⟩, -, S, hw⟩, hidleW, hexec, ht⟩ := hallPasses_moves hkind (by omega) hruns hen hidle hpass
  have hangle (k : Nat) : hallAngle w n k = hallAngle s n k := by rw [hw]; rfl
  have hlt := hallAngle_lt s n st
  refine ⟨t, hexec, ?_⟩
  cases hstart : (s.src n).started
  case false =>
    rw [hallMove_starts (by omega) (by rw [hself]; exact hstart), hangle] at ht
    obtain ⟨⟨r', l', ab', zf', ht⟩, -, S', hframe⟩ := ht
    rw [src_updSrc, if_pos rfl, hself] at ht
    rw [ht]
    refine ⟨rfl, rfl, ?_, rfl, rfl, by rw [hframe, hw]; rfl⟩
    rw [BitVec.toNat_ofNat, Nat.mod_mod_of_dvd _ (by decide), Nat.mod_eq_of_lt hlt]
  case true =>
    obtain ⟨hnew, hnear⟩ := hmove.resolve_left (by simp [hstart])
    obtain ⟨hcount, d, fwd, hsrc⟩ := hallMove_moves (st := st) (n := n) hidleW (by omega) (by rw [hself]; exact hstart) (by rw [hself]; exact hnew)
      (by rw [hangle, hangle, hself]; exact hnear)
    rw [hangle, hself] at hsrc
    generalize hallMove n tp st w = v at hcount hsrc ht
    obtain ⟨⟨r', l', ab', zf', ht⟩, -, S', hframe⟩ := ht
    rw [ht]
    refine ⟨(congrArg PosSrc.started hsrc :).trans hstart, (congrArg PosSrc.count hsrc :), ?_, (congrArg PosSrc.tick hsrc :),
      (congrArg PosSrc.fault hsrc :), ?_⟩
    · have hp : (v.src n).p = angleTo (s.src n).p (hallAngle s n st) := (congrArg PosSrc.p hsrc :)
      exact (congrArg (fun p : BitVec 64 => p.toNat % 2 ^ 32) hp).trans (angleTo_mod _ hlt)
    · obtain ⟨P, Sq, Q, rfl⟩ := hcount
      rw [hframe, hw]

end Hall

/-! The statement. -/

/-- Settles O38: Hall states, SSI transfers and SENT frames. -/
theorem hallAndFrames : Obligations.HallAndFrames := by
  unfold Obligations.HallAndFrames
  intro s n hruns hen hidle
  refine ⟨fun hkind => ⟨fun st tp hpass => hallState_illegal hkind hruns hen hidle hpass,
    fun st tp hpass => hallState_jumps hkind hruns hen hidle hpass,
    fun st tp hpass => hallState_moves_position hkind hruns hen hidle hpass⟩,
    fun hkind => ⟨fun t0 => ssiStart_begins hruns hen hkind, ssiStart_late hruns hen hkind,
      fun high bits fall rise hbusy hclock hline hparity hstatus => ?_⟩,
    fun hkind => ⟨fun pulses v hframe hstatus => ?_, ?_⟩⟩
  · have hgood : ssiBad s n bits = false := by
      unfold ssiBad
      obtain h | h := hparity <;> simp [h, hstatus]
    obtain ⟨t, hexec, h⟩ := ssiFrame_good high fall rise hruns hen hidle hkind hbusy hclock hline hgood
    obtain ⟨hspeeds, hframe⟩ := h.after
    have hended : ((transferEnded n s).src n).busy = false := by simp [transferEnded]
    exact ⟨t, hexec, h.p, h.stale, h.badRun, h.busy.trans hended, h.started, h.tick_eq, hspeeds, hframe⟩
  · obtain ⟨t, hexec, h⟩ := sentFrame_good hruns hen hidle hkind hframe hstatus
    obtain ⟨⟨S, hS⟩, -, hslow⟩ := slowChannel_takes n (v.headD 0) (syncSeen n (pulses.headD 0) s)
    have hkeep : ((syncSeen n (pulses.headD 0) s).src n).slow = (s.src n).slow := by simp [syncSeen]
    rw [hkeep] at hslow
    have hsent := h.sentSlow
    refine ⟨t, hexec, h.p, h.stale, h.badRun, h.started, h.tick_eq, fun w hw hm => hsent.trans (hslow w hw hm), ?_⟩
    rw [hS] at h
    exact h.after
  · obtain ⟨_, h10⟩ := (srcKind_eq_sent_iff n).1 hkind
    have h := badFrame_bad (n := n) (by omega) 6 s
    exact ⟨_, exec_sentTimeout hruns hen hkind, h.stale, h.p, h.errs, h.few, h.many, reacted_of_evStep h.event⟩

end Sys2Proof.Proofs
end

section
/-!
PROOFS. Position compares and position captures (R174, R203, R204).
-/
namespace Sys2Proof.Proofs
open Sys2Proof.Machine Sys2Proof.Safety Sys2Proof.Laws

/-! POS_COMPARE. -/

/-- The first word of POS_COMPARE, of ARM `a`. -/
def compareWord (a dir : Nat) (modulo : Bool) (n u : Nat) : Nat := a * 2 ^ 31 + dir * 2 ^ 29 + b2n modulo * 2 ^ 28 + n * 2 ^ 16 + u

/-- A compare armed at `now` with the words that follow. -/
def armedCmp (dir : Nat) (modulo : Bool) (n : Nat) (ws : List Word) (now : Nat) (_ : PosCmp) : PosCmp :=
  { armed := true, dir := dir, modulo := modulo, missed := 0, source := n, fires := 0,
    t := BitVec.ofNat 64 (ofTwoWords (ws.getD 0 0) (ws.getD 1 0)), step := (ws.getD 2 0).toNat, armTick := now }

/-- A compare that is no longer armed. -/
def disarmedCmp (c : PosCmp) : PosCmp := { c with armed := false }

section PosCompare
variable {s : State} {tag a dir n u : Nat} {modulo : Bool} (ha : a < 2) (hdir : dir < 3) (hn : n < 12) (hu : u < 8)
include ha hdir hn hu

theorem compareWord_reads : field (wrd (compareWord a dir modulo n u)) 2 0 = u ∧ field (wrd (compareWord a dir modulo n u)) 19 16 = n ∧
    field (wrd (compareWord a dir modulo n u)) 30 29 = dir ∧ wbit (wrd (compareWord a dir modulo n u)) 28 = modulo ∧
    wbit (wrd (compareWord a dir modulo n u)) 31 = decide (a = 1) := by
  have hb := b2n_le modulo
  have hlt : compareWord a dir modulo n u < 2 ^ 32 := by unfold compareWord; omega
  rw [field_wrd hlt, field_wrd hlt, field_wrd hlt, wbit_wrd (by decide), wbit_wrd (by decide), Nat.testBit_eq_decide_div_mod_eq,
    Nat.testBit_eq_decide_div_mod_eq]
  unfold compareWord
  refine ⟨by omega, by omega, by omega, ?_, decide_eq_decide.2 (by omega)⟩
  cases modulo <;> simp only [b2n] <;> simp <;> omega

omit ha hdir in
/-- No bit of the word is set that must be 0. -/
theorem compareWord_clean : hasBits (wrd (compareWord a dir modulo n u)) 0x0FF0FFF8 = false := by
  have hmask : ∀ k, k < 32 → wbit 0x0FF0FFF8 k = true → 3 ≤ k ∧ k < 16 ∨ 20 ≤ k ∧ k < 28 := by decide
  have hlow : compareWord a dir modulo n u = 2 ^ 16 * (a * 2 ^ 15 + dir * 2 ^ 13 + b2n modulo * 2 ^ 12 + n) + u := by
    unfold compareWord; omega
  have hhigh : compareWord a dir modulo n u = 2 ^ 28 * (a * 2 ^ 3 + dir * 2 + b2n modulo) + (n * 2 ^ 16 + u) := by
    unfold compareWord; omega
  refine hasBits_eq_false fun k hk hbit => (wbit_wrd hk).trans ?_
  obtain ⟨h3, h16⟩ | ⟨h20, h28⟩ := hmask k hk hbit
  · rw [hlow, Nat.testBit_two_pow_mul_add _ (by omega), if_pos h16]
    exact Nat.testBit_lt_two_pow (lt_of_lt_of_le hu (Nat.pow_le_pow_right (by decide) h3 : 2 ^ 3 ≤ 2 ^ k))
  · rw [hhigh, Nat.testBit_two_pow_mul_add _ (by omega), if_pos h28]
    exact Nat.testBit_lt_two_pow (lt_of_lt_of_le (by omega) (Nat.pow_le_pow_right (by decide) h20 : 2 ^ 20 ≤ 2 ^ k))

theorem bodyPosCompare_sets {ws : List Word} (hen : srcEn s n = true)
    (harm : a = 1 → (modulo = true → ws.getD 1 0 = 0) ∧ (dir = 2 → ws.getD 2 0 = 0)) :
    bodyPosCompare (wrd (compareWord a dir modulo n u) :: ws) (begun s tag) =
      if a = 1 then
        .done (if targetBehind modulo (BitVec.ofNat 64 (ofTwoWords (ws.getD 0 0) (ws.getD 1 0))) (s.src n).p
            (if dir = 2 then b2n (s.src n).dir else dir) then stCompareBehind else stOk)
          (twoWords s.now)
          ((begun s tag).updCmp u (armedCmp dir modulo n ws s.now))
      else .done stOk (twoWords s.now) ((begun s tag).updCmp u disarmedCmp) := by
  obtain ⟨hfu, hfn, hfdir, hfmod, hfarm⟩ := compareWord_reads (modulo := modulo) ha hdir hn hu
  have hclean := compareWord_clean (a := a) (dir := dir) (modulo := modulo) hn hu
  have hen' : srcEn (begun s tag) n = true := hen
  unfold bodyPosCompare
  simp only [pw, List.getD_cons_zero, List.getD_cons_succ, hfu, hfn, hfdir, hfmod, hfarm, hclean, hen']
  rw [checked_nil]
  · rcases (show a = 0 ∨ a = 1 by omega) with rfl | rfl
    · rfl
    · rfl
  · simp only [List.mem_singleton, forall_eq]
    rcases (show a = 0 ∨ a = 1 by omega) with rfl | rfl
    · simp; omega
    · obtain ⟨hmod, hstep⟩ := harm rfl
      simp only [Bool.or_eq_false_iff, Bool.and_eq_false_iff, decide_eq_false_iff_not]
      refine ⟨⟨⟨⟨trivial, by omega⟩, by omega⟩, rfl⟩, .inr ⟨?_, ?_⟩⟩
      · cases modulo
        · exact .inl rfl
        · exact .inr (bne_eq_false_iff_eq.2 (hmod rfl))
      · by_cases h2 : dir = 2
        · exact .inr (bne_eq_false_iff_eq.2 (hstep h2))
        · exact .inl h2

end PosCompare

/-- POS_COMPARE changes its own unit alone. -/
theorem posCompare_changes {s u : State} {tag n status : Nat} {ws rep : List Word} {f : PosCmp → PosCmp} (h : Starts s tag 0x61 ws)
    (hb : bodyPosCompare ws (begun s tag) = .done status rep u) (hu : u = (begun s tag).updCmp n f) :
    ∃ t, exec (.posCompare tag) s = .next t ∧ Replied s t tag status rep ∧ t.cmp n = f (s.cmp n) ∧
      (∀ c, c ≠ n → t.cmp c = s.cmp c) ∧ t = { s with folio := t.folio, pos := { s.pos with cmps := t.pos.cmps } } := by
  have hcmp (c : Nat) : u.cmp c = if c = n then f (s.cmp n) else s.cmp c := by
    rw [hu]
    exact cmp_updCmp (begun s tag) n c f
  obtain ⟨t, ht, hr, g, rfl⟩ := completes h hb (by rw [hu]; rfl) (by rw [hu]; rfl)
  refine ⟨_, congrArg Host.Outcome.next ht, hr, (hcmp n).trans (if_pos rfl), fun c hc => (hcmp c).trans (if_neg hc), ?_⟩
  rw [hu]
  rfl

/-! What captures and triggers leave of the compares. -/

/-- From `s` to `t` the compares and emulations stay. -/
structure CmpsStay (s t : State) : Prop where
  cmps : t.pos.cmps = s.pos.cmps
  emus : t.pos.emus = s.pos.emus

theorem CmpsStay.refl (s : State) : CmpsStay s s := ⟨rfl, rfl⟩

theorem CmpsStay.trans {s t u : State} (h : CmpsStay s t) (k : CmpsStay t u) : CmpsStay s u :=
  ⟨k.cmps.trans h.cmps, k.emus.trans h.emus⟩

theorem CmpsStay.cmp {s t : State} (h : CmpsStay s t) (c : Nat) : t.cmp c = s.cmp c := by
  unfold State.cmp
  rw [h.cmps]

theorem CmpsStay.ev {s t : State} (h : EvStep s t) : CmpsStay s t := ⟨congrArg Position.cmps h.pos, congrArg Position.emus h.pos⟩

theorem cmpsStay_updSeq (s : State) (n : Nat) (f : Seq → Seq) : CmpsStay s (s.updSeq n f) := ⟨rfl, rfl⟩

theorem cmpsStay_updSrc (s : State) (n : Nat) (f : PosSrc → PosSrc) : CmpsStay s (s.updSrc n f) := ⟨rfl, rfl⟩

theorem cmpsStay_crossCheck (d : Nat) (s : State) : CmpsStay s (crossCheck d s) := by
  have hset (v : Nat) : CmpsStay s { s with pos := { s.pos with mism := tblSet s.pos.mism 0 d v } } := ⟨rfl, rfl⟩
  unfold crossCheck
  dsimp only
  exact rel_ite (hset 0) (rel_ite (rel_ite ((hset 0).trans (.ev (ev_raise (.refl _)))) (hset _)) (hset 0))

theorem cmpsStay_capture (n tc : Nat) (s : State) : CmpsStay s (capture n tc s) := by
  unfold capture
  extract_lets q still sp r edge s1 s2 s3 s4 s5
  have h3 : CmpsStay s2 s3 := .ev (ev_noteSpeeds (.refl s2))
  have h4 : CmpsStay s3 s4 := rel_ite (cmpsStay_updSrc s3 n _) (.refl s3)
  have h5 : CmpsStay s4 s5 :=
    forUpTo_rel CmpsStay.refl .trans (fun m _ u => rel_ite (cmpsStay_updSeq u m _) (.refl u)) s4
  have h1 : CmpsStay s s1 := cmpsStay_updSrc s n _
  have h2 : CmpsStay s1 s2 := cmpsStay_updSrc s1 n _
  refine h1.trans (h2.trans (h3.trans (h4.trans (h5.trans (forUpTo_rel .refl .trans (fun d _ u => ?_) s5)))))
  have hcheck := cmpsStay_crossCheck d u
  exact rel_ite (.refl u) (rel_ite (rel_ite (.refl u) hcheck) (rel_ite (.refl u) hcheck))

theorem cmpsStay_captureBefore (n t : Nat) (s : State) : CmpsStay s (captureBefore n t s) := by
  unfold captureBefore
  split
  · exact rel_ite (cmpsStay_capture n _ s) (.refl s)
  · exact .refl s

theorem cmpsStay_fireTrigger (code t : Nat) (s : State) : CmpsStay s (fireTrigger code t s) := by
  have hseqs : CmpsStay s (fireSequences code t s) :=
    forUpTo_rel CmpsStay.refl .trans (fun n _ u => rel_ite (cmpsStay_updSeq u n _) (.refl u)) s
  refine hseqs.trans (forUpTo_rel .refl .trans (fun n _ u => ?_) _)
  extract_lets v
  have hv : CmpsStay u v := rel_ite ((cmpsStay_captureBefore n t u).trans (cmpsStay_updSrc _ n _)) (.refl u)
  exact hv.trans (rel_ite (cmpsStay_updSrc v n _) (.refl v))

/-- From `s` to `t` power and time stay, and no event is lost. -/
structure Steady (s t : State) : Prop where
  pwr : t.pwr = s.pwr
  now : t.now = s.now
  valid : t.tim.timeValid = s.tim.timeValid
  grow : ∀ x ∈ s.book.inq, x.code ≠ 0x0902 → x ∈ t.book.inq

theorem Steady.refl (s : State) : Steady s s := ⟨rfl, rfl, rfl, fun _ h _ => h⟩

theorem Steady.trans {s t u : State} (h : Steady s t) (k : Steady t u) : Steady s u :=
  ⟨k.pwr.trans h.pwr, k.now.trans h.now, k.valid.trans h.valid, fun x hx hc => k.grow x (h.grow x hx hc) hc⟩

theorem Steady.ev {s t : State} (h : EvStep s t) : Steady s t := ⟨h.pwr, h.now, congrArg Timing.timeValid h.tim, h.grow⟩

/-- The position unit, the converters and the parameters are not what `Steady` speaks of. -/
theorem steady_parts (s : State) (P : Position) (C : Converters) : Steady s { s with pos := P, conv := C } :=
  ⟨rfl, rfl, rfl, fun _ h _ => h⟩

theorem steady_captureRel : CaptureRel Steady where
  refl := .refl
  trans := .trans
  ev := .ev
  pos s P := steady_parts s P s.conv
  patch _ _ _ s := forUpTo_rel .refl .trans (fun _ _ u => rel_ite (steady_parts u u.pos _) (.refl u)) s

theorem steady_triggerRel (t : Nat) : TriggerRel t Steady where
  refl := .refl
  trans := .trans
  cmp s _ _ := steady_parts s _ s.conv
  seq s _ := steady_parts s s.pos _
  event s _ _ _ _ := .ev (ev_record (.refl s))
  due s _ := steady_parts s _ s.conv
  start s _ := steady_parts s _ s.conv
  turn s _ _ _ := steady_parts s _ s.conv
  capture s m _ := captureBefore_rel steady_captureRel m t s

theorem Steady.raised {s u t : State} {code idx : Nat} {args : List Word} (h : Steady s u) (hr : Raised u t code idx args) :
    Raised s t code idx args := raised_of hr h.now h.valid

theorem raised_steady {s u t : State} {code idx : Nat} {args : List Word} (h : Raised s u code idx args) (hc : code ≠ 0x0902)
    (k : Steady u t) : Raised s t code idx args := k.grow _ h hc

/-! A crossing fires its compare. -/

/-- From `s` to `t` compare `c` stays, and so do power and time. -/
def CmpStays (c : Nat) (s t : State) : Prop := t.cmp c = s.cmp c ∧ Steady s t

theorem CmpStays.refl (c : Nat) (s : State) : CmpStays c s s := ⟨rfl, .refl s⟩

theorem CmpStays.trans {c : Nat} {s t u : State} (h : CmpStays c s t) (k : CmpStays c t u) : CmpStays c s u :=
  ⟨k.1.trans h.1, h.2.trans k.2⟩

/-- A compare without a step that has fired. -/
def firedCmp (T : BitVec 64) (c : PosCmp) : PosCmp :=
  { c with armed := false, fires := (c.fires + 1) % 0x10000, missed := min 255 c.missed, t := T }

theorem fireCompare_others (t i way : Nat) (p' : BitVec 64) {c : Nat} (hc : c ≠ i) (s : State) : CmpStays c s (fireCompare t i way p' s) := by
  refine ⟨?_, fireCompare_rel (steady_triggerRel t) i way p' s⟩
  unfold fireCompare
  extract_lets C k dist s1
  have hcmps := ((CmpsStay.ev (ev_record (code := 0x0403) (idx := i) (args := [wrd way]) (.refl s1))).trans (cmpsStay_fireTrigger (0x30 + i) t _)).cmp c
  exact hcmps.trans ((cmp_updCmp s i c _).trans (if_neg hc))

theorem fireCompare_fires (t c way : Nat) (p' : BitVec 64) {s : State} (hstep : (s.cmp c).step = 0) :
    (∃ T, (fireCompare t c way p' s).cmp c = firedCmp T (s.cmp c)) ∧ Raised s (fireCompare t c way p' s) 0x0403 c [wrd way] := by
  unfold fireCompare
  extract_lets C k dist s1
  have hk : k = 0 := if_pos hstep
  have hown : s1.cmp c = _ := (cmp_updCmp s c c _).trans (if_pos rfl)
  have hcmps := ((CmpsStay.ev (ev_record (code := 0x0403) (idx := c) (args := [wrd way]) (.refl s1))).trans (cmpsStay_fireTrigger (0x30 + c) t _)).cmp c
  have hraised : Raised s (record s1 0x0403 c [wrd way]) 0x0403 c [wrd way] := record_raises s1 0x0403 c [wrd way]
  refine ⟨⟨movedTarget C.modulo C.t dist, ?_⟩, raised_steady hraised (by decide) (fireTrigger_rel (steady_triggerRel t) _ _)⟩
  rw [hcmps, hown]
  simp [firedCmp, hk, hstep, C]

/-- A loop is what it does before `c`, the step of `c`, and what it does after it. -/
theorem forUpTo_split {R : State → State → Prop} (hrefl : ∀ s, R s s) (htrans : ∀ {s u t}, R s u → R u t → R s t) {c : Nat}
    {f : Nat → State → State} (hf : ∀ k, k ≠ c → ∀ u, R u (f k u)) (n : Nat) (s : State) :
    if c < n then ∃ u, R s u ∧ R (f c u) (forUpTo n f s) else R s (forUpTo n f s) := by
  induction n with
  | zero => exact hrefl s
  | succ n ih =>
    have hstep : forUpTo (n + 1) f s = f n (forUpTo n f s) := rfl
    rw [hstep]
    by_cases hlt : c < n
    · rw [if_pos hlt] at ih
      rw [if_pos (by omega)]
      obtain ⟨u, hbefore, hafter⟩ := ih
      exact ⟨u, hbefore, htrans hafter (hf n (by omega) _)⟩
    · rw [if_neg hlt] at ih
      by_cases hcn : c = n
      · subst hcn
        rw [if_pos (by omega)]
        exact ⟨_, ih, hrefl _⟩
      · rw [if_neg (by omega)]
        exact htrans ih (hf n (Ne.symm hcn) _)

/-- Compare `c` of source `n` fires once at a crossing the way `way` by a change at tick `t`. -/
structure Fireable (s : State) (n t c way : Nat) : Prop where
  small : c < 8
  awake : s.pwr.sleep = .awake
  armed : (s.cmp c).armed = true
  source : (s.cmp c).source = n
  early : (s.cmp c).armTick < t
  step : (s.cmp c).step = 0
  dir : (s.cmp c).dir = way ∨ (s.cmp c).dir = 2

theorem Fireable.stays {s u : State} {n t c way : Nat} (h : Fireable s n t c way) (hcmp : u.cmp c = s.cmp c) (hpwr : u.pwr = s.pwr) :
    Fireable u n t c way := by
  obtain ⟨hc, hawake, hrest⟩ := h
  exact ⟨hc, by rw [hpwr]; exact hawake, by rw [hcmp]; assumption, by rw [hcmp]; assumption, by rw [hcmp]; assumption,
    by rw [hcmp]; assumption, by rw [hcmp]; assumption⟩

theorem testCompares_fires {n t c way : Nat} {p p' : BitVec 64} {s : State} (h : Fireable s n t c way)
    (hcross : crossing (s.cmp c).modulo (s.cmp c).t p p' = some way) :
    (∃ T, (testCompares n t p p' s).cmp c = firedCmp T (s.cmp c)) ∧ Raised s (testCompares n t p p' s) 0x0403 c [wrd way] := by
  have hsplit := forUpTo_split (R := CmpStays c) (.refl c) .trans (c := c) (f := fun i s =>
    if (s.cmp i).armed ∧ (s.cmp i).source = n ∧ (s.cmp i).armTick < t then
      (match crossing (s.cmp i).modulo (s.cmp i).t p p' with
       | some way => if s.pwr.sleep = .awake ∧ ((s.cmp i).dir = way ∨ (s.cmp i).dir = 2) then fireCompare t i way p' s else s
       | none => s)
    else s) (fun k hk u => by
      refine rel_ite ?_ (.refl c u)
      split
      · exact rel_ite (fireCompare_others t k _ p' (Ne.symm hk) u) (.refl c u)
      · exact .refl c u) 8 s
  rw [if_pos h.small] at hsplit
  obtain ⟨u, ⟨hcmp, hsteady⟩, hkeep, hafter⟩ := hsplit
  have hu := h.stays hcmp hsteady.pwr
  have hfire : (if (u.cmp c).armed ∧ (u.cmp c).source = n ∧ (u.cmp c).armTick < t then
      (match crossing (u.cmp c).modulo (u.cmp c).t p p' with
       | some way => if u.pwr.sleep = .awake ∧ ((u.cmp c).dir = way ∨ (u.cmp c).dir = 2) then fireCompare t c way p' u else u
       | none => u)
      else u) = fireCompare t c way p' u := by
    rw [if_pos ⟨hu.armed, hu.source, hu.early⟩, hcmp, hcross]
    exact if_pos ⟨hu.awake, by rw [← hcmp]; exact hu.dir⟩
  obtain ⟨⟨T, hfired⟩, hraised⟩ := fireCompare_fires t c way p' hu.step
  rw [hfire] at hkeep hafter
  refine ⟨⟨T, ?_⟩, raised_steady (hsteady.raised hraised) (by decide) hafter⟩
  exact hkeep.trans (hfired.trans (by rw [hcmp]))

theorem cmpStays_updSrc (c : Nat) (s : State) (n : Nat) (f : PosSrc → PosSrc) : CmpStays c s (s.updSrc n f) := ⟨rfl, steady_parts s _ s.conv⟩

theorem cmpStays_moveDir (c n : Nat) (step : Int) (hyst : Nat) (s : State) : CmpStays c s (moveDir n step hyst s) := by
  unfold moveDir
  refine rel_ite (cmpStays_updSrc c s n _) (rel_ite ?_ (cmpStays_updSrc c s n _))
  have hev := ev_record (code := 0x0401) (idx := n) (args := [wrd (b2n (!(s.src n).dir))])
    (.refl (s.updSrc n fun q => { q with dirAcc := 0, dir := !q.dir }))
  exact (cmpStays_updSrc c s n _).trans ⟨(CmpsStay.ev hev).cmp c, .ev hev⟩

theorem movePos_fires {n t c way : Nat} {p' : BitVec 64} (delta step : Int) (hyst : Nat) {s : State} (h : Fireable s n t c way)
    (hcross : crossing (s.cmp c).modulo (s.cmp c).t (s.src n).p p' = some way) :
    (∃ T, (movePos n t p' delta step hyst s).cmp c = firedCmp T (s.cmp c)) ∧ Raised s (movePos n t p' delta step hyst s) 0x0403 c [wrd way] := by
  unfold movePos
  extract_lets p s1
  have h1 : CmpStays c s s1 := cmpStays_updSrc c s n _
  obtain ⟨hcmp, hsteady⟩ := h1.trans (cmpStays_moveDir c n step hyst s1)
  generalize moveDir n step hyst s1 = u at hcmp hsteady ⊢
  obtain ⟨⟨T, hfired⟩, hraised⟩ := testCompares_fires (p := p) (p' := p') (h.stays hcmp hsteady.pwr) (by rw [hcmp]; exact hcross)
  exact ⟨⟨T, hfired.trans (by rw [hcmp])⟩, hsteady.raised hraised⟩

/-- A move leaves the parameters of the position unit. -/
theorem movePos_word (n t : Nat) (p' : BitVec 64) (delta step : Int) (hyst : Nat) (s : State) {m k : Nat} (hm : m < 12) (hk : k < 16) :
    srcWord (movePos n t p' delta step hyst s) m k = srcWord s m k :=
  (movePos_rel (srcsKept_triggerRel t) n p' delta step hyst s).par (0x100 + 16 * m + k) (by omega)

/-! A count of an encoder. -/

/-- A crossing by source `n` between `s` and `t` has fired compare `c`. -/
def Fires (n c way : Nat) (s t : State) : Prop :=
  crossing (s.cmp c).modulo (s.cmp c).t (s.src n).p (t.src n).p = some way →
    (∃ T, t.cmp c = firedCmp T (s.cmp c)) ∧ Raised s t 0x0403 c [wrd way]

/-- No target lies between a position and itself. -/
theorem crossing_self (modulo : Bool) (T p : BitVec 64) : crossing modulo T p p = none := by
  have hzero : sgn32 (p.toNat % 2 ^ 32 + 2 ^ 32 - p.toNat % 2 ^ 32) = 0 := by
    rw [Nat.add_sub_cancel_left]
    rfl
  cases modulo
  · unfold crossing
    rw [if_neg (by decide), if_neg (by omega), if_neg (by omega)]
  · unfold crossing
    simp only [hzero]
    simp

theorem fires_of_p {n c way : Nat} {s t : State} (h : (t.src n).p = (s.src n).p) : Fires n c way s t := fun hcross => by
  rw [h, crossing_self] at hcross
  exact absurd hcross (by simp)

/-- Changes of the lines alone, before and after, are no crossing. -/
theorem Fires.lines {n c way : Nat} {s u v t : State} (hs : LinesOnly n s u) (h : Fires n c way u v) (ht : LinesOnly n v t) :
    Fires n c way s t := by
  obtain ⟨⟨r, l, ab, zf, hselfS⟩, -, S, rfl⟩ := hs
  obtain ⟨⟨r', l', ab', zf', hselfT⟩, -, S', rfl⟩ := ht
  unfold Fires at h ⊢
  rw [hselfS] at h
  rw [hselfT]
  exact h

/-- What a count of encoder `n` leaves of its lines, and the compares that it fires. -/
structure StepMoves (n tp : Nat) (s t : State) : Prop where
  raw : (t.src n).raw = (s.src n).raw
  levels : filtLevels (t.src n) = filtLevels (s.src n)
  fires : ∀ c way, Fireable s n tp c way → Fires n c way s t

theorem encoderStep_moves {s : State} {n : Nat} (hn : n < 2) (tp : Nat) (fwd z : Bool) (hindex : wbit (srcWord s n 3) 31 = false) :
    StepMoves n tp s (encoderStep n tp fwd z s) := by
  unfold encoderStep
  extract_lets st m p' delta s1 s2 s3 s4 w
  have h1 : s1.src n = { s.src n with changes := (s1.src n).changes, fwd := fwd, tick := tp } := by simp [s1, noteChange]
  have h2 : s2.src n = { s1.src n with count := (m % (srcCpr s1 n : Int)).toNat } := (src_updSrc s1 n n _).trans (if_pos rfl)
  rw [h1] at h2
  have hstay (c : Nat) : CmpStays c s s2 := (cmpStays_updSrc c s n _).trans (cmpStays_updSrc c s1 n _)
  have hword2 : srcWord s2 n 3 = srcWord s n 3 := rfl
  clear_value s2 p'
  have hsrc : bareSrc (s3.src n) = bareSrc { s2.src n with p := p', lastChange := some tp } := bareSrc_movePos n tp p' delta st _ s2
  have hp2 : (s2.src n).p = (s.src n).p := by rw [h2]
  rw [h2] at hsrc
  have hfires : ∀ c way, Fireable s n tp c way → crossing (s.cmp c).modulo (s.cmp c).t (s.src n).p p' = some way →
      (∃ T, s3.cmp c = firedCmp T (s.cmp c)) ∧ Raised s s3 0x0403 c [wrd way] := fun c way hfire hcross => by
    obtain ⟨hcmp, hsteady⟩ := hstay c
    obtain ⟨⟨T, hfired⟩, hraised⟩ := movePos_fires delta st (field (srcWord s2 n 0) 15 8) (hfire.stays hcmp hsteady.pwr)
      (by rw [hcmp, hp2]; exact hcross)
    exact ⟨⟨T, hfired.trans (by rw [hcmp])⟩, hsteady.raised hraised⟩
  have hword3 : srcWord s3 n 3 = srcWord s2 n 3 := movePos_word n tp p' delta st _ s2 (by omega) (by decide)
  obtain ⟨E, hs4⟩ : ∃ E, s4 = { s3 with pos := { s3.pos with emus := E } } := emuCount_frame n st s3
  have hw : w = srcWord s4 n 3 := rfl
  clear_value w s4 s3
  subst hs4
  have hword : w = srcWord s n 3 := hw.trans (hword3.trans hword2)
  rw [if_neg (by rw [hword, hindex]; simp)]
  have hp : (s3.src n).p = p' := (congrArg PosSrc.p hsrc :)
  refine ⟨(congrArg PosSrc.raw hsrc :), (congrArg filtLevels hsrc :), fun c way hfire hcross => ?_⟩
  exact hfires c way hfire (by rw [← hp]; exact hcross)

/-- Where no level differs from what has passed the filter, nothing passes. -/
theorem encoderSettle_none {s : State} {n : Nat} (h : ∀ k, k < 3 → ¬ Waits s n k) : encoderSettle n s = s := by
  have hnil : filtTicks s n = [] := List.eq_nil_iff_forall_not_mem.2 fun t ht => by
    obtain ⟨k, hk, hwait, _⟩ := mem_filtTicks.1 ht
    exact h k hk hwait
  have hpass : encoderPass n s = s := by
    unfold encoderPass
    rw [hnil]
    rfl
  show encoderPass n (encoderPass n (encoderPass n s)) = s
  simp only [hpass]

/-- Levels that pass together make one move at most, which leaves the lines as they show. -/
theorem encoderSettle_fires {s : State} {n tp d c way : Nat} (hn : n < 2) (hruns : posRuns s = true) (hen : srcEn s n = true)
    (hcap : (s.src n).capDue = none) (hindex : wbit (srcWord s n 3) 31 = false) (hraw : (s.src n).raw < 8)
    (hd : (quad ((s.src n).raw / 2) + 4 - quad (s.src n).ab) % 4 = d) (hd0 : d ≠ 0) (hd2 : d ≠ 2) (hnow : tp ≤ s.now)
    (hat : ∀ k, k < 3 → Waits s n k → (s.src n).rawAt.getD k 0 + srcFilt s n = tp) (hfire : Fireable s n tp c way) :
    Fires n c way s (encoderSettle n s) ∧ (encoderSettle n s = s ∧ (∀ k, k < 3 → ¬ Waits s n k) ∨
      ((encoderSettle n s).src n).raw = (s.src n).raw ∧ filtLevels ((encoderSettle n s).src n) = (s.src n).raw) := by
  by_cases hdiff : ∃ k, k < 3 ∧ Waits s n k
  case neg =>
    have hnone : ∀ k, k < 3 → ¬ Waits s n k := fun k hk hwait => hdiff ⟨k, hk, hwait⟩
    rw [encoderSettle_none hnone]
    exact ⟨fires_of_p rfl, .inl ⟨rfl, hnone⟩⟩
  case pos =>
    have hpass := (encoderPass_together hraw hdiff hnow hat).trans (encoderLevels_moves hruns hen hcap hd hd0)
    have hlines : LinesOnly n s (levelsPassed n (s.src n).raw s) := linesOnly_updSrc n s fun _ => rfl
    have hlevels := filtLevels_levelsPassed n (s.src n).raw s
    have hkeep : ((levelsPassed n (s.src n).raw s).src n).raw = (s.src n).raw := by simp [levelsPassed]
    have hfire' : Fireable (levelsPassed n (s.src n).raw s) n tp c way := hfire.stays rfl rfl
    have hindex' : wbit (srcWord (levelsPassed n (s.src n).raw s) n 3) 31 = false := hindex
    generalize levelsPassed n (s.src n).raw s = w at hpass hlines hlevels hkeep hfire' hindex'
    have hmove : levelsMove n tp d (decide ((s.src n).raw % 2 = 1)) w =
        encoderStep n tp (decide (d = 1) != wbit (srcWord w n 0) 28) (decide ((s.src n).raw % 2 = 1)) w := if_neg hd2
    rw [hmove] at hpass
    obtain ⟨hraw', hfilt', hfires⟩ :=
      encoderStep_moves hn tp (decide (d = 1) != wbit (srcWord w n 0) 28) (decide ((s.src n).raw % 2 = 1)) hindex'
    rw [encoderSettle_once hpass (by rw [hraw', hfilt', hkeep, hlevels])]
    exact ⟨(hfires c way hfire').lines hlines (.refl n _), .inr ⟨hraw'.trans hkeep, hfilt'.trans hlevels⟩⟩

/-- A count whose levels pass the filter at tick `tp` fires the compares whose target it crosses. -/
theorem encoderCount_fires {s : State} {n tp c way : Nat} {a b z : Bool} (hn : n < 2) (hruns : posRuns s = true) (hen : srcEn s n = true)
    (hcap : (s.src n).capDue = none) (hpass : LevelsPass s n a b z tp) (hindex : wbit (srcWord s n 3) 31 = false)
    (hd : (quad (2 * b2n a + b2n b) + 4 - quad (s.src n).ab) % 4 ∈ [1, 3]) (hfire : Fireable s n tp c way) :
    ∃ t, exec (.encoderCount n a b z) s = .next t ∧ Fires n c way s t := by
  have hlv := levels_lt a b z
  have hhalf : 2 * b2n a + b2n b = (4 * b2n a + 2 * b2n b + b2n z) / 2 := by
    have := b2n_le z
    omega
  rw [exec_encoderCount hn]
  unfold LevelsPass at hpass
  rw [hhalf] at hd
  generalize 4 * b2n a + 2 * b2n b + b2n z = lv at hlv hd hpass ⊢
  have hd0 : (quad (lv / 2) + 4 - quad (s.src n).ab) % 4 ≠ 0 := fun h => by simp [h] at hd
  have hd2 : (quad (lv / 2) + 4 - quad (s.src n).ab) % 4 ≠ 2 := fun h => by simp [h] at hd
  have hshow (u : State) : LinesOnly n u (pinsShow n lv u) := linesOnly_updSrc n u fun _ => rfl
  obtain ⟨hfilt, hraw, rfl⟩ | ⟨hraw, hnow, hat⟩ := hpass
  case inl =>
    rw [encoderSettle_settled hraw]
    have hself := src_pinsShow n lv s
    have hfilt' : srcFilt (pinsShow n lv s) n = 0 := hfilt
    have hraw' : ((pinsShow n lv s).src n).raw = lv := by rw [hself]
    have hab : ((pinsShow n lv s).src n).ab = (s.src n).ab := by rw [hself]
    refine ⟨_, rfl, ?_⟩
    refine ((encoderSettle_fires (s := pinsShow n lv s) (tp := s.now) hn hruns hen (by rw [hself]; exact hcap) hindex (by rw [hraw']; exact hlv)
      (by rw [hraw', hab]) hd0 hd2 (le_refl _) (fun k hk hwait => ?_) (hfire.stays rfl rfl)).1).lines (hshow s) (.refl n _)
    unfold Waits at hwait
    rw [hself] at hwait ⊢
    have hnew : (s.src n).raw.testBit k ≠ lv.testBit k := fun h => hwait (by rw [← h, hraw]; rfl)
    simp [hfilt', hnew, hk]
  case inr =>
    subst hraw
    obtain ⟨hfires, hsame | ⟨hraw', hlevels⟩⟩ := encoderSettle_fires hn hruns hen hcap hindex hlv rfl hd0 hd2 hnow hat hfire
    case inl =>
      obtain ⟨hsame, hnone⟩ := hsame
      rw [hsame]
      have hself := src_pinsShow n (s.src n).raw s
      have hnone' : ∀ k, k < 3 → ¬ Waits (pinsShow n (s.src n).raw s) n k := fun k hk hwait => hnone k hk (by
        unfold Waits at hwait ⊢
        rw [hself] at hwait
        exact hwait)
      rw [encoderSettle_none hnone']
      exact ⟨_, rfl, fires_of_p (by rw [hself])⟩
    case inr =>
      refine ⟨_, rfl, ?_⟩
      rw [encoderSettle_settled (s := pinsShow n (s.src n).raw (encoderSettle n s)) (by rw [src_pinsShow]; exact hlevels.symm)]
      exact hfires.lines (.refl n s) (hshow _)

/-! POS_CAPTURE. -/

/-- From `s` to `t` the sources stay. -/
structure SrcsStay (s t : State) : Prop where
  srcs : t.pos.srcs = s.pos.srcs

theorem SrcsStay.refl (s : State) : SrcsStay s s := ⟨rfl⟩

theorem SrcsStay.trans {s t u : State} (h : SrcsStay s t) (k : SrcsStay t u) : SrcsStay s u := ⟨k.srcs.trans h.srcs⟩

theorem SrcsStay.ev {s t : State} (h : EvStep s t) : SrcsStay s t := ⟨congrArg Position.srcs h.pos⟩

theorem SrcsStay.src {s t : State} (h : SrcsStay s t) (m : Nat) : t.src m = s.src m := by
  unfold State.src
  rw [h.srcs]

theorem srcsStay_crossCheck (d : Nat) (s : State) : SrcsStay s (crossCheck d s) := by
  have hset (v : Nat) : SrcsStay s { s with pos := { s.pos with mism := tblSet s.pos.mism 0 d v } } := ⟨rfl⟩
  unfold crossCheck
  dsimp only
  exact rel_ite (hset 0) (rel_ite (rel_ite ((hset 0).trans (.ev (ev_raise (.refl _)))) (hset _)) (hset 0))

theorem srcsStay_updSeq (s : State) (n : Nat) (f : Seq → Seq) : SrcsStay s (s.updSeq n f) := ⟨rfl⟩

theorem srcsStay_patchRecs (n t : Nat) (r : PosRec) (s : State) : SrcsStay s (patchRecs n t r s) :=
  forUpTo_rel SrcsStay.refl .trans (fun m _ u => rel_ite (srcsStay_updSeq u m _) (.refl u)) s

/-- A capture of source `n` moves no source and records in `n` alone. -/
theorem capture_records (n tc : Nat) (s : State) : ((capture n tc s).src n).capDue = none ∧ ((capture n tc s).src n).p = (s.src n).p ∧
    ((capture n tc s).src n).recd = {
      angle := (sourceAt s n tc).p.toNat % 2 ^ 32, turns := (sourceAt s n tc).p.toNat / 2 ^ 32,
      speed := captureSpeed s n (sourceAt s n tc) tc, dir := (sourceAt s n tc).dir,
      valid := srcValid s n && (decide (n < 2) || (sourceAt s n tc).started),
      tick := if n < 4 then tc else (sourceAt s n tc).tick, trig := tc } ∧
    ((capture n tc s).src n).prevRec = (s.src n).recd ∧ ∀ m, m ≠ n → (capture n tc s).src m = s.src m := by
  unfold capture
  extract_lets q still sp r edge s1 s2 s3 s4 s5
  have h1 : s1.src n = { s.src n with
      capDue := none, prevRec := (s.src n).recd, recd := r, speed := sp, method := edge, runCaps := (s.src n).runCaps + 1 } :=
    (src_updSrc s n n _).trans (if_pos rfl)
  have h2 : s2.src n = { s1.src n with standstill := (s2.src n).standstill, changes := (s2.src n).changes } := by simp [s2]
  have h3 : SrcsStay s2 s3 := .ev (ev_noteSpeeds (.refl s2))
  have h4 : s4.src n = { s3.src n with capTick := (s4.src n).capTick, moved := (s4.src n).moved } := by
    unfold s4
    split
    · simp
    · rfl
  have hothers (m : Nat) (hm : m ≠ n) : s4.src m = s.src m := by
    have h34 : s4.src m = s3.src m := by
      unfold s4
      split
      · exact (src_updSrc s3 n m _).trans (if_neg hm)
      · rfl
    rw [h34, h3.src m]
    exact ((src_updSrc s1 n m _).trans (if_neg hm)).trans ((src_updSrc s n m _).trans (if_neg hm))
  have h5 : SrcsStay s4 s5 := srcsStay_patchRecs n tc r s4
  suffices hend : ∀ t, SrcsStay s5 t → (t.src n).capDue = none ∧ (t.src n).p = (s.src n).p ∧ (t.src n).recd = r ∧
      (t.src n).prevRec = (s.src n).recd ∧ ∀ m, m ≠ n → t.src m = s.src m by
    refine hend _ (forUpTo_rel SrcsStay.refl .trans (fun d _ u => ?_) s5)
    have hcheck := srcsStay_crossCheck d u
    exact rel_ite (.refl u) (rel_ite (rel_ite (.refl u) hcheck) (rel_ite (.refl u) hcheck))
  intro t ht
  have hend := h5.trans ht
  rw [h3.src n, h2, h1] at h4
  refine ⟨?_, ?_, ?_, ?_, fun m hm => (hend.src m).trans (hothers m hm)⟩
  all_goals rw [hend.src n, h4]

/-! The statement. -/

/-- Settles O41: POS_COMPARE, the crossings that fire, and POS_CAPTURE. -/
theorem comparesAndCaptures : Obligations.ComparesAndCaptures := by
  unfold Obligations.ComparesAndCaptures
  intro s
  refine ⟨fun tag u n dir modulo lo hi step hu hn hdir hen hmod hstep hstart => ?_, fun tag u n dir modulo ws hu hn hdir hen hlen hstart => ?_,
    fun n tp a b z c way hn hcap hpass hruns hen hindex hc hawake harmed hsource harm hstep hway hd => ?_,
    fun n tc hn hruns hen hdue => ?_⟩
  · have hword : 2 ^ 31 + dir * 2 ^ 29 + b2n modulo * 2 ^ 28 + n * 2 ^ 16 + u = compareWord 1 dir modulo n u := by unfold compareWord; omega
    rw [hword] at hstart
    have hb := bodyPosCompare_sets (s := s) (tag := tag) (a := 1) (modulo := modulo) (ws := [lo, hi, step]) (by decide) hdir hn hu hen
      fun _ => ⟨hmod, hstep⟩
    exact posCompare_changes hstart (hb.trans (if_pos rfl)) rfl
  · have hword : dir * 2 ^ 29 + b2n modulo * 2 ^ 28 + n * 2 ^ 16 + u = compareWord 0 dir modulo n u := by unfold compareWord; omega
    rw [hword] at hstart
    have hb := bodyPosCompare_sets (s := s) (tag := tag) (a := 0) (modulo := modulo) (ws := ws) (by decide) hdir hn hu hen
      fun h => absurd h (by decide)
    exact posCompare_changes hstart (hb.trans (if_neg (by decide))) rfl
  · obtain ⟨t, hexec, hfires⟩ := encoderCount_fires hn hruns hen hcap hpass hindex hd ⟨hc, hawake, harmed, hsource, harm, hstep, hway⟩
    refine ⟨t, hexec, fun hcross => ?_⟩
    obtain ⟨⟨T, hT⟩, hraised⟩ := hfires hcross
    exact ⟨by rw [hT]; rfl, hraised⟩
  · have hexec : exec (.posCapture n) s = .next (capture n tc s) := by
      refine congrArg Host.Outcome.next ?_
      rw [hdue]
      exact if_pos ⟨hn, hruns, hen⟩
    obtain ⟨hcap, hp, hrec, hprev, hothers⟩ := capture_records n tc s
    obtain ⟨hcmps, hemus⟩ := cmpsStay_capture n tc s
    have hoff : OffGraver s (capture n tc s) := capture_rel offGraver_captureRel n tc s
    refine ⟨_, hexec, hcap, hp, ?_, ?_, ?_, fun hvalid => ?_, ?_, hprev, hothers, hcmps, hemus, hoff.nv, hoff.cells, hoff.plate⟩
    all_goals rw [hrec]
    obtain h | h := hvalid <;> simp [h]

end Sys2Proof.Proofs
end

section
/-!
PROOFS. Mailboxes, doorbells and relayed requests (R425 to R429).
-/
namespace Sys2Proof.Proofs
open Sys2Proof.Machine Sys2Proof.Safety Sys2Proof.Laws

/-! A cell that arrives in order. -/

/-- `s` after a cell was taken in order, before its content is. The slots of acknowledged messages and the timing of the cells that
wait may differ. -/
def cellTaken (ack : Nat) (rs : List Cell) (n x : Nat) (ob : Tbl (List Word)) (os : Tbl Bool) (la : Bool) (s : State) : State :=
  updMarg s fun m => { m with
    crcRun := 0, rxTick := some s.now, rxSeq := (m.rxSeq + 1) % 0x10000, unacked := m.unacked.filter (fun c => !acked ack c.seq),
    resend := rs, resends := n, ackTick := x, outbox := ob, outSent := os, leaveAck := la }

theorem takeCell_takes {s : State} {seq : Nat} (h : Arrives s seq) (ack : Nat) :
    ∃ rs n x ob os la, ∀ k, takeCell seq ack k s = k (cellTaken ack rs n x ob os la s) := by
  obtain ⟨rs, n, x, ob, os, la, hack⟩ :=
    takeAck_frame ack (s := updMarg (noteCell s) fun m => { m with rxSeq := (m.rxSeq + 1) % 0x10000 }) h.stays
  have hfull : takeAck ack (updMarg (noteCell s) fun m => { m with rxSeq := (m.rxSeq + 1) % 0x10000 }) =
      cellTaken ack rs n x ob os la s := by
    rw [hack]
    simp only [updMarg, noteCell, cellTaken]
  refine ⟨rs, n, x, ob, os, la, fun k => ?_⟩
  rw [takeCell, if_neg (by simp [h.up, h.runs]), ← hfull]
  exact if_neg (not_not.2 h.next)

section Taken
variable (ack : Nat) (rs : List Machine.Cell) (n x : Nat) (ob : Tbl (List Word)) (os : Tbl Bool) (la : Bool) (s : State)

theorem taken_cellTaken : Taken s (cellTaken ack rs n x ob os la s) ack := ⟨rfl, rfl, rfl⟩

end Taken

/-! Mailboxes. -/

section
variable {s : State} {tag : Nat}

theorem fieldLow_wrd {n : Nat} (hn : n < 16) : field (wrd n) 3 0 = n := by
  rw [field_wrd (by omega)]
  omega

theorem mailWords_eight {ws : List Word} (h : ws.length = 8) : mailWords ws = ws := by
  unfold mailWords
  rw [List.take_append_of_le_length (by omega), List.take_of_length_le (by omega)]

theorem mbxPost_posts {n : Nat} {ws : List Word} (hn : n < 14) (hlen : ws.length = 8) (hfree : slotFull s n = false)
    (h : Starts s tag 0x90 (wrd n :: ws)) : ∃ t, exec (.mbxPost tag) s = .next t ∧ Replied s t tag 0 [] ∧ tblGet t.marg.outbox [] n = ws ∧
      (∀ m, m ≠ n → tblGet t.marg.outbox [] m = tblGet s.marg.outbox [] m) ∧
      t = { s with folio := t.folio, marg := { s.marg with outbox := t.marg.outbox, outSent := t.marg.outSent } } := by
  have hb : bodyMbxPost (wrd n :: ws) (begun s tag) = .done stOk [] (postMessage (begun s tag) n ws) := by
    unfold bodyMbxPost
    simp only [pw, List.getD_cons_zero, fieldLow_wrd (show n < 16 by omega), List.drop_one, List.tail_cons, mailWords_eight hlen]
    refine checked_nil _ ?_ _
    have hclean : hasBits (wrd n) 0xFFFFFFF0 = false := hasBits_small (k := 4) (by decide) (by decide) (by omega)
    have hfree' : slotFull (begun s tag) n = false := hfree
    rw [hclean, hfree']
    simpa using hn
  obtain ⟨t, ht, hr, f, rfl⟩ := completes h hb rfl rfl
  exact ⟨_, congrArg Host.Outcome.next ht, hr, tblGet_write_self s.marg.outbox [] ws n, fun m hm => tblGet_write_ne s.marg.outbox [] [] ws hm, rfl⟩

/-- A cell that is queued while the link is up. -/
theorem queueCell_up (s : State) (t : CellType) (sub : Nat) (ws : List Word) : (if s.marg.linkUp then queueCell s t sub ws else s) =
    { s with marg := { s.marg with queue := s.marg.queue ++ if s.marg.linkUp then [⟨t, 0, 0, sub, ws, 0⟩] else [] } } := by
  split
  · rfl
  · rw [List.append_nil]

/-- A mailbox that is emptied, and the cell that returns its credit while the link is up. -/
theorem emptyInbox_empties (n : Nat) (s : State) : inMessage (emptyInbox n s) n = none ∧
    (∀ m, m ≠ n → inMessage (emptyInbox n s) m = inMessage s m) ∧
    ∃ I Q, emptyInbox n s = { s with marg := { s.marg with inbox := I, queue := Q } } := by
  unfold emptyInbox
  dsimp only
  rw [queueCell_up]
  exact ⟨tblGet_write_self s.marg.inbox none none n, fun m hm => tblGet_write_ne s.marg.inbox none none none hm, _, _, rfl⟩

theorem bodyMbxRead_eq {n : Nat} (hn : n < 16) (h12 : n ≠ 12) (h13 : n ≠ 13) : bodyMbxRead [wrd n] (begun s tag) =
    match inMessage s n with
    | none => .done stOk [0] (begun s tag)
    | some m => .done (if m.2 then stPoison else stOk) (1 :: m.1) (emptyInbox n (begun s tag)) := by
  unfold bodyMbxRead
  simp only [pw, List.getD_cons_zero, fieldLow_wrd hn]
  refine checked_nil _ ?_ _
  have hclean : hasBits (wrd n) 0xFFFFFFF0 = false := hasBits_small (k := 4) (by decide) (by decide) (by omega)
  rw [hclean]
  simp [h12, h13]

theorem mbxRead_none {n : Nat} (hn : n < 16) (h12 : n ≠ 12) (h13 : n ≠ 13) (h : Starts s tag 0x91 [wrd n]) (hin : inMessage s n = none) :
    ∃ t, exec (.mbxRead tag) s = .next t ∧ Replied s t tag 0 [0] ∧ t = { s with folio := t.folio } := by
  have hb := bodyMbxRead_eq (s := s) (tag := tag) hn h12 h13
  rw [hin] at hb
  exact completes_reading h hb

theorem mbxRead_some {n : Nat} {ws : List Word} {mark : Bool} (hn : n < 16) (h12 : n ≠ 12) (h13 : n ≠ 13) (h : Starts s tag 0x91 [wrd n])
    (hin : inMessage s n = some (ws, mark)) : ∃ t, exec (.mbxRead tag) s = .next t ∧
      Replied s t tag (if mark then stPoison else 0) (1 :: ws) ∧ inMessage t n = none ∧ (∀ m, m ≠ n → inMessage t m = inMessage s m) ∧
      t = { s with folio := t.folio, marg := { s.marg with inbox := t.marg.inbox, queue := t.marg.queue } } := by
  have hb := bodyMbxRead_eq (s := s) (tag := tag) hn h12 h13
  rw [hin] at hb
  obtain ⟨hnone, hothers, I, Q, hframe⟩ := emptyInbox_empties n (begun s tag)
  dsimp only at hb
  rw [hframe] at hb hnone hothers
  obtain ⟨t, ht, hr, f, rfl⟩ := completes h hb rfl rfl
  exact ⟨_, congrArg Host.Outcome.next ht, hr, hnone, hothers, rfl⟩

/-! Doorbells. -/

theorem doorbell_rings {a b : Word} (h : Starts s tag 0x92 [a, b]) : ∃ t, exec (.doorbell tag) s = .next t ∧
    Replied s t tag 0 [s.marg.doorbell &&& ~~~ b] ∧ t.marg.doorbell = s.marg.doorbell &&& ~~~ b ∧
    t.marg.queue = s.marg.queue ++ (if s.marg.linkUp then [⟨.doorbell, 0, 0, 0, [a, 0, 0, 0, 0, 0, 0, 0], 0⟩] else []) ∧
    t = { s with folio := t.folio, marg := { s.marg with doorbell := t.marg.doorbell, queue := t.marg.queue } } := by
  have hb : bodyDoorbell [a, b] (begun s tag) = .done stOk [s.marg.doorbell &&& ~~~ b] (updMarg (begun s tag) fun m => { m with
      doorbell := m.doorbell &&& ~~~ b,
      queue := m.queue ++ (if s.marg.linkUp then [⟨.doorbell, 0, 0, 0, [a, 0, 0, 0, 0, 0, 0, 0], 0⟩] else []) }) := by
    unfold bodyDoorbell
    dsimp only
    rw [queueCell_up]
    rfl
  obtain ⟨t, ht, hr, f, rfl⟩ := completes h hb rfl rfl
  exact ⟨_, congrArg Host.Outcome.next ht, hr, rfl, rfl, rfl⟩

end

/-! Cells. -/

section Arrives
variable {s : State} {seq : Nat} (h : Arrives s seq) (ack : Nat)
include h

theorem mailboxReceived_fills {n : Nat} {ws : List Word} (hn : n < 16) (hlen : ws.length = 8) (hin : inMessage s n = none) :
    ∃ t, exec (.mailboxReceived seq ack n ws) s = .next t ∧ Taken s t ack ∧ inMessage t n = some (ws, false) ∧
      (∀ m, m ≠ n → inMessage t m = inMessage s m) ∧ (n ≠ 12 → n ≠ 13 → Raised s t 0x0B04 n []) ∧
      t = { s with marg := t.marg, book := { s.book with inq := t.book.inq } } := by
  obtain ⟨rs, r, x, ob, os, la, htake⟩ := takeCell_takes h ack
  have hnone : inMessage (cellTaken ack rs r x ob os la s) n = none := hin
  have hgo : ¬ (16 ≤ n ∨ (inMessage (cellTaken ack rs r x ob os la s) n).isSome = true) := by
    rw [hnone]
    simp [hn]
  have hself : tblGet (tblSet s.marg.inbox none n (some (mailWords ws, false))) none n = some (ws, false) := by
    rw [tblGet_write_self, mailWords_eight hlen]
  have hothers : ∀ m, m ≠ n → tblGet (tblSet s.marg.inbox none n (some (mailWords ws, false))) none m = tblGet s.marg.inbox none m :=
    fun m hm => tblGet_write_ne _ _ _ _ hm
  by_cases hrelay : n = 12 ∨ n = 13
  case pos =>
    exact ⟨_, congrArg Host.Outcome.next ((htake _).trans ((if_neg hgo).trans (if_pos hrelay))), ⟨rfl, rfl, rfl⟩, hself, hothers,
      fun h12 h13 => absurd hrelay (by simp [h12, h13]), rfl⟩
  case neg =>
    have hquiet := record_quiet (s := updMarg (cellTaken ack rs r x ob os la s) fun m => { m with
      inbox := tblSet m.inbox none n (some (mailWords ws, false)) }) (code := 0x0B04) (idx := n) (args := []) (by decide) rfl (by decide)
    have hraised := record_raises (updMarg (cellTaken ack rs r x ob os la s) fun m => { m with
      inbox := tblSet m.inbox none n (some (mailWords ws, false)) }) 0x0B04 n []
    refine ⟨_, congrArg Host.Outcome.next ((htake _).trans ((if_neg hgo).trans (if_neg hrelay))), ?_⟩
    dsimp only
    rw [hquiet] at hraised ⊢
    exact ⟨⟨rfl, rfl, rfl⟩, hself, hothers, fun _ _ => hraised, rfl⟩

theorem mbxFreeReceived_returns {n : Nat} (hn : n < 16) : ∃ t, exec (.mbxFreeReceived seq ack n) s = .next t ∧ Taken s t ack ∧
    t.marg.credit.testBit n = true ∧ (∀ m, m ≠ n → t.marg.credit.testBit m = s.marg.credit.testBit m) ∧ t = { s with marg := t.marg } := by
  obtain ⟨rs, r, x, ob, os, la, htake⟩ := takeCell_takes h ack
  refine ⟨_, congrArg Host.Outcome.next ((htake _).trans (if_neg (Nat.not_le.2 hn))), ⟨rfl, rfl, rfl⟩, ?_, fun m hm => ?_, rfl⟩
  · exact (testBit_putBit s.marg.credit n n true).trans (if_pos rfl)
  · exact (testBit_putBit s.marg.credit n m true).trans (if_neg hm)

theorem doorbellReceived_rings (w : Word) : ∃ t, exec (.doorbellReceived seq ack w) s = .next t ∧ Taken s t ack ∧
    t.marg.doorbell = s.marg.doorbell ||| w ∧ Raised s t 0x0B05 0 [w] ∧
    t = { s with marg := t.marg, book := { s.book with inq := t.book.inq } } := by
  obtain ⟨rs, r, x, ob, os, la, htake⟩ := takeCell_takes h ack
  have hquiet := record_quiet (s := updMarg (cellTaken ack rs r x ob os la s) fun m => { m with doorbell := m.doorbell ||| w })
    (code := 0x0B05) (idx := 0) (args := [w]) (by decide) rfl (by decide)
  have hraised := record_raises (updMarg (cellTaken ack rs r x ob os la s) fun m => { m with doorbell := m.doorbell ||| w }) 0x0B05 0 [w]
  refine ⟨_, congrArg Host.Outcome.next (htake _), ?_⟩
  dsimp only
  rw [hquiet] at hraised ⊢
  exact ⟨⟨rfl, rfl, rfl⟩, rfl, hraised, rfl⟩

end Arrives

/-! Relay. -/

theorem outbox_postMessage (s : State) (n : Nat) (ws : List Word) : tblGet (postMessage s n ws).marg.outbox [] n = ws :=
  tblGet_write_self s.marg.outbox [] ws n

/-- The request of mailbox `mbx` has been taken. -/
theorem relayRequest_taken {s : State} {n : Nat} {ws : List Word} {mark : Bool} (hn : n = 12 ∨ n = 13) (hready : engineReady s 0x03 = true)
    (hfree : slotFull s (n + 2) = false) (hwait : tblGet s.marg.relayWait [] n = []) (hin : inMessage s n = some (ws, mark)) :
    exec (.relayRequest n) s = .next (
      if relayCode s (BitVec.ofNat 64 (ofTwoWords (ws.getD 0 0) (ws.getD 1 0))) = acAccepted then
        relayRun n (BitVec.ofNat 64 (ofTwoWords (ws.getD 0 0) (ws.getD 1 0)))
          ((ws.drop 2).take (hLength (BitVec.ofNat 64 (ofTwoWords (ws.getD 0 0) (ws.getD 1 0)))))
          (ws.getD (2 + hLength (BitVec.ofNat 64 (ofTwoWords (ws.getD 0 0) (ws.getD 1 0)))) 0) (emptyInbox n s)
      else postMessage (emptyInbox n s) (n + 2) (relayMessage (relayCode s (BitVec.ofNat 64 (ofTwoWords (ws.getD 0 0) (ws.getD 1 0)))) none [])) := by
  have hgo : ¬ ((!(n = 12 || n = 13) || !engineReady s 0x03 || slotFull s (n + 2) || tblGet s.marg.relayWait [] n ≠ []) = true) := by
    rw [hready, hfree, hwait]
    obtain rfl | rfl := hn <;> decide
  have hpart : (emptyInbox n s).part = s.part := by
    obtain ⟨I, Q, hframe⟩ := (emptyInbox_empties n s).2.2
    rw [hframe]
  have hcode (h : BitVec 64) : relayCode (emptyInbox n s) h = relayCode s h := by
    unfold relayCode
    rw [hpart]
  have hexec : execRelayRequest n s = .next _ := congrArg Host.Outcome.next (if_neg hgo)
  refine hexec.trans ?_
  rw [hin]
  dsimp only
  rw [hcode]

theorem relayRequest_refused {s : State} {n : Nat} {ws : List Word} {mark : Bool} (hn : n = 12 ∨ n = 13) (hready : engineReady s 0x03 = true)
    (hfree : slotFull s (n + 2) = false) (hwait : tblGet s.marg.relayWait [] n = []) (hin : inMessage s n = some (ws, mark))
    (hcode : relayCode s (BitVec.ofNat 64 (ofTwoWords (ws.getD 0 0) (ws.getD 1 0))) ≠ acAccepted) :
    ∃ t, exec (.relayRequest n) s = .next t ∧ inMessage t n = none ∧ tblGet t.marg.outbox [] (n + 2) =
      relayMessage (relayCode s (BitVec.ofNat 64 (ofTwoWords (ws.getD 0 0) (ws.getD 1 0)))) none [] ∧ t = { s with marg := t.marg } := by
  have hexec := relayRequest_taken hn hready hfree hwait hin
  rw [if_neg hcode] at hexec
  obtain ⟨hnone, -, I, Q, hframe⟩ := emptyInbox_empties n s
  generalize emptyInbox n s = u at hexec hnone hframe
  refine ⟨_, hexec, hnone, outbox_postMessage .., ?_⟩
  rw [hframe]
  rfl

/-- The values of these units do not depend on the mailboxes. -/
theorem readParam_margin {u : Nat} (h : quietUnit u) (i : Nat) (s : State) (I : Tbl (Option (List Word × Bool))) (Q : List Machine.Cell)
    (W : Tbl (List Nat)) : readParam { s with marg := { s.marg with inbox := I, queue := Q, relayWait := W } } u i = readParam s u i := by
  simp only [quietUnit, List.mem_cons, List.mem_nil_iff, or_false] at h
  rcases h with rfl | rfl | rfl | rfl | rfl | rfl | rfl | rfl <;> rfl

/-- A relayed command that completes: its message stands in the reply mailbox, and it no longer waits. -/
theorem completeTag_relayed {s : State} {n op t unit : Nat} (status : Nat) (ws : List Word)
    (h : tblGet s.marg.relayWait [] n = [op, t, unit]) : completeTag (relayTag n) status ws s =
      postMessage { s with marg := { s.marg with relayWait := tblSet s.marg.relayWait [] n [] } } (n + 2)
        (relayMessage 9 (some (mkHeader op t ws.length unit 2 status)) ws) := by
  have htag : relayTag n - 1024 = n := Nat.add_sub_cancel_left ..
  unfold completeTag
  rw [if_pos (show 1024 ≤ relayTag n from Nat.le_add_right ..), htag, h]

theorem relayRequest_reads {s : State} {n : Nat} {ws l : List Word} {mark : Bool} {h : BitVec 64} (hn : n = 12 ∨ n = 13)
    (hready : engineReady s 0x03 = true) (hfree : slotFull s (n + 2) = false) (hwait : tblGet s.marg.relayWait [] n = [])
    (hin : inMessage s n = some (ws, mark)) (hh : h = BitVec.ofNat 64 (ofTwoWords (ws.getD 0 0) (ws.getD 1 0)))
    (hcode : relayCode s h = acAccepted) (hop : hOpcode h = 0x03) (hl : l = (ws.drop 2).take (hLength h))
    (hcrc : ws.getD (2 + hLength h) 0 = payloadCrc l) (hserved : opServed 0x03 s.op = true) (hshut : s.op ≠ .shutdown)
    (hentries : ∀ a ∈ l, getBad s a = false ∧ isAbsent s (adUnit a) (adIndex a) = false ∧ quietUnit (adUnit a)) :
    ∃ t r, exec (.relayRequest n) s = .next t ∧ inMessage t n = none ∧
      r = (l.flatMap fun a => [a, readParam s (adUnit a) (adIndex a)]) ∧
      tblGet t.marg.outbox [] (n + 2) = relayMessage 9 (some (mkHeader 0x03 (hTag h) r.length (hUnit h) 2 0)) r ∧
      t = { s with marg := t.marg } := by
  have hexec := relayRequest_taken hn hready hfree hwait hin
  rw [← hh, if_pos hcode, ← hl, hcrc] at hexec
  obtain ⟨hnone, -, I, Q, hframe⟩ := emptyInbox_empties n s
  rw [hframe] at hexec hnone
  have hI : tblGet I none n = none := hnone
  generalize hu : ({ s with marg := { s.marg with
    inbox := I, queue := Q, relayWait := tblSet s.marg.relayWait [] n [0x03, hTag h, hUnit h] } } : State) = u
  have hop' : u.op = s.op := by rw [← hu]
  have hlocked : servedLocked 0x03 = true := by decide
  have hserve : serve 0x03 (bodyGetParam l) u = bodyGetParam l u := by
    unfold serve
    rw [hop', if_neg (by simp [hshut]), if_neg (by simp [hlocked]), if_neg (by simp [hserved])]
  have hvalues : (l.flatMap fun a => [a, readParam u (adUnit a) (adIndex a)]) = l.flatMap fun a => [a, readParam s (adUnit a) (adIndex a)] :=
    List.flatMap_congr fun a ha => by rw [← hu, readParam_margin (hentries a ha).2.2]
  have hbody : bodyGetParam l u = .done stOk (l.flatMap fun a => [a, readParam u (adUnit a) (adIndex a)]) u :=
    bodyGetParam_quiet (by rw [hop']; exact hshut) (by rw [← hu]; exact hentries)
  rw [hvalues] at hbody
  have hrun : relayRun n h l (payloadCrc l) { s with marg := { s.marg with inbox := I, queue := Q } } =
      settle (relayTag n) (serve 0x03 (bodyGetParam l) u) := by
    unfold relayRun
    rw [hop, ← hu]
    exact if_neg (fun hbad => hbad.2 rfl)
  have hrelay : tblGet u.marg.relayWait [] n = [0x03, hTag h, hUnit h] := by
    rw [← hu]
    exact tblGet_write_self s.marg.relayWait [] [0x03, hTag h, hUnit h] n
  rw [hrun, hserve, hbody] at hexec
  refine ⟨_, _, hexec.trans (congrArg Host.Outcome.next (completeTag_relayed stOk _ hrelay)), ?_, rfl, ?_, ?_⟩
  · rw [← hu]
    exact hI
  · exact outbox_postMessage ..
  · rw [← hu]
    rfl

/-! The statement. -/

/-- Settles O48: messages, doorbells and relayed requests. -/
theorem pairMessages : Obligations.PairMessages := by
  unfold Obligations.PairMessages
  intro s
  refine ⟨fun tag n ws hn hlen hfree h => mbxPost_posts hn hlen hfree h,
    fun tag n hn h12 h13 h => ⟨mbxRead_none hn h12 h13 h, fun ws mark => mbxRead_some hn h12 h13 h⟩,
    fun tag a b h => doorbell_rings h,
    fun seq ack h => ⟨fun n ws hn hlen hin => mailboxReceived_fills h ack hn hlen hin, fun n hn => mbxFreeReceived_returns h ack hn,
      doorbellReceived_rings h ack⟩,
    fun n ws mark hn hready hfree hwait hin => ⟨fun c hc hne => ?_, fun h l hh hcode hop hl hcrc hserved hshut hentries => ?_⟩⟩
  · subst hc
    exact relayRequest_refused hn hready hfree hwait hin hne
  · exact relayRequest_reads hn hready hfree hwait hin hh hcode hop hl hcrc hserved hshut hentries

end Sys2Proof.Proofs
end

section
/-!
PROOFS. The TAP and the unlocking of debug (R341 to R346).
-/
namespace Sys2Proof.Proofs
open Sys2Proof.Machine Sys2Proof.Safety Sys2Proof.Laws

theorem settlePairs_alone (s : State) : PairsAlone s (settlePairs s) :=
  forUpTo_rel PairsAlone.refl PairsAlone.trans (fun p _ u => (settlePair_alone u p).pairs) s

/-- Selecting an instruction of the TAP changes it and, by EXTEST, output pairs. -/
theorem selectTap_selects (i : TapInstr) (s : State) : ∃ P, selectTap i s =
    { s with plate := { s.plate with tap := i }, hatch := { s.hatch with pairs := P } } := by
  obtain ⟨P, hP⟩ := settlePairs_alone (updPlate s fun p => { p with tap := i })
  exact ⟨P, hP⟩

theorem idcode_odd (s : State) : wbit (idcode s) 0 = true := by
  unfold idcode
  rw [wbit_wrd (by decide), Nat.testBit_zero]
  generalize (match s.part with | .itc8120 => 0x8120 | .itc8112 => 0x8112 | .itc8104 => 0x8104) = p
  exact decide_eq_true (by omega)

/-- Settles O56: the TAP selects what it is given, and only a response that verifies unlocks debug. -/
theorem debugUnlock : Obligations.DebugUnlock := by
  unfold Obligations.DebugUnlock
  intro s
  refine ⟨?_, ?_, ?_, ?_, fun hon hop => ?_, fun hoff => ?_, fun hon => ?_, fun hshut hboot => ?_, fun ws hlen hnonce hlocked => ?_,
    fun ws hbad => ?_, fun hcheck => ⟨?_, ?_⟩, fun ok hcheck => ?_, fun hblock hend => ?_, fun hon => ?_⟩
  · obtain ⟨P, hP⟩ := selectTap_selects .bypass s
    exact ⟨_, congrArg Host.Outcome.next hP, rfl, rfl⟩
  · obtain ⟨P, hP⟩ := selectTap_selects .idcode s
    exact ⟨_, idcode s, congrArg (fun u => Host.Outcome.next (updPlate u fun p => { p with tdo := [idcode s] })) hP, rfl, idcode_odd s, rfl⟩
  · obtain ⟨P, hP⟩ := selectTap_selects .samplePreload s
    exact ⟨_, congrArg Host.Outcome.next hP, rfl, rfl⟩
  · obtain ⟨P, hP⟩ := selectTap_selects .idcode s
    exact ⟨_, congrArg Host.Outcome.next hP, rfl, rfl⟩
  · obtain ⟨P, hP⟩ := selectTap_selects .extest s
    have hdebug : debugOn s = true := decide_eq_true hon
    refine ⟨_, congrArg Host.Outcome.next ((if_pos ⟨hdebug, hop⟩).trans hP), rfl, ?_, rfl⟩
    unfold safeNCause
    split_ifs <;> simp_all
  · have hdebug : ¬ debugOn s = true := fun h => hoff (of_decide_eq_true h)
    exact ⟨congrArg Host.Outcome.next (if_neg fun h => hdebug h.1), congrArg Host.Outcome.next (if_neg hdebug)⟩
  · obtain ⟨P, hP⟩ := selectTap_selects .debugAccess s
    have hdebug : debugOn s = true := decide_eq_true hon
    exact ⟨_, congrArg Host.Outcome.next ((if_pos hdebug).trans hP), rfl, rfl⟩
  · obtain ⟨P, hP⟩ := selectTap_selects .challenge { s with free := s.free + 1 }
    refine ⟨_, Config.nonce s.free, congrArg Host.Outcome.next ((if_neg ?_).trans (congrArg (fun u => updPlate u fun p => { p with
      nonce := some (Config.nonce s.free), tdo := twoWords (Config.nonce s.free).toNat ++ twoWords Config.serial.toNat }) hP)), rfl, rfl⟩
    rintro (h | ⟨h, _⟩)
    · exact hshut h
    · exact hboot h
  · obtain ⟨P, hP⟩ := selectTap_selects .response s
    refine ⟨_, congrArg Host.Outcome.next ((if_neg ?_).trans
      (congrArg (fun u => updPlate u fun p => { p with nonce := none, debug := .checking }) hP)), rfl, rfl⟩
    rintro (h | h | h)
    · exact hnonce h
    · exact h hlen
    · exact h hlocked
  · refine congrArg Host.Outcome.next (if_pos ?_)
    obtain h | h | h := hbad
    · exact .inr (.inl h)
    · exact .inl h
    · exact .inr (.inr h)
  · have hev : EvStep (updPlate s fun p => { p with debug := .unlocked }) _ := ev_record (code := 0x0808) (idx := 0) (args := []) (.refl _)
    have hraised := record_raises (updPlate s fun p => { p with debug := .unlocked }) 0x0808 0 []
    have hexec : exec (.unlockVerified true) s = .next (record (updPlate s fun p => { p with debug := .unlocked }) 0x0808 0 []) :=
      congrArg Host.Outcome.next (if_neg (not_not.2 hcheck))
    refine ⟨_, hexec, hev.plate, raised_of hraised rfl rfl, ?_⟩
    rw [hev.plate]
    exact reacted_of_evStep hev
  · exact congrArg Host.Outcome.next (if_neg (not_not.2 hcheck))
  · exact congrArg Host.Outcome.next (if_pos hcheck)
  · refine congrArg Host.Outcome.next (if_pos ⟨hblock, ?_⟩)
    obtain h | h := hend
    · exact .inl (by rw [h]; rfl)
    · exact .inr h
  · obtain ⟨P, hP⟩ := selectTap_selects .lock s
    have hexec := congrArg (fun u => (Host.Outcome.next (updPlate u fun p => { p with
      debug := if p.debug = .unlocked then .locked else p.debug }) : Host.Outcome State Fault Refusal)) hP
    refine ⟨_, hexec, ?_, rfl⟩
    exact congrArg (fun d => { s.plate with tap := TapInstr.lock, debug := d }) (if_pos hon)

end Sys2Proof.Proofs
end

section
/-!
PROOFS. The update of the firmware: FW_BEGIN, FW_DATA, FW_COMMIT, FW_ABORT (R130, R131).
-/
namespace Sys2Proof.Proofs
open Sys2Proof.Machine Sys2Proof.Safety Sys2Proof.Laws

/-! What a read of a slot does, with any Folio unit. -/

/-- `s` with another Folio unit. -/
def withFolio (f : Folio) (s : State) : State := { s with folio := f }

theorem withFolio_ite (f : Folio) (c : Prop) [Decidable c] (s t : State) :
    withFolio f (if c then s else t) = if c then withFolio f s else withFolio f t := by
  split <;> rfl

theorem recordUntested_withFolio (f : Folio) (s : State) {code : Nat} (idx : Nat) (args : List Word) (hc : eventClass code ≠ 2)
    (hd : ∀ s, eventDrive (mkEvent s code idx args) = none) (h : code ≠ 0x0902) :
    recordUntested (withFolio f s) code idx args = withFolio f (recordUntested s code idx args) := by
  have hrecord : record (withFolio f s) code idx args = withFolio f (record s code idx args) := by
    rw [record_quiet hc (hd _) h, record_quiet hc (hd _) h]
    rfl
  have hunder : underTest (withFolio f s) (code / 256) = underTest s (code / 256) := rfl
  unfold recordUntested
  rw [hrecord, withFolio_ite, hunder]

theorem noteCorrected_withFolio (f : Folio) (s : State) (a : Nat) : noteCorrected (withFolio f s) a = withFolio f (noteCorrected s a) := by
  have hnote := recordUntested_withFolio f { s with mem := { s.mem with ceTick := tblSet s.mem.ceTick none (regionNum s a) (some s.now) } }
    (code := 0x0A01) (regionNum s a) (twoWords (a / 8 * 8)) (by decide) (fun _ => rfl) (by decide)
  unfold noteCorrected
  dsimp only
  rw [withFolio_ite]
  exact congrArg (fun u => if (match tblGet s.mem.ceTick none (regionNum s a) with
    | some t => !inSlide s.now t msTicks
    | none => true) = true then u else withFolio f s) hnote

theorem eccRead_withFolio (f : Folio) (s : State) (a : Nat) (back raced : Bool) :
    eccRead (withFolio f s) a back raced = withFolio f (eccRead s a back raced) := by
  have hopen : mramOpen (withFolio f s) = mramOpen s := rfl
  have herr : errAt (withFolio f s) a = errAt s a := rfl
  have hregion : regionNum (withFolio f s) a = regionNum s a := rfl
  unfold eccRead
  rw [herr, hopen]
  cases errAt s a with
  | none => rfl
  | single =>
    have hnote := noteCorrected_withFolio f (parCount s 10 (0x12 + 4 * memOf a) 1) a
    dsimp only
    rw [withFolio_ite, withFolio_ite, show parCount (withFolio f s) 10 (0x12 + 4 * memOf a) 1 = withFolio f (parCount s 10 (0x12 + 4 * memOf a) 1) from rfl, hnote]
    rfl
  | multi =>
    have hnote := recordUntested_withFolio f (parCount s 10 (0x13 + 4 * memOf a) 1) (code := 0x0A02) (regionNum s a) (twoWords (a / 8 * 8))
      (by decide) (fun _ => rfl) (by decide)
    dsimp only
    rw [withFolio_ite, withFolio_ite, hregion, show parCount (withFolio f s) 10 (0x13 + 4 * memOf a) 1 = withFolio f (parCount s 10 (0x13 + 4 * memOf a) 1) from rfl, hnote]
    rfl

theorem demandRead_withFolio (f : Folio) (s : State) (a : Nat) : demandRead (withFolio f s) a = withFolio f (demandRead s a) := by
  have hback (u : State) (b : Nat) : regionBack (withFolio f u) b = regionBack u b := rfl
  have hwritten (u : State) (b : Nat) : blockWritten (withFolio f u) b = blockWritten u b := rfl
  have hbad (u : State) (b : Nat) : wmapBad (withFolio f u) b = wmapBad u b := rfl
  have hmap : mapRead (withFolio f s) a = withFolio f (mapRead s a) := by
    unfold mapRead
    rw [withFolio_ite, ← eccRead_withFolio, hback]
  unfold demandRead
  dsimp only
  rw [hmap, withFolio_ite, ← eccRead_withFolio, hback, hwritten, hbad]

theorem readCells_withFolio (f : Folio) (l : List Nat) (s : State) : readCells l (withFolio f s) = withFolio f (readCells l s) := by
  have hloop : ∀ (l : List Nat) (s : State), forEach l (fun a s => demandRead s a) (withFolio f s) =
      withFolio f (forEach l (fun a s => demandRead s a) s) := by
    intro l
    induction l with
    | nil => exact fun _ => rfl
    | cons a l ih =>
      intro s
      exact (congrArg (forEach l fun a s => demandRead s a) (demandRead_withFolio f s a)).trans (ih _)
  unfold readCells
  rw [withFolio_ite, ← hloop]
  rfl

theorem readSlot_withFolio (f : Folio) (n : Nat) (s : State) : readSlot n (withFolio f s) = withFolio f (readSlot n s) :=
  readCells_withFolio f _ s

theorem read_readCells (l : List Nat) (s : State) : ReadStep s (readCells l s) :=
  read_ite (.refl s) (forEach_rel ReadStep.refl ReadStep.trans (fun a u => read_demandRead u a) l s)

theorem begun_withFolio (s : State) (tag : Nat) : begun s tag = withFolio (begun s tag).folio s := rfl

/-! FW_BEGIN. -/

/-- What a table holds after the keys that `p` takes are dropped. -/
theorem tblGet_dropped {α : Type} (t : Tbl α) (d : α) (p : Nat → Bool) (k : Nat) :
    tblGet (t.filter fun c => !p c.1) d k = if p k then d else tblGet t d k := by
  induction t with
  | nil => simp
  | cons c t ih =>
    obtain ⟨j, v⟩ := c
    by_cases hj : p j = true
    · rw [List.filter_cons_of_neg (by simp [hj]), ih]
      by_cases hk : p k = true
      · rw [if_pos hk, if_pos hk]
      · have hne : j ≠ k := fun h => hk (h ▸ hj)
        rw [if_neg hk, if_neg hk, tblGet, if_neg hne]
    · rw [List.filter_cons_of_pos (by simp [hj]), tblGet, tblGet, ih]
      by_cases hjk : j = k
      · subst hjk
        rw [if_pos rfl, if_pos rfl, if_neg hj]
      · rw [if_neg hjk, if_neg hjk]

theorem nvGet_nvSet_ne (s : State) {u i u' i' : Nat} (v : Word) (h : paAddr u' i' ≠ paAddr u i) :
    nvGet (nvSet s u i v) u' i' = nvGet s u' i' := tblGet_write_ne _ _ _ _ h

/-- The addresses of MRAM words of one unit are apart. -/
theorem paAddr_ne {u i i' : Nat} (h : i' ≠ i) : paAddr u i' ≠ paAddr u i := by
  unfold paAddr
  omega

/-- The bytes of slot `n` are erased, and it is no longer valid. -/
def slotErased (n : Nat) (s : State) : State :=
  nvSet (nvSet (freshWords { s with mem := { s.mem with
    cells := s.mem.cells.filter fun c => !(decide (slotBase n ≤ c.1) && decide (c.1 < slotBase n + slotSize)) } }
    (slotBase n) (slotBase n + slotSize)) 8 (0x100 + n) 0) 8 (9 + n) 0

theorem readByte_slotErased (n : Nat) (s : State) (a : Nat) : readByte (slotErased n s) a =
    if slotBase n ≤ a ∧ a < slotBase n + slotSize then 0 else readByte s a := by
  refine (tblGet_dropped s.mem.cells 0 (fun k => decide (slotBase n ≤ k) && decide (k < slotBase n + slotSize)) a).trans ?_
  simp only [Bool.and_eq_true, decide_eq_true_eq]
  rfl

theorem slotValid_slotErased (n : Nat) (s : State) : slotValid (slotErased n s) n = false := by
  have hvalid : nvGet (slotErased n s) 8 (0x100 + n) = 0 := by
    unfold slotErased
    rw [nvGet_nvSet_ne _ _ (paAddr_ne (by omega)), nvGet_nvSet_self]
  unfold slotValid
  rw [hvalid]
  simp

theorem inactiveSlot_lt (s : State) : inactiveSlot s < 2 := by
  unfold inactiveSlot
  omega

theorem lands_slot {n a : Nat} (s : State) (hn : n < 2) (hhi : a < slotBase n + slotSize) : Lands s a := by
  refine .inl ?_
  unfold memOf
  unfold slotBase slotSize at *
  have hlp : 0x10000000 + 0x300000 ≤ lpBase := by decide
  split_ifs <;> omega

section
variable {s : State} {tag : Nat} (hmram : mramDenied s = false)
include hmram

theorem fwBegin_begins {w : Word} (h : Starts s tag 0xC0 [w]) (hal : w.toNat % 4 = 0) (hmin : 4 ≤ w.toNat) (hmax : w.toNat ≤ slotSize) :
    ∃ t, exec (.fwBegin tag) s = .next t ∧ Replied s t tag 0 [] ∧ t.plate.session = some w.toNat ∧
      slotValid t (inactiveSlot s) = false ∧
      (∀ a, readByte t a = if slotBase (inactiveSlot s) ≤ a ∧ a < slotBase (inactiveSlot s) + slotSize then 0 else readByte s a) ∧
      t = { s with folio := t.folio, nv := t.nv, mem := t.mem, plate := { s.plate with session := t.plate.session } } := by
  have hb : bodyFwBegin [w] (begun s tag) = .done stOk []
      (updPlate (slotErased (inactiveSlot s) (begun s tag)) fun p => { p with session := some w.toNat }) := by
    have hmram' : mramDenied (begun s tag) = false := hmram
    unfold bodyFwBegin
    rw [hmram', if_neg (by decide)]
    refine checked_nil _ ?_ (.done stOk [] (updPlate (slotErased (inactiveSlot s) (begun s tag)) fun p => { p with session := some w.toNat }))
    simp only [List.mem_singleton, forall_eq, pw, List.getD_cons_zero, Bool.or_eq_false_iff, decide_eq_false_iff_not]
    omega
  have hvalid := slotValid_slotErased (inactiveSlot s) (begun s tag)
  have hbytes := readByte_slotErased (inactiveSlot s) (begun s tag)
  obtain ⟨N, M, hframe⟩ : ∃ N M, slotErased (inactiveSlot s) (begun s tag) = { begun s tag with nv := N, mem := M } := ⟨_, _, rfl⟩
  generalize slotErased (inactiveSlot s) (begun s tag) = u at *
  subst hframe
  obtain ⟨t, ht, hr, f, rfl⟩ := completes h hb rfl rfl
  exact ⟨_, congrArg Host.Outcome.next ht, hr, rfl, hvalid, hbytes, rfl⟩

/-! FW_DATA. -/

theorem fwData_stores {o : Word} {ws : List Word} {len : Nat} (h : Starts s tag 0xC1 (o :: ws)) (hsession : s.plate.session = some len)
    (hal : o.toNat % 4 = 0) (hmax : len ≤ slotSize) (hin : o.toNat + 4 * ws.length ≤ len) :
    ∃ t, exec (.fwData tag) s = .next t ∧ Replied s t tag 0 [] ∧
      (∀ i, i < ws.length → readWord t (slotBase (inactiveSlot s) + o.toNat + 4 * i) = ws.getD i 0) ∧
      (∀ a, a < slotBase (inactiveSlot s) + o.toNat ∨ slotBase (inactiveSlot s) + o.toNat + 4 * ws.length ≤ a →
        readByte t a = readByte s a) ∧ t.nv = s.nv ∧ t.plate.session = some len := by
  have hb : bodyFwData (o :: ws) (begun s tag) = .done stOk [] (storeRange (slotBase (inactiveSlot s) + o.toNat) ws (begun s tag)) := by
    have hmram' : mramDenied (begun s tag) = false := hmram
    have hsession' : (begun s tag).plate.session = some len := hsession
    unfold bodyFwData
    rw [hsession']
    dsimp only
    rw [hmram', if_neg (by decide)]
    refine checked_nil _ ?_ _
    simp only [List.mem_singleton, forall_eq, pw, List.getD_cons_zero, List.tail_cons, Bool.or_eq_false_iff, decide_eq_false_iff_not]
    omega
  obtain ⟨⟨P, M, q, hstep, -⟩, hout, hwords⟩ := storeRange_step ws (slotBase (inactiveSlot s) + o.toNat) (begun s tag)
  have hlands : ∀ i, i < ws.length → Lands (begun s tag) (slotBase (inactiveSlot s) + o.toNat + 4 * i) := fun i hi =>
    lands_slot _ (inactiveSlot_lt s) (by omega)
  have hread := hwords hlands
  generalize storeRange (slotBase (inactiveSlot s) + o.toNat) ws (begun s tag) = u at *
  obtain ⟨t, ht, hr, f, rfl⟩ := completes h hb (by rw [hstep]) (by rw [hstep]; rfl)
  exact ⟨_, congrArg Host.Outcome.next ht, hr, hread, hout, by rw [hstep]; rfl, by rw [hstep]; exact hsession⟩

/-! FW_COMMIT. -/

omit hmram in
theorem imageVerifies_withFolio (f : Folio) (s : State) (n len : Nat) : imageVerifies (withFolio f s) n len = imageVerifies s n len := rfl

/-- The image of slot `n` is valid and is the one to boot. -/
def slotCommitted (n : Nat) (v r : Word) (s : State) : State :=
  nvSet (nvSet (nvSet (nvSet s 8 (0x100 + n) 1) 8 0x102 (wrd n)) 8 (9 + n) v) 8 (0x104 + n) r

omit hmram in
theorem slotCommitted_reads {n : Nat} (hn : n < 2) (v r : Word) (s : State) : nvGet (slotCommitted n v r s) 8 0x102 = wrd n ∧
    nvGet (slotCommitted n v r s) 8 (0x100 + n) = 1 ∧ nvGet (slotCommitted n v r s) 8 (9 + n) = v ∧
    nvGet (slotCommitted n v r s) 8 (0x104 + n) = r := by
  unfold slotCommitted
  refine ⟨?_, ?_, ?_, nvGet_nvSet_self ..⟩
  · rw [nvGet_nvSet_ne _ _ (paAddr_ne (by omega)), nvGet_nvSet_ne _ _ (paAddr_ne (by omega)), nvGet_nvSet_self]
  · rw [nvGet_nvSet_ne _ _ (paAddr_ne (by omega)), nvGet_nvSet_ne _ _ (paAddr_ne (by omega)), nvGet_nvSet_ne _ _ (paAddr_ne (by omega)),
      nvGet_nvSet_self]
  · rw [nvGet_nvSet_ne _ _ (paAddr_ne (by omega)), nvGet_nvSet_self]

omit hmram in
theorem slotCommitted_frame (n : Nat) (v r : Word) (s : State) : ∃ N, slotCommitted n v r s = { s with nv := N } := by
  have hset (u : State) (i : Nat) (x : Word) : nvSet u 8 i x = { u with nv := (nvSet u 8 i x).nv } := rfl
  unfold slotCommitted
  rw [hset, hset _ (9 + n), hset _ 0x102, hset _ (0x100 + n)]
  exact ⟨_, rfl⟩

/-- The state after FW_COMMIT has read its slot and ended its session. -/
def slotRead (n : Nat) (s : State) : State := updPlate { readSlot n s with free := (readSlot n s).free + 1 } fun p => { p with session := none }

/-- What FW_COMMIT leaves of a state by reading its slot. -/
structure SlotRead (s t : State) : Prop where
  session : t.plate.session = none
  nv : t.nv = s.nv
  cells : t.mem.cells = s.mem.cells
  clean : s.mem.errs = [] → t.mem = s.mem
  tags : t.folio.tags = s.folio.tags
  replies : t.folio.replies = s.folio.replies

omit hmram in
theorem slotRead_reads (n : Nat) (s : State) : SlotRead s (slotRead n s) := by
  have hclean : s.mem.errs = [] → readSlot n s = s := fun herr => if_pos herr
  obtain ⟨P, mk, er, ce, q, hread⟩ : ReadStep s (readSlot n s) := read_readCells _ s
  unfold slotRead
  generalize readSlot n s = u at hclean hread ⊢
  refine ⟨rfl, ?_, ?_, fun herr => (congrArg State.mem (hclean herr) :), ?_, ?_⟩
  all_goals rw [hread]; rfl

theorem bodyFwCommit_eq {len : Nat} (hsession : s.plate.session = some len) (ws : List Word) : bodyFwCommit ws (begun s tag) =
    if (imageVerifies (readSlot (inactiveSlot s) s) (inactiveSlot s) len && Config.freeBit (readSlot (inactiveSlot s) (begun s tag)).free) = true then
      .done stOk [] (slotCommitted (inactiveSlot s) (imgWord (slotRead (inactiveSlot s) (begun s tag)) (inactiveSlot s) 8)
        (imgWord (slotRead (inactiveSlot s) (begun s tag)) (inactiveSlot s) 12) (slotRead (inactiveSlot s) (begun s tag)))
    else .done stDenied [] (slotRead (inactiveSlot s) (begun s tag)) := by
  have hmram' : mramDenied (begun s tag) = false := hmram
  have hsession' : (begun s tag).plate.session = some len := hsession
  have hverify : imageVerifies (readSlot (inactiveSlot s) s) (inactiveSlot s) len =
      imageVerifies (readSlot (inactiveSlot s) (begun s tag)) (inactiveSlot s) len := by
    rw [begun_withFolio, readSlot_withFolio, imageVerifies_withFolio]
  unfold bodyFwCommit
  rw [hsession', hverify]
  dsimp only
  rw [hmram', if_neg (by decide)]
  rfl

theorem fwCommit_commits {len : Nat} (h : Starts s tag 0xC2 []) (hsession : s.plate.session = some len) :
    ∃ t st, exec (.fwCommit tag) s = .next t ∧ Replied s t tag st [] ∧ t.plate.session = none ∧ st ∈ [0, stDenied] ∧
      t.mem.cells = s.mem.cells ∧ (s.mem.errs = [] → t.mem = s.mem) ∧
      (imageVerifies (readSlot (inactiveSlot s) s) (inactiveSlot s) len = false → st = stDenied) ∧ (st = stDenied → t.nv = s.nv) ∧
      (st = 0 → nvGet t 8 0x102 = wrd (inactiveSlot s) ∧ nvGet t 8 (0x100 + inactiveSlot s) = 1 ∧
        nvGet t 8 (9 + inactiveSlot s) = imgWord s (inactiveSlot s) 8 ∧
        nvGet t 8 (0x104 + inactiveSlot s) = imgWord s (inactiveSlot s) 12) := by
  have hb := bodyFwCommit_eq (tag := tag) hmram hsession []
  have hread := slotRead_reads (inactiveSlot s) (begun s tag)
  generalize slotRead (inactiveSlot s) (begun s tag) = u at hb hread
  obtain ⟨hsession', hnv, hcells, hclean, htags, hreplies⟩ := hread
  have himg (o : Nat) : imgWord u (inactiveSlot s) o = imgWord s (inactiveSlot s) o := by
    unfold imgWord readWord readByte
    rw [hcells]
    rfl
  rw [himg, himg] at hb
  by_cases hgood : (imageVerifies (readSlot (inactiveSlot s) s) (inactiveSlot s) len &&
      Config.freeBit (readSlot (inactiveSlot s) (begun s tag)).free) = true
  case pos =>
    rw [if_pos hgood] at hb
    obtain ⟨hboot, hvalid, hversion, hrollback⟩ := slotCommitted_reads (inactiveSlot_lt s)
      (imgWord s (inactiveSlot s) 8) (imgWord s (inactiveSlot s) 12) u
    obtain ⟨N, hN⟩ : ∃ N, slotCommitted (inactiveSlot s) (imgWord s (inactiveSlot s) 8) (imgWord s (inactiveSlot s) 12) u =
      { u with nv := N } := slotCommitted_frame ..
    generalize slotCommitted (inactiveSlot s) (imgWord s (inactiveSlot s) 8) (imgWord s (inactiveSlot s) 12) u = w at *
    subst hN
    obtain ⟨t, ht, hr, f, rfl⟩ := completes h hb htags hreplies
    exact ⟨_, 0, congrArg Host.Outcome.next ht, hr, hsession', by decide, hcells, hclean, fun hbad => by simp [hbad] at hgood,
      fun h => absurd h (by decide), fun _ => ⟨hboot, hvalid, hversion, hrollback⟩⟩
  case neg =>
    rw [if_neg hgood] at hb
    obtain ⟨t, ht, hr, f, rfl⟩ := completes h hb htags hreplies
    exact ⟨_, stDenied, congrArg Host.Outcome.next ht, hr, hsession', by decide, hcells, hclean, fun _ => rfl, fun _ => hnv,
      fun h => absurd h (by decide)⟩

end

/-- Settles O55: the four commands of the update. -/
theorem firmwareUpdate : Obligations.FirmwareUpdate := by
  unfold Obligations.FirmwareUpdate
  intro s tag
  refine ⟨fun hmram => ⟨fun w h hal hmin hmax => fwBegin_begins hmram h hal hmin hmax,
    fun o ws len h hsession hal hmax hin => fwData_stores hmram h hsession hal hmax hin,
    fun len h hsession => fwCommit_commits hmram h hsession⟩, fun len h hsession => ?_⟩
  have hb : bodyFwAbort [] (begun s tag) = .done stOk [] (updPlate (begun s tag) fun p => { p with session := none }) := by
    unfold bodyFwAbort
    rw [show (begun s tag).plate.session = some len from hsession]
  obtain ⟨t, ht, hr, f, rfl⟩ := completes h hb rfl rfl
  exact ⟨_, congrArg Host.Outcome.next ht, hr, rfl⟩

end Sys2Proof.Proofs
end

section
/-!
PROOFS. Roles of a pair and the hand-over (R411, R414 to R422).
-/
namespace Sys2Proof.Proofs
open Sys2Proof.Machine Sys2Proof.Safety Sys2Proof.Laws

/-! PAIR_ROLE and HANDOVER. -/

/-- The device in role `n`. -/
def roleTaken (n : Nat) (s : State) : State := if n = s.marg.role then s else takeRole n s

section
variable {s : State} {tag : Nat}

theorem pairRole_takes {n : Nat} (hn : n < 3) (h : Starts s tag 0xA0 [wrd n]) (hok : n = 0 ∨ (s.marg.linkUp = true ∧
      s.marg.sideConflict = false ∧ s.marg.presMismatch = false ∧ n ≠ s.marg.partnerRole)) : ∃ t w, exec (.pairRole tag) s = .next t ∧
    Replied s t tag 0 [w] ∧ field w 1 0 = n ∧ t.marg.role = n ∧
    (n ≠ s.marg.role → t.tim.master = decide (n ≠ 2) ∧ t.tim.aligned = false ∧ t.so.ownN = decide (n = 1) ∧ t.marg.ho = .none) ∧
    (n = s.marg.role → t = { s with folio := t.folio }) ∧
    t = { s with folio := t.folio, marg := { s.marg with role := n, ho := t.marg.ho }, tim := t.tim,
                 so := { s.so with ownN := t.so.ownN } } := by
  have hfield : field (wrd n) 1 0 = n := by
    rw [field_wrd (by omega)]
    omega
  obtain ⟨k, hk, hb⟩ : ∃ k, k < 8 ∧ bodyPairRole [wrd n] (begun s tag) = .done stOk [wrd (16 * k + n)] (roleTaken n (begun s tag)) := by
    have hclean : hasBits (wrd n) 0xFFFFFFFC = false := hasBits_small (k := 2) (by decide) (by decide) (by omega)
    have hword (a b c : Bool) : ∃ k, k < 8 ∧ b2n a * 2 ^ 6 + b2n b * 2 ^ 5 + b2n c * 2 ^ 4 + n = 16 * k + n :=
      ⟨4 * b2n a + 2 * b2n b + b2n c, by have := b2n_le a; have := b2n_le b; have := b2n_le c; omega, by omega⟩
    obtain ⟨k, hk, heq⟩ := hword (partnerSeen (roleTaken n (begun s tag)))
      ((roleTaken n (begun s tag)).tim.aligned && !(roleTaken n (begun s tag)).tim.master) (roleTaken n (begun s tag)).marg.linkUp
    refine ⟨k, hk, ?_⟩
    rw [← heq]
    unfold bodyPairRole
    simp only [pw, List.getD_cons_zero, hfield]
    refine checked_nil _ ?_ _
    simp only [List.mem_singleton, forall_eq, Bool.or_eq_false_iff, Bool.and_eq_false_iff, decide_eq_false_iff_not]
    refine ⟨⟨hclean, by omega⟩, ?_⟩
    obtain h0 | ⟨hup, hside, hpres, hrole⟩ := hok
    · exact .inl (not_not.2 h0)
    · exact .inr ⟨⟨⟨congrArg not hup, hside⟩, hpres⟩, hrole⟩
  have hlow : field (wrd (16 * k + n)) 1 0 = n := by
    rw [field_wrd (by omega)]
    omega
  by_cases hrole : n = s.marg.role
  case pos =>
    have hsame : roleTaken n (begun s tag) = begun s tag := if_pos hrole
    rw [hsame] at hb
    obtain ⟨t, ht, hr, f, rfl⟩ := completes h hb rfl rfl
    subst hrole
    exact ⟨_, _, congrArg Host.Outcome.next ht, hr, hlow, rfl, fun hne => absurd rfl hne, fun _ => rfl, rfl⟩
  case neg =>
    have hnew : roleTaken n (begun s tag) = takeRole n (begun s tag) := if_neg hrole
    rw [hnew] at hb
    obtain ⟨t, ht, hr, f, rfl⟩ := completes h hb rfl rfl
    exact ⟨_, _, congrArg Host.Outcome.next ht, hr, hlow, rfl, fun _ => ⟨rfl, rfl, rfl, rfl⟩, fun heq => absurd heq hrole, rfl⟩

theorem offerTick_after (s : State) : s.now + 8000 ≤ offerTick s := by
  unfold offerTick
  split
  next d _ _ =>
    dsimp only
    split
    · exact le_refl _
    next hrun =>
      have hL : 0 < (tbLen s (driveTb (s.drive d)) : Int) := by
        have : tbLen s (driveTb (s.drive d)) ≠ 0 := fun h => hrun (.inl h)
        omega
      have hdiv := Int.lt_ediv_add_one_mul_self ((s.now : Int) + 8000 - (s.tb (driveTb (s.drive d))).t0 +
        (tbLen s (driveTb (s.drive d)) : Int) - 1) hL
      generalize ((s.now : Int) + 8000 - (s.tb (driveTb (s.drive d))).t0 + (tbLen s (driveTb (s.drive d)) : Int) - 1) /
        (tbLen s (driveTb (s.drive d)) : Int) = q at hdiv ⊢
      rw [add_mul, one_mul] at hdiv
      omega
  next => exact le_refl _

theorem handover_offers {ws : List Word} (h : Starts s tag 0xA1 ws) (hrole : s.marg.role = 1) (hup : s.marg.linkUp = true)
    (helig : s.marg.partnerElig.testBit 6 = false) (hho : s.marg.ho = .none) (hsound : ∀ d, d < 4 → ssRank (s.drive d).dst = 0 ∧
      (s.drive d).dst ≠ .stopping ∧ (s.drive d).discharging = false) : ∃ t, exec (.handover tag) s = .next t ∧ Waiting s t tag ∧
    t.marg.ho = .offered ∧ s.now + 8000 ≤ t.marg.hoTh ∧ t.marg.hoTag = some tag ∧
    t.marg.queue = s.marg.queue ++ [⟨.handover, 0, 0, 0, handoverPayload 1 t.marg.hoTh, 0⟩] ∧
    t = { s with folio := t.folio,
                 marg := { s.marg with ho := .offered, hoTh := t.marg.hoTh, hoTag := some tag, queue := t.marg.queue } } := by
  have hnone : drivesWith (begun s tag) (fun v => decide (ssRank v.dst ≠ 0) || decide (v.dst = .stopping) || v.discharging) = [] := by
    refine below_eq_nil fun d hd => ?_
    obtain ⟨hrank, hstop, hdis⟩ := hsound d hd
    have hdrive : (begun s tag).drive d = s.drive d := rfl
    simp [hdrive, hrank, hstop, hdis]
  have hb : bodyHandover tag ws (begun s tag) = .wait (queueCell (updMarg (begun s tag) fun m => { m with
      ho := .offered, hoTh := offerTick (begun s tag), hoTag := some tag }) .handover 0 (handoverPayload 1 (offerTick (begun s tag)))) := by
    refine checked_nil _ ?_ _
    simp only [List.mem_singleton, forall_eq, Bool.or_eq_false_iff, decide_eq_false_iff_not, hnone, not_not]
    exact ⟨⟨⟨⟨hrole, congrArg not hup⟩, helig⟩, hho⟩, trivial⟩
  obtain ⟨ht, hw⟩ := waits h hb rfl rfl
  exact ⟨_, congrArg Host.Outcome.next ht, hw, rfl, offerTick_after (begun s tag), rfl, rfl, rfl⟩

end

/-! Cells of the hand-over. -/

/-- The drives `ds` are handed over at tick `th`. -/
theorem setHd_sets (th : Nat) (ds : List Nat) (s : State) : (∃ D, setHd th ds s = { s with drives := D }) ∧
    ∀ d, d ∈ ds ∨ (s.drive d).hd ≠ none → ((setHd th ds s).drive d).hd ≠ none := by
  induction ds generalizing s with
  | nil => exact ⟨⟨s.drives, rfl⟩, fun d hd => hd.resolve_left (by simp)⟩
  | cons e ds ih =>
    obtain ⟨⟨D, hD⟩, hset⟩ := ih (s.updDrive e fun v => { v with hd := some (if v.arch = .direct then th + 400 else th) })
    refine ⟨⟨D, hD⟩, fun d hd => hset d ?_⟩
    by_cases hde : d = e
    · exact .inr (by simp [hde])
    · obtain hmem | hold := hd
      · exact .inl ((List.mem_cons.1 hmem).resolve_left hde)
      · exact .inr (by simpa [hde] using hold)

section Arrives
variable {s : State} {seq : Nat} (h : Arrives s seq) (ack : Nat)
include h

theorem offerReceived_accepts (th : Nat) (helig : eligibility s = 0) : ∃ t, exec (.handoverOfferReceived seq ack th) s = .next t ∧
    Taken s t ack ∧ t.marg.ho = .accepted ∧ t.marg.hoTh = th ∧ (∀ d, d ∈ takenDrives s → (t.drive d).hd ≠ none) ∧
    t.marg.queue = s.marg.queue ++ [⟨.handover, 0, 0, 0, handoverPayload 2 th, 0⟩] ∧ t = { s with marg := t.marg, drives := t.drives } := by
  obtain ⟨rs, r, x, ob, os, la, htake⟩ := takeCell_takes h ack
  have helig' : eligibility (cellTaken ack rs r x ob os la s) = 0 := helig
  obtain ⟨⟨D, hD⟩, hset⟩ := setHd_sets th (takenDrives (cellTaken ack rs r x ob os la s))
    (updMarg (cellTaken ack rs r x ob os la s) fun m => { m with ho := .accepted, hoTh := th })
  have hsame : takenDrives (cellTaken ack rs r x ob os la s) = takenDrives s := rfl
  rw [hD, hsame] at hset
  have hexec : exec (.handoverOfferReceived seq ack th) s = .next _ := congrArg Host.Outcome.next ((htake _).trans ((if_pos helig').trans
    (congrArg (queueCell · .handover 0 (handoverPayload 2 th)) hD)))
  exact ⟨_, hexec, ⟨rfl, rfl, rfl⟩, rfl, rfl, fun d hd => hset d (.inl hd), rfl, rfl⟩

theorem offerReceived_declines (th : Nat) (helig : eligibility s ≠ 0) : ∃ t, exec (.handoverOfferReceived seq ack th) s = .next t ∧
    Taken s t ack ∧ t.marg.ho = s.marg.ho ∧ t.marg.queue = s.marg.queue ++ [⟨.handover, 0, 0, 0, handoverPayload 3 th, 0⟩] ∧
    t = { s with marg := t.marg } := by
  obtain ⟨rs, r, x, ob, os, la, htake⟩ := takeCell_takes h ack
  have helig' : ¬ eligibility (cellTaken ack rs r x ob os la s) = 0 := helig
  exact ⟨_, congrArg Host.Outcome.next ((htake _).trans (if_neg helig')), ⟨rfl, rfl, rfl⟩, rfl, rfl, rfl⟩

theorem acceptReceived_accepts (hho : s.marg.ho = .offered) (htime : s.now + 2000 ≤ s.marg.hoTh) :
    ∃ t, exec (.handoverAcceptReceived seq ack) s = .next t ∧ Taken s t ack ∧ t.marg.ho = .accepted ∧ t.marg.hoTh = s.marg.hoTh ∧
      (∀ d, d < 4 → (s.drive d).dst = .run → (t.drive d).hd ≠ none) ∧ t = { s with marg := t.marg, drives := t.drives } := by
  obtain ⟨rs, r, x, ob, os, la, htake⟩ := takeCell_takes h ack
  have hgo : ¬ ((cellTaken ack rs r x ob os la s).marg.ho ≠ .offered ∨
      (cellTaken ack rs r x ob os la s).marg.hoTh < (cellTaken ack rs r x ob os la s).now + 2000) := by
    rintro (hne | hlt)
    · exact hne hho
    · exact absurd htime (Nat.not_le.2 hlt)
  obtain ⟨⟨D, hD⟩, hset⟩ := setHd_sets (cellTaken ack rs r x ob os la s).marg.hoTh
    (drivesWith (cellTaken ack rs r x ob os la s) fun v => v.dst = .run)
    (updMarg (cellTaken ack rs r x ob os la s) fun m => { m with ho := .accepted })
  rw [hD] at hset
  refine ⟨_, congrArg Host.Outcome.next ((htake _).trans ((if_neg hgo).trans hD)), ⟨rfl, rfl, rfl⟩, rfl, rfl, fun d hd hrun => ?_, rfl⟩
  exact hset d (.inl (List.mem_filter.2 ⟨List.mem_range.2 hd, decide_eq_true hrun⟩))

omit h in
/-- The end of a hand-over completes its command. -/
theorem hoComplete_replies {u : State} {tag status : Nat} {e : TagEntry} (htag : u.marg.hoTag = some tag) (hlt : tag < 1024)
    (he : tagEntry s tag = some e) (hrun : e.phase = .running) (htags : u.folio.tags = s.folio.tags)
    (hreplies : u.folio.replies = s.folio.replies) : Replied s (hoComplete status u) tag status [] ∧
      ∃ f, hoComplete status u = { u with folio := f, marg := { u.marg with hoTag := none } } := by
  have hp : e.phase ≠ .replied := by rw [hrun]; decide
  obtain ⟨hanswered, hreplied⟩ := completeTag_replied (u := updMarg u fun m => { m with hoTag := none }) (status := status) (ws := []) hlt he hp
    htags hreplies
  have heq : hoComplete status u = completeTag tag status [] (updMarg u fun m => { m with hoTag := none }) := by
    unfold hoComplete
    rw [htag]
  rw [heq]
  exact ⟨hreplied, _, hanswered⟩

theorem declineReceived_completes {tag : Nat} {e : TagEntry} (hho : s.marg.ho = .offered) (htag : s.marg.hoTag = some tag)
    (hlt : tag < 1024) (he : tagEntry s tag = some e) (hrun : e.phase = .running) :
    ∃ t, exec (.handoverDeclineReceived seq ack) s = .next t ∧ Taken s t ack ∧ Replied s t tag stState [] ∧
      t.marg.ho = .none ∧ t.marg.hoTag = none ∧ t = { s with marg := t.marg, folio := t.folio } := by
  obtain ⟨rs, r, x, ob, os, la, htake⟩ := takeCell_takes h ack
  obtain ⟨hreplied, f, hf⟩ := hoComplete_replies (s := s) (u := updMarg (cellTaken ack rs r x ob os la s) fun m => { m with ho := .none })
    (status := stState) htag hlt he hrun rfl rfl
  have hho' : (cellTaken ack rs r x ob os la s).marg.ho = .offered := hho
  rw [hf] at hreplied
  exact ⟨_, congrArg Host.Outcome.next ((htake _).trans ((if_pos hho').trans hf)), ⟨rfl, rfl, rfl⟩, hreplied, rfl, rfl, rfl⟩

theorem leaveReceived_notes : ∃ t, exec (.handoverLeaveReceived seq ack) s = .next t ∧ Taken s t ack ∧ t.marg.peerLeft = true ∧
    t = { s with marg := t.marg } := by
  obtain ⟨rs, r, x, ob, os, la, htake⟩ := takeCell_takes h ack
  exact ⟨_, congrArg Host.Outcome.next (htake _), ⟨rfl, rfl, rfl⟩, rfl, rfl⟩

end Arrives

/-! What a drive that is handed over leaves of the roles. -/

/-- From `s` to `t` neither role nor link nor clock roles nor OWN_N changed, and neither time nor memory. -/
structure RolesStand (s t : State) : Prop where
  marg : t.marg = s.marg
  tim : t.tim = s.tim
  ownN : t.so.ownN = s.so.ownN
  now : t.now = s.now
  nv : t.nv = s.nv
  cells : t.mem.cells = s.mem.cells
  tags : t.folio.tags = s.folio.tags
  replies : t.folio.replies = s.folio.replies

theorem RolesStand.refl (s : State) : RolesStand s s := ⟨rfl, rfl, rfl, rfl, rfl, rfl, rfl, rfl⟩

theorem RolesStand.trans {s t u : State} (h : RolesStand s t) (k : RolesStand t u) : RolesStand s u :=
  ⟨k.marg.trans h.marg, k.tim.trans h.tim, k.ownN.trans h.ownN, k.now.trans h.now, k.nv.trans h.nv, k.cells.trans h.cells,
    k.tags.trans h.tags, k.replies.trans h.replies⟩

theorem rolesStand_updDrive (s : State) (d : Nat) (f : Drive → Drive) : RolesStand s (s.updDrive d f) := ⟨rfl, rfl, rfl, rfl, rfl, rfl, rfl, rfl⟩

theorem rolesStand_updRing (s : State) (r : Nat) (f : Machine.Ring → Machine.Ring) : RolesStand s (s.updRing r f) :=
  ⟨rfl, rfl, rfl, rfl, rfl, rfl, rfl, rfl⟩

theorem rolesStand_updRegn (s : State) (d : Nat) (f : Registration → Registration) : RolesStand s (s.updRegn d f) :=
  ⟨rfl, rfl, rfl, rfl, rfl, rfl, rfl, rfl⟩

theorem rolesStand_updSrc (s : State) (n : Nat) (f : PosSrc → PosSrc) : RolesStand s (s.updSrc n f) :=
  ⟨rfl, rfl, rfl, rfl, rfl, rfl, rfl, rfl⟩

theorem RolesStand.forEach {α : Type} {f : α → State → State} (hf : ∀ a u, RolesStand u (f a u)) (l : List α) (s : State) :
    RolesStand s (Machine.forEach l f s) := forEach_rel .refl .trans hf l s

theorem rolesStand_setOp (s : State) (o : OpState) : RolesStand s (setOp s o) := by
  unfold setOp
  refine rel_ite (.refl s) ?_
  dsimp only
  rw [record_quiet (by decide) rfl (by decide)]
  exact ⟨rfl, rfl, rfl, rfl, rfl, rfl, rfl, rfl⟩

theorem rolesStand_ringsFresh (s : State) : RolesStand s (ringsFresh s) := by
  refine forUpTo_rel RolesStand.refl .trans (fun r _ u => ?_) s
  cases ringDrive u r with
  | none => exact rolesStand_updRing u r _
  | some d => exact rel_ite (rolesStand_updRing u r _) (.refl u)

theorem rolesStand_enterRun (d : Nat) (s : State) : RolesStand s (enterRun d s) := by
  unfold enterRun
  extract_lets a b
  have ha : RolesStand s a := (rolesStand_updDrive s d _).trans (rolesStand_updRegn _ d _)
  have hb : RolesStand a b := rolesStand_updRegn a d _
  exact ha.trans (hb.trans ((RolesStand.forEach (fun r u => rolesStand_updRing u r _) _ b).trans
    (RolesStand.forEach (fun n u => rolesStand_updSrc u n _) _ _)))

theorem rolesStand_settlePairs (s : State) : RolesStand s (settlePairs s) := by
  obtain ⟨P, hP⟩ := settlePairs_alone s
  rw [hP]
  exact ⟨rfl, rfl, rfl, rfl, rfl, rfl, rfl, rfl⟩

/-- With no hand-over accepted a drive that is handed over leaves the roles. -/
theorem rolesStand_handDrive (d : Nat) {s : State} (hho : s.marg.ho ≠ .accepted) : RolesStand s (handDrive d s) := by
  have hinstant : hoInstant s = s := if_pos (.inl hho)
  unfold handDrive
  rw [hinstant]
  extract_lets a v b
  have hb : RolesStand s b := by
    show RolesStand s (match v.l4From with
      | some t => if t ≤ s.now ∧ !s.marg.ownDue then s.updDrive d fun v => { v with l4From := none } else s
      | none => s)
    cases v.l4From with
    | none => exact .refl s
    | some t => exact rel_ite (rolesStand_updDrive s d _) (.refl s)
  refine hb.trans ?_
  cases v.hd with
  | none => exact .refl b
  | some t =>
    have hfresh (u : State) : RolesStand u (forEach (driveRings (b.updDrive d fun v => { v with hd := none }) d) ringFresh u) :=
      RolesStand.forEach (fun r w => rolesStand_updRing w r _) _ u
    refine rel_ite (.refl b) ((rolesStand_updDrive b d _).trans (rel_ite ?_ (rel_ite ?_ (.refl _))))
    · exact ((rolesStand_updDrive _ d _).trans (rel_ite (rolesStand_setOp _ .standby) (.refl _))).trans (hfresh _)
    · exact (hfresh _).trans ((rolesStand_enterRun d _).trans (rolesStand_setOp _ _))

/-! The instant of a hand-over. -/

/-- After the roles have changed the drives that are handed over at this tick follow. -/
theorem handoverInstant_follows {s : State} (hho : (hoInstant s).marg.ho = .none) :
    ∃ t, exec .handoverInstant s = .next t ∧ RolesStand (hoInstant s) t ∧
      ((∀ d, d < 4 → ((hoInstant s).drive d).hd = none) → t = hoInstant s) := by
  have hexec : exec .handoverInstant s = .next (
      if (below 4 fun d => ((hoInstant s).drive d).hd ≠ none && periodNow (hoInstant s) (driveTb ((hoInstant s).drive d))) = [] then hoInstant s
      else settlePairs (forUpTo 4 (fun d s =>
        if (s.drive d).hd ≠ none ∧ periodNow s (driveTb (s.drive d)) then handDrive d s else s) (hoInstant s))) := rfl
  refine ⟨_, hexec, ?_, fun hnone => if_pos (below_eq_nil fun d hd => by simp [hnone d hd])⟩
  generalize hoInstant s = u at hho ⊢
  have hloop : u.marg.ho ≠ .accepted → RolesStand u (forUpTo 4 (fun d s =>
      if (s.drive d).hd ≠ none ∧ periodNow s (driveTb (s.drive d)) then handDrive d s else s) u) := by
    refine forUpTo_rel (R := fun s t => s.marg.ho ≠ .accepted → RolesStand s t) (fun s _ => .refl s) (fun h k hs => ?_) (fun d _ w hw => ?_) u
    · have hu := h hs
      exact hu.trans (k (by rw [hu.marg]; exact hs))
    · exact rel_ite (rolesStand_handDrive d hw) (.refl w)
  exact rel_ite (.refl u) ((hloop (by rw [hho]; decide)).trans (rolesStand_settlePairs _))

theorem handoverInstant_stands_by {s : State} (hho : s.marg.ho = .accepted) (hth : s.marg.hoTh ≤ s.now) (hrole : s.marg.role = 1) :
    ∃ t, exec .handoverInstant s = .next t ∧ t.marg.role = 2 ∧ t.so.ownN = false ∧ t.tim.master = false ∧ t.marg.ho = .none := by
  have hinstant : hoInstant s = ringsFresh (becomeStandby s) :=
    (if_neg (by rintro (h | h); exacts [h hho, absurd h (Nat.not_lt.2 hth)])).trans (if_pos hrole)
  have hfresh := rolesStand_ringsFresh (becomeStandby s)
  rw [← hinstant] at hfresh
  obtain ⟨t, hexec, hfollow, -⟩ := handoverInstant_follows (s := s) (by rw [hfresh.marg]; rfl)
  have hall := hfresh.trans hfollow
  exact ⟨t, hexec, by rw [hall.marg]; rfl, by rw [hall.ownN]; rfl, by rw [hall.tim]; rfl, by rw [hall.marg]; rfl⟩

/-- The device that has become active, with its hand-over still to be reported. -/
def handedOver (s : State) : State :=
  updMarg (setOwnN true (ringsFresh (becomeActive s))) fun m => { m with hoDue := true, hoTrig := 2 }

theorem drives_ringsFresh (s : State) : (ringsFresh s).drives = s.drives := by
  refine forUpTo_rel (R := fun s t => t.drives = s.drives) (fun _ => rfl) (fun h k => k.trans h) (fun r _ u => ?_) s
  cases ringDrive u r with
  | none => rfl
  | some d =>
    show (if (u.drive d).hd = none then ringFresh r u else u).drives = u.drives
    split <;> rfl

theorem handedOver_roles (s : State) : (handedOver s).marg = { s.marg with role := 1, ho := .none, hoDue := true, hoTrig := 2 } ∧
    (handedOver s).so.ownN = true ∧ (handedOver s).tim.master = true ∧ (handedOver s).drives = s.drives := by
  have hfresh := rolesStand_ringsFresh (becomeActive s)
  have hdrives : (ringsFresh (becomeActive s)).drives = s.drives := drives_ringsFresh (becomeActive s)
  unfold handedOver
  generalize ringsFresh (becomeActive s) = u at hfresh hdrives ⊢
  refine ⟨?_, rfl, ?_, hdrives⟩
  · show { u.marg with hoDue := true, hoTrig := 2 } = _
    rw [hfresh.marg]
    rfl
  · show u.tim.master = true
    rw [hfresh.tim]
    rfl

/-- The end of a hand-over is reported. -/
theorem handoverDone_reports {s : State} (hdue : s.marg.hoDue = true) : (handoverDone s).marg.hoDue = false ∧
    (handoverDone s).marg.role = s.marg.role ∧ (handoverDone s).marg.ho = s.marg.ho ∧ (handoverDone s).so = s.so ∧
    (handoverDone s).tim = s.tim ∧ (handoverDone s).now = s.now ∧ (handoverDone s).drives = s.drives ∧ Raised s (handoverDone s) 0x0B02 0 [wrd s.marg.hoTrig] := by
  have hgo : ¬ (!s.marg.hoDue) = true := by rw [hdue]; decide
  have heq : handoverDone s = queueCell (record (parCount { s with marg := { s.marg with hoDue := false } } 11 6 1) 0x0B02 0 [wrd s.marg.hoTrig])
      .handover 0 (handoverPayload 5 s.now) := if_neg hgo
  have hraised := record_raises (parCount { s with marg := { s.marg with hoDue := false } } 11 6 1) 0x0B02 0 [wrd s.marg.hoTrig]
  have hquiet := record_quiet (s := parCount { s with marg := { s.marg with hoDue := false } } 11 6 1) (code := 0x0B02) (idx := 0)
    (args := [wrd s.marg.hoTrig]) (by decide) rfl (by decide)
  rw [heq]
  rw [hquiet] at hraised ⊢
  exact ⟨rfl, rfl, rfl, rfl, rfl, rfl, rfl, hraised⟩

theorem handoverInstant_takes {s : State} (hho : s.marg.ho = .accepted) (hth : s.marg.hoTh ≤ s.now) (hrole : s.marg.role = 2) :
    ∃ t, exec .handoverInstant s = .next t ∧ t.marg.role = 1 ∧ t.so.ownN = true ∧ t.tim.master = true ∧ t.marg.ho = .none ∧
      ((∀ d, d < 4 → (s.drive d).hd = none) → t.marg.hoDue = false ∧ Raised t t 0x0B02 0 [2]) := by
  have hinstant : hoInstant s = if (below 4 fun d => ((handedOver s).drive d).hd ≠ none) = [] then handoverDone (handedOver s) else handedOver s :=
    (if_neg (by rintro (h | h); exacts [h hho, absurd h (Nat.not_lt.2 hth)])).trans (if_neg (by rw [hrole]; decide))
  obtain ⟨hmarg, hown, hmaster, hdrives⟩ := handedOver_roles s
  generalize handedOver s = u at hinstant hdrives hmarg hown hmaster
  have hdrive (d : Nat) : u.drive d = s.drive d := by
    unfold State.drive
    rw [hdrives]
  obtain ⟨hdone, hrole', hho', hso, htim, hnow, hdrives', hraised⟩ := handoverDone_reports (s := u) (by rw [hmarg])
  have hroles : (hoInstant s).marg.role = 1 ∧ (hoInstant s).marg.ho = .none ∧ (hoInstant s).so.ownN = true ∧
      (hoInstant s).tim.master = true := by
    rw [hinstant]
    split
    · rw [hrole', hho', hso, htim, hmarg]
      exact ⟨rfl, rfl, hown, hmaster⟩
    · rw [hmarg]
      exact ⟨rfl, rfl, hown, hmaster⟩
  obtain ⟨hrole1, hnone, hown1, hmaster1⟩ := hroles
  obtain ⟨t, hexec, hfollow, halone⟩ := handoverInstant_follows hnone
  refine ⟨t, hexec, by rw [hfollow.marg, hrole1], by rw [hfollow.ownN, hown1], by rw [hfollow.tim, hmaster1], by rw [hfollow.marg, hnone],
    fun hfree => ?_⟩
  have hall : hoInstant s = handoverDone u := hinstant.trans (if_pos (below_eq_nil fun d hd => by simp [hdrive, hfree d hd]))
  rw [halone fun d hd => ?_, hall]
  · have hself := raised_of (s := handoverDone u) hraised hnow.symm (by rw [htim])
    rw [hmarg] at hself
    exact ⟨hdone, hself⟩
  · have hkeep : (hoInstant s).drive d = u.drive d := by
      unfold State.drive
      rw [hall, hdrives']
    rw [hkeep, hdrive, hfree d hd]

/-! TAKE and TAKEN. -/

/-- The end of a hand-over changes of the Margin link its command and the mailbox of a relayed one. -/
theorem hoComplete_keeps (status : Nat) (s : State) : ∃ W O S f, hoComplete status s =
    { s with folio := f, marg := { s.marg with hoTag := none, relayWait := W, outbox := O, outSent := S } } := by
  unfold hoComplete
  cases htag : s.marg.hoTag with
  | none =>
    have hsame : ({ s.marg with hoTag := none } : Margin) = s.marg := by rw [← htag]
    exact ⟨s.marg.relayWait, s.marg.outbox, s.marg.outSent, s.folio, congrArg (fun m : Margin => { s with marg := m }) hsame.symm⟩
  | some tag =>
    dsimp only
    unfold completeTag
    split
    · split
      · exact ⟨_, _, _, _, rfl⟩
      · exact ⟨_, _, _, _, rfl⟩
    · split
      · exact ⟨_, _, _, _, rfl⟩
      · exact ⟨_, _, _, _, rfl⟩

/-- The device gives its role up where a partner takes it. -/
theorem roleGiven_gives (s : State) : ∀ t, t = (if s.marg.ho = .taking then ringsFresh (becomeStandby s) else s) →
    t.marg = { s.marg with
      role := if s.marg.ho = .taking then 2 else s.marg.role, ho := if s.marg.ho = .taking then .none else s.marg.ho } ∧
    (s.marg.ho = .taking → t.so.ownN = false) ∧ (s.marg.ho = .taking → t.tim.master = false) ∧ t.folio.tags = s.folio.tags ∧
    t.folio.replies = s.folio.replies := by
  rintro t rfl
  by_cases hho : s.marg.ho = .taking
  case pos =>
    obtain ⟨hmarg, htim, hown, -, -, -, htags, hreplies⟩ := rolesStand_ringsFresh (becomeStandby s)
    rw [if_pos hho, if_pos hho, if_pos hho, hmarg, htim, hown]
    exact ⟨rfl, fun _ => rfl, fun _ => rfl, htags, hreplies⟩
  case neg =>
    rw [if_neg hho, if_neg hho, if_neg hho]
    exact ⟨rfl, fun h => absurd h hho, fun h => absurd h hho, rfl, rfl⟩

/-- Drive `d` is taken over: it enters RUN, at layer 4 from now. -/
def driveTaken (d : Nat) (s : State) : State := enterRun d (s.updDrive d fun v => { v with l4From := some s.now })

theorem driveTaken_dst (d : Nat) (s : State) (e : Nat) : ((driveTaken d s).drive e).dst = if e = d then .run else (s.drive e).dst := by
  have hdrives := enterRun_drives d (s.updDrive d fun v => { v with l4From := some s.now })
  have hdrive : (driveTaken d s).drive e = _ := (congrArg (fun D : Tbl Drive => tblGet D {} e) hdrives).trans
    (drive_updDrive (s.updDrive d fun v => { v with l4From := some s.now }) d e fun v => { v with dst := .run, runAt := s.now })
  rw [hdrive]
  by_cases he : e = d <;> simp [he]

theorem drivesTaken_run (ds : List Nat) (s : State) (d : Nat) (h : d ∈ ds ∨ (s.drive d).dst = .run) :
    ((forEach ds driveTaken s).drive d).dst = .run := by
  induction ds generalizing s with
  | nil => exact h.resolve_left (by simp)
  | cons e ds ih =>
    refine ih (driveTaken e s) ?_
    rw [driveTaken_dst]
    by_cases hde : d = e
    · exact .inr (if_pos hde)
    · rw [if_neg hde]
      exact h.imp_left fun hmem => (List.mem_cons.1 hmem).resolve_left hde

/-- The device that has become active with trigger `trig`. -/
def tookRole (trig : Nat) (s : State) : State :=
  updMarg (ringsFresh (becomeActive s)) fun m => { m with hoDue := true, hoTrig := trig, ownDue := true, hoTh := s.now }

theorem tookRole_roles (trig : Nat) (s : State) : (tookRole trig s).marg = { s.marg with
      role := 1, ho := .none, hoDue := true, hoTrig := trig, ownDue := true, hoTh := s.now } ∧ (tookRole trig s).tim.master = true ∧
    (tookRole trig s).now = s.now ∧ (tookRole trig s).nv = s.nv ∧ (tookRole trig s).mem.cells = s.mem.cells := by
  obtain ⟨hmarg, htim, -, hnow, hnv, hcells, -, -⟩ := rolesStand_ringsFresh (becomeActive s)
  unfold tookRole
  generalize ringsFresh (becomeActive s) = u at *
  refine ⟨?_, ?_, hnow, hnv, hcells⟩
  · show { u.marg with hoDue := true, hoTrig := trig, ownDue := true, hoTh := s.now } = _
    rw [hmarg]
    rfl
  · show u.tim.master = true
    rw [htim]
    rfl

theorem takeOver_takes (trig : Nat) (s : State) : RolesStand (tookRole trig s) (takeOver trig s) ∧
    ∀ d, d ∈ takenDrives s → ((takeOver trig s).drive d).dst = .run := by
  have hnow : (ringsFresh (becomeActive s)).now = s.now := (rolesStand_ringsFresh (becomeActive s)).now
  have heq : takeOver trig s = if takenDrives s = [] then forEach (takenDrives s) driveTaken (forUpTo 4 (fun d s =>
      s.updDrive d fun v => { v with hd := none }) (tookRole trig s)) else setOp (forEach (takenDrives s) driveTaken (forUpTo 4 (fun d s =>
      s.updDrive d fun v => { v with hd := none }) (tookRole trig s))) .run := by
    unfold takeOver tookRole
    dsimp only
    rw [hnow]
    rfl
  have hfree : RolesStand (tookRole trig s) (forUpTo 4 (fun d s => s.updDrive d fun v => { v with hd := none }) (tookRole trig s)) :=
    forUpTo_rel RolesStand.refl .trans (fun d _ u => rolesStand_updDrive u d _) _
  rw [heq]
  generalize forUpTo 4 (fun d s => s.updDrive d fun v => { v with hd := none }) (tookRole trig s) = u at hfree ⊢
  have htaken : RolesStand u (forEach (takenDrives s) driveTaken u) :=
    RolesStand.forEach (fun d w => (rolesStand_updDrive w d _).trans (rolesStand_enterRun d _)) _ u
  refine ⟨hfree.trans (htaken.trans (rel_ite (.refl _) (rolesStand_setOp _ .run))), fun d hd => ?_⟩
  have hrun := drivesTaken_run (takenDrives s) u d (.inl hd)
  split
  · exact hrun
  · have hdrives := (setOp_stand (forEach (takenDrives s) driveTaken u) .run).drives
    unfold State.drive at hrun ⊢
    rw [hdrives]
    exact hrun

section Arrives
variable {s : State} {seq : Nat} (h : Arrives s seq) (ack : Nat)
include h

theorem takeReceived_takes (th : Nat) (hrole : s.marg.role = 2) : ∃ t, exec (.handoverTakeReceived seq ack th) s = .next t ∧ Taken s t ack ∧
    t.marg.role = 1 ∧ t.tim.master = true ∧ t.marg.hoDue = true ∧ t.marg.ownDue = true ∧ t.marg.hoTrig = 0 ∧
    (∀ d, d ∈ takenDrives s → (t.drive d).dst = .run) ∧ t.now = s.now ∧ t.nv = s.nv ∧ t.mem.cells = s.mem.cells := by
  obtain ⟨rs, r, x, ob, os, la, htake⟩ := takeCell_takes h ack
  have hrole' : (cellTaken ack rs r x ob os la s).marg.role = 2 := hrole
  obtain ⟨hstand, hrun⟩ := takeOver_takes 0 (cellTaken ack rs r x ob os la s)
  obtain ⟨hmarg, hmaster, hnow, hnv, hcells⟩ := tookRole_roles 0 (cellTaken ack rs r x ob os la s)
  have hexec : exec (.handoverTakeReceived seq ack th) s = .next _ := congrArg Host.Outcome.next ((htake _).trans (if_pos hrole'))
  have hm := hstand.marg.trans hmarg
  exact ⟨_, hexec, ⟨(congrArg Margin.rxSeq hm :), (congrArg Margin.crcRun hm :), (congrArg Margin.unacked hm :)⟩,
    (congrArg Margin.role hm :), by rw [hstand.tim]; exact hmaster, (congrArg Margin.hoDue hm :), (congrArg Margin.ownDue hm :),
    (congrArg Margin.hoTrig hm :), hrun, hstand.now.trans hnow, hstand.nv.trans hnv, hstand.cells.trans hcells⟩

theorem takenReceived_ends : ∃ t, exec (.handoverTakenReceived seq ack) s = .next t ∧ Taken s t ack ∧ t.marg.hoTag = none ∧
    (s.marg.ho = .taking → t.marg.role = 2 ∧ t.tim.master = false ∧ t.so.ownN = false) ∧
    (∀ tag e, s.marg.hoTag = some tag → tag < 1024 → tagEntry s tag = some e → e.phase = .running → Replied s t tag 0 []) := by
  obtain ⟨rs, r, x, ob, os, la, htake⟩ := takeCell_takes h ack
  generalize hv : (if (cellTaken ack rs r x ob os la s).marg.ho = .taking then ringsFresh (becomeStandby (cellTaken ack rs r x ob os la s))
    else cellTaken ack rs r x ob os la s) = v
  obtain ⟨hmarg, hown, hmaster, htags, hreplies⟩ := roleGiven_gives (cellTaken ack rs r x ob os la s) v hv.symm
  obtain ⟨W, O, S, f, hend⟩ := hoComplete_keeps stOk v
  have hexec : exec (.handoverTakenReceived seq ack) s = .next (hoComplete stOk v) :=
    congrArg Host.Outcome.next ((htake _).trans (congrArg (hoComplete stOk) hv))
  refine ⟨_, hexec, ⟨?_, ?_, ?_⟩, by rw [hend], fun hho => ⟨?_, ?_, ?_⟩, fun tag e htag hlt he hrun => ?_⟩
  · rw [hend, hmarg]; rfl
  · rw [hend, hmarg]; rfl
  · rw [hend, hmarg]; rfl
  · rw [hend, hmarg]; exact if_pos hho
  · rw [hend]; exact hmaster hho
  · rw [hend]; exact hown hho
  · exact (hoComplete_replies (status := stOk) (by rw [hmarg]; exact htag) hlt he hrun htags hreplies).1

end Arrives

/-! The timers of the hand-over and OWN_N. -/

theorem acceptTimeout_ends {s : State} {tag : Nat} {e : TagEntry} (hho : s.marg.ho = .offered) (hth : s.marg.hoTh ≤ s.now + 2000)
    (htag : s.marg.hoTag = some tag) (hlt : tag < 1024) (he : tagEntry s tag = some e) (hrun : e.phase = .running) :
    ∃ t, exec .handoverAcceptTimeout s = .next t ∧ Replied s t tag stState [] ∧
      t = { s with folio := t.folio, marg := { s.marg with ho := .none, hoTag := none } } := by
  obtain ⟨hreplied, f, hf⟩ := hoComplete_replies (s := s) (u := updMarg s fun m => { m with ho := .none }) (status := stState) htag hlt he hrun
    rfl rfl
  rw [hf] at hreplied
  exact ⟨_, congrArg Host.Outcome.next ((if_pos ⟨hho, hth⟩).trans hf), hreplied, rfl⟩

/-- Drive `v` with the start of its layer 4, if it has one, at `x`. -/
def l4Moved (x : Nat) (v : Drive) : Drive := { v with l4From := v.l4From.map fun _ => x }

theorem l4Moved_moves (x n : Nat) (s : State) : (∃ D, forUpTo n (fun d s => s.updDrive d (l4Moved x)) s = { s with drives := D }) ∧
    ∀ d, (forUpTo n (fun d s => s.updDrive d (l4Moved x)) s).drive d = if d < n then l4Moved x (s.drive d) else s.drive d := by
  induction n with
  | zero => exact ⟨⟨s.drives, rfl⟩, fun d => (if_neg (Nat.not_lt_zero d)).symm⟩
  | succ n ih =>
    obtain ⟨⟨D, hD⟩, hdrive⟩ := ih
    have hstep : forUpTo (n + 1) (fun d s => s.updDrive d (l4Moved x)) s =
        (forUpTo n (fun d s => s.updDrive d (l4Moved x)) s).updDrive n (l4Moved x) := rfl
    rw [hstep]
    refine ⟨⟨_, by rw [hD]; rfl⟩, fun d => ?_⟩
    rw [drive_updDrive, hdrive, hdrive]
    by_cases hdn : d = n
    · subst hdn
      simp
    · rw [if_neg hdn]
      exact if_congr (by omega) rfl rfl

/-- OWN_N asserted, before the layer 4 of the drives is moved. -/
def claimed (s : State) : State := { updMarg s fun m => { m with ownDue := false } with so := { s.so with ownN := true } }

theorem ownNClaim_claims {s : State} (hdue : s.marg.ownDue = true) (hrole : s.marg.role = 1) (hpeer : s.marg.peerOwn = false)
    (htick : s.marg.peerOwnTick + 160 ≤ s.now) : ∃ t, exec .ownNClaim s = .next t ∧ t.so.ownN = true ∧ t.marg.ownDue = false ∧
    (∀ d x, d < 4 → (s.drive d).l4From = some x → (t.drive d).l4From = some (s.now + 400)) ∧
    t = { s with drives := t.drives, marg := { s.marg with ownDue := false }, so := { s.so with ownN := true } } := by
  have hgo : ¬ ((!s.marg.ownDue) = true ∨ s.marg.role ≠ 1 ∨ s.marg.peerOwn = true ∨ s.now < s.marg.peerOwnTick + 160) := by
    rw [hdue, hpeer]
    rintro (h | h | h | h)
    · exact absurd h (by decide)
    · exact h hrole
    · exact absurd h (by decide)
    · omega
  obtain ⟨⟨D, hD⟩, hset⟩ := l4Moved_moves ((claimed s).now + 400) 4 (claimed s)
  have hexec : exec .ownNClaim s = .next (forUpTo 4 (fun d u => u.updDrive d (l4Moved ((claimed s).now + 400))) (claimed s)) :=
    congrArg Host.Outcome.next (if_neg hgo)
  rw [hD] at hset hexec
  refine ⟨{ s with drives := D, marg := { s.marg with ownDue := false }, so := { s.so with ownN := true } }, hexec, rfl, rfl,
    fun d x hd hx => ?_, rfl⟩
  refine (congrArg Drive.l4From (hset d)).trans ?_
  rw [if_pos hd]
  exact congrArg (Option.map fun _ => s.now + 400) hx

/-- Settles O52: roles, and the steps of a hand-over. -/
theorem handOver : Obligations.HandOver := by
  unfold Obligations.HandOver
  intro s
  refine ⟨fun tag n hn h hok => pairRole_takes hn h hok,
    fun tag ws h hrole hup helig hho hsound => handover_offers h hrole hup helig hho hsound,
    fun seq ack h => ⟨offerReceived_accepts h ack, offerReceived_declines h ack, acceptReceived_accepts h ack,
      fun tag e => declineReceived_completes h ack, takeReceived_takes h ack, takenReceived_ends h ack, leaveReceived_notes h ack⟩,
    fun tag e => acceptTimeout_ends, fun hho hth => ⟨handoverInstant_stands_by hho hth, handoverInstant_takes hho hth⟩,
    ownNClaim_claims, fun a => ⟨_, rfl, rfl, fun hne => if_neg hne, rfl⟩⟩

end Sys2Proof.Proofs
end

section
/-! PROOFS. O47: what one entry writes into the log, into the event queue of the host and into the mirror, and the three commands of the
log. -/
namespace Sys2Proof.Proofs
open Sys2Proof.Machine Sys2Proof.Safety Sys2Proof.Laws

variable {s : State} {tag : Nat}

/-! The parts of a written entry. -/

theorem parGet_parSet_ne {u i u' i' : Nat} (hi : i < 0x10000) (hi' : i' < 0x10000) (hne : ¬(u' = u ∧ i' = i)) (v : Word) :
    parGet (parSet s u i v) u' i' = parGet s u' i' :=
  (parGet_parSet s hi hi' v).trans (if_neg hne)

theorem completeTag_keeps (tag status : Nat) (ws : List Word) (s : State) :
    ∃ f m, completeTag tag status ws s = { s with folio := f, marg := m } := by
  unfold completeTag
  split
  · split <;> exact ⟨_, _, rfl⟩
  · split <;> exact ⟨_, _, rfl⟩

/-- A waiting command takes its answer; the log stays, and of the waiting ones that command alone is gone. -/
theorem answerMark_keeps (e : Event) (q : Nat) (s : State) :
    ∃ f m w, answerMark e q s = { s with folio := f, marg := m, book := { s.book with markWait := w } } := by
  unfold answerMark
  split
  · obtain ⟨f, m, h⟩ := completeTag_keeps _ stOk [wrd q] (updBook s _)
    exact ⟨f, m, _, h⟩
  · exact ⟨s.folio, s.marg, s.book.markWait, rfl⟩

theorem answerMark_of_find {e : Event} {q : Nat} {w : Nat × Nat × Nat}
    (h : s.book.markWait.find? (fun w => w.1 = e.code && w.2.1 = e.time) = some w) : answerMark e q s =
      completeTag w.2.2 stOk [wrd q] (updBook s fun b => { b with markWait := b.markWait.erase w }) := by
  unfold answerMark
  rw [h]

/-- The mirror queues the entry or counts that it is full. -/
theorem mirrorTake_keeps (e : LogEntry) (s : State) : ∃ P M Q,
    mirrorTake e s = { s with par := P, mem := M, book := { s.book with mirQueue := Q } } ∧ M.cells = s.mem.cells ∧
    parGet (mirrorTake e s) 13 3 = parGet s 13 3 := by
  unfold mirrorTake
  split
  · exact ⟨s.par, s.mem, s.book.mirQueue, rfl, rfl, rfl⟩
  · split
    · exact ⟨_, s.mem, s.book.mirQueue, rfl, rfl, parGet_parSet_ne (s := s) (by decide) (by decide) (by decide) _⟩
    · obtain ⟨M, hM, hcells, _⟩ := lpIssue_mem 200 (updBook s fun b => { b with mirQueue := b.mirQueue ++ [e] })
      rw [hM]
      exact ⟨s.par, M, _, rfl, hcells, rfl⟩

/-- The event queue of the host takes the entry, leaves it out, or counts it as lost. -/
theorem queueEvent_keeps (e : LogEntry) (s : State) : ∃ P E m l,
    queueEvent e s = { s with par := P, folio := { s.folio with events := E, eventsMost := m, lost := l } } ∧
    parGet (queueEvent e s) 13 3 = parGet s 13 3 := by
  unfold queueEvent
  dsimp only
  split
  · exact ⟨s.par, _, _, s.folio.lost, rfl, rfl⟩
  · split
    · exact ⟨s.par, s.folio.events, s.folio.eventsMost, s.folio.lost, rfl, rfl⟩
    · split
      · exact ⟨_, s.folio.events, s.folio.eventsMost, _, rfl, parGet_parSet_ne (by decide) (by decide) (by decide) _⟩
      · exact ⟨s.par, _, _, s.folio.lost, rfl, rfl⟩

/-- The log with a new last entry, the oldest of 4096 making room. -/
def logWith (l : List LogEntry) (e : LogEntry) : List LogEntry := (if 4096 ≤ l.length then l.tail else l) ++ [e]

/-- The entry takes its number, and is stored last, or dropped where the log is frozen. -/
def numbered (e : Event) (s : State) : State :=
  let s1 := updBook s fun b => { b with nextSeq := (b.nextSeq + 1) % 65536 }
  if s1.book.frozen then parCount s1 13 3 1 else storeEntry ⟨s.book.nextSeq, e⟩ s1

theorem numbered_numbers (e : Event) (s : State) : ∃ P M, numbered e s =
      { s with par := P, mem := M, book := { s.book with nextSeq := (s.book.nextSeq + 1) % 65536,
                                                         log := if s.book.frozen then s.book.log else logWith s.book.log ⟨s.book.nextSeq, e⟩ } } ∧
    M.cells = s.mem.cells ∧ (s.book.frozen = true → parGet (numbered e s) 13 3 = counted (parGet s 13 3) 1) := by
  unfold numbered
  cases hf : s.book.frozen with
  | true => exact ⟨_, s.mem, if_pos hf, rfl, fun _ => (congrArg (parGet · 13 3) (if_pos hf)).trans (parGet_parCount_self _ 13 3 1)⟩
  | false => exact ⟨s.par, _, if_neg (by simp [updBook, hf]), rfl, fun h => absurd h Bool.false_ne_true⟩

theorem assignEntry_assigns (e : Event) (s : State) : ∃ P M E m l Q, assignEntry e s =
      { s with par := P, mem := M, folio := { s.folio with events := E, eventsMost := m, lost := l },
               book := { s.book with nextSeq := (s.book.nextSeq + 1) % 65536, mirQueue := Q,
                                     log := if s.book.frozen then s.book.log else logWith s.book.log ⟨s.book.nextSeq, e⟩ } } ∧
    M.cells = s.mem.cells ∧ (s.book.frozen = true → parGet (assignEntry e s) 13 3 = counted (parGet s 13 3) 1) := by
  have hsplit : assignEntry e s = queueEvent ⟨s.book.nextSeq, e⟩ (mirrorTake ⟨s.book.nextSeq, e⟩ (numbered e s)) := rfl
  obtain ⟨P, M, hnumber, hcells, hcount⟩ := numbered_numbers e s
  obtain ⟨P', M', Q, hmirror, hcells', hpar⟩ := mirrorTake_keeps ⟨s.book.nextSeq, e⟩ (numbered e s)
  obtain ⟨P'', E, m, l, hqueue, hpar'⟩ := queueEvent_keeps ⟨s.book.nextSeq, e⟩ (mirrorTake ⟨s.book.nextSeq, e⟩ (numbered e s))
  rw [hsplit, hpar', hpar, hqueue, hmirror]
  refine ⟨P'', M', E, m, l, Q, ?_, hcells'.trans ?_, hcount⟩
  · rw [hnumber]
  · rw [hnumber]; exact hcells

/-! A written entry. -/

/-- An entry with its number, and the command that waits for it answered. -/
def entered (e : Event) (s : State) : State := answerMark e s.book.nextSeq (assignEntry e s)

theorem entered_enters (e : Event) (s : State) : ∃ P M F m Q W, entered e s =
      { s with par := P, mem := M, folio := F, marg := m,
               book := { s.book with nextSeq := (s.book.nextSeq + 1) % 65536, mirQueue := Q, markWait := W,
                                     log := if s.book.frozen then s.book.log else logWith s.book.log ⟨s.book.nextSeq, e⟩ } } ∧
    M.cells = s.mem.cells ∧ (s.book.frozen = true → parGet (entered e s) 13 3 = counted (parGet s 13 3) 1) := by
  obtain ⟨P, M, E, n, l, Q, hassign, hcells, hcount⟩ := assignEntry_assigns e s
  obtain ⟨F, m, W, hanswer⟩ := answerMark_keeps e s.book.nextSeq (assignEntry e s)
  refine ⟨P, M, F, m, Q, W, ?_, hcells, fun hf => ?_⟩
  · rw [entered, hanswer, hassign]
  · rw [entered, hanswer]; exact hcount hf

/-- The entry that tells of the freeze, behind the last one before it. -/
def frozenAfter (s : State) : State :=
  updBook (assignEntry (mkEvent s 0x0D01 0 []) s) fun b => { b with left := 0, armed := false, frozen := true, frozenSeq := s.book.nextSeq }

theorem frozenAfter_freezes (s : State) : ∃ P M F Q L, frozenAfter s =
      { s with par := P, mem := M, folio := F,
               book := { s.book with nextSeq := (s.book.nextSeq + 1) % 65536, mirQueue := Q, log := L, left := 0, armed := false,
                                     frozen := true, frozenSeq := s.book.nextSeq } } ∧
    M.cells = s.mem.cells ∧ F.tags = s.folio.tags ∧ F.replies = s.folio.replies := by
  obtain ⟨P, M, E, n, l, Q, hassign, hcells, _⟩ := assignEntry_assigns (mkEvent s 0x0D01 0 []) s
  unfold frozenAfter
  rw [hassign]
  exact ⟨P, M, _, Q, _, rfl, hcells, rfl, rfl⟩

/-- One entry less to go before the freeze. -/
def lessLeft (s : State) : State := updBook s fun b => { b with left := b.left - 1 }

theorem writeEntry_of_frozen {e : Event} (hf : s.book.frozen = true) : writeEntry e s = entered e s := if_pos hf

theorem writeEntry_of_calm {e : Event} (hf : s.book.frozen = false) (ha : s.book.armed = false) : writeEntry e s =
    if e.code = 0x0902 then updBook (entered e s) fun b => { b with armed := true, left := 256, armSeq := s.book.nextSeq }
    else entered e s :=
  (if_neg (by simp [hf])).trans (if_neg (by simp [ha]))

theorem writeEntry_of_armed {e : Event} (hf : s.book.frozen = false) (ha : s.book.armed = true) : writeEntry e s =
    if (lessLeft (entered e s)).book.left = 1 then frozenAfter (lessLeft (entered e s)) else lessLeft (entered e s) :=
  (if_neg (by simp [hf])).trans (if_pos ha)

/-- What every written entry leaves, whatever the freeze does. -/
structure EntryKept (s t : State) : Prop where
  nv : t.nv = s.nv
  now : t.now = s.now
  tim : t.tim = s.tim
  inq : t.book.inq = s.book.inq
  cells : t.mem.cells = s.mem.cells

theorem EntryKept.trans {s t u : State} (h : EntryKept s t) (k : EntryKept t u) : EntryKept s u :=
  ⟨k.nv.trans h.nv, k.now.trans h.now, k.tim.trans h.tim, k.inq.trans h.inq, k.cells.trans h.cells⟩

theorem EntryKept.refl (s : State) : EntryKept s s := ⟨rfl, rfl, rfl, rfl, rfl⟩

theorem entered_keeps (e : Event) (s : State) : EntryKept s (entered e s) := by
  obtain ⟨P, M, F, m, Q, W, h, hcells, _⟩ := entered_enters e s
  rw [h]
  exact ⟨rfl, rfl, rfl, rfl, hcells⟩

theorem frozenAfter_keeps (s : State) : EntryKept s (frozenAfter s) := by
  obtain ⟨P, M, F, Q, L, h, hcells, _, _⟩ := frozenAfter_freezes s
  rw [h]
  exact ⟨rfl, rfl, rfl, rfl, hcells⟩

theorem updBook_entryKept {f : Sketchbook → Sketchbook} (h : (f s.book).inq = s.book.inq) : EntryKept s (updBook s f) :=
  ⟨rfl, rfl, rfl, h, rfl⟩

/-- Of a written entry: what it keeps, and that its commands are those of the entered one. -/
theorem writeEntry_writes (e : Event) (s : State) : EntryKept s (writeEntry e s) ∧
    (writeEntry e s).folio.tags = (entered e s).folio.tags ∧ (writeEntry e s).folio.replies = (entered e s).folio.replies := by
  have hentered := entered_keeps e s
  cases hf : s.book.frozen with
  | true => rw [writeEntry_of_frozen hf]; exact ⟨hentered, rfl, rfl⟩
  | false =>
    cases ha : s.book.armed with
    | false =>
      rw [writeEntry_of_calm hf ha]
      split
      · exact ⟨hentered.trans (updBook_entryKept rfl), rfl, rfl⟩
      · exact ⟨hentered, rfl, rfl⟩
    | true =>
      have hless : EntryKept s (lessLeft (entered e s)) := hentered.trans (updBook_entryKept rfl)
      rw [writeEntry_of_armed hf ha]
      split
      · obtain ⟨P, M, F, Q, L, hfreeze, _, htags, hreplies⟩ := frozenAfter_freezes (lessLeft (entered e s))
        refine ⟨hless.trans (frozenAfter_keeps _), ?_, ?_⟩
        · rw [hfreeze]; exact htags
        · rw [hfreeze]; exact hreplies
      · exact ⟨hless, rfl, rfl⟩

/-! SKETCHBOOK_WRITE. -/

theorem replied_congr {s t u : State} {tag status : Nat} {ws : List Word} (h : Replied s t tag status ws)
    (htags : u.folio.tags = t.folio.tags) (hreplies : u.folio.replies = t.folio.replies) : Replied s u tag status ws := by
  obtain ⟨⟨x, hx, hqueue⟩, hphase, hothers⟩ := h
  have hentry : ∀ n, tagEntry u n = tagEntry t n := fun n => by unfold tagEntry; rw [htags]
  exact ⟨⟨x, hx, hreplies.trans hqueue⟩, by rw [hentry]; exact hphase, fun n hn => by rw [hentry]; exact hothers n hn⟩

section Writing
variable {e : Event} {r : List Event}

/-- The log without the event that is written. -/
def taken (s : State) (r : List Event) : State := updBook s fun b => { b with inq := r }

theorem sketchbookWrite_writes (hinq : s.book.inq = e :: r) (hopen : tickOpen s e = false) :
    exec .sketchbookWrite s = .next (writeEntry e (taken s r)) := by
  refine congrArg Host.Outcome.next ?_
  rw [hinq]
  exact if_neg (by simp [hopen])

theorem sketchbookWrite_holds (hinq : s.book.inq = e :: r) (hopen : tickOpen s e = true) : exec .sketchbookWrite s = .next s := by
  refine congrArg Host.Outcome.next ?_
  rw [hinq]
  exact if_pos hopen

/-- The command that waits for the event takes its number. -/
theorem sketchbookWrite_answers {x : TagEntry} (hinq : s.book.inq = e :: r) (hopen : tickOpen s e = false) (htag : tag < 1024)
    (hwait : s.book.markWait.find? (fun w => w.1 = e.code && w.2.1 = e.time) = some (e.code, e.time, tag))
    (hx : tagEntry s tag = some x) (hphase : x.phase ≠ .replied) :
    ∃ t, exec .sketchbookWrite s = .next t ∧ Replied s t tag 0 [wrd s.book.nextSeq] := by
  obtain ⟨_, htags, hreplies⟩ := writeEntry_writes e (taken s r)
  obtain ⟨P, M, E, n, l, Q, hassign, _, _⟩ := assignEntry_assigns e (taken s r)
  have hmarks : (assignEntry e (taken s r)).book.markWait = s.book.markWait := by rw [hassign]; rfl
  have hentered := answerMark_of_find (q := s.book.nextSeq) (s := assignEntry e (taken s r)) (by rw [hmarks]; exact hwait)
  have hreplied := (completeTag_replied (status := stOk) (ws := [wrd s.book.nextSeq])
    (u := updBook (assignEntry e (taken s r)) fun b => { b with markWait := b.markWait.erase (e.code, e.time, tag) }) htag hx hphase
    (by rw [hassign]; rfl) (by rw [hassign]; rfl)).2
  rw [← hentered] at hreplied
  exact ⟨_, sketchbookWrite_writes hinq hopen, replied_congr hreplied htags hreplies⟩

/-- What a written entry does to the log and its freeze. -/
theorem sketchbookWrite_logs (hinq : s.book.inq = e :: r) (hopen : tickOpen s e = false) :
    ∃ t, exec .sketchbookWrite s = .next t ∧ t.book.inq = r ∧ t.nv = s.nv ∧ t.mem.cells = s.mem.cells ∧
      (s.book.frozen = true → t.book.log = s.book.log ∧ t.book.frozen = true ∧
        t.book.nextSeq = (s.book.nextSeq + 1) % 65536 ∧ parGet t 13 3 = counted (parGet s 13 3) 1) ∧
      (s.book.frozen = false → s.book.armed = false →
        t.book.log = (if 4096 ≤ s.book.log.length then s.book.log.tail else s.book.log) ++ [⟨s.book.nextSeq, e⟩] ∧
        t.book.nextSeq = (s.book.nextSeq + 1) % 65536 ∧ t.book.frozen = false ∧ t.book.armed = decide (e.code = 0x0902) ∧
        (e.code = 0x0902 → t.book.left = 256 ∧ t.book.armSeq = s.book.nextSeq)) ∧
      (s.book.frozen = false → s.book.armed = true → s.book.left = 2 → t.book.frozen = true ∧ t.book.armed = false ∧
        t.book.nextSeq = (s.book.nextSeq + 2) % 65536 ∧ t.book.frozenSeq = (s.book.nextSeq + 1) % 65536) ∧
      (s.book.frozen = false → s.book.armed = true → 2 < s.book.left → t.book.frozen = false ∧ t.book.armed = true ∧
        t.book.left = s.book.left - 1) := by
  have hkept := (writeEntry_writes e (taken s r)).1
  obtain ⟨P, M, F, m, Q, W, hentered, _, hcount⟩ := entered_enters e (taken s r)
  refine ⟨_, sketchbookWrite_writes hinq hopen, hkept.inq, hkept.nv, hkept.cells, fun hf => ?_, fun hf ha => ?_, fun hf ha hl => ?_,
    fun hf ha hl => ?_⟩
  · rw [writeEntry_of_frozen (s := taken s r) hf]
    refine ⟨?_, ?_, ?_, hcount hf⟩
    · rw [hentered]; exact if_pos hf
    · rw [hentered]; exact hf
    · rw [hentered]; rfl
  · have hlog : (entered e (taken s r)).book.log = logWith s.book.log ⟨s.book.nextSeq, e⟩ := by
      rw [hentered]; exact if_neg (by simp [taken, updBook, hf])
    have hseq : (entered e (taken s r)).book.nextSeq = (s.book.nextSeq + 1) % 65536 := by rw [hentered]; rfl
    have hthaw : (entered e (taken s r)).book.frozen = false := by rw [hentered]; exact hf
    have hcalm : (entered e (taken s r)).book.armed = false := by rw [hentered]; exact ha
    rw [writeEntry_of_calm (s := taken s r) hf ha]
    split
    case isTrue hc => exact ⟨hlog, hseq, hthaw, (decide_eq_true hc).symm, fun _ => ⟨rfl, rfl⟩⟩
    case isFalse hc => exact ⟨hlog, hseq, hthaw, hcalm.trans (decide_eq_false hc).symm, fun h => absurd h hc⟩
  · have hleft : (lessLeft (entered e (taken s r))).book.left = 1 := by rw [hentered]; exact (congrArg (· - 1) hl : _)
    have hseq : (lessLeft (entered e (taken s r))).book.nextSeq = (s.book.nextSeq + 1) % 65536 := by rw [hentered]; rfl
    obtain ⟨P', M', F', Q', L, hfreeze, _⟩ := frozenAfter_freezes (lessLeft (entered e (taken s r)))
    rw [writeEntry_of_armed (s := taken s r) hf ha, if_pos hleft, hfreeze]
    refine ⟨rfl, rfl, ?_, hseq⟩
    change ((lessLeft (entered e (taken s r))).book.nextSeq + 1) % 65536 = _
    rw [hseq]
    omega
  · have hleft : (lessLeft (entered e (taken s r))).book.left = s.book.left - 1 := by rw [hentered]; rfl
    rw [writeEntry_of_armed (s := taken s r) hf ha, if_neg (by rw [hleft]; omega)]
    refine ⟨?_, ?_, hleft⟩
    · rw [hentered]; exact hf
    · rw [hentered]; exact ha

end Writing

/-! LOG_READ. -/

/-- The entries that LOG_READ names. -/
def logNamed (s : State) (newest : Bool) (count q : Nat) : List LogEntry :=
  if newest then s.book.log.drop (s.book.log.length - count)
  else (s.book.log.dropWhile fun e => !seqFrom e.seq q).take count

/-- The words of LOG_READ: the newest number, the state of the freeze and the entries. -/
def logReply (s : State) (es : List LogEntry) : List Word :=
  [logSeq s, wrd (b2n s.book.frozen * 2 ^ 31 + b2n s.book.armed * 2 ^ 30 + es.length)] ++ es.flatMap eventWords

/-- The word of LOG_READ. -/
def logWord (newest : Bool) (count q : Nat) : Nat := b2n newest * 2 ^ 31 + count * 2 ^ 16 + q

section LogWord
variable {newest : Bool} {count q : Nat} (h32 : count ≤ 32) (hq : q < 65536)
include h32 hq

theorem logWord_reads : field (wrd (logWord newest count q)) 21 16 = count ∧ field (wrd (logWord newest count q)) 15 0 = q ∧
    wbit (wrd (logWord newest count q)) 31 = newest := by
  have hn := b2n_le newest
  have hlt : logWord newest count q < 2 ^ 32 := by unfold logWord; omega
  rw [field_wrd hlt, field_wrd hlt, wbit_wrd (by decide), Nat.testBit_eq_decide_div_mod_eq]
  unfold logWord
  refine ⟨by omega, by omega, ?_⟩
  cases newest <;> simp only [b2n] <;> simp <;> omega

theorem logWord_clean : hasBits (wrd (logWord newest count q)) 0x7FC00000 = false := by
  have hmask : ∀ k, k < 32 → wbit 0x7FC00000 k = true → 22 ≤ k ∧ k < 31 := by decide
  have hword : logWord newest count q = 2 ^ 31 * b2n newest + (count * 2 ^ 16 + q) := by unfold logWord; omega
  refine hasBits_eq_false fun k hk hbit => (wbit_wrd hk).trans ?_
  obtain ⟨h22, h31⟩ := hmask k hk hbit
  rw [hword, Nat.testBit_two_pow_mul_add _ (by omega), if_pos h31]
  exact Nat.testBit_lt_two_pow (lt_of_lt_of_le (by omega) (Nat.pow_le_pow_right (by decide) h22 : 2 ^ 22 ≤ 2 ^ k))

/-- The words of the named entries are read before the command replies. -/
def logRead (s : State) (es : List LogEntry) : State := readCells (es.flatMap entryCells) s

/-- The marked entries of LOG_READ, one bit each. -/
def markedEntries (s : State) (es : List LogEntry) : Word := wrd (maskOf (below 32 fun k => (es.map (entryMarked s)).getD k false))

theorem bodyLogRead_reads (h1 : 1 ≤ count) (u : State) : bodyLogRead [wrd (logWord newest count q)] u =
    .done (if (logNamed u newest count q).any (entryMarked (logRead u (logNamed u newest count q))) then stPoison else stOk)
      (logReply (logRead u (logNamed u newest count q)) (logNamed u newest count q) ++
        [markedEntries (logRead u (logNamed u newest count q)) (logNamed u newest count q)]) (logRead u (logNamed u newest count q)) := by
  obtain ⟨hcount, hseq, hnewest⟩ := logWord_reads (newest := newest) h32 hq
  unfold bodyLogRead
  rw [checked_nil _ (by simp only [pw, List.getD_cons_zero, logWord_clean h32 hq, hcount]; simp; omega)]
  have hany (t : State) (es : List LogEntry) : (es.map (entryMarked t)).contains true = es.any (entryMarked t) := by
    rw [List.contains_eq_any_beq, List.any_map]
    congr 1
    funext e
    simp
  simp only [pw, List.getD_cons_zero, hcount, hseq, hnewest, hany]
  rfl

end LogWord

/-- The reads of LOG_READ change marks and counters, and raise events of memory. -/
theorem logRead_reads {newest : Bool} {count q : Nat} (h1 : 1 ≤ count) (h32 : count ≤ 32) (hq : q < 65536)
    (h : Starts s tag 0x80 [wrd (logWord newest count q)]) : ∃ t es m, exec (.logRead tag) s = .next t ∧
      es = logNamed s newest count q ∧ Replied s t tag (if es.any (entryMarked t) then stPoison else 0) (logReply s es ++ [m]) ∧
      t.book.log = s.book.log ∧ t.mem.cells = s.mem.cells ∧ t.nv = s.nv ∧ (s.mem.errs = [] → t = { s with folio := t.folio }) := by
  have hbody := bodyLogRead_reads h32 hq h1 (newest := newest) (begun s tag)
  have hnamed : logNamed (begun s tag) newest count q = logNamed s newest count q := rfl
  rw [hnamed] at hbody
  have hclear : s.mem.errs = [] → logRead (begun s tag) (logNamed s newest count q) = begun s tag := fun he => if_pos he
  obtain ⟨P, mk, er, ce, Q, hread⟩ : ReadStep (begun s tag) (logRead (begun s tag) (logNamed s newest count q)) := read_readCells _ _
  generalize logRead (begun s tag) (logNamed s newest count q) = u at *
  subst hread
  obtain ⟨t, ht, hreply, f, rfl⟩ := completes h hbody rfl rfl
  exact ⟨_, _, _, congrArg Host.Outcome.next ht, rfl, hreply, rfl, rfl, rfl, fun he => congrArg (fun v : State => { v with folio := f }) (hclear he)⟩

/-! LOG_MARK and LOG_CLEAR. -/

/-- The event whose number the command waits for. -/
theorem recordAnswered_waits {code : Nat} {ws : List Word} (u : State) (hc : eventClass code ≠ 2)
    (hd : eventDrive (mkEvent u code 0 ws) = none) (h : code ≠ 0x0902) : recordAnswered code tag ws u =
      { u with book := { u.book with inq := evInsert u.book.inq (mkEvent u code 0 ws),
                                     markWait := u.book.markWait ++ [(code, u.now, tag)] } } :=
  record_quiet hc hd h

theorem logMark_marks {ws : List Word} (h : Starts s tag 0x81 ws) : ∃ t, exec (.logMark tag) s = .next t ∧ Waiting s t tag ∧
    Raised s t 0x0D02 0 ws ∧ t.book.markWait = s.book.markWait ++ [(0x0D02, s.now, tag)] ∧ t.book.log = s.book.log ∧ t.nv = s.nv ∧
      t.mem.cells = s.mem.cells := by
  have hwaits := recordAnswered_waits (tag := tag) (ws := ws) (code := 0x0D02) (begun s tag) (by decide) rfl (by decide)
  have hbody : bodyLogMark tag ws (begun s tag) = .wait _ := congrArg CmdRes.wait hwaits
  obtain ⟨ht, hw⟩ := waits h hbody rfl rfl
  exact ⟨_, congrArg Host.Outcome.next ht, hw, mem_evInsert.2 (.inl rfl), rfl, rfl, rfl, rfl⟩

/-- The entries of the ticks that are over, written by LOG_CLEAR. -/
def written (s : State) : State :=
  forEach (s.book.inq.filter fun e => decide (e.time < s.now)) writeEntry (updBook s fun b => { b with inq := [] })

theorem written_keeps (s : State) : EntryKept (updBook s fun b => { b with inq := [] }) (written s) :=
  forEach_rel EntryKept.refl EntryKept.trans (fun e u => (writeEntry_writes e u).1) _ _

theorem written_none (h : ∀ e ∈ s.book.inq, s.now ≤ e.time) : written s = updBook s fun b => { b with inq := [] } := by
  have hnone : (s.book.inq.filter fun e => decide (e.time < s.now)) = [] :=
    List.filter_eq_nil_iff.2 fun e he => by simp [h e he]
  unfold written
  rw [hnone]
  rfl

/-- The log after LOG_CLEAR, before its own event. -/
def cleared (erase : Bool) (inq : List Event) (s : State) : State := updBook s fun b =>
  { b with log := if erase then b.log.filter fun e => !decide (e.ev.time < s.now) else b.log,
           armed := false, frozen := false, left := 0, inq := inq }

theorem bodyLogClear_clears {w : Word} (hw : w ∈ ([1, 2, 3] : List Word)) (u : State) : bodyLogClear tag [w] u =
    .wait (recordAnswered 0x0D03 tag [] (cleared (wbit w 0) (u.book.inq.filter fun e => !decide (e.time < u.now)) (written u))) := by
  have hcodes : hasBits w 0xFFFFFFFC = false ∧ field w 1 0 ≠ 0 := by
    simp only [List.mem_cons, List.not_mem_nil, or_false] at hw
    obtain rfl | rfl | rfl := hw <;> decide
  obtain ⟨hbits, hfield⟩ := hcodes
  refine checked_nil _ ?_ _
  simp only [pw, List.getD_cons_zero, List.mem_singleton, forall_eq, hbits, Bool.false_or]
  exact decide_eq_false hfield

theorem logClear_clears {w : Word} (h : Starts s tag 0x82 [w]) (hw : w ∈ ([1, 2, 3] : List Word)) :
    ∃ t, exec (.logClear tag) s = .next t ∧ Raised s t 0x0D03 0 [] ∧ t.book.frozen = false ∧ t.book.armed = false ∧ t.nv = s.nv ∧
      (wbit w 0 = true → ∀ e ∈ t.book.log, s.now ≤ e.ev.time) ∧
      ((∀ e ∈ s.book.inq, s.now ≤ e.time) → Waiting s t tag ∧ t.mem.cells = s.mem.cells ∧
        t.book.markWait = s.book.markWait ++ [(0x0D03, s.now, tag)] ∧ (wbit w 0 = false → t.book.log = s.book.log)) := by
  have hkept := written_keeps (begun s tag)
  have hrun := (runCommand_starts h (bodyLogClear tag)).trans (congrArg (settle tag) (bodyLogClear_clears hw (begun s tag)))
  have hquiet := recordAnswered_waits (tag := tag) (code := 0x0D03) (ws := [])
    (cleared (wbit w 0) (s.book.inq.filter fun e => !decide (e.time < s.now)) (written (begun s tag)))
    (by decide) rfl (by decide)
  have hevent : ∀ u : State, u.now = s.now → u.tim = s.tim → mkEvent u 0x0D03 0 [] = mkEvent s 0x0D03 0 [] := fun u hn ht => by
    rw [mkEvent, mkEvent, hn, ht]
  refine ⟨_, congrArg Host.Outcome.next (hrun.trans hquiet), ?_, rfl, rfl, hkept.nv, fun herase e he => ?_, fun hnone => ?_⟩
  · exact mem_evInsert.2 (.inl (hevent _ hkept.now hkept.tim).symm)
  · have he' : e ∈ (if wbit w 0 = true then (written (begun s tag)).book.log.filter fun e => !decide (e.ev.time < (written (begun s tag)).now)
        else (written (begun s tag)).book.log) := he
    rw [if_pos herase] at he'
    have hlate := (List.mem_filter.1 he').2
    rw [hkept.now] at hlate
    have hle : ¬ e.ev.time < s.now := of_decide_eq_false (Bool.not_eq_true' _ ▸ hlate)
    exact Nat.le_of_not_lt hle
  · rw [written_none (s := begun s tag) hnone]
    have hbody : bodyLogClear tag [w] (begun s tag) = .wait _ := (bodyLogClear_clears hw (begun s tag)).trans (congrArg CmdRes.wait hquiet)
    rw [written_none (s := begun s tag) hnone] at hbody
    obtain ⟨_, hw'⟩ := waits h hbody rfl rfl
    exact ⟨hw', rfl, rfl, fun hkeep => if_neg (by simp [hkeep])⟩

/-! The statement. -/

/-- Settles O47: entries written, and the commands of the log. -/
theorem sketchbookEntries : Obligations.SketchbookEntries := by
  unfold Obligations.SketchbookEntries
  intro s
  exact ⟨fun e r hinq hopen => sketchbookWrite_holds hinq hopen,
    fun e r tag x hinq hopen htag hwait hx hphase => sketchbookWrite_answers hinq hopen htag hwait hx hphase,
    fun e r hinq hopen => sketchbookWrite_logs hinq hopen,
    fun tag newest count q h1 h32 hq h => logRead_reads h1 h32 hq h,
    fun tag ws h => logMark_marks h, fun tag w h hw => logClear_clears h hw⟩

end Sys2Proof.Proofs
end

section
/-!
PROOFS. O45: MEM_READ, MEM_WRITE, CAPTURE_ARM and SCRUB_STATUS (R382 to R399). What a read delivers and a store leaves is
`hostRead_words`, `hostRead_clean` and `storeRange_step`; here stand the checks of the commands and what a capture buffer that is armed
takes along.
-/
namespace Sys2Proof.Proofs
open Sys2Proof.Machine Sys2Proof.Safety Sys2Proof.Laws

variable {s : State} {tag : Nat}

/-! MEM_READ. -/

/-- What MEM_READ replies with: the words and the bitmaps of their marks. -/
def memDelivered (r : State × List (Word × Mark)) : CmdRes :=
  .done (marksStatus (r.2.map fun x => x.2))
    (r.2.map (fun x => x.1) ++ bitmapWords ((r.2.map fun x => x.2).map fun m => decide (m = .bite)) ++
      bitmapWords ((r.2.map fun x => x.2).map fun m => decide (m = .unwritten)))
    { r.1 with free := r.1.free + 2 ^ 36 }

theorem insideRegion_begun (a n : Nat) : insideRegion (begun s tag) a n = insideRegion s a n :=
  insideRegion_congr (s := s) (t := begun s tag) rfl a n

theorem readable_begun (a : Nat) : readable (begun s tag) a = readable s a := readable_congr (s := s) (t := begun s tag) rfl a

theorem lpWaits_begun (a n : Nat) (write : Bool) : lpWaits (begun s tag) a n write = lpWaits s a n write :=
  lpWaits_congr (s := s) (t := begun s tag) rfl a n write

theorem rangeDenied_begun (a n : Nat) : rangeDenied (begun s tag) a n = rangeDenied s a n := by
  unfold rangeDenied
  simp only [regionAt_congr (s := s) (t := begun s tag) rfl]

theorem rangeMapped_begun (a n : Nat) : rangeMapped (begun s tag) a n = rangeMapped s a n := by
  unfold rangeMapped
  simp only [regionAt_congr (s := s) (t := begun s tag) rfl]

theorem touchesArmed_begun (b a n : Nat) : touchesArmed (begun s tag) b a n = touchesArmed s b a n := rfl

theorem touchesMirror_begun (a n : Nat) : touchesMirror (begun s tag) a n = touchesMirror s a n := rfl

section MemRead
variable {lo hi : Word} {n : Nat} (h1 : 1 ≤ n) (hn : n ≤ 960) (hal : ofTwoWords lo hi % 4 = 0)
  (hin : insideRegion s (ofTwoWords lo hi) n = true) (hread : readable s (ofTwoWords lo hi) = true)
  (hlp : hasLp s.part = true → namesLp (ofTwoWords lo hi) = true → s.mem.lpOnline = true)
include h1 hn hal hin hread hlp

/-- MEM_READ whose checks pass waits for LPDDR5 or delivers its words. -/
theorem bodyMemRead_reads : bodyMemRead tag [lo, hi, wrd n] s =
    if lpWaits s (ofTwoWords lo hi) n false then
      .wait { s with mem := { s.mem with lpWait := s.mem.lpWait ++ [(tag, false, [lo, hi, wrd n])] } }
    else memDelivered (hostRead n (ofTwoWords lo hi) (lpNote s (ofTwoWords lo hi))) := by
  have hfield : field (wrd n) 9 0 = n := by rw [field_wrd (by omega)]; omega
  have hclean : hasBits (wrd n) 0xFFFFFC00 = false := hasBits_small (k := 10) (by decide) (by decide) (by omega)
  have hoff : (hasLp s.part && namesLp (ofTwoWords lo hi) && !s.mem.lpOnline) = false := by
    cases hh : hasLp s.part <;> cases hm : namesLp (ofTwoWords lo hi) <;> simp
    exact hlp hh hm
  have hbad : (hasBits (wrd n) 0xFFFFFC00 || decide (n = 0) || decide (960 < n) || decide (ofTwoWords lo hi % 4 ≠ 0) ||
      !insideRegion s (ofTwoWords lo hi) n) = false := by
    rw [hclean, hin]
    simp
    omega
  have hdenied : (!readable s (ofTwoWords lo hi)) = false := by rw [hread]; rfl
  unfold bodyMemRead
  simp only [pw, List.getD_cons_zero, List.getD_cons_succ, hfield]
  rw [checked3 hoff hdenied hbad]
  rfl

theorem memRead_waits (h : Starts s tag 0x70 [lo, hi, wrd n]) (hwait : lpWaits s (ofTwoWords lo hi) n false = true) :
    ∃ t, exec (.memRead tag) s = .next t ∧ Waiting s t tag ∧
      t = { s with folio := t.folio, mem := { s.mem with lpWait := s.mem.lpWait ++ [(tag, false, [lo, hi, wrd n])] } } := by
  obtain ⟨ht, hw⟩ := waits h ((bodyMemRead_reads (s := begun s tag) h1 hn hal ((insideRegion_begun ..).trans hin)
    ((readable_begun _).trans hread) hlp).trans (if_pos ((lpWaits_begun ..).trans hwait))) rfl rfl
  exact ⟨_, congrArg Host.Outcome.next ht, hw, rfl⟩

theorem memRead_delivers (h : Starts s tag 0x70 [lo, hi, wrd n]) (hwait : lpWaits s (ofTwoWords lo hi) n false = false) :
    ∃ t st ws, exec (.memRead tag) s = .next t ∧ Replied s t tag st ws ∧
      st ∈ [0, stPoison, stUnwritten] ∧ ws.length = n + 2 * ((n + 31) / 32) ∧ t.mem.cells = s.mem.cells ∧ t.nv = s.nv ∧
      ((∀ i, i < n → errAt s (ofTwoWords lo hi + 4 * i) = .none ∧ wordMark s (ofTwoWords lo hi + 4 * i) = .none) → st = 0) ∧
      (regionNum s (ofTwoWords lo hi) ∈ [8, 9, 16, 17, 32] → ∀ i, i < n → ws.getD i 0 = readWord s (ofTwoWords lo hi + 4 * i)) := by
  have hbody := (bodyMemRead_reads (s := begun s tag) (tag := tag) h1 hn hal ((insideRegion_begun ..).trans hin)
    ((readable_begun _).trans hread) hlp).trans (if_neg (ne_true_of_eq_false ((lpWaits_begun ..).trans hwait)))
  obtain ⟨m, hnote⟩ := lpNote_same (begun s tag) (ofTwoWords lo hi)
  rw [hnote] at hbody
  have hwords := hostRead_words n (ofTwoWords lo hi) { begun s tag with mem := { s.mem with lpMost := m } }
  have hclean := hostRead_clean n (ofTwoWords lo hi) { begun s tag with mem := { s.mem with lpMost := m } }
  obtain ⟨P, mk, er, ce, q, hstep⟩ := read_hostRead n (ofTwoWords lo hi) { begun s tag with mem := { s.mem with lpMost := m } }
  have hbody' : bodyMemRead tag [lo, hi, wrd n] (begun s tag) =
      memDelivered (hostRead n (ofTwoWords lo hi) { begun s tag with mem := { s.mem with lpMost := m } }) := hbody
  generalize hostRead n (ofTwoWords lo hi) { begun s tag with mem := { s.mem with lpMost := m } } = r at *
  obtain ⟨u, l⟩ := r
  subst hstep
  have hlen : l.length = n := by simpa using congrArg List.length hwords
  obtain ⟨t, ht, hreply, f, rfl⟩ := completes h hbody' rfl rfl
  refine ⟨_, _, _, congrArg Host.Outcome.next ht, hreply, marksStatus_mem _, ?_, rfl, rfl, fun hnone => ?_, fun hplain i hi => ?_⟩
  · simp only [List.length_append, List.length_map, bitmapWords_length, hlen]
    omega
  · rw [hclean fun i hi => clean_congr rfl rfl rfl (hnone i hi)]
    exact marksStatus_clean n
  · refine (first_getD l _ _ _ hwords hi).trans ?_
    exact plain_word (s := { begun s tag with mem := { s.mem with lpMost := m } })
      ((insideRegion_congr (s := s) (t := { begun s tag with mem := { s.mem with lpMost := m } }) rfl ..).trans hin)
      (by rwa [regionNum_congr (s := s) (t := { begun s tag with mem := { s.mem with lpMost := m } }) rfl]) hi

end MemRead

/-! MEM_WRITE. -/

section MemWrite
variable {lo hi : Word} {ws : List Word} (hws : ws ≠ []) (hal : ofTwoWords lo hi % 4 = 0)
  (hmap : rangeMapped s (ofTwoWords lo hi) ws.length = true) (hdeny : rangeDenied s (ofTwoWords lo hi) ws.length = false)
  (harmed : touchesArmed s 4 (ofTwoWords lo hi) (4 * ws.length) = false)
  (hmirror : touchesMirror s (ofTwoWords lo hi) (4 * ws.length) = false)
  (hlp : hasLp s.part = true → s.mem.lpOnline = false → ∀ i, i < ws.length → namesLp (ofTwoWords lo hi + 4 * i) = false)
include hws hal hmap hdeny harmed hmirror hlp

/-- MEM_WRITE whose checks pass waits for LPDDR5 or stores its words. -/
theorem bodyMemWrite_stores : bodyMemWrite tag (lo :: hi :: ws) s =
    if lpWaits s (ofTwoWords lo hi) ws.length true then
      .wait { s with mem := { s.mem with lpWait := s.mem.lpWait ++ [(tag, true, lo :: hi :: ws)] } }
    else .done stOk [] (storeRange (ofTwoWords lo hi) ws (lpNote s (ofTwoWords lo hi))) := by
  have hoff : (hasLp s.part && !s.mem.lpOnline && ((List.range ws.length).any fun i => namesLp (ofTwoWords lo hi + 4 * i))) = false := by
    cases hh : hasLp s.part <;> cases hm : s.mem.lpOnline <;> simp
    exact hlp hh hm
  have hdenied : (rangeDenied s (ofTwoWords lo hi) ws.length || touchesArmed s 4 (ofTwoWords lo hi) (4 * ws.length) ||
      touchesMirror s (ofTwoWords lo hi) (4 * ws.length)) = false := by rw [hdeny, harmed, hmirror]; rfl
  have hbad : (decide (ws.length = 0) || decide (ofTwoWords lo hi % 4 ≠ 0) || !rangeMapped s (ofTwoWords lo hi) ws.length) = false := by
    rw [hmap]
    simp [hws, hal]
  exact checked3 hoff hdenied hbad

theorem bodyMemWrite_begun : bodyMemWrite tag (lo :: hi :: ws) (begun s tag) =
    if lpWaits s (ofTwoWords lo hi) ws.length true then
      .wait { begun s tag with mem := { s.mem with lpWait := s.mem.lpWait ++ [(tag, true, lo :: hi :: ws)] } }
    else .done stOk [] (storeRange (ofTwoWords lo hi) ws (lpNote (begun s tag) (ofTwoWords lo hi))) := by
  have h := bodyMemWrite_stores (s := begun s tag) (tag := tag) hws hal ((rangeMapped_begun ..).trans hmap)
    ((rangeDenied_begun ..).trans hdeny) ((touchesArmed_begun ..).trans harmed) ((touchesMirror_begun ..).trans hmirror) hlp
  rwa [lpWaits_begun] at h

theorem memWrite_waits (h : Starts s tag 0x71 (lo :: hi :: ws)) (hwait : lpWaits s (ofTwoWords lo hi) ws.length true = true) :
    ∃ t, exec (.memWrite tag) s = .next t ∧ Waiting s t tag ∧
      t = { s with folio := t.folio, mem := { s.mem with lpWait := s.mem.lpWait ++ [(tag, true, lo :: hi :: ws)] } } := by
  have hbody := (bodyMemWrite_begun (tag := tag) hws hal hmap hdeny harmed hmirror hlp).trans (if_pos hwait)
  obtain ⟨ht, hw⟩ := waits h hbody rfl rfl
  exact ⟨_, congrArg Host.Outcome.next ht, hw, rfl⟩

theorem memWrite_stores (h : Starts s tag 0x71 (lo :: hi :: ws)) (hwait : lpWaits s (ofTwoWords lo hi) ws.length true = false) :
    ∃ t, exec (.memWrite tag) s = .next t ∧ Replied s t tag 0 [] ∧
      (∀ b, b < ofTwoWords lo hi ∨ ofTwoWords lo hi + 4 * ws.length ≤ b → readByte t b = readByte s b) ∧ t.nv = s.nv ∧
      ((∀ i, i < ws.length → memOf (ofTwoWords lo hi + 4 * i) ≠ 2 ∨
          (blockWritten s (lpBlock (ofTwoWords lo hi + 4 * i)) = true ∧ blockFilling s (lpBlock (ofTwoWords lo hi + 4 * i)) = false)) →
        ∀ i, i < ws.length → readWord t (ofTwoWords lo hi + 4 * i) = ws.getD i 0) := by
  have hbody := (bodyMemWrite_begun (tag := tag) hws hal hmap hdeny harmed hmirror hlp).trans (if_neg (ne_true_of_eq_false hwait))
  obtain ⟨m, hnote⟩ := lpNote_same (begun s tag) (ofTwoWords lo hi)
  rw [hnote] at hbody
  obtain ⟨⟨P, M, q, hstep, _⟩, hout, hback⟩ := storeRange_step ws (ofTwoWords lo hi) { begun s tag with mem := { s.mem with lpMost := m } }
  have hbody' : bodyMemWrite tag (lo :: hi :: ws) (begun s tag) =
      .done stOk [] (storeRange (ofTwoWords lo hi) ws { begun s tag with mem := { s.mem with lpMost := m } }) := hbody
  generalize storeRange (ofTwoWords lo hi) ws { begun s tag with mem := { s.mem with lpMost := m } } = u at *
  subst hstep
  obtain ⟨t, ht, hreply, f, rfl⟩ := completes h hbody' rfl rfl
  exact ⟨_, congrArg Host.Outcome.next ht, hreply, fun b hb => hout b hb, rfl, fun hl i hi => hback hl i hi⟩

end MemWrite

/-! CAPTURE_ARM. -/

/-- The stores of the records that wait in capture buffer `b`: memory, its parameters and events, and the buffer itself. -/
def Landed (b : Nat) (s t : State) : Prop := ∃ P M q, t = { s with par := P, mem := M, book := { s.book with inq := q } } ∧
  ∀ c, c ≠ b → tblGet M.caps {} c = tblGet s.mem.caps {} c

theorem Landed.refl {b : Nat} (s : State) : Landed b s s := ⟨s.par, s.mem, s.book.inq, rfl, fun _ _ => rfl⟩

theorem Landed.trans {b : Nat} {s t u : State} (h : Landed b s t) (k : Landed b t u) : Landed b s u := by
  obtain ⟨P, M, q, rfl, hcaps⟩ := h
  obtain ⟨P', M', q', rfl, hcaps'⟩ := k
  exact ⟨P', M', q', rfl, fun c hc => (hcaps' c hc).trans (hcaps c hc)⟩

theorem landed_updCap (b : Nat) (s : State) (f : Capture → Capture) : Landed b s (s.updCap b f) :=
  ⟨s.par, _, s.book.inq, rfl, fun _ hc => tblGet_write_ne _ _ _ _ hc⟩

theorem landed_captureLand (b : Nat) (r : BitVec 64) (s : State) : Landed b s (captureLand b r s) := by
  obtain ⟨P, M, q, hstep, hcaps⟩ := (storeRange_step (twoWords r.toNat) ((s.cap b).base + (s.cap b).write) s).1
  have hstore : Landed b s (storeRange ((s.cap b).base + (s.cap b).write) (twoWords r.toNat) s) :=
    ⟨P, M, q, hstep, fun c _ => congrArg (fun x => tblGet x {} c) hcaps⟩
  unfold captureLand
  exact hstore.trans (landed_updCap b _ _)

theorem landed_captureFlush (b : Nat) (s : State) : Landed b s (captureFlush b s) := by
  have h : Landed b s (forEach (s.cap b).queue (captureLand b) s) := forEach_rel Landed.refl Landed.trans (landed_captureLand b) _ s
  obtain ⟨P, M, q, hland, hcaps⟩ := h
  unfold captureFlush
  dsimp only
  rw [hland]
  exact ⟨P, _, q, rfl, hcaps⟩

/-- The first word of CAPTURE_ARM that arms buffer `b`. -/
def armWord (mode : Nat) (lp : Bool) (b : Nat) : Nat := 2 ^ 31 + mode * 2 ^ 28 + b2n lp * 2 ^ 24 + b

section ArmWord
variable {b mode : Nat} {lp : Bool} (hb : b < 4) (hmode : mode < 3)
include hb hmode

theorem armWord_reads : field (wrd (armWord mode lp b)) 1 0 = b ∧ field (wrd (armWord mode lp b)) 29 28 = mode ∧
    wbit (wrd (armWord mode lp b)) 31 = true ∧ wbit (wrd (armWord mode lp b)) 24 = lp := by
  have hn := b2n_le lp
  have hlt : armWord mode lp b < 2 ^ 32 := by unfold armWord; omega
  rw [field_wrd hlt, field_wrd hlt, wbit_wrd (by decide), wbit_wrd (by decide), Nat.testBit_eq_decide_div_mod_eq,
    Nat.testBit_eq_decide_div_mod_eq]
  unfold armWord
  refine ⟨by omega, by omega, decide_eq_true (by omega), ?_⟩
  cases lp <;> simp only [b2n] <;> simp <;> omega

theorem armWord_clean : hasBits (wrd (armWord mode lp b)) 0x4EFFFFFC = false := by
  have hmask : ∀ k, k < 32 → wbit 0x4EFFFFFC k = true → 2 ≤ k ∧ k < 24 ∨ 25 ≤ k ∧ k < 28 ∨ k = 30 := by decide
  have hn := b2n_le lp
  have hlow : armWord mode lp b = 2 ^ 24 * (2 ^ 7 + mode * 2 ^ 4 + b2n lp) + b := by unfold armWord; omega
  have hmid : armWord mode lp b = 2 ^ 28 * (2 ^ 3 + mode) + (b2n lp * 2 ^ 24 + b) := by unfold armWord; omega
  refine hasBits_eq_false fun k hk hbit => (wbit_wrd hk).trans ?_
  obtain ⟨h2, h24⟩ | ⟨h25, h28⟩ | rfl := hmask k hk hbit
  · rw [hlow, Nat.testBit_two_pow_mul_add _ (by omega), if_pos h24]
    exact Nat.testBit_lt_two_pow (lt_of_lt_of_le hb (Nat.pow_le_pow_right (by decide) h2 : 2 ^ 2 ≤ 2 ^ k))
  · rw [hmid, Nat.testBit_two_pow_mul_add _ (by omega), if_pos h28]
    exact Nat.testBit_lt_two_pow (lt_of_lt_of_le (by omega) (Nat.pow_le_pow_right (by decide) h25 : 2 ^ 25 ≤ 2 ^ k))
  · rw [Nat.testBit_eq_decide_div_mod_eq]
    unfold armWord
    exact decide_eq_false (by omega)

end ArmWord

/-- A capture buffer armed with the fields of its command. -/
def armedCap (lp : Bool) (mode : Nat) (lo hi size post m0 m1 : Word) (now : Nat) : Capture :=
  { armed := true, lp := lp, mode := mode, base := ofTwoWords lo hi, size := size.toNat, post := post.toNat, mask := ofTwoWords m0 m1,
    armTick := now }

section Arm
variable {b mode : Nat} {lp : Bool} {lo hi size post m0 m1 : Word}

theorem bodyCaptureArm_arms (hb : b < 4) (hmode : mode < 3) (hidle : (s.cap b).armed = false)
    (hlp : lp = true → hasLp s.part = true ∧ s.mem.lpOnline = true) (hal : ofTwoWords lo hi % 4096 = 0) (hsize : size ≠ 0)
    (hpost : post.toNat ≤ 512 * size.toNat) (hmask : ofTwoWords m0 m1 ≠ 0) (hlow : (if lp then lpBase else 0x4A0000) ≤ ofTwoWords lo hi)
    (hhigh : ofTwoWords lo hi + size.toNat * 4096 ≤ (if lp then lpBase + lpUsable s else 0x8A0000))
    (harmed : touchesArmed s b (ofTwoWords lo hi) (size.toNat * 4096) = false)
    (hmirror : touchesMirror s (ofTwoWords lo hi) (size.toNat * 4096) = false) :
    bodyCaptureArm [wrd (armWord mode lp b), lo, hi, size, post, m0, m1] s =
      .done stOk (twoWords s.now) ((captureFlush b s).updCap b fun _ => armedCap lp mode lo hi size post m0 m1 s.now) := by
  obtain ⟨hnum, hkind, harm, hside⟩ := armWord_reads (lp := lp) hb hmode
  have hclean := armWord_clean (lp := lp) hb hmode
  have hsize' : size.toNat ≠ 0 := fun h => hsize (BitVec.eq_of_toNat_eq h)
  have hstate : (true && ((s.cap b).armed || (lp && hasLp s.part && !s.mem.lpOnline))) = false := by
    rw [hidle]
    cases hside : lp with
    | false => rfl
    | true => rw [(hlp hside).2]; simp
  have hform : (hasBits (wrd (armWord mode lp b)) 0x4EFFFFFC || decide (mode = 3)) = false := by
    rw [hclean]
    exact decide_eq_false (by omega)
  have hpart : (lp && !hasLp s.part) = false := by
    cases hside : lp with
    | false => rfl
    | true => rw [(hlp hside).1]; rfl
  have hbad : (true && (decide (ofTwoWords lo hi % 4096 ≠ 0) || decide (size.toNat = 0) || decide (512 * size.toNat < post.toNat) ||
      decide (ofTwoWords m0 m1 = 0) || (lp && !hasLp s.part) || decide (ofTwoWords lo hi < if lp then lpBase else 0x4A0000) ||
      decide ((if lp then lpBase + lpUsable s else 0x8A0000) < ofTwoWords lo hi + size.toNat * 4096) ||
      touchesArmed s b (ofTwoWords lo hi) (size.toNat * 4096) || touchesMirror s (ofTwoWords lo hi) (size.toNat * 4096))) = false := by
    rw [harmed, hmirror, hpart, hal, decide_eq_false hsize', decide_eq_false (Nat.not_lt.2 hpost), decide_eq_false hmask,
      decide_eq_false (Nat.not_lt.2 hlow), decide_eq_false (Nat.not_lt.2 hhigh)]
    rfl
  unfold bodyCaptureArm
  simp only [pw, List.getD_cons_zero, List.getD_cons_succ, hnum, hkind, harm, hside]
  exact (checked3 hstate hform hbad).trans (if_pos trivial)

/-- Arming a buffer takes the records that wait in it to memory. -/
theorem captureArm_arms (hb : b < 4) (hmode : mode < 3) (h : Starts s tag 0x72 [wrd (armWord mode lp b), lo, hi, size, post, m0, m1])
    (hidle : (s.cap b).armed = false)
    (hlp : lp = true → hasLp s.part = true ∧ s.mem.lpOnline = true) (hal : ofTwoWords lo hi % 4096 = 0) (hsize : size ≠ 0)
    (hpost : post.toNat ≤ 512 * size.toNat) (hmask : ofTwoWords m0 m1 ≠ 0) (hlow : (if lp then lpBase else 0x4A0000) ≤ ofTwoWords lo hi)
    (hhigh : ofTwoWords lo hi + size.toNat * 4096 ≤ (if lp then lpBase + lpUsable s else 0x8A0000))
    (harmed : touchesArmed s b (ofTwoWords lo hi) (size.toNat * 4096) = false)
    (hmirror : touchesMirror s (ofTwoWords lo hi) (size.toNat * 4096) = false) : ∃ t, exec (.captureArm tag) s = .next t ∧
      Replied s t tag 0 (twoWords s.now) ∧ t.cap b = armedCap lp mode lo hi size post m0 m1 s.now ∧
      (∀ c, c ≠ b → c < 4 → t.cap c = s.cap c) ∧ t.nv = s.nv ∧ ((s.cap b).queue = [] → t.mem.cells = s.mem.cells) := by
  have hbody := bodyCaptureArm_arms (s := begun s tag) hb hmode hidle hlp hal hsize hpost hmask hlow hhigh
    ((touchesArmed_begun ..).trans harmed) ((touchesMirror_begun ..).trans hmirror)
  have hempty : (s.cap b).queue = [] → (captureFlush b (begun s tag)).mem.cells = s.mem.cells := fun hq => by
    have hq' : ((begun s tag).cap b).queue = [] := hq
    unfold captureFlush
    rw [hq']
    rfl
  obtain ⟨P, M, q, hland, hcaps⟩ := landed_captureFlush b (begun s tag)
  generalize captureFlush b (begun s tag) = u at *
  subst hland
  obtain ⟨t, ht, hreply, f, rfl⟩ := completes h hbody rfl rfl
  exact ⟨_, congrArg Host.Outcome.next ht, hreply, tblGet_write_self M.caps {} (armedCap lp mode lo hi size post m0 m1 s.now) b,
    fun c hc _ => (tblGet_write_ne M.caps {} {} (armedCap lp mode lo hi size post m0 m1 s.now) hc).trans (hcaps c hc), rfl, hempty⟩

theorem bodyCaptureArm_stops {ws : List Word} (hb : b < 4) (s : State) : bodyCaptureArm (wrd b :: ws) s =
    .done stOk (twoWords (s.cap b).armTick) (captureEnd b s) := by
  have hcodes : ∀ b, b < 4 → field (wrd b) 1 0 = b ∧ field (wrd b) 29 28 = 0 ∧ wbit (wrd b) 31 = false ∧
      hasBits (wrd b) 0x4EFFFFFC = false := by decide
  obtain ⟨hnum, hkind, harm, hclean⟩ := hcodes b hb
  unfold bodyCaptureArm
  simp only [pw, List.getD_cons_zero, hnum, hkind, harm, hclean]
  exact (checked3 rfl rfl rfl).trans (if_neg (by decide))

/-- The end of a capture stops its buffer and tells of it. -/
theorem captureEnd_ends (s : State) (hop : s.op ≠ .shutdown) : ∃ C q, captureEnd b s =
      { s with mem := { s.mem with caps := C }, book := { s.book with inq := q } } ∧
    (tblGet C {} b).armed = false ∧ (∀ c, c ≠ b → tblGet C {} c = s.cap c) ∧
    ((s.cap b).armed = true → (tblGet C {} b).stopTick = s.now ∧ mkEvent s 0x0A07 b [] ∈ q) := by
  cases harmed : (s.cap b).armed with
  | false =>
    exact ⟨s.mem.caps, s.book.inq, if_pos (by rw [harmed]; rfl), harmed, fun _ _ => rfl, fun h => absurd h Bool.false_ne_true⟩
  | true =>
    have hend : captureEnd b s = recordUntested (s.updCap b fun c => { c with armed := false, stopped := true, stopTick := s.now }) 0x0A07 b [] :=
      if_neg (by rw [harmed]; decide)
    have htest : ¬ underTest (s.updCap b fun c => { c with armed := false, stopped := true, stopTick := s.now }) (0x0A07 / 256) = true := by
      unfold underTest
      simp [hop]
    rw [hend, recordUntested, if_neg htest, record_quiet (by decide) rfl (by decide)]
    refine ⟨_, _, rfl, ?_, fun c hc => tblGet_write_ne s.mem.caps {} {} _ hc, fun _ => ⟨?_, mem_evInsert.2 (.inl rfl)⟩⟩
    · exact congrArg Capture.armed (tblGet_write_self s.mem.caps {} _ b)
    · exact congrArg Capture.stopTick (tblGet_write_self s.mem.caps {} _ b)

theorem captureArm_stops {ws : List Word} (hb : b < 4) (h : Starts s tag 0x72 (wrd b :: ws)) : ∃ t, exec (.captureArm tag) s = .next t ∧
    Replied s t tag 0 (twoWords (s.cap b).armTick) ∧ (t.cap b).armed = false ∧
    ((s.cap b).armed = true → (t.cap b).stopTick = s.now ∧ Raised s t 0x0A07 b []) ∧ (∀ c, c ≠ b → t.cap c = s.cap c) ∧
    t = { s with folio := t.folio, mem := { s.mem with caps := t.mem.caps }, book := { s.book with inq := t.book.inq } } := by
  have hbody := bodyCaptureArm_stops (ws := ws) hb (begun s tag)
  have hop : (begun s tag).op ≠ .shutdown := fun hs => absurd (h.shutdown hs) (by decide)
  obtain ⟨C, q, hend, harmed, hothers, hraised⟩ := captureEnd_ends (b := b) (begun s tag) hop
  rw [hend] at hbody
  obtain ⟨t, ht, hreply, f, rfl⟩ := completes h hbody rfl rfl
  exact ⟨_, congrArg Host.Outcome.next ht, hreply, harmed, hraised, hothers, rfl⟩

end Arm

/-! SCRUB_STATUS. -/

theorem scrubStatus_reads (h : Starts s tag 0x73 []) : ∃ t ws, exec (.scrubStatus tag) s = .next t ∧ Replied s t tag 0 ws ∧ ws.length = 12 ∧
    (∀ i, i < 12 → ws.getD i 0 = if 8 ≤ i ∧ s.part = .itc8104 then 0xFFFFFFFF else parGet s 10 (0x10 + i)) ∧
    t = { s with folio := t.folio } := by
  have hbody : bodyScrubStatus [] (begun s tag) = .done stOk ((List.range 12).map fun i =>
      if 8 ≤ i ∧ !hasLp s.part then 0xFFFFFFFF else parGet s 10 (0x10 + i)) (begun s tag) := rfl
  have hpart : (!hasLp s.part) = true ↔ s.part = .itc8104 := by cases s.part <;> decide
  obtain ⟨t, ht, hreply, f, rfl⟩ := completes h hbody rfl rfl
  refine ⟨_, _, congrArg Host.Outcome.next ht, hreply, by simp, fun i hi => ?_, rfl⟩
  rw [List.getD_eq_getElem?_getD, List.getElem?_map, List.getElem?_range hi]
  simp only [Option.map_some, Option.getD_some, hpart]

/-- Settles O45: reads and stores of memory, capture buffers and the scrubber's counters. -/
theorem memoryCommands : Obligations.MemoryCommands := by
  unfold Obligations.MemoryCommands
  intro s tag
  refine ⟨fun lo hi n h h1 hn hal hin hread hlp => ⟨memRead_waits h1 hn hal hin hread hlp h, memRead_delivers h1 hn hal hin hread hlp h⟩,
    fun lo hi ws h hws hal hmap hdeny harmed hmirror hlp => ⟨memWrite_waits hws hal hmap hdeny harmed hmirror hlp h,
      memWrite_stores hws hal hmap hdeny harmed hmirror hlp h⟩,
    fun b lp mode lo hi size post m0 m1 hb hmode h hidle hlp hal hsize hpost hmask hlow hhigh harmed hmirror =>
      captureArm_arms hb hmode h hidle hlp hal hsize hpost hmask hlow hhigh harmed hmirror,
    fun b ws hb _ h => captureArm_stops hb h, fun h => scrubStatus_reads h⟩

end Sys2Proof.Proofs
end

section
/-!
PROOFS. O60: the housekeeping round (R465 to R470) and the supply monitors (R475). The round runs over its channels and over the four
thresholds; each pass leaves the other channels and thresholds alone, so that of one of them the loop is its own pass between two
stretches that do not touch it (`forUpTo_split`).
-/
namespace Sys2Proof.Proofs
open Sys2Proof.Machine Sys2Proof.Safety Sys2Proof.Laws

variable {s : State}

/-- What every part of a round leaves: the clock, the power state, memory, and the parameters but HK_RANGE_SEEN and those of events. -/
structure Rounded (s t : State) : Prop where
  part : t.part = s.part
  now : t.now = s.now
  tim : t.tim = s.tim
  pwr : t.pwr = s.pwr
  cells : t.mem.cells = s.mem.cells
  par : ∀ u i, i < 65536 → u ≠ 1 → u ≠ 10 → ¬(u = 14 ∧ i = 6) → parGet t u i = parGet s u i
  grow : ∀ e ∈ s.book.inq, e.code ≠ 0x0902 → e ∈ t.book.inq

namespace Rounded

theorem refl (s : State) : Rounded s s := ⟨rfl, rfl, rfl, rfl, rfl, fun _ _ _ _ _ _ => rfl, fun _ h _ => h⟩

theorem trans {s t u : State} (h : Rounded s t) (k : Rounded t u) : Rounded s u :=
  ⟨k.part.trans h.part, k.now.trans h.now, k.tim.trans h.tim, k.pwr.trans h.pwr, k.cells.trans h.cells,
    fun v i hi h1 h10 h6 => (k.par v i hi h1 h10 h6).trans (h.par v i hi h1 h10 h6), fun e he hc => k.grow e (h.grow e he hc) hc⟩

theorem of_evStep {t : State} (h : EvStep s t) : Rounded s t :=
  ⟨h.part, h.now, h.tim, h.pwr, h.mem_cells, fun _ _ hi h1 h10 _ => parGet_of_evStep h hi h1 h10, h.grow⟩

theorem updTherm (s : State) (f : Thermal → Thermal) : Rounded s (updTherm s f) := ⟨rfl, rfl, rfl, rfl, rfl, fun _ _ _ _ _ _ => rfl, fun _ h _ => h⟩

theorem seen (s : State) (m : Word) : Rounded s (parOr s 14 6 m) :=
  ⟨rfl, rfl, rfl, rfl, rfl, fun _ _ hi _ _ h6 => parGet_parSet_ne (by decide) hi h6 _, fun _ h _ => h⟩

/-- An event stays raised. -/
theorem raised {t u : State} {code idx : Nat} {args : List Word} (h : Rounded s t) (hr : Raised t u code idx args) :
    Raised s u code idx args := raised_of hr h.now (congrArg Timing.timeValid h.tim)

end Rounded

/-- An event of the round is raised, or held until wake. -/
theorem thermEvent_rounds (s : State) {code : Nat} (idx : Nat) (args : List Word) (hc : code ≠ 0x0902) :
    Rounded s (thermEvent s code idx args) ∧ (∃ H, (thermEvent s code idx args).therm = { s.therm with held := H }) ∧
    (s.pwr.sleep = .awake → Raised s (thermEvent s code idx args) code idx args) := by
  unfold thermEvent
  split
  case isTrue hs => exact ⟨.updTherm .., ⟨_, rfl⟩, fun h => by rw [h] at hs; simp at hs⟩
  case isFalse _ =>
    have hev : EvStep s (raise s code idx args) := ev_raise (.refl s)
    exact ⟨.of_evStep hev, ⟨s.therm.held, hev.therm⟩, fun _ => raise_raises s hc idx args⟩

/-! The channels. -/

/-- A stretch of the channels of a round. -/
structure HkRound (s t : State) : Prop where
  rounded : Rounded s t
  therm : ∃ C O H, t.therm = { s.therm with codes := C, out := O, held := H }

theorem HkRound.refl (s : State) : HkRound s s := ⟨.refl s, ⟨_, _, _, rfl⟩⟩

theorem HkRound.trans {s t u : State} (h : HkRound s t) (k : HkRound t u) : HkRound s u := by
  obtain ⟨C, O, H, ht⟩ := h.therm
  obtain ⟨C', O', H', hu⟩ := k.therm
  exact ⟨h.rounded.trans k.rounded, ⟨C', O', H', by rw [hu, ht]⟩⟩

/-- A stretch of the channels that does not touch channel `c`. -/
structure HkAside (c : Nat) (s t : State) : Prop where
  round : HkRound s t
  code : tblGet t.therm.codes 0 c = tblGet s.therm.codes 0 c
  out : tblGet t.therm.out false c = tblGet s.therm.out false c

theorem HkAside.refl {c : Nat} (s : State) : HkAside c s s := ⟨.refl s, rfl, rfl⟩

theorem HkAside.trans {c : Nat} {s t u : State} (h : HkAside c s t) (k : HkAside c t u) : HkAside c s u :=
  ⟨h.round.trans k.round, k.code.trans h.code, k.out.trans h.out⟩

/-- The code a channel publishes. -/
def hkCode (codes : List Nat) (k : Nat) : Nat := if 13 ≤ k ∧ k ≤ 15 then 0 else codes.getD k 0 % 4096

/-- Whether the code of channel `k` lies outside its window. -/
def hkOut (codes : List Nat) (s : State) (k : Nat) : Bool :=
  decide (hkCode codes k < parField s 14 (0x200 + k) 11 0) || decide (parField s 14 (0x200 + k) 27 16 < hkCode codes k)

/-- Channel `k` with its code and result, before its event. -/
def hkPublished (codes : List Nat) (bad : Bool) (k : Nat) (s : State) : State :=
  let s1 := updTherm s fun t => { t with codes := tblSet t.codes 0 k (hkCode codes k), out := tblSet t.out false k (hkOut codes s k) }
  let s2 := if k = 0 then updTherm s1 fun t => { t with out := tblSet t.out false 32 bad } else s1
  if hkOut codes s k || (decide (k = 0) && bad) then parOr s2 14 6 (wrd (2 ^ k)) else s2

theorem hkChannel_eq (codes : List Nat) (bad : Bool) (k : Nat) (s : State) (hp : hkPresent s k = true) : hkChannel codes bad k s =
    if (hkOut codes s k && !tblGet s.therm.out false k) || (decide (k = 0) && bad && !tblGet s.therm.out false 32) then
      thermEvent (hkPublished codes bad k s) 0x0E04 k [wrd (hkCode codes k)]
    else hkPublished codes bad k s :=
  if_neg (by rw [hp]; decide)

/-- The results of the windows with that of channel `k`, and of Tj with channel 0. -/
def hkResults (codes : List Nat) (bad : Bool) (k : Nat) (s : State) : Tbl Bool :=
  if k = 0 then tblSet (tblSet s.therm.out false k (hkOut codes s k)) false 32 bad else tblSet s.therm.out false k (hkOut codes s k)

theorem hkPublished_publishes (codes : List Nat) (bad : Bool) (k : Nat) (s : State) : Rounded s (hkPublished codes bad k s) ∧
    (hkPublished codes bad k s).therm =
      { s.therm with codes := tblSet s.therm.codes 0 k (hkCode codes k), out := hkResults codes bad k s } := by
  unfold hkPublished hkResults
  extract_lets s1 s2
  have hs2 : Rounded s s2 ∧ s2.therm = { s.therm with
      codes := tblSet s.therm.codes 0 k (hkCode codes k),
      out := if k = 0 then tblSet (tblSet s.therm.out false k (hkOut codes s k)) false 32 bad else tblSet s.therm.out false k (hkOut codes s k) } := by
    by_cases hk : k = 0
    · have h2 : s2 = updTherm s1 fun t => { t with out := tblSet t.out false 32 bad } := if_pos hk
      rw [h2, if_pos hk]
      exact ⟨(Rounded.updTherm ..).trans (.updTherm ..), rfl⟩
    · have h2 : s2 = s1 := if_neg hk
      rw [h2, if_neg hk]
      exact ⟨.updTherm .., rfl⟩
  split
  · exact ⟨hs2.1.trans (.seen ..), hs2.2⟩
  · exact hs2

theorem hkResults_other {codes : List Nat} {bad : Bool} {k c : Nat} (h32 : c < 32) (hc : c ≠ k) (s : State) :
    tblGet (hkResults codes bad k s) false c = tblGet s.therm.out false c := by
  unfold hkResults
  split
  · rw [tblGet_write_ne _ _ _ _ (by omega), tblGet_write_ne _ _ _ _ hc]
  · exact tblGet_write_ne _ _ _ _ hc

theorem hkResults_self (codes : List Nat) (bad : Bool) (k : Nat) (s : State) :
    tblGet (hkResults codes bad k s) false k = hkOut codes s k := by
  unfold hkResults
  split
  · rw [tblGet_write_ne _ _ _ _ (by omega), tblGet_write_self]
  · exact tblGet_write_self ..

/-- What a present channel does: its code, its result, and the event of a result that is new. -/
theorem hkChannel_publishes {codes : List Nat} {bad : Bool} {k : Nat} (hp : hkPresent s k = true) : Rounded s (hkChannel codes bad k s) ∧
    (∃ H, (hkChannel codes bad k s).therm =
      { s.therm with codes := tblSet s.therm.codes 0 k (hkCode codes k), out := hkResults codes bad k s, held := H }) ∧
    (s.pwr.sleep = .awake → hkOut codes s k = true → tblGet s.therm.out false k = false →
      Raised s (hkChannel codes bad k s) 0x0E04 k [wrd (hkCode codes k)]) := by
  obtain ⟨hround, htherm⟩ := hkPublished_publishes codes bad k s
  rw [hkChannel_eq codes bad k s hp]
  split
  case isTrue _ =>
    obtain ⟨hevent, ⟨H, hH⟩, hraise⟩ := thermEvent_rounds (hkPublished codes bad k s) k [wrd (hkCode codes k)] (code := 0x0E04) (by decide)
    exact ⟨hround.trans hevent, ⟨H, by rw [hH, htherm]⟩, fun hawake _ _ => hround.raised (hraise (by rw [hround.pwr]; exact hawake))⟩
  case isFalse hquiet =>
    exact ⟨hround, ⟨s.therm.held, htherm⟩, fun _ hout hwas => absurd (by rw [hout, hwas]; rfl) hquiet⟩

theorem hkChannel_absent {codes : List Nat} {bad : Bool} {k : Nat} (hp : ¬ hkPresent s k = true) : hkChannel codes bad k s = s :=
  if_pos (by simpa using hp)

theorem hkChannel_round (codes : List Nat) (bad : Bool) (k : Nat) (s : State) : HkRound s (hkChannel codes bad k s) := by
  by_cases hp : hkPresent s k = true
  · obtain ⟨hround, ⟨H, htherm⟩, _⟩ := hkChannel_publishes (codes := codes) (bad := bad) hp
    exact ⟨hround, ⟨_, _, _, htherm⟩⟩
  · rw [hkChannel_absent hp]
    exact .refl s

theorem hkChannel_aside {codes : List Nat} {bad : Bool} {k c : Nat} (h32 : c < 32) (hk : k ≠ c) (s : State) :
    HkAside c s (hkChannel codes bad k s) := by
  refine ⟨hkChannel_round codes bad k s, ?_, ?_⟩ <;> by_cases hp : hkPresent s k = true
  · obtain ⟨_, ⟨H, htherm⟩, _⟩ := hkChannel_publishes (codes := codes) (bad := bad) hp
    rw [htherm]
    exact tblGet_write_ne _ _ _ _ (Ne.symm hk)
  · rw [hkChannel_absent hp]
  · obtain ⟨_, ⟨H, htherm⟩, _⟩ := hkChannel_publishes (codes := codes) (bad := bad) hp
    rw [htherm]
    exact hkResults_other h32 (Ne.symm hk) s
  · rw [hkChannel_absent hp]

/-- The 32 channels of a round. -/
def hkChannels (codes : List Nat) (bad : Bool) (s : State) : State := forUpTo 32 (hkChannel codes bad) s

theorem hkChannels_round (codes : List Nat) (bad : Bool) (s : State) : HkRound s (hkChannels codes bad s) :=
  forUpTo_rel (R := HkRound) .refl .trans (fun k _ u => hkChannel_round codes bad k u) s

theorem hkOut_of_rounded {codes : List Nat} {k : Nat} {t : State} (hk : k < 32) (h : Rounded s t) : hkOut codes t k = hkOut codes s k := by
  have hword : parGet t 14 (0x200 + k) = parGet s 14 (0x200 + k) := h.par 14 _ (by omega) (by decide) (by decide) (by omega)
  rw [hkOut, hkOut, parField, parField, parField, parField, hword]

/-- What stands of a present channel after the round. -/
theorem hkChannels_publish {codes : List Nat} {bad : Bool} {k : Nat} (hk : k < 32) (hp : hkPresent s k = true) :
    tblGet (hkChannels codes bad s).therm.codes 0 k = hkCode codes k ∧
    tblGet (hkChannels codes bad s).therm.out false k = hkOut codes s k ∧
    (s.pwr.sleep = .awake → hkOut codes s k = true → tblGet s.therm.out false k = false →
      Raised s (hkChannels codes bad s) 0x0E04 k [wrd (hkCode codes k)]) := by
  have hsplit := forUpTo_split (R := HkAside k) .refl .trans (c := k) (f := hkChannel codes bad)
    (fun j hj u => hkChannel_aside hk hj u) 32 s
  rw [if_pos hk] at hsplit
  obtain ⟨u, hbefore, hafter⟩ := hsplit
  have hu : Rounded s u := hbefore.round.rounded
  have hpu : hkPresent u k = true := by unfold hkPresent at hp ⊢; rw [hu.part]; exact hp
  obtain ⟨_, ⟨H, htherm⟩, hraise⟩ := hkChannel_publishes (codes := codes) (bad := bad) hpu
  unfold hkChannels
  refine ⟨hafter.code.trans ?_, hafter.out.trans ?_, fun hawake hout hwas => ?_⟩
  · rw [htherm]; exact tblGet_write_self ..
  · rw [htherm, ← hkOut_of_rounded hk hu]; exact hkResults_self codes bad k u
  · have hnew := hraise (by rw [hu.pwr]; exact hawake) (by rw [hkOut_of_rounded hk hu]; exact hout) (by rw [hbefore.out]; exact hwas)
    have hcode : (mkEvent s 0x0E04 k [wrd (hkCode codes k)]).code ≠ 0x0902 := fun h => absurd (show (0x0E04 : Nat) = 0x0902 from h) (by decide)
    exact hafter.round.rounded.grow _ (hu.raised hnew) hcode

/-! The thresholds. -/

/-- A stretch of the thresholds that leaves bit `c`. -/
structure ThrRound (s t : State) : Prop where
  rounded : Rounded s t
  therm : ∃ n H, t.therm = { s.therm with thr := n, held := H }

theorem ThrRound.refl (s : State) : ThrRound s s := ⟨.refl s, ⟨_, _, rfl⟩⟩

theorem ThrRound.trans {s t u : State} (h : ThrRound s t) (k : ThrRound t u) : ThrRound s u := by
  obtain ⟨n, H, ht⟩ := h.therm
  obtain ⟨n', H', hu⟩ := k.therm
  exact ⟨h.rounded.trans k.rounded, ⟨n', H', by rw [hu, ht]⟩⟩

structure ThrAside (c : Nat) (s t : State) : Prop where
  round : ThrRound s t
  bit : t.therm.thr.testBit c = s.therm.thr.testBit c

theorem ThrAside.refl {c : Nat} (s : State) : ThrAside c s s := ⟨.refl s, rfl⟩

theorem ThrAside.trans {c : Nat} {s t u : State} (h : ThrAside c s t) (k : ThrAside c t u) : ThrAside c s u :=
  ⟨h.round.trans k.round, k.bit.trans h.bit⟩

/-- What a threshold's pass does: its bit follows Tj, and HIGH_LIMIT newly reached is raised. -/
theorem thrStep_steps (tj : Int) (b : Nat) (s : State) : ThrRound s (thrStep tj b s) ∧
    (∀ c, (thrStep tj b s).therm.thr.testBit c = if c = b then thrHolds s tj b (s.therm.thr.testBit b) else s.therm.thr.testBit c) ∧
    (s.pwr.sleep = .awake → b = 3 → thrHolds s tj b (s.therm.thr.testBit b) = true → s.therm.thr.testBit b = false →
      Raised s (thrStep tj b s) 0x0E03 b [wrdI tj]) := by
  unfold thrStep
  extract_lets was on u
  split
  case isTrue hsame =>
    refine ⟨.refl s, fun c => ?_, fun _ _ hon hwas => absurd (hon.symm.trans (hsame.trans hwas)) (by decide)⟩
    split
    case isTrue hc => rw [hc]; exact hsame.symm
    case isFalse _ => rfl
  case isFalse hnew =>
    have hu : ThrRound s u := ⟨.updTherm .., ⟨_, s.therm.held, rfl⟩⟩
    have hbits : ∀ c, u.therm.thr.testBit c = if c = b then on else s.therm.thr.testBit c := fun c => by
      rw [← testBit_putBit]
      congr 1
      change (if on = true then s.therm.thr ||| 2 ^ b else s.therm.thr - 2 ^ b) = putBit s.therm.thr b on
      unfold putBit
      cases hon : on with
      | true => rfl
      | false =>
        have hwas : s.therm.thr.testBit b = true := by simpa [hon] using Ne.symm hnew
        rw [if_pos hwas]
    clear_value u
    split
    case isTrue hon =>
      obtain ⟨hevent, ⟨H, hH⟩, hraise⟩ := thermEvent_rounds u (code := if b = 0 ∨ b = 3 then 0x0E03 else 0x0E02) b [wrdI tj]
        (by split <;> decide)
      refine ⟨hu.trans ⟨hevent, ⟨_, H, hH⟩⟩, fun c => by rw [hH]; exact hbits c, fun hawake hb _ _ => ?_⟩
      rw [if_pos (.inr hb)] at hraise ⊢
      exact hu.rounded.raised (hraise (by rw [hu.rounded.pwr]; exact hawake))
    case isFalse hoff => exact ⟨hu, hbits, fun _ _ hon _ => absurd hon hoff⟩

/-- The four thresholds of a round. -/
def thrSteps (tj : Int) (s : State) : State := forUpTo 4 (thrStep tj) s

theorem thrSteps_round (tj : Int) (s : State) : ThrRound s (thrSteps tj s) :=
  forUpTo_rel (R := ThrRound) .refl .trans (fun k _ u => (thrStep_steps tj k u).1) s

theorem thrHolds_of_rounded {tj : Int} {b : Nat} {was : Bool} {t : State} (h : Rounded s t) : thrHolds t tj b was = thrHolds s tj b was := by
  have hpar : ∀ i, i < 6 → parGet t 14 i = parGet s 14 i := fun i hi => h.par 14 i (by omega) (by decide) (by decide) (by omega)
  rw [thrHolds, thrHolds, parField, parField, hpar 4 (by decide), hpar 2 (by decide), hpar 3 (by decide)]

/-- What stands of a threshold after the round. -/
theorem thrSteps_follow {tj : Int} {b : Nat} (hb : b < 4) :
    (thrSteps tj s).therm.thr.testBit b = thrHolds s tj b (s.therm.thr.testBit b) ∧
    (s.pwr.sleep = .awake → b = 3 → thrHolds s tj b (s.therm.thr.testBit b) = true → s.therm.thr.testBit b = false →
      Raised s (thrSteps tj s) 0x0E03 b [wrdI tj]) := by
  have hsplit := forUpTo_split (R := ThrAside b) .refl .trans (c := b) (f := thrStep tj)
    (fun j hj u => ⟨(thrStep_steps tj j u).1, ((thrStep_steps tj j u).2.1 b).trans (if_neg (Ne.symm hj))⟩) 4 s
  rw [if_pos hb] at hsplit
  obtain ⟨u, hbefore, hafter⟩ := hsplit
  have hu : Rounded s u := hbefore.round.rounded
  obtain ⟨_, hbits, hraise⟩ := thrStep_steps tj b u
  have hholds : thrHolds u tj b (u.therm.thr.testBit b) = thrHolds s tj b (s.therm.thr.testBit b) := by
    rw [hbefore.bit]; exact thrHolds_of_rounded hu
  refine ⟨(hafter.bit.trans (hbits b)).trans ((if_pos rfl).trans hholds), fun hawake h3 hon hwas => ?_⟩
  have hnew := hraise (by rw [hu.pwr]; exact hawake) h3 (hholds.trans hon) (hbefore.bit.trans hwas)
  have hcode : (mkEvent s 0x0E03 b [wrdI tj]).code ≠ 0x0902 := fun h => absurd (show (0x0E03 : Nat) = 0x0902 from h) (by decide)
  exact hafter.round.rounded.grow _ (hu.raised hnew) hcode

/-! The round. -/

/-- Whether a reading is out of range (R467). -/
def tjBad (r : Int) : Bool := decide (r < -110) || decide (350 < r)

/-- The reading that counts: one out of range is the highest. -/
def hkTj (r : Int) : Int := if tjBad r then 350 else r

/-- The channels of a round, counted. -/
def hkCounted (codes : List Nat) (r : Int) (s : State) : State := hkChannels codes (tjBad r) (parWrap s 14 5)

/-- The round up to its thresholds. -/
def hkMeasured (codes : List Nat) (r : Int) (s : State) : State :=
  updTherm (hkCounted codes r s) fun x => { x with tjValid := !tjBad r, tj := hkTj r, hi := max x.hi (hkTj r), lo := min x.lo (hkTj r) }

/-- The round up to its band. -/
def hkLimited (codes : List Nat) (r : Int) (s : State) : State := thrSteps (hkTj r) (hkMeasured codes r s)

/-- The band that a reading leads to. -/
def hkBand (x : Int) (s : State) : Nat := bandOf 8 (!s.therm.published) x s.therm.band

/-- The round with its band, before the event of a new one. -/
def hkBanded (codes : List Nat) (r : Int) (s : State) : State :=
  updTherm (hkLimited codes r s) fun x => { x with published := true, band := hkBand (hkTj r) (hkLimited codes r s) }

theorem hkRoundEnd_runs (codes : List Nat) (r : Int) (h : s.pwr.resetting ≠ some .powerOn) : exec (.hkRoundEnd codes r) s = .next
    (if hkBand (hkTj r) (hkLimited codes r s) = (hkLimited codes r s).therm.band then hkBanded codes r s
    else thermEvent (hkBanded codes r s) 0x0E01 0 [wrd (hkBand (hkTj r) (hkLimited codes r s))]) :=
  congrArg Host.Outcome.next (if_neg h)

/-- What the round ends with. -/
def hkEnded (codes : List Nat) (r : Int) (s : State) : State :=
  if hkBand (hkTj r) (hkLimited codes r s) = (hkLimited codes r s).therm.band then hkBanded codes r s
  else thermEvent (hkBanded codes r s) 0x0E01 0 [wrd (hkBand (hkTj r) (hkLimited codes r s))]

section Round
variable (codes : List Nat) (r : Int) (s : State)

theorem hkCounted_rounded : HkRound (parWrap s 14 5) (hkCounted codes r s) := hkChannels_round ..

theorem hkMeasured_rounded : Rounded (hkCounted codes r s) (hkMeasured codes r s) := .updTherm ..

theorem hkLimited_rounded : ThrRound (hkMeasured codes r s) (hkLimited codes r s) := thrSteps_round ..

theorem hkEnded_ends : Rounded (hkBanded codes r s) (hkEnded codes r s) ∧
    (∃ H, (hkEnded codes r s).therm = { (hkBanded codes r s).therm with held := H }) ∧
    ((hkBanded codes r s).pwr.sleep = .awake → hkBand (hkTj r) (hkLimited codes r s) ≠ (hkLimited codes r s).therm.band →
      Raised (hkBanded codes r s) (hkEnded codes r s) 0x0E01 0 [wrd (hkBand (hkTj r) (hkLimited codes r s))]) := by
  unfold hkEnded
  split
  case isTrue h => exact ⟨.refl _, ⟨_, rfl⟩, fun _ hne => absurd h hne⟩
  case isFalse _ =>
    obtain ⟨hround, htherm, hraise⟩ := thermEvent_rounds (hkBanded codes r s) (code := 0x0E01) 0
      [wrd (hkBand (hkTj r) (hkLimited codes r s))] (by decide)
    exact ⟨hround, htherm, fun h _ => hraise h⟩

theorem hkBanded_rounded : Rounded (hkCounted codes r s) (hkBanded codes r s) :=
  ((hkMeasured_rounded codes r s).trans (hkLimited_rounded codes r s).rounded).trans (.updTherm ..)

theorem hkEnded_rounded : Rounded (parWrap s 14 5) (hkEnded codes r s) :=
  ((hkCounted_rounded codes r s).rounded.trans (hkBanded_rounded codes r s)).trans (hkEnded_ends codes r s).1

theorem hkMeasured_therm : ∃ C O H, (hkMeasured codes r s).therm = { s.therm with
      codes := C, out := O, held := H, tjValid := !tjBad r, tj := hkTj r, hi := max s.therm.hi (hkTj r),
      lo := min s.therm.lo (hkTj r) } ∧ C = (hkCounted codes r s).therm.codes ∧ O = (hkCounted codes r s).therm.out := by
  obtain ⟨C, O, H, hcounted⟩ := (hkCounted_rounded codes r s).therm
  refine ⟨C, O, H, ?_, by rw [hcounted], by rw [hcounted]⟩
  unfold hkMeasured updTherm
  dsimp only
  rw [hcounted]
  rfl

theorem parGet_parWrap_ne {u i : Nat} (hi : i < 65536) (hne : ¬(u = 14 ∧ i = 5)) : parGet (parWrap s 14 5) u i = parGet s u i :=
  parGet_parSet_ne (by decide) hi hne _

/-- What stands of a present channel. -/
theorem hkCounted_publishes {k : Nat} (hk : k < 32) (hp : hkPresent s k = true) :
    tblGet (hkCounted codes r s).therm.codes 0 k = hkCode codes k ∧
    tblGet (hkCounted codes r s).therm.out false k = hkOut codes s k ∧
    (s.pwr.sleep = .awake → hkOut codes s k = true → tblGet s.therm.out false k = false →
      Raised (parWrap s 14 5) (hkCounted codes r s) 0x0E04 k [wrd (hkCode codes k)]) := by
  have hwindow : hkOut codes (parWrap s 14 5) k = hkOut codes s k := by
    rw [hkOut, hkOut, parField, parField, parField, parField, parGet_parWrap_ne s (by omega) (by omega)]
  unfold hkCounted
  rw [← hwindow]
  exact hkChannels_publish (s := parWrap s 14 5) hk hp

/-- What stands of a threshold. -/
theorem hkLimited_follows {b : Nat} (hb : b < 4) :
    (hkLimited codes r s).therm.thr.testBit b = thrHolds s (hkTj r) b (s.therm.thr.testBit b) ∧
    (s.pwr.sleep = .awake → b = 3 → thrHolds s (hkTj r) b (s.therm.thr.testBit b) = true → s.therm.thr.testBit b = false →
      Raised (hkMeasured codes r s) (hkLimited codes r s) 0x0E03 b [wrdI (hkTj r)]) := by
  obtain ⟨C, O, H, htherm, _, _⟩ := hkMeasured_therm codes r s
  have hround := (hkCounted_rounded codes r s).rounded.trans (hkMeasured_rounded codes r s)
  have hthr : (hkMeasured codes r s).therm.thr = s.therm.thr := by rw [htherm]
  have hpwr : (hkMeasured codes r s).pwr = s.pwr := hround.pwr
  have hholds : thrHolds (hkMeasured codes r s) (hkTj r) b (s.therm.thr.testBit b) = thrHolds s (hkTj r) b (s.therm.thr.testBit b) := by
    rw [thrHolds_of_rounded hround, thrHolds, thrHolds, parField, parField, parGet_parWrap_ne s (by decide) (by decide),
      parGet_parWrap_ne s (by decide) (by decide), parGet_parWrap_ne s (by decide) (by decide)]
  have hfollow := thrSteps_follow (s := hkMeasured codes r s) (tj := hkTj r) hb
  rw [hthr, hholds, hpwr] at hfollow
  exact hfollow

/-- Unit 0x0E after the round: the codes and results of the channels, the measured Tj, its thresholds and its band. -/
theorem hkEnded_therm : ∃ C O n H, (hkEnded codes r s).therm = { s.therm with
      codes := C, out := O, tjValid := !tjBad r, tj := hkTj r, hi := max s.therm.hi (hkTj r), lo := min s.therm.lo (hkTj r), thr := n,
      published := true, band := bandOf 8 (!s.therm.published) (hkTj r) s.therm.band, held := H } ∧
    C = (hkCounted codes r s).therm.codes ∧ O = (hkCounted codes r s).therm.out ∧ n = (hkLimited codes r s).therm.thr := by
  obtain ⟨C, O, H, hmeasured, hC, hO⟩ := hkMeasured_therm codes r s
  obtain ⟨n, H', hlimited⟩ := (hkLimited_rounded codes r s).therm
  obtain ⟨H'', hended⟩ := (hkEnded_ends codes r s).2.1
  refine ⟨C, O, n, H'', ?_, hC, hO, by rw [hlimited]⟩
  rw [hended]
  unfold hkBanded updTherm hkBand
  dsimp only
  rw [hlimited, hmeasured]

theorem hkTj_eq : hkTj r = if r < -110 ∨ 350 < r then 350 else r := by
  unfold hkTj tjBad
  simp only [Bool.or_eq_true, decide_eq_true_eq]

theorem tjBad_not : (!tjBad r) = decide (-110 ≤ r ∧ r ≤ 350) := by
  unfold tjBad
  rw [Bool.not_or, ← decide_not, ← decide_not, ← Bool.decide_and]
  exact decide_eq_decide.2 (by omega)

/-- An event of the round is there at its end. -/
theorem hkEnded_raises {u v : State} {code idx : Nat} {args : List Word} (hc : code ≠ 0x0902) (hv : Rounded (parWrap s 14 5) v)
    (h : Raised v u code idx args) (hafter : Rounded u (hkEnded codes r s)) : Raised s (hkEnded codes r s) code idx args := by
  have hold : Raised (parWrap s 14 5) u code idx args := hv.raised h
  exact hafter.grow _ hold hc

end Round

/-! The supply monitors. -/

/-- The bit of channel `ch` in the monitors' record of what was seen. -/
def supplySeen (ch : Nat) (above : Bool) (s : State) : State := updPwr s fun p =>
  if above then { p with highSeen := p.highSeen ||| 2 ^ (ch - 1) } else { p with lowSeen := p.lowSeen ||| 2 ^ (ch - 1) }

theorem supplySeen_eq (ch : Nat) (above : Bool) (s : State) : supplySeen ch above s = { s with pwr := { s.pwr with
    highSeen := if above then s.pwr.highSeen ||| 2 ^ (ch - 1) else s.pwr.highSeen,
    lowSeen := if above then s.pwr.lowSeen else s.pwr.lowSeen ||| 2 ^ (ch - 1) } } := by
  cases above <;> rfl

/-- A fault is held in a boot before the firmware and in sleep, and raised otherwise. -/
theorem supplyMonitor_runs {ch : Nat} (above : Bool) (h1 : 1 ≤ ch) (h5 : ch ≤ 5) (hlp : 3 < ch → hasLp s.part = true)
    (hreset : s.pwr.resetting ≠ some .powerOn) : exec (.supplyMonitorFault ch above) s = .next
      (if (s.op = .boot ∧ s.pwr.bootStep ≠ 6) ∨ isAsleep s = true then
        updPwr (supplySeen ch above s) fun p => { p with supplyBad := p.supplyBad ++ [(ch, above)] }
      else supplyFault ch above (supplySeen ch above s)) := by
  have hgo : ¬(ch = 0 ∨ 5 < ch ∨ (3 < ch ∧ (!hasLp s.part) = true) ∨ s.pwr.resetting = some .powerOn) := by
    rintro (h | h | ⟨h, hn⟩ | h)
    · omega
    · omega
    · rw [hlp h] at hn; cases hn
    · exact hreset h
  have hheld : ((supplySeen ch above s).op = .boot ∧ (supplySeen ch above s).pwr.bootStep ≠ 6) ∨ isAsleep (supplySeen ch above s) = true ↔
      (s.op = .boot ∧ s.pwr.bootStep ≠ 6) ∨ isAsleep s = true := by
    rw [supplySeen_eq]
    exact Iff.rfl
  exact congrArg Host.Outcome.next ((if_neg hgo).trans (if_congr hheld rfl rfl))

theorem supplyMonitor_faults {ch : Nat} (above : Bool) (h1 : 1 ≤ ch) (h5 : ch ≤ 5) (hlp : 3 < ch → hasLp s.part = true)
    (hreset : s.pwr.resetting ≠ some .powerOn) : ∃ t, exec (.supplyMonitorFault ch above) s = .next t ∧
      t.pwr.highSeen = (if above then s.pwr.highSeen ||| 2 ^ (ch - 1) else s.pwr.highSeen) ∧
      t.pwr.lowSeen = (if above then s.pwr.lowSeen else s.pwr.lowSeen ||| 2 ^ (ch - 1)) ∧
      ((s.op = .boot ∧ s.pwr.bootStep ≠ 6) ∨ isAsleep s = true →
        t = { s with pwr := { s.pwr with
          highSeen := t.pwr.highSeen, lowSeen := t.pwr.lowSeen, supplyBad := s.pwr.supplyBad ++ [(ch, above)] } }) ∧
      (s.op ≠ .boot ∨ s.pwr.bootStep = 6 → isAsleep s = false → Raised s t 0x0F03 ch [if above then 2 else 1] ∧
        Reacted { s with pwr := t.pwr } t) := by
  have hexec := supplyMonitor_runs above h1 h5 hlp hreset
  by_cases hheld : (s.op = .boot ∧ s.pwr.bootStep ≠ 6) ∨ isAsleep s = true
  · rw [if_pos hheld, supplySeen_eq] at hexec
    refine ⟨_, hexec, rfl, rfl, fun _ => rfl, fun hop hawake => ?_⟩
    obtain ⟨hboot, hstep⟩ | hsleep := hheld
    · exact absurd hop (by simp [hboot, hstep])
    · exact absurd (hawake.symm.trans hsleep) (by decide)
  · rw [if_neg hheld] at hexec
    have hev : EvStep (supplySeen ch above s) (supplyFault ch above (supplySeen ch above s)) := ev_raise (.refl _)
    have hraised : Raised (supplySeen ch above s) (supplyFault ch above (supplySeen ch above s)) 0x0F03 ch [wrd (if above then 2 else 1)] :=
      raise_raises _ (by decide) ch _
    have hword : wrd (if above then 2 else 1) = if above then 2 else 1 := by cases above <;> rfl
    generalize supplyFault ch above (supplySeen ch above s) = t at *
    rw [supplySeen_eq] at hev hraised
    rw [hword] at hraised
    refine ⟨t, hexec, by rw [hev.pwr], by rw [hev.pwr], fun h => absurd h hheld, fun _ _ => ⟨hraised, ?_⟩⟩
    have hreact := reacted_of_evStep hev
    rw [hev.pwr]
    exact hreact

/-! The statement. -/

/-- A reading inside band 1 leaves it. -/
theorem bandOf_stays {x : Int} (hlow : -20 ≤ x) (hhigh : x < 80) : bandOf 8 (!true) x 1 = 1 := by
  have hup : ¬ bandLow (1 + 1) + 6 ≤ x := by change ¬ (80 : Int) + 6 ≤ x; omega
  have hdown : ¬ x < bandLow 1 := by change ¬ x < (-20 : Int); omega
  unfold bandOf
  rw [decide_eq_false hup, decide_eq_false hdown]
  rfl

/-- The round's part of the statement. -/
theorem hkRoundEnd_publishes (codes : List Nat) (r : Int) (hreset : s.pwr.resetting ≠ some .powerOn) :
    ∃ t x, exec (.hkRoundEnd codes r) s = .next t ∧ x = (if r < -110 ∨ 350 < r then 350 else r) ∧
      t.therm.tj = x ∧ t.therm.tjValid = decide (-110 ≤ r ∧ r ≤ 350) ∧ t.therm.hi = max s.therm.hi x ∧
      t.therm.lo = min s.therm.lo x ∧ t.therm.published = true ∧ parGet t 14 5 = parGet s 14 5 + 1 ∧
      (∀ k, k < 32 → (k ≠ 4 ∧ k ≠ 5) ∨ hasLp s.part = true →
        tblGet t.therm.codes 0 k = (if 13 ≤ k ∧ k ≤ 15 then 0 else codes.getD k 0 % 4096) ∧
        tblGet t.therm.out false k = (decide (tblGet t.therm.codes 0 k < parField s 14 (0x200 + k) 11 0) ||
          decide (parField s 14 (0x200 + k) 27 16 < tblGet t.therm.codes 0 k)) ∧
        (s.pwr.sleep = .awake → k ≠ 0 → tblGet t.therm.out false k = true → tblGet s.therm.out false k = false →
          Raised s t 0x0E04 k [wrd (tblGet t.therm.codes 0 k)])) ∧
      (∀ b, b < 4 → t.therm.thr.testBit b = thrHolds s x b (s.therm.thr.testBit b)) ∧
      (s.pwr.sleep = .awake → t.therm.thr.testBit 3 = true → s.therm.thr.testBit 3 = false →
        Raised s t 0x0E03 3 [wrdI x]) ∧
      (s.pwr.sleep = .awake → t.therm.band ≠ s.therm.band → Raised s t 0x0E01 0 [wrd t.therm.band]) ∧
      (s.therm.published = true → -20 ≤ x → x < 80 → s.therm.band = 1 → t.therm.band = 1) ∧
      (∀ u i, u < 16 → i < 65536 → u ≠ 1 → u ≠ 10 → u ≠ 14 → parGet t u i = parGet s u i) ∧ t.mem.cells = s.mem.cells := by
  have hround := hkEnded_rounded codes r s
  obtain ⟨C, O, n, H, htherm, hC, hO, hn⟩ := hkEnded_therm codes r s
  have hlimited : Rounded (parWrap s 14 5) (hkLimited codes r s) :=
    ((hkCounted_rounded codes r s).rounded.trans (hkMeasured_rounded codes r s)).trans (hkLimited_rounded codes r s).rounded
  refine ⟨hkEnded codes r s, hkTj r, hkRoundEnd_runs codes r hreset, hkTj_eq r, by rw [htherm], by rw [htherm]; exact tjBad_not r,
    by rw [htherm], by rw [htherm], by rw [htherm], ?_, fun k hk hp => ?_, fun b hb => ?_, fun hawake hon hwas => ?_,
    fun hawake hne => ?_, fun hpub hlow hhigh hband => ?_, fun u i _ hi h1 h10 h14 => ?_, hround.cells⟩
  · exact (hround.par 14 5 (by decide) (by decide) (by decide) (by decide)).trans (parGet_parSet_self s 14 5 _)
  · have hp' : hkPresent s k = true := by
      unfold hkPresent
      obtain ⟨h4, h5⟩ | hlp := hp
      · simp [h4, h5]
      · simp [hlp]
    obtain ⟨hcode, hout, hraise⟩ := hkCounted_publishes codes r s hk hp'
    have htcode : tblGet (hkEnded codes r s).therm.codes 0 k = hkCode codes k := by rw [htherm]; dsimp only; rw [hC, hcode]
    have htout : tblGet (hkEnded codes r s).therm.out false k = hkOut codes s k := by rw [htherm]; dsimp only; rw [hO, hout]
    rw [htcode, htout]
    exact ⟨rfl, rfl, fun hawake _ hon hwas => hkEnded_raises codes r s (by decide) (.refl _) (hraise hawake hon hwas)
      ((hkBanded_rounded codes r s).trans (hkEnded_ends codes r s).1)⟩
  · rw [htherm]
    dsimp only
    rw [hn, (hkLimited_follows codes r s hb).1]
  · obtain ⟨hbit, hraise⟩ := hkLimited_follows codes r s (b := 3) (by decide)
    rw [htherm] at hon
    dsimp only at hon
    rw [hn, hbit] at hon
    exact hkEnded_raises codes r s (by decide) ((hkCounted_rounded codes r s).rounded.trans (hkMeasured_rounded codes r s))
      (hraise hawake rfl hon hwas) (.trans (.updTherm ..) (hkEnded_ends codes r s).1)
  · have hband : hkBand (hkTj r) (hkLimited codes r s) = (hkEnded codes r s).therm.band := by
      obtain ⟨H', hended⟩ := (hkEnded_ends codes r s).2.1
      rw [hended]
      rfl
    have hold : (hkLimited codes r s).therm.band = s.therm.band := by
      obtain ⟨C', O', H', hmeasured, _, _⟩ := hkMeasured_therm codes r s
      obtain ⟨n', H'', hlim⟩ := (hkLimited_rounded codes r s).therm
      rw [hlim, hmeasured]
    have hpwr : (hkBanded codes r s).pwr = s.pwr := hlimited.pwr
    have hraise := (hkEnded_ends codes r s).2.2 (by rw [hpwr]; exact hawake) (by rw [hband, hold]; exact hne)
    rw [hband] at hraise
    exact hkEnded_raises codes r s (by decide) (hlimited.trans (.updTherm ..)) hraise (.refl _)
  · rw [htherm]
    dsimp only
    rw [hpub, hband]
    exact bandOf_stays hlow hhigh
  · exact (hround.par u i hi h1 h10 (fun h => h14 h.1)).trans (parGet_parWrap_ne s hi fun h => h14 h.1)

/-- Settles O60: the housekeeping round and the supply monitors. -/
theorem housekeeping : Obligations.Housekeeping := by
  unfold Obligations.Housekeeping
  intro s hreset
  exact ⟨fun codes r => hkRoundEnd_publishes codes r hreset,
    fun ch above h1 h5 hlp => supplyMonitor_faults above h1 h5 hlp hreset⟩

end Sys2Proof.Proofs
end

section
/-!
PROOFS. O53: the timers of Stop-out and the evaluations of Registration (R350, R357 to R365).
-/
namespace Sys2Proof.Proofs
open Sys2Proof.Machine Sys2Proof.Safety Sys2Proof.Laws

variable {s : State}

/-! ENABLE. -/

theorem enableChange_quiet {level : Bool} (h : level = true ∨ isAsleep s = true ∨ s.op = .shutdown) :
    exec (.enableChange level) s = .next { s with so := { s.so with enable := level } } := by
  refine congrArg Host.Outcome.next (if_neg ?_)
  rintro ⟨_, hlow, hawake, hop⟩
  obtain rfl | hsleep | hdown := h
  · cases hlow
  · have hsleep' : isAsleep { s with so := { s.so with enable := level } } = true := hsleep
    rw [hsleep'] at hawake
    cases hawake
  · exact hop hdown

theorem enableChange_raises (hen : s.so.enable = true) (hawake : isAsleep s = false) (hop : s.op ≠ .shutdown) :
    ∃ t, exec (.enableChange false) s = .next t ∧ t.so.enable = false ∧ Raised s t 0x0904 0 [] ∧
      Reacted { s with so := { s.so with enable := false } } t := by
  have hawake' : isAsleep { s with so := { s.so with enable := false } } = false := hawake
  have hexec : exec (.enableChange false) s = .next (raise { s with so := { s.so with enable := false } } 0x0904 0 []) :=
    congrArg Host.Outcome.next (if_pos ⟨hen, rfl, by rw [hawake']; rfl, hop⟩)
  have hev : EvStep { s with so := { s.so with enable := false } } (raise { s with so := { s.so with enable := false } } 0x0904 0 []) :=
    ev_raise (.refl _)
  have hraised := raised_of (s := s) (raise_raises { s with so := { s.so with enable := false } } (code := 0x0904) (by decide) 0 []) rfl rfl
  generalize raise { s with so := { s.so with enable := false } } 0x0904 0 [] = t at hexec hev hraised
  exact ⟨t, hexec, hev.so_enable, hraised, reacted_of_evStep hev⟩

/-! SS2_DELAY. -/

/-- An event that names a drive changes that drive alone. -/
theorem drive_record_ne {code idx e : Nat} (he : e ≠ idx) (args : List Word) (s : State) : (record s code idx args).drive e = s.drive e := by
  unfold record recordEvent
  extract_lets _ queued marked named
  have hnamed : named.drive e = s.drive e := by
    unfold named
    have hmarked : marked.drive e = s.drive e := by unfold marked; split <;> rfl
    cases hd : eventDrive (mkEvent s code idx args) with
    | none => exact hmarked
    | some d =>
      have hidx : d = idx := by
        unfold eventDrive at hd
        split at hd
        · exact (Option.some.inj hd).symm
        · cases hd
      simp only [drive_updDrive, hidx, he, if_false]
      exact hmarked
  have hcaps : (forUpTo 4 (capTrigger (mkEvent s code idx args)) named).drives = named.drives :=
    forUpTo_rel (R := fun u v => v.drives = u.drives) (fun _ => rfl) (fun h k => k.trans h) (fun k _ u => capTrigger_drives _ k u) named
  exact (congrArg (fun D => tblGet D ({} : Drive) e) hcaps).trans hnamed

theorem drive_safeEntry_ne {d ss code e : Nat} (he : e ≠ d) (s : State) : (safeEntry s d ss code).drive e = s.drive e := by
  unfold safeEntry
  split
  · rfl
  · exact drive_record_ne he _ s

/-- What leaves the operating state and Stop-out. -/
structure SoStays (s t : State) : Prop where
  op : t.op = s.op
  so : t.so = s.so

theorem SoStays.refl (s : State) : SoStays s s := ⟨rfl, rfl⟩

theorem SoStays.trans {s t u : State} (h : SoStays s t) (k : SoStays t u) : SoStays s u := ⟨k.op.trans h.op, k.so.trans h.so⟩

theorem soStays_capTrigger (e : Event) (b : Nat) (s : State) : SoStays s (capTrigger e b s) := rel_ite ⟨rfl, rfl⟩ (.refl s)

theorem soStays_orderRing (r : Nat) (s : State) : SoStays s (orderRing r s) := ⟨rfl, rfl⟩

theorem soStays_record (s : State) (code idx : Nat) (args : List Word) : SoStays s (record s code idx args) := by
  unfold record recordEvent
  extract_lets _ queued marked named
  have hqueued : SoStays s queued := ⟨rfl, rfl⟩
  have hmarked : SoStays queued marked := rel_ite ⟨rfl, rfl⟩ (.refl queued)
  have hnamed : SoStays marked named := by
    unfold named
    cases eventDrive (mkEvent s code idx args) with
    | none => exact .refl marked
    | some d => exact ⟨rfl, rfl⟩
  exact (hqueued.trans (hmarked.trans hnamed)).trans
    (forUpTo_rel (R := SoStays) .refl .trans (fun b _ u => soStays_capTrigger _ b u) named)

theorem soStays_safeEntry (s : State) (d ss code : Nat) : SoStays s (safeEntry s d ss code) :=
  rel_ite ⟨rfl, rfl⟩ (soStays_record s _ _ _)

theorem soStays_noteSpeeds (s : State) : SoStays s (noteSpeeds s) := by
  obtain ⟨D, hD⟩ := (noteSpeeds_noted s).2
  rw [hD]
  exact ⟨rfl, rfl⟩

theorem PairsAlone.so {t : State} (h : PairsAlone s t) : SoStays s t := by
  obtain ⟨P, rfl⟩ := h
  exact ⟨rfl, rfl⟩

theorem soStays_followPairs (d : Nat) (s : State) :
    SoStays s (forEach (driveRings (forEach (drivePairs s d) (fun p s => settlePair s p) s) d) orderRing
      (forEach (drivePairs s d) (fun p s => settlePair s p) s)) :=
  (forEach_rel (R := SoStays) .refl .trans (fun p u => (settlePair_alone u p).pairs.so) _ s).trans
    (forEach_rel (R := SoStays) .refl .trans soStays_orderRing _ _)

/-- The drive that moves to SS2, before its pairs follow. -/
def secondStop (d : Nat) (s : State) : State := safeEntry (noteSpeeds (s.updDrive d fun v => { v with
  dst := .ss2, cause := (s.drive d).cause, faultLatched := (s.drive d).faultLatched || (s.drive d).faultLatched, clearDue := false,
  stopDue := false, l4From := none, highFrom := none, lostFrom := none })) d 2 (s.drive d).cause

theorem placeDrive_second {d : Nat} (hdst : (s.drive d).dst = .ss1) (harch : hasArch (s.drive d) = true) :
    placeDrive d 2 (s.drive d).cause (s.drive d).faultLatched s = followDrive d (secondStop d s) := by
  have hlow : ¬ (decide (2 ≤ ssRank (s.drive d).dst) && !(s.drive d).clearDue) = true := by rw [hdst]; simp [ssRank]
  have hmax : max 2 (ssRank (s.drive d).dst) = 2 := by rw [hdst]; decide
  refine (if_neg (by simp [harch])).trans ((if_neg hlow).trans ?_)
  rw [hmax]
  rfl

theorem secondStop_stops (d : Nat) (s : State) : EvStep s (secondStop d s) ∧
    bare ((secondStop d s).drive d) = bare { s.drive d with
      dst := .ss2, clearDue := false, stopDue := false, l4From := none, highFrom := none, lostFrom := none } ∧
    (∀ e, e ≠ d → (secondStop d s).drive e =
      { s.drive e with highFrom := ((secondStop d s).drive e).highFrom, lostFrom := ((secondStop d s).drive e).lostFrom }) ∧
    (secondStop d s).op = s.op := by
  unfold secondStop
  generalize hu : (s.updDrive d fun v => { v with
    dst := .ss2, cause := (s.drive d).cause, faultLatched := (s.drive d).faultLatched || (s.drive d).faultLatched, clearDue := false,
    stopDue := false, l4From := none, highFrom := none, lostFrom := none }) = u
  have hev : EvStep s u := by rw [← hu]; exact ev_updDrive (.refl s)
  refine ⟨ev_safeEntry (ev_noteSpeeds hev), ?_, fun e he => ?_, ?_⟩
  · rw [(drivesBare_safeEntry _ d 2 _).same d, (drivesBare_noteSpeeds u).same d, ← hu]
    simp
  · rw [drive_safeEntry_ne he]
    have hsame : u.drive e = s.drive e := by rw [← hu]; simp [he]
    rw [← hsame]
    exact (noteSpeeds_noted u).1 e
  · rw [(soStays_safeEntry _ d 2 _).op, (soStays_noteSpeeds u).op, ← hu]
    rfl

theorem ss2Delay_moves {d : Nat} (hd : d < 4) (hdst : (s.drive d).dst = .ss1) (harch : hasArch (s.drive d) = true)
    (hdue : (s.drive d).clearDue = false) (hclass : (s.drive d).classD = false) (hexempt : (s.drive d).exempt = false)
    (hauto : wbit (parGet s 9 (0x10 + d)) 31 = true) (happly : reactionsApply s = true) (hheld : speedHeld (noteSpeeds s) d = true) :
    ∃ t, exec (.ss2DelayExpiry d) s = .next t ∧
      (t.drive d).dst = .ss2 ∧ (t.drive d).cause = (s.drive d).cause ∧ (∀ e, e ≠ d →
        t.drive e = { s.drive e with highFrom := (t.drive e).highFrom, lostFrom := (t.drive e).lostFrom }) ∧
      t.op = s.op ∧ Reacted s t := by
  have hgo : ¬ (4 ≤ d ∨ (s.drive d).dst ≠ .ss1 ∨ (s.drive d).clearDue = true ∨ (s.drive d).classD = true ∨ (s.drive d).exempt = true ∨
      (!wbit (parGet s 9 (0x10 + d)) 31) = true ∨ (!speedHeld (noteSpeeds s) d) = true ∨ (!reactionsApply s) = true) := by
    rw [hdst, hdue, hclass, hexempt, hauto, happly, hheld]
    simp
    omega
  have hexec : exec (.ss2DelayExpiry d) s = .next (settlePairs (followDrive d (secondStop d s))) :=
    congrArg Host.Outcome.next ((if_neg hgo).trans (congrArg settlePairs (placeDrive_second hdst harch)))
  obtain ⟨hev, hnamed, hothers, hop⟩ := secondStop_stops d s
  have hfollow : DrivesStand (secondStop d s) (settlePairs (followDrive d (secondStop d s))) :=
    (followDrive_stand d _).trans (settlePairs_alone _).stand
  refine ⟨_, hexec, ?_, ?_, fun e he => ?_, ?_, reacted_of_evStep (hev.trans hfollow.ev)⟩
  · rw [hfollow.drive d]
    exact dst_of_bare hnamed
  · rw [hfollow.drive d]
    exact (congrArg Drive.cause hnamed :)
  · rw [hfollow.drive e]
    exact hothers e he
  · rw [settlePairs_op]
    exact (soStays_followPairs d (stopRegTimer (secondStop d s) d)).op.trans hop

/-! The end of a stop sequence. -/

theorem stopTime_waits {d : Nat} (hd : d < 4) (hdst : (s.drive d).dst = .stopping) (helapsed : stopElapsed s d = true)
    (hnow : periodNow s (driveTb (s.drive d)) = false) : ∃ t, exec (.stopTimeExpiry d) s = .next t ∧
      t.drive d = { s.drive d with stopDue := true } ∧ (∀ e, e ≠ d → t.drive e = s.drive e) ∧ t = { s with drives := t.drives } := by
  have hgo : ¬ (4 ≤ d ∨ (s.drive d).dst ≠ .stopping ∨ (!stopElapsed s d) = true) := by
    rw [hdst, helapsed]; simp; omega
  have hexec : exec (.stopTimeExpiry d) s = .next (s.updDrive d fun v => { v with stopDue := true }) :=
    congrArg Host.Outcome.next ((if_neg hgo).trans (if_pos (by rw [hnow]; rfl)))
  exact ⟨_, hexec, by simp, fun e he => by simp [he], rfl⟩

/-- The end of a stop tells of it. -/
theorem endStop_raises (d : Nat) (s : State) : Raised s (endStop d s) 0x0002 d [] := by
  unfold endStop
  extract_lets a b c e f
  have hb : Raised b c 0x0002 d [] := record_raises b 0x0002 d []
  have he : EvStep c e := (periodPairs_stand _ _).ev
  have hf : EvStep e f := (forEach_rel DrivesStand.refl DrivesStand.trans (fun r u => updRing_stand u r _) _ _).ev
  have hend : EvStep c (leaveRun f) := he.trans (hf.trans (leaveRun_stand f).ev)
  exact raised_after (raised_of hb rfl rfl) (by decide) hend

theorem stopTime_ends {d : Nat} (hd : d < 4) (hdst : (s.drive d).dst = .stopping) (helapsed : stopElapsed s d = true)
    (hnow : periodNow s (driveTb (s.drive d)) = true) : ∃ t, exec (.stopTimeExpiry d) s = .next t ∧
      (t.drive d).dst = .idle ∧ (t.drive d).torque = 0 ∧ Raised s t 0x0002 d [] ∧ (∀ e, e ≠ d → t.drive e = s.drive e) ∧ Reacted s t := by
  have hgo : ¬ (4 ≤ d ∨ (s.drive d).dst ≠ .stopping ∨ (!stopElapsed s d) = true) := by
    rw [hdst, helapsed]; simp; omega
  have hexec : exec (.stopTimeExpiry d) s = .next (endStop d s) :=
    congrArg Host.Outcome.next ((if_neg hgo).trans (if_neg (by rw [hnow]; decide)))
  have hstand := endStop_stand d s
  refine ⟨_, hexec, ?_, ?_, endStop_raises d s, fun e he => ?_, reacted_of_evStep ((ev_updDrive (.refl s)).trans hstand.ev)⟩
  · rw [hstand.drive d]; simp
  · rw [hstand.drive d]; simp
  · rw [hstand.drive e]; simp [he]

/-! The time of a discharge. -/

/-- Drive `d` with its discharge over. -/
def bledOut (d : Nat) (s : State) : State := s.updDrive d fun v => { v with discharging := false }

theorem stringDischarge_cases (d : Nat) (s : State) : stringDischarge d s = s ∨ ∃ ts w, (s.drive d).bleedTs = some ts ∧
    stringDischarge d s = record (bledOut d s) 0x0905 d [w, wrd ((s.now - ts) / usTicks)] := by
  unfold stringDischarge
  dsimp only
  split
  next _ => exact .inl rfl
  next ts hts =>
    split
    · exact .inr ⟨ts, _, hts, rfl⟩
    · exact .inl rfl

/-- A discharge is over with its event, and no drive but its own changes. -/
theorem discharged (d : Nat) (args : List Word) (s : State) : DrivesStand (bledOut d s) (record (bledOut d s) 0x0905 d args) :=
  record_stand (by decide) rfl (by decide)

theorem bledOut_drive (d e : Nat) (s : State) : (bledOut d s).drive e =
    if e = d then { s.drive d with discharging := false } else s.drive e := drive_updDrive ..

theorem ev_bledOut (d : Nat) (s : State) : EvStep s (bledOut d s) := ev_updDrive (.refl s)

/-- An event without a reaction is recorded and no more. -/
theorem raise_bare {code idx : Nat} {args : List Word} (h : reactionOf s code idx = noReact) : raise s code idx args = record s code idx args := by
  unfold raise raiseWith
  rw [h]
  unfold applyReaction
  split <;> rfl

theorem reactionOf_dischargeFail (d : Nat) (s : State) : reactionOf s 0x0906 d = noReact := by simp [reactionOf]

/-- The drives once a string drive has been looked at. -/
def judged (d : Nat) (s : State) : State := if (s.drive d).arch = .string then stringDischarge d s else s

/-- The voltage that a failed discharge tells of. -/
def failVolts (d : Nat) (v : Drive) (s : State) : Word :=
  if v.arch = .string then milliVolt (stringVolts s ((driveRings s d).headD 0))
  else match v.lastV with
    | some x => milliVolt x
    | none => 0x80000000

theorem dischargeTimeout_runs {d ts : Nat} (hd : d < 4) (hts : dischargeTs (s.drive d) = some ts)
    (hdis : (s.drive d).discharging = true) : exec (.dischargeTimeout d) s = .next
      (if (!((judged d s).drive d).discharging) = true ∨ (judged d s).now < ts + twoSeconds then judged d s
      else raise (bledOut d (judged d s)) 0x0906 d [failVolts d (s.drive d) (judged d s)]) := by
  have hgo : ¬ (4 ≤ d ∨ (!(s.drive d).discharging) = true) := by rw [hdis]; simp; omega
  refine congrArg Host.Outcome.next ?_
  dsimp only
  rw [hts]
  exact if_neg hgo

/-- A string drive whose positions have bled is discharged. -/
theorem dischargeTimeout_ends {d ts : Nat} (hd : d < 4) (hts : dischargeTs (s.drive d) = some ts) (hdis : (s.drive d).discharging = true)
    (hstr : isString (s.drive d) = true) (hbled : ((stringDischarge d s).drive d).discharging = false) :
    ∃ t w, exec (.dischargeTimeout d) s = .next t ∧ (t.drive d).discharging = false ∧ (t.drive d).dst = (s.drive d).dst ∧
      Raised s t 0x0905 d [w, wrd ((s.now - ts) / usTicks)] ∧ (∀ e, e ≠ d → t.drive e = s.drive e) ∧ Reacted s t := by
  have harch : (s.drive d).arch = .string := of_decide_eq_true hstr
  obtain hsame | ⟨ts', w, hts', hrec⟩ := stringDischarge_cases d s
  · rw [hsame, hdis] at hbled; cases hbled
  have hstart : ts' = ts := by
    unfold dischargeTs at hts
    rw [if_pos harch, hts'] at hts
    exact Option.some.inj hts
  subst hstart
  have hjudged : judged d s = stringDischarge d s := if_pos harch
  have hexec := dischargeTimeout_runs hd hts hdis
  rw [hjudged, if_pos (.inl (by rw [hbled]; rfl))] at hexec
  have hstand := discharged d [w, wrd ((s.now - ts') / usTicks)] s
  have hraised := record_raises (bledOut d s) 0x0905 d [w, wrd ((s.now - ts') / usTicks)]
  rw [← hrec] at hstand hraised
  refine ⟨_, w, hexec, hbled, ?_, raised_of hraised rfl rfl, fun e he => ?_, reacted_of_evStep ((ev_bledOut d s).trans hstand.ev)⟩
  · rw [hstand.drive d, bledOut_drive, if_pos rfl]
  · rw [hstand.drive e, bledOut_drive, if_neg he]

/-- A discharge that has not ended within its 2 s fails. -/
theorem dischargeTimeout_fails {d ts : Nat} (hd : d < 4) (hts : dischargeTs (s.drive d) = some ts) (hdis : (s.drive d).discharging = true)
    (hlate : ts + 800000000 ≤ s.now) (hopen : isString (s.drive d) = true → ((stringDischarge d s).drive d).discharging = true) :
    ∃ t w, exec (.dischargeTimeout d) s = .next t ∧ (t.drive d).discharging = false ∧ (t.drive d).dst = (s.drive d).dst ∧
      Raised s t 0x0906 d [w] ∧ (isString (s.drive d) = false → (s.drive d).lastV = none → w = 0x80000000) ∧
      (∀ e, e ≠ d → t.drive e = s.drive e) ∧ Reacted s t := by
  have hjudged : judged d s = s := by
    unfold judged
    split
    next harch =>
      obtain hsame | ⟨ts', w, hts', hrec⟩ := stringDischarge_cases d s
      · exact hsame
      · have h := hopen (decide_eq_true harch)
        rw [hrec, (discharged d _ s).drive d, bledOut_drive, if_pos rfl] at h
        cases h
    next => rfl
  have hwait : ¬ ((!(s.drive d).discharging) = true ∨ s.now < ts + twoSeconds) := by rw [hdis]; unfold twoSeconds; simp; omega
  have hexec := dischargeTimeout_runs hd hts hdis
  rw [hjudged, if_neg hwait, raise_bare (reactionOf_dischargeFail d _)] at hexec
  have hrec : DrivesBare (bledOut d s) (record (bledOut d s) 0x0906 d [failVolts d (s.drive d) s]) := drivesBare_record ..
  have hothers : ∀ e, e ≠ d → (record (bledOut d s) 0x0906 d [failVolts d (s.drive d) s]).drive e = s.drive e := fun e he => by
    rw [drive_record_ne he, bledOut_drive, if_neg he]
  have hev : EvStep s (record (bledOut d s) 0x0906 d [failVolts d (s.drive d) s]) := ev_record (ev_bledOut d s)
  have hraised := raised_of (s := s) (record_raises (bledOut d s) 0x0906 d [failVolts d (s.drive d) s]) rfl rfl
  have hown := hrec.same d
  rw [bledOut_drive, if_pos rfl] at hown
  generalize record (bledOut d s) 0x0906 d [failVolts d (s.drive d) s] = t at hexec hothers hev hraised hown
  refine ⟨t, failVolts d (s.drive d) s, hexec, (congrArg Drive.discharging hown :), (dst_of_bare hown :), hraised, fun hs hv => ?_, hothers,
    reacted_of_evStep hev⟩
  unfold failVolts
  rw [if_neg (of_decide_eq_false hs), hv]

/-! DSCH. -/

theorem dschHold_releases {d : Nat} (hd : d < 4) (hover : holdOver s d = true) : ∃ t, exec (.dschHoldExpiry d) s = .next t ∧
    (t.drive d).holdTs = none ∧ t.so.dsch.testBit d = (s.so.dsch.testBit d && decide ((s.drive d).dst = .ss3)) ∧
    (∀ e, e ≠ d → t.so.dsch.testBit e = s.so.dsch.testBit e ∧ t.drive e = s.drive e) ∧
    t = { s with drives := t.drives, so := { s.so with dsch := t.so.dsch } } := by
  have hgo : ¬ (4 ≤ d ∨ (!holdOver s d) = true) := by rw [hover]; simp; omega
  have hdst : ((s.updDrive d fun v => { v with holdTs := none, holdCut := false }).drive d).dst = (s.drive d).dst := by simp
  by_cases h3 : (s.drive d).dst = .ss3
  · have hexec : exec (.dschHoldExpiry d) s = .next (s.updDrive d fun v => { v with holdTs := none, holdCut := false }) :=
      congrArg Host.Outcome.next ((if_neg hgo).trans (if_pos (hdst.trans h3)))
    refine ⟨_, hexec, by simp, by simp [h3], fun e he => ⟨rfl, by simp [he]⟩, rfl⟩
  · have hexec : exec (.dschHoldExpiry d) s = .next (setDsch (s.updDrive d fun v => { v with holdTs := none, holdCut := false }) d false) :=
      congrArg Host.Outcome.next ((if_neg hgo).trans (if_neg fun h => h3 (hdst.symm.trans h)))
    have hdrive : ∀ e, (setDsch (s.updDrive d fun v => { v with holdTs := none, holdCut := false }) d false).drive e =
      (s.updDrive d fun v => { v with holdTs := none, holdCut := false }).drive e := fun _ => rfl
    have hbit : ∀ e, (setDsch (s.updDrive d fun v => { v with holdTs := none, holdCut := false }) d false).so.dsch.testBit e =
        if e = d then false else s.so.dsch.testBit e := fun e => testBit_putBit s.so.dsch d e false
    refine ⟨_, hexec, by rw [hdrive]; simp, ?_, fun e he => ⟨?_, by rw [hdrive]; simp [he]⟩, rfl⟩
    · rw [hbit, if_pos rfl, decide_eq_false h3, Bool.and_false]
    · rw [hbit, if_neg he]

/-! What the reaction to an event leaves of Registration: everything but its timers. -/

/-- Every instance is the same but for its timer. -/
def RegsKept (s t : State) : Prop := ∀ d, t.regn d = { s.regn d with timer := (t.regn d).timer }

theorem RegsKept.refl (s : State) : RegsKept s s := fun _ => rfl

theorem RegsKept.trans {s t u : State} (h : RegsKept s t) (k : RegsKept t u) : RegsKept s u := fun d => by
  rw [k d, h d]

theorem regsKept_of_regs {s t : State} (h : t.so.regs = s.so.regs) : RegsKept s t := fun d => by
  have hd : t.regn d = s.regn d := by unfold State.regn; rw [h]
  rw [hd]

theorem SoStays.regs {s t : State} (h : SoStays s t) : RegsKept s t := regsKept_of_regs (by rw [h.so])

theorem regsKept_stopRegTimer (s : State) (d : Nat) : RegsKept s (stopRegTimer s d) := fun e => by
  unfold stopRegTimer
  rw [regn_updRegn]
  split
  next h => rw [h]
  · rfl

theorem regsKept_readCells (l : List Nat) (s : State) : RegsKept s (readCells l s) := by
  obtain ⟨P, mk, er, ce, q, h⟩ := read_readCells l s
  rw [h]
  exact regsKept_of_regs rfl

theorem regsKept_setLatch (s : State) (code i : Nat) (resetOnly : Bool) : RegsKept s (setLatch s code i resetOnly) :=
  rel_ite (.refl s) (regsKept_of_regs rfl)

theorem regsKept_record (s : State) (code i : Nat) (args : List Word) : RegsKept s (record s code i args) := (soStays_record ..).regs

theorem regsKept_stopoutConsumes (d : Nat) (s : State) : RegsKept s (stopoutConsumes d s) := by
  unfold stopoutConsumes
  split
  · exact .refl s
  next i _ =>
    extract_lets a m exempt bitten
    have hbitten : RegsKept s bitten := regsKept_of_regs rfl
    have hnoted : RegsKept bitten (noteBite bitten 9 a) := regsKept_of_regs rfl
    exact hbitten.trans (rel_ite (.refl _) (hnoted.trans ((regsKept_record _ _ 9 _).trans (regsKept_setLatch _ _ 9 false))))

theorem regsKept_followDrive (d : Nat) (s : State) : RegsKept s (followDrive d s) :=
  (regsKept_stopRegTimer s d).trans (soStays_followPairs d (stopRegTimer s d)).regs

theorem regsKept_updDrive (s : State) (d : Nat) (f : Drive → Drive) : RegsKept s (s.updDrive d f) := regsKept_of_regs rfl

theorem regsKept_placeDrive (d ss code : Nat) (byEvent : Bool) (s : State) : RegsKept s (placeDrive d ss code byEvent s) := by
  unfold placeDrive
  extract_lets v n placed entered stopped settled
  refine rel_ite (.refl s) (rel_ite (rel_ite ?_ (.refl s)) ?_)
  · exact (regsKept_updDrive s d _).trans (soStays_safeEntry _ d ss code).regs
  · have hplaced : RegsKept s placed := (regsKept_updDrive s d _).trans (soStays_noteSpeeds _).regs
    exact hplaced.trans ((soStays_safeEntry ..).regs.trans (regsKept_followDrive d entered))

theorem regsKept_setOp (s : State) (o : OpState) : RegsKept s (setOp s o) := by
  refine rel_ite (.refl s) ?_
  exact (regsKept_record s 1 0 [wrd (opCode s.op), wrd (opCode o)]).trans (regsKept_of_regs rfl)

theorem regsKept_enterSafe (ds : List Nat) (ss code : Nat) (s : State) : RegsKept s (enterSafe ds ss code s) := by
  unfold enterSafe
  extract_lets placed
  have hplaced : RegsKept s placed := forUpTo_rel RegsKept.refl RegsKept.trans (fun d _ u => by
    dsimp only
    have hread : RegsKept u (if hasArch (u.drive d) then readCells ((settingIdx d).map par9Addr) u else u) :=
      rel_ite (regsKept_readCells _ u) (.refl u)
    exact hread.trans (rel_ite ((regsKept_stopoutConsumes d _).trans (regsKept_placeDrive d 1 code true _))
      (regsKept_placeDrive d _ code true _))) s
  exact hplaced.trans ((regsKept_setOp placed .safe).trans (settlePairs_alone _).so.regs)

theorem regsKept_startStop (d : Nat) (s : State) : RegsKept s (startStop d s) := rel_ite (regsKept_of_regs rfl) (.refl s)

theorem regsKept_handoverReact (code : Nat) (s : State) : RegsKept s (handoverReact code s) := by
  unfold handoverReact
  have h := regsKept_enterSafe [] 1 code s
  generalize enterSafe [] 1 code s = u at h ⊢
  exact h.trans (regsKept_of_regs rfl)

theorem regsKept_classD {s u : State} (h : RegsKept s u) :
    RegsKept s { u with so := { u.so with classD := true, ownN := false } } := h

theorem regsKept_applyReaction (r : Reaction) (code i : Nat) (s : State) : RegsKept s (applyReaction r code i s) := by
  unfold applyReaction
  extract_lets latched safe marked so
  have hlatched : RegsKept s latched := by
    unfold latched
    cases r.latch with
    | none => exact .refl s
    | some ro => exact regsKept_setLatch s code i ro
  refine rel_ite (.refl s) (hlatched.trans (rel_ite (regsKept_handoverReact code latched) ?_))
  cases r.react with
  | n => exact .refl latched
  | t => exact forUpTo_rel RegsKept.refl RegsKept.trans (fun d _ u => regsKept_startStop d u) latched
  | p => exact regsKept_enterSafe [] 1 code latched
  | s ds => exact regsKept_enterSafe ds 2 code latched
  | d =>
    have hsafe : RegsKept latched safe := regsKept_enterSafe [] 1 code latched
    have hmarked : RegsKept safe marked :=
      forUpTo_rel RegsKept.refl RegsKept.trans (fun d _ v => rel_ite (regsKept_updDrive v d _) (.refl v)) safe
    exact regsKept_classD (hsafe.trans hmarked)

theorem regsKept_raise (s : State) (code i : Nat) (args : List Word) : RegsKept s (raise s code i args) :=
  (regsKept_record s code i args).trans (regsKept_applyReaction _ code i _)

/-! Registration: a mismatching evaluation. -/

/-- A mismatch at tick `at`, counted. -/
def mismatched (d : Nat) (s : State) : State := parCount (s.updRegn d fun g => { g with mismatch := true }) 9 (0x20F + 32 * d) 1

theorem mismatched_frame (d : Nat) (s : State) : ∃ P R, mismatched d s = { s with par := P, so := { s.so with regs := R } } := by
  unfold mismatched parCount
  generalize BitVec.ofNat 32 _ = v
  exact ⟨_, _, rfl⟩

theorem updRegn_eq (d : Nat) (f : Registration → Registration) (s : State) :
    s.updRegn d f = { s with so := { s.so with regs := tblSet s.so.regs {} d (f (s.regn d)) } } := rfl

theorem mismatched_regn (d : Nat) (s : State) : (mismatched d s).regn d = { s.regn d with mismatch := true } :=
  (congrArg (fun R => tblGet R ({} : Registration) d) (show (mismatched d s).so.regs =
    tblSet s.so.regs {} d { s.regn d with mismatch := true } from rfl)).trans (tblGet_write_self _ _ _ _)

/-- The timer of a mismatch that is counted: it starts, or confirms the mismatch. -/
def confirmed (d at' : Nat) (s : State) : State :=
  if !driveRuns (s.drive d) ∨ at' < (s.drive d).runAt then s
  else match (s.regn d).timer with
  | none => s.updRegn d fun g => { g with timer := some at' }
  | some ts =>
    if at' < ts + field (regPar s d 0xA) 10 0 * usTicks then s
    else raise s 0x0903 d [(s.regn d).tau, torqueInput (s.drive d)]

theorem regMismatch_eq (d at' : Nat) (s : State) : regMismatch d at' s = confirmed d at' (mismatched d s) := rfl

section Confirmed
variable {d at' : Nat}

theorem confirmed_idle (h : driveRuns (s.drive d) = false) : confirmed d at' s = s := if_pos (.inl (by rw [h]; rfl))

theorem confirmed_runs (hrun : driveRuns (s.drive d) = true) (hat : (s.drive d).runAt ≤ at') : confirmed d at' s =
    match (s.regn d).timer with
    | none => s.updRegn d fun g => { g with timer := some at' }
    | some ts =>
      if at' < ts + field (regPar s d 0xA) 10 0 * usTicks then s
      else raise s 0x0903 d [(s.regn d).tau, torqueInput (s.drive d)] := by
  have hgo : ¬ ((!driveRuns (s.drive d)) = true ∨ at' < (s.drive d).runAt) := by
    rw [hrun]
    simp
    omega
  rw [confirmed, if_neg hgo]

theorem confirmed_starts (hrun : driveRuns (s.drive d) = true) (hat : (s.drive d).runAt ≤ at') (ht : (s.regn d).timer = none) :
    confirmed d at' s = s.updRegn d fun g => { g with timer := some at' } := by
  rw [confirmed_runs hrun hat, ht]

theorem confirmed_raises {ts : Nat} (hrun : driveRuns (s.drive d) = true) (hat : (s.drive d).runAt ≤ at') (ht : (s.regn d).timer = some ts)
    (hover : ts + field (regPar s d 0xA) 10 0 * usTicks ≤ at') :
    confirmed d at' s = raise s 0x0903 d [(s.regn d).tau, torqueInput (s.drive d)] := by
  rw [confirmed_runs hrun hat, ht]
  dsimp only
  rw [if_neg (Nat.not_lt.2 hover)]

/-- With no timer running no drive changes. -/
theorem confirmed_drives (ht : (s.regn d).timer = none) : (confirmed d at' s).drives = s.drives := by
  unfold confirmed
  rw [ht]
  split <;> rfl

theorem confirmed_cases (d at' : Nat) (s : State) : confirmed d at' s = s ∨
    confirmed d at' s = (s.updRegn d fun g => { g with timer := some at' }) ∨
    confirmed d at' s = raise s 0x0903 d [(s.regn d).tau, torqueInput (s.drive d)] := by
  unfold confirmed
  split
  · exact .inl rfl
  · split
    · exact .inr (.inl rfl)
    · split
      · exact .inl rfl
      · exact .inr (.inr rfl)

theorem regsKept_timer (d : Nat) (o : Option Nat) (s : State) : RegsKept s (s.updRegn d fun g => { g with timer := o }) := fun e => by
  rw [regn_updRegn]
  split
  next h => rw [h]
  · rfl

/-- Whatever the timer does, of the instance nothing else changes, no parameter of unit 9, no word of MRAM and no byte of memory. -/
theorem confirmed_keeps (d at' : Nat) (s : State) : RegsKept s (confirmed d at' s) ∧
    (∀ i, i < 65536 → parGet (confirmed d at' s) 9 i = parGet s 9 i) ∧ (confirmed d at' s).nv = s.nv ∧
    (confirmed d at' s).mem.cells = s.mem.cells := by
  obtain h | h | h := confirmed_cases d at' s
  · rw [h]
    exact ⟨.refl s, fun _ _ => rfl, rfl, rfl⟩
  · rw [h]
    exact ⟨regsKept_timer d _ s, fun _ _ => rfl, rfl, rfl⟩
  · have hev : EvStep s (raise s 0x0903 d [(s.regn d).tau, torqueInput (s.drive d)]) := ev_raise (.refl s)
    rw [h]
    exact ⟨regsKept_raise s _ d _, fun i hi => parGet_of_evStep hev hi (by decide) (by decide), hev.nv, hev.mem_cells⟩

end Confirmed

theorem mismatched_counts (d : Nat) (s : State) : parGet (mismatched d s) 9 (0x20F + 32 * d) = counted (parGet s 9 (0x20F + 32 * d)) 1 :=
  parGet_parCount_self _ 9 _ 1

/-- The instance with the values of an evaluation. -/
def evaluated (d : Nat) (tau cmdf : Word) (bad : Bool) (s : State) : State := s.updRegn d fun g => { g with
  tau := tau, cmdf := cmdf, inputBad := bad, fresh := false, lastEval := s.now }

/-- A good evaluation ends the mismatch, and its timer. -/
def goodEvaluation (d : Nat) (s : State) : State := stopRegTimer (s.updRegn d fun g => { g with mismatch := false }) d

theorem updRegn_frame (d : Nat) (f : Registration → Registration) (s : State) :
    ∃ R, s.updRegn d f = { s with so := { s.so with regs := R } } ∧ tblGet R {} d = f (s.regn d) :=
  ⟨_, updRegn_eq d f s, tblGet_write_self s.so.regs {} (f (s.regn d)) d⟩

theorem goodEvaluation_ends (d : Nat) (tau cmdf : Word) (bad : Bool) (s : State) :
    ∃ R, goodEvaluation d (evaluated d tau cmdf bad s) = { s with so := { s.so with regs := R } } ∧ tblGet R {} d =
      { s.regn d with tau := tau, cmdf := cmdf, inputBad := bad, fresh := false, lastEval := s.now, mismatch := false, timer := none } := by
  unfold goodEvaluation stopRegTimer evaluated
  obtain ⟨R1, h1, hget1⟩ := updRegn_frame d (fun g => { g with
    tau := tau, cmdf := cmdf, inputBad := bad, fresh := false, lastEval := s.now }) s
  rw [h1]
  obtain ⟨R2, h2, hget2⟩ := updRegn_frame d (fun g => { g with mismatch := false }) { s with so := { s.so with regs := R1 } }
  rw [h2]
  obtain ⟨R3, h3, hget3⟩ := updRegn_frame d (fun g => { g with timer := none }) { s with so := { s.so with regs := R2 } }
  refine ⟨R3, h3, ?_⟩
  rw [hget3]
  change ({ tblGet R2 {} d with timer := none } : Registration) = _
  rw [hget2]
  change ({ tblGet R1 {} d with mismatch := false, timer := none } : Registration) = _
  rw [hget1]

section Mismatch
variable {d : Nat} (hd : d < 4)
include hd

theorem mismatched_regPar (s : State) : regPar (mismatched d s) d 0xA = regPar s d 0xA :=
  parGet_parSet_ne (by omega) (by omega) (by omega) _

/-- The end of an interval without an evaluation counts as a mismatch. -/
theorem regEvalGap_counts (hconv : convRun s = true) (hend : (s.regn d).lastEval + 100000 ≤ s.now) :
    ∃ t, exec (.regEvalGap d) s = .next t ∧
      (t.regn d).mismatch = true ∧ (t.regn d).lastEval = (s.regn d).lastEval + 100000 ∧
      parGet t 9 (0x20F + 32 * d) = counted (parGet s 9 (0x20F + 32 * d)) 1 ∧
      (driveRuns (s.drive d) = true → (s.drive d).runAt ≤ (s.regn d).lastEval + 100000 →
        ((s.regn d).timer = none → (t.regn d).timer = some ((s.regn d).lastEval + 100000)) ∧
        (∀ ts, (s.regn d).timer = some ts → ts + field (regPar s d 0xA) 10 0 * 400 ≤ (s.regn d).lastEval + 100000 →
          Raised s t 0x0903 d [(s.regn d).tau, torqueInput (s.drive d)])) ∧
      (driveRuns (s.drive d) = false → t = { s with so := { s.so with regs := t.so.regs }, par := t.par }) ∧
      t.nv = s.nv ∧ t.mem.cells = s.mem.cells := by
  have hgo : ¬ (4 ≤ d ∨ (!convRun s) = true ∨ s.now < (s.regn d).lastEval + 100000) := by rw [hconv]; simp; omega
  generalize he : (s.regn d).lastEval + 100000 = e at *
  generalize hm : mismatched d (s.updRegn d fun g => { g with lastEval := e }) = m
  have hexec : exec (.regEvalGap d) s = .next (confirmed d e m) := by
    rw [← hm]
    subst he
    exact congrArg Host.Outcome.next (if_neg hgo)
  have hregn : m.regn d = { s.regn d with lastEval := e, mismatch := true } := by rw [← hm, mismatched_regn]; simp
  have hpar : parGet m 9 (0x20F + 32 * d) = counted (parGet s 9 (0x20F + 32 * d)) 1 := by rw [← hm]; exact mismatched_counts d _
  have hword : regPar m d 0xA = regPar s d 0xA := by rw [← hm]; exact mismatched_regPar hd _
  obtain ⟨P, R, hframe⟩ := mismatched_frame d (s.updRegn d fun g => { g with lastEval := e })
  rw [hm, updRegn_eq] at hframe
  have hdrive : m.drive d = s.drive d := by rw [hframe]; rfl
  obtain ⟨hkept, hparams, hnv, hcells⟩ := confirmed_keeps d e m
  have hown := hkept d
  rw [hregn] at hown
  refine ⟨_, hexec, (congrArg Registration.mismatch hown :), (congrArg Registration.lastEval hown :), ?_, fun hrun hat => ⟨fun ht => ?_,
    fun ts ht hover => ?_⟩, fun hidle => ?_, ?_, ?_⟩
  · rw [hparams _ (by omega), hpar]
  · rw [confirmed_starts (by rw [hdrive]; exact hrun) (by rw [hdrive]; exact hat) (by rw [hregn]; exact ht)]
    simp
  · have hraise := confirmed_raises (s := m) (at' := e) (ts := ts) (by rw [hdrive]; exact hrun) (by rw [hdrive]; exact hat)
      (by rw [hregn]; exact ht) (by rw [hword]; exact hover)
    have hargs : [(m.regn d).tau, torqueInput (m.drive d)] = [(s.regn d).tau, torqueInput (s.drive d)] := by rw [hregn, hdrive]
    rw [hargs] at hraise
    rw [hraise]
    exact raised_of (raise_raises m (by decide) d _) (by rw [hframe]) (by rw [hframe])
  · rw [confirmed_idle (by rw [hdrive]; exact hidle)]
    rw [hframe]
  · rw [hnv, hframe]
  · rw [hcells, hframe]

/-! An evaluation. -/

omit hd in
/-- Where no word that the instance reads has an error or a mark, an evaluation stores its values and judges them. -/
theorem regEvaluate_judges (a b c : Word) (herrs : s.mem.errs = []) (hmark : markedCell s (regCells d) = none) :
    ∃ tau cmdf bad mis, regEvaluate d a b c s = (if mis = true then regMismatch d s.now (evaluated d tau cmdf bad s)
        else goodEvaluation d (evaluated d tau cmdf bad s)) ∧
      (wbit a 17 = true ∨ wbit b 17 = true ∨ wbit c 17 = true → bad = true ∧ mis = true) := by
  have hread : readCells (regCells d) s = s := if_pos herrs
  unfold regEvaluate
  rw [hread]
  dsimp only
  rw [hmark]
  refine ⟨_, _, _, _, rfl, fun h => ?_⟩
  obtain h | h | h := h <;> simp [h]

theorem registrationEvaluation_judges {a b c : Word} (hcodes : (s.regn d).codes = [some a, some b, some c]) (hfresh : (s.regn d).fresh = true)
    (hconv : convRun s = true) (herrs : s.mem.errs = []) (hmark : markedCell s (regCells d) = none) :
    ∃ t, exec (.registrationEvaluation d) s = .next t ∧ (t.regn d).fresh = false ∧
      (t.regn d).lastEval = s.now ∧ ((s.regn d).timer = none → t.drives = s.drives) ∧
      (wbit a 17 = true ∨ wbit b 17 = true ∨ wbit c 17 = true → (t.regn d).inputBad = true ∧ (t.regn d).mismatch = true ∧
        parGet t 9 (0x20F + 32 * d) = counted (parGet s 9 (0x20F + 32 * d)) 1 ∧
        (driveRuns (s.drive d) = true → (s.drive d).runAt ≤ s.now → (s.regn d).timer = none → (t.regn d).timer = some s.now)) ∧
      ((t.regn d).mismatch = false → (t.regn d).timer = none ∧ t = { s with so := { s.so with regs := t.so.regs } }) := by
  have hgo : ¬ (4 ≤ d ∨ (!(s.regn d).fresh) = true ∨ (!convRun s) = true) := by rw [hfresh, hconv]; simp; omega
  obtain ⟨tau, cmdf, bad, mis, heval, hbad⟩ := regEvaluate_judges (d := d) a b c herrs hmark
  have hexec : exec (.registrationEvaluation d) s = .next (regEvaluate d a b c s) := by
    refine congrArg Host.Outcome.next ((if_neg hgo).trans ?_)
    rw [hcodes]
  rw [heval] at hexec
  cases mis with
  | false =>
    rw [if_neg Bool.false_ne_true] at hexec
    obtain ⟨R, hgood, hregn⟩ := goodEvaluation_ends d tau cmdf bad s
    rw [hgood] at hexec
    refine ⟨_, hexec, (congrArg Registration.fresh hregn :), (congrArg Registration.lastEval hregn :), fun _ => rfl,
      fun h => absurd (hbad h).2 Bool.false_ne_true, fun _ => ⟨(congrArg Registration.timer hregn :), rfl⟩⟩
  | true =>
    rw [if_pos rfl, regMismatch_eq] at hexec
    generalize hm : mismatched d (evaluated d tau cmdf bad s) = m at hexec
    have hregn : m.regn d = { s.regn d with
        tau := tau, cmdf := cmdf, inputBad := bad, fresh := false, lastEval := s.now, mismatch := true } := by
      rw [← hm, mismatched_regn]; simp [evaluated]
    have hpar : parGet m 9 (0x20F + 32 * d) = counted (parGet s 9 (0x20F + 32 * d)) 1 := by rw [← hm]; exact mismatched_counts d _
    have hdrives : m.drives = s.drives := by rw [← hm]; rfl
    have hdrive : m.drive d = s.drive d := by unfold State.drive; rw [hdrives]
    obtain ⟨hkept, hparams, _, _⟩ := confirmed_keeps d s.now m
    have hown := hkept d
    rw [hregn] at hown
    have hmis : ((confirmed d s.now m).regn d).mismatch = true := (congrArg Registration.mismatch hown :)
    refine ⟨_, hexec, (congrArg Registration.fresh hown :), (congrArg Registration.lastEval hown :),
      fun ht => (confirmed_drives (by rw [hregn]; exact ht)).trans hdrives,
      fun h => ⟨(congrArg Registration.inputBad hown :).trans (hbad h).1, hmis, by rw [hparams _ (by omega), hpar], fun hrun hat ht => ?_⟩,
      fun h => absurd (hmis.symm.trans h) (by decide)⟩
    rw [confirmed_starts (by rw [hdrive]; exact hrun) (by rw [hdrive]; exact hat) (by rw [hregn]; exact ht)]
    simp

end Mismatch

/-- Settles O53: ENABLE, the timers of the drives, and Registration. -/
theorem stopOutTimers : Obligations.StopOutTimers := by
  unfold Obligations.StopOutTimers
  intro s
  refine ⟨⟨_, enableChange_quiet (.inl rfl), rfl⟩, fun hen hawake hop => enableChange_raises hen hawake hop,
    fun h => enableChange_quiet (.inr h), fun d hd => ⟨fun hdst harch hdue hclass hexempt hauto happly hheld =>
      ss2Delay_moves hd hdst harch hdue hclass hexempt hauto happly hheld,
    fun hdst helapsed => ⟨stopTime_waits hd hdst (decide_eq_true helapsed), stopTime_ends hd hdst (decide_eq_true helapsed)⟩,
    fun ts hts hdis hstr hbled => dischargeTimeout_ends hd hts hdis hstr hbled,
    fun ts hts hdis hlate hopen => dischargeTimeout_fails hd hts hdis hlate hopen, fun hover => dschHold_releases hd hover,
    fun a b c hcodes hfresh hconv herrs hmark => registrationEvaluation_judges hd hcodes hfresh hconv herrs hmark,
    fun e he hconv hend => ?_⟩⟩
  subst he
  exact regEvalGap_counts hd hconv hend

end Sys2Proof.Proofs
end

section
/-!
PROOFS. O54: the Plate pair compared, split and joined (R325 to R343).
-/
namespace Sys2Proof.Proofs
open Sys2Proof.Machine Sys2Proof.Safety Sys2Proof.Laws

variable {s : State}

/-! A pair restart (R337). -/

/-- What stands when a pair restart has begun: the cores stopped, unit 0x01 in reset, and memory and events as they were. -/
structure Restarted (s t : State) : Prop where
  mode : t.plate.mode = .restarting
  resetting : t.pwr.resetting = some .pair
  inReset : t.folio.inReset = true
  tags : t.folio.tags = []
  inq : t.book.inq = s.book.inq
  cells : t.mem.cells = s.mem.cells
  nv : t.nv = s.nv

theorem foldl_parSet (l : Tbl Word) : ∀ s : State, ∃ P, l.foldl (fun s e => parSet s 8 (e.1 % 0x10000) e.2) s = { s with par := P } := by
  induction l with
  | nil => exact fun s => ⟨s.par, rfl⟩
  | cons e l ih =>
    intro s
    obtain ⟨P, hP⟩ := ih (parSet s 8 (e.1 % 0x10000) e.2)
    exact ⟨P, hP⟩

/-- Unit 0x08 in its reset state is parameters and the pair's own state. -/
theorem plateReset_resets (kept : Bool) (s : State) : ∃ P p, plateReset kept s = { s with par := P, plate := p } := by
  unfold plateReset
  extract_lets l q cleared counted
  obtain ⟨P, hP⟩ : ∃ P, counted = { s with par := P } := by
    unfold counted
    split
    · exact foldl_parSet l cleared
    · exact ⟨_, rfl⟩
  clear_value counted
  subst hP
  exact ⟨P, _, rfl⟩

theorem pairRestart_restarts (h : s.pwr.resetting = none) : Restarted s (pairRestart s) := by
  have heq : pairRestart s = { updPlate (parCount (plateReset true (folioReset s)) 8 6 1) fun p => { p with mode := .restarting } with
      pwr := { (folioReset s).pwr with resetting := some .pair, resetCode := 5 } } := by
    obtain ⟨P, p, hP⟩ := plateReset_resets true (folioReset s)
    refine (if_neg (by simp [h])).trans ?_
    rw [hP]
    rfl
  obtain ⟨P, p, hP⟩ := plateReset_resets true (folioReset s)
  rw [heq, hP]
  exact ⟨rfl, rfl, rfl, rfl, rfl, rfl, rfl⟩

/-- A fault of the pair is raised, and the pair restarts. -/
theorem pairFault_restarts {code : Nat} {args : List Word} (hc : code ≠ 0x0902) (h : s.pwr.resetting = none) :
    Restarted (raise s code 0 args) (pairFault code args s) ∧ Raised s (pairFault code args s) code 0 args ∧
    (pairFault code args s).mem.cells = s.mem.cells ∧ (pairFault code args s).nv = s.nv := by
  have hev : EvStep s (raise s code 0 args) := ev_raise (.refl s)
  have hraised : Raised s (raise s code 0 args) code 0 args := raise_raises s hc 0 args
  have hrestart : Restarted (raise s code 0 args) (pairFault code args s) := pairRestart_restarts (by rw [hev.pwr]; exact h)
  refine ⟨hrestart, ?_, hrestart.cells.trans hev.mem_cells, hrestart.nv.trans hev.nv⟩
  unfold Raised
  rw [hrestart.inq]
  exact hraised

/-- The parts of a fault of the pair that the statement names. -/
theorem pairFault_faults {u : State} {code : Nat} {args : List Word} (hc : code ≠ 0x0902) (h : u.pwr.resetting = none)
    (hnow : u.now = s.now) (htim : u.tim = s.tim) (hcells : u.mem.cells = s.mem.cells) (hnv : u.nv = s.nv) :
    Raised s (pairFault code args u) code 0 args ∧ (pairFault code args u).plate.mode = .restarting ∧
    (pairFault code args u).pwr.resetting = some .pair ∧ (pairFault code args u).folio.inReset = true ∧
    (pairFault code args u).folio.tags = [] ∧ (pairFault code args u).mem.cells = s.mem.cells ∧ (pairFault code args u).nv = s.nv := by
  obtain ⟨hrestart, hraised, hc', hn'⟩ := pairFault_restarts (args := args) hc h
  exact ⟨raised_of hraised hnow (congrArg Timing.timeValid htim), hrestart.mode, hrestart.resetting, hrestart.inReset, hrestart.tags,
    hc'.trans hcells, hn'.trans hnv⟩

/-- What a divergence leaves, of a state that differs in the pair's own part. -/
theorem divergence_diverges {u : State} (n : Nat) (h : u.pwr.resetting = none) (hnow : u.now = s.now) (htim : u.tim = s.tim)
    (hcells : u.mem.cells = s.mem.cells) (hnv : u.nv = s.nv) :
    Raised s (divergence n u) 0x0801 0 [wrd n] ∧ (divergence n u).plate.mode = .restarting ∧
    (divergence n u).pwr.resetting = some .pair ∧ (divergence n u).folio.inReset = true ∧
    (divergence n u).folio.tags = [] ∧ (divergence n u).mem.cells = s.mem.cells ∧ (divergence n u).nv = s.nv := by
  unfold divergence
  exact pairFault_faults (u := parSet u 8 7 (wrd n)) (by decide) h hnow htim hcells hnv

/-- An event raised before a divergence stays. -/
theorem raised_divergence {u : State} {code i n : Nat} {args : List Word} (h : Raised s u code i args) (hc : code ≠ 0x0902)
    (hreset : u.pwr.resetting = none) : Raised s (divergence n u) code i args := by
  have hset : Raised s (parSet u 8 7 (wrd n)) code i args := h
  have hres : (parSet u 8 7 (wrd n)).pwr.resetting = none := hreset
  unfold divergence pairFault
  generalize parSet u 8 7 (wrd n) = v at hset hres
  have hev : EvStep v (raise v 0x0801 0 [wrd n]) := ev_raise (.refl v)
  have hrestart : Restarted (raise v 0x0801 0 [wrd n]) (pairRestart (raise v 0x0801 0 [wrd n])) :=
    pairRestart_restarts (by rw [hev.pwr]; exact hres)
  unfold Raised
  rw [hrestart.inq]
  exact raised_after hset hc hev

/-! The pair while it is compared. -/

section Compared
variable (h : compared s = true)
include h

theorem runs_of_compared : coresRun s = true := by
  unfold compared at h
  exact (Bool.and_eq_true_iff.1 h).1

theorem whole_of_compared : splitMode s.plate.mode = false := by
  unfold compared at h
  simpa using (Bool.and_eq_true_iff.1 h).2

end Compared

theorem resetting_of_runs (h : coresRun s = true) : s.pwr.resetting = none := by
  unfold coresRun at h
  simp only [Bool.and_eq_true, decide_eq_true_eq] at h
  tauto

/-! Transactions (R327, R331). -/

section Transactions
variable (h : compared s = true) (hbuf : s.plate.cbuf = []) (hnext : s.plate.cbufNext = []) (hlp : s.mem.lpStore = [])
include h hbuf hnext hlp

/-- The compare buffer with the one transaction that Plate has reached. -/
def heldTxn (x : Txn) (n : Nat) (s : State) : State := updPlate s fun p => { p with
  cbuf := [x], cbufNext := [], retC := max p.retC n, retP := max (max p.retP x.num) (n + 2) }

/-- The buffer once the copy of its transaction has come. -/
def releasedTxn (x : Txn) (n : Nat) (s : State) : State :=
  updPlate (heldTxn x n s) fun p => { p with cbuf := p.cbuf.filter fun z => z.num ≠ n }

/-- The one transaction held is judged by its copy. -/
theorem transactionCompare_judges {x y : Txn} (hnum : x.num = y.num) : exec (.transactionCompare [x] y 1) s = .next
    (if x ≠ y then divergence y.num (heldTxn x y.num s)
     else
       if consumedMark (releasedTxn x y.num s) y ≠ 0 then
         plateConsumes (consumedMark (releasedTxn x y.num s) y)
           (releasedTxn x y.num s)
       else releaseTxn y (releasedTxn x y.num s)) := by
  have hruns := runs_of_compared h
  have hwhole := whole_of_compared h
  have hreach : plateReaches (8 - ([] : List Txn).length - ([] : List (Nat × Word × Nat × Mark)).length) y.num [x.num] = 1 := by
    simp [plateReaches, hnum]
  have hfind : [x].find? (fun p => decide (p.num = y.num)) = some x := by simp [hnum]
  refine congrArg Host.Outcome.next ((if_neg (by rw [hruns]; decide)).trans ((if_neg (by rw [hwhole]; decide)).trans ?_))
  simp only [hbuf, hnext, hlp, List.nil_append, List.map_cons, List.map_nil, hreach, List.take_one, List.head?_cons, Option.toList_some,
    List.drop_one, List.tail_cons, hfind]
  exact if_neg (by decide)

/-- Unequal copies store nothing and restart the pair. -/
theorem transactionCompare_diverges {x y : Txn} (hne : x ≠ y) (hnum : x.num = y.num) : ∃ t, exec (.transactionCompare [x] y 1) s = .next t ∧
    Raised s t 0x0801 0 [wrd y.num] ∧ t.plate.mode = .restarting ∧ t.pwr.resetting = some .pair ∧ t.folio.tags = [] ∧
    t.mem.cells = s.mem.cells ∧ t.nv = s.nv := by
  have hexec := transactionCompare_judges h hbuf hnext hlp hnum
  rw [if_pos hne] at hexec
  obtain ⟨hraised, hmode, hreset, _, htags, hcells, hnv⟩ := divergence_diverges (s := s) (u := heldTxn x y.num s) y.num
    (resetting_of_runs (runs_of_compared h)) rfl rfl rfl rfl
  exact ⟨_, hexec, hraised, hmode, hreset, htags, hcells, hnv⟩

omit h hbuf hnext hlp in
theorem mergeBytes_whole (s : State) (a : Nat) (v : Word) : mergeBytes s a v 15 = v := by
  unfold mergeBytes
  extract_lets waiting old m
  have hm : m = BitVec.allOnes 32 := by
    change wrd ((List.range 4).foldl (fun n k => if (15 : Nat).testBit k then n + 255 * 2 ^ (8 * k) else n) 0) = BitVec.allOnes 32
    decide
  rw [hm, BitVec.not_allOnes, BitVec.and_zero, BitVec.zero_or, BitVec.and_allOnes]

omit h hbuf hnext hlp in
theorem namesLp_of_memOf {a : Nat} (h : memOf a ≠ 2) : namesLp a = false := by
  have hlow : ¬ lpBase ≤ a := fun hle => h (by
    unfold memOf
    rw [if_neg (by unfold lpBase at hle; omega), if_neg (by omega)])
  unfold namesLp
  simp [hlow]

omit h hbuf hnext hlp in
/-- A store of a whole word outside LPDDR5 and the firmware slots lands as it is. -/
theorem landStore_lands {a : Nat} {v : Word} (hmem : memOf a ≠ 2) (hshut : mramShut s a = false) (hslot : a < slotBase 0 ∨ slotBase 2 ≤ a) :
    landStore a v 15 .none s = storeRange a [v] s := by
  have hname : ¬ (namesLp a && !s.mem.lpOnline) = true := by rw [namesLp_of_memOf hmem]; exact Bool.false_ne_true
  have hmerge := mergeBytes_whole s a v
  have htouch (u : State) : touchSlot a u = u := if_neg (by omega)
  refine (if_neg (by rw [hshut]; decide)).trans ((if_neg hname).trans ?_)
  rw [if_pos (by decide : 15 % 16 = 15)]
  dsimp only
  rw [hmerge, htouch]
  exact if_neg fun hne => hne rfl

omit h hbuf hnext hlp in
theorem releaseTxn_stores {x : Txn} {a : Nat} {v : Word} (hx : x.what = .store a v 15 0) (hmem : memOf a ≠ 2)
    (hshut : mramShut s a = false) (hslot : a < slotBase 0 ∨ slotBase 2 ≤ a) (hregion : (regionAt s a).isSome = true) (hal : a % 4 = 0) :
    consumedMark s x = 0 ∧ releaseTxn x s = storeRange a [v] s := by
  have hname := namesLp_of_memOf hmem
  have hbad : ¬ ((regionAt s a).isNone || decide (a % 4 ≠ 0)) = true := by
    rw [Option.isNone_eq_false_iff.2 hregion, hal]; decide
  have hwait : ¬ (s.mem.lpOnline && lpWaits s a 1 true) = true := by
    unfold lpWaits
    rw [hname, Bool.false_and, Bool.and_false]
    decide
  have hnote : lpNote s a = s := if_neg (by rw [hname]; decide)
  unfold consumedMark releaseTxn
  rw [hx]
  refine ⟨ite_self 0, (if_neg hbad).trans ((if_neg hwait).trans ?_)⟩
  rw [hnote]
  exact landStore_lands hmem hshut hslot

/-- Equal copies release the store. -/
theorem transactionCompare_stores {x : Txn} {a : Nat} {v : Word} (hx : x.what = .store a v 15 0) (hmem : memOf a ≠ 2)
    (hshut : mramShut s a = false) (hslot : a < slotBase 0 ∨ slotBase 2 ≤ a) (hregion : (regionAt s a).isSome = true) (hal : a % 4 = 0) :
    ∃ t, exec (.transactionCompare [x] x 1) s = .next t ∧ readWord t a = v ∧
      (∀ b, b < a ∨ a + 4 ≤ b → readByte t b = readByte s b) ∧ t.plate.cbuf = [] ∧ t.nv = s.nv ∧ t.plate.mode = s.plate.mode := by
  have hregion' : (regionAt (releasedTxn x x.num s) a).isSome = true := by
    rw [regionAt_congr (s := s) (t := releasedTxn x x.num s) rfl]; exact hregion
  obtain ⟨hmark, hrelease⟩ := releaseTxn_stores (s := releasedTxn x x.num s) hx hmem hshut hslot hregion' hal
  have hexec := transactionCompare_judges h hbuf hnext hlp (x := x) (y := x) rfl
  rw [if_neg (not_not.2 rfl), if_neg (not_not.2 hmark), hrelease] at hexec
  obtain ⟨⟨P, M, q, hstep, _⟩, hout, hback⟩ := storeRange_step [v] a (releasedTxn x x.num s)
  have hlands : Lands (releasedTxn x x.num s) a := .inl hmem
  have hread := hback (fun i hi => by
    have hi' : i = 0 := Nat.lt_one_iff.1 hi
    rw [hi']
    exact hlands) 0 Nat.zero_lt_one
  have hempty : (releasedTxn x x.num s).plate.cbuf = [] := by
    change [x].filter (fun z => decide (z.num ≠ x.num)) = []
    simp
  refine ⟨_, hexec, hread, fun b hb => hout b hb, ?_, ?_, ?_⟩
  · rw [hstep]; exact hempty
  · rw [hstep]; rfl
  · rw [hstep]; rfl

end Transactions

/-! The delay queue (R328, R329). -/

section Delay
variable (h : compared s = true) {e : DelayEntry} {l : List DelayEntry} (hq : s.plate.dq = e :: l) (hnext : s.plate.dqNext = [])
include h hq hnext

/-- The delay queue without its oldest entry. -/
def dqTaken (l : List DelayEntry) (n : Nat) (s : State) : State := updPlate s fun p => { p with
  dq := l, dqNext := [], dqHead := (p.dqHead + 1) % 8, retC := max p.retC n, retP := max p.retP (n + 2) }

theorem delayQueueTake_takes (r : ReadReq) (ok : Bool) : exec (.delayQueueTake [] r ok) s = .next
    (if !ok then pairFault 0x0805 [wrd s.plate.dqHead] (dqTaken l r.num s)
     else if e.req ≠ r then divergence r.num (dqTaken l r.num s) else dqTaken l r.num s) := by
  have hruns := runs_of_compared h
  have hwhole := whole_of_compared h
  refine congrArg Host.Outcome.next ((if_neg (by rw [hruns]; decide)).trans ((if_neg (by rw [hwhole]; decide)).trans ?_))
  simp only [hnext, List.nil_append, List.take_nil, List.drop_nil]
  split
  next heq => exact absurd (hq.symm.trans heq) (List.cons_ne_nil e l)
  next e' l' heq =>
    obtain ⟨rfl, rfl⟩ := List.cons.inj (heq.symm.trans hq)
    rfl

theorem delayQueueTake_moves : ∃ t, exec (.delayQueueTake [] e.req true) s = .next t ∧ t.plate.dq = l ∧ t.plate.mode = s.plate.mode ∧
    t = { s with plate := t.plate } := by
  have hexec := delayQueueTake_takes h hq hnext e.req true
  rw [if_neg (by decide), if_neg (not_not.2 rfl)] at hexec
  exact ⟨_, hexec, rfl, rfl, rfl⟩

theorem delayQueueTake_diverges {r : ReadReq} (hne : e.req ≠ r) : ∃ t, exec (.delayQueueTake [] r true) s = .next t ∧
    Raised s t 0x0801 0 [wrd r.num] ∧ t.plate.mode = .restarting ∧ t.pwr.resetting = some .pair := by
  have hexec := delayQueueTake_takes h hq hnext r true
  rw [if_neg (by decide), if_pos hne] at hexec
  obtain ⟨hraised, hmode, hreset, _⟩ := divergence_diverges (s := s) (u := dqTaken l r.num s) r.num
    (resetting_of_runs (runs_of_compared h)) rfl rfl rfl rfl
  exact ⟨_, hexec, hraised, hmode, hreset⟩

theorem delayQueueTake_faults (r : ReadReq) : ∃ t, exec (.delayQueueTake [] r false) s = .next t ∧
    Raised s t 0x0805 0 [wrd s.plate.dqHead] ∧ t.plate.mode = .restarting := by
  have hexec := delayQueueTake_takes h hq hnext r false
  rw [if_pos (by decide)] at hexec
  obtain ⟨hraised, hmode, _⟩ := pairFault_faults (s := s) (u := dqTaken l r.num s) (code := 0x0805) (args := [wrd s.plate.dqHead]) (by decide)
    (resetting_of_runs (runs_of_compared h)) rfl rfl rfl rfl
  exact ⟨_, hexec, hraised, hmode⟩

end Delay

/-! Samples of inputs (R333 to R335). -/

section Samples
variable (h : compared s = true)
include h

theorem asyncInputRead_runs (what : AsyncInput) (p c : Nat) : exec (.asyncInputRead what p c) s = .next
    (if samplesAgree what p c then { s with tim := { s.tim with fwTime := if what = .time then p else s.tim.fwTime } }
     else disagreement { s with tim := { s.tim with fwTime := if what = .time then p else s.tim.fwTime } }) := by
  have hruns := runs_of_compared h
  have hwhole := whole_of_compared h
  have htime : (if what = .time then { s with tim := { s.tim with fwTime := p } } else s) =
      { s with tim := { s.tim with fwTime := if what = .time then p else s.tim.fwTime } } := by split <;> rfl
  refine congrArg Host.Outcome.next ((if_neg (by rw [hruns]; decide)).trans ?_)
  dsimp only
  rw [htime]
  dsimp only
  rw [hwhole, Bool.false_or]

omit h in
theorem samplesAgree_self (what : AsyncInput) (p : Nat) : samplesAgree what p p = true := by
  unfold samplesAgree
  split <;> simp

theorem asyncInputRead_agrees (what : AsyncInput) (p : Nat) : ∃ t, exec (.asyncInputRead what p p) s = .next t ∧
    t = { s with tim := { s.tim with fwTime := if what = .time then p else s.tim.fwTime } } :=
  ⟨_, (asyncInputRead_runs h what p p).trans (congrArg Host.Outcome.next (if_pos (samplesAgree_self what p))), rfl⟩

omit h in
/-- The ticks that a window can still hold are those of the window, with that of now. -/
theorem inWindow_now (d : Nat) (hd : 0 < d) (l : List Nat) (u : State) (hn : u.now = s.now) :
    inWindow u d (s.now :: notOver s d l) = s.now :: inWindow s d l := by
  unfold inWindow notOver
  have hnow : inSlide s.now s.now d = true := by unfold inSlide; simp [hd]
  rw [hn, List.filter_cons_of_pos (p := fun t => inSlide s.now t d) hnow, List.filter_filter]
  congr 1
  refine List.filter_congr fun t _ => ?_
  unfold inSlide
  cases decide (s.now < t + d) <;> simp

omit h in
/-- A disagreement is counted, and more than 3 in 1 ms are raised. -/
theorem disagreement_counts (s : State) : parGet (disagreement s) 8 5 = counted (parGet s 8 5) 1 ∧
    (disagreement s).plate.disagree = s.now :: notOver s 400000 s.plate.disagree ∧
    (3 ≤ (inWindow s 400000 s.plate.disagree).length →
      Raised s (disagreement s) 0x0803 0 [wrd ((inWindow s 400000 s.plate.disagree).length + 1)]) ∧
    (disagreement s).plate.mode = s.plate.mode ∧ (disagreement s).nv = s.nv := by
  unfold disagreement
  extract_lets u v
  have hpar : parGet v 8 5 = counted (parGet s 8 5) 1 := parGet_parCount_self u 8 5 1
  have hplate : v.plate = { s.plate with disagree := s.now :: notOver s 400000 s.plate.disagree } := rfl
  have hcount : disagreeCount v = (inWindow s 400000 s.plate.disagree).length + 1 := by
    unfold disagreeCount
    rw [hplate]
    exact congrArg List.length (inWindow_now 400000 (by decide) s.plate.disagree v rfl)
  have hnow : v.now = s.now := rfl
  have htim : v.tim = s.tim := rfl
  have hnv : v.nv = s.nv := rfl
  clear_value v
  split
  · have hev : EvStep v (raise v 0x0803 0 [wrd (disagreeCount v)]) := ev_raise (.refl v)
    refine ⟨(parGet_of_evStep hev (by decide) (by decide) (by decide)).trans hpar, by rw [hev.plate, hplate], fun _ => ?_,
      by rw [hev.plate, hplate], hev.nv.trans hnv⟩
    rw [← hcount]
    exact raised_of (raise_raises v (by decide) 0 _) hnow (congrArg Timing.timeValid htim)
  next hfew => exact ⟨hpar, by rw [hplate], fun hmany => absurd hmany (by omega), by rw [hplate], hnv⟩

theorem asyncInputRead_disagrees {what : AsyncInput} {p c : Nat} (hdis : samplesAgree what p c = false) :
    ∃ t, exec (.asyncInputRead what p c) s = .next t ∧
      parGet t 8 5 = counted (parGet s 8 5) 1 ∧ t.plate.disagree = s.now :: notOver s 400000 s.plate.disagree ∧
      (3 ≤ (inWindow s 400000 s.plate.disagree).length →
        Raised s t 0x0803 0 [wrd ((inWindow s 400000 s.plate.disagree).length + 1)]) ∧ t.plate.mode = s.plate.mode := by
  obtain ⟨hpar, hlist, hraise, hmode, _⟩ :=
    disagreement_counts { s with tim := { s.tim with fwTime := if what = .time then p else s.tim.fwTime } }
  exact ⟨_, (asyncInputRead_runs h what p c).trans (congrArg Host.Outcome.next (if_neg (by rw [hdis]; decide))), hpar, hlist,
    fun hmany => raised_of (hraise hmany) rfl rfl, hmode⟩

theorem interruptDecision_reads (p c : Nat) : exec (.interruptDecision p c) s = exec (.asyncInputRead .level p c) s ∧
    ∃ t, exec (.interruptDecision p c) s = .next t ∧ t.nv = s.nv := by
  have hread := asyncInputRead_runs h .level p c
  have hexec : exec (.interruptDecision p c) s = .next (if (!compared s || decide (p = c)) then s else disagreement s) := rfl
  rw [h] at hexec
  have hsame : samplesAgree .level p c = decide (p = c) := rfl
  rw [hsame] at hread
  by_cases hpc : p = c
  · rw [if_pos (by simp [hpc])] at hexec
    rw [if_pos (by simp [hpc])] at hread
    exact ⟨hexec.trans hread.symm, _, hexec, rfl⟩
  · rw [if_neg (by simp [hpc])] at hexec
    rw [if_neg (by simp [hpc])] at hread
    exact ⟨hexec.trans hread.symm, _, hexec, (disagreement_counts s).2.2.2.2⟩

end Samples

/-! The watchdog (R336). -/

theorem watchdog_restarts (h : coresRun s = true) (hdue : s.plate.wdTick + 388000 ≤ s.now) : ∃ t, exec .watchdog s = .next t ∧
    Raised s t 0x080A 0 [] ∧ t.plate.mode = .restarting ∧ t.pwr.resetting = some .pair ∧ t.folio.inReset = true := by
  have hreset := resetting_of_runs h
  have hrun := h
  unfold coresRun at hrun
  simp only [Bool.and_eq_true, decide_eq_true_eq] at hrun
  have hexec : exec .watchdog s = .next (pairFault 0x080A [] s) := congrArg Host.Outcome.next (if_pos (by
    unfold watchdogTicks
    rw [h]
    exact ⟨rfl, by tauto, hdue, hreset, by tauto, by tauto⟩))
  obtain ⟨hraised, hmode, hres, hin, _⟩ := pairFault_faults (s := s) (code := 0x080A) (args := []) (by decide) hreset rfl rfl rfl rfl
  exact ⟨_, hexec, hraised, hmode, hres, hin⟩

/-! Checkpoints (R338 to R340). -/

/-- The tick of the watchdog's last service once a checkpoint is over. -/
def servicedAt (s : State) (k : CheckpointData) (c : Instr) : Nat := if c = .checkpoint k then s.plate.wdTick else s.now

/-- The state at a checkpoint, its data taken, before the signatures are compared. -/
def checkpointed (k : CheckpointData) (s : State) : State :=
  parWrap (updPlate s fun p => { p with
    retCk := k.retired, retP := max p.retP k.retired, retC := max p.retC k.retired, wakeCk := false,
    regsP := regTable k.regsP, regsC := regTable k.regsC, marksP := k.marksP, marksC := k.marksC,
    replay := p.replay.filter fun e => decide (k.retired < e.num),
    dbgBusy := p.dbgBusy && p.replay.all fun e => decide (k.retired < e.num) }) 8 3

/-- A report of `code` and the OK of the command that waits for it, if any. -/
def reported (code : Nat) (waiting : Option Nat) (u : State) : State :=
  match waiting with
  | some tag => completeTag tag stOk [] (record u code 0 [])
  | none => record u code 0 []

theorem reported_reports {u : State} (code : Nat) (waiting : Option Nat) (hnow : u.now = s.now) (htim : u.tim = s.tim)
    (hfolio : u.folio = s.folio) : (reported code waiting u).plate = u.plate ∧ (reported code waiting u).pwr = u.pwr ∧
    Raised s (reported code waiting u) code 0 [] ∧
    (∀ tag e, waiting = some tag → tag < 1024 → tagEntry s tag = some e → e.phase = .running →
      Replied s (reported code waiting u) tag 0 []) := by
  have hev : EvStep u (record u code 0 []) := ev_record (.refl u)
  have hraised : Raised s (record u code 0 []) code 0 [] :=
    raised_of (record_raises u code 0 []) hnow (congrArg Timing.timeValid htim)
  cases waiting with
  | none =>
    have hnone : reported code none u = record u code 0 [] := rfl
    rw [hnone]
    exact ⟨hev.plate, hev.pwr, hraised, fun _ _ hnone => nomatch hnone⟩
  | some tag =>
    have hsome : reported code (some tag) u = completeTag tag stOk [] (record u code 0 []) := rfl
    rw [hsome]
    generalize record u code 0 [] = v at hev hraised
    obtain ⟨f, m, hkeep⟩ := completeTag_keeps tag stOk [] v
    refine ⟨by rw [hkeep]; exact hev.plate, by rw [hkeep]; exact hev.pwr, by rw [hkeep]; exact hraised, fun n e hn hsmall he hp => ?_⟩
    obtain rfl := Option.some.inj hn
    exact (completeTag_replied hsmall he (by rw [hp]; decide) (hev.folio_tags.trans (congrArg Folio.tags hfolio))
      (hev.folio_replies.trans (congrArg Folio.replies hfolio))).2

section Checkpoint
variable (h : coresRun s = true) {k : CheckpointData} {c : Instr}
  (hc : (c = .checkpoint k ∧ k.retired = nextCheckpoint s) ∨ (c = .watchdogService k ∧ checkpointAt s k.retired = true))

/-- The state that the checkpoint works on. -/
def servicedState (s : State) (k : CheckpointData) (c : Instr) : State := updPlate s fun p => { p with wdTick := servicedAt s k c }

include h hc in
theorem exec_checkpoint : exec c s = .next (checkpoint k (servicedState s k c)) := by
  unfold servicedState
  have hrun := h
  unfold coresRun at hrun
  simp only [Bool.and_eq_true, Bool.not_eq_true'] at hrun
  obtain ⟨_, hwake⟩ := hrun
  obtain ⟨rfl, hdue⟩ | ⟨rfl, hat⟩ := hc
  · rw [show servicedAt s k (.checkpoint k) = s.plate.wdTick from if_pos rfl]
    exact congrArg Host.Outcome.next ((if_neg (by rw [hwake]; decide)).trans (if_pos ⟨h, hdue⟩))
  · rw [show servicedAt s k (.watchdogService k) = s.now from if_neg Instr.noConfusion]
    exact congrArg Host.Outcome.next (if_pos ⟨h, hat⟩)

omit h hc in
/-- A checkpoint in lock-step or with a split pending compares the copies. -/
theorem checkpoint_compares (hmode : s.plate.mode = .lockstep ∨ s.plate.mode = .splitPending) : checkpoint k s =
    (if !selfTestOk k then pairFault 0x0804 [] (checkpointed k s)
     else if signature k.regsP ≠ signature k.regsC then latentFault k.retired (checkpointed k s)
     else
       if s.plate.mode = .splitPending then
         splitNow (updPlate (checkpointed k s) fun p => { p with retP := max p.retP (k.retired + 2) })
       else updPlate (checkpointed k s) fun p => { p with retP := max p.retP (k.retired + 2) }) := by
  have hahead : (if s.plate.mode = .lockstep ∨ s.plate.mode = .splitPending then k.retired + 2 else k.retired) = k.retired + 2 := if_pos hmode
  have hckmode : (checkpointed k s).plate.mode = s.plate.mode := rfl
  unfold checkpoint
  extract_lets n ahead u joined raised
  have hraised : raised = updPlate (checkpointed k s) fun p => { p with retP := max p.retP (k.retired + 2) } :=
    congrArg (fun a => updPlate (checkpointed k s) fun p => { p with retP := max p.retP a }) hahead
  have hu : u = checkpointed k s := rfl
  rw [hraised, hu]
  split
  next hsplit => exact absurd hsplit (by rw [hckmode]; rcases hmode with hm | hm <;> rw [hm] <;> decide)
  next hjoin => exact absurd hjoin (by rw [hckmode]; rcases hmode with hm | hm <;> rw [hm] <;> decide)
  next => rfl

/-- The state `u` with the data of the checkpoint taken. -/
structure CheckpointTaken (s u : State) (k : CheckpointData) (c : Instr) : Prop where
  part : u = { s with plate := u.plate, par := u.par }
  retCk : u.plate.retCk = k.retired
  regsP : u.plate.regsP = regTable k.regsP
  marksP : u.plate.marksP = k.marksP
  wdTick : u.plate.wdTick = servicedAt s k c
  count : parGet u 8 3 = parGet s 8 3 + 1
  mode : u.plate.mode = s.plate.mode
  cbuf : u.plate.cbuf = s.plate.cbuf
  cbufNext : u.plate.cbufNext = s.plate.cbufNext
  dqNext : u.plate.dqNext = s.plate.dqNext
  splitTag : u.plate.splitTag = s.plate.splitTag
  joinTag : u.plate.joinTag = s.plate.joinTag
  latent : u.plate.latent = s.plate.latent

omit h hc in
theorem checkpointed_takes : CheckpointTaken s (checkpointed k (servicedState s k c)) k c := by
  refine ⟨?_, rfl, rfl, rfl, ?_, parGet_parSet_self _ 8 3 _, rfl, rfl, rfl, rfl, rfl, rfl, rfl⟩ <;>
  · unfold checkpointed servicedState
    rfl

omit h hc in
/-- A split with empty buffers reports itself and the command that asked for it. -/
theorem splitNow_reports (hb : s.plate.cbuf = []) (hn : s.plate.cbufNext = []) (hr : s.plate.dqNext = []) : splitNow s =
    reported 0x0806 s.plate.splitTag
      (updPlate s fun p => { p with mode := .split, cbuf := [], cbufNext := [], dq := [], dqNext := [], splitTag := none }) := by
  unfold splitNow
  rw [hb, hn, hr]
  rfl

omit h hc in
theorem checkpoint_joined (hmode : s.plate.mode = .joining) : checkpoint k s = afterJoin (joinNow (checkpointed k s)) := by
  have hck : (checkpointed k s).plate.mode = .joining := hmode
  unfold checkpoint
  extract_lets n ahead u joined raised
  have hu : u = checkpointed k s := rfl
  have hjoined : joined = joinNow (checkpointed k s) := rfl
  rw [hjoined, hu, hck]

/-- The pair once its copies are joined, before the report. -/
def joinedPair (s : State) : State := updPlate s fun p => { p with
  mode := .lockstep, cbuf := [], cbufNext := [], dq := [], dqNext := [], joinTag := none, regsC := p.regsP, marksC := p.marksP,
  retC := p.retP, replay := [] }

omit h hc in
theorem joinNow_reports : joinNow s = reported 0x0807 s.plate.joinTag (joinedPair s) := by
  unfold joinNow joinedPair
  rfl

omit h hc in
theorem afterJoin_self (hsleep : s.pwr.sleepTag = none) (hshut : s.pwr.shutTag = none) : afterJoin s = s := by
  unfold afterJoin
  rw [hsleep]
  exact if_neg fun hn => hn.1 hshut

include h hc

/-- The outcome of a checkpoint that compares the copies. -/
theorem exec_compares (hmode : s.plate.mode = .lockstep ∨ s.plate.mode = .splitPending) : ∃ u, CheckpointTaken s u k c ∧ exec c s = .next
    (if !selfTestOk k then pairFault 0x0804 [] u
     else if signature k.regsP ≠ signature k.regsC then latentFault k.retired u
     else
       if s.plate.mode = .splitPending then splitNow (updPlate u fun p => { p with retP := max p.retP (k.retired + 2) })
       else updPlate u fun p => { p with retP := max p.retP (k.retired + 2) }) :=
  ⟨checkpointed k (servicedState s k c), checkpointed_takes,
    (exec_checkpoint h hc).trans (congrArg Host.Outcome.next (checkpoint_compares (s := servicedState s k c) hmode))⟩

theorem checkpoint_agrees (hsig : signature k.regsP = signature k.regsC) (htest : selfTestOk k = true)
    (hmode : s.plate.mode = .lockstep) : ∃ t, exec c s = .next t ∧
    t.plate.mode = .lockstep ∧ t.plate.retCk = k.retired ∧ t.plate.regsP = regTable k.regsP ∧ t.plate.marksP = k.marksP ∧
    t.plate.wdTick = (if c = .checkpoint k then s.plate.wdTick else s.now) ∧ parGet t 8 3 = parGet s 8 3 + 1 ∧
    t = { s with plate := t.plate, par := t.par } := by
  obtain ⟨u, hu, hexec⟩ := exec_compares h hc (.inl hmode)
  rw [if_neg (by rw [htest]; decide), if_neg (not_not.2 hsig), if_neg (by rw [hmode]; decide)] at hexec
  refine ⟨_, hexec, hu.mode.trans hmode, hu.retCk, hu.regsP, hu.marksP, hu.wdTick, hu.count, ?_⟩
  exact congrArg (fun v => { v with plate := { u.plate with retP := max u.plate.retP (k.retired + 2) } }) hu.part

theorem checkpoint_splits (hsig : signature k.regsP = signature k.regsC) (htest : selfTestOk k = true)
    (hmode : s.plate.mode = .splitPending) (hbuf : s.plate.cbuf = []) (hnext : s.plate.cbufNext = []) (hreads : s.plate.dqNext = []) :
    ∃ t, exec c s = .next t ∧ t.plate.mode = .split ∧ Raised s t 0x0806 0 [] ∧ t.plate.splitTag = none ∧
      (∀ tag e, s.plate.splitTag = some tag → tag < 1024 → tagEntry s tag = some e → e.phase = .running → Replied s t tag 0 []) := by
  obtain ⟨u, hu, hexec⟩ := exec_compares h hc (.inr hmode)
  rw [if_neg (by rw [htest]; decide), if_neg (not_not.2 hsig), if_pos hmode, splitNow_reports
    (s := updPlate u fun p => { p with retP := max p.retP (k.retired + 2) })
    (hu.cbuf.trans hbuf) (hu.cbufNext.trans hnext) (hu.dqNext.trans hreads)] at hexec
  rw [show (updPlate u fun p => { p with retP := max p.retP (k.retired + 2) }).plate.splitTag = s.plate.splitTag from hu.splitTag] at hexec
  obtain ⟨hplate, _, hraised, hreply⟩ := reported_reports (s := s) 0x0806 s.plate.splitTag
    (u := updPlate (updPlate u fun p => { p with retP := max p.retP (k.retired + 2) })
      fun p => { p with mode := .split, cbuf := [], cbufNext := [], dq := [], dqNext := [], splitTag := none })
    (congrArg State.now hu.part :) (congrArg State.tim hu.part :) (congrArg State.folio hu.part :)
  exact ⟨_, hexec, congrArg Plate.mode hplate, hraised, congrArg Plate.splitTag hplate, hreply⟩

theorem checkpoint_joins (hmode : s.plate.mode = .joining) (hsleep : s.pwr.sleepTag = none) (hshut : s.pwr.shutTag = none) :
    ∃ t, exec c s = .next t ∧ t.plate.mode = .lockstep ∧ Raised s t 0x0807 0 [] ∧
      t.plate.regsC = t.plate.regsP ∧ t.plate.marksC = t.plate.marksP ∧ (∀ tag e, s.plate.joinTag = some tag → tag < 1024 →
        tagEntry s tag = some e → e.phase = .running → Replied s t tag 0 []) := by
  have hexec := exec_checkpoint h hc
  rw [checkpoint_joined (s := servicedState s k c) hmode] at hexec
  have hu : CheckpointTaken s (checkpointed k (servicedState s k c)) k c := checkpointed_takes
  generalize checkpointed k (servicedState s k c) = u at hexec hu
  obtain ⟨hplate, hpwr, hraised, hreply⟩ := reported_reports (s := s) 0x0807 s.plate.joinTag (u := joinedPair u)
    (congrArg State.now hu.part :) (congrArg State.tim hu.part :) (congrArg State.folio hu.part :)
  rw [joinNow_reports (s := u), hu.joinTag, afterJoin_self (s := reported 0x0807 s.plate.joinTag (joinedPair u))
    ((congrArg Power.sleepTag (hpwr.trans (congrArg State.pwr hu.part :))).trans hsleep)
    ((congrArg Power.shutTag (hpwr.trans (congrArg State.pwr hu.part :))).trans hshut)] at hexec
  refine ⟨_, hexec, congrArg Plate.mode hplate, hraised, ?_, ?_, hreply⟩
  · rw [hplate]; rfl
  · rw [hplate]; rfl

omit h hc in
/-- More than two divergences of signatures in one second are a divergence, fewer a resynchronisation. -/
theorem latentFault_raises {u : State} (n : Nat) (hreset : u.pwr.resetting = none) (hlatent : u.plate.latent = s.plate.latent)
    (hnow : u.now = s.now) (htim : u.tim = s.tim) : ∃ m, Raised s (latentFault n u) 0x0802 0 [m] ∧
    ((inWindow s 400000000 s.plate.latent).length < 2 →
      (latentFault n u).plate.mode = .resync ∧ parGet (latentFault n u) 8 7 = wrd n) ∧
    (2 ≤ (inWindow s 400000000 s.plate.latent).length → Raised s (latentFault n u) 0x0801 0 [wrd n] ∧
      (latentFault n u).plate.mode = .restarting) := by
  unfold latentFault
  extract_lets noted counted raised
  have hcounted : counted.plate.latent = s.now :: notOver s 400000000 s.plate.latent := by
    change u.now :: notOver u 400000000 u.plate.latent = _
    unfold notOver
    rw [hlatent, hnow]
  have hpar : parGet counted 8 7 = wrd n := parGet_parSet_self _ 8 7 (wrd n)
  have hcnow : counted.now = s.now := hnow
  have hctim : counted.tim = s.tim := htim
  have hcreset : counted.pwr.resetting = none := hreset
  clear_value counted
  have hcount (v : State) (hn : v.now = s.now) (hl : v.plate.latent = s.now :: notOver s 400000000 s.plate.latent) :
      latentCount v = (inWindow s 400000000 s.plate.latent).length + 1 := by
    unfold latentCount
    rw [hl]
    exact congrArg List.length (inWindow_now 400000000 (by decide) s.plate.latent v hn)
  have hev : EvStep counted raised := ev_raise (.refl counted)
  have hraised : Raised s raised 0x0802 0 [wrd (latentCount counted)] :=
    raised_of (raise_raises counted (by decide) 0 _) hcnow (congrArg Timing.timeValid hctim)
  have hmany : latentCount raised = (inWindow s 400000000 s.plate.latent).length + 1 :=
    hcount raised (hev.now.trans hcnow) (by rw [hev.plate]; exact hcounted)
  have hrpar : parGet raised 8 7 = wrd n := (parGet_of_evStep hev (by decide) (by decide) (by decide)).trans hpar
  have hrnow : raised.now = s.now := hev.now.trans hcnow
  have hrtim : raised.tim = s.tim := hev.tim.trans hctim
  have hrreset : raised.pwr.resetting = none := by rw [hev.pwr]; exact hcreset
  clear_value raised
  refine ⟨wrd (latentCount counted), ?_⟩
  by_cases hthree : 3 ≤ latentCount raised
  · rw [if_pos hthree]
    obtain ⟨hdiv, hmode, _⟩ := divergence_diverges (s := raised) (u := raised) n hrreset rfl rfl rfl rfl
    exact ⟨raised_divergence hraised (by decide) hrreset, fun hfew => absurd hfew (by omega),
      fun _ => ⟨raised_of hdiv hrnow (congrArg Timing.timeValid hrtim), hmode⟩⟩
  · rw [if_neg hthree]
    exact ⟨hraised, fun _ => ⟨rfl, hrpar⟩, fun htwo => absurd htwo (by omega)⟩

theorem checkpoint_disagrees (hsig : signature k.regsP ≠ signature k.regsC) (htest : selfTestOk k = true)
    (hmode : s.plate.mode = .lockstep) : ∃ t m, exec c s = .next t ∧ Raised s t 0x0802 0 [m] ∧
    ((inWindow s 400000000 s.plate.latent).length < 2 → t.plate.mode = .resync ∧ parGet t 8 7 = wrd k.retired) ∧
    (2 ≤ (inWindow s 400000000 s.plate.latent).length → Raised s t 0x0801 0 [wrd k.retired] ∧ t.plate.mode = .restarting) := by
  have hreset : s.pwr.resetting = none := resetting_of_runs h
  obtain ⟨u, hu, hexec⟩ := exec_compares h hc (.inl hmode)
  rw [if_neg (by rw [htest]; decide), if_pos hsig] at hexec
  obtain ⟨m, hlatent⟩ := latentFault_raises (s := s) (u := u) k.retired
    ((congrArg (fun v => v.pwr.resetting) hu.part :).trans hreset) hu.latent
    (congrArg State.now hu.part :) (congrArg State.tim hu.part :)
  exact ⟨_, m, hexec, hlatent⟩

theorem checkpoint_fails (htest : selfTestOk k = false) (hmode : s.plate.mode = .lockstep) : ∃ t, exec c s = .next t ∧
    Raised s t 0x0804 0 [] ∧ t.plate.mode = .restarting := by
  have hreset : s.pwr.resetting = none := resetting_of_runs h
  obtain ⟨u, hu, hexec⟩ := exec_compares h hc (.inl hmode)
  rw [if_pos (by rw [htest]; decide)] at hexec
  obtain ⟨hraised, hdown, _⟩ := pairFault_faults (s := s) (u := u) (code := 0x0804) (args := []) (by decide)
    ((congrArg (fun v => v.pwr.resetting) hu.part :).trans hreset) (congrArg State.now hu.part :)
    (congrArg State.tim hu.part :) (congrArg (fun v => v.mem.cells) hu.part :) (congrArg State.nv hu.part :)
  exact ⟨_, hexec, hraised, hdown⟩

end Checkpoint

/-! SPLIT and JOIN, the end of a resynchronisation and of a restart, and the free core (R337, R339 to R342). -/

theorem split_waits {tag : Nat} {ws : List Word} (hmode : s.plate.mode = .lockstep) (h : Starts s tag 0xA2 ws) :
    ∃ t, exec (.split tag) s = .next t ∧ Waiting s t tag ∧
      t.plate.mode = .splitPending ∧ t.plate.splitTag = some tag ∧ t = { s with folio := t.folio, plate := t.plate } := by
  have hbody : bodySplit tag ws (begun s tag) = .wait (updPlate (begun s tag) fun p => { p with
      mode := if p.mode = .resync then .resync else .splitPending, splitTag := some tag }) :=
    checked_nil _ (by
      have hm : (begun s tag).plate.mode = .lockstep := hmode
      simp [hm]) _
  obtain ⟨hrun, hwait⟩ := waits h hbody rfl rfl
  refine ⟨_, congrArg Host.Outcome.next hrun, hwait, ?_, rfl, rfl⟩
  exact if_neg (by rw [show (begun s tag).plate.mode = .lockstep from hmode]; decide)

theorem join_waits {tag : Nat} {ws : List Word} (hmode : s.plate.mode = .split) (h : Starts s tag 0xA3 ws) :
    ∃ t, exec (.join tag) s = .next t ∧ Waiting s t tag ∧
      t.plate.mode = .joining ∧ t.plate.joinTag = some tag ∧ (s.plate.taskResult = 1 → t.plate.taskResult = 4) ∧
      t = { s with folio := t.folio, plate := t.plate } := by
  have hbody : bodyJoin tag ws (begun s tag) = .wait (updPlate (joinStart (begun s tag)) fun p => { p with joinTag := some tag }) :=
    checked_nil _ (by
      have hm : (begun s tag).plate.mode = .split := hmode
      simp [hm]) _
  obtain ⟨hrun, hwait⟩ := waits h hbody rfl rfl
  exact ⟨_, congrArg Host.Outcome.next hrun, hwait, rfl, rfl, fun htask => if_pos htask, rfl⟩

theorem resyncDone_returns (hmode : s.plate.mode = .resync) : ∃ t, exec .resyncDone s = .next t ∧
    t.plate.mode = (if s.plate.splitTag = none then .lockstep else .splitPending) ∧ t.plate.regsC = s.plate.regsP ∧
    t.plate.marksC = s.plate.marksP ∧ t = { s with plate := t.plate } := by
  refine ⟨_, congrArg Host.Outcome.next (if_pos hmode), ?_, rfl, rfl, rfl⟩
  exact ite_not (s.plate.splitTag = none) PairMode.splitPending PairMode.lockstep

theorem pairRestartDone_starts (hreset : s.pwr.resetting = some .pair) (hmode : s.plate.mode = .restarting) :
    ∃ t, exec .pairRestartDone s = .next t ∧ t.plate.mode = .lockstep ∧
      t.pwr.resetting = none ∧ t.pwr.lastReset = 5 ∧ t.folio.inReset = false ∧ Raised s t 0x0F02 5 [] ∧
      wbit (parGet t 1 5) 0 = true ∧ t.nv = s.nv := by
  refine ⟨_, congrArg Host.Outcome.next (if_neg (by rw [hreset, hmode]; simp)), ?_⟩
  extract_lets folio power freed started loaded
  have hload : loaded.now = s.now ∧ loaded.tim = s.tim ∧ loaded.plate.mode = .lockstep ∧ loaded.pwr.resetting = none ∧
      loaded.pwr.lastReset = 5 ∧ loaded.folio.inReset = false ∧ loaded.nv = s.nv := ⟨rfl, rfl, rfl, rfl, rfl, rfl, rfl⟩
  clear_value loaded
  obtain ⟨hnow, htim, hm, hr, hl, hf, hn⟩ := hload
  have hev : EvStep (setAttn loaded 0) (record (setAttn loaded 0) 0x0F02 5 []) := ev_record (.refl _)
  have hraised : Raised s (record (setAttn loaded 0) 0x0F02 5 []) 0x0F02 5 [] :=
    raised_of (record_raises (setAttn loaded 0) 0x0F02 5 []) hnow (congrArg Timing.timeValid htim)
  have hattn : wbit (parGet (record (setAttn loaded 0) 0x0F02 5 []) 1 5) 0 = true :=
    attnKept_record (setAttn loaded 0) 0x0F02 5 [] 0 (wbit_parOr loaded 1 5 (by decide))
  have hin : (record (setAttn loaded 0) 0x0F02 5 []).folio.inReset = loaded.folio.inReset := by
    obtain ⟨⟨_, _, _, _, _, _, _, _, _, _, _, _, _, _, _, _, _, _, _, heq⟩, _, _⟩ := hev
    rw [heq]
    rfl
  exact ⟨by rw [hev.plate]; exact hm, by rw [hev.pwr]; exact hr, by rw [hev.pwr]; exact hl, hin.trans hf, hraised, hattn, hev.nv.trans hn⟩

/-- Settles O54: each clause is the lemma of its row above; the pair counts a divergence or a disagreement in the window that ends now. -/
theorem pairModes : Obligations.PairModes := by
  intro s
  refine ⟨fun h => ⟨?_, ?_, fun e l hq hnext => ⟨?_, ?_, ?_⟩, ?_, ?_⟩, fun h => ⟨watchdog_restarts h, fun k c hc => ⟨?_, ?_, ?_, ?_, ?_⟩⟩,
    fun tag ws hmode h => split_waits hmode h, fun tag ws hmode h => join_waits hmode h, resyncDone_returns,
    fun hreset => ⟨fun hin => congrArg Host.Outcome.next (if_pos ⟨hreset, hin⟩), pairRestartDone_starts hreset⟩, fun hmode htask => ⟨?_, ?_⟩⟩
  · exact fun x a v hx hb hn hlp hmem hshut hslot hreg hal => transactionCompare_stores h hb hn hlp hx hmem hshut hslot hreg hal
  · exact fun x y hne hnum hb hn hlp => transactionCompare_diverges h hb hn hlp hne hnum
  · exact delayQueueTake_moves h hq hnext
  · exact fun r hne => delayQueueTake_diverges h hq hnext hne
  · exact delayQueueTake_faults h hq hnext
  · exact fun what p c => ⟨asyncInputRead_agrees h what p, asyncInputRead_disagrees h⟩
  · exact interruptDecision_reads h
  · exact checkpoint_agrees h hc
  · exact checkpoint_splits h hc
  · exact checkpoint_joins h hc
  · exact checkpoint_disagrees h hc
  · exact fun hmode htest => checkpoint_fails h hc htest hmode
  · intro r hr
    exact congrArg Host.Outcome.next (if_pos ⟨hmode, htask, by simpa using hr⟩)
  · intro hlate
    exact congrArg Host.Outcome.next (if_pos ⟨hmode, htask, by simpa using hlate⟩)

end Sys2Proof.Proofs
end

section
/-!
PROOFS. O57: the debug port (R344 to R347).
-/
namespace Sys2Proof.Proofs
open Sys2Proof.Machine Sys2Proof.Safety Sys2Proof.Laws

variable {s : State}

/-! A halt of the pair (R345). -/

/-- An applied replay log is the pair's own state. -/
theorem applyReplay_plate (s : State) : applyReplay s = { s with plate := (applyReplay s).plate } := rfl

/-- The state that halts, before its event. -/
def haltedPair (s : State) : State :=
  applyReplay (updPlate s fun p => { p with halted := true, retC := if splitMode p.mode then p.retC else p.retP })

theorem haltPair_halts (s : State) : (haltPair s).plate.halted = true ∧
    Raised s (haltPair s) 0x0809 0 [wrd ((haltPair s).plate.retP + 1)] ∧
    (haltPair s).plate.retP = s.plate.retP ∧ Reacted { s with plate := (haltPair s).plate } (haltPair s) := by
  have heq : haltPair s = raise (haltedPair s) 0x0809 0 [wrd (s.plate.retP + 1)] := rfl
  have hstate : haltedPair s = { s with plate := (haltedPair s).plate } := rfl
  have hhalt : (haltedPair s).plate.halted = true := rfl
  have hret : (haltedPair s).plate.retP = s.plate.retP := rfl
  have hev : EvStep (haltedPair s) (haltPair s) := ev_raise (.refl (haltedPair s))
  have hraised : Raised s (haltPair s) 0x0809 0 [wrd (s.plate.retP + 1)] :=
    raised_of (raise_raises (haltedPair s) (by decide) 0 [wrd (s.plate.retP + 1)]) rfl rfl
  rw [hstate] at hev
  generalize haltedPair s = u at hev hhalt hret
  generalize haltPair s = t at hev hraised ⊢
  have hplate : t.plate = u.plate := hev.plate
  rw [hplate]
  exact ⟨hhalt, by rw [hret]; exact hraised, hret, reacted_of_evStep hev⟩

section Debug
variable (h : s.plate.debug = .unlocked)
include h

theorem debugOn_unlocked : debugOn s = true := decide_eq_true h

theorem exec_debugHalt (hrun : coresRun s = true) : exec .debugHalt s = .next (haltPair s) :=
  congrArg Host.Outcome.next (if_pos ⟨debugOn_unlocked h, hrun⟩)

theorem exec_breakpointHit (hrun : coresRun s = true) {k : Nat} (hk : k < 6) (hset : tblGet s.plate.bps none k ≠ none) :
    exec (.breakpointHit k) s = .next (haltPair s) :=
  congrArg Host.Outcome.next (if_pos ⟨debugOn_unlocked h, hrun, hk, hset⟩)

/-! The halted pair. -/

theorem debugResume_resumes (hhalt : s.plate.halted = true) : ∃ t, exec .debugResume s = .next t ∧ t.plate.halted = false ∧
    t.plate.wdTick = s.now ∧ t.plate.regsP = s.plate.regsP ∧ t = { s with plate := t.plate } :=
  ⟨_, congrArg Host.Outcome.next (if_pos ⟨debugOn_unlocked h, hhalt⟩), rfl, rfl, rfl, rfl⟩

theorem debugStep_steps (hhalt : s.plate.halted = true) : ∃ t, exec .debugStep s = .next t ∧ t.plate.halted = true ∧
    t.plate.retP = s.plate.retP + 1 ∧ (splitMode s.plate.mode = false → t.plate.retC = t.plate.retP) ∧ t = { s with plate := t.plate } :=
  ⟨_, congrArg Host.Outcome.next (if_pos ⟨debugOn_unlocked h, hhalt⟩), hhalt, rfl, fun hwhole => if_neg (by
    rw [show (applyReplay s).plate.mode = s.plate.mode from rfl, hwhole]
    exact Bool.false_ne_true), rfl⟩

end Debug

/-! The replay log (R346). -/

/-- The state with one action of the debugger entered in the replay log. -/
def logged (r : Nat) (v : Word) (act : State → State) (s : State) : State :=
  updPlate (act s) fun p => { p with replay := p.replay ++ [{ num := p.retP, reg := r, value := v }] }

/-- An action on an empty replay log is entered and, where Counterproof has reached it, applied. -/
theorem logAction_logs (r : Nat) (v : Word) (act : State → State) (hempty : s.plate.replay = []) :
    logAction r v act s = applyReplay (logged r v act (applyReplay s)) := by
  have hlog : (applyReplay s).plate.replay = [] := by
    change s.plate.replay.filter _ = []
    rw [hempty]
    rfl
  exact if_neg (by rw [hlog]; decide)

/-- An action on the pair's own state, logged and applied, stays the pair's own. -/
theorem logged_plate (r : Nat) (v : Word) (f : Plate → Plate) (s : State) :
    ∃ q, applyReplay (logged r v (fun s => updPlate s f) (applyReplay s)) = { s with plate := q } := by
  have hfirst := applyReplay_plate s
  generalize applyReplay s = u at hfirst
  rw [hfirst]
  exact ⟨_, applyReplay_plate _⟩

/-- A replay log of one entry is applied when its number is reached, and kept otherwise. -/
theorem applyReplay_one {e : ReplayEntry} (hlog : s.plate.replay = [e]) :
    (e.num ≤ s.plate.retC → (applyReplay s).plate.replay = [] ∧
      (applyReplay s).plate.regsC = if e.reg < 41 then tblSet s.plate.regsC 0 e.reg e.value else s.plate.regsC) ∧
    (s.plate.retC < e.num → (applyReplay s).plate.replay = [e] ∧ (applyReplay s).plate.regsC = s.plate.regsC) := by
  unfold applyReplay
  simp only [hlog]
  constructor
  · intro hle
    simp [updPlate, hle]
  · intro hlt
    have hnot : ¬ e.num ≤ s.plate.retC := by omega
    simp [updPlate, hnot]

theorem debugRegisterWrite_writes (h : s.plate.debug = .unlocked) (hhalt : s.plate.halted = true) {r : Nat} (hr : r < 41) (v : Word)
    (hempty : s.plate.replay = []) : ∃ t, exec (.debugRegisterWrite r v) s = .next t ∧ tblGet t.plate.regsP 0 r = v ∧
      t.plate.marksP = unmark s.plate.marksP r ∧
      (∀ q, q ≠ r → tblGet t.plate.regsP 0 q = tblGet s.plate.regsP 0 q) ∧
      (s.plate.retP ≤ s.plate.retC → tblGet t.plate.regsC 0 r = v ∧ t.plate.replay = []) ∧
      (s.plate.retC < s.plate.retP → t.plate.replay = [⟨s.plate.retP, r, v⟩] ∧ t.plate.regsC = s.plate.regsC) ∧
      t = { s with plate := t.plate } := by
  have hlogs := logAction_logs (s := s) r v
    (fun s => updPlate s fun p => { p with regsP := tblSet p.regsP 0 r v, marksP := unmark p.marksP r }) hempty
  have hexec : exec (.debugRegisterWrite r v) s = .next _ :=
    congrArg Host.Outcome.next ((if_pos ⟨debugOn_unlocked h, hhalt, hr⟩).trans hlogs)
  have hregs : (applyReplay s).plate.regsC = s.plate.regsC := by
    change (s.plate.replay.filter _).foldl _ _ = _
    rw [hempty]
    rfl
  obtain ⟨hnow, hlater⟩ := applyReplay_one (e := ⟨s.plate.retP, r, v⟩) (s := logged r v
    (fun s => updPlate s fun p => { p with regsP := tblSet p.regsP 0 r v, marksP := unmark p.marksP r }) (applyReplay s)) (by
      change (applyReplay s).plate.replay ++ _ = _
      change s.plate.replay.filter _ ++ _ = _
      rw [hempty]
      rfl)
  obtain ⟨q, hq⟩ := logged_plate r v (fun p => { p with regsP := tblSet p.regsP 0 r v, marksP := unmark p.marksP r }) s
  refine ⟨_, hexec, tblGet_write_self _ 0 v r, rfl, fun q hq => tblGet_write_ne _ 0 0 v hq, fun hle => ?_, fun hlt => ?_, by rw [hq]⟩
  · obtain ⟨hlog, hc⟩ := hnow hle
    exact ⟨by rw [hc, if_pos hr]; exact tblGet_write_self _ 0 v r, hlog⟩
  · obtain ⟨hlog, hc⟩ := hlater hlt
    exact ⟨hlog, hc.trans hregs⟩

theorem debugBreakpointSet_sets (h : s.plate.debug = .unlocked) {k : Nat} (hk : k < 6) (a : Nat) (on : Bool)
    (hempty : s.plate.replay = []) : ∃ t, exec (.debugBreakpointSet k a on) s = .next t ∧
      tblGet t.plate.bps none k = (if on then some a else none) ∧
      (∀ j, j ≠ k → tblGet t.plate.bps none j = tblGet s.plate.bps none j) ∧ t = { s with plate := t.plate } := by
  have hlogs := logAction_logs (s := s) (41 + k) (wrd a)
    (fun s => updPlate s fun p => { p with bps := tblSet p.bps none k (if on then some a else none) }) hempty
  have hexec : exec (.debugBreakpointSet k a on) s = .next _ :=
    congrArg Host.Outcome.next ((if_pos ⟨debugOn_unlocked h, hk⟩).trans hlogs)
  obtain ⟨q, hq⟩ := logged_plate (41 + k) (wrd a) (fun p => { p with bps := tblSet p.bps none k (if on then some a else none) }) s
  exact ⟨_, hexec, tblGet_write_self _ none _ k, fun j hj => tblGet_write_ne _ none none _ hj, by rw [hq]⟩

/-! Memory (R345). -/

/-- A word of a region that is neither LPDDR5 nor registers lies below LPDDR5. -/
theorem namesLp_plain {a : Nat} (hg : regionNum s a ∈ [8, 9, 16, 17]) : namesLp a = false ∧ (regionAt s a).isSome = true := by
  have hfixed : ∀ r ∈ fixedRegions, r.base + r.size ≤ lpBase := by decide
  cases hat : regionAt s a with
  | none =>
    unfold regionNum at hg
    rw [hat] at hg
    exact absurd hg (by decide)
  | some r =>
    have hnum : regionNum s a = r.num := by
      unfold regionNum
      rw [hat]
    rw [hnum] at hg
    have hin := List.find?_some hat
    simp only [Bool.and_eq_true, decide_eq_true_eq] at hin
    have hmem := List.mem_append.1 (List.mem_of_find?_eq_some hat)
    obtain hr | hr := hmem
    · have hlow := hfixed r hr
      refine ⟨?_, rfl⟩
      unfold namesLp
      simp only [Bool.and_eq_false_iff, decide_eq_false_iff_not]
      omega
    · rw [List.mem_singleton.1 hr] at hg
      exact absurd hg (show (32 : Nat) ∉ [8, 9, 16, 17] by decide)

theorem lpWaits_low {a n : Nat} {write : Bool} (h : namesLp a = false) : lpWaits s a n write = false := by
  unfold lpWaits
  rw [h, Bool.false_and]

theorem lpNote_low {a : Nat} (h : namesLp a = false) : lpNote s a = s := if_neg (by rw [h]; decide)

theorem debugMemoryRead_reads (h : s.plate.debug = .unlocked) {a : Nat} (hal : a % 4 = 0) (hg : regionNum s a ∈ [8, 9, 16, 17]) :
    ∃ t, exec (.debugMemoryRead a) s = .next t ∧ t.plate.dbgRead = readWord s a ∧ t.mem.cells = s.mem.cells ∧ t.nv = s.nv := by
  obtain ⟨hlow, hregion⟩ := namesLp_plain hg
  have hbad : ¬ (!debugOn s || decide (a % 4 ≠ 0) || (regionAt s a).isNone) = true := by
    rw [debugOn_unlocked h, hal, Option.isNone_eq_false_iff.2 hregion]; decide
  have hexec : exec (.debugMemoryRead a) s = .next ({ updPlate (demandRead s a) fun p => { p with dbgRead := hostWord (demandRead s a) a } with
      free := (demandRead s a).free + 2 ^ 36 }) := by
    refine congrArg Host.Outcome.next ((if_neg hbad).trans ((if_neg (by rw [hlow]; exact Bool.false_ne_true)).trans
      ((if_neg (by rw [lpWaits_low hlow]; decide)).trans ?_)))
    rw [lpNote_low hlow]
  have hev : EvStep s (demandRead s a) := ev_demandRead (.refl s)
  have hdensity : (demandRead s a).mem.density = s.mem.density := by
    obtain ⟨⟨_, _, _, _, _, _, _, _, _, _, _, _, _, _, _, _, _, _, _, heq⟩, _, _⟩ := hev
    rw [heq]
  have hword : hostWord (demandRead s a) a = readWord s a := by
    have hnum : regionNum (demandRead s a) a = regionNum s a := regionNum_congr hdensity a
    have hkind : regionNum s a = 8 ∨ regionNum s a = 9 ∨ regionNum s a = 16 ∨ regionNum s a = 17 := by simpa using hg
    unfold hostWord
    rw [hnum]
    refine (if_pos (by tauto)).trans ?_
    unfold readWord readByte
    rw [hev.mem_cells]
  refine ⟨_, hexec, hword, hev.mem_cells, hev.nv⟩

section Write
variable (h : s.plate.debug = .unlocked) {a : Nat} (v : Word) (hal : a % 4 = 0) (hregion : (regionAt s a).isSome = true)
include h hal hregion

/-- A write to a word that exists is refused while the pair runs or a drive is in RUN (R345). -/
theorem debugMemoryWrite_refuses (hbusy : s.plate.halted = false ∨ (∃ d, d < 4 ∧ (s.drive d).dst = .run)) :
    exec (.debugMemoryWrite a v) s = .next { s with plate := { s.plate with dbgRefused := true } } := by
  have hbad : ¬ (!debugOn s || decide (a % 4 ≠ 0) || (regionAt s a).isNone) = true := by
    rw [debugOn_unlocked h, hal, Option.isNone_eq_false_iff.2 hregion]; decide
  refine congrArg Host.Outcome.next ((if_neg hbad).trans (if_pos ?_))
  obtain hrun | ⟨d, hd, hrun⟩ := hbusy
  · rw [hrun]; rfl
  · have hmem : d ∈ drivesWith s (fun d => decide (d.dst = .run)) := List.mem_filter.2 ⟨List.mem_range.2 hd, by simpa using hrun⟩
    have hne : drivesWith s (fun d => decide (d.dst = .run)) ≠ [] := List.ne_nil_of_mem hmem
    simp [hne]

/-- While the pair is halted and no drive is in RUN, exactly the word is stored. -/
theorem debugMemoryWrite_stores (hhalt : s.plate.halted = true) (hidle : ∀ d, d < 4 → (s.drive d).dst ≠ .run)
    (hlow : namesLp a = false) (hmem : memOf a ≠ 2) (hshut : mramShut s a = false) (hslot : a < slotBase 0 ∨ slotBase 2 ≤ a) :
    ∃ t, exec (.debugMemoryWrite a v) s = .next t ∧ readWord t a = v ∧
      (∀ b, b < a ∨ a + 4 ≤ b → readByte t b = readByte s b) ∧ t.plate.dbgRefused = false ∧ t.nv = s.nv := by
  have hbad : ¬ (!debugOn s || decide (a % 4 ≠ 0) || (regionAt s a).isNone) = true := by
    rw [debugOn_unlocked h, hal, Option.isNone_eq_false_iff.2 hregion]; decide
  have hnone : drivesWith s (fun d => decide (d.dst = .run)) = [] := below_eq_nil fun d hd => by simpa using hidle d hd
  have htouch (u : State) : touchSlot a u = u := if_neg (by omega)
  have hexec : exec (.debugMemoryWrite a v) s = .next (storeRange a [v] (updPlate s fun p => { p with dbgRefused := false })) := by
    refine congrArg Host.Outcome.next ((if_neg hbad).trans ((if_neg (by rw [hhalt, hnone]; decide)).trans
      ((if_neg (by rw [hshut]; decide)).trans ((if_neg (by rw [hlow]; exact Bool.false_ne_true)).trans
        ((if_neg (by rw [lpWaits_low hlow]; decide)).trans ?_)))))
    rw [lpNote_low hlow, htouch]
  obtain ⟨⟨P, M, q, hstep, _⟩, hout, hback⟩ := storeRange_step [v] a (updPlate s fun p => { p with dbgRefused := false })
  have hread := hback (fun i hi => by
    have hi' : i = 0 := Nat.lt_one_iff.1 hi
    rw [hi']
    exact .inl hmem) 0 Nat.zero_lt_one
  refine ⟨_, hexec, hread, fun b hb => hout b hb, ?_, ?_⟩
  · rw [hstep]; rfl
  · rw [hstep]; rfl

end Write

/-! The loader (R478). -/

/-- The state in which the loader's firmware starts. -/
def loaderStarted (v : Word) (s : State) : State :=
  updPwr (updPlate (updPlate s fun p => { p with version := v }) fun p => { p with mode := .lockstep, wdTick := s.now }) fun p =>
    { p with bootStep := 6, lastReset := s.pwr.resetCode, supplyBad := [] }

theorem jtagLoader_starts (h : s.plate.debug = .unlocked) (v : Word) (hstuck : bootStuck s = true) : ∃ t, exec (.jtagLoader v) s = .next t ∧
    t.plate.version = v ∧ t.plate.mode = .lockstep ∧ t.pwr.bootStep = 6 ∧ t.pwr.lastReset = s.pwr.resetCode ∧ t.pwr.supplyBad = [] ∧
    Raised s t 0x0F02 s.pwr.resetCode [] ∧ t.nv = s.nv ∧ t.mem.cells = s.mem.cells := by
  have hexec : exec (.jtagLoader v) s = .next (forEach s.pwr.supplyBad (fun x s => supplyFault x.1 x.2 s)
      (record (loaderStarted v s) 0x0F02 s.pwr.resetCode [])) :=
    congrArg Host.Outcome.next (if_pos ⟨hstuck, debugOn_unlocked h⟩)
  have hrec : EvStep (loaderStarted v s) (record (loaderStarted v s) 0x0F02 s.pwr.resetCode []) := ev_record (.refl _)
  have hfaults (u : State) : EvStep u (forEach s.pwr.supplyBad (fun x s => supplyFault x.1 x.2 s) u) :=
    EvStep.forEach (.refl u) fun x v hv => ev_raise hv
  have hraised : Raised s (record (loaderStarted v s) 0x0F02 s.pwr.resetCode []) 0x0F02 s.pwr.resetCode [] :=
    raised_of (record_raises (loaderStarted v s) 0x0F02 s.pwr.resetCode []) rfl rfl
  have hafter := raised_after hraised (by decide) (hfaults _)
  have hev := hrec.trans (hfaults _)
  refine ⟨_, hexec, ?_, ?_, ?_, ?_, ?_, hafter, ?_, ?_⟩
  · rw [hev.plate]; rfl
  · rw [hev.plate]; rfl
  · rw [hev.pwr]; rfl
  · rw [hev.pwr]; rfl
  · rw [hev.pwr]; rfl
  · rw [hev.nv]; rfl
  · rw [hev.mem_cells]; rfl

/-- Settles O57: each row is the lemma above; a write to an empty replay log is entered and applied once Counterproof has reached it. -/
theorem debugPort : Obligations.DebugPort := by
  intro s h
  refine ⟨fun hrun => ⟨?_, ?_⟩, fun hhalt => ⟨debugResume_resumes h hhalt, debugStep_steps h hhalt, ?_, ?_⟩, ?_, ?_, ?_, ?_, ?_⟩
  · exact ⟨_, exec_debugHalt h hrun, haltPair_halts s⟩
  · intro k hk hset
    obtain ⟨hhalted, hraised, _⟩ := haltPair_halts s
    exact ⟨(exec_breakpointHit h hrun hk hset).trans (exec_debugHalt h hrun).symm, _, exec_breakpointHit h hrun hk hset, hhalted, hraised⟩
  · exact fun r hr => congrArg Host.Outcome.next (if_pos ⟨debugOn_unlocked h, hhalt, hr⟩)
  · exact fun r v hr hempty => debugRegisterWrite_writes h hhalt hr v hempty
  · exact fun k a on hk hempty => debugBreakpointSet_sets h hk a on hempty
  · exact fun a hal hg => debugMemoryRead_reads h hal hg
  · exact fun a v hal hregion hhalt hidle hlow hmem hshut hslot =>
      debugMemoryWrite_stores h v hal hregion hhalt hidle hlow hmem hshut hslot
  · exact fun a v hal hregion hbusy => debugMemoryWrite_refuses h v hal hregion hbusy
  · exact fun v hstuck => jtagLoader_starts h v hstuck

end Sys2Proof.Proofs
end

section
/-!
PROOFS. O58: the units of a Burnish run, its drain, its reload, its abort, and BURNISH_RESULT (R435 to R449).
-/
namespace Sys2Proof.Proofs
open Sys2Proof.Machine Sys2Proof.Safety Sys2Proof.Laws

variable {s : State}

/-! The record of a unit (R439, R447 to R449). -/

/-- The record `r` with the result of unit `u`, before its failing rows. -/
def recPut (u c n : Nat) (cov : Bool) (g : Word) (r : BurnRec) : BurnRec :=
  { r with
    results := tblSet r.results 0 u n, covered := tblSet r.covered false u cov,
    counts := tblSet r.counts 0 u (c % 2 ^ 32), sigs := tblSet r.sigs 0 u g }

/-- Whether unit `u` is covered with count `c`. -/
def unitCovered (s : State) (u c : Nat) (g : Word) (rows : List FailRow) : Bool :=
  decide (c = Config.burnCount (2 * u + b2n s.burn.quick)) && decide (unitResult s u c g rows ≠ 3)

/-- The record `r` once unit `u` has ended. -/
def recNoted (s : State) (u c : Nat) (g : Word) (rows : List FailRow) (r : BurnRec) : BurnRec :=
  (if u ≤ 111 then rows else []).foldl (fun r f => addFail u f r) (recPut u c (unitResult s u c g rows) (unitCovered s u c g rows) g r)

/-- Failing rows leave everything of a record but its entries and their overflow. -/
theorem addFail_keeps (u : Nat) (f : FailRow) (r : BurnRec) : ∃ l o, addFail u f r = { r with fails := l, overflow := o } := by
  unfold addFail
  extract_lets mem same
  split
  · exact ⟨_, _, rfl⟩
  · split <;> exact ⟨_, _, rfl⟩

theorem addFails_keep (u : Nat) (rows : List FailRow) : ∀ r : BurnRec,
    ∃ l o, rows.foldl (fun r f => addFail u f r) r = { r with fails := l, overflow := o } := by
  induction rows with
  | nil => exact fun r => ⟨_, _, rfl⟩
  | cons f rows ih =>
    intro r
    obtain ⟨l, o, hf⟩ := addFail_keeps u f r
    obtain ⟨l', o', hrest⟩ := ih (addFail u f r)
    rw [List.foldl_cons, hrest, hf]
    exact ⟨l', o', rfl⟩

section Noted
variable (s : State) (u c : Nat) (g : Word) (rows : List FailRow) (r : BurnRec)

theorem recNoted_keeps : ∃ l o, recNoted s u c g rows r =
    { recPut u c (unitResult s u c g rows) (unitCovered s u c g rows) g r with fails := l, overflow := o } := addFails_keep u _ _

theorem recNoted_kind : (recNoted s u c g rows r).kind = r.kind := by
  obtain ⟨_, _, h⟩ := recNoted_keeps s u c g rows r
  rw [h]
  rfl

theorem recNoted_result : recResult (recNoted s u c g rows r) u = unitResult s u c g rows := by
  obtain ⟨_, _, h⟩ := recNoted_keeps s u c g rows r
  rw [h]
  exact tblGet_write_self _ 0 _ u

theorem recNoted_covered : recCovered (recNoted s u c g rows r) u = unitCovered s u c g rows := by
  obtain ⟨_, _, h⟩ := recNoted_keeps s u c g rows r
  rw [h]
  exact tblGet_write_self _ false _ u

theorem recNoted_count : tblGet (recNoted s u c g rows r).counts 0 u = c % 2 ^ 32 := by
  obtain ⟨_, _, h⟩ := recNoted_keeps s u c g rows r
  rw [h]
  exact tblGet_write_self _ 0 _ u

theorem recNoted_sig : tblGet (recNoted s u c g rows r).sigs 0 u = g := by
  obtain ⟨_, _, h⟩ := recNoted_keeps s u c g rows r
  rw [h]
  exact tblGet_write_self _ 0 _ u

theorem recNoted_ne {w : Nat} (hw : w ≠ u) : recResult (recNoted s u c g rows r) w = recResult r w ∧
    recCovered (recNoted s u c g rows r) w = recCovered r w := by
  obtain ⟨_, _, h⟩ := recNoted_keeps s u c g rows r
  rw [h]
  exact ⟨tblGet_write_ne _ 0 0 _ hw, tblGet_write_ne _ false false _ hw⟩

end Noted

theorem noteUnit_notes {r : BurnRec} (u c : Nat) (g : Word) (rows : List FailRow) (hcur : s.burn.cur = some r) :
    noteUnit u c g rows s = { readCells [trimAddr u s.burn.quick] s with
      burn := { s.burn with cur := some (recNoted s u c g rows r) } } := by
  obtain ⟨P, mk, er, ce, q, hread⟩ := read_readCells [trimAddr u s.burn.quick] s
  unfold noteUnit
  dsimp only
  rw [hread]
  unfold updBurn
  dsimp only
  rw [hcur]
  rfl

/-- The slots of MRAM once the record being written has gone to its slot. -/
def slotsPersisted (b : Burnish) : Tbl (Option BurnRec) := if b.mramRec then tblSet b.slots none b.slot b.cur else b.slots

theorem persist_persists (s : State) : ∃ M, persist s = { s with burn := { s.burn with slots := slotsPersisted s.burn }, mem := M } ∧
    M.cells = s.mem.cells := by
  unfold persist slotsPersisted
  split
  · exact ⟨_, rfl, rfl⟩
  · exact ⟨s.mem, rfl, rfl⟩

/-- What a restored block leaves: Burnish, the operating state and its lock, and every byte. -/
structure BlockRestored (s t : State) : Prop where
  burn : t.burn = s.burn
  op : t.op = s.op
  safeLocked : t.safeLocked = s.safeLocked
  cells : t.mem.cells = s.mem.cells

theorem BlockRestored.refl (s : State) : BlockRestored s s := ⟨rfl, rfl, rfl, rfl⟩

theorem restoreStopout_restores (reg : Bool) (s : State) : BlockRestored s (restoreStopout reg s) := by
  cases reg with
  | false => exact ⟨rfl, rfl, rfl, rfl⟩
  | true => exact ⟨rfl, rfl, rfl, rfl⟩

theorem plateReset_block (s : State) : BlockRestored s (plateReset false s) := by
  obtain ⟨P, p, h⟩ := plateReset_resets false s
  rw [h]
  exact ⟨rfl, rfl, rfl, rfl⟩

theorem restoreBlock_restores (u : Nat) (s : State) : BlockRestored s (restoreBlock u s) := by
  have hgraver : BlockRestored s (restoreGraver s) := ⟨rfl, rfl, rfl, rfl⟩
  have hhatch : BlockRestored s (reset05 s) := ⟨rfl, rfl, rfl, rfl⟩
  have hconv : BlockRestored s (restoreConverters s) := ⟨rfl, rfl, rfl, rfl⟩
  have hrings : BlockRestored s (restoreRings s) := ⟨rfl, rfl, rfl, rfl⟩
  have hfolio : BlockRestored s (restoreFolio s) := ⟨rfl, rfl, rfl, rfl⟩
  unfold restoreBlock
  extract_lets b
  refine rel_ite (.refl s) (rel_ite hgraver (rel_ite hhatch (rel_ite (restoreStopout_restores false s)
    (rel_ite (restoreStopout_restores true s) (rel_ite hconv (rel_ite hrings (rel_ite hfolio (plateReset_block s))))))))

/-! The end of a unit. -/

section UnitEnd
variable {u : Nat} {rest : List Nat} {r : BurnRec} (hrun : s.burn.phase = .running) (htodo : s.burn.todo = u :: rest)
  (hcur : s.burn.cur = some r) (c : Nat) (g : Word) (rows : List FailRow)
include hrun htodo hcur

/-- Burnish with the unit's result recorded. -/
def burnNoted (s : State) (u c : Nat) (g : Word) (rows : List FailRow) (r : BurnRec) : Burnish :=
  { s.burn with cur := some (recNoted s u c g rows r),
                slots := slotsPersisted { s.burn with cur := some (recNoted s u c g rows r) } }

/-- The state with the unit's result recorded and its block restored. -/
def unitRecorded (s : State) (u : Nat) (rest : List Nat) (c : Nat) (g : Word) (rows : List FailRow) : State :=
  if endsBlock s u rest then restoreBlock u (persist (noteUnit u c g rows s)) else persist (noteUnit u c g rows s)

/-- A unit that ends leads to the next unit, or at a startup Burnish to what its failure does. -/
theorem unitEnd_ends : ∃ w, w.burn = burnNoted s u c g rows r ∧ w.op = s.op ∧ w.safeLocked = s.safeLocked ∧ w.mem.cells = s.mem.cells ∧
    (endsBlock s u rest = false → s.mem.errs = [] → ∃ B M, w = { s with burn := B, mem := M }) ∧
    unitEnd c g rows s = if r.kind = 1 ∧ unitResult s u c g rows = 2 then bootFail u rest w else nextUnit rest w := by
  obtain ⟨P, mk, er, ce, q, hread⟩ := read_readCells [trimAddr u s.burn.quick] s
  obtain ⟨M, hpersist, hcells⟩ := persist_persists (noteUnit u c g rows s)
  have hnote := noteUnit_notes u c g rows hcur
  rw [hnote] at hpersist hcells
  have hburn : (persist (noteUnit u c g rows s)).burn = burnNoted s u c g rows r := by rw [hnote, hpersist]; rfl
  have hop : (persist (noteUnit u c g rows s)).op = s.op := by rw [hnote, hpersist, hread]
  have hlocked : (persist (noteUnit u c g rows s)).safeLocked = s.safeLocked := by rw [hnote, hpersist, hread]
  have hbytes : (persist (noteUnit u c g rows s)).mem.cells = s.mem.cells := by
    rw [hnote, hpersist]
    exact hcells.trans (by rw [hread])
  have hends : endsBlock (persist (noteUnit u c g rows s)) u rest = endsBlock s u rest := by
    unfold endsBlock
    rw [hburn]
    rfl
  have hclean : s.mem.errs = [] → ∃ B M, persist (noteUnit u c g rows s) = { s with burn := B, mem := M } := fun herrs => by
    rw [hnote, hpersist, show readCells [trimAddr u s.burn.quick] s = s from if_pos herrs]
    exact ⟨_, M, rfl⟩
  have hrestored : BlockRestored (persist (noteUnit u c g rows s)) (unitRecorded s u rest c g rows) :=
    rel_ite (restoreBlock_restores u _) (.refl _)
  have hself : endsBlock s u rest = false → unitRecorded s u rest c g rows = persist (noteUnit u c g rows s) := fun hend =>
    if_neg (by rw [hend]; exact Bool.false_ne_true)
  have hwburn : (unitRecorded s u rest c g rows).burn = burnNoted s u c g rows r := hrestored.burn.trans hburn
  refine ⟨unitRecorded s u rest c g rows, hwburn, hrestored.op.trans hop, hrestored.safeLocked.trans hlocked, hrestored.cells.trans hbytes,
    fun hend herrs => by rw [hself hend]; exact hclean herrs, ?_⟩
  have heq : unitEnd c g rows s = match (unitRecorded s u rest c g rows).burn.cur with
      | some r' => if r'.kind = 1 ∧ recResult r' u = 2 then bootFail u rest (unitRecorded s u rest c g rows)
        else nextUnit rest (unitRecorded s u rest c g rows)
      | none => unitRecorded s u rest c g rows := by
    unfold unitEnd unitRecorded
    rw [htodo]
    dsimp only
    rw [if_neg (not_not.2 hrun), hends] <;> rfl
  rw [hwburn] at heq
  refine heq.trans ?_
  change (if (recNoted s u c g rows r).kind = 1 ∧ recResult (recNoted s u c g rows r) u = 2 then _ else _) = _
  rw [recNoted_kind, recNoted_result]

end UnitEnd

/-- With no abort the unit that follows begins, or the drain before unit 178. -/
theorem nextUnit_begins {v : Nat} {rest : List Nat} {w : State} (habort : w.burn.abortPend = false) : nextUnit (v :: rest) w =
    { w with burn := if v = 178 ∧ w.op = .shutdown then { w.burn with todo := v :: rest, phase := .draining, unitAt := w.now }
      else { w.burn with todo := v :: rest, unit := v, unitAt := w.now } } := by
  refine (if_neg ?_).trans rfl
  change ¬ w.burn.abortPend = true
  rw [habort]
  exact Bool.false_ne_true

theorem unitEnd_records {u v : Nat} {rest : List Nat} {r : BurnRec} (hrun : s.burn.phase = .running)
    (htodo : s.burn.todo = u :: v :: rest) (hcur : s.burn.cur = some r) (hkind : r.kind ≠ 1) (habort : s.burn.abortPend = false)
    (c : Nat) (g : Word) (rows : List FailRow) : ∃ t r', exec (.burnishUnitEnd c g rows) s = .next t ∧ t.burn.cur = some r' ∧
      r' = recNoted s u c g rows r ∧ t.burn.todo = v :: rest ∧
      (s.burn.mramRec = true → tblGet t.burn.slots none s.burn.slot = some r') ∧
      t.burn.phase = (if v = 178 ∧ s.op = .shutdown then .draining else .running) ∧
      (¬ (v = 178 ∧ s.op = .shutdown) → t.burn.unit = v) ∧ t.mem.cells = s.mem.cells ∧
      (endsBlock s u (v :: rest) = false → s.mem.errs = [] → t = { s with burn := t.burn, mem := t.mem }) := by
  obtain ⟨w, hburn, hop, _, hcells, hclean, hend⟩ := unitEnd_ends hrun htodo hcur c g rows
  rw [if_neg fun h => hkind h.1, nextUnit_begins (w := w) (by rw [hburn]; exact habort), hop] at hend
  have hexec : exec (.burnishUnitEnd c g rows) s = .next _ := congrArg Host.Outcome.next hend
  have hslots : s.burn.mramRec = true → tblGet w.burn.slots none s.burn.slot = some (recNoted s u c g rows r) := fun hm => by
    rw [hburn]
    change tblGet (if s.burn.mramRec then tblSet s.burn.slots none s.burn.slot (some (recNoted s u c g rows r)) else s.burn.slots) none _ = _
    rw [if_pos hm]
    exact tblGet_write_self _ none _ _
  have hphase : w.burn.phase = .running := by rw [hburn]; exact hrun
  refine ⟨_, recNoted s u c g rows r, hexec, ?_, rfl, ?_, ?_, ?_, ?_, hcells, fun hblock herrs => ?_⟩
  · dsimp only
    split <;> rw [hburn] <;> rfl
  · dsimp only
    split <;> rfl
  · dsimp only
    split <;> exact hslots
  · dsimp only
    split
    · rfl
    · exact hphase
  · intro hnot
    dsimp only
    rw [if_neg hnot]
  · obtain ⟨B, M, hw⟩ := hclean hblock herrs
    rw [hw]

/-! The end of a run (R441, R446, R448). -/

/-- The record `r` of a run that ends. -/
def recClosed (aborted : Bool) (s : State) (r : BurnRec) : BurnRec :=
  { r with
    result := runResult s r, state := if r.kind = 1 then 3 else 2, aborted := aborted, unrep := unrepairable s r,
    duration := (s.now - s.burn.start) / usTicks % 2 ^ 32 }

/-- The state `u` of a run that has ended with the record `r`, before its event. -/
structure RunClosed (s : State) (r : BurnRec) (u : State) : Prop where
  part : u = { s with burn := u.burn, mem := u.mem }
  cells : u.mem.cells = s.mem.cells
  cur : u.burn.cur = some r
  phase : u.burn.phase = .closed
  reload : u.burn.reload = s.burn.reload
  rows : u.burn.rows = s.burn.rows
  abortTags : u.burn.abortTags = s.burn.abortTags

/-- The state whose run ends, the record about to be written. -/
def closing (aborted : Bool) (s : State) (r : BurnRec) : State :=
  updBurn s fun b => { b with cur := some (recClosed aborted s r), phase := .closed, todo := [], abortPend := false }

/-- The state whose run has ended with the record `r`, kept in SRAM where MRAM did not take it. -/
def closed (aborted : Bool) (s : State) (r : BurnRec) : State :=
  if (persist (closing aborted s r)).burn.mramRec then persist (closing aborted s r)
  else updBurn (persist (closing aborted s r)) fun b => { b with sram := some (recClosed aborted s r) }

theorem closed_closes (aborted : Bool) (s : State) (r : BurnRec) : RunClosed s (recClosed aborted s r) (closed aborted s r) := by
  obtain ⟨M, hpersist, hcells⟩ := persist_persists (closing aborted s r)
  unfold closed
  rw [hpersist]
  split
  · exact ⟨rfl, hcells, rfl, rfl, rfl, rfl, rfl⟩
  · exact ⟨rfl, hcells, rfl, rfl, rfl, rfl, rfl⟩

/-- The result code that BURNISH_DONE carries. -/
def doneCode (n : Nat) : Nat := if n = 0 then 0 else if n = 1 then 1 else 2

theorem closeRun_records {r : BurnRec} (hcur : s.burn.cur = some r) (aborted : Bool) : closeRun aborted s =
    if s.op ≠ .shutdown then closed aborted s r
    else if aborted then record (closed aborted s r) 0x0C02 0 [wrd (blockCoverage (recClosed aborted s r))]
    else record (closed aborted s r) 0x0C01 0 [wrd (doneCode (recClosed aborted s r).result)] := by
  have hop : (closed aborted s r).op = s.op := (congrArg State.op (closed_closes aborted s r).part :)
  unfold closeRun
  rw [hcur]
  dsimp -zeta only
  extract_lets r' p q
  have hq : q = closed aborted s r := rfl
  have hr : r' = recClosed aborted s r := rfl
  rw [hq, hop, hr]
  refine if_congr Iff.rfl rfl (if_congr Iff.rfl rfl (congrArg (fun n => record (closed aborted s r) 0x0C01 0 [wrd n]) ?_))
  generalize (recClosed aborted s r).result = n
  match n with
  | 0 => rfl
  | 1 => rfl
  | _ + 2 => rfl

theorem record_burn (s : State) (code i : Nat) (args : List Word) : (record s code i args).burn = s.burn := (ev_record (.refl s)).burn

/-- What leaves Burnish, the lock, the commands and the events, and of the operating state lets only a reaction to SAFE through. -/
structure Left (s t : State) : Prop where
  safeLocked : t.safeLocked = s.safeLocked
  burn : t.burn = s.burn
  tags : t.folio.tags = s.folio.tags
  replies : t.folio.replies = s.folio.replies
  op : t.op = s.op ∨ t.op = .safe
  grow : ∀ e ∈ s.book.inq, e.code ≠ 0x0902 → e ∈ t.book.inq

theorem Left.refl (s : State) : Left s s := ⟨rfl, rfl, rfl, rfl, .inl rfl, fun _ h _ => h⟩

theorem Left.trans {s t u : State} (h : Left s t) (k : Left t u) : Left s u where
  safeLocked := k.safeLocked.trans h.safeLocked
  burn := k.burn.trans h.burn
  tags := k.tags.trans h.tags
  replies := k.replies.trans h.replies
  op := by
    obtain hk | hk := k.op
    · rw [hk]; exact h.op
    · exact .inr hk
  grow e he hc := k.grow e (h.grow e he hc) hc

theorem Left.ev {s t : State} (h : EvStep s t) (hop : t.op = s.op ∨ t.op = .safe) : Left s t :=
  ⟨h.safeLocked, h.burn, h.folio_tags, h.folio_replies, hop, h.grow⟩

/-- Parameters, converters, position, Hatch, rings, Stop-out and free values. -/
theorem Left.parts (s : State) (P : Tbl Word) (C : Converters) (X : Position) (H : Hatch) (R : Stipple) (S : StopOut) (f : Nat) :
    Left s { s with par := P, conv := C, pos := X, hatch := H, stip := R, so := S, free := f } :=
  ⟨rfl, rfl, rfl, rfl, .inl rfl, fun _ h _ => h⟩

/-! The operating state after an event (R367). -/

theorem enterSafe_op (ds : List Nat) (ss code : Nat) (s : State) : (enterSafe ds ss code s).op = .safe := by
  unfold enterSafe
  exact (settlePairs_op _).trans (setOp_op _ .safe)

theorem setLatch_op (s : State) (code i : Nat) (resetOnly : Bool) : (setLatch s code i resetOnly).op = s.op := by
  unfold setLatch
  split <;> rfl

theorem soStays_updDrive (s : State) (d : Nat) (f : Drive → Drive) : SoStays s (s.updDrive d f) := ⟨rfl, rfl⟩

theorem soStays_startStop (d : Nat) (s : State) : SoStays s (startStop d s) := rel_ite (soStays_updDrive s d _) (.refl s)

theorem handoverReact_op (code : Nat) (s : State) : (handoverReact code s).op = .safe := by
  unfold handoverReact
  have h := enterSafe_op [] 1 code s
  generalize enterSafe [] 1 code s = u at h ⊢
  exact h

theorem applyReaction_op (r : Reaction) (code i : Nat) (s : State) :
    (applyReaction r code i s).op = s.op ∨ (applyReaction r code i s).op = .safe := by
  unfold applyReaction
  split
  · exact .inl rfl
  extract_lets latched safe marked
  have hlatched : latched.op = s.op := by
    unfold latched
    cases r.latch with
    | none => rfl
    | some ro => exact (setLatch_op s code i ro)
  split
  · exact .inr (handoverReact_op code latched)
  cases r.react with
  | n => exact .inl hlatched
  | t =>
    have hstops : SoStays latched (forUpTo 4 startStop latched) :=
      forUpTo_rel (R := SoStays) .refl .trans (fun d _ u => soStays_startStop d u) latched
    exact .inl (hstops.op.trans hlatched)
  | p => exact .inr (enterSafe_op [] 1 code latched)
  | s ds => exact .inr (enterSafe_op ds 2 code latched)
  | d =>
    have hsafe : safe.op = .safe := enterSafe_op [] 1 code latched
    have hmarked : SoStays safe marked :=
      forUpTo_rel (R := SoStays) .refl .trans (fun d _ u => rel_ite (soStays_updDrive u d _) (.refl u)) safe
    clear_value safe marked
    exact .inr (hmarked.op.trans hsafe)

theorem left_raise (s : State) (code i : Nat) (args : List Word) : Left s (raise s code i args) :=
  .ev (ev_raise (.refl s)) (by
    obtain h | h := applyReaction_op (reactionOf s code i) code i (record s code i args)
    · exact .inl (h.trans (soStays_record s code i args).op)
    · exact .inr h)

/-! The device leaves SHUTDOWN (R446, R454). -/

theorem left_pairsAlone {t : State} (h : PairsAlone s t) : Left s t := by
  obtain ⟨X, rfl⟩ := h
  exact ⟨rfl, rfl, rfl, rfl, .inl rfl, fun _ h _ => h⟩

theorem left_noteSpeeds (s : State) : Left s (noteSpeeds s) := by
  obtain ⟨D, hD⟩ := (noteSpeeds_noted s).2
  rw [hD]
  exact ⟨rfl, rfl, rfl, rfl, .inl rfl, fun _ h _ => h⟩

theorem left_restartSource (n : Nat) (s : State) : Left s (restartSource n s) := by
  unfold restartSource
  extract_lets idle unread stamped
  have hidle : Left s idle := ⟨rfl, rfl, rfl, rfl, .inl rfl, fun _ h _ => h⟩
  have hunread : Left idle unread := ⟨rfl, rfl, rfl, rfl, .inl rfl, fun _ h _ => h⟩
  have hstamped : Left unread stamped := rel_ite ⟨rfl, rfl, rfl, rfl, .inl rfl, fun _ h _ => h⟩ (.refl unread)
  have hoff := forUpTo_rel (R := Left) .refl .trans (n := 8) (f := fun i s => if (s.cmp i).source = n then
    s.updCmp i fun c => { c with armed := false } else s)
    (fun _ _ u => rel_ite (R := Left) ⟨rfl, rfl, rfl, rfl, .inl rfl, fun _ h _ => h⟩ (.refl u)) stamped
  exact ((hidle.trans hunread).trans (hstamped.trans hoff)).trans (left_noteSpeeds _)

theorem left_orderRing (r : Nat) (s : State) : Left s (orderRing r s) := ⟨rfl, rfl, rfl, rfl, .inl rfl, fun _ h _ => h⟩

theorem left_setTripLatch (s : State) (n : Nat) : Left s (setTripLatch s n) := by
  unfold setTripLatch
  extract_lets w hatch latched settled ordered
  have hlatched : Left s latched := ⟨rfl, rfl, rfl, rfl, .inl rfl, fun _ h _ => h⟩
  have hsettled : Left latched settled := left_pairsAlone (settlePairs_alone latched)
  have hordered : Left settled ordered :=
    forEach_rel (R := Left) .refl .trans left_orderRing _ settled
  exact ((hlatched.trans hsettled).trans hordered).trans (left_raise _ _ _ _)

theorem left_tripInput (s : State) (n : Nat) (active : Bool) : Left s (tripInput s n active) := by
  unfold tripInput
  extract_lets output hatch input
  have houtput : Left s output := rel_ite (.refl s)
    (rel_ite (R := Left) ⟨rfl, rfl, rfl, rfl, .inl rfl, fun _ h _ => h⟩ ⟨rfl, rfl, rfl, rfl, .inl rfl, fun _ h _ => h⟩)
  have hinput : Left output input := ⟨rfl, rfl, rfl, rfl, .inl rfl, fun _ h _ => h⟩
  exact (houtput.trans hinput).trans (rel_ite (left_setTripLatch input n) (.refl input))

theorem left_wcEval (n : Nat) (s : State) : Left s (wcEval n s) := by
  unfold wcEval
  extract_lets hi lo was conv levels
  have hlevels : Left s levels := ⟨rfl, rfl, rfl, rfl, .inl rfl, fun _ h _ => h⟩
  exact hlevels.trans (rel_ite (.refl levels) (left_tripInput levels n _))

theorem left_tripResample (s : State) : Left s (tripResample s) := by
  unfold tripResample
  exact forUpTo_rel (R := Left) .refl .trans (fun n _ u => rel_ite (left_setTripLatch u n) (.refl u)) s

theorem left_updRegn (s : State) (d : Nat) (f : Registration → Registration) : Left s (s.updRegn d f) :=
  ⟨rfl, rfl, rfl, rfl, .inl rfl, fun _ h _ => h⟩

theorem left_gapsFrom (s : State) : Left s (gapsFrom s) := by
  unfold gapsFrom
  exact forUpTo_rel (R := Left) .refl .trans (fun d _ u => left_updRegn u d _) s

/-- Burnish in STANDBY, its records and repairs as they were. -/
def burnIdle (b : Burnish) : Burnish := { slots := b.slots, rows := b.rows, spares := b.spares, lastStart := b.lastStart, sram := b.sram }

/-- The state in STANDBY, before what restarts there. -/
def leftShutdown (s : State) : State := setOp (updBurn s burnIdle) .standby

/-- What restarts when the device has left SHUTDOWN. -/
def serviceRestarted (s : State) : State :=
  gapsFrom (tripResample (wcEvalAll (settlePairs (forUpTo 12 restartSource (relinkRings s)))))

theorem left_serviceRestarted (s : State) : Left s (serviceRestarted s) := by
  have hrings : Left s (relinkRings s) := ⟨rfl, rfl, rfl, rfl, .inl rfl, fun _ h _ => h⟩
  have hsources := forUpTo_rel (R := Left) .refl .trans (n := 12) (f := restartSource) (fun n _ u => left_restartSource n u) (relinkRings s)
  have hlevels (u : State) : Left u (wcEvalAll u) := forUpTo_rel (R := Left) .refl .trans (fun n _ v => left_wcEval n v) u
  unfold serviceRestarted
  exact (hrings.trans hsources).trans (((left_pairsAlone (settlePairs_alone _)).trans (hlevels _)).trans
    ((left_tripResample _).trans (left_gapsFrom _)))

theorem leaveShutdown_restarts (s : State) :
    leaveShutdown s = forEach s.burn.abortTags (fun t s => completeTag t stOk [] s) (serviceRestarted (leftShutdown s)) := rfl

theorem setOp_raises {o : OpState} (h : s.op ≠ o) : Raised s (setOp s o) 0x0001 0 [wrd (opCode s.op), wrd (opCode o)] := by
  have hraised := record_raises s 0x0001 0 [wrd (opCode s.op), wrd (opCode o)]
  unfold setOp
  rw [if_neg h]
  generalize record s 0x0001 0 [wrd (opCode s.op), wrd (opCode o)] = u at hraised ⊢
  exact hraised

/-- The device in STANDBY: what it keeps, and the change of state it has raised. -/
theorem leftShutdown_leaves (s : State) : (leftShutdown s).safeLocked = s.safeLocked ∧ (leftShutdown s).burn = burnIdle s.burn ∧
    (leftShutdown s).folio.tags = s.folio.tags ∧ (leftShutdown s).folio.replies = s.folio.replies ∧ (leftShutdown s).op = .standby ∧
    (∀ e ∈ s.book.inq, e.code ≠ 0x0902 → e ∈ (leftShutdown s).book.inq) ∧
    (s.op = .shutdown → Raised s (leftShutdown s) 0x0001 0 [4, 1]) := by
  have hev : EvStep (updBurn s burnIdle) (leftShutdown s) := ev_setOp (.refl _)
  refine ⟨hev.safeLocked, hev.burn, hev.folio_tags, hev.folio_replies, setOp_op _ .standby, hev.grow, fun hop => ?_⟩
  have hne : (updBurn s burnIdle).op ≠ .standby := by
    rw [show (updBurn s burnIdle).op = .shutdown from hop]
    decide
  have hraised : Raised s (leftShutdown s) 0x0001 0 [wrd (opCode s.op), wrd (opCode .standby)] :=
    raised_of (setOp_raises hne) rfl rfl
  rw [hop] at hraised
  exact hraised

theorem completeTag_locked (tag status : Nat) (ws : List Word) (s : State) : (completeTag tag status ws s).safeLocked = s.safeLocked := by
  obtain ⟨f, m, h⟩ := completeTag_keeps tag status ws s
  rw [h]

theorem completeTags_locked {α : Type} (f : α → Nat) (g : Nat) (l : List α) (s : State) :
    (forEach l (fun t s => completeTag (f t) g [] s) s).safeLocked = s.safeLocked :=
  forEach_rel (R := fun s t => t.safeLocked = s.safeLocked) (fun _ => rfl) (fun h k => k.trans h)
    (fun t u => completeTag_locked (f t) g [] u) l s

theorem leaveShutdown_locked (s : State) : (leaveShutdown s).safeLocked = s.safeLocked := by
  obtain ⟨hlocked, _⟩ := leftShutdown_leaves s
  rw [leaveShutdown_restarts]
  exact (completeTags_locked id stOk _ _).trans ((left_serviceRestarted _).safeLocked.trans hlocked)

/-- What the end of a run leaves. -/
structure RunEnded (s t : State) : Prop where
  safeLocked : t.safeLocked = s.safeLocked
  op : t.op = s.op
  tags : t.folio.tags = s.folio.tags
  replies : t.folio.replies = s.folio.replies
  rows : t.burn.rows = s.burn.rows
  abortTags : t.burn.abortTags = s.burn.abortTags
  now : t.now = s.now
  tim : t.tim = s.tim

theorem RunClosed.ended {r : BurnRec} {u : State} (h : RunClosed s r u) : RunEnded s u := by
  obtain ⟨hpart, _, _, _, _, hrows, htags⟩ := h
  exact ⟨(congrArg State.safeLocked hpart :), (congrArg State.op hpart :), (congrArg (fun v => v.folio.tags) hpart :),
    (congrArg (fun v => v.folio.replies) hpart :), hrows, htags, (congrArg State.now hpart :), (congrArg State.tim hpart :)⟩

theorem RunEnded.record {u : State} (h : RunEnded s u) (code i : Nat) (args : List Word) : RunEnded s (record u code i args) := by
  have hev : EvStep u (Machine.record u code i args) := ev_record (.refl u)
  exact ⟨hev.safeLocked.trans h.safeLocked, (soStays_record u code i args).op.trans h.op, hev.folio_tags.trans h.tags,
    hev.folio_replies.trans h.replies, by rw [hev.burn]; exact h.rows, by rw [hev.burn]; exact h.abortTags, hev.now.trans h.now,
    hev.tim.trans h.tim⟩

theorem closeRun_ends (aborted : Bool) (s : State) : RunEnded s (closeRun aborted s) := by
  cases hcur : s.burn.cur with
  | none =>
    have hself : closeRun aborted s = s := by
      unfold closeRun
      rw [hcur]
    rw [hself]
    exact ⟨rfl, rfl, rfl, rfl, rfl, rfl, rfl, rfl⟩
  | some r =>
    have hclosed := (closed_closes aborted s r).ended
    rw [closeRun_records hcur]
    exact rel_ite hclosed (rel_ite (hclosed.record ..) (hclosed.record ..))

theorem nextUnit_locked (rest : List Nat) (w : State) : (nextUnit rest w).safeLocked = w.safeLocked := by
  unfold nextUnit
  extract_lets v
  have hv : v.safeLocked = w.safeLocked := rfl
  clear_value v
  split
  · exact (leaveShutdown_locked _).trans ((closeRun_ends true v).safeLocked.trans hv)
  split
  · exact hv
  split
  · exact (closeRun_ends false v).safeLocked.trans hv
  split
  · split
    · unfold burnishDead
      exact (completeTags_locked TagEntry.tag stBurnish _ _).trans ((closeRun_ends false _).safeLocked.trans hv)
    · exact hv
  · exact hv

/-- A unit outside SRAM that fails at startup locks the device (R453). -/
theorem unitEnd_locks {u : Nat} {rest : List Nat} {r : BurnRec} (hrun : s.burn.phase = .running) (htodo : s.burn.todo = u :: rest)
    (hcur : s.burn.cur = some r) (hkind : r.kind = 1) {c : Nat} {g : Word} {rows : List FailRow} (hfail : unitResult s u c g rows = 2)
    (hu : u < 16 ∨ 111 < u) : ∃ t, exec (.burnishUnitEnd c g rows) s = .next t ∧ t.safeLocked = true := by
  obtain ⟨w, hburn, _, _, _, _, hend⟩ := unitEnd_ends hrun htodo hcur c g rows
  rw [if_pos ⟨hkind, hfail⟩] at hend
  have hcurw : w.burn.cur = some (recNoted s u c g rows r) := by rw [hburn]; rfl
  have hboot : bootFail u rest w = nextUnit rest { w with safeLocked := true } := by
    unfold bootFail
    rw [hcurw]
    exact if_neg fun h => by omega
  exact ⟨_, congrArg Host.Outcome.next (hend.trans hboot), nextUnit_locked rest _⟩

/-! The drain before unit 178 (R444). -/

theorem drainTimeout_goes {u v : Nat} {rest : List Nat} (hdrain : s.burn.phase = .draining) (htags : s.folio.tags ≠ [])
    (htodo : s.burn.todo = u :: v :: rest) (hv : v ≠ 178) (habort : s.burn.abortPend = false) :
    exec .burnishDrainTimeout s = if s.burn.unitAt + 10 * msTicks ≤ s.now then
      .next { s with burn := { s.burn with phase := .running, todo := v :: rest, unit := v, unitAt := s.now } } else .next s := by
  have hexec : exec .burnishDrainTimeout s = .next (if s.burn.phase = .draining ∧ s.folio.tags ≠ [] ∧
      s.burn.unitAt + 10 * msTicks ≤ s.now then nextUnit s.burn.todo.tail (updBurn s fun b => { b with phase := .running }) else s) := rfl
  rw [hexec]
  by_cases hdue : s.burn.unitAt + 10 * msTicks ≤ s.now
  · rw [if_pos ⟨hdrain, htags, hdue⟩, if_pos hdue, htodo, List.tail_cons,
      nextUnit_begins (w := updBurn s fun b => { b with phase := .running }) habort, if_neg fun h => hv h.1]
    rfl
  · rw [if_neg fun h => hdue h.2.2, if_neg hdue]

/-! The image loaded again (R438). -/

theorem tblGet_append_right {α : Type} {l t : Tbl α} {k : Nat} (h : ∀ e ∈ l, e.1 ≠ k) (d : α) : tblGet (l ++ t) d k = tblGet t d k := by
  induction l with
  | nil => rfl
  | cons e l ih =>
    exact (if_neg (h e List.mem_cons_self)).trans (ih fun x hx => h x (List.mem_cons_of_mem e hx))

theorem tblGet_append_left {α : Type} {l t : Tbl α} {k : Nat} (h : ∀ e ∈ t, e.1 ≠ k) (d : α) : tblGet (l ++ t) d k = tblGet l d k := by
  induction l with
  | nil =>
    have hnone := tblGet_append_right (l := t) (t := []) h d
    rw [List.append_nil] at hnone
    exact hnone
  | cons e l ih => exact if_congr Iff.rfl rfl ih

theorem tblGet_kept {α : Type} (l : Tbl α) (d : α) (p : Nat → Bool) {k : Nat} (hk : p k = true) :
    tblGet (l.filter fun e => p e.1) d k = tblGet l d k := by
  have h := tblGet_dropped l d (fun n => !p n) k
  simpa [hk] using h

/-- A table moved down by `lo`. -/
theorem tblGet_moved {α : Type} (l : Tbl α) (d : α) (lo k : Nat) (h : ∀ e ∈ l, lo ≤ e.1) :
    tblGet (l.map fun c => (c.1 - lo, c.2)) d k = tblGet l d (lo + k) := by
  induction l with
  | nil => rfl
  | cons e l ih =>
    have hle := h e List.mem_cons_self
    exact if_congr (by omega) rfl (ih fun x hx => h x (List.mem_cons_of_mem e hx))

/-- The image stands at address 0, and what lies beyond it as it was. -/
theorem readByte_loadImage (n : Nat) (s : State) (a : Nat) :
    readByte (loadImage n s) a = if a < slotSize then readByte s (slotBase n + a) else readByte s a := by
  have hcells : (loadImage n s).mem.cells =
      (s.mem.cells.filter fun c => decide (slotBase n ≤ c.1) && decide (c.1 < slotBase n + slotSize)).map (fun c => (c.1 - slotBase n, c.2)) ++
        s.mem.cells.filter fun c => decide (slotSize ≤ c.1) := rfl
  unfold readByte
  rw [hcells]
  split
  next hlow =>
    rw [tblGet_append_left (fun e he => by
      have hge := (List.mem_filter.1 he).2
      simp only [decide_eq_true_eq] at hge
      omega) 0, tblGet_moved _ 0 (slotBase n) a fun e he => by
        have hin := (List.mem_filter.1 he).2
        simp only [Bool.and_eq_true, decide_eq_true_eq] at hin
        exact hin.1]
    exact tblGet_kept s.mem.cells 0 (fun k => decide (slotBase n ≤ k) && decide (k < slotBase n + slotSize)) (by simp [hlow])
  next hhigh =>
    rw [tblGet_append_right (fun e he => by
      obtain ⟨c, hc, rfl⟩ := List.mem_map.1 he
      have hin := (List.mem_filter.1 hc).2
      simp only [Bool.and_eq_true, decide_eq_true_eq] at hin
      change c.1 - slotBase n ≠ a
      omega) 0]
    exact tblGet_kept s.mem.cells 0 (fun k => decide (slotSize ≤ k)) (by simpa using hhigh)

/-- The state whose image is loaded again and whose cores start. -/
def reloaded (s : State) : State :=
  updBurn (updPlate (loadImage s.plate.bootSlot (readSlot s.plate.bootSlot s)) fun p =>
    { p with wdTick := (loadImage s.plate.bootSlot (readSlot s.plate.bootSlot s)).now }) fun b => { b with reload := false }

theorem reloaded_reloads (s : State) : (reloaded s).burn = { s.burn with reload := false } ∧ (reloaded s).op = s.op ∧
    (reloaded s).nv = s.nv ∧ (reloaded s).now = s.now ∧ (reloaded s).tim = s.tim ∧
    ∀ a, readByte (reloaded s) a = if a < slotSize then readByte s (slotBase s.plate.bootSlot + a) else readByte s a := by
  have hread : ReadStep s (readSlot s.plate.bootSlot s) := by
    unfold readSlot
    exact read_readCells _ s
  have hbytes : ∀ a, readByte (reloaded s) a = readByte (loadImage s.plate.bootSlot (readSlot s.plate.bootSlot s)) a := fun _ => rfl
  have hsame : ∀ a, readByte (readSlot s.plate.bootSlot s) a = readByte s a := fun a => by
    unfold readByte
    rw [hread.cells]
  refine ⟨?_, ?_, ?_, ?_, ?_, fun a => ?_⟩
  case refine_6 => rw [hbytes, readByte_loadImage, hsame, hsame]
  all_goals
    obtain ⟨P, mk, er, ce, q, heq⟩ := hread
    unfold reloaded
    rw [heq]
    rfl

theorem doneCode_runResult (s : State) (r : BurnRec) : doneCode (runResult s r) = runResult s r := by
  unfold runResult
  split
  · rfl
  · split <;> rfl

theorem recFails_iff (r : BurnRec) : recFails r = true ↔ ∃ u, u < 180 ∧ recResult r u = 2 := by
  unfold recFails
  simp

theorem runResult_fails {r : BurnRec} (h : ∃ u, u < 180 ∧ recResult r u = 2) : runResult s r = 1 := if_pos ((recFails_iff r).2 h)

theorem runResult_covers {r : BurnRec} (h : ∀ u, u < 180 → recResult r u ≠ 2) :
    runResult s r = if s.burn.set.all (fun u => recCovered r u) then 0 else 2 :=
  if_neg fun hf => by
    obtain ⟨u, hu, hres⟩ := (recFails_iff r).1 hf
    exact h u hu hres

theorem reloadDone_closes {r : BurnRec} (hreload : s.burn.reload = true) (hcur : s.burn.cur = some r) :
    ∃ t r', exec .burnishReloadDone s = .next t ∧ t.burn.cur = some r' ∧ t.burn.phase = .closed ∧ t.burn.reload = false ∧
      r'.aborted = false ∧ ((∃ u, u < 180 ∧ recResult r u = 2) → r'.result = 1) ∧
      ((∀ u, u < 180 → recResult r u ≠ 2) → r'.result = if s.burn.set.all (fun u => recCovered r u) then 0 else 2) ∧
      (s.op = .shutdown → Raised s t 0x0C01 0 [wrd r'.result]) ∧ t.op = s.op ∧ t.nv = s.nv ∧
      (∀ a, readByte t a = if a < slotSize then readByte s (slotBase s.plate.bootSlot + a) else readByte s a) := by
  have hexec : exec .burnishReloadDone s = .next (closeRun false (reloaded s)) :=
    congrArg Host.Outcome.next (if_neg (by rw [hreload]; decide))
  obtain ⟨hburn, hop, hnv, hnow, htim, hbytes⟩ := reloaded_reloads s
  have hcur' : (reloaded s).burn.cur = some r := by rw [hburn]; exact hcur
  have hset : (reloaded s).burn.set = s.burn.set := by rw [hburn]
  have hclosed := closed_closes false (reloaded s) r
  rw [closeRun_records hcur', if_neg (c := false = true) Bool.false_ne_true, hop] at hexec
  have hrel : (closed false (reloaded s) r).burn.reload = false := by rw [hclosed.reload, hburn]
  have hresult : (recClosed false (reloaded s) r).result = runResult (reloaded s) r := rfl
  have haborted : (recClosed false (reloaded s) r).aborted = false := rfl
  generalize recClosed false (reloaded s) r = r' at *
  generalize closed false (reloaded s) r = u at *
  obtain ⟨hpart, hcells, hc, hphase, _, _, _⟩ := hclosed
  have huop : u.op = s.op := (congrArg State.op hpart :).trans hop
  have hunv : u.nv = s.nv := (congrArg State.nv hpart :).trans hnv
  have hubytes : ∀ a, readByte u a = readByte (reloaded s) a := fun a => by
    unfold readByte
    rw [hcells]
  have hunow : u.now = s.now := (congrArg State.now hpart :).trans hnow
  have hutim : u.tim = s.tim := (congrArg State.tim hpart :).trans htim
  have hfails : (∃ u, u < 180 ∧ recResult r u = 2) → r'.result = 1 := fun h => hresult.trans (runResult_fails h)
  have hcovers : (∀ u, u < 180 → recResult r u ≠ 2) → r'.result = if s.burn.set.all (fun u => recCovered r u) then 0 else 2 :=
    fun h => hresult.trans (by rw [runResult_covers h, hset])
  by_cases hshut : s.op = .shutdown
  · rw [if_neg (not_not.2 hshut)] at hexec
    have hev : EvStep u (record u 0x0C01 0 [wrd (doneCode r'.result)]) := ev_record (.refl u)
    refine ⟨_, r', hexec, by rw [hev.burn]; exact hc, by rw [hev.burn]; exact hphase, by rw [hev.burn]; exact hrel, haborted, hfails, hcovers,
      fun _ => ?_, (soStays_record u _ 0 _).op.trans huop, hev.nv.trans hunv, fun a => ?_⟩
    · rw [hresult, doneCode_runResult]
      exact raised_of (record_raises u 0x0C01 0 _) hunow (congrArg Timing.timeValid hutim)
    · rw [← hbytes, ← hubytes]
      unfold readByte
      rw [hev.mem_cells]
  · rw [if_pos hshut] at hexec
    exact ⟨u, r', hexec, hc, hphase, hrel, haborted, hfails, hcovers, fun h => absurd h hshut, huop, hunv,
      fun a => (hubytes a).trans (hbytes a)⟩

/-! BURNISH_ABORT (R446). -/

section Abort
variable {tag : Nat} {ws : List Word} (h : Starts s tag 0xB2 ws)
include h

theorem abort_waits (hclosed : s.burn.phase ≠ .closed) (hdrain : s.burn.phase ≠ .draining) : ∃ t, exec (.burnishAbort tag) s = .next t ∧
    Waiting s t tag ∧
    t = { s with folio := t.folio, burn := { s.burn with abortTags := s.burn.abortTags ++ [tag], abortPend := true } } := by
  have hbody : bodyBurnishAbort tag ws (begun s tag) = .wait (updBurn (updBurn (begun s tag) fun b =>
      { b with abortTags := b.abortTags ++ [tag] }) fun b => { b with abortPend := true }) := (if_neg hclosed).trans (if_neg hdrain)
  obtain ⟨hrun, hwait⟩ := waits h hbody rfl rfl
  exact ⟨_, congrArg Host.Outcome.next hrun, hwait, rfl⟩

/-- The last command that waits for the device to leave SHUTDOWN is answered there. -/
theorem leaveShutdown_answers {u : State} (hop : u.op = .shutdown) (habort : u.burn.abortTags = [tag])
    (htags : u.folio.tags = (begun s tag).folio.tags) (hreplies : u.folio.replies = s.folio.replies) :
    Replied s (leaveShutdown u) tag 0 [] ∧ (leaveShutdown u).op ∈ [OpState.standby, OpState.safe] ∧
    (leaveShutdown u).burn = burnIdle u.burn ∧ Raised u (leaveShutdown u) 0x0001 0 [4, 1] ∧
    ∀ e ∈ u.book.inq, e.code ≠ 0x0902 → e ∈ (leaveShutdown u).book.inq := by
  obtain ⟨_, hburn, ht, hr, hstandby, hgrow, hraised⟩ := leftShutdown_leaves u
  have hleft := left_serviceRestarted (leftShutdown u)
  have heq : leaveShutdown u = completeTag tag stOk [] (serviceRestarted (leftShutdown u)) := by
    rw [leaveShutdown_restarts, habort]
    rfl
  rw [heq]
  have hraised' := hraised hop
  generalize leftShutdown u = v at *
  generalize serviceRestarted v = w at *
  have hwtags : w.folio.tags = (begun s tag).folio.tags := (hleft.tags.trans ht).trans htags
  obtain ⟨e, he, hsettle⟩ := settle_done (status := stOk) (rep := []) h hwtags
  have hreplied : Replied s (completeTag tag stOk [] w) tag 0 [] := by
    rw [show completeTag tag stOk [] w = answered w e tag stOk [] from hsettle]
    exact answered_replied he hwtags ((hleft.replies.trans hr).trans hreplies)
  have hop' : w.op ∈ [OpState.standby, OpState.safe] := by
    obtain ho | ho := hleft.op
    · rw [ho, hstandby]; decide
    · rw [ho]; decide
  obtain ⟨f, m, hkeep⟩ := completeTag_keeps tag stOk [] w
  refine ⟨hreplied, by rw [hkeep]; exact hop', by rw [hkeep]; exact hleft.burn.trans hburn, ?_, fun x hx hc => ?_⟩
  · unfold Raised
    rw [hkeep]
    exact hleft.grow _ hraised' (show (1 : Nat) ≠ 0x0902 by decide)
  · rw [hkeep]
    exact hleft.grow x (hgrow x hx hc) hc

/-- The state with the abort's tag noted. -/
def abortNoted (s : State) (tag : Nat) : State := updBurn (begun s tag) fun b => { b with abortTags := b.abortTags ++ [tag] }

theorem abort_leaves (hop : s.op = .shutdown) (hphase : s.burn.phase = .closed ∨ s.burn.phase = .draining) (hnone : s.burn.abortTags = []) :
    ∃ t, exec (.burnishAbort tag) s = .next t ∧ Replied s t tag 0 [] ∧
      t.op ∈ [OpState.standby, OpState.safe] ∧ t.burn.phase = .idle ∧ Raised s t 0x0001 0 [4, 1] ∧
      t.burn.rows = s.burn.rows ∧ (s.burn.phase = .closed → t.burn.slots = s.burn.slots) ∧
      (s.burn.phase = .draining → s.burn.cur ≠ none → ∃ w, Raised s t 0x0C02 0 [w]) := by
  have htag : (abortNoted s tag).burn.abortTags = [tag] := by
    change s.burn.abortTags ++ [tag] = [tag]
    rw [hnone]
    rfl
  have hrun (u : State) (hb : bodyBurnishAbort tag ws (begun s tag) = .wait u) : exec (.burnishAbort tag) s = .next u :=
    congrArg Host.Outcome.next ((runCommand_starts h _).trans (congrArg (settle tag) hb))
  by_cases hclosed : s.burn.phase = .closed
  · obtain ⟨hreply, hstate, hburn, hraised, _⟩ := leaveShutdown_answers h (u := abortNoted s tag) hop htag rfl rfl
    refine ⟨leaveShutdown (abortNoted s tag), hrun _ (if_pos hclosed), hreply, hstate, by rw [hburn]; rfl, raised_of hraised rfl rfl,
      by rw [hburn]; rfl, fun _ => by rw [hburn]; rfl, fun hdrain => ?_⟩
    rw [hclosed] at hdrain
    exact absurd hdrain (by decide)
  · have hdrain : s.burn.phase = .draining := hphase.resolve_left hclosed
    have hended := closeRun_ends true (abortNoted s tag)
    obtain ⟨hreply, hstate, hburn, hraised, hgrow⟩ := leaveShutdown_answers h (u := closeRun true (abortNoted s tag)) (hended.op.trans hop)
      (hended.abortTags.trans htag) hended.tags hended.replies
    refine ⟨leaveShutdown (closeRun true (abortNoted s tag)), hrun _ ((if_neg hclosed).trans (if_pos hdrain)), hreply, hstate,
      by rw [hburn]; rfl, raised_of hraised hended.now (congrArg Timing.timeValid hended.tim), ?_, fun hc => absurd hc hclosed, fun _ hcur => ?_⟩
    · rw [hburn]
      exact hended.rows
    · obtain ⟨r, hr⟩ := Option.ne_none_iff_exists'.1 hcur
      have hclose : closeRun true (abortNoted s tag) = record (closed true (abortNoted s tag) r) 0x0C02 0
          [wrd (blockCoverage (recClosed true (abortNoted s tag) r))] := by
        rw [closeRun_records (s := abortNoted s tag) hr, if_neg (not_not.2 (show (abortNoted s tag).op = .shutdown from hop)), if_pos rfl]
      have hcl := (closed_closes true (abortNoted s tag) r).ended
      have hrec : Raised s (closeRun true (abortNoted s tag)) 0x0C02 0 [wrd (blockCoverage (recClosed true (abortNoted s tag) r))] := by
        rw [hclose]
        exact raised_of (record_raises _ 0x0C02 0 _) hcl.now (congrArg Timing.timeValid hcl.tim)
      exact ⟨_, hgrow _ hrec (show (0x0C02 : Nat) ≠ 0x0902 by decide)⟩

end Abort

/-! BURNISH_RESULT (R129, R447). -/

theorem flatMap_pairs_length {α β : Type} (f g : α → β) (l : List α) : (l.flatMap fun u => [f u, g u]).length = 2 * l.length := by
  induction l with
  | nil => rfl
  | cons u l ih =>
    rw [List.flatMap_cons, List.length_append, ih, List.length_cons, List.length_cons, List.length_cons, List.length_nil]
    omega

theorem recBody_length (r : BurnRec) (st : Nat) : (recBody r st).length = 453 := by
  have hfails : (((r.fails.flatMap failWords) ++ List.replicate 64 (0 : Word)).take 64).length = 64 := by
    rw [List.length_take, List.length_append, List.length_replicate]
    omega
  unfold recBody
  simp only [List.length_append, List.length_cons, List.length_nil, List.length_map, List.length_range, flatMap_pairs_length, hfails]

theorem recWords_length (r : BurnRec) : (recWords r).length = 454 := by
  unfold recWords
  rw [List.length_append, recBody_length]
  rfl

theorem resultReply_replies (s : State) (n : Option Nat) (r : BurnRec) : ∃ st u, resultReply s n r = .done st (recWords r) u ∧
    st ∈ [0, stPoison] ∧ ReadStep s u := by
  unfold resultReply
  extract_lets cells u bad
  refine ⟨_, u, rfl, ?_, read_readCells cells s⟩
  split <;> decide

section Result
variable {tag : Nat}

/-- BURNISH_RESULT that asks for the newest closed record. -/
theorem bodyResult_newest (s : State) : bodyBurnishResult [0] s = match newestWith (readHeads s) fun r => decide (2 ≤ r.state) with
    | some (n, r) => resultReply (readHeads s) (some n) r
    | none => .done stOk (0x4255524E :: List.replicate 453 0) (readHeads s) := by
  have hsel : wbit (pw [0] 0) 0 = false := by decide
  have hbits : hasBits (pw [0] 0) 0xFFFFFFFE = false := by decide
  unfold bodyBurnishResult
  extract_lets sel heads
  have hs : sel = false := hsel
  refine (checked_nil _ (fun c hc => by rw [List.mem_singleton.1 hc, hs, hbits]; rfl) _).trans ?_
  rw [hs]
  exact if_neg Bool.false_ne_true

theorem burnishResult_replies (h : Starts s tag 0xB3 [0]) : ∃ t st ws, exec (.burnishResult tag) s = .next t ∧ Replied s t tag st ws ∧
    st ∈ [0, stPoison] ∧ ws.length = 454 ∧ t.mem.cells = s.mem.cells ∧ t.nv = s.nv := by
  have hheads : ReadStep (begun s tag) (readHeads (begun s tag)) := read_readCells _ _
  obtain ⟨st, ws, u, hbody, hst, hlen, hread⟩ : ∃ st ws u, bodyBurnishResult [0] (begun s tag) = .done st ws u ∧ st ∈ [0, stPoison] ∧
      ws.length = 454 ∧ ReadStep (begun s tag) u := by
    rw [bodyResult_newest]
    split
    next n r _ =>
      obtain ⟨st, u, heq, hst, hread⟩ := resultReply_replies (readHeads (begun s tag)) (some n) r
      exact ⟨st, _, u, heq, hst, recWords_length r, hheads.trans hread⟩
    next => exact ⟨stOk, _, _, rfl, by decide, by rw [List.length_cons, List.length_replicate], hheads⟩
  obtain ⟨P, mk, er, ce, q, heq⟩ := hread
  obtain ⟨t, hrun, hreply, f, ht⟩ := completes h hbody (by rw [heq]) (by rw [heq]; rfl)
  refine ⟨t, st, ws, congrArg Host.Outcome.next hrun, hreply, hst, hlen, ?_, ?_⟩
  · rw [ht, heq]; rfl
  · rw [ht, heq]; rfl

section Clean
variable (herrs : s.mem.errs = [])
include herrs

theorem readHeads_clean : readHeads s = s := if_pos herrs

theorem wordMark_mram {a : Nat} (ha : memOf a = 1) : wordMark s a = markAt s a := by
  have herr : errAt s a = .none := by
    unfold errAt
    rw [herrs]
    rfl
  unfold wordMark storedMark
  rw [if_neg (by rw [ha]; decide), herr]
  exact if_neg (by decide)

omit herrs in
theorem slotRec_begun (n : Nat) (herrs : s.mem.errs = []) : slotRec (begun s tag) n = slotRec s n := by
  have hmark (u : State) (hu : u.mem.errs = []) (a : Nat) : readMark u a = wordMark u a := by
    unfold readMark
    rw [show readCells [a] u = u from if_pos hu]
  unfold slotRec
  simp only [hmark _ herrs, hmark (begun s tag) herrs]
  rfl

theorem newestWith_begun (p : BurnRec → Bool) : newestWith (begun s tag) p = newestWith s p := by
  unfold newestWith
  rw [slotRec_begun 0 herrs, slotRec_begun 1 herrs]

omit herrs in
theorem newestWith_slot {p : BurnRec → Bool} {n : Nat} {r : BurnRec} (hnew : newestWith s p = some (n, r)) : n < 2 := by
  unfold newestWith at hnew
  split at hnew
  · split at hnew <;> (obtain ⟨rfl, _⟩ := Prod.mk.inj (Option.some.inj hnew); decide)
  · obtain ⟨rfl, _⟩ := Prod.mk.inj (Option.some.inj hnew)
    decide
  · obtain ⟨rfl, _⟩ := Prod.mk.inj (Option.some.inj hnew)
    decide
  · exact nomatch hnew

/-- The words of a record in MRAM are marked where their cells are. -/
theorem recCells_marked {n : Nat} (hn : n < 2) : (((List.range 227).map fun w => recAddr n (2 * w)).any fun a => decide (wordMark s a = .bite)) = true ↔
    ∃ w, w < 454 ∧ markAt s (recAddr n w) = .bite := by
  have hmark (w : Nat) (hw : w < 227) : wordMark s (recAddr n (2 * w)) = markAt s (recAddr n (2 * w)) := by
    refine wordMark_mram herrs ?_
    unfold memOf recAddr
    rw [if_neg (by omega), if_pos (by unfold lpBase; omega)]
  simp only [List.any_map, List.any_eq_true, List.mem_range, Function.comp_apply, decide_eq_true_eq]
  constructor
  · rintro ⟨w, hw, hbite⟩
    exact ⟨2 * w, by omega, (hmark w hw).symm.trans hbite⟩
  · rintro ⟨w, hw, hbite⟩
    refine ⟨w / 2, by omega, ?_⟩
    rw [hmark _ (by omega)]
    have hcell : recAddr n (2 * (w / 2)) / 8 = recAddr n w / 8 := by
      unfold recAddr
      omega
    unfold markAt at hbite ⊢
    rw [hcell]
    exact hbite

theorem burnishResult_empty (h : Starts s tag 0xB3 [0]) (hnone : newestWith s (fun r => decide (2 ≤ r.state)) = none) :
    ∃ t, exec (.burnishResult tag) s = .next t ∧ Replied s t tag 0 (0x4255524E :: List.replicate 453 0) ∧ t = { s with folio := t.folio } := by
  have hbody : bodyBurnishResult [0] (begun s tag) = .done stOk (0x4255524E :: List.replicate 453 0) (begun s tag) := by
    rw [bodyResult_newest, readHeads_clean (s := begun s tag) herrs, newestWith_begun herrs, hnone]
  obtain ⟨t, hrun, hreply, f, ht⟩ := completes h hbody rfl rfl
  exact ⟨t, congrArg Host.Outcome.next hrun, hreply, by rw [ht]; rfl⟩

theorem burnishResult_returns (h : Starts s tag 0xB3 [0]) {n : Nat} {r : BurnRec}
    (hnew : newestWith s (fun r => decide (2 ≤ r.state)) = some (n, r)) : ∃ t, exec (.burnishResult tag) s = .next t ∧
    ((∀ w, w < 454 → markAt s (recAddr n w) ≠ .bite) → Replied s t tag 0 (recWords r)) ∧
    ((∃ w, w < 454 ∧ markAt s (recAddr n w) = .bite) → Replied s t tag stPoison (recWords r)) ∧ t = { s with folio := t.folio } := by
  have hcells := recCells_marked (s := s) herrs (newestWith_slot hnew)
  have hreplies : resultReply (begun s tag) (some n) r = .done (if ((List.range 227).map fun w => recAddr n (2 * w)).any fun a =>
      decide (wordMark s a = .bite) then stPoison else stOk) (recWords r) (begun s tag) := by
    unfold resultReply
    extract_lets cells u bad
    have hu : u = begun s tag := if_pos herrs
    have hbad : bad = ((List.range 227).map fun w => recAddr n (2 * w)).any fun a => decide (wordMark s a = .bite) := by
      unfold bad
      rw [hu]
      rfl
    rw [hu, hbad]
  have hbody : bodyBurnishResult [0] (begun s tag) = resultReply (begun s tag) (some n) r := by
    rw [bodyResult_newest, readHeads_clean (s := begun s tag) herrs, newestWith_begun herrs, hnew]
  obtain ⟨t, hrun, hreply, f, ht⟩ := completes h (hbody.trans hreplies) rfl rfl
  refine ⟨t, congrArg Host.Outcome.next hrun, fun hclean => ?_, fun hbite => ?_, by rw [ht]; rfl⟩
  · rw [if_neg fun hany => by
      obtain ⟨w, hw, hbite⟩ := hcells.1 hany
      exact hclean w hw hbite] at hreply
    exact hreply
  · rw [if_pos (hcells.2 hbite)] at hreply
    exact hreply

end Clean

theorem burnishResult_running {r : BurnRec} (h : Starts s tag 0xB3 [1]) (hop : s.op = .shutdown) (hcur : s.burn.cur = some r) :
    ∃ t, exec (.burnishResult tag) s = .next t ∧ Replied s t tag 0 (recWords r) ∧ t = { s with folio := t.folio } := by
  have hbody : bodyBurnishResult [1] (begun s tag) = .done stOk (recWords r) (begun s tag) := by
    have hsel : wbit (pw [1] 0) 0 = true := by decide
    have hbits : hasBits (pw [1] 0) 0xFFFFFFFE = false := by decide
    have hbop : (begun s tag).op = .shutdown := hop
    have hbcur : (begun s tag).burn.cur = some r := hcur
    have hreply : resultReply (begun s tag) none r = .done stOk (recWords r) (begun s tag) := by
      unfold resultReply readCells
      dsimp only
      rw [show (if (begun s tag).mem.errs = [] then begun s tag else forEach [] (fun a s => demandRead s a) (begun s tag)) = begun s tag from
        ite_self _]
      rfl
    unfold bodyBurnishResult
    extract_lets sel heads
    have hs : sel = true := hsel
    refine (checked_nil _ (fun c hc => by rw [List.mem_singleton.1 hc, hs, hbits, hbop]; rfl) _).trans ?_
    rw [if_pos hs, if_pos hbop, hbcur]
    exact hreply
  obtain ⟨t, hrun, hreply, f, ht⟩ := completes h hbody rfl rfl
  exact ⟨t, congrArg Host.Outcome.next hrun, hreply, by rw [ht]; rfl⟩

end Result

/-- Settles O58: each row of a run is the lemma above; a unit's block is restored without touching the record. -/
theorem burnishRun : Obligations.BurnishRun := by
  intro s
  refine ⟨fun c g rows => ?_, fun c g rows u v rest r hrun htodo hcur hkind habort => ?_,
    fun c g rows u rest r hrun htodo hcur hkind hfail hu => unitEnd_locks hrun htodo hcur hkind hfail hu,
    fun hdrain => ⟨fun htags => congrArg Host.Outcome.next (if_pos ⟨hdrain, htags⟩),
      fun u v rest htags htodo hv habort => drainTimeout_goes hdrain htags htodo hv habort⟩,
    fun r hreload hcur _ => reloadDone_closes hreload hcur,
    fun tag ws hop h => ⟨abort_waits h, abort_leaves h hop⟩, fun tag h => burnishResult_replies h,
    fun tag h herrs => ⟨burnishResult_empty herrs h, fun n r hnew => burnishResult_returns herrs h hnew⟩,
    fun tag r h hop hcur => burnishResult_running h hop hcur⟩
  · exact apply_ite Host.Outcome.next _ _ _
  · obtain ⟨t, r', hexec, hc, rfl, hleft, hslot, hphase, hunit, hcells, hpart⟩ :=
      unitEnd_records hrun htodo hcur hkind habort c g rows
    exact ⟨t, _, _, hexec, hc, hleft, recNoted_result .., rfl, recNoted_covered .., recNoted_count .., recNoted_sig ..,
      fun w hw => recNoted_ne _ _ _ _ _ _ hw, hslot, hphase, hunit, hcells, hpart⟩

end Sys2Proof.Proofs
end

section
/-!
PROOFS. O50: the Margin link comes up and goes down, and its cells are sent, acknowledged and sent again (R401 to R407).
-/
namespace Sys2Proof.Proofs
open Sys2Proof.Machine Sys2Proof.Safety Sys2Proof.Laws

variable {s : State}

/-! The link comes up (R402, R404). -/

section Down
variable (hrun : marginRuns s = true) (hdown : s.marg.linkUp = false)
include hrun hdown

theorem laneDeskew_deskews : ∃ t, exec .marginLaneDeskew s = .next t ∧
    t = { s with marg := { s.marg with deskewed := true, linkTick := none } } :=
  ⟨_, congrArg Host.Outcome.next (if_pos ⟨hrun, by rw [hdown]; rfl⟩), rfl⟩

section Deskewed
variable (hdesk : s.marg.deskewed = true)
include hdesk

omit hrun hdown hdesk in
theorem linkCellDue_early {x : Nat} (hx : s.marg.linkTick = some x) (hlate : s.now < x + 2 * usTicks) : exec .linkCellDue s = .next s :=
  congrArg Host.Outcome.next (if_neg fun h => by
    obtain ⟨_, _, _, hdue⟩ := h
    rw [hx, Option.all_some, decide_eq_true_eq] at hdue
    omega)

theorem linkCellDue_sends (hdue : ∀ x, s.marg.linkTick = some x → x + 2 * usTicks ≤ s.now) : ∃ t c, exec .linkCellDue s = .next t ∧
    t.marg.wire = some c ∧ c.ctype = .link ∧ c.payload = linkPayload s ∧ t.marg.linkTick = some s.now ∧
    t.marg.wireEnd = s.now + 88 ∧ t = { s with marg := t.marg } := by
  have hall : (s.marg.linkTick.all fun t => decide (t + 2 * usTicks ≤ s.now)) = true := by
    cases hx : s.marg.linkTick with
    | none => rfl
    | some x => exact decide_eq_true (hdue x hx)
  exact ⟨_, _, congrArg Host.Outcome.next (if_pos ⟨hrun, hdesk, by rw [hdown]; rfl, hall⟩), rfl, rfl, rfl, rfl, rfl, rfl⟩

theorem linkCellReceived_notes (b : Bool) (p : Word) : exec (.linkCellReceived b p) s =
    .next { s with marg := { s.marg with peerSeen := true, peerSide := b, peerPresence := p } } :=
  congrArg Host.Outcome.next (if_pos ⟨hrun, hdesk, by rw [hdown]; rfl⟩)

omit hrun hdown hdesk in
/-- The partner's LINK cell noted. -/
def peerNoted (b : Bool) (p : Word) (s : State) : State := updMarg s fun m => { m with
  peerSeen := true, peerSide := b, peerPresence := p, sideConflict := b = m.sideB }

omit hrun hdown hdesk in
/-- The link up with the other side, whose presence word is `p`. -/
def linkedUp (b : Bool) (p : Word) (s : State) : State :=
  let s := parSet (peerNoted b p s) 11 4 p
  let s := updMarg s fun m => { m with
    linkUp := true, txSeq := 0, rxSeq := 0, unacked := [], resend := [], rxTick := some s.now, statusTick := none, hbSeen := false, outSent := [], credit := 0, mirrorPos := 0,
    mirrorStart := s.now, mirrorTop := 0xFF, mirrorOk := false, partnerRole := 0, partnerElig := 0xFF, presMismatch := decide (p ≠ presence s.part),
    resends := 0, crcRun := 0 }
  if s.marg.role = 2 then updTim s fun t => { t with stepDue := true } else s

theorem exec_marginLinkUp (b : Bool) (p : Word) : exec (.marginLinkUp b p) s = .next (if (peerNoted b p s).marg.sideConflict then peerNoted b p s
    else if decide (p ≠ presence s.part) then raise (linkedUp b p s) 0x0B06 0 [p] else linkedUp b p s) :=
  congrArg Host.Outcome.next (if_neg (by rw [hrun, hdesk, hdown]; decide))

theorem marginLinkUp_conflicts (p : Word) : ∃ t, exec (.marginLinkUp s.marg.sideB p) s = .next t ∧ t.marg.linkUp = false ∧
    t.marg.sideConflict = true ∧ t = { s with marg := t.marg } := by
  have hconflict : (peerNoted s.marg.sideB p s).marg.sideConflict = true := decide_eq_true rfl
  have hexec := exec_marginLinkUp hrun hdown hdesk s.marg.sideB p
  rw [if_pos hconflict] at hexec
  exact ⟨_, hexec, hdown, hconflict, rfl⟩

omit hrun hdown hdesk in
/-- The link is up in `u`, with what of the device that changed. -/
structure Linked (s u : State) (p : Word) : Prop where
  up : u.marg.linkUp = true
  sideConflict : u.marg.sideConflict = false
  txSeq : u.marg.txSeq = 0
  rxSeq : u.marg.rxSeq = 0
  unacked : u.marg.unacked = []
  presence : u.marg.presMismatch = decide (p ≠ presence s.part)
  part : u = { s with par := (parSet s 11 4 p).par, marg := u.marg, tim := { s.tim with stepDue := u.tim.stepDue } }

omit hrun hdown hdesk in
theorem linkedUp_links (p : Word) (s : State) : Linked s (linkedUp (!s.marg.sideB) p s) p := by
  have hside : decide ((!s.marg.sideB) = s.marg.sideB) = false := by cases s.marg.sideB <;> rfl
  unfold linkedUp
  extract_lets u v
  have hv : Linked s v p := ⟨rfl, hside, rfl, rfl, rfl, rfl, rfl⟩
  clear_value v
  split
  · obtain ⟨hup, hconf, htx, hrx, hun, hpres, hpart⟩ := hv
    exact ⟨hup, hconf, htx, hrx, hun, hpres, congrArg (fun w => updTim w fun x => { x with stepDue := true }) hpart⟩
  · exact hv

omit hrun hdown hdesk in
/-- A reaction may be said of the state with the Margin link as the reaction leaves it. -/
theorem reacted_linked {u t : State} {p : Word} (h : Linked s u p) (hev : EvStep u t) :
    Reacted { s with par := (parSet s 11 4 p).par, marg := t.marg, tim := { s.tim with stepDue := t.tim.stepDue } } t := by
  have hstate : { u with marg := t.marg } =
      { s with par := (parSet s 11 4 p).par, marg := t.marg, tim := { s.tim with stepDue := u.tim.stepDue } } :=
    congrArg (fun v => { v with marg := t.marg }) h.part
  rw [hev.tim, ← hstate]
  refine ⟨(reacted_of_evStep hev).1, ?_⟩
  obtain ⟨⟨_, _, _, _, _, _, _, _, _, _, _, _, _, _, _, _, _, _, _, heq⟩, _, _⟩ := hev
  rw [heq]

theorem marginLinkUp_links (p : Word) : ∃ t, exec (.marginLinkUp (!s.marg.sideB) p) s = .next t ∧ t.marg.linkUp = true ∧
    t.marg.sideConflict = false ∧ t.marg.txSeq = 0 ∧ t.marg.rxSeq = 0 ∧ t.marg.unacked = [] ∧ parGet t 11 4 = p ∧
    t.marg.presMismatch = decide (p ≠ presence s.part) ∧ (p ≠ presence s.part → Raised s t 0x0B06 0 [p]) ∧
    Reacted { s with par := (parSet s 11 4 p).par, marg := t.marg, tim := { s.tim with stepDue := t.tim.stepDue } } t := by
  have hside : (peerNoted (!s.marg.sideB) p s).marg.sideConflict = false := by
    change decide ((!s.marg.sideB) = s.marg.sideB) = false
    cases s.marg.sideB <;> rfl
  have hexec := exec_marginLinkUp hrun hdown hdesk (!s.marg.sideB) p
  rw [if_neg (by rw [hside]; exact Bool.false_ne_true)] at hexec
  have hlinked := linkedUp_links p s
  generalize linkedUp (!s.marg.sideB) p s = u at *
  have hpar : parGet u 11 4 = p := by
    unfold parGet
    rw [hlinked.part]
    exact parGet_parSet_self s 11 4 p
  by_cases hbad : p ≠ presence s.part
  · rw [if_pos (decide_eq_true hbad)] at hexec
    have hev : EvStep u (raise u 0x0B06 0 [p]) := ev_raise (.refl u)
    have hraised : Raised s (raise u 0x0B06 0 [p]) 0x0B06 0 [p] :=
      raised_of (raise_raises u (by decide) 0 [p]) (congrArg State.now hlinked.part :) (congrArg (fun v => v.tim.timeValid) hlinked.part :)
    generalize raise u 0x0B06 0 [p] = t at *
    have hkept : parGet t 11 4 = parGet u 11 4 := parGet_of_evStep hev (by decide) (by decide) (by decide)
    have hreact := reacted_linked hlinked hev
    obtain ⟨⟨_, _, _, _, _, _, _, _, _, _, _, _, _, _, _, _, _, _, _, heq⟩, _, _⟩ := hev
    exact ⟨t, hexec, by rw [heq]; exact hlinked.up, by rw [heq]; exact hlinked.sideConflict, by rw [heq]; exact hlinked.txSeq,
      by rw [heq]; exact hlinked.rxSeq, by rw [heq]; exact hlinked.unacked, hkept.trans hpar, by rw [heq]; exact hlinked.presence,
      fun _ => hraised, hreact⟩
  · rw [if_neg (by simpa using hbad)] at hexec
    exact ⟨u, hexec, hlinked.up, hlinked.sideConflict, hlinked.txSeq, hlinked.rxSeq, hlinked.unacked, hpar, hlinked.presence,
      fun h => absurd h hbad, reacted_linked hlinked (.refl u)⟩

end Deskewed

end Down

/-! The link goes down (R405). -/

/-- What the end of far-end service and of lock requests leaves of the link. -/
structure LinkStands (s t : State) : Prop where
  up : t.marg.linkUp = s.marg.linkUp
  deskewed : t.marg.deskewed = s.marg.deskewed
  unacked : t.marg.unacked = s.marg.unacked
  mirrorOk : t.marg.mirrorOk = s.marg.mirrorOk
  role : t.marg.role = s.marg.role
  par : t.par = s.par
  tim : t.tim = s.tim
  inq : t.book.inq = s.book.inq

theorem LinkStands.refl (s : State) : LinkStands s s := ⟨rfl, rfl, rfl, rfl, rfl, rfl, rfl, rfl⟩

theorem LinkStands.trans {s t u : State} (h : LinkStands s t) (k : LinkStands t u) : LinkStands s u :=
  ⟨k.up.trans h.up, k.deskewed.trans h.deskewed, k.unacked.trans h.unacked, k.mirrorOk.trans h.mirrorOk, k.role.trans h.role,
    k.par.trans h.par, k.tim.trans h.tim, k.inq.trans h.inq⟩

theorem linkStands_stip (s : State) (T : Stipple) : LinkStands s { s with stip := T } := ⟨rfl, rfl, rfl, rfl, rfl, rfl, rfl, rfl⟩

theorem linkStands_excludeBeyond (r : Nat) (p : Nat → Bool) (s : State) : LinkStands s (excludeBeyond r p s) :=
  forEach_rel (R := LinkStands) .refl .trans (fun _ u => linkStands_stip u _) _ s

theorem linkStands_farServiceEnd (r : Nat) (s : State) : LinkStands s (farServiceEnd r s) := by
  unfold farServiceEnd
  extract_lets ended last
  have hended : LinkStands s ended := linkStands_stip s _
  exact rel_ite (rel_ite (linkStands_stip s _) (.refl s)) (hended.trans (rel_ite (linkStands_excludeBeyond r _ ended) (.refl ended)))

theorem linkStands_completeTag (tag status : Nat) (ws : List Word) (s : State) : LinkStands s (completeTag tag status ws s) := by
  unfold completeTag
  split
  · split <;> exact ⟨rfl, rfl, rfl, rfl, rfl, rfl, rfl, rfl⟩
  · split <;> exact ⟨rfl, rfl, rfl, rfl, rfl, rfl, rfl, rfl⟩

theorem linkStands_lockAbort (s : State) : LinkStands s (lockAbort s) := by
  unfold lockAbort
  have hempty : LinkStands s (updMarg s fun m => { m with lockWait := [] }) := ⟨rfl, rfl, rfl, rfl, rfl, rfl, rfl, rfl⟩
  exact hempty.trans (forEach_rel (R := LinkStands) .refl .trans (fun w u => linkStands_completeTag _ stState [] u) _ _)

theorem linkStands_freeFarLocks (s : State) : LinkStands s (freeFarLocks s) := rel_ite (.refl s) ⟨rfl, rfl, rfl, rfl, rfl, rfl, rfl, rfl⟩

/-- The link dropped: nothing waits for its acknowledgement. -/
theorem linkDrop_drops (s : State) : (linkDrop s).marg.linkUp = false ∧ (linkDrop s).marg.deskewed = false ∧ (linkDrop s).marg.unacked = [] ∧
    (linkDrop s).marg.mirrorOk = false ∧ (linkDrop s).marg.role = s.marg.role ∧ (linkDrop s).par = s.par ∧ (linkDrop s).tim = s.tim ∧
    (linkDrop s).book.inq = s.book.inq := by
  unfold linkDrop
  extract_lets u
  have hu : u.marg.linkUp = false ∧ u.marg.deskewed = false ∧ u.marg.unacked = [] ∧ u.marg.mirrorOk = false ∧ u.marg.role = s.marg.role ∧
      u.par = s.par ∧ u.tim = s.tim ∧ u.book.inq = s.book.inq := ⟨rfl, rfl, rfl, rfl, rfl, rfl, rfl, rfl⟩
  clear_value u
  obtain ⟨hup, hdesk, hun, hmirror, hrole, hpar, htim, hinq⟩ := hu
  have hends : LinkStands u (lockAbort (freeFarLocks (forUpTo 16 farServiceEnd u))) :=
    (forUpTo_rel (R := LinkStands) .refl .trans (fun r _ v => linkStands_farServiceEnd r v) u).trans
      ((linkStands_freeFarLocks _).trans (linkStands_lockAbort _))
  exact ⟨hends.up.trans hup, hends.deskewed.trans hdesk, hends.unacked.trans hun, hends.mirrorOk.trans hmirror, hends.role.trans hrole,
    hends.par.trans hpar, hends.tim.trans htim, hends.inq.trans hinq⟩

/-- The state that drops the link for a cause. -/
def linkLost (c : Nat) (s : State) : State :=
  updMarg (if c = 2 then updTim s fun t => { t with td4 := false } else s) fun m => { m with deskewed := false, peerSeen := false }

theorem marginLinkLoss_drops {c : Nat} (hc : c ≤ 3) (hcrc : c = 1 → 8 ≤ s.marg.crcRun) (hresend : c = 3 → 16 ≤ s.marg.resends)
    (hup : s.marg.linkUp = true) : ∃ t, exec (.marginLinkLoss c) s = .next t ∧ t.marg.linkUp = false ∧ t.marg.deskewed = false ∧
      t.marg.unacked = [] ∧ t.marg.mirrorOk = false ∧ parGet t 11 0xA = counted (parGet s 11 0xA) 1 ∧ Raised s t 0x0B03 0 [] ∧
      (c = 2 → t.tim.td4 = false) ∧ t.marg.role = s.marg.role := by
  have hlost : (linkLost c s).marg.linkUp = true ∧ (linkLost c s).par = s.par ∧ (linkLost c s).now = s.now ∧
      (linkLost c s).tim.timeValid = s.tim.timeValid ∧ (c = 2 → (linkLost c s).tim.td4 = false) ∧ (linkLost c s).marg.role = s.marg.role := by
    unfold linkLost
    split
    · exact ⟨hup, rfl, rfl, rfl, fun _ => rfl, rfl⟩
    next hne => exact ⟨hup, rfl, rfl, rfl, fun h => absurd h hne, rfl⟩
  have hexec : exec (.marginLinkLoss c) s = .next (linkDown (linkLost c s)) := congrArg Host.Outcome.next (if_neg (by omega))
  generalize linkLost c s = u at *
  obtain ⟨hup', hpar, hnow, hvalid, htd4, hrole⟩ := hlost
  rw [show linkDown u = linkDrop (record (parCount u 11 0xA 1) 0x0B03 0 []) from if_pos hup'] at hexec
  have hev : EvStep (parCount u 11 0xA 1) (record (parCount u 11 0xA 1) 0x0B03 0 []) := ev_record (.refl _)
  have hraised : Raised s (record (parCount u 11 0xA 1) 0x0B03 0 []) 0x0B03 0 [] :=
    raised_of (record_raises (parCount u 11 0xA 1) 0x0B03 0 []) hnow hvalid
  have hcount : parGet (record (parCount u 11 0xA 1) 0x0B03 0 []) 11 0xA = counted (parGet s 11 0xA) 1 := by
    rw [parGet_of_evStep hev (by decide) (by decide) (by decide), parGet_parCount_self]
    unfold parGet
    rw [hpar]
  obtain ⟨hdown, hdesk, hun, hmirror, hkrole, hkpar, hktim, hkinq⟩ := linkDrop_drops (record (parCount u 11 0xA 1) 0x0B03 0 [])
  refine ⟨_, hexec, hdown, hdesk, hun, hmirror, ?_, ?_, fun h2 => ?_, ?_⟩
  · unfold parGet at hcount ⊢
    rw [hkpar]
    exact hcount
  · unfold Raised
    rw [hkinq]
    exact hraised
  · rw [hktim, hev.tim]
    exact htd4 h2
  · rw [hkrole, hev.marg_role]
    exact hrole

/-! Cells are sent (R406, R407). -/

/-- The cell `c` with the SEQ that this device has last received in order. -/
def acking (s : State) (c : Cell) : Cell := { c with ack := (s.marg.rxSeq + 65535) % 65536 }

/-- A sequenced cell leaves with the next SEQ, and waits for its acknowledgement. -/
theorem launchCell_sequenced {c : Cell} (hseq : cellSequenced c.ctype = true) {n m : Nat} (hrx : s.marg.rxSeq = n) (htx : s.marg.txSeq = m) :
    ∃ w, (launchCell c s).marg.wire = some w ∧ w.ctype = c.ctype ∧ w.sub = c.sub ∧ w.ack = (n + 65535) % 65536 ∧ w.seq = m ∧
      w.payload = c.payload ∧ (launchCell c s).marg.unacked = s.marg.unacked ++ [w] ∧ (launchCell c s).marg.txSeq = (m + 1) % 65536 ∧
      (launchCell c s).marg.queue = s.marg.queue ∧ (launchCell c s).marg.credit = s.marg.credit ∧
      launchCell c s = { s with marg := (launchCell c s).marg } := by
  subst hrx htx
  unfold launchCell
  dsimp only
  rw [if_pos hseq]
  exact ⟨{ c with ack := (s.marg.rxSeq + 65535) % 65536, seq := s.marg.txSeq }, rfl, rfl, rfl, rfl, rfl, rfl, rfl, rfl, rfl, rfl, rfl⟩

/-- A cell without a SEQ leaves alone. -/
theorem launchCell_plain {c : Cell} (hseq : cellSequenced c.ctype = false) {n : Nat} (hrx : s.marg.rxSeq = n) :
    ∃ w, (launchCell c s).marg.wire = some w ∧ w.ctype = c.ctype ∧ w.sub = c.sub ∧ w.ack = (n + 65535) % 65536 ∧ (launchCell c s).marg.unacked = s.marg.unacked ∧
    (launchCell c s).marg.txSeq = s.marg.txSeq ∧ (launchCell c s).marg.queue = s.marg.queue ∧
    launchCell c s = { s with marg := (launchCell c s).marg } := by
  subst hrx
  unfold launchCell
  dsimp only
  rw [if_neg (by rw [hseq]; exact Bool.false_ne_true)]
  split
  · exact ⟨{ c with ack := (s.marg.rxSeq + 65535) % 65536, payload := heartbeatPayload s }, rfl, rfl, rfl, rfl, rfl, rfl, rfl, rfl⟩
  · exact ⟨{ c with ack := (s.marg.rxSeq + 65535) % 65536 }, rfl, rfl, rfl, rfl, rfl, rfl, rfl, rfl⟩

/-- The best cell of a queue is one of its cells. -/
theorem bestCell_mem {l : List Cell} {c : Cell} (h : bestCell l = some c) : c ∈ l := by
  have key : ∀ (l : List Cell) (a : Option Cell), (∀ c, l.foldl (fun a c => match a with
      | none => some c
      | some b => if cellRank c.ctype < cellRank b.ctype then some c else some b) a = some c → c ∈ l ∨ a = some c) := by
    intro l
    induction l with
    | nil => exact fun a c h => .inr h
    | cons x l ih =>
      intro a c h
      obtain hin | hacc := ih _ c h
      · exact .inl (List.mem_cons_of_mem x hin)
      · cases a with
        | none => exact .inl (Option.some.inj hacc ▸ List.mem_cons_self)
        | some b =>
          dsimp only at hacc
          split at hacc
          · exact .inl (Option.some.inj hacc ▸ List.mem_cons_self)
          · exact .inr hacc
  exact (key l none c h).resolve_right (fun hn => nomatch hn)

theorem cellRank_eq_zero {t : CellType} (h : cellRank t = 0) : t = .heartbeat := by
  cases t <;> simp [cellRank] at h ⊢

section Send
variable (hup : s.marg.linkUp = true) (hrun : marginRuns s = true)

theorem cellSend_busy (hbusy : s.now < s.marg.wireEnd) : exec .cellSend s = .next s :=
  congrArg Host.Outcome.next (if_pos (.inr (.inr hbusy)))

include hup hrun

section Free
variable (hfree : s.marg.wireEnd ≤ s.now)
include hfree

theorem cellSend_free : ¬ ((!s.marg.linkUp) = true ∨ (!marginRuns s) = true ∨ s.now < s.marg.wireEnd) := by
  rw [hup, hrun]
  simpa using hfree

omit hup hrun hfree in
/-- A queue may send all of its cells while none is due again and fewer than 64 wait. -/
theorem cellSend_room (hresend : s.marg.resend = []) (hroom : s.marg.unacked.length < 64) :
    (decide (s.marg.unacked.length < 64) && s.marg.resend == []) = true := by
  rw [hresend, decide_eq_true hroom]
  rfl

/-- A queued cell that comes before every mailbox is sent. -/
theorem exec_cellSend_queued {c : Cell} (hresend : s.marg.resend = []) (hroom : s.marg.unacked.length < 64)
    (hbest : bestCell s.marg.queue = some c) (hrank : cellRank c.ctype ≤ 5) :
    exec .cellSend s = .next (launchCell c (updMarg s fun m => { m with queue := dropCell c m.queue })) := by
  refine congrArg Host.Outcome.next ((if_neg (cellSend_free hup hrun hfree)).trans ?_)
  have hall : (s.marg.queue.filter fun c => true || !cellSequenced c.ctype) = s.marg.queue := List.filter_eq_self.2 fun _ _ => rfl
  dsimp only
  rw [cellSend_room hresend hroom, hall, hbest, if_neg (fun h => h.1 hresend)]
  dsimp only
  rw [if_neg (fun h => by omega)]
  exact if_neg fun h => by omega

/-- With an empty queue the first ready slot is sent. -/
theorem exec_cellSend_slot {n : Nat} (hresend : s.marg.resend = []) (hroom : s.marg.unacked.length < 64) (hqueue : s.marg.queue = [])
    (hslot : slotReady s = some n) : exec .cellSend s = .next
    (launchCell { ctype := .mailbox, seq := 0, ack := 0, sub := n, payload := mailWords (tblGet s.marg.outbox [] n) }
      (updMarg s fun m => { m with outSent := tblSet m.outSent false n true, credit := putBit m.credit n false })) := by
  refine congrArg Host.Outcome.next ((if_neg (cellSend_free hup hrun hfree)).trans ?_)
  have hnone : bestCell (s.marg.queue.filter fun c => true || !cellSequenced c.ctype) = none := by rw [hqueue]; rfl
  dsimp only
  rw [cellSend_room hresend hroom, hnone, if_neg (fun h => h.1 hresend)]
  dsimp only
  rw [if_pos ⟨rfl, by decide⟩, hslot]

/-- A cell that is due again goes before all but a heartbeat. -/
theorem exec_cellSend_resend {c : Cell} {l : List Cell} (hresend : s.marg.resend = c :: l)
    (hqueue : ∀ x ∈ s.marg.queue, x.ctype ≠ .heartbeat) : exec .cellSend s = .next
    (parCount (putCell (acking s c) (updMarg s fun m => { m with resend := l })) 11 9 1) := by
  refine congrArg Host.Outcome.next ((if_neg (cellSend_free hup hrun hfree)).trans ?_)
  have hrank : (match bestCell (s.marg.queue.filter fun c =>
      (decide (s.marg.unacked.length < 64) && s.marg.resend == []) || !cellSequenced c.ctype) with
      | some c => cellRank c.ctype
      | none => 10) ≠ 0 := by
    split
    next x hx => exact fun h => hqueue x (List.mem_filter.1 (bestCell_mem hx)).1 (cellRank_eq_zero h)
    next => decide
  have hagain : resendCell s = parCount (putCell (acking s c) (updMarg s fun m => { m with resend := l })) 11 9 1 := by
    unfold resendCell
    rw [hresend]
    rfl
  refine Eq.trans (if_pos ⟨by rw [hresend]; exact List.cons_ne_nil c l, ?_⟩) hagain
  exact hrank

theorem cellSend_queued {c : Cell} (hresend : s.marg.resend = []) (hroom : s.marg.unacked.length < 64)
    (hbest : bestCell s.marg.queue = some c) (hrank : cellRank c.ctype ≤ 5) : ∃ t w, exec .cellSend s = .next t ∧
      t.marg.queue = dropCell c s.marg.queue ∧ t.marg.wire = some w ∧ w.ctype = c.ctype ∧ w.sub = c.sub ∧
      w.ack = (s.marg.rxSeq + 65535) % 65536 ∧
      (cellSequenced c.ctype = true → w.seq = s.marg.txSeq ∧ w.payload = c.payload ∧
        t.marg.unacked = s.marg.unacked ++ [w] ∧ t.marg.txSeq = (s.marg.txSeq + 1) % 65536) ∧
      (cellSequenced c.ctype = false → t.marg.unacked = s.marg.unacked ∧ t.marg.txSeq = s.marg.txSeq) ∧ t = { s with marg := t.marg } := by
  have hexec := exec_cellSend_queued hup hrun hfree hresend hroom hbest hrank
  cases hseq : cellSequenced c.ctype with
  | true =>
    obtain ⟨w, hwire, htype, hsub, hack, hseq', hpay, hun, htx, hqueue, _, hpart⟩ := launchCell_sequenced
      (s := updMarg s fun m => { m with queue := dropCell c m.queue }) hseq (n := s.marg.rxSeq) (m := s.marg.txSeq) rfl rfl
    exact ⟨_, w, hexec, hqueue, hwire, htype, hsub, hack, fun _ => ⟨hseq', hpay, hun, htx⟩, fun h => absurd h (by decide), hpart⟩
  | false =>
    obtain ⟨w, hwire, htype, hsub, hack, hun, htx, hqueue, hpart⟩ :=
      launchCell_plain (s := updMarg s fun m => { m with queue := dropCell c m.queue }) hseq (n := s.marg.rxSeq) rfl
    exact ⟨_, w, hexec, hqueue, hwire, htype, hsub, hack, fun h => absurd h (by decide), fun _ => ⟨hun, htx⟩, hpart⟩

theorem cellSend_slot {n : Nat} (hresend : s.marg.resend = []) (hroom : s.marg.unacked.length < 64) (hqueue : s.marg.queue = [])
    (hslot : slotReady s = some n) : ∃ t w, exec .cellSend s = .next t ∧
      t.marg.wire = some w ∧ w.ctype = .mailbox ∧ w.sub = n ∧ w.seq = s.marg.txSeq ∧ t.marg.credit.testBit n = false ∧
      t.marg.unacked = s.marg.unacked ++ [w] ∧ t = { s with marg := t.marg } := by
  have hexec := exec_cellSend_slot hup hrun hfree hresend hroom hqueue hslot
  obtain ⟨w, hwire, htype, hsub, _, hseq, _, hun, _, _, hcredit, hpart⟩ := launchCell_sequenced
    (c := { ctype := .mailbox, seq := 0, ack := 0, sub := n, payload := mailWords (tblGet s.marg.outbox [] n) })
    (s := updMarg s fun m => { m with outSent := tblSet m.outSent false n true, credit := putBit m.credit n false }) rfl
    (n := s.marg.rxSeq) (m := s.marg.txSeq) rfl rfl
  refine ⟨_, w, hexec, hwire, htype, hsub, hseq, ?_, hun, hpart⟩
  rw [hcredit]
  exact (testBit_putBit s.marg.credit n n false).trans (if_pos rfl)

theorem cellSend_resend {c : Cell} {l : List Cell} (hresend : s.marg.resend = c :: l)
    (hqueue : ∀ x ∈ s.marg.queue, x.ctype ≠ .heartbeat) : ∃ t, exec .cellSend s = .next t ∧
      t.marg.wire = some { c with ack := (s.marg.rxSeq + 65535) % 65536 } ∧ t.marg.resend = l ∧
      t.marg.unacked = s.marg.unacked ∧ parGet t 11 9 = counted (parGet s 11 9) 1 ∧ OthersKept s t 11 9 ∧
      t = { s with marg := t.marg, par := t.par } := by
  have hexec := exec_cellSend_resend hup hrun hfree hresend hqueue
  exact ⟨_, hexec, rfl, rfl, rfl, parGet_parCount_self _ 11 9 1,
    others_parSet (s := putCell (acking s c) (updMarg s fun m => { m with resend := l })) (by decide), rfl⟩

end Free

/-! Acknowledgements (R406). -/

theorem cellRetransmit_repeats (hwait : s.marg.unacked ≠ []) (hresend : s.marg.resend = []) (hdue : s.marg.ackTick + 2 * usTicks ≤ s.now) :
    exec .cellRetransmit s =
      .next { s with marg := { s.marg with resends := s.marg.resends + 1, resend := s.marg.unacked, ackTick := s.now } } := by
  refine congrArg Host.Outcome.next (if_neg ?_)
  rw [hup, hrun, hresend]
  simpa [hwait] using hdue

theorem badCellReceived_counts : (∃ t, exec (.badCellReceived true) s = .next t ∧ t.marg.crcRun = s.marg.crcRun + 1 ∧
      parGet t 11 8 = counted (parGet s 11 8) 1 ∧ OthersKept s t 11 8 ∧ t = { s with marg := t.marg, par := t.par }) ∧
    exec (.badCellReceived false) s = .next { s with marg := { s.marg with crcRun := 0, rxTick := some s.now } } := by
  have hlink : ¬ ((!s.marg.linkUp) = true ∨ (!marginRuns s) = true) := by
    rw [hup, hrun]
    decide
  refine ⟨⟨_, congrArg Host.Outcome.next ((if_neg hlink).trans (if_pos rfl)), rfl, parGet_parCount_self _ 11 8 1,
    others_parSet (s := updMarg s fun m => { m with crcRun := m.crcRun + 1 }) (by decide), rfl⟩, ?_⟩
  exact congrArg Host.Outcome.next ((if_neg hlink).trans (if_neg Bool.false_ne_true))

end Send

/-- A slot that is empty stays empty, whatever cells are acknowledged. -/
theorem slotFull_cellsAcked {n : Nat} (l : List Cell) : ∀ s : State, slotFull s n = false → slotFull (forEach l cellAcked s) n = false := by
  have hone (c : Cell) (s : State) (h : slotFull s n = false) : slotFull (cellAcked c s) n = false := by
    unfold cellAcked
    split
    · unfold slotFull at h ⊢
      change decide (tblGet (tblSet s.marg.outbox [] c.sub []) [] n ≠ []) = false
      rw [tblGet_write]
      split
      · rfl
      · exact h
    · split <;> exact h
  induction l with
  | nil => exact fun s h => h
  | cons c l ih => exact fun s h => ih (cellAcked c s) (hone c s h)

/-- A message whose cell is acknowledged has left its slot. -/
theorem slotFull_acked {l : List Cell} {c : Cell} (hc : c ∈ l) (hmail : c.ctype = .mailbox) : ∀ s : State,
    slotFull (forEach l cellAcked s) c.sub = false := by
  have hempty (s : State) : slotFull (cellAcked c s) c.sub = false := by
    unfold cellAcked
    rw [if_pos hmail]
    unfold slotFull
    change decide (tblGet (tblSet s.marg.outbox [] c.sub []) [] c.sub ≠ []) = false
    rw [tblGet_write_self]
    rfl
  induction l with
  | nil => exact absurd hc List.not_mem_nil
  | cons x l ih =>
    intro s
    obtain rfl | hin := List.mem_cons.1 hc
    · exact slotFull_cellsAcked l _ (hempty s)
    · exact ih hin (cellAcked x s)

theorem ackReceived_ends (hup : s.marg.linkUp = true) (hrun : marginRuns s = true) (a : Nat) (hstay : s.marg.leaving = false) :
    ∃ t, exec (.ackReceived a) s = .next t ∧ t.marg.crcRun = 0 ∧ t.marg.unacked = s.marg.unacked.filter (fun c => !acked a c.seq) ∧
      (∀ c, c ∈ s.marg.unacked → acked a c.seq = true → c.ctype = .mailbox → slotFull t c.sub = false) ∧ t = { s with marg := t.marg } := by
  have hlink : ¬ ((!s.marg.linkUp) = true ∨ (!marginRuns s) = true) := by
    rw [hup, hrun]
    decide
  have hexec : exec (.ackReceived a) s = .next (takeAck a (noteCell s)) := congrArg Host.Outcome.next (if_neg hlink)
  obtain ⟨rs, n, x, ob, os, la, hends⟩ := takeAck_frame a (s := noteCell s) hstay
  refine ⟨_, hexec, by rw [hends]; rfl, by rw [hends]; rfl, fun c hc hack hmail => ?_, by rw [hends]; rfl⟩
  have hin : c ∈ s.marg.unacked.filter fun c => acked a c.seq := List.mem_filter.2 ⟨hc, hack⟩
  have htake : takeAck a (noteCell s) = forEach (s.marg.unacked.filter fun c => acked a c.seq) cellAcked (updMarg (noteCell s) fun m => { m with
      unacked := m.unacked.filter (fun c => !acked a c.seq), resend := m.resend.filter (fun c => !acked a c.seq), resends := 0,
      ackTick := (noteCell s).now }) := by
    refine (if_neg (List.ne_nil_of_mem hin)).trans (leaveDone_stays ?_)
    obtain ⟨_, _, _, hframe⟩ := ackEnds_forEach (s.marg.unacked.filter fun c => acked a c.seq) (updMarg (noteCell s) fun m => { m with
      unacked := m.unacked.filter (fun c => !acked a c.seq), resend := m.resend.filter (fun c => !acked a c.seq), resends := 0,
      ackTick := (noteCell s).now })
    exact (congrArg (fun v => v.marg.leaving) hframe).trans hstay
  rw [htake]
  exact slotFull_acked hin hmail _

theorem ackDue_queues {x : Nat} (hup : s.marg.linkUp = true) (hqueue : s.marg.queue = []) (hx : s.marg.rxTick = some x)
    (hdue : x + usTicks ≤ s.now) : exec .ackDue s = .next { s with marg := { s.marg with
      rxTick := none, queue := [⟨.ack, 0, 0, 0, [0, 0, 0, 0, 0, 0, 0, 0], 0⟩] } } := by
  refine congrArg Host.Outcome.next ((if_pos ⟨hup, hqueue, by rw [hx]; exact decide_eq_true hdue⟩).trans ?_)
  unfold queueCell updMarg
  dsimp only
  rw [hqueue]
  rfl

/-- Settles O50: each row of the link is the lemma above. -/
theorem linkCells : Obligations.LinkCells := by
  intro s
  refine ⟨fun hrun hdown => ⟨laneDeskew_deskews hrun hdown, fun hdesk => ⟨fun x hx hlate => linkCellDue_early hx hlate,
      linkCellDue_sends hrun hdown hdesk, linkCellReceived_notes hrun hdown hdesk, marginLinkUp_conflicts hrun hdown hdesk,
      marginLinkUp_links hrun hdown hdesk⟩⟩,
    fun c hc hcrc hresend hup => marginLinkLoss_drops hc hcrc hresend hup, fun hup hrun => ?_,
    fun x hup hqueue hx hdue => ackDue_queues hup hqueue hx hdue⟩
  obtain ⟨hbad, hgood⟩ := badCellReceived_counts hup hrun
  exact ⟨cellSend_busy, fun c hfree hresend hroom hbest hrank => cellSend_queued hup hrun hfree hresend hroom hbest hrank,
    fun n hfree hresend hroom hqueue hslot => cellSend_slot hup hrun hfree hresend hroom hqueue hslot,
    fun hwait hresend hdue => cellRetransmit_repeats hup hrun hwait hresend hdue,
    fun c l hfree hresend hqueue => cellSend_resend hup hrun hfree hresend hqueue,
    fun a hstay => ackReceived_ends hup hrun a hstay, hbad, hgood⟩

end Sys2Proof.Proofs
end

section
/-!
PROOFS. O51: heartbeats, their loss and the take-over, and what a standby takes of the active device (R410 to R419, R421 to R424).
-/
namespace Sys2Proof.Proofs
open Sys2Proof.Machine Sys2Proof.Safety Sys2Proof.Laws

variable {s : State}

/-! The loss of alignment (R48). -/

/-- From `s` to `t` what the loss of alignment leaves: the link but for what events queue, MRAM and memory, parameters of other
units than 1 and 10, and the events so far. -/
structure AlignKept (s t : State) : Prop where
  marg : ∃ q h x, t.marg = { s.marg with queue := q, ho := h, hoTh := x }
  now : t.now = s.now
  nv : t.nv = s.nv
  cells : t.mem.cells = s.mem.cells
  par : ∀ u i, u < 16 → i < 65536 → u ≠ 1 → u ≠ 10 → parGet t u i = parGet s u i
  grow : ∀ e ∈ s.book.inq, e.code ≠ 0x0902 → e ∈ t.book.inq

theorem AlignKept.refl (s : State) : AlignKept s s := ⟨⟨_, _, _, rfl⟩, rfl, rfl, rfl, fun _ _ _ _ _ _ => rfl, fun _ h _ => h⟩

theorem AlignKept.trans {s t u : State} (h : AlignKept s t) (k : AlignKept t u) : AlignKept s u := by
  obtain ⟨⟨q, o, x, hm⟩, hnow, hnv, hcells, hpar, hgrow⟩ := h
  obtain ⟨⟨q', o', x', km⟩, know, knv, kcells, kpar, kgrow⟩ := k
  exact ⟨⟨q', o', x', by rw [km, hm]⟩, know.trans hnow, knv.trans hnv, kcells.trans hcells,
    fun u i hu hi h1 h10 => (kpar u i hu hi h1 h10).trans (hpar u i hu hi h1 h10), fun e he hc => kgrow e (hgrow e he hc) hc⟩

theorem alignKept_ev {s t : State} (h : EvStep s t) : AlignKept s t := by
  refine ⟨?_, h.now, h.nv, h.mem_cells, fun u i hu hi h1 h10 => parGet_of_evStep h hi h1 h10, h.grow⟩
  obtain ⟨⟨_, _, _, _, _, _, _, _, _, _, _, _, _, _, _, q, o, x, _, heq⟩, _, _⟩ := h
  exact ⟨q, o, x, by rw [heq]⟩

theorem alignKept_parts (s : State) (T : Timing) (R : Stipple) : AlignKept s { s with tim := T, stip := R } :=
  ⟨⟨_, _, _, rfl⟩, rfl, rfl, rfl, fun _ _ _ _ _ _ => rfl, fun _ h _ => h⟩

theorem alignKept_excludeBeyond (r : Nat) (p : Nat → Bool) (s : State) : AlignKept s (excludeBeyond r p s) :=
  forEach_rel (R := AlignKept) .refl .trans (fun _ u => alignKept_parts u u.tim _) _ s

theorem alignKept_farServiceEnd (r : Nat) (s : State) : AlignKept s (farServiceEnd r s) := by
  unfold farServiceEnd
  extract_lets ended last
  have hended : AlignKept s ended := alignKept_parts s s.tim _
  exact rel_ite (rel_ite (alignKept_parts s s.tim _) (.refl s)) (hended.trans (rel_ite (alignKept_excludeBeyond r _ ended) (.refl ended)))

theorem alignKept_alignLost (s : State) : AlignKept s (alignLost s) := by
  unfold alignLost
  refine rel_ite (.refl s) ?_
  have hraise (u : State) (args : List Word) : AlignKept u (raise u 0x0204 0 args) := alignKept_ev (ev_raise (.refl u))
  exact (alignKept_parts s { s.tim with aligned := false, alignBad := 0 } s.stip).trans ((hraise _ _).trans
    (forUpTo_rel (R := AlignKept) .refl .trans (fun r _ u => alignKept_farServiceEnd r u) _))

theorem alignKept_alignMiss (s : State) : AlignKept s (alignMiss s) := by
  unfold alignMiss
  extract_lets missed
  have hmissed : AlignKept s missed := alignKept_parts s _ s.stip
  exact hmissed.trans (rel_ite (alignKept_alignLost missed) (.refl missed))

/-! Heartbeats are sent (R411). -/

section Runs
variable (hrun : marginRuns s = true)

theorem heartbeatDue_early (hlate : s.now < s.marg.hbTick + 4000) : exec .heartbeatDue s = .next s :=
  congrArg Host.Outcome.next (if_pos (.inr hlate))

include hrun

theorem heartbeatDue_queues (hup : s.marg.linkUp = true) (hdue : s.marg.hbTick + 4000 ≤ s.now) : ∃ t, exec .heartbeatDue s = .next t ∧
    t.marg.queue.getLast? = some { ctype := .heartbeat, seq := 0, ack := 0, sub := 0, payload := [] } ∧ t.marg.hbTick = s.now ∧
    (hbMissed s = true → parGet t 11 7 = counted (parGet s 11 7) 1) ∧
    (hbMissed s = false → t = { s with marg := { s.marg with queue := t.marg.queue, hbTick := s.now } }) := by
  have hgo : ¬ ((!marginRuns s) = true ∨ s.now < s.marg.hbTick + 4000) := by
    rw [hrun]
    simpa using hdue
  have hqueued (u : State) : (queueCell u .heartbeat 0 []).marg.queue.getLast? =
      some { ctype := .heartbeat, seq := 0, ack := 0, sub := 0, payload := [] } := List.getLast?_concat
  cases hmiss : hbMissed s with
  | false =>
    have hexec : exec .heartbeatDue s = .next (queueCell (updMarg s fun m => { m with hbTick := s.now }) .heartbeat 0 []) := by
      refine congrArg Host.Outcome.next ((if_neg hgo).trans ?_)
      dsimp only
      rw [hmiss]
      exact if_pos hup
    exact ⟨_, hexec, hqueued _, rfl, fun h => absurd h (by decide), fun _ => rfl⟩
  | true =>
    have hcounted : ∃ u, AlignKept (parCount (updMarg s fun m => { m with hbTick := s.now }) 11 7 1) u ∧
        exec .heartbeatDue s = .next (queueCell u .heartbeat 0 []) := by
      have hcond : (hbMissed s && ((updMarg s fun m => { m with hbTick := s.now }).marg.linkUp ||
          decide ((updMarg s fun m => { m with hbTick := s.now }).marg.role ≠ 0))) = true := by
        rw [hmiss, show (updMarg s fun m => { m with hbTick := s.now }).marg.linkUp = true from hup]
        rfl
      have hkept : AlignKept (parCount (updMarg s fun m => { m with hbTick := s.now }) 11 7 1)
          (if (parCount (updMarg s fun m => { m with hbTick := s.now }) 11 7 1).tim.master then
            parCount (updMarg s fun m => { m with hbTick := s.now }) 11 7 1
           else alignMiss (parCount (updMarg s fun m => { m with hbTick := s.now }) 11 7 1)) := rel_ite (.refl _) (alignKept_alignMiss _)
      refine ⟨_, hkept, congrArg Host.Outcome.next ((if_neg hgo).trans ?_)⟩
      dsimp only
      rw [if_pos hcond]
      refine if_pos ?_
      obtain ⟨q, o, x, hm⟩ := hkept.marg
      rw [hm]
      exact hup
    obtain ⟨u, hkept, hexec⟩ := hcounted
    obtain ⟨q, o, x, hm⟩ := hkept.marg
    refine ⟨_, hexec, hqueued u, ?_, fun _ => ?_, fun h => absurd h (by decide)⟩
    · change u.marg.hbTick = s.now
      rw [hm]
      rfl
    · exact (hkept.par 11 7 (by decide) (by decide) (by decide) (by decide)).trans (parGet_parCount_self _ 11 7 1)

end Runs

/-! Heartbeats are taken (R410, R411). -/

/-- From `s` to `t` what a heartbeat's exchange leaves: the link but for its role `r` and what events queue, MRAM and memory. -/
structure HeartKept (s t : State) (r : Nat) : Prop where
  marg : ∃ q h x, t.marg = { s.marg with queue := q, ho := h, hoTh := x, role := r }
  nv : t.nv = s.nv
  cells : t.mem.cells = s.mem.cells

theorem HeartKept.refl (s : State) : HeartKept s s s.marg.role := ⟨⟨_, _, _, rfl⟩, rfl, rfl⟩

theorem HeartKept.trans {s t u : State} {r r' : Nat} (h : HeartKept s t r) (k : HeartKept t u r') : HeartKept s u r' := by
  obtain ⟨⟨q, o, x, hm⟩, hnv, hcells⟩ := h
  obtain ⟨⟨q', o', x', km⟩, knv, kcells⟩ := k
  exact ⟨⟨q', o', x', by rw [km, hm]⟩, knv.trans hnv, kcells.trans hcells⟩

theorem HeartKept.role {s t : State} {r : Nat} (h : HeartKept s t r) : t.marg.role = r := by
  obtain ⟨⟨q, o, x, hm⟩, _, _⟩ := h
  rw [hm]

theorem AlignKept.heart {s t : State} (h : AlignKept s t) : HeartKept s t s.marg.role := by
  obtain ⟨⟨q, o, x, hm⟩, _, hnv, hcells, _, _⟩ := h
  exact ⟨⟨q, o, x, by rw [hm]⟩, hnv, hcells⟩

/-- Parameters, time, Timing and free values. -/
theorem heartKept_parts (s : State) (P : Tbl Word) (T : Timing) (n f : Nat) :
    HeartKept s { s with par := P, tim := T, now := n, free := f } s.marg.role := ⟨⟨_, _, _, rfl⟩, rfl, rfl⟩

theorem heartKept_record (s : State) (code i : Nat) (args : List Word) : HeartKept s (record s code i args) s.marg.role :=
  (alignKept_ev (ev_record (.refl s))).heart

theorem heartKept_alignStep (err : Int) (s : State) : HeartKept s (alignStep err s) s.marg.role := by
  unfold alignStep
  extract_lets d stepped args now skip
  have hstepped : HeartKept s stepped s.marg.role := heartKept_parts s s.par _ s.now s.free
  have hrole : stepped.marg.role = s.marg.role := rfl
  refine hstepped.trans ?_
  rw [← hrole]
  split
  · exact (heartKept_parts stepped (parOr stepped 2 2 0x40).par { stepped.tim with skip := skip } now stepped.free).trans
      (heartKept_record (parOr { stepped with now := now, tim := { stepped.tim with skip := skip } } 2 2 0x40) _ _ _)
  · exact (heartKept_parts stepped stepped.par { stepped.tim with slew16 := -err } stepped.now stepped.free).trans (heartKept_record
      (updTim stepped fun t => { t with slew16 := -err }) _ _ _)

/-- The state with the error of an exchange noted. -/
def exchanged (err : Int) (s : State) : State :=
  { parSet (parSet s 2 7 (wrdI err)) 2 8 (wrdI (((Config.freeWord s.free).toNat % 50001 : Nat) - 25000)) with free := s.free + 1 }

theorem alignExchange_exchanges (err : Int) (s : State) : alignExchange err s =
    (let t := if s.tim.stepDue then (if 128 < err.natAbs then alignStep err (exchanged err s) else
        updTim (exchanged err s) fun t => { t with stepDue := false }) else exchanged err s
     if err.natAbs ≤ 12 then
       updTim t fun t => { t with alignBad := 0, alignGood := t.alignGood + 1, aligned := t.aligned || decide (15 ≤ t.alignGood) }
     else alignMiss t) := rfl

theorem heartKept_alignExchange (err : Int) (s : State) : HeartKept s (alignExchange err s) s.marg.role := by
  have hexchanged : HeartKept s (exchanged err s) s.marg.role := heartKept_parts s _ s.tim s.now _
  have hrole : (exchanged err s).marg.role = s.marg.role := rfl
  rw [alignExchange_exchanges]
  extract_lets t
  have ht : HeartKept s t s.marg.role := by
    refine hexchanged.trans ?_
    rw [← hrole]
    exact rel_ite (R := fun s t => HeartKept s t s.marg.role) (rel_ite (R := fun s t => HeartKept s t s.marg.role) (heartKept_alignStep err _)
      (heartKept_parts _ _ _ _ _)) (.refl _)
  have htrole := ht.role
  refine ht.trans ?_
  rw [← htrole]
  split
  · exact heartKept_parts t t.par _ t.now t.free
  · exact (alignKept_alignMiss t).heart

/-- A small error of an exchange after the first step counts towards alignment. -/
theorem alignExchange_counts {err : Int} (hstep : s.tim.stepDue = false) (hsmall : err.natAbs ≤ 12) :
    (alignExchange err s).tim.alignBad = 0 ∧ (alignExchange err s).tim.alignGood = s.tim.alignGood + 1 ∧
    (alignExchange err s).tim.aligned = (s.tim.aligned || decide (15 ≤ s.tim.alignGood)) ∧
    parGet (alignExchange err s) 2 7 = wrdI err := by
  rw [alignExchange_exchanges, if_neg (c := s.tim.stepDue = true) (by rw [hstep]; exact Bool.false_ne_true)]
  dsimp only
  rw [if_pos hsmall]
  refine ⟨rfl, rfl, rfl, ?_⟩
  exact (parGet_parSet_ne (s := parSet s 2 7 (wrdI err)) (by decide) (by decide) (by decide) _).trans (parGet_parSet_self s 2 7 _)

/-- The state with what a heartbeat says of the partner. -/
def heartNoted (h : Heartbeat) (s : State) : State := updMarg s fun m => { m with
  hbSeen := true, hbLost := false, hbPeer := h.launch,
  hbPrev := if m.hbSeen then some m.hbArrive else none, hbArrive := s.now, ownElig := eligibility s,
  partnerRole := h.role % 4, partnerRun := h.driveRun % 16, partnerOp := h.opState % 8, partnerElig := h.eligibility % 256,
  partnerEligible := h.eligibility % 256 = 0, peerLeft := false, credit := if !m.hbSeen then h.emptyMap % 2 ^ 16 else m.credit }

/-- The role after a heartbeat: single when the partner has become so. -/
def roleHeard (h : Heartbeat) (s : State) : Nat :=
  if s.marg.role ≠ 0 ∧ h.role % 4 = 0 ∧ s.marg.partnerRole ≠ 0 then 0 else s.marg.role

/-- The state with its role after a heartbeat. -/
def heartRoled (h : Heartbeat) (s : State) : State :=
  if s.marg.role ≠ 0 ∧ h.role % 4 = 0 ∧ s.marg.partnerRole ≠ 0 then becomeSingle (heartNoted h s) else heartNoted h s

theorem heartKept_becomeSingle (s : State) : HeartKept s (becomeSingle s) 0 := by
  unfold becomeSingle
  have htaken : HeartKept s (takeRole 0 s) 0 := ⟨⟨_, _, _, rfl⟩, rfl, rfl⟩
  have hrole : (takeRole 0 s).marg.role = 0 := rfl
  refine rel_ite (R := fun s t => HeartKept s t 0) htaken (htaken.trans ?_)
  have hrecord := heartKept_record (takeRole 0 s) 0x0B03 0 []
  rw [hrole] at hrecord
  exact hrecord

theorem heartRoled_roles (h : Heartbeat) (s : State) : HeartKept (heartNoted h s) (heartRoled h s) (roleHeard h s) := by
  unfold heartRoled roleHeard
  split
  · exact heartKept_becomeSingle _
  · exact .refl _

theorem takeHeartbeat_takes (h : Heartbeat) (s : State) : takeHeartbeat h s =
    if (heartRoled h s).marg.role = 2 then
      (if !s.marg.hbSeen then heartRoled h s else alignExchange (exchangeError (heartRoled h s) h) (heartRoled h s))
    else if (heartRoled h s).marg.role = 1 then
      (if !(h.eligibility % 256).testBit 6 then updTim (heartRoled h s) fun t => { t with aligned := !(h.eligibility % 256).testBit 6 }
       else forUpTo 16 farServiceEnd (updTim (heartRoled h s) fun t => { t with aligned := !(h.eligibility % 256).testBit 6 }))
    else heartRoled h s := rfl

theorem heartKept_takeHeartbeat (h : Heartbeat) (s : State) : HeartKept (heartNoted h s) (takeHeartbeat h s) (roleHeard h s) := by
  have hroled := heartRoled_roles h s
  rw [takeHeartbeat_takes]
  refine hroled.trans ?_
  rw [← hroled.role]
  generalize heartRoled h s = w
  split
  · exact rel_ite (R := fun s t => HeartKept s t s.marg.role) (.refl w) (heartKept_alignExchange _ w)
  split
  · have hflag : HeartKept w (updTim w fun t => { t with aligned := !(h.eligibility % 256).testBit 6 }) w.marg.role :=
      heartKept_parts w w.par _ w.now w.free
    have hends (v : State) : AlignKept v (forUpTo 16 farServiceEnd v) :=
      forUpTo_rel (R := AlignKept) .refl .trans (fun r _ u => alignKept_farServiceEnd r u) v
    exact rel_ite (R := fun s t => HeartKept s t s.marg.role) hflag (hflag.trans (hends _).heart)
  · exact .refl w

theorem heartbeatReceived_takes (hrun : marginRuns s = true) (ack : Nat) (h : Heartbeat) (hup : s.marg.linkUp = true)
    (hstay : s.marg.leaving = false) : ∃ t, exec (.heartbeatReceived ack h) s = .next t ∧
      t.marg.hbSeen = true ∧ t.marg.unacked = s.marg.unacked.filter (fun c => !acked ack c.seq) ∧
      t.marg.hbLost = false ∧ t.marg.hbArrive = s.now ∧ t.marg.hbPeer = h.launch ∧ t.marg.partnerRole = h.role % 4 ∧
      t.marg.partnerEligible = decide (h.eligibility % 256 = 0) ∧
      t.marg.role = (if s.marg.role ≠ 0 ∧ h.role % 4 = 0 ∧ s.marg.partnerRole ≠ 0 then 0 else s.marg.role) ∧
      (s.marg.role = 2 → h.role % 4 ≠ 0 → s.marg.hbSeen = true → s.tim.stepDue = false → (exchangeError s h).natAbs ≤ 12 →
        t.tim.alignBad = 0 ∧ t.tim.alignGood = s.tim.alignGood + 1 ∧
        t.tim.aligned = (s.tim.aligned || decide (15 ≤ s.tim.alignGood)) ∧ parGet t 2 7 = wrdI (exchangeError s h)) ∧
      t.nv = s.nv ∧ t.mem.cells = s.mem.cells := by
  obtain ⟨rs, n, x, ob, os, la, hack⟩ := takeAck_frame ack (s := noteCell s) hstay
  have hexec : exec (.heartbeatReceived ack h) s = .next (takeHeartbeat h (takeAck ack (noteCell s))) :=
    congrArg Host.Outcome.next (if_pos ⟨hup, hrun⟩)
  have hmarg : (takeAck ack (noteCell s)).marg = { s.marg with
      crcRun := 0, rxTick := some s.now, unacked := s.marg.unacked.filter (fun c => !acked ack c.seq),
      resend := rs, resends := n, ackTick := x, outbox := ob, outSent := os, leaveAck := la } := by rw [hack]; rfl
  have hpart : takeAck ack (noteCell s) = { s with marg := (takeAck ack (noteCell s)).marg } := by rw [hack]; rfl
  generalize takeAck ack (noteCell s) = u at *
  have hnow : u.now = s.now := (congrArg State.now hpart :)
  have hkept := heartKept_takeHeartbeat h u
  have hrole : roleHeard h u = if s.marg.role ≠ 0 ∧ h.role % 4 = 0 ∧ s.marg.partnerRole ≠ 0 then 0 else s.marg.role := by
    unfold roleHeard
    rw [hmarg]
  have halign : s.marg.role = 2 → h.role % 4 ≠ 0 → s.marg.hbSeen = true →
      takeHeartbeat h u = alignExchange (exchangeError s h) (heartNoted h u) := fun h2 h4 hseen => by
    have hroled : heartRoled h u = heartNoted h u := if_neg fun hc => h4 hc.2.1
    have hr2 : (heartNoted h u).marg.role = 2 := by
      change u.marg.role = 2
      rw [hmarg]
      exact h2
    have herr : exchangeError (heartNoted h u) h = exchangeError s h := by
      unfold exchangeError
      rw [show (heartNoted h u).now = s.now from hnow]
    rw [takeHeartbeat_takes, hroled, if_pos hr2, herr]
    refine if_neg ?_
    rw [hmarg]
    simp [hseen]
  obtain ⟨⟨q, o, y, hm⟩, hnv, hcells⟩ := hkept
  refine ⟨_, hexec, by rw [hm]; rfl, ?_, by rw [hm]; rfl, ?_, by rw [hm]; rfl, by rw [hm]; rfl, by rw [hm]; rfl, by rw [hm]; exact hrole,
    fun h2 h4 hseen hstep hsmall => ?_, hnv.trans (congrArg State.nv hpart :), hcells.trans (congrArg (fun v => v.mem.cells) hpart :)⟩
  · rw [hm]
    change u.marg.unacked = _
    rw [hmarg]
  · rw [hm]
    exact hnow
  · have htim : u.tim = s.tim := (congrArg State.tim hpart :)
    have hcounts := alignExchange_counts (s := heartNoted h u) (err := exchangeError s h)
      ((congrArg Timing.stepDue htim).trans hstep) hsmall
    rw [halign h2 h4 hseen, ← htim]
    exact hcounts

/-! The loss of heartbeats and the take-over (R416, R419). -/

theorem heartbeatTimeout_raises (hrun : marginRuns s = true) (hrole : s.marg.role ≠ 0) (hseen : s.marg.hbSeen = true)
    (hlost : s.marg.hbLost = false) (hlate : s.marg.hbArrive + 12000 ≤ s.now) (hleft : s.marg.peerLeft = false) :
    ∃ t, exec .heartbeatTimeout s = .next t ∧ t.marg.hbLost = true ∧ Raised s t 0x0B01 0 [] := by
  have hexec : exec .heartbeatTimeout s = .next (alignLost (raise (updMarg s fun m => { m with hbLost := true }) 0x0B01 0 [])) := by
    refine congrArg Host.Outcome.next (if_neg ?_)
    rw [hrun, hseen, hlost, hleft]
    simpa [hrole] using hlate
  have hraise : AlignKept (updMarg s fun m => { m with hbLost := true }) (raise (updMarg s fun m => { m with hbLost := true }) 0x0B01 0 []) :=
    alignKept_ev (ev_raise (.refl _))
  have hraised : Raised s (raise (updMarg s fun m => { m with hbLost := true }) 0x0B01 0 []) 0x0B01 0 [] :=
    raised_of (raise_raises (updMarg s fun m => { m with hbLost := true }) (by decide) 0 []) rfl rfl
  have hafter := alignKept_alignLost (raise (updMarg s fun m => { m with hbLost := true }) 0x0B01 0 [])
  obtain ⟨q, o, x, hm⟩ := (hraise.trans hafter).marg
  exact ⟨_, hexec, by rw [hm]; rfl, hafter.grow _ hraised (show (0x0B01 : Nat) ≠ 0x0902 by decide)⟩

theorem heartbeatTakeover_takes (hrun : marginRuns s = true) (hrole : s.marg.role = 2) (hlost : s.marg.hbLost = true)
    (hpartner : s.marg.partnerRun ≠ 0) (helig : s.marg.ownElig % 64 = 0) (hwitness : takeoverWitness s = true) :
    ∃ t, exec .heartbeatTakeover s = .next t ∧ t.marg.role = 1 ∧ t.tim.master = true ∧ t.marg.hoDue = true ∧
      t.marg.hoTrig = 1 ∧ (∀ d, d ∈ takenDrives s → (t.drive d).dst = .run) ∧ t.now = s.now ∧ t.nv = s.nv ∧
      t.mem.cells = s.mem.cells := by
  have hexec : exec .heartbeatTakeover s = .next (takeOver 1 s) :=
    congrArg Host.Outcome.next (if_pos ⟨hrun, hrole, hlost, hpartner, helig, hwitness⟩)
  obtain ⟨hstand, hdrives⟩ := takeOver_takes 1 s
  obtain ⟨hmarg, hmaster, hnow, hnv, hcells⟩ := tookRole_roles 1 s
  exact ⟨_, hexec, by rw [hstand.marg, hmarg], by rw [hstand.tim]; exact hmaster, by rw [hstand.marg, hmarg], by rw [hstand.marg, hmarg],
    hdrives, hstand.now.trans hnow, hstand.nv.trans hnv, hstand.cells.trans hcells⟩

/-! STATUS and TB_PHASE are sent (R412 to R414). -/

theorem statusDue_queues (hrun : marginRuns s = true) (hup : s.marg.linkUp = true) (hrole : s.marg.role ≠ 0)
    (hdue : ∀ x, s.marg.statusTick = some x → x + 100 * usTicks ≤ s.now ∨ statusPayload s ++ phasePayload s ≠ s.marg.statusSent) :
    ∃ (t : State) (a b : Cell), exec .statusDue s = .next t ∧ t.marg.queue = s.marg.queue ++ [a, b] ∧ a.ctype = .status ∧ a.payload = statusPayload s ∧
      b.ctype = .tbPhase ∧ b.payload = phasePayload s ∧ t.marg.statusTick = some s.now ∧
      t = { s with marg := { s.marg with queue := t.marg.queue, statusTick := t.marg.statusTick, statusSent := t.marg.statusSent } } := by
  have hgo : ¬ ((!s.marg.linkUp) = true ∨ s.marg.role = 0 ∨ (!marginRuns s) = true ∨
      ((s.marg.statusTick.any fun t => decide (s.now < t + 100 * usTicks)) = true ∧ statusPayload s ++ phasePayload s = s.marg.statusSent)) := by
    rw [hup, hrun]
    rintro (h | h | h | ⟨h, hsame⟩)
    · exact absurd h (by decide)
    · exact hrole h
    · exact absurd h (by decide)
    · cases hx : s.marg.statusTick with
      | none =>
        rw [hx] at h
        exact Bool.false_ne_true h
      | some x =>
        rw [hx, Option.any_some, decide_eq_true_eq] at h
        obtain hlate | hnew := hdue x hx
        · omega
        · exact hnew hsame
  have hexec : exec .statusDue s = .next (queueCell (queueCell (updMarg s fun m => { m with
      statusTick := some s.now, statusSent := statusPayload s ++ phasePayload s }) .status 0 (statusPayload s)) .tbPhase 0 (phasePayload s)) :=
    congrArg Host.Outcome.next (if_neg hgo)
  generalize statusPayload s = sp at hexec ⊢
  generalize phasePayload s = pp at hexec ⊢
  refine ⟨_, { ctype := .status, seq := 0, ack := 0, sub := 0, payload := sp },
    { ctype := .tbPhase, seq := 0, ack := 0, sub := 0, payload := pp }, hexec, ?_, rfl, rfl, rfl, rfl, rfl, rfl⟩
  exact List.append_assoc s.marg.queue [_] [_]

/-! What a standby takes of the active device (R412 to R415, R424). -/

section Standby
variable {seq : Nat} (h : Arrives s seq) (ack : Nat) (hrole : s.marg.role = 2)
include h hrole

omit h hrole in
theorem getD_four (l : List Word) {k : Nat} (hk : k < 4) : ((List.range 4).map fun k => l.getD k 0).getD k 0 = l.getD k 0 := by
  simp [List.getD_eq_getElem?_getD, hk]

theorem statusReceived_takes (cs ps : List Word) : ∃ t, exec (.statusReceived seq ack s.marg.peerPresence cs ps) s = .next t ∧ Taken s t ack ∧
    (∀ k, k < 4 → t.marg.lastStatus.getD k 0 = cs.getD k 0 ∧ t.marg.lastStatus.getD (4 + k) 0 = ps.getD k 0) ∧
    t = { s with marg := t.marg } := by
  obtain ⟨rs, r, x, ob, os, la, htake⟩ := takeCell_takes h ack
  refine ⟨_, congrArg Host.Outcome.next ((htake _).trans (if_pos ⟨hrole, rfl⟩)), ⟨rfl, rfl, rfl⟩, fun k hk => ⟨?_, ?_⟩, rfl⟩
  · change (((List.range 4).map fun k => cs.getD k 0) ++ ((List.range 4).map fun k => ps.getD k 0)).getD k 0 = _
    rw [List.getD_append _ _ _ _ (by simpa using hk)]
    exact getD_four cs hk
  · change (((List.range 4).map fun k => cs.getD k 0) ++ ((List.range 4).map fun k => ps.getD k 0)).getD (4 + k) 0 = _
    rw [List.getD_append_right _ _ _ _ (by simp)]
    simpa using getD_four ps hk

/-- A running timebase takes the period start that TB_PHASE gives for it. -/
def phaseTaken (ticks : List Nat) (t : Nat) (s : State) : State :=
  if ticks.getD t 0 = 0 ∨ tbLen s t = 0 ∨ (!(s.tb t).running) = true ∨ ((ticks.getD t 0 : Int) - (s.tb t).t0) % (tbLen s t : Int) = 0 then s
  else s.updTb t fun b => { b with t0 := (ticks.getD t 0 : Int) - (tbLen s t : Int) }

/-- What taking the phases of some timebases leaves: the timebase `t` where it is none of them. -/
structure PhasesTaken (t : Nat) (s u : State) : Prop where
  tb : u.tb t = s.tb t
  part : ∃ T, u = { s with hatch := { s.hatch with tbs := T } }

omit h hrole in
theorem PhasesTaken.refl (t : Nat) (s : State) : PhasesTaken t s s := ⟨rfl, _, rfl⟩

omit h hrole in
theorem PhasesTaken.trans {t : Nat} {s u v : State} (h : PhasesTaken t s u) (k : PhasesTaken t u v) : PhasesTaken t s v := by
  obtain ⟨hb, T, rfl⟩ := h
  obtain ⟨kb, T', rfl⟩ := k
  exact ⟨kb.trans hb, T', rfl⟩

omit h hrole in
theorem phasesTaken_ne (ticks : List Nat) {t k : Nat} (hk : k ≠ t) (s : State) : PhasesTaken t s (phaseTaken ticks k s) := by
  unfold phaseTaken
  split
  · exact .refl t s
  · exact ⟨by rw [tb_updTb, if_neg (Ne.symm hk)], _, rfl⟩

omit h hrole in
/-- The length of a period does not turn on the phase of a timebase. -/
theorem tbLen_phases {t : Nat} {s u : State} (h : ∃ T, u = { s with hatch := { s.hatch with tbs := T } }) : tbLen u t = tbLen s t := by
  obtain ⟨T, rfl⟩ := h
  rfl

omit h hrole in
theorem phaseTaken_phases (ticks : List Nat) (t : Nat) (s : State) : (∃ T, phaseTaken ticks t s = { s with hatch := { s.hatch with tbs := T } }) ∧
    ((s.tb t).running = true → 0 < tbLen s t → ticks.getD t 0 ≠ 0 →
      ((ticks.getD t 0 : Int) - ((phaseTaken ticks t s).tb t).t0) % (tbLen s t : Int) = 0) ∧
    ((s.tb t).running = false → (phaseTaken ticks t s).tb t = s.tb t) := by
  unfold phaseTaken
  split
  next hstay =>
    refine ⟨⟨_, rfl⟩, fun hrun hlen hn => ?_, fun _ => rfl⟩
    obtain hz | hz | hz | hz := hstay
    · exact absurd hz hn
    · omega
    · rw [hrun] at hz
      exact absurd hz (by decide)
    · exact hz
  next hmove =>
    refine ⟨⟨_, rfl⟩, fun _ _ _ => ?_, fun hrun => absurd (.inr (.inr (.inl (by rw [hrun]; rfl)))) hmove⟩
    rw [tb_updTb, if_pos rfl]
    simp

omit h hrole in
theorem phasesTaken_split (ticks : List Nat) (t : Nat) (s : State) : (∃ T, forUpTo 4 (phaseTaken ticks) s = { s with hatch := { s.hatch with tbs := T } }) ∧
    (t < 4 → (s.tb t).running = true → 0 < tbLen s t → ticks.getD t 0 ≠ 0 →
      ((ticks.getD t 0 : Int) - ((forUpTo 4 (phaseTaken ticks) s).tb t).t0) % (tbLen s t : Int) = 0) ∧
    ((s.tb t).running = false → (forUpTo 4 (phaseTaken ticks) s).tb t = s.tb t) := by
  have hsplit := forUpTo_split (R := PhasesTaken t) (.refl t) .trans (c := t) (fun k hk u => phasesTaken_ne ticks hk u) 4 s
  split at hsplit
  next ht =>
    obtain ⟨u, hbefore, hafter⟩ := hsplit
    obtain ⟨hpart, hrun, hstop⟩ := phaseTaken_phases ticks t u
    have hlen : tbLen u t = tbLen s t := tbLen_phases hbefore.part
    refine ⟨?_, fun _ => ?_, fun hidle => ?_⟩
    · obtain ⟨T, rfl⟩ := hbefore.part
      obtain ⟨T', hT'⟩ := hpart
      obtain ⟨T'', hT''⟩ := hafter.part
      exact ⟨T'', by rw [hT'', hT']⟩
    · rw [← hbefore.tb, ← hlen, hafter.tb]
      exact hrun
    · rw [hafter.tb, hstop (by rw [hbefore.tb]; exact hidle), hbefore.tb]
  next ht => exact ⟨hsplit.part, fun hlt => absurd hlt ht, fun _ => hsplit.tb⟩

theorem tbPhaseReceived_moves (ts : List Nat) : ∃ t, exec (.tbPhaseReceived seq ack ts) s = .next t ∧ Taken s t ack ∧
    (∀ k, k < 4 → (s.tb k).running = true → 0 < tbLen s k → ts.getD k 0 ≠ 0 →
      ((ts.getD k 0 : Int) - (t.tb k).t0) % (tbLen s k : Int) = 0) ∧
    (∀ k, (s.tb k).running = false → t.tb k = s.tb k) ∧ t = { s with marg := t.marg, hatch := { s.hatch with tbs := t.hatch.tbs } } := by
  obtain ⟨rs, r, x, ob, os, la, htake⟩ := takeCell_takes h ack
  have hexec : exec (.tbPhaseReceived seq ack ts) s = .next (forUpTo 4 (phaseTaken ts) (cellTaken ack rs r x ob os la s)) :=
    congrArg Host.Outcome.next ((htake _).trans (if_neg (not_not.2 hrole)))
  have hmoved (k : Nat) := phasesTaken_split ts k (cellTaken ack rs r x ob os la s)
  obtain ⟨T, hT⟩ := (hmoved 0).1
  exact ⟨_, hexec, by rw [hT]; exact ⟨rfl, rfl, rfl⟩, fun k => (hmoved k).2.1, fun k => (hmoved k).2.2, by rw [hT]; rfl⟩

omit h hrole in
/-- A mirrored entry: the directory entry and its marks. -/
theorem mirrorEntry_stores (d m : Nat) (ws : List Word) (s : State) : (∃ D M, mirrorEntry d m ws s =
      { s with stip := { s.stip with dir := D }, mem := { s.mem with marks := M } }) ∧
    ((mirrorEntry d m ws s).entry d).excl = field (ws.getD 0 0) 3 0 ∧ ((mirrorEntry d m ws s).entry d).ledger = ws.getD 1 0 ∧
    ((mirrorEntry d m ws s).entry d).tlm = ws.getD 2 0 ∧ (∀ e, e ≠ d → (mirrorEntry d m ws s).entry e = s.entry e) ∧
    (m = 0 → (mirrorEntry d m ws s).mem = s.mem) := by
  have hmarks (l : List Nat) (a : Nat → Nat) (u : State) :
      ∃ M, forEach l (fun k s => setMark s (a k) .bite) u = { u with mem := { u.mem with marks := M } } := by
    refine forEach_rel (R := fun s t => ∃ M, t = { s with mem := { s.mem with marks := M } }) (fun s => ⟨s.mem.marks, rfl⟩) ?_
      (fun k u => ⟨_, rfl⟩) l u
    rintro s t u ⟨M, rfl⟩ ⟨M', rfl⟩
    exact ⟨M', rfl⟩
  unfold mirrorEntry
  extract_lets w noted
  obtain ⟨M, hM⟩ := hmarks (below 4 fun k => m.testBit k) (fun k => dirAddr d ([0, 3, 4, 5].getD k 0)) noted
  rw [hM]
  have hentry (e : Nat) : ({ noted with mem := { noted.mem with marks := M } } : State).entry e = noted.entry e := rfl
  have hself : noted.entry d = { s.entry d with
      excl := field (w 0) 3 0, status := field (w 0) 11 8, ledger := w 1, tlm := w 2, tlmTick := (w 3).toNat } := by
    unfold noted
    rw [entry_updEntry, if_pos rfl]
  refine ⟨⟨_, M, rfl⟩, by rw [hentry, hself], by rw [hentry, hself], by rw [hentry, hself], fun e he => ?_, fun hm => ?_⟩
  · rw [hentry]
    unfold noted
    rw [entry_updEntry, if_neg he]
  · have hnone : (below 4 fun k => m.testBit k) = [] := below_eq_nil fun k _ => by rw [hm]; exact Nat.zero_testBit k
    rw [hnone] at hM
    exact (congrArg State.mem hM.symm : _)

theorem mirrorReceived_stores {d : Nat} (hd : d + 1 < 4096) (ws : List Word) (m : Nat) : ∃ t, exec (.mirrorReceived seq ack d ws m) s = .next t ∧
    Taken s t ack ∧
    (t.entry d).excl = field (ws.getD 0 0) 3 0 ∧ (t.entry d).ledger = ws.getD 1 0 ∧ (t.entry d).tlm = ws.getD 2 0 ∧
    (t.entry (d + 1)).excl = field (ws.getD 4 0) 3 0 ∧ (t.entry (d + 1)).ledger = ws.getD 5 0 ∧
    (∀ e, e ≠ d → e ≠ d + 1 → t.entry e = s.entry e) ∧ (m = 0 → t.mem = s.mem) ∧
    t = { s with marg := t.marg, stip := { s.stip with dir := t.stip.dir }, mem := { s.mem with marks := t.mem.marks } } := by
  obtain ⟨rs, r, x, ob, os, la, htake⟩ := takeCell_takes h ack
  have hexec : exec (.mirrorReceived seq ack d ws m) s = .next (updMarg (mirrorEntry (d + 1) (m / 16) (ws.drop 4)
      (mirrorEntry d (m % 16) ws (cellTaken ack rs r x ob os la s))) fun m => { m with mirrorTop := d / 256 }) :=
    congrArg Host.Outcome.next ((htake _).trans ((if_neg (not_not.2 hrole)).trans
      ((if_pos (show d < 0x8000 by omega)).trans (if_neg (show ¬ 4096 ≤ d + 1 by omega)))))
  obtain ⟨⟨D, M, hfirst⟩, hexcl, hledger, htlm, hothers, hclean⟩ := mirrorEntry_stores d (m % 16) ws (cellTaken ack rs r x ob os la s)
  generalize mirrorEntry d (m % 16) ws (cellTaken ack rs r x ob os la s) = u at *
  obtain ⟨⟨D', M', hsecond⟩, hexcl', hledger', _, hothers', hclean'⟩ := mirrorEntry_stores (d + 1) (m / 16) (ws.drop 4) u
  generalize mirrorEntry (d + 1) (m / 16) (ws.drop 4) u = v at *
  have hdrop (k : Nat) : (ws.drop 4).getD k 0 = ws.getD (4 + k) 0 := by
    rw [List.getD_eq_getElem?_getD, List.getElem?_drop, List.getD_eq_getElem?_getD]
  have hentry (e : Nat) : (updMarg v fun m => { m with mirrorTop := d / 256 }).entry e = v.entry e := rfl
  have hd' : d ≠ d + 1 := by omega
  refine ⟨_, hexec, by rw [hsecond, hfirst]; exact ⟨rfl, rfl, rfl⟩, ?_, ?_, ?_, ?_, ?_, fun e he he' => ?_, fun hm => ?_,
    by rw [hsecond, hfirst]; rfl⟩
  · rw [hentry, hothers' d hd', hexcl]
  · rw [hentry, hothers' d hd', hledger]
  · rw [hentry, hothers' d hd', htlm]
  · rw [hentry, hexcl', hdrop]
  · rw [hentry, hledger', hdrop]
  · rw [hentry, hothers' e he', hothers e he]
    rfl
  · exact (hclean' (by omega)).trans (hclean (by omega))

theorem mirrorReceived_vbar {r : Nat} (hr : r < 16) (ws : List Word) (m : Nat) : ∃ t, exec (.mirrorReceived seq ack (0x8000 + r) ws m) s = .next t ∧
    Taken s t ack ∧ strPar t r 0x11 = ws.getD 0 0 ∧ (r = s.marg.mirrorTop → t.marg.mirrorOk = true) ∧
    t = { s with marg := t.marg, par := t.par } := by
  obtain ⟨rs, n, x, ob, os, la, htake⟩ := takeCell_takes h ack
  have hsub : 0x8000 + r - 0x8000 = r := by omega
  have hexec : exec (.mirrorReceived seq ack (0x8000 + r) ws m) s = .next (
      if r ≠ s.marg.mirrorTop then parSet (cellTaken ack rs n x ob os la s) 6 (0x200 + 32 * r + 0x11) (ws.getD 0 0)
      else updMarg (parSet (parSet (cellTaken ack rs n x ob os la s) 6 (0x200 + 32 * r + 0x11) (ws.getD 0 0)) 11 5
        (wrd ((s.now - s.marg.mirrorStart) / usTicks))) fun m => { m with mirrorOk := true, mirrorStart := s.now }) := by
    refine congrArg Host.Outcome.next ((htake _).trans ((if_neg (not_not.2 hrole)).trans ((if_neg (by omega)).trans ?_)))
    dsimp only
    rw [hsub]
    exact if_neg (by omega)
  rw [hexec]
  by_cases htop : r = s.marg.mirrorTop
  · rw [if_neg (not_not.2 htop)]
    refine ⟨_, rfl, ⟨rfl, rfl, rfl⟩, ?_, fun _ => rfl, rfl⟩
    exact (parGet_parSet_ne (by decide) (by omega) (by omega) _).trans (parGet_parSet_self _ 6 (0x200 + 32 * r + 0x11) _)
  · rw [if_pos htop]
    exact ⟨_, rfl, ⟨rfl, rfl, rfl⟩, parGet_parSet_self _ 6 (0x200 + 32 * r + 0x11) _, fun ht => absurd ht htop, rfl⟩

/-! The frames of the active device (R424). -/

/-- The ring `r` with a fragment of a frame kept, its far-end service due. -/
def fragmentKept (r f : Nat) (ws : List Word) (s : State) : State := s.updRing r fun g => { g with
  farDue := g.farDue || g.farAt.isNone, frags := tblSet g.frags [] f (mailWords ws) }

/-- The far-end service that begins where its timebase's period does. -/
def farServed (r : Nat) (s : State) : State :=
  match ringTimebase s r with
  | some t => if periodNow s t then farServe t s else s
  | none => s

omit h hrole in
theorem ring_farBegun (r : Nat) (u : State) (q : Nat) :
    ((u.updRing r fun g => { g with farDue := false, farAt := some u.now }).ring q).frags = (u.ring q).frags ∧
    ((u.ring q).farDue = true ∨ (u.ring q).farAt ≠ none →
      ((u.updRing r fun g => { g with farDue := false, farAt := some u.now }).ring q).farDue = true ∨
      ((u.updRing r fun g => { g with farDue := false, farAt := some u.now }).ring q).farAt ≠ none) := by
  rw [ring_updRing]
  split
  next hq => exact ⟨by rw [hq], fun _ => .inr (Option.some_ne_none _)⟩
  next => exact ⟨rfl, id⟩

omit h hrole in
/-- Far-end service of some rings begins: the fragments of every ring stay, and a ring is due or served. -/
theorem farServe_serves (t : Nat) (s : State) : (∃ R, farServe t s = { s with stip := { s.stip with rings := R } }) ∧
    ∀ q, ((farServe t s).ring q).frags = (s.ring q).frags ∧
      ((s.ring q).farDue = true ∨ (s.ring q).farAt ≠ none → ((farServe t s).ring q).farDue = true ∨ ((farServe t s).ring q).farAt ≠ none) := by
  unfold farServe
  refine forEach_rel (R := fun s u => (∃ R, u = { s with stip := { s.stip with rings := R } }) ∧ ∀ q, (u.ring q).frags = (s.ring q).frags ∧
    ((s.ring q).farDue = true ∨ (s.ring q).farAt ≠ none → (u.ring q).farDue = true ∨ (u.ring q).farAt ≠ none))
    (fun s => ⟨⟨_, rfl⟩, fun q => ⟨rfl, id⟩⟩) ?_ (fun r u => ⟨⟨_, rfl⟩, ring_farBegun r u⟩) _ s
  rintro s t u ⟨⟨R, rfl⟩, h⟩ ⟨⟨R', rfl⟩, k⟩
  exact ⟨⟨R', rfl⟩, fun q => ⟨(k q).1.trans (h q).1, fun hd => (k q).2 ((h q).2 hd)⟩⟩

omit h hrole in
theorem farServed_serves (r : Nat) (s : State) : (∃ R, farServed r s = { s with stip := { s.stip with rings := R } }) ∧
    (∀ q, ((farServed r s).ring q).frags = (s.ring q).frags ∧
      ((s.ring q).farDue = true ∨ (s.ring q).farAt ≠ none → ((farServed r s).ring q).farDue = true ∨ ((farServed r s).ring q).farAt ≠ none)) ∧
    ((∀ b, ringTimebase s r = some b → periodNow s b = false) → farServed r s = s) := by
  unfold farServed
  split
  next t ht =>
    split
    next hnow =>
      obtain ⟨hpart, hrings⟩ := farServe_serves t s
      refine ⟨hpart, hrings, fun hlate => ?_⟩
      rw [hlate t ht] at hnow
      exact absurd hnow (by decide)
    next => exact ⟨⟨_, rfl⟩, fun q => ⟨rfl, id⟩, fun _ => rfl⟩
  next => exact ⟨⟨_, rfl⟩, fun q => ⟨rfl, id⟩, fun _ => rfl⟩

theorem ringFrameReceived_keeps {r f : Nat} (ws : List Word) (hpresent : ringPresent s r = true) (hf : f < 16) :
    ∃ t, exec (.ringFrameReceived seq ack r f ws) s = .next t ∧ Taken s t ack ∧
      ((t.ring r).farDue = true ∨ (t.ring r).farAt ≠ none) ∧
      (tblGet (t.ring r).frags [] f = mailWords ws ∨ ((t.ring r).frags = [] ∧ (t.ring r).next ≠ none)) ∧
      ((∀ b, ringTimebase s r = some b → periodNow s b = false) → ∀ q, q ≠ r → t.ring q = s.ring q) ∧
      t = { s with marg := t.marg, stip := { s.stip with rings := t.stip.rings } } := by
  obtain ⟨rs, n, x, ob, os, la, htake⟩ := takeCell_takes h ack
  have hkept (q : Nat) : (fragmentKept r f ws (cellTaken ack rs n x ob os la s)).ring q = if q = r then { s.ring r with
      farDue := (s.ring r).farDue || (s.ring r).farAt.isNone, frags := tblSet (s.ring r).frags [] f (mailWords ws) } else s.ring q :=
    ring_updRing _ _ _ _
  obtain ⟨⟨R, hpart⟩, hrings, hlate⟩ := farServed_serves r (fragmentKept r f ws (cellTaken ack rs n x ob os la s))
  have hdue : ((farServed r (fragmentKept r f ws (cellTaken ack rs n x ob os la s))).ring r).farDue = true ∨
      ((farServed r (fragmentKept r f ws (cellTaken ack rs n x ob os la s))).ring r).farAt ≠ none := by
    refine (hrings r).2 ?_
    rw [hkept, if_pos rfl]
    cases hat : (s.ring r).farAt with
    | none => exact .inl (by simp)
    | some y => exact .inr (Option.some_ne_none y)
  have hfrag : tblGet ((farServed r (fragmentKept r f ws (cellTaken ack rs n x ob os la s))).ring r).frags [] f = mailWords ws := by
    rw [(hrings r).1, hkept, if_pos rfl]
    exact tblGet_write_self _ [] _ f
  have hothers : (∀ b, ringTimebase s r = some b → periodNow s b = false) → ∀ q, q ≠ r →
      (farServed r (fragmentKept r f ws (cellTaken ack rs n x ob os la s))).ring q = s.ring q := fun hl q hq => by
    rw [hlate hl, hkept, if_neg hq]
  have hstate : farServed r (fragmentKept r f ws (cellTaken ack rs n x ob os la s)) = { s with
      marg := (cellTaken ack rs n x ob os la s).marg, stip := { s.stip with rings := R } } := by rw [hpart]; rfl
  have hexec : ∃ p : Bool, ∃ g, exec (.ringFrameReceived seq ack r f ws) s = .next (if p = true then
      (farServed r (fragmentKept r f ws (cellTaken ack rs n x ob os la s))).updRing r fun v => { v with frags := [], next := some g }
      else farServed r (fragmentKept r f ws (cellTaken ack rs n x ob os la s))) :=
    ⟨_, _, congrArg Host.Outcome.next ((htake _).trans ((if_neg (by
      rw [show ringPresent (cellTaken ack rs n x ob os la s) r = true from hpresent]
      simpa using hf)).trans ((if_neg (by
        rw [show (cellTaken ack rs n x ob os la s).marg.role = 2 from hrole]
        exact fun hn => absurd hn.1 (by decide))).trans (if_neg (not_not.2 hrole)))))⟩
  obtain ⟨p, g, hexec⟩ := hexec
  generalize farServed r (fragmentKept r f ws (cellTaken ack rs n x ob os la s)) = u at *
  cases p with
  | false =>
    rw [if_neg Bool.false_ne_true] at hexec
    exact ⟨u, hexec, by rw [hstate]; exact ⟨rfl, rfl, rfl⟩, hdue, .inl hfrag, hothers, by rw [hstate]⟩
  | true =>
    rw [if_pos rfl] at hexec
    have hring (q : Nat) : (u.updRing r fun v => { v with frags := [], next := some g }).ring q =
        if q = r then { u.ring r with frags := [], next := some g } else u.ring q := ring_updRing _ _ _ _
    refine ⟨_, hexec, by rw [hstate]; exact ⟨rfl, rfl, rfl⟩, ?_, .inr ?_, fun hl q hq => ?_, by rw [hstate]; rfl⟩
    · rw [hring, if_pos rfl]
      exact hdue
    · rw [hring, if_pos rfl]
      exact ⟨rfl, Option.some_ne_none g⟩
    · rw [hring, if_neg hq]
      exact hothers hl q hq

end Standby

/-- Settles O51: each row is the lemma above; a standby takes what arrives in order. -/
theorem heartbeatsAndMirrors : Obligations.HeartbeatsAndMirrors := by
  intro s hrun
  refine ⟨heartbeatDue_early, heartbeatDue_queues hrun, fun ack h hup hstay => heartbeatReceived_takes hrun ack h hup hstay,
    heartbeatTimeout_raises hrun, heartbeatTakeover_takes hrun, fun hup hrole hdue => statusDue_queues hrun hup hrole hdue,
    fun seq ack h hrole => ⟨statusReceived_takes h ack hrole, tbPhaseReceived_moves h ack hrole,
      fun d ws m hd => mirrorReceived_stores h ack hrole hd ws m, fun r ws m hr => mirrorReceived_vbar h ack hrole hr ws m,
      fun r f ws hpresent hf => ringFrameReceived_keeps h ack hrole ws hpresent hf⟩⟩

end Sys2Proof.Proofs
end

section
/-!
PROOFS. O44: ring links, passes without a link, and far passes (the chapter's "Enumeration" and "Frames in each state"; far-end
service, R424).
-/
namespace Sys2Proof.Proofs
open Sys2Proof.Machine Sys2Proof.Safety Sys2Proof.Laws

variable {s : State}

/-- RING_CFG's node count reads back what is put into it. -/
theorem field_setField_nodes (w : Word) {v : Nat} (hv : v < 512) : field (setField w 24 16 v) 24 16 = v := by
  have hnat (x : Nat) (hx : x < 4294967296) :
      (x - x / 65536 % 512 * 65536 + v % 512 * 65536) % 4294967296 / 65536 % 512 = v := by omega
  unfold setField field
  rw [BitVec.toNat_ofNat]
  exact hnat w.toNat w.isLt

theorem dirIndex_inj {r i j : Nat} (h : dirIndex r i = dirIndex r j) : i = j := by
  unfold dirIndex at h
  omega

/-- A change of a ring's first `n` directory entries, each by its own rule, reaches each of them once and no other part of the
state. -/
theorem entries_updated (r : Nat) (F : Nat → DirEntry → DirEntry) (n : Nat) (s : State) :
    (∃ D, forUpTo n (fun i u => u.updEntry (dirIndex r i) (F i)) s = { s with stip := { s.stip with dir := D } }) ∧
    ∀ i, (forUpTo n (fun i u => u.updEntry (dirIndex r i) (F i)) s).entry (dirIndex r i) =
      if i < n then F i (s.entry (dirIndex r i)) else s.entry (dirIndex r i) := by
  induction n with
  | zero => exact ⟨⟨_, rfl⟩, fun i => (if_neg (Nat.not_lt_zero i)).symm⟩
  | succ n ih =>
    obtain ⟨⟨D, hD⟩, hentry⟩ := ih
    refine ⟨⟨_, (congrArg (fun u : State => u.updEntry (dirIndex r n) (F n)) hD :)⟩, fun i => ?_⟩
    refine (entry_updEntry _ _ _ _).trans ?_
    by_cases hi : i = n
    · subst hi
      rw [if_pos rfl, hentry, if_neg (Nat.lt_irrefl i), if_pos (Nat.lt_succ_self i)]
    · rw [if_neg fun h => hi (dirIndex_inj h), hentry]
      exact if_congr (by omega) rfl rfl

/-- ENUM_DONE: the pass of the ring is over with its result, the event is recorded, and the command that waits is answered. -/
theorem enumDone_ends (r result : Nat) (p : EnumPass) (s : State) :
    (∃ R q f m, enumDone r p result s = { s with stip := { s.stip with rings := R }, book := { s.book with inq := q }, folio := f, marg := m }) ∧
    (∀ q, (enumDone r p result s).ring q = if q = r then { s.ring r with pass := none, farDue := false, result := result } else s.ring q) ∧
    Raised s (enumDone r p result s) 0x0608 r [wrd p.found] ∧
    (∀ n e, p.tag = some n → n < 1024 → tagEntry s n = some e → e.phase = .running →
      Replied s (enumDone r p result s) n 0 [wrd (result * 2 ^ 28 + p.found * 2 ^ 16), wrd (p.rt % 2 ^ 24)]) := by
  unfold enumDone
  have hring (q : Nat) := ring_updRing (s) r q fun g => { g with pass := none, farDue := false, result := result }
  have hrec := record_quiet (s := s.updRing r fun g => { g with pass := none, farDue := false, result := result }) (code := 0x0608)
    (idx := r) (args := [wrd p.found]) (by decide) rfl (by decide)
  have hraise := record_raises (s.updRing r fun g => { g with pass := none, farDue := false, result := result }) 0x0608 r [wrd p.found]
  dsimp only
  generalize hu : record (s.updRing r fun g => { g with pass := none, farDue := false, result := result }) 0x0608 r [wrd p.found] = u at *
  have hpart : ∃ R q, u = { s with stip := { s.stip with rings := R }, book := { s.book with inq := q } } := ⟨_, _, hrec⟩
  have hrings : ∀ q, u.ring q = if q = r then { s.ring r with pass := none, farDue := false, result := result } else s.ring q :=
    fun q => (congrArg (State.ring · q) hrec).trans (hring q)
  have hraised : Raised s u 0x0608 r [wrd p.found] := hraise
  clear hrec hring hraise hu
  obtain ⟨R, q, rfl⟩ := hpart
  split
  next t ht =>
    obtain ⟨f, m, hkeep⟩ := completeTag_keeps t stOk [wrd (result * 2 ^ 28 + p.found * 2 ^ 16), wrd (p.rt % 2 ^ 24)]
      { s with stip := { s.stip with rings := R }, book := { s.book with inq := q } }
    refine ⟨⟨R, q, f, m, hkeep⟩, fun n => (congrArg (State.ring · n) hkeep).trans (hrings n), ?_, fun n e hn hlow he hp => ?_⟩
    · rw [hkeep]
      exact hraised
    · cases ht.symm.trans hn
      exact (completeTag_replied (s := s) (u := { s with stip := { s.stip with rings := R }, book := { s.book with inq := q } }) hlow he
        (by rw [hp]; decide) rfl rfl).2
  next ht => exact ⟨⟨R, q, _, _, rfl⟩, hrings, hraised, fun n e hn => absurd (ht.symm.trans hn) (by simp)⟩

/-! The link of a ring. -/

theorem ringLinkChange_follows {r : Nat} (hr : r < ringCount s.part) (up lock : Bool) : ∃ t, exec (.ringLinkChange r up lock) s = .next t ∧
    (t.ring r).linkUp = (up && lock) ∧ (t.ring r).lock = lock ∧ (t.ring r).last = (s.ring r).last ∧
    ((s.ring r).st ≠ .down → (s.ring r).st ≠ .link → (t.ring r).st = (s.ring r).st) ∧
    (∀ q, q ≠ r → t.ring q = s.ring q) ∧ t = { s with stip := { s.stip with rings := t.stip.rings } } := by
  have hexec : ∃ f : Machine.Ring → Machine.Ring, exec (.ringLinkChange r up lock) s = .next (s.updRing r f) ∧ ∀ g, (f g).linkUp = (up && lock) ∧
      (f g).lock = lock ∧ (f g).last = g.last ∧ (g.st ≠ .down → g.st ≠ .link → (f g).st = g.st) :=
    ⟨_, congrArg Host.Outcome.next (if_neg (by simp [ringPresent, hr])), fun g => ⟨rfl, rfl, rfl, fun hd hl =>
      (if_neg fun h => hd h.2).trans (if_neg fun h => hl h.2)⟩⟩
  obtain ⟨f, hexec, hf⟩ := hexec
  obtain ⟨hup, hlock, hlast, hst⟩ := hf (s.ring r)
  have hring : (s.updRing r f).ring r = f (s.ring r) := (ring_updRing s r r f).trans (if_pos rfl)
  exact ⟨_, hexec, by rw [hring]; exact hup, by rw [hring]; exact hlock, by rw [hring]; exact hlast,
    fun hd hl => by rw [hring]; exact hst hd hl, fun q hq => (ring_updRing s r q f).trans (if_neg hq), rfl⟩

/-! A pass without a link (R243). -/

/-- The directory of a pass that failed: every entry of the ring is absent with EXCL 7. -/
theorem enumDirectory_empties {r result : Nat} (hresult : result ≠ 0) (p : EnumPass) (s : State) :
    (∃ D, enumDirectory r result p s = { s with stip := { s.stip with dir := D } }) ∧ ∀ i, i < 256 →
      ((enumDirectory r result p s).entry (dirIndex r i)).present = false ∧ ((enumDirectory r result p s).entry (dirIndex r i)).excl = 7 := by
  unfold enumDirectory
  rw [if_neg hresult]
  obtain ⟨hpart, hentry⟩ := entries_updated r (fun _ e => { e with
    present := false, excl := 7, bValid := e.bValid && !p.fromFar, delayB := if p.fromFar then 0 else e.delayB }) 256 s
  refine ⟨hpart, fun i hi => ?_⟩
  rw [hentry i, if_pos hi]
  exact ⟨rfl, rfl⟩

/-- A pass that fails leaves its ring FAILED with the result, and its directory empty. -/
theorem finishPass_fails {r result : Nat} (hresult : result ≠ 0) (p : EnumPass) (s : State) :
    ((finishPass r result p s).ring r).st = .failed ∧ ((finishPass r result p s).ring r).result = result ∧
    ((finishPass r result p s).ring r).pass = none ∧
    (∀ i, i < 256 → ((finishPass r result p s).entry (dirIndex r i)).present = false ∧
      ((finishPass r result p s).entry (dirIndex r i)).excl = 7) ∧
    Raised s (finishPass r result p s) 0x0608 r [wrd p.found] ∧
    (∀ q, q ≠ r → (finishPass r result p s).ring q = s.ring q) ∧
    (∀ n e, p.tag = some n → n < 1024 → tagEntry s n = some e → e.phase = .running →
      Replied s (finishPass r result p s) n 0 [wrd (result * 2 ^ 28 + p.found * 2 ^ 16), wrd (p.rt % 2 ^ 24)]) := by
  obtain ⟨⟨D, hdir⟩, hempty⟩ := enumDirectory_empties (r := r) hresult p s
  have hfin : ∃ (P : Tbl Word) (f : Machine.Ring → Machine.Ring), finishPass r result p s =
      enumDone r p result (({ enumDirectory r result p s with par := P } : State).updRing r f) ∧ ∀ g, (f g).st = .failed := by
    unfold finishPass
    exact ⟨_, _, if_neg fun h => hresult h.1, fun g => if_neg hresult⟩
  obtain ⟨P, f, hfin, hf⟩ := hfin
  rw [hfin]
  have hring (q : Nat) := ring_updRing (({ enumDirectory r result p s with par := P } : State)) r q f
  have hbase : ∃ R, ({ enumDirectory r result p s with par := P } : State).updRing r f =
      { s with stip := { s.stip with dir := D, rings := R }, par := P } := by
    rw [hdir]
    exact ⟨_, rfl⟩
  have hentries : ∀ i, i < 256 → ((({ enumDirectory r result p s with par := P } : State).updRing r f).entry (dirIndex r i)).present = false ∧
      ((({ enumDirectory r result p s with par := P } : State).updRing r f).entry (dirIndex r i)).excl = 7 := hempty
  have hown : ((({ enumDirectory r result p s with par := P } : State).updRing r f).ring r).st = .failed := by
    rw [hring, if_pos rfl]
    exact hf _
  have hothers : ∀ q, q ≠ r → (({ enumDirectory r result p s with par := P } : State).updRing r f).ring q = s.ring q := fun q hq => by
    rw [hring, if_neg hq, hdir]
    rfl
  generalize ({ enumDirectory r result p s with par := P } : State).updRing r f = u at *
  obtain ⟨R, rfl⟩ := hbase
  obtain ⟨⟨R', q', f', m', hpart⟩, hrings, hraised, hreply⟩ := enumDone_ends r result p
    { s with stip := { s.stip with dir := D, rings := R }, par := P }
  refine ⟨?_, ?_, ?_, fun i hi => ?_, hraised, fun q hq => ?_, fun n e hn hlow he hp => hreply n e hn hlow he hp⟩
  · rw [hrings, if_pos rfl]
    exact hown
  · rw [hrings, if_pos rfl]
  · rw [hrings, if_pos rfl]
  · rw [hpart]
    exact hentries i hi
  · rw [hrings, if_neg hq]
    exact hothers q hq

/-- What ENUM_LINK_TIMEOUT makes of the ring's pass. -/
def passTimedOut (s : State) (r : Nat) (pass : Option EnumPass) : State :=
  match pass with
  | some p => if p.step = .link ∧ p.start + 100 * usTicks ≤ s.now then finishPass r 1 p s else s
  | none => s

theorem enumLinkTimeout_fails {r : Nat} {p : EnumPass} (hpass : (s.ring r).pass = some p) (hstep : p.step = .link)
    (hlate : p.start + 40000 ≤ s.now) : exec (.enumLinkTimeout r) s = .next (finishPass r 1 p s) := by
  refine congrArg Host.Outcome.next ((congrArg (passTimedOut s r) hpass).trans ?_)
  exact if_pos ⟨hstep, hlate⟩

/-! Far passes. -/

theorem enumFarPass_ends {r : Nat} (hr : r < ringCount s.part) {p : EnumPass} (e res : Nat) (ds : List Nat) (hpass : (s.ring r).pass = some p)
    (hdue : (s.ring r).farDue = true) : ∃ t, exec (.enumFarPass r e res ds) s = .next t ∧
    (t.ring r).farOk = decide (res = 0) ∧ (t.ring r).result = (if res = 0 then 0 else 4) ∧ (t.ring r).pass = none ∧
    (∀ i, i < 256 → (t.entry (dirIndex r i)).bValid = decide (res = 0 ∧ i < p.expect) ∧
      (t.entry (dirIndex r i)).delayB = if res = 0 ∧ i < p.expect then ds.getD i 0 % 2 ^ 24 else 0) ∧
    Raised s t 0x0608 r [wrd p.found] ∧ ∀ q, q ≠ r → t.ring q = s.ring q := by
  obtain ⟨⟨D, hdir⟩, hentry⟩ := entries_updated r (fun i e => { e with
    bValid := decide (res = 0) && decide (i < p.expect), delayB := if res = 0 ∧ i < p.expect then ds.getD i 0 % 2 ^ 24 else 0 }) 256 s
  have hexec : exec (.enumFarPass r e res ds) s = .next (enumDone r p (if res = 0 then 0 else 4)
      ((forUpTo 256 (fun i u => u.updEntry (dirIndex r i) fun e => { e with
        bValid := decide (res = 0) && decide (i < p.expect),
        delayB := if res = 0 ∧ i < p.expect then ds.getD i 0 % 2 ^ 24 else 0 }) s).updRing r fun g => { g with farOk := decide (res = 0) })) := by
    refine congrArg Host.Outcome.next ((if_neg (by simp [ringPresent, hr])).trans ?_)
    rw [hpass]
    dsimp only
    rw [hdue]
    exact if_neg (by decide)
  generalize forUpTo 256 (fun i u => u.updEntry (dirIndex r i) fun e => { e with
    bValid := decide (res = 0) && decide (i < p.expect),
    delayB := if res = 0 ∧ i < p.expect then ds.getD i 0 % 2 ^ 24 else 0 }) s = u at *
  subst hdir
  have hring (q : Nat) := ring_updRing ({ s with stip := { s.stip with dir := D } }) r q fun g => { g with farOk := decide (res = 0) }
  obtain ⟨⟨R', q', f', m', hpart⟩, hrings, hraised, -⟩ := enumDone_ends r (if res = 0 then 0 else 4) p
    (({ s with stip := { s.stip with dir := D } } : State).updRing r fun g => { g with farOk := decide (res = 0) })
  refine ⟨_, hexec, ?_, ?_, ?_, fun i hi => ?_, hraised, fun q hq => ?_⟩
  · rw [hrings, if_pos rfl, hring, if_pos rfl]
  · rw [hrings, if_pos rfl]
  · rw [hrings, if_pos rfl]
  · rw [hpart]
    change (State.entry { s with stip := { s.stip with dir := D } } (dirIndex r i)).bValid = _ ∧
      (State.entry { s with stip := { s.stip with dir := D } } (dirIndex r i)).delayB = _
    rw [hentry i, if_pos hi]
    exact ⟨(Bool.decide_and _ _).symm, rfl⟩
  · rw [hrings, if_neg hq, hring, if_neg hq]
    rfl

/-- A pass begins: its ring is enumerating with the expected count, which RING_CFG holds from now on. -/
theorem startPass_begins (r : Nat) {n : Nat} (hn : n < 512) (tag : Option Nat) (far startup : Bool) (s : State) :
    ∃ p, ((startPass r n tag far startup s).ring r).st = .enumerating ∧ ((startPass r n tag far startup s).ring r).pass = some p ∧
      p.expect = n ∧ p.fromFar = far ∧ p.tag = tag ∧
      p.step = (if (s.ring r).linkUp && wbit (ringCfg (startPass r n tag far startup s) r) 31 then .measure else .link) ∧
      ringNodes (startPass r n tag far startup s) r = n ∧
      (∀ q, q ≠ r → (startPass r n tag far startup s).ring q = s.ring q) ∧
      ∃ R, startPass r n tag far startup s = { parSetField s 6 (0x100 + 16 * r) 24 16 n with stip := { s.stip with rings := R } } := by
  have hnodes : ringNodes (parSetField s 6 (0x100 + 16 * r) 24 16 n) r = n := by
    unfold ringNodes parField parSetField
    rw [parGet_parSet_self]
    exact field_setField_nodes _ hn
  unfold startPass
  dsimp only
  have hring (q : Nat) := ring_updRing (parSetField s 6 (0x100 + 16 * r) 24 16 n) r q
  rw [hring r, if_pos rfl]
  exact ⟨_, rfl, rfl, rfl, rfl, rfl, rfl, hnodes, fun q hq => (hring q _).trans (if_neg hq), _, rfl⟩

theorem enumFarPass_begins {r e : Nat} (hr : r < ringCount s.part) (res : Nat) (ds : List Nat) (hpass : (s.ring r).pass = none)
    (hside : s.marg.sideB = true) (hup : s.marg.linkUp = true) (hrole : s.marg.role ≠ 1) (hop : s.op = .standby) (he1 : 1 ≤ e) (he : e ≤ 256) :
    exec (.enumFarPass r e res ds) s = .next (startPass r e none true false s) := by
  refine congrArg Host.Outcome.next ((if_neg (by simp [ringPresent, hr])).trans ?_)
  rw [hpass]
  exact if_pos ⟨hside, hup, hrole, hop, he1, he⟩

theorem farPortDownFrame_copies {r : Nat} (hr : r < ringCount s.part) (b : List Nat) (hrole : s.marg.role = 2) (hb : 62 ≤ b.length) :
    ∃ t, exec (.farPortDownFrame r b) s = .next t ∧
      t.ring r = { s.ring r with farCopy := b, farReturn := turnRound b } ∧ (∀ q, q ≠ r → t.ring q = s.ring q) ∧
      tblGet t.marg.farD none r = some s.now ∧
      t = { s with marg := { s.marg with farD := t.marg.farD }, stip := { s.stip with rings := t.stip.rings } } := by
  have hring (q : Nat) := ring_updRing s r q fun g => { g with farCopy := b, farReturn := turnRound b }
  exact ⟨_, congrArg Host.Outcome.next (if_pos ⟨by simp [ringPresent, hr], hrole, hb⟩), (hring r).trans (if_pos rfl),
    fun q hq => (hring q).trans (if_neg hq), tblGet_write_self s.marg.farD none (some s.now) r, rfl⟩

/-- Settles O44: each row is the lemma above of its command. -/
theorem ringLinksAndPasses : Obligations.RingLinksAndPasses := by
  unfold Obligations.RingLinksAndPasses
  intro s r hr
  refine ⟨ringLinkChange_follows hr, fun p hpass hstep hlate => ?_, fun p e res ds => enumFarPass_ends hr e res ds,
    fun e res ds hpass hside hup hrole hop he1 he => ?_, farPortDownFrame_copies hr⟩
  · obtain ⟨hst, hres, hnone, hempty, hraised, hothers, hreply⟩ := finishPass_fails (r := r) Nat.one_ne_zero p s
    exact ⟨_, enumLinkTimeout_fails hpass hstep hlate, hst, hres, hnone, hempty, hraised, hothers,
      fun n e hn hlow he hp => by simpa using hreply n e hn hlow he hp⟩
  · obtain ⟨p, hst, hp, hexpect, hfar, -, -, hnodes, hothers, R, hpart⟩ := startPass_begins r (Nat.lt_succ_of_le he |>.trans (by decide)) none true false s
    exact ⟨_, p, enumFarPass_begins hr res ds hpass hside hup hrole hop he1 he, hst, hp, hexpect, hfar, hnodes, hothers, by rw [hpart]; rfl⟩

end Sys2Proof.Proofs
end

section
/-!
PROOFS. O42: the ring commands (the chapter's "Enumeration" and "Management transactions"; exclusion and inclusion, R289, R290).
-/
namespace Sys2Proof.Proofs
open Sys2Proof.Machine Sys2Proof.Safety Sys2Proof.Laws

/-! The fields of a command word. -/

theorem testBit_of_field_zero {n lo len k : Nat} (h : n / 2 ^ lo % 2 ^ len = 0) (hlo : lo ≤ k) (hk : k < lo + len) : n.testBit k = false := by
  have hbit : (n / 2 ^ lo % 2 ^ len).testBit (k - lo) = n.testBit k := by
    rw [Nat.testBit_mod_two_pow, Nat.testBit_div_two_pow, show k - lo + lo = k by omega]
    simp [show k - lo < len by omega]
  rw [← hbit, h, Nat.zero_testBit]

/-- No bit of a mask of two ranges is set in a word whose two fields are 0. -/
theorem hasBits_fields {n lo len lo' len' : Nat} {m : Word}
    (hm : ∀ k, k < 32 → wbit m k = true → (lo ≤ k ∧ k < lo + len) ∨ (lo' ≤ k ∧ k < lo' + len'))
    (h : n / 2 ^ lo % 2 ^ len = 0) (h' : n / 2 ^ lo' % 2 ^ len' = 0) : hasBits (wrd n) m = false := by
  refine hasBits_eq_false fun k hk hb => ?_
  rw [wbit_wrd hk]
  obtain ⟨hlo, hhi⟩ | ⟨hlo, hhi⟩ := hm k hk hb
  · exact testBit_of_field_zero h hlo hhi
  · exact testBit_of_field_zero h' hlo hhi

theorem wbit_setField_nodes (w : Word) (v : Nat) : wbit (setField w 24 16 v) 31 = wbit w 31 := by
  have hnat (x : Nat) (hx : x < 4294967296) :
      (x - x / 65536 % 512 * 65536 + v % 512 * 65536) % 4294967296 / 2147483648 = x / 2147483648 := by omega
  have hbit (x : Word) : wbit x 31 = decide (x.toNat / 2147483648 % 2 = 1) := by
    unfold wbit
    rw [← BitVec.testBit_toNat, Nat.testBit_eq_decide_div_mod_eq]
  rw [hbit, hbit]
  unfold setField field
  rw [BitVec.toNat_ofNat]
  exact congrArg (fun x => decide (x % 2 = 1)) (hnat w.toNat w.isLt)

variable {s : State} {tag : Nat}

theorem ringCount_le (p : Part) : ringCount p ≤ 16 := by
  cases p <;> decide

/-! RING_ENUMERATE (R243). -/

theorem bodyRingEnumerate_begins {r n : Nat} (hrole : s.marg.role ≠ 2) (hr : r < ringCount s.part) (hn1 : 1 ≤ n) (hn : n ≤ 256)
    (hside : ¬ (s.marg.role = 1 ∧ s.marg.sideB = true))
    (hdrive : ∀ d, ringDrive s r = some d → (s.drive d).dst = .idle ∧ tbLen s (driveTb (s.drive d)) ≤ 400000 ∧
      (if 128 < n ∨ (driveRings s d).any (fun o => decide (o ≠ r) && decide (128 < ringNodes s o)) = true then 20000
        else 10000) ≤ tbLen s (driveTb (s.drive d)))
    (hmgmt : (s.ring r).mgmt = []) (hpass : (s.ring r).pass = none) :
    bodyRingEnumerate tag [wrd (n * 2 ^ 16 + r)] s = .wait (startPass r n (some tag) false false s) := by
  have hr16 : r < 16 := Nat.lt_of_lt_of_le hr (ringCount_le s.part)
  have hfr : field (wrd (n * 2 ^ 16 + r)) 3 0 = r := (field_wrd (by omega) 3 0).trans (by omega)
  have hfn : field (wrd (n * 2 ^ 16 + r)) 24 16 = n := (field_wrd (by omega) 24 16).trans (by omega)
  have hbits : hasBits (wrd (n * 2 ^ 16 + r)) 0xFE00FFF0 = false :=
    hasBits_fields (lo := 4) (len := 12) (lo' := 25) (len' := 7) (by decide) (by omega) (by omega)
  have hn0 : n ≠ 0 := by omega
  have hn256 : ¬ 256 < n := by omega
  unfold bodyRingEnumerate
  simp only [pw, List.getD_cons_zero]
  rw [hfr, hfn, hbits]
  refine checked_nil _ ?_ _
  cases hd : ringDrive s r with
  | none => simp [ringPresent, hmgmt, hpass, hr, hrole, hn0, hn256]; simpa using hside
  | some d =>
    obtain ⟨hidle, hlong, hshort⟩ := hdrive d hd
    simp only [decide_eq_true hshort]
    simp [ringPresent, hmgmt, hpass, hr, hrole, hn0, hn256, hidle, hlong]; simpa using hside

theorem ringEnumerate_begins {r n : Nat} (hrole : s.marg.role ≠ 2) (hr : r < ringCount s.part) (hn1 : 1 ≤ n) (hn : n ≤ 256)
    (h : Starts s tag 0x40 [wrd (n * 2 ^ 16 + r)]) (hside : ¬ (s.marg.role = 1 ∧ s.marg.sideB = true))
    (hdrive : ∀ d, ringDrive s r = some d → (s.drive d).dst = .idle ∧ tbLen s (driveTb (s.drive d)) ≤ 400000 ∧
      (if 128 < n ∨ (driveRings s d).any (fun o => decide (o ≠ r) && decide (128 < ringNodes s o)) = true then 20000
        else 10000) ≤ tbLen s (driveTb (s.drive d)))
    (hmgmt : (s.ring r).mgmt = []) (hpass : (s.ring r).pass = none) : ∃ t p, exec (.ringEnumerate tag) s = .next t ∧ Waiting s t tag ∧
      (t.ring r).st = .enumerating ∧ ringNodes t r = n ∧ (t.ring r).pass = some p ∧ p.expect = n ∧ p.tag = some tag ∧
      p.step = (if (s.ring r).linkUp && wbit (ringCfg s r) 31 then .measure else .link) ∧ (∀ q, q ≠ r → t.ring q = s.ring q) ∧
      OthersKept s t 6 (0x100 + 16 * r) ∧
      t = { s with folio := t.folio, par := t.par, stip := { s.stip with rings := t.stip.rings } } := by
  have hb := bodyRingEnumerate_begins (s := begun s tag) (tag := tag) hrole hr hn1 hn hside hdrive hmgmt hpass
  obtain ⟨p, hst, hp, hexpect, -, htag, hstep, hnodes, hothers, R, hpart⟩ :=
    startPass_begins r (Nat.lt_of_le_of_lt hn (by decide)) (some tag) false false (begun s tag)
  have hcfg : ringCfg (startPass r n (some tag) false false (begun s tag)) r = setField (ringCfg s r) 24 16 n := by
    rw [hpart]
    exact parGet_parSet_self s 6 (0x100 + 16 * r) _
  have hkept : OthersKept s (startPass r n (some tag) false false (begun s tag)) 6 (0x100 + 16 * r) := by
    rw [hpart]
    exact others_parSet (by have := ringCount_le s.part; omega)
  rw [hcfg, wbit_setField_nodes] at hstep
  obtain ⟨ht, hw⟩ := waits h hb (by rw [hpart]; rfl) (by rw [hpart]; rfl)
  exact ⟨_, p, congrArg Host.Outcome.next ht, hw, hst, hnodes, hp, hexpect, htag, hstep, hothers, hkept, by rw [hpart]; rfl⟩

/-! NODE_READ and NODE_WRITE (R263 to R265). -/

/-- What a transaction that joins its ring's queue leaves. -/
theorem queueMgmt_joins (r pos reg tag : Nat) (d : Option (BitVec 64)) (s : State) :
    ((queueMgmt r pos reg tag d s).ring r).mgmt = (s.ring r).mgmt ++ [⟨tag, (s.ring r).tid, d, reg, pos, 0, 0⟩] ∧
    ((queueMgmt r pos reg tag d s).ring r).tid = ((s.ring r).tid + 1) % 64 ∧
    (∀ q, q ≠ r → (queueMgmt r pos reg tag d s).ring q = s.ring q) ∧
    ∃ R, queueMgmt r pos reg tag d s = { s with stip := { s.stip with rings := R } } := by
  have hring (q : Nat) : (queueMgmt r pos reg tag d s).ring q = _ := ring_updRing s r q _
  rw [hring r, if_pos rfl]
  exact ⟨rfl, rfl, fun q hq => (hring q).trans (if_neg hq), _, rfl⟩

section Node
variable {r pos reg : Nat} (hrole : s.marg.role ≠ 2) (hr : r < ringCount s.part) (hpos : pos < 256) (hnode : pos < ringNodes s r)
  (hreg : reg < 65536) (hready : (s.ring r).st = .ready) (hroom : (s.ring r).mgmt.length < 64)

include hr hpos hreg in
theorem nodeWord_fields : field (wrd (reg * 2 ^ 16 + r * 2 ^ 8 + pos)) 11 8 = r ∧ field (wrd (reg * 2 ^ 16 + r * 2 ^ 8 + pos)) 7 0 = pos ∧
    field (wrd (reg * 2 ^ 16 + r * 2 ^ 8 + pos)) 31 16 = reg ∧ hasBits (wrd (reg * 2 ^ 16 + r * 2 ^ 8 + pos)) 0xF000 = false := by
  have hr16 : r < 16 := Nat.lt_of_lt_of_le hr (ringCount_le s.part)
  exact ⟨(field_wrd (by omega) 11 8).trans (by omega), (field_wrd (by omega) 7 0).trans (by omega),
    (field_wrd (by omega) 31 16).trans (by omega),
    hasBits_fields (lo := 12) (len := 4) (lo' := 12) (len' := 4) (by decide) (by omega) (by omega)⟩

include hr hpos hnode hreg hready in
theorem nodeAbsent_begun : nodeAbsent (begun s tag) (wrd (reg * 2 ^ 16 + r * 2 ^ 8 + pos)) = false := by
  obtain ⟨hfr, hfp, -, hbits⟩ := nodeWord_fields (s := s) hr hpos hreg
  unfold nodeAbsent
  dsimp only
  rw [hfr, hfp, hbits]
  have hstate : ((begun s tag).ring r).st = .ready := hready
  have hcount : ringNodes (begun s tag) r = ringNodes s r := rfl
  have hpart : (begun s tag).part = s.part := rfl
  simp [ringPresent, hstate, hcount, hpart, hr, hnode]

include hrole hr hpos hnode hreg hready hroom

theorem nodeRead_queues (h : Starts s tag 0x41 [wrd (reg * 2 ^ 16 + r * 2 ^ 8 + pos)]) : ∃ t, exec (.nodeRead tag) s = .next t ∧ Waiting s t tag ∧
    (t.ring r).mgmt = (s.ring r).mgmt ++ [⟨tag, (s.ring r).tid, none, reg, pos, 0, 0⟩] ∧ (t.ring r).tid = ((s.ring r).tid + 1) % 64 ∧
    (∀ q, q ≠ r → t.ring q = s.ring q) ∧ t = { s with folio := t.folio, stip := { s.stip with rings := t.stip.rings } } := by
  obtain ⟨hfr, hfp, hfg, -⟩ := nodeWord_fields (s := s) hr hpos hreg
  have hb : bodyNodeRead tag [wrd (reg * 2 ^ 16 + r * 2 ^ 8 + pos)] (begun s tag) = .wait (queueMgmt r pos reg tag none (begun s tag)) := by
    unfold bodyNodeRead
    simp only [pw, List.getD_cons_zero]
    rw [hfr, hfp, hfg, nodeAbsent_begun hr hpos hnode hreg hready]
    exact checked_nil _ (by simpa using ⟨hrole, hroom⟩) _
  obtain ⟨hq, htid, hothers, R, hpart⟩ := queueMgmt_joins r pos reg tag none (begun s tag)
  obtain ⟨ht, hw⟩ := waits h hb (by rw [hpart]) (by rw [hpart]; rfl)
  exact ⟨_, congrArg Host.Outcome.next ht, hw, hq, htid, hothers, by rw [hpart]; rfl⟩

theorem nodeWrite_queues (lo hi : Word) (hrws : nodeRegRws reg = false ∨ ringDriveRuns s r = false)
    (h : Starts s tag 0x42 [wrd (reg * 2 ^ 16 + r * 2 ^ 8 + pos), lo, hi]) : ∃ t, exec (.nodeWrite tag) s = .next t ∧
    Waiting s t tag ∧ (t.ring r).mgmt = (s.ring r).mgmt ++
      [⟨tag, (s.ring r).tid, some (BitVec.ofNat 64 (ofTwoWords lo hi)), reg, pos, 0, 0⟩] ∧
    (∀ q, q ≠ r → t.ring q = s.ring q) ∧ t = { s with folio := t.folio, stip := { s.stip with rings := t.stip.rings } } := by
  obtain ⟨hfr, hfp, hfg, -⟩ := nodeWord_fields (s := s) hr hpos hreg
  have hb : bodyNodeWrite tag [wrd (reg * 2 ^ 16 + r * 2 ^ 8 + pos), lo, hi] (begun s tag) =
      .wait (queueMgmt r pos reg tag (some (BitVec.ofNat 64 (ofTwoWords lo hi))) (begun s tag)) := by
    have hfree : (nodeRegRws reg && ringDriveRuns (begun s tag) r) = false := Bool.and_eq_false_iff.2 hrws
    unfold bodyNodeWrite
    simp only [pw, List.getD_cons_zero, List.getD_cons_succ]
    rw [hfr, hfp, hfg, nodeAbsent_begun hr hpos hnode hreg hready, hfree]
    exact checked_nil _ (by simpa using ⟨hrole, hroom⟩) _
  obtain ⟨hq, -, hothers, R, hpart⟩ := queueMgmt_joins r pos reg tag (some (BitVec.ofNat 64 (ofTwoWords lo hi))) (begun s tag)
  obtain ⟨ht, hw⟩ := waits h hb (by rw [hpart]) (by rw [hpart]; rfl)
  exact ⟨_, congrArg Host.Outcome.next ht, hw, hq, hothers, by rw [hpart]; rfl⟩

end Node

/-! CELL_EXCLUDE and CELL_INCLUDE (R289, R290). -/

theorem mem_rangeOf {first count d : Nat} : d ∈ rangeOf first count ↔ first ≤ d ∧ d < first + count := by
  unfold rangeOf
  rw [List.mem_map]
  constructor
  · rintro ⟨i, hi, rfl⟩
    have := List.mem_range.1 hi
    omega
  · exact fun h => ⟨d - first, List.mem_range.2 (by omega), by omega⟩

/-- A change of the directory entries of a list, made alike and once or more on each, reaches exactly them. -/
theorem entry_forEach {F : DirEntry → DirEntry} (hF : ∀ e, F (F e) = F e) {f : Nat → State → State}
    (hf : ∀ d u q, (f d u).entry q = if q = d then F (u.entry d) else u.entry q) (l : List Nat) (s : State) (q : Nat) :
    (forEach l f s).entry q = if q ∈ l then F (s.entry q) else s.entry q := by
  induction l generalizing s with
  | nil => exact (if_neg List.not_mem_nil).symm
  | cons d l ih =>
    refine (ih (f d s)).trans ?_
    rw [hf]
    by_cases hq : q = d
    · subst hq
      rw [if_pos rfl, hF, ite_self, if_pos List.mem_cons_self]
    · simp [hq]

/-- A word of a directory entry, written with its mark cleared. -/
def entryWritten (F : DirEntry → DirEntry) (k d : Nat) (s : State) : State := setMark (s.updEntry d F) (dirAddr d k) .none

/-- From `s` to `t` only the directory and the marks of memory may differ. -/
def DirAlone (s t : State) : Prop := ∃ D M, t = { s with stip := { s.stip with dir := D }, mem := { s.mem with marks := M } }

theorem DirAlone.trans {s t u : State} : DirAlone s t → DirAlone t u → DirAlone s u := by
  rintro ⟨D, M, rfl⟩ ⟨D', M', rfl⟩
  exact ⟨D', M', rfl⟩

theorem forEach_entryWritten (F : DirEntry → DirEntry) (k : Nat) (l : List Nat) (s : State) : DirAlone s (forEach l (entryWritten F k) s) :=
  forEach_rel (R := DirAlone) (fun _ => ⟨_, _, rfl⟩) DirAlone.trans (fun _ _ => ⟨_, _, rfl⟩) l s

theorem entry_written {F : DirEntry → DirEntry} (hF : ∀ e, F (F e) = F e) (k : Nat) (l : List Nat) (s : State) (q : Nat) :
    (forEach l (entryWritten F k) s).entry q = if q ∈ l then F (s.entry q) else s.entry q :=
  entry_forEach (f := entryWritten F k) hF (fun d u q => entry_updEntry u d q F) l s q

section Range
variable {first count : Nat} (hrole : s.marg.role ≠ 2) (hcount : 1 ≤ count) (hrange : first + count ≤ 256 * ringCount s.part)
include hcount hrange

theorem range_bounds : first < 4096 ∧ count ≤ 4096 ∧ rangeBad (begun s tag) first count = false := by
  have hle := ringCount_le s.part
  have hbad : rangeBad (begun s tag) first count = rangeBad s first count := rfl
  rw [hbad]
  unfold rangeBad
  refine ⟨by omega, by omega, ?_⟩
  simp only [Bool.or_eq_false_iff, decide_eq_false_iff_not]
  omega

include hrole

theorem cellExclude_excludes (h : Starts s tag 0x43 [wrd (count * 2 ^ 16 + first)]) : ∃ t, exec (.cellExclude tag) s = .next t ∧
    Replied s t tag 0 [wrd ((rangeOf first count).filter fun d => decide ((s.entry d).excl = 0)).length] ∧
    (∀ d, t.entry d = if first ≤ d ∧ d < first + count ∧ (s.entry d).excl = 0 then { s.entry d with excl := 1 } else s.entry d) ∧
    t = { s with folio := t.folio, stip := { s.stip with dir := t.stip.dir } } := by
  obtain ⟨hfirst, hc, hok⟩ := range_bounds (tag := tag) hcount hrange
  have hff : field (wrd (count * 2 ^ 16 + first)) 11 0 = first := (field_wrd (by omega) 11 0).trans (by omega)
  have hfc : field (wrd (count * 2 ^ 16 + first)) 28 16 = count := (field_wrd (by omega) 28 16).trans (by omega)
  have hbits : hasBits (wrd (count * 2 ^ 16 + first)) 0xE000F000 = false :=
    hasBits_fields (lo := 12) (len := 4) (lo' := 29) (len' := 3) (by decide) (by omega) (by omega)
  have hb : bodyCellExclude [wrd (count * 2 ^ 16 + first)] (begun s tag) =
      .done stOk [wrd ((rangeOf first count).filter fun d => decide ((s.entry d).excl = 0)).length]
        (forEach ((rangeOf first count).filter fun d => decide ((s.entry d).excl = 0))
          (fun d s => s.updEntry d fun e => { e with excl := 1 }) (begun s tag)) := by
    unfold bodyCellExclude
    simp only [pw, List.getD_cons_zero]
    rw [hff, hfc, hbits, hok]
    have hrole' : (begun s tag).marg.role ≠ 2 := hrole
    exact checked_nil _ (by simpa using hrole') _
  have hentry (q : Nat) := entry_forEach (F := fun e => { e with excl := 1 }) (f := fun d s => s.updEntry d fun e => { e with excl := 1 })
    (fun _ => rfl) (fun d u q => entry_updEntry u d q _) ((rangeOf first count).filter fun d => decide ((s.entry d).excl = 0)) (begun s tag) q
  obtain ⟨D, hpart⟩ := forEach_rel (R := fun s t => ∃ D, t = ({ s with stip := { s.stip with dir := D } } : State)) (fun _ => ⟨_, rfl⟩)
    (by rintro s t u ⟨D, rfl⟩ ⟨D', rfl⟩; exact ⟨D', rfl⟩) (f := fun d s => s.updEntry d fun e => { e with excl := 1 }) (fun _ _ => ⟨_, rfl⟩)
    ((rangeOf first count).filter fun d => decide ((s.entry d).excl = 0)) (begun s tag)
  rw [hpart] at hb hentry
  obtain ⟨t, ht, hreply, f, rfl⟩ := completes h hb rfl rfl
  refine ⟨_, congrArg Host.Outcome.next ht, hreply, fun d => (hentry d).trans (if_congr ?_ rfl rfl), rfl⟩
  rw [List.mem_filter, mem_rangeOf, decide_eq_true_eq, and_assoc]

/-! The word of CELL_INCLUDE. -/

omit hrole hcount hrange in
theorem wbit_of_div {n k : Nat} {b : Bool} (hk : k < 32) (h : n / 2 ^ k % 2 = b2n b) : wbit (wrd n) k = b := by
  rw [wbit_wrd hk, Nat.testBit_eq_decide_div_mod_eq, h]
  cases b <;> decide

/-- The word of CELL_INCLUDE: what it carries, and its range. -/
def includeWord (inc lims led : Bool) (count first : Nat) : Word :=
  wrd (b2n inc * 2 ^ 31 + b2n lims * 2 ^ 30 + b2n led * 2 ^ 29 + count * 2 ^ 16 + first)

omit hrole hcount hrange in
theorem includeWord_fields (inc lims led : Bool) (hc : count ≤ 4096) (hf : first < 4096) :
    wbit (includeWord inc lims led count first) 31 = inc ∧ wbit (includeWord inc lims led count first) 30 = lims ∧
    wbit (includeWord inc lims led count first) 29 = led ∧ field (includeWord inc lims led count first) 11 0 = first ∧
    field (includeWord inc lims led count first) 28 16 = count ∧
    field (includeWord inc lims led count first) 31 29 = 4 * b2n inc + 2 * b2n lims + b2n led ∧
    hasBits (includeWord inc lims led count first) 0xF000 = false := by
  have hi := b2n_le inc
  have hl := b2n_le lims
  have hd := b2n_le led
  unfold includeWord
  exact ⟨wbit_of_div (by decide) (by omega), wbit_of_div (by decide) (by omega), wbit_of_div (by decide) (by omega),
    (field_wrd (by omega) 11 0).trans (by omega), (field_wrd (by omega) 28 16).trans (by omega), (field_wrd (by omega) 31 29).trans (by omega),
    hasBits_fields (lo := 12) (len := 4) (lo' := 12) (len' := 4) (by decide) (by omega) (by omega)⟩

/-- What CELL_INCLUDE leaves in the directory: the limits and ledgers of its range, and the exclusion of those that it includes. -/
def included (all inc : List Nat) (lims led : Bool) (lim x : Word) (s : State) : State :=
  let s := forEach (if lims then all else []) (entryWritten (fun e => { e with limits := lim }) 6) s
  let s := forEach (if led then all else []) (entryWritten (fun e => { e with ledger := x }) 2) s
  forEach inc (entryWritten (fun e => { e with excl := 0 }) 0) s

omit hrole hcount hrange in
theorem forEach_ite (b : Bool) (l : List Nat) (f : Nat → State → State) (s : State) :
    forEach (if b then l else []) f s = if b then forEach l f s else s := by
  cases b <;> rfl

omit hrole hcount hrange in
theorem included_alone (all inc : List Nat) (lims led : Bool) (lim x : Word) (s : State) : DirAlone s (included all inc lims led lim x s) :=
  ((forEach_entryWritten _ _ _ _).trans (forEach_entryWritten _ _ _ _)).trans (forEach_entryWritten _ _ _ _)

omit hrole hcount hrange in
theorem entry_included (all : List Nat) (b lims led : Bool) (lim x : Word) (s : State) (d : Nat) :
    (included all (if b then all.filter fun d => includable (s.entry d) else []) lims led lim x s).entry d =
      if d ∈ all then { s.entry d with excl := if b && includable (s.entry d) then 0 else (s.entry d).excl,
                                       limits := if lims then lim else (s.entry d).limits,
                                       ledger := if led then x else (s.entry d).ledger }
      else s.entry d := by
  unfold included
  dsimp only
  rw [entry_written (F := fun e => { e with excl := 0 }) (fun _ => rfl), entry_written (F := fun e => { e with ledger := x }) (fun _ => rfl),
    entry_written (F := fun e => { e with limits := lim }) (fun _ => rfl)]
  by_cases hd : d ∈ all
  · cases b <;> cases lims <;> cases led <;> by_cases hi : includable (s.entry d) = true <;> simp [hd, hi]
  · cases b <;> cases lims <;> cases led <;> simp [hd]

theorem cellInclude_includes {inc lims led : Bool} {lim x : Word} (hany : inc = true ∨ lims = true ∨ led = true)
    (hlim : lims = true → field lim 23 16 ≤ field lim 31 24 ∧ field lim 7 0 ≤ field lim 15 8) (hled : led = true → fFinite x = true)
    (h : Starts s tag 0x44 [wrd (b2n inc * 2 ^ 31 + b2n lims * 2 ^ 30 + b2n led * 2 ^ 29 + count * 2 ^ 16 + first), lim, x]) :
    ∃ t w, exec (.cellInclude tag) s = .next t ∧ Replied s t tag 0 [w] ∧
    (∀ d, t.entry d = if first ≤ d ∧ d < first + count then
        { s.entry d with excl := if inc && includable (s.entry d) then 0 else (s.entry d).excl,
                         limits := if lims then lim else (s.entry d).limits,
                         ledger := if led then x else (s.entry d).ledger }
      else s.entry d) ∧
    t = { s with folio := t.folio, stip := { s.stip with dir := t.stip.dir }, mem := { s.mem with marks := t.mem.marks } } := by
  obtain ⟨hfirst, hc, hok⟩ := range_bounds (tag := tag) hcount hrange
  change Starts s tag 0x44 [includeWord inc lims led count first, lim, x] at h
  obtain ⟨h31, h30, h29, hff, hfc, hf31, hbits⟩ := includeWord_fields inc lims led hc hfirst
  have hrole' : (begun s tag).marg.role ≠ 2 := hrole
  have hsome : decide (4 * b2n inc + 2 * b2n lims + b2n led = 0) = false := by
    obtain rfl | rfl | rfl := hany <;> simp [b2n]
  have hlims : (lims && (decide (field lim 31 24 < field lim 23 16) || decide (field lim 15 8 < field lim 7 0))) = false := by
    cases lims with
    | false => rfl
    | true => simpa using hlim rfl
  have hledger : (led && !fFinite x) = false := by
    cases led with
    | false => rfl
    | true => simpa using hled rfl
  have hb : ∃ w, bodyCellInclude [includeWord inc lims led count first, lim, x] (begun s tag) = .done stOk [w]
      (included (rangeOf first count) (if inc then (rangeOf first count).filter fun d => includable ((begun s tag).entry d) else [])
        lims led lim x (begun s tag)) := by
    unfold bodyCellInclude
    simp only [pw, List.getD_cons_zero, List.getD_cons_succ, h31, h30, h29, hff, hfc, hf31, hbits, hok]
    refine ⟨_, (checked_nil _ ?_ _).trans (congrArg (CmdRes.done stOk _) ?_)⟩
    · rw [hsome, hlims, hledger]
      simp [hrole']
    · unfold included
      dsimp only
      rw [forEach_ite lims, forEach_ite led]
      rfl
  obtain ⟨w, hb⟩ := hb
  have hentry (d : Nat) := entry_included (rangeOf first count) inc lims led lim x (begun s tag) d
  obtain ⟨D, M, hpart⟩ := included_alone (rangeOf first count)
    (if inc then (rangeOf first count).filter fun d => includable ((begun s tag).entry d) else []) lims led lim x (begun s tag)
  rw [hpart] at hb hentry
  obtain ⟨t, ht, hreply, f, rfl⟩ := completes h hb rfl rfl
  exact ⟨_, w, congrArg Host.Outcome.next ht, hreply, fun d => (hentry d).trans (if_congr mem_rangeOf rfl rfl), rfl⟩

end Range

/-- Settles O42: each command of the rings is the lemma above. -/
theorem ringCommands : Obligations.RingCommands := by
  unfold Obligations.RingCommands
  intro s tag hrole
  exact ⟨fun r n hr hn1 hn h hside hdrive hmgmt hpass => ringEnumerate_begins hrole hr hn1 hn h hside hdrive hmgmt hpass,
    fun r pos reg hr hpos hnode hreg hready hroom => ⟨nodeRead_queues hrole hr hpos hnode hreg hready hroom,
      nodeWrite_queues hrole hr hpos hnode hreg hready hroom⟩,
    fun first count hcount hrange => ⟨cellExclude_excludes hrole hcount hrange,
      fun inc lims led lim x hany hlim hled => cellInclude_includes hrole hcount hrange hany hlim hled⟩⟩

end Sys2Proof.Proofs
end

section
/-!
PROOFS. O43, first part: the frames that a ring head sends (R20, R27, R242, R251, R266), and what a send leaves aside.
-/
namespace Sys2Proof.Proofs
open Sys2Proof.Machine Sys2Proof.Safety Sys2Proof.Laws

/-! What the work on a ring leaves. -/

/-- The counters of periods, and of each ring the registers below its counts of returns. -/
def LanePar (u i : Nat) : Prop := i < 65536 ∧ (u = 5 ∨ (u = 6 ∧ 0x100 ≤ i ∧ i < 0x200 ∧ i % 16 < 7))

/-- The same registers but FRAME_COUNT of ring `r`. -/
def BesidesSent (r u i : Nat) : Prop := LanePar u i ∧ ¬ (u = 6 ∧ i = 0x104 + 16 * r)

/-- From `s` to `t` the work on a ring: the clock, Plate, MRAM and memory stay, the registers `K` and the events so far. -/
structure RingWork (K : Nat → Nat → Prop) (s t : State) : Prop where
  now : t.now = s.now
  tim : t.tim = s.tim
  plate : t.plate = s.plate
  nv : t.nv = s.nv
  cells : t.mem.cells = s.mem.cells
  par : ∀ u i, K u i → parGet t u i = parGet s u i
  grow : ∀ e ∈ s.book.inq, e.code ≠ 0x0902 → e ∈ t.book.inq

variable {K : Nat → Nat → Prop}

theorem RingWork.refl (s : State) : RingWork K s s := ⟨rfl, rfl, rfl, rfl, rfl, fun _ _ _ => rfl, fun _ h _ => h⟩

theorem RingWork.trans {s t u : State} (h : RingWork K s t) (k : RingWork K t u) : RingWork K s u :=
  ⟨k.now.trans h.now, k.tim.trans h.tim, k.plate.trans h.plate, k.nv.trans h.nv, k.cells.trans h.cells,
    fun a i hi => (k.par a i hi).trans (h.par a i hi), fun e he hc => k.grow e (h.grow e he hc) hc⟩

theorem RingWork.mono {K' : Nat → Nat → Prop} {s t : State} (h : RingWork K s t) (hK : ∀ u i, K' u i → K u i) : RingWork K' s t :=
  ⟨h.now, h.tim, h.plate, h.nv, h.cells, fun a i hi => h.par a i (hK a i hi), h.grow⟩

theorem RingWork.besides {s t : State} (h : RingWork LanePar s t) (r : Nat) : RingWork (BesidesSent r) s t := h.mono fun _ _ h => h.1

/-- What touches rings, Folio and the Margin link alone is such work. -/
theorem RingWork.misc (s : State) (S : Stipple) (F : Folio) (M : Margin) : RingWork K s { s with stip := S, folio := F, marg := M } :=
  ⟨rfl, rfl, rfl, rfl, rfl, fun _ _ _ => rfl, fun _ h _ => h⟩

theorem RingWork.ev {s t : State} (h : EvStep s t) : RingWork LanePar s t :=
  ⟨h.now, h.tim, h.plate, h.nv, h.mem_cells, fun a i hi => by
    obtain ⟨hlow, hk⟩ := hi
    exact parGet_of_evStep h hlow (by omega) (by omega), h.grow⟩

theorem RingWork.parSet {s : State} {u i : Nat} (hi : i < 65536) (h : ¬ K u i) (hK : ∀ u i, K u i → i < 65536) (v : Word) :
    RingWork K s (parSet s u i v) :=
  ⟨rfl, rfl, rfl, rfl, rfl, fun a j hj => parGet_parSet_ne hi (hK a j hj) (by rintro ⟨rfl, rfl⟩; exact h hj) v, fun _ h _ => h⟩

theorem lane_parSet {s : State} {u i : Nat} (hi : i < 65536) (h : ¬ LanePar u i) (v : Word) : RingWork LanePar s (parSet s u i v) :=
  .parSet hi h (fun _ _ h => h.1) v

theorem RingWork.updRing (s : State) (r : Nat) (f : Machine.Ring → Machine.Ring) : RingWork K s (s.updRing r f) := .misc s _ s.folio s.marg

theorem RingWork.updEntry (s : State) (d : Nat) (f : DirEntry → DirEntry) : RingWork K s (s.updEntry d f) := .misc s _ s.folio s.marg

theorem RingWork.completeTag (tag status : Nat) (ws : List Word) (s : State) : RingWork K s (completeTag tag status ws s) := by
  obtain ⟨f, m, h⟩ := completeTag_keeps tag status ws s
  rw [h]
  exact .misc s s.stip f m

/-- From `s` to `t` what goes on beside a send on ring `r`: the ring keeps its last frame, its SEQ and its order; the others stay. -/
structure RingLane (r : Nat) (s t : State) : Prop where
  work : RingWork LanePar s t
  others : ∀ q, q ≠ r → t.ring q = s.ring q
  last : (t.ring r).last = (s.ring r).last
  seq : (t.ring r).seq = (s.ring r).seq
  safeDue : (t.ring r).safeDue = (s.ring r).safeDue
  timebase : ∀ q, ringTimebase t q = ringTimebase s q

theorem RingLane.refl (r : Nat) (s : State) : RingLane r s s := ⟨.refl s, fun _ _ => rfl, rfl, rfl, rfl, fun _ => rfl⟩

theorem RingLane.trans {r : Nat} {s t u : State} (h : RingLane r s t) (k : RingLane r t u) : RingLane r s u :=
  ⟨h.work.trans k.work, fun q hq => (k.others q hq).trans (h.others q hq), k.last.trans h.last, k.seq.trans h.seq,
    k.safeDue.trans h.safeDue, fun q => (k.timebase q).trans (h.timebase q)⟩

theorem RingLane.rings {r : Nat} {s t : State} (h : RingWork LanePar s t) (hrings : t.stip.rings = s.stip.rings) (hdrives : t.drives = s.drives) :
    RingLane r s t := by
  have hring (q : Nat) : t.ring q = s.ring q := congrArg (fun R => tblGet R ({} : Machine.Ring) q) hrings
  refine ⟨h, fun q _ => hring q, by rw [hring], by rw [hring], by rw [hring], fun q => ?_⟩
  unfold ringTimebase ringDrive drivesWith State.drive
  rw [hdrives]

theorem RingLane.upd {r : Nat} (s : State) {f : Machine.Ring → Machine.Ring}
    (hf : ∀ g, (f g).last = g.last ∧ (f g).seq = g.seq ∧ (f g).safeDue = g.safeDue) : RingLane r s (s.updRing r f) := by
  have hring (q : Nat) := ring_updRing s r q f
  have hown := (hring r).trans (if_pos rfl)
  obtain ⟨hlast, hseq, hsafe⟩ := hf (s.ring r)
  exact ⟨.updRing s r f, fun q hq => (hring q).trans (if_neg hq), by rw [hown, hlast], by rw [hown, hseq], by rw [hown, hsafe], fun _ => rfl⟩

/-- From `s` to `t` what the record of an event of no drive changes. -/
def Noted (s t : State) : Prop := ∃ P C Q, t = { s with par := P, mem := { s.mem with caps := C }, book := { s.book with inq := Q } }

theorem Noted.refl (s : State) : Noted s s := ⟨_, _, _, rfl⟩

theorem Noted.trans {s t u : State} : Noted s t → Noted t u → Noted s u := by
  rintro ⟨P, C, Q, rfl⟩ ⟨P', C', Q', rfl⟩
  exact ⟨P', C', Q', rfl⟩

theorem noted_capTrigger (e : Event) (b : Nat) (s : State) : Noted s (capTrigger e b s) := rel_ite ⟨_, _, _, rfl⟩ (.refl s)

theorem record_noted {s : State} {code idx : Nat} {args : List Word} (hd : eventDrive (mkEvent s code idx args) = none) :
    Noted s (record s code idx args) := by
  unfold record recordEvent
  rw [hd]
  extract_lets _ queued marked named
  have hqueued : Noted s queued := ⟨_, _, _, rfl⟩
  have hmarked : Noted queued marked := rel_ite ⟨_, _, _, rfl⟩ (.refl queued)
  exact (hqueued.trans hmarked).trans (forUpTo_rel (R := Noted) .refl .trans (fun b _ u => noted_capTrigger _ b u) named)

theorem lane_record (r : Nat) {s : State} {code idx : Nat} {args : List Word} (hd : eventDrive (mkEvent s code idx args) = none) :
    RingLane r s (record s code idx args) := by
  obtain ⟨P, C, Q, h⟩ := record_noted hd
  exact .rings (.ev (ev_record (.refl s))) (by rw [h]) (by rw [h])

theorem lane_queueCell (r : Nat) (s : State) (t : CellType) (sub : Nat) (ws : List Word) : RingLane r s (queueCell s t sub ws) :=
  .rings (.misc s s.stip s.folio _) rfl rfl

theorem lane_completeTag (r tag status : Nat) (ws : List Word) (s : State) : RingLane r s (completeTag tag status ws s) := by
  obtain ⟨f, m, h⟩ := completeTag_keeps tag status ws s
  exact .rings (.completeTag tag status ws s) (by rw [h]) (by rw [h])

theorem lane_updEntry (r : Nat) (s : State) (d : Nat) (f : DirEntry → DirEntry) : RingLane r s (s.updEntry d f) :=
  .rings (.updEntry s d f) rfl rfl

theorem lane_parCount {r u i : Nat} (s : State) (hi : i < 65536) (h : ¬ LanePar u i) (n : Nat) : RingLane r s (parCount s u i n) :=
  .rings (lane_parSet hi h _) rfl rfl

/-! The parts of a send beside the frame itself. -/

theorem mgmtComplete_cases (r rstatus : Nat) (data : BitVec 64) (s : State) : mgmtComplete r rstatus data s = s ∨ ∃ m rest ws,
    (s.ring r).mgmt = m :: rest ∧ mgmtComplete r rstatus data s = completeTag m.tag stOk ws (s.updRing r fun g => { g with mgmt := rest }) := by
  unfold mgmtComplete
  split
  next => exact .inl rfl
  next m rest hm => exact .inr ⟨m, rest, _, hm, rfl⟩

theorem lane_mgmtComplete (r rstatus : Nat) (data : BitVec 64) (s : State) : RingLane r s (mgmtComplete r rstatus data s) := by
  obtain h | ⟨m, rest, ws, -, h⟩ := mgmtComplete_cases r rstatus data s <;> rw [h]
  · exact .refl r s
  · exact (RingLane.upd (f := fun g => { g with mgmt := rest }) s fun _ => ⟨rfl, rfl, rfl⟩).trans (lane_completeTag r _ _ _ _)

theorem lane_mgmtFail (r rstatus : Nat) (s : State) : RingLane r s (mgmtFail r rstatus s) := by
  unfold mgmtFail
  split
  next => exact .refl r s
  next => exact rel_ite (lane_mgmtComplete r _ _ s) (.upd s fun _ => ⟨rfl, rfl, rfl⟩)

theorem lane_mgmtMissing (r : Nat) (s : State) : RingLane r s (mgmtMissing r s) := by
  unfold mgmtMissing
  split
  next => exact rel_ite (lane_mgmtFail r _ s) (.refl r s)
  next => exact .refl r s

theorem lane_mgmtSent (r : Nat) (carries : Bool) (s : State) : RingLane r s (mgmtSent r carries s) := by
  unfold mgmtSent
  split
  next => exact rel_ite (.upd s fun _ => ⟨rfl, rfl, rfl⟩) (rel_ite (.upd s fun _ => ⟨rfl, rfl, rfl⟩) (.refl r s))
  next => exact .refl r s

theorem lane_excludeBeyond (r q : Nat) (p : Nat → Bool) (s : State) : RingLane r s (excludeBeyond q p s) :=
  forEach_rel (R := RingLane r) (.refl r) .trans (fun _ u => lane_updEntry r u _ _) _ s

theorem lane_ringBreak (r : Nat) (hops : Option Nat) (s : State) : RingLane r s (ringBreak r hops s) := by
  unfold ringBreak
  refine rel_ite (.refl r s) ?_
  extract_lets arg broken raised
  have hbroken : RingLane r s broken := .upd s fun _ => ⟨rfl, rfl, rfl⟩
  have hraised : RingLane r broken raised := lane_record r rfl
  exact (hbroken.trans hraised).trans (rel_ite (rel_ite (.upd _ fun _ => ⟨rfl, rfl, rfl⟩) (.refl r _)) (lane_excludeBeyond r r _ _))

theorem lane_missingReturn {r : Nat} (hr : r < 16) (s : State) : RingLane r s (missingReturn r s) := by
  unfold missingReturn
  extract_lets g counted missed
  have hcounted : RingLane r s counted := lane_parCount s (by omega) (by unfold LanePar; omega) 1
  have hmissed : RingLane r counted missed := .upd counted fun _ => ⟨rfl, rfl, rfl⟩
  exact rel_ite (.refl r s) ((hcounted.trans hmissed).trans (rel_ite (lane_ringBreak r none missed) (.refl r missed)))

theorem lane_noteStates (r : Nat) (states : List Nat) (s : State) : RingLane r s (noteStates r states s) :=
  forEach_rel (R := RingLane r) (.refl r) .trans (fun _ u => lane_updEntry r u _ _) _ s

theorem lane_excludeUnreached (r farHops : Nat) (s : State) : RingLane r s (excludeUnreached r farHops s) :=
  rel_ite (lane_excludeBeyond r r _ s) (.refl r s)

theorem lane_farMissed (r : Nat) (s : State) : RingLane r s (farMissed r s) := by
  unfold farMissed
  extract_lets missed
  have hmissed : RingLane r s missed := .upd s fun _ => ⟨rfl, rfl, rfl⟩
  exact rel_ite (hmissed.trans (rel_ite (lane_excludeUnreached r 0 missed) (.refl r missed))) (.refl r s)

theorem lane_handoverDone (r : Nat) (s : State) : RingLane r s (handoverDone s) := by
  unfold handoverDone
  refine rel_ite (.refl r s) ?_
  have hcount : RingLane r s (parCount { s with marg := { s.marg with hoDue := false } } 11 6 1) :=
    .rings ((RingWork.misc s s.stip s.folio _).trans (lane_parSet (by decide) (by unfold LanePar; omega) _)) rfl rfl
  exact (hcount.trans (lane_record r rfl)).trans (lane_queueCell r _ _ _ _)

theorem lane_farContent (r : Nat) (s : State) : RingLane r s (farContent r s) := by
  unfold farContent
  split
  next => exact rel_ite (forEach_rel (R := RingLane r) (.refl r) .trans (fun _ u => lane_queueCell r u _ _ _) _ s) (.refl r s)
  next => exact .refl r s

theorem below_congr {n : Nat} {p q : Nat → Bool} (h : ∀ k, p k = q k) : below n p = below n q := by
  rw [show p = q from funext h]

/-- A change of a drive beside its word leaves the timebases of the rings. -/
theorem ringTimebase_updDrive (s : State) (d : Nat) {f : Drive → Drive} (hf : ∀ v, (f v).cfg = v.cfg ∧ (f v).arch = v.arch) (r : Nat) :
    ringTimebase (s.updDrive d f) r = ringTimebase s r := by
  have hdrive (k : Nat) : ((s.updDrive d f).drive k).cfg = (s.drive k).cfg ∧ ((s.updDrive d f).drive k).arch = (s.drive k).arch := by
    rw [drive_updDrive]
    split
    next h => rw [h]; exact hf _
    next => exact ⟨rfl, rfl⟩
  have hhas (k : Nat) : driveHasRing ((s.updDrive d f).drive k) r = driveHasRing (s.drive k) r := by
    unfold driveHasRing isString
    rw [(hdrive k).1, (hdrive k).2]
  unfold ringTimebase ringDrive drivesWith
  rw [below_congr hhas]
  refine congrArg (fun g => Option.map g _) (funext fun k => ?_)
  unfold driveTb
  rw [(hdrive k).1]

theorem lane_updDrive (r : Nat) (s : State) (d : Nat) {f : Drive → Drive} (hf : ∀ v, (f v).cfg = v.cfg ∧ (f v).arch = v.arch) :
    RingLane r s (s.updDrive d f) :=
  ⟨.ev (ev_updDrive (.refl s)), fun _ _ => rfl, rfl, rfl, rfl, ringTimebase_updDrive s d hf⟩

theorem lane_noteBleed (r q apply nib : Nat) (s : State) : RingLane r s (noteBleed q apply nib s) := by
  unfold noteBleed
  split
  next => exact rel_ite (lane_updDrive r s _ fun _ => ⟨rfl, rfl⟩) (.refl r s)
  next => exact .refl r s

theorem lane_stringDischarge (r d : Nat) (s : State) : RingLane r s (stringDischarge d s) := by
  obtain h | ⟨ts, w, -, h⟩ := stringDischarge_cases d s <;> rw [h]
  · exact .refl r s
  · have hbled : RingLane r s (bledOut d s) := by
      unfold bledOut
      exact lane_updDrive r s d fun _ => ⟨rfl, rfl⟩
    exact hbled.trans (lane_record r rfl)

/-! A send. -/

/-- From `s` to `t` ring `r` sends `f`, with the next SEQ and at the next coincident tick. -/
structure FrameSent (r : Nat) (f : DownFrame) (s t : State) : Prop where
  last : ∃ g, (t.ring r).last = some { f with seq := ((s.ring r).seq + 1) % 65536, group := g, send := sendTick s }
  safeDue : (t.ring r).safeDue = (s.ring r).safeDue
  others : ∀ q, q ≠ r → t.ring q = s.ring q
  count : parGet t 6 (0x104 + 16 * r) = parGet s 6 (0x104 + 16 * r) + 1
  work : RingWork (BesidesSent r) s t
  timebase : ∀ q, ringTimebase t q = ringTimebase s q

theorem lanePar_count {r : Nat} (hr : r < 16) {k : Nat} (hk : k < 7) : LanePar 6 (0x100 + k + 16 * r) := by
  unfold LanePar
  omega

theorem FrameSent.after {r : Nat} (hr : r < 16) {f : DownFrame} {s t u : State} (h : RingLane r s t) (k : FrameSent r f t u) : FrameSent r f s u := by
  obtain ⟨g, hlast⟩ := k.last
  have htick : sendTick t = sendTick s := by unfold sendTick; rw [h.work.now]
  rw [h.seq, htick] at hlast
  exact ⟨⟨g, hlast⟩, k.safeDue.trans h.safeDue, fun q hq => (k.others q hq).trans (h.others q hq),
    by rw [k.count, h.work.par _ _ (lanePar_count hr (k := 4) (by decide))], (h.work.besides r).trans k.work,
    fun q => (k.timebase q).trans (h.timebase q)⟩

theorem FrameSent.before {r : Nat} (hr : r < 16) {f : DownFrame} {s t u : State} (h : FrameSent r f s t) (k : RingLane r t u) : FrameSent r f s u := by
  obtain ⟨g, hlast⟩ := h.last
  exact ⟨⟨g, k.last.trans hlast⟩, k.safeDue.trans h.safeDue, fun q hq => (k.others q hq).trans (h.others q hq),
    by rw [k.work.par _ _ (lanePar_count hr (k := 4) (by decide)), h.count], h.work.trans (k.work.besides r),
    fun q => (k.timebase q).trans (h.timebase q)⟩

/-- The frame itself goes out: it is the last of its ring, and counted. -/
theorem frameOut_sends {r : Nat} (hr : r < 16) (f : DownFrame) {F : Machine.Ring → Machine.Ring} {s : State}
    (hF : ∃ g, (F (s.ring r)).last = some { f with seq := ((s.ring r).seq + 1) % 65536, group := g, send := sendTick s })
    (hsafe : (F (s.ring r)).safeDue = (s.ring r).safeDue) : FrameSent r f s (parWrap (s.updRing r F) 6 (0x104 + 16 * r)) := by
  have hring (q : Nat) : (parWrap (s.updRing r F) 6 (0x104 + 16 * r)).ring q = if q = r then F (s.ring r) else s.ring q := ring_updRing s r q F
  have hown := (hring r).trans (if_pos rfl)
  refine ⟨by rw [hown]; exact hF, by rw [hown, hsafe], fun q hq => (hring q).trans (if_neg hq), parGet_parSet_self _ 6 _ _, ?_, fun _ => rfl⟩
  exact (RingWork.updRing s r F).trans (.parSet (by omega) (fun h => h.2 ⟨rfl, rfl⟩) (fun _ _ h => h.1.1) _)

theorem sendFrame_sends {r : Nat} (hr : r < 16) (f : DownFrame) (s : State) : FrameSent r f s (sendFrame r f s) := by
  unfold sendFrame
  extract_lets ready g sq grp frame out counted noted sent
  have hready : RingLane r s ready := (lane_mgmtMissing r s).trans (lane_missingReturn hr _)
  have hout : FrameSent r f ready counted := frameOut_sends hr f ⟨grp, rfl⟩ rfl
  have hnoted : RingLane r counted noted := lane_noteStates r _ _
  have hsent : RingLane r noted sent := (lane_mgmtSent r _ _).trans (lane_farMissed r _)
  have hdone : RingLane r sent (if f.ftype = .enum then sent else handoverDone sent) := rel_ite (.refl r _) (lane_handoverDone r _)
  exact .after hr hready (.before hr hout ((hnoted.trans hsent).trans hdone))

end Sys2Proof.Proofs
end

section
/-!
PROOFS. O43, second part: what the reaction to an event leaves of the rings, and the rows of the ring head's sends.
-/
namespace Sys2Proof.Proofs
open Sys2Proof.Machine Sys2Proof.Safety Sys2Proof.Laws

/-! What the reaction to an event leaves of the rings (R27): a ring is ordered, its queue and its last frame stay. -/

/-- Every ring keeps its last frame, its queue of transactions and its far-end service. -/
structure RingKept (s t : State) (q : Nat) : Prop where
  last : (t.ring q).last = (s.ring q).last
  mgmt : (t.ring q).mgmt = (s.ring q).mgmt
  farAt : (t.ring q).farAt = (s.ring q).farAt

def RingsKept (s t : State) : Prop := ∀ q, RingKept s t q

theorem RingsKept.refl (s : State) : RingsKept s s := fun _ => ⟨rfl, rfl, rfl⟩

theorem RingsKept.trans {s t u : State} (h : RingsKept s t) (k : RingsKept t u) : RingsKept s u := fun q =>
  ⟨(k q).last.trans (h q).last, (k q).mgmt.trans (h q).mgmt, (k q).farAt.trans (h q).farAt⟩

theorem ringsKept_of_rings {s t : State} (h : t.stip.rings = s.stip.rings) : RingsKept s t := fun q => by
  have hq : t.ring q = s.ring q := congrArg (fun R => tblGet R ({} : Machine.Ring) q) h
  exact ⟨by rw [hq], by rw [hq], by rw [hq]⟩

theorem ringsKept_updRing (s : State) (r : Nat) {f : Machine.Ring → Machine.Ring}
    (hf : ∀ g, (f g).last = g.last ∧ (f g).mgmt = g.mgmt ∧ (f g).farAt = g.farAt) : RingsKept s (s.updRing r f) := fun q => by
  have hring := ring_updRing s r q f
  obtain ⟨hlast, hmgmt, hfar⟩ := hf (s.ring r)
  split at hring
  next h => rw [h] at hring ⊢; exact ⟨by rw [hring, hlast], by rw [hring, hmgmt], by rw [hring, hfar]⟩
  next => exact ⟨by rw [hring], by rw [hring], by rw [hring]⟩

theorem ringsKept_orderRing (r : Nat) (s : State) : RingsKept s (orderRing r s) := by
  unfold orderRing
  exact ringsKept_updRing s r fun _ => ⟨rfl, rfl, rfl⟩

theorem rings_capTrigger (e : Event) (b : Nat) (s : State) : (capTrigger e b s).stip = s.stip := by
  unfold capTrigger
  split <;> rfl

theorem record_stip (s : State) (code i : Nat) (args : List Word) : (record s code i args).stip = s.stip := by
  unfold record recordEvent
  extract_lets _ queued marked named
  have hmarked : marked.stip = s.stip := by unfold marked; split <;> rfl
  have hnamed : named.stip = s.stip := by
    unfold named
    cases eventDrive (mkEvent s code i args) with
    | none => exact hmarked
    | some d => exact hmarked
  exact (forUpTo_rel (R := fun u v => v.stip = u.stip) (fun _ => rfl) (fun h k => k.trans h) (fun b _ u => rings_capTrigger _ b u)
    named).trans hnamed

theorem ringsKept_record (s : State) (code i : Nat) (args : List Word) : RingsKept s (record s code i args) :=
  ringsKept_of_rings (by rw [record_stip])

theorem ringsKept_pairsAlone {s t : State} (h : PairsAlone s t) : RingsKept s t := by
  obtain ⟨P, rfl⟩ := h
  exact ringsKept_of_rings rfl

theorem ringsKept_noteSpeeds (s : State) : RingsKept s (noteSpeeds s) := by
  obtain ⟨D, hD⟩ := (noteSpeeds_noted s).2
  rw [hD]
  exact ringsKept_of_rings rfl

theorem ringsKept_safeEntry (s : State) (d ss code : Nat) : RingsKept s (safeEntry s d ss code) :=
  rel_ite (ringsKept_of_rings rfl) (ringsKept_record s _ _ _)

theorem ringsKept_updDrive (s : State) (d : Nat) (f : Drive → Drive) : RingsKept s (s.updDrive d f) := ringsKept_of_rings rfl

theorem ringsKept_setLatch (s : State) (code i : Nat) (resetOnly : Bool) : RingsKept s (setLatch s code i resetOnly) :=
  rel_ite (.refl s) (ringsKept_of_rings rfl)

theorem ringsKept_readCells (l : List Nat) (s : State) : RingsKept s (readCells l s) := by
  obtain ⟨P, mk, er, ce, q, h⟩ := read_readCells l s
  rw [h]
  exact ringsKept_of_rings rfl

theorem ringsKept_stopoutConsumes (d : Nat) (s : State) : RingsKept s (stopoutConsumes d s) := by
  unfold stopoutConsumes
  split
  · exact .refl s
  next i _ =>
    extract_lets a m exempt bitten
    have hbitten : RingsKept s bitten := ringsKept_of_rings rfl
    have hnoted : RingsKept bitten (noteBite bitten 9 a) := ringsKept_of_rings rfl
    exact hbitten.trans (rel_ite (.refl _) (hnoted.trans ((ringsKept_record _ _ 9 _).trans (ringsKept_setLatch _ _ 9 false))))

theorem ringsKept_followDrive (d : Nat) (s : State) : RingsKept s (followDrive d s) := by
  unfold followDrive
  have hstop : RingsKept s (stopRegTimer s d) := ringsKept_of_rings rfl
  have hpairs (u : State) : RingsKept u (forEach (drivePairs u d) (fun p s => settlePair s p) u) :=
    forEach_rel RingsKept.refl RingsKept.trans (fun p v => ringsKept_pairsAlone (settlePair_alone v p).pairs) _ u
  exact (hstop.trans (hpairs _)).trans (forEach_rel RingsKept.refl RingsKept.trans ringsKept_orderRing _ _)

theorem ringsKept_placeDrive (d ss code : Nat) (byEvent : Bool) (s : State) : RingsKept s (placeDrive d ss code byEvent s) := by
  unfold placeDrive
  extract_lets v n placed entered stopped settled
  refine rel_ite (.refl s) (rel_ite (rel_ite ?_ (.refl s)) ?_)
  · exact (ringsKept_updDrive s d _).trans (ringsKept_safeEntry _ d ss code)
  · have hplaced : RingsKept s placed := (ringsKept_updDrive s d _).trans (ringsKept_noteSpeeds _)
    have hentered : RingsKept placed entered := ringsKept_safeEntry placed d n code
    exact (hplaced.trans hentered).trans (ringsKept_followDrive d entered)

theorem ringsKept_setOp (s : State) (o : OpState) : RingsKept s (setOp s o) :=
  rel_ite (.refl s) ((ringsKept_record s 1 0 [wrd (opCode s.op), wrd (opCode o)]).trans (ringsKept_of_rings rfl))

theorem ringsKept_enterSafe (ds : List Nat) (ss code : Nat) (s : State) : RingsKept s (enterSafe ds ss code s) := by
  unfold enterSafe
  extract_lets placed
  have hplaced : RingsKept s placed := forUpTo_rel RingsKept.refl RingsKept.trans (fun d _ u => by
    dsimp only
    have hread : RingsKept u (if hasArch (u.drive d) then readCells ((settingIdx d).map par9Addr) u else u) :=
      rel_ite (ringsKept_readCells _ u) (.refl u)
    exact hread.trans (rel_ite ((ringsKept_stopoutConsumes d _).trans (ringsKept_placeDrive d 1 code true _))
      (ringsKept_placeDrive d _ code true _))) s
  exact hplaced.trans ((ringsKept_setOp placed .safe).trans (ringsKept_pairsAlone (settlePairs_alone _)))

theorem ringsKept_handoverReact (code : Nat) (s : State) : RingsKept s (handoverReact code s) := by
  unfold handoverReact
  have h := ringsKept_enterSafe [] 1 code s
  generalize enterSafe [] 1 code s = u at h ⊢
  exact h.trans (ringsKept_of_rings rfl)

theorem ringsKept_classD {s u : State} (h : RingsKept s u) :
    RingsKept s { u with so := { u.so with classD := true, ownN := false } } := h.trans (ringsKept_of_rings rfl)

theorem ringsKept_applyReaction (r : Reaction) (code i : Nat) (s : State) : RingsKept s (applyReaction r code i s) := by
  unfold applyReaction
  extract_lets latched safe marked so
  have hlatched : RingsKept s latched := by
    unfold latched
    cases r.latch with
    | none => exact .refl s
    | some ro => exact ringsKept_setLatch s code i ro
  refine rel_ite (.refl s) (hlatched.trans (rel_ite (ringsKept_handoverReact code latched) ?_))
  cases r.react with
  | n => exact .refl latched
  | t => exact forUpTo_rel RingsKept.refl RingsKept.trans (fun d _ u => rel_ite (ringsKept_updDrive u d _) (.refl u)) latched
  | p => exact ringsKept_enterSafe [] 1 code latched
  | s ds => exact ringsKept_enterSafe ds 2 code latched
  | d =>
    have hsafe : RingsKept latched safe := ringsKept_enterSafe [] 1 code latched
    have hmarked : RingsKept safe marked :=
      forUpTo_rel RingsKept.refl RingsKept.trans (fun d _ v => rel_ite (ringsKept_updDrive v d _) (.refl v)) safe
    exact ringsKept_classD (hsafe.trans hmarked)

theorem ringsKept_raiseWith (s : State) (r : Reaction) (code i : Nat) (args : List Word) : RingsKept s (raiseWith s r code i args) :=
  (ringsKept_record s code i args).trans (ringsKept_applyReaction r code i _)

/-! The sends of a ring head. -/

theorem sendSafe_sends {r : Nat} (hr : r < 16) (nib : Nat) (s : State) :
    FrameSent r (flatFrame s r .safe nib (sendTick s + frameLead (ringNodes s r))) s (sendSafe r nib s) := by
  unfold sendSafe
  extract_lets apply bled
  have hbled : FrameSent r (flatFrame s r .safe nib apply) s bled := .before hr (sendFrame_sends hr _ s) (lane_noteBleed r r apply nib _)
  split
  next d _ => exact .before hr hbled (lane_stringDischarge r d bled)
  next => exact hbled

theorem sendNormal_sends {r : Nat} (hr : r < 16) (g : DownFrame) (s : State) : ∃ f, FrameSent r f s (sendNormal r g s) ∧
    f.apply = g.apply ∧ f.mod = g.mod ∧ f.states.length = g.states.length ∧
    (∀ p, g.states.getD p 0 ≠ 16 → f.states.getD p 0 = g.states.getD p 0) ∧ ((sendNormal r g s).ring r).next = none := by
  unfold sendNormal
  extract_lets sq states old missed sent counted
  have hsent : FrameSent r { g with states := states, mgmt := mgmtRequest missed r } s sent :=
    .after hr (lane_mgmtMissing r s) (sendFrame_sends hr _ missed)
  have hcounted : RingLane r sent counted := rel_ite (.refl r sent) (lane_parCount sent (by omega) (by unfold LanePar; omega) _)
  refine ⟨_, (hsent.before hr hcounted).before hr (.upd counted fun _ => ⟨rfl, rfl, rfl⟩), rfl, rfl, List.length_map .., fun p hp => ?_, ?_⟩
  · change states.getD p 0 = _
    unfold states
    rw [List.getD_eq_getElem?_getD, List.getD_eq_getElem?_getD, List.getElem?_map]
    rw [List.getD_eq_getElem?_getD] at hp
    cases hg : g.states[p]? with
    | none => rfl
    | some n => exact if_neg (by simpa [hg] using hp)
  · rw [ring_updRing, if_pos rfl]

/-- What a REPEAT frame is made of: the last frame of the ring, with a new apply time and no fine edge. -/
def repeatOf (a : Nat) (g : DownFrame) : DownFrame :=
  { g with ftype := .repeated, tlmKind := 0, apply := a, mod := none, duty := 0, mgmt := none, enumData := [] }

theorem ringPeriodNumber_congr {s t : State} {r : Nat} (htb : ringTimebase t r = ringTimebase s r)
    (hpar : ∀ i, i < 65536 → parGet t 5 i = parGet s 5 i) : ringPeriodNumber t r = ringPeriodNumber s r := by
  unfold ringPeriodNumber
  rw [htb]
  cases h : ringTimebase s r with
  | none => rfl
  | some b =>
    have hb : b < 4 := by
      unfold ringTimebase at h
      obtain ⟨d, -, rfl⟩ := Option.map_eq_some_iff.1 h
      unfold driveTb field
      omega
    exact hpar _ (by omega)

/-- A REPEAT frame goes out, is counted and raised. -/
theorem sendRepeat_repeats {r : Nat} (hr : r < 16) (a : Nat) {g : DownFrame} {s : State} (hlast : (s.ring r).last = some g) :
    (∃ q h n, ((sendRepeat r a s).ring r).last = some { repeatOf a g with seq := q, group := h, send := n }) ∧
    parGet (sendRepeat r a s) 6 (0x105 + 16 * r) = counted (parGet s 6 (0x105 + 16 * r)) 1 ∧
    Raised s (sendRepeat r a s) 0x0601 r [ringPeriodNumber s r] ∧ (sendRepeat r a s).nv = s.nv ∧
    (sendRepeat r a s).mem.cells = s.mem.cells := by
  unfold sendRepeat
  rw [hlast]
  extract_lets f sent counted
  have hsent : FrameSent r (repeatOf a g) s sent := by
    refine FrameSent.after hr ?_ (sendFrame_sends hr f _)
    exact .upd s fun _ => ⟨rfl, rfl, rfl⟩
  clear_value sent
  have hlate : ∃ late, FrameSent r (repeatOf a g) s late ∧ counted = parCount late 6 (0x105 + 16 * r) 1 := by
    refine ⟨_, hsent.before hr ?_, rfl⟩
    exact .upd sent fun _ => ⟨rfl, rfl, rfl⟩
  clear_value counted
  clear hsent sent
  obtain ⟨late, hsent, rfl⟩ := hlate
  have hnum : ringPeriodNumber (parCount late 6 (0x105 + 16 * r) 1) r = ringPeriodNumber s r :=
    ringPeriodNumber_congr (hsent.timebase r) fun i hi => (parGet_parSet_ne (by omega) hi (by omega) _).trans
      (hsent.work.par 5 i ⟨⟨hi, .inl rfl⟩, fun h => absurd h.1 (by decide)⟩)
  have hcount : parGet (parCount late 6 (0x105 + 16 * r) 1) 6 (0x105 + 16 * r) = counted (parGet s 6 (0x105 + 16 * r)) 1 := by
    rw [parGet_parCount_self, hsent.work.par 6 _ ⟨lanePar_count hr (k := 5) (by decide), by omega⟩]
  obtain ⟨h, hl⟩ := hsent.last
  have hown : ((parCount late 6 (0x105 + 16 * r) 1).ring r).last = (late.ring r).last := rfl
  have hwork : RingWork (BesidesSent r) s { parCount late 6 (0x105 + 16 * r) 1 with par := s.par } :=
    ⟨hsent.work.now, hsent.work.tim, hsent.work.plate, hsent.work.nv, hsent.work.cells, fun _ _ _ => rfl, hsent.work.grow⟩
  rw [hnum]
  generalize parCount late 6 (0x105 + 16 * r) 1 = counted at *
  generalize (if 3 ≤ (counted.ring r).lateRun then reactPC true else noReact) = R
  have hev : EvStep counted (raiseWith counted R 0x0601 r [ringPeriodNumber s r]) := ev_raiseWith (.refl _)
  have hreact : EvStep (record counted 0x0601 r [ringPeriodNumber s r]) (raiseWith counted R 0x0601 r [ringPeriodNumber s r]) :=
    ev_applyReaction (.refl _)
  refine ⟨⟨_, h, _, (((ringsKept_raiseWith counted R 0x0601 r _) r).last.trans hown).trans hl⟩,
    (parGet_of_evStep hev (by omega) (by decide) (by decide)).trans hcount,
    raised_of (raised_after (record_raises counted _ _ _) (by decide) hreact) hwork.now (congrArg Timing.timeValid hwork.tim),
    hev.nv.trans hwork.nv, hev.mem_cells.trans hwork.cells⟩

section Head
variable {s : State} {r : Nat} (hsends : ringSends s r = true) (hhead : headOf s r = true) (hpass : (s.ring r).pass = none)

include hsends in
theorem ringSends_low : r < 16 := by
  have hpresent : ringPresent s r = true := by
    unfold ringSends at hsends
    simp only [Bool.and_eq_true] at hsends
    exact hsends.1.1.1.1.1
  have := ringCount_le s.part
  have hr : r < ringCount s.part := by simpa [ringPresent] using hpresent
  omega

include hsends in
theorem ringSends_awake : s.op ≠ .shutdown := by
  unfold ringSends ringsAwake at hsends
  intro hop
  rw [hop] at hsends
  simp at hsends

include hsends hhead hpass

/-- A SAFE frame of one nibble goes out. -/
theorem frameSend_safe (hdue : (s.ring r).safeDue = false) {nib : Nat} (hnib : safeNibble s r = some nib) (hframe : frameDue s r .safe = true) :
    ∃ t f, exec (.frameSend r) s = .next t ∧ (t.ring r).last = some f ∧
      f.ftype = .safe ∧ f.seq = ((s.ring r).seq + 1) % 65536 ∧ f.send = sendTick s ∧ f.states = List.replicate (ringNodes s r) nib ∧
      parGet t 6 (0x104 + 16 * r) = parGet s 6 (0x104 + 16 * r) + 1 ∧ (∀ q, q ≠ r → t.ring q = s.ring q) ∧
      t.plate = s.plate ∧ t.nv = s.nv ∧ t.mem.cells = s.mem.cells := by
  have hr := ringSends_low hsends
  have hexec : exec (.frameSend r) s = .next (farContent r (sendSafe r nib s)) := by
    refine congrArg Host.Outcome.next ?_
    rw [hpass]
    refine (if_neg (by simp [hsends])).trans ((if_neg (by simp [hhead])).trans ((if_neg (by simp [hdue])).trans ?_))
    rw [hnib]
    exact if_pos hframe
  have hsent := (sendSafe_sends hr nib s).before hr (lane_farContent r _)
  obtain ⟨g, hlast⟩ := hsent.last
  exact ⟨_, _, hexec, hlast, rfl, rfl, rfl, rfl, hsent.count, hsent.others, hsent.work.plate, hsent.work.nv, hsent.work.cells⟩

/-- An IDLE frame goes out. -/
theorem frameSend_idle (hdue : (s.ring r).safeDue = false) (hnib : safeNibble s r = none) (hruns : ringDriveRuns s r = false)
    (hframe : frameDue s r .idle = true) : ∃ t f, exec (.frameSend r) s = .next t ∧
      (t.ring r).last = some f ∧ f.ftype = .idle ∧ f.seq = ((s.ring r).seq + 1) % 65536 ∧ f.send = sendTick s ∧
      f.states = List.replicate (ringNodes s r) 0 ∧ (∀ q, q ≠ r → t.ring q = s.ring q) ∧ t.nv = s.nv ∧ t.mem.cells = s.mem.cells := by
  have hr := ringSends_low hsends
  have hmiss := lane_mgmtMissing r s
  have hexec : exec (.frameSend r) s = .next (farContent r (sendFrame r { flatFrame (mgmtMissing r s) r .idle 0
      (sendTick (mgmtMissing r s) + frameLead (ringNodes (mgmtMissing r s) r)) with mgmt := mgmtRequest (mgmtMissing r s) r } (mgmtMissing r s))) := by
    refine congrArg Host.Outcome.next ?_
    rw [hpass]
    refine (if_neg (by simp [hsends])).trans ((if_neg (by simp [hhead])).trans ((if_neg (by simp [hdue])).trans ?_))
    rw [hnib]
    exact (if_neg (by simp [hruns])).trans (if_neg (by simp [hframe]))
  have hnodes : ringNodes (mgmtMissing r s) r = ringNodes s r :=
    congrArg (fun w => field w 24 16) (hmiss.work.par 6 (0x100 + 16 * r) (lanePar_count hr (k := 0) (by decide)))
  rw [hnodes] at hexec
  generalize mgmtMissing r s = u at *
  have hsent := ((sendFrame_sends hr { flatFrame u r .idle 0 (sendTick u + frameLead (ringNodes s r)) with mgmt := mgmtRequest u r } u).after hr
    hmiss).before hr (lane_farContent r _)
  obtain ⟨g, hlast⟩ := hsent.last
  exact ⟨_, _, hexec, hlast, rfl, rfl, rfl, congrArg (List.replicate · 0) hnodes, hsent.others, hsent.work.nv, hsent.work.cells⟩

/-- The NORMAL frame of a running drive that waits in time goes out, its bypassed positions with the bypass nibble. -/
theorem frameSend_normal {g : DownFrame} (hdue : (s.ring r).safeDue = false) (hnib : safeNibble s r = none) (hruns : ringDriveRuns s r = true)
    (hnext : (s.ring r).next = some g) (hframe : frameDue s r .normal = true) (htime : inTime s r g.apply = true) : ∃ t f,
      exec (.frameSend r) s = .next t ∧ (t.ring r).last = some f ∧ f.seq = ((s.ring r).seq + 1) % 65536 ∧
      f.send = sendTick s ∧ f.apply = g.apply ∧ f.mod = g.mod ∧ f.states.length = g.states.length ∧
      (∀ p, g.states.getD p 0 ≠ 16 → f.states.getD p 0 = g.states.getD p 0) ∧ (t.ring r).next = none ∧
      parGet t 6 (0x104 + 16 * r) = parGet s 6 (0x104 + 16 * r) + 1 ∧ (∀ q, q ≠ r → t.ring q = s.ring q) ∧
      t.plate = s.plate ∧ t.nv = s.nv ∧ t.mem.cells = s.mem.cells := by
  have hr := ringSends_low hsends
  have hexec : exec (.frameSend r) s = .next (sendNormal r g s) := by
    refine congrArg Host.Outcome.next ?_
    rw [hpass]
    refine (if_neg (by simp [hsends])).trans ((if_neg (by simp [hhead])).trans ((if_neg (by simp [hdue])).trans ?_))
    rw [hnib]
    refine (if_pos hruns).trans ?_
    rw [hnext]
    exact if_pos ⟨hframe, htime⟩
  obtain ⟨f, hsent, happly, hmod, hlen, hstates, hnone⟩ := sendNormal_sends hr g s
  obtain ⟨h, hlast⟩ := hsent.last
  exact ⟨_, _, hexec, hlast, rfl, rfl, happly, hmod, hlen, hstates, hnone, hsent.count, hsent.others, hsent.work.plate, hsent.work.nv, hsent.work.cells⟩

/-- A frame past its latest send time is replaced by a REPEAT frame. -/
theorem frameLate_repeats {g : DownFrame} {a : Nat} (hdue : (s.ring r).safeDue = false) (hnib : safeNibble s r = none)
    (hruns : ringDriveRuns s r = true) (hmissed : missedApply s r = some a) (hho : s.marg.hoDue = false) (hlast : (s.ring r).last = some g) :
    ∃ t f, exec (.frameLate r) s = .next t ∧ (t.ring r).last = some f ∧
      f.ftype = .repeated ∧ f.states = g.states ∧ f.mod = none ∧ f.apply = a ∧
      parGet t 6 (0x105 + 16 * r) = counted (parGet s 6 (0x105 + 16 * r)) 1 ∧
      Raised s t 0x0601 r [ringPeriodNumber s r] ∧ t.nv = s.nv ∧ t.mem.cells = s.mem.cells := by
  have hr := ringSends_low hsends
  have hstring : stringRuns s r = true := (if_pos hhead).trans hruns
  have hexec : exec (.frameLate r) s = .next (farContent r (sendRepeat r a s)) := by
    refine congrArg Host.Outcome.next ((if_neg (by simp [hsends, hpass, hstring])).trans ?_)
    rw [hmissed]
    exact (if_neg (by simp [hhead])).trans (if_neg (by simp [hdue, hnib, hho]))
  obtain ⟨⟨q, h, n, hl⟩, hcount, hraised, hnv, hcells⟩ := sendRepeat_repeats hr a hlast
  generalize sendRepeat r a s = u at *
  have hfar := lane_farContent r u
  exact ⟨_, _, hexec, hfar.last.trans hl, rfl, rfl, rfl, rfl, (hfar.work.par _ _ (lanePar_count hr (k := 5) (by decide))).trans hcount,
    hfar.work.grow _ hraised (show (0x0601 : Nat) ≠ 0x0902 by decide), hfar.work.nv.trans hnv, hfar.work.cells.trans hcells⟩

omit hpass in
/-- The first safe frame of an order leaves as soon as the lane is free. -/
theorem safeFrame_sends {nib : Nat} (hpass : (s.ring r).pass = none) (hdue : (s.ring r).safeDue = true) (hnib : safeNibble s r = some nib)
    (hfree : downLaneFree s r = true) : ∃ t f, exec (.safeFrame r) s = .next t ∧ (t.ring r).last = some f ∧ f.ftype = .safe ∧
      f.states = List.replicate (ringNodes s r) nib ∧ (t.ring r).safeDue = false ∧ (∀ q, q ≠ r → t.ring q = s.ring q) ∧ t.nv = s.nv ∧
      t.mem.cells = s.mem.cells := by
  have hr := ringSends_low hsends
  have hring (q : Nat) := ring_updRing s r q fun g => { g with safeDue := false }
  have hexec : exec (.safeFrame r) s = .next (farContent r (sendSafe r nib (s.updRing r fun g => { g with safeDue := false }))) := by
    refine congrArg Host.Outcome.next ((if_neg (by simp [hsends, hhead, hdue, hpass, hfree])).trans ?_)
    have hnib' : safeNibble (s.updRing r fun g => { g with safeDue := false }) r = some nib := hnib
    dsimp only
    rw [hnib']
  have hsent := (sendSafe_sends hr nib (s.updRing r fun g => { g with safeDue := false })).before hr (lane_farContent r _)
  obtain ⟨h, hlast⟩ := hsent.last
  refine ⟨_, _, hexec, hlast, rfl, rfl, hsent.safeDue.trans ?_, fun q hq => (hsent.others q hq).trans ((hring q).trans (if_neg hq)),
    hsent.work.nv, hsent.work.cells⟩
  rw [hring, if_pos rfl]

end Head

end Sys2Proof.Proofs
end

section
/-!
PROOFS. O43, third part: the return frames of a ring and their fold into the directory (R262 to R271), and the string cycle (R18, R274
to R288).
-/
namespace Sys2Proof.Proofs
open Sys2Proof.Machine Sys2Proof.Safety Sys2Proof.Laws

/-! The fold of a return. -/

/-- From `s` to `t` the work of a fold, which leaves the tags, the replies, and of each ring its queue and its far-end service. -/
structure Folded (s t : State) : Prop where
  work : RingWork LanePar s t
  tags : t.folio.tags = s.folio.tags
  replies : t.folio.replies = s.folio.replies
  rings : RingsKept s t

theorem Folded.refl (s : State) : Folded s s := ⟨.refl s, rfl, rfl, .refl s⟩

theorem Folded.trans {s t u : State} (h : Folded s t) (k : Folded t u) : Folded s u :=
  ⟨h.work.trans k.work, k.tags.trans h.tags, k.replies.trans h.replies, h.rings.trans k.rings⟩

theorem Folded.ev {s t : State} (h : EvStep s t) (hrings : RingsKept s t) : Folded s t := ⟨.ev h, h.folio_tags, h.folio_replies, hrings⟩

/-- A fold that leaves the status and the telemetry of directory entry `d`. -/
structure FoldsBeside (d : Nat) (s t : State) : Prop where
  folded : Folded s t
  status : (t.entry d).status = (s.entry d).status
  tlm : (t.entry d).tlm = (s.entry d).tlm
  tick : (t.entry d).tlmTick = (s.entry d).tlmTick

theorem FoldsBeside.refl (d : Nat) (s : State) : FoldsBeside d s s := ⟨.refl s, rfl, rfl, rfl⟩

theorem FoldsBeside.trans {d : Nat} {s t u : State} (h : FoldsBeside d s t) (k : FoldsBeside d t u) : FoldsBeside d s u :=
  ⟨h.folded.trans k.folded, k.status.trans h.status, k.tlm.trans h.tlm, k.tick.trans h.tick⟩

theorem FoldsBeside.ev {d : Nat} {s t : State} (h : EvStep s t) (hrings : RingsKept s t) : FoldsBeside d s t := by
  have hentry : t.entry d = s.entry d := by
    obtain ⟨⟨_, _, _, _, _, _, _, _, _, _, _, _, _, _, _, _, _, _, _, heq⟩, _, _⟩ := h
    rw [heq]
    rfl
  exact ⟨.ev h hrings, by rw [hentry], by rw [hentry], by rw [hentry]⟩

theorem beside_updRing (d : Nat) (s : State) (r : Nat) {f : Machine.Ring → Machine.Ring}
    (hf : ∀ g, (f g).last = g.last ∧ (f g).mgmt = g.mgmt ∧ (f g).farAt = g.farAt) : FoldsBeside d s (s.updRing r f) :=
  ⟨⟨.updRing s r f, rfl, rfl, ringsKept_updRing s r hf⟩, rfl, rfl, rfl⟩

theorem folded_updEntry (s : State) (e : Nat) (f : DirEntry → DirEntry) : Folded s (s.updEntry e f) :=
  ⟨.updEntry s e f, rfl, rfl, ringsKept_of_rings rfl⟩

theorem beside_updEntry_ne {d e : Nat} (h : d ≠ e) (s : State) (f : DirEntry → DirEntry) : FoldsBeside d s (s.updEntry e f) := by
  have hentry := (entry_updEntry s e d f).trans (if_neg h)
  exact ⟨folded_updEntry s e f, by rw [hentry], by rw [hentry], by rw [hentry]⟩

theorem beside_updEntry (d : Nat) (s : State) (e : Nat) {f : DirEntry → DirEntry}
    (hf : ∀ x, (f x).status = x.status ∧ (f x).tlm = x.tlm ∧ (f x).tlmTick = x.tlmTick) : FoldsBeside d s (s.updEntry e f) := by
  by_cases h : d = e
  · subst h
    have hentry := (entry_updEntry s d d f).trans (if_pos rfl)
    obtain ⟨hstatus, htlm, htick⟩ := hf (s.entry d)
    exact ⟨folded_updEntry s d f, by rw [hentry, hstatus], by rw [hentry, htlm], by rw [hentry, htick]⟩
  · exact beside_updEntry_ne h s f

theorem beside_parCount {u i : Nat} (hi : i < 65536) (h : ¬ LanePar u i) (d : Nat) (s : State) (n : Nat) : FoldsBeside d s (parCount s u i n) :=
  ⟨⟨lane_parSet hi h _, rfl, rfl, ringsKept_of_rings rfl⟩, rfl, rfl, rfl⟩

theorem beside_record (d : Nat) (s : State) (code i : Nat) (args : List Word) : FoldsBeside d s (record s code i args) :=
  .ev (ev_record (.refl s)) (ringsKept_record s code i args)

theorem beside_raiseWith (d : Nat) (s : State) (R : Reaction) (code i : Nat) (args : List Word) : FoldsBeside d s (raiseWith s R code i args) :=
  .ev (ev_raiseWith (.refl s)) (ringsKept_raiseWith s R code i args)

theorem beside_updDrive (d : Nat) (s : State) (v : Nat) (f : Drive → Drive) : FoldsBeside d s (s.updDrive v f) :=
  .ev (ev_updDrive (.refl s)) (ringsKept_updDrive s v f)

theorem beside_setMark (d : Nat) (s : State) (a : Nat) (m : Mark) : FoldsBeside d s (setMark s a m) :=
  .ev (ev_setMark (.refl s)) (ringsKept_of_rings rfl)

theorem beside_crcEvent (d r : Nat) (b : Bool) (s : State) : FoldsBeside d s (crcEvent r b s) := by
  unfold crcEvent
  extract_lets old due stamped
  have hstamped : FoldsBeside d s stamped := beside_updRing d s r fun g => by cases b <;> exact ⟨rfl, rfl, rfl⟩
  refine rel_ite (.refl d s) (hstamped.trans ?_)
  unfold recordUntested
  exact rel_ite (.refl d stamped) (beside_record d stamped _ _ _)

theorem beside_setExcl (d e v : Nat) (s : State) : FoldsBeside d s (setExcl e v s) := by
  unfold setExcl
  extract_lets excluded
  have hexcluded : FoldsBeside d s excluded := beside_updEntry d s e fun _ => ⟨rfl, rfl, rfl⟩
  exact hexcluded.trans (rel_ite (beside_record d excluded _ _ _) (.refl d excluded))

theorem beside_rejected {r : Nat} (hr : r < 16) (d : Nat) (s : State) : FoldsBeside d s (crcEvent r false (parCount s 6 (0x109 + 16 * r) 1)) :=
  (beside_parCount (by omega) (by unfold LanePar; omega) d s 1).trans (beside_crcEvent d r false _)

/-- The fold of a status nibble reaches its own entry, which then has it. -/
theorem foldNibble_folds {r : Nat} (hr : r < 16) (p nib : Nat) (cov : Bool) (s : State) :
    (∀ d, d ≠ dirIndex r p → FoldsBeside d s (foldNibble r p nib cov s)) ∧ Folded s (foldNibble r p nib cov s) ∧
    ((foldNibble r p nib cov s).entry (dirIndex r p)).status = nib := by
  unfold foldNibble
  extract_lets q e bad noted crc fault
  have hnoted := (entry_updEntry s (dirIndex r p) (dirIndex r p) fun e => { e with status := nib, badRun := if bad then e.badRun + 1 else 0 }).trans
    (if_pos rfl)
  have hne (d : Nat) (hd : d ≠ dirIndex r p) : FoldsBeside d s noted := beside_updEntry_ne hd s _
  have hcrc (d : Nat) : FoldsBeside d noted crc := rel_ite (beside_rejected hr d noted) (.refl d noted)
  have hfault (d : Nat) : FoldsBeside d crc fault := rel_ite ((beside_raiseWith d crc _ _ _ _).trans (beside_setExcl d _ 2 _)) (.refl d crc)
  have hend (d : Nat) : FoldsBeside d fault (if (fault.entry (dirIndex r p)).badRun = 4 then setExcl (dirIndex r p) 3
      (record fault 0x0605 (dirIndex r p) []) else fault) :=
    rel_ite ((beside_record d fault _ _ _).trans (beside_setExcl d _ 3 _)) (.refl d fault)
  have hrest (d : Nat) := ((hcrc d).trans (hfault d)).trans (hend d)
  exact ⟨fun d hd => (hne d hd).trans (hrest d), (folded_updEntry s _ _).trans (hrest 0).folded, (hrest _).status.trans (congrArg DirEntry.status hnoted)⟩

/-- The fold of a telemetry slot reaches its own entry: a valid one is kept there with its tick. -/
theorem foldSlot_folds (r p : Nat) (slot : Word) (at' : Nat) (s : State) :
    (∀ d, d ≠ dirIndex r p → FoldsBeside d s (foldSlot r p slot at' s)) ∧ Folded s (foldSlot r p slot at' s) ∧
    ((foldSlot r p slot at' s).entry (dirIndex r p)).status = (s.entry (dirIndex r p)).status ∧
    (wbit slot 7 = false → ((foldSlot r p slot at' s).entry (dirIndex r p)).tlm = slot ∧
      ((foldSlot r p slot at' s).entry (dirIndex r p)).tlmTick = at' % 2 ^ 32) := by
  unfold foldSlot
  extract_lets q marked bled
  split
  next h => exact ⟨fun d _ => .refl d s, .refl s, rfl, fun h0 => absurd (h.symm.trans h0) (by decide)⟩
  have hown := (entry_updEntry s (dirIndex r p) (dirIndex r p) fun e => { e with tlm := slot, tlmTick := at' % 2 ^ 32 }).trans (if_pos rfl)
  have hne (d : Nat) (hd : d ≠ dirIndex r p) : FoldsBeside d s marked := (beside_updEntry_ne hd s _).trans (beside_setMark d _ _ _)
  have hmarked : Folded s marked := (folded_updEntry s _ _).trans (beside_setMark 0 _ _ _).folded
  have hentry : marked.entry (dirIndex r p) = { s.entry (dirIndex r p) with tlm := slot, tlmTick := at' % 2 ^ 32 } := hown
  have hbled (d : Nat) : FoldsBeside d marked bled := by
    unfold bled
    split
    next => split
            next => exact rel_ite (beside_updDrive d marked _ _) (.refl d marked)
            next => exact .refl d marked
    next => exact .refl d marked
  clear_value bled marked
  have hrest (d : Nat) : FoldsBeside d marked (if field slot 31 16 = 0xFFFF ∨ wbit slot 4 = true then bled else bled.updEntry (dirIndex r p) fun e => { e with
      ledger := fFma (strPar bled r 0xA) (fSub (fDiv (nodeVolts e) (fOfNat e.cells)) (strPar bled r 0x11)) e.ledger }) :=
    (hbled d).trans (rel_ite (.refl d bled) (beside_updEntry d bled _ fun _ => ⟨rfl, rfl, rfl⟩))
  exact ⟨fun d hd => (hne d hd).trans (hrest d), hmarked.trans (hrest 0).folded, (hrest _).status.trans (by rw [hentry]),
    fun _ => ⟨(hrest _).tlm.trans (congrArg DirEntry.tlm hentry), (hrest _).tick.trans (congrArg DirEntry.tlmTick hentry)⟩⟩

theorem beside_stringDischarge (d v : Nat) (s : State) : FoldsBeside d s (stringDischarge v s) := by
  obtain h | ⟨ts, w, -, h⟩ := stringDischarge_cases v s <;> rw [h]
  · exact .refl d s
  · have hbled : FoldsBeside d s (bledOut v s) := by
      unfold bledOut
      exact beside_updDrive d s v _
    exact hbled.trans (beside_record d _ _ _ _)

/-- The nibble of position `p` of a return, folded. -/
def nibbleFolded (r : Nat) (f : RetFrame) (p : Nat) (s : State) : State :=
  let cov := reached s r f.hops p f.far
  if (f.far ∨ (s.ring r).farAt ≠ none) ∧ !cov then s else foldNibble r p (f.status.getD p 0xF) cov s

/-- Slot `j` of a return, folded. -/
def slotFolded (r n : Nat) (f : RetFrame) (at' j : Nat) (s : State) : State :=
  let p := 32 * f.tlmGroup + j
  if f.tlmKind = 0 ∧ p < n ∧ (!f.far ∨ reached s r f.hops p f.far) then foldSlot r p (f.slots.getD j 0xFFFFFFFF) at' s else s

theorem beside_nibbleFolded {r p d : Nat} (hr : r < 16) (f : RetFrame) (hd : d ≠ dirIndex r p) (s : State) : FoldsBeside d s (nibbleFolded r f p s) :=
  rel_ite (.refl d s) ((foldNibble_folds hr p _ _ s).1 d hd)

theorem folded_nibbleFolded {r : Nat} (hr : r < 16) (f : RetFrame) (p : Nat) (s : State) : Folded s (nibbleFolded r f p s) :=
  rel_ite (.refl s) (foldNibble_folds hr p _ _ s).2.1

theorem nibbleFolded_status {r : Nat} (hr : r < 16) {f : RetFrame} (hnear : f.far = false) {s : State} (hfar : (s.ring r).farAt = none) (p : Nat) :
    ((nibbleFolded r f p s).entry (dirIndex r p)).status = f.status.getD p 0xF := by
  unfold nibbleFolded
  dsimp only
  rw [if_neg (by simp [hnear, hfar])]
  exact (foldNibble_folds hr p _ _ s).2.2

theorem beside_slotFolded {r n j d : Nat} (f : RetFrame) (at' : Nat) (hd : d ≠ dirIndex r (32 * f.tlmGroup + j)) (s : State) :
    FoldsBeside d s (slotFolded r n f at' j s) :=
  rel_ite ((foldSlot_folds r _ _ at' s).1 d hd) (.refl d s)

theorem folded_slotFolded (r n : Nat) (f : RetFrame) (at' j : Nat) (s : State) : Folded s (slotFolded r n f at' j s) ∧
    ∀ d, ((slotFolded r n f at' j s).entry d).status = (s.entry d).status := by
  refine rel_ite (R := fun s t => Folded s t ∧ ∀ d, (t.entry d).status = (s.entry d).status) ?_ ⟨.refl s, fun _ => rfl⟩
  obtain ⟨hne, hf, hstatus, -⟩ := foldSlot_folds r (32 * f.tlmGroup + j) (f.slots.getD j 0xFFFFFFFF) at' s
  refine ⟨hf, fun d => ?_⟩
  by_cases hd : d = dirIndex r (32 * f.tlmGroup + j)
  · rw [hd, hstatus]
  · exact (hne d hd).status

/-- The end of a fold, after nibbles and slots. -/
def foldEnd (r : Nat) (f : RetFrame) (s : State) : State :=
  let s := if f.tlmKind = 0 ∧ f.tlmGroup + 1 = ringGroups s r ∧ (!f.far ∨ (s.ring r).lastReached = 0x1FF) then
      s.updRing r fun g => { g with normDue := true }
    else s
  match ringDrive s r with
  | some d => stringDischarge d s
  | none => s

theorem foldReturn_eq (r : Nat) (f : RetFrame) (at' : Nat) (s : State) : foldReturn r f at' s =
    foldEnd r f (forUpTo 32 (slotFolded r (ringNodes s r) f at') (forUpTo (ringNodes s r) (nibbleFolded r f) s)) := rfl

theorem beside_foldEnd (d r : Nat) (f : RetFrame) (s : State) : FoldsBeside d s (foldEnd r f s) := by
  unfold foldEnd
  extract_lets due
  have hdue : FoldsBeside d s due := rel_ite (beside_updRing d s r fun _ => ⟨rfl, rfl, rfl⟩) (.refl d s)
  split
  next v _ => exact hdue.trans (beside_stringDischarge d v due)
  next => exact hdue

/-- A return of this end, on a ring that it serves alone, gives every position its nibble, and the slots of its group to their entries. -/
theorem foldReturn_folds {r : Nat} (hr : r < 16) (f : RetFrame) (at' : Nat) (s : State) : Folded s (foldReturn r f at' s) ∧
    (f.far = false → (s.ring r).farAt = none → ∀ p, p < ringNodes s r →
      ((foldReturn r f at' s).entry (dirIndex r p)).status = f.status.getD p 0xF) ∧
    (f.far = false → f.tlmKind = 0 → ∀ j, j < 32 → 32 * f.tlmGroup + j < ringNodes s r → wbit (f.slots.getD j 0xFFFFFFFF) 7 = false →
      ((foldReturn r f at' s).entry (dirIndex r (32 * f.tlmGroup + j))).tlm = f.slots.getD j 0xFFFFFFFF ∧
      ((foldReturn r f at' s).entry (dirIndex r (32 * f.tlmGroup + j))).tlmTick = at' % 2 ^ 32) := by
  rw [foldReturn_eq]
  have hnib : Folded s (forUpTo (ringNodes s r) (nibbleFolded r f) s) :=
    forUpTo_rel (R := Folded) .refl .trans (fun p _ u => folded_nibbleFolded hr f p u) s
  have hslot (u : State) := forUpTo_rel (R := fun s t => Folded s t ∧ ∀ d, (t.entry d).status = (s.entry d).status)
    (fun s => ⟨.refl s, fun _ => rfl⟩) (fun h k => ⟨h.1.trans k.1, fun d => (k.2 d).trans (h.2 d)⟩) (n := 32)
    (fun j _ u => folded_slotFolded r (ringNodes s r) f at' j u) u
  have hend (d : Nat) (u : State) := beside_foldEnd d r f u
  refine ⟨(hnib.trans (hslot _).1).trans (hend 0 _).folded, fun hnear hfar p hp => ?_, fun hnear hkind j hj hn hvalid => ?_⟩
  · rw [(hend _ _).status, (hslot _).2]
    have hsplit := forUpTo_split (R := FoldsBeside (dirIndex r p)) (c := p) (FoldsBeside.refl _) FoldsBeside.trans
      (f := nibbleFolded r f) (fun k hk u => beside_nibbleFolded hr f (fun h => hk (dirIndex_inj h.symm)) u) (ringNodes s r) s
    rw [if_pos hp] at hsplit
    obtain ⟨u, hbefore, hafter⟩ := hsplit
    rw [hafter.status]
    exact nibbleFolded_status hr hnear ((hbefore.folded.rings r).farAt.trans hfar) p
  · generalize forUpTo (ringNodes s r) (nibbleFolded r f) s = v
    have hsplit := forUpTo_split (R := FoldsBeside (dirIndex r (32 * f.tlmGroup + j))) (c := j) (FoldsBeside.refl _) FoldsBeside.trans
      (f := slotFolded r (ringNodes s r) f at') (fun k hk u => beside_slotFolded f at' (fun h => hk (by have := dirIndex_inj h; omega)) u) 32 v
    rw [if_pos hj] at hsplit
    obtain ⟨u, -, hafter⟩ := hsplit
    have hown : slotFolded r (ringNodes s r) f at' j u = foldSlot r (32 * f.tlmGroup + j) (f.slots.getD j 0xFFFFFFFF) at' u :=
      if_pos ⟨hkind, hn, .inl (by rw [hnear]; rfl)⟩
    obtain ⟨htlm, htick⟩ := (foldSlot_folds r (32 * f.tlmGroup + j) (f.slots.getD j 0xFFFFFFFF) at' u).2.2.2 hvalid
    rw [hown] at hafter
    exact ⟨(hend _ _).tlm.trans (hafter.tlm.trans htlm), (hend _ _).tick.trans (hafter.tick.trans htick)⟩

/-! RETURN_FRAME. -/

/-- A ring whose queue, far-end service and late fold are as they were, unless the service has ended. -/
structure RingReads (g g' : Machine.Ring) : Prop where
  mgmt : g'.mgmt = g.mgmt
  lateFold : g'.lateFold = g.lateFold
  farAt : g.farAt = none → g'.farAt = none

theorem RingReads.trans {a b c : Machine.Ring} (h : RingReads a b) (k : RingReads b c) : RingReads a c :=
  ⟨k.mgmt.trans h.mgmt, k.lateFold.trans h.lateFold, fun hf => k.farAt (h.farAt hf)⟩

theorem reads_updRing (s : State) (r : Nat) {f : Machine.Ring → Machine.Ring} (hf : ∀ g, RingReads g (f g)) :
    RingReads (s.ring r) ((s.updRing r f).ring r) := by
  rw [ring_updRing, if_pos rfl]
  exact hf _

/-- A full return restores at most the ring and its exclusions. -/
theorem foldHops_full {r : Nat} {f : RetFrame} {s : State} (h : ringNodes s r ≤ f.hops) : (∃ S, foldHops r f s = { s with stip := S }) ∧
    RingReads (s.ring r) ((foldHops r f s).ring r) := by
  unfold foldHops
  extract_lets n run short bad full skip whole
  rw [if_neg (by omega)]
  have hreads : RingReads (s.ring r) (full.ring r) := reads_updRing s r fun _ => ⟨rfl, rfl, id⟩
  have hstip : ∃ S, full = { s with stip := S } := ⟨_, rfl⟩
  clear_value full
  split
  · have hwhole : RingReads (full.ring r) (whole.ring r) := reads_updRing full r fun _ => ⟨rfl, rfl, fun _ => rfl⟩
    have hentries := forEach_rel (R := fun s t => (∃ S, t = ({ s with stip := S } : State)) ∧ t.stip.rings = s.stip.rings) (fun _ => ⟨⟨_, rfl⟩, rfl⟩)
      (by rintro s t u ⟨⟨S, rfl⟩, h⟩ ⟨⟨S', rfl⟩, k⟩; exact ⟨⟨S', rfl⟩, k.trans h⟩)
      (f := fun p s => s.updEntry (dirIndex r p) fun e => { e with excl := 0 }) (fun _ _ => ⟨⟨_, rfl⟩, rfl⟩)
      (below n fun p => decide ((whole.entry (dirIndex r p)).excl = 4) && !skip.contains p) whole
    generalize forEach _ _ whole = u at hentries ⊢
    obtain ⟨⟨S, hS⟩, hrings⟩ := hentries
    have hown : u.ring r = whole.ring r := congrArg (fun R => tblGet R ({} : Machine.Ring) r) hrings
    obtain ⟨S', rfl⟩ := hstip
    exact ⟨⟨S, hS⟩, by rw [hown]; exact hreads.trans hwhole⟩
  · exact ⟨hstip, hreads⟩

/-- The reply field of a return changes the queue of its ring, and what completes a command. -/
theorem mgmtReply_frame (r : Nat) (f : RetFrame) (s : State) : (∃ S F M, mgmtReply r f s = { s with stip := S, folio := F, marg := M }) ∧
    ((mgmtReply r f s).ring r).lateFold = (s.ring r).lateFold ∧ ((mgmtReply r f s).ring r).farAt = (s.ring r).farAt := by
  have hupd (l : List Mgmt) : ((s.updRing r fun g => { g with mgmt := l }).ring r).lateFold = (s.ring r).lateFold ∧
      ((s.updRing r fun g => { g with mgmt := l }).ring r).farAt = (s.ring r).farAt := by
    rw [ring_updRing, if_pos rfl]
    exact ⟨rfl, rfl⟩
  have hdone (c : Nat) (data : BitVec 64) : (∃ S F M, mgmtComplete r c data s = { s with stip := S, folio := F, marg := M }) ∧
      ((mgmtComplete r c data s).ring r).lateFold = (s.ring r).lateFold ∧ ((mgmtComplete r c data s).ring r).farAt = (s.ring r).farAt := by
    obtain h | ⟨m, rest, ws, -, h⟩ := mgmtComplete_cases r c data s <;> rw [h]
    · exact ⟨⟨_, _, _, rfl⟩, rfl, rfl⟩
    · obtain ⟨F, M, hk⟩ := completeTag_keeps m.tag stOk ws (s.updRing r fun g => { g with mgmt := rest })
      rw [hk]
      exact ⟨⟨_, _, _, rfl⟩, hupd rest⟩
  unfold mgmtReply
  split
  next m rest hm =>
    split
    next => exact ⟨⟨_, _, _, rfl⟩, rfl, rfl⟩
    split
    next => exact hdone _ _
    unfold mgmtFail
    split
    next => exact ⟨⟨_, _, _, rfl⟩, rfl, rfl⟩
    split
    next => exact hdone _ _
    next => exact ⟨⟨_, _, _, rfl⟩, hupd _⟩
  next => exact ⟨⟨_, _, _, rfl⟩, rfl, rfl⟩

/-- The reply of the transaction at the front completes it. -/
theorem mgmtReply_completes {r : Nat} {f : RetFrame} {s : State} {m : Mgmt} {rest : List Mgmt} {e : TagEntry} (hm : (s.ring r).mgmt = m :: rest)
    (hstage : m.stage = 2) (hlow : m.tag < 1024) (he : tagEntry s m.tag = some e) (hp : e.phase = .running) (h15 : f.rstatus ≠ 15)
    (h3 : f.rstatus ≠ 3) (htid : f.rtid = m.tid) (hpos : f.responder = m.pos) : ((mgmtReply r f s).ring r).mgmt = rest ∧
    Replied s (mgmtReply r f s) m.tag 0 (wrd (f.rstatus * 2 ^ 28 + (m.attempts - 1)) :: twoWords (if f.rstatus = 0 then f.rdata.toNat else 0)) := by
  have hreply : mgmtReply r f s = mgmtComplete r f.rstatus f.rdata s := by
    unfold mgmtReply
    rw [hm]
    exact (if_neg (not_not.2 hstage)).trans (if_pos ⟨h15, h3, htid, hpos⟩)
  have hdone : mgmtComplete r f.rstatus f.rdata s = completeTag m.tag stOk
      (wrd (f.rstatus * 2 ^ 28 + (m.attempts - 1)) :: twoWords (if f.rstatus = 0 then f.rdata.toNat else 0)) (s.updRing r fun g => { g with mgmt := rest }) := by
    unfold mgmtComplete
    rw [hm]
  rw [hreply, hdone]
  refine ⟨?_, (completeTag_replied (u := s.updRing r fun g => { g with mgmt := rest }) hlow he (by rw [hp]; decide) rfl rfl).2⟩
  obtain ⟨F, M, hk⟩ := completeTag_keeps m.tag stOk
    (wrd (f.rstatus * 2 ^ 28 + (m.attempts - 1)) :: twoWords (if f.rstatus = 0 then f.rdata.toNat else 0)) (s.updRing r fun g => { g with mgmt := rest })
  rw [hk]
  exact congrArg Machine.Ring.mgmt ((ring_updRing s r r fun g => { g with mgmt := rest }).trans (if_pos rfl))

section Return
variable {s : State} {r : Nat} (hsends : ringSends s r = true) (hhead : headOf s r = true) (hpass : (s.ring r).pass = none)

/-- A return has come to its ring. -/
def returnSeen (r : Nat) (s : State) : State := s.updRing r fun g => { g with returned := true, missRun := 0 }

include hsends in
theorem ringSends_present : ringPresent s r = true := by
  unfold ringSends at hsends
  simp only [Bool.and_eq_true] at hsends
  exact hsends.1.1.1.1.1

/-- What a bad return leaves once it is counted: the directory, the event, and that a return came. -/
theorem badReturn_leaves (r : Nat) (s : State) : (∃ R F M, badReturn r s = { s with stip := { s.stip with rings := R }, folio := F, marg := M }) ∧
    ((badReturn r s).ring r).returned = (s.ring r).returned ∧ ((badReturn r s).ring r).missRun = (s.ring r).missRun := by
  have hupd (u : State) (l : List Mgmt) : ((u.updRing r fun g => { g with mgmt := l }).ring r).returned = (u.ring r).returned ∧
      ((u.updRing r fun g => { g with mgmt := l }).ring r).missRun = (u.ring r).missRun := by
    rw [ring_updRing, if_pos rfl]
    exact ⟨rfl, rfl⟩
  unfold badReturn
  extract_lets ended
  have hended : ended.ring r = { s.ring r with fullRun := 0, badRing := [] } :=
    (ring_updRing s r r fun g => { g with fullRun := 0, badRing := [] }).trans (if_pos rfl)
  have hpart : ∃ R, ended = { s with stip := { s.stip with rings := R } } := ⟨_, rfl⟩
  have hret : (ended.ring r).returned = (s.ring r).returned ∧ (ended.ring r).missRun = (s.ring r).missRun := by
    rw [hended]
    exact ⟨rfl, rfl⟩
  clear_value ended
  obtain ⟨R, rfl⟩ := hpart
  split
  next m rest hm =>
    split
    next =>
      unfold mgmtFail
      split
      next => exact ⟨⟨R, _, _, rfl⟩, hret⟩
      split
      next =>
        obtain h | ⟨m, rest, ws, -, h⟩ := mgmtComplete_cases r 0xF 0 { s with stip := { s.stip with rings := R } } <;> rw [h]
        · exact ⟨⟨R, _, _, rfl⟩, hret⟩
        · obtain ⟨F, M, hk⟩ := completeTag_keeps m.tag stOk ws (({ s with stip := { s.stip with rings := R } } : State).updRing r fun g => { g with mgmt := rest })
          rw [hk]
          exact ⟨⟨_, _, _, rfl⟩, (hupd _ rest).1.trans hret.1, (hupd _ rest).2.trans hret.2⟩
      next => exact ⟨⟨_, _, _, rfl⟩, (hupd _ _).1.trans hret.1, (hupd _ _).2.trans hret.2⟩
    next => exact ⟨⟨R, _, _, rfl⟩, hret⟩
  next => exact ⟨⟨R, _, _, rfl⟩, hret⟩

include hsends

/-- A return with a bad CRC is counted, and raised when none has been. -/
theorem returnFrame_bad {bytes : List Nat} {rt : Nat} {l : DownFrame} (hlast : (s.ring r).last = some l)
    (hcrc : (readReturn (frameStates (ringNodes s r) l) rt false bytes).crcOk = false) : ∃ t, exec (.returnFrame r bytes rt) s = .next t ∧
      (t.ring r).returned = true ∧ (t.ring r).missRun = 0 ∧
      parGet t 6 (0x107 + 16 * r) = counted (parGet s 6 (0x107 + 16 * r)) 1 ∧ t.stip.dir = s.stip.dir ∧
      ((s.ring r).crcTick = none → Raised s t 0x0607 r [1]) := by
  have hr := ringSends_low hsends
  have hexec : exec (.returnFrame r bytes rt) s = .next (badReturn r (crcEvent r true (parCount (returnSeen r s) 6 (0x107 + 16 * r) 1))) := by
    refine congrArg Host.Outcome.next ?_
    rw [hlast]
    refine (if_neg (by simp [ringSends_present hsends])).trans ?_
    exact if_pos (by rw [hcrc]; rfl)
  have hseen : (returnSeen r s).ring r = { s.ring r with returned := true, missRun := 0 } :=
    (ring_updRing s r r fun g => { g with returned := true, missRun := 0 }).trans (if_pos rfl)
  have hcount : parGet (parCount (returnSeen r s) 6 (0x107 + 16 * r) 1) 6 (0x107 + 16 * r) = counted (parGet s 6 (0x107 + 16 * r)) 1 :=
    parGet_parCount_self _ 6 (0x107 + 16 * r) 1
  have hevent : ∃ u, crcEvent r true (parCount (returnSeen r s) 6 (0x107 + 16 * r) 1) = u ∧ (u.ring r).returned = true ∧ (u.ring r).missRun = 0 ∧
      parGet u 6 (0x107 + 16 * r) = counted (parGet s 6 (0x107 + 16 * r)) 1 ∧ u.stip.dir = s.stip.dir ∧
      ((s.ring r).crcTick = none → Raised s u 0x0607 r [1]) := by
    have hown : (parCount (returnSeen r s) 6 (0x107 + 16 * r) 1).ring r = { s.ring r with returned := true, missRun := 0 } := hseen
    have hsame : ∃ R P, parCount (returnSeen r s) 6 (0x107 + 16 * r) 1 = { s with stip := { s.stip with rings := R }, par := P } := ⟨_, _, rfl⟩
    generalize parCount (returnSeen r s) 6 (0x107 + 16 * r) 1 = v at *
    refine ⟨_, rfl, ?_⟩
    unfold crcEvent
    extract_lets old due stamped
    obtain ⟨R, P, rfl⟩ := hsame
    have hstamped : stamped.ring r = { s.ring r with returned := true, missRun := 0, crcTick := some s.now } :=
      (ring_updRing _ r r _).trans ((if_pos rfl).trans (by rw [hown]; rfl))
    split
    next hdue =>
      refine ⟨by rw [hown], by rw [hown], hcount, rfl, fun hnone => ?_⟩
      unfold due old at hdue
      rw [if_pos rfl, hown] at hdue
      simp [hnone] at hdue
    next =>
      have hrec : recordUntested stamped 0x0607 r [wrd (b2n true)] = record stamped 0x0607 r [1] :=
        if_neg (by
          have hawake := ringSends_awake hsends
          have hop : stamped.op ≠ .shutdown := hawake
          simp [underTest, hop])
      rw [hrec]
      have hstip := record_stip stamped 0x0607 r [1]
      have hring : (record stamped 0x0607 r [1]).ring r = stamped.ring r := congrArg (fun S : Stipple => tblGet S.rings ({} : Machine.Ring) r) hstip
      have hraised : Raised stamped (record stamped 0x0607 r [1]) 0x0607 r [1] := record_raises stamped _ _ _
      have hpar : parGet (record stamped 0x0607 r [1]) 6 (0x107 + 16 * r) = parGet stamped 6 (0x107 + 16 * r) :=
        parGet_of_evStep (ev_record (.refl stamped)) (by omega) (by decide) (by decide)
      have hdir : (record stamped 0x0607 r [1]).stip.dir = stamped.stip.dir := congrArg Stipple.dir hstip
      exact ⟨by rw [hring, hstamped], by rw [hring, hstamped], hpar.trans hcount, hdir, fun _ => hraised⟩
  obtain ⟨u, hu, hret, hmiss, hpar, hdir, hraised⟩ := hevent
  rw [hu] at hexec
  obtain ⟨⟨R, F, M, hb⟩, hbret, hbmiss⟩ := badReturn_leaves r u
  refine ⟨_, hexec, hbret.trans hret, hbmiss.trans hmiss, ?_, ?_, fun hnone => ?_⟩
  · rw [hb]
    exact hpar
  · rw [hb]
    exact hdir
  · rw [hb]
    exact hraised hnone

include hhead hpass

/-- A good return of the last frame is folded, and answers the transaction whose reply it carries. -/
theorem returnFrame_good {bytes : List Nat} {rt : Nat} {l : DownFrame} {f : RetFrame} (hlast : (s.ring r).last = some l)
    (hf : f = readReturn (frameStates (ringNodes s r) l) rt false bytes) (hcrc : f.crcOk = true) (hseq : f.seq = l.seq) (htype : l.ftype ≠ .enum)
    (hlate : (s.ring r).lateFold = false) (hfar : (s.ring r).farAt = none) (hhops : ringNodes s r ≤ f.hops) :
    ∃ t, exec (.returnFrame r bytes rt) s = .next t ∧
      (∀ p, p < ringNodes s r → (t.entry (dirIndex r p)).status = f.status.getD p 0xF) ∧
      (∀ j, f.tlmKind = 0 → j < 32 → 32 * f.tlmGroup + j < ringNodes s r → wbit (f.slots.getD j 0xFFFFFFFF) 7 = false →
        (t.entry (dirIndex r (32 * f.tlmGroup + j))).tlm = f.slots.getD j 0xFFFFFFFF ∧
        (t.entry (dirIndex r (32 * f.tlmGroup + j))).tlmTick = s.now % 2 ^ 32) ∧
      (∀ m rest e, (s.ring r).mgmt = m :: rest → m.stage = 2 → m.tag < 1024 → tagEntry s m.tag = some e →
        e.phase = .running → f.rstatus ≠ 15 → f.rstatus ≠ 3 → f.rtid = m.tid → f.responder = m.pos →
        (t.ring r).mgmt = rest ∧ Replied s t m.tag 0 (wrd (f.rstatus * 2 ^ 28 + (m.attempts - 1)) ::
          twoWords (if f.rstatus = 0 then f.rdata.toNat else 0))) ∧
      t.nv = s.nv ∧ t.mem.cells = s.mem.cells := by
  have hr := ringSends_low hsends
  have hnear : f.far = false := by rw [hf]; rfl
  have hseen : (returnSeen r s).ring r = { s.ring r with returned := true, missRun := 0 } :=
    (ring_updRing s r r fun g => { g with returned := true, missRun := 0 }).trans (if_pos rfl)
  have hseenPart : ∃ S, returnSeen r s = { s with stip := S } := ⟨_, rfl⟩
  obtain ⟨⟨S, hhopsPart⟩, hreads⟩ := foldHops_full (r := r) (f := f) (s := returnSeen r s) hhops
  obtain ⟨⟨S', F, M, hreplyPart⟩, hreplyLate, hreplyFar⟩ := mgmtReply_frame r f (foldHops r f (returnSeen r s))
  have hlate' : ((mgmtReply r f (foldHops r f (returnSeen r s))).ring r).lateFold = false := by
    rw [hreplyLate, hreads.lateFold, hseen]
    exact hlate
  have hfar' : ((mgmtReply r f (foldHops r f (returnSeen r s))).ring r).farAt = none := by
    rw [hreplyFar]
    exact hreads.farAt (by rw [hseen]; exact hfar)
  have hnow : (mgmtReply r f (foldHops r f (returnSeen r s))).now = s.now := by
    rw [hreplyPart, hhopsPart]
    rfl
  have hexec : exec (.returnFrame r bytes rt) s = .next (foldReturn r f s.now (mgmtReply r f (foldHops r f (returnSeen r s)))) := by
    refine congrArg Host.Outcome.next ?_
    rw [hlast]
    refine (if_neg (by simp [ringSends_present hsends])).trans ?_
    dsimp only
    rw [← hf]
    have hp : (returnSeen r s).ring r = { s.ring r with returned := true, missRun := 0 } := hseen
    unfold returnSeen at hp hlate' hnow ⊢
    rw [if_neg (by simp [hcrc]), if_neg (not_not.2 hseq), hp]
    dsimp only
    rw [hpass]
    have hh : headOf (s.updRing r fun g => { g with returned := true, missRun := 0 }) r = headOf s r := rfl
    dsimp only
    rw [hh, hhead, if_neg htype, hlate', hnow]
    exact (if_neg (by decide)).trans (if_neg (by decide))
  have hreplied : ∀ m rest e, (s.ring r).mgmt = m :: rest → m.stage = 2 → m.tag < 1024 → tagEntry s m.tag = some e →
      e.phase = .running → f.rstatus ≠ 15 → f.rstatus ≠ 3 → f.rtid = m.tid → f.responder = m.pos →
      ((mgmtReply r f (foldHops r f (returnSeen r s))).ring r).mgmt = rest ∧
      Replied (foldHops r f (returnSeen r s)) (mgmtReply r f (foldHops r f (returnSeen r s))) m.tag 0
        (wrd (f.rstatus * 2 ^ 28 + (m.attempts - 1)) :: twoWords (if f.rstatus = 0 then f.rdata.toNat else 0)) :=
    fun m rest e hm hstage hlow he hp h15 h3 htid hpos => mgmtReply_completes (e := e)
      (hreads.mgmt.trans (by rw [hseen]; exact hm)) hstage hlow (by rw [hhopsPart]; exact he) hp h15 h3 htid hpos
  generalize foldHops r f (returnSeen r s) = v at *
  generalize mgmtReply r f v = u at *
  have hpart : u = { s with stip := S', folio := F, marg := M } := by
    rw [hreplyPart, hhopsPart]
    rfl
  have hnodes : ringNodes u r = ringNodes s r := by rw [hpart]; rfl
  obtain ⟨hfold, hstatus, hslots⟩ := foldReturn_folds hr f s.now u
  refine ⟨_, hexec, fun p hp => hstatus hnear hfar' p (hnodes.symm ▸ hp), fun j hkind hj hn hvalid =>
    hslots hnear hkind j hj (hnodes.symm ▸ hn) hvalid, fun m rest e hm hstage hlow he hp h15 h3 htid hpos => ?_,
    hfold.work.nv.trans (by rw [hpart]), hfold.work.cells.trans (by rw [hpart])⟩
  obtain ⟨hq, hrep⟩ := hreplied m rest e hm hstage hlow he hp h15 h3 htid hpos
  have hs : Replied s u m.tag 0 (wrd (f.rstatus * 2 ^ 28 + (m.attempts - 1)) :: twoWords (if f.rstatus = 0 then f.rdata.toNat else 0)) := by
    rw [hhopsPart] at hrep
    exact hrep
  exact ⟨(hfold.rings r).mgmt.trans hq, replied_congr hs hfold.tags hfold.replies⟩

end Return

end Sys2Proof.Proofs
end

section
/-!
PROOFS. O43, last part: the string cycle (R18, R274 to R288), and the obligation.
-/
namespace Sys2Proof.Proofs
open Sys2Proof.Machine Sys2Proof.Safety Sys2Proof.Laws

/-! The ring whose request comes next (R18). -/

theorem foldl_pick_mem {f : Option Nat → Nat → Option Nat} (hf : ∀ b x, f b x = b ∨ f b x = some x) (l : List Nat) (b : Option Nat) {r : Nat}
    (h : l.foldl f b = some r) : b = some r ∨ r ∈ l := by
  induction l generalizing b with
  | nil => exact .inl h
  | cons x l ih =>
    obtain hb | hl := ih (f b x) h
    · obtain hx | hx := hf b x
      · exact .inl (hx.symm.trans hb)
      · exact .inr (by rw [Option.some.inj (hx.symm.trans hb)]; exact List.mem_cons_self)
    · exact .inr (List.mem_cons_of_mem x hl)

theorem nextString_requests {s : State} {r : Nat} (h : nextString s = some r) : ∃ q t0, (s.ring r).req = some q ∧ requestTick s r = some t0 := by
  unfold nextString at h
  have hmem := foldl_pick_mem (fun b x => by
    cases b with
    | none => exact .inr rfl
    | some b => exact (ite_eq_or_eq _ _ _).symm) _ none h
  have hsome : (requestTick s r).isSome = true := by
    obtain hn | hm := hmem
    · cases hn
    · exact (List.mem_filter.1 hm).2
  obtain ⟨t0, ht0⟩ := Option.isSome_iff_exists.1 hsome
  cases hq : (s.ring r).req with
  | none =>
    unfold requestTick at ht0
    rw [hq] at ht0
    cases ht0
  | some q => exact ⟨q, t0, rfl, ht0⟩

/-! The parts of a cycle. -/

theorem work_record (s : State) (code i : Nat) (args : List Word) : RingWork LanePar s (record s code i args) := .ev (ev_record (.refl s))

theorem work_forEach {α : Type} {f : α → State → State} (hf : ∀ a u, RingWork LanePar u (f a u)) (l : List α) (s : State) :
    RingWork LanePar s (forEach l f s) := forEach_rel (R := RingWork LanePar) .refl .trans hf l s

theorem work_forUpTo {f : Nat → State → State} (hf : ∀ k u, RingWork LanePar u (f k u)) (n : Nat) (s : State) :
    RingWork LanePar s (forUpTo n f s) := forUpTo_rel (R := RingWork LanePar) .refl .trans (fun k _ u => hf k u) s

theorem work_parCount {u i : Nat} (hi : i < 65536) (h : ¬ LanePar u i) (s : State) (n : Nat) : RingWork LanePar s (parCount s u i n) :=
  lane_parSet hi h _

theorem string_beside {r w : Nat} (hr : r < 16) (hw : w < 32) : 0x200 + 32 * r + w < 65536 ∧ ¬ LanePar 6 (0x200 + 32 * r + w) := by
  unfold LanePar
  omega

theorem work_normalise {r : Nat} (hr : r < 16) (s : State) : RingWork LanePar s (normalise r s) := by
  unfold normalise
  extract_lets ps free vs shifted published
  have hshifted : RingWork LanePar s shifted := by
    unfold shifted
    split
    next => exact work_forEach (fun p u => .updEntry u _ _) _ s
    next => exact .refl s
  have hpublished : RingWork LanePar shifted published := by
    unfold published
    split
    next => exact lane_parSet (string_beside hr (by decide)).1 (string_beside hr (by decide)).2 _
    next => exact .refl shifted
  exact (hshifted.trans hpublished).trans (.updRing published r _)

theorem work_chargeLedgers (r t0 T : Nat) (a b : Word) (s : State) : RingWork LanePar s (chargeLedgers r t0 T a b s) :=
  work_forUpTo (fun _ u => .updEntry u _ _) _ s

theorem work_consumeDirectory (r : Nat) (s : State) : RingWork LanePar s (consumeDirectory r s) := by
  unfold consumeDirectory
  extract_lets read
  have hread : RingWork LanePar s read := .ev (ev_readCells (.refl s))
  refine hread.trans (work_forUpTo (fun p u => ?_) _ read)
  split
  next => exact .ev (ev_consume (.refl u))
  next => exact .refl u

theorem work_cycleLimits {r : Nat} (hr : r < 16) (neg : Bool) (o : CycleOut) (s : State) : RingWork LanePar s (cycleLimits r neg o s) := by
  unfold cycleLimits
  extract_lets hit g counted due limited
  have hhit : RingWork LanePar s hit :=
    rel_ite (work_parCount (string_beside hr (by decide)).1 (string_beside hr (by decide)).2 s 1) (.refl s)
  have hcounted : RingWork LanePar hit counted := work_parCount (string_beside hr (by decide)).1 (string_beside hr (by decide)).2 hit 1
  have hlimited : RingWork LanePar counted limited := .updRing counted r _
  have hstamped : RingWork LanePar limited (limited.updRing r fun g => { g with limTick := some limited.now }) := .updRing limited r _
  exact hhit.trans (rel_ite (.updRing hit r _) ((hcounted.trans hlimited).trans (rel_ite (hstamped.trans (work_record _ _ _ _)) (.refl limited))))

theorem work_publishString {r : Nat} (hr : r < 16) (iNow : Word) (o : CycleOut) (s : State) : RingWork LanePar s (publishString r iNow o s) ∧
    ((publishString r iNow o s).ring r).req = none := by
  unfold publishString
  extract_lets base published q
  have hset (w : Nat) (hw : w < 32) (v : Word) (u : State) : RingWork LanePar u (parSet u 6 (base + w) v) :=
    lane_parSet (string_beside hr hw).1 (string_beside hr hw).2 v
  have hpublished : RingWork LanePar s published :=
    ((hset 0xE (by decide) iNow s).trans (hset 0xF (by decide) o.avail _)).trans (hset 0x10 (by decide) o.applied _)
  refine ⟨hpublished.trans (.updRing published r _), ?_⟩
  rw [ring_updRing, if_pos rfl]

theorem work_handFrame (r : Nat) (f : DownFrame) (s : State) : RingWork LanePar s (handFrame r f s) ∧
    ((handFrame r f s).ring r).req = (s.ring r).req := by
  unfold handFrame
  extract_lets late handed sq sent
  have hhanded : RingWork LanePar s handed := .updRing s r _
  have hreq : (handed.ring r).req = (s.ring r).req := by
    unfold handed
    rw [ring_updRing, if_pos rfl]
  clear_value handed
  have hqueue : RingWork LanePar handed (queueRingFrame r sent handed) ∧ (queueRingFrame r sent handed).stip = handed.stip :=
    forEach_rel (R := fun s t => RingWork LanePar s t ∧ t.stip = s.stip) (fun s => ⟨.refl s, rfl⟩)
      (fun h k => ⟨h.1.trans k.1, k.2.trans h.2⟩) (fun _ u => ⟨(lane_queueCell r u _ _ _).work, rfl⟩) _ handed
  split
  · exact ⟨.refl s, rfl⟩
  split
  · have hring : (queueRingFrame r sent handed).ring r = handed.ring r :=
      congrArg (fun S : Stipple => tblGet S.rings ({} : Machine.Ring) r) hqueue.2
    exact ⟨hhanded.trans hqueue.1, by rw [hring]; exact hreq⟩
  · exact ⟨hhanded, hreq⟩

/-- The part of a cycle after the late fold: it takes the request of its ring. -/
def cycleEnd (r : Nat) (v : Word) (t0 : Nat) (iPrev iNow : Word) (t T : Nat) (s : State) : State :=
  let s := if !(s.ring r).normDue then s
    else if wbit (strPar s r 0) 28 then normalise r s
    else s.updRing r fun g => { g with normDue := false }
  let s := chargeLedgers r t0 T iPrev iNow s
  let s := consumeDirectory r s
  if !ringDriveRuns s r then s.updRing r fun g => { g with req := none }
  else
    let o := cycleOut s r t t0 T v iNow
    let s := cycleLimits r (fNegative v && !fZero v) o s
    handFrame r o.frame (publishString r iNow o s)

theorem work_cycleEnd {r : Nat} (hr : r < 16) (v : Word) (t0 : Nat) (iPrev iNow : Word) (t T : Nat) (s : State) :
    RingWork LanePar s (cycleEnd r v t0 iPrev iNow t T s) ∧ ((cycleEnd r v t0 iPrev iNow t T s).ring r).req = none := by
  unfold cycleEnd
  extract_lets normal charged read o limited
  have hnormal : RingWork LanePar s normal := rel_ite (.refl s) (rel_ite (work_normalise hr s) (.updRing s r _))
  have hread : RingWork LanePar s read := (hnormal.trans (work_chargeLedgers r t0 T iPrev iNow normal)).trans (work_consumeDirectory r charged)
  have hlimited : RingWork LanePar read limited := work_cycleLimits hr _ o read
  clear_value read limited o
  split
  · exact ⟨hread.trans (.updRing read r _), by rw [ring_updRing, if_pos rfl]⟩
  · obtain ⟨hpub, hnone⟩ := work_publishString hr iNow o limited
    obtain ⟨hhand, hreq⟩ := work_handFrame r o.frame (publishString r iNow o limited)
    exact ⟨((hread.trans hlimited).trans hpub).trans hhand, hreq.trans hnone⟩

/-- The late fold of a cycle: a frame whose return has not come is counted, and its event raised. -/
def lateFolded (r : Nat) (s : State) : State :=
  if !(s.ring r).returned && decide ((s.ring r).last ≠ none) && !(s.ring r).lateFold then
    record (parCount (s.updRing r fun g => { g with lateFold := true }) 6 (0x106 + 16 * r) 1) 0x0602 r [ringPeriodNumber s r]
  else s

/-- The return that waited for the cycle, folded. -/
def dueFolded (r : Nat) (s : State) : State :=
  match (s.ring r).foldDue with
  | some x => foldReturn r x.1 x.2 (s.updRing r fun g => { g with foldDue := none })
  | none => s

theorem runCycle_eq (r : Nat) (v : Word) (t0 : Nat) (s : State) : ∃ iPrev iNow t T, runCycle r v t0 s =
    cycleEnd r v t0 iPrev iNow t T (lateFolded r (dueFolded r s)) := ⟨_, _, _, _, rfl⟩

theorem work_dueFolded {r : Nat} (hr : r < 16) (s : State) : RingWork LanePar s (dueFolded r s) := by
  unfold dueFolded
  split
  next x _ =>
    have hclear : RingWork LanePar s (s.updRing r fun g => { g with foldDue := none }) := .updRing s r _
    exact hclear.trans (foldReturn_folds hr x.1 x.2 _).1.work
  next => exact .refl s

theorem lateFolded_counts {r : Nat} (hr : r < 16) (s : State) : (lateFolded r s).nv = s.nv ∧ (lateFolded r s).mem.cells = s.mem.cells ∧
    ((s.ring r).last ≠ none → (s.ring r).returned = false → (s.ring r).lateFold = false →
      parGet (lateFolded r s) 6 (0x106 + 16 * r) = counted (parGet s 6 (0x106 + 16 * r)) 1 ∧
      Raised s (lateFolded r s) 0x0602 r [ringPeriodNumber s r]) := by
  have hcount : parGet (parCount (s.updRing r fun g => { g with lateFold := true }) 6 (0x106 + 16 * r) 1) 6 (0x106 + 16 * r) =
      counted (parGet s 6 (0x106 + 16 * r)) 1 := parGet_parCount_self _ 6 (0x106 + 16 * r) 1
  have hsame : ∃ S P, parCount (s.updRing r fun g => { g with lateFold := true }) 6 (0x106 + 16 * r) 1 = { s with stip := S, par := P } := ⟨_, _, rfl⟩
  unfold lateFolded
  generalize parCount (s.updRing r fun g => { g with lateFold := true }) 6 (0x106 + 16 * r) 1 = u at *
  obtain ⟨S, P, rfl⟩ := hsame
  have hwork := work_record { s with stip := S, par := P } 0x0602 r [ringPeriodNumber s r]
  have hraised : Raised s (record { s with stip := S, par := P } 0x0602 r [ringPeriodNumber s r]) 0x0602 r [ringPeriodNumber s r] :=
    record_raises { s with stip := S, par := P } _ _ _
  split
  · exact ⟨hwork.nv, hwork.cells, fun _ _ _ => ⟨(hwork.par _ _ (lanePar_count hr (k := 6) (by decide))).trans hcount, hraised⟩⟩
  next h => exact ⟨rfl, rfl, fun hlast hret hlate => absurd (by simp [hlast, hret, hlate]) h⟩

theorem stringCycle_takes {s : State} {r : Nat} (hr : r < 16) (hnext : nextString s = some r) : ∃ t, exec (.stringCycle r) s = .next t ∧
    (t.ring r).req = none ∧ t.nv = s.nv ∧ t.mem.cells = s.mem.cells ∧
    ((s.ring r).last ≠ none → (s.ring r).returned = false → (s.ring r).lateFold = false → (s.ring r).foldDue = none →
      parGet t 6 (0x106 + 16 * r) = counted (parGet s 6 (0x106 + 16 * r)) 1 ∧ Raised s t 0x0602 r [ringPeriodNumber s r]) := by
  obtain ⟨q, t0, hq, ht0⟩ := nextString_requests hnext
  have hexec : exec (.stringCycle r) s = .next (runCycle r q.v t0 s) := by
    refine congrArg Host.Outcome.next ((if_neg (not_not.2 hnext)).trans ?_)
    rw [hq, ht0]
  obtain ⟨iPrev, iNow, t, T, hrun⟩ := runCycle_eq r q.v t0 s
  rw [hrun] at hexec
  have hdue := work_dueFolded hr s
  have hnone : (s.ring r).foldDue = none → dueFolded r s = s := fun h => by
    unfold dueFolded
    rw [h]
  obtain ⟨hnv, hcells, hlate⟩ := lateFolded_counts hr (dueFolded r s)
  obtain ⟨hend, hreq⟩ := work_cycleEnd hr q.v t0 iPrev iNow t T (lateFolded r (dueFolded r s))
  refine ⟨_, hexec, hreq, hend.nv.trans (hnv.trans hdue.nv), hend.cells.trans (hcells.trans hdue.cells), fun hlast hret hfold hdueNone => ?_⟩
  rw [hnone hdueNone] at hlate hend ⊢
  obtain ⟨hcount, hraised⟩ := hlate hlast hret hfold
  exact ⟨(hend.par _ _ (lanePar_count hr (k := 6) (by decide))).trans hcount, hend.grow _ hraised (show (0x0602 : Nat) ≠ 0x0902 by decide)⟩

/-- Settles O43: each row is the lemma above of its command. -/
theorem ringFrames : Obligations.RingFrames := by
  unfold Obligations.RingFrames
  intro s r hsends hhead hpass
  have hr := ringSends_low hsends
  exact ⟨fun hdue => ⟨fun nib hnib hframe => frameSend_safe hsends hhead hpass hdue hnib hframe,
      fun g hnib hruns hnext hframe htime => frameSend_normal hsends hhead hpass hdue hnib hruns hnext hframe htime,
      fun hnib hruns hframe => frameSend_idle hsends hhead hpass hdue hnib hruns hframe,
      fun g a hnib hruns hmissed hho hlast => frameLate_repeats hsends hhead hpass hdue hnib hruns hmissed hho hlast⟩,
    fun nib hdue hnib hfree => safeFrame_sends hsends hhead hpass hdue hnib hfree,
    fun bytes rt f l hlast hf => ⟨fun hcrc => returnFrame_bad hsends hlast (hf ▸ hcrc),
      fun hcrc hseq htype hlate hfar hhops => returnFrame_good hsends hhead hpass hlast hf hcrc hseq htype hlate hfar hhops⟩,
    stringCycle_takes hr⟩

end Sys2Proof.Proofs
end

section
/-!
PROOFS. O46, first part: what a store, a held request and a lap's end leave aside (R378, R387 to R392).
-/
namespace Sys2Proof.Proofs
open Sys2Proof.Machine Sys2Proof.Safety Sys2Proof.Laws

/-! What the requests of memory leave. -/

/-- From `s` to `t` requests of memory are served: the interface, the buffers but for their triggers, the mirror and its parameters stay,
a written block stays written, and events are kept. -/
structure LpServed (s t : State) : Prop where
  held : t.mem.lpHeld = s.mem.lpHeld
  missed : t.mem.missedRef = s.mem.missedRef
  refreshes : t.mem.refreshes = s.mem.refreshes
  online : t.mem.lpOnline = s.mem.lpOnline
  cause : t.mem.lpCause = s.mem.lpCause
  caps : ∀ b, (t.cap b).queue = (s.cap b).queue ∧ (t.cap b).lp = (s.cap b).lp ∧ (t.cap b).armed = (s.cap b).armed
  wmap : ∀ b, blockWritten s b = true → blockWritten t b = true
  par : ∀ i, i < 65536 → parGet t 13 i = parGet s 13 i
  mirror : t.book.mirActive = s.book.mirActive ∧ t.book.mirQueue = s.book.mirQueue ∧ t.book.mirIndex = s.book.mirIndex
  grow : ∀ e ∈ s.book.inq, e.code ≠ 0x0902 → e ∈ t.book.inq

theorem LpServed.refl (s : State) : LpServed s s :=
  ⟨rfl, rfl, rfl, rfl, rfl, fun _ => ⟨rfl, rfl, rfl⟩, fun _ h => h, fun _ _ => rfl, ⟨rfl, rfl, rfl⟩, fun _ h _ => h⟩

theorem LpServed.trans {s t u : State} (h : LpServed s t) (k : LpServed t u) : LpServed s u :=
  ⟨k.held.trans h.held, k.missed.trans h.missed, k.refreshes.trans h.refreshes, k.online.trans h.online, k.cause.trans h.cause,
    fun b => ⟨(k.caps b).1.trans (h.caps b).1, (k.caps b).2.1.trans (h.caps b).2.1, (k.caps b).2.2.trans (h.caps b).2.2⟩,
    fun b hb => k.wmap b (h.wmap b hb), fun i hi => (k.par i hi).trans (h.par i hi),
    ⟨k.mirror.1.trans h.mirror.1, k.mirror.2.1.trans h.mirror.2.1, k.mirror.2.2.trans h.mirror.2.2⟩,
    fun e he hc => k.grow e (h.grow e he hc) hc⟩

/-- From `s` to `t` a store lands: what `LpServed` says, and the requests that wait stay. -/
structure Stored (s t : State) : Prop where
  served : LpServed s t
  waits : t.mem.lpWait = s.mem.lpWait
  stores : t.mem.lpStore = s.mem.lpStore

theorem Stored.refl (s : State) : Stored s s := ⟨.refl s, rfl, rfl⟩

theorem Stored.trans {s t u : State} (h : Stored s t) (k : Stored t u) : Stored s u :=
  ⟨h.served.trans k.served, k.waits.trans h.waits, k.stores.trans h.stores⟩

/-- Memory alone changes, beside the interface, the buffers and the map. -/
theorem LpServed.mem {s : State} {M : Memory} (hheld : M.lpHeld = s.mem.lpHeld) (hmissed : M.missedRef = s.mem.missedRef)
    (href : M.refreshes = s.mem.refreshes) (honline : M.lpOnline = s.mem.lpOnline) (hcause : M.lpCause = s.mem.lpCause)
    (hcaps : M.caps = s.mem.caps) (hmap : ∀ b, tblGet s.mem.wmap false b = true → tblGet M.wmap false b = true) :
    LpServed s { s with mem := M } :=
  ⟨hheld, hmissed, href, honline, hcause, fun b => by
      have hcap : State.cap { s with mem := M } b = s.cap b := congrArg (fun C => tblGet C ({} : Capture) b) hcaps
      rw [hcap]
      exact ⟨rfl, rfl, rfl⟩,
    hmap, fun _ _ => rfl, ⟨rfl, rfl, rfl⟩, fun _ h _ => h⟩

theorem Stored.read {s t : State} (h : EvStep s t) (k : ReadStep s t) : Stored s t := by
  have hcap : ∀ b, t.cap b = s.cap b := fun b => by
    obtain ⟨_, _, _, _, _, rfl⟩ := k
    rfl
  refine ⟨⟨?_, ?_, ?_, ?_, ?_, fun b => by rw [hcap]; exact ⟨rfl, rfl, rfl⟩, fun b hb => ?_,
    fun i hi => parGet_of_evStep h hi (by decide) (by decide), ?_, h.grow⟩, ?_, ?_⟩
  all_goals obtain ⟨_, _, _, _, _, rfl⟩ := k
  · rfl
  · rfl
  · rfl
  · rfl
  · rfl
  · exact hb
  · exact ⟨rfl, rfl, rfl⟩
  · rfl
  · rfl

theorem Stored.mem {s : State} {M : Memory} (hheld : M.lpHeld = s.mem.lpHeld) (hmissed : M.missedRef = s.mem.missedRef)
    (href : M.refreshes = s.mem.refreshes) (honline : M.lpOnline = s.mem.lpOnline) (hcause : M.lpCause = s.mem.lpCause)
    (hcaps : M.caps = s.mem.caps) (hmap : ∀ b, tblGet s.mem.wmap false b = true → tblGet M.wmap false b = true)
    (hwait : M.lpWait = s.mem.lpWait) (hstore : M.lpStore = s.mem.lpStore) : Stored s { s with mem := M } :=
  ⟨.mem hheld hmissed href honline hcause hcaps hmap, hwait, hstore⟩

theorem stored_demandRead (s : State) (a : Nat) : Stored s (demandRead s a) := .read (ev_demandRead (.refl s)) (read_demandRead s a)

theorem stored_writeByte (s : State) (a : Nat) (b : Byte) : Stored s (writeByte s a b) := .mem rfl rfl rfl rfl rfl rfl (fun _ h => h) rfl rfl

theorem stored_writeWord (s : State) (a : Nat) (w : Word) : Stored s (writeWord s a w) :=
  ((stored_writeByte s _ _).trans (stored_writeByte _ _ _)).trans ((stored_writeByte _ _ _).trans (stored_writeByte _ _ _))

theorem stored_setErr (s : State) (a : Nat) (e : EccErr) : Stored s (setErr s a e) := .mem rfl rfl rfl rfl rfl rfl (fun _ h => h) rfl rfl

theorem stored_setMark (s : State) (a : Nat) (m : Mark) : Stored s (setMark s a m) := .mem rfl rfl rfl rfl rfl rfl (fun _ h => h) rfl rfl

theorem stored_freshWords (s : State) (lo hi : Nat) : Stored s (freshWords s lo hi) := .mem rfl rfl rfl rfl rfl rfl (fun _ h => h) rfl rfl

theorem stored_mapSet (s : State) (b : Nat) : Stored s { s with mem := { s.mem with wmap := tblSet s.mem.wmap false b true } } :=
  .mem rfl rfl rfl rfl rfl rfl (fun k h => by
    change tblGet (tblSet s.mem.wmap false b true) false k = true
    by_cases hk : k = b
    · rw [hk]
      exact tblGet_write_self _ _ _ _
    · rw [tblGet_write_ne _ _ _ _ hk]
      exact h) rfl rfl

theorem stored_setBlock (s : State) (b : Nat) : Stored s (setBlock s b) :=
  rel_ite (((stored_setMark s _ _).trans (stored_setErr _ _ _)).trans
    (forUpTo_rel (R := Stored) .refl .trans (fun k _ u => stored_mapSet u (b / 64 * 64 + k)) _)) (stored_mapSet s b)

theorem stored_storeWord (a : Nat) (w : Word) (s : State) : Stored s (storeWord a w s) := by
  unfold storeWord
  extract_lets b read
  have hread : Stored s read := .read (ev_mapRead (.refl s)) (read_mapRead s a)
  have hfill (F : List (Nat × List (Nat × Word))) : Stored read { read with mem := { read.mem with fills := F } } :=
    .mem rfl rfl rfl rfl rfl rfl (fun _ h => h) rfl rfl
  exact hread.trans (rel_ite (stored_writeWord read a w) (rel_ite (hfill _) (rel_ite ((stored_setBlock read b).trans (stored_writeWord _ a w))
    (rel_ite (stored_writeWord read a w) (hfill _)))))

theorem stored_storeWords (ws : List Word) (a : Nat) (s : State) : Stored s (storeWords a ws s) := by
  induction ws generalizing a s with
  | nil => exact .refl s
  | cons w ws ih => exact (stored_storeWord a w s).trans (ih (a + 4) _)

theorem stored_storeRange (a : Nat) (ws : List Word) (s : State) : Stored s (storeRange a ws s) := by
  unfold storeRange
  extract_lets hi low high
  have hlow : Stored s low := rel_ite ((stored_demandRead s a).trans (stored_setErr _ _ _)) (.refl s)
  have hhigh : Stored low high := rel_ite ((stored_demandRead low _).trans (stored_setErr _ _ _)) (.refl low)
  exact ((hlow.trans hhigh).trans (stored_storeWords ws a high)).trans (stored_freshWords _ _ _)

/-! Held requests (R391, R392). -/

/-- Each buffer keeps its records, its place and whether it is armed. -/
def CapsKept (s t : State) : Prop := ∀ b, (t.cap b).queue = (s.cap b).queue ∧ (t.cap b).lp = (s.cap b).lp ∧ (t.cap b).armed = (s.cap b).armed

theorem CapsKept.refl (s : State) : CapsKept s s := fun _ => ⟨rfl, rfl, rfl⟩

theorem CapsKept.trans {s t u : State} (h : CapsKept s t) (k : CapsKept t u) : CapsKept s u := fun b =>
  ⟨(k b).1.trans (h b).1, (k b).2.1.trans (h b).2.1, (k b).2.2.trans (h b).2.2⟩

theorem capsKept_capTrigger (e : Event) (b : Nat) (s : State) : CapsKept s (capTrigger e b s) := by
  refine rel_ite (fun c => ?_) (.refl s)
  rw [cap_updCap]
  by_cases hc : c = b
  · rw [if_pos hc, hc]
    exact ⟨rfl, rfl, rfl⟩
  · rw [if_neg hc]
    exact ⟨rfl, rfl, rfl⟩

theorem capsKept_record {s : State} {code i : Nat} {args : List Word} (hd : eventDrive (mkEvent s code i args) = none) :
    CapsKept s (record s code i args) := by
  unfold record recordEvent
  rw [hd]
  extract_lets _ queued marked named
  have hnamed : CapsKept s named := rel_ite (.refl s) (.refl s)
  exact hnamed.trans (forUpTo_rel (R := CapsKept) .refl .trans (fun b _ u => capsKept_capTrigger _ b u) named)

theorem served_event {s : State} {code i : Nat} {args : List Word} (hd : eventDrive (mkEvent s code i args) = none) :
    LpServed s (record s code i args) := by
  have hev := ev_record (code := code) (idx := i) (args := args) (.refl s)
  have hcaps := capsKept_record hd
  have hpar : ∀ j, j < 65536 → parGet (record s code i args) 13 j = parGet s 13 j :=
    fun j hj => parGet_of_evStep hev hj (by decide) (by decide)
  have hgrow := hev.grow
  obtain ⟨P, C, Q, h⟩ := record_noted hd
  rw [h] at hcaps hpar hgrow ⊢
  exact ⟨rfl, rfl, rfl, rfl, rfl, hcaps, fun _ h => h, hpar, ⟨rfl, rfl, rfl⟩, hgrow⟩

theorem served_parCount {u i : Nat} (hi : i < 65536) (hu : u ≠ 13) (s : State) (n : Nat) : LpServed s (parCount s u i n) :=
  ⟨rfl, rfl, rfl, rfl, rfl, fun _ => ⟨rfl, rfl, rfl⟩, fun _ h => h, fun _ hj => parGet_parSet_ne hi hj (fun h => hu h.1.symm) _,
    ⟨rfl, rfl, rfl⟩, fun _ h _ => h⟩

theorem eventDrive_refusal (s : State) (args : List Word) : eventDrive (mkEvent s 0x0A06 0 args) = none := by simp [eventDrive, mkEvent]

theorem served_refusal (s : State) (args : List Word) : LpServed s (record s 0x0A06 0 args) :=
  served_event (eventDrive_refusal s args)

theorem reactionOf_refusal (s : State) : reactionOf s 0x0A06 0 = noReact := by simp [reactionOf]

theorem served_mramRefuse (s : State) : LpServed s (mramRefuse s) := by
  unfold mramRefuse
  have hcount : LpServed s (parCount s 10 0x24 1) := served_parCount (by decide) (by decide) s 1
  generalize parCount s 10 0x24 1 = u at hcount
  rw [raise_bare (reactionOf_refusal u)]
  exact hcount.trans (served_refusal u _)

theorem served_nv (s : State) (T : List (Nat × Word)) (n : Nat) : LpServed s { s with nv := T, free := n } :=
  ⟨rfl, rfl, rfl, rfl, rfl, fun _ => ⟨rfl, rfl, rfl⟩, fun _ h => h, fun _ _ => rfl, ⟨rfl, rfl, rfl⟩, fun _ h _ => h⟩

theorem served_nvSet (s : State) (u i n : Nat) (v : Word) : LpServed s { nvSet s u i v with free := n } := served_nv s _ n

theorem served_touchSlot (a : Nat) (s : State) : LpServed s (touchSlot a s) := by
  unfold touchSlot
  exact rel_ite (served_nvSet s _ _ _ _) (.refl s)

theorem served_landStore (a : Nat) (v : Word) (enables : Nat) (m : Mark) (s : State) : LpServed s (landStore a v enables m s) := by
  unfold landStore
  refine rel_ite (served_mramRefuse s) (rel_ite (.refl s) ?_)
  extract_lets read old landed
  have hread : LpServed s read := rel_ite (.refl s) (stored_demandRead s a).served
  have hlanded : LpServed read landed := (stored_storeRange a _ read).served.trans (served_touchSlot a _)
  exact (hread.trans hlanded).trans (rel_ite (stored_setMark landed a _).served (.refl landed))

theorem served_lpNote (s : State) (a : Nat) : LpServed s (lpNote s a) := rel_ite (.mem rfl rfl rfl rfl rfl rfl fun _ h => h) (.refl s)

theorem served_releaseStore (x : Nat × Word × Nat × Mark) (s : State) : LpServed s (releaseStore x s) :=
  rel_ite (.mem rfl rfl rfl rfl rfl rfl fun _ h => h) ((served_lpNote s x.1).trans (served_landStore _ _ _ _ _))

theorem served_completeTag (tag status : Nat) (ws : List Word) (s : State) : LpServed s (completeTag tag status ws s) := by
  obtain ⟨f, m, h⟩ := completeTag_keeps tag status ws s
  rw [h]
  exact ⟨rfl, rfl, rfl, rfl, rfl, fun _ => ⟨rfl, rfl, rfl⟩, fun _ h => h, fun _ _ => rfl, ⟨rfl, rfl, rfl⟩, fun _ h _ => h⟩

/-- A command whose body is checked: it is refused, or does what it does. -/
theorem served_checked {s : State} (tag : Nat) (l : List (Bool × Nat)) {k : CmdRes} (h : LpServed s (settle tag k)) :
    LpServed s (settle tag (checked s l k)) := by
  unfold checked
  split
  next c _ => exact served_completeTag tag c.2 [] s
  next => exact h

theorem stored_hostRead (n a : Nat) (s : State) : Stored s (hostRead n a s).1 := by
  induction n generalizing a s with
  | zero => exact .refl s
  | succ n ih => exact (stored_demandRead s a).trans (ih (a + 4) _)

theorem served_memRead (tag : Nat) (ws : List Word) (s : State) : LpServed s (settle tag (bodyMemRead tag ws s)) := by
  unfold bodyMemRead
  extract_lets a n wait r marks
  have hread : LpServed s r.1 := (served_lpNote s a).trans (stored_hostRead n a _).served
  refine served_checked tag _ ?_
  split
  · exact .mem rfl rfl rfl rfl rfl rfl fun _ h => h
  · have hfree : LpServed r.1 { r.1 with free := r.1.free + 2 ^ 36 } :=
      ⟨rfl, rfl, rfl, rfl, rfl, fun _ => ⟨rfl, rfl, rfl⟩, fun _ h => h, fun _ _ => rfl, ⟨rfl, rfl, rfl⟩, fun _ h _ => h⟩
    exact (hread.trans hfree).trans (served_completeTag tag _ _ _)

theorem served_memWrite (tag : Nat) (ws : List Word) (s : State) : LpServed s (settle tag (bodyMemWrite tag ws s)) := by
  unfold bodyMemWrite
  extract_lets a data n
  refine served_checked tag _ ?_
  split
  · exact .mem rfl rfl rfl rfl rfl rfl fun _ h => h
  · exact ((served_lpNote s a).trans (stored_storeRange a data _).served).trans (served_completeTag tag stOk [] _)

/-- A command held in handshake goes on. -/
def waitServed (w : Nat × Bool × List Word) (s : State) : State :=
  settle w.1 (if w.2.1 then bodyMemWrite w.1 w.2.2 s else bodyMemRead w.1 w.2.2 s)

theorem served_waitServed (w : Nat × Bool × List Word) (s : State) : LpServed s (waitServed w s) := by
  unfold waitServed
  split
  · exact served_memWrite _ _ s
  · exact served_memRead _ _ s

theorem served_serveWaits (s : State) : LpServed s (serveWaits s) := by
  unfold serveWaits
  extract_lets stores idle released
  have hidle : LpServed s { s with mem := { s.mem with lpStore := [] } } := .mem rfl rfl rfl rfl rfl rfl fun _ h => h
  have hreleased : LpServed s released := hidle.trans (forEach_rel (R := LpServed) .refl .trans served_releaseStore stores _)
  have hclear : LpServed released { released with mem := { released.mem with lpWait := [] } } := .mem rfl rfl rfl rfl rfl rfl fun _ h => h
  exact (hreleased.trans hclear).trans (forEach_rel (R := LpServed) .refl .trans served_waitServed _ _)

theorem stored_lpIssue (k : Nat) (s : State) : Stored s (lpIssue k s) := by
  induction k generalizing s with
  | zero => exact .refl s
  | succ k ih =>
    unfold lpIssue
    split
    · exact .refl s
    · split
      next x _ =>
        have hone : Stored s (issueOne x s) := .mem rfl rfl rfl rfl rfl rfl (fun _ h => h) rfl rfl
        exact hone.trans (ih _)
      next => exact .refl s

end Sys2Proof.Proofs
end

section
/-!
PROOFS. O46, second part: the scrubber (13_memory.md, Scrubbing; R378 to R382).
-/
namespace Sys2Proof.Proofs
open Sys2Proof.Machine Sys2Proof.Safety Sys2Proof.Laws

/-! What a step of the scrubber leaves. -/

/-- No byte of memory and no stored parameter changes. -/
def BytesStay (s t : State) : Prop := t.mem.cells = s.mem.cells ∧ t.nv = s.nv

theorem BytesStay.refl (s : State) : BytesStay s s := ⟨rfl, rfl⟩

theorem BytesStay.trans {s t u : State} (h : BytesStay s t) (k : BytesStay t u) : BytesStay s u := ⟨k.1.trans h.1, k.2.trans h.2⟩

theorem BytesStay.ev {s t : State} (h : EvStep s t) : BytesStay s t := ⟨h.mem_cells, h.nv⟩

theorem bytesStay_strike (upsets : List (Nat × Bool)) (s : State) : BytesStay s (strike upsets s) :=
  forEach_rel (R := BytesStay) .refl .trans (fun _ t => rel_ite (⟨rfl, rfl⟩ : BytesStay t (setErr t _ _)) (.refl t)) _ _

theorem bytesStay_recordUntested (s : State) (code i : Nat) (args : List Word) : BytesStay s (recordUntested s code i args) :=
  .ev (ev_recordUntested (.refl s))

theorem bytesStay_lapEnd (k : Nat) (s : State) : BytesStay s (lapEnd k s) := by
  unfold lapEnd
  extract_lets lap u v M w
  have hu : BytesStay s u := ⟨rfl, rfl⟩
  have hv : BytesStay s v := hu.trans (rel_ite ⟨rfl, rfl⟩ (.refl u))
  have hw : BytesStay v w := ⟨rfl, rfl⟩
  exact (hv.trans hw).trans (rel_ite (.trans (t := parOr w 10 0 _) ⟨rfl, rfl⟩ (bytesStay_recordUntested _ _ _ _)) (.refl w))

theorem bytesStay_eccRead (s : State) (a : Nat) (back raced : Bool) : BytesStay s (eccRead s a back raced) := .ev (ev_eccRead (.refl s))

/-- The scrubber at its word `w`: it reads it, moves on, and ends the lap at the top. -/
def scrubAt (k w : Nat) (raced : Bool) (s : State) : State :=
  let u := eccRead s (8 * w) true raced
  let t := { u with mem := { u.mem with scrubAddr := tblSet u.mem.scrubAddr 0 k (w + 1 - scrubBase k) } }
  if scrubTop t k ≤ w + 1 then lapEnd k t else t

theorem bytesStay_scrubAt (k w : Nat) (raced : Bool) (s : State) : BytesStay s (scrubAt k w raced s) := by
  unfold scrubAt
  extract_lets u M t
  have ht : BytesStay s t := (bytesStay_eccRead s (8 * w) true raced).trans (t := u) ⟨rfl, rfl⟩
  exact ht.trans (rel_ite (bytesStay_lapEnd k t) (.refl t))

/-- The scrubber at the word it finds, or at the end of a lap where LPDDR5 has no written block left. -/
def scrubGo (k : Nat) (found : Option Nat) (raced : Bool) (s : State) : State :=
  match found with
  | none => lapEnd k s
  | some w => scrubAt k w raced s

theorem bytesStay_scrubGo (k : Nat) (found : Option Nat) (raced : Bool) (s : State) : BytesStay s (scrubGo k found raced s) :=
  match found with
  | none => bytesStay_lapEnd k s
  | some w => bytesStay_scrubAt k w raced s

/-- The word at which the scrubber of memory `k` stands; in LPDDR5 it skips blocks that were never written. -/
def scrubFound (s : State) (k : Nat) : Option Nat :=
  let w := scrubBase k + tblGet s.mem.scrubAddr 0 k
  if k = 2 then (if w < scrubTop s k then skipBlocks s w else none) else some w

theorem exec_scrubStep (s : State) (k : Nat) (up : List (Nat × Bool)) (raced : Bool) : exec (.scrubStep k up raced) s =
    .next (if !scrubRuns (strike up s) k then strike up s else scrubGo k (scrubFound (strike up s) k) raced (strike up s)) := rfl

theorem scrubStep_leaves (s : State) (k : Nat) (up : List (Nat × Bool)) (raced : Bool) :
    ∃ t, exec (.scrubStep k up raced) s = .next t ∧ BytesStay s t :=
  ⟨_, exec_scrubStep s k up raced,
    (bytesStay_strike up s).trans (rel_ite (.refl (strike up s)) (bytesStay_scrubGo k _ raced (strike up s)))⟩

/-! A step in SRAM or MRAM. -/

theorem scrubStep_runs {s : State} {k : Nat} (hk : k < 2) (haw : s.pwr.sleep = .awake) (raced : Bool) :
    exec (.scrubStep k [] raced) s = .next (scrubAt k (scrubBase k + tblGet s.mem.scrubAddr 0 k) raced s) := by
  have hruns : scrubRuns s k = true := by simp [scrubRuns, haw, hk]
  have hfound : scrubFound s k = some (scrubBase k + tblGet s.mem.scrubAddr 0 k) := if_neg (by omega)
  rw [exec_scrubStep, show strike [] s = s from rfl, hfound, hruns]
  rfl

theorem eventDrive_scrub {code : Nat} (h : code ∈ [0x0A01, 0x0A05, 0x0A07]) (s : State) (i : Nat) (args : List Word) :
    eventDrive (mkEvent s code i args) = none := by
  simp only [List.mem_cons, List.not_mem_nil, or_false] at h
  rcases h with rfl | rfl | rfl <;> simp [eventDrive, mkEvent]

/-- The memory unit's own notices add an event and change nothing else. -/
theorem recordUntested_quiet {code : Nat} (h : code ∈ [0x0A01, 0x0A05, 0x0A07]) (s : State) (i : Nat) (args : List Word) :
    ∃ q, recordUntested s code i args = { s with book := { s.book with inq := q } } := by
  have hc : eventClass code ≠ 2 ∧ code ≠ 0x0902 := by
    simp only [List.mem_cons, List.not_mem_nil, or_false] at h
    rcases h with rfl | rfl | rfl <;> decide
  unfold recordUntested
  split
  · exact ⟨s.book.inq, rfl⟩
  · exact ⟨_, record_quiet hc.1 (eventDrive_scrub h s i args) hc.2⟩

/-- The end of a lap of SRAM or MRAM keeps its time and starts the next at the bottom. -/
theorem lapEnd_ends {s : State} {k : Nat} (hk : k < 2) : ∃ P q, lapEnd k s = { s with
      par := P, mem := { s.mem with lapStart := tblSet s.mem.lapStart 0 k s.now, scrubAddr := tblSet s.mem.scrubAddr 0 k 0 },
      book := { s.book with inq := q } } ∧
    parGet (lapEnd k s) 10 (0x10 + 4 * k) = wrd ((s.now - tblGet s.mem.lapStart 0 k) / 400000) ∧
    parGet (lapEnd k s) 10 0x20 = parGet s 10 0x20 := by
  unfold lapEnd
  extract_lets lap u v M w
  have hu : parGet u 10 (0x10 + 4 * k) = wrd lap ∧ parGet u 10 0x20 = parGet s 10 0x20 :=
    ⟨parGet_parSet_self .., parGet_parSet_ne (by omega) (by decide) (by omega) _⟩
  have hv : ∃ P, v = { s with par := P } ∧ parGet v 10 (0x10 + 4 * k) = wrd lap ∧ parGet v 10 0x20 = parGet s 10 0x20 := by
    by_cases hmax : parNat u 10 (0x11 + 4 * k) < lap
    · have hv : v = parSet u 10 (0x11 + 4 * k) (wrd lap) := if_pos hmax
      rw [hv]
      exact ⟨_, rfl, (parGet_parSet_ne (by omega) (by omega) (by omega) _).trans hu.1,
        (parGet_parSet_ne (by omega) (by decide) (by omega) _).trans hu.2⟩
    · have hv : v = u := if_neg hmax
      rw [hv]
      exact ⟨_, rfl, hu⟩
  obtain ⟨P, hv, hlap, hcount⟩ := hv
  clear_value v
  subst hv
  split
  · obtain ⟨q, hq⟩ := recordUntested_quiet (code := 0x0A05) (by simp) (parOr w 10 0 (wrd (2 ^ k))) k [wrd lap]
    rw [hq]
    exact ⟨_, q, rfl, (parGet_parSet_ne (u := 10) (i := 0) (by decide) (by omega) (by omega) _).trans hlap,
      (parGet_parSet_ne (u := 10) (i := 0) (by decide) (by decide) (by decide) _).trans hcount⟩
  · exact ⟨P, s.book.inq, rfl, hlap, hcount⟩

theorem eccRead_clean {s : State} {a : Nat} (h : errAt s a = .none) (back raced : Bool) : eccRead s a back raced = s := by
  unfold eccRead
  rw [h]

/-- A single error in a memory that can be written is corrected and counted. -/
theorem eccRead_corrects {s : State} {a : Nat} (h : errAt s a = .single) (hopen : memOf a = 1 → mramOpen s = true) :
    errAt (eccRead s a true false) a = .none ∧ parGet (eccRead s a true false) 10 0x20 = counted (parGet s 10 0x20) 1 := by
  have hnote (u : State) : parGet (noteCorrected u a) 10 0x20 = parGet u 10 0x20 := by
    unfold noteCorrected
    extract_lets g quiet
    split
    · obtain ⟨q, hq⟩ := recordUntested_quiet (code := 0x0A01) (by simp)
        { u with mem := { u.mem with ceTick := tblSet u.mem.ceTick none g (some u.now) } } g (twoWords (a / 8 * 8))
      rw [hq]
      rfl
    · rfl
  have hcan : (decide (memOf a ≠ 1) || mramOpen s) = true := by
    by_cases hm : memOf a = 1 <;> simp [hm, hopen]
  have hread : eccRead s a true false =
      parCount (setErr (noteCorrected (parCount s 10 (0x12 + 4 * memOf a) 1) a) a .none) 10 0x20 1 := by
    unfold eccRead
    rw [h]
    simp only [hcan, Bool.not_true, Bool.or_self, Bool.false_eq_true, if_false]
  rw [hread]
  have hmem : memOf a < 3 := by
    unfold memOf
    split <;> [decide; split <;> decide]
  refine ⟨tblGet_write_self (noteCorrected (parCount s 10 (0x12 + 4 * memOf a) 1) a).mem.errs EccErr.none EccErr.none (a / 8),
    (parGet_parCount_self ..).trans (congrArg (counted · 1) ((hnote _).trans ?_))⟩
  exact parGet_parSet_ne (by omega) (by decide) (by omega) _

/-- A word of SRAM or MRAM belongs to its memory. -/
theorem memOf_scrub {s : State} {k w : Nat} (hk : k < 2) (hlo : scrubBase k ≤ w) (hhi : w < scrubTop s k) : memOf (8 * w) = k := by
  have hlp : (lpBase : Nat) = 0x200000000 := rfl
  have hk' : k = 0 ∨ k = 1 := by omega
  unfold scrubBase at hlo
  unfold scrubTop at hhi
  unfold memOf
  rcases hk' with rfl | rfl
  · simp only [if_true] at hhi
    exact if_pos (by omega)
  · simp only [Nat.one_ne_zero, if_true, if_false] at hlo hhi
    rw [if_neg (by omega), if_pos (by omega)]

theorem scrubAt_clean {s : State} {k w : Nat} (hk : k < 2) (raced : Bool) (he : errAt s (8 * w) = .none) :
    (w + 1 < scrubTop s k → scrubAt k w raced s =
      { s with mem := { s.mem with scrubAddr := tblSet s.mem.scrubAddr 0 k (w + 1 - scrubBase k) } }) ∧
    (scrubTop s k ≤ w + 1 → tblGet (scrubAt k w raced s).mem.scrubAddr 0 k = 0 ∧
      tblGet (scrubAt k w raced s).mem.lapStart 0 k = s.now ∧
      parGet (scrubAt k w raced s) 10 (0x10 + 4 * k) = wrd ((s.now - tblGet s.mem.lapStart 0 k) / 400000)) := by
  have hat : scrubAt k w raced s = if scrubTop s k ≤ w + 1
      then lapEnd k { s with mem := { s.mem with scrubAddr := tblSet s.mem.scrubAddr 0 k (w + 1 - scrubBase k) } }
      else { s with mem := { s.mem with scrubAddr := tblSet s.mem.scrubAddr 0 k (w + 1 - scrubBase k) } } := by
    unfold scrubAt
    rw [eccRead_clean he]
    rfl
  rw [hat]
  refine ⟨fun h => if_neg (by omega), fun h => ?_⟩
  rw [if_pos h]
  obtain ⟨P, q, hend, hlap, -⟩ := lapEnd_ends
    (s := { s with mem := { s.mem with scrubAddr := tblSet s.mem.scrubAddr 0 k (w + 1 - scrubBase k) } }) hk
  refine ⟨?_, ?_, hlap⟩
  · rw [hend]
    exact tblGet_write_self (tblSet s.mem.scrubAddr 0 k (w + 1 - scrubBase k)) 0 0 k
  · rw [hend]
    exact tblGet_write_self s.mem.lapStart 0 s.now k

/-- A word with a single error is clean after the scrubber's step, and the write back is counted. -/
theorem scrubAt_corrects {s : State} {k w : Nat} (hk : k < 2) (hm : memOf (8 * w) = k) (hopen : k = 1 → mramOpen s = true)
    (he : errAt s (8 * w) = .single) :
    errAt (scrubAt k w false s) (8 * w) = .none ∧ parGet (scrubAt k w false s) 10 0x20 = counted (parGet s 10 0x20) 1 := by
  unfold scrubAt
  extract_lets u M t
  obtain ⟨hu, hcount⟩ := eccRead_corrects he fun h => hopen (hm.symm.trans h)
  split
  · obtain ⟨P, q, hend, -, hkeep⟩ := lapEnd_ends (s := t) hk
    refine ⟨?_, hkeep.trans hcount⟩
    rw [hend]
    exact hu
  · exact ⟨hu, hcount⟩

theorem scrubStep_scrubs {s : State} {k : Nat} (raced : Bool) (hk : k < 2) (haw : s.pwr.sleep = .awake)
    (htop : scrubBase k + tblGet s.mem.scrubAddr 0 k < scrubTop s k) :
    (errAt s (8 * (scrubBase k + tblGet s.mem.scrubAddr 0 k)) = .none → ∃ t, exec (.scrubStep k [] raced) s = .next t ∧
      (scrubBase k + tblGet s.mem.scrubAddr 0 k + 1 < scrubTop s k →
        tblGet t.mem.scrubAddr 0 k = tblGet s.mem.scrubAddr 0 k + 1 ∧
        t = { s with mem := { s.mem with scrubAddr := t.mem.scrubAddr } }) ∧
      (scrubTop s k ≤ scrubBase k + tblGet s.mem.scrubAddr 0 k + 1 → tblGet t.mem.scrubAddr 0 k = 0 ∧
        tblGet t.mem.lapStart 0 k = s.now ∧
        parGet t 10 (0x10 + 4 * k) = wrd ((s.now - tblGet s.mem.lapStart 0 k) / 400000))) ∧
    (errAt s (8 * (scrubBase k + tblGet s.mem.scrubAddr 0 k)) = .single → (k = 1 → mramOpen s = true) → ∃ t,
      exec (.scrubStep k [] false) s = .next t ∧ errAt t (8 * (scrubBase k + tblGet s.mem.scrubAddr 0 k)) = .none ∧
      parGet t 10 0x20 = counted (parGet s 10 0x20) 1) := by
  refine ⟨fun he => ?_, fun he hopen => ?_⟩
  · refine ⟨_, scrubStep_runs hk haw raced, ?_⟩
    obtain ⟨hnext, hlap⟩ := scrubAt_clean hk raced he
    refine ⟨fun h => ?_, hlap⟩
    rw [hnext h]
    refine ⟨(tblGet_write_self ..).trans ?_, rfl⟩
    omega
  · exact ⟨_, scrubStep_runs hk haw false,
      scrubAt_corrects hk (memOf_scrub hk (Nat.le_add_right _ _) htop) hopen he⟩

end Sys2Proof.Proofs
end

section
/-!
PROOFS. O46, third part: LPDDR5 training, refresh, relock and faults (R376, R384 to R390).
-/
namespace Sys2Proof.Proofs
open Sys2Proof.Machine Sys2Proof.Safety Sys2Proof.Laws

/-! LPDDR5_FAULT. -/

theorem eventDrive_lpFault (s : State) (args : List Word) : eventDrive (mkEvent s 0x0A08 0 args) = none := by simp [eventDrive, mkEvent]

theorem reactionOf_lpFault (s : State) : reactionOf s 0x0A08 0 = noReact := by simp [reactionOf]

/-- A fault of LPDDR5 keeps its cause and raises LPDDR5_FAULT with it; the interface stays. -/
theorem lpFault_faults (c : Nat) (s : State) : LpServed { s with mem := { s.mem with lpCause := c } } (lpFault c s) ∧
    Noted { s with mem := { s.mem with lpCause := c } } (lpFault c s) ∧ Raised s (lpFault c s) 0x0A08 0 [wrd c] := by
  unfold lpFault
  have hr : Raised s (raise { s with mem := { s.mem with lpCause := c } } 0x0A08 0 [wrd c]) 0x0A08 0 [wrd c] :=
    raise_raises { s with mem := { s.mem with lpCause := c } } (by decide) 0 [wrd c]
  generalize { s with mem := { s.mem with lpCause := c } } = u at hr ⊢
  rw [raise_bare (reactionOf_lpFault u)] at hr ⊢
  exact ⟨served_event (eventDrive_lpFault u _), record_noted (eventDrive_lpFault u _), hr⟩

theorem lpFault_raises {c : Nat} {s u : State} (hoff : u.mem.lpOnline = false) (hn : u.now = s.now)
    (hv : u.tim.timeValid = s.tim.timeValid) : (lpFault c u).mem.lpOnline = false ∧ (lpFault c u).mem.lpCause = c ∧
      Raised s (lpFault c u) 0x0A08 0 [wrd c] := by
  obtain ⟨hserved, -, hr⟩ := lpFault_faults c u
  exact ⟨hserved.online.trans hoff, hserved.cause, raised_of hr hn hv⟩

theorem lpddr5Training_trains {s : State} (hlp : hasLp s.part = true) (hoff : s.mem.lpOnline = false) (hcause : s.mem.lpCause = 0)
    (hres : s.pwr.resetting = none) (hboot : s.op = .boot → 5 ≤ s.pwr.bootStep) :
    (∀ d r, 1 ≤ d → d ≤ 3 → r ≤ 1 → exec (.lpddr5Training true d r) s =
      .next { s with mem := { s.mem with lpOnline := true, density := d, ranks := r } }) ∧
    (∀ ok d r, ok = false ∨ d = 0 ∨ 3 < d ∨ 1 < r → ∃ t, exec (.lpddr5Training ok d r) s = .next t ∧
      t.mem.lpOnline = false ∧ t.mem.lpCause = 1 ∧ Raised s t 0x0A08 0 [1]) := by
  have hearly : ¬(!hasLp s.part || s.mem.lpOnline || decide (s.mem.lpCause ≠ 0) || decide (s.pwr.resetting ≠ none) ||
      (decide (s.op = .boot) && decide (s.pwr.bootStep < 5))) = true := by
    simp only [hlp, hoff, hcause, hres, Bool.not_true, Bool.or_eq_true, Bool.and_eq_true, decide_eq_true_eq]
    have := hboot
    simp_all
  constructor
  · intro d r h1 h3 hr
    have hgood : (decide (1 ≤ d) && decide (d ≤ 3) && decide (r ≤ 1)) = true := by simp [h1, h3, hr]
    refine congrArg Host.Outcome.next ((if_neg hearly).trans ?_)
    simp only [hgood, Bool.and_self, if_true]
  · intro ok d r hbad
    have hgood : ¬(ok && (decide (1 ≤ d) && decide (d ≤ 3) && decide (r ≤ 1))) = true := by
      simp only [Bool.and_eq_true, decide_eq_true_eq, not_and]
      intro hok
      have hout := hbad.resolve_left (by rw [hok]; decide)
      omega
    refine ⟨_, congrArg Host.Outcome.next ((if_neg hearly).trans (if_neg hgood)), ?_⟩
    exact lpFault_raises hoff rfl rfl

/-! Polls and refreshes. -/

theorem lpFault_hot {c : Nat} {s u : State} (hover : u.mem.mr4Over = true) (hn : u.now = s.now)
    (hv : u.tim.timeValid = s.tim.timeValid) : (lpFault c u).mem.mr4Over = true ∧ refreshMult (lpFault c u) = 4 ∧
      Raised s (lpFault c u) 0x0A08 0 [wrd c] := by
  obtain ⟨-, ⟨P, C, Q, h⟩, hr⟩ := lpFault_faults c u
  have hheat : (lpFault c u).mem.mr4Over = true := by
    rw [h]
    exact hover
  exact ⟨hheat, if_pos hheat, raised_of hr hn hv⟩

theorem mr4Poll_polls {s : State} (hon : s.mem.lpOnline = true) (hdue : s.mem.mr4Tick + msTicks ≤ s.now) :
    (∀ m, m ∈ [1, 2, 4] → exec (.mr4Poll m false) s =
      .next { s with mem := { s.mem with mr4Tick := s.now, mr4 := m, mr4Over := false } }) ∧
    (∀ m, s.mem.mr4Over = false → ∃ t, exec (.mr4Poll m true) s = .next t ∧ t.mem.mr4Over = true ∧
      refreshMult t = 4 ∧ Raised s t 0x0A08 0 [3]) := by
  have hearly : ¬(!s.mem.lpOnline || decide (s.now < s.mem.mr4Tick + msTicks)) = true := by
    rw [hon]
    simpa using hdue
  constructor
  · intro m hm
    have hm' : m = 1 ∨ m = 2 ∨ m = 4 := by simpa using hm
    refine congrArg Host.Outcome.next ((if_neg hearly).trans ?_)
    rw [if_pos hm']
    rfl
  · intro m hover
    refine ⟨_, congrArg Host.Outcome.next ((if_neg hearly).trans (if_pos (by rw [hover]; rfl))), ?_⟩
    exact lpFault_hot rfl rfl rfl

theorem lpddr5Refresh_counts {s : State} (hon : s.mem.lpOnline = true) {b : Nat} (hb : b < 32) :
    (refreshDue s = false → exec (.lpddr5Refresh b) s = .next s) ∧
    (refreshDue s = true → exec (.lpddr5Refresh b) s = .next { s with mem := { s.mem with
      refTick := s.now, refreshes := s.mem.refreshes + (if s.mem.lpHeld then 0 else 1),
      missedRef := s.mem.missedRef + (if s.mem.lpHeld then 1 else 0) } }) := by
  have hb' : ¬32 ≤ b := by omega
  constructor
  · intro hdue
    exact congrArg Host.Outcome.next (if_pos (by simp [hdue]))
  · intro hdue
    refine congrArg Host.Outcome.next ((if_neg (by simp [hon, hdue, hb'])).trans ?_)
    cases s.mem.lpHeld <;> rfl

/-! The relock of TD5. -/

theorem lpddr5Relock_relocks {s : State} (hheld : s.mem.lpHeld = true) : ∃ t, exec .lpddr5Relock s = .next t ∧ t.mem.lpHeld = false ∧
    t.mem.missedRef = 0 ∧ t.mem.refreshes = s.mem.refreshes + s.mem.missedRef := by
  refine ⟨_, congrArg Host.Outcome.next (if_neg (by rw [hheld]; decide)), ?_⟩
  have hserved (u : State) : LpServed u (serveWaits (lpIssue 200 u)) := (stored_lpIssue 200 u).served.trans (served_serveWaits _)
  exact ⟨(hserved _).held, (hserved _).missed, (hserved _).refreshes⟩

/-! LPDDR5 goes offline. -/

/-- From `s` to `t` captures may end: buffers keep their place, none is armed again, and events are kept. -/
def CapsEnd (s t : State) : Prop := ∃ C Q, t = { s with mem := { s.mem with caps := C }, book := { s.book with inq := Q } } ∧
  (∀ b, (tblGet C {} b).lp = (s.cap b).lp ∧ ((s.cap b).armed = false → (tblGet C {} b).armed = false)) ∧
  ∀ e ∈ s.book.inq, e.code ≠ 0x0902 → e ∈ Q

theorem CapsEnd.refl (s : State) : CapsEnd s s := ⟨s.mem.caps, s.book.inq, rfl, fun _ => ⟨rfl, fun h => h⟩, fun _ h _ => h⟩

theorem CapsEnd.trans {s t u : State} (h : CapsEnd s t) (k : CapsEnd t u) : CapsEnd s u := by
  obtain ⟨C, Q, rfl, hC, hQ⟩ := h
  obtain ⟨C', Q', rfl, hC', hQ'⟩ := k
  exact ⟨C', Q', rfl, fun b => ⟨(hC' b).1.trans (hC b).1, fun hb => (hC' b).2 ((hC b).2 hb)⟩,
    fun e he hc => hQ' e (hQ e he hc) hc⟩

theorem capsEnd_updCap {s : State} {b : Nat} {f : Capture → Capture} (hlp : (f (s.cap b)).lp = (s.cap b).lp)
    (harmed : (s.cap b).armed = false → (f (s.cap b)).armed = false) : CapsEnd s (s.updCap b f) := by
  refine ⟨_, s.book.inq, rfl, fun c => ?_, fun _ h _ => h⟩
  rw [show tblGet (tblSet s.mem.caps {} b (f (s.cap b))) {} c = _ from cap_updCap s b c f]
  by_cases hc : c = b
  · rw [if_pos hc, hc]
    exact ⟨hlp, harmed⟩
  · rw [if_neg hc]
    exact ⟨rfl, fun h => h⟩

/-- The buffer of a capture that ends at a tick. -/
def stoppedAt (now : Nat) (c : Capture) : Capture := { c with armed := false, stopped := true, stopTick := now }

theorem captureEnd_idle {s : State} {b : Nat} (h : (s.cap b).armed = false) : captureEnd b s = s := if_pos (by rw [h]; rfl)

/-- The end of an armed capture stops its buffer, and CAPTURE_STOPPED is raised unless memory is under test. -/
theorem captureEnd_armed {s : State} {b : Nat} (h : (s.cap b).armed = true) : captureEnd b s =
    recordUntested (s.updCap b (stoppedAt s.now)) 0x0A07 b [] :=
  if_neg (by rw [h]; decide)

theorem capsEnd_quiet (s : State) (b : Nat) : CapsEnd s (recordUntested s 0x0A07 b []) := by
  have hgrow := (ev_recordUntested (code := 0x0A07) (idx := b) (args := []) (.refl s)).grow
  obtain ⟨q, hq⟩ := recordUntested_quiet (code := 0x0A07) (by simp) s b []
  rw [hq] at hgrow ⊢
  exact ⟨s.mem.caps, q, rfl, fun _ => ⟨rfl, fun h => h⟩, hgrow⟩

/-- A capture that has ended is not armed. -/
theorem capsEnd_captureEnd (b : Nat) (s : State) : CapsEnd s (captureEnd b s) ∧ ((captureEnd b s).cap b).armed = false := by
  cases harmed : (s.cap b).armed with
  | false =>
    rw [captureEnd_idle harmed]
    exact ⟨.refl s, harmed⟩
  | true =>
    rw [captureEnd_armed harmed]
    have hstop : CapsEnd s (s.updCap b (stoppedAt s.now)) :=
      capsEnd_updCap rfl fun _ => rfl
    have hoff : ((s.updCap b (stoppedAt s.now)).cap b).armed = false := by
      rw [cap_updCap, if_pos rfl]
      rfl
    generalize s.updCap b (stoppedAt s.now) = u at hstop hoff ⊢
    have hq := capsEnd_quiet u b
    refine ⟨hstop.trans hq, ?_⟩
    obtain ⟨C, Q, hu, hC, -⟩ := hq
    rw [hu]
    exact (hC b).2 hoff

/-- A capture in LPDDR5 loses its records and ends. -/
def lpCaptureEnd (b : Nat) (s : State) : State :=
  if (s.cap b).lp then captureEnd b (s.updCap b fun c => { c with queue := [] }) else s

theorem capsEnd_lpCaptureEnd (b : Nat) (s : State) :
    CapsEnd s (lpCaptureEnd b s) ∧ ((s.cap b).lp = true → ((lpCaptureEnd b s).cap b).armed = false) := by
  unfold lpCaptureEnd
  have hempty : CapsEnd s (s.updCap b fun c => { c with queue := [] }) := capsEnd_updCap rfl fun h => h
  obtain ⟨hend, hoff⟩ := capsEnd_captureEnd b (s.updCap b fun c => { c with queue := [] })
  split
  · exact ⟨hempty.trans hend, fun _ => hoff⟩
  next hlp => exact ⟨.refl s, fun h => absurd h hlp⟩

/-- Every capture in LPDDR5 ends. -/
theorem lpCaptures_end (s : State) : CapsEnd s (forUpTo 4 lpCaptureEnd s) ∧
    ∀ b, b < 4 → (s.cap b).lp = true → ((forUpTo 4 lpCaptureEnd s).cap b).armed = false := by
  refine ⟨forUpTo_rel (R := CapsEnd) .refl .trans (fun b _ u => (capsEnd_lpCaptureEnd b u).1) s, fun b hb hlp => ?_⟩
  have hsplit := forUpTo_split (R := CapsEnd) .refl .trans (c := b) (f := lpCaptureEnd)
    (fun k _ u => (capsEnd_lpCaptureEnd k u).1) 4 s
  rw [if_pos hb] at hsplit
  obtain ⟨u, ⟨C, Q, rfl, hC, -⟩, C', Q', hafter, hC', -⟩ := hsplit
  rw [hafter]
  exact (hC' b).2 ((capsEnd_lpCaptureEnd b _).2 ((hC b).1.trans hlp))

theorem lpOffline_stops (s : State) : (lpOffline s).mem.lpOnline = false ∧ (lpOffline s).mem.lpHeld = false ∧
    (lpOffline s).mem.lpCause = s.mem.lpCause ∧ wbit (parGet (lpOffline s) 13 4) 31 = false ∧ (lpOffline s).book.mirActive = false ∧
    (∀ b, b < 4 → (s.cap b).lp = true → ((lpOffline s).cap b).armed = false) ∧
    ∀ e ∈ s.book.inq, e.code ≠ 0x0902 → e ∈ (lpOffline s).book.inq := by
  unfold lpOffline
  extract_lets M off ended par
  have hend : CapsEnd off ended ∧ ∀ b, b < 4 → (off.cap b).lp = true → (ended.cap b).armed = false := lpCaptures_end off
  clear_value ended
  obtain ⟨⟨C, Q, rfl, -, hQ⟩, harmed⟩ := hend
  have hserved := served_serveWaits (updBook par fun b => { b with mirActive := false, mirQueue := [] })
  refine ⟨hserved.online, hserved.held, hserved.cause, ?_, hserved.mirror.1, fun b hb hlp => ?_, fun e he hc => hserved.grow e (hQ e he hc) hc⟩
  · rw [hserved.par 4 (by decide)]
    have hpar : parGet (updBook par fun b => { b with mirActive := false, mirQueue := [] }) 13 4 = _ := parGet_parSet_self _ 13 4 _
    rw [hpar]
    simp [wbit]
  · exact (hserved.caps b).2.2.trans (harmed b hb hlp)

theorem lpddr5RelockTimeout_stops {s : State} (hheld : s.mem.lpHeld = true) :
    (s.now < s.mem.lpHeldAt + 200 * usTicks → exec .lpddr5RelockTimeout s = .next s) ∧
    (s.mem.lpHeldAt + 200 * usTicks ≤ s.now → ∃ t, exec .lpddr5RelockTimeout s = .next t ∧ t.mem.lpOnline = false ∧ t.mem.lpHeld = false ∧
      t.mem.lpCause = 2 ∧ Raised s t 0x0A08 0 [2] ∧ wbit (parGet t 13 4) 31 = false ∧ t.book.mirActive = false ∧
      (∀ b, b < 4 → (s.cap b).lp = true → (t.cap b).armed = false)) := by
  refine ⟨fun h => congrArg Host.Outcome.next (if_neg fun h' => Nat.not_le.2 h h'.2),
    fun h => ⟨_, congrArg Host.Outcome.next (if_pos ⟨hheld, h⟩), ?_⟩⟩
  obtain ⟨hserved, -, hr⟩ := lpFault_faults 2 s
  obtain ⟨hon, hnheld, hcause, hpar, hmir, harmed, hgrow⟩ := lpOffline_stops (lpFault 2 s)
  exact ⟨hon, hnheld, hcause.trans hserved.cause, hgrow _ hr (show (0x0A08 : Nat) ≠ 0x0902 by decide), hpar, hmir,
    fun b hb hlp => harmed b hb ((hserved.caps b).2.1.trans hlp)⟩

/-! CAPTURE_STOP. -/

theorem captureStop_stops {s : State} {b : Nat} (hb : b < 4) (harmed : (s.cap b).armed = true) (hfull : captureFull (s.cap b) = true)
    (htest : underTest s 10 = false) : ∃ t, exec (.captureStop b) s = .next t ∧
      t.cap b = { s.cap b with armed := false, stopped := true, stopTick := s.now } ∧ Raised s t 0x0A07 b [] ∧
      t = { s with mem := { s.mem with caps := t.mem.caps }, book := { s.book with inq := t.book.inq } } := by
  refine ⟨_, congrArg Host.Outcome.next (if_pos ⟨hb, harmed, hfull⟩), ?_⟩
  have hcap : (s.updCap b (stoppedAt s.now)).cap b = stoppedAt s.now (s.cap b) := (cap_updCap s b b _).trans (if_pos rfl)
  have hquiet : recordUntested (s.updCap b (stoppedAt s.now)) 0x0A07 b [] = record (s.updCap b (stoppedAt s.now)) 0x0A07 b [] :=
    if_neg (Bool.eq_false_iff.1 htest)
  have hr := record_raises (s.updCap b (stoppedAt s.now)) 0x0A07 b []
  rw [captureEnd_armed harmed, hquiet]
  rw [record_quiet (by decide) (eventDrive_scrub (by simp) _ b []) (by decide)] at hr ⊢
  exact ⟨hcap, hr, rfl⟩

end Sys2Proof.Proofs
end

section
/-!
PROOFS. O46, fourth part: block fills and the requests that LPDDR5 completes (R384, R391 to R393).
-/
namespace Sys2Proof.Proofs
open Sys2Proof.Machine Sys2Proof.Safety Sys2Proof.Laws

/-! A block that has been filled. -/

/-- The map of written blocks shows a block once it has been set, also where its word had to be made again. -/
theorem setBlock_sets (s : State) (b : Nat) : blockWritten (setBlock s b) b = true := by
  unfold setBlock
  split
  · have hsplit := forUpTo_split (R := fun u v => ∀ k, blockWritten u k = true → blockWritten v k = true) (fun _ _ h => h)
      (fun h k j hj => k j (h j hj)) (c := b % 64) (f := fun k u => { u with mem := { u.mem with wmap := tblSet u.mem.wmap false (b / 64 * 64 + k) true } })
      (fun k _ u => (stored_mapSet u (b / 64 * 64 + k)).served.wmap) 64 (setErr (setMark s (wmapAddr b) .none) (wmapAddr b) .none)
    rw [if_pos (Nat.mod_lt _ (by decide))] at hsplit
    obtain ⟨u, -, hafter⟩ := hsplit
    refine hafter b ?_
    rw [show b / 64 * 64 + b % 64 = b by omega]
    exact tblGet_write_self u.mem.wmap false true b
  · exact tblGet_write_self s.mem.wmap false true b

/-- One write that waited for the fill of a block. -/
def fillWrite (x : Nat × Word) (s : State) : State := writeWord s x.1 x.2

/-- The writes that waited for the fill of a block. -/
def fillWrites (ws : List (Nat × Word)) (s : State) : State := forEach ws fillWrite s

theorem stored_fillWrites (ws : List (Nat × Word)) (s : State) : Stored s (fillWrites ws s) := by
  induction ws generalizing s with
  | nil => exact .refl s
  | cons x ws ih =>
    have hx : Stored s (fillWrite x s) := stored_writeWord s x.1 x.2
    exact hx.trans (ih (fillWrite x s))

theorem fillWrites_fills (ws : List (Nat × Word)) (s : State) : (fillWrites ws s).mem.fills = s.mem.fills := by
  induction ws generalizing s with
  | nil => rfl
  | cons x ws ih => exact ih (fillWrite x s)

theorem fillWrites_out (ws : List (Nat × Word)) (s : State) {a : Nat} (h : ∀ x ∈ ws, a < x.1 ∨ x.1 + 4 ≤ a) :
    readByte (fillWrites ws s) a = readByte s a := by
  induction ws generalizing s with
  | nil => rfl
  | cons x ws ih =>
    exact (ih (fillWrite x s) fun y hy => h y (List.mem_cons_of_mem _ hy)).trans (writeWord_out s x.1 x.2 (h x List.mem_cons_self))

/-- The block `b` written with zeros, and then with what waited for it. -/
def filled (b : Nat) (ws : List (Nat × Word)) (s : State) : State :=
  let zeroed := { s with mem := { s.mem with
    fills := s.mem.fills.filter fun x => x.1 ≠ b,
    cells := s.mem.cells.filter fun c => !(decide (lpBase + 4096 * b ≤ c.1) && decide (c.1 < lpBase + 4096 * b + 4096)) } }
  fillWrites ws (setBlock (freshWords zeroed (lpBase + 4096 * b) (lpBase + 4096 * b + 4096)) b)

theorem blockFillDone_runs {s : State} {b : Nat} {f : Nat × List (Nat × Word)}
    (hf : s.mem.fills.find? (fun f => decide (f.1 = b)) = some f) : exec (.blockFillDone b) s = .next (serveWaits (filled b f.2 s)) := by
  refine congrArg Host.Outcome.next ?_
  rw [hf]
  rfl

theorem filled_fills (b : Nat) (ws : List (Nat × Word)) (s : State) : blockWritten (filled b ws s) b = true ∧
    (filled b ws s).mem.fills = s.mem.fills.filter (fun x => decide (x.1 ≠ b)) ∧
    (filled b ws s).mem.lpWait = s.mem.lpWait ∧ (filled b ws s).mem.lpStore = s.mem.lpStore ∧
    ∀ a, (∀ x ∈ ws, a < x.1 ∨ x.1 + 4 ≤ a) → readByte (filled b ws s) a =
      if lpBase + 4096 * b ≤ a ∧ a < lpBase + 4096 * b + 4096 then 0 else readByte s a := by
  unfold filled
  extract_lets M zeroed
  have hset := setBlock_step (freshWords zeroed (lpBase + 4096 * b) (lpBase + 4096 * b + 4096)) b
  have hstored := stored_setBlock (freshWords zeroed (lpBase + 4096 * b) (lpBase + 4096 * b + 4096)) b
  have hwritten := setBlock_sets (freshWords zeroed (lpBase + 4096 * b) (lpBase + 4096 * b + 4096)) b
  generalize setBlock (freshWords zeroed (lpBase + 4096 * b) (lpBase + 4096 * b + 4096)) b = u at hset hstored hwritten ⊢
  obtain ⟨-, hcells, hfills, -⟩ := hset
  have hw := stored_fillWrites ws u
  refine ⟨hw.served.wmap b hwritten, (fillWrites_fills ws u).trans hfills, hw.waits.trans hstored.waits, hw.stores.trans hstored.stores,
    fun a ha => (fillWrites_out ws u ha).trans ?_⟩
  have hread : readByte u a = tblGet (s.mem.cells.filter fun c => !(decide (lpBase + 4096 * b ≤ c.1) && decide (c.1 < lpBase + 4096 * b + 4096))) 0 a :=
    congrArg (tblGet · 0 a) hcells
  rw [hread, tblGet_dropped s.mem.cells 0 (fun c => decide (lpBase + 4096 * b ≤ c) && decide (c < lpBase + 4096 * b + 4096)) a]
  simp only [Bool.and_eq_true, decide_eq_true_eq]
  rfl

theorem serveWaits_none {s : State} (hwait : s.mem.lpWait = []) (hstore : s.mem.lpStore = []) :
    serveWaits s = { s with mem := { s.mem with lpStore := [], lpWait := [] } } := by
  unfold serveWaits
  rw [hstore]
  simp only [forEach, hwait]

theorem blockFillDone_fills {s : State} {b : Nat} {f : Nat × List (Nat × Word)}
    (hf : s.mem.fills.find? (fun f => decide (f.1 = b)) = some f) (hwait : s.mem.lpWait = []) (hstore : s.mem.lpStore = []) :
    ∃ t, exec (.blockFillDone b) s = .next t ∧ blockWritten t b = true ∧
      t.mem.fills = s.mem.fills.filter (fun x => decide (x.1 ≠ b)) ∧
      (∀ a, (∀ x ∈ f.2, a < x.1 ∨ x.1 + 4 ≤ a) → readByte t a =
        if lpBase + 4096 * b ≤ a ∧ a < lpBase + 4096 * b + 4096 then 0 else readByte s a) := by
  refine ⟨_, blockFillDone_runs hf, ?_⟩
  obtain ⟨hwritten, hfills, hwaits, hstores, hread⟩ := filled_fills b f.2 s
  rw [serveWaits_none (hwaits.trans hwait) (hstores.trans hstore)]
  exact ⟨hwritten, hfills, hread⟩

theorem blockFillDone_writes {s : State} {b : Nat} {f : Nat × List (Nat × Word)}
    (hf : s.mem.fills.find? (fun f => decide (f.1 = b)) = some f) :
    ∃ t, exec (.blockFillDone b) s = .next t ∧ blockWritten t b = true :=
  ⟨_, blockFillDone_runs hf, (served_serveWaits _).wmap b (filled_fills b f.2 s).1⟩

/-! A request of LPDDR5 that is done. -/

/-- What a request that is done lands, by its requester. -/
def requestLand (who : Nat) (s : State) : State :=
  if who < 4 then
    (match (s.cap who).queue with
     | [] => s
     | rcd :: r => captureLand who rcd (s.updCap who fun c => { c with queue := r }))
  else mirrorLand s

theorem lpddr5RequestDone_runs {s : State} (hon : s.mem.lpOnline = true) (hheld : s.mem.lpHeld = false) {who : Nat} (hwho : who ∈ s.mem.lpOut) :
    exec (.lpddr5RequestDone who) s =
      .next (serveWaits (lpIssue 200 (requestLand who { s with mem := { s.mem with lpOut := s.mem.lpOut.erase who } }))) := by
  refine congrArg Host.Outcome.next ((if_neg ?_).trans rfl)
  simp [hon, hheld, hwho]

/-- Once a request has landed the next are issued and those that wait are served; where none waits no byte changes. -/
theorem lpNext_leaves (u : State) : LpServed u (serveWaits (lpIssue 200 u)) ∧
    (u.mem.lpWait = [] → u.mem.lpStore = [] → (serveWaits (lpIssue 200 u)).mem.cells = u.mem.cells) := by
  refine ⟨(stored_lpIssue 200 u).served.trans (served_serveWaits _), fun hwait hstore => ?_⟩
  obtain ⟨M, hM, hcells, hw, hs⟩ := lpIssue_mem 200 u
  rw [hM, serveWaits_none (hw.trans hwait) (hs.trans hstore)]
  exact hcells

theorem readWord_updCap (s : State) (b : Nat) (f : Capture → Capture) (a : Nat) : readWord (s.updCap b f) a = readWord s a := rfl

/-- A record that lands leaves its buffer's queue, and its two words stand in memory. -/
theorem captureLand_lands {b : Nat} {rcd : BitVec 64} {s : State} : ((captureLand b rcd s).cap b).queue = (s.cap b).queue ∧
    (captureLand b rcd s).mem.lpWait = s.mem.lpWait ∧ (captureLand b rcd s).mem.lpStore = s.mem.lpStore ∧
    (Lands s ((s.cap b).base + (s.cap b).write) → Lands s ((s.cap b).base + (s.cap b).write + 4) →
      readWord (captureLand b rcd s) ((s.cap b).base + (s.cap b).write) = wrd rcd.toNat ∧
      readWord (captureLand b rcd s) ((s.cap b).base + (s.cap b).write + 4) = wrd (rcd.toNat / 2 ^ 32)) := by
  unfold captureLand
  extract_lets c u
  have hu : Stored s u := stored_storeRange _ _ s
  have hstore := (storeRange_step (twoWords rcd.toNat) (c.base + c.write) s).2.2
  refine ⟨?_, hu.waits, hu.stores, fun h0 h4 => ?_⟩
  · rw [cap_updCap, if_pos rfl]
    refine Eq.trans ?_ (hu.served.caps b).1
    extract_lets w
    split <;> rfl
  · have hlands : ∀ i, i < (twoWords rcd.toNat).length → Lands s (c.base + c.write + 4 * i) := by
      intro i hi
      have hi' : i = 0 ∨ i = 1 := by
        have : i < 2 := hi
        omega
      rcases hi' with rfl | rfl
      · exact h0
      · exact h4
    have h0 : readWord u (c.base + c.write) = wrd rcd.toNat := hstore hlands 0 Nat.zero_lt_two
    have h1 : readWord u (c.base + c.write + 4) = wrd (rcd.toNat / 2 ^ 32) := hstore hlands 1 Nat.one_lt_two
    rw [readWord_updCap, readWord_updCap]
    exact ⟨h0, h1⟩

theorem lands_next {s : State} {a : Nat} (ha : a % 8 = 0) (hw : blockWritten s (lpBlock a) = true) (hf : blockFilling s (lpBlock a) = false) :
    Lands s a ∧ Lands s (a + 4) := by
  refine ⟨.inr ⟨hw, hf⟩, ?_⟩
  by_cases hm : memOf (a + 4) = 2
  · have hlp : (lpBase : Nat) = 0x200000000 := rfl
    have hblock : lpBlock (a + 4) = lpBlock a := by
      unfold lpBlock
      unfold memOf at hm
      split at hm
      · omega
      · split at hm
        · omega
        · omega
    rw [Lands, hblock]
    exact .inr ⟨hw, hf⟩
  · exact .inl hm

theorem lpddr5RequestDone_capture {s : State} (hon : s.mem.lpOnline = true) (hheld : s.mem.lpHeld = false) {b : Nat} {x : BitVec 64}
    {r : List (BitVec 64)} (hb : b < 4) (hout : b ∈ s.mem.lpOut) (hq : (s.cap b).queue = x :: r) :
    ∃ t, exec (.lpddr5RequestDone b) s = .next t ∧
      (t.cap b).queue = r ∧ (s.mem.lpWait = [] → s.mem.lpStore = [] → ((s.cap b).base + (s.cap b).write) % 8 = 0 →
        blockWritten s (lpBlock ((s.cap b).base + (s.cap b).write)) = true →
        blockFilling s (lpBlock ((s.cap b).base + (s.cap b).write)) = false →
        readWord t ((s.cap b).base + (s.cap b).write) = wrd x.toNat ∧
        readWord t ((s.cap b).base + (s.cap b).write + 4) = wrd (x.toNat / 2 ^ 32)) := by
  refine ⟨_, lpddr5RequestDone_runs hon hheld hout, ?_⟩
  have hland : requestLand b { s with mem := { s.mem with lpOut := s.mem.lpOut.erase b } } =
      captureLand b x (State.updCap { s with mem := { s.mem with lpOut := s.mem.lpOut.erase b } } b fun c => { c with queue := r }) := by
    unfold requestLand
    rw [if_pos hb]
    split
    next h => exact absurd (hq.symm.trans h) (List.cons_ne_nil x r)
    next x' r' h =>
      obtain ⟨rfl, rfl⟩ := List.cons.inj (hq.symm.trans h)
      rfl
  have hcap : (State.updCap { s with mem := { s.mem with lpOut := s.mem.lpOut.erase b } } b fun c => { c with queue := r }).cap b =
      { s.cap b with queue := r } := (cap_updCap _ b b _).trans (if_pos rfl)
  have hlanded := captureLand_lands (b := b) (rcd := x)
    (s := State.updCap { s with mem := { s.mem with lpOut := s.mem.lpOut.erase b } } b fun c => { c with queue := r })
  rw [hcap] at hlanded
  rw [hland]
  obtain ⟨hqueue, hwaits, hstores, hwords⟩ := hlanded
  generalize captureLand b x (State.updCap { s with mem := { s.mem with lpOut := s.mem.lpOut.erase b } } b fun c => { c with queue := r }) = u at *
  obtain ⟨hserved, hcells⟩ := lpNext_leaves u
  refine ⟨(hserved.caps b).1.trans hqueue, fun hwait hstore ha hw hf => ?_⟩
  obtain ⟨h0, h4⟩ := lands_next ha hw hf
  have hread : ∀ a, readWord (serveWaits (lpIssue 200 u)) a = readWord u a := fun a =>
    readWord_congr fun k _ => congrArg (tblGet · 0 (a + k)) (hcells (hwaits.trans hwait) (hstores.trans hstore))
  rw [hread, hread]
  exact hwords h0 h4

theorem mirrorLand_lands {s : State} {e : LogEntry} {r : List LogEntry} {p : Nat × Nat} (hq : s.book.mirQueue = e :: r) (harea : mirrorArea s = some p)
    (hsize : s.book.mirIndex + 1 < mirrorSize s) : (mirrorLand s).book.mirQueue = r ∧ (mirrorLand s).book.mirIndex = s.book.mirIndex + 1 := by
  unfold mirrorLand
  rw [hq, harea]
  have hu : LpServed s (storeRange (p.1 + 32 * s.book.mirIndex) (eventWords e) s) := (stored_storeRange _ _ s).served
  have hroom : s.book.mirIndex + 1 < mirrorSize (storeRange (p.1 + 32 * s.book.mirIndex) (eventWords e) s) := by
    have hfield := hu.par 7 (by decide)
    unfold mirrorSize parField at hsize ⊢
    rw [hfield]
    exact hsize
  exact (congrArg (fun t : State => t.book.mirQueue = r ∧ t.book.mirIndex = s.book.mirIndex + 1) (if_pos hroom)).mpr ⟨rfl, rfl⟩

theorem lpddr5RequestDone_mirror {s : State} (hon : s.mem.lpOnline = true) (hheld : s.mem.lpHeld = false) {e : LogEntry} {r : List LogEntry}
    {p : Nat × Nat} (hout : 4 ∈ s.mem.lpOut) (hq : s.book.mirQueue = e :: r) (harea : mirrorArea s = some p)
    (hsize : s.book.mirIndex + 1 < mirrorSize s) : ∃ t, exec (.lpddr5RequestDone 4) s = .next t ∧ t.book.mirQueue = r ∧
      t.book.mirIndex = s.book.mirIndex + 1 := by
  refine ⟨_, lpddr5RequestDone_runs hon hheld hout, ?_⟩
  have hland : requestLand 4 { s with mem := { s.mem with lpOut := s.mem.lpOut.erase 4 } } =
      mirrorLand { s with mem := { s.mem with lpOut := s.mem.lpOut.erase 4 } } := if_neg (by decide)
  obtain ⟨hqueue, hindex⟩ := mirrorLand_lands (s := { s with mem := { s.mem with lpOut := s.mem.lpOut.erase 4 } }) hq harea hsize
  obtain ⟨-, hmq, hmi⟩ := (lpNext_leaves (mirrorLand { s with mem := { s.mem with lpOut := s.mem.lpOut.erase 4 } })).1.mirror
  rw [hland]
  exact ⟨hmq.trans hqueue, hmi.trans hindex⟩

/-- Settles O46: each row by its own lemma; what a store and a served request leave aside is `Stored` and `LpServed`. -/
theorem memoryUpkeep : Obligations.MemoryUpkeep := by
  unfold Obligations.MemoryUpkeep
  intro s
  refine ⟨fun k up raced => ?_, fun k raced hk haw htop => scrubStep_scrubs raced hk haw htop,
    fun hlp hoff hcause hres hboot => lpddr5Training_trains hlp hoff hcause hres hboot,
    fun hon => ⟨fun m hm hdue => (mr4Poll_polls hon hdue).1 m hm, fun m hover hdue => (mr4Poll_polls hon hdue).2 m hover,
      fun b hb => (lpddr5Refresh_counts hon hb).1, fun b hb => (lpddr5Refresh_counts hon hb).2⟩,
    fun hheld => ⟨lpddr5Relock_relocks hheld, (lpddr5RelockTimeout_stops hheld).1, (lpddr5RelockTimeout_stops hheld).2⟩,
    fun b f hf hwait hstore => blockFillDone_fills hf hwait hstore, fun b f hf => blockFillDone_writes hf,
    fun b hb harmed hfull htest => captureStop_stops hb harmed hfull htest,
    fun hon hheld => ⟨fun b x r hb hout hq => lpddr5RequestDone_capture hon hheld hb hout hq,
      fun e r base n hout hq harea hsize => lpddr5RequestDone_mirror hon hheld hout hq harea hsize⟩⟩
  exact scrubStep_leaves s k up raced

end Sys2Proof.Proofs
end

section
/-!
PROOFS. O59 fails: SHUTDOWN writes the fallback values of the contexts that it stops, and a compare so written can land past the end of the
period that its timebase is in. The period that then starts is one at which a drive whose hand-over instant has come enters RUN (R418), and
with it the device, so that STATE_CHANGE names RUN and not the state in which the host gave SHUTDOWN.
-/
namespace Sys2Proof.Proofs
open Sys2Proof.Machine Sys2Proof.Safety Sys2Proof.Laws Sys2Proof.Tests

/-- The image of a context whose output 0 is phase 0 of the modulator front of drive 0. -/
def frontImage : List Word := List.replicate 6 0 ++ [0x00000110]

/-- An active device in STANDBY without a link, whose drive 0 waits for its hand-over instant. Pair 0 of that drive follows its modulator,
timebase 0 has reached the end of its period at this very tick, and context 0 is ENABLED. -/
def handOverDue : State := { ready with
  marg := { role := 1 },
  drives := [(0, { arch := .direct, cfg := 0x10, hd := some 1000000 })],
  par := [(paAddr 5 0x101, 1000), (paAddr 5 0x200, 0x80000000), (paAddr 5 0x301, 0x43C80000)],
  hatch := { tbs := [(0, { running := true, t0 := 999000 })] },
  grav := { ctxs := [(0, { st := .enabled, image := frontImage })] } }

/-- The state after SHUTDOWN, which any state stands for where the command is refused. -/
def afterShutdown : State :=
  match exec (.shutdown 1022) (cmd handOverDue 0xB1 []) with
  | .next t => t
  | _ => handOverDue

theorem exec_shutdown_handOverDue : exec (.shutdown 1022) (cmd handOverDue 0xB1 []) = .next afterShutdown := rfl

/-- STATE_CHANGE is raised twice: from STANDBY to RUN, and from RUN to SHUTDOWN. -/
theorem afterShutdown_events : afterShutdown.book.inq =
    [mkEvent handOverDue 0x0001 0 [1, 2], mkEvent handOverDue 0x0001 0 [2, 4]] := by decide +kernel

/-- Refutes O59: a drive that takes its hand-over while SHUTDOWN stops the contexts puts the device into RUN, so that STATE_CHANGE from
STANDBY to SHUTDOWN is never raised. -/
theorem not_powerSteps : ¬ Obligations.PowerSteps := by
  unfold Obligations.PowerSteps
  intro h
  obtain ⟨-, -, -, -, -, -, -, hcommands, -⟩ := h (cmd handOverDue 0xB1 [])
  have hstarts : Starts (cmd handOverDue 0xB1 []) 1022 0xB1 [] := starts_cmd (by decide +kernel)
  obtain ⟨-, hshutdown⟩ := hcommands 1022 [] (by decide) (by decide)
  obtain ⟨t, ht, -, -, -, -, -, hraised, -⟩ := (hshutdown hstarts (by decide)).1 (.inr rfl) rfl
  obtain rfl : afterShutdown = t := Host.Outcome.next.inj (exec_shutdown_handOverDue.symm.trans ht)
  unfold Raised at hraised
  rw [afterShutdown_events] at hraised
  exact absurd hraised (by decide)

end Sys2Proof.Proofs
end
